-- ==== Sys2Proof/Word.lean ====
section
/-! DEFINITION. The word types of the device and their plainest arithmetic (R9, R20). -/

namespace Sys2Proof

/-- A double: the width of the general, address and control registers (R9, R170). -/
abbrev Word := BitVec 64

/-- A byte, the unit every location holds (R9, R245). -/
abbrev Byte := BitVec 8

end Sys2Proof
end

