-- ==== Sys2Proof/Syntax.lean ====
section
/-! DEFINITION. The instructions of the model: one constructor for every row of spec/opcode_table.json.
The rows are of two kinds. The words of the engines SEQ, AXU, BKE and VEC (R268 to R285) carry their
common header and their operand fields. The device events (spec/95_what_each_step_holds.md) carry
what an observer outside the event must name: the core, the bank, the link, the value written. An
event without operands acts on the unit State names as the current one (`cur`, `curPart`, `curLink`)
or on the registers that started it. Constructors without operands stand last. -/

namespace Sys2Proof

/-- The engines of a core, numbered 0 to 4 (R170). -/
inductive Eng where
  | seq | axu | bke | vec | cpe
  deriving DecidableEq, Repr

/-- The common header of an engine word: wait W, token take T, token give G (R268). -/
structure Hdr where
  w : BitVec 3
  t : Bool
  g : Bool
  deriving DecidableEq, Repr

/-- Flat index of a core and of its column, 36s + 6c + k (R18). -/
abbrev CoreIx := Fin 288
/-- Partition number (R77). -/
abbrev PartIx := Fin 48
/-- Peer link number (R56). -/
abbrev LinkIx := Fin 48
/-- Context slot of a mailbox (R80). -/
abbrev SlotIx := Fin 8
/-- A fix group of a partition: 0 to 47 a cluster, 48 to 55 a stack, 56 the whole partition (R128). -/
abbrev GroupIx := Fin 57

/-- A PCIe function of the module: the physical function or the virtual function of a partition (R71). -/
inductive Fn where
  | pf
  | vf (p : PartIx)
  deriving DecidableEq, Repr

/-- The base address registers that have contents (R71). -/
inductive Bar where
  | bar0 | bar2 | bar4
  deriving DecidableEq, Repr

/-- A port: the host port or one of the 48 optical ports (R47, R51). -/
inductive PortRef where
  | host
  | opt (p : Fin 48)
  deriving DecidableEq, Repr

/-- Status of a PCIe completion: successful, unsupported request, completer abort (R68). -/
inductive CplStatus where
  | ok | ur | ca
  deriving DecidableEq, Repr

/-- The functions of an atomic access, in the order of the opcode map (R277, R310). -/
inductive AtomFn where
  | add | and | or | xor | min | max | minu | maxu | swap | cas
  deriving DecidableEq, Repr

/-- How a port comes out of training (R53). -/
inductive Training where
  | x16 | x8 | x4 | down | dark
  deriving DecidableEq, Repr

/-- What a memory request asks for: bytes, a store of bytes, or an atomic operation with its operands. -/
inductive ReqKind where
  | read
  | write (bytes : List Byte)
  | atomic (fn : AtomFn) (b e : Nat)
  deriving DecidableEq, Repr

/-- A transaction layer packet as it comes out of a member port of a peer link (R58, R61). -/
inductive Tlp where
  | request (q : Nat) (ia : Nat) (n : Nat) (kind : ReqKind) (tag : Nat)
  | completion (id : Nat) (status : CplStatus) (bytes : List Byte)
  | message (mcode : BitVec 8) (arg : BitVec 24) (pay : BitVec 32)
  | config
  deriving DecidableEq, Repr

/-- An option of PCIe that a function may advertise (R47); `other` is any that the table of R47 does not name. -/
inductive PcieOption where
  | flitMode | tags14 | payload4K | readRequest4K | atomicOp | resizableBar | sriov | linkIde | selectiveIde | doe | spdm | cma | ideKm | ats
  | pasid | pri | ltr | tph | ecrc | nonFlit | cxl | other (id : Nat)
  deriving DecidableEq, Repr

/-- What a PCIe configuration request of the host does (R47): resize BAR2, set the number of virtual functions, ask whether an option is
advertised, read or write another register of the configuration space; or, over DOE, program, start or stop an IDE stream (IDE_KM) or ask
for the certificate chain (SPDM, CMA). -/
inductive CfgOp where
  | bar2Size (log2GiB : Fin 9)
  | numVfs (n : Fin 49)
  | advertised (o : PcieOption)
  | ideProgram (stream : Nat) (selective : Bool) (key : List Byte)
  | ideStart (stream : Nat)
  | ideStop (stream : Nat)
  | certificate
  | read (off : Nat)
  | other (off : Nat) (value : Nat)
  deriving DecidableEq, Repr

/-- Where a FIXARR or FIXREL comes from: a peer link, or a partition of this module (R133). -/
inductive FixPeer where
  | link (l : LinkIx)
  | part (p : PartIx)
  deriving DecidableEq, Repr

/-- One constructor for every row of the table of operations and events. -/
inductive Instr where
  /-- No operation apart from its header wait and tokens, in any engine. (R269) -/
  | nop (h : Hdr)
  /-- Occupies the AXU, BKE or VEC queue for count cycles. (R270) -/
  | idle (h : Hdr) (c : BitVec 21)
  /-- gd := ga + gb modulo 2^64. (R301) -/
  | add (h : Hdr) (d : Fin 32) (a : Fin 32) (b : Fin 32)
  /-- gd := ga − gb modulo 2^64. (R301) -/
  | sub (h : Hdr) (d : Fin 32) (a : Fin 32) (b : Fin 32)
  /-- Bitwise AND. (R301) -/
  | and (h : Hdr) (d : Fin 32) (a : Fin 32) (b : Fin 32)
  /-- Bitwise OR. (R301) -/
  | or (h : Hdr) (d : Fin 32) (a : Fin 32) (b : Fin 32)
  /-- Bitwise XOR. (R301) -/
  | xor (h : Hdr) (d : Fin 32) (a : Fin 32) (b : Fin 32)
  /-- Logical shift left. (R301) -/
  | sll (h : Hdr) (d : Fin 32) (a : Fin 32) (b : Fin 32)
  /-- Logical shift right. (R301) -/
  | srl (h : Hdr) (d : Fin 32) (a : Fin 32) (b : Fin 32)
  /-- Arithmetic shift right. (R301) -/
  | sra (h : Hdr) (d : Fin 32) (a : Fin 32) (b : Fin 32)
  /-- Low 64 bits of the signed product. (R301) -/
  | mul (h : Hdr) (d : Fin 32) (a : Fin 32) (b : Fin 32)
  /-- High 64 bits of the signed product. (R301) -/
  | mulh (h : Hdr) (d : Fin 32) (a : Fin 32) (b : Fin 32)
  /-- High 64 bits of the unsigned product. (R301) -/
  | mulhu (h : Hdr) (d : Fin 32) (a : Fin 32) (b : Fin 32)
  /-- Signed division toward zero, never faulting. (R302) -/
  | div (h : Hdr) (d : Fin 32) (a : Fin 32) (b : Fin 32)
  /-- Unsigned division, never faulting. (R302) -/
  | divu (h : Hdr) (d : Fin 32) (a : Fin 32) (b : Fin 32)
  /-- Signed remainder. (R302) -/
  | rem (h : Hdr) (d : Fin 32) (a : Fin 32) (b : Fin 32)
  /-- Unsigned remainder. (R302) -/
  | remu (h : Hdr) (d : Fin 32) (a : Fin 32) (b : Fin 32)
  /-- Signed minimum. (R301) -/
  | min (h : Hdr) (d : Fin 32) (a : Fin 32) (b : Fin 32)
  /-- Signed maximum. (R301) -/
  | max (h : Hdr) (d : Fin 32) (a : Fin 32) (b : Fin 32)
  /-- Unsigned minimum. (R301) -/
  | minu (h : Hdr) (d : Fin 32) (a : Fin 32) (b : Fin 32)
  /-- Unsigned maximum. (R301) -/
  | maxu (h : Hdr) (d : Fin 32) (a : Fin 32) (b : Fin 32)
  /-- Signed set-less-than. (R301) -/
  | slt (h : Hdr) (d : Fin 32) (a : Fin 32) (b : Fin 32)
  /-- Unsigned set-less-than. (R301) -/
  | sltu (h : Hdr) (d : Fin 32) (a : Fin 32) (b : Fin 32)
  /-- Count of leading zero bits. (R301) -/
  | clz (h : Hdr) (d : Fin 32) (a : Fin 32)
  /-- Count of trailing zero bits. (R301) -/
  | ctz (h : Hdr) (d : Fin 32) (a : Fin 32)
  /-- Count of set bits. (R301) -/
  | popc (h : Hdr) (d : Fin 32) (a : Fin 32)
  /-- gd := ga + sign-extended imm11. (R303) -/
  | addi (h : Hdr) (d : Fin 32) (a : Fin 32) (imm : BitVec 11)
  /-- Signed compare with an immediate. (R303) -/
  | slti (h : Hdr) (d : Fin 32) (a : Fin 32) (imm : BitVec 11)
  /-- AND with a zero-extended immediate. (R303) -/
  | andi (h : Hdr) (d : Fin 32) (a : Fin 32) (imm : BitVec 11)
  /-- OR with a zero-extended immediate. (R303) -/
  | ori (h : Hdr) (d : Fin 32) (a : Fin 32) (imm : BitVec 11)
  /-- XOR with a zero-extended immediate. (R303) -/
  | xori (h : Hdr) (d : Fin 32) (a : Fin 32) (imm : BitVec 11)
  /-- Shift left by an immediate. (R303) -/
  | slli (h : Hdr) (d : Fin 32) (a : Fin 32) (sh : BitVec 6)
  /-- Logical shift right by an immediate. (R303) -/
  | srli (h : Hdr) (d : Fin 32) (a : Fin 32) (sh : BitVec 6)
  /-- Arithmetic shift right by an immediate. (R303) -/
  | srai (h : Hdr) (d : Fin 32) (a : Fin 32) (sh : BitVec 6)
  /-- Jump relative and link into g31. (R306) -/
  | jal (h : Hdr) (off : BitVec 21)
  /-- Jump to ga + 4 × imm and link into gd. (R306) -/
  | jalr (h : Hdr) (d : Fin 32) (a : Fin 32) (imm : BitVec 11)
  /-- Load or insert a 16-bit immediate at quarter q of gd. (R304) -/
  | lis (h : Hdr) (q : BitVec 2) (d : Fin 32) (imm : BitVec 16)
  /-- Branch if equal. (R305) -/
  | beq (h : Hdr) (a : Fin 32) (b : Fin 32) (off : BitVec 11)
  /-- Branch if not equal. (R305) -/
  | bne (h : Hdr) (a : Fin 32) (b : Fin 32) (off : BitVec 11)
  /-- Branch if signed less. (R305) -/
  | blt (h : Hdr) (a : Fin 32) (b : Fin 32) (off : BitVec 11)
  /-- Branch if signed greater or equal. (R305) -/
  | bge (h : Hdr) (a : Fin 32) (b : Fin 32) (off : BitVec 11)
  /-- Branch if unsigned less. (R305) -/
  | bltu (h : Hdr) (a : Fin 32) (b : Fin 32) (off : BitVec 11)
  /-- Branch if unsigned greater or equal. (R305) -/
  | bgeu (h : Hdr) (a : Fin 32) (b : Fin 32) (off : BitVec 11)
  /-- Sign-extending load; gd takes the taint of ga. (R308) -/
  | ld (h : Hdr) (d : Fin 32) (a : Fin 32) (z : BitVec 2) (imm : BitVec 9)
  /-- Store of the low bytes of gd. (R308) -/
  | st (h : Hdr) (d : Fin 32) (a : Fin 32) (z : BitVec 2) (imm : BitVec 9)
  /-- Load-consume; gd is tainted. (R308) -/
  | ldc (h : Hdr) (d : Fin 32) (a : Fin 32) (z : BitVec 2) (imm : BitVec 9)
  /-- Acquire, release or full fence at a scope. (R314) -/
  | fence (h : Hdr) (k : BitVec 2) (s : BitVec 4)
  /-- Atomically adds one floating-point term to an exact cell. (R312) -/
  | faddx (h : Hdr) (a : Fin 32) (b : Fin 32) (x : BitVec 2) (s : BitVec 4)
  /-- Atomically reads an exact cell and rounds it into gd. (R313) -/
  | xrd (h : Hdr) (d : Fin 32) (a : Fin 32) (m : BitVec 3) (x : BitVec 2) (s : BitVec 4)
  /-- One give from SEQ to engine p. (R315) -/
  | tkg (w : BitVec 3) (p : BitVec 4)
  /-- One take from engine p, or from a link token counter. (R315) -/
  | tkt (w : BitVec 3) (p : BitVec 4)
  /-- Reads a token FIFO occupancy or an LTC value. (R316) -/
  | tkq (w : BitVec 3) (d : Fin 32) (a : Fin 32) (imm : BitVec 11)
  /-- Atomic fetch-add. (R310) -/
  | amoAdd (h : Hdr) (d : Fin 32) (a : Fin 32) (b : Fin 32) (x : BitVec 2) (s : BitVec 4)
  /-- Atomic fetch-AND. (R310) -/
  | amoAnd (h : Hdr) (d : Fin 32) (a : Fin 32) (b : Fin 32) (x : BitVec 2) (s : BitVec 4)
  /-- Atomic fetch-OR. (R310) -/
  | amoOr (h : Hdr) (d : Fin 32) (a : Fin 32) (b : Fin 32) (x : BitVec 2) (s : BitVec 4)
  /-- Atomic fetch-XOR. (R310) -/
  | amoXor (h : Hdr) (d : Fin 32) (a : Fin 32) (b : Fin 32) (x : BitVec 2) (s : BitVec 4)
  /-- Atomic signed minimum. (R310) -/
  | amoMin (h : Hdr) (d : Fin 32) (a : Fin 32) (b : Fin 32) (x : BitVec 2) (s : BitVec 4)
  /-- Atomic signed maximum. (R310) -/
  | amoMax (h : Hdr) (d : Fin 32) (a : Fin 32) (b : Fin 32) (x : BitVec 2) (s : BitVec 4)
  /-- Atomic unsigned minimum. (R310) -/
  | amoMinu (h : Hdr) (d : Fin 32) (a : Fin 32) (b : Fin 32) (x : BitVec 2) (s : BitVec 4)
  /-- Atomic unsigned maximum. (R310) -/
  | amoMaxu (h : Hdr) (d : Fin 32) (a : Fin 32) (b : Fin 32) (x : BitVec 2) (s : BitVec 4)
  /-- Atomic swap. (R310) -/
  | amoSwap (h : Hdr) (d : Fin 32) (a : Fin 32) (b : Fin 32) (x : BitVec 2) (s : BitVec 4)
  /-- Atomic compare-and-swap, including 16 bytes. (R310) -/
  | amoCas (h : Hdr) (d : Fin 32) (a : Fin 32) (b : Fin 32) (x : BitVec 2) (s : BitVec 4)
  /-- Starts the named stopped queues. (R317) -/
  | qstart (h : Hdr) (a : Fin 32) (m : BitVec 3)
  /-- Stops the named running queues. (R317) -/
  | qstop (h : Hdr) (a : Fin 32) (m : BitVec 3)
  /-- Reads a queue's state, occupancy and next issue offset. (R318) -/
  | qstat (h : Hdr) (d : Fin 32) (a : Fin 32) (e : BitVec 3)
  /-- Issues the fix that starts leg ga + imm and waits for release. (R319) -/
  | fix (w : BitVec 3) (a : Fin 32) (imm : BitVec 11)
  /-- Sets SIZECLS for the next fix. (R320) -/
  | size (h : Hdr) (a : Fin 32) (imm : BitVec 11)
  /-- Reads the chronometer. (R321) -/
  | chron (h : Hdr) (d : Fin 32)
  /-- Reads the core's leg state. (R322) -/
  | legq (h : Hdr) (d : Fin 32)
  /-- Reads one field of a handle entry without checks. (R323) -/
  | hqry (h : Hdr) (d : Fin 32) (a : Fin 32) (f : BitVec 6)
  /-- Issues a box copy with transform to the CPE. (R416) -/
  | cpy (h : Hdr) (d : Fin 32) (a : Fin 32) (b : Fin 32) (s : BitVec 4) (e : Bool) (c : Bool)
  /-- Issues a box fill with PAT to the CPE. (R416) -/
  | cpyf (h : Hdr) (d : Fin 32) (a : Fin 32) (b : Fin 32) (s : BitVec 4) (e : Bool) (c : Bool)
  /-- Issues a copy whose status word is returned in gd. (R416) -/
  | cpyw (h : Hdr) (d : Fin 32) (a : Fin 32) (b : Fin 32) (s : BitVec 4) (e : Bool) (c : Bool)
  /-- Replays the sectors an earlier command did not write. (R417) -/
  | cpyr (h : Hdr) (d : Fin 32) (a : Fin 32) (b : Fin 32) (s : BitVec 4) (e : Bool) (c : Bool)
  /-- Derives a steer tile from a code-plane tile. (R418) -/
  | sort (h : Hdr) (d : Fin 32) (a : Fin 32) (b : Fin 32) (s : BitVec 4) (e : Bool) (c : Bool)
  /-- Packs a dense box into a CSR structure. (R419) -/
  | pack (h : Hdr) (d : Fin 32) (a : Fin 32) (b : Fin 32) (s : BitVec 4) (e : Bool) (c : Bool)
  /-- Reads a control page word. (R422) -/
  | crr (h : Hdr) (d : Fin 32) (off : BitVec 8)
  /-- Writes a control page word. (R422) -/
  | crw (h : Hdr) (a : Fin 32) (off : BitVec 8)
  /-- Enters the handler with CAUSE 0x80 + n. (R423) -/
  | trap (h : Hdr) (nl : BitVec 7)
  /-- Returns from the handler to EPC in PMODE. (R424) -/
  | sret (h : Hdr)
  /-- Ends the core's SEQ with a value once the other queues are quiet. (R425) -/
  | halt (h : Hdr) (a : Fin 32)
  /-- Writes an object-table entry and every handle cache of the partition. (R426) -/
  | hset (h : Hdr) (a : Fin 32) (b : Fin 32)
  /-- Reads a scan word. (R427) -/
  | scanr (h : Hdr) (d : Fin 32) (a : Fin 32)
  /-- Maps, tests or narrows the column's row-bus wires. (R428) -/
  | wrep (h : Hdr) (a : Fin 32) (b : Fin 32)
  /-- Streams cnt + 1 lines into the LDQ. (R334) -/
  | lds (h : Hdr) (a : Fin 16) (nl : BitVec 3) (s : BitVec 2) (c : BitVec 8)
  /-- Supplies the addresses of cnt + 1 STQ slots. (R334) -/
  | sts (h : Hdr) (a : Fin 16) (nl : BitVec 3) (s : BitVec 2) (c : BitVec 8)
  /-- Gathers lines by index into the LDQ. (R335) -/
  | ldg (h : Hdr) (a : Fin 16) (b : Fin 16) (nl : BitVec 3) (s : BitVec 2) (c : BitVec 8)
  /-- Scatters STQ lines by index. (R335) -/
  | stg (h : Hdr) (a : Fin 16) (b : Fin 16) (nl : BitVec 3) (s : BitVec 2) (c : BitVec 8)
  /-- Loads handle lines, or CSR column indices, into the LDQ. (R336) -/
  | ldh (h : Hdr) (hd : BitVec 16) (nl : BitVec 3) (x : BitVec 2)
  /-- Stores STQ lines through a handle. (R336) -/
  | sth (h : Hdr) (hd : BitVec 16) (nl : BitVec 3) (x : BitVec 2)
  /-- Orders AXU accesses before it against those after it. (R338) -/
  | mark (h : Hdr)
  /-- Adds or subtracts a shifted address register. (R330) -/
  | aadd (h : Hdr) (d : Fin 16) (a : Fin 16) (b : Fin 16) (neg : Bool) (sh : BitVec 6)
  /-- Writes a nest register field from a sum of address registers. (R330) -/
  | aaddNw (h : Hdr) (k : BitVec 4) (a : Fin 16) (b : Fin 16) (f : BitVec 3)
  /-- Loads a sign-extended 16-bit immediate into an address register. (R329) -/
  | ali (h : Hdr) (d : Fin 16) (imm : BitVec 16)
  /-- Shifts an address register left 16 bits and inserts an immediate. (R329) -/
  | aliSh (h : Hdr) (d : Fin 16) (imm : BitVec 16)
  /-- Copies an address register. (R331) -/
  | amov (h : Hdr) (d : Fin 16) (a : Fin 16)
  /-- AXU zero-overhead loop over a nest register. (R332) -/
  | loop (h : Hdr) (nl : BitVec 3) (l : BitVec 4)
  /-- Steps a nest register's POS. (R333) -/
  | lend (h : Hdr) (nl : BitVec 3)
  /-- Pushes the intersection of two sorted lists. (R341) -/
  | isect (h : Hdr) (a : Fin 16) (b : Fin 16) (c : BitVec 8)
  /-- Pushes the union of two sorted lists. (R341) -/
  | imerge (h : Hdr) (a : Fin 16) (b : Fin 16) (c : BitVec 8)
  /-- Counts a sorted-list intersection into a register, optionally pushing it. (R342) -/
  | icnt (h : Hdr) (a : Fin 16) (b : Fin 16) (p : Bool) (d : Fin 16)
  /-- Activates a DRAM row of a window bank. (R345) -/
  | ract (h : Hdr) (win : Fin 4) (b : Fin 32) (a : Fin 16)
  /-- Consumes the open row to the BKE or a scratchpad lane. (R346) -/
  | rcon (h : Hdr) (win : Fin 4) (b : Fin 32) (a : Fin 16) (o : BitVec 2) (d : BitVec 5)
  /-- Precharges a window bank. (R347) -/
  | rpre (h : Hdr) (win : Fin 4) (b : Fin 32) (a : Fin 16)
  /-- Reads a bank's row state. (R348) -/
  | rstat (h : Hdr) (win : Fin 4) (b : Fin 32) (a : Fin 16)
  /-- Moves beats between scratchpad banks with conversion. (R339) -/
  | ring (h : Hdr) (a : Fin 16) (b : Fin 16) (l : BitVec 5) (c : BitVec 8)
  /-- Loads an activation segment and its scales into the window. (R356) -/
  | bwin (h : Hdr) (hd : BitVec 16) (nl : BitVec 3) (x : BitVec 2)
  /-- Loads the six BKE nest registers from scratchpad. (R357) -/
  | bwinCfg (h : Hdr) (hd : BitVec 16)
  /-- Adds window activations into buckets from a steer tile. (R359) -/
  | bsteer (h : Hdr) (hd : BitVec 16) (nl : BitVec 3) (x : BitVec 2)
  /-- Adds window activations into buckets from a code plane. (R359) -/
  | bplane (h : Hdr) (hd : BitVec 16) (nl : BitVec 3) (x : BitVec 2)
  /-- Clears every bucket and BLIVE. (R360) -/
  | bclr (h : Hdr)
  /-- Loads a codebook register. (R358) -/
  | cbld (h : Hdr) (hd : BitVec 16) (k : Fin 8)
  /-- Multiplies the buckets by codewords exactly into the working lanes. (R361) -/
  | mulb (h : Hdr) (c : BitVec 3)
  /-- Direct-mode 16 × 16 block products into the working lanes. (R362) -/
  | macd (h : Hdr) (l : BitVec 5) (f : BitVec 2) (nl : BitVec 3) (x : BitVec 2)
  /-- Exchanges the working and visible accumulator banks. (R363) -/
  | zswap (h : Hdr)
  /-- Rounds visible lanes once and writes them to the scratchpad. (R365) -/
  | zdrain (h : Hdr) (a : Fin 256) (b : Fin 256) (f : BitVec 3) (s : BitVec 2)
  /-- Clears a range of visible lanes. (R366) -/
  | zclr (h : Hdr) (a : Fin 256) (b : Fin 256)
  /-- Writes lane images to the scratchpad. (R367) -/
  | zspill (h : Hdr) (a : Fin 256) (b : Fin 256) (k : Bool) (s : BitVec 2)
  /-- Restores lanes from images. (R367) -/
  | zfill (h : Hdr) (a : Fin 256) (b : Fin 256) (k : Bool) (s : BitVec 2)
  /-- Adds scratchpad elements exactly into lanes. (R368) -/
  | zaddv (h : Hdr) (a : Fin 256) (b : Fin 256) (k : Bool) (f : BitVec 2) (s : BitVec 2)
  /-- Writes the flags of every lane of a bank. (R369) -/
  | zstat (h : Hdr) (l : BitVec 5) (k : Bool) (s : BitVec 2)
  /-- BKE zero-overhead loop. (R370) -/
  | loopBke (h : Hdr) (nl : BitVec 3) (l : BitVec 4)
  /-- Steps a BKE nest POS. (R370) -/
  | lendBke (h : Hdr) (nl : BitVec 3)
  /-- Element-wise floating-point add. (R384) -/
  | vadd (h : Hdr) (k : Fin 8) (n : Bool) (d : Fin 32) (a : Fin 32) (b : Fin 32) (x : BitVec 2)
  /-- Element-wise floating-point subtract. (R384) -/
  | vsub (h : Hdr) (k : Fin 8) (n : Bool) (d : Fin 32) (a : Fin 32) (b : Fin 32) (x : BitVec 2)
  /-- Element-wise floating-point multiply. (R384) -/
  | vmul (h : Hdr) (k : Fin 8) (n : Bool) (d : Fin 32) (a : Fin 32) (b : Fin 32) (x : BitVec 2)
  /-- Fused multiply-add into vd. (R385) -/
  | vfma (h : Hdr) (k : Fin 8) (n : Bool) (d : Fin 32) (a : Fin 32) (b : Fin 32) (x : BitVec 2)
  /-- Fused multiply-subtract. (R385) -/
  | vfms (h : Hdr) (k : Fin 8) (n : Bool) (d : Fin 32) (a : Fin 32) (b : Fin 32) (x : BitVec 2)
  /-- Fused d − a × b. (R385) -/
  | vfnma (h : Hdr) (k : Fin 8) (n : Bool) (d : Fin 32) (a : Fin 32) (b : Fin 32) (x : BitVec 2)
  /-- Element-wise divide. (R384) -/
  | vdiv (h : Hdr) (k : Fin 8) (n : Bool) (d : Fin 32) (a : Fin 32) (b : Fin 32) (x : BitVec 2)
  /-- Element-wise square root. (R384) -/
  | vsqrt (h : Hdr) (k : Fin 8) (n : Bool) (d : Fin 32) (a : Fin 32) (x : BitVec 2)
  /-- Element-wise minimum with NaN rules. (R386) -/
  | vmin (h : Hdr) (k : Fin 8) (n : Bool) (d : Fin 32) (a : Fin 32) (b : Fin 32) (x : BitVec 2)
  /-- Element-wise maximum with NaN rules. (R386) -/
  | vmax (h : Hdr) (k : Fin 8) (n : Bool) (d : Fin 32) (a : Fin 32) (b : Fin 32) (x : BitVec 2)
  /-- Clears the sign bit. (R387) -/
  | vabs (h : Hdr) (k : Fin 8) (n : Bool) (d : Fin 32) (a : Fin 32) (x : BitVec 2)
  /-- Inverts the sign bit. (R387) -/
  | vneg (h : Hdr) (k : Fin 8) (n : Bool) (d : Fin 32) (a : Fin 32) (x : BitVec 2)
  /-- Copies the sign of b onto a. (R387) -/
  | vcpys (h : Hdr) (k : Fin 8) (n : Bool) (d : Fin 32) (a : Fin 32) (b : Fin 32) (x : BitVec 2)
  /-- Wrapping integer add. (R388) -/
  | viadd (h : Hdr) (k : Fin 8) (n : Bool) (d : Fin 32) (a : Fin 32) (b : Fin 32) (x : BitVec 2)
  /-- Wrapping integer subtract. (R388) -/
  | visub (h : Hdr) (k : Fin 8) (n : Bool) (d : Fin 32) (a : Fin 32) (b : Fin 32) (x : BitVec 2)
  /-- Wrapping integer multiply. (R388) -/
  | vimul (h : Hdr) (k : Fin 8) (n : Bool) (d : Fin 32) (a : Fin 32) (b : Fin 32) (x : BitVec 2)
  /-- Signed integer minimum. (R388) -/
  | vimin (h : Hdr) (k : Fin 8) (n : Bool) (d : Fin 32) (a : Fin 32) (b : Fin 32) (x : BitVec 2)
  /-- Signed integer maximum. (R388) -/
  | vimax (h : Hdr) (k : Fin 8) (n : Bool) (d : Fin 32) (a : Fin 32) (b : Fin 32) (x : BitVec 2)
  /-- Bitwise AND. (R388) -/
  | vand (h : Hdr) (k : Fin 8) (n : Bool) (d : Fin 32) (a : Fin 32) (b : Fin 32) (x : BitVec 2)
  /-- Bitwise OR. (R388) -/
  | vor (h : Hdr) (k : Fin 8) (n : Bool) (d : Fin 32) (a : Fin 32) (b : Fin 32) (x : BitVec 2)
  /-- Bitwise XOR. (R388) -/
  | vxor (h : Hdr) (k : Fin 8) (n : Bool) (d : Fin 32) (a : Fin 32) (b : Fin 32) (x : BitVec 2)
  /-- Shift left. (R388) -/
  | vshl (h : Hdr) (k : Fin 8) (n : Bool) (d : Fin 32) (a : Fin 32) (b : Fin 32) (x : BitVec 2)
  /-- Logical shift right. (R388) -/
  | vshr (h : Hdr) (k : Fin 8) (n : Bool) (d : Fin 32) (a : Fin 32) (b : Fin 32) (x : BitVec 2)
  /-- Arithmetic shift right. (R388) -/
  | vsra (h : Hdr) (k : Fin 8) (n : Bool) (d : Fin 32) (a : Fin 32) (b : Fin 32) (x : BitVec 2)
  /-- Floating-point compare into a predicate pair. (R389) -/
  | vcmp (h : Hdr) (k : Fin 8) (n : Bool) (c : BitVec 3) (p : BitVec 2) (a : Fin 32) (b : Fin 32) (x : BitVec 2)
  /-- Integer compare into a predicate pair. (R389) -/
  | vicmp (h : Hdr) (k : Fin 8) (n : Bool) (c : BitVec 3) (p : BitVec 2) (a : Fin 32) (b : Fin 32) (x : BitVec 2)
  /-- Class test into a predicate pair. (R390) -/
  | vclass (h : Hdr) (k : Fin 8) (n : Bool) (p : BitVec 2) (a : Fin 32) (m : BitVec 5) (x : BitVec 2)
  /-- Predicate AND. (R391) -/
  | kand (h : Hdr) (k : Fin 8) (n : Bool) (d : Fin 8) (a : Fin 8) (b : Fin 8)
  /-- Predicate OR. (R391) -/
  | kor (h : Hdr) (k : Fin 8) (n : Bool) (d : Fin 8) (a : Fin 8) (b : Fin 8)
  /-- Predicate XOR. (R391) -/
  | kxor (h : Hdr) (k : Fin 8) (n : Bool) (d : Fin 8) (a : Fin 8) (b : Fin 8)
  /-- Predicate NOT. (R391) -/
  | knot (h : Hdr) (k : Fin 8) (n : Bool) (d : Fin 8) (a : Fin 8)
  /-- Predicate move. (R391) -/
  | kmov (h : Hdr) (k : Fin 8) (n : Bool) (d : Fin 8) (a : Fin 8)
  /-- Counts the set predicate bits into elements. (R392) -/
  | kcnt (h : Hdr) (k : Fin 8) (n : Bool) (d : Fin 32) (a : Fin 8)
  /-- Selects between two sources by the guard. (R393) -/
  | vsel (h : Hdr) (k : Fin 8) (n : Bool) (d : Fin 32) (a : Fin 32) (b : Fin 32) (x : BitVec 2)
  /-- Moves elements. (R393) -/
  | vmov (h : Hdr) (k : Fin 8) (n : Bool) (d : Fin 32) (a : Fin 32) (x : BitVec 2)
  /-- Writes an immediate constant. (R393) -/
  | vmovi (h : Hdr) (k : Fin 8) (n : Bool) (d : Fin 32) (imm : BitVec 10) (x : BitVec 2)
  /-- Broadcasts an element, row or column. (R393) -/
  | vbcst (h : Hdr) (k : Fin 8) (n : Bool) (d : Fin 32) (a : Fin 32) (s : BitVec 5) (x : BitVec 2)
  /-- Converts to or from FP32 or BF16. (R394) -/
  | vcvt (h : Hdr) (k : Fin 8) (n : Bool) (d : Fin 32) (a : Fin 32) (f : BitVec 4) (x : BitVec 2)
  /-- Quantises blocks into elements and E8M0 scales. (R395) -/
  | vqnt (h : Hdr) (d : Fin 32) (a : Fin 32) (b : Fin 32) (x : BitVec 2)
  /-- Dequantises elements by their scales. (R396) -/
  | vdq (h : Hdr) (k : Fin 8) (n : Bool) (d : Fin 32) (a : Fin 32) (b : Fin 32) (x : BitVec 2)
  /-- Rounds to integral values. (R397) -/
  | vrnd (h : Hdr) (k : Fin 8) (n : Bool) (d : Fin 32) (a : Fin 32) (m : BitVec 3) (x : BitVec 2)
  /-- Correctly rounded 2^v. (R398) -/
  | vexp2 (h : Hdr) (k : Fin 8) (n : Bool) (d : Fin 32) (a : Fin 32) (x : BitVec 2)
  /-- Correctly rounded log2. (R398) -/
  | vlog2 (h : Hdr) (k : Fin 8) (n : Bool) (d : Fin 32) (a : Fin 32) (x : BitVec 2)
  /-- Correctly rounded reciprocal. (R398) -/
  | vrcp (h : Hdr) (k : Fin 8) (n : Bool) (d : Fin 32) (a : Fin 32) (x : BitVec 2)
  /-- Correctly rounded reciprocal square root. (R398) -/
  | vrsq (h : Hdr) (k : Fin 8) (n : Bool) (d : Fin 32) (a : Fin 32) (x : BitVec 2)
  /-- Sine in turns. (R398) -/
  | vsin (h : Hdr) (k : Fin 8) (n : Bool) (d : Fin 32) (a : Fin 32) (x : BitVec 2)
  /-- Cosine in turns. (R398) -/
  | vcos (h : Hdr) (k : Fin 8) (n : Bool) (d : Fin 32) (a : Fin 32) (x : BitVec 2)
  /-- Hyperbolic tangent. (R398) -/
  | vtanh (h : Hdr) (k : Fin 8) (n : Bool) (d : Fin 32) (a : Fin 32) (x : BitVec 2)
  /-- Error function. (R398) -/
  | verf (h : Hdr) (k : Fin 8) (n : Bool) (d : Fin 32) (a : Fin 32) (x : BitVec 2)
  /-- Row or column maximum. (R399) -/
  | vrmax (h : Hdr) (k : Fin 8) (n : Bool) (d : Fin 32) (a : Fin 32) (s : Bool) (x : BitVec 2)
  /-- Row or column minimum. (R399) -/
  | vrmin (h : Hdr) (k : Fin 8) (n : Bool) (d : Fin 32) (a : Fin 32) (s : Bool) (x : BitVec 2)
  /-- Adds elements exactly into accumulator lanes. (R400) -/
  | vsumz (h : Hdr) (k : Fin 8) (n : Bool) (l : BitVec 5) (a : Fin 32) (e : Bool) (s : BitVec 2) (x : BitVec 2)
  /-- Writes VSH or VMD from a register. (R401) -/
  | vshape (h : Hdr) (a : Fin 32) (x : BitVec 2)
  /-- Transposes the tile. (R402) -/
  | vtrn (h : Hdr) (d : Fin 32) (a : Fin 32) (x : BitVec 2)
  /-- Permutes elements by index. (R402) -/
  | vshuf (h : Hdr) (k : Fin 8) (n : Bool) (d : Fin 32) (a : Fin 32) (b : Fin 32) (x : BitVec 2)
  /-- Rotates the columns. (R402) -/
  | vrot (h : Hdr) (k : Fin 8) (n : Bool) (d : Fin 32) (a : Fin 32) (b : Fin 32) (x : BitVec 2)
  /-- Pops LDQ entries into a register. (R403) -/
  | vld (h : Hdr) (k : Fin 8) (n : Bool) (d : Fin 32) (x : BitVec 2)
  /-- Pushes a register as STQ data. (R404) -/
  | vst (h : Hdr) (k : Fin 8) (n : Bool) (a : Fin 32) (x : BitVec 2)
  /-- Reads, and optionally clears, the statistics counters. (R405) -/
  | vstat (h : Hdr) (d : Fin 32) (x : BitVec 2)
  /-- A bank's corrected-error count passes 64 within 2^28 cycles; the bank moves to a PEND state and the survey interrupt is raised. (R36) -/
  | pendOnErrors (col : CoreIx) (bank : Fin 32)
  /-- A layer stays at or above 92 °C for 2^24 cycles; its live banks move to PEND and the survey interrupt is raised. (R36) -/
  | pendOnHeat (col : CoreIx) (layer : Fin 4)
  /-- An uncorrectable error moves the bank to FAILED and raises machine check 0x74 in every partition holding a row window on the bank or a page in it. (R37) -/
  | uncorrectableDramError (col : CoreIx) (bank : Fin 32)
  /-- A 2^20-cycle power window ends; the power interrupt is raised if the mean exceeds the budget. (R44) -/
  | powerWindow (meanWatts : Nat)
  /-- A bank's refresh slot begins; fault 0x53 is raised if the bank is OPEN or PRECHARGING. (R214) -/
  | refreshSlotStart (col : CoreIx) (bank : Fin 32)
  /-- A bank is still OPEN at t_a + TRASMAX + 1 with no RPRE, which raises 0x53. (R214) -/
  | rowOpenTooLong (col : CoreIx) (bank : Fin 32) (tAct : Nat)
  /-- A host request to BAR2 is translated through the window and performed, refused and retried, or completed with CA or UR. (R74) -/
  | hostMemoryRequest (fn : Fn) (off : Nat) (n : Nat) (kind : ReqKind) (tag : Nat)
  /-- A host AtomicOp to BAR2 executes atomically at device memory; one to BAR0 or BAR4, or one that is misaligned, completes with UR. (R49) -/
  | hostAtomicop (fn : Fn) (bar : Bar) (off : Nat) (n : Nat) (op : AtomFn) (b e : Nat) (tag : Nat)
  /-- An optical port finishes training at x16 or x8, or stays DOWN or DARK: the channels that fail in either direction, and the FABID of the
  other end, none where no light comes. (R53) -/
  | portUp (port : Fin 48) (rx tx : BitVec 32) (peer : Option (BitVec 12))
  /-- A received HELLO is checked against PEER; the link reaches UP when every member is UP with the right identity, and otherwise ERR is set. (R57) -/
  | hello (l : LinkIx) (port : Fin 48) (fabid : BitVec 12)
  /-- A striped TLP arrives; it is checked for its member, held, and delivered in SEQ order. (R59) -/
  | peerTlpArrival (l : LinkIx) (port : Fin 48) (seq : BitVec 16) (tlp : Tlp)
  /-- A STAGE message writes its value into stage signal word SGWn. (R62) -/
  | stage (n : Fin 64) (v : BitVec 32)
  /-- A remote token give adds c to a link token counter of the linked context, to a pending count, or is discarded in MALF; overflow raises 0x42. (R63) -/
  | tkgive (l : LinkIx) (core : BitVec 9) (j : Fin 4) (c : BitVec 8)
  /-- A fabric fix arrival is held for the fix and compared with the awaited leg. (R133) -/
  | fixarr (src : FixPeer) (p : PartIx) (leg : BitVec 16) (stage : BitVec 6) (cnt : BitVec 32)
  /-- A fabric fix release is compared with the awaited leg and schedules the local release at t_f + 48, or raises 0x47. (R133) -/
  | fixrel (src : FixPeer) (p : PartIx) (leg : BitVec 16) (course : BitVec 3)
  /-- A received STOP raises 0x67 in the bound partitions and is forwarded once per identity on the other bound UP links. (R64) -/
  | stop (l : LinkIx) (ident : BitVec 24) (cause : BitVec 8)
  /-- An origination delayed for identity reuse is sent once 2^24 cycles have passed. (R64) -/
  | stopDelayedSend (ident : BitVec 24) (cause : BitVec 8) (p : PartIx)
  /-- A non-posted request has no completion within 2^24 cycles, which raises 0x63. (R68) -/
  | completionTimeout (id : Nat)
  /-- A completion arrives; a UR or CA raises 0x64, or 0x34 for a host-port AtomicOp UR. (R68) -/
  | completionArrival (id : Nat) (status : CplStatus) (bytes : List Byte)
  /-- A received TLP fails its IDE check; it is discarded and 0x65 is raised. (R68) -/
  | ideIntegrityFailure (port : PortRef)
  /-- A read of the low word of a 64-bit port counter latches its high word. (R70) -/
  | counterLowRead (port : PortRef) (rx : Bool)
  /-- A write to a chart key slot takes effect at once, or is held while a context names the slot. (R78) -/
  | keySlotWrite (j : SlotIx) (dw : Fin 8) (v : BitVec 64)
  /-- A held key slot write takes effect when the last naming context stops naming the slot. (R78) -/
  | keySlotWriteApply (j : SlotIx)
  /-- GO on an idle or ended slot latches the launch fields and sets STATE to CHECK, or sets LERR. (R82) -/
  | launchGo (p : PartIx) (tag : BitVec 8)
  /-- ABORT kills the live context in SLOT as at Lookout T2, or sets LERR. (R82) -/
  | abort (p : PartIx) (tag : BitVec 8)
  /-- The Helm applies the launch tests in order and moves the launch to LOAD or REJECTED. (R84) -/
  | launchCheck (p : PartIx) (slot : SlotIx)
  /-- The loader sets the section split, writes segments, handle templates and the leg table, and moves the context to READY or FAULT. (R88) -/
  | overlayLoad (p : PartIx) (slot : SlotIx)
  /-- The Helm starts every sequencer of the partition at one CHRON cycle in user mode with the start state, and STATE becomes RUN. (R89) -/
  | contextStart (p : PartIx) (slot : SlotIx)
  /-- An SPDM CHALLENGE over DOE is answered with a CHALLENGE_AUTH signed by the attestation key. (R91) -/
  | spdmChallenge (nonce : Nat)
  /-- An SPDM measurement request is answered with the measurement blocks, signed while the key lasts. (R91) -/
  | spdmGetMeasurements (index : Nat) (signed : Bool)
  /-- A write to a row window register starts precharging the open rows of the old BMASK. (R99) -/
  | rwinWrite (core : CoreIx) (win : Fin 4) (hi : Bool) (v : BitVec 64)
  /-- After the precharges and tRP, the window write applies and V is re-evaluated. (R99) -/
  | rwinApply (core : CoreIx) (win : Fin 4) (hi : Bool) (v : BitVec 64)
  /-- The memory-side walker translates a device, host or peer request through the partition's tables and performs, refuses or faults it. (R103) -/
  | pageWalk (id : Nat)
  /-- A data, refusal or fault response arrives at the requester and is applied. (R104) -/
  | accessResponse (id : Nat)
  /-- 64 × H cycles after a refusal, the requester re-sends the access. (R105) -/
  | refusalRetry (id : Nat)
  /-- A write of FQHEAD frees queue space so that held fault records are written. (R110) -/
  | fqheadWrite (p : PartIx) (v : BitVec 32)
  /-- A write of MGCQHEAD frees ring space so that a held completion is written and the engine continues. (R113) -/
  | mgcqheadWrite (v : BitVec 32)
  /-- A host ATS invalidation removes the named entries and completes once every request that used them has completed. (R120) -/
  | atsInvalidation (addr : Nat) (n : Nat)
  /-- A peer request for bound partition q is translated through q's device table, and is completed with data, CA or UR, or retried. (R121) -/
  | peerRequest (l : LinkIx) (q : Nat) (ia : Nat) (n : Nat) (kind : ReqKind) (tag : Nat)
  /-- A core in a fixed leg has not arrived by its due cycle, which raises deviation 0x41. (R130) -/
  | dueCycleMiss (core : CoreIx) (leg : BitVec 16)
  /-- The fix completes at t_c; the keys are taken, HOTPEND applies, and a course is chosen or 0x44 is raised. (R130) -/
  | fixComplete (p : PartIx) (grp : GroupIx)
  /-- At t_rel the group's LEGNO, COURSE and HEALTH are set and the engines are pointed at the course entries. (R131) -/
  | fixRelease (p : PartIx) (grp : GroupIx)
  /-- After switch-in, groups are released at t_in + 48, or cut groups at t_res. (R162) -/
  | resumeFix (p : PartIx) (grp : GroupIx)
  /-- The row controller reactivates a listed row at its scheduled cycle before the resume release. (R162) -/
  | rowReactivation (col : CoreIx) (bank : Fin 32) (row : BitVec 11)
  /-- Threshold T1 expires on a watched queue; pre-emption is requested and the slot is held. (R144) -/
  | lookoutT1 (core : CoreIx) (eng : Eng)
  /-- Threshold T2 expires; the partition is killed with cause 0x45. (R144) -/
  | lookoutT2 (core : CoreIx) (eng : Eng)
  /-- Threshold T3 expires; a core that has not acknowledged the kill is fenced and 0x75 is raised. (R144) -/
  | lookoutT3 (core : CoreIx) (eng : Eng)
  /-- A write to SCADDR starts a scan read whose result is valid in SCDATA 64 cycles later. (R165) -/
  | scanAddressWrite (addr : BitVec 32)
  /-- CKCTL REQ arms a hold at the next matching device- or fabric-scope fix, then a switch-out to PREEMPTED with HELD set. (R167) -/
  | checkpointRequest (p : PartIx) (leg : BitVec 16)
  /-- A write to a register that has no row of its own sets its fields by their access codes. (R12) -/
  | registerWrite (fn : Fn) (bar : Bar) (off : Nat) (n : Nat) (v : Nat)
  /-- An engine word completes and retires, making its token give. (R181) -/
  | wordRetire (core : CoreIx) (id : Nat)
  /-- A row beat fails its CRC; later beats are not delivered and 0x55 is raised. (R217) -/
  | rowBeatFailure (col : CoreIx) (beat : Fin 32)
  /-- A CPE command enters the queue when its block arrives and receives the next CMDID. (R407) -/
  | commandEntry (core : CoreIx) (id : Nat)
  /-- A sector is written or faults; a first fault fixes the remaining set of sectors to attempt. (R411) -/
  | sectorDone (core : CoreIx) (cmd : BitVec 16) (sector : Nat)
  /-- A CPE command completes: release, completion record, give and follow-on word in order. (R413) -/
  | commandComplete (core : CoreIx) (cmd : BitVec 16)
  /-- A word whose OP cell, fn, enumerated field or must-be-zero field is unassigned issues and raises hard fault 0x01, taking if T = 1. (R271) -/
  | unassignedEncoding (h : Hdr)
  /-- At e + TRP a PRECHARGING bank becomes CLOSED. (R213) -/
  | prechargeComplete (col : CoreIx) (bank : Fin 32)
  /-- An RCON beat is delivered at t + 1 + i, setting row-input mask bits or writing its lane beats, and a stalled row-source BKE word resumes. (R212) -/
  | rowBeatDelivery (col : CoreIx) (beat : Fin 32)
  /-- The host port finishes training and its STATE becomes UP, raising interrupt bit 4. (R69) -/
  | hostLinkUp (how : Training)
  /-- A received flit fails FEC or CRC, or a replay timer expires; the flit is counted and discarded, and the sender resends it with unchanged content. (R67) -/
  | flitReplay (port : PortRef) (corrected : Bool)
  /-- A PCIe configuration request from the host reads or writes function configuration, such as the BAR2 resize or SR-IOV settings. (R47) -/
  | hostConfigurationRequest (fn : Fn) (op : CfgOp)
  /-- A stop record write that has been refused for 2^20 cycles is dropped, and PHALT.NOREC is set. (R155) -/
  | stopRecordRefusalTimeout (p : PartIx) (core : CoreIx) (eng : Fin 8)
  /-- Power-up or PERST# deassertion resets everything, including CHRON; the survey is rebuilt, the flash retirement list is reapplied, and the Helm ROM verifies and starts firmware. (R46) -/
  | coldReset
  /-- The firmware finishes the survey, reapplies the retirement list and sets VALID, or sets FWERR if no firmware copy is valid. (R90) -/
  | bootComplete
  /-- A physical-function FLR resets all partitions, engines, registers and on-package memory, and keeps CHRON, the survey map and LPDDR6 contents. (R46) -/
  | warmReset
  /-- The Helm, or an FLR of a partition's virtual function, resets that partition's context, registers and queues, keeps its memory and discards its mailbox shadow. (R46) -/
  | partitionReset
  /-- The 54 V input falls below its operating range and the whole device turns off. (R26) -/
  | powerLoss
  /-- A logic die reaches 110 °C or a DRAM layer reaches 95 °C; machine check 0x71 halts every partition and EMERG is latched. (R43) -/
  | thermalEmergency
  /-- A rail stays outside its window for 1,400 cycles; machine check 0x72 halts every partition. (R43) -/
  | supplyEmergency
  /-- The SVCTL command QUIESCE moves an in-service bank that no row window names to QUIET, or sets ERR. (R38) -/
  | quiesce
  /-- The SVCTL command COMMIT retires a QUIET bank with no resident page and recomputes the pool interleave, or sets ERR. (R38) -/
  | commit
  /-- An SVCTL command finishes; the map and masks are updated under GEN and BUSY clears. (R38) -/
  | surveyCommandDone
  /-- TDRAM reaches HOTON; HOTPEND is set, or a pending return to the normal period is withdrawn. (R40) -/
  | hotonCrossing
  /-- TDRAM falls below HOTOFF; a return to the normal period becomes pending, or a pending halving is withdrawn. (R40) -/
  | hotoffCrossing
  /-- In the first cycle in which HOTPEND is set and no context holds a valid row window on the column, HOT changes and the new period is scheduled. (R40) -/
  | refreshPeriodChange
  /-- TDRAM reaches REFLIM while HOT = 0; machine check 0x73 is raised in partitions with row-mode banks, and HOT is set to 1. (R41) -/
  | refreshDeadline
  /-- A vendor-defined message received on the host port is discarded and counted in MSGDROP. (R50) -/
  | hostVendorMessage
  /-- The host port link goes down, which raises 0x68 in all partitions. (R68) -/
  | hostLinkDown
  /-- A member port leaves UP; the link stays UP and holds TLPs placed on that member. (R60) -/
  | portLeavesUp
  /-- An absent member returns to UP and sends its held TLPs in SEQ order. (R60) -/
  | portReturnsUp
  /-- A member stays out of UP for 2^22 cycles; the link goes DOWN, held TLPs are discarded and 0x61 is raised. (R60) -/
  | linkDownTimeout
  /-- Writing LKCFG EN from 0 to 1 checks the configuration, then trains the members and sends HELLO, or sets ERR. (R57) -/
  | linkEnable
  /-- Writing EN = 0 takes the link to DISABLED and discards its held TLPs. (R57) -/
  | linkDisable
  /-- The TLP with SEQ = rx_next is still missing 2^20 counted cycles after a later one arrived, which raises 0x62 and takes the link DOWN. (R59) -/
  | stripeGapTimeout
  /-- A FREEZE message on a link with FRZEN = 1 asserts the module's freeze wire. (R65) -/
  | freeze
  /-- A THAW message on a link with FRZEN = 1 releases the freeze wire. (R65) -/
  | thaw
  /-- The Helm command WARMRST performs a warm reset; BUSY clears when VALID is 1 again. (R76) -/
  | warmrst
  /-- The Helm command EMCLEAR clears EMERG after the emergency condition has cleared. (R76) -/
  | emclear
  /-- The Helm command FWSTAGE verifies a firmware image, writes it to the inactive copy and sets FWPEND. (R76) -/
  | fwstage
  /-- The Helm command PARTAPPLY makes PARTMAP take effect if no affected partition holds a live context. (R76) -/
  | partapply
  /-- A Helm command finishes; BUSY clears and interrupt bit 3 is set. (R76) -/
  | hcmdComplete
  /-- A BMCTL write with MODE = 1 starts a change of the bank from pool to row mode, or sets ERR. (R98) -/
  | bankToRow
  /-- A BMCTL write with MODE = 0 starts a change of the bank from row to pool mode, or sets ERR. (R98) -/
  | bankToPool
  /-- A bank mode change ends; the survey map, ROWMASK and placement ring are updated and BUSY clears. (R98) -/
  | bmctlDone
  /-- SDCTL GO with OP INVAL sets a pending-invalidate match for the pages at every walker, TLB and ATS cache. (R112) -/
  | inval
  /-- SDCTL GO with OP PRELOAD walks and pins each page, setting ERR at the first failure. (R111) -/
  | preload
  /-- A shoot-down or preload operation completes and SDDONE increments. (R112) -/
  | shootdownDone
  /-- MGGO pushes a command into the migration FIFO, or sets ERR while the FIFO is full. (R113) -/
  | migrationGo
  /-- The migration engine allocates and zero-fills a pool frame and writes a completion. (R114) -/
  | alloc
  /-- The migration engine clears a frame in its allocation bitmap. (R114) -/
  | free
  /-- The migration engine walks the leaf, sets MIG, invalidates the page and starts the copy. (R115) -/
  | move
  /-- The copy ends; the leaf is rewritten with MIG = 0, the source is freed and the completion is written. (R115) -/
  | moveDone
  /-- A queued promotion runs as a MOVE to pool ahead of queued commands and writes no completion. (R115) -/
  | promotion
  /-- A core whose FIX has issued arrives once its queues, words, CPE commands and accesses are quiet. (R129) -/
  | coreArrival
  /-- The Helm picks the runnable context of highest priority and switches it in. (R141) -/
  | helmSchedule
  /-- A running context has used QUANT × 1,024 cycles and a peer of equal priority is runnable, so pre-emption is requested. (R141) -/
  | quantumExpiry
  /-- A pre-emption request reaches every unit at t + 8; each group stops, defers to its fix, or is cut. (R160) -/
  | preemptionRequest
  /-- The collector holds every acknowledgement, or the cut step counts agree or raise 0x46, and the swap begins. (R160) -/
  | preemptionComplete
  /-- An exchange or switch ends; state changes, mailbox events, shadowed mailbox writes and pending TKGIVE counts apply. (R142) -/
  | switchEnd
  /-- In replay, a recorded input is injected when the partition reaches its stamp. (R147) -/
  | replayInjection
  /-- Once every unit has stopped after a hard fault, stop records are written, then PHALT, the context goes to FAULT and the mailbox event is raised. (R150) -/
  | partitionHalt
  /-- Writing RESUME to AXSS clears SS and reissues the AXU from the faulting access. (R154) -/
  | resume
  /-- Writing FRZ = 1 asserts the freeze wire. (R164) -/
  | frzctlFreeze
  /-- Writing FRZ = 0 releases the wire unless a FREEZE without its THAW holds it. (R164) -/
  | frzctlRelease
  /-- The freeze has lasted 32 ms; the Helm raises 0x76 in every partition and releases the wire. (R164) -/
  | freezeTimeout
  /-- The AXU generates one access of an access word, reserving its LDQ or STQ slot. (R325) -/
  | accessGeneration
  /-- An STQ slot that holds both address and data is performed in STQ order and freed. (R326) -/
  | stqSlotPerform
  /-- The head of the VEC replay queue leaves when its unit is free and proceeds as if it had just issued. (R381) -/
  | replayQueueLeave
  /-- After the halt, the Helm tests the wires, remaps failed wires onto spares or sets HALF, and raises the survey interrupt. (R217) -/
  | busRepair
  /-- A statistics window begins at a CHRON multiple of 2^STWIN and the window counts restart. (R243) -/
  | statWindowStart
  /-- The CPE starts a sector when its command has entered and taken and the sector limits allow. (R410) -/
  | sectorStart
  /-- The FOLLOW word issues in the BKE queue at the first cycle the BKE could issue it. (R415) -/
  | followOnIssue
  /-- The die temperatures or supply rails return inside their limits, so that EMCLEAR can be accepted. (R43) -/
  | emergencyConditionCleared
  deriving DecidableEq, Repr

end Sys2Proof
end

