-- ==== Sys2Proof/Config.lean ====
section
/-! DEFINITION. What one implementation fixes and the spec leaves open: free values. Every constant
here is opaque, without a body, so nothing proved of the model can rest on its value. -/

namespace Sys2Proof.Config

/-- Cycles a memory-side access of a free leg takes beyond the first, at the n-th draw of a free value
(R104, R299, R327; log 5). -/
opaque walkLatency : Nat → Nat

/-- Cycles a Helm action takes beyond the first, at the n-th draw of a free value (R84, R88, R141; log 5). -/
opaque helmLatency : Nat → Nat

/-- Cycles after the halt line at which a unit stops, at the n-th draw, reduced to its skid bound where it is used
(R149, R156; log 5). -/
opaque stopSkid : Nat → Nat

/-- DRAM banks of a column that are present by design (R30, R35; log 5). -/
opaque dramPresent : Nat → BitVec 32

/-- Slice SRAM banks of a column that are present by design (R30, R35; log 5). -/
opaque slicePresent : Nat → BitVec 48

/-- ROWMAX of a column, reduced to a row index below 2,048 where it is used (R29, R32; log 5). -/
opaque rowMax : Nat → Nat

/-- PHASE of a column's refresh, reduced below REFPER where it is used (R32, R34; log 5). -/
opaque phase : Nat → Nat

/-- Spare row-bus wires of a column before any repair, at most 64 (R29, R32; log 5). -/
opaque sparesAtSurvey : Nat → Nat

/-- Whether a data wire of a column's row bus fails WREP's test (R428; log 5). -/
opaque wireFails : Nat → Nat → Nat → Bool

/-- Whether an LMS signature over a message verifies under a 56-byte public key (R86; NIST SP 800-208; log 8). -/
opaque lmsValid : List Byte → List Byte → List Byte → Bool

/-- SHA-256 of a byte string, as 32 bytes (R91; log 8). -/
opaque sha256 : List Byte → List Byte

/-- The n-th LMS signature of the attestation key over a transcript (R91; log 8). -/
opaque attest : Nat → List Byte → List Byte

/-- The certificate chain of the attestation key (R91; log 8). -/
opaque certificates : List Byte

/-- SHA-256 of the boot ROM and of firmware of a given version (R91; log 8). -/
opaque romDigest : List Byte
/-- See `romDigest`. -/
opaque fwDigest : Nat → List Byte

/-- The version of the firmware image at a physical address if it verifies as R90 says, from the bytes
of memory (R76, R90; log 8). -/
opaque fwImageVersion : List (Nat × Byte) → Nat → Option Nat

/-- Firmware version found in flash copy A and copy B of a new module, if valid (R90; log 8, 9). -/
opaque fwCopyA : Option Nat
/-- See `fwCopyA`. -/
opaque fwCopyB : Option Nat

/-- Value of a PCIe configuration register the spec only names by reference (R47; log 7). -/
opaque configSpace : Nat → Nat → BitVec 32

/-- NSECT of a command that ends before its output is known: the spec states none (R414, R419; log 5). -/
opaque sectorCount : Nat → Nat

/-- Which free frame of the bank a placement takes, reduced below their number where it is used: the spec names the bank
only (R118; log 5). -/
opaque framePick : Nat → Nat

/-- Cycles an action of the migration engine's allocator or a walk of it takes beyond the copy (R115; log 5). -/
opaque moveLatency : Nat → Nat

/-- Flits a port's replay buffer holds at a cycle of CHRON: link and physical layer timing decide it (R67, R165; log 5). -/
opaque unackedFlits : Nat → Nat → Nat

/-- By how many flits the counters of a port have advanced, at the n-th draw (R69; log 5). -/
opaque flitCount : Nat → Nat

/-- A temperature sample of a column's DRAM in units of 0.125 °C, at the n-th draw, kept on its side of a threshold where it is
used (R32, R40; log 5). -/
opaque sensor : Nat → Nat

/-- Corrected errors a column has counted beyond those an event implies, at the n-th draw (R32, R36; log 5). -/
opaque errorCount : Nat → Nat

/-- What SCDATA reads before 64 cycles have passed since SCADDR was written (R165; log 5). -/
opaque scanEarly : Nat → BitVec 64

/-- Whether a recorded peer atomic of two operand sizes is a Swap and not a FetchAdd: its record does not say (R146; log 5). -/
opaque replaySwap : Nat → Bool

end Sys2Proof.Config
end

