-- ==== Sys2Proof/Machine/State.lean ====
section
/-! DEFINITION. The state of one AX-9 module as plain data: cores, columns, partitions, links, ports,
the migration engine, the Helm's registers, memory, and the model's own bookkeeping of time. -/

namespace Sys2Proof.Machine

/-- Why the model stops. Only `step` answers with it. -/
inductive Fault where
  /-- The module has no power and no event is pending (R26): there is nothing to step. Raised by `step`. Safe. -/
  | poweredOff
  deriving DecidableEq, Repr

/-- Why the model gives an instruction no meaning. -/
inductive Refusal where
  /-- The instruction has no meaning in the model yet. Raised by `exec`. Safe. -/
  | notModelled (mnemonic : String)
  deriving DecidableEq, Repr

/-! ## Cores -/

/-- State of an engine queue: QST of R192, and QSTAT of R318. -/
inductive QState where
  | stopped | running | rest | soft
  deriving DecidableEq, Repr

/-- A nest register (R173). -/
structure Nest where
  bound : BitVec 16 := 0
  pos : BitVec 16 := 0
  s0 : BitVec 32 := 0
  s1 : BitVec 32 := 0
  s2 : BitVec 32 := 0
  deriving DecidableEq, Repr

/-- An open loop (R332, R370): its nest, the trips latched, the trip in progress, and its body as word
indices of the loop buffer. -/
structure LoopFrame where
  nest : Nat
  trips : Nat
  trip : Nat
  first : Nat
  last : Nat
  deriving DecidableEq, Repr

/-- An issue queue (R131, R139, R270, R332). `pc` is the issue pointer, `base` the cycle from which the
next word counts its wait, `notBefore` the next attempt of a word that waits, `idleEnd` the end of a
running IDLE, `loops` the open loops innermost first, `lbuf` the loop buffer with `lbase` the byte
offset of its word 0. -/
structure Queue where
  st : QState := .stopped
  pc : Int := 0
  entry : Int := 0
  spanEnd : Int := 0
  base : Nat := 0
  notBefore : Nat := 0
  idleEnd : Nat := 0
  stopAt : Option Nat := none
  loops : List LoopFrame := []
  lbuf : List (Option (BitVec 32)) := []
  lbase : Int := 0
  progress : Nat := 0
  lookStep : Nat := 0
  deriving DecidableEq, Repr

/-- A range register (R96). -/
structure Range where
  base : BitVec 36 := 0
  limit : BitVec 36 := 0
  off : BitVec 40 := 0
  v : Bool := false
  r : Bool := false
  w : Bool := false
  a : Bool := false
  u : Bool := false
  deriving DecidableEq, Repr

/-- A row window (R99). -/
structure RowWin where
  bmask : BitVec 32 := 0
  rowlo : BitVec 11 := 0
  rowhi : BitVec 11 := 0
  v : Bool := false
  deriving DecidableEq, Repr

/-- An accumulator lane (R232). -/
structure Lane where
  value : BitVec 640 := 0
  nan : Bool := false
  pinf : Bool := false
  ninf : Bool := false
  inv : Bool := false
  deriving DecidableEq, Repr

/-- A lane segment or bank port held over an interval of cycles (R175, R176). Resources 0 to 319 are
segment s of lane l at 20 l + s; 320 to 335 read ports; 336 to 351 write ports. -/
structure Claim where
  res : Nat
  lo : Nat
  hi : Nat
  cpe : Bool := false
  deriving DecidableEq, Repr

/-- An occupied unit of the BKE or VEC (R353, R380): a name, the cycles, the word's number. -/
structure Busy where
  kind : Nat
  lo : Nat
  hi : Nat
  deriving DecidableEq, Repr

/-- A read or a write of a word in flight, at the cycle the spec gives it: a memory key and bytes. -/
structure Beat where
  at_ : Nat
  key : Nat
  len : Nat := 0
  bytes : List Byte := []
  write : Bool := false
  deriving DecidableEq, Repr

/-- A word that has issued and not retired (R181, R253): its beats still to come, the bytes its reads have
captured, the values it latched at issue, its completion cycle, its give and the accesses its retirement
waits for. With `late` set it only raises deviation 0x41 at its completion cycle (R137), with the `handle` and `nests` of its access for
the stop record (R157); `acted` says that it has had its effect and waits to give. -/
structure Inflight where
  id : Nat
  eng : Eng
  instr : Instr
  pc : Int
  issued : Nat
  doneAt : Nat
  beats : List Beat := []
  got : List (Nat × Byte) := []
  lat : List Nat := []
  give : Bool := false
  giveTo : Nat := 0
  waits : List Nat := []
  access : Bool := false
  late : Bool := false
  acted : Bool := false
  handle : Nat := 0xFFFF
  nests : Option (Vector Nest 6 × Nat) := none
  deriving DecidableEq, Repr

/-- An entry of the LDQ: its slot, counted from launch and taken modulo 64, the word that filled it, which of its
accesses it is, the STQ slot count at its generation, and its 128 bytes with the pieces still to come and the cycle they arrived (R326, R327). -/
structure LdqEntry where
  slot : Nat
  word : Nat := 0
  ix : Nat := 0
  out : List Nat := []
  stqAt : Nat := 0
  bytes : List Byte := List.replicate 128 0
  pending : Nat := 0
  fillAt : Nat := 0
  filled : Option Nat := none
  deriving DecidableEq, Repr

/-- The address side of an STQ slot (R326): the pieces (tile offset, intermediate address, bytes) it writes,
the cycle it was generated, the word that generated it, the MARKs before it, the cycle it is performed, and the LDQ slot count at its generation. -/
structure StqAddr where
  slot : Nat
  pieces : List (Nat × Nat × Nat)
  va : Nat
  gen : Nat
  word : Nat
  handle : Nat := 0xFFFF
  marks : Nat := 0
  sent : Bool := false
  perf : Nat := 0
  ix : Nat := 0
  ldqAt : Nat := 0
  reqd : Bool := false
  done : Bool := false
  deriving DecidableEq, Repr

/-- The restore state of an AXU access: what a soft stop at it brings back (R154). -/
structure AxuSnap where
  pc : Int
  queue : Queue
  a : Vector Word 16
  n : Vector Nest 6
  deriving DecidableEq, Repr

/-- A word whose accesses the address generator has still to make (R325): the instruction, its latched
base and stride, the next access, and the earliest cycle of that access. -/
structure GenJob where
  id : Nat
  instr : Instr
  pc : Int
  next : Nat
  count : Nat
  base : Int
  stride : Int
  cycle : Nat
  lat : List Nat := []
  idx : List (Nat × List Byte) := []
  flt : List (Nat × Nat × Nat) := []
  out : List Nat := []
  handle : Nat := 0xFFFF
  marks : Nat := 0
  snap : AxuSnap
  deriving DecidableEq, Repr

/-- A soft stop of the AXU (R153, R154): the word to generate again from its faulting access, and slot f. -/
structure SoftStop where
  job : GenJob
  code : Nat
  ia : Nat
  slot : Nat
  stq : Bool
  deriving DecidableEq, Repr

/-- A codebook register (R198). -/
structure Codebook where
  cw : Vector (BitVec 16) 8 := Vector.replicate 8 0
  cfmt : BitVec 2 := 0
  sc : Vector (BitVec 8) 64 := Vector.replicate 64 0
  deriving DecidableEq, Repr

/-- A memory fault of a sector of a CPE command (R411): the sector, the code, the address and the walk's last entry. -/
structure SecFault where
  q : Nat
  code : Nat
  ia : Nat
  entry : Nat := 0
  level : Nat := 0
  wr : Bool := false
  handle : Nat := 0xFFFF
  also : List (Nat × Nat) := []
  deriving DecidableEq, Repr

/-- What a command word latches at its issue (R406, R407): OP, gd, flags and scope, byte 4 of TKSEL, the completion
record's virtual address with its translation or the fault of it, the SEQ accesses before it, its number in issue order, whether it stands
for the record a CPYR reads, the block once read. -/
structure CmdIn where
  op : Nat
  d : Fin 32
  scope : Nat
  acq : Bool
  rel : Bool
  recVa : Nat
  recIa : Nat
  recErr : Nat
  from_ : Nat
  to_ : Nat
  deps : List Nat
  pc : Int
  num : Nat := 0
  isRec : Bool := false
  block : List Byte := []
  deriving DecidableEq, Repr

/-- A CPE command (R407 to R415): what its word latched, its identity, the operation it runs (the original's for CPYR), the handle
entries it checked, and its sectors: `next` to start, `stop` the bound, `base` and `pre` those an earlier run
wrote, `active` those started with their completion cycles, `written`, `faulted`. `hold` says that a fault has been found and
no sector starts, `fixed` that R411's last set is fixed, `keep` the record a CPYR of a completed command writes again, `packed` the
output of PACK's read pass, `stage` and `waits` the progress of R413. -/
structure Cmd where
  in_ : CmdIn
  cmdid : Nat
  op : Nat
  leg : Nat := 0
  entered : Nat := 0
  taken : Bool := false
  ents : List (Nat × BitVec 512) := []
  nsect : Nat := 0
  next : Nat := 0
  stop : Nat := 0
  base : Nat := 0
  pre : List Nat := []
  active : List (Nat × Nat) := []
  written : List Nat := []
  faulted : List SecFault := []
  bytes : Nat := 0
  nrec : Nat := 0
  hold : Bool := false
  fixed : Bool := false
  keep : List Byte := []
  packed : Option (List Byte) := none
  stats : List Nat := []
  stage : Nat := 0
  waits : List Nat := []
  done : Bool := false
  deriving DecidableEq, Repr

/-- A core waiting at a fix (R129, R130): the leg named, the arrival cycle once it has arrived, and the issue cycle of its FIX. -/
structure FixWait where
  leg : Nat
  arrived : Option Nat := none
  since : Nat := 0
  deriving DecidableEq, Repr

/-- The sequencer: registers with taint, mode, trap registers, its queue, its wait at a fix or a HALT (R170, R192, R152, R424). `gReady` is the cycle a pending result is usable (R297), `seqHold` the access a free leg holds issue for (R299), `noTakeAt` the latch of R424. -/
structure Seq where
  g : Vector Word 32 := Vector.replicate 32 0
  taint : BitVec 32 := 0
  gReady : Vector Nat 32 := Vector.replicate 32 0
  sup : Bool := false
  pmode : Bool := false
  cause : BitVec 8 := 0
  epc : BitVec 32 := 0
  hvec : BitVec 32 := 0
  hvecL : BitVec 32 := 0
  inTrap : Bool := false
  epcTook : Bool := false
  noTakeAt : Option Int := none
  heldTrap : Option (Nat × Int) := none
  hold : Option Nat := none
  fenceHold : List (Nat × List Nat) := []
  fix : Option FixWait := none
  haltWait : Option (BitVec 32 × Bool) := none
  halted : Option (BitVec 32) := none
  q : Queue := {}
  deriving DecidableEq, Repr

/-- Control registers of the page of R192, token FIFOs (R180) in TKIN order, and leg state (R131). `tkselOld` is the cycle of the last CRW
to TKSEL with the value it replaced, which still governs that cycle (R183). `hvecL`, `rngL` and `rwinL` hold the values preserved across launch. -/
structure Ctl where
  legno : BitVec 16 := 0
  course : BitVec 3 := 0
  sizecls : BitVec 4 := 0
  health : BitVec 2 := 0
  tRel : Nat := 0
  due : Option Nat := none
  tksel : BitVec 64 := 0x11
  tkselOld : Option (Nat × BitVec 64) := none
  tkceil0 : BitVec 64 := 0xFFFFFFFFFFFFFFFF
  tkceil1 : BitVec 64 := 0xFFFF
  ltc : Vector (BitVec 12) 4 := Vector.replicate 4 0
  tok : Vector (BitVec 4) 20 := Vector.replicate 20 0
  seqGave : List (Nat × Nat) := []
  bfmt : Vector (BitVec 64) 16 := Vector.replicate 16 0
  vsh : BitVec 64 := 0
  vmd : BitVec 64 := 0
  rng : Vector Range 16 := Vector.replicate 16 {}
  rngL : Vector Range 16 := Vector.replicate 16 {}
  rwin : Vector RowWin 4 := Vector.replicate 4 {}
  rwinL : Vector RowWin 4 := Vector.replicate 4 {}
  secnt : BitVec 32 := 0
  seqsz : Nat := 0
  axusz : Nat := 0
  bkesz : Nat := 0
  vecsz : Nat := 0
  deriving DecidableEq, Repr

/-- Statistics registers and windows (R241 to R243); `cyCnt` counts the events of cycle `cyc` (R242), `cnt0` and `ev0` are the counters and
STEV at its start (R405). -/
structure Stats where
  cnt : Vector (BitVec 32) 6 := Vector.replicate 6 0
  th : Vector (BitVec 64) 6 := Vector.replicate 6 0
  win : BitVec 6 := 20
  ev : BitVec 6 := 0
  wc : Vector Nat 6 := Vector.replicate 6 0
  acted : BitVec 6 := 0
  start : Nat := 0
  trap24 : List (Nat × Nat) := []
  cyc : Nat := 0
  cyCnt : Vector Nat 6 := Vector.replicate 6 0
  cnt0 : Vector (BitVec 32) 6 := Vector.replicate 6 0
  ev0 : BitVec 6 := 0
  deriving DecidableEq, Repr

/-- The access unit (R170, R324 to R343). `past` keeps the words whose accesses are all
generated and not all performed, `hist` lists the words issued since the oldest pending access with their take
and give, `again` the words a soft stop issues again, `skipL` and `skipS` the entries consumed past it (R154). -/
structure Axu where
  q : Queue := {}
  a : Vector Word 16 := Vector.replicate 16 0
  n : Vector Nest 6 := Vector.replicate 6 {}
  ldq : List LdqEntry := []
  ldqT : Nat := 0
  stqA : List StqAddr := []
  stqAT : Nat := 0
  stqD : List (Nat × List Byte) := []
  stqDT : Nat := 0
  stqC : Nat := 0
  gen : List GenJob := []
  past : List GenJob := []
  genFree : Nat := 0
  marks : Nat := 0
  soft : Option SoftStop := none
  hist : List (Nat × Bool × Bool) := []
  again : List (Bool × Bool) := []
  skipL : Nat := 0
  skipS : Nat := 0
  gate : Option (Nat × Bool) := none
  deriving DecidableEq, Repr

/-- The bucket engine: window, bucket file, codebooks, nests, both accumulator banks, row input (R195, R198, R205, R232, R352). `stall` is the span of a row-source word that waits for
bytes no burst will deliver; `zswp` and `mulbf` are the flags of its stop record (R157). -/
structure Bke where
  q : Queue := {}
  win : Vector (BitVec 8) 2048 := Vector.replicate 2048 0
  wsc : Vector (BitVec 8) 64 := Vector.replicate 64 0x7F
  wseg : Nat := 0
  wblk : Nat := 0
  wnb : Nat := 1
  bucket : Vector (BitVec 20) 2048 := Vector.replicate 2048 0
  blive : Bool := false
  btag : Nat := 0
  bsc : Vector (BitVec 8) 64 := Vector.replicate 64 0
  bnb : Nat := 1
  bcol0 : Nat := 0
  bkind : Nat := 1
  cb : Vector Codebook 8 := Vector.replicate 8 {}
  n : Vector Nest 6 := Vector.replicate 6 {}
  work : Vector Lane 256 := Vector.replicate 256 {}
  vis : Vector Lane 256 := Vector.replicate 256 {}
  rowIn : List Byte := List.replicate 8192 0
  rowMask : BitVec 8192 := 0
  rowDue : List Nat := []
  rowLastUse : Nat := 0
  stall : Option (Nat × Nat) := none
  zswp : Bool := false
  mulbf : Bool := false
  deriving DecidableEq, Repr

/-- The vector engine: registers, the cycles from which they are usable, the replay queue as word identities in program
order and the cycle its last word left (R170, R379, R381); the cycle of the last CRW
to VSH or VMD with both as they stood before it (R376). -/
structure Vec where
  q : Queue := {}
  v : Vector (BitVec 32768) 32 := Vector.replicate 32 0
  k : Vector (BitVec 4096) 8 := Vector.replicate 8 0
  vReady : Vector Nat 32 := Vector.replicate 32 0
  kReady : Vector Nat 8 := Vector.replicate 8 0
  modeOld : Option (Nat × BitVec 64 × BitVec 64) := none
  replay : List Nat := []
  replayLast : Nat := 0
  deriving DecidableEq, Repr

/-- The copy engine (R407 to R415): its commands, the next CMDID, the cycle from which the stream may start a sector and the
completion cycles of the last 64 sectors (R412), follow-on words with their first cycle (R415), and the cycle of the next attempt to
start a sector. -/
structure Cpe where
  cmds : List Cmd := []
  next : Nat := 1
  free : Nat := 0
  hist : List Nat := []
  follow : List (BitVec 32 × Nat) := []
  poll : Option Nat := none
  look : Nat := 0
  lookStep : Nat := 0
  deriving DecidableEq, Repr

/-- The last write an engine of a core sent on a port (48 is the host port) since the last flush of it (R256): its address, PASID and
whether it was translated, and the zero-length read that is on its way behind it. -/
structure SentWrite where
  port : Nat
  ia : Nat
  pasid : Option Nat := none
  translated : Bool := false
  flush : Option Nat := none
  deriving DecidableEq, Repr

/-- What is in progress in a core: ring and bank-port claims (R176), busy units (R353, R380), words in flight (R181), the last write sent on each port since a fence (R256). -/
structure Pipe where
  claims : List Claim := []
  busy : List Busy := []
  infl : List Inflight := []
  sentOn : List SentWrite := []
  deriving DecidableEq, Repr

/-- One stream core (R170, R192). -/
structure Core where
  seq : Seq := {}
  ctl : Ctl := {}
  stat : Stats := {}
  axu : Axu := {}
  bke : Bke := {}
  vec : Vec := {}
  cpe : Cpe := {}
  pipe : Pipe := {}
  hcPinned : List (Nat × BitVec 512) := []
  hcUnpinned : List (Nat × BitVec 512) := []
  killed : Bool := false
  deriving DecidableEq, Repr

/-! ## Columns -/

/-- State of a row-mode bank for row instructions (R211). -/
inductive RowState where
  | closed
  | open_ (row : BitVec 11) (act : Nat) (lastBeat : Nat) (rpre : Option Nat)
  | precharging (until_ : Nat)
  deriving DecidableEq, Repr

/-- A core's column: its survey entry and map (R32, R35), its row controller (R211 to R217), the temperatures of its logic die and of
each DRAM layer, its error counter and the corrected errors of the last 2^28 cycles (bank, cycle) (R36); `hotAt` is the cycle in which
HOTPEND was set (R40). -/
structure Column where
  live : Bool := false
  half : Bool := false
  spare : Nat := 0
  hot : Bool := false
  hotpend : Bool := false
  dram : Vector (BitVec 4) 32 := Vector.replicate 32 0
  slice : Vector (BitVec 2) 48 := Vector.replicate 48 0
  rowmax : BitVec 12 := 0
  phase : Nat := 0
  hotAt : Nat := 0
  tlogic : BitVec 12 := 0
  layers : Vector (BitVec 12) 4 := Vector.replicate 4 0
  cecnt : BitVec 32 := 0
  errs : List (Nat × Nat) := []
  rows : Vector RowState 32 := Vector.replicate 32 .closed
  acts : List Nat := []
  burstEnd : Nat := 0
  burst : List Byte := []
  burstDst : Nat := 0
  burstX : Nat := 0
  burstStart : Nat := 0
  burstFail : Option Nat := none
  burstTail : Option (Nat × List Byte) := none
  repair : Bool := false
  laneEnd : Nat := 0
  mapped : List Nat := []
  failed : List Nat := []
  wrepEnd : Nat := 0
  deriving DecidableEq, Repr

/-! ## Requests -/

/-- What a response does when it arrives. -/
inductive Dest where
  | gpr (d : Fin 32) (bytes : Nat) (taint : Bool) (pair : Bool)
  | xrd (d : Fin 32) (fmt mode : Nat) (taint : Bool)
  | none_
  | ldq (slot off : Nat)
  | stq (slot : Nat)
  | index (job line : Nat)
  | mig (off : Nat)
  | chart (part slot off : Nat)
  | cmd (x : CmdIn)
  | sector (cmdid q ix : Nat)
  | hset (h : Nat)
  | handle (h : Nat)
  | flush (port : Nat)
  | stopRec (part core eng : Nat)
  | host (tag : Nat)
  | peer (l : Nat) (tag : Nat) (q : Nat)
  deriving DecidableEq, Repr

/-- What an access does to memory. -/
inductive AccKind where
  | read
  | write (bytes : List Byte)
  | atomic (fn : AtomFn) (b e : Nat)
  | faddx (fmt : Nat) (x : Nat)
  | xrd
  | zero
  deriving DecidableEq, Repr

/-- A memory access that is not yet complete (R104 to R106). `who` is REQ of R109; `lastEntry` and `lastLevel` are the last table entry
read for one that has left on the host port with `tag` its tag there (R47) and `ats` the page of the ATS entry it used (R120); `parts` are the reads one for a peer was split into (R58): the
identity of each, its bytes, and what it has brought. -/
structure Req where
  id : Nat
  who : Nat
  core : CoreIx
  part : Option PartIx
  kind : AccKind
  ia : Nat
  va : Nat := 0
  n : Nat
  dest : Dest
  fixed : Bool := false
  scope : Nat := 1
  handle : Nat := 0xFFFF
  cmdid : Nat := 0
  pc : Int := 0
  word : Nat := 0
  issued : Nat := 0
  result : List Byte := []
  sent : Option Nat := none
  took : Bool := false
  ldc : Bool := false
  own : Bool := false
  refused : Bool := false
  due : Nat := 0
  mark : Nat := 0
  done : Bool := false
  err : Option (Nat × Nat × Nat) := none
  lastEntry : Nat := 0
  lastLevel : Nat := 0
  tag : Nat := 0
  ats : Option Nat := none
  parts : List (Nat × Nat × Option (List Byte)) := []
  deriving DecidableEq, Repr

/-! ## Partitions and contexts -/

/-- STATE of a context slot (R81). -/
inductive CtxState where
  | idle | check | load | ready | run | preempted | done | fault | killed | rejected
  deriving DecidableEq, Repr

/-- A course record of the leg table (R126). -/
structure CourseRec where
  leglen : Nat
  seqent : Nat
  axuent : Nat
  axuspan : Nat
  bkeent : Nat
  bkespan : Nat
  vecent : Nat
  vecspan : Nat
  deriving DecidableEq, Repr

/-- A leg descriptor (R124). -/
structure LegDesc where
  scope : Nat
  fixed : Bool
  ncrs : Nat
  bt1 : Nat
  bt2 : Nat
  bt3 : Nat
  sel : List (BitVec 64)
  crs : List CourseRec
  deriving DecidableEq, Repr

/-- A context slot of a mailbox (R80 to R83): the latched launch, whether VALID = 1 and EMERG = 0 then (`early` if not, R46), PROGRESS and
what the loader left: the entries and section sizes by logical core and the leg table (R88). `key` is the key slot named (R78). `img` is the chart as checked, `got`, `asked` and `bad` the parts of it that come from host
memory: those arrived, those asked for, and whether one failed (R84). `epoch`, `tkseq` and `seqn` are the context's counts for the
Logbook (R145, R146). -/
structure Slot where
  st : CtxState := .idle
  image : Nat := 0
  argbase : Nat := 0
  size : BitVec 4 := 0
  prio : BitVec 2 := 0
  tag : BitVec 8 := 0
  early : Bool := false
  leg : BitVec 16 := 0
  course : BitVec 3 := 0
  ndcyc : Bool := false
  code : BitVec 8 := 0
  exit : BitVec 32 := 0
  key : Option Nat := none
  entries : List Nat := []
  sizes : List (Nat × Nat × Nat × Nat) := []
  legs : List LegDesc := []
  since : Nat := 0
  img : List Byte := []
  got : List (Nat × List Byte) := []
  asked : List Nat := []
  bad : Bool := false
  epoch : BitVec 32 := 0
  tkseq : Nat := 0
  seqn : Nat := 0
  deriving DecidableEq, Repr

/-- A fix that has completed and waits for its release (R130, R133, R161). -/
structure FixDone where
  grp : GroupIx
  leg : Nat
  course : Nat
  health : Nat
  fabric : Bool
  held : Bool := false
  deriving DecidableEq, Repr

/-- A held fabric arrival (R133). -/
structure HeldArr where
  src : FixPeer
  leg : Nat
  cnt : Nat
  at_ : Nat
  deriving DecidableEq, Repr

/-- What a unit that raised a hard fault leaves for its stop record (R156 to R158): its logical core and slot, its code, the faulting
word, address and handle, the beat of a row fault, and the nests and loop-buffer index of a faulting AXU access. -/
structure FaultSrc where
  code : Nat
  core : Nat
  eng : Nat
  pc : Int
  ia : Nat := 0
  handle : Nat := 0xFFFF
  beat : Nat := 0xFF
  nests : Option (Vector Nest 6 × Nat) := none
  deriving DecidableEq, Repr

/-- A hard fault whose halt is in progress (R148 to R150): the originating unit and its fault, the other units that raised one in the
same cycle, its phase, and the rows open when the halt arrived (column, bank, row, activate cycle). -/
structure Halting where
  code : Nat
  cycle : Nat
  core : Nat
  eng : Nat
  pc : Int
  ia : Nat := 0
  handle : Nat := 0xFFFF
  beat : Nat := 0xFF
  nests : Option (Vector Nest 6 × Nat) := none
  others : List FaultSrc := []
  kill : Bool := false
  phase : Nat := 0
  rows : List (Nat × Nat × Nat × Nat) := []
  deriving DecidableEq, Repr

/-- A pre-emption in progress, or the switch that follows it (R142, R160, R161): the slot, the request cycle, the cut cores
with their t_b, the deferred cores, the cores whose units have stopped with the cycle (`closed`), the rows they had open (column, bank,
row, AGE), the events and accesses kept for the resume. `stopped` is the cycle in which it has completed. -/
structure Preempt where
  slot : Nat
  at_ : Nat
  cut : List (Nat × Nat) := []
  deferred : List Nat := []
  sethold : Bool := false
  checkpoint : Bool := false
  stopped : Option Nat := none
  closed : List (Nat × Nat) := []
  rows : List (Nat × Nat × Nat × Nat) := []
  evs : List (Nat × Nat × Instr) := []
  reqs : List Req := []
  deriving DecidableEq, Repr

/-- A switched-out context's registers: the shadow storage (R142, R166). `rows` lists open rows with their ages (column, bank,
row, AGE), `evs` the events in progress (cycle, core, event), `at_` the cycle from which its free groups stood still, `heldAt` that of
its deferred groups, `deferred` their cores, `records` the stop records of its units (core, slot, record; R160). -/
structure Shadow where
  slot : Nat
  cores : List (Nat × Core)
  rows : List (Nat × Nat × Nat × Nat) := []
  done : List FixDone := []
  cut : List (Nat × Nat) := []
  at_ : Nat
  heldAt : Nat := 0
  deferred : List Nat := []
  records : List (Nat × Nat × List Byte) := []
  reqs : List Req := []
  evs : List (Nat × Nat × Instr) := []
  lastRel : List (Nat × Nat) := []
  cutUnits : List Nat := []
  arrHeld : List HeldArr := []
  relHeld : Option (Nat × Nat) := none
  awaiting : Option (Nat × Nat) := none
  sentArr : Bool := false
  deriving DecidableEq, Repr

/-- A mailbox write held during a switch (R85). -/
structure ShadowWrite where
  off : Nat
  len : Nat
  val : Nat
  deriving DecidableEq, Repr

/-- The Logbook of a partition (R145 to R147); `slot` is the slot launched last. -/
structure Logbook where
  ctl : BitVec 64 := 0
  base : BitVec 64 := 0
  head : BitVec 64 := 0
  tail : BitVec 64 := 0
  act : Bool := false
  replay : Bool := false
  pol : Bool := false
  cls : BitVec 7 := 0
  size : Nat := 0
  abase : Nat := 0
  slot : Fin 8 := 0
  lost : Bool := false
  wHead : Option (BitVec 64) := none
  wTail : Option (BitVec 64) := none
  used : List Nat := []
  deriving DecidableEq, Repr

/-- A partition: its page of the partition block, its mailbox and its scheduler (R77, R80, R108, R128,
R140, R143, R145, R159, R167). `lastChart` is what attestation measures (R91); `atCut` and `stopAtCut` are PROGRESS and EXIT of each slot
and STOPPTR as a switch in progress began (R85). -/
structure Part where
  pwrcls : BitVec 2 := 0
  stopbase : BitVec 56 := 0
  dmEn : Bool := false
  dmAddr : BitVec 56 := 0
  hEn : Bool := false
  hAddr : BitVec 56 := 0
  hpasid : BitVec 20 := 0
  pasiden : Bool := false
  autoprom : Bool := false
  fqsz : BitVec 4 := 0
  fqbase : BitVec 56 := 0
  fqhead : BitVec 32 := 0
  fqtail : BitVec 32 := 0
  fqwb : BitVec 64 := 0
  fqheld : List (List Byte) := []
  fxcfg : BitVec 64 := 0
  fxtot : BitVec 32 := 0
  fxchl : BitVec 48 := 0
  fxchp : BitVec 48 := 0
  quant : BitVec 24 := 0
  pbudget : BitVec 16 := 0
  slhold : BitVec 8 := 0
  phold : Bool := false
  lkth : BitVec 48 := 0
  lkstat : BitVec 16 := 0
  lb : Logbook := {}
  ckleg : BitVec 16 := 0
  ckreq : Bool := false
  ckheld : Bool := false
  ckclean : Bool := false
  ckhleg : BitVec 16 := 0
  phalt : BitVec 32 := 0
  image : BitVec 56 := 0
  argbase : BitVec 52 := 0
  size : BitVec 4 := 0
  prio : BitVec 2 := 0
  slot : BitVec 3 := 0
  tag : BitVec 8 := 0
  psel : BitVec 3 := 0
  even : Bool := false
  lerr : Bool := false
  slots : Vector Slot 8 := Vector.replicate 8 {}
  legs : List LegDesc := []
  shadowWr : List ShadowWrite := []
  shadow : Option Shadow := none
  switching : Bool := false
  incoming : Option Nat := none
  outgoing : Option Preempt := none
  lastRun : List (Nat × Nat) := []
  schedDue : Option Nat := none
  fixes : List FixDone := []
  arrHeld : List HeldArr := []
  relHeld : Option (Nat × Nat) := none
  awaiting : Option (Nat × Nat) := none
  sentArr : Bool := false
  cutUnits : List Nat := []
  lastRel : List (Nat × Nat) := []
  halting : Option Halting := none
  swapFault : Option Nat := none
  tkPend : List (Nat × Nat × Nat × Nat) := []
  vintst : BitVec 2 := 0
  vinten : BitVec 2 := 0
  w2base : BitVec 56 := 0
  lastChart : Option (List Byte) := none
  atCut : List (Nat × Nat) := []
  stopAtCut : Nat := 0
  deriving DecidableEq, Repr

/-- A pinned TLB entry (R107, R111): partition, page base, page size, the leaf. -/
structure Pin where
  part : Nat
  base : Nat
  big : Bool
  leaf : Nat
  deriving DecidableEq, Repr

/-! ## Links, ports, migration engine -/

/-- LKCFG STATE (R56). -/
inductive LinkState where
  | disabled | training | up | down
  deriving DecidableEq, Repr

/-- A packet on its way out of the module (R58, R61, R120): a request, a message, a completion; `translate` marks a translation request of ATS. -/
structure OutTlp where
  id : Nat
  q : Nat := 0
  ia : Nat := 0
  n : Nat := 0
  tag : Nat := 0
  kind : ReqKind := .read
  msg : Option (BitVec 8 × BitVec 24 × BitVec 32) := none
  cpl : Option (Nat × CplStatus × List Byte) := none
  seq : Nat := 0
  member : Nat := 0
  pasid : Option Nat := none
  translated : Bool := false
  translate : Bool := false
  deriving DecidableEq, Repr

/-- A peer link (R56 to R60). `held` is the reorder buffer: SEQ, arrival, packet, the arrival counted in cycles in which every member
was UP (R59), `thawed` the SEQs of those already executed (R65); `gapAt` the count at which a gap times out, `outFrom` the cycle from which a member is out of UP, `paused` the cycles
not counted so far; `blocked` says that a posted write of the peer has been refused, `todo` holds what waits behind it with its port (R121). -/
structure Link where
  en : Bool := false
  nmem : BitVec 2 := 0
  frzen : Bool := false
  peer : BitVec 12 := 0
  mem : Vector (BitVec 6) 4 := Vector.replicate 4 0
  parts : BitVec 48 := 0
  st : LinkState := .disabled
  err : Bool := false
  hello : List Nat := []
  txSeq : BitVec 16 := 0
  rxNext : BitVec 16 := 0
  thawed : List (BitVec 16) := []
  held : List (BitVec 16 × Nat × Tlp) := []
  waiting : List OutTlp := []
  out : List OutTlp := []
  gapAt : Option Nat := none
  blocked : Bool := false
  todo : List (Nat × Tlp) := []
  outFrom : Option Nat := none
  paused : Nat := 0
  deriving DecidableEq, Repr

/-- STATE of a port (R69); an UP port reads as FROZEN while the module is frozen. -/
inductive PortState where
  | dark | training | up | down
  deriving DecidableEq, Repr

/-- A port: status, role and counters (R53, R69, R70). -/
structure Port where
  st : PortState := .dark
  width : BitVec 2 := 0
  downstream : Bool := false
  laneok : BitVec 16 := 0
  optfail : BitVec 32 := 0
  fltx : BitVec 64 := 0
  flrx : BitVec 64 := 0
  replay : BitVec 32 := 0
  feccor : BitVec 32 := 0
  flbad : BitVec 32 := 0
  retrain : BitVec 32 := 0
  msgdrop : BitVec 32 := 0
  malf : BitVec 32 := 0
  latchTx : BitVec 32 := 0
  latchRx : BitVec 32 := 0
  wasUp : Bool := false
  outSince : Option Nat := none
  deriving DecidableEq, Repr

/-- A command of the migration engine (R113). -/
structure MgCmd where
  op : BitVec 4
  part : BitVec 6
  sz : Bool
  dest : BitVec 3
  id : BitVec 16
  ia : BitVec 56
  dst : BitVec 64
  lim : BitVec 16
  promo : Bool := false
  deriving DecidableEq, Repr

/-- A MOVE in progress (R115): the command, where the leaf lies and what it was, the new address, the page size, the cycle its
copy ends, the bytes of a host source as they arrive, whether one of its reads failed, and the requests made before it. -/
structure Moving where
  cmd : MgCmd
  leafAt : Nat
  leaf : Nat
  big : Bool
  newAddr : Nat
  ends : Nat
  got : List (Nat × List Byte) := []
  bad : Bool := false
  before : Nat := 0
  deriving DecidableEq, Repr

/-- The migration engine (R113 to R118). `busy` says that the command at its head is scheduled to execute; `frames` is the
allocation bitmap as the addresses of the 64 KiB units taken, `ring` the bank last used of each stack's placement ring. -/
structure MigEng where
  cmd : BitVec 64 := 0
  ia : BitVec 56 := 0
  dst : BitVec 64 := 0
  lim : BitVec 16 := 0
  err : Bool := false
  cqsz : BitVec 4 := 0
  cqbase : BitVec 56 := 0
  cqhead : BitVec 32 := 0
  cqtail : BitVec 32 := 0
  cqwb : BitVec 64 := 0
  held : List (List Byte) := []
  fifo : List MgCmd := []
  promos : List MgCmd := []
  busy : Bool := false
  moving : Option Moving := none
  frames : List Nat := []
  ring : List (Nat × Nat) := []
  deriving DecidableEq, Repr

/-- An event scheduled or arrived: its cycle, the unit it acts on, and the instruction. -/
structure Ev where
  cycle : Nat := 0
  core : CoreIx := 0
  part : PartIx := 0
  link : LinkIx := 0
  instr : Instr
  deriving DecidableEq, Repr

/-- What the environment does to the module besides the rows of the opcode table (log 63): the sensors of a column
report temperatures (R32, R36, R40, R43); a DRAM error of a bank is corrected (R36); a soft error of a core's memories or registers is
corrected, or two bits of it cannot be (R193); a doubleword of the LPDDR6 tier can no longer be read (R119); a wire of a supply leaves or
regains its window (R43); the walks of a page are contended for until a cycle (R104). -/
inductive Occurrence where
  | temperature (col : CoreIx) (tlogic : BitVec 12) (layers : Vector (BitVec 12) 4)
  | corrected (col : CoreIx) (bank : Fin 32)
  | softError (core : CoreIx)
  | hardError (core : CoreIx) (read : Nat)
  | lpddrLost (pa : Nat)
  | supply (good : Bool)
  | walkBusy (part : PartIx) (page : Nat) (until_ : Nat)
  deriving DecidableEq, Repr

/-- An occurrence with the cycle of the Helm's clock at which it happens. -/
structure Occ where
  cycle : Nat := 0
  what : Occurrence
  deriving DecidableEq, Repr

/-- The Helm's registers and flash (R31, R75, R76, R78, R90, R91): boot state, HCMD, HARG, HSTAT, the key slots, attestation. `scAt` is the cycle from which SCDATA is
valid (R165), `fwNew` says that copy A was staged before the last cold reset (R90). -/
structure Helm where
  valid : Bool := false
  gen : BitVec 32 := 0
  emerg : Bool := false
  emcode : BitVec 8 := 0
  emCond : Bool := false
  supplyBad : Bool := false
  fwb : Bool := false
  fwpend : Bool := false
  fwerr : Bool := false
  fwver : BitVec 16 := 0
  flashA : Option Nat := none
  flashB : Option Nat := none
  flashStaged : Option Nat := none
  fwFloor : Nat := 0
  fwNew : Bool := false
  flashRetired : List (Nat × Nat × Nat) := []
  hcmd : BitVec 4 := 0
  hcmdErr : Bool := false
  hcmdBusy : Bool := false
  harg : BitVec 64 := 0
  keys : Vector (BitVec 512) 8 := Vector.replicate 8 0
  keyHeld : List (Nat × Nat × BitVec 64) := []
  signs : Nat := 0
  spdmOut : List (List Byte) := []
  scaddr : BitVec 32 := 0
  scAt : Nat := 0
  deriving DecidableEq, Repr

/-- An IDE stream of the host port (R47): link or selective, its key, whether it is on. -/
structure IdeStream where
  selective : Bool
  key : List Byte
  on : Bool := false
  deriving DecidableEq, Repr

/-- The host interface: windows, interrupts, partition map, IDE streams (R71, R74, R77, R79, R47), the last value of the Sextant's meters
(units 0 to 47 are clusters, 48 to 55 stacks; R135). -/
structure HostIf where
  w2part : BitVec 8 := 0xFF
  w2err : Bool := false
  w2base : BitVec 56 := 0
  intst : BitVec 8 := 0
  inten : BitVec 8 := 0
  mbev : BitVec 48 := 0
  msix : List (Nat × Nat) := []
  partmapNext : Vector (BitVec 8) 48 := Vector.replicate 48 0x3F
  partmap : Vector (BitVec 8) 48 := Vector.replicate 48 0x3F
  bar2 : List (Nat × Nat) := []
  numVfs : Nat := 0
  ide : List (Nat × IdeStream) := []
  hostPort : Port := {}
  hostOut : List OutTlp := []
  sextant : List (Nat × Nat) := []
  deriving DecidableEq, Repr

/-- Survey control, bank mode control, shoot-down registers, pinned entries and the ATS cache (R38, R98, R111, R107, R120): `ats` lists
page, partition and translated page, `atsAsked` the translation requests on their way (identity, page, partition). `lost` lists the
doublewords of the LPDDR6 tier that can no longer be read (R119), `walks` the pages whose walks are contended for (partition, page,
cycle; R104). -/
structure MemSide where
  svCol : BitVec 9 := 0
  svBank : BitVec 5 := 0
  svCmd : BitVec 3 := 0
  svErr : Bool := false
  svBusy : Bool := false
  bmCol : BitVec 9 := 0
  bmBank : BitVec 5 := 0
  bmMode : Bool := false
  bmErr : Bool := false
  bmBusy : Bool := false
  sdia : BitVec 56 := 0
  sdctl : BitVec 24 := 0
  sdBusy : Bool := false
  sdErr : Bool := false
  sddone : BitVec 32 := 0
  sdRun : Option (BitVec 56 × BitVec 24 × Nat) := none
  lost : List Nat := []
  walks : List (Nat × Nat × Nat) := []
  pinned : List Pin := []
  ats : List (Nat × Nat × Nat) := []
  atsAsked : List (Nat × Nat × Nat) := []
  deriving DecidableEq, Repr

/-- Peer links, optical ports, stops and stage words (R56, R62, R64, R69). -/
structure Fabric where
  fabid : BitVec 12 := 0
  links : Vector Link 48 := Vector.replicate 48 {}
  ports : Vector Port 48 := Vector.replicate 48 {}
  stopsSeen : List (Nat × Nat) := []
  stopCount : BitVec 12 := 0
  stopsDelayed : List (Nat × Nat × Nat) := []
  sgw : Vector (BitVec 32) 64 := Vector.replicate 64 0
  deriving DecidableEq, Repr

/-- The state of one module. `cores`, `cols` and `parts` are sparse tables by index, rising; an index not
listed holds the value of reset. `agenda` holds scheduled events in order, `inputs` the events that come
from outside, `occurs` what the environment does besides; `cur`, `eng`, `curPart`, `curLink` name the unit the instruction at hand acts on; `freeIx`
counts the draws of free values and `nextId` the identities of requests and words: the model's own fields
(log 1, 5). -/
structure State where
  chron : Nat := 0
  off : Bool := false
  frzCtl : Bool := false
  frzMsg : Bool := false
  frozen : Nat := 0
  helm : Helm := {}
  hif : HostIf := {}
  ms : MemSide := {}
  mig : MigEng := {}
  fab : Fabric := {}
  cores : List (Nat × Core) := []
  cols : List (Nat × Column) := []
  parts : List (Nat × Part) := []
  memory : List Host.Cell := []
  reqs : List Req := []
  agenda : List Ev := []
  inputs : List Ev := []
  occurs : List Occ := []
  cur : CoreIx := 0
  eng : Eng := .seq
  curPart : PartIx := 0
  curLink : LinkIx := 0
  freeIx : Nat := 0
  nextId : Nat := 1
  deriving DecidableEq, Repr

/-- Cycles within which the Helm sets VALID after the release of cold reset: 1.5 s at 1.4 GHz (R46). -/
def bootLimit : Nat := 2100000000

/-- The module right after cold reset (R46): chronometer 0, every register at its reset value, nothing listed in memory, no core
started, no entry in the survey, and the end of the boot of R90 on the agenda. The firmware copies in flash are those of a new module
(log 8). -/
def State.reset : State :=
  { helm := { flashA := Config.fwCopyA, flashB := Config.fwCopyB }
    agenda := [{ cycle := 1 + Config.helmLatency 0 % (bootLimit - 1), instr := .bootComplete }]
    freeIx := 1 }

end Sys2Proof.Machine
end

