-- ==== Sys2Proof/Machine/Bits.lean ====
section
/-! DEFINITION. Bit fields, sign extension and byte order, each decided once (R7, R8, R21). -/

namespace Sys2Proof.Machine

/-- Field [hi:lo] of the number w (R7). -/
def fld (w hi lo : Nat) : Nat := w / 2 ^ lo % 2 ^ (hi + 1 - lo)

/-- Bit n of the number w (R7). -/
def bitAt (w n : Nat) : Bool := w / 2 ^ n % 2 == 1

/-- A bit as a number. -/
def ofBool (b : Bool) : Nat := if b then 1 else 0

/-- w with the field of `width` bits at `lo` replaced by v (R7). -/
def setFld (w lo width v : Nat) : Nat :=
  w - (w / 2 ^ lo % 2 ^ width) * 2 ^ lo + (v % 2 ^ width) * 2 ^ lo

/-- sint(x) of an n-bit pattern given as a number (R21). -/
def sintN (n x : Nat) : Int :=
  let y := x % 2 ^ n
  if n = 0 then 0 else if y < 2 ^ (n - 1) then (y : Int) else (y : Int) - (2 ^ n : Nat)

/-- low(x, n) of an integer, as a number below 2^n (R20, R21). -/
def lowInt (x : Int) (n : Nat) : Nat := (x % ((2 ^ n : Nat) : Int)).toNat

/-- The n bytes of a number, least significant first (R8). -/
def toBytes : Nat → Nat → List Byte
  | 0, _ => []
  | n + 1, x => BitVec.ofNat 8 x :: toBytes n (x / 256)

/-- The number a list of bytes holds, least significant byte first (R8). -/
def ofBytes : List Byte → Nat
  | [] => 0
  | b :: bs => b.toNat + 256 * ofBytes bs

/-- sext(x, 64) of the low n bits of x (R21). -/
def sext64 (n x : Nat) : Word := BitVec.ofInt 64 (sintN n x)

/-- ceil(a / b) for naturals. -/
def ceilDiv (a b : Nat) : Nat := (a + (b - 1)) / b

/-- Number of set bits of the low n bits of x. -/
def popCount : Nat → Nat → Nat
  | 0, _ => 0
  | n + 1, x => x % 2 + popCount n (x / 2)

/-- The index of the (b + 1)-th lowest set bit of x among its low n bits (R100). -/
def nthSetBit : Nat → Nat → Nat → Nat → Option Nat
  | 0, _, _, _ => none
  | n + 1, x, b, i =>
    if x % 2 = 1 then (if b = 0 then some i else nthSetBit n (x / 2) (b - 1) (i + 1))
    else nthSetBit n (x / 2) b (i + 1)

/-- x rounded up to a multiple of m. -/
def roundUp (x m : Nat) : Nat := ceilDiv x m * m

end Sys2Proof.Machine
end

