-- ==== Sys2Proof/Machine/Table.lean ====
section
/-! DEFINITION. Sparse tables and memory as sorted lists in one canonical form, and the keys of the
physical memories (R95, R172, R174, R210). -/

namespace Sys2Proof.Machine

/-- The entry of a sparse table at an index. -/
def tget {α : Type} : List (Nat × α) → Nat → Option α
  | [], _ => none
  | (k, x) :: r, a => if k = a then some x else tget r a

/-- The sparse table with the entry at an index replaced; the indices stay rising. -/
def tput {α : Type} : List (Nat × α) → Nat → α → List (Nat × α)
  | [], a, v => [(a, v)]
  | (k, x) :: r, a, v =>
    if a < k then (a, v) :: (k, x) :: r else if a = k then (a, v) :: r else (k, x) :: tput r a v

/-- The byte memory holds at a key. A byte nothing has written reads 0 (log 4). -/
def readByte : List Host.Cell → Nat → Byte
  | [], _ => 0
  | (k, x) :: r, a => if k = a then x else readByte r a

/-- Memory with one byte written. Writing 0 removes the entry, so that equal memories are equal lists. -/
def writeByte : List Host.Cell → Nat → Byte → List Host.Cell
  | [], a, v => if v = 0 then [] else [(a, v)]
  | (k, x) :: r, a, v =>
    if a < k then (if v = 0 then (k, x) :: r else (a, v) :: (k, x) :: r)
    else if a = k then (if v = 0 then r else (a, v) :: r)
    else (k, x) :: writeByte r a v

/-- n bytes of memory from a key up (R8). -/
def readBytes (m : List Host.Cell) (a : Nat) : Nat → List Byte
  | 0 => []
  | n + 1 => readByte m a :: readBytes m (a + 1) n

/-- Memory with a list of bytes written from a key up (R8). -/
def writeBytes (m : List Host.Cell) (a : Nat) : List Byte → List Host.Cell
  | [] => m
  | b :: bs => writeBytes (writeByte m a b) (a + 1) bs

/-- Whether the keys of a memory rise strictly from a bound on and no entry is 0. -/
def Memory.wfFrom : Nat → List Host.Cell → Bool
  | _, [] => true
  | lo, (k, x) :: r => decide (lo ≤ k) && decide (x ≠ 0) && Memory.wfFrom (k + 1) r

/-- The canonical form of memory: keys strictly rising, no entry equal to what an unlisted key reads as. -/
def Memory.wf (m : List Host.Cell) : Bool := Memory.wfFrom 0 m

/-- Key of a scratchpad byte of a core (R174). -/
def spadKey (core off : Nat) : Nat := 2 ^ 56 + core * 2 ^ 23 + off

/-- Key of a slice SRAM byte of a column (R210). -/
def sliceKey (core off : Nat) : Nat := 2 ^ 57 + core * 2 ^ 23 + off

/-- Key of an instruction memory byte of a core, for the context of a slot: the loader keeps the code of each context
that is READY or runs (R88, R172; log 3). -/
def imemKey (core off : Nat) (slot : Nat := 0) : Nat := 2 ^ 58 + slot * 2 ^ 28 + core * 2 ^ 19 + off

/-- The little-endian number n bytes of memory hold (R8). -/
def readNat (m : List Host.Cell) (a n : Nat) : Nat := ofBytes (readBytes m a n)

end Sys2Proof.Machine
end

