-- ==== Sys2Proof/Machine/Ops.lean ====
section
/-! DEFINITION. The operations the meanings share: tables of units, the schedule, tokens, the issue of a
word and its retirement, hard faults, traps, soft stops, fault records, ring claims. -/

namespace Sys2Proof

/-- Number of an engine (R170). -/
def Eng.num : Eng → Nat
  | .seq => 0 | .axu => 1 | .bke => 2 | .vec => 3 | .cpe => 4

end Sys2Proof

namespace Sys2Proof.Machine

/-! ## Units -/

/-- A core of the module. -/
def State.core (s : State) (c : CoreIx) : Core := (tget s.cores c.val).getD {}

/-- The module with a core replaced. -/
def State.setCore (s : State) (c : CoreIx) (k : Core) : State := { s with cores := tput s.cores c.val k }

/-- The module with a function applied to a core. -/
def State.upd (s : State) (c : CoreIx) (f : Core → Core) : State := s.setCore c (f (s.core c))

/-- The core whose word or event is at hand. -/
def State.me (s : State) : Core := s.core s.cur

/-- The module with a function applied to the core at hand. -/
def State.updMe (s : State) (f : Core → Core) : State := s.upd s.cur f

/-- The module with a function applied to the sequencer of the core at hand. -/
def State.updSeq (s : State) (f : Seq → Seq) : State := s.updMe fun k => { k with seq := f k.seq }

/-- A column of the module. -/
def State.col (s : State) (c : CoreIx) : Column := (tget s.cols c.val).getD {}

/-- The module with a function applied to a column. -/
def State.updCol (s : State) (c : CoreIx) (f : Column → Column) : State :=
  { s with cols := tput s.cols c.val (f (s.col c)) }

/-- A partition of the module. -/
def State.part (s : State) (p : PartIx) : Part := (tget s.parts p.val).getD {}

/-- The module with a function applied to a partition. -/
def State.updPart (s : State) (p : PartIx) (f : Part → Part) : State :=
  { s with parts := tput s.parts p.val (f (s.part p)) }

/-- The partition a cluster belongs to (R77). -/
def State.partOfCluster (s : State) (cl : Fin 48) : Option PartIx :=
  let b := (s.hif.partmap[cl]).toNat
  if h : b < 48 then some ⟨b, h⟩ else none

/-- The cluster of a core, 6s + c (R18, R77). -/
def clusterOf (c : CoreIx) : Fin 48 := ⟨c.val / 6, by omega⟩

/-- The stack of a core (R18). -/
def stackOf (c : CoreIx) : Nat := c.val / 36

/-- The partition a core belongs to (R77, R122). -/
def State.partOf (s : State) (c : CoreIx) : Option PartIx := s.partOfCluster (clusterOf c)

/-- All 48 partition numbers, rising. -/
def allParts : List PartIx := List.finRange 48

/-- All 288 core numbers, rising. -/
def allCores : List CoreIx := List.finRange 288

/-- The cores of a partition in logical order (R77). -/
def State.coresOf (s : State) (p : PartIx) : List CoreIx := allCores.filter fun c => s.partOf c == some p

/-- Logical core index of a core within its partition (R77). -/
def State.logical (s : State) (p : PartIx) (c : CoreIx) : Nat := ((s.coresOf p).takeWhile (· != c)).length

/-- The number of clusters in effect in a partition (R77). -/
def State.nclu (s : State) (p : PartIx) : Nat := ((List.finRange 48).filter fun c => s.partOfCluster c == some p).length

/-- The slot whose context is in RUN (R122). -/
def Part.runSlot (q : Part) : Option (Fin 8) := (List.finRange 8).find? fun j => decide (q.slots[j].st = .run)

/-- The slot whose context is PREEMPTED in the shadow storage (R142). -/
def Part.preSlot (q : Part) : Option (Fin 8) := (List.finRange 8).find? fun j => decide (q.slots[j].st = .preempted)

/-- The partition with a function applied to a slot. -/
def Part.updSlot (q : Part) (j : Fin 8) (f : Slot → Slot) : Part := { q with slots := q.slots.set j (f q.slots[j]) }

/-- The slot whose context's counts stamp an input: that of the running context, else of the one launched last (R145; log 69). -/
def Part.stampSlot (q : Part) : Fin 8 := q.runSlot.getD q.lb.slot

/-- The context whose counts stamp an input. -/
def Part.stamped (q : Part) : Slot := q.slots[q.stampSlot]

/-- The descriptor of leg n of a partition (R124). -/
def Part.leg (q : Part) (n : Nat) : Option LegDesc := if n = 0 then none else q.legs[n - 1]?

/-- Whether a core is in a fixed leg (R124, R137); leg 0 is free. -/
def State.fixedLeg (s : State) (c : CoreIx) : Bool :=
  match s.partOf c with
  | none => false
  | some p => match (s.part p).leg (s.core c).ctl.legno.toNat with
    | some d => d.fixed
    | none => false

/-- The queue of an engine; CPE has none of its own (R172). -/
def Core.queue (k : Core) : Eng → Queue
  | .seq => k.seq.q | .axu => k.axu.q | .bke => k.bke.q | .vec => k.vec.q | .cpe => {}

/-- The core with the queue of an engine replaced. -/
def Core.setQueue (k : Core) (e : Eng) (q : Queue) : Core :=
  match e with
  | .seq => { k with seq := { k.seq with q := q } }
  | .axu => { k with axu := { k.axu with q := q } }
  | .bke => { k with bke := { k.bke with q := q } }
  | .vec => { k with vec := { k.vec with q := q } }
  | .cpe => k

/-- Start and length in bytes of an engine's section of instruction memory (R87, R88, R172). -/
def Core.section_ (k : Core) : Eng → Nat × Nat
  | .seq => (0, 4096 * k.ctl.seqsz)
  | .axu => (4096 * k.ctl.seqsz, 4096 * k.ctl.axusz)
  | .bke => (4096 * (k.ctl.seqsz + k.ctl.axusz), 4096 * k.ctl.bkesz)
  | .vec => (4096 * (k.ctl.seqsz + k.ctl.axusz + k.ctl.bkesz), 4096 * k.ctl.vecsz)
  | .cpe => (0, 0)

/-! ## The schedule -/

/-- The agenda with an event put after every event of the same or an earlier cycle. -/
def agendaPut : List Ev → Ev → List Ev
  | [], e => [e]
  | x :: r, e => if e.cycle < x.cycle then e :: x :: r else x :: agendaPut r e

/-- The agenda with an event put before every event of the same or a later cycle. -/
def agendaFirst : List Ev → Ev → List Ev
  | [], e => [e]
  | x :: r, e => if x.cycle < e.cycle then x :: agendaFirst r e else e :: x :: r

/-- Puts an event on the agenda at a cycle, for the current core, partition and link. -/
def State.sched (s : State) (t : Nat) (i : Instr) : State :=
  { s with agenda := agendaPut s.agenda { cycle := t, core := s.cur, part := s.curPart, link := s.curLink, instr := i } }

/-- Puts an event on the agenda for a given core. -/
def State.schedC (s : State) (t : Nat) (c : CoreIx) (i : Instr) : State :=
  { s with agenda := agendaPut s.agenda { cycle := t, core := c, part := s.curPart, link := s.curLink, instr := i } }

/-- Puts an event on the agenda for a given partition. -/
def State.schedP (s : State) (t : Nat) (p : PartIx) (i : Instr) : State :=
  { s with agenda := agendaPut s.agenda { cycle := t, core := s.cur, part := p, link := s.curLink, instr := i } }

/-- Puts an event on the agenda for a given link or port. -/
def State.schedL (s : State) (t : Nat) (l : LinkIx) (i : Instr) : State :=
  { s with agenda := agendaPut s.agenda { cycle := t, core := s.cur, part := s.curPart, link := l, instr := i } }

/-- Draws the next index of the free values. -/
def State.draw (s : State) : Nat × State := (s.freeIx, { s with freeIx := s.freeIx + 1 })

/-- Latency of a memory-side response in a free leg: at least 1, otherwise a free value (R104; log 5). -/
def State.drawWalk (s : State) : Nat × State := (1 + Config.walkLatency s.freeIx, { s with freeIx := s.freeIx + 1 })

/-- Latency of a Helm action: at least 1, otherwise a free value (log 5). -/
def State.drawHelm (s : State) : Nat × State := (1 + Config.helmLatency s.freeIx, { s with freeIx := s.freeIx + 1 })

/-- Draws the next identity. -/
def State.newId (s : State) : Nat × State := (s.nextId, { s with nextId := s.nextId + 1 })

/-! ## Interrupts (R79) -/

/-- Counts the firing of MSI-X vector v of a function: 48 for the PF, p for the VF of partition p. -/
def State.fire (s : State) (fn v : Nat) : State :=
  { s with hif := { s.hif with msix := tput s.hif.msix (fn * 8 + v) ((tget s.hif.msix (fn * 8 + v)).getD 0 + 1) } }

/-- Sets bit v of INTST and fires its vector on a 0-to-1 transition of (status AND enable) (R79). -/
def State.pfInt (s : State) (v : Fin 8) : State :=
  let old := s.hif.intst.getLsb v
  let s := { s with hif := { s.hif with intst := s.hif.intst ||| (1 <<< v.val) } }
  if !old && s.hif.inten.getLsb v then s.fire 48 v.val else s

/-- Sets bit v of VINTST of a partition and fires its vector on a 0-to-1 transition (R79). -/
def State.vfInt (s : State) (p : PartIx) (v : Fin 2) : State :=
  let old := (s.part p).vintst.getLsb v
  let s := s.updPart p fun q => { q with vintst := q.vintst ||| (1 <<< v.val) }
  if !old && (s.part p).vinten.getLsb v then s.fire p.val v.val else s

/-- A mailbox event of a partition: with EVEN = 1 it sets VINTST bit 0 and MBEV bit p (R83). -/
def State.mailEvent (s : State) (p : PartIx) : State :=
  if (s.part p).even then
    let s := s.vfInt p 0
    ({ s with hif := { s.hif with mbev := s.hif.mbev ||| (1 <<< p.val) } }).pfInt 5
  else s

/-- Whether a slot state is one whose entry is a mailbox event (R83). -/
def CtxState.event : CtxState → Bool
  | .done | .fault | .killed | .rejected | .preempted => true
  | _ => false

/-- Moves a slot to a state, with its mailbox event (R83). -/
def State.slotTo (s : State) (p : PartIx) (j : Fin 8) (st : CtxState) : State :=
  let s := s.updPart p fun q => q.updSlot j fun x => { x with st := st }
  if st.event then s.mailEvent p else s

/-! ## Hard faults (R148) -/

/-- The links a partition is bound to (R56). -/
def State.linksOf (s : State) (p : PartIx) : List LinkIx :=
  (List.finRange 48).filter fun l => s.fab.links[l].parts.getLsb p

/-- Offers a message to a peer link: held while the link trains, placed in the stripe sequence while it is
UP, dropped otherwise (R58, R60). The answer says whether it was dropped. -/
def State.offer (s : State) (l : LinkIx) (t : OutTlp) : State × Bool :=
  let k := s.fab.links[l]
  match k.st with
  | .up =>
    let m := 2 ^ k.nmem.toNat
    let t := { t with seq := k.txSeq.toNat, member := k.txSeq.toNat % m }
    ({ s with fab := { s.fab with links := s.fab.links.set l { k with out := k.out ++ [t], txSeq := k.txSeq + 1 } } }, false)
  | .training => ({ s with fab := { s.fab with links := s.fab.links.set l { k with waiting := k.waiting ++ [t] } } }, false)
  | _ => (s, true)

/-- Cycles after which a stop identity may be used or handled again (R64). -/
def stopHorizon : Nat := 2 ^ 24

/-- Originates a STOP for a hard fault of a partition bound to a peer link, on every such link; an identity
used less than 2^24 cycles ago delays it (R64). -/
def State.originateStop (s : State) (p : PartIx) (code : Nat) : State :=
  if code = 0x67 ∨ (s.linksOf p).isEmpty then s
  else
    let id := s.fab.fabid.toNat * 4096 + s.fab.stopCount.toNat
    let s := { s with fab := { s.fab with stopCount := s.fab.stopCount + 1 } }
    match tget s.fab.stopsSeen id with
    | some t =>
      if s.chron < t + stopHorizon then
        ({ s with fab := { s.fab with stopsDelayed := s.fab.stopsDelayed ++ [(id, code, p.val)] } }).schedP (t + stopHorizon) p
          (.stopDelayedSend (BitVec.ofNat 24 id) (BitVec.ofNat 8 code) p)
      else s.sched s.chron (.stopDelayedSend (BitVec.ofNat 24 id) (BitVec.ofNat 8 code) p)
    | none => s.sched s.chron (.stopDelayedSend (BitVec.ofNat 24 id) (BitVec.ofNat 8 code) p)

/-- Cycles from the fault to the halt line at every unit (R148). -/
def haltSkew : Nat := 8

/-- Cycles from the halt line to the end of the longest skid, that of the row controllers (R149). -/
def haltSkid : Nat := 54

/-- Has the Helm look for a context to switch in or a pre-emption to request, after a latency of its own (R141). -/
def State.kickHelm (s : State) (p : PartIx) : State :=
  match (s.part p).schedDue with
  | some _ => s
  | none =>
    let (lat, s) := s.drawHelm
    (s.updPart p fun q => { q with schedDue := some (s.chron + lat) }).schedP (s.chron + lat) p .helmSchedule

/-! ## The end of a context -/

/-- The saved core of a switched-out context (R166). -/
def Part.savedCore (q : Part) (c : CoreIx) : Option Core :=
  match q.shadow with
  | some h => if q.preSlot.isSome then tget h.cores c.val else none
  | none => none

/-- Whether the partition of a core has a context in RUN. -/
def State.runs (s : State) (c : CoreIx) : Bool :=
  match s.partOf c with
  | some p => (s.part p).runSlot.isSome
  | none => false

/-- Whether a context in RUN or PREEMPTED of the core's partition holds a valid row window on its column (R40). -/
def State.holdsWindow (s : State) (c : CoreIx) : Bool :=
  (s.runs c && (s.core c).ctl.rwin.toList.any fun w => w.v) || (match s.partOf c with
    | some p => (match (s.part p).savedCore c with
      | some k => k.ctl.rwin.toList.any fun w => w.v
      | none => false)
    | none => false)

/-- Lets a pending change of the refresh period of a column take effect at once when no context keeps it waiting (R40). -/
def State.hotCheck (s : State) (c : CoreIx) : State :=
  if (s.col c).hotpend && !s.holdsWindow c then s.schedC s.chron c .refreshPeriodChange else s

/-- The same for every column. -/
def State.hotCheckAll (s : State) : State := s.cols.foldl (fun s x => if h : x.1 < 288 then s.hotCheck ⟨x.1, h⟩ else s) s

/-! ## Key slots (R78) -/

/-- Whether any context names a key slot. -/
def State.keyNamed (s : State) (j : Nat) : Bool := s.parts.any fun x => x.2.slots.toList.any fun t => t.key == some j

/-- A key slot with one doubleword written; bytes 56 to 63 are reserved. -/
def keySet (k : BitVec 512) (dw v : Nat) : BitVec 512 := if dw = 7 then k else BitVec.ofNat 512 (setFld k.toNat (64 * dw) 64 v)

/-- Writes a doubleword of a key slot (R78). -/
def State.keyPut (s : State) (j : Fin 8) (dw v : Nat) : State :=
  { s with helm := { s.helm with keys := s.helm.keys.set j (keySet s.helm.keys[j] dw v) } }

/-- The writes held for a key slot that no context names apply, in their order (R78). -/
def State.keyFlush (s : State) (j : Fin 8) : State :=
  if s.keyNamed j.val then s
  else
    let (mine, rest) := s.helm.keyHeld.partition fun x => x.1 == j.val
    mine.foldl (fun s x => s.keyPut j x.2.1 x.2.2.toNat) { s with helm := { s.helm with keyHeld := rest } }

/-- A context stops naming its key slot; writes held for a slot no longer named apply in that cycle (R78). -/
def State.unname (s : State) (p : PartIx) (j : Fin 8) : State :=
  match (s.part p).slots[j].key with
  | none => s
  | some k => (s.updPart p fun q => q.updSlot j fun x => { x with key := none }).keyFlush (Fin.ofNat 8 k)

/-- Moves a slot to an end state with its code (R81, R83); the Helm looks for the next context (R142). -/
def State.endSlot (s : State) (p : PartIx) (j : Fin 8) (st : CtxState) (code : Nat) : State :=
  let s := s.updPart p fun q => q.updSlot j fun x => { x with code := BitVec.ofNat 8 code }
  (((s.unname p j).slotTo p j st).kickHelm p).hotCheckAll

/-- The context held PREEMPTED goes to FAULT with a code; a request to hold it is cleared (R63, R148, R163, R167). -/
def State.storedFault (s : State) (p : PartIx) (code : Nat) : State :=
  match (s.part p).preSlot with
  | some j => (s.updPart p fun q => { q with shadow := none, ckheld := false, ckreq := false }).endSlot p j .fault code
  | none => s

/-! ## Hard faults of a partition -/

/-- What a halt keeps of the unit named as its origin. -/
def Halting.src (h : Halting) : FaultSrc :=
  { code := h.code, core := h.core, eng := h.eng, pc := h.pc, ia := h.ia, handle := h.handle, beat := h.beat, nests := h.nests }

/-- Two hard faults of one cycle in one partition: one halt, whose origin is the unit with the lowest logical core, then the lowest
slot; a unit's first fault stands (R148, R150). -/
def Halting.merge (o h : Halting) : Halting :=
  if o.kill ∨ h.kill then o
  else if h.core < o.core ∨ (h.core = o.core ∧ h.eng < o.eng) then
    { h with others := o.src :: o.others, phase := o.phase, rows := o.rows }
  else if (o.src :: o.others).any (fun x => x.core == h.core && x.eng == h.eng) then o
  else { o with others := o.others ++ [h.src] }

/-- Whether a partition is already halting because of a fault of an earlier cycle: what its engines raise now is not recorded (R148,
R151). -/
def State.halts (s : State) (p : PartIx) : Bool := (s.part p).halting.any fun h => decide (h.cycle < s.chron)

/-- A hard fault raised by a unit of a partition (R148). With a context in RUN and no switch, the partition
halts: PARTITION_HALT follows when the halt line reaches every unit. During a switch the code waits for its end
(R163); otherwise a PREEMPTED context goes to FAULT with the code, and with none nothing happens. The first fault of a
halt, of a switch or of a stored context originates a STOP (R64), unless it is one `told` of before. -/
def State.hardFault (s : State) (p : PartIx) (h : Halting) (told : Bool := false) : State :=
  let q := s.part p
  let tell (s : State) : State := if told then s else s.originateStop p h.code
  if q.switching then
    let s := s.updPart p fun q => { q with swapFault := some (q.swapFault.getD h.code), ckreq := false }
    if q.swapFault.isNone then tell s else s
  else match q.runSlot with
    | some _ =>
      match q.halting with
      | none =>
        let s := s.updPart p fun q => { q with halting := some h, outgoing := none, ckreq := false }
        (tell s).schedP (s.chron + haltSkew) p .partitionHalt
      | some o => if o.cycle = h.cycle then s.updPart p fun q => { q with halting := some (o.merge h) } else s
    | none => match q.preSlot with
      | some _ => tell (s.storedFault p h.code)
      | none => s

/-- A hard fault of an engine of a core, at the current cycle. -/
def State.coreFault (s : State) (c : CoreIx) (e : Nat) (code : Nat) (pc : Int) (ia : Nat := 0) (handle : Nat := 0xFFFF)
    (beat : Nat := 0xFF) (nests : Option (Vector Nest 6 × Nat) := none) : State :=
  match s.partOf c with
  | none => s
  | some p => s.hardFault p
      { code := code, cycle := s.chron, core := s.logical p c, eng := e, pc := pc, ia := ia, handle := handle, beat := beat, nests := nests }

/-- A machine check in a partition, raised by no engine. -/
def State.partFault (s : State) (p : PartIx) (code : Nat) : State :=
  s.hardFault p { code := code, cycle := s.chron, core := 0x1FF, eng := 0, pc := -1 }

/-- The cycle from which a unit issues nothing because its partition halts: the fault's own unit at once,
every other at the halt line (R148, R149). -/
def State.haltFrom (s : State) (c : CoreIx) (e : Eng) : Option Nat :=
  match s.partOf c with
  | none => none
  | some p => match (s.part p).halting with
    | none => none
    | some h =>
      let me : Bool := (h.src :: h.others).any fun x => x.core == s.logical p c && x.eng == e.num
      if me ∧ ¬ h.kill then some h.cycle else some (h.cycle + haltSkew)

/-! ## Pre-emption -/

/-- The cycle from which a pre-emption in progress lets an engine of a core issue nothing (R160, R161): t + 8 in a
group that stops at once, t_b in a cut group, none in a deferred one. -/
def Part.preemptFrom (q : Part) (c : CoreIx) : Option Nat :=
  match q.outgoing with
  | none => none
  | some x => match tget x.cut c.val with
    | some tb => some tb
    | none => if x.deferred.contains c.val then none else some (x.at_ + haltSkew)

/-- Whether an optional limit lets something happen at cycle t. -/
def before (t : Nat) : Option Nat → Bool
  | none => true
  | some l => decide (t < l)

/-- Whether a pre-emption in progress has stopped the units of a core (R160, R161). -/
def State.preStopped (s : State) (c : CoreIx) : Bool :=
  match s.partOf c with
  | none => false
  | some p => !before s.chron ((s.part p).preemptFrom c)

/-- Keeps an event of a core that a pre-emption has stopped, for its resume (R160). -/
def State.stash (s : State) (c : CoreIx) (i : Instr) : State :=
  match s.partOf c with
  | none => s
  | some p => s.updPart p fun q => { q with outgoing := q.outgoing.map fun x => { x with evs := x.evs ++ [(s.chron, c.val, i)] } }

/-! ## Fault records (R109, R110) -/

/-- A field v of width w at bit lo of a record doubleword. -/
def putF (lo w v : Nat) : Nat := (v % 2 ^ w) * 2 ^ lo

/-- The requester of an access, for a fault record. -/
structure Who where
  req : Nat
  core : Nat := 0x1FF
  wr : Bool := false
  at_ : Bool := false
  fixed : Bool := false
  ldq : Nat := 0
  va : Nat := 0
  ia : Nat := 0
  leg : Nat := 0
  course : Nat := 0
  handle : Nat := 0xFFFF
  cmdid : Nat := 0
  entry : Nat := 0
  level : Nat := 0
  deriving DecidableEq, Repr

/-- The 64 bytes of a fault record but for SEQNO (R109). -/
def faultRecord (code : Nat) (w : Who) (cycle seqno : Nat) : List Byte :=
  toBytes 8 (putF 0 8 code + putF 8 4 w.req + putF 12 9 w.core + putF 21 1 (ofBool w.wr) + putF 22 1 (ofBool w.at_)
      + putF 23 1 (ofBool w.fixed) + putF 24 6 w.ldq)
    ++ toBytes 8 w.va ++ toBytes 8 w.ia ++ toBytes 8 cycle
    ++ toBytes 8 (putF 0 16 w.leg + putF 16 3 w.course + putF 32 16 w.handle + putF 48 16 w.cmdid)
    ++ toBytes 8 w.entry ++ toBytes 8 (putF 0 2 w.level) ++ toBytes 8 (putF 0 32 seqno)

/-- State of a DRAM bank of a column (R35). -/
def State.bankState (s : State) (col bank : Nat) : BitVec 4 :=
  if h : col < 288 ∧ bank < 32 then (s.col ⟨col, h.1⟩).dram[bank]'h.2 else 0

/-- Whether a bank serves pages: POOL, PENDPOOL or QUIET (R101, R103). -/
def poolState (b : BitVec 4) : Bool := b == 1 || b == 3 || b == 5

/-- What answers a physical address: stacked DRAM of a bank serving pages, LPDDR6, or nothing; a FAILED bank
is told apart (R95, R101). -/
inductive PaKind where
  | pool | lpddr | failed | nothing
  deriving DecidableEq, Repr

/-- See `PaKind`. Rows above ROWMAX do not exist (R32). -/
def State.paKind (s : State) (pa : Nat) : PaKind :=
  let top := pa / 2 ^ 52
  if top = 0 ∧ fld pa 51 38 = 0 then
    let col := fld pa 37 29
    if h : col < 288 then
      let b := s.bankState col (fld pa 28 24)
      if b = 7 then .failed
      else if poolState b ∧ fld pa 23 13 ≤ (s.col ⟨col, h⟩).rowmax.toNat then .pool else .nothing
    else .nothing
  else if top = 1 ∧ fld pa 51 40 = 0 ∧ fld pa 39 0 < 768 * 2 ^ 30 then .lpddr
  else .nothing

/-- Writes bytes at a physical address if memory answers there (R110); they are dropped otherwise. -/
def State.paWrite (s : State) (pa : Nat) (bs : List Byte) : State :=
  match s.paKind pa with
  | .pool | .lpddr => { s with memory := writeBytes s.memory pa bs }
  | _ => s

/-- Sends a posted write to a host bus address, with no PASID (R110, R113). -/
def State.hostPost (s : State) (addr : Nat) (bs : List Byte) : State :=
  { s with hif := { s.hif with hostOut := s.hif.hostOut ++ [{ id := 0, ia := addr, n := bs.length, kind := .write bs }] } }

/-- Writes one record to a partition's fault queue, or holds it while the queue is full (R110); an engine of a partition already halting
writes none (R148, R151). -/
def State.fqWrite (s : State) (p : PartIx) (code : Nat) (w : Who) : State :=
  let q := s.part p
  let size := 2 ^ (6 + q.fqsz.toNat)
  let r := faultRecord code w s.chron q.fqtail.toNat
  if w.req < 5 ∧ s.halts p then s
  else if (q.fqtail - q.fqhead).toNat = size ∨ ¬ q.fqheld.isEmpty then
    s.updPart p fun q => { q with fqheld := q.fqheld ++ [r] }
  else
    let s := s.paWrite (q.fqbase.toNat + q.fqtail.toNat % size * 64) r
    let s := s.updPart p fun q => { q with fqtail := q.fqtail + 1 }
    if q.fqwb = 0 then s else s.hostPost (q.fqwb.toNat) (toBytes 4 (q.fqtail + 1).toNat)

/-- Whether records of a partition wait for space (R110). -/
def Part.fqFull (q : Part) : Bool := !q.fqheld.isEmpty

/-- Whether a record of an engine of a core waits for space: that requester stays stopped (R110). -/
def Part.recordHeld (q : Part) (c : CoreIx) (e : Nat) : Bool :=
  q.fqheld.any fun r => fld (ofBytes (r.take 3)) 11 8 == e && fld (ofBytes (r.take 3)) 20 12 == c.val

/-! ## Traps (R152, R423, R424) -/

/-- Takes a trap in the sequencer of a core: EPC and CAUSE, PMODE := mode, supervisor mode, pc := HVEC.
`took` says whether the word at EPC had taken its token. -/
def Seq.trap (q : Seq) (now : Nat) (cause : Nat) (epc : Int) (took : Bool) : Seq :=
  { q with
    epc := BitVec.ofInt 32 epc
    cause := BitVec.ofNat 8 cause
    pmode := q.sup
    sup := true
    epcTook := took
    inTrap := true
    hold := none
    heldTrap := none
    q := { q.q with pc := (q.hvec.toNat : Int), base := now + 1, notBefore := now + 1 } }

/-- The return from a trap: mode := PMODE, pc := EPC; a word at EPC that had taken does not take again at its
first re-issue (R424). -/
def Seq.sret (q : Seq) (now : Nat) : Seq :=
  { q with
    sup := q.pmode
    inTrap := q.pmode
    noTakeAt := if q.epcTook then some (q.epc.toNat : Int) else none
    epcTook := false
    q := { q.q with pc := (q.epc.toNat : Int), base := now + 1, notBefore := now + 1 } }

/-! ## Tokens (R180 to R185) -/

/-- Index of the FIFO from engine p to engine q, in TKIN order: 4 q + rank of p among the others. -/
def fifoIx (p q : Nat) : Nat := 4 * q + (if p < q then p else p - 1)

/-- Occupancy of a FIFO. -/
def Ctl.occ (k : Ctl) (f : Nat) : Nat := ((k.tok[f]?).getD 0).toNat

/-- The registers with the occupancy of a FIFO set. -/
def Ctl.setOcc (k : Ctl) (f v : Nat) : Ctl := if h : f < 20 then { k with tok := k.tok.set f (BitVec.ofNat 4 v) h } else k

/-- Ceiling of a FIFO (R184). -/
def Ctl.ceil (k : Ctl) (f : Nat) : Nat := fld (k.tkceil0.toNat + 2 ^ 64 * k.tkceil1.toNat) (4 * f + 3) (4 * f)

/-- FROM of an engine (R183). -/
def Ctl.from_ (k : Ctl) (q : Nat) : Nat := fld k.tksel.toNat (8 * q + 3) (8 * q)

/-- TO of an engine (R183). -/
def Ctl.to_ (k : Ctl) (q : Nat) : Nat := fld k.tksel.toNat (8 * q + 6) (8 * q + 4)

/-- The registers with TKSEL as it governs the words of a cycle: a CRW governs those from the next cycle on (R183, R422). -/
def Ctl.seen (k : Ctl) (now : Nat) : Ctl :=
  match k.tkselOld with
  | some (t, w) => if now ≤ t then { k with tksel := w } else k
  | none => k

/-- Whether a take of engine q from source f finds a token: a FIFO, or a link token counter (R181, R185). -/
def Ctl.hasTok (k : Ctl) (q f : Nat) : Bool :=
  if 8 ≤ f then decide (0 < ((k.ltc[f - 8]?).getD 0).toNat) else decide (0 < k.occ (fifoIx f q))

/-- Takes one token of engine q from source f (R181, R185). -/
def Ctl.take (k : Ctl) (q f : Nat) : Ctl :=
  if h : 8 ≤ f ∧ f < 12 then { k with ltc := k.ltc.set (f - 8) (k.ltc[f - 8]'(by omega) - 1) (by omega) }
  else k.setOcc (fifoIx f q) (k.occ (fifoIx f q) - 1)

/-- Whether a give from p to q stays within the ceiling (R181). -/
def Ctl.giveOk (k : Ctl) (p q : Nat) : Bool := decide (k.occ (fifoIx p q) + 1 ≤ k.ceil (fifoIx p q))

/-- Gives one token from p to q; past the ceiling the give is lost and 0x42 is raised by p (R181). -/
def State.give (s : State) (c : CoreIx) (p q : Nat) (pc : Int) : State :=
  let k := (s.core c).ctl
  if k.giveOk p q then s.upd c fun x => { x with ctl := x.ctl.setOcc (fifoIx p q) (x.ctl.occ (fifoIx p q) + 1) }
  else s.coreFault c p 0x42 pc

/-- Counts a take from a link token counter for the Logbook's TKSEQ (R145). -/
def State.countLinkTake (s : State) (c : CoreIx) : State :=
  match s.partOf c with
  | none => s
  | some p =>
    let s := s.updPart p fun q => q.updSlot q.stampSlot fun x => { x with tkseq := x.tkseq + 1 }
    if (s.part p).lb.replay then s.schedP s.chron p .replayInjection else s

/-- Performs the take of engine q of a core from source f. -/
def State.take (s : State) (c : CoreIx) (q f : Nat) : State :=
  let s' := s.upd c fun x => { x with ctl := x.ctl.take q f }
  if 8 ≤ f then s'.countLinkTake c else s'

/-! ## Issue of a word -/

/-- Whether an instruction is IDLE. -/
def isIdle : Instr → Bool
  | .idle _ _ => true
  | _ => false

/-- What the body of a word answers when its turn to issue comes: its effect, a fault of its operands, or,
in a free leg, that it must wait (a deviation 0x41 in a fixed leg, R137). `fill` is a wait for the entry of a handle and `fillFault` a
fault of its fill, with the last table entry and its level (R189). `late` is a wait whose deviation falls in the
cycle given, that of the access that breaks a rule; the word has issued by then (R137, R353). -/
inductive Verdict where
  | ok (s : State)
  | fault (code : Nat) (va ia : Nat) (wr at_ : Bool) (handle : Nat)
  | fillFault (code entry level handle : Nat)
  | fill (handle : Nat)
  | wait
  | late (t : Nat)

/-- A fault with no address. -/
def Verdict.plain (code : Nat) : Verdict := .fault code 0 0 false false 0xFFFF

/-- A word that may not issue yet tries again in the next cycle in a free leg, without having taken; in a
fixed leg the condition is deviation 0x41 (R137, R138, R182). -/
def State.waitOr41 (s : State) (c : CoreIx) (e : Eng) : State :=
  if s.fixedLeg c then s.coreFault c e.num 0x41 ((s.core c).queue e).pc
  else s.upd c fun k => k.setQueue e { k.queue e with notBefore := s.chron + 1 }

/-- Index of the loop buffer slot of a body word. -/
def Queue.bodyIx (q : Queue) : Nat := ((q.pc - q.lbase) / 4).toNat

/-- The issue pointer after a word: the first word of the next trip when the word ends the body of an open loop
(R332, R370), else none for the next word; and the open loops with the trips they are in. -/
def loopNext (pcIx : Nat) : List LoopFrame → Option Nat × List LoopFrame
  | [] => (none, [])
  | f :: r =>
    if pcIx = f.last then
      if f.trip + 1 < f.trips then (some f.first, { f with trip := f.trip + 1 } :: r) else loopNext pcIx r
    else (none, f :: r)

/-- The queue after its word has issued at cycle t: pointer, open loops, issue base (R139, R332). -/
def Queue.advance (q : Queue) (t : Nat) : Queue :=
  if q.loops.isEmpty then { q with pc := q.pc + 4, base := t + 1, notBefore := 0, progress := t, lookStep := 0 }
  else
    let (j, ls) := loopNext q.bodyIx q.loops
    let pc := match j with
      | some ix => q.lbase + 4 * (ix : Int)
      | none => q.pc + 4
    { q with pc := pc, loops := ls, base := t + 1, notBefore := 0, progress := t, lookStep := 0 }

/-- Sets POS of the nest of each open loop whose trip begins with the word at the issue pointer (R332). -/
def Queue.enter (q : Queue) (n : Vector Nest 6) : Vector Nest 6 :=
  if q.loops.isEmpty then n
  else (q.loops.filter fun f => f.first == q.bodyIx).foldl
    (fun n f => if h : f.nest < 6 then n.set f.nest { n[f.nest] with pos := BitVec.ofNat 16 f.trip } h else n) n

/-- The core as a word of an engine issues: the trips that begin with it have set their POS. -/
def Core.entered (e : Eng) (k : Core) : Core :=
  match e with
  | .axu => { k with axu := { k.axu with n := k.axu.q.enter k.axu.n } }
  | .bke => { k with bke := { k.bke with n := k.bke.q.enter k.bke.n } }
  | _ => k

/-- The queue of a core comes to rest when its issue pointer reaches its course span's end (R129). -/
def Queue.settle (q : Queue) : Queue :=
  if q.st = .running ∧ q.pc = q.spanEnd ∧ q.loops.isEmpty then { q with st := .rest } else q

/-- Advances the queue of engine e of a core past the word at hand. -/
def State.advance (s : State) (c : CoreIx) (e : Eng) : State :=
  s.upd c fun k =>
    let q := (k.queue e).advance s.chron
    match e with
    | .seq => { k with seq := { k.seq with q := q, noTakeAt := none } }
    | e => k.setQueue e q.settle

/-- Puts a word in flight and schedules the events of its beats and its completion (R181). -/
def State.launch (s : State) (c : CoreIx) (w : Inflight) : State :=
  let s := s.upd c fun k => { k with pipe := { k.pipe with infl := k.pipe.infl ++ [w] } }
  let s := (w.beats.foldl (fun s b => s.schedC b.at_ c (.wordRetire c w.id)) s)
  s.schedC w.doneAt c (.wordRetire c w.id)

/-- Accesses of an engine of a core that are not yet performed, for a word that gives (R253). -/
def State.pendingOf (s : State) (c : CoreIx) (e : Eng) : List Nat :=
  ((s.reqs.filter fun r => r.core == c && r.who == e.num).map (·.id)) ++
    (((s.core c).pipe.infl.filter fun w => w.eng == e && (w.access || w.eng == .bke)).map (·.id))

/-- The give of a word at its retirement, `lat` cycles after its issue, after every earlier access of its
engine (R181, R253). -/
def State.giveAt (s : State) (c : CoreIx) (e : Eng) (i : Instr) (pc : Int) (lat : Nat) : State :=
  let (id, s) := s.newId
  s.launch c { id := id, eng := e, instr := i, pc := pc, issued := s.chron, doneAt := s.chron + lat, give := true,
               giveTo := ((s.core c).ctl.seen s.chron).to_ e.num, waits := s.pendingOf c e }

/-- Lets a word that has issued raise deviation 0x41 at a later cycle, with no other effect (R137, R22). -/
def State.deviateAt (s : State) (c : CoreIx) (e : Eng) (i : Instr) (pc : Int) (t : Nat) (handle : Nat := 0xFFFF)
    (nests : Option (Vector Nest 6 × Nat) := none) : State :=
  if t ≤ s.chron then s.coreFault c e.num 0x41 pc 0 handle 0xFF nests
  else
    let (id, s) := s.newId
    s.launch c { id := id, eng := e, instr := i, pc := pc, issued := s.chron, doneAt := t, late := true, handle := handle, nests := nests }

/-- A word that breaks a rule at cycle t: it tries again in the next cycle of a free leg; in a fixed leg it issues and
deviates then (R137, R138). `s` is the state before it, `s2` the state with it issued. -/
def State.lateOr41 (s s2 : State) (c : CoreIx) (e : Eng) (i : Instr) (pc : Int) (t : Nat) : State :=
  if s.fixedLeg c then s2.deviateAt c e i pc t else s.waitOr41 c e

/-- Handles an operand fault of a SEQ word at issue: 0x30 to 0x34 and 0x24 trap a user-mode sequencer of a free
leg, with their record; in a fixed leg 0x30 to 0x33 are deviation 0x41; every other fault is hard (R106, R148,
R152, R169). `s` is the state after the take. -/
def State.seqFault (s : State) (c : CoreIx) (code : Nat) (pc : Int) (took : Bool) (va ia : Nat) (wr at_ : Bool)
    (entry level : Nat := 0) (handle : Nat := 0xFFFF) : State :=
  let k := s.core c
  let fixed := s.fixedLeg c
  let rec_ := decide (0x30 ≤ code) && decide (code ≤ 0x34)
  let s := match s.partOf c with
    | some p => if rec_ then s.fqWrite p code
        { req := 0, core := c.val, wr := wr, at_ := at_, fixed := fixed, va := va, ia := ia, leg := k.ctl.legno.toNat,
          course := k.ctl.course.toNat, handle := handle, entry := entry, level := level } else s
    | none => s
  let full := match s.partOf c with
    | some p => (s.part p).recordHeld c 0
    | none => false
  if (rec_ || code == 0x24) && !fixed && !k.seq.sup then
    if rec_ && full then s.upd c fun x => { x with seq := { x.seq with heldTrap := some (code, pc), hold := some 0, epcTook := took } }
    else s.upd c fun x => { x with seq := x.seq.trap s.chron code pc took }
  else if rec_ && fixed && code != 0x34 then s.coreFault c 0 0x41 pc ia handle
  else s.coreFault c 0 code pc ia handle

/-- A fault of the fill of a handle for an engine of a core: a trap or a hard fault of the SEQ, a record and a hard fault of another
engine, whose number stands in REQ; 0x74 is a machine check of the partition (R37, R106, R189; DESIGN CHOICE for REQ, log 68). -/
def State.fillFault (s : State) (c : CoreIx) (e : Eng) (code : Nat) (pc : Int) (took : Bool) (entry level h : Nat) : State :=
  match s.partOf c with
  | none => s
  | some p =>
    if code = 0x74 then s.partFault p 0x74
    else match e with
      | .seq => s.seqFault c code pc took 0 (64 * h) false false entry level h
      | e =>
        let k := (s.core c).ctl
        (s.fqWrite p code
          { req := e.num, core := c.val, fixed := s.fixedLeg c, ia := 64 * h, leg := k.legno.toNat, course := k.course.toNat, handle := h,
            entry := entry, level := level }).coreFault c e.num code pc (64 * h) h

/-- Whether the fill of a handle is under way in a core. -/
def State.filling (s : State) (c : CoreIx) (h : Nat) : Bool := s.reqs.any fun r => r.core == c && r.dest == .handle h

/-- Sets the fill of a handle going for an engine of a core, unless it is: an access to the object table, answered as any other (R104,
R105, R189). -/
def State.fillStart (s : State) (c : CoreIx) (e : Nat) (h : Nat) (pc : Int) : State :=
  if s.filling c h then s
  else
    let r : Req :=
      { id := s.nextId, who := e, core := c, part := s.partOf c, kind := .read, ia := 64 * h, n := 64, dest := .handle h, handle := h, pc := pc,
        issued := s.chron }
    ({ s with nextId := s.nextId + 1, reqs := s.reqs ++ [r] }).schedC s.chron c (.pageWalk r.id)

/-- The pending statistics trap that a SEQ word issuing now takes: its event was at least 8 cycles ago (R243). -/
def Stats.trapDue (k : Stats) (now : Nat) : Bool := k.trap24.any fun x => decide (x.2 + 8 ≤ now)

/-- Removes the oldest due statistics trap. -/
def Stats.dropTrap (k : Stats) (now : Nat) : Stats :=
  { k with trap24 := match k.trap24.find? (fun x => decide (x.2 + 8 ≤ now)) with
      | some x => k.trap24.erase x
      | none => k.trap24 }

/-- A cycle no run reaches, for a word that waits for ever. -/
def never : Nat := 2 ^ 64

/-- Whether the pending results of a SEQ word's registers allow its issue (R297). -/
def Seq.ready (q : Seq) (now : Nat) (rs : List (Fin 32)) : Bool := rs.all fun r => decide (q.gReady[r] ≤ now)

/-- Whether a body that answers so keeps its word from issuing: a wait, or in a free leg a collision to come (R137, R138). -/
def Verdict.waits (fixed : Bool) : Verdict → Bool
  | .wait | .fill _ => true
  | .late _ => !fixed
  | _ => false

/-- A word that waits: it tries again in the next cycle of a free leg; in a fixed leg it issues, keeps its take and deviates (R137, R138,
R182). `s` is the state before it, `s2` the state with it issued. -/
def State.waitOrKeep (s s2 : State) (c : CoreIx) (e : Eng) (pc : Int) : State :=
  if s.fixedLeg c then s2.coreFault c e.num 0x41 pc else s.waitOr41 c e

/-- Whether a SEQ word takes, and whether its token can be taken now: none from a link token counter in a fixed leg (R181, R185, R424). -/
def State.seqToken (s : State) (c : CoreIx) (t : Bool) : Bool × Bool :=
  let k := s.core c
  let src := (k.ctl.seen s.chron).from_ 0
  (t && k.seq.noTakeAt != some k.seq.q.pc, k.ctl.hasTok 0 src && !(s.fixedLeg c && decide (8 ≤ src)))

/-- The sequencer's word at hand issued with its take, if it takes and can, and the pointer advanced (R181, R182). -/
def State.seqTaken (s : State) (c : CoreIx) (t : Bool) : State :=
  let (tk, ok) := s.seqToken c t
  (if tk && ok then s.take c 0 (((s.core c).ctl.seen s.chron).from_ 0) else s).advance c .seq

/-- The statistics trap at the word at hand, which does not execute (R243). -/
def State.statTrap (s : State) (c : CoreIx) : State :=
  (s.upd c fun x => { x with stat := x.stat.dropTrap s.chron }).seqFault c 0x24 (s.core c).seq.q.pc false 0 0 false false

/-- Issues a SEQ word once its registers and its token allow it (R181, R297): a due statistics trap takes its place if it would issue
(R243); then the mode check (R272), then the body on the state with the take made and the pointer advanced; with G = 1 the give `lat`
cycles later unless the body makes it (`own`). -/
def State.seqIssue (s : State) (i : Instr) (h : Hdr) (regs : List (Fin 32)) (priv own : Bool) (lat : Nat)
    (body : State → Verdict) : State :=
  let c := s.cur
  let k := s.core c
  let pc := k.seq.q.pc
  let fixed := s.fixedLeg c
  let (tk, ok) := s.seqToken c h.t
  let blocked := !k.seq.ready s.chron regs || (tk && !ok)
  let user := priv && !k.seq.sup
  let s2 := s.seqTaken c h.t
  if blocked && !fixed then s.waitOr41 c .seq
  else if k.stat.trapDue s.chron && !blocked && (user || !(body s2).waits fixed) then s.statTrap c
  else if user then s2.coreFault c 0 0x02 pc
  else if blocked then s2.coreFault c 0 0x41 pc
  else
    match body s2 with
    | .ok s3 => if h.g && !own then s3.giveAt c .seq i pc lat else s3
    | .fault code va ia wr at_ _ => s2.seqFault c code pc tk va ia wr at_
    | .fillFault code entry level hx => s2.fillFault c .seq code pc tk entry level hx
    | .fill hx => if fixed then s2.coreFault c 0 0x41 pc else (s.fillStart c 0 hx pc).waitOr41 c .seq
    | .wait => s.waitOrKeep s2 c .seq pc
    | .late t => s.lateOr41 s2 c .seq i pc t

/-- Whether the AXU of a core has accesses generated or to be generated that are not complete. -/
def State.axuBusy (s : State) (c : CoreIx) : Bool :=
  !(s.core c).axu.gen.isEmpty || !(s.core c).axu.stqA.isEmpty || s.reqs.any fun r => r.core == c && r.who == 1

/-- Notes an AXU word that issues with the take and give it has made, for a soft stop (R154). -/
def State.noteAxu (s : State) (c : CoreIx) (took gave : Bool) : State :=
  let keep := s.axuBusy c
  s.upd c fun k => { k with axu := { k.axu with
    hist := (if keep then k.axu.hist else []) ++ [(s.nextId, took, gave)]
    again := k.axu.again.drop 1 } }

/-- Whether an instruction is a sorted-set word, whose registers are written as it runs (R341, R342). -/
def setWord : Instr → Bool
  | .isect .. | .imerge .. | .icnt .. => true
  | _ => false

/-- Whether the AXU of a core may issue: after a resume the faulting access has been performed (R154). -/
def State.axuMay (s : State) (c : CoreIx) : Bool :=
  let a := (s.core c).axu
  match a.gate with
  | none => true
  | some (f, true) => decide (f < a.stqAT) && a.stqA.all fun x => x.slot != f || x.done
  | some (f, false) => decide (f < a.ldqT) && s.reqs.all fun r => !(r.core == c && (match r.dest with
    | .ldq g _ => g == f
    | _ => false))

/-- Issues a word of the AXU, the BKE or the VEC: its take, then the body (R181, R182). A fault of the body
keeps the take and is hard. An AXU word issued again after a soft stop takes only if it had not (R154). -/
def State.engIssue (s : State) (e : Eng) (i : Instr) (h : Hdr) (own : Bool) (lat : Nat) (body : State → Verdict) : State :=
  let c := s.cur
  let k := s.core c
  let pc := (k.queue e).pc
  let src := (k.ctl.seen s.chron).from_ e.num
  let (took, gave) := if e = .axu then k.axu.again.headD (false, false) else (false, false)
  let tk := h.t && !took
  if tk && (!k.ctl.hasTok e.num src || (s.fixedLeg c && decide (8 ≤ src))) then s.waitOr41 c e
  else if e == .axu && !s.axuMay c then s.waitOr41 c e
  else
    let s1 := if tk then s.take c e.num src else s
    let s2 := (s1.upd c (Core.entered e)).advance c e
    let s2 := if e = .axu then s2.noteAxu c h.t gave else s2
    match body s2 with
    | .ok s3 => if h.g && !own then s3.giveAt c e i pc lat else s3
    | .fault code _ ia _ _ handle => s2.coreFault c e.num code pc ia handle
    | .fillFault code entry level hx => s2.fillFault c e code pc tk entry level hx
    | .fill hx => if s.fixedLeg c then s2.coreFault c e.num 0x41 pc else (s.fillStart c e.num hx pc).waitOr41 c e
    | .wait => s.waitOrKeep s2 c e pc
    | .late t => s.lateOr41 s2 c e i pc t

/-! ## General registers (R170, R296, R297) -/

/-- A general register; g0 reads 0. -/
def Seq.gpr (q : Seq) (r : Fin 32) : Word := if r = 0 then 0 else q.g[r]

/-- The taint bit of a general register; g0 is never tainted. -/
def Seq.tnt (q : Seq) (r : Fin 32) : Bool := r != 0 && q.taint.getLsb r

/-- The sequencer with a result written to gd, usable from cycle `usable`; a write to g0 is discarded. -/
def Seq.setG (q : Seq) (d : Fin 32) (v : Word) (t : Bool) (usable : Nat) : Seq :=
  if d = 0 then q
  else { q with
    g := q.g.set d v
    taint := if t then q.taint ||| (1#32 <<< d.val) else q.taint &&& ~~~(1#32 <<< d.val)
    gReady := q.gReady.set d usable }

/-- Writes a result of the word at hand to gd: usable L cycles after its issue (R297). -/
def State.writeG (s : State) (d : Fin 32) (v : Word) (t : Bool) (lat : Nat) : State :=
  s.updSeq fun q => q.setG d v t (s.chron + lat)

/-! ## Statistics (R241 to R243) -/

/-- The statistics with a cycle opened: what its first event or write finds is what VSTAT reads in it (R242, R405). -/
def Stats.open_ (k : Stats) (now : Nat) : Stats :=
  if k.cyc = now then k else { k with cyc := now, cyCnt := Vector.replicate 6 0, cnt0 := k.cnt, ev0 := k.ev }

/-- Counts n events of class i in a core at the current cycle: STCNT saturates, the window count, STEV, and the
action of the threshold (R242, R243). -/
def State.countStat (s : State) (c : CoreIx) (i : Fin 6) (n : Nat) : State :=
  if n = 0 then s
  else
    let k := (s.core c).stat.open_ s.chron
    let w := 2 ^ k.win.toNat
    let fresh := s.chron / w * w
    let wc := if k.start < fresh then 0 else k.wc[i]
    let acted := if k.start < fresh then 0 else k.acted
    let wcv := if k.start < fresh then Vector.replicate 6 0 else k.wc
    let st := if k.start < fresh then fresh else k.start
    let cnt := min (k.cnt[i].toNat + n) 0xFFFFFFFF
    let th := k.th[i]
    let past := decide (fld th.toNat 31 0 < wc + n) && th.getLsb 32 && !acted.getLsb i
    let k1 := { k with cyCnt := k.cyCnt.set i (k.cyCnt[i] + n), cnt := k.cnt.set i (BitVec.ofNat 32 cnt), wc := wcv.set i (wc + n), start := st, acted := acted }
    if past then
      let k2 := { k1 with ev := k1.ev ||| (1 <<< i.val), acted := k1.acted ||| (1 <<< i.val) }
      if th.getLsb 33 then
        let s := s.upd c fun x => { x with stat := k2 }
        match s.partOf c with
        | some p => s.vfInt p 1
        | none => s
      else
        let k3 := if k2.trap24.any (fun x => x.1 == i.val) then k2 else { k2 with trap24 := k2.trap24 ++ [(i.val, s.chron)] }
        s.upd c fun x => { x with stat := k3 }
    else s.upd c fun x => { x with stat := k1 }

/-- Counts a list of per-class event numbers. -/
def State.countStats (s : State) (c : CoreIx) (ns : List Nat) : State :=
  (List.finRange 6).foldl (fun s i => s.countStat c i (ns.getD i.val 0)) s

/-! ## Ring lanes and bank ports (R175, R176) -/

/-- Stop of a scratchpad bank (R175). -/
def bankStop (j : Nat) : Nat := j + j / 4

/-- Bank of a scratchpad offset (R174). -/
def bankOf (off : Nat) : Nat := fld off 22 19

/-- Distance from stop a to stop b on a lane: clockwise for lanes 0 to 7, else anticlockwise (R175). -/
def laneDist (lane a b : Nat) : Nat := if lane < 8 then (b + 20 - a) % 20 else (a + 20 - b) % 20

/-- The claims of n beats, one a cycle, leaving stop a at cycle t for d segments of a lane (R175). -/
def laneClaims (lane a t n d : Nat) : List Claim :=
  (List.range d).map fun i =>
    let seg := if lane < 8 then (a + i) % 20 else (a + 20 * 20 - i) % 20
    { res := 20 * lane + seg, lo := t + i, hi := t + i + n - 1 }

/-- The claim of n reads of a bank's port, one a cycle. -/
def rdClaim (bank t n : Nat) : Claim := { res := 320 + bank, lo := t, hi := t + n - 1 }

/-- The claim of n writes of a bank's port, one a cycle. -/
def wrClaim (bank t n : Nat) : Claim := { res := 336 + bank, lo := t, hi := t + n - 1 }

/-- Whether two claims collide (R176); the CPE's own holds never do (R412). -/
def Claim.hits (x y : Claim) : Bool :=
  x.res == y.res && decide (x.lo ≤ y.hi) && decide (y.lo ≤ x.hi) && !(x.cpe && y.cpe)

/-- Whether new claims are free of collision with those in force. -/
def Pipe.free (k : Pipe) (cs : List Claim) : Bool := cs.all fun x => k.claims.all fun y => !x.hits y

/-- The first cycle at which new claims collide with those in force. -/
def Pipe.hitAt (k : Pipe) (cs : List Claim) : Option Nat :=
  cs.foldl (fun a x => k.claims.foldl (fun (a : Option Nat) y =>
    if x.hits y then (let t := max x.lo y.lo
      match a with
      | none => some t
      | some u => some (min t u)) else a) a) none

/-- The first cycle of an interval in which a unit is occupied (R353). -/
def Pipe.held (k : Pipe) (kind lo hi : Nat) : Option Nat :=
  k.busy.foldl (fun (a : Option Nat) y =>
    if y.kind = kind ∧ y.lo ≤ hi ∧ lo ≤ y.hi then (let t := max lo y.lo
      match a with
      | none => some t
      | some u => some (min t u)) else a) none

/-- Whether a unit is occupied at a cycle or is still to be (R353, R354). -/
def Pipe.until_ (k : Pipe) (kind t : Nat) : Bool := k.busy.any fun y => y.kind == kind && decide (t ≤ y.hi)

/-- A unit occupied over an interval; intervals of the past are dropped. -/
def Pipe.occupy (k : Pipe) (now : Nat) (bs : List Busy) : Pipe :=
  { k with busy := (k.busy.filter fun x => decide (now ≤ x.hi)) ++ bs }

/-- The claims in force with new ones added and those of the past dropped. -/
def Pipe.claim (k : Pipe) (now : Nat) (cs : List Claim) : Pipe :=
  { k with claims := (k.claims.filter fun x => decide (now ≤ x.hi)) ++ cs }

/-- In a fixed leg, what drives a segment or uses a port a second time deviates in the cycle that happens (R137, R176). -/
def State.clash (s : State) (c : CoreIx) (e : Eng) (i : Instr) (pc : Int) (cs : List Claim) (handle : Nat := 0xFFFF)
    (nests : Option (Vector Nest 6 × Nat) := none) : State :=
  if s.fixedLeg c then (match (s.core c).pipe.hitAt cs with
    | some u => s.deviateAt c e i pc u handle nests
    | none => s) else s

/-- Occupies units of a core. -/
def State.occupy (s : State) (c : CoreIx) (bs : List Busy) : State :=
  s.upd c fun k => { k with pipe := k.pipe.occupy s.chron bs }

/-- Adds claims to a core. -/
def State.claim (s : State) (c : CoreIx) (cs : List Claim) : State :=
  s.upd c fun k => { k with pipe := k.pipe.claim s.chron cs }

end Sys2Proof.Machine
end

