-- ==== Sys2Proof/Machine/Logbook.lean ====
section
/-! DEFINITION. The Logbook: records of the inputs that cross into a partition, and their reading in replay (R145 to
R147). -/

namespace Sys2Proof.Machine

/-- Bytes of the ring in force: 2^(20 + LBSZ) (R145). -/
def Logbook.ring (l : Logbook) : Nat := 2 ^ (20 + l.size)

/-- The 32-byte header of a record (R146). -/
def recordHeader (kind eng plen core seqn epoch tkseq arg cycle : Nat) : List Byte :=
  toBytes 8 (putF 0 4 kind + putF 4 4 eng + putF 8 13 plen + putF 21 9 core + putF 32 32 seqn)
    ++ toBytes 8 (putF 0 32 epoch + putF 32 32 tkseq) ++ toBytes 8 arg ++ toBytes 8 cycle

/-- A payload padded with zeros to a multiple of 32 bytes. -/
def padded (bs : List Byte) : List Byte := bs ++ List.replicate (roundUp bs.length 32 - bs.length) 0

/-- Writes a record of an enabled class to the ring; a full ring drops it and sets LOST, or raises 0x48 (R145, R146).
`cls` is the bit of CLASS, `slot` that of the context it belongs to if it is not the one that stamps inputs. -/
def State.logRecord (s : State) (p : PartIx) (cls kind eng core arg : Nat) (payload : List Byte) (slot : Option (Fin 8) := none) : State :=
  let l := (s.part p).lb
  let j := slot.getD (s.part p).stampSlot
  let x := (s.part p).slots[j]
  if ¬ l.act ∨ l.replay ∨ ¬ l.cls.getLsbD cls then s
  else
    let size := l.ring
    let tail := l.tail.toNat
    let body := recordHeader kind eng payload.length core x.seqn x.epoch.toNat x.tkseq arg s.chron ++ padded payload
    let gap := size - tail % size
    let fill := if body.length ≤ gap then 0 else gap
    if size < tail + fill + body.length - l.head.toNat then
      if l.pol then s.partFault p 0x48
      else s.updPart p fun q => { q with lb := { q.lb with lost := true } }
    else
      let s := if fill = 0 then s
        else s.paWrite (l.abase + tail % size) (recordHeader 0 0 (fill - 32) 0x1FF 0 0 0 0 0 ++ List.replicate (fill - 32) 0)
      let s := s.paWrite (l.abase + (tail + fill) % size) body
      s.updPart p fun q =>
        { q.updSlot j (fun y => { y with seqn := y.seqn + 1 }) with lb := { q.lb with tail := BitVec.ofNat 64 (tail + fill + body.length) } }

/-- A record read back from the ring: its byte count, its length, its fields and its payload. -/
structure LogRec where
  at_ : Nat
  len : Nat
  kind : Nat
  eng : Nat
  core : Nat
  epoch : Nat
  tkseq : Nat
  arg : Nat
  payload : List Byte
  deriving DecidableEq, Repr

/-- The record at a byte count of the ring in force (R146). -/
def State.recordAt (s : State) (l : Logbook) (n : Nat) : LogRec :=
  let a := l.abase + n % l.ring
  let w0 := readNat s.memory a 8
  let w1 := readNat s.memory (a + 8) 8
  let plen := fld w0 20 8
  { at_ := n, len := 32 + roundUp plen 32, kind := fld w0 3 0, eng := fld w0 7 4, core := fld w0 29 21,
    epoch := fld w1 31 0, tkseq := fld w1 63 32, arg := readNat s.memory (a + 16) 8, payload := readBytes s.memory (a + 32) plen }

/-- The first record from a byte count on that is not consumed and meets a condition. -/
def State.findRecord (s : State) (l : Logbook) (f : LogRec → Bool) : Nat → Nat → Option LogRec
  | 0, _ => none
  | fuel + 1, n =>
    if l.tail.toNat ≤ n then none
    else
      let r := s.recordAt l n
      if r.kind != 0 && !l.used.contains n && f r then some r else s.findRecord l f fuel (n + r.len)

/-- The next record of a partition in replay that meets a condition (R147). -/
def State.nextRecord (s : State) (p : PartIx) (f : LogRec → Bool) : Option LogRec :=
  let l := (s.part p).lb
  s.findRecord l f (l.ring / 32) l.head.toNat

/-- LBHEAD past the consumed and the pad records at it, with the rest of the consumed ones. -/
def State.headPast (s : State) (l : Logbook) : Nat → Nat → Nat
  | 0, n => n
  | fuel + 1, n =>
    if l.tail.toNat ≤ n then n
    else
      let r := s.recordAt l n
      if r.kind = 0 ∨ l.used.contains n then s.headPast l fuel (n + r.len) else n

/-- Consumes a record: LBHEAD advances over what is consumed (R147). -/
def State.consumeRecord (s : State) (p : PartIx) (r : LogRec) : State :=
  let l := { (s.part p).lb with used := r.at_ :: (s.part p).lb.used }
  let h := s.headPast l (l.ring / 32) l.head.toNat
  s.updPart p fun q => { q with lb := { l with head := BitVec.ofNat 64 h, used := l.used.filter fun n => decide (h ≤ n) } }

/-- Whether a partition is in replay (R147). -/
def State.replaying (s : State) (p : PartIx) : Bool := (s.part p).lb.act && (s.part p).lb.replay

/-- The data a read of an engine gets in replay: the next record of its requester, or fault 0x49 when it is missing or
names another address (R147). `kind` is 6 for host and 7 for peer reads. -/
def State.replayRead (s : State) (p : PartIx) (kind eng core ia : Nat) : Except Unit (List Byte × State) :=
  match s.nextRecord p fun r => r.kind == kind && r.eng == eng && r.core == core with
  | none => .error ()
  | some r => if r.arg = ia then .ok (r.payload, s.consumeRecord p r) else .error ()

/-- Latches LBCTL, LBBASE and the byte counts at a launch into a slot (R145). -/
def Logbook.latch (l : Logbook) (j : Fin 8) : Logbook :=
  let c := l.ctl.toNat
  { l with
    act := bitAt c 0
    replay := bitAt c 0 && bitAt c 1
    pol := bitAt c 2
    cls := BitVec.ofNat 7 (fld c 14 8)
    size := fld c 19 16
    abase := fld l.base.toNat 55 20 * 2 ^ 20
    head := l.wHead.getD l.head
    tail := l.wTail.getD l.tail
    wHead := none
    wTail := none
    used := []
    slot := j }

end Sys2Proof.Machine
end

