-- ==== Sys2Proof/Machine/Numbers.lean ====
section
/-! DEFINITION. Number formats, values, rounding, conversion, exact lanes and cells, quantisation and the
stochastic draw (R219 to R238). Formats are named by the FMT codes of R177. -/

namespace Sys2Proof.Machine

/-- Width in bits of an element of a format as stored (R177). -/
def fmtW (f : Nat) : Nat :=
  match f with
  | 3 | 8 | 9 => 16
  | 4 | 7 => 32
  | 5 => 64
  | 6 | 14 => 4
  | _ => 8

/-- A floating-point format (R220): exponent and mantissa widths, bias, largest finite magnitude code, and
whether it has infinities and NaN codes. -/
structure FloatFmt where
  eb : Nat
  mb : Nat
  bias : Nat
  maxCode : Nat
  inf : Bool
  nan : Bool
  deriving DecidableEq, Repr

/-- The floating-point formats by FMT code (R177, R220). -/
def floatFmt : Nat → Option FloatFmt
  | 7 => some ⟨8, 23, 127, 0x7F7FFFFF, true, true⟩
  | 8 => some ⟨8, 7, 127, 0x7F7F, true, true⟩
  | 9 => some ⟨5, 10, 15, 0x7BFF, true, true⟩
  | 10 => some ⟨4, 3, 7, 0x7E, false, true⟩
  | 11 => some ⟨5, 2, 15, 0x7B, true, true⟩
  | 12 => some ⟨2, 3, 1, 0x1F, false, false⟩
  | 13 => some ⟨3, 2, 3, 0x1F, false, false⟩
  | 14 => some ⟨2, 1, 1, 0x07, false, false⟩
  | _ => none

/-- The integer formats: width and whether they are signed (R219). -/
def intFmt : Nat → Option (Nat × Bool)
  | 1 => some (8, true)
  | 2 => some (8, false)
  | 3 => some (16, true)
  | 4 => some (32, true)
  | 5 => some (64, true)
  | 6 => some (4, true)
  | _ => none

/-- A value: NaN, an infinity, or the dyadic (−1)^neg × m × 2^e (R221). -/
inductive Val where
  | nan
  | inf (neg : Bool)
  | fin (neg : Bool) (m : Nat) (e : Int)
  deriving DecidableEq, Repr

/-- The sign of a value; NaN counts as positive. -/
def Val.sign : Val → Bool
  | .nan => false
  | .inf n => n
  | .fin n _ _ => n

/-- Whether a value is a finite zero. -/
def Val.isZero : Val → Bool
  | .fin _ 0 _ => true
  | _ => false

/-- The negated value. -/
def Val.neg : Val → Val
  | .nan => .nan
  | .inf n => .inf (!n)
  | .fin n m e => .fin (!n) m e

/-- value(x, f) of a floating-point code (R221). -/
def floatVal (f : FloatFmt) (x : Nat) : Val :=
  let s := bitAt x (f.eb + f.mb)
  let e := fld x (f.eb + f.mb - 1) f.mb
  let m := fld x (f.mb - 1) 0
  let top := 2 ^ f.eb - 1
  if e = 0 then .fin s m (1 - (f.bias : Int) - f.mb)
  else if f.inf ∧ e = top then (if m = 0 then .inf s else .nan)
  else if f.nan ∧ ¬ f.inf ∧ e = top ∧ m = 2 ^ f.mb - 1 then .nan
  else .fin s (2 ^ f.mb + m) ((e : Int) - f.bias - f.mb)

/-- The value of an integer. -/
def intVal (x : Int) : Val := .fin (decide (x < 0)) x.natAbs 0

/-- value of a code of any format of R177 but RAW (R219, R221, R222). -/
def value (f x : Nat) : Val :=
  match floatFmt f, intFmt f with
  | some g, _ => floatVal g x
  | none, some (w, sgn) => intVal (if sgn then sintN w x else ((x % 2 ^ w : Nat) : Int))
  | none, none => if x % 256 = 255 then .nan else .fin false 1 ((x % 256 : Nat) - 127)

/-- A rounded code, the statistic class it counts in (R241), and whether it compared a stochastic draw (R227). -/
structure Rounded where
  code : Nat
  cls : Option Nat := none
  sr : Bool := false
  deriving DecidableEq, Repr

/-- The statistics of a rounded element as event numbers of the six classes. -/
def Rounded.stats (r : Rounded) : List Nat :=
  (List.range 6).map fun i => ofBool (r.cls == some i) + ofBool (r.sr && i == 5)

/-- Sum of event numbers per class. -/
def addStats (a b : List Nat) : List Nat := List.zipWith (· + ·) a b

/-- No events. -/
def noStats : List Nat := [0, 0, 0, 0, 0, 0]

/-- NaN result of a format (R221, R229). -/
def nanResult (f : Nat) : Rounded :=
  match floatFmt f with
  | some g =>
    if g.inf then { code := 2 ^ (g.mb + g.eb) - 2 ^ (g.mb - 1) }
    else if g.nan then { code := 0x7F }
    else { code := 0, cls := some 2 }
  | none => if f = 15 then { code := 0xFF } else { code := 0, cls := some 2 }

/-- Code of the sign bit of a format. -/
def signCode (g : FloatFmt) (neg : Bool) : Nat := ofBool neg * 2 ^ (g.eb + g.mb)

/-- Least and greatest value of an integer format. -/
def intRange (w : Nat) (sgn : Bool) : Int × Int :=
  if sgn then (-(2 ^ (w - 1) : Nat), ((2 ^ (w - 1) - 1 : Nat) : Int)) else (0, ((2 ^ w - 1 : Nat) : Int))

/-- Result of a format from an infinity (R229). -/
def infResult (f : Nat) (neg : Bool) : Rounded :=
  match floatFmt f, intFmt f with
  | some g, _ =>
    if g.inf then { code := signCode g neg + (2 ^ g.eb - 1) * 2 ^ g.mb }
    else if g.nan then { code := 0x7F + ofBool neg * 0x80, cls := some 1 }
    else { code := signCode g neg + g.maxCode, cls := some 2 }
  | none, some (w, sgn) =>
    let r := intRange w sgn
    { code := lowInt (if neg then r.1 else r.2) w, cls := some 2 }
  | none, none => if neg then { code := 0xFF, cls := some 0 } else { code := 0xFE, cls := some 2 }

/-- Overflow result of a floating-point format (R225). Modes: 0 RNE, 1 RTZ, 2 RUP, 3 RDN, 4 RNA, 5 SR. -/
def overflow (g : FloatFmt) (mode : Nat) (neg : Bool) : Rounded :=
  if g.inf then
    let toInf := match mode with
      | 1 => false
      | 2 => !neg
      | 3 => neg
      | _ => true
    { code := signCode g neg + (if toInf then (2 ^ g.eb - 1) * 2 ^ g.mb else g.maxCode), cls := some 1 }
  else if g.nan then { code := 0x7F + ofBool neg * 0x80, cls := some 1 }
  else { code := signCode g neg + g.maxCode, cls := some 2 }

/-- Whether a magnitude lo + rem / 2^sh (plus a sticky remainder) steps up to lo + 1 under a mode (R224). -/
def stepsUp (mode draw : Nat) (neg : Bool) (lo rem sh : Nat) (sticky : Bool) : Bool :=
  let half := 2 ^ sh / 2
  let above := decide (half < rem) || (rem == half && sh != 0 && sticky)
  let tie := rem == half && sh != 0 && !sticky
  match mode with
  | 0 => above || (tie && lo % 2 == 1)
  | 4 => above || tie
  | 1 => false
  | 2 => !neg
  | 3 => neg
  | _ => decide (draw < rem * 2 ^ 32 / 2 ^ sh)

/-- round of the real ±(m + ε) × 2^e, with 0 ≤ ε < 1 and ε ≠ 0 exactly when `sticky`, to a floating-point
format (R224, R225). A sticky magnitude must have its lowest bit below the grid. -/
def roundFloat (g : FloatFmt) (mode draw : Nat) (neg : Bool) (m : Nat) (e : Int) (sticky : Bool) : Rounded :=
  if m = 0 ∧ ¬ sticky then { code := signCode g neg }
  else
    let emin : Int := 1 - (g.bias : Int)
    let ex : Int := max ((Nat.log2 m : Int) + e) emin
    let q : Int := ex - g.mb
    let sh : Nat := (q - e).toNat
    let lo := if e ≤ q then m / 2 ^ sh else m * 2 ^ (e - q).toNat
    let rem := if e ≤ q then m % 2 ^ sh else 0
    let exact := rem == 0 && !sticky
    let k := if exact then lo else if stepsUp mode draw neg lo rem sh sticky then lo + 1 else lo
    let biased : Int := q + g.mb + g.bias
    let mag : Nat :=
      if k < 2 ^ g.mb then k
      else if k < 2 ^ (g.mb + 1) then biased.toNat * 2 ^ g.mb + (k - 2 ^ g.mb)
      else (biased.toNat + 1) * 2 ^ g.mb
    let sr := mode == 5 && !exact
    if g.maxCode < mag then { overflow g mode neg with sr := sr } else { code := signCode g neg + mag, sr := sr }

/-- round to an integer format: grid step 1, saturating (R224, R225). -/
def roundInt (w : Nat) (sgn : Bool) (mode draw : Nat) (neg : Bool) (m : Nat) (e : Int) (sticky : Bool) : Rounded :=
  let sh : Nat := (-e).toNat
  let lo := if e ≤ 0 then m / 2 ^ sh else m * 2 ^ e.toNat
  let rem := if e ≤ 0 then m % 2 ^ sh else 0
  let exact := rem == 0 && !sticky
  let k := if exact then lo else if stepsUp mode draw neg lo rem sh sticky then lo + 1 else lo
  let v : Int := if neg then -(k : Int) else k
  let r := intRange w sgn
  let sr := mode == 5 && !exact
  if v < r.1 then { code := lowInt r.1 w, cls := some 2, sr := sr }
  else if r.2 < v then { code := lowInt r.2 w, cls := some 2, sr := sr }
  else { code := lowInt v w, sr := sr }

/-- Conversion onto the powers of two of E8M0 (R231). -/
def roundE8M0 (mode : Nat) (neg : Bool) (m : Nat) (e : Int) : Rounded :=
  if neg ∨ m = 0 then { code := 0xFF, cls := some 0 }
  else
    let l := Nat.log2 m
    let k : Int := (l : Int) + e
    let up := match mode with
      | 1 | 3 => false
      | 2 => m != 2 ^ l
      | _ => decide (3 * 2 ^ l ≤ 2 * m)
    let r := if up then k + 1 else k
    if 127 < r then { code := 0xFE, cls := some 2 }
    else if r < -127 then { code := 0x00, cls := some 2 }
    else { code := (r + 127).toNat }

/-- round(v, f, m) of a finite real with sign to any format of R177 but RAW (R224, R231). -/
def roundTo (f mode draw : Nat) (neg : Bool) (m : Nat) (e : Int) (sticky : Bool := false) : Rounded :=
  match floatFmt f, intFmt f with
  | some g, _ => roundFloat g mode draw neg m e sticky
  | none, some (w, sgn) => roundInt w sgn mode draw neg m e sticky
  | none, none => roundE8M0 mode neg m e

/-- The code of a value in a format under a mode: NaN and infinities by R229, a finite value rounded. -/
def ofVal (f mode draw : Nat) : Val → Rounded
  | .nan => nanResult f
  | .inf n => infResult f n
  | .fin n m e => roundTo f mode draw n m e

/-- convert(x, Fs, Fd, m) (R229 to R231). -/
def convert (fs fd mode draw x : Nat) : Rounded := ofVal fd mode draw (value fs x)

/-- One mixing round of the stochastic draw (R227). -/
def mix (z : BitVec 64) : BitVec 64 :=
  let z := z ^^^ (z >>> 31)
  let z := z * 0x8F5C2A39D1E4B76B
  let z := z ^^^ (z >>> 29)
  let z := z * 0x5B3CE6A10F9724CD
  z ^^^ (z >>> 32)

/-- draw(h, x, n): the 32-bit draw of stochastic rounding (R227). -/
def drawOf (h x n : Nat) : Nat :=
  let z := mix (BitVec.ofNat 64 (x % 2 ^ 48) ^^^ BitVec.ofNat 64 (n % 2 ^ 16 * 2 ^ 48))
  fld (mix (z ^^^ BitVec.ofNat 64 (h % 2 ^ 16))).toNat 63 32

/-! ## Exact dyadic arithmetic -/

/-- A dyadic number n × 2^e. -/
structure Dy where
  n : Int
  e : Int
  deriving DecidableEq, Repr

/-- Numerator of a dyadic at a lower exponent. -/
def Dy.at_ (x : Dy) (e : Int) : Int := x.n * ((2 ^ (x.e - e).toNat : Nat) : Int)

/-- Exact sum. -/
def Dy.add (x y : Dy) : Dy := let e := min x.e y.e; ⟨x.at_ e + y.at_ e, e⟩

/-- Exact product. -/
def Dy.mul (x y : Dy) : Dy := ⟨x.n * y.n, x.e + y.e⟩

/-- Whether x < y. -/
def Dy.lt (x y : Dy) : Bool := let e := min x.e y.e; decide (x.at_ e < y.at_ e)

/-- The dyadic of a finite value; 0 otherwise. -/
def Val.dy : Val → Dy
  | .fin n m e => ⟨if n then -(m : Int) else m, e⟩
  | _ => ⟨0, 0⟩

/-- The value of a dyadic; a zero takes the sign given. -/
def Dy.val (x : Dy) (zeroNeg : Bool) : Val :=
  if x.n = 0 then .fin zeroNeg 0 0 else .fin (decide (x.n < 0)) x.n.natAbs x.e

/-! ## Exact lanes and cells (R232 to R236) -/

/-- The carry guard's bound on VALUE: the lane's value 2^318 in units of 2^−320 (R232, R233; DEDUCED, log 10). -/
def carryGuard : Nat := 2 ^ 638

/-- The integer a term adds to VALUE: the term times 2^320, truncated toward zero (R232). -/
def termInt (neg : Bool) (m : Nat) (e : Int) : Int :=
  let k : Nat := if 0 ≤ e + 320 then m * 2 ^ (e + 320).toNat else m / 2 ^ (-(e + 320)).toNat
  if neg then -(k : Int) else k

/-- Applies one term to a lane; none is the carry guard 0x23, which leaves the lane as it was (R232, R233). -/
def Lane.apply (l : Lane) : Val → Option Lane
  | .nan => some { l with nan := true }
  | .inf neg =>
    let l := if neg then { l with ninf := true } else { l with pinf := true }
    some { l with inv := l.inv || (l.pinf && l.ninf) }
  | .fin neg m e =>
    let w := l.value.toInt + termInt neg m e
    if carryGuard ≤ w.natAbs then none else some { l with value := BitVec.ofInt 640 w }

/-- Applies a list of terms in order; none is the carry guard. -/
def Lane.applyAll (l : Lane) : List Val → Option Lane
  | [] => some l
  | v :: vs => match l.apply v with
    | some l' => l'.applyAll vs
    | none => none

/-- Reads a lane into a format under a mode (R234). -/
def Lane.read (l : Lane) (f mode draw : Nat) : Rounded :=
  if l.nan ∨ l.inv then
    let r := nanResult f
    { r with cls := if l.nan then r.cls else some 0 }
  else if l.pinf then infResult f false
  else if l.ninf then infResult f true
  else
    let v := l.value.toInt
    roundTo f mode draw (decide (v < 0)) v.natAbs (-320)

/-- FLAGS of a lane image (R235). -/
def Lane.flags (l : Lane) : Nat := ofBool l.nan + 2 * ofBool l.pinf + 4 * ofBool l.ninf + 8 * ofBool l.inv

/-- A lane from VALUE and FLAGS. -/
def Lane.ofParts (value flags : Nat) : Lane :=
  { value := BitVec.ofNat 640 value, nan := bitAt flags 0, pinf := bitAt flags 1, ninf := bitAt flags 2, inv := bitAt flags 3 }

/-- The image of a lane (R235). -/
def Lane.image (l : Lane) (j bank : Nat) : List Byte :=
  toBytes 80 l.value.toNat ++ toBytes 1 l.flags ++ toBytes 3 0 ++ toBytes 1 j ++ toBytes 1 bank ++ toBytes 1 0x5A ++ toBytes 9 0

/-- The rules on VALUE and FLAGS that an image and a cell share (R235, R236). -/
def lanePartsOk (value flags : Nat) : Bool :=
  decide ((BitVec.ofNat 640 value).toInt.natAbs < carryGuard) && decide (flags < 16)
    && (!bitAt flags 3 || (bitAt flags 1 && bitAt flags 2))

/-- The lane of an image, unless it is malformed (R235). -/
def Lane.ofImage (b : List Byte) : Option Lane :=
  let v := ofBytes (b.take 80)
  let fl := ofBytes ((b.drop 80).take 1)
  let z1 := ofBytes ((b.drop 81).take 3)
  let bank := ofBytes ((b.drop 85).take 1)
  let form := ofBytes ((b.drop 86).take 1)
  let z2 := ofBytes ((b.drop 87).take 9)
  if form = 0x5A ∧ bank ≤ 1 ∧ z1 = 0 ∧ z2 = 0 ∧ lanePartsOk v fl then some (Lane.ofParts v fl) else none

/-- The lane and ADDS of an exact cell, unless it is malformed (R236). -/
def cellOf (b : List Byte) : Option (Lane × Nat) :=
  let v := ofBytes (b.take 80)
  let fl := ofBytes ((b.drop 80).take 1)
  let z1 := ofBytes ((b.drop 81).take 7)
  let adds := ofBytes ((b.drop 88).take 8)
  let z2 := ofBytes ((b.drop 96).take 32)
  if z1 = 0 ∧ z2 = 0 ∧ lanePartsOk v fl then some (Lane.ofParts v fl, adds) else none

/-- The bytes of an exact cell (R236). -/
def cellBytes (l : Lane) (adds : Nat) : List Byte :=
  toBytes 80 l.value.toNat ++ toBytes 1 l.flags ++ toBytes 7 0 ++ toBytes 8 adds ++ toBytes 32 0

/-- FADDX on a cell: its new bytes, or the fault 0x16 of a malformed cell or 0x23 of the carry guard (R312). -/
def faddCell (b : List Byte) (t : Val) : Except Nat (List Byte) :=
  match cellOf b with
  | none => .error 0x16
  | some (l, adds) => match l.apply t with
    | none => .error 0x23
    | some l' => .ok (cellBytes l' (adds + 1))

/-- The format codes of the `.f32`, `.bf16`, `.f16` suffixes (R312, R383). -/
def xfFmt (x : Nat) : Nat := 7 + x

/-! ## Flush, quantisation -/

/-- Whether a code of FP32, BF16 or FP16 is subnormal. -/
def isSubnormal (f x : Nat) : Bool :=
  match floatFmt f with
  | some g => (f == 7 || f == 8 || f == 9) && fld x (g.eb + g.mb - 1) g.mb == 0 && fld x (g.mb - 1) 0 != 0
  | none => false

/-- A code after the flush of FTZ: a subnormal of FP32, BF16 or FP16 becomes a zero of its sign (R228). -/
def flush (ftz : Bool) (f x : Nat) : Nat :=
  if ftz && isSubnormal f x then (match floatFmt f with
    | some g => signCode g (bitAt x (g.eb + g.mb))
    | none => x) else x

/-- emax(f) of a quantised format (R238). -/
def qEmax : Nat → Int
  | 1 => 6 | 6 => 2 | 10 => 8 | 11 => 15 | 12 => 2 | 13 => 4 | _ => 2

/-- The formats of R238. -/
def isQFmt (f : Nat) : Bool := f == 1 || f == 6 || f == 10 || f == 11 || f == 12 || f == 13 || f == 14

/-- rs of R238: R224 with overflow to ±max; the sign of the source decides the zero. -/
def roundSat (f mode draw : Nat) (neg : Bool) (m : Nat) (e : Int) : Rounded :=
  let r := roundTo f mode draw neg m e
  match floatFmt f with
  | some g => if r.cls.isSome then { code := signCode g neg + g.maxCode, cls := some 2, sr := r.sr } else r
  | none => r

/-- floor(log2) of a positive dyadic magnitude. -/
def log2Dy (m : Nat) (e : Int) : Int := (Nat.log2 m : Int) + e

/-- A quantised block: the E8M0 scale, the element codes, and the events (R238). -/
structure QBlock where
  scale : Nat
  codes : List Nat
  stats : List Nat
  deriving DecidableEq, Repr

/-- The elements and the squared error of one candidate exponent (R238). -/
def qTry (f mode : Nat) (xs : List (Bool × Nat × Int)) (draws : List Nat) (s : Int) : List Rounded × Dy :=
  let cs := List.zipWith (fun x d => roundSat f mode d x.1 x.2.1 (x.2.2 - s)) xs draws
  let err := (List.zip xs cs).foldl (fun acc p =>
    let v := (value f p.2.code).dy
    let d := Dy.add ⟨v.n, v.e + s⟩ ⟨if p.1.1 then (p.1.2.1 : Int) else -(p.1.2.1 : Int), p.1.2.2⟩
    Dy.add acc (Dy.mul d d)) (⟨0, 0⟩ : Dy)
  (cs, err)

/-- −127 … 127 clamp of a scale exponent. -/
def clampExp (x : Int) : Int := max (-127) (min 127 x)

/-- Quantises one block (R238). `draws` are the stochastic draws of its elements. -/
def quantise (f mode : Nat) (xs : List Val) (draws : List Nat) : QBlock :=
  let bad := xs.any fun v => match v with
    | .fin _ _ _ => false
    | _ => true
  if bad then { scale := 0xFF, codes := xs.map fun _ => 0, stats := [1, 0, 0, 0, 0, 0] }
  else
    let fs : List (Bool × Nat × Int) := xs.map fun v => match v with
      | .fin n m e => (n, m, e)
      | _ => (false, 0, 0)
    let nz := fs.filter fun x => x.2.1 != 0
    match nz with
    | [] => { scale := 0x7F, codes := xs.map fun _ => 0, stats := [0, 0, 0, 0, 1, 0] }
    | y :: ys =>
      let top := ys.foldl (fun a x => max a (log2Dy x.2.1 x.2.2)) (log2Dy y.2.1 y.2.2)
      let e0 := top - qEmax f
      let c := [clampExp (e0 - 1), clampExp e0, clampExp (e0 + 1)].eraseDups
      match c with
      | [] => { scale := 0x7F, codes := [], stats := noStats }
      | s0 :: rest =>
        let t0 := qTry f mode fs draws s0
        let best := rest.foldl (fun (b : Int × List Rounded × Dy) s =>
          let t := qTry f mode fs draws s
          if b.2.2.lt t.2 then b else (s, t)) (s0, t0)
        { scale := (best.1 + 127).toNat, codes := best.2.1.map (·.code),
          stats := best.2.1.foldl (fun a r => addStats a r.stats) noStats }

/-- round(value × 2^(scale − 127)) of a scaled element: VDQ, DEQUANT (R396, R409). -/
def dequant (qf f mode draw x scale : Nat) : Rounded :=
  if scale = 0xFF then nanResult f
  else match value qf x with
    | .fin n m e => roundTo f mode draw n m (e + scale - 127)
    | v => ofVal f mode draw v

end Sys2Proof.Machine
end

