-- ==== Sys2Proof/Machine/Access.lean ====
section
/-! DEFINITION. Memory accesses: range registers (R97), regions (R94), page walks (R101 to R103), the
performance of an access, its response (R104 to R106), and the handle cache (R186 to R190). -/

namespace Sys2Proof.Machine

/-- The kind of right an access needs (R97, R103). -/
inductive Right where
  | read | write | atomic
  deriving DecidableEq, Repr

/-! ## Range registers -/

/-- The lowest valid range register that covers a virtual address (R97). -/
def findRange (rs : Vector Range 16) (va : Nat) : Option Range :=
  rs.toList.find? fun r => r.v && decide (r.base.toNat ≤ va / 65536) && decide (va / 65536 ≤ r.limit.toNat)

/-- Translation of an access of n bytes at a virtual address to an intermediate address (R97). -/
def translate (rs : Vector Range 16) (user : Bool) (va n : Nat) (k : Right) : Except Nat Nat :=
  match findRange rs va with
  | none => .error 0x30
  | some r =>
    if r.limit.toNat * 65536 + 65535 < va + n - 1 then .error 0x30
    else if user ∧ ¬ r.u then .error 0x32
    else if k = .read ∧ ¬ r.r then .error 0x32
    else if k = .write ∧ ¬ r.w then .error 0x32
    else if k = .atomic ∧ ¬ (r.a ∧ r.r ∧ r.w) then .error 0x32
    else
      let ia := (va + r.off.toNat * 65536) % 2 ^ 56
      if ia / 2 ^ 52 ≠ (ia + n - 1) % 2 ^ 56 / 2 ^ 52 then .error 0x30 else .ok ia

/-- The checks of the region of an intermediate address at the issuer (R94, R121). The scratchpad of a fenced core, cut off from the ring
and the fabric, answers no one: 0x31 (R144; DESIGN CHOICE, log 69). -/
def State.issuerCheck (s : State) (p : Option PartIx) (ia : Nat) : Option Nat :=
  match ia / 2 ^ 52 with
  | 0 => none
  | 1 => none
  | 2 =>
    let l := fld ia 51 46
    if h : l < 48 then (match p with
      | some q => if s.fab.links[l].parts.getLsb q then none else some 0x32
      | none => some 0x32) else some 0x32
  | 3 =>
    if fld ia 51 32 ≠ 0 then some 0x31
    else if h : fld ia 31 23 < 288 then
      (if p.isNone ∨ s.partOf ⟨fld ia 31 23, h⟩ ≠ p then some 0x32
      else if (s.core ⟨fld ia 31 23, h⟩).killed then some 0x31 else none)
    else some 0x32
  | _ => some 0x31

/-- Whether an intermediate address names the scratchpad of a given core (R94, R298). -/
def isOwnSpad (c : CoreIx) (ia : Nat) : Bool := ia / 2 ^ 52 == 3 && fld ia 51 32 == 0 && fld ia 31 23 == c.val

/-! ## Page walks -/

/-- What a walk answers (R103): a memory key, a host bus address, a refusal with its hint and, for a compressed
page, whether a promotion is queued, or a fault with the last entry read and its level. -/
inductive Walk where
  | mem (key : Nat)
  | host (addr : Nat)
  | refuse (hint : Nat) (promote : Option (Nat × Bool))
  | fault (code entry level : Nat)
  deriving DecidableEq, Repr

/-- Whether n bytes from a physical address on meet a doubleword of the LPDDR6 tier that can no longer be read (R119). -/
def State.lostAt (s : State) (pa n : Nat) : Bool := s.ms.lost.any fun x => decide (x / 8 * 8 < pa + n) && decide (pa < x / 8 * 8 + 8)

/-- Whether a table may lie at a physical address: none, or the fault (R101). -/
def State.tableAt (s : State) (pa : Nat) : Option Nat :=
  match s.paKind pa with
  | .pool | .lpddr => none
  | .failed => some 0x74
  | .nothing => some 0x31

/-- A 64-bit table entry in memory. -/
def State.entryAt (s : State) (pa : Nat) : Nat := readNat s.memory pa 8

/-- LOC of a leaf (R102). -/
def leafLoc (e : Nat) : Nat := fld e 3 2

/-- ADDR of a leaf as an address (R102). -/
def leafAddr (e : Nat) : Nat := match leafLoc e with
  | 2 => fld e 55 10 * 2 ^ 10
  | 3 => fld e 63 16 * 2 ^ 16
  | _ => fld e 55 16 * 2 ^ 16

/-- Whether the bits of a leaf that R102 requires to be 0 are 0; `big` says it is a 2 MiB leaf. -/
def leafOk (e : Nat) (big : Bool) : Bool :=
  fld e 9 9 == 0 && (match leafLoc e with
    | 2 => fld e 63 56 == 0
    | 3 => fld e 15 10 == 0 && (!big || fld e 20 16 == 0)
    | _ => fld e 15 10 == 0 && fld e 63 56 == 0 && (!big || fld e 20 16 == 0))

/-- Whether the bits of a pointer that R102 requires to be 0 are 0; `align` is log2 of the next table's size. -/
def ptrOk (e align : Nat) : Bool := fld e 7 2 == 0 && fld e 63 56 == 0 && (fld e 55 8 * 2 ^ 8) % 2 ^ align == 0

/-- The levels below L0: level number, index field of the address, log2 of the table's size (R101). -/
def lowerLevels : List (Nat × Nat × Nat × Nat) := [(1, 38, 30, 12), (2, 29, 21, 12), (3, 20, 16, 8)]

/-- Walks down from an entry: the leaf reached with its address and level, or the fault (R103). -/
def State.walkDown (s : State) (ia : Nat) : List (Nat × Nat × Nat × Nat) → Nat → Nat → Nat → Except (Nat × Nat × Nat) (Nat × Nat × Nat)
  | [], e, at_, lvl =>
    if bitAt e 0 ∧ bitAt e 1 ∧ leafOk e false then .ok (e, at_, lvl) else .error (0x31, e, lvl)
  | (nl, hi, lo, al) :: r, e, at_, lvl =>
    if ¬ bitAt e 0 then .error (0x31, e, lvl)
    else if bitAt e 1 then
      (if lvl < 2 ∨ ¬ leafOk e (lvl == 2) then .error (0x31, e, lvl) else .ok (e, at_, lvl))
    else if ¬ ptrOk e al then .error (0x31, e, lvl)
    else
      let t := fld e 55 8 * 2 ^ 8
      match s.tableAt t with
      | some code => .error (code, e, nl)
      | none =>
        let a := t + 8 * fld ia hi lo
        if s.lostAt a 8 then .error (0x74, e, nl) else s.walkDown ia r (s.entryAt a) a nl

/-- The leaf of an address in a partition's device or host table: the leaf, where it lies, its level (R103). -/
def State.findLeaf (s : State) (p : PartIx) (hostTable : Bool) (ia : Nat) : Except (Nat × Nat × Nat) (Nat × Nat × Nat) :=
  let q := s.part p
  let en := if hostTable then q.hEn else q.dmEn
  let root := (if hostTable then q.hAddr else q.dmAddr).toNat
  if ¬ en then .error (0x31, 0, 0)
  else match s.tableAt root with
    | some code => .error (code, 0, 0)
    | none =>
      let a := root + 8 * fld ia 51 39
      if s.lostAt a 8 then .error (0x74, 0, 0) else s.walkDown ia lowerLevels (s.entryAt a) a 0

/-- The hint of a refused page: the cycles its move still needs over 64, from 1 to 255 (R104). -/
def State.moveHint (s : State) (leafAt : Nat) : Nat :=
  match s.mig.moving with
  | some m => if m.leafAt = leafAt then max 1 (min 255 (ceilDiv (m.ends - s.chron) 64)) else 1
  | none => 1

/-- Whether a right is granted by a leaf (R103). -/
def leafGrants (e : Nat) (k : Right) : Bool :=
  match k with
  | .read => bitAt e 4
  | .write => bitAt e 5
  | .atomic => bitAt e 4 && bitAt e 5 && bitAt e 6

/-- What a leaf of a given level answers for an address (R103). `rights` off skips the rights check, as the
object table's readers do (R186). -/
def State.leafAnswer (s : State) (p : PartIx) (hostTable : Bool) (ia : Nat) (k : Right) (rights : Bool) (e leafAt lvl : Nat) : Walk :=
  let size := if lvl = 2 then 2 ^ 21 else 2 ^ 16
  let loc := leafLoc e
  let addr := leafAddr e
  let kind := s.paKind addr
  if hostTable ∧ loc ≠ 3 then .fault 0x31 e lvl
  else if loc = 0 ∧ kind = .failed then .fault 0x74 e lvl
  else if loc = 0 ∧ (kind ≠ .pool ∨ s.paKind (addr + size - 1) ≠ .pool ∨ fld addr 37 29 / 36 ≠ fld ia 23 21) then .fault 0x31 e lvl
  else if (loc = 1 ∨ loc = 2) ∧ kind ≠ .lpddr then .fault 0x31 e lvl
  else if rights ∧ ¬ leafGrants e k then .fault 0x32 e lvl
  else if bitAt e 8 then .refuse (s.moveHint leafAt) none
  else match loc with
    | 2 =>
      if (s.part p).autoprom then .refuse (max 1 (min 255 (ceilDiv (size / 128) 64))) (some (ia / size * size, lvl == 2))
      else .fault 0x33 e lvl
    | 3 => .host (addr + ia % size)
    | _ => .mem (addr + ia % size)

/-- The pinned entry that covers an address of region 0x0 (R107). -/
def State.pinOf (s : State) (p : PartIx) (ia : Nat) : Option Pin :=
  s.ms.pinned.find? fun x => x.part == p.val && decide (ia / 2 ^ 52 = 0) && decide (ia % 2 ^ 52 / (if x.big then 2 ^ 21 else 2 ^ 16) * (if x.big then 2 ^ 21 else 2 ^ 16) = x.base)

/-- The walk of an access of a partition to region 0x0 or 0x1 (R94, R103); a pinned entry answers without one. -/
def State.walk (s : State) (p : PartIx) (ia : Nat) (k : Right) (rights : Bool := true) : Walk :=
  let hostTable := ia / 2 ^ 52 == 1
  match s.pinOf p ia with
  | some x => s.leafAnswer p false ia k rights x.leaf 0 (if x.big then 2 else 3)
  | none => match s.findLeaf p hostTable ia with
    | .error (code, e, lvl) => .fault code e lvl
    | .ok (e, a, lvl) => s.leafAnswer p hostTable ia k rights e a lvl

/-- Schedules the next command of an idle migration engine: a promotion first, else the head of the FIFO (R113, R115). -/
def State.migPump (s : State) : State :=
  let m := s.mig
  if m.busy ∨ m.moving.isSome ∨ ¬ m.held.isEmpty then s
  else
    let t := s.chron + 1 + Config.moveLatency s.freeIx
    let go (i : Instr) : State := ({ s with freeIx := s.freeIx + 1, mig := { m with busy := true } }).sched t i
    match m.promos, m.fifo with
    | _ :: _, _ => go .promotion
    | [], c :: _ => (match c.op.toNat with
      | 2 => go .free
      | 3 => go .move
      | _ => go .alloc)
    | [], [] => s

/-- Queues the promotion of a page to pool, once (R103, R115). -/
def State.queuePromotion (s : State) (p : PartIx) (x : Nat × Bool) : State :=
  let c : MgCmd := { op := 3, part := BitVec.ofNat 6 p.val, sz := x.2, dest := 0, id := 0, ia := BitVec.ofNat 56 x.1, dst := 0, lim := 0, promo := true }
  if s.mig.promos.contains c ∨ (s.mig.moving.map (·.cmd)) = some c then s
  else ({ s with mig := { s.mig with promos := s.mig.promos ++ [c] } }).migPump

/-- What a refusal with a promotion does besides (R103). -/
def State.promote (s : State) (p : PartIx) : Option (Nat × Bool) → State
  | none => s
  | some x => s.queuePromotion p x

/-! ## Performing an access -/

/-- Right needed by an access. -/
def AccKind.right : AccKind → Right
  | .read => .read
  | .write _ => .write
  | .atomic _ _ _ => .atomic
  | .faddx _ _ => .atomic
  | .xrd => .read
  | .zero => .read

/-- Whether an access is a write for the order of a fence (R250). -/
def AccKind.writes : AccKind → Bool
  | .write _ | .atomic _ _ _ | .faddx _ _ => true
  | _ => false

/-- WR of a fault record: a write that is no atomic, which AT names (R109). -/
def AccKind.wr (k : AccKind) : Bool := k.writes && k.right != .atomic

/-- Whether an access is a read for the order of a fence (R250). -/
def AccKind.reads : AccKind → Bool
  | .write _ => false
  | _ => true

/-- Whether an access can travel to host or peer memory: reads, writes and the PCIe AtomicOps (R310, R312). -/
def AccKind.portable : AccKind → Bool
  | .atomic fn _ _ => fn == .add || fn == .swap || fn == .cas
  | .faddx _ _ => false
  | .xrd => false
  | _ => true

/-- new(old, b, e) of an atomic function over n bytes (R310). -/
def atomNew (fn : AtomFn) (n old b e : Nat) : Nat :=
  match fn with
  | .add => (old + b) % 2 ^ (8 * n)
  | .and => old &&& b
  | .or => old ||| b
  | .xor => old ^^^ b
  | .min => if sintN (8 * n) b < sintN (8 * n) old then b else old
  | .max => if sintN (8 * n) old < sintN (8 * n) b then b else old
  | .minu => if b < old then b else old
  | .maxu => if old < b then b else old
  | .swap => b
  | .cas => if old = e then b else old

/-- Performs an access at a memory key, whole and at once: the bytes it returns and memory after it, or the
fault of an exact cell (R310 to R313; log 6). -/
def performAt (m : List Host.Cell) (key n : Nat) : AccKind → Except Nat (List Byte × List Host.Cell)
  | .read => .ok (readBytes m key n, m)
  | .zero => .ok ([], m)
  | .write bs => .ok ([], writeBytes m key bs)
  | .atomic fn b e =>
    let old := readNat m key n
    .ok (toBytes n old, writeBytes m key (toBytes n (atomNew fn n old b e)))
  | .faddx f x => match faddCell (readBytes m key 128) (value (xfFmt f) x) with
    | .error c => .error c
    | .ok bs => .ok ([], writeBytes m key bs)
  | .xrd =>
    let bs := readBytes m key 128
    match cellOf bs with
    | none => .error 0x16
    | some _ => .ok (bs, m)

/-- The request with an identity, among the accesses not complete. -/
def State.req (s : State) (id : Nat) : Option Req := s.reqs.find? fun r => r.id == id

/-- Replaces a request. -/
def State.setReq (s : State) (r : Req) : State := { s with reqs := s.reqs.map fun x => if x.id = r.id then r else x }

/-- Removes a request. -/
def State.dropReq (s : State) (id : Nat) : State := { s with reqs := s.reqs.filter fun r => r.id != id }

/-- Adds a request under a new identity. -/
def State.addReq (s : State) (r : Req) : Nat × State :=
  (s.nextId, { s with nextId := s.nextId + 1, reqs := s.reqs ++ [{ r with id := s.nextId }] })

/-- Performs a request at a memory key and keeps what it answers; a read that meets a lost doubleword delivers nothing, fault 0x74
(R119). -/
def State.performReq (s : State) (r : Req) (key : Nat) : State :=
  if r.kind.reads && s.lostAt key r.n then s.setReq { r with err := some (0x74, 0, 0), done := true }
  else match performAt s.memory key r.n r.kind with
  | .ok (bs, m) => ({ s with memory := m }).setReq { r with result := bs, done := true }
  | .error code => s.setReq { r with err := some (code, 0, 0), done := true }

/-- What a request looks like on a port (R58, R120). -/
def Req.tlp (r : Req) (q ia : Nat) (pasid : Option Nat) (translated : Bool) : OutTlp :=
  { id := r.id, q := q, ia := ia, n := r.n, pasid := pasid, translated := translated,
    kind := match r.kind with
      | .read => .read
      | .write bs => .write bs
      | .atomic fn b e => .atomic fn b e
      | _ => .read }

/-- Cycles without a completion after which fault 0x63 is raised (R68). -/
def cplTimeout : Nat := 2 ^ 24

/-- Notes the last write an engine of a core sent on a port, for the flush of R256; port 48 is the host port. -/
def State.noteSent (s : State) (c : CoreIx) (x : SentWrite) : State :=
  s.upd c fun k => { k with pipe := { k.pipe with sentOn := (k.pipe.sentOn.filter fun y => y.port != x.port) ++ [x] } }

/-- A flush read of a core has completed: the writes it followed are performed (R256). -/
def Pipe.flushed (k : Pipe) (id : Nat) : Pipe := { k with sentOn := k.sentOn.filter fun x => x.flush != some id }

/-- A read of an engine in replay is answered from its record without being sent, or raises 0x49 (R147). -/
def State.replayReq (s : State) (r : Req) (p : PartIx) (kind : Nat) : State :=
  match s.replayRead p kind r.who r.core.val r.ia with
  | .error _ => (s.dropReq r.id).coreFault r.core r.who 0x49 r.pc r.ia
  | .ok (bs, s) => (s.setReq { r with result := bs, done := true }).schedC s.chron r.core (.accessResponse r.id)

/-- Whether a request is one that replay answers from a record (R147). -/
def State.fromRecord (s : State) (r : Req) (p : PartIx) : Bool := s.replaying p && decide (r.who < 5) && (match r.kind with
  | .write _ => false
  | _ => true)

/-- The leaf an address has, for a fault record: the entry and its level. -/
def State.leafOf (s : State) (p : PartIx) (ia : Nat) : Nat × Nat :=
  match s.findLeaf p (ia / 2 ^ 52 == 1) ia with
  | .ok (e, _, l) => (e, l)
  | .error (_, e, l) => (e, l)

/-- Non-posted requests a function has outstanding on the host port at most (R47). -/
def tagLimit : Nat := 4096

/-- The tags in use by the outstanding non-posted requests of a partition's function (R47). -/
def State.tagsUsed (s : State) (p : PartIx) : List Nat :=
  (s.reqs.filter fun r => r.part == some p && r.sent == some 48 && !r.done).map (·.tag)

/-- The least tag a function may give a request, while fewer than 4,096 are outstanding (R47). -/
def State.freeTag (s : State) (p : PartIx) : Option Nat :=
  let used := s.tagsUsed p
  (List.range tagLimit).find? fun t => !used.contains t

/-- Entries of the ATS cache (R120). -/
def atsSize : Nat := 4096

/-- The translated address the ATS cache has for an access of a partition that lies in one page (R120). -/
def State.atsHit (s : State) (p : PartIx) (addr n : Nat) : Option Nat :=
  if addr / 4096 ≠ (addr + (n - 1)) / 4096 then none
  else (s.ms.ats.find? fun x => x.1 == addr / 4096 && x.2.1 == p.val).map fun x => x.2.2 * 4096 + addr % 4096

/-- The PASID of a partition's requests on the host port (R108, R120). -/
def Part.pasid (q : Part) : Option Nat := if q.pasiden then some q.hpasid.toNat else none

/-- Requests a translation of the page of an address for a partition, unless one is on its way (R120). -/
def State.atsAsk (s : State) (p : PartIx) (addr : Nat) : State :=
  let page := addr / 4096
  if s.ms.atsAsked.any fun x => x.2.1 == page && x.2.2 == p.val then s
  else
    let (id, s) := s.newId
    { s with
      ms := { s.ms with atsAsked := s.ms.atsAsked ++ [(id, page, p.val)] }
      hif := { s.hif with hostOut := s.hif.hostOut ++ [{ id := id, ia := page * 4096, n := 4096, pasid := (s.part p).pasid, translate := true }] } }

/-- The completion of a translation request fills the ATS cache, which drops its oldest entry when it is full (R120). -/
def State.atsFill (s : State) (id : Nat) (ok : Bool) (bs : List Byte) : State :=
  match s.ms.atsAsked.find? fun x => x.1 == id with
  | none => s
  | some x =>
    let ats := s.ms.ats ++ (if ok then [(x.2.1, x.2.2, ofBytes (bs.take 8) / 4096)] else [])
    { s with ms := { s.ms with atsAsked := s.ms.atsAsked.filter (fun y => y.1 != id), ats := ats.drop (ats.length - atsSize) } }

/-- Sends a request to host memory on the host port (R120): with HPASID when PASIDEN is set, translated when the ATS cache holds the
page, else untranslated with a translation requested. A write is posted and performed as it leaves. A non-posted request beyond those
the function may have outstanding is tried again in the next cycle (R47). -/
def State.sendHost (s : State) (r : Req) (p : PartIx) (addr : Nat) : State :=
  if s.fromRecord r p then s.replayReq r p 6
  else
    let lf := s.leafOf p r.ia
    let hit := s.atsHit p addr r.n
    let r := { r with lastEntry := lf.1, lastLevel := lf.2, ats := hit.map fun _ => addr / 4096 }
    let pasid := (s.part p).pasid
    let go (s : State) (tag : Nat) : State :=
      let t := r.tlp 0 (hit.getD addr) pasid hit.isSome
      let s := { s with hif := { s.hif with hostOut := s.hif.hostOut ++ [{ t with tag := tag }] } }
      if hit.isSome then s else s.atsAsk p addr
    match r.kind with
    | .write _ =>
      let s := go s 0
      let s := if r.who < 5 then s.noteSent r.core { port := 48, ia := hit.getD addr, pasid := pasid, translated := hit.isSome } else s
      (s.setReq { r with sent := some 48, done := true }).schedC s.chron r.core (.accessResponse r.id)
    | _ => match s.freeTag p with
      | none => (s.setReq r).schedC (s.chron + 1) r.core (.pageWalk r.id)
      | some tag => ((go s tag).setReq { r with sent := some 48, tag := tag }).sched (s.chron + cplTimeout) (.completionTimeout r.id)

/-- Posts a write of no engine to host memory through a partition's page: with its PASID, translated when the ATS cache holds the page
(R120). -/
def State.postFor (s : State) (p : PartIx) (addr : Nat) (bs : List Byte) : State :=
  let hit := s.atsHit p addr bs.length
  let t : OutTlp :=
    { id := 0, ia := hit.getD addr, n := bs.length, kind := .write bs, pasid := (s.part p).pasid, translated := hit.isSome }
  let s := { s with hif := { s.hif with hostOut := s.hif.hostOut ++ [t] } }
  if hit.isSome then s else s.atsAsk p addr

/-- The pieces of an access of n bytes that end at 512-byte boundaries of its address: offset and length (R58). -/
def cut512 (a n : Nat) : Nat → List (Nat × Nat)
  | 0 => [(0, n)]
  | fuel + 1 =>
    let k := 512 - a % 512
    if n ≤ k then [(0, n)] else (0, k) :: (cut512 (a + k) (n - k) fuel).map fun x => (x.1 + k, x.2)

/-- Offers the requests a read or write of a peer is split into, each under its identity and with its share of the bytes (R58). -/
def State.offerAll (s : State) (l : LinkIx) (t : OutTlp) (ps : List (Nat × Nat × Nat)) : State :=
  ps.foldl (fun s x => (s.offer l { t with
    id := x.1, ia := t.ia + x.2.1, n := x.2.2
    kind := match t.kind with
      | .write bs => .write ((bs.drop x.2.1).take x.2.2)
      | k => k }).1) s

/-- Whether a request is one the stripe transmitter splits: a read or a write that crosses a 512-byte boundary (R58). -/
def Req.crosses (r : Req) : Bool := (match r.kind with
  | .read | .write _ => true
  | _ => false) && decide (512 < r.ia % 512 + r.n)

/-- Sends a request of region 0x2 on its peer link, split at 512-byte boundaries (R58); a link that is down drops it and raises 0x61
in the partition of the engine that offered it (R60, R94). A host request so dropped gets no completion. -/
def State.sendPeer (s : State) (r : Req) (p : PartIx) : State :=
  let l := fld r.ia 51 46
  if s.fromRecord r p then s.replayReq r p 7
  else if h : l < 48 then
    let st := s.fab.links[l].st
    if st ≠ .up ∧ st ≠ .training then
      (if r.who < 5 then (s.dropReq r.id).coreFault r.core r.who 0x61 r.pc r.ia else s.dropReq r.id)
    else
      let t := r.tlp (fld r.ia 45 40) (fld r.ia 39 0) none false
      let cuts := if r.crosses then cut512 (r.ia % 512) r.n (r.n / 512 + 1) else []
      let ids := cuts.mapIdx fun i x => (s.nextId + i, x)
      let s := { s with nextId := s.nextId + cuts.length }
      let s := if cuts.isEmpty then (s.offer ⟨l, h⟩ t).1 else s.offerAll ⟨l, h⟩ t ids
      match r.kind with
      | .write _ =>
        let s := if r.who < 5 then s.noteSent r.core { port := l, ia := r.ia % 2 ^ 46 } else s
        (s.setReq { r with sent := some l, done := true }).schedC s.chron r.core (.accessResponse r.id)
      | _ => (s.setReq { r with sent := some l, parts := ids.map fun x => (x.1, x.2.2, none) }).sched (s.chron + cplTimeout)
          (.completionTimeout r.id)
  else s.partFault p 0x61

/-! ## Handles (R186 to R190) -/

/-- A field of an object-table entry: bits [hi:lo] of the doubleword at byte offset `off` (R187). -/
def entF (e : BitVec 512) (off hi lo : Nat) : Nat := fld (e.toNat / 2 ^ (8 * off)) hi lo

/-- TYPE of an entry (R187). -/
def entType (e : BitVec 512) : Nat := entF e 0 3 0
/-- EFMT of an entry. -/
def entFmt (e : BitVec 512) : Nat := entF e 0 8 4
/-- NDIM of an entry. -/
def entNdim (e : BitVec 512) : Nat := entF e 0 11 9
/-- BLK of an entry, as a number of positions. -/
def entBlk (e : BitVec 512) : Nat := match entF e 0 34 32 with
  | 1 => 32 | 2 => 64 | 3 => 256 | _ => 128
/-- CODE of an entry. -/
def entCode (e : BitVec 512) : Nat := entF e 0 37 35
/-- BASE of an entry. -/
def entBase (e : BitVec 512) : Nat := entF e 8 55 0
/-- BOUND of dimension i of an entry. -/
def entBound (e : BitVec 512) (i : Nat) : Nat := entF e (0x10 + 4 * i) 31 0
/-- STR of dimension i of an entry. -/
def entStr (e : BitVec 512) (i : Nat) : Int := sintN 32 (entF e (0x28 + 4 * i) 31 0)

/-- The right a handle use needs (R188): read, write, atomic, row delivery. -/
inductive HRight where
  | rd | wr | at_ | row
  deriving DecidableEq, Repr

/-- Whether an entry grants a right. -/
def entGrants (e : BitVec 512) : HRight → Bool
  | .rd => entF e 0 12 12 == 1
  | .wr => entF e 0 13 13 == 1
  | .at_ => entF e 0 14 12 == 7
  | .row => entF e 0 15 15 == 1

/-- The checks of a handle use before its elements: type, pending, accepted type, bank binding, right (R188). -/
def handleCheck (bfmt : Vector (BitVec 64) 16) (e : BitVec 512) (types : List Nat) (k : HRight) : Option Nat :=
  if entType e = 0 ∨ 6 < entType e then some 0x10
  else if entF e 0 17 17 = 1 then some 0x16
  else if ¬ types.contains (entType e) then some 0x15
  else if entF e 0 18 18 = 1 ∧ fld ((bfmt[entF e 0 22 19]?).getD 0).toNat 4 0 ≠ entFmt e then some 0x15
  else if ¬ entGrants e k then some 0x11
  else none

/-- Whether coordinates lie within the bounds of an entry, dimension by dimension (R188). -/
def inBounds (e : BitVec 512) (xs : List Nat) : Bool :=
  (List.range (entNdim e)).all fun i => decide (xs.getD i 0 < entBound e i)

/-- Whether an entry packs two elements to a byte (R188). -/
def ent4 (e : BitVec 512) : Bool := (entType e == 1 || entType e == 5) && (entFmt e == 6 || entFmt e == 14)

/-- The address of an element (R188). -/
def elemAddr (e : BitVec 512) (xs : List Nat) : Nat :=
  let dims := List.range (entNdim e)
  let sum : Int := dims.foldl (fun a i => if ent4 e && i == 0 then a else a + (xs.getD i 0 : Int) * entStr e i) 0
  lowInt ((entBase e : Int) + (if ent4 e then ((xs.getD 0 0 / 2 : Nat) : Int) else 0) + sum) 56

/-- Pinned slots of a handle cache (R189). -/
def pinnedSlots : Nat := 1024

/-- The entries the pinned slots of a core hold: of those marked pinned in the table, the ones with the lowest indices (R189). -/
def Core.pinned (k : Core) : List (Nat × BitVec 512) := k.hcPinned.take pinnedSlots

/-- The entry a core's handle cache holds for a handle (R189). -/
def Core.cached (k : Core) (h : Nat) : Option (BitVec 512) :=
  match tget k.pinned h with
  | some e => some e
  | none => (k.hcUnpinned.find? fun x => x.1 == h).map (·.2)

/-- The core with an entry made the most recently used of its unpinned ones; a full cache drops the least
recently used (R189). -/
def Core.touch (k : Core) (h : Nat) (e : BitVec 512) : Core :=
  if (tget k.pinned h).isSome then k
  else
    let l := (k.hcUnpinned.filter fun x => x.1 != h) ++ [(h, e)]
    { k with hcUnpinned := l.drop (l.length - 128) }

/-- What a handle lookup answers: the entry, a fill to wait for, a miss in a fixed leg, a fault of the fill. -/
inductive Lookup where
  | hit (e : BitVec 512) (s : State)
  | wait
  | deviation
  | fault (code entry level : Nat)

/-- Looks up a handle for the core at hand. A miss in a free leg fills the cache at once from memory; a page that is refused or lies in
host memory has to be waited for (R92, R103 to R105, R189). -/
def State.handle (s : State) (c : CoreIx) (h : Nat) : Lookup :=
  match (s.core c).cached h with
  | some e => .hit e (s.upd c fun k => k.touch h e)
  | none =>
    if s.fixedLeg c then .deviation
    else if s.filling c h then .wait
    else match s.partOf c with
      | none => .fault 0x31 0 0
      | some p => match s.walk p (64 * h) .read false with
        | .mem key =>
          if s.lostAt key 64 then .fault 0x74 0 0
          else
            let e := BitVec.ofNat 512 (readNat s.memory key 64)
            .hit e (s.upd c fun k => k.touch h e)
        | .host _ | .refuse _ _ => .wait
        | .fault code en lvl => .fault code en lvl

/-- Bytes of a scratchpad. -/
def State.spad (s : State) (c : CoreIx) (off n : Nat) : List Byte := readBytes s.memory (spadKey c.val off) n

/-- Bytes of a slice SRAM. -/
def State.sliceRd (s : State) (c : CoreIx) (off n : Nat) : List Byte := readBytes s.memory (sliceKey c.val off) n

/-- Whether a slice offset lies in a bank in service (R35, R210). -/
def State.sliceOk (s : State) (c : CoreIx) (off : Nat) : Bool :=
  decide (off ≤ 0x5FFFFF) && (match (s.col c).slice[off / 2 ^ 17]? with
    | some b => b == 1 || b == 2
    | none => false)

end Sys2Proof.Machine
end

