-- ==== Sys2Proof/Machine/Control.lean ====
section
/-! DEFINITION. The control page of a core in both views (R192), with the registers other rules place in it: R96,
R99, R154, R177, R183 to R185, R242, R373, R375. -/

namespace Sys2Proof.Machine

/-- State of a queue as seen at the start of a cycle: a stop takes effect after the cycle it was made in (R317). -/
def Queue.eff (q : Queue) (now : Nat) : QState :=
  match q.stopAt with
  | some t => if t < now ∧ q.st = .running then .stopped else q.st
  | none => q.st

/-- QST code of a queue state (R192). -/
def QState.code : QState → Nat
  | .stopped => 0 | .running => 1 | .rest => 2 | .soft => 3

/-- Whether an offset of the control page belongs to a supervisor-only register: CAUSE, EPC, HVEC, RNG, RWIN,
AXSS (R192). -/
def supOnly (off : Nat) : Bool :=
  off == 8 || off == 0x10 || off == 0x18 || (decide (0x400 ≤ off) && decide (off < 0x640)) || off == 0x680

/-- One of the four doublewords of a range register (R96). -/
def Range.dword (r : Range) (i : Nat) : Nat :=
  match i with
  | 0 => r.base.toNat * 2 ^ 16
  | 1 => r.limit.toNat * 2 ^ 16
  | 2 => r.off.toNat * 2 ^ 16
  | _ => ofBool r.v + 2 * ofBool r.r + 4 * ofBool r.w + 8 * ofBool r.a + 16 * ofBool r.u

/-- A range register with one of its doublewords written (R96). -/
def Range.setDword (r : Range) (i v : Nat) : Range :=
  match i with
  | 0 => { r with base := BitVec.ofNat 36 (fld v 51 16) }
  | 1 => { r with limit := BitVec.ofNat 36 (fld v 51 16) }
  | 2 => { r with off := BitVec.ofNat 40 (fld v 55 16) }
  | _ => { r with v := bitAt v 0, r := bitAt v 1, w := bitAt v 2, a := bitAt v 3, u := bitAt v 4 }

/-- One of the two doublewords of a row window (R99). -/
def RowWin.dword (r : RowWin) (hi : Bool) : Nat :=
  if hi then r.rowlo.toNat + r.rowhi.toNat * 2 ^ 16 + ofBool r.v * 2 ^ 31 else r.bmask.toNat

/-- Whether every bank of a mask is in ROW or PENDROW (R99). -/
def Column.rowBanks (k : Column) (m : BitVec 32) : Bool :=
  (List.finRange 32).all fun b => !m.getLsb b || k.dram[b] == 2 || k.dram[b] == 4

/-- A row window with one of its doublewords written, V checked against the window as it stands after the write
(R99). -/
def RowWin.write (r : RowWin) (k : Column) (hi : Bool) (v : Nat) : RowWin :=
  let r := if hi then { r with rowlo := BitVec.ofNat 11 v, rowhi := BitVec.ofNat 11 (fld v 26 16), v := bitAt v 31 }
    else { r with bmask := BitVec.ofNat 32 v }
  { r with v := r.v && k.rowBanks r.bmask && decide (r.rowlo.toNat ≤ r.rowhi.toNat) && decide (r.rowhi.toNat ≤ k.rowmax.toNat) }

/-- AXSS (R154). -/
def Axu.axss (k : Axu) : Nat :=
  match k.soft with
  | none => 0
  | some f =>
    1 + 2 * ofBool f.stq + 4 * (f.slot % 64)

/-- Number of outstanding CPE commands (R192). -/
def Cpe.outstanding (k : Cpe) : Nat := (k.cmds.filter fun x => !x.done).length

/-- The 64-bit word of the control page at an offset, in a view (R192, R422). -/
def State.ctlRead (s : State) (c : CoreIx) (sup : Bool) (off : Nat) : Nat :=
  let k := s.core c
  let pc := match s.partOf c with
    | some p => (s.part p).pwrcls.toNat
    | none => 0
  let now := s.chron
  match off with
  | 0x000 => ofBool k.seq.sup + (if sup then 2 * ofBool k.seq.pmode else 0)
  | 0x008 => k.seq.cause.toNat
  | 0x010 => k.seq.epc.toNat
  | 0x018 => k.seq.hvec.toNat
  | 0x020 => s.chron % 2 ^ 64
  | 0x028 => k.ctl.legno.toNat
  | 0x030 => k.ctl.course.toNat
  | 0x038 => k.ctl.sizecls.toNat
  | 0x040 => k.ctl.health.toNat
  | 0x048 => pc
  | 0x050 => k.ctl.tksel.toNat
  | 0x058 => k.ctl.tkceil0.toNat
  | 0x060 => k.ctl.tkceil1.toNat
  | 0x068 => k.ctl.ltc[0].toNat + k.ctl.ltc[1].toNat * 2 ^ 16 + k.ctl.ltc[2].toNat * 2 ^ 32 + k.ctl.ltc[3].toNat * 2 ^ 48
  | 0x070 => (k.axu.q.eff now).code + 4 * (k.bke.q.eff now).code + 16 * (k.vec.q.eff now).code + 256 * k.cpe.outstanding
  | 0x078 => k.ctl.secnt.toNat
  | 0x100 => k.ctl.vsh.toNat
  | 0x108 => k.ctl.vmd.toNat
  | 0x380 => k.stat.win.toNat
  | 0x388 => k.stat.ev.toNat
  | 0x680 => k.axu.axss
  | _ =>
    if 0x080 ≤ off ∧ off < 0x100 then ((k.ctl.bfmt[(off - 0x80) / 8]?).getD 0).toNat
    else if 0x200 ≤ off ∧ off < 0x300 then
      ((s.fab.sgw[(off - 0x200) / 4]?).getD 0).toNat + 2 ^ 32 * ((s.fab.sgw[(off - 0x200) / 4 + 1]?).getD 0).toNat
    else if 0x300 ≤ off ∧ off < 0x330 then ((k.stat.cnt[(off - 0x300) / 8]?).getD 0).toNat
    else if 0x340 ≤ off ∧ off < 0x370 then ((k.stat.th[(off - 0x340) / 8]?).getD 0).toNat
    else if 0x400 ≤ off ∧ off < 0x600 then ((k.ctl.rng[(off - 0x400) / 32]?).getD {}).dword (off / 8 % 4)
    else if 0x600 ≤ off ∧ off < 0x640 then ((k.ctl.rwin[(off - 0x600) / 16]?).getD {}).dword (off / 8 % 2 == 1)
    else 0

/-- Whether a byte of TKSEL holds values allowed for engine q (R183). -/
def tkselOk (q b : Nat) : Bool :=
  let f := fld b 3 0
  let t := fld b 6 4
  ((decide (f ≤ 4) && f != q) || (decide (8 ≤ f) && decide (f ≤ 11))) && decide (t ≤ 4) && t != q

/-- TKSEL after a write: each byte applies or keeps its value on its own (R183). -/
def tkselWrite (old v : Nat) : Nat :=
  (List.range 5).foldl (fun a q =>
    let b := fld v (8 * q + 6) (8 * q)
    setFld a (8 * q) 8 (if tkselOk q b then b else fld old (8 * q + 7) (8 * q))) 0

/-- BFMT after a write (R177). -/
def bfmtWrite (old v : Nat) : Nat :=
  let f := if fld v 4 0 < 16 then fld v 4 0 else fld old 4 0
  let r := if fld v 10 8 < 5 then fld v 10 8 else fld old 10 8
  f + r * 256

/-- VSH after a write (R373). -/
def vshWrite (old v : Nat) : Nat :=
  if 4096 < (fld v 27 16 + 1) * (fld v 11 0 + 1) then old else fld v 11 0 + fld v 27 16 * 2 ^ 16

/-- VMD after a write (R375). -/
def vmdWrite (old v : Nat) : Nat :=
  let r := if fld v 2 0 < 6 then fld v 2 0 else fld old 2 0
  let qf := if fld v 10 8 < 7 then fld v 10 8 else fld old 10 8
  r + fld v 3 3 * 8 + qf * 256 + fld v 12 11 * 2 ^ 11 + fld v 31 16 * 2 ^ 16

/-- The core after a write of a 64-bit word of its control page in a view, for every register whose write acts in
the core alone; AXSS.RESUME and RWIN are the caller's (R192, R422). -/
def Core.ctlWrite (k : Core) (sup : Bool) (off v : Nat) : Core :=
  let ctl := k.ctl
  match off with
  | 0x000 => if sup then { k with seq := { k.seq with pmode := bitAt v 1 } } else k
  | 0x008 => { k with seq := { k.seq with cause := BitVec.ofNat 8 v } }
  | 0x010 => { k with seq := { k.seq with epc := BitVec.ofNat 32 v } }
  | 0x018 => { k with seq := { k.seq with hvec := BitVec.ofNat 32 (fld v 31 2 * 4) } }
  | 0x038 => { k with ctl := { ctl with sizecls := BitVec.ofNat 4 v } }
  | 0x050 => { k with ctl := { ctl with tksel := BitVec.ofNat 64 (tkselWrite ctl.tksel.toNat v) } }
  | 0x058 => { k with ctl := { ctl with tkceil0 := BitVec.ofNat 64 v } }
  | 0x060 => { k with ctl := { ctl with tkceil1 := BitVec.ofNat 64 (v % 2 ^ 16) } }
  | 0x100 => { k with ctl := { ctl with vsh := BitVec.ofNat 64 (vshWrite ctl.vsh.toNat v) } }
  | 0x108 => { k with ctl := { ctl with vmd := BitVec.ofNat 64 (vmdWrite ctl.vmd.toNat v) } }
  | 0x380 => if 10 ≤ v % 64 ∧ v % 64 ≤ 40 then { k with stat := { k.stat with win := BitVec.ofNat 6 v } } else k
  | 0x388 => { k with stat := { k.stat with ev := k.stat.ev &&& ~~~(BitVec.ofNat 6 v) } }
  | _ =>
    if h : 0x080 ≤ off ∧ off < 0x100 then
      let x := BitVec.ofNat 64 (bfmtWrite (ctl.bfmt[(off - 0x80) / 8]'(by omega)).toNat v)
      { k with ctl := { ctl with bfmt := ctl.bfmt.set ((off - 0x80) / 8) x (by omega) } }
    else if h : 0x300 ≤ off ∧ off < 0x330 then
      { k with stat := { k.stat with cnt := k.stat.cnt.set ((off - 0x300) / 8) (BitVec.ofNat 32 v) (by omega) } }
    else if h : 0x340 ≤ off ∧ off < 0x370 then
      { k with stat := { k.stat with th := k.stat.th.set ((off - 0x340) / 8) (BitVec.ofNat 64 (v % 2 ^ 34)) (by omega) } }
    else if h : 0x400 ≤ off ∧ off < 0x600 then
      let x := (ctl.rng[(off - 0x400) / 32]'(by omega)).setDword (off / 8 % 4) v
      { k with ctl := { ctl with rng := ctl.rng.set ((off - 0x400) / 32) x (by omega) } }
    else k

end Sys2Proof.Machine
end

