-- ==== Sys2Proof/Machine/Rows.lean ====
section
/-! DEFINITION. The row controller of a column: bank addressing (R100), bank states and timing (R211 to R215),
refresh slots (R34), wires (R217, R428), and the survey updates they make (R33). -/

namespace Sys2Proof.Machine

/-- Survey timing values (R31). -/
def tRCD : Nat := 18
/-- TRASMIN (R31). -/
def tRASmin : Nat := 36
/-- TRASMAX (R31). -/
def tRASmax : Nat := 9800
/-- TRP (R31). -/
def tRP : Nat := 18
/-- Normal refresh period REFPER (R31). -/
def refPer : Nat := 5460
/-- REFSLOT (R31). -/
def refSlot : Nat := 72
/-- REFSTRIDE (R31). -/
def refStride : Nat := 80

/-- Temperature of the hottest DRAM layer of a column: TDRAM (R32, R36). -/
def Column.tdram (k : Column) : BitVec 12 := BitVec.ofNat 12 (k.layers.toList.foldl (fun a t => max a t.toNat) 0)

/-- The period in force: REFPER, or half of it with HOT = 1 (R34). -/
def Column.period (k : Column) : Nat := if k.hot then refPer / 2 else refPer

/-- Cycles from the start of a bank's last refresh slot start at or before t (R34). -/
def Column.slotOffset (k : Column) (bank t : Nat) : Nat :=
  (((t : Int) - k.phase - refStride * bank) % (k.period : Int)).toNat

/-- Whether a cycle lies in a bank's refresh slot (R34). -/
def Column.inSlot (k : Column) (bank t : Nat) : Bool := decide (k.slotOffset bank t < refSlot)

/-- Cycles until a bank's next refresh slot begins, 0 when one begins now (R34). -/
def Column.toSlot (k : Column) (bank t : Nat) : Nat :=
  let o := k.slotOffset bank t
  if o = 0 then 0 else k.period - o

/-- Beats of a row: 16, or 32 at half width (R212). -/
def Column.beats (k : Column) : Nat := if k.half then 32 else 16

/-- Bytes of a beat: 512, or 256 at half width (R346). -/
def Column.beatBytes (k : Column) : Nat := if k.half then 256 else 512

/-- State of a bank at a cycle: 0 CLOSED, 1 OPEN, 2 PRECHARGING (R211, R213, R348). -/
def RowState.at_ (r : RowState) (t : Nat) : Nat :=
  match r with
  | .closed => 0
  | .open_ _ _ _ none => 1
  | .open_ _ _ _ (some e) => if t < e then 1 else if t < e + tRP then 2 else 0
  | .precharging u => if t < u then 2 else 0

/-- Whether every bank of the column is CLOSED at a cycle (R428). -/
def Column.allClosed (k : Column) (t : Nat) : Bool := k.rows.toList.all fun r => r.at_ t == 0

/-- Replaces the state of a bank. -/
def Column.setRow (k : Column) (b : Fin 32) (r : RowState) : Column := { k with rows := k.rows.set b r }

/-- The cycle a precharge issued at t of an OPEN bank takes effect (R213). -/
def prechargeAt (t lastBeat : Nat) : Nat := max t (lastBeat + 1)

/-- Precharges an OPEN bank at a cycle, keeping an earlier precharge (R213). -/
def RowState.pre (r : RowState) (t : Nat) : RowState :=
  match r with
  | .open_ row act lb none => .open_ row act lb (some (prechargeAt t lb))
  | x => x

/-- The bank and row a row instruction names in a window: the (b + 1)-th lowest bank of BMASK and ROWLO + r, or
0x56 (R100). `bound` off leaves the row bound out, as for RSTAT (R344). -/
def RowWin.resolve (w : RowWin) (b : Nat) (r : Nat) (bound : Bool) : Option (Fin 32 × Nat) :=
  if ¬ w.v then none
  else match nthSetBit 32 w.bmask.toNat b 0 with
    | none => none
    | some i =>
      if h : i < 32 then
        (if bound ∧ w.rowhi.toNat < w.rowlo.toNat + r then none else some (⟨i, h⟩, w.rowlo.toNat + r))
      else none

/-- Whether a bank is in row mode (R39). -/
def Column.rowMode (k : Column) (b : Fin 32) : Bool := k.dram[b] == 2 || k.dram[b] == 4

/-- The Helm's change of the survey: GEN goes odd and even again (R33), and the survey interrupt is raised when
asked (R36). -/
def State.surveyChange (s : State) (int : Bool) : State :=
  let s := { s with helm := { s.helm with gen := s.helm.gen + 2 } }
  if int then s.pfInt 0 else s

/-- Maps a data wire onto the lowest unused spare; with none left the bus goes to half width (R217, R428). -/
def Column.mapWire (k : Column) (w : Nat) : Column :=
  if 4096 ≤ w ∨ k.mapped.contains w then k
  else if k.spare = 0 then { k with half := true }
  else { k with spare := k.spare - 1, mapped := k.mapped ++ [w], failed := k.failed.filter (· != w) }

/-- Wires that fail the test of every data wire: those known to have failed and those the test finds (R428). -/
def Column.badWires (k : Column) (col draw : Nat) : List Nat :=
  (List.range 4096).filter fun w => (k.failed.contains w || Config.wireFails col w draw) && !k.mapped.contains w

/-- Tests every data wire and maps each failing one (R217, R428). -/
def Column.testWires (k : Column) (col draw : Nat) : Column := (k.badWires col draw).foldl Column.mapWire k

/-- Activates a row at a cycle (R211, R214, R215): the bank becomes OPEN, and the checks of its next refresh slot
and of TRASMAX are scheduled. -/
def State.activate (s : State) (c : CoreIx) (b : Fin 32) (row : BitVec 11) (t : Nat) : State :=
  let k := s.col c
  let s := s.updCol c fun k =>
    { k.setRow b (.open_ row t 0 none) with acts := (k.acts.filter fun x => decide (t < x + 40)) ++ [t] }
  let s := s.schedC (t + 1 + k.toSlot b.val (t + 1)) c (.refreshSlotStart c b)
  s.schedC (t + tRASmax + 1) c (.rowOpenTooLong c b t)

/-- Precharges a bank of a column at a cycle and schedules its completion (R213). -/
def State.rowPre (s : State) (c : CoreIx) (b : Fin 32) (t : Nat) : State :=
  match (s.col c).rows[b] with
  | .open_ row act lb none =>
    let e := prechargeAt t lb
    (s.updCol c fun k => k.setRow b (.open_ row act lb (some e))).schedC (e + tRP) c (.prechargeComplete c b)
  | _ => s

/-- Banks of a mask that are OPEN at a cycle. -/
def Column.openIn (k : Column) (m : BitVec 32) (t : Nat) : List (Fin 32) :=
  (List.finRange 32).filter fun b => m.getLsb b && k.rows[b].at_ t == 1

/-- The cycle at which a window write finding rows open applies: each is precharged once TRASMIN is met, and TRP
elapses (R99). -/
def Column.closeCycle (k : Column) (bs : List (Fin 32)) (t : Nat) : Nat :=
  bs.foldl (fun a b => match k.rows[b] with
    | .open_ _ act lb none => max a (prechargeAt (max t (act + tRASmin)) lb + tRP)
    | .open_ _ _ _ (some e) => max a (e + tRP)
    | _ => a) t

/-- Closes the rows of a mask that are open: precharge after TRASMIN (R99, R149, R160). -/
def State.closeRows (s : State) (c : CoreIx) (bs : List (Fin 32)) (t : Nat) : State :=
  bs.foldl (fun s b => match (s.col c).rows[b] with
    | .open_ _ act _ none => s.rowPre c b (max t (act + tRASmin))
    | _ => s) s

/-- Applies a write of one doubleword of a row window of a core (R99); a change of the refresh period waits for no window any longer
(R40). -/
def State.rwinApply (s : State) (c : CoreIx) (w : Fin 4) (hi : Bool) (v : Nat) : State :=
  let col := s.col c
  (s.upd c fun k => { k with ctl := { k.ctl with rwin := k.ctl.rwin.set w (k.ctl.rwin[w].write col hi v) } }).hotCheck c

/-- The next refresh slot of a column over its live banks: its cycle and bank (R165, R34). -/
def Column.nextSlot (k : Column) (t : Nat) : Nat × Nat :=
  ((List.finRange 32).filter fun b => decide (1 ≤ k.dram[b].toNat) && decide (k.dram[b].toNat ≤ 5)).foldl
    (fun a b => let n := t + k.toSlot b.val t; if a.1 ≤ n && a.1 != 0 then a else (n, b.val)) (0, 0)

end Sys2Proof.Machine
end

