-- ==== Sys2Proof/Machine/Operands.lean ====
section
/-! DEFINITION. Operand forms of the sequencer: registers, sign-extended and zero-extended immediates, word
offsets, and the address of a memory word (R296, R303, R305, R308). -/

namespace Sys2Proof.Machine

/-- sext(imm, 64) of an n-bit immediate (R303). -/
def immS {n : Nat} (x : BitVec n) : Word := x.signExtend 64

/-- zext(imm, 64) of an n-bit immediate (R303). -/
def immZ {n : Nat} (x : BitVec n) : Word := x.setWidth 64

/-- A branch target: pc + 4 × sint(off) (R305, R306). -/
def target {n : Nat} (pc : Int) (off : BitVec n) : Int := pc + 4 * off.toInt

/-- The address of a form M word: low(ga + sint(imm9) × 2^sz, 64) (R308). -/
def memAddr (a : Word) (sz : BitVec 2) (imm : BitVec 9) : Word :=
  BitVec.ofInt 64 ((a.toNat : Int) + imm.toInt * ((2 ^ sz.toNat : Nat) : Int))

/-- OR of the taints of two registers read (R254). -/
def Seq.tnt2 (q : Seq) (a b : Fin 32) : Bool := q.tnt a || q.tnt b

/-- The issue of a word that computes gd from registers: every source and gd must be ready, the result is
usable `lat` cycles later (R296, R297). -/
def State.seqAlu (s : State) (i : Instr) (h : Hdr) (d : Fin 32) (rs : List (Fin 32)) (lat : Nat)
    (f : Seq → Word) (t : Seq → Bool) : State :=
  s.seqIssue i h (d :: rs) false false (lat - 1) fun s => .ok (s.writeG d (f s.me.seq) (t s.me.seq) lat)

/-- The register–register form R (R301). -/
def State.aluRR (s : State) (i : Instr) (h : Hdr) (d a b : Fin 32) (lat : Nat) (f : Word → Word → Word) : State :=
  s.seqAlu i h d [a, b] lat (fun q => f (q.gpr a) (q.gpr b)) (fun q => q.tnt2 a b)

/-- The one-register form R of the counts, and form I (R301, R303). -/
def State.aluR (s : State) (i : Instr) (h : Hdr) (d a : Fin 32) (lat : Nat) (f : Word → Word) : State :=
  s.seqAlu i h d [a] lat (fun q => f (q.gpr a)) (fun q => q.tnt a)

/-- A word that writes an untainted value that reads no register (R254). -/
def State.aluImm (s : State) (i : Instr) (h : Hdr) (d : Fin 32) (lat : Nat) (f : Seq → Word) : State :=
  s.seqAlu i h d [] lat f (fun _ => false)

/-- The issue of a branch or jump: the sources must be ready; the body sets the pointer (R305 to R307). -/
def State.seqBranch (s : State) (i : Instr) (h : Hdr) (a b : Fin 32) (off : BitVec 11) (c : Word → Word → Bool) : State :=
  let pc := s.me.seq.q.pc
  s.seqIssue i h [a, b] false false 0 fun s =>
    .ok (s.updSeq fun q => if c (q.gpr a) (q.gpr b) then { q with q := { q.q with pc := target pc off } } else q)

end Sys2Proof.Machine
end

