-- ==== Sys2Proof/Machine/Flags.lean ====
section
/-! DEFINITION. The conditions of the machine. The sequencer keeps no flags; what stands in their place are the
compare conditions of branches (R305) and the results of the compare, count and division operations (R301,
R302). -/

namespace Sys2Proof.Machine

/-- a <s b (R20). -/
def ltS {w : Nat} (a b : BitVec w) : Bool := a.slt b

/-- a <u b (R20). -/
def ltU {w : Nat} (a b : BitVec w) : Bool := a.ult b

/-- A condition as a register value. -/
def boolWord (b : Bool) : Word := if b then 1 else 0

/-- DIV of R302. -/
def divS (a b : Word) : Word :=
  let x := a.toInt; let y := b.toInt
  BitVec.ofInt 64 (if y = 0 then -1 else if x = -(2 ^ 63) ∧ y = -1 then -(2 ^ 63) else x.tdiv y)

/-- REM of R302. -/
def remS (a b : Word) : Word :=
  let x := a.toInt; let y := b.toInt
  BitVec.ofInt 64 (if y = 0 then x else if x = -(2 ^ 63) ∧ y = -1 then 0 else x - y * x.tdiv y)

/-- DIVU of R302. -/
def divU (a b : Word) : Word :=
  BitVec.ofNat 64 (if b.toNat = 0 then 2 ^ 64 - 1 else a.toNat / b.toNat)

/-- REMU of R302. -/
def remU (a b : Word) : Word :=
  BitVec.ofNat 64 (if b.toNat = 0 then a.toNat else a.toNat - b.toNat * (a.toNat / b.toNat))

/-- Leading zero bits of a 64-bit value (R301). -/
def clz64 (a : Word) : Nat := if a.toNat = 0 then 64 else 63 - Nat.log2 a.toNat

/-- Trailing zero bits of the low n bits of x, counted from bit i. -/
def ctzFrom : Nat → Nat → Nat
  | 0, _ => 0
  | n + 1, x => if x % 2 = 1 then 0 else 1 + ctzFrom n (x / 2)

/-- Trailing zero bits of a 64-bit value (R301). -/
def ctz64 (a : Word) : Nat := ctzFrom 64 a.toNat

/-- Shift amount of a register shift: uint(b[5:0]) (R301). -/
def shAmt (b : Word) : Nat := b.toNat % 64

end Sys2Proof.Machine
end

