-- ==== Sys2Proof/Machine/SeqMem.lean ====
section
/-! DEFINITION. The sequencer's memory words: loads, stores, atomics, exact cells and fences (R298, R299, R308 to
R314), and what a response does at the sequencer (R104, R106, R152). -/

namespace Sys2Proof.Machine

open Host (Outcome)

/-- Distance of a bank from stop 19 (R298). -/
def seqDist (bank : Nat) : Nat := if bankStop bank ≤ 9 then bankStop bank + 1 else 19 - bankStop bank

/-- Lanes of the request to and the reply from a bank: cw7 is 7 and cc7 is 15 (R298). -/
def seqLanes (bank : Nat) : Nat × Nat := if bankStop bank ≤ 9 then (7, 15) else (15, 7)

/-- Cycle, after the issue, in which an access to the own scratchpad is performed (R298). -/
def ownPerform (k : AccKind) (d : Nat) : Nat := match k with
  | .atomic _ _ _ | .faddx _ _ => d + 2
  | _ => d

/-- Latency L of the result of an access to the own scratchpad (R298). -/
def ownUsable (k : AccKind) (d : Nat) : Nat := match k with
  | .atomic _ _ _ => 2 * d + 4
  | .xrd => 2 * d + 6
  | _ => 2 * d + 2

/-- Retirement of an access to the own scratchpad, after the issue (R298). -/
def ownRetire (k : AccKind) (d : Nat) : Nat := match k with
  | .write _ => d
  | .faddx _ _ => d + 2
  | .atomic _ _ _ => 2 * d + 3
  | .xrd => 2 * d + 5
  | _ => 2 * d + 1

/-- Ring and bank-port claims of an access to the own scratchpad issued at cycle i (R298). -/
def ownClaims (k : AccKind) (bank i : Nat) : List Claim :=
  let d := seqDist bank
  let (out, back) := seqLanes bank
  let req := laneClaims out 19 i 1 d
  match k with
  | .write _ => req ++ [wrClaim bank (i + d) 1]
  | .faddx _ _ => req ++ [rdClaim bank (i + d) 1, wrClaim bank (i + d + 2) 1]
  | .atomic _ _ _ => req ++ [rdClaim bank (i + d) 1, wrClaim bank (i + d + 2) 1] ++ laneClaims back (bankStop bank) (i + d + 3) 1 d
  | _ => req ++ [rdClaim bank (i + d) 1] ++ laneClaims back (bankStop bank) (i + d + 1) 1 d

/-- Whether an access with an identity is not yet performed (R247). -/
def State.unperformed (s : State) (id : Nat) : Bool :=
  s.reqs.any fun r => r.id == id && !r.done && !(r.due != 0 && decide (r.due ≤ s.chron))

/-- Whether the fences issued before let an access issue: kind 0 acq and 2 full order every later access, kind 1
rel every later write (R250, R255). -/
def State.fenceClear (s : State) (c : CoreIx) (k : AccKind) : Bool :=
  (s.core c).seq.fenceHold.all fun f => !(f.1 != 1 || k.writes) || f.2.all fun id => !s.unperformed id

/-- Whether the address or the store data of an access of the sequencer is tainted (R254). -/
def Seq.tainted (q : Seq) : Instr → Bool
  | .ld _ _ a _ _ | .ldc _ _ a _ _ | .xrd _ _ a _ _ _ | .cpy _ _ a _ _ _ _ | .cpyf _ _ a _ _ _ _ | .cpyw _ _ a _ _ _ _
  | .sort _ _ a _ _ _ _ | .pack _ _ a _ _ _ _ => q.tnt a
  | .st _ d a _ _ => q.tnt d || q.tnt a
  | .faddx _ a b _ _ | .cpyr _ _ a b _ _ _ => q.tnt a || q.tnt b
  | .amoAdd _ _ a b _ _ | .amoAnd _ _ a b _ _ | .amoOr _ _ a b _ _ | .amoXor _ _ a b _ _ | .amoMin _ _ a b _ _ | .amoMax _ _ a b _ _
  | .amoMinu _ _ a b _ _ | .amoMaxu _ _ a b _ _ | .amoSwap _ _ a b _ _ | .amoCas _ _ a b _ _ => q.tnt a || q.tnt b
  | _ => false

/-- Whether a word is an LDC. -/
def isLdc : Instr → Bool
  | .ldc .. => true
  | _ => false

/-- Whether an LDC before it, not yet performed, holds a tainted access: one that would be performed only after the cycle the access would
be, any when that cycle is not known (the taint edge of R250, R254). -/
def State.ldcHolds (s : State) (c : CoreIx) (i : Instr) (due : Option Nat) : Bool :=
  (s.core c).seq.tainted i && s.reqs.any fun r => r.core == c && r.who == 0 && r.ldc && s.unperformed r.id && (match due with
    | some t => r.due == 0 || decide (t < r.due)
    | none => true)

/-- The sequencer with a register marked pending until a cycle (R297). -/
def Seq.pend (q : Seq) (d : Fin 32) (t : Nat) : Seq := if d = 0 then q else { q with gReady := q.gReady.set d t }

/-- The sequencer with the registers a response writes marked pending. -/
def Seq.pendDest (q : Seq) (x : Dest) (t : Nat) : Seq :=
  match x with
  | .gpr d _ _ pair => if pair then (q.pend d t).pend (d + 1) t else q.pend d t
  | .xrd d _ _ _ => q.pend d t
  | .cmd x => if x.op = 0x34 ∨ x.op = 0x35 then q.pend x.d never else q.pend x.d t
  | _ => q

/-- One memory access of the sequencer at a virtual address, after the checks of R308, R310 or R312: to the own
scratchpad (R298), to a pinned page in a fixed leg, or elsewhere in a free leg, which holds later issue until its
response (R299). `s` is the state after the take. -/
def State.memAccess (s : State) (i : Instr) (h : Hdr) (pc : Int) (addr : Word) (n align : Nat) (k : AccKind) (x : Dest)
    (scope : Nat) : Verdict :=
  let c := s.cur
  let q := s.core c
  let wr := k.wr
  let at_ := k.right == .atomic
  let va := addr.toNat
  if 2 ^ 52 ≤ va then .fault 0x30 va 0 wr at_ 0xFFFF
  else if va % align ≠ 0 then .fault 0x13 va 0 wr at_ 0xFFFF
  else match translate q.ctl.rng (!q.seq.sup) va n k.right with
    | .error code => .fault code va 0 wr at_ 0xFFFF
    | .ok ia =>
      if (ia / 2 ^ 52 = 1 ∨ ia / 2 ^ 52 = 2) ∧ ¬ k.portable then .fault 0x32 va ia wr at_ 0xFFFF
      else match s.issuerCheck (s.partOf c) ia with
        | some code => .fault code va ia wr at_ 0xFFFF
        | none =>
          if ¬ s.fenceClear c k then .wait
          else
            let r : Req :=
              { id := 0, who := 0, core := c, part := s.partOf c, kind := k, ia := ia, va := va, n := n, dest := x,
                fixed := s.fixedLeg c, scope := scope, pc := pc, issued := s.chron, took := h.t, ldc := isLdc i }
            if isOwnSpad c ia then
              let bank := bankOf ia
              let d := seqDist bank
              let cs := ownClaims k bank s.chron
              if s.ldcHolds c i (some (s.chron + ownPerform k d)) then .wait
              else match q.pipe.hitAt cs with
              | some u => .late u
              | none =>
                let (id, s) := s.addReq { r with own := true, due := s.chron + ownPerform k d }
                let s := (s.claim c cs).sched (s.chron + ownPerform k d) (.accessResponse id)
                let s := s.updSeq fun q => q.pendDest x (s.chron + ownUsable k d)
                .ok (if h.g then s.giveAt c .seq i pc (ownRetire k d) else s)
            else if s.fixedLeg c then
              match s.partOf c with
              | none => .wait
              | some p =>
                if ia / 2 ^ 52 ≠ 0 ∨ (s.pinOf p ia).isNone ∨ s.ldcHolds c i (some (s.chron + 191)) then .wait
                else
                  let lat := if k == .xrd then 196 else 192
                  let due := s.chron + (if x == .none_ then 192 else 191)
                  let (id, s) := s.addReq { r with due := due }
                  let s := s.sched due (.pageWalk id)
                  let s := s.updSeq fun q => q.pendDest x (s.chron + lat)
                  .ok (if h.g then s.giveAt c .seq i pc lat else s)
            else if s.ldcHolds c i none then .wait
            else
              let (id, s) := s.addReq r
              let (lat, s) := s.drawWalk
              let s := s.sched (s.chron + lat) (.pageWalk id)
              let s := s.updSeq fun q => { q.pendDest x (s.chron + lat) with hold := some id }
              .ok (if h.g then s.giveAt c .seq i pc lat else s)

/-- LD: gd := sext(mem(ia, n), 64) with the taint of ga (R308). -/
def execLd (h : Hdr) (d a : Fin 32) (z : BitVec 2) (imm : BitVec 9) (s : State) : Outcome State Fault Refusal :=
  let pc := s.me.seq.q.pc
  let n := 2 ^ z.toNat
  .next (s.seqIssue (.ld h d a z imm) h [d, a] false true 0 fun s =>
    s.memAccess (.ld h d a z imm) h pc (memAddr (s.me.seq.gpr a) z imm) n n .read (.gpr d n (s.me.seq.tnt a) false) 1)

/-- LDC: as LD, with taint 1 (R308, R254). -/
def execLdc (h : Hdr) (d a : Fin 32) (z : BitVec 2) (imm : BitVec 9) (s : State) : Outcome State Fault Refusal :=
  let pc := s.me.seq.q.pc
  let n := 2 ^ z.toNat
  .next (s.seqIssue (.ldc h d a z imm) h [d, a] false true 0 fun s =>
    s.memAccess (.ldc h d a z imm) h pc (memAddr (s.me.seq.gpr a) z imm) n n .read (.gpr d n true false) 1)

/-- ST: mem(ia, n) := low(gd, 8n) (R308). -/
def execSt (h : Hdr) (d a : Fin 32) (z : BitVec 2) (imm : BitVec 9) (s : State) : Outcome State Fault Refusal :=
  let pc := s.me.seq.q.pc
  let n := 2 ^ z.toNat
  .next (s.seqIssue (.st h d a z imm) h [d, a] false true 0 fun s =>
    s.memAccess (.st h d a z imm) h pc (memAddr (s.me.seq.gpr a) z imm) n n (.write (toBytes n (s.me.seq.gpr d).toNat)) .none_ 1)

/-- The registers an AMO reads and writes: gd, ga, gb, and the odd registers of the pairs with `.q` (R310). -/
def amoRegs (d a b : Fin 32) (q : Bool) : List (Fin 32) := if q then [d, d + 1, a, b, b + 1] else [d, a, b]

/-- A register operand of 4, 8 or 16 bytes (R310). -/
def amoArg (q : Seq) (r : Fin 32) (n : Nat) : Nat :=
  if n = 16 then (q.gpr r).toNat + 2 ^ 64 * (q.gpr (r + 1)).toNat else (q.gpr r).toNat % 2 ^ (8 * n)

/-- An AMO word: gd := old, mem := new(old, b, e), atomically (R310). -/
def State.amo (s : State) (i : Instr) (h : Hdr) (fn : AtomFn) (d a b : Fin 32) (x : BitVec 2) (sc : BitVec 4) : State :=
  let pc := s.me.seq.q.pc
  let n := 4 * 2 ^ x.toNat
  s.seqIssue i h (amoRegs d a b (n == 16)) false true 0 fun s =>
    let q := s.me.seq
    s.memAccess i h pc (q.gpr a) n n (.atomic fn (amoArg q b n) (if fn = .cas then amoArg q d n else 0))
      (.gpr d n (q.tnt a) (n == 16)) sc.toNat

/-- AMO.add (R310). -/
def execAmoAdd (h : Hdr) (d a b : Fin 32) (x : BitVec 2) (sc : BitVec 4) (s : State) : Outcome State Fault Refusal :=
  .next (s.amo (.amoAdd h d a b x sc) h .add d a b x sc)

/-- AMO.and (R310). -/
def execAmoAnd (h : Hdr) (d a b : Fin 32) (x : BitVec 2) (sc : BitVec 4) (s : State) : Outcome State Fault Refusal :=
  .next (s.amo (.amoAnd h d a b x sc) h .and d a b x sc)

/-- AMO.or (R310). -/
def execAmoOr (h : Hdr) (d a b : Fin 32) (x : BitVec 2) (sc : BitVec 4) (s : State) : Outcome State Fault Refusal :=
  .next (s.amo (.amoOr h d a b x sc) h .or d a b x sc)

/-- AMO.xor (R310). -/
def execAmoXor (h : Hdr) (d a b : Fin 32) (x : BitVec 2) (sc : BitVec 4) (s : State) : Outcome State Fault Refusal :=
  .next (s.amo (.amoXor h d a b x sc) h .xor d a b x sc)

/-- AMO.min (R310). -/
def execAmoMin (h : Hdr) (d a b : Fin 32) (x : BitVec 2) (sc : BitVec 4) (s : State) : Outcome State Fault Refusal :=
  .next (s.amo (.amoMin h d a b x sc) h .min d a b x sc)

/-- AMO.max (R310). -/
def execAmoMax (h : Hdr) (d a b : Fin 32) (x : BitVec 2) (sc : BitVec 4) (s : State) : Outcome State Fault Refusal :=
  .next (s.amo (.amoMax h d a b x sc) h .max d a b x sc)

/-- AMO.minu (R310). -/
def execAmoMinu (h : Hdr) (d a b : Fin 32) (x : BitVec 2) (sc : BitVec 4) (s : State) : Outcome State Fault Refusal :=
  .next (s.amo (.amoMinu h d a b x sc) h .minu d a b x sc)

/-- AMO.maxu (R310). -/
def execAmoMaxu (h : Hdr) (d a b : Fin 32) (x : BitVec 2) (sc : BitVec 4) (s : State) : Outcome State Fault Refusal :=
  .next (s.amo (.amoMaxu h d a b x sc) h .maxu d a b x sc)

/-- AMO.swap (R310). -/
def execAmoSwap (h : Hdr) (d a b : Fin 32) (x : BitVec 2) (sc : BitVec 4) (s : State) : Outcome State Fault Refusal :=
  .next (s.amo (.amoSwap h d a b x sc) h .swap d a b x sc)

/-- AMO.cas (R310). -/
def execAmoCas (h : Hdr) (d a b : Fin 32) (x : BitVec 2) (sc : BitVec 4) (s : State) : Outcome State Fault Refusal :=
  .next (s.amo (.amoCas h d a b x sc) h .cas d a b x sc)

/-- FADDX: adds one term to the exact cell at ga (R312). -/
def execFaddx (h : Hdr) (a b : Fin 32) (x : BitVec 2) (sc : BitVec 4) (s : State) : Outcome State Fault Refusal :=
  let pc := s.me.seq.q.pc
  .next (s.seqIssue (.faddx h a b x sc) h [a, b] false true 0 fun s =>
    let q := s.me.seq
    s.memAccess (.faddx h a b x sc) h pc (q.gpr a) 128 128
      (.faddx x.toNat ((q.gpr b).toNat % 2 ^ fmtW (xfFmt x.toNat))) .none_ sc.toNat)

/-- XRD: gd := the reading of the exact cell at ga into a format (R313). -/
def execXrd (h : Hdr) (d a : Fin 32) (m : BitVec 3) (x : BitVec 2) (sc : BitVec 4) (s : State) : Outcome State Fault Refusal :=
  let pc := s.me.seq.q.pc
  .next (s.seqIssue (.xrd h d a m x sc) h [d, a] false true 0 fun s =>
    let q := s.me.seq
    s.memAccess (.xrd h d a m x sc) h pc (q.gpr a) 128 128 .xrd (.xrd d (xfFmt x.toNat) m.toNat (q.tnt a)) sc.toNat)

/-- Whether a release at a scope flushes a port: 6 and 7 (.lnk, .fab) the peer links, 8 (.sys) the host port (R256). -/
def scopeFlushes (sc port : Nat) : Bool := if sc = 8 then port == 48 else (sc == 6 || sc == 7) && port != 48

/-- Sends the zero-length read behind the last write on a port (R256): to its address, with its PASID, translated as it was. -/
def State.flushPort (s : State) (c : CoreIx) (who : Nat) (pc : Int) (x : SentWrite) : Nat × State :=
  let r : Req :=
    { id := 0, who := who, core := c, part := s.partOf c, kind := .zero, ia := x.ia, n := 0, dest := .flush x.port, pc := pc,
      sent := some x.port }
  let (id, s) := s.addReq r
  let s := s.upd c fun k => { k with pipe := { k.pipe with sentOn := k.pipe.sentOn.map fun y => if y.port = x.port then { y with flush := some id } else y } }
  let t : OutTlp :=
    { id := id, q := if x.port < 48 then fld x.ia 45 40 else 0, ia := if x.port < 48 then x.ia % 2 ^ 40 else x.ia, n := 0, pasid := x.pasid,
      translated := x.translated }
  let s := if h : x.port < 48 then
      let (s, dropped) := s.offer ⟨x.port, h⟩ t
      if dropped then (s.dropReq id).coreFault c who 0x61 pc else s
    else { s with hif := { s.hif with hostOut := s.hif.hostOut ++ [t] } }
  (id, s.sched (s.chron + cplTimeout) (.completionTimeout id))

/-- The flushes of a release at .lnk, .fab or .sys: for each port used since the last one, the zero-length read behind its writes, which
may be on its way already for another engine's release (R256). The answer lists their identities. -/
def State.flushPorts (s : State) (c : CoreIx) (who sc : Nat) (pc : Int) : State × List Nat :=
  ((s.core c).pipe.sentOn.filter fun x => scopeFlushes sc x.port).foldl (fun (acc : State × List Nat) x =>
    match x.flush with
    | some id => if acc.1.unperformed id then (acc.1, acc.2 ++ [id]) else
        let (id, s) := acc.1.flushPort c who pc x
        (s, acc.2 ++ [id])
    | none =>
      let (id, s) := acc.1.flushPort c who pc x
      (s, acc.2 ++ [id])) (s, [])

/-- FENCE: later accesses it orders wait for the earlier ones it orders; it retires, and gives, when those are
performed (R255, R256, R314). Kinds: 0 acq, 1 rel, 2 full. -/
def execFence (h : Hdr) (k : BitVec 2) (sc : BitVec 4) (s : State) : Outcome State Fault Refusal :=
  let pc := s.me.seq.q.pc
  .next (s.seqIssue (.fence h k sc) h [] false true 0 fun s =>
    let c := s.cur
    let before := (s.reqs.filter fun r => r.core == c && r.who == 0 && (k != 0 || r.kind.reads)).map (·.id)
    let (s, fl) := if k != 0 && !s.fixedLeg c then s.flushPorts c 0 sc.toNat pc else (s, [])
    let ids := before ++ fl
    let s := s.updSeq fun q => { q with fenceHold :=
      (q.fenceHold.filter fun f => f.2.any fun id => s.unperformed id) ++ (if ids.isEmpty then [] else [(k.toNat, ids)]) }
    .ok (if h.g then
        let (id, s) := s.newId
        s.launch c
          { id := id, eng := .seq, instr := .fence h k sc, pc := pc, issued := s.chron, doneAt := s.chron, give := true,
            giveTo := (s.me.ctl.seen s.chron).to_ 0, waits := ids ++ s.pendingOf c .seq }
      else s))

/-- The sequencer resumes issue after the response of the access it held for (R299). -/
def Seq.release (q : Seq) (id now : Nat) : Seq :=
  if q.hold = some id then { q with hold := none, q := { q.q with notBefore := now + 1 } } else q

/-- A response's value written to gd; its pending cycle stands (R308, R310). -/
def Seq.fill (q : Seq) (d : Fin 32) (v : Word) (t : Bool) : Seq := q.setG d v t q.gReady[d]

/-- What the data of an access does at the sequencer: the destination register is written (R308, R310, R313). -/
def State.seqFill (s : State) (c : CoreIx) (r : Req) : State :=
  let s := s.upd c fun k => { k with seq := k.seq.release r.id s.chron }
  let lat := if r.own || r.fixed then none else some s.chron
  let now (q : Seq) (d : Fin 32) : Seq := match lat with
    | some t => q.pend d t
    | none => q
  match r.dest with
  | .gpr d n t pair =>
    let v := ofBytes r.result
    let lo := BitVec.ofNat 64 v
    let hi := BitVec.ofNat 64 (v / 2 ^ 64)
    if pair then
      s.upd c fun k => { k with seq := (now ((now k.seq d).fill d lo t) (d + 1)).fill (d + 1) hi t }
    else s.upd c fun k => { k with seq := (now k.seq d).fill d (sext64 (8 * min n 8) v) t }
  | .xrd d f m t =>
    match cellOf r.result with
    | none => s
    | some (l, _) =>
      let x := l.read f m 0
      let s := s.upd c fun k => { k with seq := (now k.seq d).fill d (BitVec.ofNat 64 x.code) t }
      s.countStats c x.stats
  | _ => s

/-- Drops the give of a word whose access faulted: it never retires (R182). -/
def Pipe.cancel (k : Pipe) (id : Nat) : Pipe := { k with infl := k.infl.filter fun w => !w.waits.contains id }

/-- The other load of a CPYR, of its block or of its record (R407). -/
def State.mate (s : State) (r : Req) : Option Req := match r.dest with
  | .cmd x => s.reqs.find? fun q => q.core == r.core && (match q.dest with
      | .cmd y => y.num == x.num && y.isRec != x.isRec
      | _ => false)
  | _ => none

/-- The other load of a CPYR that faults goes with it: the word has no effect (R152, R407). -/
def State.dropMate (s : State) (c : CoreIx) (r : Req) : State := match s.mate r with
  | some q => (s.dropReq q.id).upd c fun k => { k with seq := k.seq.release q.id s.chron, pipe := k.pipe.cancel q.id }
  | none => s

/-- A fault response at the sequencer: a precise trap in user mode of a free leg, else as `seqFault` says (R106,
R152). 0x74 is a machine check of the partition (R103). -/
def State.seqRespFault (s : State) (c : CoreIx) (r : Req) (code entry level : Nat) : State :=
  let s := (s.upd c fun k => { k with seq := k.seq.release r.id s.chron, pipe := k.pipe.cancel r.id }).dropMate c r
  if code = 0x74 then (match s.partOf c with
    | some p => s.partFault p 0x74
    | none => s)
  else s.seqFault c code r.pc r.took r.va r.ia r.kind.wr (r.kind.right == .atomic) entry level

end Sys2Proof.Machine
end

