-- ==== Sys2Proof/Machine/SeqTok.lean ====
section
/-! DEFINITION. Meanings of NOP and IDLE (R269, R270), and of the sequencer's token, queue, leg and status words
(R315 to R323). -/

namespace Sys2Proof.Machine

open Host (Outcome)

/-- NOP of any engine: takes, retires in its issue cycle, gives (R269). -/
def execNop (h : Hdr) (s : State) : Outcome State Fault Refusal :=
  .next (match s.eng with
    | .seq => s.seqIssue (.nop h) h [] false false 0 .ok
    | e => s.engIssue e (.nop h) h false 0 .ok)

/-- IDLE of AXU, BKE or VEC: the next word counts its wait from i + 1 + count; it retires, and gives, at i + count
(R270). -/
def execIdle (h : Hdr) (c : BitVec 21) (s : State) : Outcome State Fault Refusal :=
  let pc := (s.me.queue s.eng).pc
  .next (s.engIssue s.eng (.idle h c) h false c.toNat fun s =>
    let s := s.updMe fun k =>
      let q := k.queue s.eng
      k.setQueue s.eng { q with base := q.base + c.toNat, idleEnd := s.chron + c.toNat }
    if h.g || c = 0 then .ok s
    else
      let (id, s) := s.newId
      .ok (s.launch s.cur { id := id, eng := s.eng, instr := .idle h c, pc := pc, issued := s.chron, doneAt := s.chron + c.toNat }))

/-- TKG: one give to the FIFO from SEQ to p, once every earlier SEQ access is performed (R315). -/
def execTkg (w : BitVec 3) (p : BitVec 4) (s : State) : Outcome State Fault Refusal :=
  let pc := s.me.seq.q.pc
  .next (s.seqIssue (.tkg w p) ⟨w, false, false⟩ [] false true 0 fun s =>
    let c := s.cur
    let (id, s) := s.newId
    .ok (s.launch c
      { id := id, eng := .seq, instr := .tkg w p, pc := pc, issued := s.chron, doneAt := s.chron, give := true,
        giveTo := p.toNat, waits := s.pendingOf c .seq }))

/-- TKT: one take from the FIFO from p to SEQ, or from a link token counter for p = 8 to 11 (R315). -/
def execTkt (w : BitVec 3) (p : BitVec 4) (s : State) : Outcome State Fault Refusal :=
  .next (s.seqIssue (.tkt w p) ⟨w, false, false⟩ [] false true 0 fun s =>
    let c := s.cur
    if !s.me.ctl.hasTok 0 p.toNat || (s.fixedLeg c && decide (8 ≤ p.toNat)) then .wait
    else .ok (s.take c 0 p.toNat))

/-- The value TKQ reads for a selector (R316). -/
def tkqVal (k : Ctl) (sel : Nat) : Nat :=
  if bitAt sel 10 then
    ((k.ltc[sel % 4]?).getD 0).toNat
  else
    let p := fld sel 2 0
    let q := fld sel 6 4
    if p ≤ 4 ∧ q ≤ 4 ∧ p ≠ q then k.occ (fifoIx p q) else 0

/-- TKQ (R316). -/
def execTkq (w : BitVec 3) (d a : Fin 32) (imm : BitVec 11) (s : State) : Outcome State Fault Refusal :=
  .next (s.seqIssue (.tkq w d a imm) ⟨w, false, false⟩ [d, a] false true 0 fun s =>
    .ok (s.writeG d (BitVec.ofNat 64 (tkqVal s.me.ctl ((imm ||| (s.me.seq.gpr a).setWidth 11).toNat))) false 1))

/-- The engines a QSTART or QSTOP names: bit 0 AXU, 1 BKE, 2 VEC of imm OR ga (R317). -/
def queueMask (m : BitVec 3) (a : Word) : List Eng :=
  let x := m ||| a.setWidth 3
  (if x.getLsb 0 then [.axu] else []) ++ (if x.getLsb 1 then [.bke] else []) ++ (if x.getLsb 2 then [.vec] else [])

/-- QSTART on one queue at cycle i: a stopped queue runs from its issue pointer, its next word at i + 1 + W; a
running IDLE keeps the count it had left when the queue stopped (R317, R270). -/
def Queue.start (q : Queue) (i : Nat) : Queue :=
  if q.eff i = .stopped then
    let left := match q.stopAt with
      | some t => q.idleEnd - t
      | none => 0
    { q with st := .running, stopAt := none, base := i + 1 + left, idleEnd := i + left, notBefore := 0, progress := i, lookStep := 0 }.settle
  else q

/-- QSTOP on one queue at cycle i: it issues no word after cycle i, but for those a soft stop has it issue again; a queue already stopped
is left as it is (R317). -/
def Queue.stop (q : Queue) (i : Nat) : Queue :=
  if (q.st = .running ∨ q.st = .soft) ∧ q.stopAt = none then { q with stopAt := some i } else q

/-- QSTART (R317). -/
def execQstart (h : Hdr) (a : Fin 32) (m : BitVec 3) (s : State) : Outcome State Fault Refusal :=
  .next (s.seqIssue (.qstart h a m) h [a] false false 0 fun s =>
    .ok (s.updMe fun k => (queueMask m (k.seq.gpr a)).foldl (fun k e => k.setQueue e ((k.queue e).start s.chron)) k))

/-- QSTOP (R317). -/
def execQstop (h : Hdr) (a : Fin 32) (m : BitVec 3) (s : State) : Outcome State Fault Refusal :=
  .next (s.seqIssue (.qstop h a m) h [a] false false 0 fun s =>
    .ok (s.updMe fun k => (queueMask m (k.seq.gpr a)).foldl (fun k e => k.setQueue e ((k.queue e).stop s.chron)) k))

/-- LDQ slots filled and not popped (R318). -/
def Axu.ldqFilled (k : Axu) (now : Nat) : Nat :=
  (k.ldq.filter fun e => match e.filled with
    | some t => decide (t < now)
    | none => false).length

/-- Slots of the STQ that hold an address or data: those not yet performed (R318, R326). -/
def Axu.stqUsed (k : Axu) : Nat := max k.stqA.length k.stqD.length - (k.stqA.filter fun x => x.done).length

/-- The value QSTAT reads (R318). -/
def State.qstat (s : State) (c : CoreIx) (e : Nat) : Nat :=
  let k := s.core c
  let base (q : Queue) : Nat := (q.eff s.chron).code + 2 ^ 32 * (q.pc.toNat % 2 ^ 32)
  match e with
  | 1 => base k.axu.q + 2 ^ 16 * (k.axu.ldqFilled s.chron) + 2 ^ 24 * k.axu.stqUsed
  | 2 => base k.bke.q
  | 3 => base k.vec.q
  | 4 => k.cpe.outstanding
  | _ => 0

/-- QSTAT (R318). -/
def execQstat (h : Hdr) (d a : Fin 32) (e : BitVec 3) (s : State) : Outcome State Fault Refusal :=
  .next (s.seqIssue (.qstat h d a e) h [d, a] false false 0 fun s =>
    .ok (s.writeG d (BitVec.ofNat 64 (s.qstat s.cur ((e ||| (s.me.seq.gpr a).setWidth 3).toNat))) false 1))

/-- The cores of the group of a core for a fix of a scope: 1 cluster, 2 stack, 3 and 4 the partition (R128). -/
def State.groupOf (s : State) (c : CoreIx) (scope : Nat) : List CoreIx :=
  match s.partOf c with
  | none => []
  | some p => (s.coresOf p).filter fun x => match scope with
    | 1 => clusterOf x == clusterOf c
    | 2 => stackOf x == stackOf c
    | _ => true

/-- The index of that group (R128). -/
def groupIx (c : CoreIx) (scope : Nat) : GroupIx :=
  match scope with
  | 1 => ⟨c.val / 6, by omega⟩
  | 2 => ⟨48 + c.val / 36, by omega⟩
  | _ => 56

/-- Whether the leg a core's FIX names differs from that of a core of its group already arrived, or a core of the
group has executed HALT (R132). -/
def State.fixClash (s : State) (c : CoreIx) (scope leg : Nat) : Bool :=
  (s.groupOf c scope).any fun x =>
    x != c && (match (s.core x).seq.fix with
      | some f => f.arrived.isSome && f.leg != leg
      | none => false)

/-- FIX: the core waits at the fix that starts leg n = ga + imm11; CORE_ARRIVAL follows (R319, R129, R132). -/
def execFix (w : BitVec 3) (a : Fin 32) (imm : BitVec 11) (s : State) : Outcome State Fault Refusal :=
  .next (s.seqIssue (.fix w a imm) ⟨w, false, false⟩ [a] false true 0 fun s =>
    let c := s.cur
    let q := s.me.seq
    let n := (q.gpr a).toNat + imm.toNat
    match s.partOf c with
    | none => .plain 0x43
    | some p => match (s.part p).leg n with
      | none => .plain 0x43
      | some d =>
        if q.sup ∨ s.fixClash c d.scope n then .plain 0x43
        else .ok ((s.updSeq fun q => { q with fix := some { leg := n, since := s.chron } }).sched s.chron .coreArrival))

/-- SIZE: SIZECLS := min(15, ga + imm11) (R320). -/
def execSize (h : Hdr) (a : Fin 32) (imm : BitVec 11) (s : State) : Outcome State Fault Refusal :=
  .next (s.seqIssue (.size h a imm) h [a] false false 0 fun s =>
    .ok (s.updMe fun k => { k with ctl := { k.ctl with sizecls := BitVec.ofNat 4 (min 15 ((k.seq.gpr a).toNat + imm.toNat)) } }))

/-- CHRON: gd := the chronometer of the issue cycle (R321, R45). -/
def execChron (h : Hdr) (d : Fin 32) (s : State) : Outcome State Fault Refusal :=
  let t := s.chron
  .next (s.aluImm (.chron h d) h d 1 fun _ => BitVec.ofNat 64 t)

/-- The leg state LEGQ reads (R322). -/
def State.legq (s : State) (c : CoreIx) : Nat :=
  let k := (s.core c).ctl
  let (cls, nd) := match s.partOf c with
    | some p =>
      let q := s.part p
      (q.pwrcls.toNat, match q.runSlot with
        | some j => q.slots[j].ndcyc
        | none => false)
    | none => (0, false)
  k.legno.toNat + 2 ^ 16 * k.course.toNat + 2 ^ 19 * ofBool (s.fixedLeg c) + 2 ^ 20 * k.health.toNat + 2 ^ 22 * cls
    + 2 ^ 24 * k.sizecls.toNat + 2 ^ 28 * ofBool nd

/-- LEGQ (R322). -/
def execLegq (h : Hdr) (d : Fin 32) (s : State) : Outcome State Fault Refusal :=
  let v := s.legq s.cur
  .next (s.aluImm (.legq h d) h d 1 fun _ => BitVec.ofNat 64 v)

/-- The field of an entry HQRY returns (R323). -/
def hqryVal (e : BitVec 512) (f : Nat) : Word :=
  if f = 0 then BitVec.ofNat 64 (entF e 0 63 0)
  else if f = 1 then BitVec.ofNat 64 (entBase e)
  else if f < 8 then BitVec.ofNat 64 (entBound e (f - 2))
  else BitVec.ofInt 64 (entStr e (f - 8))

/-- HQRY: a field of an object-table entry as the core's handle cache holds it (R323, R189). -/
def execHqry (h : Hdr) (d a : Fin 32) (f : BitVec 6) (s : State) : Outcome State Fault Refusal :=
  .next (s.seqIssue (.hqry h d a f) h [d, a] false false 3 fun s =>
    let x := (s.me.seq.gpr a).toNat % 2 ^ 16
    match s.handle s.cur x with
    | .hit e s => .ok (s.writeG d (hqryVal e f.toNat) false 4)
    | .wait => .fill x
    | .deviation => .wait
    | .fault code entry level => .fillFault code entry level x)

end Sys2Proof.Machine
end

