-- ==== Sys2Proof/Machine/Sys.lean ====
section
/-! DEFINITION. Meanings of the system words: control registers, traps, HALT, HSET, the scan path, the row bus
(R421 to R428). -/

namespace Sys2Proof.Machine

open Host (Outcome)

/-- CRR: gd := the control page word in the executing mode's view, usable after 2 cycles (R422). -/
def execCrr (h : Hdr) (d : Fin 32) (off : BitVec 8) (s : State) : Outcome State Fault Refusal :=
  let o := off.toNat * 8
  .next (s.seqIssue (.crr h d off) h [d] (supOnly o) false 1 fun s =>
    .ok (s.writeG d (BitVec.ofNat 64 (s.ctlRead s.cur s.me.seq.sup o)) false 2))

/-- A CRW to a row window: it applies at once when no row of the old BMASK is open; otherwise the rows are
precharged first and the sequencer issues nothing until it applies; in a fixed leg that is a deviation (R422, R99). -/
def State.crwRwin (s : State) (i : Instr) (h : Hdr) (pc : Int) (o v : Nat) : Verdict :=
  let c := s.cur
  let w : Fin 4 := Fin.ofNat 4 ((o - 0x600) / 16)
  let hi := o / 8 % 2 == 1
  let k := s.col c
  let bs := k.openIn s.me.ctl.rwin[w].bmask s.chron
  if bs.isEmpty then
    let s := s.rwinApply c w hi v
    .ok (if h.g then s.giveAt c .seq i pc 0 else s)
  else if s.fixedLeg c then .wait
  else
    let t := k.closeCycle bs s.chron
    let s := s.closeRows c bs s.chron
    let s := (s.updSeq fun q => { q with hold := some 0 }).sched t (.rwinApply c w hi (BitVec.ofNat 64 v))
    .ok (if h.g then s.giveAt c .seq i pc (t - s.chron) else s)

/-- CRW: writes the control page word in the executing mode's view, in the issue cycle (R422). -/
def execCrw (h : Hdr) (a : Fin 32) (off : BitVec 8) (s : State) : Outcome State Fault Refusal :=
  let o := off.toNat * 8
  let pc := s.me.seq.q.pc
  .next (s.seqIssue (.crw h a off) h [a] (supOnly o) true 0 fun s =>
    let v := (s.me.seq.gpr a).toNat
    if 0x600 ≤ o ∧ o < 0x640 then s.crwRwin (.crw h a off) h pc o v
    else
      let s := if o = 0x680 then (if bitAt v 8 ∧ s.me.axu.soft.isSome then s.sched s.chron .resume else s)
        else
          let now := s.chron
          s.updMe fun k =>
            let k := if (o = 0x100 ∨ o = 0x108) ∧ k.vec.modeOld.map (·.1) ≠ some now then
                { k with vec := { k.vec with modeOld := some (now, k.ctl.vsh, k.ctl.vmd) } } else k
            let k := if o = 0x050 then { k with ctl := { k.ctl with tkselOld := some (now, k.ctl.tksel) } } else k
            let k := if 0x300 ≤ o ∧ o < 0x390 then { k with stat := k.stat.open_ now } else k
            k.ctlWrite k.seq.sup o v
      .ok (if h.g then s.giveAt s.cur .seq (.crw h a off) pc 0 else s))

/-- TRAP n: enters the handler with EPC the word after it and CAUSE 0x80 + n; a deviation in a fixed leg (R423). -/
def execTrap (h : Hdr) (n : BitVec 7) (s : State) : Outcome State Fault Refusal :=
  let pc := s.me.seq.q.pc
  .next (s.seqIssue (.trap h n) h [] false false 0 fun s =>
    if s.fixedLeg s.cur then .wait
    else .ok (s.updSeq fun q => q.trap s.chron (0x80 + n.toNat) (pc + 4) false))

/-- SRET: mode := PMODE and pc := EPC in one step (R424). -/
def execSret (h : Hdr) (s : State) : Outcome State Fault Refusal :=
  .next (s.seqIssue (.sret h) h [] true false 0 fun s => .ok (s.updSeq fun q => q.sret s.chron))

/-- Whether a core's AXU, BKE and VEC are stopped or at rest with every word retired and no CPE command is
outstanding (R425, R129). -/
def Core.quiet (k : Core) (now : Nat) : Bool :=
  let rest (q : Queue) : Bool := q.eff now == .stopped || q.eff now == .rest
  rest k.axu.q && rest k.bke.q && rest k.vec.q && k.axu.gen.isEmpty && k.axu.again.isEmpty && k.vec.replay.isEmpty
    && k.pipe.infl.all (fun w => w.eng == .seq) && k.cpe.cmds.isEmpty && k.cpe.follow.isEmpty

/-- Loads of the blocks of commands a core has issued that have not entered its copy engine (R407). -/
def State.cmdLoads (s : State) (c : CoreIx) : List Req := s.reqs.filter fun r => r.core == c && (match r.dest with
  | .cmd y => !y.isRec
  | _ => false)

/-- Whether a core's engines are quiet and no command is outstanding, one whose block is on its way among them (R425, R129). -/
def State.coreQuiet (s : State) (c : CoreIx) : Bool := (s.core c).quiet s.chron && (s.cmdLoads c).isEmpty

/-- Whether another core of the partition waits at a fix whose group holds the core (R132). -/
def State.fixWaiting (s : State) (c : CoreIx) : Bool :=
  match s.partOf c with
  | none => false
  | some p => (s.coresOf p).any fun x => x != c && (match (s.core x).seq.fix with
      | some f => (match (s.part p).leg f.leg with
        | some d => (s.groupOf x d.scope).contains c
        | none => false)
      | none => false)

/-- HALT: ends the sequencer with a value once its engines are quiet; in a fixed leg they must be so at issue; a
fix that waits for the core is fix error 0x43 (R425, R132). -/
def execHalt (h : Hdr) (a : Fin 32) (s : State) : Outcome State Fault Refusal :=
  let pc := s.me.seq.q.pc
  .next (s.seqIssue (.halt h a) h [a] false true 0 fun s =>
    let c := s.cur
    if s.fixWaiting c then .plain 0x43
    else if s.fixedLeg c ∧ ¬ s.coreQuiet c then .wait
    else
      let (id, s) := s.newId
      let s := s.updSeq fun q => { q with haltWait := some ((q.gpr a).setWidth 32, h.g) }
      .ok (s.launch c
        { id := id, eng := .seq, instr := .halt h a, pc := pc, issued := s.chron, doneAt := s.chron, give := h.g,
          giveTo := (s.me.ctl.seen s.chron).to_ 0, waits := s.pendingOf c .seq }))

/-- The bits of an entry's first doubleword that R187 does not show as 0. -/
def entryMask : Nat := 0x3F007FFFFF

/-- An entry as HSET writes it: bits R187 shows as 0 are 0 (R426). -/
def hsetBytes (bs : List Byte) : List Byte :=
  toBytes 8 (ofBytes (bs.take 8) &&& entryMask) ++ toBytes 8 (ofBytes ((bs.drop 8).take 8) % 2 ^ 56) ++ (bs.drop 16).take 48

/-- HSET: writes the 64 bytes at gb into object-table entry low(ga, 16); the sequencer issues nothing until it
retires; a deviation in a fixed leg (R426, R190). -/
def execHset (h : Hdr) (a b : Fin 32) (s : State) : Outcome State Fault Refusal :=
  let pc := s.me.seq.q.pc
  .next (s.seqIssue (.hset h a b) h [a, b] true true 0 fun s =>
    if s.fixedLeg s.cur then .wait
    else
      let id := s.nextId
      match s.memAccess (.hset h a b) h pc (s.me.seq.gpr b) 64 64 .read (.hset ((s.me.seq.gpr a).toNat % 2 ^ 16)) 1 with
      | .ok s => .ok (s.updSeq fun q => { q with hold := some id })
      | x => x)

/-- Whether an entry is pinned in the handle caches (R187). -/
def entPinned (e : BitVec 512) : Bool := entF e 0 16 16 == 1

/-- Makes an entry part of a core's handle cache after a write of the table: the entries marked pinned change with it, and so which of
them the 1,024 slots hold; an unpinned copy takes the new entry, or goes when it is now pinned (R189, R190). -/
def Core.hcSet (k : Core) (h : Nat) (e : BitVec 512) : Core :=
  let pin := k.hcPinned.filter fun x => x.1 != h
  let k := { k with hcPinned := if entPinned e then tput pin h e else pin }
  { k with hcUnpinned := (k.hcUnpinned.map fun x => if x.1 = h then (h, e) else x).filter fun x => (tget k.pinned x.1).isNone }

/-- Writes an object-table entry through the device table, without the leaf rights check, in memory or at the host, and every cache of
the partition (R92, R186, R190). The answer is the walk's when it is refused or faults. -/
def State.tableWrite (s : State) (p : PartIx) (h : Nat) (bs : List Byte) : State × Option Walk :=
  let e := BitVec.ofNat 512 (ofBytes bs)
  let caches (s : State) : State := (s.coresOf p).foldl (fun s c => s.upd c fun k => k.hcSet h e) s
  match s.walk p (64 * h) .write false with
  | .mem key => (caches { s with memory := writeBytes s.memory key bs }, none)
  | .host addr => (caches (s.postFor p addr bs), none)
  | w => (s, some w)

/-- What the data of an HSET's read does: the table and the caches take the entry; a refusal is retried, a fault is
the sequencer's; a refusal queues the promotion R103 asks for (R426, R105). -/
def State.hsetFill (s : State) (c : CoreIx) (r : Req) (h : Nat) : State :=
  match s.partOf c with
  | none => s.dropReq r.id
  | some p => match s.tableWrite p h (hsetBytes r.result) with
    | (s, none) => (s.dropReq r.id).upd c fun k => { k with seq := k.seq.release r.id s.chron }
    | (s, some (.refuse hint pr)) => (s.promote p pr).schedC (s.chron + 64 * hint) c (.accessResponse r.id)
    | (s, some (.fault code e l)) => (s.dropReq r.id).seqRespFault c { r with ia := 64 * h, va := 0 } code e l
    | (s, some _) => s.dropReq r.id

/-- The peer link that holds a port, if an enabled one does (R69). -/
def Fabric.linkOf (f : Fabric) (p : Fin 48) : Option (LinkIx × Nat) :=
  (List.finRange 48).findSome? fun l =>
    let k := f.links[l]
    if k.en then ((k.mem.toList.take (2 ^ k.nmem.toNat)).findIdx? (fun m => m.toNat == p.val)).map fun i => (l, i) else none

/-- STATE code of a port; an UP port is FROZEN while the freeze wire is asserted (R69, R65). -/
def portStateCode (st : PortState) (frozen : Bool) : Nat :=
  match st with
  | .dark => 0 | .training => 1 | .up => if frozen then 4 else 2 | .down => 3

/-- The word at offset 0x00 of a port's block; 48 is the host port (R69). -/
def State.portWord (s : State) (i : Nat) : Nat :=
  let frz := s.frzCtl || s.frzMsg
  if h : i < 48 then
    let k := s.fab.ports[i]
    let (l, m) := match s.fab.linkOf ⟨i, h⟩ with
      | some x => (x.1.val, 1)
      | none => (0, 0)
    portStateCode k.st frz + 8 * k.width.toNat + 32 * l + 2048 * m + 65536 * k.laneok.toNat
  else
    let k := s.hif.hostPort
    portStateCode k.st frz + 8 * k.width.toNat + 65536 * k.laneok.toNat

/-- The 64-bit scan word at a scan address (R165). -/
def State.scan (s : State) (addr : Nat) : Nat :=
  let cls := fld addr 31 24
  let i := fld addr 23 12
  let w := fld addr 11 0
  match cls with
  | 1 => if i = 0 ∧ w = 0 then s.chron % 2 ^ 64 else 0
  | 2 =>
    if 48 < i then 0
    else
      let lk := if h : i < 48 then s.fab.linkOf ⟨i, h⟩ else none
      match w with
      | 0 => s.portWord i
      | 1 => (lk.map fun x => s.fab.links[x.1].txSeq.toNat).getD 0
      | 2 => (lk.map fun x => s.fab.links[x.1].rxNext.toNat).getD 0
      | 3 =>
        let sent := if h : i < 48 then s.fab.ports[i].wasUp else s.hif.hostPort.wasUp
        if sent then Config.unackedFlits i s.chron else 0
      | _ => 0
  | 3 =>
    if h : i < 288 then
      let k := s.col ⟨i, h⟩
      match w with
      | 0 => (k.nextSlot s.chron).1
      | 1 => (k.nextSlot s.chron).2
      | 2 => ofBool k.hot
      | _ => 0
    else 0
  | _ => 0

/-- SCANR: gd := the scan word at low(ga, 32), read at i + 63 and usable after 64 cycles (R427). -/
def execScanr (h : Hdr) (d a : Fin 32) (s : State) : Outcome State Fault Refusal :=
  let pc := s.me.seq.q.pc
  .next (s.seqIssue (.scanr h d a) h [d, a] true true 0 fun s =>
    let c := s.cur
    let (id, s) := s.newId
    let s := s.updSeq fun q => q.pend d (s.chron + 64)
    .ok (s.launch c
      { id := id, eng := .seq, instr := .scanr h d a, pc := pc, issued := s.chron, doneAt := s.chron + 63,
        lat := [(s.me.seq.gpr a).toNat % 2 ^ 32], give := h.g, giveTo := (s.me.ctl.seen s.chron).to_ 0, waits := if h.g then s.pendingOf c .seq else [] }))

/-- Cycles of a WREP operation (R428). -/
def wrepCycles (op : Nat) : Nat := match op with
  | 0 => 64 | 1 => 4096 | 2 => 64 | _ => 1

/-- WREP: acts on the own column's row bus once every bank is CLOSED; no RACT of the column issues until it
retires; a deviation in a fixed leg (R428). -/
def execWrep (h : Hdr) (a b : Fin 32) (s : State) : Outcome State Fault Refusal :=
  let pc := s.me.seq.q.pc
  .next (s.seqIssue (.wrep h a b) h [a, b] true true 0 fun s =>
    let c := s.cur
    if s.fixedLeg c ∨ ¬ (s.col c).allClosed s.chron ∨ s.chron < (s.col c).wrepEnd then .wait
    else
      let op := (s.me.seq.gpr b).toNat % 4
      let t := s.chron + wrepCycles op - 1
      let (id, s) := s.newId
      let s := s.updCol c fun k => { k with wrepEnd := t + 1 }
      .ok (s.launch c
        { id := id, eng := .seq, instr := .wrep h a b, pc := pc, issued := s.chron, doneAt := t, lat := [op, (s.me.seq.gpr a).toNat],
          give := h.g, giveTo := (s.me.ctl.seen s.chron).to_ 0, waits := if h.g then s.pendingOf c .seq else [] }))

/-- What WREP does at its retirement (R428, R33). -/
def State.wrepDone (s : State) (c : CoreIx) (op wire : Nat) : State :=
  let (ix, s) := s.draw
  let old := s.col c
  let new := match op with
    | 0 => old.mapWire wire
    | 1 => old.testWires c.val ix
    | 2 => { old with half := true }
    | _ => old
  let s := s.updCol c fun _ => new
  if new.spare = old.spare ∧ new.half = old.half then s else s.surveyChange true

end Sys2Proof.Machine
end

