-- ==== Sys2Proof/Machine/Stops.lean ====
section
/-! DEFINITION. Stop records and the stop area (R155 to R158). -/

namespace Sys2Proof.Machine

/-- The common header of a stop record (R156). -/
structure StopHdr where
  cause : Nat := 0
  eng : Nat
  orig : Bool := false
  soft : Bool := false
  fixed : Bool := false
  pre : Bool := false
  core : Nat
  leg : Nat := 0
  course : Nat := 0
  aux : Nat := 0
  fcycle : Nat
  scycle : Nat
  deriving DecidableEq, Repr

/-- The 24 bytes of the common header (R156). -/
def StopHdr.bytes (h : StopHdr) : List Byte :=
  toBytes 8 (putF 0 8 h.cause + putF 8 3 h.eng + putF 11 1 (ofBool h.orig) + putF 12 1 (ofBool h.soft)
      + putF 13 1 (ofBool h.fixed) + putF 14 1 (ofBool h.pre) + putF 16 9 h.core + putF 32 16 h.leg + putF 48 3 h.course
      + putF 56 8 h.aux)
    ++ toBytes 8 h.fcycle ++ toBytes 8 h.scycle

/-- NPOS: six nest positions, 16 bits each (R157). -/
def npos (n : Vector Nest 6) : Nat := (List.finRange 6).foldl (fun a i => a + putF (16 * i.val) 16 n[i].pos.toNat) 0

/-- TKIN of an engine: the occupancies of the four FIFOs into it, peers in ascending order (R157). -/
def Ctl.tkin (k : Ctl) (q : Nat) : Nat := (List.range 4).foldl (fun a i => a + putF (4 * i) 4 (k.occ (4 * q + i))) 0

/-- Bytes a command has written, a bit per sector of a window, and the window (R157, R414). -/
def Cmd.mask (x : Cmd) : Nat × Nat :=
  let f := x.faulted.foldl (fun (a : Option Nat) y => match a with
    | none => some y.q
    | some m => some (min m y.q)) none
  let win := (f.getD 0) / 256
  (((x.pre ++ x.written).filter fun q => q / 256 == win).foldl (fun a q => a ||| 2 ^ (q % 256)) 0, win)

/-- Bytes 0x38 to 0x7F of the record of an engine, as a number (R157); `at_` holds the nests and the loop-buffer index of a hard fault's
AXU access. -/
def Core.stopTail (k : Core) (e : Nat) (at_ : Option (Vector Nest 6 × Nat) := none) : Nat :=
  match e with
  | 0 => ofBool k.seq.sup + 2 * ofBool k.seq.inTrap
  | 1 =>
    let a := k.axu
    let ldqh := (a.ldq.head?.map (·.slot)).getD a.ldqT
    let stqh := (a.stqA.head?.map (·.slot)).getD ((a.stqDT + 64 - a.stqD.length) % 64)
    let (lf, lv, sf, sv, lb) := match a.soft with
      | some f =>
        let ix := if f.job.snap.queue.loops.isEmpty then 0 else ((f.job.pc - f.job.snap.queue.lbase) / 4).toNat
        if f.stq then (0, 0, f.slot, 1, ix) else (f.slot, 1, 0, 0, ix)
      | none => (0, 0, 0, 0, if a.q.loops.isEmpty then 0 else a.q.bodyIx)
    putF 0 6 ldqh + putF 8 6 a.ldqT + putF 16 6 lf + putF 22 1 lv + putF 24 6 stqh + putF 32 6 a.stqAT + putF 40 6 sf
      + putF 46 1 sv + 2 ^ 64 * npos ((at_.map (·.1)).getD a.n) + 2 ^ 192 * putF 0 4 ((at_.map (·.2)).getD lb)
  | 2 => npos k.bke.n + 2 ^ 128 * (ofBool k.bke.zswp + 2 * ofBool k.bke.mulbf)
  | 3 => putF 0 6 k.vec.replay.length + 2 ^ 64 * k.ctl.vsh.toNat + 2 ^ 128 * k.ctl.vmd.toNat
  | 4 => match k.cpe.cmds.find? (fun x => !x.done) with
    | some x =>
      let (m, w) := x.mask
      putF 0 5 k.cpe.outstanding + putF 16 16 x.cmdid + 2 ^ 64 * (x.bytes % 2 ^ 64) + 2 ^ 128 * m + 2 ^ 384 * putF 0 8 w
    | none => 0
  | _ => 0

/-- Step count of a cycle in the leg of a core: floor((t − t_rel) / 512) in a fixed leg (R161), 0 in a free one. -/
def State.stepCount (s : State) (c : CoreIx) (t : Nat) : Nat :=
  if s.fixedLeg c then (t - (s.core c).ctl.tRel) / 512 else 0

/-- WADDR of an engine: its issue pointer, past the word that raised the fault (R157). -/
def Core.waddr (k : Core) (e : Nat) (faddr : Option Int) : Nat :=
  let at_ (q : Queue) : Nat :=
    let q := if faddr = some q.pc then q.advance 0 else q
    q.pc.toNat % 2 ^ 32
  match e with
  | 0 => at_ k.seq.q
  | 1 => at_ k.axu.q
  | 2 => at_ k.bke.q
  | 3 => at_ k.vec.q
  | _ => 0

/-- The stop record of ENG 0 to 4 of a core (R156, R157). `h` is the header, `flt` the faulting word, its address and
its handle for the unit that raised the fault; `next` the issue pointer of an AXU that has been set back by its soft stop, `at_` as for `Core.stopTail`. -/
def State.engRecord (s : State) (c : CoreIx) (h : StopHdr) (flt : Option (Int × Nat × Nat)) (next : Option Nat := none)
    (at_ : Option (Vector Nest 6 × Nat) := none) : List Byte :=
  let k := s.core c
  let faddr := flt.map (·.1)
  h.bytes ++ toBytes 4 (next.getD (k.waddr h.eng faddr))
    ++ toBytes 4 (match faddr with
      | some x => if x < 0 then 0xFFFFFFFF else x.toNat
      | none => 0xFFFFFFFF)
    ++ toBytes 2 (k.ctl.tkin h.eng) ++ toBytes 2 (s.stepCount c h.scycle) ++ toBytes 4 0
    ++ toBytes 8 ((flt.map (·.2.1)).getD 0) ++ toBytes 2 ((flt.map (·.2.2)).getD 0xFFFF) ++ toBytes 6 0
    ++ toBytes 72 (k.stopTail h.eng at_)

/-- The stop record of a row controller (R158): the rows that were open, as (bank, row, AGE). -/
def rowRecord (h : StopHdr) (rows : List (Nat × Nat × Nat)) : List Byte :=
  h.bytes ++ toBytes 4 (rows.foldl (fun a r => a ||| 2 ^ r.1) 0)
    ++ toBytes 100 (rows.foldl (fun a r => a ||| 2 ^ (25 * r.1) * (putF 0 11 r.2.1 + putF 11 14 (min r.2.2 16383))) 0)

/-- A row of a column as its record lists it, if the bank is OPEN at a cycle. -/
def RowState.listed (r : RowState) (t b : Nat) : Option (Nat × Nat × Nat) :=
  match r with
  | .open_ row act _ _ => if r.at_ t = 1 then some (b, row.toNat, act) else none
  | _ => none

/-- The rows of a column open at a cycle (R158). -/
def Column.openRows (k : Column) (t : Nat) : List (Nat × Nat × Nat) :=
  (List.finRange 32).filterMap fun b => k.rows[b].listed t b.val

/-- The leg, course and fixed flag a record of a core carries. -/
def State.legInfo (s : State) (c : CoreIx) : Nat × Nat × Bool :=
  ((s.core c).ctl.legno.toNat, (s.core c).ctl.course.toNat, s.fixedLeg c)

/-- Sets PHALT.NOREC: a record has been dropped (R155). -/
def State.norec (s : State) (p : PartIx) : State := s.updPart p fun q => { q with phalt := q.phalt ||| (1 <<< 30) }

/-- Writes a stop record of logical core i and slot e to the stop area through the device table; a refusal is retried
and a fault drops it (R155). -/
def State.stopWrite (s : State) (p : PartIx) (i e : Nat) (bs : List Byte) : State :=
  let ia := (s.part p).stopbase.toNat % 2 ^ 52 + 1024 * i + 128 * e
  match s.walk p ia .write with
  | .mem key => { s with memory := writeBytes s.memory key bs }
  | .host addr => s.postFor p addr bs
  | .fault _ _ _ => s.norec p
  | .refuse hint _ =>
    let (id, s) := s.addReq
      { id := 0, who := 8, core := s.cur, part := some p, kind := .write bs, ia := ia, n := bs.length,
        dest := .stopRec p.val i e, issued := s.chron }
    let s := s.schedP (s.chron + 64 * hint) p (.refusalRetry id)
    s.schedP (s.chron + 2 ^ 20) p (.stopRecordRefusalTimeout p (Fin.ofNat 288 i) (Fin.ofNat 8 e))

end Sys2Proof.Machine
end

