-- ==== Sys2Proof/Machine/Axu.lean ====
section
/-! DEFINITION. The access unit: address registers and nests (R329 to R333), the generation of accesses (R324 to
R328, R334 to R338), the LDQ and the STQ (R326, R327), soft stops (R153, R154), sorted sets (R340 to R343). -/

namespace Sys2Proof.Machine

open Host (Outcome)

/-! ## Geometry and claims (R327) -/

/-- Distance of a bank from stop 4 (R327). -/
def axDist (bank : Nat) : Nat :=
  let st := bankStop bank
  if st < 4 then 4 - st else if st < 14 then st - 4 else 24 - st

/-- Whether the request to a bank goes clockwise (R327). -/
def axCw (bank : Nat) : Bool := decide (4 < bankStop bank) && decide (bankStop bank < 14)

/-- Lane n of the request direction and of the reply direction (R327). -/
def axLanes (bank n : Nat) : Nat × Nat := if axCw bank then (n, 8 + n) else (8 + n, n)

/-- Claims of a load from the own scratchpad generated at g, on lane n (R327). -/
def axLoadClaims (bank n g : Nat) : List Claim :=
  let d := axDist bank
  let (a, b) := axLanes bank n
  laneClaims a 4 g 1 d ++ [rdClaim bank (g + d) 1] ++ laneClaims b (bankStop bank) (g + d + 1) 1 d

/-- Claims of a store to the own scratchpad whose request leaves at c (R327). -/
def axStoreClaims (bank c : Nat) : List Claim :=
  let d := axDist bank
  laneClaims (axLanes bank 6).1 4 c 1 d ++ [wrClaim bank (c + d) 1]

/-- The pieces of n bytes at an address, one for each 64 KiB page touched: offset, address, bytes (R324). -/
def pieces (ia n : Nat) : List (Nat × Nat × Nat) :=
  let room := 65536 - ia % 65536
  if n = 0 then [] else if n ≤ room then [(0, ia, n)] else [(0, ia, room), (room, ia + room, n - room)]

/-! ## Address registers and nests -/

/-- An address register. -/
def Axu.reg (k : Axu) (r : Fin 16) : Word := k.a[r]

/-- The core with an address register written. -/
def Core.setA (k : Core) (r : Fin 16) (v : Word) : Core := { k with axu := { k.axu with a := k.axu.a.set r v } }

/-- A word of the AXU that acts in its issue cycle alone (R328). -/
def State.axuNow (s : State) (i : Instr) (h : Hdr) (f : Core → Core) : State :=
  s.engIssue .axu i h false 0 fun s => .ok (s.updMe f)

/-- AADD: ad := aa ± ab × 2^sh (R330). -/
def execAadd (h : Hdr) (d a b : Fin 16) (neg : Bool) (sh : BitVec 6) (s : State) : Outcome State Fault Refusal :=
  .next (s.axuNow (.aadd h d a b neg sh) h fun k =>
    let x : Int := (k.axu.reg a).toNat
    let y : Int := ((k.axu.reg b).toNat * 2 ^ sh.toNat : Nat)
    k.setA d (BitVec.ofInt 64 (if neg then x - y else x + y)))

/-- Field f of a nest register written: 0 bound, 1 pos, 2 s0, 3 s1, 4 s2 (R330). -/
def Nest.write (n : Nest) (f v : Nat) : Nest :=
  match f with
  | 0 => { n with bound := BitVec.ofNat 16 v }
  | 1 => { n with pos := BitVec.ofNat 16 v }
  | 2 => { n with s0 := BitVec.ofNat 32 v }
  | 3 => { n with s1 := BitVec.ofNat 32 v }
  | _ => { n with s2 := BitVec.ofNat 32 v }

/-- The nests with one replaced by a function of it. -/
def nestUpd (n : Vector Nest 6) (k : Nat) (f : Nest → Nest) : Vector Nest 6 := if h : k < 6 then n.set k (f n[k]) h else n

/-- AADD.nw: a field of nest register K := low(aa + ab) (R330). -/
def execAaddNw (h : Hdr) (k : BitVec 4) (a b : Fin 16) (f : BitVec 3) (s : State) : Outcome State Fault Refusal :=
  .next (s.axuNow (.aaddNw h k a b f) h fun c =>
    let v := ((c.axu.reg a) + (c.axu.reg b)).toNat
    { c with axu := { c.axu with n := nestUpd c.axu.n k.toNat fun n => n.write f.toNat v } })

/-- ALI: ad := sext(imm, 64) (R329). -/
def execAli (h : Hdr) (d : Fin 16) (imm : BitVec 16) (s : State) : Outcome State Fault Refusal :=
  .next (s.axuNow (.ali h d imm) h fun k => k.setA d (imm.signExtend 64))

/-- ALI.sh: ad := cat(ad[47:0], imm) (R329). -/
def execAliSh (h : Hdr) (d : Fin 16) (imm : BitVec 16) (s : State) : Outcome State Fault Refusal :=
  .next (s.axuNow (.aliSh h d imm) h fun k => k.setA d (((k.axu.reg d) <<< 16) ||| imm.setWidth 64))

/-- AMOV: ad := aa (R331). -/
def execAmov (h : Hdr) (d a : Fin 16) (s : State) : Outcome State Fault Refusal :=
  .next (s.axuNow (.amov h d a) h fun k => k.setA d (k.axu.reg a))

/-- POS stepped as LEND does (R333). -/
def Nest.step (n : Nest) : Nest := { n with pos := if n.pos.toNat < n.bound.toNat then n.pos + 1 else 0 }

/-- LEND (R333). -/
def execLend (h : Hdr) (nl : BitVec 3) (s : State) : Outcome State Fault Refusal :=
  .next (s.axuNow (.lend h nl) h fun k => { k with axu := { k.axu with n := nestUpd k.axu.n nl.toNat Nest.step } })

/-- Opens a loop on a queue that has advanced past its LOOP: the frame, innermost first, or none where R332 makes the
word a reserved encoding. `q0` is the queue before it. -/
def Queue.openLoop (q0 q : Queue) (nl len : Nat) (n : Vector Nest 6) : Option Queue :=
  if h : nl < 6 then
    let outer := q0.loops
    let base := if outer.isEmpty then q.pc else q0.lbase
    let first := ((q0.pc + 4 - base) / 4).toNat
    let last := first + len
    let fits : Bool := match outer with
      | [] => true
      | f :: _ => decide (last ≤ f.last)
    if outer.any (fun f => f.nest == nl) ∨ ¬ fits then none
    else
      let f : LoopFrame := { nest := nl, trips := n[nl].bound.toNat + 1, trip := 0, first := first, last := last }
      some { q with
        pc := base + 4 * (first : Int)
        loops := f :: outer
        lbase := base
        lbuf := if outer.isEmpty then List.replicate 16 none else q0.lbuf }
  else none

/-- LOOP of the AXU (R332): a reserved nest, or a body that leaves the enclosing one, is fault 0x01. -/
def execLoop (h : Hdr) (nl : BitVec 3) (l : BitVec 4) (s : State) : Outcome State Fault Refusal :=
  let q0 := s.me.axu.q
  .next (s.engIssue .axu (.loop h nl l) h false 0 fun s =>
    let k := s.me
    match q0.openLoop k.axu.q nl.toNat l.toNat k.axu.n with
    | none => .plain 0x01
    | some q => .ok (s.updMe fun k => { k with axu := { k.axu with q := q } }))

/-- MARK: the accesses after it wait for those before it (R338, R252). -/
def execMark (h : Hdr) (s : State) : Outcome State Fault Refusal :=
  .next (s.axuNow (.mark h) h fun k => { k with axu := { k.axu with marks := k.axu.marks + 1 } })

/-! ## Words that generate accesses -/

/-- Stride s of a nest register (R173). -/
def Nest.stride (n : Nest) (s : Nat) : Int :=
  match s with
  | 0 => n.s0.toInt
  | 1 => n.s1.toInt
  | _ => n.s2.toInt

/-- O of R324: the offset of the open loops in stride s. -/
def loopOffset (n : Vector Nest 6) (ls : List LoopFrame) (s : Nat) : Int :=
  ls.foldl (fun a f => if h : f.nest < 6 then a + (n[f.nest].pos.toNat : Int) * n[f.nest].stride s else a) 0

/-- T of R324. -/
def wordStride (n : Vector Nest 6) (nl s : Nat) : Int := if h : nl < 6 then n[nl].stride s else 128

/-- Whether the address generator is busy (R325, R339). -/
def Axu.genBusy (k : Axu) (now : Nat) : Bool := !k.gen.isEmpty || decide (now < k.genFree)

/-- Issues a word that generates accesses: in flight until its last one completes, with a job for the generator; in a
fixed leg a busy generator is a deviation (R325). The job's identity, restore state and marks are set here. -/
def State.axuJob (s : State) (i : Instr) (h : Hdr) (pc : Int) (j : AxuSnap → GenJob) : Verdict :=
  let c := s.cur
  let k := s.me
  if s.fixedLeg c ∧ (k.axu.genBusy s.chron ∨ setWord i) then .wait
  else
    let waits := s.pendingOf c .axu
    let (id, s) := s.newId
    let job := { j { pc := pc, queue := k.axu.q, a := k.axu.a, n := k.axu.n } with id := id, marks := k.axu.marks }
    let w : Inflight :=
      { id := id, eng := .axu, instr := i, pc := pc, issued := s.chron, doneAt := s.chron, give := h.g,
        giveTo := (k.ctl.seen s.chron).to_ 1, waits := if h.g then waits else [], access := true }
    let s := s.updMe fun k => { k with
      axu := { k.axu with gen := k.axu.gen ++ [job] }
      pipe := { k.pipe with infl := k.pipe.infl ++ [w] } }
    .ok (if k.axu.gen.isEmpty then s.sched (max s.chron k.axu.genFree) .accessGeneration else s)

/-- A word of form AS that streams m lines (R324, R334, R335). `lat` holds the index base of a gather. -/
def State.axuStream (s : State) (i : Instr) (h : Hdr) (a : Fin 16) (nl : BitVec 3) (ss : BitVec 2) (cnt : BitVec 8)
    (lat : Axu → List Nat) : State :=
  let k := s.me.entered .axu
  let o := loopOffset k.axu.n k.axu.q.loops ss.toNat
  let t := wordStride k.axu.n nl.toNat ss.toNat
  let pc := k.axu.q.pc
  s.engIssue .axu i h true 0 fun s =>
    s.axuJob i h pc fun snap =>
      { id := 0, instr := i, pc := pc, next := 0, count := cnt.toNat + 1, base := (k.axu.reg a).toNat + o, stride := t,
        cycle := s.chron, lat := lat k.axu, snap := snap }

/-- LDS (R334). -/
def execLds (h : Hdr) (a : Fin 16) (nl : BitVec 3) (ss : BitVec 2) (c : BitVec 8) (s : State) : Outcome State Fault Refusal :=
  .next (s.axuStream (.lds h a nl ss c) h a nl ss c fun _ => [])

/-- STS (R334). -/
def execSts (h : Hdr) (a : Fin 16) (nl : BitVec 3) (ss : BitVec 2) (c : BitVec 8) (s : State) : Outcome State Fault Refusal :=
  .next (s.axuStream (.sts h a nl ss c) h a nl ss c fun _ => [])

/-- LDG (R335). -/
def execLdg (h : Hdr) (a b : Fin 16) (nl : BitVec 3) (ss : BitVec 2) (c : BitVec 8) (s : State) : Outcome State Fault Refusal :=
  .next (s.axuStream (.ldg h a b nl ss c) h a nl ss c fun k => [(k.reg b).toNat])

/-- STG (R335). -/
def execStg (h : Hdr) (a b : Fin 16) (nl : BitVec 3) (ss : BitVec 2) (c : BitVec 8) (s : State) : Outcome State Fault Refusal :=
  .next (s.axuStream (.stg h a b nl ss c) h a nl ss c fun k => [(k.reg b).toNat])

/-- The format checks of a dense handle for whole lines: not a 4-bit format, and STR0 = w / 8 (R336). -/
def lineFormatOk (e : BitVec 512) : Bool :=
  entType e == 6 || (fmtW (entFmt e) != 4 && entStr e 0 == ((fmtW (entFmt e) / 8 : Nat) : Int))

/-- What the use of a handle by LDH or STH gives (R188, R189, R336): what the job latches, a fill to wait for, a deviation, a hard
fault, or a fault of the fill. -/
inductive HandleUse where
  | ready (lat : List Nat) (s : State)
  | filling
  | wait
  | hard (code : Nat)
  | fill (code entry level : Nat)

/-- The handle's own checks of LDH and STH; those of each line are made at its generation. The job latches the entry, the nest
field, the mode and the coordinates, taken from the nests at issue (R336, R337). -/
def State.useHandle (s : State) (c : CoreIx) (hd : BitVec 16) (nl : BitVec 3) (x : BitVec 2) (types : List Nat) (right : HRight)
    (n : Vector Nest 6) : HandleUse :=
  match s.handle c hd.toNat with
  | .wait => .filling
  | .deviation => .wait
  | .fault code e l => .fill code e l
  | .hit e s =>
    match handleCheck (s.core c).ctl.bfmt e types right with
    | some code => .hard code
    | none =>
      if entType e ≠ 4 ∧ ¬ lineFormatOk e then .hard 0x15
      else if entType e ≠ 4 ∧ nl.toNat ≠ 7 ∧ entNdim e ≤ nl.toNat then .hard 0x12
      else if s.fixedLeg c ∧ entType e = 4 then .wait
      else
        .ready ([e.toNat, nl.toNat, x.toNat]
          ++ (List.range 6).map fun d => if h : d < 6 ∧ (d < entNdim e ∨ d = 0) then (n[d]'h.1).pos.toNat else 0) s

/-- The types of entry LDH and STH accept, and the right they need (R336, R337). -/
def handleNeeds : Instr → List Nat × HRight
  | .sth .. => ([1, 5, 6], .wr)
  | _ => ([1, 4, 5, 6], .rd)

/-- LDH and STH (R336, R337). A word that issues while the generator is busy has its handle checked as the generator comes to it, and
a fill that faults in a free leg soft-stops the AXU there, at the entry the word would fill (R325, R328, R189, R106). -/
def State.axuHandle (s : State) (i : Instr) (h : Hdr) (hd : BitVec 16) (nl : BitVec 3) (x : BitVec 2) : State :=
  let k := s.me.entered .axu
  let pc := k.axu.q.pc
  let m := if h : nl.toNat < 6 then k.axu.n[nl.toNat].bound.toNat + 1 else 1
  let (types, right) := handleNeeds i
  s.engIssue .axu i h true 0 fun s =>
    let job (lat : List Nat) (snap : AxuSnap) : GenJob :=
      { id := 0, instr := i, pc := pc, next := 0, count := m, base := 0, stride := 0, cycle := s.chron, lat := lat, handle := hd.toNat,
        snap := snap }
    if k.axu.genBusy s.chron then s.axuJob i h pc (job [])
    else match s.useHandle s.cur hd nl x types right k.axu.n with
    | .filling => .fill hd.toNat
    | .wait => .wait
    | .hard code => .fault code 0 0 false false hd.toNat
    | .fill _ _ _ => s.axuJob i h pc (job [])
    | .ready lat s => s.axuJob i h pc (job lat)

/-- LDH (R336, R337). -/
def execLdh (h : Hdr) (hd : BitVec 16) (nl : BitVec 3) (x : BitVec 2) (s : State) : Outcome State Fault Refusal :=
  .next (s.axuHandle (.ldh h hd nl x) h hd nl x)

/-- STH (R336). -/
def execSth (h : Hdr) (hd : BitVec 16) (nl : BitVec 3) (x : BitVec 2) (s : State) : Outcome State Fault Refusal :=
  .next (s.axuHandle (.sth h hd nl x) h hd nl x)

/-- What a sorted-set word holds of its lists: the two register pairs, the positions reached, address and count of each list as they stood
at issue or at the last push, and one more than the element before each list's position, 0 at a list's start (R324, R340, R341). -/
def setLatch (a b : Fin 16) (v : Vector Word 16) : List Nat :=
  [a.val, b.val, 0, 0, v[a].toNat, v[a + 1].toNat, v[b].toNat, v[b + 1].toNat, 0, 0]

/-- A sorted-set word (R340 to R342). It is none of the words that may issue while the generator is busy: in a free leg it waits (R325).
`lat` is that of `setLatch`; `count` entries are pushed. -/
def State.axuSet (s : State) (i : Instr) (h : Hdr) (a b : Fin 16) (m : Nat) : State :=
  let k := s.me.axu
  let pc := k.q.pc
  s.engIssue .axu i h true 0 fun s =>
    if k.genBusy s.chron then .wait
    else s.axuJob i h pc fun snap =>
      { id := 0, instr := i, pc := pc, next := 0, count := m, base := 0, stride := 0, cycle := s.chron,
        lat := setLatch a b k.a, snap := snap }

/-- ISECT (R341). -/
def execIsect (h : Hdr) (a b : Fin 16) (c : BitVec 8) (s : State) : Outcome State Fault Refusal :=
  .next (s.axuSet (.isect h a b c) h a b (c.toNat + 1))

/-- IMERGE (R341). -/
def execImerge (h : Hdr) (a b : Fin 16) (c : BitVec 8) (s : State) : Outcome State Fault Refusal :=
  .next (s.axuSet (.imerge h a b c) h a b (c.toNat + 1))

/-- ICNT (R342). -/
def execIcnt (h : Hdr) (a b : Fin 16) (p : Bool) (d : Fin 16) (s : State) : Outcome State Fault Refusal :=
  .next (s.axuSet (.icnt h a b p d) h a b 1)

/-! ## Completion of a word -/

/-- Whether a word of the AXU has an access still to be generated or performed (R253). -/
def State.wordOpen (s : State) (c : CoreIx) (id : Nat) : Bool :=
  let k := s.core c
  (k.axu.gen.any fun j => j.id == id) || (k.axu.stqA.any fun x => x.word == id && !x.done)
    || s.reqs.any fun r => r.core == c && r.who == 1 && r.word == id

/-- A word in flight completes no earlier than a cycle. -/
def Pipe.late (k : Pipe) (id t : Nat) : Pipe :=
  { k with infl := k.infl.map fun w => if w.id = id then { w with doneAt := max w.doneAt t } else w }

/-- Retires a word of the AXU at its completion cycle once nothing of it is open (R328). -/
def State.axuClose (s : State) (c : CoreIx) (id : Nat) : State :=
  if s.wordOpen c id then s
  else match (s.core c).pipe.infl.find? (fun w => w.id == id) with
    | none => s
    | some w =>
      let s := s.upd c fun k => { k with axu := { k.axu with past := k.axu.past.filter fun j => j.id != id } }
      s.schedC (max s.chron w.doneAt) c (.wordRetire c id)

/-! ## Faults of accesses -/

/-- The nest positions and the loop-buffer index of a word's accesses, for its stop record (R157). -/
def GenJob.place (j : GenJob) : Vector Nest 6 × Nat :=
  (j.snap.n, if j.snap.queue.loops.isEmpty then 0 else ((j.pc - j.snap.queue.lbase) / 4).toNat)

/-- A hard fault of an access of a word, with what its stop record says of the access (R157, R328). -/
def State.axuFault (s : State) (c : CoreIx) (j : GenJob) (code : Nat) (ia : Nat := 0) : State :=
  s.coreFault c 1 code j.pc ia j.handle 0xFF (some j.place)

/-- The word of the AXU with an identity whose accesses are not all performed. -/
def Axu.job (k : Axu) (id : Nat) : Option GenJob := (k.gen ++ k.past).find? fun j => j.id == id

/-- What an access of a word drives a second time in a fixed leg deviates (R137, R176). -/
def State.jobClash (s : State) (c : CoreIx) (j : GenJob) (cs : List Claim) : State :=
  s.clash c .axu j.instr j.pc cs j.handle (some j.place)

/-! ## Stores: the STQ (R326, R327) -/

/-- Whether every piece of a slot lies in the own scratchpad. -/
def ownPieces (c : CoreIx) (ps : List (Nat × Nat × Nat)) : Bool := ps.all fun p => isOwnSpad c p.2.1

/-- The least cycle from t on at which claims are free, within a bound. -/
def freeFrom (k : Pipe) (cs : Nat → List Claim) : Nat → Nat → Nat
  | 0, t => t
  | n + 1, t => if k.free (cs t) then t else freeFrom k cs n (t + 1)

/-- Replaces an address of the STQ. -/
def Axu.setStq (k : Axu) (x : StqAddr) : Axu := { k with stqA := k.stqA.map fun y => if y.slot = x.slot then x else y }

/-- Starts the slots of the STQ that hold address and data, in order: slot k leaves at
c_k = max(g_k, data arrival, c_(k−1) + 1); in a free leg once the lane is free, in a fixed one a lane driven twice deviates in that cycle
(R326, R327, R137). -/
def State.stqPump (s : State) (c : CoreIx) : Nat → State
  | 0 => s
  | fuel + 1 =>
    let k := s.core c
    match (List.zip k.axu.stqA k.axu.stqD).find? (fun x => !x.1.sent) with
    | none => s
    | some (a, d) =>
      let fixed := s.fixedLeg c
      let t := max (max a.gen d.1) (max (k.axu.stqC + 1) s.chron)
      let cs (t : Nat) := (a.pieces.map fun p => axStoreClaims (bankOf p.2.1) t).flatten
      let own := ownPieces c a.pieces
      let far := a.pieces.foldl (fun m p => max m (axDist (bankOf p.2.1))) 0
      if own then
        let u := if fixed then t else freeFrom k.pipe cs 4096 t
        let prev := if fixed then 0 else (k.axu.stqA.filter (fun x => x.sent)).foldl (fun m x => max m x.perf) 0
        let p := max (u + far) prev
        let s := match k.axu.job a.word with
          | some j => s.jobClash c j (cs u)
          | none => s
        let s := (s.claim c (cs u)).upd c fun k => { k with axu := { k.axu.setStq { a with sent := true, perf := p } with stqC := u } }
        (s.schedC p c .stqSlotPerform).stqPump c fuel
      else
        let p := if fixed then t + 192 else t
        let s := s.upd c fun k => { k with axu := { k.axu.setStq { a with sent := true, perf := p } with stqC := t } }
        (s.schedC p c .stqSlotPerform).stqPump c fuel

/-- Frees the performed slots at the head of the STQ with their data (R326). -/
def Axu.stqFree (k : Axu) : Nat → Axu
  | 0 => k
  | n + 1 => match k.stqA with
    | x :: r => if x.done then ({ k with stqA := r, stqD := k.stqD.drop 1 }).stqFree n else k
    | [] => k

/-- A slot of the STQ has been performed: it is freed in order, its word may retire (R326, R328). -/
def State.stqDone (s : State) (c : CoreIx) (x : StqAddr) : State :=
  let s := s.upd c fun k => { k with axu := (k.axu.setStq { x with done := true }).stqFree 64, pipe := k.pipe.late x.word s.chron }
  s.axuClose c x.word

/-- The data of a slot, by its place in the STQ. -/
def Axu.stqData (k : Axu) (slot : Nat) : List Byte :=
  (((List.zip k.stqA k.stqD).find? fun x => x.1.slot == slot).map fun x => x.2.2).getD []

/-- A push of data into the STQ (R326, R404). -/
def State.stqPush (s : State) (c : CoreIx) (t : Nat) (bs : List Byte) : State :=
  (s.upd c fun k => { k with axu := { k.axu with stqD := k.axu.stqD ++ [(t, bs)], stqDT := k.axu.stqDT + 1 } }).stqPump c 64

/-! ## Soft stops (R153, R154) -/

/-- Whether a word serves the rows of a CSR handle (R337). -/
def GenJob.csr (j : GenJob) : Bool :=
  match j.instr with
  | .ldh .. => entType (BitVec.ofNat 512 (j.lat.getD 0 0)) == 4
  | _ => false

/-- A job as it starts again from its access: index and list reads are made again, a CSR row goes on at its line, a
sorted-set word from its pairs (R335, R337, R343). -/
def GenJob.again (j : GenJob) : GenJob :=
  { j with
    idx := []
    flt := []
    out := if j.csr then j.out else []
    lat := if setWord j.instr then (j.lat.set 2 0).set 3 0 else j.lat }

/-- The address registers a soft stop of a word restores: those at its issue, the list pairs of a sorted-set word with the values of
their last push (R154, R343). -/
def GenJob.setRegs (j : GenJob) : Vector Word 16 :=
  match j.lat with
  | [pa, pb, _, _, va, na, vb, nb, _, _] =>
    if setWord j.instr then
      [(pa, va), (pa + 1, na), (pb, vb), (pb + 1, nb)].foldl (fun v (x : Nat × Nat) => v.set (Fin.ofNat 16 x.1) (BitVec.ofNat 64 x.2)) j.snap.a
    else j.snap.a
  | _ => j.snap.a

/-- Soft-stops the AXU at slot f of a queue: the entries from f on are discarded, the registers and the queue go back
to the faulting word, and the words after it are issued again on resume. Stores already on their way and lines
already popped are not made again (R154). -/
def State.softStop (s : State) (c : CoreIx) (job : GenJob) (code ia slot : Nat) (stq : Bool) : State :=
  let k := s.core c
  let a := k.axu
  let ldq0 := if stq then (((a.stqA.find? fun x => x.slot == slot).map (·.ldqAt)).getD a.ldqT) else slot
  let stq0 := if stq then slot else (((a.ldq.find? fun x => x.slot == slot).map (·.stqAt)).getD a.stqAT)
  let head := (a.ldq.head?.map (·.slot)).getD a.ldqT
  let skipL := head - ldq0
  let keepS := a.stqA.filter fun x => decide (x.slot < stq0) || (x.sent && !stq)
  let fresh := (a.stqA.filter fun x => !keepS.contains x).length
  let skipS := (a.stqAT - stq0) - fresh
  let ldqT := ldq0 + skipL
  let stqT := stq0 + skipS
  let snapA := job.setRegs
  let s := { s with reqs := s.reqs.filter fun r => !(r.core == c && r.who == 1 && (match r.dest with
      | .ldq f _ => decide (ldqT ≤ f)
      | .stq f => decide (stqT ≤ f)
      | .index _ _ => true
      | _ => false)) }
  let s := s.upd c fun k => { k with
    axu := { k.axu with
      q := { job.snap.queue with st := .soft, stopAt := k.axu.q.stopAt }
      a := snapA
      n := job.snap.n
      ldq := k.axu.ldq.filter fun x => decide (x.slot < ldqT)
      ldqT := ldqT
      stqA := keepS
      stqAT := stqT
      gen := []
      genFree := 0
      marks := job.marks
      past := k.axu.past.filter fun j => decide (j.id < job.id)
      soft := some { job := job.again, code := code, ia := ia, slot := slot, stq := stq }
      hist := k.axu.hist.filter fun x => decide (x.1 ≤ job.id)
      again := ((k.axu.hist.filter fun x => decide (job.id < x.1)).map (·.2)) ++ k.axu.again
      skipL := skipL
      skipS := skipS
      gate := none }
    pipe := { k.pipe with infl := k.pipe.infl.filter fun w => !(w.eng == .axu && decide (job.id < w.id)) } }
  match s.partOf c with
  | none => s
  | some p =>
    let (leg, course, fixed) := s.legInfo c
    let h : StopHdr :=
      { cause := code, eng := 1, orig := true, soft := true, fixed := fixed, core := c.val, leg := leg, course := course,
        fcycle := s.chron, scycle := s.chron }
    s.stopWrite p (s.logical p c) 1 (s.engRecord c h (some (job.pc, ia, job.handle)) (some (k.waddr 1 (some job.pc))))

/-- A memory fault of an AXU access (R106, R328): its record; in a free leg a soft stop at the slot, in a fixed leg a
deviation; 0x74 is a machine check. -/
def State.axuMemFault (s : State) (c : CoreIx) (job : GenJob) (code va ia slot : Nat) (stq : Bool) (entry level : Nat) : State :=
  match s.partOf c with
  | none => s
  | some p =>
    if code = 0x74 then s.partFault p 0x74
    else
      let (leg, course, fixed) := s.legInfo c
      let s := s.fqWrite p code
        { req := 1, core := c.val, wr := stq, fixed := fixed, ldq := if stq then 0 else slot % 64, va := va, ia := ia, leg := leg,
          course := course, handle := job.handle, entry := entry, level := level }
      if fixed then s.axuFault c job 0x41 ia else s.softStop c job code ia slot stq

/-- Whether a record of an engine of a core waits for space in its partition's fault queue (R110). -/
def State.recordHeld (s : State) (c : CoreIx) (e : Nat) : Bool :=
  match s.partOf c with
  | some p => (s.part p).recordHeld c e
  | none => false

/-- Whether a word of the VEC of a core waits on a queue entry at or after the one a soft stop of its AXU stands at (R153). -/
def Core.behindStop (k : Core) : Bool :=
  k.axu.soft.isSome && k.pipe.infl.any fun w => w.eng == .vec && (match w.instr with
    | .vld .. => k.axu.ldq.isEmpty && decide (w.lat.getD 4 0 < w.lat.getD 3 0)
    | .vst .. => decide (64 ≤ k.axu.stqD.length) && k.axu.stqA.isEmpty && decide (w.lat.getD 1 0 < w.lat.getD 0 0)
    | _ => false)

/-- RESUME: SS clears and the AXU issues again from the access that produced entry f (R154); the Lookout counts it, and
the queue that waited behind it, from here on (R153). While the record of its fault waits for
space the AXU stays stopped (R110). -/
def execResume (s : State) : Outcome State Fault Refusal :=
  let c := s.cur
  .next (match s.me.axu.soft with
  | none => s
  | some f =>
    if s.recordHeld c 1 then s.schedC (s.chron + 1) c .resume
    else
    let waited := s.me.behindStop
    let s := s.updMe fun k => { k with axu := { k.axu with
      soft := none
      gen := [{ f.job with cycle := s.chron }]
      gate := some (f.slot, f.stq)
      q := { k.axu.q with st := .running, base := s.chron + 1, notBefore := s.chron + 1, progress := s.chron, lookStep := 0 } } }
    let s := if waited then s.updMe fun k => { k with vec := { k.vec with q := { k.vec.q with progress := s.chron, lookStep := 0 } } } else s
    s.schedC s.chron c .accessGeneration)

/-! ## Generation of one access (R325) -/

/-- What an access of a line is: the address and bytes it touches, and the bytes of its tile it leaves at a fill value;
or a hard fault or memory fault of it; or a read that must come first. -/
inductive Line where
  | at_ (va ia n : Nat) (fill : Byte)
  | hard (code va ia : Nat)
  | mem (code va ia : Nat)
  | wait
  deriving DecidableEq, Repr

/-- The line of an address given as an integer: the checks of R324 and the translation of R97. -/
def Core.vaLine (k : Core) (x : Int) (store : Bool) : Line :=
  let a := lowInt x 64
  if 2 ^ 52 ≤ a then .mem 0x30 a 0
  else if a % 8 ≠ 0 then .hard 0x13 a 0
  else match translate k.ctl.rng (!k.seq.sup) a 128 (if store then .write else .read) with
    | .error code => .mem code a 0
    | .ok ia => .at_ a ia 128 0

/-- The bytes at a key among pieces read, or none. -/
def pieceAt (ps : List (Nat × List Byte)) (off n : Nat) : Option (List Byte) :=
  (ps.find? fun p => decide (p.1 ≤ off) && decide (off + n ≤ p.1 + p.2.length)).map fun p => (p.2.drop (off - p.1)).take n

/-- Line j of a dense or cell handle (R336). -/
def handleLine (job : GenJob) : Line :=
  let e := BitVec.ofNat 512 (job.lat.getD 0 0)
  let nl := job.lat.getD 1 0
  let pad := job.lat.getD 2 0 == 1
  let xs := (job.lat.drop 3).mapIdx fun i c => if i = nl then c + job.next else c
  let cell := entType e == 6
  let w := if cell then 1024 else fmtW (entFmt e)
  let cnt := if cell then 1 else 1024 / w
  let c0 := xs.getD 0 0
  let room := entBound e 0 - c0
  let valid := if pad then min cnt room else cnt
  let others := (List.range (entNdim e)).all fun i => i == 0 || decide (xs.getD i 0 < entBound e i)
  let a := elemAddr e xs
  if ¬ others ∨ (¬ pad ∧ entBound e 0 < c0 + cnt) then .hard 0x12 0 a
  else if a % (if cell then 128 else w / 8) ≠ 0 then .hard 0x13 0 a
  else
    let n := valid * w / 8
    if n ≠ 0 ∧ a / 2 ^ 52 ≠ (a + n - 1) % 2 ^ 56 / 2 ^ 52 then .mem 0x30 0 a else .at_ 0 a n 0

/-- The line of the next access of a job (R324, R335, R336). -/
def State.lineOf (s : State) (c : CoreIx) (job : GenJob) : Line :=
  let k := s.core c
  match job.instr with
  | .lds .. => k.vaLine (job.base + job.next * job.stride) false
  | .sts .. => k.vaLine (job.base + job.next * job.stride) true
  | .ldg .. | .stg .. =>
    let st := match job.instr with
      | .stg .. => true
      | _ => false
    match job.flt.find? (fun f => decide (f.1 ≤ 4 * job.next) && decide (4 * job.next < f.1 + 128)) with
    | some f => .mem f.2.1 (job.lat.getD 0 0 + 4 * job.next) f.2.2
    | none => match pieceAt job.idx (4 * job.next) 4 with
      | none => .wait
      | some bs => k.vaLine (job.base + sintN 32 (ofBytes bs) * job.stride) st
  | _ => handleLine job

/-- Replaces the job at the head of the generator. -/
def Axu.setHead (k : Axu) (j : GenJob) : Axu := { k with gen := j :: k.gen.drop 1 }

/-- Whether every access generated before the MARKs a job follows has been performed at .core (R252, R338). -/
def State.marksClear (s : State) (c : CoreIx) (m : Nat) : Bool :=
  ((s.core c).axu.stqA.all fun x => x.done || decide (m ≤ x.marks))
    && s.reqs.all fun r => !(r.core == c && r.who == 1 && !r.done && decide (r.mark < m) && !(r.due != 0 && decide (r.due ≤ s.chron)))

/-- Whether an access of a core goes to a pinned page of the pool (R107). -/
def State.pinnedPage (s : State) (c : CoreIx) (ia : Nat) : Bool :=
  ia / 2 ^ 52 == 0 && (match s.partOf c with
    | some q => (s.pinOf q ia).isSome
    | none => false)

/-- Cycles of an access of a free leg that leaves the core: a free value, in a pinned page of the pool on top of the 192 of R327. -/
def State.drawAccess (s : State) (c : CoreIx) (ia : Nat) : Nat × State :=
  let (lat, s1) := s.drawWalk
  (if s.pinnedPage c ia then 191 + lat else lat, s1)

/-- Adds the requests of the pieces of a line or of an index read, each timed by R327. -/
def State.addPieces (s : State) (c : CoreIx) (job : GenJob) (va : Nat) (ps : List (Nat × Nat × Nat)) (lane : Nat)
    (dest : Nat → Dest) : State :=
  ps.foldl (fun s p =>
    let fixed := s.fixedLeg c
    let r : Req :=
      { id := 0, who := 1, core := c, part := s.partOf c, kind := .read, ia := p.2.1, va := if va = 0 then 0 else va + p.1, n := p.2.2,
        dest := dest p.1, fixed := fixed, handle := job.handle, pc := job.pc, word := job.id, issued := s.chron, mark := job.marks }
    if isOwnSpad c p.2.1 then
      let bank := bankOf p.2.1
      let t := s.chron + axDist bank
      let (id, s) := s.addReq { r with own := true, due := t }
      (s.claim c (axLoadClaims bank lane s.chron)).schedC t c (.accessResponse id)
    else if fixed then
      let (id, s) := s.addReq { r with due := s.chron + 192 }
      s.schedC (s.chron + 192) c (.pageWalk id)
    else
      let (id, s) := s.addReq r
      let (lat, s) := s.drawAccess c p.2.1
      s.schedC (s.chron + lat) c (.pageWalk id)) s

/-- The claims of the pieces of a read made now on a lane (R327). -/
def State.pieceClaims (s : State) (c : CoreIx) (ps : List (Nat × Nat × Nat)) (lane : Nat) : List Claim :=
  (ps.map fun p => if isOwnSpad c p.2.1 then axLoadClaims (bankOf p.2.1) lane s.chron else []).flatten

/-- Whether the pieces of an access lie where a fixed leg allows them: in the own scratchpad or in pinned pages (R327, R107). -/
def State.fixedPlaces (s : State) (c : CoreIx) (ps : List (Nat × Nat × Nat)) : Bool :=
  ps.all fun p => isOwnSpad c p.2.1 || s.pinnedPage c p.2.1

/-- Whether the pieces of a read may be made now: in a free leg with lanes and ports free, in a fixed leg where it allows them (R327, R107,
R137). -/
def State.piecesOk (s : State) (c : CoreIx) (ps : List (Nat × Nat × Nat)) (lane : Nat) : Bool :=
  if s.fixedLeg c then s.fixedPlaces c ps else (s.core c).pipe.free (s.pieceClaims c ps lane)

/-- The outcome of an attempt to generate: done with the job advanced, or to be tried again in the next cycle. -/
inductive GenRes where
  | done (s : State)
  | stall
  | stopped (s : State)

/-- The first memory fault found at the issuer for the pieces of a line (R94). -/
def State.piecesFault (s : State) (c : CoreIx) (ps : List (Nat × Nat × Nat)) : Option (Nat × Nat) :=
  ps.findSome? fun p => (s.issuerCheck (s.partOf c) p.2.1).map fun code => (code, p.2.1)

/-- Pushes an LDQ entry that needs no access, filled now (R336, R341). -/
def Axu.pushFilled (k : Axu) (word now : Nat) (bs : List Byte) : Axu :=
  if 0 < k.skipL then { k with skipL := k.skipL - 1 }
  else { k with ldq := k.ldq ++ [{ slot := k.ldqT, word := word, stqAt := k.stqAT, bytes := bs, filled := some now }], ldqT := k.ldqT + 1 }

/-- Generates a load of n bytes at an address into the next LDQ slot (R325, R327). -/
def State.genLoad (s : State) (c : CoreIx) (job : GenJob) (va ia n : Nat) (fill : Byte) : GenRes :=
  let k := s.core c
  let slot := k.axu.ldqT
  let ps := pieces ia n
  if 0 < k.axu.skipL then .done (s.upd c fun k => { k with axu := { k.axu with skipL := k.axu.skipL - 1 } })
  else if 64 ≤ k.axu.ldq.length then .stall
  else
    let e : LdqEntry :=
      { slot := slot, word := job.id, ix := job.next, out := job.out, stqAt := k.axu.stqAT, bytes := List.replicate 128 fill, pending := ps.length,
        filled := if ps.isEmpty then some s.chron else none }
    let put (s : State) := s.upd c fun k => { k with axu := { k.axu with ldq := k.axu.ldq ++ [e], ldqT := slot + 1 } }
    match s.piecesFault c ps with
    | some (code, a) => .stopped ((put s).axuMemFault c job code va a slot false 0 0)
    | none =>
      if ¬ s.piecesOk c ps 6 then .stall
      else .done (((put s).jobClash c job (s.pieceClaims c ps 6)).addPieces c job va ps 6 fun off => .ldq slot off)

/-- Generates the address of the next STQ slot (R325, R326). -/
def State.genStore (s : State) (c : CoreIx) (job : GenJob) (va ia n : Nat) : GenRes :=
  let k := s.core c
  let slot := k.axu.stqAT
  let ps := pieces ia n
  if 0 < k.axu.skipS then .done (s.upd c fun k => { k with axu := { k.axu with skipS := k.axu.skipS - 1 } })
  else if 64 ≤ k.axu.stqA.length then .stall
  else
    let x : StqAddr :=
      { slot := slot, pieces := ps, va := va, gen := s.chron, word := job.id, handle := job.handle, marks := job.marks, ix := job.next,
        ldqAt := k.axu.ldqT }
    let put (s : State) := s.upd c fun k => { k with axu := { k.axu with stqA := k.axu.stqA ++ [x], stqAT := slot + 1 } }
    match s.piecesFault c ps with
    | some (code, a) => .stopped ((put s).axuMemFault c job code va a slot true 0 0)
    | none =>
      if s.fixedLeg c ∧ ¬ s.fixedPlaces c ps then .stall
      else .done ((put s).stqPump c 64)

/-- Whether a word of the AXU stores. -/
def storeWord : Instr → Bool
  | .sts .. | .stg .. | .sth .. => true
  | _ => false

/-- Starts the index reads of a gather or scatter from the line of the next index on: line q is read at cycle i + 32 q;
a fault is kept for the slot that needs it, and in a fixed leg the array must lie in the own scratchpad (R335). -/
def State.startIndex (s : State) (c : CoreIx) (job : GenJob) : GenRes :=
  let k := s.core c
  let base := job.lat.getD 0 0
  let first := job.next / 32
  let bytes := 4 * job.count - 128 * first
  let va := base + 128 * first
  if base % 4 ≠ 0 then .stopped (s.axuFault c job 0x13)
  else
    let lines := (List.range (ceilDiv bytes 128)).map fun q => (128 * (first + q), min 128 (bytes - 128 * q))
    let r := lines.foldl (fun (a : GenJob × List (Nat × Nat × Nat × Nat)) l =>
      if 2 ^ 52 ≤ base + l.1 then ({ a.1 with flt := a.1.flt ++ [(l.1, 0x30, 0)] }, a.2)
      else match translate k.ctl.rng (!k.seq.sup) (base + l.1) l.2 .read with
        | .error code => ({ a.1 with flt := a.1.flt ++ [(l.1, code, 0)] }, a.2)
        | .ok ia =>
          let ps := pieces ia l.2
          match s.piecesFault c ps with
          | some (code, x) => ({ a.1 with flt := a.1.flt ++ [(l.1, code, x)] }, a.2)
          | none => (a.1, a.2 ++ ps.map fun p => (32 * (l.1 / 128 - first), l.1 + p.1, p.2.1, p.2.2))) (job, [])
    let ps := r.2.map fun x => x.2
    let own := ps.all fun p => isOwnSpad c p.2.1
    let fixed := s.fixedLeg c
    let oneBank : Bool := match ps with
      | [] => true
      | p :: _ => ps.all fun q => bankOf q.2.1 == bankOf p.2.1 && bankOf (q.2.1 + q.2.2 - 1) == bankOf p.2.1
    let cs := (r.2.map fun x => if isOwnSpad c x.2.2.1 then axLoadClaims (bankOf x.2.2.1) 5 (s.chron + x.1) else []).flatten
    if fixed ∧ (¬ own ∨ ¬ oneBank ∨ ¬ r.1.flt.isEmpty) then .stall
    else if ¬ fixed ∧ ¬ k.pipe.free cs then .stall
    else
      let dx := match ps with
        | p :: _ => if isOwnSpad c p.2.1 then axDist (bankOf p.2.1) else 0
        | [] => 0
      let s := (s.jobClash c job cs).claim c cs
      let job := { r.1 with cycle := s.chron + 2 * dx + 1, out := [1] }
      let s := r.2.foldl (fun s x =>
        let p := x.2
        let req : Req :=
          { id := 0, who := 1, core := c, part := s.partOf c, kind := .read, ia := p.2.1, va := va, n := p.2.2, dest := .index job.id p.1,
            fixed := fixed, pc := job.pc, word := job.id, issued := s.chron, mark := job.marks }
        if isOwnSpad c p.2.1 then
          let t := s.chron + x.1 + axDist (bankOf p.2.1)
          let (id, s) := s.addReq { req with own := true, due := t }
          s.schedC t c (.accessResponse id)
        else
          let (id, s) := s.addReq req
          let (lat, s) := s.drawAccess c p.2.1
          s.schedC (s.chron + x.1 + lat) c (.pageWalk id)) s
      .done (s.upd c fun k => { k with axu := k.axu.setHead job })

/-- Whether a word gathers or scatters. -/
def gatherWord : Instr → Bool
  | .ldg .. | .stg .. => true
  | _ => false

/-- Reads n bytes for a job under a key, once: at an intermediate address, or at a virtual one to be translated. -/
def State.jobRead (s : State) (c : CoreIx) (job : GenJob) (key va ia n : Nat) : GenRes :=
  if s.reqs.any (fun r => r.core == c && r.who == 1 && (match r.dest with
      | .index j k => j == job.id && k == key
      | _ => false)) then .stall
  else
    let ps := pieces ia n
    let slot := (s.core c).axu.ldqT
    match s.piecesFault c ps with
    | some (code, a) => .stopped (s.axuMemFault c job code va a slot false 0 0)
    | none => if ¬ s.piecesOk c ps 5 then .stall else .done (s.addPieces c job va ps 5 fun off => .index job.id (key + off))

/-! ## CSR rows (R337) -/

/-- One step of LDH on a CSR handle: the row pointers of row c0 + j, j counting the word's rows, their checks, then the lines of its column indices.
`out` holds rp(r), the number of indices and the lines made. -/
def State.csrStep (s : State) (c : CoreIx) (job : GenJob) : GenRes :=
  let e := BitVec.ofNat 512 (job.lat.getD 0 0)
  let r := job.lat.getD 3 0 + job.next
  let base := entBase e
  let ptr0 := entBound e 4
  let ptr1 := entBound e 5
  let len0 := (entStr e 4 % 2 ^ 32).toNat
  let len1 := (entStr e 5 % 2 ^ 32).toNat
  let rpA := (base + ptr0 + 4 * r) % 2 ^ 56
  let set (s : State) (j : GenJob) := s.upd c fun k => { k with axu := k.axu.setHead j }
  let lineDone (s : State) (rp n l : Nat) : GenRes :=
    let total := max 1 (ceilDiv n 32)
    if l + 1 < total then .done (set s { job with out := [rp, n, l + 1] })
    else .done (set s { job with next := job.next + 1, out := [], idx := [] })
  match job.out with
  | [rp, n, l] =>
    let a := (base + ptr1 + 4 * rp + 128 * l) % 2 ^ 56
    let cnt := min 32 (n - 32 * l)
    match s.genLoad c job 0 a (4 * cnt) 0xFF with
    | .done s => lineDone s rp n l
    | x => x
  | _ =>
    if entBound e 0 ≤ r ∨ len0 < 4 * (r + 2) then .stopped (s.axuFault c job 0x12 rpA)
    else match pieceAt job.idx 0 4, pieceAt job.idx 4 4 with
      | some x, some y =>
        let a := ofBytes x
        let b := ofBytes y
        if b < a ∨ len1 < 4 * b then .stopped (s.axuFault c job 0x16 rpA)
        else .done (set s { job with out := [a, b - a, 0] })
      | none, _ => s.jobRead c job 0 0 rpA 4
      | _, none => s.jobRead c job 4 0 ((rpA + 4) % 2 ^ 56) 4

/-! ## Sorted sets (R340 to R343) -/

/-- Where a merge of two sorted lists stands: the elements passed in each list and the results, newest first; or the
element it needs, or the element that is malformed (list A is false). -/
inductive Merge where
  | need (b : Bool) (ix : Nat)
  | bad (b : Bool) (ix : Nat)
  | pause (i j : Nat) (out : List Nat)
  | full (i j : Nat) (out : List Nat)
  deriving DecidableEq, Repr

/-- Whether the element at an index keeps its list strictly ascending and is not 0xFFFF_FFFF (R340); `low` is one more than the element
before index 0, 0 if there is none. -/
def elemOk (get : Nat → Option Nat) (low i x : Nat) : Bool :=
  x != 0xFFFFFFFF && (if i = 0 then decide (low ≤ x) else match get (i - 1) with
    | some y => decide (y < x)
    | none => true)

/-- Merges two sorted lists for an entry of `limit` results: the intersection, or with `union` the union (R341). -/
def mergeRun (union : Bool) (ga gb : Nat → Option Nat) (la lb na nb limit : Nat) : Nat → Nat → Nat → List Nat → Merge
  | 0, i, j, out => .pause i j out
  | fuel + 1, i, j, out =>
    if limit ≤ out.length ∨ (na ≤ i ∧ nb ≤ j) ∨ (¬ union ∧ (na ≤ i ∨ nb ≤ j)) then .full i j out
    else
      let x := if i < na then ga i else some 0xFFFFFFFF
      let y := if j < nb then gb j else some 0xFFFFFFFF
      match x, y with
      | none, _ => .need false i
      | _, none => .need true j
      | some x, some y =>
        if i < na ∧ ¬ elemOk ga la i x then .bad false i
        else if j < nb ∧ ¬ elemOk gb lb j y then .bad true j
        else if x = y then mergeRun union ga gb la lb na nb limit fuel (i + 1) (j + 1) (x :: out)
        else if x < y then mergeRun union ga gb la lb na nb limit fuel (i + 1) j (if union then x :: out else out)
        else mergeRun union ga gb la lb na nb limit fuel i (j + 1) (if union then y :: out else out)

/-- The number of elements of a list's first i that are at most v (R341). -/
def upTo (get : Nat → Option Nat) (v i : Nat) : Nat :=
  ((List.range i).takeWhile fun k => match get k with
    | some x => decide (x ≤ v)
    | none => false).length

/-- The register pair of a list advanced by c elements (R341). -/
def Core.advancePair (k : Core) (p : Fin 16) (c : Nat) : Core :=
  let k := k.setA p (k.axu.reg p + BitVec.ofNat 64 (4 * c))
  k.setA (p + 1) (k.axu.reg (p + 1) - BitVec.ofNat 64 c)

/-- Elements merged in one generation cycle; the rate affects no result (R340). -/
def setRate : Nat := 64

/-- One step of a sorted-set word (R341, R342). `lat` is that of `setLatch`, `out` the results so far. With both lists in one pair the pair
advances once: the second advance finds nothing left. -/
def State.setStep (s : State) (c : CoreIx) (job : GenJob) : GenRes :=
  let k := s.core c
  let pa : Fin 16 := Fin.ofNat 16 (job.lat.getD 0 0)
  let pb : Fin 16 := Fin.ofNat 16 (job.lat.getD 1 0)
  let va := job.lat.getD 4 0
  let na := job.lat.getD 5 0
  let vb := job.lat.getD 6 0
  let nb := job.lat.getD 7 0
  let la := job.lat.getD 8 0
  let lb := job.lat.getD 9 0
  let at_ (b : Bool) (v i : Nat) : Option Nat :=
    (job.idx.findSome? fun p =>
      let off := p.1 / 2
      if p.1 % 2 = ofBool b ∧ off ≤ v + 4 * i ∧ v + 4 * i + 4 ≤ off + p.2.length then
        some (ofBytes ((p.2.drop (v + 4 * i - off)).take 4)) else none)
  let (union, cntOnly) := match job.instr with
    | .imerge .. => (true, false)
    | .icnt .. => (false, true)
    | _ => (false, false)
  let i0 := job.lat.getD 2 0
  let j0 := job.lat.getD 3 0
  let set (s : State) (j : GenJob) := s.upd c fun k => { k with axu := k.axu.setHead j }
  if va % 4 ≠ 0 ∨ vb % 4 ≠ 0 then .stopped (s.axuFault c job 0x13)
  else
    match mergeRun union (at_ false va) (at_ true vb) la lb na nb (if cntOnly then 2 ^ 64 else 32) setRate i0 j0 job.out with
    | .pause i j out => .done (set s { job with lat := [pa.val, pb.val, i, j, va, na, vb, nb, la, lb], out := out })
    | .bad b ix =>
      let a := if b then vb + 4 * ix else va + 4 * ix
      let ia := match translate k.ctl.rng (!k.seq.sup) (a % 2 ^ 52) 4 .read with
        | .ok x => x
        | .error _ => a
      .stopped (s.axuFault c job 0x16 ia)
    | .need b ix =>
      let v := if b then vb + 4 * ix else va + 4 * ix
      let n := min (min 128 (4 * ((if b then nb else na) - ix))) (65536 - v % 65536)
      if s.reqs.any (fun r => r.core == c && r.who == 1 && (match r.dest with
          | .index j q => j == job.id && q % 2 == ofBool b
          | _ => false)) then .stall
      else if 2 ^ 52 ≤ v then .stopped (s.axuMemFault c job 0x30 v 0 k.axu.ldqT false 0 0)
      else match translate k.ctl.rng (!k.seq.sup) v n .read with
        | .error code => .stopped (s.axuMemFault c job code v 0 k.axu.ldqT false 0 0)
        | .ok ia =>
          let ps := [(0, ia, n)]
          match s.piecesFault c ps with
          | some (code, a) => .stopped (s.axuMemFault c job code v a k.axu.ldqT false 0 0)
          | none => if ¬ s.piecesOk c ps 5 then .stall else .done ((set s job).addPieces c job v ps 5 fun _ => .index job.id (2 * v + ofBool b))
    | .full i j out =>
      if cntOnly then
        match job.instr with
        | .icnt _ _ _ p d =>
          if p ∧ 64 ≤ k.axu.ldq.length then .stall
          else
            .done (s.upd c fun k =>
              let k := k.advancePair pa na
              let k := if pa = pb then k else k.advancePair pb nb
              let v := k.axu.reg d + BitVec.ofNat 64 out.length
              let k := k.setA d v
              let a := if p then k.axu.pushFilled job.id s.chron (toBytes 8 v.toNat ++ List.replicate 120 0) else k.axu
              { k with axu := a.setHead { job with next := 1, out := [], idx := [] } })
        | _ => .stall
      else if 64 ≤ k.axu.ldq.length ∧ k.axu.skipL = 0 then .stall
      else
        let res := out.reverse
        let bs := (res.map fun x => toBytes 4 x).flatten ++ List.replicate (128 - 4 * res.length) 0xFF
        let move (b : Bool) (v n i : Nat) : Nat := if n ≤ i then n else match out.head? with
          | some l => upTo (at_ b v) l i
          | none => 0
        let ca := move false va na i
        let cb := move true vb nb j
        .done (s.upd c fun k =>
          let k := k.advancePair pa ca
          let k := if pa = pb then k else k.advancePair pb cb
          let past (v c : Nat) : Nat := (v + 4 * c) % 2 ^ 64
          let low (b : Bool) (v c l : Nat) : Nat := if c = 0 then l else (at_ b v (c - 1)).getD 0 + 1
          let j := { job with
            next := job.next + 1
            lat := [pa.val, pb.val, 0, 0, past va ca, na - ca, past vb cb, nb - cb, low false va ca la, low true vb cb lb]
            out := []
            idx := [] }
          { k with axu := (k.axu.pushFilled job.id s.chron bs).setHead j })

/-! ## Ring transfers (R339, R178) -/

/-- Element width of a lane transfer between two formats, and whether it converts (R178). -/
def xferW (fs fd : Nat) : Nat × Bool :=
  if fs = 0 ∨ fd = 0 then (8, false) else if fs = fd then (fmtW fs, false) else (max (fmtW fs) (fmtW fd), true)

/-- What a RING transfer does from a cycle on: its beats and claims, its completion, and what it latches; or its fault
(R339, R178). Offsets, lane and beat count are the word's. -/
def Core.ringPlan (k : Core) (c : CoreIx) (xs xd lane cnt t : Nat) : Except Nat (List Beat × List Claim × Nat × List Nat) :=
  let bs := bankOf xs
  let bd := bankOf xd
  let fmt (b : Nat) : BitVec 64 := (k.ctl.bfmt[b]?).getD 0
  let fs := fld (fmt bs).toNat 4 0
  let fd := fld (fmt bd).toNat 4 0
  let rnd := fld (fmt bd).toNat 10 8
  let (w, conv) := xferW fs fd
  let e := 1024 / w
  let (ws, wd) := if conv then (fmtW fs, fmtW fd) else (w, w)
  let ls := e * ws / 8
  let ld := e * wd / 8
  if xs % (max 1 (ws / 8)) ≠ 0 ∨ xd % (max 1 (wd / 8)) ≠ 0 then .error 0x13
  else if xs % 2 ^ 19 + cnt * ls > 2 ^ 19 ∨ xd % 2 ^ 19 + cnt * ld > 2 ^ 19 then .error 0x12
  else
    let d := if bs = bd then 0 else laneDist lane (bankStop bs) (bankStop bd)
    let reads := (List.range cnt).map fun i => ({ at_ := t + 1 + i, key := spadKey c.val (xs + i * ls), len := ls } : Beat)
    let writes := (List.range cnt).map fun i =>
      ({ at_ := t + 1 + i + d, key := spadKey c.val (xd + i * ld), len := ld, write := true } : Beat)
    let cs := [rdClaim bs (t + 1) cnt, wrClaim bd (t + 1 + d) cnt]
      ++ (if d = 0 then [] else laneClaims lane (bankStop bs) (t + 1) cnt d)
    .ok (reads ++ writes, cs, t + cnt + d,
      [spadKey c.val xs, spadKey c.val xd, fs, fd, rnd, e, ls, ld, ofBool conv])

/-- The bytes captured by a word at a range of keys. -/
def Inflight.at_ (w : Inflight) (key n : Nat) : List Byte :=
  (List.range n).map fun i => ((w.got.find? fun g => g.1 == key + i).map (·.2)).getD 0

/-- Element i of width w bits in a list of bytes, low nibble first (R177). -/
def elemOf (bs : List Byte) (w i : Nat) : Nat := ofBytes bs / 2 ^ (w * i) % 2 ^ w

/-- The bytes of elements of width w. -/
def packElems (w : Nat) (xs : List Nat) : List Byte :=
  toBytes (xs.length * w / 8) (xs.foldr (fun x a => x % 2 ^ w + 2 ^ w * a) 0)

/-- The bytes and statistics of a beat a RING word writes (R178). -/
def Inflight.ringBeat (w : Inflight) (b : Beat) : List Byte × List Nat :=
  let g (i : Nat) := w.lat.getD i 0
  let ix := (b.key - g 1) / max 1 (g 7)
  let src := w.at_ (g 0 + ix * g 6) (g 6)
  if g 8 = 0 then (src, noStats)
  else
    let rs := (List.range (g 5)).map fun i => convert (g 2) (g 3) (g 4) 0 (elemOf src (fmtW (g 2)) i)
    (packElems (fmtW (g 3)) (rs.map (·.code)), rs.foldl (fun a r => addStats a r.stats) noStats)

/-- Puts the beats of a word that is in flight into the schedule (R181). -/
def State.startBeats (s : State) (c : CoreIx) (id : Nat) (beats : List Beat) (doneAt : Nat) (lat : List Nat) : State :=
  let s := s.upd c fun k => { k with pipe := { k.pipe with infl := k.pipe.infl.map fun w =>
    if w.id = id then { w with beats := beats, doneAt := doneAt, lat := lat } else w } }
  let s := beats.foldl (fun s b => s.schedC b.at_ c (.wordRetire c id)) s
  s.schedC doneAt c (.wordRetire c id)

/-- RING (R339): it starts at once, or, in a free leg, once the generator is free. -/
def execRing (h : Hdr) (a b : Fin 16) (l : BitVec 5) (cn : BitVec 8) (s : State) : Outcome State Fault Refusal :=
  let pc := s.me.axu.q.pc
  let i : Instr := .ring h a b l cn
  .next (s.engIssue .axu i h true 0 fun s =>
    let c := s.cur
    let k := s.me
    let xs := (k.axu.reg a).toNat % 2 ^ 23
    let xd := (k.axu.reg b).toNat % 2 ^ 23
    let cnt := cn.toNat + 1
    if k.axu.genBusy s.chron then
      s.axuJob i h pc fun snap =>
        { id := 0, instr := i, pc := pc, next := 0, count := 1, base := 0, stride := 0, cycle := s.chron, lat := [xs, xd], snap := snap }
    else match k.ringPlan c xs xd l.toNat cnt s.chron with
      | .error code => .plain code
      | .ok (beats, cs, done, lat) =>
        match k.pipe.hitAt cs with
        | some u => .late u
        | none =>
          let waits := if h.g then s.pendingOf c .axu else []
          let (id, s) := s.newId
          let s := (s.claim c cs).updMe fun k => { k with axu := { k.axu with genFree := s.chron + cnt + 1 } }
          .ok (s.launch c
            { id := id, eng := .axu, instr := i, pc := pc, issued := s.chron, doneAt := done, beats := beats, lat := lat,
              give := h.g, giveTo := (k.ctl.seen s.chron).to_ 1, waits := waits, access := true }))

/-- Whether a word is LDH or STH. -/
def handleWord : Instr → Bool
  | .ldh .. | .sth .. => true
  | _ => false

/-- The use of a handle that was not ready at issue, made as the generator comes to the word (R189, R328). -/
def State.lateHandle (s : State) (c : CoreIx) (job : GenJob) : GenRes :=
  let go (hd : BitVec 16) (nl : BitVec 3) (x : BitVec 2) : GenRes :=
    let (types, right) := handleNeeds job.instr
    match s.useHandle c hd nl x types right job.snap.n with
    | .filling => .stopped ((s.fillStart c 1 hd.toNat job.pc).schedC (s.chron + 1) c .accessGeneration)
    | .wait => .stall
    | .hard code => .stopped (s.axuFault c job code)
    | .fill code e l =>
      let store := storeWord job.instr
      let k := (s.core c).axu
      .stopped (s.axuMemFault c job code 0 (64 * hd.toNat) (if store then k.stqAT else k.ldqT) store e l)
    | .ready lat s => .done (s.upd c fun k => { k with axu := k.axu.setHead { job with lat := lat } })
  match job.instr with
  | .ldh _ hd nl x | .sth _ hd nl x => go hd nl x
  | _ => .stall

/-- A RING that waited for the generator starts (R325). -/
def State.ringStart (s : State) (c : CoreIx) (job : GenJob) (lane cnt : Nat) : GenRes :=
  match (s.core c).ringPlan c (job.lat.getD 0 0) (job.lat.getD 1 0) lane cnt s.chron with
  | .error code => .stopped (s.axuFault c job code)
  | .ok (beats, cs, done, lat) =>
    if ¬ (s.core c).pipe.free cs then .stall
    else
      let s := (s.claim c cs).upd c fun k => { k with axu := { k.axu.setHead { job with next := 1 } with genFree := s.chron + cnt + 1 } }
      .done (s.startBeats c job.id beats done lat)

/-! ## The generator -/

/-- One access of the job at the head of the generator. -/
def State.genOne (s : State) (c : CoreIx) (job : GenJob) : GenRes :=
  let bump (s : State) := s.upd c fun k => { k with axu := match k.axu.gen with
    | j :: _ => k.axu.setHead { j with next := j.next + 1 }
    | [] => k.axu }
  match job.instr with
  | .ring _ _ _ l cn => s.ringStart c job l.toNat (cn.toNat + 1)
  | _ =>
  if handleWord job.instr ∧ job.lat.isEmpty then s.lateHandle c job
  else if setWord job.instr then s.setStep c job
  else if job.csr then s.csrStep c job
  else if gatherWord job.instr ∧ job.out.isEmpty then s.startIndex c job
  else match s.lineOf c job with
    | .wait => .stall
    | .hard code _ ia => .stopped (s.axuFault c job code ia)
    | .mem code va ia =>
      let store := storeWord job.instr
      let k := (s.core c).axu
      .stopped (s.axuMemFault c job code va ia (if store then k.stqAT else k.ldqT) store 0 0)
    | .at_ va ia n fill =>
      let r := if storeWord job.instr then s.genStore c job va ia n else s.genLoad c job va ia n fill
      match r with
      | .done s => .done (bump s)
      | x => x

/-- The earliest cycle of the next access of a job: one a cycle, a gather's after its index line (R325, R335). -/
def GenJob.due (j : GenJob) (now : Nat) : Nat := if gatherWord j.instr then max (now + 1) (j.cycle) else now + 1

/-- ACCESS_GENERATION: one access of the word at the head of the generator; a stall is tried again in the next cycle
of a free leg and is a deviation in a fixed one (R325). -/
def execAccessGeneration (s : State) : Outcome State Fault Refusal :=
  let c := s.cur
  let k := s.me
  .next (match k.axu.gen with
  | [] => s
  | job :: _ =>
    if s.preStopped c then s.stash c .accessGeneration
    else if s.chron < k.axu.genFree then s.schedC k.axu.genFree c .accessGeneration
    else
      match (if s.marksClear c job.marks then s.genOne c job else .stall) with
      | .stopped s => s
      | .stall =>
        if s.fixedLeg c then s.axuFault c job 0x41
        else s.schedC (s.chron + 1) c .accessGeneration
      | .done s =>
        match (s.core c).axu.gen with
        | [] => s
        | j :: r =>
          if j.next < j.count then s.schedC (j.due s.chron) c .accessGeneration
          else
            let keep := match j.instr with
              | .ring .. => []
              | _ => [j]
            let s := s.upd c fun k => { k with axu := { k.axu with gen := r, past := k.axu.past ++ keep, genFree := max k.axu.genFree (s.chron + 1) } }
            let s := match j.instr with
              | .ring .. => s
              | _ => s.axuClose c j.id
            if r.isEmpty then s else s.schedC (max (s.chron + 1) (s.core c).axu.genFree) c .accessGeneration)

/-! ## Responses at the AXU -/

/-- Data of a piece of a load: written into its slot; the slot is filled when its last piece is (R326, R327). -/
def State.ldqFill (s : State) (c : CoreIx) (r : Req) (slot off : Nat) : State :=
  let t := if r.own then s.chron + axDist (bankOf r.ia) + 1 else s.chron
  let s := s.upd c fun k => { k with
    axu := { k.axu with ldq := k.axu.ldq.map fun e =>
      if e.slot = slot then
        let f := max e.fillAt t
        { e with
          bytes := e.bytes.take off ++ r.result ++ e.bytes.drop (off + r.result.length)
          pending := e.pending - 1
          fillAt := f
          filled := if e.pending = 1 then some f else none }
      else e }
    pipe := k.pipe.late r.word t }
  s.axuClose c r.word

/-- Bytes read for a job arrive (R335, R337, R340). -/
def State.indexFill (s : State) (c : CoreIx) (r : Req) (id key : Nat) : State :=
  s.upd c fun k => { k with axu := { k.axu with gen := k.axu.gen.map fun j =>
    if j.id = id then { j with idx := j.idx ++ [(key, r.result)] } else j } }

/-- A memory fault of an index or list read (R328, R335, R343). -/
def State.indexFault (s : State) (c : CoreIx) (r : Req) (id key code entry level : Nat) : State :=
  match (s.core c).axu.gen.find? (fun j => j.id == id) with
  | none => s
  | some job =>
    let k := (s.core c).axu
    if gatherWord job.instr ∧ code ≠ 0x74 ∧ ¬ s.fixedLeg c ∧ 128 * (key / 128) > 4 * job.next then
      s.upd c fun k => { k with axu := { k.axu with gen := k.axu.gen.map fun j =>
        if j.id = id then { j with flt := j.flt ++ [(128 * (key / 128), code, r.ia)] } else j } }
    else
      let st := storeWord job.instr
      s.axuMemFault c job code r.va r.ia (if st then k.stqAT else k.ldqT) st entry level

/-- The word of an access, as it stood at the generation of that access (R154). -/
def State.jobAt (s : State) (c : CoreIx) (word ix : Nat) (out : List Nat) : Option GenJob :=
  let a := (s.core c).axu
  ((a.gen ++ a.past).find? fun j => j.id == word).map fun j => { j with next := ix, out := out }

/-- A memory fault of a load or store of the AXU at its response (R106, R328). -/
def State.axuRespFault (s : State) (c : CoreIx) (r : Req) (code entry level : Nat) : State :=
  let a := (s.core c).axu
  match r.dest with
  | .ldq slot _ => match a.ldq.find? (fun e => e.slot == slot) with
    | none => s
    | some e => match s.jobAt c e.word e.ix e.out with
      | none => s
      | some j => s.axuMemFault c j code r.va r.ia slot false entry level
  | .stq slot => match a.stqA.find? (fun e => e.slot == slot) with
    | none => s
    | some e => match s.jobAt c e.word e.ix [] with
      | none => s
      | some j => s.axuMemFault c j code r.va r.ia slot true entry level
  | .index id key => s.indexFault c r id key code entry level
  | _ => s

/-- STQ_SLOT_PERFORM: slots whose perform cycle has come are written, or sent to memory when they lie elsewhere; in a
free leg in STQ order (R326, R252). -/
def execStqSlotPerform (s : State) : Outcome State Fault Refusal :=
  let c := s.cur
  let a := s.me.axu
  let fixed := s.fixedLeg c
  .next (match a.stqA.find? (fun x => x.sent && !x.done && !x.reqd && decide (x.perf ≤ s.chron)) with
  | none => s
  | some x =>
    let behind := a.stqA.any fun y => decide (y.slot < x.slot) && !y.done
    if ¬ fixed ∧ behind then s.schedC (s.chron + 1) c .stqSlotPerform
    else
      let bs := a.stqData x.slot
      if ownPieces c x.pieces then
        let s := { s with memory := x.pieces.foldl (fun m (p : Nat × Nat × Nat) => writeBytes m (spadKey c.val (p.2.1 % 2 ^ 23)) ((bs.drop p.1).take p.2.2)) s.memory }
        s.stqDone c x
      else
        let s := s.upd c fun k => { k with axu := k.axu.setStq { x with reqd := true } }
        x.pieces.foldl (fun s p =>
          let r : Req :=
            { id := 0, who := 1, core := c, part := s.partOf c, kind := .write ((bs.drop p.1).take p.2.2), ia := p.2.1,
              va := if x.va = 0 then 0 else x.va + p.1, n := p.2.2, dest := .stq x.slot, fixed := fixed, handle := x.handle,
              word := x.word, issued := s.chron, mark := x.marks }
          if isOwnSpad c p.2.1 then
            let (id, s) := s.addReq { r with own := true, due := s.chron }
            s.schedC s.chron c (.accessResponse id)
          else
            let (id, s) := s.addReq r
            let (lat, s) := if fixed then (0, s) else s.drawAccess c p.2.1
            s.schedC (s.chron + lat) c (.pageWalk id)) s)

/-- A piece of a store is performed: the slot is, when no other piece is left (R326). -/
def State.stqFill (s : State) (c : CoreIx) (slot : Nat) : State :=
  if s.reqs.any (fun r => r.core == c && r.dest == .stq slot) then s
  else match (s.core c).axu.stqA.find? (fun x => x.slot == slot) with
    | none => s
    | some x => s.stqDone c x

end Sys2Proof.Machine
end

