-- ==== Sys2Proof/Machine/AxuRows.lean ====
section
/-! DEFINITION. The row words of the AXU (R344 to R348) and the delivery and failure of row beats (R212, R217). -/

namespace Sys2Proof.Machine

open Host (Outcome)

/-- The bank and row a row word names, or fault 0x56 or 0x54 (R100, R39). -/
def State.rowTarget (s : State) (c : CoreIx) (win : Fin 4) (b : Fin 32) (r : Nat) (bound : Bool) : Except Nat (Fin 32 × Nat) :=
  match (s.core c).ctl.rwin[win].resolve b.val r bound with
  | none => .error 0x56
  | some x => if (s.col c).rowMode x.1 then .ok x else .error 0x54

/-- RACT: opens a row at its issue cycle (R345, R211, R215). -/
def execRact (h : Hdr) (win : Fin 4) (b : Fin 32) (a : Fin 16) (s : State) : Outcome State Fault Refusal :=
  .next (s.engIssue .axu (.ract h win b a) h false 0 fun s =>
    let c := s.cur
    let k := s.col c
    let t := s.chron
    if t < k.wrepEnd then .wait
    else match s.rowTarget c win b (s.me.axu.reg a).toNat true with
      | .error code => .plain code
      | .ok (bank, row) =>
        if 8 ≤ (k.acts.filter fun x => decide (t < x + 40)).length then .plain 0x59
        else if k.rows[bank].at_ t ≠ 0 then .plain 0x52
        else if k.inSlot bank.val t then .plain 0x53
        else .ok (s.activate c bank (BitVec.ofNat 11 row) t))

/-- Byte m of the delivered row Q of a stored row S, in order flat, tile or il2 (R346). -/
def rowOrder (o : Nat) (s : Array Byte) (m : Nat) : Byte :=
  match o with
  | 1 => s.getD (128 * (m % 64) + m / 64) 0
  | 2 =>
    let f (j : Nat) : Nat := ((s.getD (2048 * j + m / 4) 0).toNat / 2 ^ (2 * (m % 4))) % 4
    BitVec.ofNat 8 (f 0 + 4 * f 1 + 16 * f 2 + 64 * f 3)
  | _ => s.getD m 0

/-- The delivered row of a bank (R346). -/
def State.rowData (s : State) (c : CoreIx) (bank row ord : Nat) : List Byte :=
  let src := (readBytes s.memory (c.val * 2 ^ 29 + bank * 2 ^ 24 + row * 2 ^ 13) 8192).toArray
  (List.range 8192).map (rowOrder ord src)

/-- The last beat of a burst to the row input that is delivered in a cycle, with its byte offset: the bytes an RCON that issues in this cycle
leaves to be delivered yet (R212, R352). -/
def Column.lastBeat (k : Column) (t : Nat) : Option (Nat × List Byte) :=
  let failed : Bool := match k.burstFail with
    | some _ => true
    | none => false
  if k.burstDst = 16 ∧ k.burstEnd = t ∧ k.burstStart < t ∧ ¬ failed then some (8192 - k.beatBytes, k.burst.drop (8192 - k.beatBytes)) else none

/-- RCON: consumes the open row, to the BKE's row input or to the own scratchpad over a lane (R346, R212, R352). -/
def execRcon (h : Hdr) (win : Fin 4) (b : Fin 32) (a : Fin 16) (o : BitVec 2) (d : BitVec 5) (s : State) :
    Outcome State Fault Refusal :=
  let pc := s.me.axu.q.pc
  let i : Instr := .rcon h win b a o d
  .next (s.engIssue .axu i h true 0 fun s =>
    let c := s.cur
    let k := s.col c
    let q := s.me
    let t := s.chron
    let n := k.beats
    let lane := d.toNat
    let bke := lane == 16
    let x := (q.axu.reg (a + 1)).toNat % 2 ^ 23
    let dist := laneDist lane 4 (bankStop (bankOf x))
    let cs := if bke then [] else laneClaims lane 4 (t + 2) 64 dist ++ [wrClaim (bankOf x) (t + 2 + dist) 64]
    if t + 1 ≤ k.burstEnd then .wait
    else if bke ∧ (q.bke.stall.isSome ∨ t < q.bke.rowLastUse ∨ (¬ s.fixedLeg c ∧ t ≤ q.bke.rowLastUse ∧ q.bke.rowLastUse ≠ 0)) then .wait
    else if ¬ bke ∧ t + 2 ≤ k.laneEnd then .wait
    else match s.rowTarget c win b (q.axu.reg a).toNat true with
      | .error code => .plain code
      | .ok (bank, row) =>
        match k.rows[bank] with
        | .open_ r act lb pre =>
          if k.rows[bank].at_ t ≠ 1 ∨ r.toNat ≠ row then .plain 0x57
          else if t < act + tRCD then .plain 0x51
          else if ¬ bke ∧ x % 128 ≠ 0 then .plain 0x13
          else if ¬ bke ∧ x % 2 ^ 19 + 8192 > 2 ^ 19 then .plain 0x12
          else match q.pipe.hitAt cs with
          | some u => .late u
          | none =>
            let data := s.rowData c bank.val row o.toNat
            let s := s.updCol c fun k => { k.setRow bank (.open_ r act (max lb (t + n)) pre) with
              burstTail := k.lastBeat t, burstEnd := t + n, burst := data, burstDst := lane, burstX := x, burstStart := t,
              burstFail := none, laneEnd := if bke then k.laneEnd else t + 65 }
            let s := if bke then s.updMe fun k => { k with bke := { k.bke with rowMask := 0 } } else s
            let s := (List.finRange 32).foldl (fun s j =>
              if j.val < n then s.schedC (t + 1 + j.val) c (.rowBeatDelivery c j) else s) (s.claim c cs)
            let beats := if bke then [] else (List.range 64).map fun u =>
              ({ at_ := t + 2 + u + dist, key := spadKey c.val (x + 128 * u), len := 128, bytes := (data.drop (128 * u)).take 128,
                 write := true } : Beat)
            let waits := if h.g then s.pendingOf c .axu else []
            let (id, s) := s.newId
            .ok (s.launch c
              { id := id, eng := .axu, instr := i, pc := pc, issued := t, doneAt := if bke then t + n else t + 65 + dist,
                beats := beats, give := h.g, giveTo := (q.ctl.seen s.chron).to_ 1, waits := waits, access := !bke })
        | _ => .plain 0x57)

/-- RPRE: precharges the bank; it retires when the precharge takes effect (R347, R213). -/
def execRpre (h : Hdr) (win : Fin 4) (b : Fin 32) (a : Fin 16) (s : State) : Outcome State Fault Refusal :=
  let pc := s.me.axu.q.pc
  let i : Instr := .rpre h win b a
  .next (s.engIssue .axu i h true 0 fun s =>
    let c := s.cur
    let k := s.col c
    let t := s.chron
    match s.rowTarget c win b (s.me.axu.reg a).toNat true with
    | .error code => .plain code
    | .ok (bank, _) =>
      let fin (s : State) (e : Nat) : Verdict :=
        let waits := if h.g then s.pendingOf c .axu else []
        let (id, s) := s.newId
        .ok (s.launch c
          { id := id, eng := .axu, instr := i, pc := pc, issued := t, doneAt := e, give := h.g, giveTo := (s.me.ctl.seen s.chron).to_ 1, waits := waits })
      match k.rows[bank] with
      | .open_ _ act lb none =>
        if t < act + tRASmin then .plain 0x58 else fin (s.rowPre c bank t) (prechargeAt t lb)
      | .open_ _ act _ (some e) => if t < e ∧ t < act + tRASmin then .plain 0x58 else fin s (max t e)
      | _ => fin s t)

/-- The value RSTAT reads (R348). -/
def Column.rstat (k : Column) (bank : Fin 32) (rowlo t : Nat) : Nat :=
  let st := k.rows[bank].at_ t
  let (row, age) := match k.rows[bank] with
    | .open_ r act _ _ => if st = 1 then (lowInt ((r.toNat : Int) - rowlo) 11, min (t - act) 65535) else (0, 0)
    | _ => (0, 0)
  let refin := if k.inSlot bank.val t then 0 else min (k.toSlot bank.val t) 65535
  st + 4 * ofBool k.half + 8 * ofBool k.hot + 2 ^ 16 * row + 2 ^ 32 * age + 2 ^ 48 * refin

/-- RSTAT (R348). -/
def execRstat (h : Hdr) (win : Fin 4) (b : Fin 32) (a : Fin 16) (s : State) : Outcome State Fault Refusal :=
  .next (s.engIssue .axu (.rstat h win b a) h false 0 fun s =>
    let c := s.cur
    match s.rowTarget c win b 0 false with
    | .error code => .plain code
    | .ok (bank, _) =>
      let v := (s.col c).rstat bank (s.me.ctl.rwin[win].rowlo.toNat) s.chron
      .ok (s.updMe fun k => k.setA a (BitVec.ofNat 64 v)))

/-- Bytes of a beat put into the row input at an offset; their mask bits are set when asked (R352). -/
def Bke.beatIn (b : Bke) (off : Nat) (bs : List Byte) (mask : Bool) : Bke :=
  { b with
    rowIn := b.rowIn.take off ++ bs ++ b.rowIn.drop (off + bs.length)
    rowMask := if mask then b.rowMask ||| (BitVec.ofNat 8192 (2 ^ bs.length - 1) <<< off) else b.rowMask }

/-- The last beat of a burst whose place an RCON took in that very cycle: it fills the row input; of its bytes the mask stays clear when the
RCON, which clears it, feeds the row input too (DESIGN CHOICE log 70). -/
def State.tailBeat (s : State) (col : CoreIx) (t : Nat × List Byte) : State :=
  let bke := (s.col col).burstDst == 16
  (s.upd col fun q => { q with bke := q.bke.beatIn t.1 t.2 (!bke) }).updCol col fun k => { k with burstTail := none }

/-- ROW_BEAT_DELIVERY: beat i of the burst of a column; to the BKE it fills the row input and its mask (R212, R352).
The lane beats of a burst to the scratchpad are the word's own. -/
def execRowBeatDelivery (col : CoreIx) (beat : Fin 32) (s : State) : Outcome State Fault Refusal :=
  let k := s.col col
  let n := k.beatBytes
  let off := n * beat.val
  let failed : Bool := match k.burstFail with
    | some f => decide (f ≤ beat.val)
    | none => false
  .next (match k.burstTail with
  | some t => s.tailBeat col t
  | none =>
    if failed ∨ k.burstDst ≠ 16 ∨ k.beats ≤ beat.val ∨ s.chron ≤ k.burstStart then s
    else s.upd col fun q => { q with bke := q.bke.beatIn off ((k.burst.drop off).take n) true })

/-- The row-source words in flight that need a byte at or after an offset which no beat has delivered: they stall at it for good, their
adders with them (R217, R352, R353). -/
def State.starve (s : State) (c : CoreIx) (off : Nat) : State :=
  let mask := (s.core c).bke.rowMask
  (s.core c).pipe.infl.foldl (fun s w =>
    let base := (w.got.head?.map (·.1)).getD 0
    let need := ((w.got.mapIdx fun i g => (base + i, g.1)).filter fun k =>
      k.1 == k.2 && decide (2 ^ 60 + off ≤ k.1) && decide (k.1 < 2 ^ 60 + 8192) && !mask.getLsbD (k.1 - 2 ^ 60)).map (·.1)
    match w.acted || !(w.eng == .bke), need with
    | false, k :: r => s.upd c fun q =>
        { q with
          bke := { q.bke with stall := some (k - 2 ^ 60, (r.getLast?.getD k) - 2 ^ 60) }
          pipe := { q.pipe with
            infl := q.pipe.infl.map fun x => if x.id = w.id then { x with doneAt := never } else x
            busy := q.pipe.busy.map fun y => if y.kind = 0 ∧ y.hi = w.doneAt then { y with hi := never } else y } }
    | _, _ => s) s

/-- ROW_BEAT_FAILURE: beat i fails its CRC: it and the later beats are not delivered, the lane beats that would carry
them are not sent, and 0x55 is raised by the row controller with AUX = i (R217, R346). -/
def execRowBeatFailure (col : CoreIx) (beat : Fin 32) (s : State) : Outcome State Fault Refusal :=
  let k := s.col col
  let per := if k.half then 2 else 4
  .next (if k.burstEnd < s.chron ∨ k.beats ≤ beat.val ∨ k.burstFail.isSome then s
  else
    let s := s.updCol col fun k => { k with burstFail := some beat.val, repair := true }
    let s := if k.burstDst = 16 then s.starve col (k.beatBytes * beat.val) else s
    let s := s.upd col fun q => { q with pipe := { q.pipe with infl := q.pipe.infl.map fun w =>
      match w.instr with
      | .rcon .. => if w.issued = k.burstStart then
          { w with beats := w.beats.filter fun b => decide (b.key < spadKey col.val (k.burstX + 128 * (per * beat.val))) } else w
      | _ => w } }
    s.coreFault col 5 0x55 (-1) 0 0xFFFF beat.val)

/-- PRECHARGE_COMPLETE: at e + TRP the bank becomes CLOSED (R213). -/
def execPrechargeComplete (col : CoreIx) (bank : Fin 32) (s : State) : Outcome State Fault Refusal :=
  .next (match (s.col col).rows[bank] with
  | .open_ _ _ _ (some e) => if e + tRP ≤ s.chron then s.updCol col fun k => k.setRow bank .closed else s
  | .precharging u => if u ≤ s.chron then s.updCol col fun k => k.setRow bank .closed else s
  | _ => s)

/-- REFRESH_SLOT_START: a bank OPEN or PRECHARGING when its refresh slot begins raises 0x53 (R214). -/
def execRefreshSlotStart (col : CoreIx) (bank : Fin 32) (s : State) : Outcome State Fault Refusal :=
  let k := s.col col
  .next (if k.rows[bank].at_ s.chron = 0 then s
  else if k.toSlot bank.val s.chron = 0 then s.coreFault col 5 0x53 (-1)
  else s.schedC (s.chron + k.toSlot bank.val s.chron) col (.refreshSlotStart col bank))

/-- ROW_OPEN_TOO_LONG: a bank still OPEN at t_a + TRASMAX + 1 with no RPRE issued raises 0x53 (R214). -/
def execRowOpenTooLong (col : CoreIx) (bank : Fin 32) (tAct : Nat) (s : State) : Outcome State Fault Refusal :=
  .next (match (s.col col).rows[bank] with
  | .open_ _ act _ none => if act = tAct ∧ act + tRASmax < s.chron then s.coreFault col 5 0x53 (-1) else s
  | _ => s)

end Sys2Proof.Machine
end

