-- ==== Sys2Proof/Machine/Bke.lean ====
section
/-! DEFINITION. The bucket engine: sources and intervals (R350 to R354), the window and the codebooks (R356 to R358),
the buckets (R359 to R361), direct mode (R362), the accumulator port (R363 to R369), loops (R370). -/

namespace Sys2Proof.Machine

open Host (Outcome)

/-! ## Units of R353 -/

/-- Name of the adders among the busy units. -/
def bAdders : Nat := 0
/-- Name of the codeword array. -/
def bArray : Nat := 1
/-- Name of the window's write port. -/
def bWindow : Nat := 2
/-- Name of the nest registers' write port. -/
def bNest : Nat := 3
/-- Name of the write port of codebook register k. -/
def bCodebook (k : Nat) : Nat := 10 + k
/-- Name of an accumulator bank: the working one or the visible one. -/
def bBank (wk : Bool) : Nat := if wk then 20 else 21
/-- Name of the exact path (R237). -/
def bExact : Nat := 30
/-- Name of an accumulator bank as a VSUMZ occupies it (R400). -/
def vBank (wk : Bool) : Nat := if wk then 22 else 23
/-- Name of the exact path as a VSUMZ occupies it (R400). -/
def vExact : Nat := 31
/-- Name of the slice SRAM read port (R353 case 9). -/
def bSlice : Nat := 40

/-- The first of a list of optional cycles in its order. -/
def firstHit (l : List (Option Nat)) : Option Nat := l.foldl (fun a b => match a, b with
  | none, y => y
  | some x, none => some x
  | some x, some y => some (min x y)) none

/-- The first cycle at which an interval meets one of a VSUMZ that started before it; of two that start together the
VSUMZ waits (R400). -/
def Pipe.vsumHit (k : Pipe) (kind lo hi : Nat) : Option Nat :=
  if k.busy.any fun y => y.kind == kind && decide (y.lo < lo) && decide (y.lo ≤ hi) && decide (lo ≤ y.hi) then some lo else none

/-- The cycle an accumulator access of cycles lo to hi breaks case 7 of R353: an earlier word still writes the bank or
has yet to; or meets a VSUMZ (R400). -/
def Pipe.bankHit (k : Pipe) (wk : Bool) (lo hi : Nat) : Option Nat :=
  if k.until_ (bBank wk) lo then some lo else k.vsumHit (vBank wk) lo hi

/-- The first cycle at which a use of the exact path meets another (R353 case 8, R400). -/
def Pipe.exactHit (k : Pipe) (lo hi : Nat) : Option Nat := firstHit [k.held bExact lo hi, k.vsumHit vExact lo hi]

/-! ## Lanes -/

/-- An accumulator bank by name. -/
def Bke.bank (k : Bke) (wk : Bool) : Vector Lane 256 := if wk then k.work else k.vis

/-- The engine with an accumulator bank replaced. -/
def Bke.setBank (k : Bke) (wk : Bool) (v : Vector Lane 256) : Bke := if wk then { k with work := v } else { k with vis := v }

/-- Lane j of a bank. -/
def laneAt (v : Vector Lane 256) (j : Nat) : Lane := (v[j]?).getD {}

/-- Applies to each lane of a range the terms a function gives it; none is the carry guard 0x23 in any lane, which
leaves every lane as it was (R232, R233, R361). -/
def applyLanes (v : Vector Lane 256) (lo n : Nat) (f : Nat → List Val) : Option (Vector Lane 256) :=
  (List.range n).foldl (fun (a : Option (Vector Lane 256)) i => match a with
    | none => none
    | some w =>
      if h : lo + i < 256 then (match w[lo + i].applyAll (f (lo + i)) with
        | some l => some (w.set (lo + i) l h)
        | none => none)
      else a) (some v)

/-- The product of two values as a term: NaN for a NaN operand or 0 × ±Inf, a signed infinity for ±Inf times a non-zero
value, else exact (R362). -/
def Val.times : Val → Val → Val
  | .fin n m e, .fin n' m' e' => .fin (n != n') (m * m') (e + e')
  | .inf n, .inf n' => .inf (n != n')
  | .inf n, .fin n' m' _ => if m' = 0 then .nan else .inf (n != n')
  | .fin n m _, .inf n' => if m = 0 then .nan else .inf (n != n')
  | _, _ => .nan

/-- The value a lane holds (R365). -/
def Lane.val (l : Lane) : Val :=
  if l.nan ∨ l.inv then .nan else if l.pinf then .inf false else if l.ninf then .inf true
  else .fin (decide (l.value.toInt < 0)) l.value.toInt.natAbs (-320)

/-! ## Nests (R349) -/

/-- The coordinate P of a BH word. -/
def Bke.coord (k : Bke) (nl : Nat) : Nat := if h : nl < 6 then k.n[nl].pos.toNat else 0

/-- The offset X_s: all six nest registers, whether a loop on them is open or not. -/
def Bke.offset (k : Bke) (ss : Nat) : Nat :=
  lowInt ((List.finRange 6).foldl (fun a i => a + (k.n[i].pos.toNat : Int) * k.n[i].stride ss) 0) 23

/-! ## Sources (R350 to R352) -/

/-- Distance of a bank from stop 9 in the request direction of R351. -/
def bkDist (bank : Nat) : Nat := if bankStop bank < 9 then 9 - bankStop bank else bankStop bank - 9

/-- The request and the reply lane of a bank for lane index n (R351). -/
def bkLanes (bank n : Nat) : Nat × Nat := if 9 < bankStop bank then (n, 8 + n) else (8 + n, n)

/-- The offset of n bytes at an address in a source, if every byte lies in it (R350). -/
def State.srcOff (s : State) (c : CoreIx) (x a n : Nat) : Option Nat :=
  match x with
  | 0 => if isOwnSpad c a ∧ isOwnSpad c (a + n - 1) then some (a % 2 ^ 23) else none
  | 1 => if s.sliceOk c a ∧ s.sliceOk c (a + n - 1) then some a else none
  | _ => if a + n ≤ 8192 then some a else none

/-- Memory key of an offset in a source; a row-input byte has a key of its own. -/
def srcKey (c : CoreIx) (x off : Nat) : Nat :=
  match x with
  | 0 => spadKey c.val off
  | 1 => sliceKey c.val off
  | _ => 2 ^ 60 + off

/-- Bytes of a read unit of a source: a scratchpad line, or a slice unit (R350). -/
def srcUnit (x : Nat) : Nat := if x = 0 then 128 else 256

/-- A number put into a rising list without repeats. -/
def insertUp : List Nat → Nat → List Nat
  | [], x => [x]
  | y :: r, x => if x < y then x :: y :: r else if x = y then y :: r else y :: insertUp r x

/-- The units of size u that hold a byte of a list of ranges, ascending, each once (R350). -/
def unitsOf (u : Nat) (rs : List (Nat × Nat)) : List Nat :=
  rs.foldl (fun a r => (List.range ((r.1 + r.2 - 1) / u - r.1 / u + 1)).foldl (fun a i => insertUp a (r.1 / u + i)) a) []

/-- What reading a source takes: the source latency, its term of D, the cycle of the last arrival or consumption, the
cycles added by a wait for the row input, the captures, the ring claims, the slice read cycles, the bytes captured
at issue; the cycle of the deviation of a byte not delivered, and the span of one that never will be. -/
structure SrcPlan where
  ls : Nat
  term : Nat
  last : Nat
  wait : Nat := 0
  beats : List Beat := []
  claims : List Claim := []
  slice : List Busy := []
  got : List (Nat × Byte) := []
  row : Bool := false
  undelivered : Option Nat := none
  stuck : Option (Nat × Nat) := none

/-- Reads of scratchpad lines over a lane index, from cycle i (R350, R351). -/
def spadPlan (c : CoreIx) (lane i : Nat) (us : List Nat) : SrcPlan :=
  let bank (u : Nat) : Nat := bankOf (128 * u)
  let d := us.foldl (fun a u => max a (bkDist (bank u))) 0
  let banks := us.foldl (fun a u => insertUp a (bank u)) []
  let reqs := (banks.map fun b => laneClaims (bkLanes b lane).1 9 i 1 (bkDist b)).flatten
  let lines := (us.mapIdx fun q u =>
    let b := bank u
    rdClaim b (i + d + q) 1 :: laneClaims (bkLanes b lane).2 (bankStop b) (i + 2 * d - bkDist b + 1 + q) 1 (bkDist b)).flatten
  { ls := 2 * d + 1
    term := us.length
    last := i + 2 * d + us.length
    beats := us.mapIdx fun q u => { at_ := i + d + q, key := spadKey c.val (128 * u), len := 128 }
    claims := reqs ++ lines }

/-- Reads of slice units from cycle i (R350). -/
def slicePlan (c : CoreIx) (i : Nat) (us : List Nat) : SrcPlan :=
  { ls := 2
    term := us.length
    last := i + us.length + 1
    beats := us.mapIdx fun q u => { at_ := i + q, key := sliceKey c.val (256 * u), len := 256 }
    slice := [⟨bSlice, i, i + us.length - 1⟩] }

/-- The cycle from whose end a byte of the row input is delivered: 0 for one whose mask bit is set, none for one no
burst in progress will deliver (R352, R212). -/
def State.deliveredAt (s : State) (c : CoreIx) (x : Nat) : Option Nat :=
  let k := s.col c
  let tail : Bool := match k.burstTail with
    | some t => decide (t.1 ≤ x) && k.burstDst != 16
    | none => false
  if (s.core c).bke.rowMask.getLsbD x then some 0
  else if tail then some s.chron
  else
    let j := x / k.beatBytes
    let failed : Bool := match k.burstFail with
      | some f => decide (f ≤ j)
      | none => false
    if k.burstDst = 16 ∧ s.chron ≤ k.burstEnd ∧ k.burstStart < s.chron + 1 ∧ ¬ failed then some (k.burstStart + 1 + j) else none

/-- Consumption of the bytes pos to hi from cycle t on, one span of w bytes a cycle: the last consumption cycle and
the cycle of the first byte found undelivered; or a byte no burst will deliver, with that cycle. -/
def State.consume (s : State) (c : CoreIx) (w hi : Nat) : Nat → Nat → Nat → Option Nat → Except (Nat × Nat) (Nat × Option Nat)
  | 0, _, t, miss => .ok (t, miss)
  | fuel + 1, pos, t, miss =>
    let top := min (pos + w - 1) hi
    let late := (List.range (top + 1 - pos)).find? fun j => match s.deliveredAt c (pos + j) with
      | some x => decide (t ≤ x) && x != 0
      | none => true
    match late with
    | none => if hi ≤ top then .ok (t, miss) else s.consume c w hi fuel (top + 1) (t + 1) miss
    | some j => match s.deliveredAt c (pos + j) with
      | none => .error (pos + j, miss.getD t)
      | some x => s.consume c w hi fuel (pos + j) (x + 1) (some (miss.getD t))

/-- The row input as its burst in progress will leave it (R212). -/
def State.rowPeek (s : State) (c : CoreIx) : List Byte :=
  let k := s.col c
  let r := (s.core c).bke.rowIn
  if k.burstDst = 16 ∧ s.chron ≤ k.burstEnd ∧ k.burst.length = 8192 then
    let n := match k.burstFail with
      | some f => f * k.beatBytes
      | none => 8192
    k.burst.take n ++ r.drop n
  else match k.burstTail with
    | some t => r.take t.1 ++ t.2
    | none => r

/-- Consumption of a span of the row input from cycle i (R352). -/
def State.rowPlan (s : State) (c : CoreIx) (i : Nat) (rs : List (Nat × Nat)) : SrcPlan :=
  let lo := rs.foldl (fun a r => min a r.1) 8191
  let hi := rs.foldl (fun a r => max a (r.1 + r.2 - 1)) 0
  let w := (s.col c).beatBytes
  let n := (hi - lo) / w + 1
  let got := ((((s.rowPeek c).drop lo).take (hi + 1 - lo)).mapIdx fun j b => (srcKey c 2 (lo + j), b))
  let p : SrcPlan := { ls := 0, term := n, last := i + n - 1, got := got, row := true }
  match s.consume c w hi 16384 lo i none with
  | .ok (t, miss) => { p with last := t, wait := t - (i + n - 1), undelivered := miss }
  | .error (x, miss) => { p with last := never, undelivered := some miss, stuck := some (x, hi) }

/-- Reads of ranges of a source from cycle i; the lane index is 3 (R350, R351). -/
def State.srcPlan (s : State) (c : CoreIx) (x i : Nat) (rs : List (Nat × Nat)) : SrcPlan :=
  match x with
  | 0 => spadPlan c 3 i (unitsOf 128 rs)
  | 1 => slicePlan c i (unitsOf 256 rs)
  | _ => s.rowPlan c i rs

/-- The first cycle at which a source's reads break case 9 or 10 of R353. -/
def SrcPlan.hit (p : SrcPlan) (k : Pipe) : Option Nat :=
  firstHit ([k.hitAt p.claims] ++ p.slice.map fun b => k.held b.kind b.lo b.hi)

/-- n bytes at a key as a word in flight captured them; a byte it did not capture is read now. -/
def State.captured (s : State) (w : Inflight) (key n : Nat) : List Byte :=
  let have_ := w.got.toArray
  let base := have_.findIdx? fun g => g.1 == key
  match base with
  | some b =>
    (List.range n).map fun i => match have_[b + i]? with
      | some g => if g.1 = key + i then g.2 else ((w.got.find? fun g => g.1 == key + i).map (·.2)).getD (readByte s.memory (key + i))
      | none => readByte s.memory (key + i)
  | none => (List.range n).map fun i => ((w.got.find? fun g => g.1 == key + i).map (·.2)).getD (readByte s.memory (key + i))

/-! ## Issue and completion -/

/-- Looks at a word in flight in every cycle from one to just before another: the cycles in which its running values may reach the carry
guard (R233). -/
def State.steps (s : State) (c : CoreIx) (id lo hi : Nat) : State :=
  (List.range (hi - lo)).foldl (fun s i => s.schedC (lo + i) c (.wordRetire c id)) s

/-- Puts a BKE word in flight until a cycle, with its claims and units (R353, R355). -/
def State.bkeLaunch (s : State) (i : Instr) (h : Hdr) (pc : Int) (doneAt : Nat) (p : SrcPlan) (busy : List Busy) (lat : List Nat)
    (writes : Bool := false) : State :=
  let c := s.cur
  let waits := if h.g then s.pendingOf c .bke else []
  let (id, s) := s.newId
  let s := (s.claim c p.claims).occupy c (p.slice ++ busy)
  let w : Inflight :=
    { id := id, eng := .bke, instr := i, pc := pc, issued := s.chron, doneAt := doneAt, beats := p.beats, got := p.got, lat := lat,
      give := h.g, giveTo := (s.me.ctl.seen s.chron).to_ 2, waits := waits, access := writes }
  if p.stuck.isSome then s.upd c fun k => { k with pipe := { k.pipe with infl := k.pipe.infl ++ [w] }, bke := { k.bke with stall := p.stuck } }
  else (s.steps c id (busy.foldl (fun a b => if b.kind = 1 ∨ b.kind = 30 then max a b.lo else a) doneAt) doneAt).launch c w

/-- A BKE word that acts in its issue cycle alone (R355). -/
def State.bkeNow (s : State) (i : Instr) (h : Hdr) (late : State → Option Nat) (f : State → State) : State :=
  s.engIssue .bke i h false 0 fun s => match late s with
    | some t => .late t
    | none => .ok (f s)

/-- Looks up a handle for a BKE word and checks its type and right (R188, R189). -/
def State.bkeHandle (s : State) (hx : Nat) (types : List Nat) (right : HRight) : Except Verdict (BitVec 512 × State) :=
  match s.handle s.cur hx with
  | .wait => .error (.fill hx)
  | .deviation => .error .wait
  | .fault code entry level => .error (.fillFault code entry level hx)
  | .hit e s => match handleCheck s.me.ctl.bfmt e types right with
    | some code => .error (.fault code 0 0 false false hx)
    | none => .ok (e, s)

/-- A fault of a handle's data. -/
def Verdict.ofHandle (code ia hx : Nat) : Verdict := .fault code 0 ia false false hx

/-! ## Window and codebooks -/

/-- The ranges of a list of addresses in a source, or the first address outside it (R350). -/
def State.srcRanges (s : State) (c : CoreIx) (x : Nat) : List (Nat × Nat) → Except Nat (List (Nat × Nat))
  | [] => .ok []
  | (a, n) :: r => match s.srcOff c x a n with
    | none => .error a
    | some o => match s.srcRanges c x r with
      | .ok l => .ok ((o, n) :: l)
      | .error a => .error a

/-- BWIN: loads segment P of an activation operand and its scales into the window (R356). -/
def execBwin (h : Hdr) (hd : BitVec 16) (nl : BitVec 3) (x : BitVec 2) (s : State) : Outcome State Fault Refusal :=
  let pc := s.me.bke.q.pc
  let i : Instr := .bwin h hd nl x
  .next (s.engIssue .bke i h true 0 fun s =>
    let c := s.cur
    let hx := hd.toNat
    let t := s.chron
    if nl ≠ 7 ∧ s.me.pipe.until_ bNest t then .late t
    else if hx = 0xFFFF then .ofHandle 0x10 0 hx
    else match s.bkeHandle hx [1] .rd with
    | .error v => v
    | .ok (e, s) => match s.bkeHandle (hx + 1) [1] .rd with
      | .error v => v
      | .ok (f, s) =>
        let nb := entBound e 1
        let seg := s.me.bke.coord nl.toNat
        let blk := 32 * seg / entBlk e
        if entFmt e ≠ 1 ∨ entNdim e ≠ 2 ∨ entFmt f ≠ 15 ∨ entNdim f ≠ 2 ∨ ¬ [1, 2, 4, 8, 16, 32, 64].contains nb
            ∨ entStr e 0 ≠ 1 ∨ entBound f 1 ≠ nb then .ofHandle 0x15 0 hx
        else if entBound e 0 ≤ 32 * seg + 31 then .ofHandle 0x12 (elemAddr e [32 * seg, 0]) hx
        else if entBound f 0 ≤ blk then .ofHandle 0x12 (elemAddr f [blk, 0]) (hx + 1)
        else
          let rows := (List.range nb).map fun b => elemAddr e [32 * seg, b]
          let scs := (List.range nb).map fun b => elemAddr f [blk, b]
          match s.srcRanges c x.toNat (rows.map fun a => (a, 32)), s.srcRanges c x.toNat (scs.map fun a => (a, 1)) with
          | .error a, _ => .ofHandle 0x12 a hx
          | _, .error a => .ofHandle 0x12 a (hx + 1)
          | .ok rs, .ok ss =>
            let p := s.srcPlan c x.toNat t (rs ++ ss)
            match p.hit s.me.pipe with
            | some u => .late u
            | none => .ok (s.bkeLaunch i h pc p.last p [⟨bWindow, t, p.last⟩]
                ([seg, blk, nb] ++ (rs ++ ss).map fun r => srcKey c x.toNat r.1)))

/-- The write of the window (R356). -/
def State.bwinDone (s : State) (c : CoreIx) (w : Inflight) : State :=
  let g (i : Nat) := w.lat.getD i 0
  let nb := g 2
  s.upd c fun k =>
    let win := (List.range nb).foldl (fun v b => (s.captured w (g (3 + b)) 32).zipIdx.foldl (fun (v : Vector (BitVec 8) 2048) y =>
      if h : 64 * y.2 + b < 2048 then v.set (64 * y.2 + b) y.1 h else v) v) k.bke.win
    let wsc := (List.range nb).foldl (fun (v : Vector (BitVec 8) 64) b =>
      if h : b < 64 then v.set b ((s.captured w (g (3 + nb + b)) 1).headD 0) h else v) k.bke.wsc
    { k with bke := { k.bke with win := win, wsc := wsc, wseg := g 0, wblk := g 1, wnb := nb } }

/-- The 96 bytes at the base of a raw handle in the own scratchpad, for CBLD and BWIN.cfg (R357, R358). -/
def State.bke96 (s : State) (i : Instr) (h : Hdr) (pc : Int) (hx : Nat) (align : Nat) (kind : Nat) (lat : List Nat) : Verdict :=
  let c := s.cur
  match s.bkeHandle hx [1] .rd with
  | .error v => v
  | .ok (e, s) =>
    if entFmt e ≠ 0 ∨ entBound e 0 < 96 then .ofHandle 0x15 0 hx
    else match s.srcOff c 0 (entBase e) 96 with
      | none => .ofHandle 0x12 (entBase e) hx
      | some o =>
        if o % align ≠ 0 then .ofHandle 0x13 (entBase e) hx
        else
          let p := s.srcPlan c 0 s.chron [(o, 96)]
          match p.hit s.me.pipe with
          | some u => .late u
          | none => .ok (s.bkeLaunch i h pc p.last p [⟨kind, s.chron, p.last⟩] (lat ++ [spadKey c.val o]))

/-- BWIN.cfg: loads the six nest registers; reserved while a loop is open (R357). -/
def execBwinCfg (h : Hdr) (hd : BitVec 16) (s : State) : Outcome State Fault Refusal :=
  let q := s.me.bke.q
  .next (s.engIssue .bke (.bwinCfg h hd) h true 0 fun s =>
    if ¬ q.loops.isEmpty then .plain 0x01 else s.bke96 (.bwinCfg h hd) h q.pc hd.toNat 1 bNest [])

/-- A nest register from its 16 bytes (R173). -/
def Nest.ofBytes (b : List Byte) : Nest :=
  let v := Sys2Proof.Machine.ofBytes b
  { bound := BitVec.ofNat 16 v, pos := BitVec.ofNat 16 (v / 2 ^ 16), s0 := BitVec.ofNat 32 (v / 2 ^ 32),
    s1 := BitVec.ofNat 32 (v / 2 ^ 64), s2 := BitVec.ofNat 32 (v / 2 ^ 96) }

/-- The write of the nest registers (R357). -/
def State.cfgDone (s : State) (c : CoreIx) (w : Inflight) : State :=
  let bs := s.captured w (w.lat.getD 0 0) 96
  s.upd c fun k => { k with bke := { k.bke with n := Vector.ofFn fun i => Nest.ofBytes ((bs.drop (16 * i.val)).take 16) } }

/-- CBLD: loads a codebook register (R358). -/
def execCbld (h : Hdr) (hd : BitVec 16) (k : Fin 8) (s : State) : Outcome State Fault Refusal :=
  let pc := s.me.bke.q.pc
  .next (s.engIssue .bke (.cbld h hd k) h true 0 fun s => s.bke96 (.cbld h hd k) h pc hd.toNat 32 (bCodebook k.val) [k.val])

/-- A codebook register from its image; none when CFMT is 3 (R198). -/
def Codebook.ofBytes (b : List Byte) : Option Codebook :=
  let v := Sys2Proof.Machine.ofBytes b
  if fld v 129 128 = 3 then none
  else some
    { cw := Vector.ofFn fun i => BitVec.ofNat 16 (v / 2 ^ (16 * i.val))
      cfmt := BitVec.ofNat 2 (v / 2 ^ 128)
      sc := Vector.ofFn fun i => BitVec.ofNat 8 (v / 2 ^ (256 + 8 * i.val)) }

/-- The write of a codebook register, or 0x16 (R358). -/
def State.cbldDone (s : State) (c : CoreIx) (w : Inflight) : State :=
  match Codebook.ofBytes (s.captured w (w.lat.getD 1 0) 96) with
  | none => s.coreFault c 2 0x16 w.pc
  | some b => s.upd c fun k =>
    if h : w.lat.getD 0 0 < 8 then { k with bke := { k.bke with cb := k.bke.cb.set (w.lat.getD 0 0) b h } } else k

/-! ## Buckets -/

/-- The non-zero codes of a code kind (R197). -/
def codesOf (kind : Nat) : List Nat := match kind with
  | 1 => [1, 3]
  | 2 => [1, 2, 3]
  | _ => [1, 2, 3, 4, 5, 6, 7]

/-- What a walk over a tile reads and finds: the byte ranges, the (code, position) pairs of each column served, the
reserved codes, the index applications, and the first fault with its address (R200 to R202, R359). -/
structure TileWalk where
  ranges : List (Nat × Nat) := []
  looks : List Nat := []
  cols : List (List (Nat × Nat)) := []
  reserved : Nat := 0
  n : Nat := 0
  err : Option (Nat × Nat) := none

/-- Reads n bytes at an address in a walk that has not faulted. -/
def TileWalk.rd (w : TileWalk) (get : Nat → Nat → Option (List Byte)) (a n : Nat) : Nat × TileWalk :=
  if w.err.isSome then (0, w)
  else match get a n with
    | none => (0, { w with err := some (0x12, a) })
    | some bs => (ofBytes bs, { w with ranges := w.ranges ++ [(a, n)] })

/-- The walk with a malformed tile noted. -/
def TileWalk.bad (w : TileWalk) (p : Bool) (a : Nat) : TileWalk := if p && w.err.isNone then { w with err := some (0x16, a) } else w

/-- Whether a list of positions is strictly ascending. -/
def ascending : List Nat → Bool
  | x :: y :: r => decide (x < y) && ascending (y :: r)
  | _ => true

/-- One record of a steer tile at an address: its length, its (code, position) pairs, and the walk (R201, R202). -/
def TileWalk.record (w : TileWalk) (get : Nat → Nat → Option (List Byte)) (kind a : Nat) : Nat × List (Nat × Nat) × TileWalk :=
  let ks := codesOf kind
  let hb := match kind with
    | 1 => 2 | 2 => 3 | _ => 6
  let (hv, w) := w.rd get a hb
  let counts := ks.mapIdx fun i _ => hv / 2 ^ (6 * i) % 64
  let n := counts.foldl (· + ·) 0
  let w := w.bad (hv / 2 ^ (6 * ks.length) != 0 || decide (32 < n)) a
  let nb := ceilDiv (5 * n) 8
  let (iv, w) := if n = 0 then (0, w) else w.rd get (a + hb) nb
  let w := w.bad (iv / 2 ^ (5 * n) != 0) a
  let ps := (List.range n).map fun i => iv / 2 ^ (5 * i) % 32
  let groups := (List.zip ks counts).foldl (fun (acc : List (Nat × List Nat) × List Nat) kc =>
    (acc.1 ++ [(kc.1, acc.2.take kc.2)], acc.2.drop kc.2)) ([], ps)
  let w := w.bad (groups.1.any (fun g => !ascending g.2) || decide (ps.eraseDups.length < n)) a
  (hb + nb, (groups.1.map fun g => g.2.map fun p => (g.1, p)).flatten, w)

/-- Length of a tile's segment block or stride, STR0, as a natural (R200). -/
def tileStr0 (e : BitVec 512) : Nat := (entStr e 0).toNat

/-- Bytes offset PTR0, PTR1 and LEN0 of a tile entry (R187). -/
def tilePtr0 (e : BitVec 512) : Nat := entBound e 4
/-- See `tilePtr0`. -/
def tileLen0 (e : BitVec 512) : Nat := (entStr e 4 % 2 ^ 32).toNat

/-- BSTEER's walk over the columns col0 to col0 + nc − 1 of segment `seg` (R200 to R202, R359). The entry of the group
after a served one is looked at for its bound only, and is no byte the word reads (DESIGN CHOICE log 70). -/
def steerWalk (get : Nat → Nat → Option (List Byte)) (e : BitVec 512) (seg col0 nc : Nat) : TileWalk :=
  let cols := entBound e 1
  let gs := ceilDiv cols 64
  let str0 := tileStr0 e
  let blk := lowInt ((entBase e : Int) + seg * entStr e 0) 56
  let entAt (g : Nat) : Nat := entBase e + tilePtr0 e + 2 * (seg * gs + g)
  let inLen (g : Nat) : Bool := decide (2 * (seg * gs + g) + 2 ≤ tileLen0 e)
  (List.range ((col0 + nc - 1) / 64 - col0 / 64 + 1)).foldl (fun w j =>
    let g := col0 / 64 + j
    let w := if !inLen g && w.err.isNone then { w with err := some (0x12, entAt g) } else w
    let (x, w) := w.rd get (entAt g) 2
    let off := 8 * x
    let lim := if g + 1 < gs ∧ inLen (g + 1) then (match get (entAt (g + 1)) 2 with
      | some bs => min str0 (8 * ofBytes bs)
      | none => str0) else str0
    let w := if g + 1 < gs ∧ inLen (g + 1) then { w with looks := w.looks ++ [entAt (g + 1)] } else w
    let w := w.bad (decide (str0 < off)) (entAt g)
    let first := 64 * g
    let stop := min (min (first + 64) cols) (col0 + nc)
    ((List.range (stop - first)).foldl (fun (acc : Nat × TileWalk) i =>
      let (o, w) := acc
      if w.err.isSome then acc
      else
        let (len, ps, w) := w.record get (entCode e) (blk + o)
        let w := w.bad (decide (lim < o + len)) (blk + o)
        let served := decide (col0 ≤ first + i)
        (o + len, if served then { w with cols := w.cols ++ [ps], n := w.n + ps.length } else w)) (off, w)).2) {}

/-- BPLANE's walk: the plane words of the columns served (R199, R359). -/
def planeWalk (get : Nat → Nat → Option (List Byte)) (e : BitVec 512) (seg col0 nc : Nat) : TileWalk :=
  let kind := entCode e
  let (nb, cw) := if kind = 3 then (12, 3) else (8, 2)
  (List.range nc).foldl (fun w c =>
    let a := elemAddr e [seg, col0 + c]
    let (v, w) := w.rd get a nb
    let codes := (List.range 32).map fun p => (v / 2 ^ (cw * p) % 2 ^ cw, p)
    let res := if kind = 1 then (codes.filter fun x => x.1 == 2).length else 0
    let ps := codes.filter fun x => x.1 != 0 && !(kind == 1 && x.1 == 2)
    { w with cols := w.cols ++ [ps], reserved := w.reserved + res, n := w.n + 32 }) {}

/-- The walk of a BSTEER or a BPLANE. -/
def tileWalk (steer : Bool) (get : Nat → Nat → Option (List Byte)) (e : BitVec 512) (seg col0 nc : Nat) : TileWalk :=
  if steer then steerWalk get e seg col0 nc else planeWalk get e seg col0 nc

/-- Bytes of a source as they stand, for the cycle count of a walk. -/
def State.peek (s : State) (c : CoreIx) (x : Nat) (row : List Byte) (a n : Nat) : Option (List Byte) :=
  (s.srcOff c x a n).map fun o => if x = 2 then (row.drop o).take n else readBytes s.memory (srcKey c x o) n

/-- BSTEER and BPLANE: add activations into buckets over the adder interval (R359, R353). -/
def State.bkeTile (s : State) (i : Instr) (h : Hdr) (hd : BitVec 16) (nl : BitVec 3) (x : BitVec 2) (steer : Bool) : State :=
  let pc := s.me.bke.q.pc
  s.engIssue .bke i h true 0 fun s =>
    let c := s.cur
    let k := s.me
    let hx := hd.toNat
    let t := s.chron
    if (nl ≠ 7 ∧ k.pipe.until_ bNest t) ∨ k.pipe.until_ bWindow t then .late t
    else match s.bkeHandle hx [if steer then 3 else 2] (if x = 2 then .row else .rd) with
    | .error v => v
    | .ok (e, s) =>
      let nb := k.bke.wnb
      let seg := k.bke.wseg
      let col0 := k.bke.coord nl.toNat * (256 / nb)
      if entCode e = 0 ∨ 3 < entCode e then .ofHandle 0x15 0 hx
      else if entBound e 0 ≤ seg ∨ entBound e 1 ≤ col0 then .ofHandle 0x12 0 hx
      else
        let nc := min (256 / nb) (entBound e 1 - col0)
        let row := if x = 2 then s.rowPeek c else []
        let w := tileWalk steer (s.peek c x.toNat row) e seg col0 nc
        match w.err with
        | some (0x12, a) => .ofHandle 0x12 a hx
        | _ =>
          match s.srcRanges c x.toNat w.ranges with
          | .error a => .ofHandle 0x12 a hx
          | .ok rs =>
            let p := s.srcPlan c x.toNat t rs
            let lo := t + p.ls
            let d := max (max 1 (ceilDiv (nb * w.n) 4096)) p.term
            let hi := if p.stuck.isSome then never else lo + d - 1 + p.wait
            let stop := firstHit [p.hit s.me.pipe, s.me.pipe.held bAdders lo hi, if s.fixedLeg c then p.undelivered else none]
            match stop with
            | some u => .late u
            | none =>
              let looks := if x = 2 then w.looks.flatMap fun a => ((row.drop a).take 2).mapIdx fun j b => (srcKey c 2 (a + j), b) else []
              let p := { p with got := p.got ++ looks }
              let s := if p.row then s.updMe fun k => { k with bke := { k.bke with rowLastUse := max k.bke.rowLastUse p.last } } else s
              .ok (s.bkeLaunch i h pc hi p [⟨bAdders, lo, hi⟩]
                ([e.toNat, seg, nb, col0, nc, k.bke.wblk, x.toNat, hx] ++ k.bke.wsc.toList.map (·.toNat) ++ k.bke.win.toList.map (·.toNat)))

/-- BSTEER (R359). -/
def execBsteer (h : Hdr) (hd : BitVec 16) (nl : BitVec 3) (x : BitVec 2) (s : State) : Outcome State Fault Refusal :=
  .next (s.bkeTile (.bsteer h hd nl x) h hd nl x true)

/-- BPLANE (R359). -/
def execBplane (h : Hdr) (hd : BitVec 16) (nl : BitVec 3) (x : BitVec 2) (s : State) : Outcome State Fault Refusal :=
  .next (s.bkeTile (.bplane h hd nl x) h hd nl x false)

/-- Adds the window into the buckets for the columns of a walk; none is the overflow 0x25 (R205). -/
def addBuckets (b : Vector (BitVec 20) 2048) (win : Array Int) (nb : Nat) (cols : List (List (Nat × Nat))) :
    Option (Vector (BitVec 20) 2048) :=
  cols.zipIdx.foldl (fun a col => col.1.foldl (fun a kp =>
    (List.range nb).foldl (fun (a : Option (Vector (BitVec 20) 2048)) r => match a with
      | none => none
      | some v =>
        let j := 8 * (col.2 * nb + r) + kp.1
        if h : j < 2048 then
          let x := v[j].toInt + win.getD (64 * kp.2 + r) 0
          if x < -524288 ∨ 524287 < x then none else some (v.set j (BitVec.ofInt 20 x) h)
        else a) a) a) (some b)

/-- The adds of a BSTEER or BPLANE at the end of its interval (R205, R359): 0x16, then 0x25, leave the bucket file and
its latches as they were. -/
def State.tileDone (s : State) (c : CoreIx) (w : Inflight) (steer : Bool) : State :=
  let g (i : Nat) := w.lat.getD i 0
  let e := BitVec.ofNat 512 (g 0)
  let (seg, nb, col0, nc, wblk, x, hx) := (g 1, g 2, g 3, g 4, g 5, g 6, g 7)
  let get (a n : Nat) : Option (List Byte) := (s.srcOff c x a n).map fun o => s.captured w (srcKey c x o) n
  let walk := tileWalk steer get e seg col0 nc
  let b := (s.core c).bke
  match walk.err with
  | some (code, a) => s.coreFault c 2 code w.pc a hx
  | none =>
    if b.blive ∧ (b.btag ≠ wblk ∨ b.bnb ≠ nb ∨ b.bcol0 ≠ col0 ∨ b.bkind ≠ entCode e) then s.coreFault c 2 0x25 w.pc 0 hx
    else
      let win := ((w.lat.drop 72).map fun v => sintN 8 v).toArray
      match addBuckets b.bucket win nb walk.cols with
      | none => s.coreFault c 2 0x25 w.pc 0 hx
      | some v =>
        let s := s.countStat c 3 walk.reserved
        s.upd c fun k =>
          let b := if k.bke.blive then k.bke else
            { k.bke with
              btag := wblk, bsc := Vector.ofFn fun i => BitVec.ofNat 8 (g (8 + i.val)), blive := true, bnb := nb, bcol0 := col0,
              bkind := entCode e }
          { k with bke := { b with bucket := v } }

/-- BCLR: clears every bucket and BLIVE (R360, R353 case 3). -/
def execBclr (h : Hdr) (s : State) : Outcome State Fault Refusal :=
  .next (s.bkeNow (.bclr h) h (fun s => if s.me.pipe.until_ bAdders s.chron then some s.chron else none)
    fun s => s.updMe fun k => { k with bke := { k.bke with bucket := Vector.replicate 2048 0, blive := false } })

/-- The numbers a codebook register is latched as: eight codewords, the format, 64 scales. -/
def Codebook.nats (b : Codebook) : List Nat := b.cw.toList.map (·.toNat) ++ [b.cfmt.toNat] ++ b.sc.toList.map (·.toNat)

/-- MULB: latches and clears the buckets, and commits their products at the end of the array interval (R361, R206). -/
def execMulb (h : Hdr) (cbb : BitVec 3) (s : State) : Outcome State Fault Refusal :=
  let pc := s.me.bke.q.pc
  let i : Instr := .mulb h cbb
  .next (s.engIssue .bke i h true 0 fun s =>
    let b := s.me.bke
    let k := s.me.pipe
    let t := s.chron
    let groups := ceilDiv (256 / b.bnb) 64
    let cbs := (List.range groups).map fun g => (cbb.toNat + g) % 8
    let hi := t + (codesOf b.bkind).length - 1
    if k.until_ bAdders t ∨ cbs.any (fun x => k.until_ (bCodebook x) t) then .late t
    else match firstHit [k.held bArray t hi, k.bankHit true t hi] with
      | some u => .late u
      | none =>
        let lat := [b.bkind, b.bnb, b.bcol0] ++ b.bsc.toList.map (·.toNat) ++ b.bucket.toList.map (·.toNat)
          ++ (cbs.map fun x => ((b.cb[x]?).getD {}).nats).flatten
        let s := s.bkeLaunch i h pc hi { ls := 0, term := 0, last := hi } [⟨bArray, t, hi⟩, ⟨bBank true, t, hi⟩] lat
        .ok (s.updMe fun k => { k with bke := { k.bke with bucket := Vector.replicate 2048 0, blive := false } }))

/-- The format code of a codeword by CFMT (R198). -/
def cwFmt (cfmt : Nat) : Nat := match cfmt with
  | 0 => 10 | 1 => 8 | _ => 1

/-- The term of one bucket: sint(bucket) × value(CW) × 2^(BSC + SC − 254), a NaN, or a signed infinity (R207). -/
def bucketTerm (bucket bsc cw cfmt sc : Nat) : Val :=
  let v := value (cwFmt cfmt) cw
  let x := sintN 20 bucket
  if bsc = 0xFF ∨ sc = 0xFF then .nan
  else (Val.fin (decide (x < 0)) x.natAbs ((bsc + sc : Nat) - 254)).times v

/-- The working lanes of a MULB after the first m cycles of its array interval, one code of the kind each; none is the carry guard
(R207, R361; log 71). -/
def State.mulbLanes (s : State) (c : CoreIx) (w : Inflight) (m : Nat) : Option (Vector Lane 256) :=
  let a := w.lat.toArray
  let g (i : Nat) : Nat := a.getD i 0
  let (kind, nb, col0) := (g 0, g 1, g 2)
  let terms (j : Nat) : List Val :=
    let col := j / nb
    let base := 67 + 2048 + 73 * (col / 64)
    ((codesOf kind).take m).filterMap fun k =>
      let b := g (67 + 8 * j + k)
      if b = 0 then none else some (bucketTerm b (g (3 + j % nb)) (g (base + k)) (g (base + 8)) (g (base + 9 + (col0 + col) % 64)))
  applyLanes (s.core c).bke.work 0 256 terms

/-- Commits lanes of a bank, or raises the carry guard with every lane as it was (R22, R233, R361). -/
def State.commitLanes (s : State) (c : CoreIx) (w : Inflight) (e : Nat) (wk : Bool) (v : Option (Vector Lane 256)) : State :=
  match v with
  | none => s.coreFault c e 0x23 w.pc
  | some v => s.upd c fun k => { k with bke := k.bke.setBank wk v }

/-- The commit of a MULB (R207, R361). -/
def State.mulbDone (s : State) (c : CoreIx) (w : Inflight) : State := s.commitLanes c w 2 true (s.mulbLanes c w 7)

/-! ## Direct mode -/

/-- The format code of a MACD operand and its contraction steps KK (R362). -/
def macdFmt (f : Nat) : Nat × Nat := match f with
  | 0 => (8, 4) | 1 => (10, 8) | _ => (11, 8)

/-- MACD: 16 × 16 block products of n lines of A from the scratchpad and of B from the slice (R362). -/
def execMacd (h : Hdr) (l : BitVec 5) (f : BitVec 2) (nl : BitVec 3) (x : BitVec 2) (s : State) : Outcome State Fault Refusal :=
  let pc := s.me.bke.q.pc
  let i : Instr := .macd h l f nl x
  .next (s.engIssue .bke i h true 0 fun s =>
    let c := s.cur
    let k := s.me.pipe
    let t := s.chron
    let n := x.toNat + 1
    let kk := (macdFmt f.toNat).2
    let xa := s.me.bke.offset 0
    let yb := s.me.bke.offset 1
    let bank := bankOf xa
    let lane := l.toNat
    let d := laneDist lane (bankStop bank) 9
    let other := if lane < 8 then lane + 8 else lane - 8
    let lo := t + 2 * d + 1
    let hi := t + 2 * d + n * kk
    let slice := (List.range n).map fun q => (⟨bSlice, t + 2 * d + q * kk, t + 2 * d + q * kk⟩ : Busy)
    let claims := laneClaims other 9 t 1 d ++ [rdClaim bank (t + d) n] ++ laneClaims lane (bankStop bank) (t + d + 1) n d
    if k.until_ bNest t then .late t
    else if xa % 128 ≠ 0 ∨ yb % 128 ≠ 0 then .plain 0x13
    else if 2 ^ 19 < xa % 2 ^ 19 + 128 * n then .plain 0x12
    else if ¬ s.sliceOk c yb ∨ ¬ s.sliceOk c (yb + 128 * n - 1) then .plain 0x12
    else
      match firstHit ([k.held bArray lo hi, k.bankHit true lo hi, k.hitAt claims] ++ slice.map fun b => k.held b.kind b.lo b.hi) with
      | some u => .late u
      | none =>
        let beats := ((List.range n).map fun q =>
          [({ at_ := t + d + q, key := spadKey c.val (xa + 128 * q), len := 128 } : Beat),
           { at_ := t + 2 * d + q * kk, key := sliceKey c.val (yb + 128 * q), len := 128 }]).flatten
        let p : SrcPlan := { ls := 2 * d + 1, term := n, last := hi, beats := beats, claims := claims, slice := slice }
        let s := s.bkeLaunch i h pc hi p [⟨bArray, lo, hi⟩, ⟨bBank true, lo, hi⟩]
          [f.toNat, n, spadKey c.val xa, sliceKey c.val yb]
        .ok (s.updMe fun k => { k with bke := { k.bke with n := nestUpd k.bke.n nl.toNat Nest.step } }))

/-- Array cycles of a MACD (R362). -/
def macdSteps (w : Inflight) : Nat := w.lat.getD 1 0 * (macdFmt (w.lat.getD 0 0)).2

/-- The working lanes of a MACD after the first m cycles of its array interval; none is the carry guard (R362, R233). -/
def State.macdLanes (s : State) (c : CoreIx) (w : Inflight) (m : Nat) : Option (Vector Lane 256) :=
  let g (i : Nat) := w.lat.getD i 0
  let (fmt, kk) := macdFmt (g 0)
  let n := g 1
  let wb := fmtW fmt / 8
  let vals (key : Nat) : Array Val :=
    let bs := (s.captured w key (128 * n)).toArray
    ((List.range (128 * n / wb)).map fun i =>
      value fmt (if wb = 2 then (bs.getD (2 * i) 0).toNat + 256 * (bs.getD (2 * i + 1) 0).toNat else (bs.getD i 0).toNat)).toArray
  let a := vals (g 2)
  let b := vals (g 3)
  let terms (j : Nat) : List Val :=
    (List.range (min m (n * kk))).map fun q => (a.getD (16 * q + j / 16) .nan).times (b.getD (16 * q + j % 16) .nan)
  applyLanes (s.core c).bke.work 0 256 terms

/-- The commit of a MACD (R362). -/
def State.macdDone (s : State) (c : CoreIx) (w : Inflight) : State := s.commitLanes c w 2 true (s.macdLanes c w (macdSteps w))

/-! ## Accumulator port -/

/-- ZSWAP: exchanges the two accumulator banks once no array interval and no bank interval is in progress (R363). -/
def execZswap (h : Hdr) (s : State) : Outcome State Fault Refusal :=
  let busy (s : State) : Bool := ([bArray, bBank true, bBank false].any fun u => s.me.pipe.until_ u s.chron)
    || (s.me.pipe.vsumHit (vBank true) s.chron s.chron).isSome || (s.me.pipe.vsumHit (vBank false) s.chron s.chron).isSome
  let s' := s.bkeNow (.zswap h) h (fun s => if busy s then some s.chron else none)
    fun s => (s.updMe fun k => { k with bke := { k.bke with work := k.bke.vis, vis := k.bke.work } }).occupy s.cur
      [⟨bBank true, s.chron, s.chron⟩, ⟨bBank false, s.chron, s.chron⟩]
  let waits := busy s && s'.me.bke.q.pc == s.me.bke.q.pc
  .next (s'.updMe fun k => { k with bke := { k.bke with zswp := waits } })

/-- The scratchpad offset of the accumulator port: its checks, in the order of each word's rule (R364 to R369). -/
def Bke.port (k : Bke) (ss len align : Nat) : Except Nat Nat :=
  let x := k.offset ss
  if 2 ^ 19 < x % 2 ^ 19 + len then .error 0x12 else if x % align ≠ 0 then .error 0x13 else .ok x

/-- The beats of output bytes from stop 9 to an offset over a lane, and their claims; beat u leaves at i + 1 + u (R364). -/
def portWrite (c : CoreIx) (lane i x : Nat) (bs : List Byte) : SrcPlan :=
  let bank := bankOf x
  let d := laneDist lane 9 (bankStop bank)
  let n := ceilDiv bs.length 128
  { ls := 0
    term := 0
    last := i + n + d
    beats := (List.range n).map fun u =>
      let b := (bs.drop (128 * u)).take 128
      { at_ := i + 1 + u + d, key := spadKey c.val (x + 128 * u), len := b.length, bytes := b, write := true }
    claims := laneClaims lane 9 (i + 1) n d ++ [wrClaim bank (i + 1 + d) n] }

/-- Sends output bytes of a word that read its bank at issue (R354, R355, R364). -/
def State.bkePort (s : State) (i : Instr) (h : Hdr) (pc : Int) (wk : Bool) (lane x : Nat) (bs : List Byte) (st : List Nat) : Verdict :=
  let c := s.cur
  let p := portWrite c lane s.chron x bs
  match firstHit [s.me.pipe.bankHit wk s.chron s.chron, s.me.pipe.hitAt p.claims] with
  | some u => .late u
  | none => .ok ((s.bkeLaunch i h pc p.last p [⟨bBank wk, s.chron, s.chron⟩] [] true).countStats c st)

/-- The named lanes za to zb of a bank. -/
def Bke.lanes (k : Bke) (wk : Bool) (za zb : Fin 256) : List Lane :=
  (List.range (zb.val + 1 - za.val)).map fun i => laneAt (k.bank wk) (za.val + i)

/-- The format code of a drain (R365). -/
def drainFmt (f : Nat) : Nat := match f with
  | 0 => 7 | 1 => 8 | 2 => 9 | 3 => 10 | 4 => 11 | _ => 1

/-- The output bytes and events of ZDRAIN (R365, R234, R238). -/
def drainBytes (ls : List Lane) (f mode : Nat) : List Byte × List Nat :=
  if f = 5 then
    let blocks := (List.range (ls.length / 32)).map fun b =>
      quantise 1 mode (((ls.drop (32 * b)).take 32).map Lane.val) (List.replicate 32 0)
    ((blocks.map fun b => packElems 8 b.codes).flatten ++ blocks.map (fun b => BitVec.ofNat 8 b.scale),
      blocks.foldl (fun a b => addStats a b.stats) noStats)
  else
    let rs := ls.map fun l => l.read (drainFmt f) mode 0
    (packElems (fmtW (drainFmt f)) (rs.map (·.code)), rs.foldl (fun a r => addStats a r.stats) noStats)

/-- RND of the format register of a bank (R177). -/
def Ctl.rnd (k : Ctl) (bank : Nat) : Nat := fld ((k.bfmt[bank]?).getD 0).toNat 10 8

/-- ZDRAIN: rounds visible lanes once and writes them (R365). -/
def execZdrain (h : Hdr) (a b : Fin 256) (f : BitVec 3) (ss : BitVec 2) (s : State) : Outcome State Fault Refusal :=
  let pc := s.me.bke.q.pc
  let i : Instr := .zdrain h a b f ss
  .next (s.engIssue .bke i h true 0 fun s =>
    let nz := b.val + 1 - a.val
    let w := fmtW (drainFmt f.toNat) / 8
    let len := if f = 5 then nz + nz / 32 else nz * w
    if s.me.pipe.until_ bNest s.chron then .late s.chron
    else match s.me.bke.port ss.toNat len w with
      | .error code => .plain code
      | .ok x =>
        let (bs, st) := drainBytes (s.me.bke.lanes false a b) f.toNat (s.me.ctl.rnd (bankOf x))
        s.bkePort i h pc false (bkLanes (bankOf x) 2).1 x bs st)

/-- ZCLR: clears visible lanes in its issue cycle (R366). -/
def execZclr (h : Hdr) (a b : Fin 256) (s : State) : Outcome State Fault Refusal :=
  .next (s.bkeNow (.zclr h a b) h (fun s => s.me.pipe.bankHit false s.chron s.chron) fun s => s.updMe fun k =>
    { k with
      bke := { k.bke with vis := (List.finRange 256).foldl (fun v j => if a ≤ j ∧ j ≤ b then v.set j {} else v) k.bke.vis }
      pipe := k.pipe.occupy s.chron [⟨bBank false, s.chron, s.chron⟩] })

/-- ZSPILL: writes lane images (R367, R235). -/
def execZspill (h : Hdr) (a b : Fin 256) (wk : Bool) (ss : BitVec 2) (s : State) : Outcome State Fault Refusal :=
  let pc := s.me.bke.q.pc
  let i : Instr := .zspill h a b wk ss
  .next (s.engIssue .bke i h true 0 fun s =>
    let nz := b.val + 1 - a.val
    if s.me.pipe.until_ bNest s.chron then .late s.chron
    else match s.me.bke.port ss.toNat (96 * nz) 32 with
      | .error code => .plain code
      | .ok x =>
        let bs := ((s.me.bke.lanes wk a b).mapIdx fun k l => l.image (a.val + k) (if wk then 0 else 1)).flatten
        s.bkePort i h pc wk (bkLanes (bankOf x) 2).1 x bs noStats)

/-- ZFILL: restores lanes from images at the arrival of the last line (R367). -/
def execZfill (h : Hdr) (a b : Fin 256) (wk : Bool) (ss : BitVec 2) (s : State) : Outcome State Fault Refusal :=
  let pc := s.me.bke.q.pc
  let i : Instr := .zfill h a b wk ss
  .next (s.engIssue .bke i h true 0 fun s =>
    let c := s.cur
    let nz := b.val + 1 - a.val
    if s.me.pipe.until_ bNest s.chron then .late s.chron
    else match s.me.bke.port ss.toNat (96 * nz) 32 with
      | .error code => .plain code
      | .ok x =>
        let p := spadPlan c 2 s.chron (unitsOf 128 [(x, 96 * nz)])
        match firstHit [s.me.pipe.bankHit wk p.last p.last, s.me.pipe.hitAt p.claims] with
        | some u => .late u
        | none => .ok (s.bkeLaunch i h pc p.last p [⟨bBank wk, p.last, p.last⟩] [a.val, nz, ofBool wk, spadKey c.val x]))

/-- The write of a ZFILL: every image or none (R367). -/
def State.zfillDone (s : State) (c : CoreIx) (w : Inflight) : State :=
  let g (i : Nat) := w.lat.getD i 0
  let bs := s.captured w (g 3) (96 * g 1)
  let imgs := (List.range (g 1)).map fun k => Lane.ofImage ((bs.drop (96 * k)).take 96)
  if imgs.any (·.isNone) then s.coreFault c 2 0x16 w.pc
  else s.upd c fun k =>
    let wk := g 2 == 1
    { k with bke := k.bke.setBank wk (imgs.zipIdx.foldl (fun v y =>
        if h : g 0 + y.2 < 256 then v.set (g 0 + y.2) (y.1.getD {}) h else v) (k.bke.bank wk)) }

/-- ZADDV: adds scratchpad elements exactly into lanes, over the exact path (R368, R237). -/
def execZaddv (h : Hdr) (a b : Fin 256) (wk : Bool) (f ss : BitVec 2) (s : State) : Outcome State Fault Refusal :=
  let pc := s.me.bke.q.pc
  let i : Instr := .zaddv h a b wk f ss
  .next (s.engIssue .bke i h true 0 fun s =>
    let c := s.cur
    let k := s.me.pipe
    let nz := b.val + 1 - a.val
    let w := fmtW (xfFmt f.toNat) / 8
    if k.until_ bNest s.chron then .late s.chron
    else match s.me.bke.port ss.toNat (w * nz) w with
      | .error code => .plain code
      | .ok x =>
        let p := spadPlan c 2 s.chron (unitsOf 128 [(x, w * nz)])
        let lo := s.chron + p.ls
        let hi := lo + ceilDiv nz 64 - 1
        match firstHit [k.exactHit lo hi, k.bankHit wk lo hi, k.hitAt p.claims] with
        | some u => .late u
        | none => .ok (s.bkeLaunch i h pc hi p [⟨bExact, lo, hi⟩, ⟨bBank wk, lo, hi⟩]
            [a.val, nz, ofBool wk, spadKey c.val x, f.toNat]))

/-- The lanes of a ZADDV after the first m cycles of its exact-path interval, 64 terms each; none is the carry guard (R237, R368). -/
def State.zaddvLanes (s : State) (c : CoreIx) (w : Inflight) (m : Nat) : Option (Vector Lane 256) :=
  let g (i : Nat) := w.lat.getD i 0
  let wk := g 2 == 1
  let fmt := xfFmt (g 4)
  let wb := fmtW fmt / 8
  let bs := s.captured w (g 3) (wb * g 1)
  let terms (j : Nat) : List Val := [value fmt (ofBytes ((bs.drop (wb * (j - g 0))).take wb))]
  applyLanes ((s.core c).bke.bank wk) (g 0) (min (64 * m) (g 1)) terms

/-- The commit of a ZADDV (R368). -/
def State.zaddvDone (s : State) (c : CoreIx) (w : Inflight) : State := s.commitLanes c w 2 (w.lat.getD 2 0 == 1) (s.zaddvLanes c w 4)

/-- ZSTAT: writes the flags of every lane of a bank as one beat (R369). -/
def execZstat (h : Hdr) (l : BitVec 5) (wk : Bool) (ss : BitVec 2) (s : State) : Outcome State Fault Refusal :=
  let pc := s.me.bke.q.pc
  let i : Instr := .zstat h l wk ss
  .next (s.engIssue .bke i h true 0 fun s =>
    if s.me.pipe.until_ bNest s.chron then .late s.chron
    else match s.me.bke.port ss.toNat 128 128 with
      | .error code => .plain code
      | .ok x => s.bkePort i h pc wk l.toNat x (packElems 4 ((s.me.bke.bank wk).toList.map Lane.flags)) noStats)

/-! ## Loops (R370) -/

/-- LOOP of the BKE (R370, R332). -/
def execLoopBke (h : Hdr) (nl : BitVec 3) (l : BitVec 4) (s : State) : Outcome State Fault Refusal :=
  let q0 := s.me.bke.q
  .next (s.engIssue .bke (.loopBke h nl l) h false 0 fun s =>
    let k := s.me
    if k.pipe.until_ bNest s.chron then .late s.chron
    else match q0.openLoop k.bke.q nl.toNat l.toNat k.bke.n with
      | none => .plain 0x01
      | some q => .ok (s.updMe fun k => { k with bke := { k.bke with q := q } }))

/-- LEND of the BKE (R370, R333). -/
def execLendBke (h : Hdr) (nl : BitVec 3) (s : State) : Outcome State Fault Refusal :=
  .next (s.bkeNow (.lendBke h nl) h (fun s => if s.me.pipe.until_ bNest s.chron then some s.chron else none)
    fun s => s.updMe fun k => { k with bke := { k.bke with n := nestUpd k.bke.n nl.toNat Nest.step } })

/-- Whether no lane of a bank is so large that the terms of one ZADDV, MACD or VSUMZ could bring it to the carry guard: their terms lie below
2^256, and there are at most 1,024 (R232, R233). -/
def Bke.farFromGuard (k : Bke) (wk : Bool) : Bool := (k.bank wk).toList.all fun l => decide (l.value.toInt.natAbs < 2 ^ 317)

/-- Whether in a cycle of its interval before the last a running value of a BKE word reaches the carry guard (R233, R353). -/
def State.bkeGuard (s : State) (c : CoreIx) (w : Inflight) : Bool :=
  let b := (s.core c).bke
  let step (n : Nat) : Nat := s.chron + 1 + n - (w.doneAt + 1)
  match w.instr with
  | .mulb .. => (s.mulbLanes c w (s.chron + 1 - w.issued)).isNone
  | .macd .. => decide (w.doneAt < s.chron + macdSteps w) && !b.farFromGuard true && (s.macdLanes c w (step (macdSteps w))).isNone
  | .zaddv .. =>
    let n := ceilDiv (w.lat.getD 1 0) 64
    decide (w.doneAt < s.chron + n) && !b.farFromGuard (w.lat.getD 2 0 == 1) && (s.zaddvLanes c w (step n)).isNone
  | _ => false

/-- What a BKE word does at its completion cycle (R353, R355). -/
def State.bkeDone (s : State) (c : CoreIx) (w : Inflight) : State :=
  match w.instr with
  | .bwin .. => s.bwinDone c w
  | .bwinCfg .. => s.cfgDone c w
  | .cbld .. => s.cbldDone c w
  | .bsteer .. => s.tileDone c w true
  | .bplane .. => s.tileDone c w false
  | .mulb .. => s.mulbDone c w
  | .macd .. => s.macdDone c w
  | .zfill .. => s.zfillDone c w
  | .zaddv .. => s.zaddvDone c w
  | _ => s

end Sys2Proof.Machine
end

