-- ==== Sys2Proof/WellFormed.lean ====
section
/-! DEFINITION. The checks an instruction must meet beyond the widths of its fields: the enumerated
codes and register conditions whose other values the spec calls reserved (R271, R273 to R276, R280,
R282, R284, R310, R315, R316, R323, R330, R332, R336, R340, R346, R350, R356, R362, R365, R383, R394,
R397, R400, R401, R405, R406), and for an event the ranges its register fields must keep. -/

namespace Sys2Proof

open Sys2Proof.Machine (fld)

/-- Whether an instruction is well formed. -/
def Instr.wf : Instr → Bool
  | .nop _ => true
  | .idle _ _ => true
  | .add _ _ _ _ => true
  | .sub _ _ _ _ => true
  | .and _ _ _ _ => true
  | .or _ _ _ _ => true
  | .xor _ _ _ _ => true
  | .sll _ _ _ _ => true
  | .srl _ _ _ _ => true
  | .sra _ _ _ _ => true
  | .mul _ _ _ _ => true
  | .mulh _ _ _ _ => true
  | .mulhu _ _ _ _ => true
  | .div _ _ _ _ => true
  | .divu _ _ _ _ => true
  | .rem _ _ _ _ => true
  | .remu _ _ _ _ => true
  | .min _ _ _ _ => true
  | .max _ _ _ _ => true
  | .minu _ _ _ _ => true
  | .maxu _ _ _ _ => true
  | .slt _ _ _ _ => true
  | .sltu _ _ _ _ => true
  | .clz _ _ _ => true
  | .ctz _ _ _ => true
  | .popc _ _ _ => true
  | .addi _ _ _ _ => true
  | .slti _ _ _ _ => true
  | .andi _ _ _ _ => true
  | .ori _ _ _ _ => true
  | .xori _ _ _ _ => true
  | .slli _ _ _ _ => true
  | .srli _ _ _ _ => true
  | .srai _ _ _ _ => true
  | .jal _ _ => true
  | .jalr _ _ _ _ => true
  | .lis _ _ _ _ => true
  | .beq _ _ _ _ => true
  | .bne _ _ _ _ => true
  | .blt _ _ _ _ => true
  | .bge _ _ _ _ => true
  | .bltu _ _ _ _ => true
  | .bgeu _ _ _ _ => true
  | .ld _ _ _ _ _ => true
  | .st _ _ _ _ _ => true
  | .ldc _ _ _ _ _ => true
  | .fence _ k s => (decide (k.toNat ≠ 3) && decide (s.toNat ≤ 8))
  | .faddx _ _ _ x s => (decide (x.toNat ≠ 3) && decide (s.toNat ≤ 8))
  | .xrd _ _ _ m x s => (decide (m.toNat ≤ 4) && decide (x.toNat ≠ 3) && decide (s.toNat ≤ 8))
  | .tkg _ p => (decide (1 ≤ p.toNat) && decide (p.toNat ≤ 4))
  | .tkt _ p => ((decide (1 ≤ p.toNat) && decide (p.toNat ≤ 4)) || (decide (8 ≤ p.toNat) && decide (p.toNat ≤ 11)))
  | .tkq _ _ _ imm => (decide (fld imm.toNat 3 3 = 0) && decide (fld imm.toNat 9 7 = 0) && (decide (fld imm.toNat 10 10 = 0) || decide (fld imm.toNat 9 2 = 0)))
  | .amoAdd _ _ _ _ x s => (decide (x.toNat ≤ 1) && decide (s.toNat ≤ 8))
  | .amoAnd _ _ _ _ x s => (decide (x.toNat ≤ 1) && decide (s.toNat ≤ 8))
  | .amoOr _ _ _ _ x s => (decide (x.toNat ≤ 1) && decide (s.toNat ≤ 8))
  | .amoXor _ _ _ _ x s => (decide (x.toNat ≤ 1) && decide (s.toNat ≤ 8))
  | .amoMin _ _ _ _ x s => (decide (x.toNat ≤ 1) && decide (s.toNat ≤ 8))
  | .amoMax _ _ _ _ x s => (decide (x.toNat ≤ 1) && decide (s.toNat ≤ 8))
  | .amoMinu _ _ _ _ x s => (decide (x.toNat ≤ 1) && decide (s.toNat ≤ 8))
  | .amoMaxu _ _ _ _ x s => (decide (x.toNat ≤ 1) && decide (s.toNat ≤ 8))
  | .amoSwap _ _ _ _ x s => (decide (x.toNat ≤ 1) && decide (s.toNat ≤ 8))
  | .amoCas _ d _ b x s => (decide (x.toNat ≤ 2) && decide (s.toNat ≤ 8) && (decide (x.toNat ≠ 2) || (decide (d.val % 2 = 0) && decide (b.val % 2 = 0))))
  | .qstart _ _ _ => true
  | .qstop _ _ _ => true
  | .qstat _ _ _ _ => true
  | .fix _ _ _ => true
  | .size _ _ _ => true
  | .chron _ _ => true
  | .legq _ _ => true
  | .hqry _ _ _ f => decide (f.toNat ≤ 13)
  | .cpy _ _ _ _ s e c => (decide (s.toNat ≤ 8) && (e || c || decide (s.toNat = 0)))
  | .cpyf _ _ _ _ s e c => (decide (s.toNat ≤ 8) && (e || c || decide (s.toNat = 0)))
  | .cpyw _ _ _ _ s e c => (decide (s.toNat ≤ 8) && (e || c || decide (s.toNat = 0)))
  | .cpyr _ _ _ _ s e c => (decide (s.toNat ≤ 8) && (e || c || decide (s.toNat = 0)))
  | .sort _ _ _ _ s e c => (decide (s.toNat ≤ 8) && (e || c || decide (s.toNat = 0)))
  | .pack _ _ _ _ s e c => (decide (s.toNat ≤ 8) && (e || c || decide (s.toNat = 0)))
  | .crr _ _ _ => true
  | .crw _ _ _ => true
  | .trap _ _ => true
  | .sret _ => true
  | .halt _ _ => true
  | .hset _ _ _ => true
  | .scanr _ _ _ => true
  | .wrep _ _ _ => true
  | .lds _ _ nl s _ => (decide (nl.toNat ≠ 6) && decide (s.toNat ≠ 3))
  | .sts _ _ nl s _ => (decide (nl.toNat ≠ 6) && decide (s.toNat ≠ 3))
  | .ldg _ _ _ nl s _ => (decide (nl.toNat ≠ 6) && decide (s.toNat ≠ 3))
  | .stg _ _ _ nl s _ => (decide (nl.toNat ≠ 6) && decide (s.toNat ≠ 3))
  | .ldh _ _ nl x => (decide (nl.toNat ≠ 6) && decide (x.toNat ≤ 1))
  | .sth _ _ nl x => (decide (nl.toNat ≠ 6) && decide (x.toNat ≤ 1))
  | .mark _ => true
  | .aadd _ _ _ _ _ _ => true
  | .aaddNw _ k _ _ f => (decide (k.toNat ≤ 5) && decide (f.toNat ≤ 4))
  | .ali _ _ _ => true
  | .aliSh _ _ _ => true
  | .amov _ _ _ => true
  | .loop _ nl _ => decide (nl.toNat ≤ 5)
  | .lend _ nl => decide (nl.toNat ≤ 5)
  | .isect _ a b _ => (decide (a.val % 2 = 0) && decide (b.val % 2 = 0))
  | .imerge _ a b _ => (decide (a.val % 2 = 0) && decide (b.val % 2 = 0))
  | .icnt _ a b _ _ => (decide (a.val % 2 = 0) && decide (b.val % 2 = 0))
  | .ract _ _ _ _ => true
  | .rcon _ _ _ a o d => (decide (o.toNat ≠ 3) && (decide (d.toNat = 16) || ((decide (d.toNat = 0) || decide (d.toNat = 4) || decide (d.toNat = 8) || decide (d.toNat = 12)) && decide (a.val % 2 = 0))))
  | .rpre _ _ _ _ => true
  | .rstat _ _ _ _ => true
  | .ring _ _ _ l _ => decide (l.toNat < 16)
  | .bwin _ _ nl x => (decide (nl.toNat ≠ 6) && decide (x.toNat ≤ 1))
  | .bwinCfg _ _ => true
  | .bsteer _ _ nl x => (decide (nl.toNat ≠ 6) && decide (x.toNat ≠ 3))
  | .bplane _ _ nl x => (decide (nl.toNat ≠ 6) && decide (x.toNat ≠ 3))
  | .bclr _ => true
  | .cbld _ _ _ => true
  | .mulb _ _ => true
  | .macd _ l f nl _ => (decide (l.toNat < 16) && decide (f.toNat ≠ 3) && decide (nl.toNat ≠ 6))
  | .zswap _ => true
  | .zdrain _ a b f s => (decide (a.val ≤ b.val) && decide (f.toNat ≤ 5) && decide (s.toNat ≠ 3) && (decide (f.toNat ≠ 5) || (decide (a.val % 32 = 0) && decide ((b.val + 1 - a.val) % 32 = 0))))
  | .zclr _ a b => decide (a.val ≤ b.val)
  | .zspill _ a b _ s => (decide (a.val ≤ b.val) && decide (s.toNat ≠ 3))
  | .zfill _ a b _ s => (decide (a.val ≤ b.val) && decide (s.toNat ≠ 3))
  | .zaddv _ a b _ f s => (decide (a.val ≤ b.val) && decide (f.toNat ≠ 3) && decide (s.toNat ≠ 3))
  | .zstat _ l _ s => (decide (l.toNat < 16) && decide (s.toNat ≠ 3))
  | .loopBke _ nl _ => decide (nl.toNat ≤ 5)
  | .lendBke _ nl => decide (nl.toNat ≤ 5)
  | .vadd _ _ _ _ _ _ x => decide (x.toNat ≠ 3)
  | .vsub _ _ _ _ _ _ x => decide (x.toNat ≠ 3)
  | .vmul _ _ _ _ _ _ x => decide (x.toNat ≠ 3)
  | .vfma _ _ _ _ _ _ _ => true
  | .vfms _ _ _ _ _ _ _ => true
  | .vfnma _ _ _ _ _ _ _ => true
  | .vdiv _ _ _ _ _ _ x => decide (x.toNat ≠ 3)
  | .vsqrt _ _ _ _ _ x => decide (x.toNat ≠ 3)
  | .vmin _ _ _ _ _ _ x => decide (x.toNat ≠ 3)
  | .vmax _ _ _ _ _ _ x => decide (x.toNat ≠ 3)
  | .vabs _ _ _ _ _ x => decide (x.toNat ≠ 3)
  | .vneg _ _ _ _ _ x => decide (x.toNat ≠ 3)
  | .vcpys _ _ _ _ _ _ x => decide (x.toNat ≠ 3)
  | .viadd _ _ _ _ _ _ x => decide (x.toNat ≠ 3)
  | .visub _ _ _ _ _ _ x => decide (x.toNat ≠ 3)
  | .vimul _ _ _ _ _ _ x => decide (x.toNat ≠ 3)
  | .vimin _ _ _ _ _ _ x => decide (x.toNat ≠ 3)
  | .vimax _ _ _ _ _ _ x => decide (x.toNat ≠ 3)
  | .vand _ _ _ _ _ _ x => decide (x.toNat ≠ 3)
  | .vor _ _ _ _ _ _ x => decide (x.toNat ≠ 3)
  | .vxor _ _ _ _ _ _ x => decide (x.toNat ≠ 3)
  | .vshl _ _ _ _ _ _ x => decide (x.toNat ≠ 3)
  | .vshr _ _ _ _ _ _ x => decide (x.toNat ≠ 3)
  | .vsra _ _ _ _ _ _ x => decide (x.toNat ≠ 3)
  | .vcmp _ _ _ _ _ _ _ x => decide (x.toNat ≠ 3)
  | .vicmp _ _ _ _ _ _ _ x => decide (x.toNat ≠ 3)
  | .vclass _ _ _ _ _ _ x => decide (x.toNat ≠ 3)
  | .kand _ _ _ _ _ _ => true
  | .kor _ _ _ _ _ _ => true
  | .kxor _ _ _ _ _ _ => true
  | .knot _ _ _ _ _ => true
  | .kmov _ _ _ _ _ => true
  | .kcnt _ _ _ _ _ => true
  | .vsel _ _ _ _ _ _ x => decide (x.toNat ≠ 3)
  | .vmov _ _ _ _ _ x => decide (x.toNat ≠ 3)
  | .vmovi _ _ _ _ _ _ => true
  | .vbcst _ _ _ _ _ s x => (decide (s.toNat ≤ 2) && decide (x.toNat ≠ 3))
  | .vcvt _ _ _ _ _ f _ => (decide (f.toNat ≠ 0) && decide (f.toNat ≠ 5) && decide (f.toNat ≠ 6) && decide (f.toNat ≠ 14))
  | .vqnt _ _ _ _ x => decide (x.toNat ≠ 3)
  | .vdq _ _ _ _ _ _ x => decide (x.toNat ≠ 3)
  | .vrnd _ _ _ _ _ m x => (decide (m.toNat ≤ 5) && decide (x.toNat ≠ 3))
  | .vexp2 _ _ _ _ _ x => decide (x.toNat ≠ 3)
  | .vlog2 _ _ _ _ _ x => decide (x.toNat ≠ 3)
  | .vrcp _ _ _ _ _ x => decide (x.toNat ≠ 3)
  | .vrsq _ _ _ _ _ x => decide (x.toNat ≠ 3)
  | .vsin _ _ _ _ _ x => decide (x.toNat ≠ 3)
  | .vcos _ _ _ _ _ x => decide (x.toNat ≠ 3)
  | .vtanh _ _ _ _ _ x => decide (x.toNat ≠ 3)
  | .verf _ _ _ _ _ x => decide (x.toNat ≠ 3)
  | .vrmax _ _ _ _ _ _ x => decide (x.toNat ≠ 3)
  | .vrmin _ _ _ _ _ _ x => decide (x.toNat ≠ 3)
  | .vsumz _ _ _ _ _ _ s x => (decide (s.toNat ≠ 3) && decide (x.toNat ≠ 3))
  | .vshape _ _ x => decide (x.toNat ≤ 1)
  | .vtrn _ _ _ x => decide (x.toNat ≠ 3)
  | .vshuf _ _ _ _ _ _ x => decide (x.toNat ≠ 3)
  | .vrot _ _ _ _ _ _ x => decide (x.toNat ≠ 3)
  | .vld _ _ _ _ x => decide (x.toNat ≠ 3)
  | .vst _ _ _ _ x => decide (x.toNat ≠ 3)
  | .vstat _ _ x => decide (x.toNat ≤ 1)
  | .pendOnErrors _ _ => true
  | .pendOnHeat _ _ => true
  | .uncorrectableDramError _ _ => true
  | .powerWindow _ => true
  | .refreshSlotStart _ _ => true
  | .rowOpenTooLong _ _ _ => true
  | .hostMemoryRequest _ _ n _ _ => (decide (1 ≤ n) && decide (n ≤ 4096))
  | .hostAtomicop _ _ _ n _ _ _ _ => (decide (n = 4) || decide (n = 8) || decide (n = 16))
  | .portUp _ _ _ _ => true
  | .hello _ _ _ => true
  | .peerTlpArrival _ _ _ _ => true
  | .stage _ _ => true
  | .tkgive _ _ _ _ => true
  | .fixarr _ _ _ _ _ => true
  | .fixrel _ _ _ _ => true
  | .stop _ _ _ => true
  | .stopDelayedSend _ _ _ => true
  | .completionTimeout _ => true
  | .completionArrival _ _ _ => true
  | .ideIntegrityFailure _ => true
  | .counterLowRead _ _ => true
  | .keySlotWrite _ _ _ => true
  | .keySlotWriteApply _ => true
  | .launchGo _ _ => true
  | .abort _ _ => true
  | .launchCheck _ _ => true
  | .overlayLoad _ _ => true
  | .contextStart _ _ => true
  | .spdmChallenge _ => true
  | .spdmGetMeasurements _ _ => true
  | .rwinWrite _ _ _ _ => true
  | .rwinApply _ _ _ _ => true
  | .pageWalk _ => true
  | .accessResponse _ => true
  | .refusalRetry _ => true
  | .fqheadWrite _ _ => true
  | .mgcqheadWrite _ => true
  | .atsInvalidation _ _ => true
  | .peerRequest _ _ _ n _ _ => (decide (1 ≤ n) && decide (n ≤ 4096))
  | .dueCycleMiss _ _ => true
  | .fixComplete _ _ => true
  | .fixRelease _ _ => true
  | .resumeFix _ _ => true
  | .rowReactivation _ _ _ => true
  | .lookoutT1 _ _ => true
  | .lookoutT2 _ _ => true
  | .lookoutT3 _ _ => true
  | .scanAddressWrite _ => true
  | .checkpointRequest _ _ => true
  | .registerWrite _ _ _ n _ => (decide (n = 1) || decide (n = 2) || decide (n = 4) || decide (n = 8))
  | .wordRetire _ _ => true
  | .rowBeatFailure _ _ => true
  | .commandEntry _ _ => true
  | .sectorDone _ _ _ => true
  | .commandComplete _ _ => true
  | .unassignedEncoding _ => true
  | .prechargeComplete _ _ => true
  | .rowBeatDelivery _ _ => true
  | .hostLinkUp _ => true
  | .flitReplay _ _ => true
  | .hostConfigurationRequest _ _ => true
  | .stopRecordRefusalTimeout _ _ _ => true
  | .coldReset => true
  | .bootComplete => true
  | .warmReset => true
  | .partitionReset => true
  | .powerLoss => true
  | .thermalEmergency => true
  | .supplyEmergency => true
  | .quiesce => true
  | .commit => true
  | .surveyCommandDone => true
  | .hotonCrossing => true
  | .hotoffCrossing => true
  | .refreshPeriodChange => true
  | .refreshDeadline => true
  | .hostVendorMessage => true
  | .hostLinkDown => true
  | .portLeavesUp => true
  | .portReturnsUp => true
  | .linkDownTimeout => true
  | .linkEnable => true
  | .linkDisable => true
  | .stripeGapTimeout => true
  | .freeze => true
  | .thaw => true
  | .warmrst => true
  | .emclear => true
  | .fwstage => true
  | .partapply => true
  | .hcmdComplete => true
  | .bankToRow => true
  | .bankToPool => true
  | .bmctlDone => true
  | .inval => true
  | .preload => true
  | .shootdownDone => true
  | .migrationGo => true
  | .alloc => true
  | .free => true
  | .move => true
  | .moveDone => true
  | .promotion => true
  | .coreArrival => true
  | .helmSchedule => true
  | .quantumExpiry => true
  | .preemptionRequest => true
  | .preemptionComplete => true
  | .switchEnd => true
  | .replayInjection => true
  | .partitionHalt => true
  | .resume => true
  | .frzctlFreeze => true
  | .frzctlRelease => true
  | .freezeTimeout => true
  | .accessGeneration => true
  | .stqSlotPerform => true
  | .replayQueueLeave => true
  | .busRepair => true
  | .statWindowStart => true
  | .sectorStart => true
  | .followOnIssue => true
  | .emergencyConditionCleared => true

end Sys2Proof
end

