-- ==== Sys2Proof/Decode.lean ====
section
/-! DEFINITION. The decoder, one function for each engine section (R268: the same bit pattern means
different instructions in different sections), and after it the encoder, both written from the forms
and opcode maps of R276 to R285. The decoder is total: a word that is no instruction is rejected by
name (R271). -/

namespace Sys2Proof

open Sys2Proof.Machine

/-- Why a word is an unassigned encoding, in the order of R271. -/
inductive DecodeError where
  /-- The OP cell is reserved (R277, R281, R283, R285). -/
  | reservedCell (op : Nat)
  /-- The ALU fn value is reserved (R278). -/
  | reservedFn (fn : Nat)
  /-- A bit the form shows as 0, or a field the instruction does not use, is not 0. -/
  | nonzeroField
  /-- An enumerated field holds a reserved value, or a register field breaks its condition. -/
  | reservedCode
  deriving DecidableEq, Repr

/-- The common header of a word (R268). -/
def hdrOf (w : Nat) : Hdr :=
  ⟨BitVec.ofNat 3 (fld w 31 29), fld w 28 28 == 1, fld w 27 27 == 1⟩

/-- The ALU cell of the sequencer map, selected by fn (R278). -/
def cellAlu (w fn : Nat) : Except DecodeError Instr :=
  match fn with
  | 0 => .ok (.add (hdrOf w) (Fin.ofNat 32 (fld w 20 16)) (Fin.ofNat 32 (fld w 15 11)) (Fin.ofNat 32 (fld w 10 6)))
  | 1 => .ok (.sub (hdrOf w) (Fin.ofNat 32 (fld w 20 16)) (Fin.ofNat 32 (fld w 15 11)) (Fin.ofNat 32 (fld w 10 6)))
  | 2 => .ok (.and (hdrOf w) (Fin.ofNat 32 (fld w 20 16)) (Fin.ofNat 32 (fld w 15 11)) (Fin.ofNat 32 (fld w 10 6)))
  | 3 => .ok (.or (hdrOf w) (Fin.ofNat 32 (fld w 20 16)) (Fin.ofNat 32 (fld w 15 11)) (Fin.ofNat 32 (fld w 10 6)))
  | 4 => .ok (.xor (hdrOf w) (Fin.ofNat 32 (fld w 20 16)) (Fin.ofNat 32 (fld w 15 11)) (Fin.ofNat 32 (fld w 10 6)))
  | 5 => .ok (.sll (hdrOf w) (Fin.ofNat 32 (fld w 20 16)) (Fin.ofNat 32 (fld w 15 11)) (Fin.ofNat 32 (fld w 10 6)))
  | 6 => .ok (.srl (hdrOf w) (Fin.ofNat 32 (fld w 20 16)) (Fin.ofNat 32 (fld w 15 11)) (Fin.ofNat 32 (fld w 10 6)))
  | 7 => .ok (.sra (hdrOf w) (Fin.ofNat 32 (fld w 20 16)) (Fin.ofNat 32 (fld w 15 11)) (Fin.ofNat 32 (fld w 10 6)))
  | 8 => .ok (.mul (hdrOf w) (Fin.ofNat 32 (fld w 20 16)) (Fin.ofNat 32 (fld w 15 11)) (Fin.ofNat 32 (fld w 10 6)))
  | 9 => .ok (.mulh (hdrOf w) (Fin.ofNat 32 (fld w 20 16)) (Fin.ofNat 32 (fld w 15 11)) (Fin.ofNat 32 (fld w 10 6)))
  | 10 => .ok (.mulhu (hdrOf w) (Fin.ofNat 32 (fld w 20 16)) (Fin.ofNat 32 (fld w 15 11)) (Fin.ofNat 32 (fld w 10 6)))
  | 11 => .ok (.div (hdrOf w) (Fin.ofNat 32 (fld w 20 16)) (Fin.ofNat 32 (fld w 15 11)) (Fin.ofNat 32 (fld w 10 6)))
  | 12 => .ok (.divu (hdrOf w) (Fin.ofNat 32 (fld w 20 16)) (Fin.ofNat 32 (fld w 15 11)) (Fin.ofNat 32 (fld w 10 6)))
  | 13 => .ok (.rem (hdrOf w) (Fin.ofNat 32 (fld w 20 16)) (Fin.ofNat 32 (fld w 15 11)) (Fin.ofNat 32 (fld w 10 6)))
  | 14 => .ok (.remu (hdrOf w) (Fin.ofNat 32 (fld w 20 16)) (Fin.ofNat 32 (fld w 15 11)) (Fin.ofNat 32 (fld w 10 6)))
  | 15 => .ok (.min (hdrOf w) (Fin.ofNat 32 (fld w 20 16)) (Fin.ofNat 32 (fld w 15 11)) (Fin.ofNat 32 (fld w 10 6)))
  | 16 => .ok (.max (hdrOf w) (Fin.ofNat 32 (fld w 20 16)) (Fin.ofNat 32 (fld w 15 11)) (Fin.ofNat 32 (fld w 10 6)))
  | 17 => .ok (.minu (hdrOf w) (Fin.ofNat 32 (fld w 20 16)) (Fin.ofNat 32 (fld w 15 11)) (Fin.ofNat 32 (fld w 10 6)))
  | 18 => .ok (.maxu (hdrOf w) (Fin.ofNat 32 (fld w 20 16)) (Fin.ofNat 32 (fld w 15 11)) (Fin.ofNat 32 (fld w 10 6)))
  | 19 => .ok (.slt (hdrOf w) (Fin.ofNat 32 (fld w 20 16)) (Fin.ofNat 32 (fld w 15 11)) (Fin.ofNat 32 (fld w 10 6)))
  | 20 => .ok (.sltu (hdrOf w) (Fin.ofNat 32 (fld w 20 16)) (Fin.ofNat 32 (fld w 15 11)) (Fin.ofNat 32 (fld w 10 6)))
  | 21 => if fld w 10 6 = 0 then .ok (.clz (hdrOf w) (Fin.ofNat 32 (fld w 20 16)) (Fin.ofNat 32 (fld w 15 11))) else .error .nonzeroField
  | 22 => if fld w 10 6 = 0 then .ok (.ctz (hdrOf w) (Fin.ofNat 32 (fld w 20 16)) (Fin.ofNat 32 (fld w 15 11))) else .error .nonzeroField
  | 23 => if fld w 10 6 = 0 then .ok (.popc (hdrOf w) (Fin.ofNat 32 (fld w 20 16)) (Fin.ofNat 32 (fld w 15 11))) else .error .nonzeroField
  | fn => .error (.reservedFn fn)

/-- The fields of a word of the ALU cell, by its fn. -/
def rawAlu (w : Nat) : Except DecodeError Instr := cellAlu w (fld w 5 0)

/-- The fields of a word of the SEQ section, before the checks of its codes (R277). -/
def cellSeq (w op : Nat) : Except DecodeError Instr :=
  match op with
  | 0 => if fld w 20 0 = 0 then .ok (.nop (hdrOf w)) else .error .nonzeroField
  | 1 => rawAlu w
  | 2 => .ok (.addi (hdrOf w) (Fin.ofNat 32 (fld w 20 16)) (Fin.ofNat 32 (fld w 15 11)) (BitVec.ofNat 11 (fld w 10 0)))
  | 3 => .ok (.slti (hdrOf w) (Fin.ofNat 32 (fld w 20 16)) (Fin.ofNat 32 (fld w 15 11)) (BitVec.ofNat 11 (fld w 10 0)))
  | 4 => .ok (.andi (hdrOf w) (Fin.ofNat 32 (fld w 20 16)) (Fin.ofNat 32 (fld w 15 11)) (BitVec.ofNat 11 (fld w 10 0)))
  | 5 => .ok (.ori (hdrOf w) (Fin.ofNat 32 (fld w 20 16)) (Fin.ofNat 32 (fld w 15 11)) (BitVec.ofNat 11 (fld w 10 0)))
  | 6 => .ok (.xori (hdrOf w) (Fin.ofNat 32 (fld w 20 16)) (Fin.ofNat 32 (fld w 15 11)) (BitVec.ofNat 11 (fld w 10 0)))
  | 7 => if fld w 10 6 = 0 then .ok (.slli (hdrOf w) (Fin.ofNat 32 (fld w 20 16)) (Fin.ofNat 32 (fld w 15 11)) (BitVec.ofNat 6 (fld w 5 0))) else .error .nonzeroField
  | 8 => if fld w 10 6 = 0 then .ok (.srli (hdrOf w) (Fin.ofNat 32 (fld w 20 16)) (Fin.ofNat 32 (fld w 15 11)) (BitVec.ofNat 6 (fld w 5 0))) else .error .nonzeroField
  | 9 => if fld w 10 6 = 0 then .ok (.srai (hdrOf w) (Fin.ofNat 32 (fld w 20 16)) (Fin.ofNat 32 (fld w 15 11)) (BitVec.ofNat 6 (fld w 5 0))) else .error .nonzeroField
  | 10 => .ok (.jal (hdrOf w) (BitVec.ofNat 21 (fld w 20 0)))
  | 11 => .ok (.jalr (hdrOf w) (Fin.ofNat 32 (fld w 20 16)) (Fin.ofNat 32 (fld w 15 11)) (BitVec.ofNat 11 (fld w 10 0)))
  | 12 => .ok (.lis (hdrOf w) (BitVec.ofNat 2 (fld w 22 21)) (Fin.ofNat 32 (fld w 20 16)) (BitVec.ofNat 16 (fld w 15 0)))
  | 13 => .ok (.lis (hdrOf w) (BitVec.ofNat 2 (fld w 22 21)) (Fin.ofNat 32 (fld w 20 16)) (BitVec.ofNat 16 (fld w 15 0)))
  | 14 => .ok (.lis (hdrOf w) (BitVec.ofNat 2 (fld w 22 21)) (Fin.ofNat 32 (fld w 20 16)) (BitVec.ofNat 16 (fld w 15 0)))
  | 15 => .ok (.lis (hdrOf w) (BitVec.ofNat 2 (fld w 22 21)) (Fin.ofNat 32 (fld w 20 16)) (BitVec.ofNat 16 (fld w 15 0)))
  | 16 => .ok (.beq (hdrOf w) (Fin.ofNat 32 (fld w 20 16)) (Fin.ofNat 32 (fld w 15 11)) (BitVec.ofNat 11 (fld w 10 0)))
  | 17 => .ok (.bne (hdrOf w) (Fin.ofNat 32 (fld w 20 16)) (Fin.ofNat 32 (fld w 15 11)) (BitVec.ofNat 11 (fld w 10 0)))
  | 18 => .ok (.blt (hdrOf w) (Fin.ofNat 32 (fld w 20 16)) (Fin.ofNat 32 (fld w 15 11)) (BitVec.ofNat 11 (fld w 10 0)))
  | 19 => .ok (.bge (hdrOf w) (Fin.ofNat 32 (fld w 20 16)) (Fin.ofNat 32 (fld w 15 11)) (BitVec.ofNat 11 (fld w 10 0)))
  | 20 => .ok (.bltu (hdrOf w) (Fin.ofNat 32 (fld w 20 16)) (Fin.ofNat 32 (fld w 15 11)) (BitVec.ofNat 11 (fld w 10 0)))
  | 21 => .ok (.bgeu (hdrOf w) (Fin.ofNat 32 (fld w 20 16)) (Fin.ofNat 32 (fld w 15 11)) (BitVec.ofNat 11 (fld w 10 0)))
  | 22 => .ok (.ld (hdrOf w) (Fin.ofNat 32 (fld w 20 16)) (Fin.ofNat 32 (fld w 15 11)) (BitVec.ofNat 2 (fld w 10 9)) (BitVec.ofNat 9 (fld w 8 0)))
  | 23 => .ok (.st (hdrOf w) (Fin.ofNat 32 (fld w 20 16)) (Fin.ofNat 32 (fld w 15 11)) (BitVec.ofNat 2 (fld w 10 9)) (BitVec.ofNat 9 (fld w 8 0)))
  | 24 => .ok (.ldc (hdrOf w) (Fin.ofNat 32 (fld w 20 16)) (Fin.ofNat 32 (fld w 15 11)) (BitVec.ofNat 2 (fld w 10 9)) (BitVec.ofNat 9 (fld w 8 0)))
  | 25 => if fld w 20 6 = 0 then .ok (.fence (hdrOf w) (BitVec.ofNat 2 (fld w 5 4)) (BitVec.ofNat 4 (fld w 3 0))) else .error .nonzeroField
  | 26 => if fld w 20 16 = 0 then .ok (.faddx (hdrOf w) (Fin.ofNat 32 (fld w 15 11)) (Fin.ofNat 32 (fld w 10 6)) (BitVec.ofNat 2 (fld w 5 4)) (BitVec.ofNat 4 (fld w 3 0))) else .error .nonzeroField
  | 27 => if fld w 10 9 = 0 then .ok (.xrd (hdrOf w) (Fin.ofNat 32 (fld w 20 16)) (Fin.ofNat 32 (fld w 15 11)) (BitVec.ofNat 3 (fld w 8 6)) (BitVec.ofNat 2 (fld w 5 4)) (BitVec.ofNat 4 (fld w 3 0))) else .error .nonzeroField
  | 28 => if fld w 28 27 = 0 ∧ fld w 20 4 = 0 then .ok (.tkg (BitVec.ofNat 3 (fld w 31 29)) (BitVec.ofNat 4 (fld w 3 0))) else .error .nonzeroField
  | 29 => if fld w 28 27 = 0 ∧ fld w 20 4 = 0 then .ok (.tkt (BitVec.ofNat 3 (fld w 31 29)) (BitVec.ofNat 4 (fld w 3 0))) else .error .nonzeroField
  | 30 => if fld w 28 27 = 0 then .ok (.tkq (BitVec.ofNat 3 (fld w 31 29)) (Fin.ofNat 32 (fld w 20 16)) (Fin.ofNat 32 (fld w 15 11)) (BitVec.ofNat 11 (fld w 10 0))) else .error .nonzeroField
  | 32 => .ok (.amoAdd (hdrOf w) (Fin.ofNat 32 (fld w 20 16)) (Fin.ofNat 32 (fld w 15 11)) (Fin.ofNat 32 (fld w 10 6)) (BitVec.ofNat 2 (fld w 5 4)) (BitVec.ofNat 4 (fld w 3 0)))
  | 33 => .ok (.amoAnd (hdrOf w) (Fin.ofNat 32 (fld w 20 16)) (Fin.ofNat 32 (fld w 15 11)) (Fin.ofNat 32 (fld w 10 6)) (BitVec.ofNat 2 (fld w 5 4)) (BitVec.ofNat 4 (fld w 3 0)))
  | 34 => .ok (.amoOr (hdrOf w) (Fin.ofNat 32 (fld w 20 16)) (Fin.ofNat 32 (fld w 15 11)) (Fin.ofNat 32 (fld w 10 6)) (BitVec.ofNat 2 (fld w 5 4)) (BitVec.ofNat 4 (fld w 3 0)))
  | 35 => .ok (.amoXor (hdrOf w) (Fin.ofNat 32 (fld w 20 16)) (Fin.ofNat 32 (fld w 15 11)) (Fin.ofNat 32 (fld w 10 6)) (BitVec.ofNat 2 (fld w 5 4)) (BitVec.ofNat 4 (fld w 3 0)))
  | 36 => .ok (.amoMin (hdrOf w) (Fin.ofNat 32 (fld w 20 16)) (Fin.ofNat 32 (fld w 15 11)) (Fin.ofNat 32 (fld w 10 6)) (BitVec.ofNat 2 (fld w 5 4)) (BitVec.ofNat 4 (fld w 3 0)))
  | 37 => .ok (.amoMax (hdrOf w) (Fin.ofNat 32 (fld w 20 16)) (Fin.ofNat 32 (fld w 15 11)) (Fin.ofNat 32 (fld w 10 6)) (BitVec.ofNat 2 (fld w 5 4)) (BitVec.ofNat 4 (fld w 3 0)))
  | 38 => .ok (.amoMinu (hdrOf w) (Fin.ofNat 32 (fld w 20 16)) (Fin.ofNat 32 (fld w 15 11)) (Fin.ofNat 32 (fld w 10 6)) (BitVec.ofNat 2 (fld w 5 4)) (BitVec.ofNat 4 (fld w 3 0)))
  | 39 => .ok (.amoMaxu (hdrOf w) (Fin.ofNat 32 (fld w 20 16)) (Fin.ofNat 32 (fld w 15 11)) (Fin.ofNat 32 (fld w 10 6)) (BitVec.ofNat 2 (fld w 5 4)) (BitVec.ofNat 4 (fld w 3 0)))
  | 40 => .ok (.amoSwap (hdrOf w) (Fin.ofNat 32 (fld w 20 16)) (Fin.ofNat 32 (fld w 15 11)) (Fin.ofNat 32 (fld w 10 6)) (BitVec.ofNat 2 (fld w 5 4)) (BitVec.ofNat 4 (fld w 3 0)))
  | 41 => .ok (.amoCas (hdrOf w) (Fin.ofNat 32 (fld w 20 16)) (Fin.ofNat 32 (fld w 15 11)) (Fin.ofNat 32 (fld w 10 6)) (BitVec.ofNat 2 (fld w 5 4)) (BitVec.ofNat 4 (fld w 3 0)))
  | 42 => if fld w 10 3 = 0 ∧ fld w 20 16 = 0 then .ok (.qstart (hdrOf w) (Fin.ofNat 32 (fld w 15 11)) (BitVec.ofNat 3 (fld w 2 0))) else .error .nonzeroField
  | 43 => if fld w 10 3 = 0 ∧ fld w 20 16 = 0 then .ok (.qstop (hdrOf w) (Fin.ofNat 32 (fld w 15 11)) (BitVec.ofNat 3 (fld w 2 0))) else .error .nonzeroField
  | 44 => if fld w 10 3 = 0 then .ok (.qstat (hdrOf w) (Fin.ofNat 32 (fld w 20 16)) (Fin.ofNat 32 (fld w 15 11)) (BitVec.ofNat 3 (fld w 2 0))) else .error .nonzeroField
  | 45 => if fld w 28 27 = 0 ∧ fld w 20 16 = 0 then .ok (.fix (BitVec.ofNat 3 (fld w 31 29)) (Fin.ofNat 32 (fld w 15 11)) (BitVec.ofNat 11 (fld w 10 0))) else .error .nonzeroField
  | 46 => if fld w 20 16 = 0 then .ok (.size (hdrOf w) (Fin.ofNat 32 (fld w 15 11)) (BitVec.ofNat 11 (fld w 10 0))) else .error .nonzeroField
  | 47 => if fld w 15 0 = 0 then .ok (.chron (hdrOf w) (Fin.ofNat 32 (fld w 20 16))) else .error .nonzeroField
  | 48 => if fld w 15 0 = 0 then .ok (.legq (hdrOf w) (Fin.ofNat 32 (fld w 20 16))) else .error .nonzeroField
  | 49 => if fld w 10 6 = 0 then .ok (.hqry (hdrOf w) (Fin.ofNat 32 (fld w 20 16)) (Fin.ofNat 32 (fld w 15 11)) (BitVec.ofNat 6 (fld w 5 0))) else .error .nonzeroField
  | 50 => .ok (.cpy (hdrOf w) (Fin.ofNat 32 (fld w 20 16)) (Fin.ofNat 32 (fld w 15 11)) (Fin.ofNat 32 (fld w 10 6)) (BitVec.ofNat 4 (fld w 5 2)) (fld w 1 1 == 1) (fld w 0 0 == 1))
  | 51 => .ok (.cpyf (hdrOf w) (Fin.ofNat 32 (fld w 20 16)) (Fin.ofNat 32 (fld w 15 11)) (Fin.ofNat 32 (fld w 10 6)) (BitVec.ofNat 4 (fld w 5 2)) (fld w 1 1 == 1) (fld w 0 0 == 1))
  | 52 => .ok (.cpyw (hdrOf w) (Fin.ofNat 32 (fld w 20 16)) (Fin.ofNat 32 (fld w 15 11)) (Fin.ofNat 32 (fld w 10 6)) (BitVec.ofNat 4 (fld w 5 2)) (fld w 1 1 == 1) (fld w 0 0 == 1))
  | 53 => .ok (.cpyr (hdrOf w) (Fin.ofNat 32 (fld w 20 16)) (Fin.ofNat 32 (fld w 15 11)) (Fin.ofNat 32 (fld w 10 6)) (BitVec.ofNat 4 (fld w 5 2)) (fld w 1 1 == 1) (fld w 0 0 == 1))
  | 54 => .ok (.sort (hdrOf w) (Fin.ofNat 32 (fld w 20 16)) (Fin.ofNat 32 (fld w 15 11)) (Fin.ofNat 32 (fld w 10 6)) (BitVec.ofNat 4 (fld w 5 2)) (fld w 1 1 == 1) (fld w 0 0 == 1))
  | 55 => .ok (.pack (hdrOf w) (Fin.ofNat 32 (fld w 20 16)) (Fin.ofNat 32 (fld w 15 11)) (Fin.ofNat 32 (fld w 10 6)) (BitVec.ofNat 4 (fld w 5 2)) (fld w 1 1 == 1) (fld w 0 0 == 1))
  | 56 => if fld w 2 0 = 0 ∧ fld w 15 11 = 0 then .ok (.crr (hdrOf w) (Fin.ofNat 32 (fld w 20 16)) (BitVec.ofNat 8 (fld w 10 3))) else .error .nonzeroField
  | 57 => if fld w 2 0 = 0 ∧ fld w 20 16 = 0 then .ok (.crw (hdrOf w) (Fin.ofNat 32 (fld w 15 11)) (BitVec.ofNat 8 (fld w 10 3))) else .error .nonzeroField
  | 58 => if fld w 20 7 = 0 then .ok (.trap (hdrOf w) (BitVec.ofNat 7 (fld w 6 0))) else .error .nonzeroField
  | 59 => if fld w 20 0 = 0 then .ok (.sret (hdrOf w)) else .error .nonzeroField
  | 60 => if fld w 10 0 = 0 ∧ fld w 20 16 = 0 then .ok (.halt (hdrOf w) (Fin.ofNat 32 (fld w 15 11))) else .error .nonzeroField
  | 61 => if fld w 5 0 = 0 ∧ fld w 20 16 = 0 then .ok (.hset (hdrOf w) (Fin.ofNat 32 (fld w 15 11)) (Fin.ofNat 32 (fld w 10 6))) else .error .nonzeroField
  | 62 => if fld w 10 0 = 0 then .ok (.scanr (hdrOf w) (Fin.ofNat 32 (fld w 20 16)) (Fin.ofNat 32 (fld w 15 11))) else .error .nonzeroField
  | 63 => if fld w 5 0 = 0 ∧ fld w 20 16 = 0 then .ok (.wrep (hdrOf w) (Fin.ofNat 32 (fld w 15 11)) (Fin.ofNat 32 (fld w 10 6))) else .error .nonzeroField
  | op => .error (.reservedCell op)

/-- The fields of a word of the SEQ section, by its OP. -/
def rawSeq (w : Nat) : Except DecodeError Instr := cellSeq w (fld w 26 21)

/-- The fields of a word of the AXU section, before the checks of its codes (R281). -/
def cellAxu (w op : Nat) : Except DecodeError Instr :=
  match op with
  | 0 => if fld w 20 0 = 0 then .ok (.nop (hdrOf w)) else .error .nonzeroField
  | 1 => .ok (.idle (hdrOf w) (BitVec.ofNat 21 (fld w 20 0)))
  | 2 => if fld w 16 13 = 0 then .ok (.lds (hdrOf w) (Fin.ofNat 16 (fld w 20 17)) (BitVec.ofNat 3 (fld w 12 10)) (BitVec.ofNat 2 (fld w 9 8)) (BitVec.ofNat 8 (fld w 7 0))) else .error .nonzeroField
  | 3 => if fld w 16 13 = 0 then .ok (.sts (hdrOf w) (Fin.ofNat 16 (fld w 20 17)) (BitVec.ofNat 3 (fld w 12 10)) (BitVec.ofNat 2 (fld w 9 8)) (BitVec.ofNat 8 (fld w 7 0))) else .error .nonzeroField
  | 4 => .ok (.ldg (hdrOf w) (Fin.ofNat 16 (fld w 20 17)) (Fin.ofNat 16 (fld w 16 13)) (BitVec.ofNat 3 (fld w 12 10)) (BitVec.ofNat 2 (fld w 9 8)) (BitVec.ofNat 8 (fld w 7 0)))
  | 5 => .ok (.stg (hdrOf w) (Fin.ofNat 16 (fld w 20 17)) (Fin.ofNat 16 (fld w 16 13)) (BitVec.ofNat 3 (fld w 12 10)) (BitVec.ofNat 2 (fld w 9 8)) (BitVec.ofNat 8 (fld w 7 0)))
  | 6 => .ok (.ldh (hdrOf w) (BitVec.ofNat 16 (fld w 20 5)) (BitVec.ofNat 3 (fld w 4 2)) (BitVec.ofNat 2 (fld w 1 0)))
  | 7 => .ok (.sth (hdrOf w) (BitVec.ofNat 16 (fld w 20 5)) (BitVec.ofNat 3 (fld w 4 2)) (BitVec.ofNat 2 (fld w 1 0)))
  | 8 => if fld w 20 0 = 0 then .ok (.mark (hdrOf w)) else .error .nonzeroField
  | 9 => if fld w 8 3 = 16 then .ok (.aaddNw (hdrOf w) (BitVec.ofNat 4 (fld w 20 17)) (Fin.ofNat 16 (fld w 16 13)) (Fin.ofNat 16 (fld w 12 9)) (BitVec.ofNat 3 (fld w 2 0))) else if fld w 8 7 = 0 then .ok (.aadd (hdrOf w) (Fin.ofNat 16 (fld w 20 17)) (Fin.ofNat 16 (fld w 16 13)) (Fin.ofNat 16 (fld w 12 9)) (fld w 6 6 == 1) (BitVec.ofNat 6 (fld w 5 0))) else .error .nonzeroField
  | 10 => if fld w 16 16 = 0 then .ok (.ali (hdrOf w) (Fin.ofNat 16 (fld w 20 17)) (BitVec.ofNat 16 (fld w 15 0))) else if fld w 16 16 = 1 then .ok (.aliSh (hdrOf w) (Fin.ofNat 16 (fld w 20 17)) (BitVec.ofNat 16 (fld w 15 0))) else .error .nonzeroField
  | 11 => if fld w 12 0 = 0 then .ok (.amov (hdrOf w) (Fin.ofNat 16 (fld w 20 17)) (Fin.ofNat 16 (fld w 16 13))) else .error .nonzeroField
  | 12 => if fld w 13 0 = 0 then .ok (.loop (hdrOf w) (BitVec.ofNat 3 (fld w 20 18)) (BitVec.ofNat 4 (fld w 17 14))) else .error .nonzeroField
  | 13 => if fld w 17 0 = 0 then .ok (.lend (hdrOf w) (BitVec.ofNat 3 (fld w 20 18))) else .error .nonzeroField
  | 14 => if fld w 12 8 = 0 then .ok (.isect (hdrOf w) (Fin.ofNat 16 (fld w 20 17)) (Fin.ofNat 16 (fld w 16 13)) (BitVec.ofNat 8 (fld w 7 0))) else .error .nonzeroField
  | 15 => if fld w 12 8 = 0 then .ok (.imerge (hdrOf w) (Fin.ofNat 16 (fld w 20 17)) (Fin.ofNat 16 (fld w 16 13)) (BitVec.ofNat 8 (fld w 7 0))) else .error .nonzeroField
  | 16 => if fld w 6 4 = 0 ∧ fld w 12 8 = 0 then .ok (.icnt (hdrOf w) (Fin.ofNat 16 (fld w 20 17)) (Fin.ofNat 16 (fld w 16 13)) (fld w 7 7 == 1) (Fin.ofNat 16 (fld w 3 0))) else .error .nonzeroField
  | 17 => if fld w 9 0 = 0 then .ok (.ract (hdrOf w) (Fin.ofNat 4 (fld w 20 19)) (Fin.ofNat 32 (fld w 18 14)) (Fin.ofNat 16 (fld w 13 10))) else .error .nonzeroField
  | 18 => if fld w 2 0 = 0 then .ok (.rcon (hdrOf w) (Fin.ofNat 4 (fld w 20 19)) (Fin.ofNat 32 (fld w 18 14)) (Fin.ofNat 16 (fld w 13 10)) (BitVec.ofNat 2 (fld w 9 8)) (BitVec.ofNat 5 (fld w 7 3))) else .error .nonzeroField
  | 19 => if fld w 9 0 = 0 then .ok (.rpre (hdrOf w) (Fin.ofNat 4 (fld w 20 19)) (Fin.ofNat 32 (fld w 18 14)) (Fin.ofNat 16 (fld w 13 10))) else .error .nonzeroField
  | 20 => if fld w 9 0 = 0 then .ok (.rstat (hdrOf w) (Fin.ofNat 4 (fld w 20 19)) (Fin.ofNat 32 (fld w 18 14)) (Fin.ofNat 16 (fld w 13 10))) else .error .nonzeroField
  | 21 => .ok (.ring (hdrOf w) (Fin.ofNat 16 (fld w 20 17)) (Fin.ofNat 16 (fld w 16 13)) (BitVec.ofNat 5 (fld w 12 8)) (BitVec.ofNat 8 (fld w 7 0)))
  | op => .error (.reservedCell op)

/-- The fields of a word of the AXU section, by its OP. -/
def rawAxu (w : Nat) : Except DecodeError Instr := cellAxu w (fld w 26 21)

/-- The fields of a word of the BKE section, before the checks of its codes (R283). -/
def cellBke (w op : Nat) : Except DecodeError Instr :=
  match op with
  | 0 => if fld w 20 0 = 0 then .ok (.nop (hdrOf w)) else .error .nonzeroField
  | 1 => .ok (.idle (hdrOf w) (BitVec.ofNat 21 (fld w 20 0)))
  | 2 => if fld w 4 0 = 31 then .ok (.bwinCfg (hdrOf w) (BitVec.ofNat 16 (fld w 20 5))) else .ok (.bwin (hdrOf w) (BitVec.ofNat 16 (fld w 20 5)) (BitVec.ofNat 3 (fld w 4 2)) (BitVec.ofNat 2 (fld w 1 0)))
  | 3 => .ok (.bsteer (hdrOf w) (BitVec.ofNat 16 (fld w 20 5)) (BitVec.ofNat 3 (fld w 4 2)) (BitVec.ofNat 2 (fld w 1 0)))
  | 4 => .ok (.bplane (hdrOf w) (BitVec.ofNat 16 (fld w 20 5)) (BitVec.ofNat 3 (fld w 4 2)) (BitVec.ofNat 2 (fld w 1 0)))
  | 5 => if fld w 20 0 = 0 then .ok (.bclr (hdrOf w)) else .error .nonzeroField
  | 6 => if fld w 1 0 = 0 then .ok (.cbld (hdrOf w) (BitVec.ofNat 16 (fld w 20 5)) (Fin.ofNat 8 (fld w 4 2))) else .error .nonzeroField
  | 7 => if fld w 17 0 = 0 then .ok (.mulb (hdrOf w) (BitVec.ofNat 3 (fld w 20 18))) else .error .nonzeroField
  | 8 => if fld w 13 5 = 0 then .ok (.macd (hdrOf w) (BitVec.ofNat 5 (fld w 20 16)) (BitVec.ofNat 2 (fld w 15 14)) (BitVec.ofNat 3 (fld w 4 2)) (BitVec.ofNat 2 (fld w 1 0))) else .error .nonzeroField
  | 9 => if fld w 20 0 = 0 then .ok (.zswap (hdrOf w)) else .error .nonzeroField
  | 10 => .ok (.zdrain (hdrOf w) (Fin.ofNat 256 (fld w 20 13)) (Fin.ofNat 256 (fld w 12 5)) (BitVec.ofNat 3 (fld w 4 2)) (BitVec.ofNat 2 (fld w 1 0)))
  | 11 => if fld w 4 0 = 0 then .ok (.zclr (hdrOf w) (Fin.ofNat 256 (fld w 20 13)) (Fin.ofNat 256 (fld w 12 5))) else .error .nonzeroField
  | 12 => if fld w 4 3 = 0 then .ok (.zspill (hdrOf w) (Fin.ofNat 256 (fld w 20 13)) (Fin.ofNat 256 (fld w 12 5)) (fld w 2 2 == 1) (BitVec.ofNat 2 (fld w 1 0))) else .error .nonzeroField
  | 13 => if fld w 4 3 = 0 then .ok (.zfill (hdrOf w) (Fin.ofNat 256 (fld w 20 13)) (Fin.ofNat 256 (fld w 12 5)) (fld w 2 2 == 1) (BitVec.ofNat 2 (fld w 1 0))) else .error .nonzeroField
  | 14 => .ok (.zaddv (hdrOf w) (Fin.ofNat 256 (fld w 20 13)) (Fin.ofNat 256 (fld w 12 5)) (fld w 4 4 == 1) (BitVec.ofNat 2 (fld w 3 2)) (BitVec.ofNat 2 (fld w 1 0)))
  | 15 => if fld w 4 0 = 0 ∧ fld w 15 8 = 0 then .ok (.zstat (hdrOf w) (BitVec.ofNat 5 (fld w 20 16)) (fld w 7 7 == 1) (BitVec.ofNat 2 (fld w 6 5))) else .error .nonzeroField
  | 16 => if fld w 13 0 = 0 then .ok (.loopBke (hdrOf w) (BitVec.ofNat 3 (fld w 20 18)) (BitVec.ofNat 4 (fld w 17 14))) else .error .nonzeroField
  | 17 => if fld w 17 0 = 0 then .ok (.lendBke (hdrOf w) (BitVec.ofNat 3 (fld w 20 18))) else .error .nonzeroField
  | op => .error (.reservedCell op)

/-- The fields of a word of the BKE section, by its OP. -/
def rawBke (w : Nat) : Except DecodeError Instr := cellBke w (fld w 26 21)

/-- The fields of a word of the VEC section, before the checks of its codes (R285). -/
def cellVec (w op : Nat) : Except DecodeError Instr :=
  match op with
  | 0 => if fld w 20 0 = 0 then .ok (.nop (hdrOf w)) else .error .nonzeroField
  | 1 => .ok (.idle (hdrOf w) (BitVec.ofNat 21 (fld w 20 0)))
  | 2 => .ok (.vadd (hdrOf w) (Fin.ofNat 8 (fld w 20 18)) (fld w 17 17 == 1) (Fin.ofNat 32 (fld w 16 12)) (Fin.ofNat 32 (fld w 11 7)) (Fin.ofNat 32 (fld w 6 2)) (BitVec.ofNat 2 (fld w 1 0)))
  | 3 => .ok (.vsub (hdrOf w) (Fin.ofNat 8 (fld w 20 18)) (fld w 17 17 == 1) (Fin.ofNat 32 (fld w 16 12)) (Fin.ofNat 32 (fld w 11 7)) (Fin.ofNat 32 (fld w 6 2)) (BitVec.ofNat 2 (fld w 1 0)))
  | 4 => .ok (.vmul (hdrOf w) (Fin.ofNat 8 (fld w 20 18)) (fld w 17 17 == 1) (Fin.ofNat 32 (fld w 16 12)) (Fin.ofNat 32 (fld w 11 7)) (Fin.ofNat 32 (fld w 6 2)) (BitVec.ofNat 2 (fld w 1 0)))
  | 5 => .ok (.vfma (hdrOf w) (Fin.ofNat 8 (fld w 20 18)) (fld w 17 17 == 1) (Fin.ofNat 32 (fld w 16 12)) (Fin.ofNat 32 (fld w 11 7)) (Fin.ofNat 32 (fld w 6 2)) (BitVec.ofNat 2 (fld w 1 0)))
  | 6 => .ok (.vfms (hdrOf w) (Fin.ofNat 8 (fld w 20 18)) (fld w 17 17 == 1) (Fin.ofNat 32 (fld w 16 12)) (Fin.ofNat 32 (fld w 11 7)) (Fin.ofNat 32 (fld w 6 2)) (BitVec.ofNat 2 (fld w 1 0)))
  | 7 => .ok (.vfnma (hdrOf w) (Fin.ofNat 8 (fld w 20 18)) (fld w 17 17 == 1) (Fin.ofNat 32 (fld w 16 12)) (Fin.ofNat 32 (fld w 11 7)) (Fin.ofNat 32 (fld w 6 2)) (BitVec.ofNat 2 (fld w 1 0)))
  | 8 => .ok (.vdiv (hdrOf w) (Fin.ofNat 8 (fld w 20 18)) (fld w 17 17 == 1) (Fin.ofNat 32 (fld w 16 12)) (Fin.ofNat 32 (fld w 11 7)) (Fin.ofNat 32 (fld w 6 2)) (BitVec.ofNat 2 (fld w 1 0)))
  | 9 => if fld w 6 2 = 0 then .ok (.vsqrt (hdrOf w) (Fin.ofNat 8 (fld w 20 18)) (fld w 17 17 == 1) (Fin.ofNat 32 (fld w 16 12)) (Fin.ofNat 32 (fld w 11 7)) (BitVec.ofNat 2 (fld w 1 0))) else .error .nonzeroField
  | 10 => .ok (.vmin (hdrOf w) (Fin.ofNat 8 (fld w 20 18)) (fld w 17 17 == 1) (Fin.ofNat 32 (fld w 16 12)) (Fin.ofNat 32 (fld w 11 7)) (Fin.ofNat 32 (fld w 6 2)) (BitVec.ofNat 2 (fld w 1 0)))
  | 11 => .ok (.vmax (hdrOf w) (Fin.ofNat 8 (fld w 20 18)) (fld w 17 17 == 1) (Fin.ofNat 32 (fld w 16 12)) (Fin.ofNat 32 (fld w 11 7)) (Fin.ofNat 32 (fld w 6 2)) (BitVec.ofNat 2 (fld w 1 0)))
  | 12 => if fld w 6 2 = 0 then .ok (.vabs (hdrOf w) (Fin.ofNat 8 (fld w 20 18)) (fld w 17 17 == 1) (Fin.ofNat 32 (fld w 16 12)) (Fin.ofNat 32 (fld w 11 7)) (BitVec.ofNat 2 (fld w 1 0))) else .error .nonzeroField
  | 13 => if fld w 6 2 = 0 then .ok (.vneg (hdrOf w) (Fin.ofNat 8 (fld w 20 18)) (fld w 17 17 == 1) (Fin.ofNat 32 (fld w 16 12)) (Fin.ofNat 32 (fld w 11 7)) (BitVec.ofNat 2 (fld w 1 0))) else .error .nonzeroField
  | 14 => .ok (.vcpys (hdrOf w) (Fin.ofNat 8 (fld w 20 18)) (fld w 17 17 == 1) (Fin.ofNat 32 (fld w 16 12)) (Fin.ofNat 32 (fld w 11 7)) (Fin.ofNat 32 (fld w 6 2)) (BitVec.ofNat 2 (fld w 1 0)))
  | 15 => .ok (.viadd (hdrOf w) (Fin.ofNat 8 (fld w 20 18)) (fld w 17 17 == 1) (Fin.ofNat 32 (fld w 16 12)) (Fin.ofNat 32 (fld w 11 7)) (Fin.ofNat 32 (fld w 6 2)) (BitVec.ofNat 2 (fld w 1 0)))
  | 16 => .ok (.visub (hdrOf w) (Fin.ofNat 8 (fld w 20 18)) (fld w 17 17 == 1) (Fin.ofNat 32 (fld w 16 12)) (Fin.ofNat 32 (fld w 11 7)) (Fin.ofNat 32 (fld w 6 2)) (BitVec.ofNat 2 (fld w 1 0)))
  | 17 => .ok (.vimul (hdrOf w) (Fin.ofNat 8 (fld w 20 18)) (fld w 17 17 == 1) (Fin.ofNat 32 (fld w 16 12)) (Fin.ofNat 32 (fld w 11 7)) (Fin.ofNat 32 (fld w 6 2)) (BitVec.ofNat 2 (fld w 1 0)))
  | 18 => .ok (.vimin (hdrOf w) (Fin.ofNat 8 (fld w 20 18)) (fld w 17 17 == 1) (Fin.ofNat 32 (fld w 16 12)) (Fin.ofNat 32 (fld w 11 7)) (Fin.ofNat 32 (fld w 6 2)) (BitVec.ofNat 2 (fld w 1 0)))
  | 19 => .ok (.vimax (hdrOf w) (Fin.ofNat 8 (fld w 20 18)) (fld w 17 17 == 1) (Fin.ofNat 32 (fld w 16 12)) (Fin.ofNat 32 (fld w 11 7)) (Fin.ofNat 32 (fld w 6 2)) (BitVec.ofNat 2 (fld w 1 0)))
  | 20 => .ok (.vand (hdrOf w) (Fin.ofNat 8 (fld w 20 18)) (fld w 17 17 == 1) (Fin.ofNat 32 (fld w 16 12)) (Fin.ofNat 32 (fld w 11 7)) (Fin.ofNat 32 (fld w 6 2)) (BitVec.ofNat 2 (fld w 1 0)))
  | 21 => .ok (.vor (hdrOf w) (Fin.ofNat 8 (fld w 20 18)) (fld w 17 17 == 1) (Fin.ofNat 32 (fld w 16 12)) (Fin.ofNat 32 (fld w 11 7)) (Fin.ofNat 32 (fld w 6 2)) (BitVec.ofNat 2 (fld w 1 0)))
  | 22 => .ok (.vxor (hdrOf w) (Fin.ofNat 8 (fld w 20 18)) (fld w 17 17 == 1) (Fin.ofNat 32 (fld w 16 12)) (Fin.ofNat 32 (fld w 11 7)) (Fin.ofNat 32 (fld w 6 2)) (BitVec.ofNat 2 (fld w 1 0)))
  | 23 => .ok (.vshl (hdrOf w) (Fin.ofNat 8 (fld w 20 18)) (fld w 17 17 == 1) (Fin.ofNat 32 (fld w 16 12)) (Fin.ofNat 32 (fld w 11 7)) (Fin.ofNat 32 (fld w 6 2)) (BitVec.ofNat 2 (fld w 1 0)))
  | 24 => .ok (.vshr (hdrOf w) (Fin.ofNat 8 (fld w 20 18)) (fld w 17 17 == 1) (Fin.ofNat 32 (fld w 16 12)) (Fin.ofNat 32 (fld w 11 7)) (Fin.ofNat 32 (fld w 6 2)) (BitVec.ofNat 2 (fld w 1 0)))
  | 25 => .ok (.vsra (hdrOf w) (Fin.ofNat 8 (fld w 20 18)) (fld w 17 17 == 1) (Fin.ofNat 32 (fld w 16 12)) (Fin.ofNat 32 (fld w 11 7)) (Fin.ofNat 32 (fld w 6 2)) (BitVec.ofNat 2 (fld w 1 0)))
  | 26 => .ok (.vcmp (hdrOf w) (Fin.ofNat 8 (fld w 20 18)) (fld w 17 17 == 1) (BitVec.ofNat 3 (fld w 16 14)) (BitVec.ofNat 2 (fld w 13 12)) (Fin.ofNat 32 (fld w 11 7)) (Fin.ofNat 32 (fld w 6 2)) (BitVec.ofNat 2 (fld w 1 0)))
  | 27 => .ok (.vicmp (hdrOf w) (Fin.ofNat 8 (fld w 20 18)) (fld w 17 17 == 1) (BitVec.ofNat 3 (fld w 16 14)) (BitVec.ofNat 2 (fld w 13 12)) (Fin.ofNat 32 (fld w 11 7)) (Fin.ofNat 32 (fld w 6 2)) (BitVec.ofNat 2 (fld w 1 0)))
  | 28 => if fld w 16 14 = 0 then .ok (.vclass (hdrOf w) (Fin.ofNat 8 (fld w 20 18)) (fld w 17 17 == 1) (BitVec.ofNat 2 (fld w 13 12)) (Fin.ofNat 32 (fld w 11 7)) (BitVec.ofNat 5 (fld w 6 2)) (BitVec.ofNat 2 (fld w 1 0))) else .error .nonzeroField
  | 29 => if fld w 1 0 = 0 ∧ fld w 6 5 = 0 ∧ fld w 11 10 = 0 ∧ fld w 16 15 = 0 then .ok (.kand (hdrOf w) (Fin.ofNat 8 (fld w 20 18)) (fld w 17 17 == 1) (Fin.ofNat 8 (fld w 14 12)) (Fin.ofNat 8 (fld w 9 7)) (Fin.ofNat 8 (fld w 4 2))) else .error .nonzeroField
  | 30 => if fld w 1 0 = 0 ∧ fld w 6 5 = 0 ∧ fld w 11 10 = 0 ∧ fld w 16 15 = 0 then .ok (.kor (hdrOf w) (Fin.ofNat 8 (fld w 20 18)) (fld w 17 17 == 1) (Fin.ofNat 8 (fld w 14 12)) (Fin.ofNat 8 (fld w 9 7)) (Fin.ofNat 8 (fld w 4 2))) else .error .nonzeroField
  | 31 => if fld w 1 0 = 0 ∧ fld w 6 5 = 0 ∧ fld w 11 10 = 0 ∧ fld w 16 15 = 0 then .ok (.kxor (hdrOf w) (Fin.ofNat 8 (fld w 20 18)) (fld w 17 17 == 1) (Fin.ofNat 8 (fld w 14 12)) (Fin.ofNat 8 (fld w 9 7)) (Fin.ofNat 8 (fld w 4 2))) else .error .nonzeroField
  | 32 => if fld w 6 0 = 0 ∧ fld w 11 10 = 0 ∧ fld w 16 15 = 0 then .ok (.knot (hdrOf w) (Fin.ofNat 8 (fld w 20 18)) (fld w 17 17 == 1) (Fin.ofNat 8 (fld w 14 12)) (Fin.ofNat 8 (fld w 9 7))) else .error .nonzeroField
  | 33 => if fld w 6 0 = 0 ∧ fld w 11 10 = 0 ∧ fld w 16 15 = 0 then .ok (.kmov (hdrOf w) (Fin.ofNat 8 (fld w 20 18)) (fld w 17 17 == 1) (Fin.ofNat 8 (fld w 14 12)) (Fin.ofNat 8 (fld w 9 7))) else .error .nonzeroField
  | 34 => if fld w 6 0 = 0 ∧ fld w 11 10 = 0 then .ok (.kcnt (hdrOf w) (Fin.ofNat 8 (fld w 20 18)) (fld w 17 17 == 1) (Fin.ofNat 32 (fld w 16 12)) (Fin.ofNat 8 (fld w 9 7))) else .error .nonzeroField
  | 35 => .ok (.vsel (hdrOf w) (Fin.ofNat 8 (fld w 20 18)) (fld w 17 17 == 1) (Fin.ofNat 32 (fld w 16 12)) (Fin.ofNat 32 (fld w 11 7)) (Fin.ofNat 32 (fld w 6 2)) (BitVec.ofNat 2 (fld w 1 0)))
  | 36 => if fld w 6 2 = 0 then .ok (.vmov (hdrOf w) (Fin.ofNat 8 (fld w 20 18)) (fld w 17 17 == 1) (Fin.ofNat 32 (fld w 16 12)) (Fin.ofNat 32 (fld w 11 7)) (BitVec.ofNat 2 (fld w 1 0))) else .error .nonzeroField
  | 37 => .ok (.vmovi (hdrOf w) (Fin.ofNat 8 (fld w 20 18)) (fld w 17 17 == 1) (Fin.ofNat 32 (fld w 16 12)) (BitVec.ofNat 10 (fld w 11 2)) (BitVec.ofNat 2 (fld w 1 0)))
  | 38 => .ok (.vbcst (hdrOf w) (Fin.ofNat 8 (fld w 20 18)) (fld w 17 17 == 1) (Fin.ofNat 32 (fld w 16 12)) (Fin.ofNat 32 (fld w 11 7)) (BitVec.ofNat 5 (fld w 6 2)) (BitVec.ofNat 2 (fld w 1 0)))
  | 39 => if fld w 6 6 = 0 then .ok (.vcvt (hdrOf w) (Fin.ofNat 8 (fld w 20 18)) (fld w 17 17 == 1) (Fin.ofNat 32 (fld w 16 12)) (Fin.ofNat 32 (fld w 11 7)) (BitVec.ofNat 4 (fld w 5 2)) (BitVec.ofNat 2 (fld w 1 0))) else .error .nonzeroField
  | 40 => if fld w 20 17 = 0 then .ok (.vqnt (hdrOf w) (Fin.ofNat 32 (fld w 16 12)) (Fin.ofNat 32 (fld w 11 7)) (Fin.ofNat 32 (fld w 6 2)) (BitVec.ofNat 2 (fld w 1 0))) else .error .nonzeroField
  | 41 => .ok (.vdq (hdrOf w) (Fin.ofNat 8 (fld w 20 18)) (fld w 17 17 == 1) (Fin.ofNat 32 (fld w 16 12)) (Fin.ofNat 32 (fld w 11 7)) (Fin.ofNat 32 (fld w 6 2)) (BitVec.ofNat 2 (fld w 1 0)))
  | 42 => if fld w 6 5 = 0 then .ok (.vrnd (hdrOf w) (Fin.ofNat 8 (fld w 20 18)) (fld w 17 17 == 1) (Fin.ofNat 32 (fld w 16 12)) (Fin.ofNat 32 (fld w 11 7)) (BitVec.ofNat 3 (fld w 4 2)) (BitVec.ofNat 2 (fld w 1 0))) else .error .nonzeroField
  | 43 => if fld w 6 2 = 0 then .ok (.vexp2 (hdrOf w) (Fin.ofNat 8 (fld w 20 18)) (fld w 17 17 == 1) (Fin.ofNat 32 (fld w 16 12)) (Fin.ofNat 32 (fld w 11 7)) (BitVec.ofNat 2 (fld w 1 0))) else .error .nonzeroField
  | 44 => if fld w 6 2 = 0 then .ok (.vlog2 (hdrOf w) (Fin.ofNat 8 (fld w 20 18)) (fld w 17 17 == 1) (Fin.ofNat 32 (fld w 16 12)) (Fin.ofNat 32 (fld w 11 7)) (BitVec.ofNat 2 (fld w 1 0))) else .error .nonzeroField
  | 45 => if fld w 6 2 = 0 then .ok (.vrcp (hdrOf w) (Fin.ofNat 8 (fld w 20 18)) (fld w 17 17 == 1) (Fin.ofNat 32 (fld w 16 12)) (Fin.ofNat 32 (fld w 11 7)) (BitVec.ofNat 2 (fld w 1 0))) else .error .nonzeroField
  | 46 => if fld w 6 2 = 0 then .ok (.vrsq (hdrOf w) (Fin.ofNat 8 (fld w 20 18)) (fld w 17 17 == 1) (Fin.ofNat 32 (fld w 16 12)) (Fin.ofNat 32 (fld w 11 7)) (BitVec.ofNat 2 (fld w 1 0))) else .error .nonzeroField
  | 47 => if fld w 6 2 = 0 then .ok (.vsin (hdrOf w) (Fin.ofNat 8 (fld w 20 18)) (fld w 17 17 == 1) (Fin.ofNat 32 (fld w 16 12)) (Fin.ofNat 32 (fld w 11 7)) (BitVec.ofNat 2 (fld w 1 0))) else .error .nonzeroField
  | 48 => if fld w 6 2 = 0 then .ok (.vcos (hdrOf w) (Fin.ofNat 8 (fld w 20 18)) (fld w 17 17 == 1) (Fin.ofNat 32 (fld w 16 12)) (Fin.ofNat 32 (fld w 11 7)) (BitVec.ofNat 2 (fld w 1 0))) else .error .nonzeroField
  | 49 => if fld w 6 2 = 0 then .ok (.vtanh (hdrOf w) (Fin.ofNat 8 (fld w 20 18)) (fld w 17 17 == 1) (Fin.ofNat 32 (fld w 16 12)) (Fin.ofNat 32 (fld w 11 7)) (BitVec.ofNat 2 (fld w 1 0))) else .error .nonzeroField
  | 50 => if fld w 6 2 = 0 then .ok (.verf (hdrOf w) (Fin.ofNat 8 (fld w 20 18)) (fld w 17 17 == 1) (Fin.ofNat 32 (fld w 16 12)) (Fin.ofNat 32 (fld w 11 7)) (BitVec.ofNat 2 (fld w 1 0))) else .error .nonzeroField
  | 51 => if fld w 6 3 = 0 then .ok (.vrmax (hdrOf w) (Fin.ofNat 8 (fld w 20 18)) (fld w 17 17 == 1) (Fin.ofNat 32 (fld w 16 12)) (Fin.ofNat 32 (fld w 11 7)) (fld w 2 2 == 1) (BitVec.ofNat 2 (fld w 1 0))) else .error .nonzeroField
  | 52 => if fld w 6 3 = 0 then .ok (.vrmin (hdrOf w) (Fin.ofNat 8 (fld w 20 18)) (fld w 17 17 == 1) (Fin.ofNat 32 (fld w 16 12)) (Fin.ofNat 32 (fld w 11 7)) (fld w 2 2 == 1) (BitVec.ofNat 2 (fld w 1 0))) else .error .nonzeroField
  | 53 => if fld w 6 5 = 0 then .ok (.vsumz (hdrOf w) (Fin.ofNat 8 (fld w 20 18)) (fld w 17 17 == 1) (BitVec.ofNat 5 (fld w 16 12)) (Fin.ofNat 32 (fld w 11 7)) (fld w 4 4 == 1) (BitVec.ofNat 2 (fld w 3 2)) (BitVec.ofNat 2 (fld w 1 0))) else .error .nonzeroField
  | 54 => if fld w 6 2 = 0 ∧ fld w 20 12 = 0 then .ok (.vshape (hdrOf w) (Fin.ofNat 32 (fld w 11 7)) (BitVec.ofNat 2 (fld w 1 0))) else .error .nonzeroField
  | 55 => if fld w 6 2 = 0 ∧ fld w 20 17 = 0 then .ok (.vtrn (hdrOf w) (Fin.ofNat 32 (fld w 16 12)) (Fin.ofNat 32 (fld w 11 7)) (BitVec.ofNat 2 (fld w 1 0))) else .error .nonzeroField
  | 56 => .ok (.vshuf (hdrOf w) (Fin.ofNat 8 (fld w 20 18)) (fld w 17 17 == 1) (Fin.ofNat 32 (fld w 16 12)) (Fin.ofNat 32 (fld w 11 7)) (Fin.ofNat 32 (fld w 6 2)) (BitVec.ofNat 2 (fld w 1 0)))
  | 57 => .ok (.vrot (hdrOf w) (Fin.ofNat 8 (fld w 20 18)) (fld w 17 17 == 1) (Fin.ofNat 32 (fld w 16 12)) (Fin.ofNat 32 (fld w 11 7)) (Fin.ofNat 32 (fld w 6 2)) (BitVec.ofNat 2 (fld w 1 0)))
  | 58 => if fld w 11 2 = 0 then .ok (.vld (hdrOf w) (Fin.ofNat 8 (fld w 20 18)) (fld w 17 17 == 1) (Fin.ofNat 32 (fld w 16 12)) (BitVec.ofNat 2 (fld w 1 0))) else .error .nonzeroField
  | 59 => if fld w 6 2 = 0 ∧ fld w 16 12 = 0 then .ok (.vst (hdrOf w) (Fin.ofNat 8 (fld w 20 18)) (fld w 17 17 == 1) (Fin.ofNat 32 (fld w 11 7)) (BitVec.ofNat 2 (fld w 1 0))) else .error .nonzeroField
  | 60 => if fld w 11 2 = 0 ∧ fld w 20 17 = 0 then .ok (.vstat (hdrOf w) (Fin.ofNat 32 (fld w 16 12)) (BitVec.ofNat 2 (fld w 1 0))) else .error .nonzeroField
  | op => .error (.reservedCell op)

/-- The fields of a word of the VEC section, by its OP. -/
def rawVec (w : Nat) : Except DecodeError Instr := cellVec w (fld w 26 21)

/-- The instruction a word of the section of engine e stands for, or why it is none. CPE has no
section (R172), so no word decodes there. -/
def decode (e : Eng) (w : Nat) : Except DecodeError Instr :=
  let r := match e with
    | .seq => rawSeq w
    | .axu => rawAxu w
    | .bke => rawBke w
    | .vec => rawVec w
    | .cpe => .error (.reservedCell (fld w 26 21))
  match r with
  | .ok i => if i.wf then .ok i else .error .reservedCode
  | .error x => .error x

/-- The bits of a header in its place (R268). -/
def hdrWord (h : Hdr) : Nat := h.w.toNat * 2 ^ 29 + ofBool h.t * 2 ^ 28 + ofBool h.g * 2 ^ 27

/-- A word from its fixed bits and its fields, each a value and the bit it starts at. -/
def encWord (base : Nat) : List (Nat × Nat) → Nat
  | [] => base
  | (v, lo) :: fs => encWord (base + v * 2 ^ lo) fs

/-- The word of an engine instruction, from the same tables; a device event has none. -/
def encode : Instr → Option Nat
  | .nop h => some (encWord (hdrWord h + 0x00000000) [])
  | .idle h c => some (encWord (hdrWord h + 0x00200000) [(c.toNat, 0)])
  | .add h d a b => some (encWord (hdrWord h + 0x00200000) [(d.val, 16), (a.val, 11), (b.val, 6)])
  | .sub h d a b => some (encWord (hdrWord h + 0x00200001) [(d.val, 16), (a.val, 11), (b.val, 6)])
  | .and h d a b => some (encWord (hdrWord h + 0x00200002) [(d.val, 16), (a.val, 11), (b.val, 6)])
  | .or h d a b => some (encWord (hdrWord h + 0x00200003) [(d.val, 16), (a.val, 11), (b.val, 6)])
  | .xor h d a b => some (encWord (hdrWord h + 0x00200004) [(d.val, 16), (a.val, 11), (b.val, 6)])
  | .sll h d a b => some (encWord (hdrWord h + 0x00200005) [(d.val, 16), (a.val, 11), (b.val, 6)])
  | .srl h d a b => some (encWord (hdrWord h + 0x00200006) [(d.val, 16), (a.val, 11), (b.val, 6)])
  | .sra h d a b => some (encWord (hdrWord h + 0x00200007) [(d.val, 16), (a.val, 11), (b.val, 6)])
  | .mul h d a b => some (encWord (hdrWord h + 0x00200008) [(d.val, 16), (a.val, 11), (b.val, 6)])
  | .mulh h d a b => some (encWord (hdrWord h + 0x00200009) [(d.val, 16), (a.val, 11), (b.val, 6)])
  | .mulhu h d a b => some (encWord (hdrWord h + 0x0020000A) [(d.val, 16), (a.val, 11), (b.val, 6)])
  | .div h d a b => some (encWord (hdrWord h + 0x0020000B) [(d.val, 16), (a.val, 11), (b.val, 6)])
  | .divu h d a b => some (encWord (hdrWord h + 0x0020000C) [(d.val, 16), (a.val, 11), (b.val, 6)])
  | .rem h d a b => some (encWord (hdrWord h + 0x0020000D) [(d.val, 16), (a.val, 11), (b.val, 6)])
  | .remu h d a b => some (encWord (hdrWord h + 0x0020000E) [(d.val, 16), (a.val, 11), (b.val, 6)])
  | .min h d a b => some (encWord (hdrWord h + 0x0020000F) [(d.val, 16), (a.val, 11), (b.val, 6)])
  | .max h d a b => some (encWord (hdrWord h + 0x00200010) [(d.val, 16), (a.val, 11), (b.val, 6)])
  | .minu h d a b => some (encWord (hdrWord h + 0x00200011) [(d.val, 16), (a.val, 11), (b.val, 6)])
  | .maxu h d a b => some (encWord (hdrWord h + 0x00200012) [(d.val, 16), (a.val, 11), (b.val, 6)])
  | .slt h d a b => some (encWord (hdrWord h + 0x00200013) [(d.val, 16), (a.val, 11), (b.val, 6)])
  | .sltu h d a b => some (encWord (hdrWord h + 0x00200014) [(d.val, 16), (a.val, 11), (b.val, 6)])
  | .clz h d a => some (encWord (hdrWord h + 0x00200015) [(d.val, 16), (a.val, 11)])
  | .ctz h d a => some (encWord (hdrWord h + 0x00200016) [(d.val, 16), (a.val, 11)])
  | .popc h d a => some (encWord (hdrWord h + 0x00200017) [(d.val, 16), (a.val, 11)])
  | .addi h d a imm => some (encWord (hdrWord h + 0x00400000) [(d.val, 16), (a.val, 11), (imm.toNat, 0)])
  | .slti h d a imm => some (encWord (hdrWord h + 0x00600000) [(d.val, 16), (a.val, 11), (imm.toNat, 0)])
  | .andi h d a imm => some (encWord (hdrWord h + 0x00800000) [(d.val, 16), (a.val, 11), (imm.toNat, 0)])
  | .ori h d a imm => some (encWord (hdrWord h + 0x00A00000) [(d.val, 16), (a.val, 11), (imm.toNat, 0)])
  | .xori h d a imm => some (encWord (hdrWord h + 0x00C00000) [(d.val, 16), (a.val, 11), (imm.toNat, 0)])
  | .slli h d a sh => some (encWord (hdrWord h + 0x00E00000) [(d.val, 16), (a.val, 11), (sh.toNat, 0)])
  | .srli h d a sh => some (encWord (hdrWord h + 0x01000000) [(d.val, 16), (a.val, 11), (sh.toNat, 0)])
  | .srai h d a sh => some (encWord (hdrWord h + 0x01200000) [(d.val, 16), (a.val, 11), (sh.toNat, 0)])
  | .jal h off => some (encWord (hdrWord h + 0x01400000) [(off.toNat, 0)])
  | .jalr h d a imm => some (encWord (hdrWord h + 0x01600000) [(d.val, 16), (a.val, 11), (imm.toNat, 0)])
  | .lis h q d imm => some (encWord (hdrWord h + 0x01800000) [(q.toNat, 21), (d.val, 16), (imm.toNat, 0)])
  | .beq h a b off => some (encWord (hdrWord h + 0x02000000) [(a.val, 16), (b.val, 11), (off.toNat, 0)])
  | .bne h a b off => some (encWord (hdrWord h + 0x02200000) [(a.val, 16), (b.val, 11), (off.toNat, 0)])
  | .blt h a b off => some (encWord (hdrWord h + 0x02400000) [(a.val, 16), (b.val, 11), (off.toNat, 0)])
  | .bge h a b off => some (encWord (hdrWord h + 0x02600000) [(a.val, 16), (b.val, 11), (off.toNat, 0)])
  | .bltu h a b off => some (encWord (hdrWord h + 0x02800000) [(a.val, 16), (b.val, 11), (off.toNat, 0)])
  | .bgeu h a b off => some (encWord (hdrWord h + 0x02A00000) [(a.val, 16), (b.val, 11), (off.toNat, 0)])
  | .ld h d a z imm => some (encWord (hdrWord h + 0x02C00000) [(d.val, 16), (a.val, 11), (z.toNat, 9), (imm.toNat, 0)])
  | .st h d a z imm => some (encWord (hdrWord h + 0x02E00000) [(d.val, 16), (a.val, 11), (z.toNat, 9), (imm.toNat, 0)])
  | .ldc h d a z imm => some (encWord (hdrWord h + 0x03000000) [(d.val, 16), (a.val, 11), (z.toNat, 9), (imm.toNat, 0)])
  | .fence h k s => some (encWord (hdrWord h + 0x03200000) [(k.toNat, 4), (s.toNat, 0)])
  | .faddx h a b x s => some (encWord (hdrWord h + 0x03400000) [(a.val, 11), (b.val, 6), (x.toNat, 4), (s.toNat, 0)])
  | .xrd h d a m x s => some (encWord (hdrWord h + 0x03600000) [(d.val, 16), (a.val, 11), (m.toNat, 6), (x.toNat, 4), (s.toNat, 0)])
  | .tkg w p => some (encWord (w.toNat * 2 ^ 29 + 0x03800000) [(p.toNat, 0)])
  | .tkt w p => some (encWord (w.toNat * 2 ^ 29 + 0x03A00000) [(p.toNat, 0)])
  | .tkq w d a imm => some (encWord (w.toNat * 2 ^ 29 + 0x03C00000) [(d.val, 16), (a.val, 11), (imm.toNat, 0)])
  | .amoAdd h d a b x s => some (encWord (hdrWord h + 0x04000000) [(d.val, 16), (a.val, 11), (b.val, 6), (x.toNat, 4), (s.toNat, 0)])
  | .amoAnd h d a b x s => some (encWord (hdrWord h + 0x04200000) [(d.val, 16), (a.val, 11), (b.val, 6), (x.toNat, 4), (s.toNat, 0)])
  | .amoOr h d a b x s => some (encWord (hdrWord h + 0x04400000) [(d.val, 16), (a.val, 11), (b.val, 6), (x.toNat, 4), (s.toNat, 0)])
  | .amoXor h d a b x s => some (encWord (hdrWord h + 0x04600000) [(d.val, 16), (a.val, 11), (b.val, 6), (x.toNat, 4), (s.toNat, 0)])
  | .amoMin h d a b x s => some (encWord (hdrWord h + 0x04800000) [(d.val, 16), (a.val, 11), (b.val, 6), (x.toNat, 4), (s.toNat, 0)])
  | .amoMax h d a b x s => some (encWord (hdrWord h + 0x04A00000) [(d.val, 16), (a.val, 11), (b.val, 6), (x.toNat, 4), (s.toNat, 0)])
  | .amoMinu h d a b x s => some (encWord (hdrWord h + 0x04C00000) [(d.val, 16), (a.val, 11), (b.val, 6), (x.toNat, 4), (s.toNat, 0)])
  | .amoMaxu h d a b x s => some (encWord (hdrWord h + 0x04E00000) [(d.val, 16), (a.val, 11), (b.val, 6), (x.toNat, 4), (s.toNat, 0)])
  | .amoSwap h d a b x s => some (encWord (hdrWord h + 0x05000000) [(d.val, 16), (a.val, 11), (b.val, 6), (x.toNat, 4), (s.toNat, 0)])
  | .amoCas h d a b x s => some (encWord (hdrWord h + 0x05200000) [(d.val, 16), (a.val, 11), (b.val, 6), (x.toNat, 4), (s.toNat, 0)])
  | .qstart h a m => some (encWord (hdrWord h + 0x05400000) [(a.val, 11), (m.toNat, 0)])
  | .qstop h a m => some (encWord (hdrWord h + 0x05600000) [(a.val, 11), (m.toNat, 0)])
  | .qstat h d a e => some (encWord (hdrWord h + 0x05800000) [(d.val, 16), (a.val, 11), (e.toNat, 0)])
  | .fix w a imm => some (encWord (w.toNat * 2 ^ 29 + 0x05A00000) [(a.val, 11), (imm.toNat, 0)])
  | .size h a imm => some (encWord (hdrWord h + 0x05C00000) [(a.val, 11), (imm.toNat, 0)])
  | .chron h d => some (encWord (hdrWord h + 0x05E00000) [(d.val, 16)])
  | .legq h d => some (encWord (hdrWord h + 0x06000000) [(d.val, 16)])
  | .hqry h d a f => some (encWord (hdrWord h + 0x06200000) [(d.val, 16), (a.val, 11), (f.toNat, 0)])
  | .cpy h d a b s e c => some (encWord (hdrWord h + 0x06400000) [(d.val, 16), (a.val, 11), (b.val, 6), (s.toNat, 2), (ofBool e, 1), (ofBool c, 0)])
  | .cpyf h d a b s e c => some (encWord (hdrWord h + 0x06600000) [(d.val, 16), (a.val, 11), (b.val, 6), (s.toNat, 2), (ofBool e, 1), (ofBool c, 0)])
  | .cpyw h d a b s e c => some (encWord (hdrWord h + 0x06800000) [(d.val, 16), (a.val, 11), (b.val, 6), (s.toNat, 2), (ofBool e, 1), (ofBool c, 0)])
  | .cpyr h d a b s e c => some (encWord (hdrWord h + 0x06A00000) [(d.val, 16), (a.val, 11), (b.val, 6), (s.toNat, 2), (ofBool e, 1), (ofBool c, 0)])
  | .sort h d a b s e c => some (encWord (hdrWord h + 0x06C00000) [(d.val, 16), (a.val, 11), (b.val, 6), (s.toNat, 2), (ofBool e, 1), (ofBool c, 0)])
  | .pack h d a b s e c => some (encWord (hdrWord h + 0x06E00000) [(d.val, 16), (a.val, 11), (b.val, 6), (s.toNat, 2), (ofBool e, 1), (ofBool c, 0)])
  | .crr h d off => some (encWord (hdrWord h + 0x07000000) [(d.val, 16), (off.toNat, 3)])
  | .crw h a off => some (encWord (hdrWord h + 0x07200000) [(a.val, 11), (off.toNat, 3)])
  | .trap h nl => some (encWord (hdrWord h + 0x07400000) [(nl.toNat, 0)])
  | .sret h => some (encWord (hdrWord h + 0x07600000) [])
  | .halt h a => some (encWord (hdrWord h + 0x07800000) [(a.val, 11)])
  | .hset h a b => some (encWord (hdrWord h + 0x07A00000) [(a.val, 11), (b.val, 6)])
  | .scanr h d a => some (encWord (hdrWord h + 0x07C00000) [(d.val, 16), (a.val, 11)])
  | .wrep h a b => some (encWord (hdrWord h + 0x07E00000) [(a.val, 11), (b.val, 6)])
  | .lds h a nl s c => some (encWord (hdrWord h + 0x00400000) [(a.val, 17), (nl.toNat, 10), (s.toNat, 8), (c.toNat, 0)])
  | .sts h a nl s c => some (encWord (hdrWord h + 0x00600000) [(a.val, 17), (nl.toNat, 10), (s.toNat, 8), (c.toNat, 0)])
  | .ldg h a b nl s c => some (encWord (hdrWord h + 0x00800000) [(a.val, 17), (b.val, 13), (nl.toNat, 10), (s.toNat, 8), (c.toNat, 0)])
  | .stg h a b nl s c => some (encWord (hdrWord h + 0x00A00000) [(a.val, 17), (b.val, 13), (nl.toNat, 10), (s.toNat, 8), (c.toNat, 0)])
  | .ldh h hd nl x => some (encWord (hdrWord h + 0x00C00000) [(hd.toNat, 5), (nl.toNat, 2), (x.toNat, 0)])
  | .sth h hd nl x => some (encWord (hdrWord h + 0x00E00000) [(hd.toNat, 5), (nl.toNat, 2), (x.toNat, 0)])
  | .mark h => some (encWord (hdrWord h + 0x01000000) [])
  | .aadd h d a b neg sh => some (encWord (hdrWord h + 0x01200000) [(d.val, 17), (a.val, 13), (b.val, 9), (ofBool neg, 6), (sh.toNat, 0)])
  | .aaddNw h k a b f => some (encWord (hdrWord h + 0x01200080) [(k.toNat, 17), (a.val, 13), (b.val, 9), (f.toNat, 0)])
  | .ali h d imm => some (encWord (hdrWord h + 0x01400000) [(d.val, 17), (imm.toNat, 0)])
  | .aliSh h d imm => some (encWord (hdrWord h + 0x01410000) [(d.val, 17), (imm.toNat, 0)])
  | .amov h d a => some (encWord (hdrWord h + 0x01600000) [(d.val, 17), (a.val, 13)])
  | .loop h nl l => some (encWord (hdrWord h + 0x01800000) [(nl.toNat, 18), (l.toNat, 14)])
  | .lend h nl => some (encWord (hdrWord h + 0x01A00000) [(nl.toNat, 18)])
  | .isect h a b c => some (encWord (hdrWord h + 0x01C00000) [(a.val, 17), (b.val, 13), (c.toNat, 0)])
  | .imerge h a b c => some (encWord (hdrWord h + 0x01E00000) [(a.val, 17), (b.val, 13), (c.toNat, 0)])
  | .icnt h a b p d => some (encWord (hdrWord h + 0x02000000) [(a.val, 17), (b.val, 13), (ofBool p, 7), (d.val, 0)])
  | .ract h win b a => some (encWord (hdrWord h + 0x02200000) [(win.val, 19), (b.val, 14), (a.val, 10)])
  | .rcon h win b a o d => some (encWord (hdrWord h + 0x02400000) [(win.val, 19), (b.val, 14), (a.val, 10), (o.toNat, 8), (d.toNat, 3)])
  | .rpre h win b a => some (encWord (hdrWord h + 0x02600000) [(win.val, 19), (b.val, 14), (a.val, 10)])
  | .rstat h win b a => some (encWord (hdrWord h + 0x02800000) [(win.val, 19), (b.val, 14), (a.val, 10)])
  | .ring h a b l c => some (encWord (hdrWord h + 0x02A00000) [(a.val, 17), (b.val, 13), (l.toNat, 8), (c.toNat, 0)])
  | .bwin h hd nl x => some (encWord (hdrWord h + 0x00400000) [(hd.toNat, 5), (nl.toNat, 2), (x.toNat, 0)])
  | .bwinCfg h hd => some (encWord (hdrWord h + 0x0040001F) [(hd.toNat, 5)])
  | .bsteer h hd nl x => some (encWord (hdrWord h + 0x00600000) [(hd.toNat, 5), (nl.toNat, 2), (x.toNat, 0)])
  | .bplane h hd nl x => some (encWord (hdrWord h + 0x00800000) [(hd.toNat, 5), (nl.toNat, 2), (x.toNat, 0)])
  | .bclr h => some (encWord (hdrWord h + 0x00A00000) [])
  | .cbld h hd k => some (encWord (hdrWord h + 0x00C00000) [(hd.toNat, 5), (k.val, 2)])
  | .mulb h c => some (encWord (hdrWord h + 0x00E00000) [(c.toNat, 18)])
  | .macd h l f nl x => some (encWord (hdrWord h + 0x01000000) [(l.toNat, 16), (f.toNat, 14), (nl.toNat, 2), (x.toNat, 0)])
  | .zswap h => some (encWord (hdrWord h + 0x01200000) [])
  | .zdrain h a b f s => some (encWord (hdrWord h + 0x01400000) [(a.val, 13), (b.val, 5), (f.toNat, 2), (s.toNat, 0)])
  | .zclr h a b => some (encWord (hdrWord h + 0x01600000) [(a.val, 13), (b.val, 5)])
  | .zspill h a b k s => some (encWord (hdrWord h + 0x01800000) [(a.val, 13), (b.val, 5), (ofBool k, 2), (s.toNat, 0)])
  | .zfill h a b k s => some (encWord (hdrWord h + 0x01A00000) [(a.val, 13), (b.val, 5), (ofBool k, 2), (s.toNat, 0)])
  | .zaddv h a b k f s => some (encWord (hdrWord h + 0x01C00000) [(a.val, 13), (b.val, 5), (ofBool k, 4), (f.toNat, 2), (s.toNat, 0)])
  | .zstat h l k s => some (encWord (hdrWord h + 0x01E00000) [(l.toNat, 16), (ofBool k, 7), (s.toNat, 5)])
  | .loopBke h nl l => some (encWord (hdrWord h + 0x02000000) [(nl.toNat, 18), (l.toNat, 14)])
  | .lendBke h nl => some (encWord (hdrWord h + 0x02200000) [(nl.toNat, 18)])
  | .vadd h k n d a b x => some (encWord (hdrWord h + 0x00400000) [(k.val, 18), (ofBool n, 17), (d.val, 12), (a.val, 7), (b.val, 2), (x.toNat, 0)])
  | .vsub h k n d a b x => some (encWord (hdrWord h + 0x00600000) [(k.val, 18), (ofBool n, 17), (d.val, 12), (a.val, 7), (b.val, 2), (x.toNat, 0)])
  | .vmul h k n d a b x => some (encWord (hdrWord h + 0x00800000) [(k.val, 18), (ofBool n, 17), (d.val, 12), (a.val, 7), (b.val, 2), (x.toNat, 0)])
  | .vfma h k n d a b x => some (encWord (hdrWord h + 0x00A00000) [(k.val, 18), (ofBool n, 17), (d.val, 12), (a.val, 7), (b.val, 2), (x.toNat, 0)])
  | .vfms h k n d a b x => some (encWord (hdrWord h + 0x00C00000) [(k.val, 18), (ofBool n, 17), (d.val, 12), (a.val, 7), (b.val, 2), (x.toNat, 0)])
  | .vfnma h k n d a b x => some (encWord (hdrWord h + 0x00E00000) [(k.val, 18), (ofBool n, 17), (d.val, 12), (a.val, 7), (b.val, 2), (x.toNat, 0)])
  | .vdiv h k n d a b x => some (encWord (hdrWord h + 0x01000000) [(k.val, 18), (ofBool n, 17), (d.val, 12), (a.val, 7), (b.val, 2), (x.toNat, 0)])
  | .vsqrt h k n d a x => some (encWord (hdrWord h + 0x01200000) [(k.val, 18), (ofBool n, 17), (d.val, 12), (a.val, 7), (x.toNat, 0)])
  | .vmin h k n d a b x => some (encWord (hdrWord h + 0x01400000) [(k.val, 18), (ofBool n, 17), (d.val, 12), (a.val, 7), (b.val, 2), (x.toNat, 0)])
  | .vmax h k n d a b x => some (encWord (hdrWord h + 0x01600000) [(k.val, 18), (ofBool n, 17), (d.val, 12), (a.val, 7), (b.val, 2), (x.toNat, 0)])
  | .vabs h k n d a x => some (encWord (hdrWord h + 0x01800000) [(k.val, 18), (ofBool n, 17), (d.val, 12), (a.val, 7), (x.toNat, 0)])
  | .vneg h k n d a x => some (encWord (hdrWord h + 0x01A00000) [(k.val, 18), (ofBool n, 17), (d.val, 12), (a.val, 7), (x.toNat, 0)])
  | .vcpys h k n d a b x => some (encWord (hdrWord h + 0x01C00000) [(k.val, 18), (ofBool n, 17), (d.val, 12), (a.val, 7), (b.val, 2), (x.toNat, 0)])
  | .viadd h k n d a b x => some (encWord (hdrWord h + 0x01E00000) [(k.val, 18), (ofBool n, 17), (d.val, 12), (a.val, 7), (b.val, 2), (x.toNat, 0)])
  | .visub h k n d a b x => some (encWord (hdrWord h + 0x02000000) [(k.val, 18), (ofBool n, 17), (d.val, 12), (a.val, 7), (b.val, 2), (x.toNat, 0)])
  | .vimul h k n d a b x => some (encWord (hdrWord h + 0x02200000) [(k.val, 18), (ofBool n, 17), (d.val, 12), (a.val, 7), (b.val, 2), (x.toNat, 0)])
  | .vimin h k n d a b x => some (encWord (hdrWord h + 0x02400000) [(k.val, 18), (ofBool n, 17), (d.val, 12), (a.val, 7), (b.val, 2), (x.toNat, 0)])
  | .vimax h k n d a b x => some (encWord (hdrWord h + 0x02600000) [(k.val, 18), (ofBool n, 17), (d.val, 12), (a.val, 7), (b.val, 2), (x.toNat, 0)])
  | .vand h k n d a b x => some (encWord (hdrWord h + 0x02800000) [(k.val, 18), (ofBool n, 17), (d.val, 12), (a.val, 7), (b.val, 2), (x.toNat, 0)])
  | .vor h k n d a b x => some (encWord (hdrWord h + 0x02A00000) [(k.val, 18), (ofBool n, 17), (d.val, 12), (a.val, 7), (b.val, 2), (x.toNat, 0)])
  | .vxor h k n d a b x => some (encWord (hdrWord h + 0x02C00000) [(k.val, 18), (ofBool n, 17), (d.val, 12), (a.val, 7), (b.val, 2), (x.toNat, 0)])
  | .vshl h k n d a b x => some (encWord (hdrWord h + 0x02E00000) [(k.val, 18), (ofBool n, 17), (d.val, 12), (a.val, 7), (b.val, 2), (x.toNat, 0)])
  | .vshr h k n d a b x => some (encWord (hdrWord h + 0x03000000) [(k.val, 18), (ofBool n, 17), (d.val, 12), (a.val, 7), (b.val, 2), (x.toNat, 0)])
  | .vsra h k n d a b x => some (encWord (hdrWord h + 0x03200000) [(k.val, 18), (ofBool n, 17), (d.val, 12), (a.val, 7), (b.val, 2), (x.toNat, 0)])
  | .vcmp h k n c p a b x => some (encWord (hdrWord h + 0x03400000) [(k.val, 18), (ofBool n, 17), (c.toNat, 14), (p.toNat, 12), (a.val, 7), (b.val, 2), (x.toNat, 0)])
  | .vicmp h k n c p a b x => some (encWord (hdrWord h + 0x03600000) [(k.val, 18), (ofBool n, 17), (c.toNat, 14), (p.toNat, 12), (a.val, 7), (b.val, 2), (x.toNat, 0)])
  | .vclass h k n p a m x => some (encWord (hdrWord h + 0x03800000) [(k.val, 18), (ofBool n, 17), (p.toNat, 12), (a.val, 7), (m.toNat, 2), (x.toNat, 0)])
  | .kand h k n d a b => some (encWord (hdrWord h + 0x03A00000) [(k.val, 18), (ofBool n, 17), (d.val, 12), (a.val, 7), (b.val, 2)])
  | .kor h k n d a b => some (encWord (hdrWord h + 0x03C00000) [(k.val, 18), (ofBool n, 17), (d.val, 12), (a.val, 7), (b.val, 2)])
  | .kxor h k n d a b => some (encWord (hdrWord h + 0x03E00000) [(k.val, 18), (ofBool n, 17), (d.val, 12), (a.val, 7), (b.val, 2)])
  | .knot h k n d a => some (encWord (hdrWord h + 0x04000000) [(k.val, 18), (ofBool n, 17), (d.val, 12), (a.val, 7)])
  | .kmov h k n d a => some (encWord (hdrWord h + 0x04200000) [(k.val, 18), (ofBool n, 17), (d.val, 12), (a.val, 7)])
  | .kcnt h k n d a => some (encWord (hdrWord h + 0x04400000) [(k.val, 18), (ofBool n, 17), (d.val, 12), (a.val, 7)])
  | .vsel h k n d a b x => some (encWord (hdrWord h + 0x04600000) [(k.val, 18), (ofBool n, 17), (d.val, 12), (a.val, 7), (b.val, 2), (x.toNat, 0)])
  | .vmov h k n d a x => some (encWord (hdrWord h + 0x04800000) [(k.val, 18), (ofBool n, 17), (d.val, 12), (a.val, 7), (x.toNat, 0)])
  | .vmovi h k n d imm x => some (encWord (hdrWord h + 0x04A00000) [(k.val, 18), (ofBool n, 17), (d.val, 12), (imm.toNat, 2), (x.toNat, 0)])
  | .vbcst h k n d a s x => some (encWord (hdrWord h + 0x04C00000) [(k.val, 18), (ofBool n, 17), (d.val, 12), (a.val, 7), (s.toNat, 2), (x.toNat, 0)])
  | .vcvt h k n d a f x => some (encWord (hdrWord h + 0x04E00000) [(k.val, 18), (ofBool n, 17), (d.val, 12), (a.val, 7), (f.toNat, 2), (x.toNat, 0)])
  | .vqnt h d a b x => some (encWord (hdrWord h + 0x05000000) [(d.val, 12), (a.val, 7), (b.val, 2), (x.toNat, 0)])
  | .vdq h k n d a b x => some (encWord (hdrWord h + 0x05200000) [(k.val, 18), (ofBool n, 17), (d.val, 12), (a.val, 7), (b.val, 2), (x.toNat, 0)])
  | .vrnd h k n d a m x => some (encWord (hdrWord h + 0x05400000) [(k.val, 18), (ofBool n, 17), (d.val, 12), (a.val, 7), (m.toNat, 2), (x.toNat, 0)])
  | .vexp2 h k n d a x => some (encWord (hdrWord h + 0x05600000) [(k.val, 18), (ofBool n, 17), (d.val, 12), (a.val, 7), (x.toNat, 0)])
  | .vlog2 h k n d a x => some (encWord (hdrWord h + 0x05800000) [(k.val, 18), (ofBool n, 17), (d.val, 12), (a.val, 7), (x.toNat, 0)])
  | .vrcp h k n d a x => some (encWord (hdrWord h + 0x05A00000) [(k.val, 18), (ofBool n, 17), (d.val, 12), (a.val, 7), (x.toNat, 0)])
  | .vrsq h k n d a x => some (encWord (hdrWord h + 0x05C00000) [(k.val, 18), (ofBool n, 17), (d.val, 12), (a.val, 7), (x.toNat, 0)])
  | .vsin h k n d a x => some (encWord (hdrWord h + 0x05E00000) [(k.val, 18), (ofBool n, 17), (d.val, 12), (a.val, 7), (x.toNat, 0)])
  | .vcos h k n d a x => some (encWord (hdrWord h + 0x06000000) [(k.val, 18), (ofBool n, 17), (d.val, 12), (a.val, 7), (x.toNat, 0)])
  | .vtanh h k n d a x => some (encWord (hdrWord h + 0x06200000) [(k.val, 18), (ofBool n, 17), (d.val, 12), (a.val, 7), (x.toNat, 0)])
  | .verf h k n d a x => some (encWord (hdrWord h + 0x06400000) [(k.val, 18), (ofBool n, 17), (d.val, 12), (a.val, 7), (x.toNat, 0)])
  | .vrmax h k n d a s x => some (encWord (hdrWord h + 0x06600000) [(k.val, 18), (ofBool n, 17), (d.val, 12), (a.val, 7), (ofBool s, 2), (x.toNat, 0)])
  | .vrmin h k n d a s x => some (encWord (hdrWord h + 0x06800000) [(k.val, 18), (ofBool n, 17), (d.val, 12), (a.val, 7), (ofBool s, 2), (x.toNat, 0)])
  | .vsumz h k n l a e s x => some (encWord (hdrWord h + 0x06A00000) [(k.val, 18), (ofBool n, 17), (l.toNat, 12), (a.val, 7), (ofBool e, 4), (s.toNat, 2), (x.toNat, 0)])
  | .vshape h a x => some (encWord (hdrWord h + 0x06C00000) [(a.val, 7), (x.toNat, 0)])
  | .vtrn h d a x => some (encWord (hdrWord h + 0x06E00000) [(d.val, 12), (a.val, 7), (x.toNat, 0)])
  | .vshuf h k n d a b x => some (encWord (hdrWord h + 0x07000000) [(k.val, 18), (ofBool n, 17), (d.val, 12), (a.val, 7), (b.val, 2), (x.toNat, 0)])
  | .vrot h k n d a b x => some (encWord (hdrWord h + 0x07200000) [(k.val, 18), (ofBool n, 17), (d.val, 12), (a.val, 7), (b.val, 2), (x.toNat, 0)])
  | .vld h k n d x => some (encWord (hdrWord h + 0x07400000) [(k.val, 18), (ofBool n, 17), (d.val, 12), (x.toNat, 0)])
  | .vst h k n a x => some (encWord (hdrWord h + 0x07600000) [(k.val, 18), (ofBool n, 17), (a.val, 7), (x.toNat, 0)])
  | .vstat h d x => some (encWord (hdrWord h + 0x07800000) [(d.val, 12), (x.toNat, 0)])
  | .pendOnErrors _ _ => none
  | .pendOnHeat _ _ => none
  | .uncorrectableDramError _ _ => none
  | .powerWindow _ => none
  | .refreshSlotStart _ _ => none
  | .rowOpenTooLong _ _ _ => none
  | .hostMemoryRequest _ _ _ _ _ => none
  | .hostAtomicop _ _ _ _ _ _ _ _ => none
  | .portUp _ _ _ _ => none
  | .hello _ _ _ => none
  | .peerTlpArrival _ _ _ _ => none
  | .stage _ _ => none
  | .tkgive _ _ _ _ => none
  | .fixarr _ _ _ _ _ => none
  | .fixrel _ _ _ _ => none
  | .stop _ _ _ => none
  | .stopDelayedSend _ _ _ => none
  | .completionTimeout _ => none
  | .completionArrival _ _ _ => none
  | .ideIntegrityFailure _ => none
  | .counterLowRead _ _ => none
  | .keySlotWrite _ _ _ => none
  | .keySlotWriteApply _ => none
  | .launchGo _ _ => none
  | .abort _ _ => none
  | .launchCheck _ _ => none
  | .overlayLoad _ _ => none
  | .contextStart _ _ => none
  | .spdmChallenge _ => none
  | .spdmGetMeasurements _ _ => none
  | .rwinWrite _ _ _ _ => none
  | .rwinApply _ _ _ _ => none
  | .pageWalk _ => none
  | .accessResponse _ => none
  | .refusalRetry _ => none
  | .fqheadWrite _ _ => none
  | .mgcqheadWrite _ => none
  | .atsInvalidation _ _ => none
  | .peerRequest _ _ _ _ _ _ => none
  | .dueCycleMiss _ _ => none
  | .fixComplete _ _ => none
  | .fixRelease _ _ => none
  | .resumeFix _ _ => none
  | .rowReactivation _ _ _ => none
  | .lookoutT1 _ _ => none
  | .lookoutT2 _ _ => none
  | .lookoutT3 _ _ => none
  | .scanAddressWrite _ => none
  | .checkpointRequest _ _ => none
  | .registerWrite _ _ _ _ _ => none
  | .wordRetire _ _ => none
  | .rowBeatFailure _ _ => none
  | .commandEntry _ _ => none
  | .sectorDone _ _ _ => none
  | .commandComplete _ _ => none
  | .unassignedEncoding _ => none
  | .prechargeComplete _ _ => none
  | .rowBeatDelivery _ _ => none
  | .hostLinkUp _ => none
  | .flitReplay _ _ => none
  | .hostConfigurationRequest _ _ => none
  | .stopRecordRefusalTimeout _ _ _ => none
  | .coldReset => none
  | .bootComplete => none
  | .warmReset => none
  | .partitionReset => none
  | .powerLoss => none
  | .thermalEmergency => none
  | .supplyEmergency => none
  | .quiesce => none
  | .commit => none
  | .surveyCommandDone => none
  | .hotonCrossing => none
  | .hotoffCrossing => none
  | .refreshPeriodChange => none
  | .refreshDeadline => none
  | .hostVendorMessage => none
  | .hostLinkDown => none
  | .portLeavesUp => none
  | .portReturnsUp => none
  | .linkDownTimeout => none
  | .linkEnable => none
  | .linkDisable => none
  | .stripeGapTimeout => none
  | .freeze => none
  | .thaw => none
  | .warmrst => none
  | .emclear => none
  | .fwstage => none
  | .partapply => none
  | .hcmdComplete => none
  | .bankToRow => none
  | .bankToPool => none
  | .bmctlDone => none
  | .inval => none
  | .preload => none
  | .shootdownDone => none
  | .migrationGo => none
  | .alloc => none
  | .free => none
  | .move => none
  | .moveDone => none
  | .promotion => none
  | .coreArrival => none
  | .helmSchedule => none
  | .quantumExpiry => none
  | .preemptionRequest => none
  | .preemptionComplete => none
  | .switchEnd => none
  | .replayInjection => none
  | .partitionHalt => none
  | .resume => none
  | .frzctlFreeze => none
  | .frzctlRelease => none
  | .freezeTimeout => none
  | .accessGeneration => none
  | .stqSlotPerform => none
  | .replayQueueLeave => none
  | .busRepair => none
  | .statWindowStart => none
  | .sectorStart => none
  | .followOnIssue => none
  | .emergencyConditionCleared => none

/-- The sections in which the word of an instruction means it (R268, R277, R281, R283, R285); a device event has none. -/
def sectionsOf : Instr → List Eng
  | .nop .. => [.seq, .axu, .bke, .vec]
  | .idle .. => [.axu, .bke, .vec]
  | .add .. => [.seq]
  | .sub .. => [.seq]
  | .and .. => [.seq]
  | .or .. => [.seq]
  | .xor .. => [.seq]
  | .sll .. => [.seq]
  | .srl .. => [.seq]
  | .sra .. => [.seq]
  | .mul .. => [.seq]
  | .mulh .. => [.seq]
  | .mulhu .. => [.seq]
  | .div .. => [.seq]
  | .divu .. => [.seq]
  | .rem .. => [.seq]
  | .remu .. => [.seq]
  | .min .. => [.seq]
  | .max .. => [.seq]
  | .minu .. => [.seq]
  | .maxu .. => [.seq]
  | .slt .. => [.seq]
  | .sltu .. => [.seq]
  | .clz .. => [.seq]
  | .ctz .. => [.seq]
  | .popc .. => [.seq]
  | .addi .. => [.seq]
  | .slti .. => [.seq]
  | .andi .. => [.seq]
  | .ori .. => [.seq]
  | .xori .. => [.seq]
  | .slli .. => [.seq]
  | .srli .. => [.seq]
  | .srai .. => [.seq]
  | .jal .. => [.seq]
  | .jalr .. => [.seq]
  | .lis .. => [.seq]
  | .beq .. => [.seq]
  | .bne .. => [.seq]
  | .blt .. => [.seq]
  | .bge .. => [.seq]
  | .bltu .. => [.seq]
  | .bgeu .. => [.seq]
  | .ld .. => [.seq]
  | .st .. => [.seq]
  | .ldc .. => [.seq]
  | .fence .. => [.seq]
  | .faddx .. => [.seq]
  | .xrd .. => [.seq]
  | .tkg .. => [.seq]
  | .tkt .. => [.seq]
  | .tkq .. => [.seq]
  | .amoAdd .. => [.seq]
  | .amoAnd .. => [.seq]
  | .amoOr .. => [.seq]
  | .amoXor .. => [.seq]
  | .amoMin .. => [.seq]
  | .amoMax .. => [.seq]
  | .amoMinu .. => [.seq]
  | .amoMaxu .. => [.seq]
  | .amoSwap .. => [.seq]
  | .amoCas .. => [.seq]
  | .qstart .. => [.seq]
  | .qstop .. => [.seq]
  | .qstat .. => [.seq]
  | .fix .. => [.seq]
  | .size .. => [.seq]
  | .chron .. => [.seq]
  | .legq .. => [.seq]
  | .hqry .. => [.seq]
  | .cpy .. => [.seq]
  | .cpyf .. => [.seq]
  | .cpyw .. => [.seq]
  | .cpyr .. => [.seq]
  | .sort .. => [.seq]
  | .pack .. => [.seq]
  | .crr .. => [.seq]
  | .crw .. => [.seq]
  | .trap .. => [.seq]
  | .sret .. => [.seq]
  | .halt .. => [.seq]
  | .hset .. => [.seq]
  | .scanr .. => [.seq]
  | .wrep .. => [.seq]
  | .lds .. => [.axu]
  | .sts .. => [.axu]
  | .ldg .. => [.axu]
  | .stg .. => [.axu]
  | .ldh .. => [.axu]
  | .sth .. => [.axu]
  | .mark .. => [.axu]
  | .aadd .. => [.axu]
  | .aaddNw .. => [.axu]
  | .ali .. => [.axu]
  | .aliSh .. => [.axu]
  | .amov .. => [.axu]
  | .loop .. => [.axu]
  | .lend .. => [.axu]
  | .isect .. => [.axu]
  | .imerge .. => [.axu]
  | .icnt .. => [.axu]
  | .ract .. => [.axu]
  | .rcon .. => [.axu]
  | .rpre .. => [.axu]
  | .rstat .. => [.axu]
  | .ring .. => [.axu]
  | .bwin .. => [.bke]
  | .bwinCfg .. => [.bke]
  | .bsteer .. => [.bke]
  | .bplane .. => [.bke]
  | .bclr .. => [.bke]
  | .cbld .. => [.bke]
  | .mulb .. => [.bke]
  | .macd .. => [.bke]
  | .zswap .. => [.bke]
  | .zdrain .. => [.bke]
  | .zclr .. => [.bke]
  | .zspill .. => [.bke]
  | .zfill .. => [.bke]
  | .zaddv .. => [.bke]
  | .zstat .. => [.bke]
  | .loopBke .. => [.bke]
  | .lendBke .. => [.bke]
  | .vadd .. => [.vec]
  | .vsub .. => [.vec]
  | .vmul .. => [.vec]
  | .vfma .. => [.vec]
  | .vfms .. => [.vec]
  | .vfnma .. => [.vec]
  | .vdiv .. => [.vec]
  | .vsqrt .. => [.vec]
  | .vmin .. => [.vec]
  | .vmax .. => [.vec]
  | .vabs .. => [.vec]
  | .vneg .. => [.vec]
  | .vcpys .. => [.vec]
  | .viadd .. => [.vec]
  | .visub .. => [.vec]
  | .vimul .. => [.vec]
  | .vimin .. => [.vec]
  | .vimax .. => [.vec]
  | .vand .. => [.vec]
  | .vor .. => [.vec]
  | .vxor .. => [.vec]
  | .vshl .. => [.vec]
  | .vshr .. => [.vec]
  | .vsra .. => [.vec]
  | .vcmp .. => [.vec]
  | .vicmp .. => [.vec]
  | .vclass .. => [.vec]
  | .kand .. => [.vec]
  | .kor .. => [.vec]
  | .kxor .. => [.vec]
  | .knot .. => [.vec]
  | .kmov .. => [.vec]
  | .kcnt .. => [.vec]
  | .vsel .. => [.vec]
  | .vmov .. => [.vec]
  | .vmovi .. => [.vec]
  | .vbcst .. => [.vec]
  | .vcvt .. => [.vec]
  | .vqnt .. => [.vec]
  | .vdq .. => [.vec]
  | .vrnd .. => [.vec]
  | .vexp2 .. => [.vec]
  | .vlog2 .. => [.vec]
  | .vrcp .. => [.vec]
  | .vrsq .. => [.vec]
  | .vsin .. => [.vec]
  | .vcos .. => [.vec]
  | .vtanh .. => [.vec]
  | .verf .. => [.vec]
  | .vrmax .. => [.vec]
  | .vrmin .. => [.vec]
  | .vsumz .. => [.vec]
  | .vshape .. => [.vec]
  | .vtrn .. => [.vec]
  | .vshuf .. => [.vec]
  | .vrot .. => [.vec]
  | .vld .. => [.vec]
  | .vst .. => [.vec]
  | .vstat .. => [.vec]
  | .pendOnErrors .. => []
  | .pendOnHeat .. => []
  | .uncorrectableDramError .. => []
  | .powerWindow .. => []
  | .refreshSlotStart .. => []
  | .rowOpenTooLong .. => []
  | .hostMemoryRequest .. => []
  | .hostAtomicop .. => []
  | .portUp .. => []
  | .hello .. => []
  | .peerTlpArrival .. => []
  | .stage .. => []
  | .tkgive .. => []
  | .fixarr .. => []
  | .fixrel .. => []
  | .stop .. => []
  | .stopDelayedSend .. => []
  | .completionTimeout .. => []
  | .completionArrival .. => []
  | .ideIntegrityFailure .. => []
  | .counterLowRead .. => []
  | .keySlotWrite .. => []
  | .keySlotWriteApply .. => []
  | .launchGo .. => []
  | .abort .. => []
  | .launchCheck .. => []
  | .overlayLoad .. => []
  | .contextStart .. => []
  | .spdmChallenge .. => []
  | .spdmGetMeasurements .. => []
  | .rwinWrite .. => []
  | .rwinApply .. => []
  | .pageWalk .. => []
  | .accessResponse .. => []
  | .refusalRetry .. => []
  | .fqheadWrite .. => []
  | .mgcqheadWrite .. => []
  | .atsInvalidation .. => []
  | .peerRequest .. => []
  | .dueCycleMiss .. => []
  | .fixComplete .. => []
  | .fixRelease .. => []
  | .resumeFix .. => []
  | .rowReactivation .. => []
  | .lookoutT1 .. => []
  | .lookoutT2 .. => []
  | .lookoutT3 .. => []
  | .scanAddressWrite .. => []
  | .checkpointRequest .. => []
  | .registerWrite .. => []
  | .wordRetire .. => []
  | .rowBeatFailure .. => []
  | .commandEntry .. => []
  | .sectorDone .. => []
  | .commandComplete .. => []
  | .unassignedEncoding .. => []
  | .prechargeComplete .. => []
  | .rowBeatDelivery .. => []
  | .hostLinkUp .. => []
  | .flitReplay .. => []
  | .hostConfigurationRequest .. => []
  | .stopRecordRefusalTimeout .. => []
  | .coldReset => []
  | .bootComplete => []
  | .warmReset => []
  | .partitionReset => []
  | .powerLoss => []
  | .thermalEmergency => []
  | .supplyEmergency => []
  | .quiesce => []
  | .commit => []
  | .surveyCommandDone => []
  | .hotonCrossing => []
  | .hotoffCrossing => []
  | .refreshPeriodChange => []
  | .refreshDeadline => []
  | .hostVendorMessage => []
  | .hostLinkDown => []
  | .portLeavesUp => []
  | .portReturnsUp => []
  | .linkDownTimeout => []
  | .linkEnable => []
  | .linkDisable => []
  | .stripeGapTimeout => []
  | .freeze => []
  | .thaw => []
  | .warmrst => []
  | .emclear => []
  | .fwstage => []
  | .partapply => []
  | .hcmdComplete => []
  | .bankToRow => []
  | .bankToPool => []
  | .bmctlDone => []
  | .inval => []
  | .preload => []
  | .shootdownDone => []
  | .migrationGo => []
  | .alloc => []
  | .free => []
  | .move => []
  | .moveDone => []
  | .promotion => []
  | .coreArrival => []
  | .helmSchedule => []
  | .quantumExpiry => []
  | .preemptionRequest => []
  | .preemptionComplete => []
  | .switchEnd => []
  | .replayInjection => []
  | .partitionHalt => []
  | .resume => []
  | .frzctlFreeze => []
  | .frzctlRelease => []
  | .freezeTimeout => []
  | .accessGeneration => []
  | .stqSlotPerform => []
  | .replayQueueLeave => []
  | .busRepair => []
  | .statWindowStart => []
  | .sectorStart => []
  | .followOnIssue => []
  | .emergencyConditionCleared => []

/-- The instruction the decoder reads from a word numbered as the opcode table numbers it. The table
names no section, and one bit pattern may be a word of several (R268); the word is read in the SEQ
section first, and where no SEQ word has these bits in the AXU, BKE and VEC section in turn (log 2). -/
def decodeTableWord (_nbits w : Nat) : Option Instr :=
  match decode .seq w with
  | .ok i => some i
  | .error _ => match decode .axu w with
    | .ok i => some i
    | .error _ => match decode .bke w with
      | .ok i => some i
      | .error _ => match decode .vec w with
        | .ok i => some i
        | .error _ => none

end Sys2Proof
end

