-- ==== Sys2Proof/Machine/Cpe.lean ====
section
/-! DEFINITION. The copy engine: command words (R406), entry (R407, R408), transforms (R409), sectors (R410 to R412),
completion (R413, R414), follow-on words (R415), SORT (R203, R418), PACK (R191, R419), CPYR (R417). -/

namespace Sys2Proof.Machine

open Host (Outcome)

/-! ## The command block (R408) -/

/-- Field [hi:lo] of the first doubleword of a command block. -/
def blkF (b : List Byte) (hi lo : Nat) : Nat := fld (ofBytes (b.take 8)) hi lo

/-- The number of n bytes at an offset of a command block. -/
def blkW (b : List Byte) (off n : Nat) : Nat := ofBytes ((b.drop off).take n)

/-- Six 32-bit fields at an offset: SC at 0x10, DC at 0x28, EXT at 0x40. -/
def blkSix (b : List Byte) (off : Nat) : List Nat := (List.range 6).map fun i => blkW b (off + 4 * i) 4

/-- Transform, rounding mode, TAKE, GIVE, FOLLOW, SSL and DSL of a block. -/
def blkXf (b : List Byte) : Nat := blkF b 51 48
/-- See `blkXf`. -/
def blkRm (b : List Byte) : Nat := blkF b 54 52
/-- See `blkXf`. -/
def blkTake (b : List Byte) : Bool := blkF b 56 56 == 1
/-- See `blkXf`. -/
def blkGive (b : List Byte) : Bool := blkF b 57 57 == 1
/-- See `blkXf`. -/
def blkFollow (b : List Byte) : Bool := blkF b 58 58 == 1
/-- See `blkXf`. -/
def blkSsl (b : List Byte) : Bool := blkF b 59 59 == 1
/-- See `blkXf`. -/
def blkDsl (b : List Byte) : Bool := blkF b 60 60 == 1

/-- Whether a block breaks the field rules of R408, R409, R418 for an operation: 0x15 at entry. -/
def blockBad (op : Nat) (b : List Byte) : Bool :=
  let xf := blkXf b
  let sc := blkSix b 0x10
  let dc := blkSix b 0x28
  let ext := blkSix b 0x40
  let zero (l : List Nat) : Bool := l.all (· == 0)
  let common := blkF b 55 55 != 0 || blkF b 63 61 != 0 || blkW b 0xC 4 != 0 || blkW b 0x60 32 != 0 || decide (6 ≤ blkRm b)
    || ext.contains 0 || (!blkFollow b && blkW b 8 4 != 0)
  let aux := blkF b 47 32
  common || (match op with
    | 0x33 => blkF b 15 0 != 0xFFFF || xf != 0 || aux != 0xFFFF || !zero sc || blkSsl b || blkRm b != 0
    | 0x36 => xf != 0 || aux != 0xFFFF || blkW b 0x58 8 != 0 || blkRm b != 0 || !zero sc || !zero dc || ext.any (· != 1)
    | 0x37 => xf != 0 || aux != 0xFFFF || blkW b 0x58 8 != 0 || !zero dc
    | _ => blkW b 0x58 8 != 0 || decide (4 ≤ xf) || (aux != 0xFFFF && xf != 1 && xf != 2))

/-! ## Handles of a command (R408, R409) -/

/-- One side of a command: the handle, its entry, whether its BASE is a slice offset, the element width in bits, and
whether elements are bytes because one format is RAW (R409). -/
structure Side where
  h : Nat
  e : BitVec 512
  sl : Bool
  w : Nat
  raw : Bool := false
  deriving DecidableEq, Repr

/-- Width of an element of an entry: 128 bytes for exact cells (R187). -/
def entWidth (e : BitVec 512) : Nat := if entType e = 6 then 1024 else fmtW (entFmt e)

/-- The byte an element starts in (R188). A 4-bit handle moved as bytes has its bytes adjacent (R409). -/
def Side.addr (x : Side) (xs : List Nat) : Nat :=
  if x.raw ∧ ent4 x.e then
    lowInt ((List.range (entNdim x.e)).foldl (fun (a : Int) i => if i = 0 then a + (xs.getD 0 0 : Nat) else a + (xs.getD i 0 : Nat) * entStr x.e i) (entBase x.e)) 56
  else elemAddr x.e xs

/-- Bytes of an element, 1 for a 4-bit one. -/
def Side.bytes (x : Side) : Nat := max 1 (x.w / 8)

/-- Whether a box leaves the dimensions a handle has: 0x15 (R408). -/
def boxShape (e : BitVec 512) (c ext : List Nat) : Bool :=
  (List.range 6).all fun i => decide (i < entNdim e) || (c.getD i 0 == 0 && ext.getD i 1 == 1)

/-- Whether every element of a box lies within the bounds of a handle (R188). -/
def boxIn (e : BitVec 512) (c ext : List Nat) : Bool :=
  (List.range (entNdim e)).all fun i => decide (c.getD i 0 + ext.getD i 1 ≤ entBound e i)

/-- A list with its first two members exchanged, as XF 3 does at the destination (R408). -/
def swap01 : List Nat → List Nat
  | x :: y :: r => y :: x :: r
  | l => l

/-- What stops an entry: the fill of a handle is refused, a miss in a fixed leg, a hard fault of a handle, a memory
fault of a fill. -/
inductive EntryStop where
  | wait (h : Nat)
  | deviation
  | hard (code h : Nat)
  | fill (code entry level h : Nat)
  deriving DecidableEq, Repr

/-- Looks up the handles of a command, in the order SRC, DST, AUX (R189). -/
def State.cpeEntries (s : State) (c : CoreIx) : List Nat → Except EntryStop (List (Nat × BitVec 512) × State)
  | [] => .ok ([], s)
  | h :: r => match s.handle c h with
    | .wait => .error (.wait h)
    | .deviation => .error .deviation
    | .fault code e l => .error (.fill code e l h)
    | .hit e s => match s.cpeEntries c r with
      | .ok (l, s) => .ok ((h, e) :: l, s)
      | .error x => .error x

/-- Checks the entry of a handle of a command (R188). -/
def State.cpeHandle (s : State) (c : CoreIx) (x : Nat × BitVec 512) (types : List Nat) (k : HRight) : Except EntryStop Unit :=
  match handleCheck (s.core c).ctl.bfmt x.2 types k with
  | some code => .error (.hard code x.1)
  | none => .ok ()

/-- A box in a handle: its elements lie within the bounds, or 0x12 (R188). -/
def boxCheck (x : Nat × BitVec 512) (c ext : List Nat) : Except EntryStop Unit := if boxIn x.2 c ext then .ok () else .error (.hard 0x12 x.1)

/-- A box that leaves the dimensions of a handle of a type R187 knows: a block field error, checked before SRC, DST and AUX are (R408). -/
def shapeCheck (l : List ((Nat × BitVec 512) × List Nat × List Nat)) : Except EntryStop Unit :=
  match l.find? fun y => entType y.1.2 != 0 && decide (entType y.1.2 ≤ 6) && !boxShape y.1.2 y.2.1 y.2.2 with
  | some y => .error (.hard 0x15 y.1.1)
  | none => .ok ()

/-- Whether a format is a source of QUANT and a destination of DEQUANT (R409). -/
def isXFmt (f : Nat) : Bool := f == 7 || f == 8 || f == 9

/-- A 4-bit handle's start coordinate along dimension 0 and EXT0 are even, or 0x13 (R409). -/
def evenCheck (x : Nat × BitVec 512) (c0 e0 : Nat) : Except EntryStop Unit :=
  if ent4 x.2 ∧ (c0 % 2 ≠ 0 ∨ e0 % 2 ≠ 0) then .error (.hard 0x13 x.1) else .ok ()

/-- A test of a handle that raises a hard fault. -/
def failIf (p : Bool) (code h : Nat) : Except EntryStop Unit := if p then .error (.hard code h) else .ok ()

/-- Source and destination coordinates and extents of a block. -/
structure BlkBox where
  sc : List Nat
  dc : List Nat
  ext : List Nat

/-- See `BlkBox`. -/
def blkBox (b : List Byte) : BlkBox := { sc := blkSix b 0x10, dc := blkSix b 0x28, ext := blkSix b 0x40 }

/-- The entries of CPYF, checked (R408, R416). -/
def State.checkFill (s : State) (c : CoreIx) (b : List Byte) (d : Nat × BitVec 512) : Except EntryStop Unit := do
  let x := blkBox b
  shapeCheck [(d, x.dc, x.ext)]
  s.cpeHandle c d [1, 5, 6] .wr
  boxCheck d x.dc x.ext
  evenCheck d (x.dc.getD 0 0) (x.ext.getD 0 1)

/-- The entries of SORT, checked (R418). -/
def State.checkSort (s : State) (c : CoreIx) (q d : Nat × BitVec 512) : Except EntryStop Unit := do
  s.cpeHandle c q [2] .rd
  s.cpeHandle c d [3] .wr
  failIf (entCode q.2 != entCode d.2 || entBound q.2 0 != entBound d.2 0 || entBound q.2 1 != entBound d.2 1 || entCode q.2 == 0
    || decide (3 < entCode q.2)) 0x15 d.1

/-- The entries of PACK, checked (R419). -/
def State.checkPack (s : State) (c : CoreIx) (b : List Byte) (q d : Nat × BitVec 512) : Except EntryStop Unit := do
  let x := blkBox b
  shapeCheck [(q, x.sc, x.ext)]
  s.cpeHandle c q [1] .rd
  failIf (entNdim q.2 != 2) 0x15 q.1
  boxCheck q x.sc x.ext
  s.cpeHandle c d [4] .wr
  failIf (x.ext.getD 1 1 != entBound d.2 0 || decide (entBound d.2 1 < x.ext.getD 0 1)) 0x12 d.1
  evenCheck q (x.sc.getD 0 0) (x.ext.getD 0 1)

/-- The entries of a copy, checked: the box against the dimensions of every handle, then SRC, DST and AUX (R408, R409, R416). -/
def State.checkCopy (s : State) (c : CoreIx) (b : List Byte) (q d : Nat × BitVec 512) (a : Option (Nat × BitVec 512)) : Except EntryStop Unit := do
  let xf := blkXf b
  let x := blkBox b
  let types := if xf = 0 then [1, 5, 6] else [1]
  let dext := if xf = 3 then swap01 x.ext else x.ext
  let (qx, qb, qh) := if xf = 1 then (x.dc, entBlk d.2, d.1) else (x.sc, entBlk q.2, q.1)
  let ax := qx.getD 0 0 / qb :: qx.drop 1
  let aext := x.ext.getD 0 1 / qb :: x.ext.drop 1
  shapeCheck ([(q, x.sc, x.ext), (d, x.dc, dext)] ++ (a.map fun y => (y, ax, aext)).toList)
  s.cpeHandle c q types .rd
  failIf ((xf == 1 && !isXFmt (entFmt q.2)) || (xf == 2 && !isQFmt (entFmt q.2))) 0x15 q.1
  boxCheck q x.sc x.ext
  s.cpeHandle c d types .wr
  failIf ((xf == 0 && (entType q.2 == 6) != (entType d.2 == 6)) || (xf == 1 && !isQFmt (entFmt d.2)) || (xf == 2 && !isXFmt (entFmt d.2))
    || (xf == 3 && decide (entNdim d.2 < 2))) 0x15 d.1
  boxCheck d x.dc dext
  failIf ((xf == 1 || xf == 2) && (qx.getD 0 0 % qb != 0 || x.ext.getD 0 1 % qb != 0)) 0x12 qh
  evenCheck q (x.sc.getD 0 0) (x.ext.getD 0 1)
  evenCheck d (x.dc.getD 0 0) (x.ext.getD 0 1)
  match a with
  | none => .ok ()
  | some a =>
    s.cpeHandle c a [1] (if xf = 1 then .wr else .rd)
    failIf (entFmt a.2 != 15) 0x15 a.1
    boxCheck a ax aext

/-- The entries of a command, looked up and checked (R408, R409, R416, R418, R419). -/
def State.cpeCheck (s : State) (c : CoreIx) (op : Nat) (b : List Byte) : Except EntryStop (List (Nat × BitVec 512) × State) :=
  let xf := blkXf b
  let none_ : Nat × BitVec 512 := (0xFFFF, 0)
  let scaled := op != 0x33 && op != 0x36 && op != 0x37 && (xf == 1 || xf == 2)
  let hs := (if op = 0x33 then [] else [blkF b 15 0]) ++ [blkF b 31 16] ++ (if scaled then [blkF b 47 32] else [])
  match s.cpeEntries c hs with
  | .error x => .error x
  | .ok (l, s) =>
    let at_ (i : Nat) : Nat × BitVec 512 := l.getD i none_
    let (r, ents) : Except EntryStop Unit × List (Nat × BitVec 512) := match op with
      | 0x33 => (s.checkFill c b (at_ 0), [none_, at_ 0, none_])
      | 0x36 => (s.checkSort c (at_ 0) (at_ 1), [at_ 0, at_ 1, none_])
      | 0x37 => (s.checkPack c b (at_ 0) (at_ 1), [at_ 0, at_ 1, none_])
      | _ => (s.checkCopy c b (at_ 0) (at_ 1) (if scaled then some (at_ 2) else none), [at_ 0, at_ 1, if scaled then at_ 2 else none_])
    match r with
    | .error x => .error x
    | .ok () => .ok (ents, s)

/-! ## Geometry of a command -/

/-- Entry i of a command: 0 SRC, 1 DST, 2 AUX. -/
def Cmd.ent (x : Cmd) (i : Nat) : Nat × BitVec 512 := x.ents.getD i (0xFFFF, 0)

/-- Whether a command moves bytes because a format is RAW (R409). -/
def Cmd.rawBytes (x : Cmd) : Bool :=
  x.op != 0x33 && x.op != 0x36 && entType (x.ent 0).2 != 6 && (entFmt (x.ent 0).2 == 0 || entFmt (x.ent 1).2 == 0)

/-- The source side. -/
def Cmd.src (x : Cmd) : Side :=
  { h := (x.ent 0).1, e := (x.ent 0).2, sl := blkSsl x.in_.block, w := if x.rawBytes then 8 else entWidth (x.ent 0).2, raw := x.rawBytes }

/-- The destination side. -/
def Cmd.dst (x : Cmd) : Side :=
  { h := (x.ent 1).1, e := (x.ent 1).2, sl := blkDsl x.in_.block, w := if x.rawBytes then 8 else entWidth (x.ent 1).2, raw := x.rawBytes }

/-- The scale side. -/
def Cmd.aux (x : Cmd) : Side := { h := (x.ent 2).1, e := (x.ent 2).2, sl := false, w := 8 }

/-- The extents of the box. -/
def Cmd.ext (x : Cmd) : List Nat := blkSix x.in_.block 0x40

/-- Elements of the box. -/
def Cmd.total (x : Cmd) : Nat := x.ext.foldl (· * ·) 1

/-- Elements of a sector: 4,096 destination bytes (R410). -/
def Cmd.perSector (x : Cmd) : Nat := 32768 / x.dst.w

/-- Number of index groups of a SORT destination (R200). -/
def Cmd.groups (x : Cmd) : Nat := ceilDiv (entBound x.dst.e 1) 64

/-- NSECT of a command but PACK, whose output its read pass gives (R410). -/
def Cmd.sectors (x : Cmd) : Nat :=
  if x.op = 0x36 then entBound x.dst.e 0 else if x.op = 0x37 then 1 else ceilDiv x.total x.perSector

/-- The offsets of element k of the traversal, o0 fastest (R408). -/
def offsets : List Nat → Nat → List Nat
  | [], _ => []
  | e :: r, k => k % e :: offsets r (k / e)

/-- Source coordinates of element k. -/
def Cmd.srcAt (x : Cmd) (k : Nat) : List Nat := List.zipWith (· + ·) (blkSix x.in_.block 0x10) (offsets x.ext k)

/-- Destination coordinates of element k. -/
def Cmd.dstAt (x : Cmd) (k : Nat) : List Nat :=
  let o := offsets x.ext k
  List.zipWith (· + ·) (blkSix x.in_.block 0x28) (if blkXf x.in_.block = 3 ∧ x.op ≠ 0x33 then swap01 o else o)

/-- Linear index of a destination element (R227). -/
def linearIx (e : BitVec 512) (xs : List Nat) : Nat :=
  ((List.range (entNdim e)).foldl (fun (a : Nat × Nat) i => (a.1 + xs.getD i 0 * a.2, a.2 * entBound e i)) (0, 1)).1

/-- Scale block of QUANT or DEQUANT, 1 otherwise (R409). -/
def Cmd.blockLen (x : Cmd) : Nat := match blkXf x.in_.block with
  | 1 => entBlk x.dst.e | 2 => entBlk x.src.e | _ => 1

/-- Scale coordinates of the block that element k starts (R409). -/
def Cmd.scaleAt (x : Cmd) (k : Nat) : List Nat :=
  let xs := if blkXf x.in_.block = 1 then x.dstAt k else x.srcAt k
  xs.getD 0 0 / x.blockLen :: xs.drop 1

/-- Whether the command scales: QUANT or DEQUANT. -/
def Cmd.scaled (x : Cmd) : Bool := (x.op == 0x32 || x.op == 0x34) && (blkXf x.in_.block == 1 || blkXf x.in_.block == 2)

/-- Whether an element is copied unchanged (R409). -/
def Cmd.same (x : Cmd) : Bool := !x.scaled && (x.rawBytes || entType x.src.e == 6 || entFmt x.src.e == entFmt x.dst.e)

/-- Elements of sector q of a command with a box. -/
def Cmd.elems (x : Cmd) (q : Nat) : List Nat :=
  (List.range (min x.perSector (x.total - q * x.perSector))).map fun i => q * x.perSector + i

/-! ## Accesses -/

/-- Bytes a command reads or writes: a side's handle, whether in the slice, the address and their number. -/
structure Acc where
  h : Nat
  sl : Bool
  a : Nat
  n : Nat
  deriving DecidableEq, Repr

/-- Joins an access to the one before it when it follows it within an aligned 512-byte block (R58). -/
def joinAcc (l : List Acc) (x : Acc) : List Acc :=
  match l with
  | y :: r => if y.h = x.h ∧ y.sl = x.sl ∧ y.a + y.n = x.a ∧ x.a % 512 ≠ 0 ∧ x.a / 512 = (x.a + x.n - 1) / 512 then { y with n := y.n + x.n } :: r else x :: l
  | [] => [x]

/-- Cuts an access at aligned 512-byte boundaries (R58). -/
def cutAcc (x : Acc) : List Acc :=
  if x.n = 0 then []
  else (List.range ((x.a + x.n - 1) / 512 - x.a / 512 + 1)).map fun i =>
    let lo := max x.a ((x.a / 512 + i) * 512)
    { x with a := lo, n := min (x.a + x.n) ((x.a / 512 + i + 1) * 512) - lo }

/-- The transfers that a list of accesses makes, in order. -/
def transfers (l : List Acc) : List Acc := ((l.map cutAcc).flatten.foldl joinAcc []).reverse

/-- An access of a side. -/
def Side.acc (x : Side) (xs : List Nat) : Acc := { h := x.h, sl := x.sl, a := x.addr xs, n := x.bytes }

/-- The source elements read for a list of elements: a 4-bit pair shares its byte. -/
def Cmd.srcReads (x : Cmd) (ks : List Nat) : List Acc :=
  let ks := if x.src.w = 4 then ks.filter fun k => k % 2 == 0 else ks
  ks.map fun k => x.src.acc (x.srcAt k)

/-- The scale elements read or written for a list of elements: one for each block they hold. -/
def Cmd.scales (x : Cmd) (ks : List Nat) : List Acc :=
  if x.scaled then (ks.filter fun k => k % x.blockLen == 0).map fun k => x.aux.acc (x.scaleAt k) else []

/-- Whether a destination byte is read before a 4-bit element is put into it, its pair lying elsewhere in the box (XF 3). -/
def Cmd.halves (x : Cmd) : Bool := x.dst.w == 4 && x.op != 0x33 && blkXf x.in_.block == 3

/-- The three groups of reads of sector q: source, scales, destination bytes (R409, R410, R203, R419). -/
def Cmd.reads (x : Cmd) (q : Nat) : List (List Acc) :=
  match x.op with
  | 0x33 => [[], [], []]
  | 0x36 =>
    let n := if entCode x.src.e = 3 then 12 else 8
    [(List.range (entBound x.src.e 1)).map fun t => { h := x.src.h, sl := x.src.sl, a := elemAddr x.src.e [q, t], n := n }, [], []]
  | 0x37 => [if x.packed.isNone then x.srcReads (List.range x.total) else [], [], []]
  | _ =>
    let ks := x.elems q
    [x.srcReads ks, if blkXf x.in_.block = 2 then x.scales ks else [], if x.halves then ks.map fun k => x.dst.acc (x.dstAt k) else []]

/-- Where an access of a command goes. -/
inductive Loc where
  | key (k : Nat)
  | host (addr : Nat)
  | peer
  deriving DecidableEq, Repr

/-- What stops a sector at an attempt: a refusal, a memory fault, a hard fault of an access, a deviation. -/
inductive SecStop where
  | refuse (hint : Nat) (promote : Option (Nat × Bool))
  | fault (code ia entry level : Nat) (wr : Bool) (h : Nat)
  | hard (code ia h : Nat)
  | deviation (ia h : Nat)
  deriving DecidableEq, Repr

/-- Locates an access: the own slice, the own scratchpad, a pinned page in a fixed leg; anything its partition reaches in
a free one (R94, R103, R412). -/
def State.locate (s : State) (c : CoreIx) (p : PartIx) (wr : Bool) (x : Acc) : Except SecStop Loc :=
  let k : Right := if wr then .write else .read
  if x.sl then (if s.sliceOk c x.a ∧ s.sliceOk c (x.a + x.n - 1) then .ok (.key (sliceKey c.val x.a)) else .error (.hard 0x12 0 x.h))
  else if isOwnSpad c x.a then .ok (.key (spadKey c.val (x.a % 2 ^ 23)))
  else if s.fixedLeg c ∧ (x.a / 2 ^ 52 ≠ 0 ∨ (s.pinOf p x.a).isNone) then .error (.deviation x.a x.h)
  else match s.issuerCheck (some p) x.a with
    | some code => .error (.fault code x.a 0 0 wr x.h)
    | none => match x.a / 2 ^ 52 with
      | 3 => .ok (.key (spadKey (fld x.a 31 23) (x.a % 2 ^ 23)))
      | 2 => .ok .peer
      | _ => match s.walk p x.a k with
        | .mem key => .ok (.key key)
        | .host addr => .ok (.host addr)
        | .refuse h pr => .error (.refuse h pr)
        | .fault code e l => .error (.fault code x.a e l wr x.h)

/-- An access whose location is known, but for a read that meets a doubleword of the LPDDR6 tier that can no longer be read (R119). -/
def State.located (s : State) (wr : Bool) (x : Acc) : Loc → Except SecStop Loc
  | .key k => if !wr && s.lostAt k x.n then .error (.fault 0x74 x.a 0 0 wr x.h) else .ok (.key k)
  | l => .ok l

/-- Locates a list of accesses, in order. -/
def State.locateAll (s : State) (c : CoreIx) (p : PartIx) (wr : Bool) : List Acc → Except SecStop (List (Acc × Loc))
  | [] => .ok []
  | x :: r => match (s.locate c p wr x).bind (s.located wr x) with
    | .error e => .error e
    | .ok l => match s.locateAll c p wr r with
      | .error e => .error e
      | .ok ls => .ok ((x, l) :: ls)

/-- The faults that the accesses of a list meet: code and 64 KiB granule of each (R411). -/
def State.faultsOf (s : State) (c : CoreIx) (p : PartIx) (wr : Bool) (l : List Acc) : List (Nat × Nat) :=
  l.filterMap fun x => match (s.locate c p wr x).bind (s.located wr x) with
    | .error (.fault code ia _ _ _ _) => some (code, ia / 65536)
    | _ => none

/-! ## Outputs -/

/-- Bytes a sector writes: to the destination or, with `scale`, to the scale handle. -/
structure Out where
  acc : Acc
  bytes : List Byte
  scale : Bool := false
  deriving DecidableEq, Repr

/-- Codes of a list of source bytes: two of a byte for a 4-bit side. -/
def Side.codes (x : Side) (bs : List Byte) : List Nat :=
  if x.w = 4 then (bs.map fun b => [b.toNat % 16, b.toNat / 16]).flatten
  else (List.range (bs.length / x.bytes)).map fun i => ofBytes ((bs.drop (i * x.bytes)).take x.bytes)

/-- Pairs of codes as bytes, the first in the low half. -/
def nibbles : List Nat → List Byte
  | [] => []
  | [x] => [BitVec.ofNat 8 (x % 16)]
  | x :: y :: r => BitVec.ofNat 8 (x % 16 + 16 * (y % 16)) :: nibbles r

/-- A list cut into lists of n. -/
def chunksOf (n : Nat) : Nat → List Nat → List (List Nat)
  | 0, _ => []
  | f + 1, l => if l.isEmpty then [] else l.take n :: chunksOf n f (l.drop n)

/-- The draw of element k of a command (R227). -/
def Cmd.draw (x : Cmd) (k : Nat) : Nat := drawOf x.dst.h (linearIx x.dst.e (x.dstAt k)) x.leg

/-- The destination codes of the elements of a sector, the scales of its blocks, and the events (R409). -/
def Cmd.transform (x : Cmd) (ks codes : List Nat) (scales : List Byte) : List Nat × List Nat × List Nat :=
  let b := x.in_.block
  let fs := entFmt x.src.e
  let fd := entFmt x.dst.e
  let rm := blkRm b
  if x.same then (codes, [], noStats)
  else match blkXf b with
    | 1 =>
      let n := x.blockLen
      (List.zip (chunksOf n ks.length ks) (chunksOf n ks.length codes)).foldl (fun (a : List Nat × List Nat × List Nat) y =>
        let r := quantise fd rm (y.2.map (value fs)) (y.1.map x.draw)
        (a.1 ++ r.codes, a.2.1 ++ [r.scale], addStats a.2.2 r.stats)) ([], [], noStats)
    | 2 =>
      let n := x.blockLen
      let rs := List.zipWith (fun (p : Nat × Nat) i => dequant fs fd rm (x.draw p.1) p.2 ((scales.getD (i / n) 0).toNat))
        (List.zip ks codes) (List.range ks.length)
      (rs.map (·.code), [], rs.foldl (fun a r => addStats a r.stats) noStats)
    | _ =>
      let rs := List.zipWith (fun k v => convert fs fd rm (x.draw k) v) ks codes
      (rs.map (·.code), [], rs.foldl (fun a r => addStats a r.stats) noStats)

/-- The writes of a list of destination codes (R188, R409). With `halves`, `old` holds the bytes each element goes into. -/
def Cmd.put (x : Cmd) (ks codes : List Nat) (old : List Byte) : List Out :=
  if x.halves then
    let step (a : List (Nat × Nat)) (p : (Nat × Nat) × Byte) : List (Nat × Nat) :=
      let xs := x.dstAt p.1.1
      let ad := x.dst.addr xs
      let cur := (tget a ad).getD p.2.toNat
      tput a ad (setFld cur (4 * (xs.getD 0 0 % 2)) 4 p.1.2)
    ((List.zip (List.zip ks codes) old).foldl step []).map fun y =>
      { acc := { h := x.dst.h, sl := x.dst.sl, a := y.1, n := 1 }, bytes := [BitVec.ofNat 8 y.2] }
  else if x.dst.w = 4 then
    List.zipWith (fun k (b : Byte) => { acc := x.dst.acc (x.dstAt k), bytes := [b] }) (ks.filter fun k => k % 2 == 0) (nibbles codes)
  else List.zipWith (fun k v => { acc := x.dst.acc (x.dstAt k), bytes := toBytes x.dst.bytes v }) ks codes

/-- Width of a code of a kind (R197). -/
def codeWidth (kind : Nat) : Nat := if kind = 3 then 3 else 2

/-- The steer record of one column from its plane word, and the reserved codes it leaves out (R201, R203). -/
def steerRecord (kind word : Nat) : List Byte × Nat :=
  let ks := codesOf kind
  let w := codeWidth kind
  let at_ (k : Nat) : List Nat := (List.range 32).filter fun p => word / 2 ^ (w * p) % 2 ^ w == k
  let lists := ks.map at_
  let hb := match kind with
    | 1 => 2 | 2 => 3 | _ => 6
  let head := (lists.mapIdx fun i l => l.length * 2 ^ (6 * i)).foldl (· + ·) 0
  let ps := lists.flatten
  let body := (ps.mapIdx fun i p => p * 2 ^ (5 * i)).foldl (· + ·) 0
  (toBytes hb head ++ toBytes (ceilDiv (5 * ps.length) 8) body, if kind = 1 then (at_ 2).length else 0)

/-- A segment block in the making: its bytes, the index entries, the reserved codes. -/
structure SortAcc where
  blk : List Byte
  ents : List Nat := []
  reserved : Nat := 0

/-- The bytes padded with zeros to a length. -/
def padTo (n : Nat) (l : List Byte) : List Byte := l ++ List.replicate (n - l.length) 0

/-- The bytes of segment block q of SORT that index-table bytes take: from the first of them to after the last, relative to the block; both
0 when none lies there (R203). -/
def Cmd.indexIn (x : Cmd) (q : Nat) : Nat × Nat :=
  let e := x.dst.e
  let tab : Int := tilePtr0 e
  let lo : Int := q * entStr e 0
  let a := max tab lo
  let b := min (tab + 2 * entBound e 0 * x.groups) (lo + tileStr0 e)
  if a < b then ((a - lo).toNat, (b - lo).toNat) else (0, 0)

/-- What SORT writes for segment q: its index entries, and the segment block without the index-table bytes that lie in it (R203). -/
def Cmd.sortWrites (x : Cmd) (q : Nat) : List Acc :=
  let e := x.dst.e
  let base := lowInt ((entBase e : Int) + q * entStr e 0) 56
  let acc (ad n : Nat) : Acc := { h := x.dst.h, sl := x.dst.sl, a := ad, n := n }
  let (a, b) := x.indexIn q
  acc (lowInt ((entBase e : Int) + tilePtr0 e + 2 * (q * x.groups : Nat)) 56) (2 * x.groups)
    :: [acc base a, acc (base + b) (tileStr0 e - b)].filter fun y => y.n != 0

/-- Segment block q of SORT: its writes with the reserved codes, or none when it does not fit (R203). -/
def Cmd.sortOut (x : Cmd) (q : Nat) (words : List Nat) : Option (List Out × Nat) :=
  let e := x.dst.e
  let kind := entCode e
  let str0 := tileStr0 e
  let gs := x.groups
  let cols := entBound e 1
  let (a, u) := x.indexIn q
  let r := (List.range gs).foldl (fun (r : SortAcc) g =>
    let off := roundUp r.blk.length 8
    let r := { r with blk := padTo off r.blk, ents := r.ents ++ [off / 8] }
    (List.range (min 64 (cols - 64 * g))).foldl (fun (r : SortAcc) i =>
      let (bs, res) := steerRecord kind (words.getD (64 * g + i) 0)
      { r with blk := r.blk ++ bs, reserved := r.reserved + res }) r) { blk := List.replicate (roundUp u 8) 0 }
  let off := r.blk.length
  if str0 < off ∨ 65535 < off / 8 then none
  else
    let blk := padTo str0 r.blk
    let ixs := (r.ents.map fun v => toBytes 2 v).flatten
    some (List.zipWith (fun y bs => { acc := y, bytes := bs }) (x.sortWrites q)
      (ixs :: [blk.take a, blk.drop u].filter fun y => !y.isEmpty), r.reserved)

/-- Whether a source code counts as non-zero for PACK (R419). -/
def Cmd.nonZero (x : Cmd) (v : Nat) : Bool :=
  if x.rawBytes ∨ entFmt x.src.e = 0 then v != 0 else if entFmt x.src.e = 15 then true else !(value (entFmt x.src.e) v).isZero

/-- What PACK's read pass gives: values, indices and row pointers as one output, the number of values, the events; or the
fault 0x12 (R419). -/
def Cmd.packOut (x : Cmd) (codes : List Nat) : Option (List Byte × Nat × List Nat) :=
  let cols := x.ext.getD 0 1
  let rows := x.ext.getD 1 1
  let z := (List.zip (List.range codes.length) codes).filter fun p => x.nonZero p.2
  let n := z.length
  let len0 := tileLen0 x.dst.e
  let len1 := (entStr x.dst.e 5 % 2 ^ 32).toNat
  if len1 < 4 * n ∨ len0 < 4 * (rows + 1) then none
  else
    let rs : List Rounded := z.mapIdx fun i p =>
      if x.rawBytes ∨ entFmt x.src.e = entFmt x.dst.e then { code := p.2 }
      else convert (entFmt x.src.e) (entFmt x.dst.e) (blkRm x.in_.block) (drawOf x.dst.h i x.leg) p.2
    let vals := if x.dst.w = 4 then nibbles (rs.map (·.code)) else (rs.map fun r => toBytes x.dst.bytes r.code).flatten
    let ixs := (z.map fun p => toBytes 4 (p.1 % cols)).flatten
    let ptr := ((List.range (rows + 1)).map fun r => toBytes 4 (z.filter fun p => decide (p.1 / cols < r)).length).flatten
    some (vals ++ ixs ++ ptr, n, rs.foldl (fun a r => addStats a r.stats) noStats)

/-- The writes of piece q of PACK's output: each byte goes into its array (R187, R419). -/
def Cmd.packPiece (x : Cmd) (out : List Byte) (q : Nat) : List Out :=
  let e := x.dst.e
  let rows := x.ext.getD 1 1
  let np := 4 * (rows + 1)
  let n := if x.dst.w = 4 then ((out.length - np) * 2) / 9 else (out.length - np) / (x.dst.bytes + 4)
  let nv := out.length - np - 4 * n
  let lo := 4096 * q
  let hi := min out.length (lo + 4096)
  let part (from_ to_ base : Nat) : List Out :=
    let a := max lo from_
    let b := min hi to_
    if a < b then [{ acc := { h := x.dst.h, sl := x.dst.sl, a := lowInt ((entBase e : Int) + base + (a - from_ : Nat)) 56, n := b - a }, bytes := (out.drop a).take (b - a) }]
    else []
  part 0 nv 0 ++ part nv (nv + 4 * n) (entBound e 5) ++ part (nv + 4 * n) out.length (entBound e 4)

/-! ## Sectors (R410 to R412) -/

/-- Whether a sector was written by an earlier run (R417). -/
def Cmd.old (x : Cmd) (q : Nat) : Bool := decide (q < x.base) || x.pre.contains q

/-- The lowest sector from q on that is to be run, at most n looked at. -/
def Cmd.from_ (x : Cmd) : Nat → Nat → Option Nat
  | 0, _ => none
  | n + 1, q => if x.stop ≤ q then none else if x.old q then x.from_ n (q + 1) else some q

/-- The next sector of a command to start. PACK's commit is not made after a fault (R419). -/
def Cmd.nextSector (x : Cmd) : Option Nat :=
  match x.from_ 300 x.next with
  | none => none
  | some q => if x.op = 0x37 ∧ ¬ x.faulted.isEmpty ∧ q + 1 = x.nsect then none else some q

/-- Whether a sector must wait for the earlier ones of its command: a multiple of 256 (R410), PACK's read pass and commit. -/
def Cmd.alone (x : Cmd) (q : Nat) : Bool := q % 256 == 0 || (x.op == 0x37 && (x.packed.isNone || q + 1 == x.nsect))

/-- Whether a handle's BASE lies in the own scratchpad or slice (R412). -/
def Side.near (x : Side) (c : CoreIx) : Bool := x.sl || isOwnSpad c (entBase x.e)

/-- X of a command (R412). -/
def Cmd.reach (x : Cmd) (c : CoreIx) : Nat :=
  if (x.op == 0x33 || x.src.near c) && x.dst.near c && (!x.scaled || x.aux.near c) then 24 else 192

/-- The accesses a sector writes, where they are known before its data (R412). -/
def Cmd.writesAt (x : Cmd) (q : Nat) : List Acc :=
  match x.op with
  | 0x36 => x.sortWrites q
  | 0x37 => match x.packed with
    | some out => (x.packPiece out q).map (·.acc)
    | none => []
  | _ =>
    let ks := x.elems q
    ks.map (fun k => x.dst.acc (x.dstAt k)) ++ (if blkXf x.in_.block = 1 then x.scales ks else [])

/-- T of a sector (R412). -/
def Cmd.beats (x : Cmd) (q : Nat) : Nat :=
  let sum (l : List Acc) : Nat := l.foldl (fun a y => a + y.n) 0
  max 1 (ceilDiv (max (sum (x.reads q).flatten) (sum (x.writesAt q))) 128)

/-- The holds of accesses of the CPE from t to w: lane 1 of both directions between stop 19 and each scratchpad bank they touch, and
the ports of those banks (R412). -/
def cpeHolds (c : CoreIx) (l : List Acc) (t w : Nat) : List Claim :=
  let accs := (transfers l).filter fun y => !y.sl && isOwnSpad c y.a
  let banks := (accs.map fun y => bankOf y.a).eraseDups
  (banks.map fun j =>
    let st := bankStop j
    let seg (lane : Nat) : List Claim := (laneClaims lane 19 0 1 (laneDist lane 19 st)).map fun y => { y with lo := t, hi := w, cpe := true }
    seg 1 ++ seg 9 ++ [{ res := 320 + j, lo := t, hi := w, cpe := true }, { res := 336 + j, lo := t, hi := w, cpe := true }]).flatten

/-- The holds of a sector from t to w (R412). -/
def Cmd.holds (x : Cmd) (c : CoreIx) (q t w : Nat) : List Claim := cpeHolds c ((x.reads q).flatten ++ x.writesAt q) t w

/-- A core with its copy engine changed. -/
def State.updCpe (s : State) (c : CoreIx) (f : Cpe → Cpe) : State := s.upd c fun k => { k with cpe := f k.cpe }

/-- A core with one command changed. -/
def State.updCmd (s : State) (c : CoreIx) (id : Nat) (f : Cmd → Cmd) : State :=
  s.updCpe c fun k => { k with cmds := k.cmds.map fun x => if x.cmdid = id then f x else x }

/-- The command with an identity. -/
def State.cmd (s : State) (c : CoreIx) (id : Nat) : Option Cmd := (s.core c).cpe.cmds.find? fun x => x.cmdid == id

/-- The command whose sectors start next: the first in issue order with a sector left, with a fault whose last set is not fixed, or with
PACK's read pass in progress, which gives its sectors (R410, R411). -/
def Cpe.head (k : Cpe) : Option Cmd := k.cmds.find? fun x => x.hold || x.nextSector.isSome || (x.op == 0x37 && x.packed.isNone && !x.active.isEmpty)

/-- Whether a command issued before another has yet to enter: its sectors start first (R410). -/
def State.entersBefore (s : State) (c : CoreIx) (num : Nat) : Bool := s.reqs.any fun r => r.core == c && (match r.dest with
  | .cmd y => decide (y.num < num)
  | _ => false)

/-- A command put among the others in issue order. -/
def insertCmd (y : Cmd) : List Cmd → List Cmd
  | [] => [y]
  | x :: r => if y.in_.num < x.in_.num then y :: x :: r else x :: insertCmd y r

/-- Schedules the next attempt to start a sector (R410, R412). -/
def State.cpePump (s : State) (c : CoreIx) : State :=
  let k := (s.core c).cpe
  match k.poll, k.head with
  | none, some x =>
    if x.hold then s
    else
      let full := if k.hist.length < 64 then 0 else k.hist.headD 0 + 1
      let t := max (max s.chron k.free) full
      (s.updCpe c fun k => { k with poll := some t }).schedC t c .sectorStart
  | _, _ => s

/-- Sectors of a core that have started and not ended. -/
def Cpe.inFlight (k : Cpe) : Nat := k.cmds.foldl (fun a x => a + x.active.length) 0

/-- A hard fault of the CPE. -/
def State.cpeFault (s : State) (c : CoreIx) (code ia h : Nat) : State := s.coreFault c 4 code (-1) ia h

/-- The next attempt to start a sector falls in the next cycle. -/
def State.cpeAgain (s : State) (c : CoreIx) : State :=
  (s.updCpe c fun k => { k with poll := some (s.chron + 1) }).schedC (s.chron + 1) c .sectorStart

/-- Whether the CPE of a core may start anything: no halt, pre-emption or cut has reached it (R149, R160, R161). -/
def State.cpeMay (s : State) (c : CoreIx) : Bool :=
  match s.partOf c with
  | none => false
  | some p =>
    (s.part p).runSlot.isSome && !(s.part p).switching && !(s.core c).killed && before s.chron (s.haltFrom c .cpe) && !s.preStopped c

/-- SECTOR_START: the take of the command at its first sector, the holds, and the sector's completion cycle (R410, R412). -/
def execSectorStart (s : State) : Outcome State Fault Refusal :=
  let c := s.cur
  let k := s.me.cpe
  .next (if k.poll ≠ some s.chron then s
  else if s.preStopped c then s.stash c .sectorStart
  else
    let s := s.updCpe c fun k => { k with poll := none }
    match k.head with
    | none => s
    | some x => match x.nextSector with
      | none => s
      | some q =>
        let fixed := s.fixedLeg c
        let later (s : State) : State := if fixed then s.cpeFault c 0x41 0 x.dst.h else s.cpeAgain c
        if ¬ s.cpeMay c ∨ x.hold then s
        else if x.alone q ∧ ¬ x.active.isEmpty then s
        else if 64 ≤ k.inFlight then s
        else if s.chron < k.free then s.cpePump c
        else if s.entersBefore c x.in_.num then s.cpeAgain c
        else if x.in_.acq ∧ x.in_.deps.any s.unperformed then later s
        else
          let tk := blkTake x.in_.block && !x.taken
          if tk && (!(s.core c).ctl.hasTok 4 x.in_.from_ || (fixed && decide (8 ≤ x.in_.from_))) then later s
          else
            let (ix, s1) := s.draw
            let t := x.beats q
            let w := s.chron + t + x.reach c - 1 + (if fixed then 0 else Config.walkLatency ix)
            let cs := x.holds c q s.chron w
            if ¬ (s.core c).pipe.free cs then later s
            else
              let s := if fixed then s else s1
              let s := if tk then s.take c 4 x.in_.from_ else s
              let s := (s.claim c cs).updCmd c x.cmdid fun x => { x with taken := true, next := q + 1, active := x.active ++ [(q, w)] }
              let s := s.updCpe c fun k => { k with free := s.chron + t, hist := (k.hist ++ [w]).drop (k.hist.length - 63) }
              (s.schedC w c (.sectorDone c (BitVec.ofNat 16 x.cmdid) q)).cpePump c)

/-- Schedules the completion of a command none of whose sectors is left (R410). -/
def State.cmdEnd (s : State) (c : CoreIx) (id : Nat) : State :=
  match s.cmd c id with
  | none => s
  | some x => if x.active.isEmpty ∧ ¬ x.hold ∧ x.nextSector.isNone then s.schedC s.chron c (.commandComplete c (BitVec.ofNat 16 id)) else s

/-- A sector has ended: written with its bytes, or faulted. The first fault of a command stops its starts until every
started sector has ended, and then fixes the sectors still to attempt (R411). -/
def State.sectorEnd (s : State) (c : CoreIx) (id q : Nat) (bytes : Nat) (f : Option SecFault) : State :=
  let s := s.updCmd c id fun x =>
    let x : Cmd := { x with active := x.active.filter fun y => y.1 != q }
    let x : Cmd := match f with
      | none => { x with written := x.written ++ [q], bytes := x.bytes + bytes }
      | some f => { x with faulted := x.faulted ++ [f], hold := !x.fixed }
    if x.hold ∧ x.active.isEmpty then
      let m := x.faulted.foldl (fun a y => min a y.q) (x.faulted.headD { q := 0, code := 0, ia := 0 }).q
      { x with hold := false, fixed := true, stop := min x.stop (min (m + 63) (256 * (m / 256) + 255) + 1) }
    else x
  let s := s.updCpe c fun k => { k with look := s.chron, lookStep := 0 }
  (s.cmdEnd c id).cpePump c

/-- What a sector that cannot go on does: waits, faults as a sector, or halts the partition (R105, R411). -/
def State.sectorStop (s : State) (c : CoreIx) (p : PartIx) (id q : Nat) (e : SecStop) (also : List (Nat × Nat) := []) : State :=
  match e with
  | .refuse h pr =>
    if s.fixedLeg c then s.cpeFault c 0x41 0 0xFFFF
    else (s.promote p pr).schedC (s.chron + 64 * h) c (.sectorDone c (BitVec.ofNat 16 id) q)
  | .deviation ia h => s.cpeFault c 0x41 ia h
  | .hard code ia h => s.cpeFault c code ia h
  | .fault code ia en lv wr h =>
    if code = 0x74 then s.partFault p 0x74
    else if s.fixedLeg c then s.cpeFault c 0x41 ia h
    else s.sectorEnd c id q 0 (some { q := q, code := code, ia := ia, entry := en, level := lv, wr := wr, handle := h, also := also })

/-- The requests of a sector on the ports (R104). -/
def State.sectorReqs (s : State) (c : CoreIx) (id q : Nat) : List Req :=
  s.reqs.filter fun r => r.core == c && (match r.dest with
    | .sector i j _ => i == id && j == q
    | _ => false)

/-- Sends the reads of a sector that leave the module. -/
def State.sectorAsk (s : State) (c : CoreIx) (p : PartIx) (id q : Nat) (ls : List (Acc × Loc)) : State :=
  (List.zip (List.range ls.length) ls).foldl (fun s y =>
    let r : Req :=
      { id := 0, who := 4, core := c, part := some p, kind := .read, ia := y.2.1.a, n := y.2.1.n, dest := .sector id q y.1,
        handle := y.2.1.h, cmdid := id, pc := -1, issued := s.chron }
    match y.2.2 with
    | .key _ => s
    | .host addr =>
      let (i, s) := s.addReq r
      s.sendHost { r with id := i } p addr
    | .peer =>
      let (i, s) := s.addReq r
      s.sendPeer { r with id := i } p) s

/-- The bytes a list of located transfers reads: from memory, or as the ports returned them. -/
def State.sectorData (s : State) (rs : List Req) (ls : List (Acc × Loc)) : List Byte :=
  ((List.zip (List.range ls.length) ls).map fun y => match y.2.2 with
    | .key k => readBytes s.memory k y.2.1.n
    | _ => ((rs.find? fun r => match r.dest with
        | .sector _ _ ix => ix == y.1
        | _ => false).map (·.result)).getD []).flatten

/-- The transfers through the windows of other cores, one beat a cycle from a cycle on, with what each drives on the ring of the core it
names, as that core's own sequencer would (R94, R176; log 69). -/
def windowClaims (c : CoreIx) (wr : Bool) (t : Nat) (ls : List (Acc × Loc)) : List (CoreIx × List Claim) :=
  let far := ls.filter fun y => !y.1.sl && y.1.a / 2 ^ 52 == 3 && !isOwnSpad c y.1.a
  let beats := far.flatMap fun y => List.replicate (ceilDiv y.1.n 128) y.1.a
  beats.mapIdx fun i a => (Fin.ofNat 288 (fld a 31 23), ownClaims (if wr then .write [] else .read) (bankOf (a % 2 ^ 23)) (t + i))

/-- Drives the rings of other cores for the accesses of a sector; none while one in a free leg is not free. In a fixed leg of that core what
is driven twice deviates there (R176; log 69). -/
def State.windows (s : State) (l : List (CoreIx × List Claim)) : Option State :=
  if l.any fun y => !s.fixedLeg y.1 && !(s.core y.1).pipe.free y.2 then none
  else some (l.foldl (fun s y => (if s.fixedLeg y.1 then s.clash y.1 .seq (.sectorStart) (-1) y.2 else s).claim y.1 y.2) s)

/-- Posts a write of the CPE on a port. -/
def State.cpePost (s : State) (c : CoreIx) (p : PartIx) (id : Nat) (x : Acc) (l : Loc) (bs : List Byte) : State :=
  let r : Req :=
    { id := 0, who := 4, core := c, part := some p, kind := .write bs, ia := x.a, n := x.n, dest := .none_, handle := x.h, cmdid := id,
      pc := -1, issued := s.chron }
  match l with
  | .key k => { s with memory := writeBytes s.memory k bs }
  | .host addr =>
    let (i, s) := s.addReq r
    s.sendHost { r with id := i } p addr
  | .peer =>
    let (i, s) := s.addReq r
    s.sendPeer { r with id := i } p

/-- Performs the writes of a sector, all of them or, when one faults or is refused, none (R411). -/
def State.sectorWrite (s : State) (c : CoreIx) (p : PartIx) (x : Cmd) (q : Nat) (outs : List Out) (st : List Nat) : State :=
  let pieces := (outs.map fun o => (cutAcc o.acc).map fun a => (a, (o.bytes.drop (a.a - o.acc.a)).take a.n)).flatten
  match s.locateAll c p true (pieces.map (·.1)) with
  | .error e => s.sectorStop c p x.cmdid q e (s.faultsOf c p true (pieces.map (·.1)))
  | .ok ls => match s.windows (windowClaims c true s.chron ls) with
  | none => s.schedC (s.chron + 1) c (.sectorDone c (BitVec.ofNat 16 x.cmdid) q)
  | some s =>
    let s := (List.zip ls pieces).foldl (fun s y => s.cpePost c p x.cmdid y.1.1 y.1.2 y.2.2) s
    let n := outs.foldl (fun a o => if o.scale then a else a + o.bytes.length) 0
    let s := { s with reqs := s.reqs.filter fun r => !(s.sectorReqs c x.cmdid q).contains r }
    (s.countStats c st).sectorEnd c x.cmdid q n none

/-- Writes the destination entry of PACK with PEND set or clear, in the table and every cache (R191, R190). -/
def State.packPend (s : State) (p : PartIx) (x : Cmd) (pend : Bool) : State × Option Walk :=
  s.tableWrite p x.dst.h (toBytes 64 (setFld x.dst.e.toNat 17 1 (ofBool pend)))

/-- A walk that did not reach memory, as what stops a sector. -/
def walkStop (ia h : Nat) : Walk → SecStop
  | .refuse n pr => .refuse n pr
  | .fault code e l => .fault code ia e l true h
  | _ => .fault 0x31 ia 0 0 true h

/-- A sector whose reads have been made: its output, written (R203, R409, R416, R419). -/
def State.sectorRun (s : State) (c : CoreIx) (p : PartIx) (x : Cmd) (q : Nat) (groups : List (List Byte)) : State :=
  let src := groups.getD 0 []
  let b := x.in_.block
  match x.op with
  | 0x33 =>
    let ks := x.elems q
    let v := blkW b 0x58 8
    let code := if x.dst.w = 1024 then ofBytes (List.replicate 16 (toBytes 8 v)).flatten else v % 2 ^ x.dst.w
    s.sectorWrite c p x q (x.put ks (ks.map fun _ => code) []) noStats
  | 0x36 =>
    let n := if entCode x.src.e = 3 then 12 else 8
    let words := (List.range (src.length / n)).map fun i => ofBytes ((src.drop (i * n)).take n)
    match x.sortOut q words with
    | none => s.sectorStop c p x.cmdid q (.fault 0x12 (lowInt ((entBase x.dst.e : Int) + q * entStr x.dst.e 0) 56) 0 0 true x.dst.h)
    | some (outs, res) => s.sectorWrite c p x q outs [0, 0, 0, res, 0, 0]
  | 0x37 =>
    match x.packed with
    | none => match x.packOut (x.src.codes src) with
      | none => s.cpeFault c 0x12 0 x.dst.h
      | some (out, _, st) => match s.packPend p x true with
        | (s, some w) => s.sectorStop c p x.cmdid q (walkStop (64 * x.dst.h) x.dst.h w)
        | (s, none) =>
          let n := ceilDiv out.length 4096 + 1
          let s := s.updCmd c x.cmdid fun x => { x with packed := some out, stats := st, nsect := n, stop := n }
          s.sectorWrite c p { x with packed := some out, nsect := n, stop := n } q (x.packPiece out q) st
    | some out =>
      if q + 1 = x.nsect then match s.packPend p x false with
        | (s, some w) => s.sectorStop c p x.cmdid q (walkStop (64 * x.dst.h) x.dst.h w)
        | (s, none) => s.sectorEnd c x.cmdid q 0 none
      else s.sectorWrite c p x q (x.packPiece out q) (if q = 0 then x.stats else noStats)
  | _ =>
    let ks := x.elems q
    let (codes, scs, st) := x.transform ks (x.src.codes src) (groups.getD 1 [])
    let souts := List.zipWith (fun a v => { acc := a, bytes := toBytes 1 v, scale := true }) (x.scales ks) scs
    s.sectorWrite c p x q (x.put ks codes (groups.getD 2 []) ++ souts) st

/-- SECTOR_DONE: a sector's reads and writes are performed, or it waits for refused or remote ones, or it faults (R410,
R411; log 6). A sector not over when the halt line has come is abandoned (R149). -/
def execSectorDone (core : CoreIx) (cmd : BitVec 16) (sector : Nat) (s : State) : Outcome State Fault Refusal :=
  .next (match s.cmd core cmd.toNat, s.partOf core with
  | some x, some p =>
    let halted : Bool := match s.haltFrom core .cpe with
      | some t => decide (t ≤ s.chron)
      | none => false
    if ¬ (x.active.any fun y => y.1 == sector && decide (y.2 ≤ s.chron)) ∨ halted ∨ (s.core core).killed then s
    else
      let groups := (x.reads sector).map transfers
      match s.locateAll core p false groups.flatten with
      | .error e => s.sectorStop core p x.cmdid sector e (s.faultsOf core p false groups.flatten)
      | .ok ls =>
        let rs := s.sectorReqs core x.cmdid sector
        let far := ls.any fun y => match y.2 with
          | .key _ => false
          | _ => true
        if far && rs.isEmpty then s.sectorAsk core p x.cmdid sector ls
        else if far && rs.any (fun r => !r.done) then s
        else match s.windows (windowClaims core false s.chron ls) with
        | none => s.schedC (s.chron + 1) core (.sectorDone core cmd sector)
        | some s =>
          let data := s.sectorData rs ls
          let sizes := groups.map fun g => g.foldl (fun a y => a + y.n) 0
          let parts := (sizes.foldl (fun (a : List (List Byte) × List Byte) n => (a.1 ++ [a.2.take n], a.2.drop n)) ([], data)).1
          s.sectorRun core p x sector parts
  | _, _ => s)

/-! ## Entry (R407, R408, R417) -/

/-- OP of a completion record, its STATUS, SWIN and NREC (R414). -/
def recF (r : List Byte) (hi lo : Nat) : Nat := fld (ofBytes (r.take 8)) hi lo

/-- A command as it enters, without its sectors. -/
def State.newCmd (s : State) (c : CoreIx) (x : CmdIn) (op : Nat) (ents : List (Nat × BitVec 512)) : Cmd :=
  let k := s.core c
  let y : Cmd := { in_ := x, cmdid := k.cpe.next, op := op, leg := k.ctl.legno.toNat, entered := s.chron, ents := ents }
  { y with nsect := y.sectors, stop := y.sectors }

/-- Puts a command into the queue at cycle e: it takes the next CMDID, which gd receives but for CPYW (R407, R416). -/
def State.cmdEnter (s : State) (c : CoreIx) (y : Cmd) (e : Nat) : State :=
  let id := (s.core c).cpe.next
  let y := { y with cmdid := id, entered := e }
  let s := s.upd c fun k => { k with
    cpe := { k.cpe with
      cmds := insertCmd y k.cpe.cmds
      next := if id = 65535 then 1 else id + 1
      free := max k.cpe.free e
      look := if k.cpe.outstanding = 0 then e else k.cpe.look
      lookStep := if k.cpe.outstanding = 0 then 0 else k.cpe.lookStep }
    seq := if y.in_.op = 0x34 then k.seq else k.seq.setG y.in_.d (BitVec.ofNat 64 id) false e }
  (s.cmdEnd c id).cpePump c

/-- What a CPYR runs: a record to write again unchanged, or the operation and what the first run wrote; 0x15 otherwise
(R417). PACK runs from its start. -/
def replay (y : Cmd) (r : List Byte) : Option Cmd :=
  let nsect := ofBytes ((r.drop 16).take 4)
  if y.op = 0x37 then some y
  else if nsect ≠ y.nsect then none
  else
    let base := 256 * recF r 47 40
    let mask := ofBytes (r.drop 32)
    some { y with
      base := base
      next := base
      pre := ((List.range 256).filter fun j => bitAt mask j).map (base + ·)
      bytes := ofBytes ((r.drop 8).take 8)
      nrec := recF r 63 48 }

/-- The cycle e in which the block of a command, or the record of a CPYR, arrives (R407, R297, R298). -/
def Req.entry (r : Req) (now : Nat) : Nat :=
  if r.own then max now (r.issued + 2 * seqDist (bankOf r.ia) + 2) else if r.fixed then max now (r.issued + 192) else now

/-- What the entry of a command at cycle e gives: the handle whose fill it waits for, or whether it enters, and the state (R407, R408,
R412, R417). `s` is the state with its load gone. -/
def State.entryTry (s : State) (core : CoreIx) (x : CmdIn) (rec_ : List Byte) (e : Nat) : Except Nat (Bool × State) :=
  let rop := if x.op = 0x35 then recF rec_ 21 16 else x.op
  let stop (code ia h : Nat) : Except Nat (Bool × State) := .ok (false, s.cpeFault core code ia h)
  if s.fixedLeg core ∧ blkFollow x.block then stop 0x41 0 0xFFFF
  else if x.op = 0x35 ∧ recF rec_ 24 24 = 0 then
    .ok (true, s.cmdEnter core { s.newCmd core x rop [] with keep := rec_, nsect := 0, stop := 0 } e)
  else if x.op = 0x35 ∧ ¬ [0x32, 0x33, 0x34, 0x36, 0x37].contains rop then stop 0x15 0 0xFFFF
  else if blockBad rop x.block then stop 0x15 0 0xFFFF
  else match s.cpeCheck core rop x.block with
    | .error (.wait h) => .error h
    | .error .deviation => stop 0x41 0 0xFFFF
    | .error (.hard code h) => stop code 0 h
    | .error (.fill code en l h) =>
      if code = 0x74 then (match s.partOf core with
        | some p => .ok (false, s.partFault p 0x74)
        | none => .ok (false, s))
      else if s.fixedLeg core then stop 0x41 (64 * h) h
      else
        let n := max 1 (Config.sectorCount s.freeIx % 2 ^ 32)
        let s := { s with freeIx := s.freeIx + 1 }
        .ok (true, s.cmdEnter core { s.newCmd core x rop [] with
          nsect := n, stop := 0, fixed := true, faulted := [{ q := 0, code := code, ia := 64 * h, entry := en, level := l, handle := h }] } e)
    | .ok (ents, s1) =>
      let y := s1.newCmd core x rop ents
      if x.op = 0x35 then (match replay y rec_ with
        | none => stop 0x15 0 0xFFFF
        | some y => .ok (true, s1.cmdEnter core y e))
      else .ok (true, s1.cmdEnter core y e)

/-- The cycle in which a command whose loads have arrived enters: a CPYR needs its record too (R407; log 72). -/
def State.cmdEntryAt (s : State) (r : Req) : Nat := max (r.entry s.chron) (((s.mate r).map fun q => q.entry s.chron).getD 0)

/-- COMMAND_ENTRY: the command enters the queue in the cycle its block arrives, after the checks of its block and its
handles. An entry in a cycle known before is made at the end of the cycle before it, so that the words of that
cycle see it; a check that stops it does so in that cycle (R407). -/
def execCommandEntry (core : CoreIx) (id : Nat) (s : State) : Outcome State Fault Refusal :=
  .next (match s.req id with
  | none => s
  | some r => match r.dest with
    | .cmd x =>
      let e := s.cmdEntryAt r
      let later (t : Nat) : State := (s.upd core fun k => { k with seq := k.seq.pend x.d never }).schedC t core (.commandEntry core id)
      let y := { x with block := r.result, isRec := false }
      let (rec_, s1) : List Byte × State := match s.mate r with
        | some q => (q.result, s.dropReq q.id)
        | none => ([], s)
      match (s1.dropReq id).entryTry core y rec_ e with
      | .error h => (later (s.chron + 1)).fillStart core 4 h x.pc
      | .ok (entered, s2) => if entered = false ∧ s.chron < e then later e else s2
    | _ => s)

/-! ## Completion (R413, R414) -/

/-- The faulting sectors of which a record is written: all but those of which a lower one has the same code and a faulting access in the
granule of 64 KiB (R411). -/
def faultsToRecord (l : List SecFault) : List SecFault :=
  let up := (l.foldl (fun (a : List (Nat × SecFault)) f => tput a f.q f) []).map (·.2)
  up.filter fun f => !up.any fun g => decide (g.q < f.q) && g.code == f.code
    && ((g.code, g.ia / 65536) :: g.also).any fun y => y.1 == f.code && y.2 == f.ia / 65536

/-- The first sector of a command not written, NSECT when all are (R414). -/
def Cmd.firstBad (x : Cmd) : Nat := match x.faulted with
  | [] => x.nsect
  | f :: r => r.foldl (fun a y => min a y.q) f.q

/-- The completion record of a command (R414, R417). -/
def Cmd.record (x : Cmd) : List Byte :=
  if ¬ x.keep.isEmpty then x.keep
  else
    let f := x.firstBad
    let bad := x.faulted.find? fun y => y.q == f
    let swin := if bad.isSome then f / 256 else 0
    let mask := (List.range 256).foldl (fun a j => if x.old (256 * swin + j) || x.written.contains (256 * swin + j) then a + 2 ^ j else a) 0
    toBytes 8 (putF 0 16 x.cmdid + putF 16 6 x.op + putF 24 1 (ofBool bad.isSome) + putF 32 8 ((bad.map (·.code)).getD 0) + putF 40 8 swin
        + putF 48 16 x.nrec)
      ++ toBytes 8 x.bytes ++ toBytes 4 x.nsect ++ toBytes 4 f ++ toBytes 8 ((bad.map (·.ia)).getD 0) ++ toBytes 32 mask

/-- Whether a command ended with STATUS = 0. -/
def Cmd.ok (x : Cmd) : Bool := x.faulted.isEmpty

/-- Steps 3 and 4 of R413: the give and the follow-on word; the command leaves. -/
def State.cmdFinish (s : State) (c : CoreIx) (x : Cmd) (ok : Bool) : State :=
  let s := s.updCpe c fun k => { k with cmds := k.cmds.filter fun y => y.cmdid != x.cmdid }
  let s := if ok && blkGive x.in_.block then s.give c 4 x.in_.to_ (-1) else s
  let s := if ok && blkFollow x.in_.block then
      (s.updCpe c fun k => { k with follow := k.follow ++ [(BitVec.ofNat 32 (blkW x.in_.block 8 4), s.chron + 1)] }).schedC (s.chron + 1) c .followOnIssue
    else s
  s.cpePump c

/-- Writes the fault records of a command (R411). -/
def State.cmdFaults (s : State) (c : CoreIx) (p : PartIx) (x : Cmd) (fs : List SecFault) : State :=
  let k := s.core c
  fs.foldl (fun s f => s.fqWrite p f.code
    { req := 4, core := c.val, wr := f.wr, fixed := s.fixedLeg c, ia := f.ia, leg := x.leg, course := k.ctl.course.toNat, handle := f.handle,
      cmdid := x.cmdid, entry := f.entry, level := f.level }) s

/-- Writes the completion record: a fault of the write is a sector fault, with no record (R413). -/
def State.cmdRecord (s : State) (c : CoreIx) (p : PartIx) (x : Cmd) : State :=
  let fault (s : State) (code e l : Nat) : State :=
    if code = 0x74 then s.partFault p 0x74
    else if s.fixedLeg c then s.cpeFault c 0x41 x.in_.recIa 0xFFFF
    else (s.cmdFaults c p x [{ q := 0, code := code, ia := x.in_.recIa, entry := e, level := l, wr := true }]).cmdFinish c x false
  if x.in_.recErr ≠ 0 then fault s x.in_.recErr 0 0
  else
    let a : Acc := { h := 0xFFFF, sl := false, a := x.in_.recIa, n := 64 }
    match s.locate c p true a with
    | .ok l => (match s.windows (windowClaims c true s.chron [(a, l)]) with
      | none => s.schedC (s.chron + 1) c (.commandComplete c (BitVec.ofNat 16 x.cmdid))
      | some s => (s.cpePost c p x.cmdid a l x.record).cmdFinish c x x.ok)
    | .error (.refuse h pr) =>
      if s.fixedLeg c then s.cpeFault c 0x41 x.in_.recIa 0xFFFF
      else (s.promote p pr).schedC (s.chron + 64 * h) c (.commandComplete c (BitVec.ofNat 16 x.cmdid))
    | .error (.fault code _ e l _ _) => fault s code e l
    | .error _ => s.cpeFault c 0x41 x.in_.recIa 0xFFFF

/-- COMMAND_COMPLETE: the fault records; with REL the flush of R256; the record; the give and the follow-on word, in this
order, each once the one before is over (R411, R413, R416). -/
def execCommandComplete (core : CoreIx) (cmd : BitVec 16) (s : State) : Outcome State Fault Refusal :=
  let again (s : State) : State := s.schedC (s.chron + 1) core (.commandComplete core cmd)
  .next (match s.cmd core cmd.toNat, s.partOf core with
  | some x, some p =>
    if ¬ s.cpeMay core then s
    else match x.stage with
    | 0 =>
      if ¬ x.active.isEmpty ∨ x.hold ∨ x.nextSector.isSome then s
      else
        let tk := blkTake x.in_.block && !x.taken
        if tk && !(s.core core).ctl.hasTok 4 x.in_.from_ then again s
        else
          let s := if tk then s.take core 4 x.in_.from_ else s
          let fs := faultsToRecord x.faulted
          let s := s.cmdFaults core p x fs
          let x := { x with taken := true, nrec := x.nrec + fs.length, done := true, stage := 1 }
          let (s, ids) := if x.ok && x.in_.rel && !s.fixedLeg core then s.flushPorts core 4 x.in_.scope (-1) else (s, [])
          let s := s.updCmd core x.cmdid fun _ => { x with waits := ids }
          let s := if x.in_.op = 0x34 then
              s.upd core fun k => { k with seq := k.seq.setG x.in_.d (BitVec.ofNat 64 (ofBytes (x.record.take 8))) false (s.chron + 1) }
            else s
          s.schedC s.chron core (.commandComplete core cmd)
    | 1 =>
      if x.waits.any s.unperformed ∨ (s.part p).recordHeld core 4 then again s
      else if x.in_.recVa = 0 then s.cmdFinish core x x.ok
      else
        let near := isOwnSpad core x.in_.recIa
        let (ix, s1) := s.draw
        let (lat, s) := if s.fixedLeg core then (if near then 24 else 192, s) else ((if near then 24 else 192) + Config.walkLatency ix, s1)
        let cs := cpeHolds core [{ h := 0xFFFF, sl := false, a := x.in_.recIa, n := 64 }] s.chron (s.chron + lat)
        if ¬ (s.core core).pipe.free cs then
          if s.fixedLeg core then s.cpeFault core 0x41 x.in_.recIa 0xFFFF else again s
        else ((s.claim core cs).updCmd core x.cmdid fun x => { x with stage := 2 }).schedC (s.chron + lat) core (.commandComplete core cmd)
    | _ => s.cmdRecord core p x
  | _, _ => s)

/-! ## Follow-on words (R415) -/

/-- The meaning of a BKE word. -/
def bkeWord (i : Instr) (s : State) : Outcome State Fault Refusal :=
  match i with
  | .nop h => execNop h s
  | .idle h c => execIdle h c s
  | .bwin h hd nl x => execBwin h hd nl x s
  | .bwinCfg h hd => execBwinCfg h hd s
  | .bsteer h hd nl x => execBsteer h hd nl x s
  | .bplane h hd nl x => execBplane h hd nl x s
  | .bclr h => execBclr h s
  | .cbld h hd k => execCbld h hd k s
  | .mulb h c => execMulb h c s
  | .macd h l f nl x => execMacd h l f nl x s
  | .zswap h => execZswap h s
  | .zdrain h a b f x => execZdrain h a b f x s
  | .zclr h a b => execZclr h a b s
  | .zspill h a b k x => execZspill h a b k x s
  | .zfill h a b k x => execZfill h a b k x s
  | .zaddv h a b k f x => execZaddv h a b k f x s
  | .zstat h l k x => execZstat h l k x s
  | _ => .next (s.coreFault s.cur 2 0x01 (-4))

/-- Whether a word of the BKE is LOOP or LEND. -/
def isLoopWord : Instr → Bool
  | .loopBke .. | .lendBke .. => true
  | _ => false

/-- The count of an IDLE, 0 for another word. -/
def idleCount : Instr → Nat
  | .idle _ n => n.toNat
  | _ => 0

/-- The queue held by an IDLE placed ahead of its words, issued at cycle i (R270, R415). -/
def Queue.idles (q : Queue) (i n : Nat) : Queue :=
  { q with notBefore := max q.notBefore (i + 1 + n), base := max q.base (i + 1 + n), idleEnd := max q.idleEnd (i + n) }

/-- FOLLOW_ON_ISSUE: the oldest follow-on word issues as a BKE word that does not move the issue pointer, its W ignored;
if it cannot issue it tries again in the next cycle. LOOP, LEND and an unassigned word raise 0x01 (R415, R353). -/
def execFollowOnIssue (s : State) : Outcome State Fault Refusal :=
  let c := s.cur
  .next (match s.me.cpe.follow with
  | [] => s
  | (w, t) :: rest =>
    if s.chron < t then s.schedC t c .followOnIssue
    else if s.preStopped c then s.stash c .followOnIssue
    else if ¬ s.cpeMay c then s
    else
      let q := s.me.bke.q
      let s1 := { s.updMe fun k => { k with bke := { k.bke with q := { q with pc := -4, loops := [] } } } with eng := .bke }
      let back (s : State) (n : Nat) : State := s.updMe fun k => { k with bke := { k.bke with q := { q with notBefore := max q.notBefore n, progress := s.chron, lookStep := 0 } } }
      let gone (s : State) (n : Nat := 0) : State :=
        let s := (back s (s.chron + 1)).updCpe c fun k => { k with follow := rest }
        let s := if n = 0 then s else s.updMe fun k => { k with bke := { k.bke with q := k.bke.q.idles s.chron n } }
        if rest.isEmpty then s else s.schedC (s.chron + 1 + n) c .followOnIssue
      let bad : State :=
        let h := hdrOf w.toNat
        let k := s.me
        if h.t && !k.ctl.hasTok 2 ((k.ctl.seen s.chron).from_ 2) then s.schedC (s.chron + 1) c .followOnIssue
        else gone ((if h.t then s.take c 2 ((k.ctl.seen s.chron).from_ 2) else s).coreFault c 2 0x01 (-4))
      match decode .bke w.toNat with
      | .error _ => bad
      | .ok i =>
        if isLoopWord i then bad
        else match bkeWord i s1 with
        | .next s2 =>
          if s2.me.bke.q.pc = -4 ∧ s2.me.bke.q.notBefore = s.chron + 1 then (back s2 0).schedC (s.chron + 1) c .followOnIssue else gone s2 (idleCount i)
        | _ => s)

/-! ## Command words (R406, R407) -/

/-- Commands a core has issued and not completed. -/
def State.cmdCount (s : State) (c : CoreIx) : Nat :=
  (s.core c).cpe.outstanding + (s.cmdLoads c).length

/-- The load of the record of a CPYR, made with the load of its block: one to the own scratchpad enters the ring in the cycle after the
block's (R407, R298; log 72). The answer is the first cycle in which a lane or a port is taken. -/
def State.recordLoad (s : State) (c : CoreIx) (x : CmdIn) (ia : Nat) (took : Bool) : Except Nat State :=
  let r : Req :=
    { id := 0, who := 0, core := c, part := s.partOf c, kind := .read, ia := ia, va := x.recVa, n := 64, dest := .cmd { x with isRec := true },
      pc := x.pc, issued := s.chron, took := took }
  if isOwnSpad c ia then
    let t := s.chron + 1
    let due := t + seqDist (bankOf ia)
    let cs := ownClaims .read (bankOf ia) t
    match s.me.pipe.hitAt cs with
    | some u => .error u
    | none =>
      let (id, s) := s.addReq { r with own := true, issued := t, due := due }
      .ok ((s.claim c cs).schedC due c (.accessResponse id))
  else
    let (id, s) := s.addReq r
    let (lat, s) := s.drawWalk
    .ok ((s.updSeq fun q => { q with hold := some id }).schedC (s.chron + lat) c (.pageWalk id))

/-- A command word: the block is read at ga, and for CPYR the record at gb too; flags, scope and byte 4 of TKSEL are
latched. The completion record's address is translated at issue (R406, R407). -/
def State.cpeWord (s : State) (i : Instr) (h : Hdr) (op : Nat) (d a b : Fin 32) (sc : BitVec 4) (rel acq : Bool) : State :=
  let pc := s.me.seq.q.pc
  s.seqIssue i h [d, a, b] false true 0 fun s =>
    let c := s.cur
    let k := s.me
    let gb := (k.seq.gpr b).toNat
    let user := !k.seq.sup
    if op = 0x35 ∧ gb = 0 then .plain 0x15
    else if s.fixedLeg c ∧ (op = 0x35 ∨ op = 0x36 ∨ op = 0x37) then .wait
    else if 16 ≤ s.cmdCount c then .wait
    else if gb % 64 ≠ 0 then .fault 0x13 gb 0 false false 0xFFFF
    else
      let far := decide (2 ^ 52 ≤ gb)
      let (ia, err) := if gb = 0 then (0, 0) else if far then (0, 0x30) else match translate k.ctl.rng user gb 64 .write with
        | .error code => (0, code)
        | .ok ia => (ia, 0)
      let (num, s) := s.newId
      let x : CmdIn :=
        { op := op, d := d, scope := sc.toNat, acq := acq, rel := rel, recVa := gb, recIa := ia, recErr := err, from_ := (k.ctl.seen s.chron).from_ 4,
          to_ := (k.ctl.seen s.chron).to_ 4, deps := (s.reqs.filter fun r => r.core == c && r.who == 0 && !r.done).map (·.id), pc := pc, num := num }
      let block (s : State) : Verdict := s.memAccess i h pc (k.seq.gpr a) 128 128 .read (.cmd x) 1
      if op = 0x35 then
        (let rd : Except (Nat × Nat) Nat := if far then .error (0x30, 0) else match translate k.ctl.rng user gb 64 .read with
          | .error code => .error (code, 0)
          | .ok ia => match s.issuerCheck (s.partOf c) ia with
            | some code => .error (code, ia)
            | none => .ok ia
        match rd with
        | .error (code, ia) => (match block s with
          | .ok _ => .fault code gb ia false false 0xFFFF
          | v => v)
        | .ok ia => match s.recordLoad c x ia h.t with
          | .error u => (match block s with
            | .ok _ => .late u
            | v => v)
          | .ok s => block s)
      else block s

/-- CPY (R406, R416). -/
def execCpy (h : Hdr) (d a b : Fin 32) (sc : BitVec 4) (l p : Bool) (s : State) : Outcome State Fault Refusal :=
  .next (s.cpeWord (.cpy h d a b sc l p) h 0x32 d a b sc l p)

/-- CPYF (R406, R416). -/
def execCpyf (h : Hdr) (d a b : Fin 32) (sc : BitVec 4) (l p : Bool) (s : State) : Outcome State Fault Refusal :=
  .next (s.cpeWord (.cpyf h d a b sc l p) h 0x33 d a b sc l p)

/-- CPYW (R406, R416). -/
def execCpyw (h : Hdr) (d a b : Fin 32) (sc : BitVec 4) (l p : Bool) (s : State) : Outcome State Fault Refusal :=
  .next (s.cpeWord (.cpyw h d a b sc l p) h 0x34 d a b sc l p)

/-- CPYR (R406, R417). -/
def execCpyr (h : Hdr) (d a b : Fin 32) (sc : BitVec 4) (l p : Bool) (s : State) : Outcome State Fault Refusal :=
  .next (s.cpeWord (.cpyr h d a b sc l p) h 0x35 d a b sc l p)

/-- SORT (R406, R418). -/
def execSort (h : Hdr) (d a b : Fin 32) (sc : BitVec 4) (l p : Bool) (s : State) : Outcome State Fault Refusal :=
  .next (s.cpeWord (.sort h d a b sc l p) h 0x36 d a b sc l p)

/-- PACK (R406, R419). -/
def execPack (h : Hdr) (d a b : Fin 32) (sc : BitVec 4) (l p : Bool) (s : State) : Outcome State Fault Refusal :=
  .next (s.cpeWord (.pack h d a b sc l p) h 0x37 d a b sc l p)

/-- What the block or the record of a command does on arrival: the command enters in the cycle the data are usable; a CPYR needs both, and
issue of the sequencer goes on after both (R299, R407). -/
def State.cmdArrive (s : State) (c : CoreIx) (r : Req) (x : CmdIn) : State :=
  let s := (s.upd c fun k => { k with seq := k.seq.release r.id s.chron }).setReq { r with done := true }
  let enter (lead : Req) : State :=
    let e := s.cmdEntryAt lead
    s.schedC (if s.chron < e then e - 1 else e) c (.commandEntry c lead.id)
  match s.mate r with
  | none => if x.op = 0x35 then s else enter r
  | some q =>
    if q.done then enter (if x.isRec then q else r)
    else if q.own then s
    else s.upd c fun k => { k with seq := { k.seq with hold := some q.id } }

end Sys2Proof.Machine
end

