-- ==== Sys2Proof/Machine/Contexts.lean ====
section
/-! DEFINITION. What the end of a context does, the row windows that name a bank (R38), the pending change of the refresh
period (R40), and the naming of key slots (R78). -/

namespace Sys2Proof.Machine

/-! ## Row windows and the refresh period -/

/-- Whether a row window names a bank (R38). -/
def RowWin.names (w : RowWin) (b : Fin 32) : Bool := w.v && w.bmask.getLsb b

/-- Whether a cut of a pre-emption in progress holds a core: t_b has come (R161). -/
def State.cutCore (s : State) (c : CoreIx) : Bool :=
  match s.partOf c with
  | some p => (match (s.part p).outgoing with
    | some x => (match tget x.cut c.val with
      | some tb => decide (tb ≤ s.chron)
      | none => false)
    | none => false)
  | none => false

/-- The saved cores of a column in every partition. -/
def State.savedCores (s : State) (c : CoreIx) : List Core := s.parts.filterMap fun x => x.2.savedCore c

/-- Whether any row window names a bank: one of a running context, one preserved across launch, or a saved one (R38). -/
def State.windowNames (s : State) (c : CoreIx) (b : Fin 32) : Bool :=
  let k := s.core c
  (s.runs c && k.ctl.rwin.toList.any fun w => w.names b) || (k.ctl.rwinL.toList.any fun w => w.names b)
    || (s.savedCores c).any fun k => k.ctl.rwin.toList.any fun w => w.names b

/-- Schedules the next refresh slot of every bank of a column that is OPEN or PRECHARGING anew, by the period now in force (R34, R214). -/
def State.slotsArm (s : State) (c : CoreIx) : State :=
  let k := s.col c
  let slot (e : Ev) : Bool := match e.instr with
    | .refreshSlotStart x _ => x == c
    | _ => false
  (List.finRange 32).foldl (fun s b => if k.rows[b].at_ s.chron = 0 then s
    else s.schedC (s.chron + k.toSlot b.val s.chron) c (.refreshSlotStart c b))
    { s with agenda := s.agenda.filter fun e => !(slot e && decide (s.chron < e.cycle)) }

/-- The change of a column's refresh period that was pending; it governs the rows that are open (R40, R33, R214). -/
def State.hotChange (s : State) (c : CoreIx) : State :=
  if (s.col c).hotpend then ((s.updCol c fun k => { k with hot := !k.hot, hotpend := false }).surveyChange false).slotsArm c else s

/-! ## The end of a context -/

/-- Whether an event belongs to the words, accesses and commands of a core. -/
def coreEvent : Instr → Bool
  | .wordRetire _ _ | .accessGeneration | .stqSlotPerform | .replayQueueLeave | .coreArrival | .dueCycleMiss _ _
  | .commandEntry _ _ | .sectorStart | .sectorDone _ _ _ | .commandComplete _ _ | .followOnIssue | .rwinApply _ _ _ _ | .resume => true
  | _ => false

/-- The request an event is about. -/
def eventReq : Instr → Option Nat
  | .pageWalk id | .accessResponse id | .refusalRetry id | .completionTimeout id => some id
  | _ => none

/-- Whether a request is one of an engine of given cores. -/
def Req.ofCores (r : Req) (cs : List CoreIx) : Bool := decide (r.who < 5) && cs.contains r.core

/-- Whether an event is one of the running context on given cores. -/
def State.ofContext (s : State) (cs : List CoreIx) (e : Ev) : Bool :=
  match eventReq e.instr with
  | some id => s.reqs.any fun r => r.id == id && r.ofCores cs
  | none => coreEvent e.instr && cs.contains e.core

/-- Abandons the accesses, words and commands of given cores (R149, R151). -/
def State.abandon (s : State) (cs : List CoreIx) : State :=
  let s := { s with agenda := s.agenda.filter fun e => !s.ofContext cs e }
  { s with reqs := s.reqs.filter fun r => !r.ofCores cs }

/-- Whether an event is a fix or pre-emption step of a partition. -/
def fixEvent (p : PartIx) : Instr → Bool
  | .fixComplete q _ | .fixRelease q _ | .resumeFix q _ => p == q
  | _ => false

/-- Discards the fixes in progress in a partition with their arrivals (R132). -/
def State.dropFixes (s : State) (p : PartIx) : State :=
  let s := { s with agenda := s.agenda.filter fun e => !fixEvent p e.instr }
  let s := s.updPart p fun q => { q with fixes := [], arrHeld := [], relHeld := none, awaiting := none, sentArr := false }
  (s.coresOf p).foldl (fun s c => s.upd c fun k => { k with seq := { k.seq with fix := none } }) s

/-- Whether every sequencer of a partition has executed HALT (R89). -/
def State.allHalted (s : State) (p : PartIx) : Bool := (s.coresOf p).all fun c => (s.core c).seq.halted.isSome

/-- The context reaches DONE when every sequencer of the partition has halted; EXIT takes the value of logical core 0
(R89). A pre-emption in progress ends with it. -/
def State.checkDone (s : State) (p : PartIx) : State :=
  let q := s.part p
  match q.runSlot with
  | none => s
  | some j =>
    if q.halting.isSome || !s.allHalted p then s
    else
      let v := match s.coresOf p with
        | c :: _ => ((s.core c).seq.halted).getD 0
        | [] => 0
      let s := s.updPart p fun q => { q.updSlot j (fun x => { x with exit := v }) with outgoing := none }
      (s.coresOf p).foldl (fun s c => s.upd c fun k => { k with stat := { k.stat with trap24 := [] } }) (s.endSlot p j .done 0)

end Sys2Proof.Machine
end

