-- ==== Sys2Proof/Machine/Memory.lean ====
section
/-! DEFINITION. The memory side: walks of requests (R103), their responses (R104 to R106), completions and their timeout
(R68), the fault queue (R110), ATS (R120), the host's requests (R49, R74) and those of a peer (R121). -/

namespace Sys2Proof.Machine

open Host (Outcome)

/-- Whether the freeze wire is asserted (R164). -/
def State.isFrozen (s : State) : Bool := s.frzCtl || s.frzMsg

/-- Sends a completion to the host. -/
def State.hostComplete (s : State) (tag : Nat) (st : CplStatus) (bs : List Byte) : State :=
  { s with hif := { s.hif with hostOut := s.hif.hostOut ++ [{ id := 0, cpl := some (tag, st, bs) }] } }

/-- Whether a request is posted and so gets no completion (R66). -/
def AccKind.posted : AccKind → Bool
  | .write _ => true
  | _ => false

/-! ## Walks -/

/-- The fault record of a request (R109). -/
def State.reqRecord (s : State) (p : PartIx) (code : Nat) (r : Req) (entry level : Nat) : State :=
  let eng := decide (r.who < 5)
  let k := (s.core r.core).ctl
  s.fqWrite p code
    { req := r.who, core := if eng then r.core.val else 0x1FF, wr := r.kind.wr, at_ := r.kind.right == .atomic, fixed := r.fixed,
      ldq := (match r.dest with
        | .ldq slot _ => slot % 64
        | _ => 0),
      va := r.va, ia := r.ia, leg := if eng then k.legno.toNat else 0, course := if eng then k.course.toNat else 0,
      handle := r.handle, cmdid := r.cmdid, entry := entry, level := level }

/-- Whether a request must wait for an earlier one of its queue: LDQ loads of a free leg are performed in LDQ order
(R252), host requests behind earlier host writes (R264). -/
def State.reqWaits (s : State) (r : Req) : Bool :=
  s.reqs.any fun x => decide (x.id < r.id) && !x.done && (match r.dest, x.dest with
    | .ldq _ _, .ldq _ _ => !r.fixed && x.core == r.core
    | .host _, .host _ => x.kind.writes
    | _, _ => false)

/-- The operands of an AtomicOp as the Logbook records them. -/
def atomBytes (n : Nat) (fn : AtomFn) (b e : Nat) : List Byte := if fn = .cas then toBytes n e ++ toBytes n b else toBytes n b

/-- Records a host or peer request that has been performed as an input of its partition (R145, R146). -/
def State.recordInput (s : State) (p : PartIx) (id : Nat) : State :=
  match s.req id with
  | none => s
  | some r => match r.who, r.kind with
    | 5, .write bs => s.logRecord p 1 2 0 0x1FF r.ia bs
    | 6, .write bs => s.logRecord p 2 3 0 0x1FF r.ia bs
    | 6, .atomic fn b e => s.logRecord p 2 4 0 0x1FF r.ia (atomBytes r.n fn b e ++ r.result)
    | _, _ => s

/-- Ends a request with a fault, answered in this cycle. -/
def State.failReq (s : State) (r : Req) (code entry level : Nat) : State :=
  (s.setReq { r with err := some (code, entry, level), done := true }).schedC s.chron r.core (.accessResponse r.id)

/-- Performs a request at a memory key, answered in this cycle. -/
def State.doReq (s : State) (p : PartIx) (r : Req) (key : Nat) : State :=
  ((s.performReq { r with refused := false } key).recordInput p r.id).schedC s.chron r.core (.accessResponse r.id)

/-- Whether the walk of an address is refused with hint 1: the occurrence of another walk of its page, or of contention for the TLB's
fill (R104; log 63). A pinned entry needs no walk (R107). -/
def State.walkBusy (s : State) (p : PartIx) (ia : Nat) : Bool :=
  decide (ia / 2 ^ 52 < 2) && (s.ms.walks.any fun x => x.1 == p.val && x.2.1 == ia / 2 ^ 16 && decide (s.chron < x.2.2))
    && (s.pinOf p ia).isNone

/-- A window access enters the ring of the core it names at stop 19, as that core's own sequencer would: it waits while lanes or ports are
taken, and reaches the bank at its cycle; driven twice in a fixed leg of that core, they deviate there (R176; log 69). -/
def State.windowEnter (s : State) (r : Req) (c : CoreIx) : State :=
  let off := r.ia % 2 ^ 23
  let t := s.chron
  let cs := (List.range (ceilDiv r.n 128)).flatMap fun i => ownClaims r.kind (bankOf off) (t + i)
  let enter (s : State) : State :=
    let due := t + ownPerform r.kind (seqDist (bankOf off))
    ((s.claim c cs).setReq { r with due := due }).schedC due r.core (.pageWalk r.id)
  if s.fixedLeg c then enter (s.clash c .seq (.pageWalk r.id) (-1) cs)
  else if (s.core c).pipe.free cs then enter s
  else s.schedC (t + 1) r.core (.pageWalk r.id)

/-- An access to the scratchpad of another core through its window (R94, R176, R144); in a fixed leg of the accessing core it is a deviation
(R299, R327). -/
def State.windowReq (s : State) (p : PartIx) (r : Req) (c : CoreIx) : State :=
  if (s.core c).killed then s.failReq r 0x31 0 0
  else if r.fixed then (s.dropReq r.id).coreFault r.core r.who 0x41 r.pc r.ia r.handle
  else if r.due = 0 then s.windowEnter r c
  else s.doReq p r (spadKey c.val (r.ia % 2 ^ 23))

/-- A request of the host in physical mode reaches memory: a read of a doubleword that cannot be read, for which no partition asks, is CA
(R74, R119; DESIGN CHOICE, log 68). -/
def State.physReq (s : State) (r : Req) : State :=
  match r.dest with
  | .host tag =>
    let s := s.dropReq r.id
    if r.kind.reads && s.lostAt r.ia r.n then s.hostComplete tag .ca []
    else match performAt s.memory r.ia r.n r.kind with
    | .ok (bs, m) => if r.kind.posted then { s with memory := m } else ({ s with memory := m }).hostComplete tag .ok bs
    | .error _ => s.hostComplete tag .ca []
  | _ => s.dropReq r.id

/-- Translates a request and performs, sends, refuses or faults it (R94, R103, R105). A refusal or an access that
leaves the module is a deviation in a fixed leg (R137). -/
def State.walkReq (s : State) (r : Req) : State :=
  match r.part with
  | none => s.physReq r
  | some p =>
    if s.walkBusy p r.ia then
      (if r.fixed then (s.dropReq r.id).coreFault r.core r.who 0x41 r.pc r.ia r.handle
      else (s.setReq { r with refused := true }).schedC (s.chron + 64) r.core (.refusalRetry r.id))
    else
    let deviate : State := (s.dropReq r.id).coreFault r.core r.who 0x41 r.pc r.ia r.handle
    match r.ia / 2 ^ 52 with
    | 2 => if r.fixed then deviate else s.sendPeer { r with refused := false } p
    | 3 => s.windowReq p r (Fin.ofNat 288 (fld r.ia 31 23))
    | _ => match s.walk p r.ia r.kind.right (match r.dest with
        | .handle _ => false
        | _ => true) with
      | .mem key => s.doReq p r key
      | .host addr =>
        if ¬ r.kind.portable then
          let (e, l) := s.leafOf p r.ia
          s.failReq r 0x32 e l
        else if r.fixed then deviate
        else s.sendHost { r with refused := false } p addr
      | .refuse hint pr =>
        if r.fixed then deviate
        else ((s.promote p pr).setReq { r with refused := true }).schedC (s.chron + 64 * hint) r.core (.refusalRetry r.id)
      | .fault code e l => s.failReq r code e l

/-- PAGE_WALK: a request reaches the memory side (R103); one that must wait for an earlier one comes again in the next
cycle; one of a fenced core goes nowhere (R144). -/
def execPageWalk (id : Nat) (s : State) : Outcome State Fault Refusal :=
  .next (match s.req id with
  | none => s
  | some r =>
    if r.done then s
    else if r.who < 5 ∧ (s.core r.core).killed then s.dropReq id
    else if s.reqWaits r then s.schedC (s.chron + 1) r.core (.pageWalk id)
    else s.walkReq r)

/-! ## Responses -/

/-- Sends a completion on a peer link. -/
def State.peerComplete (s : State) (l tag : Nat) (st : CplStatus) (bs : List Byte) : State :=
  if h : l < 48 then (s.offer ⟨l, h⟩ { id := 0, cpl := some (tag, st, bs) }).1 else s

/-- Answers a request of the host, of a peer or of the migration engine that is complete. -/
def State.answer (s : State) (r : Req) (st : CplStatus) : State :=
  if r.kind.posted then s
  else match r.dest with
    | .host tag => s.hostComplete tag st r.result
    | .peer l tag _ => s.peerComplete l tag st r.result
    | .mig off => { s with mig := { s.mig with moving := s.mig.moving.map fun m =>
        if st = .ok then { m with got := m.got ++ [(off, r.result)] } else { m with bad := true } } }
    | .chart p j off => if h : p < 48 then s.updPart ⟨p, h⟩ fun q => q.updSlot (Fin.ofNat 8 j) fun x =>
        if st = .ok then { x with got := x.got ++ [(off, r.result)] } else { x with bad := true }
      else s
    | _ => s

/-- What a fault of a request does at its requester (R74, R106, R121): a record and CA for the host or a peer, a trap,
soft stop, deviation or hard fault for an engine. 0x74 is a machine check of the partition (R37, R119). The fault of a handle's fill
meets the word that waits for it as it tries again (R189). -/
def State.respondFault (s : State) (r : Req) (code entry level : Nat) : State :=
  let s := s.dropReq r.id
  let rec_ := decide (0x30 ≤ code) && decide (code ≤ 0x34)
  let fill : Bool := match r.dest with
    | .handle _ => true
    | _ => false
  if fill then s
  else match r.who, r.part with
  | 0, _ => s.seqRespFault r.core r code entry level
  | 1, _ => s.axuRespFault r.core r code entry level
  | 4, _ => s.cpeFault r.core code r.ia r.handle
  | _, some p =>
    let s := if code = 0x74 then s.partFault p 0x74 else if rec_ then s.reqRecord p code r entry level else s
    s.answer r .ca
  | _, none => s

/-- What the data of a request does at its requester (R104). -/
def State.respondData (s : State) (r : Req) : State :=
  match r.dest with
  | .gpr _ _ _ _ | .xrd _ _ _ _ | .none_ => (s.dropReq r.id).seqFill r.core r
  | .hset h => s.hsetFill r.core r h
  | .handle h => (s.dropReq r.id).upd r.core fun k => k.touch h (BitVec.ofNat 512 (ofBytes r.result))
  | .ldq slot off => (s.dropReq r.id).ldqFill r.core r slot off
  | .stq slot => (s.dropReq r.id).stqFill r.core slot
  | .index job line => (s.dropReq r.id).indexFill r.core r job line
  | .cmd x => s.cmdArrive r.core r x
  | .sector id q _ => s.schedC s.chron r.core (.sectorDone r.core (BitVec.ofNat 16 id) q)
  | .host _ | .peer _ _ _ | .mig _ | .chart _ _ _ => (s.dropReq r.id).answer r .ok
  | .flush _ => (s.dropReq r.id).upd r.core fun k => { k with pipe := k.pipe.flushed r.id }
  | _ => s.dropReq r.id

/-- The response of a request that is complete. -/
def State.respond (s : State) (r : Req) : State :=
  match r.err with
  | some (code, e, l) => s.respondFault r code e l
  | none => s.respondData r

/-- Performs the accesses to the own scratchpad that the sequencer of a core issued before one to the same address and that still
wait for their write cycle (R251, R298). -/
def State.ownBefore (s : State) (r : Req) : State :=
  (s.reqs.filter fun x => x.own && !x.done && x.who == 0 && r.who == 0 && x.core == r.core && decide (x.id < r.id) && decide (x.ia < r.ia + r.n)
    && decide (r.ia < x.ia + x.n)).foldl (fun s x => s.performReq x (spadKey x.core.val (x.ia % 2 ^ 23))) s

/-- ACCESS_RESPONSE: a response arrives and is applied; an access to the own scratchpad is performed at its bank in this
cycle (R104, R298, R327). -/
def execAccessResponse (id : Nat) (s : State) : Outcome State Fault Refusal :=
  .next (match s.req id with
  | none => s
  | some r =>
    if r.own && !r.done then
      if (s.core r.core).killed then s.dropReq id
      else if s.reqWaits r then s.schedC (s.chron + 1) r.core (.accessResponse id)
      else
        let s := (s.ownBefore r).performReq r (spadKey r.core.val (r.ia % 2 ^ 23))
        match s.req id with
        | some r => s.respond r
        | none => s
    else if r.done then s.respond r
    else s)

/-! ## Completions from outside -/

/-- Fault 0x63 or 0x64 of an engine's request: its record and the hard fault (R68, R106). -/
def State.linkFaultOf (s : State) (r : Req) (code : Nat) : State :=
  let s := s.dropReq r.id
  if r.who < 5 then
    let s := match r.part with
      | some p => s.reqRecord p code r r.lastEntry r.lastLevel
      | none => s
    s.coreFault r.core r.who code r.pc r.ia r.handle
  else s.answer r .ca

/-- Whether a request is an AtomicOp. -/
def AccKind.isAtomic : AccKind → Bool
  | .atomic _ _ _ => true
  | _ => false

/-- A request with the data of one of the reads it was split into (R58). -/
def Req.gather (r : Req) (id : Nat) (bs : List Byte) : Req :=
  { r with parts := r.parts.map fun x => if x.1 = id then (x.1, x.2.1, some ((bs ++ List.replicate x.2.1 0).take x.2.1)) else x }

/-- A completion of a request sent on a port (R68, R104, R106): the data, 0x34 for an AtomicOp's UR on the host port, 0x64
for any other UR or CA; the data read are an input of the partition (R145). Port 48 is the host port. -/
def State.complete (s : State) (id : Nat) (st : CplStatus) (bs : List Byte) : State :=
  match s.reqs.find? fun r => r.id == id || r.parts.any fun x => x.1 == id with
  | none => s.atsFill id (st == .ok) bs
  | some r => match r.sent with
    | none => s
    | some port =>
      let r := r.gather id bs
      if r.done then s
      else match st with
        | .ok =>
          if r.parts.any fun x => x.2.2.isNone then s.setReq r
          else
          let bs := if r.parts.isEmpty then bs else r.parts.flatMap fun x => x.2.2.getD []
          let data := (bs ++ List.replicate r.n 0).take r.n
          let r := { r with result := data, done := true }
          let s := s.setReq r
          let s := match r.part with
            | some p =>
              if r.who < 5 ∧ r.n ≠ 0 then
                (if port = 48 then s.logRecord p 4 6 r.who r.core.val r.ia data else s.logRecord p 5 7 r.who r.core.val r.ia data)
              else s
            | none => s
          s.respond r
        | st =>
          if st = .ur ∧ port = 48 ∧ r.kind.isAtomic ∧ r.who = 0 then (s.dropReq r.id).seqRespFault r.core r 0x34 r.lastEntry r.lastLevel
          else s.linkFaultOf r 0x64

/-- COMPLETION_ARRIVAL: a completion comes in on a port (R68, R104). -/
def execCompletionArrival (id : Nat) (status : CplStatus) (bytes : List Byte) (s : State) : Outcome State Fault Refusal :=
  .next (if s.isFrozen then s.sched s.chron (.completionArrival id status bytes) else s.complete id status bytes)

/-- COMPLETION_TIMEOUT: no completion within 2^24 cycles, fault 0x63 (R68). -/
def execCompletionTimeout (id : Nat) (s : State) : Outcome State Fault Refusal :=
  .next (match s.req id with
  | none => s
  | some r => if r.done then s else s.linkFaultOf r 0x63)

/-! ## The fault queue -/

/-- Writes held fault records while the queue has space (R110). -/
def State.fqFlush (s : State) (p : PartIx) : Nat → State
  | 0 => s
  | fuel + 1 =>
    let q := s.part p
    match q.fqheld with
    | [] => s
    | r :: rest =>
      let size := 2 ^ (6 + q.fqsz.toNat)
      if (q.fqtail - q.fqhead).toNat = size then s
      else
        let r := r.take 56 ++ toBytes 8 q.fqtail.toNat
        let s := s.paWrite (q.fqbase.toNat + q.fqtail.toNat % size * 64) r
        let s := s.updPart p fun q => { q with fqtail := q.fqtail + 1, fqheld := rest }
        (if q.fqwb = 0 then s else s.hostPost q.fqwb.toNat (toBytes 4 (q.fqtail + 1).toNat)).fqFlush p fuel

/-- Lets the sequencers whose record has been written take their trap (R110, R152). -/
def State.heldTraps (s : State) (p : PartIx) : State :=
  (s.coresOf p).foldl (fun s c => match (s.core c).seq.heldTrap with
    | some (code, pc) =>
      if (s.part p).recordHeld c 0 then s else s.upd c fun x => { x with seq := x.seq.trap s.chron code pc x.seq.epcTook }
    | none => s) s

/-- FQHEAD_WRITE: frees space of the fault queue; a write beyond FQTAIL is ignored (R110). -/
def State.fqHead (s : State) (p : PartIx) (v : BitVec 32) : State :=
  let q := s.part p
  if (q.fqtail - q.fqhead).toNat < (v - q.fqhead).toNat then s
  else ((s.updPart p fun q => { q with fqhead := v }).fqFlush p (q.fqheld.length + 1)).heldTraps p

/-- FQHEAD_WRITE (R110). -/
def execFqheadWrite (p : PartIx) (v : BitVec 32) (s : State) : Outcome State Fault Refusal := .next (s.fqHead p v)

/-! ## ATS -/

/-- Whether a page lies in an invalidation of n bytes from an address on. -/
def inPages (addr n page : Nat) : Bool := decide (addr / 4096 ≤ page) && decide (page ≤ (addr + (n - 1)) / 4096)

/-- Whether a request that used an entry of an invalidation has not completed (R120). -/
def State.atsUsed (s : State) (addr n : Nat) : Bool := s.reqs.any fun r => !r.done && r.ats.any fun x => inPages addr n x

/-- ATS_INVALIDATION: removes the named entries, those still asked for among them; it completes, with a message to the host, once every
request that used them has completed (R120). -/
def execAtsInvalidation (addr : Nat) (n : Nat) (s : State) : Outcome State Fault Refusal :=
  let s := { s with ms := { s.ms with
    ats := s.ms.ats.filter fun x => !inPages addr n x.1
    atsAsked := s.ms.atsAsked.filter fun x => !inPages addr n x.2.1 } }
  .next (if s.atsUsed addr n then s.sched (s.chron + 1) (.atsInvalidation addr n)
    else { s with hif := { s.hif with hostOut := s.hif.hostOut ++ [{ id := 0, ia := addr, n := n, msg := some (0, 0, 0) }] } })

/-! ## Requests of the host -/

/-- log2 of the size of a function's BAR2 window in bytes: 48 is the PF (R47, R71; log 9). -/
def State.bar2Bits (s : State) (fn : Nat) : Nat := 30 + (tget s.hif.bar2 fn).getD 0

/-- Number of a function: 48 for the PF, p for the VF of partition p. -/
def fnNum : Fn → Nat
  | .pf => 48
  | .vf p => p.val

/-- W2BASE of a function, its bits below the window's size 0 (R74). -/
def State.w2base (s : State) (fn : Fn) : Nat :=
  let b := match fn with
    | .pf => s.hif.w2base.toNat
    | .vf p => (s.part p).w2base.toNat
  b / 2 ^ s.bar2Bits (fnNum fn) * 2 ^ s.bar2Bits (fnNum fn)

/-- The partition a window translates through: none in physical mode (R74). -/
def State.w2part (s : State) (fn : Fn) : Option PartIx :=
  match fn with
  | .vf p => some p
  | .pf => if h : s.hif.w2part.toNat < 48 then some ⟨s.hif.w2part.toNat, h⟩ else none

/-- An access of the host through BAR2 (R49, R74): in physical mode at memory that answers, else UR; otherwise through the
partition's tables. In replay a partition accepts no live input (R147). Behind an earlier request that waits, one in physical mode keeps
its place (R264). -/
def State.hostAccess (s : State) (fn : Fn) (off n : Nat) (k : AccKind) (tag : Nat) : State :=
  let a := (s.w2base fn + off) % 2 ^ 56
  match s.w2part fn with
  | none =>
    let ok (x : PaKind) : Bool := x == .pool || x == .lpddr
    if ok (s.paKind a) && ok (s.paKind (a + n - 1)) then
      let (id, s) := s.addReq
        { id := 0, who := 5, core := 0, part := none, kind := k, ia := a, n := n, dest := .host tag, issued := s.chron }
      match s.req id with
      | some r => if s.reqWaits r then s.schedC s.chron 0 (.pageWalk id) else s.physReq r
      | none => s
    else if k.posted then s else s.hostComplete tag .ur []
  | some p =>
    if s.replaying p && k.writes then (if k.posted then s else s.hostComplete tag .ur [])
    else
      let r : Req :=
        { id := 0, who := 5, core := 0, part := some p, kind := k, ia := a, n := n, dest := .host tag, issued := s.chron }
      let (id, s) := s.addReq r
      let r := { r with id := id }
      match s.issuerCheck (some p) a with
      | some code => s.failReq r code 0 0
      | none => s.schedC s.chron 0 (.pageWalk id)

/-- What an access of a request kind is. -/
def reqAcc : ReqKind → AccKind
  | .read => .read
  | .write bs => .write bs
  | .atomic fn b e => .atomic fn b e

/-- Whether an AtomicOp is one the host port supports (R47). -/
def atomicOpOk (fn : AtomFn) (n : Nat) : Bool :=
  ((fn == .add || fn == .swap) && (n == 4 || n == 8)) || (fn == .cas && (n == 4 || n == 8 || n == 16))

/-- A host AtomicOp to BAR2: UR when it is misaligned or not supported (R47, R49). -/
def State.hostAtomic (s : State) (fn : Fn) (off n : Nat) (op : AtomFn) (b e tag : Nat) : State :=
  if off % n ≠ 0 ∨ ¬ atomicOpOk op n then s.hostComplete tag .ur []
  else s.hostAccess fn off n (.atomic op b e) tag

/-- HOST_MEMORY_REQUEST: a request to BAR2 (R74). Under the freeze wire it is delivered at the release (R65). -/
def execHostMemoryRequest (fn : Fn) (off : Nat) (n : Nat) (kind : ReqKind) (tag : Nat) (s : State) : Outcome State Fault Refusal :=
  .next (if s.isFrozen then s.sched s.chron (.hostMemoryRequest fn off n kind tag) else match kind with
  | .atomic op b e => s.hostAtomic fn off n op b e tag
  | k => s.hostAccess fn off n (reqAcc k) tag)

/-- HOST_ATOMICOP: an AtomicOp of the host; one to BAR0 or BAR4 completes with UR (R49). -/
def execHostAtomicop (fn : Fn) (bar : Bar) (off : Nat) (n : Nat) (op : AtomFn) (b e : Nat) (tag : Nat) (s : State) :
    Outcome State Fault Refusal :=
  .next (if s.isFrozen then s.sched s.chron (.hostAtomicop fn bar off n op b e tag)
    else if bar = .bar2 then s.hostAtomic fn off n op b e tag else s.hostComplete tag .ur [])

/-! ## Requests of a peer -/

/-- A request that came in on a peer link for a partition q of this module (R121): UR when q is not bound to the link or in
replay (R147), else through q's device table. -/
def State.peerAccess (s : State) (l : LinkIx) (q ia n : Nat) (k : AccKind) (tag : Nat) : State :=
  let ur : State := if k.posted then s else s.peerComplete l.val tag .ur []
  if h : q < 48 then
    let p : PartIx := ⟨q, h⟩
    if ¬ s.fab.links[l].parts.getLsb p ∨ s.replaying p then ur
    else if n = 0 then (if k.posted then s else s.peerComplete l.val tag .ok [])
    else
      let r : Req :=
        { id := 0, who := 6, core := 0, part := some p, kind := k, ia := ia % 2 ^ 40, n := n, dest := .peer l.val tag q, issued := s.chron }
      let (id, s) := s.addReq r
      let s := s.walkReq { r with id := id }
      if k.posted then { s with fab := { s.fab with links := s.fab.links.set l { s.fab.links[l] with blocked := (s.req id).any fun r => !r.done } } }
      else s
  else ur

/-- STOP_RECORD_REFUSAL_TIMEOUT: a stop record refused for 2^20 cycles is dropped (R155). -/
def execStopRecordRefusalTimeout (p : PartIx) (core : CoreIx) (eng : Fin 8) (s : State) : Outcome State Fault Refusal :=
  .next (match s.reqs.find? (fun r => r.dest == .stopRec p.val core.val eng.val && decide (r.issued + 2 ^ 20 ≤ s.chron)) with
  | some r => (s.dropReq r.id).norec p
  | none => s)

end Sys2Proof.Machine
end

