-- ==== Sys2Proof/Machine/Fetch.lean ====
section
/-! DEFINITION. What happens next in the module: the words the queues would issue (R139), the Lookout (R143), the
scheduled events and the arrived inputs, and which of them comes first (log 1). -/

namespace Sys2Proof.Machine

/-- The 32-bit word at the issue pointer of an engine of a core: from the loop buffer once it is there (R332), else
from the engine's section; none beyond the section (R172, fault 0x03). -/
def State.fetch (s : State) (c : CoreIx) (e : Eng) : Option Nat :=
  let k := s.core c
  let q := k.queue e
  let held := if q.loops.isEmpty then none else (q.lbuf[q.bodyIx]?).join
  match held with
  | some w => some w.toNat
  | none =>
    let (start, len) := k.section_ e
    let slot := match s.partOf c with
      | some p => ((s.part p).runSlot.map (·.val)).getD 0
      | none => 0
    if 0 ≤ q.pc ∧ q.pc + 4 ≤ (len : Int) then some (readNat s.memory (imemKey c.val (start + q.pc.toNat) slot) 4) else none

/-- Whether a queue's own conditions let it issue: running, the sequencer not waiting. -/
def Core.mayIssue (k : Core) (e : Eng) : Bool :=
  !k.killed && (k.queue e).st == .running && (match e with
    | .seq => k.seq.hold.isNone && k.seq.fix.isNone && k.seq.haltWait.isNone && k.seq.halted.isNone && k.seq.heldTrap.isNone
    | .bke => k.cpe.follow.isEmpty
    | .cpe => false
    | _ => true)

/-- The issue an engine of a core would make next: its cycle and its word (R139, R268). A stopped AXU still issues again the words it had
issued past a soft stop (R154, R317). -/
def State.candidate (s : State) (c : CoreIx) (e : Eng) : Option (Nat × Option Nat) :=
  let k := s.core c
  if ¬ k.mayIssue e then none
  else match s.partOf c with
    | none => none
    | some p =>
      let q := s.part p
      if q.runSlot.isNone ∨ q.switching then none
      else
        let w := s.fetch c e
        let wait := match w with
          | some x => fld x 31 29
          | none => 0
        let eq := k.queue e
        let t := max (max (eq.base + wait) eq.notBefore) s.chron
        let again := e == .axu && !k.axu.again.isEmpty
        if before t (s.haltFrom c e) && before t (q.preemptFrom c) && (again || before t (eq.stopAt.map (· + 1))) then some (t, w) else none

/-- An issue to come: cycle, core, engine, word. -/
structure Cand where
  t : Nat
  core : CoreIx
  eng : Eng
  word : Option Nat
  deriving DecidableEq, Repr

/-- The earlier of two issues; the first at the same cycle (R139). -/
def Cand.first (a : Option Cand) (b : Option Cand) : Option Cand :=
  match a, b with
  | none, y => y
  | some x, none => some x
  | some x, some y => if y.t < x.t then some y else some x

/-- The engines that issue words, in the order in which they are served within a cycle (R139). -/
def issuers : List Eng := [.seq, .axu, .bke, .vec]

/-- The first issue of a core among given engines. -/
def State.coreCand (s : State) (es : List Eng) (c : CoreIx) : Option Cand :=
  es.foldl (fun a e => Cand.first a ((s.candidate c e).map fun x => ⟨x.1, c, e, x.2⟩)) none

/-- The first issue of the module among given engines. -/
def State.bestCand (s : State) (es : List Eng) : Option Cand :=
  s.cores.foldl (fun a x => if h : x.1 < 288 then Cand.first a (s.coreCand es ⟨x.1, h⟩) else a) none

/-! ## The Lookout (R143) -/

/-- Whether the next word of an engine of a core waits for its token (R181). -/
def State.waitsToken (s : State) (c : CoreIx) (e : Eng) : Bool :=
  let k := (s.core c).ctl
  (s.fetch c e).any fun w => (hdrOf w).t && !k.hasTok e.num ((k.seen s.chron).from_ e.num)

/-- Whether the Lookout watches an engine of a core (R143, R153): a queue that runs, unless it waits on an entry at or after the one an AXU
soft stop stands at, and a CPE with a command. -/
def State.watched (s : State) (c : CoreIx) (e : Eng) : Bool :=
  let k := s.core c
  !k.killed && (match e with
  | .cpe => k.cpe.outstanding != 0
  | .seq => k.seq.q.eff s.chron == .running && k.seq.halted.isNone
  | .axu => k.axu.q.eff s.chron == .running && k.axu.soft.isNone
  | .bke => k.bke.q.eff s.chron == .running
  | .vec => k.vec.q.eff s.chron == .running && !(k.behindStop && !s.waitsToken c .vec))

/-- The cycle of an engine's last progress or firing, that of the end of an IDLE whose count runs if later, and the last step fired (R143,
R270). -/
def Core.lookBase (k : Core) (e : Eng) : Nat × Nat :=
  match e with
  | .cpe => (k.cpe.look, k.cpe.lookStep)
  | e => (max (k.queue e).progress (k.queue e).idleEnd, (k.queue e).lookStep)

/-- The next enabled step after the one fired last, with its threshold (R143). -/
def nextStep (lkth fired : Nat) : Option (Nat × Nat) :=
  ([1, 2, 3].map fun i => (i, fld lkth (16 * i - 1) (16 * (i - 1)))).find? fun x => decide (fired < x.1) && x.2 != 0

/-- The next firing of the Lookout on an engine of a core: its cycle and step. -/
def State.lookout (s : State) (c : CoreIx) (e : Eng) : Option (Nat × Nat) :=
  match s.partOf c with
  | none => none
  | some p =>
    let q := s.part p
    if q.lkth = 0 ∨ q.runSlot.isNone ∨ q.switching ∨ q.halting.isSome ∨ ¬ s.watched c e then none
    else
      let (base, fired) := (s.core c).lookBase e
      (nextStep q.lkth.toNat fired).map fun x => (max (base + 4096 * x.2) s.chron, x.1)

/-- A firing to come: cycle, core, engine, step. -/
structure Look where
  t : Nat
  core : CoreIx
  eng : Eng
  stp : Nat
  deriving DecidableEq, Repr

/-- The first firing of the Lookout in the module. -/
def State.bestLook (s : State) : Option Look :=
  s.cores.foldl (fun a x =>
    if h : x.1 < 288 then
      [Eng.seq, .axu, .bke, .vec, .cpe].foldl (fun (a : Option Look) e =>
        match s.lookout ⟨x.1, h⟩ e, a with
        | none, a => a
        | some y, none => some ⟨y.1, ⟨x.1, h⟩, e, y.2⟩
        | some y, some z => if y.1 < z.t then some ⟨y.1, ⟨x.1, h⟩, e, y.2⟩ else some z) a
    else a) none

/-! ## What comes first -/

/-- The next thing to happen. -/
inductive Pick where
  | idle
  | occur (o : Occ) (rest : List Occ)
  | input (e : Ev) (rest : List Ev)
  | issue (x : Cand)
  | event (e : Ev) (rest : List Ev)
  | look (x : Look)
  deriving DecidableEq, Repr

/-- Whether an input is a transaction of the host. The module takes those of a cycle first: a status bit that any other input of the
cycle sets stays set when a write of the host clears it (R14). -/
def fromHost : Instr → Bool
  | .registerWrite _ _ _ _ _ | .hostMemoryRequest _ _ _ _ _ | .hostAtomicop _ _ _ _ _ _ _ _
  | .hostConfigurationRequest _ _ => true
  | _ => false

/-- The first event of a list whose instruction has a property, and the others. -/
def pullFirst (f : Instr → Bool) : List Ev → Option (Ev × List Ev)
  | [] => none
  | e :: r => if f e.instr then some (e, r) else (pullFirst f r).map fun x => (x.1, e :: x.2)

/-- The instruction a firing of the Lookout is. -/
def Look.instr (x : Look) : Instr :=
  match x.stp with
  | 1 => .lookoutT1 x.core x.eng
  | 2 => .lookoutT2 x.core x.eng
  | _ => .lookoutT3 x.core x.eng

/-- The earlier of two things with their cycles; the first at the same cycle. -/
def sooner (a b : Option (Nat × Pick)) : Option (Nat × Pick) :=
  match a, b with
  | none, y => y
  | some x, none => some x
  | some x, some y => if y.1 < x.1 then some y else some x

/-- The first input of the host, or the first from elsewhere, with its cycle. -/
def State.inputPick (s : State) (host : Bool) : Option (Nat × Pick) :=
  (pullFirst (fun i => fromHost i == host) s.inputs).map fun x => (max x.1.cycle s.chron, Pick.input x.1 x.2)

/-- Where a scheduled event stands among the issues of its cycle: an access of the AXU's generator at 0, a follow-on word of the BKE at 1,
the start of a CPE sector at 2, every other event at 3. -/
def eventRank : Instr → Nat
  | .accessGeneration => 0
  | .followOnIssue => 1
  | .sectorStart => 2
  | _ => 3

/-- The first scheduled event of a rank, with its cycle. -/
def State.eventPick (s : State) (r : Nat) : Option (Nat × Pick) :=
  (pullFirst (fun i => eventRank i == r) s.agenda).map fun x => (max x.1.cycle s.chron, Pick.event x.1 x.2)

/-- The first issue of given engines, with its cycle. -/
def State.issuePick (s : State) (es : List Eng) : Option (Nat × Pick) := (s.bestCand es).map fun x => (x.t, Pick.issue x)

/-- What may come next, in the order in which one cycle serves it (log 1): what the environment does, the inputs of the host, then what
takes tokens and ring lanes in the order of R139 (words of the SEQ and the AXU, accesses of the AXU's generator, words of the BKE and the
VEC, CPE sectors), the other inputs, the other events, the Lookout. A token taken in a cycle is so taken before one given in it (R181,
R185). -/
def State.picks (s : State) : List (Option (Nat × Pick)) :=
  [ (match s.occurs with
      | [] => none
      | o :: r => some (max o.cycle s.chron, Pick.occur o r)),
    s.inputPick true, s.issuePick [.seq, .axu], s.eventPick 0, s.eventPick 1, s.issuePick [.bke, .vec], s.eventPick 2, s.inputPick false,
    s.eventPick 3, s.bestLook.map fun x => (x.t, Pick.look x) ]

/-- The next thing to happen while the module runs. -/
def State.pick (s : State) : Pick :=
  match s.picks.foldl sooner none with
  | some x => x.2
  | none => .idle

/-- The module at an event's cycle, with the units it acts on made current. -/
def State.at_ (s : State) (e : Ev) : State :=
  { s with chron := max s.chron e.cycle, cur := e.core, curPart := e.part, curLink := e.link }

/-- The module at the cycle of an issue, with its engine made current and, inside an open loop, its word held in the
loop buffer (R332). -/
def State.atIssue (s : State) (x : Cand) : State :=
  let s := { s with chron := max s.chron x.t, cur := x.core, eng := x.eng, curPart := (s.partOf x.core).getD s.curPart }
  match x.word with
  | none => s
  | some w => s.upd x.core fun k =>
    let q := k.queue x.eng
    if q.loops.isEmpty ∨ q.lbuf.length ≤ q.bodyIx then k
    else k.setQueue x.eng { q with lbuf := q.lbuf.set q.bodyIx (some (BitVec.ofNat 32 w)) }

/-- The instruction a fetched word is: an unassigned encoding is an instruction of its own (R271). -/
def wordInstr (e : Eng) (w : Nat) : Instr :=
  match decode e w with
  | .ok i => i
  | .error _ => .unassignedEncoding (hdrOf w)

/-- An issue address beyond its section: hard fault 0x03 (R169, R172). -/
def State.beyond (s : State) (x : Cand) : State :=
  s.coreFault x.core x.eng.num 0x03 ((s.core x.core).queue x.eng).pc

/-! ## Freeze (R164) -/

/-- Helm clock cycles of a freeze after which fault 0x76 is raised: 32 ms at 1.4 GHz (R164). -/
def freezeLimit : Nat := 44800000

/-- Whether an event is the Helm's or the scan path's, which keep running under freeze (R164). -/
def helmEvent : Instr → Bool
  | .hcmdComplete | .bootComplete | .surveyCommandDone | .bmctlDone | .fwstage | .partapply | .warmrst | .emclear
  | .launchCheck _ _ | .emergencyConditionCleared | .thermalEmergency | .supplyEmergency | .quiesce | .commit | .bankToRow | .bankToPool
  | .keySlotWriteApply _ | .helmSchedule | .overlayLoad _ _ => true
  | _ => false

/-- The first event of the Helm that is due at a cycle of its clock. -/
def dueHelm (t : Nat) : List Ev → Option (Ev × List Ev)
  | [] => none
  | e :: r => if helmEvent e.instr && decide (e.cycle ≤ t) then some (e, r) else (dueHelm t r).map fun x => (x.1, e :: x.2)

/-- What happens next under the freeze wire: what the environment does, an arrived input, a due event of the Helm, the end of the
longest freeze, or one more cycle of the Helm's clock. -/
def State.pickFrozen (s : State) : Pick :=
  let t := s.chron + s.frozen
  let dueIn (host : Bool) : Option Pick := match pullFirst (fun i => fromHost i == host) s.inputs with
    | some x => if x.1.cycle ≤ t then some (.input x.1 x.2) else none
    | none => none
  let occ : Option Pick := match s.occurs with
    | o :: r => if o.cycle ≤ t then some (.occur o r) else none
    | [] => none
  match occ.or ((dueIn true).or (dueIn false)) with
  | some x => x
  | none => match dueHelm t s.agenda with
    | some x => .event x.1 x.2
    | none => .idle

/-! ## Placing a word -/

/-- A core with every queue stopped. -/
def Core.parked (k : Core) : Core :=
  issuers.foldl (fun k e => k.setQueue e { k.queue e with st := .stopped }) k

/-- The engine in whose section `decodeTableWord` finds a word: the first that assigns it. -/
def engineOf (w : Nat) : Eng :=
  match issuers.find? (fun e => match decode e w with
    | .ok _ => true
    | .error _ => false) with
  | some e => e
  | none => .seq

/-- The module with one instruction word placed at the start of its engine's section of core 0 and that queue about to
issue it, in a running context of partition 0 that holds cluster 0, with nothing else due: what the Helm's load and
start of a context would leave (R88, R89; log 3). -/
def State.placed (s : State) (w : Nat) : State :=
  let e := engineOf w
  let k := (s.core 0).parked
  let q : Queue := { st := .running, spanEnd := 4, base := s.chron, progress := s.chron }
  let k := { k with
    seq := { k.seq with hold := none, fix := none, haltWait := none, halted := none, heldTrap := none }
    ctl := { k.ctl with seqsz := 1, axusz := 1, bkesz := 1, vecsz := 1 }
    bke := { k.bke with stall := none }
    killed := false }
  let k := k.setQueue e q
  let p := s.part 0
  let slots := p.slots.set 0 { p.slots[0] with st := .run }
  { s with
    off := false
    frzCtl := false
    frzMsg := false
    hif := { s.hif with partmap := s.hif.partmap.set 0 0 }
    cores := tput (s.cores.map fun x => (x.1, x.2.parked)) 0 k
    parts := tput (s.parts.map fun x => (x.1, { x.2 with lkth := 0 })) 0
      { p with slots := slots, switching := false, halting := none, outgoing := none, lkth := 0 }
    memory := writeBytes s.memory (imemKey 0 (4096 * e.num)) (toBytes 4 w)
    agenda := []
    inputs := []
    occurs := [] }

end Sys2Proof.Machine
end

