-- ==== Sys2Proof/Machine/Legs.lean ====
section
/-! DEFINITION. Fixes: arrival (R129), completion and the selector (R130, R134 to R136), release (R131) and the fabric
tree (R133). -/

namespace Sys2Proof.Machine

open Host (Outcome)

/-! ## Groups -/

/-- The cores of a group of a partition (R128). -/
def State.grpCores (s : State) (p : PartIx) (g : GroupIx) : List CoreIx :=
  (s.coresOf p).filter fun c => if g.val < 48 then (clusterOf c).val == g.val else if g.val < 56 then stackOf c + 48 == g.val else true

/-- The clusters of a list of cores, each once. -/
def clustersOf (cs : List CoreIx) : List Nat := (List.range 48).filter fun i => cs.any fun c => (clusterOf c).val == i

/-- Release latency D (R128). -/
def releaseDelay (scope : Nat) : Nat := match scope with
  | 1 => 8 | 2 => 16 | _ => 48

/-! ## Messages -/

/-- Has the link controller offer a message to a peer link; one the link discards raises nothing (R60). -/
def State.linkMsg (s : State) (l : LinkIx) (mcode arg pay : Nat) : State :=
  (s.offer l { id := 0, msg := some (BitVec.ofNat 8 mcode, BitVec.ofNat 24 arg, BitVec.ofNat 32 pay) }).1

/-- Sends a message on a peer link for a partition; one the link discards raises 0x61 there (R60, R61). -/
def State.sendMsg (s : State) (p : PartIx) (l : LinkIx) (mcode arg pay : Nat) : State :=
  let (s, dropped) := s.offer l { id := 0, msg := some (BitVec.ofNat 8 mcode, BitVec.ofNat 24 arg, BitVec.ofNat 32 pay) }
  if dropped then s.partFault p 0x61 else s

/-- FXCFG fields STAGE, PTYPE, PARENT and NCHILD (R128). -/
def Part.fxStage (q : Part) : Nat := fld q.fxcfg.toNat 5 0
/-- See `Part.fxStage`. -/
def Part.fxType (q : Part) : Nat := fld q.fxcfg.toNat 7 6
/-- See `Part.fxStage`. -/
def Part.fxParent (q : Part) : Nat := fld q.fxcfg.toNat 13 8
/-- See `Part.fxStage`. -/
def Part.fxChildren (q : Part) : Nat := fld q.fxcfg.toNat 21 16

/-! ## Arrival (R129) -/

/-- Whether every engine of a core meets the conditions of arrival: queues at rest, words retired, commands complete,
accesses performed (R129). -/
def State.arrivalReady (s : State) (c : CoreIx) : Bool :=
  s.coreQuiet c && s.reqs.all fun r => !(r.core == c && decide (r.who < 5) && s.unperformed r.id)

/-- Whether an event is one that ends a cycle: the arrivals and misses, which look at the state the cycle leaves (log 1). -/
def endsCycle : Instr → Bool
  | .coreArrival | .dueCycleMiss _ _ => true
  | _ => false

/-- Whether another event of the current cycle is to come before an arrival is judged. -/
def State.cycleOpen (s : State) (f : Instr → Bool) : Bool := s.agenda.any fun e => decide (e.cycle ≤ s.chron) && !f e.instr

/-- Due cycle of a core that has arrived (R130). -/
def State.dueOf (s : State) (c : CoreIx) (arrived : Nat) : Nat :=
  if s.fixedLeg c then ((s.core c).ctl.due).getD arrived else arrived

/-- The leg and arrival cycle of a core that waits at a fix, once it has arrived. -/
def State.arrivalOf (s : State) (c : CoreIx) : Option (Nat × Nat) :=
  match (s.core c).seq.fix with
  | some f => f.arrived.map fun t => (f.leg, t)
  | none => none

/-- Whether every core of a group has arrived at the fix that starts leg n. -/
def State.allArrived (s : State) (cs : List CoreIx) (n : Nat) : Bool :=
  !cs.isEmpty && cs.all fun c => match s.arrivalOf c with
    | some (m, _) => m == n
    | none => false

/-- A core arrives at the fix of leg n; the fix completes at the greatest due cycle once the last core has (R130, R132). -/
def State.arrive (s : State) (c : CoreIx) (p : PartIx) (n : Nat) (d : LegDesc) : State :=
  let g := groupIx c d.scope
  let cs := s.grpCores p g
  let pc := (s.core c).seq.q.pc
  if s.fixClash c d.scope n ∨ (cs.any fun x => x != c && ((s.core x).seq.halted.isSome || (s.core x).seq.haltWait.isSome)) then
    s.coreFault c 0 0x43 pc
  else
    let s := s.upd c fun k => { k with seq := { k.seq with fix := k.seq.fix.map fun f => { f with leg := n, arrived := some s.chron } } }
    if s.allArrived cs n then
      let tc := cs.foldl (fun a x => max a (s.dueOf x (((s.arrivalOf x).map (·.2)).getD 0))) s.chron
      s.schedP tc p (.fixComplete p g)
    else s

/-- CORE_ARRIVAL: looks whether the core that waits at a fix has arrived, at the end of each cycle; at fabric scope its
writes on peer links are flushed first (R129, R256, R259). -/
def execCoreArrival (s : State) : Outcome State Fault Refusal :=
  let c := s.cur
  .next (match s.me.seq.fix, s.partOf c with
  | some { leg := n, arrived := none, since := _ }, some p =>
    match (s.part p).leg n with
    | none => s
    | some d =>
      let again (s : State) : State := s.schedC (s.chron + 1) c .coreArrival
      if s.preStopped c then s.stash c .coreArrival
      else if s.cycleOpen endsCycle then s.schedC s.chron c .coreArrival
      else if ¬ s.arrivalReady c then again s
      else if d.scope = 4 ∧ ¬ s.fixedLeg c ∧ (s.me.pipe.sentOn.any fun x => x.port != 48) then again (s.flushPorts c 0 7 s.me.seq.q.pc).1
      else s.arrive c p n d
  | _, _ => s)

/-- DUE_CYCLE_MISS: a core in a fixed leg that has not arrived by its due cycle raises 0x41 in that cycle (R130). -/
def execDueCycleMiss (core : CoreIx) (leg : BitVec 16) (s : State) : Outcome State Fault Refusal :=
  let k := s.core core
  let only : Instr → Bool
    | .dueCycleMiss _ _ => true
    | _ => false
  .next (
    if k.ctl.legno ≠ leg ∨ k.ctl.due ≠ some s.chron ∨ (s.arrivalOf core).isSome ∨ ¬ s.runs core then s
    else if s.cutCore core then s.stash core (.dueCycleMiss core leg)
    else if s.cycleOpen only then s.schedC s.chron core (.dueCycleMiss core leg)
    else s.coreFault core 0 0x41 k.seq.q.pc)

/-! ## The selector (R134 to R136) -/

/-- Meter of each cluster of a group with its last release: the cycles from its previous release to the arrival of its
last core; none before the first (R135). -/
def State.meterOf (s : State) (p : PartIx) (cs : List CoreIx) (cl : Nat) : Option Nat :=
  let last := (cs.filter fun c => (clusterOf c).val == cl).foldl (fun a c => max a (((s.arrivalOf c).map (·.2)).getD 0)) 0
  (tget (s.part p).lastRel cl).map fun t => last - t

/-- Balance bucket of meters against the thresholds (R135). -/
def bucketOf (ms : List Nat) (d : LegDesc) : Nat :=
  let mx := ms.foldl max 0
  let mn := ms.foldl min mx
  let i := if mx = 0 then 0 else 1024 * (mx - mn) / mx
  if i < d.bt1 then 0 else if i < d.bt2 then 1 else if i < d.bt3 then 2 else 3

/-- The balance bucket b of a fix (R135). -/
def State.balance (s : State) (p : PartIx) (cs : List CoreIx) (d : LegDesc) : Nat :=
  let cls := clustersOf cs
  let cut := cls.any fun c => (s.part p).cutUnits.contains c
  let meters := cls.map fun c => (c / 6, s.meterOf p cs c)
  if d.scope = 1 ∨ cut ∨ meters.any (fun m => m.2.isNone) then 0
  else
    let ms := meters.map fun m => (m.1, m.2.getD 0)
    let units := if d.scope = 2 then ms.map (·.2)
      else ((List.range 8).filter fun st => ms.any fun m => m.1 == st).map fun st =>
        (ms.filter fun m => m.1 == st).foldl (fun a m => max a m.2) 0
    if units.length < 2 then 0 else bucketOf units d

/-- Health class of the columns of a group (R134). -/
def State.health (s : State) (cs : List CoreIx) : Nat :=
  ofBool (cs.any fun c => (s.col c).half) + 2 * ofBool (cs.any fun c => (s.col c).hot)

/-- Whether a selection row matches the keys (R125, R136). -/
def rowMatches (w : BitVec 64) (sz h p b : Nat) : Bool :=
  w.getLsbD 31 && w.getLsbD sz && w.getLsbD (16 + h) && w.getLsbD (20 + p) && w.getLsbD (24 + b)

/-- The course a leg's rows choose (R136). -/
def LegDesc.select (d : LegDesc) (sz h p b : Nat) : Option Nat :=
  (d.sel.find? fun w => rowMatches w sz h p b).map fun w => fld w.toNat 30 28

/-! ## Release (R131) -/

/-- A queue of an engine pointed at its course entry: one at rest runs from it (R129, R131). -/
def Queue.point (q : Queue) (ent span t : Nat) : Queue :=
  let q := { q with pc := (ent : Int), entry := (ent : Int), spanEnd := (ent + span : Nat), loops := [], idleEnd := 0 }
  if q.st = .rest then { q with st := .running, base := t, notBefore := 0, progress := t, lookStep := 0 }.settle else q

/-- A core released into course c of leg n at cycle t (R131). -/
def Core.released (k : Core) (n c h t : Nat) (fixed : Bool) (r : CourseRec) : Core :=
  let q := k.seq.q
  { k with
    ctl := { k.ctl with
      legno := BitVec.ofNat 16 n
      course := BitVec.ofNat 3 c
      health := BitVec.ofNat 2 h
      tRel := t
      due := if fixed then some (t + r.leglen) else none }
    seq := { k.seq with
      fix := none
      noTakeAt := none
      q := { q with pc := (r.seqent : Int), base := t, notBefore := 0, st := .running } }
    axu := { k.axu with q := k.axu.q.point r.axuent r.axuspan t }
    bke := { k.bke with q := k.bke.q.point r.bkeent r.bkespan t }
    vec := { k.vec with q := k.vec.q.point r.vecent r.vecspan t } }

/-- Releases the cores of a group into a course at the current cycle: R131, the due cycles of R130, PROGRESS of R81, the
meters' start of R135. -/
def State.releaseCores (s : State) (p : PartIx) (f : FixDone) (d : LegDesc) : State :=
  let t := s.chron
  let r := d.crs.getD f.course { leglen := 0, seqent := 0, axuent := 0, axuspan := 0, bkeent := 0, bkespan := 0, vecent := 0, vecspan := 0 }
  let cs := s.grpCores p f.grp
  let s := cs.foldl (fun s c =>
    let s := s.upd c fun k => k.released f.leg f.course f.health t d.fixed r
    if d.fixed then s.schedC (t + r.leglen) c (.dueCycleMiss c (BitVec.ofNat 16 f.leg)) else s) s
  let cls := clustersOf cs
  let first := match (s.coresOf p).head? with
    | some c => cs.contains c
    | none => false
  s.updPart p fun q =>
    let q := { q with
      lastRel := cls.foldl (fun l c => tput l c t) q.lastRel
      cutUnits := q.cutUnits.filter fun c => !cls.contains c
      fixes := q.fixes.filter fun x => x.grp != f.grp }
    match q.runSlot with
    | some j => if first then q.updSlot j fun x => { x with leg := BitVec.ofNat 16 f.leg, course := BitVec.ofNat 3 f.course } else q
    | none => q

/-- Sends the release of a fabric fix to the children of a partition (R133). -/
def State.sendReleases (s : State) (p : PartIx) (f : FixDone) : State :=
  let q := s.part p
  let s := (List.finRange 48).foldl (fun s l => if q.fxchl.getLsb l then s.sendMsg p l 0x21 (f.leg + 2 ^ 16 * f.course) 0 else s) s
  (List.finRange 48).foldl (fun (s : State) x =>
    if q.fxchp.getLsb x then s.schedP s.chron x (.fixrel (.part p) x (BitVec.ofNat 16 f.leg) (BitVec.ofNat 3 f.course)) else s) s

/-- What a release of a completed fix does (R131, R133, R145): the partition epoch advances at device and fabric scope. -/
def State.releaseFix (s : State) (p : PartIx) (f : FixDone) : State :=
  match (s.part p).leg f.leg with
  | none => s
  | some d =>
    let s := s.releaseCores p f d
    let s := if 3 ≤ d.scope then
        let s := s.updPart p fun q => q.updSlot q.stampSlot fun x => { x with epoch := x.epoch + 1, tkseq := 0 }
        if s.replaying p then s.schedP s.chron p .replayInjection else s
      else s
    if f.fabric then
      (s.updPart p fun q => { q with awaiting := none, sentArr := false, relHeld := none }).sendReleases p f
    else s

/-! ## Fabric fixes (R133) -/

/-- Goes on with a fabric fix that is complete locally: with the children's arrivals held it counts them and releases, as
the root, or reports to its parent (R133). -/
def State.tryFabric (s : State) (p : PartIx) : State :=
  let q := s.part p
  match q.awaiting with
  | none => s
  | some (n, tc) =>
    let mine := q.arrHeld.filter fun a => a.leg == n
    if q.sentArr ∨ mine.length < q.fxChildren then s
    else
      let cnt := 1 + mine.foldl (fun a x => a + x.cnt) 0
      let s := s.updPart p fun q => { q with sentArr := true, arrHeld := q.arrHeld.filter fun a => a.leg != n }
      match q.fxType with
      | 0 =>
        if cnt ≠ q.fxtot.toNat then s.partFault p 0x47
        else
          let t := mine.foldl (fun a x => max a x.at_) tc + 48
          if q.fixes.any (fun f => f.fabric && f.held) then s.updPart p fun q => { q with relHeld := some (n, 0) }
          else s.schedP t p (.fixRelease p 56)
      | 1 => if h : q.fxParent < 48 then s.sendMsg p ⟨q.fxParent, h⟩ 0x20 (n + 2 ^ 16 * q.fxStage) cnt else s
      | _ => if h : q.fxParent < 48 then
          s.schedP s.chron ⟨q.fxParent, h⟩
            (.fixarr (.part p) ⟨q.fxParent, h⟩ (BitVec.ofNat 16 n) (BitVec.ofNat 6 q.fxStage) (BitVec.ofNat 32 cnt))
        else s

/-- Whether the switched-out context of a partition has reported its arrivals at the fabric fix of a leg and waits for the release
(R133, R160). -/
def Part.awayWaits (q : Part) (leg : Nat) : Bool :=
  q.preSlot.isSome && q.shadow.any fun h => h.sentArr && h.awaiting.any fun x => x.1 == leg

/-- Whether a fabric arrival of a partition goes to a context switched out: none runs, or the running one awaits no fabric fix and that
one awaits this leg's (R160). -/
def Part.away (q : Part) (leg : Nat) : Bool :=
  q.preSlot.isSome && (match q.shadow with
    | some h => q.runSlot.isNone || (q.awaiting.isNone && h.awaiting.any fun x => x.1 == leg)
    | none => false)

/-- A fabric arrival: held, and compared with the leg awaited (R133). -/
def State.fixArr (s : State) (src : FixPeer) (p : PartIx) (leg cnt : Nat) : State :=
  let a : HeldArr := { src := src, leg := leg, cnt := cnt, at_ := s.chron }
  let q := s.part p
  if q.away leg then
    if q.shadow.any (fun h => h.awaiting.any fun x => x.1 != leg) then s.partFault p 0x47
    else s.updPart p fun q => { q with shadow := q.shadow.map fun h => { h with arrHeld := h.arrHeld ++ [a] } }
  else if q.awaiting.any fun x => x.1 != leg then s.partFault p 0x47
  else (s.updPart p fun q => { q with arrHeld := q.arrHeld ++ [a] }).tryFabric p

/-- A fabric release: compared with the leg awaited, it schedules the local release at t_f + 48; one that comes while the
context is switched out or stopping is held (R133, R160). -/
def State.fixRel (s : State) (p : PartIx) (leg course : Nat) : State :=
  let q := s.part p
  let waits (x : Option (Nat × Nat)) (sent : Bool) : Bool := sent && x.any fun y => y.1 == leg
  let log (s : State) (fs : List FixDone) : State :=
    match fs.find? (fun f => f.fabric) with
    | some f => s.logRecord p 6 8 0 0x1FF (leg + 2 ^ 16 * f.course + 2 ^ 19 * course + 2 ^ 22) []
    | none => s
  if q.awayWaits leg ∧ ¬ waits q.awaiting q.sentArr ∧ q.fxType ≠ 0 then
    (log s ((q.shadow.map (·.done)).getD [])).updPart p fun q =>
      { q with shadow := q.shadow.map fun h => { h with relHeld := some (leg, course) } }
  else if ¬ waits q.awaiting q.sentArr ∨ q.fxType = 0 then s.partFault p 0x47
  else if q.fixes.any fun f => f.fabric && f.held then log (s.updPart p fun q => { q with relHeld := some (leg, course) }) q.fixes
  else (log s q.fixes).schedP (s.chron + 48) p (.fixRelease p 56)

/-- FIXARR (R133). -/
def execFixarr (src : FixPeer) (p : PartIx) (leg : BitVec 16) (_stage : BitVec 6) (cnt : BitVec 32) (s : State) :
    Outcome State Fault Refusal := .next (s.fixArr src p leg.toNat cnt.toNat)

/-- FIXREL (R133). -/
def execFixrel (_src : FixPeer) (p : PartIx) (leg : BitVec 16) (course : BitVec 3) (s : State) : Outcome State Fault Refusal :=
  .next (s.fixRel p leg.toNat course.toNat)

/-! ## Completion (R130) -/

/-- Whether a core is clean for a checkpoint (R168). -/
def State.coreClean (s : State) (c : CoreIx) : Bool :=
  let k := s.core c
  s.coreQuiet c && k.axu.ldq.isEmpty && k.axu.stqA.isEmpty && k.axu.stqD.isEmpty && k.ctl.tok.toList.all (· == 0)
    && k.ctl.ltc.toList.all (· == 0) && (s.col c).allClosed s.chron && k.bke.bucket.toList.all (· == 0)
    && k.bke.work.toList.all (fun l => l == {}) && k.bke.vis.toList.all (fun l => l == {})

/-- Whether a checkpoint request holds a fix (R167). -/
def Part.ckMatches (q : Part) (d : LegDesc) (n : Nat) : Bool := q.ckreq && decide (3 ≤ d.scope) && (q.ckleg == 0 || q.ckleg.toNat == n)

/-- The course of a completed fix: the recorded one in replay, else the selector's (R136). -/
def State.chooseCourse (s : State) (p : PartIx) (cs : List CoreIx) (n : Nat) (d : LegDesc) : Option Nat × State :=
  let rec_ := if s.replaying p then s.nextRecord p fun r => r.kind == 8 && fld r.arg 15 0 == n else none
  match rec_ with
  | some r => (some (fld r.arg 18 16), s.consumeRecord p r)
  | none =>
    let sz := cs.foldl (fun a c => max a (s.core c).ctl.sizecls.toNat) 0
    (d.select sz (s.health cs) (s.part p).pwrcls.toNat (s.balance p cs d), s)

/-- Records the meters of the clusters of a group and of their stacks, for SXCLU and SXSTK (R135): units 0 to 47 are
clusters, 48 to 55 stacks. -/
def State.noteMeters (s : State) (p : PartIx) (cs : List CoreIx) : State :=
  let ms := (clustersOf cs).filterMap fun c => (s.meterOf p cs c).map fun m => (c, min m 0xFFFFFFFF)
  let sts := (List.range 8).filter fun st => ms.any fun m => m.1 / 6 == st
  let top (st : Nat) : Nat := (ms.filter fun m => m.1 / 6 == st).foldl (fun a m => max a m.2) 0
  let l := sts.foldl (fun l st => tput l (48 + st) (top st)) s.hif.sextant
  { s with hif := { s.hif with sextant := ms.foldl (fun l m => tput l m.1 m.2) l } }

/-- The cycle in which a fix starts: that of the first FIX issued for it in its group (R40; log 65). -/
def State.fixStart (s : State) (cs : List CoreIx) : Nat :=
  cs.foldl (fun a c => match (s.core c).seq.fix with
    | some f => min a f.since
    | none => a) s.chron

/-- FIX_COMPLETE: the pending refresh period changes set before the fix started apply, the keys are taken and a course is chosen or 0x44 raised; the
release is scheduled, held for a pre-emption or a checkpoint, or left to the fabric tree (R130, R133, R161, R167). -/
def State.fixDone (s : State) (p : PartIx) (g : GroupIx) : State :=
  let cs := s.grpCores p g
  match cs.head? with
  | none => s
  | some c0 => match s.arrivalOf c0 with
    | none => s
    | some (n, _) => match (s.part p).leg n with
      | none => s
      | some d =>
        if groupIx c0 d.scope ≠ g ∨ ¬ s.allArrived cs n ∨ ¬ s.runs c0 ∨ (s.part p).halting.isSome
            ∨ (s.part p).fixes.any (fun f => f.grp == g) ∨ cs.any (fun c => s.cutCore c) then s
        else
          let start := s.fixStart cs
          let s := cs.foldl (fun s c => if (s.col c).hotAt < start then s.hotChange c else s) s
          let h := s.health cs
          match s.chooseCourse p cs n d with
          | (none, s) => s.partFault p 0x44
          | (some c, s) =>
            let s := s.noteMeters p cs
            let fab := d.scope == 4
            let ck := (s.part p).ckMatches d n
            let held := ck || (s.part p).outgoing.isSome
            let f : FixDone := { grp := g, leg := n, course := c, health := h, fabric := fab, held := held }
            let root := (s.part p).fxType == 0
            let s := s.updPart p fun q => { q with fixes := q.fixes ++ [f] }
            let s := if fab && !root then s
              else s.logRecord p 6 8 0 0x1FF (n + 2 ^ 16 * c + (if fab then 2 ^ 22 else 0)) []
            let s := if fab then
                let wrong := (s.part p).arrHeld.any fun a => a.leg != n
                let s := s.updPart p fun q => { q with awaiting := some (n, s.chron), sentArr := false }
                if wrong then s.partFault p 0x47 else s.tryFabric p
              else if held then s
              else s.schedP (s.chron + releaseDelay d.scope) p (.fixRelease p g)
            if ¬ ck then s
            else match (s.part p).runSlot, (s.part p).outgoing with
              | none, _ => s
              | some _, some x => s.updPart p fun q =>
                  { q with outgoing := some { x with sethold := true, checkpoint := true }, ckreq := false, ckhleg := BitVec.ofNat 16 n }
              | some j, none =>
                let x : Preempt :=
                  { slot := j.val, at_ := s.chron, deferred := (s.coresOf p).map (·.val), sethold := true, checkpoint := true }
                (s.updPart p fun q => { q with outgoing := some x, ckreq := false, ckhleg := BitVec.ofNat 16 n }).schedP
                  s.chron p .preemptionComplete

/-- FIX_COMPLETE (R130). -/
def execFixComplete (p : PartIx) (grp : GroupIx) (s : State) : Outcome State Fault Refusal := .next (s.fixDone p grp)

/-- FIX_RELEASE: the group of a completed fix is released (R131); inputs recorded before it are injected first in replay
(R147). -/
def execFixRelease (p : PartIx) (grp : GroupIx) (s : State) : Outcome State Fault Refusal :=
  .next (match (s.part p).fixes.find? (fun f => f.grp == grp && !f.held) with
  | none => s
  | some f =>
    let due := s.replaying p && (s.nextRecord p fun r => decide (2 ≤ r.kind) && decide (r.kind ≤ 5) && decide (r.epoch ≤ (s.part p).stamped.epoch.toNat)).isSome
    if due && 3 ≤ (((s.part p).leg f.leg).map (·.scope)).getD 0 then
      (s.schedP s.chron p .replayInjection).schedP s.chron p (.fixRelease p grp)
    else s.releaseFix p f)

end Sys2Proof.Machine
end

