-- ==== Sys2Proof/Machine/Migrate.lean ====
section
/-! DEFINITION. The migration engine (R113 to R118), shoot-down and preload (R111, R112), and bank modes (R98). -/

namespace Sys2Proof.Machine

open Host (Outcome)

/-! ## Frames (R114, R118) -/

/-- Bytes of a page. -/
def pageSize (big : Bool) : Nat := if big then 2 ^ 21 else 2 ^ 16

/-- The 64 KiB units of a frame. -/
def frameUnits (pa : Nat) (big : Bool) : List Nat := (List.range (pageSize big / 2 ^ 16)).map fun i => pa + i * 2 ^ 16

/-- Whether a bank takes new pages: POOL or PENDPOOL, and no change of its mode in progress (R118, R98). -/
def State.bankPlaces (s : State) (c : CoreIx) (b : Nat) : Bool :=
  let st := s.bankState c.val b
  (st == 1 || st == 3) && !(s.ms.bmBusy && s.ms.bmCol.toNat == c.val && s.ms.bmBank.toNat == b)

/-- Whether a frame is free and whole: of a bank that takes pages, aligned, within ROWMAX (R103, R114). -/
def State.frameFree (s : State) (pa : Nat) (big : Bool) : Bool :=
  decide (pa < 2 ^ 38) && pa % pageSize big == 0 && (if h : fld pa 37 29 < 288 then
    let c : CoreIx := ⟨fld pa 37 29, h⟩
    s.bankPlaces c (fld pa 28 24) && decide (fld (pa + pageSize big - 1) 23 13 ≤ (s.col c).rowmax.toNat)
      && (frameUnits pa big).all fun u => !s.mig.frames.contains u
  else false)

/-- The free frames of a bank, by its number 32 × column + bank, lowest first. -/
def State.freeFrames (s : State) (bank : Nat) (big : Bool) : List Nat :=
  ((List.range (2 ^ 24 / pageSize big)).map fun i => bank * 2 ^ 24 + i * pageSize big).filter fun pa => s.frameFree pa big

/-- The placement ring of a stack: its banks in POOL or PENDPOOL by column and bank (R118). -/
def State.placementRing (s : State) (stack : Nat) : List Nat :=
  (List.range (36 * 32)).filterMap fun i =>
    let n := stack * 36 * 32 + i
    if h : n / 32 < 288 then (if s.bankPlaces ⟨n / 32, h⟩ (n % 32) then some n else none) else none

/-- Places a page: the first bank after the last one used with a free frame of its size (R118). -/
def State.place (s : State) (stack : Nat) (big : Bool) : Option (Nat × State) :=
  let ring := s.placementRing stack
  let order := match tget s.mig.ring stack with
    | some l => (ring.filter fun b => decide (l < b)) ++ ring.filter fun b => decide (b ≤ l)
    | none => ring
  match order.find? (fun b => !(s.freeFrames b big).isEmpty) with
  | none => none
  | some b =>
    let fs := s.freeFrames b big
    let (ix, s) := s.draw
    some (fs.getD (Config.framePick ix % fs.length) 0, { s with mig := { s.mig with ring := tput s.mig.ring stack b } })

/-- Marks a frame taken. -/
def State.takeFrame (s : State) (pa : Nat) (big : Bool) : State :=
  { s with mig := { s.mig with frames := s.mig.frames ++ frameUnits pa big } }

/-- Marks a frame free. -/
def State.freeFrame (s : State) (pa : Nat) (big : Bool) : State :=
  { s with mig := { s.mig with frames := s.mig.frames.filter fun u => !(frameUnits pa big).contains u } }

/-- Whether any frame of a bank is allocated (R38, R98). -/
def State.bankUsed (s : State) (c : CoreIx) (b : Fin 32) : Bool :=
  s.mig.frames.any fun u => u / 2 ^ 24 == c.val * 32 + b.val

/-- Memory with n bytes from a key on set to 0. -/
def zeroRange (m : List Host.Cell) (a n : Nat) : List Host.Cell := m.filter fun x => decide (x.1 < a) || decide (a + n ≤ x.1)

/-! ## Completions (R113, R117) -/

/-- The 16 bytes of a completion record: status 0 OK, 1 NOMAP, 2 PINNED, 3 NOSPACE, 4 BADARG, 5 FAULT (R117). -/
def mgRecord (id status len pa : Nat) : List Byte := toBytes 8 (putF 0 16 id + putF 16 8 status + putF 32 32 len) ++ toBytes 8 pa

/-- Writes a completion record, or holds it while the ring is full (R113). -/
def State.mgWrite (s : State) (r : List Byte) : State :=
  let m := s.mig
  let size := 2 ^ (6 + m.cqsz.toNat)
  if (m.cqtail - m.cqhead).toNat = size then { s with mig := { m with held := m.held ++ [r] } }
  else
    let s := s.paWrite (m.cqbase.toNat + m.cqtail.toNat % size * 16) r
    let s := { s with mig := { s.mig with cqtail := m.cqtail + 1 } }
    if m.cqwb = 0 then s else s.hostPost m.cqwb.toNat (toBytes 4 (m.cqtail + 1).toNat)

/-- Ends the command at hand with its completion, none for a promotion, and goes on (R113, R115). -/
def State.mgEnd (s : State) (c : MgCmd) (status len pa : Nat) : State :=
  let s := { s with mig := { s.mig with
    busy := false
    moving := none
    fifo := if c.promo then s.mig.fifo else s.mig.fifo.drop 1
    promos := if c.promo then s.mig.promos.drop 1 else s.mig.promos } }
  (if c.promo then s else s.mgWrite (mgRecord c.id.toNat status len pa)).migPump

/-- MIGRATION_GO: pushes MGCMD to MGLIM, or sets ERR while 32 are queued or executing (R113). -/
def State.mgGo (s : State) : State :=
  let m := s.mig
  if 32 ≤ m.fifo.length then { s with mig := { m with err := true } }
  else
    let w := m.cmd.toNat
    let c : MgCmd :=
      { op := BitVec.ofNat 4 w, part := BitVec.ofNat 6 (fld w 9 4), sz := bitAt w 10, dest := BitVec.ofNat 3 (fld w 13 11),
        id := BitVec.ofNat 16 (fld w 31 16), ia := m.ia, dst := m.dst, lim := m.lim }
    ({ s with mig := { m with fifo := m.fifo ++ [c] } }).migPump

/-- MIGRATION_GO (R113). -/
def execMigrationGo (s : State) : Outcome State Fault Refusal := .next s.mgGo

/-- MGCQHEAD_WRITE: frees ring space, a held completion is written and the engine goes on; a write beyond MGCQTAIL is
ignored (R113). -/
def State.mgHead (s : State) (v : BitVec 32) : State :=
  let m := s.mig
  if (m.cqtail - m.cqhead).toNat < (v - m.cqhead).toNat then s
  else
    let s := { s with mig := { m with cqhead := v, held := [] } }
    (m.held.foldl (fun s r => s.mgWrite r) s).migPump

/-- MGCQHEAD_WRITE (R113). -/
def execMgcqheadWrite (v : BitVec 32) (s : State) : Outcome State Fault Refusal := .next (s.mgHead v)

/-- ALLOC: takes and zero-fills a frame of the placement ring or the explicit one; an operation the engine does not know
completes as BADARG (R113, R114), and so does an ALLOC with DEST 2 to 4, for which the spec defines no allocation (DESIGN CHOICE, log
68). -/
def execAlloc (s : State) : Outcome State Fault Refusal :=
  .next (match s.mig.fifo with
  | [] => s
  | c :: _ =>
    let done (s : State) (pa : Nat) : State :=
      (({ s with memory := zeroRange s.memory pa (pageSize c.sz) }).takeFrame pa c.sz).mgEnd c 0 0 pa
    if c.op ≠ 1 then s.mgEnd c 4 0 0
    else match c.dest.toNat with
      | 0 => (match s.place (c.dst.toNat % 8) c.sz with
        | some (pa, s) => done s pa
        | none => s.mgEnd c 3 0 0)
      | 1 => if s.frameFree c.dst.toNat c.sz then done s c.dst.toNat else s.mgEnd c 4 0 0
      | _ => s.mgEnd c 4 0 0)

/-- FREE: clears the frame at DST in the bitmap (R114). -/
def execFree (s : State) : Outcome State Fault Refusal :=
  .next (match s.mig.fifo with
  | [] => s
  | c :: _ => (s.freeFrame c.dst.toNat c.sz).mgEnd c 0 0 c.dst.toNat)

/-! ## Invalidation (R112) -/

/-- Whether a page at an intermediate address meets an invalidation of `n` bytes from a base on. -/
def meetsRange (base size a n : Nat) : Bool := decide (base < a + n) && decide (a < base + size)

/-- Removes the pinned and cached translations of a partition: those in a range, or all of them (R107, R112). The ATS cache
is not kept by intermediate address; all its entries of the partition go. -/
def State.invalidate (s : State) (p : Nat) (all : Bool) (a n : Nat) : State :=
  { s with ms := { s.ms with
    pinned := s.ms.pinned.filter fun x => !(x.part == p && (all || meetsRange x.base (pageSize x.big) a n))
    ats := s.ms.ats.filter fun x => x.2.1 != p } }

/-- Whether an access translated through an old entry is still on its way: one sent to the host before the request number
given (R112). -/
def State.oldAccess (s : State) (p : Nat) (all : Bool) (a n bound : Nat) : Bool :=
  s.reqs.any fun r => r.part.map (·.val) == some p && r.sent == some 48 && !r.done && decide (r.id < bound)
    && (all || meetsRange r.ia r.n a n)

/-- Fields of SDCTL: partition, ALL, page size, pages (R111). -/
def sdFields (c : BitVec 24) : Nat × Bool × Bool × Nat := (fld c.toNat 5 0, c.getLsb 6, c.getLsb 7, fld c.toNat 23 9 + 1)

/-- The operation at hand: as latched at its GO. -/
def MemSide.op (m : MemSide) : BitVec 56 × BitVec 24 := match m.sdRun with
  | some x => (x.1, x.2.1)
  | none => (m.sdia, m.sdctl)

/-- The first byte and the length of the pages of an operation. -/
def sdRange (ia : BitVec 56) (c : BitVec 24) : Nat × Nat :=
  let (_, _, big, n) := sdFields c
  (ia.toNat / pageSize big * pageSize big, pageSize big * n)

/-- INVAL: the named pages' entries are removed everywhere (R112). -/
def execInval (s : State) : Outcome State Fault Refusal :=
  let (ia, c) := s.ms.op
  let (p, all, _, _) := sdFields c
  let (a, n) := sdRange ia c
  let s := s.invalidate p all a n
  let (lat, s) := s.drawWalk
  .next (({ s with ms := { s.ms with sdBusy := true, sdRun := some (ia, c, s.nextId) } }).sched (s.chron + lat) .shootdownDone)

/-- Why a walk that pins a page fails, if it does: a fault of it, of which 0x74 is a machine check, PIN = 0 or MIG = 1 (R37, R103,
R111). -/
def State.pinFails (s : State) (p : PartIx) (a : Nat) (e leafAt lvl : Nat) : Option Nat :=
  if ¬ bitAt e 7 ∨ bitAt e 8 then some 0
  else if leafLoc e = 2 then none
  else match s.leafAnswer p false a .read false e leafAt lvl with
    | .fault code _ _ => some code
    | _ => none

/-- Pins the pages of a PRELOAD one after another up to the first failure; a walk that meets a failed bank is a machine check besides
(R37, R111). Pinned entries are the region controllers': a page outside region 0x0 has none, and fails (DESIGN CHOICE, log 68). -/
def State.pinPages (s : State) (p : PartIx) (z : Nat) : Nat → Nat → State × Bool
  | 0, _ => (s, true)
  | n + 1, a =>
    let failed (code : Nat) : State × Bool := (if code = 0x74 then s.partFault p 0x74 else s, false)
    if 2 ^ 52 ≤ a then (s, false)
    else match s.findLeaf p false a with
    | .error (code, _, _) => failed code
    | .ok (e, at_, lvl) =>
      let big := lvl == 2
      let base := a / pageSize big * pageSize big
      let held := (s.ms.pinned.filter fun x => fld x.base 23 21 == fld a 23 21).length
      let rest := s.ms.pinned.filter fun x => !(x.part == p.val && x.base == base && x.big == big)
      match s.pinFails p a e at_ lvl with
      | some code => failed code
      | none =>
      if 1024 ≤ held then (s, false)
      else
        let pin : Pin := { part := p.val, base := base, big := big, leaf := e }
        ({ s with ms := { s.ms with pinned := rest ++ [pin] } }).pinPages p z n (a + z)

/-- PRELOAD: walks and pins each page, setting ERR at the first failure (R111). -/
def execPreload (s : State) : Outcome State Fault Refusal :=
  let (ia, c) := s.ms.op
  let (p, all, big, n) := sdFields c
  let s := { s with ms := { s.ms with sdBusy := true, sdRun := some (ia, c, 0) } }
  .next (if all then { s with ms := { s.ms with sdErr := true, sdBusy := false, sdRun := none } }
    else
      let (s, ok) := if h : p < 48 then s.pinPages ⟨p, h⟩ (pageSize big) n (sdRange ia c).1 else (s, false)
      let s := if ok then s else { s with ms := { s.ms with sdErr := true } }
      let (lat, s) := s.drawWalk
      s.sched (s.chron + lat) .shootdownDone)

/-- SHOOTDOWN_DONE: the operation completes, once every access translated through an old entry has been performed, and
SDDONE increments (R111, R112). -/
def execShootdownDone (s : State) : Outcome State Fault Refusal :=
  .next (match s.ms.sdRun with
  | none => s
  | some (ia, c, bound) =>
    let (p, all, _, _) := sdFields c
    let (a, n) := sdRange ia c
    if s.oldAccess p all a n bound then s.sched (s.chron + 1) .shootdownDone
    else { s with ms := { s.ms with sdBusy := false, sdRun := none, sddone := s.ms.sddone + 1 } })

/-! ## MOVE (R115, R116) -/

/-- The class of a 4 KiB sector of a page: the smallest that holds it (R116). -/
def sectorClass (bs : List Byte) : Nat :=
  let z := ((List.range 512).filter fun i => ofBytes ((bs.drop (8 * i)).take 8) != 0).length
  if z = 0 then 0 else (([1, 2, 3].find? fun c => decide (64 + 8 * z ≤ 1024 * c)).getD 4)

/-- What is stored of a sector (R116). -/
def sectorImage (bs : List Byte) : List Byte :=
  let c := sectorClass bs
  if c = 0 then []
  else if c = 4 then bs
  else
    let ds := (List.range 512).map fun i => (bs.drop (8 * i)).take 8
    let bitmap := ((List.range 512).zip ds).foldl (fun a x => if ofBytes x.2 = 0 then a else a + 2 ^ x.1) 0
    let body := toBytes 64 bitmap ++ (ds.filter fun d => ofBytes d != 0).flatten
    body ++ List.replicate (1024 * c - body.length) 0

/-- The sectors of a page. -/
def sectorsOf (bs : List Byte) : List (List Byte) := (List.range (bs.length / 4096)).map fun i => (bs.drop (4096 * i)).take 4096

/-- The compressed image of a page (R116). -/
def compressPage (bs : List Byte) : List Byte :=
  let ss := sectorsOf bs
  let dir := toBytes (ss.length / 2) (((List.range ss.length).zip ss).foldl (fun a x => a + sectorClass x.2 * 2 ^ (4 * x.1)) 0)
  dir ++ List.replicate (1024 - dir.length) 0 ++ (ss.map sectorImage).flatten

/-- The 4,096 bytes of a sector stored with a class from what is stored of it (R116). -/
def expandSector (c : Nat) (bs : List Byte) : List Byte :=
  if c = 0 then List.replicate 4096 0
  else if 4 ≤ c then (bs ++ List.replicate 4096 0).take 4096
  else
    let bitmap := ofBytes (bs.take 64)
    ((List.range 512).foldl (fun (a : List (List Byte) × Nat) i =>
      if bitAt bitmap i then (((bs.drop (64 + 8 * a.2)).take 8) :: a.1, a.2 + 1) else (List.replicate 8 0 :: a.1, a.2)) ([], 0)).1.reverse.flatten

/-- The page of a compressed image (R116). -/
def expandPage (m : List Host.Cell) (a size : Nat) : List Byte :=
  let n := size / 4096
  ((List.range n).foldl (fun (x : List (List Byte) × Nat) i =>
    let c := fld (readNat m (a + i / 2) 1) (4 * (i % 2) + 3) (4 * (i % 2))
    (expandSector c (readBytes m x.2 (1024 * c)) :: x.1, x.2 + 1024 * c)) ([], a + 1024)).1.reverse.flatten

/-- The new address of a page under MOVE, with a pool frame taken; or the status that refuses it (R115): of an explicit frame NOSPACE
when any part of it is taken. `loc` is the source's LOC. -/
def State.moveDest (s : State) (c : MgCmd) (loc : Nat) (e : Nat) : Except Nat (Nat × State) :=
  let d := c.dst.toNat
  let pool (pa : Nat) (s : State) : Except Nat (Nat × State) := .ok (pa, s.takeFrame pa c.sz)
  match c.dest.toNat with
  | 0 => (match s.place (fld c.ia.toNat 23 21) c.sz with
    | some (pa, s) => pool pa s
    | none => .error 3)
  | 1 =>
    if loc = 0 ∧ leafAddr e = d then .error 4
    else if s.frameFree d c.sz then pool d s
    else .error (if (frameUnits d c.sz).any s.mig.frames.contains then 3 else 4)
  | 2 =>
    if (loc = 1 ∧ leafAddr e = d) ∨ d % pageSize c.sz ≠ 0 ∨ s.paKind d ≠ .lpddr ∨ s.paKind (d + pageSize c.sz - 1) ≠ .lpddr then .error 4
    else .ok (d, s)
  | 3 =>
    if (loc = 2 ∧ leafAddr e = d) ∨ d % 1024 ≠ 0 ∨ s.paKind d ≠ .lpddr then .error 4 else .ok (d, s)
  | 4 => if (loc = 3 ∧ leafAddr e = d) ∨ d % pageSize c.sz ≠ 0 then .error 4 else .ok (d, s)
  | _ => .error 4

/-- Starts the reads of a page from host memory, 4 KiB each (R47, R120). -/
def State.moveReads (s : State) (p : PartIx) (c : MgCmd) (addr : Nat) : State :=
  (List.range (pageSize c.sz / 4096)).foldl (fun s i =>
    let r : Req :=
      { id := 0, who := 7, core := 0, part := some p, kind := .read, ia := c.ia.toNat + 4096 * i, n := 4096, dest := .mig (4096 * i),
        issued := s.chron }
    let (id, s) := s.addReq r
    s.sendHost { r with id := id } p (addr + 4096 * i)) s

/-- Whether a walk that failed did so on an entry with V = 0 (R115). -/
def State.unmapped (s : State) (p : PartIx) (e : Nat) : Bool :=
  (s.part p).dmEn && (s.tableAt (s.part p).dmAddr.toNat).isNone && !bitAt e 0

/-- A fault of the walk of a MOVE: status FAULT, with its record or, for a failed bank, the machine check (R37, R106, R117). -/
def State.moveFault (s : State) (c : MgCmd) (p : PartIx) (code entry level : Nat) : State :=
  (if code = 0x74 then s.partFault p 0x74
    else s.fqWrite p code { req := 7, ia := c.ia.toNat, entry := entry, level := level }).mgEnd c 5 0 0

/-- The fault of the leaf of a MOVE, if it is one no requester may use (R103); that its page is compressed, or marked MIG, is none. -/
def State.moveBad (s : State) (c : MgCmd) (p : PartIx) (e leafAt lvl : Nat) : Option Nat :=
  match s.leafAnswer p false c.ia.toNat .read false (setFld e 8 1 0) leafAt lvl with
  | .fault code _ _ => if code = 0x33 then none else some code
  | _ => none

/-- Begins a MOVE: the leaf is walked and checked, MIG is set, the page invalidated and the copy started (R115). V = 0 at any level is
NOMAP; any other fault of the walk is FAULT (R106). MIG of a leaf that no move set does not refuse the engine's own walk (DEDUCED, log
68). -/
def State.moveStart (s : State) (c : MgCmd) : State :=
  if h : c.part.toNat < 48 then
    let p : PartIx := ⟨c.part.toNat, h⟩
    match s.findLeaf p false c.ia.toNat with
    | .error (code, e, l) => if code = 0x31 ∧ s.unmapped p e then s.mgEnd c 1 0 0 else s.moveFault c p code e l
    | .ok (e, at_, lvl) => match s.moveBad c p e at_ lvl with
      | some code => s.moveFault c p code e lvl
      | none =>
      let loc := leafLoc e
      if c.promo ∧ loc ≠ 2 then s.mgEnd c 0 0 0
      else if bitAt e 7 then s.mgEnd c 2 0 0
      else if (lvl == 2) ≠ c.sz then s.mgEnd c 4 0 0
      else match s.moveDest c loc e with
        | .error st => s.mgEnd c st 0 0
        | .ok (a, s) =>
          let s := { s with memory := writeBytes s.memory at_ (toBytes 8 (setFld e 8 1 1)) }
          let s := s.invalidate p.val false (c.ia.toNat / pageSize c.sz * pageSize c.sz) (pageSize c.sz)
          let ends := s.chron + pageSize c.sz / 128
          let m : Moving := { cmd := c, leafAt := at_, leaf := e, big := c.sz, newAddr := a, ends := ends, before := s.nextId }
          let s := { s with mig := { s.mig with moving := some m } }
          let s := if loc = 3 then s.moveReads p c (leafAddr e) else s
          s.sched ends .moveDone
  else s.mgEnd c 4 0 0

/-- MOVE (R115). -/
def execMove (s : State) : Outcome State Fault Refusal :=
  .next (match s.mig.fifo with
  | [] => s
  | c :: _ => s.moveStart c)

/-- PROMOTION: a queued promotion runs as a MOVE to pool (R103, R115). -/
def execPromotion (s : State) : Outcome State Fault Refusal :=
  .next (match s.mig.promos with
  | [] => s
  | c :: _ => s.moveStart c)

/-- Posts the bytes of a page of a partition to the host, 4 KiB each (R120). -/
def State.postPage (s : State) (p : PartIx) (addr : Nat) (bs : List Byte) : State :=
  (List.range (bs.length / 4096)).foldl (fun s i => s.postFor p (addr + 4096 * i) ((bs.drop (4096 * i)).take 4096)) s

/-- The bytes a MOVE copies. -/
def State.moveData (s : State) (m : Moving) : List Byte :=
  let size := pageSize m.big
  match leafLoc m.leaf with
  | 2 => expandPage s.memory (leafAddr m.leaf) size
  | 3 => ((List.range (size / 4096)).map fun i => ((m.got.find? fun x => x.1 == 4096 * i).map (·.2)).getD (List.replicate 4096 0)).flatten
  | _ => readBytes s.memory (leafAddr m.leaf) size

/-- Length of a compressed image (R116). -/
def imageLen (m : List Host.Cell) (a size : Nat) : Nat :=
  (List.range (size / 4096)).foldl (fun x i => x + 1024 * min 4 (fld (readNat m (a + i / 2) 1) (4 * (i % 2) + 3) (4 * (i % 2)))) 1024

/-- Whether the page a MOVE copies can no longer be read: of a bank that has failed, or of the LPDDR6 tier (R115, R119). -/
def State.moveLost (s : State) (m : Moving) : Bool :=
  let a := leafAddr m.leaf
  match leafLoc m.leaf with
  | 0 => s.paKind a == .failed
  | 1 => s.lostAt a (pageSize m.big)
  | 2 => s.lostAt a (imageLen s.memory a (pageSize m.big))
  | _ => false

/-- The leaf a MOVE writes: the new LOC and ADDR with MIG = 0 (R102, R115). -/
def newLeaf (e loc addr : Nat) : Nat := setFld (e % 2 ^ 10) 8 1 0 - fld e 3 2 * 4 + loc * 4 + addr / 2 ^ 10 * 2 ^ 10

/-- The copy of a MOVE ends: the leaf is rewritten, the source frame freed, the completion written; an image over LIM
leaves the page where it was (R115, R117). -/
def State.moveEnd (s : State) (m : Moving) (p : PartIx) : State :=
  let c := m.cmd
  let e := m.leaf
  let src := leafLoc e
  let back (s : State) (st : Nat) : State :=
    let s := { s with memory := writeBytes s.memory m.leafAt (toBytes 8 (setFld e 8 1 0)) }
    (if c.dest.toNat ≤ 1 then s.freeFrame m.newAddr m.big else s).mgEnd c st 0 0
  if m.bad then back s 5
  else if s.moveLost m then (back s 5).partFault p 0x74
  else
    let data := s.moveData m
    let image := if c.dest = 3 then compressPage data else data
    let len := if c.dest = 3 then image.length / 1024 else 0
    if c.dest = 3 ∧ c.lim.toNat < len then back s 3
    else
      let s := if c.dest = 4 then s.postPage p m.newAddr image else { s with memory := writeBytes s.memory m.newAddr image }
      let loc := match c.dest.toNat with
        | 2 => 1 | 3 => 2 | 4 => 3 | _ => 0
      let s := { s with memory := writeBytes s.memory m.leafAt (toBytes 8 (newLeaf e loc m.newAddr)) }
      (if src = 0 then s.freeFrame (leafAddr e) m.big else s).mgEnd c 0 len m.newAddr

/-- MOVE_DONE: it waits for reads of a host page and for accesses translated through the old leaf (R112, R115). -/
def execMoveDone (s : State) : Outcome State Fault Refusal :=
  .next (match s.mig.moving with
  | none => s
  | some m =>
    if h : m.cmd.part.toNat < 48 then
      let p : PartIx := ⟨m.cmd.part.toNat, h⟩
      let waits := s.reqs.any fun r => r.who == 7
      if s.chron < m.ends then s
      else if waits ∨ s.oldAccess p.val false m.cmd.ia.toNat (pageSize m.big) m.before then s.sched (s.chron + 1) .moveDone
      else s.moveEnd m p
    else s)

/-! ## Bank modes (R98) -/

/-- The bank BMCTL names, if its column exists; a change that names no column is refused (DESIGN CHOICE, log 66). -/
def MemSide.bmTarget (m : MemSide) : Option (CoreIx × Fin 32) :=
  if h : m.bmCol.toNat < 288 then some (⟨m.bmCol.toNat, h⟩, Fin.ofNat 32 m.bmBank.toNat) else none

/-- Refuses the change of BMCTL: ERR, and nothing changes. -/
def State.bmRefuse (s : State) : State := { s with ms := { s.ms with bmErr := true, bmBusy := false } }

/-- Accepts the change of BMCTL: it ends after a latency of the Helm. -/
def State.bmAccept (s : State) : State :=
  let (lat, s) := s.drawHelm
  ({ s with ms := { s.ms with bmBusy := true } }).sched (s.chron + lat) .bmctlDone

/-- BANK_TO_ROW: accepted from POOL or PENDPOOL when no frame of the bank is allocated (R98). -/
def execBankToRow (s : State) : Outcome State Fault Refusal :=
  let s := { s with ms := { s.ms with bmMode := true } }
  .next (match s.ms.bmTarget with
  | none => s.bmRefuse
  | some (c, b) =>
    let st := s.bankState c.val b.val
    if (st = 1 ∨ st = 3) ∧ ¬ s.bankUsed c b then s.bmAccept else s.bmRefuse)

/-- BANK_TO_POOL: accepted from ROW or PENDROW when no row window names the bank (R98, R38). -/
def execBankToPool (s : State) : Outcome State Fault Refusal :=
  let s := { s with ms := { s.ms with bmMode := false } }
  .next (match s.ms.bmTarget with
  | none => s.bmRefuse
  | some (c, b) =>
    let st := s.bankState c.val b.val
    if (st = 2 ∨ st = 4) ∧ ¬ s.windowNames c b then s.bmAccept else s.bmRefuse)

/-- Sets the state of a DRAM bank of a column. -/
def State.setBank (s : State) (c : CoreIx) (b : Fin 32) (v : BitVec 4) : State :=
  s.updCol c fun k => { k with dram := k.dram.set b v }

/-- BMCTL_DONE: the bank changes its mode, and with it ROWMASK and the placement ring (R98, R118). A bank that failed
meanwhile stays FAILED. -/
def execBmctlDone (s : State) : Outcome State Fault Refusal :=
  let s := { s with ms := { s.ms with bmBusy := false } }
  .next (match s.ms.bmTarget with
  | none => s
  | some (c, b) =>
    let new : Option (BitVec 4) := match (s.bankState c.val b.val).toNat, s.ms.bmMode with
      | 1, true => some 2
      | 3, true => some 4
      | 2, false => some 1
      | 4, false => some 3
      | _, _ => none
    match new with
    | some v => (s.setBank c b v).surveyChange false
    | none => s)

end Sys2Proof.Machine
end

