-- ==== Sys2Proof/Machine/Launch.lean ====
section
/-! DEFINITION. The launch mailbox (R80 to R84), the chart (R86, R87, R124 to R127), the overlay loader (R88), the start
of a context (R89), and the chart key slots (R78). -/

namespace Sys2Proof.Machine

open Host (Outcome)

/-! ## Ending a context (R144) -/

/-- Whether a slot's state is one of a live context (R82). -/
def CtxState.live : CtxState → Bool
  | .check | .load | .ready | .run | .preempted => true
  | _ => false

/-- Kills the context of a slot: a running one by the halt line with cause 0x45, any other at once (R82, R144). A kill clears
a checkpoint request (R167). -/
def State.kill (s : State) (p : PartIx) (j : Fin 8) : State :=
  let s := s.updPart p fun q => { q with ckreq := false }
  match (s.part p).slots[j].st with
  | .run => s.hardFault p { code := 0x45, cycle := s.chron, core := 0x1FF, eng := 0, pc := -1, kill := true }
  | .preempted => (s.updPart p fun q => { q with shadow := none, ckheld := false }).endSlot p j .killed 0
  | _ => s.endSlot p j .killed 0

/-! ## LAUNCH (R82) -/

/-- The 32 bytes of mailbox offsets 0x00 to 0x1F as latched (R80, R146). -/
def Part.mailBytes (q : Part) : List Byte :=
  toBytes 8 q.image.toNat ++ toBytes 8 q.argbase.toNat
    ++ toBytes 8 (q.size.toNat + 2 ^ 4 * q.prio.toNat + 2 ^ 8 * q.slot.toNat) ++ toBytes 4 (2 ^ 8 * q.tag.toNat) ++ toBytes 4 q.psel.toNat

/-- The launch fields of 32 recorded mailbox bytes; SLOT and TAG stay the mailbox's (R147). -/
def Part.fromRecord (q : Part) (bs : List Byte) : Slot :=
  let w (o n : Nat) : Nat := ofBytes ((bs.drop o).take n)
  { image := w 0 7, argbase := fld (w 8 8) 51 0, size := BitVec.ofNat 4 (w 16 1), prio := BitVec.ofNat 2 (fld (w 16 1) 5 4), tag := q.tag }

/-- Accepts a launch into a slot: the fields are latched, STATE becomes CHECK, the Logbook's settings take effect and the
launch is recorded, or in replay taken from its record (R82, R145, R147). A launch written before VALID = 1 or under an emergency enters
CHECK to be rejected there, whatever VALID and EMERG are by then (R46, R84; DEDUCED, log 67). -/
def State.accept (s : State) (p : PartIx) (j : Fin 8) : State :=
  let s := s.updPart p fun q => { q with lb := q.lb.latch j }
  let q := s.part p
  let own : Slot := { image := q.image.toNat, argbase := q.argbase.toNat, size := q.size, prio := q.prio, tag := q.tag }
  let (x, s) := match (if s.replaying p then s.nextRecord p fun r => r.kind == 1 else none) with
    | some r => (q.fromRecord r.payload, s.consumeRecord p r)
    | none => (own, s)
  let early : Bool := !s.helm.valid || s.helm.emerg
  let s := s.updPart p fun q => { q.updSlot j fun old => { x with exit := old.exit, st := .check, early := early } with lastChart := none }
  let s := s.logRecord p 0 1 0 0x1FF 0 q.mailBytes (some j)
  let (lat, s) := s.drawHelm
  s.schedP (s.chron + lat) p (.launchCheck p j)

/-- A write of the LAUNCH word (R82). A write that is ignored leaves TAG as it was. -/
def State.launchWord (s : State) (p : PartIx) (go ab : Bool) (tag : BitVec 8) : State :=
  let q := s.part p
  let j : Fin 8 := Fin.ofNat 8 q.slot.toNat
  let live := q.slots[j].st.live
  let bad : State := s.updPart p fun q => { q with lerr := true }
  let tagged : State := s.updPart p fun q => { q with tag := tag }
  match go, ab with
  | false, false => tagged
  | true, true => bad
  | true, false => if live then bad else tagged.accept p j
  | false, true => if live then tagged.kill p j else bad

/-- Shadows a mailbox write made during a switch, or answers none when it acts at once (R85). -/
def State.shadowed (s : State) (p : PartIx) (off len val : Nat) : Option State :=
  if (s.part p).switching then
    let w : ShadowWrite := { off := off, len := len, val := val }
    some (s.updPart p fun q => { q with shadowWr := q.shadowWr ++ [w] })
  else none

/-- LAUNCH_GO: GO = 1 with a TAG; held while the partition switches (R82, R85). -/
def execLaunchGo (p : PartIx) (tag : BitVec 8) (s : State) : Outcome State Fault Refusal :=
  .next ((s.shadowed p 0x18 4 (1 + 256 * tag.toNat)).getD (s.launchWord p true false tag))

/-- ABORT: ABORT = 1; held while the partition switches (R82, R85). -/
def execAbort (p : PartIx) (tag : BitVec 8) (s : State) : Outcome State Fault Refusal :=
  .next ((s.shadowed p 0x18 4 (2 + 256 * tag.toNat)).getD (s.launchWord p false true tag))

/-! ## Reading the chart -/

/-- What reading the pages of a chart comes to. -/
inductive ChartPage where
  | at_ (key : Nat)
  | host (addr : Nat)
  | wait (cycles : Nat) (pr : Option (Nat × Bool))
  | bad (code : Nat)
  deriving DecidableEq, Repr

/-- A 64 KiB page of a chart through the partition's tables (R84, R103). Regions without tables are not readable. -/
def State.chartPage (s : State) (p : PartIx) (ia : Nat) : ChartPage :=
  if 2 ≤ ia / 2 ^ 52 then .bad 0x31
  else match s.walk p ia .read with
    | .mem key => .at_ key
    | .host addr => .host addr
    | .refuse h pr => .wait (64 * h) pr
    | .fault code _ _ => .bad code

/-- The bytes of a chart page that the Helm holds: from memory, or as they came from the host in 4 KiB parts. -/
def State.pageBytes (s : State) (x : Slot) (off n : Nat) : ChartPage → List Byte
  | .at_ key => readBytes s.memory key n
  | .host _ => (((List.range 16).map fun i => ((x.got.find? fun y => y.1 == off + 4096 * i).map (·.2)).getD (List.replicate 4096 0)).flatten).take n
  | _ => []

/-- Asks the host for the parts of a page not yet asked for, kept under an offset of the chart; the answer says whether all have
arrived. -/
def State.askPage (s : State) (p : PartIx) (j : Fin 8) (ia off n addr : Nat) : State × Bool :=
  (List.range (ceilDiv n 4096)).foldl (fun (a : State × Bool) i =>
    let (s, ok) := a
    let o := off + 4096 * i
    let x := (s.part p).slots[j]
    if x.got.any (fun y => y.1 == o) then (s, ok)
    else if x.asked.contains o then (s, false)
    else
      let s := s.updPart p fun q => q.updSlot j fun x => { x with asked := x.asked ++ [o] }
      let r : Req :=
        { id := 0, who := 8, core := 0, part := some p, kind := .read, ia := ia + 4096 * i, n := 4096, dest := .chart p.val j.val o, issued := s.chron }
      let (id, s) := s.addReq r
      (s.sendHost { r with id := id } p (addr + 4096 * i), false)) (s, true)

/-- What reading n bytes of a chart comes to: its bytes, a wait of so many cycles, or a failure with its code. -/
inductive ChartRead where
  | ok (bs : List Byte)
  | wait (cycles : Nat)
  | bad (code : Nat)
  deriving DecidableEq, Repr

/-- Reads the first n bytes of the chart of a slot, page by page, waiting through refusals and for the host (R84). -/
def State.chartRead (s : State) (p : PartIx) (j : Fin 8) (n : Nat) : State × ChartRead :=
  (List.range (ceilDiv n 65536)).foldl (fun (a : State × ChartRead) i =>
    let (s, r) := a
    match r with
    | .ok bs =>
      let x := (s.part p).slots[j]
      let len := min 65536 (n - 65536 * i)
      if x.bad then (s, .bad 0x64)
      else match s.chartPage p (x.image + 65536 * i) with
        | .bad code => (s, .bad code)
        | .wait t pr => (s.promote p pr, .wait t)
        | .at_ key =>
          if s.lostAt key len then (s, .bad 0x74) else (s, .ok (bs ++ s.pageBytes x (65536 * i) len (.at_ key)))
        | .host addr =>
          let (s, ok) := s.askPage p j (x.image + 65536 * i) (65536 * i) len addr
          if ok then (s, .ok (bs ++ s.pageBytes x (65536 * i) len (.host addr))) else (s, .wait 1)
    | r => (s, r)) (s, .ok [])

/-- A little-endian number of a chart (R8, R86). -/
def chartU (bs : List Byte) (off n : Nat) : Nat := ofBytes ((bs.drop off).take n)

/-! ## Layouts and segments (R87) -/

/-- A layout entry. -/
structure Layout where
  nclu : Nat
  ctoff : Nat
  segoff : Nat
  segcnt : Nat
  deriving DecidableEq, Repr

/-- A core entry. -/
structure CoreEnt where
  seqsz : Nat
  axusz : Nat
  bkesz : Nat
  vecsz : Nat
  entry : Nat
  segfirst : Nat
  segn : Nat
  deriving DecidableEq, Repr

/-- A segment record. -/
structure Seg where
  type : Nat
  target : Nat
  src : Nat
  len : Nat
  deriving DecidableEq, Repr

/-- The layouts of a chart. -/
def chartLayouts (b : List Byte) : List Layout :=
  (List.range (chartU b 0x12 2)).map fun i =>
    let o := chartU b 0x14 4 + 16 * i
    { nclu := chartU b o 1, ctoff := chartU b (o + 4) 4, segoff := chartU b (o + 8) 4, segcnt := chartU b (o + 12) 4 }

/-- The core entries of a layout, one for each logical core. -/
def Layout.cores (l : Layout) (b : List Byte) : List CoreEnt :=
  (List.range (6 * l.nclu)).map fun i =>
    let o := l.ctoff + 16 * i
    { seqsz := chartU b o 1, axusz := chartU b (o + 1) 1, bkesz := chartU b (o + 2) 1, vecsz := chartU b (o + 3) 1,
      entry := chartU b (o + 4) 4, segfirst := chartU b (o + 8) 4, segn := chartU b (o + 12) 4 }

/-- Length of the section of an engine in a core entry: 0 SEQ to 3 VEC. -/
def CoreEnt.bytes (e : CoreEnt) (eng : Nat) : Nat :=
  4096 * (match eng with
    | 0 => e.seqsz | 1 => e.axusz | 2 => e.bkesz | _ => e.vecsz)

/-- Start of the section of an engine (R88). -/
def CoreEnt.start (e : CoreEnt) (eng : Nat) : Nat := (List.range eng).foldl (fun a i => a + e.bytes i) 0

/-- The segments of a core of a layout. -/
def Layout.segs (l : Layout) (b : List Byte) (e : CoreEnt) : List Seg :=
  (List.range e.segn).map fun i =>
    let o := l.segoff + 16 * (e.segfirst + i)
    { type := chartU b o 1, target := chartU b (o + 4) 4, src := chartU b (o + 8) 4, len := chartU b (o + 12) 4 }

/-- The memory a segment lies in, for overlap: the section, the scratchpad, the slice SRAM. -/
def Seg.space (g : Seg) : Nat := if g.type < 4 then g.type else if g.type = 5 then 5 else 4

/-- Whether two segments of a core overlap: some byte lies in both. -/
def Seg.meets (x y : Seg) : Bool :=
  x.space == y.space && x.len != 0 && y.len != 0 && decide (x.target < y.target + y.len) && decide (y.target < x.target + x.len)

/-- Whether some two of a list of segments overlap. -/
def anyMeet : List Seg → Bool
  | [] => false
  | x :: r => r.any x.meets || anyMeet r

/-- Whether a segment keeps the limits of R87 on a column. A LEN that is no multiple of 4, which the format forbids and the list of
failures does not name, fails too (DESIGN CHOICE, log 67). -/
def Seg.ok (g : Seg) (e : CoreEnt) (k : Column) (sigoff : Nat) : Bool :=
  let room := if g.type < 4 then e.bytes g.type else if g.type = 5 then 6 * 2 ^ 20 else 8 * 2 ^ 20
  let banks := if g.len = 0 then [] else (List.range 48).filter fun b => decide (g.target / 2 ^ 17 ≤ b) && decide (b ≤ (g.target + g.len - 1) / 2 ^ 17)
  decide (g.type ≤ 6) && g.len % 4 == 0 && decide (g.target + g.len ≤ room) && (g.type == 6 || decide (g.src + g.len ≤ sigoff))
    && (g.type != 5 || banks.all fun b => match k.slice[b]? with
      | some x => x == 1 || x == 2
      | none => false)

/-- Whether a core entry and its segments keep the limits of R87 on a column. -/
def Layout.coreOk (l : Layout) (b : List Byte) (e : CoreEnt) (k : Column) (sigoff : Nat) : Bool :=
  decide (e.seqsz + e.axusz + e.bkesz + e.vecsz ≤ 128) && e.entry % 4 == 0 && decide (e.entry < e.bytes 0)
    && decide (e.segfirst + e.segn ≤ l.segcnt) && (l.segs b e).all (fun g => g.ok e k sigoff) && !anyMeet (l.segs b e)

/-! ## The leg table (R124 to R127) -/

/-- A course record (R126). -/
def chartCourse (b : List Byte) (o : Nat) : CourseRec :=
  let w (i : Nat) : Nat := chartU b (o + 4 * i) 4
  { leglen := w 0, seqent := w 1, axuent := w 2, axuspan := w 3, bkeent := w 4, bkespan := w 5, vecent := w 6, vecspan := w 7 }

/-- The descriptor of a leg at an offset of the chart (R124). -/
def chartLeg (b : List Byte) (o : Nat) : LegDesc :=
  { scope := chartU b o 1, fixed := chartU b (o + 1) 1 % 2 == 1, ncrs := chartU b (o + 2) 1,
    bt1 := chartU b (o + 4) 2, bt2 := chartU b (o + 6) 2, bt3 := chartU b (o + 8) 2,
    sel := (List.range 8).map fun i => BitVec.ofNat 64 (chartU b (o + 16 + 8 * i) 8),
    crs := (List.range 8).map fun i => chartCourse b (o + 80 + 32 * i) }

/-- Whether the entries of a course lie in the sections of a core (R127). -/
def CourseRec.fits (r : CourseRec) (e : CoreEnt) : Bool :=
  let ok (ent span eng : Nat) : Bool := decide (ent < e.bytes eng) && decide (ent + span ≤ e.bytes eng)
  ok r.seqent 0 0 && ok r.axuent r.axuspan 1 && ok r.bkeent r.bkespan 2 && ok r.vecent r.vecspan 3

/-- A course record that is all 0. -/
def CourseRec.zero (r : CourseRec) : Bool :=
  r == { leglen := 0, seqent := 0, axuent := 0, axuspan := 0, bkeent := 0, bkespan := 0, vecent := 0, vecspan := 0 }

/-- Whether a leg descriptor at an offset keeps the limits of R127, for the core entries of every layout. -/
def chartLegOk (b : List Byte) (o : Nat) (cores : List CoreEnt) : Bool :=
  let d := chartLeg b o
  let used := d.crs.take d.ncrs
  decide (1 ≤ d.scope) && decide (d.scope ≤ 4) && decide (1 ≤ d.ncrs) && decide (d.ncrs ≤ 8)
    && decide (chartU b (o + 1) 1 < 2) && chartU b (o + 3) 1 == 0 && chartU b (o + 10) 6 == 0
    && decide (d.bt1 ≤ d.bt2) && decide (d.bt2 ≤ d.bt3)
    && d.sel.all (fun w => decide (w.toNat < 2 ^ 32) && (!w.getLsbD 31 || decide (fld w.toNat 30 28 < d.ncrs)))
    && (d.crs.drop d.ncrs).all (·.zero) && (!d.fixed || used.all fun r => r.leglen != 0)
    && cores.all fun e => used.all fun r => r.fits e

/-- The leg table of a chart, if it keeps the limits of R127. -/
def chartLegs (b : List Byte) (sigoff : Nat) : Option (List LegDesc) :=
  let lo := chartU b 0x18 4
  let n := chartU b lo 4
  let cores := ((chartLayouts b).map fun l => l.cores b).flatten
  let offs := (List.range n).map fun i => lo + 16 + 336 * i
  if n = 0 ∨ 4096 < n ∨ sigoff < lo + 16 + 336 * n ∨ chartU b (lo + 4) 12 ≠ 0 ∨ ¬ offs.all (fun o => chartLegOk b o cores) then none
  else some (offs.map (chartLeg b))

/-! ## LAUNCH_CHECK (R84) -/

/-- Test 0x05 on the header (R84, R86). -/
def headerOk (b : List Byte) (len : Nat) : Bool :=
  let u := chartU b
  let sig := u 0x0C 4
  u 0 4 == 0x74726843 && u 4 2 == 1 && decide (len ≤ 2 ^ 30) && sig + 1772 == len && decide (1 ≤ u 0x12 2) && decide (u 0x12 2 ≤ 48)
    && decide (u 0x14 4 + 16 * u 0x12 2 ≤ sig) && decide (u 0x18 4 + 16 ≤ sig) && decide (u 0x1C 4 + 80 * u 0x20 4 ≤ sig)

/-- The public key of a chart key slot, if it is not empty (R78). A KEYSLOT of 8 or more names no slot and counts as empty (DESIGN CHOICE,
log 67). -/
def State.keyOf (s : State) (j : Nat) : Option (List Byte) :=
  match s.helm.keys[j]? with
  | some k => if k.toNat % 2 ^ 32 = 0 then none else some ((toBytes 64 k.toNat).take 56)
  | none => none

/-- Test 0x0A: the layout's limits on the columns it loads, and the leg table's (R87, R127). -/
def State.layoutOk (s : State) (p : PartIx) (b : List Byte) (l : Layout) (sigoff : Nat) : Bool :=
  decide (l.ctoff + 16 * 6 * l.nclu ≤ sigoff) && decide (l.segoff + 16 * l.segcnt ≤ sigoff)
    && (List.zip (l.cores b) (s.coresOf p)).all (fun x => l.coreOk b x.1 (s.col x.2) sigoff) && (chartLegs b sigoff).isSome

/-- FNREV of the identity block (R75). -/
def fnRev : Nat := 0x01

/-- Tests 0x06 to 0x0A on a chart that has been read, with the key slot the context names: the code of the first that fails, 0 for none
(R78, R84). -/
def State.chartTests (s : State) (p : PartIx) (ks : Nat) (b : List Byte) : Nat :=
  let sig := chartU b 0x0C 4
  match s.keyOf ks with
  | none => 0x06
  | some key =>
    if ¬ Config.lmsValid key (b.take sig) ((b.drop sig).take 1772) then 0x07
    else if chartU b 0x11 1 ≠ 0 ∧ chartU b 0x11 1 ≠ fnRev then 0x08
    else match (chartLayouts b).find? (fun l => l.nclu == s.nclu p) with
      | none => 0x09
      | some l => if s.layoutOk p b l sig then 0 else 0x0A

/-- Ends a launch in REJECTED (R84). -/
def State.reject (s : State) (p : PartIx) (j : Fin 8) (code : Nat) : State := s.endSlot p j .rejected code

/-- A chart page that cannot be read rejects the launch with 0x04; a failed bank raises 0x74 besides (R84, R37). -/
def State.chartBad (s : State) (p : PartIx) (j : Fin 8) (code : Nat) : State :=
  (if code = 0x74 then s.partFault p 0x74 else s).reject p j 0x04

/-- The tests of a launch, in order (R84). From the first reading of the header on the context names its key slot (R78); once it is read
the chart is the one attestation measures for the partition (R91). -/
def State.check (s : State) (p : PartIx) (j : Fin 8) : State :=
  let again (s : State) (t : Nat) : State := s.schedP (s.chron + t) p (.launchCheck p j)
  let x := (s.part p).slots[j]
  if ¬ s.helm.valid ∨ s.helm.emerg ∨ x.early then s.reject p j 0x01
  else if s.nclu p = 0 then s.reject p j 0x02
  else if x.image % 65536 ≠ 0 ∨ x.argbase % 64 ≠ 0 then s.reject p j 0x03
  else match s.chartRead p j 64 with
    | (s, .bad code) => s.chartBad p j code
    | (s, .wait t) => again s t
    | (s, .ok h) =>
      let ks := x.key.getD (chartU h 0x10 1)
      let s := s.updPart p fun q => q.updSlot j fun x => { x with key := some ks }
      let len := chartU h 8 4
      match s.chartRead p j (max 64 len) with
      | (s, .bad code) => s.chartBad p j code
      | (s, .wait t) => again s t
      | (s, .ok b) =>
        let s := s.updPart p fun q => { q with lastChart := some (b.take (chartU b 0x0C 4)) }
        if ¬ headerOk b len then s.reject p j 0x05
        else
          let code := s.chartTests p ks b
          if code ≠ 0 then s.reject p j code
          else
            let s := s.updPart p fun q =>
              q.updSlot j fun x => { x with img := b, got := [], asked := [], st := .load }
            let (lat, s) := s.drawHelm
            s.schedP (s.chron + lat) p (.overlayLoad p j)

/-- LAUNCH_CHECK (R84). -/
def execLaunchCheck (p : PartIx) (slot : SlotIx) (s : State) : Outcome State Fault Refusal :=
  .next (if (s.part p).slots[slot].st = .check then s.check p slot else s)

/-! ## OVERLAY_LOAD (R88) -/

/-- Writes a segment of a core (R88); code goes to the instruction memory of the context's slot. -/
def State.loadSeg (s : State) (c : CoreIx) (j : Fin 8) (b : List Byte) (e : CoreEnt) (g : Seg) : State :=
  let data := (b.drop g.src).take g.len
  if g.type < 4 then { s with memory := writeBytes s.memory (imemKey c.val (e.start g.type + g.target) j.val) data }
  else match g.type with
    | 4 => { s with memory := writeBytes s.memory (spadKey c.val g.target) data }
    | 5 => { s with memory := writeBytes s.memory (sliceKey c.val g.target) data }
    | _ => { s with memory := zeroRange s.memory (spadKey c.val g.target) g.len }

/-- Loads a core: its sections filled with NOP words, whose encoding is 0, then its segments (R88, R269). -/
def State.loadCore (s : State) (c : CoreIx) (j : Fin 8) (b : List Byte) (l : Layout) (e : CoreEnt) : State :=
  let s := { s with memory := zeroRange s.memory (imemKey c.val 0 j.val) (2 ^ 19) }
  (l.segs b e).foldl (fun s g => s.loadSeg c j b e g) s

/-- Writes handle templates into the object table; the answer is what stopped it (R88, R186). -/
def State.loadHandles (s : State) (p : PartIx) : List (Nat × List Byte) → State × Option (Nat × Walk)
  | [] => (s, none)
  | (h, bs) :: r => match s.tableWrite p h (hsetBytes bs) with
    | (s, none) => s.loadHandles p r
    | (s, some w) => (s, some (h, w))

/-- The offset under which the Helm keeps a page of the object table that the host holds, above those of a chart. -/
def tablePage (i : Nat) : Nat := 2 ^ 40 + 65536 * i

/-- The entries marked pinned in 64 KiB of the object table that lie in memory from a key on, by the bytes that are not 0 (R187). -/
def pinnedAt (m : List Host.Cell) (key first : Nat) : List (Nat × BitVec 512) :=
  (m.filter fun x => decide (key ≤ x.1) && decide (x.1 < key + 65536) && decide ((x.1 - key) % 64 = 2) && x.2.getLsbD 0).map fun x =>
    (first + (x.1 - key) / 64, BitVec.ofNat 512 (readNat m (x.1 - 2) 64))

/-- The entries marked pinned among 64 KiB of the object table. -/
def pinnedOf (bs : List Byte) (first : Nat) : List (Nat × BitVec 512) :=
  (List.range 1024).filterMap fun i =>
    let e := BitVec.ofNat 512 (ofBytes ((bs.drop (64 * i)).take 64))
    if entPinned e then some (first + i, e) else none

/-- What reading the object table for its pinned entries comes to. -/
inductive PinScan where
  | ok (es : List (Nat × BitVec 512))
  | wait (cycles : Nat)
  | bad (code : Nat)
  deriving DecidableEq, Repr

/-- Reads one page of the object table for its pinned entries. A page with no mapping holds none; one that is refused or lies at the
host is waited for (R92, R105, R189). -/
def State.pinPage (s : State) (p : PartIx) (j : Fin 8) (i : Nat) : State × PinScan :=
  match s.walk p (65536 * i) .read false with
  | .mem key => if s.lostAt key 65536 then (s, .bad 0x74) else (s, .ok (pinnedAt s.memory key (1024 * i)))
  | .host addr =>
    let (s, ok) := s.askPage p j (65536 * i) (tablePage i) 65536 addr
    let x := (s.part p).slots[j]
    if x.bad then (s, .bad 0x31)
    else if ok then (s, .ok (pinnedOf (s.pageBytes x (tablePage i) 65536 (.host addr)) (1024 * i))) else (s, .wait 1)
  | .refuse hint pr => (s.promote p pr, .wait (64 * hint))
  | .fault code _ _ => if code = 0x74 then (s, .bad code) else (s, .ok [])

/-- Reads the object table of a partition for its pinned entries, page by page, up to the first that has to be waited for. -/
def State.pinScan (s : State) (p : PartIx) (j : Fin 8) : State × PinScan :=
  (List.range 64).foldl (fun (a : State × PinScan) i => match a.2 with
    | .ok es => (match a.1.pinPage p j i with
      | (s, .ok fs) => (s, .ok (es ++ fs))
      | r => r)
    | _ => a) (s, .ok [])

/-- A fault of the loader: the launch ends in FAULT with 0x31; a fault of the walk leaves its record, a failed bank its machine check
(R37, R88, R106). -/
def State.loadFault (s : State) (p : PartIx) (j : Fin 8) (h code entry level : Nat) : State :=
  (if code = 0x74 then s.partFault p 0x74
    else s.fqWrite p code { req := 8, wr := true, ia := 64 * h, handle := h, entry := entry, level := level }).endSlot p j .fault 0x31

/-- The loading of a context (R88). It ends by placing the pinned entries of the object table in every handle cache (R189). -/
def State.load (s : State) (p : PartIx) (j : Fin 8) : State :=
  let x := (s.part p).slots[j]
  let b := x.img
  let hs := (List.range (chartU b 0x20 4)).map fun i =>
    let o := chartU b 0x1C 4 + 80 * i
    (chartU b o 2, (b.drop (o + 16)).take 64)
  match (chartLayouts b).find? (fun l => l.nclu == s.nclu p), chartLegs b (chartU b 0x0C 4) with
  | some l, some legs =>
    let es := l.cores b
    let s := (List.zip es (s.coresOf p)).foldl (fun s y => s.loadCore y.2 j b l y.1) s
    let again (s : State) (t : Nat) : State := s.schedP (s.chron + t) p (.overlayLoad p j)
    match s.loadHandles p hs with
    | (s, some (_, .refuse hint pr)) => again (s.promote p pr) (64 * hint)
    | (s, some (h, .fault code e l)) => s.loadFault p j h code e l
    | (s, some _) => s.endSlot p j .fault 0x31
    | (s, none) => match s.pinScan p j with
    | (s, .wait t) => again s t
    | (s, .bad code) => (if code = 0x74 then s.partFault p 0x74 else s).endSlot p j .fault 0x31
    | (s, .ok pins) =>
      let s := (s.coresOf p).foldl (fun s c => s.upd c fun k =>
        let k := { k with hcPinned := pins }
        { k with hcUnpinned := k.hcUnpinned.filter fun x => (tget k.pinned x.1).isNone }) s
      let s := s.updPart p fun q => q.updSlot j fun x => { x with
        entries := es.map (·.entry), sizes := es.map fun e => (e.seqsz, e.axusz, e.bkesz, e.vecsz), legs := legs, img := [], got := [], asked := [] }
      ((s.unname p j).slotTo p j .ready).kickHelm p
  | _, _ => s.endSlot p j .fault 0x31

/-- OVERLAY_LOAD (R88). -/
def execOverlayLoad (p : PartIx) (slot : SlotIx) (s : State) : Outcome State Fault Refusal :=
  .next (if (s.part p).slots[slot].st = .load then s.load p slot else s)

/-! ## CONTEXT_START (R89) -/

/-- Begins the statistics windows of a core (R243). -/
def Core.statStart (k : Core) (t : Nat) : Core :=
  { k with stat := { k.stat with start := t, wc := Vector.replicate 6 0, acted := 0 } }

/-- STAT_WINDOW_START: the window counts of a core restart (R243). -/
def execStatWindowStart (s : State) : Outcome State Fault Refusal := .next (s.updMe fun k => k.statStart s.chron)

/-- The register state a core starts a context with (R89, R171, R192, R13): what the map marks preserved across launch keeps the
value last written through PF BAR0; caches and what is no part of the context stay. -/
def Core.started (k : Core) (x : Slot) (i nclu t : Nat) : Core :=
  let (sq, ax, bk, ve) := x.sizes.getD i (0, 0, 0, 0)
  let g : Vector Word 32 := ((Vector.replicate 32 (0 : Word)).set 1 (BitVec.ofNat 64 x.argbase)).set 2 (BitVec.ofNat 64 i)
  let q : Queue := { st := .running, pc := (x.entries.getD i 0 : Nat), entry := (x.entries.getD i 0 : Nat), base := t, progress := t }
  let new : Core :=
    { seq := { g := g.set 3 (BitVec.ofNat 64 nclu), hvec := k.seq.hvecL, hvecL := k.seq.hvecL, q := q }
      ctl :=
        { sizecls := x.size, tRel := t, rng := k.ctl.rngL, rngL := k.ctl.rngL, rwin := k.ctl.rwinL, rwinL := k.ctl.rwinL,
          secnt := k.ctl.secnt, seqsz := sq, axusz := ax, bkesz := bk, vecsz := ve }
      hcPinned := k.hcPinned
      hcUnpinned := k.hcUnpinned
      killed := k.killed }
  new.statStart t

/-- Leaves what a context that has ended still has under way on given cores to finish without it: its events go, its accesses
no longer name the core. -/
def State.orphan (s : State) (cs : List CoreIx) : State :=
  let s := { s with agenda := s.agenda.filter fun e => !(coreEvent e.instr && cs.contains e.core) }
  { s with reqs := s.reqs.map fun r => if r.ofCores cs then { r with who := 8, dest := .none_ } else r }

/-- Schedules the end of the quantum of a running context (R141). -/
def State.armQuantum (s : State) (p : PartIx) (j : Fin 8) : State :=
  let q := s.part p
  if q.quant = 0 then s else s.schedP (max s.chron (q.slots[j].since + 1024 * q.quant.toNat)) p .quantumExpiry

/-- Starts a READY context: every sequencer of the partition at this cycle, STATE RUN (R89); in replay the inputs recorded before its first
release and link-token take are injected (R147). -/
def State.startContext (s : State) (p : PartIx) (j : Fin 8) : State :=
  let x := (s.part p).slots[j]
  let cs := s.coresOf p
  let n := s.nclu p
  let t := s.chron
  let s := s.orphan cs
  let s := (List.zip (List.range cs.length) cs).foldl (fun s y => s.upd y.2 fun k => k.started x y.1 n t) s
  let s := s.updPart p fun q =>
    { q.updSlot j (fun x => { x with leg := 0, course := 0, ndcyc := false, since := t }) with
      legs := x.legs, fixes := [], arrHeld := [], relHeld := none, awaiting := none, sentArr := false, cutUnits := [],
      lastRel := [], lastRun := tput q.lastRun x.prio.toNat j.val }
  let s := (s.slotTo p j .run).armQuantum p j
  if s.replaying p then s.schedP t p .replayInjection else s

/-- CONTEXT_START (R89). -/
def execContextStart (p : PartIx) (slot : SlotIx) (s : State) : Outcome State Fault Refusal :=
  .next (if (s.part p).slots[slot].st = .ready ∧ (s.part p).runSlot.isNone then s.startContext p slot else s)

/-! ## Key slots (R78) -/

/-- A write of a doubleword of a key slot: at once, or held while a context names the slot (R78). -/
def State.keyWrite (s : State) (j : Fin 8) (dw v : Nat) : State :=
  if s.keyNamed j.val then { s with helm := { s.helm with keyHeld := s.helm.keyHeld ++ [(j.val, dw, BitVec.ofNat 64 v)] } }
  else s.keyPut j dw v

/-- KEY_SLOT_WRITE (R78). -/
def execKeySlotWrite (j : SlotIx) (dw : Fin 8) (v : BitVec 64) (s : State) : Outcome State Fault Refusal :=
  .next (s.keyWrite j dw.val v.toNat)

/-- KEY_SLOT_WRITE_APPLY: held writes take effect in their order once no context names the slot (R78). -/
def execKeySlotWriteApply (j : SlotIx) (s : State) : Outcome State Fault Refusal :=
  .next (s.keyFlush j)

end Sys2Proof.Machine
end

