-- ==== Sys2Proof/Machine/Switch.lean ====
section
/-! DEFINITION. The Helm's scheduling of contexts (R140 to R142), pre-emption (R160, R161), the swap and the resume (R162,
R166), the mailbox under a switch (R85), link token gives (R63), the Lookout (R143, R144), checkpoints (R167). -/

namespace Sys2Proof.Machine

open Host (Outcome)

/-! ## Mailbox writes (R80, R85) -/

/-- A register with n bytes from byte o on replaced by v. -/
def putBytes (old o n v : Nat) : Nat := setFld old (8 * o) (8 * n) v

/-- The fields of a mailbox after a write of n bytes at an offset, all within one doubleword (R80); LAUNCH actions apart. -/
def Part.mailFields (q : Part) (off n v : Nat) : Part :=
  let o := off % 8
  match off / 8 with
  | 0 => { q with image := BitVec.ofNat 56 (putBytes q.image.toNat o n v) }
  | 1 => { q with argbase := BitVec.ofNat 52 (putBytes q.argbase.toNat o n v) }
  | 2 =>
    let w := putBytes (q.size.toNat + 2 ^ 4 * q.prio.toNat + 2 ^ 8 * q.slot.toNat) o n v
    { q with size := BitVec.ofNat 4 w, prio := BitVec.ofNat 2 (fld w 5 4), slot := BitVec.ofNat 3 (fld w 10 8) }
  | 3 => { q with psel := BitVec.ofNat 3 (putBytes (q.psel.toNat * 2 ^ 32) o n v / 2 ^ 32) }
  | 7 =>
    let w := putBytes 0 o n v
    { q with even := bitAt (putBytes (ofBool q.even) o n v) 0, lerr := q.lerr && !bitAt w 1 }
  | _ => q

/-- A mailbox write that acts at once (R80, R82). -/
def State.mailNow (s : State) (p : PartIx) (off n v : Nat) : State :=
  let s := s.updPart p fun q => q.mailFields off n v
  if off / 8 = 3 ∧ off % 8 < 4 then
    let w := putBytes ((s.part p).tag.toNat * 2 ^ 8) (off % 8) n v
    s.launchWord p (bitAt w 0) (bitAt w 1) (BitVec.ofNat 8 (fld w 15 8))
  else s

/-- Whether a mailbox offset is one whose writes a switch shadows (R85). -/
def mailShadowed (off : Nat) : Bool := decide (off < 0x20) || (decide (0x38 ≤ off) && decide (off < 0x40))

/-- A mailbox write (R80, R85). -/
def State.mailWrite (s : State) (p : PartIx) (off n v : Nat) : State :=
  if mailShadowed off then (s.shadowed p off n v).getD (s.mailNow p off n v) else s

/-! ## The choice of a context (R141) -/

/-- Whether a context may be switched in: READY or PREEMPTED and not held (R140, R141). -/
def Part.runnable (q : Part) (held : BitVec 8) (j : Fin 8) : Bool :=
  (decide (q.slots[j].st = .ready) || decide (q.slots[j].st = .preempted)) && !held.getLsb j && !q.phold

/-- The context the Helm takes among some: the highest PRIO, and in it round robin after the slot last run (R141). -/
def Part.pickSlot (q : Part) (js : List (Fin 8)) : Option (Fin 8) :=
  let top := js.foldl (fun a j => max a q.slots[j].prio.toNat) 0
  let c := js.filter fun j => q.slots[j].prio.toNat == top
  match tget q.lastRun top with
  | some l => (c.find? fun j => decide (l < j.val)).or c.head?
  | none => c.head?

/-- The contexts for which the running one may be pre-empted: the PREEMPTED one alone while there is one (R142). -/
def Part.rivals (q : Part) : List (Fin 8) :=
  (List.finRange 8).filter fun j => q.runnable q.slhold j && (match q.preSlot with
    | some x => x == j
    | none => true)

/-- Whether the quantum of the running context is used and a peer of its PRIO is runnable (R141). -/
def Part.quantumUsed (q : Part) (r : Fin 8) (now : Nat) : Bool :=
  q.quant != 0 && decide (q.slots[r].since + 1024 * q.quant.toNat ≤ now) && q.rivals.any fun j => q.slots[j].prio == q.slots[r].prio

/-! ## Requests of pre-emption (R160, R161) -/

/-- Whether a core belongs to the group of a completed fix that has not been released. -/
def State.inFix (s : State) (p : PartIx) (c : CoreIx) (held : Bool) : Bool :=
  (s.part p).fixes.any fun f => (f.held || !held) && (s.grpCores p f.grp).contains c

/-- Holds the completed fixes of a partition: their releases are withdrawn, a fabric release that has come is kept (R161). -/
def State.holdFixes (s : State) (p : PartIx) : State :=
  let rel (e : Ev) : Bool := match e.instr with
    | .fixRelease x _ => p == x
    | _ => false
  let fab := s.agenda.any fun e => rel e && (match e.instr with
    | .fixRelease _ g => g.val == 56 && (s.part p).fixes.any fun f => f.fabric && f.grp == g
    | _ => false)
  let s := { s with agenda := s.agenda.filter fun e => !rel e }
  s.updPart p fun q => { q with
    fixes := q.fixes.map fun f => { f with held := true }
    relHeld := if fab then (match q.fixes.find? (fun f => f.fabric) with
      | some f => some (f.leg, 0)
      | none => q.relHeld) else q.relHeld }

/-- How a core takes part in a pre-emption requested at t: cut at a cycle, deferred, or stopped at once (R161). -/
inductive Share where
  | now
  | defer
  | cutAt (tb : Nat)
  deriving DecidableEq, Repr

/-- See `Share`: a core of a completed fix, or of a fixed leg whose due cycle lies within PBUDGET, is deferred; any other core
of a fixed leg is cut at the first step boundary from t + 64 on (R161). -/
def State.share (s : State) (p : PartIx) (c : CoreIx) (t : Nat) : Share :=
  let k := (s.core c).ctl
  if s.inFix p c false then .defer
  else if ¬ s.fixedLeg c then .now
  else
    let due := k.due.getD t
    if due ≤ t + 1024 * (s.part p).pbudget.toNat then .defer
    else .cutAt (k.tRel + 512 * ceilDiv (t + 64 - k.tRel) 512)

/-- Requests pre-emption of the running context of a partition, or merges with a request in progress (R141, R163). -/
def State.requestPreempt (s : State) (p : PartIx) (sethold : Bool) : State :=
  let q := s.part p
  match q.runSlot with
  | none => s
  | some j =>
    if q.switching ∨ q.halting.isSome then s
    else match q.outgoing with
      | some _ => s.updPart p fun q => { q with outgoing := q.outgoing.map fun x => { x with sethold := x.sethold || sethold } }
      | none =>
        let t := s.chron
        let cs := s.coresOf p
        let x : Preempt :=
          { slot := j.val, at_ := t, sethold := sethold
            cut := cs.filterMap fun c => match s.share p c t with
              | .cutAt tb => some (c.val, tb)
              | _ => none
            deferred := cs.filterMap fun c => if s.share p c t = .defer then some c.val else none }
        ((s.holdFixes p).updPart p fun q => { q with outgoing := some x }).schedP (t + haltSkew) p .preemptionComplete

/-- PREEMPTION_REQUEST (R160). -/
def execPreemptionRequest (s : State) : Outcome State Fault Refusal := .next (s.requestPreempt s.curPart false)

/-! ## Acknowledgement (R160) -/

/-- Whether a core waits at a fix whose group holds a core that stops before it can arrive (R161). -/
def State.waitsStopped (s : State) (p : PartIx) (x : Preempt) (c : CoreIx) : Bool :=
  match s.arrivalOf c with
  | none => false
  | some (n, _) => match (s.part p).leg n with
    | none => false
    | some d => (s.groupOf c d.scope).any fun y => !x.deferred.contains y.val

/-- Whether the units of a core have come to their stop (R160, R161). -/
def State.coreStops (s : State) (p : PartIx) (x : Preempt) (c : CoreIx) : Bool :=
  s.inFix p c true || (if x.deferred.contains c.val then s.waitsStopped p x c
    else match tget x.cut c.val with
      | some tb => decide (tb ≤ s.chron)
      | none => decide (x.at_ + haltSkew ≤ s.chron))

/-- Lists the open rows of a core's column and closes them as it stops; AGE counts from t_b of a cut, else from the request
(R158, R160, R161). -/
def State.stopRows (s : State) (p : PartIx) (x : Preempt) (c : CoreIx) : State :=
  let f := (tget x.cut c.val).getD x.at_
  let k := s.col c
  let rows := (k.openRows s.chron).map fun r => (c.val, r.1, r.2.1, min (f - r.2.2) 16383)
  let s := s.closeRows c (k.openIn (BitVec.allOnes 32) s.chron) s.chron
  s.updPart p fun q => { q with outgoing := q.outgoing.map fun x => { x with closed := (c.val, s.chron) :: x.closed, rows := x.rows ++ rows } }

/-- Whether a word in flight may be saved as it is: one of the VEC, an IDLE whose count runs on after the resume (R270), a row-source word that waits, a word that waits for its
accesses (R160, R371, R382). -/
def Core.savable (k : Core) (w : Inflight) (now : Nat) : Bool :=
  w.eng == .vec || isIdle w.instr || (w.eng == .bke && k.bke.stall.isSome) || (decide (w.doneAt ≤ now) && w.beats.isEmpty)

/-- Whether an access has been refused, or waits behind one that has: it is made again at the resume (R160). -/
def State.regenerated (s : State) (r : Req) : Bool := !r.done && r.sent.isNone && (r.refused || s.reqWaits r)

/-- Whether a core acknowledges (R160). -/
def State.acks (s : State) (x : Preempt) (c : CoreIx) : Bool :=
  let k := s.core c
  (tget x.closed c.val).isSome && (s.col c).allClosed s.chron && k.pipe.infl.all (fun w => k.savable w s.chron)
    && (match k.axu.stqA.find? (fun x => !x.done) with
      | some x => !x.sent || x.reqd
      | none => true)
    && k.cpe.inFlight == 0 && s.reqs.all fun r => !r.ofCores [c] || s.regenerated r

/-- Step count of a cut core (R161). -/
def State.cutStep (s : State) (c : CoreIx) (tb : Nat) : Nat := (tb - (s.core c).ctl.tRel) / 512

/-- Whether the step counts of the cores cut in one group differ (R161, fault 0x46). -/
def State.stepsDiffer (s : State) (p : PartIx) (cut : List (Nat × Nat)) : Bool :=
  let key (c : CoreIx) : GroupIx := groupIx c ((((s.part p).leg (s.core c).ctl.legno.toNat).map (·.scope)).getD 3)
  cut.any fun a => cut.any fun b =>
    if ha : a.1 < 288 then if hb : b.1 < 288 then
      (key ⟨a.1, ha⟩ == key ⟨b.1, hb⟩ && s.cutStep ⟨a.1, ha⟩ a.2 != s.cutStep ⟨b.1, hb⟩ b.2) else false else false

/-! ## Shifting a core in time (R162) -/

/-- A cycle moved on by d; 0 and a cycle no run reaches stay. -/
def moveOn (d t : Nat) : Nat := if t = 0 ∨ never ≤ t then t else t + d

/-- See `moveOn`. -/
def Queue.moveOn (d : Nat) (q : Queue) : Queue :=
  { q with
    base := Machine.moveOn d q.base
    notBefore := Machine.moveOn d q.notBefore
    idleEnd := Machine.moveOn d q.idleEnd
    stopAt := q.stopAt.map (Machine.moveOn d)
    progress := Machine.moveOn d q.progress }

/-- See `moveOn`. -/
def GenJob.moveOn (d : Nat) (j : GenJob) : GenJob :=
  { j with cycle := Machine.moveOn d j.cycle, snap := { j.snap with queue := j.snap.queue.moveOn d } }

/-- See `moveOn`. The numbers a VEC word latches hold cycles at the places given. -/
def Inflight.moveOn (d : Nat) (w : Inflight) : Inflight :=
  let at_ : List Nat := match w.instr with
    | .vld .. => [5]
    | .vst .. => [2]
    | .vsumz .. => [1, 2]
    | _ => []
  { w with
    issued := Machine.moveOn d w.issued
    doneAt := Machine.moveOn d w.doneAt
    beats := w.beats.map fun b => { b with at_ := Machine.moveOn d b.at_ }
    lat := if w.eng = .vec then w.lat.mapIdx fun i v => if at_.contains i then Machine.moveOn d v else v else w.lat }

/-- The sequencer, control registers and access unit moved on. -/
def Core.moveFront (d : Nat) (k : Core) : Core :=
  let m := Machine.moveOn d
  { k with
    seq := { k.seq with
      gReady := k.seq.gReady.map m
      fix := k.seq.fix.map fun f => { f with arrived := f.arrived.map m, since := m f.since }
      q := k.seq.q.moveOn d }
    ctl := { k.ctl with tRel := m k.ctl.tRel, due := k.ctl.due.map m, seqGave := [] }
    stat := { k.stat with trap24 := k.stat.trap24.map fun x => (x.1, m x.2) }
    axu := { k.axu with
      q := k.axu.q.moveOn d
      ldq := k.axu.ldq.map fun e => { e with fillAt := m e.fillAt, filled := e.filled.map m }
      stqA := k.axu.stqA.map fun e => { e with gen := m e.gen, perf := m e.perf }
      gen := k.axu.gen.map (GenJob.moveOn d)
      past := k.axu.past.map (GenJob.moveOn d)
      genFree := m k.axu.genFree
      soft := k.axu.soft.map fun f => { f with job := f.job.moveOn d } } }

/-- The other engines moved on. -/
def Core.moveBack (d : Nat) (k : Core) : Core :=
  let m := Machine.moveOn d
  { k with
    bke := { k.bke with q := k.bke.q.moveOn d, rowDue := k.bke.rowDue.map m, rowLastUse := m k.bke.rowLastUse }
    vec := { k.vec with
      q := k.vec.q.moveOn d
      vReady := k.vec.vReady.map m
      kReady := k.vec.kReady.map m
      modeOld := k.vec.modeOld.map fun x => (m x.1, x.2)
      replayLast := m k.vec.replayLast }
    cpe := { k.cpe with
      free := m k.cpe.free
      hist := k.cpe.hist.map m
      follow := k.cpe.follow.map fun x => (x.1, m x.2)
      poll := k.cpe.poll.map m
      look := m k.cpe.look
      cmds := k.cpe.cmds.map fun x => { x with entered := m x.entered, active := x.active.map fun y => (y.1, m y.2) } }
    pipe := { k.pipe with
      claims := k.pipe.claims.map fun x => { x with lo := m x.lo, hi := m x.hi }
      busy := k.pipe.busy.map fun x => { x with lo := m x.lo, hi := m x.hi }
      infl := k.pipe.infl.map (Inflight.moveOn d) } }

/-- A core moved on by d cycles (R162). -/
def Core.moveOn (d : Nat) (k : Core) : Core := (k.moveFront d).moveBack d

/-- A queue that issues nothing before a release. -/
def Queue.heldTo (rel : Nat) (q : Queue) : Queue := { q with notBefore := max q.notBefore rel }

/-- A saved core restored over the present one: moved on, held to its release; what is no part of the register context stays
(R166, R189, R192). Statistics windows begin at the switch-in (R243). -/
def Core.restored (cur saved : Core) (d rel tin : Nat) : Core :=
  let k := saved.moveOn d
  let k := { k with
    seq := { k.seq with q := k.seq.q.heldTo rel, hvecL := cur.seq.hvecL }
    ctl := { k.ctl with rngL := cur.ctl.rngL, rwinL := cur.ctl.rwinL, secnt := cur.ctl.secnt }
    axu := { k.axu with q := k.axu.q.heldTo rel }
    bke := { k.bke with q := k.bke.q.heldTo rel }
    vec := { k.vec with q := k.vec.q.heldTo rel }
    hcPinned := cur.hcPinned
    hcUnpinned := cur.hcUnpinned
    killed := cur.killed }
  k.statStart tin

/-- A core whose Lookout counts are reset (R144). -/
def Core.lookReset (t : Nat) (k : Core) : Core :=
  let r (q : Queue) : Queue := { q with progress := t, lookStep := 0 }
  { k with
    seq := { k.seq with q := r k.seq.q }
    axu := { k.axu with q := r k.axu.q }
    bke := { k.bke with q := r k.bke.q }
    vec := { k.vec with q := r k.vec.q }
    cpe := { k.cpe with look := t, lookStep := 0 } }

/-! ## The resume (R162) -/

/-- Cycles of one swap (R142, R166). -/
def swapCycles : Nat := 560

/-- The scope of the leg a saved core runs. -/
def Shadow.scopeOf (h : Shadow) (legs : List LegDesc) (c : Nat) : Nat :=
  match tget h.cores c with
  | some k => if k.ctl.legno = 0 then 3 else ((legs[k.ctl.legno.toNat - 1]?).map (·.scope)).getD 3
  | none => 3

/-- The group a core of a saved context resumes with: that of its leg. -/
def Shadow.groupOf (h : Shadow) (legs : List LegDesc) (c : CoreIx) : GroupIx := groupIx c (h.scopeOf legs c.val)

/-- The release cycle of a core after a switch-in that ends at t_in, and the shift of its timetable: a free group stood still from
the request's arrival on, a deferred one from the end of the pre-emption (R161, R162). -/
def Shadow.resume (h : Shadow) (legs : List LegDesc) (tin : Nat) (c : CoreIx) : Nat × Nat :=
  match tget h.cut c.val with
  | none => (tin + 48, tin + 48 - (if h.deferred.contains c.val then h.heldAt else h.at_))
  | some tb =>
    let g := h.groupOf legs c
    let mine (x : Nat) : Bool := if hx : x < 288 then (tget h.cut x == some tb && h.groupOf legs ⟨x, hx⟩ == g) else false
    let age := h.rows.foldl (fun a r => if mine r.1 then max a r.2.2.2 else a) 0
    let n := ceilDiv (tin + 48 + age - tb) refPer
    (tb + refPer * n, refPer * n)

/-- Schedules the reactivation of the rows of a saved context (R162). -/
def State.reactivate (s : State) (h : Shadow) (legs : List LegDesc) (tin : Nat) : State :=
  h.rows.foldl (fun s r =>
    if hc : r.1 < 288 then
      let c : CoreIx := ⟨r.1, hc⟩
      let mine := h.rows.filter fun x => x.1 == r.1
      let after := (mine.filter fun x => decide (r.2.1 < x.2.1)).length
      let t := if (tget h.cut r.1).isSome then (h.resume legs tin c).1 - r.2.2.2 else tin + 30 - 5 * after
      s.schedC t c (.rowReactivation c (Fin.ofNat 32 r.2.1) (BitVec.ofNat 11 r.2.2.1))
    else s) s

/-- ROW_REACTIVATION: a listed row is activated, unless its context stops again before, which lists it again, or has ended
(R162). -/
def execRowReactivation (col : CoreIx) (bank : Fin 32) (row : BitVec 11) (s : State) : Outcome State Fault Refusal :=
  .next (match s.partOf col with
  | none => s
  | some p =>
    let q := s.part p
    if q.halting.isSome ∨ (q.runSlot.isNone ∧ ¬ q.switching) then s
    else if s.preStopped col ∧ ¬ q.switching then
      s.updPart p fun q => { q with outgoing := q.outgoing.map fun x => { x with rows := x.rows ++ [(col.val, bank.val, row.toNat, 0)] } }
    else s.activate col bank row s.chron)

/-! ## The switch (R142, R166) -/

/-- Code of a slot's STATE (R81). -/
def CtxState.code : CtxState → Nat
  | .idle => 0 | .check => 1 | .load => 2 | .ready => 3 | .run => 4 | .preempted => 5 | .done => 6 | .fault => 7 | .killed => 8
  | .rejected => 9

/-- PROGRESS of a context in slot j, but for SWITCHING (R81). -/
def Slot.progress (x : Slot) (j : Nat) : Nat :=
  x.st.code + 2 ^ 5 * j + 2 ^ 8 * x.tag.toNat + 2 ^ 16 * x.leg.toNat + 2 ^ 32 * x.course.toNat + 2 ^ 35 * ofBool x.ndcyc + 2 ^ 40 * x.code.toNat

/-- Begins a switch: of a context out, of one in, or both, 560 cycles each, SWITCHING set (R142). -/
def State.beginSwitch (s : State) (p : PartIx) (out : Option Preempt) (inc : Option (Fin 8)) : State :=
  let tin := s.chron + swapCycles * (ofBool out.isSome + ofBool inc.isSome)
  let s := s.updPart p fun q => { q with
    switching := true, outgoing := out, incoming := inc.map (·.val)
    atCut := (List.finRange 8).map fun (i : Fin 8) => (q.slots[i].progress i.val, q.slots[i].exit.toNat)
    stopAtCut := q.stopbase.toNat }
  let q := s.part p
  let s := match inc, q.shadow with
    | some j, some h => if q.slots[j].st = CtxState.preempted then s.reactivate h q.slots[j].legs tin else s
    | _, _ => s
  s.schedP tin p .switchEnd

/-- Ends the pre-emption of a context that every core has acknowledged, and begins the swap (R160, R161, R166). -/
def State.preemptDone (s : State) (p : PartIx) (x : Preempt) (inc : Option (Fin 8)) : State :=
  let cs := s.coresOf p
  let cut := x.cut.filter fun y => if h : y.1 < 288 then !s.inFix p ⟨y.1, h⟩ true else false
  if s.stepsDiffer p cut then s.partFault p 0x46
  else
    let mine (e : Ev) : Bool := coreEvent e.instr && cs.contains e.core
    let evs := (s.agenda.filter mine).map fun e => (e.cycle, e.core.val, e.instr)
    let reqs := s.reqs.filter fun r => r.ofCores cs
    let s := { s with agenda := s.agenda.filter fun e => !s.ofContext cs e && !fixEvent p e.instr }
    let s := { s with reqs := s.reqs.filter fun r => !r.ofCores cs }
    let s := s.updPart p fun q => q.updSlot (Fin.ofNat 8 x.slot) fun t => { t with ndcyc := t.ndcyc || !cut.isEmpty }
    let x : Preempt := { x with cut := cut, evs := x.evs ++ evs, reqs := reqs, stopped := some s.chron }
    s.beginSwitch p (some x) inc

/-- PREEMPTION_COMPLETE: units that have come to their stop close their rows; once the collector holds every acknowledgement
the swap begins, of the PREEMPTED context in the shadow when there is one. It looks again every cycle (R160, R142). -/
def execPreemptionComplete (s : State) : Outcome State Fault Refusal :=
  let p := s.curPart
  .next (match (s.part p).outgoing with
  | none => s
  | some x =>
    if x.stopped.isSome ∨ (s.part p).halting.isSome then s
    else
      let s := (s.coresOf p).foldl (fun s c =>
        if s.coreStops p x c && (tget x.closed c.val).isNone then s.stopRows p x c else s) s
      let again : State := s.schedP (s.chron + 1) p .preemptionComplete
      match (s.part p).outgoing with
      | none => s
      | some x =>
        let q := s.part p
        if ¬ (s.coresOf p).all fun c => s.acks x c then again
        else
          let held := if x.sethold then q.slhold ||| (1 <<< x.slot) else q.slhold
          let js := (List.finRange 8).filter fun j => q.runnable held j && j.val != x.slot
          match q.preSlot with
          | some j => if js.contains j then s.preemptDone p x (some j) else again
          | none => s.preemptDone p x (q.pickSlot js))

/-- HELM_SCHEDULE: requests pre-emption for a context of higher PRIO or at the end of a quantum; with no context in RUN it
switches the next one in (R141, R142). -/
def execHelmSchedule (s : State) : Outcome State Fault Refusal :=
  let p := s.curPart
  let s := s.updPart p fun q => { q with schedDue := none }
  let q := s.part p
  .next (if q.switching ∨ q.halting.isSome ∨ q.outgoing.isSome then s
  else match q.runSlot with
    | some r =>
      if q.rivals.any (fun j => decide (q.slots[r].prio.toNat < q.slots[j].prio.toNat)) || q.quantumUsed r s.chron then
        s.schedP s.chron p .preemptionRequest
      else s.armQuantum p r
    | none => match q.pickSlot ((List.finRange 8).filter fun j => q.runnable q.slhold j) with
      | some j => s.beginSwitch p none (some j)
      | none => s)

/-- QUANTUM_EXPIRY (R141). -/
def execQuantumExpiry (s : State) : Outcome State Fault Refusal :=
  let q := s.part s.curPart
  .next (match q.runSlot with
  | some r => if ¬ q.switching ∧ q.halting.isNone ∧ q.outgoing.isNone ∧ q.quantumUsed r s.chron then
      s.schedP s.chron s.curPart .preemptionRequest else s
  | none => s)

/-! ## Link token gives (R63) -/

/-- A core with c tokens added to a link token counter, or none when it would pass 4,095 (R63). -/
def Core.giveLink (k : Core) (j : Fin 4) (c : Nat) : Option Core :=
  let n := k.ctl.ltc[j].toNat + c
  if n ≤ 4095 then some { k with ctl := { k.ctl with ltc := k.ctl.ltc.set j (BitVec.ofNat 12 n) } } else none

/-- Credits a link token give to the linked context of a partition that is not switching: the running one, else the one held
PREEMPTED, which then is not clean (R168). The answer is none when there is neither (R63). -/
def State.creditLink (s : State) (p : PartIx) (core : CoreIx) (j : Fin 4) (c : Nat) : Option State :=
  let q := s.part p
  if q.runSlot.isSome then
    match (s.core core).giveLink j c with
    | some k => some (s.setCore core k)
    | none => some (s.partFault p 0x42)
  else match q.shadow with
    | some h =>
      if q.preSlot.isNone then none
      else match (tget h.cores core.val).bind fun k => k.giveLink j c with
        | some k => some (s.updPart p fun q =>
            { q with shadow := some { h with cores := tput h.cores core.val k }, ckclean := q.ckclean && !q.ckheld })
        | none => some (s.partFault p 0x42)
    | none => none

/-- A give that comes during a switch adds to its pending count; what passes 4,095 is kept apart (R63). -/
def State.pendLink (s : State) (p : PartIx) (core : CoreIx) (j : Fin 4) (c : Nat) : State :=
  s.updPart p fun q =>
    let old := (q.tkPend.find? fun x => x.1 == core.val && x.2.1 == j.val).getD (core.val, j.val, 0, 0)
    let n := old.2.2.1 + c
    let new := (core.val, j.val, min 4095 n, old.2.2.2 + (n - 4095))
    { q with tkPend := (q.tkPend.filter fun x => !(x.1 == core.val && x.2.1 == j.val)) ++ [new] }

/-- An overflowing addition to a link token counter of the linked context: the counter stays and 0x42 is raised (R63). -/
def State.linkOverflow (s : State) (p : PartIx) : State :=
  if (s.part p).runSlot.isSome ∨ (s.part p).preSlot.isSome then s.partFault p 0x42 else s

/-- The pending counts are added at the end of a switch, the excess of one as an overflowing addition (R63). With no linked context
left they are dropped, with no count in MALF (DESIGN CHOICE, log 64: the port that brought them is no longer known). -/
def State.creditPending (s : State) (p : PartIx) : State :=
  let xs := (s.part p).tkPend
  let s := s.updPart p fun q => { q with tkPend := [] }
  xs.foldl (fun s x =>
    if h : x.1 < 288 then
      let s := (s.creditLink p ⟨x.1, h⟩ (Fin.ofNat 4 x.2.1) x.2.2.1).getD s
      if x.2.2.2 = 0 then s else s.linkOverflow p
    else s) s

/-! ## The end of a switch -/

/-- The stop records of a context switched out, one for each unit of its cores, with PRE = 1 (R156, R160): FCYCLE is t_b of a cut, else
the request cycle. -/
def State.preRecords (s : State) (p : PartIx) (x : Preempt) : List (Nat × Nat × List Byte) :=
  (s.coresOf p).flatMap fun c => (List.range 6).map fun e =>
    let (leg, course, fixed) := s.legInfo c
    let hdr : StopHdr :=
      { eng := e, fixed := fixed, pre := true, core := c.val, leg := leg, course := course, aux := if e = 5 then 0xFF else 0
        fcycle := (tget x.cut c.val).getD x.at_, scycle := (tget x.closed c.val).getD s.chron }
    (c.val, e, if e = 5 then rowRecord hdr ((x.rows.filter fun r => r.1 == c.val).map fun r => (r.2.1, r.2.2.1, r.2.2.2))
      else s.engRecord c hdr none)

/-- The shadow of a context switched out (R166): its cores as they stand, its units' stop records, and what its partition held for it. -/
def State.shadowOf (s : State) (p : PartIx) (x : Preempt) : Shadow :=
  let q := s.part p
  let cs := s.coresOf p
  let held (c : CoreIx) : Bool := s.inFix p c true
  { slot := x.slot
    cores := cs.map fun c => (c.val, if x.sethold && !x.checkpoint then (s.core c).lookReset (x.at_ + haltSkew) else s.core c)
    rows := x.rows
    done := q.fixes
    cut := x.cut
    at_ := x.at_ + haltSkew
    heldAt := x.stopped.getD s.chron
    deferred := (cs.filter fun c => held c || x.deferred.contains c.val).map (·.val)
    records := s.preRecords p x
    reqs := x.reqs
    evs := x.evs
    lastRel := q.lastRel
    cutUnits := (clustersOf (cs.filter fun c => !held c)) ++ q.cutUnits
    arrHeld := q.arrHeld
    relHeld := q.relHeld
    awaiting := q.awaiting
    sentArr := q.sentArr }

/-- A context has been switched out: the slot is PREEMPTED, and held when the Lookout or a checkpoint asked for it, with CLEAN as its
cores stand (R142, R144, R167, R168). The row input of the columns' cores goes with the cores. -/
def State.switchedOut (s : State) (p : PartIx) (x : Preempt) : State :=
  let s := s.updPart p fun q => { q with
    fixes := [], arrHeld := [], relHeld := none, awaiting := none, sentArr := false, outgoing := none
    slhold := if x.sethold then q.slhold ||| (1 <<< x.slot) else q.slhold
    ckheld := x.checkpoint
    ckclean := if x.checkpoint then (s.coresOf p).all fun c => s.coreClean c else q.ckclean }
  let s := (s.coresOf p).foldl (fun s c => s.upd c fun k =>
    { seq := { hvecL := k.seq.hvecL }
      ctl := { rngL := k.ctl.rngL, rwinL := k.ctl.rwinL, secnt := k.ctl.secnt }
      hcPinned := k.hcPinned, hcUnpinned := k.hcUnpinned, killed := k.killed }) s
  s.slotTo p (Fin.ofNat 8 x.slot) .preempted

/-- The groups of a resumed context with their release cycles: each held fix, and the legs of the other cores (R162). -/
def Shadow.groups (h : Shadow) (legs : List LegDesc) (tin : Nat) (cs : List CoreIx) (heldCore : CoreIx → Bool) : List (GroupIx × Nat) :=
  ((h.done.map fun f => (f.grp, tin + 48)) ++
    ((cs.filter fun c => !heldCore c).map fun c => (h.groupOf legs c, (h.resume legs tin c).1))).eraseDups

/-- A PREEMPTED context has been switched in: its cores are restored and moved on, its events and refused accesses come back, its
groups have their resume-fix (R162, R166). -/
def State.switchedIn (s : State) (p : PartIx) (j : Fin 8) (h : Shadow) : State :=
  let tin := s.chron
  let legs := (s.part p).slots[j].legs
  let cs := s.coresOf p
  let at_ (c : CoreIx) : Nat × Nat := h.resume legs tin c
  let s := cs.foldl (fun s c => match tget h.cores c.val with
    | some k => s.upd c fun cur => cur.restored k (at_ c).2 (at_ c).1 tin
    | none => s) s
  let s := s.updPart p fun q =>
    { q.updSlot j (fun x => { x with since := tin }) with
      legs := legs, fixes := h.done, arrHeld := h.arrHeld, relHeld := h.relHeld, awaiting := h.awaiting, sentArr := h.sentArr
      cutUnits := h.cutUnits, lastRun := tput q.lastRun q.slots[j].prio.toNat j.val
      lastRel := h.lastRel.map fun x => (x.1, match cs.find? (fun c => (clusterOf c).val == x.1) with
        | some c => x.2 + (at_ c).2
        | none => x.2) }
  let s := h.evs.foldl (fun s e => if hc : e.2.1 < 288 then s.schedC (e.1 + (at_ ⟨e.2.1, hc⟩).2) ⟨e.2.1, hc⟩ e.2.2 else s) s
  let s := h.reqs.foldl (fun s r =>
    let again : Instr := if r.refused then .refusalRetry r.id else if r.own then .accessResponse r.id else .pageWalk r.id
    ({ s with reqs := s.reqs ++ [r] }).schedC (at_ r.core).1 r.core again) s
  let s := (h.groups legs tin cs (fun c => s.inFix p c false)).foldl (fun s g => s.schedP g.2 p (.resumeFix p g.1)) s
  (s.slotTo p j .run).armQuantum p j

/-- SWITCH_END: the states of the contexts change, then the shadowed mailbox writes apply in order, the pending gives are
credited, and a fault of the swap acts on the stored context (R85, R142, R163). -/
def State.switchEnd (s : State) (p : PartIx) : State :=
  let q := s.part p
  if ¬ q.switching then s
  else
    let old := q.shadow
    let inc := q.incoming.map fun n => Fin.ofNat 8 n
    let out := q.outgoing.map fun x => (x, s.shadowOf p x)
    let s := s.updPart p fun q => { q with switching := false, incoming := none, atCut := [] }
    let s := match out with
      | some (x, _) => s.switchedOut p x
      | none => s
    let back := inc.any fun j => q.slots[j].st == .preempted
    let s := s.updPart p fun q => { q with
      shadow := (match out with
        | some (_, h) => some h
        | none => if back then none else old)
      ckheld := q.ckheld && !(out.isNone && back) }
    let s := match inc with
      | none => s
      | some j => (match q.slots[j].st, old with
        | .preempted, some h => s.switchedIn p j h
        | .ready, _ => s.startContext p j
        | _, _ => s)
    let ws := (s.part p).shadowWr
    let s := s.updPart p fun q => { q with shadowWr := [] }
    let s := ws.foldl (fun s w => s.mailNow p w.off w.len w.val) s
    let s := s.creditPending p
    let s := match q.swapFault with
      | none => s
      | some code =>
        let s := s.updPart p fun q => { q with swapFault := none }
        if (s.part p).preSlot.isSome then s.storedFault p code
        else s.hardFault p { code := code, cycle := s.chron, core := 0x1FF, eng := 0, pc := -1 } true
    (s.kickHelm p).hotCheckAll

/-- SWITCH_END (R142). -/
def execSwitchEnd (s : State) : Outcome State Fault Refusal := .next (s.switchEnd s.curPart)

/-! ## The resume-fix (R162) -/

/-- Whether the agenda holds an event. -/
def State.due (s : State) (c : CoreIx) (i : Instr) : Bool := s.agenda.any fun e => e.core == c && e.instr == i

/-- Has a core that resumes go on with what it had under way: arrival at its fix, accesses to generate, sectors, follow-on
words, the replay queue. -/
def State.poke (s : State) (c : CoreIx) : State :=
  let k := s.core c
  let want (b : Bool) (i : Instr) (s : State) : State := if b && !s.due c i then s.schedC s.chron c i else s
  let s := want (k.seq.fix.any fun f => f.arrived.isNone) .coreArrival s
  let s := want (!k.axu.gen.isEmpty) .accessGeneration s
  let s := want (!k.cpe.follow.isEmpty) .followOnIssue s
  let s := want (!k.vec.replay.isEmpty) .replayQueueLeave s
  s.cpePump c

/-- Schedules the completion of the fix a core has arrived at when its whole group has (R130). -/
def State.rearm (s : State) (p : PartIx) (c : CoreIx) : State :=
  match s.arrivalOf c with
  | none => s
  | some (n, _) => match (s.part p).leg n with
    | none => s
    | some d =>
      let g := groupIx c d.scope
      let cs := s.grpCores p g
      if s.allArrived cs n ∧ ¬ (s.part p).fixes.any (fun f => f.grp == g) ∧ ¬ s.agenda.any (fun e => e.instr == .fixComplete p g) then
        s.schedP (cs.foldl (fun a x => max a (s.dueOf x (((s.arrivalOf x).map (·.2)).getD 0))) s.chron) p (.fixComplete p g)
      else s

/-- RESUME_FIX: a held fix is released with the course chosen when it was held, a fabric one once its release has come; any
other group goes on where it stopped (R162). -/
def execResumeFix (p : PartIx) (grp : GroupIx) (s : State) : Outcome State Fault Refusal :=
  .next (match (s.part p).fixes.find? (fun f => f.grp == grp) with
  | some f =>
    let s := s.updPart p fun q => { q with fixes := q.fixes.map fun x => if x.grp = grp then { x with held := false } else x }
    let f := { f with held := false }
    if ¬ f.fabric ∨ (s.part p).relHeld.isSome then s.releaseFix p f else s.tryFabric p
  | none =>
    let legs := (s.part p).legs
    let mine := (s.coresOf p).filter fun c =>
      let n := (s.core c).ctl.legno.toNat
      let scope := if n = 0 then 3 else ((legs[n - 1]?).map (·.scope)).getD 3
      groupIx c scope == grp && !s.inFix p c false
    mine.foldl (fun s c => (s.poke c).rearm p c) s)

/-! ## The Lookout (R143, R144) -/

/-- Notes a firing in LKSTAT unless it holds one, and on the queue that fired (R143). -/
def State.lookFired (s : State) (c : CoreIx) (e : Eng) (stp : Nat) : State :=
  let mark (k : Core) : Core := match e with
    | .cpe => { k with cpe := { k.cpe with look := s.chron, lookStep := stp } }
    | e => k.setQueue e { k.queue e with progress := s.chron, lookStep := stp }
  let v := c.val + 2 ^ 9 * e.num + 2 ^ 12 * stp + 2 ^ 15
  match s.partOf c with
  | none => s.upd c mark
  | some p => (s.upd c mark).updPart p fun q => { q with lkstat := if q.lkstat.getLsbD 15 then q.lkstat else BitVec.ofNat 16 v }

/-- LOOKOUT_T1: pre-emption is requested, and the slot held when it completes (R144). -/
def execLookoutT1 (core : CoreIx) (eng : Eng) (s : State) : Outcome State Fault Refusal :=
  let s := s.lookFired core eng 1
  .next (match s.partOf core with
  | some p => s.requestPreempt p true
  | none => s)

/-- The kill of a running context by the Lookout (R144). -/
def State.lookKill (s : State) (p : PartIx) : State :=
  match (s.part p).runSlot with
  | some j => s.kill p j
  | none => s

/-- LOOKOUT_T2: the running context is killed with cause 0x45 (R144). -/
def execLookoutT2 (core : CoreIx) (eng : Eng) (s : State) : Outcome State Fault Refusal :=
  let s := s.lookFired core eng 2
  .next (match s.partOf core with
  | some p => s.lookKill p
  | none => s)

/-- LOOKOUT_T3: the core is fenced: off the ring and the fabric, LIVE 0 in the survey; 0x75 is raised and the context is killed
(R144, R33). -/
def execLookoutT3 (core : CoreIx) (eng : Eng) (s : State) : Outcome State Fault Refusal :=
  let s := s.lookFired core eng 3
  let s := (s.upd core fun k => { k with killed := true }).updCol core fun k => { k with live := false }
  let s := s.surveyChange false
  .next (match s.partOf core with
  | some p => s.hardFault p { code := 0x75, cycle := s.chron, core := 0x1FF, eng := 0, pc := -1, kill := true }
  | none => s)

/-! ## Checkpoints (R167) -/

/-- CHECKPOINT_REQUEST: CKCTL with REQ = 1 and a leg (R167). -/
def State.checkpoint (s : State) (p : PartIx) (leg : BitVec 16) : State :=
  s.updPart p fun q => { q with ckleg := leg, ckreq := true }

/-- CHECKPOINT_REQUEST (R167). -/
def execCheckpointRequest (p : PartIx) (leg : BitVec 16) (s : State) : Outcome State Fault Refusal := .next (s.checkpoint p leg)

end Sys2Proof.Machine
end

