-- ==== Sys2Proof/Machine/Halt.lean ====
section
/-! DEFINITION. The halt of a partition (R148 to R151, R155 to R159), the repair of a row bus (R217), the freeze wire and the
host's scan reads (R164, R165). -/

namespace Sys2Proof.Machine

open Host (Outcome)

/-! ## PARTITION_HALT -/

/-- Cycles from the fault to the first in which every engine has stopped: the skew of the halt line and the skid bound (R148,
R149). -/
def haltStopped : Nat := haltSkew + 32 + 1

/-- The halt line reaches every unit: arrivals are discarded, a checkpoint request is cleared, the rows that are open are listed
and closed (R132, R149, R158, R167). -/
def State.haltSeen (s : State) (p : PartIx) (h : Halting) : State :=
  let s := s.dropFixes p
  let cs := s.coresOf p
  let rows := cs.flatMap fun c => ((s.col c).openRows s.chron).map fun r => (c.val, r)
  let s := cs.foldl (fun s c => s.closeRows c ((s.col c).openIn (BitVec.allOnes 32) s.chron) s.chron) s
  let s := s.updPart p fun q => { q with ckreq := false, outgoing := none, halting := some { h with phase := 1, rows := rows } }
  { s with agenda := agendaFirst s.agenda { cycle := h.cycle + haltStopped, core := s.cur, part := p, link := s.curLink, instr := .partitionHalt } }

/-- Whether a core has a MULB or MACD in flight that has not had its effect (R371). -/
def Core.mulInFlight (k : Core) : Bool := k.pipe.infl.any fun w => !w.acted && match w.instr with
  | .mulb .. | .macd .. => true
  | _ => false

/-- Whether a word is an RCON. -/
def isRcon : Instr → Bool
  | .rcon .. => true
  | _ => false

/-- The lane beats of row beats that have been delivered are written (R149, R217). -/
def State.rowBeatsEnd (s : State) (c : CoreIx) : State :=
  ((s.core c).pipe.infl.filter fun w => isRcon w.instr).foldl (fun s w =>
    w.beats.foldl (fun s b => if b.write then { s with memory := writeBytes s.memory b.key b.bytes } else s) s) s

/-- The skid ends, before the next cycle's words have their effects: what has not been performed or retired is abandoned (R149, R151,
R371, R382). -/
def State.haltSkidded (s : State) (p : PartIx) (h : Halting) : State :=
  let cs := s.coresOf p
  let s := cs.foldl State.rowBeatsEnd s
  let s := s.abandon cs
  let s := cs.foldl (fun s c => s.upd c fun k =>
    { k with
      bke := { k.bke with mulbf := k.mulInFlight, stall := none }
      pipe := { k.pipe with infl := [], claims := [], busy := [] }
      seq := { k.seq with hold := none, haltWait := none, heldTrap := none } }) s
  let s := s.updPart p fun q => { q with halting := some { h with phase := 2 } }
  s.schedP (h.cycle + haltSkew + haltSkid) p .partitionHalt

/-- Whether a unit (a core, an engine slot) is the originating one of a halt (R150). -/
def State.originates (s : State) (p : PartIx) (h : Halting) (c : CoreIx) (e : Nat) : Bool :=
  !h.kill && s.logical p c == h.core && e == h.eng

/-- What a unit raised in the cycle of the fault, if it raised one: such a unit has ORIG = 1 and its own code (R156). -/
def State.raised (s : State) (p : PartIx) (h : Halting) (c : CoreIx) (e : Nat) : Option FaultSrc :=
  if h.kill then none else (h.src :: h.others).find? fun x => x.core == s.logical p c && x.eng == e

/-- Writes the stop record of a unit of a halted partition (R150, R155 to R158). The cycle at which it stopped lies within its skid
bound. -/
def State.haltRecord (s : State) (p : PartIx) (h : Halting) (c : CoreIx) (e : Nat) : State :=
  let src := s.raised p h c e
  let (leg, course, fixed) := s.legInfo c
  let (ix, s) := s.draw
  let bound := if e = 5 then haltSkid else 32
  let hdr : StopHdr :=
    { cause := (src.map (·.code)).getD h.code, eng := e, orig := src.isSome, fixed := fixed, core := c.val, leg := leg, course := course
      aux := if e = 5 then (src.map (·.beat)).getD 0xFF else 0
      fcycle := h.cycle, scycle := h.cycle + haltSkew + Config.stopSkid ix % (bound + 1) }
  let bs := if e = 5 then rowRecord hdr ((h.rows.filter fun r => r.1 == c.val).map fun r => (r.2.1, r.2.2.1, h.cycle - r.2.2.2))
    else s.engRecord c hdr (src.map fun x => (x.pc, x.ia, x.handle)) none (src.bind (·.nests))
  s.stopWrite p (s.logical p c) e bs

/-- Every unit of a partition that writes a record (R150). A fenced core writes none (R144). -/
def State.haltUnits (s : State) (p : PartIx) : List (CoreIx × Nat) :=
  ((s.coresOf p).filter fun c => !(s.core c).killed).flatMap fun c => (List.range 6).map fun e => (c, e)

/-- PHALT after a halt; it is not rewritten while V = 1 (R159). -/
def State.writePhalt (s : State) (p : PartIx) (h : Halting) : State :=
  s.updPart p fun q =>
    if q.phalt.getLsbD 31 then q
    else { q with phalt := (q.phalt &&& (1 <<< 30)) ||| BitVec.ofNat 32 (h.code % 256 + h.core % 512 * 2 ^ 8 + h.eng % 8 * 2 ^ 17 + 2 ^ 31) }

/-- Schedules the repair of the buses of the partition whose beats failed (R217). -/
def State.repairs (s : State) (p : PartIx) : State :=
  (s.coresOf p).foldl (fun s c => if (s.col c).repair then s.schedC s.chron c .busRepair else s) s

/-- The halt ends: PHALT, then FAULT or KILLED with its code, then the mailbox event (R150, R144). -/
def State.haltEnd (s : State) (p : PartIx) (h : Halting) : State :=
  let s := (s.writePhalt p h).updPart p fun q => { q with halting := none, ckreq := false }
  let s := s.repairs p
  match (s.part p).runSlot with
  | none => s
  | some j => if h.kill then s.endSlot p j .killed 0 else s.endSlot p j .fault h.code

/-- Whether a stop record of a partition still waits to be written (R155). -/
def State.recordsWait (s : State) (p : PartIx) : Bool := s.reqs.any fun r => match r.dest with
  | .stopRec q _ _ => q == p.val
  | _ => false

/-- Writes the records of some units; while one of the partition's still waits the halt stands at a phase, and then goes on (R150, R155). -/
def State.haltRest (s : State) (p : PartIx) (h : Halting) (us : List (CoreIx × Nat)) (phase : Nat) (k : State → State) : State :=
  let s := us.foldl (fun s u => s.haltRecord p h u.1 u.2) s
  if s.recordsWait p then
    (s.updPart p fun q => { q with halting := some { h with phase := phase } }).schedP (s.chron + 1) p .partitionHalt
  else k s

/-- PARTITION_HALT: the steps of a halt in their order: the halt line seen, the end of the skids, the stop records, PHALT and the
end of the context (R148 to R151, R155 to R159). -/
def State.partitionHalt (s : State) (p : PartIx) : State :=
  match (s.part p).halting with
  | none => s
  | some h => match h.phase with
    | 0 => s.haltSeen p h
    | 1 => s.haltSkidded p h
    | 2 => s.haltRest p h ((s.haltUnits p).filter fun u => s.originates p h u.1 u.2) 3
        fun s => s.haltRest p h ((s.haltUnits p).filter fun u => !s.originates p h u.1 u.2) 4 fun s => s.haltEnd p h
    | 3 => s.haltRest p h [] 3 fun s => s.haltRest p h ((s.haltUnits p).filter fun u => !s.originates p h u.1 u.2) 4 fun s => s.haltEnd p h
    | _ => s.haltRest p h [] 4 fun s => s.haltEnd p h

/-- PARTITION_HALT (R150). -/
def execPartitionHalt (s : State) : Outcome State Fault Refusal := .next (s.partitionHalt s.curPart)

/-- BUS_REPAIR: tests the wires of a column's row bus, maps each failed one onto a spare or sets HALF, and raises the survey
interrupt (R217, R33). -/
def execBusRepair (s : State) : Outcome State Fault Refusal :=
  let c := s.cur
  let (ix, s) := s.draw
  .next ((s.updCol c fun k => { k.testWires c.val ix with burstFail := none, repair := false }).surveyChange true)

/-! ## The freeze wire (R164) -/

/-- The module as the wire is asserted: CHRON stands from this cycle, the Helm's clock goes on from 0. -/
def State.asserted (s : State) (f : State → State) : State :=
  let was := s.isFrozen
  let s := f s
  if was then s else { s with frozen := 0 }

/-- An event of the Helm as the wire is released: what it had still to wait counts on from CHRON. -/
def Ev.thawed (chron frozen : Nat) (e : Ev) : Ev := { e with cycle := max chron (e.cycle - frozen) }

/-- The module as the wire is released: the events of the Helm, the inputs to come and the validity of SCDATA, which the Helm's
clock timed, count from CHRON again. -/
def State.released (s : State) : State :=
  if s.isFrozen then s
  else
    let old := s.agenda
    let d := s.frozen
    { s with
      agenda := (old.map fun e => if helmEvent e.instr && decide (s.chron < e.cycle) then e.thawed s.chron d else e).foldl agendaPut []
      inputs := s.inputs.map fun e => if s.chron < e.cycle then e.thawed s.chron d else e
      occurs := s.occurs.map fun o => if s.chron < o.cycle then { o with cycle := max s.chron (o.cycle - d) } else o
      helm := { s.helm with scAt := s.helm.scAt - d }
      frozen := 0 }

/-- FRZ = 1 asserts the wire (R164). -/
def State.frzOn (s : State) : State := s.asserted fun s => { s with frzCtl := true }

/-- FRZCTL_FREEZE (R164). -/
def execFrzctlFreeze (s : State) : Outcome State Fault Refusal := .next s.frzOn

/-! ## The host's scan reads (R165) -/

/-- The Helm's clock: CHRON, and while the wire is asserted the cycles since. -/
def State.helmClock (s : State) : Nat := if s.isFrozen then s.chron + s.frozen else s.chron

/-- SCAN_ADDRESS_WRITE: SCDATA shows the word of a new SCADDR after 64 cycles (R165). -/
def State.scanWrite (s : State) (addr : BitVec 32) : State :=
  { s with helm := { s.helm with scaddr := addr, scAt := s.helmClock + 64 } }

/-- SCAN_ADDRESS_WRITE (R165). -/
def execScanAddressWrite (addr : BitVec 32) (s : State) : Outcome State Fault Refusal := .next (s.scanWrite addr)

/-- SCDATA (R165). -/
def State.scanData (s : State) : Nat :=
  if s.helm.scAt ≤ s.helmClock then s.scan s.helm.scaddr.toNat else (Config.scanEarly s.helmClock).toNat

end Sys2Proof.Machine
end

