-- ==== Sys2Proof/Machine/Links.lean ====
section
/-! DEFINITION. Ports and peer links (R47 to R70): training, HELLO, the stripe sequence, the vendor messages, link faults, port
counters; freeze and thaw (R65, R164); retries of refused accesses (R105); injection of recorded inputs (R147). -/

namespace Sys2Proof.Machine

open Host (Outcome)

/-! ## Links and ports -/

/-- The module with a function applied to a peer link. -/
def State.updLink (s : State) (l : LinkIx) (f : Link → Link) : State :=
  { s with fab := { s.fab with links := s.fab.links.set l (f s.fab.links[l]) } }

/-- The module with a function applied to an optical port. -/
def State.updPort (s : State) (q : Fin 48) (f : Port → Port) : State :=
  { s with fab := { s.fab with ports := s.fab.ports.set q (f s.fab.ports[q]) } }

/-- The module with a function applied to the host port. -/
def State.updHost (s : State) (f : Port → Port) : State := { s with hif := { s.hif with hostPort := f s.hif.hostPort } }

/-- A 32-bit counter plus 1, saturating (R70). -/
def satInc (x : BitVec 32) : BitVec 32 := if x = BitVec.allOnes 32 then x else x + 1

/-- Number of members of a link (R56). -/
def Link.members (k : Link) : Nat := 2 ^ k.nmem.toNat

/-- Member i of a link, as a port number that may name no port. -/
def Link.member (k : Link) (i : Nat) : Nat := ((k.mem[i]?).getD 0).toNat

/-- The member ports of a link. -/
def Link.ports (k : Link) : List Nat := (List.range k.members).map k.member

/-- The port that received the packet delivered last (R59). -/
def Link.lastPort (k : Link) : Nat := k.member ((k.rxNext - 1).toNat % k.members)

/-- Counts a message in MALF of the port that received it (R61). -/
def State.malf (s : State) (q : Nat) : State := if h : q < 48 then s.updPort ⟨q, h⟩ fun k => { k with malf := satInc k.malf } else s

/-- Whether every member of a link is UP (R57). -/
def State.membersUp (s : State) (k : Link) : Bool := k.ports.all fun q => if h : q < 48 then s.fab.ports[q].st == PortState.up else false

/-- Raises a link fault in every partition bound to a link (R68). -/
def State.linkFault (s : State) (l : LinkIx) (code : Nat) : State :=
  allParts.foldl (fun s p => if s.fab.links[l].parts.getLsb p then s.partFault p code else s) s

/-- A link goes to DOWN: what it holds is discarded, 0x61 is raised in every bound partition (R60). -/
def State.linkDown (s : State) (l : LinkIx) : State :=
  let s := s.updLink l fun k =>
    { k with st := .down, held := [], thawed := [], waiting := [], out := [], todo := [], gapAt := none, outFrom := none, paused := 0, blocked := false }
  (s.pfInt 4).linkFault l 0x61

/-- A link in TRAINING reaches UP once every member is UP and every HELLO was right; what was offered meanwhile enters the
stripe sequence (R57, R58, R60). -/
def State.linkCheck (s : State) (l : LinkIx) : State :=
  let k := s.fab.links[l]
  if k.st = .training ∧ s.membersUp k ∧ k.ports.all (fun q => k.hello.contains q) then
    let s := s.updLink l fun k =>
      { k with st := .up, txSeq := 0, rxNext := 0, held := [], thawed := [], waiting := [], todo := [], gapAt := none, outFrom := none, paused := 0, blocked := false }
    (k.waiting.foldl (fun s t => (s.offer l t).1) s).pfInt 4
  else s

/-! ## LINK_ENABLE, LINK_DISABLE (R57) -/

/-- Whether a configuration of a link is refused (R57). -/
def State.linkRefused (s : State) (l : LinkIx) (k : Link) : Bool :=
  let ps := k.ports
  k.nmem == 3 || ps.any (fun q => decide (47 < q)) || !decide ps.Nodup || s.fab.fabid == 0
    || (List.finRange 48).any fun m => m != l && s.fab.links[m].en && s.fab.links[m].ports.any fun q => ps.contains q

/-- Enables a link with a configuration: its members train and HELLO goes out on each (R57). A member that is UP already stays UP and one
that is DARK or DOWN enters TRAINING (DESIGN CHOICE, log 64: R57 says that every member is trained, not whether a trained one trains again). -/
def State.linkEnable (s : State) (l : LinkIx) (k : Link) : State :=
  if s.linkRefused l k then s.updLink l fun old => { old with en := false, err := true }
  else
    let hellos : List OutTlp := (List.range k.members).map fun i =>
      { id := 0, msg := some (0x01, BitVec.ofNat 24 (s.fab.fabid.toNat + 2 ^ 12 * i), 0), member := i }
    let s := s.updLink l fun _ =>
      { k with en := true, st := .training, hello := [], out := hellos, waiting := [], held := [], todo := [], thawed := [] }
    let s := k.ports.foldl (fun s q => if h : q < 48 then
        (if s.fab.ports[q].st = .up ∨ s.fab.ports[q].st = .training then s
          else s.updPort ⟨q, h⟩ fun x => { x with st := .training, retrain := if x.wasUp then satInc x.retrain else x.retrain }) else s) s
    s.pfInt 4

/-- LINK_ENABLE (R57). -/
def execLinkEnable (s : State) : Outcome State Fault Refusal :=
  .next (if s.fab.links[s.curLink].en then s else s.linkEnable s.curLink s.fab.links[s.curLink])

/-- A link goes to DISABLED and discards what it holds (R57). -/
def State.linkDisable (s : State) (l : LinkIx) : State :=
  let was := s.fab.links[l].st
  let s := s.updLink l fun k =>
    { k with en := false, st := .disabled, held := [], thawed := [], waiting := [], out := [], todo := [], hello := [], gapAt := none, outFrom := none, paused := 0,
             blocked := false }
  if was = .disabled then s else s.pfInt 4

/-- LINK_DISABLE (R57). -/
def execLinkDisable (s : State) : Outcome State Fault Refusal := .next (s.linkDisable s.curLink)

/-! ## The gap timeout (R59) -/

/-- Cycles in which every member of a link was UP, as counted so far (R59). -/
def Link.count (k : Link) (now : Nat) : Nat := k.outFrom.getD now - k.paused

/-- Counted cycles after which a gap times out (R59). -/
def gapLimit : Nat := 2 ^ 20

/-- The count at which the present gap of a link times out: 2^20 after the first arrival of a later packet (R59). -/
def Link.gapDue (k : Link) : Option Nat :=
  k.held.foldl (fun a x => match a with
    | none => some (x.2.1 + gapLimit)
    | some m => some (min m (x.2.1 + gapLimit))) none

/-- Schedules the timeout of the present gap of a link, unless it is already. -/
def State.gapArm (s : State) (l : LinkIx) : State :=
  let k := s.fab.links[l]
  match k.gapDue with
  | none => s.updLink l fun k => { k with gapAt := none }
  | some due =>
    if k.gapAt = some due ∨ k.outFrom.isSome then s
    else (s.updLink l fun k => { k with gapAt := some due }).schedL (s.chron + (due - k.count s.chron)) l .stripeGapTimeout

/-- STRIPE_GAP_TIMEOUT: 0x62 and the link goes to DOWN, when the packet is still missing (R59, R60, R68). -/
def execStripeGapTimeout (s : State) : Outcome State Fault Refusal :=
  let l := s.curLink
  let k := s.fab.links[l]
  .next (if k.st ≠ .up ∨ k.outFrom.isSome then s
  else match k.gapDue with
    | none => s
    | some due => if due ≤ k.count s.chron then (s.linkFault l 0x62).linkDown l else (s.updLink l fun k => { k with gapAt := none }).gapArm l)

/-! ## Messages (R61 to R65) -/

/-- HELLO on a port of a link: checked while the link trains (R57), with its member index below the number of members (R61). One that
carries another identity sets ERR and no more: it does not void an earlier right one, and a right one that follows counts (DESIGN CHOICE,
log 64: R57 says that the link stays in TRAINING, not until when). -/
def State.helloOn (s : State) (l : LinkIx) (q : Nat) (fabid : BitVec 12) (index : Nat := 0) : State :=
  let k := s.fab.links[l]
  if k.st ≠ .training ∨ ¬ k.ports.contains q ∨ k.members ≤ index then s.malf q
  else if fabid = k.peer then (s.updLink l fun k => { k with hello := q :: k.hello.filter (· != q) }).linkCheck l
  else s.updLink l fun k => { k with err := true }

/-- HELLO (R57). -/
def execHello (l : LinkIx) (port : Fin 48) (fabid : BitVec 12) (s : State) : Outcome State Fault Refusal :=
  .next (s.helloOn l port.val fabid)

/-- STAGE: the value goes into a stage signal word (R62). -/
def State.stageTo (s : State) (n : Fin 64) (v : BitVec 32) : State := { s with fab := { s.fab with sgw := s.fab.sgw.set n v } }

/-- STAGE (R62). -/
def execStage (n : Fin 64) (v : BitVec 32) (s : State) : Outcome State Fault Refusal := .next (s.stageTo n v)

/-- TKGIVE on a link (R63): counted in MALF of the port when it names no core of a partition bound to the link, gives nothing, finds
no linked context, or comes in replay (R147). -/
def State.tkgiveOn (s : State) (l : LinkIx) (q : Nat) (core : Nat) (j : Fin 4) (c : Nat) : State :=
  if h : core < 288 then
    match s.partOf ⟨core, h⟩ with
    | none => s.malf q
    | some p =>
      if c = 0 ∨ s.fab.links[l].st ≠ .up ∨ ¬ s.fab.links[l].parts.getLsb p ∨ s.replaying p then s.malf q
      else
        let s' := if (s.part p).switching then some (s.pendLink p ⟨core, h⟩ j c) else s.creditLink p ⟨core, h⟩ j c
        match s' with
        | none => s.malf q
        | some s => s.logRecord p 3 5 0 0x1FF (core + 2 ^ 9 * j.val + 2 ^ 11 * c) []
  else s.malf q

/-- TKGIVE (R63). -/
def execTkgive (l : LinkIx) (core : BitVec 9) (j : Fin 4) (c : BitVec 8) (s : State) : Outcome State Fault Refusal :=
  .next (s.tkgiveOn l s.fab.links[l].lastPort core.toNat j c.toNat)

/-- Notes a stop identity as handled in this cycle; those of the past are dropped (R64). -/
def State.stopHandled (s : State) (id : Nat) : State :=
  { s with fab := { s.fab with stopsSeen := tput (s.fab.stopsSeen.filter fun x => decide (s.chron < x.2 + stopHorizon)) id s.chron } }

/-- Whether a stop identity was handled within the last 2^24 cycles (R64). -/
def State.stopKnown (s : State) (id : Nat) : Bool := match tget s.fab.stopsSeen id with
  | some t => decide (s.chron < t + stopHorizon)
  | none => false

/-- STOP on a link: 0x67 in every bound partition, each of which forwards it unchanged on every other UP link bound to it (R64). -/
def State.stopOn (s : State) (l : LinkIx) (q : Nat) (ident pay : Nat) : State :=
  if s.fab.links[l].st ≠ .up then s.malf q
  else if s.stopKnown ident then s
  else
    let s := s.stopHandled ident
    allParts.foldl (fun s p =>
      if s.fab.links[l].parts.getLsb p then
        let s := (s.linksOf p).foldl (fun s m =>
          if m ≠ l ∧ s.fab.links[m].st = .up then s.linkMsg m 0x30 ident pay else s) s
        s.partFault p 0x67
      else s) s

/-- STOP (R64). -/
def execStop (l : LinkIx) (ident : BitVec 24) (cause : BitVec 8) (s : State) : Outcome State Fault Refusal :=
  .next (s.stopOn l s.fab.links[l].lastPort ident.toNat cause.toNat)

/-- STOP_DELAYED_SEND: an originated STOP goes out on every link of its partition once its identity is free (R64). -/
def execStopDelayedSend (ident : BitVec 24) (cause : BitVec 8) (p : PartIx) (s : State) : Outcome State Fault Refusal :=
  let id := ident.toNat
  .next (match tget s.fab.stopsSeen id with
  | some t =>
    if s.chron < t + stopHorizon then s.schedP (t + stopHorizon) p (.stopDelayedSend ident cause p)
    else (s.linksOf p).foldl (fun s l => s.linkMsg l 0x30 id cause.toNat)
      ({ s with fab := { s.fab with stopsDelayed := s.fab.stopsDelayed.filter fun x => x.1 != id } }.stopHandled id)
  | none => (s.linksOf p).foldl (fun s l => s.linkMsg l 0x30 id cause.toNat)
      ({ s with fab := { s.fab with stopsDelayed := s.fab.stopsDelayed.filter fun x => x.1 != id } }.stopHandled id))

/-- FREEZE on a link: asserts the wire where FRZEN = 1, counted in MALF otherwise (R65). -/
def State.freezeOn (s : State) (l : LinkIx) (q : Nat) : State :=
  if s.fab.links[l].frzen ∧ s.fab.links[l].st = .up then s.asserted fun s => { s with frzMsg := true } else s.malf q

/-- THAW on a link: releases the wire where FRZEN = 1, counted in MALF otherwise (R65). FRZ = 1 holds it on (R164). -/
def State.thawOn (s : State) (l : LinkIx) (q : Nat) : State :=
  if s.fab.links[l].frzen ∧ s.fab.links[l].st = .up then
    (if s.isFrozen then ({ s with frzMsg := false }).released else s)
  else s.malf q

/-- A fabric message on a link goes to the partitions whose tree uses the link; with none it is counted in MALF (R133, R61). -/
def State.fabricOn (s : State) (q : Nat) (to_ : Part → Bool) (f : State → PartIx → State) : State :=
  let ps := allParts.filter fun p => to_ (s.part p)
  if ps.isEmpty then s.malf q else ps.foldl f s

/-- What a delivered message does (R61): a field the table gives as 0 that is not 0 violates its limit; bits of ARG that the table does not
name are ignored (DESIGN CHOICE, log 64). -/
def State.message (s : State) (l : LinkIx) (q : Nat) (mcode arg pay : Nat) : State :=
  match mcode with
  | 0x01 => if pay ≠ 0 then s.malf q else s.helloOn l q (BitVec.ofNat 12 arg) (fld arg 13 12)
  | 0x10 => s.stageTo (Fin.ofNat 64 arg) (BitVec.ofNat 32 pay)
  | 0x11 => if pay ≠ 0 then s.malf q else s.tkgiveOn l q (fld arg 8 0) (Fin.ofNat 4 (fld arg 10 9)) (fld arg 18 11)
  | 0x20 => s.fabricOn q (fun x => x.fxchl.getLsb l) fun s p => s.fixArr (.link l) p (fld arg 15 0) pay
  | 0x21 => if pay ≠ 0 then s.malf q else s.fabricOn q (fun x => x.fxType == 1 && x.fxParent == l.val) fun s p => s.fixRel p (fld arg 15 0) (fld arg 18 16)
  | 0x30 => s.stopOn l q arg pay
  | 0x31 => if arg ≠ 0 ∨ pay ≠ 0 then s.malf q else s.freezeOn l q
  | 0x32 => if arg ≠ 0 ∨ pay ≠ 0 then s.malf q else s.thawOn l q
  | _ => s.malf q

/-! ## Delivery (R58, R59, R121) -/

/-- Delivers a packet to the module (R59, R121). -/
def State.deliver (s : State) (l : LinkIx) (q : Nat) : Tlp → State
  | .request x ia n kind tag => s.peerAccess l x ia n (reqAcc kind) tag
  | .completion id st bs => s.complete id st bs
  | .message mcode arg pay => s.message l q mcode.toNat arg.toNat pay.toNat
  | .config => if h : q < 48 then s.updPort ⟨q, h⟩ fun k => { k with msgdrop := satInc k.msgdrop } else s

/-- Delivers a packet, or keeps it behind a refused write (R121). -/
def State.deliverOrWait (s : State) (l : LinkIx) (q : Nat) (t : Tlp) : State :=
  let k := s.fab.links[l]
  if k.blocked ∨ ¬ k.todo.isEmpty then s.updLink l fun k => { k with todo := k.todo ++ [(q, t)] } else s.deliver l q t

/-- Delivers the packets kept behind a refused write, up to the next one refused (R121). -/
def State.drain (s : State) (l : LinkIx) : Nat → State
  | 0 => s
  | fuel + 1 =>
    let k := s.fab.links[l]
    match k.todo with
    | [] => s
    | x :: rest =>
      if k.blocked ∨ s.isFrozen then s
      else ((s.updLink l fun k => { k with todo := rest }).deliver l x.1 x.2).drain l fuel

/-- Delivers held packets in SEQ order up to the first that is missing (R59); nothing while the module is frozen (R65). -/
def State.pump (s : State) (l : LinkIx) : Nat → State
  | 0 => s
  | fuel + 1 =>
    let k := s.fab.links[l]
    if s.isFrozen ∨ k.st ≠ .up then s
    else match k.held.find? (fun x => x.1 == k.rxNext) with
      | none => s.gapArm l
      | some x =>
        let s := s.updLink l fun k =>
          { k with rxNext := k.rxNext + 1, held := k.held.filter (fun y => y.1 != x.1), thawed := k.thawed.filter (· != x.1) }
        (if k.thawed.contains x.1 then s else s.deliverOrWait l (k.member (x.1.toNat % k.members)) x.2.2).pump l fuel

/-- Goes on with the delivery of a link. -/
def State.resumeLink (s : State) (l : LinkIx) : State :=
  let s := s.drain l (s.fab.links[l].todo.length + 1)
  s.pump l (s.fab.links[l].held.length + 1)

/-- Goes on with delivery on every link, as the freeze wire is released (R65). -/
def State.resumeAll (s : State) : State := if s.isFrozen then s else (List.finRange 48).foldl (fun s l => s.resumeLink l) s

/-- Whether a packet is a THAW. -/
def isThaw (t : Tlp) : Bool := match t with
  | .message m a p => m == 0x32 && a == 0 && p == 0
  | _ => false

/-- PEER_TLP_ARRIVAL: on the wrong member, 0x62 and DOWN; otherwise held and delivered in SEQ order (R59). A THAW that comes while
the module is frozen acts before delivery goes on (R65). On a link that is not UP only HELLO is heard, a message is counted in MALF
(R57, R61). -/
def execPeerTlpArrival (l : LinkIx) (port : Fin 48) (seq : BitVec 16) (tlp : Tlp) (s : State) : Outcome State Fault Refusal :=
  let k := s.fab.links[l]
  .next (if k.st ≠ .up then (match tlp with
    | .message 0x01 arg pay => s.message l port.val 0x01 arg.toNat pay.toNat
    | .message _ _ _ => s.malf port.val
    | .config => s.deliver l port.val .config
    | _ => s)
  else if k.member (seq.toNat % k.members) ≠ port.val then (s.linkFault l 0x62).linkDown l
  else
    let s := s.updLink l fun k => { k with held := k.held ++ [(seq, k.count s.chron, tlp)] }
    let s := if s.isFrozen ∧ isThaw tlp then
        (s.updLink l fun k => { k with thawed := seq :: k.thawed.filter (· != seq) }).thawOn l port.val else s
    if s.isFrozen then s else s.resumeAll)

/-- PEER_REQUEST: a request delivered from a peer (R121). -/
def execPeerRequest (l : LinkIx) (q : Nat) (ia : Nat) (n : Nat) (kind : ReqKind) (tag : Nat) (s : State) : Outcome State Fault Refusal :=
  .next (if s.fab.links[l].st ≠ .up then s
    else if s.isFrozen then s.schedL s.chron l (.peerRequest l q ia n kind tag)
    else s.deliverOrWait l s.fab.links[l].lastPort (.request q ia n kind tag))

/-- FREEZE (R65). -/
def execFreeze (s : State) : Outcome State Fault Refusal := .next (s.freezeOn s.curLink s.fab.links[s.curLink].lastPort)

/-- THAW (R65). -/
def execThaw (s : State) : Outcome State Fault Refusal := .next (s.thawOn s.curLink s.fab.links[s.curLink].lastPort).resumeAll

/-- FRZ = 0 releases the wire unless a FREEZE without its THAW holds it (R164). -/
def State.frzOff (s : State) : State := if s.isFrozen then ({ s with frzCtl := false }).released.resumeAll else s

/-- FRZCTL_RELEASE (R164). -/
def execFrzctlRelease (s : State) : Outcome State Fault Refusal := .next s.frzOff

/-- FREEZE_TIMEOUT: after 32 ms 0x76 is raised in every partition and the wire is released (R164). -/
def execFreezeTimeout (s : State) : Outcome State Fault Refusal :=
  let t : State := allParts.foldl (fun (s : State) p => s.partFault p 0x76) ({ s with frzCtl := false, frzMsg := false }).released
  .next t.resumeAll

/-! ## Retries (R105, R155) -/

/-- Writes a stop record again after a refusal (R155). -/
def State.retryRecord (s : State) (r : Req) (p : PartIx) : State :=
  match r.kind with
  | .write bs => (match s.walk p r.ia .write with
    | .mem key => { s.dropReq r.id with memory := writeBytes s.memory key bs }
    | .host addr => (s.dropReq r.id).postFor p addr bs
    | .refuse hint _ => s.schedP (s.chron + 64 * hint) p (.refusalRetry r.id)
    | .fault _ _ _ => (s.dropReq r.id).norec p)
  | _ => s.dropReq r.id

/-- REFUSAL_RETRY: the access is sent again (R105); a refused write of a peer that is through lets the later packets of its link
follow (R121). -/
def execRefusalRetry (id : Nat) (s : State) : Outcome State Fault Refusal :=
  .next (match s.req id with
  | none => s
  | some r =>
    match r.dest, r.part with
    | .stopRec _ _ _, some p => s.retryRecord r p
    | d, _ =>
      if r.done then s
      else
        let s := s.walkReq r
        match d with
        | .peer l _ _ => if h : l < 48 then
            (if s.fab.links[l].blocked && !((s.req id).any fun x => !x.done) then
              (s.updLink ⟨l, h⟩ fun k => { k with blocked := false }).resumeLink ⟨l, h⟩ else s)
          else s
        | _ => s)

/-! ## Ports (R53, R60, R69) -/

/-- STATE and WIDTH of the host port as it comes out of training (R47, R69). -/
def Training.port : Training → PortState × BitVec 2
  | .x16 => (.up, 0)
  | .x8 => (.up, 1)
  | .x4 => (.up, 2)
  | .down => (.down, 3)
  | .dark => (.dark, 3)

/-- A member of a link is UP again: the count of the gap goes on (R59, R60); a link in TRAINING is looked at (R57). -/
def State.portBack (s : State) (q : Fin 48) : State :=
  let s := s.updPort q fun k => { k with outSince := none }
  match s.fab.linkOf q with
  | none => s
  | some (l, _) =>
    let k := s.fab.links[l]
    match k.outFrom with
    | some t => if s.membersUp k then
        (s.updLink l fun k => { k with outFrom := none, paused := k.paused + (s.chron - t), gapAt := none }).gapArm l else s
    | none => s.linkCheck l

/-- An UP port leaves UP and trains: the link of the port stays UP for 2^22 cycles (R60, R69). -/
def State.portLeaves (s : State) (q : Fin 48) : State :=
  if s.fab.ports[q].st ≠ .up then s
  else
    let now := s.chron
    let s := (s.updPort q fun k => { k with st := .training, retrain := satInc k.retrain, outSince := some now }).pfInt 4
    match s.fab.linkOf q with
    | none => s
    | some (l, _) =>
      if s.fab.links[l].st = .up then
        (s.updLink l fun k => { k with outFrom := some (k.outFrom.getD now) }).schedL (now + 2 ^ 22) l .linkDownTimeout
      else s

/-- Whether lane l is whole: neither of its channels 2l and 2l + 1 fails in either direction (R52, R53). -/
def laneWhole (rx tx : BitVec 32) (l : Nat) : Bool :=
  !(rx.getLsbD (2 * l) || rx.getLsbD (2 * l + 1) || tx.getLsbD (2 * l) || tx.getLsbD (2 * l + 1))

/-- How the training of an optical port ends: its state, its width and the lanes trained (R53). `rx` and `tx` are the channels that fail
in either direction, `peer` the FABID of the other end, none where no light comes; on equal FABIDs training does not complete, nor with a peer that has none (R56). -/
def trainPort (rx tx : BitVec 32) (peer : Option (BitVec 12)) (mine : BitVec 12) : PortState × BitVec 2 × BitVec 16 :=
  let half (b : Nat) : Bool := (List.range 8).all fun l => laneWhole rx tx (b + l)
  match peer with
  | none => (.dark, 3, 0)
  | some peer =>
  if peer = mine ∨ peer = 0 then (.training, 3, 0)
  else if half 0 ∧ half 8 then (.up, 0, 0xFFFF)
  else if half 0 then (.up, 1, 0xFF)
  else if half 8 then (.up, 1, 0xFF00)
  else (.down, 3, 0)

/-- PORT_UP: an optical port ends its training; FABID 0 keeps it untrained (R53, R56). The end with the lower FABID is the downstream
port. -/
def execPortUp (port : Fin 48) (rx tx : BitVec 32) (peer : Option (BitVec 12)) (s : State) : Outcome State Fault Refusal :=
  let (st, w, lanes) := trainPort rx tx peer s.fab.fabid
  .next (if s.fab.fabid = 0 then s
  else
    let was := s.fab.ports[port].st
    let s := if st = .up then s else s.portLeaves port
    let s := s.updPort port fun k =>
      { k with st := st, width := w, laneok := lanes, optfail := if peer.isSome then rx else BitVec.allOnes 32,
               downstream := decide (s.fab.fabid.toNat < (peer.getD 0).toNat), wasUp := k.wasUp || st == .up
               retrain := if st = .training ∧ was ≠ .training ∧ was ≠ .up ∧ k.wasUp then satInc k.retrain else k.retrain }
    let s := if was = st then s else s.pfInt 4
    if st = .up then s.portBack port else s)

/-- PORT_LEAVES_UP (R60). -/
def execPortLeavesUp (s : State) : Outcome State Fault Refusal := .next (s.portLeaves s.curLink)

/-- FABID: 0 keeps every peer port untrained, so that the ports that are UP leave UP (R56). -/
def State.setFabid (s : State) (v : BitVec 12) : State :=
  let s := { s with fab := { s.fab with fabid := v } }
  if v = 0 then (List.finRange 48).foldl State.portLeaves s else s

/-- PORT_RETURNS_UP: the port is UP again and sends what was held for it (R60); FABID 0 keeps it untrained (R56). -/
def execPortReturnsUp (s : State) : Outcome State Fault Refusal :=
  let q := s.curLink
  .next (if s.fab.fabid = 0 ∨ s.fab.ports[q].outSince.isNone ∨ s.fab.ports[q].st = .up then s
    else ((s.updPort q fun k => { k with st := .up }).pfInt 4).portBack q)

/-- LINK_DOWN_TIMEOUT: a member has been out of UP for 2^22 cycles (R60, R68). -/
def execLinkDownTimeout (s : State) : Outcome State Fault Refusal :=
  let l := s.curLink
  let k := s.fab.links[l]
  let gone := k.ports.any fun q => if h : q < 48 then s.fab.ports[q].outSince.any fun t => decide (t + 2 ^ 22 ≤ s.chron) else false
  .next (if k.st = .up ∧ gone then s.linkDown l else s)

/-- IDE_INTEGRITY_FAILURE: the packet is discarded and 0x65 raised in every partition bound to the link, on the host port in
all (R68). -/
def execIdeIntegrityFailure (port : PortRef) (s : State) : Outcome State Fault Refusal :=
  .next (match port with
  | .host => allParts.foldl (fun s p => s.partFault p 0x65) s
  | .opt q => match s.fab.linkOf q with
    | some (l, _) => s.linkFault l 0x65
    | none => s)

/-- The module with a function applied to a port. -/
def State.updPortRef (s : State) (port : PortRef) (f : Port → Port) : State :=
  match port with
  | .host => s.updHost f
  | .opt q => s.updPort q f

/-- COUNTER_LOW_READ: the low word of FLTX or FLRX is read, which latches the high word (R70). How many flits have gone by is
open (log 5). -/
def execCounterLowRead (port : PortRef) (rx : Bool) (s : State) : Outcome State Fault Refusal :=
  let (ix, s) := s.draw
  let more := BitVec.ofNat 64 (Config.flitCount ix)
  .next (s.updPortRef port fun k =>
    if rx then { k with flrx := k.flrx + more, latchRx := BitVec.ofNat 32 ((k.flrx + more).toNat / 2 ^ 32) }
    else { k with fltx := k.fltx + more, latchTx := BitVec.ofNat 32 ((k.fltx + more).toNat / 2 ^ 32) })

/-- FLIT_REPLAY: a flit is corrected, or discarded and asked for again; a packet's bits and order do not change (R67, R69). -/
def execFlitReplay (port : PortRef) (corrected : Bool) (s : State) : Outcome State Fault Refusal :=
  .next (s.updPortRef port fun k =>
    if corrected then { k with feccor := satInc k.feccor } else { k with flbad := satInc k.flbad, replay := satInc k.replay })

/-! ## The host port (R47, R50, R68) -/

/-- HOST_LINK_UP: the host port ends its training, which it had entered; RETRAIN counts that after its first UP (R47, R69, R79). -/
def execHostLinkUp (how : Training) (s : State) : Outcome State Fault Refusal :=
  let (st, w) := Training.port how
  let lanes : BitVec 16 := match how with
    | .x16 => 0xFFFF | .x8 => 0xFF | .x4 => 0xF | _ => 0
  let was := s.hif.hostPort.st
  let s := s.updHost fun k =>
    { k with st := st, width := w, laneok := lanes, wasUp := k.wasUp || st == .up
             retrain := if st = .up ∧ was ≠ .up ∧ k.wasUp then satInc k.retrain else k.retrain }
  .next (if was = st then s else s.pfInt 4)

/-- HOST_LINK_DOWN: 0x68 in every partition (R68, R79). -/
def execHostLinkDown (s : State) : Outcome State Fault Refusal :=
  let was := s.hif.hostPort.st
  let s := s.updHost fun k => { k with st := .down, width := 3, laneok := 0 }
  let s := if was = .down then s else s.pfInt 4
  .next (allParts.foldl (fun s p => s.partFault p 0x68) s)

/-- HOST_VENDOR_MESSAGE: discarded and counted in MSGDROP (R50). -/
def execHostVendorMessage (s : State) : Outcome State Fault Refusal := .next (s.updHost fun k => { k with msgdrop := satInc k.msgdrop })

/-- Whether R47 lists an option as supported; every other option is not advertised. -/
def pcieSupported : PcieOption → Bool
  | .flitMode | .tags14 | .payload4K | .readRequest4K | .atomicOp | .resizableBar | .sriov | .linkIde | .selectiveIde | .doe | .spdm | .cma
  | .ideKm | .ats | .pasid => true
  | .pri | .ltr | .tph | .ecrc | .nonFlit | .cxl | .other _ => false

/-- Starts or stops a programmed IDE stream (R47). -/
def State.ideSet (s : State) (n : Nat) (on : Bool) : State :=
  match tget s.hif.ide n with
  | some x => { s with hif := { s.hif with ide := tput s.hif.ide n { x with on := on } } }
  | none => s

/-- Adds an answer to what the DOE mailbox has answered (R91). -/
def State.spdmAnswer (s : State) (bs : List Byte) : State := { s with helm := { s.helm with spdmOut := s.helm.spdmOut ++ [bs] } }

/-- HOST_CONFIGURATION_REQUEST: the size of BAR2, the number of virtual functions, the options advertised, IDE streams keyed by IDE_KM and
the certificate chain over DOE, or a register of the configuration space, whose value the spec names by reference only (R47; log 7). -/
def execHostConfigurationRequest (fn : Fn) (op : CfgOp) (s : State) : Outcome State Fault Refusal :=
  .next (match op with
  | .bar2Size k => { s with hif := { s.hif with bar2 := tput s.hif.bar2 (fnNum fn) k.val } }
  | .numVfs n => { s with hif := { s.hif with numVfs := n.val } }
  | .advertised o => { s with hif := { s.hif with hostOut := s.hif.hostOut ++ [{ id := 0, cpl := some (0, .ok, [BitVec.ofNat 8 (ofBool (pcieSupported o))]) }] } }
  | .ideProgram n sel key => { s with hif := { s.hif with ide := tput s.hif.ide n { selective := sel, key := key } } }
  | .ideStart n => s.ideSet n true
  | .ideStop n => s.ideSet n false
  | .certificate => s.spdmAnswer ([0x12, 0x02] ++ Config.certificates)
  | .read off => { s with hif := { s.hif with hostOut := s.hif.hostOut ++
      [{ id := 0, cpl := some (0, .ok, toBytes 4 (Config.configSpace (fnNum fn) off).toNat) }] } }
  | .other _ _ => s)

/-! ## Replay of recorded inputs (R147) -/

/-- Whether a recorded input's stamp has been reached: its epoch has passed, or it is the present one and so many link tokens have
been taken, or a release that ends the epoch is about to be made (R145, R147). -/
def State.stampReached (s : State) (p : PartIx) (r : LogRec) : Bool :=
  let x := (s.part p).stamped
  let release := s.agenda.any fun e => decide (e.cycle ≤ s.chron) && (match e.instr with
    | .fixRelease q _ => q == p
    | _ => false)
  decide (r.epoch < x.epoch.toNat) || (r.epoch == x.epoch.toNat && (decide (r.tkseq ≤ x.tkseq) || release))

/-- The next recorded input of a partition in replay, if its stamp has been reached: inputs are injected in record order (R147). -/
def State.nextInput (s : State) (p : PartIx) : Option LogRec :=
  match s.nextRecord p fun r => decide (2 ≤ r.kind) && decide (r.kind ≤ 5) with
  | none => none
  | some r => if s.stampReached p r then some r else none

/-- The AtomicOp of a record: a CAS has three operand sizes in its payload, compare first, then swap; of two it is a FetchAdd or
a Swap (R47, R146). -/
def recordAtomic (bs : List Byte) (swap : Bool) : AccKind × Nat :=
  let n := bs.length
  let w (o k : Nat) : Nat := ofBytes ((bs.drop o).take k)
  if n = 8 ∨ n = 16 then (.atomic (if swap then .swap else .add) (w 0 (n / 2)) 0, n / 2)
  else (.atomic .cas (w (n / 3) (n / 3)) (w 0 (n / 3)), n / 3)

/-- Injects a recorded input: a write or an atomic through the partition's tables, a token give (R147). -/
def State.inject (s : State) (p : PartIx) (r : LogRec) : State :=
  let send (s : State) (who : Nat) (k : AccKind) (n : Nat) : State :=
    let q : Req := { id := 0, who := who, core := 0, part := some p, kind := k, ia := r.arg, n := n, dest := .none_, issued := s.chron }
    let (id, s) := s.addReq q
    s.walkReq { q with id := id }
  match r.kind with
  | 2 => send s 5 (.write r.payload) r.payload.length
  | 3 => send s 6 (.write r.payload) r.payload.length
  | 4 =>
    let (ix, s) := s.draw
    let (k, n) := recordAtomic r.payload (Config.replaySwap ix)
    send s 6 k n
  | _ =>
    let core := fld r.arg 8 0
    if h : core < 288 then
      let j : Fin 4 := Fin.ofNat 4 (fld r.arg 10 9)
      let c := fld r.arg 18 11
      if (s.part p).switching then s.pendLink p ⟨core, h⟩ j c else (s.creditLink p ⟨core, h⟩ j c).getD s
    else s

/-- REPLAY_INJECTION: injects the next recorded input whose stamp has been reached, and so on (R147). -/
def execReplayInjection (s : State) : Outcome State Fault Refusal :=
  let p := s.curPart
  .next (if ¬ s.replaying p then s
  else match s.nextInput p with
    | none => s
    | some r => ((s.consumeRecord p r).inject p r).schedP s.chron p .replayInjection)

end Sys2Proof.Machine
end

