-- ==== Sys2Proof/Machine/Helm.lean ====
section
/-! DEFINITION. The Helm: reset and boot (R45, R46, R90), its commands (R76, R77), power and temperature (R40 to R44), the survey
and bank retirement (R31 to R39), attestation (R91). -/

namespace Sys2Proof.Machine

open Host (Outcome)

/-! ## The survey (R30 to R39) -/

/-- The state a bank of a column has at a survey: what the flash records, else present or absent by design (R35, R39). -/
def surveyBank (retired : List (Nat × Nat × Nat)) (col : Nat) (b : Fin 32) : BitVec 4 :=
  match retired.find? (fun x => x.1 == col && x.2.1 == b.val) with
  | some x => BitVec.ofNat 4 x.2.2
  | none => if (Config.dramPresent col).getLsb b then 1 else 0

/-- The entry of a column at a survey after cold reset (R30, R32, R35). -/
def surveyColumn (retired : List (Nat × Nat × Nat)) (col : Nat) : Column :=
  { live := true
    spare := Config.sparesAtSurvey col % 65
    dram := Vector.ofFn fun b => surveyBank retired col b
    slice := Vector.ofFn fun j => if (Config.slicePresent col).getLsb j then 1 else 0
    rowmax := BitVec.ofNat 12 (Config.rowMax col % 2048)
    phase := Config.phase col % refPer }

/-- A survey entry with what the column's sensors and counters have given since cold reset (R32, R40). -/
def Column.sensed (k old : Column) : Column :=
  { k with tlogic := old.tlogic, layers := old.layers, cecnt := old.cecnt, errs := old.errs, hot := old.hot, hotpend := old.hotpend,
           hotAt := old.hotAt }

/-- The survey after a cold reset builds every entry; after a warm one the map is kept and a fence ends (R46, R90, R144). -/
def State.survey (s : State) (cold : Bool) : State :=
  let s := if cold then
      { s with cols := allCores.map fun (c : CoreIx) => (c.val, (surveyColumn s.helm.flashRetired c.val).sensed (s.col c)) }
    else { s with cols := s.cols.map fun x => (x.1, { x.2 with live := true }) }
  s.surveyChange false

/-- Whether a bank is in POOL or ROW (R36). -/
def State.bankPlain (s : State) (c : CoreIx) (b : Fin 32) : Bool := s.bankState c.val b.val == 1 || s.bankState c.val b.val == 2

/-- Moves the banks of a list that are in POOL or ROW to their PEND states and raises the survey interrupt (R36). A list with no such
bank has no effect, nor has it on a bank that is QUIET or in a PEND state already (DESIGN CHOICE, log 66: R36 names a move to PENDPOOL or
PENDROW only). -/
def State.pendBanks (s : State) (c : CoreIx) (bs : List (Fin 32)) : State :=
  let bs := bs.filter fun b => s.bankPlain c b
  if bs.isEmpty then s else (bs.foldl (fun s b => s.setBank c b (s.bankState c.val b.val + 2)) s).surveyChange true

/-- CECNT of a column after n more corrected errors; it saturates (R32). -/
def Column.addErrors (k : Column) (n : Nat) : Column := { k with cecnt := BitVec.ofNat 32 (min (k.cecnt.toNat + n) 0xFFFFFFFF) }

/-- Cycles over which the corrected errors of a bank are counted (R36). -/
def errorWindow : Nat := 2 ^ 28

/-- Corrected errors of a bank within the window that ends at a cycle (R36). -/
def Column.errorsOf (k : Column) (b t : Nat) : Nat := (k.errs.filter fun x => x.1 == b && decide (t < x.2 + errorWindow)).length

/-- PEND_ON_ERRORS: more than 64 corrected errors of a bank within 2^28 cycles (R36, R79). Errors it implies that the column has not
counted are counted now; how many beyond 65 is open (log 5). -/
def execPendOnErrors (col : CoreIx) (bank : Fin 32) (s : State) : Outcome State Fault Refusal :=
  let n := (s.col col).errorsOf bank.val s.chron
  let (ix, s) := s.draw
  let s := if 64 < n then s else s.updCol col fun k => k.addErrors (65 - n + Config.errorCount ix)
  .next (s.pendBanks col [bank])

/-- PEND_ON_HEAT: a layer at or above 92 °C for 2^24 cycles: its live banks alone (R36, R79). -/
def execPendOnHeat (col : CoreIx) (layer : Fin 4) (s : State) : Outcome State Fault Refusal :=
  .next (s.pendBanks col ((List.finRange 8).map fun i => Fin.ofNat 32 (8 * layer.val + i.val)))

/-! ## Uncorrectable errors (R37) -/

/-- Whether a table entry is a valid leaf with LOC 0 that names a frame of a bank, numbered 32 × column + bank (R37, R102). -/
def leafInBank (e bank : Nat) : Bool := bitAt e 0 && bitAt e 1 && leafLoc e == 0 && decide (leafAddr e / 2 ^ 24 = bank)

/-- Whether a table below a given one names a frame of a bank; `widths` are the index widths of the levels left, the first that of
this table (R37, R101). -/
def State.tableNames (s : State) (bank : Nat) : List Nat → Nat → Bool
  | [], _ => false
  | w :: ws, table =>
    (s.tableAt table).isNone && (List.range (2 ^ w)).any fun i =>
      let e := s.entryAt (table + 8 * i)
      (decide (ws.length ≤ 1) && leafOk e (ws.length == 1) && leafInBank e bank) || (bitAt e 0 && !bitAt e 1 && s.tableNames bank ws (fld e 55 8 * 2 ^ 8))

/-- Whether the device table of a partition names a frame of a bank (R37). -/
def State.partMaps (s : State) (p : PartIx) (bank : Nat) : Bool :=
  (s.part p).dmEn && s.tableNames bank [13, 9, 9, 5] (s.part p).dmAddr.toNat

/-- UNCORRECTABLE_DRAM_ERROR: the bank is FAILED at once and recorded; 0x74 in every partition that holds a row window on it or a
page in it, each named once (R37, R39, R79). -/
def execUncorrectableDramError (col : CoreIx) (bank : Fin 32) (s : State) : Outcome State Fault Refusal :=
  let st := (s.bankState col.val bank.val).toNat
  .next (if st = 0 ∨ 5 < st then s
  else
    let win := s.windowNames col bank
    let hit := allParts.filter fun p => (win && s.partOf col == some p) || s.partMaps p (32 * col.val + bank.val)
    let s := (s.setBank col bank 7).surveyChange true
    let s := { s with helm := { s.helm with flashRetired := s.helm.flashRetired ++ [(col.val, bank.val, 7)] } }
    hit.foldl (fun s p => s.partFault p 0x74) s)

/-! ## SVCTL (R38) -/

/-- The bank SVCTL names, if its column exists; a command that names no column is refused (DESIGN CHOICE, log 66: COL holds 0 to 511 and
R38 gives no test of it). -/
def MemSide.svTarget (m : MemSide) : Option (CoreIx × Fin 32) :=
  if h : m.svCol.toNat < 288 then some (⟨m.svCol.toNat, h⟩, Fin.ofNat 32 m.svBank.toNat) else none

/-- Refuses a command of SVCTL: ERR, and nothing changes (R38). -/
def State.svRefuse (s : State) : State := { s with ms := { s.ms with svErr := true, svBusy := false } }

/-- Accepts a command of SVCTL: it ends after a latency of the Helm. -/
def State.svAccept (s : State) (cmd : BitVec 3) : State :=
  let (lat, s) := s.drawHelm
  ({ s with ms := { s.ms with svBusy := true, svCmd := cmd } }).sched (s.chron + lat) .surveyCommandDone

/-- QUIESCE: accepted from POOL, ROW, PENDPOOL or PENDROW when no row window names the bank (R38). -/
def execQuiesce (s : State) : Outcome State Fault Refusal :=
  .next (match s.ms.svTarget with
  | none => s.svRefuse
  | some (c, b) =>
    let st := (s.bankState c.val b.val).toNat
    if 1 ≤ st ∧ st ≤ 4 ∧ ¬ s.windowNames c b then s.svAccept 1 else s.svRefuse)

/-- COMMIT: accepted from QUIET when no page is resident in the bank (R38). -/
def execCommit (s : State) : Outcome State Fault Refusal :=
  .next (match s.ms.svTarget with
  | none => s.svRefuse
  | some (c, b) => if s.bankState c.val b.val = 5 ∧ ¬ s.bankUsed c b then s.svAccept 2 else s.svRefuse)

/-- SURVEY_COMMAND_DONE: the map and the masks change under GEN, with them the placement ring, and BUSY clears; a retired bank is
recorded in flash (R33, R38, R39). A bank that failed meanwhile stays FAILED. -/
def execSurveyCommandDone (s : State) : Outcome State Fault Refusal :=
  let s := { s with ms := { s.ms with svBusy := false } }
  .next (match s.ms.svTarget with
  | none => s
  | some (c, b) =>
    let st := (s.bankState c.val b.val).toNat
    if s.ms.svCmd = 1 ∧ 1 ≤ st ∧ st ≤ 4 then (s.setBank c b 5).surveyChange false
    else if s.ms.svCmd = 2 ∧ st = 5 then
      let s := (s.setBank c b 6).surveyChange false
      { s with helm := { s.helm with flashRetired := s.helm.flashRetired ++ [(c.val, b.val, 6)] } }
    else s)

/-! ## Temperature (R40, R41) -/

/-- HOTON, HOTOFF and REFLIM, the temperatures of R36 and R43, in units of 0.125 °C (R31, R32). -/
def hotOn : Nat := 680
/-- See `hotOn`. -/
def hotOff : Nat := 640
/-- See `hotOn`. -/
def refLim : Nat := 720
/-- See `hotOn`: 92 °C (R36). -/
def pendHeat : Nat := 736
/-- See `hotOn`: 95 °C (R43). -/
def layerLimit : Nat := 760
/-- See `hotOn`: 110 °C (R43). -/
def logicLimit : Nat := 880

/-- A column whose TDRAM is within [lo, hi): it stays when it is; else the sensor values a crossing implies are open: one layer takes a
value within the bounds and no layer stays above them (R32, R40; log 5). -/
def Column.sampled (k : Column) (lo hi ix : Nat) : Column :=
  if lo ≤ k.tdram.toNat ∧ k.tdram.toNat < hi then k
  else
    let v : Nat := lo + Config.sensor ix % (hi - lo)
    { k with layers := (k.layers.map fun t => if hi ≤ t.toNat then BitVec.ofNat 12 v else t).set (ix % 4) (BitVec.ofNat 12 v) (by omega) }

/-- Sets HOTPEND of a column in this cycle (R40). -/
def State.hotSet (s : State) (c : CoreIx) : State :=
  ((s.updCol c fun k => { k with hotpend := true, hotAt := s.chron }).surveyChange false).hotCheck c

/-- HOTON_CROSSING: TDRAM reaches 85 °C: HOTPEND is set, or a pending return to the normal period is withdrawn (R40). -/
def execHotonCrossing (s : State) : Outcome State Fault Refusal :=
  let c := s.cur
  let (ix, s) := s.draw
  let s := if hotOn ≤ (s.col c).tdram.toNat then s else s.updCol c fun k => k.sampled hotOn refLim ix
  let k := s.col c
  .next (if k.hotpend ∧ k.hot then (s.updCol c fun k => { k with hotpend := false }).surveyChange false
    else if ¬ k.hot ∧ ¬ k.hotpend then s.hotSet c
    else s)

/-- HOTOFF_CROSSING: TDRAM falls below 80 °C: a return to the normal period becomes pending, or a pending halving is withdrawn
(R40). -/
def execHotoffCrossing (s : State) : Outcome State Fault Refusal :=
  let c := s.cur
  let (ix, s) := s.draw
  let s := s.updCol c fun k => k.sampled 0 hotOff ix
  let k := s.col c
  .next (if k.hotpend ∧ ¬ k.hot then (s.updCol c fun k => { k with hotpend := false }).surveyChange false
    else if k.hot ∧ ¬ k.hotpend then s.hotSet c
    else s)

/-- REFRESH_PERIOD_CHANGE: with no valid row window on the column in a context in RUN or PREEMPTED, the pending change takes effect
(R40). -/
def execRefreshPeriodChange (s : State) : Outcome State Fault Refusal :=
  .next (if s.holdsWindow s.cur then s else s.hotChange s.cur)

/-- REFRESH_DEADLINE: TDRAM reaches 90 °C with HOT = 0: 0x73 in the partition that holds row-mode banks of the column, then HOT = 1
(R41). HOTPEND becomes 0 with it: no change is pending any longer (DESIGN CHOICE, log 66: R41 does not name HOTPEND). -/
def execRefreshDeadline (s : State) : Outcome State Fault Refusal :=
  let c := s.cur
  let (ix, s) := s.draw
  let s := if refLim ≤ (s.col c).tdram.toNat then s else s.updCol c fun k => k.sampled refLim pendHeat ix
  .next (if (s.col c).hot then s
    else
      let rows := (List.finRange 32).any fun b => (s.col c).rowMode b
      let s := match s.partOf c with
        | some p => if rows then s.partFault p 0x73 else s
        | none => s
      ((s.updCol c fun k => { k with hot := true, hotpend := false }).surveyChange false).slotsArm c)

/-- An emergency: the halt line of every partition rises, EMERG latches, the interrupt is raised (R43, R79). -/
def State.emergency (s : State) (code : Nat) : State :=
  let s := { s with helm := { s.helm with emerg := true, emcode := BitVec.ofNat 8 code, emCond := true } }
  allParts.foldl (fun s p => s.partFault p code) (s.pfInt 2)

/-- THERMAL_EMERGENCY (R43). -/
def execThermalEmergency (s : State) : Outcome State Fault Refusal := .next (s.emergency 0x71)

/-- SUPPLY_EMERGENCY (R43). -/
def execSupplyEmergency (s : State) : Outcome State Fault Refusal := .next (s.emergency 0x72)

/-- EMERGENCY_CONDITION_CLEARED: EMCLEAR can be accepted from now on (R43, R76). -/
def execEmergencyConditionCleared (s : State) : Outcome State Fault Refusal :=
  .next { s with helm := { s.helm with emCond := false } }

/-- Budget of a power class in watts (R44). -/
def powerBudget (cls : Nat) : Nat := 1600 - 200 * cls

/-- POWER_WINDOW: the power interrupt when the mean of a window exceeds the budget of the highest class of a partition that has
clusters (R44, R79). -/
def execPowerWindow (meanWatts : Nat) (s : State) : Outcome State Fault Refusal :=
  let top := (allParts.filter fun p => decide (0 < s.nclu p)).foldl (fun a p => max a (s.part p).pwrcls.toNat) 0
  .next (if powerBudget top < meanWatts then s.pfInt 1 else s)

/-! ## Reset (R26, R45, R46) -/

/-- Whether a memory key lies in the LPDDR6 tier (R95). -/
def lpddrKey (a : Nat) : Bool := decide (2 ^ 52 ≤ a) && decide (a < 2 ^ 53)

/-- COLD_RESET: everything but the flash; CHRON is 0; the ROM starts (R39, R45, R46, R90). The signatures the attestation key has
made, what has been sent and the inputs to come are no register. A staged copy becomes copy A. -/
def execColdReset (s : State) : Outcome State Fault Refusal :=
  let h := s.helm
  let (a, b, fresh) := match h.flashStaged with
    | some v => (some v, if h.fwb then h.flashB else h.flashA, true)
    | none => (h.flashA, h.flashB, false)
  let lat := 1 + Config.helmLatency s.freeIx % (bootLimit - 1)
  .next
    { helm :=
        { flashA := a, flashB := b, fwNew := fresh, fwFloor := h.fwFloor, flashRetired := h.flashRetired, signs := h.signs,
          spdmOut := h.spdmOut }
      hif := { hostOut := s.hif.hostOut }
      inputs := s.inputs
      occurs := s.occurs
      agenda := [{ cycle := lat, instr := .bootComplete }]
      freeIx := s.freeIx + 1
      nextId := s.nextId }

/-- The column after a warm reset: the survey map, the bus and the counts stay, the row controller is reset (R46). A pending change
of the refresh period takes effect, as no context is left (R40). -/
def Column.warm (k : Column) : Column :=
  { live := k.live, half := k.half, spare := k.spare, hot := k.hot != k.hotpend, dram := k.dram, slice := k.slice, rowmax := k.rowmax,
    phase := k.phase, tlogic := k.tlogic, layers := k.layers, cecnt := k.cecnt, errs := k.errs, mapped := k.mapped, failed := k.failed }

/-- Whether an event is one of the sensors, which no reset of the module stops (R36, R43). -/
def sensorEvent : Instr → Bool
  | .pendOnHeat _ _ | .supplyEmergency => true
  | _ => false

/-- A warm reset: partitions, engines, registers and on-package memory; CHRON, the survey map and LPDDR6 contents stay (R46, R70,
R90). What is not reset besides: flash and firmware, the STOP identities handled (R64), the key's count, SECNT (R192), the state of the
host port's link, the cause of an emergency (R43), what attestation has measured (R91). -/
def State.warm (s : State) (busy : Bool) : State :=
  let h := s.helm
  let lat := 1 + Config.helmLatency s.freeIx
  { chron := s.chron
    helm :=
      { gen := h.gen, emerg := h.emCond, emcode := if h.emCond then h.emcode else 0, emCond := h.emCond, supplyBad := h.supplyBad, fwb := h.fwb, fwpend := h.fwpend,
        fwerr := h.fwerr, fwver := h.fwver, flashA := h.flashA, flashB := h.flashB, flashStaged := h.flashStaged, fwFloor := h.fwFloor,
        fwNew := h.fwNew, flashRetired := h.flashRetired, signs := h.signs, spdmOut := h.spdmOut,
        hcmd := if busy then 1 else 0, hcmdBusy := busy }
    hif :=
      { hostOut := s.hif.hostOut
        hostPort := { st := s.hif.hostPort.st, width := s.hif.hostPort.width, laneok := s.hif.hostPort.laneok, wasUp := s.hif.hostPort.wasUp } }
    fab := { stopsSeen := s.fab.stopsSeen, stopCount := s.fab.stopCount }
    cores := s.cores.map fun x => (x.1, { ctl := { secnt := x.2.ctl.secnt } })
    cols := s.cols.map fun x => (x.1, x.2.warm)
    parts := s.parts.map fun x => (x.1, { lastChart := x.2.lastChart })
    ms := { lost := s.ms.lost }
    memory := s.memory.filter fun x => lpddrKey x.1
    inputs := s.inputs
    occurs := s.occurs
    agenda :=
      let kept := s.agenda.filter fun e => sensorEvent e.instr
      if h.fwerr then kept else agendaPut kept { cycle := s.chron + lat, instr := .bootComplete }
    freeIx := s.freeIx + 1
    nextId := s.nextId }

/-- WARM_RESET: a reset of the physical function (R46). -/
def execWarmReset (s : State) : Outcome State Fault Refusal := .next (s.warm false)

/-- POWER_LOSS: the whole device is off (R26). -/
def execPowerLoss (s : State) : Outcome State Fault Refusal := .next { s with off := true, agenda := [] }

/-- Whether an event belongs to a partition's context, registers and queues. -/
def partEvent (p : PartIx) (e : Ev) : Bool :=
  match e.instr with
  | .launchCheck q _ | .overlayLoad q _ | .contextStart q _ | .fixComplete q _ | .fixRelease q _ | .resumeFix q _ | .fixarr _ q _ _ _
  | .fixrel _ q _ _ | .stopRecordRefusalTimeout q _ _ => p == q
  | .helmSchedule | .quantumExpiry | .preemptionRequest | .preemptionComplete | .switchEnd | .partitionHalt | .replayInjection => p == e.part
  | _ => false

/-- A core after a partition reset: a fence lasts, SECNT stays (R46, R144, R192). -/
def Core.partReset (k : Core) : Core := { ctl := { secnt := k.ctl.secnt }, killed := k.killed }

/-- PARTITION_RESET: the context, registers and queues of a partition; its memory stays, a mailbox shadow is discarded (R46, R85).
Open rows are closed. What attestation measured of the partition's last accepted launch stays (R91; DESIGN CHOICE, log 51). -/
def State.partReset (s : State) (p : PartIx) : State :=
  let cs := s.coresOf p
  let s := s.abandon cs
  let s := { s with
    agenda := s.agenda.filter fun e => !partEvent p e && !(coreEvent e.instr && cs.contains e.core)
    reqs := s.reqs.filter fun r => !(r.who == 8 && r.part == some p) }
  let s := cs.foldl (fun s c => s.closeRows c ((s.col c).openIn (BitVec.allOnes 32) s.chron) s.chron) s
  let s := cs.foldl (fun s c => s.upd c Core.partReset) s
  let keys := (s.part p).slots.toList.filterMap (·.key)
  let s := s.updPart p fun q => { lastChart := q.lastChart }
  let s := keys.foldl (fun s k => s.keyFlush (Fin.ofNat 8 k)) s
  s.hotCheckAll

/-- PARTITION_RESET (R46). -/
def execPartitionReset (s : State) : Outcome State Fault Refusal := .next (s.partReset s.curPart)

/-! ## Boot (R90) -/

/-- Whether a firmware copy is valid: one that verifies with a version at least the floor (R90). -/
def Helm.valid_ (h : Helm) (copy : Option Nat) : Bool := match copy with
  | some v => decide (h.fwFloor ≤ v)
  | none => false

/-- The firmware finishes the survey and sets VALID; WARMRST completes with it, and the floor rises to a copy newly staged (R46, R76,
R90). -/
def State.setValid (s : State) (cold : Bool) : State :=
  let s := s.survey cold
  let h := s.helm
  let s := { s with helm := { h with valid := true, fwFloor := if h.fwNew ∧ ¬ h.fwb then max h.fwFloor h.fwver.toNat else h.fwFloor, fwNew := false } }
  if h.hcmdBusy ∧ h.hcmd = 1 then s.sched s.chron .hcmdComplete else s

/-- BOOT_COMPLETE: the ROM has chosen the first valid copy, and the firmware has finished the survey; with no valid copy FWERR is set
(R90). After a warm reset the firmware runs already. -/
def execBootComplete (s : State) : Outcome State Fault Refusal :=
  let h := s.helm
  .next (if h.valid then s
    else if h.fwver ≠ 0 then s.setValid false
    else if h.valid_ h.flashA then ({ s with helm := { h with fwver := BitVec.ofNat 16 (h.flashA.getD 0), fwb := false } }).setValid true
    else if h.valid_ h.flashB then ({ s with helm := { h with fwver := BitVec.ofNat 16 (h.flashB.getD 0), fwb := true } }).setValid true
    else { s with helm := { h with fwerr := true } })

/-! ## Commands (R76, R77) -/

/-- A command that is not accepted: ERR, and nothing changes (R76, R79). -/
def State.hcmdRefuse (s : State) : State :=
  ({ s with helm := { s.helm with hcmdErr := true, hcmdBusy := false } }).pfInt 3

/-- A command accepted: BUSY until it completes. -/
def State.hcmdAccept (s : State) (cmd : BitVec 4) (f : State → State) : State :=
  let s := f { s with helm := { s.helm with hcmd := cmd, hcmdBusy := true } }
  let (lat, s) := s.drawHelm
  s.sched (s.chron + lat) .hcmdComplete

/-- WARMRST: a warm reset; BUSY clears when VALID is 1 again (R46, R76). With no firmware only FWSTAGE is accepted (R90). -/
def execWarmrst (s : State) : Outcome State Fault Refusal := .next (if s.helm.fwerr then s.hcmdRefuse else s.warm true)

/-- EMCLEAR: clears EMERG once the condition has cleared (R43, R76). -/
def execEmclear (s : State) : Outcome State Fault Refusal :=
  .next (if ¬ s.helm.emerg ∨ s.helm.emCond ∨ s.helm.fwerr then s.hcmdRefuse
    else s.hcmdAccept 2 fun s => { s with helm := { s.helm with emerg := false } })

/-- FWSTAGE: a signed image at the address of ARG goes into the inactive copy (R76, R90). -/
def execFwstage (s : State) : Outcome State Fault Refusal :=
  let a := s.helm.harg.toNat
  let there := s.paKind a == .pool || s.paKind a == .lpddr
  .next (if a % 2 ^ 16 ≠ 0 ∨ ¬ there then s.hcmdRefuse
    else match Config.fwImageVersion s.memory a with
      | some v => if v < s.helm.fwFloor then s.hcmdRefuse
        else s.hcmdAccept 3 fun s => { s with helm := { s.helm with fwpend := true, flashStaged := some v } }
      | none => s.hcmdRefuse)

/-- Whether a byte of PARTMAP is one PARTAPPLY accepts (R77). -/
def partByteOk (b : BitVec 8) : Bool := decide (b.toNat < 48) || b == 0x3F

/-- Whether PARTAPPLY is accepted: every byte is allowed, and no partition whose clusters change holds a live context (R76, R77). -/
def State.partApplyOk (s : State) : Bool :=
  (List.finRange 48).all fun c =>
    let old := s.hif.partmap[c]
    let new := s.hif.partmapNext[c]
    let live (b : BitVec 8) : Bool := if h : b.toNat < 48 then (s.part ⟨b.toNat, h⟩).slots.toList.any fun x => x.st.live else false
    partByteOk new && (old == new || (!live old && !live new))

/-- PARTAPPLY: PARTMAP takes effect (R76, R77). -/
def execPartapply (s : State) : Outcome State Fault Refusal :=
  .next (if s.helm.fwerr ∨ ¬ s.partApplyOk then s.hcmdRefuse
    else s.hcmdAccept 4 fun s => { s with hif := { s.hif with partmap := s.hif.partmapNext } }.hotCheckAll)

/-- HCMD_COMPLETE: BUSY clears, interrupt bit 3 is set (R76, R79). -/
def execHcmdComplete (s : State) : Outcome State Fault Refusal :=
  .next (({ s with helm := { s.helm with hcmdBusy := false } }).pfInt 3)

/-! ## Attestation (R91) -/

/-- Most signatures of the attestation key (R91). -/
def signLimit : Nat := 2 ^ 20

/-- The SPDM error Unspecified; its code is SPDM's (R91; log 8). -/
def spdmError : List Byte := [0x12, 0x7F, 0x05, 0x00]

/-- An answer with a signature over it, while the key lasts (R91). -/
def State.spdmSigned (s : State) (bs : List Byte) : State :=
  if s.helm.signs < signLimit then
    ({ s with helm := { s.helm with signs := s.helm.signs + 1 } }).spdmAnswer (bs ++ Config.attest s.helm.signs bs)
  else s.spdmAnswer spdmError

/-- SPDM_CHALLENGE: CHALLENGE_AUTH with the digest of the certificate chain and the nonce, signed (R91). -/
def execSpdmChallenge (nonce : Nat) (s : State) : Outcome State Fault Refusal :=
  .next (s.spdmSigned ([0x12, 0x03, 0x00, 0x01] ++ Config.sha256 Config.certificates ++ toBytes 32 nonce))

/-- The bytes of the chart key slots (R78). -/
def Helm.keyBytes (h : Helm) : List Byte := (h.keys.toList.map fun k => toBytes 64 k.toNat).flatten

/-- A measurement block (R91). The block of a partition whose last accepted launch has no chart that could be read is 0 (DESIGN CHOICE,
log 51). -/
def State.measurement (s : State) (index : Nat) : Option (List Byte) :=
  match index with
  | 1 => some Config.romDigest
  | 2 => some (Config.fwDigest s.helm.fwver.toNat)
  | 3 => some (Config.sha256 s.helm.keyBytes)
  | i =>
    if h : 16 ≤ i ∧ i < 64 then
      some (match (s.part ⟨i - 16, by omega⟩).lastChart with
        | none => List.replicate 32 0
        | some c => Config.sha256 c)
    else none

/-- SPDM_GET_MEASUREMENTS: the block of an index, signed on request while the key lasts; an index that names none has no block
(R91). -/
def execSpdmGetMeasurements (index : Nat) (signed : Bool) (s : State) : Outcome State Fault Refusal :=
  let bs := [0x12, 0x60, 0x00, BitVec.ofNat 8 index] ++ (s.measurement index).getD []
  .next (if signed then s.spdmSigned bs else s.spdmAnswer bs)

end Sys2Proof.Machine
end

