-- ==== Sys2Proof/Machine/Regs.lean ====
section
/-! DEFINITION. The register maps of the functions as the host reads and writes them: BAR0 of the physical function and of a virtual
one, and the mailboxes of BAR4 (R12, R17, R71 to R85). -/

namespace Sys2Proof.Machine

open Host (Outcome)

/-! ## Reads: the doubleword at an offset -/

/-- The identity block (R75). -/
def State.identRead (s : State) (off : Nat) : Nat :=
  match off with
  | 0x00 => 0xA9768001 + 2 ^ 32 * (0x10 + 2 ^ 8 * fnRev + 2 ^ 16 * s.helm.fwver.toNat)
  | 0x08 => 48
  | _ => 0

/-- The Helm command block (R74, R76, R164, R165). -/
def State.helmRead (s : State) (off : Nat) : Nat :=
  let h := s.helm
  match off with
  | 0x00 => h.hcmd.toNat + 2 ^ 30 * ofBool h.hcmdErr + 2 ^ 31 * ofBool h.hcmdBusy
  | 0x08 => h.harg.toNat
  | 0x10 => ofBool h.valid + 2 * ofBool h.emerg + 4 * ofBool h.fwb + 8 * ofBool h.fwpend + 16 * ofBool h.fwerr + 2 ^ 8 * h.emcode.toNat
  | 0x20 => s.hif.w2part.toNat + 2 ^ 32 * ofBool s.hif.w2err
  | 0x28 => s.w2base .pf
  | 0x40 => ofBool s.frzCtl + 2 * ofBool s.isFrozen
  | 0x48 => h.scaddr.toNat
  | 0x50 => s.scanData
  | _ => 0

/-- The header of the survey table as 32-bit words (R31). -/
def State.surveyHead (s : State) (w : Nat) : Nat :=
  if w = 0 then 1 + 2 ^ 16 * ofBool s.helm.valid
  else if ¬ s.helm.valid then 0
  else match w with
    | 1 => s.helm.gen.toNat
    | 2 => 288 + 2048 * 2 ^ 16
    | 3 => tRCD + 2 ^ 8 * tRASmin + 2 ^ 16 * tRP + 2 ^ 24 * (tRASmin + tRP)
    | 4 => tRASmax + 2 ^ 16 * refPer
    | 5 => refSlot + 2 ^ 8 * refStride + 2 ^ 16 * 40 + 2 ^ 24 * 8
    | 6 => 85 + 2 ^ 8 * 80 + 2 ^ 16 * 90
    | _ => 0

/-- A mask over the banks of a column (R32). -/
def Column.bankMask (k : Column) (f : BitVec 4 → Bool) : Nat :=
  (List.finRange 32).foldl (fun a b => if f k.dram[b] then a + 2 ^ b.val else a) 0

/-- The live slice banks of a column (R32, R35). -/
def Column.sliceMask (k : Column) : Nat :=
  (List.finRange 48).foldl (fun a j => if k.slice[j] == 1 || k.slice[j] == 2 then a + 2 ^ j.val else a) 0

/-- The entry of a column as 32-bit words (R32). -/
def Column.surveyWord (k : Column) (n w : Nat) : Nat :=
  match w with
  | 0 => n + 2 ^ 16 * ofBool k.live + 2 ^ 17 * ofBool k.half + 2 ^ 18 * (k.spare % 128) + 2 ^ 25 * ofBool k.hot + 2 ^ 26 * ofBool k.hotpend
  | 1 => k.sliceMask % 2 ^ 32
  | 2 => k.sliceMask / 2 ^ 32
  | 3 => k.bankMask fun b => decide (1 ≤ b.toNat) && decide (b.toNat ≤ 5)
  | 4 => k.bankMask fun b => b == 2 || b == 4
  | 5 => k.rowmax.toNat + 2 ^ 16 * (k.phase % 2 ^ 13)
  | 6 => k.tlogic.toNat + 2 ^ 16 * k.tdram.toNat
  | 7 => k.cecnt.toNat
  | _ => 0

/-- The entry of a column in the survey map, as a number (R35). -/
def Column.mapEntry (k : Column) : Nat :=
  (List.finRange 32).foldl (fun a b => a + k.dram[b].toNat * 2 ^ (4 * b.val)) 0
    + (List.finRange 48).foldl (fun a j => a + k.slice[j].toNat * 2 ^ (128 + 2 * j.val)) 0

/-- The 32-bit word of the survey region at an offset (R31, R32, R35, R38). `sup` is the supervisor view: SVCTL reads 0 in the copy
(R73). -/
def State.surveyWord (s : State) (sup : Bool) (off : Nat) : Nat :=
  if off < 0x40 then s.surveyHead (off / 4)
  else if off < 0x4840 then
    (if h : (off - 0x40) / 64 < 288 then
      (if s.helm.valid then (s.col ⟨(off - 0x40) / 64, h⟩).surveyWord ((off - 0x40) / 64) (off % 64 / 4) else 0)
    else 0)
  else if 0x5000 ≤ off ∧ off < 0x7400 then
    (if h : (off - 0x5000) / 32 < 288 then fld (s.col ⟨(off - 0x5000) / 32, h⟩).mapEntry (8 * (off % 32) + 31) (8 * (off % 32)) else 0)
  else if off = 0x7800 ∧ sup then
    s.ms.svCol.toNat + 2 ^ 9 * s.ms.svBank.toNat + 2 ^ 16 * s.ms.svCmd.toNat + 2 ^ 30 * ofBool s.ms.svErr + 2 ^ 31 * ofBool s.ms.svBusy
  else 0

/-- The survey region's doubleword (R31, R32, R35, R38). -/
def State.surveyRead (s : State) (sup : Bool) (off : Nat) : Nat := s.surveyWord sup off + 2 ^ 32 * s.surveyWord sup (off + 4)

/-- A port's block (R69). The high word of FLTX or FLRX reads as latched (R70). -/
def State.portRead (s : State) (i off : Nat) : Nat :=
  let k := if h : i < 48 then s.fab.ports[i] else s.hif.hostPort
  match off with
  | 0x00 => s.portWord i + 2 ^ 32 * (if i < 48 then k.optfail.toNat else 0)
  | 0x08 => k.fltx.toNat % 2 ^ 32 + 2 ^ 32 * k.latchTx.toNat
  | 0x10 => k.flrx.toNat % 2 ^ 32 + 2 ^ 32 * k.latchRx.toNat
  | 0x18 => k.replay.toNat + 2 ^ 32 * k.feccor.toNat
  | 0x20 => k.flbad.toNat + 2 ^ 32 * k.retrain.toNat
  | 0x28 => k.msgdrop.toNat + 2 ^ 32 * k.malf.toNat
  | _ => 0

/-- STATE of a link (R56). -/
def LinkState.code : LinkState → Nat
  | .disabled => 0 | .training => 1 | .up => 2 | .down => 3

/-- LKCFG of a link: its two doublewords (R56). -/
def Link.read (k : Link) (hi : Bool) : Nat :=
  if hi then k.parts.toNat + 2 ^ 48 * k.st.code + 2 ^ 51 * ofBool k.err
  else ofBool k.en + 2 * k.nmem.toNat + 8 * ofBool k.frzen + 2 ^ 8 * k.peer.toNat
    + 2 ^ 32 * (k.mem[0].toNat + 2 ^ 8 * k.mem[1].toNat + 2 ^ 16 * k.mem[2].toNat + 2 ^ 24 * k.mem[3].toNat)

/-- The link block (R56, R69). -/
def State.linkRead (s : State) (off : Nat) : Nat :=
  if off = 0 then s.fab.fabid.toNat
  else if 0x100 ≤ off ∧ off < 0x140 then s.portRead 48 (off - 0x100)
  else if 0x400 ≤ off ∧ off < 0x1000 then s.portRead ((off - 0x400) / 64) (off % 64)
  else if h : 0x1000 ≤ off ∧ off < 0x1300 then s.fab.links[(off - 0x1000) / 16].read (off % 16 == 8)
  else 0

/-- Clusters of a partition in effect (R77). -/
def State.clmask (s : State) (p : PartIx) : Nat :=
  (List.finRange 48).foldl (fun a c => if s.partOfCluster c = some p then a + 2 ^ c.val else a) 0

/-- LBCTL (R145). -/
def Logbook.ctlRead (l : Logbook) : Nat := l.ctl.toNat + 8 * ofBool l.lost

/-- The page of a partition in the partition block (R77, R108, R128, R140, R143, R145, R159, R167). -/
def State.pageRead (s : State) (p : PartIx) (off : Nat) : Nat :=
  let q := s.part p
  match off with
  | 0x00 => q.pwrcls.toNat
  | 0x08 => q.stopbase.toNat
  | 0x10 => s.nclu p
  | 0x18 => s.clmask p
  | 0x40 => ofBool q.dmEn + q.dmAddr.toNat
  | 0x48 => ofBool q.hEn + q.hAddr.toNat
  | 0x50 => q.hpasid.toNat + 2 ^ 20 * ofBool q.pasiden + 2 ^ 21 * ofBool q.autoprom + 2 ^ 24 * q.fqsz.toNat
  | 0x58 => q.fqbase.toNat
  | 0x60 => q.fqhead.toNat
  | 0x68 => q.fqtail.toNat
  | 0x70 => q.fqwb.toNat
  | 0x78 => q.fqheld.length % 2 ^ 16
  | 0x80 => q.fxcfg.toNat
  | 0x88 => q.fxtot.toNat
  | 0x90 => q.fxchl.toNat
  | 0x98 => q.fxchp.toNat
  | 0xA0 => q.quant.toNat + 2 ^ 32 * q.pbudget.toNat + 2 ^ 48 * q.slhold.toNat + 2 ^ 56 * ofBool q.phold
  | 0xA8 => q.lkth.toNat
  | 0xB0 => q.lkstat.toNat
  | 0xB8 => q.lb.ctlRead
  | 0xC0 => q.lb.base.toNat
  | 0xC8 => q.lb.head.toNat
  | 0xD0 => q.lb.tail.toNat
  | 0xD8 => q.stamped.epoch.toNat
  | 0xE0 => 2 ^ 16 * q.ckleg.toNat
  | 0xE8 => if q.ckheld then 1 + 2 * ofBool q.ckclean + 2 ^ 16 * q.ckhleg.toNat else 0
  | 0xF0 => q.phalt.toNat
  | _ => 0

/-- The partition block (R77). -/
def State.partRead (s : State) (off : Nat) : Nat :=
  if off < 48 then (List.range 8).foldl (fun a i => a + ((s.hif.partmapNext[off + i]?).getD 0).toNat * 2 ^ (8 * i)) 0
  else if h : 0x1000 ≤ off ∧ off < 0x4000 then s.pageRead ⟨(off - 0x1000) / 0x100, by omega⟩ (off % 0x100)
  else 0

/-- The translation and shoot-down block (R98, R111). -/
def State.transRead (s : State) (off : Nat) : Nat :=
  let m := s.ms
  match off with
  | 0x00 => m.sdia.toNat
  | 0x08 => m.sdctl.toNat + 2 ^ 25 * ofBool m.sdBusy + 2 ^ 26 * ofBool m.sdErr
  | 0x10 => m.sddone.toNat
  | 0x20 => m.bmCol.toNat + 2 ^ 9 * m.bmBank.toNat + 2 ^ 14 * ofBool m.bmMode + 2 ^ 30 * ofBool m.bmErr + 2 ^ 31 * ofBool m.bmBusy
  | _ => 0

/-- The migration engine block (R113). -/
def State.migRead (s : State) (off : Nat) : Nat :=
  let m := s.mig
  match off with
  | 0x00 => m.cmd.toNat
  | 0x08 => m.ia.toNat
  | 0x10 => m.dst.toNat
  | 0x18 => m.lim.toNat
  | 0x28 => m.fifo.length + 64 * ofBool (decide (32 ≤ m.fifo.length)) + 128 * ofBool m.err
  | 0x40 => 2 ^ 24 * m.cqsz.toNat
  | 0x48 => m.cqbase.toNat
  | 0x50 => m.cqhead.toNat
  | 0x58 => m.cqtail.toNat
  | 0x60 => m.cqwb.toNat
  | 0x68 => m.held.length
  | _ => 0

/-- The meters of the Sextant (R135). -/
def State.sextantRead (s : State) (off : Nat) : Nat :=
  let meter (u : Nat) : Nat := (tget s.hif.sextant u).getD 0
  let word (o : Nat) : Nat := if o < 0xC0 then meter (o / 4) else if 0x100 ≤ o ∧ o < 0x120 then meter (48 + (o - 0x100) / 4) else 0
  word off + 2 ^ 32 * word (off + 4)

/-- A doubleword of a chart key slot (R78). -/
def State.keyRead (s : State) (off : Nat) : Nat :=
  if h : off < 0x200 then fld s.helm.keys[off / 64].toNat (8 * (off % 64) + 63) (8 * (off % 64)) else 0

/-- PF BAR0 (R72). -/
def State.pfRead (s : State) (off : Nat) : Nat :=
  if off < 0x1000 then s.identRead off
  else if off < 0x2000 then s.helmRead (off - 0x1000)
  else if off < 0x3000 then (match off - 0x2000 with
    | 0x00 => s.hif.intst.toNat
    | 0x08 => s.hif.inten.toNat
    | 0x10 => s.hif.mbev.toNat
    | _ => 0)
  else if off < 0x4000 then s.keyRead (off - 0x3000)
  else if 0x10000 ≤ off ∧ off < 0x18000 then s.surveyRead true (off - 0x10000)
  else if 0x20000 ≤ off ∧ off < 0x22000 then s.linkRead (off - 0x20000)
  else if 0x30000 ≤ off ∧ off < 0x40000 then s.partRead (off - 0x30000)
  else if 0x40000 ≤ off ∧ off < 0x50000 then s.transRead (off - 0x40000)
  else if 0x50000 ≤ off ∧ off < 0x60000 then s.migRead (off - 0x50000)
  else if 0x60000 ≤ off ∧ off < 0x70000 then s.sextantRead (off - 0x60000)
  else if h : 0x100000 ≤ off ∧ off < 0x220000 then s.ctlRead ⟨(off - 0x100000) / 0x1000, by omega⟩ true (off % 0x1000)
  else 0

/-- VF BAR0 (R73). -/
def State.vfRead (s : State) (p : PartIx) (off : Nat) : Nat :=
  if off < 0x1000 then s.identRead off
  else if off < 0x2000 then (if off - 0x1000 < 0x100 then s.pageRead p (off - 0x1000) else 0)
  else if off = 0x2000 then (s.part p).vintst.toNat
  else if off = 0x2008 then (s.part p).vinten.toNat
  else if off = 0x3000 then s.w2base (.vf p)
  else if 0x8000 ≤ off ∧ off < 0x10000 then s.surveyRead false (off - 0x8000)
  else 0

/-- PROGRESS and EXIT as the slot PSEL selects them: as they stand, and during a switch as committed at its cut (R81, R85). -/
def Part.progress (q : Part) : Nat × Nat :=
  if q.switching then
    let x := (q.atCut[q.psel.toNat]?).getD (0, 0)
    (x.1 + 2 ^ 4, x.2)
  else
    let j : Fin 8 := Fin.ofNat 8 q.psel.toNat
    (q.slots[j].progress j.val, q.slots[j].exit.toNat)

/-- The fields of a mailbox with the writes a switch shadows (R85). -/
def Part.shadowView (q : Part) : Part :=
  q.shadowWr.foldl (fun q w =>
    let q' := q.mailFields w.off w.len w.val
    if w.off / 8 = 3 ∧ w.off % 8 < 2 then
      { q' with tag := BitVec.ofNat 8 (fld (putBytes (q.tag.toNat * 2 ^ 8) (w.off % 8) w.len w.val) 15 8) } else q') q

/-- A mailbox (R80). During a switch the offsets it shadows read as shadowed, PROGRESS, STOPPTR and EXIT as committed at the cut (R85). -/
def State.mailRead (s : State) (p : PartIx) (off : Nat) : Nat :=
  let q := s.part p
  let v := q.shadowView
  match off with
  | 0x00 => v.image.toNat
  | 0x08 => v.argbase.toNat
  | 0x10 => v.size.toNat + 2 ^ 4 * v.prio.toNat + 2 ^ 8 * v.slot.toNat
  | 0x18 => 2 ^ 8 * v.tag.toNat + 2 ^ 32 * v.psel.toNat
  | 0x20 => q.progress.1
  | 0x28 => if q.switching then q.stopAtCut else q.stopbase.toNat
  | 0x30 => q.progress.2
  | 0x38 => ofBool v.even + 2 * ofBool v.lerr
  | _ => 0

/-- The doubleword the host reads at an offset of a function's BAR0 or BAR4 (R71 to R73). -/
def State.regRead (s : State) (fn : Fn) (bar : Bar) (off : Nat) : Nat :=
  let off := off / 8 * 8
  match bar, fn with
  | .bar0, .pf => s.pfRead off
  | .bar0, .vf p => s.vfRead p off
  | .bar4, .pf => if h : off < 0x30000 then s.mailRead ⟨off / 0x1000, by omega⟩ (off % 0x1000) else 0
  | .bar4, .vf p => if off < 0x1000 then s.mailRead p off else 0
  | .bar2, _ => 0

/-! ## Writes of n bytes from byte o of a doubleword -/

/-- A write: the byte it begins at in its doubleword, its bytes, its value, and the doubleword that results when every field is RW. -/
structure Wr where
  o : Nat
  n : Nat
  v : Nat
  new : Nat
  deriving DecidableEq, Repr

/-- The bits written, at their places; 0 elsewhere: what a W1C or a W field sees (R12). -/
def Wr.w (x : Wr) : Nat := putBytes 0 x.o x.n x.v

/-- Whether a byte of the doubleword is written. -/
def Wr.has (x : Wr) (i : Nat) : Bool := decide (x.o ≤ i) && decide (i < x.o + x.n)

/-- A W1C bit after a write (R12). -/
def Wr.w1c (x : Wr) (bit : Nat) (old : Bool) : Bool := old && !bitAt x.w bit

/-- INTEN after a write fires the vectors whose (status AND enable) rises (R79). -/
def State.setInten (s : State) (new : BitVec 8) : State :=
  let old := s.hif.inten
  let s' := { s with hif := { s.hif with inten := new &&& 0x3F } }
  (List.range 6).foldl (fun t v => if s.hif.intst.getLsbD v && new.getLsbD v && !old.getLsbD v then t.fire 48 v else t) s'

/-- VINTEN after a write, as INTEN (R79). -/
def State.setVinten (s : State) (p : PartIx) (new : BitVec 2) : State :=
  let q := s.part p
  let s' := s.updPart p fun q => { q with vinten := new }
  (List.range 2).foldl (fun t v => if q.vintst.getLsbD v && new.getLsbD v && !q.vinten.getLsbD v then t.fire p.val v else t) s'

/-- HCMD (R76). A CMD write under BUSY sets ERR and raises no interrupt: no command was taken that could be refused (DESIGN CHOICE,
log 67). -/
def State.writeHcmd (s : State) (x : Wr) : State :=
  let s := { s with helm := { s.helm with hcmdErr := x.w1c 30 s.helm.hcmdErr } }
  if ¬ x.has 0 then s
  else if s.helm.hcmdBusy then { s with helm := { s.helm with hcmdErr := true } }
  else
    let cmd := fld x.new 3 0
    let ev : Option Instr := match cmd with
      | 1 => some .warmrst | 2 => some .emclear | 3 => some .fwstage | 4 => some .partapply | _ => none
    let s := { s with helm := { s.helm with hcmd := BitVec.ofNat 4 cmd, hcmdBusy := ev.isSome } }
    match ev with
    | some i => s.sched s.chron i
    | none => s

/-- W2CTL (R74). -/
def State.writeW2ctl (s : State) (x : Wr) : State :=
  let s := { s with hif := { s.hif with w2err := x.w1c 32 s.hif.w2err } }
  let b := fld x.new 7 0
  if ¬ x.has 0 then s
  else if b < 48 ∨ b = 0xFF then { s with hif := { s.hif with w2part := BitVec.ofNat 8 b } }
  else { s with hif := { s.hif with w2err := true } }

/-- The Helm command block (R74, R76, R164, R165). -/
def State.helmWrite (s : State) (off : Nat) (x : Wr) : State :=
  match off with
  | 0x00 => s.writeHcmd x
  | 0x08 => { s with helm := { s.helm with harg := BitVec.ofNat 64 x.new } }
  | 0x20 => s.writeW2ctl x
  | 0x28 => { s with hif := { s.hif with w2base := BitVec.ofNat 56 (putBytes s.hif.w2base.toNat x.o x.n x.v) } }
  | 0x40 => if x.has 0 then (if bitAt x.new 0 then s.frzOn else s.frzOff) else s
  | 0x48 => if x.o < 4 then s.scanWrite (BitVec.ofNat 32 x.new) else s
  | _ => s

/-- The interrupt block (R79). -/
def State.intWrite (s : State) (off : Nat) (x : Wr) : State :=
  match off with
  | 0x00 => { s with hif := { s.hif with intst := s.hif.intst &&& ~~~(BitVec.ofNat 8 x.w) } }
  | 0x08 => s.setInten (BitVec.ofNat 8 x.new)
  | 0x10 => { s with hif := { s.hif with mbev := s.hif.mbev &&& ~~~(BitVec.ofNat 48 x.w) } }
  | _ => s

/-- A chart key slot (R78): bytes not written keep what the last write of them left. -/
def State.keyBlockWrite (s : State) (off : Nat) (x : Wr) : State :=
  if h : off < 0x200 then
    let j : Fin 8 := ⟨off / 64, by omega⟩
    let dw := off % 64 / 8
    let old := match s.helm.keyHeld.reverse.find? (fun y => y.1 == j.val && y.2.1 == dw) with
      | some y => y.2.2.toNat
      | none => s.keyRead off
    s.keyWrite j dw (putBytes old x.o x.n x.v)
  else s

/-- SVCTL (R38). -/
def State.svctlWrite (s : State) (x : Wr) : State :=
  let s := { s with ms := { s.ms with svErr := x.w1c 30 s.ms.svErr } }
  if ¬ (x.has 0 ∨ x.has 1 ∨ x.has 2) then s
  else if s.ms.svBusy then { s with ms := { s.ms with svErr := true } }
  else
    let cmd := fld x.new 18 16
    let s := { s with ms := { s.ms with svCol := BitVec.ofNat 9 x.new, svBank := BitVec.ofNat 5 (fld x.new 13 9), svCmd := BitVec.ofNat 3 cmd } }
    let run (i : Instr) : State := ({ s with ms := { s.ms with svBusy := true } }).sched s.chron i
    if ¬ x.has 2 then s
    else match cmd with
      | 1 => run .quiesce
      | 2 => run .commit
      | _ => s

/-- The fields of LKCFG's first doubleword but EN (R56). -/
def Link.fields (k : Link) (v : Nat) : Link :=
  let m (i : Nat) : BitVec 6 := BitVec.ofNat 6 (fld v (32 + 8 * i + 5) (32 + 8 * i))
  { k with nmem := BitVec.ofNat 2 (fld v 2 1), frzen := bitAt v 3, peer := BitVec.ofNat 12 (fld v 19 8), mem := #v[m 0, m 1, m 2, m 3] }

/-- The first doubleword of LKCFG: EN from 0 to 1 enables the link, to 0 disables it; the other fields take effect while EN is 0 only
(R57). -/
def State.lkcfgWrite (s : State) (l : LinkIx) (x : Wr) : State :=
  let k := s.fab.links[l]
  let en := bitAt x.new 0
  if k.en then (if en then s else s.linkDisable l)
  else if en then s.linkEnable l (k.fields x.new)
  else s.updLink l fun k => k.fields x.new

/-- The link block (R56). -/
def State.linkWrite (s : State) (off : Nat) (x : Wr) : State :=
  if off = 0 then s.setFabid (BitVec.ofNat 12 x.new)
  else if h : 0x1000 ≤ off ∧ off < 0x1300 then
    let l : LinkIx := ⟨(off - 0x1000) / 16, by omega⟩
    if off % 16 = 0 then s.lkcfgWrite l x
    else s.updLink l fun k => { k with parts := BitVec.ofNat 48 x.new, err := x.w1c 51 k.err }
  else s

/-- FXCFG after a write: PTYPE 3 is refused, the field unchanged (R128). -/
def fxcfgOf (old new : Nat) : Nat :=
  let pt := if fld new 7 6 = 3 then fld old 7 6 else fld new 7 6
  fld new 5 0 + 2 ^ 6 * pt + 2 ^ 8 * fld new 13 8 + 2 ^ 16 * fld new 21 16

/-- SCHCTL (R140): the Helm looks at what runs (R141). -/
def State.schctlWrite (s : State) (p : PartIx) (v : Nat) : State :=
  let s := s.updPart p fun q =>
    { q with quant := BitVec.ofNat 24 v, pbudget := BitVec.ofNat 16 (fld v 47 32), slhold := BitVec.ofNat 8 (fld v 55 48), phold := bitAt v 56 }
  let s := match (s.part p).runSlot with
    | some j => s.armQuantum p j
    | none => s
  s.kickHelm p

/-- LBCTL: LOST is W1C; what else is written takes effect at the next launch (R145). -/
def Logbook.writeCtl (l : Logbook) (sup : Bool) (x : Wr) : Logbook :=
  { l with ctl := if sup then BitVec.ofNat 64 (x.new &&& 0xF7F07) else l.ctl, lost := x.w1c 3 l.lost }

/-- The registers of a partition's page that any view writes (R143, R145). -/
def State.pageUser (s : State) (p : PartIx) (sup : Bool) (off : Nat) (x : Wr) : State :=
  s.updPart p fun q => match off with
    | 0xB0 => { q with lkstat := if bitAt x.w 15 then q.lkstat &&& 0x7FFF else q.lkstat }
    | 0xB8 => { q with lb := q.lb.writeCtl sup x }
    | 0xC8 => { q with lb := { q.lb with wHead := some (BitVec.ofNat 64 (putBytes (q.lb.wHead.getD q.lb.head).toNat x.o x.n x.v)) } }
    | 0xD0 => if q.lb.ctl.getLsbD 1 then
        { q with lb := { q.lb with wTail := some (BitVec.ofNat 64 (putBytes (q.lb.wTail.getD q.lb.tail).toNat x.o x.n x.v)) } } else q
    | _ => q

/-- The registers of a partition's page that the supervisor view alone writes and whose write does no more (R77, R108, R128, R143,
R145). -/
def Part.pageFields (q : Part) (off : Nat) (v : Nat) : Part :=
  match off with
  | 0x00 => { q with pwrcls := BitVec.ofNat 2 v }
  | 0x08 => { q with stopbase := BitVec.ofNat 56 v }
  | 0x40 => { q with dmEn := bitAt v 0, dmAddr := BitVec.ofNat 56 (fld v 55 16 * 2 ^ 16) }
  | 0x48 => { q with hEn := bitAt v 0, hAddr := BitVec.ofNat 56 (fld v 55 16 * 2 ^ 16) }
  | 0x50 => { q with hpasid := BitVec.ofNat 20 v, pasiden := bitAt v 20, autoprom := bitAt v 21
                     fqsz := if fld v 27 24 ≤ 10 then BitVec.ofNat 4 (fld v 27 24) else q.fqsz }
  | 0x58 => { q with fqbase := BitVec.ofNat 56 (fld v 55 6 * 2 ^ 6) }
  | 0x70 => { q with fqwb := BitVec.ofNat 64 (fld v 63 2 * 4) }
  | 0x80 => { q with fxcfg := BitVec.ofNat 64 (fxcfgOf q.fxcfg.toNat v) }
  | 0x88 => { q with fxtot := BitVec.ofNat 32 v }
  | 0x90 => { q with fxchl := BitVec.ofNat 48 v }
  | 0x98 => { q with fxchp := BitVec.ofNat 48 v }
  | 0xA8 => { q with lkth := BitVec.ofNat 48 v }
  | 0xC0 => { q with lb := { q.lb with base := BitVec.ofNat 64 (fld v 55 20 * 2 ^ 20) } }
  | _ => q

/-- A partition's page written from the PF (R77, R108, R110, R128, R140, R143, R145, R159, R167). -/
def State.pageWrite (s : State) (p : PartIx) (off : Nat) (x : Wr) : State :=
  match off with
  | 0x60 => if x.o < 4 then s.fqHead p (BitVec.ofNat 32 x.new) else s
  | 0xA0 => s.schctlWrite p x.new
  | 0xB0 | 0xB8 | 0xC8 | 0xD0 => s.pageUser p true off x
  | 0xE0 =>
    let leg := BitVec.ofNat 16 (fld x.new 31 16)
    if bitAt x.w 0 then s.checkpoint p leg else s.updPart p fun q => { q with ckleg := leg }
  | 0xF0 => if bitAt x.w 31 then s.updPart p fun q => { q with phalt := q.phalt &&& 0x7FFFFFFF } else s
  | _ => s.updPart p fun q => q.pageFields off x.new

/-- The partition block (R77). -/
def State.partWrite (s : State) (off : Nat) (x : Wr) : State :=
  if off < 48 then
    (List.range x.n).foldl (fun s i =>
      let b := off + x.o + i
      if h : b < 48 then { s with hif := { s.hif with partmapNext := s.hif.partmapNext.set b (BitVec.ofNat 8 (x.v / 2 ^ (8 * i))) } } else s) s
  else if h : 0x1000 ≤ off ∧ off < 0x4000 then s.pageWrite ⟨(off - 0x1000) / 0x100, by omega⟩ (off % 0x100) x
  else s

/-- SDCTL (R111). -/
def State.sdctlWrite (s : State) (x : Wr) : State :=
  let s := { s with ms := { s.ms with sdctl := BitVec.ofNat 24 x.new, sdErr := x.w1c 26 s.ms.sdErr } }
  if ¬ bitAt x.w 24 then s
  else if s.ms.sdBusy then { s with ms := { s.ms with sdErr := true } }
  else
    let i : Instr := if s.ms.sdctl.getLsbD 8 then .preload else .inval
    ({ s with ms := { s.ms with sdBusy := true, sdRun := some (s.ms.sdia, s.ms.sdctl, 0) } }).sched s.chron i

/-- BMCTL (R98). -/
def State.bmctlWrite (s : State) (x : Wr) : State :=
  if s.ms.bmBusy then { s with ms := { s.ms with bmErr := true } }
  else
    let s := { s with ms := { s.ms with bmErr := x.w1c 30 s.ms.bmErr } }
    let s := { s with ms := { s.ms with bmCol := BitVec.ofNat 9 x.new, bmBank := BitVec.ofNat 5 (fld x.new 13 9), bmMode := bitAt x.new 14 } }
    if x.has 1 then ({ s with ms := { s.ms with bmBusy := true } }).sched s.chron (if s.ms.bmMode then .bankToRow else .bankToPool) else s

/-- The translation and shoot-down block (R98, R111). -/
def State.transWrite (s : State) (off : Nat) (x : Wr) : State :=
  match off with
  | 0x00 => { s with ms := { s.ms with sdia := BitVec.ofNat 56 (fld x.new 55 16 * 2 ^ 16) } }
  | 0x08 => s.sdctlWrite x
  | 0x20 => if x.o < 4 then s.bmctlWrite x else s
  | _ => s

/-- The migration engine block (R113). -/
def State.migWrite (s : State) (off : Nat) (x : Wr) : State :=
  let v := x.new
  match off with
  | 0x00 => { s with mig := { s.mig with cmd := BitVec.ofNat 64 (v &&& 0xFFFF3FFF) } }
  | 0x08 => { s with mig := { s.mig with ia := BitVec.ofNat 56 (fld v 55 16 * 2 ^ 16) } }
  | 0x10 => { s with mig := { s.mig with dst := BitVec.ofNat 64 v } }
  | 0x18 => { s with mig := { s.mig with lim := BitVec.ofNat 16 v } }
  | 0x20 => if bitAt x.w 0 then s.mgGo else s
  | 0x28 => { s with mig := { s.mig with err := x.w1c 7 s.mig.err } }
  | 0x40 => if fld v 27 24 ≤ 10 then { s with mig := { s.mig with cqsz := BitVec.ofNat 4 (fld v 27 24) } } else s
  | 0x48 => { s with mig := { s.mig with cqbase := BitVec.ofNat 56 (fld v 55 10 * 2 ^ 10) } }
  | 0x50 => if x.o < 4 then s.mgHead (BitVec.ofNat 32 v) else s
  | 0x60 => { s with mig := { s.mig with cqwb := BitVec.ofNat 64 (fld v 63 2 * 4) } }
  | _ => s

/-! ## The core control pages (R192, R99) -/

/-- Whether a context of a core's partition is in RUN or the partition switches (R192). -/
def State.pageHeld (s : State) (c : CoreIx) : Bool :=
  match s.partOf c with
  | some p => (s.part p).runSlot.isSome || (s.part p).switching
  | none => false

/-- Applies a write of a row window from PF BAR0: the field preserved across launch and the current one (R99, R192). -/
def State.rwinApplyBoth (s : State) (c : CoreIx) (w : Fin 4) (hi : Bool) (v vL : Nat) : State :=
  let col := s.col c
  (s.rwinApply c w hi v).upd c fun k => { k with ctl := { k.ctl with rwinL := k.ctl.rwinL.set w (k.ctl.rwinL[w].write col hi vL) } }

/-- A write of a doubleword of a row window from PF BAR0: ignored under a context in RUN or a switch; it waits until the rows open in
a bank of the old BMASK are closed (R99, R192). -/
def State.rwinWrite (s : State) (c : CoreIx) (w : Fin 4) (hi : Bool) (v vL : Nat) : State :=
  if s.pageHeld c then s
  else
    let k := s.col c
    let bs := (List.finRange 32).filter fun b => (s.core c).ctl.rwin[w].bmask.getLsb b && k.rows[b].at_ s.chron != 0
    if bs.isEmpty then s.rwinApplyBoth c w hi v vL
    else
      let t := bs.foldl (fun a b => match k.rows[b] with
        | .precharging u => max a u
        | _ => a) (k.closeCycle bs s.chron)
      (s.closeRows c bs s.chron).schedC t c (.rwinApply c w hi (BitVec.ofNat 64 v))

/-- RWIN_WRITE (R99). -/
def execRwinWrite (core : CoreIx) (win : Fin 4) (hi : Bool) (v : BitVec 64) (s : State) : Outcome State Fault Refusal :=
  .next (s.rwinWrite core win hi v.toNat v.toNat)

/-- RWIN_APPLY: the write of a row window applies once its rows are closed; one that a CRW made lets its sequencer go on (R99,
R422). -/
def execRwinApply (core : CoreIx) (win : Fin 4) (hi : Bool) (v : BitVec 64) (s : State) : Outcome State Fault Refusal :=
  .next (if (s.core core).seq.hold = some 0 then
      (s.rwinApply core win hi v.toNat).upd core fun k => { k with seq := k.seq.release 0 s.chron }
    else s.rwinApplyBoth core win hi v.toNat v.toNat)

/-- A core control page written through PF BAR0: AXSS.RESUME under a running context, the fields preserved across launch otherwise
(R192). -/
def State.corePageWrite (s : State) (c : CoreIx) (off : Nat) (x : Wr) : State :=
  if s.pageHeld c then
    (if off = 0x680 ∧ bitAt x.w 8 ∧ (s.core c).axu.soft.isSome then s.schedC s.chron c .resume else s)
  else
    let put (old : Nat) : Nat := putBytes old x.o x.n x.v
    if off = 0x18 then
      let h (old : BitVec 32) : BitVec 32 := BitVec.ofNat 32 (fld (put old.toNat) 31 2 * 4)
      s.upd c fun k => { k with seq := { k.seq with hvec := h k.seq.hvec, hvecL := h k.seq.hvecL } }
    else if hr : 0x400 ≤ off ∧ off < 0x600 then
      let i : Fin 16 := ⟨(off - 0x400) / 32, by omega⟩
      let d := off / 8 % 4
      s.upd c fun k =>
        { k with ctl := { k.ctl with
          rng := k.ctl.rng.set i (k.ctl.rng[i].setDword d (put (k.ctl.rng[i].dword d)))
          rngL := k.ctl.rngL.set i (k.ctl.rngL[i].setDword d (put (k.ctl.rngL[i].dword d))) } }
    else if hw : 0x600 ≤ off ∧ off < 0x640 then
      let w : Fin 4 := ⟨(off - 0x600) / 16, by omega⟩
      let hi := off / 8 % 2 == 1
      let k := (s.core c).ctl
      s.rwinWrite c w hi (put (k.rwin[w].dword hi)) (put (k.rwinL[w].dword hi))
    else s

/-! ## REGISTER_WRITE -/

/-- PF BAR0 (R72): a write of an offset that is reserved is ignored. -/
def State.pfWrite (s : State) (off : Nat) (x : Wr) : State :=
  if off < 0x1000 then s
  else if off < 0x2000 then s.helmWrite (off - 0x1000) x
  else if off < 0x3000 then s.intWrite (off - 0x2000) x
  else if off < 0x4000 then s.keyBlockWrite (off - 0x3000) x
  else if off = 0x17800 then (if x.o < 4 then s.svctlWrite x else s)
  else if 0x20000 ≤ off ∧ off < 0x22000 then s.linkWrite (off - 0x20000) x
  else if 0x30000 ≤ off ∧ off < 0x40000 then s.partWrite (off - 0x30000) x
  else if 0x40000 ≤ off ∧ off < 0x50000 then s.transWrite (off - 0x40000) x
  else if 0x50000 ≤ off ∧ off < 0x60000 then s.migWrite (off - 0x50000) x
  else if h : 0x100000 ≤ off ∧ off < 0x220000 then s.corePageWrite ⟨(off - 0x100000) / 0x1000, by omega⟩ (off % 0x1000) x
  else s

/-- VF BAR0 (R73): a field of the supervisor alone is not written (R17). -/
def State.vfWrite (s : State) (p : PartIx) (off : Nat) (x : Wr) : State :=
  if 0x1000 ≤ off ∧ off < 0x1100 then s.pageUser p false (off - 0x1000) x
  else if off = 0x2000 then s.updPart p fun q => { q with vintst := q.vintst &&& ~~~(BitVec.ofNat 2 x.w) }
  else if off = 0x2008 then s.setVinten p (BitVec.ofNat 2 x.new)
  else if off = 0x3000 then s.updPart p fun q => { q with w2base := BitVec.ofNat 56 (putBytes q.w2base.toNat x.o x.n x.v) }
  else s

/-- A write of n bytes within one doubleword of a function (R71, R72). -/
def State.regWriteDw (s : State) (fn : Fn) (bar : Bar) (off n v : Nat) : State :=
  let base := off / 8 * 8
  let o := off % 8
  let x : Wr := { o := o, n := n, v := v, new := putBytes (s.regRead fn bar base) o n v }
  match bar, fn with
  | .bar0, .pf => s.pfWrite base x
  | .bar0, .vf p => s.vfWrite p base x
  | .bar4, .pf => if h : off < 0x30000 then s.mailWrite ⟨off / 0x1000, by omega⟩ (off % 0x1000) n v else s
  | .bar4, .vf p => if off < 0x1000 then s.mailWrite p off n v else s
  | .bar2, _ => s

/-- A write of n bytes of a function, doubleword by doubleword, lowest first. -/
def State.regWrite (s : State) (fn : Fn) (bar : Bar) : Nat → Nat → Nat → Nat → State
  | 0, _, _, _ => s
  | fuel + 1, off, n, v =>
    if n = 0 then s
    else
      let k := min n (8 - off % 8)
      (s.regWriteDw fn bar off k (v % 2 ^ (8 * k))).regWrite fn bar fuel (off + k) (n - k) (v / 2 ^ (8 * k))

/-- REGISTER_WRITE: a write of the host to a register: each field by its access code (R12, R14, R17); one through BAR2 is a write of
memory (R74). -/
def execRegisterWrite (fn : Fn) (bar : Bar) (off : Nat) (n : Nat) (v : Nat) (s : State) : Outcome State Fault Refusal :=
  .next (match bar with
  | .bar2 => s.hostAccess fn off n (.write (toBytes n v)) 0
  | b => s.regWrite fn b (n / 8 + 2) off n v)

end Sys2Proof.Machine
end

