-- ==== Sys2Proof/Machine/Float.lean ====
section
/-! DEFINITION. Floating-point arithmetic of the vector engine: the exact result of an operation, its one rounding
(R226, R228), comparison and classification (R386 to R390), and the transcendental functions of R239. -/

namespace Sys2Proof.Machine

/-! ## Exact results -/

/-- The exact result of an operation: NaN and whether it is an invalid operation that counts, an infinity and whether
it counts as an overflow, or ±(m + ε) × 2^e with 0 ≤ ε < 1, ε ≠ 0 exactly when `sticky` (R226). -/
inductive Exact where
  | nan (counts : Bool)
  | inf (neg : Bool) (counts : Bool)
  | fin (neg : Bool) (m : Nat) (e : Int) (sticky : Bool)
  deriving DecidableEq, Repr

/-- The result of a value that is exact. -/
def Exact.ofVal : Val → Exact
  | .nan => .nan false
  | .inf n => .inf n false
  | .fin n m e => .fin n m e false

/-- The code of an exact result in FP32, BF16 or FP16: one rounding, the flush of FTZ, the events (R226, R228). -/
def Exact.code (x : Exact) (f mode draw : Nat) (ftz : Bool) : Rounded :=
  match x with
  | .nan c => { nanResult f with cls := if c then some 0 else none }
  | .inf n c => { infResult f n with cls := if c then some 1 else none }
  | .fin n m e st =>
    let r := roundTo f mode draw n m e st
    { r with code := flush ftz f r.code }

/-- The sum of two values; an exactly zero sum of opposite signs is +0, or −0 under RDN (R226). -/
def addX (mode : Nat) : Val → Val → Exact
  | .nan, _ => .nan false
  | _, .nan => .nan false
  | .inf a, .inf b => if a = b then .inf a false else .nan true
  | .inf a, _ => .inf a false
  | _, .inf b => .inf b false
  | .fin n m e, .fin n' m' e' =>
    let x := Val.dy (.fin n m e)
    let y := Val.dy (.fin n' m' e')
    let s := x.add y
    if s.n = 0 then .fin (if m = 0 ∧ m' = 0 ∧ n = n' then n else mode == 3) 0 0 false
    else .fin (decide (s.n < 0)) s.n.natAbs s.e false

/-- The product of two values (R226). -/
def mulX : Val → Val → Exact
  | .nan, _ => .nan false
  | _, .nan => .nan false
  | .inf a, .inf b => .inf (a != b) false
  | .inf a, .fin n m _ => if m = 0 then .nan true else .inf (a != n) false
  | .fin n m _, .inf b => if m = 0 then .nan true else .inf (n != b) false
  | .fin n m e, .fin n' m' e' => .fin (n != n') (m * m') (e + e') false

/-- a × b + d with no rounding of the product (R226, R385). -/
def fmaX (mode : Nat) (a b d : Val) : Exact :=
  match a, b, d with
  | .nan, _, _ => .nan false
  | _, .nan, _ => .nan false
  | _, _, .nan => .nan false
  | a, b, d => match mulX a b with
    | .nan c => .nan c
    | .inf n _ => addX mode (.inf n) d
    | .fin n m e _ => addX mode (.fin n m e) d

/-- Quotient bits below the last place of a result, enough for a 32-bit draw (R224). -/
def divBits : Nat := 128

/-- a / b (R226). -/
def divX : Val → Val → Exact
  | .nan, _ => .nan false
  | _, .nan => .nan false
  | .inf _, .inf _ => .nan true
  | .inf a, .fin n _ _ => .inf (a != n) false
  | .fin n _ _, .inf b => .fin (n != b) 0 0 false
  | .fin n m e, .fin n' m' e' =>
    if m' = 0 then (if m = 0 then .nan true else .inf (n != n') true)
    else
      let q := m * 2 ^ divBits
      .fin (n != n') (q / m') (e - e' - divBits) (q % m' != 0)

/-- The integer square root by binary digits: `bits` digits, the highest first. -/
def isqrtGo (x : Nat) : Nat → Nat → Nat
  | 0, r => r
  | b + 1, r => let t := r + 2 ^ b; isqrtGo x b (if t * t ≤ x then t else r)

/-- floor(√x). -/
def isqrt (x : Nat) : Nat := isqrtGo x (Nat.log2 x / 2 + 1) 0

/-- √a; the root of a zero keeps its sign, a value below −0 is invalid (R226). -/
def sqrtX : Val → Exact
  | .nan => .nan false
  | .inf n => if n then .nan true else .inf false false
  | .fin n m e =>
    if m = 0 then .fin n 0 0 false
    else if n then .nan true
    else
      let (m, e) := if e % 2 = 0 then (m, e) else (2 * m, e - 1)
      let x := m * 2 ^ (2 * divBits)
      let r := isqrt x
      .fin false r (e / 2 - divBits) (r * r != x)

/-! ## Codes compared and classified -/

/-- The magnitude of a code and its sign. -/
def signMag (f x : Nat) : Bool × Nat :=
  let w := fmtW f
  (bitAt x (w - 1), x % 2 ^ (w - 1))

/-- The order key of a code that is no NaN; −0 orders below +0 (R386). -/
def orderKey (f x : Nat) : Int :=
  let (s, m) := signMag f x
  if s then -(m : Int) - 1 else m

/-- Whether a code is a NaN of its format. -/
def isNaN (f x : Nat) : Bool := value f x == .nan

/-- The canonical NaN of a format (R221). -/
def canonNaN (f : Nat) : Nat := (nanResult f).code

/-- VMIN and VMAX of two codes after the source flush (R386). -/
def minMax (max : Bool) (f a b : Nat) : Nat :=
  match isNaN f a, isNaN f b with
  | true, true => canonNaN f
  | true, false => b
  | false, true => a
  | false, false => if (orderKey f b < orderKey f a) = max then a else b

/-- The order key with the two zeros made equal, for compares (R389). -/
def cmpKey (f x : Nat) : Int := let k := orderKey f x; if k < 0 then k + 1 else k

/-- The condition of VCMP on two codes after the source flush (R389). -/
def fcmp (cond f a b : Nat) : Bool :=
  let un := isNaN f a || isNaN f b
  let x := cmpKey f a
  let y := cmpKey f b
  match cond with
  | 0 => !un && x == y
  | 1 => un || x != y
  | 2 => !un && decide (x < y)
  | 3 => !un && decide (x ≤ y)
  | 4 => !un && decide (y < x)
  | 5 => !un && decide (y ≤ x)
  | 6 => un
  | _ => !un

/-- The class of a code as a bit number: 0 NaN, 1 ±Inf, 2 ±0, 3 subnormal, 4 normal (R390). -/
def classOf (f x : Nat) : Nat :=
  match value f x with
  | .nan => 0
  | .inf _ => 1
  | .fin _ m _ => if m = 0 then 2 else if isSubnormal f x then 3 else 4

/-- VRND: the integral value of a code in its own format (R397). -/
def roundIntegral (f mode draw x : Nat) : Rounded :=
  match value f x with
  | .nan => { code := canonNaN f }
  | .inf _ => { code := x }
  | .fin n m e =>
    match floatFmt f with
    | none => { code := x }
    | some g =>
      let big : Bool := if 0 ≤ e then decide (2 ^ g.mb ≤ m * 2 ^ e.toNat) else decide (2 ^ g.mb * 2 ^ (-e).toNat ≤ m)
      if m = 0 ∨ big then { code := x }
      else
        let sh := (-e).toNat
        let lo := if 0 ≤ e then m * 2 ^ e.toNat else m / 2 ^ sh
        let rem := if 0 ≤ e then 0 else m % 2 ^ sh
        let k := if rem = 0 then lo else if stepsUp mode draw n lo rem sh false then lo + 1 else lo
        { roundFloat g 1 0 n k 0 false with sr := mode == 5 && rem != 0 }

/-! ## Transcendental functions (R239)

Each function is enclosed between two dyadics of `prec` bits; both round to the same code, or the precision is
doubled (log 16). Exact values are answered apart. -/

/-- An enclosure lo × 2^e < F < hi × 2^e of a positive irrational value. -/
structure Encl where
  lo : Nat
  hi : Nat
  e : Int
  deriving DecidableEq, Repr

/-- The enclosure of a value computed with an error of at most `err` units. -/
def Encl.near (m err : Nat) (e : Int) : Encl := { lo := m - err, hi := m + err, e := e }

/-- The sum of 1 / (k 2^k) for k from 1 on, in units of 2^−p: ln 2. -/
def ln2Go : Nat → Nat → Nat → Nat
  | 0, _, _ => 0
  | n + 1, k, t => t / k + ln2Go n (k + 1) (t / 2)

/-- ln 2 in units of 2^−p. -/
def ln2 (p : Nat) : Nat := ln2Go (p + 1) 1 (2 ^ p / 2)

/-- The arctangent series of 1/q in units of 2^−p, alternating from a positive term. -/
def atanGo (q2 : Nat) : Nat → Nat → Nat → Bool → Int
  | 0, _, _, _ => 0
  | n + 1, k, t, s => (if s then ((t / k : Nat) : Int) else -((t / k : Nat) : Int)) + atanGo q2 n (k + 2) (t / q2) (!s)

/-- π in units of 2^−p, by Machin's formula. -/
def piFix (p : Nat) : Nat :=
  (16 * atanGo 25 p 1 (2 ^ p / 5) true - 4 * atanGo (239 * 239) p 1 (2 ^ p / 239) true).toNat

/-- The sum of terms t, t y / 2^p / k, …, the divisors k rising by `step`, for the exponential series. -/
def expGo (p y : Nat) : Nat → Nat → Nat → Nat
  | 0, _, _ => 0
  | n + 1, k, t => t + expGo p y n (k + 1) (t * y / 2 ^ p / k)

/-- e^y for 0 ≤ y < 1 in units of 2^−p. -/
def expFix (p y : Nat) : Nat := expGo p y p 1 (2 ^ p)

/-- 2^x for 0 ≤ x < 1 given in units of 2^−p. -/
def exp2Fix (p x : Nat) : Nat := expFix p (x * ln2 p / 2 ^ p)

/-- The series z + z³/3 + z⁵/5 + … in units of 2^−p. -/
def atanhGo (p z2 : Nat) : Nat → Nat → Nat → Nat
  | 0, _, _ => 0
  | n + 1, k, t => t / k + atanhGo p z2 n (k + 2) (t * z2 / 2 ^ p)

/-- ln of 1 + a/b for 0 ≤ a ≤ b, in units of 2^−p. -/
def lnFix (p a b : Nat) : Nat :=
  let z := a * 2 ^ p / (2 * b + a)
  2 * atanhGo p (z * z / 2 ^ p) p 1 z

/-- The alternating series 1 − y/(k(k+1)) + …, for sine from k = 2 and cosine from k = 1, y = θ² in units of 2^−p. -/
def trigGo (p y : Nat) : Nat → Nat → Int → Int
  | 0, _, _ => 0
  | n + 1, k, t => t + trigGo p y n (k + 2) (-(t * y / (2 ^ p : Nat) / (k * (k + 1) : Nat)))

/-- The series 1 + 2y/3 + (2y)²/(3·5) + … in units of 2^−p. -/
def erfGo (p y : Nat) : Nat → Nat → Nat → Nat
  | 0, _, _ => 0
  | n + 1, k, t => t + erfGo p y n (k + 2) (t * (2 * y) / 2 ^ p / k)

/-- A non-negative dyadic m × 2^e in units of 2^−p, rounded down. -/
def fixOf (p m : Nat) (e : Int) : Nat :=
  let k := e + p
  if 0 ≤ k then m * 2 ^ k.toNat else m / 2 ^ (-k).toNat

/-- Units of error allowed for a series of p terms. -/
def errOf (p : Nat) : Nat := 2 ^ (p / 4)

/-- e^x for a non-negative dyadic x below 2^8, in units of 2^−p. -/
def expBig (p m : Nat) (e : Int) : Nat :=
  let y := fixOf p m e
  let l := ln2 p
  let k := y / l
  expFix p (y - k * l) * 2 ^ k

/-- Enclosure of 2^v for a dyadic v = ±m × 2^e that is no integer and below 2^11 in magnitude. -/
def exp2Encl (p : Nat) (neg : Bool) (m : Nat) (e : Int) : Encl :=
  let sh := (-e).toNat
  let d := 2 ^ sh
  let fl : Int := if neg then -((m / d : Nat) : Int) - 1 else ((m / d : Nat) : Int)
  let fr := if neg then d - m % d else m % d
  Encl.near (exp2Fix p (fixOf p fr e)) (errOf p) (fl - p)

/-- Enclosure of |log2 v| for v = m × 2^e, m no power of two, with its sign. -/
def log2Encl (p m : Nat) (e : Int) : Bool × Encl :=
  let k := Nat.log2 m
  let fr := lnFix p (m - 2 ^ k) (2 ^ k) * 2 ^ p / ln2 p
  let v : Int := (e + k) * ((2 ^ p : Nat) : Int) + fr
  (decide (v < 0), Encl.near v.natAbs (errOf p) (-p))

/-- Enclosure of sin(2πx) (or cos) for x = m × 2^e in (0, 1/8]; the sine keeps x as a factor. -/
def trigEncl (p : Nat) (cos : Bool) (m : Nat) (e : Int) : Encl :=
  let tp := 2 * piFix p
  let x := fixOf p m e
  let th := x * tp / 2 ^ p
  let s := (trigGo p (th * th / 2 ^ p) (p / 2) (if cos then 1 else 2) ((2 ^ p : Nat) : Int)).toNat
  if cos then Encl.near s (errOf p) (-p) else Encl.near (m * (s * tp / 2 ^ p)) (m * errOf p) (e - p)

/-- Enclosure of tanh x for x = m × 2^e between 2^−40 and 2^7. -/
def tanhEncl (p m : Nat) (e : Int) : Encl :=
  let x := expBig p m (e + 1)
  let one := 2 ^ p
  Encl.near ((x - one) * 2 ^ p / (x + one)) (errOf p) (-p)

/-- Enclosure of erf x for x = m × 2^e below 8, with x as a factor. -/
def erfEncl (p m : Nat) (e : Int) : Encl :=
  let x := fixOf p m e
  let y := x * x / 2 ^ p
  let series := erfGo p y (p + 256) 3 (2 ^ p)
  let ex := expBig p y (-p)
  let s := series * 2 ^ p / ex
  let root := isqrt (piFix p * 2 ^ p)
  Encl.near (m * (2 * s * 2 ^ p / root)) (m * errOf p) (e - p)

/-- The rounding of a positive value between the bounds of its enclosures, at the precisions listed: the first at which
both bounds round alike. -/
def ziv (f mode : Nat) (ftz neg : Bool) (enc : Nat → Encl) : List Nat → Rounded
  | [] => { code := 0 }
  | p :: ps =>
    let x := enc p
    let a := (Exact.fin neg x.lo x.e true).code f mode 0 ftz
    let b := (Exact.fin neg (x.hi - 1) x.e true).code f mode 0 ftz
    if a = b ∨ ps.isEmpty then a else ziv f mode ftz neg enc ps

/-- The precisions tried. -/
def precs : List Nat := [384, 768, 1536]

/-- The functions of R239. -/
inductive Trans where
  | exp2 | log2 | rcp | rsq | sin | cos | tanh | erf
  deriving DecidableEq, Repr

/-- A value just below 1: (2^b − 1 + ε) × 2^−b. -/
def belowOne (neg : Bool) (b : Nat) : Exact := .fin neg (2 ^ b - 1) (-b) true

/-- The exact result of a function where it is known exactly or by a bound, else its sign and enclosure (R239). -/
def Trans.eval (t : Trans) (v : Val) : Exact ⊕ (Bool × (Nat → Encl)) :=
  match t, v with
  | _, .nan => .inl (.nan false)
  | .exp2, .inf n => .inl (if n then .fin false 0 0 false else .inf false false)
  | .exp2, .fin n m e =>
    let top := log2Dy m e
    if m = 0 then .inl (.fin false 1 0 false)
    else if 11 ≤ top then .inl (.fin false 1 (if n then -5000 else 5000) true)
    else if 0 ≤ e then .inl (.fin false 1 (let k : Int := m * 2 ^ e.toNat; if n then -k else k) false)
    else if m % 2 ^ (-e).toNat = 0 then .inl (.fin false 1 (let k : Int := (m / 2 ^ (-e).toNat : Nat); if n then -k else k) false)
    else .inr (false, fun p => exp2Encl p n m e)
  | .log2, .inf n => .inl (if n then .nan true else .inf false false)
  | .log2, .fin n m e =>
    if m = 0 then .inl (.inf true false)
    else if n then .inl (.nan true)
    else if m = 2 ^ Nat.log2 m then
      (let k : Int := e + (Nat.log2 m : Nat)
       .inl (.fin (decide (k < 0)) k.natAbs 0 false))
    else .inr ((log2Encl 384 m e).1, fun p => (log2Encl p m e).2)
  | .rcp, v => .inl (divX (.fin false 1 0) v)
  | .rsq, .inf n => .inl (if n then .nan true else .fin false 0 0 false)
  | .rsq, .fin n m e =>
    if m = 0 then .inl (.inf n true)
    else if n then .inl (.nan true)
    else
      let (m, e) := if e % 2 = 0 then (m, e) else (2 * m, e - 1)
      let x := 2 ^ (4 * divBits)
      let r := isqrt (x / m)
      .inl (.fin false r (-(e / 2) - 2 * divBits) (r * r * m != x))
  | .sin, .inf _ => .inl (.nan true)
  | .cos, .inf _ => .inl (.nan true)
  | .sin, .fin n m e => trigOf false n m e
  | .cos, .fin n m e => trigOf true n m e
  | .tanh, .inf n => .inl (.fin n 1 0 false)
  | .erf, .inf n => .inl (.fin n 1 0 false)
  | .tanh, .fin n m e =>
    let top := log2Dy m e
    if m = 0 then .inl (.fin n 0 0 false)
    else if 7 ≤ top then .inl (belowOne n 200)
    else if top < -40 then .inl (.fin n (m * 2 ^ 40 - 1) (e - 40) true)
    else .inr (n, fun p => tanhEncl p m e)
  | .erf, .fin n m e =>
    if m = 0 then .inl (.fin n 0 0 false)
    else if 3 ≤ log2Dy m e then .inl (belowOne n 90)
    else .inr (n, fun p => erfEncl p m e)
where
  /-- sin(2πv) or cos(2πv): v is reduced to an eighth of a turn. -/
  trigOf (cos n : Bool) (m : Nat) (e : Int) : Exact ⊕ (Bool × (Nat → Encl)) :=
    if m = 0 ∨ 0 ≤ e then .inl (if cos then .fin false 1 0 false else .fin n 0 0 false)
    else
      let d := 2 ^ (-e).toNat
      let r := m % d
      -- the sine has the sign of its half turn, the cosine that of its middle half turn
      let neg := if cos then decide (d < 4 * r) && decide (4 * r < 3 * d) else (decide (d < 2 * r)) != n
      let h := if 2 * r ≤ d then r else d - r
      let q := if 4 * h ≤ d then h else d / 2 - h
      if 4 * r % d = 0 then
        (let quarter := 4 * r / d
         let one := if cos then quarter % 2 == 0 else quarter % 2 == 1
         .inl (if one then .fin neg 1 0 false else .fin (if cos then false else n) 0 0 false))
      else if 8 * q ≤ d then
        (if cos ∧ log2Dy q e < -40 then .inl (belowOne neg 60) else .inr (neg, fun p => trigEncl p cos q e))
      else
        (let u := d / 4 - q
         if ¬ cos ∧ log2Dy u e < -40 then .inl (belowOne neg 60) else .inr (neg, fun p => trigEncl p (!cos) u e))

/-- The code of a function of a source after its flush; SR acts as RNE (R239). -/
def Trans.code (t : Trans) (f mode : Nat) (ftz : Bool) (x : Nat) : Rounded :=
  let mode := if mode = 5 then 0 else mode
  match t.eval (value f x) with
  | .inl r => r.code f mode 0 ftz
  | .inr (neg, enc) => ziv f mode ftz neg enc precs

end Sys2Proof.Machine
end

