-- ==== Sys2Proof/Machine/Vec.lean ====
section
/-! DEFINITION. The vector engine: shape and mode (R373 to R376), guard and overlap (R377, R378), issue, hazards and the
replay queue (R379 to R382), the queue transfers (R403, R404) and VSUMZ (R400). -/

namespace Sys2Proof.Machine

open Host (Outcome)

/-! ## Shape, mode, elements -/

/-- What a VEC word latches at issue: rows, columns, the mode fields of VMD, and LEGNO for its draws (R373, R375,
R376). -/
structure Shape where
  rows : Nat
  cols : Nat
  mode : Nat
  ftz : Bool
  qf : Nat
  qb : Nat
  seed : Nat
  leg : Nat

/-- Number of elements of a tile. -/
def Shape.n (h : Shape) : Nat := h.rows * h.cols

/-- The draw of an element (R227). -/
def Shape.draw (h : Shape) (e : Nat) : Nat := drawOf h.seed e h.leg

/-- The quantised format of QF as an FMT code (R375). -/
def qfFmt (q : Nat) : Nat := match q with
  | 0 => 1 | 1 => 6 | 2 => 10 | 3 => 11 | 4 => 12 | 5 => 13 | _ => 14

/-- The block of QB (R375). -/
def qbSize (q : Nat) : Nat := match q with
  | 1 => 32 | 2 => 64 | 3 => 256 | _ => 128

/-- Shape and mode as a word issuing now latches them: those a CRW of this very cycle replaced still hold (R376). -/
def Core.shape (k : Core) (now : Nat) : Shape :=
  let (vsh, vmd) := match k.vec.modeOld with
    | some (t, a, b) => if t = now then (a.toNat, b.toNat) else (k.ctl.vsh.toNat, k.ctl.vmd.toNat)
    | none => (k.ctl.vsh.toNat, k.ctl.vmd.toNat)
  { rows := fld vsh 27 16 + 1, cols := fld vsh 11 0 + 1, mode := fld vmd 2 0, ftz := bitAt vmd 3, qf := qfFmt (fld vmd 10 8),
    qb := qbSize (fld vmd 12 11), seed := fld vmd 31 16, leg := k.ctl.legno.toNat }

/-- A register operand: its base, element width and count, and whether a group is allowed; `cnt` none is one register
read or written without regard to the shape (R374). -/
structure VOp where
  base : Nat
  w : Nat
  cnt : Option Nat
  group : Bool := false
  deriving DecidableEq, Repr

/-- Registers of an operand. -/
def VOp.g (o : VOp) : Nat := match o.cnt with
  | none => 1
  | some n => max 1 (ceilDiv (n * o.w) 32768)

/-- Whether an operand may stand for the shape in force (R374). -/
def VOp.ok (o : VOp) : Bool := (o.g == 1 || o.group) && o.base % o.g == 0 && decide (o.base + o.g ≤ 32)

/-- The register set of an operand. -/
def VOp.regs (o : VOp) : List Nat := (List.range o.g).map fun i => o.base + i

/-- Whether two operands share a register. -/
def VOp.meets (a b : VOp) : Bool := decide (a.base < b.base + b.g) && decide (b.base < a.base + a.g)

/-- Whether two operands have the same registers. -/
def VOp.same (a b : VOp) : Bool := a.base == b.base && a.g == b.g

/-- Element e of width w of the registers from a base on. -/
def Vec.elem (k : Vec) (base w e : Nat) : Nat :=
  ((k.v[base + e * w / 32768]?).getD 0).toNat / 2 ^ (e * w % 32768) % 2 ^ w

/-- Bit e of a predicate; k0 reads all ones (R170). -/
def Vec.pred (k : Vec) (r e : Nat) : Bool := r == 0 || ((k.k[r]?).getD 0).getLsbD e

/-- sel(e) of a guard (R377). -/
def Vec.sel (k : Vec) (g : Fin 8) (neg : Bool) (e : Nat) : Bool := k.pred g.val e != neg

/-- A register image: elements e0 … e0 + cnt − 1 of width w take the values given, the others and the bits above keep
the old ones. -/
def packReg (w cnt old : Nat) (f : Nat → Option Nat) (e0 : Nat) : Nat :=
  (List.range cnt).foldr (fun j a => (match f (e0 + j) with
    | some v => v % 2 ^ w
    | none => old / 2 ^ (w * j) % 2 ^ w) + 2 ^ w * a) (old / 2 ^ (w * cnt))

/-- The images of the registers of n elements of width w from a base on. -/
def Vec.images (k : Vec) (base w n : Nat) (f : Nat → Option Nat) : List (Nat × Nat) :=
  let per := 32768 / w
  (List.range (max 1 (ceilDiv (n * w) 32768))).map fun r =>
    (base + r, packReg w (min per (n - r * per)) ((k.v[base + r]?).getD 0).toNat f (r * per))

/-- Slot of predicate k among register images. -/
def predSlot (k : Nat) : Nat := 32 + k

/-- The image of a predicate whose bits below n take the values given; k0 takes none (R170, R391). -/
def Vec.predImage (k : Vec) (d n : Nat) (f : Nat → Option Bool) : List (Nat × Nat) :=
  if d = 0 then [] else [(predSlot d, packReg 1 n ((k.k[d]?).getD 0).toNat (fun e => (f e).map ofBool) 0)]

/-! ## Issue -/

/-- What a VEC word reads and writes, and its timing. -/
structure VPlan where
  src : List VOp := []
  dst : List VOp := []
  kr : List Nat := []
  kw : List Nat := []
  lat : Nat → Nat := fun _ => 2
  ok : Bool := true
  datapath : Bool := true
  grouped : Bool := false

/-- Largest register count among a word's operands. -/
def VPlan.g (p : VPlan) : Nat := (p.src ++ p.dst).foldl (fun a o => max a o.g) 1

/-- Whether the operands overlap in a way R378 forbids. -/
def VPlan.overlap (p : VPlan) : Bool :=
  (p.dst.any fun d => p.src.any fun o => d.meets o && !d.same o)
    || (p.dst.mapIdx fun i d => (p.dst.drop (i + 1)).any fun o => d.meets o).any id

/-- Whether a register or predicate a word reads or writes is pending (R379). -/
def VPlan.pending (p : VPlan) (k : Vec) (guard : Nat) (now : Nat) : Bool :=
  ((p.src ++ p.dst).any fun o => o.regs.any fun r => decide (now < (k.vReady[r]?).getD 0))
    || ((guard :: p.kr ++ p.kw).any fun r => decide (now < (k.kReady[r]?).getD 0))

/-- Name of the datapath among the busy units (R380). -/
def bData : Nat := 60

/-- The vector engine with the destinations of a word pending until a cycle. -/
def Vec.pend (k : Vec) (p : VPlan) (t : Nat) : Vec :=
  { k with
    vReady := (p.dst.flatMap VOp.regs).foldl (fun v r => if h : r < 32 then v.set r t h else v) k.vReady
    kReady := p.kw.foldl (fun v r => if h : r < 8 ∧ r ≠ 0 then v.set r t h.1 else v) k.kReady }

/-- Issues a VEC word: the checks of R374, R379, R380 and R378 in this order, then the body with the shape latched
(R376). `port` words wait while the replay queue is full (R381). -/
def State.vecIssue (s : State) (i : Instr) (h : Hdr) (guard : Fin 8) (p : Shape → VPlan) (port : Bool)
    (body : Shape → VPlan → State → Verdict) : State :=
  s.engIssue .vec i h true 0 fun s =>
    let k := s.me
    let sh := k.shape s.chron
    let p := p sh
    if ¬ ((p.src ++ p.dst).all VOp.ok) ∨ ¬ p.ok then .plain 0x01
    else if p.pending k.vec guard.val s.chron then .wait
    else if p.datapath && (k.pipe.held bData s.chron s.chron).isSome then .wait
    else if port && decide (32 ≤ k.vec.replay.length) then .wait
    else if p.overlap then .plain 0x14
    else
      let s := if p.datapath then s.occupy s.cur [⟨bData, s.chron, s.chron + (if p.grouped then p.g else 1) - 1⟩] else s
      body sh p s

/-- Puts a VEC word in flight until a cycle (R379). -/
def State.vecLaunch (s : State) (i : Instr) (h : Hdr) (pc : Int) (doneAt : Nat) (lat : List Nat) (got : List (Nat × Byte) := []) : State :=
  let waits := if h.g then s.pendingOf s.cur .vec else []
  let (id, s) := s.newId
  s.launch s.cur
    { id := id, eng := .vec, instr := i, pc := pc, issued := s.chron, doneAt := doneAt, lat := lat, got := got, give := h.g,
      giveTo := (s.me.ctl.seen s.chron).to_ 3, waits := waits }

/-- The images a word writes with the events it counts. -/
structure VRes where
  images : List (Nat × Nat)
  stats : List Nat := noStats

/-- A VEC word that computes its destinations at issue and writes them at i + L − 1 (R378, R379). -/
def State.vecOp (s : State) (i : Instr) (h : Hdr) (guard : Fin 8) (p : Shape → VPlan) (f : Shape → Core → VRes) : State :=
  let pc := s.me.vec.q.pc
  s.vecIssue i h guard p false fun sh p s =>
    let r := f sh s.me
    let t := s.chron + p.lat p.g
    let s := s.vecLaunch i h pc (t - 1) (r.stats ++ r.images.flatMap fun x => [x.1, x.2])
    .ok (s.updMe fun k => { k with vec := k.vec.pend p t })

/-- The register images of a word in flight, as they were latched. -/
def imagesOf : List Nat → List (Nat × Nat)
  | a :: b :: r => (a, b) :: imagesOf r
  | _ => []

/-- Writes register images. -/
def Vec.write (k : Vec) (xs : List (Nat × Nat)) : Vec :=
  xs.foldl (fun k x =>
    if h : x.1 < 32 then { k with v := k.v.set x.1 (BitVec.ofNat 32768 x.2) h }
    else if h : x.1 - 32 < 8 then { k with k := k.k.set (x.1 - 32) (BitVec.ofNat 4096 x.2) h } else k) k

/-- The write of a VEC word, where its events count (R379, R405). -/
def State.vecDone (s : State) (c : CoreIx) (w : Inflight) : State :=
  let s := s.countStats c (w.lat.take 6)
  s.upd c fun k => { k with vec := k.vec.write (imagesOf (w.lat.drop 6)) }

/-- Per-element results under a guard: the codes and the events. -/
def mergeMap (n : Nat) (sel : Nat → Bool) (f : Nat → Rounded) : (Nat → Option Nat) × List Nat :=
  let rs := ((List.range n).map fun e => if sel e then some (f e) else none).toArray
  (fun e => ((rs.getD e none).map (·.code)),
    rs.toList.foldl (fun a r => match r with
      | some r => addStats a r.stats
      | none => a) noStats)

/-- An element-wise word: one destination of width wd, merged under the guard (R377). -/
def State.vecMap (s : State) (i : Instr) (h : Hdr) (guard : Fin 8) (neg : Bool) (d wd : Nat) (src : Nat → List VOp) (lat : Nat)
    (f : Shape → Vec → Nat → Rounded) : State :=
  s.vecOp i h guard (fun sh => { src := src sh.n, dst := [{ base := d, w := wd, cnt := some sh.n }], lat := fun _ => lat })
    fun sh k =>
      let r := mergeMap sh.n (k.vec.sel guard neg) (f sh k.vec)
      { images := k.vec.images d wd sh.n r.1, stats := r.2 }

/-- A source operand of n elements. -/
def vsrc (base w : Nat) (n : Nat) : VOp := { base := base, w := w, cnt := some n }

/-- The value of a source element after the flush of R228. -/
def Vec.val (k : Vec) (sh : Shape) (f base e : Nat) : Val := value f (flush sh.ftz f (k.elem base (fmtW f) e))

/-- The code of a source element after the flush of R228. -/
def Vec.code (k : Vec) (sh : Shape) (f base e : Nat) : Nat := flush sh.ftz f (k.elem base (fmtW f) e)

/-- A floating-point word of two sources (R384). -/
def State.vecF2 (s : State) (i : Instr) (h : Hdr) (k : Fin 8) (n : Bool) (d a b : Fin 32) (x : BitVec 2) (lat : Nat)
    (f : Nat → Val → Val → Exact) : State :=
  let fm := xfFmt x.toNat
  s.vecMap i h k n d.val (fmtW fm) (fun n => [vsrc a.val (fmtW fm) n, vsrc b.val (fmtW fm) n]) lat fun sh v e =>
    (f sh.mode (v.val sh fm a.val e) (v.val sh fm b.val e)).code fm sh.mode (sh.draw e) sh.ftz

/-- A word of one source in XF whose result is a code (R387, R397, R398). -/
def State.vecC1 (s : State) (i : Instr) (h : Hdr) (k : Fin 8) (n : Bool) (d a : Fin 32) (x : BitVec 2) (lat : Nat)
    (f : Nat → Shape → Nat → Nat → Rounded) : State :=
  let fm := xfFmt x.toNat
  s.vecMap i h k n d.val (fmtW fm) (fun n => [vsrc a.val (fmtW fm) n]) lat fun sh v e => f fm sh e (v.code sh fm a.val e)

/-- A word of two sources in XF whose result is a code (R386, R387). `flushB` says whether b is flushed. -/
def State.vecC2 (s : State) (i : Instr) (h : Hdr) (k : Fin 8) (n : Bool) (d a b : Fin 32) (x : BitVec 2) (flushB : Bool)
    (f : Nat → Nat → Nat → Nat) : State :=
  let fm := xfFmt x.toNat
  s.vecMap i h k n d.val (fmtW fm) (fun n => [vsrc a.val (fmtW fm) n, vsrc b.val (fmtW fm) n]) 2 fun sh v e =>
    { code := f fm (v.code sh fm a.val e) (if flushB then v.code sh fm b.val e else v.elem b.val (fmtW fm) e) }

/-- The width of XI and XW (R383). -/
def xw (x : BitVec 2) : Nat := match x.toNat with
  | 0 => 32 | 1 => 16 | _ => 8

/-- An integer or bit word of two sources (R388). -/
def State.vecI2 (s : State) (i : Instr) (h : Hdr) (k : Fin 8) (n : Bool) (d a b : Fin 32) (x : BitVec 2)
    (f : Nat → Nat → Nat → Nat) : State :=
  let w := xw x
  s.vecMap i h k n d.val w (fun n => [vsrc a.val w n, vsrc b.val w n]) 2 fun _ v e =>
    { code := f w (v.elem a.val w e) (v.elem b.val w e) % 2 ^ w }

/-- A word whose destination element takes the bits of a source element named by a function of shape, source and
index (R393, R402). -/
def State.vecPick (s : State) (i : Instr) (h : Hdr) (k : Fin 8) (n : Bool) (d a : Fin 32) (x : BitVec 2) (more : Nat → List VOp)
    (lat : Nat) (f : Shape → Vec → Nat → Nat) : State :=
  let w := xw x
  s.vecMap i h k n d.val w (fun n => vsrc a.val w n :: more n) lat fun sh v e => { code := v.elem a.val w (f sh v e) }

/-- A compare into a predicate pair (R389). -/
def State.vecCmp (s : State) (i : Instr) (h : Hdr) (k : Fin 8) (n : Bool) (p : BitVec 2) (src : Nat → List VOp)
    (f : Shape → Vec → Nat → Bool) : State :=
  let a := 2 * p.toNat
  s.vecOp i h k (fun sh => { src := src sh.n, kw := [a, a + 1] }) fun sh c =>
    let v := c.vec
    { images := v.predImage a sh.n (fun e => some (v.sel k n e && f sh v e))
        ++ v.predImage (a + 1) sh.n (fun e => some (v.sel k n e && !f sh v e)) }

/-- A predicate operation (R391). -/
def State.vecK (s : State) (i : Instr) (h : Hdr) (k : Fin 8) (n : Bool) (d : Fin 8) (kr : List Nat) (f : Vec → Nat → Bool) : State :=
  s.vecOp i h k (fun _ => { kr := kr, kw := [d.val] }) fun sh c =>
    { images := c.vec.predImage d.val sh.n fun e => if c.vec.sel k n e then some (f c.vec e) else none }

/-! ## Queue transfers and VSUMZ -/

/-- Entries of a queue transfer of n elements of width w (R403, R404). -/
def vEntries (n w : Nat) : Nat := ceilDiv (n * w) 1024

/-- VLD: pops m LDQ entries from the issue cycle on (R403). `lat` holds vd, w, n, m, the entries popped, the cycle after
the last pop, the guard and the old register. -/
def execVld (h : Hdr) (k : Fin 8) (n : Bool) (d : Fin 32) (x : BitVec 2) (s : State) : Outcome State Fault Refusal :=
  let pc := s.me.vec.q.pc
  let i : Instr := .vld h k n d x
  let w := xw x
  .next (s.vecIssue i h k (fun sh => { dst := [vsrc d.val w sh.n] }) true fun sh p s =>
    let v := s.me.vec
    let m := vEntries sh.n w
    let mask := packReg 1 sh.n 0 (fun e => some (ofBool (v.sel k n e))) 0
    let s := s.vecLaunch i h pc s.chron [d.val, w, sh.n, m, 0, 0, mask, v.v[d].toNat]
    .ok (s.updMe fun k => { k with vec := k.vec.pend p (s.chron + m + 1) }))

/-- VST: pushes m entries of STQ data from the cycle after issue on (R404). `lat` holds m, the entries pushed, the cycle
after the last push, and the tile image. -/
def execVst (h : Hdr) (k : Fin 8) (n : Bool) (a : Fin 32) (x : BitVec 2) (s : State) : Outcome State Fault Refusal :=
  let pc := s.me.vec.q.pc
  let i : Instr := .vst h k n a x
  let w := xw x
  .next (s.vecIssue i h k (fun sh => { src := [vsrc a.val w sh.n] }) true fun sh _ s =>
    let v := s.me.vec
    let img := packReg w sh.n 0 (fun e => some (if v.sel k n e then v.elem a.val w e else 0)) 0
    .ok (s.vecLaunch i h pc (s.chron + 1) [vEntries sh.n w, 0, 0, img]))

/-- The lanes a VSUMZ adds to, after the first: rows, columns or none (R400). -/
def sumLane (sel : Nat) (sh : Shape) (e : Nat) : Nat := match sel with
  | 1 => e / sh.cols
  | 2 => e % sh.cols
  | _ => 0

/-- VSUMZ: adds elements exactly into lanes from L = 8 × vd on, over the exact path (R400). `lat` holds the stage (0 to be
placed, 1 placed, 2 started), the interval, the bank, the format, then the lane and the code of each element, lane 256 for one not
selected. -/
def execVsumz (h : Hdr) (k : Fin 8) (n : Bool) (l : BitVec 5) (a : Fin 32) (e : Bool) (sel x : BitVec 2) (s : State) :
    Outcome State Fault Refusal :=
  let pc := s.me.vec.q.pc
  let i : Instr := .vsumz h k n l a e sel x
  let fm := xfFmt x.toNat
  .next (s.vecIssue i h k (fun sh =>
      { src := [vsrc a.val (fmtW fm) sh.n]
        ok := decide (8 * l.toNat + (match sel.toNat with
          | 1 => sh.rows - 1
          | 2 => sh.cols - 1
          | _ => 0) ≤ 255) }) true fun sh _ s =>
    let v := s.me.vec
    let p := s.me.pipe
    let wk := !e
    let lo := s.chron + 1
    let hi := s.chron + ceilDiv sh.n 64
    let terms := (List.range sh.n).flatMap fun j =>
      [if v.sel k n j then 8 * l.toNat + sumLane sel.toNat sh j else 256, v.elem a.val (fmtW fm) j]
    let hit := firstHit ([bExact, vExact, bBank wk, vBank wk].map fun u => p.held u lo hi)
    let s' (st : Nat) := s.vecLaunch i h pc lo ([st, lo, hi, ofBool wk, fm] ++ terms)
    match hit with
    | some u => if s.fixedLeg s.cur then .late u else .ok (s' 0)
    | none => .ok ((s' 1).occupy s.cur [⟨vExact, lo, hi⟩, ⟨vBank wk, lo, hi⟩]))

/-- The core with a word in flight replaced. -/
def Core.setW (k : Core) (w : Inflight) : Core :=
  { k with pipe := { k.pipe with infl := k.pipe.infl.map fun x => if x.id = w.id then w else x } }

/-- A word in flight with one of its latched numbers replaced. -/
def Inflight.put (w : Inflight) (i v : Nat) : Inflight := { w with lat := w.lat.set i v }

/-- A latched number of a word in flight. -/
def Inflight.n (w : Inflight) (i : Nat) : Nat := w.lat.getD i 0

/-- Goes on with a word at a cycle. -/
def State.again (s : State) (c : CoreIx) (w : Inflight) (t : Nat) : State :=
  (s.upd c fun k => k.setW { w with doneAt := t }).schedC t c (.wordRetire c w.id)

/-- Whether a word is a VLD. -/
def isVld : Instr → Bool
  | .vld .. => true
  | _ => false

/-- Whether a word is a VST. -/
def isVst : Instr → Bool
  | .vst .. => true
  | _ => false

/-- Whether an earlier VLD still holds the LDQ port at a cycle, or waits before this one (R380, R381, R252). -/
def Core.ldqPortBusy (k : Core) (w : Inflight) (now : Nat) : Bool :=
  k.pipe.infl.any fun x => x.eng == .vec && isVld x.instr && decide (x.id < w.id) && (decide (x.n 4 < x.n 3) || decide (now < x.n 5))

/-- Whether an earlier VST still holds the STQ port at a cycle, or waits before this one. -/
def Core.stqPortBusy (k : Core) (w : Inflight) (now : Nat) : Bool :=
  k.pipe.infl.any fun x => x.eng == .vec && isVst x.instr && decide (x.id < w.id) && (decide (x.n 1 < x.n 0) || decide (now < x.n 2))

/-- Whether the head of the LDQ was filled before a cycle (R327, R403). -/
def Axu.headFilled (k : Axu) (now : Nat) : Bool := match k.ldq with
  | e :: _ => (match e.filled with
    | some t => decide (t < now)
    | none => false)
  | [] => false

/-- Whether an STQ slot is free for data (R326). -/
def Axu.dataRoom (k : Axu) : Bool := decide (k.stqD.length < 64)

/-- One pop of a VLD at the current cycle. -/
def State.vldPop (s : State) (c : CoreIx) (w : Inflight) : State :=
  match (s.core c).axu.ldq with
  | [] => s
  | e :: r =>
    let s := s.upd c fun k => { k with axu := { k.axu with ldq := r } }
    let w := { w with got := w.got ++ e.bytes.mapIdx fun i b => (128 * w.n 4 + i, b) }
    s.again c ((w.put 4 (w.n 4 + 1)).put 5 (s.chron + 1)) (s.chron + 1)

/-- The write of a VLD (R403): its selected elements. -/
def State.vldDone (s : State) (c : CoreIx) (w : Inflight) : State :=
  let data := ofBytes (w.got.map (·.2))
  let wd := w.n 1
  let img := packReg wd (w.n 2) (w.n 7) (fun e => if bitAt (w.n 6) e then some (data / 2 ^ (wd * e)) else none) 0
  s.upd c fun k => { k with vec := k.vec.write [(w.n 0, img)] }

/-- One push of a VST at the current cycle. -/
def State.vstPush (s : State) (c : CoreIx) (w : Inflight) : State × Inflight :=
  let bs := toBytes 128 (w.n 3 / 2 ^ (1024 * w.n 1))
  let w := (w.put 1 (w.n 1 + 1)).put 2 (s.chron + 1)
  ((s.upd c fun k => k.setW w).stqPush c s.chron bs, w)

/-- Puts a word into the replay queue in program order; its leaving is tried from the next cycle on (R381). -/
def State.toReplay (s : State) (c : CoreIx) (w : Inflight) : State :=
  let first := (s.core c).vec.replay.isEmpty
  let s := s.upd c fun k => { k with vec := { k.vec with replay := insertUp k.vec.replay w.id } }
  let s := s.upd c fun k => k.setW { w with doneAt := s.chron + 1 }
  let s := match w.instr with
    | .vld _ _ _ d _ => s.upd c fun k => { k with vec := { k.vec with vReady := k.vec.vReady.set d never } }
    | _ => s
  if first then s.schedC (s.chron + 1) c .replayQueueLeave else s

/-- A word that finds its unit busy at a cycle of its use: held in a free leg, deviation 0x41 in a fixed one (R381). -/
def State.holdOr41 (s : State) (c : CoreIx) (w : Inflight) : State :=
  if s.fixedLeg c then
    (s.upd c fun k => { k with pipe := { k.pipe with infl := k.pipe.infl.filter fun x => x.id != w.id } }).coreFault c 3 0x41 w.pc
  else s.toReplay c w

/-- Whether the interval of a VSUMZ is free of every other use of its units. -/
def Pipe.sumFree (p : Pipe) (wk : Bool) (lo hi : Nat) (own : Bool) : Bool :=
  ([bExact, bBank wk] ++ (if own then [] else [vExact, vBank wk])).all fun u => (p.held u lo hi).isNone

/-- Takes the units of a VSUMZ back. -/
def Pipe.dropSum (p : Pipe) (lo hi : Nat) : Pipe :=
  { p with busy := p.busy.filter fun y => !((y.kind == vExact || y.kind == vBank true || y.kind == vBank false) && y.lo == lo && y.hi == hi) }

/-- Starts a VSUMZ whose interval begins at a cycle; it commits at its end (R400). -/
def State.sumStart (s : State) (c : CoreIx) (w : Inflight) (lo : Nat) : State :=
  let hi := lo + w.n 2 - w.n 1
  let s := s.occupy c [⟨vExact, lo, hi⟩, ⟨vBank (w.n 3 == 1), lo, hi⟩]
  (s.steps c w.id (max lo (s.chron + 1)) hi).again c (((w.put 0 2).put 1 lo).put 2 hi) hi

/-- The lanes of a VSUMZ after its first m × 64 terms, in element order; none is the carry guard (R237, R400; log 71). -/
def State.sumLanes (s : State) (c : CoreIx) (w : Inflight) (m : Nat) : Option (Vector Lane 256) :=
  let wk := w.n 3 == 1
  let fm := w.n 4
  let ts := (imagesOf (w.lat.drop 5)).take (64 * m)
  let terms (j : Nat) : List Val := (ts.filter fun t => t.1 == j).map fun t => value fm t.2
  applyLanes ((s.core c).bke.bank wk) 0 256 terms

/-- The commit of a VSUMZ: every lane or none (R400, R233). -/
def State.sumDone (s : State) (c : CoreIx) (w : Inflight) : State := s.commitLanes c w 3 (w.n 3 == 1) (s.sumLanes c w 16)

/-- Whether in a cycle of its interval before the last a running value of a VSUMZ reaches the carry guard (R233, R400). -/
def State.sumGuard (s : State) (c : CoreIx) (w : Inflight) : Bool :=
  match w.instr with
  | .vsumz .. => w.n 0 == 2 && decide (w.n 1 ≤ s.chron) && !(s.core c).bke.farFromGuard (w.n 3 == 1)
      && (s.sumLanes c w (s.chron + 1 - w.n 1)).isNone
  | _ => false

/-- A VEC word at a cycle of its use or at its completion cycle: the state, and whether it completes now (R379 to R381). -/
def State.vecGo (s : State) (c : CoreIx) (w : Inflight) : State × Bool :=
  match w.instr with
  | .vld .. =>
    if w.n 4 < w.n 3 then
      (if (s.core c).vec.replay.contains w.id then (s, false)
      else if !(s.core c).ldqPortBusy w s.chron && (s.core c).axu.headFilled s.chron then (s.vldPop c w, false)
      else (s.holdOr41 c w, false))
    else (s.vldDone c w, true)
  | .vst .. =>
    if (s.core c).vec.replay.contains w.id then (s, false)
    else if !(s.core c).stqPortBusy w s.chron && (s.core c).axu.dataRoom then
      (let (s, w) := s.vstPush c w
       if w.n 1 < w.n 0 then (s.again c w (s.chron + 1), false) else (s, true))
    else (s.holdOr41 c w, false)
  | .vsumz .. =>
    let wk := w.n 3 == 1
    if (s.core c).vec.replay.contains w.id then (s, false)
    else if w.n 0 = 2 then (s.sumDone c w, true)
    else
      let placed := w.n 0 == 1
      if (s.core c).pipe.sumFree wk s.chron (w.n 2) placed then
        (let s := if placed then s.upd c fun k => { k with pipe := k.pipe.dropSum (w.n 1) (w.n 2) } else s
         (s.sumStart c w s.chron, false))
      else
        (let s := if placed then s.upd c fun k => { k with pipe := k.pipe.dropSum (w.n 1) (w.n 2) } else s
         (s.holdOr41 c (w.put 0 0), false))
  | _ => (s.vecDone c w, true)

/-- Removes a word from the replay queue at the current cycle. -/
def State.unhold (s : State) (c : CoreIx) (id : Nat) : State :=
  s.upd c fun k => { k with vec := { k.vec with replay := k.vec.replay.filter (· != id), replayLast := s.chron } }

/-- Lets the head of the replay queue leave if its unit is free now, as if it had issued in this cycle (R381). -/
def State.leaveHead (s : State) (c : CoreIx) (w : Inflight) : State :=
  let k := s.core c
  let t := s.chron
  match w.instr with
  | .vld _ _ _ d _ =>
    if !k.ldqPortBusy w t && k.axu.headFilled t then
      (let s := (s.unhold c w.id).upd c fun k => { k with vec := { k.vec with vReady := k.vec.vReady.set d (t + w.n 3 - w.n 4 + 1) } }
       s.vldPop c w)
    else s
  | .vst .. => if !k.stqPortBusy w (t + 1) && k.axu.dataRoom then (s.unhold c w.id).again c w (t + 1) else s
  | .vsumz .. =>
    if k.pipe.sumFree (w.n 3 == 1) (t + 1) (t + 1 + w.n 2 - w.n 1) false then
      ((s.unhold c w.id).sumStart c w (t + 1)) else s
  | _ => s.unhold c w.id

/-- REPLAY_QUEUE_LEAVE: the head of the queue leaves if it can; the next try is in the next cycle (R381). -/
def execReplayQueueLeave (s : State) : Outcome State Fault Refusal :=
  let c := s.cur
  .next (match s.me.vec.replay with
  | [] => s
  | id :: _ =>
    let s := match s.me.pipe.infl.find? (fun w => w.id == id) with
      | none => s.unhold c id
      | some w => if s.me.vec.replayLast < s.chron ∨ s.me.vec.replayLast = 0 then s.leaveHead c w else s
    if s.me.vec.replay.isEmpty then s else s.schedC (s.chron + 1) c .replayQueueLeave)

end Sys2Proof.Machine
end

