-- ==== Sys2Proof/Machine/Retire.lean ====
section
/-! DEFINITION. The retirement of a word (R181, R253) and an unassigned encoding (R271). -/

namespace Sys2Proof.Machine

open Host (Outcome)

/-- Whether an access or a word with an identity is not yet performed, the reads of a word of the BKE among them (R253). -/
def State.stillOpen (s : State) (c : CoreIx) (id : Nat) : Bool :=
  s.unperformed id || (s.core c).pipe.infl.any fun w => w.id == id && ((w.access && (w.beats.any (·.write) || s.wordOpen c id))
    || (w.eng == .bke && !w.beats.isEmpty))

/-- A word in flight as it captures the bytes of its reads that are due: every read of a cycle comes before the writes
of that cycle (R176; log 1). -/
def Inflight.capture (w : Inflight) (m : List Host.Cell) (now : Nat) : Inflight :=
  let (due, rest) := w.beats.partition fun b => !b.write && decide (b.at_ ≤ now)
  { w with beats := rest, got := w.got ++ (due.flatMap fun b => (readBytes m b.key b.len).mapIdx fun i x => (b.key + i, x)) }

/-- Whether a word is a RING, whose beats carry what its reads captured (R339). -/
def isRing : Instr → Bool
  | .ring .. => true
  | _ => false

/-- Performs the writes of a word that are due: a RING converts what it has read (R178), another word wrote its bytes at
issue. -/
def State.writeBeats (s : State) (c : CoreIx) (w : Inflight) : State :=
  let (due, rest) := w.beats.partition fun b => b.write && decide (b.at_ ≤ s.chron)
  let s := s.upd c fun k => k.setW { w with beats := rest }
  due.foldl (fun s b =>
    let (bs, st) := if isRing w.instr then w.ringBeat b else (b.bytes, noStats)
    ({ s with memory := writeBytes s.memory b.key bs }).countStats c st) s

/-- Takes a word out of flight. -/
def State.dropWord (s : State) (c : CoreIx) (id : Nat) : State :=
  s.upd c fun k => { k with pipe := { k.pipe with infl := k.pipe.infl.filter fun w => w.id != id } }

/-- Whether a word of the sequencer makes a memory access. -/
def seqAccess : Instr → Bool
  | .ld .. | .ldc .. | .st .. | .amoAdd .. | .amoAnd .. | .amoOr .. | .amoXor .. | .amoMin .. | .amoMax .. | .amoMinu ..
  | .amoMaxu .. | .amoSwap .. | .amoCas .. | .faddx .. | .xrd .. => true
  | _ => false

/-- The effect of a word of the sequencer at its completion: HALT ends the core once it is quiet, SCANR reads, WREP
acts (R425, R427, R428). None: it has not completed. -/
def State.seqDone (s : State) (c : CoreIx) (w : Inflight) : Option State :=
  match w.instr with
  | .halt _ _ =>
    if s.coreQuiet c then
      some (s.upd c fun k => { k with
        seq := { k.seq with halted := some ((k.seq.haltWait.map (·.1)).getD 0), haltWait := none }
        stat := { k.stat with trap24 := [] } })
    else none
  | .scanr _ d _ =>
    let v := BitVec.ofNat 64 (s.scan (w.lat.getD 0 0))
    some (s.upd c fun k => { k with seq := k.seq.setG d v false (s.chron + 1) })
  | .wrep _ _ _ => some (s.wrepDone c (w.lat.getD 0 0) (w.lat.getD 1 0))
  | _ => some s

/-- The effect of a word at its completion cycle, or none when it has not completed (R181). -/
def State.wordDone (s : State) (c : CoreIx) (w : Inflight) : State × Bool :=
  match w.eng with
  | .seq => (match s.seqDone c w with
    | some s => (s, true)
    | none => (s.schedC (s.chron + 1) c (.wordRetire c w.id), false))
  | .bke => (s.bkeDone c w, true)
  | .vec => s.vecGo c w
  | _ => (s, true)

/-- The give of a retiring word of the AXU: one a soft stop does not make twice (R154). -/
def State.axuGive (s : State) (c : CoreIx) (w : Inflight) : State :=
  let hist := (s.core c).axu.hist
  let n := hist.foldl (fun a x => if x.1 ≤ w.id then max a x.1 else a) 0
  if hist.any (fun x => x.1 == n && x.2.2) then s
  else
    let s := s.upd c fun k => { k with axu := { k.axu with hist := hist.map fun x => if x.1 = n then (x.1, x.2.1, true) else x } }
    s.give c 1 w.giveTo w.pc

/-- Whether a give of the sequencer must wait: an earlier word has yet to give to the same FIFO, or one gave in this
cycle (R181, R182). -/
def State.seqGiveHeld (s : State) (c : CoreIx) (w : Inflight) : Bool :=
  let k := s.core c
  k.ctl.seqGave.contains (fifoIx 0 w.giveTo, s.chron)
    || k.pipe.infl.any fun x => x.eng == .seq && x.give && x.giveTo == w.giveTo && decide (x.id < w.id)

/-- Retires a word that has had its effect (R181, R253): it gives and leaves, once every access it waits for has been
performed; later than that in a fixed leg an access word deviates (R137). -/
def State.retire (s : State) (c : CoreIx) (w : Inflight) : State :=
  let open_ := w.waits.any fun id => s.stillOpen c id
  if open_ && s.fixedLeg c && (w.access || seqAccess w.instr) then (s.dropWord c w.id).coreFault c w.eng.num 0x41 w.pc
  else if open_ || (w.give && w.eng == .seq && s.seqGiveHeld c w) then s.schedC (s.chron + 1) c (.wordRetire c w.id)
  else
    let s := s.dropWord c w.id
    if ¬ w.give then s
    else if w.eng = .axu then s.axuGive c w
    else
      let s := if w.eng = .seq then s.upd c fun k => { k with ctl := { k.ctl with
          seqGave := (fifoIx 0 w.giveTo, s.chron) :: k.ctl.seqGave.filter fun x => x.2 == s.chron } } else s
      s.give c w.eng.num w.giveTo w.pc

/-- Whether a word of a core is held by a pre-emption: one of the VEC by a cut, since it writes after the resume-fix (R382), an IDLE by any
stop of its queue (R270). -/
def State.cutHolds (s : State) (c : CoreIx) (w : Inflight) : Bool := (w.eng == .vec && s.cutCore c) || (isIdle w.instr && s.preStopped c)

/-- A word in flight at a cycle of one of its beats or at its completion (R181). -/
def State.wordEvent (s : State) (c : CoreIx) (id : Nat) : State :=
  match (s.core c).pipe.infl.find? (fun w => w.id == id) with
  | none => s
  | some w =>
    if s.cutHolds c w then s.stash c (.wordRetire c id)
    else if w.late then (if s.chron < w.doneAt then s else (s.dropWord c id).coreFault c w.eng.num 0x41 w.pc 0 w.handle 0xFF w.nests)
    else
      let s := s.upd c fun k => { k with pipe := { k.pipe with infl := k.pipe.infl.map fun x => x.capture s.memory s.chron } }
      match (s.core c).pipe.infl.find? (fun w => w.id == id) with
      | none => s
      | some w =>
        let s := s.writeBeats c w
        if s.chron < w.doneAt then
          if !w.acted && (s.bkeGuard c w || s.sumGuard c w) then (s.dropWord c id).coreFault c w.eng.num 0x23 w.pc else s
        else
          match (s.core c).pipe.infl.find? (fun w => w.id == id) with
          | none => s
          | some w =>
            if w.acted then s.retire c w
            else if w.eng = .axu && s.wordOpen c id then s
            else
              let (s, ok) := s.wordDone c w
              if ¬ ok then s
              else match (s.core c).pipe.infl.find? (fun w => w.id == id) with
                | none => s
                | some w =>
                  let s := s.upd c fun k => k.setW { w with acted := true }
                  let s := s.retire c { w with acted := true }
                  match w.instr, s.partOf c with
                  | .halt _ _, some p => s.checkDone p
                  | _, _ => s

/-- WORD_RETIRE: a word in flight performs what its cycle asks and, once complete, retires and gives (R181, R253). -/
def execWordRetire (core : CoreIx) (id : Nat) (s : State) : Outcome State Fault Refusal := .next (s.wordEvent core id)

/-- Fault 0x01 of an unassigned encoding of the sequencer: in a free leg once its token is there; a due statistics trap takes its place
(R243, R271). -/
def State.seqReserved (s : State) (h : Hdr) : State :=
  let c := s.cur
  let (tk, ok) := s.seqToken c h.t
  if tk && !ok && !s.fixedLeg c then s.waitOr41 c .seq
  else if (s.core c).stat.trapDue s.chron && !(tk && !ok) then s.statTrap c
  else (s.seqTaken c h.t).coreFault c 0 0x01 (s.core c).seq.q.pc

/-- UNASSIGNED_ENCODING: a word of no assigned encoding raises hard fault 0x01 in the cycle it would issue in, with its take made: in a free
leg it waits for its token first (R181, R182, R271). -/
def execUnassignedEncoding (h : Hdr) (s : State) : Outcome State Fault Refusal :=
  .next (match s.eng with
  | .seq => s.seqReserved h
  | e =>
    let c := s.cur
    let k := s.core c
    let src := (k.ctl.seen s.chron).from_ e.num
    let ok := k.ctl.hasTok e.num src && !(s.fixedLeg c && decide (8 ≤ src))
    if h.t && !ok && !s.fixedLeg c then s.waitOr41 c e
    else
      let s := if h.t && ok then s.take c e.num src else s
      (s.advance c e).coreFault c e.num 0x01 ((k.queue e).pc))

end Sys2Proof.Machine
end

