-- ==== Sys2Proof/Machine/SeqAlu.lean ====
section
/-! DEFINITION. Meanings of the sequencer's integer arithmetic: R301 to R304, and of NOP and the sequencer's
LIS. -/

namespace Sys2Proof.Machine

open Host (Outcome)

/-- ADD (R301). -/
def execAdd (h : Hdr) (d a b : Fin 32) (s : State) : Outcome State Fault Refusal :=
  .next (s.aluRR (.add h d a b) h d a b 1 fun x y => x + y)

/-- SUB (R301). -/
def execSub (h : Hdr) (d a b : Fin 32) (s : State) : Outcome State Fault Refusal :=
  .next (s.aluRR (.sub h d a b) h d a b 1 fun x y => x - y)

/-- AND (R301). -/
def execAnd (h : Hdr) (d a b : Fin 32) (s : State) : Outcome State Fault Refusal :=
  .next (s.aluRR (.and h d a b) h d a b 1 fun x y => x &&& y)

/-- OR (R301). -/
def execOr (h : Hdr) (d a b : Fin 32) (s : State) : Outcome State Fault Refusal :=
  .next (s.aluRR (.or h d a b) h d a b 1 fun x y => x ||| y)

/-- XOR (R301). -/
def execXor (h : Hdr) (d a b : Fin 32) (s : State) : Outcome State Fault Refusal :=
  .next (s.aluRR (.xor h d a b) h d a b 1 fun x y => x ^^^ y)

/-- SLL (R301). -/
def execSll (h : Hdr) (d a b : Fin 32) (s : State) : Outcome State Fault Refusal :=
  .next (s.aluRR (.sll h d a b) h d a b 1 fun x y => x <<< shAmt y)

/-- SRL (R301). -/
def execSrl (h : Hdr) (d a b : Fin 32) (s : State) : Outcome State Fault Refusal :=
  .next (s.aluRR (.srl h d a b) h d a b 1 fun x y => x >>> shAmt y)

/-- SRA (R301). -/
def execSra (h : Hdr) (d a b : Fin 32) (s : State) : Outcome State Fault Refusal :=
  .next (s.aluRR (.sra h d a b) h d a b 1 fun x y => x.sshiftRight (shAmt y))

/-- MUL (R301). -/
def execMul (h : Hdr) (d a b : Fin 32) (s : State) : Outcome State Fault Refusal :=
  .next (s.aluRR (.mul h d a b) h d a b 3 fun x y => BitVec.ofInt 64 (x.toInt * y.toInt))

/-- MULH (R301). -/
def execMulh (h : Hdr) (d a b : Fin 32) (s : State) : Outcome State Fault Refusal :=
  .next (s.aluRR (.mulh h d a b) h d a b 3 fun x y => BitVec.ofInt 64 ((x.toInt * y.toInt).fdiv (2 ^ 64)))

/-- MULHU (R301). -/
def execMulhu (h : Hdr) (d a b : Fin 32) (s : State) : Outcome State Fault Refusal :=
  .next (s.aluRR (.mulhu h d a b) h d a b 3 fun x y => BitVec.ofNat 64 (x.toNat * y.toNat / 2 ^ 64))

/-- DIV (R302). -/
def execDiv (h : Hdr) (d a b : Fin 32) (s : State) : Outcome State Fault Refusal :=
  .next (s.aluRR (.div h d a b) h d a b 34 divS)

/-- DIVU (R302). -/
def execDivu (h : Hdr) (d a b : Fin 32) (s : State) : Outcome State Fault Refusal :=
  .next (s.aluRR (.divu h d a b) h d a b 34 divU)

/-- REM (R302). -/
def execRem (h : Hdr) (d a b : Fin 32) (s : State) : Outcome State Fault Refusal :=
  .next (s.aluRR (.rem h d a b) h d a b 34 remS)

/-- REMU (R302). -/
def execRemu (h : Hdr) (d a b : Fin 32) (s : State) : Outcome State Fault Refusal :=
  .next (s.aluRR (.remu h d a b) h d a b 34 remU)

/-- MIN (R301). -/
def execMin (h : Hdr) (d a b : Fin 32) (s : State) : Outcome State Fault Refusal :=
  .next (s.aluRR (.min h d a b) h d a b 1 fun x y => if ltS y x then y else x)

/-- MAX (R301). -/
def execMax (h : Hdr) (d a b : Fin 32) (s : State) : Outcome State Fault Refusal :=
  .next (s.aluRR (.max h d a b) h d a b 1 fun x y => if ltS x y then y else x)

/-- MINU (R301). -/
def execMinu (h : Hdr) (d a b : Fin 32) (s : State) : Outcome State Fault Refusal :=
  .next (s.aluRR (.minu h d a b) h d a b 1 fun x y => if ltU y x then y else x)

/-- MAXU (R301). -/
def execMaxu (h : Hdr) (d a b : Fin 32) (s : State) : Outcome State Fault Refusal :=
  .next (s.aluRR (.maxu h d a b) h d a b 1 fun x y => if ltU x y then y else x)

/-- SLT (R301). -/
def execSlt (h : Hdr) (d a b : Fin 32) (s : State) : Outcome State Fault Refusal :=
  .next (s.aluRR (.slt h d a b) h d a b 1 fun x y => boolWord (ltS x y))

/-- SLTU (R301). -/
def execSltu (h : Hdr) (d a b : Fin 32) (s : State) : Outcome State Fault Refusal :=
  .next (s.aluRR (.sltu h d a b) h d a b 1 fun x y => boolWord (ltU x y))

/-- CLZ (R301). -/
def execClz (h : Hdr) (d a : Fin 32) (s : State) : Outcome State Fault Refusal :=
  .next (s.aluR (.clz h d a) h d a 1 fun x => BitVec.ofNat 64 (clz64 x))

/-- CTZ (R301). -/
def execCtz (h : Hdr) (d a : Fin 32) (s : State) : Outcome State Fault Refusal :=
  .next (s.aluR (.ctz h d a) h d a 1 fun x => BitVec.ofNat 64 (ctz64 x))

/-- POPC (R301). -/
def execPopc (h : Hdr) (d a : Fin 32) (s : State) : Outcome State Fault Refusal :=
  .next (s.aluR (.popc h d a) h d a 1 fun x => BitVec.ofNat 64 (popCount 64 x.toNat))

/-- ADDI (R303). -/
def execAddi (h : Hdr) (d a : Fin 32) (imm : BitVec 11) (s : State) : Outcome State Fault Refusal :=
  .next (s.aluR (.addi h d a imm) h d a 1 fun x => x + immS imm)

/-- SLTI (R303). -/
def execSlti (h : Hdr) (d a : Fin 32) (imm : BitVec 11) (s : State) : Outcome State Fault Refusal :=
  .next (s.aluR (.slti h d a imm) h d a 1 fun x => boolWord (ltS x (immS imm)))

/-- ANDI (R303). -/
def execAndi (h : Hdr) (d a : Fin 32) (imm : BitVec 11) (s : State) : Outcome State Fault Refusal :=
  .next (s.aluR (.andi h d a imm) h d a 1 fun x => x &&& immZ imm)

/-- ORI (R303). -/
def execOri (h : Hdr) (d a : Fin 32) (imm : BitVec 11) (s : State) : Outcome State Fault Refusal :=
  .next (s.aluR (.ori h d a imm) h d a 1 fun x => x ||| immZ imm)

/-- XORI (R303). -/
def execXori (h : Hdr) (d a : Fin 32) (imm : BitVec 11) (s : State) : Outcome State Fault Refusal :=
  .next (s.aluR (.xori h d a imm) h d a 1 fun x => x ^^^ immZ imm)

/-- SLLI (R303). -/
def execSlli (h : Hdr) (d a : Fin 32) (sh : BitVec 6) (s : State) : Outcome State Fault Refusal :=
  .next (s.aluR (.slli h d a sh) h d a 1 fun x => x <<< sh.toNat)

/-- SRLI (R303). -/
def execSrli (h : Hdr) (d a : Fin 32) (sh : BitVec 6) (s : State) : Outcome State Fault Refusal :=
  .next (s.aluR (.srli h d a sh) h d a 1 fun x => x >>> sh.toNat)

/-- SRAI (R303). -/
def execSrai (h : Hdr) (d a : Fin 32) (sh : BitVec 6) (s : State) : Outcome State Fault Refusal :=
  .next (s.aluR (.srai h d a sh) h d a 1 fun x => x.sshiftRight sh.toNat)

/-- The value LIS gives gd (R304). -/
def lisVal (q : BitVec 2) (old : Word) (imm : BitVec 16) : Word :=
  if q = 0 then immS imm else BitVec.ofNat 64 (setFld old.toNat (16 * q.toNat) 16 imm.toNat)

/-- LIS: gd is read where q ≠ 0, and its taint clears (R304). -/
def execLis (h : Hdr) (q : BitVec 2) (d : Fin 32) (imm : BitVec 16) (s : State) : Outcome State Fault Refusal :=
  .next (s.aluImm (.lis h q d imm) h d 1 fun x => lisVal q (x.gpr d) imm)

end Sys2Proof.Machine
end

