-- ==== Sys2Proof/Machine/SeqCtl.lean ====
section
/-! DEFINITION. Meanings of the sequencer's control flow: R305 to R307. -/

namespace Sys2Proof.Machine

open Host (Outcome)

/-- BEQ (R305). -/
def execBeq (h : Hdr) (a b : Fin 32) (off : BitVec 11) (s : State) : Outcome State Fault Refusal :=
  .next (s.seqBranch (.beq h a b off) h a b off fun x y => x == y)

/-- BNE (R305). -/
def execBne (h : Hdr) (a b : Fin 32) (off : BitVec 11) (s : State) : Outcome State Fault Refusal :=
  .next (s.seqBranch (.bne h a b off) h a b off fun x y => x != y)

/-- BLT (R305). -/
def execBlt (h : Hdr) (a b : Fin 32) (off : BitVec 11) (s : State) : Outcome State Fault Refusal :=
  .next (s.seqBranch (.blt h a b off) h a b off fun x y => ltS x y)

/-- BGE (R305). -/
def execBge (h : Hdr) (a b : Fin 32) (off : BitVec 11) (s : State) : Outcome State Fault Refusal :=
  .next (s.seqBranch (.bge h a b off) h a b off fun x y => !ltS x y)

/-- BLTU (R305). -/
def execBltu (h : Hdr) (a b : Fin 32) (off : BitVec 11) (s : State) : Outcome State Fault Refusal :=
  .next (s.seqBranch (.bltu h a b off) h a b off fun x y => ltU x y)

/-- BGEU (R305). -/
def execBgeu (h : Hdr) (a b : Fin 32) (off : BitVec 11) (s : State) : Outcome State Fault Refusal :=
  .next (s.seqBranch (.bgeu h a b off) h a b off fun x y => !ltU x y)

/-- JAL: g31 := pc + 4, untainted, then pc := pc + 4 × sint(off21) (R306). -/
def execJal (h : Hdr) (off : BitVec 21) (s : State) : Outcome State Fault Refusal :=
  let pc := s.me.seq.q.pc
  .next (s.seqIssue (.jal h off) h [31] false false 0 fun s =>
    .ok ((s.writeG 31 (BitVec.ofInt 64 (pc + 4)) false 1).updSeq fun q => { q with q := { q.q with pc := target pc off } }))

/-- JALR: ga is read before gd is written; a target that is not a multiple of 4 raises 0x13 and gd is not
written (R306). -/
def execJalr (h : Hdr) (d a : Fin 32) (imm : BitVec 11) (s : State) : Outcome State Fault Refusal :=
  let pc := s.me.seq.q.pc
  .next (s.seqIssue (.jalr h d a imm) h [d, a] false false 0 fun s =>
    let t : Int := ((s.me.seq.gpr a).toNat : Int) + 4 * imm.toInt
    if t % 4 ≠ 0 then .plain 0x13
    else .ok ((s.writeG d (BitVec.ofInt 64 (pc + 4)) false 1).updSeq fun q => { q with q := { q.q with pc := t } }))

end Sys2Proof.Machine
end

