-- ==== Sys2Proof/Machine/VecOps.lean ====
section
/-! DEFINITION. The meanings of the element-wise, predicate, move, conversion, reduction and permutation words of the
vector engine (R384 to R405). -/

namespace Sys2Proof.Machine

open Host (Outcome)

/-! ## Floating-point arithmetic (R384 to R387) -/

/-- VADD (R384). -/
def execVadd (h : Hdr) (k : Fin 8) (n : Bool) (d a b : Fin 32) (x : BitVec 2) (s : State) : Outcome State Fault Refusal :=
  .next (s.vecF2 (.vadd h k n d a b x) h k n d a b x 4 addX)

/-- VSUB: a − b, the sum of a and the negation of b (R384, R226). -/
def execVsub (h : Hdr) (k : Fin 8) (n : Bool) (d a b : Fin 32) (x : BitVec 2) (s : State) : Outcome State Fault Refusal :=
  .next (s.vecF2 (.vsub h k n d a b x) h k n d a b x 4 fun m u v => addX m u v.neg)

/-- VMUL (R384). -/
def execVmul (h : Hdr) (k : Fin 8) (n : Bool) (d a b : Fin 32) (x : BitVec 2) (s : State) : Outcome State Fault Refusal :=
  .next (s.vecF2 (.vmul h k n d a b x) h k n d a b x 4 fun _ u v => mulX u v)

/-- VDIV (R384). -/
def execVdiv (h : Hdr) (k : Fin 8) (n : Bool) (d a b : Fin 32) (x : BitVec 2) (s : State) : Outcome State Fault Refusal :=
  .next (s.vecF2 (.vdiv h k n d a b x) h k n d a b x 12 fun _ u v => divX u v)

/-- VSQRT (R384). -/
def execVsqrt (h : Hdr) (k : Fin 8) (n : Bool) (d a : Fin 32) (x : BitVec 2) (s : State) : Outcome State Fault Refusal :=
  .next (s.vecC1 (.vsqrt h k n d a x) h k n d a x 12 fun f sh e c => (sqrtX (value f c)).code f sh.mode (sh.draw e) sh.ftz)

/-- A fused word: vd is the third source; `.mix` reads BF16 into FP32 (R385). -/
def State.vecFma (s : State) (i : Instr) (h : Hdr) (k : Fin 8) (n : Bool) (d a b : Fin 32) (x : BitVec 2) (negP negD : Bool) : State :=
  let fs := if x = 3 then 8 else xfFmt x.toNat
  let fd := if x = 3 then 7 else xfFmt x.toNat
  s.vecMap i h k n d.val (fmtW fd) (fun n => [vsrc a.val (fmtW fs) n, vsrc b.val (fmtW fs) n, vsrc d.val (fmtW fd) n]) 4
    fun sh v e =>
      let u := v.val sh fs a.val e
      let w := v.val sh fs b.val e
      let z := v.val sh fd d.val e
      (fmaX sh.mode (if negP then u.neg else u) w (if negD then z.neg else z)).code fd sh.mode (sh.draw e) sh.ftz

/-- VFMA: a × b + d (R385). -/
def execVfma (h : Hdr) (k : Fin 8) (n : Bool) (d a b : Fin 32) (x : BitVec 2) (s : State) : Outcome State Fault Refusal :=
  .next (s.vecFma (.vfma h k n d a b x) h k n d a b x false false)

/-- VFMS: a × b − d (R385). -/
def execVfms (h : Hdr) (k : Fin 8) (n : Bool) (d a b : Fin 32) (x : BitVec 2) (s : State) : Outcome State Fault Refusal :=
  .next (s.vecFma (.vfms h k n d a b x) h k n d a b x false true)

/-- VFNMA: d − a × b (R385). -/
def execVfnma (h : Hdr) (k : Fin 8) (n : Bool) (d a b : Fin 32) (x : BitVec 2) (s : State) : Outcome State Fault Refusal :=
  .next (s.vecFma (.vfnma h k n d a b x) h k n d a b x true false)

/-- VMIN (R386). -/
def execVmin (h : Hdr) (k : Fin 8) (n : Bool) (d a b : Fin 32) (x : BitVec 2) (s : State) : Outcome State Fault Refusal :=
  .next (s.vecC2 (.vmin h k n d a b x) h k n d a b x true (minMax false))

/-- VMAX (R386). -/
def execVmax (h : Hdr) (k : Fin 8) (n : Bool) (d a b : Fin 32) (x : BitVec 2) (s : State) : Outcome State Fault Refusal :=
  .next (s.vecC2 (.vmax h k n d a b x) h k n d a b x true (minMax true))

/-- The code with its sign bit replaced; a NaN becomes the canonical NaN (R387). -/
def withSign (f : Nat) (neg : Bool) (x : Nat) : Nat :=
  if isNaN f x then canonNaN f else (signMag f x).2 + ofBool neg * 2 ^ (fmtW f - 1)

/-- VABS (R387). -/
def execVabs (h : Hdr) (k : Fin 8) (n : Bool) (d a : Fin 32) (x : BitVec 2) (s : State) : Outcome State Fault Refusal :=
  .next (s.vecC1 (.vabs h k n d a x) h k n d a x 2 fun f _ _ c => { code := withSign f false c })

/-- VNEG (R387). -/
def execVneg (h : Hdr) (k : Fin 8) (n : Bool) (d a : Fin 32) (x : BitVec 2) (s : State) : Outcome State Fault Refusal :=
  .next (s.vecC1 (.vneg h k n d a x) h k n d a x 2 fun f _ _ c => { code := withSign f (!(signMag f c).1) c })

/-- VCPYS: the sign of b is read as stored (R387). -/
def execVcpys (h : Hdr) (k : Fin 8) (n : Bool) (d a b : Fin 32) (x : BitVec 2) (s : State) : Outcome State Fault Refusal :=
  .next (s.vecC2 (.vcpys h k n d a b x) h k n d a b x false fun f u v => withSign f (signMag f v).1 u)

/-! ## Integer and bit operations (R388) -/

/-- VIADD. -/
def execViadd (h : Hdr) (k : Fin 8) (n : Bool) (d a b : Fin 32) (x : BitVec 2) (s : State) : Outcome State Fault Refusal :=
  .next (s.vecI2 (.viadd h k n d a b x) h k n d a b x fun _ u v => u + v)

/-- VISUB. -/
def execVisub (h : Hdr) (k : Fin 8) (n : Bool) (d a b : Fin 32) (x : BitVec 2) (s : State) : Outcome State Fault Refusal :=
  .next (s.vecI2 (.visub h k n d a b x) h k n d a b x fun w u v => u + 2 ^ w - v)

/-- VIMUL. -/
def execVimul (h : Hdr) (k : Fin 8) (n : Bool) (d a b : Fin 32) (x : BitVec 2) (s : State) : Outcome State Fault Refusal :=
  .next (s.vecI2 (.vimul h k n d a b x) h k n d a b x fun _ u v => u * v)

/-- VIMIN. -/
def execVimin (h : Hdr) (k : Fin 8) (n : Bool) (d a b : Fin 32) (x : BitVec 2) (s : State) : Outcome State Fault Refusal :=
  .next (s.vecI2 (.vimin h k n d a b x) h k n d a b x fun w u v => if sintN w v < sintN w u then v else u)

/-- VIMAX. -/
def execVimax (h : Hdr) (k : Fin 8) (n : Bool) (d a b : Fin 32) (x : BitVec 2) (s : State) : Outcome State Fault Refusal :=
  .next (s.vecI2 (.vimax h k n d a b x) h k n d a b x fun w u v => if sintN w u < sintN w v then v else u)

/-- VAND. -/
def execVand (h : Hdr) (k : Fin 8) (n : Bool) (d a b : Fin 32) (x : BitVec 2) (s : State) : Outcome State Fault Refusal :=
  .next (s.vecI2 (.vand h k n d a b x) h k n d a b x fun _ u v => u &&& v)

/-- VOR. -/
def execVor (h : Hdr) (k : Fin 8) (n : Bool) (d a b : Fin 32) (x : BitVec 2) (s : State) : Outcome State Fault Refusal :=
  .next (s.vecI2 (.vor h k n d a b x) h k n d a b x fun _ u v => u ||| v)

/-- VXOR. -/
def execVxor (h : Hdr) (k : Fin 8) (n : Bool) (d a b : Fin 32) (x : BitVec 2) (s : State) : Outcome State Fault Refusal :=
  .next (s.vecI2 (.vxor h k n d a b x) h k n d a b x fun _ u v => u ^^^ v)

/-- VSHL: sh = uint(low(b, log2 w)). -/
def execVshl (h : Hdr) (k : Fin 8) (n : Bool) (d a b : Fin 32) (x : BitVec 2) (s : State) : Outcome State Fault Refusal :=
  .next (s.vecI2 (.vshl h k n d a b x) h k n d a b x fun w u v => u * 2 ^ (v % w))

/-- VSHR. -/
def execVshr (h : Hdr) (k : Fin 8) (n : Bool) (d a b : Fin 32) (x : BitVec 2) (s : State) : Outcome State Fault Refusal :=
  .next (s.vecI2 (.vshr h k n d a b x) h k n d a b x fun w u v => u / 2 ^ (v % w))

/-- VSRA. -/
def execVsra (h : Hdr) (k : Fin 8) (n : Bool) (d a b : Fin 32) (x : BitVec 2) (s : State) : Outcome State Fault Refusal :=
  .next (s.vecI2 (.vsra h k n d a b x) h k n d a b x fun w u v => lowInt (sintN w u / ((2 ^ (v % w) : Nat) : Int)) w)

/-! ## Compares and predicates (R389 to R392) -/

/-- VCMP (R389). -/
def execVcmp (h : Hdr) (k : Fin 8) (n : Bool) (c : BitVec 3) (p : BitVec 2) (a b : Fin 32) (x : BitVec 2) (s : State) :
    Outcome State Fault Refusal :=
  let f := xfFmt x.toNat
  .next (s.vecCmp (.vcmp h k n c p a b x) h k n p (fun n => [vsrc a.val (fmtW f) n, vsrc b.val (fmtW f) n]) fun sh v e =>
    fcmp c.toNat f (v.code sh f a.val e) (v.code sh f b.val e))

/-- The condition of VICMP (R389). -/
def icmp (cond w a b : Nat) : Bool :=
  let x := sintN w a
  let y := sintN w b
  match cond with
  | 0 => a == b
  | 1 => a != b
  | 2 => decide (x < y)
  | 3 => decide (x ≤ y)
  | 4 => decide (y < x)
  | 5 => decide (y ≤ x)
  | 6 => decide (a < b)
  | _ => decide (b ≤ a)

/-- VICMP (R389). -/
def execVicmp (h : Hdr) (k : Fin 8) (n : Bool) (c : BitVec 3) (p : BitVec 2) (a b : Fin 32) (x : BitVec 2) (s : State) :
    Outcome State Fault Refusal :=
  let w := xw x
  .next (s.vecCmp (.vicmp h k n c p a b x) h k n p (fun n => [vsrc a.val w n, vsrc b.val w n]) fun _ v e =>
    icmp c.toNat w (v.elem a.val w e) (v.elem b.val w e))

/-- VCLASS: the class of a as stored has its bit set in the mask (R390). -/
def execVclass (h : Hdr) (k : Fin 8) (n : Bool) (p : BitVec 2) (a : Fin 32) (m : BitVec 5) (x : BitVec 2) (s : State) :
    Outcome State Fault Refusal :=
  let f := xfFmt x.toNat
  .next (s.vecCmp (.vclass h k n p a m x) h k n p (fun n => [vsrc a.val (fmtW f) n]) fun _ v e =>
    m.getLsbD (classOf f (v.elem a.val (fmtW f) e)))

/-- KAND (R391). -/
def execKand (h : Hdr) (k : Fin 8) (n : Bool) (d a b : Fin 8) (s : State) : Outcome State Fault Refusal :=
  .next (s.vecK (.kand h k n d a b) h k n d [a.val, b.val] fun v e => v.pred a.val e && v.pred b.val e)

/-- KOR (R391). -/
def execKor (h : Hdr) (k : Fin 8) (n : Bool) (d a b : Fin 8) (s : State) : Outcome State Fault Refusal :=
  .next (s.vecK (.kor h k n d a b) h k n d [a.val, b.val] fun v e => v.pred a.val e || v.pred b.val e)

/-- KXOR (R391). -/
def execKxor (h : Hdr) (k : Fin 8) (n : Bool) (d a b : Fin 8) (s : State) : Outcome State Fault Refusal :=
  .next (s.vecK (.kxor h k n d a b) h k n d [a.val, b.val] fun v e => v.pred a.val e != v.pred b.val e)

/-- KNOT (R391). -/
def execKnot (h : Hdr) (k : Fin 8) (n : Bool) (d a : Fin 8) (s : State) : Outcome State Fault Refusal :=
  .next (s.vecK (.knot h k n d a) h k n d [a.val] fun v e => !v.pred a.val e)

/-- KMOV (R391). -/
def execKmov (h : Hdr) (k : Fin 8) (n : Bool) (d a : Fin 8) (s : State) : Outcome State Fault Refusal :=
  .next (s.vecK (.kmov h k n d a) h k n d [a.val] fun v e => v.pred a.val e)

/-- KCNT: the unguarded count of ka, into the selected elements (R392). -/
def execKcnt (h : Hdr) (k : Fin 8) (n : Bool) (d : Fin 32) (a : Fin 8) (s : State) : Outcome State Fault Refusal :=
  .next (s.vecOp (.kcnt h k n d a) h k (fun sh => { dst := [vsrc d.val 32 sh.n], kr := [a.val] }) fun sh c =>
    let count := ((List.range sh.n).filter fun e => c.vec.pred a.val e).length
    { images := c.vec.images d.val 32 sh.n fun e => if c.vec.sel k n e then some count else none })

/-! ## Moves (R393) -/

/-- VSEL: every element, from va where selected and else from vb. -/
def execVsel (h : Hdr) (k : Fin 8) (n : Bool) (d a b : Fin 32) (x : BitVec 2) (s : State) : Outcome State Fault Refusal :=
  let w := xw x
  .next (s.vecOp (.vsel h k n d a b x) h k
    (fun sh => { src := [vsrc a.val w sh.n, vsrc b.val w sh.n], dst := [vsrc d.val w sh.n] }) fun sh c =>
    { images := c.vec.images d.val w sh.n fun e => some (if c.vec.sel k n e then c.vec.elem a.val w e else c.vec.elem b.val w e) })

/-- VMOV. -/
def execVmov (h : Hdr) (k : Fin 8) (n : Bool) (d a : Fin 32) (x : BitVec 2) (s : State) : Outcome State Fault Refusal :=
  .next (s.vecPick (.vmov h k n d a x) h k n d a x (fun _ => []) 2 fun _ _ e => e)

/-- Width and constant of VMOVI by mode. -/
def moviConst (x imm : Nat) : Nat × Nat :=
  match x with
  | 0 => (32, lowInt (sintN 10 imm) 32)
  | 1 => (16, lowInt (sintN 10 imm) 16)
  | 2 => (16, imm * 64)
  | _ => (8, imm % 256)

/-- VMOVI. -/
def execVmovi (h : Hdr) (k : Fin 8) (n : Bool) (d : Fin 32) (imm : BitVec 10) (x : BitVec 2) (s : State) : Outcome State Fault Refusal :=
  let (w, v) := moviConst x.toNat imm.toNat
  .next (s.vecMap (.vmovi h k n d imm x) h k n d.val w (fun _ => []) 2 fun _ _ _ => { code := v })

/-- VBCST: element (0, 0), the element of row 0, or that of column 0. -/
def execVbcst (h : Hdr) (k : Fin 8) (n : Bool) (d a : Fin 32) (sel : BitVec 5) (x : BitVec 2) (s : State) : Outcome State Fault Refusal :=
  .next (s.vecPick (.vbcst h k n d a sel x) h k n d a x (fun _ => []) 2 fun sh _ e => match sel.toNat with
    | 0 => 0
    | 1 => e % sh.cols
    | _ => e / sh.cols * sh.cols)

/-! ## Conversion and quantisation (R394 to R397) -/

/-- The source and destination formats of VCVT (R394). -/
def cvtFmts (f x : Nat) : Nat × Nat := match x with
  | 0 => (f, 7) | 1 => (7, f) | 2 => (f, 8) | _ => (8, f)

/-- VCVT: either operand may be a group (R394). -/
def execVcvt (h : Hdr) (k : Fin 8) (n : Bool) (d a : Fin 32) (f : BitVec 4) (x : BitVec 2) (s : State) : Outcome State Fault Refusal :=
  let (fs, fd) := cvtFmts f.toNat x.toNat
  .next (s.vecOp (.vcvt h k n d a f x) h k
    (fun sh =>
      { src := [{ base := a.val, w := fmtW fs, cnt := some sh.n, group := true }]
        dst := [{ base := d.val, w := fmtW fd, cnt := some sh.n, group := true }]
        lat := fun g => 3 + g
        grouped := true })
    fun sh c =>
      let r := mergeMap sh.n (c.vec.sel k n) fun e =>
        let r := convert fs fd sh.mode (sh.draw e) (c.vec.code sh fs a.val e)
        { r with code := flush sh.ftz fd r.code }
      { images := c.vec.images d.val (fmtW fd) sh.n r.1, stats := r.2 })

/-- VQNT: blocks of QB elements into elements of QF and E8M0 scales (R395, R238). -/
def execVqnt (h : Hdr) (d a b : Fin 32) (x : BitVec 2) (s : State) : Outcome State Fault Refusal :=
  let f := xfFmt x.toNat
  .next (s.vecOp (.vqnt h d a b x) h 0
    (fun sh =>
      { src := [{ base := a.val, w := fmtW f, cnt := some sh.n, group := true }]
        dst := [{ base := d.val, w := 8, cnt := none }, { base := b.val, w := 8, cnt := none }]
        lat := fun g => 7 + g
        ok := sh.n % sh.qb == 0
        grouped := true })
    fun sh c =>
      let blocks := (List.range (sh.n / sh.qb)).map fun j =>
        let es := (List.range sh.qb).map fun i => j * sh.qb + i
        quantise sh.qf sh.mode (es.map fun e => c.vec.val sh f a.val e) (es.map sh.draw)
      let codes := (blocks.flatMap fun q => q.codes).toArray
      let scales := (blocks.map fun q => q.scale).toArray
      { images := c.vec.images d.val (fmtW sh.qf) sh.n (fun e => codes[e]?) ++ c.vec.images b.val 8 (sh.n / sh.qb) (fun e => scales[e]?)
        stats := blocks.foldl (fun s q => addStats s q.stats) noStats })

/-- VDQ (R396). -/
def execVdq (h : Hdr) (k : Fin 8) (n : Bool) (d a b : Fin 32) (x : BitVec 2) (s : State) : Outcome State Fault Refusal :=
  let f := xfFmt x.toNat
  .next (s.vecOp (.vdq h k n d a b x) h k
    (fun sh =>
      { src := [{ base := a.val, w := 8, cnt := none }, { base := b.val, w := 8, cnt := none }]
        dst := [{ base := d.val, w := fmtW f, cnt := some sh.n, group := true }]
        lat := fun g => 3 + g
        grouped := true })
    fun sh c =>
      let r := mergeMap sh.n (c.vec.sel k n) fun e =>
        let r := dequant sh.qf f sh.mode (sh.draw e) (c.vec.elem a.val (fmtW sh.qf) e) (c.vec.elem b.val 8 (e / sh.qb))
        { r with code := flush sh.ftz f r.code }
      { images := c.vec.images d.val (fmtW f) sh.n r.1, stats := r.2 })

/-- VRND: mode 0 to 4, or 5 for RND of VMD (R397). -/
def execVrnd (h : Hdr) (k : Fin 8) (n : Bool) (d a : Fin 32) (m : BitVec 3) (x : BitVec 2) (s : State) : Outcome State Fault Refusal :=
  .next (s.vecC1 (.vrnd h k n d a m x) h k n d a x 2 fun f sh e c =>
    roundIntegral f (if m = 5 then sh.mode else m.toNat) (sh.draw e) c)

/-! ## Transcendentals and reductions (R398 to R400) -/

/-- A transcendental word (R398, R239). -/
def State.vecTrans (s : State) (i : Instr) (h : Hdr) (k : Fin 8) (n : Bool) (d a : Fin 32) (x : BitVec 2) (lat : Nat) (t : Trans) : State :=
  s.vecC1 i h k n d a x lat fun f sh _ c => t.code f sh.mode sh.ftz c

/-- VEXP2. -/
def execVexp2 (h : Hdr) (k : Fin 8) (n : Bool) (d a : Fin 32) (x : BitVec 2) (s : State) : Outcome State Fault Refusal :=
  .next (s.vecTrans (.vexp2 h k n d a x) h k n d a x 16 .exp2)

/-- VLOG2. -/
def execVlog2 (h : Hdr) (k : Fin 8) (n : Bool) (d a : Fin 32) (x : BitVec 2) (s : State) : Outcome State Fault Refusal :=
  .next (s.vecTrans (.vlog2 h k n d a x) h k n d a x 16 .log2)

/-- VRCP. -/
def execVrcp (h : Hdr) (k : Fin 8) (n : Bool) (d a : Fin 32) (x : BitVec 2) (s : State) : Outcome State Fault Refusal :=
  .next (s.vecTrans (.vrcp h k n d a x) h k n d a x 12 .rcp)

/-- VRSQ. -/
def execVrsq (h : Hdr) (k : Fin 8) (n : Bool) (d a : Fin 32) (x : BitVec 2) (s : State) : Outcome State Fault Refusal :=
  .next (s.vecTrans (.vrsq h k n d a x) h k n d a x 12 .rsq)

/-- VSIN. -/
def execVsin (h : Hdr) (k : Fin 8) (n : Bool) (d a : Fin 32) (x : BitVec 2) (s : State) : Outcome State Fault Refusal :=
  .next (s.vecTrans (.vsin h k n d a x) h k n d a x 16 .sin)

/-- VCOS. -/
def execVcos (h : Hdr) (k : Fin 8) (n : Bool) (d a : Fin 32) (x : BitVec 2) (s : State) : Outcome State Fault Refusal :=
  .next (s.vecTrans (.vcos h k n d a x) h k n d a x 16 .cos)

/-- VTANH. -/
def execVtanh (h : Hdr) (k : Fin 8) (n : Bool) (d a : Fin 32) (x : BitVec 2) (s : State) : Outcome State Fault Refusal :=
  .next (s.vecTrans (.vtanh h k n d a x) h k n d a x 16 .tanh)

/-- VERF. -/
def execVerf (h : Hdr) (k : Fin 8) (n : Bool) (d a : Fin 32) (x : BitVec 2) (s : State) : Outcome State Fault Refusal :=
  .next (s.vecTrans (.verf h k n d a x) h k n d a x 16 .erf)

/-- The code of an infinity of a format. -/
def infCode (f : Nat) (neg : Bool) : Nat := (infResult f neg).code

/-- The reduction of one line: its selected codes (R399). -/
def reduceLine (max : Bool) (f : Nat) (xs : List Nat) : Nat :=
  match xs with
  | [] => infCode f max
  | _ => match xs.filter fun x => !isNaN f x with
    | [] => canonNaN f
    | y :: ys => ys.foldl (fun a x => if (orderKey f x < orderKey f a) = max then a else x) y

/-- VRMAX and VRMIN: result r of each row, or c of each column (R399). -/
def State.vecReduce (s : State) (i : Instr) (h : Hdr) (k : Fin 8) (n : Bool) (d a : Fin 32) (byCol : Bool) (x : BitVec 2) (max : Bool) : State :=
  let f := xfFmt x.toNat
  s.vecOp i h k (fun sh => { src := [vsrc a.val (fmtW f) sh.n], dst := [vsrc d.val (fmtW f) sh.n], lat := fun _ => 6 }) fun sh c =>
    let lines := if byCol then sh.cols else sh.rows
    let line (j : Nat) : List Nat :=
      (((List.range (sh.n / lines)).map fun q => if byCol then q * sh.cols + j else j * sh.cols + q).filter fun e => c.vec.sel k n e).map
        fun e => c.vec.code sh f a.val e
    { images := c.vec.images d.val (fmtW f) lines fun j => some (reduceLine max f (line j)) }

/-- VRMAX. -/
def execVrmax (h : Hdr) (k : Fin 8) (n : Bool) (d a : Fin 32) (ax : Bool) (x : BitVec 2) (s : State) : Outcome State Fault Refusal :=
  .next (s.vecReduce (.vrmax h k n d a ax x) h k n d a ax x true)

/-- VRMIN. -/
def execVrmin (h : Hdr) (k : Fin 8) (n : Bool) (d a : Fin 32) (ax : Bool) (x : BitVec 2) (s : State) : Outcome State Fault Refusal :=
  .next (s.vecReduce (.vrmin h k n d a ax x) h k n d a ax x false)

/-! ## Shape and permutation (R401, R402), statistics (R405) -/

/-- VSHAPE: VSH or VMD from bytes 0 to 7 of va, in its issue cycle (R401, L = 1). -/
def execVshape (h : Hdr) (a : Fin 32) (x : BitVec 2) (s : State) : Outcome State Fault Refusal :=
  let pc := s.me.vec.q.pc
  let i : Instr := .vshape h a x
  .next (s.vecIssue i h 0 (fun _ => { src := [{ base := a.val, w := 64, cnt := none }], datapath := false }) false fun _ _ s =>
    let v := s.me.vec.v[a].toNat % 2 ^ 64
    let s := s.updMe fun k => { k with ctl := if x = 0 then
        { k.ctl with vsh := BitVec.ofNat 64 (vshWrite k.ctl.vsh.toNat v) }
      else { k.ctl with vmd := BitVec.ofNat 64 (vmdWrite k.ctl.vmd.toNat v) } }
    .ok (s.vecLaunch i h pc s.chron noStats))

/-- VTRN: element c × ROWS + r from element r × COLS + c (R402). -/
def execVtrn (h : Hdr) (d a : Fin 32) (x : BitVec 2) (s : State) : Outcome State Fault Refusal :=
  .next (s.vecPick (.vtrn h d a x) h 0 false d a x (fun _ => []) 4 fun sh _ e => e % sh.rows * sh.cols + e / sh.rows)

/-- VSHUF (R402). -/
def execVshuf (h : Hdr) (k : Fin 8) (n : Bool) (d a b : Fin 32) (x : BitVec 2) (s : State) : Outcome State Fault Refusal :=
  .next (s.vecPick (.vshuf h k n d a b x) h k n d a x (fun n => [vsrc b.val (xw x) n]) 4 fun sh v e => v.elem b.val (xw x) e % sh.n)

/-- VROT (R402). -/
def execVrot (h : Hdr) (k : Fin 8) (n : Bool) (d a b : Fin 32) (x : BitVec 2) (s : State) : Outcome State Fault Refusal :=
  .next (s.vecPick (.vrot h k n d a b x) h k n d a x (fun _ => [{ base := b.val, w := 32, cnt := none }]) 4 fun sh v e =>
    e / sh.cols * sh.cols + (e % sh.cols + v.elem b.val 32 0) % sh.cols)

/-- A statistics counter as it stood at the start of the cycle (R405, R242). -/
def Stats.atStart (k : Stats) (i : Fin 6) (now : Nat) : Nat := ((k.open_ now).cnt0[i]).toNat

/-- STEV as it stood at the start of the cycle (R405). -/
def Stats.evAtStart (k : Stats) (now : Nat) : Nat := (k.open_ now).ev0.toNat

/-- The counters cleared in a cycle, whose events count after (R242, R405). -/
def Stats.cleared (k : Stats) (now : Nat) : Stats :=
  let k := k.open_ now
  { k with cnt := Vector.ofFn fun i => BitVec.ofNat 32 k.cyCnt[i] }

/-- VSTAT: the counters of the core; with `.clr` they are cleared, and the events of this cycle count after (R405). -/
def execVstat (h : Hdr) (d : Fin 32) (x : BitVec 2) (s : State) : Outcome State Fault Refusal :=
  let pc := s.me.vec.q.pc
  let i : Instr := .vstat h d x
  .next (s.vecIssue i h 0 (fun _ => { dst := [{ base := d.val, w := 32, cnt := none }] }) false fun _ p s =>
    let k := s.me
    let vals := (List.finRange 6).map (fun i => k.stat.atStart i s.chron) ++ [k.stat.evAtStart s.chron, 0]
    let low := vals.foldr (fun v a => v % 2 ^ 32 + 2 ^ 32 * a) 0
    let img := low + k.vec.v[d].toNat / 2 ^ 256 * 2 ^ 256
    let s := s.vecLaunch i h pc (s.chron + 1) (noStats ++ [d.val, img])
    .ok (s.updMe fun k =>
      { k with
        vec := k.vec.pend p (s.chron + 2)
        stat := if x = 1 then k.stat.cleared s.chron else k.stat }))

end Sys2Proof.Machine
end

