-- ==== Sys2Proof/Machine/Dispatch.lean ====
section
/-! DEFINITION. One arm per instruction: a direct call of its meaning, or its rejection by name. -/

namespace Sys2Proof.Machine

open Host (Outcome)

/-- The meaning of an instruction. -/
def exec (i : Instr) (s : State) : Host.Outcome State Fault Refusal :=
  match i with
  | .nop h => Sys2Proof.Machine.execNop h s
  | .idle h c => Sys2Proof.Machine.execIdle h c s
  | .add h d a b => Sys2Proof.Machine.execAdd h d a b s
  | .sub h d a b => Sys2Proof.Machine.execSub h d a b s
  | .and h d a b => Sys2Proof.Machine.execAnd h d a b s
  | .or h d a b => Sys2Proof.Machine.execOr h d a b s
  | .xor h d a b => Sys2Proof.Machine.execXor h d a b s
  | .sll h d a b => Sys2Proof.Machine.execSll h d a b s
  | .srl h d a b => Sys2Proof.Machine.execSrl h d a b s
  | .sra h d a b => Sys2Proof.Machine.execSra h d a b s
  | .mul h d a b => Sys2Proof.Machine.execMul h d a b s
  | .mulh h d a b => Sys2Proof.Machine.execMulh h d a b s
  | .mulhu h d a b => Sys2Proof.Machine.execMulhu h d a b s
  | .div h d a b => Sys2Proof.Machine.execDiv h d a b s
  | .divu h d a b => Sys2Proof.Machine.execDivu h d a b s
  | .rem h d a b => Sys2Proof.Machine.execRem h d a b s
  | .remu h d a b => Sys2Proof.Machine.execRemu h d a b s
  | .min h d a b => Sys2Proof.Machine.execMin h d a b s
  | .max h d a b => Sys2Proof.Machine.execMax h d a b s
  | .minu h d a b => Sys2Proof.Machine.execMinu h d a b s
  | .maxu h d a b => Sys2Proof.Machine.execMaxu h d a b s
  | .slt h d a b => Sys2Proof.Machine.execSlt h d a b s
  | .sltu h d a b => Sys2Proof.Machine.execSltu h d a b s
  | .clz h d a => Sys2Proof.Machine.execClz h d a s
  | .ctz h d a => Sys2Proof.Machine.execCtz h d a s
  | .popc h d a => Sys2Proof.Machine.execPopc h d a s
  | .addi h d a imm => Sys2Proof.Machine.execAddi h d a imm s
  | .slti h d a imm => Sys2Proof.Machine.execSlti h d a imm s
  | .andi h d a imm => Sys2Proof.Machine.execAndi h d a imm s
  | .ori h d a imm => Sys2Proof.Machine.execOri h d a imm s
  | .xori h d a imm => Sys2Proof.Machine.execXori h d a imm s
  | .slli h d a sh => Sys2Proof.Machine.execSlli h d a sh s
  | .srli h d a sh => Sys2Proof.Machine.execSrli h d a sh s
  | .srai h d a sh => Sys2Proof.Machine.execSrai h d a sh s
  | .jal h off => Sys2Proof.Machine.execJal h off s
  | .jalr h d a imm => Sys2Proof.Machine.execJalr h d a imm s
  | .lis h q d imm => Sys2Proof.Machine.execLis h q d imm s
  | .beq h a b off => Sys2Proof.Machine.execBeq h a b off s
  | .bne h a b off => Sys2Proof.Machine.execBne h a b off s
  | .blt h a b off => Sys2Proof.Machine.execBlt h a b off s
  | .bge h a b off => Sys2Proof.Machine.execBge h a b off s
  | .bltu h a b off => Sys2Proof.Machine.execBltu h a b off s
  | .bgeu h a b off => Sys2Proof.Machine.execBgeu h a b off s
  | .ld h d a z imm => Sys2Proof.Machine.execLd h d a z imm s
  | .st h d a z imm => Sys2Proof.Machine.execSt h d a z imm s
  | .ldc h d a z imm => Sys2Proof.Machine.execLdc h d a z imm s
  | .fence h k sc => Sys2Proof.Machine.execFence h k sc s
  | .faddx h a b x sc => Sys2Proof.Machine.execFaddx h a b x sc s
  | .xrd h d a m x sc => Sys2Proof.Machine.execXrd h d a m x sc s
  | .tkg w p => Sys2Proof.Machine.execTkg w p s
  | .tkt w p => Sys2Proof.Machine.execTkt w p s
  | .tkq w d a imm => Sys2Proof.Machine.execTkq w d a imm s
  | .amoAdd h d a b x sc => Sys2Proof.Machine.execAmoAdd h d a b x sc s
  | .amoAnd h d a b x sc => Sys2Proof.Machine.execAmoAnd h d a b x sc s
  | .amoOr h d a b x sc => Sys2Proof.Machine.execAmoOr h d a b x sc s
  | .amoXor h d a b x sc => Sys2Proof.Machine.execAmoXor h d a b x sc s
  | .amoMin h d a b x sc => Sys2Proof.Machine.execAmoMin h d a b x sc s
  | .amoMax h d a b x sc => Sys2Proof.Machine.execAmoMax h d a b x sc s
  | .amoMinu h d a b x sc => Sys2Proof.Machine.execAmoMinu h d a b x sc s
  | .amoMaxu h d a b x sc => Sys2Proof.Machine.execAmoMaxu h d a b x sc s
  | .amoSwap h d a b x sc => Sys2Proof.Machine.execAmoSwap h d a b x sc s
  | .amoCas h d a b x sc => Sys2Proof.Machine.execAmoCas h d a b x sc s
  | .qstart h a m => Sys2Proof.Machine.execQstart h a m s
  | .qstop h a m => Sys2Proof.Machine.execQstop h a m s
  | .qstat h d a e => Sys2Proof.Machine.execQstat h d a e s
  | .fix w a imm => Sys2Proof.Machine.execFix w a imm s
  | .size h a imm => Sys2Proof.Machine.execSize h a imm s
  | .chron h d => Sys2Proof.Machine.execChron h d s
  | .legq h d => Sys2Proof.Machine.execLegq h d s
  | .hqry h d a f => Sys2Proof.Machine.execHqry h d a f s
  | .cpy h d a b sc e c => Sys2Proof.Machine.execCpy h d a b sc e c s
  | .cpyf h d a b sc e c => Sys2Proof.Machine.execCpyf h d a b sc e c s
  | .cpyw h d a b sc e c => Sys2Proof.Machine.execCpyw h d a b sc e c s
  | .cpyr h d a b sc e c => Sys2Proof.Machine.execCpyr h d a b sc e c s
  | .sort h d a b sc e c => Sys2Proof.Machine.execSort h d a b sc e c s
  | .pack h d a b sc e c => Sys2Proof.Machine.execPack h d a b sc e c s
  | .crr h d off => Sys2Proof.Machine.execCrr h d off s
  | .crw h a off => Sys2Proof.Machine.execCrw h a off s
  | .trap h nl => Sys2Proof.Machine.execTrap h nl s
  | .sret h => Sys2Proof.Machine.execSret h s
  | .halt h a => Sys2Proof.Machine.execHalt h a s
  | .hset h a b => Sys2Proof.Machine.execHset h a b s
  | .scanr h d a => Sys2Proof.Machine.execScanr h d a s
  | .wrep h a b => Sys2Proof.Machine.execWrep h a b s
  | .lds h a nl sc c => Sys2Proof.Machine.execLds h a nl sc c s
  | .sts h a nl sc c => Sys2Proof.Machine.execSts h a nl sc c s
  | .ldg h a b nl sc c => Sys2Proof.Machine.execLdg h a b nl sc c s
  | .stg h a b nl sc c => Sys2Proof.Machine.execStg h a b nl sc c s
  | .ldh h hd nl x => Sys2Proof.Machine.execLdh h hd nl x s
  | .sth h hd nl x => Sys2Proof.Machine.execSth h hd nl x s
  | .mark h => Sys2Proof.Machine.execMark h s
  | .aadd h d a b neg sh => Sys2Proof.Machine.execAadd h d a b neg sh s
  | .aaddNw h k a b f => Sys2Proof.Machine.execAaddNw h k a b f s
  | .ali h d imm => Sys2Proof.Machine.execAli h d imm s
  | .aliSh h d imm => Sys2Proof.Machine.execAliSh h d imm s
  | .amov h d a => Sys2Proof.Machine.execAmov h d a s
  | .loop h nl l => Sys2Proof.Machine.execLoop h nl l s
  | .lend h nl => Sys2Proof.Machine.execLend h nl s
  | .isect h a b c => Sys2Proof.Machine.execIsect h a b c s
  | .imerge h a b c => Sys2Proof.Machine.execImerge h a b c s
  | .icnt h a b p d => Sys2Proof.Machine.execIcnt h a b p d s
  | .ract h win b a => Sys2Proof.Machine.execRact h win b a s
  | .rcon h win b a o d => Sys2Proof.Machine.execRcon h win b a o d s
  | .rpre h win b a => Sys2Proof.Machine.execRpre h win b a s
  | .rstat h win b a => Sys2Proof.Machine.execRstat h win b a s
  | .ring h a b l c => Sys2Proof.Machine.execRing h a b l c s
  | .bwin h hd nl x => Sys2Proof.Machine.execBwin h hd nl x s
  | .bwinCfg h hd => Sys2Proof.Machine.execBwinCfg h hd s
  | .bsteer h hd nl x => Sys2Proof.Machine.execBsteer h hd nl x s
  | .bplane h hd nl x => Sys2Proof.Machine.execBplane h hd nl x s
  | .bclr h => Sys2Proof.Machine.execBclr h s
  | .cbld h hd k => Sys2Proof.Machine.execCbld h hd k s
  | .mulb h c => Sys2Proof.Machine.execMulb h c s
  | .macd h l f nl x => Sys2Proof.Machine.execMacd h l f nl x s
  | .zswap h => Sys2Proof.Machine.execZswap h s
  | .zdrain h a b f sc => Sys2Proof.Machine.execZdrain h a b f sc s
  | .zclr h a b => Sys2Proof.Machine.execZclr h a b s
  | .zspill h a b k sc => Sys2Proof.Machine.execZspill h a b k sc s
  | .zfill h a b k sc => Sys2Proof.Machine.execZfill h a b k sc s
  | .zaddv h a b k f sc => Sys2Proof.Machine.execZaddv h a b k f sc s
  | .zstat h l k sc => Sys2Proof.Machine.execZstat h l k sc s
  | .loopBke h nl l => Sys2Proof.Machine.execLoopBke h nl l s
  | .lendBke h nl => Sys2Proof.Machine.execLendBke h nl s
  | .vadd h k n d a b x => Sys2Proof.Machine.execVadd h k n d a b x s
  | .vsub h k n d a b x => Sys2Proof.Machine.execVsub h k n d a b x s
  | .vmul h k n d a b x => Sys2Proof.Machine.execVmul h k n d a b x s
  | .vfma h k n d a b x => Sys2Proof.Machine.execVfma h k n d a b x s
  | .vfms h k n d a b x => Sys2Proof.Machine.execVfms h k n d a b x s
  | .vfnma h k n d a b x => Sys2Proof.Machine.execVfnma h k n d a b x s
  | .vdiv h k n d a b x => Sys2Proof.Machine.execVdiv h k n d a b x s
  | .vsqrt h k n d a x => Sys2Proof.Machine.execVsqrt h k n d a x s
  | .vmin h k n d a b x => Sys2Proof.Machine.execVmin h k n d a b x s
  | .vmax h k n d a b x => Sys2Proof.Machine.execVmax h k n d a b x s
  | .vabs h k n d a x => Sys2Proof.Machine.execVabs h k n d a x s
  | .vneg h k n d a x => Sys2Proof.Machine.execVneg h k n d a x s
  | .vcpys h k n d a b x => Sys2Proof.Machine.execVcpys h k n d a b x s
  | .viadd h k n d a b x => Sys2Proof.Machine.execViadd h k n d a b x s
  | .visub h k n d a b x => Sys2Proof.Machine.execVisub h k n d a b x s
  | .vimul h k n d a b x => Sys2Proof.Machine.execVimul h k n d a b x s
  | .vimin h k n d a b x => Sys2Proof.Machine.execVimin h k n d a b x s
  | .vimax h k n d a b x => Sys2Proof.Machine.execVimax h k n d a b x s
  | .vand h k n d a b x => Sys2Proof.Machine.execVand h k n d a b x s
  | .vor h k n d a b x => Sys2Proof.Machine.execVor h k n d a b x s
  | .vxor h k n d a b x => Sys2Proof.Machine.execVxor h k n d a b x s
  | .vshl h k n d a b x => Sys2Proof.Machine.execVshl h k n d a b x s
  | .vshr h k n d a b x => Sys2Proof.Machine.execVshr h k n d a b x s
  | .vsra h k n d a b x => Sys2Proof.Machine.execVsra h k n d a b x s
  | .vcmp h k n c p a b x => Sys2Proof.Machine.execVcmp h k n c p a b x s
  | .vicmp h k n c p a b x => Sys2Proof.Machine.execVicmp h k n c p a b x s
  | .vclass h k n p a m x => Sys2Proof.Machine.execVclass h k n p a m x s
  | .kand h k n d a b => Sys2Proof.Machine.execKand h k n d a b s
  | .kor h k n d a b => Sys2Proof.Machine.execKor h k n d a b s
  | .kxor h k n d a b => Sys2Proof.Machine.execKxor h k n d a b s
  | .knot h k n d a => Sys2Proof.Machine.execKnot h k n d a s
  | .kmov h k n d a => Sys2Proof.Machine.execKmov h k n d a s
  | .kcnt h k n d a => Sys2Proof.Machine.execKcnt h k n d a s
  | .vsel h k n d a b x => Sys2Proof.Machine.execVsel h k n d a b x s
  | .vmov h k n d a x => Sys2Proof.Machine.execVmov h k n d a x s
  | .vmovi h k n d imm x => Sys2Proof.Machine.execVmovi h k n d imm x s
  | .vbcst h k n d a sc x => Sys2Proof.Machine.execVbcst h k n d a sc x s
  | .vcvt h k n d a f x => Sys2Proof.Machine.execVcvt h k n d a f x s
  | .vqnt h d a b x => Sys2Proof.Machine.execVqnt h d a b x s
  | .vdq h k n d a b x => Sys2Proof.Machine.execVdq h k n d a b x s
  | .vrnd h k n d a m x => Sys2Proof.Machine.execVrnd h k n d a m x s
  | .vexp2 h k n d a x => Sys2Proof.Machine.execVexp2 h k n d a x s
  | .vlog2 h k n d a x => Sys2Proof.Machine.execVlog2 h k n d a x s
  | .vrcp h k n d a x => Sys2Proof.Machine.execVrcp h k n d a x s
  | .vrsq h k n d a x => Sys2Proof.Machine.execVrsq h k n d a x s
  | .vsin h k n d a x => Sys2Proof.Machine.execVsin h k n d a x s
  | .vcos h k n d a x => Sys2Proof.Machine.execVcos h k n d a x s
  | .vtanh h k n d a x => Sys2Proof.Machine.execVtanh h k n d a x s
  | .verf h k n d a x => Sys2Proof.Machine.execVerf h k n d a x s
  | .vrmax h k n d a sc x => Sys2Proof.Machine.execVrmax h k n d a sc x s
  | .vrmin h k n d a sc x => Sys2Proof.Machine.execVrmin h k n d a sc x s
  | .vsumz h k n l a e sc x => Sys2Proof.Machine.execVsumz h k n l a e sc x s
  | .vshape h a x => Sys2Proof.Machine.execVshape h a x s
  | .vtrn h d a x => Sys2Proof.Machine.execVtrn h d a x s
  | .vshuf h k n d a b x => Sys2Proof.Machine.execVshuf h k n d a b x s
  | .vrot h k n d a b x => Sys2Proof.Machine.execVrot h k n d a b x s
  | .vld h k n d x => Sys2Proof.Machine.execVld h k n d x s
  | .vst h k n a x => Sys2Proof.Machine.execVst h k n a x s
  | .vstat h d x => Sys2Proof.Machine.execVstat h d x s
  | .pendOnErrors col bank => Sys2Proof.Machine.execPendOnErrors col bank s
  | .pendOnHeat col layer => Sys2Proof.Machine.execPendOnHeat col layer s
  | .uncorrectableDramError col bank => Sys2Proof.Machine.execUncorrectableDramError col bank s
  | .powerWindow meanWatts => Sys2Proof.Machine.execPowerWindow meanWatts s
  | .refreshSlotStart col bank => Sys2Proof.Machine.execRefreshSlotStart col bank s
  | .rowOpenTooLong col bank tAct => Sys2Proof.Machine.execRowOpenTooLong col bank tAct s
  | .hostMemoryRequest fn off n kind tag => Sys2Proof.Machine.execHostMemoryRequest fn off n kind tag s
  | .hostAtomicop fn bar off n op b e tag => Sys2Proof.Machine.execHostAtomicop fn bar off n op b e tag s
  | .portUp port rx tx peer => Sys2Proof.Machine.execPortUp port rx tx peer s
  | .hello l port fabid => Sys2Proof.Machine.execHello l port fabid s
  | .peerTlpArrival l port seq tlp => Sys2Proof.Machine.execPeerTlpArrival l port seq tlp s
  | .stage n v => Sys2Proof.Machine.execStage n v s
  | .tkgive l core j c => Sys2Proof.Machine.execTkgive l core j c s
  | .fixarr src p leg stage cnt => Sys2Proof.Machine.execFixarr src p leg stage cnt s
  | .fixrel src p leg course => Sys2Proof.Machine.execFixrel src p leg course s
  | .stop l ident cause => Sys2Proof.Machine.execStop l ident cause s
  | .stopDelayedSend ident cause p => Sys2Proof.Machine.execStopDelayedSend ident cause p s
  | .completionTimeout id => Sys2Proof.Machine.execCompletionTimeout id s
  | .completionArrival id status bytes => Sys2Proof.Machine.execCompletionArrival id status bytes s
  | .ideIntegrityFailure port => Sys2Proof.Machine.execIdeIntegrityFailure port s
  | .counterLowRead port rx => Sys2Proof.Machine.execCounterLowRead port rx s
  | .keySlotWrite j dw v => Sys2Proof.Machine.execKeySlotWrite j dw v s
  | .keySlotWriteApply j => Sys2Proof.Machine.execKeySlotWriteApply j s
  | .launchGo p tag => Sys2Proof.Machine.execLaunchGo p tag s
  | .abort p tag => Sys2Proof.Machine.execAbort p tag s
  | .launchCheck p slot => Sys2Proof.Machine.execLaunchCheck p slot s
  | .overlayLoad p slot => Sys2Proof.Machine.execOverlayLoad p slot s
  | .contextStart p slot => Sys2Proof.Machine.execContextStart p slot s
  | .spdmChallenge nonce => Sys2Proof.Machine.execSpdmChallenge nonce s
  | .spdmGetMeasurements index signed => Sys2Proof.Machine.execSpdmGetMeasurements index signed s
  | .rwinWrite core win hi v => Sys2Proof.Machine.execRwinWrite core win hi v s
  | .rwinApply core win hi v => Sys2Proof.Machine.execRwinApply core win hi v s
  | .pageWalk id => Sys2Proof.Machine.execPageWalk id s
  | .accessResponse id => Sys2Proof.Machine.execAccessResponse id s
  | .refusalRetry id => Sys2Proof.Machine.execRefusalRetry id s
  | .fqheadWrite p v => Sys2Proof.Machine.execFqheadWrite p v s
  | .mgcqheadWrite v => Sys2Proof.Machine.execMgcqheadWrite v s
  | .atsInvalidation addr n => Sys2Proof.Machine.execAtsInvalidation addr n s
  | .peerRequest l q ia n kind tag => Sys2Proof.Machine.execPeerRequest l q ia n kind tag s
  | .dueCycleMiss core leg => Sys2Proof.Machine.execDueCycleMiss core leg s
  | .fixComplete p grp => Sys2Proof.Machine.execFixComplete p grp s
  | .fixRelease p grp => Sys2Proof.Machine.execFixRelease p grp s
  | .resumeFix p grp => Sys2Proof.Machine.execResumeFix p grp s
  | .rowReactivation col bank row => Sys2Proof.Machine.execRowReactivation col bank row s
  | .lookoutT1 core eng => Sys2Proof.Machine.execLookoutT1 core eng s
  | .lookoutT2 core eng => Sys2Proof.Machine.execLookoutT2 core eng s
  | .lookoutT3 core eng => Sys2Proof.Machine.execLookoutT3 core eng s
  | .scanAddressWrite addr => Sys2Proof.Machine.execScanAddressWrite addr s
  | .checkpointRequest p leg => Sys2Proof.Machine.execCheckpointRequest p leg s
  | .registerWrite fn bar off n v => Sys2Proof.Machine.execRegisterWrite fn bar off n v s
  | .wordRetire core id => Sys2Proof.Machine.execWordRetire core id s
  | .rowBeatFailure col beat => Sys2Proof.Machine.execRowBeatFailure col beat s
  | .commandEntry core id => Sys2Proof.Machine.execCommandEntry core id s
  | .sectorDone core cmd sector => Sys2Proof.Machine.execSectorDone core cmd sector s
  | .commandComplete core cmd => Sys2Proof.Machine.execCommandComplete core cmd s
  | .unassignedEncoding h => Sys2Proof.Machine.execUnassignedEncoding h s
  | .prechargeComplete col bank => Sys2Proof.Machine.execPrechargeComplete col bank s
  | .rowBeatDelivery col beat => Sys2Proof.Machine.execRowBeatDelivery col beat s
  | .hostLinkUp how => Sys2Proof.Machine.execHostLinkUp how s
  | .flitReplay port corrected => Sys2Proof.Machine.execFlitReplay port corrected s
  | .hostConfigurationRequest fn op => Sys2Proof.Machine.execHostConfigurationRequest fn op s
  | .stopRecordRefusalTimeout p core eng => Sys2Proof.Machine.execStopRecordRefusalTimeout p core eng s
  | .coldReset => Sys2Proof.Machine.execColdReset s
  | .bootComplete => Sys2Proof.Machine.execBootComplete s
  | .warmReset => Sys2Proof.Machine.execWarmReset s
  | .partitionReset => Sys2Proof.Machine.execPartitionReset s
  | .powerLoss => Sys2Proof.Machine.execPowerLoss s
  | .thermalEmergency => Sys2Proof.Machine.execThermalEmergency s
  | .supplyEmergency => Sys2Proof.Machine.execSupplyEmergency s
  | .quiesce => Sys2Proof.Machine.execQuiesce s
  | .commit => Sys2Proof.Machine.execCommit s
  | .surveyCommandDone => Sys2Proof.Machine.execSurveyCommandDone s
  | .hotonCrossing => Sys2Proof.Machine.execHotonCrossing s
  | .hotoffCrossing => Sys2Proof.Machine.execHotoffCrossing s
  | .refreshPeriodChange => Sys2Proof.Machine.execRefreshPeriodChange s
  | .refreshDeadline => Sys2Proof.Machine.execRefreshDeadline s
  | .hostVendorMessage => Sys2Proof.Machine.execHostVendorMessage s
  | .hostLinkDown => Sys2Proof.Machine.execHostLinkDown s
  | .portLeavesUp => Sys2Proof.Machine.execPortLeavesUp s
  | .portReturnsUp => Sys2Proof.Machine.execPortReturnsUp s
  | .linkDownTimeout => Sys2Proof.Machine.execLinkDownTimeout s
  | .linkEnable => Sys2Proof.Machine.execLinkEnable s
  | .linkDisable => Sys2Proof.Machine.execLinkDisable s
  | .stripeGapTimeout => Sys2Proof.Machine.execStripeGapTimeout s
  | .freeze => Sys2Proof.Machine.execFreeze s
  | .thaw => Sys2Proof.Machine.execThaw s
  | .warmrst => Sys2Proof.Machine.execWarmrst s
  | .emclear => Sys2Proof.Machine.execEmclear s
  | .fwstage => Sys2Proof.Machine.execFwstage s
  | .partapply => Sys2Proof.Machine.execPartapply s
  | .hcmdComplete => Sys2Proof.Machine.execHcmdComplete s
  | .bankToRow => Sys2Proof.Machine.execBankToRow s
  | .bankToPool => Sys2Proof.Machine.execBankToPool s
  | .bmctlDone => Sys2Proof.Machine.execBmctlDone s
  | .inval => Sys2Proof.Machine.execInval s
  | .preload => Sys2Proof.Machine.execPreload s
  | .shootdownDone => Sys2Proof.Machine.execShootdownDone s
  | .migrationGo => Sys2Proof.Machine.execMigrationGo s
  | .alloc => Sys2Proof.Machine.execAlloc s
  | .free => Sys2Proof.Machine.execFree s
  | .move => Sys2Proof.Machine.execMove s
  | .moveDone => Sys2Proof.Machine.execMoveDone s
  | .promotion => Sys2Proof.Machine.execPromotion s
  | .coreArrival => Sys2Proof.Machine.execCoreArrival s
  | .helmSchedule => Sys2Proof.Machine.execHelmSchedule s
  | .quantumExpiry => Sys2Proof.Machine.execQuantumExpiry s
  | .preemptionRequest => Sys2Proof.Machine.execPreemptionRequest s
  | .preemptionComplete => Sys2Proof.Machine.execPreemptionComplete s
  | .switchEnd => Sys2Proof.Machine.execSwitchEnd s
  | .replayInjection => Sys2Proof.Machine.execReplayInjection s
  | .partitionHalt => Sys2Proof.Machine.execPartitionHalt s
  | .resume => Sys2Proof.Machine.execResume s
  | .frzctlFreeze => Sys2Proof.Machine.execFrzctlFreeze s
  | .frzctlRelease => Sys2Proof.Machine.execFrzctlRelease s
  | .freezeTimeout => Sys2Proof.Machine.execFreezeTimeout s
  | .accessGeneration => Sys2Proof.Machine.execAccessGeneration s
  | .stqSlotPerform => Sys2Proof.Machine.execStqSlotPerform s
  | .replayQueueLeave => Sys2Proof.Machine.execReplayQueueLeave s
  | .busRepair => Sys2Proof.Machine.execBusRepair s
  | .statWindowStart => Sys2Proof.Machine.execStatWindowStart s
  | .sectorStart => Sys2Proof.Machine.execSectorStart s
  | .followOnIssue => Sys2Proof.Machine.execFollowOnIssue s
  | .emergencyConditionCleared => Sys2Proof.Machine.execEmergencyConditionCleared s

end Sys2Proof.Machine
end

