-- ==== Sys2Proof/Machine/Occur.lean ====
section
/-! DEFINITION. What the environment does to the module besides the rows of the opcode table (log 63): temperatures, corrected and
uncorrectable errors, supply windows, contention of walks. Each one acts through the rows it is the cause of. -/

namespace Sys2Proof.Machine

/-- Whether any temperature of the module calls for the emergency of R43. -/
def State.tooHot (s : State) : Bool :=
  s.cols.any fun x => decide (logicLimit ≤ x.2.tlogic.toNat) || x.2.layers.toList.any fun t => decide (layerLimit ≤ t.toNat)

/-- Puts an event of a column on the agenda when a condition holds. -/
def State.schedIf (s : State) (b : Bool) (t : Nat) (c : CoreIx) (i : Instr) : State := if b then s.schedC t c i else s

/-- The timer of a layer: it starts as the layer reaches 92 °C and ends with a fall below it (R36). -/
def State.layerTimer (s : State) (c : CoreIx) (l : Fin 4) (old new : Nat) : State :=
  if new < pendHeat then { s with agenda := s.agenda.filter fun e => e.instr != Instr.pendOnHeat c l }
  else s.schedIf (decide (old < pendHeat)) (s.chron + 2 ^ 24) c (.pendOnHeat c l)

/-- The end of an emergency's condition: no sensor and no supply calls for one any longer (R43). -/
def State.emergencyEnds (s : State) (c : CoreIx) : State :=
  s.schedIf (s.helm.emCond && !s.tooHot && !s.helm.supplyBad) s.chron c .emergencyConditionCleared

/-- A column's sensors report the temperature of its logic die and of each DRAM layer: the crossings of HOTON, HOTOFF and REFLIM by the
hottest layer, the timers of R36, an emergency and its end follow. A rise past HOTON and REFLIM at once reaches the deadline a cycle later,
once a change that takes effect at once has done so (R32, R36, R40, R41, R43). -/
def State.temperature (s : State) (c : CoreIx) (tlogic : BitVec 12) (layers : Vector (BitVec 12) 4) : State :=
  let was := s.tooHot
  let before_ := (s.col c).layers
  let old := (s.col c).tdram.toNat
  let s := s.updCol c fun k => { k with tlogic := tlogic, layers := layers }
  let new := (s.col c).tdram.toNat
  let s := s.schedIf (decide (old < hotOn) && decide (hotOn ≤ new)) s.chron c .hotonCrossing
  let s := s.schedIf (decide (hotOff ≤ old) && decide (new < hotOff)) s.chron c .hotoffCrossing
  let s := s.schedIf (decide (old < refLim) && decide (refLim ≤ new)) (if old < hotOn then s.chron + 1 else s.chron) c .refreshDeadline
  let s := (List.finRange 4).foldl (fun s l => s.layerTimer c l before_[l].toNat layers[l].toNat) s
  (s.schedIf (!was && s.tooHot) s.chron c .thermalEmergency).emergencyEnds c

/-- A corrected error of a DRAM bank: CECNT, and PEND_ON_ERRORS once more than 64 fall within 2^28 cycles (R32, R36, R218). -/
def State.correctedError (s : State) (c : CoreIx) (b : Fin 32) : State :=
  let now := s.chron
  let s := s.updCol c fun k =>
    { k.addErrors 1 with errs := (k.errs.filter fun x => decide (now < x.2 + errorWindow)) ++ [(b.val, now)] }
  s.schedIf (decide (64 < (s.col c).errorsOf b.val now)) now c (.pendOnErrors c b)

/-- A double-bit error in the scratchpad, the slice SRAM, a queue or a register of a core: machine check 0x77 in its partition; the word
or the access whose data it is delivers nothing (R193). -/
def State.hardError (s : State) (c : CoreIx) (read : Nat) : State :=
  let s := { s with reqs := s.reqs.filter fun r => !(r.core == c && r.id == read) }
  let s := s.upd c fun k => { k with pipe := { k.pipe with infl := k.pipe.infl.filter fun w => w.id != read } }
  match s.partOf c with
  | some p => s.partFault p 0x77
  | none => s

/-- A supply leaves its window, which is an emergency after 1,400 cycles of it, or is back in it (R43). -/
def State.supply (s : State) (good : Bool) : State :=
  let s := { s with helm := { s.helm with supplyBad := !good } }
  if good then ({ s with agenda := s.agenda.filter fun e => e.instr != Instr.supplyEmergency }).emergencyEnds s.cur
  else s.schedIf (s.agenda.all fun e => e.instr != Instr.supplyEmergency) (s.helmClock + 1400) s.cur .supplyEmergency

/-- What an occurrence does. -/
def State.occur (s : State) : Occurrence → State
  | .temperature c tl ls => s.temperature c tl ls
  | .corrected c b => s.correctedError c b
  | .softError c => s.upd c fun k => { k with ctl := { k.ctl with secnt := satInc k.ctl.secnt } }
  | .hardError c read => s.hardError c read
  | .lpddrLost pa => { s with ms := { s.ms with lost := (s.ms.lost.filter fun x => x != pa) ++ [pa] } }
  | .supply good => s.supply good
  | .walkBusy p page t =>
    { s with ms := { s.ms with walks := (s.ms.walks.filter fun x => decide (s.chron < x.2.2)) ++ [(p.val, page, t)] } }

end Sys2Proof.Machine
end

