-- ==== Sys2Proof/Machine/Step.lean ====
section
/-! DEFINITION. One step of the module: the next thing that happens, whole, with its meaning. -/

namespace Sys2Proof.Machine

/-- Runs an input or a scheduled event. -/
def State.runEv (s : State) (e : Ev) : Host.Outcome State Fault Refusal := exec e.instr (s.at_ e)

/-- Runs what `pick` answers. -/
def State.run (s : State) : Pick → Host.Outcome State Fault Refusal
  | .idle => .next { s with chron := s.chron + 1 }
  | .occur o r => .next ((({ s with occurs := r, chron := max s.chron o.cycle }).occur o.what))
  | .input e r => ({ s with inputs := r }).runEv e
  | .event e r => ({ s with agenda := r }).runEv e
  | .issue x => match x.word with
    | some w => exec (wordInstr x.eng w) (s.atIssue x)
    | none => .next ((s.atIssue x).beyond x)
  | .look x => exec x.instr { s with chron := max s.chron x.t, cur := x.core, curPart := (s.partOf x.core).getD s.curPart }

/-- Runs what `pickFrozen` answers: CHRON stands still (R164). -/
def State.runFrozen (s : State) : Pick → Host.Outcome State Fault Refusal
  | .occur o r => .next (({ s with occurs := r }).occur o.what)
  | .input e r => exec e.instr { s with inputs := r, cur := e.core, curPart := e.part, curLink := e.link }
  | .event e r => exec e.instr { s with agenda := r, cur := e.core, curPart := e.part, curLink := e.link }
  | _ => if freezeLimit ≤ s.frozen + 1 then exec .freezeTimeout s else .next { s with frozen := s.frozen + 1 }

/-- One step. Without power only COLD_RESET acts (R26, R46). -/
def step (s : State) : Host.Outcome State Fault Refusal :=
  if s.off then
    match s.inputs with
    | [] => .fault .poweredOff
    | e :: r => if e.instr = .coldReset then ({ s with inputs := r }).runEv e else .next { s with inputs := r }
  else if s.isFrozen then s.runFrozen s.pickFrozen
  else s.run s.pick

/-- The module with an instruction stored where `step` fetches next. Words have 32 bits (R268). -/
def State.withFetchWord (s : State) (_nbits w : Nat) : State := s.placed w

end Sys2Proof.Machine
end

