-- ==== Sys2Proof/Laws/PerInstr.lean ====
section
/-! SUPPORT. Statements made per instruction. RoundTrip: the word the encoder gives a well-formed instruction decodes, in each
section that assigns it, to that instruction. -/

set_option Elab.async false
set_option linter.unusedSimpArgs false
set_option linter.unusedVariables false

namespace Sys2Proof

open Sys2Proof.Machine

/-- The word of a well-formed instruction has 32 bits and decodes to it in every section that assigns it. -/
def Laws.RoundTrip.Statement (i : Instr) : Prop :=
  ∀ w, encode i = some w → i.wf = true → w < 2 ^ 32 ∧ ∀ e ∈ sectionsOf i, decode e w = .ok i

namespace Laws

theorem ofBool_lt (b : Bool) : ofBool b < 2 := by cases b <;> decide

theorem beq_ofBool (b : Bool) : (ofBool b == 1) = b := by cases b <;> rfl

/-- The header of a word is that it was built from (R268). -/
theorem hdrOf_word (h : Hdr) {w r : Nat} (hr : r < 2 ^ 27) (hw : w = hdrWord h + r) : hdrOf w = h := by
  obtain ⟨a, t, g⟩ := h
  have ha := a.isLt
  have e1 : fld w 31 29 = a.toNat := by
    subst hw; cases t <;> cases g <;> simp only [fld, hdrWord, ofBool] <;> norm_num <;> omega
  have e2 : fld w 28 28 = ofBool t := by
    subst hw; cases t <;> cases g <;> simp only [fld, hdrWord, ofBool] <;> norm_num <;> omega
  have e3 : fld w 27 27 = ofBool g := by
    subst hw; cases t <;> cases g <;> simp only [fld, hdrWord, ofBool] <;> norm_num <;> omega
  unfold hdrOf; rw [e1, e2, e3]
  cases t <;> cases g <;> simp [ofBool]

theorem word_lt (h : Hdr) {w r : Nat} (hr : r < 2 ^ 27) (hw : w = hdrWord h + r) : w < 2 ^ 32 := by
  have a := h.w.isLt; have t := ofBool_lt h.t; have g := ofBool_lt h.g
  simp only [hdrWord] at hw; omega

/-- A field inside the low 27 bits does not see the header. -/
theorem fld_word (h : Hdr) {w r x : Nat} (hw : w = hdrWord h + r) {hi lo : Nat} (hl : hi < 27) (h2 : lo ≤ hi) (e : fld r hi lo = x) :
    fld w hi lo = x := by
  subst e
  subst hw
  have : hdrWord h = 2 ^ (hi + 1) * (2 ^ (26 - hi) * (h.w.toNat * 4 + ofBool h.t * 2 + ofBool h.g)) := by
    rw [← mul_assoc, ← pow_add, show hi + 1 + (26 - hi) = 27 by omega]; unfold hdrWord; ring
  rw [this]; unfold fld
  obtain ⟨k, hk⟩ : ∃ k, hi + 1 = lo + k := ⟨hi + 1 - lo, by omega⟩
  rw [show hi + 1 - lo = k by omega, hk, pow_add, mul_assoc, Nat.mul_add_div (by positivity), Nat.mul_add_mod]

theorem decode_of_seq {w : Nat} {i : Instr} (h : rawSeq w = .ok i) (hf : i.wf = true) : decode .seq w = .ok i := by
  simp [decode, h, hf]

theorem decode_of_axu {w : Nat} {i : Instr} (h : rawAxu w = .ok i) (hf : i.wf = true) : decode .axu w = .ok i := by
  simp [decode, h, hf]

theorem decode_of_bke {w : Nat} {i : Instr} (h : rawBke w = .ok i) (hf : i.wf = true) : decode .bke w = .ok i := by
  simp [decode, h, hf]

theorem decode_of_vec {w : Nat} {i : Instr} (h : rawVec w = .ok i) (hf : i.wf = true) : decode .vec w = .ok i := by
  simp [decode, h, hf]

/-! ## The layouts of a word: its fields are those it was built from -/

/-- Widths of the fields of a layout, together. -/
def widF : List (Nat × Nat) → Nat
  | [] => 0
  | (_, k) :: r => k + widF r

/-- The number whose fields, most significant first, are the given values of the given widths. -/
def packF : List (Nat × Nat) → Nat
  | [] => 0
  | (x, k) :: r => x * 2 ^ widF r + packF r

/-- Every value fits its width. -/
def Fits : List (Nat × Nat) → Prop
  | [] => True
  | (x, k) :: r => x < 2 ^ k ∧ Fits r

theorem packF_lt {l : List (Nat × Nat)} (h : Fits l) : packF l < 2 ^ widF l := by
  induction l with
  | nil => simp [packF, widF]
  | cons p r ih =>
    obtain ⟨x, k⟩ := p
    have := ih h.2
    have hx : x + 1 ≤ 2 ^ k := h.1
    calc packF ((x, k) :: r) < x * 2 ^ widF r + 2 ^ widF r := by simp only [packF]; omega
      _ = (x + 1) * 2 ^ widF r := by ring
      _ ≤ 2 ^ k * 2 ^ widF r := Nat.mul_le_mul_right _ hx
      _ = 2 ^ widF ((x, k) :: r) := by rw [← pow_add]; rfl

theorem widF_append (a b : List (Nat × Nat)) : widF (a ++ b) = widF a + widF b := by
  induction a with
  | nil => simp [widF]
  | cons q t it => obtain ⟨x, k⟩ := q; simp only [List.cons_append, widF, it]; omega

theorem packF_fld {pre post : List (Nat × Nat)} {x k : Nat} (hk : 0 < k) (h : Fits (pre ++ (x, k) :: post)) :
    fld (packF (pre ++ (x, k) :: post)) (widF post + k - 1) (widF post) = x := by
  have e : widF post + k - 1 + 1 - widF post = k := by omega
  induction pre with
  | nil =>
    have hp := packF_lt h.2
    have hx : x < 2 ^ k := h.1
    simp only [List.nil_append, packF, fld, e]
    rw [mul_comm, Nat.mul_add_div (by positivity), Nat.div_eq_of_lt hp, Nat.add_zero, Nat.mod_eq_of_lt hx]
  | cons p r ih =>
    obtain ⟨y, j⟩ := p
    have ih := ih h.2
    have w : widF (r ++ (x, k) :: post) = widF r + (k + widF post) := widF_append r ((x, k) :: post)
    simp only [List.cons_append, packF, fld, e] at *
    rw [w, show y * 2 ^ (widF r + (k + widF post)) = 2 ^ widF post * (2 ^ k * (y * 2 ^ widF r)) by rw [pow_add, pow_add]; ring,
      Nat.mul_add_div (by positivity), Nat.mul_add_mod]
    exact ih

/-- A word built from a header and 27 bits of fields has that header and those fields. -/
theorem fields (h : Hdr) {w : Nat} (l : List (Nat × Nat)) (hw : w = hdrWord h + packF l) (h27 : widF l = 27) (hf : Fits l) :
    hdrOf w = h ∧ w < 2 ^ 32 ∧ ∀ pre x k post, l = pre ++ (x, k + 1) :: post → fld w (widF post + k) (widF post) = x := by
  have hlt : packF l < 2 ^ 27 := by have := packF_lt hf; rwa [h27] at this
  refine ⟨hdrOf_word h hlt hw, word_lt h hlt hw, fun pre x k post e => ?_⟩
  subst e
  have hwid : widF (pre ++ (x, k + 1) :: post) = widF pre + (k + 1 + widF post) := widF_append pre ((x, k + 1) :: post)
  exact fld_word h hw (by omega) (by omega) (by simpa using packF_fld (k := k + 1) (by omega) hf)

end Laws

/-! ## One lemma per constructor -/

open Laws

theorem Laws.RoundTrip.nop (h : Hdr) : Laws.RoundTrip.Statement (.nop h) := by
  intro w hw hf
  simp only [encode, encWord, Option.some.injEq] at hw
  obtain ⟨eh, hlt, F⟩ := fields h (w := w) [(0, 6), (0, 21)] (by simp only [packF, widF]; omega) rfl ⟨by omega, by omega, trivial⟩
  have f0 : fld w 26 21 = 0 := F [] 0 5 [(0, 21)] rfl
  have f1 : fld w 20 0 = 0 := F [(0, 6)] 0 20 [] rfl
  refine ⟨hlt, fun e he => ?_⟩
  rcases (show e = .seq ∨ e = .axu ∨ e = .bke ∨ e = .vec by simpa [sectionsOf] using he) with rfl | rfl | rfl | rfl
  · refine decode_of_seq ?_ hf
    unfold rawSeq
    rw [f0]
    dsimp only [cellSeq]
    simp [eh, f1]
  · refine decode_of_axu ?_ hf
    unfold rawAxu
    rw [f0]
    dsimp only [cellAxu]
    simp [eh, f1]
  · refine decode_of_bke ?_ hf
    unfold rawBke
    rw [f0]
    dsimp only [cellBke]
    simp [eh, f1]
  · refine decode_of_vec ?_ hf
    unfold rawVec
    rw [f0]
    dsimp only [cellVec]
    simp [eh, f1]

theorem Laws.RoundTrip.idle (h : Hdr) (c : BitVec 21) : Laws.RoundTrip.Statement (.idle h c) := by
  intro w hw hf
  simp only [encode, encWord, Option.some.injEq] at hw
  have b0 := c.isLt
  obtain ⟨eh, hlt, F⟩ := fields h (w := w) [(1, 6), (c.toNat, 21)] (by simp only [packF, widF]; omega) rfl ⟨by omega, by omega, trivial⟩
  have f0 : fld w 26 21 = 1 := F [] 1 5 [(c.toNat, 21)] rfl
  have f1 : fld w 20 0 = c.toNat := F [(1, 6)] (c.toNat) 20 [] rfl
  refine ⟨hlt, fun e he => ?_⟩
  rcases (show e = .axu ∨ e = .bke ∨ e = .vec by simpa [sectionsOf] using he) with rfl | rfl | rfl
  · refine decode_of_axu ?_ hf
    unfold rawAxu
    rw [f0]
    dsimp only [cellAxu]
    simp [eh, f1]
  · refine decode_of_bke ?_ hf
    unfold rawBke
    rw [f0]
    dsimp only [cellBke]
    simp [eh, f1]
  · refine decode_of_vec ?_ hf
    unfold rawVec
    rw [f0]
    dsimp only [cellVec]
    simp [eh, f1]

theorem Laws.RoundTrip.add (h : Hdr) (d : Fin 32) (a : Fin 32) (b : Fin 32) : Laws.RoundTrip.Statement (.add h d a b) := by
  intro w hw hf
  simp only [encode, encWord, Option.some.injEq] at hw
  have b0 := d.isLt
  have b1 := a.isLt
  have b2 := b.isLt
  obtain ⟨eh, hlt, F⟩ := fields h (w := w) [(1, 6), (d.val, 5), (a.val, 5), (b.val, 5), (0, 6)] (by simp only [packF, widF]; omega) rfl ⟨by omega, by omega, by omega, by omega, by omega, trivial⟩
  have f0 : fld w 26 21 = 1 := F [] 1 5 [(d.val, 5), (a.val, 5), (b.val, 5), (0, 6)] rfl
  have f1 : fld w 20 16 = d.val := F [(1, 6)] (d.val) 4 [(a.val, 5), (b.val, 5), (0, 6)] rfl
  have f2 : fld w 15 11 = a.val := F [(1, 6), (d.val, 5)] (a.val) 4 [(b.val, 5), (0, 6)] rfl
  have f3 : fld w 10 6 = b.val := F [(1, 6), (d.val, 5), (a.val, 5)] (b.val) 4 [(0, 6)] rfl
  have f4 : fld w 5 0 = 0 := F [(1, 6), (d.val, 5), (a.val, 5), (b.val, 5)] 0 5 [] rfl
  refine ⟨hlt, fun e he => ?_⟩
  obtain rfl : e = .seq := by simpa [sectionsOf] using he
  refine decode_of_seq ?_ hf
  unfold rawSeq
  rw [f0]
  show rawAlu w = _
  unfold rawAlu
  rw [f4]
  dsimp only [cellAlu]
  simp [eh, f1, f2, f3]

theorem Laws.RoundTrip.sub (h : Hdr) (d : Fin 32) (a : Fin 32) (b : Fin 32) : Laws.RoundTrip.Statement (.sub h d a b) := by
  intro w hw hf
  simp only [encode, encWord, Option.some.injEq] at hw
  have b0 := d.isLt
  have b1 := a.isLt
  have b2 := b.isLt
  obtain ⟨eh, hlt, F⟩ := fields h (w := w) [(1, 6), (d.val, 5), (a.val, 5), (b.val, 5), (1, 6)] (by simp only [packF, widF]; omega) rfl ⟨by omega, by omega, by omega, by omega, by omega, trivial⟩
  have f0 : fld w 26 21 = 1 := F [] 1 5 [(d.val, 5), (a.val, 5), (b.val, 5), (1, 6)] rfl
  have f1 : fld w 20 16 = d.val := F [(1, 6)] (d.val) 4 [(a.val, 5), (b.val, 5), (1, 6)] rfl
  have f2 : fld w 15 11 = a.val := F [(1, 6), (d.val, 5)] (a.val) 4 [(b.val, 5), (1, 6)] rfl
  have f3 : fld w 10 6 = b.val := F [(1, 6), (d.val, 5), (a.val, 5)] (b.val) 4 [(1, 6)] rfl
  have f4 : fld w 5 0 = 1 := F [(1, 6), (d.val, 5), (a.val, 5), (b.val, 5)] 1 5 [] rfl
  refine ⟨hlt, fun e he => ?_⟩
  obtain rfl : e = .seq := by simpa [sectionsOf] using he
  refine decode_of_seq ?_ hf
  unfold rawSeq
  rw [f0]
  show rawAlu w = _
  unfold rawAlu
  rw [f4]
  dsimp only [cellAlu]
  simp [eh, f1, f2, f3]

theorem Laws.RoundTrip.and (h : Hdr) (d : Fin 32) (a : Fin 32) (b : Fin 32) : Laws.RoundTrip.Statement (.and h d a b) := by
  intro w hw hf
  simp only [encode, encWord, Option.some.injEq] at hw
  have b0 := d.isLt
  have b1 := a.isLt
  have b2 := b.isLt
  obtain ⟨eh, hlt, F⟩ := fields h (w := w) [(1, 6), (d.val, 5), (a.val, 5), (b.val, 5), (2, 6)] (by simp only [packF, widF]; omega) rfl ⟨by omega, by omega, by omega, by omega, by omega, trivial⟩
  have f0 : fld w 26 21 = 1 := F [] 1 5 [(d.val, 5), (a.val, 5), (b.val, 5), (2, 6)] rfl
  have f1 : fld w 20 16 = d.val := F [(1, 6)] (d.val) 4 [(a.val, 5), (b.val, 5), (2, 6)] rfl
  have f2 : fld w 15 11 = a.val := F [(1, 6), (d.val, 5)] (a.val) 4 [(b.val, 5), (2, 6)] rfl
  have f3 : fld w 10 6 = b.val := F [(1, 6), (d.val, 5), (a.val, 5)] (b.val) 4 [(2, 6)] rfl
  have f4 : fld w 5 0 = 2 := F [(1, 6), (d.val, 5), (a.val, 5), (b.val, 5)] 2 5 [] rfl
  refine ⟨hlt, fun e he => ?_⟩
  obtain rfl : e = .seq := by simpa [sectionsOf] using he
  refine decode_of_seq ?_ hf
  unfold rawSeq
  rw [f0]
  show rawAlu w = _
  unfold rawAlu
  rw [f4]
  dsimp only [cellAlu]
  simp [eh, f1, f2, f3]

theorem Laws.RoundTrip.or (h : Hdr) (d : Fin 32) (a : Fin 32) (b : Fin 32) : Laws.RoundTrip.Statement (.or h d a b) := by
  intro w hw hf
  simp only [encode, encWord, Option.some.injEq] at hw
  have b0 := d.isLt
  have b1 := a.isLt
  have b2 := b.isLt
  obtain ⟨eh, hlt, F⟩ := fields h (w := w) [(1, 6), (d.val, 5), (a.val, 5), (b.val, 5), (3, 6)] (by simp only [packF, widF]; omega) rfl ⟨by omega, by omega, by omega, by omega, by omega, trivial⟩
  have f0 : fld w 26 21 = 1 := F [] 1 5 [(d.val, 5), (a.val, 5), (b.val, 5), (3, 6)] rfl
  have f1 : fld w 20 16 = d.val := F [(1, 6)] (d.val) 4 [(a.val, 5), (b.val, 5), (3, 6)] rfl
  have f2 : fld w 15 11 = a.val := F [(1, 6), (d.val, 5)] (a.val) 4 [(b.val, 5), (3, 6)] rfl
  have f3 : fld w 10 6 = b.val := F [(1, 6), (d.val, 5), (a.val, 5)] (b.val) 4 [(3, 6)] rfl
  have f4 : fld w 5 0 = 3 := F [(1, 6), (d.val, 5), (a.val, 5), (b.val, 5)] 3 5 [] rfl
  refine ⟨hlt, fun e he => ?_⟩
  obtain rfl : e = .seq := by simpa [sectionsOf] using he
  refine decode_of_seq ?_ hf
  unfold rawSeq
  rw [f0]
  show rawAlu w = _
  unfold rawAlu
  rw [f4]
  dsimp only [cellAlu]
  simp [eh, f1, f2, f3]

theorem Laws.RoundTrip.xor (h : Hdr) (d : Fin 32) (a : Fin 32) (b : Fin 32) : Laws.RoundTrip.Statement (.xor h d a b) := by
  intro w hw hf
  simp only [encode, encWord, Option.some.injEq] at hw
  have b0 := d.isLt
  have b1 := a.isLt
  have b2 := b.isLt
  obtain ⟨eh, hlt, F⟩ := fields h (w := w) [(1, 6), (d.val, 5), (a.val, 5), (b.val, 5), (4, 6)] (by simp only [packF, widF]; omega) rfl ⟨by omega, by omega, by omega, by omega, by omega, trivial⟩
  have f0 : fld w 26 21 = 1 := F [] 1 5 [(d.val, 5), (a.val, 5), (b.val, 5), (4, 6)] rfl
  have f1 : fld w 20 16 = d.val := F [(1, 6)] (d.val) 4 [(a.val, 5), (b.val, 5), (4, 6)] rfl
  have f2 : fld w 15 11 = a.val := F [(1, 6), (d.val, 5)] (a.val) 4 [(b.val, 5), (4, 6)] rfl
  have f3 : fld w 10 6 = b.val := F [(1, 6), (d.val, 5), (a.val, 5)] (b.val) 4 [(4, 6)] rfl
  have f4 : fld w 5 0 = 4 := F [(1, 6), (d.val, 5), (a.val, 5), (b.val, 5)] 4 5 [] rfl
  refine ⟨hlt, fun e he => ?_⟩
  obtain rfl : e = .seq := by simpa [sectionsOf] using he
  refine decode_of_seq ?_ hf
  unfold rawSeq
  rw [f0]
  show rawAlu w = _
  unfold rawAlu
  rw [f4]
  dsimp only [cellAlu]
  simp [eh, f1, f2, f3]

theorem Laws.RoundTrip.sll (h : Hdr) (d : Fin 32) (a : Fin 32) (b : Fin 32) : Laws.RoundTrip.Statement (.sll h d a b) := by
  intro w hw hf
  simp only [encode, encWord, Option.some.injEq] at hw
  have b0 := d.isLt
  have b1 := a.isLt
  have b2 := b.isLt
  obtain ⟨eh, hlt, F⟩ := fields h (w := w) [(1, 6), (d.val, 5), (a.val, 5), (b.val, 5), (5, 6)] (by simp only [packF, widF]; omega) rfl ⟨by omega, by omega, by omega, by omega, by omega, trivial⟩
  have f0 : fld w 26 21 = 1 := F [] 1 5 [(d.val, 5), (a.val, 5), (b.val, 5), (5, 6)] rfl
  have f1 : fld w 20 16 = d.val := F [(1, 6)] (d.val) 4 [(a.val, 5), (b.val, 5), (5, 6)] rfl
  have f2 : fld w 15 11 = a.val := F [(1, 6), (d.val, 5)] (a.val) 4 [(b.val, 5), (5, 6)] rfl
  have f3 : fld w 10 6 = b.val := F [(1, 6), (d.val, 5), (a.val, 5)] (b.val) 4 [(5, 6)] rfl
  have f4 : fld w 5 0 = 5 := F [(1, 6), (d.val, 5), (a.val, 5), (b.val, 5)] 5 5 [] rfl
  refine ⟨hlt, fun e he => ?_⟩
  obtain rfl : e = .seq := by simpa [sectionsOf] using he
  refine decode_of_seq ?_ hf
  unfold rawSeq
  rw [f0]
  show rawAlu w = _
  unfold rawAlu
  rw [f4]
  dsimp only [cellAlu]
  simp [eh, f1, f2, f3]

theorem Laws.RoundTrip.srl (h : Hdr) (d : Fin 32) (a : Fin 32) (b : Fin 32) : Laws.RoundTrip.Statement (.srl h d a b) := by
  intro w hw hf
  simp only [encode, encWord, Option.some.injEq] at hw
  have b0 := d.isLt
  have b1 := a.isLt
  have b2 := b.isLt
  obtain ⟨eh, hlt, F⟩ := fields h (w := w) [(1, 6), (d.val, 5), (a.val, 5), (b.val, 5), (6, 6)] (by simp only [packF, widF]; omega) rfl ⟨by omega, by omega, by omega, by omega, by omega, trivial⟩
  have f0 : fld w 26 21 = 1 := F [] 1 5 [(d.val, 5), (a.val, 5), (b.val, 5), (6, 6)] rfl
  have f1 : fld w 20 16 = d.val := F [(1, 6)] (d.val) 4 [(a.val, 5), (b.val, 5), (6, 6)] rfl
  have f2 : fld w 15 11 = a.val := F [(1, 6), (d.val, 5)] (a.val) 4 [(b.val, 5), (6, 6)] rfl
  have f3 : fld w 10 6 = b.val := F [(1, 6), (d.val, 5), (a.val, 5)] (b.val) 4 [(6, 6)] rfl
  have f4 : fld w 5 0 = 6 := F [(1, 6), (d.val, 5), (a.val, 5), (b.val, 5)] 6 5 [] rfl
  refine ⟨hlt, fun e he => ?_⟩
  obtain rfl : e = .seq := by simpa [sectionsOf] using he
  refine decode_of_seq ?_ hf
  unfold rawSeq
  rw [f0]
  show rawAlu w = _
  unfold rawAlu
  rw [f4]
  dsimp only [cellAlu]
  simp [eh, f1, f2, f3]

theorem Laws.RoundTrip.sra (h : Hdr) (d : Fin 32) (a : Fin 32) (b : Fin 32) : Laws.RoundTrip.Statement (.sra h d a b) := by
  intro w hw hf
  simp only [encode, encWord, Option.some.injEq] at hw
  have b0 := d.isLt
  have b1 := a.isLt
  have b2 := b.isLt
  obtain ⟨eh, hlt, F⟩ := fields h (w := w) [(1, 6), (d.val, 5), (a.val, 5), (b.val, 5), (7, 6)] (by simp only [packF, widF]; omega) rfl ⟨by omega, by omega, by omega, by omega, by omega, trivial⟩
  have f0 : fld w 26 21 = 1 := F [] 1 5 [(d.val, 5), (a.val, 5), (b.val, 5), (7, 6)] rfl
  have f1 : fld w 20 16 = d.val := F [(1, 6)] (d.val) 4 [(a.val, 5), (b.val, 5), (7, 6)] rfl
  have f2 : fld w 15 11 = a.val := F [(1, 6), (d.val, 5)] (a.val) 4 [(b.val, 5), (7, 6)] rfl
  have f3 : fld w 10 6 = b.val := F [(1, 6), (d.val, 5), (a.val, 5)] (b.val) 4 [(7, 6)] rfl
  have f4 : fld w 5 0 = 7 := F [(1, 6), (d.val, 5), (a.val, 5), (b.val, 5)] 7 5 [] rfl
  refine ⟨hlt, fun e he => ?_⟩
  obtain rfl : e = .seq := by simpa [sectionsOf] using he
  refine decode_of_seq ?_ hf
  unfold rawSeq
  rw [f0]
  show rawAlu w = _
  unfold rawAlu
  rw [f4]
  dsimp only [cellAlu]
  simp [eh, f1, f2, f3]

theorem Laws.RoundTrip.mul (h : Hdr) (d : Fin 32) (a : Fin 32) (b : Fin 32) : Laws.RoundTrip.Statement (.mul h d a b) := by
  intro w hw hf
  simp only [encode, encWord, Option.some.injEq] at hw
  have b0 := d.isLt
  have b1 := a.isLt
  have b2 := b.isLt
  obtain ⟨eh, hlt, F⟩ := fields h (w := w) [(1, 6), (d.val, 5), (a.val, 5), (b.val, 5), (8, 6)] (by simp only [packF, widF]; omega) rfl ⟨by omega, by omega, by omega, by omega, by omega, trivial⟩
  have f0 : fld w 26 21 = 1 := F [] 1 5 [(d.val, 5), (a.val, 5), (b.val, 5), (8, 6)] rfl
  have f1 : fld w 20 16 = d.val := F [(1, 6)] (d.val) 4 [(a.val, 5), (b.val, 5), (8, 6)] rfl
  have f2 : fld w 15 11 = a.val := F [(1, 6), (d.val, 5)] (a.val) 4 [(b.val, 5), (8, 6)] rfl
  have f3 : fld w 10 6 = b.val := F [(1, 6), (d.val, 5), (a.val, 5)] (b.val) 4 [(8, 6)] rfl
  have f4 : fld w 5 0 = 8 := F [(1, 6), (d.val, 5), (a.val, 5), (b.val, 5)] 8 5 [] rfl
  refine ⟨hlt, fun e he => ?_⟩
  obtain rfl : e = .seq := by simpa [sectionsOf] using he
  refine decode_of_seq ?_ hf
  unfold rawSeq
  rw [f0]
  show rawAlu w = _
  unfold rawAlu
  rw [f4]
  dsimp only [cellAlu]
  simp [eh, f1, f2, f3]

theorem Laws.RoundTrip.mulh (h : Hdr) (d : Fin 32) (a : Fin 32) (b : Fin 32) : Laws.RoundTrip.Statement (.mulh h d a b) := by
  intro w hw hf
  simp only [encode, encWord, Option.some.injEq] at hw
  have b0 := d.isLt
  have b1 := a.isLt
  have b2 := b.isLt
  obtain ⟨eh, hlt, F⟩ := fields h (w := w) [(1, 6), (d.val, 5), (a.val, 5), (b.val, 5), (9, 6)] (by simp only [packF, widF]; omega) rfl ⟨by omega, by omega, by omega, by omega, by omega, trivial⟩
  have f0 : fld w 26 21 = 1 := F [] 1 5 [(d.val, 5), (a.val, 5), (b.val, 5), (9, 6)] rfl
  have f1 : fld w 20 16 = d.val := F [(1, 6)] (d.val) 4 [(a.val, 5), (b.val, 5), (9, 6)] rfl
  have f2 : fld w 15 11 = a.val := F [(1, 6), (d.val, 5)] (a.val) 4 [(b.val, 5), (9, 6)] rfl
  have f3 : fld w 10 6 = b.val := F [(1, 6), (d.val, 5), (a.val, 5)] (b.val) 4 [(9, 6)] rfl
  have f4 : fld w 5 0 = 9 := F [(1, 6), (d.val, 5), (a.val, 5), (b.val, 5)] 9 5 [] rfl
  refine ⟨hlt, fun e he => ?_⟩
  obtain rfl : e = .seq := by simpa [sectionsOf] using he
  refine decode_of_seq ?_ hf
  unfold rawSeq
  rw [f0]
  show rawAlu w = _
  unfold rawAlu
  rw [f4]
  dsimp only [cellAlu]
  simp [eh, f1, f2, f3]

theorem Laws.RoundTrip.mulhu (h : Hdr) (d : Fin 32) (a : Fin 32) (b : Fin 32) : Laws.RoundTrip.Statement (.mulhu h d a b) := by
  intro w hw hf
  simp only [encode, encWord, Option.some.injEq] at hw
  have b0 := d.isLt
  have b1 := a.isLt
  have b2 := b.isLt
  obtain ⟨eh, hlt, F⟩ := fields h (w := w) [(1, 6), (d.val, 5), (a.val, 5), (b.val, 5), (10, 6)] (by simp only [packF, widF]; omega) rfl ⟨by omega, by omega, by omega, by omega, by omega, trivial⟩
  have f0 : fld w 26 21 = 1 := F [] 1 5 [(d.val, 5), (a.val, 5), (b.val, 5), (10, 6)] rfl
  have f1 : fld w 20 16 = d.val := F [(1, 6)] (d.val) 4 [(a.val, 5), (b.val, 5), (10, 6)] rfl
  have f2 : fld w 15 11 = a.val := F [(1, 6), (d.val, 5)] (a.val) 4 [(b.val, 5), (10, 6)] rfl
  have f3 : fld w 10 6 = b.val := F [(1, 6), (d.val, 5), (a.val, 5)] (b.val) 4 [(10, 6)] rfl
  have f4 : fld w 5 0 = 10 := F [(1, 6), (d.val, 5), (a.val, 5), (b.val, 5)] 10 5 [] rfl
  refine ⟨hlt, fun e he => ?_⟩
  obtain rfl : e = .seq := by simpa [sectionsOf] using he
  refine decode_of_seq ?_ hf
  unfold rawSeq
  rw [f0]
  show rawAlu w = _
  unfold rawAlu
  rw [f4]
  dsimp only [cellAlu]
  simp [eh, f1, f2, f3]

theorem Laws.RoundTrip.div (h : Hdr) (d : Fin 32) (a : Fin 32) (b : Fin 32) : Laws.RoundTrip.Statement (.div h d a b) := by
  intro w hw hf
  simp only [encode, encWord, Option.some.injEq] at hw
  have b0 := d.isLt
  have b1 := a.isLt
  have b2 := b.isLt
  obtain ⟨eh, hlt, F⟩ := fields h (w := w) [(1, 6), (d.val, 5), (a.val, 5), (b.val, 5), (11, 6)] (by simp only [packF, widF]; omega) rfl ⟨by omega, by omega, by omega, by omega, by omega, trivial⟩
  have f0 : fld w 26 21 = 1 := F [] 1 5 [(d.val, 5), (a.val, 5), (b.val, 5), (11, 6)] rfl
  have f1 : fld w 20 16 = d.val := F [(1, 6)] (d.val) 4 [(a.val, 5), (b.val, 5), (11, 6)] rfl
  have f2 : fld w 15 11 = a.val := F [(1, 6), (d.val, 5)] (a.val) 4 [(b.val, 5), (11, 6)] rfl
  have f3 : fld w 10 6 = b.val := F [(1, 6), (d.val, 5), (a.val, 5)] (b.val) 4 [(11, 6)] rfl
  have f4 : fld w 5 0 = 11 := F [(1, 6), (d.val, 5), (a.val, 5), (b.val, 5)] 11 5 [] rfl
  refine ⟨hlt, fun e he => ?_⟩
  obtain rfl : e = .seq := by simpa [sectionsOf] using he
  refine decode_of_seq ?_ hf
  unfold rawSeq
  rw [f0]
  show rawAlu w = _
  unfold rawAlu
  rw [f4]
  dsimp only [cellAlu]
  simp [eh, f1, f2, f3]

theorem Laws.RoundTrip.divu (h : Hdr) (d : Fin 32) (a : Fin 32) (b : Fin 32) : Laws.RoundTrip.Statement (.divu h d a b) := by
  intro w hw hf
  simp only [encode, encWord, Option.some.injEq] at hw
  have b0 := d.isLt
  have b1 := a.isLt
  have b2 := b.isLt
  obtain ⟨eh, hlt, F⟩ := fields h (w := w) [(1, 6), (d.val, 5), (a.val, 5), (b.val, 5), (12, 6)] (by simp only [packF, widF]; omega) rfl ⟨by omega, by omega, by omega, by omega, by omega, trivial⟩
  have f0 : fld w 26 21 = 1 := F [] 1 5 [(d.val, 5), (a.val, 5), (b.val, 5), (12, 6)] rfl
  have f1 : fld w 20 16 = d.val := F [(1, 6)] (d.val) 4 [(a.val, 5), (b.val, 5), (12, 6)] rfl
  have f2 : fld w 15 11 = a.val := F [(1, 6), (d.val, 5)] (a.val) 4 [(b.val, 5), (12, 6)] rfl
  have f3 : fld w 10 6 = b.val := F [(1, 6), (d.val, 5), (a.val, 5)] (b.val) 4 [(12, 6)] rfl
  have f4 : fld w 5 0 = 12 := F [(1, 6), (d.val, 5), (a.val, 5), (b.val, 5)] 12 5 [] rfl
  refine ⟨hlt, fun e he => ?_⟩
  obtain rfl : e = .seq := by simpa [sectionsOf] using he
  refine decode_of_seq ?_ hf
  unfold rawSeq
  rw [f0]
  show rawAlu w = _
  unfold rawAlu
  rw [f4]
  dsimp only [cellAlu]
  simp [eh, f1, f2, f3]

theorem Laws.RoundTrip.rem (h : Hdr) (d : Fin 32) (a : Fin 32) (b : Fin 32) : Laws.RoundTrip.Statement (.rem h d a b) := by
  intro w hw hf
  simp only [encode, encWord, Option.some.injEq] at hw
  have b0 := d.isLt
  have b1 := a.isLt
  have b2 := b.isLt
  obtain ⟨eh, hlt, F⟩ := fields h (w := w) [(1, 6), (d.val, 5), (a.val, 5), (b.val, 5), (13, 6)] (by simp only [packF, widF]; omega) rfl ⟨by omega, by omega, by omega, by omega, by omega, trivial⟩
  have f0 : fld w 26 21 = 1 := F [] 1 5 [(d.val, 5), (a.val, 5), (b.val, 5), (13, 6)] rfl
  have f1 : fld w 20 16 = d.val := F [(1, 6)] (d.val) 4 [(a.val, 5), (b.val, 5), (13, 6)] rfl
  have f2 : fld w 15 11 = a.val := F [(1, 6), (d.val, 5)] (a.val) 4 [(b.val, 5), (13, 6)] rfl
  have f3 : fld w 10 6 = b.val := F [(1, 6), (d.val, 5), (a.val, 5)] (b.val) 4 [(13, 6)] rfl
  have f4 : fld w 5 0 = 13 := F [(1, 6), (d.val, 5), (a.val, 5), (b.val, 5)] 13 5 [] rfl
  refine ⟨hlt, fun e he => ?_⟩
  obtain rfl : e = .seq := by simpa [sectionsOf] using he
  refine decode_of_seq ?_ hf
  unfold rawSeq
  rw [f0]
  show rawAlu w = _
  unfold rawAlu
  rw [f4]
  dsimp only [cellAlu]
  simp [eh, f1, f2, f3]

theorem Laws.RoundTrip.remu (h : Hdr) (d : Fin 32) (a : Fin 32) (b : Fin 32) : Laws.RoundTrip.Statement (.remu h d a b) := by
  intro w hw hf
  simp only [encode, encWord, Option.some.injEq] at hw
  have b0 := d.isLt
  have b1 := a.isLt
  have b2 := b.isLt
  obtain ⟨eh, hlt, F⟩ := fields h (w := w) [(1, 6), (d.val, 5), (a.val, 5), (b.val, 5), (14, 6)] (by simp only [packF, widF]; omega) rfl ⟨by omega, by omega, by omega, by omega, by omega, trivial⟩
  have f0 : fld w 26 21 = 1 := F [] 1 5 [(d.val, 5), (a.val, 5), (b.val, 5), (14, 6)] rfl
  have f1 : fld w 20 16 = d.val := F [(1, 6)] (d.val) 4 [(a.val, 5), (b.val, 5), (14, 6)] rfl
  have f2 : fld w 15 11 = a.val := F [(1, 6), (d.val, 5)] (a.val) 4 [(b.val, 5), (14, 6)] rfl
  have f3 : fld w 10 6 = b.val := F [(1, 6), (d.val, 5), (a.val, 5)] (b.val) 4 [(14, 6)] rfl
  have f4 : fld w 5 0 = 14 := F [(1, 6), (d.val, 5), (a.val, 5), (b.val, 5)] 14 5 [] rfl
  refine ⟨hlt, fun e he => ?_⟩
  obtain rfl : e = .seq := by simpa [sectionsOf] using he
  refine decode_of_seq ?_ hf
  unfold rawSeq
  rw [f0]
  show rawAlu w = _
  unfold rawAlu
  rw [f4]
  dsimp only [cellAlu]
  simp [eh, f1, f2, f3]

theorem Laws.RoundTrip.min (h : Hdr) (d : Fin 32) (a : Fin 32) (b : Fin 32) : Laws.RoundTrip.Statement (.min h d a b) := by
  intro w hw hf
  simp only [encode, encWord, Option.some.injEq] at hw
  have b0 := d.isLt
  have b1 := a.isLt
  have b2 := b.isLt
  obtain ⟨eh, hlt, F⟩ := fields h (w := w) [(1, 6), (d.val, 5), (a.val, 5), (b.val, 5), (15, 6)] (by simp only [packF, widF]; omega) rfl ⟨by omega, by omega, by omega, by omega, by omega, trivial⟩
  have f0 : fld w 26 21 = 1 := F [] 1 5 [(d.val, 5), (a.val, 5), (b.val, 5), (15, 6)] rfl
  have f1 : fld w 20 16 = d.val := F [(1, 6)] (d.val) 4 [(a.val, 5), (b.val, 5), (15, 6)] rfl
  have f2 : fld w 15 11 = a.val := F [(1, 6), (d.val, 5)] (a.val) 4 [(b.val, 5), (15, 6)] rfl
  have f3 : fld w 10 6 = b.val := F [(1, 6), (d.val, 5), (a.val, 5)] (b.val) 4 [(15, 6)] rfl
  have f4 : fld w 5 0 = 15 := F [(1, 6), (d.val, 5), (a.val, 5), (b.val, 5)] 15 5 [] rfl
  refine ⟨hlt, fun e he => ?_⟩
  obtain rfl : e = .seq := by simpa [sectionsOf] using he
  refine decode_of_seq ?_ hf
  unfold rawSeq
  rw [f0]
  show rawAlu w = _
  unfold rawAlu
  rw [f4]
  dsimp only [cellAlu]
  simp [eh, f1, f2, f3]

theorem Laws.RoundTrip.max (h : Hdr) (d : Fin 32) (a : Fin 32) (b : Fin 32) : Laws.RoundTrip.Statement (.max h d a b) := by
  intro w hw hf
  simp only [encode, encWord, Option.some.injEq] at hw
  have b0 := d.isLt
  have b1 := a.isLt
  have b2 := b.isLt
  obtain ⟨eh, hlt, F⟩ := fields h (w := w) [(1, 6), (d.val, 5), (a.val, 5), (b.val, 5), (16, 6)] (by simp only [packF, widF]; omega) rfl ⟨by omega, by omega, by omega, by omega, by omega, trivial⟩
  have f0 : fld w 26 21 = 1 := F [] 1 5 [(d.val, 5), (a.val, 5), (b.val, 5), (16, 6)] rfl
  have f1 : fld w 20 16 = d.val := F [(1, 6)] (d.val) 4 [(a.val, 5), (b.val, 5), (16, 6)] rfl
  have f2 : fld w 15 11 = a.val := F [(1, 6), (d.val, 5)] (a.val) 4 [(b.val, 5), (16, 6)] rfl
  have f3 : fld w 10 6 = b.val := F [(1, 6), (d.val, 5), (a.val, 5)] (b.val) 4 [(16, 6)] rfl
  have f4 : fld w 5 0 = 16 := F [(1, 6), (d.val, 5), (a.val, 5), (b.val, 5)] 16 5 [] rfl
  refine ⟨hlt, fun e he => ?_⟩
  obtain rfl : e = .seq := by simpa [sectionsOf] using he
  refine decode_of_seq ?_ hf
  unfold rawSeq
  rw [f0]
  show rawAlu w = _
  unfold rawAlu
  rw [f4]
  dsimp only [cellAlu]
  simp [eh, f1, f2, f3]

theorem Laws.RoundTrip.minu (h : Hdr) (d : Fin 32) (a : Fin 32) (b : Fin 32) : Laws.RoundTrip.Statement (.minu h d a b) := by
  intro w hw hf
  simp only [encode, encWord, Option.some.injEq] at hw
  have b0 := d.isLt
  have b1 := a.isLt
  have b2 := b.isLt
  obtain ⟨eh, hlt, F⟩ := fields h (w := w) [(1, 6), (d.val, 5), (a.val, 5), (b.val, 5), (17, 6)] (by simp only [packF, widF]; omega) rfl ⟨by omega, by omega, by omega, by omega, by omega, trivial⟩
  have f0 : fld w 26 21 = 1 := F [] 1 5 [(d.val, 5), (a.val, 5), (b.val, 5), (17, 6)] rfl
  have f1 : fld w 20 16 = d.val := F [(1, 6)] (d.val) 4 [(a.val, 5), (b.val, 5), (17, 6)] rfl
  have f2 : fld w 15 11 = a.val := F [(1, 6), (d.val, 5)] (a.val) 4 [(b.val, 5), (17, 6)] rfl
  have f3 : fld w 10 6 = b.val := F [(1, 6), (d.val, 5), (a.val, 5)] (b.val) 4 [(17, 6)] rfl
  have f4 : fld w 5 0 = 17 := F [(1, 6), (d.val, 5), (a.val, 5), (b.val, 5)] 17 5 [] rfl
  refine ⟨hlt, fun e he => ?_⟩
  obtain rfl : e = .seq := by simpa [sectionsOf] using he
  refine decode_of_seq ?_ hf
  unfold rawSeq
  rw [f0]
  show rawAlu w = _
  unfold rawAlu
  rw [f4]
  dsimp only [cellAlu]
  simp [eh, f1, f2, f3]

theorem Laws.RoundTrip.maxu (h : Hdr) (d : Fin 32) (a : Fin 32) (b : Fin 32) : Laws.RoundTrip.Statement (.maxu h d a b) := by
  intro w hw hf
  simp only [encode, encWord, Option.some.injEq] at hw
  have b0 := d.isLt
  have b1 := a.isLt
  have b2 := b.isLt
  obtain ⟨eh, hlt, F⟩ := fields h (w := w) [(1, 6), (d.val, 5), (a.val, 5), (b.val, 5), (18, 6)] (by simp only [packF, widF]; omega) rfl ⟨by omega, by omega, by omega, by omega, by omega, trivial⟩
  have f0 : fld w 26 21 = 1 := F [] 1 5 [(d.val, 5), (a.val, 5), (b.val, 5), (18, 6)] rfl
  have f1 : fld w 20 16 = d.val := F [(1, 6)] (d.val) 4 [(a.val, 5), (b.val, 5), (18, 6)] rfl
  have f2 : fld w 15 11 = a.val := F [(1, 6), (d.val, 5)] (a.val) 4 [(b.val, 5), (18, 6)] rfl
  have f3 : fld w 10 6 = b.val := F [(1, 6), (d.val, 5), (a.val, 5)] (b.val) 4 [(18, 6)] rfl
  have f4 : fld w 5 0 = 18 := F [(1, 6), (d.val, 5), (a.val, 5), (b.val, 5)] 18 5 [] rfl
  refine ⟨hlt, fun e he => ?_⟩
  obtain rfl : e = .seq := by simpa [sectionsOf] using he
  refine decode_of_seq ?_ hf
  unfold rawSeq
  rw [f0]
  show rawAlu w = _
  unfold rawAlu
  rw [f4]
  dsimp only [cellAlu]
  simp [eh, f1, f2, f3]

theorem Laws.RoundTrip.slt (h : Hdr) (d : Fin 32) (a : Fin 32) (b : Fin 32) : Laws.RoundTrip.Statement (.slt h d a b) := by
  intro w hw hf
  simp only [encode, encWord, Option.some.injEq] at hw
  have b0 := d.isLt
  have b1 := a.isLt
  have b2 := b.isLt
  obtain ⟨eh, hlt, F⟩ := fields h (w := w) [(1, 6), (d.val, 5), (a.val, 5), (b.val, 5), (19, 6)] (by simp only [packF, widF]; omega) rfl ⟨by omega, by omega, by omega, by omega, by omega, trivial⟩
  have f0 : fld w 26 21 = 1 := F [] 1 5 [(d.val, 5), (a.val, 5), (b.val, 5), (19, 6)] rfl
  have f1 : fld w 20 16 = d.val := F [(1, 6)] (d.val) 4 [(a.val, 5), (b.val, 5), (19, 6)] rfl
  have f2 : fld w 15 11 = a.val := F [(1, 6), (d.val, 5)] (a.val) 4 [(b.val, 5), (19, 6)] rfl
  have f3 : fld w 10 6 = b.val := F [(1, 6), (d.val, 5), (a.val, 5)] (b.val) 4 [(19, 6)] rfl
  have f4 : fld w 5 0 = 19 := F [(1, 6), (d.val, 5), (a.val, 5), (b.val, 5)] 19 5 [] rfl
  refine ⟨hlt, fun e he => ?_⟩
  obtain rfl : e = .seq := by simpa [sectionsOf] using he
  refine decode_of_seq ?_ hf
  unfold rawSeq
  rw [f0]
  show rawAlu w = _
  unfold rawAlu
  rw [f4]
  dsimp only [cellAlu]
  simp [eh, f1, f2, f3]

theorem Laws.RoundTrip.sltu (h : Hdr) (d : Fin 32) (a : Fin 32) (b : Fin 32) : Laws.RoundTrip.Statement (.sltu h d a b) := by
  intro w hw hf
  simp only [encode, encWord, Option.some.injEq] at hw
  have b0 := d.isLt
  have b1 := a.isLt
  have b2 := b.isLt
  obtain ⟨eh, hlt, F⟩ := fields h (w := w) [(1, 6), (d.val, 5), (a.val, 5), (b.val, 5), (20, 6)] (by simp only [packF, widF]; omega) rfl ⟨by omega, by omega, by omega, by omega, by omega, trivial⟩
  have f0 : fld w 26 21 = 1 := F [] 1 5 [(d.val, 5), (a.val, 5), (b.val, 5), (20, 6)] rfl
  have f1 : fld w 20 16 = d.val := F [(1, 6)] (d.val) 4 [(a.val, 5), (b.val, 5), (20, 6)] rfl
  have f2 : fld w 15 11 = a.val := F [(1, 6), (d.val, 5)] (a.val) 4 [(b.val, 5), (20, 6)] rfl
  have f3 : fld w 10 6 = b.val := F [(1, 6), (d.val, 5), (a.val, 5)] (b.val) 4 [(20, 6)] rfl
  have f4 : fld w 5 0 = 20 := F [(1, 6), (d.val, 5), (a.val, 5), (b.val, 5)] 20 5 [] rfl
  refine ⟨hlt, fun e he => ?_⟩
  obtain rfl : e = .seq := by simpa [sectionsOf] using he
  refine decode_of_seq ?_ hf
  unfold rawSeq
  rw [f0]
  show rawAlu w = _
  unfold rawAlu
  rw [f4]
  dsimp only [cellAlu]
  simp [eh, f1, f2, f3]

theorem Laws.RoundTrip.clz (h : Hdr) (d : Fin 32) (a : Fin 32) : Laws.RoundTrip.Statement (.clz h d a) := by
  intro w hw hf
  simp only [encode, encWord, Option.some.injEq] at hw
  have b0 := d.isLt
  have b1 := a.isLt
  obtain ⟨eh, hlt, F⟩ := fields h (w := w) [(1, 6), (d.val, 5), (a.val, 5), (0, 5), (21, 6)] (by simp only [packF, widF]; omega) rfl ⟨by omega, by omega, by omega, by omega, by omega, trivial⟩
  have f0 : fld w 26 21 = 1 := F [] 1 5 [(d.val, 5), (a.val, 5), (0, 5), (21, 6)] rfl
  have f1 : fld w 20 16 = d.val := F [(1, 6)] (d.val) 4 [(a.val, 5), (0, 5), (21, 6)] rfl
  have f2 : fld w 15 11 = a.val := F [(1, 6), (d.val, 5)] (a.val) 4 [(0, 5), (21, 6)] rfl
  have f3 : fld w 10 6 = 0 := F [(1, 6), (d.val, 5), (a.val, 5)] 0 4 [(21, 6)] rfl
  have f4 : fld w 5 0 = 21 := F [(1, 6), (d.val, 5), (a.val, 5), (0, 5)] 21 5 [] rfl
  refine ⟨hlt, fun e he => ?_⟩
  obtain rfl : e = .seq := by simpa [sectionsOf] using he
  refine decode_of_seq ?_ hf
  unfold rawSeq
  rw [f0]
  show rawAlu w = _
  unfold rawAlu
  rw [f4]
  dsimp only [cellAlu]
  simp [eh, f1, f2, f3]

theorem Laws.RoundTrip.ctz (h : Hdr) (d : Fin 32) (a : Fin 32) : Laws.RoundTrip.Statement (.ctz h d a) := by
  intro w hw hf
  simp only [encode, encWord, Option.some.injEq] at hw
  have b0 := d.isLt
  have b1 := a.isLt
  obtain ⟨eh, hlt, F⟩ := fields h (w := w) [(1, 6), (d.val, 5), (a.val, 5), (0, 5), (22, 6)] (by simp only [packF, widF]; omega) rfl ⟨by omega, by omega, by omega, by omega, by omega, trivial⟩
  have f0 : fld w 26 21 = 1 := F [] 1 5 [(d.val, 5), (a.val, 5), (0, 5), (22, 6)] rfl
  have f1 : fld w 20 16 = d.val := F [(1, 6)] (d.val) 4 [(a.val, 5), (0, 5), (22, 6)] rfl
  have f2 : fld w 15 11 = a.val := F [(1, 6), (d.val, 5)] (a.val) 4 [(0, 5), (22, 6)] rfl
  have f3 : fld w 10 6 = 0 := F [(1, 6), (d.val, 5), (a.val, 5)] 0 4 [(22, 6)] rfl
  have f4 : fld w 5 0 = 22 := F [(1, 6), (d.val, 5), (a.val, 5), (0, 5)] 22 5 [] rfl
  refine ⟨hlt, fun e he => ?_⟩
  obtain rfl : e = .seq := by simpa [sectionsOf] using he
  refine decode_of_seq ?_ hf
  unfold rawSeq
  rw [f0]
  show rawAlu w = _
  unfold rawAlu
  rw [f4]
  dsimp only [cellAlu]
  simp [eh, f1, f2, f3]

theorem Laws.RoundTrip.popc (h : Hdr) (d : Fin 32) (a : Fin 32) : Laws.RoundTrip.Statement (.popc h d a) := by
  intro w hw hf
  simp only [encode, encWord, Option.some.injEq] at hw
  have b0 := d.isLt
  have b1 := a.isLt
  obtain ⟨eh, hlt, F⟩ := fields h (w := w) [(1, 6), (d.val, 5), (a.val, 5), (0, 5), (23, 6)] (by simp only [packF, widF]; omega) rfl ⟨by omega, by omega, by omega, by omega, by omega, trivial⟩
  have f0 : fld w 26 21 = 1 := F [] 1 5 [(d.val, 5), (a.val, 5), (0, 5), (23, 6)] rfl
  have f1 : fld w 20 16 = d.val := F [(1, 6)] (d.val) 4 [(a.val, 5), (0, 5), (23, 6)] rfl
  have f2 : fld w 15 11 = a.val := F [(1, 6), (d.val, 5)] (a.val) 4 [(0, 5), (23, 6)] rfl
  have f3 : fld w 10 6 = 0 := F [(1, 6), (d.val, 5), (a.val, 5)] 0 4 [(23, 6)] rfl
  have f4 : fld w 5 0 = 23 := F [(1, 6), (d.val, 5), (a.val, 5), (0, 5)] 23 5 [] rfl
  refine ⟨hlt, fun e he => ?_⟩
  obtain rfl : e = .seq := by simpa [sectionsOf] using he
  refine decode_of_seq ?_ hf
  unfold rawSeq
  rw [f0]
  show rawAlu w = _
  unfold rawAlu
  rw [f4]
  dsimp only [cellAlu]
  simp [eh, f1, f2, f3]

theorem Laws.RoundTrip.addi (h : Hdr) (d : Fin 32) (a : Fin 32) (imm : BitVec 11) : Laws.RoundTrip.Statement (.addi h d a imm) := by
  intro w hw hf
  simp only [encode, encWord, Option.some.injEq] at hw
  have b0 := d.isLt
  have b1 := a.isLt
  have b2 := imm.isLt
  obtain ⟨eh, hlt, F⟩ := fields h (w := w) [(2, 6), (d.val, 5), (a.val, 5), (imm.toNat, 11)] (by simp only [packF, widF]; omega) rfl ⟨by omega, by omega, by omega, by omega, trivial⟩
  have f0 : fld w 26 21 = 2 := F [] 2 5 [(d.val, 5), (a.val, 5), (imm.toNat, 11)] rfl
  have f1 : fld w 20 16 = d.val := F [(2, 6)] (d.val) 4 [(a.val, 5), (imm.toNat, 11)] rfl
  have f2 : fld w 15 11 = a.val := F [(2, 6), (d.val, 5)] (a.val) 4 [(imm.toNat, 11)] rfl
  have f3 : fld w 10 0 = imm.toNat := F [(2, 6), (d.val, 5), (a.val, 5)] (imm.toNat) 10 [] rfl
  refine ⟨hlt, fun e he => ?_⟩
  obtain rfl : e = .seq := by simpa [sectionsOf] using he
  refine decode_of_seq ?_ hf
  unfold rawSeq
  rw [f0]
  dsimp only [cellSeq]
  simp [eh, f1, f2, f3]

theorem Laws.RoundTrip.slti (h : Hdr) (d : Fin 32) (a : Fin 32) (imm : BitVec 11) : Laws.RoundTrip.Statement (.slti h d a imm) := by
  intro w hw hf
  simp only [encode, encWord, Option.some.injEq] at hw
  have b0 := d.isLt
  have b1 := a.isLt
  have b2 := imm.isLt
  obtain ⟨eh, hlt, F⟩ := fields h (w := w) [(3, 6), (d.val, 5), (a.val, 5), (imm.toNat, 11)] (by simp only [packF, widF]; omega) rfl ⟨by omega, by omega, by omega, by omega, trivial⟩
  have f0 : fld w 26 21 = 3 := F [] 3 5 [(d.val, 5), (a.val, 5), (imm.toNat, 11)] rfl
  have f1 : fld w 20 16 = d.val := F [(3, 6)] (d.val) 4 [(a.val, 5), (imm.toNat, 11)] rfl
  have f2 : fld w 15 11 = a.val := F [(3, 6), (d.val, 5)] (a.val) 4 [(imm.toNat, 11)] rfl
  have f3 : fld w 10 0 = imm.toNat := F [(3, 6), (d.val, 5), (a.val, 5)] (imm.toNat) 10 [] rfl
  refine ⟨hlt, fun e he => ?_⟩
  obtain rfl : e = .seq := by simpa [sectionsOf] using he
  refine decode_of_seq ?_ hf
  unfold rawSeq
  rw [f0]
  dsimp only [cellSeq]
  simp [eh, f1, f2, f3]

theorem Laws.RoundTrip.andi (h : Hdr) (d : Fin 32) (a : Fin 32) (imm : BitVec 11) : Laws.RoundTrip.Statement (.andi h d a imm) := by
  intro w hw hf
  simp only [encode, encWord, Option.some.injEq] at hw
  have b0 := d.isLt
  have b1 := a.isLt
  have b2 := imm.isLt
  obtain ⟨eh, hlt, F⟩ := fields h (w := w) [(4, 6), (d.val, 5), (a.val, 5), (imm.toNat, 11)] (by simp only [packF, widF]; omega) rfl ⟨by omega, by omega, by omega, by omega, trivial⟩
  have f0 : fld w 26 21 = 4 := F [] 4 5 [(d.val, 5), (a.val, 5), (imm.toNat, 11)] rfl
  have f1 : fld w 20 16 = d.val := F [(4, 6)] (d.val) 4 [(a.val, 5), (imm.toNat, 11)] rfl
  have f2 : fld w 15 11 = a.val := F [(4, 6), (d.val, 5)] (a.val) 4 [(imm.toNat, 11)] rfl
  have f3 : fld w 10 0 = imm.toNat := F [(4, 6), (d.val, 5), (a.val, 5)] (imm.toNat) 10 [] rfl
  refine ⟨hlt, fun e he => ?_⟩
  obtain rfl : e = .seq := by simpa [sectionsOf] using he
  refine decode_of_seq ?_ hf
  unfold rawSeq
  rw [f0]
  dsimp only [cellSeq]
  simp [eh, f1, f2, f3]

theorem Laws.RoundTrip.ori (h : Hdr) (d : Fin 32) (a : Fin 32) (imm : BitVec 11) : Laws.RoundTrip.Statement (.ori h d a imm) := by
  intro w hw hf
  simp only [encode, encWord, Option.some.injEq] at hw
  have b0 := d.isLt
  have b1 := a.isLt
  have b2 := imm.isLt
  obtain ⟨eh, hlt, F⟩ := fields h (w := w) [(5, 6), (d.val, 5), (a.val, 5), (imm.toNat, 11)] (by simp only [packF, widF]; omega) rfl ⟨by omega, by omega, by omega, by omega, trivial⟩
  have f0 : fld w 26 21 = 5 := F [] 5 5 [(d.val, 5), (a.val, 5), (imm.toNat, 11)] rfl
  have f1 : fld w 20 16 = d.val := F [(5, 6)] (d.val) 4 [(a.val, 5), (imm.toNat, 11)] rfl
  have f2 : fld w 15 11 = a.val := F [(5, 6), (d.val, 5)] (a.val) 4 [(imm.toNat, 11)] rfl
  have f3 : fld w 10 0 = imm.toNat := F [(5, 6), (d.val, 5), (a.val, 5)] (imm.toNat) 10 [] rfl
  refine ⟨hlt, fun e he => ?_⟩
  obtain rfl : e = .seq := by simpa [sectionsOf] using he
  refine decode_of_seq ?_ hf
  unfold rawSeq
  rw [f0]
  dsimp only [cellSeq]
  simp [eh, f1, f2, f3]

theorem Laws.RoundTrip.xori (h : Hdr) (d : Fin 32) (a : Fin 32) (imm : BitVec 11) : Laws.RoundTrip.Statement (.xori h d a imm) := by
  intro w hw hf
  simp only [encode, encWord, Option.some.injEq] at hw
  have b0 := d.isLt
  have b1 := a.isLt
  have b2 := imm.isLt
  obtain ⟨eh, hlt, F⟩ := fields h (w := w) [(6, 6), (d.val, 5), (a.val, 5), (imm.toNat, 11)] (by simp only [packF, widF]; omega) rfl ⟨by omega, by omega, by omega, by omega, trivial⟩
  have f0 : fld w 26 21 = 6 := F [] 6 5 [(d.val, 5), (a.val, 5), (imm.toNat, 11)] rfl
  have f1 : fld w 20 16 = d.val := F [(6, 6)] (d.val) 4 [(a.val, 5), (imm.toNat, 11)] rfl
  have f2 : fld w 15 11 = a.val := F [(6, 6), (d.val, 5)] (a.val) 4 [(imm.toNat, 11)] rfl
  have f3 : fld w 10 0 = imm.toNat := F [(6, 6), (d.val, 5), (a.val, 5)] (imm.toNat) 10 [] rfl
  refine ⟨hlt, fun e he => ?_⟩
  obtain rfl : e = .seq := by simpa [sectionsOf] using he
  refine decode_of_seq ?_ hf
  unfold rawSeq
  rw [f0]
  dsimp only [cellSeq]
  simp [eh, f1, f2, f3]

theorem Laws.RoundTrip.slli (h : Hdr) (d : Fin 32) (a : Fin 32) (sh : BitVec 6) : Laws.RoundTrip.Statement (.slli h d a sh) := by
  intro w hw hf
  simp only [encode, encWord, Option.some.injEq] at hw
  have b0 := d.isLt
  have b1 := a.isLt
  have b2 := sh.isLt
  obtain ⟨eh, hlt, F⟩ := fields h (w := w) [(7, 6), (d.val, 5), (a.val, 5), (0, 5), (sh.toNat, 6)] (by simp only [packF, widF]; omega) rfl ⟨by omega, by omega, by omega, by omega, by omega, trivial⟩
  have f0 : fld w 26 21 = 7 := F [] 7 5 [(d.val, 5), (a.val, 5), (0, 5), (sh.toNat, 6)] rfl
  have f1 : fld w 20 16 = d.val := F [(7, 6)] (d.val) 4 [(a.val, 5), (0, 5), (sh.toNat, 6)] rfl
  have f2 : fld w 15 11 = a.val := F [(7, 6), (d.val, 5)] (a.val) 4 [(0, 5), (sh.toNat, 6)] rfl
  have f3 : fld w 10 6 = 0 := F [(7, 6), (d.val, 5), (a.val, 5)] 0 4 [(sh.toNat, 6)] rfl
  have f4 : fld w 5 0 = sh.toNat := F [(7, 6), (d.val, 5), (a.val, 5), (0, 5)] (sh.toNat) 5 [] rfl
  refine ⟨hlt, fun e he => ?_⟩
  obtain rfl : e = .seq := by simpa [sectionsOf] using he
  refine decode_of_seq ?_ hf
  unfold rawSeq
  rw [f0]
  dsimp only [cellSeq]
  simp [eh, f1, f2, f3, f4]

theorem Laws.RoundTrip.srli (h : Hdr) (d : Fin 32) (a : Fin 32) (sh : BitVec 6) : Laws.RoundTrip.Statement (.srli h d a sh) := by
  intro w hw hf
  simp only [encode, encWord, Option.some.injEq] at hw
  have b0 := d.isLt
  have b1 := a.isLt
  have b2 := sh.isLt
  obtain ⟨eh, hlt, F⟩ := fields h (w := w) [(8, 6), (d.val, 5), (a.val, 5), (0, 5), (sh.toNat, 6)] (by simp only [packF, widF]; omega) rfl ⟨by omega, by omega, by omega, by omega, by omega, trivial⟩
  have f0 : fld w 26 21 = 8 := F [] 8 5 [(d.val, 5), (a.val, 5), (0, 5), (sh.toNat, 6)] rfl
  have f1 : fld w 20 16 = d.val := F [(8, 6)] (d.val) 4 [(a.val, 5), (0, 5), (sh.toNat, 6)] rfl
  have f2 : fld w 15 11 = a.val := F [(8, 6), (d.val, 5)] (a.val) 4 [(0, 5), (sh.toNat, 6)] rfl
  have f3 : fld w 10 6 = 0 := F [(8, 6), (d.val, 5), (a.val, 5)] 0 4 [(sh.toNat, 6)] rfl
  have f4 : fld w 5 0 = sh.toNat := F [(8, 6), (d.val, 5), (a.val, 5), (0, 5)] (sh.toNat) 5 [] rfl
  refine ⟨hlt, fun e he => ?_⟩
  obtain rfl : e = .seq := by simpa [sectionsOf] using he
  refine decode_of_seq ?_ hf
  unfold rawSeq
  rw [f0]
  dsimp only [cellSeq]
  simp [eh, f1, f2, f3, f4]

theorem Laws.RoundTrip.srai (h : Hdr) (d : Fin 32) (a : Fin 32) (sh : BitVec 6) : Laws.RoundTrip.Statement (.srai h d a sh) := by
  intro w hw hf
  simp only [encode, encWord, Option.some.injEq] at hw
  have b0 := d.isLt
  have b1 := a.isLt
  have b2 := sh.isLt
  obtain ⟨eh, hlt, F⟩ := fields h (w := w) [(9, 6), (d.val, 5), (a.val, 5), (0, 5), (sh.toNat, 6)] (by simp only [packF, widF]; omega) rfl ⟨by omega, by omega, by omega, by omega, by omega, trivial⟩
  have f0 : fld w 26 21 = 9 := F [] 9 5 [(d.val, 5), (a.val, 5), (0, 5), (sh.toNat, 6)] rfl
  have f1 : fld w 20 16 = d.val := F [(9, 6)] (d.val) 4 [(a.val, 5), (0, 5), (sh.toNat, 6)] rfl
  have f2 : fld w 15 11 = a.val := F [(9, 6), (d.val, 5)] (a.val) 4 [(0, 5), (sh.toNat, 6)] rfl
  have f3 : fld w 10 6 = 0 := F [(9, 6), (d.val, 5), (a.val, 5)] 0 4 [(sh.toNat, 6)] rfl
  have f4 : fld w 5 0 = sh.toNat := F [(9, 6), (d.val, 5), (a.val, 5), (0, 5)] (sh.toNat) 5 [] rfl
  refine ⟨hlt, fun e he => ?_⟩
  obtain rfl : e = .seq := by simpa [sectionsOf] using he
  refine decode_of_seq ?_ hf
  unfold rawSeq
  rw [f0]
  dsimp only [cellSeq]
  simp [eh, f1, f2, f3, f4]

theorem Laws.RoundTrip.jal (h : Hdr) (off : BitVec 21) : Laws.RoundTrip.Statement (.jal h off) := by
  intro w hw hf
  simp only [encode, encWord, Option.some.injEq] at hw
  have b0 := off.isLt
  obtain ⟨eh, hlt, F⟩ := fields h (w := w) [(10, 6), (off.toNat, 21)] (by simp only [packF, widF]; omega) rfl ⟨by omega, by omega, trivial⟩
  have f0 : fld w 26 21 = 10 := F [] 10 5 [(off.toNat, 21)] rfl
  have f1 : fld w 20 0 = off.toNat := F [(10, 6)] (off.toNat) 20 [] rfl
  refine ⟨hlt, fun e he => ?_⟩
  obtain rfl : e = .seq := by simpa [sectionsOf] using he
  refine decode_of_seq ?_ hf
  unfold rawSeq
  rw [f0]
  dsimp only [cellSeq]
  simp [eh, f1]

theorem Laws.RoundTrip.jalr (h : Hdr) (d : Fin 32) (a : Fin 32) (imm : BitVec 11) : Laws.RoundTrip.Statement (.jalr h d a imm) := by
  intro w hw hf
  simp only [encode, encWord, Option.some.injEq] at hw
  have b0 := d.isLt
  have b1 := a.isLt
  have b2 := imm.isLt
  obtain ⟨eh, hlt, F⟩ := fields h (w := w) [(11, 6), (d.val, 5), (a.val, 5), (imm.toNat, 11)] (by simp only [packF, widF]; omega) rfl ⟨by omega, by omega, by omega, by omega, trivial⟩
  have f0 : fld w 26 21 = 11 := F [] 11 5 [(d.val, 5), (a.val, 5), (imm.toNat, 11)] rfl
  have f1 : fld w 20 16 = d.val := F [(11, 6)] (d.val) 4 [(a.val, 5), (imm.toNat, 11)] rfl
  have f2 : fld w 15 11 = a.val := F [(11, 6), (d.val, 5)] (a.val) 4 [(imm.toNat, 11)] rfl
  have f3 : fld w 10 0 = imm.toNat := F [(11, 6), (d.val, 5), (a.val, 5)] (imm.toNat) 10 [] rfl
  refine ⟨hlt, fun e he => ?_⟩
  obtain rfl : e = .seq := by simpa [sectionsOf] using he
  refine decode_of_seq ?_ hf
  unfold rawSeq
  rw [f0]
  dsimp only [cellSeq]
  simp [eh, f1, f2, f3]

theorem Laws.RoundTrip.lis (h : Hdr) (q : BitVec 2) (d : Fin 32) (imm : BitVec 16) : Laws.RoundTrip.Statement (.lis h q d imm) := by
  intro w hw hf
  simp only [encode, encWord, Option.some.injEq] at hw
  have b0 := q.isLt
  have b1 := d.isLt
  have b2 := imm.isLt
  obtain ⟨eh, hlt, F⟩ := fields h (w := w) [(12 + q.toNat, 6), (d.val, 5), (imm.toNat, 16)] (by simp only [packF, widF]; omega) rfl ⟨by omega, by omega, by omega, trivial⟩
  have f0 : fld w 26 21 = 12 + q.toNat := F [] (12 + q.toNat) 5 [(d.val, 5), (imm.toNat, 16)] rfl
  have f1 : fld w 20 16 = d.val := F [(12 + q.toNat, 6)] (d.val) 4 [(imm.toNat, 16)] rfl
  have f2 : fld w 15 0 = imm.toNat := F [(12 + q.toNat, 6), (d.val, 5)] (imm.toNat) 15 [] rfl
  refine ⟨hlt, fun e he => ?_⟩
  obtain rfl : e = .seq := by simpa [sectionsOf] using he
  have hq : q.toNat = 0 ∨ q.toNat = 1 ∨ q.toNat = 2 ∨ q.toNat = 3 := by omega
  have f9 : fld w 22 21 = q.toNat := by simp only [fld, Nat.reducePow, Nat.reduceAdd, Nat.reduceSub] at *; omega
  refine decode_of_seq ?_ hf
  unfold rawSeq
  rcases hq with e | e | e | e <;> (rw [e] at f0; rw [f0]; dsimp only [cellSeq]; simp [f9, eh, f1, f2])

theorem Laws.RoundTrip.beq (h : Hdr) (a : Fin 32) (b : Fin 32) (off : BitVec 11) : Laws.RoundTrip.Statement (.beq h a b off) := by
  intro w hw hf
  simp only [encode, encWord, Option.some.injEq] at hw
  have b0 := a.isLt
  have b1 := b.isLt
  have b2 := off.isLt
  obtain ⟨eh, hlt, F⟩ := fields h (w := w) [(16, 6), (a.val, 5), (b.val, 5), (off.toNat, 11)] (by simp only [packF, widF]; omega) rfl ⟨by omega, by omega, by omega, by omega, trivial⟩
  have f0 : fld w 26 21 = 16 := F [] 16 5 [(a.val, 5), (b.val, 5), (off.toNat, 11)] rfl
  have f1 : fld w 20 16 = a.val := F [(16, 6)] (a.val) 4 [(b.val, 5), (off.toNat, 11)] rfl
  have f2 : fld w 15 11 = b.val := F [(16, 6), (a.val, 5)] (b.val) 4 [(off.toNat, 11)] rfl
  have f3 : fld w 10 0 = off.toNat := F [(16, 6), (a.val, 5), (b.val, 5)] (off.toNat) 10 [] rfl
  refine ⟨hlt, fun e he => ?_⟩
  obtain rfl : e = .seq := by simpa [sectionsOf] using he
  refine decode_of_seq ?_ hf
  unfold rawSeq
  rw [f0]
  dsimp only [cellSeq]
  simp [eh, f1, f2, f3]

theorem Laws.RoundTrip.bne (h : Hdr) (a : Fin 32) (b : Fin 32) (off : BitVec 11) : Laws.RoundTrip.Statement (.bne h a b off) := by
  intro w hw hf
  simp only [encode, encWord, Option.some.injEq] at hw
  have b0 := a.isLt
  have b1 := b.isLt
  have b2 := off.isLt
  obtain ⟨eh, hlt, F⟩ := fields h (w := w) [(17, 6), (a.val, 5), (b.val, 5), (off.toNat, 11)] (by simp only [packF, widF]; omega) rfl ⟨by omega, by omega, by omega, by omega, trivial⟩
  have f0 : fld w 26 21 = 17 := F [] 17 5 [(a.val, 5), (b.val, 5), (off.toNat, 11)] rfl
  have f1 : fld w 20 16 = a.val := F [(17, 6)] (a.val) 4 [(b.val, 5), (off.toNat, 11)] rfl
  have f2 : fld w 15 11 = b.val := F [(17, 6), (a.val, 5)] (b.val) 4 [(off.toNat, 11)] rfl
  have f3 : fld w 10 0 = off.toNat := F [(17, 6), (a.val, 5), (b.val, 5)] (off.toNat) 10 [] rfl
  refine ⟨hlt, fun e he => ?_⟩
  obtain rfl : e = .seq := by simpa [sectionsOf] using he
  refine decode_of_seq ?_ hf
  unfold rawSeq
  rw [f0]
  dsimp only [cellSeq]
  simp [eh, f1, f2, f3]

theorem Laws.RoundTrip.blt (h : Hdr) (a : Fin 32) (b : Fin 32) (off : BitVec 11) : Laws.RoundTrip.Statement (.blt h a b off) := by
  intro w hw hf
  simp only [encode, encWord, Option.some.injEq] at hw
  have b0 := a.isLt
  have b1 := b.isLt
  have b2 := off.isLt
  obtain ⟨eh, hlt, F⟩ := fields h (w := w) [(18, 6), (a.val, 5), (b.val, 5), (off.toNat, 11)] (by simp only [packF, widF]; omega) rfl ⟨by omega, by omega, by omega, by omega, trivial⟩
  have f0 : fld w 26 21 = 18 := F [] 18 5 [(a.val, 5), (b.val, 5), (off.toNat, 11)] rfl
  have f1 : fld w 20 16 = a.val := F [(18, 6)] (a.val) 4 [(b.val, 5), (off.toNat, 11)] rfl
  have f2 : fld w 15 11 = b.val := F [(18, 6), (a.val, 5)] (b.val) 4 [(off.toNat, 11)] rfl
  have f3 : fld w 10 0 = off.toNat := F [(18, 6), (a.val, 5), (b.val, 5)] (off.toNat) 10 [] rfl
  refine ⟨hlt, fun e he => ?_⟩
  obtain rfl : e = .seq := by simpa [sectionsOf] using he
  refine decode_of_seq ?_ hf
  unfold rawSeq
  rw [f0]
  dsimp only [cellSeq]
  simp [eh, f1, f2, f3]

theorem Laws.RoundTrip.bge (h : Hdr) (a : Fin 32) (b : Fin 32) (off : BitVec 11) : Laws.RoundTrip.Statement (.bge h a b off) := by
  intro w hw hf
  simp only [encode, encWord, Option.some.injEq] at hw
  have b0 := a.isLt
  have b1 := b.isLt
  have b2 := off.isLt
  obtain ⟨eh, hlt, F⟩ := fields h (w := w) [(19, 6), (a.val, 5), (b.val, 5), (off.toNat, 11)] (by simp only [packF, widF]; omega) rfl ⟨by omega, by omega, by omega, by omega, trivial⟩
  have f0 : fld w 26 21 = 19 := F [] 19 5 [(a.val, 5), (b.val, 5), (off.toNat, 11)] rfl
  have f1 : fld w 20 16 = a.val := F [(19, 6)] (a.val) 4 [(b.val, 5), (off.toNat, 11)] rfl
  have f2 : fld w 15 11 = b.val := F [(19, 6), (a.val, 5)] (b.val) 4 [(off.toNat, 11)] rfl
  have f3 : fld w 10 0 = off.toNat := F [(19, 6), (a.val, 5), (b.val, 5)] (off.toNat) 10 [] rfl
  refine ⟨hlt, fun e he => ?_⟩
  obtain rfl : e = .seq := by simpa [sectionsOf] using he
  refine decode_of_seq ?_ hf
  unfold rawSeq
  rw [f0]
  dsimp only [cellSeq]
  simp [eh, f1, f2, f3]

theorem Laws.RoundTrip.bltu (h : Hdr) (a : Fin 32) (b : Fin 32) (off : BitVec 11) : Laws.RoundTrip.Statement (.bltu h a b off) := by
  intro w hw hf
  simp only [encode, encWord, Option.some.injEq] at hw
  have b0 := a.isLt
  have b1 := b.isLt
  have b2 := off.isLt
  obtain ⟨eh, hlt, F⟩ := fields h (w := w) [(20, 6), (a.val, 5), (b.val, 5), (off.toNat, 11)] (by simp only [packF, widF]; omega) rfl ⟨by omega, by omega, by omega, by omega, trivial⟩
  have f0 : fld w 26 21 = 20 := F [] 20 5 [(a.val, 5), (b.val, 5), (off.toNat, 11)] rfl
  have f1 : fld w 20 16 = a.val := F [(20, 6)] (a.val) 4 [(b.val, 5), (off.toNat, 11)] rfl
  have f2 : fld w 15 11 = b.val := F [(20, 6), (a.val, 5)] (b.val) 4 [(off.toNat, 11)] rfl
  have f3 : fld w 10 0 = off.toNat := F [(20, 6), (a.val, 5), (b.val, 5)] (off.toNat) 10 [] rfl
  refine ⟨hlt, fun e he => ?_⟩
  obtain rfl : e = .seq := by simpa [sectionsOf] using he
  refine decode_of_seq ?_ hf
  unfold rawSeq
  rw [f0]
  dsimp only [cellSeq]
  simp [eh, f1, f2, f3]

theorem Laws.RoundTrip.bgeu (h : Hdr) (a : Fin 32) (b : Fin 32) (off : BitVec 11) : Laws.RoundTrip.Statement (.bgeu h a b off) := by
  intro w hw hf
  simp only [encode, encWord, Option.some.injEq] at hw
  have b0 := a.isLt
  have b1 := b.isLt
  have b2 := off.isLt
  obtain ⟨eh, hlt, F⟩ := fields h (w := w) [(21, 6), (a.val, 5), (b.val, 5), (off.toNat, 11)] (by simp only [packF, widF]; omega) rfl ⟨by omega, by omega, by omega, by omega, trivial⟩
  have f0 : fld w 26 21 = 21 := F [] 21 5 [(a.val, 5), (b.val, 5), (off.toNat, 11)] rfl
  have f1 : fld w 20 16 = a.val := F [(21, 6)] (a.val) 4 [(b.val, 5), (off.toNat, 11)] rfl
  have f2 : fld w 15 11 = b.val := F [(21, 6), (a.val, 5)] (b.val) 4 [(off.toNat, 11)] rfl
  have f3 : fld w 10 0 = off.toNat := F [(21, 6), (a.val, 5), (b.val, 5)] (off.toNat) 10 [] rfl
  refine ⟨hlt, fun e he => ?_⟩
  obtain rfl : e = .seq := by simpa [sectionsOf] using he
  refine decode_of_seq ?_ hf
  unfold rawSeq
  rw [f0]
  dsimp only [cellSeq]
  simp [eh, f1, f2, f3]

theorem Laws.RoundTrip.ld (h : Hdr) (d : Fin 32) (a : Fin 32) (z : BitVec 2) (imm : BitVec 9) : Laws.RoundTrip.Statement (.ld h d a z imm) := by
  intro w hw hf
  simp only [encode, encWord, Option.some.injEq] at hw
  have b0 := d.isLt
  have b1 := a.isLt
  have b2 := z.isLt
  have b3 := imm.isLt
  obtain ⟨eh, hlt, F⟩ := fields h (w := w) [(22, 6), (d.val, 5), (a.val, 5), (z.toNat, 2), (imm.toNat, 9)] (by simp only [packF, widF]; omega) rfl ⟨by omega, by omega, by omega, by omega, by omega, trivial⟩
  have f0 : fld w 26 21 = 22 := F [] 22 5 [(d.val, 5), (a.val, 5), (z.toNat, 2), (imm.toNat, 9)] rfl
  have f1 : fld w 20 16 = d.val := F [(22, 6)] (d.val) 4 [(a.val, 5), (z.toNat, 2), (imm.toNat, 9)] rfl
  have f2 : fld w 15 11 = a.val := F [(22, 6), (d.val, 5)] (a.val) 4 [(z.toNat, 2), (imm.toNat, 9)] rfl
  have f3 : fld w 10 9 = z.toNat := F [(22, 6), (d.val, 5), (a.val, 5)] (z.toNat) 1 [(imm.toNat, 9)] rfl
  have f4 : fld w 8 0 = imm.toNat := F [(22, 6), (d.val, 5), (a.val, 5), (z.toNat, 2)] (imm.toNat) 8 [] rfl
  refine ⟨hlt, fun e he => ?_⟩
  obtain rfl : e = .seq := by simpa [sectionsOf] using he
  refine decode_of_seq ?_ hf
  unfold rawSeq
  rw [f0]
  dsimp only [cellSeq]
  simp [eh, f1, f2, f3, f4]

theorem Laws.RoundTrip.st (h : Hdr) (d : Fin 32) (a : Fin 32) (z : BitVec 2) (imm : BitVec 9) : Laws.RoundTrip.Statement (.st h d a z imm) := by
  intro w hw hf
  simp only [encode, encWord, Option.some.injEq] at hw
  have b0 := d.isLt
  have b1 := a.isLt
  have b2 := z.isLt
  have b3 := imm.isLt
  obtain ⟨eh, hlt, F⟩ := fields h (w := w) [(23, 6), (d.val, 5), (a.val, 5), (z.toNat, 2), (imm.toNat, 9)] (by simp only [packF, widF]; omega) rfl ⟨by omega, by omega, by omega, by omega, by omega, trivial⟩
  have f0 : fld w 26 21 = 23 := F [] 23 5 [(d.val, 5), (a.val, 5), (z.toNat, 2), (imm.toNat, 9)] rfl
  have f1 : fld w 20 16 = d.val := F [(23, 6)] (d.val) 4 [(a.val, 5), (z.toNat, 2), (imm.toNat, 9)] rfl
  have f2 : fld w 15 11 = a.val := F [(23, 6), (d.val, 5)] (a.val) 4 [(z.toNat, 2), (imm.toNat, 9)] rfl
  have f3 : fld w 10 9 = z.toNat := F [(23, 6), (d.val, 5), (a.val, 5)] (z.toNat) 1 [(imm.toNat, 9)] rfl
  have f4 : fld w 8 0 = imm.toNat := F [(23, 6), (d.val, 5), (a.val, 5), (z.toNat, 2)] (imm.toNat) 8 [] rfl
  refine ⟨hlt, fun e he => ?_⟩
  obtain rfl : e = .seq := by simpa [sectionsOf] using he
  refine decode_of_seq ?_ hf
  unfold rawSeq
  rw [f0]
  dsimp only [cellSeq]
  simp [eh, f1, f2, f3, f4]

theorem Laws.RoundTrip.ldc (h : Hdr) (d : Fin 32) (a : Fin 32) (z : BitVec 2) (imm : BitVec 9) : Laws.RoundTrip.Statement (.ldc h d a z imm) := by
  intro w hw hf
  simp only [encode, encWord, Option.some.injEq] at hw
  have b0 := d.isLt
  have b1 := a.isLt
  have b2 := z.isLt
  have b3 := imm.isLt
  obtain ⟨eh, hlt, F⟩ := fields h (w := w) [(24, 6), (d.val, 5), (a.val, 5), (z.toNat, 2), (imm.toNat, 9)] (by simp only [packF, widF]; omega) rfl ⟨by omega, by omega, by omega, by omega, by omega, trivial⟩
  have f0 : fld w 26 21 = 24 := F [] 24 5 [(d.val, 5), (a.val, 5), (z.toNat, 2), (imm.toNat, 9)] rfl
  have f1 : fld w 20 16 = d.val := F [(24, 6)] (d.val) 4 [(a.val, 5), (z.toNat, 2), (imm.toNat, 9)] rfl
  have f2 : fld w 15 11 = a.val := F [(24, 6), (d.val, 5)] (a.val) 4 [(z.toNat, 2), (imm.toNat, 9)] rfl
  have f3 : fld w 10 9 = z.toNat := F [(24, 6), (d.val, 5), (a.val, 5)] (z.toNat) 1 [(imm.toNat, 9)] rfl
  have f4 : fld w 8 0 = imm.toNat := F [(24, 6), (d.val, 5), (a.val, 5), (z.toNat, 2)] (imm.toNat) 8 [] rfl
  refine ⟨hlt, fun e he => ?_⟩
  obtain rfl : e = .seq := by simpa [sectionsOf] using he
  refine decode_of_seq ?_ hf
  unfold rawSeq
  rw [f0]
  dsimp only [cellSeq]
  simp [eh, f1, f2, f3, f4]

theorem Laws.RoundTrip.fence (h : Hdr) (k : BitVec 2) (s : BitVec 4) : Laws.RoundTrip.Statement (.fence h k s) := by
  intro w hw hf
  simp only [encode, encWord, Option.some.injEq] at hw
  have b0 := k.isLt
  have b1 := s.isLt
  obtain ⟨eh, hlt, F⟩ := fields h (w := w) [(25, 6), (0, 15), (k.toNat, 2), (s.toNat, 4)] (by simp only [packF, widF]; omega) rfl ⟨by omega, by omega, by omega, by omega, trivial⟩
  have f0 : fld w 26 21 = 25 := F [] 25 5 [(0, 15), (k.toNat, 2), (s.toNat, 4)] rfl
  have f1 : fld w 20 6 = 0 := F [(25, 6)] 0 14 [(k.toNat, 2), (s.toNat, 4)] rfl
  have f2 : fld w 5 4 = k.toNat := F [(25, 6), (0, 15)] (k.toNat) 1 [(s.toNat, 4)] rfl
  have f3 : fld w 3 0 = s.toNat := F [(25, 6), (0, 15), (k.toNat, 2)] (s.toNat) 3 [] rfl
  refine ⟨hlt, fun e he => ?_⟩
  obtain rfl : e = .seq := by simpa [sectionsOf] using he
  refine decode_of_seq ?_ hf
  unfold rawSeq
  rw [f0]
  dsimp only [cellSeq]
  simp [eh, f1, f2, f3]

theorem Laws.RoundTrip.faddx (h : Hdr) (a : Fin 32) (b : Fin 32) (x : BitVec 2) (s : BitVec 4) : Laws.RoundTrip.Statement (.faddx h a b x s) := by
  intro w hw hf
  simp only [encode, encWord, Option.some.injEq] at hw
  have b0 := a.isLt
  have b1 := b.isLt
  have b2 := x.isLt
  have b3 := s.isLt
  obtain ⟨eh, hlt, F⟩ := fields h (w := w) [(26, 6), (0, 5), (a.val, 5), (b.val, 5), (x.toNat, 2), (s.toNat, 4)] (by simp only [packF, widF]; omega) rfl ⟨by omega, by omega, by omega, by omega, by omega, by omega, trivial⟩
  have f0 : fld w 26 21 = 26 := F [] 26 5 [(0, 5), (a.val, 5), (b.val, 5), (x.toNat, 2), (s.toNat, 4)] rfl
  have f1 : fld w 20 16 = 0 := F [(26, 6)] 0 4 [(a.val, 5), (b.val, 5), (x.toNat, 2), (s.toNat, 4)] rfl
  have f2 : fld w 15 11 = a.val := F [(26, 6), (0, 5)] (a.val) 4 [(b.val, 5), (x.toNat, 2), (s.toNat, 4)] rfl
  have f3 : fld w 10 6 = b.val := F [(26, 6), (0, 5), (a.val, 5)] (b.val) 4 [(x.toNat, 2), (s.toNat, 4)] rfl
  have f4 : fld w 5 4 = x.toNat := F [(26, 6), (0, 5), (a.val, 5), (b.val, 5)] (x.toNat) 1 [(s.toNat, 4)] rfl
  have f5 : fld w 3 0 = s.toNat := F [(26, 6), (0, 5), (a.val, 5), (b.val, 5), (x.toNat, 2)] (s.toNat) 3 [] rfl
  refine ⟨hlt, fun e he => ?_⟩
  obtain rfl : e = .seq := by simpa [sectionsOf] using he
  refine decode_of_seq ?_ hf
  unfold rawSeq
  rw [f0]
  dsimp only [cellSeq]
  simp [eh, f1, f2, f3, f4, f5]

theorem Laws.RoundTrip.xrd (h : Hdr) (d : Fin 32) (a : Fin 32) (m : BitVec 3) (x : BitVec 2) (s : BitVec 4) : Laws.RoundTrip.Statement (.xrd h d a m x s) := by
  intro w hw hf
  simp only [encode, encWord, Option.some.injEq] at hw
  have b0 := d.isLt
  have b1 := a.isLt
  have b2 := m.isLt
  have b3 := x.isLt
  have b4 := s.isLt
  obtain ⟨eh, hlt, F⟩ := fields h (w := w) [(27, 6), (d.val, 5), (a.val, 5), (0, 2), (m.toNat, 3), (x.toNat, 2), (s.toNat, 4)] (by simp only [packF, widF]; omega) rfl ⟨by omega, by omega, by omega, by omega, by omega, by omega, by omega, trivial⟩
  have f0 : fld w 26 21 = 27 := F [] 27 5 [(d.val, 5), (a.val, 5), (0, 2), (m.toNat, 3), (x.toNat, 2), (s.toNat, 4)] rfl
  have f1 : fld w 20 16 = d.val := F [(27, 6)] (d.val) 4 [(a.val, 5), (0, 2), (m.toNat, 3), (x.toNat, 2), (s.toNat, 4)] rfl
  have f2 : fld w 15 11 = a.val := F [(27, 6), (d.val, 5)] (a.val) 4 [(0, 2), (m.toNat, 3), (x.toNat, 2), (s.toNat, 4)] rfl
  have f3 : fld w 10 9 = 0 := F [(27, 6), (d.val, 5), (a.val, 5)] 0 1 [(m.toNat, 3), (x.toNat, 2), (s.toNat, 4)] rfl
  have f4 : fld w 8 6 = m.toNat := F [(27, 6), (d.val, 5), (a.val, 5), (0, 2)] (m.toNat) 2 [(x.toNat, 2), (s.toNat, 4)] rfl
  have f5 : fld w 5 4 = x.toNat := F [(27, 6), (d.val, 5), (a.val, 5), (0, 2), (m.toNat, 3)] (x.toNat) 1 [(s.toNat, 4)] rfl
  have f6 : fld w 3 0 = s.toNat := F [(27, 6), (d.val, 5), (a.val, 5), (0, 2), (m.toNat, 3), (x.toNat, 2)] (s.toNat) 3 [] rfl
  refine ⟨hlt, fun e he => ?_⟩
  obtain rfl : e = .seq := by simpa [sectionsOf] using he
  refine decode_of_seq ?_ hf
  unfold rawSeq
  rw [f0]
  dsimp only [cellSeq]
  simp [eh, f1, f2, f3, f4, f5, f6]

theorem Laws.RoundTrip.tkg (wv : BitVec 3) (p : BitVec 4) : Laws.RoundTrip.Statement (.tkg wv p) := by
  intro w hw hf
  simp only [encode, encWord, Option.some.injEq] at hw
  have b0 := wv.isLt
  have b1 := p.isLt
  obtain ⟨eh, hlt, F⟩ := fields ⟨wv, false, false⟩ (w := w) [(28, 6), (0, 17), (p.toNat, 4)] (by simp only [hdrWord, ofBool, Bool.false_eq_true, if_false, packF, widF]; omega) rfl ⟨by omega, by omega, by omega, trivial⟩
  have f0 : fld w 26 21 = 28 := F [] 28 5 [(0, 17), (p.toNat, 4)] rfl
  have f1 : fld w 20 4 = 0 := F [(28, 6)] 0 16 [(p.toNat, 4)] rfl
  have f2 : fld w 3 0 = p.toNat := F [(28, 6), (0, 17)] (p.toNat) 3 [] rfl
  have g1 : fld w 28 27 = 0 := by rw [← hw]; simp only [fld, Nat.reducePow, Nat.reduceAdd, Nat.reduceSub]; omega
  have g2 : fld w 31 29 = wv.toNat := by rw [← hw]; simp only [fld, Nat.reducePow, Nat.reduceAdd, Nat.reduceSub]; omega
  refine ⟨hlt, fun e he => ?_⟩
  obtain rfl : e = .seq := by simpa [sectionsOf] using he
  refine decode_of_seq ?_ hf
  unfold rawSeq
  rw [f0]
  dsimp only [cellSeq]
  simp [eh, f1, f2, g1, g2]

theorem Laws.RoundTrip.tkt (wv : BitVec 3) (p : BitVec 4) : Laws.RoundTrip.Statement (.tkt wv p) := by
  intro w hw hf
  simp only [encode, encWord, Option.some.injEq] at hw
  have b0 := wv.isLt
  have b1 := p.isLt
  obtain ⟨eh, hlt, F⟩ := fields ⟨wv, false, false⟩ (w := w) [(29, 6), (0, 17), (p.toNat, 4)] (by simp only [hdrWord, ofBool, Bool.false_eq_true, if_false, packF, widF]; omega) rfl ⟨by omega, by omega, by omega, trivial⟩
  have f0 : fld w 26 21 = 29 := F [] 29 5 [(0, 17), (p.toNat, 4)] rfl
  have f1 : fld w 20 4 = 0 := F [(29, 6)] 0 16 [(p.toNat, 4)] rfl
  have f2 : fld w 3 0 = p.toNat := F [(29, 6), (0, 17)] (p.toNat) 3 [] rfl
  have g1 : fld w 28 27 = 0 := by rw [← hw]; simp only [fld, Nat.reducePow, Nat.reduceAdd, Nat.reduceSub]; omega
  have g2 : fld w 31 29 = wv.toNat := by rw [← hw]; simp only [fld, Nat.reducePow, Nat.reduceAdd, Nat.reduceSub]; omega
  refine ⟨hlt, fun e he => ?_⟩
  obtain rfl : e = .seq := by simpa [sectionsOf] using he
  refine decode_of_seq ?_ hf
  unfold rawSeq
  rw [f0]
  dsimp only [cellSeq]
  simp [eh, f1, f2, g1, g2]

theorem Laws.RoundTrip.tkq (wv : BitVec 3) (d : Fin 32) (a : Fin 32) (imm : BitVec 11) : Laws.RoundTrip.Statement (.tkq wv d a imm) := by
  intro w hw hf
  simp only [encode, encWord, Option.some.injEq] at hw
  have b0 := wv.isLt
  have b1 := d.isLt
  have b2 := a.isLt
  have b3 := imm.isLt
  obtain ⟨eh, hlt, F⟩ := fields ⟨wv, false, false⟩ (w := w) [(30, 6), (d.val, 5), (a.val, 5), (imm.toNat, 11)] (by simp only [hdrWord, ofBool, Bool.false_eq_true, if_false, packF, widF]; omega) rfl ⟨by omega, by omega, by omega, by omega, trivial⟩
  have f0 : fld w 26 21 = 30 := F [] 30 5 [(d.val, 5), (a.val, 5), (imm.toNat, 11)] rfl
  have f1 : fld w 20 16 = d.val := F [(30, 6)] (d.val) 4 [(a.val, 5), (imm.toNat, 11)] rfl
  have f2 : fld w 15 11 = a.val := F [(30, 6), (d.val, 5)] (a.val) 4 [(imm.toNat, 11)] rfl
  have f3 : fld w 10 0 = imm.toNat := F [(30, 6), (d.val, 5), (a.val, 5)] (imm.toNat) 10 [] rfl
  have g1 : fld w 28 27 = 0 := by rw [← hw]; simp only [fld, Nat.reducePow, Nat.reduceAdd, Nat.reduceSub]; omega
  have g2 : fld w 31 29 = wv.toNat := by rw [← hw]; simp only [fld, Nat.reducePow, Nat.reduceAdd, Nat.reduceSub]; omega
  refine ⟨hlt, fun e he => ?_⟩
  obtain rfl : e = .seq := by simpa [sectionsOf] using he
  refine decode_of_seq ?_ hf
  unfold rawSeq
  rw [f0]
  dsimp only [cellSeq]
  simp [eh, f1, f2, f3, g1, g2]

theorem Laws.RoundTrip.amoAdd (h : Hdr) (d : Fin 32) (a : Fin 32) (b : Fin 32) (x : BitVec 2) (s : BitVec 4) : Laws.RoundTrip.Statement (.amoAdd h d a b x s) := by
  intro w hw hf
  simp only [encode, encWord, Option.some.injEq] at hw
  have b0 := d.isLt
  have b1 := a.isLt
  have b2 := b.isLt
  have b3 := x.isLt
  have b4 := s.isLt
  obtain ⟨eh, hlt, F⟩ := fields h (w := w) [(32, 6), (d.val, 5), (a.val, 5), (b.val, 5), (x.toNat, 2), (s.toNat, 4)] (by simp only [packF, widF]; omega) rfl ⟨by omega, by omega, by omega, by omega, by omega, by omega, trivial⟩
  have f0 : fld w 26 21 = 32 := F [] 32 5 [(d.val, 5), (a.val, 5), (b.val, 5), (x.toNat, 2), (s.toNat, 4)] rfl
  have f1 : fld w 20 16 = d.val := F [(32, 6)] (d.val) 4 [(a.val, 5), (b.val, 5), (x.toNat, 2), (s.toNat, 4)] rfl
  have f2 : fld w 15 11 = a.val := F [(32, 6), (d.val, 5)] (a.val) 4 [(b.val, 5), (x.toNat, 2), (s.toNat, 4)] rfl
  have f3 : fld w 10 6 = b.val := F [(32, 6), (d.val, 5), (a.val, 5)] (b.val) 4 [(x.toNat, 2), (s.toNat, 4)] rfl
  have f4 : fld w 5 4 = x.toNat := F [(32, 6), (d.val, 5), (a.val, 5), (b.val, 5)] (x.toNat) 1 [(s.toNat, 4)] rfl
  have f5 : fld w 3 0 = s.toNat := F [(32, 6), (d.val, 5), (a.val, 5), (b.val, 5), (x.toNat, 2)] (s.toNat) 3 [] rfl
  refine ⟨hlt, fun e he => ?_⟩
  obtain rfl : e = .seq := by simpa [sectionsOf] using he
  refine decode_of_seq ?_ hf
  unfold rawSeq
  rw [f0]
  dsimp only [cellSeq]
  simp [eh, f1, f2, f3, f4, f5]

theorem Laws.RoundTrip.amoAnd (h : Hdr) (d : Fin 32) (a : Fin 32) (b : Fin 32) (x : BitVec 2) (s : BitVec 4) : Laws.RoundTrip.Statement (.amoAnd h d a b x s) := by
  intro w hw hf
  simp only [encode, encWord, Option.some.injEq] at hw
  have b0 := d.isLt
  have b1 := a.isLt
  have b2 := b.isLt
  have b3 := x.isLt
  have b4 := s.isLt
  obtain ⟨eh, hlt, F⟩ := fields h (w := w) [(33, 6), (d.val, 5), (a.val, 5), (b.val, 5), (x.toNat, 2), (s.toNat, 4)] (by simp only [packF, widF]; omega) rfl ⟨by omega, by omega, by omega, by omega, by omega, by omega, trivial⟩
  have f0 : fld w 26 21 = 33 := F [] 33 5 [(d.val, 5), (a.val, 5), (b.val, 5), (x.toNat, 2), (s.toNat, 4)] rfl
  have f1 : fld w 20 16 = d.val := F [(33, 6)] (d.val) 4 [(a.val, 5), (b.val, 5), (x.toNat, 2), (s.toNat, 4)] rfl
  have f2 : fld w 15 11 = a.val := F [(33, 6), (d.val, 5)] (a.val) 4 [(b.val, 5), (x.toNat, 2), (s.toNat, 4)] rfl
  have f3 : fld w 10 6 = b.val := F [(33, 6), (d.val, 5), (a.val, 5)] (b.val) 4 [(x.toNat, 2), (s.toNat, 4)] rfl
  have f4 : fld w 5 4 = x.toNat := F [(33, 6), (d.val, 5), (a.val, 5), (b.val, 5)] (x.toNat) 1 [(s.toNat, 4)] rfl
  have f5 : fld w 3 0 = s.toNat := F [(33, 6), (d.val, 5), (a.val, 5), (b.val, 5), (x.toNat, 2)] (s.toNat) 3 [] rfl
  refine ⟨hlt, fun e he => ?_⟩
  obtain rfl : e = .seq := by simpa [sectionsOf] using he
  refine decode_of_seq ?_ hf
  unfold rawSeq
  rw [f0]
  dsimp only [cellSeq]
  simp [eh, f1, f2, f3, f4, f5]

theorem Laws.RoundTrip.amoOr (h : Hdr) (d : Fin 32) (a : Fin 32) (b : Fin 32) (x : BitVec 2) (s : BitVec 4) : Laws.RoundTrip.Statement (.amoOr h d a b x s) := by
  intro w hw hf
  simp only [encode, encWord, Option.some.injEq] at hw
  have b0 := d.isLt
  have b1 := a.isLt
  have b2 := b.isLt
  have b3 := x.isLt
  have b4 := s.isLt
  obtain ⟨eh, hlt, F⟩ := fields h (w := w) [(34, 6), (d.val, 5), (a.val, 5), (b.val, 5), (x.toNat, 2), (s.toNat, 4)] (by simp only [packF, widF]; omega) rfl ⟨by omega, by omega, by omega, by omega, by omega, by omega, trivial⟩
  have f0 : fld w 26 21 = 34 := F [] 34 5 [(d.val, 5), (a.val, 5), (b.val, 5), (x.toNat, 2), (s.toNat, 4)] rfl
  have f1 : fld w 20 16 = d.val := F [(34, 6)] (d.val) 4 [(a.val, 5), (b.val, 5), (x.toNat, 2), (s.toNat, 4)] rfl
  have f2 : fld w 15 11 = a.val := F [(34, 6), (d.val, 5)] (a.val) 4 [(b.val, 5), (x.toNat, 2), (s.toNat, 4)] rfl
  have f3 : fld w 10 6 = b.val := F [(34, 6), (d.val, 5), (a.val, 5)] (b.val) 4 [(x.toNat, 2), (s.toNat, 4)] rfl
  have f4 : fld w 5 4 = x.toNat := F [(34, 6), (d.val, 5), (a.val, 5), (b.val, 5)] (x.toNat) 1 [(s.toNat, 4)] rfl
  have f5 : fld w 3 0 = s.toNat := F [(34, 6), (d.val, 5), (a.val, 5), (b.val, 5), (x.toNat, 2)] (s.toNat) 3 [] rfl
  refine ⟨hlt, fun e he => ?_⟩
  obtain rfl : e = .seq := by simpa [sectionsOf] using he
  refine decode_of_seq ?_ hf
  unfold rawSeq
  rw [f0]
  dsimp only [cellSeq]
  simp [eh, f1, f2, f3, f4, f5]

theorem Laws.RoundTrip.amoXor (h : Hdr) (d : Fin 32) (a : Fin 32) (b : Fin 32) (x : BitVec 2) (s : BitVec 4) : Laws.RoundTrip.Statement (.amoXor h d a b x s) := by
  intro w hw hf
  simp only [encode, encWord, Option.some.injEq] at hw
  have b0 := d.isLt
  have b1 := a.isLt
  have b2 := b.isLt
  have b3 := x.isLt
  have b4 := s.isLt
  obtain ⟨eh, hlt, F⟩ := fields h (w := w) [(35, 6), (d.val, 5), (a.val, 5), (b.val, 5), (x.toNat, 2), (s.toNat, 4)] (by simp only [packF, widF]; omega) rfl ⟨by omega, by omega, by omega, by omega, by omega, by omega, trivial⟩
  have f0 : fld w 26 21 = 35 := F [] 35 5 [(d.val, 5), (a.val, 5), (b.val, 5), (x.toNat, 2), (s.toNat, 4)] rfl
  have f1 : fld w 20 16 = d.val := F [(35, 6)] (d.val) 4 [(a.val, 5), (b.val, 5), (x.toNat, 2), (s.toNat, 4)] rfl
  have f2 : fld w 15 11 = a.val := F [(35, 6), (d.val, 5)] (a.val) 4 [(b.val, 5), (x.toNat, 2), (s.toNat, 4)] rfl
  have f3 : fld w 10 6 = b.val := F [(35, 6), (d.val, 5), (a.val, 5)] (b.val) 4 [(x.toNat, 2), (s.toNat, 4)] rfl
  have f4 : fld w 5 4 = x.toNat := F [(35, 6), (d.val, 5), (a.val, 5), (b.val, 5)] (x.toNat) 1 [(s.toNat, 4)] rfl
  have f5 : fld w 3 0 = s.toNat := F [(35, 6), (d.val, 5), (a.val, 5), (b.val, 5), (x.toNat, 2)] (s.toNat) 3 [] rfl
  refine ⟨hlt, fun e he => ?_⟩
  obtain rfl : e = .seq := by simpa [sectionsOf] using he
  refine decode_of_seq ?_ hf
  unfold rawSeq
  rw [f0]
  dsimp only [cellSeq]
  simp [eh, f1, f2, f3, f4, f5]

theorem Laws.RoundTrip.amoMin (h : Hdr) (d : Fin 32) (a : Fin 32) (b : Fin 32) (x : BitVec 2) (s : BitVec 4) : Laws.RoundTrip.Statement (.amoMin h d a b x s) := by
  intro w hw hf
  simp only [encode, encWord, Option.some.injEq] at hw
  have b0 := d.isLt
  have b1 := a.isLt
  have b2 := b.isLt
  have b3 := x.isLt
  have b4 := s.isLt
  obtain ⟨eh, hlt, F⟩ := fields h (w := w) [(36, 6), (d.val, 5), (a.val, 5), (b.val, 5), (x.toNat, 2), (s.toNat, 4)] (by simp only [packF, widF]; omega) rfl ⟨by omega, by omega, by omega, by omega, by omega, by omega, trivial⟩
  have f0 : fld w 26 21 = 36 := F [] 36 5 [(d.val, 5), (a.val, 5), (b.val, 5), (x.toNat, 2), (s.toNat, 4)] rfl
  have f1 : fld w 20 16 = d.val := F [(36, 6)] (d.val) 4 [(a.val, 5), (b.val, 5), (x.toNat, 2), (s.toNat, 4)] rfl
  have f2 : fld w 15 11 = a.val := F [(36, 6), (d.val, 5)] (a.val) 4 [(b.val, 5), (x.toNat, 2), (s.toNat, 4)] rfl
  have f3 : fld w 10 6 = b.val := F [(36, 6), (d.val, 5), (a.val, 5)] (b.val) 4 [(x.toNat, 2), (s.toNat, 4)] rfl
  have f4 : fld w 5 4 = x.toNat := F [(36, 6), (d.val, 5), (a.val, 5), (b.val, 5)] (x.toNat) 1 [(s.toNat, 4)] rfl
  have f5 : fld w 3 0 = s.toNat := F [(36, 6), (d.val, 5), (a.val, 5), (b.val, 5), (x.toNat, 2)] (s.toNat) 3 [] rfl
  refine ⟨hlt, fun e he => ?_⟩
  obtain rfl : e = .seq := by simpa [sectionsOf] using he
  refine decode_of_seq ?_ hf
  unfold rawSeq
  rw [f0]
  dsimp only [cellSeq]
  simp [eh, f1, f2, f3, f4, f5]

theorem Laws.RoundTrip.amoMax (h : Hdr) (d : Fin 32) (a : Fin 32) (b : Fin 32) (x : BitVec 2) (s : BitVec 4) : Laws.RoundTrip.Statement (.amoMax h d a b x s) := by
  intro w hw hf
  simp only [encode, encWord, Option.some.injEq] at hw
  have b0 := d.isLt
  have b1 := a.isLt
  have b2 := b.isLt
  have b3 := x.isLt
  have b4 := s.isLt
  obtain ⟨eh, hlt, F⟩ := fields h (w := w) [(37, 6), (d.val, 5), (a.val, 5), (b.val, 5), (x.toNat, 2), (s.toNat, 4)] (by simp only [packF, widF]; omega) rfl ⟨by omega, by omega, by omega, by omega, by omega, by omega, trivial⟩
  have f0 : fld w 26 21 = 37 := F [] 37 5 [(d.val, 5), (a.val, 5), (b.val, 5), (x.toNat, 2), (s.toNat, 4)] rfl
  have f1 : fld w 20 16 = d.val := F [(37, 6)] (d.val) 4 [(a.val, 5), (b.val, 5), (x.toNat, 2), (s.toNat, 4)] rfl
  have f2 : fld w 15 11 = a.val := F [(37, 6), (d.val, 5)] (a.val) 4 [(b.val, 5), (x.toNat, 2), (s.toNat, 4)] rfl
  have f3 : fld w 10 6 = b.val := F [(37, 6), (d.val, 5), (a.val, 5)] (b.val) 4 [(x.toNat, 2), (s.toNat, 4)] rfl
  have f4 : fld w 5 4 = x.toNat := F [(37, 6), (d.val, 5), (a.val, 5), (b.val, 5)] (x.toNat) 1 [(s.toNat, 4)] rfl
  have f5 : fld w 3 0 = s.toNat := F [(37, 6), (d.val, 5), (a.val, 5), (b.val, 5), (x.toNat, 2)] (s.toNat) 3 [] rfl
  refine ⟨hlt, fun e he => ?_⟩
  obtain rfl : e = .seq := by simpa [sectionsOf] using he
  refine decode_of_seq ?_ hf
  unfold rawSeq
  rw [f0]
  dsimp only [cellSeq]
  simp [eh, f1, f2, f3, f4, f5]

theorem Laws.RoundTrip.amoMinu (h : Hdr) (d : Fin 32) (a : Fin 32) (b : Fin 32) (x : BitVec 2) (s : BitVec 4) : Laws.RoundTrip.Statement (.amoMinu h d a b x s) := by
  intro w hw hf
  simp only [encode, encWord, Option.some.injEq] at hw
  have b0 := d.isLt
  have b1 := a.isLt
  have b2 := b.isLt
  have b3 := x.isLt
  have b4 := s.isLt
  obtain ⟨eh, hlt, F⟩ := fields h (w := w) [(38, 6), (d.val, 5), (a.val, 5), (b.val, 5), (x.toNat, 2), (s.toNat, 4)] (by simp only [packF, widF]; omega) rfl ⟨by omega, by omega, by omega, by omega, by omega, by omega, trivial⟩
  have f0 : fld w 26 21 = 38 := F [] 38 5 [(d.val, 5), (a.val, 5), (b.val, 5), (x.toNat, 2), (s.toNat, 4)] rfl
  have f1 : fld w 20 16 = d.val := F [(38, 6)] (d.val) 4 [(a.val, 5), (b.val, 5), (x.toNat, 2), (s.toNat, 4)] rfl
  have f2 : fld w 15 11 = a.val := F [(38, 6), (d.val, 5)] (a.val) 4 [(b.val, 5), (x.toNat, 2), (s.toNat, 4)] rfl
  have f3 : fld w 10 6 = b.val := F [(38, 6), (d.val, 5), (a.val, 5)] (b.val) 4 [(x.toNat, 2), (s.toNat, 4)] rfl
  have f4 : fld w 5 4 = x.toNat := F [(38, 6), (d.val, 5), (a.val, 5), (b.val, 5)] (x.toNat) 1 [(s.toNat, 4)] rfl
  have f5 : fld w 3 0 = s.toNat := F [(38, 6), (d.val, 5), (a.val, 5), (b.val, 5), (x.toNat, 2)] (s.toNat) 3 [] rfl
  refine ⟨hlt, fun e he => ?_⟩
  obtain rfl : e = .seq := by simpa [sectionsOf] using he
  refine decode_of_seq ?_ hf
  unfold rawSeq
  rw [f0]
  dsimp only [cellSeq]
  simp [eh, f1, f2, f3, f4, f5]

theorem Laws.RoundTrip.amoMaxu (h : Hdr) (d : Fin 32) (a : Fin 32) (b : Fin 32) (x : BitVec 2) (s : BitVec 4) : Laws.RoundTrip.Statement (.amoMaxu h d a b x s) := by
  intro w hw hf
  simp only [encode, encWord, Option.some.injEq] at hw
  have b0 := d.isLt
  have b1 := a.isLt
  have b2 := b.isLt
  have b3 := x.isLt
  have b4 := s.isLt
  obtain ⟨eh, hlt, F⟩ := fields h (w := w) [(39, 6), (d.val, 5), (a.val, 5), (b.val, 5), (x.toNat, 2), (s.toNat, 4)] (by simp only [packF, widF]; omega) rfl ⟨by omega, by omega, by omega, by omega, by omega, by omega, trivial⟩
  have f0 : fld w 26 21 = 39 := F [] 39 5 [(d.val, 5), (a.val, 5), (b.val, 5), (x.toNat, 2), (s.toNat, 4)] rfl
  have f1 : fld w 20 16 = d.val := F [(39, 6)] (d.val) 4 [(a.val, 5), (b.val, 5), (x.toNat, 2), (s.toNat, 4)] rfl
  have f2 : fld w 15 11 = a.val := F [(39, 6), (d.val, 5)] (a.val) 4 [(b.val, 5), (x.toNat, 2), (s.toNat, 4)] rfl
  have f3 : fld w 10 6 = b.val := F [(39, 6), (d.val, 5), (a.val, 5)] (b.val) 4 [(x.toNat, 2), (s.toNat, 4)] rfl
  have f4 : fld w 5 4 = x.toNat := F [(39, 6), (d.val, 5), (a.val, 5), (b.val, 5)] (x.toNat) 1 [(s.toNat, 4)] rfl
  have f5 : fld w 3 0 = s.toNat := F [(39, 6), (d.val, 5), (a.val, 5), (b.val, 5), (x.toNat, 2)] (s.toNat) 3 [] rfl
  refine ⟨hlt, fun e he => ?_⟩
  obtain rfl : e = .seq := by simpa [sectionsOf] using he
  refine decode_of_seq ?_ hf
  unfold rawSeq
  rw [f0]
  dsimp only [cellSeq]
  simp [eh, f1, f2, f3, f4, f5]

theorem Laws.RoundTrip.amoSwap (h : Hdr) (d : Fin 32) (a : Fin 32) (b : Fin 32) (x : BitVec 2) (s : BitVec 4) : Laws.RoundTrip.Statement (.amoSwap h d a b x s) := by
  intro w hw hf
  simp only [encode, encWord, Option.some.injEq] at hw
  have b0 := d.isLt
  have b1 := a.isLt
  have b2 := b.isLt
  have b3 := x.isLt
  have b4 := s.isLt
  obtain ⟨eh, hlt, F⟩ := fields h (w := w) [(40, 6), (d.val, 5), (a.val, 5), (b.val, 5), (x.toNat, 2), (s.toNat, 4)] (by simp only [packF, widF]; omega) rfl ⟨by omega, by omega, by omega, by omega, by omega, by omega, trivial⟩
  have f0 : fld w 26 21 = 40 := F [] 40 5 [(d.val, 5), (a.val, 5), (b.val, 5), (x.toNat, 2), (s.toNat, 4)] rfl
  have f1 : fld w 20 16 = d.val := F [(40, 6)] (d.val) 4 [(a.val, 5), (b.val, 5), (x.toNat, 2), (s.toNat, 4)] rfl
  have f2 : fld w 15 11 = a.val := F [(40, 6), (d.val, 5)] (a.val) 4 [(b.val, 5), (x.toNat, 2), (s.toNat, 4)] rfl
  have f3 : fld w 10 6 = b.val := F [(40, 6), (d.val, 5), (a.val, 5)] (b.val) 4 [(x.toNat, 2), (s.toNat, 4)] rfl
  have f4 : fld w 5 4 = x.toNat := F [(40, 6), (d.val, 5), (a.val, 5), (b.val, 5)] (x.toNat) 1 [(s.toNat, 4)] rfl
  have f5 : fld w 3 0 = s.toNat := F [(40, 6), (d.val, 5), (a.val, 5), (b.val, 5), (x.toNat, 2)] (s.toNat) 3 [] rfl
  refine ⟨hlt, fun e he => ?_⟩
  obtain rfl : e = .seq := by simpa [sectionsOf] using he
  refine decode_of_seq ?_ hf
  unfold rawSeq
  rw [f0]
  dsimp only [cellSeq]
  simp [eh, f1, f2, f3, f4, f5]

theorem Laws.RoundTrip.amoCas (h : Hdr) (d : Fin 32) (a : Fin 32) (b : Fin 32) (x : BitVec 2) (s : BitVec 4) : Laws.RoundTrip.Statement (.amoCas h d a b x s) := by
  intro w hw hf
  simp only [encode, encWord, Option.some.injEq] at hw
  have b0 := d.isLt
  have b1 := a.isLt
  have b2 := b.isLt
  have b3 := x.isLt
  have b4 := s.isLt
  obtain ⟨eh, hlt, F⟩ := fields h (w := w) [(41, 6), (d.val, 5), (a.val, 5), (b.val, 5), (x.toNat, 2), (s.toNat, 4)] (by simp only [packF, widF]; omega) rfl ⟨by omega, by omega, by omega, by omega, by omega, by omega, trivial⟩
  have f0 : fld w 26 21 = 41 := F [] 41 5 [(d.val, 5), (a.val, 5), (b.val, 5), (x.toNat, 2), (s.toNat, 4)] rfl
  have f1 : fld w 20 16 = d.val := F [(41, 6)] (d.val) 4 [(a.val, 5), (b.val, 5), (x.toNat, 2), (s.toNat, 4)] rfl
  have f2 : fld w 15 11 = a.val := F [(41, 6), (d.val, 5)] (a.val) 4 [(b.val, 5), (x.toNat, 2), (s.toNat, 4)] rfl
  have f3 : fld w 10 6 = b.val := F [(41, 6), (d.val, 5), (a.val, 5)] (b.val) 4 [(x.toNat, 2), (s.toNat, 4)] rfl
  have f4 : fld w 5 4 = x.toNat := F [(41, 6), (d.val, 5), (a.val, 5), (b.val, 5)] (x.toNat) 1 [(s.toNat, 4)] rfl
  have f5 : fld w 3 0 = s.toNat := F [(41, 6), (d.val, 5), (a.val, 5), (b.val, 5), (x.toNat, 2)] (s.toNat) 3 [] rfl
  refine ⟨hlt, fun e he => ?_⟩
  obtain rfl : e = .seq := by simpa [sectionsOf] using he
  refine decode_of_seq ?_ hf
  unfold rawSeq
  rw [f0]
  dsimp only [cellSeq]
  simp [eh, f1, f2, f3, f4, f5]

theorem Laws.RoundTrip.qstart (h : Hdr) (a : Fin 32) (m : BitVec 3) : Laws.RoundTrip.Statement (.qstart h a m) := by
  intro w hw hf
  simp only [encode, encWord, Option.some.injEq] at hw
  have b0 := a.isLt
  have b1 := m.isLt
  obtain ⟨eh, hlt, F⟩ := fields h (w := w) [(42, 6), (0, 5), (a.val, 5), (0, 8), (m.toNat, 3)] (by simp only [packF, widF]; omega) rfl ⟨by omega, by omega, by omega, by omega, by omega, trivial⟩
  have f0 : fld w 26 21 = 42 := F [] 42 5 [(0, 5), (a.val, 5), (0, 8), (m.toNat, 3)] rfl
  have f1 : fld w 20 16 = 0 := F [(42, 6)] 0 4 [(a.val, 5), (0, 8), (m.toNat, 3)] rfl
  have f2 : fld w 15 11 = a.val := F [(42, 6), (0, 5)] (a.val) 4 [(0, 8), (m.toNat, 3)] rfl
  have f3 : fld w 10 3 = 0 := F [(42, 6), (0, 5), (a.val, 5)] 0 7 [(m.toNat, 3)] rfl
  have f4 : fld w 2 0 = m.toNat := F [(42, 6), (0, 5), (a.val, 5), (0, 8)] (m.toNat) 2 [] rfl
  refine ⟨hlt, fun e he => ?_⟩
  obtain rfl : e = .seq := by simpa [sectionsOf] using he
  refine decode_of_seq ?_ hf
  unfold rawSeq
  rw [f0]
  dsimp only [cellSeq]
  simp [eh, f1, f2, f3, f4]

theorem Laws.RoundTrip.qstop (h : Hdr) (a : Fin 32) (m : BitVec 3) : Laws.RoundTrip.Statement (.qstop h a m) := by
  intro w hw hf
  simp only [encode, encWord, Option.some.injEq] at hw
  have b0 := a.isLt
  have b1 := m.isLt
  obtain ⟨eh, hlt, F⟩ := fields h (w := w) [(43, 6), (0, 5), (a.val, 5), (0, 8), (m.toNat, 3)] (by simp only [packF, widF]; omega) rfl ⟨by omega, by omega, by omega, by omega, by omega, trivial⟩
  have f0 : fld w 26 21 = 43 := F [] 43 5 [(0, 5), (a.val, 5), (0, 8), (m.toNat, 3)] rfl
  have f1 : fld w 20 16 = 0 := F [(43, 6)] 0 4 [(a.val, 5), (0, 8), (m.toNat, 3)] rfl
  have f2 : fld w 15 11 = a.val := F [(43, 6), (0, 5)] (a.val) 4 [(0, 8), (m.toNat, 3)] rfl
  have f3 : fld w 10 3 = 0 := F [(43, 6), (0, 5), (a.val, 5)] 0 7 [(m.toNat, 3)] rfl
  have f4 : fld w 2 0 = m.toNat := F [(43, 6), (0, 5), (a.val, 5), (0, 8)] (m.toNat) 2 [] rfl
  refine ⟨hlt, fun e he => ?_⟩
  obtain rfl : e = .seq := by simpa [sectionsOf] using he
  refine decode_of_seq ?_ hf
  unfold rawSeq
  rw [f0]
  dsimp only [cellSeq]
  simp [eh, f1, f2, f3, f4]

theorem Laws.RoundTrip.qstat (h : Hdr) (d : Fin 32) (a : Fin 32) (e : BitVec 3) : Laws.RoundTrip.Statement (.qstat h d a e) := by
  intro w hw hf
  simp only [encode, encWord, Option.some.injEq] at hw
  have b0 := d.isLt
  have b1 := a.isLt
  have b2 := e.isLt
  obtain ⟨eh, hlt, F⟩ := fields h (w := w) [(44, 6), (d.val, 5), (a.val, 5), (0, 8), (e.toNat, 3)] (by simp only [packF, widF]; omega) rfl ⟨by omega, by omega, by omega, by omega, by omega, trivial⟩
  have f0 : fld w 26 21 = 44 := F [] 44 5 [(d.val, 5), (a.val, 5), (0, 8), (e.toNat, 3)] rfl
  have f1 : fld w 20 16 = d.val := F [(44, 6)] (d.val) 4 [(a.val, 5), (0, 8), (e.toNat, 3)] rfl
  have f2 : fld w 15 11 = a.val := F [(44, 6), (d.val, 5)] (a.val) 4 [(0, 8), (e.toNat, 3)] rfl
  have f3 : fld w 10 3 = 0 := F [(44, 6), (d.val, 5), (a.val, 5)] 0 7 [(e.toNat, 3)] rfl
  have f4 : fld w 2 0 = e.toNat := F [(44, 6), (d.val, 5), (a.val, 5), (0, 8)] (e.toNat) 2 [] rfl
  refine ⟨hlt, fun e he => ?_⟩
  obtain rfl : e = .seq := by simpa [sectionsOf] using he
  refine decode_of_seq ?_ hf
  unfold rawSeq
  rw [f0]
  dsimp only [cellSeq]
  simp [eh, f1, f2, f3, f4]

theorem Laws.RoundTrip.fix (wv : BitVec 3) (a : Fin 32) (imm : BitVec 11) : Laws.RoundTrip.Statement (.fix wv a imm) := by
  intro w hw hf
  simp only [encode, encWord, Option.some.injEq] at hw
  have b0 := wv.isLt
  have b1 := a.isLt
  have b2 := imm.isLt
  obtain ⟨eh, hlt, F⟩ := fields ⟨wv, false, false⟩ (w := w) [(45, 6), (0, 5), (a.val, 5), (imm.toNat, 11)] (by simp only [hdrWord, ofBool, Bool.false_eq_true, if_false, packF, widF]; omega) rfl ⟨by omega, by omega, by omega, by omega, trivial⟩
  have f0 : fld w 26 21 = 45 := F [] 45 5 [(0, 5), (a.val, 5), (imm.toNat, 11)] rfl
  have f1 : fld w 20 16 = 0 := F [(45, 6)] 0 4 [(a.val, 5), (imm.toNat, 11)] rfl
  have f2 : fld w 15 11 = a.val := F [(45, 6), (0, 5)] (a.val) 4 [(imm.toNat, 11)] rfl
  have f3 : fld w 10 0 = imm.toNat := F [(45, 6), (0, 5), (a.val, 5)] (imm.toNat) 10 [] rfl
  have g1 : fld w 28 27 = 0 := by rw [← hw]; simp only [fld, Nat.reducePow, Nat.reduceAdd, Nat.reduceSub]; omega
  have g2 : fld w 31 29 = wv.toNat := by rw [← hw]; simp only [fld, Nat.reducePow, Nat.reduceAdd, Nat.reduceSub]; omega
  refine ⟨hlt, fun e he => ?_⟩
  obtain rfl : e = .seq := by simpa [sectionsOf] using he
  refine decode_of_seq ?_ hf
  unfold rawSeq
  rw [f0]
  dsimp only [cellSeq]
  simp [eh, f1, f2, f3, g1, g2]

theorem Laws.RoundTrip.size (h : Hdr) (a : Fin 32) (imm : BitVec 11) : Laws.RoundTrip.Statement (.size h a imm) := by
  intro w hw hf
  simp only [encode, encWord, Option.some.injEq] at hw
  have b0 := a.isLt
  have b1 := imm.isLt
  obtain ⟨eh, hlt, F⟩ := fields h (w := w) [(46, 6), (0, 5), (a.val, 5), (imm.toNat, 11)] (by simp only [packF, widF]; omega) rfl ⟨by omega, by omega, by omega, by omega, trivial⟩
  have f0 : fld w 26 21 = 46 := F [] 46 5 [(0, 5), (a.val, 5), (imm.toNat, 11)] rfl
  have f1 : fld w 20 16 = 0 := F [(46, 6)] 0 4 [(a.val, 5), (imm.toNat, 11)] rfl
  have f2 : fld w 15 11 = a.val := F [(46, 6), (0, 5)] (a.val) 4 [(imm.toNat, 11)] rfl
  have f3 : fld w 10 0 = imm.toNat := F [(46, 6), (0, 5), (a.val, 5)] (imm.toNat) 10 [] rfl
  refine ⟨hlt, fun e he => ?_⟩
  obtain rfl : e = .seq := by simpa [sectionsOf] using he
  refine decode_of_seq ?_ hf
  unfold rawSeq
  rw [f0]
  dsimp only [cellSeq]
  simp [eh, f1, f2, f3]

theorem Laws.RoundTrip.chron (h : Hdr) (d : Fin 32) : Laws.RoundTrip.Statement (.chron h d) := by
  intro w hw hf
  simp only [encode, encWord, Option.some.injEq] at hw
  have b0 := d.isLt
  obtain ⟨eh, hlt, F⟩ := fields h (w := w) [(47, 6), (d.val, 5), (0, 16)] (by simp only [packF, widF]; omega) rfl ⟨by omega, by omega, by omega, trivial⟩
  have f0 : fld w 26 21 = 47 := F [] 47 5 [(d.val, 5), (0, 16)] rfl
  have f1 : fld w 20 16 = d.val := F [(47, 6)] (d.val) 4 [(0, 16)] rfl
  have f2 : fld w 15 0 = 0 := F [(47, 6), (d.val, 5)] 0 15 [] rfl
  refine ⟨hlt, fun e he => ?_⟩
  obtain rfl : e = .seq := by simpa [sectionsOf] using he
  refine decode_of_seq ?_ hf
  unfold rawSeq
  rw [f0]
  dsimp only [cellSeq]
  simp [eh, f1, f2]

theorem Laws.RoundTrip.legq (h : Hdr) (d : Fin 32) : Laws.RoundTrip.Statement (.legq h d) := by
  intro w hw hf
  simp only [encode, encWord, Option.some.injEq] at hw
  have b0 := d.isLt
  obtain ⟨eh, hlt, F⟩ := fields h (w := w) [(48, 6), (d.val, 5), (0, 16)] (by simp only [packF, widF]; omega) rfl ⟨by omega, by omega, by omega, trivial⟩
  have f0 : fld w 26 21 = 48 := F [] 48 5 [(d.val, 5), (0, 16)] rfl
  have f1 : fld w 20 16 = d.val := F [(48, 6)] (d.val) 4 [(0, 16)] rfl
  have f2 : fld w 15 0 = 0 := F [(48, 6), (d.val, 5)] 0 15 [] rfl
  refine ⟨hlt, fun e he => ?_⟩
  obtain rfl : e = .seq := by simpa [sectionsOf] using he
  refine decode_of_seq ?_ hf
  unfold rawSeq
  rw [f0]
  dsimp only [cellSeq]
  simp [eh, f1, f2]

theorem Laws.RoundTrip.hqry (h : Hdr) (d : Fin 32) (a : Fin 32) (f : BitVec 6) : Laws.RoundTrip.Statement (.hqry h d a f) := by
  intro w hw hf
  simp only [encode, encWord, Option.some.injEq] at hw
  have b0 := d.isLt
  have b1 := a.isLt
  have b2 := f.isLt
  obtain ⟨eh, hlt, F⟩ := fields h (w := w) [(49, 6), (d.val, 5), (a.val, 5), (0, 5), (f.toNat, 6)] (by simp only [packF, widF]; omega) rfl ⟨by omega, by omega, by omega, by omega, by omega, trivial⟩
  have f0 : fld w 26 21 = 49 := F [] 49 5 [(d.val, 5), (a.val, 5), (0, 5), (f.toNat, 6)] rfl
  have f1 : fld w 20 16 = d.val := F [(49, 6)] (d.val) 4 [(a.val, 5), (0, 5), (f.toNat, 6)] rfl
  have f2 : fld w 15 11 = a.val := F [(49, 6), (d.val, 5)] (a.val) 4 [(0, 5), (f.toNat, 6)] rfl
  have f3 : fld w 10 6 = 0 := F [(49, 6), (d.val, 5), (a.val, 5)] 0 4 [(f.toNat, 6)] rfl
  have f4 : fld w 5 0 = f.toNat := F [(49, 6), (d.val, 5), (a.val, 5), (0, 5)] (f.toNat) 5 [] rfl
  refine ⟨hlt, fun e he => ?_⟩
  obtain rfl : e = .seq := by simpa [sectionsOf] using he
  refine decode_of_seq ?_ hf
  unfold rawSeq
  rw [f0]
  dsimp only [cellSeq]
  simp [eh, f1, f2, f3, f4]

theorem Laws.RoundTrip.cpy (h : Hdr) (d : Fin 32) (a : Fin 32) (b : Fin 32) (s : BitVec 4) (e : Bool) (c : Bool) : Laws.RoundTrip.Statement (.cpy h d a b s e c) := by
  intro w hw hf
  simp only [encode, encWord, Option.some.injEq] at hw
  have b0 := d.isLt
  have b1 := a.isLt
  have b2 := b.isLt
  have b3 := s.isLt
  have c0 := ofBool_lt e
  have c1 := ofBool_lt c
  obtain ⟨eh, hlt, F⟩ := fields h (w := w) [(50, 6), (d.val, 5), (a.val, 5), (b.val, 5), (s.toNat, 4), (ofBool e, 1), (ofBool c, 1)] (by simp only [packF, widF]; omega) rfl ⟨by omega, by omega, by omega, by omega, by omega, by omega, by omega, trivial⟩
  have f0 : fld w 26 21 = 50 := F [] 50 5 [(d.val, 5), (a.val, 5), (b.val, 5), (s.toNat, 4), (ofBool e, 1), (ofBool c, 1)] rfl
  have f1 : fld w 20 16 = d.val := F [(50, 6)] (d.val) 4 [(a.val, 5), (b.val, 5), (s.toNat, 4), (ofBool e, 1), (ofBool c, 1)] rfl
  have f2 : fld w 15 11 = a.val := F [(50, 6), (d.val, 5)] (a.val) 4 [(b.val, 5), (s.toNat, 4), (ofBool e, 1), (ofBool c, 1)] rfl
  have f3 : fld w 10 6 = b.val := F [(50, 6), (d.val, 5), (a.val, 5)] (b.val) 4 [(s.toNat, 4), (ofBool e, 1), (ofBool c, 1)] rfl
  have f4 : fld w 5 2 = s.toNat := F [(50, 6), (d.val, 5), (a.val, 5), (b.val, 5)] (s.toNat) 3 [(ofBool e, 1), (ofBool c, 1)] rfl
  have f5 : fld w 1 1 = ofBool e := F [(50, 6), (d.val, 5), (a.val, 5), (b.val, 5), (s.toNat, 4)] (ofBool e) 0 [(ofBool c, 1)] rfl
  have f6 : fld w 0 0 = ofBool c := F [(50, 6), (d.val, 5), (a.val, 5), (b.val, 5), (s.toNat, 4), (ofBool e, 1)] (ofBool c) 0 [] rfl
  refine ⟨hlt, fun e he => ?_⟩
  obtain rfl : e = .seq := by simpa [sectionsOf] using he
  refine decode_of_seq ?_ hf
  unfold rawSeq
  rw [f0]
  dsimp only [cellSeq]
  simp [eh, f1, f2, f3, f4, f5, f6, beq_ofBool]

theorem Laws.RoundTrip.cpyf (h : Hdr) (d : Fin 32) (a : Fin 32) (b : Fin 32) (s : BitVec 4) (e : Bool) (c : Bool) : Laws.RoundTrip.Statement (.cpyf h d a b s e c) := by
  intro w hw hf
  simp only [encode, encWord, Option.some.injEq] at hw
  have b0 := d.isLt
  have b1 := a.isLt
  have b2 := b.isLt
  have b3 := s.isLt
  have c0 := ofBool_lt e
  have c1 := ofBool_lt c
  obtain ⟨eh, hlt, F⟩ := fields h (w := w) [(51, 6), (d.val, 5), (a.val, 5), (b.val, 5), (s.toNat, 4), (ofBool e, 1), (ofBool c, 1)] (by simp only [packF, widF]; omega) rfl ⟨by omega, by omega, by omega, by omega, by omega, by omega, by omega, trivial⟩
  have f0 : fld w 26 21 = 51 := F [] 51 5 [(d.val, 5), (a.val, 5), (b.val, 5), (s.toNat, 4), (ofBool e, 1), (ofBool c, 1)] rfl
  have f1 : fld w 20 16 = d.val := F [(51, 6)] (d.val) 4 [(a.val, 5), (b.val, 5), (s.toNat, 4), (ofBool e, 1), (ofBool c, 1)] rfl
  have f2 : fld w 15 11 = a.val := F [(51, 6), (d.val, 5)] (a.val) 4 [(b.val, 5), (s.toNat, 4), (ofBool e, 1), (ofBool c, 1)] rfl
  have f3 : fld w 10 6 = b.val := F [(51, 6), (d.val, 5), (a.val, 5)] (b.val) 4 [(s.toNat, 4), (ofBool e, 1), (ofBool c, 1)] rfl
  have f4 : fld w 5 2 = s.toNat := F [(51, 6), (d.val, 5), (a.val, 5), (b.val, 5)] (s.toNat) 3 [(ofBool e, 1), (ofBool c, 1)] rfl
  have f5 : fld w 1 1 = ofBool e := F [(51, 6), (d.val, 5), (a.val, 5), (b.val, 5), (s.toNat, 4)] (ofBool e) 0 [(ofBool c, 1)] rfl
  have f6 : fld w 0 0 = ofBool c := F [(51, 6), (d.val, 5), (a.val, 5), (b.val, 5), (s.toNat, 4), (ofBool e, 1)] (ofBool c) 0 [] rfl
  refine ⟨hlt, fun e he => ?_⟩
  obtain rfl : e = .seq := by simpa [sectionsOf] using he
  refine decode_of_seq ?_ hf
  unfold rawSeq
  rw [f0]
  dsimp only [cellSeq]
  simp [eh, f1, f2, f3, f4, f5, f6, beq_ofBool]

theorem Laws.RoundTrip.cpyw (h : Hdr) (d : Fin 32) (a : Fin 32) (b : Fin 32) (s : BitVec 4) (e : Bool) (c : Bool) : Laws.RoundTrip.Statement (.cpyw h d a b s e c) := by
  intro w hw hf
  simp only [encode, encWord, Option.some.injEq] at hw
  have b0 := d.isLt
  have b1 := a.isLt
  have b2 := b.isLt
  have b3 := s.isLt
  have c0 := ofBool_lt e
  have c1 := ofBool_lt c
  obtain ⟨eh, hlt, F⟩ := fields h (w := w) [(52, 6), (d.val, 5), (a.val, 5), (b.val, 5), (s.toNat, 4), (ofBool e, 1), (ofBool c, 1)] (by simp only [packF, widF]; omega) rfl ⟨by omega, by omega, by omega, by omega, by omega, by omega, by omega, trivial⟩
  have f0 : fld w 26 21 = 52 := F [] 52 5 [(d.val, 5), (a.val, 5), (b.val, 5), (s.toNat, 4), (ofBool e, 1), (ofBool c, 1)] rfl
  have f1 : fld w 20 16 = d.val := F [(52, 6)] (d.val) 4 [(a.val, 5), (b.val, 5), (s.toNat, 4), (ofBool e, 1), (ofBool c, 1)] rfl
  have f2 : fld w 15 11 = a.val := F [(52, 6), (d.val, 5)] (a.val) 4 [(b.val, 5), (s.toNat, 4), (ofBool e, 1), (ofBool c, 1)] rfl
  have f3 : fld w 10 6 = b.val := F [(52, 6), (d.val, 5), (a.val, 5)] (b.val) 4 [(s.toNat, 4), (ofBool e, 1), (ofBool c, 1)] rfl
  have f4 : fld w 5 2 = s.toNat := F [(52, 6), (d.val, 5), (a.val, 5), (b.val, 5)] (s.toNat) 3 [(ofBool e, 1), (ofBool c, 1)] rfl
  have f5 : fld w 1 1 = ofBool e := F [(52, 6), (d.val, 5), (a.val, 5), (b.val, 5), (s.toNat, 4)] (ofBool e) 0 [(ofBool c, 1)] rfl
  have f6 : fld w 0 0 = ofBool c := F [(52, 6), (d.val, 5), (a.val, 5), (b.val, 5), (s.toNat, 4), (ofBool e, 1)] (ofBool c) 0 [] rfl
  refine ⟨hlt, fun e he => ?_⟩
  obtain rfl : e = .seq := by simpa [sectionsOf] using he
  refine decode_of_seq ?_ hf
  unfold rawSeq
  rw [f0]
  dsimp only [cellSeq]
  simp [eh, f1, f2, f3, f4, f5, f6, beq_ofBool]

theorem Laws.RoundTrip.cpyr (h : Hdr) (d : Fin 32) (a : Fin 32) (b : Fin 32) (s : BitVec 4) (e : Bool) (c : Bool) : Laws.RoundTrip.Statement (.cpyr h d a b s e c) := by
  intro w hw hf
  simp only [encode, encWord, Option.some.injEq] at hw
  have b0 := d.isLt
  have b1 := a.isLt
  have b2 := b.isLt
  have b3 := s.isLt
  have c0 := ofBool_lt e
  have c1 := ofBool_lt c
  obtain ⟨eh, hlt, F⟩ := fields h (w := w) [(53, 6), (d.val, 5), (a.val, 5), (b.val, 5), (s.toNat, 4), (ofBool e, 1), (ofBool c, 1)] (by simp only [packF, widF]; omega) rfl ⟨by omega, by omega, by omega, by omega, by omega, by omega, by omega, trivial⟩
  have f0 : fld w 26 21 = 53 := F [] 53 5 [(d.val, 5), (a.val, 5), (b.val, 5), (s.toNat, 4), (ofBool e, 1), (ofBool c, 1)] rfl
  have f1 : fld w 20 16 = d.val := F [(53, 6)] (d.val) 4 [(a.val, 5), (b.val, 5), (s.toNat, 4), (ofBool e, 1), (ofBool c, 1)] rfl
  have f2 : fld w 15 11 = a.val := F [(53, 6), (d.val, 5)] (a.val) 4 [(b.val, 5), (s.toNat, 4), (ofBool e, 1), (ofBool c, 1)] rfl
  have f3 : fld w 10 6 = b.val := F [(53, 6), (d.val, 5), (a.val, 5)] (b.val) 4 [(s.toNat, 4), (ofBool e, 1), (ofBool c, 1)] rfl
  have f4 : fld w 5 2 = s.toNat := F [(53, 6), (d.val, 5), (a.val, 5), (b.val, 5)] (s.toNat) 3 [(ofBool e, 1), (ofBool c, 1)] rfl
  have f5 : fld w 1 1 = ofBool e := F [(53, 6), (d.val, 5), (a.val, 5), (b.val, 5), (s.toNat, 4)] (ofBool e) 0 [(ofBool c, 1)] rfl
  have f6 : fld w 0 0 = ofBool c := F [(53, 6), (d.val, 5), (a.val, 5), (b.val, 5), (s.toNat, 4), (ofBool e, 1)] (ofBool c) 0 [] rfl
  refine ⟨hlt, fun e he => ?_⟩
  obtain rfl : e = .seq := by simpa [sectionsOf] using he
  refine decode_of_seq ?_ hf
  unfold rawSeq
  rw [f0]
  dsimp only [cellSeq]
  simp [eh, f1, f2, f3, f4, f5, f6, beq_ofBool]

theorem Laws.RoundTrip.sort (h : Hdr) (d : Fin 32) (a : Fin 32) (b : Fin 32) (s : BitVec 4) (e : Bool) (c : Bool) : Laws.RoundTrip.Statement (.sort h d a b s e c) := by
  intro w hw hf
  simp only [encode, encWord, Option.some.injEq] at hw
  have b0 := d.isLt
  have b1 := a.isLt
  have b2 := b.isLt
  have b3 := s.isLt
  have c0 := ofBool_lt e
  have c1 := ofBool_lt c
  obtain ⟨eh, hlt, F⟩ := fields h (w := w) [(54, 6), (d.val, 5), (a.val, 5), (b.val, 5), (s.toNat, 4), (ofBool e, 1), (ofBool c, 1)] (by simp only [packF, widF]; omega) rfl ⟨by omega, by omega, by omega, by omega, by omega, by omega, by omega, trivial⟩
  have f0 : fld w 26 21 = 54 := F [] 54 5 [(d.val, 5), (a.val, 5), (b.val, 5), (s.toNat, 4), (ofBool e, 1), (ofBool c, 1)] rfl
  have f1 : fld w 20 16 = d.val := F [(54, 6)] (d.val) 4 [(a.val, 5), (b.val, 5), (s.toNat, 4), (ofBool e, 1), (ofBool c, 1)] rfl
  have f2 : fld w 15 11 = a.val := F [(54, 6), (d.val, 5)] (a.val) 4 [(b.val, 5), (s.toNat, 4), (ofBool e, 1), (ofBool c, 1)] rfl
  have f3 : fld w 10 6 = b.val := F [(54, 6), (d.val, 5), (a.val, 5)] (b.val) 4 [(s.toNat, 4), (ofBool e, 1), (ofBool c, 1)] rfl
  have f4 : fld w 5 2 = s.toNat := F [(54, 6), (d.val, 5), (a.val, 5), (b.val, 5)] (s.toNat) 3 [(ofBool e, 1), (ofBool c, 1)] rfl
  have f5 : fld w 1 1 = ofBool e := F [(54, 6), (d.val, 5), (a.val, 5), (b.val, 5), (s.toNat, 4)] (ofBool e) 0 [(ofBool c, 1)] rfl
  have f6 : fld w 0 0 = ofBool c := F [(54, 6), (d.val, 5), (a.val, 5), (b.val, 5), (s.toNat, 4), (ofBool e, 1)] (ofBool c) 0 [] rfl
  refine ⟨hlt, fun e he => ?_⟩
  obtain rfl : e = .seq := by simpa [sectionsOf] using he
  refine decode_of_seq ?_ hf
  unfold rawSeq
  rw [f0]
  dsimp only [cellSeq]
  simp [eh, f1, f2, f3, f4, f5, f6, beq_ofBool]

theorem Laws.RoundTrip.pack (h : Hdr) (d : Fin 32) (a : Fin 32) (b : Fin 32) (s : BitVec 4) (e : Bool) (c : Bool) : Laws.RoundTrip.Statement (.pack h d a b s e c) := by
  intro w hw hf
  simp only [encode, encWord, Option.some.injEq] at hw
  have b0 := d.isLt
  have b1 := a.isLt
  have b2 := b.isLt
  have b3 := s.isLt
  have c0 := ofBool_lt e
  have c1 := ofBool_lt c
  obtain ⟨eh, hlt, F⟩ := fields h (w := w) [(55, 6), (d.val, 5), (a.val, 5), (b.val, 5), (s.toNat, 4), (ofBool e, 1), (ofBool c, 1)] (by simp only [packF, widF]; omega) rfl ⟨by omega, by omega, by omega, by omega, by omega, by omega, by omega, trivial⟩
  have f0 : fld w 26 21 = 55 := F [] 55 5 [(d.val, 5), (a.val, 5), (b.val, 5), (s.toNat, 4), (ofBool e, 1), (ofBool c, 1)] rfl
  have f1 : fld w 20 16 = d.val := F [(55, 6)] (d.val) 4 [(a.val, 5), (b.val, 5), (s.toNat, 4), (ofBool e, 1), (ofBool c, 1)] rfl
  have f2 : fld w 15 11 = a.val := F [(55, 6), (d.val, 5)] (a.val) 4 [(b.val, 5), (s.toNat, 4), (ofBool e, 1), (ofBool c, 1)] rfl
  have f3 : fld w 10 6 = b.val := F [(55, 6), (d.val, 5), (a.val, 5)] (b.val) 4 [(s.toNat, 4), (ofBool e, 1), (ofBool c, 1)] rfl
  have f4 : fld w 5 2 = s.toNat := F [(55, 6), (d.val, 5), (a.val, 5), (b.val, 5)] (s.toNat) 3 [(ofBool e, 1), (ofBool c, 1)] rfl
  have f5 : fld w 1 1 = ofBool e := F [(55, 6), (d.val, 5), (a.val, 5), (b.val, 5), (s.toNat, 4)] (ofBool e) 0 [(ofBool c, 1)] rfl
  have f6 : fld w 0 0 = ofBool c := F [(55, 6), (d.val, 5), (a.val, 5), (b.val, 5), (s.toNat, 4), (ofBool e, 1)] (ofBool c) 0 [] rfl
  refine ⟨hlt, fun e he => ?_⟩
  obtain rfl : e = .seq := by simpa [sectionsOf] using he
  refine decode_of_seq ?_ hf
  unfold rawSeq
  rw [f0]
  dsimp only [cellSeq]
  simp [eh, f1, f2, f3, f4, f5, f6, beq_ofBool]

theorem Laws.RoundTrip.crr (h : Hdr) (d : Fin 32) (off : BitVec 8) : Laws.RoundTrip.Statement (.crr h d off) := by
  intro w hw hf
  simp only [encode, encWord, Option.some.injEq] at hw
  have b0 := d.isLt
  have b1 := off.isLt
  obtain ⟨eh, hlt, F⟩ := fields h (w := w) [(56, 6), (d.val, 5), (0, 5), (off.toNat, 8), (0, 3)] (by simp only [packF, widF]; omega) rfl ⟨by omega, by omega, by omega, by omega, by omega, trivial⟩
  have f0 : fld w 26 21 = 56 := F [] 56 5 [(d.val, 5), (0, 5), (off.toNat, 8), (0, 3)] rfl
  have f1 : fld w 20 16 = d.val := F [(56, 6)] (d.val) 4 [(0, 5), (off.toNat, 8), (0, 3)] rfl
  have f2 : fld w 15 11 = 0 := F [(56, 6), (d.val, 5)] 0 4 [(off.toNat, 8), (0, 3)] rfl
  have f3 : fld w 10 3 = off.toNat := F [(56, 6), (d.val, 5), (0, 5)] (off.toNat) 7 [(0, 3)] rfl
  have f4 : fld w 2 0 = 0 := F [(56, 6), (d.val, 5), (0, 5), (off.toNat, 8)] 0 2 [] rfl
  refine ⟨hlt, fun e he => ?_⟩
  obtain rfl : e = .seq := by simpa [sectionsOf] using he
  refine decode_of_seq ?_ hf
  unfold rawSeq
  rw [f0]
  dsimp only [cellSeq]
  simp [eh, f1, f2, f3, f4]

theorem Laws.RoundTrip.crw (h : Hdr) (a : Fin 32) (off : BitVec 8) : Laws.RoundTrip.Statement (.crw h a off) := by
  intro w hw hf
  simp only [encode, encWord, Option.some.injEq] at hw
  have b0 := a.isLt
  have b1 := off.isLt
  obtain ⟨eh, hlt, F⟩ := fields h (w := w) [(57, 6), (0, 5), (a.val, 5), (off.toNat, 8), (0, 3)] (by simp only [packF, widF]; omega) rfl ⟨by omega, by omega, by omega, by omega, by omega, trivial⟩
  have f0 : fld w 26 21 = 57 := F [] 57 5 [(0, 5), (a.val, 5), (off.toNat, 8), (0, 3)] rfl
  have f1 : fld w 20 16 = 0 := F [(57, 6)] 0 4 [(a.val, 5), (off.toNat, 8), (0, 3)] rfl
  have f2 : fld w 15 11 = a.val := F [(57, 6), (0, 5)] (a.val) 4 [(off.toNat, 8), (0, 3)] rfl
  have f3 : fld w 10 3 = off.toNat := F [(57, 6), (0, 5), (a.val, 5)] (off.toNat) 7 [(0, 3)] rfl
  have f4 : fld w 2 0 = 0 := F [(57, 6), (0, 5), (a.val, 5), (off.toNat, 8)] 0 2 [] rfl
  refine ⟨hlt, fun e he => ?_⟩
  obtain rfl : e = .seq := by simpa [sectionsOf] using he
  refine decode_of_seq ?_ hf
  unfold rawSeq
  rw [f0]
  dsimp only [cellSeq]
  simp [eh, f1, f2, f3, f4]

theorem Laws.RoundTrip.trap (h : Hdr) (nl : BitVec 7) : Laws.RoundTrip.Statement (.trap h nl) := by
  intro w hw hf
  simp only [encode, encWord, Option.some.injEq] at hw
  have b0 := nl.isLt
  obtain ⟨eh, hlt, F⟩ := fields h (w := w) [(58, 6), (0, 14), (nl.toNat, 7)] (by simp only [packF, widF]; omega) rfl ⟨by omega, by omega, by omega, trivial⟩
  have f0 : fld w 26 21 = 58 := F [] 58 5 [(0, 14), (nl.toNat, 7)] rfl
  have f1 : fld w 20 7 = 0 := F [(58, 6)] 0 13 [(nl.toNat, 7)] rfl
  have f2 : fld w 6 0 = nl.toNat := F [(58, 6), (0, 14)] (nl.toNat) 6 [] rfl
  refine ⟨hlt, fun e he => ?_⟩
  obtain rfl : e = .seq := by simpa [sectionsOf] using he
  refine decode_of_seq ?_ hf
  unfold rawSeq
  rw [f0]
  dsimp only [cellSeq]
  simp [eh, f1, f2]

theorem Laws.RoundTrip.sret (h : Hdr) : Laws.RoundTrip.Statement (.sret h) := by
  intro w hw hf
  simp only [encode, encWord, Option.some.injEq] at hw
  obtain ⟨eh, hlt, F⟩ := fields h (w := w) [(59, 6), (0, 21)] (by simp only [packF, widF]; omega) rfl ⟨by omega, by omega, trivial⟩
  have f0 : fld w 26 21 = 59 := F [] 59 5 [(0, 21)] rfl
  have f1 : fld w 20 0 = 0 := F [(59, 6)] 0 20 [] rfl
  refine ⟨hlt, fun e he => ?_⟩
  obtain rfl : e = .seq := by simpa [sectionsOf] using he
  refine decode_of_seq ?_ hf
  unfold rawSeq
  rw [f0]
  dsimp only [cellSeq]
  simp [eh, f1]

theorem Laws.RoundTrip.halt (h : Hdr) (a : Fin 32) : Laws.RoundTrip.Statement (.halt h a) := by
  intro w hw hf
  simp only [encode, encWord, Option.some.injEq] at hw
  have b0 := a.isLt
  obtain ⟨eh, hlt, F⟩ := fields h (w := w) [(60, 6), (0, 5), (a.val, 5), (0, 11)] (by simp only [packF, widF]; omega) rfl ⟨by omega, by omega, by omega, by omega, trivial⟩
  have f0 : fld w 26 21 = 60 := F [] 60 5 [(0, 5), (a.val, 5), (0, 11)] rfl
  have f1 : fld w 20 16 = 0 := F [(60, 6)] 0 4 [(a.val, 5), (0, 11)] rfl
  have f2 : fld w 15 11 = a.val := F [(60, 6), (0, 5)] (a.val) 4 [(0, 11)] rfl
  have f3 : fld w 10 0 = 0 := F [(60, 6), (0, 5), (a.val, 5)] 0 10 [] rfl
  refine ⟨hlt, fun e he => ?_⟩
  obtain rfl : e = .seq := by simpa [sectionsOf] using he
  refine decode_of_seq ?_ hf
  unfold rawSeq
  rw [f0]
  dsimp only [cellSeq]
  simp [eh, f1, f2, f3]

theorem Laws.RoundTrip.hset (h : Hdr) (a : Fin 32) (b : Fin 32) : Laws.RoundTrip.Statement (.hset h a b) := by
  intro w hw hf
  simp only [encode, encWord, Option.some.injEq] at hw
  have b0 := a.isLt
  have b1 := b.isLt
  obtain ⟨eh, hlt, F⟩ := fields h (w := w) [(61, 6), (0, 5), (a.val, 5), (b.val, 5), (0, 6)] (by simp only [packF, widF]; omega) rfl ⟨by omega, by omega, by omega, by omega, by omega, trivial⟩
  have f0 : fld w 26 21 = 61 := F [] 61 5 [(0, 5), (a.val, 5), (b.val, 5), (0, 6)] rfl
  have f1 : fld w 20 16 = 0 := F [(61, 6)] 0 4 [(a.val, 5), (b.val, 5), (0, 6)] rfl
  have f2 : fld w 15 11 = a.val := F [(61, 6), (0, 5)] (a.val) 4 [(b.val, 5), (0, 6)] rfl
  have f3 : fld w 10 6 = b.val := F [(61, 6), (0, 5), (a.val, 5)] (b.val) 4 [(0, 6)] rfl
  have f4 : fld w 5 0 = 0 := F [(61, 6), (0, 5), (a.val, 5), (b.val, 5)] 0 5 [] rfl
  refine ⟨hlt, fun e he => ?_⟩
  obtain rfl : e = .seq := by simpa [sectionsOf] using he
  refine decode_of_seq ?_ hf
  unfold rawSeq
  rw [f0]
  dsimp only [cellSeq]
  simp [eh, f1, f2, f3, f4]

theorem Laws.RoundTrip.scanr (h : Hdr) (d : Fin 32) (a : Fin 32) : Laws.RoundTrip.Statement (.scanr h d a) := by
  intro w hw hf
  simp only [encode, encWord, Option.some.injEq] at hw
  have b0 := d.isLt
  have b1 := a.isLt
  obtain ⟨eh, hlt, F⟩ := fields h (w := w) [(62, 6), (d.val, 5), (a.val, 5), (0, 11)] (by simp only [packF, widF]; omega) rfl ⟨by omega, by omega, by omega, by omega, trivial⟩
  have f0 : fld w 26 21 = 62 := F [] 62 5 [(d.val, 5), (a.val, 5), (0, 11)] rfl
  have f1 : fld w 20 16 = d.val := F [(62, 6)] (d.val) 4 [(a.val, 5), (0, 11)] rfl
  have f2 : fld w 15 11 = a.val := F [(62, 6), (d.val, 5)] (a.val) 4 [(0, 11)] rfl
  have f3 : fld w 10 0 = 0 := F [(62, 6), (d.val, 5), (a.val, 5)] 0 10 [] rfl
  refine ⟨hlt, fun e he => ?_⟩
  obtain rfl : e = .seq := by simpa [sectionsOf] using he
  refine decode_of_seq ?_ hf
  unfold rawSeq
  rw [f0]
  dsimp only [cellSeq]
  simp [eh, f1, f2, f3]

theorem Laws.RoundTrip.wrep (h : Hdr) (a : Fin 32) (b : Fin 32) : Laws.RoundTrip.Statement (.wrep h a b) := by
  intro w hw hf
  simp only [encode, encWord, Option.some.injEq] at hw
  have b0 := a.isLt
  have b1 := b.isLt
  obtain ⟨eh, hlt, F⟩ := fields h (w := w) [(63, 6), (0, 5), (a.val, 5), (b.val, 5), (0, 6)] (by simp only [packF, widF]; omega) rfl ⟨by omega, by omega, by omega, by omega, by omega, trivial⟩
  have f0 : fld w 26 21 = 63 := F [] 63 5 [(0, 5), (a.val, 5), (b.val, 5), (0, 6)] rfl
  have f1 : fld w 20 16 = 0 := F [(63, 6)] 0 4 [(a.val, 5), (b.val, 5), (0, 6)] rfl
  have f2 : fld w 15 11 = a.val := F [(63, 6), (0, 5)] (a.val) 4 [(b.val, 5), (0, 6)] rfl
  have f3 : fld w 10 6 = b.val := F [(63, 6), (0, 5), (a.val, 5)] (b.val) 4 [(0, 6)] rfl
  have f4 : fld w 5 0 = 0 := F [(63, 6), (0, 5), (a.val, 5), (b.val, 5)] 0 5 [] rfl
  refine ⟨hlt, fun e he => ?_⟩
  obtain rfl : e = .seq := by simpa [sectionsOf] using he
  refine decode_of_seq ?_ hf
  unfold rawSeq
  rw [f0]
  dsimp only [cellSeq]
  simp [eh, f1, f2, f3, f4]

theorem Laws.RoundTrip.lds (h : Hdr) (a : Fin 16) (nl : BitVec 3) (s : BitVec 2) (c : BitVec 8) : Laws.RoundTrip.Statement (.lds h a nl s c) := by
  intro w hw hf
  simp only [encode, encWord, Option.some.injEq] at hw
  have b0 := a.isLt
  have b1 := nl.isLt
  have b2 := s.isLt
  have b3 := c.isLt
  obtain ⟨eh, hlt, F⟩ := fields h (w := w) [(2, 6), (a.val, 4), (0, 4), (nl.toNat, 3), (s.toNat, 2), (c.toNat, 8)] (by simp only [packF, widF]; omega) rfl ⟨by omega, by omega, by omega, by omega, by omega, by omega, trivial⟩
  have f0 : fld w 26 21 = 2 := F [] 2 5 [(a.val, 4), (0, 4), (nl.toNat, 3), (s.toNat, 2), (c.toNat, 8)] rfl
  have f1 : fld w 20 17 = a.val := F [(2, 6)] (a.val) 3 [(0, 4), (nl.toNat, 3), (s.toNat, 2), (c.toNat, 8)] rfl
  have f2 : fld w 16 13 = 0 := F [(2, 6), (a.val, 4)] 0 3 [(nl.toNat, 3), (s.toNat, 2), (c.toNat, 8)] rfl
  have f3 : fld w 12 10 = nl.toNat := F [(2, 6), (a.val, 4), (0, 4)] (nl.toNat) 2 [(s.toNat, 2), (c.toNat, 8)] rfl
  have f4 : fld w 9 8 = s.toNat := F [(2, 6), (a.val, 4), (0, 4), (nl.toNat, 3)] (s.toNat) 1 [(c.toNat, 8)] rfl
  have f5 : fld w 7 0 = c.toNat := F [(2, 6), (a.val, 4), (0, 4), (nl.toNat, 3), (s.toNat, 2)] (c.toNat) 7 [] rfl
  refine ⟨hlt, fun e he => ?_⟩
  obtain rfl : e = .axu := by simpa [sectionsOf] using he
  refine decode_of_axu ?_ hf
  unfold rawAxu
  rw [f0]
  dsimp only [cellAxu]
  simp [eh, f1, f2, f3, f4, f5]

theorem Laws.RoundTrip.sts (h : Hdr) (a : Fin 16) (nl : BitVec 3) (s : BitVec 2) (c : BitVec 8) : Laws.RoundTrip.Statement (.sts h a nl s c) := by
  intro w hw hf
  simp only [encode, encWord, Option.some.injEq] at hw
  have b0 := a.isLt
  have b1 := nl.isLt
  have b2 := s.isLt
  have b3 := c.isLt
  obtain ⟨eh, hlt, F⟩ := fields h (w := w) [(3, 6), (a.val, 4), (0, 4), (nl.toNat, 3), (s.toNat, 2), (c.toNat, 8)] (by simp only [packF, widF]; omega) rfl ⟨by omega, by omega, by omega, by omega, by omega, by omega, trivial⟩
  have f0 : fld w 26 21 = 3 := F [] 3 5 [(a.val, 4), (0, 4), (nl.toNat, 3), (s.toNat, 2), (c.toNat, 8)] rfl
  have f1 : fld w 20 17 = a.val := F [(3, 6)] (a.val) 3 [(0, 4), (nl.toNat, 3), (s.toNat, 2), (c.toNat, 8)] rfl
  have f2 : fld w 16 13 = 0 := F [(3, 6), (a.val, 4)] 0 3 [(nl.toNat, 3), (s.toNat, 2), (c.toNat, 8)] rfl
  have f3 : fld w 12 10 = nl.toNat := F [(3, 6), (a.val, 4), (0, 4)] (nl.toNat) 2 [(s.toNat, 2), (c.toNat, 8)] rfl
  have f4 : fld w 9 8 = s.toNat := F [(3, 6), (a.val, 4), (0, 4), (nl.toNat, 3)] (s.toNat) 1 [(c.toNat, 8)] rfl
  have f5 : fld w 7 0 = c.toNat := F [(3, 6), (a.val, 4), (0, 4), (nl.toNat, 3), (s.toNat, 2)] (c.toNat) 7 [] rfl
  refine ⟨hlt, fun e he => ?_⟩
  obtain rfl : e = .axu := by simpa [sectionsOf] using he
  refine decode_of_axu ?_ hf
  unfold rawAxu
  rw [f0]
  dsimp only [cellAxu]
  simp [eh, f1, f2, f3, f4, f5]

theorem Laws.RoundTrip.ldg (h : Hdr) (a : Fin 16) (b : Fin 16) (nl : BitVec 3) (s : BitVec 2) (c : BitVec 8) : Laws.RoundTrip.Statement (.ldg h a b nl s c) := by
  intro w hw hf
  simp only [encode, encWord, Option.some.injEq] at hw
  have b0 := a.isLt
  have b1 := b.isLt
  have b2 := nl.isLt
  have b3 := s.isLt
  have b4 := c.isLt
  obtain ⟨eh, hlt, F⟩ := fields h (w := w) [(4, 6), (a.val, 4), (b.val, 4), (nl.toNat, 3), (s.toNat, 2), (c.toNat, 8)] (by simp only [packF, widF]; omega) rfl ⟨by omega, by omega, by omega, by omega, by omega, by omega, trivial⟩
  have f0 : fld w 26 21 = 4 := F [] 4 5 [(a.val, 4), (b.val, 4), (nl.toNat, 3), (s.toNat, 2), (c.toNat, 8)] rfl
  have f1 : fld w 20 17 = a.val := F [(4, 6)] (a.val) 3 [(b.val, 4), (nl.toNat, 3), (s.toNat, 2), (c.toNat, 8)] rfl
  have f2 : fld w 16 13 = b.val := F [(4, 6), (a.val, 4)] (b.val) 3 [(nl.toNat, 3), (s.toNat, 2), (c.toNat, 8)] rfl
  have f3 : fld w 12 10 = nl.toNat := F [(4, 6), (a.val, 4), (b.val, 4)] (nl.toNat) 2 [(s.toNat, 2), (c.toNat, 8)] rfl
  have f4 : fld w 9 8 = s.toNat := F [(4, 6), (a.val, 4), (b.val, 4), (nl.toNat, 3)] (s.toNat) 1 [(c.toNat, 8)] rfl
  have f5 : fld w 7 0 = c.toNat := F [(4, 6), (a.val, 4), (b.val, 4), (nl.toNat, 3), (s.toNat, 2)] (c.toNat) 7 [] rfl
  refine ⟨hlt, fun e he => ?_⟩
  obtain rfl : e = .axu := by simpa [sectionsOf] using he
  refine decode_of_axu ?_ hf
  unfold rawAxu
  rw [f0]
  dsimp only [cellAxu]
  simp [eh, f1, f2, f3, f4, f5]

theorem Laws.RoundTrip.stg (h : Hdr) (a : Fin 16) (b : Fin 16) (nl : BitVec 3) (s : BitVec 2) (c : BitVec 8) : Laws.RoundTrip.Statement (.stg h a b nl s c) := by
  intro w hw hf
  simp only [encode, encWord, Option.some.injEq] at hw
  have b0 := a.isLt
  have b1 := b.isLt
  have b2 := nl.isLt
  have b3 := s.isLt
  have b4 := c.isLt
  obtain ⟨eh, hlt, F⟩ := fields h (w := w) [(5, 6), (a.val, 4), (b.val, 4), (nl.toNat, 3), (s.toNat, 2), (c.toNat, 8)] (by simp only [packF, widF]; omega) rfl ⟨by omega, by omega, by omega, by omega, by omega, by omega, trivial⟩
  have f0 : fld w 26 21 = 5 := F [] 5 5 [(a.val, 4), (b.val, 4), (nl.toNat, 3), (s.toNat, 2), (c.toNat, 8)] rfl
  have f1 : fld w 20 17 = a.val := F [(5, 6)] (a.val) 3 [(b.val, 4), (nl.toNat, 3), (s.toNat, 2), (c.toNat, 8)] rfl
  have f2 : fld w 16 13 = b.val := F [(5, 6), (a.val, 4)] (b.val) 3 [(nl.toNat, 3), (s.toNat, 2), (c.toNat, 8)] rfl
  have f3 : fld w 12 10 = nl.toNat := F [(5, 6), (a.val, 4), (b.val, 4)] (nl.toNat) 2 [(s.toNat, 2), (c.toNat, 8)] rfl
  have f4 : fld w 9 8 = s.toNat := F [(5, 6), (a.val, 4), (b.val, 4), (nl.toNat, 3)] (s.toNat) 1 [(c.toNat, 8)] rfl
  have f5 : fld w 7 0 = c.toNat := F [(5, 6), (a.val, 4), (b.val, 4), (nl.toNat, 3), (s.toNat, 2)] (c.toNat) 7 [] rfl
  refine ⟨hlt, fun e he => ?_⟩
  obtain rfl : e = .axu := by simpa [sectionsOf] using he
  refine decode_of_axu ?_ hf
  unfold rawAxu
  rw [f0]
  dsimp only [cellAxu]
  simp [eh, f1, f2, f3, f4, f5]

theorem Laws.RoundTrip.ldh (h : Hdr) (hd : BitVec 16) (nl : BitVec 3) (x : BitVec 2) : Laws.RoundTrip.Statement (.ldh h hd nl x) := by
  intro w hw hf
  simp only [encode, encWord, Option.some.injEq] at hw
  have b0 := hd.isLt
  have b1 := nl.isLt
  have b2 := x.isLt
  obtain ⟨eh, hlt, F⟩ := fields h (w := w) [(6, 6), (hd.toNat, 16), (nl.toNat, 3), (x.toNat, 2)] (by simp only [packF, widF]; omega) rfl ⟨by omega, by omega, by omega, by omega, trivial⟩
  have f0 : fld w 26 21 = 6 := F [] 6 5 [(hd.toNat, 16), (nl.toNat, 3), (x.toNat, 2)] rfl
  have f1 : fld w 20 5 = hd.toNat := F [(6, 6)] (hd.toNat) 15 [(nl.toNat, 3), (x.toNat, 2)] rfl
  have f2 : fld w 4 2 = nl.toNat := F [(6, 6), (hd.toNat, 16)] (nl.toNat) 2 [(x.toNat, 2)] rfl
  have f3 : fld w 1 0 = x.toNat := F [(6, 6), (hd.toNat, 16), (nl.toNat, 3)] (x.toNat) 1 [] rfl
  refine ⟨hlt, fun e he => ?_⟩
  obtain rfl : e = .axu := by simpa [sectionsOf] using he
  refine decode_of_axu ?_ hf
  unfold rawAxu
  rw [f0]
  dsimp only [cellAxu]
  simp [eh, f1, f2, f3]

theorem Laws.RoundTrip.sth (h : Hdr) (hd : BitVec 16) (nl : BitVec 3) (x : BitVec 2) : Laws.RoundTrip.Statement (.sth h hd nl x) := by
  intro w hw hf
  simp only [encode, encWord, Option.some.injEq] at hw
  have b0 := hd.isLt
  have b1 := nl.isLt
  have b2 := x.isLt
  obtain ⟨eh, hlt, F⟩ := fields h (w := w) [(7, 6), (hd.toNat, 16), (nl.toNat, 3), (x.toNat, 2)] (by simp only [packF, widF]; omega) rfl ⟨by omega, by omega, by omega, by omega, trivial⟩
  have f0 : fld w 26 21 = 7 := F [] 7 5 [(hd.toNat, 16), (nl.toNat, 3), (x.toNat, 2)] rfl
  have f1 : fld w 20 5 = hd.toNat := F [(7, 6)] (hd.toNat) 15 [(nl.toNat, 3), (x.toNat, 2)] rfl
  have f2 : fld w 4 2 = nl.toNat := F [(7, 6), (hd.toNat, 16)] (nl.toNat) 2 [(x.toNat, 2)] rfl
  have f3 : fld w 1 0 = x.toNat := F [(7, 6), (hd.toNat, 16), (nl.toNat, 3)] (x.toNat) 1 [] rfl
  refine ⟨hlt, fun e he => ?_⟩
  obtain rfl : e = .axu := by simpa [sectionsOf] using he
  refine decode_of_axu ?_ hf
  unfold rawAxu
  rw [f0]
  dsimp only [cellAxu]
  simp [eh, f1, f2, f3]

theorem Laws.RoundTrip.mark (h : Hdr) : Laws.RoundTrip.Statement (.mark h) := by
  intro w hw hf
  simp only [encode, encWord, Option.some.injEq] at hw
  obtain ⟨eh, hlt, F⟩ := fields h (w := w) [(8, 6), (0, 21)] (by simp only [packF, widF]; omega) rfl ⟨by omega, by omega, trivial⟩
  have f0 : fld w 26 21 = 8 := F [] 8 5 [(0, 21)] rfl
  have f1 : fld w 20 0 = 0 := F [(8, 6)] 0 20 [] rfl
  refine ⟨hlt, fun e he => ?_⟩
  obtain rfl : e = .axu := by simpa [sectionsOf] using he
  refine decode_of_axu ?_ hf
  unfold rawAxu
  rw [f0]
  dsimp only [cellAxu]
  simp [eh, f1]

theorem Laws.RoundTrip.aadd (h : Hdr) (d : Fin 16) (a : Fin 16) (b : Fin 16) (neg : Bool) (sh : BitVec 6) : Laws.RoundTrip.Statement (.aadd h d a b neg sh) := by
  intro w hw hf
  simp only [encode, encWord, Option.some.injEq] at hw
  have b0 := d.isLt
  have b1 := a.isLt
  have b2 := b.isLt
  have b3 := sh.isLt
  have c0 := ofBool_lt neg
  obtain ⟨eh, hlt, F⟩ := fields h (w := w) [(9, 6), (d.val, 4), (a.val, 4), (b.val, 4), (0, 2), (ofBool neg, 1), (sh.toNat, 6)] (by simp only [packF, widF]; omega) rfl ⟨by omega, by omega, by omega, by omega, by omega, by omega, by omega, trivial⟩
  have f0 : fld w 26 21 = 9 := F [] 9 5 [(d.val, 4), (a.val, 4), (b.val, 4), (0, 2), (ofBool neg, 1), (sh.toNat, 6)] rfl
  have f1 : fld w 20 17 = d.val := F [(9, 6)] (d.val) 3 [(a.val, 4), (b.val, 4), (0, 2), (ofBool neg, 1), (sh.toNat, 6)] rfl
  have f2 : fld w 16 13 = a.val := F [(9, 6), (d.val, 4)] (a.val) 3 [(b.val, 4), (0, 2), (ofBool neg, 1), (sh.toNat, 6)] rfl
  have f3 : fld w 12 9 = b.val := F [(9, 6), (d.val, 4), (a.val, 4)] (b.val) 3 [(0, 2), (ofBool neg, 1), (sh.toNat, 6)] rfl
  have f4 : fld w 8 7 = 0 := F [(9, 6), (d.val, 4), (a.val, 4), (b.val, 4)] 0 1 [(ofBool neg, 1), (sh.toNat, 6)] rfl
  have f5 : fld w 6 6 = ofBool neg := F [(9, 6), (d.val, 4), (a.val, 4), (b.val, 4), (0, 2)] (ofBool neg) 0 [(sh.toNat, 6)] rfl
  have f6 : fld w 5 0 = sh.toNat := F [(9, 6), (d.val, 4), (a.val, 4), (b.val, 4), (0, 2), (ofBool neg, 1)] (sh.toNat) 5 [] rfl
  have g0 : ¬ fld w 8 3 = 16 := by simp only [fld, Nat.reducePow, Nat.reduceAdd, Nat.reduceSub] at *; omega
  refine ⟨hlt, fun e he => ?_⟩
  obtain rfl : e = .axu := by simpa [sectionsOf] using he
  refine decode_of_axu ?_ hf
  unfold rawAxu
  rw [f0]
  dsimp only [cellAxu]
  simp [eh, f1, f2, f3, f4, f5, f6, g0, beq_ofBool]

theorem Laws.RoundTrip.aaddNw (h : Hdr) (k : BitVec 4) (a : Fin 16) (b : Fin 16) (f : BitVec 3) : Laws.RoundTrip.Statement (.aaddNw h k a b f) := by
  intro w hw hf
  simp only [encode, encWord, Option.some.injEq] at hw
  have b0 := k.isLt
  have b1 := a.isLt
  have b2 := b.isLt
  have b3 := f.isLt
  obtain ⟨eh, hlt, F⟩ := fields h (w := w) [(9, 6), (k.toNat, 4), (a.val, 4), (b.val, 4), (16, 6), (f.toNat, 3)] (by simp only [packF, widF]; omega) rfl ⟨by omega, by omega, by omega, by omega, by omega, by omega, trivial⟩
  have f0 : fld w 26 21 = 9 := F [] 9 5 [(k.toNat, 4), (a.val, 4), (b.val, 4), (16, 6), (f.toNat, 3)] rfl
  have f1 : fld w 20 17 = k.toNat := F [(9, 6)] (k.toNat) 3 [(a.val, 4), (b.val, 4), (16, 6), (f.toNat, 3)] rfl
  have f2 : fld w 16 13 = a.val := F [(9, 6), (k.toNat, 4)] (a.val) 3 [(b.val, 4), (16, 6), (f.toNat, 3)] rfl
  have f3 : fld w 12 9 = b.val := F [(9, 6), (k.toNat, 4), (a.val, 4)] (b.val) 3 [(16, 6), (f.toNat, 3)] rfl
  have f4 : fld w 8 3 = 16 := F [(9, 6), (k.toNat, 4), (a.val, 4), (b.val, 4)] 16 5 [(f.toNat, 3)] rfl
  have f5 : fld w 2 0 = f.toNat := F [(9, 6), (k.toNat, 4), (a.val, 4), (b.val, 4), (16, 6)] (f.toNat) 2 [] rfl
  refine ⟨hlt, fun e he => ?_⟩
  obtain rfl : e = .axu := by simpa [sectionsOf] using he
  refine decode_of_axu ?_ hf
  unfold rawAxu
  rw [f0]
  dsimp only [cellAxu]
  simp [eh, f1, f2, f3, f4, f5]

theorem Laws.RoundTrip.ali (h : Hdr) (d : Fin 16) (imm : BitVec 16) : Laws.RoundTrip.Statement (.ali h d imm) := by
  intro w hw hf
  simp only [encode, encWord, Option.some.injEq] at hw
  have b0 := d.isLt
  have b1 := imm.isLt
  obtain ⟨eh, hlt, F⟩ := fields h (w := w) [(10, 6), (d.val, 4), (0, 1), (imm.toNat, 16)] (by simp only [packF, widF]; omega) rfl ⟨by omega, by omega, by omega, by omega, trivial⟩
  have f0 : fld w 26 21 = 10 := F [] 10 5 [(d.val, 4), (0, 1), (imm.toNat, 16)] rfl
  have f1 : fld w 20 17 = d.val := F [(10, 6)] (d.val) 3 [(0, 1), (imm.toNat, 16)] rfl
  have f2 : fld w 16 16 = 0 := F [(10, 6), (d.val, 4)] 0 0 [(imm.toNat, 16)] rfl
  have f3 : fld w 15 0 = imm.toNat := F [(10, 6), (d.val, 4), (0, 1)] (imm.toNat) 15 [] rfl
  refine ⟨hlt, fun e he => ?_⟩
  obtain rfl : e = .axu := by simpa [sectionsOf] using he
  refine decode_of_axu ?_ hf
  unfold rawAxu
  rw [f0]
  dsimp only [cellAxu]
  simp [eh, f1, f2, f3]

theorem Laws.RoundTrip.aliSh (h : Hdr) (d : Fin 16) (imm : BitVec 16) : Laws.RoundTrip.Statement (.aliSh h d imm) := by
  intro w hw hf
  simp only [encode, encWord, Option.some.injEq] at hw
  have b0 := d.isLt
  have b1 := imm.isLt
  obtain ⟨eh, hlt, F⟩ := fields h (w := w) [(10, 6), (d.val, 4), (1, 1), (imm.toNat, 16)] (by simp only [packF, widF]; omega) rfl ⟨by omega, by omega, by omega, by omega, trivial⟩
  have f0 : fld w 26 21 = 10 := F [] 10 5 [(d.val, 4), (1, 1), (imm.toNat, 16)] rfl
  have f1 : fld w 20 17 = d.val := F [(10, 6)] (d.val) 3 [(1, 1), (imm.toNat, 16)] rfl
  have f2 : fld w 16 16 = 1 := F [(10, 6), (d.val, 4)] 1 0 [(imm.toNat, 16)] rfl
  have f3 : fld w 15 0 = imm.toNat := F [(10, 6), (d.val, 4), (1, 1)] (imm.toNat) 15 [] rfl
  refine ⟨hlt, fun e he => ?_⟩
  obtain rfl : e = .axu := by simpa [sectionsOf] using he
  refine decode_of_axu ?_ hf
  unfold rawAxu
  rw [f0]
  dsimp only [cellAxu]
  simp [eh, f1, f2, f3]

theorem Laws.RoundTrip.amov (h : Hdr) (d : Fin 16) (a : Fin 16) : Laws.RoundTrip.Statement (.amov h d a) := by
  intro w hw hf
  simp only [encode, encWord, Option.some.injEq] at hw
  have b0 := d.isLt
  have b1 := a.isLt
  obtain ⟨eh, hlt, F⟩ := fields h (w := w) [(11, 6), (d.val, 4), (a.val, 4), (0, 13)] (by simp only [packF, widF]; omega) rfl ⟨by omega, by omega, by omega, by omega, trivial⟩
  have f0 : fld w 26 21 = 11 := F [] 11 5 [(d.val, 4), (a.val, 4), (0, 13)] rfl
  have f1 : fld w 20 17 = d.val := F [(11, 6)] (d.val) 3 [(a.val, 4), (0, 13)] rfl
  have f2 : fld w 16 13 = a.val := F [(11, 6), (d.val, 4)] (a.val) 3 [(0, 13)] rfl
  have f3 : fld w 12 0 = 0 := F [(11, 6), (d.val, 4), (a.val, 4)] 0 12 [] rfl
  refine ⟨hlt, fun e he => ?_⟩
  obtain rfl : e = .axu := by simpa [sectionsOf] using he
  refine decode_of_axu ?_ hf
  unfold rawAxu
  rw [f0]
  dsimp only [cellAxu]
  simp [eh, f1, f2, f3]

theorem Laws.RoundTrip.loop (h : Hdr) (nl : BitVec 3) (l : BitVec 4) : Laws.RoundTrip.Statement (.loop h nl l) := by
  intro w hw hf
  simp only [encode, encWord, Option.some.injEq] at hw
  have b0 := nl.isLt
  have b1 := l.isLt
  obtain ⟨eh, hlt, F⟩ := fields h (w := w) [(12, 6), (nl.toNat, 3), (l.toNat, 4), (0, 14)] (by simp only [packF, widF]; omega) rfl ⟨by omega, by omega, by omega, by omega, trivial⟩
  have f0 : fld w 26 21 = 12 := F [] 12 5 [(nl.toNat, 3), (l.toNat, 4), (0, 14)] rfl
  have f1 : fld w 20 18 = nl.toNat := F [(12, 6)] (nl.toNat) 2 [(l.toNat, 4), (0, 14)] rfl
  have f2 : fld w 17 14 = l.toNat := F [(12, 6), (nl.toNat, 3)] (l.toNat) 3 [(0, 14)] rfl
  have f3 : fld w 13 0 = 0 := F [(12, 6), (nl.toNat, 3), (l.toNat, 4)] 0 13 [] rfl
  refine ⟨hlt, fun e he => ?_⟩
  obtain rfl : e = .axu := by simpa [sectionsOf] using he
  refine decode_of_axu ?_ hf
  unfold rawAxu
  rw [f0]
  dsimp only [cellAxu]
  simp [eh, f1, f2, f3]

theorem Laws.RoundTrip.lend (h : Hdr) (nl : BitVec 3) : Laws.RoundTrip.Statement (.lend h nl) := by
  intro w hw hf
  simp only [encode, encWord, Option.some.injEq] at hw
  have b0 := nl.isLt
  obtain ⟨eh, hlt, F⟩ := fields h (w := w) [(13, 6), (nl.toNat, 3), (0, 18)] (by simp only [packF, widF]; omega) rfl ⟨by omega, by omega, by omega, trivial⟩
  have f0 : fld w 26 21 = 13 := F [] 13 5 [(nl.toNat, 3), (0, 18)] rfl
  have f1 : fld w 20 18 = nl.toNat := F [(13, 6)] (nl.toNat) 2 [(0, 18)] rfl
  have f2 : fld w 17 0 = 0 := F [(13, 6), (nl.toNat, 3)] 0 17 [] rfl
  refine ⟨hlt, fun e he => ?_⟩
  obtain rfl : e = .axu := by simpa [sectionsOf] using he
  refine decode_of_axu ?_ hf
  unfold rawAxu
  rw [f0]
  dsimp only [cellAxu]
  simp [eh, f1, f2]

theorem Laws.RoundTrip.isect (h : Hdr) (a : Fin 16) (b : Fin 16) (c : BitVec 8) : Laws.RoundTrip.Statement (.isect h a b c) := by
  intro w hw hf
  simp only [encode, encWord, Option.some.injEq] at hw
  have b0 := a.isLt
  have b1 := b.isLt
  have b2 := c.isLt
  obtain ⟨eh, hlt, F⟩ := fields h (w := w) [(14, 6), (a.val, 4), (b.val, 4), (0, 5), (c.toNat, 8)] (by simp only [packF, widF]; omega) rfl ⟨by omega, by omega, by omega, by omega, by omega, trivial⟩
  have f0 : fld w 26 21 = 14 := F [] 14 5 [(a.val, 4), (b.val, 4), (0, 5), (c.toNat, 8)] rfl
  have f1 : fld w 20 17 = a.val := F [(14, 6)] (a.val) 3 [(b.val, 4), (0, 5), (c.toNat, 8)] rfl
  have f2 : fld w 16 13 = b.val := F [(14, 6), (a.val, 4)] (b.val) 3 [(0, 5), (c.toNat, 8)] rfl
  have f3 : fld w 12 8 = 0 := F [(14, 6), (a.val, 4), (b.val, 4)] 0 4 [(c.toNat, 8)] rfl
  have f4 : fld w 7 0 = c.toNat := F [(14, 6), (a.val, 4), (b.val, 4), (0, 5)] (c.toNat) 7 [] rfl
  refine ⟨hlt, fun e he => ?_⟩
  obtain rfl : e = .axu := by simpa [sectionsOf] using he
  refine decode_of_axu ?_ hf
  unfold rawAxu
  rw [f0]
  dsimp only [cellAxu]
  simp [eh, f1, f2, f3, f4]

theorem Laws.RoundTrip.imerge (h : Hdr) (a : Fin 16) (b : Fin 16) (c : BitVec 8) : Laws.RoundTrip.Statement (.imerge h a b c) := by
  intro w hw hf
  simp only [encode, encWord, Option.some.injEq] at hw
  have b0 := a.isLt
  have b1 := b.isLt
  have b2 := c.isLt
  obtain ⟨eh, hlt, F⟩ := fields h (w := w) [(15, 6), (a.val, 4), (b.val, 4), (0, 5), (c.toNat, 8)] (by simp only [packF, widF]; omega) rfl ⟨by omega, by omega, by omega, by omega, by omega, trivial⟩
  have f0 : fld w 26 21 = 15 := F [] 15 5 [(a.val, 4), (b.val, 4), (0, 5), (c.toNat, 8)] rfl
  have f1 : fld w 20 17 = a.val := F [(15, 6)] (a.val) 3 [(b.val, 4), (0, 5), (c.toNat, 8)] rfl
  have f2 : fld w 16 13 = b.val := F [(15, 6), (a.val, 4)] (b.val) 3 [(0, 5), (c.toNat, 8)] rfl
  have f3 : fld w 12 8 = 0 := F [(15, 6), (a.val, 4), (b.val, 4)] 0 4 [(c.toNat, 8)] rfl
  have f4 : fld w 7 0 = c.toNat := F [(15, 6), (a.val, 4), (b.val, 4), (0, 5)] (c.toNat) 7 [] rfl
  refine ⟨hlt, fun e he => ?_⟩
  obtain rfl : e = .axu := by simpa [sectionsOf] using he
  refine decode_of_axu ?_ hf
  unfold rawAxu
  rw [f0]
  dsimp only [cellAxu]
  simp [eh, f1, f2, f3, f4]

theorem Laws.RoundTrip.icnt (h : Hdr) (a : Fin 16) (b : Fin 16) (p : Bool) (d : Fin 16) : Laws.RoundTrip.Statement (.icnt h a b p d) := by
  intro w hw hf
  simp only [encode, encWord, Option.some.injEq] at hw
  have b0 := a.isLt
  have b1 := b.isLt
  have b2 := d.isLt
  have c0 := ofBool_lt p
  obtain ⟨eh, hlt, F⟩ := fields h (w := w) [(16, 6), (a.val, 4), (b.val, 4), (0, 5), (ofBool p, 1), (0, 3), (d.val, 4)] (by simp only [packF, widF]; omega) rfl ⟨by omega, by omega, by omega, by omega, by omega, by omega, by omega, trivial⟩
  have f0 : fld w 26 21 = 16 := F [] 16 5 [(a.val, 4), (b.val, 4), (0, 5), (ofBool p, 1), (0, 3), (d.val, 4)] rfl
  have f1 : fld w 20 17 = a.val := F [(16, 6)] (a.val) 3 [(b.val, 4), (0, 5), (ofBool p, 1), (0, 3), (d.val, 4)] rfl
  have f2 : fld w 16 13 = b.val := F [(16, 6), (a.val, 4)] (b.val) 3 [(0, 5), (ofBool p, 1), (0, 3), (d.val, 4)] rfl
  have f3 : fld w 12 8 = 0 := F [(16, 6), (a.val, 4), (b.val, 4)] 0 4 [(ofBool p, 1), (0, 3), (d.val, 4)] rfl
  have f4 : fld w 7 7 = ofBool p := F [(16, 6), (a.val, 4), (b.val, 4), (0, 5)] (ofBool p) 0 [(0, 3), (d.val, 4)] rfl
  have f5 : fld w 6 4 = 0 := F [(16, 6), (a.val, 4), (b.val, 4), (0, 5), (ofBool p, 1)] 0 2 [(d.val, 4)] rfl
  have f6 : fld w 3 0 = d.val := F [(16, 6), (a.val, 4), (b.val, 4), (0, 5), (ofBool p, 1), (0, 3)] (d.val) 3 [] rfl
  refine ⟨hlt, fun e he => ?_⟩
  obtain rfl : e = .axu := by simpa [sectionsOf] using he
  refine decode_of_axu ?_ hf
  unfold rawAxu
  rw [f0]
  dsimp only [cellAxu]
  simp [eh, f1, f2, f3, f4, f5, f6, beq_ofBool]

theorem Laws.RoundTrip.ract (h : Hdr) (win : Fin 4) (b : Fin 32) (a : Fin 16) : Laws.RoundTrip.Statement (.ract h win b a) := by
  intro w hw hf
  simp only [encode, encWord, Option.some.injEq] at hw
  have b0 := win.isLt
  have b1 := b.isLt
  have b2 := a.isLt
  obtain ⟨eh, hlt, F⟩ := fields h (w := w) [(17, 6), (win.val, 2), (b.val, 5), (a.val, 4), (0, 10)] (by simp only [packF, widF]; omega) rfl ⟨by omega, by omega, by omega, by omega, by omega, trivial⟩
  have f0 : fld w 26 21 = 17 := F [] 17 5 [(win.val, 2), (b.val, 5), (a.val, 4), (0, 10)] rfl
  have f1 : fld w 20 19 = win.val := F [(17, 6)] (win.val) 1 [(b.val, 5), (a.val, 4), (0, 10)] rfl
  have f2 : fld w 18 14 = b.val := F [(17, 6), (win.val, 2)] (b.val) 4 [(a.val, 4), (0, 10)] rfl
  have f3 : fld w 13 10 = a.val := F [(17, 6), (win.val, 2), (b.val, 5)] (a.val) 3 [(0, 10)] rfl
  have f4 : fld w 9 0 = 0 := F [(17, 6), (win.val, 2), (b.val, 5), (a.val, 4)] 0 9 [] rfl
  refine ⟨hlt, fun e he => ?_⟩
  obtain rfl : e = .axu := by simpa [sectionsOf] using he
  refine decode_of_axu ?_ hf
  unfold rawAxu
  rw [f0]
  dsimp only [cellAxu]
  simp [eh, f1, f2, f3, f4]

theorem Laws.RoundTrip.rcon (h : Hdr) (win : Fin 4) (b : Fin 32) (a : Fin 16) (o : BitVec 2) (d : BitVec 5) : Laws.RoundTrip.Statement (.rcon h win b a o d) := by
  intro w hw hf
  simp only [encode, encWord, Option.some.injEq] at hw
  have b0 := win.isLt
  have b1 := b.isLt
  have b2 := a.isLt
  have b3 := o.isLt
  have b4 := d.isLt
  obtain ⟨eh, hlt, F⟩ := fields h (w := w) [(18, 6), (win.val, 2), (b.val, 5), (a.val, 4), (o.toNat, 2), (d.toNat, 5), (0, 3)] (by simp only [packF, widF]; omega) rfl ⟨by omega, by omega, by omega, by omega, by omega, by omega, by omega, trivial⟩
  have f0 : fld w 26 21 = 18 := F [] 18 5 [(win.val, 2), (b.val, 5), (a.val, 4), (o.toNat, 2), (d.toNat, 5), (0, 3)] rfl
  have f1 : fld w 20 19 = win.val := F [(18, 6)] (win.val) 1 [(b.val, 5), (a.val, 4), (o.toNat, 2), (d.toNat, 5), (0, 3)] rfl
  have f2 : fld w 18 14 = b.val := F [(18, 6), (win.val, 2)] (b.val) 4 [(a.val, 4), (o.toNat, 2), (d.toNat, 5), (0, 3)] rfl
  have f3 : fld w 13 10 = a.val := F [(18, 6), (win.val, 2), (b.val, 5)] (a.val) 3 [(o.toNat, 2), (d.toNat, 5), (0, 3)] rfl
  have f4 : fld w 9 8 = o.toNat := F [(18, 6), (win.val, 2), (b.val, 5), (a.val, 4)] (o.toNat) 1 [(d.toNat, 5), (0, 3)] rfl
  have f5 : fld w 7 3 = d.toNat := F [(18, 6), (win.val, 2), (b.val, 5), (a.val, 4), (o.toNat, 2)] (d.toNat) 4 [(0, 3)] rfl
  have f6 : fld w 2 0 = 0 := F [(18, 6), (win.val, 2), (b.val, 5), (a.val, 4), (o.toNat, 2), (d.toNat, 5)] 0 2 [] rfl
  refine ⟨hlt, fun e he => ?_⟩
  obtain rfl : e = .axu := by simpa [sectionsOf] using he
  refine decode_of_axu ?_ hf
  unfold rawAxu
  rw [f0]
  dsimp only [cellAxu]
  simp [eh, f1, f2, f3, f4, f5, f6]

theorem Laws.RoundTrip.rpre (h : Hdr) (win : Fin 4) (b : Fin 32) (a : Fin 16) : Laws.RoundTrip.Statement (.rpre h win b a) := by
  intro w hw hf
  simp only [encode, encWord, Option.some.injEq] at hw
  have b0 := win.isLt
  have b1 := b.isLt
  have b2 := a.isLt
  obtain ⟨eh, hlt, F⟩ := fields h (w := w) [(19, 6), (win.val, 2), (b.val, 5), (a.val, 4), (0, 10)] (by simp only [packF, widF]; omega) rfl ⟨by omega, by omega, by omega, by omega, by omega, trivial⟩
  have f0 : fld w 26 21 = 19 := F [] 19 5 [(win.val, 2), (b.val, 5), (a.val, 4), (0, 10)] rfl
  have f1 : fld w 20 19 = win.val := F [(19, 6)] (win.val) 1 [(b.val, 5), (a.val, 4), (0, 10)] rfl
  have f2 : fld w 18 14 = b.val := F [(19, 6), (win.val, 2)] (b.val) 4 [(a.val, 4), (0, 10)] rfl
  have f3 : fld w 13 10 = a.val := F [(19, 6), (win.val, 2), (b.val, 5)] (a.val) 3 [(0, 10)] rfl
  have f4 : fld w 9 0 = 0 := F [(19, 6), (win.val, 2), (b.val, 5), (a.val, 4)] 0 9 [] rfl
  refine ⟨hlt, fun e he => ?_⟩
  obtain rfl : e = .axu := by simpa [sectionsOf] using he
  refine decode_of_axu ?_ hf
  unfold rawAxu
  rw [f0]
  dsimp only [cellAxu]
  simp [eh, f1, f2, f3, f4]

theorem Laws.RoundTrip.rstat (h : Hdr) (win : Fin 4) (b : Fin 32) (a : Fin 16) : Laws.RoundTrip.Statement (.rstat h win b a) := by
  intro w hw hf
  simp only [encode, encWord, Option.some.injEq] at hw
  have b0 := win.isLt
  have b1 := b.isLt
  have b2 := a.isLt
  obtain ⟨eh, hlt, F⟩ := fields h (w := w) [(20, 6), (win.val, 2), (b.val, 5), (a.val, 4), (0, 10)] (by simp only [packF, widF]; omega) rfl ⟨by omega, by omega, by omega, by omega, by omega, trivial⟩
  have f0 : fld w 26 21 = 20 := F [] 20 5 [(win.val, 2), (b.val, 5), (a.val, 4), (0, 10)] rfl
  have f1 : fld w 20 19 = win.val := F [(20, 6)] (win.val) 1 [(b.val, 5), (a.val, 4), (0, 10)] rfl
  have f2 : fld w 18 14 = b.val := F [(20, 6), (win.val, 2)] (b.val) 4 [(a.val, 4), (0, 10)] rfl
  have f3 : fld w 13 10 = a.val := F [(20, 6), (win.val, 2), (b.val, 5)] (a.val) 3 [(0, 10)] rfl
  have f4 : fld w 9 0 = 0 := F [(20, 6), (win.val, 2), (b.val, 5), (a.val, 4)] 0 9 [] rfl
  refine ⟨hlt, fun e he => ?_⟩
  obtain rfl : e = .axu := by simpa [sectionsOf] using he
  refine decode_of_axu ?_ hf
  unfold rawAxu
  rw [f0]
  dsimp only [cellAxu]
  simp [eh, f1, f2, f3, f4]

theorem Laws.RoundTrip.ring (h : Hdr) (a : Fin 16) (b : Fin 16) (l : BitVec 5) (c : BitVec 8) : Laws.RoundTrip.Statement (.ring h a b l c) := by
  intro w hw hf
  simp only [encode, encWord, Option.some.injEq] at hw
  have b0 := a.isLt
  have b1 := b.isLt
  have b2 := l.isLt
  have b3 := c.isLt
  obtain ⟨eh, hlt, F⟩ := fields h (w := w) [(21, 6), (a.val, 4), (b.val, 4), (l.toNat, 5), (c.toNat, 8)] (by simp only [packF, widF]; omega) rfl ⟨by omega, by omega, by omega, by omega, by omega, trivial⟩
  have f0 : fld w 26 21 = 21 := F [] 21 5 [(a.val, 4), (b.val, 4), (l.toNat, 5), (c.toNat, 8)] rfl
  have f1 : fld w 20 17 = a.val := F [(21, 6)] (a.val) 3 [(b.val, 4), (l.toNat, 5), (c.toNat, 8)] rfl
  have f2 : fld w 16 13 = b.val := F [(21, 6), (a.val, 4)] (b.val) 3 [(l.toNat, 5), (c.toNat, 8)] rfl
  have f3 : fld w 12 8 = l.toNat := F [(21, 6), (a.val, 4), (b.val, 4)] (l.toNat) 4 [(c.toNat, 8)] rfl
  have f4 : fld w 7 0 = c.toNat := F [(21, 6), (a.val, 4), (b.val, 4), (l.toNat, 5)] (c.toNat) 7 [] rfl
  refine ⟨hlt, fun e he => ?_⟩
  obtain rfl : e = .axu := by simpa [sectionsOf] using he
  refine decode_of_axu ?_ hf
  unfold rawAxu
  rw [f0]
  dsimp only [cellAxu]
  simp [eh, f1, f2, f3, f4]

theorem Laws.RoundTrip.bwin (h : Hdr) (hd : BitVec 16) (nl : BitVec 3) (x : BitVec 2) : Laws.RoundTrip.Statement (.bwin h hd nl x) := by
  intro w hw hf
  simp only [encode, encWord, Option.some.injEq] at hw
  have b0 := hd.isLt
  have b1 := nl.isLt
  have b2 := x.isLt
  obtain ⟨eh, hlt, F⟩ := fields h (w := w) [(2, 6), (hd.toNat, 16), (nl.toNat, 3), (x.toNat, 2)] (by simp only [packF, widF]; omega) rfl ⟨by omega, by omega, by omega, by omega, trivial⟩
  have f0 : fld w 26 21 = 2 := F [] 2 5 [(hd.toNat, 16), (nl.toNat, 3), (x.toNat, 2)] rfl
  have f1 : fld w 20 5 = hd.toNat := F [(2, 6)] (hd.toNat) 15 [(nl.toNat, 3), (x.toNat, 2)] rfl
  have f2 : fld w 4 2 = nl.toNat := F [(2, 6), (hd.toNat, 16)] (nl.toNat) 2 [(x.toNat, 2)] rfl
  have f3 : fld w 1 0 = x.toNat := F [(2, 6), (hd.toNat, 16), (nl.toNat, 3)] (x.toNat) 1 [] rfl
  have hx : x.toNat ≤ 1 := by simp [Instr.wf] at hf; omega
  have g0 : ¬ fld w 4 0 = 31 := by simp only [fld, Nat.reducePow, Nat.reduceAdd, Nat.reduceSub] at *; omega
  refine ⟨hlt, fun e he => ?_⟩
  obtain rfl : e = .bke := by simpa [sectionsOf] using he
  refine decode_of_bke ?_ hf
  unfold rawBke
  rw [f0]
  dsimp only [cellBke]
  simp [eh, f1, f2, f3, g0]

theorem Laws.RoundTrip.bwinCfg (h : Hdr) (hd : BitVec 16) : Laws.RoundTrip.Statement (.bwinCfg h hd) := by
  intro w hw hf
  simp only [encode, encWord, Option.some.injEq] at hw
  have b0 := hd.isLt
  obtain ⟨eh, hlt, F⟩ := fields h (w := w) [(2, 6), (hd.toNat, 16), (31, 5)] (by simp only [packF, widF]; omega) rfl ⟨by omega, by omega, by omega, trivial⟩
  have f0 : fld w 26 21 = 2 := F [] 2 5 [(hd.toNat, 16), (31, 5)] rfl
  have f1 : fld w 20 5 = hd.toNat := F [(2, 6)] (hd.toNat) 15 [(31, 5)] rfl
  have f2 : fld w 4 0 = 31 := F [(2, 6), (hd.toNat, 16)] 31 4 [] rfl
  refine ⟨hlt, fun e he => ?_⟩
  obtain rfl : e = .bke := by simpa [sectionsOf] using he
  refine decode_of_bke ?_ hf
  unfold rawBke
  rw [f0]
  dsimp only [cellBke]
  simp [eh, f1, f2]

theorem Laws.RoundTrip.bsteer (h : Hdr) (hd : BitVec 16) (nl : BitVec 3) (x : BitVec 2) : Laws.RoundTrip.Statement (.bsteer h hd nl x) := by
  intro w hw hf
  simp only [encode, encWord, Option.some.injEq] at hw
  have b0 := hd.isLt
  have b1 := nl.isLt
  have b2 := x.isLt
  obtain ⟨eh, hlt, F⟩ := fields h (w := w) [(3, 6), (hd.toNat, 16), (nl.toNat, 3), (x.toNat, 2)] (by simp only [packF, widF]; omega) rfl ⟨by omega, by omega, by omega, by omega, trivial⟩
  have f0 : fld w 26 21 = 3 := F [] 3 5 [(hd.toNat, 16), (nl.toNat, 3), (x.toNat, 2)] rfl
  have f1 : fld w 20 5 = hd.toNat := F [(3, 6)] (hd.toNat) 15 [(nl.toNat, 3), (x.toNat, 2)] rfl
  have f2 : fld w 4 2 = nl.toNat := F [(3, 6), (hd.toNat, 16)] (nl.toNat) 2 [(x.toNat, 2)] rfl
  have f3 : fld w 1 0 = x.toNat := F [(3, 6), (hd.toNat, 16), (nl.toNat, 3)] (x.toNat) 1 [] rfl
  refine ⟨hlt, fun e he => ?_⟩
  obtain rfl : e = .bke := by simpa [sectionsOf] using he
  refine decode_of_bke ?_ hf
  unfold rawBke
  rw [f0]
  dsimp only [cellBke]
  simp [eh, f1, f2, f3]

theorem Laws.RoundTrip.bplane (h : Hdr) (hd : BitVec 16) (nl : BitVec 3) (x : BitVec 2) : Laws.RoundTrip.Statement (.bplane h hd nl x) := by
  intro w hw hf
  simp only [encode, encWord, Option.some.injEq] at hw
  have b0 := hd.isLt
  have b1 := nl.isLt
  have b2 := x.isLt
  obtain ⟨eh, hlt, F⟩ := fields h (w := w) [(4, 6), (hd.toNat, 16), (nl.toNat, 3), (x.toNat, 2)] (by simp only [packF, widF]; omega) rfl ⟨by omega, by omega, by omega, by omega, trivial⟩
  have f0 : fld w 26 21 = 4 := F [] 4 5 [(hd.toNat, 16), (nl.toNat, 3), (x.toNat, 2)] rfl
  have f1 : fld w 20 5 = hd.toNat := F [(4, 6)] (hd.toNat) 15 [(nl.toNat, 3), (x.toNat, 2)] rfl
  have f2 : fld w 4 2 = nl.toNat := F [(4, 6), (hd.toNat, 16)] (nl.toNat) 2 [(x.toNat, 2)] rfl
  have f3 : fld w 1 0 = x.toNat := F [(4, 6), (hd.toNat, 16), (nl.toNat, 3)] (x.toNat) 1 [] rfl
  refine ⟨hlt, fun e he => ?_⟩
  obtain rfl : e = .bke := by simpa [sectionsOf] using he
  refine decode_of_bke ?_ hf
  unfold rawBke
  rw [f0]
  dsimp only [cellBke]
  simp [eh, f1, f2, f3]

theorem Laws.RoundTrip.bclr (h : Hdr) : Laws.RoundTrip.Statement (.bclr h) := by
  intro w hw hf
  simp only [encode, encWord, Option.some.injEq] at hw
  obtain ⟨eh, hlt, F⟩ := fields h (w := w) [(5, 6), (0, 21)] (by simp only [packF, widF]; omega) rfl ⟨by omega, by omega, trivial⟩
  have f0 : fld w 26 21 = 5 := F [] 5 5 [(0, 21)] rfl
  have f1 : fld w 20 0 = 0 := F [(5, 6)] 0 20 [] rfl
  refine ⟨hlt, fun e he => ?_⟩
  obtain rfl : e = .bke := by simpa [sectionsOf] using he
  refine decode_of_bke ?_ hf
  unfold rawBke
  rw [f0]
  dsimp only [cellBke]
  simp [eh, f1]

theorem Laws.RoundTrip.cbld (h : Hdr) (hd : BitVec 16) (k : Fin 8) : Laws.RoundTrip.Statement (.cbld h hd k) := by
  intro w hw hf
  simp only [encode, encWord, Option.some.injEq] at hw
  have b0 := hd.isLt
  have b1 := k.isLt
  obtain ⟨eh, hlt, F⟩ := fields h (w := w) [(6, 6), (hd.toNat, 16), (k.val, 3), (0, 2)] (by simp only [packF, widF]; omega) rfl ⟨by omega, by omega, by omega, by omega, trivial⟩
  have f0 : fld w 26 21 = 6 := F [] 6 5 [(hd.toNat, 16), (k.val, 3), (0, 2)] rfl
  have f1 : fld w 20 5 = hd.toNat := F [(6, 6)] (hd.toNat) 15 [(k.val, 3), (0, 2)] rfl
  have f2 : fld w 4 2 = k.val := F [(6, 6), (hd.toNat, 16)] (k.val) 2 [(0, 2)] rfl
  have f3 : fld w 1 0 = 0 := F [(6, 6), (hd.toNat, 16), (k.val, 3)] 0 1 [] rfl
  refine ⟨hlt, fun e he => ?_⟩
  obtain rfl : e = .bke := by simpa [sectionsOf] using he
  refine decode_of_bke ?_ hf
  unfold rawBke
  rw [f0]
  dsimp only [cellBke]
  simp [eh, f1, f2, f3]

theorem Laws.RoundTrip.mulb (h : Hdr) (c : BitVec 3) : Laws.RoundTrip.Statement (.mulb h c) := by
  intro w hw hf
  simp only [encode, encWord, Option.some.injEq] at hw
  have b0 := c.isLt
  obtain ⟨eh, hlt, F⟩ := fields h (w := w) [(7, 6), (c.toNat, 3), (0, 18)] (by simp only [packF, widF]; omega) rfl ⟨by omega, by omega, by omega, trivial⟩
  have f0 : fld w 26 21 = 7 := F [] 7 5 [(c.toNat, 3), (0, 18)] rfl
  have f1 : fld w 20 18 = c.toNat := F [(7, 6)] (c.toNat) 2 [(0, 18)] rfl
  have f2 : fld w 17 0 = 0 := F [(7, 6), (c.toNat, 3)] 0 17 [] rfl
  refine ⟨hlt, fun e he => ?_⟩
  obtain rfl : e = .bke := by simpa [sectionsOf] using he
  refine decode_of_bke ?_ hf
  unfold rawBke
  rw [f0]
  dsimp only [cellBke]
  simp [eh, f1, f2]

theorem Laws.RoundTrip.macd (h : Hdr) (l : BitVec 5) (f : BitVec 2) (nl : BitVec 3) (x : BitVec 2) : Laws.RoundTrip.Statement (.macd h l f nl x) := by
  intro w hw hf
  simp only [encode, encWord, Option.some.injEq] at hw
  have b0 := l.isLt
  have b1 := f.isLt
  have b2 := nl.isLt
  have b3 := x.isLt
  obtain ⟨eh, hlt, F⟩ := fields h (w := w) [(8, 6), (l.toNat, 5), (f.toNat, 2), (0, 9), (nl.toNat, 3), (x.toNat, 2)] (by simp only [packF, widF]; omega) rfl ⟨by omega, by omega, by omega, by omega, by omega, by omega, trivial⟩
  have f0 : fld w 26 21 = 8 := F [] 8 5 [(l.toNat, 5), (f.toNat, 2), (0, 9), (nl.toNat, 3), (x.toNat, 2)] rfl
  have f1 : fld w 20 16 = l.toNat := F [(8, 6)] (l.toNat) 4 [(f.toNat, 2), (0, 9), (nl.toNat, 3), (x.toNat, 2)] rfl
  have f2 : fld w 15 14 = f.toNat := F [(8, 6), (l.toNat, 5)] (f.toNat) 1 [(0, 9), (nl.toNat, 3), (x.toNat, 2)] rfl
  have f3 : fld w 13 5 = 0 := F [(8, 6), (l.toNat, 5), (f.toNat, 2)] 0 8 [(nl.toNat, 3), (x.toNat, 2)] rfl
  have f4 : fld w 4 2 = nl.toNat := F [(8, 6), (l.toNat, 5), (f.toNat, 2), (0, 9)] (nl.toNat) 2 [(x.toNat, 2)] rfl
  have f5 : fld w 1 0 = x.toNat := F [(8, 6), (l.toNat, 5), (f.toNat, 2), (0, 9), (nl.toNat, 3)] (x.toNat) 1 [] rfl
  refine ⟨hlt, fun e he => ?_⟩
  obtain rfl : e = .bke := by simpa [sectionsOf] using he
  refine decode_of_bke ?_ hf
  unfold rawBke
  rw [f0]
  dsimp only [cellBke]
  simp [eh, f1, f2, f3, f4, f5]

theorem Laws.RoundTrip.zswap (h : Hdr) : Laws.RoundTrip.Statement (.zswap h) := by
  intro w hw hf
  simp only [encode, encWord, Option.some.injEq] at hw
  obtain ⟨eh, hlt, F⟩ := fields h (w := w) [(9, 6), (0, 21)] (by simp only [packF, widF]; omega) rfl ⟨by omega, by omega, trivial⟩
  have f0 : fld w 26 21 = 9 := F [] 9 5 [(0, 21)] rfl
  have f1 : fld w 20 0 = 0 := F [(9, 6)] 0 20 [] rfl
  refine ⟨hlt, fun e he => ?_⟩
  obtain rfl : e = .bke := by simpa [sectionsOf] using he
  refine decode_of_bke ?_ hf
  unfold rawBke
  rw [f0]
  dsimp only [cellBke]
  simp [eh, f1]

theorem Laws.RoundTrip.zdrain (h : Hdr) (a : Fin 256) (b : Fin 256) (f : BitVec 3) (s : BitVec 2) : Laws.RoundTrip.Statement (.zdrain h a b f s) := by
  intro w hw hf
  simp only [encode, encWord, Option.some.injEq] at hw
  have b0 := a.isLt
  have b1 := b.isLt
  have b2 := f.isLt
  have b3 := s.isLt
  obtain ⟨eh, hlt, F⟩ := fields h (w := w) [(10, 6), (a.val, 8), (b.val, 8), (f.toNat, 3), (s.toNat, 2)] (by simp only [packF, widF]; omega) rfl ⟨by omega, by omega, by omega, by omega, by omega, trivial⟩
  have f0 : fld w 26 21 = 10 := F [] 10 5 [(a.val, 8), (b.val, 8), (f.toNat, 3), (s.toNat, 2)] rfl
  have f1 : fld w 20 13 = a.val := F [(10, 6)] (a.val) 7 [(b.val, 8), (f.toNat, 3), (s.toNat, 2)] rfl
  have f2 : fld w 12 5 = b.val := F [(10, 6), (a.val, 8)] (b.val) 7 [(f.toNat, 3), (s.toNat, 2)] rfl
  have f3 : fld w 4 2 = f.toNat := F [(10, 6), (a.val, 8), (b.val, 8)] (f.toNat) 2 [(s.toNat, 2)] rfl
  have f4 : fld w 1 0 = s.toNat := F [(10, 6), (a.val, 8), (b.val, 8), (f.toNat, 3)] (s.toNat) 1 [] rfl
  refine ⟨hlt, fun e he => ?_⟩
  obtain rfl : e = .bke := by simpa [sectionsOf] using he
  refine decode_of_bke ?_ hf
  unfold rawBke
  rw [f0]
  dsimp only [cellBke]
  simp [eh, f1, f2, f3, f4]

theorem Laws.RoundTrip.zclr (h : Hdr) (a : Fin 256) (b : Fin 256) : Laws.RoundTrip.Statement (.zclr h a b) := by
  intro w hw hf
  simp only [encode, encWord, Option.some.injEq] at hw
  have b0 := a.isLt
  have b1 := b.isLt
  obtain ⟨eh, hlt, F⟩ := fields h (w := w) [(11, 6), (a.val, 8), (b.val, 8), (0, 5)] (by simp only [packF, widF]; omega) rfl ⟨by omega, by omega, by omega, by omega, trivial⟩
  have f0 : fld w 26 21 = 11 := F [] 11 5 [(a.val, 8), (b.val, 8), (0, 5)] rfl
  have f1 : fld w 20 13 = a.val := F [(11, 6)] (a.val) 7 [(b.val, 8), (0, 5)] rfl
  have f2 : fld w 12 5 = b.val := F [(11, 6), (a.val, 8)] (b.val) 7 [(0, 5)] rfl
  have f3 : fld w 4 0 = 0 := F [(11, 6), (a.val, 8), (b.val, 8)] 0 4 [] rfl
  refine ⟨hlt, fun e he => ?_⟩
  obtain rfl : e = .bke := by simpa [sectionsOf] using he
  refine decode_of_bke ?_ hf
  unfold rawBke
  rw [f0]
  dsimp only [cellBke]
  simp [eh, f1, f2, f3]

theorem Laws.RoundTrip.zspill (h : Hdr) (a : Fin 256) (b : Fin 256) (k : Bool) (s : BitVec 2) : Laws.RoundTrip.Statement (.zspill h a b k s) := by
  intro w hw hf
  simp only [encode, encWord, Option.some.injEq] at hw
  have b0 := a.isLt
  have b1 := b.isLt
  have b2 := s.isLt
  have c0 := ofBool_lt k
  obtain ⟨eh, hlt, F⟩ := fields h (w := w) [(12, 6), (a.val, 8), (b.val, 8), (0, 2), (ofBool k, 1), (s.toNat, 2)] (by simp only [packF, widF]; omega) rfl ⟨by omega, by omega, by omega, by omega, by omega, by omega, trivial⟩
  have f0 : fld w 26 21 = 12 := F [] 12 5 [(a.val, 8), (b.val, 8), (0, 2), (ofBool k, 1), (s.toNat, 2)] rfl
  have f1 : fld w 20 13 = a.val := F [(12, 6)] (a.val) 7 [(b.val, 8), (0, 2), (ofBool k, 1), (s.toNat, 2)] rfl
  have f2 : fld w 12 5 = b.val := F [(12, 6), (a.val, 8)] (b.val) 7 [(0, 2), (ofBool k, 1), (s.toNat, 2)] rfl
  have f3 : fld w 4 3 = 0 := F [(12, 6), (a.val, 8), (b.val, 8)] 0 1 [(ofBool k, 1), (s.toNat, 2)] rfl
  have f4 : fld w 2 2 = ofBool k := F [(12, 6), (a.val, 8), (b.val, 8), (0, 2)] (ofBool k) 0 [(s.toNat, 2)] rfl
  have f5 : fld w 1 0 = s.toNat := F [(12, 6), (a.val, 8), (b.val, 8), (0, 2), (ofBool k, 1)] (s.toNat) 1 [] rfl
  refine ⟨hlt, fun e he => ?_⟩
  obtain rfl : e = .bke := by simpa [sectionsOf] using he
  refine decode_of_bke ?_ hf
  unfold rawBke
  rw [f0]
  dsimp only [cellBke]
  simp [eh, f1, f2, f3, f4, f5, beq_ofBool]

theorem Laws.RoundTrip.zfill (h : Hdr) (a : Fin 256) (b : Fin 256) (k : Bool) (s : BitVec 2) : Laws.RoundTrip.Statement (.zfill h a b k s) := by
  intro w hw hf
  simp only [encode, encWord, Option.some.injEq] at hw
  have b0 := a.isLt
  have b1 := b.isLt
  have b2 := s.isLt
  have c0 := ofBool_lt k
  obtain ⟨eh, hlt, F⟩ := fields h (w := w) [(13, 6), (a.val, 8), (b.val, 8), (0, 2), (ofBool k, 1), (s.toNat, 2)] (by simp only [packF, widF]; omega) rfl ⟨by omega, by omega, by omega, by omega, by omega, by omega, trivial⟩
  have f0 : fld w 26 21 = 13 := F [] 13 5 [(a.val, 8), (b.val, 8), (0, 2), (ofBool k, 1), (s.toNat, 2)] rfl
  have f1 : fld w 20 13 = a.val := F [(13, 6)] (a.val) 7 [(b.val, 8), (0, 2), (ofBool k, 1), (s.toNat, 2)] rfl
  have f2 : fld w 12 5 = b.val := F [(13, 6), (a.val, 8)] (b.val) 7 [(0, 2), (ofBool k, 1), (s.toNat, 2)] rfl
  have f3 : fld w 4 3 = 0 := F [(13, 6), (a.val, 8), (b.val, 8)] 0 1 [(ofBool k, 1), (s.toNat, 2)] rfl
  have f4 : fld w 2 2 = ofBool k := F [(13, 6), (a.val, 8), (b.val, 8), (0, 2)] (ofBool k) 0 [(s.toNat, 2)] rfl
  have f5 : fld w 1 0 = s.toNat := F [(13, 6), (a.val, 8), (b.val, 8), (0, 2), (ofBool k, 1)] (s.toNat) 1 [] rfl
  refine ⟨hlt, fun e he => ?_⟩
  obtain rfl : e = .bke := by simpa [sectionsOf] using he
  refine decode_of_bke ?_ hf
  unfold rawBke
  rw [f0]
  dsimp only [cellBke]
  simp [eh, f1, f2, f3, f4, f5, beq_ofBool]

theorem Laws.RoundTrip.zaddv (h : Hdr) (a : Fin 256) (b : Fin 256) (k : Bool) (f : BitVec 2) (s : BitVec 2) : Laws.RoundTrip.Statement (.zaddv h a b k f s) := by
  intro w hw hf
  simp only [encode, encWord, Option.some.injEq] at hw
  have b0 := a.isLt
  have b1 := b.isLt
  have b2 := f.isLt
  have b3 := s.isLt
  have c0 := ofBool_lt k
  obtain ⟨eh, hlt, F⟩ := fields h (w := w) [(14, 6), (a.val, 8), (b.val, 8), (ofBool k, 1), (f.toNat, 2), (s.toNat, 2)] (by simp only [packF, widF]; omega) rfl ⟨by omega, by omega, by omega, by omega, by omega, by omega, trivial⟩
  have f0 : fld w 26 21 = 14 := F [] 14 5 [(a.val, 8), (b.val, 8), (ofBool k, 1), (f.toNat, 2), (s.toNat, 2)] rfl
  have f1 : fld w 20 13 = a.val := F [(14, 6)] (a.val) 7 [(b.val, 8), (ofBool k, 1), (f.toNat, 2), (s.toNat, 2)] rfl
  have f2 : fld w 12 5 = b.val := F [(14, 6), (a.val, 8)] (b.val) 7 [(ofBool k, 1), (f.toNat, 2), (s.toNat, 2)] rfl
  have f3 : fld w 4 4 = ofBool k := F [(14, 6), (a.val, 8), (b.val, 8)] (ofBool k) 0 [(f.toNat, 2), (s.toNat, 2)] rfl
  have f4 : fld w 3 2 = f.toNat := F [(14, 6), (a.val, 8), (b.val, 8), (ofBool k, 1)] (f.toNat) 1 [(s.toNat, 2)] rfl
  have f5 : fld w 1 0 = s.toNat := F [(14, 6), (a.val, 8), (b.val, 8), (ofBool k, 1), (f.toNat, 2)] (s.toNat) 1 [] rfl
  refine ⟨hlt, fun e he => ?_⟩
  obtain rfl : e = .bke := by simpa [sectionsOf] using he
  refine decode_of_bke ?_ hf
  unfold rawBke
  rw [f0]
  dsimp only [cellBke]
  simp [eh, f1, f2, f3, f4, f5, beq_ofBool]

theorem Laws.RoundTrip.zstat (h : Hdr) (l : BitVec 5) (k : Bool) (s : BitVec 2) : Laws.RoundTrip.Statement (.zstat h l k s) := by
  intro w hw hf
  simp only [encode, encWord, Option.some.injEq] at hw
  have b0 := l.isLt
  have b1 := s.isLt
  have c0 := ofBool_lt k
  obtain ⟨eh, hlt, F⟩ := fields h (w := w) [(15, 6), (l.toNat, 5), (0, 8), (ofBool k, 1), (s.toNat, 2), (0, 5)] (by simp only [packF, widF]; omega) rfl ⟨by omega, by omega, by omega, by omega, by omega, by omega, trivial⟩
  have f0 : fld w 26 21 = 15 := F [] 15 5 [(l.toNat, 5), (0, 8), (ofBool k, 1), (s.toNat, 2), (0, 5)] rfl
  have f1 : fld w 20 16 = l.toNat := F [(15, 6)] (l.toNat) 4 [(0, 8), (ofBool k, 1), (s.toNat, 2), (0, 5)] rfl
  have f2 : fld w 15 8 = 0 := F [(15, 6), (l.toNat, 5)] 0 7 [(ofBool k, 1), (s.toNat, 2), (0, 5)] rfl
  have f3 : fld w 7 7 = ofBool k := F [(15, 6), (l.toNat, 5), (0, 8)] (ofBool k) 0 [(s.toNat, 2), (0, 5)] rfl
  have f4 : fld w 6 5 = s.toNat := F [(15, 6), (l.toNat, 5), (0, 8), (ofBool k, 1)] (s.toNat) 1 [(0, 5)] rfl
  have f5 : fld w 4 0 = 0 := F [(15, 6), (l.toNat, 5), (0, 8), (ofBool k, 1), (s.toNat, 2)] 0 4 [] rfl
  refine ⟨hlt, fun e he => ?_⟩
  obtain rfl : e = .bke := by simpa [sectionsOf] using he
  refine decode_of_bke ?_ hf
  unfold rawBke
  rw [f0]
  dsimp only [cellBke]
  simp [eh, f1, f2, f3, f4, f5, beq_ofBool]

theorem Laws.RoundTrip.loopBke (h : Hdr) (nl : BitVec 3) (l : BitVec 4) : Laws.RoundTrip.Statement (.loopBke h nl l) := by
  intro w hw hf
  simp only [encode, encWord, Option.some.injEq] at hw
  have b0 := nl.isLt
  have b1 := l.isLt
  obtain ⟨eh, hlt, F⟩ := fields h (w := w) [(16, 6), (nl.toNat, 3), (l.toNat, 4), (0, 14)] (by simp only [packF, widF]; omega) rfl ⟨by omega, by omega, by omega, by omega, trivial⟩
  have f0 : fld w 26 21 = 16 := F [] 16 5 [(nl.toNat, 3), (l.toNat, 4), (0, 14)] rfl
  have f1 : fld w 20 18 = nl.toNat := F [(16, 6)] (nl.toNat) 2 [(l.toNat, 4), (0, 14)] rfl
  have f2 : fld w 17 14 = l.toNat := F [(16, 6), (nl.toNat, 3)] (l.toNat) 3 [(0, 14)] rfl
  have f3 : fld w 13 0 = 0 := F [(16, 6), (nl.toNat, 3), (l.toNat, 4)] 0 13 [] rfl
  refine ⟨hlt, fun e he => ?_⟩
  obtain rfl : e = .bke := by simpa [sectionsOf] using he
  refine decode_of_bke ?_ hf
  unfold rawBke
  rw [f0]
  dsimp only [cellBke]
  simp [eh, f1, f2, f3]

theorem Laws.RoundTrip.lendBke (h : Hdr) (nl : BitVec 3) : Laws.RoundTrip.Statement (.lendBke h nl) := by
  intro w hw hf
  simp only [encode, encWord, Option.some.injEq] at hw
  have b0 := nl.isLt
  obtain ⟨eh, hlt, F⟩ := fields h (w := w) [(17, 6), (nl.toNat, 3), (0, 18)] (by simp only [packF, widF]; omega) rfl ⟨by omega, by omega, by omega, trivial⟩
  have f0 : fld w 26 21 = 17 := F [] 17 5 [(nl.toNat, 3), (0, 18)] rfl
  have f1 : fld w 20 18 = nl.toNat := F [(17, 6)] (nl.toNat) 2 [(0, 18)] rfl
  have f2 : fld w 17 0 = 0 := F [(17, 6), (nl.toNat, 3)] 0 17 [] rfl
  refine ⟨hlt, fun e he => ?_⟩
  obtain rfl : e = .bke := by simpa [sectionsOf] using he
  refine decode_of_bke ?_ hf
  unfold rawBke
  rw [f0]
  dsimp only [cellBke]
  simp [eh, f1, f2]

theorem Laws.RoundTrip.vadd (h : Hdr) (k : Fin 8) (n : Bool) (d : Fin 32) (a : Fin 32) (b : Fin 32) (x : BitVec 2) : Laws.RoundTrip.Statement (.vadd h k n d a b x) := by
  intro w hw hf
  simp only [encode, encWord, Option.some.injEq] at hw
  have b0 := k.isLt
  have b1 := d.isLt
  have b2 := a.isLt
  have b3 := b.isLt
  have b4 := x.isLt
  have c0 := ofBool_lt n
  obtain ⟨eh, hlt, F⟩ := fields h (w := w) [(2, 6), (k.val, 3), (ofBool n, 1), (d.val, 5), (a.val, 5), (b.val, 5), (x.toNat, 2)] (by simp only [packF, widF]; omega) rfl ⟨by omega, by omega, by omega, by omega, by omega, by omega, by omega, trivial⟩
  have f0 : fld w 26 21 = 2 := F [] 2 5 [(k.val, 3), (ofBool n, 1), (d.val, 5), (a.val, 5), (b.val, 5), (x.toNat, 2)] rfl
  have f1 : fld w 20 18 = k.val := F [(2, 6)] (k.val) 2 [(ofBool n, 1), (d.val, 5), (a.val, 5), (b.val, 5), (x.toNat, 2)] rfl
  have f2 : fld w 17 17 = ofBool n := F [(2, 6), (k.val, 3)] (ofBool n) 0 [(d.val, 5), (a.val, 5), (b.val, 5), (x.toNat, 2)] rfl
  have f3 : fld w 16 12 = d.val := F [(2, 6), (k.val, 3), (ofBool n, 1)] (d.val) 4 [(a.val, 5), (b.val, 5), (x.toNat, 2)] rfl
  have f4 : fld w 11 7 = a.val := F [(2, 6), (k.val, 3), (ofBool n, 1), (d.val, 5)] (a.val) 4 [(b.val, 5), (x.toNat, 2)] rfl
  have f5 : fld w 6 2 = b.val := F [(2, 6), (k.val, 3), (ofBool n, 1), (d.val, 5), (a.val, 5)] (b.val) 4 [(x.toNat, 2)] rfl
  have f6 : fld w 1 0 = x.toNat := F [(2, 6), (k.val, 3), (ofBool n, 1), (d.val, 5), (a.val, 5), (b.val, 5)] (x.toNat) 1 [] rfl
  refine ⟨hlt, fun e he => ?_⟩
  obtain rfl : e = .vec := by simpa [sectionsOf] using he
  refine decode_of_vec ?_ hf
  unfold rawVec
  rw [f0]
  dsimp only [cellVec]
  simp [eh, f1, f2, f3, f4, f5, f6, beq_ofBool]

theorem Laws.RoundTrip.vsub (h : Hdr) (k : Fin 8) (n : Bool) (d : Fin 32) (a : Fin 32) (b : Fin 32) (x : BitVec 2) : Laws.RoundTrip.Statement (.vsub h k n d a b x) := by
  intro w hw hf
  simp only [encode, encWord, Option.some.injEq] at hw
  have b0 := k.isLt
  have b1 := d.isLt
  have b2 := a.isLt
  have b3 := b.isLt
  have b4 := x.isLt
  have c0 := ofBool_lt n
  obtain ⟨eh, hlt, F⟩ := fields h (w := w) [(3, 6), (k.val, 3), (ofBool n, 1), (d.val, 5), (a.val, 5), (b.val, 5), (x.toNat, 2)] (by simp only [packF, widF]; omega) rfl ⟨by omega, by omega, by omega, by omega, by omega, by omega, by omega, trivial⟩
  have f0 : fld w 26 21 = 3 := F [] 3 5 [(k.val, 3), (ofBool n, 1), (d.val, 5), (a.val, 5), (b.val, 5), (x.toNat, 2)] rfl
  have f1 : fld w 20 18 = k.val := F [(3, 6)] (k.val) 2 [(ofBool n, 1), (d.val, 5), (a.val, 5), (b.val, 5), (x.toNat, 2)] rfl
  have f2 : fld w 17 17 = ofBool n := F [(3, 6), (k.val, 3)] (ofBool n) 0 [(d.val, 5), (a.val, 5), (b.val, 5), (x.toNat, 2)] rfl
  have f3 : fld w 16 12 = d.val := F [(3, 6), (k.val, 3), (ofBool n, 1)] (d.val) 4 [(a.val, 5), (b.val, 5), (x.toNat, 2)] rfl
  have f4 : fld w 11 7 = a.val := F [(3, 6), (k.val, 3), (ofBool n, 1), (d.val, 5)] (a.val) 4 [(b.val, 5), (x.toNat, 2)] rfl
  have f5 : fld w 6 2 = b.val := F [(3, 6), (k.val, 3), (ofBool n, 1), (d.val, 5), (a.val, 5)] (b.val) 4 [(x.toNat, 2)] rfl
  have f6 : fld w 1 0 = x.toNat := F [(3, 6), (k.val, 3), (ofBool n, 1), (d.val, 5), (a.val, 5), (b.val, 5)] (x.toNat) 1 [] rfl
  refine ⟨hlt, fun e he => ?_⟩
  obtain rfl : e = .vec := by simpa [sectionsOf] using he
  refine decode_of_vec ?_ hf
  unfold rawVec
  rw [f0]
  dsimp only [cellVec]
  simp [eh, f1, f2, f3, f4, f5, f6, beq_ofBool]

theorem Laws.RoundTrip.vmul (h : Hdr) (k : Fin 8) (n : Bool) (d : Fin 32) (a : Fin 32) (b : Fin 32) (x : BitVec 2) : Laws.RoundTrip.Statement (.vmul h k n d a b x) := by
  intro w hw hf
  simp only [encode, encWord, Option.some.injEq] at hw
  have b0 := k.isLt
  have b1 := d.isLt
  have b2 := a.isLt
  have b3 := b.isLt
  have b4 := x.isLt
  have c0 := ofBool_lt n
  obtain ⟨eh, hlt, F⟩ := fields h (w := w) [(4, 6), (k.val, 3), (ofBool n, 1), (d.val, 5), (a.val, 5), (b.val, 5), (x.toNat, 2)] (by simp only [packF, widF]; omega) rfl ⟨by omega, by omega, by omega, by omega, by omega, by omega, by omega, trivial⟩
  have f0 : fld w 26 21 = 4 := F [] 4 5 [(k.val, 3), (ofBool n, 1), (d.val, 5), (a.val, 5), (b.val, 5), (x.toNat, 2)] rfl
  have f1 : fld w 20 18 = k.val := F [(4, 6)] (k.val) 2 [(ofBool n, 1), (d.val, 5), (a.val, 5), (b.val, 5), (x.toNat, 2)] rfl
  have f2 : fld w 17 17 = ofBool n := F [(4, 6), (k.val, 3)] (ofBool n) 0 [(d.val, 5), (a.val, 5), (b.val, 5), (x.toNat, 2)] rfl
  have f3 : fld w 16 12 = d.val := F [(4, 6), (k.val, 3), (ofBool n, 1)] (d.val) 4 [(a.val, 5), (b.val, 5), (x.toNat, 2)] rfl
  have f4 : fld w 11 7 = a.val := F [(4, 6), (k.val, 3), (ofBool n, 1), (d.val, 5)] (a.val) 4 [(b.val, 5), (x.toNat, 2)] rfl
  have f5 : fld w 6 2 = b.val := F [(4, 6), (k.val, 3), (ofBool n, 1), (d.val, 5), (a.val, 5)] (b.val) 4 [(x.toNat, 2)] rfl
  have f6 : fld w 1 0 = x.toNat := F [(4, 6), (k.val, 3), (ofBool n, 1), (d.val, 5), (a.val, 5), (b.val, 5)] (x.toNat) 1 [] rfl
  refine ⟨hlt, fun e he => ?_⟩
  obtain rfl : e = .vec := by simpa [sectionsOf] using he
  refine decode_of_vec ?_ hf
  unfold rawVec
  rw [f0]
  dsimp only [cellVec]
  simp [eh, f1, f2, f3, f4, f5, f6, beq_ofBool]

theorem Laws.RoundTrip.vfma (h : Hdr) (k : Fin 8) (n : Bool) (d : Fin 32) (a : Fin 32) (b : Fin 32) (x : BitVec 2) : Laws.RoundTrip.Statement (.vfma h k n d a b x) := by
  intro w hw hf
  simp only [encode, encWord, Option.some.injEq] at hw
  have b0 := k.isLt
  have b1 := d.isLt
  have b2 := a.isLt
  have b3 := b.isLt
  have b4 := x.isLt
  have c0 := ofBool_lt n
  obtain ⟨eh, hlt, F⟩ := fields h (w := w) [(5, 6), (k.val, 3), (ofBool n, 1), (d.val, 5), (a.val, 5), (b.val, 5), (x.toNat, 2)] (by simp only [packF, widF]; omega) rfl ⟨by omega, by omega, by omega, by omega, by omega, by omega, by omega, trivial⟩
  have f0 : fld w 26 21 = 5 := F [] 5 5 [(k.val, 3), (ofBool n, 1), (d.val, 5), (a.val, 5), (b.val, 5), (x.toNat, 2)] rfl
  have f1 : fld w 20 18 = k.val := F [(5, 6)] (k.val) 2 [(ofBool n, 1), (d.val, 5), (a.val, 5), (b.val, 5), (x.toNat, 2)] rfl
  have f2 : fld w 17 17 = ofBool n := F [(5, 6), (k.val, 3)] (ofBool n) 0 [(d.val, 5), (a.val, 5), (b.val, 5), (x.toNat, 2)] rfl
  have f3 : fld w 16 12 = d.val := F [(5, 6), (k.val, 3), (ofBool n, 1)] (d.val) 4 [(a.val, 5), (b.val, 5), (x.toNat, 2)] rfl
  have f4 : fld w 11 7 = a.val := F [(5, 6), (k.val, 3), (ofBool n, 1), (d.val, 5)] (a.val) 4 [(b.val, 5), (x.toNat, 2)] rfl
  have f5 : fld w 6 2 = b.val := F [(5, 6), (k.val, 3), (ofBool n, 1), (d.val, 5), (a.val, 5)] (b.val) 4 [(x.toNat, 2)] rfl
  have f6 : fld w 1 0 = x.toNat := F [(5, 6), (k.val, 3), (ofBool n, 1), (d.val, 5), (a.val, 5), (b.val, 5)] (x.toNat) 1 [] rfl
  refine ⟨hlt, fun e he => ?_⟩
  obtain rfl : e = .vec := by simpa [sectionsOf] using he
  refine decode_of_vec ?_ hf
  unfold rawVec
  rw [f0]
  dsimp only [cellVec]
  simp [eh, f1, f2, f3, f4, f5, f6, beq_ofBool]

theorem Laws.RoundTrip.vfms (h : Hdr) (k : Fin 8) (n : Bool) (d : Fin 32) (a : Fin 32) (b : Fin 32) (x : BitVec 2) : Laws.RoundTrip.Statement (.vfms h k n d a b x) := by
  intro w hw hf
  simp only [encode, encWord, Option.some.injEq] at hw
  have b0 := k.isLt
  have b1 := d.isLt
  have b2 := a.isLt
  have b3 := b.isLt
  have b4 := x.isLt
  have c0 := ofBool_lt n
  obtain ⟨eh, hlt, F⟩ := fields h (w := w) [(6, 6), (k.val, 3), (ofBool n, 1), (d.val, 5), (a.val, 5), (b.val, 5), (x.toNat, 2)] (by simp only [packF, widF]; omega) rfl ⟨by omega, by omega, by omega, by omega, by omega, by omega, by omega, trivial⟩
  have f0 : fld w 26 21 = 6 := F [] 6 5 [(k.val, 3), (ofBool n, 1), (d.val, 5), (a.val, 5), (b.val, 5), (x.toNat, 2)] rfl
  have f1 : fld w 20 18 = k.val := F [(6, 6)] (k.val) 2 [(ofBool n, 1), (d.val, 5), (a.val, 5), (b.val, 5), (x.toNat, 2)] rfl
  have f2 : fld w 17 17 = ofBool n := F [(6, 6), (k.val, 3)] (ofBool n) 0 [(d.val, 5), (a.val, 5), (b.val, 5), (x.toNat, 2)] rfl
  have f3 : fld w 16 12 = d.val := F [(6, 6), (k.val, 3), (ofBool n, 1)] (d.val) 4 [(a.val, 5), (b.val, 5), (x.toNat, 2)] rfl
  have f4 : fld w 11 7 = a.val := F [(6, 6), (k.val, 3), (ofBool n, 1), (d.val, 5)] (a.val) 4 [(b.val, 5), (x.toNat, 2)] rfl
  have f5 : fld w 6 2 = b.val := F [(6, 6), (k.val, 3), (ofBool n, 1), (d.val, 5), (a.val, 5)] (b.val) 4 [(x.toNat, 2)] rfl
  have f6 : fld w 1 0 = x.toNat := F [(6, 6), (k.val, 3), (ofBool n, 1), (d.val, 5), (a.val, 5), (b.val, 5)] (x.toNat) 1 [] rfl
  refine ⟨hlt, fun e he => ?_⟩
  obtain rfl : e = .vec := by simpa [sectionsOf] using he
  refine decode_of_vec ?_ hf
  unfold rawVec
  rw [f0]
  dsimp only [cellVec]
  simp [eh, f1, f2, f3, f4, f5, f6, beq_ofBool]

theorem Laws.RoundTrip.vfnma (h : Hdr) (k : Fin 8) (n : Bool) (d : Fin 32) (a : Fin 32) (b : Fin 32) (x : BitVec 2) : Laws.RoundTrip.Statement (.vfnma h k n d a b x) := by
  intro w hw hf
  simp only [encode, encWord, Option.some.injEq] at hw
  have b0 := k.isLt
  have b1 := d.isLt
  have b2 := a.isLt
  have b3 := b.isLt
  have b4 := x.isLt
  have c0 := ofBool_lt n
  obtain ⟨eh, hlt, F⟩ := fields h (w := w) [(7, 6), (k.val, 3), (ofBool n, 1), (d.val, 5), (a.val, 5), (b.val, 5), (x.toNat, 2)] (by simp only [packF, widF]; omega) rfl ⟨by omega, by omega, by omega, by omega, by omega, by omega, by omega, trivial⟩
  have f0 : fld w 26 21 = 7 := F [] 7 5 [(k.val, 3), (ofBool n, 1), (d.val, 5), (a.val, 5), (b.val, 5), (x.toNat, 2)] rfl
  have f1 : fld w 20 18 = k.val := F [(7, 6)] (k.val) 2 [(ofBool n, 1), (d.val, 5), (a.val, 5), (b.val, 5), (x.toNat, 2)] rfl
  have f2 : fld w 17 17 = ofBool n := F [(7, 6), (k.val, 3)] (ofBool n) 0 [(d.val, 5), (a.val, 5), (b.val, 5), (x.toNat, 2)] rfl
  have f3 : fld w 16 12 = d.val := F [(7, 6), (k.val, 3), (ofBool n, 1)] (d.val) 4 [(a.val, 5), (b.val, 5), (x.toNat, 2)] rfl
  have f4 : fld w 11 7 = a.val := F [(7, 6), (k.val, 3), (ofBool n, 1), (d.val, 5)] (a.val) 4 [(b.val, 5), (x.toNat, 2)] rfl
  have f5 : fld w 6 2 = b.val := F [(7, 6), (k.val, 3), (ofBool n, 1), (d.val, 5), (a.val, 5)] (b.val) 4 [(x.toNat, 2)] rfl
  have f6 : fld w 1 0 = x.toNat := F [(7, 6), (k.val, 3), (ofBool n, 1), (d.val, 5), (a.val, 5), (b.val, 5)] (x.toNat) 1 [] rfl
  refine ⟨hlt, fun e he => ?_⟩
  obtain rfl : e = .vec := by simpa [sectionsOf] using he
  refine decode_of_vec ?_ hf
  unfold rawVec
  rw [f0]
  dsimp only [cellVec]
  simp [eh, f1, f2, f3, f4, f5, f6, beq_ofBool]

theorem Laws.RoundTrip.vdiv (h : Hdr) (k : Fin 8) (n : Bool) (d : Fin 32) (a : Fin 32) (b : Fin 32) (x : BitVec 2) : Laws.RoundTrip.Statement (.vdiv h k n d a b x) := by
  intro w hw hf
  simp only [encode, encWord, Option.some.injEq] at hw
  have b0 := k.isLt
  have b1 := d.isLt
  have b2 := a.isLt
  have b3 := b.isLt
  have b4 := x.isLt
  have c0 := ofBool_lt n
  obtain ⟨eh, hlt, F⟩ := fields h (w := w) [(8, 6), (k.val, 3), (ofBool n, 1), (d.val, 5), (a.val, 5), (b.val, 5), (x.toNat, 2)] (by simp only [packF, widF]; omega) rfl ⟨by omega, by omega, by omega, by omega, by omega, by omega, by omega, trivial⟩
  have f0 : fld w 26 21 = 8 := F [] 8 5 [(k.val, 3), (ofBool n, 1), (d.val, 5), (a.val, 5), (b.val, 5), (x.toNat, 2)] rfl
  have f1 : fld w 20 18 = k.val := F [(8, 6)] (k.val) 2 [(ofBool n, 1), (d.val, 5), (a.val, 5), (b.val, 5), (x.toNat, 2)] rfl
  have f2 : fld w 17 17 = ofBool n := F [(8, 6), (k.val, 3)] (ofBool n) 0 [(d.val, 5), (a.val, 5), (b.val, 5), (x.toNat, 2)] rfl
  have f3 : fld w 16 12 = d.val := F [(8, 6), (k.val, 3), (ofBool n, 1)] (d.val) 4 [(a.val, 5), (b.val, 5), (x.toNat, 2)] rfl
  have f4 : fld w 11 7 = a.val := F [(8, 6), (k.val, 3), (ofBool n, 1), (d.val, 5)] (a.val) 4 [(b.val, 5), (x.toNat, 2)] rfl
  have f5 : fld w 6 2 = b.val := F [(8, 6), (k.val, 3), (ofBool n, 1), (d.val, 5), (a.val, 5)] (b.val) 4 [(x.toNat, 2)] rfl
  have f6 : fld w 1 0 = x.toNat := F [(8, 6), (k.val, 3), (ofBool n, 1), (d.val, 5), (a.val, 5), (b.val, 5)] (x.toNat) 1 [] rfl
  refine ⟨hlt, fun e he => ?_⟩
  obtain rfl : e = .vec := by simpa [sectionsOf] using he
  refine decode_of_vec ?_ hf
  unfold rawVec
  rw [f0]
  dsimp only [cellVec]
  simp [eh, f1, f2, f3, f4, f5, f6, beq_ofBool]

theorem Laws.RoundTrip.vsqrt (h : Hdr) (k : Fin 8) (n : Bool) (d : Fin 32) (a : Fin 32) (x : BitVec 2) : Laws.RoundTrip.Statement (.vsqrt h k n d a x) := by
  intro w hw hf
  simp only [encode, encWord, Option.some.injEq] at hw
  have b0 := k.isLt
  have b1 := d.isLt
  have b2 := a.isLt
  have b3 := x.isLt
  have c0 := ofBool_lt n
  obtain ⟨eh, hlt, F⟩ := fields h (w := w) [(9, 6), (k.val, 3), (ofBool n, 1), (d.val, 5), (a.val, 5), (0, 5), (x.toNat, 2)] (by simp only [packF, widF]; omega) rfl ⟨by omega, by omega, by omega, by omega, by omega, by omega, by omega, trivial⟩
  have f0 : fld w 26 21 = 9 := F [] 9 5 [(k.val, 3), (ofBool n, 1), (d.val, 5), (a.val, 5), (0, 5), (x.toNat, 2)] rfl
  have f1 : fld w 20 18 = k.val := F [(9, 6)] (k.val) 2 [(ofBool n, 1), (d.val, 5), (a.val, 5), (0, 5), (x.toNat, 2)] rfl
  have f2 : fld w 17 17 = ofBool n := F [(9, 6), (k.val, 3)] (ofBool n) 0 [(d.val, 5), (a.val, 5), (0, 5), (x.toNat, 2)] rfl
  have f3 : fld w 16 12 = d.val := F [(9, 6), (k.val, 3), (ofBool n, 1)] (d.val) 4 [(a.val, 5), (0, 5), (x.toNat, 2)] rfl
  have f4 : fld w 11 7 = a.val := F [(9, 6), (k.val, 3), (ofBool n, 1), (d.val, 5)] (a.val) 4 [(0, 5), (x.toNat, 2)] rfl
  have f5 : fld w 6 2 = 0 := F [(9, 6), (k.val, 3), (ofBool n, 1), (d.val, 5), (a.val, 5)] 0 4 [(x.toNat, 2)] rfl
  have f6 : fld w 1 0 = x.toNat := F [(9, 6), (k.val, 3), (ofBool n, 1), (d.val, 5), (a.val, 5), (0, 5)] (x.toNat) 1 [] rfl
  refine ⟨hlt, fun e he => ?_⟩
  obtain rfl : e = .vec := by simpa [sectionsOf] using he
  refine decode_of_vec ?_ hf
  unfold rawVec
  rw [f0]
  dsimp only [cellVec]
  simp [eh, f1, f2, f3, f4, f5, f6, beq_ofBool]

theorem Laws.RoundTrip.vmin (h : Hdr) (k : Fin 8) (n : Bool) (d : Fin 32) (a : Fin 32) (b : Fin 32) (x : BitVec 2) : Laws.RoundTrip.Statement (.vmin h k n d a b x) := by
  intro w hw hf
  simp only [encode, encWord, Option.some.injEq] at hw
  have b0 := k.isLt
  have b1 := d.isLt
  have b2 := a.isLt
  have b3 := b.isLt
  have b4 := x.isLt
  have c0 := ofBool_lt n
  obtain ⟨eh, hlt, F⟩ := fields h (w := w) [(10, 6), (k.val, 3), (ofBool n, 1), (d.val, 5), (a.val, 5), (b.val, 5), (x.toNat, 2)] (by simp only [packF, widF]; omega) rfl ⟨by omega, by omega, by omega, by omega, by omega, by omega, by omega, trivial⟩
  have f0 : fld w 26 21 = 10 := F [] 10 5 [(k.val, 3), (ofBool n, 1), (d.val, 5), (a.val, 5), (b.val, 5), (x.toNat, 2)] rfl
  have f1 : fld w 20 18 = k.val := F [(10, 6)] (k.val) 2 [(ofBool n, 1), (d.val, 5), (a.val, 5), (b.val, 5), (x.toNat, 2)] rfl
  have f2 : fld w 17 17 = ofBool n := F [(10, 6), (k.val, 3)] (ofBool n) 0 [(d.val, 5), (a.val, 5), (b.val, 5), (x.toNat, 2)] rfl
  have f3 : fld w 16 12 = d.val := F [(10, 6), (k.val, 3), (ofBool n, 1)] (d.val) 4 [(a.val, 5), (b.val, 5), (x.toNat, 2)] rfl
  have f4 : fld w 11 7 = a.val := F [(10, 6), (k.val, 3), (ofBool n, 1), (d.val, 5)] (a.val) 4 [(b.val, 5), (x.toNat, 2)] rfl
  have f5 : fld w 6 2 = b.val := F [(10, 6), (k.val, 3), (ofBool n, 1), (d.val, 5), (a.val, 5)] (b.val) 4 [(x.toNat, 2)] rfl
  have f6 : fld w 1 0 = x.toNat := F [(10, 6), (k.val, 3), (ofBool n, 1), (d.val, 5), (a.val, 5), (b.val, 5)] (x.toNat) 1 [] rfl
  refine ⟨hlt, fun e he => ?_⟩
  obtain rfl : e = .vec := by simpa [sectionsOf] using he
  refine decode_of_vec ?_ hf
  unfold rawVec
  rw [f0]
  dsimp only [cellVec]
  simp [eh, f1, f2, f3, f4, f5, f6, beq_ofBool]

theorem Laws.RoundTrip.vmax (h : Hdr) (k : Fin 8) (n : Bool) (d : Fin 32) (a : Fin 32) (b : Fin 32) (x : BitVec 2) : Laws.RoundTrip.Statement (.vmax h k n d a b x) := by
  intro w hw hf
  simp only [encode, encWord, Option.some.injEq] at hw
  have b0 := k.isLt
  have b1 := d.isLt
  have b2 := a.isLt
  have b3 := b.isLt
  have b4 := x.isLt
  have c0 := ofBool_lt n
  obtain ⟨eh, hlt, F⟩ := fields h (w := w) [(11, 6), (k.val, 3), (ofBool n, 1), (d.val, 5), (a.val, 5), (b.val, 5), (x.toNat, 2)] (by simp only [packF, widF]; omega) rfl ⟨by omega, by omega, by omega, by omega, by omega, by omega, by omega, trivial⟩
  have f0 : fld w 26 21 = 11 := F [] 11 5 [(k.val, 3), (ofBool n, 1), (d.val, 5), (a.val, 5), (b.val, 5), (x.toNat, 2)] rfl
  have f1 : fld w 20 18 = k.val := F [(11, 6)] (k.val) 2 [(ofBool n, 1), (d.val, 5), (a.val, 5), (b.val, 5), (x.toNat, 2)] rfl
  have f2 : fld w 17 17 = ofBool n := F [(11, 6), (k.val, 3)] (ofBool n) 0 [(d.val, 5), (a.val, 5), (b.val, 5), (x.toNat, 2)] rfl
  have f3 : fld w 16 12 = d.val := F [(11, 6), (k.val, 3), (ofBool n, 1)] (d.val) 4 [(a.val, 5), (b.val, 5), (x.toNat, 2)] rfl
  have f4 : fld w 11 7 = a.val := F [(11, 6), (k.val, 3), (ofBool n, 1), (d.val, 5)] (a.val) 4 [(b.val, 5), (x.toNat, 2)] rfl
  have f5 : fld w 6 2 = b.val := F [(11, 6), (k.val, 3), (ofBool n, 1), (d.val, 5), (a.val, 5)] (b.val) 4 [(x.toNat, 2)] rfl
  have f6 : fld w 1 0 = x.toNat := F [(11, 6), (k.val, 3), (ofBool n, 1), (d.val, 5), (a.val, 5), (b.val, 5)] (x.toNat) 1 [] rfl
  refine ⟨hlt, fun e he => ?_⟩
  obtain rfl : e = .vec := by simpa [sectionsOf] using he
  refine decode_of_vec ?_ hf
  unfold rawVec
  rw [f0]
  dsimp only [cellVec]
  simp [eh, f1, f2, f3, f4, f5, f6, beq_ofBool]

theorem Laws.RoundTrip.vabs (h : Hdr) (k : Fin 8) (n : Bool) (d : Fin 32) (a : Fin 32) (x : BitVec 2) : Laws.RoundTrip.Statement (.vabs h k n d a x) := by
  intro w hw hf
  simp only [encode, encWord, Option.some.injEq] at hw
  have b0 := k.isLt
  have b1 := d.isLt
  have b2 := a.isLt
  have b3 := x.isLt
  have c0 := ofBool_lt n
  obtain ⟨eh, hlt, F⟩ := fields h (w := w) [(12, 6), (k.val, 3), (ofBool n, 1), (d.val, 5), (a.val, 5), (0, 5), (x.toNat, 2)] (by simp only [packF, widF]; omega) rfl ⟨by omega, by omega, by omega, by omega, by omega, by omega, by omega, trivial⟩
  have f0 : fld w 26 21 = 12 := F [] 12 5 [(k.val, 3), (ofBool n, 1), (d.val, 5), (a.val, 5), (0, 5), (x.toNat, 2)] rfl
  have f1 : fld w 20 18 = k.val := F [(12, 6)] (k.val) 2 [(ofBool n, 1), (d.val, 5), (a.val, 5), (0, 5), (x.toNat, 2)] rfl
  have f2 : fld w 17 17 = ofBool n := F [(12, 6), (k.val, 3)] (ofBool n) 0 [(d.val, 5), (a.val, 5), (0, 5), (x.toNat, 2)] rfl
  have f3 : fld w 16 12 = d.val := F [(12, 6), (k.val, 3), (ofBool n, 1)] (d.val) 4 [(a.val, 5), (0, 5), (x.toNat, 2)] rfl
  have f4 : fld w 11 7 = a.val := F [(12, 6), (k.val, 3), (ofBool n, 1), (d.val, 5)] (a.val) 4 [(0, 5), (x.toNat, 2)] rfl
  have f5 : fld w 6 2 = 0 := F [(12, 6), (k.val, 3), (ofBool n, 1), (d.val, 5), (a.val, 5)] 0 4 [(x.toNat, 2)] rfl
  have f6 : fld w 1 0 = x.toNat := F [(12, 6), (k.val, 3), (ofBool n, 1), (d.val, 5), (a.val, 5), (0, 5)] (x.toNat) 1 [] rfl
  refine ⟨hlt, fun e he => ?_⟩
  obtain rfl : e = .vec := by simpa [sectionsOf] using he
  refine decode_of_vec ?_ hf
  unfold rawVec
  rw [f0]
  dsimp only [cellVec]
  simp [eh, f1, f2, f3, f4, f5, f6, beq_ofBool]

theorem Laws.RoundTrip.vneg (h : Hdr) (k : Fin 8) (n : Bool) (d : Fin 32) (a : Fin 32) (x : BitVec 2) : Laws.RoundTrip.Statement (.vneg h k n d a x) := by
  intro w hw hf
  simp only [encode, encWord, Option.some.injEq] at hw
  have b0 := k.isLt
  have b1 := d.isLt
  have b2 := a.isLt
  have b3 := x.isLt
  have c0 := ofBool_lt n
  obtain ⟨eh, hlt, F⟩ := fields h (w := w) [(13, 6), (k.val, 3), (ofBool n, 1), (d.val, 5), (a.val, 5), (0, 5), (x.toNat, 2)] (by simp only [packF, widF]; omega) rfl ⟨by omega, by omega, by omega, by omega, by omega, by omega, by omega, trivial⟩
  have f0 : fld w 26 21 = 13 := F [] 13 5 [(k.val, 3), (ofBool n, 1), (d.val, 5), (a.val, 5), (0, 5), (x.toNat, 2)] rfl
  have f1 : fld w 20 18 = k.val := F [(13, 6)] (k.val) 2 [(ofBool n, 1), (d.val, 5), (a.val, 5), (0, 5), (x.toNat, 2)] rfl
  have f2 : fld w 17 17 = ofBool n := F [(13, 6), (k.val, 3)] (ofBool n) 0 [(d.val, 5), (a.val, 5), (0, 5), (x.toNat, 2)] rfl
  have f3 : fld w 16 12 = d.val := F [(13, 6), (k.val, 3), (ofBool n, 1)] (d.val) 4 [(a.val, 5), (0, 5), (x.toNat, 2)] rfl
  have f4 : fld w 11 7 = a.val := F [(13, 6), (k.val, 3), (ofBool n, 1), (d.val, 5)] (a.val) 4 [(0, 5), (x.toNat, 2)] rfl
  have f5 : fld w 6 2 = 0 := F [(13, 6), (k.val, 3), (ofBool n, 1), (d.val, 5), (a.val, 5)] 0 4 [(x.toNat, 2)] rfl
  have f6 : fld w 1 0 = x.toNat := F [(13, 6), (k.val, 3), (ofBool n, 1), (d.val, 5), (a.val, 5), (0, 5)] (x.toNat) 1 [] rfl
  refine ⟨hlt, fun e he => ?_⟩
  obtain rfl : e = .vec := by simpa [sectionsOf] using he
  refine decode_of_vec ?_ hf
  unfold rawVec
  rw [f0]
  dsimp only [cellVec]
  simp [eh, f1, f2, f3, f4, f5, f6, beq_ofBool]

theorem Laws.RoundTrip.vcpys (h : Hdr) (k : Fin 8) (n : Bool) (d : Fin 32) (a : Fin 32) (b : Fin 32) (x : BitVec 2) : Laws.RoundTrip.Statement (.vcpys h k n d a b x) := by
  intro w hw hf
  simp only [encode, encWord, Option.some.injEq] at hw
  have b0 := k.isLt
  have b1 := d.isLt
  have b2 := a.isLt
  have b3 := b.isLt
  have b4 := x.isLt
  have c0 := ofBool_lt n
  obtain ⟨eh, hlt, F⟩ := fields h (w := w) [(14, 6), (k.val, 3), (ofBool n, 1), (d.val, 5), (a.val, 5), (b.val, 5), (x.toNat, 2)] (by simp only [packF, widF]; omega) rfl ⟨by omega, by omega, by omega, by omega, by omega, by omega, by omega, trivial⟩
  have f0 : fld w 26 21 = 14 := F [] 14 5 [(k.val, 3), (ofBool n, 1), (d.val, 5), (a.val, 5), (b.val, 5), (x.toNat, 2)] rfl
  have f1 : fld w 20 18 = k.val := F [(14, 6)] (k.val) 2 [(ofBool n, 1), (d.val, 5), (a.val, 5), (b.val, 5), (x.toNat, 2)] rfl
  have f2 : fld w 17 17 = ofBool n := F [(14, 6), (k.val, 3)] (ofBool n) 0 [(d.val, 5), (a.val, 5), (b.val, 5), (x.toNat, 2)] rfl
  have f3 : fld w 16 12 = d.val := F [(14, 6), (k.val, 3), (ofBool n, 1)] (d.val) 4 [(a.val, 5), (b.val, 5), (x.toNat, 2)] rfl
  have f4 : fld w 11 7 = a.val := F [(14, 6), (k.val, 3), (ofBool n, 1), (d.val, 5)] (a.val) 4 [(b.val, 5), (x.toNat, 2)] rfl
  have f5 : fld w 6 2 = b.val := F [(14, 6), (k.val, 3), (ofBool n, 1), (d.val, 5), (a.val, 5)] (b.val) 4 [(x.toNat, 2)] rfl
  have f6 : fld w 1 0 = x.toNat := F [(14, 6), (k.val, 3), (ofBool n, 1), (d.val, 5), (a.val, 5), (b.val, 5)] (x.toNat) 1 [] rfl
  refine ⟨hlt, fun e he => ?_⟩
  obtain rfl : e = .vec := by simpa [sectionsOf] using he
  refine decode_of_vec ?_ hf
  unfold rawVec
  rw [f0]
  dsimp only [cellVec]
  simp [eh, f1, f2, f3, f4, f5, f6, beq_ofBool]

theorem Laws.RoundTrip.viadd (h : Hdr) (k : Fin 8) (n : Bool) (d : Fin 32) (a : Fin 32) (b : Fin 32) (x : BitVec 2) : Laws.RoundTrip.Statement (.viadd h k n d a b x) := by
  intro w hw hf
  simp only [encode, encWord, Option.some.injEq] at hw
  have b0 := k.isLt
  have b1 := d.isLt
  have b2 := a.isLt
  have b3 := b.isLt
  have b4 := x.isLt
  have c0 := ofBool_lt n
  obtain ⟨eh, hlt, F⟩ := fields h (w := w) [(15, 6), (k.val, 3), (ofBool n, 1), (d.val, 5), (a.val, 5), (b.val, 5), (x.toNat, 2)] (by simp only [packF, widF]; omega) rfl ⟨by omega, by omega, by omega, by omega, by omega, by omega, by omega, trivial⟩
  have f0 : fld w 26 21 = 15 := F [] 15 5 [(k.val, 3), (ofBool n, 1), (d.val, 5), (a.val, 5), (b.val, 5), (x.toNat, 2)] rfl
  have f1 : fld w 20 18 = k.val := F [(15, 6)] (k.val) 2 [(ofBool n, 1), (d.val, 5), (a.val, 5), (b.val, 5), (x.toNat, 2)] rfl
  have f2 : fld w 17 17 = ofBool n := F [(15, 6), (k.val, 3)] (ofBool n) 0 [(d.val, 5), (a.val, 5), (b.val, 5), (x.toNat, 2)] rfl
  have f3 : fld w 16 12 = d.val := F [(15, 6), (k.val, 3), (ofBool n, 1)] (d.val) 4 [(a.val, 5), (b.val, 5), (x.toNat, 2)] rfl
  have f4 : fld w 11 7 = a.val := F [(15, 6), (k.val, 3), (ofBool n, 1), (d.val, 5)] (a.val) 4 [(b.val, 5), (x.toNat, 2)] rfl
  have f5 : fld w 6 2 = b.val := F [(15, 6), (k.val, 3), (ofBool n, 1), (d.val, 5), (a.val, 5)] (b.val) 4 [(x.toNat, 2)] rfl
  have f6 : fld w 1 0 = x.toNat := F [(15, 6), (k.val, 3), (ofBool n, 1), (d.val, 5), (a.val, 5), (b.val, 5)] (x.toNat) 1 [] rfl
  refine ⟨hlt, fun e he => ?_⟩
  obtain rfl : e = .vec := by simpa [sectionsOf] using he
  refine decode_of_vec ?_ hf
  unfold rawVec
  rw [f0]
  dsimp only [cellVec]
  simp [eh, f1, f2, f3, f4, f5, f6, beq_ofBool]

theorem Laws.RoundTrip.visub (h : Hdr) (k : Fin 8) (n : Bool) (d : Fin 32) (a : Fin 32) (b : Fin 32) (x : BitVec 2) : Laws.RoundTrip.Statement (.visub h k n d a b x) := by
  intro w hw hf
  simp only [encode, encWord, Option.some.injEq] at hw
  have b0 := k.isLt
  have b1 := d.isLt
  have b2 := a.isLt
  have b3 := b.isLt
  have b4 := x.isLt
  have c0 := ofBool_lt n
  obtain ⟨eh, hlt, F⟩ := fields h (w := w) [(16, 6), (k.val, 3), (ofBool n, 1), (d.val, 5), (a.val, 5), (b.val, 5), (x.toNat, 2)] (by simp only [packF, widF]; omega) rfl ⟨by omega, by omega, by omega, by omega, by omega, by omega, by omega, trivial⟩
  have f0 : fld w 26 21 = 16 := F [] 16 5 [(k.val, 3), (ofBool n, 1), (d.val, 5), (a.val, 5), (b.val, 5), (x.toNat, 2)] rfl
  have f1 : fld w 20 18 = k.val := F [(16, 6)] (k.val) 2 [(ofBool n, 1), (d.val, 5), (a.val, 5), (b.val, 5), (x.toNat, 2)] rfl
  have f2 : fld w 17 17 = ofBool n := F [(16, 6), (k.val, 3)] (ofBool n) 0 [(d.val, 5), (a.val, 5), (b.val, 5), (x.toNat, 2)] rfl
  have f3 : fld w 16 12 = d.val := F [(16, 6), (k.val, 3), (ofBool n, 1)] (d.val) 4 [(a.val, 5), (b.val, 5), (x.toNat, 2)] rfl
  have f4 : fld w 11 7 = a.val := F [(16, 6), (k.val, 3), (ofBool n, 1), (d.val, 5)] (a.val) 4 [(b.val, 5), (x.toNat, 2)] rfl
  have f5 : fld w 6 2 = b.val := F [(16, 6), (k.val, 3), (ofBool n, 1), (d.val, 5), (a.val, 5)] (b.val) 4 [(x.toNat, 2)] rfl
  have f6 : fld w 1 0 = x.toNat := F [(16, 6), (k.val, 3), (ofBool n, 1), (d.val, 5), (a.val, 5), (b.val, 5)] (x.toNat) 1 [] rfl
  refine ⟨hlt, fun e he => ?_⟩
  obtain rfl : e = .vec := by simpa [sectionsOf] using he
  refine decode_of_vec ?_ hf
  unfold rawVec
  rw [f0]
  dsimp only [cellVec]
  simp [eh, f1, f2, f3, f4, f5, f6, beq_ofBool]

theorem Laws.RoundTrip.vimul (h : Hdr) (k : Fin 8) (n : Bool) (d : Fin 32) (a : Fin 32) (b : Fin 32) (x : BitVec 2) : Laws.RoundTrip.Statement (.vimul h k n d a b x) := by
  intro w hw hf
  simp only [encode, encWord, Option.some.injEq] at hw
  have b0 := k.isLt
  have b1 := d.isLt
  have b2 := a.isLt
  have b3 := b.isLt
  have b4 := x.isLt
  have c0 := ofBool_lt n
  obtain ⟨eh, hlt, F⟩ := fields h (w := w) [(17, 6), (k.val, 3), (ofBool n, 1), (d.val, 5), (a.val, 5), (b.val, 5), (x.toNat, 2)] (by simp only [packF, widF]; omega) rfl ⟨by omega, by omega, by omega, by omega, by omega, by omega, by omega, trivial⟩
  have f0 : fld w 26 21 = 17 := F [] 17 5 [(k.val, 3), (ofBool n, 1), (d.val, 5), (a.val, 5), (b.val, 5), (x.toNat, 2)] rfl
  have f1 : fld w 20 18 = k.val := F [(17, 6)] (k.val) 2 [(ofBool n, 1), (d.val, 5), (a.val, 5), (b.val, 5), (x.toNat, 2)] rfl
  have f2 : fld w 17 17 = ofBool n := F [(17, 6), (k.val, 3)] (ofBool n) 0 [(d.val, 5), (a.val, 5), (b.val, 5), (x.toNat, 2)] rfl
  have f3 : fld w 16 12 = d.val := F [(17, 6), (k.val, 3), (ofBool n, 1)] (d.val) 4 [(a.val, 5), (b.val, 5), (x.toNat, 2)] rfl
  have f4 : fld w 11 7 = a.val := F [(17, 6), (k.val, 3), (ofBool n, 1), (d.val, 5)] (a.val) 4 [(b.val, 5), (x.toNat, 2)] rfl
  have f5 : fld w 6 2 = b.val := F [(17, 6), (k.val, 3), (ofBool n, 1), (d.val, 5), (a.val, 5)] (b.val) 4 [(x.toNat, 2)] rfl
  have f6 : fld w 1 0 = x.toNat := F [(17, 6), (k.val, 3), (ofBool n, 1), (d.val, 5), (a.val, 5), (b.val, 5)] (x.toNat) 1 [] rfl
  refine ⟨hlt, fun e he => ?_⟩
  obtain rfl : e = .vec := by simpa [sectionsOf] using he
  refine decode_of_vec ?_ hf
  unfold rawVec
  rw [f0]
  dsimp only [cellVec]
  simp [eh, f1, f2, f3, f4, f5, f6, beq_ofBool]

theorem Laws.RoundTrip.vimin (h : Hdr) (k : Fin 8) (n : Bool) (d : Fin 32) (a : Fin 32) (b : Fin 32) (x : BitVec 2) : Laws.RoundTrip.Statement (.vimin h k n d a b x) := by
  intro w hw hf
  simp only [encode, encWord, Option.some.injEq] at hw
  have b0 := k.isLt
  have b1 := d.isLt
  have b2 := a.isLt
  have b3 := b.isLt
  have b4 := x.isLt
  have c0 := ofBool_lt n
  obtain ⟨eh, hlt, F⟩ := fields h (w := w) [(18, 6), (k.val, 3), (ofBool n, 1), (d.val, 5), (a.val, 5), (b.val, 5), (x.toNat, 2)] (by simp only [packF, widF]; omega) rfl ⟨by omega, by omega, by omega, by omega, by omega, by omega, by omega, trivial⟩
  have f0 : fld w 26 21 = 18 := F [] 18 5 [(k.val, 3), (ofBool n, 1), (d.val, 5), (a.val, 5), (b.val, 5), (x.toNat, 2)] rfl
  have f1 : fld w 20 18 = k.val := F [(18, 6)] (k.val) 2 [(ofBool n, 1), (d.val, 5), (a.val, 5), (b.val, 5), (x.toNat, 2)] rfl
  have f2 : fld w 17 17 = ofBool n := F [(18, 6), (k.val, 3)] (ofBool n) 0 [(d.val, 5), (a.val, 5), (b.val, 5), (x.toNat, 2)] rfl
  have f3 : fld w 16 12 = d.val := F [(18, 6), (k.val, 3), (ofBool n, 1)] (d.val) 4 [(a.val, 5), (b.val, 5), (x.toNat, 2)] rfl
  have f4 : fld w 11 7 = a.val := F [(18, 6), (k.val, 3), (ofBool n, 1), (d.val, 5)] (a.val) 4 [(b.val, 5), (x.toNat, 2)] rfl
  have f5 : fld w 6 2 = b.val := F [(18, 6), (k.val, 3), (ofBool n, 1), (d.val, 5), (a.val, 5)] (b.val) 4 [(x.toNat, 2)] rfl
  have f6 : fld w 1 0 = x.toNat := F [(18, 6), (k.val, 3), (ofBool n, 1), (d.val, 5), (a.val, 5), (b.val, 5)] (x.toNat) 1 [] rfl
  refine ⟨hlt, fun e he => ?_⟩
  obtain rfl : e = .vec := by simpa [sectionsOf] using he
  refine decode_of_vec ?_ hf
  unfold rawVec
  rw [f0]
  dsimp only [cellVec]
  simp [eh, f1, f2, f3, f4, f5, f6, beq_ofBool]

theorem Laws.RoundTrip.vimax (h : Hdr) (k : Fin 8) (n : Bool) (d : Fin 32) (a : Fin 32) (b : Fin 32) (x : BitVec 2) : Laws.RoundTrip.Statement (.vimax h k n d a b x) := by
  intro w hw hf
  simp only [encode, encWord, Option.some.injEq] at hw
  have b0 := k.isLt
  have b1 := d.isLt
  have b2 := a.isLt
  have b3 := b.isLt
  have b4 := x.isLt
  have c0 := ofBool_lt n
  obtain ⟨eh, hlt, F⟩ := fields h (w := w) [(19, 6), (k.val, 3), (ofBool n, 1), (d.val, 5), (a.val, 5), (b.val, 5), (x.toNat, 2)] (by simp only [packF, widF]; omega) rfl ⟨by omega, by omega, by omega, by omega, by omega, by omega, by omega, trivial⟩
  have f0 : fld w 26 21 = 19 := F [] 19 5 [(k.val, 3), (ofBool n, 1), (d.val, 5), (a.val, 5), (b.val, 5), (x.toNat, 2)] rfl
  have f1 : fld w 20 18 = k.val := F [(19, 6)] (k.val) 2 [(ofBool n, 1), (d.val, 5), (a.val, 5), (b.val, 5), (x.toNat, 2)] rfl
  have f2 : fld w 17 17 = ofBool n := F [(19, 6), (k.val, 3)] (ofBool n) 0 [(d.val, 5), (a.val, 5), (b.val, 5), (x.toNat, 2)] rfl
  have f3 : fld w 16 12 = d.val := F [(19, 6), (k.val, 3), (ofBool n, 1)] (d.val) 4 [(a.val, 5), (b.val, 5), (x.toNat, 2)] rfl
  have f4 : fld w 11 7 = a.val := F [(19, 6), (k.val, 3), (ofBool n, 1), (d.val, 5)] (a.val) 4 [(b.val, 5), (x.toNat, 2)] rfl
  have f5 : fld w 6 2 = b.val := F [(19, 6), (k.val, 3), (ofBool n, 1), (d.val, 5), (a.val, 5)] (b.val) 4 [(x.toNat, 2)] rfl
  have f6 : fld w 1 0 = x.toNat := F [(19, 6), (k.val, 3), (ofBool n, 1), (d.val, 5), (a.val, 5), (b.val, 5)] (x.toNat) 1 [] rfl
  refine ⟨hlt, fun e he => ?_⟩
  obtain rfl : e = .vec := by simpa [sectionsOf] using he
  refine decode_of_vec ?_ hf
  unfold rawVec
  rw [f0]
  dsimp only [cellVec]
  simp [eh, f1, f2, f3, f4, f5, f6, beq_ofBool]

theorem Laws.RoundTrip.vand (h : Hdr) (k : Fin 8) (n : Bool) (d : Fin 32) (a : Fin 32) (b : Fin 32) (x : BitVec 2) : Laws.RoundTrip.Statement (.vand h k n d a b x) := by
  intro w hw hf
  simp only [encode, encWord, Option.some.injEq] at hw
  have b0 := k.isLt
  have b1 := d.isLt
  have b2 := a.isLt
  have b3 := b.isLt
  have b4 := x.isLt
  have c0 := ofBool_lt n
  obtain ⟨eh, hlt, F⟩ := fields h (w := w) [(20, 6), (k.val, 3), (ofBool n, 1), (d.val, 5), (a.val, 5), (b.val, 5), (x.toNat, 2)] (by simp only [packF, widF]; omega) rfl ⟨by omega, by omega, by omega, by omega, by omega, by omega, by omega, trivial⟩
  have f0 : fld w 26 21 = 20 := F [] 20 5 [(k.val, 3), (ofBool n, 1), (d.val, 5), (a.val, 5), (b.val, 5), (x.toNat, 2)] rfl
  have f1 : fld w 20 18 = k.val := F [(20, 6)] (k.val) 2 [(ofBool n, 1), (d.val, 5), (a.val, 5), (b.val, 5), (x.toNat, 2)] rfl
  have f2 : fld w 17 17 = ofBool n := F [(20, 6), (k.val, 3)] (ofBool n) 0 [(d.val, 5), (a.val, 5), (b.val, 5), (x.toNat, 2)] rfl
  have f3 : fld w 16 12 = d.val := F [(20, 6), (k.val, 3), (ofBool n, 1)] (d.val) 4 [(a.val, 5), (b.val, 5), (x.toNat, 2)] rfl
  have f4 : fld w 11 7 = a.val := F [(20, 6), (k.val, 3), (ofBool n, 1), (d.val, 5)] (a.val) 4 [(b.val, 5), (x.toNat, 2)] rfl
  have f5 : fld w 6 2 = b.val := F [(20, 6), (k.val, 3), (ofBool n, 1), (d.val, 5), (a.val, 5)] (b.val) 4 [(x.toNat, 2)] rfl
  have f6 : fld w 1 0 = x.toNat := F [(20, 6), (k.val, 3), (ofBool n, 1), (d.val, 5), (a.val, 5), (b.val, 5)] (x.toNat) 1 [] rfl
  refine ⟨hlt, fun e he => ?_⟩
  obtain rfl : e = .vec := by simpa [sectionsOf] using he
  refine decode_of_vec ?_ hf
  unfold rawVec
  rw [f0]
  dsimp only [cellVec]
  simp [eh, f1, f2, f3, f4, f5, f6, beq_ofBool]

theorem Laws.RoundTrip.vor (h : Hdr) (k : Fin 8) (n : Bool) (d : Fin 32) (a : Fin 32) (b : Fin 32) (x : BitVec 2) : Laws.RoundTrip.Statement (.vor h k n d a b x) := by
  intro w hw hf
  simp only [encode, encWord, Option.some.injEq] at hw
  have b0 := k.isLt
  have b1 := d.isLt
  have b2 := a.isLt
  have b3 := b.isLt
  have b4 := x.isLt
  have c0 := ofBool_lt n
  obtain ⟨eh, hlt, F⟩ := fields h (w := w) [(21, 6), (k.val, 3), (ofBool n, 1), (d.val, 5), (a.val, 5), (b.val, 5), (x.toNat, 2)] (by simp only [packF, widF]; omega) rfl ⟨by omega, by omega, by omega, by omega, by omega, by omega, by omega, trivial⟩
  have f0 : fld w 26 21 = 21 := F [] 21 5 [(k.val, 3), (ofBool n, 1), (d.val, 5), (a.val, 5), (b.val, 5), (x.toNat, 2)] rfl
  have f1 : fld w 20 18 = k.val := F [(21, 6)] (k.val) 2 [(ofBool n, 1), (d.val, 5), (a.val, 5), (b.val, 5), (x.toNat, 2)] rfl
  have f2 : fld w 17 17 = ofBool n := F [(21, 6), (k.val, 3)] (ofBool n) 0 [(d.val, 5), (a.val, 5), (b.val, 5), (x.toNat, 2)] rfl
  have f3 : fld w 16 12 = d.val := F [(21, 6), (k.val, 3), (ofBool n, 1)] (d.val) 4 [(a.val, 5), (b.val, 5), (x.toNat, 2)] rfl
  have f4 : fld w 11 7 = a.val := F [(21, 6), (k.val, 3), (ofBool n, 1), (d.val, 5)] (a.val) 4 [(b.val, 5), (x.toNat, 2)] rfl
  have f5 : fld w 6 2 = b.val := F [(21, 6), (k.val, 3), (ofBool n, 1), (d.val, 5), (a.val, 5)] (b.val) 4 [(x.toNat, 2)] rfl
  have f6 : fld w 1 0 = x.toNat := F [(21, 6), (k.val, 3), (ofBool n, 1), (d.val, 5), (a.val, 5), (b.val, 5)] (x.toNat) 1 [] rfl
  refine ⟨hlt, fun e he => ?_⟩
  obtain rfl : e = .vec := by simpa [sectionsOf] using he
  refine decode_of_vec ?_ hf
  unfold rawVec
  rw [f0]
  dsimp only [cellVec]
  simp [eh, f1, f2, f3, f4, f5, f6, beq_ofBool]

theorem Laws.RoundTrip.vxor (h : Hdr) (k : Fin 8) (n : Bool) (d : Fin 32) (a : Fin 32) (b : Fin 32) (x : BitVec 2) : Laws.RoundTrip.Statement (.vxor h k n d a b x) := by
  intro w hw hf
  simp only [encode, encWord, Option.some.injEq] at hw
  have b0 := k.isLt
  have b1 := d.isLt
  have b2 := a.isLt
  have b3 := b.isLt
  have b4 := x.isLt
  have c0 := ofBool_lt n
  obtain ⟨eh, hlt, F⟩ := fields h (w := w) [(22, 6), (k.val, 3), (ofBool n, 1), (d.val, 5), (a.val, 5), (b.val, 5), (x.toNat, 2)] (by simp only [packF, widF]; omega) rfl ⟨by omega, by omega, by omega, by omega, by omega, by omega, by omega, trivial⟩
  have f0 : fld w 26 21 = 22 := F [] 22 5 [(k.val, 3), (ofBool n, 1), (d.val, 5), (a.val, 5), (b.val, 5), (x.toNat, 2)] rfl
  have f1 : fld w 20 18 = k.val := F [(22, 6)] (k.val) 2 [(ofBool n, 1), (d.val, 5), (a.val, 5), (b.val, 5), (x.toNat, 2)] rfl
  have f2 : fld w 17 17 = ofBool n := F [(22, 6), (k.val, 3)] (ofBool n) 0 [(d.val, 5), (a.val, 5), (b.val, 5), (x.toNat, 2)] rfl
  have f3 : fld w 16 12 = d.val := F [(22, 6), (k.val, 3), (ofBool n, 1)] (d.val) 4 [(a.val, 5), (b.val, 5), (x.toNat, 2)] rfl
  have f4 : fld w 11 7 = a.val := F [(22, 6), (k.val, 3), (ofBool n, 1), (d.val, 5)] (a.val) 4 [(b.val, 5), (x.toNat, 2)] rfl
  have f5 : fld w 6 2 = b.val := F [(22, 6), (k.val, 3), (ofBool n, 1), (d.val, 5), (a.val, 5)] (b.val) 4 [(x.toNat, 2)] rfl
  have f6 : fld w 1 0 = x.toNat := F [(22, 6), (k.val, 3), (ofBool n, 1), (d.val, 5), (a.val, 5), (b.val, 5)] (x.toNat) 1 [] rfl
  refine ⟨hlt, fun e he => ?_⟩
  obtain rfl : e = .vec := by simpa [sectionsOf] using he
  refine decode_of_vec ?_ hf
  unfold rawVec
  rw [f0]
  dsimp only [cellVec]
  simp [eh, f1, f2, f3, f4, f5, f6, beq_ofBool]

theorem Laws.RoundTrip.vshl (h : Hdr) (k : Fin 8) (n : Bool) (d : Fin 32) (a : Fin 32) (b : Fin 32) (x : BitVec 2) : Laws.RoundTrip.Statement (.vshl h k n d a b x) := by
  intro w hw hf
  simp only [encode, encWord, Option.some.injEq] at hw
  have b0 := k.isLt
  have b1 := d.isLt
  have b2 := a.isLt
  have b3 := b.isLt
  have b4 := x.isLt
  have c0 := ofBool_lt n
  obtain ⟨eh, hlt, F⟩ := fields h (w := w) [(23, 6), (k.val, 3), (ofBool n, 1), (d.val, 5), (a.val, 5), (b.val, 5), (x.toNat, 2)] (by simp only [packF, widF]; omega) rfl ⟨by omega, by omega, by omega, by omega, by omega, by omega, by omega, trivial⟩
  have f0 : fld w 26 21 = 23 := F [] 23 5 [(k.val, 3), (ofBool n, 1), (d.val, 5), (a.val, 5), (b.val, 5), (x.toNat, 2)] rfl
  have f1 : fld w 20 18 = k.val := F [(23, 6)] (k.val) 2 [(ofBool n, 1), (d.val, 5), (a.val, 5), (b.val, 5), (x.toNat, 2)] rfl
  have f2 : fld w 17 17 = ofBool n := F [(23, 6), (k.val, 3)] (ofBool n) 0 [(d.val, 5), (a.val, 5), (b.val, 5), (x.toNat, 2)] rfl
  have f3 : fld w 16 12 = d.val := F [(23, 6), (k.val, 3), (ofBool n, 1)] (d.val) 4 [(a.val, 5), (b.val, 5), (x.toNat, 2)] rfl
  have f4 : fld w 11 7 = a.val := F [(23, 6), (k.val, 3), (ofBool n, 1), (d.val, 5)] (a.val) 4 [(b.val, 5), (x.toNat, 2)] rfl
  have f5 : fld w 6 2 = b.val := F [(23, 6), (k.val, 3), (ofBool n, 1), (d.val, 5), (a.val, 5)] (b.val) 4 [(x.toNat, 2)] rfl
  have f6 : fld w 1 0 = x.toNat := F [(23, 6), (k.val, 3), (ofBool n, 1), (d.val, 5), (a.val, 5), (b.val, 5)] (x.toNat) 1 [] rfl
  refine ⟨hlt, fun e he => ?_⟩
  obtain rfl : e = .vec := by simpa [sectionsOf] using he
  refine decode_of_vec ?_ hf
  unfold rawVec
  rw [f0]
  dsimp only [cellVec]
  simp [eh, f1, f2, f3, f4, f5, f6, beq_ofBool]

theorem Laws.RoundTrip.vshr (h : Hdr) (k : Fin 8) (n : Bool) (d : Fin 32) (a : Fin 32) (b : Fin 32) (x : BitVec 2) : Laws.RoundTrip.Statement (.vshr h k n d a b x) := by
  intro w hw hf
  simp only [encode, encWord, Option.some.injEq] at hw
  have b0 := k.isLt
  have b1 := d.isLt
  have b2 := a.isLt
  have b3 := b.isLt
  have b4 := x.isLt
  have c0 := ofBool_lt n
  obtain ⟨eh, hlt, F⟩ := fields h (w := w) [(24, 6), (k.val, 3), (ofBool n, 1), (d.val, 5), (a.val, 5), (b.val, 5), (x.toNat, 2)] (by simp only [packF, widF]; omega) rfl ⟨by omega, by omega, by omega, by omega, by omega, by omega, by omega, trivial⟩
  have f0 : fld w 26 21 = 24 := F [] 24 5 [(k.val, 3), (ofBool n, 1), (d.val, 5), (a.val, 5), (b.val, 5), (x.toNat, 2)] rfl
  have f1 : fld w 20 18 = k.val := F [(24, 6)] (k.val) 2 [(ofBool n, 1), (d.val, 5), (a.val, 5), (b.val, 5), (x.toNat, 2)] rfl
  have f2 : fld w 17 17 = ofBool n := F [(24, 6), (k.val, 3)] (ofBool n) 0 [(d.val, 5), (a.val, 5), (b.val, 5), (x.toNat, 2)] rfl
  have f3 : fld w 16 12 = d.val := F [(24, 6), (k.val, 3), (ofBool n, 1)] (d.val) 4 [(a.val, 5), (b.val, 5), (x.toNat, 2)] rfl
  have f4 : fld w 11 7 = a.val := F [(24, 6), (k.val, 3), (ofBool n, 1), (d.val, 5)] (a.val) 4 [(b.val, 5), (x.toNat, 2)] rfl
  have f5 : fld w 6 2 = b.val := F [(24, 6), (k.val, 3), (ofBool n, 1), (d.val, 5), (a.val, 5)] (b.val) 4 [(x.toNat, 2)] rfl
  have f6 : fld w 1 0 = x.toNat := F [(24, 6), (k.val, 3), (ofBool n, 1), (d.val, 5), (a.val, 5), (b.val, 5)] (x.toNat) 1 [] rfl
  refine ⟨hlt, fun e he => ?_⟩
  obtain rfl : e = .vec := by simpa [sectionsOf] using he
  refine decode_of_vec ?_ hf
  unfold rawVec
  rw [f0]
  dsimp only [cellVec]
  simp [eh, f1, f2, f3, f4, f5, f6, beq_ofBool]

theorem Laws.RoundTrip.vsra (h : Hdr) (k : Fin 8) (n : Bool) (d : Fin 32) (a : Fin 32) (b : Fin 32) (x : BitVec 2) : Laws.RoundTrip.Statement (.vsra h k n d a b x) := by
  intro w hw hf
  simp only [encode, encWord, Option.some.injEq] at hw
  have b0 := k.isLt
  have b1 := d.isLt
  have b2 := a.isLt
  have b3 := b.isLt
  have b4 := x.isLt
  have c0 := ofBool_lt n
  obtain ⟨eh, hlt, F⟩ := fields h (w := w) [(25, 6), (k.val, 3), (ofBool n, 1), (d.val, 5), (a.val, 5), (b.val, 5), (x.toNat, 2)] (by simp only [packF, widF]; omega) rfl ⟨by omega, by omega, by omega, by omega, by omega, by omega, by omega, trivial⟩
  have f0 : fld w 26 21 = 25 := F [] 25 5 [(k.val, 3), (ofBool n, 1), (d.val, 5), (a.val, 5), (b.val, 5), (x.toNat, 2)] rfl
  have f1 : fld w 20 18 = k.val := F [(25, 6)] (k.val) 2 [(ofBool n, 1), (d.val, 5), (a.val, 5), (b.val, 5), (x.toNat, 2)] rfl
  have f2 : fld w 17 17 = ofBool n := F [(25, 6), (k.val, 3)] (ofBool n) 0 [(d.val, 5), (a.val, 5), (b.val, 5), (x.toNat, 2)] rfl
  have f3 : fld w 16 12 = d.val := F [(25, 6), (k.val, 3), (ofBool n, 1)] (d.val) 4 [(a.val, 5), (b.val, 5), (x.toNat, 2)] rfl
  have f4 : fld w 11 7 = a.val := F [(25, 6), (k.val, 3), (ofBool n, 1), (d.val, 5)] (a.val) 4 [(b.val, 5), (x.toNat, 2)] rfl
  have f5 : fld w 6 2 = b.val := F [(25, 6), (k.val, 3), (ofBool n, 1), (d.val, 5), (a.val, 5)] (b.val) 4 [(x.toNat, 2)] rfl
  have f6 : fld w 1 0 = x.toNat := F [(25, 6), (k.val, 3), (ofBool n, 1), (d.val, 5), (a.val, 5), (b.val, 5)] (x.toNat) 1 [] rfl
  refine ⟨hlt, fun e he => ?_⟩
  obtain rfl : e = .vec := by simpa [sectionsOf] using he
  refine decode_of_vec ?_ hf
  unfold rawVec
  rw [f0]
  dsimp only [cellVec]
  simp [eh, f1, f2, f3, f4, f5, f6, beq_ofBool]

theorem Laws.RoundTrip.vcmp (h : Hdr) (k : Fin 8) (n : Bool) (c : BitVec 3) (p : BitVec 2) (a : Fin 32) (b : Fin 32) (x : BitVec 2) : Laws.RoundTrip.Statement (.vcmp h k n c p a b x) := by
  intro w hw hf
  simp only [encode, encWord, Option.some.injEq] at hw
  have b0 := k.isLt
  have b1 := c.isLt
  have b2 := p.isLt
  have b3 := a.isLt
  have b4 := b.isLt
  have b5 := x.isLt
  have c0 := ofBool_lt n
  obtain ⟨eh, hlt, F⟩ := fields h (w := w) [(26, 6), (k.val, 3), (ofBool n, 1), (c.toNat, 3), (p.toNat, 2), (a.val, 5), (b.val, 5), (x.toNat, 2)] (by simp only [packF, widF]; omega) rfl ⟨by omega, by omega, by omega, by omega, by omega, by omega, by omega, by omega, trivial⟩
  have f0 : fld w 26 21 = 26 := F [] 26 5 [(k.val, 3), (ofBool n, 1), (c.toNat, 3), (p.toNat, 2), (a.val, 5), (b.val, 5), (x.toNat, 2)] rfl
  have f1 : fld w 20 18 = k.val := F [(26, 6)] (k.val) 2 [(ofBool n, 1), (c.toNat, 3), (p.toNat, 2), (a.val, 5), (b.val, 5), (x.toNat, 2)] rfl
  have f2 : fld w 17 17 = ofBool n := F [(26, 6), (k.val, 3)] (ofBool n) 0 [(c.toNat, 3), (p.toNat, 2), (a.val, 5), (b.val, 5), (x.toNat, 2)] rfl
  have f3 : fld w 16 14 = c.toNat := F [(26, 6), (k.val, 3), (ofBool n, 1)] (c.toNat) 2 [(p.toNat, 2), (a.val, 5), (b.val, 5), (x.toNat, 2)] rfl
  have f4 : fld w 13 12 = p.toNat := F [(26, 6), (k.val, 3), (ofBool n, 1), (c.toNat, 3)] (p.toNat) 1 [(a.val, 5), (b.val, 5), (x.toNat, 2)] rfl
  have f5 : fld w 11 7 = a.val := F [(26, 6), (k.val, 3), (ofBool n, 1), (c.toNat, 3), (p.toNat, 2)] (a.val) 4 [(b.val, 5), (x.toNat, 2)] rfl
  have f6 : fld w 6 2 = b.val := F [(26, 6), (k.val, 3), (ofBool n, 1), (c.toNat, 3), (p.toNat, 2), (a.val, 5)] (b.val) 4 [(x.toNat, 2)] rfl
  have f7 : fld w 1 0 = x.toNat := F [(26, 6), (k.val, 3), (ofBool n, 1), (c.toNat, 3), (p.toNat, 2), (a.val, 5), (b.val, 5)] (x.toNat) 1 [] rfl
  refine ⟨hlt, fun e he => ?_⟩
  obtain rfl : e = .vec := by simpa [sectionsOf] using he
  refine decode_of_vec ?_ hf
  unfold rawVec
  rw [f0]
  dsimp only [cellVec]
  simp [eh, f1, f2, f3, f4, f5, f6, f7, beq_ofBool]

theorem Laws.RoundTrip.vicmp (h : Hdr) (k : Fin 8) (n : Bool) (c : BitVec 3) (p : BitVec 2) (a : Fin 32) (b : Fin 32) (x : BitVec 2) : Laws.RoundTrip.Statement (.vicmp h k n c p a b x) := by
  intro w hw hf
  simp only [encode, encWord, Option.some.injEq] at hw
  have b0 := k.isLt
  have b1 := c.isLt
  have b2 := p.isLt
  have b3 := a.isLt
  have b4 := b.isLt
  have b5 := x.isLt
  have c0 := ofBool_lt n
  obtain ⟨eh, hlt, F⟩ := fields h (w := w) [(27, 6), (k.val, 3), (ofBool n, 1), (c.toNat, 3), (p.toNat, 2), (a.val, 5), (b.val, 5), (x.toNat, 2)] (by simp only [packF, widF]; omega) rfl ⟨by omega, by omega, by omega, by omega, by omega, by omega, by omega, by omega, trivial⟩
  have f0 : fld w 26 21 = 27 := F [] 27 5 [(k.val, 3), (ofBool n, 1), (c.toNat, 3), (p.toNat, 2), (a.val, 5), (b.val, 5), (x.toNat, 2)] rfl
  have f1 : fld w 20 18 = k.val := F [(27, 6)] (k.val) 2 [(ofBool n, 1), (c.toNat, 3), (p.toNat, 2), (a.val, 5), (b.val, 5), (x.toNat, 2)] rfl
  have f2 : fld w 17 17 = ofBool n := F [(27, 6), (k.val, 3)] (ofBool n) 0 [(c.toNat, 3), (p.toNat, 2), (a.val, 5), (b.val, 5), (x.toNat, 2)] rfl
  have f3 : fld w 16 14 = c.toNat := F [(27, 6), (k.val, 3), (ofBool n, 1)] (c.toNat) 2 [(p.toNat, 2), (a.val, 5), (b.val, 5), (x.toNat, 2)] rfl
  have f4 : fld w 13 12 = p.toNat := F [(27, 6), (k.val, 3), (ofBool n, 1), (c.toNat, 3)] (p.toNat) 1 [(a.val, 5), (b.val, 5), (x.toNat, 2)] rfl
  have f5 : fld w 11 7 = a.val := F [(27, 6), (k.val, 3), (ofBool n, 1), (c.toNat, 3), (p.toNat, 2)] (a.val) 4 [(b.val, 5), (x.toNat, 2)] rfl
  have f6 : fld w 6 2 = b.val := F [(27, 6), (k.val, 3), (ofBool n, 1), (c.toNat, 3), (p.toNat, 2), (a.val, 5)] (b.val) 4 [(x.toNat, 2)] rfl
  have f7 : fld w 1 0 = x.toNat := F [(27, 6), (k.val, 3), (ofBool n, 1), (c.toNat, 3), (p.toNat, 2), (a.val, 5), (b.val, 5)] (x.toNat) 1 [] rfl
  refine ⟨hlt, fun e he => ?_⟩
  obtain rfl : e = .vec := by simpa [sectionsOf] using he
  refine decode_of_vec ?_ hf
  unfold rawVec
  rw [f0]
  dsimp only [cellVec]
  simp [eh, f1, f2, f3, f4, f5, f6, f7, beq_ofBool]

theorem Laws.RoundTrip.vclass (h : Hdr) (k : Fin 8) (n : Bool) (p : BitVec 2) (a : Fin 32) (m : BitVec 5) (x : BitVec 2) : Laws.RoundTrip.Statement (.vclass h k n p a m x) := by
  intro w hw hf
  simp only [encode, encWord, Option.some.injEq] at hw
  have b0 := k.isLt
  have b1 := p.isLt
  have b2 := a.isLt
  have b3 := m.isLt
  have b4 := x.isLt
  have c0 := ofBool_lt n
  obtain ⟨eh, hlt, F⟩ := fields h (w := w) [(28, 6), (k.val, 3), (ofBool n, 1), (0, 3), (p.toNat, 2), (a.val, 5), (m.toNat, 5), (x.toNat, 2)] (by simp only [packF, widF]; omega) rfl ⟨by omega, by omega, by omega, by omega, by omega, by omega, by omega, by omega, trivial⟩
  have f0 : fld w 26 21 = 28 := F [] 28 5 [(k.val, 3), (ofBool n, 1), (0, 3), (p.toNat, 2), (a.val, 5), (m.toNat, 5), (x.toNat, 2)] rfl
  have f1 : fld w 20 18 = k.val := F [(28, 6)] (k.val) 2 [(ofBool n, 1), (0, 3), (p.toNat, 2), (a.val, 5), (m.toNat, 5), (x.toNat, 2)] rfl
  have f2 : fld w 17 17 = ofBool n := F [(28, 6), (k.val, 3)] (ofBool n) 0 [(0, 3), (p.toNat, 2), (a.val, 5), (m.toNat, 5), (x.toNat, 2)] rfl
  have f3 : fld w 16 14 = 0 := F [(28, 6), (k.val, 3), (ofBool n, 1)] 0 2 [(p.toNat, 2), (a.val, 5), (m.toNat, 5), (x.toNat, 2)] rfl
  have f4 : fld w 13 12 = p.toNat := F [(28, 6), (k.val, 3), (ofBool n, 1), (0, 3)] (p.toNat) 1 [(a.val, 5), (m.toNat, 5), (x.toNat, 2)] rfl
  have f5 : fld w 11 7 = a.val := F [(28, 6), (k.val, 3), (ofBool n, 1), (0, 3), (p.toNat, 2)] (a.val) 4 [(m.toNat, 5), (x.toNat, 2)] rfl
  have f6 : fld w 6 2 = m.toNat := F [(28, 6), (k.val, 3), (ofBool n, 1), (0, 3), (p.toNat, 2), (a.val, 5)] (m.toNat) 4 [(x.toNat, 2)] rfl
  have f7 : fld w 1 0 = x.toNat := F [(28, 6), (k.val, 3), (ofBool n, 1), (0, 3), (p.toNat, 2), (a.val, 5), (m.toNat, 5)] (x.toNat) 1 [] rfl
  refine ⟨hlt, fun e he => ?_⟩
  obtain rfl : e = .vec := by simpa [sectionsOf] using he
  refine decode_of_vec ?_ hf
  unfold rawVec
  rw [f0]
  dsimp only [cellVec]
  simp [eh, f1, f2, f3, f4, f5, f6, f7, beq_ofBool]

theorem Laws.RoundTrip.kand (h : Hdr) (k : Fin 8) (n : Bool) (d : Fin 8) (a : Fin 8) (b : Fin 8) : Laws.RoundTrip.Statement (.kand h k n d a b) := by
  intro w hw hf
  simp only [encode, encWord, Option.some.injEq] at hw
  have b0 := k.isLt
  have b1 := d.isLt
  have b2 := a.isLt
  have b3 := b.isLt
  have c0 := ofBool_lt n
  obtain ⟨eh, hlt, F⟩ := fields h (w := w) [(29, 6), (k.val, 3), (ofBool n, 1), (0, 2), (d.val, 3), (0, 2), (a.val, 3), (0, 2), (b.val, 3), (0, 2)] (by simp only [packF, widF]; omega) rfl ⟨by omega, by omega, by omega, by omega, by omega, by omega, by omega, by omega, by omega, by omega, trivial⟩
  have f0 : fld w 26 21 = 29 := F [] 29 5 [(k.val, 3), (ofBool n, 1), (0, 2), (d.val, 3), (0, 2), (a.val, 3), (0, 2), (b.val, 3), (0, 2)] rfl
  have f1 : fld w 20 18 = k.val := F [(29, 6)] (k.val) 2 [(ofBool n, 1), (0, 2), (d.val, 3), (0, 2), (a.val, 3), (0, 2), (b.val, 3), (0, 2)] rfl
  have f2 : fld w 17 17 = ofBool n := F [(29, 6), (k.val, 3)] (ofBool n) 0 [(0, 2), (d.val, 3), (0, 2), (a.val, 3), (0, 2), (b.val, 3), (0, 2)] rfl
  have f3 : fld w 16 15 = 0 := F [(29, 6), (k.val, 3), (ofBool n, 1)] 0 1 [(d.val, 3), (0, 2), (a.val, 3), (0, 2), (b.val, 3), (0, 2)] rfl
  have f4 : fld w 14 12 = d.val := F [(29, 6), (k.val, 3), (ofBool n, 1), (0, 2)] (d.val) 2 [(0, 2), (a.val, 3), (0, 2), (b.val, 3), (0, 2)] rfl
  have f5 : fld w 11 10 = 0 := F [(29, 6), (k.val, 3), (ofBool n, 1), (0, 2), (d.val, 3)] 0 1 [(a.val, 3), (0, 2), (b.val, 3), (0, 2)] rfl
  have f6 : fld w 9 7 = a.val := F [(29, 6), (k.val, 3), (ofBool n, 1), (0, 2), (d.val, 3), (0, 2)] (a.val) 2 [(0, 2), (b.val, 3), (0, 2)] rfl
  have f7 : fld w 6 5 = 0 := F [(29, 6), (k.val, 3), (ofBool n, 1), (0, 2), (d.val, 3), (0, 2), (a.val, 3)] 0 1 [(b.val, 3), (0, 2)] rfl
  have f8 : fld w 4 2 = b.val := F [(29, 6), (k.val, 3), (ofBool n, 1), (0, 2), (d.val, 3), (0, 2), (a.val, 3), (0, 2)] (b.val) 2 [(0, 2)] rfl
  have f9 : fld w 1 0 = 0 := F [(29, 6), (k.val, 3), (ofBool n, 1), (0, 2), (d.val, 3), (0, 2), (a.val, 3), (0, 2), (b.val, 3)] 0 1 [] rfl
  refine ⟨hlt, fun e he => ?_⟩
  obtain rfl : e = .vec := by simpa [sectionsOf] using he
  refine decode_of_vec ?_ hf
  unfold rawVec
  rw [f0]
  dsimp only [cellVec]
  simp [eh, f1, f2, f3, f4, f5, f6, f7, f8, f9, beq_ofBool]

theorem Laws.RoundTrip.kor (h : Hdr) (k : Fin 8) (n : Bool) (d : Fin 8) (a : Fin 8) (b : Fin 8) : Laws.RoundTrip.Statement (.kor h k n d a b) := by
  intro w hw hf
  simp only [encode, encWord, Option.some.injEq] at hw
  have b0 := k.isLt
  have b1 := d.isLt
  have b2 := a.isLt
  have b3 := b.isLt
  have c0 := ofBool_lt n
  obtain ⟨eh, hlt, F⟩ := fields h (w := w) [(30, 6), (k.val, 3), (ofBool n, 1), (0, 2), (d.val, 3), (0, 2), (a.val, 3), (0, 2), (b.val, 3), (0, 2)] (by simp only [packF, widF]; omega) rfl ⟨by omega, by omega, by omega, by omega, by omega, by omega, by omega, by omega, by omega, by omega, trivial⟩
  have f0 : fld w 26 21 = 30 := F [] 30 5 [(k.val, 3), (ofBool n, 1), (0, 2), (d.val, 3), (0, 2), (a.val, 3), (0, 2), (b.val, 3), (0, 2)] rfl
  have f1 : fld w 20 18 = k.val := F [(30, 6)] (k.val) 2 [(ofBool n, 1), (0, 2), (d.val, 3), (0, 2), (a.val, 3), (0, 2), (b.val, 3), (0, 2)] rfl
  have f2 : fld w 17 17 = ofBool n := F [(30, 6), (k.val, 3)] (ofBool n) 0 [(0, 2), (d.val, 3), (0, 2), (a.val, 3), (0, 2), (b.val, 3), (0, 2)] rfl
  have f3 : fld w 16 15 = 0 := F [(30, 6), (k.val, 3), (ofBool n, 1)] 0 1 [(d.val, 3), (0, 2), (a.val, 3), (0, 2), (b.val, 3), (0, 2)] rfl
  have f4 : fld w 14 12 = d.val := F [(30, 6), (k.val, 3), (ofBool n, 1), (0, 2)] (d.val) 2 [(0, 2), (a.val, 3), (0, 2), (b.val, 3), (0, 2)] rfl
  have f5 : fld w 11 10 = 0 := F [(30, 6), (k.val, 3), (ofBool n, 1), (0, 2), (d.val, 3)] 0 1 [(a.val, 3), (0, 2), (b.val, 3), (0, 2)] rfl
  have f6 : fld w 9 7 = a.val := F [(30, 6), (k.val, 3), (ofBool n, 1), (0, 2), (d.val, 3), (0, 2)] (a.val) 2 [(0, 2), (b.val, 3), (0, 2)] rfl
  have f7 : fld w 6 5 = 0 := F [(30, 6), (k.val, 3), (ofBool n, 1), (0, 2), (d.val, 3), (0, 2), (a.val, 3)] 0 1 [(b.val, 3), (0, 2)] rfl
  have f8 : fld w 4 2 = b.val := F [(30, 6), (k.val, 3), (ofBool n, 1), (0, 2), (d.val, 3), (0, 2), (a.val, 3), (0, 2)] (b.val) 2 [(0, 2)] rfl
  have f9 : fld w 1 0 = 0 := F [(30, 6), (k.val, 3), (ofBool n, 1), (0, 2), (d.val, 3), (0, 2), (a.val, 3), (0, 2), (b.val, 3)] 0 1 [] rfl
  refine ⟨hlt, fun e he => ?_⟩
  obtain rfl : e = .vec := by simpa [sectionsOf] using he
  refine decode_of_vec ?_ hf
  unfold rawVec
  rw [f0]
  dsimp only [cellVec]
  simp [eh, f1, f2, f3, f4, f5, f6, f7, f8, f9, beq_ofBool]

theorem Laws.RoundTrip.kxor (h : Hdr) (k : Fin 8) (n : Bool) (d : Fin 8) (a : Fin 8) (b : Fin 8) : Laws.RoundTrip.Statement (.kxor h k n d a b) := by
  intro w hw hf
  simp only [encode, encWord, Option.some.injEq] at hw
  have b0 := k.isLt
  have b1 := d.isLt
  have b2 := a.isLt
  have b3 := b.isLt
  have c0 := ofBool_lt n
  obtain ⟨eh, hlt, F⟩ := fields h (w := w) [(31, 6), (k.val, 3), (ofBool n, 1), (0, 2), (d.val, 3), (0, 2), (a.val, 3), (0, 2), (b.val, 3), (0, 2)] (by simp only [packF, widF]; omega) rfl ⟨by omega, by omega, by omega, by omega, by omega, by omega, by omega, by omega, by omega, by omega, trivial⟩
  have f0 : fld w 26 21 = 31 := F [] 31 5 [(k.val, 3), (ofBool n, 1), (0, 2), (d.val, 3), (0, 2), (a.val, 3), (0, 2), (b.val, 3), (0, 2)] rfl
  have f1 : fld w 20 18 = k.val := F [(31, 6)] (k.val) 2 [(ofBool n, 1), (0, 2), (d.val, 3), (0, 2), (a.val, 3), (0, 2), (b.val, 3), (0, 2)] rfl
  have f2 : fld w 17 17 = ofBool n := F [(31, 6), (k.val, 3)] (ofBool n) 0 [(0, 2), (d.val, 3), (0, 2), (a.val, 3), (0, 2), (b.val, 3), (0, 2)] rfl
  have f3 : fld w 16 15 = 0 := F [(31, 6), (k.val, 3), (ofBool n, 1)] 0 1 [(d.val, 3), (0, 2), (a.val, 3), (0, 2), (b.val, 3), (0, 2)] rfl
  have f4 : fld w 14 12 = d.val := F [(31, 6), (k.val, 3), (ofBool n, 1), (0, 2)] (d.val) 2 [(0, 2), (a.val, 3), (0, 2), (b.val, 3), (0, 2)] rfl
  have f5 : fld w 11 10 = 0 := F [(31, 6), (k.val, 3), (ofBool n, 1), (0, 2), (d.val, 3)] 0 1 [(a.val, 3), (0, 2), (b.val, 3), (0, 2)] rfl
  have f6 : fld w 9 7 = a.val := F [(31, 6), (k.val, 3), (ofBool n, 1), (0, 2), (d.val, 3), (0, 2)] (a.val) 2 [(0, 2), (b.val, 3), (0, 2)] rfl
  have f7 : fld w 6 5 = 0 := F [(31, 6), (k.val, 3), (ofBool n, 1), (0, 2), (d.val, 3), (0, 2), (a.val, 3)] 0 1 [(b.val, 3), (0, 2)] rfl
  have f8 : fld w 4 2 = b.val := F [(31, 6), (k.val, 3), (ofBool n, 1), (0, 2), (d.val, 3), (0, 2), (a.val, 3), (0, 2)] (b.val) 2 [(0, 2)] rfl
  have f9 : fld w 1 0 = 0 := F [(31, 6), (k.val, 3), (ofBool n, 1), (0, 2), (d.val, 3), (0, 2), (a.val, 3), (0, 2), (b.val, 3)] 0 1 [] rfl
  refine ⟨hlt, fun e he => ?_⟩
  obtain rfl : e = .vec := by simpa [sectionsOf] using he
  refine decode_of_vec ?_ hf
  unfold rawVec
  rw [f0]
  dsimp only [cellVec]
  simp [eh, f1, f2, f3, f4, f5, f6, f7, f8, f9, beq_ofBool]

theorem Laws.RoundTrip.knot (h : Hdr) (k : Fin 8) (n : Bool) (d : Fin 8) (a : Fin 8) : Laws.RoundTrip.Statement (.knot h k n d a) := by
  intro w hw hf
  simp only [encode, encWord, Option.some.injEq] at hw
  have b0 := k.isLt
  have b1 := d.isLt
  have b2 := a.isLt
  have c0 := ofBool_lt n
  obtain ⟨eh, hlt, F⟩ := fields h (w := w) [(32, 6), (k.val, 3), (ofBool n, 1), (0, 2), (d.val, 3), (0, 2), (a.val, 3), (0, 7)] (by simp only [packF, widF]; omega) rfl ⟨by omega, by omega, by omega, by omega, by omega, by omega, by omega, by omega, trivial⟩
  have f0 : fld w 26 21 = 32 := F [] 32 5 [(k.val, 3), (ofBool n, 1), (0, 2), (d.val, 3), (0, 2), (a.val, 3), (0, 7)] rfl
  have f1 : fld w 20 18 = k.val := F [(32, 6)] (k.val) 2 [(ofBool n, 1), (0, 2), (d.val, 3), (0, 2), (a.val, 3), (0, 7)] rfl
  have f2 : fld w 17 17 = ofBool n := F [(32, 6), (k.val, 3)] (ofBool n) 0 [(0, 2), (d.val, 3), (0, 2), (a.val, 3), (0, 7)] rfl
  have f3 : fld w 16 15 = 0 := F [(32, 6), (k.val, 3), (ofBool n, 1)] 0 1 [(d.val, 3), (0, 2), (a.val, 3), (0, 7)] rfl
  have f4 : fld w 14 12 = d.val := F [(32, 6), (k.val, 3), (ofBool n, 1), (0, 2)] (d.val) 2 [(0, 2), (a.val, 3), (0, 7)] rfl
  have f5 : fld w 11 10 = 0 := F [(32, 6), (k.val, 3), (ofBool n, 1), (0, 2), (d.val, 3)] 0 1 [(a.val, 3), (0, 7)] rfl
  have f6 : fld w 9 7 = a.val := F [(32, 6), (k.val, 3), (ofBool n, 1), (0, 2), (d.val, 3), (0, 2)] (a.val) 2 [(0, 7)] rfl
  have f7 : fld w 6 0 = 0 := F [(32, 6), (k.val, 3), (ofBool n, 1), (0, 2), (d.val, 3), (0, 2), (a.val, 3)] 0 6 [] rfl
  refine ⟨hlt, fun e he => ?_⟩
  obtain rfl : e = .vec := by simpa [sectionsOf] using he
  refine decode_of_vec ?_ hf
  unfold rawVec
  rw [f0]
  dsimp only [cellVec]
  simp [eh, f1, f2, f3, f4, f5, f6, f7, beq_ofBool]

theorem Laws.RoundTrip.kmov (h : Hdr) (k : Fin 8) (n : Bool) (d : Fin 8) (a : Fin 8) : Laws.RoundTrip.Statement (.kmov h k n d a) := by
  intro w hw hf
  simp only [encode, encWord, Option.some.injEq] at hw
  have b0 := k.isLt
  have b1 := d.isLt
  have b2 := a.isLt
  have c0 := ofBool_lt n
  obtain ⟨eh, hlt, F⟩ := fields h (w := w) [(33, 6), (k.val, 3), (ofBool n, 1), (0, 2), (d.val, 3), (0, 2), (a.val, 3), (0, 7)] (by simp only [packF, widF]; omega) rfl ⟨by omega, by omega, by omega, by omega, by omega, by omega, by omega, by omega, trivial⟩
  have f0 : fld w 26 21 = 33 := F [] 33 5 [(k.val, 3), (ofBool n, 1), (0, 2), (d.val, 3), (0, 2), (a.val, 3), (0, 7)] rfl
  have f1 : fld w 20 18 = k.val := F [(33, 6)] (k.val) 2 [(ofBool n, 1), (0, 2), (d.val, 3), (0, 2), (a.val, 3), (0, 7)] rfl
  have f2 : fld w 17 17 = ofBool n := F [(33, 6), (k.val, 3)] (ofBool n) 0 [(0, 2), (d.val, 3), (0, 2), (a.val, 3), (0, 7)] rfl
  have f3 : fld w 16 15 = 0 := F [(33, 6), (k.val, 3), (ofBool n, 1)] 0 1 [(d.val, 3), (0, 2), (a.val, 3), (0, 7)] rfl
  have f4 : fld w 14 12 = d.val := F [(33, 6), (k.val, 3), (ofBool n, 1), (0, 2)] (d.val) 2 [(0, 2), (a.val, 3), (0, 7)] rfl
  have f5 : fld w 11 10 = 0 := F [(33, 6), (k.val, 3), (ofBool n, 1), (0, 2), (d.val, 3)] 0 1 [(a.val, 3), (0, 7)] rfl
  have f6 : fld w 9 7 = a.val := F [(33, 6), (k.val, 3), (ofBool n, 1), (0, 2), (d.val, 3), (0, 2)] (a.val) 2 [(0, 7)] rfl
  have f7 : fld w 6 0 = 0 := F [(33, 6), (k.val, 3), (ofBool n, 1), (0, 2), (d.val, 3), (0, 2), (a.val, 3)] 0 6 [] rfl
  refine ⟨hlt, fun e he => ?_⟩
  obtain rfl : e = .vec := by simpa [sectionsOf] using he
  refine decode_of_vec ?_ hf
  unfold rawVec
  rw [f0]
  dsimp only [cellVec]
  simp [eh, f1, f2, f3, f4, f5, f6, f7, beq_ofBool]

theorem Laws.RoundTrip.kcnt (h : Hdr) (k : Fin 8) (n : Bool) (d : Fin 32) (a : Fin 8) : Laws.RoundTrip.Statement (.kcnt h k n d a) := by
  intro w hw hf
  simp only [encode, encWord, Option.some.injEq] at hw
  have b0 := k.isLt
  have b1 := d.isLt
  have b2 := a.isLt
  have c0 := ofBool_lt n
  obtain ⟨eh, hlt, F⟩ := fields h (w := w) [(34, 6), (k.val, 3), (ofBool n, 1), (d.val, 5), (0, 2), (a.val, 3), (0, 7)] (by simp only [packF, widF]; omega) rfl ⟨by omega, by omega, by omega, by omega, by omega, by omega, by omega, trivial⟩
  have f0 : fld w 26 21 = 34 := F [] 34 5 [(k.val, 3), (ofBool n, 1), (d.val, 5), (0, 2), (a.val, 3), (0, 7)] rfl
  have f1 : fld w 20 18 = k.val := F [(34, 6)] (k.val) 2 [(ofBool n, 1), (d.val, 5), (0, 2), (a.val, 3), (0, 7)] rfl
  have f2 : fld w 17 17 = ofBool n := F [(34, 6), (k.val, 3)] (ofBool n) 0 [(d.val, 5), (0, 2), (a.val, 3), (0, 7)] rfl
  have f3 : fld w 16 12 = d.val := F [(34, 6), (k.val, 3), (ofBool n, 1)] (d.val) 4 [(0, 2), (a.val, 3), (0, 7)] rfl
  have f4 : fld w 11 10 = 0 := F [(34, 6), (k.val, 3), (ofBool n, 1), (d.val, 5)] 0 1 [(a.val, 3), (0, 7)] rfl
  have f5 : fld w 9 7 = a.val := F [(34, 6), (k.val, 3), (ofBool n, 1), (d.val, 5), (0, 2)] (a.val) 2 [(0, 7)] rfl
  have f6 : fld w 6 0 = 0 := F [(34, 6), (k.val, 3), (ofBool n, 1), (d.val, 5), (0, 2), (a.val, 3)] 0 6 [] rfl
  refine ⟨hlt, fun e he => ?_⟩
  obtain rfl : e = .vec := by simpa [sectionsOf] using he
  refine decode_of_vec ?_ hf
  unfold rawVec
  rw [f0]
  dsimp only [cellVec]
  simp [eh, f1, f2, f3, f4, f5, f6, beq_ofBool]

theorem Laws.RoundTrip.vsel (h : Hdr) (k : Fin 8) (n : Bool) (d : Fin 32) (a : Fin 32) (b : Fin 32) (x : BitVec 2) : Laws.RoundTrip.Statement (.vsel h k n d a b x) := by
  intro w hw hf
  simp only [encode, encWord, Option.some.injEq] at hw
  have b0 := k.isLt
  have b1 := d.isLt
  have b2 := a.isLt
  have b3 := b.isLt
  have b4 := x.isLt
  have c0 := ofBool_lt n
  obtain ⟨eh, hlt, F⟩ := fields h (w := w) [(35, 6), (k.val, 3), (ofBool n, 1), (d.val, 5), (a.val, 5), (b.val, 5), (x.toNat, 2)] (by simp only [packF, widF]; omega) rfl ⟨by omega, by omega, by omega, by omega, by omega, by omega, by omega, trivial⟩
  have f0 : fld w 26 21 = 35 := F [] 35 5 [(k.val, 3), (ofBool n, 1), (d.val, 5), (a.val, 5), (b.val, 5), (x.toNat, 2)] rfl
  have f1 : fld w 20 18 = k.val := F [(35, 6)] (k.val) 2 [(ofBool n, 1), (d.val, 5), (a.val, 5), (b.val, 5), (x.toNat, 2)] rfl
  have f2 : fld w 17 17 = ofBool n := F [(35, 6), (k.val, 3)] (ofBool n) 0 [(d.val, 5), (a.val, 5), (b.val, 5), (x.toNat, 2)] rfl
  have f3 : fld w 16 12 = d.val := F [(35, 6), (k.val, 3), (ofBool n, 1)] (d.val) 4 [(a.val, 5), (b.val, 5), (x.toNat, 2)] rfl
  have f4 : fld w 11 7 = a.val := F [(35, 6), (k.val, 3), (ofBool n, 1), (d.val, 5)] (a.val) 4 [(b.val, 5), (x.toNat, 2)] rfl
  have f5 : fld w 6 2 = b.val := F [(35, 6), (k.val, 3), (ofBool n, 1), (d.val, 5), (a.val, 5)] (b.val) 4 [(x.toNat, 2)] rfl
  have f6 : fld w 1 0 = x.toNat := F [(35, 6), (k.val, 3), (ofBool n, 1), (d.val, 5), (a.val, 5), (b.val, 5)] (x.toNat) 1 [] rfl
  refine ⟨hlt, fun e he => ?_⟩
  obtain rfl : e = .vec := by simpa [sectionsOf] using he
  refine decode_of_vec ?_ hf
  unfold rawVec
  rw [f0]
  dsimp only [cellVec]
  simp [eh, f1, f2, f3, f4, f5, f6, beq_ofBool]

theorem Laws.RoundTrip.vmov (h : Hdr) (k : Fin 8) (n : Bool) (d : Fin 32) (a : Fin 32) (x : BitVec 2) : Laws.RoundTrip.Statement (.vmov h k n d a x) := by
  intro w hw hf
  simp only [encode, encWord, Option.some.injEq] at hw
  have b0 := k.isLt
  have b1 := d.isLt
  have b2 := a.isLt
  have b3 := x.isLt
  have c0 := ofBool_lt n
  obtain ⟨eh, hlt, F⟩ := fields h (w := w) [(36, 6), (k.val, 3), (ofBool n, 1), (d.val, 5), (a.val, 5), (0, 5), (x.toNat, 2)] (by simp only [packF, widF]; omega) rfl ⟨by omega, by omega, by omega, by omega, by omega, by omega, by omega, trivial⟩
  have f0 : fld w 26 21 = 36 := F [] 36 5 [(k.val, 3), (ofBool n, 1), (d.val, 5), (a.val, 5), (0, 5), (x.toNat, 2)] rfl
  have f1 : fld w 20 18 = k.val := F [(36, 6)] (k.val) 2 [(ofBool n, 1), (d.val, 5), (a.val, 5), (0, 5), (x.toNat, 2)] rfl
  have f2 : fld w 17 17 = ofBool n := F [(36, 6), (k.val, 3)] (ofBool n) 0 [(d.val, 5), (a.val, 5), (0, 5), (x.toNat, 2)] rfl
  have f3 : fld w 16 12 = d.val := F [(36, 6), (k.val, 3), (ofBool n, 1)] (d.val) 4 [(a.val, 5), (0, 5), (x.toNat, 2)] rfl
  have f4 : fld w 11 7 = a.val := F [(36, 6), (k.val, 3), (ofBool n, 1), (d.val, 5)] (a.val) 4 [(0, 5), (x.toNat, 2)] rfl
  have f5 : fld w 6 2 = 0 := F [(36, 6), (k.val, 3), (ofBool n, 1), (d.val, 5), (a.val, 5)] 0 4 [(x.toNat, 2)] rfl
  have f6 : fld w 1 0 = x.toNat := F [(36, 6), (k.val, 3), (ofBool n, 1), (d.val, 5), (a.val, 5), (0, 5)] (x.toNat) 1 [] rfl
  refine ⟨hlt, fun e he => ?_⟩
  obtain rfl : e = .vec := by simpa [sectionsOf] using he
  refine decode_of_vec ?_ hf
  unfold rawVec
  rw [f0]
  dsimp only [cellVec]
  simp [eh, f1, f2, f3, f4, f5, f6, beq_ofBool]

theorem Laws.RoundTrip.vmovi (h : Hdr) (k : Fin 8) (n : Bool) (d : Fin 32) (imm : BitVec 10) (x : BitVec 2) : Laws.RoundTrip.Statement (.vmovi h k n d imm x) := by
  intro w hw hf
  simp only [encode, encWord, Option.some.injEq] at hw
  have b0 := k.isLt
  have b1 := d.isLt
  have b2 := imm.isLt
  have b3 := x.isLt
  have c0 := ofBool_lt n
  obtain ⟨eh, hlt, F⟩ := fields h (w := w) [(37, 6), (k.val, 3), (ofBool n, 1), (d.val, 5), (imm.toNat, 10), (x.toNat, 2)] (by simp only [packF, widF]; omega) rfl ⟨by omega, by omega, by omega, by omega, by omega, by omega, trivial⟩
  have f0 : fld w 26 21 = 37 := F [] 37 5 [(k.val, 3), (ofBool n, 1), (d.val, 5), (imm.toNat, 10), (x.toNat, 2)] rfl
  have f1 : fld w 20 18 = k.val := F [(37, 6)] (k.val) 2 [(ofBool n, 1), (d.val, 5), (imm.toNat, 10), (x.toNat, 2)] rfl
  have f2 : fld w 17 17 = ofBool n := F [(37, 6), (k.val, 3)] (ofBool n) 0 [(d.val, 5), (imm.toNat, 10), (x.toNat, 2)] rfl
  have f3 : fld w 16 12 = d.val := F [(37, 6), (k.val, 3), (ofBool n, 1)] (d.val) 4 [(imm.toNat, 10), (x.toNat, 2)] rfl
  have f4 : fld w 11 2 = imm.toNat := F [(37, 6), (k.val, 3), (ofBool n, 1), (d.val, 5)] (imm.toNat) 9 [(x.toNat, 2)] rfl
  have f5 : fld w 1 0 = x.toNat := F [(37, 6), (k.val, 3), (ofBool n, 1), (d.val, 5), (imm.toNat, 10)] (x.toNat) 1 [] rfl
  refine ⟨hlt, fun e he => ?_⟩
  obtain rfl : e = .vec := by simpa [sectionsOf] using he
  refine decode_of_vec ?_ hf
  unfold rawVec
  rw [f0]
  dsimp only [cellVec]
  simp [eh, f1, f2, f3, f4, f5, beq_ofBool]

theorem Laws.RoundTrip.vbcst (h : Hdr) (k : Fin 8) (n : Bool) (d : Fin 32) (a : Fin 32) (s : BitVec 5) (x : BitVec 2) : Laws.RoundTrip.Statement (.vbcst h k n d a s x) := by
  intro w hw hf
  simp only [encode, encWord, Option.some.injEq] at hw
  have b0 := k.isLt
  have b1 := d.isLt
  have b2 := a.isLt
  have b3 := s.isLt
  have b4 := x.isLt
  have c0 := ofBool_lt n
  obtain ⟨eh, hlt, F⟩ := fields h (w := w) [(38, 6), (k.val, 3), (ofBool n, 1), (d.val, 5), (a.val, 5), (s.toNat, 5), (x.toNat, 2)] (by simp only [packF, widF]; omega) rfl ⟨by omega, by omega, by omega, by omega, by omega, by omega, by omega, trivial⟩
  have f0 : fld w 26 21 = 38 := F [] 38 5 [(k.val, 3), (ofBool n, 1), (d.val, 5), (a.val, 5), (s.toNat, 5), (x.toNat, 2)] rfl
  have f1 : fld w 20 18 = k.val := F [(38, 6)] (k.val) 2 [(ofBool n, 1), (d.val, 5), (a.val, 5), (s.toNat, 5), (x.toNat, 2)] rfl
  have f2 : fld w 17 17 = ofBool n := F [(38, 6), (k.val, 3)] (ofBool n) 0 [(d.val, 5), (a.val, 5), (s.toNat, 5), (x.toNat, 2)] rfl
  have f3 : fld w 16 12 = d.val := F [(38, 6), (k.val, 3), (ofBool n, 1)] (d.val) 4 [(a.val, 5), (s.toNat, 5), (x.toNat, 2)] rfl
  have f4 : fld w 11 7 = a.val := F [(38, 6), (k.val, 3), (ofBool n, 1), (d.val, 5)] (a.val) 4 [(s.toNat, 5), (x.toNat, 2)] rfl
  have f5 : fld w 6 2 = s.toNat := F [(38, 6), (k.val, 3), (ofBool n, 1), (d.val, 5), (a.val, 5)] (s.toNat) 4 [(x.toNat, 2)] rfl
  have f6 : fld w 1 0 = x.toNat := F [(38, 6), (k.val, 3), (ofBool n, 1), (d.val, 5), (a.val, 5), (s.toNat, 5)] (x.toNat) 1 [] rfl
  refine ⟨hlt, fun e he => ?_⟩
  obtain rfl : e = .vec := by simpa [sectionsOf] using he
  refine decode_of_vec ?_ hf
  unfold rawVec
  rw [f0]
  dsimp only [cellVec]
  simp [eh, f1, f2, f3, f4, f5, f6, beq_ofBool]

theorem Laws.RoundTrip.vcvt (h : Hdr) (k : Fin 8) (n : Bool) (d : Fin 32) (a : Fin 32) (f : BitVec 4) (x : BitVec 2) : Laws.RoundTrip.Statement (.vcvt h k n d a f x) := by
  intro w hw hf
  simp only [encode, encWord, Option.some.injEq] at hw
  have b0 := k.isLt
  have b1 := d.isLt
  have b2 := a.isLt
  have b3 := f.isLt
  have b4 := x.isLt
  have c0 := ofBool_lt n
  obtain ⟨eh, hlt, F⟩ := fields h (w := w) [(39, 6), (k.val, 3), (ofBool n, 1), (d.val, 5), (a.val, 5), (0, 1), (f.toNat, 4), (x.toNat, 2)] (by simp only [packF, widF]; omega) rfl ⟨by omega, by omega, by omega, by omega, by omega, by omega, by omega, by omega, trivial⟩
  have f0 : fld w 26 21 = 39 := F [] 39 5 [(k.val, 3), (ofBool n, 1), (d.val, 5), (a.val, 5), (0, 1), (f.toNat, 4), (x.toNat, 2)] rfl
  have f1 : fld w 20 18 = k.val := F [(39, 6)] (k.val) 2 [(ofBool n, 1), (d.val, 5), (a.val, 5), (0, 1), (f.toNat, 4), (x.toNat, 2)] rfl
  have f2 : fld w 17 17 = ofBool n := F [(39, 6), (k.val, 3)] (ofBool n) 0 [(d.val, 5), (a.val, 5), (0, 1), (f.toNat, 4), (x.toNat, 2)] rfl
  have f3 : fld w 16 12 = d.val := F [(39, 6), (k.val, 3), (ofBool n, 1)] (d.val) 4 [(a.val, 5), (0, 1), (f.toNat, 4), (x.toNat, 2)] rfl
  have f4 : fld w 11 7 = a.val := F [(39, 6), (k.val, 3), (ofBool n, 1), (d.val, 5)] (a.val) 4 [(0, 1), (f.toNat, 4), (x.toNat, 2)] rfl
  have f5 : fld w 6 6 = 0 := F [(39, 6), (k.val, 3), (ofBool n, 1), (d.val, 5), (a.val, 5)] 0 0 [(f.toNat, 4), (x.toNat, 2)] rfl
  have f6 : fld w 5 2 = f.toNat := F [(39, 6), (k.val, 3), (ofBool n, 1), (d.val, 5), (a.val, 5), (0, 1)] (f.toNat) 3 [(x.toNat, 2)] rfl
  have f7 : fld w 1 0 = x.toNat := F [(39, 6), (k.val, 3), (ofBool n, 1), (d.val, 5), (a.val, 5), (0, 1), (f.toNat, 4)] (x.toNat) 1 [] rfl
  refine ⟨hlt, fun e he => ?_⟩
  obtain rfl : e = .vec := by simpa [sectionsOf] using he
  refine decode_of_vec ?_ hf
  unfold rawVec
  rw [f0]
  dsimp only [cellVec]
  simp [eh, f1, f2, f3, f4, f5, f6, f7, beq_ofBool]

theorem Laws.RoundTrip.vqnt (h : Hdr) (d : Fin 32) (a : Fin 32) (b : Fin 32) (x : BitVec 2) : Laws.RoundTrip.Statement (.vqnt h d a b x) := by
  intro w hw hf
  simp only [encode, encWord, Option.some.injEq] at hw
  have b0 := d.isLt
  have b1 := a.isLt
  have b2 := b.isLt
  have b3 := x.isLt
  obtain ⟨eh, hlt, F⟩ := fields h (w := w) [(40, 6), (0, 4), (d.val, 5), (a.val, 5), (b.val, 5), (x.toNat, 2)] (by simp only [packF, widF]; omega) rfl ⟨by omega, by omega, by omega, by omega, by omega, by omega, trivial⟩
  have f0 : fld w 26 21 = 40 := F [] 40 5 [(0, 4), (d.val, 5), (a.val, 5), (b.val, 5), (x.toNat, 2)] rfl
  have f1 : fld w 20 17 = 0 := F [(40, 6)] 0 3 [(d.val, 5), (a.val, 5), (b.val, 5), (x.toNat, 2)] rfl
  have f2 : fld w 16 12 = d.val := F [(40, 6), (0, 4)] (d.val) 4 [(a.val, 5), (b.val, 5), (x.toNat, 2)] rfl
  have f3 : fld w 11 7 = a.val := F [(40, 6), (0, 4), (d.val, 5)] (a.val) 4 [(b.val, 5), (x.toNat, 2)] rfl
  have f4 : fld w 6 2 = b.val := F [(40, 6), (0, 4), (d.val, 5), (a.val, 5)] (b.val) 4 [(x.toNat, 2)] rfl
  have f5 : fld w 1 0 = x.toNat := F [(40, 6), (0, 4), (d.val, 5), (a.val, 5), (b.val, 5)] (x.toNat) 1 [] rfl
  refine ⟨hlt, fun e he => ?_⟩
  obtain rfl : e = .vec := by simpa [sectionsOf] using he
  refine decode_of_vec ?_ hf
  unfold rawVec
  rw [f0]
  dsimp only [cellVec]
  simp [eh, f1, f2, f3, f4, f5]

theorem Laws.RoundTrip.vdq (h : Hdr) (k : Fin 8) (n : Bool) (d : Fin 32) (a : Fin 32) (b : Fin 32) (x : BitVec 2) : Laws.RoundTrip.Statement (.vdq h k n d a b x) := by
  intro w hw hf
  simp only [encode, encWord, Option.some.injEq] at hw
  have b0 := k.isLt
  have b1 := d.isLt
  have b2 := a.isLt
  have b3 := b.isLt
  have b4 := x.isLt
  have c0 := ofBool_lt n
  obtain ⟨eh, hlt, F⟩ := fields h (w := w) [(41, 6), (k.val, 3), (ofBool n, 1), (d.val, 5), (a.val, 5), (b.val, 5), (x.toNat, 2)] (by simp only [packF, widF]; omega) rfl ⟨by omega, by omega, by omega, by omega, by omega, by omega, by omega, trivial⟩
  have f0 : fld w 26 21 = 41 := F [] 41 5 [(k.val, 3), (ofBool n, 1), (d.val, 5), (a.val, 5), (b.val, 5), (x.toNat, 2)] rfl
  have f1 : fld w 20 18 = k.val := F [(41, 6)] (k.val) 2 [(ofBool n, 1), (d.val, 5), (a.val, 5), (b.val, 5), (x.toNat, 2)] rfl
  have f2 : fld w 17 17 = ofBool n := F [(41, 6), (k.val, 3)] (ofBool n) 0 [(d.val, 5), (a.val, 5), (b.val, 5), (x.toNat, 2)] rfl
  have f3 : fld w 16 12 = d.val := F [(41, 6), (k.val, 3), (ofBool n, 1)] (d.val) 4 [(a.val, 5), (b.val, 5), (x.toNat, 2)] rfl
  have f4 : fld w 11 7 = a.val := F [(41, 6), (k.val, 3), (ofBool n, 1), (d.val, 5)] (a.val) 4 [(b.val, 5), (x.toNat, 2)] rfl
  have f5 : fld w 6 2 = b.val := F [(41, 6), (k.val, 3), (ofBool n, 1), (d.val, 5), (a.val, 5)] (b.val) 4 [(x.toNat, 2)] rfl
  have f6 : fld w 1 0 = x.toNat := F [(41, 6), (k.val, 3), (ofBool n, 1), (d.val, 5), (a.val, 5), (b.val, 5)] (x.toNat) 1 [] rfl
  refine ⟨hlt, fun e he => ?_⟩
  obtain rfl : e = .vec := by simpa [sectionsOf] using he
  refine decode_of_vec ?_ hf
  unfold rawVec
  rw [f0]
  dsimp only [cellVec]
  simp [eh, f1, f2, f3, f4, f5, f6, beq_ofBool]

theorem Laws.RoundTrip.vrnd (h : Hdr) (k : Fin 8) (n : Bool) (d : Fin 32) (a : Fin 32) (m : BitVec 3) (x : BitVec 2) : Laws.RoundTrip.Statement (.vrnd h k n d a m x) := by
  intro w hw hf
  simp only [encode, encWord, Option.some.injEq] at hw
  have b0 := k.isLt
  have b1 := d.isLt
  have b2 := a.isLt
  have b3 := m.isLt
  have b4 := x.isLt
  have c0 := ofBool_lt n
  obtain ⟨eh, hlt, F⟩ := fields h (w := w) [(42, 6), (k.val, 3), (ofBool n, 1), (d.val, 5), (a.val, 5), (0, 2), (m.toNat, 3), (x.toNat, 2)] (by simp only [packF, widF]; omega) rfl ⟨by omega, by omega, by omega, by omega, by omega, by omega, by omega, by omega, trivial⟩
  have f0 : fld w 26 21 = 42 := F [] 42 5 [(k.val, 3), (ofBool n, 1), (d.val, 5), (a.val, 5), (0, 2), (m.toNat, 3), (x.toNat, 2)] rfl
  have f1 : fld w 20 18 = k.val := F [(42, 6)] (k.val) 2 [(ofBool n, 1), (d.val, 5), (a.val, 5), (0, 2), (m.toNat, 3), (x.toNat, 2)] rfl
  have f2 : fld w 17 17 = ofBool n := F [(42, 6), (k.val, 3)] (ofBool n) 0 [(d.val, 5), (a.val, 5), (0, 2), (m.toNat, 3), (x.toNat, 2)] rfl
  have f3 : fld w 16 12 = d.val := F [(42, 6), (k.val, 3), (ofBool n, 1)] (d.val) 4 [(a.val, 5), (0, 2), (m.toNat, 3), (x.toNat, 2)] rfl
  have f4 : fld w 11 7 = a.val := F [(42, 6), (k.val, 3), (ofBool n, 1), (d.val, 5)] (a.val) 4 [(0, 2), (m.toNat, 3), (x.toNat, 2)] rfl
  have f5 : fld w 6 5 = 0 := F [(42, 6), (k.val, 3), (ofBool n, 1), (d.val, 5), (a.val, 5)] 0 1 [(m.toNat, 3), (x.toNat, 2)] rfl
  have f6 : fld w 4 2 = m.toNat := F [(42, 6), (k.val, 3), (ofBool n, 1), (d.val, 5), (a.val, 5), (0, 2)] (m.toNat) 2 [(x.toNat, 2)] rfl
  have f7 : fld w 1 0 = x.toNat := F [(42, 6), (k.val, 3), (ofBool n, 1), (d.val, 5), (a.val, 5), (0, 2), (m.toNat, 3)] (x.toNat) 1 [] rfl
  refine ⟨hlt, fun e he => ?_⟩
  obtain rfl : e = .vec := by simpa [sectionsOf] using he
  refine decode_of_vec ?_ hf
  unfold rawVec
  rw [f0]
  dsimp only [cellVec]
  simp [eh, f1, f2, f3, f4, f5, f6, f7, beq_ofBool]

theorem Laws.RoundTrip.vexp2 (h : Hdr) (k : Fin 8) (n : Bool) (d : Fin 32) (a : Fin 32) (x : BitVec 2) : Laws.RoundTrip.Statement (.vexp2 h k n d a x) := by
  intro w hw hf
  simp only [encode, encWord, Option.some.injEq] at hw
  have b0 := k.isLt
  have b1 := d.isLt
  have b2 := a.isLt
  have b3 := x.isLt
  have c0 := ofBool_lt n
  obtain ⟨eh, hlt, F⟩ := fields h (w := w) [(43, 6), (k.val, 3), (ofBool n, 1), (d.val, 5), (a.val, 5), (0, 5), (x.toNat, 2)] (by simp only [packF, widF]; omega) rfl ⟨by omega, by omega, by omega, by omega, by omega, by omega, by omega, trivial⟩
  have f0 : fld w 26 21 = 43 := F [] 43 5 [(k.val, 3), (ofBool n, 1), (d.val, 5), (a.val, 5), (0, 5), (x.toNat, 2)] rfl
  have f1 : fld w 20 18 = k.val := F [(43, 6)] (k.val) 2 [(ofBool n, 1), (d.val, 5), (a.val, 5), (0, 5), (x.toNat, 2)] rfl
  have f2 : fld w 17 17 = ofBool n := F [(43, 6), (k.val, 3)] (ofBool n) 0 [(d.val, 5), (a.val, 5), (0, 5), (x.toNat, 2)] rfl
  have f3 : fld w 16 12 = d.val := F [(43, 6), (k.val, 3), (ofBool n, 1)] (d.val) 4 [(a.val, 5), (0, 5), (x.toNat, 2)] rfl
  have f4 : fld w 11 7 = a.val := F [(43, 6), (k.val, 3), (ofBool n, 1), (d.val, 5)] (a.val) 4 [(0, 5), (x.toNat, 2)] rfl
  have f5 : fld w 6 2 = 0 := F [(43, 6), (k.val, 3), (ofBool n, 1), (d.val, 5), (a.val, 5)] 0 4 [(x.toNat, 2)] rfl
  have f6 : fld w 1 0 = x.toNat := F [(43, 6), (k.val, 3), (ofBool n, 1), (d.val, 5), (a.val, 5), (0, 5)] (x.toNat) 1 [] rfl
  refine ⟨hlt, fun e he => ?_⟩
  obtain rfl : e = .vec := by simpa [sectionsOf] using he
  refine decode_of_vec ?_ hf
  unfold rawVec
  rw [f0]
  dsimp only [cellVec]
  simp [eh, f1, f2, f3, f4, f5, f6, beq_ofBool]

theorem Laws.RoundTrip.vlog2 (h : Hdr) (k : Fin 8) (n : Bool) (d : Fin 32) (a : Fin 32) (x : BitVec 2) : Laws.RoundTrip.Statement (.vlog2 h k n d a x) := by
  intro w hw hf
  simp only [encode, encWord, Option.some.injEq] at hw
  have b0 := k.isLt
  have b1 := d.isLt
  have b2 := a.isLt
  have b3 := x.isLt
  have c0 := ofBool_lt n
  obtain ⟨eh, hlt, F⟩ := fields h (w := w) [(44, 6), (k.val, 3), (ofBool n, 1), (d.val, 5), (a.val, 5), (0, 5), (x.toNat, 2)] (by simp only [packF, widF]; omega) rfl ⟨by omega, by omega, by omega, by omega, by omega, by omega, by omega, trivial⟩
  have f0 : fld w 26 21 = 44 := F [] 44 5 [(k.val, 3), (ofBool n, 1), (d.val, 5), (a.val, 5), (0, 5), (x.toNat, 2)] rfl
  have f1 : fld w 20 18 = k.val := F [(44, 6)] (k.val) 2 [(ofBool n, 1), (d.val, 5), (a.val, 5), (0, 5), (x.toNat, 2)] rfl
  have f2 : fld w 17 17 = ofBool n := F [(44, 6), (k.val, 3)] (ofBool n) 0 [(d.val, 5), (a.val, 5), (0, 5), (x.toNat, 2)] rfl
  have f3 : fld w 16 12 = d.val := F [(44, 6), (k.val, 3), (ofBool n, 1)] (d.val) 4 [(a.val, 5), (0, 5), (x.toNat, 2)] rfl
  have f4 : fld w 11 7 = a.val := F [(44, 6), (k.val, 3), (ofBool n, 1), (d.val, 5)] (a.val) 4 [(0, 5), (x.toNat, 2)] rfl
  have f5 : fld w 6 2 = 0 := F [(44, 6), (k.val, 3), (ofBool n, 1), (d.val, 5), (a.val, 5)] 0 4 [(x.toNat, 2)] rfl
  have f6 : fld w 1 0 = x.toNat := F [(44, 6), (k.val, 3), (ofBool n, 1), (d.val, 5), (a.val, 5), (0, 5)] (x.toNat) 1 [] rfl
  refine ⟨hlt, fun e he => ?_⟩
  obtain rfl : e = .vec := by simpa [sectionsOf] using he
  refine decode_of_vec ?_ hf
  unfold rawVec
  rw [f0]
  dsimp only [cellVec]
  simp [eh, f1, f2, f3, f4, f5, f6, beq_ofBool]

theorem Laws.RoundTrip.vrcp (h : Hdr) (k : Fin 8) (n : Bool) (d : Fin 32) (a : Fin 32) (x : BitVec 2) : Laws.RoundTrip.Statement (.vrcp h k n d a x) := by
  intro w hw hf
  simp only [encode, encWord, Option.some.injEq] at hw
  have b0 := k.isLt
  have b1 := d.isLt
  have b2 := a.isLt
  have b3 := x.isLt
  have c0 := ofBool_lt n
  obtain ⟨eh, hlt, F⟩ := fields h (w := w) [(45, 6), (k.val, 3), (ofBool n, 1), (d.val, 5), (a.val, 5), (0, 5), (x.toNat, 2)] (by simp only [packF, widF]; omega) rfl ⟨by omega, by omega, by omega, by omega, by omega, by omega, by omega, trivial⟩
  have f0 : fld w 26 21 = 45 := F [] 45 5 [(k.val, 3), (ofBool n, 1), (d.val, 5), (a.val, 5), (0, 5), (x.toNat, 2)] rfl
  have f1 : fld w 20 18 = k.val := F [(45, 6)] (k.val) 2 [(ofBool n, 1), (d.val, 5), (a.val, 5), (0, 5), (x.toNat, 2)] rfl
  have f2 : fld w 17 17 = ofBool n := F [(45, 6), (k.val, 3)] (ofBool n) 0 [(d.val, 5), (a.val, 5), (0, 5), (x.toNat, 2)] rfl
  have f3 : fld w 16 12 = d.val := F [(45, 6), (k.val, 3), (ofBool n, 1)] (d.val) 4 [(a.val, 5), (0, 5), (x.toNat, 2)] rfl
  have f4 : fld w 11 7 = a.val := F [(45, 6), (k.val, 3), (ofBool n, 1), (d.val, 5)] (a.val) 4 [(0, 5), (x.toNat, 2)] rfl
  have f5 : fld w 6 2 = 0 := F [(45, 6), (k.val, 3), (ofBool n, 1), (d.val, 5), (a.val, 5)] 0 4 [(x.toNat, 2)] rfl
  have f6 : fld w 1 0 = x.toNat := F [(45, 6), (k.val, 3), (ofBool n, 1), (d.val, 5), (a.val, 5), (0, 5)] (x.toNat) 1 [] rfl
  refine ⟨hlt, fun e he => ?_⟩
  obtain rfl : e = .vec := by simpa [sectionsOf] using he
  refine decode_of_vec ?_ hf
  unfold rawVec
  rw [f0]
  dsimp only [cellVec]
  simp [eh, f1, f2, f3, f4, f5, f6, beq_ofBool]

theorem Laws.RoundTrip.vrsq (h : Hdr) (k : Fin 8) (n : Bool) (d : Fin 32) (a : Fin 32) (x : BitVec 2) : Laws.RoundTrip.Statement (.vrsq h k n d a x) := by
  intro w hw hf
  simp only [encode, encWord, Option.some.injEq] at hw
  have b0 := k.isLt
  have b1 := d.isLt
  have b2 := a.isLt
  have b3 := x.isLt
  have c0 := ofBool_lt n
  obtain ⟨eh, hlt, F⟩ := fields h (w := w) [(46, 6), (k.val, 3), (ofBool n, 1), (d.val, 5), (a.val, 5), (0, 5), (x.toNat, 2)] (by simp only [packF, widF]; omega) rfl ⟨by omega, by omega, by omega, by omega, by omega, by omega, by omega, trivial⟩
  have f0 : fld w 26 21 = 46 := F [] 46 5 [(k.val, 3), (ofBool n, 1), (d.val, 5), (a.val, 5), (0, 5), (x.toNat, 2)] rfl
  have f1 : fld w 20 18 = k.val := F [(46, 6)] (k.val) 2 [(ofBool n, 1), (d.val, 5), (a.val, 5), (0, 5), (x.toNat, 2)] rfl
  have f2 : fld w 17 17 = ofBool n := F [(46, 6), (k.val, 3)] (ofBool n) 0 [(d.val, 5), (a.val, 5), (0, 5), (x.toNat, 2)] rfl
  have f3 : fld w 16 12 = d.val := F [(46, 6), (k.val, 3), (ofBool n, 1)] (d.val) 4 [(a.val, 5), (0, 5), (x.toNat, 2)] rfl
  have f4 : fld w 11 7 = a.val := F [(46, 6), (k.val, 3), (ofBool n, 1), (d.val, 5)] (a.val) 4 [(0, 5), (x.toNat, 2)] rfl
  have f5 : fld w 6 2 = 0 := F [(46, 6), (k.val, 3), (ofBool n, 1), (d.val, 5), (a.val, 5)] 0 4 [(x.toNat, 2)] rfl
  have f6 : fld w 1 0 = x.toNat := F [(46, 6), (k.val, 3), (ofBool n, 1), (d.val, 5), (a.val, 5), (0, 5)] (x.toNat) 1 [] rfl
  refine ⟨hlt, fun e he => ?_⟩
  obtain rfl : e = .vec := by simpa [sectionsOf] using he
  refine decode_of_vec ?_ hf
  unfold rawVec
  rw [f0]
  dsimp only [cellVec]
  simp [eh, f1, f2, f3, f4, f5, f6, beq_ofBool]

theorem Laws.RoundTrip.vsin (h : Hdr) (k : Fin 8) (n : Bool) (d : Fin 32) (a : Fin 32) (x : BitVec 2) : Laws.RoundTrip.Statement (.vsin h k n d a x) := by
  intro w hw hf
  simp only [encode, encWord, Option.some.injEq] at hw
  have b0 := k.isLt
  have b1 := d.isLt
  have b2 := a.isLt
  have b3 := x.isLt
  have c0 := ofBool_lt n
  obtain ⟨eh, hlt, F⟩ := fields h (w := w) [(47, 6), (k.val, 3), (ofBool n, 1), (d.val, 5), (a.val, 5), (0, 5), (x.toNat, 2)] (by simp only [packF, widF]; omega) rfl ⟨by omega, by omega, by omega, by omega, by omega, by omega, by omega, trivial⟩
  have f0 : fld w 26 21 = 47 := F [] 47 5 [(k.val, 3), (ofBool n, 1), (d.val, 5), (a.val, 5), (0, 5), (x.toNat, 2)] rfl
  have f1 : fld w 20 18 = k.val := F [(47, 6)] (k.val) 2 [(ofBool n, 1), (d.val, 5), (a.val, 5), (0, 5), (x.toNat, 2)] rfl
  have f2 : fld w 17 17 = ofBool n := F [(47, 6), (k.val, 3)] (ofBool n) 0 [(d.val, 5), (a.val, 5), (0, 5), (x.toNat, 2)] rfl
  have f3 : fld w 16 12 = d.val := F [(47, 6), (k.val, 3), (ofBool n, 1)] (d.val) 4 [(a.val, 5), (0, 5), (x.toNat, 2)] rfl
  have f4 : fld w 11 7 = a.val := F [(47, 6), (k.val, 3), (ofBool n, 1), (d.val, 5)] (a.val) 4 [(0, 5), (x.toNat, 2)] rfl
  have f5 : fld w 6 2 = 0 := F [(47, 6), (k.val, 3), (ofBool n, 1), (d.val, 5), (a.val, 5)] 0 4 [(x.toNat, 2)] rfl
  have f6 : fld w 1 0 = x.toNat := F [(47, 6), (k.val, 3), (ofBool n, 1), (d.val, 5), (a.val, 5), (0, 5)] (x.toNat) 1 [] rfl
  refine ⟨hlt, fun e he => ?_⟩
  obtain rfl : e = .vec := by simpa [sectionsOf] using he
  refine decode_of_vec ?_ hf
  unfold rawVec
  rw [f0]
  dsimp only [cellVec]
  simp [eh, f1, f2, f3, f4, f5, f6, beq_ofBool]

theorem Laws.RoundTrip.vcos (h : Hdr) (k : Fin 8) (n : Bool) (d : Fin 32) (a : Fin 32) (x : BitVec 2) : Laws.RoundTrip.Statement (.vcos h k n d a x) := by
  intro w hw hf
  simp only [encode, encWord, Option.some.injEq] at hw
  have b0 := k.isLt
  have b1 := d.isLt
  have b2 := a.isLt
  have b3 := x.isLt
  have c0 := ofBool_lt n
  obtain ⟨eh, hlt, F⟩ := fields h (w := w) [(48, 6), (k.val, 3), (ofBool n, 1), (d.val, 5), (a.val, 5), (0, 5), (x.toNat, 2)] (by simp only [packF, widF]; omega) rfl ⟨by omega, by omega, by omega, by omega, by omega, by omega, by omega, trivial⟩
  have f0 : fld w 26 21 = 48 := F [] 48 5 [(k.val, 3), (ofBool n, 1), (d.val, 5), (a.val, 5), (0, 5), (x.toNat, 2)] rfl
  have f1 : fld w 20 18 = k.val := F [(48, 6)] (k.val) 2 [(ofBool n, 1), (d.val, 5), (a.val, 5), (0, 5), (x.toNat, 2)] rfl
  have f2 : fld w 17 17 = ofBool n := F [(48, 6), (k.val, 3)] (ofBool n) 0 [(d.val, 5), (a.val, 5), (0, 5), (x.toNat, 2)] rfl
  have f3 : fld w 16 12 = d.val := F [(48, 6), (k.val, 3), (ofBool n, 1)] (d.val) 4 [(a.val, 5), (0, 5), (x.toNat, 2)] rfl
  have f4 : fld w 11 7 = a.val := F [(48, 6), (k.val, 3), (ofBool n, 1), (d.val, 5)] (a.val) 4 [(0, 5), (x.toNat, 2)] rfl
  have f5 : fld w 6 2 = 0 := F [(48, 6), (k.val, 3), (ofBool n, 1), (d.val, 5), (a.val, 5)] 0 4 [(x.toNat, 2)] rfl
  have f6 : fld w 1 0 = x.toNat := F [(48, 6), (k.val, 3), (ofBool n, 1), (d.val, 5), (a.val, 5), (0, 5)] (x.toNat) 1 [] rfl
  refine ⟨hlt, fun e he => ?_⟩
  obtain rfl : e = .vec := by simpa [sectionsOf] using he
  refine decode_of_vec ?_ hf
  unfold rawVec
  rw [f0]
  dsimp only [cellVec]
  simp [eh, f1, f2, f3, f4, f5, f6, beq_ofBool]

theorem Laws.RoundTrip.vtanh (h : Hdr) (k : Fin 8) (n : Bool) (d : Fin 32) (a : Fin 32) (x : BitVec 2) : Laws.RoundTrip.Statement (.vtanh h k n d a x) := by
  intro w hw hf
  simp only [encode, encWord, Option.some.injEq] at hw
  have b0 := k.isLt
  have b1 := d.isLt
  have b2 := a.isLt
  have b3 := x.isLt
  have c0 := ofBool_lt n
  obtain ⟨eh, hlt, F⟩ := fields h (w := w) [(49, 6), (k.val, 3), (ofBool n, 1), (d.val, 5), (a.val, 5), (0, 5), (x.toNat, 2)] (by simp only [packF, widF]; omega) rfl ⟨by omega, by omega, by omega, by omega, by omega, by omega, by omega, trivial⟩
  have f0 : fld w 26 21 = 49 := F [] 49 5 [(k.val, 3), (ofBool n, 1), (d.val, 5), (a.val, 5), (0, 5), (x.toNat, 2)] rfl
  have f1 : fld w 20 18 = k.val := F [(49, 6)] (k.val) 2 [(ofBool n, 1), (d.val, 5), (a.val, 5), (0, 5), (x.toNat, 2)] rfl
  have f2 : fld w 17 17 = ofBool n := F [(49, 6), (k.val, 3)] (ofBool n) 0 [(d.val, 5), (a.val, 5), (0, 5), (x.toNat, 2)] rfl
  have f3 : fld w 16 12 = d.val := F [(49, 6), (k.val, 3), (ofBool n, 1)] (d.val) 4 [(a.val, 5), (0, 5), (x.toNat, 2)] rfl
  have f4 : fld w 11 7 = a.val := F [(49, 6), (k.val, 3), (ofBool n, 1), (d.val, 5)] (a.val) 4 [(0, 5), (x.toNat, 2)] rfl
  have f5 : fld w 6 2 = 0 := F [(49, 6), (k.val, 3), (ofBool n, 1), (d.val, 5), (a.val, 5)] 0 4 [(x.toNat, 2)] rfl
  have f6 : fld w 1 0 = x.toNat := F [(49, 6), (k.val, 3), (ofBool n, 1), (d.val, 5), (a.val, 5), (0, 5)] (x.toNat) 1 [] rfl
  refine ⟨hlt, fun e he => ?_⟩
  obtain rfl : e = .vec := by simpa [sectionsOf] using he
  refine decode_of_vec ?_ hf
  unfold rawVec
  rw [f0]
  dsimp only [cellVec]
  simp [eh, f1, f2, f3, f4, f5, f6, beq_ofBool]

theorem Laws.RoundTrip.verf (h : Hdr) (k : Fin 8) (n : Bool) (d : Fin 32) (a : Fin 32) (x : BitVec 2) : Laws.RoundTrip.Statement (.verf h k n d a x) := by
  intro w hw hf
  simp only [encode, encWord, Option.some.injEq] at hw
  have b0 := k.isLt
  have b1 := d.isLt
  have b2 := a.isLt
  have b3 := x.isLt
  have c0 := ofBool_lt n
  obtain ⟨eh, hlt, F⟩ := fields h (w := w) [(50, 6), (k.val, 3), (ofBool n, 1), (d.val, 5), (a.val, 5), (0, 5), (x.toNat, 2)] (by simp only [packF, widF]; omega) rfl ⟨by omega, by omega, by omega, by omega, by omega, by omega, by omega, trivial⟩
  have f0 : fld w 26 21 = 50 := F [] 50 5 [(k.val, 3), (ofBool n, 1), (d.val, 5), (a.val, 5), (0, 5), (x.toNat, 2)] rfl
  have f1 : fld w 20 18 = k.val := F [(50, 6)] (k.val) 2 [(ofBool n, 1), (d.val, 5), (a.val, 5), (0, 5), (x.toNat, 2)] rfl
  have f2 : fld w 17 17 = ofBool n := F [(50, 6), (k.val, 3)] (ofBool n) 0 [(d.val, 5), (a.val, 5), (0, 5), (x.toNat, 2)] rfl
  have f3 : fld w 16 12 = d.val := F [(50, 6), (k.val, 3), (ofBool n, 1)] (d.val) 4 [(a.val, 5), (0, 5), (x.toNat, 2)] rfl
  have f4 : fld w 11 7 = a.val := F [(50, 6), (k.val, 3), (ofBool n, 1), (d.val, 5)] (a.val) 4 [(0, 5), (x.toNat, 2)] rfl
  have f5 : fld w 6 2 = 0 := F [(50, 6), (k.val, 3), (ofBool n, 1), (d.val, 5), (a.val, 5)] 0 4 [(x.toNat, 2)] rfl
  have f6 : fld w 1 0 = x.toNat := F [(50, 6), (k.val, 3), (ofBool n, 1), (d.val, 5), (a.val, 5), (0, 5)] (x.toNat) 1 [] rfl
  refine ⟨hlt, fun e he => ?_⟩
  obtain rfl : e = .vec := by simpa [sectionsOf] using he
  refine decode_of_vec ?_ hf
  unfold rawVec
  rw [f0]
  dsimp only [cellVec]
  simp [eh, f1, f2, f3, f4, f5, f6, beq_ofBool]

theorem Laws.RoundTrip.vrmax (h : Hdr) (k : Fin 8) (n : Bool) (d : Fin 32) (a : Fin 32) (s : Bool) (x : BitVec 2) : Laws.RoundTrip.Statement (.vrmax h k n d a s x) := by
  intro w hw hf
  simp only [encode, encWord, Option.some.injEq] at hw
  have b0 := k.isLt
  have b1 := d.isLt
  have b2 := a.isLt
  have b3 := x.isLt
  have c0 := ofBool_lt n
  have c1 := ofBool_lt s
  obtain ⟨eh, hlt, F⟩ := fields h (w := w) [(51, 6), (k.val, 3), (ofBool n, 1), (d.val, 5), (a.val, 5), (0, 4), (ofBool s, 1), (x.toNat, 2)] (by simp only [packF, widF]; omega) rfl ⟨by omega, by omega, by omega, by omega, by omega, by omega, by omega, by omega, trivial⟩
  have f0 : fld w 26 21 = 51 := F [] 51 5 [(k.val, 3), (ofBool n, 1), (d.val, 5), (a.val, 5), (0, 4), (ofBool s, 1), (x.toNat, 2)] rfl
  have f1 : fld w 20 18 = k.val := F [(51, 6)] (k.val) 2 [(ofBool n, 1), (d.val, 5), (a.val, 5), (0, 4), (ofBool s, 1), (x.toNat, 2)] rfl
  have f2 : fld w 17 17 = ofBool n := F [(51, 6), (k.val, 3)] (ofBool n) 0 [(d.val, 5), (a.val, 5), (0, 4), (ofBool s, 1), (x.toNat, 2)] rfl
  have f3 : fld w 16 12 = d.val := F [(51, 6), (k.val, 3), (ofBool n, 1)] (d.val) 4 [(a.val, 5), (0, 4), (ofBool s, 1), (x.toNat, 2)] rfl
  have f4 : fld w 11 7 = a.val := F [(51, 6), (k.val, 3), (ofBool n, 1), (d.val, 5)] (a.val) 4 [(0, 4), (ofBool s, 1), (x.toNat, 2)] rfl
  have f5 : fld w 6 3 = 0 := F [(51, 6), (k.val, 3), (ofBool n, 1), (d.val, 5), (a.val, 5)] 0 3 [(ofBool s, 1), (x.toNat, 2)] rfl
  have f6 : fld w 2 2 = ofBool s := F [(51, 6), (k.val, 3), (ofBool n, 1), (d.val, 5), (a.val, 5), (0, 4)] (ofBool s) 0 [(x.toNat, 2)] rfl
  have f7 : fld w 1 0 = x.toNat := F [(51, 6), (k.val, 3), (ofBool n, 1), (d.val, 5), (a.val, 5), (0, 4), (ofBool s, 1)] (x.toNat) 1 [] rfl
  refine ⟨hlt, fun e he => ?_⟩
  obtain rfl : e = .vec := by simpa [sectionsOf] using he
  refine decode_of_vec ?_ hf
  unfold rawVec
  rw [f0]
  dsimp only [cellVec]
  simp [eh, f1, f2, f3, f4, f5, f6, f7, beq_ofBool]

theorem Laws.RoundTrip.vrmin (h : Hdr) (k : Fin 8) (n : Bool) (d : Fin 32) (a : Fin 32) (s : Bool) (x : BitVec 2) : Laws.RoundTrip.Statement (.vrmin h k n d a s x) := by
  intro w hw hf
  simp only [encode, encWord, Option.some.injEq] at hw
  have b0 := k.isLt
  have b1 := d.isLt
  have b2 := a.isLt
  have b3 := x.isLt
  have c0 := ofBool_lt n
  have c1 := ofBool_lt s
  obtain ⟨eh, hlt, F⟩ := fields h (w := w) [(52, 6), (k.val, 3), (ofBool n, 1), (d.val, 5), (a.val, 5), (0, 4), (ofBool s, 1), (x.toNat, 2)] (by simp only [packF, widF]; omega) rfl ⟨by omega, by omega, by omega, by omega, by omega, by omega, by omega, by omega, trivial⟩
  have f0 : fld w 26 21 = 52 := F [] 52 5 [(k.val, 3), (ofBool n, 1), (d.val, 5), (a.val, 5), (0, 4), (ofBool s, 1), (x.toNat, 2)] rfl
  have f1 : fld w 20 18 = k.val := F [(52, 6)] (k.val) 2 [(ofBool n, 1), (d.val, 5), (a.val, 5), (0, 4), (ofBool s, 1), (x.toNat, 2)] rfl
  have f2 : fld w 17 17 = ofBool n := F [(52, 6), (k.val, 3)] (ofBool n) 0 [(d.val, 5), (a.val, 5), (0, 4), (ofBool s, 1), (x.toNat, 2)] rfl
  have f3 : fld w 16 12 = d.val := F [(52, 6), (k.val, 3), (ofBool n, 1)] (d.val) 4 [(a.val, 5), (0, 4), (ofBool s, 1), (x.toNat, 2)] rfl
  have f4 : fld w 11 7 = a.val := F [(52, 6), (k.val, 3), (ofBool n, 1), (d.val, 5)] (a.val) 4 [(0, 4), (ofBool s, 1), (x.toNat, 2)] rfl
  have f5 : fld w 6 3 = 0 := F [(52, 6), (k.val, 3), (ofBool n, 1), (d.val, 5), (a.val, 5)] 0 3 [(ofBool s, 1), (x.toNat, 2)] rfl
  have f6 : fld w 2 2 = ofBool s := F [(52, 6), (k.val, 3), (ofBool n, 1), (d.val, 5), (a.val, 5), (0, 4)] (ofBool s) 0 [(x.toNat, 2)] rfl
  have f7 : fld w 1 0 = x.toNat := F [(52, 6), (k.val, 3), (ofBool n, 1), (d.val, 5), (a.val, 5), (0, 4), (ofBool s, 1)] (x.toNat) 1 [] rfl
  refine ⟨hlt, fun e he => ?_⟩
  obtain rfl : e = .vec := by simpa [sectionsOf] using he
  refine decode_of_vec ?_ hf
  unfold rawVec
  rw [f0]
  dsimp only [cellVec]
  simp [eh, f1, f2, f3, f4, f5, f6, f7, beq_ofBool]

theorem Laws.RoundTrip.vsumz (h : Hdr) (k : Fin 8) (n : Bool) (l : BitVec 5) (a : Fin 32) (e : Bool) (s : BitVec 2) (x : BitVec 2) : Laws.RoundTrip.Statement (.vsumz h k n l a e s x) := by
  intro w hw hf
  simp only [encode, encWord, Option.some.injEq] at hw
  have b0 := k.isLt
  have b1 := l.isLt
  have b2 := a.isLt
  have b3 := s.isLt
  have b4 := x.isLt
  have c0 := ofBool_lt n
  have c1 := ofBool_lt e
  obtain ⟨eh, hlt, F⟩ := fields h (w := w) [(53, 6), (k.val, 3), (ofBool n, 1), (l.toNat, 5), (a.val, 5), (0, 2), (ofBool e, 1), (s.toNat, 2), (x.toNat, 2)] (by simp only [packF, widF]; omega) rfl ⟨by omega, by omega, by omega, by omega, by omega, by omega, by omega, by omega, by omega, trivial⟩
  have f0 : fld w 26 21 = 53 := F [] 53 5 [(k.val, 3), (ofBool n, 1), (l.toNat, 5), (a.val, 5), (0, 2), (ofBool e, 1), (s.toNat, 2), (x.toNat, 2)] rfl
  have f1 : fld w 20 18 = k.val := F [(53, 6)] (k.val) 2 [(ofBool n, 1), (l.toNat, 5), (a.val, 5), (0, 2), (ofBool e, 1), (s.toNat, 2), (x.toNat, 2)] rfl
  have f2 : fld w 17 17 = ofBool n := F [(53, 6), (k.val, 3)] (ofBool n) 0 [(l.toNat, 5), (a.val, 5), (0, 2), (ofBool e, 1), (s.toNat, 2), (x.toNat, 2)] rfl
  have f3 : fld w 16 12 = l.toNat := F [(53, 6), (k.val, 3), (ofBool n, 1)] (l.toNat) 4 [(a.val, 5), (0, 2), (ofBool e, 1), (s.toNat, 2), (x.toNat, 2)] rfl
  have f4 : fld w 11 7 = a.val := F [(53, 6), (k.val, 3), (ofBool n, 1), (l.toNat, 5)] (a.val) 4 [(0, 2), (ofBool e, 1), (s.toNat, 2), (x.toNat, 2)] rfl
  have f5 : fld w 6 5 = 0 := F [(53, 6), (k.val, 3), (ofBool n, 1), (l.toNat, 5), (a.val, 5)] 0 1 [(ofBool e, 1), (s.toNat, 2), (x.toNat, 2)] rfl
  have f6 : fld w 4 4 = ofBool e := F [(53, 6), (k.val, 3), (ofBool n, 1), (l.toNat, 5), (a.val, 5), (0, 2)] (ofBool e) 0 [(s.toNat, 2), (x.toNat, 2)] rfl
  have f7 : fld w 3 2 = s.toNat := F [(53, 6), (k.val, 3), (ofBool n, 1), (l.toNat, 5), (a.val, 5), (0, 2), (ofBool e, 1)] (s.toNat) 1 [(x.toNat, 2)] rfl
  have f8 : fld w 1 0 = x.toNat := F [(53, 6), (k.val, 3), (ofBool n, 1), (l.toNat, 5), (a.val, 5), (0, 2), (ofBool e, 1), (s.toNat, 2)] (x.toNat) 1 [] rfl
  refine ⟨hlt, fun e he => ?_⟩
  obtain rfl : e = .vec := by simpa [sectionsOf] using he
  refine decode_of_vec ?_ hf
  unfold rawVec
  rw [f0]
  dsimp only [cellVec]
  simp [eh, f1, f2, f3, f4, f5, f6, f7, f8, beq_ofBool]

theorem Laws.RoundTrip.vshape (h : Hdr) (a : Fin 32) (x : BitVec 2) : Laws.RoundTrip.Statement (.vshape h a x) := by
  intro w hw hf
  simp only [encode, encWord, Option.some.injEq] at hw
  have b0 := a.isLt
  have b1 := x.isLt
  obtain ⟨eh, hlt, F⟩ := fields h (w := w) [(54, 6), (0, 9), (a.val, 5), (0, 5), (x.toNat, 2)] (by simp only [packF, widF]; omega) rfl ⟨by omega, by omega, by omega, by omega, by omega, trivial⟩
  have f0 : fld w 26 21 = 54 := F [] 54 5 [(0, 9), (a.val, 5), (0, 5), (x.toNat, 2)] rfl
  have f1 : fld w 20 12 = 0 := F [(54, 6)] 0 8 [(a.val, 5), (0, 5), (x.toNat, 2)] rfl
  have f2 : fld w 11 7 = a.val := F [(54, 6), (0, 9)] (a.val) 4 [(0, 5), (x.toNat, 2)] rfl
  have f3 : fld w 6 2 = 0 := F [(54, 6), (0, 9), (a.val, 5)] 0 4 [(x.toNat, 2)] rfl
  have f4 : fld w 1 0 = x.toNat := F [(54, 6), (0, 9), (a.val, 5), (0, 5)] (x.toNat) 1 [] rfl
  refine ⟨hlt, fun e he => ?_⟩
  obtain rfl : e = .vec := by simpa [sectionsOf] using he
  refine decode_of_vec ?_ hf
  unfold rawVec
  rw [f0]
  dsimp only [cellVec]
  simp [eh, f1, f2, f3, f4]

theorem Laws.RoundTrip.vtrn (h : Hdr) (d : Fin 32) (a : Fin 32) (x : BitVec 2) : Laws.RoundTrip.Statement (.vtrn h d a x) := by
  intro w hw hf
  simp only [encode, encWord, Option.some.injEq] at hw
  have b0 := d.isLt
  have b1 := a.isLt
  have b2 := x.isLt
  obtain ⟨eh, hlt, F⟩ := fields h (w := w) [(55, 6), (0, 4), (d.val, 5), (a.val, 5), (0, 5), (x.toNat, 2)] (by simp only [packF, widF]; omega) rfl ⟨by omega, by omega, by omega, by omega, by omega, by omega, trivial⟩
  have f0 : fld w 26 21 = 55 := F [] 55 5 [(0, 4), (d.val, 5), (a.val, 5), (0, 5), (x.toNat, 2)] rfl
  have f1 : fld w 20 17 = 0 := F [(55, 6)] 0 3 [(d.val, 5), (a.val, 5), (0, 5), (x.toNat, 2)] rfl
  have f2 : fld w 16 12 = d.val := F [(55, 6), (0, 4)] (d.val) 4 [(a.val, 5), (0, 5), (x.toNat, 2)] rfl
  have f3 : fld w 11 7 = a.val := F [(55, 6), (0, 4), (d.val, 5)] (a.val) 4 [(0, 5), (x.toNat, 2)] rfl
  have f4 : fld w 6 2 = 0 := F [(55, 6), (0, 4), (d.val, 5), (a.val, 5)] 0 4 [(x.toNat, 2)] rfl
  have f5 : fld w 1 0 = x.toNat := F [(55, 6), (0, 4), (d.val, 5), (a.val, 5), (0, 5)] (x.toNat) 1 [] rfl
  refine ⟨hlt, fun e he => ?_⟩
  obtain rfl : e = .vec := by simpa [sectionsOf] using he
  refine decode_of_vec ?_ hf
  unfold rawVec
  rw [f0]
  dsimp only [cellVec]
  simp [eh, f1, f2, f3, f4, f5]

theorem Laws.RoundTrip.vshuf (h : Hdr) (k : Fin 8) (n : Bool) (d : Fin 32) (a : Fin 32) (b : Fin 32) (x : BitVec 2) : Laws.RoundTrip.Statement (.vshuf h k n d a b x) := by
  intro w hw hf
  simp only [encode, encWord, Option.some.injEq] at hw
  have b0 := k.isLt
  have b1 := d.isLt
  have b2 := a.isLt
  have b3 := b.isLt
  have b4 := x.isLt
  have c0 := ofBool_lt n
  obtain ⟨eh, hlt, F⟩ := fields h (w := w) [(56, 6), (k.val, 3), (ofBool n, 1), (d.val, 5), (a.val, 5), (b.val, 5), (x.toNat, 2)] (by simp only [packF, widF]; omega) rfl ⟨by omega, by omega, by omega, by omega, by omega, by omega, by omega, trivial⟩
  have f0 : fld w 26 21 = 56 := F [] 56 5 [(k.val, 3), (ofBool n, 1), (d.val, 5), (a.val, 5), (b.val, 5), (x.toNat, 2)] rfl
  have f1 : fld w 20 18 = k.val := F [(56, 6)] (k.val) 2 [(ofBool n, 1), (d.val, 5), (a.val, 5), (b.val, 5), (x.toNat, 2)] rfl
  have f2 : fld w 17 17 = ofBool n := F [(56, 6), (k.val, 3)] (ofBool n) 0 [(d.val, 5), (a.val, 5), (b.val, 5), (x.toNat, 2)] rfl
  have f3 : fld w 16 12 = d.val := F [(56, 6), (k.val, 3), (ofBool n, 1)] (d.val) 4 [(a.val, 5), (b.val, 5), (x.toNat, 2)] rfl
  have f4 : fld w 11 7 = a.val := F [(56, 6), (k.val, 3), (ofBool n, 1), (d.val, 5)] (a.val) 4 [(b.val, 5), (x.toNat, 2)] rfl
  have f5 : fld w 6 2 = b.val := F [(56, 6), (k.val, 3), (ofBool n, 1), (d.val, 5), (a.val, 5)] (b.val) 4 [(x.toNat, 2)] rfl
  have f6 : fld w 1 0 = x.toNat := F [(56, 6), (k.val, 3), (ofBool n, 1), (d.val, 5), (a.val, 5), (b.val, 5)] (x.toNat) 1 [] rfl
  refine ⟨hlt, fun e he => ?_⟩
  obtain rfl : e = .vec := by simpa [sectionsOf] using he
  refine decode_of_vec ?_ hf
  unfold rawVec
  rw [f0]
  dsimp only [cellVec]
  simp [eh, f1, f2, f3, f4, f5, f6, beq_ofBool]

theorem Laws.RoundTrip.vrot (h : Hdr) (k : Fin 8) (n : Bool) (d : Fin 32) (a : Fin 32) (b : Fin 32) (x : BitVec 2) : Laws.RoundTrip.Statement (.vrot h k n d a b x) := by
  intro w hw hf
  simp only [encode, encWord, Option.some.injEq] at hw
  have b0 := k.isLt
  have b1 := d.isLt
  have b2 := a.isLt
  have b3 := b.isLt
  have b4 := x.isLt
  have c0 := ofBool_lt n
  obtain ⟨eh, hlt, F⟩ := fields h (w := w) [(57, 6), (k.val, 3), (ofBool n, 1), (d.val, 5), (a.val, 5), (b.val, 5), (x.toNat, 2)] (by simp only [packF, widF]; omega) rfl ⟨by omega, by omega, by omega, by omega, by omega, by omega, by omega, trivial⟩
  have f0 : fld w 26 21 = 57 := F [] 57 5 [(k.val, 3), (ofBool n, 1), (d.val, 5), (a.val, 5), (b.val, 5), (x.toNat, 2)] rfl
  have f1 : fld w 20 18 = k.val := F [(57, 6)] (k.val) 2 [(ofBool n, 1), (d.val, 5), (a.val, 5), (b.val, 5), (x.toNat, 2)] rfl
  have f2 : fld w 17 17 = ofBool n := F [(57, 6), (k.val, 3)] (ofBool n) 0 [(d.val, 5), (a.val, 5), (b.val, 5), (x.toNat, 2)] rfl
  have f3 : fld w 16 12 = d.val := F [(57, 6), (k.val, 3), (ofBool n, 1)] (d.val) 4 [(a.val, 5), (b.val, 5), (x.toNat, 2)] rfl
  have f4 : fld w 11 7 = a.val := F [(57, 6), (k.val, 3), (ofBool n, 1), (d.val, 5)] (a.val) 4 [(b.val, 5), (x.toNat, 2)] rfl
  have f5 : fld w 6 2 = b.val := F [(57, 6), (k.val, 3), (ofBool n, 1), (d.val, 5), (a.val, 5)] (b.val) 4 [(x.toNat, 2)] rfl
  have f6 : fld w 1 0 = x.toNat := F [(57, 6), (k.val, 3), (ofBool n, 1), (d.val, 5), (a.val, 5), (b.val, 5)] (x.toNat) 1 [] rfl
  refine ⟨hlt, fun e he => ?_⟩
  obtain rfl : e = .vec := by simpa [sectionsOf] using he
  refine decode_of_vec ?_ hf
  unfold rawVec
  rw [f0]
  dsimp only [cellVec]
  simp [eh, f1, f2, f3, f4, f5, f6, beq_ofBool]

theorem Laws.RoundTrip.vld (h : Hdr) (k : Fin 8) (n : Bool) (d : Fin 32) (x : BitVec 2) : Laws.RoundTrip.Statement (.vld h k n d x) := by
  intro w hw hf
  simp only [encode, encWord, Option.some.injEq] at hw
  have b0 := k.isLt
  have b1 := d.isLt
  have b2 := x.isLt
  have c0 := ofBool_lt n
  obtain ⟨eh, hlt, F⟩ := fields h (w := w) [(58, 6), (k.val, 3), (ofBool n, 1), (d.val, 5), (0, 10), (x.toNat, 2)] (by simp only [packF, widF]; omega) rfl ⟨by omega, by omega, by omega, by omega, by omega, by omega, trivial⟩
  have f0 : fld w 26 21 = 58 := F [] 58 5 [(k.val, 3), (ofBool n, 1), (d.val, 5), (0, 10), (x.toNat, 2)] rfl
  have f1 : fld w 20 18 = k.val := F [(58, 6)] (k.val) 2 [(ofBool n, 1), (d.val, 5), (0, 10), (x.toNat, 2)] rfl
  have f2 : fld w 17 17 = ofBool n := F [(58, 6), (k.val, 3)] (ofBool n) 0 [(d.val, 5), (0, 10), (x.toNat, 2)] rfl
  have f3 : fld w 16 12 = d.val := F [(58, 6), (k.val, 3), (ofBool n, 1)] (d.val) 4 [(0, 10), (x.toNat, 2)] rfl
  have f4 : fld w 11 2 = 0 := F [(58, 6), (k.val, 3), (ofBool n, 1), (d.val, 5)] 0 9 [(x.toNat, 2)] rfl
  have f5 : fld w 1 0 = x.toNat := F [(58, 6), (k.val, 3), (ofBool n, 1), (d.val, 5), (0, 10)] (x.toNat) 1 [] rfl
  refine ⟨hlt, fun e he => ?_⟩
  obtain rfl : e = .vec := by simpa [sectionsOf] using he
  refine decode_of_vec ?_ hf
  unfold rawVec
  rw [f0]
  dsimp only [cellVec]
  simp [eh, f1, f2, f3, f4, f5, beq_ofBool]

theorem Laws.RoundTrip.vst (h : Hdr) (k : Fin 8) (n : Bool) (a : Fin 32) (x : BitVec 2) : Laws.RoundTrip.Statement (.vst h k n a x) := by
  intro w hw hf
  simp only [encode, encWord, Option.some.injEq] at hw
  have b0 := k.isLt
  have b1 := a.isLt
  have b2 := x.isLt
  have c0 := ofBool_lt n
  obtain ⟨eh, hlt, F⟩ := fields h (w := w) [(59, 6), (k.val, 3), (ofBool n, 1), (0, 5), (a.val, 5), (0, 5), (x.toNat, 2)] (by simp only [packF, widF]; omega) rfl ⟨by omega, by omega, by omega, by omega, by omega, by omega, by omega, trivial⟩
  have f0 : fld w 26 21 = 59 := F [] 59 5 [(k.val, 3), (ofBool n, 1), (0, 5), (a.val, 5), (0, 5), (x.toNat, 2)] rfl
  have f1 : fld w 20 18 = k.val := F [(59, 6)] (k.val) 2 [(ofBool n, 1), (0, 5), (a.val, 5), (0, 5), (x.toNat, 2)] rfl
  have f2 : fld w 17 17 = ofBool n := F [(59, 6), (k.val, 3)] (ofBool n) 0 [(0, 5), (a.val, 5), (0, 5), (x.toNat, 2)] rfl
  have f3 : fld w 16 12 = 0 := F [(59, 6), (k.val, 3), (ofBool n, 1)] 0 4 [(a.val, 5), (0, 5), (x.toNat, 2)] rfl
  have f4 : fld w 11 7 = a.val := F [(59, 6), (k.val, 3), (ofBool n, 1), (0, 5)] (a.val) 4 [(0, 5), (x.toNat, 2)] rfl
  have f5 : fld w 6 2 = 0 := F [(59, 6), (k.val, 3), (ofBool n, 1), (0, 5), (a.val, 5)] 0 4 [(x.toNat, 2)] rfl
  have f6 : fld w 1 0 = x.toNat := F [(59, 6), (k.val, 3), (ofBool n, 1), (0, 5), (a.val, 5), (0, 5)] (x.toNat) 1 [] rfl
  refine ⟨hlt, fun e he => ?_⟩
  obtain rfl : e = .vec := by simpa [sectionsOf] using he
  refine decode_of_vec ?_ hf
  unfold rawVec
  rw [f0]
  dsimp only [cellVec]
  simp [eh, f1, f2, f3, f4, f5, f6, beq_ofBool]

theorem Laws.RoundTrip.vstat (h : Hdr) (d : Fin 32) (x : BitVec 2) : Laws.RoundTrip.Statement (.vstat h d x) := by
  intro w hw hf
  simp only [encode, encWord, Option.some.injEq] at hw
  have b0 := d.isLt
  have b1 := x.isLt
  obtain ⟨eh, hlt, F⟩ := fields h (w := w) [(60, 6), (0, 4), (d.val, 5), (0, 10), (x.toNat, 2)] (by simp only [packF, widF]; omega) rfl ⟨by omega, by omega, by omega, by omega, by omega, trivial⟩
  have f0 : fld w 26 21 = 60 := F [] 60 5 [(0, 4), (d.val, 5), (0, 10), (x.toNat, 2)] rfl
  have f1 : fld w 20 17 = 0 := F [(60, 6)] 0 3 [(d.val, 5), (0, 10), (x.toNat, 2)] rfl
  have f2 : fld w 16 12 = d.val := F [(60, 6), (0, 4)] (d.val) 4 [(0, 10), (x.toNat, 2)] rfl
  have f3 : fld w 11 2 = 0 := F [(60, 6), (0, 4), (d.val, 5)] 0 9 [(x.toNat, 2)] rfl
  have f4 : fld w 1 0 = x.toNat := F [(60, 6), (0, 4), (d.val, 5), (0, 10)] (x.toNat) 1 [] rfl
  refine ⟨hlt, fun e he => ?_⟩
  obtain rfl : e = .vec := by simpa [sectionsOf] using he
  refine decode_of_vec ?_ hf
  unfold rawVec
  rw [f0]
  dsimp only [cellVec]
  simp [eh, f1, f2, f3, f4]

theorem Laws.RoundTrip.pendOnErrors (col : CoreIx) (bank : Fin 32) : Laws.RoundTrip.Statement (.pendOnErrors col bank) := fun _ h => nomatch h

theorem Laws.RoundTrip.pendOnHeat (col : CoreIx) (layer : Fin 4) : Laws.RoundTrip.Statement (.pendOnHeat col layer) := fun _ h => nomatch h

theorem Laws.RoundTrip.uncorrectableDramError (col : CoreIx) (bank : Fin 32) : Laws.RoundTrip.Statement (.uncorrectableDramError col bank) := fun _ h => nomatch h

theorem Laws.RoundTrip.powerWindow (meanWatts : Nat) : Laws.RoundTrip.Statement (.powerWindow meanWatts) := fun _ h => nomatch h

theorem Laws.RoundTrip.refreshSlotStart (col : CoreIx) (bank : Fin 32) : Laws.RoundTrip.Statement (.refreshSlotStart col bank) := fun _ h => nomatch h

theorem Laws.RoundTrip.rowOpenTooLong (col : CoreIx) (bank : Fin 32) (tAct : Nat) : Laws.RoundTrip.Statement (.rowOpenTooLong col bank tAct) := fun _ h => nomatch h

theorem Laws.RoundTrip.hostMemoryRequest (fn : Fn) (off : Nat) (n : Nat) (kind : ReqKind) (tag : Nat) : Laws.RoundTrip.Statement (.hostMemoryRequest fn off n kind tag) := fun _ h => nomatch h

theorem Laws.RoundTrip.hostAtomicop (fn : Fn) (bar : Bar) (off : Nat) (n : Nat) (op : AtomFn) (b : Nat) (e : Nat) (tag : Nat) : Laws.RoundTrip.Statement (.hostAtomicop fn bar off n op b e tag) := fun _ h => nomatch h

theorem Laws.RoundTrip.portUp (port : Fin 48) (rx tx : BitVec 32) (peer : Option (BitVec 12)) : Laws.RoundTrip.Statement (.portUp port rx tx peer) := fun _ h => nomatch h

theorem Laws.RoundTrip.hello (l : LinkIx) (port : Fin 48) (fabid : BitVec 12) : Laws.RoundTrip.Statement (.hello l port fabid) := fun _ h => nomatch h

theorem Laws.RoundTrip.peerTlpArrival (l : LinkIx) (port : Fin 48) (seq : BitVec 16) (tlp : Tlp) : Laws.RoundTrip.Statement (.peerTlpArrival l port seq tlp) := fun _ h => nomatch h

theorem Laws.RoundTrip.stage (n : Fin 64) (v : BitVec 32) : Laws.RoundTrip.Statement (.stage n v) := fun _ h => nomatch h

theorem Laws.RoundTrip.tkgive (l : LinkIx) (core : BitVec 9) (j : Fin 4) (c : BitVec 8) : Laws.RoundTrip.Statement (.tkgive l core j c) := fun _ h => nomatch h

theorem Laws.RoundTrip.fixarr (src : FixPeer) (p : PartIx) (leg : BitVec 16) (stage : BitVec 6) (cnt : BitVec 32) : Laws.RoundTrip.Statement (.fixarr src p leg stage cnt) := fun _ h => nomatch h

theorem Laws.RoundTrip.fixrel (src : FixPeer) (p : PartIx) (leg : BitVec 16) (course : BitVec 3) : Laws.RoundTrip.Statement (.fixrel src p leg course) := fun _ h => nomatch h

theorem Laws.RoundTrip.stop (l : LinkIx) (ident : BitVec 24) (cause : BitVec 8) : Laws.RoundTrip.Statement (.stop l ident cause) := fun _ h => nomatch h

theorem Laws.RoundTrip.stopDelayedSend (ident : BitVec 24) (cause : BitVec 8) (p : PartIx) : Laws.RoundTrip.Statement (.stopDelayedSend ident cause p) := fun _ h => nomatch h

theorem Laws.RoundTrip.completionTimeout (id : Nat) : Laws.RoundTrip.Statement (.completionTimeout id) := fun _ h => nomatch h

theorem Laws.RoundTrip.completionArrival (id : Nat) (status : CplStatus) (bytes : List Byte) : Laws.RoundTrip.Statement (.completionArrival id status bytes) := fun _ h => nomatch h

theorem Laws.RoundTrip.ideIntegrityFailure (port : PortRef) : Laws.RoundTrip.Statement (.ideIntegrityFailure port) := fun _ h => nomatch h

theorem Laws.RoundTrip.counterLowRead (port : PortRef) (rx : Bool) : Laws.RoundTrip.Statement (.counterLowRead port rx) := fun _ h => nomatch h

theorem Laws.RoundTrip.keySlotWrite (j : SlotIx) (dw : Fin 8) (v : BitVec 64) : Laws.RoundTrip.Statement (.keySlotWrite j dw v) := fun _ h => nomatch h

theorem Laws.RoundTrip.keySlotWriteApply (j : SlotIx) : Laws.RoundTrip.Statement (.keySlotWriteApply j) := fun _ h => nomatch h

theorem Laws.RoundTrip.launchGo (p : PartIx) (tag : BitVec 8) : Laws.RoundTrip.Statement (.launchGo p tag) := fun _ h => nomatch h

theorem Laws.RoundTrip.abort (p : PartIx) (tag : BitVec 8) : Laws.RoundTrip.Statement (.abort p tag) := fun _ h => nomatch h

theorem Laws.RoundTrip.launchCheck (p : PartIx) (slot : SlotIx) : Laws.RoundTrip.Statement (.launchCheck p slot) := fun _ h => nomatch h

theorem Laws.RoundTrip.overlayLoad (p : PartIx) (slot : SlotIx) : Laws.RoundTrip.Statement (.overlayLoad p slot) := fun _ h => nomatch h

theorem Laws.RoundTrip.contextStart (p : PartIx) (slot : SlotIx) : Laws.RoundTrip.Statement (.contextStart p slot) := fun _ h => nomatch h

theorem Laws.RoundTrip.spdmChallenge (nonce : Nat) : Laws.RoundTrip.Statement (.spdmChallenge nonce) := fun _ h => nomatch h

theorem Laws.RoundTrip.spdmGetMeasurements (index : Nat) (signed : Bool) : Laws.RoundTrip.Statement (.spdmGetMeasurements index signed) := fun _ h => nomatch h

theorem Laws.RoundTrip.rwinWrite (core : CoreIx) (win : Fin 4) (hi : Bool) (v : BitVec 64) : Laws.RoundTrip.Statement (.rwinWrite core win hi v) := fun _ h => nomatch h

theorem Laws.RoundTrip.rwinApply (core : CoreIx) (win : Fin 4) (hi : Bool) (v : BitVec 64) : Laws.RoundTrip.Statement (.rwinApply core win hi v) := fun _ h => nomatch h

theorem Laws.RoundTrip.pageWalk (id : Nat) : Laws.RoundTrip.Statement (.pageWalk id) := fun _ h => nomatch h

theorem Laws.RoundTrip.accessResponse (id : Nat) : Laws.RoundTrip.Statement (.accessResponse id) := fun _ h => nomatch h

theorem Laws.RoundTrip.refusalRetry (id : Nat) : Laws.RoundTrip.Statement (.refusalRetry id) := fun _ h => nomatch h

theorem Laws.RoundTrip.fqheadWrite (p : PartIx) (v : BitVec 32) : Laws.RoundTrip.Statement (.fqheadWrite p v) := fun _ h => nomatch h

theorem Laws.RoundTrip.mgcqheadWrite (v : BitVec 32) : Laws.RoundTrip.Statement (.mgcqheadWrite v) := fun _ h => nomatch h

theorem Laws.RoundTrip.atsInvalidation (addr : Nat) (n : Nat) : Laws.RoundTrip.Statement (.atsInvalidation addr n) := fun _ h => nomatch h

theorem Laws.RoundTrip.peerRequest (l : LinkIx) (q : Nat) (ia : Nat) (n : Nat) (kind : ReqKind) (tag : Nat) : Laws.RoundTrip.Statement (.peerRequest l q ia n kind tag) := fun _ h => nomatch h

theorem Laws.RoundTrip.dueCycleMiss (core : CoreIx) (leg : BitVec 16) : Laws.RoundTrip.Statement (.dueCycleMiss core leg) := fun _ h => nomatch h

theorem Laws.RoundTrip.fixComplete (p : PartIx) (grp : GroupIx) : Laws.RoundTrip.Statement (.fixComplete p grp) := fun _ h => nomatch h

theorem Laws.RoundTrip.fixRelease (p : PartIx) (grp : GroupIx) : Laws.RoundTrip.Statement (.fixRelease p grp) := fun _ h => nomatch h

theorem Laws.RoundTrip.resumeFix (p : PartIx) (grp : GroupIx) : Laws.RoundTrip.Statement (.resumeFix p grp) := fun _ h => nomatch h

theorem Laws.RoundTrip.rowReactivation (col : CoreIx) (bank : Fin 32) (row : BitVec 11) : Laws.RoundTrip.Statement (.rowReactivation col bank row) := fun _ h => nomatch h

theorem Laws.RoundTrip.lookoutT1 (core : CoreIx) (eng : Eng) : Laws.RoundTrip.Statement (.lookoutT1 core eng) := fun _ h => nomatch h

theorem Laws.RoundTrip.lookoutT2 (core : CoreIx) (eng : Eng) : Laws.RoundTrip.Statement (.lookoutT2 core eng) := fun _ h => nomatch h

theorem Laws.RoundTrip.lookoutT3 (core : CoreIx) (eng : Eng) : Laws.RoundTrip.Statement (.lookoutT3 core eng) := fun _ h => nomatch h

theorem Laws.RoundTrip.scanAddressWrite (addr : BitVec 32) : Laws.RoundTrip.Statement (.scanAddressWrite addr) := fun _ h => nomatch h

theorem Laws.RoundTrip.checkpointRequest (p : PartIx) (leg : BitVec 16) : Laws.RoundTrip.Statement (.checkpointRequest p leg) := fun _ h => nomatch h

theorem Laws.RoundTrip.registerWrite (fn : Fn) (bar : Bar) (off : Nat) (n : Nat) (v : Nat) : Laws.RoundTrip.Statement (.registerWrite fn bar off n v) := fun _ h => nomatch h

theorem Laws.RoundTrip.wordRetire (core : CoreIx) (id : Nat) : Laws.RoundTrip.Statement (.wordRetire core id) := fun _ h => nomatch h

theorem Laws.RoundTrip.rowBeatFailure (col : CoreIx) (beat : Fin 32) : Laws.RoundTrip.Statement (.rowBeatFailure col beat) := fun _ h => nomatch h

theorem Laws.RoundTrip.commandEntry (core : CoreIx) (id : Nat) : Laws.RoundTrip.Statement (.commandEntry core id) := fun _ h => nomatch h

theorem Laws.RoundTrip.sectorDone (core : CoreIx) (cmd : BitVec 16) (sector : Nat) : Laws.RoundTrip.Statement (.sectorDone core cmd sector) := fun _ h => nomatch h

theorem Laws.RoundTrip.commandComplete (core : CoreIx) (cmd : BitVec 16) : Laws.RoundTrip.Statement (.commandComplete core cmd) := fun _ h => nomatch h

theorem Laws.RoundTrip.unassignedEncoding (h : Hdr) : Laws.RoundTrip.Statement (.unassignedEncoding h) := fun _ h => nomatch h

theorem Laws.RoundTrip.prechargeComplete (col : CoreIx) (bank : Fin 32) : Laws.RoundTrip.Statement (.prechargeComplete col bank) := fun _ h => nomatch h

theorem Laws.RoundTrip.rowBeatDelivery (col : CoreIx) (beat : Fin 32) : Laws.RoundTrip.Statement (.rowBeatDelivery col beat) := fun _ h => nomatch h

theorem Laws.RoundTrip.hostLinkUp (how : Training) : Laws.RoundTrip.Statement (.hostLinkUp how) := fun _ h => nomatch h

theorem Laws.RoundTrip.flitReplay (port : PortRef) (corrected : Bool) : Laws.RoundTrip.Statement (.flitReplay port corrected) := fun _ h => nomatch h

theorem Laws.RoundTrip.hostConfigurationRequest (fn : Fn) (op : CfgOp) : Laws.RoundTrip.Statement (.hostConfigurationRequest fn op) := fun _ h => nomatch h

theorem Laws.RoundTrip.stopRecordRefusalTimeout (p : PartIx) (core : CoreIx) (eng : Fin 8) : Laws.RoundTrip.Statement (.stopRecordRefusalTimeout p core eng) := fun _ h => nomatch h

theorem Laws.RoundTrip.coldReset  : Laws.RoundTrip.Statement (.coldReset) := fun _ h => nomatch h

theorem Laws.RoundTrip.bootComplete  : Laws.RoundTrip.Statement (.bootComplete) := fun _ h => nomatch h

theorem Laws.RoundTrip.warmReset  : Laws.RoundTrip.Statement (.warmReset) := fun _ h => nomatch h

theorem Laws.RoundTrip.partitionReset  : Laws.RoundTrip.Statement (.partitionReset) := fun _ h => nomatch h

theorem Laws.RoundTrip.powerLoss  : Laws.RoundTrip.Statement (.powerLoss) := fun _ h => nomatch h

theorem Laws.RoundTrip.thermalEmergency  : Laws.RoundTrip.Statement (.thermalEmergency) := fun _ h => nomatch h

theorem Laws.RoundTrip.supplyEmergency  : Laws.RoundTrip.Statement (.supplyEmergency) := fun _ h => nomatch h

theorem Laws.RoundTrip.quiesce  : Laws.RoundTrip.Statement (.quiesce) := fun _ h => nomatch h

theorem Laws.RoundTrip.commit  : Laws.RoundTrip.Statement (.commit) := fun _ h => nomatch h

theorem Laws.RoundTrip.surveyCommandDone  : Laws.RoundTrip.Statement (.surveyCommandDone) := fun _ h => nomatch h

theorem Laws.RoundTrip.hotonCrossing  : Laws.RoundTrip.Statement (.hotonCrossing) := fun _ h => nomatch h

theorem Laws.RoundTrip.hotoffCrossing  : Laws.RoundTrip.Statement (.hotoffCrossing) := fun _ h => nomatch h

theorem Laws.RoundTrip.refreshPeriodChange  : Laws.RoundTrip.Statement (.refreshPeriodChange) := fun _ h => nomatch h

theorem Laws.RoundTrip.refreshDeadline  : Laws.RoundTrip.Statement (.refreshDeadline) := fun _ h => nomatch h

theorem Laws.RoundTrip.hostVendorMessage  : Laws.RoundTrip.Statement (.hostVendorMessage) := fun _ h => nomatch h

theorem Laws.RoundTrip.hostLinkDown  : Laws.RoundTrip.Statement (.hostLinkDown) := fun _ h => nomatch h

theorem Laws.RoundTrip.portLeavesUp  : Laws.RoundTrip.Statement (.portLeavesUp) := fun _ h => nomatch h

theorem Laws.RoundTrip.portReturnsUp  : Laws.RoundTrip.Statement (.portReturnsUp) := fun _ h => nomatch h

theorem Laws.RoundTrip.linkDownTimeout  : Laws.RoundTrip.Statement (.linkDownTimeout) := fun _ h => nomatch h

theorem Laws.RoundTrip.linkEnable  : Laws.RoundTrip.Statement (.linkEnable) := fun _ h => nomatch h

theorem Laws.RoundTrip.linkDisable  : Laws.RoundTrip.Statement (.linkDisable) := fun _ h => nomatch h

theorem Laws.RoundTrip.stripeGapTimeout  : Laws.RoundTrip.Statement (.stripeGapTimeout) := fun _ h => nomatch h

theorem Laws.RoundTrip.freeze  : Laws.RoundTrip.Statement (.freeze) := fun _ h => nomatch h

theorem Laws.RoundTrip.thaw  : Laws.RoundTrip.Statement (.thaw) := fun _ h => nomatch h

theorem Laws.RoundTrip.warmrst  : Laws.RoundTrip.Statement (.warmrst) := fun _ h => nomatch h

theorem Laws.RoundTrip.emclear  : Laws.RoundTrip.Statement (.emclear) := fun _ h => nomatch h

theorem Laws.RoundTrip.fwstage  : Laws.RoundTrip.Statement (.fwstage) := fun _ h => nomatch h

theorem Laws.RoundTrip.partapply  : Laws.RoundTrip.Statement (.partapply) := fun _ h => nomatch h

theorem Laws.RoundTrip.hcmdComplete  : Laws.RoundTrip.Statement (.hcmdComplete) := fun _ h => nomatch h

theorem Laws.RoundTrip.bankToRow  : Laws.RoundTrip.Statement (.bankToRow) := fun _ h => nomatch h

theorem Laws.RoundTrip.bankToPool  : Laws.RoundTrip.Statement (.bankToPool) := fun _ h => nomatch h

theorem Laws.RoundTrip.bmctlDone  : Laws.RoundTrip.Statement (.bmctlDone) := fun _ h => nomatch h

theorem Laws.RoundTrip.inval  : Laws.RoundTrip.Statement (.inval) := fun _ h => nomatch h

theorem Laws.RoundTrip.preload  : Laws.RoundTrip.Statement (.preload) := fun _ h => nomatch h

theorem Laws.RoundTrip.shootdownDone  : Laws.RoundTrip.Statement (.shootdownDone) := fun _ h => nomatch h

theorem Laws.RoundTrip.migrationGo  : Laws.RoundTrip.Statement (.migrationGo) := fun _ h => nomatch h

theorem Laws.RoundTrip.alloc  : Laws.RoundTrip.Statement (.alloc) := fun _ h => nomatch h

theorem Laws.RoundTrip.free  : Laws.RoundTrip.Statement (.free) := fun _ h => nomatch h

theorem Laws.RoundTrip.move  : Laws.RoundTrip.Statement (.move) := fun _ h => nomatch h

theorem Laws.RoundTrip.moveDone  : Laws.RoundTrip.Statement (.moveDone) := fun _ h => nomatch h

theorem Laws.RoundTrip.promotion  : Laws.RoundTrip.Statement (.promotion) := fun _ h => nomatch h

theorem Laws.RoundTrip.coreArrival  : Laws.RoundTrip.Statement (.coreArrival) := fun _ h => nomatch h

theorem Laws.RoundTrip.helmSchedule  : Laws.RoundTrip.Statement (.helmSchedule) := fun _ h => nomatch h

theorem Laws.RoundTrip.quantumExpiry  : Laws.RoundTrip.Statement (.quantumExpiry) := fun _ h => nomatch h

theorem Laws.RoundTrip.preemptionRequest  : Laws.RoundTrip.Statement (.preemptionRequest) := fun _ h => nomatch h

theorem Laws.RoundTrip.preemptionComplete  : Laws.RoundTrip.Statement (.preemptionComplete) := fun _ h => nomatch h

theorem Laws.RoundTrip.switchEnd  : Laws.RoundTrip.Statement (.switchEnd) := fun _ h => nomatch h

theorem Laws.RoundTrip.replayInjection  : Laws.RoundTrip.Statement (.replayInjection) := fun _ h => nomatch h

theorem Laws.RoundTrip.partitionHalt  : Laws.RoundTrip.Statement (.partitionHalt) := fun _ h => nomatch h

theorem Laws.RoundTrip.resume  : Laws.RoundTrip.Statement (.resume) := fun _ h => nomatch h

theorem Laws.RoundTrip.frzctlFreeze  : Laws.RoundTrip.Statement (.frzctlFreeze) := fun _ h => nomatch h

theorem Laws.RoundTrip.frzctlRelease  : Laws.RoundTrip.Statement (.frzctlRelease) := fun _ h => nomatch h

theorem Laws.RoundTrip.freezeTimeout  : Laws.RoundTrip.Statement (.freezeTimeout) := fun _ h => nomatch h

theorem Laws.RoundTrip.accessGeneration  : Laws.RoundTrip.Statement (.accessGeneration) := fun _ h => nomatch h

theorem Laws.RoundTrip.stqSlotPerform  : Laws.RoundTrip.Statement (.stqSlotPerform) := fun _ h => nomatch h

theorem Laws.RoundTrip.replayQueueLeave  : Laws.RoundTrip.Statement (.replayQueueLeave) := fun _ h => nomatch h

theorem Laws.RoundTrip.busRepair  : Laws.RoundTrip.Statement (.busRepair) := fun _ h => nomatch h

theorem Laws.RoundTrip.statWindowStart  : Laws.RoundTrip.Statement (.statWindowStart) := fun _ h => nomatch h

theorem Laws.RoundTrip.sectorStart  : Laws.RoundTrip.Statement (.sectorStart) := fun _ h => nomatch h

theorem Laws.RoundTrip.followOnIssue  : Laws.RoundTrip.Statement (.followOnIssue) := fun _ h => nomatch h

theorem Laws.RoundTrip.emergencyConditionCleared  : Laws.RoundTrip.Statement (.emergencyConditionCleared) := fun _ h => nomatch h

end Sys2Proof
end

