-- ==== Sys2Proof/Safety.lean ====
section
/-! DEFINITION. What counts as a safe run, and the terms the statements use: when a word of an engine may issue, and
what a word leaves as it was. -/

namespace Sys2Proof

open Sys2Proof.Machine

/-- A step of the module that gives a next state. -/
def Steps (s t : State) : Prop := step s = .next t

/-- States a run reaches from a state. -/
inductive Reach (s : State) : State → Prop where
  | refl : Reach s s
  | tail {t u : State} : Reach s t → Steps t u → Reach s u

/-- A run is safe when no step of it is refused, and it stops only without power. -/
def Safe (s : State) : Prop :=
  ∀ t, Reach s t → (∃ u, step t = .next u) ∨ (t.off = true ∧ step t = .fault .poweredOff)

/-! ## When a word may issue -/

/-- Whether the SEQ word at hand makes its take: T = 1, and it has not taken before a trap (R181, R424). -/
def seqTakes (s : State) (h : Hdr) : Bool := h.t && s.me.seq.noTakeAt != some s.me.seq.q.pc

/-- Where a word of an engine takes its token from: FROM of its byte of TKSEL, as it stood before a write of this cycle (R183). -/
def tokFrom (s : State) (e : Eng) : Nat := (s.me.ctl.seen s.chron).from_ e.num

/-- A SEQ word may issue: no statistics trap is due (R243), its registers are not pending (R297), and the token it takes is
there, from a FIFO in a fixed leg (R181, R185). -/
def SeqReady (s : State) (h : Hdr) (rs : List (Fin 32)) : Prop :=
  s.me.stat.trapDue s.chron = false ∧ s.me.seq.ready s.chron rs = true
    ∧ (seqTakes s h = true → s.me.ctl.hasTok 0 (tokFrom s .seq) = true ∧ (s.fixedLeg s.cur = true → tokFrom s .seq < 8))

/-- Whether an AXU, BKE or VEC word makes its take: T = 1; an AXU word issued again after a soft stop takes only if it had
not (R154, R181). -/
def engTakes (s : State) (e : Eng) (h : Hdr) : Bool := h.t && !(e == .axu && (s.me.axu.again.headD (false, false)).1)

/-- A word of the AXU, the BKE or the VEC may issue: the token it takes is there, from a FIFO in a fixed leg (R181, R185), and
the AXU does not wait for the access a RESUME restarted (R154). -/
def EngReady (s : State) (e : Eng) (h : Hdr) : Prop :=
  (engTakes s e h = true → s.me.ctl.hasTok e.num (tokFrom s e) = true
    ∧ (s.fixedLeg s.cur = true → tokFrom s e < 8))
    ∧ (e = .axu → s.axuMay s.cur = true)

/-! ## What a word leaves -/

/-- Everything outside the core at hand, the requests and the schedule is unchanged; of a partition only the link
takes its contexts count may change (R145). -/
structure SameOutside (s t : State) : Prop where
  chron : t.chron = s.chron
  off : t.off = s.off
  cur : t.cur = s.cur
  helm : t.helm = s.helm
  hif : t.hif = s.hif
  ms : t.ms = s.ms
  mig : t.mig = s.mig
  fab : t.fab = s.fab
  memory : t.memory = s.memory
  cols : t.cols = s.cols
  cores : ∀ c, c ≠ s.cur → t.core c = s.core c
  parts : ∀ p, { t.part p with slots := (s.part p).slots } = s.part p
  slots : ∀ p (j : Fin 8), { (t.part p).slots[j] with tkseq := ((s.part p).slots[j]).tkseq } = (s.part p).slots[j]

/-- Every byte of every memory reads as before. -/
def SameMemory (s t : State) : Prop := ∀ a, readByte t.memory a = readByte s.memory a

/-- The control registers after a SEQ word: as before but for the token it takes (R181). -/
def seqCtl (s : State) (h : Hdr) : Ctl := if seqTakes s h then s.me.ctl.take 0 (tokFrom s .seq) else s.me.ctl

/-- The control registers after a word of another engine: as before but for the token it takes (R181). -/
def engCtl (s : State) (e : Eng) (h : Hdr) : Ctl :=
  if engTakes s e h then s.me.ctl.take e.num (tokFrom s e) else s.me.ctl

/-- The trap and mode registers of the sequencer are unchanged. -/
structure SameTraps (q r : Seq) : Prop where
  sup : r.sup = q.sup
  pmode : r.pmode = q.pmode
  cause : r.cause = q.cause
  epc : r.epc = q.epc
  hvec : r.hvec = q.hvec
  hvecL : r.hvecL = q.hvecL

/-- The issue pointer of the sequencer moves to an address, and its next word counts its wait from the next cycle (R139). -/
def SeqGoes (s t : State) (pc : Int) : Prop := t.me.seq.q.pc = pc ∧ t.me.seq.q.base = s.chron + 1

/-- A SEQ word outside a loop steps to the word after it (R139). -/
def SeqNext (s t : State) : Prop := s.me.seq.q.loops = [] → SeqGoes s t (s.me.seq.q.pc + 4)

/-- A SEQ word leaves the AXU, the BKE, the VEC, the CPE, the statistics and the handle cache of its core alone, and everything
outside the core. -/
structure SeqRest (s t : State) : Prop where
  outside : SameOutside s t
  axu : t.me.axu = s.me.axu
  bke : t.me.bke = s.me.bke
  vec : t.me.vec = s.me.vec
  cpe : t.me.cpe = s.me.cpe
  stat : t.me.stat = s.me.stat
  pinned : t.me.hcPinned = s.me.hcPinned
  unpinned : t.me.hcUnpinned = s.me.hcUnpinned

/-- The frame of a SEQ word: `SeqRest`, and its control registers but for the take. -/
structure SeqFrame (s t : State) (h : Hdr) : Prop extends SeqRest s t where
  ctl : t.me.ctl = seqCtl s h

/-- The core at hand after a SEQ word's take and the advance of its pointer (R139, R181, R424). -/
def seqCore (s : State) (h : Hdr) : Core :=
  { s.me with seq := { s.me.seq with q := s.me.seq.q.advance s.chron, noTakeAt := none }, ctl := seqCtl s h }

/-- A SEQ word has just this effect on its core, beside its take and the advance of its pointer, and none outside it; words may
be put in flight. -/
def SeqDoes (s t : State) (h : Hdr) (f : Core → Core) : Prop :=
  SameOutside s t ∧ t.reqs = s.reqs ∧ t.me = { f (seqCore s h) with pipe := t.me.pipe } ∧ SeqNext s t

/-- A SEQ word changes nothing of its core but queues of the AXU, the BKE and the VEC (R317). -/
def SeqQueues (s t : State) (h : Hdr) : Prop :=
  SameOutside s t ∧ t.reqs = s.reqs ∧ SeqNext s t
    ∧ t.me = { seqCore s h with
        pipe := t.me.pipe, axu := { s.me.axu with q := t.me.axu.q }, bke := { s.me.bke with q := t.me.bke.q }, vec := { s.me.vec with q := t.me.vec.q } }

/-- The core at hand after the take of a word of the AXU, the BKE or the VEC, the trips that begin with it, and the advance of its
queue (R129, R139, R181, R332). -/
def engCore (s : State) (e : Eng) (h : Hdr) : Core :=
  let k := Core.entered e { s.me with ctl := engCtl s e h }
  k.setQueue e ((k.queue e).advance s.chron).settle

/-- A word of the AXU, the BKE or the VEC has just this effect on its core, beside its take and the advance of its queue, and none
outside it; words may be put in flight, and the AXU notes the word for a soft stop (R154). -/
def EngDoes (s t : State) (e : Eng) (h : Hdr) (f : Core → Core) : Prop :=
  SameOutside s t ∧ t.reqs = s.reqs
    ∧ t.me = { f (engCore s e h) with
        pipe := t.me.pipe, axu := { (f (engCore s e h)).axu with hist := t.me.axu.hist, again := t.me.axu.again } }
    ∧ (e ≠ .axu → t.me.axu.hist = s.me.axu.hist ∧ t.me.axu.again = s.me.axu.again)

/-- A word of the AXU, the BKE or the VEC waits: it has no effect, and is tried again in the next cycle (R138). -/
def EngStays (s t : State) (e : Eng) : Prop :=
  SameOutside s t ∧ t.reqs = s.reqs ∧ t.me = s.me.setQueue e { s.me.queue e with notBefore := s.chron + 1 }

/-- The queue of an engine moves past a word outside a loop, and the next word counts its wait from the next cycle (R139). -/
def EngNext (s t : State) (e : Eng) : Prop :=
  (s.me.queue e).loops = [] → (t.me.queue e).pc = (s.me.queue e).pc + 4 ∧ (t.me.queue e).base = s.chron + 1

/-- A word with G = 1 is in flight to give, to the engine TKSEL names, once it is done and the accesses of its engine made before
it are (R181, R183, R253). -/
def Gives (s t : State) (e : Eng) (i : Instr) (lat : Nat) : Prop :=
  ∃ w ∈ t.me.pipe.infl, w.eng = e ∧ w.instr = i ∧ w.give = true ∧ w.giveTo = (s.me.ctl.seen s.chron).to_ e.num ∧ w.doneAt = s.chron + lat
    ∧ ∀ r ∈ s.reqs, r.core = s.cur → r.who = e.num → r.id ∈ w.waits

/-- A hard fault of an engine of the core at hand halts its partition: the fault is kept with its code, cycle, place and word,
and the halt line reaches every unit 8 cycles later (R148). -/
def Halts (s t : State) (p : PartIx) (e : Eng) (code : Nat) (pc : Int) : Prop :=
  (∃ x, (t.part p).halting = some x ∧ x.code = code ∧ x.cycle = s.chron ∧ x.core = s.logical p s.cur ∧ x.eng = e.num ∧ x.pc = pc
    ∧ x.kill = false)
  ∧ ∃ v ∈ t.agenda, v.cycle = s.chron + 8 ∧ v.part = p ∧ v.instr = .partitionHalt

/-- A SEQ word waits: it has no effect, and is tried again in the next cycle (R138). -/
def SeqStays (s t : State) : Prop :=
  SameOutside s t ∧ t.reqs = s.reqs ∧ t.me = { s.me with seq := { s.me.seq with q := { s.me.seq.q with notBefore := s.chron + 1 } } }

/-- A partition runs a context and neither halts nor switches. -/
def Running (s : State) (p : PartIx) : Prop :=
  (s.part p).switching = false ∧ (s.part p).halting = none ∧ (s.part p).runSlot.isSome = true

/-- No general register but d changes, and the trap and mode registers stand. -/
def SameRegsBut (s t : State) (ds : List (Fin 32)) : Prop :=
  (∀ r, r ∉ ds → t.me.seq.gpr r = s.me.seq.gpr r ∧ t.me.seq.tnt r = s.me.seq.tnt r ∧ t.me.seq.gReady[r] = s.me.seq.gReady[r])
    ∧ SameTraps s.me.seq t.me.seq

/-- gd holds v, with a taint, usable lat cycles after the issue; a write to g0 is discarded (R170, R254, R297). -/
def Wrote (s t : State) (d : Fin 32) (v : Word) (taint : Bool) (lat : Nat) : Prop :=
  if d = 0 then t.me.seq.gpr 0 = 0 ∧ t.me.seq.tnt 0 = false
  else t.me.seq.gpr d = v ∧ t.me.seq.tnt d = taint ∧ t.me.seq.gReady[d] = s.chron + lat

/-! ## Accesses of the sequencer -/

/-- The general registers a response writes (R308, R310, R313). -/
def destRegs : Dest → List (Fin 32)
  | .gpr d _ _ pair => if pair then [d, d + 1] else [d]
  | .xrd d _ _ _ => [d]
  | _ => []

/-- An access of the sequencer to n aligned bytes passes the checks of its issue, at intermediate address ia: a 52-bit aligned
address, a range with the right (R97, R308), a portable kind beyond the module's own regions (R310), the region's check
(R94, R121), no fence that orders it (R255), no LDC that a tainted access must follow (R254), a free ring and port for the own scratchpad (R298), and in a fixed leg a pinned page
of the pool (R299). -/
def SeqMay (s : State) (i : Instr) (addr : Word) (n : Nat) (k : AccKind) (ia : Nat) : Prop :=
  addr.toNat < 2 ^ 52 ∧ addr.toNat % n = 0 ∧ translate s.me.ctl.rng (!s.me.seq.sup) addr.toNat n k.right = .ok ia
    ∧ (ia / 2 ^ 52 = 1 ∨ ia / 2 ^ 52 = 2 → k.portable = true) ∧ s.issuerCheck (s.partOf s.cur) ia = none
    ∧ s.fenceClear s.cur k = true
    ∧ s.ldcHolds s.cur i (if isOwnSpad s.cur ia then some (s.chron + ownPerform k (seqDist (bankOf ia)))
        else if s.fixedLeg s.cur then some (s.chron + 191) else none) = false
    ∧ (isOwnSpad s.cur ia = true → s.me.pipe.hitAt (ownClaims k (bankOf ia) s.chron) = none)
    ∧ (isOwnSpad s.cur ia = false → s.fixedLeg s.cur = true →
        ia / 2 ^ 52 = 0 ∧ ∃ p, s.partOf s.cur = some p ∧ (s.pinOf p ia).isSome = true)

/-- The request a SEQ word makes after some others, with its identity and its times: to the own scratchpad it is performed `perf` cycles after the issue and a result
is usable after `use` (R298); in a fixed leg it is complete after `late` cycles, and in a free leg nothing issues until its
response (R299). -/
def SeqAsks (s t : State) (before : List Req) (id : Nat) (k : AccKind) (ia n : Nat) (x : Dest) (perf use late : Nat) : Prop :=
  ∃ r, t.reqs = s.reqs ++ before ++ [r] ∧ r.id = id ∧ r.core = s.cur ∧ r.who = 0 ∧ r.kind = k ∧ r.ia = ia ∧ r.n = n ∧ r.dest = x
    ∧ r.done = false
    ∧ (isOwnSpad s.cur ia = true →
        (∃ e ∈ t.agenda, e.cycle = s.chron + perf ∧ e.core = s.cur ∧ e.instr = .accessResponse r.id)
          ∧ ∀ d ∈ destRegs x, d ≠ 0 → t.me.seq.gReady[d] = s.chron + use)
    ∧ (isOwnSpad s.cur ia = false → s.fixedLeg s.cur = true →
        (∃ e ∈ t.agenda, e.cycle ≤ s.chron + 192 ∧ e.core = s.cur ∧ e.instr = .pageWalk r.id)
          ∧ ∀ d ∈ destRegs x, d ≠ 0 → t.me.seq.gReady[d] = s.chron + late)
    ∧ (isOwnSpad s.cur ia = false → s.fixedLeg s.cur = false →
        t.me.seq.hold = some r.id ∧ ∃ e ∈ t.agenda, s.chron < e.cycle ∧ e.core = s.cur ∧ e.instr = .pageWalk r.id)


end Sys2Proof
end

