-- ==== Sys2Proof/Certificates/Slice0/Obligations.lean ====
section
/-! DEFINITION. The statements about the model, one definition each, with the shapes they share. -/

namespace Sys2Proof

open Sys2Proof.Machine

/-! ## Shapes of statements about SEQ words -/

/-- A register–register word of the sequencer: gd takes a value of ga and gb, tainted when either is, usable after `lat`
cycles; nothing else changes (R296, R297, R301). -/
def SeqRR (mk : Hdr → Fin 32 → Fin 32 → Fin 32 → Instr) (lat : Nat) (f : Word → Word → Word) : Prop :=
  ∀ s h d a b, SeqReady s h [d, a, b] → ∃ t, exec (mk h d a b) s = .next t
    ∧ Wrote s t d (f (s.me.seq.gpr a) (s.me.seq.gpr b)) (s.me.seq.tnt a || s.me.seq.tnt b) lat
    ∧ SameRegsBut s t [d] ∧ SeqNext s t ∧ SeqFrame s t h

/-- A word of the sequencer with one register source and an immediate (R303). -/
def SeqRI {n : Nat} (mk : Hdr → Fin 32 → Fin 32 → BitVec n → Instr) (f : Word → BitVec n → Word) : Prop :=
  ∀ s h d a i, SeqReady s h [d, a] → ∃ t, exec (mk h d a i) s = .next t
    ∧ Wrote s t d (f (s.me.seq.gpr a) i) (s.me.seq.tnt a) 1 ∧ SameRegsBut s t [d] ∧ SeqNext s t ∧ SeqFrame s t h

/-- A count of the bits of one register (R301). -/
def SeqCount (mk : Hdr → Fin 32 → Fin 32 → Instr) (f : Word → Nat) : Prop :=
  ∀ s h d a, SeqReady s h [d, a] → ∃ t, exec (mk h d a) s = .next t
    ∧ Wrote s t d (BitVec.ofNat 64 (f (s.me.seq.gpr a))) (s.me.seq.tnt a) 1 ∧ SameRegsBut s t [d] ∧ SeqNext s t ∧ SeqFrame s t h

/-- A branch: taken to pc + 4 × sint(off) when its condition holds, else to the next word; it writes no register (R305). -/
def SeqCond (mk : Hdr → Fin 32 → Fin 32 → BitVec 11 → Instr) (c : Word → Word → Bool) : Prop :=
  ∀ s h a b off, SeqReady s h [a, b] → ∃ t, exec (mk h a b off) s = .next t
    ∧ (c (s.me.seq.gpr a) (s.me.seq.gpr b) = true → SeqGoes s t (s.me.seq.q.pc + 4 * off.toInt))
    ∧ (c (s.me.seq.gpr a) (s.me.seq.gpr b) = false → SeqNext s t)
    ∧ SameRegsBut s t [] ∧ SeqFrame s t h

end Sys2Proof

open Sys2Proof Sys2Proof.Machine

/-- ADD to SLTU of R301: the result is that of the table, in two's complement modulo 2^64. -/
def Sys2Proof.SequencerArithmetic : Prop :=
  SeqRR .add 1 (fun x y => BitVec.ofNat 64 (x.toNat + y.toNat))
  ∧ SeqRR .sub 1 (fun x y => BitVec.ofInt 64 ((x.toNat : Int) - y.toNat))
  ∧ SeqRR .and 1 (fun x y => x &&& y) ∧ SeqRR .or 1 (fun x y => x ||| y) ∧ SeqRR .xor 1 (fun x y => x ^^^ y)
  ∧ SeqRR .sll 1 (fun x y => BitVec.ofNat 64 (x.toNat * 2 ^ (y.toNat % 64)))
  ∧ SeqRR .srl 1 (fun x y => BitVec.ofNat 64 (x.toNat / 2 ^ (y.toNat % 64)))
  ∧ SeqRR .sra 1 (fun x y => BitVec.ofInt 64 (x.toInt / 2 ^ (y.toNat % 64)))
  ∧ SeqRR .mul 3 (fun x y => BitVec.ofNat 64 (x.toNat * y.toNat))
  ∧ SeqRR .mulh 3 (fun x y => BitVec.ofInt 64 ((x.toInt * y.toInt) / 2 ^ 64))
  ∧ SeqRR .mulhu 3 (fun x y => BitVec.ofNat 64 (x.toNat * y.toNat / 2 ^ 64))
  ∧ SeqRR .min 1 (fun x y => BitVec.ofInt 64 (min x.toInt y.toInt)) ∧ SeqRR .max 1 (fun x y => BitVec.ofInt 64 (max x.toInt y.toInt))
  ∧ SeqRR .minu 1 (fun x y => BitVec.ofNat 64 (min x.toNat y.toNat)) ∧ SeqRR .maxu 1 (fun x y => BitVec.ofNat 64 (max x.toNat y.toNat))
  ∧ SeqRR .slt 1 (fun x y => if x.toInt < y.toInt then 1 else 0) ∧ SeqRR .sltu 1 (fun x y => if x.toNat < y.toNat then 1 else 0)

/-- DIV, DIVU, REM, REMU: quotients truncate toward zero, remainders have the sign of the dividend, and the corners are those
of R302. -/
def Sys2Proof.SequencerDivision : Prop :=
  SeqRR .div 34 (fun x y => if y = 0 then BitVec.ofInt 64 (-1) else BitVec.ofInt 64 (x.toInt.tdiv y.toInt))
  ∧ SeqRR .divu 34 (fun x y => if y = 0 then BitVec.ofInt 64 (-1) else BitVec.ofNat 64 (x.toNat / y.toNat))
  ∧ SeqRR .rem 34 (fun x y => if y = 0 then x else BitVec.ofInt 64 (x.toInt.tmod y.toInt))
  ∧ SeqRR .remu 34 (fun x y => if y = 0 then x else BitVec.ofNat 64 (x.toNat % y.toNat))

/-- The counts of R301, the immediates of R303 and LIS of R304. -/
def Sys2Proof.SequencerImmediates : Prop :=
  SeqCount .clz (fun x => if x = 0 then 64 else 63 - Nat.log2 x.toNat)
  ∧ SeqCount .ctz (fun x => ((List.range 64).find? fun i => x.getLsbD i).getD 64)
  ∧ SeqCount .popc (fun x => ((List.range 64).filter fun i => x.getLsbD i).length)
  ∧ SeqRI .addi (fun x i => BitVec.ofInt 64 ((x.toNat : Int) + i.toInt))
  ∧ SeqRI .slti (fun x i => if x.toInt < i.toInt then 1 else 0)
  ∧ SeqRI .andi (fun x i => x &&& i.setWidth 64) ∧ SeqRI .ori (fun x i => x ||| i.setWidth 64)
  ∧ SeqRI .xori (fun x i => x ^^^ i.setWidth 64)
  ∧ SeqRI .slli (fun x i => BitVec.ofNat 64 (x.toNat * 2 ^ i.toNat)) ∧ SeqRI .srli (fun x i => BitVec.ofNat 64 (x.toNat / 2 ^ i.toNat))
  ∧ SeqRI .srai (fun x i => BitVec.ofInt 64 (x.toInt / 2 ^ i.toNat))
  ∧ ∀ s h q d imm, SeqReady s h [d] → ∃ t, exec (.lis h q d imm) s = .next t
      ∧ Wrote s t d (if q = 0 then imm.signExtend 64
          else (s.me.seq.gpr d &&& ~~~(0xFFFF#64 <<< (16 * q.toNat))) ||| (imm.setWidth 64 <<< (16 * q.toNat))) false 1
      ∧ SameRegsBut s t [d] ∧ SeqNext s t ∧ SeqFrame s t h

/-- The results of the register words of the sequencer: R301 to R304. -/
def Obligations.SequencerResults : Prop := SequencerArithmetic ∧ SequencerDivision ∧ SequencerImmediates

/-- The branches of R305 and the jumps of R306; JALR to a target that is not a multiple of 4 is hard fault 0x13. -/
def Obligations.SequencerControlFlow : Prop :=
  SeqCond .beq (fun x y => x.toNat == y.toNat) ∧ SeqCond .bne (fun x y => x.toNat != y.toNat)
  ∧ SeqCond .blt (fun x y => decide (x.toInt < y.toInt)) ∧ SeqCond .bge (fun x y => decide (y.toInt ≤ x.toInt))
  ∧ SeqCond .bltu (fun x y => decide (x.toNat < y.toNat)) ∧ SeqCond .bgeu (fun x y => decide (y.toNat ≤ x.toNat))
  ∧ (∀ s h off, SeqReady s h [31] → ∃ t, exec (.jal h off) s = .next t
      ∧ Wrote s t 31 (BitVec.ofInt 64 (s.me.seq.q.pc + 4)) false 1 ∧ SeqGoes s t (s.me.seq.q.pc + 4 * off.toInt)
      ∧ SameRegsBut s t [31] ∧ SeqFrame s t h)
  ∧ (∀ s h d a imm, SeqReady s h [d, a] → (((s.me.seq.gpr a).toNat : Int) + 4 * imm.toInt) % 4 = 0 →
      ∃ t, exec (.jalr h d a imm) s = .next t
        ∧ Wrote s t d (BitVec.ofInt 64 (s.me.seq.q.pc + 4)) false 1
        ∧ SeqGoes s t (((s.me.seq.gpr a).toNat : Int) + 4 * imm.toInt) ∧ SameRegsBut s t [d] ∧ SeqFrame s t h)
  ∧ ∀ s h d a imm p, SeqReady s h [d, a] → (((s.me.seq.gpr a).toNat : Int) + 4 * imm.toInt) % 4 ≠ 0 →
      s.partOf s.cur = some p → Running s p →
      ∃ t, exec (.jalr h d a imm) s = .next t ∧ Halts s t p .seq 0x13 s.me.seq.q.pc ∧ SameRegsBut s t [] ∧ t.memory = s.memory

/-! ## Accesses of the sequencer -/

namespace Sys2Proof

/-- A SEQ word that may issue and whose access passes its checks makes that access; it changes no register yet. -/
def SeqAccess (i : Instr) (s : State) (h : Hdr) (rs : List (Fin 32)) (addr : Word) (n : Nat) (k : AccKind) (x : Dest)
    (perf use late : Nat → Nat) : Prop :=
  ∀ ia, SeqReady s h rs → SeqMay s i addr n k ia → ∃ t, exec i s = .next t
    ∧ SeqAsks s t [] s.nextId k ia n x (perf (seqDist (bankOf ia))) (use (seqDist (bankOf ia))) (late (seqDist (bankOf ia)))
    ∧ (∀ r, t.me.seq.gpr r = s.me.seq.gpr r ∧ t.me.seq.tnt r = s.me.seq.tnt r)
    ∧ (∀ r, r ∉ destRegs x → t.me.seq.gReady[r] = s.me.seq.gReady[r])
    ∧ SameTraps s.me.seq t.me.seq ∧ SeqNext s t ∧ SeqFrame s t h

/-- The address of a form M word: ga plus the immediate in units of the access (R308). -/
def formM (s : State) (a : Fin 32) (z : BitVec 2) (imm : BitVec 9) : Word :=
  BitVec.ofInt 64 (((s.me.seq.gpr a).toNat : Int) + imm.toInt * 2 ^ z.toNat)

/-- An AMO word of a function: gd and its pair are written by the response; the operand b, and for the compare the expected
value, have 4, 8 or 16 bytes (R310). -/
def SeqAtomic (mk : Hdr → Fin 32 → Fin 32 → Fin 32 → BitVec 2 → BitVec 4 → Instr) (fn : AtomFn) : Prop :=
  ∀ s h d a b x sc,
    let n := 4 * 2 ^ x.toNat
    let arg (r : Fin 32) : Nat := if n = 16 then (s.me.seq.gpr r).toNat + 2 ^ 64 * (s.me.seq.gpr (r + 1)).toNat
      else (s.me.seq.gpr r).toNat % 2 ^ (8 * n)
    SeqAccess (mk h d a b x sc) s h (if n = 16 then [d, d + 1, a, b, b + 1] else [d, a, b]) (s.me.seq.gpr a) n
      (.atomic fn (arg b) (if fn = .cas then arg d else 0)) (.gpr d n (s.me.seq.tnt a) (n == 16))
      (fun k => k + 2) (fun k => 2 * k + 4) (fun _ => 192)

end Sys2Proof

/-- LD, LDC and ST of R308: the access each makes; LDC's result is tainted (R254). -/
def Sys2Proof.SequencerLoadsAndStores : Prop :=
  (∀ s h d a z imm, SeqAccess (.ld h d a z imm) s h [d, a] (formM s a z imm) (2 ^ z.toNat) .read
      (.gpr d (2 ^ z.toNat) (s.me.seq.tnt a) false) (fun k => k) (fun k => 2 * k + 2) (fun _ => 192))
  ∧ (∀ s h d a z imm, SeqAccess (.ldc h d a z imm) s h [d, a] (formM s a z imm) (2 ^ z.toNat) .read
      (.gpr d (2 ^ z.toNat) true false) (fun k => k) (fun k => 2 * k + 2) (fun _ => 192))
  ∧ ∀ s h d a z imm, SeqAccess (.st h d a z imm) s h [d, a] (formM s a z imm) (2 ^ z.toNat)
      (.write (toBytes (2 ^ z.toNat) (s.me.seq.gpr d).toNat)) .none_ (fun k => k) (fun _ => 0) (fun _ => 192)

/-- The ten AMO functions of R310, FADDX of R312 and XRD of R313: the access each makes. -/
def Sys2Proof.SequencerAtomics : Prop :=
  SeqAtomic .amoAdd .add ∧ SeqAtomic .amoAnd .and ∧ SeqAtomic .amoOr .or ∧ SeqAtomic .amoXor .xor ∧ SeqAtomic .amoMin .min
  ∧ SeqAtomic .amoMax .max ∧ SeqAtomic .amoMinu .minu ∧ SeqAtomic .amoMaxu .maxu ∧ SeqAtomic .amoSwap .swap
  ∧ SeqAtomic .amoCas .cas
  ∧ (∀ s h a b x sc, SeqAccess (.faddx h a b x sc) s h [a, b] (s.me.seq.gpr a) 128
      (.faddx x.toNat ((s.me.seq.gpr b).toNat % 2 ^ fmtW (xfFmt x.toNat))) .none_ (fun k => k + 2) (fun _ => 0) (fun _ => 192))
  ∧ ∀ s h d a m x sc, SeqAccess (.xrd h d a m x sc) s h [d, a] (s.me.seq.gpr a) 128 .xrd
      (.xrd d (xfFmt x.toNat) m.toNat (s.me.seq.tnt a)) (fun k => k) (fun k => 2 * k + 6) (fun _ => 196)

/-- The accesses of the sequencer: loads and stores of R308, the atomic words of R310, R312 and R313. -/
def Obligations.SequencerMemoryWords : Prop := SequencerLoadsAndStores ∧ SequencerAtomics

/-- NOP of every engine (R269), IDLE of the AXU, the BKE and the VEC (R270), SIZE (R320), CHRON (R321) and LEGQ (R322). -/
def Obligations.NopIdleAndStatusWords : Prop :=
  (∀ s h, s.eng = .seq → SeqReady s h [] → ∃ t, exec (.nop h) s = .next t ∧ SeqDoes s t h (fun k => k)
      ∧ (h.g = true → Gives s t .seq (.nop h) 0))
  ∧ (∀ s h, s.eng ≠ .seq → s.eng ≠ .cpe → EngReady s s.eng h → ∃ t, exec (.nop h) s = .next t
      ∧ EngDoes s t s.eng h (fun k => k) ∧ EngNext s t s.eng ∧ (h.g = true → Gives s t s.eng (.nop h) 0))
  ∧ (∀ s h n, s.eng ≠ .seq → s.eng ≠ .cpe → EngReady s s.eng h → ∃ t, exec (.idle h n) s = .next t
      ∧ EngDoes s t s.eng h (fun k =>
          k.setQueue s.eng { k.queue s.eng with base := s.chron + 1 + n.toNat, idleEnd := s.chron + n.toNat })
      ∧ ((s.me.queue s.eng).loops = [] → (t.me.queue s.eng).pc = (s.me.queue s.eng).pc + 4)
      ∧ (h.g = true → Gives s t s.eng (.idle h n) n.toNat))
  ∧ (∀ s h a imm, SeqReady s h [a] → ∃ t, exec (.size h a imm) s = .next t
      ∧ SeqDoes s t h (fun k => { k with ctl := { k.ctl with
          sizecls := BitVec.ofNat 4 (min 15 ((s.me.seq.gpr a).toNat + imm.toNat)) } })
      ∧ (h.g = true → Gives s t .seq (.size h a imm) 0))
  ∧ (∀ s h d, SeqReady s h [d] → ∃ t, exec (.chron h d) s = .next t
      ∧ Wrote s t d (BitVec.ofNat 64 s.chron) false 1 ∧ SameRegsBut s t [d] ∧ SeqNext s t ∧ SeqFrame s t h)
  ∧ ∀ s h d p j, SeqReady s h [d] → s.partOf s.cur = some p → (s.part p).runSlot = some j →
      let k := s.me.ctl
      ∃ t, exec (.legq h d) s = .next t
        ∧ Wrote s t d (BitVec.ofNat 64 (k.legno.toNat + 2 ^ 16 * k.course.toNat + (if s.fixedLeg s.cur then 2 ^ 19 else 0)
            + 2 ^ 20 * k.health.toNat + 2 ^ 22 * (s.part p).pwrcls.toNat + 2 ^ 24 * k.sizecls.toNat
            + (if (s.part p).slots[j].ndcyc then 2 ^ 28 else 0))) false 1
        ∧ SameRegsBut s t [d] ∧ SeqNext s t ∧ SeqFrame s t h

/-- TKG and TKT of R315, and TKQ of R316. TKT with no token there waits in a free leg; in a fixed leg it is deviation 0x41, as is any TKT
from a link token counter. -/
def Sys2Proof.SequencerTokens : Prop :=
  (∀ s w p, SeqReady s ⟨w, false, false⟩ [] → ∃ t, exec (.tkg w p) s = .next t ∧ SeqDoes s t ⟨w, false, false⟩ (fun k => k)
      ∧ ∃ x ∈ t.me.pipe.infl, x.instr = .tkg w p ∧ x.give = true ∧ x.giveTo = p.toNat ∧ x.doneAt = s.chron
          ∧ ∀ r ∈ s.reqs, r.core = s.cur → r.who = 0 → r.id ∈ x.waits)
  ∧ (∀ s w p, SeqReady s ⟨w, false, false⟩ [] → 1 ≤ p.toNat → p.toNat ≤ 4 → 0 < s.me.ctl.occ (p.toNat - 1) →
      ∃ t, exec (.tkt w p) s = .next t
        ∧ SeqDoes s t ⟨w, false, false⟩ (fun k => { k with ctl := k.ctl.setOcc (p.toNat - 1) (s.me.ctl.occ (p.toNat - 1) - 1) }))
  ∧ (∀ s w p, SeqReady s ⟨w, false, false⟩ [] → ∀ i : Fin 4, p.toNat = 8 + i.val → s.fixedLeg s.cur = false →
      0 < (s.me.ctl.ltc[i]).toNat → ∃ t, exec (.tkt w p) s = .next t
        ∧ SeqDoes s t ⟨w, false, false⟩ (fun k => { k with ctl := { k.ctl with ltc := k.ctl.ltc.set i (s.me.ctl.ltc[i] - 1) } }))
  ∧ (∀ s w p, SeqReady s ⟨w, false, false⟩ [] → s.fixedLeg s.cur = false →
      (1 ≤ p.toNat ∧ p.toNat ≤ 4 ∧ s.me.ctl.occ (p.toNat - 1) = 0 ∨ ∃ i : Fin 4, p.toNat = 8 + i.val ∧ s.me.ctl.ltc[i] = 0) →
      ∃ t, exec (.tkt w p) s = .next t ∧ SeqStays s t)
  ∧ (∀ s w p q, SeqReady s ⟨w, false, false⟩ [] → s.fixedLeg s.cur = true → s.partOf s.cur = some q → Running s q →
      (1 ≤ p.toNat ∧ p.toNat ≤ 4 ∧ s.me.ctl.occ (p.toNat - 1) = 0 ∨ 8 ≤ p.toNat ∧ p.toNat ≤ 11) →
      ∃ t, exec (.tkt w p) s = .next t ∧ Halts s t q .seq 0x41 s.me.seq.q.pc ∧ t.me.ctl = s.me.ctl ∧ SameRegsBut s t [])
  ∧ ∀ s w d a imm, SeqReady s ⟨w, false, false⟩ [d, a] →
      let x := (imm ||| (s.me.seq.gpr a).setWidth 11).toNat
      let p := x % 8
      let q := x / 16 % 8
      ∃ t, exec (.tkq w d a imm) s = .next t
        ∧ Wrote s t d (BitVec.ofNat 64 (
            if 1024 ≤ x then (s.me.ctl.ltc[Fin.ofNat 4 x]).toNat
            else if p ≤ 4 ∧ q ≤ 4 ∧ p ≠ q then s.me.ctl.occ (4 * q + if p < q then p else p - 1)
            else 0)) false 1
        ∧ SameRegsBut s t [d] ∧ SeqNext s t ∧ SeqFrame s t ⟨w, false, false⟩

/-- FENCE of R314, kinds 0 acq, 1 rel, 2 full: each later access it orders is held for those it orders before it, and it gives when they
are performed. A release or full fence of a free leg sends the zero-length read of R256 behind the last write on each port its scope
covers, unless one is on its way, and orders it too. A load or store such a fence holds waits in a free leg and is deviation 0x41 in a fixed
one. -/
def Sys2Proof.SequencerFence : Prop :=
  (∀ s h k sc, SeqReady s h [] →
      (k = 0 ∨ s.fixedLeg s.cur = true ∨ ∀ x ∈ s.me.pipe.sentOn, scopeFlushes sc.toNat x.port = false) →
      ∃ t, exec (.fence h k sc) s = .next t ∧ t.reqs = s.reqs
        ∧ (∀ r ∈ s.reqs, r.core = s.cur → r.who = 0 → (k = 0 → r.kind.reads = true) →
            ∃ f ∈ t.me.seq.fenceHold, f.1 = k.toNat ∧ r.id ∈ f.2)
        ∧ (∀ f ∈ t.me.seq.fenceHold, f ∈ s.me.seq.fenceHold ∨ f.1 = k.toNat ∧ ∀ id ∈ f.2, ∃ r ∈ s.reqs, r.id = id ∧ r.core = s.cur ∧ r.who = 0)
        ∧ (h.g = true → Gives s t .seq (.fence h k sc) 0)
        ∧ SameRegsBut s t [] ∧ SeqNext s t ∧ SeqFrame s t h)
  ∧ (∀ s h k sc, SeqReady s h [] → s.fixedLeg s.cur = false → k ≠ 0 →
      (∀ x ∈ s.me.pipe.sentOn, ∀ y : x.port < 48, (s.fab.links[x.port]).st = .up ∨ (s.fab.links[x.port]).st = .training) →
      ∃ t new, exec (.fence h k sc) s = .next t ∧ t.reqs = s.reqs ++ new
        ∧ (∀ r ∈ s.reqs, r.core = s.cur → r.who = 0 → ∃ f ∈ t.me.seq.fenceHold, f.1 = k.toNat ∧ r.id ∈ f.2)
        ∧ (∀ x ∈ s.me.pipe.sentOn, scopeFlushes sc.toNat x.port = true → ∃ f ∈ t.me.seq.fenceHold, f.1 = k.toNat ∧
            ((∃ id, x.flush = some id ∧ s.unperformed id = true ∧ id ∈ f.2)
              ∨ ∃ r ∈ new, r.id ∈ f.2 ∧ r.core = s.cur ∧ r.who = 0 ∧ r.kind = .zero ∧ r.ia = x.ia ∧ r.n = 0 ∧ r.sent = some x.port
                ∧ (x.port = 48 → ∃ o ∈ t.hif.hostOut, o.id = r.id ∧ o.kind = .read ∧ o.ia = x.ia ∧ o.n = 0 ∧ o.pasid = x.pasid
                    ∧ o.translated = x.translated)
                ∧ ∀ y : x.port < 48, ∃ o, (o ∈ (t.fab.links[x.port]).out ∨ o ∈ (t.fab.links[x.port]).waiting) ∧ o.id = r.id
                    ∧ o.kind = .read ∧ o.ia = x.ia % 2 ^ 40 ∧ o.n = 0))
        ∧ (∀ r ∈ new, ∃ x ∈ s.me.pipe.sentOn, r.kind = .zero ∧ scopeFlushes sc.toNat x.port = true ∧ r.sent = some x.port)
        ∧ (h.g = true → ∃ w ∈ t.me.pipe.infl, w.instr = .fence h k sc ∧ w.give = true ∧ w.giveTo = (s.me.ctl.seen s.chron).to_ 0
            ∧ ∀ r ∈ t.reqs, r.core = s.cur → r.who = 0 → r.id ∈ w.waits)
        ∧ SameRegsBut s t [] ∧ SeqNext s t ∧ t.me.ctl = seqCtl s h ∧ t.me.axu = s.me.axu ∧ t.me.bke = s.me.bke ∧ t.me.vec = s.me.vec
        ∧ t.memory = s.memory ∧ t.cols = s.cols)
  ∧ ∀ s h d a z imm ia (st : Bool), SeqReady s h [d, a] →
      let i := if st then Instr.st h d a z imm else .ld h d a z imm
      let k : AccKind := if st then .write (toBytes (2 ^ z.toNat) (s.me.seq.gpr d).toNat) else .read
      let addr := (formM s a z imm).toNat
      addr < 2 ^ 52 → addr % 2 ^ z.toNat = 0 → translate s.me.ctl.rng (!s.me.seq.sup) addr (2 ^ z.toNat) k.right = .ok ia →
      s.issuerCheck (s.partOf s.cur) ia = none →
      (∃ f ∈ s.me.seq.fenceHold, (f.1 ≠ 1 ∨ st = true) ∧ ∃ id ∈ f.2, s.unperformed id = true) →
      (s.fixedLeg s.cur = false → ∃ t, exec i s = .next t ∧ SeqStays s t)
      ∧ ∀ p, s.fixedLeg s.cur = true → s.partOf s.cur = some p → Running s p →
          ∃ t, exec i s = .next t ∧ Halts s t p .seq 0x41 s.me.seq.q.pc ∧ SameRegsBut s t [] ∧ t.reqs = s.reqs

/-- The token words of R315 and R316 and FENCE of R314. -/
def Obligations.SequencerTokensAndFence : Prop := SequencerTokens ∧ SequencerFence

/-- QSTART and QSTOP on each named queue (R317), and QSTAT (R318). -/
def Obligations.SequencerQueueControl : Prop :=
  (∀ s h a m, SeqReady s h [a] → ∃ t, exec (.qstart h a m) s = .next t ∧ SeqQueues s t h
      ∧ (∀ e b, (e, b) ∈ [(Eng.axu, 0), (Eng.bke, 1), (Eng.vec, 2)] →
          let q := s.me.queue e
          if (m ||| (s.me.seq.gpr a).setWidth 3).getLsbD b = true ∧ q.eff s.chron = .stopped then
            (t.me.queue e).pc = q.pc ∧ (t.me.queue e).stopAt = none
              ∧ (t.me.queue e).base = s.chron + 1 + (match q.stopAt with | some i => q.idleEnd - i | none => 0)
              ∧ (q.pc ≠ q.spanEnd ∨ q.loops ≠ [] → (t.me.queue e).st = .running)
          else t.me.queue e = q)
      ∧ (h.g = true → Gives s t .seq (.qstart h a m) 0))
  ∧ (∀ s h a m, SeqReady s h [a] → ∃ t, exec (.qstop h a m) s = .next t ∧ SeqQueues s t h
      ∧ (∀ e b, (e, b) ∈ [(Eng.axu, 0), (Eng.bke, 1), (Eng.vec, 2)] →
          let q := s.me.queue e
          if (m ||| (s.me.seq.gpr a).setWidth 3).getLsbD b = true ∧ (q.st = .running ∨ q.st = .soft) ∧ q.stopAt = none then
            (t.me.queue e).pc = q.pc ∧ (t.me.queue e).st = q.st ∧ (t.me.queue e).stopAt = some s.chron
              ∧ (t.me.queue e).eff s.chron = q.st ∧ (q.st = .running → (t.me.queue e).eff (s.chron + 1) = .stopped)
          else t.me.queue e = q)
      ∧ (h.g = true → Gives s t .seq (.qstop h a m) 0))
  ∧ ∀ s h d a e, SeqReady s h [d, a] →
      let x := (e ||| (s.me.seq.gpr a).setWidth 3).toNat
      let st (q : Queue) : Nat := (match q.eff s.chron with | .stopped => 0 | .running => 1 | .rest => 2 | .soft => 3)
        + 2 ^ 32 * (q.pc.toNat % 2 ^ 32)
      ∃ t, exec (.qstat h d a e) s = .next t
        ∧ Wrote s t d (BitVec.ofNat 64 (
            if x = 1 then st s.me.axu.q
              + 2 ^ 16 * (s.me.axu.ldq.filter fun y => match y.filled with | some c => decide (c < s.chron) | none => false).length
              + 2 ^ 24 * (max s.me.axu.stqA.length s.me.axu.stqD.length - (s.me.axu.stqA.filter fun y => y.done).length)
            else if x = 2 then st s.me.bke.q else if x = 3 then st s.me.vec.q
            else if x = 4 then (s.me.cpe.cmds.filter fun c => !c.done).length else 0)) false 1
        ∧ SameRegsBut s t [d] ∧ SeqNext s t ∧ SeqFrame s t h

/-- FIX of R319: a user-mode word that names a leg of the chart waits at its fix, and its arrival follows; in supervisor mode, for a leg
the chart has not, or where a core of its group has arrived naming another leg, it is fix error 0x43. HQRY of R323 on an entry the handle cache
holds: each of its fields, usable after 4 cycles, untainted; the entry stays held. -/
def Obligations.FixAndHqry : Prop :=
  (∀ s w a imm p l, SeqReady s ⟨w, false, false⟩ [a] → s.me.seq.sup = false → s.partOf s.cur = some p →
      let n := (s.me.seq.gpr a).toNat + imm.toNat
      (s.part p).leg n = some l → s.fixClash s.cur l.scope n = false →
      ∃ t, exec (.fix w a imm) s = .next t ∧ SeqDoes s t ⟨w, false, false⟩ (fun k => { k with seq := { k.seq with fix := some { leg := n, since := s.chron } } })
        ∧ ∃ e ∈ t.agenda, e.cycle = s.chron ∧ e.core = s.cur ∧ e.instr = .coreArrival)
  ∧ (∀ s w a imm p, SeqReady s ⟨w, false, false⟩ [a] → s.partOf s.cur = some p → Running s p →
      let n := (s.me.seq.gpr a).toNat + imm.toNat
      (s.me.seq.sup = true ∨ (s.part p).leg n = none
        ∨ ∃ l c f, (s.part p).leg n = some l ∧ c ∈ s.groupOf s.cur l.scope ∧ c ≠ s.cur ∧ (s.core c).seq.fix = some f ∧ f.arrived.isSome = true
          ∧ f.leg ≠ n) →
      ∃ t, exec (.fix w a imm) s = .next t ∧ Halts s t p .seq 0x43 s.me.seq.q.pc)
  ∧ ∀ s h d a f p e, SeqReady s h [d, a] → s.partOf s.cur = some p →
      let x := (s.me.seq.gpr a).toNat % 2 ^ 16
      s.me.cached x = some e →
      ∃ t, exec (.hqry h d a f) s = .next t
        ∧ Wrote s t d (if f.toNat = 0 then e.setWidth 64 else if f.toNat = 1 then (e.extractLsb' 64 56).setWidth 64
            else if f.toNat < 8 then (e.extractLsb' (128 + 32 * (f.toNat - 2)) 32).setWidth 64
            else (e.extractLsb' (320 + 32 * (f.toNat - 8)) 32).signExtend 64) false 4
        ∧ SameRegsBut s t [d] ∧ SeqNext s t ∧ SameOutside s t ∧ t.me.cached x = some e
        ∧ ((tget s.me.hcPinned x).isSome = true → SeqFrame s t h)

/-! ## System words -/

namespace Sys2Proof

/-- CRR of an offset reads a value, usable after 2 cycles; a supervisor-only register in supervisor mode (R192, R422). -/
def CrrReads (s : State) (off : Nat) (v : Word) : Prop :=
  ∀ h d, SeqReady s h [d] → (supOnly off = true → s.me.seq.sup = true) → ∃ t, exec (.crr h d (BitVec.ofNat 8 (off / 8))) s = .next t
    ∧ Wrote s t d v false 2 ∧ SameRegsBut s t [d] ∧ SeqNext s t ∧ SeqFrame s t h

/-- CRW of an offset has an effect on its core in its issue cycle, with the value of ga (R192, R422). -/
def CrwWrites (s : State) (off : Nat) (f : Word → Core → Core) : Prop :=
  ∀ h a, SeqReady s h [a] → (supOnly off = true → s.me.seq.sup = true) → ∃ t, exec (.crw h a (BitVec.ofNat 8 (off / 8))) s = .next t
    ∧ SeqDoes s t h (f (s.me.seq.gpr a)) ∧ (h.g = true → Gives s t .seq (.crw h a (BitVec.ofNat 8 (off / 8))) 0)

/-- A privileged word in user mode of a running partition is hard fault 0x02 (R272, R421). -/
def Privileged (i : Instr) (h : Hdr) (rs : List (Fin 32)) : Prop :=
  ∀ s p, SeqReady s h rs → s.me.seq.sup = false → s.partOf s.cur = some p → Running s p →
    ∃ t, exec i s = .next t ∧ Halts s t p .seq 0x02 s.me.seq.q.pc ∧ SameRegsBut s t [] ∧ t.memory = s.memory

/-- TKSEL after a write: each byte applies if FROM and TO are allowed values that are not the engine, else it keeps its value
(R183). -/
def TkselAfter (old v new : Word) : Prop :=
  new.toNat < 2 ^ 40 ∧ ∀ q < 5,
    let b := v.toNat / 2 ^ (8 * q) % 128
    let f := b % 16
    let o := b / 16
    if (f ≤ 4 ∧ f ≠ q ∨ 8 ≤ f ∧ f ≤ 11) ∧ o ≤ 4 ∧ o ≠ q then new.toNat / 2 ^ (8 * q) % 256 = b
    else new.toNat / 2 ^ (8 * q) % 256 = old.toNat / 2 ^ (8 * q) % 256

end Sys2Proof

/-- CRR of every register of the control page (R192, R422): one line a register. -/
def Obligations.ControlRegisterReads : Prop :=
  ∀ s, let q := s.me.seq
    let k := s.me.ctl
    let st (x : Queue) : Nat := match x.eff s.chron with | .stopped => 0 | .running => 1 | .rest => 2 | .soft => 3
    CrrReads s 0x000 (BitVec.ofNat 64 ((if q.sup then 1 else 0) + (if q.sup && q.pmode then 2 else 0)))
    ∧ CrrReads s 0x008 (q.cause.setWidth 64) ∧ CrrReads s 0x010 (q.epc.setWidth 64) ∧ CrrReads s 0x018 (q.hvec.setWidth 64)
    ∧ CrrReads s 0x020 (BitVec.ofNat 64 s.chron) ∧ CrrReads s 0x028 (k.legno.setWidth 64) ∧ CrrReads s 0x030 (k.course.setWidth 64)
    ∧ CrrReads s 0x038 (k.sizecls.setWidth 64) ∧ CrrReads s 0x040 (k.health.setWidth 64)
    ∧ (∀ p, s.partOf s.cur = some p → CrrReads s 0x048 ((s.part p).pwrcls.setWidth 64))
    ∧ CrrReads s 0x050 k.tksel ∧ CrrReads s 0x058 k.tkceil0 ∧ CrrReads s 0x060 k.tkceil1
    ∧ CrrReads s 0x068 (BitVec.ofNat 64 (k.ltc[0].toNat + 2 ^ 16 * k.ltc[1].toNat + 2 ^ 32 * k.ltc[2].toNat + 2 ^ 48 * k.ltc[3].toNat))
    ∧ CrrReads s 0x070 (BitVec.ofNat 64 (st s.me.axu.q + 4 * st s.me.bke.q + 16 * st s.me.vec.q
        + 256 * (s.me.cpe.cmds.filter fun c => !c.done).length))
    ∧ CrrReads s 0x078 (k.secnt.setWidth 64)
    ∧ (∀ j : Fin 16, CrrReads s (0x080 + 8 * j.val) k.bfmt[j]) ∧ CrrReads s 0x100 k.vsh ∧ CrrReads s 0x108 k.vmd
    ∧ (∀ n : Fin 32, CrrReads s (0x200 + 8 * n.val) (s.fab.sgw[2 * n.val + 1] ++ s.fab.sgw[2 * n.val]))
    ∧ (∀ i : Fin 6, CrrReads s (0x300 + 8 * i.val) (s.me.stat.cnt[i].setWidth 64))
    ∧ (∀ i : Fin 6, CrrReads s (0x340 + 8 * i.val) s.me.stat.th[i])
    ∧ CrrReads s 0x380 (s.me.stat.win.setWidth 64) ∧ CrrReads s 0x388 (s.me.stat.ev.setWidth 64)
    ∧ (∀ i : Fin 16, let r := k.rng[i]
        CrrReads s (0x400 + 32 * i.val) (r.base.setWidth 64 <<< 16) ∧ CrrReads s (0x408 + 32 * i.val) (r.limit.setWidth 64 <<< 16)
        ∧ CrrReads s (0x410 + 32 * i.val) (r.off.setWidth 64 <<< 16)
        ∧ CrrReads s (0x418 + 32 * i.val) (BitVec.ofNat 64 ((if r.v then 1 else 0) + (if r.r then 2 else 0) + (if r.w then 4 else 0)
            + (if r.a then 8 else 0) + (if r.u then 16 else 0))))
    ∧ (∀ w : Fin 4, let r := k.rwin[w]
        CrrReads s (0x600 + 16 * w.val) (r.bmask.setWidth 64)
        ∧ CrrReads s (0x608 + 16 * w.val) (BitVec.ofNat 64 (r.rowlo.toNat + 2 ^ 16 * r.rowhi.toNat + (if r.v then 2 ^ 31 else 0))))
    ∧ (s.me.axu.soft = none → CrrReads s 0x680 0)
    ∧ (∀ f, s.me.axu.soft = some f → CrrReads s 0x680 (BitVec.ofNat 64 (1 + (if f.stq then 2 else 0) + 4 * (f.slot % 64))))

/-- CRW of every writable register of the control page but RWIN (R192, R422), TKSEL byte by byte (R183); read-only registers keep
their value. -/
def Obligations.ControlRegisterWrites : Prop :=
  (∀ s, s.me.seq.sup = true → CrwWrites s 0x000 (fun v k => { k with seq := { k.seq with pmode := v.getLsbD 1 } }))
  ∧ (∀ s, s.me.seq.sup = false → CrwWrites s 0x000 (fun _ k => k))
  ∧ (∀ s, CrwWrites s 0x008 (fun v k => { k with seq := { k.seq with cause := v.setWidth 8 } }))
  ∧ (∀ s, CrwWrites s 0x010 (fun v k => { k with seq := { k.seq with epc := v.setWidth 32 } }))
  ∧ (∀ s, CrwWrites s 0x018 (fun v k => { k with seq := { k.seq with hvec := v.setWidth 32 &&& 0xFFFFFFFC } }))
  ∧ (∀ s, CrwWrites s 0x038 (fun v k => { k with ctl := { k.ctl with sizecls := v.setWidth 4 } }))
  ∧ (∀ s, ∃ new : Word → Word, (∀ v, TkselAfter s.me.ctl.tksel v (new v))
      ∧ CrwWrites s 0x050 (fun v k => { k with ctl := { k.ctl with tksel := new v, tkselOld := some (s.chron, s.me.ctl.tksel) } }))
  ∧ (∀ s, CrwWrites s 0x058 (fun v k => { k with ctl := { k.ctl with tkceil0 := v } }))
  ∧ (∀ s, CrwWrites s 0x060 (fun v k => { k with ctl := { k.ctl with tkceil1 := v &&& 0xFFFF } }))
  ∧ (∀ s, ∀ j : Fin 16, CrwWrites s (0x080 + 8 * j.val) (fun v k =>
      let old := s.me.ctl.bfmt[j].toNat
      let x := BitVec.ofNat 64 ((if v.toNat % 32 < 16 then v.toNat % 32 else old % 32)
        + 256 * (if v.toNat / 256 % 8 < 5 then v.toNat / 256 % 8 else old / 256 % 8))
      { k with ctl := { k.ctl with bfmt := k.ctl.bfmt.set j.val x } }))
  ∧ (∀ s, CrwWrites s 0x100 (fun v k =>
      let x := if (v.toNat / 2 ^ 16 % 2 ^ 12 + 1) * (v.toNat % 2 ^ 12 + 1) ≤ 4096 then v &&& 0x0FFF0FFF else s.me.ctl.vsh
      let m := if k.vec.modeOld.map (·.1) = some s.chron then k.vec.modeOld else some (s.chron, s.me.ctl.vsh, s.me.ctl.vmd)
      { k with ctl := { k.ctl with vsh := x }, vec := { k.vec with modeOld := m } }))
  ∧ (∀ s, CrwWrites s 0x108 (fun v k =>
      let old := s.me.ctl.vmd.toNat
      let x := (if v.toNat % 8 < 6 then v.toNat % 8 else old % 8) + 8 * (v.toNat / 8 % 2)
        + 256 * (if v.toNat / 256 % 8 < 7 then v.toNat / 256 % 8 else old / 256 % 8)
        + 2 ^ 11 * (v.toNat / 2 ^ 11 % 4) + 2 ^ 16 * (v.toNat / 2 ^ 16 % 2 ^ 16)
      let m := if k.vec.modeOld.map (·.1) = some s.chron then k.vec.modeOld else some (s.chron, s.me.ctl.vsh, s.me.ctl.vmd)
      { k with ctl := { k.ctl with vmd := BitVec.ofNat 64 x }, vec := { k.vec with modeOld := m } }))
  ∧ (∀ s, ∀ i : Fin 6, CrwWrites s (0x300 + 8 * i.val)
      (fun v k => { k with stat := { k.stat.open_ s.chron with cnt := k.stat.cnt.set i (v.setWidth 32) } }))
  ∧ (∀ s, ∀ i : Fin 6, CrwWrites s (0x340 + 8 * i.val)
      (fun v k => { k with stat := { k.stat.open_ s.chron with th := k.stat.th.set i (v &&& 0x3FFFFFFFF) } }))
  ∧ (∀ s, CrwWrites s 0x380 (fun v k => { k with stat := { k.stat.open_ s.chron with
      win := if 10 ≤ v.toNat % 64 ∧ v.toNat % 64 ≤ 40 then v.setWidth 6 else k.stat.win } }))
  ∧ (∀ s, CrwWrites s 0x388 (fun v k => { k with stat := { k.stat.open_ s.chron with ev := k.stat.ev &&& ~~~(v.setWidth 6) } }))
  ∧ (∀ s, ∀ i : Fin 16, ∀ o f, (o, f) ∈ [
        ((0 : Nat), fun (v : Word) (r : Range) => { r with base := v.extractLsb' 16 36 }),
        (8, fun v r => { r with limit := v.extractLsb' 16 36 }), (16, fun v r => { r with off := v.extractLsb' 16 40 }),
        (24, fun v r => { r with v := v.getLsbD 0, r := v.getLsbD 1, w := v.getLsbD 2, a := v.getLsbD 3, u := v.getLsbD 4 })] →
      CrwWrites s (0x400 + 32 * i.val + o) (fun v k => { k with ctl := { k.ctl with rng := k.ctl.rng.set i.val (f v k.ctl.rng[i]) } }))
  ∧ (∀ s off, off ∈ [0x020, 0x028, 0x030, 0x040, 0x048, 0x068, 0x070, 0x078, 0x200, 0x2F8, 0x700] → CrwWrites s off (fun _ k => k))

/-- TRAP of R423 and SRET of R424: what a trap saves and where it goes, and what its return restores; TRAP nests in supervisor
mode, and is deviation 0x41 in a fixed leg. -/
def Obligations.TrapAndReturn : Prop :=
  (∀ s h n, SeqReady s h [] → s.fixedLeg s.cur = false → ∃ t, exec (.trap h n) s = .next t
      ∧ t.me.seq.epc = BitVec.ofInt 32 (s.me.seq.q.pc + 4) ∧ t.me.seq.cause = BitVec.ofNat 8 (0x80 + n.toNat)
      ∧ t.me.seq.pmode = s.me.seq.sup ∧ t.me.seq.sup = true ∧ SeqGoes s t (s.me.seq.hvec.toNat : Int)
      ∧ (∀ r, t.me.seq.gpr r = s.me.seq.gpr r ∧ t.me.seq.tnt r = s.me.seq.tnt r) ∧ t.me.seq.hvec = s.me.seq.hvec ∧ SeqFrame s t h)
  ∧ (∀ s h n p, SeqReady s h [] → s.fixedLeg s.cur = true → s.partOf s.cur = some p → Running s p →
      ∃ t, exec (.trap h n) s = .next t ∧ Halts s t p .seq 0x41 s.me.seq.q.pc)
  ∧ ∀ s h, SeqReady s h [] → s.me.seq.sup = true → ∃ t, exec (.sret h) s = .next t
      ∧ t.me.seq.sup = s.me.seq.pmode ∧ SeqGoes s t (s.me.seq.epc.toNat : Int)
      ∧ t.me.seq.noTakeAt = (if s.me.seq.epcTook then some (s.me.seq.epc.toNat : Int) else none)
      ∧ t.me.seq.pmode = s.me.seq.pmode ∧ t.me.seq.cause = s.me.seq.cause ∧ t.me.seq.epc = s.me.seq.epc
      ∧ (∀ r, t.me.seq.gpr r = s.me.seq.gpr r ∧ t.me.seq.tnt r = s.me.seq.tnt r) ∧ SeqFrame s t h

/-- HALT of R425, HSET of R426, SCANR of R427, WREP of R428 and the CRW to a row window of R99 when no row of its bank mask is
open: what each starts. HSET and WREP in a fixed leg are deviation 0x41. -/
def Obligations.HaltTableScanAndRowBus : Prop :=
  (∀ s h a, SeqReady s h [a] → s.fixWaiting s.cur = false → (s.fixedLeg s.cur = true → s.coreQuiet s.cur = true) →
      ∃ t, exec (.halt h a) s = .next t
        ∧ SeqDoes s t h (fun k => { k with seq := { k.seq with haltWait := some ((s.me.seq.gpr a).setWidth 32, h.g) } })
        ∧ (∃ w ∈ t.me.pipe.infl, w.instr = .halt h a ∧ w.doneAt = s.chron)
        ∧ (h.g = true → Gives s t .seq (.halt h a) 0))
  ∧ (∀ s h a b ia, SeqReady s h [a, b] → s.me.seq.sup = true → s.fixedLeg s.cur = false → SeqMay s (.hset h a b) (s.me.seq.gpr b) 64 .read ia →
      ∃ t, exec (.hset h a b) s = .next t
        ∧ SeqAsks s t [] s.nextId .read ia 64 (.hset ((s.me.seq.gpr a).toNat % 2 ^ 16)) (seqDist (bankOf ia)) 0 0
        ∧ t.me.seq.hold = some s.nextId ∧ SameRegsBut s t [] ∧ SeqNext s t ∧ SeqFrame s t h)
  ∧ (∀ s h d a, SeqReady s h [d, a] → s.me.seq.sup = true → ∃ t, exec (.scanr h d a) s = .next t
      ∧ (∃ w ∈ t.me.pipe.infl, w.instr = .scanr h d a ∧ w.doneAt = s.chron + 63 ∧ w.lat = [(s.me.seq.gpr a).toNat % 2 ^ 32])
      ∧ (d ≠ 0 → t.me.seq.gReady[d] = s.chron + 64) ∧ (h.g = true → Gives s t .seq (.scanr h d a) 63)
      ∧ (∀ r, t.me.seq.gpr r = s.me.seq.gpr r ∧ t.me.seq.tnt r = s.me.seq.tnt r)
      ∧ (∀ r, r ≠ d → t.me.seq.gReady[r] = s.me.seq.gReady[r]) ∧ SameTraps s.me.seq t.me.seq ∧ SeqNext s t ∧ SeqFrame s t h)
  ∧ (∀ s h a b, SeqReady s h [a, b] → s.me.seq.sup = true → s.fixedLeg s.cur = false →
      (s.col s.cur).allClosed s.chron = true → (s.col s.cur).wrepEnd ≤ s.chron →
      let op := (s.me.seq.gpr b).toNat % 4
      let n := if op = 0 then 64 else if op = 1 then 4096 else if op = 2 then 64 else 1
      ∃ t, exec (.wrep h a b) s = .next t
        ∧ (∃ w ∈ t.me.pipe.infl, w.instr = .wrep h a b ∧ w.doneAt = s.chron + n - 1 ∧ w.lat = [op, (s.me.seq.gpr a).toNat])
        ∧ t.col s.cur = { s.col s.cur with wrepEnd := s.chron + n } ∧ (∀ c, c ≠ s.cur → t.col c = s.col c)
        ∧ (h.g = true → Gives s t .seq (.wrep h a b) (n - 1))
        ∧ SeqDoes s { t with cols := s.cols } h (fun k => k))
  ∧ (∀ s h a b p i, i ∈ [Instr.hset h a b, .wrep h a b] → SeqReady s h [a, b] → s.me.seq.sup = true → s.fixedLeg s.cur = true →
      s.partOf s.cur = some p → Running s p →
      ∃ t, exec i s = .next t ∧ Halts s t p .seq 0x41 s.me.seq.q.pc ∧ SameRegsBut s t [] ∧ t.cols = s.cols)
  ∧ ∀ s h a w, SeqReady s h [a] → s.me.seq.sup = true → (w.toNat ∈ [0xC0, 0xC2, 0xC4, 0xC6]) →
      let i : Fin 4 := Fin.ofNat 4 ((w.toNat - 0xC0) / 2)
      ((s.col s.cur).openIn s.me.ctl.rwin[i].bmask s.chron) = [] →
      ∃ t, exec (.crw h a w) s = .next t ∧ (t.me.ctl.rwin[i]).bmask = (s.me.seq.gpr a).setWidth 32
        ∧ (t.me.ctl.rwin[i]).rowlo = s.me.ctl.rwin[i].rowlo ∧ (t.me.ctl.rwin[i]).rowhi = s.me.ctl.rwin[i].rowhi
        ∧ (∀ j, j ≠ i → t.me.ctl.rwin[j] = s.me.ctl.rwin[j]) ∧ SameRegsBut s t [] ∧ SeqNext s t

/-- SRET, HSET, SCANR, WREP, and CRR and CRW of a supervisor-only register, in user mode: hard fault 0x02 (R272, R421, R192). -/
def Obligations.PrivilegedWordsFaultInUserMode : Prop :=
  (∀ h, Privileged (.sret h) h []) ∧ (∀ h a b, Privileged (.hset h a b) h [a, b]) ∧ (∀ h d a, Privileged (.scanr h d a) h [d, a])
  ∧ (∀ h a b, Privileged (.wrep h a b) h [a, b])
  ∧ ∀ h d (off : BitVec 8), off ∈ [0x01, 0x02, 0x03, 0x80, 0xBF, 0xC0, 0xC7, 0xD0] →
      Privileged (.crr h d off) h [d] ∧ Privileged (.crw h d off) h [d]

/-- What a command word latches (R406, R407): its operation and operands, its flags and scope, byte 4 of TKSEL, the SEQ accesses before it,
and where the completion record goes, with the fault its write would have. -/
def Sys2Proof.Latches (s : State) (x : CmdIn) (op : Nat) (d b : Fin 32) (sc : BitVec 4) (rel acq : Bool) : Prop :=
  let gb := (s.me.seq.gpr b).toNat
  x.op = op ∧ x.d = d ∧ x.scope = sc.toNat ∧ x.acq = acq ∧ x.rel = rel ∧ x.recVa = gb ∧ x.num = s.nextId ∧ x.isRec = false
    ∧ x.from_ = (s.me.ctl.seen s.chron).from_ 4 ∧ x.to_ = (s.me.ctl.seen s.chron).to_ 4
    ∧ (∀ id, id ∈ x.deps ↔ ∃ r ∈ s.reqs, r.id = id ∧ r.core = s.cur ∧ r.who = 0 ∧ r.done = false)
    ∧ (gb = 0 → x.recIa = 0 ∧ x.recErr = 0) ∧ (2 ^ 52 ≤ gb → x.recErr = 0x30)
    ∧ (gb ≠ 0 → gb < 2 ^ 52 → match translate s.me.ctl.rng (!s.me.seq.sup) gb 64 .write with
        | .ok ia => x.recIa = ia ∧ x.recErr = 0
        | .error code => x.recErr = code)

/-- The command words CPY to PACK of R406 and R407: each reads its 128-byte block at ga, and CPYR the 64-byte record at gb too, as SEQ loads, and
latches its operands, its flags and byte 4 of TKSEL for the entry of the command; a CPYR with gb = 0 is hard fault 0x15, a gb that is not a
multiple of 64 hard fault 0x13, and CPYR, SORT and PACK in a fixed leg are deviation 0x41. -/
def Obligations.CopyCommandWords : Prop :=
  (∀ s h d a b sc l p ia i op,
    (i, op) ∈ [(Instr.cpy h d a b sc l p, 0x32), (Instr.cpyf h d a b sc l p, 0x33), (Instr.cpyw h d a b sc l p, 0x34),
      (Instr.sort h d a b sc l p, 0x36), (Instr.pack h d a b sc l p, 0x37)] →
    SeqReady s h [d, a, b] → (s.me.seq.gpr b).toNat % 64 = 0 → s.cmdCount s.cur < 16 → SeqMay s i (s.me.seq.gpr a) 128 .read ia →
    (0x35 ≤ op → s.fixedLeg s.cur = false) →
    ∃ t x, exec i s = .next t ∧ SeqAsks s t [] (s.nextId + 1) .read ia 128 (.cmd x) (seqDist (bankOf ia)) 0 0
      ∧ Latches s x op d b sc l p
      ∧ (∀ r, t.me.seq.gpr r = s.me.seq.gpr r ∧ t.me.seq.tnt r = s.me.seq.tnt r)
      ∧ (∀ r, r ≠ d → t.me.seq.gReady[r] = s.me.seq.gReady[r]) ∧ SameTraps s.me.seq t.me.seq ∧ SeqNext s t ∧ SeqFrame s t h)
  ∧ (∀ s h d a b sc l p ia ra,
    let i := Instr.cpyr h d a b sc l p
    let gb := (s.me.seq.gpr b).toNat
    let cs := ownClaims .read (bankOf ra) (s.chron + 1)
    SeqReady s h [d, a, b] → gb ≠ 0 → gb % 64 = 0 → gb < 2 ^ 52 → s.cmdCount s.cur < 16 → s.fixedLeg s.cur = false →
    SeqMay s i (s.me.seq.gpr a) 128 .read ia →
    translate s.me.ctl.rng (!s.me.seq.sup) gb 64 .read = .ok ra → s.issuerCheck (s.partOf s.cur) ra = none →
    (isOwnSpad s.cur ra = true → s.me.pipe.hitAt cs = none
      ∧ (isOwnSpad s.cur ia = true → (s.claim s.cur cs).me.pipe.hitAt (ownClaims .read (bankOf ia) s.chron) = none)) →
    ∃ t x q, exec i s = .next t ∧ SeqAsks s t [q] (s.nextId + 2) .read ia 128 (.cmd x) (seqDist (bankOf ia)) 0 0
      ∧ Latches s x 0x35 d b sc l p
      ∧ q.id = s.nextId + 1 ∧ q.core = s.cur ∧ q.who = 0 ∧ q.kind = .read ∧ q.ia = ra ∧ q.n = 64 ∧ q.dest = .cmd { x with isRec := true }
      ∧ (isOwnSpad s.cur ra = true → ∃ e ∈ t.agenda, e.cycle = s.chron + 1 + seqDist (bankOf ra) ∧ e.core = s.cur ∧ e.instr = .accessResponse q.id)
      ∧ (isOwnSpad s.cur ra = false → t.me.seq.hold.isSome = true ∧ ∃ e ∈ t.agenda, s.chron < e.cycle ∧ e.core = s.cur ∧ e.instr = .pageWalk q.id)
      ∧ (∀ r, t.me.seq.gpr r = s.me.seq.gpr r ∧ t.me.seq.tnt r = s.me.seq.tnt r)
      ∧ (∀ r, r ≠ d → t.me.seq.gReady[r] = s.me.seq.gReady[r]) ∧ SameTraps s.me.seq t.me.seq ∧ SeqNext s t ∧ SeqFrame s t h)
  ∧ ∀ s h d a b sc l p i op q,
    (i, op) ∈ [(Instr.cpy h d a b sc l p, 0x32), (Instr.cpyf h d a b sc l p, 0x33), (Instr.cpyw h d a b sc l p, 0x34),
      (Instr.cpyr h d a b sc l p, 0x35), (Instr.sort h d a b sc l p, 0x36), (Instr.pack h d a b sc l p, 0x37)] →
    SeqReady s h [d, a, b] → s.partOf s.cur = some q → Running s q →
    let gb := (s.me.seq.gpr b).toNat
    let halts (code : Nat) : Prop := ∃ t, exec i s = .next t ∧ Halts s t q .seq code s.me.seq.q.pc ∧ SameRegsBut s t [] ∧ t.reqs = s.reqs
    (op = 0x35 → gb = 0 → halts 0x15) ∧ (0x35 ≤ op → (op = 0x35 → gb ≠ 0) → s.fixedLeg s.cur = true → halts 0x41)
      ∧ ((0x35 ≤ op → s.fixedLeg s.cur = false) → s.cmdCount s.cur < 16 → gb % 64 ≠ 0 → halts 0x13)

/-! ## Words of the AXU -/

namespace Sys2Proof

/-- A word of the AXU that may issue puts a job at the end of the generator's list, with the count, the base and the stride of its accesses
and what it latches for them, and itself in flight, open until its accesses are complete; an idle generator takes the job up at once (R324,
R325, R181). -/
def AxuMakes (s t : State) (i : Instr) (h : Hdr) (count : Nat) (base stride : Int) (latched : List Nat → Prop) : Prop :=
  ∃ j w, EngDoes s t .axu h (fun k => { k with
      axu := { k.axu with gen := k.axu.gen ++ [j] }, hcUnpinned := t.me.hcUnpinned })
    ∧ EngNext s t .axu
    ∧ j.instr = i ∧ j.pc = s.me.axu.q.pc ∧ j.next = 0 ∧ j.count = count ∧ j.base = base ∧ j.stride = stride ∧ latched j.lat ∧ j.marks = s.me.axu.marks
    ∧ w ∈ t.me.pipe.infl ∧ w.id = j.id ∧ w.eng = .axu ∧ w.instr = i ∧ w.access = true ∧ w.give = h.g ∧ w.giveTo = (s.me.ctl.seen s.chron).to_ 1
    ∧ (s.me.axu.gen = [] → ∃ e ∈ t.agenda, e.cycle = max s.chron s.me.axu.genFree ∧ e.core = s.cur ∧ e.instr = .accessGeneration)

/-- A fixed leg finds the generator free (R325). -/
def GenFree (s : State) : Prop := s.fixedLeg s.cur = true → s.me.axu.genBusy s.chron = false

/-- A word of the AXU whose operands break a rule is a hard fault of the AXU with a code (R148, R328). -/
def AxuFaults (s : State) (i : Instr) (h : Hdr) (p : PartIx) (code : Nat) : Prop :=
  EngReady s .axu h → s.partOf s.cur = some p → Running s p →
    ∃ t, exec i s = .next t ∧ Halts s t p .axu code s.me.axu.q.pc ∧ t.cols = s.cols ∧ t.memory = s.memory

/-- A line stream of form AS: count + 1 accesses from the base register plus the offset of the open loops, with the stride named; a gather
latches the base of its indexes (R324, R334, R335). In a fixed leg a word that finds the generator busy is deviation 0x41 (R325). -/
def AxuStream (mk : Hdr → Fin 16 → BitVec 3 → BitVec 2 → BitVec 8 → Instr) (index : Option (Fin 16)) : Prop :=
  (∀ s h a nl ss c p, ¬ GenFree s → AxuFaults s (mk h a nl ss c) h p 0x41)
  ∧ ∀ s h a nl ss c, EngReady s .axu h → GenFree s →
    let n := (engCore s .axu h).axu.n
    let stride (m : Nest) : Int := if ss = 0 then m.s0.toInt else if ss = 1 then m.s1.toInt else m.s2.toInt
    ∃ t, exec (mk h a nl ss c) s = .next t
      ∧ AxuMakes s t (mk h a nl ss c) h (c.toNat + 1)
          ((s.me.axu.a[a].toNat : Int) + (s.me.axu.q.loops.map fun f => if x : f.nest < 6 then (n[f.nest].pos.toNat : Int) * stride n[f.nest] else 0).sum)
          (if x : nl.toNat < 6 then stride n[nl.toNat] else 128)
          (fun l => l = match index with | some b => [s.me.axu.a[b].toNat] | none => [])

/-- LDH or STH through an entry the handle cache holds that passes the checks of R188 and R336: bound + 1 lines of the named nest, from
the coordinates the nests give, with the entry latched. An entry that fails a check is a hard fault of the AXU with its code. -/
def AxuThroughHandle (mk : Hdr → BitVec 16 → BitVec 3 → BitVec 2 → Instr) (types : List Nat) (right : HRight) : Prop :=
  ∀ s h hd nl x e, EngReady s .axu h → s.me.cached hd.toNat = some e →
    let check := handleCheck s.me.ctl.bfmt e types right
    let csr : Bool := e.toNat % 16 == 4
    let dim : Bool := nl.toNat == 7 || decide (nl.toNat < entNdim e)
    let n := (engCore s .axu h).axu.n
    (GenFree s → check = none → (csr = true ∨ lineFormatOk e = true ∧ dim = true) → (s.fixedLeg s.cur = true → csr = false) →
      ∃ t, exec (mk h hd nl x) s = .next t
        ∧ AxuMakes s t (mk h hd nl x) h (if y : nl.toNat < 6 then s.me.axu.n[nl.toNat].bound.toNat + 1 else 1) 0 0
            (fun l => s.me.axu.genBusy s.chron = false → l = [e.toNat, nl.toNat, x.toNat]
              ++ (List.finRange 6).map fun d => if d.val < entNdim e ∨ d.val = 0 then n[d].pos.toNat else 0))
    ∧ ∀ p code, s.me.axu.genBusy s.chron = false →
        (check = some code ∨ check = none ∧ csr = false ∧ lineFormatOk e = false ∧ code = 0x15
          ∨ check = none ∧ csr = false ∧ lineFormatOk e = true ∧ dim = false ∧ code = 0x12) →
        AxuFaults s (mk h hd nl x) h p code

end Sys2Proof

/-- AADD, AADD.nw, ALI, ALI.sh and AMOV of R329 to R331, LEND of R333 and MARK of R338. -/
def Obligations.AccessUnitAddressWords : Prop :=
  (∀ s h d a b neg sh, EngReady s .axu h →
    let x : Int := s.me.axu.a[a].toNat
    let y : Int := s.me.axu.a[b].toNat * 2 ^ sh.toNat
    ∃ t, exec (.aadd h d a b neg sh) s = .next t
      ∧ EngDoes s t .axu h (fun k => { k with axu := { k.axu with
          a := k.axu.a.set d.val (BitVec.ofInt 64 (if neg then x - y else x + y)) } })
      ∧ EngNext s t .axu ∧ (h.g = true → Gives s t .axu (.aadd h d a b neg sh) 0))
  ∧ (∀ s h nl a b f, EngReady s .axu h →
      let v := s.me.axu.a[a] + s.me.axu.a[b]
      let wr (n : Nest) : Nest := if f = 0 then { n with bound := v.setWidth 16 } else if f = 1 then { n with pos := v.setWidth 16 }
        else if f = 2 then { n with s0 := v.setWidth 32 } else if f = 3 then { n with s1 := v.setWidth 32 } else { n with s2 := v.setWidth 32 }
      ∃ t, exec (.aaddNw h nl a b f) s = .next t
        ∧ EngDoes s t .axu h (fun k => { k with axu := { k.axu with
            n := if x : nl.toNat < 6 then k.axu.n.set nl.toNat (wr k.axu.n[nl.toNat]) else k.axu.n } })
        ∧ EngNext s t .axu ∧ (h.g = true → Gives s t .axu (.aaddNw h nl a b f) 0))
  ∧ (∀ s h d imm, EngReady s .axu h → ∃ t, exec (.ali h d imm) s = .next t
      ∧ EngDoes s t .axu h (fun k => { k with axu := { k.axu with a := k.axu.a.set d.val (imm.signExtend 64) } })
      ∧ EngNext s t .axu ∧ (h.g = true → Gives s t .axu (.ali h d imm) 0))
  ∧ (∀ s h d imm, EngReady s .axu h → ∃ t, exec (.aliSh h d imm) s = .next t
      ∧ EngDoes s t .axu h (fun k => { k with axu := { k.axu with
          a := k.axu.a.set d.val (s.me.axu.a[d].setWidth 48 ++ imm) } })
      ∧ EngNext s t .axu ∧ (h.g = true → Gives s t .axu (.aliSh h d imm) 0))
  ∧ (∀ s h d a, EngReady s .axu h → ∃ t, exec (.amov h d a) s = .next t
      ∧ EngDoes s t .axu h (fun k => { k with axu := { k.axu with a := k.axu.a.set d.val s.me.axu.a[a] } })
      ∧ EngNext s t .axu ∧ (h.g = true → Gives s t .axu (.amov h d a) 0))
  ∧ (∀ s h nl, EngReady s .axu h →
      let step (n : Nest) : Nest := { n with pos := if n.pos.toNat < n.bound.toNat then n.pos + 1 else 0 }
      ∃ t, exec (.lend h nl) s = .next t
        ∧ EngDoes s t .axu h (fun k => { k with axu := { k.axu with
            n := if x : nl.toNat < 6 then k.axu.n.set nl.toNat (step k.axu.n[nl.toNat]) else k.axu.n } })
        ∧ EngNext s t .axu ∧ (h.g = true → Gives s t .axu (.lend h nl) 0))
  ∧ ∀ s h, EngReady s .axu h → ∃ t, exec (.mark h) s = .next t
      ∧ EngDoes s t .axu h (fun k => { k with axu := { k.axu with marks := k.axu.marks + 1 } })
      ∧ EngNext s t .axu ∧ (h.g = true → Gives s t .axu (.mark h) 0)

/-- LOOP of the AXU (R332) opens a loop of bound + 1 trips over the next len + 1 words, inside the open loops if any; a reserved nest, the
nest of an open loop, and a body that would leave the enclosing one are hard fault 0x01. -/
def Obligations.AccessUnitLoop : Prop :=
  (∀ s h nl l, EngReady s .axu h → ∀ x : nl.toNat < 6,
    let q := s.me.axu.q
    let base := if q.loops = [] then q.pc + 4 else q.lbase
    let first := ((q.pc + 4 - base) / 4).toNat
    (∀ f ∈ q.loops, f.nest ≠ nl.toNat) → (∀ f, q.loops.head? = some f → first + l.toNat ≤ f.last) →
    ∃ t, exec (.loop h nl l) s = .next t
      ∧ t.me.axu.q.loops
        = { nest := nl.toNat, trips := s.me.axu.n[nl.toNat].bound.toNat + 1, trip := 0, first := first, last := first + l.toNat } :: q.loops
      ∧ t.me.axu.q.pc = base + 4 * (first : Int) ∧ t.me.axu.q.lbase = base ∧ t.me.axu.q.base = s.chron + 1
      ∧ EngDoes s t .axu h (fun k => { k with axu := { k.axu with q := t.me.axu.q } })
      ∧ (h.g = true → Gives s t .axu (.loop h nl l) 0))
  ∧ ∀ s h nl l p, 6 ≤ nl.toNat ∨ (∃ f ∈ s.me.axu.q.loops, f.nest = nl.toNat)
      ∨ (∃ f, s.me.axu.q.loops.head? = some f ∧ f.last < ((s.me.axu.q.pc + 4 - s.me.axu.q.lbase) / 4).toNat + l.toNat) →
    AxuFaults s (.loop h nl l) h p 0x01

/-- LDS and STS of R334, LDG and STG of R335: what each word puts in the generator. -/
def Sys2Proof.AccessUnitStreams : Prop :=
  AxuStream .lds none ∧ AxuStream .sts none ∧ (∀ b, AxuStream (fun h a nl ss c => .ldg h a b nl ss c) (some b))
  ∧ ∀ b, AxuStream (fun h a nl ss c => .stg h a b nl ss c) (some b)

/-- LDH and STH of R336 and R337: what each word puts in the generator, and the faults of its handle. -/
def Sys2Proof.AccessUnitHandles : Prop :=
  AxuThroughHandle .ldh [1, 4, 5, 6] .rd ∧ AxuThroughHandle .sth [1, 5, 6] .wr

/-- ISECT and IMERGE of R341 and ICNT of R342 in a free leg: with the generator free each puts a job there that latches its two lists; with a
busy generator it waits. In a fixed leg they are deviation 0x41. -/
def Sys2Proof.AccessUnitSortedSets : Prop :=
  ∀ s h a b c d p i n,
    (i, n) ∈ [(Instr.isect h a b c, c.toNat + 1), (Instr.imerge h a b c, c.toNat + 1), (Instr.icnt h a b p d, 1)] →
    EngReady s .axu h →
    (s.fixedLeg s.cur = false →
      (s.me.axu.genBusy s.chron = false → ∃ t, exec i s = .next t ∧ AxuMakes s t i h n 0 0 (fun l => l = setLatch a b s.me.axu.a))
      ∧ (s.me.axu.genBusy s.chron = true → ∃ t, exec i s = .next t ∧ EngStays s t .axu))
    ∧ ∀ q, s.fixedLeg s.cur = true → s.partOf s.cur = some q → Running s q →
        ∃ t, exec i s = .next t ∧ Halts s t q .axu 0x41 s.me.axu.q.pc ∧ t.memory = s.memory

/-- What the words of the access unit that make accesses put in the generator: strided and gathered streams, lines through a handle, sorted
sets. -/
def Obligations.AccessUnitAccessWords : Prop := AccessUnitStreams ∧ AccessUnitHandles ∧ AccessUnitSortedSets

/-- RING of R339 with a free generator and free ports and lane: beat k is read at i + 1 + k and written a lane's distance later, and the
generator is free after the last beat's cycle; a span or an alignment that fails is 0x12 or 0x13. With a busy generator in a free leg it goes
behind the word there; in a fixed leg it is deviation 0x41. -/
def Obligations.AccessUnitRing : Prop :=
  ∀ s h a b l cn, EngReady s .axu h →
    let i := Instr.ring h a b l cn
    let xs := s.me.axu.a[a].toNat % 2 ^ 23
    let xd := s.me.axu.a[b].toNat % 2 ^ 23
    let dist := if bankOf xs = bankOf xd then 0 else laneDist l.toNat (bankStop (bankOf xs)) (bankStop (bankOf xd))
    let plan := s.me.ringPlan s.cur xs xd l.toNat (cn.toNat + 1) s.chron
    (∀ beats cs done lat, s.me.axu.genBusy s.chron = false → plan = .ok (beats, cs, done, lat) → s.me.pipe.hitAt cs = none →
      ∃ t, exec i s = .next t
        ∧ EngDoes s t .axu h (fun k => { k with axu := { k.axu with genFree := s.chron + cn.toNat + 2 } }) ∧ EngNext s t .axu
        ∧ (∃ w ∈ t.me.pipe.infl, w.eng = .axu ∧ w.instr = i ∧ w.beats = beats ∧ w.lat = lat ∧ w.give = h.g
            ∧ w.doneAt = s.chron + cn.toNat + 1 + dist)
        ∧ (∀ x ∈ beats, ∃ e ∈ t.agenda, e.cycle = x.at_ ∧ e.core = s.cur)
        ∧ ∀ q ≤ cn.toNat, (∃ x ∈ beats, x.write = false ∧ x.at_ = s.chron + 1 + q) ∧ ∃ x ∈ beats, x.write = true ∧ x.at_ = s.chron + 1 + q + dist)
    ∧ (∀ p code, s.me.axu.genBusy s.chron = false → plan = .error code → AxuFaults s i h p code)
    ∧ (s.me.axu.genBusy s.chron = true → s.fixedLeg s.cur = false →
        ∃ t, exec i s = .next t ∧ AxuMakes s t i h 1 0 0 (fun x => x = [xs, xd]))
    ∧ ∀ p, s.me.axu.genBusy s.chron = true → s.fixedLeg s.cur = true → AxuFaults s i h p 0x41

/-- RACT of R345, RPRE of R347 and RSTAT of R348, and the window, timing and state faults of RACT and RPRE (R100, R211, R214, R215). RPRE on a
bank that is not open does nothing. -/
def Obligations.RowBankWords : Prop :=
  (∀ s h win b a bank row, EngReady s .axu h →
    let k := s.col s.cur
    k.wrepEnd ≤ s.chron → s.rowTarget s.cur win b (s.me.axu.a[a].toNat) true = .ok (bank, row) →
    (k.acts.filter fun x => decide (s.chron < x + 40)).length < 8 → k.rows[bank].at_ s.chron = 0 → k.inSlot bank.val s.chron = false →
    ∃ t, exec (.ract h win b a) s = .next t
      ∧ t.col s.cur = { k with rows := k.rows.set bank.val (.open_ (BitVec.ofNat 11 row) s.chron 0 none), acts := (t.col s.cur).acts }
      ∧ s.chron ∈ (t.col s.cur).acts ∧ (∀ c, c ≠ s.cur → t.col c = s.col c)
      ∧ EngDoes s { t with cols := s.cols } .axu h (fun k => k) ∧ EngNext s t .axu
      ∧ (∃ e ∈ t.agenda, e.cycle = s.chron + 9801 ∧ e.instr = .rowOpenTooLong s.cur bank s.chron)
      ∧ (∃ e ∈ t.agenda, e.instr = .refreshSlotStart s.cur bank) ∧ (h.g = true → Gives s t .axu (.ract h win b a) 0))
  ∧ (∀ s h win b a bank row p, s.rowTarget s.cur win b (s.me.axu.a[a].toNat) true = .ok (bank, row) → (s.col s.cur).wrepEnd ≤ s.chron →
      let k := s.col s.cur
      (8 ≤ (k.acts.filter fun x => decide (s.chron < x + 40)).length → AxuFaults s (.ract h win b a) h p 0x59)
      ∧ ((k.acts.filter fun x => decide (s.chron < x + 40)).length < 8 →
          (k.rows[bank].at_ s.chron ≠ 0 → AxuFaults s (.ract h win b a) h p 0x52)
          ∧ (k.rows[bank].at_ s.chron = 0 → k.inSlot bank.val s.chron = true → AxuFaults s (.ract h win b a) h p 0x53)))
  ∧ (∀ s h win b a p, s.me.ctl.rwin[win].v = false → (s.col s.cur).wrepEnd ≤ s.chron → AxuFaults s (.ract h win b a) h p 0x56)
  ∧ (∀ s h win b a bank row r act lb, EngReady s .axu h →
      s.rowTarget s.cur win b (s.me.axu.a[a].toNat) true = .ok (bank, row) →
      (s.col s.cur).rows[bank] = .open_ r act lb none → act + 36 ≤ s.chron →
      ∃ t, exec (.rpre h win b a) s = .next t
        ∧ t.col s.cur = { s.col s.cur with rows := (s.col s.cur).rows.set bank.val (.open_ r act lb (some (max s.chron (lb + 1)))) }
        ∧ (∀ c, c ≠ s.cur → t.col c = s.col c) ∧ EngDoes s { t with cols := s.cols } .axu h (fun k => k) ∧ EngNext s t .axu
        ∧ (∃ e ∈ t.agenda, e.cycle = max s.chron (lb + 1) + 18 ∧ e.instr = .prechargeComplete s.cur bank)
        ∧ ∃ w ∈ t.me.pipe.infl, w.instr = .rpre h win b a ∧ w.give = h.g ∧ w.doneAt = max s.chron (lb + 1))
  ∧ (∀ s h win b a bank row p r act lb, s.rowTarget s.cur win b (s.me.axu.a[a].toNat) true = .ok (bank, row) →
      (s.col s.cur).rows[bank] = .open_ r act lb none → s.chron < act + 36 → AxuFaults s (.rpre h win b a) h p 0x58)
  ∧ (∀ s h win b a bank row, EngReady s .axu h → s.rowTarget s.cur win b (s.me.axu.a[a].toNat) true = .ok (bank, row) →
      (∀ r act lb pre, (s.col s.cur).rows[bank] ≠ .open_ r act lb pre) →
      ∃ t, exec (.rpre h win b a) s = .next t ∧ EngDoes s t .axu h (fun k => k) ∧ EngNext s t .axu
        ∧ ∃ w ∈ t.me.pipe.infl, w.instr = .rpre h win b a ∧ w.give = h.g ∧ w.doneAt = s.chron)
  ∧ (∀ s h win b a p, s.me.ctl.rwin[win].v = false → AxuFaults s (.rpre h win b a) h p 0x56 ∧ AxuFaults s (.rstat h win b a) h p 0x56)
  ∧ ∀ s h win b a bank r0, EngReady s .axu h → s.rowTarget s.cur win b 0 false = .ok (bank, r0) →
      let k := s.col s.cur
      let rs := k.rows[bank]
      let o := k.slotOffset bank.val s.chron
      let high := (if rs.at_ s.chron = 1 then (match rs with
          | .open_ r act _ _ => (((r.toNat : Int) - s.me.ctl.rwin[win].rowlo.toNat) % 2 ^ 11).toNat * 2 ^ 16 + min (s.chron - act) 65535 * 2 ^ 32
          | _ => 0) else 0) + (if o < 72 then 0 else min (k.period - o) 65535) * 2 ^ 48
      ∃ t, exec (.rstat h win b a) s = .next t
        ∧ EngDoes s t .axu h (fun c =>
            let v := BitVec.ofNat 64 (rs.at_ s.chron + (if k.half then 4 else 0) + (if k.hot then 8 else 0) + high)
            { c with axu := { c.axu with a := c.axu.a.set a.val v } })
        ∧ EngNext s t .axu ∧ (h.g = true → Gives s t .axu (.rstat h win b a) 0)

/-- RCON of R346: the open row streams in beats from the next cycle, 16 of 512 bytes or 32 of 256 at half width (R212), to the BKE's row input,
whose old bytes are gone, or on a lane to the own scratchpad, 64 beats of 128 bytes from the second cycle on; and its faults, in their order
(R100, R211). -/
def Obligations.RowConsumeWord : Prop :=
  ∀ s h win b a o (d : BitVec 5),
    let k := s.col s.cur
    let n := if k.half then 32 else 16
    let i := Instr.rcon h win b a o d
    let x := s.me.axu.a[a + 1].toNat % 2 ^ 23
    let dist := laneDist d.toNat 4 (bankStop (bankOf x))
    k.burstEnd ≤ s.chron →
    (d = 16 → s.me.bke.stall = none ∧ (s.me.bke.rowLastUse = 0 ∨ s.me.bke.rowLastUse < s.chron)) → (d ≠ 16 → k.laneEnd < s.chron + 2) →
    (∀ bank row act lb pre, EngReady s .axu h → s.rowTarget s.cur win b (s.me.axu.a[a].toNat) true = .ok (bank, row) →
      k.rows[bank] = .open_ (BitVec.ofNat 11 row) act lb pre → row < 2048 → k.rows[bank].at_ s.chron = 1 → act + 18 ≤ s.chron →
      (d ≠ 16 → x % 128 = 0 ∧ x % 2 ^ 19 + 8192 ≤ 2 ^ 19
        ∧ s.me.pipe.hitAt (laneClaims d.toNat 4 (s.chron + 2) 64 dist ++ [wrClaim (bankOf x) (s.chron + 2 + dist) 64]) = none) →
      ∃ t, exec i s = .next t
        ∧ (t.col s.cur).rows = k.rows.set bank.val (.open_ (BitVec.ofNat 11 row) act (max lb (s.chron + n)) pre)
        ∧ (t.col s.cur).burstEnd = s.chron + n ∧ (t.col s.cur).burst = s.rowData s.cur bank.val row o.toNat
        ∧ (t.col s.cur).burstDst = d.toNat ∧ (t.col s.cur).burstStart = s.chron
        ∧ (∀ c, c ≠ s.cur → t.col c = s.col c)
        ∧ EngDoes s { t with cols := s.cols } .axu h (fun c => if d = 16 then { c with bke := { c.bke with rowMask := 0 } } else c)
        ∧ EngNext s t .axu
        ∧ (∀ j : Fin 32, j.val < n → ∃ e ∈ t.agenda, e.cycle = s.chron + 1 + j.val ∧ e.instr = .rowBeatDelivery s.cur j)
        ∧ ∃ w ∈ t.me.pipe.infl, w.instr = i ∧ w.give = h.g ∧ w.doneAt = (if d = 16 then s.chron + n else s.chron + 65 + dist)
            ∧ (d = 16 → w.beats = [])
            ∧ (d ≠ 16 → w.beats = (List.range 64).map fun u =>
                { at_ := s.chron + 2 + u + dist, key := spadKey s.cur.val (x + 128 * u), len := 128,
                  bytes := ((s.rowData s.cur bank.val row o.toNat).drop (128 * u)).take 128, write := true }))
    ∧ ∀ p, (∀ code, s.rowTarget s.cur win b (s.me.axu.a[a].toNat) true = .error code → AxuFaults s i h p code)
      ∧ ∀ bank row, s.rowTarget s.cur win b (s.me.axu.a[a].toNat) true = .ok (bank, row) →
        ((∀ r act lb pre, k.rows[bank] = .open_ r act lb pre → k.rows[bank].at_ s.chron ≠ 1 ∨ r.toNat ≠ row) → AxuFaults s i h p 0x57)
        ∧ ∀ r act lb pre, k.rows[bank] = .open_ r act lb pre → k.rows[bank].at_ s.chron = 1 → r.toNat = row →
          (s.chron < act + 18 → AxuFaults s i h p 0x51)
          ∧ (act + 18 ≤ s.chron → d ≠ 16 → (x % 128 ≠ 0 → AxuFaults s i h p 0x13)
            ∧ (x % 128 = 0 → 2 ^ 19 < x % 2 ^ 19 + 8192 → AxuFaults s i h p 0x12))

/-! ## Words of the BKE -/

namespace Sys2Proof

/-- A BKE word that may issue is in flight until a cycle, its reads and writes at the cycles of its beats; beside that it has just
an effect on its core (R353, R355). -/
def BkeFlies (s t : State) (i : Instr) (h : Hdr) (doneAt : Nat) (beats : List Beat) (f : Core → Core) : Prop :=
  EngDoes s t .bke h (fun k => { f k with hcUnpinned := t.me.hcUnpinned }) ∧ EngNext s t .bke
    ∧ (∃ w ∈ t.me.pipe.infl, w.eng = .bke ∧ w.instr = i ∧ w.issued = s.chron ∧ w.doneAt = doneAt ∧ w.beats = beats ∧ w.give = h.g
        ∧ w.giveTo = (s.me.ctl.seen s.chron).to_ 2 ∧ ∃ e ∈ t.agenda, e.cycle = doneAt ∧ e.core = s.cur ∧ e.instr = .wordRetire s.cur w.id)
    ∧ ∀ b ∈ beats, ∃ e ∈ t.agenda, e.cycle = b.at_ ∧ e.core = s.cur

/-- The units a BKE word needs are free: nothing occupies a unit, the ring or a port, and no word is in flight (R176, R353). -/
def BkeIdle (s : State) : Prop := s.me.pipe.busy = [] ∧ s.me.pipe.claims = [] ∧ s.me.pipe.infl = []

/-- The entry the handle cache holds for a handle passes the checks of R188. -/
def BkeEntry (s : State) (hx : Nat) (types : List Nat) (right : HRight) (e : BitVec 512) : Prop :=
  s.me.cached hx = some e ∧ handleCheck s.me.ctl.bfmt e types right = none

/-- The offset of an accumulator-port word is within its bank and aligned (R364). -/
def PortAt (s : State) (ss : BitVec 2) (len align x : Nat) : Prop :=
  x = (engCore s .bke ⟨0, false, false⟩).bke.offset ss.toNat ∧ x % 2 ^ 19 + len ≤ 2 ^ 19 ∧ x % align = 0

/-- A 96-byte load from a raw entry in the own scratchpad, for BWIN.cfg and CBLD (R357, R358). -/
def Loads96 (s : State) (i : Instr) (h : Hdr) (hd : BitVec 16) (align : Nat) : Prop :=
  ∀ e o, EngReady s .bke h → BkeIdle s → BkeEntry s hd.toNat [1] .rd e → entFmt e = 0 → 96 ≤ entBound e 0 →
    s.srcOff s.cur 0 (entBase e) 96 = some o → o % align = 0 →
    let p := s.srcPlan s.cur 0 s.chron [(o, 96)]
    ∃ t, exec i s = .next t ∧ BkeFlies s t i h p.last p.beats (fun k => k)

end Sys2Proof

/-- BCLR of R360, ZSWAP of R363, ZCLR of R366, LOOP and LEND of R370: the words that act in their issue cycle alone; a LOOP of a reserved nest, of
the nest of an open loop, or whose body would leave the enclosing one is hard fault 0x01. -/
def Obligations.BucketEngineImmediateWords : Prop :=
  (∀ s h, EngReady s .bke h → s.me.pipe.until_ bAdders s.chron = false → ∃ t, exec (.bclr h) s = .next t
      ∧ EngDoes s t .bke h (fun k => { k with bke := { k.bke with bucket := Vector.replicate 2048 0, blive := false } })
      ∧ EngNext s t .bke ∧ (h.g = true → Gives s t .bke (.bclr h) 0))
  ∧ (∀ s h, EngReady s .bke h → BkeIdle s → ∃ t, exec (.zswap h) s = .next t
      ∧ EngDoes s t .bke h (fun k => { k with bke := { k.bke with work := s.me.bke.vis, vis := s.me.bke.work, zswp := false } })
      ∧ EngNext s t .bke ∧ (h.g = true → Gives s t .bke (.zswap h) 0))
  ∧ (∀ s h a b, EngReady s .bke h → s.me.pipe.bankHit false s.chron s.chron = none → ∃ t, exec (.zclr h a b) s = .next t
      ∧ (∀ j : Fin 256, t.me.bke.vis[j] = if a ≤ j ∧ j ≤ b then {} else s.me.bke.vis[j])
      ∧ EngDoes s t .bke h (fun k => { k with bke := { k.bke with vis := t.me.bke.vis } })
      ∧ EngNext s t .bke ∧ (h.g = true → Gives s t .bke (.zclr h a b) 0))
  ∧ (∀ s h nl, EngReady s .bke h → s.me.pipe.until_ bNest s.chron = false →
      let step (n : Nest) : Nest := { n with pos := if n.pos.toNat < n.bound.toNat then n.pos + 1 else 0 }
      ∃ t, exec (.lendBke h nl) s = .next t
        ∧ EngDoes s t .bke h (fun k => { k with bke := { k.bke with
            n := if x : nl.toNat < 6 then k.bke.n.set nl.toNat (step k.bke.n[nl.toNat]) else k.bke.n } })
        ∧ EngNext s t .bke ∧ (h.g = true → Gives s t .bke (.lendBke h nl) 0))
  ∧ (∀ s h nl l, EngReady s .bke h → s.me.pipe.until_ bNest s.chron = false → ∀ x : nl.toNat < 6,
      let q := s.me.bke.q
      let base := if q.loops = [] then q.pc + 4 else q.lbase
      let first := ((q.pc + 4 - base) / 4).toNat
      (∀ f ∈ q.loops, f.nest ≠ nl.toNat) → (∀ f, q.loops.head? = some f → first + l.toNat ≤ f.last) →
      ∃ t, exec (.loopBke h nl l) s = .next t
        ∧ t.me.bke.q.loops
          = { nest := nl.toNat, trips := s.me.bke.n[nl.toNat].bound.toNat + 1, trip := 0, first := first, last := first + l.toNat } :: q.loops
        ∧ t.me.bke.q.pc = base + 4 * (first : Int) ∧ t.me.bke.q.lbase = base ∧ t.me.bke.q.base = s.chron + 1
        ∧ EngDoes s t .bke h (fun k => { k with bke := { k.bke with q := t.me.bke.q } })
        ∧ (h.g = true → Gives s t .bke (.loopBke h nl l) 0))
  ∧ ∀ s h nl l p, EngReady s .bke h → s.me.pipe.until_ bNest s.chron = false → s.partOf s.cur = some p → Running s p →
      (6 ≤ nl.toNat ∨ (∃ f ∈ s.me.bke.q.loops, f.nest = nl.toNat)
        ∨ (∃ f, s.me.bke.q.loops.head? = some f ∧ f.last < ((s.me.bke.q.pc + 4 - s.me.bke.q.lbase) / 4).toNat + l.toNat)) →
      ∃ t, exec (.loopBke h nl l) s = .next t ∧ Halts s t p .bke 0x01 s.me.bke.q.pc

/-- BWIN of R356, BWIN.cfg of R357 and CBLD of R358 with free units: the reads of each and the cycle of its write. -/
def Obligations.BucketEngineLoads : Prop :=
  (∀ s h hd nl x e f rs ss, EngReady s .bke h → BkeIdle s → hd.toNat < 0xFFFF → x.toNat < 2 →
      BkeEntry s hd.toNat [1] .rd e → BkeEntry s (hd.toNat + 1) [1] .rd f → s.me.hcUnpinned.length ≤ 128 →
      let nb := entBound e 1
      let seg := (engCore s .bke h).bke.coord nl.toNat
      let blk := 32 * seg / entBlk e
      entFmt e = 1 → entNdim e = 2 → entStr e 0 = 1 → entFmt f = 15 → entNdim f = 2 → entBound f 1 = nb →
      nb ∈ [1, 2, 4, 8, 16, 32, 64] → 32 * seg + 31 < entBound e 0 → blk < entBound f 0 →
      s.srcRanges s.cur x.toNat ((List.range nb).map fun b => (elemAddr e [32 * seg, b], 32)) = .ok rs →
      s.srcRanges s.cur x.toNat ((List.range nb).map fun b => (elemAddr f [blk, b], 1)) = .ok ss →
      let p := s.srcPlan s.cur x.toNat s.chron (rs ++ ss)
      ∃ t, exec (.bwin h hd nl x) s = .next t ∧ BkeFlies s t (.bwin h hd nl x) h p.last p.beats (fun k => k))
  ∧ (∀ s h hd, s.me.bke.q.loops = [] → Loads96 s (.bwinCfg h hd) h hd 1)
  ∧ (∀ s h hd p, EngReady s .bke h → s.me.bke.q.loops ≠ [] → s.partOf s.cur = some p → Running s p →
      ∃ t, exec (.bwinCfg h hd) s = .next t ∧ Halts s t p .bke 0x01 s.me.bke.q.pc)
  ∧ ∀ s h hd k, Loads96 s (.cbld h hd k) h hd 32

/-- BSTEER and BPLANE of R359 with free units, from the scratchpad, the slice or the row input: the adder interval of R353, from the arrival of
the source for as many cycles as nb × n adds of 4,096 a cycle or the source's own stream take, and the cycles it waits for the row input
(R352); the buckets stand until its end. -/
def Obligations.BucketEngineTiles : Prop :=
  ∀ s h hd nl x steer e rs i,
    (i, steer) ∈ [(Instr.bsteer h hd nl x, true), (Instr.bplane h hd nl x, false)] →
    EngReady s .bke h → BkeIdle s → x.toNat ≤ 2 → BkeEntry s hd.toNat [if steer then 3 else 2] (if x = 2 then .row else .rd) e →
    1 ≤ entCode e → entCode e ≤ 3 →
    let k := (engCore s .bke h).bke
    let nb := k.wnb
    let col0 := k.coord nl.toNat * (256 / nb)
    k.wseg < entBound e 0 → col0 < entBound e 1 →
    let row := if x = 2 then s.rowPeek s.cur else []
    let w := tileWalk steer (s.peek s.cur x.toNat row) e k.wseg col0 (min (256 / nb) (entBound e 1 - col0))
    (∀ a, w.err ≠ some (0x12, a)) → s.srcRanges s.cur x.toNat w.ranges = .ok rs →
    let p := s.srcPlan s.cur x.toNat s.chron rs
    p.stuck = none → (s.fixedLeg s.cur = true → p.undelivered = none) →
    let n := max (max 1 ((nb * w.n + 4095) / 4096)) p.term
    ∃ t, exec i s = .next t ∧ BkeFlies s t i h (s.chron + p.ls + n - 1 + p.wait) p.beats
      (fun c => if x = 2 then { c with bke := { c.bke with rowLastUse := max s.me.bke.rowLastUse p.last } } else c)

/-- MULB of R361 and MACD of R362 with free units: MULB latches and clears the buckets and holds the array for one cycle a code
(R206); MACD reads its lines and holds the array for its contraction steps, and steps its nest. -/
def Obligations.BucketEngineProducts : Prop :=
  (∀ s h cbb, EngReady s .bke h → BkeIdle s →
      let n := if s.me.bke.bkind = 1 then 2 else if s.me.bke.bkind = 2 then 3 else 7
      ∃ t, exec (.mulb h cbb) s = .next t
        ∧ BkeFlies s t (.mulb h cbb) h (s.chron + n - 1) []
            (fun k => { k with bke := { k.bke with bucket := Vector.replicate 2048 0, blive := false } })
        ∧ ∃ w ∈ t.me.pipe.infl, w.instr = .mulb h cbb ∧ (w.lat.drop 67).take 2048 = s.me.bke.bucket.toList.map (·.toNat))
  ∧ ∀ s h l f nl x, EngReady s .bke h → BkeIdle s →
      let n := x.toNat + 1
      let kk := if f = 0 then 4 else 8
      let b := (engCore s .bke h).bke
      let xa := b.offset 0
      let yb := b.offset 1
      let d := laneDist l.toNat (bankStop (bankOf xa)) 9
      let step (m : Nest) : Nest := { m with pos := if m.pos.toNat < m.bound.toNat then m.pos + 1 else 0 }
      xa % 128 = 0 → yb % 128 = 0 → xa % 2 ^ 19 + 128 * n ≤ 2 ^ 19 → s.sliceOk s.cur yb = true →
      s.sliceOk s.cur (yb + 128 * n - 1) = true →
      ∃ t beats, exec (.macd h l f nl x) s = .next t
        ∧ BkeFlies s t (.macd h l f nl x) h (s.chron + 2 * d + n * kk) beats (fun c => { c with bke := { c.bke with
            n := if y : nl.toNat < 6 then c.bke.n.set nl.toNat (step c.bke.n[nl.toNat]) else c.bke.n } })
        ∧ ∀ q < n, (∃ y ∈ beats, y.at_ = s.chron + d + q ∧ y.key = spadKey s.cur.val (xa + 128 * q) ∧ y.len = 128)
            ∧ ∃ y ∈ beats, y.at_ = s.chron + 2 * d + q * kk ∧ y.key = sliceKey s.cur.val (yb + 128 * q) ∧ y.len = 128

/-- ZSPILL and ZFILL of R367, ZADDV of R368, ZSTAT of R369 and ZDRAIN of R365 with free units: the bytes each sends or the lines each reads, the
cycle of each beat, and the cycle each completes; until then the banks and the nests stand. -/
def Obligations.BucketEngineAccumulatorPort : Prop :=
  (∀ s h a b wk ss x, EngReady s .bke h → BkeIdle s → PortAt s ss (96 * (b.val + 1 - a.val)) 32 x →
      let bank := if wk then s.me.bke.work else s.me.bke.vis
      let bs := ((List.range (b.val + 1 - a.val)).map fun k =>
        ((bank[a.val + k]?).getD {}).image (a.val + k) (if wk then 0 else 1)).flatten
      let p := portWrite s.cur (bkLanes (bankOf x) 2).1 s.chron x bs
      ∃ t, exec (.zspill h a b wk ss) s = .next t ∧ BkeFlies s t (.zspill h a b wk ss) h p.last p.beats (fun k => k))
  ∧ (∀ s h a b wk ss x, EngReady s .bke h → BkeIdle s → PortAt s ss (96 * (b.val + 1 - a.val)) 32 x →
      let p := spadPlan s.cur 2 s.chron (unitsOf 128 [(x, 96 * (b.val + 1 - a.val))])
      ∃ t, exec (.zfill h a b wk ss) s = .next t ∧ BkeFlies s t (.zfill h a b wk ss) h p.last p.beats (fun k => k))
  ∧ (∀ s h a b wk f ss x, EngReady s .bke h → BkeIdle s →
      let w := fmtW (xfFmt f.toNat) / 8
      PortAt s ss (w * (b.val + 1 - a.val)) w x →
      let p := spadPlan s.cur 2 s.chron (unitsOf 128 [(x, w * (b.val + 1 - a.val))])
      ∃ t, exec (.zaddv h a b wk f ss) s = .next t
        ∧ BkeFlies s t (.zaddv h a b wk f ss) h (s.chron + p.ls + (b.val + 1 - a.val + 63) / 64 - 1) p.beats (fun k => k))
  ∧ (∀ s h l wk ss x, EngReady s .bke h → BkeIdle s → PortAt s ss 128 128 x →
      let bank := if wk then s.me.bke.work else s.me.bke.vis
      let p := portWrite s.cur l.toNat s.chron x (packElems 4 (bank.toList.map Lane.flags))
      ∃ t, exec (.zstat h l wk ss) s = .next t ∧ BkeFlies s t (.zstat h l wk ss) h p.last p.beats (fun k => k))
  ∧ ∀ s h a b f ss x, EngReady s .bke h → BkeIdle s →
      let nz := b.val + 1 - a.val
      let w := fmtW (drainFmt f.toNat) / 8
      let len := if f = 5 then nz + nz / 32 else nz * w
      PortAt s ss len w x →
      let r := drainBytes ((List.range nz).map fun k => (s.me.bke.vis[a.val + k]?).getD {}) f.toNat (s.me.ctl.rnd (bankOf x))
      let p := portWrite s.cur (bkLanes (bankOf x) 2).1 s.chron x r.1
      ∃ t, exec (.zdrain h a b f ss) s = .next t
        ∧ (∃ y ∈ t.me.pipe.infl, y.instr = .zdrain h a b f ss ∧ y.doneAt = p.last ∧ y.beats = p.beats ∧ y.give = h.g)
        ∧ t.me.bke.vis = s.me.bke.vis ∧ t.me.bke.work = s.me.bke.work ∧ t.me.bke.bucket = s.me.bke.bucket
        ∧ t.me.seq = s.me.seq ∧ t.me.axu.a = s.me.axu.a ∧ t.me.vec = s.me.vec ∧ t.me.cpe = s.me.cpe ∧ t.memory = s.memory
        ∧ EngNext s t .bke

/-! ## Words of the VEC -/

namespace Sys2Proof

/-- A VEC word with operands p may issue and act: its operands fit the shape (R374), none is pending (R379), the datapath is free
(R380), and they do not overlap (R378). -/
def VecMay (s : State) (h : Hdr) (guard : Fin 8) (p : VPlan) : Prop :=
  EngReady s .vec h ∧ (∀ o ∈ p.src ++ p.dst, o.ok = true) ∧ p.pending s.me.vec guard.val s.chron = false
    ∧ s.me.pipe.held bData s.chron s.chron = none ∧ p.overlap = false

/-- A VEC word is in flight: its destinations are pending until cycle L after the issue and written a cycle before it (R379), and
`ok` holds of the registers as they were with its write made. -/
def VecFlies (s t : State) (i : Instr) (h : Hdr) (p : VPlan) (L : Nat) (ok : Vec → Prop) : Prop :=
  EngDoes s t .vec h (fun k => { k with vec := k.vec.pend p (s.chron + L) }) ∧ EngNext s t .vec
    ∧ ∃ x ∈ t.me.pipe.infl, x.eng = .vec ∧ x.instr = i ∧ x.give = h.g ∧ x.giveTo = (s.me.ctl.seen s.chron).to_ 3 ∧ x.doneAt = s.chron + L - 1
        ∧ (∃ e ∈ t.agenda, e.cycle = s.chron + L - 1 ∧ e.core = s.cur ∧ e.instr = .wordRetire s.cur x.id)
        ∧ ok (s.me.vec.write (imagesOf (x.lat.drop 6)))

/-- Registers from d on hold n elements of width w: those r names take its value, every other element and register is as it was
(R377). -/
def Elements (k v : Vec) (d w n : Nat) (r : Nat → Option Nat) : Prop :=
  (∀ e, d * 32768 + e * w < 32 * 32768 → v.elem d w e = match (if e < n then r e else none) with
      | some y => y % 2 ^ w
      | none => k.elem d w e)
    ∧ (∀ j : Fin 32, j.val < d ∨ d + max 1 ((n * w + 32767) / 32768) ≤ j.val → v.v[j] = k.v[j]) ∧ v.k = k.k

/-- An element-wise word of one destination: under the guard, each selected element takes a code of the formula, the others keep
theirs (R377). -/
def VecEach (i : Instr) (h : Hdr) (guard : Fin 8) (neg : Bool) (d : Fin 32) (w : Nat) (src : Nat → List VOp) (L : Nat)
    (f : Shape → Vec → Nat → Nat) : Prop :=
  ∀ s, let sh := s.me.shape s.chron
    let p : VPlan := { src := src sh.n, dst := [{ base := d.val, w := w, cnt := some sh.n }], lat := fun _ => L }
    VecMay s h guard p → ∃ t, exec i s = .next t ∧ VecFlies s t i h p L fun v =>
      Elements s.me.vec v d.val w sh.n fun e => if s.me.vec.sel guard neg e then some (f sh s.me.vec e) else none

/-- Width of the elements of XI and XW (R383). -/
def xiW (x : BitVec 2) : Nat := if x = 0 then 32 else if x = 1 then 16 else 8

/-- An integer or bit word (R388). -/
def VecInt (mk : Hdr → Fin 8 → Bool → Fin 32 → Fin 32 → Fin 32 → BitVec 2 → Instr) (f : Nat → Nat → Nat → Nat) : Prop :=
  ∀ h k n d a b x, VecEach (mk h k n d a b x) h k n d (xiW x)
    (fun c => [{ base := a.val, w := xiW x, cnt := some c }, { base := b.val, w := xiW x, cnt := some c }]) 2
    fun _ v e => f (xiW x) (v.elem a.val (xiW x) e) (v.elem b.val (xiW x) e)

/-- Format of XF (R383). -/
def xfF (x : BitVec 2) : Nat := xfFmt x.toNat

/-- A floating-point word of two sources that rounds one exact result, after the flush of its sources and result (R384, R228). -/
def VecFloat2 (mk : Hdr → Fin 8 → Bool → Fin 32 → Fin 32 → Fin 32 → BitVec 2 → Instr) (L : Nat) (f : Nat → Val → Val → Exact) : Prop :=
  ∀ h k n d a b x, VecEach (mk h k n d a b x) h k n d (fmtW (xfF x))
    (fun c => [{ base := a.val, w := fmtW (xfF x), cnt := some c }, { base := b.val, w := fmtW (xfF x), cnt := some c }]) L
    fun sh v e => ((f sh.mode (v.val sh (xfF x) a.val e) (v.val sh (xfF x) b.val e)).code (xfF x) sh.mode (sh.draw e) sh.ftz).code

/-- A fused word; with x = 3 it reads BF16 and adds into FP32 (R385). -/
def VecFused (mk : Hdr → Fin 8 → Bool → Fin 32 → Fin 32 → Fin 32 → BitVec 2 → Instr) (f : Nat → Val → Val → Val → Exact) : Prop :=
  ∀ h k n d a b x,
    let fs := if x = 3 then 8 else xfF x
    let fd := if x = 3 then 7 else xfF x
    VecEach (mk h k n d a b x) h k n d (fmtW fd)
      (fun c => [{ base := a.val, w := fmtW fs, cnt := some c }, { base := b.val, w := fmtW fs, cnt := some c },
        { base := d.val, w := fmtW fd, cnt := some c }]) 4
      fun sh v e => ((f sh.mode (v.val sh fs a.val e) (v.val sh fs b.val e) (v.val sh fd d.val e)).code fd sh.mode (sh.draw e) sh.ftz).code

/-- A word of one source in XF whose result is a code of the flushed source. -/
def VecCode1 (mk : Hdr → Fin 8 → Bool → Fin 32 → Fin 32 → BitVec 2 → Instr) (L : Nat) (f : Nat → Shape → Nat → Nat → Nat) : Prop :=
  ∀ h k n d a x, VecEach (mk h k n d a x) h k n d (fmtW (xfF x)) (fun c => [{ base := a.val, w := fmtW (xfF x), cnt := some c }]) L
    fun sh v e => f (xfF x) sh e (v.code sh (xfF x) a.val e)

/-- A word whose element e takes the bits of the source element an index function names (R393, R402). -/
def VecPick (i : Instr) (h : Hdr) (k : Fin 8) (n : Bool) (d a : Fin 32) (x : BitVec 2) (more : Nat → List VOp) (L : Nat)
    (f : Shape → Vec → Nat → Nat) : Prop :=
  VecEach i h k n d (xiW x) (fun c => { base := a.val, w := xiW x, cnt := some c } :: more c) L
    fun sh v e => v.elem a.val (xiW x) (f sh v e)

/-- Predicate d takes bits for the first n elements, where given; k0 is not written, and the rest is as it was (R170, R391). -/
def PredBits (k v : Vec) (d n : Nat) (r : Nat → Option Bool) : Prop :=
  ∀ j : Fin 8, j.val = d → ∀ e < 4096, v.k[j].getLsbD e = if d = 0 ∨ n ≤ e then k.k[j].getLsbD e else (r e).getD (k.k[j].getLsbD e)

/-- A compare: predicate 2p takes the guarded condition and 2p + 1 the guarded inverse (R389). -/
def VecCompare (i : Instr) (h : Hdr) (guard : Fin 8) (neg : Bool) (pair : BitVec 2) (src : Nat → List VOp) (c : Shape → Vec → Nat → Bool) : Prop :=
  ∀ s, let sh := s.me.shape s.chron
    let p : VPlan := { src := src sh.n, kw := [2 * pair.toNat, 2 * pair.toNat + 1] }
    VecMay s h guard p → ∃ t, exec i s = .next t ∧ VecFlies s t i h p 2 fun v =>
      PredBits s.me.vec v (2 * pair.toNat) sh.n (fun e => some (s.me.vec.sel guard neg e && c sh s.me.vec e))
      ∧ PredBits s.me.vec v (2 * pair.toNat + 1) sh.n (fun e => some (s.me.vec.sel guard neg e && !c sh s.me.vec e))
      ∧ (∀ j : Fin 8, j.val ≠ 2 * pair.toNat → j.val ≠ 2 * pair.toNat + 1 → v.k[j] = s.me.vec.k[j]) ∧ v.v = s.me.vec.v

/-- A predicate word (R391). -/
def VecPredicate (i : Instr) (h : Hdr) (guard : Fin 8) (neg : Bool) (d : Fin 8) (kr : List Nat) (f : Vec → Nat → Bool) : Prop :=
  ∀ s, let sh := s.me.shape s.chron
    let p : VPlan := { kr := kr, kw := [d.val] }
    VecMay s h guard p → ∃ t, exec i s = .next t ∧ VecFlies s t i h p 2 fun v =>
      PredBits s.me.vec v d.val sh.n (fun e => if s.me.vec.sel guard neg e then some (f s.me.vec e) else none)
      ∧ (∀ j : Fin 8, j ≠ d → v.k[j] = s.me.vec.k[j]) ∧ v.v = s.me.vec.v

end Sys2Proof

/-- VIADD to VSRA of R388 on w-bit elements, modulo 2^w. -/
def Sys2Proof.VectorIntegerWords : Prop :=
  VecInt .viadd (fun _ u v => u + v) ∧ VecInt .visub (fun w u v => u + 2 ^ w - v) ∧ VecInt .vimul (fun _ u v => u * v)
  ∧ VecInt .vimin (fun w u v => if sintN w v < sintN w u then v else u)
  ∧ VecInt .vimax (fun w u v => if sintN w u < sintN w v then v else u)
  ∧ VecInt .vand (fun _ u v => u &&& v) ∧ VecInt .vor (fun _ u v => u ||| v) ∧ VecInt .vxor (fun _ u v => u ^^^ v)
  ∧ VecInt .vshl (fun w u v => u * 2 ^ (v % w)) ∧ VecInt .vshr (fun w u v => u / 2 ^ (v % w))
  ∧ VecInt .vsra (fun w u v => (sintN w u / 2 ^ (v % w) % 2 ^ w).toNat)

/-- VADD to VSQRT of R384 and the fused words of R385: one rounding of the exact result (R226). -/
def Sys2Proof.VectorFloatWords : Prop :=
  VecFloat2 .vadd 4 addX ∧ VecFloat2 .vsub 4 (fun m u v => addX m u v.neg) ∧ VecFloat2 .vmul 4 (fun _ u v => mulX u v)
  ∧ VecFloat2 .vdiv 12 (fun _ u v => divX u v)
  ∧ VecCode1 .vsqrt 12 (fun f sh e c => ((sqrtX (value f c)).code f sh.mode (sh.draw e) sh.ftz).code)
  ∧ VecFused .vfma (fun m u v z => fmaX m u v z) ∧ VecFused .vfms (fun m u v z => fmaX m u v z.neg)
  ∧ VecFused .vfnma (fun m u v z => fmaX m u.neg v z)

/-- The lane arithmetic of the vector engine, on integers and on numbers. -/
def Obligations.VectorArithmeticWords : Prop := VectorIntegerWords ∧ VectorFloatWords

/-- VMIN and VMAX of R386, the sign words of R387, VRND of R397 and the transcendentals of R398. -/
def Obligations.VectorSelectSignAndFunctionWords : Prop :=
  (∀ big mk, (mk, big) ∈ [(Instr.vmin, false), (Instr.vmax, true)] → ∀ h k n d a b x,
    VecEach (mk h k n d a b x) h k n d (fmtW (xfF x))
      (fun c => [{ base := a.val, w := fmtW (xfF x), cnt := some c }, { base := b.val, w := fmtW (xfF x), cnt := some c }]) 2
      fun sh v e => minMax big (xfF x) (v.code sh (xfF x) a.val e) (v.code sh (xfF x) b.val e))
  ∧ VecCode1 .vabs 2 (fun f _ _ c => withSign f false c)
  ∧ VecCode1 .vneg 2 (fun f _ _ c => withSign f (!(signMag f c).1) c)
  ∧ (∀ h k n d a b x, VecEach (.vcpys h k n d a b x) h k n d (fmtW (xfF x))
      (fun c => [{ base := a.val, w := fmtW (xfF x), cnt := some c }, { base := b.val, w := fmtW (xfF x), cnt := some c }]) 2
      fun sh v e => withSign (xfF x) (signMag (xfF x) (v.elem b.val (fmtW (xfF x)) e)).1 (v.code sh (xfF x) a.val e))
  ∧ (∀ m : BitVec 3, VecCode1 (fun h k n d a x => .vrnd h k n d a m x) 2
      (fun f sh e c => (roundIntegral f (if m = 5 then sh.mode else m.toNat) (sh.draw e) c).code))
  ∧ ∀ mk L tr, (mk, L, tr) ∈ [(Instr.vexp2, 16, Trans.exp2), (.vlog2, 16, .log2), (.vrcp, 12, .rcp), (.vrsq, 12, .rsq), (.vsin, 16, .sin),
      (.vcos, 16, .cos), (.vtanh, 16, .tanh), (.verf, 16, .erf)] →
      VecCode1 mk L (fun f sh _ c => (tr.code f sh.mode sh.ftz c).code)

/-- VMOV, VMOVI, VBCST and VSEL of R393, KCNT of R392, VTRN, VSHUF and VROT of R402. -/
def Obligations.VectorMoveAndPermuteWords : Prop :=
  (∀ h k n d a x, VecPick (.vmov h k n d a x) h k n d a x (fun _ => []) 2 fun _ _ e => e)
  ∧ (∀ h k n d imm x, VecEach (.vmovi h k n d imm x) h k n d (if x = 0 then 32 else if x = 3 then 8 else 16) (fun _ => []) 2 fun _ _ _ =>
      if x = 0 then (imm.signExtend 32).toNat else if x = 1 then (imm.signExtend 16).toNat else if x = 2 then imm.toNat * 64 else imm.toNat % 256)
  ∧ (∀ h k n d a sel x, VecPick (.vbcst h k n d a sel x) h k n d a x (fun _ => []) 2 fun sh _ e =>
      if sel = 0 then 0 else if sel = 1 then e % sh.cols else e / sh.cols * sh.cols)
  ∧ (∀ h d a x, VecPick (.vtrn h d a x) h 0 false d a x (fun _ => []) 4 fun sh _ e => e % sh.rows * sh.cols + e / sh.rows)
  ∧ (∀ h k n d a b x, VecPick (.vshuf h k n d a b x) h k n d a x (fun c => [{ base := b.val, w := xiW x, cnt := some c }]) 4 fun sh v e =>
      v.elem b.val (xiW x) e % sh.n)
  ∧ (∀ h k n d a b x, VecPick (.vrot h k n d a b x) h k n d a x (fun _ => [{ base := b.val, w := 32, cnt := none }]) 4 fun sh v e =>
      e / sh.cols * sh.cols + (e % sh.cols + v.elem b.val 32 0) % sh.cols)
  ∧ (∀ h k n d a b x s, let sh := s.me.shape s.chron
      let w := xiW x
      let p : VPlan := { src := [{ base := a.val, w := w, cnt := some sh.n }, { base := b.val, w := w, cnt := some sh.n }],
                         dst := [{ base := d.val, w := w, cnt := some sh.n }] }
      VecMay s h k p → ∃ t, exec (.vsel h k n d a b x) s = .next t ∧ VecFlies s t (.vsel h k n d a b x) h p 2 fun v =>
        Elements s.me.vec v d.val w sh.n fun e => some (if s.me.vec.sel k n e then s.me.vec.elem a.val w e else s.me.vec.elem b.val w e))
  ∧ ∀ h k n d a s, let sh := s.me.shape s.chron
      let p : VPlan := { dst := [{ base := d.val, w := 32, cnt := some sh.n }], kr := [a.val] }
      VecMay s h k p → ∃ t, exec (.kcnt h k n d a) s = .next t ∧ VecFlies s t (.kcnt h k n d a) h p 2 fun v =>
        Elements s.me.vec v d.val 32 sh.n fun e =>
          if s.me.vec.sel k n e then some ((List.range sh.n).filter fun j => s.me.vec.pred a.val j).length else none

/-- VCMP and VICMP of R389, VCLASS of R390, and KAND to KMOV of R391. -/
def Obligations.VectorCompareAndPredicateWords : Prop :=
  (∀ h k n c p a b x, VecCompare (.vcmp h k n c p a b x) h k n p
      (fun m => [{ base := a.val, w := fmtW (xfF x), cnt := some m }, { base := b.val, w := fmtW (xfF x), cnt := some m }])
      fun sh v e => fcmp c.toNat (xfF x) (v.code sh (xfF x) a.val e) (v.code sh (xfF x) b.val e))
  ∧ (∀ h k n c p a b x, VecCompare (.vicmp h k n c p a b x) h k n p
      (fun m => [{ base := a.val, w := xiW x, cnt := some m }, { base := b.val, w := xiW x, cnt := some m }])
      fun _ v e => let y := v.elem a.val (xiW x) e
        let z := v.elem b.val (xiW x) e
        if c = 0 then y == z else if c = 1 then y != z else if c = 2 then decide (sintN (xiW x) y < sintN (xiW x) z)
        else if c = 3 then decide (sintN (xiW x) y ≤ sintN (xiW x) z) else if c = 4 then decide (sintN (xiW x) z < sintN (xiW x) y)
        else if c = 5 then decide (sintN (xiW x) z ≤ sintN (xiW x) y) else if c = 6 then decide (y < z) else decide (z ≤ y))
  ∧ (∀ h k n p a m x, VecCompare (.vclass h k n p a m x) h k n p (fun c => [{ base := a.val, w := fmtW (xfF x), cnt := some c }])
      fun _ v e => m.getLsbD (classOf (xfF x) (v.elem a.val (fmtW (xfF x)) e)))
  ∧ ∀ h k n d a b,
      VecPredicate (.kand h k n d a b) h k n d [a.val, b.val] (fun v e => v.pred a.val e && v.pred b.val e)
      ∧ VecPredicate (.kor h k n d a b) h k n d [a.val, b.val] (fun v e => v.pred a.val e || v.pred b.val e)
      ∧ VecPredicate (.kxor h k n d a b) h k n d [a.val, b.val] (fun v e => v.pred a.val e != v.pred b.val e)
      ∧ VecPredicate (.knot h k n d a) h k n d [a.val] (fun v e => !v.pred a.val e)
      ∧ VecPredicate (.kmov h k n d a) h k n d [a.val] (fun v e => v.pred a.val e)

/-- VCVT of R394, VDQ of R396, VQNT of R395 and the reductions of R399; VCVT, VDQ and VQNT take a cycle more for each register of a
group. -/
def Obligations.VectorConversionAndReductionWords : Prop :=
  (∀ h k n d a f x s, let sh := s.me.shape s.chron
      let fs := if x = 1 then 7 else if x = 3 then 8 else f.toNat
      let fd := if x = 0 then 7 else if x = 2 then 8 else f.toNat
      let p : VPlan := { src := [{ base := a.val, w := fmtW fs, cnt := some sh.n, group := true }],
                         dst := [{ base := d.val, w := fmtW fd, cnt := some sh.n, group := true }] }
      VecMay s h k p → ∃ t, exec (.vcvt h k n d a f x) s = .next t ∧ VecFlies s t (.vcvt h k n d a f x) h p (3 + p.g) fun v =>
        Elements s.me.vec v d.val (fmtW fd) sh.n fun e => if s.me.vec.sel k n e then
          some (flush sh.ftz fd (convert fs fd sh.mode (sh.draw e) (s.me.vec.code sh fs a.val e)).code) else none)
  ∧ (∀ h k n d a b x s, let sh := s.me.shape s.chron
      let p : VPlan := { src := [{ base := a.val, w := 8, cnt := none }, { base := b.val, w := 8, cnt := none }],
                         dst := [{ base := d.val, w := fmtW (xfF x), cnt := some sh.n, group := true }] }
      VecMay s h k p → ∃ t, exec (.vdq h k n d a b x) s = .next t ∧ VecFlies s t (.vdq h k n d a b x) h p (3 + p.g) fun v =>
        Elements s.me.vec v d.val (fmtW (xfF x)) sh.n fun e => if s.me.vec.sel k n e then
          some (flush sh.ftz (xfF x) (dequant sh.qf (xfF x) sh.mode (sh.draw e) (s.me.vec.elem a.val (fmtW sh.qf) e)
            (s.me.vec.elem b.val 8 (e / sh.qb))).code) else none)
  ∧ (∀ h d a b x s, let sh := s.me.shape s.chron
      let p : VPlan := { src := [{ base := a.val, w := fmtW (xfF x), cnt := some sh.n, group := true }],
                         dst := [{ base := d.val, w := 8, cnt := none }, { base := b.val, w := 8, cnt := none }] }
      let block (j : Nat) := quantise sh.qf sh.mode ((List.range sh.qb).map fun i => s.me.vec.val sh (xfF x) a.val (j * sh.qb + i))
        ((List.range sh.qb).map fun i => sh.draw (j * sh.qb + i))
      VecMay s h 0 p → sh.n % sh.qb = 0 → ∃ t, exec (.vqnt h d a b x) s = .next t
        ∧ VecFlies s t (.vqnt h d a b x) h p (7 + p.g) fun v =>
          (∀ j < sh.n / sh.qb, v.elem b.val 8 j = (block j).scale % 256)
          ∧ (∀ j : Fin 32, j ≠ d → j ≠ b → v.v[j] = s.me.vec.v[j]) ∧ v.k = s.me.vec.k)
  ∧ ∀ big mk, (mk, big) ∈ [(Instr.vrmax, true), (Instr.vrmin, false)] → ∀ h k n d a byCol x s,
      let sh := s.me.shape s.chron
      let f := xfF x
      let p : VPlan := { src := [{ base := a.val, w := fmtW f, cnt := some sh.n }], dst := [{ base := d.val, w := fmtW f, cnt := some sh.n }] }
      let lines := if byCol then sh.cols else sh.rows
      let at_ (j q : Nat) : Nat := if byCol then q * sh.cols + j else j * sh.cols + q
      VecMay s h k p → ∃ t, exec (mk h k n d a byCol x) s = .next t ∧ VecFlies s t (mk h k n d a byCol x) h p 6 fun v =>
        Elements s.me.vec v d.val (fmtW f) lines fun j => some (reduceLine big f
          ((((List.range (sh.n / lines)).map (at_ j)).filter fun e => s.me.vec.sel k n e).map fun e => s.me.vec.code sh f a.val e))

/-- VLD of R403, VST of R404, VSUMZ of R400, VSHAPE of R401 and VSTAT of R405: what each starts or does. VSTAT reads the counters as they stood
when its cycle began; with `.clr` only the events of that cycle are left of them. -/
def Obligations.VectorPortAndStateWords : Prop :=
  (∀ h k n d x s, let sh := s.me.shape s.chron
      let p : VPlan := { dst := [{ base := d.val, w := xiW x, cnt := some sh.n }] }
      let m := (sh.n * xiW x + 1023) / 1024
      VecMay s h k p → s.me.vec.replay.length < 32 → ∃ t, exec (.vld h k n d x) s = .next t
        ∧ EngDoes s t .vec h (fun c => { c with vec := c.vec.pend p (s.chron + m + 1) }) ∧ EngNext s t .vec
        ∧ ∃ w ∈ t.me.pipe.infl, w.eng = .vec ∧ w.instr = .vld h k n d x ∧ w.doneAt = s.chron ∧ w.give = h.g ∧ w.n 3 = m ∧ w.n 4 = 0)
  ∧ (∀ h k n a x s, let sh := s.me.shape s.chron
      let p : VPlan := { src := [{ base := a.val, w := xiW x, cnt := some sh.n }] }
      let m := (sh.n * xiW x + 1023) / 1024
      VecMay s h k p → s.me.vec.replay.length < 32 → ∃ t, exec (.vst h k n a x) s = .next t
        ∧ EngDoes s t .vec h (fun c => c) ∧ EngNext s t .vec
        ∧ ∃ w ∈ t.me.pipe.infl, w.eng = .vec ∧ w.instr = .vst h k n a x ∧ w.doneAt = s.chron + 1 ∧ w.give = h.g ∧ w.n 0 = m
            ∧ ∀ e < sh.n, w.n 3 / 2 ^ (xiW x * e) % 2 ^ xiW x = if s.me.vec.sel k n e then s.me.vec.elem a.val (xiW x) e else 0)
  ∧ (∀ h k n l a e sel x s, let sh := s.me.shape s.chron
      let p : VPlan := { src := [{ base := a.val, w := fmtW (xfF x), cnt := some sh.n }] }
      let hi := s.chron + (sh.n + 63) / 64
      VecMay s h k p → s.me.vec.replay.length < 32 → s.me.pipe.busy = [] →
      8 * l.toNat + (if sel = 1 then sh.rows - 1 else if sel = 2 then sh.cols - 1 else 0) ≤ 255 →
      ∃ t, exec (.vsumz h k n l a e sel x) s = .next t ∧ EngDoes s t .vec h (fun c => c) ∧ EngNext s t .vec
        ∧ ∃ w ∈ t.me.pipe.infl, w.eng = .vec ∧ w.instr = .vsumz h k n l a e sel x ∧ w.give = h.g ∧ w.n 1 = s.chron + 1 ∧ w.n 2 = hi
            ∧ (w.n 3 = if e then 0 else 1) ∧ w.n 4 = xfF x
            ∧ imagesOf (w.lat.drop 5) = (List.range sh.n).map fun j =>
                (if s.me.vec.sel k n j then 8 * l.toNat + (if sel = 1 then j / sh.cols else if sel = 2 then j % sh.cols else 0) else 256,
                  s.me.vec.elem a.val (fmtW (xfF x)) j))
  ∧ (∀ h a x s, let p : VPlan := { src := [{ base := a.val, w := 64, cnt := none }], datapath := false }
      VecMay s h 0 p → ∃ t, exec (.vshape h a x) s = .next t
        ∧ (let v := s.me.vec.v[a].toNat
           if x = 0 then t.me.ctl.vsh = (if (v / 2 ^ 16 % 2 ^ 12 + 1) * (v % 2 ^ 12 + 1) ≤ 4096
               then BitVec.ofNat 64 (v % 2 ^ 12 + 2 ^ 16 * (v / 2 ^ 16 % 2 ^ 12)) else s.me.ctl.vsh) ∧ t.me.ctl.vmd = s.me.ctl.vmd
           else t.me.ctl.vsh = s.me.ctl.vsh ∧ t.me.ctl.vmd.toNat % 8 = (if v % 8 < 6 then v % 8 else s.me.ctl.vmd.toNat % 8))
        ∧ EngDoes s t .vec h (fun c => { c with ctl := { c.ctl with vsh := t.me.ctl.vsh, vmd := t.me.ctl.vmd } }) ∧ EngNext s t .vec)
  ∧ ∀ h d x s, let p : VPlan := { dst := [{ base := d.val, w := 32, cnt := none }] }
      let early := s.me.stat.cyc = s.chron
      VecMay s h 0 p → ∃ t, exec (.vstat h d x) s = .next t
        ∧ (∃ w ∈ t.me.pipe.infl, w.eng = .vec ∧ w.instr = .vstat h d x ∧ w.doneAt = s.chron + 1 ∧
            let v := s.me.vec.write (imagesOf (w.lat.drop 6))
            (∀ i : Fin 6, v.elem d.val 32 i.val = if early then s.me.stat.cnt0[i].toNat else s.me.stat.cnt[i].toNat)
              ∧ (v.elem d.val 32 6 = if early then s.me.stat.ev0.toNat else s.me.stat.ev.toNat) ∧ v.elem d.val 32 7 = 0
              ∧ (∀ b < 32512, (v.v[d]).getLsbD (256 + b) = (s.me.vec.v[d]).getLsbD (256 + b))
              ∧ ∀ j : Fin 32, j ≠ d → v.v[j] = s.me.vec.v[j])
        ∧ (x = 1 → ∀ i : Fin 6, t.me.stat.cnt[i] = if early then BitVec.ofNat 32 s.me.stat.cyCnt[i] else 0) ∧ (x ≠ 1 → t.me.stat = s.me.stat)
        ∧ EngDoes s t .vec h (fun c => { c with vec := c.vec.pend p (s.chron + 2), stat := t.me.stat }) ∧ EngNext s t .vec

/-! ## Words, reset and steps -/

/-- Words written out from the encodings of the spec decode to the instructions they stand for: LIS (R304), the system words of the
table of R421, HQRY (R323), and one word of each other section. -/
def Obligations.SampleWordsDecode : Prop :=
  decode .seq 0x01852345 = .ok (.lis ⟨0, false, false⟩ 0 5 0x2345) ∧ decode .seq 0x01A50001 = .ok (.lis ⟨0, false, false⟩ 1 5 1)
  ∧ decode .seq 0x07050050 = .ok (.crr ⟨0, false, false⟩ 5 0x0A) ∧ decode .seq 0x07203680 = .ok (.crw ⟨0, false, false⟩ 6 0xD0)
  ∧ decode .seq 0x07400005 = .ok (.trap ⟨0, false, false⟩ 5) ∧ decode .seq 0x07600000 = .ok (.sret ⟨0, false, false⟩)
  ∧ decode .seq 0x07802000 = .ok (.halt ⟨0, false, false⟩ 4) ∧ decode .seq 0x07A02140 = .ok (.hset ⟨0, false, false⟩ 4 5)
  ∧ decode .seq 0x07C32000 = .ok (.scanr ⟨0, false, false⟩ 3 4) ∧ decode .seq 0x07E02140 = .ok (.wrep ⟨0, false, false⟩ 4 5)
  ∧ decode .seq 0x06253002 = .ok (.hqry ⟨0, false, false⟩ 5 6 2) ∧ decode .seq 0x064531D2 = .ok (.cpy ⟨0, false, false⟩ 5 6 7 4 true false)
  ∧ decode .axu 0x00000000 = .ok (.nop ⟨0, false, false⟩) ∧ decode .bke 0x00000000 = .ok (.nop ⟨0, false, false⟩)
  ∧ decode .vec 0x00000000 = .ok (.nop ⟨0, false, false⟩) ∧ decode .axu 0x00200005 = .ok (.idle ⟨0, false, false⟩ 5)

/-- Every well-formed word instruction has a word, of 32 bits, and each section that assigns the word decodes it to that
instruction, with every operand (R268, R276 to R285). -/
def Obligations.EncodedWordsDecode : Prop :=
  ∀ i, i.wf = true → sectionsOf i ≠ [] → ∃ w, encode i = some w ∧ w < 2 ^ 32 ∧ ∀ e ∈ sectionsOf i, decode e w = .ok i

/-- A word a section decodes is the word of a well-formed instruction of that section: no bit of it is dropped, and no two words are
one instruction (R268, R271). -/
def Obligations.DecodedWordsEncode : Prop :=
  ∀ e w i, w < 2 ^ 32 → decode e w = .ok i → encode i = some w ∧ i.wf = true ∧ e ∈ sectionsOf i

/-- The module right after a cold reset (R46): CHRON 0, VALID 0, nothing in memory, no context, no request, no column in the survey, the
firmware's boot to come; and the registers whose reset values the register maps state. -/
def Sys2Proof.ResetState : Prop :=
  let s := State.reset
  s.chron = 0 ∧ s.off = false ∧ s.isFrozen = false ∧ s.helm.valid = false ∧ s.helm.gen = 0 ∧ s.memory = [] ∧ s.reqs = [] ∧ s.inputs = []
  ∧ (∃ e, s.agenda = [e] ∧ e.instr = .bootComplete ∧ 0 < e.cycle ∧ e.cycle < 2100000000)
  ∧ (∀ p, (s.part p).runSlot = none ∧ (s.part p).halting = none ∧ (s.part p).switching = false ∧ ∀ j : Fin 8, (s.part p).slots[j].st = .idle)
  ∧ (∀ c, (s.col c).live = false ∧ s.partOf c = none)
  ∧ (∀ c, (s.core c).ctl.tksel = 0x11 ∧ (∀ f < 20, (s.core c).ctl.ceil f = 15) ∧ (s.core c).stat.win = 20
      ∧ (∀ r, (s.core c).seq.gpr r = 0 ∧ (s.core c).seq.tnt r = false) ∧ (s.core c).seq.sup = false ∧ (s.core c).killed = false)
  ∧ (∀ c : Fin 48, s.hif.partmapNext[c] = 0x3F ∧ s.hif.partmap[c] = 0x3F) ∧ s.hif.w2part = 0xFF ∧ s.fab.fabid = 0
  ∧ ∀ l : LinkIx, s.fab.links[l].en = false ∧ s.fab.links[l].st = .disabled

/-- The invariant of the state every step keeps: memory is in its canonical form, with rising keys and no byte listed that reads 0. -/
def Sys2Proof.ResetMemoryCanonical : Prop := Memory.wf State.reset.memory = true

/-- State.reset is the module of R46, and its memory is canonical. -/
def Obligations.ResetStates : Prop := ResetState ∧ ResetMemoryCanonical

/-- A step keeps the canonical form of memory, whatever happens next: a word, an input or a scheduled event. -/
def Obligations.StepKeepsMemoryCanonical : Prop :=
  ∀ s t, Memory.wf s.memory = true → step s = .next t → Memory.wf t.memory = true

/-- A step runs the word that issues next: when the module is powered and not frozen and the issue of an engine of a core comes first, the
step is the meaning of the word fetched there, decoded for its engine's section, with CHRON at the cycle of its issue, the core and
engine at hand, and, inside an open loop, the word kept in the loop buffer (R139, R268, R271, R332). -/
def Obligations.StepRunsTheFetchedWord : Prop :=
  (∀ s x w i, s.off = false → s.isFrozen = false → s.pick = .issue x → x.word = some w → decode x.eng w = .ok i →
      step s = exec i (s.atIssue x))
  ∧ (∀ s x w d, s.off = false → s.isFrozen = false → s.pick = .issue x → x.word = some w → decode x.eng w = .error d →
      step s = exec (.unassignedEncoding (hdrOf w)) (s.atIssue x))
  ∧ (∀ s x p, s.off = false → s.isFrozen = false → s.pick = .issue x → x.word = none → s.partOf x.core = some p →
      Running s p → ∃ t, step s = .next t ∧ (t.part p).halting.map (·.code) = some 0x03)
  ∧ (∀ (s : State) (x : Cand), (s.atIssue x).chron = max s.chron x.t ∧ (s.atIssue x).cur = x.core ∧ (s.atIssue x).eng = x.eng
      ∧ (s.atIssue x).memory = s.memory ∧ (s.atIssue x).reqs = s.reqs ∧ (s.atIssue x).agenda = s.agenda
      ∧ (((s.core x.core).queue x.eng).loops = [] → ∀ c, (s.atIssue x).core c = s.core c))
  ∧ ∀ (s : State) (x : Cand) w, s.pick = .issue x → x.word = some w → s.fetch x.core x.eng = some w

/-- A step runs what comes first (log 1): a device's doing, an input from outside or a scheduled event, at its cycle, taken off its list, with the
units it names at hand; with nothing to come CHRON counts on; without power only COLD_RESET acts (R26, R139); under the freeze wire CHRON stands,
and 32 ms of it end in FREEZE_TIMEOUT (R164). -/
def Obligations.StepRunsTheEvent : Prop :=
  (∀ s e r, s.off = false → s.isFrozen = false → s.pick = .input e r → step s = exec e.instr
      { s with inputs := r, chron := max s.chron e.cycle, cur := e.core, curPart := e.part, curLink := e.link }
        ∧ ∃ l m, s.inputs = l ++ e :: m ∧ r = l ++ m)
  ∧ (∀ s e r, s.off = false → s.isFrozen = false → s.pick = .event e r → step s = exec e.instr
      { s with agenda := r, chron := max s.chron e.cycle, cur := e.core, curPart := e.part, curLink := e.link }
        ∧ ∃ l m, s.agenda = l ++ e :: m ∧ r = l ++ m)
  ∧ (∀ s o r, s.off = false → s.isFrozen = false → s.pick = .occur o r →
      step s = .next (({ s with occurs := r, chron := max s.chron o.cycle }).occur o.what) ∧ s.occurs = o :: r)
  ∧ (∀ s x, s.off = false → s.isFrozen = false → s.pick = .look x → step s = exec x.instr
      { s with chron := max s.chron x.t, cur := x.core, curPart := (s.partOf x.core).getD s.curPart })
  ∧ (∀ s, s.off = false → s.isFrozen = false → s.pick = .idle → step s = .next { s with chron := s.chron + 1 })
  ∧ (∀ s e r, s.off = true → s.inputs = e :: r → e.instr ≠ .coldReset → step s = .next { s with inputs := r })
  ∧ (∀ s e r, s.off = true → s.inputs = e :: r → e.instr = .coldReset → ∃ t, step s = .next t ∧ t.off = false ∧ t.chron = 0 ∧ t.inputs = r)
  ∧ (∀ s, s.off = true → s.inputs = [] → step s = .fault .poweredOff)
  ∧ (∀ s e r, s.off = false → s.isFrozen = true → s.pickFrozen = .input e r →
      step s = exec e.instr { s with inputs := r, cur := e.core, curPart := e.part, curLink := e.link })
  ∧ (∀ s e r, s.off = false → s.isFrozen = true → s.pickFrozen = .event e r → helmEvent e.instr = true
      ∧ step s = exec e.instr { s with agenda := r, cur := e.core, curPart := e.part, curLink := e.link })
  ∧ (∀ s o r, s.off = false → s.isFrozen = true → s.pickFrozen = .occur o r → step s = .next (({ s with occurs := r }).occur o.what))
  ∧ (∀ s, s.off = false → s.isFrozen = true → s.pickFrozen = .idle → s.frozen + 1 < 44800000 →
      step s = .next { s with frozen := s.frozen + 1 })
  ∧ ∀ s, s.off = false → s.isFrozen = true → s.pickFrozen = .idle → 44800000 ≤ s.frozen + 1 → step s = exec .freezeTimeout s

/-- A word of no assigned encoding is hard fault 0x01 in the cycle it would issue in, with its take made if its token is there; in a free leg it
waits for its token (R181, R182, R271). -/
def Obligations.UnassignedEncodingFaults : Prop :=
  ∀ s h, s.eng ≠ .cpe → (s.eng = .seq → s.me.stat.trapDue s.chron = false) →
    let q := s.me.queue s.eng
    let src := (s.me.ctl.seen s.chron).from_ s.eng.num
    let takes : Bool := h.t && !(s.eng == .seq && s.me.seq.noTakeAt == some q.pc)
    let there : Bool := s.me.ctl.hasTok s.eng.num src && !(s.fixedLeg s.cur && decide (8 ≤ src))
    (∀ p, (takes = true → there = true ∨ s.fixedLeg s.cur = true) → s.partOf s.cur = some p → Running s p →
      ∃ t, exec (.unassignedEncoding h) s = .next t ∧ Halts s t p s.eng 0x01 q.pc
        ∧ t.me.ctl = (if takes && there then s.me.ctl.take s.eng.num src else s.me.ctl)
        ∧ (q.loops = [] → (t.me.queue s.eng).pc = q.pc + 4) ∧ t.memory = s.memory ∧ t.cols = s.cols
        ∧ (∀ r, t.me.seq.gpr r = s.me.seq.gpr r ∧ t.me.seq.tnt r = s.me.seq.tnt r) ∧ t.me.vec.v = s.me.vec.v ∧ t.me.axu.a = s.me.axu.a)
    ∧ (takes = true → there = false → s.fixedLeg s.cur = false → ∃ t, exec (.unassignedEncoding h) s = .next t ∧ EngStays s t s.eng)

/-! ## Events: reset, boot and the Helm -/

/-- COLD_RESET leaves the module as State.reset has it but for the flash, the key's count of signatures, what has left the module and
the inputs to come; CHRON is 0, and the boot ends within 1.5 s (R46, R39, R90). A copy staged in flash is copy A from now on (R90). -/
def Sys2Proof.ColdReset : Prop :=
  ∀ s : State, ∃ lat, 0 < lat ∧ lat < 2100000000 ∧ exec .coldReset s = .next
    { State.reset with
      helm := { State.reset.helm with
        flashA := if s.helm.flashStaged.isSome then s.helm.flashStaged else s.helm.flashA
        flashB := if s.helm.flashStaged.isSome && !s.helm.fwb then s.helm.flashA else s.helm.flashB
        fwNew := s.helm.flashStaged.isSome, fwFloor := s.helm.fwFloor, flashRetired := s.helm.flashRetired, signs := s.helm.signs
        spdmOut := s.helm.spdmOut }
      hif := { State.reset.hif with hostOut := s.hif.hostOut }
      inputs := s.inputs, occurs := s.occurs, agenda := [{ cycle := lat, instr := .bootComplete }], freeIx := s.freeIx + 1, nextId := s.nextId }

/-- What a warm reset leaves (R46): CHRON, the survey map of every column with its bus, its sensors and its counts, LPDDR6 memory, flash and firmware, SECNT, the measured
charts; every other byte of memory reads 0, no context, window, link or request stands, VALID is 0, and the survey is to come. A pending change of the refresh period applies. -/
def Sys2Proof.WarmReset (s t : State) (busy : Bool) : Prop :=
  t.chron = s.chron ∧ t.helm.valid = false ∧ t.helm.gen = s.helm.gen ∧ t.helm.hcmdBusy = busy
  ∧ (t.helm.emerg = true ↔ s.helm.emCond = true) ∧ t.helm.fwver = s.helm.fwver ∧ t.helm.flashA = s.helm.flashA
  ∧ t.helm.flashB = s.helm.flashB ∧ t.helm.flashStaged = s.helm.flashStaged ∧ t.helm.flashRetired = s.helm.flashRetired
  ∧ (∀ j : Fin 8, t.helm.keys[j] = 0)
  ∧ (∀ a, readByte t.memory a = if 2 ^ 52 ≤ a ∧ a < 2 ^ 53 then readByte s.memory a else 0)
  ∧ (∀ p, t.part p = { lastChart := (s.part p).lastChart }) ∧ t.reqs = [] ∧ t.mig = {} ∧ t.ms = { lost := s.ms.lost } ∧ t.frzCtl = false ∧ t.frzMsg = false ∧ t.fab.links = State.reset.fab.links
  ∧ t.hif.partmap = State.reset.hif.partmap ∧ t.hif.intst = 0 ∧ t.hif.inten = 0 ∧ t.inputs = s.inputs ∧ t.occurs = s.occurs
  ∧ (∀ c, (t.col c).dram = (s.col c).dram ∧ (t.col c).slice = (s.col c).slice ∧ (t.col c).rowmax = (s.col c).rowmax
      ∧ (t.col c).phase = (s.col c).phase ∧ (t.col c).spare = (s.col c).spare ∧ (t.col c).half = (s.col c).half
      ∧ (t.col c).hot = ((s.col c).hot != (s.col c).hotpend) ∧ (t.col c).hotpend = false ∧ (t.col c).layers = (s.col c).layers ∧ (t.col c).tlogic = (s.col c).tlogic
      ∧ (t.col c).cecnt = (s.col c).cecnt ∧ (t.col c).rows = Vector.replicate 32 .closed)
  ∧ (∀ c, (t.core c).ctl.secnt = (s.core c).ctl.secnt ∧ (t.core c).seq = {} ∧ (t.core c).axu = {} ∧ (t.core c).bke = {}
      ∧ (t.core c).vec = {} ∧ (t.core c).cpe = {} ∧ (t.core c).killed = false ∧ (t.core c).hcPinned = [])
  ∧ (s.helm.fwerr = false → ∃ e ∈ t.agenda, s.chron < e.cycle ∧ e.instr = .bootComplete)
  ∧ (∀ e ∈ t.agenda, e.instr ≠ .bootComplete → e ∈ s.agenda ∧ sensorEvent e.instr = true)

/-- WARM_RESET, a reset of the physical function (R46), and POWER_LOSS, which stops every step until a cold reset (R26). -/
def Sys2Proof.WarmResetAndPowerLoss : Prop :=
  (∀ s, ∃ t, exec .warmReset s = .next t ∧ WarmReset s t false)
  ∧ ∀ s, exec .powerLoss s = .next { s with off := true, agenda := [] }

/-- PARTITION_RESET: the registers, contexts, queues and Logbook of the partition are as at reset, and the registers of its cores but
for SECNT and a fence; its memory, the measure of its last accepted launch, every other partition and every core outside it stay as they were; key writes held for its contexts
apply (R46, R78, R91, R144). -/
def Sys2Proof.PartitionReset : Prop :=
  ∀ s, ∃ t, exec .partitionReset s = .next t ∧ t.part s.curPart = { lastChart := (s.part s.curPart).lastChart } ∧ (∀ p, p ≠ s.curPart → t.part p = s.part p)
    ∧ (∀ c, s.partOf c = some s.curPart → t.core c = { ctl := { secnt := (s.core c).ctl.secnt }, killed := (s.core c).killed })
    ∧ (∀ c, s.partOf c ≠ some s.curPart → t.core c = s.core c ∧ t.col c = s.col c)
    ∧ (∀ c, (t.col c).dram = (s.col c).dram) ∧ t.memory = s.memory ∧ t.chron = s.chron ∧ t.hif = s.hif
    ∧ t.helm = { s.helm with keys := t.helm.keys, keyHeld := t.helm.keyHeld } ∧ (s.helm.keyHeld = [] → t.helm = s.helm) ∧ (∀ x ∈ t.helm.keyHeld, x ∈ s.helm.keyHeld)
    ∧ t.fab = s.fab ∧ t.mig = s.mig ∧ t.ms = s.ms ∧ t.inputs = s.inputs
    ∧ (∀ c, s.partOf c = some s.curPart → ∀ r ∈ t.reqs, r.core = c → 5 ≤ r.who) ∧ (∀ r ∈ t.reqs, r ∈ s.reqs ∧ ¬ (r.who = 8 ∧ r.part = some s.curPart)) ∧ t.occurs = s.occurs

/-- The resets of R46 and the loss of power of R26. -/
def Obligations.Resets : Prop := ColdReset ∧ WarmResetAndPowerLoss ∧ PartitionReset


/-- BOOT_COMPLETE (R90, R46): the first copy whose version is at least the floor runs, the survey is made and VALID is set; with none
FWERR is set and VALID stays 0. After a warm reset the firmware that runs finishes the survey. The survey after a cold reset
has an entry for each of the 288 columns (R30), the bank states those the flash records (R39), the sensors and counts those since. -/
def Sys2Proof.BootComplete : Prop :=
  (∀ s v, s.helm.valid = false → s.helm.fwver = 0 → s.helm.flashA = some v → s.helm.fwFloor ≤ v → ∃ t, exec .bootComplete s = .next t
      ∧ t.helm.valid = true ∧ t.helm.fwver = BitVec.ofNat 16 v ∧ t.helm.fwb = false ∧ t.helm.fwerr = s.helm.fwerr
      ∧ (v < 65536 → t.helm.fwFloor = if s.helm.fwNew then max s.helm.fwFloor v else s.helm.fwFloor)
      ∧ t.helm.gen = s.helm.gen + 2 ∧ (∀ c, (t.col c).live = true ∧ (t.col c).layers = (s.col c).layers ∧ (t.col c).cecnt = (s.col c).cecnt) ∧ t.memory = s.memory ∧ t.cores = s.cores ∧ t.parts = s.parts)
  ∧ (∀ s v, s.helm.valid = false → s.helm.fwver = 0 → (∀ u, s.helm.flashA = some u → u < s.helm.fwFloor) → s.helm.flashB = some v →
      s.helm.fwFloor ≤ v → ∃ t, exec .bootComplete s = .next t ∧ t.helm.valid = true ∧ t.helm.fwver = BitVec.ofNat 16 v
      ∧ t.helm.fwb = true ∧ t.helm.fwFloor = s.helm.fwFloor)
  ∧ (∀ s, s.helm.valid = false → s.helm.fwver = 0 → (∀ u, s.helm.flashA = some u → u < s.helm.fwFloor) →
      (∀ u, s.helm.flashB = some u → u < s.helm.fwFloor) → exec .bootComplete s = .next { s with helm := { s.helm with fwerr := true } })
  ∧ (∀ s, s.helm.valid = false → s.helm.fwver ≠ 0 → ∃ t, exec .bootComplete s = .next t ∧ t.helm.valid = true
      ∧ t.helm.fwver = s.helm.fwver ∧ (∀ c, (tget s.cols c.val).isSome → (t.col c).live = true ∧ (t.col c).dram = (s.col c).dram ∧ (t.col c).hot = (s.col c).hot)
      ∧ (s.helm.hcmdBusy = true → s.helm.hcmd = 1 → ∃ e ∈ t.agenda, e.cycle = s.chron ∧ e.instr = .hcmdComplete))
  ∧ (∀ s, s.helm.valid = true → exec .bootComplete s = .next s)
  ∧ ∀ s v, s.helm.valid = false → s.helm.fwver = 0 → (s.helm.flashA = some v ∨ s.helm.flashB = some v) → s.helm.fwFloor ≤ v → ∃ t, exec .bootComplete s = .next t
      ∧ ∀ (c : CoreIx) (b : Fin 32),
        ((∀ x ∈ s.helm.flashRetired, ¬ (x.1 = c.val ∧ x.2.1 = b.val)) → (t.col c).dram[b] = if (Config.dramPresent c.val).getLsbD b.val then 1 else 0)
        ∧ ∀ x, s.helm.flashRetired.find? (fun x => x.1 == c.val && x.2.1 == b.val) = some x → (t.col c).dram[b] = BitVec.ofNat 4 x.2.2

/-- A refused Helm command: ERR is set, BUSY is 0, the command's interrupt bit is set, and nothing else changes (R76, R79). -/
def Sys2Proof.HelmRefuses (s : State) (i : Instr) : Prop :=
  exec i s = .next (({ s with helm := { s.helm with hcmdErr := true, hcmdBusy := false } }).pfInt 3)

/-- The commands of the Helm (R76): what each is accepted for, what it changes, and its completion after a latency the spec leaves
open (log 5), in which BUSY stays set; what is not accepted sets ERR and changes nothing (R76). WARMRST is a warm reset and is busy until VALID. -/
def Sys2Proof.HelmCommands : Prop :=
  (∀ s, s.helm.fwerr = false → ∃ t, exec .warmrst s = .next t ∧ WarmReset s t true ∧ t.helm.hcmd = 1)
  ∧ (∀ s, s.helm.fwerr = true → HelmRefuses s .warmrst)
  ∧ (∀ s, s.helm.emerg = true → s.helm.emCond = false → s.helm.fwerr = false → ∃ lat, 0 < lat ∧ exec .emclear s = .next
      (({ s with helm := { s.helm with hcmd := 2, hcmdBusy := true, emerg := false }, freeIx := s.freeIx + 1 }).sched (s.chron + lat) .hcmdComplete))
  ∧ (∀ s, s.helm.emerg = false ∨ s.helm.emCond = true ∨ s.helm.fwerr = true → HelmRefuses s .emclear)
  ∧ (∀ s : State, s.helm.harg.toNat % 65536 = 0 → s.paKind s.helm.harg.toNat = .pool ∨ s.paKind s.helm.harg.toNat = .lpddr →
      ∃ lat, 0 < lat ∧ exec .fwstage s = .next (match Config.fwImageVersion s.memory s.helm.harg.toNat with
        | some v => if s.helm.fwFloor ≤ v then
            ({ s with helm := { s.helm with hcmd := 3, hcmdBusy := true, fwpend := true, flashStaged := some v }, freeIx := s.freeIx + 1 }).sched
              (s.chron + lat) .hcmdComplete
          else ({ s with helm := { s.helm with hcmdErr := true, hcmdBusy := false } }).pfInt 3
        | none => ({ s with helm := { s.helm with hcmdErr := true, hcmdBusy := false } }).pfInt 3))
  ∧ (∀ s : State, s.helm.harg.toNat % 65536 ≠ 0 ∨ s.paKind s.helm.harg.toNat = .nothing ∨ s.paKind s.helm.harg.toNat = .failed →
      HelmRefuses s .fwstage)
  ∧ (∀ s, s.helm.fwerr = false → (∀ c : Fin 48, ((s.hif.partmapNext[c]).toNat < 48 ∨ s.hif.partmapNext[c] = 0x3F)
      ∧ (s.hif.partmap[c] ≠ s.hif.partmapNext[c] → ∀ (p : PartIx) (j : Fin 8), p.val = (s.hif.partmap[c]).toNat ∨ p.val = (s.hif.partmapNext[c]).toNat →
          (s.part p).slots[j].st.live = false)) →
      ∃ t, exec .partapply s = .next t ∧ t.hif = { s.hif with partmap := s.hif.partmapNext }
        ∧ t.helm = { s.helm with hcmd := 4, hcmdBusy := true } ∧ t.memory = s.memory ∧ t.cores = s.cores ∧ t.cols = s.cols ∧ t.parts = s.parts
        ∧ t.chron = s.chron ∧ ∃ e ∈ t.agenda, s.chron < e.cycle ∧ e.instr = .hcmdComplete)
  ∧ (∀ s, s.helm.fwerr = true → HelmRefuses s .partapply)
  ∧ (∀ s (c : Fin 48) (p : PartIx) (j : Fin 8), s.hif.partmap[c] ≠ s.hif.partmapNext[c] → p.val = (s.hif.partmap[c]).toNat ∨ p.val = (s.hif.partmapNext[c]).toNat →
      (s.part p).slots[j].st.live = true → HelmRefuses s .partapply)
  ∧ (∀ s (c : Fin 48), 48 ≤ (s.hif.partmapNext[c]).toNat → s.hif.partmapNext[c] ≠ 0x3F → HelmRefuses s .partapply)
  ∧ ∀ s, exec .hcmdComplete s = .next (({ s with helm := { s.helm with hcmdBusy := false } }).pfInt 3)

/-- The end of the boot and the commands of the Helm (R46, R76, R90). -/
def Obligations.BootAndHelmCommands : Prop := BootComplete ∧ HelmCommands


/-- Interrupts (R79): a status bit is set, and its vector fires once when (status AND enable) goes from 0 to 1; nothing else
changes. -/
def Sys2Proof.InterruptsFire : Prop :=
  (∀ (s : State) (v : Fin 8), (s.pfInt v).hif.intst = s.hif.intst ||| (1 <<< v.val)
      ∧ (s.hif.intst.getLsb v = false → s.hif.inten.getLsb v = true → s.pfInt v = ({ s with hif := { s.hif with
          intst := s.hif.intst ||| (1 <<< v.val), msix := tput s.hif.msix (48 * 8 + v.val) ((tget s.hif.msix (48 * 8 + v.val)).getD 0 + 1) } }))
      ∧ (s.hif.intst.getLsb v = true ∨ s.hif.inten.getLsb v = false → s.pfInt v = ({ s with hif := { s.hif with intst := s.hif.intst ||| (1 <<< v.val) } })))
  ∧ (∀ (s : State) (p : PartIx) (v : Fin 2), ((s.vfInt p v).part p).vintst = (s.part p).vintst ||| (1 <<< v.val)
      ∧ ((s.part p).vintst.getLsb v = false → (s.part p).vinten.getLsb v = true →
          tget (s.vfInt p v).hif.msix (p.val * 8 + v.val) = some ((tget s.hif.msix (p.val * 8 + v.val)).getD 0 + 1))
      ∧ ((s.part p).vintst.getLsb v = true ∨ (s.part p).vinten.getLsb v = false → (s.vfInt p v).hif = s.hif))
  ∧ ∀ (s : State) (p : PartIx), ((s.part p).even = false → s.mailEvent p = s)
      ∧ ((s.part p).even = true → ((s.mailEvent p).part p).vintst.getLsb 0 = true ∧ (s.mailEvent p).hif.mbev.getLsb p = true
          ∧ (s.mailEvent p).hif.intst.getLsb 5 = true)

/-- A machine check: a partition that runs a context and neither halts nor switches begins its halt with the code, at no core, and
the halt line comes 8 cycles later (R148). -/
def Sys2Proof.Checks (s t : State) (p : PartIx) (code : Nat) : Prop :=
  (∃ x, (t.part p).halting = some x ∧ x.code = code ∧ x.cycle = s.chron ∧ x.core = 0x1FF ∧ x.kill = false)
    ∧ ∃ v ∈ t.agenda, v.cycle = s.chron + 8 ∧ v.part = p ∧ v.instr = .partitionHalt

/-- The cores, columns, memory, requests, inputs and migration engine are as before. -/
def Sys2Proof.SameUnits (s t : State) : Prop :=
  t.cores = s.cores ∧ t.cols = s.cols ∧ t.memory = s.memory ∧ t.reqs = s.reqs ∧ t.inputs = s.inputs ∧ t.mig = s.mig ∧ t.ms = s.ms
    ∧ t.chron = s.chron ∧ t.off = s.off

/-- The emergencies and the power window (R43, R44, R76): EMERG and its code latch, the interrupt is raised, and every partition that
runs is checked with the code; a cleared condition lets EMCLEAR act; a window's mean over the budget 1600 − 200 × PWRCLS of the highest class
of a partition with clusters raises the power interrupt. -/
def Sys2Proof.EmergenciesAndPower : Prop :=
  (∀ s, ∃ t, exec .thermalEmergency s = .next t ∧ t.helm = { s.helm with emerg := true, emcode := 0x71, emCond := true }
      ∧ t.hif.intst.getLsb 2 = true ∧ SameUnits s t ∧ ∀ p, Running s p → Checks s t p 0x71)
  ∧ (∀ s, ∃ t, exec .supplyEmergency s = .next t ∧ t.helm = { s.helm with emerg := true, emcode := 0x72, emCond := true }
      ∧ t.hif.intst.getLsb 2 = true ∧ SameUnits s t ∧ ∀ p, Running s p → Checks s t p 0x72)
  ∧ (∀ s, exec .emergencyConditionCleared s = .next { s with helm := { s.helm with emCond := false } })
  ∧ (∀ s w (top : PartIx), 0 < s.nclu top → (∀ p, 0 < s.nclu p → (s.part p).pwrcls.toNat ≤ (s.part top).pwrcls.toNat) →
      exec (.powerWindow w) s = .next (if 1600 - 200 * (s.part top).pwrcls.toNat < w then s.pfInt 1 else s))

/-- The interrupts of the host interface, the emergency and the power classes (R43, R44, R76, R79). -/
def Obligations.InterruptsAndPower : Prop := InterruptsFire ∧ EmergenciesAndPower


/-! ## Events: the survey, temperatures, bank modes -/

/-- Nothing of the module but columns, the survey's GEN, interrupts and the free-value counter changes. -/
def Sys2Proof.SurveyFrame (s t : State) : Prop :=
  t.cores = s.cores ∧ t.parts = s.parts ∧ t.memory = s.memory ∧ t.reqs = s.reqs ∧ t.inputs = s.inputs ∧ t.mig = s.mig ∧ t.fab = s.fab
    ∧ t.chron = s.chron ∧ t.off = s.off ∧ t.helm = { s.helm with gen := t.helm.gen }

/-- A column changes only as a function says; every other column stays. -/
def Sys2Proof.ColumnDoes (s t : State) (c : CoreIx) (f : Column → Column) : Prop :=
  t.col c = f (s.col c) ∧ ∀ x, x ≠ c → t.col x = s.col x

/-- The PEND state of a bank: POOL 1 becomes PENDPOOL 3, ROW 2 becomes PENDROW 4, any other state stays (R35, R36). -/
def Sys2Proof.pendOf (v : BitVec 4) : BitVec 4 := if v = 1 then 3 else if v = 2 then 4 else v

/-- Bank health (R36, R37, R39, R33): more than 64 corrected errors of a bank, or heat in a layer of eight banks, moves its banks in POOL or ROW
to their PEND state, GEN on by 2 and raises the survey interrupt; without such a bank it changes nothing of the survey (the model's choice, log
66); the errors PEND_ON_ERRORS implies are counted in CECNT, those beyond 65 being open (log 5). An uncorrectable error makes a live bank FAILED,
records it in flash, and checks with 0x74 each running partition that holds a row window on it or a page in it. -/
def Sys2Proof.BankHealthEvents : Prop :=
  (∀ (s : State) (c : CoreIx) (b : Fin 32), ((s.col c).dram[b] = 1 ∨ (s.col c).dram[b] = 2) → ∃ t n, exec (.pendOnErrors c b) s = .next t
      ∧ 65 ≤ (s.col c).errorsOf b.val s.chron + n ∧ (64 < (s.col c).errorsOf b.val s.chron → n = 0)
      ∧ ColumnDoes s t c (fun k => { k with dram := k.dram.set b (pendOf k.dram[b]), cecnt := BitVec.ofNat 32 (min (k.cecnt.toNat + n) 0xFFFFFFFF) })
      ∧ t.helm.gen = s.helm.gen + 2 ∧ t.hif.intst.getLsb 0 = true ∧ SurveyFrame s t ∧ t.agenda = s.agenda)
  ∧ (∀ (s : State) (c : CoreIx) (b : Fin 32), (s.col c).dram[b] ≠ 1 → (s.col c).dram[b] ≠ 2 → ∃ t n, exec (.pendOnErrors c b) s = .next t
      ∧ 65 ≤ (s.col c).errorsOf b.val s.chron + n ∧ (64 < (s.col c).errorsOf b.val s.chron → n = 0)
      ∧ ColumnDoes s t c (fun k => { k with cecnt := BitVec.ofNat 32 (min (k.cecnt.toNat + n) 0xFFFFFFFF) })
      ∧ t.helm = s.helm ∧ t.hif = s.hif ∧ SurveyFrame s t ∧ t.agenda = s.agenda)
  ∧ (∀ (s : State) (c : CoreIx) (l : Fin 4) (b : Fin 32), b.val / 8 = l.val → ((s.col c).dram[b] = 1 ∨ (s.col c).dram[b] = 2) →
      ∃ t, exec (.pendOnHeat c l) s = .next t
      ∧ ColumnDoes s t c (fun k => { k with dram := Vector.ofFn fun b => if b.val / 8 = l.val then pendOf k.dram[b] else k.dram[b] })
      ∧ t.helm.gen = s.helm.gen + 2 ∧ t.hif.intst.getLsb 0 = true ∧ SurveyFrame s t ∧ t.agenda = s.agenda)
  ∧ (∀ (s : State) (c : CoreIx) (l : Fin 4), (∀ b : Fin 32, b.val / 8 = l.val → (s.col c).dram[b] ≠ 1 ∧ (s.col c).dram[b] ≠ 2) →
      exec (.pendOnHeat c l) s = .next s)
  ∧ (∀ (s : State) (c : CoreIx) (b : Fin 32), 1 ≤ ((s.col c).dram[b]).toNat → ((s.col c).dram[b]).toNat ≤ 5 → ∃ t, exec (.uncorrectableDramError c b) s = .next t
      ∧ ColumnDoes s t c (fun k => { k with dram := k.dram.set b 7 })
      ∧ t.helm = { s.helm with
          gen := s.helm.gen + 2, flashRetired := s.helm.flashRetired ++ [(c.val, b.val, 7)], keys := t.helm.keys, keyHeld := t.helm.keyHeld }
      ∧ t.hif.intst.getLsb 0 = true ∧ t.cores = s.cores ∧ t.memory = s.memory ∧ t.reqs = s.reqs ∧ t.chron = s.chron
      ∧ (∀ p, Running s p → (s.windowNames c b = true ∧ s.partOf c = some p ∨ s.partMaps p (32 * c.val + b.val) = true) → Checks s t p 0x74)
      ∧ ∀ p, ¬ (s.windowNames c b = true ∧ s.partOf c = some p ∨ s.partMaps p (32 * c.val + b.val) = true) → t.part p = s.part p)
  ∧ ∀ (s : State) (c : CoreIx) (b : Fin 32), ((s.col c).dram[b] = 0 ∨ 6 ≤ ((s.col c).dram[b]).toNat) → exec (.uncorrectableDramError c b) s = .next s

/-- SVCTL (R38): QUIESCE of a POOL, ROW or PEND bank that no row window names, COMMIT of a QUIET bank without a frame; each ends after a
latency of the Helm, under GEN, with BUSY clear, and a retired bank is recorded in flash (R39); otherwise ERR, and nothing
changes. A bank that has failed meanwhile stays. A command that names no column is refused (the model's choice, log 66). -/
def Sys2Proof.SurveyCommands : Prop :=
  (∀ (s : State) (c : CoreIx) (b : Fin 32), s.ms.svTarget = some (c, b) → 1 ≤ ((s.col c).dram[b]).toNat → ((s.col c).dram[b]).toNat ≤ 4 → s.windowNames c b = false →
      ∃ lat, 0 < lat ∧ exec .quiesce s = .next
        (({ s with ms := { s.ms with svBusy := true, svCmd := 1 }, freeIx := s.freeIx + 1 }).sched (s.chron + lat) .surveyCommandDone))
  ∧ (∀ s : State, (∀ c b, s.ms.svTarget = some (c, b) → (s.col c).dram[b] = 0 ∨ 5 ≤ ((s.col c).dram[b]).toNat ∨ s.windowNames c b = true) →
      exec .quiesce s = .next { s with ms := { s.ms with svErr := true, svBusy := false } })
  ∧ (∀ (s : State) (c : CoreIx) (b : Fin 32), s.ms.svTarget = some (c, b) → (s.col c).dram[b] = 5 → s.bankUsed c b = false → ∃ lat, 0 < lat ∧ exec .commit s = .next
        (({ s with ms := { s.ms with svBusy := true, svCmd := 2 }, freeIx := s.freeIx + 1 }).sched (s.chron + lat) .surveyCommandDone))
  ∧ (∀ s : State, (∀ c b, s.ms.svTarget = some (c, b) → (s.col c).dram[b] ≠ 5 ∨ s.bankUsed c b = true) →
      exec .commit s = .next { s with ms := { s.ms with svErr := true, svBusy := false } })
  ∧ (∀ (s : State) (c : CoreIx) (b : Fin 32), s.ms.svTarget = some (c, b) → s.ms.svCmd = 1 → 1 ≤ ((s.col c).dram[b]).toNat → ((s.col c).dram[b]).toNat ≤ 4 →
      ∃ t, exec .surveyCommandDone s = .next t ∧ ColumnDoes s t c (fun k => { k with dram := k.dram.set b 5 })
        ∧ t.ms = { s.ms with svBusy := false } ∧ t.helm.gen = s.helm.gen + 2 ∧ SurveyFrame s t ∧ t.agenda = s.agenda)
  ∧ (∀ (s : State) (c : CoreIx) (b : Fin 32), s.ms.svTarget = some (c, b) → s.ms.svCmd = 2 → (s.col c).dram[b] = 5 →
      ∃ t, exec .surveyCommandDone s = .next t ∧ ColumnDoes s t c (fun k => { k with dram := k.dram.set b 6 })
        ∧ t.ms = { s.ms with svBusy := false } ∧ t.agenda = s.agenda ∧ t.memory = s.memory
        ∧ t.helm = { s.helm with gen := s.helm.gen + 2, flashRetired := s.helm.flashRetired ++ [(c.val, b.val, 6)] })
  ∧ (∀ s : State, (∀ c b, s.ms.svTarget = some (c, b) → ¬ (s.ms.svCmd = 1 ∧ 1 ≤ ((s.col c).dram[b]).toNat ∧ ((s.col c).dram[b]).toNat ≤ 4)
        ∧ ¬ (s.ms.svCmd = 2 ∧ (s.col c).dram[b] = 5)) →
      exec .surveyCommandDone s = .next { s with ms := { s.ms with svBusy := false } })
  ∧ (∀ (s : State) (h : s.ms.svCol.toNat < 288), s.ms.svTarget = some (⟨s.ms.svCol.toNat, h⟩, Fin.ofNat 32 s.ms.svBank.toNat))
  ∧ ∀ s : State, 288 ≤ s.ms.svCol.toNat → s.ms.svTarget = none

/-- Temperature (R32, R40, R41, R33): at 85 °C (680 eighths) HOTPEND is set with HOT = 0, or a pending return is withdrawn with HOT = 1; below
80 °C the reverse; a pending change takes effect when no valid row window of a context in RUN or PREEMPTED is on the
column, and then governs the slots of the banks that are open (R34); at 90 °C with HOT = 0 the running partition that holds row-mode banks is
checked with 0x73, and HOT is set, with HOTPEND 0 (the model's choice, log 66). The sensor values a crossing implies are open where they do
not stand already (log 5). -/
def Sys2Proof.TemperatureEvents : Prop :=
  (∀ s : State, ∃ t, exec .hotonCrossing s = .next t ∧ 680 ≤ (t.col s.cur).tdram.toNat
      ∧ (680 ≤ (s.col s.cur).tdram.toNat → (t.col s.cur).layers = (s.col s.cur).layers)
      ∧ ColumnDoes s t s.cur (fun k => { k with layers := (t.col s.cur).layers, hotpend := !k.hot, hotAt := if k.hot || k.hotpend then k.hotAt else s.chron })
      ∧ SurveyFrame s t ∧ t.hif = s.hif
      ∧ t.helm.gen = (if (s.col s.cur).hotpend = (s.col s.cur).hot then s.helm.gen + 2 else s.helm.gen)
      ∧ ((s.col s.cur).hot = false → (s.col s.cur).hotpend = false → s.holdsWindow s.cur = false → ∃ e ∈ t.agenda, e.cycle = s.chron ∧ e.core = s.cur
          ∧ e.instr = .refreshPeriodChange))
  ∧ (∀ s : State, ∃ t, exec .hotoffCrossing s = .next t ∧ (t.col s.cur).tdram.toNat < 640
      ∧ ((s.col s.cur).tdram.toNat < 640 → (t.col s.cur).layers = (s.col s.cur).layers)
      ∧ ColumnDoes s t s.cur (fun k => { k with layers := (t.col s.cur).layers, hotpend := k.hot, hotAt := if !k.hot || k.hotpend then k.hotAt else s.chron })
      ∧ SurveyFrame s t ∧ t.hif = s.hif
      ∧ t.helm.gen = (if (s.col s.cur).hotpend = (s.col s.cur).hot then s.helm.gen else s.helm.gen + 2)
      ∧ ((s.col s.cur).hot = true → (s.col s.cur).hotpend = false → s.holdsWindow s.cur = false → ∃ e ∈ t.agenda, e.cycle = s.chron ∧ e.core = s.cur
          ∧ e.instr = .refreshPeriodChange))
  ∧ (∀ s : State, (s.col s.cur).hotpend = true → s.holdsWindow s.cur = false → ∃ t, exec .refreshPeriodChange s = .next t
      ∧ ColumnDoes s t s.cur (fun k => { k with hot := !k.hot, hotpend := false }) ∧ t.helm.gen = s.helm.gen + 2 ∧ t.hif = s.hif ∧ SurveyFrame s t
      ∧ (∀ b : Fin 32, (s.col s.cur).rows[b].at_ s.chron ≠ 0 → ∃ e ∈ t.agenda, e.cycle = s.chron + (t.col s.cur).toSlot b.val s.chron ∧ e.core = s.cur
          ∧ e.instr = .refreshSlotStart s.cur b)
      ∧ ∀ e ∈ s.agenda, (∀ b, e.instr ≠ .refreshSlotStart s.cur b) → e ∈ t.agenda)
  ∧ (∀ s : State, s.holdsWindow s.cur = true ∨ (s.col s.cur).hotpend = false → exec .refreshPeriodChange s = .next s)
  ∧ (∀ s : State, (s.col s.cur).hot = false → ∃ t, exec .refreshDeadline s = .next t ∧ 720 ≤ (t.col s.cur).tdram.toNat
      ∧ (720 ≤ (s.col s.cur).tdram.toNat → (t.col s.cur).layers = (s.col s.cur).layers)
      ∧ ColumnDoes s t s.cur (fun k => { k with layers := (t.col s.cur).layers, hot := true, hotpend := false }) ∧ t.helm.gen = s.helm.gen + 2
      ∧ t.memory = s.memory ∧ t.cores = s.cores
      ∧ (∀ b : Fin 32, (s.col s.cur).rows[b].at_ s.chron ≠ 0 → ∃ e ∈ t.agenda, e.cycle = s.chron + (t.col s.cur).toSlot b.val s.chron ∧ e.core = s.cur
          ∧ e.instr = .refreshSlotStart s.cur b)
      ∧ (∀ p, s.partOf s.cur = some p → Running s p → (∃ b : Fin 32, (s.col s.cur).dram[b] = 2 ∨ (s.col s.cur).dram[b] = 4) → Checks s t p 0x73)
      ∧ ((∀ b : Fin 32, (s.col s.cur).dram[b] ≠ 2 ∧ (s.col s.cur).dram[b] ≠ 4) → t.parts = s.parts))
  ∧ ∀ s : State, (s.col s.cur).hot = true → ∃ t, exec .refreshDeadline s = .next t ∧ 720 ≤ (t.col s.cur).tdram.toNat
      ∧ (720 ≤ (s.col s.cur).tdram.toNat → (t.col s.cur).layers = (s.col s.cur).layers)
      ∧ ColumnDoes s t s.cur (fun k => { k with layers := (t.col s.cur).layers }) ∧ SurveyFrame s t ∧ t.helm = s.helm ∧ t.hif = s.hif

/-- BMCTL (R98, R118): a POOL or PENDPOOL bank without a frame becomes ROW or PENDROW, a ROW or PENDROW bank that no row window names
becomes POOL or PENDPOOL, after a latency of the Helm in which BUSY is set; otherwise ERR, and nothing changes. -/
def Sys2Proof.BankModeChanges : Prop :=
  (∀ (s : State) (c : CoreIx) (b : Fin 32), s.ms.bmTarget = some (c, b) → ((s.col c).dram[b] = 1 ∨ (s.col c).dram[b] = 3) → s.bankUsed c b = false → ∃ lat, 0 < lat
      ∧ exec .bankToRow s = .next (({ s with ms := { s.ms with bmMode := true, bmBusy := true }, freeIx := s.freeIx + 1 }).sched (s.chron + lat) .bmctlDone))
  ∧ (∀ s : State, (∀ c b, s.ms.bmTarget = some (c, b) → ((s.col c).dram[b] ≠ 1 ∧ (s.col c).dram[b] ≠ 3) ∨ s.bankUsed c b = true) →
      exec .bankToRow s = .next { s with ms := { s.ms with bmMode := true, bmErr := true, bmBusy := false } })
  ∧ (∀ (s : State) (c : CoreIx) (b : Fin 32), s.ms.bmTarget = some (c, b) → ((s.col c).dram[b] = 2 ∨ (s.col c).dram[b] = 4) → s.windowNames c b = false → ∃ lat, 0 < lat
      ∧ exec .bankToPool s = .next (({ s with ms := { s.ms with bmMode := false, bmBusy := true }, freeIx := s.freeIx + 1 }).sched (s.chron + lat) .bmctlDone))
  ∧ (∀ s : State, (∀ c b, s.ms.bmTarget = some (c, b) → ((s.col c).dram[b] ≠ 2 ∧ (s.col c).dram[b] ≠ 4) ∨ s.windowNames c b = true) →
      exec .bankToPool s = .next { s with ms := { s.ms with bmMode := false, bmErr := true, bmBusy := false } })
  ∧ ∀ (s : State) (c : CoreIx) (b : Fin 32) (v : BitVec 4), s.ms.bmTarget = some (c, b) →
      ((s.ms.bmMode = true ∧ ((s.col c).dram[b] = 1 ∧ v = 2 ∨ (s.col c).dram[b] = 3 ∧ v = 4))
        ∨ (s.ms.bmMode = false ∧ ((s.col c).dram[b] = 2 ∧ v = 1 ∨ (s.col c).dram[b] = 4 ∧ v = 3))) →
      ∃ t, exec .bmctlDone s = .next t ∧ ColumnDoes s t c (fun k => { k with dram := k.dram.set b v })
        ∧ t.ms = { s.ms with bmBusy := false } ∧ t.helm.gen = s.helm.gen + 2 ∧ SurveyFrame s t ∧ t.agenda = s.agenda

/-- Errors and health of banks, the survey, temperature and the modes of banks (R32 to R41). -/
def Obligations.SurveyEvents : Prop := BankHealthEvents ∧ SurveyCommands ∧ TemperatureEvents ∧ BankModeChanges


/-! ## Events: the row controller -/

/-- A hard fault of the row controller of a column: the partition begins its halt with the code, the logical core, ENG 5 and the beat, and the
halt line comes 8 cycles later (R148, R150). -/
def Sys2Proof.RowHalts (s t : State) (p : PartIx) (c : CoreIx) (code beat : Nat) : Prop :=
  (∃ x, (t.part p).halting = some x ∧ x.code = code ∧ x.cycle = s.chron ∧ x.core = s.logical p c ∧ x.eng = 5 ∧ x.beat = beat ∧ x.kill = false)
    ∧ ∃ v ∈ t.agenda, v.cycle = s.chron + 8 ∧ v.part = p ∧ v.instr = .partitionHalt

/-- The checks of the row controller (R214, R34): a bank OPEN or PRECHARGING as its refresh slot begins, and a bank OPEN for more than
TRASMAX = 9,800 cycles with no precharge, raise 0x53; otherwise nothing happens, and a bank still open is looked at again as its next
slot begins. -/
def Sys2Proof.RowControllerChecks : Prop :=
  (∀ (s : State) (c : CoreIx) (b : Fin 32), (s.col c).rows[b].at_ s.chron = 0 → exec (.refreshSlotStart c b) s = .next s)
  ∧ (∀ (s : State) (c : CoreIx) (b : Fin 32) p, (s.col c).rows[b].at_ s.chron ≠ 0 → (s.col c).slotOffset b.val s.chron = 0 → s.partOf c = some p →
      Running s p → ∃ t, exec (.refreshSlotStart c b) s = .next t ∧ RowHalts s t p c 0x53 0xFF ∧ SameUnits s t)
  ∧ (∀ (s : State) (c : CoreIx) (b : Fin 32), (s.col c).rows[b].at_ s.chron ≠ 0 → (s.col c).slotOffset b.val s.chron ≠ 0 →
      exec (.refreshSlotStart c b) s = .next (s.schedC (s.chron + ((s.col c).period - (s.col c).slotOffset b.val s.chron)) c (.refreshSlotStart c b)))
  ∧ (∀ (s : State) (c : CoreIx) (b : Fin 32) row act lb p, (s.col c).rows[b] = .open_ row act lb none → act + 9800 < s.chron → s.partOf c = some p →
      Running s p → ∃ t, exec (.rowOpenTooLong c b act) s = .next t ∧ RowHalts s t p c 0x53 0xFF ∧ SameUnits s t)
  ∧ (∀ (s : State) (c : CoreIx) (b : Fin 32) act, (∀ row lb, (s.col c).rows[b] ≠ .open_ row act lb none) ∨ s.chron ≤ act + 9800 → exec (.rowOpenTooLong c b act) s = .next s)
  ∧ ∀ (k : Column) (b t : Nat), 80 * b + k.phase ≤ t → k.slotOffset b t = (t - k.phase - 80 * b) % (if k.hot then 2730 else 5460)

/-- ROW_REACTIVATION opens the listed row again, with its checks to come (R162, R211, R214); PRECHARGE_COMPLETE closes the bank TRP =
18 cycles after its precharge took effect (R213). -/
def Sys2Proof.RowStateEvents : Prop :=
  (∀ (s : State) (c : CoreIx) (b : Fin 32) row p, s.partOf c = some p → (s.part p).halting = none →
      ((s.part p).switching = true ∨ (s.part p).runSlot.isSome = true ∧ s.preStopped c = false) →
      ∃ t, exec (.rowReactivation c b row) s = .next t
        ∧ ColumnDoes s t c (fun k => { k with rows := k.rows.set b (.open_ row s.chron 0 none), acts := (k.acts.filter fun x => decide (s.chron < x + 40)) ++ [s.chron] })
        ∧ (∃ e ∈ t.agenda, e.cycle = s.chron + 9801 ∧ e.core = c ∧ e.instr = .rowOpenTooLong c b s.chron)
        ∧ (∃ e ∈ t.agenda, s.chron < e.cycle ∧ (s.col c).slotOffset b.val e.cycle = 0 ∧ e.core = c ∧ e.instr = .refreshSlotStart c b)
        ∧ t.cores = s.cores ∧ t.parts = s.parts ∧ t.memory = s.memory ∧ t.reqs = s.reqs ∧ t.helm = s.helm ∧ t.hif = s.hif ∧ t.chron = s.chron)
  ∧ (∀ (s : State) (c : CoreIx) (b : Fin 32) row act lb e, (s.col c).rows[b] = .open_ row act lb (some e) → e + 18 ≤ s.chron →
      exec (.prechargeComplete c b) s = .next (s.updCol c fun k => { k with rows := k.rows.set b .closed }))
  ∧ (∀ (s : State) (c : CoreIx) (b : Fin 32) u, (s.col c).rows[b] = .precharging u → u ≤ s.chron →
      exec (.prechargeComplete c b) s = .next (s.updCol c fun k => { k with rows := k.rows.set b .closed }))
  ∧ (∀ (s : State) (c : CoreIx) (b : Fin 32), (s.col c).rows[b] = .closed → exec (.prechargeComplete c b) s = .next s)

/-- The states of the banks of a column and the checks of its row controller (R34, R211 to R215). -/
def Obligations.RowStates : Prop := RowControllerChecks ∧ RowStateEvents


/-- The bytes of a beat at an offset of the row input (R212, R352). -/
def Sys2Proof.BeatIn (s : State) (c : CoreIx) (t : State) (off : Nat) (bs : List Byte) (mask : Bool) : Prop :=
  ∃ m, t.core c = { s.core c with bke := { (s.core c).bke with
      rowIn := (s.core c).bke.rowIn.take off ++ bs ++ (s.core c).bke.rowIn.drop (off + bs.length), rowMask := m } }
    ∧ (∀ j, m.getLsbD j = ((s.core c).bke.rowMask.getLsbD j || (mask && decide (off ≤ j ∧ j < off + bs.length ∧ j < 8192))))
    ∧ (∀ x, x ≠ c → t.core x = s.core x) ∧ t.memory = s.memory ∧ t.parts = s.parts ∧ t.reqs = s.reqs ∧ t.agenda = s.agenda

/-- The beats of a burst (R212, R217, R346, R352): a beat of 512 bytes, 256 at half width, fills its place of the row input and of
its mask; the last beat of a burst whose place an RCON took in the beat's own cycle fills the row input still (log 70); a failed beat raises 0x55
with its number, and neither it nor a later one is delivered, nor the lane beats that would carry them; a burst to the scratchpad leaves the row
input alone. -/
def Sys2Proof.RowBeats : Prop :=
  (∀ (s : State) (c : CoreIx) (i : Fin 32), (s.col c).burstTail = none → (s.col c).burstDst = 16 → (s.col c).burstFail = none →
      (s.col c).burstStart < s.chron → i.val < (if (s.col c).half then 32 else 16) →
      let n := if (s.col c).half then 256 else 512
      ∃ t, exec (.rowBeatDelivery c i) s = .next t ∧ BeatIn s c t (n * i.val) (((s.col c).burst.drop (n * i.val)).take n) true ∧ t.cols = s.cols)
  ∧ (∀ (s : State) (c : CoreIx) (i : Fin 32) off bs, (s.col c).burstTail = some (off, bs) → ∃ t, exec (.rowBeatDelivery c i) s = .next t
      ∧ BeatIn s c t off bs (decide ((s.col c).burstDst ≠ 16)) ∧ ColumnDoes s t c (fun k => { k with burstTail := none }))
  ∧ (∀ (s : State) (c : CoreIx) (i : Fin 32) f, (s.col c).burstTail = none → (s.col c).burstFail = some f → f ≤ i.val →
      exec (.rowBeatDelivery c i) s = .next s)
  ∧ (∀ (s : State) (c : CoreIx) (i : Fin 32), (s.col c).burstTail = none → (s.col c).burstDst ≠ 16 → exec (.rowBeatDelivery c i) s = .next s)
  ∧ (∀ (s : State) (c : CoreIx) (i : Fin 32) p, s.chron ≤ (s.col c).burstEnd → i.val < (if (s.col c).half then 32 else 16) → (s.col c).burstFail = none →
      s.partOf c = some p → Running s p → ∃ t, exec (.rowBeatFailure c i) s = .next t ∧ RowHalts s t p c 0x55 i.val
        ∧ ColumnDoes s t c (fun k => { k with burstFail := some i.val, repair := true }) ∧ t.memory = s.memory ∧ (∀ x, x ≠ c → t.core x = s.core x)
        ∧ (t.core c).bke = { (s.core c).bke with stall := (t.core c).bke.stall } ∧ (t.core c).seq = (s.core c).seq ∧ (t.core c).axu = (s.core c).axu
        ∧ ∀ w ∈ (t.core c).pipe.infl, (∃ h win b a o d, w.instr = .rcon h win b a o d) → w.issued = (s.col c).burstStart →
            ∀ x ∈ w.beats, x.key < spadKey c.val ((s.col c).burstX + 128 * ((if (s.col c).half then 2 else 4) * i.val)))
  ∧ ∀ (s : State) (c : CoreIx) (i : Fin 32), (s.col c).burstEnd < s.chron ∨ (s.col c).burstFail.isSome = true ∨ (if (s.col c).half then 32 else 16) ≤ i.val →
      exec (.rowBeatFailure c i) s = .next s

/-- BUS_REPAIR (R217, R33): every wire known to have failed and every wire the test finds, whose result is open (log 5), is mapped onto a spare,
each using one up; with none left the bus goes to half width; the survey changes and its interrupt is raised. -/
def Sys2Proof.BusRepair : Prop :=
  ∀ s : State, ∃ t ix, exec .busRepair s = .next t ∧ (t.col s.cur).burstFail = none ∧ (t.col s.cur).repair = false
    ∧ (∀ w < 4096, ((s.col s.cur).failed.contains w = true ∨ Config.wireFails s.cur.val w ix = true) →
        (t.col s.cur).mapped.contains w = true ∨ (t.col s.cur).half = true)
    ∧ (t.col s.cur).spare + (t.col s.cur).mapped.length = (s.col s.cur).spare + (s.col s.cur).mapped.length
    ∧ ((t.col s.cur).half = true → (s.col s.cur).half = true ∨ (t.col s.cur).spare = 0)
    ∧ (t.col s.cur).rows = (s.col s.cur).rows ∧ (t.col s.cur).dram = (s.col s.cur).dram ∧ (∀ c, c ≠ s.cur → t.col c = s.col c)
    ∧ t.helm.gen = s.helm.gen + 2 ∧ t.hif.intst.getLsb 0 = true ∧ SurveyFrame s t ∧ t.agenda = s.agenda

/-- A write of a row window takes effect: nothing but the core changes, and a change of the refresh period that waited for its windows only takes
effect in this cycle (R40). -/
def Sys2Proof.WindowWritten (s t : State) (c : CoreIx) : Prop :=
  (∀ x, x ≠ c → t.core x = s.core x) ∧ t.cols = s.cols ∧ t.memory = s.memory ∧ t.parts = s.parts ∧ t.reqs = s.reqs ∧ t.helm = s.helm ∧ t.hif = s.hif
    ∧ t.chron = s.chron ∧ ((s.col c).hotpend = false → t.agenda = s.agenda)
    ∧ ((s.col c).hotpend = true → (s.runs c = true → ∀ w : Fin 4, (t.core c).ctl.rwin[w].v = false) →
        (∀ p k, s.partOf c = some p → (s.part p).savedCore c = some k → ∀ w : Fin 4, k.ctl.rwin[w].v = false) →
        ∃ e ∈ t.agenda, e.cycle = s.chron ∧ e.core = c ∧ e.instr = .refreshPeriodChange)

/-- Row windows written from the host (R99, R192): nothing under a context in RUN or a switch; with every bank of the old BMASK CLOSED at once, in the
current window and the one preserved across launch; with rows open, these are closed first. A CRW's waiting write takes effect and its
sequencer goes on (R422). V stays only where every bank of the mask is in row mode and ROWLO ≤ ROWHI ≤ ROWMAX. -/
def Sys2Proof.RowWindowWrites : Prop :=
  (∀ (s : State) c w hi v, s.pageHeld c = true → exec (.rwinWrite c w hi v) s = .next s)
  ∧ (∀ (s : State) c w hi v, s.pageHeld c = false → (∀ b : Fin 32, (s.core c).ctl.rwin[w].bmask.getLsb b = true → (s.col c).rows[b].at_ s.chron = 0) →
      ∃ t, exec (.rwinWrite c w hi v) s = .next t ∧ WindowWritten s t c ∧ (t.core c) = { s.core c with ctl := { (s.core c).ctl with
        rwin := (s.core c).ctl.rwin.set w ((s.core c).ctl.rwin[w].write (s.col c) hi v.toNat),
        rwinL := (s.core c).ctl.rwinL.set w ((s.core c).ctl.rwinL[w].write (s.col c) hi v.toNat) } })
  ∧ (∀ (s : State) c w hi v, s.pageHeld c = false → (∃ b : Fin 32, (s.core c).ctl.rwin[w].bmask.getLsb b = true ∧ (s.col c).rows[b].at_ s.chron = 1) →
      ∃ t, exec (.rwinWrite c w hi v) s = .next t ∧ t.cores = s.cores ∧ t.memory = s.memory ∧ t.chron = s.chron ∧ (∀ x, x ≠ c → t.col x = s.col x)
        ∧ (∃ e ∈ t.agenda, s.chron + 18 ≤ e.cycle ∧ e.core = c ∧ e.instr = .rwinApply c w hi v)
        ∧ ∀ b : Fin 32, (s.core c).ctl.rwin[w].bmask.getLsb b = true → ∀ row act lb, (s.col c).rows[b] = .open_ row act lb none →
            ∃ e, (t.col c).rows[b] = .open_ row act lb (some e) ∧ act + 36 ≤ e ∧ s.chron ≤ e)
  ∧ (∀ (s : State) c w hi v, (s.core c).seq.hold ≠ some 0 → ∃ t, exec (.rwinApply c w hi v) s = .next t ∧ WindowWritten s t c
      ∧ (t.core c) = { s.core c with ctl := { (s.core c).ctl with
        rwin := (s.core c).ctl.rwin.set w ((s.core c).ctl.rwin[w].write (s.col c) hi v.toNat),
        rwinL := (s.core c).ctl.rwinL.set w ((s.core c).ctl.rwinL[w].write (s.col c) hi v.toNat) } })
  ∧ (∀ (s : State) c w hi v, (s.core c).seq.hold = some 0 → ∃ t, exec (.rwinApply c w hi v) s = .next t ∧ (t.core c).seq.hold = none
      ∧ (t.core c).ctl = { (s.core c).ctl with rwin := (s.core c).ctl.rwin.set w ((s.core c).ctl.rwin[w].write (s.col c) hi v.toNat) }
      ∧ (t.core c).axu = (s.core c).axu ∧ (t.core c).seq.g = (s.core c).seq.g ∧ WindowWritten s t c)
  ∧ ∀ (r : RowWin) (k : Column) hi (v : Nat), let x := r.write k hi v
      (hi = true → x.bmask = r.bmask ∧ x.rowlo = BitVec.ofNat 11 v ∧ x.rowhi = BitVec.ofNat 11 (v / 65536))
      ∧ (hi = false → x.bmask = BitVec.ofNat 32 v ∧ x.rowlo = r.rowlo ∧ x.rowhi = r.rowhi)
      ∧ (x.v = true ↔ (if hi then v.testBit 31 = true else r.v = true) ∧ (∀ b : Fin 32, x.bmask.getLsb b = true → k.dram[b] = 2 ∨ k.dram[b] = 4)
          ∧ x.rowlo.toNat ≤ x.rowhi.toNat ∧ x.rowhi.toNat ≤ k.rowmax.toNat)

/-- The row bus and the row windows (R99, R212, R217). -/
def Obligations.RowBuses : Prop := RowBeats ∧ BusRepair ∧ RowWindowWrites


/-! ## Events: ports and links -/

/-- Every partition that runs and is bound to a link is checked with a code. -/
def Sys2Proof.BoundChecks (s t : State) (l : LinkIx) (code : Nat) : Prop :=
  ∀ p : PartIx, s.fab.links[l].parts.getLsb p = true → Running s p → Checks s t p code

/-- What a link holds is discarded. -/
def Sys2Proof.LinkEmpty (k : Link) : Prop := k.held = [] ∧ k.waiting = [] ∧ k.out = [] ∧ k.todo = []

/-- A lane of an optical port is whole: none of its two channels fails in either direction (R52, R53). -/
def Sys2Proof.LaneOk (rx tx : BitVec 32) (l : Nat) : Prop :=
  rx.getLsbD (2 * l) = false ∧ rx.getLsbD (2 * l + 1) = false ∧ tx.getLsbD (2 * l) = false ∧ tx.getLsbD (2 * l + 1) = false

/-- How training ends (R53, R56): DARK where no light comes; no end with an equal FABID or none; ×16 with every lane whole, ×8 over lanes 0 to 7 where
those are, else over lanes 8 to 15, else DOWN. -/
def Sys2Proof.TrainingEnds : Prop :=
  (∀ rx tx m, trainPort rx tx none m = (.dark, 3, 0))
  ∧ (∀ rx tx f m, f = m ∨ f = 0 → trainPort rx tx (some f) m = (.training, 3, 0))
  ∧ (∀ rx tx f m, f ≠ m → f ≠ 0 → (∀ l < 16, LaneOk rx tx l) → trainPort rx tx (some f) m = (.up, 0, 0xFFFF))
  ∧ (∀ rx tx f m, f ≠ m → f ≠ 0 → (∀ l < 8, LaneOk rx tx l) → (∃ l < 8, ¬ LaneOk rx tx (8 + l)) → trainPort rx tx (some f) m = (.up, 1, 0x00FF))
  ∧ (∀ rx tx f m, f ≠ m → f ≠ 0 → (∃ l < 8, ¬ LaneOk rx tx l) → (∀ l < 8, LaneOk rx tx (8 + l)) → trainPort rx tx (some f) m = (.up, 1, 0xFF00))
  ∧ ∀ rx tx f m, f ≠ m → f ≠ 0 → (∃ l < 8, ¬ LaneOk rx tx l) → (∃ l < 8, ¬ LaneOk rx tx (8 + l)) → trainPort rx tx (some f) m = (.down, 3, 0)

/-- Training of the ports and losses of UP (R53, R57, R60, R69, R70): STATE, WIDTH and the lane masks as training ends, none without a FABID; a
port that leaves UP counts in RETRAIN and gives its link 2^22 cycles; it returns UP; after them the link goes to DOWN, discards what it holds, and
each bound running partition is checked with 0x61. A change of a port or link state raises the link interrupt. -/
def Sys2Proof.PortEvents : Prop :=
  TrainingEnds
  ∧ (∀ (s : State) q rx tx f, s.fab.fabid = 0 → exec (.portUp q rx tx f) s = .next s)
  ∧ (∀ (s : State) (q : Fin 48) rx tx f, s.fab.fabid ≠ 0 → ∃ t, exec (.portUp q rx tx f) s = .next t
      ∧ ((t.fab.ports[q]).st, (t.fab.ports[q]).width, (t.fab.ports[q]).laneok) = trainPort rx tx f s.fab.fabid
      ∧ (∀ x, f = some x → (t.fab.ports[q]).optfail = rx ∧ ((t.fab.ports[q]).downstream = true ↔ s.fab.fabid.toNat < x.toNat))
      ∧ ((s.fab.ports[q]).st = .up → (t.fab.ports[q]).st ≠ .up → (t.fab.ports[q]).retrain = satInc (s.fab.ports[q]).retrain)
      ∧ (t.fab.ports[q]).malf = (s.fab.ports[q]).malf ∧ (∀ r : Fin 48, r ≠ q → t.fab.ports[r] = s.fab.ports[r])
      ∧ ((t.fab.ports[q]).st ≠ (s.fab.ports[q]).st → t.hif.intst.getLsb 4 = true) ∧ SameUnits s t ∧ t.parts = s.parts ∧ t.helm = s.helm)
  ∧ (∀ s : State, (s.fab.ports[s.curLink]).st = .up → ∃ t, exec .portLeavesUp s = .next t
      ∧ t.fab.ports[s.curLink] = { s.fab.ports[s.curLink] with
          st := .training, outSince := some s.chron,
          retrain := if (s.fab.ports[s.curLink]).retrain = 0xFFFFFFFF then 0xFFFFFFFF else (s.fab.ports[s.curLink]).retrain + 1 }
      ∧ (∀ r : Fin 48, r ≠ s.curLink → t.fab.ports[r] = s.fab.ports[r]) ∧ t.hif.intst.getLsb 4 = true ∧ SameUnits s t ∧ t.parts = s.parts
      ∧ ∀ l i, s.fab.linkOf s.curLink = some (l, i) → (s.fab.links[l]).st = .up → (t.fab.links[l]).st = .up
          ∧ ∃ e ∈ t.agenda, e.cycle = s.chron + 2 ^ 22 ∧ e.link = l ∧ e.instr = .linkDownTimeout)
  ∧ (∀ s : State, (s.fab.ports[s.curLink]).st ≠ .up → exec .portLeavesUp s = .next s)
  ∧ (∀ s : State, s.fab.fabid = 0 ∨ (s.fab.ports[s.curLink]).outSince = none ∨ (s.fab.ports[s.curLink]).st = .up → exec .portReturnsUp s = .next s)
  ∧ (∀ s : State, s.fab.fabid ≠ 0 → (s.fab.ports[s.curLink]).outSince.isSome = true → (s.fab.ports[s.curLink]).st ≠ .up → ∃ t, exec .portReturnsUp s = .next t
      ∧ t.fab.ports[s.curLink] = { s.fab.ports[s.curLink] with st := .up, outSince := none } ∧ t.hif.intst.getLsb 4 = true ∧ SameUnits s t ∧ t.parts = s.parts)
  ∧ (∀ (s : State) (q : Fin 48) since, (s.fab.links[s.curLink]).st = .up → q.val ∈ (s.fab.links[s.curLink]).ports →
      (s.fab.ports[q]).outSince = some since → since + 2 ^ 22 ≤ s.chron → ∃ t, exec .linkDownTimeout s = .next t
      ∧ (t.fab.links[s.curLink]).st = .down ∧ LinkEmpty t.fab.links[s.curLink] ∧ BoundChecks s t s.curLink 0x61 ∧ t.hif.intst.getLsb 4 = true
      ∧ SameUnits s t ∧ ∀ l, l ≠ s.curLink → t.fab.links[l] = s.fab.links[l])
  ∧ ∀ s : State, (s.fab.links[s.curLink]).st ≠ .up
        ∨ (∀ (q : Fin 48) since, q.val ∈ (s.fab.links[s.curLink]).ports → (s.fab.ports[q]).outSince = some since → s.chron < since + 2 ^ 22) →
      exec .linkDownTimeout s = .next s

/-- What the ports count and report (R47, R50, R67 to R70): an integrity failure, the loss of the host port, the latch of a counter's high word as its
low word is read, flits replayed and corrected, and the host port's training, vendor messages and configuration requests: BAR2's size, the virtual
functions, the options advertised, which are those of R47, IDE streams and the certificate chain. How many flits have gone by
is open (log 5). -/
def Sys2Proof.PortReports : Prop :=
  (∀ s, ∃ t, exec (.ideIntegrityFailure .host) s = .next t ∧ SameUnits s t ∧ ∀ p, Running s p → Checks s t p 0x65)
  ∧ (∀ s q l i, s.fab.linkOf q = some (l, i) → ∃ t, exec (.ideIntegrityFailure (.opt q)) s = .next t ∧ SameUnits s t ∧ BoundChecks s t l 0x65
      ∧ ∀ p : PartIx, s.fab.links[l].parts.getLsb p = false → t.part p = s.part p)
  ∧ (∀ s q, ∃ n, exec (.counterLowRead (.opt q) false) s = .next (({ s with freeIx := s.freeIx + 1 }).updPort q fun k =>
      { k with fltx := k.fltx + BitVec.ofNat 64 n, latchTx := BitVec.ofNat 32 ((k.fltx + BitVec.ofNat 64 n).toNat / 2 ^ 32) }))
  ∧ (∀ s q, ∃ n, exec (.counterLowRead (.opt q) true) s = .next (({ s with freeIx := s.freeIx + 1 }).updPort q fun k =>
      { k with flrx := k.flrx + BitVec.ofNat 64 n, latchRx := BitVec.ofNat 32 ((k.flrx + BitVec.ofNat 64 n).toNat / 2 ^ 32) }))
  ∧ (∀ (s : State) rx, ∃ n, exec (.counterLowRead .host rx) s = .next { s with freeIx := s.freeIx + 1, hif := { s.hif with hostPort :=
      if rx then { s.hif.hostPort with flrx := s.hif.hostPort.flrx + BitVec.ofNat 64 n, latchRx := BitVec.ofNat 32 ((s.hif.hostPort.flrx + BitVec.ofNat 64 n).toNat / 2 ^ 32) }
      else { s.hif.hostPort with fltx := s.hif.hostPort.fltx + BitVec.ofNat 64 n, latchTx := BitVec.ofNat 32 ((s.hif.hostPort.fltx + BitVec.ofNat 64 n).toNat / 2 ^ 32) } } })
  ∧ (∀ s q, exec (.flitReplay (.opt q) true) s = .next (s.updPort q fun k => { k with feccor := satInc k.feccor }))
  ∧ (∀ s q, exec (.flitReplay (.opt q) false) s = .next (s.updPort q fun k => { k with flbad := satInc k.flbad, replay := satInc k.replay }))
  ∧ (∀ s : State, exec (.flitReplay .host true) s = .next { s with hif := { s.hif with hostPort := { s.hif.hostPort with
      feccor := satInc s.hif.hostPort.feccor } } })
  ∧ (∀ s : State, exec (.flitReplay .host false) s = .next { s with hif := { s.hif with hostPort := { s.hif.hostPort with
      flbad := satInc s.hif.hostPort.flbad, replay := satInc s.hif.hostPort.replay } } })
  ∧ (∀ x, satInc x = if x = 0xFFFFFFFF then x else x + 1)
  ∧ (∀ (s : State) how, ∃ t, exec (.hostLinkUp how) s = .next t
      ∧ t.hif.hostPort.st = (match how with | .down => PortState.down | .dark => .dark | _ => .up)
      ∧ t.hif.hostPort.width = (match how with | .x16 => 0 | .x8 => 1 | .x4 => 2 | _ => 3)
      ∧ t.hif.hostPort.laneok = (match how with | .x16 => 0xFFFF | .x8 => 0x00FF | .x4 => 0x000F | _ => 0)
      ∧ (t.hif.hostPort.st ≠ s.hif.hostPort.st → t.hif.intst.getLsb 4 = true) ∧ SameUnits s t ∧ t.parts = s.parts ∧ t.fab = s.fab ∧ t.helm = s.helm)
  ∧ (∀ s, ∃ t, exec .hostLinkDown s = .next t ∧ t.hif.hostPort.st = .down ∧ SameUnits s t ∧ ∀ p, Running s p → Checks s t p 0x68)
  ∧ (∀ s : State, exec .hostVendorMessage s = .next { s with hif := { s.hif with hostPort := { s.hif.hostPort with msgdrop := satInc s.hif.hostPort.msgdrop } } })
  ∧ (∀ (s : State) fn k, exec (.hostConfigurationRequest fn (.bar2Size k)) s = .next { s with hif := { s.hif with bar2 := tput s.hif.bar2 (fnNum fn) k.val } })
  ∧ (∀ (s : State) fn n, exec (.hostConfigurationRequest fn (.numVfs n)) s = .next { s with hif := { s.hif with numVfs := n.val } })
  ∧ (∀ (s : State) fn off, ∃ v : BitVec 32, exec (.hostConfigurationRequest fn (.read off)) s = .next { s with hif := { s.hif with hostOut := s.hif.hostOut ++
      [{ id := 0, cpl := some (0, .ok, toBytes 4 v.toNat) }] } })
  ∧ (∀ (s : State) fn o, exec (.hostConfigurationRequest fn (.advertised o)) s = .next { s with hif := { s.hif with hostOut := s.hif.hostOut ++
      [{ id := 0, cpl := some (0, .ok, [match o with
        | .pri | .ltr | .tph | .ecrc | .nonFlit | .cxl | .other _ => 0
        | _ => 1]) }] } })
  ∧ (∀ (s : State) fn n sel key, exec (.hostConfigurationRequest fn (.ideProgram n sel key)) s = .next { s with hif := { s.hif with
      ide := tput s.hif.ide n { selective := sel, key := key } } })
  ∧ (∀ (s : State) fn n x, tget s.hif.ide n = some x →
      exec (.hostConfigurationRequest fn (.ideStart n)) s = .next { s with hif := { s.hif with ide := tput s.hif.ide n { x with on := true } } }
      ∧ exec (.hostConfigurationRequest fn (.ideStop n)) s = .next { s with hif := { s.hif with ide := tput s.hif.ide n { x with on := false } } })
  ∧ (∀ (s : State) fn n, tget s.hif.ide n = none → exec (.hostConfigurationRequest fn (.ideStart n)) s = .next s
      ∧ exec (.hostConfigurationRequest fn (.ideStop n)) s = .next s)
  ∧ (∀ (s : State) fn, exec (.hostConfigurationRequest fn .certificate) s = .next { s with helm := { s.helm with
      spdmOut := s.helm.spdmOut ++ [[0x12, 0x02] ++ Config.certificates] } })
  ∧ ∀ s fn off v, exec (.hostConfigurationRequest fn (.other off v)) s = .next s

/-- The ports and what they report (R47, R50, R53, R57, R60, R67 to R70). -/
def Obligations.HostPort : Prop := PortEvents ∧ PortReports


/-- Links (R56 to R60): a configuration with NMEM = 3, a member beyond 47 or named twice, a member of another enabled link, or no FABID is refused with
ERR; any other trains its members, but for those that are UP (the model's choice, log 64), and sends HELLO with FABID and the member's number on each; HELLO from the right fabric on every member brings
the link UP with both sequence numbers 0, from a wrong one it sets ERR; elsewhere a HELLO counts in MALF; disabling discards what the link holds; a gap older than 2^20
counted cycles raises 0x62 and takes the link down. -/
def Obligations.PeerLinks : Prop :=
  (∀ s : State, (s.fab.links[s.curLink]).en = true → exec .linkEnable s = .next s)
  ∧ (∀ s : State, let k := s.fab.links[s.curLink]
      k.en = false → (k.nmem = 3 ∨ (∃ q ∈ k.ports, 47 < q) ∨ ¬ k.ports.Nodup ∨ s.fab.fabid = 0
        ∨ ∃ m, m ≠ s.curLink ∧ s.fab.links[m].en = true ∧ ∃ q ∈ k.ports, q ∈ s.fab.links[m].ports) →
      exec .linkEnable s = .next (s.updLink s.curLink fun k => { k with en := false, err := true }))
  ∧ (∀ s : State, let k := s.fab.links[s.curLink]
      k.en = false → k.nmem ≠ 3 → (∀ q ∈ k.ports, q ≤ 47) → k.ports.Nodup → s.fab.fabid ≠ 0 →
      (∀ m, m ≠ s.curLink → s.fab.links[m].en = true → ∀ q ∈ k.ports, q ∉ s.fab.links[m].ports) →
      ∃ t, exec .linkEnable s = .next t ∧ (t.fab.links[s.curLink]).en = true ∧ (t.fab.links[s.curLink]).st = .training
        ∧ (t.fab.links[s.curLink]).peer = k.peer ∧ (t.fab.links[s.curLink]).parts = k.parts
        ∧ (t.fab.links[s.curLink]).out = (List.range (2 ^ k.nmem.toNat)).map (fun i =>
            { id := 0, msg := some (0x01, BitVec.ofNat 24 (s.fab.fabid.toNat + 4096 * i), 0), member := i })
        ∧ (∀ q : Fin 48, q.val ∈ k.ports → (t.fab.ports[q]).st = (if (s.fab.ports[q]).st = .up then .up else .training)
            ∧ ((s.fab.ports[q]).wasUp = true → (s.fab.ports[q]).st = .down ∨ (s.fab.ports[q]).st = .dark →
              (t.fab.ports[q]).retrain = satInc (s.fab.ports[q]).retrain))
        ∧ (∀ q : Fin 48, q.val ∉ k.ports → t.fab.ports[q] = s.fab.ports[q]) ∧ t.hif.intst.getLsb 4 = true ∧ SameUnits s t ∧ t.parts = s.parts)
  ∧ (∀ s : State, ∃ t, exec .linkDisable s = .next t ∧ (t.fab.links[s.curLink]).en = false ∧ (t.fab.links[s.curLink]).st = .disabled
      ∧ LinkEmpty t.fab.links[s.curLink] ∧ ((s.fab.links[s.curLink]).st ≠ .disabled → t.hif.intst.getLsb 4 = true)
      ∧ (∀ l, l ≠ s.curLink → t.fab.links[l] = s.fab.links[l]) ∧ t.fab.ports = s.fab.ports ∧ SameUnits s t ∧ t.parts = s.parts)
  ∧ (∀ (s : State) (l : LinkIx) (q : Fin 48), (s.fab.links[l]).st = .training → q.val ∈ (s.fab.links[l]).ports →
      (∀ r ∈ (s.fab.links[l]).ports, (r = q.val ∨ r ∈ (s.fab.links[l]).hello) ∧ ∃ x : Fin 48, x.val = r ∧ (s.fab.ports[x]).st = .up) →
      ∃ t, exec (.hello l q (s.fab.links[l]).peer) s = .next t ∧ (t.fab.links[l]).st = .up ∧ (t.fab.links[l]).rxNext = 0
        ∧ ((s.fab.links[l]).waiting = [] → (t.fab.links[l]).txSeq = 0) ∧ (t.fab.links[l]).held = [] ∧ t.hif.intst.getLsb 4 = true ∧ SameUnits s t ∧ t.parts = s.parts)
  ∧ (∀ (s : State) (l : LinkIx) (q : Fin 48), (s.fab.links[l]).st = .training → q.val ∈ (s.fab.links[l]).ports →
      (∃ r ∈ (s.fab.links[l]).ports, r ≠ q.val ∧ r ∉ (s.fab.links[l]).hello) →
      exec (.hello l q (s.fab.links[l]).peer) s = .next (s.updLink l fun k => { k with hello := q.val :: k.hello.filter (· != q.val) }))
  ∧ (∀ (s : State) (l : LinkIx) (q : Fin 48) f, (s.fab.links[l]).st = .training → q.val ∈ (s.fab.links[l]).ports → f ≠ (s.fab.links[l]).peer →
      exec (.hello l q f) s = .next (s.updLink l fun k => { k with err := true }))
  ∧ (∀ (s : State) (l : LinkIx) (q : Fin 48) f, (s.fab.links[l]).st ≠ .training ∨ q.val ∉ (s.fab.links[l]).ports →
      exec (.hello l q f) s = .next (s.updPort q fun k => { k with malf := satInc k.malf }))
  ∧ (∀ (s : State) x, let k := s.fab.links[s.curLink]
      k.st = .up → k.outFrom = none → x ∈ k.held → x.2.1 + 2 ^ 20 ≤ s.chron - k.paused →
      ∃ t, exec .stripeGapTimeout s = .next t ∧ (t.fab.links[s.curLink]).st = .down ∧ LinkEmpty t.fab.links[s.curLink] ∧ BoundChecks s t s.curLink 0x62
        ∧ SameUnits s t)
  ∧ ∀ s : State, (s.fab.links[s.curLink]).st ≠ .up ∨ (s.fab.links[s.curLink]).held = [] ∨ (s.fab.links[s.curLink]).outFrom ≠ none →
      exec .stripeGapTimeout s = .next s

/-! ## Events: messages of peers, the freeze wire -/

/-- No link holds a packet that waits for delivery. -/
def Sys2Proof.LinksQuiet (s : State) : Prop :=
  ∀ l : LinkIx, s.fab.links[l].held = [] ∧ s.fab.links[l].thawed = [] ∧ s.fab.links[l].todo = [] ∧ s.fab.links[l].gapAt = none
    ∧ s.fab.links[l].blocked = false

/-- The messages of peers (R59, R61 to R64): STAGE writes its word; a STAGE packet that comes on its member with SEQ = RXNEXT is delivered, one that
comes early is held, one on another member takes the link down with 0x62; TKGIVE adds its count to a link token counter of the running context of
a partition bound to the link, and past 4,095 checks it with 0x42; a STOP not handled in the last 2^24 cycles checks every bound running partition with
0x67; an originated STOP leaves on every UP link of its partition; what a message may not do counts in MALF of its port. -/
def Sys2Proof.PeerMessages : Prop :=
  (∀ (s : State) n v, exec (.stage n v) s = .next { s with fab := { s.fab with sgw := s.fab.sgw.set n v } })
  ∧ (∀ (s : State) (l : LinkIx) (q : Fin 48) arg pay, let k := s.fab.links[l]
      s.isFrozen = false → LinksQuiet s → k.st = .up → k.member (k.rxNext.toNat % k.members) = q.val →
      exec (.peerTlpArrival l q k.rxNext (.message 0x10 arg pay)) s = .next
        { s.updLink l (fun k => { k with rxNext := k.rxNext + 1 }) with
          fab := { (s.updLink l fun k => { k with rxNext := k.rxNext + 1 }).fab with sgw := s.fab.sgw.set (Fin.ofNat 64 arg.toNat) pay } })
  ∧ (∀ (s : State) (l : LinkIx) (q : Fin 48) seq, let k := s.fab.links[l]
      LinksQuiet s → k.st = .up → k.frzen = true → s.frzMsg = true → s.frzCtl = false → k.member (seq.toNat % k.members) = q.val →
      ∃ t, exec (.peerTlpArrival l q seq (.message 0x32 0 0)) s = .next t ∧ t.isFrozen = false ∧ t.fab.ports = s.fab.ports ∧ t.chron = s.chron
        ∧ t.cores = s.cores ∧ t.memory = s.memory)
  ∧ (∀ (s : State) (l : LinkIx) (q : Fin 48) seq tlp, let k := s.fab.links[l]
      s.isFrozen = true → k.st = .up → k.member (seq.toNat % k.members) = q.val → isThaw tlp = false →
      exec (.peerTlpArrival l q seq tlp) s = .next (s.updLink l fun k => { k with held := k.held ++ [(seq, k.count s.chron, tlp)] }))
  ∧ (∀ (s : State) (l : LinkIx) (q : Fin 48) seq tlp, let k := s.fab.links[l]
      k.st = .up → k.member (seq.toNat % k.members) ≠ q.val → ∃ t, exec (.peerTlpArrival l q seq tlp) s = .next t
        ∧ (t.fab.links[l]).st = .down ∧ LinkEmpty t.fab.links[l] ∧ BoundChecks s t l 0x62 ∧ SameUnits s t)
  ∧ (∀ (s : State) (l : LinkIx) (c : CoreIx) j (n : BitVec 8) p, s.partOf c = some p → n ≠ 0 → (s.fab.links[l]).st = .up →
      (s.fab.links[l]).parts.getLsb p = true → (s.part p).lb.act = false → Running s p → ((s.core c).ctl.ltc[j]).toNat + n.toNat ≤ 4095 →
      exec (.tkgive l (BitVec.ofNat 9 c.val) j n) s = .next (s.upd c fun k => { k with ctl := { k.ctl with ltc := k.ctl.ltc.set j (k.ctl.ltc[j] + n.setWidth 12) } }))
  ∧ (∀ (s : State) (l : LinkIx) (c : CoreIx) j (n : BitVec 8) p, s.partOf c = some p → n ≠ 0 → (s.fab.links[l]).st = .up →
      (s.fab.links[l]).parts.getLsb p = true → (s.part p).lb.act = false → Running s p → 4095 < ((s.core c).ctl.ltc[j]).toNat + n.toNat →
      ∃ t, exec (.tkgive l (BitVec.ofNat 9 c.val) j n) s = .next t ∧ Checks s t p 0x42 ∧ SameUnits s t)
  ∧ (∀ (s : State) (l : LinkIx) (c : CoreIx) j (n : BitVec 8) p, s.partOf c = some p → n ≠ 0 → (s.fab.links[l]).st = .up →
      (s.fab.links[l]).parts.getLsb p = true → (s.part p).lb.act = false → (s.part p).switching = true →
      (∀ x ∈ (s.part p).tkPend, ¬ (x.1 = c.val ∧ x.2.1 = j.val)) → ∃ t, exec (.tkgive l (BitVec.ofNat 9 c.val) j n) s = .next t ∧ SameUnits s t
        ∧ (t.part p).tkPend = (s.part p).tkPend ++ [(c.val, j.val, n.toNat, 0)])
  ∧ (∀ (s : State) (l : LinkIx) (c : BitVec 9) j n (q : Fin 48), q.val = (s.fab.links[l]).lastPort →
      (n = 0 ∨ 288 ≤ c.toNat ∨ (s.fab.links[l]).st ≠ .up ∨ (∃ x : CoreIx, x.val = c.toNat ∧ s.partOf x = none)
        ∨ ∃ (x : CoreIx) (p : PartIx), x.val = c.toNat ∧ s.partOf x = some p ∧ ((s.fab.links[l]).parts.getLsb p = false ∨ s.replaying p = true
          ∨ (s.part p).switching = false ∧ (s.part p).runSlot = none ∧ (s.part p).preSlot = none)) →
      exec (.tkgive l c j n) s = .next (s.updPort q fun k => { k with malf := satInc k.malf }))
  ∧ (∀ (s : State) (l : LinkIx) (id : BitVec 24) cause, (s.fab.links[l]).st = .up → (∀ u, tget s.fab.stopsSeen id.toNat = some u → u + 2 ^ 24 ≤ s.chron) →
      ∃ t, exec (.stop l id cause) s = .next t ∧ SameUnits s t ∧ tget t.fab.stopsSeen id.toNat = some s.chron ∧ (t.fab.links[l]).out = (s.fab.links[l]).out
        ∧ (∀ p : PartIx, (s.fab.links[l]).parts.getLsb p = true → Running s p → Checks s t p 0x67)
        ∧ ∀ (p : PartIx) (m : LinkIx), (s.fab.links[l]).parts.getLsb p = true → (s.fab.links[m]).parts.getLsb p = true → m ≠ l →
            (s.fab.links[m]).st = .up → ∃ o ∈ (t.fab.links[m]).out, o.msg = some (0x30, id, cause.setWidth 32))
  ∧ (∀ (s : State) (l : LinkIx) (id : BitVec 24) cause (q : Fin 48), (s.fab.links[l]).st ≠ .up → q.val = (s.fab.links[l]).lastPort →
      exec (.stop l id cause) s = .next (s.updPort q fun k => { k with malf := satInc k.malf }))
  ∧ (∀ (s : State) (l : LinkIx) (id : BitVec 24) cause u, (s.fab.links[l]).st = .up → tget s.fab.stopsSeen id.toNat = some u → s.chron < u + 2 ^ 24 →
      exec (.stop l id cause) s = .next s)
  ∧ (∀ (s : State) (id : BitVec 24) cause (p : PartIx), (∀ u, tget s.fab.stopsSeen id.toNat = some u → u + 2 ^ 24 ≤ s.chron) →
      ∃ t, exec (.stopDelayedSend id cause p) s = .next t ∧ SameUnits s t ∧ tget t.fab.stopsSeen id.toNat = some s.chron
        ∧ ∀ l : LinkIx, s.fab.links[l].parts.getLsb p = true → s.fab.links[l].st = .up → ∃ o, (t.fab.links[l]).out = (s.fab.links[l]).out ++ [o]
            ∧ o.msg = some (0x30, id, cause.setWidth 32) ∧ o.seq = (s.fab.links[l]).txSeq.toNat)
  ∧ ∀ (s : State) (id : BitVec 24) cause (p : PartIx) u, tget s.fab.stopsSeen id.toNat = some u → s.chron < u + 2 ^ 24 →
      exec (.stopDelayedSend id cause p) s = .next (s.schedP (u + 2 ^ 24) p (.stopDelayedSend id cause p))

/-- An identity no request has: the one the next request gets. -/
def Sys2Proof.Fresh (s : State) : Prop := ∀ x ∈ s.reqs, x.id ≠ s.nextId

/-- Requests of peers (R66, R121, R147): one for a partition bound to its link is walked through the partition's tables, performed whole and answered in
the cycle; for any other, or one in replay, it gets UR, a write nothing; one of no bytes is answered; behind a refused write it waits; the freeze
wire withholds it. -/
def Sys2Proof.PeerRequests : Prop :=
  (∀ (s : State) (l : LinkIx) q ia n kind tag, (s.fab.links[l]).st ≠ .up → exec (.peerRequest l q ia n kind tag) s = .next s)
  ∧ (∀ (s : State) (l : LinkIx) q ia n kind tag, (s.fab.links[l]).st = .up → s.isFrozen = true →
      exec (.peerRequest l q ia n kind tag) s = .next (s.schedL s.chron l (.peerRequest l q ia n kind tag)))
  ∧ (∀ (s : State) (l : LinkIx) q ia n kind tag, (s.fab.links[l]).st = .up → s.isFrozen = false → (s.fab.links[l]).blocked = true →
      exec (.peerRequest l q ia n kind tag) s = .next (s.updLink l fun k => { k with todo := k.todo ++ [(k.lastPort, .request q ia n kind tag)] }))
  ∧ (∀ (s : State) (l : LinkIx) q ia n kind tag, let k := s.fab.links[l]
      k.st = .up → s.isFrozen = false → k.blocked = false → k.todo = [] →
      (48 ≤ q ∨ ∃ p : PartIx, p.val = q ∧ (k.parts.getLsb p = false ∨ s.replaying p = true)) → ∃ t, exec (.peerRequest l q ia n kind tag) s = .next t
        ∧ t.memory = s.memory ∧ t.cores = s.cores ∧ t.parts = s.parts ∧ t.reqs = s.reqs
        ∧ (∀ bs, kind = .write bs → t = s)
        ∧ ((∀ bs, kind ≠ .write bs) → ∃ o, (t.fab.links[l]).out = k.out ++ [o] ∧ o.cpl = some (tag, .ur, []) ∧ o.seq = k.txSeq.toNat))
  ∧ (∀ (s : State) (l : LinkIx) (p : PartIx) ia tag, let k := s.fab.links[l]
      k.st = .up → s.isFrozen = false → k.blocked = false → k.todo = [] → k.parts.getLsb p = true → s.replaying p = false →
      ∃ t, exec (.peerRequest l p.val ia 0 .read tag) s = .next t ∧ t.memory = s.memory ∧ t.cores = s.cores ∧ t.parts = s.parts ∧ t.reqs = s.reqs
        ∧ ∃ o, (t.fab.links[l]).out = k.out ++ [o] ∧ o.cpl = some (tag, .ok, []) ∧ o.seq = k.txSeq.toNat)
  ∧ ∀ (s : State) (l : LinkIx) (p : PartIx) ia n kind tag key bs m, let k := s.fab.links[l]; let a := ia % 2 ^ 40
      k.st = .up → s.isFrozen = false → k.blocked = false → k.todo = [] → k.parts.getLsb p = true → (s.part p).lb.act = false → 0 < n → Fresh s →
      s.walkBusy p a = false → s.walk p a (reqAcc kind).right = .mem key → ((reqAcc kind).reads = true → s.lostAt key n = false) →
      performAt s.memory key n (reqAcc kind) = .ok (bs, m) → ∃ t, exec (.peerRequest l p.val ia n kind tag) s = .next t
        ∧ t.memory = m ∧ t.cores = s.cores ∧ t.parts = s.parts ∧ (t.fab.links[l]).out = k.out
        ∧ (∃ r, t.reqs = s.reqs ++ [r] ∧ r.id = s.nextId ∧ r.who = 6 ∧ r.part = some p ∧ r.dest = .peer l.val tag p.val ∧ r.result = bs ∧ r.done = true
            ∧ r.err = none)
        ∧ ∃ e ∈ t.agenda, e.cycle = s.chron ∧ e.instr = .accessResponse s.nextId

/-- The wire is released: CHRON goes on from where it stood, an event of the Helm, an input or an occurrence keeps what it had still to wait, every
other event its cycle, and nothing else changes (R164, R65). -/
def Sys2Proof.Thawed (s t : State) : Prop :=
  t.isFrozen = false ∧ t.frozen = 0 ∧ t.chron = s.chron ∧ t.memory = s.memory ∧ t.cores = s.cores ∧ t.cols = s.cols ∧ t.parts = s.parts
    ∧ t.reqs = s.reqs ∧ t.hif = s.hif ∧ t.fab = s.fab ∧ t.helm = { s.helm with scAt := s.helm.scAt - s.frozen }
    ∧ t.inputs = s.inputs.map (fun e => if s.chron < e.cycle then { e with cycle := max s.chron (e.cycle - s.frozen) } else e)
    ∧ t.occurs = s.occurs.map (fun e => if s.chron < e.cycle then { e with cycle := max s.chron (e.cycle - s.frozen) } else e)
    ∧ t.agenda.length = s.agenda.length
    ∧ (∀ e ∈ s.agenda, (helmEvent e.instr = true → s.chron < e.cycle → { e with cycle := max s.chron (e.cycle - s.frozen) } ∈ t.agenda)
        ∧ (helmEvent e.instr = false ∨ e.cycle ≤ s.chron → e ∈ t.agenda))

/-- The freeze wire (R65, R164): FREEZE on a link with FRZEN = 1, or FRZ = 1, asserts it, THAW or FRZ = 0 releases it unless the other holds it, and 32 ms of it
end in 0x76 in every running partition; CHRON stands from the assertion to the release, and what the Helm had scheduled counts on from it. Without FRZEN a
FREEZE or THAW counts in MALF. -/
def Sys2Proof.FreezeEvents : Prop :=
  (∀ s : State, (s.fab.links[s.curLink]).frzen = true → (s.fab.links[s.curLink]).st = .up → s.isFrozen = false →
      exec .freeze s = .next { s with frzMsg := true, frozen := 0 })
  ∧ (∀ s : State, s.isFrozen = false → exec .frzctlFreeze s = .next { s with frzCtl := true, frozen := 0 })
  ∧ (∀ s : State, s.isFrozen = true → exec .frzctlFreeze s = .next { s with frzCtl := true })
  ∧ (∀ s : State, (s.fab.links[s.curLink]).frzen = true → (s.fab.links[s.curLink]).st = .up → s.isFrozen = true →
      exec .freeze s = .next { s with frzMsg := true })
  ∧ (∀ (s : State) (q : Fin 48), (s.fab.links[s.curLink]).frzen = false ∨ (s.fab.links[s.curLink]).st ≠ .up → q.val = (s.fab.links[s.curLink]).lastPort →
      exec .freeze s = .next (s.updPort q fun k => { k with malf := satInc k.malf })
      ∧ (LinksQuiet s → exec .thaw s = .next (s.updPort q fun k => { k with malf := satInc k.malf })))
  ∧ (∀ s : State, LinksQuiet s → (s.fab.links[s.curLink]).frzen = true → (s.fab.links[s.curLink]).st = .up → s.isFrozen = false → exec .thaw s = .next s)
  ∧ (∀ s : State, (s.fab.links[s.curLink]).frzen = true → (s.fab.links[s.curLink]).st = .up → s.frzMsg = true → s.frzCtl = true →
      exec .thaw s = .next { s with frzMsg := false })
  ∧ (∀ s : State, s.frzCtl = true → s.frzMsg = true → exec .frzctlRelease s = .next { s with frzCtl := false })
  ∧ (∀ s : State, s.isFrozen = false → exec .frzctlRelease s = .next s)
  ∧ (∀ s : State, LinksQuiet s → (s.fab.links[s.curLink]).frzen = true → (s.fab.links[s.curLink]).st = .up → s.frzMsg = true → s.frzCtl = false →
      ∃ t, exec .thaw s = .next t ∧ Thawed s t)
  ∧ (∀ s : State, LinksQuiet s → s.frzCtl = true → s.frzMsg = false → ∃ t, exec .frzctlRelease s = .next t ∧ Thawed s t)
  ∧ ∀ s : State, LinksQuiet s → ∃ t, exec .freezeTimeout s = .next t ∧ t.isFrozen = false ∧ t.chron = s.chron ∧ t.memory = s.memory ∧ t.cores = s.cores
      ∧ t.cols = s.cols ∧ ∀ p, Running s p → Checks s t p 0x76

/-- The messages and requests of the peer links (R62 to R66, R121) and the freeze wire (R164, R165). -/
def Obligations.MessagesAndFreeze : Prop := PeerMessages ∧ PeerRequests ∧ FreezeEvents


/-! ## Events: the host's requests and registers, accesses and their responses -/

/-- A request under way: the one the module knows by an identity, not complete. -/
def Sys2Proof.Open (s : State) (id : Nat) (r : Req) : Prop := s.req id = some r ∧ r.id = id ∧ r.done = false

/-- No posted write or AtomicOp of the host still waits (R264). -/
def Sys2Proof.HostClear (s : State) : Prop := ∀ x ∈ s.reqs, (∃ tag, x.dest = .host tag) → x.kind.writes = true → x.done = true

/-- Both ends of an access of the host in physical mode are at memory that answers (R74). -/
def Sys2Proof.Answers (s : State) (a n : Nat) : Prop :=
  (s.paKind a = .pool ∨ s.paKind a = .lpddr) ∧ (s.paKind (a + n - 1) = .pool ∨ s.paKind (a + n - 1) = .lpddr)

/-- Requests of the host to memory (R47, R49, R74, R120): in physical mode a read is completed with the bytes at the address and a write is made, at
memory that answers at both ends; elsewhere UR, or the write is dropped; through a partition the request is under way and walked in this cycle, but a
write of one in replay, which is turned away (R147). A request in physical mode behind one that waits waits too (R264). An
AtomicOp is completed with the old value and its result is stored; misaligned, unsupported, or to another BAR it gets UR. An ATS invalidation
removes the entries of its pages and is answered once no request uses them. The freeze wire withholds them. -/
def Sys2Proof.HostMemory : Prop :=
  (∀ (s : State) off n tag, s.isFrozen = false → 48 ≤ s.hif.w2part.toNat → Fresh s → HostClear s → let a := (s.w2base .pf + off) % 2 ^ 56
      Answers s a n → s.lostAt a n = false →
      exec (.hostMemoryRequest .pf off n .read tag) s = .next ({ s with nextId := s.nextId + 1 }.hostComplete tag .ok (readBytes s.memory a n)))
  ∧ (∀ (s : State) off n bs tag, s.isFrozen = false → 48 ≤ s.hif.w2part.toNat → Fresh s → HostClear s → let a := (s.w2base .pf + off) % 2 ^ 56
      Answers s a n → exec (.hostMemoryRequest .pf off n (.write bs) tag) s = .next { s with nextId := s.nextId + 1, memory := writeBytes s.memory a bs })
  ∧ (∀ (s : State) off n kind tag, s.isFrozen = false → 48 ≤ s.hif.w2part.toNat → Fresh s → ¬ HostClear s → (∀ x ∈ s.reqs, x.id < s.nextId) →
      (∀ op b e, kind ≠ .atomic op b e) → let a := (s.w2base .pf + off) % 2 ^ 56
      Answers s a n → ∃ t, exec (.hostMemoryRequest .pf off n kind tag) s = .next t ∧ t.memory = s.memory ∧ t.hif = s.hif ∧ t.cores = s.cores
        ∧ (∃ r, t.reqs = s.reqs ++ [r] ∧ r.id = s.nextId ∧ r.part = none ∧ r.kind = reqAcc kind ∧ r.ia = a ∧ r.n = n ∧ r.dest = .host tag ∧ r.done = false)
        ∧ ∃ e ∈ t.agenda, e.cycle = s.chron ∧ e.instr = .pageWalk s.nextId)
  ∧ (∀ (s : State) off n tag, s.isFrozen = false → 48 ≤ s.hif.w2part.toNat → ¬ Answers s ((s.w2base .pf + off) % 2 ^ 56) n →
      exec (.hostMemoryRequest .pf off n .read tag) s = .next (s.hostComplete tag .ur [])
        ∧ ∀ bs, exec (.hostMemoryRequest .pf off n (.write bs) tag) s = .next s)
  ∧ (∀ (s : State) fn (p : PartIx) off n kind tag, s.isFrozen = false → s.w2part fn = some p → (∀ op b e, kind ≠ .atomic op b e) →
      (s.replaying p = true → kind = .read) → ((s.w2base fn + off) % 2 ^ 56) / 2 ^ 52 ≤ 1 →
      ∃ t, exec (.hostMemoryRequest fn off n kind tag) s = .next t ∧ t.memory = s.memory ∧ t.hif = s.hif ∧ t.cores = s.cores ∧ t.parts = s.parts
        ∧ (∃ r, t.reqs = s.reqs ++ [r] ∧ r.who = 5 ∧ r.part = some p ∧ r.kind = reqAcc kind ∧ r.ia = (s.w2base fn + off) % 2 ^ 56 ∧ r.n = n
            ∧ r.dest = .host tag ∧ r.done = false ∧ ∃ e ∈ t.agenda, e.cycle = s.chron ∧ e.instr = .pageWalk r.id))
  ∧ (∀ (s : State) fn (p : PartIx) off n bs tag, s.isFrozen = false → s.w2part fn = some p → s.replaying p = true →
      exec (.hostMemoryRequest fn off n (.write bs) tag) s = .next s)
  ∧ (∀ (s : State) (p : PartIx), s.w2part (.vf p) = some p ∧ (s.w2part .pf = some p ↔ s.hif.w2part.toNat = p.val))
  ∧ (∀ (s : State) off n op b e tag, s.isFrozen = false → 48 ≤ s.hif.w2part.toNat → Fresh s → HostClear s → let a := (s.w2base .pf + off) % 2 ^ 56
      Answers s a n → s.lostAt a n = false → off % n = 0 →
      ((op = .add ∨ op = .swap) ∧ (n = 4 ∨ n = 8) ∨ op = .cas ∧ (n = 4 ∨ n = 8 ∨ n = 16)) → let old := readNat s.memory a n
      exec (.hostAtomicop .pf .bar2 off n op b e tag) s = .next (({ s with nextId := s.nextId + 1, memory := writeBytes s.memory a (toBytes n
        (match op with | .add => (old + b) % 2 ^ (8 * n) | .cas => if old = e then b else old | _ => b)) }).hostComplete tag .ok (toBytes n old)))
  ∧ (∀ (s : State) fn off n op b e tag, s.isFrozen = false →
      exec (.hostMemoryRequest fn off n (.atomic op b e) tag) s = exec (.hostAtomicop fn .bar2 off n op b e tag) s)
  ∧ (∀ (s : State) fn bar off n op b e tag, s.isFrozen = false → (bar ≠ .bar2 ∨ off % n ≠ 0 ∨ (n ≠ 4 ∧ n ≠ 8 ∧ n ≠ 16)
        ∨ (op ≠ .add ∧ op ≠ .swap ∧ op ≠ .cas) ∨ op ≠ .cas ∧ n = 16) →
      exec (.hostAtomicop fn bar off n op b e tag) s = .next (s.hostComplete tag .ur []))
  ∧ (∀ (s : State) tag st bs, s.hostComplete tag st bs = { s with hif := { s.hif with hostOut := s.hif.hostOut ++ [{ id := 0, cpl := some (tag, st, bs) }] } })
  ∧ (∀ (s : State) fn off n kind tag, s.isFrozen = true → exec (.hostMemoryRequest fn off n kind tag) s = .next (s.sched s.chron (.hostMemoryRequest fn off n kind tag)))
  ∧ (∀ (s : State) fn bar off n op b e tag, s.isFrozen = true →
      exec (.hostAtomicop fn bar off n op b e tag) s = .next (s.sched s.chron (.hostAtomicop fn bar off n op b e tag)))
  ∧ (∀ (s : State) a n, 0 < n → (∀ r ∈ s.reqs, r.done = false → ∀ x ∈ r.ats, ¬ (a / 4096 ≤ x ∧ x ≤ (a + n - 1) / 4096)) →
      ∃ t, exec (.atsInvalidation a n) s = .next t ∧ (∀ x, x ∈ t.ms.ats ↔ x ∈ s.ms.ats ∧ ¬ (a / 4096 ≤ x.1 ∧ x.1 ≤ (a + n - 1) / 4096))
      ∧ t.hif.hostOut = s.hif.hostOut ++ [{ id := 0, ia := a, n := n, msg := some (0, 0, 0) }] ∧ SameUnits { s with ms := t.ms } t ∧ t.parts = s.parts)
  ∧ ∀ (s : State) a n r x, 0 < n → r ∈ s.reqs → r.done = false → x ∈ r.ats → a / 4096 ≤ x → x ≤ (a + n - 1) / 4096 →
      ∃ t, exec (.atsInvalidation a n) s = .next t ∧ (∀ x, x ∈ t.ms.ats ↔ x ∈ s.ms.ats ∧ ¬ (a / 4096 ≤ x.1 ∧ x.1 ≤ (a + n - 1) / 4096))
      ∧ t.hif = s.hif ∧ SameUnits { s with ms := t.ms } t ∧ t.parts = s.parts ∧ ∃ e ∈ t.agenda, e.cycle = s.chron + 1 ∧ e.instr = .atsInvalidation a n

/-- Register writes (R12, R17, R72, R73, R76, R79, R164): HARG takes what is written; a W1C bit of INTST is cleared where a 1 is written; the identity
block, and in a VF the supervisor's registers, keep their values; the words that command a unit act as its events do; a write through BAR2 is one of
memory. A new SCADDR shows its word in SCDATA after 64 cycles (R165). FQHEAD moves up to FQTAIL and no further (R110). -/
def Sys2Proof.RegisterWrites : Prop :=
  (∀ (s : State) v, exec (.registerWrite .pf .bar0 0x1008 8 v) s = .next { s with helm := { s.helm with harg := BitVec.ofNat 64 v } })
  ∧ (∀ (s : State) v, exec (.registerWrite .pf .bar0 0x2000 8 v) s = .next { s with hif := { s.hif with intst := s.hif.intst &&& ~~~(BitVec.ofNat 8 v) } })
  ∧ (∀ (s : State) off n v, off + n ≤ 0x1000 → exec (.registerWrite .pf .bar0 off n v) s = .next s)
  ∧ (∀ (s : State) (p : PartIx) off v, 0x1000 ≤ off → off < 0x10B0 → off % 8 = 0 → ∃ t, exec (.registerWrite (.vf p) .bar0 off 8 v) s = .next t
      ∧ (∀ x, t.part x = s.part x) ∧ t.helm = s.helm ∧ t.hif = s.hif ∧ t.memory = s.memory ∧ t.cores = s.cores ∧ t.agenda = s.agenda)
  ∧ (∀ (s : State) (v : BitVec 32), exec (.registerWrite .pf .bar0 0x1048 4 v.toNat) s = exec (.scanAddressWrite v) s)
  ∧ (∀ s : State, exec (.registerWrite .pf .bar0 0x1040 4 1) s = exec .frzctlFreeze s ∧ exec (.registerWrite .pf .bar0 0x1040 4 0) s = exec .frzctlRelease s)
  ∧ (∀ s : State, exec (.registerWrite .pf .bar0 0x50020 4 1) s = exec .migrationGo s)
  ∧ (∀ (s : State) (v : BitVec 32), exec (.registerWrite .pf .bar0 0x50050 4 v.toNat) s = exec (.mgcqheadWrite v) s)
  ∧ (∀ (s : State) (p : PartIx) (v : BitVec 32), exec (.registerWrite .pf .bar0 (0x31060 + 0x100 * p.val) 4 v.toNat) s = exec (.fqheadWrite p v) s)
  ∧ (∀ (s : State) off n v, 48 ≤ s.hif.w2part.toNat → Fresh s → HostClear s → let a := (s.w2base .pf + off) % 2 ^ 56
      Answers s a n → exec (.registerWrite .pf .bar2 off n v) s = .next { s with nextId := s.nextId + 1, memory := writeBytes s.memory a (toBytes n v) })
  ∧ (∀ (s : State) a, exec (.scanAddressWrite a) s = .next { s with helm := { s.helm with
      scaddr := a, scAt := s.chron + (if s.isFrozen then s.frozen else 0) + 64 } })
  ∧ (∀ s : State, s.isFrozen = false → s.helm.scAt ≤ s.chron → s.regRead .pf .bar0 0x1050 = s.scan s.helm.scaddr.toNat)
  ∧ (∀ (s : State) p v, ((s.part p).fqtail - (s.part p).fqhead).toNat < (v - (s.part p).fqhead).toNat → exec (.fqheadWrite p v) s = .next s)
  ∧ ∀ (s : State) p v, (v - (s.part p).fqhead).toNat ≤ ((s.part p).fqtail - (s.part p).fqhead).toNat → (s.part p).fqheld = [] →
      (∀ c, s.partOf c = some p → (s.core c).seq.heldTrap = none) → exec (.fqheadWrite p v) s = .next (s.updPart p fun q => { q with fqhead := v })

/-- What the host writes and reads (R12, R47, R49, R72 to R79, R110, R120, R165). -/
def Obligations.HostAccesses : Prop := HostMemory ∧ RegisterWrites


/-- A request of a partition to region 0 or 1 meets the tables now: its core is not fenced (R144), no other walk of its page stands in the way (R104),
and it fills no handle. -/
def Sys2Proof.Walks (s : State) (r : Req) (p : PartIx) : Prop :=
  r.part = some p ∧ r.ia / 2 ^ 52 ≤ 1 ∧ (∀ h, r.dest ≠ .handle h) ∧ s.walkBusy p r.ia = false

/-- Accesses on the memory side (R103 to R106, R68, R155): a request is performed whole where its walk ends, at one cycle, and answered; refused, by the
tables or by another walk of its page, it comes again after 64 × hint cycles, in a fixed leg it is a deviation; a fault answers it; behind an earlier one
of its queue it waits; that of a fenced core goes nowhere; a load's data go to its register, sign-extended to 64 bits, and a
hold for it ends; an access to the own scratchpad is performed in its bank's cycle; a completion with UR or CA raises 0x64, but UR for an AtomicOp of
a user-mode sequencer on the host port 0x34; none in 2^24 cycles 0x63; a stop record refused for 2^20 cycles is dropped with NOREC. -/
def Obligations.Accesses : Prop :=
  (∀ (s : State) id r p key bs m, Open s id r → s.reqWaits r = false → Walks s r p → r.who < 5 → (s.core r.core).killed = false →
      s.walk p r.ia r.kind.right = .mem key → (r.kind.reads = true → s.lostAt key r.n = false) → performAt s.memory key r.n r.kind = .ok (bs, m) →
      ∃ t, exec (.pageWalk id) s = .next t
        ∧ t.memory = m ∧ t.req id = some { r with result := bs, done := true, refused := false } ∧ t.cores = s.cores ∧ t.parts = s.parts ∧ t.cols = s.cols
        ∧ t.hif = s.hif ∧ ∃ e ∈ t.agenda, e.cycle = s.chron ∧ e.core = r.core ∧ e.instr = .accessResponse id)
  ∧ (∀ (s : State) id r p h, Open s id r → s.reqWaits r = false → Walks s r p → (r.who < 5 → (s.core r.core).killed = false) → r.fixed = false →
      s.walk p r.ia r.kind.right = .refuse h none →
      exec (.pageWalk id) s = .next ((s.setReq { r with refused := true }).schedC (s.chron + 64 * h) r.core (.refusalRetry id)))
  ∧ (∀ (s : State) id r p, Open s id r → s.reqWaits r = false → r.part = some p → (r.who < 5 → (s.core r.core).killed = false) → r.fixed = false →
      s.walkBusy p r.ia = true →
      exec (.pageWalk id) s = .next ((s.setReq { r with refused := true }).schedC (s.chron + 64) r.core (.refusalRetry id)))
  ∧ (∀ (s : State) id r p, Open s id r → s.reqWaits r = false → r.part = some p → r.who < 5 → (s.core r.core).killed = false → r.fixed = true →
      (s.walkBusy p r.ia = true ∨ Walks s r p ∧ ∃ h x, s.walk p r.ia r.kind.right = .refuse h x) → s.partOf r.core = some p → Running s p →
      ∃ t, exec (.pageWalk id) s = .next t ∧ t.req id = none ∧ t.memory = s.memory ∧ t.cores = s.cores
        ∧ ∃ x, (t.part p).halting = some x ∧ x.code = 0x41 ∧ x.cycle = s.chron ∧ x.eng = r.who ∧ x.core = s.logical p r.core ∧ x.pc = r.pc)
  ∧ (∀ (s : State) id r p code e l, Open s id r → s.reqWaits r = false → Walks s r p → (r.who < 5 → (s.core r.core).killed = false) →
      s.walk p r.ia r.kind.right = .fault code e l →
      exec (.pageWalk id) s = .next ((s.setReq { r with err := some (code, e, l), done := true }).schedC s.chron r.core (.accessResponse id)))
  ∧ (∀ (s : State) id r, Open s id r → (r.who < 5 → (s.core r.core).killed = false) → s.reqWaits r = true →
      exec (.pageWalk id) s = .next (s.schedC (s.chron + 1) r.core (.pageWalk id)))
  ∧ (∀ (s : State) id r, Open s id r → r.who < 5 → (s.core r.core).killed = true →
      exec (.pageWalk id) s = .next { s with reqs := s.reqs.filter fun x => x.id != id })
  ∧ (∀ (s : State) id r p key bs m d n t0 pr, Open s id r → r.dest = .gpr d n t0 pr → Walks s r p → r.who < 5 →
      s.walk p r.ia r.kind.right = .mem key → (r.kind.reads = true → s.lostAt key r.n = false) → performAt s.memory key r.n r.kind = .ok (bs, m) →
      ∃ t, exec (.refusalRetry id) s = .next t
        ∧ t.memory = m ∧ t.req id = some { r with result := bs, done := true, refused := false } ∧ t.cores = s.cores ∧ t.parts = s.parts
        ∧ ∃ e ∈ t.agenda, e.cycle = s.chron ∧ e.core = r.core ∧ e.instr = .accessResponse id)
  ∧ (∀ (s : State) id r d n t0, s.req id = some r → r.id = id → r.done = true → r.err = none → r.dest = .gpr d n t0 false → d ≠ 0 → n ≤ 8 →
      ∃ t, exec (.accessResponse id) s = .next t ∧ (t.core r.core).seq.gpr d = sext64 (8 * n) (ofBytes r.result) ∧ (t.core r.core).seq.tnt d = t0
        ∧ (t.core r.core).seq.hold ≠ some id ∧ t.req id = none ∧ (∀ x, x ≠ r.core → t.core x = s.core x)
        ∧ (∀ x, x ≠ d → (t.core r.core).seq.gpr x = (s.core r.core).seq.gpr x) ∧ (t.core r.core).axu = (s.core r.core).axu
        ∧ t.memory = s.memory ∧ t.parts = s.parts ∧ t.cols = s.cols ∧ t.agenda = s.agenda)
  ∧ (∀ (s : State) id r bs, Open s id r → r.err = none → r.own = true → r.kind = .write bs → r.dest = .none_ → s.reqWaits r = false →
      (s.core r.core).killed = false → (∀ x ∈ s.reqs, x.id < id → x.core = r.core → x.done = true) →
      ∃ t, exec (.accessResponse id) s = .next t ∧ t.memory = writeBytes s.memory (spadKey r.core.val (r.ia % 2 ^ 23)) bs ∧ t.req id = none
        ∧ (∀ x, x ≠ r.core → t.core x = s.core x) ∧ t.parts = s.parts)
  ∧ (∀ (s : State) id r port st p, Open s id r → (∀ x ∈ s.reqs, ∀ y ∈ x.parts, y.1 ≠ id) → r.sent = some port → s.isFrozen = false → st ≠ .ok → r.who < 5 →
      ¬ (st = .ur ∧ port = 48 ∧ r.kind.isAtomic = true ∧ r.who = 0) →
      s.partOf r.core = some p → r.part = some p → Running s p → ∃ t, exec (.completionArrival id st []) s = .next t
        ∧ (∃ x, (t.part p).halting = some x ∧ x.code = 0x64 ∧ x.eng = r.who ∧ x.core = s.logical p r.core) ∧ t.req id = none ∧ t.cores = s.cores)
  ∧ (∀ (s : State) id r p, Open s id r → (∀ x ∈ s.reqs, ∀ y ∈ x.parts, y.1 ≠ id) → r.sent = some 48 → s.isFrozen = false → r.who = 0 →
      r.kind.isAtomic = true → (∀ x, r.dest ≠ .cmd x) → s.partOf r.core = some p → (s.core r.core).seq.sup = false → s.fixedLeg r.core = false →
      (s.part p).fqheld = [] → ((s.part p).fqtail - (s.part p).fqhead).toNat ≠ 2 ^ (6 + (s.part p).fqsz.toNat) → s.halts p = false →
      ∃ t, exec (.completionArrival id .ur []) s = .next t ∧ t.req id = none
        ∧ (t.core r.core).seq = (s.core r.core).seq.trap s.chron 0x34 r.pc r.took ∧ (t.part p).halting = (s.part p).halting
        ∧ (t.part p).fqtail = (s.part p).fqtail + 1)
  ∧ (∀ (s : State) id r port bs off m, Open s id r → (∀ x ∈ s.reqs, ∀ y ∈ x.parts, y.1 ≠ id) → r.parts = [] → r.sent = some port → s.isFrozen = false →
      r.who = 7 → r.kind = .read → r.err = none → bs.length = r.n → r.dest = .mig off →
      s.mig.moving = some m → exec (.completionArrival id .ok bs) s = .next
        { s with reqs := s.reqs.filter fun x => x.id != id, mig := { s.mig with moving := some { m with got := m.got ++ [(off, bs)] } } })
  ∧ (∀ (s : State) id st bs, s.isFrozen = true → exec (.completionArrival id st bs) s = .next (s.sched s.chron (.completionArrival id st bs)))
  ∧ (∀ (s : State) id r p, Open s id r → r.who < 5 → s.partOf r.core = some p → r.part = some p → Running s p → ∃ t, exec (.completionTimeout id) s = .next t
      ∧ (∃ x, (t.part p).halting = some x ∧ x.code = 0x63 ∧ x.eng = r.who ∧ x.core = s.logical p r.core) ∧ t.req id = none ∧ t.cores = s.cores)
  ∧ (∀ (s : State) id, (∀ r, s.req id = some r → r.done = true) → exec (.completionTimeout id) s = .next s)
  ∧ (∀ (s : State) p (c : CoreIx) e r,
      s.reqs.find? (fun r => r.dest == .stopRec p.val c.val (Fin.val e) && decide (r.issued + 2 ^ 20 ≤ s.chron)) = some r →
      exec (.stopRecordRefusalTimeout p c e) s = .next
      (({ s with reqs := s.reqs.filter fun x => x.id != r.id }).updPart p fun q => { q with phalt := q.phalt ||| (1 <<< 30) }))
  ∧ ∀ (s : State) p (c : CoreIx) e, (∀ r ∈ s.reqs, r.dest = .stopRec p.val c.val (Fin.val e) → s.chron < r.issued + 2 ^ 20) →
      exec (.stopRecordRefusalTimeout p c e) s = .next s

/-! ## Events: translation and the migration engine -/

/-- A command of the migration engine ends: it leaves the FIFO, the engine is free, and its completion, ID with the status, LEN and the address, is in the
ring, at the place CQTAIL named, which moves on (R113, R117); a further command, if any, is scheduled. -/
def Sys2Proof.MgEnds (s t : State) (c : MgCmd) (status len pa : Nat) (m : List Host.Cell) : Prop :=
  t.mig.fifo = s.mig.fifo.drop 1 ∧ t.mig.promos = s.mig.promos ∧ t.mig.moving = none ∧ t.mig.cqtail = s.mig.cqtail + 1 ∧ t.mig.held = []
    ∧ t.memory = (let a := s.mig.cqbase.toNat + s.mig.cqtail.toNat % 2 ^ (6 + s.mig.cqsz.toNat) * 16
        if s.paKind a = .pool ∨ s.paKind a = .lpddr then
          writeBytes m a (toBytes 8 (c.id.toNat + 2 ^ 16 * status + 2 ^ 32 * (len % 2 ^ 32)) ++ toBytes 8 pa) else m)
    ∧ (t.mig.busy = false ↔ s.mig.fifo.drop 1 = [] ∧ s.mig.promos = [])

/-- The completion ring has room and nothing waits for it. -/
def Sys2Proof.MgRoom (s : State) : Prop := s.mig.held = [] ∧ (s.mig.cqtail - s.mig.cqhead).toNat ≠ 2 ^ (6 + s.mig.cqsz.toNat)

/-- The rest of the module is as before. -/
def Sys2Proof.MgFrame (s t : State) : Prop :=
  t.cores = s.cores ∧ t.cols = s.cols ∧ t.parts = s.parts ∧ t.reqs = s.reqs ∧ t.helm = s.helm ∧ t.fab = s.fab ∧ t.chron = s.chron ∧ t.inputs = s.inputs

/-- The migration engine (R113, R114, R117): GO pushes the registers' command while fewer than 32 are queued, and sets ERR else; ALLOC of an explicit free
frame takes it and fills it with zeros, one that is not free is BADARG; ALLOC by placement takes the frame the placement ring gives, or is NOSPACE; an operation
the engine does not know is BADARG, and so is an ALLOC with DEST 2 to 7 (the model's choice, log 68); FREE clears the frame's bits; the host's read of the
ring frees space up to CQTAIL, into which a held completion goes. -/
def Sys2Proof.MigrationCommands : Prop :=
  (∀ s : State, s.mig.fifo.length < 32 → ∃ t, exec .migrationGo s = .next t ∧ MgFrame s t ∧ t.memory = s.memory ∧ t.ms = s.ms ∧ t.hif = s.hif
      ∧ t.mig.fifo = s.mig.fifo ++ [
        { op := s.mig.cmd.extractLsb' 0 4, part := s.mig.cmd.extractLsb' 4 6, sz := s.mig.cmd.getLsbD 10,
          dest := s.mig.cmd.extractLsb' 11 3, id := s.mig.cmd.extractLsb' 16 16, ia := s.mig.ia, dst := s.mig.dst, lim := s.mig.lim }]
      ∧ (s.mig.busy = false → s.mig.moving = none → s.mig.held = [] → t.mig.busy = true
          ∧ ∃ e ∈ t.agenda, s.chron < e.cycle ∧ (e.instr = .alloc ∨ e.instr = .free ∨ e.instr = .move ∨ e.instr = .promotion)))
  ∧ (∀ s : State, 32 ≤ s.mig.fifo.length → exec .migrationGo s = .next { s with mig := { s.mig with err := true } })
  ∧ (∀ (s : State) c r, s.mig.fifo = c :: r → c.op = 1 → c.dest = 1 → s.frameFree c.dst.toNat c.sz = true → MgRoom s → s.mig.cqwb = 0 → c.promo = false →
      ∃ t, exec .alloc s = .next t ∧ MgFrame s t ∧ t.ms = s.ms ∧ t.hif = s.hif
        ∧ MgEnds s t c 0 0 c.dst.toNat (s.memory.filter fun x => decide (x.1 < c.dst.toNat) || decide (c.dst.toNat + (if c.sz then 2 ^ 21 else 2 ^ 16) ≤ x.1))
        ∧ (∀ u, u ∈ t.mig.frames ↔ u ∈ s.mig.frames ∨ ∃ i, i < (if c.sz then 32 else 1) ∧ u = c.dst.toNat + i * 2 ^ 16))
  ∧ (∀ (s : State) c r, s.mig.fifo = c :: r → c.op = 1 → c.dest = 1 → s.frameFree c.dst.toNat c.sz = false → MgRoom s → s.mig.cqwb = 0 → c.promo = false →
      ∃ t, exec .alloc s = .next t ∧ MgFrame s t ∧ t.ms = s.ms ∧ t.hif = s.hif ∧ t.mig.frames = s.mig.frames ∧ MgEnds s t c 4 0 0 s.memory)
  ∧ (∀ (s : State) c r pa u, s.mig.fifo = c :: r → c.op = 1 → c.dest = 0 → s.place (c.dst.toNat % 8) c.sz = some (pa, u) → MgRoom s → s.mig.cqwb = 0 → c.promo = false →
      ∃ t, exec .alloc s = .next t ∧ MgFrame s t ∧ t.ms = s.ms ∧ t.hif = s.hif
        ∧ MgEnds s t c 0 0 pa (s.memory.filter fun x => decide (x.1 < pa) || decide (pa + (if c.sz then 2 ^ 21 else 2 ^ 16) ≤ x.1))
        ∧ (∀ u, u ∈ t.mig.frames ↔ u ∈ s.mig.frames ∨ ∃ i, i < (if c.sz then 32 else 1) ∧ u = pa + i * 2 ^ 16))
  ∧ (∀ (s : State) c r, s.mig.fifo = c :: r → c.op = 1 → c.dest = 0 → s.place (c.dst.toNat % 8) c.sz = none → MgRoom s → s.mig.cqwb = 0 → c.promo = false →
      ∃ t, exec .alloc s = .next t ∧ MgFrame s t ∧ t.ms = s.ms ∧ t.hif = s.hif ∧ t.mig.frames = s.mig.frames ∧ MgEnds s t c 3 0 0 s.memory)
  ∧ (∀ (s : State) c r, s.mig.fifo = c :: r → c.op ≠ 1 ∨ 2 ≤ c.dest.toNat → MgRoom s → s.mig.cqwb = 0 → c.promo = false →
      ∃ t, exec .alloc s = .next t ∧ MgFrame s t ∧ t.ms = s.ms ∧ t.hif = s.hif ∧ t.mig.frames = s.mig.frames ∧ MgEnds s t c 4 0 0 s.memory)
  ∧ (∀ (s : State) c r, s.mig.fifo = c :: r → MgRoom s → s.mig.cqwb = 0 → c.promo = false → ∃ t, exec .free s = .next t ∧ MgFrame s t ∧ t.ms = s.ms ∧ t.hif = s.hif
      ∧ MgEnds s t c 0 0 c.dst.toNat s.memory
      ∧ ∀ u, u ∈ t.mig.frames ↔ u ∈ s.mig.frames ∧ ¬ ∃ i, i < (if c.sz then 32 else 1) ∧ u = c.dst.toNat + i * 2 ^ 16)
  ∧ (∀ (s : State) v, (s.mig.cqtail - s.mig.cqhead).toNat < (v - s.mig.cqhead).toNat → exec (.mgcqheadWrite v) s = .next s)
  ∧ ∀ (s : State) v, (v - s.mig.cqhead).toNat ≤ (s.mig.cqtail - s.mig.cqhead).toNat → s.mig.held = [] → s.mig.busy = true →
      exec (.mgcqheadWrite v) s = .next { s with mig := { s.mig with cqhead := v } }

/-- A completion that waited for space in the ring is written as the host frees it (R113). -/
def Sys2Proof.HeldCompletion : Prop :=
  ∀ (s : State) v x, (v - s.mig.cqhead).toNat ≤ (s.mig.cqtail - s.mig.cqhead).toNat → s.mig.held = [x] → s.mig.busy = true →
      (s.mig.cqtail - v).toNat ≠ 2 ^ (6 + s.mig.cqsz.toNat) → s.mig.cqwb = 0 → ∃ t, exec (.mgcqheadWrite v) s = .next t ∧ MgFrame s t ∧ t.hif = s.hif
      ∧ t.mig = { s.mig with cqhead := v, cqtail := s.mig.cqtail + 1, held := [] }
      ∧ t.memory = (let a := s.mig.cqbase.toNat + s.mig.cqtail.toNat % 2 ^ (6 + s.mig.cqsz.toNat) * 16
          if s.paKind a = .pool ∨ s.paKind a = .lpddr then writeBytes s.memory a x else s.memory)

/-- MOVE and promotions (R115, R112): with the page's leaf unpinned, of the command's size, and a valid destination, MIG is set in the leaf, the page's translations
go, and the copy ends one cycle per 128 bytes later; then the bytes stand at the new address and the leaf names it with MIG = 0, a pool source's frame
is freed, and the completion is written. A page that is not mapped completes as NOMAP, a pinned one as PINNED, a partition number beyond 47 as BADARG; another
fault of the walk as FAULT with its record (R106), and 0x74 is a machine check besides (R37). -/
def Sys2Proof.MigrationMoves : Prop :=
  (∀ (s : State) c r (p : PartIx) e a lvl, s.mig.fifo = c :: r → c.promo = false → c.part.toNat = p.val → s.findLeaf p false c.ia.toNat = .ok (e, a, lvl) → bitAt e 7 = false →
      s.moveBad c p e a lvl = none → c.sz = (lvl == 2) → c.dest = 2 → leafLoc e ≠ 3 → ¬ (leafLoc e = 1 ∧ leafAddr e = c.dst.toNat) → c.dst.toNat % (if c.sz then 2 ^ 21 else 2 ^ 16) = 0 →
      s.paKind c.dst.toNat = .lpddr → s.paKind (c.dst.toNat + (if c.sz then 2 ^ 21 else 2 ^ 16) - 1) = .lpddr → ∃ t, exec .move s = .next t
        ∧ MgFrame s t ∧ t.hif = s.hif ∧ t.memory = writeBytes s.memory a (toBytes 8 (setFld e 8 1 1)) ∧ t.mig.fifo = s.mig.fifo ∧ t.mig.frames = s.mig.frames
        ∧ (∃ m, t.mig.moving = some m ∧ m.cmd = c ∧ m.leafAt = a ∧ m.leaf = e ∧ m.newAddr = c.dst.toNat)
        ∧ (let z := if c.sz then 2 ^ 21 else 2 ^ 16
           let b := c.ia.toNat / z * z
           ∀ x : Pin, x ∈ t.ms.pinned ↔ x ∈ s.ms.pinned ∧ ¬ (x.part = p.val ∧ x.base < b + z ∧ b < x.base + (if x.big then 2 ^ 21 else 2 ^ 16)))
        ∧ (∀ x ∈ t.ms.ats, x.2.1 ≠ p.val)
        ∧ ∃ v ∈ t.agenda, v.cycle = s.chron + (if c.sz then 16384 else 512) ∧ v.instr = .moveDone)
  ∧ (∀ (s : State) c r (p : PartIx) e l, s.mig.fifo = c :: r → c.promo = false → c.part.toNat = p.val → s.findLeaf p false c.ia.toNat = .error (0x31, e, l) →
      (s.part p).dmEn = true → s.tableAt (s.part p).dmAddr.toNat = none → bitAt e 0 = false → MgRoom s → s.mig.cqwb = 0 →
      ∃ t, exec .move s = .next t ∧ MgFrame s t ∧ t.ms = s.ms ∧ MgEnds s t c 1 0 0 s.memory)
  ∧ (∀ (s : State) c r (p : PartIx) code e l, s.mig.fifo = c :: r → c.promo = false → c.part.toNat = p.val → s.findLeaf p false c.ia.toNat = .error (code, e, l) →
      code ≠ 0x74 → ((s.part p).dmEn = false ∨ s.tableAt (s.part p).dmAddr.toNat ≠ none ∨ bitAt e 0 = true) → MgRoom s →
      (s.part p).fqheld = [] → ((s.part p).fqtail - (s.part p).fqhead).toNat ≠ 2 ^ (6 + (s.part p).fqsz.toNat) →
      ∃ t, exec .move s = .next t ∧ t.mig.fifo = r ∧ t.mig.moving = none ∧ t.mig.cqtail = s.mig.cqtail + 1 ∧ (t.part p).fqtail = (s.part p).fqtail + 1
        ∧ t.cores = s.cores ∧ t.ms = s.ms)
  ∧ (∀ (s : State) c r (p : PartIx) e l, s.mig.fifo = c :: r → c.promo = false → c.part.toNat = p.val → s.findLeaf p false c.ia.toNat = .error (0x74, e, l) → MgRoom s →
      Running s p → ∃ t, exec .move s = .next t ∧ t.mig.fifo = r ∧ t.mig.cqtail = s.mig.cqtail + 1 ∧ Checks s t p 0x74 ∧ t.cores = s.cores ∧ t.ms = s.ms)
  ∧ (∀ (s : State) c r, s.mig.fifo = c :: r → 48 ≤ c.part.toNat → c.promo = false → MgRoom s → s.mig.cqwb = 0 →
      ∃ t, exec .move s = .next t ∧ MgFrame s t ∧ t.ms = s.ms ∧ MgEnds s t c 4 0 0 s.memory)
  ∧ (∀ (s : State) c r (p : PartIx) e a lvl, s.mig.fifo = c :: r → c.promo = false → c.part.toNat = p.val → s.findLeaf p false c.ia.toNat = .ok (e, a, lvl) → bitAt e 7 = true →
      s.moveBad c p e a lvl = none → MgRoom s → s.mig.cqwb = 0 → ∃ t, exec .move s = .next t ∧ MgFrame s t ∧ t.ms = s.ms ∧ MgEnds s t c 2 0 0 s.memory)
  ∧ (∀ (s : State) m (p : PartIx), s.mig.moving = some m → m.cmd.part.toNat = p.val → m.bad = false → m.ends ≤ s.chron → (∀ r ∈ s.reqs, r.who ≠ 7)
      → s.oldAccess p.val false m.cmd.ia.toNat (pageSize m.big) m.before = false → leafLoc m.leaf = 1 →
      s.lostAt (leafAddr m.leaf) (pageSize m.big) = false → m.cmd.dest = 2 → m.cmd.promo = false → MgRoom s → s.mig.cqwb = 0 →
      ∃ t, exec .moveDone s = .next t ∧ MgFrame s t ∧ t.ms = s.ms ∧ t.hif = s.hif ∧ t.mig.frames = s.mig.frames
        ∧ MgEnds s t m.cmd 0 0 m.newAddr (writeBytes (writeBytes s.memory m.newAddr (readBytes s.memory (leafAddr m.leaf) (if m.big then 2 ^ 21 else 2 ^ 16)))
            m.leafAt (toBytes 8 (newLeaf m.leaf 1 m.newAddr))))
  ∧ (∀ (s : State) m, s.mig.moving = some m → s.chron < m.ends → exec .moveDone s = .next s)
  ∧ (∀ (e loc addr : Nat), loc < 4 → addr % 2 ^ 16 = 0 → addr < 2 ^ 56 → leafLoc (newLeaf e loc addr) = loc ∧ bitAt (newLeaf e loc addr) 8 = false ∧ leafAddr (newLeaf e loc addr) = addr
      ∧ fld (newLeaf e loc addr) 7 4 = fld e 7 4 ∧ fld (newLeaf e loc addr) 1 0 = fld e 1 0)
  ∧ (∀ (s : State) c r (p : PartIx) e a lvl pa u, s.mig.promos = c :: r → c.promo = true → c.dest = 0 → c.part.toNat = p.val →
      s.findLeaf p false c.ia.toNat = .ok (e, a, lvl) → s.moveBad c p e a lvl = none → leafLoc e = 2 → bitAt e 7 = false → c.sz = (lvl == 2) → s.place (fld c.ia.toNat 23 21) c.sz = some (pa, u) →
      ∃ t, exec .promotion s = .next t ∧ MgFrame s t ∧ t.hif = s.hif ∧ t.memory = writeBytes s.memory a (toBytes 8 (setFld e 8 1 1)) ∧ t.mig.promos = s.mig.promos
        ∧ t.mig.fifo = s.mig.fifo ∧ (∃ m, t.mig.moving = some m ∧ m.cmd = c ∧ m.leafAt = a ∧ m.leaf = e ∧ m.newAddr = pa)
        ∧ (∀ x, x ∈ t.mig.frames ↔ x ∈ s.mig.frames ∨ ∃ i, i < (if c.sz then 32 else 1) ∧ x = pa + i * 2 ^ 16)
        ∧ ∃ v ∈ t.agenda, v.cycle = s.chron + (if c.sz then 16384 else 512) ∧ v.instr = .moveDone)
  ∧ ∀ (s : State) c r (p : PartIx) e a lvl, s.mig.promos = c :: r → c.promo = true → c.part.toNat = p.val → s.findLeaf p false c.ia.toNat = .ok (e, a, lvl) → s.moveBad c p e a lvl = none → leafLoc e ≠ 2 →
      ∃ t, exec .promotion s = .next t ∧ MgFrame s t ∧ t.memory = s.memory ∧ t.ms = s.ms ∧ t.mig.promos = r ∧ t.mig.fifo = s.mig.fifo ∧ t.mig.moving = none
        ∧ t.mig.cqtail = s.mig.cqtail

/-- The operation at hand is on one page of 64 KiB of a partition (R111). -/
def Sys2Proof.PreloadsOne (s : State) (p : PartIx) : Prop :=
  p.val = fld s.ms.op.2.toNat 5 0 ∧ s.ms.op.2.getLsbD 6 = false ∧ s.ms.op.2.getLsbD 7 = false ∧ fld s.ms.op.2.toNat 23 9 = 0

/-- Shoot-down and preload (R111, R112): INVAL removes the pinned entries of its pages, or all of the partition; it ends once no access translated before it is
still on its way, and SDDONE counts it. PRELOAD of a page with a leaf marked PIN and not moving pins it, replacing an entry of the page; anything else sets ERR. -/
def Sys2Proof.ShootdownAndPreload : Prop :=
  (∀ s : State, let x := s.ms.op
      ∃ t lat, 0 < lat ∧ exec .inval s = .next t ∧ t.ms.sdBusy = true ∧ t.ms.sdRun = some (x.1, x.2, s.nextId) ∧ t.ms.sddone = s.ms.sddone
        ∧ (∀ y : Pin, y ∈ t.ms.pinned ↔ y ∈ s.ms.pinned ∧ ¬ (y.part = fld x.2.toNat 5 0 ∧ (x.2.getLsbD 6 = true ∨
            (let z := if x.2.getLsbD 7 then 2 ^ 21 else 2 ^ 16
             let a := x.1.toNat / z * z
             let n := z * (fld x.2.toNat 23 9 + 1)
             y.base < a + n ∧ a < y.base + (if y.big then 2 ^ 21 else 2 ^ 16)))))
        ∧ t.agenda = (s.sched (s.chron + lat) .shootdownDone).agenda ∧ t.memory = s.memory ∧ t.cores = s.cores ∧ t.parts = s.parts ∧ t.reqs = s.reqs ∧ t.mig = s.mig)
  ∧ (∀ (s : State) ia c b, s.ms.sdRun = some (ia, c, b) → (∀ r ∈ s.reqs, r.id < b → r.sent = some 48 → r.done = true) → exec .shootdownDone s = .next
      { s with ms := { s.ms with sdBusy := false, sdRun := none, sddone := s.ms.sddone + 1 } })
  ∧ (∀ (s : State) ia c b, s.ms.sdRun = some (ia, c, b) →
      s.oldAccess (fld c.toNat 5 0) (c.getLsbD 6) (sdRange ia c).1 (sdRange ia c).2 b = true → exec .shootdownDone s = .next (s.sched (s.chron + 1) .shootdownDone))
  ∧ (∀ (s : State) (p : PartIx) e at_, PreloadsOne s p → let a := s.ms.op.1.toNat / 2 ^ 16 * 2 ^ 16
      a < 2 ^ 52 → s.findLeaf p false a = .ok (e, at_, 3) → s.pinFails p a e at_ 3 = none → s.ms.pinned.length < 1024 →
      ∃ t, exec .preload s = .next t ∧ t.ms.sdErr = s.ms.sdErr ∧ t.memory = s.memory ∧ t.cores = s.cores ∧ t.parts = s.parts ∧ t.ms.sdBusy = true
        ∧ (∀ y : Pin, y ∈ t.ms.pinned ↔ y = { part := p.val, base := a, big := false, leaf := e }
            ∨ y ∈ s.ms.pinned ∧ ¬ (y.part = p.val ∧ y.base = a ∧ y.big = false))
        ∧ ∃ v ∈ t.agenda, s.chron < v.cycle ∧ v.instr = .shootdownDone)
  ∧ (∀ (s : State) (p : PartIx), PreloadsOne s p → let a := s.ms.op.1.toNat / 2 ^ 16 * 2 ^ 16
      (2 ^ 52 ≤ a ∨ (∃ code e l, s.findLeaf p false a = .error (code, e, l) ∧ code ≠ 0x74)
        ∨ (∃ e at_ l, s.findLeaf p false a = .ok (e, at_, l) ∧ (bitAt e 7 = false ∨ bitAt e 8 = true))
        ∨ (∃ e at_ l, s.findLeaf p false a = .ok (e, at_, l) ∧ s.pinFails p a e at_ l = none)
          ∧ 1024 ≤ (s.ms.pinned.filter fun x => fld x.base 23 21 == fld a 23 21).length) →
      ∃ t, exec .preload s = .next t ∧ t.ms.sdErr = true ∧ t.ms.pinned = s.ms.pinned ∧ t.memory = s.memory ∧ t.cores = s.cores ∧ t.parts = s.parts
        ∧ ∃ v ∈ t.agenda, s.chron < v.cycle ∧ v.instr = .shootdownDone)
  ∧ ∀ s : State, s.ms.op.2.getLsbD 6 = true → exec .preload s = .next { s with ms := { s.ms with sdErr := true, sdBusy := false, sdRun := none } }

/-- The migration engine, shoot-downs and the preload of pages (R111 to R117). -/
def Obligations.MigrationAndShootdown : Prop := MigrationCommands ∧ HeldCompletion ∧ MigrationMoves ∧ ShootdownAndPreload


/-! ## Events: launch, keys, attestation -/

/-- A partition changes only as a function says; every other partition, the cores, columns and memory stay. -/
def Sys2Proof.PartDoes (s t : State) (p : PartIx) (f : Part → Part) : Prop :=
  t.part p = f (s.part p) ∧ (∀ q, q ≠ p → t.part q = s.part q) ∧ t.cores = s.cores ∧ t.cols = s.cols ∧ t.memory = s.memory ∧ t.chron = s.chron
    ∧ t.inputs = s.inputs

/-- The launch mailbox (R80, R82, R85): GO on a slot without a live context latches the launch fields, empties the slot's PROGRESS and sets CHECK, and the check is
to come; on a live one it sets LERR; ABORT of a running context begins its halt with 0x45, of any other live one ends it KILLED, of none sets LERR; both
are held while the partition switches. -/
def Sys2Proof.LaunchMailbox : Prop :=
  (∀ (s : State) (p : PartIx) tag, (s.part p).switching = false → ((s.part p).slots[Fin.ofNat 8 (s.part p).slot.toNat]).st.live = false → (s.part p).lb.ctl.getLsbD 0 = false →
      ∃ t, exec (.launchGo p tag) s = .next t ∧ (∃ e ∈ t.agenda, s.chron < e.cycle ∧ e.part = p ∧ e.instr = .launchCheck p (Fin.ofNat 8 (s.part p).slot.toNat))
        ∧ t.reqs = s.reqs ∧ t.helm = s.helm ∧ t.hif = s.hif ∧ t.fab = s.fab
        ∧ PartDoes s t p (fun q => { q with
            tag := tag
            lb := q.lb.latch (Fin.ofNat 8 q.slot.toNat)
            lastChart := none
            slots := q.slots.set (Fin.ofNat 8 q.slot.toNat)
              { st := .check, image := q.image.toNat, argbase := q.argbase.toNat, size := q.size, prio := q.prio, tag := tag,
                early := !s.helm.valid || s.helm.emerg, exit := (q.slots[Fin.ofNat 8 q.slot.toNat]).exit } }))
  ∧ (∀ (s : State) (p : PartIx) tag, let j : Fin 8 := Fin.ofNat 8 (s.part p).slot.toNat
      (s.part p).switching = false → ((s.part p).slots[j]).st.live = false →
      ∃ t, exec (.launchGo p tag) s = .next t ∧ ((t.part p).slots[j]).st = .check ∧ ((t.part p).slots[j]).epoch = 0 ∧ ((t.part p).slots[j]).tkseq = 0
        ∧ (t.part p).tag = tag ∧ ∃ e ∈ t.agenda, s.chron < e.cycle ∧ e.part = p ∧ e.instr = .launchCheck p j)
  ∧ (∀ (s : State) (p : PartIx) tag, (s.part p).switching = false → ((s.part p).slots[Fin.ofNat 8 (s.part p).slot.toNat]).st.live = true →
      exec (.launchGo p tag) s = .next (s.updPart p fun q => { q with lerr := true }))
  ∧ (∀ (s : State) (p : PartIx) tag, (s.part p).switching = true → exec (.launchGo p tag) s = .next (s.updPart p fun q =>
      { q with shadowWr := q.shadowWr ++ [{ off := 0x18, len := 4, val := 1 + 256 * tag.toNat }] }))
  ∧ (∀ (s : State) (p : PartIx) tag j, (s.part p).slot.toNat = Fin.val j → (s.part p).runSlot = some j → (s.part p).switching = false → (s.part p).halting = none →
      ∃ t, exec (.abort p tag) s = .next t ∧ (∃ x, (t.part p).halting = some x ∧ x.code = 0x45 ∧ x.kill = true ∧ x.cycle = s.chron)
        ∧ (t.part p).ckreq = false ∧ (t.part p).tag = tag ∧ (∃ v ∈ t.agenda, v.cycle = s.chron + 8 ∧ v.part = p ∧ v.instr = .partitionHalt)
        ∧ t.cores = s.cores ∧ t.cols = s.cols ∧ t.memory = s.memory ∧ t.reqs = s.reqs)
  ∧ (∀ (s : State) (p : PartIx) tag j o, (s.part p).slot.toNat = Fin.val j → (s.part p).runSlot = some j → (s.part p).switching = false →
      (s.part p).halting = some o → o.cycle ≠ s.chron → exec (.abort p tag) s = .next (s.updPart p fun q => { q with tag := tag, ckreq := false }))
  ∧ (∀ (s : State) (p : PartIx) tag j, (s.part p).slot.toNat = Fin.val j → ((s.part p).slots[j]).st = .check ∨ ((s.part p).slots[j]).st = .load
        ∨ ((s.part p).slots[j]).st = .ready ∨ ((s.part p).slots[j]).st = .preempted → (s.part p).switching = false →
      ∃ t, exec (.abort p tag) s = .next t ∧ ((t.part p).slots[j]).st = .killed ∧ ((t.part p).slots[j]).code = 0 ∧ ((t.part p).slots[j]).key = none
        ∧ (((s.part p).slots[j]).st = .preempted → (t.part p).shadow = none) ∧ (∀ i : Fin 8, i ≠ j → (t.part p).slots[i] = (s.part p).slots[i])
        ∧ t.cores = s.cores ∧ t.cols = s.cols ∧ t.memory = s.memory ∧ t.reqs = s.reqs)
  ∧ (∀ (s : State) (p : PartIx) tag, (s.part p).switching = false → ((s.part p).slots[Fin.ofNat 8 (s.part p).slot.toNat]).st.live = false →
      exec (.abort p tag) s = .next (s.updPart p fun q => { q with lerr := true }))
  ∧ ∀ (s : State) (p : PartIx) tag, (s.part p).switching = true → exec (.abort p tag) s = .next (s.updPart p fun q =>
      { q with shadowWr := q.shadowWr ++ [{ off := 0x18, len := 4, val := 2 + 256 * tag.toNat }] })

/-- A launch ends REJECTED with a code. -/
def Sys2Proof.Rejects (s t : State) (p : PartIx) (j : Fin 8) (code : Nat) : Prop :=
  ((t.part p).slots[j]).st = .rejected ∧ ((t.part p).slots[j]).code = BitVec.ofNat 8 code ∧ ((t.part p).slots[j]).key = none ∧ t.cores = s.cores
    ∧ t.cols = s.cols ∧ t.memory = s.memory ∧ t.reqs = s.reqs ∧ t.fab = s.fab

/-- A launch is in CHECK, written with VALID = 1 and no emergency, and neither is otherwise now (R84). -/
def Sys2Proof.Checked (s : State) (p : PartIx) (j : Fin 8) : Prop :=
  ((s.part p).slots[j]).st = .check ∧ s.helm.valid = true ∧ s.helm.emerg = false ∧ ((s.part p).slots[j]).early = false

/-- The check and the load of a launch (R84, R86 to R88): the tests 0x01 to 0x03 in order, then those on the chart, whose first to fail gives its code; a chart that passes
every test sets LOAD with the chart's bytes (whether its signature verifies is open to the model, log 8); a launch written before VALID = 1 or under an
emergency is rejected whatever they are by then (log 67); a chart that cannot be read is 0x04, and one whose page is refused is read again; the load fills
the sections with NOPs and writes the segments of every core, places the pinned entries of the object table in the handle caches (R189), and leaves the
slot READY with its entries, section sizes and leg table, naming no key slot. -/
def Sys2Proof.LaunchCheckAndLoad : Prop :=
  (∀ (s : State) p (j : Fin 8), ((s.part p).slots[j]).st ≠ .check → exec (.launchCheck p j) s = .next s)
  ∧ (∀ (s : State) p (j : Fin 8), ((s.part p).slots[j]).st = .check → (s.helm.valid = false ∨ s.helm.emerg = true ∨ ((s.part p).slots[j]).early = true) →
      ∃ t, exec (.launchCheck p j) s = .next t ∧ Rejects s t p j 0x01)
  ∧ (∀ (s : State) p (j : Fin 8), Checked s p j → s.nclu p = 0 →
      ∃ t, exec (.launchCheck p j) s = .next t ∧ Rejects s t p j 0x02)
  ∧ (∀ (s : State) p (j : Fin 8), Checked s p j → s.nclu p ≠ 0 →
      (((s.part p).slots[j]).image % 65536 ≠ 0 ∨ ((s.part p).slots[j]).argbase % 64 ≠ 0) → ∃ t, exec (.launchCheck p j) s = .next t ∧ Rejects s t p j 0x03)
  ∧ (∀ (s : State) p (j : Fin 8) code, Checked s p j → s.nclu p ≠ 0 → ((s.part p).slots[j]).image % 65536 = 0 → ((s.part p).slots[j]).argbase % 64 = 0 →
      s.chartRead p j 64 = (s, .bad code) → code ≠ 0x74 → ∃ t, exec (.launchCheck p j) s = .next t ∧ Rejects s t p j 0x04)
  ∧ (∀ (s : State) p (j : Fin 8) n, Checked s p j → s.nclu p ≠ 0 → ((s.part p).slots[j]).image % 65536 = 0 → ((s.part p).slots[j]).argbase % 64 = 0 →
      s.chartRead p j 64 = (s, .wait n) → exec (.launchCheck p j) s = .next (s.schedP (s.chron + n) p (.launchCheck p j)))
  ∧ (∀ (s : State) p (j : Fin 8) h b, Checked s p j → s.nclu p ≠ 0 →
      ((s.part p).slots[j]).image % 65536 = 0 → ((s.part p).slots[j]).argbase % 64 = 0 → s.chartRead p j 64 = (s, .ok h) →
      ((s.part p).slots[j]).key = none → let ks := chartU h 0x10 1
      let s' := s.updPart p fun q => q.updSlot j fun x => { x with key := some ks }
      s'.chartRead p j (max 64 (chartU h 8 4)) = (s', .ok b) →
      ∃ t, exec (.launchCheck p j) s = .next t
        ∧ (headerOk b (chartU h 8 4) = false → Rejects s t p j 0x05)
        ∧ (headerOk b (chartU h 8 4) = true → s'.chartTests p ks b ≠ 0 → Rejects s t p j (s'.chartTests p ks b))
        ∧ (headerOk b (chartU h 8 4) = true → s'.chartTests p ks b = 0 →
          (∃ e ∈ t.agenda, s.chron < e.cycle ∧ e.part = p ∧ e.instr = .overlayLoad p j) ∧ t.reqs = s.reqs ∧ t.helm = s.helm
          ∧ PartDoes s t p (fun q => { (q.updSlot j fun x => { x with key := some ks, img := b, got := [], asked := [], st := .load }) with
              lastChart := some (b.take (chartU b 0x0C 4)) })))
  ∧ (∀ (s : State) p (j : Fin 8), ((s.part p).slots[j]).st ≠ .load → exec (.overlayLoad p j) s = .next s)
  ∧ (∀ (s : State) p (j : Fin 8) l legs pins, ((s.part p).slots[j]).st = .load → let b := ((s.part p).slots[j]).img
      let s' := (List.zip (l.cores b) (s.coresOf p)).foldl (fun s y => s.loadCore y.2 j b l y.1) s
      (chartLayouts b).find? (fun l => l.nclu == s.nclu p) = some l → chartLegs b (chartU b 0x0C 4) = some legs → chartU b 0x20 4 = 0 →
      s'.pinScan p j = (s', .ok pins) →
      ∃ t, exec (.overlayLoad p j) s = .next t ∧ ((t.part p).slots[j]).st = .ready ∧ ((t.part p).slots[j]).legs = legs ∧ ((t.part p).slots[j]).key = none
        ∧ ((t.part p).slots[j]).entries = (l.cores b).map (·.entry)
        ∧ ((t.part p).slots[j]).sizes = (l.cores b).map (fun e => (e.seqsz, e.axusz, e.bkesz, e.vecsz))
        ∧ t.memory = s'.memory ∧ (∀ c, s.partOf c ≠ some p → t.core c = s.core c)
        ∧ (∀ c, s.partOf c = some p → t.core c = { s.core c with hcPinned := pins, hcUnpinned := (t.core c).hcUnpinned })
        ∧ t.cols = s.cols ∧ t.reqs = s.reqs ∧ (∀ q, q ≠ p → t.part q = s.part q))
  ∧ (∀ (s : State) p (j : Fin 8) l legs n, ((s.part p).slots[j]).st = .load → let b := ((s.part p).slots[j]).img
      let s' := (List.zip (l.cores b) (s.coresOf p)).foldl (fun s y => s.loadCore y.2 j b l y.1) s
      (chartLayouts b).find? (fun l => l.nclu == s.nclu p) = some l → chartLegs b (chartU b 0x0C 4) = some legs → chartU b 0x20 4 = 0 →
      s'.pinScan p j = (s', .wait n) → exec (.overlayLoad p j) s = .next (s'.schedP (s.chron + n) p (.overlayLoad p j)))
  ∧ (∀ (s : State) c (j : Fin 8) b l e, l.segs b e = [] → ∀ a, readByte (s.loadCore c j b l e).memory a =
      if imemKey c.val 0 j.val ≤ a ∧ a < imemKey c.val 0 j.val + 2 ^ 19 then 0 else readByte s.memory a)
  ∧ ∀ (s : State) c (j : Fin 8) b e g, let d := (b.drop g.src).take g.len
      (g.type < 4 → s.loadSeg c j b e g = { s with memory := writeBytes s.memory (imemKey c.val (e.start g.type + g.target) j.val) d })
      ∧ (g.type = 4 → s.loadSeg c j b e g = { s with memory := writeBytes s.memory (spadKey c.val g.target) d })
      ∧ (g.type = 5 → s.loadSeg c j b e g = { s with memory := writeBytes s.memory (sliceKey c.val g.target) d })
      ∧ (g.type = 6 → ∀ a, readByte (s.loadSeg c j b e g).memory a = if spadKey c.val g.target ≤ a ∧ a < spadKey c.val g.target + g.len then 0 else readByte s.memory a)

/-- The launch of a context (R80 to R88). -/
def Obligations.LaunchEvents : Prop := LaunchMailbox ∧ LaunchCheckAndLoad


/-- CONTEXT_START (R89, R171, R192): every sequencer of the partition begins at its entry at this cycle with g1 = ARGBASE, g2 = its logical core, g3 = the number of clusters, every other
register 0, every other engine stopped, leg 0; HVEC, the range registers and row windows hold what the supervisor preserved across launch; the slot is in RUN with
PROGRESS cleared. A slot not READY, or a partition that runs one, is left alone. STAT_WINDOW_START begins the windows of a core (R243). -/
def Sys2Proof.ContextStart : Prop :=
  (∀ (s : State) p (j : Fin 8), ((s.part p).slots[j]).st = .ready → (s.part p).runSlot = none → ∃ t, exec (.contextStart p j) s = .next t
      ∧ (t.part p).runSlot = some j ∧ ((t.part p).slots[j]).leg = 0 ∧ ((t.part p).slots[j]).course = 0 ∧ ((t.part p).slots[j]).ndcyc = false
      ∧ (t.part p).legs = ((s.part p).slots[j]).legs ∧ t.memory = s.memory ∧ t.cols = s.cols ∧ (∀ q, q ≠ p → t.part q = s.part q)
      ∧ (∀ c, s.partOf c ≠ some p → t.core c = s.core c)
      ∧ ∀ c, s.partOf c = some p → let k := t.core c
          let pc : Int := ((((s.part p).slots[j]).entries.getD (s.logical p c) 0 : Nat) : Int)
          k.seq.gpr 1 = BitVec.ofNat 64 ((s.part p).slots[j]).argbase ∧ k.seq.gpr 2 = BitVec.ofNat 64 (s.logical p c) ∧ k.seq.gpr 3 = BitVec.ofNat 64 (s.nclu p)
          ∧ (∀ r : Fin 32, r ≠ 1 → r ≠ 2 → r ≠ 3 → k.seq.gpr r = 0) ∧ (∀ r, k.seq.tnt r = false) ∧ k.seq.sup = false
          ∧ k.seq.q.st = .running ∧ k.seq.q.pc = pc ∧ k.seq.q.base = s.chron ∧ k.axu = {} ∧ k.bke = {} ∧ k.vec = {} ∧ k.cpe = {} ∧ k.pipe = {}
          ∧ k.seq.hvec = (s.core c).seq.hvecL ∧ k.ctl.rng = (s.core c).ctl.rngL ∧ k.ctl.rwin = (s.core c).ctl.rwinL ∧ k.ctl.secnt = (s.core c).ctl.secnt
          ∧ k.ctl.legno = 0 ∧ k.ctl.tksel = 0x11 ∧ k.ctl.sizecls = ((s.part p).slots[j]).size ∧ k.hcPinned = (s.core c).hcPinned)
  ∧ (∀ (s : State) p (j : Fin 8), ((s.part p).slots[j]).st ≠ .ready ∨ (s.part p).runSlot.isSome = true → exec (.contextStart p j) s = .next s)
  ∧ ∀ s : State, exec .statWindowStart s = .next (s.upd s.cur fun k => { k with stat := { k.stat with start := s.chron, wc := Vector.replicate 6 0, acted := 0 } })

/-- Key slots and attestation (R78, R91): a doubleword written to a slot no context names takes effect, bytes 56 to 63 stay; one to a named slot is held until no
context names it; a challenge is answered with the digest of the certificates and the nonce, signed with the key's next signature, a measurement
with its block, signed on request; after 2^20 signatures an error is answered instead. -/
def Sys2Proof.KeysAndAttestation : Prop :=
  (∀ (s : State) (j : Fin 8) (dw : Fin 8) v, s.keyNamed j.val = false → dw ≠ 7 → ∃ t, exec (.keySlotWrite j dw v) s = .next t
      ∧ t = { s with helm := { s.helm with keys := t.helm.keys } } ∧ (∀ i : Fin 8, i ≠ j → t.helm.keys[i] = s.helm.keys[i])
      ∧ ∀ d : Fin 8, fld (t.helm.keys[j]).toNat (64 * d.val + 63) (64 * d.val) = if d = dw then v.toNat else fld (s.helm.keys[j]).toNat (64 * d.val + 63) (64 * d.val))
  ∧ (∀ (s : State) (j : Fin 8) v, s.keyNamed j.val = false → exec (.keySlotWrite j 7 v) s = .next s)
  ∧ (∀ (s : State) (j : Fin 8) (dw : Fin 8) v, s.keyNamed j.val = true → exec (.keySlotWrite j dw v) s = .next
      { s with helm := { s.helm with keyHeld := s.helm.keyHeld ++ [(j.val, dw.val, v)] } })
  ∧ (∀ (s : State) (j : Fin 8), s.keyNamed j.val = true → exec (.keySlotWriteApply j) s = .next s)
  ∧ (∀ (s : State) (j dw : Fin 8) v, s.keyNamed j.val = false → s.helm.keyHeld = [(j.val, dw.val, v)] → ∃ t, exec (.keySlotWriteApply j) s = .next t
      ∧ t.helm.keyHeld = [] ∧ exec (.keySlotWrite j dw v) { s with helm := { s.helm with keyHeld := [] } } = .next t)
  ∧ (∀ (s : State) (j : Fin 8), s.keyNamed j.val = false → ∃ t, exec (.keySlotWriteApply j) s = .next t ∧ t.helm.keyHeld = s.helm.keyHeld.filter (fun x => x.1 != j.val)
      ∧ (∀ i : Fin 8, i ≠ j → t.helm.keys[i] = s.helm.keys[i]) ∧ t.memory = s.memory ∧ t.parts = s.parts ∧ t.cores = s.cores)
  ∧ (∀ (s : State) nonce, s.helm.signs < 2 ^ 20 → let b := [0x12, 0x03, 0x00, 0x01] ++ Config.sha256 Config.certificates ++ toBytes 32 nonce
      exec (.spdmChallenge nonce) s = .next { s with helm := { s.helm with signs := s.helm.signs + 1, spdmOut := s.helm.spdmOut ++ [b ++ Config.attest s.helm.signs b] } })
  ∧ (∀ (s : State) nonce, 2 ^ 20 ≤ s.helm.signs → exec (.spdmChallenge nonce) s = .next { s with helm := { s.helm with spdmOut := s.helm.spdmOut ++ [spdmError] } })
  ∧ (∀ (s : State) i, let b := [0x12, 0x60, 0x00, BitVec.ofNat 8 i] ++ (s.measurement i).getD []
      exec (.spdmGetMeasurements i false) s = .next { s with helm := { s.helm with spdmOut := s.helm.spdmOut ++ [b] } }
      ∧ (s.helm.signs < 2 ^ 20 → exec (.spdmGetMeasurements i true) s = .next
          { s with helm := { s.helm with signs := s.helm.signs + 1, spdmOut := s.helm.spdmOut ++ [b ++ Config.attest s.helm.signs b] } })
      ∧ (2 ^ 20 ≤ s.helm.signs → exec (.spdmGetMeasurements i true) s = .next { s with helm := { s.helm with spdmOut := s.helm.spdmOut ++ [spdmError] } }))
  ∧ ∀ s : State, s.measurement 1 = some Config.romDigest ∧ s.measurement 2 = some (Config.fwDigest s.helm.fwver.toNat)
      ∧ (∀ p : PartIx, s.measurement (16 + p.val) = some (((s.part p).lastChart.map Config.sha256).getD (List.replicate 32 0)))
      ∧ s.measurement 3 = some (Config.sha256 s.helm.keyBytes) ∧ ∀ i, i = 0 ∨ 4 ≤ i ∧ i < 16 ∨ 64 ≤ i → s.measurement i = none

/-- The start of a context, the key slots and attestation (R78, R89 to R91). -/
def Obligations.ContextAndKeyEvents : Prop := ContextStart ∧ KeysAndAttestation


/-! ## Events: the Helm's scheduler, pre-emption, the Lookout -/

/-- Outside the partition's own fields, the schedule and the free values nothing changes. -/
def Sys2Proof.PartOnly (s t : State) (p : PartIx) : Prop :=
  (∀ q, q ≠ p → t.part q = s.part q) ∧ t.cores = s.cores ∧ t.cols = s.cols ∧ t.memory = s.memory ∧ t.reqs = s.reqs ∧ t.chron = s.chron ∧ t.inputs = s.inputs
    ∧ t.helm = s.helm ∧ t.fab = s.fab ∧ t.mig = s.mig ∧ t.ms = s.ms

/-- A pre-emption that begins (R160, R161): at this cycle, of the running slot; a core of a free leg and of no completed fix stops at once, one of a fixed leg
whose due cycle is more than 1,024 × PBUDGET away at the first step boundary 64 cycles ahead or later, every other one is deferred. -/
def Sys2Proof.Preempts (s t : State) (p : PartIx) (j : Fin 8) (hold : Bool) : Prop :=
  (∃ x, (t.part p).outgoing = some x ∧ x.slot = j.val ∧ x.at_ = s.chron ∧ x.sethold = hold ∧ x.stopped = none
      ∧ ∀ c, s.partOf c = some p →
          (s.inFix p c false = true → c.val ∈ x.deferred)
          ∧ (s.inFix p c false = false → s.fixedLeg c = false → c.val ∉ x.deferred ∧ ∀ tb, (c.val, tb) ∉ x.cut)
          ∧ (s.inFix p c false = false → s.fixedLeg c = true → (s.core c).ctl.due = none → c.val ∈ x.deferred)
          ∧ (s.inFix p c false = false → s.fixedLeg c = true → ∀ d, (s.core c).ctl.due = some d →
              (d ≤ s.chron + 1024 * (s.part p).pbudget.toNat → c.val ∈ x.deferred)
              ∧ (s.chron + 1024 * (s.part p).pbudget.toNat < d → (s.core c).ctl.tRel ≤ s.chron →
                  ∃ n, (c.val, (s.core c).ctl.tRel + 512 * n) ∈ x.cut ∧ s.chron + 64 ≤ (s.core c).ctl.tRel + 512 * n
                    ∧ (s.core c).ctl.tRel + 512 * n < s.chron + 576)))
    ∧ ∃ v ∈ t.agenda, v.cycle = s.chron + 8 ∧ v.part = p ∧ v.instr = .preemptionComplete

/-- The scheduler (R140 to R142, R160): with no context in RUN the runnable context of the highest PRIO is switched in, 560 cycles, SWITCHING set; a running
one is pre-empted for one of higher PRIO, or at the end of its quantum for a peer; a request while the partition halts or switches does nothing, one while it is pre-empted
already is merged with that. -/
def Obligations.Scheduling : Prop :=
  (∀ s : State, let p := s.curPart
      (s.part p).switching = true ∨ (s.part p).halting.isSome = true ∨ (s.part p).outgoing.isSome = true →
      exec .helmSchedule s = .next (s.updPart p fun q => { q with schedDue := none }))
  ∧ (∀ (s : State) (j : Fin 8), let q := s.part s.curPart
      q.switching = false → q.halting = none → q.outgoing = none → q.runSlot = none → q.preSlot = none → q.phold = false →
      (q.slots[j]).st = .ready → q.slhold.getLsb j = false →
      (∀ i : Fin 8, i ≠ j → (q.slots[i]).st = .ready → q.slhold.getLsb i = false → (q.slots[i]).prio.toNat < (q.slots[j]).prio.toNat) →
      ∃ t, exec .helmSchedule s = .next t ∧ (t.part s.curPart).switching = true ∧ (t.part s.curPart).incoming = some j.val ∧ (t.part s.curPart).outgoing = none
        ∧ (t.part s.curPart).slots = q.slots ∧ PartOnly s t s.curPart ∧ ∃ v ∈ t.agenda, v.cycle = s.chron + 560 ∧ v.part = s.curPart ∧ v.instr = .switchEnd)
  ∧ (∀ (s : State) (r j : Fin 8), let q := s.part s.curPart
      q.switching = false → q.halting = none → q.outgoing = none → q.runSlot = some r → q.phold = false → q.slhold.getLsb j = false →
      (q.preSlot = none ∧ (q.slots[j]).st = .ready ∨ q.preSlot = some j) → (q.slots[r]).prio.toNat < (q.slots[j]).prio.toNat →
      exec .helmSchedule s = .next ((s.updPart s.curPart fun q => { q with schedDue := none }).schedP s.chron s.curPart .preemptionRequest))
  ∧ (∀ (s : State) (r j : Fin 8), let q := s.part s.curPart
      q.switching = false → q.halting = none → q.outgoing = none → q.runSlot = some r → q.phold = false → q.slhold.getLsb j = false →
      (q.preSlot = none ∧ (q.slots[j]).st = .ready ∨ q.preSlot = some j) → (q.slots[j]).prio = (q.slots[r]).prio → q.quant ≠ 0 →
      (q.slots[r]).since + 1024 * q.quant.toNat ≤ s.chron →
      exec .quantumExpiry s = .next (s.schedP s.chron s.curPart .preemptionRequest))
  ∧ (∀ (s : State) (r : Fin 8), let q := s.part s.curPart
      q.runSlot = some r → s.chron < (q.slots[r]).since + 1024 * q.quant.toNat ∨ q.quant = 0 → exec .quantumExpiry s = .next s)
  ∧ (∀ (s : State) j, Running s s.curPart → (s.part s.curPart).runSlot = some j → (s.part s.curPart).outgoing = none → ∃ t, exec .preemptionRequest s = .next t
      ∧ Preempts s t s.curPart j false ∧ PartOnly s t s.curPart)
  ∧ (∀ s : State, (s.part s.curPart).runSlot = none ∨ (s.part s.curPart).switching = true ∨ (s.part s.curPart).halting.isSome = true →
      exec .preemptionRequest s = .next s)
  ∧ (∀ s : State, (s.part s.curPart).runSlot = none → exec .quantumExpiry s = .next s)
  ∧ (∀ (s : State) x, Running s s.curPart → (s.part s.curPart).outgoing = some x → ∃ t, exec .preemptionRequest s = .next t
      ∧ (t.part s.curPart).outgoing = some x ∧ PartOnly s t s.curPart ∧ t.agenda = s.agenda)
  ∧ (∀ s : State, (s.part s.curPart).outgoing = none → exec .preemptionComplete s = .next s)
  ∧ (∀ (s : State) x, (s.part s.curPart).outgoing = some x → x.stopped.isSome = true ∨ (s.part s.curPart).halting.isSome = true → exec .preemptionComplete s = .next s)
  ∧ (∀ (s : State) x, let p := s.curPart
      (s.part p).outgoing = some x → x.stopped = none → (s.part p).halting = none → (∃ c, s.partOf c = some p ∧ s.coreStops p x c = false ∧ tget x.closed c.val = none) →
      ∃ t, exec .preemptionComplete s = .next t ∧ (t.part p).switching = (s.part p).switching ∧ t.memory = s.memory ∧ t.cores = s.cores
        ∧ ∃ v ∈ t.agenda, v.cycle = s.chron + 1 ∧ v.part = p ∧ v.instr = .preemptionComplete)
  ∧ ∀ (s : State) x, let p := s.curPart
      (s.part p).outgoing = some x → x.stopped = none → x.cut = [] → x.deferred = [] → x.sethold = false → x.at_ + 8 ≤ s.chron → (s.part p).halting = none → (s.part p).preSlot = none →
      (s.part p).fixes = [] → (∀ c, s.partOf c = some p → (s.core c).pipe.infl = [] ∧ (s.core c).axu.stqA = [] ∧ (s.core c).cpe.cmds = [] ∧ ∀ b : Fin 32, (s.col c).rows[b] = .closed) →
      (∀ r ∈ s.reqs, r.who < 5 → s.partOf r.core ≠ some p) →
      ∃ t, exec .preemptionComplete s = .next t ∧ (t.part p).switching = true ∧ (∃ y, (t.part p).outgoing = some y ∧ y.slot = x.slot ∧ y.stopped = some s.chron)
        ∧ (∃ v ∈ t.agenda, v.part = p ∧ v.instr = .switchEnd ∧ v.cycle = s.chron + (if (t.part p).incoming.isSome then 1120 else 560))
        ∧ t.memory = s.memory ∧ t.cores = s.cores ∧ t.cols = s.cols ∧ ∀ q, q ≠ p → t.part q = s.part q

/-- The end of a switch (R89, R142, R166): a READY context switched in runs from its entries; one switched out is PREEMPTED with its cores in the shadow; one switched
in from the shadow has its registers again; a fix held for it is released 48 cycles later, any other group goes on at its resume-fix (R162). -/
def Sys2Proof.SwitchEvents : Prop :=
  (∀ s : State, (s.part s.curPart).switching = false → exec .switchEnd s = .next s)
  ∧ (∀ (s : State) (j : Fin 8), let q := s.part s.curPart
      q.switching = true → q.outgoing = none → q.incoming = some j.val → (q.slots[j]).st = .ready → q.runSlot = none → q.shadow = none → q.shadowWr = [] → q.tkPend = [] → q.swapFault = none →
      ∃ t, exec .switchEnd s = .next t ∧ (t.part s.curPart).switching = false ∧ (t.part s.curPart).runSlot = some j ∧ t.memory = s.memory ∧ t.cols = s.cols
        ∧ (∀ p, p ≠ s.curPart → t.part p = s.part p) ∧ (∀ c, s.partOf c ≠ some s.curPart → t.core c = s.core c)
        ∧ ∀ c, s.partOf c = some s.curPart → (t.core c).seq.q.st = .running
            ∧ (t.core c).seq.q.pc = (((q.slots[j]).entries.getD (s.logical s.curPart c) 0 : Nat) : Int)
            ∧ (t.core c).seq.gpr 1 = BitVec.ofNat 64 (q.slots[j]).argbase ∧ (t.core c).seq.gpr 2 = BitVec.ofNat 64 (s.logical s.curPart c))
  ∧ (∀ (s : State) x (j : Fin 8), let q := s.part s.curPart
      q.switching = true → q.outgoing = some x → x.slot = j.val → x.sethold = false → q.incoming = none → q.shadowWr = [] → q.tkPend = [] → q.swapFault = none →
      ∃ t, exec .switchEnd s = .next t ∧ (t.part s.curPart).switching = false ∧ (t.part s.curPart).outgoing = none ∧ ((t.part s.curPart).slots[j]).st = .preempted
        ∧ (∃ h, (t.part s.curPart).shadow = some h ∧ h.slot = j.val ∧ h.reqs = x.reqs ∧ h.rows = x.rows ∧ ∀ c, s.partOf c = some s.curPart → tget h.cores c.val = some (s.core c))
        ∧ t.memory = s.memory ∧ t.cols = s.cols ∧ (∀ p, p ≠ s.curPart → t.part p = s.part p) ∧ (∀ c, s.partOf c ≠ some s.curPart → t.core c = s.core c))
  ∧ (∀ (s : State) h (j : Fin 8), let q := s.part s.curPart
      q.switching = true → q.outgoing = none → q.incoming = some j.val → (q.slots[j]).st = .preempted → q.shadow = some h → q.runSlot = none → q.shadowWr = [] → q.tkPend = [] →
      q.swapFault = none → ∃ t, exec .switchEnd s = .next t ∧ (t.part s.curPart).switching = false ∧ (t.part s.curPart).runSlot = some j ∧ (t.part s.curPart).shadow = none
        ∧ t.memory = s.memory ∧ t.cols = s.cols
        ∧ ∀ c k, s.partOf c = some s.curPart → tget h.cores c.val = some k → (∀ r, (t.core c).seq.gpr r = k.seq.gpr r ∧ (t.core c).seq.tnt r = k.seq.tnt r)
            ∧ (t.core c).seq.q.pc = k.seq.q.pc ∧ (t.core c).seq.sup = k.seq.sup ∧ (t.core c).ctl.legno = k.ctl.legno ∧ (t.core c).ctl.tok = k.ctl.tok ∧ (t.core c).axu.a = k.axu.a
            ∧ (t.core c).vec.v = k.vec.v ∧ (t.core c).bke.win = k.bke.win ∧ (t.core c).bke.vis = k.bke.vis ∧ s.chron + 48 ≤ (t.core c).seq.q.notBefore)
  ∧ (∀ (s : State) p g, (∀ f ∈ (s.part p).fixes, f.grp ≠ g) → ∃ t, exec (.resumeFix p g) s = .next t
      ∧ (∀ c, ∃ o, t.core c = { s.core c with cpe := { (s.core c).cpe with poll := o } }) ∧ t.parts = s.parts ∧ t.memory = s.memory
      ∧ t.cols = s.cols ∧ (∀ e ∈ s.agenda, e ∈ t.agenda))
  ∧ (∀ (s : State) p g f, f ∈ (s.part p).fixes → f.grp = g → (∀ x ∈ (s.part p).fixes, x.grp = g → x = f) → s.replaying p = false →
      f.fabric = false ∨ (s.part p).relHeld.isSome = true →
      exec (.resumeFix p g) s = exec (.fixRelease p g) (s.updPart p fun q => { q with fixes := q.fixes.map fun x => if x.grp = g then { x with held := false } else x }))
  ∧ ∀ (s : State) p leg, exec (.checkpointRequest p leg) s = .next (s.updPart p fun q => { q with ckleg := leg, ckreq := true })

/-- The Lookout (R143, R144): each firing is noted in LKSTAT unless it holds one; T1 requests pre-emption and will hold the slot, T2 kills the running context with
0x45, T3 fences the core, takes it out of the survey, and kills the running context with 0x75. -/
def Sys2Proof.LookoutEvents : Prop :=
  (∀ (s : State) c e p j, s.partOf c = some p → Running s p → (s.part p).runSlot = some j → (s.part p).outgoing = none → ∃ t, exec (.lookoutT1 c e) s = .next t
      ∧ Preempts s t p j true ∧ (t.part p).lkstat = (if (s.part p).lkstat.getLsbD 15 then (s.part p).lkstat else BitVec.ofNat 16 (c.val + 2 ^ 9 * e.num + 2 ^ 12 + 2 ^ 15))
      ∧ t.memory = s.memory ∧ t.cols = s.cols ∧ (t.core c).seq.g = (s.core c).seq.g ∧ (∀ x, x ≠ c → t.core x = s.core x) ∧ ∀ q, q ≠ p → t.part q = s.part q)
  ∧ (∀ (s : State) c e p, s.partOf c = some p → Running s p → ∃ t, exec (.lookoutT2 c e) s = .next t
      ∧ (∃ x, (t.part p).halting = some x ∧ x.code = 0x45 ∧ x.kill = true ∧ x.cycle = s.chron) ∧ (t.part p).ckreq = false
      ∧ (t.part p).lkstat = (if (s.part p).lkstat.getLsbD 15 then (s.part p).lkstat else BitVec.ofNat 16 (c.val + 2 ^ 9 * e.num + 2 ^ 13 + 2 ^ 15))
      ∧ (∃ v ∈ t.agenda, v.cycle = s.chron + 8 ∧ v.part = p ∧ v.instr = .partitionHalt)
      ∧ t.memory = s.memory ∧ t.cols = s.cols ∧ (∀ x, x ≠ c → t.core x = s.core x) ∧ ∀ q, q ≠ p → t.part q = s.part q)
  ∧ ∀ (s : State) c e p, s.partOf c = some p → Running s p → ∃ t, exec (.lookoutT3 c e) s = .next t ∧ (t.core c).killed = true ∧ (t.col c).live = false
      ∧ t.helm.gen = s.helm.gen + 2 ∧ (∃ x, (t.part p).halting = some x ∧ x.code = 0x75 ∧ x.kill = true ∧ x.cycle = s.chron)
      ∧ (t.part p).lkstat = (if (s.part p).lkstat.getLsbD 15 then (s.part p).lkstat else BitVec.ofNat 16 (c.val + 2 ^ 9 * e.num + 2 ^ 12 * 3 + 2 ^ 15))
      ∧ (∃ v ∈ t.agenda, v.cycle = s.chron + 8 ∧ v.part = p ∧ v.instr = .partitionHalt)
      ∧ t.memory = s.memory ∧ (∀ x, x ≠ c → t.core x = s.core x ∧ t.col x = s.col x) ∧ ∀ q, q ≠ p → t.part q = s.part q

/-- Replay (R147): outside replay, or without a recorded input whose stamp is reached, nothing; a recorded token give is credited to the running context, its record consumed, and
the next input looked for; a recorded posted write of the host or of a peer is a request of its own, made through the partition's tables. -/
def Sys2Proof.ReplayInjection : Prop :=
  (∀ s : State, s.replaying s.curPart = false → exec .replayInjection s = .next s)
  ∧ (∀ s : State, s.nextInput s.curPart = none → exec .replayInjection s = .next s)
  ∧ (∀ (s : State) r, s.replaying s.curPart = true → s.nextInput s.curPart = some r → r.kind = 2 ∨ r.kind = 3 →
      let u := s.consumeRecord s.curPart r
      let q : Req := { id := s.nextId, who := if r.kind = 2 then 5 else 6, core := 0, part := some s.curPart, kind := .write r.payload, ia := r.arg, n := r.payload.length,
                       dest := .none_, issued := s.chron }
      exec .replayInjection s = .next ((State.walkReq { u with nextId := s.nextId + 1, reqs := s.reqs ++ [q] } q).schedP s.chron s.curPart .replayInjection))
  ∧ ∀ (s : State) r (c : CoreIx), s.replaying s.curPart = true → s.nextInput s.curPart = some r → r.kind = 5 → fld r.arg 8 0 = c.val → Running s s.curPart →
      let l := (s.core c).ctl.ltc
      let j := Fin.ofNat 4 (fld r.arg 10 9)
      let l2 := l.set j (BitVec.ofNat 12 ((l[j]).toNat + fld r.arg 18 11))
      (l[j]).toNat + fld r.arg 18 11 ≤ 4095 → ∃ t, exec .replayInjection s = .next t
      ∧ t.core c = { s.core c with ctl := { (s.core c).ctl with ltc := l2 } }
      ∧ (∀ x, x ≠ c → t.core x = s.core x) ∧ t.memory = s.memory ∧ t.cols = s.cols ∧ (∀ q, q ≠ s.curPart → t.part q = s.part q)
      ∧ (r.at_ ∈ (t.part s.curPart).lb.used ∨ ∃ h, r.at_ < h ∧ (t.part s.curPart).lb.head = BitVec.ofNat 64 h)
      ∧ ∃ v ∈ t.agenda, v.cycle = s.chron ∧ v.part = s.curPart ∧ v.instr = .replayInjection

/-- The end of a switch, the Lookout and replay (R89, R142 to R147, R162, R166). -/
def Obligations.SwitchLookoutAndReplay : Prop := SwitchEvents ∧ LookoutEvents ∧ ReplayInjection


/-! ## Events: fixes -/

/-- The cores of a partition in a group of fix scope sc: one cluster, one stack, or all of it (R128). -/
def Sys2Proof.InGroup (s : State) (p : PartIx) (g : GroupIx) (x : CoreIx) : Prop :=
  s.partOf x = some p ∧ (g.val < 48 → x.val / 6 = g.val) ∧ (48 ≤ g.val → g.val < 56 → x.val / 36 + 48 = g.val)

/-- CORE_ARRIVAL (R129, R130, R132): a core that is not ready looks again in the next cycle; one that is ready has arrived at this cycle, nothing else of it changed, and
the last of its group schedules the completion at the greatest due cycle; two legs in one group, or a core of it that has halted, raise 0x43. -/
def Sys2Proof.CoreArrivals : Prop :=
  (∀ s : State, s.me.seq.fix = none → exec .coreArrival s = .next s)
  ∧ (∀ (s : State) f a, s.me.seq.fix = some f → f.arrived = some a → exec .coreArrival s = .next s)
  ∧ (∀ (s : State) n t0 p d e, s.me.seq.fix = some ⟨n, none, t0⟩ → s.partOf s.cur = some p → (s.part p).leg n = some d → s.preStopped s.cur = false →
      e ∈ s.agenda → e.cycle ≤ s.chron → endsCycle e.instr = false → exec .coreArrival s = .next (s.schedC s.chron s.cur .coreArrival))
  ∧ (∀ (s : State) n t0 p d, s.me.seq.fix = some ⟨n, none, t0⟩ → s.partOf s.cur = some p → (s.part p).leg n = some d → s.preStopped s.cur = false →
      (∀ e ∈ s.agenda, e.cycle ≤ s.chron → endsCycle e.instr = true) → s.arrivalReady s.cur = false →
      exec .coreArrival s = .next (s.schedC (s.chron + 1) s.cur .coreArrival))
  ∧ (∀ (s : State) n t0 p d, s.me.seq.fix = some ⟨n, none, t0⟩ → s.partOf s.cur = some p → (s.part p).leg n = some d → s.preStopped s.cur = false →
      (∀ e ∈ s.agenda, e.cycle ≤ s.chron → endsCycle e.instr = true) → s.arrivalReady s.cur = true →
      (d.scope ≠ 4 ∨ s.fixedLeg s.cur = true ∨ ∀ x ∈ s.me.pipe.sentOn, x.port = 48) →
      (∀ x, x ≠ s.cur → s.partOf x = some p → (s.core x).seq.halted = none ∧ (s.core x).seq.haltWait = none ∧ ∀ f, (s.core x).seq.fix = some f → f.arrived.isSome = true → f.leg = n) →
      ∃ t, exec .coreArrival s = .next t
        ∧ t.me = { s.me with seq := { s.me.seq with fix := some ⟨n, some s.chron, t0⟩ } }
        ∧ (∀ x, x ≠ s.cur → t.core x = s.core x) ∧ t.parts = s.parts ∧ t.memory = s.memory ∧ t.cols = s.cols ∧ t.reqs = s.reqs
        ∧ ((∃ x, InGroup s p (groupIx s.cur d.scope) x ∧ t.arrivalOf x = none) → t.agenda = s.agenda)
        ∧ ((∀ x, InGroup s p (groupIx s.cur d.scope) x → ∃ a, t.arrivalOf x = some (n, a)) →
            ∃ v ∈ t.agenda, v.part = p ∧ v.instr = .fixComplete p (groupIx s.cur d.scope) ∧ s.chron ≤ v.cycle
              ∧ (∀ x a, InGroup s p (groupIx s.cur d.scope) x → t.arrivalOf x = some (n, a) → t.dueOf x a ≤ v.cycle)
              ∧ (v.cycle = s.chron ∨ ∃ x a, InGroup s p (groupIx s.cur d.scope) x ∧ t.arrivalOf x = some (n, a) ∧ v.cycle = t.dueOf x a)))
  ∧ (∀ (s : State) n t0 p d x, s.me.seq.fix = some ⟨n, none, t0⟩ → s.partOf s.cur = some p → (s.part p).leg n = some d → s.preStopped s.cur = false →
      (∀ e ∈ s.agenda, e.cycle ≤ s.chron → endsCycle e.instr = true) → s.arrivalReady s.cur = true →
      (d.scope ≠ 4 ∨ s.fixedLeg s.cur = true ∨ ∀ x ∈ s.me.pipe.sentOn, x.port = 48) →
      x ≠ s.cur → InGroup s p (groupIx s.cur d.scope) x → (s.core x).seq.halted.isSome = true → Running s p →
      ∃ t, exec .coreArrival s = .next t ∧ Halts s t p .seq 0x43 s.me.seq.q.pc ∧ t.memory = s.memory ∧ t.cores = s.cores)
  ∧ (∀ (s : State) (c : CoreIx) a, s.fixedLeg c = false → s.dueOf c a = a)
  ∧ ∀ (s : State) (c : CoreIx) a d, s.fixedLeg c = true → (s.core c).ctl.due = some d → s.dueOf c a = d

/-- DUE_CYCLE_MISS (R130): a core of the leg that has not arrived by its due cycle raises 0x41 then; one that has, that has gone on, or whose context has ended, does
not; it is looked at when all else of the cycle is done. -/
def Sys2Proof.DueCycleMisses : Prop :=
  (∀ (s : State) c leg, (s.core c).ctl.legno ≠ leg ∨ (s.core c).ctl.due ≠ some s.chron ∨ (s.arrivalOf c).isSome = true ∨ s.runs c = false → exec (.dueCycleMiss c leg) s = .next s)
  ∧ (∀ (s : State) (c : CoreIx) p, s.partOf c = some p → (s.core c).ctl.due = some s.chron → s.arrivalOf c = none → Running s p → s.cutCore c = false →
      (∀ e ∈ s.agenda, e.cycle ≤ s.chron → ∃ x l, e.instr = .dueCycleMiss x l) →
      ∃ t, exec (.dueCycleMiss c (s.core c).ctl.legno) s = .next t
        ∧ (∃ x, (t.part p).halting = some x ∧ x.code = 0x41 ∧ x.cycle = s.chron ∧ x.core = s.logical p c ∧ x.eng = 0 ∧ x.pc = (s.core c).seq.q.pc ∧ x.kill = false)
        ∧ (∃ v ∈ t.agenda, v.cycle = s.chron + 8 ∧ v.part = p ∧ v.instr = .partitionHalt) ∧ t.memory = s.memory ∧ t.cores = s.cores)
  ∧ ∀ (s : State) (c : CoreIx) p e, s.partOf c = some p → (s.core c).ctl.due = some s.chron → s.arrivalOf c = none → (s.part p).runSlot.isSome = true → s.cutCore c = false →
      e ∈ s.agenda → e.cycle ≤ s.chron → (∀ x l, e.instr ≠ .dueCycleMiss x l) →
      exec (.dueCycleMiss c (s.core c).ctl.legno) s = .next (s.schedC s.chron c (.dueCycleMiss c (s.core c).ctl.legno))

/-- Arrival at a fix and the due cycle (R129, R130, R132). -/
def Obligations.FixArrivals : Prop := CoreArrivals ∧ DueCycleMisses


/-- Whether a selection row is valid and has the bits of the keys SZ, H, P and B (R125, R136). -/
def Sys2Proof.RowHas (w : BitVec 64) (sz h p b : Nat) : Prop :=
  w.getLsbD 31 = true ∧ w.getLsbD sz = true ∧ w.getLsbD (16 + h) = true ∧ w.getLsbD (20 + p) = true ∧ w.getLsbD (24 + b) = true

/-- FIX_COMPLETE (R40, R130, R131, R136): the refresh period changes of the group's columns that were pending before the fix started apply; the first row that has the keys gives the course, and the
group is released D cycles later, 8 at cluster, 16 at stack and 48 at device scope; with no such row 0x44 is raised. -/
def Sys2Proof.FixCompletes : Prop :=
  (∀ (s : State) p g, s.grpCores p g = [] → exec (.fixComplete p g) s = .next s)
  ∧ (∀ (s : State) p g n d, (∀ x ∈ s.grpCores p g, (∃ a, s.arrivalOf x = some (n, a)) ∧ groupIx x d.scope = g) → s.grpCores p g ≠ [] → (s.part p).leg n = some d → Running s p →
      (∀ f ∈ (s.part p).fixes, f.grp ≠ g) → (s.part p).outgoing = none → (s.part p).lb.act = false → (s.part p).ckreq = false → d.scope ≤ 3 →
      let cs := s.grpCores p g
      let sz := (cs.map fun c => (s.core c).ctl.sizecls.toNat).foldl max 0
      ∃ t, exec (.fixComplete p g) s = .next t ∧ t.cores = s.cores ∧ t.memory = s.memory ∧ t.reqs = s.reqs ∧ (∀ q, q ≠ p → t.part q = s.part q)
        ∧ (∀ x, t.col x = if x ∈ cs ∧ (s.col x).hotpend = true ∧ (s.col x).hotAt < s.fixStart cs then { s.col x with hot := !(s.col x).hot, hotpend := false } else s.col x)
        ∧ (let h := (if ∃ x ∈ cs, (t.col x).half = true then 1 else 0) + (if ∃ x ∈ cs, (t.col x).hot = true then 2 else 0)
           let b := s.balance p cs d
           (∀ (i : Nat) (w : BitVec 64), d.sel[i]? = some w → RowHas w sz h (s.part p).pwrcls.toNat b →
              (∀ (j : Nat) (x : BitVec 64), j < i → d.sel[j]? = some x → ¬ RowHas x sz h (s.part p).pwrcls.toNat b) →
              (t.part p).fixes = (s.part p).fixes ++ [{ grp := g, leg := n, course := (w.toNat / 2 ^ 28) % 8, health := h, fabric := false, held := false }]
              ∧ (t.part p).halting = none
              ∧ ∃ v ∈ t.agenda, v.cycle = s.chron + (if d.scope = 1 then 8 else if d.scope = 2 then 16 else 48) ∧ v.part = p ∧ v.instr = .fixRelease p g)
           ∧ ((∀ x ∈ d.sel, ¬ RowHas x sz h (s.part p).pwrcls.toNat b) → (t.part p).fixes = (s.part p).fixes
              ∧ (∃ x, (t.part p).halting = some x ∧ x.code = 0x44 ∧ x.cycle = s.chron ∧ x.kill = false)
              ∧ ∃ v ∈ t.agenda, v.cycle = s.chron + 8 ∧ v.part = p ∧ v.instr = .partitionHalt)))
  ∧ (∀ (s : State) p cs d, d.scope = 1 → s.balance p cs d = 0)
  ∧ ∀ (ms : List Nat) (d : LegDesc) mx mn, mx ∈ ms → mn ∈ ms → (∀ m ∈ ms, mn ≤ m ∧ m ≤ mx) → d.bt1 ≤ d.bt2 → d.bt2 ≤ d.bt3 →
      let i := if mx = 0 then 0 else 1024 * (mx - mn) / mx
      bucketOf ms d = (if d.bt1 ≤ i then 1 else 0) + (if d.bt2 ≤ i then 1 else 0) + (if d.bt3 ≤ i then 1 else 0)

/-- A queue pointed at its entry by a release: it runs from there if it was at rest and its span is not empty, and keeps its state otherwise (R131). -/
def Sys2Proof.QPointed (q r : Queue) (ent span now : Nat) : Prop :=
  r.pc = (ent : Int) ∧ r.spanEnd = ((ent + span : Nat) : Int) ∧ r.loops = [] ∧ (q.st = .rest → r.base = now ∧ r.st = (if span = 0 then .rest else .running)) ∧ (q.st ≠ .rest → r.st = q.st)

/-- FIX_RELEASE (R130, R131, R145): each core of the group has the leg, the course and the health class, its sequencer runs from the course's entry at this cycle, the
queues are pointed at theirs, and in a fixed leg the due cycle lies LEGLEN on; the context's EPOCH counts a release of device scope; registers and memory stand. -/
def Sys2Proof.FixReleases : Prop :=
  (∀ (s : State) p g, (∀ f ∈ (s.part p).fixes, f.grp = g → f.held = true) → exec (.fixRelease p g) s = .next s)
  ∧ ∀ (s : State) p g f d r, f ∈ (s.part p).fixes → f.grp = g → f.held = false → f.fabric = false → (∀ x ∈ (s.part p).fixes, x.grp = g → x = f) → s.replaying p = false →
      (s.part p).leg f.leg = some d → d.crs[f.course]? = some r → ∃ t, exec (.fixRelease p g) s = .next t
        ∧ (∀ x, InGroup s p g x → (t.core x).ctl.legno = BitVec.ofNat 16 f.leg ∧ (t.core x).ctl.course = BitVec.ofNat 3 f.course ∧ (t.core x).ctl.health = BitVec.ofNat 2 f.health
            ∧ (t.core x).ctl.tRel = s.chron ∧ (t.core x).ctl.due = (if d.fixed then some (s.chron + r.leglen) else none)
            ∧ (t.core x).seq.fix = none ∧ (t.core x).seq.q.pc = (r.seqent : Int) ∧ (t.core x).seq.q.base = s.chron ∧ (t.core x).seq.q.st = .running
            ∧ QPointed (s.core x).axu.q (t.core x).axu.q r.axuent r.axuspan s.chron ∧ QPointed (s.core x).bke.q (t.core x).bke.q r.bkeent r.bkespan s.chron
            ∧ QPointed (s.core x).vec.q (t.core x).vec.q r.vecent r.vecspan s.chron
            ∧ (t.core x).seq.g = (s.core x).seq.g ∧ (t.core x).axu.a = (s.core x).axu.a ∧ (t.core x).vec.v = (s.core x).vec.v ∧ (t.core x).bke.win = (s.core x).bke.win
            ∧ (t.core x).bke.vis = (s.core x).bke.vis ∧ (t.core x).ctl.tok = (s.core x).ctl.tok ∧ (t.core x).cpe = (s.core x).cpe
            ∧ (d.fixed = true → ∃ v ∈ t.agenda, v.cycle = s.chron + r.leglen ∧ v.core = x ∧ v.instr = .dueCycleMiss x (BitVec.ofNat 16 f.leg)))
        ∧ (∀ x, ¬ InGroup s p g x → t.core x = s.core x) ∧ t.memory = s.memory ∧ t.cols = s.cols ∧ t.reqs = s.reqs ∧ (∀ q, q ≠ p → t.part q = s.part q)
        ∧ (t.part p).fixes = (s.part p).fixes.filter (fun x => x.grp ≠ g)
        ∧ (t.part p).lb = (s.part p).lb
        ∧ (let x := (t.part p).slots[(s.part p).stampSlot]
           let y := (s.part p).slots[(s.part p).stampSlot]
           x.epoch = (if 3 ≤ d.scope then y.epoch + 1 else y.epoch) ∧ x.tkseq = (if 3 ≤ d.scope then 0 else y.tkseq))

/-- Fabric fixes (R133): an arrival for the leg awaited is held until the last child's; the root then counts the partitions and releases 48 cycles later, or raises
0x47; a release that answers the partition's own arrival releases it 48 cycles later, any other raises 0x47; what comes for a
context that is switched out is held with it. -/
def Sys2Proof.FabricFixes : Prop :=
  (∀ (s : State) src p leg st cnt, (s.part p).awaiting = none →
      (s.part p).preSlot = none ∨ ((s.part p).runSlot.isSome = true ∧ ∀ h, (s.part p).shadow = some h → ∀ tc, h.awaiting ≠ some (leg.toNat, tc)) →
      exec (.fixarr src p leg st cnt) s = .next (s.updPart p fun q => { q with arrHeld := q.arrHeld ++ [{ src := src, leg := leg.toNat, cnt := cnt.toNat, at_ := s.chron }] }))
  ∧ (∀ (s : State) src p leg st cnt h, (s.part p).preSlot.isSome = true → (s.part p).shadow = some h →
      ((s.part p).runSlot = none ∧ (∀ n tc, h.awaiting = some (n, tc) → n = leg.toNat)) ∨ ((s.part p).awaiting = none ∧ ∃ tc, h.awaiting = some (leg.toNat, tc)) →
      exec (.fixarr src p leg st cnt) s = .next (s.updPart p fun q =>
        { q with shadow := some { h with arrHeld := h.arrHeld ++ [{ src := src, leg := leg.toNat, cnt := cnt.toNat, at_ := s.chron }] } }))
  ∧ (∀ (s : State) src p leg course h tc, (s.part p).preSlot.isSome = true → (s.part p).shadow = some h → h.sentArr = true → h.awaiting = some (leg.toNat, tc) →
      (s.part p).awaiting = none ∨ (s.part p).sentArr = false → (s.part p).fxType ≠ 0 → (s.part p).lb.act = false →
      exec (.fixrel src p leg course) s = .next (s.updPart p fun q => { q with shadow := some { h with relHeld := some (leg.toNat, course.toNat) } }))
  ∧ (∀ (s : State) src p leg course, Running s p → (s.part p).sentArr = true → (∃ tc, (s.part p).awaiting = some (leg.toNat, tc)) → (s.part p).fxType ≠ 0 →
      (∃ f ∈ (s.part p).fixes, f.fabric = true ∧ f.held = true) → (s.part p).lb.act = false →
      exec (.fixrel src p leg course) s = .next (s.updPart p fun q => { q with relHeld := some (leg.toNat, course.toNat) }))
  ∧ (∀ (s : State) src p leg st cnt n tc, Running s p → (s.part p).awaiting = some (n, tc) → n ≠ leg.toNat → ∃ t, exec (.fixarr src p leg st cnt) s = .next t
      ∧ (∃ x, (t.part p).halting = some x ∧ x.code = 0x47 ∧ x.cycle = s.chron) ∧ (t.part p).arrHeld = (s.part p).arrHeld ∧ t.cores = s.cores ∧ t.memory = s.memory)
  ∧ (∀ (s : State) src p leg st cnt tc, let held := (s.part p).arrHeld.filter (fun a => a.leg = leg.toNat)
      Running s p → (s.part p).awaiting = some (leg.toNat, tc) → (s.part p).sentArr = false → (s.part p).fxType = 0 → tc ≤ s.chron → (∀ a ∈ held, a.at_ ≤ s.chron) →
      (∀ f ∈ (s.part p).fixes, f.fabric = true → f.held = false) →
      ∃ t, exec (.fixarr src p leg st cnt) s = .next t ∧ t.cores = s.cores ∧ t.memory = s.memory ∧ t.cols = s.cols ∧ (∀ q, q ≠ p → t.part q = s.part q)
        ∧ (held.length + 1 < (s.part p).fxChildren → t.agenda = s.agenda ∧ (t.part p).sentArr = false
            ∧ (t.part p).arrHeld = (s.part p).arrHeld ++ [{ src := src, leg := leg.toNat, cnt := cnt.toNat, at_ := s.chron }])
        ∧ ((s.part p).fxChildren ≤ held.length + 1 → (t.part p).sentArr = true ∧ (∀ a ∈ (t.part p).arrHeld, a.leg ≠ leg.toNat)
            ∧ (1 + (held.map (·.cnt)).sum + cnt.toNat = (s.part p).fxtot.toNat → ∃ v ∈ t.agenda, v.cycle = s.chron + 48 ∧ v.part = p ∧ v.instr = .fixRelease p 56)
            ∧ (1 + (held.map (·.cnt)).sum + cnt.toNat ≠ (s.part p).fxtot.toNat → ∃ x, (t.part p).halting = some x ∧ x.code = 0x47 ∧ x.cycle = s.chron)))
  ∧ (∀ (s : State) src p leg course tc, Running s p → (s.part p).awaiting = some (leg.toNat, tc) → (s.part p).sentArr = true → (s.part p).fxType ≠ 0 →
      (∀ f ∈ (s.part p).fixes, f.fabric = true → f.held = false) → (s.part p).lb.act = false →
      exec (.fixrel src p leg course) s = .next (s.schedP (s.chron + 48) p (.fixRelease p 56)))
  ∧ ∀ (s : State) src p leg course, Running s p → ((s.part p).fxType = 0 ∨ (s.part p).preSlot = none ∨ ∀ h, (s.part p).shadow = some h → ∀ tc, h.awaiting ≠ some (leg.toNat, tc)) →
      (s.part p).sentArr = false ∨ (s.part p).fxType = 0 ∨ (s.part p).awaiting = none
      ∨ (∃ n tc, (s.part p).awaiting = some (n, tc) ∧ n ≠ leg.toNat) → ∃ t, exec (.fixrel src p leg course) s = .next t
      ∧ (∃ x, (t.part p).halting = some x ∧ x.code = 0x47 ∧ x.cycle = s.chron) ∧ (∃ v ∈ t.agenda, v.cycle = s.chron + 8 ∧ v.part = p ∧ v.instr = .partitionHalt)
      ∧ t.cores = s.cores ∧ t.memory = s.memory

/-- Completion and release of a fix and the fabric tree (R130, R131, R133 to R136). -/
def Obligations.FixReleaseAndTree : Prop := FixCompletes ∧ FixReleases ∧ FabricFixes


/-! ## Events: the halt of a partition -/

/-- The halt of a partition has ended (R150, R159, R217, R144): PHALT holds it unless it holds one, the context is in FAULT with the code, or KILLED, and names no
key slot, and a bus whose repair was asked for is repaired. -/
def Sys2Proof.HaltEnds (s t : State) (p : PartIx) (h : Halting) (j : Fin 8) : Prop :=
  (t.part p).halting = none ∧ (t.part p).ckreq = false
    ∧ ((t.part p).slots[j]).st = (if h.kill then .killed else .fault) ∧ ((t.part p).slots[j]).code = BitVec.ofNat 8 (if h.kill then 0 else h.code)
    ∧ ((t.part p).slots[j]).key = none ∧ (t.part p).phalt.getLsbD 31 = true
    ∧ ((s.part p).phalt.getLsbD 31 = false →
        (t.part p).phalt.toNat % 256 = h.code % 256 ∧ (t.part p).phalt.toNat / 2 ^ 8 % 512 = h.core % 512 ∧ (t.part p).phalt.toNat / 2 ^ 17 % 8 = h.eng % 8)
    ∧ ∀ c, s.partOf c = some p → (s.col c).repair = true → ∃ v ∈ t.agenda, v.cycle = s.chron ∧ v.core = c ∧ v.instr = .busRepair

/-- A halt waits at a phase for a stop record that was refused, and looks again in the next cycle (R155). -/
def Sys2Proof.HaltWaits (s t : State) (p : PartIx) (h : Halting) (phase : Nat) : Prop :=
  (t.part p).halting = some { h with phase := phase } ∧ t.recordsWait p = true ∧ ∃ v ∈ t.agenda, v.cycle = s.chron + 1 ∧ v.part = p ∧ v.instr = .partitionHalt

/-- The halt line is seen and the skids end (R132, R148, R149, R151, R158, R167, R217, R371): arrivals are discarded, a checkpoint request is cleared, open rows are listed and
closed; then what is not retired or performed is abandoned, registers standing, and the row beats that were delivered are written. -/
def Sys2Proof.HaltStops : Prop :=
  (∀ (s : State) h, let p := s.curPart
      (s.part p).halting = some h → h.phase = 0 → ∃ t, exec .partitionHalt s = .next t
        ∧ (∃ rows, (t.part p).halting = some { h with phase := 1, rows := rows }
            ∧ ∀ (c : CoreIx) (b : Fin 32) row act lb pre, s.partOf c = some p → (s.col c).rows[b] = .open_ row act lb pre → (s.col c).rows[b].at_ s.chron = 1 →
              (c.val, b.val, row.toNat, act) ∈ rows)
        ∧ (t.part p).fixes = [] ∧ (t.part p).arrHeld = [] ∧ (t.part p).awaiting = none ∧ (t.part p).ckreq = false ∧ (t.part p).outgoing = none
        ∧ (∀ c, s.partOf c = some p → t.core c = { s.core c with seq := { (s.core c).seq with fix := none } }) ∧ (∀ c, s.partOf c ≠ some p → t.core c = s.core c ∧ t.col c = s.col c)
        ∧ (∀ (c : CoreIx) (b : Fin 32) row act lb, s.partOf c = some p → (s.col c).rows[b] = .open_ row act lb none →
            ∃ e, (t.col c).rows[b] = .open_ row act lb (some e) ∧ s.chron ≤ e ∧ act + 36 ≤ e ∧ lb + 1 ≤ e)
        ∧ t.memory = s.memory ∧ t.reqs = s.reqs ∧ (∀ q, q ≠ p → t.part q = s.part q) ∧ ∃ v ∈ t.agenda, v.cycle = h.cycle + 41 ∧ v.part = p ∧ v.instr = .partitionHalt)
  ∧ ∀ (s : State) h, let p := s.curPart
      (s.part p).halting = some h → h.phase = 1 → ∃ t, exec .partitionHalt s = .next t ∧ (t.part p).halting = some { h with phase := 2 }
        ∧ (∀ c, s.partOf c = some p → (t.core c).pipe.infl = [] ∧ (t.core c).pipe.claims = [] ∧ (t.core c).pipe.busy = []
            ∧ (t.core c).seq.hold = none ∧ (t.core c).seq.haltWait = none ∧ (t.core c).seq.heldTrap = none ∧ (t.core c).bke.stall = none
            ∧ ((t.core c).bke.mulbf = true ↔ ∃ w ∈ (s.core c).pipe.infl, w.acted = false ∧ ((∃ a b, w.instr = .mulb a b) ∨ ∃ a b d e f, w.instr = .macd a b d e f))
            ∧ (t.core c).seq.g = (s.core c).seq.g ∧ (t.core c).seq.q = (s.core c).seq.q ∧ (t.core c).axu = (s.core c).axu ∧ (t.core c).vec = (s.core c).vec ∧ (t.core c).cpe = (s.core c).cpe
            ∧ (t.core c).ctl = (s.core c).ctl ∧ (t.core c).bke.win = (s.core c).bke.win ∧ (t.core c).bke.vis = (s.core c).bke.vis)
        ∧ (∀ r, r ∈ t.reqs ↔ r ∈ s.reqs ∧ ¬ (r.who < 5 ∧ s.partOf r.core = some p)) ∧ (∀ c, s.partOf c ≠ some p → t.core c = s.core c)
        ∧ ((∀ c, s.partOf c = some p → ∀ w ∈ (s.core c).pipe.infl, isRcon w.instr = true → ∀ b ∈ w.beats, b.write = false) → t.memory = s.memory)
        ∧ (∀ c w b, s.partOf c = some p → (∀ x, s.partOf x = some p → (s.core x).pipe.infl.filter (fun w => isRcon w.instr) = if x = c then [w] else []) → w.beats = [b] → b.write = true →
            t.memory = writeBytes s.memory b.key b.bytes)
        ∧ t.cols = s.cols ∧ (∀ q, q ≠ p → t.part q = s.part q) ∧ ∃ v ∈ t.agenda, v.cycle = h.cycle + 62 ∧ v.part = p ∧ v.instr = .partitionHalt

/-- The stop records and the end (R150, R155): the originating unit's record is written first and, if refused, waited for alone; then the others', and the halt ends. -/
def Sys2Proof.HaltRecords : Prop :=
  (∀ (s : State) h j, let p := s.curPart
      (s.part p).halting = some h → h.phase = 2 → (s.part p).runSlot = some j → ∃ t, exec .partitionHalt s = .next t ∧ t.cores = s.cores ∧ t.cols = s.cols
        ∧ (∀ q, q ≠ p → t.part q = s.part q)
        ∧ (HaltEnds s t p h j ∨ HaltWaits s t p h 4 ∨ HaltWaits s t p h 3 ∧ ∀ r ∈ t.reqs, r ∈ s.reqs ∨ r.dest = .stopRec p.val h.core h.eng))
  ∧ (∀ (s : State) h, let p := s.curPart
      (s.part p).halting = some h → h.phase = 3 ∨ h.phase = 4 → s.recordsWait p = true → ∃ t, exec .partitionHalt s = .next t ∧ (∀ q, t.part q = s.part q) ∧ t.cores = s.cores
        ∧ t.cols = s.cols ∧ t.memory = s.memory ∧ t.reqs = s.reqs ∧ ∃ v ∈ t.agenda, v.cycle = s.chron + 1 ∧ v.part = p ∧ v.instr = .partitionHalt)
  ∧ (∀ (s : State) h j, let p := s.curPart
      (s.part p).halting = some h → h.phase = 3 → s.recordsWait p = false → (s.part p).runSlot = some j → ∃ t, exec .partitionHalt s = .next t ∧ t.cores = s.cores ∧ t.cols = s.cols
        ∧ (∀ q, q ≠ p → t.part q = s.part q) ∧ (HaltEnds s t p h j ∨ HaltWaits s t p h 4))
  ∧ ∀ (s : State) h j, let p := s.curPart
      (s.part p).halting = some h → h.phase = 4 → s.recordsWait p = false → (s.part p).runSlot = some j → ∃ t, exec .partitionHalt s = .next t ∧ HaltEnds s t p h j
        ∧ ((s.part p).phalt.getLsbD 31 = true → (t.part p).phalt = (s.part p).phalt) ∧ (t.part p).phalt.getLsbD 30 = (s.part p).phalt.getLsbD 30
        ∧ t.cores = s.cores ∧ t.cols = s.cols ∧ t.memory = s.memory ∧ ∀ q, q ≠ p → t.part q = s.part q

/-- PARTITION_HALT (R132, R148 to R151, R155 to R159, R167, R371): nothing where no halt is under way; else the halt line, the end of the skids, the stop records and
the end of the context. -/
def Obligations.PartitionHalt : Prop :=
  (∀ s : State, (s.part s.curPart).halting = none → exec .partitionHalt s = .next s) ∧ HaltStops ∧ HaltRecords


/-! ## Events: the engines of a core -/

/-- A core but for the poll of its copy engine. -/
def Sys2Proof.SameButPoll (k l : Core) : Prop := ∃ o, l = { k with cpe := { k.cpe with poll := o } }

/-- A word in flight on a core, with an identity of its own. -/
def Sys2Proof.Flying (s : State) (c : CoreIx) (w : Inflight) : Prop := w ∈ (s.core c).pipe.infl ∧ ∀ x ∈ (s.core c).pipe.infl, x.id = w.id → x = w

/-- A word in flight looks again in the next cycle, and nothing else happens. -/
def Sys2Proof.LooksAgain (s t : State) (c : CoreIx) (w : Inflight) : Prop :=
  t.agenda = (s.schedC (s.chron + 1) c (.wordRetire c w.id)).agenda ∧ (∀ x, t.core x = s.core x) ∧ t.parts = s.parts ∧ t.cols = s.cols ∧ t.memory = s.memory ∧ t.reqs = s.reqs

/-- WORD_RETIRE (R137, R148, R181, R182, R253, R425, R427): a word whose accesses are performed leaves and gives one token to the FIFO it latched; one that waits
looks again in the next cycle; SCANR, HALT and WREP act at their completion; a due write beat is performed; a late word, and in a fixed leg an access word whose accesses are late,
raise 0x41; a running value that reaches the carry guard raises 0x23 in that cycle (R233). -/
def Obligations.WordRetirement : Prop :=
  (∀ (s : State) c id, (∀ w ∈ (s.core c).pipe.infl, w.id ≠ id) → exec (.wordRetire c id) s = .next s)
  ∧ (∀ (s : State) c w, Flying s c w → (∀ x ∈ (s.core c).pipe.infl, x.beats = []) → s.cutHolds c w = false → w.late = false → w.doneAt ≤ s.chron →
      w.acted = true → (∀ id ∈ w.waits, s.stillOpen c id = false) → w.give = false →
      exec (.wordRetire c w.id) s = .next (s.upd c fun k => { k with pipe := { k.pipe with infl := k.pipe.infl.filter fun x => x.id ≠ w.id } }))
  ∧ (∀ (s : State) c w, Flying s c w → (∀ x ∈ (s.core c).pipe.infl, x.beats = []) → s.cutHolds c w = false → w.late = false → w.doneAt ≤ s.chron →
      w.acted = true → (∀ id ∈ w.waits, s.stillOpen c id = false) → w.give = true → (w.eng = .bke ∨ w.eng = .vec ∨ (w.eng = .seq ∧ s.seqGiveHeld c w = false) ∨ (w.eng = .axu ∧ (s.core c).axu.hist = [])) → w.giveTo < 5 → w.giveTo ≠ w.eng.num →
      let f := fifoIx w.eng.num w.giveTo
      ∃ t, exec (.wordRetire c w.id) s = .next t ∧ t.memory = s.memory ∧ t.cols = s.cols ∧ t.reqs = s.reqs ∧ (∀ x, x ≠ c → t.core x = s.core x)
        ∧ (t.core c).pipe.infl = (s.core c).pipe.infl.filter (fun x => x.id ≠ w.id) ∧ (t.core c).seq = (s.core c).seq ∧ (t.core c).axu = (s.core c).axu
        ∧ (t.core c).vec = (s.core c).vec ∧ (t.core c).bke = (s.core c).bke ∧ (t.core c).cpe = (s.core c).cpe
        ∧ ((s.core c).ctl.occ f < (s.core c).ctl.ceil f → (t.core c).ctl.occ f = (s.core c).ctl.occ f + 1 ∧ (∀ g, g ≠ f → (t.core c).ctl.occ g = (s.core c).ctl.occ g) ∧ t.parts = s.parts)
        ∧ ((s.core c).ctl.ceil f ≤ (s.core c).ctl.occ f → (t.core c).ctl.tok = (s.core c).ctl.tok ∧ ∀ p, s.partOf c = some p → Running s p →
            (∃ x, (t.part p).halting = some x ∧ x.code = 0x42 ∧ x.cycle = s.chron ∧ x.core = s.logical p c ∧ x.eng = w.eng.num ∧ x.pc = w.pc)
              ∧ ∃ v ∈ t.agenda, v.cycle = s.chron + 8 ∧ v.part = p ∧ v.instr = .partitionHalt))
  ∧ (∀ (s : State) c w i, Flying s c w → (∀ x ∈ (s.core c).pipe.infl, x.beats = []) → s.cutHolds c w = false → w.late = false → w.doneAt ≤ s.chron →
      w.acted = true → i ∈ w.waits → s.stillOpen c i = true → s.fixedLeg c = false →
      ∃ t, exec (.wordRetire c w.id) s = .next t ∧ LooksAgain s t c w)
  ∧ (∀ (s : State) c w i, Flying s c w → (∀ x ∈ (s.core c).pipe.infl, x.beats = []) → s.cutHolds c w = false → w.late = false → w.doneAt ≤ s.chron →
      w.acted = true → (∀ id ∈ w.waits, s.stillOpen c id = false) → w.give = true → w.eng = .axu → (s.core c).axu.hist = [(i, true, true)] → i ≤ w.id →
      exec (.wordRetire c w.id) s = .next (s.upd c fun k => { k with pipe := { k.pipe with infl := k.pipe.infl.filter fun x => x.id ≠ w.id } }))
  ∧ (∀ (s : State) c w i p, Flying s c w → (∀ x ∈ (s.core c).pipe.infl, x.beats = []) → s.cutHolds c w = false → w.late = false → w.doneAt ≤ s.chron →
      w.acted = true → i ∈ w.waits → s.stillOpen c i = true → s.fixedLeg c = true → w.access = true ∨ seqAccess w.instr = true → s.partOf c = some p → Running s p →
      ∃ t, exec (.wordRetire c w.id) s = .next t ∧ (∃ x, (t.part p).halting = some x ∧ x.code = 0x41 ∧ x.cycle = s.chron ∧ x.core = s.logical p c ∧ x.eng = w.eng.num ∧ x.pc = w.pc)
        ∧ (∃ v ∈ t.agenda, v.cycle = s.chron + 8 ∧ v.part = p ∧ v.instr = .partitionHalt) ∧ t.memory = s.memory)
  ∧ (∀ (s : State) c w p, Flying s c w → (∀ x ∈ (s.core c).pipe.infl, x.beats = []) → s.cutHolds c w = false → w.late = false → s.chron < w.doneAt → w.acted = false →
      s.bkeGuard c w = true ∨ s.sumGuard c w = true → s.partOf c = some p → Running s p →
      ∃ t, exec (.wordRetire c w.id) s = .next t ∧ (∃ x, (t.part p).halting = some x ∧ x.code = 0x23 ∧ x.cycle = s.chron ∧ x.core = s.logical p c ∧ x.eng = w.eng.num ∧ x.pc = w.pc)
        ∧ (∃ v ∈ t.agenda, v.cycle = s.chron + 8 ∧ v.part = p ∧ v.instr = .partitionHalt) ∧ t.memory = s.memory ∧ (t.core c).bke.work = (s.core c).bke.work ∧ (t.core c).bke.vis = (s.core c).bke.vis)
  ∧ (∀ (s : State) c w h a b, Flying s c w → (∀ x ∈ (s.core c).pipe.infl, x.beats = []) → w.late = false → w.doneAt ≤ s.chron →
      w.acted = false → w.eng = .seq → w.waits = [] → w.give = false → w.instr = .wrep h a b → ∃ t, exec (.wordRetire c w.id) s = .next t
        ∧ (t.core c).pipe.infl = (s.core c).pipe.infl.filter (fun x => x.id ≠ w.id) ∧ t.memory = s.memory ∧ (∀ x, x ≠ c → t.core x = s.core x ∧ t.col x = s.col x)
        ∧ (w.lat.getD 0 0 = 0 → t.col c = (s.col c).mapWire (w.lat.getD 1 0)) ∧ (w.lat.getD 0 0 = 1 → t.col c = (s.col c).testWires c.val s.freeIx)
        ∧ (w.lat.getD 0 0 = 2 → t.col c = { s.col c with half := true }) ∧ (3 ≤ w.lat.getD 0 0 → t.col c = s.col c)
        ∧ t.helm.gen = (if (t.col c).spare = (s.col c).spare ∧ (t.col c).half = (s.col c).half then s.helm.gen else s.helm.gen + 2))
  ∧ (∀ (s : State) c w h d a, Flying s c w → (∀ x ∈ (s.core c).pipe.infl, x.beats = []) → w.late = false → w.doneAt ≤ s.chron →
      w.acted = false → w.eng = .seq → w.waits = [] → w.give = false → w.instr = .scanr h d a →
      ∃ t, exec (.wordRetire c w.id) s = .next t ∧ (∀ r, (t.core c).seq.gpr r = if r = d ∧ d ≠ 0 then BitVec.ofNat 64 (s.scan (w.lat.getD 0 0)) else (s.core c).seq.gpr r)
        ∧ (t.core c).pipe.infl = (s.core c).pipe.infl.filter (fun x => x.id ≠ w.id) ∧ (t.core c).ctl = (s.core c).ctl ∧ t.memory = s.memory ∧ (∀ x, x ≠ c → t.core x = s.core x))
  ∧ (∀ (s : State) c w h a, Flying s c w → (∀ x ∈ (s.core c).pipe.infl, x.beats = []) → w.late = false → w.doneAt ≤ s.chron →
      w.acted = false → w.eng = .seq → w.waits = [] → w.give = false → w.instr = .halt h a → s.coreQuiet c = false →
      ∃ t, exec (.wordRetire c w.id) s = .next t ∧ LooksAgain s t c w)
  ∧ (∀ (s : State) c w h a v p j, Flying s c w → (∀ x ∈ (s.core c).pipe.infl, x.beats = []) → w.late = false → w.doneAt ≤ s.chron →
      w.acted = false → w.eng = .seq → w.waits = [] → w.give = false → w.instr = .halt h a → s.coreQuiet c = true → (s.core c).seq.haltWait.map (·.1) = some v →
      s.partOf c = some p → (s.part p).runSlot = some j → (s.part p).halting = none → ∃ t, exec (.wordRetire c w.id) s = .next t ∧ (t.core c).seq.halted = some v
        ∧ (t.core c).seq.g = (s.core c).seq.g ∧ t.memory = s.memory ∧ (∀ q, q ≠ p → t.part q = s.part q)
        ∧ ((∃ x, x ≠ c ∧ s.partOf x = some p ∧ (s.core x).seq.halted = none) → ((t.part p).slots[j]).st = .run)
        ∧ ((∀ x, x ≠ c → s.partOf x = some p → (s.core x).seq.halted.isSome = true) → ((t.part p).slots[j]).st = .done
            ∧ ((t.part p).slots[j]).code = 0 ∧ ∀ x, s.partOf x = some p → s.logical p x = 0 → some ((t.part p).slots[j]).exit = (t.core x).seq.halted))
  ∧ (∀ (s : State) c w b, (s.core c).pipe.infl = [w] → w.eng = .bke → w.late = false → w.beats = [b] → b.write = true → b.at_ ≤ s.chron → s.chron < w.doneAt →
      isRing w.instr = false → (∀ a b, w.instr ≠ .mulb a b) → (∀ a b d e f, w.instr ≠ .macd a b d e f) → (∀ a b d e f g, w.instr ≠ .zaddv a b d e f g) →
      ∃ t, exec (.wordRetire c w.id) s = .next t ∧ t.memory = writeBytes s.memory b.key b.bytes
        ∧ (t.core c).pipe.infl = [{ w with beats := [] }] ∧ (t.core c).seq = (s.core c).seq ∧ (t.core c).bke = (s.core c).bke ∧ (∀ x, x ≠ c → t.core x = s.core x))
  ∧ ∀ (s : State) c w p, Flying s c w → s.cutHolds c w = false → w.late = true → w.doneAt ≤ s.chron → s.partOf c = some p → Running s p →
      ∃ t, exec (.wordRetire c w.id) s = .next t ∧ (∃ x, (t.part p).halting = some x ∧ x.code = 0x41 ∧ x.cycle = s.chron ∧ x.core = s.logical p c ∧ x.eng = w.eng.num ∧ x.pc = w.pc)
        ∧ (∃ v ∈ t.agenda, v.cycle = s.chron + 8 ∧ v.part = p ∧ v.instr = .partitionHalt) ∧ t.memory = s.memory

/-- The access unit and the replay queue (R154, R325 to R327, R335, R381): RESUME; one access of an LDS or an STS generated a cycle, and
the stall of any word; a slot of the STQ performed; the head of the replay queue, which leaves once its unit is free. RESUME waits for the record of the fault (R110). -/
def Obligations.AccessUnitEvents : Prop :=
  (∀ s : State, s.me.axu.soft = none → exec .resume s = .next s)
  ∧ (∀ (s : State) f, s.me.axu.soft = some f → s.recordHeld s.cur 1 = true → exec .resume s = .next (s.schedC (s.chron + 1) s.cur .resume))
  ∧ (∀ (s : State) f, s.me.axu.soft = some f → s.recordHeld s.cur 1 = false → ∃ t, exec .resume s = .next t ∧ t.me.axu.soft = none ∧ t.me.axu.gen = [{ f.job with cycle := s.chron }]
      ∧ t.me.axu.gate = some (f.slot, f.stq) ∧ t.me.axu.q.st = .running ∧ t.me.axu.q.pc = s.me.axu.q.pc ∧ t.me.axu.a = s.me.axu.a ∧ t.me.axu.ldq = s.me.axu.ldq ∧ t.me.axu.stqA = s.me.axu.stqA
      ∧ t.me.seq = s.me.seq ∧ t.me.ctl = s.me.ctl ∧ (∀ x, x ≠ s.cur → t.core x = s.core x) ∧ t.memory = s.memory ∧ t.parts = s.parts
      ∧ ∃ v ∈ t.agenda, v.cycle = s.chron ∧ v.core = s.cur ∧ v.instr = .accessGeneration)
  ∧ (∀ s : State, s.me.axu.gen = [] → exec .accessGeneration s = .next s)
  ∧ (∀ (s : State) j r, s.me.axu.gen = j :: r → s.preStopped s.cur = false → s.chron < s.me.axu.genFree →
      exec .accessGeneration s = .next (s.schedC s.me.axu.genFree s.cur .accessGeneration))
  ∧ (∀ (s : State) j r, s.me.axu.gen = j :: r → s.preStopped s.cur = false → s.me.axu.genFree ≤ s.chron → s.marksClear s.cur j.marks = false → s.fixedLeg s.cur = false →
      exec .accessGeneration s = .next (s.schedC (s.chron + 1) s.cur .accessGeneration))
  ∧ (∀ (s : State) j r p, s.me.axu.gen = j :: r → s.preStopped s.cur = false → s.me.axu.genFree ≤ s.chron → s.marksClear s.cur j.marks = false → s.fixedLeg s.cur = true → s.partOf s.cur = some p →
      Running s p → ∃ t, exec .accessGeneration s = .next t ∧ Halts s t p .axu 0x41 j.pc ∧ t.memory = s.memory ∧ t.cores = s.cores)
  ∧ (∀ (s : State) j r h a b cn ct va ia n f, s.me.axu.gen = j :: r → j.instr = .lds h a b cn ct → s.preStopped s.cur = false → s.me.axu.genFree ≤ s.chron → s.marksClear s.cur j.marks = true →
      s.me.vaLine (j.base + j.next * j.stride) false = .at_ va ia n f → s.me.axu.skipL = 0 → s.me.axu.ldq.length < 64 → s.piecesFault s.cur (pieces ia n) = none → s.piecesOk s.cur (pieces ia n) 6 = true → s.me.pipe.free (s.pieceClaims s.cur (pieces ia n) 6) = true →
      ∃ t, exec .accessGeneration s = .next t
        ∧ (∃ e, t.me.axu.ldq = s.me.axu.ldq ++ [e] ∧ e.slot = s.me.axu.ldqT ∧ e.word = j.id ∧ e.ix = j.next ∧ e.pending = (pieces ia n).length ∧ e.bytes = List.replicate 128 f)
        ∧ t.me.axu.ldqT = s.me.axu.ldqT + 1 ∧ (∀ x ∈ pieces ia n, ∃ q ∈ t.reqs, q.core = s.cur ∧ q.who = 1 ∧ q.kind = .read ∧ q.ia = x.2.1 ∧ q.n = x.2.2 ∧ q.dest = .ldq s.me.axu.ldqT x.1)
        ∧ (∀ q ∈ s.reqs, q ∈ t.reqs) ∧ (t.me.axu.gen = { j with next := j.next + 1 } :: r ∨ t.me.axu.gen = r ∧ j.count ≤ j.next + 1)
        ∧ t.me.axu.a = s.me.axu.a ∧ t.me.axu.stqA = s.me.axu.stqA ∧ t.me.seq = s.me.seq ∧ t.memory = s.memory ∧ (∀ x, x ≠ s.cur → t.core x = s.core x) ∧ t.parts = s.parts)
  ∧ (∀ (s : State) j r h a b cn ct va ia n f, s.me.axu.gen = j :: r → j.instr = .sts h a b cn ct → s.preStopped s.cur = false → s.me.axu.genFree ≤ s.chron → s.marksClear s.cur j.marks = true →
      s.fixedLeg s.cur = false → s.me.vaLine (j.base + j.next * j.stride) true = .at_ va ia n f → s.me.axu.skipS = 0 → (∀ x ∈ s.me.axu.stqA, x.slot < s.me.axu.stqAT) → s.me.axu.stqA.length < 64 → s.piecesFault s.cur (pieces ia n) = none →
      ∃ t, exec .accessGeneration s = .next t
        ∧ (∃ x ∈ t.me.axu.stqA, x.slot = s.me.axu.stqAT ∧ x.word = j.id ∧ x.gen = s.chron ∧ x.pieces = pieces ia n) ∧ t.me.axu.stqAT = s.me.axu.stqAT + 1 ∧ t.me.axu.stqD = s.me.axu.stqD
        ∧ t.me.axu.ldq = s.me.axu.ldq ∧ t.reqs = s.reqs ∧ t.me.axu.a = s.me.axu.a ∧ t.me.seq = s.me.seq ∧ t.memory = s.memory ∧ (∀ x, x ≠ s.cur → t.core x = s.core x) ∧ t.parts = s.parts)
  ∧ (∀ s : State, (∀ x ∈ s.me.axu.stqA, x.sent = true → x.done = false → x.reqd = false → s.chron < x.perf) → exec .stqSlotPerform s = .next s)
  ∧ (∀ (s : State) x, s.me.axu.stqA.find? (fun x => x.sent && !x.done && !x.reqd && decide (x.perf ≤ s.chron)) = some x → s.fixedLeg s.cur = false →
      (∃ y ∈ s.me.axu.stqA, y.slot < x.slot ∧ y.done = false) → exec .stqSlotPerform s = .next (s.schedC (s.chron + 1) s.cur .stqSlotPerform))
  ∧ (∀ (s : State) x, s.me.axu.stqA.find? (fun x => x.sent && !x.done && !x.reqd && decide (x.perf ≤ s.chron)) = some x →
      (s.fixedLeg s.cur = true ∨ ∀ y ∈ s.me.axu.stqA, y.slot < x.slot → y.done = true) →
      (∀ p ∈ x.pieces, isOwnSpad s.cur p.2.1 = true) → ∃ t, exec .stqSlotPerform s = .next t
        ∧ t.memory = x.pieces.foldl (fun m (p : Nat × Nat × Nat) => writeBytes m (spadKey s.cur.val (p.2.1 % 2 ^ 23)) (((s.me.axu.stqData x.slot).drop p.1).take p.2.2)) s.memory
        ∧ (∀ y ∈ t.me.axu.stqA, y.slot = x.slot → y.done = true) ∧ t.me.axu.ldq = s.me.axu.ldq ∧ t.me.axu.a = s.me.axu.a ∧ t.me.seq = s.me.seq ∧ t.me.vec = s.me.vec ∧ t.reqs = s.reqs
        ∧ (∀ c, c ≠ s.cur → t.core c = s.core c) ∧ t.parts = s.parts)
  ∧ (∀ (s : State) x, s.me.axu.stqA.find? (fun x => x.sent && !x.done && !x.reqd && decide (x.perf ≤ s.chron)) = some x →
      (s.fixedLeg s.cur = true ∨ ∀ y ∈ s.me.axu.stqA, y.slot < x.slot → y.done = true) →
      (∃ p ∈ x.pieces, isOwnSpad s.cur p.2.1 = false) → ∃ t, exec .stqSlotPerform s = .next t ∧ t.memory = s.memory
        ∧ (∀ p ∈ x.pieces, ∃ q ∈ t.reqs, q.core = s.cur ∧ q.who = 1 ∧ q.kind = .write (((s.me.axu.stqData x.slot).drop p.1).take p.2.2) ∧ q.ia = p.2.1 ∧ q.dest = .stq x.slot)
        ∧ t.me.axu.ldq = s.me.axu.ldq ∧ t.me.axu.a = s.me.axu.a ∧ t.me.seq = s.me.seq ∧ (∀ c, c ≠ s.cur → t.core c = s.core c) ∧ t.parts = s.parts)
  ∧ (∀ s : State, s.me.vec.replay = [] → exec .replayQueueLeave s = .next s)
  ∧ (∀ (s : State) id r w d h a b e, s.me.vec.replay = id :: r → s.me.pipe.infl.find? (fun x => x.id == id) = some w → w.instr = .vld h a b d e → s.me.vec.replayLast < s.chron →
      s.me.ldqPortBusy w s.chron = true ∨ s.me.axu.headFilled s.chron = false →
      exec .replayQueueLeave s = .next (s.schedC (s.chron + 1) s.cur .replayQueueLeave))
  ∧ (∀ (s : State) id r w h a b c d, s.me.vec.replay = id :: r → s.me.pipe.infl.find? (fun x => x.id == id) = some w → s.me.vec.replayLast < s.chron →
      (w.instr = .vst h a b c d ∧ (s.me.stqPortBusy w (s.chron + 1) = true ∨ s.me.axu.dataRoom = false))
        ∨ ((∃ h k n l a e y z, w.instr = .vsumz h k n l a e y z) ∧ s.me.pipe.sumFree (w.lat.getD 3 0 == 1) (s.chron + 1) (s.chron + 1 + w.lat.getD 2 0 - w.lat.getD 1 0) false = false) →
      exec .replayQueueLeave s = .next (s.schedC (s.chron + 1) s.cur .replayQueueLeave))
  ∧ (∀ (s : State) id r w h a b c d, s.me.vec.replay = id :: r → s.me.pipe.infl.find? (fun x => x.id == id) = some w → s.me.vec.replayLast < s.chron →
      (w.instr = .vst h a b c d ∧ s.me.stqPortBusy w (s.chron + 1) = false ∧ s.me.axu.dataRoom = true)
        ∨ ((∃ h k n l a e y z, w.instr = .vsumz h k n l a e y z) ∧ w.lat.getD 1 0 ≤ w.lat.getD 2 0
            ∧ s.me.pipe.sumFree (w.lat.getD 3 0 == 1) (s.chron + 1) (s.chron + 1 + w.lat.getD 2 0 - w.lat.getD 1 0) false = true) →
      ∃ t, exec .replayQueueLeave s = .next t
        ∧ t.me.vec.replay = r.filter (fun y => y ≠ id) ∧ t.me.vec.replayLast = s.chron ∧ t.me.vec.v = s.me.vec.v ∧ t.me.axu = s.me.axu ∧ t.me.seq = s.me.seq ∧ t.memory = s.memory
        ∧ (∃ v ∈ t.agenda, s.chron < v.cycle ∧ v.core = s.cur ∧ v.instr = .wordRetire s.cur id) ∧ (∀ c, c ≠ s.cur → t.core c = s.core c) ∧ t.parts = s.parts)
  ∧ ∀ (s : State) id r w d h a b e x l, s.me.vec.replay = id :: r → s.me.pipe.infl.find? (fun x => x.id == id) = some w → w.instr = .vld h a b d e → s.me.vec.replayLast < s.chron →
      s.me.ldqPortBusy w s.chron = false → s.me.axu.ldq = x :: l → s.me.axu.headFilled s.chron = true → ∃ t, exec .replayQueueLeave s = .next t
        ∧ t.me.vec.replay = r.filter (fun y => y ≠ id) ∧ t.me.vec.replayLast = s.chron ∧ t.me.vec.v = s.me.vec.v ∧ t.me.axu.ldq = l ∧ t.me.seq = s.me.seq ∧ t.memory = s.memory
        ∧ (∃ v ∈ t.agenda, v.cycle = s.chron + 1 ∧ v.core = s.cur ∧ v.instr = .wordRetire s.cur id) ∧ (∀ c, c ≠ s.cur → t.core c = s.core c) ∧ t.parts = s.parts

/-- The copy engine (R297, R407 to R416): a command enters with its block in issue order, takes its CMDID and gives it to gd; a sector starts with its take, its holds and its completion
cycle; a fill writes its elements; the record, with the holds log 41 gives it, the give and the follow-on word come in that order; a follow-on IDLE holds the
queue for its count, and LOOP, LEND and a word that is none raise 0x01. -/
def Obligations.CopyEngineEvents : Prop :=
  (∀ (s : State) c id, s.req id = none → exec (.commandEntry c id) s = .next s)
  ∧ (∀ (s : State) c id r x ents s1, let k := (s.core c).cpe
      s.req id = some r → s.mate r = none → r.dest = .cmd x → x.op ≠ 0x35 → x.isRec = false → (s.fixedLeg c = false ∨ blkFollow r.result = false) → blockBad x.op r.result = false →
      (s.dropReq id).cpeCheck c x.op r.result = .ok (ents, s1) → ∃ t, exec (.commandEntry c id) s = .next t
        ∧ (∃ y u v, k.cmds = u ++ v ∧ (t.core c).cpe.cmds = u ++ y :: v ∧ (∀ z ∈ u, z.in_.num ≤ x.num) ∧ (∀ z, v.head? = some z → x.num < z.in_.num) ∧ y.cmdid = k.next ∧ y.op = x.op ∧ y.ents = ents ∧ y.in_ = { x with block := r.result } ∧ y.entered = r.entry s.chron
            ∧ y.next = 0 ∧ y.stop = y.nsect ∧ y.active = [] ∧ y.taken = false)
        ∧ (t.core c).cpe.next = (if k.next = 65535 then 1 else k.next + 1) ∧ t.memory = s.memory
        ∧ (∀ d, (t.core c).seq.gpr d = if d = x.d ∧ d ≠ 0 ∧ x.op ≠ 0x34 then BitVec.ofNat 64 k.next else (s.core c).seq.gpr d)
        ∧ (x.op ≠ 0x34 → x.d ≠ 0 → (t.core c).seq.gReady[x.d] = r.entry s.chron) ∧ (∀ o, o ≠ c → t.core o = s.core o))
  ∧ (∀ (s : State) c id r x, s.req id = some r → s.mate r = none → r.dest = .cmd x → x.op ≠ 0x35 → x.isRec = false → (s.fixedLeg c = false ∨ blkFollow r.result = false) → blockBad x.op r.result = true →
      s.chron < r.entry s.chron → ∃ t, exec (.commandEntry c id) s = .next t ∧ (t.core c).cpe = (s.core c).cpe ∧ t.parts = s.parts ∧ t.memory = s.memory ∧ t.reqs = s.reqs
        ∧ ∃ v ∈ t.agenda, v.cycle = r.entry s.chron ∧ v.core = c ∧ v.instr = .commandEntry c id)
  ∧ (∀ (s : State) c id r x p, s.req id = some r → s.mate r = none → r.dest = .cmd x → x.op ≠ 0x35 → x.isRec = false → (s.fixedLeg c = false ∨ blkFollow r.result = false) → blockBad x.op r.result = true →
      r.entry s.chron ≤ s.chron → s.partOf c = some p → Running s p → ∃ t, exec (.commandEntry c id) s = .next t
        ∧ (∃ h, (t.part p).halting = some h ∧ h.code = 0x15 ∧ h.cycle = s.chron ∧ h.core = s.logical p c ∧ h.eng = 4 ∧ h.pc = -1)
        ∧ (∃ v ∈ t.agenda, v.cycle = s.chron + 8 ∧ v.part = p ∧ v.instr = .partitionHalt) ∧ (t.core c).cpe = (s.core c).cpe ∧ t.memory = s.memory)
  ∧ (∀ s : State, s.me.cpe.poll ≠ some s.chron → exec .sectorStart s = .next s)
  ∧ (∀ (s : State) x q, let w := s.chron + x.beats q + x.reach s.cur - 1 + (if s.fixedLeg s.cur then 0 else Config.walkLatency s.freeIx)
      let takes : Bool := blkTake x.in_.block && !x.taken
      s.me.cpe.poll = some s.chron → s.preStopped s.cur = false → s.me.cpe.head = some x → x.nextSector = some q → s.cpeMay s.cur = true → x.hold = false →
      (x.alone q = false ∨ x.active = []) → s.me.cpe.inFlight < 64 → s.me.cpe.free ≤ s.chron → s.entersBefore s.cur x.in_.num = false →
      (x.in_.acq = true → ∀ i ∈ x.in_.deps, s.unperformed i = false) → (takes = true → s.me.ctl.hasTok 4 x.in_.from_ = true ∧ (s.fixedLeg s.cur = true → x.in_.from_ < 8)) →
      s.me.pipe.free (x.holds s.cur q s.chron w) = true → ∃ t, exec .sectorStart s = .next t
        ∧ (∃ y ∈ t.me.cpe.cmds, y.cmdid = x.cmdid ∧ y.next = q + 1 ∧ y.active = x.active ++ [(q, w)] ∧ y.taken = true) ∧ t.me.cpe.free = s.chron + x.beats q
        ∧ (∃ v ∈ t.agenda, v.cycle = w ∧ v.core = s.cur ∧ v.instr = .sectorDone s.cur (BitVec.ofNat 16 x.cmdid) q)
        ∧ (∀ cl ∈ x.holds s.cur q s.chron w, cl ∈ t.me.pipe.claims) ∧ t.memory = s.memory ∧ t.me.seq = s.me.seq ∧ t.me.ctl = (if takes then s.me.ctl.take 4 x.in_.from_ else s.me.ctl) ∧ t.reqs = s.reqs
        ∧ (∀ c, c ≠ s.cur → t.core c = s.core c) ∧ (takes = false ∨ x.in_.from_ < 8 → t.parts = s.parts))
  ∧ (∀ (s : State) c cmd q, (∀ x ∈ (s.core c).cpe.cmds, x.cmdid = cmd.toNat → ∀ y ∈ x.active, y.1 ≠ q) → exec (.sectorDone c cmd q) s = .next s)
  ∧ (∀ (s : State) c (cmd : BitVec 16) x p q w keys, s.cmd c cmd.toNat = some x → s.partOf c = some p → (q, w) ∈ x.active → w ≤ s.chron → (s.part p).halting = none → (s.core c).killed = false →
      x.op = 0x33 → x.dst.w ≤ 64 →
      let outs := x.put (x.elems q) ((x.elems q).map fun _ => blkW x.in_.block 0x58 8 % 2 ^ x.dst.w) []
      let pieces := (outs.map fun o => (cutAcc o.acc).map fun a => (a, (o.bytes.drop (a.a - o.acc.a)).take a.n)).flatten
      (∀ y ∈ pieces, y.1.sl = true ∨ y.1.a / 2 ^ 52 ≠ 3 ∨ isOwnSpad c y.1.a = true) →
      s.locateAll c p true (pieces.map (·.1)) = .ok (List.zipWith (fun y k => (y.1, Loc.key k)) pieces keys) → keys.length = pieces.length →
      ∃ t, exec (.sectorDone c cmd q) s = .next t ∧ t.memory = (List.zip keys pieces).foldl (fun m y => writeBytes m y.1 y.2.2) s.memory
        ∧ (∃ y ∈ (t.core c).cpe.cmds, y.cmdid = x.cmdid ∧ y.written = x.written ++ [q] ∧ y.faulted = x.faulted ∧ (∀ z ∈ y.active, z.1 ≠ q))
        ∧ (t.core c).seq = (s.core c).seq ∧ (t.core c).ctl = (s.core c).ctl ∧ (∀ o, o ≠ c → t.core o = s.core o) ∧ t.parts = s.parts)
  ∧ (∀ (s : State) c (cmd : BitVec 16) x p, s.cmd c cmd.toNat = some x → s.partOf c = some p → s.cpeMay c = true → x.stage = 0 → x.active = [] → x.hold = false → x.nextSector = none →
      blkTake x.in_.block = false ∨ x.taken = true → x.faulted = [] → x.in_.rel = false ∨ s.fixedLeg c = true → ∃ t, exec (.commandComplete c cmd) s = .next t
        ∧ (∃ y ∈ (t.core c).cpe.cmds, y.cmdid = x.cmdid ∧ y.stage = 1 ∧ y.done = true ∧ y.waits = [])
        ∧ (∃ v ∈ t.agenda, v.cycle = s.chron ∧ v.core = c ∧ v.instr = .commandComplete c cmd) ∧ t.memory = s.memory ∧ t.parts = s.parts ∧ (x.in_.op ≠ 0x34 → (t.core c).seq = (s.core c).seq)
        ∧ (x.in_.op = 0x34 → ∀ r, (t.core c).seq.gpr r = if r = x.in_.d ∧ r ≠ 0 then BitVec.ofNat 64 (ofBytes (x.record.take 8)) else (s.core c).seq.gpr r)
        ∧ (∀ o, o ≠ c → t.core o = s.core o))
  ∧ (∀ (s : State) c (cmd : BitVec 16) x p i, s.cmd c cmd.toNat = some x → s.partOf c = some p → s.cpeMay c = true → x.stage = 1 → i ∈ x.waits → s.unperformed i = true →
      exec (.commandComplete c cmd) s = .next (s.schedC (s.chron + 1) c (.commandComplete c cmd)))
  ∧ (∀ (s : State) c (cmd : BitVec 16) x p, s.cmd c cmd.toNat = some x → s.partOf c = some p → s.cpeMay c = true → x.stage = 1 → (∀ i ∈ x.waits, s.unperformed i = false) →
      let w := s.chron + (if isOwnSpad c x.in_.recIa then 24 else 192) + (if s.fixedLeg c then 0 else Config.walkLatency s.freeIx)
      let holds := cpeHolds c [{ h := 0xFFFF, sl := false, a := x.in_.recIa, n := 64 }] s.chron w
      (s.part p).recordHeld c 4 = false → x.in_.recVa ≠ 0 → (s.core c).pipe.free holds = true → ∃ t, exec (.commandComplete c cmd) s = .next t
        ∧ { x with stage := 2 } ∈ (t.core c).cpe.cmds ∧ (∀ cl ∈ holds, cl ∈ (t.core c).pipe.claims)
        ∧ (∃ v ∈ t.agenda, v.cycle = w ∧ v.core = c ∧ v.instr = .commandComplete c cmd) ∧ t.memory = s.memory ∧ t.parts = s.parts ∧ (t.core c).seq = (s.core c).seq ∧ (∀ o, o ≠ c → t.core o = s.core o))
  ∧ (∀ (s : State) c (cmd : BitVec 16) x p l, s.cmd c cmd.toNat = some x → s.partOf c = some p → s.cpeMay c = true → 2 ≤ x.stage → x.in_.recErr = 0 → x.faulted = [] →
      x.in_.recIa / 2 ^ 52 ≠ 3 ∨ isOwnSpad c x.in_.recIa = true → s.locate c p true { h := 0xFFFF, sl := false, a := x.in_.recIa, n := 64 } = .ok (.key l) →
      let f := fifoIx 4 x.in_.to_
      (blkGive x.in_.block = true → (s.core c).ctl.giveOk 4 x.in_.to_ = true) → x.in_.to_ < 4 → ∃ t, exec (.commandComplete c cmd) s = .next t ∧ t.memory = writeBytes s.memory l x.record
        ∧ (∀ y, y ∈ (t.core c).cpe.cmds ↔ y ∈ (s.core c).cpe.cmds ∧ y.cmdid ≠ x.cmdid)
        ∧ (t.core c).ctl.occ f = (s.core c).ctl.occ f + (if blkGive x.in_.block then 1 else 0)
        ∧ (t.core c).cpe.follow = (s.core c).cpe.follow ++ (if blkFollow x.in_.block then [(BitVec.ofNat 32 (blkW x.in_.block 8 4), s.chron + 1)] else [])
        ∧ (blkFollow x.in_.block = true → ∃ v ∈ t.agenda, v.cycle = s.chron + 1 ∧ v.core = c ∧ v.instr = .followOnIssue)
        ∧ (t.core c).seq = (s.core c).seq ∧ (∀ o, o ≠ c → t.core o = s.core o) ∧ t.parts = s.parts)
  ∧ (∀ s : State, s.me.cpe.follow = [] → exec .followOnIssue s = .next s)
  ∧ (∀ (s : State) w t0 r, s.me.cpe.follow = (w, t0) :: r → s.chron < t0 → exec .followOnIssue s = .next (s.schedC t0 s.cur .followOnIssue))
  ∧ (∀ (s : State) w t0 r h, s.me.cpe.follow = (w, t0) :: r → t0 ≤ s.chron → s.preStopped s.cur = false → s.cpeMay s.cur = true → decode .bke w.toNat = .ok (.bclr h) → h.t = false → h.g = false →
      s.me.pipe.until_ bAdders s.chron = false → ∃ t, exec .followOnIssue s = .next t ∧ t.me.cpe.follow = r ∧ t.me.bke.bucket = Vector.replicate 2048 0 ∧ t.me.bke.blive = false
        ∧ t.me.bke.q.pc = s.me.bke.q.pc ∧ t.me.bke.q.st = s.me.bke.q.st ∧ s.chron < t.me.bke.q.notBefore ∧ t.me.bke.win = s.me.bke.win ∧ t.me.bke.vis = s.me.bke.vis ∧ t.me.seq = s.me.seq ∧ t.me.ctl = s.me.ctl
        ∧ (r ≠ [] → ∃ v ∈ t.agenda, v.cycle = s.chron + 1 ∧ v.core = s.cur ∧ v.instr = .followOnIssue) ∧ t.memory = s.memory ∧ t.parts = s.parts ∧ (∀ c, c ≠ s.cur → t.core c = s.core c))
  ∧ (∀ (s : State) w t0 r h n, s.me.cpe.follow = (w, t0) :: r → t0 ≤ s.chron → s.preStopped s.cur = false → s.cpeMay s.cur = true → decode .bke w.toNat = .ok (.idle h n) → h.t = false → h.g = false →
      ∃ t, exec .followOnIssue s = .next t ∧ t.me.cpe.follow = r ∧ t.me.bke.q.notBefore = max s.me.bke.q.notBefore (s.chron + 1 + n.toNat) ∧ t.me.bke.q.pc = s.me.bke.q.pc ∧ t.me.bke.q.st = s.me.bke.q.st
        ∧ t.memory = s.memory ∧ t.parts = s.parts ∧ t.me.seq = s.me.seq ∧ t.me.ctl = s.me.ctl ∧ (∀ c, c ≠ s.cur → t.core c = s.core c))
  ∧ ∀ (s : State) w t0 r e p, s.me.cpe.follow = (w, t0) :: r → t0 ≤ s.chron → s.preStopped s.cur = false → s.cpeMay s.cur = true → (decode .bke w.toNat = .error e ∨ (decode .bke w.toNat).toOption.any isLoopWord = true) → (hdrOf w.toNat).t = false →
      s.partOf s.cur = some p → Running s p → ∃ t, exec .followOnIssue s = .next t ∧ Halts s t p .bke 0x01 (-4) ∧ t.me.cpe.follow = r ∧ t.memory = s.memory
end

