-- ==== Sys2Proof/Laws/Table.lean ====
section
/-! SUPPORT. Laws of the sparse tables and of memory: read after write, and the canonical form every memory operation
keeps. -/

namespace Sys2Proof.Machine

/-! ## Sparse tables -/

@[simp] theorem tget_tput {α : Type} (l : List (Nat × α)) (a : Nat) (v : α) : tget (tput l a v) a = some v := by
  induction l with
  | nil => simp [tput, tget]
  | cons x r ih =>
    obtain ⟨k, y⟩ := x
    simp only [tput]
    split
    · simp [tget]
    · split
      · simp [tget]
      · rename_i h; simp [tget, ih, Ne.symm h]

theorem tget_tput_ne {α : Type} (l : List (Nat × α)) (v : α) {a b : Nat} (h : b ≠ a) : tget (tput l a v) b = tget l b := by
  induction l with
  | nil => simp [tput, tget, Ne.symm h]
  | cons x r ih =>
    obtain ⟨k, y⟩ := x
    simp only [tput]
    split
    · simp [tget, Ne.symm h]
    · split
      · subst_vars; simp [tget, Ne.symm h]
      · simp [tget, ih]

/-! ## The canonical form of memory -/

theorem Memory.wfFrom_mono {lo hi : Nat} (h : lo ≤ hi) {m : List Host.Cell} (w : Memory.wfFrom hi m = true) :
    Memory.wfFrom lo m = true := by
  cases m with
  | nil => rfl
  | cons x r => simp only [Memory.wfFrom, Bool.and_eq_true, decide_eq_true_eq] at *; exact ⟨⟨by omega, w.1.2⟩, w.2⟩

theorem Memory.wfFrom_writeByte {m : List Host.Cell} {lo a : Nat} (v : Byte) (h : lo ≤ a) (w : Memory.wfFrom lo m = true) :
    Memory.wfFrom lo (writeByte m a v) = true := by
  induction m generalizing lo with
  | nil => simp only [writeByte]; split <;> simp_all [Memory.wfFrom]
  | cons x r ih =>
    obtain ⟨k, y⟩ := x
    simp only [Memory.wfFrom, Bool.and_eq_true, decide_eq_true_eq] at w
    simp only [writeByte]
    split
    · split
      · simp only [Memory.wfFrom, Bool.and_eq_true, decide_eq_true_eq]; exact w
      · simp only [Memory.wfFrom, Bool.and_eq_true, decide_eq_true_eq]; exact ⟨⟨h, by assumption⟩, ⟨by omega, w.1.2⟩, w.2⟩
    · split
      · subst_vars
        split
        · exact Memory.wfFrom_mono (by omega) w.2
        · simp only [Memory.wfFrom, Bool.and_eq_true, decide_eq_true_eq]; exact ⟨⟨h, by assumption⟩, w.2⟩
      · simp only [Memory.wfFrom, Bool.and_eq_true, decide_eq_true_eq]
        exact ⟨w.1, ih (by omega) w.2⟩

/-- Writing a byte keeps the canonical form. -/
theorem Memory.wf_writeByte {m : List Host.Cell} (a : Nat) (v : Byte) (w : Memory.wf m = true) : Memory.wf (writeByte m a v) = true :=
  Memory.wfFrom_writeByte v (Nat.zero_le a) w

/-- Writing bytes keeps the canonical form. -/
theorem Memory.wf_writeBytes {m : List Host.Cell} (a : Nat) (bs : List Byte) (w : Memory.wf m = true) :
    Memory.wf (writeBytes m a bs) = true := by
  induction bs generalizing m a with
  | nil => exact w
  | cons b r ih => exact ih (a + 1) (Memory.wf_writeByte a b w)

/-- Dropping entries keeps the canonical form. -/
theorem Memory.wfFrom_filter {m : List Host.Cell} {lo : Nat} (f : Host.Cell → Bool) (w : Memory.wfFrom lo m = true) :
    Memory.wfFrom lo (m.filter f) = true := by
  induction m generalizing lo with
  | nil => rfl
  | cons x r ih =>
    obtain ⟨k, y⟩ := x
    simp only [Memory.wfFrom, Bool.and_eq_true, decide_eq_true_eq] at w
    simp only [List.filter_cons]
    split
    · simp only [Memory.wfFrom, Bool.and_eq_true, decide_eq_true_eq]; exact ⟨w.1, ih w.2⟩
    · exact Memory.wfFrom_mono (by omega) (ih w.2)

/-- Dropping entries keeps the canonical form. -/
theorem Memory.wf_filter {m : List Host.Cell} (f : Host.Cell → Bool) (w : Memory.wf m = true) : Memory.wf (m.filter f) = true :=
  Memory.wfFrom_filter f w

/-! ## Read after write -/

theorem readByte_below {m : List Host.Cell} {lo a : Nat} (w : Memory.wfFrom lo m = true) (h : a < lo) : readByte m a = 0 := by
  induction m generalizing lo with
  | nil => rfl
  | cons x r ih =>
    obtain ⟨k, y⟩ := x
    simp only [Memory.wfFrom, Bool.and_eq_true, decide_eq_true_eq] at w
    have : k ≠ a := by omega
    simp only [readByte, this, if_false]
    exact ih w.2 (by omega)

theorem readByte_writeByte_from {m : List Host.Cell} {lo : Nat} (a : Nat) (v : Byte) (w : Memory.wfFrom lo m = true) (b : Nat) :
    readByte (writeByte m a v) b = if b = a then v else readByte m b := by
  induction m generalizing lo with
  | nil =>
    by_cases e : b = a
    · subst e; by_cases z : v = 0#8 <;> simp [writeByte, readByte, z]
    · have e' : a ≠ b := fun h => e h.symm
      by_cases z : v = 0#8 <;> simp [writeByte, readByte, z, e, e']
  | cons x r ih =>
    obtain ⟨k, y⟩ := x
    simp only [Memory.wfFrom, Bool.and_eq_true, decide_eq_true_eq] at w
    have ih := ih w.2
    simp only [writeByte]
    by_cases lt : a < k
    · have z2 : readByte r a = 0 := readByte_below w.2 (by omega)
      have ka : k ≠ a := by omega
      by_cases e : b = a
      · subst e; by_cases z : v = 0#8 <;> simp [readByte, z, lt, ka, z2]
      · have e' : a ≠ b := fun h => e h.symm
        by_cases z : v = 0#8 <;> simp [readByte, z, lt, e, e']
    · by_cases ak : a = k
      · subst ak
        have z2 : readByte r a = 0 := readByte_below w.2 (by omega)
        by_cases e : b = a
        · subst e; by_cases z : v = 0#8 <;> simp [readByte, z, z2]
        · have e' : a ≠ b := fun h => e h.symm
          by_cases z : v = 0#8 <;> simp [readByte, z, e, e']
      · by_cases e : k = b
        · subst e; simp [readByte, lt, ak, Ne.symm ak]
        · simp [readByte, lt, ak, e, ih]

/-- The byte read at a key after a byte was written: the new one at its key, as before at every other. -/
theorem readByte_writeByte {m : List Host.Cell} (a : Nat) (v : Byte) (w : Memory.wf m = true) (b : Nat) :
    readByte (writeByte m a v) b = if b = a then v else readByte m b := readByte_writeByte_from a v w b

/-- The byte read at a key after bytes were written: the byte of the list that belongs there, as before outside. -/
theorem readByte_writeBytes {m : List Host.Cell} (a : Nat) (bs : List Byte) (w : Memory.wf m = true) (b : Nat) :
    readByte (writeBytes m a bs) b = if a ≤ b ∧ b < a + bs.length then bs.getD (b - a) 0 else readByte m b := by
  induction bs generalizing m a with
  | nil => have : ¬ (a ≤ b ∧ b < a + ([] : List Byte).length) := by simp
           rw [if_neg this]; rfl
  | cons x r ih =>
    rw [writeBytes, ih (a + 1) (Memory.wf_writeByte a x w), readByte_writeByte a x w]
    simp only [List.length_cons]
    by_cases e : b = a
    · subst e; simp
    · by_cases l : a + 1 ≤ b ∧ b < a + 1 + r.length
      · have l2 : a ≤ b ∧ b < a + (r.length + 1) := by omega
        rw [if_pos l, if_pos l2, show b - a = (b - (a + 1)) + 1 by omega]; simp
      · have l2 : ¬ (a ≤ b ∧ b < a + (r.length + 1)) := by omega
        rw [if_neg l, if_neg l2, if_neg e]

/-- Outside the bytes written memory reads as before. -/
theorem readByte_writeBytes_outside {m : List Host.Cell} (a : Nat) (bs : List Byte) (w : Memory.wf m = true) {b : Nat}
    (h : b < a ∨ a + bs.length ≤ b) : readByte (writeBytes m a bs) b = readByte m b := by
  rw [readByte_writeBytes a bs w, if_neg]; omega

/-- The memory of reset is in canonical form. -/
theorem Memory.wf_nil : Memory.wf [] = true := rfl

end Sys2Proof.Machine
end

