-- ==== Sys2Proof/Laws/State.lean ====
section
/-! SUPPORT. Field lemmas of the updates of State: what each update leaves and what it changes, once. -/

namespace Sys2Proof.Machine

variable (s : State)

/-! ## setCore -/

@[simp] theorem State.setCore_chron (c : CoreIx) (k : Core) : (s.setCore c k).chron = s.chron := rfl
@[simp] theorem State.setCore_off (c : CoreIx) (k : Core) : (s.setCore c k).off = s.off := rfl
@[simp] theorem State.setCore_frzCtl (c : CoreIx) (k : Core) : (s.setCore c k).frzCtl = s.frzCtl := rfl
@[simp] theorem State.setCore_frzMsg (c : CoreIx) (k : Core) : (s.setCore c k).frzMsg = s.frzMsg := rfl
@[simp] theorem State.setCore_frozen (c : CoreIx) (k : Core) : (s.setCore c k).frozen = s.frozen := rfl
@[simp] theorem State.setCore_helm (c : CoreIx) (k : Core) : (s.setCore c k).helm = s.helm := rfl
@[simp] theorem State.setCore_hif (c : CoreIx) (k : Core) : (s.setCore c k).hif = s.hif := rfl
@[simp] theorem State.setCore_ms (c : CoreIx) (k : Core) : (s.setCore c k).ms = s.ms := rfl
@[simp] theorem State.setCore_mig (c : CoreIx) (k : Core) : (s.setCore c k).mig = s.mig := rfl
@[simp] theorem State.setCore_fab (c : CoreIx) (k : Core) : (s.setCore c k).fab = s.fab := rfl
@[simp] theorem State.setCore_cols (c : CoreIx) (k : Core) : (s.setCore c k).cols = s.cols := rfl
@[simp] theorem State.setCore_parts (c : CoreIx) (k : Core) : (s.setCore c k).parts = s.parts := rfl
@[simp] theorem State.setCore_memory (c : CoreIx) (k : Core) : (s.setCore c k).memory = s.memory := rfl
@[simp] theorem State.setCore_reqs (c : CoreIx) (k : Core) : (s.setCore c k).reqs = s.reqs := rfl
@[simp] theorem State.setCore_agenda (c : CoreIx) (k : Core) : (s.setCore c k).agenda = s.agenda := rfl
@[simp] theorem State.setCore_inputs (c : CoreIx) (k : Core) : (s.setCore c k).inputs = s.inputs := rfl
@[simp] theorem State.setCore_occurs (c : CoreIx) (k : Core) : (s.setCore c k).occurs = s.occurs := rfl
@[simp] theorem State.setCore_cur (c : CoreIx) (k : Core) : (s.setCore c k).cur = s.cur := rfl
@[simp] theorem State.setCore_eng (c : CoreIx) (k : Core) : (s.setCore c k).eng = s.eng := rfl
@[simp] theorem State.setCore_curPart (c : CoreIx) (k : Core) : (s.setCore c k).curPart = s.curPart := rfl
@[simp] theorem State.setCore_curLink (c : CoreIx) (k : Core) : (s.setCore c k).curLink = s.curLink := rfl
@[simp] theorem State.setCore_freeIx (c : CoreIx) (k : Core) : (s.setCore c k).freeIx = s.freeIx := rfl
@[simp] theorem State.setCore_nextId (c : CoreIx) (k : Core) : (s.setCore c k).nextId = s.nextId := rfl
@[simp] theorem State.setCore_col (c : CoreIx) (k : Core) (x : CoreIx) : (s.setCore c k).col x = s.col x := rfl
@[simp] theorem State.setCore_part (c : CoreIx) (k : Core) (x : PartIx) : (s.setCore c k).part x = s.part x := rfl
@[simp] theorem State.setCore_partOf (c : CoreIx) (k : Core) (x : CoreIx) : (s.setCore c k).partOf x = s.partOf x := rfl

/-! ## upd -/

@[simp] theorem State.upd_chron (c : CoreIx) (f : Core → Core) : (s.upd c f).chron = s.chron := rfl
@[simp] theorem State.upd_off (c : CoreIx) (f : Core → Core) : (s.upd c f).off = s.off := rfl
@[simp] theorem State.upd_frzCtl (c : CoreIx) (f : Core → Core) : (s.upd c f).frzCtl = s.frzCtl := rfl
@[simp] theorem State.upd_frzMsg (c : CoreIx) (f : Core → Core) : (s.upd c f).frzMsg = s.frzMsg := rfl
@[simp] theorem State.upd_frozen (c : CoreIx) (f : Core → Core) : (s.upd c f).frozen = s.frozen := rfl
@[simp] theorem State.upd_helm (c : CoreIx) (f : Core → Core) : (s.upd c f).helm = s.helm := rfl
@[simp] theorem State.upd_hif (c : CoreIx) (f : Core → Core) : (s.upd c f).hif = s.hif := rfl
@[simp] theorem State.upd_ms (c : CoreIx) (f : Core → Core) : (s.upd c f).ms = s.ms := rfl
@[simp] theorem State.upd_mig (c : CoreIx) (f : Core → Core) : (s.upd c f).mig = s.mig := rfl
@[simp] theorem State.upd_fab (c : CoreIx) (f : Core → Core) : (s.upd c f).fab = s.fab := rfl
@[simp] theorem State.upd_cols (c : CoreIx) (f : Core → Core) : (s.upd c f).cols = s.cols := rfl
@[simp] theorem State.upd_parts (c : CoreIx) (f : Core → Core) : (s.upd c f).parts = s.parts := rfl
@[simp] theorem State.upd_memory (c : CoreIx) (f : Core → Core) : (s.upd c f).memory = s.memory := rfl
@[simp] theorem State.upd_reqs (c : CoreIx) (f : Core → Core) : (s.upd c f).reqs = s.reqs := rfl
@[simp] theorem State.upd_agenda (c : CoreIx) (f : Core → Core) : (s.upd c f).agenda = s.agenda := rfl
@[simp] theorem State.upd_inputs (c : CoreIx) (f : Core → Core) : (s.upd c f).inputs = s.inputs := rfl
@[simp] theorem State.upd_occurs (c : CoreIx) (f : Core → Core) : (s.upd c f).occurs = s.occurs := rfl
@[simp] theorem State.upd_cur (c : CoreIx) (f : Core → Core) : (s.upd c f).cur = s.cur := rfl
@[simp] theorem State.upd_eng (c : CoreIx) (f : Core → Core) : (s.upd c f).eng = s.eng := rfl
@[simp] theorem State.upd_curPart (c : CoreIx) (f : Core → Core) : (s.upd c f).curPart = s.curPart := rfl
@[simp] theorem State.upd_curLink (c : CoreIx) (f : Core → Core) : (s.upd c f).curLink = s.curLink := rfl
@[simp] theorem State.upd_freeIx (c : CoreIx) (f : Core → Core) : (s.upd c f).freeIx = s.freeIx := rfl
@[simp] theorem State.upd_nextId (c : CoreIx) (f : Core → Core) : (s.upd c f).nextId = s.nextId := rfl
@[simp] theorem State.upd_col (c : CoreIx) (f : Core → Core) (x : CoreIx) : (s.upd c f).col x = s.col x := rfl
@[simp] theorem State.upd_part (c : CoreIx) (f : Core → Core) (x : PartIx) : (s.upd c f).part x = s.part x := rfl
@[simp] theorem State.upd_partOf (c : CoreIx) (f : Core → Core) (x : CoreIx) : (s.upd c f).partOf x = s.partOf x := rfl

/-! ## updMe -/

@[simp] theorem State.updMe_chron (f : Core → Core) : (s.updMe f).chron = s.chron := rfl
@[simp] theorem State.updMe_off (f : Core → Core) : (s.updMe f).off = s.off := rfl
@[simp] theorem State.updMe_frzCtl (f : Core → Core) : (s.updMe f).frzCtl = s.frzCtl := rfl
@[simp] theorem State.updMe_frzMsg (f : Core → Core) : (s.updMe f).frzMsg = s.frzMsg := rfl
@[simp] theorem State.updMe_frozen (f : Core → Core) : (s.updMe f).frozen = s.frozen := rfl
@[simp] theorem State.updMe_helm (f : Core → Core) : (s.updMe f).helm = s.helm := rfl
@[simp] theorem State.updMe_hif (f : Core → Core) : (s.updMe f).hif = s.hif := rfl
@[simp] theorem State.updMe_ms (f : Core → Core) : (s.updMe f).ms = s.ms := rfl
@[simp] theorem State.updMe_mig (f : Core → Core) : (s.updMe f).mig = s.mig := rfl
@[simp] theorem State.updMe_fab (f : Core → Core) : (s.updMe f).fab = s.fab := rfl
@[simp] theorem State.updMe_cols (f : Core → Core) : (s.updMe f).cols = s.cols := rfl
@[simp] theorem State.updMe_parts (f : Core → Core) : (s.updMe f).parts = s.parts := rfl
@[simp] theorem State.updMe_memory (f : Core → Core) : (s.updMe f).memory = s.memory := rfl
@[simp] theorem State.updMe_reqs (f : Core → Core) : (s.updMe f).reqs = s.reqs := rfl
@[simp] theorem State.updMe_agenda (f : Core → Core) : (s.updMe f).agenda = s.agenda := rfl
@[simp] theorem State.updMe_inputs (f : Core → Core) : (s.updMe f).inputs = s.inputs := rfl
@[simp] theorem State.updMe_occurs (f : Core → Core) : (s.updMe f).occurs = s.occurs := rfl
@[simp] theorem State.updMe_cur (f : Core → Core) : (s.updMe f).cur = s.cur := rfl
@[simp] theorem State.updMe_eng (f : Core → Core) : (s.updMe f).eng = s.eng := rfl
@[simp] theorem State.updMe_curPart (f : Core → Core) : (s.updMe f).curPart = s.curPart := rfl
@[simp] theorem State.updMe_curLink (f : Core → Core) : (s.updMe f).curLink = s.curLink := rfl
@[simp] theorem State.updMe_freeIx (f : Core → Core) : (s.updMe f).freeIx = s.freeIx := rfl
@[simp] theorem State.updMe_nextId (f : Core → Core) : (s.updMe f).nextId = s.nextId := rfl
@[simp] theorem State.updMe_col (f : Core → Core) (x : CoreIx) : (s.updMe f).col x = s.col x := rfl
@[simp] theorem State.updMe_part (f : Core → Core) (x : PartIx) : (s.updMe f).part x = s.part x := rfl
@[simp] theorem State.updMe_partOf (f : Core → Core) (x : CoreIx) : (s.updMe f).partOf x = s.partOf x := rfl

/-! ## updSeq -/

@[simp] theorem State.updSeq_chron (f : Seq → Seq) : (s.updSeq f).chron = s.chron := rfl
@[simp] theorem State.updSeq_off (f : Seq → Seq) : (s.updSeq f).off = s.off := rfl
@[simp] theorem State.updSeq_frzCtl (f : Seq → Seq) : (s.updSeq f).frzCtl = s.frzCtl := rfl
@[simp] theorem State.updSeq_frzMsg (f : Seq → Seq) : (s.updSeq f).frzMsg = s.frzMsg := rfl
@[simp] theorem State.updSeq_frozen (f : Seq → Seq) : (s.updSeq f).frozen = s.frozen := rfl
@[simp] theorem State.updSeq_helm (f : Seq → Seq) : (s.updSeq f).helm = s.helm := rfl
@[simp] theorem State.updSeq_hif (f : Seq → Seq) : (s.updSeq f).hif = s.hif := rfl
@[simp] theorem State.updSeq_ms (f : Seq → Seq) : (s.updSeq f).ms = s.ms := rfl
@[simp] theorem State.updSeq_mig (f : Seq → Seq) : (s.updSeq f).mig = s.mig := rfl
@[simp] theorem State.updSeq_fab (f : Seq → Seq) : (s.updSeq f).fab = s.fab := rfl
@[simp] theorem State.updSeq_cols (f : Seq → Seq) : (s.updSeq f).cols = s.cols := rfl
@[simp] theorem State.updSeq_parts (f : Seq → Seq) : (s.updSeq f).parts = s.parts := rfl
@[simp] theorem State.updSeq_memory (f : Seq → Seq) : (s.updSeq f).memory = s.memory := rfl
@[simp] theorem State.updSeq_reqs (f : Seq → Seq) : (s.updSeq f).reqs = s.reqs := rfl
@[simp] theorem State.updSeq_agenda (f : Seq → Seq) : (s.updSeq f).agenda = s.agenda := rfl
@[simp] theorem State.updSeq_inputs (f : Seq → Seq) : (s.updSeq f).inputs = s.inputs := rfl
@[simp] theorem State.updSeq_occurs (f : Seq → Seq) : (s.updSeq f).occurs = s.occurs := rfl
@[simp] theorem State.updSeq_cur (f : Seq → Seq) : (s.updSeq f).cur = s.cur := rfl
@[simp] theorem State.updSeq_eng (f : Seq → Seq) : (s.updSeq f).eng = s.eng := rfl
@[simp] theorem State.updSeq_curPart (f : Seq → Seq) : (s.updSeq f).curPart = s.curPart := rfl
@[simp] theorem State.updSeq_curLink (f : Seq → Seq) : (s.updSeq f).curLink = s.curLink := rfl
@[simp] theorem State.updSeq_freeIx (f : Seq → Seq) : (s.updSeq f).freeIx = s.freeIx := rfl
@[simp] theorem State.updSeq_nextId (f : Seq → Seq) : (s.updSeq f).nextId = s.nextId := rfl
@[simp] theorem State.updSeq_col (f : Seq → Seq) (x : CoreIx) : (s.updSeq f).col x = s.col x := rfl
@[simp] theorem State.updSeq_part (f : Seq → Seq) (x : PartIx) : (s.updSeq f).part x = s.part x := rfl
@[simp] theorem State.updSeq_partOf (f : Seq → Seq) (x : CoreIx) : (s.updSeq f).partOf x = s.partOf x := rfl

/-! ## updCol -/

@[simp] theorem State.updCol_chron (c : CoreIx) (f : Column → Column) : (s.updCol c f).chron = s.chron := rfl
@[simp] theorem State.updCol_off (c : CoreIx) (f : Column → Column) : (s.updCol c f).off = s.off := rfl
@[simp] theorem State.updCol_frzCtl (c : CoreIx) (f : Column → Column) : (s.updCol c f).frzCtl = s.frzCtl := rfl
@[simp] theorem State.updCol_frzMsg (c : CoreIx) (f : Column → Column) : (s.updCol c f).frzMsg = s.frzMsg := rfl
@[simp] theorem State.updCol_frozen (c : CoreIx) (f : Column → Column) : (s.updCol c f).frozen = s.frozen := rfl
@[simp] theorem State.updCol_helm (c : CoreIx) (f : Column → Column) : (s.updCol c f).helm = s.helm := rfl
@[simp] theorem State.updCol_hif (c : CoreIx) (f : Column → Column) : (s.updCol c f).hif = s.hif := rfl
@[simp] theorem State.updCol_ms (c : CoreIx) (f : Column → Column) : (s.updCol c f).ms = s.ms := rfl
@[simp] theorem State.updCol_mig (c : CoreIx) (f : Column → Column) : (s.updCol c f).mig = s.mig := rfl
@[simp] theorem State.updCol_fab (c : CoreIx) (f : Column → Column) : (s.updCol c f).fab = s.fab := rfl
@[simp] theorem State.updCol_cores (c : CoreIx) (f : Column → Column) : (s.updCol c f).cores = s.cores := rfl
@[simp] theorem State.updCol_parts (c : CoreIx) (f : Column → Column) : (s.updCol c f).parts = s.parts := rfl
@[simp] theorem State.updCol_memory (c : CoreIx) (f : Column → Column) : (s.updCol c f).memory = s.memory := rfl
@[simp] theorem State.updCol_reqs (c : CoreIx) (f : Column → Column) : (s.updCol c f).reqs = s.reqs := rfl
@[simp] theorem State.updCol_agenda (c : CoreIx) (f : Column → Column) : (s.updCol c f).agenda = s.agenda := rfl
@[simp] theorem State.updCol_inputs (c : CoreIx) (f : Column → Column) : (s.updCol c f).inputs = s.inputs := rfl
@[simp] theorem State.updCol_occurs (c : CoreIx) (f : Column → Column) : (s.updCol c f).occurs = s.occurs := rfl
@[simp] theorem State.updCol_cur (c : CoreIx) (f : Column → Column) : (s.updCol c f).cur = s.cur := rfl
@[simp] theorem State.updCol_eng (c : CoreIx) (f : Column → Column) : (s.updCol c f).eng = s.eng := rfl
@[simp] theorem State.updCol_curPart (c : CoreIx) (f : Column → Column) : (s.updCol c f).curPart = s.curPart := rfl
@[simp] theorem State.updCol_curLink (c : CoreIx) (f : Column → Column) : (s.updCol c f).curLink = s.curLink := rfl
@[simp] theorem State.updCol_freeIx (c : CoreIx) (f : Column → Column) : (s.updCol c f).freeIx = s.freeIx := rfl
@[simp] theorem State.updCol_nextId (c : CoreIx) (f : Column → Column) : (s.updCol c f).nextId = s.nextId := rfl
@[simp] theorem State.updCol_core (c : CoreIx) (f : Column → Column) (x : CoreIx) : (s.updCol c f).core x = s.core x := rfl
@[simp] theorem State.updCol_part (c : CoreIx) (f : Column → Column) (x : PartIx) : (s.updCol c f).part x = s.part x := rfl
@[simp] theorem State.updCol_partOf (c : CoreIx) (f : Column → Column) (x : CoreIx) : (s.updCol c f).partOf x = s.partOf x := rfl

/-! ## updPart -/

@[simp] theorem State.updPart_chron (p : PartIx) (f : Part → Part) : (s.updPart p f).chron = s.chron := rfl
@[simp] theorem State.updPart_off (p : PartIx) (f : Part → Part) : (s.updPart p f).off = s.off := rfl
@[simp] theorem State.updPart_frzCtl (p : PartIx) (f : Part → Part) : (s.updPart p f).frzCtl = s.frzCtl := rfl
@[simp] theorem State.updPart_frzMsg (p : PartIx) (f : Part → Part) : (s.updPart p f).frzMsg = s.frzMsg := rfl
@[simp] theorem State.updPart_frozen (p : PartIx) (f : Part → Part) : (s.updPart p f).frozen = s.frozen := rfl
@[simp] theorem State.updPart_helm (p : PartIx) (f : Part → Part) : (s.updPart p f).helm = s.helm := rfl
@[simp] theorem State.updPart_hif (p : PartIx) (f : Part → Part) : (s.updPart p f).hif = s.hif := rfl
@[simp] theorem State.updPart_ms (p : PartIx) (f : Part → Part) : (s.updPart p f).ms = s.ms := rfl
@[simp] theorem State.updPart_mig (p : PartIx) (f : Part → Part) : (s.updPart p f).mig = s.mig := rfl
@[simp] theorem State.updPart_fab (p : PartIx) (f : Part → Part) : (s.updPart p f).fab = s.fab := rfl
@[simp] theorem State.updPart_cores (p : PartIx) (f : Part → Part) : (s.updPart p f).cores = s.cores := rfl
@[simp] theorem State.updPart_cols (p : PartIx) (f : Part → Part) : (s.updPart p f).cols = s.cols := rfl
@[simp] theorem State.updPart_memory (p : PartIx) (f : Part → Part) : (s.updPart p f).memory = s.memory := rfl
@[simp] theorem State.updPart_reqs (p : PartIx) (f : Part → Part) : (s.updPart p f).reqs = s.reqs := rfl
@[simp] theorem State.updPart_agenda (p : PartIx) (f : Part → Part) : (s.updPart p f).agenda = s.agenda := rfl
@[simp] theorem State.updPart_inputs (p : PartIx) (f : Part → Part) : (s.updPart p f).inputs = s.inputs := rfl
@[simp] theorem State.updPart_occurs (p : PartIx) (f : Part → Part) : (s.updPart p f).occurs = s.occurs := rfl
@[simp] theorem State.updPart_cur (p : PartIx) (f : Part → Part) : (s.updPart p f).cur = s.cur := rfl
@[simp] theorem State.updPart_eng (p : PartIx) (f : Part → Part) : (s.updPart p f).eng = s.eng := rfl
@[simp] theorem State.updPart_curPart (p : PartIx) (f : Part → Part) : (s.updPart p f).curPart = s.curPart := rfl
@[simp] theorem State.updPart_curLink (p : PartIx) (f : Part → Part) : (s.updPart p f).curLink = s.curLink := rfl
@[simp] theorem State.updPart_freeIx (p : PartIx) (f : Part → Part) : (s.updPart p f).freeIx = s.freeIx := rfl
@[simp] theorem State.updPart_nextId (p : PartIx) (f : Part → Part) : (s.updPart p f).nextId = s.nextId := rfl
@[simp] theorem State.updPart_core (p : PartIx) (f : Part → Part) (x : CoreIx) : (s.updPart p f).core x = s.core x := rfl
@[simp] theorem State.updPart_col (p : PartIx) (f : Part → Part) (x : CoreIx) : (s.updPart p f).col x = s.col x := rfl
@[simp] theorem State.updPart_partOf (p : PartIx) (f : Part → Part) (x : CoreIx) : (s.updPart p f).partOf x = s.partOf x := rfl

/-! ## sched -/

@[simp] theorem State.sched_chron (t : Nat) (i : Instr) : (s.sched t i).chron = s.chron := rfl
@[simp] theorem State.sched_off (t : Nat) (i : Instr) : (s.sched t i).off = s.off := rfl
@[simp] theorem State.sched_frzCtl (t : Nat) (i : Instr) : (s.sched t i).frzCtl = s.frzCtl := rfl
@[simp] theorem State.sched_frzMsg (t : Nat) (i : Instr) : (s.sched t i).frzMsg = s.frzMsg := rfl
@[simp] theorem State.sched_frozen (t : Nat) (i : Instr) : (s.sched t i).frozen = s.frozen := rfl
@[simp] theorem State.sched_helm (t : Nat) (i : Instr) : (s.sched t i).helm = s.helm := rfl
@[simp] theorem State.sched_hif (t : Nat) (i : Instr) : (s.sched t i).hif = s.hif := rfl
@[simp] theorem State.sched_ms (t : Nat) (i : Instr) : (s.sched t i).ms = s.ms := rfl
@[simp] theorem State.sched_mig (t : Nat) (i : Instr) : (s.sched t i).mig = s.mig := rfl
@[simp] theorem State.sched_fab (t : Nat) (i : Instr) : (s.sched t i).fab = s.fab := rfl
@[simp] theorem State.sched_cores (t : Nat) (i : Instr) : (s.sched t i).cores = s.cores := rfl
@[simp] theorem State.sched_cols (t : Nat) (i : Instr) : (s.sched t i).cols = s.cols := rfl
@[simp] theorem State.sched_parts (t : Nat) (i : Instr) : (s.sched t i).parts = s.parts := rfl
@[simp] theorem State.sched_memory (t : Nat) (i : Instr) : (s.sched t i).memory = s.memory := rfl
@[simp] theorem State.sched_reqs (t : Nat) (i : Instr) : (s.sched t i).reqs = s.reqs := rfl
@[simp] theorem State.sched_inputs (t : Nat) (i : Instr) : (s.sched t i).inputs = s.inputs := rfl
@[simp] theorem State.sched_occurs (t : Nat) (i : Instr) : (s.sched t i).occurs = s.occurs := rfl
@[simp] theorem State.sched_cur (t : Nat) (i : Instr) : (s.sched t i).cur = s.cur := rfl
@[simp] theorem State.sched_eng (t : Nat) (i : Instr) : (s.sched t i).eng = s.eng := rfl
@[simp] theorem State.sched_curPart (t : Nat) (i : Instr) : (s.sched t i).curPart = s.curPart := rfl
@[simp] theorem State.sched_curLink (t : Nat) (i : Instr) : (s.sched t i).curLink = s.curLink := rfl
@[simp] theorem State.sched_freeIx (t : Nat) (i : Instr) : (s.sched t i).freeIx = s.freeIx := rfl
@[simp] theorem State.sched_nextId (t : Nat) (i : Instr) : (s.sched t i).nextId = s.nextId := rfl
@[simp] theorem State.sched_core (t : Nat) (i : Instr) (x : CoreIx) : (s.sched t i).core x = s.core x := rfl
@[simp] theorem State.sched_col (t : Nat) (i : Instr) (x : CoreIx) : (s.sched t i).col x = s.col x := rfl
@[simp] theorem State.sched_part (t : Nat) (i : Instr) (x : PartIx) : (s.sched t i).part x = s.part x := rfl
@[simp] theorem State.sched_partOf (t : Nat) (i : Instr) (x : CoreIx) : (s.sched t i).partOf x = s.partOf x := rfl

/-! ## schedC -/

@[simp] theorem State.schedC_chron (t : Nat) (c : CoreIx) (i : Instr) : (s.schedC t c i).chron = s.chron := rfl
@[simp] theorem State.schedC_off (t : Nat) (c : CoreIx) (i : Instr) : (s.schedC t c i).off = s.off := rfl
@[simp] theorem State.schedC_frzCtl (t : Nat) (c : CoreIx) (i : Instr) : (s.schedC t c i).frzCtl = s.frzCtl := rfl
@[simp] theorem State.schedC_frzMsg (t : Nat) (c : CoreIx) (i : Instr) : (s.schedC t c i).frzMsg = s.frzMsg := rfl
@[simp] theorem State.schedC_frozen (t : Nat) (c : CoreIx) (i : Instr) : (s.schedC t c i).frozen = s.frozen := rfl
@[simp] theorem State.schedC_helm (t : Nat) (c : CoreIx) (i : Instr) : (s.schedC t c i).helm = s.helm := rfl
@[simp] theorem State.schedC_hif (t : Nat) (c : CoreIx) (i : Instr) : (s.schedC t c i).hif = s.hif := rfl
@[simp] theorem State.schedC_ms (t : Nat) (c : CoreIx) (i : Instr) : (s.schedC t c i).ms = s.ms := rfl
@[simp] theorem State.schedC_mig (t : Nat) (c : CoreIx) (i : Instr) : (s.schedC t c i).mig = s.mig := rfl
@[simp] theorem State.schedC_fab (t : Nat) (c : CoreIx) (i : Instr) : (s.schedC t c i).fab = s.fab := rfl
@[simp] theorem State.schedC_cores (t : Nat) (c : CoreIx) (i : Instr) : (s.schedC t c i).cores = s.cores := rfl
@[simp] theorem State.schedC_cols (t : Nat) (c : CoreIx) (i : Instr) : (s.schedC t c i).cols = s.cols := rfl
@[simp] theorem State.schedC_parts (t : Nat) (c : CoreIx) (i : Instr) : (s.schedC t c i).parts = s.parts := rfl
@[simp] theorem State.schedC_memory (t : Nat) (c : CoreIx) (i : Instr) : (s.schedC t c i).memory = s.memory := rfl
@[simp] theorem State.schedC_reqs (t : Nat) (c : CoreIx) (i : Instr) : (s.schedC t c i).reqs = s.reqs := rfl
@[simp] theorem State.schedC_inputs (t : Nat) (c : CoreIx) (i : Instr) : (s.schedC t c i).inputs = s.inputs := rfl
@[simp] theorem State.schedC_occurs (t : Nat) (c : CoreIx) (i : Instr) : (s.schedC t c i).occurs = s.occurs := rfl
@[simp] theorem State.schedC_cur (t : Nat) (c : CoreIx) (i : Instr) : (s.schedC t c i).cur = s.cur := rfl
@[simp] theorem State.schedC_eng (t : Nat) (c : CoreIx) (i : Instr) : (s.schedC t c i).eng = s.eng := rfl
@[simp] theorem State.schedC_curPart (t : Nat) (c : CoreIx) (i : Instr) : (s.schedC t c i).curPart = s.curPart := rfl
@[simp] theorem State.schedC_curLink (t : Nat) (c : CoreIx) (i : Instr) : (s.schedC t c i).curLink = s.curLink := rfl
@[simp] theorem State.schedC_freeIx (t : Nat) (c : CoreIx) (i : Instr) : (s.schedC t c i).freeIx = s.freeIx := rfl
@[simp] theorem State.schedC_nextId (t : Nat) (c : CoreIx) (i : Instr) : (s.schedC t c i).nextId = s.nextId := rfl
@[simp] theorem State.schedC_core (t : Nat) (c : CoreIx) (i : Instr) (x : CoreIx) : (s.schedC t c i).core x = s.core x := rfl
@[simp] theorem State.schedC_col (t : Nat) (c : CoreIx) (i : Instr) (x : CoreIx) : (s.schedC t c i).col x = s.col x := rfl
@[simp] theorem State.schedC_part (t : Nat) (c : CoreIx) (i : Instr) (x : PartIx) : (s.schedC t c i).part x = s.part x := rfl
@[simp] theorem State.schedC_partOf (t : Nat) (c : CoreIx) (i : Instr) (x : CoreIx) : (s.schedC t c i).partOf x = s.partOf x := rfl

/-! ## schedP -/

@[simp] theorem State.schedP_chron (t : Nat) (p : PartIx) (i : Instr) : (s.schedP t p i).chron = s.chron := rfl
@[simp] theorem State.schedP_off (t : Nat) (p : PartIx) (i : Instr) : (s.schedP t p i).off = s.off := rfl
@[simp] theorem State.schedP_frzCtl (t : Nat) (p : PartIx) (i : Instr) : (s.schedP t p i).frzCtl = s.frzCtl := rfl
@[simp] theorem State.schedP_frzMsg (t : Nat) (p : PartIx) (i : Instr) : (s.schedP t p i).frzMsg = s.frzMsg := rfl
@[simp] theorem State.schedP_frozen (t : Nat) (p : PartIx) (i : Instr) : (s.schedP t p i).frozen = s.frozen := rfl
@[simp] theorem State.schedP_helm (t : Nat) (p : PartIx) (i : Instr) : (s.schedP t p i).helm = s.helm := rfl
@[simp] theorem State.schedP_hif (t : Nat) (p : PartIx) (i : Instr) : (s.schedP t p i).hif = s.hif := rfl
@[simp] theorem State.schedP_ms (t : Nat) (p : PartIx) (i : Instr) : (s.schedP t p i).ms = s.ms := rfl
@[simp] theorem State.schedP_mig (t : Nat) (p : PartIx) (i : Instr) : (s.schedP t p i).mig = s.mig := rfl
@[simp] theorem State.schedP_fab (t : Nat) (p : PartIx) (i : Instr) : (s.schedP t p i).fab = s.fab := rfl
@[simp] theorem State.schedP_cores (t : Nat) (p : PartIx) (i : Instr) : (s.schedP t p i).cores = s.cores := rfl
@[simp] theorem State.schedP_cols (t : Nat) (p : PartIx) (i : Instr) : (s.schedP t p i).cols = s.cols := rfl
@[simp] theorem State.schedP_parts (t : Nat) (p : PartIx) (i : Instr) : (s.schedP t p i).parts = s.parts := rfl
@[simp] theorem State.schedP_memory (t : Nat) (p : PartIx) (i : Instr) : (s.schedP t p i).memory = s.memory := rfl
@[simp] theorem State.schedP_reqs (t : Nat) (p : PartIx) (i : Instr) : (s.schedP t p i).reqs = s.reqs := rfl
@[simp] theorem State.schedP_inputs (t : Nat) (p : PartIx) (i : Instr) : (s.schedP t p i).inputs = s.inputs := rfl
@[simp] theorem State.schedP_occurs (t : Nat) (p : PartIx) (i : Instr) : (s.schedP t p i).occurs = s.occurs := rfl
@[simp] theorem State.schedP_cur (t : Nat) (p : PartIx) (i : Instr) : (s.schedP t p i).cur = s.cur := rfl
@[simp] theorem State.schedP_eng (t : Nat) (p : PartIx) (i : Instr) : (s.schedP t p i).eng = s.eng := rfl
@[simp] theorem State.schedP_curPart (t : Nat) (p : PartIx) (i : Instr) : (s.schedP t p i).curPart = s.curPart := rfl
@[simp] theorem State.schedP_curLink (t : Nat) (p : PartIx) (i : Instr) : (s.schedP t p i).curLink = s.curLink := rfl
@[simp] theorem State.schedP_freeIx (t : Nat) (p : PartIx) (i : Instr) : (s.schedP t p i).freeIx = s.freeIx := rfl
@[simp] theorem State.schedP_nextId (t : Nat) (p : PartIx) (i : Instr) : (s.schedP t p i).nextId = s.nextId := rfl
@[simp] theorem State.schedP_core (t : Nat) (p : PartIx) (i : Instr) (x : CoreIx) : (s.schedP t p i).core x = s.core x := rfl
@[simp] theorem State.schedP_col (t : Nat) (p : PartIx) (i : Instr) (x : CoreIx) : (s.schedP t p i).col x = s.col x := rfl
@[simp] theorem State.schedP_part (t : Nat) (p : PartIx) (i : Instr) (x : PartIx) : (s.schedP t p i).part x = s.part x := rfl
@[simp] theorem State.schedP_partOf (t : Nat) (p : PartIx) (i : Instr) (x : CoreIx) : (s.schedP t p i).partOf x = s.partOf x := rfl

/-! ## schedL -/

@[simp] theorem State.schedL_chron (t : Nat) (l : LinkIx) (i : Instr) : (s.schedL t l i).chron = s.chron := rfl
@[simp] theorem State.schedL_off (t : Nat) (l : LinkIx) (i : Instr) : (s.schedL t l i).off = s.off := rfl
@[simp] theorem State.schedL_frzCtl (t : Nat) (l : LinkIx) (i : Instr) : (s.schedL t l i).frzCtl = s.frzCtl := rfl
@[simp] theorem State.schedL_frzMsg (t : Nat) (l : LinkIx) (i : Instr) : (s.schedL t l i).frzMsg = s.frzMsg := rfl
@[simp] theorem State.schedL_frozen (t : Nat) (l : LinkIx) (i : Instr) : (s.schedL t l i).frozen = s.frozen := rfl
@[simp] theorem State.schedL_helm (t : Nat) (l : LinkIx) (i : Instr) : (s.schedL t l i).helm = s.helm := rfl
@[simp] theorem State.schedL_hif (t : Nat) (l : LinkIx) (i : Instr) : (s.schedL t l i).hif = s.hif := rfl
@[simp] theorem State.schedL_ms (t : Nat) (l : LinkIx) (i : Instr) : (s.schedL t l i).ms = s.ms := rfl
@[simp] theorem State.schedL_mig (t : Nat) (l : LinkIx) (i : Instr) : (s.schedL t l i).mig = s.mig := rfl
@[simp] theorem State.schedL_fab (t : Nat) (l : LinkIx) (i : Instr) : (s.schedL t l i).fab = s.fab := rfl
@[simp] theorem State.schedL_cores (t : Nat) (l : LinkIx) (i : Instr) : (s.schedL t l i).cores = s.cores := rfl
@[simp] theorem State.schedL_cols (t : Nat) (l : LinkIx) (i : Instr) : (s.schedL t l i).cols = s.cols := rfl
@[simp] theorem State.schedL_parts (t : Nat) (l : LinkIx) (i : Instr) : (s.schedL t l i).parts = s.parts := rfl
@[simp] theorem State.schedL_memory (t : Nat) (l : LinkIx) (i : Instr) : (s.schedL t l i).memory = s.memory := rfl
@[simp] theorem State.schedL_reqs (t : Nat) (l : LinkIx) (i : Instr) : (s.schedL t l i).reqs = s.reqs := rfl
@[simp] theorem State.schedL_inputs (t : Nat) (l : LinkIx) (i : Instr) : (s.schedL t l i).inputs = s.inputs := rfl
@[simp] theorem State.schedL_occurs (t : Nat) (l : LinkIx) (i : Instr) : (s.schedL t l i).occurs = s.occurs := rfl
@[simp] theorem State.schedL_cur (t : Nat) (l : LinkIx) (i : Instr) : (s.schedL t l i).cur = s.cur := rfl
@[simp] theorem State.schedL_eng (t : Nat) (l : LinkIx) (i : Instr) : (s.schedL t l i).eng = s.eng := rfl
@[simp] theorem State.schedL_curPart (t : Nat) (l : LinkIx) (i : Instr) : (s.schedL t l i).curPart = s.curPart := rfl
@[simp] theorem State.schedL_curLink (t : Nat) (l : LinkIx) (i : Instr) : (s.schedL t l i).curLink = s.curLink := rfl
@[simp] theorem State.schedL_freeIx (t : Nat) (l : LinkIx) (i : Instr) : (s.schedL t l i).freeIx = s.freeIx := rfl
@[simp] theorem State.schedL_nextId (t : Nat) (l : LinkIx) (i : Instr) : (s.schedL t l i).nextId = s.nextId := rfl
@[simp] theorem State.schedL_core (t : Nat) (l : LinkIx) (i : Instr) (x : CoreIx) : (s.schedL t l i).core x = s.core x := rfl
@[simp] theorem State.schedL_col (t : Nat) (l : LinkIx) (i : Instr) (x : CoreIx) : (s.schedL t l i).col x = s.col x := rfl
@[simp] theorem State.schedL_part (t : Nat) (l : LinkIx) (i : Instr) (x : PartIx) : (s.schedL t l i).part x = s.part x := rfl
@[simp] theorem State.schedL_partOf (t : Nat) (l : LinkIx) (i : Instr) (x : CoreIx) : (s.schedL t l i).partOf x = s.partOf x := rfl

/-! ## draw -/

@[simp] theorem State.draw_chron : (s.draw.2).chron = s.chron := rfl
@[simp] theorem State.draw_off : (s.draw.2).off = s.off := rfl
@[simp] theorem State.draw_frzCtl : (s.draw.2).frzCtl = s.frzCtl := rfl
@[simp] theorem State.draw_frzMsg : (s.draw.2).frzMsg = s.frzMsg := rfl
@[simp] theorem State.draw_frozen : (s.draw.2).frozen = s.frozen := rfl
@[simp] theorem State.draw_helm : (s.draw.2).helm = s.helm := rfl
@[simp] theorem State.draw_hif : (s.draw.2).hif = s.hif := rfl
@[simp] theorem State.draw_ms : (s.draw.2).ms = s.ms := rfl
@[simp] theorem State.draw_mig : (s.draw.2).mig = s.mig := rfl
@[simp] theorem State.draw_fab : (s.draw.2).fab = s.fab := rfl
@[simp] theorem State.draw_cores : (s.draw.2).cores = s.cores := rfl
@[simp] theorem State.draw_cols : (s.draw.2).cols = s.cols := rfl
@[simp] theorem State.draw_parts : (s.draw.2).parts = s.parts := rfl
@[simp] theorem State.draw_memory : (s.draw.2).memory = s.memory := rfl
@[simp] theorem State.draw_reqs : (s.draw.2).reqs = s.reqs := rfl
@[simp] theorem State.draw_agenda : (s.draw.2).agenda = s.agenda := rfl
@[simp] theorem State.draw_inputs : (s.draw.2).inputs = s.inputs := rfl
@[simp] theorem State.draw_occurs : (s.draw.2).occurs = s.occurs := rfl
@[simp] theorem State.draw_cur : (s.draw.2).cur = s.cur := rfl
@[simp] theorem State.draw_eng : (s.draw.2).eng = s.eng := rfl
@[simp] theorem State.draw_curPart : (s.draw.2).curPart = s.curPart := rfl
@[simp] theorem State.draw_curLink : (s.draw.2).curLink = s.curLink := rfl
@[simp] theorem State.draw_nextId : (s.draw.2).nextId = s.nextId := rfl
@[simp] theorem State.draw_core (x : CoreIx) : (s.draw.2).core x = s.core x := rfl
@[simp] theorem State.draw_col (x : CoreIx) : (s.draw.2).col x = s.col x := rfl
@[simp] theorem State.draw_part (x : PartIx) : (s.draw.2).part x = s.part x := rfl
@[simp] theorem State.draw_partOf (x : CoreIx) : (s.draw.2).partOf x = s.partOf x := rfl

/-! ## drawWalk -/

@[simp] theorem State.drawWalk_chron : (s.drawWalk.2).chron = s.chron := rfl
@[simp] theorem State.drawWalk_off : (s.drawWalk.2).off = s.off := rfl
@[simp] theorem State.drawWalk_frzCtl : (s.drawWalk.2).frzCtl = s.frzCtl := rfl
@[simp] theorem State.drawWalk_frzMsg : (s.drawWalk.2).frzMsg = s.frzMsg := rfl
@[simp] theorem State.drawWalk_frozen : (s.drawWalk.2).frozen = s.frozen := rfl
@[simp] theorem State.drawWalk_helm : (s.drawWalk.2).helm = s.helm := rfl
@[simp] theorem State.drawWalk_hif : (s.drawWalk.2).hif = s.hif := rfl
@[simp] theorem State.drawWalk_ms : (s.drawWalk.2).ms = s.ms := rfl
@[simp] theorem State.drawWalk_mig : (s.drawWalk.2).mig = s.mig := rfl
@[simp] theorem State.drawWalk_fab : (s.drawWalk.2).fab = s.fab := rfl
@[simp] theorem State.drawWalk_cores : (s.drawWalk.2).cores = s.cores := rfl
@[simp] theorem State.drawWalk_cols : (s.drawWalk.2).cols = s.cols := rfl
@[simp] theorem State.drawWalk_parts : (s.drawWalk.2).parts = s.parts := rfl
@[simp] theorem State.drawWalk_memory : (s.drawWalk.2).memory = s.memory := rfl
@[simp] theorem State.drawWalk_reqs : (s.drawWalk.2).reqs = s.reqs := rfl
@[simp] theorem State.drawWalk_agenda : (s.drawWalk.2).agenda = s.agenda := rfl
@[simp] theorem State.drawWalk_inputs : (s.drawWalk.2).inputs = s.inputs := rfl
@[simp] theorem State.drawWalk_occurs : (s.drawWalk.2).occurs = s.occurs := rfl
@[simp] theorem State.drawWalk_cur : (s.drawWalk.2).cur = s.cur := rfl
@[simp] theorem State.drawWalk_eng : (s.drawWalk.2).eng = s.eng := rfl
@[simp] theorem State.drawWalk_curPart : (s.drawWalk.2).curPart = s.curPart := rfl
@[simp] theorem State.drawWalk_curLink : (s.drawWalk.2).curLink = s.curLink := rfl
@[simp] theorem State.drawWalk_nextId : (s.drawWalk.2).nextId = s.nextId := rfl
@[simp] theorem State.drawWalk_core (x : CoreIx) : (s.drawWalk.2).core x = s.core x := rfl
@[simp] theorem State.drawWalk_col (x : CoreIx) : (s.drawWalk.2).col x = s.col x := rfl
@[simp] theorem State.drawWalk_part (x : PartIx) : (s.drawWalk.2).part x = s.part x := rfl
@[simp] theorem State.drawWalk_partOf (x : CoreIx) : (s.drawWalk.2).partOf x = s.partOf x := rfl

/-! ## drawHelm -/

@[simp] theorem State.drawHelm_chron : (s.drawHelm.2).chron = s.chron := rfl
@[simp] theorem State.drawHelm_off : (s.drawHelm.2).off = s.off := rfl
@[simp] theorem State.drawHelm_frzCtl : (s.drawHelm.2).frzCtl = s.frzCtl := rfl
@[simp] theorem State.drawHelm_frzMsg : (s.drawHelm.2).frzMsg = s.frzMsg := rfl
@[simp] theorem State.drawHelm_frozen : (s.drawHelm.2).frozen = s.frozen := rfl
@[simp] theorem State.drawHelm_helm : (s.drawHelm.2).helm = s.helm := rfl
@[simp] theorem State.drawHelm_hif : (s.drawHelm.2).hif = s.hif := rfl
@[simp] theorem State.drawHelm_ms : (s.drawHelm.2).ms = s.ms := rfl
@[simp] theorem State.drawHelm_mig : (s.drawHelm.2).mig = s.mig := rfl
@[simp] theorem State.drawHelm_fab : (s.drawHelm.2).fab = s.fab := rfl
@[simp] theorem State.drawHelm_cores : (s.drawHelm.2).cores = s.cores := rfl
@[simp] theorem State.drawHelm_cols : (s.drawHelm.2).cols = s.cols := rfl
@[simp] theorem State.drawHelm_parts : (s.drawHelm.2).parts = s.parts := rfl
@[simp] theorem State.drawHelm_memory : (s.drawHelm.2).memory = s.memory := rfl
@[simp] theorem State.drawHelm_reqs : (s.drawHelm.2).reqs = s.reqs := rfl
@[simp] theorem State.drawHelm_agenda : (s.drawHelm.2).agenda = s.agenda := rfl
@[simp] theorem State.drawHelm_inputs : (s.drawHelm.2).inputs = s.inputs := rfl
@[simp] theorem State.drawHelm_occurs : (s.drawHelm.2).occurs = s.occurs := rfl
@[simp] theorem State.drawHelm_cur : (s.drawHelm.2).cur = s.cur := rfl
@[simp] theorem State.drawHelm_eng : (s.drawHelm.2).eng = s.eng := rfl
@[simp] theorem State.drawHelm_curPart : (s.drawHelm.2).curPart = s.curPart := rfl
@[simp] theorem State.drawHelm_curLink : (s.drawHelm.2).curLink = s.curLink := rfl
@[simp] theorem State.drawHelm_nextId : (s.drawHelm.2).nextId = s.nextId := rfl
@[simp] theorem State.drawHelm_core (x : CoreIx) : (s.drawHelm.2).core x = s.core x := rfl
@[simp] theorem State.drawHelm_col (x : CoreIx) : (s.drawHelm.2).col x = s.col x := rfl
@[simp] theorem State.drawHelm_part (x : PartIx) : (s.drawHelm.2).part x = s.part x := rfl
@[simp] theorem State.drawHelm_partOf (x : CoreIx) : (s.drawHelm.2).partOf x = s.partOf x := rfl

/-! ## newId -/

@[simp] theorem State.newId_chron : (s.newId.2).chron = s.chron := rfl
@[simp] theorem State.newId_off : (s.newId.2).off = s.off := rfl
@[simp] theorem State.newId_frzCtl : (s.newId.2).frzCtl = s.frzCtl := rfl
@[simp] theorem State.newId_frzMsg : (s.newId.2).frzMsg = s.frzMsg := rfl
@[simp] theorem State.newId_frozen : (s.newId.2).frozen = s.frozen := rfl
@[simp] theorem State.newId_helm : (s.newId.2).helm = s.helm := rfl
@[simp] theorem State.newId_hif : (s.newId.2).hif = s.hif := rfl
@[simp] theorem State.newId_ms : (s.newId.2).ms = s.ms := rfl
@[simp] theorem State.newId_mig : (s.newId.2).mig = s.mig := rfl
@[simp] theorem State.newId_fab : (s.newId.2).fab = s.fab := rfl
@[simp] theorem State.newId_cores : (s.newId.2).cores = s.cores := rfl
@[simp] theorem State.newId_cols : (s.newId.2).cols = s.cols := rfl
@[simp] theorem State.newId_parts : (s.newId.2).parts = s.parts := rfl
@[simp] theorem State.newId_memory : (s.newId.2).memory = s.memory := rfl
@[simp] theorem State.newId_reqs : (s.newId.2).reqs = s.reqs := rfl
@[simp] theorem State.newId_agenda : (s.newId.2).agenda = s.agenda := rfl
@[simp] theorem State.newId_inputs : (s.newId.2).inputs = s.inputs := rfl
@[simp] theorem State.newId_occurs : (s.newId.2).occurs = s.occurs := rfl
@[simp] theorem State.newId_cur : (s.newId.2).cur = s.cur := rfl
@[simp] theorem State.newId_eng : (s.newId.2).eng = s.eng := rfl
@[simp] theorem State.newId_curPart : (s.newId.2).curPart = s.curPart := rfl
@[simp] theorem State.newId_curLink : (s.newId.2).curLink = s.curLink := rfl
@[simp] theorem State.newId_freeIx : (s.newId.2).freeIx = s.freeIx := rfl
@[simp] theorem State.newId_core (x : CoreIx) : (s.newId.2).core x = s.core x := rfl
@[simp] theorem State.newId_col (x : CoreIx) : (s.newId.2).col x = s.col x := rfl
@[simp] theorem State.newId_part (x : PartIx) : (s.newId.2).part x = s.part x := rfl
@[simp] theorem State.newId_partOf (x : CoreIx) : (s.newId.2).partOf x = s.partOf x := rfl

/-! ## fire -/

@[simp] theorem State.fire_chron (fn v : Nat) : (s.fire fn v).chron = s.chron := rfl
@[simp] theorem State.fire_off (fn v : Nat) : (s.fire fn v).off = s.off := rfl
@[simp] theorem State.fire_frzCtl (fn v : Nat) : (s.fire fn v).frzCtl = s.frzCtl := rfl
@[simp] theorem State.fire_frzMsg (fn v : Nat) : (s.fire fn v).frzMsg = s.frzMsg := rfl
@[simp] theorem State.fire_frozen (fn v : Nat) : (s.fire fn v).frozen = s.frozen := rfl
@[simp] theorem State.fire_helm (fn v : Nat) : (s.fire fn v).helm = s.helm := rfl
@[simp] theorem State.fire_ms (fn v : Nat) : (s.fire fn v).ms = s.ms := rfl
@[simp] theorem State.fire_mig (fn v : Nat) : (s.fire fn v).mig = s.mig := rfl
@[simp] theorem State.fire_fab (fn v : Nat) : (s.fire fn v).fab = s.fab := rfl
@[simp] theorem State.fire_cores (fn v : Nat) : (s.fire fn v).cores = s.cores := rfl
@[simp] theorem State.fire_cols (fn v : Nat) : (s.fire fn v).cols = s.cols := rfl
@[simp] theorem State.fire_parts (fn v : Nat) : (s.fire fn v).parts = s.parts := rfl
@[simp] theorem State.fire_memory (fn v : Nat) : (s.fire fn v).memory = s.memory := rfl
@[simp] theorem State.fire_reqs (fn v : Nat) : (s.fire fn v).reqs = s.reqs := rfl
@[simp] theorem State.fire_agenda (fn v : Nat) : (s.fire fn v).agenda = s.agenda := rfl
@[simp] theorem State.fire_inputs (fn v : Nat) : (s.fire fn v).inputs = s.inputs := rfl
@[simp] theorem State.fire_occurs (fn v : Nat) : (s.fire fn v).occurs = s.occurs := rfl
@[simp] theorem State.fire_cur (fn v : Nat) : (s.fire fn v).cur = s.cur := rfl
@[simp] theorem State.fire_eng (fn v : Nat) : (s.fire fn v).eng = s.eng := rfl
@[simp] theorem State.fire_curPart (fn v : Nat) : (s.fire fn v).curPart = s.curPart := rfl
@[simp] theorem State.fire_curLink (fn v : Nat) : (s.fire fn v).curLink = s.curLink := rfl
@[simp] theorem State.fire_freeIx (fn v : Nat) : (s.fire fn v).freeIx = s.freeIx := rfl
@[simp] theorem State.fire_nextId (fn v : Nat) : (s.fire fn v).nextId = s.nextId := rfl
@[simp] theorem State.fire_core (fn v : Nat) (x : CoreIx) : (s.fire fn v).core x = s.core x := rfl
@[simp] theorem State.fire_col (fn v : Nat) (x : CoreIx) : (s.fire fn v).col x = s.col x := rfl
@[simp] theorem State.fire_part (fn v : Nat) (x : PartIx) : (s.fire fn v).part x = s.part x := rfl

/-! ## hostPost -/

@[simp] theorem State.hostPost_chron (addr : Nat) (bs : List Byte) : (s.hostPost addr bs).chron = s.chron := rfl
@[simp] theorem State.hostPost_off (addr : Nat) (bs : List Byte) : (s.hostPost addr bs).off = s.off := rfl
@[simp] theorem State.hostPost_frzCtl (addr : Nat) (bs : List Byte) : (s.hostPost addr bs).frzCtl = s.frzCtl := rfl
@[simp] theorem State.hostPost_frzMsg (addr : Nat) (bs : List Byte) : (s.hostPost addr bs).frzMsg = s.frzMsg := rfl
@[simp] theorem State.hostPost_frozen (addr : Nat) (bs : List Byte) : (s.hostPost addr bs).frozen = s.frozen := rfl
@[simp] theorem State.hostPost_helm (addr : Nat) (bs : List Byte) : (s.hostPost addr bs).helm = s.helm := rfl
@[simp] theorem State.hostPost_ms (addr : Nat) (bs : List Byte) : (s.hostPost addr bs).ms = s.ms := rfl
@[simp] theorem State.hostPost_mig (addr : Nat) (bs : List Byte) : (s.hostPost addr bs).mig = s.mig := rfl
@[simp] theorem State.hostPost_fab (addr : Nat) (bs : List Byte) : (s.hostPost addr bs).fab = s.fab := rfl
@[simp] theorem State.hostPost_cores (addr : Nat) (bs : List Byte) : (s.hostPost addr bs).cores = s.cores := rfl
@[simp] theorem State.hostPost_cols (addr : Nat) (bs : List Byte) : (s.hostPost addr bs).cols = s.cols := rfl
@[simp] theorem State.hostPost_parts (addr : Nat) (bs : List Byte) : (s.hostPost addr bs).parts = s.parts := rfl
@[simp] theorem State.hostPost_memory (addr : Nat) (bs : List Byte) : (s.hostPost addr bs).memory = s.memory := rfl
@[simp] theorem State.hostPost_reqs (addr : Nat) (bs : List Byte) : (s.hostPost addr bs).reqs = s.reqs := rfl
@[simp] theorem State.hostPost_agenda (addr : Nat) (bs : List Byte) : (s.hostPost addr bs).agenda = s.agenda := rfl
@[simp] theorem State.hostPost_inputs (addr : Nat) (bs : List Byte) : (s.hostPost addr bs).inputs = s.inputs := rfl
@[simp] theorem State.hostPost_occurs (addr : Nat) (bs : List Byte) : (s.hostPost addr bs).occurs = s.occurs := rfl
@[simp] theorem State.hostPost_cur (addr : Nat) (bs : List Byte) : (s.hostPost addr bs).cur = s.cur := rfl
@[simp] theorem State.hostPost_eng (addr : Nat) (bs : List Byte) : (s.hostPost addr bs).eng = s.eng := rfl
@[simp] theorem State.hostPost_curPart (addr : Nat) (bs : List Byte) : (s.hostPost addr bs).curPart = s.curPart := rfl
@[simp] theorem State.hostPost_curLink (addr : Nat) (bs : List Byte) : (s.hostPost addr bs).curLink = s.curLink := rfl
@[simp] theorem State.hostPost_freeIx (addr : Nat) (bs : List Byte) : (s.hostPost addr bs).freeIx = s.freeIx := rfl
@[simp] theorem State.hostPost_nextId (addr : Nat) (bs : List Byte) : (s.hostPost addr bs).nextId = s.nextId := rfl
@[simp] theorem State.hostPost_core (addr : Nat) (bs : List Byte) (x : CoreIx) : (s.hostPost addr bs).core x = s.core x := rfl
@[simp] theorem State.hostPost_col (addr : Nat) (bs : List Byte) (x : CoreIx) : (s.hostPost addr bs).col x = s.col x := rfl
@[simp] theorem State.hostPost_part (addr : Nat) (bs : List Byte) (x : PartIx) : (s.hostPost addr bs).part x = s.part x := rfl

/-! ## claim -/

@[simp] theorem State.claim_chron (c : CoreIx) (cs : List Claim) : (s.claim c cs).chron = s.chron := rfl
@[simp] theorem State.claim_off (c : CoreIx) (cs : List Claim) : (s.claim c cs).off = s.off := rfl
@[simp] theorem State.claim_frzCtl (c : CoreIx) (cs : List Claim) : (s.claim c cs).frzCtl = s.frzCtl := rfl
@[simp] theorem State.claim_frzMsg (c : CoreIx) (cs : List Claim) : (s.claim c cs).frzMsg = s.frzMsg := rfl
@[simp] theorem State.claim_frozen (c : CoreIx) (cs : List Claim) : (s.claim c cs).frozen = s.frozen := rfl
@[simp] theorem State.claim_helm (c : CoreIx) (cs : List Claim) : (s.claim c cs).helm = s.helm := rfl
@[simp] theorem State.claim_hif (c : CoreIx) (cs : List Claim) : (s.claim c cs).hif = s.hif := rfl
@[simp] theorem State.claim_ms (c : CoreIx) (cs : List Claim) : (s.claim c cs).ms = s.ms := rfl
@[simp] theorem State.claim_mig (c : CoreIx) (cs : List Claim) : (s.claim c cs).mig = s.mig := rfl
@[simp] theorem State.claim_fab (c : CoreIx) (cs : List Claim) : (s.claim c cs).fab = s.fab := rfl
@[simp] theorem State.claim_cols (c : CoreIx) (cs : List Claim) : (s.claim c cs).cols = s.cols := rfl
@[simp] theorem State.claim_parts (c : CoreIx) (cs : List Claim) : (s.claim c cs).parts = s.parts := rfl
@[simp] theorem State.claim_memory (c : CoreIx) (cs : List Claim) : (s.claim c cs).memory = s.memory := rfl
@[simp] theorem State.claim_reqs (c : CoreIx) (cs : List Claim) : (s.claim c cs).reqs = s.reqs := rfl
@[simp] theorem State.claim_agenda (c : CoreIx) (cs : List Claim) : (s.claim c cs).agenda = s.agenda := rfl
@[simp] theorem State.claim_inputs (c : CoreIx) (cs : List Claim) : (s.claim c cs).inputs = s.inputs := rfl
@[simp] theorem State.claim_occurs (c : CoreIx) (cs : List Claim) : (s.claim c cs).occurs = s.occurs := rfl
@[simp] theorem State.claim_cur (c : CoreIx) (cs : List Claim) : (s.claim c cs).cur = s.cur := rfl
@[simp] theorem State.claim_eng (c : CoreIx) (cs : List Claim) : (s.claim c cs).eng = s.eng := rfl
@[simp] theorem State.claim_curPart (c : CoreIx) (cs : List Claim) : (s.claim c cs).curPart = s.curPart := rfl
@[simp] theorem State.claim_curLink (c : CoreIx) (cs : List Claim) : (s.claim c cs).curLink = s.curLink := rfl
@[simp] theorem State.claim_freeIx (c : CoreIx) (cs : List Claim) : (s.claim c cs).freeIx = s.freeIx := rfl
@[simp] theorem State.claim_nextId (c : CoreIx) (cs : List Claim) : (s.claim c cs).nextId = s.nextId := rfl
@[simp] theorem State.claim_col (c : CoreIx) (cs : List Claim) (x : CoreIx) : (s.claim c cs).col x = s.col x := rfl
@[simp] theorem State.claim_part (c : CoreIx) (cs : List Claim) (x : PartIx) : (s.claim c cs).part x = s.part x := rfl
@[simp] theorem State.claim_partOf (c : CoreIx) (cs : List Claim) (x : CoreIx) : (s.claim c cs).partOf x = s.partOf x := rfl

/-! ## occupy -/

@[simp] theorem State.occupy_chron (c : CoreIx) (bs : List Busy) : (s.occupy c bs).chron = s.chron := rfl
@[simp] theorem State.occupy_off (c : CoreIx) (bs : List Busy) : (s.occupy c bs).off = s.off := rfl
@[simp] theorem State.occupy_frzCtl (c : CoreIx) (bs : List Busy) : (s.occupy c bs).frzCtl = s.frzCtl := rfl
@[simp] theorem State.occupy_frzMsg (c : CoreIx) (bs : List Busy) : (s.occupy c bs).frzMsg = s.frzMsg := rfl
@[simp] theorem State.occupy_frozen (c : CoreIx) (bs : List Busy) : (s.occupy c bs).frozen = s.frozen := rfl
@[simp] theorem State.occupy_helm (c : CoreIx) (bs : List Busy) : (s.occupy c bs).helm = s.helm := rfl
@[simp] theorem State.occupy_hif (c : CoreIx) (bs : List Busy) : (s.occupy c bs).hif = s.hif := rfl
@[simp] theorem State.occupy_ms (c : CoreIx) (bs : List Busy) : (s.occupy c bs).ms = s.ms := rfl
@[simp] theorem State.occupy_mig (c : CoreIx) (bs : List Busy) : (s.occupy c bs).mig = s.mig := rfl
@[simp] theorem State.occupy_fab (c : CoreIx) (bs : List Busy) : (s.occupy c bs).fab = s.fab := rfl
@[simp] theorem State.occupy_cols (c : CoreIx) (bs : List Busy) : (s.occupy c bs).cols = s.cols := rfl
@[simp] theorem State.occupy_parts (c : CoreIx) (bs : List Busy) : (s.occupy c bs).parts = s.parts := rfl
@[simp] theorem State.occupy_memory (c : CoreIx) (bs : List Busy) : (s.occupy c bs).memory = s.memory := rfl
@[simp] theorem State.occupy_reqs (c : CoreIx) (bs : List Busy) : (s.occupy c bs).reqs = s.reqs := rfl
@[simp] theorem State.occupy_agenda (c : CoreIx) (bs : List Busy) : (s.occupy c bs).agenda = s.agenda := rfl
@[simp] theorem State.occupy_inputs (c : CoreIx) (bs : List Busy) : (s.occupy c bs).inputs = s.inputs := rfl
@[simp] theorem State.occupy_occurs (c : CoreIx) (bs : List Busy) : (s.occupy c bs).occurs = s.occurs := rfl
@[simp] theorem State.occupy_cur (c : CoreIx) (bs : List Busy) : (s.occupy c bs).cur = s.cur := rfl
@[simp] theorem State.occupy_eng (c : CoreIx) (bs : List Busy) : (s.occupy c bs).eng = s.eng := rfl
@[simp] theorem State.occupy_curPart (c : CoreIx) (bs : List Busy) : (s.occupy c bs).curPart = s.curPart := rfl
@[simp] theorem State.occupy_curLink (c : CoreIx) (bs : List Busy) : (s.occupy c bs).curLink = s.curLink := rfl
@[simp] theorem State.occupy_freeIx (c : CoreIx) (bs : List Busy) : (s.occupy c bs).freeIx = s.freeIx := rfl
@[simp] theorem State.occupy_nextId (c : CoreIx) (bs : List Busy) : (s.occupy c bs).nextId = s.nextId := rfl
@[simp] theorem State.occupy_col (c : CoreIx) (bs : List Busy) (x : CoreIx) : (s.occupy c bs).col x = s.col x := rfl
@[simp] theorem State.occupy_part (c : CoreIx) (bs : List Busy) (x : PartIx) : (s.occupy c bs).part x = s.part x := rfl
@[simp] theorem State.occupy_partOf (c : CoreIx) (bs : List Busy) (x : CoreIx) : (s.occupy c bs).partOf x = s.partOf x := rfl

/-! ## writeG -/

@[simp] theorem State.writeG_chron (d : Fin 32) (v : Word) (t : Bool) (l : Nat) : (s.writeG d v t l).chron = s.chron := rfl
@[simp] theorem State.writeG_off (d : Fin 32) (v : Word) (t : Bool) (l : Nat) : (s.writeG d v t l).off = s.off := rfl
@[simp] theorem State.writeG_frzCtl (d : Fin 32) (v : Word) (t : Bool) (l : Nat) : (s.writeG d v t l).frzCtl = s.frzCtl := rfl
@[simp] theorem State.writeG_frzMsg (d : Fin 32) (v : Word) (t : Bool) (l : Nat) : (s.writeG d v t l).frzMsg = s.frzMsg := rfl
@[simp] theorem State.writeG_frozen (d : Fin 32) (v : Word) (t : Bool) (l : Nat) : (s.writeG d v t l).frozen = s.frozen := rfl
@[simp] theorem State.writeG_helm (d : Fin 32) (v : Word) (t : Bool) (l : Nat) : (s.writeG d v t l).helm = s.helm := rfl
@[simp] theorem State.writeG_hif (d : Fin 32) (v : Word) (t : Bool) (l : Nat) : (s.writeG d v t l).hif = s.hif := rfl
@[simp] theorem State.writeG_ms (d : Fin 32) (v : Word) (t : Bool) (l : Nat) : (s.writeG d v t l).ms = s.ms := rfl
@[simp] theorem State.writeG_mig (d : Fin 32) (v : Word) (t : Bool) (l : Nat) : (s.writeG d v t l).mig = s.mig := rfl
@[simp] theorem State.writeG_fab (d : Fin 32) (v : Word) (t : Bool) (l : Nat) : (s.writeG d v t l).fab = s.fab := rfl
@[simp] theorem State.writeG_cols (d : Fin 32) (v : Word) (t : Bool) (l : Nat) : (s.writeG d v t l).cols = s.cols := rfl
@[simp] theorem State.writeG_parts (d : Fin 32) (v : Word) (t : Bool) (l : Nat) : (s.writeG d v t l).parts = s.parts := rfl
@[simp] theorem State.writeG_memory (d : Fin 32) (v : Word) (t : Bool) (l : Nat) : (s.writeG d v t l).memory = s.memory := rfl
@[simp] theorem State.writeG_reqs (d : Fin 32) (v : Word) (t : Bool) (l : Nat) : (s.writeG d v t l).reqs = s.reqs := rfl
@[simp] theorem State.writeG_agenda (d : Fin 32) (v : Word) (t : Bool) (l : Nat) : (s.writeG d v t l).agenda = s.agenda := rfl
@[simp] theorem State.writeG_inputs (d : Fin 32) (v : Word) (t : Bool) (l : Nat) : (s.writeG d v t l).inputs = s.inputs := rfl
@[simp] theorem State.writeG_occurs (d : Fin 32) (v : Word) (t : Bool) (l : Nat) : (s.writeG d v t l).occurs = s.occurs := rfl
@[simp] theorem State.writeG_cur (d : Fin 32) (v : Word) (t : Bool) (l : Nat) : (s.writeG d v t l).cur = s.cur := rfl
@[simp] theorem State.writeG_eng (d : Fin 32) (v : Word) (t : Bool) (l : Nat) : (s.writeG d v t l).eng = s.eng := rfl
@[simp] theorem State.writeG_curPart (d : Fin 32) (v : Word) (t : Bool) (l : Nat) : (s.writeG d v t l).curPart = s.curPart := rfl
@[simp] theorem State.writeG_curLink (d : Fin 32) (v : Word) (t : Bool) (l : Nat) : (s.writeG d v t l).curLink = s.curLink := rfl
@[simp] theorem State.writeG_freeIx (d : Fin 32) (v : Word) (t : Bool) (l : Nat) : (s.writeG d v t l).freeIx = s.freeIx := rfl
@[simp] theorem State.writeG_nextId (d : Fin 32) (v : Word) (t : Bool) (l : Nat) : (s.writeG d v t l).nextId = s.nextId := rfl
@[simp] theorem State.writeG_col (d : Fin 32) (v : Word) (t : Bool) (l : Nat) (x : CoreIx) : (s.writeG d v t l).col x = s.col x := rfl
@[simp] theorem State.writeG_part (d : Fin 32) (v : Word) (t : Bool) (l : Nat) (x : PartIx) : (s.writeG d v t l).part x = s.part x := rfl
@[simp] theorem State.writeG_partOf (d : Fin 32) (v : Word) (t : Bool) (l : Nat) (x : CoreIx) : (s.writeG d v t l).partOf x = s.partOf x := rfl

/-! ## advance -/

@[simp] theorem State.advance_chron (c : CoreIx) (e : Eng) : (s.advance c e).chron = s.chron := rfl
@[simp] theorem State.advance_off (c : CoreIx) (e : Eng) : (s.advance c e).off = s.off := rfl
@[simp] theorem State.advance_frzCtl (c : CoreIx) (e : Eng) : (s.advance c e).frzCtl = s.frzCtl := rfl
@[simp] theorem State.advance_frzMsg (c : CoreIx) (e : Eng) : (s.advance c e).frzMsg = s.frzMsg := rfl
@[simp] theorem State.advance_frozen (c : CoreIx) (e : Eng) : (s.advance c e).frozen = s.frozen := rfl
@[simp] theorem State.advance_helm (c : CoreIx) (e : Eng) : (s.advance c e).helm = s.helm := rfl
@[simp] theorem State.advance_hif (c : CoreIx) (e : Eng) : (s.advance c e).hif = s.hif := rfl
@[simp] theorem State.advance_ms (c : CoreIx) (e : Eng) : (s.advance c e).ms = s.ms := rfl
@[simp] theorem State.advance_mig (c : CoreIx) (e : Eng) : (s.advance c e).mig = s.mig := rfl
@[simp] theorem State.advance_fab (c : CoreIx) (e : Eng) : (s.advance c e).fab = s.fab := rfl
@[simp] theorem State.advance_cols (c : CoreIx) (e : Eng) : (s.advance c e).cols = s.cols := rfl
@[simp] theorem State.advance_parts (c : CoreIx) (e : Eng) : (s.advance c e).parts = s.parts := rfl
@[simp] theorem State.advance_memory (c : CoreIx) (e : Eng) : (s.advance c e).memory = s.memory := rfl
@[simp] theorem State.advance_reqs (c : CoreIx) (e : Eng) : (s.advance c e).reqs = s.reqs := rfl
@[simp] theorem State.advance_agenda (c : CoreIx) (e : Eng) : (s.advance c e).agenda = s.agenda := rfl
@[simp] theorem State.advance_inputs (c : CoreIx) (e : Eng) : (s.advance c e).inputs = s.inputs := rfl
@[simp] theorem State.advance_occurs (c : CoreIx) (e : Eng) : (s.advance c e).occurs = s.occurs := rfl
@[simp] theorem State.advance_cur (c : CoreIx) (e : Eng) : (s.advance c e).cur = s.cur := rfl
@[simp] theorem State.advance_eng (c : CoreIx) (e : Eng) : (s.advance c e).eng = s.eng := rfl
@[simp] theorem State.advance_curPart (c : CoreIx) (e : Eng) : (s.advance c e).curPart = s.curPart := rfl
@[simp] theorem State.advance_curLink (c : CoreIx) (e : Eng) : (s.advance c e).curLink = s.curLink := rfl
@[simp] theorem State.advance_freeIx (c : CoreIx) (e : Eng) : (s.advance c e).freeIx = s.freeIx := rfl
@[simp] theorem State.advance_nextId (c : CoreIx) (e : Eng) : (s.advance c e).nextId = s.nextId := rfl
@[simp] theorem State.advance_col (c : CoreIx) (e : Eng) (x : CoreIx) : (s.advance c e).col x = s.col x := rfl
@[simp] theorem State.advance_part (c : CoreIx) (e : Eng) (x : PartIx) : (s.advance c e).part x = s.part x := rfl
@[simp] theorem State.advance_partOf (c : CoreIx) (e : Eng) (x : CoreIx) : (s.advance c e).partOf x = s.partOf x := rfl

/-! ## What an update changes -/

theorem State.me_eq : s.me = s.core s.cur := rfl

@[simp] theorem State.core_setCore (c : CoreIx) (k : Core) : (s.setCore c k).core c = k := by
  show (tget (tput s.cores c.val k) c.val).getD {} = k
  rw [tget_tput]; rfl

@[simp] theorem State.core_upd (c : CoreIx) (f : Core → Core) : (s.upd c f).core c = f (s.core c) := by
  simp [State.upd]

theorem State.core_setCore_ne {c x : CoreIx} (h : x ≠ c) (k : Core) : (s.setCore c k).core x = s.core x := by
  have : x.val ≠ c.val := fun e => h (Fin.ext e)
  show (tget (tput s.cores c.val k) x.val).getD {} = _
  rw [tget_tput_ne _ _ this]; rfl

theorem State.core_upd_ne {c x : CoreIx} (h : x ≠ c) (f : Core → Core) : (s.upd c f).core x = s.core x :=
  s.core_setCore_ne h _

@[simp] theorem State.core_updMe (f : Core → Core) : (s.updMe f).core s.cur = f (s.core s.cur) := s.core_upd _ _

theorem State.core_updMe_ne {x : CoreIx} (h : x ≠ s.cur) (f : Core → Core) : (s.updMe f).core x = s.core x := s.core_upd_ne h _

@[simp] theorem State.core_updSeq (f : Seq → Seq) :
    (s.updSeq f).core s.cur = { s.core s.cur with seq := f (s.core s.cur).seq } := s.core_upd _ _

theorem State.core_updSeq_ne {x : CoreIx} (h : x ≠ s.cur) (f : Seq → Seq) : (s.updSeq f).core x = s.core x := s.core_upd_ne h _

@[simp] theorem State.col_updCol (c : CoreIx) (f : Column → Column) : (s.updCol c f).col c = f (s.col c) := by
  show (tget (tput s.cols c.val (f (s.col c))) c.val).getD {} = _
  rw [tget_tput]; rfl

theorem State.col_updCol_ne {c x : CoreIx} (h : x ≠ c) (f : Column → Column) : (s.updCol c f).col x = s.col x := by
  have : x.val ≠ c.val := fun e => h (Fin.ext e)
  show (tget (tput s.cols c.val (f (s.col c))) x.val).getD {} = _
  rw [tget_tput_ne _ _ this]; rfl

@[simp] theorem State.part_updPart (p : PartIx) (f : Part → Part) : (s.updPart p f).part p = f (s.part p) := by
  show (tget (tput s.parts p.val (f (s.part p))) p.val).getD {} = _
  rw [tget_tput]; rfl

theorem State.part_updPart_ne {p x : PartIx} (h : x ≠ p) (f : Part → Part) : (s.updPart p f).part x = s.part x := by
  have : x.val ≠ p.val := fun e => h (Fin.ext e)
  show (tget (tput s.parts p.val (f (s.part p))) x.val).getD {} = _
  rw [tget_tput_ne _ _ this]; rfl

@[simp] theorem State.sched_agenda (t : Nat) (i : Instr) : (s.sched t i).agenda =
    agendaPut s.agenda { cycle := t, core := s.cur, part := s.curPart, link := s.curLink, instr := i } := rfl

@[simp] theorem State.schedC_agenda (t : Nat) (c : CoreIx) (i : Instr) : (s.schedC t c i).agenda =
    agendaPut s.agenda { cycle := t, core := c, part := s.curPart, link := s.curLink, instr := i } := rfl

@[simp] theorem State.schedP_agenda (t : Nat) (p : PartIx) (i : Instr) : (s.schedP t p i).agenda =
    agendaPut s.agenda { cycle := t, core := s.cur, part := p, link := s.curLink, instr := i } := rfl

/-- An event put on the agenda is on it. -/
theorem mem_agendaPut (a : List Ev) (e : Ev) : e ∈ agendaPut a e := by
  induction a with
  | nil => simp [agendaPut]
  | cons x r ih => unfold agendaPut; split <;> simp [ih]

/-- Putting an event on the agenda removes none and adds no other. -/
theorem mem_agendaPut_iff (a : List Ev) (e x : Ev) : x ∈ agendaPut a e ↔ x = e ∨ x ∈ a := by
  induction a with
  | nil => simp [agendaPut]
  | cons y r ih => unfold agendaPut; split <;> simp [ih]; tauto

@[simp] theorem Core.queue_setQueue_seq (k : Core) (q : Queue) : (k.setQueue .seq q).queue .seq = q := rfl
@[simp] theorem Core.queue_setQueue_axu (k : Core) (q : Queue) : (k.setQueue .axu q).queue .axu = q := rfl
@[simp] theorem Core.queue_setQueue_bke (k : Core) (q : Queue) : (k.setQueue .bke q).queue .bke = q := rfl
@[simp] theorem Core.queue_setQueue_vec (k : Core) (q : Queue) : (k.setQueue .vec q).queue .vec = q := rfl

end Sys2Proof.Machine
end

