-- ==== Sys2Proof/Laws/Issue.lean ====
section
/-! SUPPORT. What issuing a word does: the take, the pointer, and the state the body of a word acts on. -/

namespace Sys2Proof

open Sys2Proof.Machine

theorem SameOutside.trans {s t u : State} (a : SameOutside s t) (b : SameOutside t u) : SameOutside s u where
  chron := b.chron.trans a.chron
  off := b.off.trans a.off
  cur := b.cur.trans a.cur
  helm := b.helm.trans a.helm
  hif := b.hif.trans a.hif
  ms := b.ms.trans a.ms
  mig := b.mig.trans a.mig
  fab := b.fab.trans a.fab
  memory := b.memory.trans a.memory
  cols := b.cols.trans a.cols
  cores := fun c hc => (b.cores c (by rw [a.cur]; exact hc)).trans (a.cores c hc)
  parts := fun p => by have x := a.parts p; have y := b.parts p; rw [← x, ← y]
  slots := fun p j => by have x := a.slots p j; have y := b.slots p j; rw [← x, ← y]

theorem SameOutside.refl (s : State) : SameOutside s s :=
  ⟨rfl, rfl, rfl, rfl, rfl, rfl, rfl, rfl, rfl, rfl, fun _ _ => rfl, fun _ => rfl, fun _ _ => rfl⟩

theorem SameOutside.updMe (s : State) (f : Core → Core) : SameOutside s (s.updMe f) :=
  ⟨rfl, rfl, rfl, rfl, rfl, rfl, rfl, rfl, rfl, rfl, fun _ h => s.core_updMe_ne h f, fun _ => rfl, fun _ _ => rfl⟩

theorem SameTraps.refl (q : Seq) : SameTraps q q := ⟨rfl, rfl, rfl, rfl, rfl, rfl⟩

end Sys2Proof

namespace Sys2Proof.Machine

variable (s : State)

theorem State.countLinkTake_fields (c : CoreIx) :
    (s.countLinkTake c).chron = s.chron ∧ (s.countLinkTake c).off = s.off ∧ (s.countLinkTake c).cur = s.cur
      ∧ (s.countLinkTake c).helm = s.helm ∧ (s.countLinkTake c).hif = s.hif ∧ (s.countLinkTake c).ms = s.ms
      ∧ (s.countLinkTake c).mig = s.mig ∧ (s.countLinkTake c).fab = s.fab ∧ (s.countLinkTake c).memory = s.memory
      ∧ (s.countLinkTake c).cols = s.cols ∧ (s.countLinkTake c).cores = s.cores ∧ (s.countLinkTake c).reqs = s.reqs
      ∧ (s.countLinkTake c).nextId = s.nextId ∧ (s.countLinkTake c).freeIx = s.freeIx ∧ (s.countLinkTake c).eng = s.eng
      ∧ (s.countLinkTake c).inputs = s.inputs := by
  unfold State.countLinkTake
  split
  · simp
  · dsimp only
    split <;> simp

/-- A partition after a link take counted in one of its slots. -/
theorem Part.countSlot (q : Part) (i : Fin 8) (n : Nat) :
    let t := q.updSlot i fun x => { x with tkseq := x.tkseq + n }
    { t with slots := q.slots } = q ∧ ∀ j : Fin 8, { t.slots[j] with tkseq := (q.slots[j]).tkseq } = q.slots[j] := by
  refine ⟨rfl, fun j => ?_⟩
  simp only [Part.updSlot, Fin.getElem_fin, Vector.getElem_set]
  split
  · rename_i h
    have : i = j := Fin.ext h
    subst this; rfl
  · rfl

theorem State.countLinkTake_part (c : CoreIx) (p : PartIx) : { (s.countLinkTake c).part p with slots := (s.part p).slots } = s.part p
    ∧ ∀ j : Fin 8, { ((s.countLinkTake c).part p).slots[j] with tkseq := ((s.part p).slots[j]).tkseq } = (s.part p).slots[j] := by
  unfold State.countLinkTake
  split
  · exact ⟨rfl, fun _ => rfl⟩
  · rename_i q _
    by_cases h : p = q
    · subst h
      have := (s.part p).countSlot (s.part p).stampSlot 1
      dsimp only; split <;> simpa using this
    · dsimp only; split <;> simp [State.part_updPart_ne _ h]

/-- What a take leaves: the core's tokens, and for a link token the Logbook's count, change; nothing else. -/
theorem State.take_fields (c : CoreIx) (q f : Nat) :
    (s.take c q f).chron = s.chron ∧ (s.take c q f).off = s.off ∧ (s.take c q f).cur = s.cur
      ∧ (s.take c q f).helm = s.helm ∧ (s.take c q f).hif = s.hif ∧ (s.take c q f).ms = s.ms
      ∧ (s.take c q f).mig = s.mig ∧ (s.take c q f).fab = s.fab ∧ (s.take c q f).memory = s.memory
      ∧ (s.take c q f).cols = s.cols ∧ (s.take c q f).cores = (s.upd c fun x => { x with ctl := x.ctl.take q f }).cores
      ∧ (s.take c q f).reqs = s.reqs ∧ (s.take c q f).nextId = s.nextId ∧ (s.take c q f).freeIx = s.freeIx
      ∧ (s.take c q f).eng = s.eng ∧ (s.take c q f).inputs = s.inputs := by
  unfold State.take
  split
  · have h := State.countLinkTake_fields (s.upd c fun x => { x with ctl := x.ctl.take q f }) c
    simpa using h
  · simp

theorem State.take_part (c : CoreIx) (q f : Nat) (p : PartIx) : { (s.take c q f).part p with slots := (s.part p).slots } = s.part p
    ∧ ∀ j : Fin 8, { ((s.take c q f).part p).slots[j] with tkseq := ((s.part p).slots[j]).tkseq } = (s.part p).slots[j] := by
  unfold State.take
  dsimp only
  split
  · exact State.countLinkTake_part (s.upd c fun x => { x with ctl := x.ctl.take q f }) c p
  · exact ⟨rfl, fun _ => rfl⟩

theorem State.core_congr {s t : State} (h : t.cores = s.cores) (c : CoreIx) : t.core c = s.core c := by
  unfold State.core; rw [h]

@[simp] theorem State.take_chron (c : CoreIx) (q f : Nat) : (s.take c q f).chron = s.chron := (s.take_fields c q f).1
@[simp] theorem State.take_off (c : CoreIx) (q f : Nat) : (s.take c q f).off = s.off := (s.take_fields c q f).2.1
@[simp] theorem State.take_cur (c : CoreIx) (q f : Nat) : (s.take c q f).cur = s.cur := (s.take_fields c q f).2.2.1
@[simp] theorem State.take_helm (c : CoreIx) (q f : Nat) : (s.take c q f).helm = s.helm := (s.take_fields c q f).2.2.2.1
@[simp] theorem State.take_hif (c : CoreIx) (q f : Nat) : (s.take c q f).hif = s.hif := (s.take_fields c q f).2.2.2.2.1
@[simp] theorem State.take_ms (c : CoreIx) (q f : Nat) : (s.take c q f).ms = s.ms := (s.take_fields c q f).2.2.2.2.2.1
@[simp] theorem State.take_mig (c : CoreIx) (q f : Nat) : (s.take c q f).mig = s.mig := (s.take_fields c q f).2.2.2.2.2.2.1
@[simp] theorem State.take_fab (c : CoreIx) (q f : Nat) : (s.take c q f).fab = s.fab := (s.take_fields c q f).2.2.2.2.2.2.2.1
@[simp] theorem State.take_memory (c : CoreIx) (q f : Nat) : (s.take c q f).memory = s.memory := (s.take_fields c q f).2.2.2.2.2.2.2.2.1
@[simp] theorem State.take_cols (c : CoreIx) (q f : Nat) : (s.take c q f).cols = s.cols := (s.take_fields c q f).2.2.2.2.2.2.2.2.2.1
@[simp] theorem State.take_reqs (c : CoreIx) (q f : Nat) : (s.take c q f).reqs = s.reqs := (s.take_fields c q f).2.2.2.2.2.2.2.2.2.2.2.1
@[simp] theorem State.take_nextId (c : CoreIx) (q f : Nat) : (s.take c q f).nextId = s.nextId := (s.take_fields c q f).2.2.2.2.2.2.2.2.2.2.2.2.1
@[simp] theorem State.take_freeIx (c : CoreIx) (q f : Nat) : (s.take c q f).freeIx = s.freeIx := (s.take_fields c q f).2.2.2.2.2.2.2.2.2.2.2.2.2.1
@[simp] theorem State.take_eng (c : CoreIx) (q f : Nat) : (s.take c q f).eng = s.eng := (s.take_fields c q f).2.2.2.2.2.2.2.2.2.2.2.2.2.2.1
@[simp] theorem State.take_inputs (c : CoreIx) (q f : Nat) : (s.take c q f).inputs = s.inputs := (s.take_fields c q f).2.2.2.2.2.2.2.2.2.2.2.2.2.2.2

@[simp] theorem State.take_core (c : CoreIx) (q f : Nat) :
    (s.take c q f).core c = { s.core c with ctl := (s.core c).ctl.take q f } := by
  rw [State.core_congr (s.take_fields c q f).2.2.2.2.2.2.2.2.2.2.1]; simp

theorem State.take_core_ne {c x : CoreIx} (h : x ≠ c) (q f : Nat) : (s.take c q f).core x = s.core x := by
  rw [State.core_congr (s.take_fields c q f).2.2.2.2.2.2.2.2.2.2.1]; exact s.core_upd_ne h _

@[simp] theorem State.take_partOf (c : CoreIx) (q f : Nat) (x : CoreIx) : (s.take c q f).partOf x = s.partOf x := by
  unfold State.partOf State.partOfCluster; rw [(s.take_fields c q f).2.2.2.2.1]

/-! ## Putting a word in flight -/

theorem State.foldl_schedC_fields (c : CoreIx) (i : Instr) (bs : List Beat) (s : State) :
    let t := bs.foldl (fun s b => s.schedC b.at_ c i) s
    t.chron = s.chron ∧ t.off = s.off ∧ t.cur = s.cur ∧ t.helm = s.helm ∧ t.hif = s.hif ∧ t.ms = s.ms ∧ t.mig = s.mig
      ∧ t.fab = s.fab ∧ t.memory = s.memory ∧ t.cols = s.cols ∧ t.cores = s.cores ∧ t.parts = s.parts ∧ t.reqs = s.reqs
      ∧ t.nextId = s.nextId ∧ t.freeIx = s.freeIx ∧ t.eng = s.eng ∧ t.inputs = s.inputs := by
  induction bs generalizing s with
  | nil => simp
  | cons b r ih => simpa using ih (s.schedC b.at_ c i)

/-- What putting a word in flight changes: the words in flight of its core, and the agenda. -/
theorem State.launch_fields (c : CoreIx) (w : Inflight) :
    (s.launch c w).chron = s.chron ∧ (s.launch c w).off = s.off ∧ (s.launch c w).cur = s.cur
      ∧ (s.launch c w).helm = s.helm ∧ (s.launch c w).hif = s.hif ∧ (s.launch c w).ms = s.ms
      ∧ (s.launch c w).mig = s.mig ∧ (s.launch c w).fab = s.fab ∧ (s.launch c w).memory = s.memory
      ∧ (s.launch c w).cols = s.cols
      ∧ (s.launch c w).cores = (s.upd c fun k => { k with pipe := { k.pipe with infl := k.pipe.infl ++ [w] } }).cores
      ∧ (s.launch c w).parts = s.parts ∧ (s.launch c w).reqs = s.reqs
      ∧ (s.launch c w).nextId = s.nextId ∧ (s.launch c w).freeIx = s.freeIx ∧ (s.launch c w).eng = s.eng
      ∧ (s.launch c w).inputs = s.inputs := by
  have h := State.foldl_schedC_fields c (.wordRetire c w.id) w.beats
    (s.upd c fun k => { k with pipe := { k.pipe with infl := k.pipe.infl ++ [w] } })
  simpa [State.launch] using h

@[simp] theorem State.launch_chron (c : CoreIx) (w : Inflight) : (s.launch c w).chron = s.chron := (s.launch_fields c w).1
@[simp] theorem State.launch_off (c : CoreIx) (w : Inflight) : (s.launch c w).off = s.off := (s.launch_fields c w).2.1
@[simp] theorem State.launch_cur (c : CoreIx) (w : Inflight) : (s.launch c w).cur = s.cur := (s.launch_fields c w).2.2.1
@[simp] theorem State.launch_helm (c : CoreIx) (w : Inflight) : (s.launch c w).helm = s.helm := (s.launch_fields c w).2.2.2.1
@[simp] theorem State.launch_hif (c : CoreIx) (w : Inflight) : (s.launch c w).hif = s.hif := (s.launch_fields c w).2.2.2.2.1
@[simp] theorem State.launch_ms (c : CoreIx) (w : Inflight) : (s.launch c w).ms = s.ms := (s.launch_fields c w).2.2.2.2.2.1
@[simp] theorem State.launch_mig (c : CoreIx) (w : Inflight) : (s.launch c w).mig = s.mig := (s.launch_fields c w).2.2.2.2.2.2.1
@[simp] theorem State.launch_fab (c : CoreIx) (w : Inflight) : (s.launch c w).fab = s.fab := (s.launch_fields c w).2.2.2.2.2.2.2.1
@[simp] theorem State.launch_memory (c : CoreIx) (w : Inflight) : (s.launch c w).memory = s.memory := (s.launch_fields c w).2.2.2.2.2.2.2.2.1
@[simp] theorem State.launch_cols (c : CoreIx) (w : Inflight) : (s.launch c w).cols = s.cols := (s.launch_fields c w).2.2.2.2.2.2.2.2.2.1
@[simp] theorem State.launch_parts (c : CoreIx) (w : Inflight) : (s.launch c w).parts = s.parts := (s.launch_fields c w).2.2.2.2.2.2.2.2.2.2.2.1
@[simp] theorem State.launch_reqs (c : CoreIx) (w : Inflight) : (s.launch c w).reqs = s.reqs := (s.launch_fields c w).2.2.2.2.2.2.2.2.2.2.2.2.1
@[simp] theorem State.launch_nextId (c : CoreIx) (w : Inflight) : (s.launch c w).nextId = s.nextId := (s.launch_fields c w).2.2.2.2.2.2.2.2.2.2.2.2.2.1
@[simp] theorem State.launch_freeIx (c : CoreIx) (w : Inflight) : (s.launch c w).freeIx = s.freeIx := (s.launch_fields c w).2.2.2.2.2.2.2.2.2.2.2.2.2.2.1
@[simp] theorem State.launch_eng (c : CoreIx) (w : Inflight) : (s.launch c w).eng = s.eng := (s.launch_fields c w).2.2.2.2.2.2.2.2.2.2.2.2.2.2.2.1
@[simp] theorem State.launch_inputs (c : CoreIx) (w : Inflight) : (s.launch c w).inputs = s.inputs := (s.launch_fields c w).2.2.2.2.2.2.2.2.2.2.2.2.2.2.2.2

@[simp] theorem State.launch_core (c : CoreIx) (w : Inflight) :
    (s.launch c w).core c = { s.core c with pipe := { (s.core c).pipe with infl := (s.core c).pipe.infl ++ [w] } } := by
  rw [State.core_congr (s.launch_fields c w).2.2.2.2.2.2.2.2.2.2.1]; simp

theorem State.launch_core_ne {c x : CoreIx} (h : x ≠ c) (w : Inflight) : (s.launch c w).core x = s.core x := by
  rw [State.core_congr (s.launch_fields c w).2.2.2.2.2.2.2.2.2.2.1]; exact s.core_upd_ne h _

@[simp] theorem State.launch_part (c : CoreIx) (w : Inflight) (p : PartIx) : (s.launch c w).part p = s.part p := by
  unfold State.part; rw [(s.launch_fields c w).2.2.2.2.2.2.2.2.2.2.2.1]

@[simp] theorem State.launch_partOf (c : CoreIx) (w : Inflight) (x : CoreIx) : (s.launch c w).partOf x = s.partOf x := by
  unfold State.partOf State.partOfCluster; rw [(s.launch_fields c w).2.2.2.2.1]

/-- A word in flight is due: its completion stands on the agenda. -/
theorem State.launch_due (c : CoreIx) (w : Inflight) :
    ∃ e ∈ (s.launch c w).agenda, e.cycle = w.doneAt ∧ e.core = c ∧ e.instr = .wordRetire c w.id :=
  ⟨_, mem_agendaPut _ _, rfl, rfl, rfl⟩

/-! ## Issue of a SEQ word -/

/-- The module with the take of a SEQ word made and its pointer advanced. -/
def State.seqIssued (h : Hdr) : State :=
  (if seqTakes s h then s.take s.cur 0 (tokFrom s .seq) else s).advance s.cur .seq

/-- A SEQ word that may issue acts with its body on the state with the take made and the pointer advanced. -/
theorem State.seqIssue_ready {s : State} {h : Hdr} {rs : List (Fin 32)} (hr : SeqReady s h rs) (i : Instr) {priv : Bool}
    (hp : priv = true → s.me.seq.sup = true) (own : Bool) (lat : Nat) (body : State → Verdict) :
    s.seqIssue i h rs priv own lat body = match body (s.seqIssued h) with
      | .ok s3 => if h.g && !own then s3.giveAt s.cur .seq i s.me.seq.q.pc lat else s3
      | .fault code va ia wr at_ _ => (s.seqIssued h).seqFault s.cur code s.me.seq.q.pc (seqTakes s h) va ia wr at_
      | .fillFault code entry level hx => (s.seqIssued h).fillFault s.cur .seq code s.me.seq.q.pc (seqTakes s h) entry level hx
      | .fill hx => if s.fixedLeg s.cur then (s.seqIssued h).coreFault s.cur 0 0x41 s.me.seq.q.pc else (s.fillStart s.cur 0 hx s.me.seq.q.pc).waitOr41 s.cur .seq
      | .wait => s.waitOrKeep (s.seqIssued h) s.cur .seq s.me.seq.q.pc
      | .late t => s.lateOr41 (s.seqIssued h) s.cur .seq i s.me.seq.q.pc t := by
  obtain ⟨h1, h2, h3⟩ := hr
  have e1 : (s.core s.cur).stat.trapDue s.chron = false := h1
  have e2 : (s.core s.cur).seq.ready s.chron rs = true := h2
  have e3 : (priv && !(s.core s.cur).seq.sup) = false := by
    cases priv with
    | false => rfl
    | true => have := hp rfl; simp only [State.me] at this; simp [this]
  have e4 : ((s.seqToken s.cur h.t).1 && !(s.seqToken s.cur h.t).2) = false := by
    have et : (s.seqToken s.cur h.t).1 = seqTakes s h := rfl
    cases ht : seqTakes s h with
    | false => simp [et, ht]
    | true =>
      obtain ⟨a, b⟩ := h3 ht
      have : (s.seqToken s.cur h.t).2 = true := by
        simp only [State.seqToken]
        simp only [State.me, tokFrom, show Eng.num .seq = 0 from rfl] at a b
        cases hf : s.fixedLeg s.cur with
        | false => simpa using a
        | true => have := b hf; simp [a]; omega
      simp [this]
  have e5 : s.seqTaken s.cur h.t = s.seqIssued h := by
    unfold State.seqTaken State.seqIssued
    have et : (s.seqToken s.cur h.t).1 = seqTakes s h := rfl
    cases ht : seqTakes s h with
    | false => simp [et, ht]
    | true =>
      have : (s.seqToken s.cur h.t).2 = true := by rw [et, ht] at e4; simpa using e4
      simp [et, ht, this, tokFrom, State.me, Eng.num]
  have et : (s.seqToken s.cur h.t).1 = seqTakes s h := rfl
  unfold State.seqIssue
  dsimp only
  rw [e5, et]
  rw [et] at e4
  simp only [e1, e2, e3, e4, Bool.false_eq_true, if_false, Bool.not_true, Bool.false_or, Bool.false_and]
  rfl

theorem State.seqIssued_me (h : Hdr) : (s.seqIssued h).core s.cur =
    { s.core s.cur with
      seq := { (s.core s.cur).seq with q := (s.core s.cur).seq.q.advance s.chron, noTakeAt := none }
      ctl := seqCtl s h } := by
  unfold State.seqIssued State.advance seqCtl
  split
  · simp [State.me, Core.queue]
  · simp [State.me, Core.queue]

/-- What issuing a SEQ word leaves outside its core. -/
theorem State.seqIssued_outside (h : Hdr) : SameOutside s (s.seqIssued h) := by
  unfold State.seqIssued
  split
  · obtain ⟨a, b, c, d, e, f, g, i, j, k, l, m, n, o, p, q⟩ := s.take_fields s.cur 0 (tokFrom s .seq)
    refine ⟨?_, ?_, ?_, ?_, ?_, ?_, ?_, ?_, ?_, ?_, ?_, ?_, ?_⟩ <;> try (simp [State.advance, *]; done)
    · intro x hx; simp only [State.advance]; rw [State.core_upd_ne _ hx, State.take_core_ne _ hx]
    · intro x; exact (s.take_part _ _ _ x).1
    · intro x; exact (s.take_part _ _ _ x).2
  · refine ⟨rfl, rfl, rfl, rfl, rfl, rfl, rfl, rfl, rfl, rfl, ?_, fun _ => rfl, fun _ _ => rfl⟩
    intro x hx; simp only [State.advance]; rw [State.core_upd_ne _ hx]

theorem State.seqIssued_reqs (h : Hdr) : (s.seqIssued h).reqs = s.reqs ∧ (s.seqIssued h).nextId = s.nextId
    ∧ (s.seqIssued h).freeIx = s.freeIx ∧ (s.seqIssued h).eng = s.eng := by
  unfold State.seqIssued
  split
  · obtain ⟨a, b, c, d, e, f, g, i, j, k, l, m, n, o, p, q⟩ := s.take_fields s.cur 0 (tokFrom s .seq)
    exact ⟨m, n, o, p⟩
  · exact ⟨rfl, rfl, rfl, rfl⟩

/-! ## Giving a token at retirement -/

/-- What a give scheduled for a word's retirement changes: the words in flight of its core, the agenda, the next identity. -/
theorem State.giveAt_fields (c : CoreIx) (e : Eng) (i : Instr) (pc : Int) (lat : Nat) :
    SameOutside s (s.giveAt c e i pc lat) ∨ c ≠ s.cur := by
  by_cases hc : c = s.cur
  · left
    subst hc
    unfold State.giveAt
    refine ⟨?_, ?_, ?_, ?_, ?_, ?_, ?_, ?_, ?_, ?_, ?_, ?_, ?_⟩ <;> try (simp [State.newId]; done)
    · intro x hx; dsimp only [State.newId]; rw [State.launch_core_ne _ hx]; rfl
    · intro p; simp only [State.newId, State.launch_part]; rfl
    · intro p j; simp only [State.newId, State.launch_part]; rfl
  · right; exact hc

theorem State.giveAt_core (c : CoreIx) (e : Eng) (i : Instr) (pc : Int) (lat : Nat) :
    ∃ p, (s.giveAt c e i pc lat).core c = { s.core c with pipe := p } :=
  ⟨_, by unfold State.giveAt; dsimp only [State.newId]; rw [State.launch_core]; rfl⟩

/-! ## Issue of a word of the AXU, the BKE or the VEC -/

/-- The module with the take of a word made, the trips that begin with it entered, its pointer advanced and, for the AXU, the
word noted. -/
def State.engIssued (e : Eng) (h : Hdr) : State :=
  let s1 := if engTakes s e h then s.take s.cur e.num (tokFrom s e) else s
  let s2 := (s1.upd s.cur (Core.entered e)).advance s.cur e
  if e = .axu then s2.noteAxu s.cur h.t (s.me.axu.again.headD (false, false)).2 else s2

/-- A word that may issue acts with its body on the state with the take made and the pointer advanced. -/
theorem State.engIssue_ready {s : State} {e : Eng} {h : Hdr} (hr : EngReady s e h) (i : Instr) (own : Bool) (lat : Nat)
    (body : State → Verdict) :
    s.engIssue e i h own lat body = match body (s.engIssued e h) with
      | .ok s3 => if h.g && !own then s3.giveAt s.cur e i (s.me.queue e).pc lat else s3
      | .fault code _ ia _ _ handle => (s.engIssued e h).coreFault s.cur e.num code (s.me.queue e).pc ia handle
      | .fillFault code entry level hx => (s.engIssued e h).fillFault s.cur e code (s.me.queue e).pc (engTakes s e h) entry level hx
      | .fill hx => if s.fixedLeg s.cur then (s.engIssued e h).coreFault s.cur e.num 0x41 (s.me.queue e).pc
          else (s.fillStart s.cur e.num hx (s.me.queue e).pc).waitOr41 s.cur e
      | .wait => s.waitOrKeep (s.engIssued e h) s.cur e (s.me.queue e).pc
      | .late t => s.lateOr41 (s.engIssued e h) s.cur e i (s.me.queue e).pc t := by
  obtain ⟨h1, h2⟩ := hr
  have tk : (h.t && !(if e = Eng.axu then (s.core s.cur).axu.again.headD (false, false) else (false, false)).1) = engTakes s e h := by
    unfold engTakes State.me
    by_cases ha : e = .axu <;> simp [ha]
  have e4 : (engTakes s e h && (!(s.core s.cur).ctl.hasTok e.num (((s.core s.cur).ctl.seen s.chron).from_ e.num) ||
        (s.fixedLeg s.cur && decide (8 ≤ ((s.core s.cur).ctl.seen s.chron).from_ e.num)))) = false := by
    cases ht : engTakes s e h with
    | false => rfl
    | true =>
      obtain ⟨a, b⟩ := h1 ht
      simp only [State.me, tokFrom] at a b
      cases hf : s.fixedLeg s.cur with
      | false => simp [a]
      | true => have := b hf; simp [a]; omega
  have e5 : (e == Eng.axu && !s.axuMay s.cur) = false := by
    by_cases ha : e = .axu
    · simp [ha, h2 ha]
    · simp [ha]
  unfold State.engIssue
  dsimp only
  rw [tk]
  simp only [e4, e5, Bool.false_eq_true, if_false]
  unfold State.engIssued
  dsimp only
  by_cases ha : e = .axu <;> simp [ha, State.me] <;> rfl

end Sys2Proof.Machine
end

