-- ==== Sys2Proof/Laws/Access.lean ====
section
/-! SUPPORT. What the shared operations of a word's body leave: the frame of each, the core at hand after it, and the access of the
sequencer (R298, R299, R308). -/

namespace Sys2Proof

open Sys2Proof.Machine

variable {s u : State}

theorem SameOutside.then_updMe (h : SameOutside s u) (f : Core → Core) : SameOutside s (u.updMe f) := h.trans (.updMe u f)

theorem SameOutside.then_updSeq (h : SameOutside s u) (f : Seq → Seq) : SameOutside s (u.updSeq f) := h.then_updMe _

theorem SameOutside.then_sched (h : SameOutside s u) (t : Nat) (i : Instr) : SameOutside s (u.sched t i) :=
  ⟨h.1, h.2, h.3, h.4, h.5, h.6, h.7, h.8, h.9, h.10, h.11, h.12, h.13⟩

theorem SameOutside.then_addReq (h : SameOutside s u) (r : Req) : SameOutside s (u.addReq r).2 :=
  ⟨h.1, h.2, h.3, h.4, h.5, h.6, h.7, h.8, h.9, h.10, h.11, h.12, h.13⟩

theorem SameOutside.then_newId (h : SameOutside s u) : SameOutside s u.newId.2 :=
  ⟨h.1, h.2, h.3, h.4, h.5, h.6, h.7, h.8, h.9, h.10, h.11, h.12, h.13⟩

theorem SameOutside.then_draw (h : SameOutside s u) : SameOutside s u.drawWalk.2 :=
  ⟨h.1, h.2, h.3, h.4, h.5, h.6, h.7, h.8, h.9, h.10, h.11, h.12, h.13⟩

theorem SameOutside.then_claim (h : SameOutside s u) (cs : List Claim) : SameOutside s (u.claim u.cur cs) := h.then_updMe _

theorem SameOutside.then_occupy (h : SameOutside s u) (bs : List Busy) : SameOutside s (u.occupy u.cur bs) := h.then_updMe _

theorem SameOutside.then_launch (h : SameOutside s u) (w : Inflight) : SameOutside s (u.launch u.cur w) := by
  refine h.trans ⟨?_, ?_, ?_, ?_, ?_, ?_, ?_, ?_, ?_, ?_, ?_, ?_, ?_⟩ <;> try (simp; done)
  intro x hx; exact u.launch_core_ne hx w

theorem SameOutside.then_giveAt (h : SameOutside s u) (e : Eng) (i : Instr) (pc : Int) (lat : Nat) :
    SameOutside s (u.giveAt u.cur e i pc lat) :=
  h.trans (by rcases u.giveAt_fields u.cur e i pc lat with x | x <;> [exact x; exact absurd rfl x])

end Sys2Proof

namespace Sys2Proof.Machine

open Sys2Proof

variable (s : State)

@[simp] theorem State.me_updMe (f : Core → Core) : (s.updMe f).me = f s.me := s.core_updMe f
@[simp] theorem State.me_updSeq (f : Seq → Seq) : (s.updSeq f).me = { s.me with seq := f s.me.seq } := s.core_updSeq f
@[simp] theorem State.me_sched (t : Nat) (i : Instr) : (s.sched t i).me = s.me := rfl
@[simp] theorem State.me_addReq (r : Req) : (s.addReq r).2.me = s.me := rfl
@[simp] theorem State.me_newId : s.newId.2.me = s.me := rfl
@[simp] theorem State.me_claim (cs : List Claim) :
    (s.claim s.cur cs).me = { s.me with pipe := s.me.pipe.claim s.chron cs } := s.core_updMe _
@[simp] theorem State.me_occupy (bs : List Busy) :
    (s.occupy s.cur bs).me = { s.me with pipe := s.me.pipe.occupy s.chron bs } := s.core_updMe _
@[simp] theorem State.me_launch (w : Inflight) :
    (s.launch s.cur w).me = { s.me with pipe := { s.me.pipe with infl := s.me.pipe.infl ++ [w] } } := by
  unfold State.me; rw [State.launch_cur, State.launch_core]

/-- A give put off to the retirement changes nothing of the core at hand but the words in flight. -/
theorem State.me_giveAt (e : Eng) (i : Instr) (pc : Int) (lat : Nat) :
    ∃ w, (s.giveAt s.cur e i pc lat).me = { s.me with pipe := { s.me.pipe with infl := s.me.pipe.infl ++ [w] } } :=
  ⟨_, by unfold State.giveAt; dsimp only [State.newId]; exact State.me_launch _ _⟩

/-! ## The state a SEQ word's body acts on -/

theorem Ctl.take_fields (k : Ctl) (q f : Nat) : (k.take q f).rng = k.rng ∧ (k.take q f).legno = k.legno
    ∧ (k.take q f).tksel = k.tksel ∧ (k.take q f).sizecls = k.sizecls ∧ (k.take q f).vsh = k.vsh ∧ (k.take q f).vmd = k.vmd
    ∧ (k.take q f).bfmt = k.bfmt ∧ (k.take q f).rwin = k.rwin ∧ (k.take q f).course = k.course ∧ (k.take q f).health = k.health := by
  unfold Ctl.take
  split
  · exact ⟨rfl, rfl, rfl, rfl, rfl, rfl, rfl, rfl, rfl, rfl⟩
  · unfold Ctl.setOcc; split <;> exact ⟨rfl, rfl, rfl, rfl, rfl, rfl, rfl, rfl, rfl, rfl⟩

theorem seqCtl_fields (s : State) (h : Hdr) : (seqCtl s h).rng = s.me.ctl.rng ∧ (seqCtl s h).legno = s.me.ctl.legno
    ∧ (seqCtl s h).tksel = s.me.ctl.tksel := by
  unfold seqCtl; split
  · obtain ⟨a, b, c, _⟩ := s.me.ctl.take_fields 0 (tokFrom s .seq); exact ⟨a, b, c⟩
  · exact ⟨rfl, rfl, rfl⟩

theorem State.seqIssued_cur (h : Hdr) : (s.seqIssued h).cur = s.cur := (s.seqIssued_outside h).cur

theorem State.seqIssued_me' (h : Hdr) : (s.seqIssued h).me =
    { s.me with seq := { s.me.seq with q := s.me.seq.q.advance s.chron, noTakeAt := none }, ctl := seqCtl s h } := by
  unfold State.me; rw [s.seqIssued_cur]; exact s.seqIssued_me h

theorem State.seqIssued_partOf (h : Hdr) (c : CoreIx) : (s.seqIssued h).partOf c = s.partOf c := by
  unfold State.partOf State.partOfCluster; rw [(s.seqIssued_outside h).hif]

theorem State.seqIssued_legs (h : Hdr) (p : PartIx) : ((s.seqIssued h).part p).legs = (s.part p).legs := by
  rw [← (s.seqIssued_outside h).parts p]

theorem State.seqIssued_fixedLeg (h : Hdr) : (s.seqIssued h).fixedLeg s.cur = s.fixedLeg s.cur := by
  unfold State.fixedLeg
  rw [State.seqIssued_partOf, s.seqIssued_me h]
  dsimp only
  split
  · rfl
  · unfold Part.leg; rw [State.seqIssued_legs, (seqCtl_fields s h).2.1]; rfl

/-! ## Pending registers -/

theorem Seq.pend_get (q : Seq) (d : Fin 32) (t : Nat) (r : Fin 32) :
    (q.pend d t).gReady[r] = if d = r ∧ d ≠ 0 then t else q.gReady[r] := by
  unfold Seq.pend
  split
  · simp [*]
  · rename_i h
    by_cases e : d = r
    · subst e; simp [h]
    · have : d.val ≠ r.val := fun x => e (Fin.ext x)
      simp [e, this]

theorem Seq.pendDest_vals (q : Seq) (x : Dest) (t : Nat) : (q.pendDest x t).g = q.g ∧ (q.pendDest x t).taint = q.taint
    ∧ SameTraps q (q.pendDest x t) ∧ (q.pendDest x t).q = q.q := by
  unfold Seq.pendDest Seq.pend
  repeat' split
  all_goals exact ⟨rfl, rfl, ⟨rfl, rfl, rfl, rfl, rfl, rfl⟩, rfl⟩

theorem Seq.pendDest_hold (q : Seq) (x : Dest) (t : Nat) : { q.pendDest x t with hold := q.hold } = q.pendDest x t := by
  unfold Seq.pendDest Seq.pend
  repeat' split
  all_goals rfl

theorem Seq.pendDest_in (q : Seq) (x : Dest) (t : Nat) : ∀ d ∈ destRegs x, d ≠ 0 → (q.pendDest x t).gReady[d] = t := by
  intro d hd h0
  cases x <;> simp only [destRegs, List.not_mem_nil] at hd
  · rename_i d' n t' p
    cases p
    · simp at hd; subst hd; simp only [Seq.pendDest, Bool.false_eq_true, if_false, pend_get]; simp [h0]
    · simp at hd; simp only [Seq.pendDest, if_true, pend_get]
      rcases hd with rfl | rfl <;> simp [h0]
  · simp at hd; subst hd; simp only [Seq.pendDest, pend_get]; simp [h0]

theorem Seq.pendDest_out (q : Seq) (x : Dest) (t : Nat) (hp : ∀ y, x ≠ .cmd y) :
    ∀ d, d ∉ destRegs x → (q.pendDest x t).gReady[d] = q.gReady[d] := by
  intro d hd
  cases x <;> try rfl
  · rename_i d' n t' p
    cases p <;> simp only [destRegs, Bool.false_eq_true, if_false, if_true, List.mem_cons, List.not_mem_nil, or_false, not_or] at hd <;>
      simp only [Seq.pendDest, Bool.false_eq_true, if_false, if_true, pend_get]
    · rw [if_neg]; intro h; exact hd h.1.symm
    · rw [if_neg (fun h => hd.2 h.1.symm), if_neg (fun h => hd.1 h.1.symm)]
  · simp only [destRegs, List.mem_cons, List.not_mem_nil, or_false] at hd
    simp only [Seq.pendDest, pend_get]; rw [if_neg]; intro h; exact hd h.1.symm
  · rename_i y; exact absurd rfl (hp y)

/-! ## The access of a SEQ word -/

theorem State.seqIssued_killed (h : Hdr) (x : CoreIx) : ((s.seqIssued h).core x).killed = (s.core x).killed := by
  by_cases e : x = s.cur
  · subst e; rw [s.seqIssued_me h]
  · rw [(s.seqIssued_outside h).cores x e]

theorem State.seqIssued_ldcHolds (h : Hdr) (i : Instr) (t : Option Nat) :
    (s.seqIssued h).ldcHolds s.cur i t = s.ldcHolds s.cur i t := by
  unfold State.ldcHolds State.unperformed
  rw [(s.seqIssued_reqs h).1, s.seqIssued_me h, (s.seqIssued_outside h).chron]
  rfl

theorem State.seqMay_issued {s : State} {i : Instr} {addr : Word} {n : Nat} {k : AccKind} {ia : Nat} (hm : SeqMay s i addr n k ia) (h : Hdr) :
    SeqMay (s.seqIssued h) i addr n k ia := by
  obtain ⟨h1, h2, h3, h4, h5, h6, h9, h7, h8⟩ := hm
  have hc := s.seqIssued_cur h
  have o := s.seqIssued_outside h
  have hr := s.seqIssued_reqs h
  have e1 := s.seqIssued_me' h
  refine ⟨h1, h2, ?_, h4, ?_, ?_, ?_, ?_, ?_⟩
  · rw [e1]; dsimp only; rw [(seqCtl_fields s h).1]; exact h3
  · rw [State.seqIssued_partOf, hc]
    unfold State.issuerCheck at h5 ⊢
    rw [o.fab]
    simpa only [State.seqIssued_partOf, State.seqIssued_killed] using h5
  · unfold State.fenceClear State.unperformed at h6 ⊢
    rw [hc, s.seqIssued_me h, hr.1, o.chron]; exact h6
  · rw [hc, State.seqIssued_ldcHolds, State.seqIssued_fixedLeg, o.chron]; exact h9
  · rw [e1, hc, o.chron]; exact h7
  · rw [hc, State.seqIssued_fixedLeg, State.seqIssued_partOf]
    unfold State.pinOf at h8 ⊢
    rw [o.ms]; exact h8

theorem State.launch_agenda_mono (c : CoreIx) (w : Inflight) {e : Ev} (h : e ∈ s.agenda) : e ∈ (s.launch c w).agenda := by
  unfold State.launch
  have : ∀ (bs : List Beat) (i : Instr) (u : State), e ∈ u.agenda → e ∈ (bs.foldl (fun s b => s.schedC b.at_ c i) u).agenda := by
    intro bs i
    induction bs with
    | nil => intro u hu; exact hu
    | cons b r ih => intro u hu; exact ih _ ((mem_agendaPut_iff _ _ _).2 (.inr hu))
  exact (mem_agendaPut_iff _ _ _).2 (.inr (this _ _ _ h))

/-- What the give of an access leaves: the request, the frame and the registers of the state before it. -/
theorem seqAsks_tail {s u : State} {r : Req} {k : AccKind} {ia n : Nat} {x : Dest} {perf use late : Nat} {p : Pipe} {w : Nat} {hold : Option Nat}
    (g : Bool) (i : Instr) (pc : Int) (lat : Nat)
    (ho : SameOutside s u) (hr : u.reqs = s.reqs ++ [r])
    (hrr : r.id = s.nextId ∧ r.core = s.cur ∧ r.who = 0 ∧ r.kind = k ∧ r.ia = ia ∧ r.n = n ∧ r.dest = x ∧ r.done = false)
    (hme : u.me = { s.me with pipe := p, seq := { s.me.seq.pendDest x w with hold := hold } })
    (ha : isOwnSpad s.cur ia = true → ∃ e ∈ u.agenda, e.cycle = s.chron + perf ∧ e.core = s.cur ∧ e.instr = .accessResponse r.id)
    (hb : isOwnSpad s.cur ia = false → s.fixedLeg s.cur = true → ∃ e ∈ u.agenda, e.cycle ≤ s.chron + 192 ∧ e.core = s.cur ∧ e.instr = .pageWalk r.id)
    (hc : isOwnSpad s.cur ia = false → s.fixedLeg s.cur = false → hold = some r.id ∧ ∃ e ∈ u.agenda, s.chron < e.cycle ∧ e.core = s.cur ∧ e.instr = .pageWalk r.id)
    (hw : isOwnSpad s.cur ia = true → destRegs x ≠ [] → w = s.chron + use)
    (hw2 : isOwnSpad s.cur ia = false → s.fixedLeg s.cur = true → destRegs x ≠ [] → w = s.chron + late) :
    let t := if g then u.giveAt u.cur .seq i pc lat else u
    SeqAsks s t [] s.nextId k ia n x perf use late ∧ SameOutside s t
      ∧ (∃ p u hold, t.me = { s.me with pipe := p, seq := { s.me.seq.pendDest x u with hold := hold } }) := by
  intro t
  obtain ⟨p', hp'⟩ : ∃ p, t.me = { u.me with pipe := p } := by
    show ∃ p, (if g then u.giveAt u.cur .seq i pc lat else u).me = _
    split
    · obtain ⟨_, h⟩ := u.me_giveAt .seq i pc lat; exact ⟨_, h⟩
    · exact ⟨u.me.pipe, rfl⟩
  have hme' : t.me = { s.me with pipe := p', seq := { s.me.seq.pendDest x w with hold := hold } } := by rw [hp', hme]
  have hreg : ∀ v, w = v → ∀ d ∈ destRegs x, d ≠ 0 → t.me.seq.gReady[d] = v := by
    intro v hv d hd h0
    rw [hme', ← hv]; exact Seq.pendDest_in s.me.seq x w d hd h0
  have hag : ∀ {e}, e ∈ u.agenda → e ∈ t.agenda := by
    intro e he
    show e ∈ (if g then u.giveAt u.cur .seq i pc lat else u).agenda
    split
    · exact State.launch_agenda_mono _ _ _ he
    · exact he
  refine ⟨⟨r, ?_, hrr.1, hrr.2.1, hrr.2.2.1, hrr.2.2.2.1, hrr.2.2.2.2.1, hrr.2.2.2.2.2.1, hrr.2.2.2.2.2.2.1, hrr.2.2.2.2.2.2.2, ?_, ?_, ?_⟩, ?_, ⟨p', w, hold, hme'⟩⟩
  · show (if g then u.giveAt u.cur .seq i pc lat else u).reqs = _
    rw [List.append_nil, ← hr]; split
    · simp [State.giveAt, State.newId]
    · rfl
  · intro h1
    obtain ⟨e, he, he'⟩ := ha h1
    exact ⟨⟨e, hag he, he'⟩, fun d hd => hreg _ (hw h1 (List.ne_nil_of_mem hd)) d hd⟩
  · intro h1 h2
    obtain ⟨e, he, he'⟩ := hb h1 h2
    exact ⟨⟨e, hag he, he'⟩, fun d hd => hreg _ (hw2 h1 h2 (List.ne_nil_of_mem hd)) d hd⟩
  · intro h1 h2
    obtain ⟨h3, e, he, he'⟩ := hc h1 h2
    refine ⟨?_, e, hag he, he'⟩
    rw [hme']; exact h3
  · show SameOutside s (if g then u.giveAt u.cur .seq i pc lat else u)
    split
    · exact ho.then_giveAt _ _ _ _
    · exact ho

/-- An access of the sequencer that passes the checks of its issue: the request it makes and what it leaves. -/
theorem State.memAccess_may {s : State} {addr : Word} {n : Nat} {k : AccKind} {ia : Nat} {i : Instr} (hm : SeqMay s i addr n k ia) (h : Hdr)
    (pc : Int) (x : Dest) (sc : Nat) (perf use late : Nat) (hperf : perf = ownPerform k (seqDist (bankOf ia)))
    (huse : destRegs x ≠ [] → use = ownUsable k (seqDist (bankOf ia))) (hlate : destRegs x ≠ [] → late = if k == .xrd then 196 else 192) :
    ∃ t, s.memAccess i h pc addr n n k x sc = .ok t ∧ SeqAsks s t [] s.nextId k ia n x perf use late
      ∧ SameOutside s t ∧ (∃ p u hold, t.me = { s.me with pipe := p, seq := { s.me.seq.pendDest x u with hold := hold } }) := by
  obtain ⟨h1, h2, h3, h4, h5, h6, h9, h7, h8⟩ := hm
  unfold State.memAccess
  have h3' : translate (s.core s.cur).ctl.rng (!(s.core s.cur).seq.sup) addr.toNat n k.right = .ok ia := h3
  have h4' : ¬ ((ia / 2 ^ 52 = 1 ∨ ia / 2 ^ 52 = 2) ∧ ¬ (k.portable = true)) := fun x => x.2 (h4 x.1)
  dsimp only
  rw [if_neg (by omega), if_neg (by omega), h3']
  dsimp only
  rw [if_neg h4', h5]
  dsimp only
  rw [if_neg (by simp [h6])]
  have hr := SameOutside.refl s
  by_cases ho : isOwnSpad s.cur ia = true
  · rw [if_pos ho]
    have h7' : (s.core s.cur).pipe.hitAt (ownClaims k (bankOf ia) s.chron) = none := h7 ho
    rw [if_pos ho] at h9
    rw [h9, h7']
    refine ⟨_, rfl, ?_⟩
    refine seqAsks_tail (p := s.me.pipe.claim s.chron (ownClaims k (bankOf ia) s.chron)) (w := s.chron + ownUsable k (seqDist (bankOf ia)))
      (hold := s.me.seq.hold) h.g i pc _
      (((((hr.then_addReq _).then_claim _)).then_sched _ _).then_updSeq _) rfl ⟨rfl, rfl, rfl, rfl, rfl, rfl, rfl, rfl⟩ ?_ ?_ ?_ ?_ ?_ ?_
    · rw [Seq.pendDest_hold, State.me_updSeq, State.me_sched]
      refine Eq.trans (congrArg (fun c : Core => { c with seq := c.seq.pendDest x (s.chron + ownUsable k (seqDist (bankOf ia))) })
        (State.me_claim (State.addReq s _).2 (ownClaims k (bankOf ia) s.chron))) ?_
      rfl
    · intro _; exact ⟨_, mem_agendaPut _ _, by rw [hperf]; rfl, rfl, rfl⟩
    · intro hn; rw [ho] at hn; cases hn
    · intro hn; rw [ho] at hn; cases hn
    · intro _ hd; rw [huse hd]
    · intro hn; rw [ho] at hn; cases hn
  · rw [if_neg ho]
    rw [if_neg ho] at h9
    by_cases hf : s.fixedLeg s.cur = true
    · rw [if_pos hf]
      obtain ⟨h8a, p, hp, hpin⟩ := h8 (by simpa using ho) hf
      rw [hp]
      dsimp only
      rw [if_pos hf] at h9
      rw [if_neg (by simp only [not_or, not_not]; exact ⟨h8a, by cases h : s.pinOf p ia <;> simp_all, by simp [h9]⟩)]
      refine ⟨_, rfl, ?_⟩
      refine seqAsks_tail (p := s.me.pipe) (w := s.chron + if k == .xrd then 196 else 192)
        (hold := s.me.seq.hold) h.g i pc _ (((hr.then_addReq _).then_sched _ _).then_updSeq _)
        rfl ⟨rfl, rfl, rfl, rfl, rfl, rfl, rfl, rfl⟩ ?_ ?_ ?_ ?_ ?_ ?_
      · rw [Seq.pendDest_hold, State.me_updSeq, State.me_sched]; rfl
      · intro hn; exact absurd hn ho
      · intro _ _; refine ⟨_, mem_agendaPut _ _, ?_, rfl, rfl⟩; dsimp only; split <;> omega
      · intro _ hn; rw [hf] at hn; cases hn
      · intro hn; exact absurd hn ho
      · intro _ _ hd; rw [hlate hd]
    · rw [if_neg hf]
      rw [if_neg hf] at h9
      rw [h9]
      refine ⟨_, rfl, ?_⟩
      refine seqAsks_tail (p := s.me.pipe) (w := s.chron + (1 + Config.walkLatency s.freeIx))
        (hold := some s.nextId) h.g i pc _ ((((hr.then_addReq _).then_draw).then_sched _ _).then_updSeq _)
        rfl ⟨rfl, rfl, rfl, rfl, rfl, rfl, rfl, rfl⟩ ?_ ?_ ?_ ?_ ?_ ?_
      · rw [State.me_updSeq, State.me_sched]; rfl
      · intro hn; exact absurd hn ho
      · intro _ hn; exact absurd hn hf
      · intro _ _; exact ⟨rfl, _, mem_agendaPut _ _, by dsimp only [State.drawWalk, State.addReq]; omega, rfl, rfl⟩
      · intro hn; exact absurd hn ho
      · intro _ hn; exact absurd hn hf

end Sys2Proof.Machine
end

