-- ==== Sys2Proof/Laws/Engines.lean ====
section
/-! SUPPORT. The state the body of a word of the AXU, the BKE or the VEC acts on. -/

namespace Sys2Proof.Machine

open Sys2Proof

variable (s : State)

theorem SameOutside.take (q f : Nat) : SameOutside s (s.take s.cur q f) := by
  obtain ⟨a, b, c, d, e, f', g, i, j, k, _⟩ := s.take_fields s.cur q f
  exact ⟨a, b, c, d, e, f', g, i, j, k, fun x hx => State.take_core_ne s hx q f, fun p => (s.take_part s.cur q f p).1, fun p => (s.take_part s.cur q f p).2⟩

theorem State.take_me (q f : Nat) : (s.take s.cur q f).me = { s.me with ctl := s.me.ctl.take q f } := by
  unfold State.me; rw [State.take_cur, State.take_core]

/-- The take of a word, if it makes one. -/
def State.taken (e : Eng) (h : Hdr) : State := if engTakes s e h then s.take s.cur e.num (tokFrom s e) else s

theorem State.taken_outside (e : Eng) (h : Hdr) : SameOutside s (s.taken e h) := by
  unfold State.taken; split
  · exact SameOutside.take s _ _
  · exact SameOutside.refl s

theorem State.taken_me (e : Eng) (h : Hdr) : (s.taken e h).me = { s.me with ctl := engCtl s e h } := by
  unfold State.taken engCtl; split
  · exact State.take_me s _ _
  · rfl

theorem State.taken_reqs (e : Eng) (h : Hdr) : (s.taken e h).reqs = s.reqs ∧ (s.taken e h).nextId = s.nextId
    ∧ (s.taken e h).freeIx = s.freeIx ∧ (s.taken e h).eng = s.eng := by
  unfold State.taken; split
  · exact ⟨by simp, by simp, by simp, by simp⟩
  · exact ⟨rfl, rfl, rfl, rfl⟩

theorem State.noteAxu_eq (took gave : Bool) : ∃ hi ag, s.noteAxu s.cur took gave =
    s.updMe fun k => { k with axu := { k.axu with hist := hi, again := ag } } := by
  refine ⟨(if s.axuBusy s.cur then s.me.axu.hist else []) ++ [(s.nextId, took, gave)], s.me.axu.again.drop 1, ?_⟩
  show s.setCore s.cur _ = s.setCore s.cur _
  congr 1

theorem State.engIssued_eq (e : Eng) (he : e ≠ .seq) (he2 : e ≠ .cpe) (h : Hdr) : ∃ hi ag, s.engIssued e h =
    (if e = .axu then (((s.taken e h).updMe (Core.entered e)).updMe fun k => k.setQueue e ((k.queue e).advance s.chron).settle).updMe
        fun k => { k with axu := { k.axu with hist := hi, again := ag } }
      else ((s.taken e h).updMe (Core.entered e)).updMe fun k => k.setQueue e ((k.queue e).advance s.chron).settle) := by
  have hc : (s.taken e h).cur = s.cur := (s.taken_outside e h).cur
  have ht : (s.taken e h).chron = s.chron := (s.taken_outside e h).chron
  have e1 : ((s.taken e h).upd s.cur (Core.entered e)).advance s.cur e =
      ((s.taken e h).updMe (Core.entered e)).updMe fun k => k.setQueue e ((k.queue e).advance s.chron).settle := by
    unfold State.advance State.updMe
    rw [State.upd_chron, ht, State.upd_cur, hc]
    cases e <;> first | rfl | exact absurd rfl he
  unfold State.engIssued
  dsimp only
  rw [show (if engTakes s e h = true then s.take s.cur e.num (tokFrom s e) else s) = s.taken e h from rfl, e1]
  split
  · have := State.noteAxu_eq (((s.taken e h).updMe (Core.entered e)).updMe fun k => k.setQueue e ((k.queue e).advance s.chron).settle)
      h.t (s.me.axu.again.headD (false, false)).2
    rw [State.updMe_cur, State.updMe_cur, hc] at this
    exact this
  · exact ⟨[], [], rfl⟩

theorem State.engIssued_outside (e : Eng) (he : e ≠ .seq) (he2 : e ≠ .cpe) (h : Hdr) : SameOutside s (s.engIssued e h) := by
  obtain ⟨hi, ag, x⟩ := s.engIssued_eq e he he2 h
  rw [x]
  split
  · exact (((s.taken_outside e h).then_updMe _).then_updMe _).then_updMe _
  · exact ((s.taken_outside e h).then_updMe _).then_updMe _

theorem State.engIssued_reqs (e : Eng) (he : e ≠ .seq) (he2 : e ≠ .cpe) (h : Hdr) : (s.engIssued e h).reqs = s.reqs
    ∧ (s.engIssued e h).nextId = s.nextId ∧ (s.engIssued e h).freeIx = s.freeIx ∧ (s.engIssued e h).eng = s.eng := by
  obtain ⟨hi, ag, x⟩ := s.engIssued_eq e he he2 h
  rw [x]
  obtain ⟨a, b, c, d⟩ := s.taken_reqs e h
  split <;> simp [a, b, c, d]

/-- The core at hand as the body of a word sees it. -/
theorem State.engIssued_me (e : Eng) (he : e ≠ .seq) (he2 : e ≠ .cpe) (h : Hdr) : ∃ hi ag, (s.engIssued e h).me =
    { engCore s e h with axu := { (engCore s e h).axu with hist := hi, again := ag } } := by
  obtain ⟨hi, ag, x⟩ := s.engIssued_eq e he he2 h
  rw [x]
  split
  · refine ⟨hi, ag, ?_⟩
    rw [State.me_updMe, State.me_updMe, State.me_updMe, State.taken_me]; rfl
  · refine ⟨(engCore s e h).axu.hist, (engCore s e h).axu.again, ?_⟩
    rw [State.me_updMe, State.me_updMe, State.taken_me]; rfl

theorem State.engIssued_fixedLeg (e : Eng) (he : e ≠ .seq) (he2 : e ≠ .cpe) (h : Hdr) :
    (s.engIssued e h).fixedLeg s.cur = s.fixedLeg s.cur := by
  have o := s.engIssued_outside e he he2 h
  obtain ⟨hi, ag, m⟩ := s.engIssued_me e he he2 h
  have m' : ((s.engIssued e h).core s.cur).ctl = (engCore s e h).ctl := by
    have : (s.engIssued e h).me = (s.engIssued e h).core s.cur := by unfold State.me; rw [o.cur]
    rw [← this, m]
  have hl : (engCore s e h).ctl.legno = s.me.ctl.legno := by
    have a : (engCore s e h).ctl = engCtl s e h := by
      unfold engCore Core.entered Core.setQueue; cases e <;> rfl
    rw [a]; unfold engCtl; split
    · exact (s.me.ctl.take_fields _ _).2.1
    · rfl
  have hp : ∀ c, (s.engIssued e h).partOf c = s.partOf c := by
    intro c; unfold State.partOf State.partOfCluster; rw [o.hif]
  unfold State.fixedLeg
  rw [hp, m', hl]
  split
  · rfl
  · unfold Part.leg; rw [← o.parts]; rfl

end Sys2Proof.Machine
end

