-- ==== Sys2Proof/Tests/Slice0.lean ====
section
/-! SUPPORT. Tests of the model: ill-formed terms the checks refuse, words written out from the spec's encodings, one step of each
kind on small states, and for each statement states and operands that meet its hypotheses. -/

namespace Sys2Proof.Tests

set_option Elab.async false

open Sys2Proof Sys2Proof.Machine
open Host (Outcome)

/-! ## Small states -/

/-- A header without wait or tokens. -/
def h0 : Hdr := ⟨0, false, false⟩

/-- A powered module at cycle 10,000 with every cluster in partition 0 and the context of slot 0 in RUN. -/
def base : State :=
  { State.reset with
    chron := 10000
    agenda := []
    helm := { State.reset.helm with valid := true }
    hif := { State.reset.hif with partmap := Vector.replicate 48 0 }
    parts := [(0, { slots := (Vector.replicate 8 {}).set 0 { st := .run } })] }

/-- `base` with core 0 changed. -/
def baseC (f : Core → Core) : State := base.upd 0 f

/-- `base` with partition 0 changed. -/
def baseP (f : Part → Part) : State := base.updPart 0 f

/-- `base` with column 0 changed. -/
def baseL (f : Column → Column) : State := base.updCol 0 f

/-- `base` with the registers g1 and g2 of core 0. -/
def regs (x y : Word) : State := baseC fun k => { k with seq := { k.seq with g := (k.seq.g.set 1 x).set 2 y } }

/-- A leg at device scope with one course, free or fixed. -/
def leg (scope : Nat) (fixed : Bool) : LegDesc :=
  { scope := scope, fixed := fixed, ncrs := 1, bt1 := 0, bt2 := 0, bt3 := 0, sel := [0x8FFFFFFF],
    crs := [{ leglen := 1000, seqent := 64, axuent := 0, axuspan := 0, bkeent := 0, bkespan := 0, vecent := 0, vecspan := 0 }] }

/-- `base` with every core of cluster 0 in leg 1, a fixed leg. -/
def fixedBase : State :=
  (baseP fun q => { q with legs := [leg 1 true] }).upd 0 fun k => { k with ctl := { k.ctl with legno := 1, due := some 11000, tRel := 10000 } }

/-- Whether a step answers a next state of which something holds. -/
def next (o : Outcome State Fault Refusal) (f : State → Bool) : Bool :=
  match o with
  | .next t => f t
  | _ => false

/-- The code of the fault that halts partition 0, none while it does not halt. -/
def halts (t : State) : Option Nat := (t.part 0).halting.map (·.code)

/-- A range that maps every address below 2^52 to the own scratchpad of core 0, with every right. -/
def ownRange : Range := { base := 0, limit := BitVec.allOnes 36, off := 0x3000000000, v := true, r := true, w := true, a := true, u := true }

/-- A range that maps every address to itself, with every right. -/
def devRange : Range := { base := 0, limit := BitVec.allOnes 36, off := 0, v := true, r := true, w := true, a := true, u := true }

/-- A state with range 0 of core 0. -/
def ranged (r : Range) (s : State) : State := s.upd 0 fun k => { k with ctl := { k.ctl with rng := k.ctl.rng.set 0 r } }

/-- `regs` with the own scratchpad mapped. -/
def own (x y : Word) : State := ranged ownRange (regs x y)

/-- The intermediate address of the own scratchpad of core 0. -/
def spadIa : Nat := 3 * 2 ^ 52

/-- `fixedBase` with the page at 0 pinned. -/
def pinnedBase : State := { fixedBase with ms := { fixedBase.ms with pinned := [{ part := 0, base := 0, big := false, leaf := 1 }] } }

/-- What the core at hand has put in flight to memory by its last word: kind, place, size and destination. -/
def asked (t : State) : Option (AccKind × Nat × Nat × Dest) := t.reqs.getLast?.map fun r => (r.kind, r.ia, r.n, r.dest)

/-- A state with core 0 in supervisor mode. -/
def sup (s : State) : State := s.upd 0 fun k => { k with seq := { k.seq with sup := true } }

/-- `base` with the AXU's word at hand and its address registers a1 and a2. -/
def axuBase (x y : Word) : State :=
  { baseC fun k => { k with axu := { k.axu with a := (k.axu.a.set 1 x).set 2 y, n := k.axu.n.set 0 { bound := 3, s0 := 256, s1 := 8, s2 := 1 } } } with
    eng := .axu }

/-- A handle-table entry by the fields of R186: type, format, dimensions with bounds and strides, rights, block and code, base. -/
def entry (ty fmt rights blk code base : Nat) (dims : List (Nat × Nat)) : BitVec 512 :=
  BitVec.ofNat 512 (ty + 2 ^ 4 * fmt + 2 ^ 9 * dims.length + 2 ^ 12 * rights + 2 ^ 32 * blk + 2 ^ 35 * code + 2 ^ 64 * base
    + (dims.zipIdx.map fun x => 2 ^ (128 + 32 * x.2) * x.1.1 + 2 ^ (320 + 32 * x.2) * x.1.2).sum)

/-- `base` with cluster 0 alone in partition 0, and its slot 0 in a state. -/
def small (x : Slot) (f : Part → Part) : State :=
  { (baseP fun q => f { q with slots := (Vector.replicate 8 {}).set 0 x }) with
    hif := { base.hif with partmap := (Vector.replicate 48 0x3F).set 0 0 } }

/-! ## Ill-formed terms -/

/-- FENCE: kind 3, and a scope beyond .sys (R273, R276). -/
theorem test_wf_fence : (Instr.fence h0 3 0).wf = false ∧ (Instr.fence h0 0 9).wf = false ∧ (Instr.fence h0 2 8).wf = true := by decide
/-- FADDX and XRD: size code 3, a scope beyond .sys, rounding mode 5 (R276). -/
theorem test_wf_faddx_xrd : (Instr.faddx h0 1 2 3 0).wf = false ∧ (Instr.faddx h0 1 2 0 9).wf = false ∧ (Instr.xrd h0 1 2 5 0 0).wf = false
    ∧ (Instr.xrd h0 1 2 0 3 0).wf = false ∧ (Instr.xrd h0 1 2 0 0 15).wf = false ∧ (Instr.xrd h0 1 2 4 2 8).wf = true := by decide
/-- The token words: the sequencer itself, an engine beyond the CPE, a link beyond 3; TKQ's reserved selectors (R315, R316). -/
theorem test_wf_tokens : (Instr.tkg 0 0).wf = false ∧ (Instr.tkg 0 5).wf = false ∧ (Instr.tkt 0 0).wf = false ∧ (Instr.tkt 0 5).wf = false
    ∧ (Instr.tkt 0 7).wf = false ∧ (Instr.tkt 0 12).wf = false ∧ (Instr.tkq 0 1 2 8).wf = false ∧ (Instr.tkq 0 1 2 128).wf = false
    ∧ (Instr.tkq 0 1 2 1028).wf = false ∧ (Instr.tkq 0 1 2 1027).wf = true := by decide
/-- AMO: a 16-byte form of any function but CAS, size code 3, a scope beyond .sys, an odd pair of CAS (R276, R310). -/
theorem test_wf_amo : (Instr.amoAdd h0 2 4 6 2 0).wf = false ∧ (Instr.amoAnd h0 2 4 6 3 0).wf = false ∧ (Instr.amoOr h0 2 4 6 0 9).wf = false
    ∧ (Instr.amoXor h0 2 4 6 2 0).wf = false ∧ (Instr.amoMin h0 2 4 6 2 0).wf = false ∧ (Instr.amoMax h0 2 4 6 2 0).wf = false
    ∧ (Instr.amoMinu h0 2 4 6 2 0).wf = false ∧ (Instr.amoMaxu h0 2 4 6 2 0).wf = false ∧ (Instr.amoSwap h0 2 4 6 2 0).wf = false
    ∧ (Instr.amoCas h0 3 4 6 2 0).wf = false ∧ (Instr.amoCas h0 2 4 7 2 0).wf = false ∧ (Instr.amoCas h0 2 4 6 3 0).wf = false
    ∧ (Instr.amoCas h0 2 4 6 2 9).wf = false ∧ (Instr.amoCas h0 2 4 6 2 8).wf = true := by decide
/-- HQRY: field 14 (R323); the command words: a scope beyond .sys, and one with neither flag (R406). -/
theorem test_wf_hqry_cpe : (Instr.hqry h0 1 2 14).wf = false ∧ (Instr.cpy h0 1 2 3 9 true false).wf = false ∧ (Instr.cpyf h0 1 2 3 1 false false).wf = false
    ∧ (Instr.cpyw h0 1 2 3 9 true true).wf = false ∧ (Instr.cpyr h0 1 2 3 2 false false).wf = false ∧ (Instr.sort h0 1 2 3 9 false true).wf = false
    ∧ (Instr.pack h0 1 2 3 1 false false).wf = false ∧ (Instr.pack h0 1 2 3 0 false false).wf = true := by decide
/-- The streams of the AXU: nest 6, stride 3; through a handle: nest 6, mode 2 (R275, R280, R336). -/
theorem test_wf_axu_streams : (Instr.lds h0 1 6 0 0).wf = false ∧ (Instr.lds h0 1 7 3 0).wf = false ∧ (Instr.sts h0 1 6 0 0).wf = false
    ∧ (Instr.ldg h0 1 2 0 3 0).wf = false ∧ (Instr.stg h0 1 2 6 0 0).wf = false ∧ (Instr.ldh h0 0 6 0).wf = false
    ∧ (Instr.ldh h0 0 7 2).wf = false ∧ (Instr.sth h0 0 0 3).wf = false ∧ (Instr.sth h0 0 7 1).wf = true := by decide
/-- Nest registers beyond n5, and nest fields beyond S2 (R275, R330, R332); odd pairs of sorted lists (R340). -/
theorem test_wf_axu_nests : (Instr.aaddNw h0 6 1 2 0).wf = false ∧ (Instr.aaddNw h0 5 1 2 5).wf = false ∧ (Instr.loop h0 6 0).wf = false
    ∧ (Instr.loop h0 7 0).wf = false ∧ (Instr.lend h0 7).wf = false ∧ (Instr.isect h0 1 2 0).wf = false ∧ (Instr.imerge h0 2 3 0).wf = false
    ∧ (Instr.icnt h0 3 2 false 0).wf = false ∧ (Instr.icnt h0 14 2 false 0).wf = true := by decide
/-- RCON: ord 3, a destination that is no lane group or the steer input, an odd register of a scratchpad destination; RING: a lane
beyond 15 (R274, R346). -/
theorem test_wf_rows : (Instr.rcon h0 0 0 2 3 16).wf = false ∧ (Instr.rcon h0 0 0 2 0 1).wf = false ∧ (Instr.rcon h0 0 0 2 0 17).wf = false
    ∧ (Instr.rcon h0 0 0 3 0 4).wf = false ∧ (Instr.rcon h0 0 0 3 0 16).wf = true ∧ (Instr.ring h0 1 2 16 0).wf = false := by decide
/-- The BKE: nests and sources (R275, R350, R356), lanes and formats of MACD (R362). -/
theorem test_wf_bke : (Instr.bwin h0 0 6 0).wf = false ∧ (Instr.bwin h0 0 0 2).wf = false ∧ (Instr.bsteer h0 0 0 3).wf = false
    ∧ (Instr.bplane h0 0 6 0).wf = false ∧ (Instr.macd h0 16 0 0 0).wf = false ∧ (Instr.macd h0 0 3 0 0).wf = false ∧ (Instr.macd h0 0 0 6 0).wf = false
    ∧ (Instr.loopBke h0 6 0).wf = false ∧ (Instr.lendBke h0 6).wf = false := by decide
/-- The accumulator port: an empty range, formats and stride selectors, a block format on ranges that are no blocks (R284, R365). -/
theorem test_wf_zport : (Instr.zdrain h0 2 1 0 0).wf = false ∧ (Instr.zdrain h0 1 2 6 0).wf = false ∧ (Instr.zdrain h0 1 2 0 3).wf = false
    ∧ (Instr.zdrain h0 1 32 5 0).wf = false ∧ (Instr.zdrain h0 32 62 5 0).wf = false ∧ (Instr.zdrain h0 32 63 5 0).wf = true
    ∧ (Instr.zclr h0 2 1).wf = false ∧ (Instr.zspill h0 2 1 false 0).wf = false ∧ (Instr.zspill h0 1 2 false 3).wf = false
    ∧ (Instr.zfill h0 2 1 false 0).wf = false ∧ (Instr.zfill h0 1 2 false 3).wf = false ∧ (Instr.zaddv h0 2 1 false 0 0).wf = false
    ∧ (Instr.zaddv h0 1 2 false 3 0).wf = false ∧ (Instr.zaddv h0 1 2 false 0 3).wf = false ∧ (Instr.zstat h0 16 false 0).wf = false
    ∧ (Instr.zstat h0 0 false 3).wf = false := by decide
/-- The VEC: width code 3 where x names XI or XF (R383), the selector of VBCST, formats of VCVT, modes of VRND, VSUMZ, VSHAPE and
VSTAT (R393, R394, R397, R400, R401, R405). -/
theorem test_wf_vec : (Instr.vadd h0 0 false 1 2 3 3).wf = false ∧ (Instr.vsqrt h0 0 false 1 2 3).wf = false ∧ (Instr.viadd h0 0 false 1 2 3 3).wf = false
    ∧ (Instr.vfma h0 0 false 1 2 3 3).wf = true ∧ (Instr.vcmp h0 0 false 0 0 1 2 3).wf = false ∧ (Instr.vbcst h0 0 false 1 2 3 0).wf = false
    ∧ (Instr.vbcst h0 0 false 1 2 0 3).wf = false ∧ (Instr.vcvt h0 0 false 1 2 0 0).wf = false ∧ (Instr.vcvt h0 0 false 1 2 5 0).wf = false
    ∧ (Instr.vcvt h0 0 false 1 2 6 0).wf = false ∧ (Instr.vcvt h0 0 false 1 2 14 0).wf = false ∧ (Instr.vrnd h0 0 false 1 2 6 0).wf = false
    ∧ (Instr.vrnd h0 0 false 1 2 0 3).wf = false ∧ (Instr.vsumz h0 0 false 0 1 false 3 0).wf = false ∧ (Instr.vsumz h0 0 false 0 1 false 0 3).wf = false
    ∧ (Instr.vshape h0 1 2).wf = false ∧ (Instr.vstat h0 1 2).wf = false := by decide
/-- Requests of the host and of peers of no byte or of more than 4,096, and register accesses of 3 bytes. -/
theorem test_wf_events : (Instr.hostMemoryRequest .pf 0 0 .read 0).wf = false ∧ (Instr.hostMemoryRequest .pf 0 4097 .read 0).wf = false
    ∧ (Instr.hostAtomicop .pf .bar2 0 2 .add 0 0 0).wf = false ∧ (Instr.registerWrite .pf .bar0 0 3 0).wf = false := by decide

/-! ## Words of chapter 11 -/


/-- Words of chapter 11 written out field by field: ADDI, ADD, SUB, MULHU, MAXU, CTZ. -/
theorem test_decode_seq_0 :
    decode .seq 0b010_1_0_000010_00101_00011_11111110100 = .ok (.addi ⟨2, true, false⟩ 5 3 (-12))
    ∧ decode .seq 0b111_1_1_000001_11111_00001_00010_000000 = .ok (.add ⟨7, true, true⟩ 31 1 2)
    ∧ decode .seq 0b000_0_0_000001_00011_00001_00010_000001 = .ok (.sub ⟨0, false, false⟩ 3 1 2)
    ∧ decode .seq 0b000_0_0_000001_00011_00001_00010_001010 = .ok (.mulhu ⟨0, false, false⟩ 3 1 2)
    ∧ decode .seq 0b000_0_0_000001_00011_00001_00010_010010 = .ok (.maxu ⟨0, false, false⟩ 3 1 2)
    ∧ decode .seq 0b000_0_0_000001_00011_00001_00000_010110 = .ok (.ctz ⟨0, false, false⟩ 3 1) := by decide +kernel

/-- Words of chapter 11 written out field by field: SRAI, JAL, JALR, LIS3, BGEU, LD. -/
theorem test_decode_seq_1 :
    decode .seq 0b000_0_0_001001_00011_00001_00000111111 = .ok (.srai ⟨0, false, false⟩ 3 1 63)
    ∧ decode .seq 0b000_0_0_001010_111111111111111111011 = .ok (.jal ⟨0, false, false⟩ (-5))
    ∧ decode .seq 0b000_0_0_001011_00001_00010_11111111111 = .ok (.jalr ⟨0, false, false⟩ 1 2 (-1))
    ∧ decode .seq 0b000_0_0_001111_00110_1010101111001101 = .ok (.lis ⟨0, false, false⟩ 3 6 0xABCD)
    ∧ decode .seq 0b000_0_0_010101_00100_00101_10000000000 = .ok (.bgeu ⟨0, false, false⟩ 4 5 (-1024))
    ∧ decode .seq 0b000_0_0_010110_01000_01001_10_100000000 = .ok (.ld ⟨0, false, false⟩ 8 9 2 (-256)) := by decide +kernel

/-- Words of chapter 11 written out field by field: ST, LDC, FENCE, FADDX, XRD, TKG. -/
theorem test_decode_seq_2 :
    decode .seq 0b000_0_0_010111_01000_01001_00_011111111 = .ok (.st ⟨0, false, false⟩ 8 9 0 255)
    ∧ decode .seq 0b000_0_0_011000_01000_01001_11_000000001 = .ok (.ldc ⟨0, false, false⟩ 8 9 3 1)
    ∧ decode .seq 0b000_0_1_011001_00000_00000_00000_01_1000 = .ok (.fence ⟨0, false, true⟩ 1 8)
    ∧ decode .seq 0b000_0_0_011010_00000_01001_01010_10_0101 = .ok (.faddx ⟨0, false, false⟩ 9 10 2 5)
    ∧ decode .seq 0b000_0_0_011011_01011_01001_00100_01_0100 = .ok (.xrd ⟨0, false, false⟩ 11 9 4 1 4)
    ∧ decode .seq 0b011_0_0_011100_00000_00000_00000000100 = .ok (.tkg 3 4) := by decide +kernel

/-- Words of chapter 11 written out field by field: TKT, TKQ, AMOADD, AMOCAS, QSTART, QSTAT. -/
theorem test_decode_seq_3 :
    decode .seq 0b000_0_0_011101_00000_00000_00000001011 = .ok (.tkt 0 11)
    ∧ decode .seq 0b000_0_0_011110_00111_01000_00001000010 = .ok (.tkq 0 7 8 0x42)
    ∧ decode .seq 0b000_0_0_100000_00111_00100_00110_01_1000 = .ok (.amoAdd ⟨0, false, false⟩ 7 4 6 1 8)
    ∧ decode .seq 0b000_0_0_101001_01000_00100_00110_10_0011 = .ok (.amoCas ⟨0, false, false⟩ 8 4 6 2 3)
    ∧ decode .seq 0b000_0_0_101010_00000_00001_00000000111 = .ok (.qstart ⟨0, false, false⟩ 1 7)
    ∧ decode .seq 0b000_0_0_101100_00010_00001_00000000100 = .ok (.qstat ⟨0, false, false⟩ 2 1 4) := by decide +kernel

/-- Words of chapter 11 written out field by field: FIX, SIZE, CHRON, LEGQ, HQRY, CRR. -/
theorem test_decode_seq_4 :
    decode .seq 0b001_0_0_101101_00000_00001_11111111111 = .ok (.fix 1 1 2047)
    ∧ decode .seq 0b000_0_0_101110_00000_00001_00000001001 = .ok (.size ⟨0, false, false⟩ 1 9)
    ∧ decode .seq 0b000_0_0_101111_01100_00000_00000_000000 = .ok (.chron ⟨0, false, false⟩ 12)
    ∧ decode .seq 0b000_0_0_110000_01101_00000_00000_000000 = .ok (.legq ⟨0, false, false⟩ 13)
    ∧ decode .seq 0b000_0_0_110001_01101_01110_00000001101 = .ok (.hqry ⟨0, false, false⟩ 13 14 13)
    ∧ decode .seq 0b000_0_0_111000_01111_00000_10100000000 = .ok (.crr ⟨0, false, false⟩ 15 0xA0) := by decide +kernel

/-- Words of chapter 11 written out field by field: HALT. -/
theorem test_decode_seq_5 :
    decode .seq 0b000_0_0_111100_00000_10000_00000000000 = .ok (.halt ⟨0, false, false⟩ 16) := by decide +kernel

/-- Words of chapter 11 written out field by field: LDS, STS, LDG, LDH, STH, MARK. -/
theorem test_decode_axu_0 :
    decode .axu 0b000_0_0_000010_1111_0000_101_10_11111111 = .ok (.lds ⟨0, false, false⟩ 15 5 2 255)
    ∧ decode .axu 0b000_0_0_000011_0001_0000_111_00_00000000 = .ok (.sts ⟨0, false, false⟩ 1 7 0 0)
    ∧ decode .axu 0b000_0_0_000100_0001_0010_011_01_00001001 = .ok (.ldg ⟨0, false, false⟩ 1 2 3 1 9)
    ∧ decode .axu 0b000_0_0_000110_0001001000110100_010_01 = .ok (.ldh ⟨0, false, false⟩ 0x1234 2 1)
    ∧ decode .axu 0b000_0_0_000111_1111111111111110_111_00 = .ok (.sth ⟨0, false, false⟩ 0xFFFE 7 0)
    ∧ decode .axu 0b000_1_0_001000_000000000000000000000 = .ok (.mark ⟨0, true, false⟩) := by decide +kernel

/-- Words of chapter 11 written out field by field: ALI, LOOP, LEND, ISECT, RACT, RCON. -/
theorem test_decode_axu_1 :
    decode .axu 0b000_0_0_001010_0011_11111111111111111 = .ok (.aliSh ⟨0, false, false⟩ 3 0xFFFF)
    ∧ decode .axu 0b000_0_0_001100_101_1111_00000000000000 = .ok (.loop ⟨0, false, false⟩ 5 15)
    ∧ decode .axu 0b000_0_0_001101_010_0000_00000000000000 = .ok (.lend ⟨0, false, false⟩ 2)
    ∧ decode .axu 0b000_0_0_001110_0010_0100_000_00_00111111 = .ok (.isect ⟨0, false, false⟩ 2 4 63)
    ∧ decode .axu 0b000_0_0_010001_11_11111_0010_00_00000_000 = .ok (.ract ⟨0, false, false⟩ 3 31 2)
    ∧ decode .axu 0b000_0_1_010010_00_00011_0010_01_10000_000 = .ok (.rcon ⟨0, false, true⟩ 0 3 2 1 16) := by decide +kernel

/-- Words of chapter 11 written out field by field: RING. -/
theorem test_decode_axu_2 :
    decode .axu 0b000_0_0_010101_0001_0010_01111_00000111 = .ok (.ring ⟨0, false, false⟩ 1 2 15 7) := by decide +kernel

/-- Words of chapter 11 written out field by field: BWIN, BSTEER, CBLD, MULB, MACD, ZCLR. -/
theorem test_decode_bke_0 :
    decode .bke 0b000_0_0_000010_0000000000010000_101_01 = .ok (.bwin ⟨0, false, false⟩ 0x10 5 1)
    ∧ decode .bke 0b000_0_0_000011_0000000000010001_111_10 = .ok (.bsteer ⟨0, false, false⟩ 0x11 7 2)
    ∧ decode .bke 0b000_0_0_000110_0000000000010010_111_00 = .ok (.cbld ⟨0, false, false⟩ 0x12 7)
    ∧ decode .bke 0b000_0_0_000111_110_000000000000000000 = .ok (.mulb ⟨0, false, false⟩ 6)
    ∧ decode .bke 0b000_0_0_001000_01111_10_000000000_100_11 = .ok (.macd ⟨0, false, false⟩ 15 2 4 3)
    ∧ decode .bke 0b000_0_0_001011_00000001_11111111_00000 = .ok (.zclr ⟨0, false, false⟩ 1 255) := by decide +kernel

/-- Words of chapter 11 written out field by field: LOOPBKE. -/
theorem test_decode_bke_1 :
    decode .bke 0b000_0_0_010000_000_0011_00000000000000 = .ok (.loopBke ⟨0, false, false⟩ 0 3) := by decide +kernel

/-- Words of chapter 11 written out field by field: VADD, VFMA, VABS, VIADD, VXOR, VRCP. -/
theorem test_decode_vec_0 :
    decode .vec 0b000_1_0_000010_011_1_00100_00001_00010_00 = .ok (.vadd ⟨0, true, false⟩ 3 true 4 1 2 0)
    ∧ decode .vec 0b000_0_0_000101_000_0_11111_11110_11101_11 = .ok (.vfma ⟨0, false, false⟩ 0 false 31 30 29 3)
    ∧ decode .vec 0b000_0_0_001100_001_0_00011_00100_00000_10 = .ok (.vabs ⟨0, false, false⟩ 1 false 3 4 2)
    ∧ decode .vec 0b000_0_0_001111_111_1_00011_00100_00101_01 = .ok (.viadd ⟨0, false, false⟩ 7 true 3 4 5 1)
    ∧ decode .vec 0b000_0_0_010110_000000000000000000000 = .ok (.vxor ⟨0, false, false⟩ 0 false 0 0 0 0)
    ∧ decode .vec 0b000_0_0_101101_000_0_01001_01000_00000_01 = .ok (.vrcp ⟨0, false, false⟩ 0 false 9 8 1) := by decide +kernel

/-- Words of chapter 11 written out field by field: VSEL, VLD. -/
theorem test_decode_vec_1 :
    decode .vec 0b000_0_0_100011_010_0_01001_01000_00111_00 = .ok (.vsel ⟨0, false, false⟩ 2 false 9 8 7 0)
    ∧ decode .vec 0b000_0_1_111010_001_1_00110_00000_00000_10 = .ok (.vld ⟨0, false, true⟩ 1 true 6 2) := by decide +kernel

/-- Words the spec works out: LIS 0, LIS 3, MULHU, SLLI, JALR, LD.w, ST.d, AMO.cas.q. -/
theorem test_worked_seq_0 :
    decode .seq 0x01852345 = .ok (.lis ⟨0, false, false⟩ 0 5 0x2345)
    ∧ decode .seq 0x01E5FFFF = .ok (.lis ⟨0, false, false⟩ 3 5 0xFFFF)
    ∧ decode .seq 0x0024298A = .ok (.mulhu ⟨0, false, false⟩ 4 5 6)
    ∧ decode .seq 0x00E9480C = .ok (.slli ⟨0, false, false⟩ 9 9 12)
    ∧ decode .seq 0x0160F800 = .ok (.jalr ⟨0, false, false⟩ 0 31 0)
    ∧ decode .seq 0x02C72403 = .ok (.ld ⟨0, false, false⟩ 7 4 2 3)
    ∧ decode .seq 0x02E627FF = .ok (.st ⟨0, false, false⟩ 6 4 3 (-1))
    ∧ decode .seq 0x052822A4 = .ok (.amoCas ⟨0, false, false⟩ 8 4 10 2 4) := by decide +kernel

/-- Words the spec works out: FADDX.bf16, XRD.f32, FENCE.rel, TKT, FIX, CHRON, HQRY, CPY.rel. -/
theorem test_worked_seq_1 :
    decode .seq 0x03402194 = .ok (.faddx ⟨0, false, false⟩ 4 6 1 4)
    ∧ decode .seq 0x03692004 = .ok (.xrd ⟨0, false, false⟩ 9 4 0 0 4)
    ∧ decode .seq 0x03200014 = .ok (.fence ⟨0, false, false⟩ 1 4)
    ∧ decode .seq 0x03A00001 = .ok (.tkt 0 1)
    ∧ decode .seq 0x05A0000C = .ok (.fix 0 0 12)
    ∧ decode .seq 0x05E30000 = .ok (.chron ⟨0, false, false⟩ 3)
    ∧ decode .seq 0x06253002 = .ok (.hqry ⟨0, false, false⟩ 5 6 2)
    ∧ decode .seq 0x064531D2 = .ok (.cpy ⟨0, false, false⟩ 5 6 7 4 true false) := by decide +kernel

/-- Words the spec works out: CPYR, CRR, CRW, TRAP, SRET, HALT, HSET, SCANR. -/
theorem test_worked_seq_2 :
    decode .seq 0x06A031C0 = .ok (.cpyr ⟨0, false, false⟩ 0 6 7 0 false false)
    ∧ decode .seq 0x07050050 = .ok (.crr ⟨0, false, false⟩ 5 0x0A)
    ∧ decode .seq 0x07203680 = .ok (.crw ⟨0, false, false⟩ 6 0xD0)
    ∧ decode .seq 0x07400005 = .ok (.trap ⟨0, false, false⟩ 5)
    ∧ decode .seq 0x07600000 = .ok (.sret ⟨0, false, false⟩)
    ∧ decode .seq 0x07802000 = .ok (.halt ⟨0, false, false⟩ 4)
    ∧ decode .seq 0x07A02140 = .ok (.hset ⟨0, false, false⟩ 4 5)
    ∧ decode .seq 0x07C32000 = .ok (.scanr ⟨0, false, false⟩ 3 4) := by decide +kernel

/-- Words the spec works out: WREP. -/
theorem test_worked_seq_3 :
    decode .seq 0x07E02140 = .ok (.wrep ⟨0, false, false⟩ 4 5) := by decide +kernel

/-- Words the spec works out: LDS, STS, LDG, LDH, MARK, AADD, AADD.nw, ALI.sh. -/
theorem test_worked_axu_0 :
    decode .axu 0x0046040F = .ok (.lds ⟨0, false, false⟩ 3 1 0 15)
    ∧ decode .axu 0x00681D00 = .ok (.sts ⟨0, false, false⟩ 4 7 1 0)
    ∧ decode .axu 0x0084C23F = .ok (.ldg ⟨0, false, false⟩ 2 6 0 2 63)
    ∧ decode .axu 0x00C02469 = .ok (.ldh ⟨0, false, false⟩ 0x123 2 1)
    ∧ decode .axu 0x01000000 = .ok (.mark ⟨0, false, false⟩)
    ∧ decode .axu 0x012AAE43 = .ok (.aadd ⟨0, false, false⟩ 5 5 7 true 3)
    ∧ decode .axu 0x01224082 = .ok (.aaddNw ⟨0, false, false⟩ 1 2 0 2)
    ∧ decode .axu 0x01438000 = .ok (.aliSh ⟨0, false, false⟩ 1 0x8000) := by decide +kernel

/-- Words the spec works out: LOOP, LEND, ISECT, ICNT.push, RCON, RSTAT, RING. -/
theorem test_worked_axu_1 :
    decode .axu 0x0180C000 = .ok (.loop ⟨0, false, false⟩ 0 3)
    ∧ decode .axu 0x01A80000 = .ok (.lend ⟨0, false, false⟩ 2)
    ∧ decode .axu 0x01C48003 = .ok (.isect ⟨0, false, false⟩ 2 4 3)
    ∧ decode .axu 0x02048085 = .ok (.icnt ⟨0, false, false⟩ 2 4 true 5)
    ∧ decode .axu 0x02405020 = .ok (.rcon ⟨0, false, false⟩ 0 1 4 0 4)
    ∧ decode .axu 0x0288A400 = .ok (.rstat ⟨0, false, false⟩ 1 2 9)
    ∧ decode .axu 0x02A24301 = .ok (.ring ⟨0, false, false⟩ 1 2 3 1) := by decide +kernel

/-- Words the spec works out: BWIN, BWIN.cfg, BSTEER.gv, BPLANE, CBLD, MULB.tk, MACD.bf16, MACD.e4m3. -/
theorem test_worked_bke_0 :
    decode .bke 0x00400801 = .ok (.bwin ⟨0, false, false⟩ 0x40 0 1)
    ∧ decode .bke 0x0040021F = .ok (.bwinCfg ⟨0, false, false⟩ 0x10)
    ∧ decode .bke 0x08600826 = .ok (.bsteer ⟨0, false, true⟩ 0x41 1 2)
    ∧ decode .bke 0x0080085D = .ok (.bplane ⟨0, false, false⟩ 0x42 7 1)
    ∧ decode .bke 0x00C00A08 = .ok (.cbld ⟨0, false, false⟩ 0x50 2)
    ∧ decode .bke 0x70F00000 = .ok (.mulb ⟨3, true, false⟩ 4)
    ∧ decode .bke 0x0105000B = .ok (.macd ⟨0, false, false⟩ 5 0 2 3)
    ∧ decode .bke 0x0109401D = .ok (.macd ⟨0, false, false⟩ 9 1 7 1) := by decide +kernel

/-- Words the spec works out: ZDRAIN.bf16, ZDRAIN.i8s, ZSPILL.wk, ZADDV.bf16, ZSTAT, LOOP. -/
theorem test_worked_bke_1 :
    decode .bke 0x01401FE6 = .ok (.zdrain ⟨0, false, false⟩ 0 255 1 2)
    ∧ decode .bke 0x014407F4 = .ok (.zdrain ⟨0, false, false⟩ 32 63 5 0)
    ∧ decode .bke 0x018203E5 = .ok (.zspill ⟨0, false, false⟩ 16 31 true 1)
    ∧ decode .bke 0x01C007E5 = .ok (.zaddv ⟨0, false, false⟩ 0 63 false 1 1)
    ∧ decode .bke 0x01E20000 = .ok (.zstat ⟨0, false, false⟩ 2 false 0)
    ∧ decode .bke 0x020D4000 = .ok (.loopBke ⟨0, false, false⟩ 3 5) := by decide +kernel

/-- Words the spec works out: VFMA, VFMA.mix, VCMP.lt, KAND, VMOVI, VCVT, VSUMZ, VLD. -/
theorem test_worked_vec_0 :
    decode .vec 0x00A06088 = .ok (.vfma ⟨0, false, false⟩ 0 false 6 1 2 0)
    ∧ decode .vec 0x00A0808B = .ok (.vfma ⟨0, false, false⟩ 0 false 8 1 2 3)
    ∧ decode .vec 0x0348A08A = .ok (.vcmp ⟨0, false, false⟩ 2 false 2 2 1 2 2)
    ∧ decode .vec 0x03A03088 = .ok (.kand ⟨0, false, false⟩ 0 false 3 1 2)
    ∧ decode .vec 0x04A053C2 = .ok (.vmovi ⟨0, false, false⟩ 0 false 5 0xF0 2)
    ∧ decode .vec 0x04E03221 = .ok (.vcvt ⟨0, false, false⟩ 0 false 3 4 8 1)
    ∧ decode .vec 0x06A02114 = .ok (.vsumz ⟨0, false, false⟩ 0 false 2 2 true 1 0)
    ∧ decode .vec 0x174E7001 = .ok (.vld ⟨0, true, false⟩ 3 true 7 1) := by decide +kernel

/-- Words the spec works out: VST, VSHAPE. -/
theorem test_worked_vec_1 :
    decode .vec 0x0F600381 = .ok (.vst ⟨0, false, true⟩ 0 false 7 1)
    ∧ decode .vec 0x06C00480 = .ok (.vshape ⟨0, false, false⟩ 9 0) := by decide +kernel

/-- Results by the table of R301: ADD, SUB, AND, OR, XOR, SLL. -/
theorem test_alu_add_sub_and_or_xor_sll :
    next (exec (.add h0 3 1 2) (regs 0xffffffffffffffff 0x2)) (fun t => t.me.seq.gpr 3 == 0x1)
    ∧ next (exec (.sub h0 3 1 2) (regs 0x1 0x3)) (fun t => t.me.seq.gpr 3 == 0xfffffffffffffffe)
    ∧ next (exec (.and h0 3 1 2) (regs 0xf0f0 0xff00)) (fun t => t.me.seq.gpr 3 == 0xf000)
    ∧ next (exec (.or h0 3 1 2) (regs 0xf0f0 0xff00)) (fun t => t.me.seq.gpr 3 == 0xfff0)
    ∧ next (exec (.xor h0 3 1 2) (regs 0xf0f0 0xff00)) (fun t => t.me.seq.gpr 3 == 0xff0)
    ∧ next (exec (.sll h0 3 1 2) (regs 0x1 0x41)) (fun t => t.me.seq.gpr 3 == 0x2) := by decide +kernel

/-- Results by the table of R301: SRL, SRA, MUL, MULH, MULHU, MIN. -/
theorem test_alu_srl_sra_mul_mulh_mulhu_min :
    next (exec (.srl h0 3 1 2) (regs 0xffffffffffffffff 0x3f)) (fun t => t.me.seq.gpr 3 == 0x1)
    ∧ next (exec (.sra h0 3 1 2) (regs 0xfffffffffffffff0 0x42)) (fun t => t.me.seq.gpr 3 == 0xfffffffffffffffc)
    ∧ next (exec (.mul h0 3 1 2) (regs 0xfffffffffffffffd 0x5)) (fun t => t.me.seq.gpr 3 == 0xfffffffffffffff1)
    ∧ next (exec (.mulh h0 3 1 2) (regs 0xffffffffffffffff 0x2)) (fun t => t.me.seq.gpr 3 == 0xffffffffffffffff)
    ∧ next (exec (.mulhu h0 3 1 2) (regs 0xffffffffffffffff 0x2)) (fun t => t.me.seq.gpr 3 == 0x1)
    ∧ next (exec (.min h0 3 1 2) (regs 0xffffffffffffffff 0x1)) (fun t => t.me.seq.gpr 3 == 0xffffffffffffffff) := by decide +kernel

/-- Results by the table of R301: MAX, MINU, MAXU, SLT, SLTU. -/
theorem test_alu_max_minu_maxu_slt_sltu :
    next (exec (.max h0 3 1 2) (regs 0xffffffffffffffff 0x1)) (fun t => t.me.seq.gpr 3 == 0x1)
    ∧ next (exec (.minu h0 3 1 2) (regs 0xffffffffffffffff 0x1)) (fun t => t.me.seq.gpr 3 == 0x1)
    ∧ next (exec (.maxu h0 3 1 2) (regs 0xffffffffffffffff 0x1)) (fun t => t.me.seq.gpr 3 == 0xffffffffffffffff)
    ∧ next (exec (.slt h0 3 1 2) (regs 0xffffffffffffffff 0x0)) (fun t => t.me.seq.gpr 3 == 0x1)
    ∧ next (exec (.sltu h0 3 1 2) (regs 0xffffffffffffffff 0x0)) (fun t => t.me.seq.gpr 3 == 0x0) := by decide +kernel

/-- The corners of R302: a zero divisor, the quotient that does not fit, and the signs of quotient and remainder. -/
theorem test_div_corners :
    next (exec (.div h0 3 1 2) (regs 0x7 0x0)) (fun t => t.me.seq.gpr 3 == 0xffffffffffffffff)
    ∧ next (exec (.div h0 3 1 2) (regs 0x8000000000000000 0xffffffffffffffff)) (fun t => t.me.seq.gpr 3 == 0x8000000000000000)
    ∧ next (exec (.div h0 3 1 2) (regs 0xfffffffffffffff9 0x2)) (fun t => t.me.seq.gpr 3 == 0xfffffffffffffffd)
    ∧ next (exec (.divu h0 3 1 2) (regs 0xfffffffffffffff9 0x0)) (fun t => t.me.seq.gpr 3 == 0xffffffffffffffff)
    ∧ next (exec (.divu h0 3 1 2) (regs 0xffffffffffffffff 0x10)) (fun t => t.me.seq.gpr 3 == 0xfffffffffffffff)
    ∧ next (exec (.rem h0 3 1 2) (regs 0xfffffffffffffff9 0x2)) (fun t => t.me.seq.gpr 3 == 0xffffffffffffffff)
    ∧ next (exec (.rem h0 3 1 2) (regs 0x7 0x0)) (fun t => t.me.seq.gpr 3 == 0x7)
    ∧ next (exec (.remu h0 3 1 2) (regs 0x7 0x0)) (fun t => t.me.seq.gpr 3 == 0x7)
    ∧ next (exec (.remu h0 3 1 2) (regs 0xffffffffffffffff 0x10)) (fun t => t.me.seq.gpr 3 == 0xf) := by decide +kernel

/-- CLZ, CTZ and POPC of 0 and of one bit (R301). -/
theorem test_counts :
    next (exec (.clz h0 3 1) (regs 0x0 0)) (fun t => t.me.seq.gpr 3 == 0x40)
    ∧ next (exec (.ctz h0 3 1) (regs 0x0 0)) (fun t => t.me.seq.gpr 3 == 0x40)
    ∧ next (exec (.popc h0 3 1) (regs 0x0 0)) (fun t => t.me.seq.gpr 3 == 0x0)
    ∧ next (exec (.clz h0 3 1) (regs 0x1 0)) (fun t => t.me.seq.gpr 3 == 0x3f)
    ∧ next (exec (.ctz h0 3 1) (regs 0x8000000000000000 0)) (fun t => t.me.seq.gpr 3 == 0x3f)
    ∧ next (exec (.popc h0 3 1) (regs 0xffffffffffffffff 0)) (fun t => t.me.seq.gpr 3 == 0x40) := by decide +kernel

/-- Immediates: sint(imm11) for ADDI and SLTI, zero-extended for ANDI, ORI, XORI (R303). -/
theorem test_immediates :
    next (exec (.addi h0 3 1 0x7FE) (regs 0x5 0)) (fun t => t.me.seq.gpr 3 == 0x3)
    ∧ next (exec (.slti h0 3 1 0x7FF) (regs 0xfffffffffffffffe 0)) (fun t => t.me.seq.gpr 3 == 0x1)
    ∧ next (exec (.andi h0 3 1 0x7FF) (regs 0xffffffffffffffff 0)) (fun t => t.me.seq.gpr 3 == 0x7ff)
    ∧ next (exec (.ori h0 3 1 0x400) (regs 0x0 0)) (fun t => t.me.seq.gpr 3 == 0x400)
    ∧ next (exec (.xori h0 3 1 0x7FF) (regs 0xffffffffffffffff 0)) (fun t => t.me.seq.gpr 3 == 0xfffffffffffff800)
    ∧ next (exec (.slli h0 3 1 63) (regs 0x1 0)) (fun t => t.me.seq.gpr 3 == 0x8000000000000000)
    ∧ next (exec (.srli h0 3 1 63) (regs 0xffffffffffffffff 0)) (fun t => t.me.seq.gpr 3 == 0x1)
    ∧ next (exec (.srai h0 3 1 2) (regs 0xfffffffffffffff8 0)) (fun t => t.me.seq.gpr 3 == 0xfffffffffffffffe) := by decide +kernel

/-- The example of LIS: four words build 0xFFFF_8000_0001_2345; quarter 0 sign-extends (R304). -/
theorem test_lis :
    next (exec (.lis h0 0 1 0x2345) (regs 0xffffffffffffffff 0)) (fun t => t.me.seq.gpr 1 == 0x2345)
    ∧ next (exec (.lis h0 1 1 0x1) (regs 0x2345 0)) (fun t => t.me.seq.gpr 1 == 0x12345)
    ∧ next (exec (.lis h0 2 1 0x8000) (regs 0x12345 0)) (fun t => t.me.seq.gpr 1 == 0x800000012345)
    ∧ next (exec (.lis h0 3 1 0xffff) (regs 0x800000012345 0)) (fun t => t.me.seq.gpr 1 == 0xffff800000012345)
    ∧ next (exec (.lis h0 0 1 0x8000) (regs 0x0 0)) (fun t => t.me.seq.gpr 1 == 0xffffffffffff8000) := by decide +kernel

/-- Operands that meet the hypotheses of the results of R301 to R304, g0 and a source that is the destination among them; a write to g0 is discarded (R254). -/
theorem test_witness_SequencerResults :
    SeqReady (regs 7 9) h0 [3, 1, 2]
    ∧ SeqReady (regs 7 9) h0 [0, 1, 2]
    ∧ SeqReady (regs 7 9) h0 [1, 1, 1]
    ∧ SeqReady (regs 7 9) h0 [3, 1]
    ∧ SeqReady (regs 7 9) h0 [31]
    ∧ ¬ SeqReady (baseC fun k => { k with seq := { k.seq with gReady := k.seq.gReady.set 1 10001 } }) h0 [3, 1, 2]
    ∧ next (exec (.add h0 0 1 2) (regs 7 9)) (fun t => t.me.seq.gpr 0 == 0) := by unfold SeqReady; decide +kernel

/-- Each branch taken and not (R305). -/
theorem test_branches :
    next (exec (.beq h0 1 2 0x7FF) (regs 0x5 0x5)) (fun t => t.me.seq.q.pc == -4)
    ∧ next (exec (.beq h0 1 2 0x7FF) (regs 0x5 0x6)) (fun t => t.me.seq.q.pc == 4)
    ∧ next (exec (.bne h0 1 2 0x7FF) (regs 0x5 0x6)) (fun t => t.me.seq.q.pc == -4)
    ∧ next (exec (.blt h0 1 2 0x7FF) (regs 0xffffffffffffffff 0x0)) (fun t => t.me.seq.q.pc == -4)
    ∧ next (exec (.blt h0 1 2 0x7FF) (regs 0x0 0x0)) (fun t => t.me.seq.q.pc == 4)
    ∧ next (exec (.bge h0 1 2 0x7FF) (regs 0x0 0x0)) (fun t => t.me.seq.q.pc == -4)
    ∧ next (exec (.bge h0 1 2 0x7FF) (regs 0xffffffffffffffff 0x0)) (fun t => t.me.seq.q.pc == 4)
    ∧ next (exec (.bltu h0 1 2 0x7FF) (regs 0xffffffffffffffff 0x0)) (fun t => t.me.seq.q.pc == 4)
    ∧ next (exec (.bltu h0 1 2 0x7FF) (regs 0x0 0xffffffffffffffff)) (fun t => t.me.seq.q.pc == -4)
    ∧ next (exec (.bgeu h0 1 2 0x7FF) (regs 0xffffffffffffffff 0x0)) (fun t => t.me.seq.q.pc == -4) := by decide +kernel

/-- JAL and JALR link to the word after and go to pc + 4 × sint(off), ga + 4 × sint(imm) (R306). -/
theorem test_jumps :
    next (exec (.jal h0 (-3)) base) (fun t => t.me.seq.q.pc == -12 && t.me.seq.gpr 31 == 4)
    ∧ next (exec (.jalr h0 1 1 (-1)) (regs 0x100 0)) (fun t => t.me.seq.q.pc == 0xFC && t.me.seq.gpr 1 == 4) := by decide +kernel

/-- Operands that meet the hypotheses of the branches and jumps; a JALR target that is not a multiple of 4 is fault 0x13 (R306). -/
theorem test_witness_SequencerControlFlow :
    SeqReady (regs 5 5) h0 [1, 2]
    ∧ SeqReady base h0 [31]
    ∧ SeqReady (regs 0x100 0) h0 [3, 1]
    ∧ (((regs 0x100 0).me.seq.gpr 1).toNat + 4 * (-1 : BitVec 11).toInt) % 4 = 0
    ∧ next (exec (.jalr h0 3 1 0) (regs 0x102 0)) (fun t => halts t == some 0x13) := by unfold SeqReady; decide +kernel

/-! ## Accesses of the sequencer -/

/-- Accesses that meet the hypotheses of R308, R310, R312 and R313: to the own scratchpad, to memory in a free leg, and to a pinned page in a fixed leg. -/
theorem test_witness_SequencerMemoryWords :
    SeqReady (own 0x200 5) h0 [3, 1]
    ∧ SeqMay (own 0x200 5) (.ld h0 3 1 3 0) 0x200 8 (.read) (spadIa + 0x200)
    ∧ SeqMay (own 0x200 5) (.ldc h0 3 1 0 (-1)) 0x1FF 1 (.read) (spadIa + 0x1FF)
    ∧ SeqMay (own 0x200 5) (.st h0 2 1 3 0) 0x200 8 (.write (toBytes 8 5)) (spadIa + 0x200)
    ∧ SeqMay (own 0x200 5) (.amoCas h0 2 1 2 2 0) 0x200 16 (.atomic .cas 0 0) (spadIa + 0x200)
    ∧ SeqMay (own 0x200 5) (.amoAdd h0 3 1 2 0 0) 0x200 4 (.atomic .add 5 0) (spadIa + 0x200)
    ∧ SeqMay (own 0x200 5) (.faddx h0 1 2 0 0) 0x200 128 (.faddx 0 5) (spadIa + 0x200)
    ∧ SeqMay (own 0x200 5) (.xrd h0 3 1 0 0 0) 0x200 128 (.xrd) (spadIa + 0x200)
    ∧ SeqMay (ranged devRange (regs 0x200 5)) (.ld h0 3 1 3 0) 0x200 8 (.read) (0x200)
    ∧ SeqMay (ranged devRange pinnedBase) (.ld h0 3 1 3 0) 0x200 8 (.read) (0x200)
    ∧ formM (own 0x200 5) 1 3 (-1) = 0x1F8
    ∧ SeqReady (own 0x200 5) h0 [2, 3, 1, 4, 5] := by
  refine ⟨?_, ?_, ?_, ?_, ?_, ?_, ?_, ?_, ?_, ?_, ?_, ?_⟩ <;> ((try unfold SeqReady); (try unfold SeqMay); decide +kernel)

/-- Form M: the address is ga plus imm9 in units of the access; the store takes the low bytes of gd (R308); a misaligned address is hard fault 0x13, one outside every range traps with cause 0x30 (R97, R152). -/
theorem test_load_store :
    next (exec (.ld h0 3 1 3 (-1)) (own 0x200 5)) (fun t => asked t == some (.read, spadIa + 0x1F8, 8, .gpr 3 8 false false))
    ∧ next (exec (.ldc h0 3 1 0 3) (own 0x200 5)) (fun t => asked t == some (.read, spadIa + 0x203, 1, .gpr 3 1 true false))
    ∧ next (exec (.st h0 2 1 1 4) (own 0x200 5)) (fun t => asked t == some (.write [5, 0], spadIa + 0x208, 2, .none_))
    ∧ next (exec (.ld h0 3 1 3 0) (regs 0x204 0)) (fun t => halts t == some 0x13)
    ∧ next (exec (.ld h0 3 1 2 0) (regs 0x204 0)) (fun t => halts t == none && t.me.seq.cause == 0x30 && t.me.seq.sup && t.me.seq.epc == 0) := by decide +kernel

/-- Each function asks for its own atomic, with the operand cut to the size; CAS takes the expected value from gd (R310). -/
theorem test_amo :
    next (exec (.amoAdd h0 3 1 2 1 0) (own 0x200 0x1FFFFFFFF)) (fun t => asked t == some (.atomic .add 0x1FFFFFFFF 0, spadIa + 0x200, 8, .gpr 3 8 false false))
    ∧ next (exec (.amoAnd h0 3 1 2 1 0) (own 0x200 0x1FFFFFFFF)) (fun t => asked t == some (.atomic .and 0x1FFFFFFFF 0, spadIa + 0x200, 8, .gpr 3 8 false false))
    ∧ next (exec (.amoOr h0 3 1 2 1 0) (own 0x200 0x1FFFFFFFF)) (fun t => asked t == some (.atomic .or 0x1FFFFFFFF 0, spadIa + 0x200, 8, .gpr 3 8 false false))
    ∧ next (exec (.amoXor h0 3 1 2 1 0) (own 0x200 0x1FFFFFFFF)) (fun t => asked t == some (.atomic .xor 0x1FFFFFFFF 0, spadIa + 0x200, 8, .gpr 3 8 false false))
    ∧ next (exec (.amoMin h0 3 1 2 1 0) (own 0x200 0x1FFFFFFFF)) (fun t => asked t == some (.atomic .min 0x1FFFFFFFF 0, spadIa + 0x200, 8, .gpr 3 8 false false))
    ∧ next (exec (.amoMax h0 3 1 2 1 0) (own 0x200 0x1FFFFFFFF)) (fun t => asked t == some (.atomic .max 0x1FFFFFFFF 0, spadIa + 0x200, 8, .gpr 3 8 false false))
    ∧ next (exec (.amoMinu h0 3 1 2 1 0) (own 0x200 0x1FFFFFFFF)) (fun t => asked t == some (.atomic .minu 0x1FFFFFFFF 0, spadIa + 0x200, 8, .gpr 3 8 false false))
    ∧ next (exec (.amoMaxu h0 3 1 2 1 0) (own 0x200 0x1FFFFFFFF)) (fun t => asked t == some (.atomic .maxu 0x1FFFFFFFF 0, spadIa + 0x200, 8, .gpr 3 8 false false))
    ∧ next (exec (.amoSwap h0 3 1 2 1 0) (own 0x200 0x1FFFFFFFF)) (fun t => asked t == some (.atomic .swap 0x1FFFFFFFF 0, spadIa + 0x200, 8, .gpr 3 8 false false))
    ∧ next (exec (.amoAdd h0 3 1 2 0 0) (own 0x200 0x1FFFFFFFF)) (fun t => asked t == some (.atomic .add 0xFFFFFFFF 0, spadIa + 0x200, 4, .gpr 3 4 false false))
    ∧ next (exec (.amoCas h0 2 1 2 2 0) (own 0x200 0x1FFFFFFFF)) (fun t => asked t == some (.atomic .cas 0x1FFFFFFFF 0x1FFFFFFFF, spadIa + 0x200, 16, .gpr 2 16 false true)) := by
  refine ⟨?_, ?_, ?_, ?_, ?_, ?_, ?_, ?_, ?_, ?_, ?_⟩ <;> (decide +kernel)

/-- FADDX adds a code of its format to a superaccumulator of 128 bytes; XRD reads one (R312, R313). -/
theorem test_faddx_xrd :
    next (exec (.faddx h0 1 2 1 0) (own 0x200 0x1FFFFFFFF)) (fun t => asked t == some (.faddx 1 0xFFFF, spadIa + 0x200, 128, .none_))
    ∧ next (exec (.xrd h0 3 1 0 0 0) (own 0x200 0x1FFFFFFFF)) (fun t => (asked t).any fun x => x.1 == .xrd && x.2.2.1 == 128)
    ∧ next (exec (.xrd h0 3 1 0 0 0) (own 0x240 0)) (fun t => halts t == some 0x13) := by decide +kernel

/-! ## Idle, status and token words -/

/-- NOP, IDLE, SIZE, CHRON and LEGQ may issue: in a free leg, and with a token in a fixed leg. -/
theorem test_witness_NopIdleAndStatusWords :
    SeqReady base h0 []
    ∧ (base).eng = .seq
    ∧ (EngReady ({ base with eng := .axu }) .axu h0 ∧ ({ base with eng := .axu } : State).eng ≠ .seq)
    ∧ (EngReady ({ base with eng := .bke }) .bke h0 ∧ ({ base with eng := .bke } : State).eng ≠ .seq)
    ∧ (EngReady ({ base with eng := .vec }) .vec h0 ∧ ({ base with eng := .vec } : State).eng ≠ .seq)
    ∧ SeqReady (baseC fun k => { k with ctl := k.ctl.setOcc 0 1 }) ⟨7, true, true⟩ []
    ∧ ¬ SeqReady base ⟨0, true, false⟩ []
    ∧ (base.partOf base.cur = some 0 ∧ (base.part 0).runSlot = some 0) := by
  refine ⟨?_, ?_, ?_, ?_, ?_, ?_, ?_, ?_⟩ <;> ((try unfold SeqReady); (try unfold EngReady); decide +kernel)

/-- SIZE saturates at 15 (R320); CHRON reads the cycle (R321); LEGQ packs the leg, its class and its course (R322). -/
theorem test_size_chron_legq :
    next (exec (.size h0 1 9) (regs 7 0)) (fun t => t.me.ctl.sizecls == 15)
    ∧ next (exec (.size h0 0 9) base) (fun t => t.me.ctl.sizecls == 9)
    ∧ next (exec (.chron h0 3) base) (fun t => t.me.seq.gpr 3 == 10000)
    ∧ next (exec (.legq h0 3) fixedBase) (fun t => t.me.seq.gpr 3 == 0x80001) := by decide +kernel

/-- IDLE n makes its queue wait n cycles (R270). -/
theorem test_idle :
    next (exec (.idle h0 5) ({ base with eng := .axu })) (fun t => (t.me.queue .axu).base == 10006 && (t.me.queue .axu).pc == 4)
    ∧ next (exec (.idle h0 5) ({ base with eng := .bke })) (fun t => (t.me.queue .bke).base == 10006 && (t.me.queue .bke).pc == 4)
    ∧ next (exec (.idle h0 5) ({ base with eng := .vec })) (fun t => (t.me.queue .vec).base == 10006 && (t.me.queue .vec).pc == 4) := by decide +kernel

/-- `base` with a write sent to the host and one on link 0, which is in TRAINING. -/
def sentBase : State :=
  let s := baseC fun k => { k with pipe := { k.pipe with sentOn := [{ port := 48, ia := 64 }, { port := 0, ia := 64 }] } }
  { s with fab := { s.fab with links := s.fab.links.set 0 { s.fab.links[0] with st := .training } } }

/-- A state in which a fence holds loads and stores for an access that is not performed. -/
def fencedBy (kind : Nat) (s : State) : State :=
  { s.upd 0 fun k => { k with seq := { k.seq with fenceHold := [(kind, [7])] } } with
    reqs := [{ id := 7, who := 0, core := 0, part := some 0, kind := .write [1], ia := 0x400, n := 1, dest := .none_ }] }

/-- The hypotheses of TKT: a token from the VEC, one of link 3, none of either in a free leg, none in a fixed leg. -/
theorem test_witness_SequencerTokens :
    SeqReady (baseC fun k => { k with ctl := (k.ctl.setOcc 3 2) }) ⟨0, false, false⟩ []
    ∧ 0 < (baseC fun k => { k with ctl := (k.ctl.setOcc 3 2) }).me.ctl.occ (4 - 1)
    ∧ SeqReady (baseC fun k => { k with ctl := { k.ctl with ltc := k.ctl.ltc.set 3 1 } }) ⟨0, false, false⟩ []
    ∧ (baseC fun k => { k with ctl := { k.ctl with ltc := k.ctl.ltc.set 3 1 } }).fixedLeg 0 = false
    ∧ 0 < ((baseC fun k => { k with ctl := { k.ctl with ltc := k.ctl.ltc.set 3 1 } }).me.ctl.ltc[3]).toNat
    ∧ SeqReady base ⟨0, false, false⟩ []
    ∧ (base.fixedLeg base.cur = false ∧ base.me.ctl.occ 3 = 0 ∧ base.me.ctl.ltc[3] = 0)
    ∧ (SeqReady fixedBase ⟨0, false, false⟩ [] ∧ fixedBase.partOf fixedBase.cur = some 0)
    ∧ (fixedBase.fixedLeg fixedBase.cur = true ∧ fixedBase.me.ctl.occ 3 = 0 ∧ Running fixedBase 0)
    ∧ SeqReady (regs 1 0) ⟨0, false, false⟩ [3, 1] := by
  refine ⟨?_, ?_, ?_, ?_, ?_, ?_, ?_, ?_, ?_, ?_⟩ <;> ((try unfold SeqReady); (try unfold Running); decide +kernel)

/-- The hypotheses of FENCE: nothing sent, and a write sent to the host and one on a link in TRAINING; a load and a store held by a fence, in a
free and in a fixed leg. -/
theorem test_witness_SequencerFence :
    SeqReady base h0 []
    ∧ base.me.pipe.sentOn = []
    ∧ SeqReady sentBase h0 []
    ∧ (sentBase.fixedLeg sentBase.cur = false ∧ sentBase.me.pipe.sentOn.length = 2 ∧ (sentBase.fab.links[0]).st = .training)
    ∧ SeqReady (fencedBy 2 (own 0x200 5)) h0 [2, 1]
    ∧ translate (fencedBy 2 (own 0x200 5)).me.ctl.rng true 0x200 8 .read = .ok (spadIa + 0x200)
    ∧ (fencedBy 2 (own 0x200 5)).issuerCheck (some 0) (spadIa + 0x200) = none
    ∧ (fencedBy 2 (own 0x200 5)).unperformed 7 = true
    ∧ SeqReady (fencedBy 2 (ranged ownRange fixedBase)) h0 [2, 1]
    ∧ ((fencedBy 2 (ranged ownRange fixedBase)).fixedLeg 0 = true ∧ Running (fencedBy 2 (ranged ownRange fixedBase)) 0) := by
  refine ⟨?_, ?_, ?_, ?_, ?_, ?_, ?_, ?_, ?_, ?_⟩ <;> ((try unfold SeqReady); (try unfold Running); decide +kernel)

/-- A load and a store behind a full fence wait in a free leg and are deviation 0x41 in a fixed one; behind a release fence a load goes (R255). -/
theorem test_fence :
    next (exec (.ld h0 3 1 3 0) (fencedBy 2 (own 0x200 5))) (fun t => t.reqs.length == 1 && t.me.seq.q.pc == 0)
    ∧ next (exec (.st h0 2 1 3 0) (fencedBy 1 (own 0x200 5))) (fun t => t.reqs.length == 1 && t.me.seq.q.pc == 0)
    ∧ next (exec (.ld h0 3 1 3 0) (fencedBy 1 (own 0x200 5))) (fun t => t.reqs.length == 2 && t.me.seq.q.pc == 4)
    ∧ next (exec (.ld h0 3 1 3 0) (fencedBy 2 (ranged ownRange fixedBase))) (fun t => halts t == some 0x41)
    ∧ next (exec (.fence h0 2 8) sentBase) (fun t => t.reqs.map (fun r => (r.kind, r.ia, r.n, r.sent)) == [(.zero, 64, 0, some 48)])
    ∧ next (exec (.fence h0 1 6) sentBase) (fun t => t.reqs.map (fun r => (r.kind, r.ia, r.n, r.sent)) == [(.zero, 64, 0, some 0)])
    ∧ next (exec (.fence h0 0 8) sentBase) (fun t => t.reqs == []) := by
  refine ⟨?_, ?_, ?_, ?_, ?_, ?_, ?_⟩ <;> (decide +kernel)

/-- TKT takes from one FIFO or link counter (R315); TKQ reads the FIFO from P to Q and the link counters (R316). -/
theorem test_tokens :
    next (exec (.tkt 0 4) (baseC fun k => { k with ctl := (k.ctl.setOcc 3 2) })) (fun t => t.me.ctl.occ 3 == 1)
    ∧ next (exec (.tkt 0 11) (baseC fun k => { k with ctl := { k.ctl with ltc := k.ctl.ltc.set 3 1 } })) (fun t => t.me.ctl.ltc[3] == 0)
    ∧ next (exec (.tkq 0 3 0 0x04) (baseC fun k => { k with ctl := (k.ctl.setOcc 3 2) })) (fun t => t.me.seq.gpr 3 == 2)
    ∧ next (exec (.tkq 0 3 0 0x40) (baseC fun k => { k with ctl := (k.ctl.setOcc 3 2) })) (fun t => t.me.seq.gpr 3 == 0)
    ∧ next (exec (.tkq 0 3 0 0x403) (baseC fun k => { k with ctl := { k.ctl with ltc := k.ctl.ltc.set 3 1 } })) (fun t => t.me.seq.gpr 3 == 1)
    ∧ next (exec (.tkt 0 4) base) (fun t => t.me.seq.q.pc == 0 && halts t == none)
    ∧ next (exec (.tkt 0 4) fixedBase) (fun t => halts t == some 0x41)
    ∧ next (exec (.tkg 0 2) base) (fun t => t.me.pipe.infl.any fun w => w.give && w.giveTo == 2) := by decide +kernel

/-- The AXU queue running, the BKE and VEC queues stopped: both sides of QSTART and QSTOP, and each selector of QSTAT. -/
theorem test_witness_SequencerQueueControl :
    SeqReady (({ base with eng := .seq }.upd 0 fun k => { k with axu := { k.axu with q := { k.axu.q with st := .running, pc := 8, spanEnd := 64 } } })) h0 [3, 1]
    ∧ ((({ base with eng := .seq }.upd 0 fun k => { k with axu := { k.axu with q := { k.axu.q with st := .running, pc := 8, spanEnd := 64 } } })).me.axu.q.st = .running ∧ (({ base with eng := .seq }.upd 0 fun k => { k with axu := { k.axu with q := { k.axu.q with st := .running, pc := 8, spanEnd := 64 } } })).me.axu.q.stopAt = none)
    ∧ (({ base with eng := .seq }.upd 0 fun k => { k with axu := { k.axu with q := { k.axu.q with st := .running, pc := 8, spanEnd := 64 } } })).me.bke.q.eff 10000 = .stopped := by
  refine ⟨?_, ?_, ?_⟩ <;> ((try unfold SeqReady); decide +kernel)

/-- A queue a QSTOP stopped with three cycles of an IDLE to come, and one in soft stop (R317). -/
def stoppedBase : State :=
  baseC fun k => { k with axu := { k.axu with q := { k.axu.q with st := .running, pc := 8, spanEnd := 64, stopAt := some 9990, idleEnd := 9993 } }
                          vec := { k.vec with q := { k.vec.q with st := .soft, pc := 4, spanEnd := 64 } } }

/-- QSTART goes on with what was left of the IDLE; QSTOP leaves a soft stop as it is and keeps that it came (R317). -/
theorem test_qstart_after_idle :
    SeqReady stoppedBase h0 [0]
    ∧ stoppedBase.me.axu.q.eff 10000 = .stopped
    ∧ stoppedBase.me.vec.q.eff 10000 = .soft
    ∧ next (exec (.qstart h0 0 1) stoppedBase) (fun t => t.me.axu.q.base == 10004 && t.me.axu.q.st == .running && t.me.axu.q.pc == 8)
    ∧ next (exec (.qstop h0 0 4) stoppedBase) (fun t => t.me.vec.q.st == .soft && t.me.vec.q.stopAt == some 10000) := by
  refine ⟨?_, ?_, ?_, ?_, ?_⟩ <;> ((try unfold SeqReady); decide +kernel)

/-- QSTART and QSTOP name AXU, BKE and VEC by bits 0, 1 and 2 (R317); QSTAT reads the pc and state (R318). -/
theorem test_queues :
    next (exec (.qstart h0 0 2) ({ base with eng := .seq }.upd 0 fun k => { k with axu := { k.axu with q := { k.axu.q with st := .running, pc := 8, spanEnd := 64 } } })) (fun t => t.me.bke.q.base == 10001 && t.me.vec.q == ({ base with eng := .seq }.upd 0 fun k => { k with axu := { k.axu with q := { k.axu.q with st := .running, pc := 8, spanEnd := 64 } } }).me.vec.q)
    ∧ next (exec (.qstop h0 0 7) ({ base with eng := .seq }.upd 0 fun k => { k with axu := { k.axu with q := { k.axu.q with st := .running, pc := 8, spanEnd := 64 } } })) (fun t => t.me.axu.q.stopAt == some 10000 && t.me.bke.q.stopAt == none)
    ∧ next (exec (.qstat h0 3 0 1) ({ base with eng := .seq }.upd 0 fun k => { k with axu := { k.axu with q := { k.axu.q with st := .running, pc := 8, spanEnd := 64 } } })) (fun t => t.me.seq.gpr 3 == 0x800000001)
    ∧ next (exec (.qstat h0 3 0 3) base) (fun t => t.me.seq.gpr 3 == 0) := by decide +kernel

/-- A chart of one leg and a core in user mode that names it, one that names a leg beyond it, one in supervisor mode; an entry in the handle cache. -/
theorem test_witness_FixAndHqry :
    SeqReady (baseP fun q => { q with legs := [leg 1 false] }) ⟨0, false, false⟩ [0]
    ∧ ((baseP fun q => { q with legs := [leg 1 false] }).me.seq.sup = false ∧ (baseP fun q => { q with legs := [leg 1 false] }).partOf (baseP fun q => { q with legs := [leg 1 false] }).cur = some 0)
    ∧ ((baseP fun q => { q with legs := [leg 1 false] }).part 0).leg (((baseP fun q => { q with legs := [leg 1 false] }).me.seq.gpr 0).toNat + (1 : BitVec 11).toNat) = some (leg 1 false)
    ∧ (baseP fun q => { q with legs := [leg 1 false] }).fixClash (baseP fun q => { q with legs := [leg 1 false] }).cur 1 1 = false
    ∧ Running (baseP fun q => { q with legs := [leg 1 false] }) 0
    ∧ ((baseP fun q => { q with legs := [leg 1 false] }).part 0).leg (((baseP fun q => { q with legs := [leg 1 false] }).me.seq.gpr 0).toNat + (2 : BitVec 11).toNat) = none
    ∧ (((regs 0x123 0).upd 0 fun k => { k with hcUnpinned := [(0x123, 0xFFFFFFFF000000000000000000000000000000000000000000000000000000000000000000000000000000000000000000000000000000000000000000000005)] })).me.cached 0x123 ≠ none
    ∧ SeqReady (((regs 0x123 0).upd 0 fun k => { k with hcUnpinned := [(0x123, 0xFFFFFFFF000000000000000000000000000000000000000000000000000000000000000000000000000000000000000000000000000000000000000000000005)] })) h0 [3, 1] := by
  refine ⟨?_, ?_, ?_, ?_, ?_, ?_, ?_, ?_⟩ <;> ((try unfold SeqReady); (try unfold Running); decide +kernel)

/-- A core that names leg 1 while core 1 of its device has arrived naming leg 2. -/
def clashBase : State :=
  (baseP fun q => { q with legs := [leg 3 false, leg 3 false] }).upd 1 fun k => { k with seq := { k.seq with fix := some { leg := 2, arrived := some 9000 } } }

/-- The last case of fix error 0x43, a core of the group that has arrived naming another leg; and an entry among the pinned ones (R132, R189, R323). -/
theorem test_witness_FixClash :
    SeqReady clashBase ⟨0, false, false⟩ [0]
    ∧ (clashBase.part 0).leg (((clashBase.me.seq.gpr 0).toNat + (1 : BitVec 11).toNat)) = some (leg 3 false)
    ∧ (1 ∈ clashBase.groupOf clashBase.cur 3 ∧ (1 : CoreIx) ≠ clashBase.cur)
    ∧ (clashBase.core 1).seq.fix = some { leg := 2, arrived := some 9000 }
    ∧ Running clashBase 0
    ∧ next (exec (.fix 0 0 1) clashBase) (fun t => halts t == some 0x43)
    ∧ (tget ((regs 0x123 0).upd 0 fun k => { k with hcPinned := [(0x123, 5)] }).me.hcPinned 0x123).isSome = true := by
  refine ⟨?_, ?_, ?_, ?_, ?_, ?_, ?_⟩ <;> ((try unfold SeqReady); (try unfold Running); decide +kernel)

/-- FIX waits at the leg it names (R319); leg 0 is none of the chart: 0x43; HQRY reads fields 0 and 13 of a cached entry (R323). -/
theorem test_fix_hqry :
    next (exec (.fix 0 0 1) (baseP fun q => { q with legs := [leg 1 false] })) (fun t => t.me.seq.fix == some { leg := 1, since := 10000 })
    ∧ next (exec (.fix 0 0 0) (baseP fun q => { q with legs := [leg 1 false] })) (fun t => halts t == some 0x43)
    ∧ next (exec (.hqry h0 3 1 0) ((regs 0x123 0).upd 0 fun k => { k with hcUnpinned := [(0x123, 0xFFFFFFFF000000000000000000000000000000000000000000000000000000000000000000000000000000000000000000000000000000000000000000000005)] })) (fun t => t.me.seq.gpr 3 == 5)
    ∧ next (exec (.hqry h0 3 1 13) ((regs 0x123 0).upd 0 fun k => { k with hcUnpinned := [(0x123, 0xFFFFFFFF000000000000000000000000000000000000000000000000000000000000000000000000000000000000000000000000000000000000000000000005)] })) (fun t => t.me.seq.gpr 3 == 0xFFFFFFFFFFFFFFFF) := by decide +kernel

/-! ## System words -/

/-- Both modes, and each kind of register: of the mode, supervisor-only, arrayed, with no soft stop and with one. -/
theorem test_witness_ControlRegisterReads :
    SeqReady base h0 [3]
    ∧ (supOnly 0x050 = true → base.me.seq.sup = true)
    ∧ (supOnly 0x018 = true → (sup base).me.seq.sup = true)
    ∧ (supOnly 0x668 = true → (sup base).me.seq.sup = true)
    ∧ base.partOf base.cur = some 0
    ∧ base.me.axu.soft = none
    ∧ supOnly 0x408 = true
    ∧ supOnly 0x300 = false
    ∧ SeqReady (sup base) h0 [31] := by
  refine ⟨?_, ?_, ?_, ?_, ?_, ?_, ?_, ?_, ?_⟩ <;> ((try unfold SeqReady); decide +kernel)

/-- Reset values and packings of the control page: MODE, CHRON, TKSEL, ceilings, STWIN, a range and a row window (R192); an RSV offset reads 0. -/
theorem test_crr :
    next (exec (.crr h0 3 0x0) (sup base)) (fun t => t.me.seq.gpr 3 == 1)
    ∧ next (exec (.crr h0 3 0x4) (base)) (fun t => t.me.seq.gpr 3 == 10000)
    ∧ next (exec (.crr h0 3 0xa) (base)) (fun t => t.me.seq.gpr 3 == 0x11)
    ∧ next (exec (.crr h0 3 0xc) (base)) (fun t => t.me.seq.gpr 3 == 0xFFFF)
    ∧ next (exec (.crr h0 3 0x70) (base)) (fun t => t.me.seq.gpr 3 == 20)
    ∧ next (exec (.crr h0 3 0xe0) (base)) (fun t => t.me.seq.gpr 3 == 0)
    ∧ next (exec (.crr h0 3 0x7f) (base)) (fun t => t.me.seq.gpr 3 == 0)
    ∧ next (exec (.crr h0 3 0x81) (sup (baseC fun k => { k with ctl := { k.ctl with rng := k.ctl.rng.set 0 { limit := 3, v := true, u := true } } }))) (fun t => t.me.seq.gpr 3 == 0x30000)
    ∧ next (exec (.crr h0 3 0x83) (sup (baseC fun k => { k with ctl := { k.ctl with rng := k.ctl.rng.set 0 { limit := 3, v := true, u := true } } }))) (fun t => t.me.seq.gpr 3 == 0x11)
    ∧ next (exec (.crr h0 3 0xc1) (sup (baseC fun k => { k with ctl := { k.ctl with rwin := k.ctl.rwin.set 0 { rowlo := 2, rowhi := 5, v := true } } }))) (fun t => t.me.seq.gpr 3 == 0x80050002) := by decide +kernel

/-- Both modes for MODE; each register of the page with a value of ga. -/
theorem test_witness_ControlRegisterWrites :
    SeqReady (regs 5 0) h0 [1]
    ∧ (regs 5 0).me.seq.sup = false
    ∧ (sup (regs 5 0)).me.seq.sup = true
    ∧ SeqReady (sup (regs 5 0)) h0 [1]
    ∧ (supOnly 0x308 = true → (regs 5 0).me.seq.sup = true) := by
  refine ⟨?_, ?_, ?_, ?_, ?_⟩ <;> ((try unfold SeqReady); decide +kernel)

/-- CRW: HVEC drops bits 1 and 0, SIZECLS keeps four bits, EV is cleared where 1 is written, STWIN keeps 10 to 40, a read-only register stands (R192). -/
theorem test_crw :
    next (exec (.crw h0 1 0x3) (sup (regs 0x1003 0))) (fun t => t.me.seq.hvec == 0x1000)
    ∧ next (exec (.crw h0 1 0x7) (regs 0x1f 0)) (fun t => t.me.ctl.sizecls == 15)
    ∧ next (exec (.crw h0 1 0x70) (sup (regs 0x9 0))) (fun t => t.me.stat.win == 20)
    ∧ next (exec (.crw h0 1 0x70) (sup (regs 0x28 0))) (fun t => t.me.stat.win == 40)
    ∧ next (exec (.crw h0 1 0x71) (sup ((regs 0x1 0).upd 0 fun k => { k with stat := { k.stat with ev := 3 } }))) (fun t => t.me.stat.ev == 2)
    ∧ next (exec (.crw h0 1 0x4) (sup (regs 0x7 0))) (fun t => t.chron == 10000 && halts t == none)
    ∧ next (exec (.crw h0 1 0x3) (regs 0x7 0)) (fun t => halts t == some 2) := by decide +kernel

/-- TKSEL is written byte by byte: byte 0 may not name the SEQ itself, byte 1 takes FROM 8 (R183). -/
theorem test_tksel :
    next (exec (.crw h0 1 0xa) (regs 0x800 0)) (fun t => t.me.ctl.tksel == 0x0811)
    ∧ next (exec (.crw h0 1 0xa) (regs 0x23 0)) (fun t => t.me.ctl.tksel == 0x0023) := by decide +kernel

/-- TRAP in both modes of a free leg and in a fixed leg; SRET in supervisor mode. -/
theorem test_witness_TrapAndReturn :
    SeqReady base h0 []
    ∧ base.fixedLeg base.cur = false
    ∧ SeqReady (sup base) h0 []
    ∧ fixedBase.fixedLeg fixedBase.cur = true
    ∧ SeqReady fixedBase h0 []
    ∧ Running fixedBase 0
    ∧ fixedBase.partOf fixedBase.cur = some 0
    ∧ (sup base).me.seq.sup = true := by
  refine ⟨?_, ?_, ?_, ?_, ?_, ?_, ?_, ?_⟩ <;> ((try unfold SeqReady); (try unfold Running); decide +kernel)

/-- TRAP 5 saves pc + 4, cause 0x85 and the mode, and goes to HVEC (R423); SRET restores the mode and goes to EPC (R424). -/
theorem test_trap_sret :
    next (exec (.trap h0 5) (baseC fun k => { k with seq := { k.seq with hvec := 0x4000, epc := 0x88, pmode := false, q := { k.seq.q with pc := 0x40 } } })) (fun t => t.me.seq.epc == 0x44 && t.me.seq.cause == 0x85 && !t.me.seq.pmode && t.me.seq.sup && t.me.seq.q.pc == 0x4000)
    ∧ next (exec (.sret h0) (sup (baseC fun k => { k with seq := { k.seq with hvec := 0x4000, epc := 0x88, pmode := false, q := { k.seq.q with pc := 0x40 } } }))) (fun t => !t.me.seq.sup && t.me.seq.q.pc == 0x88)
    ∧ next (exec (.trap h0 5) fixedBase) (fun t => halts t == some 0x41) := by decide +kernel

/-- HSET and WREP in a fixed leg (R426, R428). -/
theorem test_witness_TableWordsInFixedLeg :
    SeqReady (sup fixedBase) h0 [1, 2]
    ∧ ((sup fixedBase).me.seq.sup = true ∧ (sup fixedBase).fixedLeg 0 = true ∧ (sup fixedBase).partOf 0 = some 0)
    ∧ Running (sup fixedBase) 0
    ∧ next (exec (.hset h0 1 2) (sup fixedBase)) (fun t => halts t == some 0x41)
    ∧ next (exec (.wrep h0 1 2) (sup fixedBase)) (fun t => halts t == some 0x41) := by
  refine ⟨?_, ?_, ?_, ?_, ?_⟩ <;> ((try unfold SeqReady); (try unfold Running); decide +kernel)

/-- No fix waits; supervisor mode in a free leg, a column with closed banks; a mask with no open row. -/
theorem test_witness_HaltTableScanAndRowBus :
    SeqReady base h0 [1]
    ∧ base.fixWaiting base.cur = false
    ∧ (base.fixedLeg base.cur = true → base.coreQuiet base.cur = true)
    ∧ fixedBase.coreQuiet fixedBase.cur = true
    ∧ SeqReady (sup (ranged devRange (regs 0x40 0x1000))) h0 [1, 2]
    ∧ ((sup (ranged devRange (regs 0x40 0x1000))).me.seq.sup = true ∧ (sup (ranged devRange (regs 0x40 0x1000))).fixedLeg (sup (ranged devRange (regs 0x40 0x1000))).cur = false)
    ∧ SeqMay (sup (ranged devRange (regs 0x40 0x1000))) (.hset h0 1 2) ((sup (ranged devRange (regs 0x40 0x1000))).me.seq.gpr 2) 64 .read 0x1000
    ∧ (sup (ranged devRange (regs 0x40 0x1000))).me.seq.gpr 1 = 0x40
    ∧ (((sup (ranged devRange (regs 0x40 0x1000))).col (sup (ranged devRange (regs 0x40 0x1000))).cur).allClosed (sup (ranged devRange (regs 0x40 0x1000))).chron = true ∧ ((sup (ranged devRange (regs 0x40 0x1000))).col (sup (ranged devRange (regs 0x40 0x1000))).cur).wrepEnd ≤ (sup (ranged devRange (regs 0x40 0x1000))).chron)
    ∧ (((sup (ranged devRange (regs 0x40 0x1000))).col (sup (ranged devRange (regs 0x40 0x1000))).cur).openIn (sup (ranged devRange (regs 0x40 0x1000))).me.ctl.rwin[(0 : Fin 4)].bmask (sup (ranged devRange (regs 0x40 0x1000))).chron) = [] := by
  refine ⟨?_, ?_, ?_, ?_, ?_, ?_, ?_, ?_, ?_, ?_⟩ <;> ((try unfold SeqReady); (try unfold SeqMay); decide +kernel)

/-- HALT waits to stop the core with the code in ga (R425); WREP holds its column 64 cycles for ops 0 and 2, 4,096 for 1 (R428); SCANR is done after 63 cycles (R427). -/
theorem test_halt_wrep :
    next (exec (.halt h0 1) (regs 7 0)) (fun t => t.me.seq.haltWait == some (7, false))
    ∧ next (exec (.wrep h0 1 2) (sup (regs 0 1))) (fun t => (t.col 0).wrepEnd == 14096)
    ∧ next (exec (.wrep h0 1 2) (sup (regs 0 2))) (fun t => (t.col 0).wrepEnd == 10064)
    ∧ next (exec (.scanr h0 3 1) (sup (regs 0 0))) (fun t => t.me.seq.gReady[3] == 10064)
    ∧ next (exec (.hset h0 1 2) (sup (ranged devRange (regs 0x40 0x1000)))) (fun t => asked t == some (.read, 0x1000, 64, .hset 0x40)) := by decide +kernel

/-- User mode in a running partition. -/
theorem test_witness_PrivilegedWordsFaultInUserMode :
    (base.me.stat.trapDue base.chron = false ∧ base.me.seq.sup = false ∧ base.partOf base.cur = some 0)
    ∧ Running base 0
    ∧ seqTakes base h0 = false := by
  refine ⟨?_, ?_, ?_⟩ <;> ((try unfold Running); decide +kernel)

/-- Each privileged word in user mode is hard fault 0x02 (R272, R421). -/
theorem test_privileged :
    next (exec (.sret h0) base) (fun t => halts t == some 2)
    ∧ next (exec (.hset h0 1 2) base) (fun t => halts t == some 2)
    ∧ next (exec (.scanr h0 3 1) base) (fun t => halts t == some 2)
    ∧ next (exec (.wrep h0 1 2) base) (fun t => halts t == some 2)
    ∧ next (exec (.crr h0 3 3) base) (fun t => halts t == some 2)
    ∧ next (exec (.crw h0 1 3) base) (fun t => halts t == some 2) := by decide +kernel

/-- A block at 0x80 without a completion record, and CPYR with one. -/
theorem test_witness_CopyCommandWords :
    SeqReady (ranged devRange ({ regs 0x80 0 with eng := .seq })) h0 [3, 1, 2]
    ∧ ((ranged devRange ({ regs 0x80 0 with eng := .seq })).me.seq.gpr 2).toNat % 64 = 0
    ∧ (ranged devRange ({ regs 0x80 0 with eng := .seq })).cmdCount (ranged devRange ({ regs 0x80 0 with eng := .seq })).cur < 16
    ∧ SeqMay (ranged devRange ({ regs 0x80 0 with eng := .seq })) (.cpy h0 3 1 2 4 true false) ((ranged devRange ({ regs 0x80 0 with eng := .seq })).me.seq.gpr 1) 128 .read 0x80
    ∧ (ranged devRange ({ regs 0x80 0 with eng := .seq })).fixedLeg (ranged devRange ({ regs 0x80 0 with eng := .seq })).cur = false
    ∧ (Machine.translate (ranged devRange (regs 0x80 0x40)).me.ctl.rng (!(ranged devRange (regs 0x80 0x40)).me.seq.sup) 0x40 64 .read = .ok 0x40 ∧ (ranged devRange (regs 0x80 0x40)).issuerCheck ((ranged devRange (regs 0x80 0x40)).partOf (ranged devRange (regs 0x80 0x40)).cur) 0x40 = none)
    ∧ SeqMay (ranged devRange (regs 0x80 0x40)) (.cpyr h0 3 1 2 4 true false) ((ranged devRange (regs 0x80 0x40)).me.seq.gpr 1) 128 .read 0x80
    ∧ ((ranged devRange (regs 0x80 0x40)).me.seq.gpr 2).toNat ≠ 0 := by
  refine ⟨?_, ?_, ?_, ?_, ?_, ?_, ?_, ?_⟩ <;> ((try unfold SeqReady); (try unfold SeqMay); decide +kernel)

/-- The cases of a command word's faults: CPYR without a record, a record not at a multiple of 64, and a fixed leg; and CPYR with block and
record in the own scratchpad. -/
theorem test_witness_CopyCommandFaults :
    (SeqReady (regs 0x80 0) h0 [3, 1, 2] ∧ Running (regs 0x80 0) 0 ∧ (regs 0x80 0).partOf 0 = some 0)
    ∧ ((regs 0x80 0x41).cmdCount 0 < 16 ∧ ((regs 0x80 0x41).me.seq.gpr 2).toNat % 64 ≠ 0 ∧ (regs 0x80 0x41).fixedLeg 0 = false)
    ∧ (fixedBase.fixedLeg 0 = true ∧ SeqReady fixedBase h0 [3, 1, 2] ∧ Running fixedBase 0)
    ∧ (translate (own 0x80 0x1040).me.ctl.rng true 0x1040 64 .read = .ok (spadIa + 0x1040) ∧ isOwnSpad 0 (spadIa + 0x1040) = true)
    ∧ (own 0x80 0x1040).me.pipe.hitAt (ownClaims .read (bankOf 0x1040) 10001) = none
    ∧ ((own 0x80 0x1040).claim 0 (ownClaims .read (bankOf 0x1040) 10001)).me.pipe.hitAt (ownClaims .read (bankOf 0x80) 10000) = none
    ∧ SeqMay (own 0x80 0x1040) (.cpyr h0 3 1 2 4 true false) 0x80 128 .read (spadIa + 0x80)
    ∧ next (exec (.cpyr h0 3 1 2 4 true false) (regs 0x80 0)) (fun t => halts t == some 0x15)
    ∧ next (exec (.cpy h0 3 1 2 4 true false) (regs 0x80 0x41)) (fun t => halts t == some 0x13)
    ∧ next (exec (.sort h0 3 1 2 4 true false) fixedBase) (fun t => halts t == some 0x41)
    ∧ next (exec (.cpyr h0 3 1 2 4 true false) (own 0x80 0x1040)) (fun t => t.reqs.map (·.n) == [64, 128]) := by
  refine ⟨?_, ?_, ?_, ?_, ?_, ?_, ?_, ?_, ?_, ?_, ?_⟩ <;> ((try unfold SeqReady); (try unfold SeqMay); (try unfold Running); decide +kernel)

/-- The six command words read a block of 128 bytes (R406). -/
theorem test_commands :
    next (exec (.cpy h0 3 1 2 4 true false) (ranged devRange ({ regs 0x80 0 with eng := .seq }))) (fun t => t.reqs.getLast?.any fun r => r.n == 128 && r.ia == 0x80 && (match r.dest with | .cmd x => x.op == 50 && x.rel && !x.acq && x.scope == 4 && x.d == 3 | _ => false))
    ∧ next (exec (.cpyf h0 3 1 2 4 true false) (ranged devRange ({ regs 0x80 0 with eng := .seq }))) (fun t => t.reqs.getLast?.any fun r => r.n == 128 && r.ia == 0x80 && (match r.dest with | .cmd x => x.op == 51 && x.rel && !x.acq && x.scope == 4 && x.d == 3 | _ => false))
    ∧ next (exec (.cpyw h0 3 1 2 4 true false) (ranged devRange ({ regs 0x80 0 with eng := .seq }))) (fun t => t.reqs.getLast?.any fun r => r.n == 128 && r.ia == 0x80 && (match r.dest with | .cmd x => x.op == 52 && x.rel && !x.acq && x.scope == 4 && x.d == 3 | _ => false))
    ∧ next (exec (.cpyr h0 3 1 2 4 true false) (ranged devRange (regs 0x80 0x40))) (fun t => t.reqs.getLast?.any fun r => r.n == 128 && r.ia == 0x80 && (match r.dest with | .cmd x => x.op == 53 && x.rel && !x.acq && x.scope == 4 && x.d == 3 | _ => false))
    ∧ next (exec (.sort h0 3 1 2 4 true false) (ranged devRange ({ regs 0x80 0 with eng := .seq }))) (fun t => t.reqs.getLast?.any fun r => r.n == 128 && r.ia == 0x80 && (match r.dest with | .cmd x => x.op == 54 && x.rel && !x.acq && x.scope == 4 && x.d == 3 | _ => false))
    ∧ next (exec (.pack h0 3 1 2 4 true false) (ranged devRange ({ regs 0x80 0 with eng := .seq }))) (fun t => t.reqs.getLast?.any fun r => r.n == 128 && r.ia == 0x80 && (match r.dest with | .cmd x => x.op == 55 && x.rel && !x.acq && x.scope == 4 && x.d == 3 | _ => false)) := by
  refine ⟨?_, ?_, ?_, ?_, ?_, ?_⟩ <;> (decide +kernel)

/-! ## Words of the AXU -/

/-- An AXU word without a token, and one with a token from the SEQ. -/
theorem test_witness_AccessUnitAddressWords :
    EngReady (axuBase 0x1000 0x10) .axu h0
    ∧ EngReady ((axuBase 0x1000 0x10).upd 0 fun k => { k with ctl := k.ctl.setOcc (4 * 1 + 0) 1 }) .axu ⟨0, true, true⟩ := by
  refine ⟨?_, ?_⟩ <;> ((try unfold EngReady); decide +kernel)

/-- AADD with a shift and a negation, AADD.nw to each field, ALI and ALI.sh, AMOV (R329 to R331). -/
theorem test_axu_address :
    next (exec (.aadd h0 3 1 2 true 4) (axuBase 0x1000 0x10)) (fun t => t.me.axu.a[3] == 0xF00)
    ∧ next (exec (.aadd h0 3 2 2 true 1) (axuBase 0x1000 0x10)) (fun t => t.me.axu.a[3] == 0xFFFFFFFFFFFFFFF0)
    ∧ next (exec (.aaddNw h0 1 1 2 2) (axuBase 0x1000 0x10)) (fun t => t.me.axu.n[1].s0 == 0x1010)
    ∧ next (exec (.aaddNw h0 5 1 2 0) (axuBase 0x1000 0x10)) (fun t => t.me.axu.n[5].bound == 0x1010)
    ∧ next (exec (.ali h0 1 0x8000) (axuBase 0x1000 0x10)) (fun t => t.me.axu.a[1] == 0xFFFFFFFFFFFF8000)
    ∧ next (exec (.aliSh h0 1 0x8000) (axuBase 0x1000 0x10)) (fun t => t.me.axu.a[1] == 0x10008000)
    ∧ next (exec (.amov h0 3 1) (axuBase 0x1000 0x10)) (fun t => t.me.axu.a[3] == 0x1000) := by decide +kernel

/-- LEND steps POS and wraps it at the bound (R333); MARK counts (R338); nest 6 in a LOOP is fault 0x01 (R332). -/
theorem test_lend_mark :
    next (exec (.lend h0 0) (axuBase 0x1000 0x10)) (fun t => t.me.axu.n[0].pos == 1)
    ∧ next (exec (.lend h0 1) (axuBase 0x1000 0x10)) (fun t => t.me.axu.n[1].pos == 0)
    ∧ next (exec (.mark h0) (axuBase 0x1000 0x10)) (fun t => t.me.axu.marks == 1)
    ∧ next (exec (.loop h0 6 1) (axuBase 0x1000 0x10)) (fun t => halts t == some 1) := by decide +kernel

/-- A nest of four trips outside a loop, and a reserved nest. -/
theorem test_witness_AccessUnitLoop :
    EngReady (axuBase 0x1000 0x10) .axu h0
    ∧ (axuBase 0x1000 0x10).me.axu.q.loops = []
    ∧ Running (axuBase 0x1000 0x10) 0
    ∧ (axuBase 0x1000 0x10).partOf (axuBase 0x1000 0x10).cur = some 0
    ∧ 6 ≤ (6 : BitVec 3).toNat := by
  refine ⟨?_, ?_, ?_, ?_, ?_⟩ <;> ((try unfold EngReady); (try unfold Running); decide +kernel)

/-- `axuBase` at the second of four words of an open loop of nest 1. -/
def inLoop : State :=
  (axuBase 0x1000 0x10).upd 0 fun k => { k with axu := { k.axu with q := { k.axu.q with
    pc := 8, lbase := 4, loops := [{ nest := 1, trips := 2, trip := 0, first := 0, last := 3 }], lbuf := [none, none, none, none] } } }

/-- A loop within an open loop, one of its nest, and one that would leave it (R332). -/
theorem test_witness_NestedLoop :
    EngReady inLoop .axu h0
    ∧ (∀ f ∈ inLoop.me.axu.q.loops, f.nest ≠ 0)
    ∧ (∀ f, inLoop.me.axu.q.loops.head? = some f → 2 + 1 ≤ f.last)
    ∧ next (exec (.loop h0 0 1) inLoop) (fun t => t.me.axu.q.loops.map (fun f => (f.nest, f.first, f.last)) == [(0, 2, 3), (1, 0, 3)] && t.me.axu.q.pc == 12)
    ∧ next (exec (.loop h0 1 0) inLoop) (fun t => halts t == some 1)
    ∧ next (exec (.loop h0 0 2) inLoop) (fun t => halts t == some 1) := by
  refine ⟨?_, ?_, ?_, ?_, ?_, ?_⟩ <;> ((try unfold EngReady); first | decide +kernel | (intro f h; simp [inLoop] at h; subst h; decide))

/-- LOOP n0, 3 opens four trips over four words (R332). -/
theorem test_loop :
    next (exec (.loop h0 0 3) (axuBase 0x1000 0x10)) (fun t => t.me.axu.q.loops == [{ nest := 0, trips := 4, trip := 0, first := 0, last := 3 }] && t.me.axu.q.lbase == 4) := by decide +kernel

/-- Lines of BF16 in two dimensions at 0x2000, with every right but row. -/
def lineEntry : BitVec 512 := entry 1 8 7 0 0 0x2000 [(64, 2), (4, 128)]

/-- `axuBase` in a fixed leg. -/
def axuFixed : State := { fixedBase with eng := .axu }

/-- A free generator in both legs; a cached entry of lines that LDH and STH may use, stepped by no nest and by nest 1, the last it has. -/
theorem test_witness_AccessUnitAccessWords :
    EngReady (axuBase 0x1000 0x10) .axu h0
    ∧ ((axuBase 0x1000 0x10).fixedLeg (axuBase 0x1000 0x10).cur = true → (axuBase 0x1000 0x10).me.axu.genBusy (axuBase 0x1000 0x10).chron = false)
    ∧ (EngReady axuFixed .axu h0 ∧ axuFixed.fixedLeg axuFixed.cur = true ∧ axuFixed.me.axu.genBusy axuFixed.chron = false)
    ∧ ((axuBase 0x1000 0x10).upd 0 fun k => { k with hcUnpinned := [(0x123, lineEntry)] }).me.cached 0x123 = some lineEntry
    ∧ handleCheck base.me.ctl.bfmt lineEntry [1, 4, 5, 6] .rd = none
    ∧ handleCheck base.me.ctl.bfmt lineEntry [1, 5, 6] .wr = none
    ∧ lineFormatOk lineEntry = true
    ∧ 1 < entNdim lineEntry
    ∧ lineEntry.toNat % 16 ≠ 4
    ∧ (axuBase 0x1000 0x10).fixedLeg (axuBase 0x1000 0x10).cur = false
    ∧ Running axuFixed 0
    ∧ axuFixed.partOf axuFixed.cur = some 0 := by
  refine ⟨?_, ?_, ?_, ?_, ?_, ?_, ?_, ?_, ?_, ?_, ?_, ?_⟩ <;> ((try unfold EngReady); (try unfold Running); decide +kernel)

/-- `axuBase` with an entry in the handle cache. -/
def through (e : BitVec 512) : State := (axuBase 0x1000 0x10).upd 0 fun k => { k with hcUnpinned := [(0x123, e)] }

/-- `axuBase` with a word in the generator. -/
def busyGen (s : State) : State :=
  s.upd 0 fun k => { k with axu := { k.axu with gen := [{ instr := .lds h0 1 0 0 0, pc := 0, id := 9, next := 0, count := 1, base := 0, stride := 0, cycle := 10001, snap := { pc := 0, queue := k.axu.q, a := k.axu.a, n := k.axu.n } }] } }

/-- The other forms of a handle word: a CSR entry, one of a type the word may not use, a format no line has, and a nest beyond its dimensions; a
busy generator in both legs (R325, R336, R337). -/
theorem test_witness_HandleForms :
    ((entry 4 7 7 0 0 0x2000 [(64, 4), (4, 4)]).toNat % 16 = 4 ∧ handleCheck base.me.ctl.bfmt (entry 4 7 7 0 0 0x2000 [(64, 4), (4, 4)]) [1, 4, 5, 6] .rd = none)
    ∧ handleCheck base.me.ctl.bfmt (entry 2 8 7 0 0 0x2000 [(64, 2)]) [1, 4, 5, 6] .rd = some 0x15
    ∧ next (exec (.ldh h0 0x123 0 0) (through (entry 2 8 7 0 0 0x2000 [(64, 2)]))) (fun t => halts t == some 0x15)
    ∧ (lineFormatOk (entry 1 6 7 0 0 0x2000 [(64, 2)]) = false ∧ handleCheck base.me.ctl.bfmt (entry 1 6 7 0 0 0x2000 [(64, 2)]) [1, 4, 5, 6] .rd = none)
    ∧ next (exec (.ldh h0 0x123 5 0) (through lineEntry)) (fun t => halts t == some 0x12)
    ∧ ((busyGen (axuBase 0x1000 0x10)).me.axu.genBusy 10000 = true ∧ EngReady (busyGen (axuBase 0x1000 0x10)) .axu h0)
    ∧ next (exec (.lds h0 1 0 0 15) (busyGen (axuBase 0x1000 0x10))) (fun t => t.me.axu.gen.length == 2)
    ∧ next (exec (.lds h0 1 0 0 15) (busyGen axuFixed)) (fun t => halts t == some 0x41)
    ∧ next (exec (.isect h0 2 4 3) (busyGen (axuBase 0x1000 0x10))) (fun t => t.me.axu.gen.length == 1 && t.me.axu.q.pc == 0) := by
  refine ⟨?_, ?_, ?_, ?_, ?_, ?_, ?_, ?_, ?_⟩ <;> ((try unfold EngReady); decide +kernel)

/-- LDS, STS, LDG and STG: cnt + 1 accesses from the base with the stride of the select, 128 without a nest (R334, R335); LDH: bound + 1 lines of its nest (R336). -/
theorem test_axu_streams :
    next (exec (.lds h0 1 0 0 15) (axuBase 0x1000 0x10)) (fun t => t.me.axu.gen.any fun j => j.count == 16 && j.base == 0x1000 && j.stride == 256)
    ∧ next (exec (.sts h0 1 7 1 0) (axuBase 0x1000 0x10)) (fun t => t.me.axu.gen.any fun j => j.count == 1 && j.base == 0x1000 && j.stride == 128)
    ∧ next (exec (.ldg h0 1 2 0 2 63) (axuBase 0x1000 0x10)) (fun t => t.me.axu.gen.any fun j => j.count == 64 && j.base == 0x1000 && j.stride == 1)
    ∧ next (exec (.stg h0 1 2 0 1 0) (axuBase 0x1000 0x10)) (fun t => t.me.axu.gen.any fun j => j.count == 1 && j.base == 0x1000 && j.stride == 8)
    ∧ next (exec (.ldh h0 0x123 0 0) ((axuBase 0x1000 0x10).upd 0 fun k => { k with hcUnpinned := [(0x123, lineEntry)] })) (fun t => t.me.axu.gen.any fun j => j.count == 4 && j.base == 0 && j.stride == 0)
    ∧ next (exec (.sth h0 0x123 7 0) ((axuBase 0x1000 0x10).upd 0 fun k => { k with hcUnpinned := [(0x123, lineEntry)] })) (fun t => t.me.axu.gen.any fun j => j.count == 1 && j.base == 0 && j.stride == 0) := by decide +kernel

/-- ISECT, IMERGE and ICNT go to the generator in a free leg; in a fixed leg they are deviation 0x41 (R340). -/
theorem test_sorted_sets :
    next (exec (.isect h0 2 4 3) (axuBase 0x1000 0x10)) (fun t => t.me.axu.gen.any fun j => j.count == 4 && j.base == 0 && j.stride == 0)
    ∧ next (exec (.imerge h0 2 4 3) (axuBase 0x1000 0x10)) (fun t => t.me.axu.gen.any fun j => j.count == 4 && j.base == 0 && j.stride == 0)
    ∧ next (exec (.icnt h0 2 4 true 5) (axuBase 0x1000 0x10)) (fun t => t.me.axu.gen.any fun j => j.count == 1 && j.base == 0 && j.stride == 0)
    ∧ next (exec (.isect h0 2 4 3) (axuFixed)) (fun t => halts t == some 0x41) := by decide +kernel

/-- A ring of two lines from bank 0 to bank 1 with a free generator, and one within bank 0. -/
theorem test_witness_AccessUnitRing :
    (EngReady (axuBase 0x1000 0x10) .axu h0 ∧ (axuBase 0x1000 0x10).me.axu.genBusy (axuBase 0x1000 0x10).chron = false)
    ∧ (match (axuBase 0x1000 0x10).me.ringPlan (axuBase 0x1000 0x10).cur 0x1000 0x80010 3 2 (axuBase 0x1000 0x10).chron with | .ok (_, cs, _, _) => ((axuBase 0x1000 0x10).me.pipe.hitAt cs).isNone | _ => false) = true
    ∧ (match (axuBase 0x1000 0x10).me.ringPlan (axuBase 0x1000 0x10).cur 0x1000 0x10 3 2 (axuBase 0x1000 0x10).chron with | .ok (_, cs, _, _) => ((axuBase 0x1000 0x10).me.pipe.hitAt cs).isNone | _ => false) = true := by
  refine ⟨?_, ?_, ?_⟩ <;> ((try unfold EngReady); decide +kernel)

/-- A state whose banks 0 and 1 of core 0 hold BF16. -/
def bf16 (s : State) : State := s.upd 0 fun k => { k with ctl := { k.ctl with bfmt := (k.ctl.bfmt.set 0 8).set 1 8 } }

/-- The other cases of RING: a source that is not aligned, a busy generator in both legs (R339). -/
theorem test_witness_RingCases :
    (match (bf16 (axuBase 0x1000 0x10)).me.ringPlan 0 0x1001 0x80000 3 2 10000 with | .error c => c == 0x13 | _ => false) = true
    ∧ (match (axuBase 0x1000 0x10).me.ringPlan 0 0x7FF80 0x80000 3 2 10000 with | .error c => c == 0x12 | _ => false) = true
    ∧ next (exec (.ring h0 1 2 3 1) (bf16 (axuBase 0x1001 0x80000))) (fun t => halts t == some 0x13)
    ∧ next (exec (.ring h0 1 2 3 1) (axuBase 0x7FF80 0x80000)) (fun t => halts t == some 0x12)
    ∧ next (exec (.ring h0 1 2 3 1) (busyGen (axuBase 0x1000 0x80000))) (fun t => t.me.axu.gen.length == 2)
    ∧ next (exec (.ring h0 1 2 3 1) (busyGen axuFixed)) (fun t => halts t == some 0x41) := by
  refine ⟨?_, ?_, ?_, ?_, ?_, ?_⟩ <;> (decide +kernel)

/-- `axuBase` with the banks 0 and 3 of its column in row mode, row r of bank 3 open since cycle 9,000, and row window 0 over them. -/
def axuRows (r : BitVec 11) : State :=
  ((axuBase 1 2).upd 0 fun k => { k with ctl := { k.ctl with rwin := k.ctl.rwin.set 0 { bmask := 9, rowlo := 1, rowhi := 2, v := true } } }).updCol 0
    fun k => { k with live := true, dram := (k.dram.set 0 2).set 3 2, rows := k.rows.set 3 (.open_ r 9000 0 none) }

/-- A closed bank outside its refresh slot, an open one, eight activations within 40 cycles, a bank within its slot, an invalid window. -/
theorem test_witness_RowBankWords :
    EngReady (axuRows 2) .axu h0
    ∧ (axuRows 2).rowTarget (axuRows 2).cur 0 0 1 true = .ok (0, 2)
    ∧ (((axuRows 2).col 0).rows[(0 : Fin 32)]).at_ (axuRows 2).chron = 0
    ∧ ((axuRows 2).col 0).inSlot 0 (axuRows 2).chron = false
    ∧ (((axuRows 2).col 0).acts.filter fun x => decide ((axuRows 2).chron < x + 40)).length < 8
    ∧ (axuRows 2).rowTarget (axuRows 2).cur 0 1 1 true = .ok (3, 2)
    ∧ (((axuRows 2).col 0).rows[(3 : Fin 32)]).at_ (axuRows 2).chron = 1
    ∧ ((axuRows 2).col 0).rows[3] = .open_ 2 9000 0 none
    ∧ 8 ≤ ((((axuRows 2).updCol 0 fun k => { k with acts := List.replicate 8 9961 }).col 0).acts.filter fun x => decide (10000 < x + 40)).length
    ∧ (({ axuRows 2 with chron := 71 } : State).col 0).inSlot 0 71 = true
    ∧ (axuRows 2).me.ctl.rwin[(1 : Fin 4)].v = false
    ∧ Running (axuRows 2) 0
    ∧ (axuRows 2).rowTarget (axuRows 2).cur 0 1 0 false = .ok (3, 1) := by
  refine ⟨?_, ?_, ?_, ?_, ?_, ?_, ?_, ?_, ?_, ?_, ?_, ?_, ?_⟩ <;> ((try unfold EngReady); (try unfold Running); decide +kernel)

/-- RACT opens row ROWLO + a, twice is 0x52 (R345); row beyond ROWHI is 0x56; RPRE ends after the last beat (R347); RSTAT reads state 1, row 1 of the window and the cycles open (R348). -/
theorem test_rows :
    next (exec (.ract h0 0 0 1) (axuRows 2)) (fun t => t.col 0 |>.rows[(0 : Fin 32)] |> (· == .open_ 2 10000 0 none))
    ∧ next (exec (.ract h0 0 1 1) (axuRows 2)) (fun t => halts t == some 0x52)
    ∧ next (exec (.ract h0 0 0 2) (axuRows 2)) (fun t => halts t == some 0x56)
    ∧ next (exec (.ract h0 1 0 1) (axuRows 2)) (fun t => halts t == some 0x56)
    ∧ next (exec (.rpre h0 0 1 1) (axuRows 2)) (fun t => (t.col 0).rows[(3 : Fin 32)] == .open_ 2 9000 0 (some 10000))
    ∧ next (exec (.rstat h0 0 1 5) (axuRows 2)) (fun t => t.me.axu.a[5].toNat % 2 ^ 48 == 1 + 65536 * 1 + 2 ^ 32 * 1000) := by decide +kernel

/-- RACT within 40 cycles of eight others and within the bank's slot, RPRE before TRASMIN = 36 cycles, on a closed bank, and through an invalid
window (R211, R215, R345, R347, R348). -/
theorem test_row_faults :
    next (exec (.ract h0 0 0 1) ((axuRows 2).updCol 0 fun k => { k with acts := List.replicate 8 9961 })) (fun t => halts t == some 0x59)
    ∧ next (exec (.ract h0 0 0 1) { axuRows 2 with chron := 71 }) (fun t => halts t == some 0x53)
    ∧ next (exec (.rpre h0 0 1 1) ((axuRows 2).updCol 0 fun k => { k with rows := k.rows.set 3 (.open_ 2 9965 0 none) })) (fun t => halts t == some 0x58)
    ∧ next (exec (.rpre h0 0 1 1) ((axuRows 2).updCol 0 fun k => { k with rows := k.rows.set 3 (.open_ 2 9964 0 none) })) (fun t => halts t == none)
    ∧ next (exec (.rpre h0 0 0 1) (axuRows 2)) (fun t => halts t == none && (t.col 0).rows[(0 : Fin 32)] == ((axuRows 2).col 0).rows[(0 : Fin 32)])
    ∧ next (exec (.rpre h0 1 0 1) (axuRows 2)) (fun t => halts t == some 0x56)
    ∧ next (exec (.rstat h0 1 0 1) (axuRows 2)) (fun t => halts t == some 0x56) := by
  refine ⟨?_, ?_, ?_, ?_, ?_, ?_, ?_⟩ <;> (decide +kernel)

/-- `axuRows 2` with a2, which RCON to a lane takes its place from. -/
def rowsTo (x : Word) : State := (axuRows 2).upd 0 fun k => { k with axu := { k.axu with a := (k.axu.a.set 2 1).set 3 x } }

/-- RCON to lane 4, into bank 0 of the own scratchpad, and its faults: another row than the one open, TRCD = 18 cycles not over, a place not aligned,
a span that leaves its bank (R100, R211, R346). -/
theorem test_witness_RowConsumeToLane :
    ((rowsTo 0x1000).rowTarget 0 0 1 1 true = .ok (3, 2) ∧ ((rowsTo 0x1000).col 0).laneEnd < 10002)
    ∧ (rowsTo 0x1000).me.pipe.hitAt (laneClaims 4 4 10002 64 (laneDist 4 4 (bankStop (bankOf 0x1000)))
        ++ [wrClaim (bankOf 0x1000) (10002 + laneDist 4 4 (bankStop (bankOf 0x1000))) 64]) = none
    ∧ next (exec (.rcon h0 0 1 2 0 4) (rowsTo 0x1000)) (fun t => halts t == none && (t.col 0).burstDst == 4 && (t.col 0).burstEnd == 10016)
    ∧ next (exec (.rcon h0 0 1 2 0 16) ((rowsTo 0).upd 0 fun k => { k with axu := { k.axu with a := k.axu.a.set 2 0 } })) (fun t => halts t == some 0x57)
    ∧ next (exec (.rcon h0 0 1 2 0 16) ((rowsTo 0).updCol 0 fun k => { k with rows := k.rows.set 3 (.open_ 2 9983 0 none) })) (fun t => halts t == some 0x51)
    ∧ next (exec (.rcon h0 0 1 2 0 4) (rowsTo 0x1040)) (fun t => halts t == some 0x13)
    ∧ next (exec (.rcon h0 0 1 2 0 4) (rowsTo 0x7E080)) (fun t => halts t == some 0x12)
    ∧ next (exec (.rcon h0 1 1 2 0 4) (rowsTo 0x1000)) (fun t => halts t == some 0x56) := by
  refine ⟨?_, ?_, ?_, ?_, ?_, ?_, ?_, ?_⟩ <;> (decide +kernel)

/-- Row 2 of bank 3 open, at full and at half width. -/
theorem test_witness_RowConsumeWord :
    ((match (axuRows 2).rowTarget (axuRows 2).cur 0 1 1 true with | .ok x => x == (3, 2) | _ => false) = true ∧ ((axuRows 2).col 0).burstEnd ≤ (axuRows 2).chron ∧ (axuRows 2).me.bke.stall = none ∧ (axuRows 2).me.bke.rowLastUse = 0 ∧ 9000 + 18 ≤ (axuRows 2).chron ∧ EngReady (axuRows 2) .axu h0)
    ∧ ((match ((axuRows 2).updCol 0 fun k => { k with half := true }).rowTarget ((axuRows 2).updCol 0 fun k => { k with half := true }).cur 0 1 1 true with | .ok x => x == (3, 2) | _ => false) = true ∧ (((axuRows 2).updCol 0 fun k => { k with half := true }).col 0).burstEnd ≤ ((axuRows 2).updCol 0 fun k => { k with half := true }).chron ∧ ((axuRows 2).updCol 0 fun k => { k with half := true }).me.bke.stall = none ∧ ((axuRows 2).updCol 0 fun k => { k with half := true }).me.bke.rowLastUse = 0 ∧ 9000 + 18 ≤ ((axuRows 2).updCol 0 fun k => { k with half := true }).chron ∧ EngReady ((axuRows 2).updCol 0 fun k => { k with half := true }) .axu h0)
    ∧ ((((axuRows 2).updCol 0 fun k => { k with half := true }).col 0).rows[(3 : Fin 32)]).at_ ((axuRows 2).updCol 0 fun k => { k with half := true }).chron = 1 := by
  refine ⟨?_, ?_, ?_⟩ <;> ((try unfold EngReady); decide +kernel)

/-- RCON to the row input: 16 beats of a full row, 32 at half width (R212, R346). -/
theorem test_rcon :
    next (exec (.rcon h0 0 1 1 0 16) (axuRows 2)) (fun t => (t.col 0).burstEnd == 10016 && t.me.bke.rowMask == 0)
    ∧ next (exec (.rcon h0 0 1 1 0 16) ((axuRows 2).updCol 0 fun k => { k with half := true })) (fun t => (t.col 0).burstEnd == 10032) := by decide +kernel

/-! ## Words of the BKE -/

/-- One row of 64 INT8 activations and its scales in the own scratchpad; raw bytes there; a T2 code-plane tile and a T2 steer tile of 32
rows and one column there. -/
def actEntry : BitVec 512 := entry 1 1 1 0 0 (spadIa + 0x1000) [(64, 1), (1, 64)]
def scaleEntry : BitVec 512 := entry 1 15 1 0 0 (spadIa + 0x2000) [(1, 1), (1, 1)]
def rawEntry : BitVec 512 := entry 1 0 1 0 0 (spadIa + 0x3000) [(96, 1)]
def planeEntry : BitVec 512 := entry 2 0 1 0 1 (spadIa + 0x4000) [(1, 0), (256, 0)]

def steerEntry : BitVec 512 := entry 3 0 1 0 1 (spadIa + 0x5000) [(1, 1024), (64, 0)] + BitVec.ofNat 512 (2 ^ 256 * 0x400 + 2 ^ 448 * 0x40)

/-- `base` with the BKE's word at hand, those entries cached from 0x40 on, and every slice bank live. -/
def bkeBase : State :=
  { baseC fun k => { k with
      hcUnpinned := [(0x40, actEntry), (0x41, scaleEntry), (0x42, rawEntry), (0x43, planeEntry), (0x44, steerEntry)]
      bke := { k.bke with n := k.bke.n.set 0 { bound := 3, pos := 1 }, vis := k.bke.vis.set 0 { value := 1 }, work := k.bke.work.set 0 { value := 2 } } } with
    eng := .bke }.updCol 0 fun k => { k with live := true, slice := Vector.replicate 48 1 }

/-- `bkeBase` inside a loop. -/
def bkeLoop : State :=
  bkeBase.upd 0 fun k => { k with bke := { k.bke with q := { k.bke.q with loops := [{ nest := 0, trips := 2, trip := 0, first := 0, last := 3 }] } } }

/-- A free BKE outside a loop. -/
theorem test_witness_BucketEngineImmediateWords :
    EngReady bkeBase .bke h0
    ∧ BkeIdle bkeBase
    ∧ bkeBase.me.pipe.until_ bAdders bkeBase.chron = false
    ∧ bkeBase.me.pipe.bankHit false bkeBase.chron bkeBase.chron = none
    ∧ bkeBase.me.pipe.until_ bNest bkeBase.chron = false
    ∧ bkeBase.me.bke.q.loops = [] := by
  refine ⟨?_, ?_, ?_, ?_, ?_, ?_⟩ <;> ((try unfold EngReady); (try unfold BkeIdle); decide +kernel)

/-- A LOOP of the BKE within an open one: of its nest, and one that would leave it, are hard fault 0x01 (R370). -/
theorem test_witness_BucketEngineLoopFaults :
    (EngReady bkeLoop .bke h0 ∧ bkeLoop.me.pipe.until_ bNest bkeLoop.chron = false ∧ bkeLoop.partOf bkeLoop.cur = some 0)
    ∧ Running bkeLoop 0
    ∧ next (exec (.loopBke h0 0 0) bkeLoop) (fun t => halts t == some 1)
    ∧ next (exec (.loopBke h0 1 3) bkeLoop) (fun t => halts t == some 1)
    ∧ next (exec (.loopBke h0 1 1) bkeLoop) (fun t => t.me.bke.q.loops.length == 2)
    ∧ next (exec (.loopBke h0 6 0) bkeBase) (fun t => halts t == some 1) := by
  refine ⟨?_, ?_, ?_, ?_, ?_, ?_⟩ <;> ((try unfold EngReady); (try unfold Running); decide +kernel)

/-- ZSWAP exchanges the banks (R363), ZCLR clears visible lanes alone (R366), LEND steps its nest (R370), BCLR empties the buckets (R360). -/
theorem test_bke_immediate :
    next (exec (.zswap h0) (bkeBase)) (fun t => t.me.bke.vis[0].value == 2 && t.me.bke.work[0].value == 1)
    ∧ next (exec (.zclr h0 0 0) (bkeBase)) (fun t => t.me.bke.vis[0].value == 0 && t.me.bke.work[0].value == 2)
    ∧ next (exec (.zclr h0 1 255) (bkeBase)) (fun t => t.me.bke.vis[0].value == 1)
    ∧ next (exec (.lendBke h0 0) (bkeBase)) (fun t => t.me.bke.n[0].pos == 2)
    ∧ next (exec (.bclr h0) ( bkeBase.upd 0 fun k => { k with bke := { k.bke with blive := true } })) (fun t => !t.me.bke.blive)
    ∧ next (exec (.loopBke h0 0 3) (bkeBase)) (fun t => t.me.bke.q.loops.length == 1 && t.me.bke.q.lbase == 4) := by decide +kernel

/-- Segment 1 of a cached activation operand and its scales in the own scratchpad, and 96 raw bytes there; BWIN.cfg inside a loop. -/
theorem test_witness_BucketEngineLoads :
    EngReady bkeBase .bke h0
    ∧ BkeIdle bkeBase
    ∧ BkeEntry bkeBase 0x40 [1] .rd actEntry
    ∧ BkeEntry bkeBase 0x41 [1] .rd scaleEntry
    ∧ BkeEntry bkeBase 0x42 [1] .rd rawEntry
    ∧ (entFmt actEntry = 1 ∧ entNdim actEntry = 2 ∧ entStr actEntry 0 = 1 ∧ entBound actEntry 1 = 1)
    ∧ (entFmt scaleEntry = 15 ∧ entNdim scaleEntry = 2 ∧ entBound scaleEntry 1 = 1)
    ∧ (engCore bkeBase .bke h0).bke.coord 0 = 1
    ∧ (32 * 1 + 31 < entBound actEntry 0 ∧ 32 * 1 / entBlk actEntry < entBound scaleEntry 0)
    ∧ bkeBase.srcRanges 0 0 [(elemAddr actEntry [32, 0], 32)] = .ok [(0x1020, 32)]
    ∧ bkeBase.srcRanges 0 0 [(elemAddr scaleEntry [0, 0], 1)] = .ok [(0x2000, 1)]
    ∧ (entFmt rawEntry = 0 ∧ 96 ≤ entBound rawEntry 0)
    ∧ bkeBase.srcOff bkeBase.cur 0 (entBase rawEntry) 96 = some 0x3000
    ∧ bkeLoop.me.bke.q.loops ≠ []
    ∧ EngReady bkeLoop .bke h0
    ∧ Running bkeLoop 0
    ∧ bkeLoop.partOf bkeLoop.cur = some 0 := by
  refine ⟨?_, ?_, ?_, ?_, ?_, ?_, ?_, ?_, ?_, ?_, ?_, ?_, ?_, ?_, ?_, ?_, ?_⟩ <;> ((try unfold EngReady); (try unfold BkeIdle); (try unfold BkeEntry); (try unfold Running); decide +kernel)

/-- BWIN, BWIN.cfg and CBLD fly until their source has arrived (R353); BWIN.cfg inside a loop is reserved, 0x01 (R357). -/
theorem test_bke_loads :
    next (exec (.bwin h0 0x40 0 0) (bkeBase)) (fun t => t.me.pipe.infl.any fun w => w.instr == .bwin h0 0x40 0 0 && w.doneAt == 10002 + 2 * bkDist 0)
    ∧ next (exec (.bwinCfg h0 0x42) (bkeBase)) (fun t => t.me.pipe.infl.any fun w => w.doneAt == 10001 + 2 * bkDist 0)
    ∧ next (exec (.cbld h0 0x42 3) (bkeBase)) (fun t => t.me.pipe.infl.any fun w => w.instr == .cbld h0 0x42 3)
    ∧ next (exec (.bwinCfg h0 0x42) (bkeLoop)) (fun t => halts t == some 1) := by decide +kernel

/-- A code-plane tile and a steer tile of zeros in the own scratchpad, under the reset window. -/
theorem test_witness_BucketEngineTiles :
    BkeEntry bkeBase 0x43 [2] .rd planeEntry
    ∧ BkeEntry bkeBase 0x44 [3] .rd steerEntry
    ∧ (entCode planeEntry = 1 ∧ entCode steerEntry = 1)
    ∧ (bkeBase.me.bke.wseg < entBound planeEntry 0 ∧ bkeBase.me.bke.wnb = 1)
    ∧ (tileWalk false (bkeBase.peek 0 0 []) planeEntry 0 0 256).err = none
    ∧ (match bkeBase.srcRanges 0 0 (tileWalk false (bkeBase.peek 0 0 []) planeEntry 0 0 256).ranges with | .ok _ => true | _ => false) = true
    ∧ (tileWalk true (bkeBase.peek 0 0 []) steerEntry 0 0 64).err = none
    ∧ EngReady bkeBase .bke h0
    ∧ BkeIdle bkeBase := by
  refine ⟨?_, ?_, ?_, ?_, ?_, ?_, ?_, ?_, ?_⟩ <;> ((try unfold EngReady); (try unfold BkeIdle); (try unfold BkeEntry); decide +kernel)

/-- `bkeBase` with a code-plane tile of zeros in the row input, all of it delivered. -/
def rowBase : State :=
  bkeBase.upd 0 fun k => { k with hcUnpinned := [(0x45, entry 2 0 8 0 1 0 [(1, 0), (256, 0)])], bke := { k.bke with rowMask := BitVec.allOnes 8192 } }

/-- A tile of the row input (R352, R359). -/
theorem test_witness_RowTile :
    BkeEntry rowBase 0x45 [2] .row (entry 2 0 8 0 1 0 [(1, 0), (256, 0)])
    ∧ (EngReady rowBase .bke h0 ∧ BkeIdle rowBase)
    ∧ (tileWalk false (rowBase.peek 0 2 (rowBase.rowPeek 0)) (entry 2 0 8 0 1 0 [(1, 0), (256, 0)]) 0 0 256).err = none
    ∧ (match rowBase.srcRanges 0 2 (tileWalk false (rowBase.peek 0 2 (rowBase.rowPeek 0)) (entry 2 0 8 0 1 0 [(1, 0), (256, 0)]) 0 0 256).ranges with
        | .ok rs => (rowBase.srcPlan 0 2 10000 rs).stuck == none && (rowBase.srcPlan 0 2 10000 rs).undelivered == none | _ => false) = true
    ∧ next (exec (.bplane h0 0x45 7 2) rowBase) (fun t => t.me.pipe.infl.any fun w => w.doneAt == 10001 && t.me.bke.rowLastUse == 10000) := by
  refine ⟨?_, ?_, ?_, ?_, ?_⟩ <;> ((try unfold EngReady); (try unfold BkeIdle); (try unfold BkeEntry); decide +kernel)

/-- BPLANE and BSTEER hold the adders (R353). -/
theorem test_bke_tiles :
    next (exec (.bplane h0 0x43 7 0) (bkeBase)) (fun t => t.me.pipe.infl.any fun w => w.instr == .bplane h0 0x43 7 0)
    ∧ next (exec (.bsteer h0 0x44 7 0) (bkeBase)) (fun t => t.me.pipe.infl.any fun w => w.instr == .bsteer h0 0x44 7 0)
    ∧ next (exec (.bsteer h0 0x43 7 0) (bkeBase)) (fun t => halts t == some 0x15) := by decide +kernel

/-- A free array; offsets 0 of the scratchpad and of a live slice, for one line and for four. -/
theorem test_witness_BucketEngineProducts :
    (EngReady bkeBase .bke h0 ∧ BkeIdle bkeBase)
    ∧ ((engCore bkeBase .bke h0).bke.offset 0 = 0 ∧ (engCore bkeBase .bke h0).bke.offset 1 = 0)
    ∧ (bkeBase.sliceOk 0 0 = true ∧ bkeBase.sliceOk 0 (128 * 4 - 1) = true)
    ∧ ¬ (base.sliceOk 0 0 = true) := by
  refine ⟨?_, ?_, ?_, ?_⟩ <;> ((try unfold EngReady); (try unfold BkeIdle); decide +kernel)

/-- MULB of T2 codes holds the array 2 cycles and clears the buckets (R361, R206); MACD takes n × KK array cycles after 2d (R362). -/
theorem test_bke_products :
    next (exec (.mulb h0 0) (bkeBase)) (fun t => t.me.pipe.infl.any fun w => w.doneAt == 10001)
    ∧ next (exec (.macd h0 0 0 7 3) (bkeBase)) (fun t => t.me.pipe.infl.any fun w => w.doneAt == 10000 + 2 * laneDist 0 (bankStop 0) 9 + 16)
    ∧ next (exec (.macd h0 0 1 7 0) (bkeBase)) (fun t => t.me.pipe.infl.any fun w => w.doneAt == 10000 + 2 * laneDist 0 (bankStop 0) 9 + 8) := by decide +kernel

/-- Offset 0 for lanes 0 to 255 of each form. -/
theorem test_witness_BucketEngineAccumulatorPort :
    (EngReady bkeBase .bke h0 ∧ BkeIdle bkeBase)
    ∧ PortAt bkeBase 0 (96 * (255 + 1 - 0)) 32 0
    ∧ PortAt bkeBase 0 (96 * (0 + 1 - 0)) 32 0
    ∧ PortAt bkeBase 0 (2 * 256) 2 0
    ∧ PortAt bkeBase 0 128 128 0
    ∧ PortAt bkeBase 0 (256 + 256 / 32) 1 0 := by
  refine ⟨?_, ?_, ?_, ?_, ?_, ?_⟩ <;> ((try unfold EngReady); (try unfold BkeIdle); (try unfold PortAt); decide +kernel)

/-- ZSPILL of lane 0 writes 96 bytes, the value first (R367); ZDRAIN.f32 of 1 lane writes the rounded value (R365); ZSTAT writes 128 bytes (R369); ZFILL and ZADDV fly. -/
theorem test_bke_port :
    next (exec (.zspill h0 0 0 false 0) (bkeBase)) (fun t => t.me.pipe.infl.any fun w => (w.beats.map fun b => (b.len, b.write)) == [(96, true)])
    ∧ next (exec (.zspill h0 0 255 true 0) (bkeBase)) (fun t => t.me.pipe.infl.any fun w => w.beats.length == 192)
    ∧ next (exec (.zdrain h0 0 0 0 0) (bkeBase)) (fun t => t.me.pipe.infl.any fun w => (w.beats.map fun b => b.len) == [4])
    ∧ next (exec (.zstat h0 0 false 0) (bkeBase)) (fun t => t.me.pipe.infl.any fun w => (w.beats.map fun b => b.len) == [128])
    ∧ next (exec (.zfill h0 0 0 false 0) (bkeBase)) (fun t => t.me.pipe.infl != [])
    ∧ next (exec (.zaddv h0 0 63 false 1 0) (bkeBase)) (fun t => t.me.pipe.infl != []) := by decide +kernel

/-! ## Words of the VEC -/

/-- `base` with the VEC's word at hand, shape 2 × 2, registers v1 and v2, and predicate k1. -/
def vecBase (x y k : Nat) : State :=
  { baseC fun c => { c with
      ctl := { c.ctl with vsh := 0x10001 }
      vec := { c.vec with v := (c.vec.v.set 1 (BitVec.ofNat 32768 x)).set 2 (BitVec.ofNat 32768 y), k := c.vec.k.set 1 (BitVec.ofNat 4096 k) } } with
    eng := .vec }

/-- Elements of width w, the first four, of register d as the VEC word in flight will write it. -/
def vres (t : State) (d w : Nat) : List Nat :=
  match t.me.pipe.infl.getLast? with
  | some x => let v := t.me.vec.write (imagesOf (x.lat.drop 6))
    (List.range 4).map fun e => v.elem d w e
  | none => []

/-- The first four bits of predicate d as the VEC word in flight will write it. -/
def kres (t : State) (d : Nat) : List Bool :=
  match t.me.pipe.infl.getLast? with
  | some x => let v := t.me.vec.write (imagesOf (x.lat.drop 6))
    (List.range 4).map fun e => v.pred d e
  | none => []

/-- Two sources and a destination of four elements at each width, a destination that is a source, and one pending register that keeps a word back. -/
theorem test_witness_VectorArithmeticWords :
    VecMay (vecBase 0x80000000ffffffff0000000200000001 0x2100000001ffffffff00000003 0) h0 0 { src := [{ base := 1, w := 32, cnt := some 4 }, { base := 2, w := 32, cnt := some 4 }], dst := [{ base := 3, w := 32, cnt := some 4 }], kr := [], kw := [] }
    ∧ VecMay (vecBase 0x80000000ffffffff0000000200000001 0x2100000001ffffffff00000003 0) h0 0 { src := [{ base := 1, w := 16, cnt := some 4 }, { base := 2, w := 16, cnt := some 4 }], dst := [{ base := 1, w := 16, cnt := some 4 }], kr := [], kw := [] }
    ∧ VecMay (vecBase 0x80000000ffffffff0000000200000001 0x2100000001ffffffff00000003 0) h0 0 { src := [{ base := 1, w := 8, cnt := some 4 }, { base := 2, w := 8, cnt := some 4 }], dst := [{ base := 31, w := 8, cnt := some 4 }], kr := [], kw := [] }
    ∧ ¬ VecMay ((vecBase 0x80000000ffffffff0000000200000001 0x2100000001ffffffff00000003 0).upd 0 fun k => { k with vec := { k.vec with vReady := k.vec.vReady.set 1 10001 } }) h0 0 { src := [{ base := 1, w := 32, cnt := some 4 }, { base := 2, w := 32, cnt := some 4 }], dst := [{ base := 3, w := 32, cnt := some 4 }], kr := [], kw := [] }
    ∧ ((vecBase 0x80000000ffffffff0000000200000001 0x2100000001ffffffff00000003 0).me.shape (vecBase 0x80000000ffffffff0000000200000001 0x2100000001ffffffff00000003 0).chron).n = 4 := by
  refine ⟨?_, ?_, ?_, ?_, ?_⟩ <;> ((try unfold VecMay); (try unfold EngReady); decide +kernel)

/-- Modulo 2^w, signed minimum and maximum, and shifts by low(b, log2 w) (R388). -/
theorem test_vec_int :
    next (exec (.viadd h0 0 false 3 1 2 0) (vecBase 0x80000000ffffffff0000000200000001 0x2100000001ffffffff00000003 0)) (fun t => vres t 3 32 == [0x4, 0x1, 0x0, 0x80000021])
    ∧ next (exec (.visub h0 0 false 3 1 2 0) (vecBase 0x80000000ffffffff0000000200000001 0x2100000001ffffffff00000003 0)) (fun t => vres t 3 32 == [0xfffffffe, 0x3, 0xfffffffe, 0x7fffffdf])
    ∧ next (exec (.vimul h0 0 false 3 1 2 0) (vecBase 0x80000000ffffffff0000000200000001 0x2100000001ffffffff00000003 0)) (fun t => vres t 3 32 == [0x3, 0xfffffffe, 0xffffffff, 0x80000000])
    ∧ next (exec (.vimin h0 0 false 3 1 2 0) (vecBase 0x80000000ffffffff0000000200000001 0x2100000001ffffffff00000003 0)) (fun t => vres t 3 32 == [0x1, 0xffffffff, 0xffffffff, 0x80000000])
    ∧ next (exec (.vimax h0 0 false 3 1 2 0) (vecBase 0x80000000ffffffff0000000200000001 0x2100000001ffffffff00000003 0)) (fun t => vres t 3 32 == [0x3, 0x2, 0x1, 0x21])
    ∧ next (exec (.vand h0 0 false 3 1 2 0) (vecBase 0x80000000ffffffff0000000200000001 0x2100000001ffffffff00000003 0)) (fun t => vres t 3 32 == [0x1, 0x2, 0x1, 0x0])
    ∧ next (exec (.vor h0 0 false 3 1 2 0) (vecBase 0x80000000ffffffff0000000200000001 0x2100000001ffffffff00000003 0)) (fun t => vres t 3 32 == [0x3, 0xffffffff, 0xffffffff, 0x80000021])
    ∧ next (exec (.vxor h0 0 false 3 1 2 0) (vecBase 0x80000000ffffffff0000000200000001 0x2100000001ffffffff00000003 0)) (fun t => vres t 3 32 == [0x2, 0xfffffffd, 0xfffffffe, 0x80000021])
    ∧ next (exec (.vshl h0 0 false 3 1 2 0) (vecBase 0x80000000ffffffff0000000200000001 0x2100000001ffffffff00000003 0)) (fun t => vres t 3 32 == [0x8, 0x0, 0xfffffffe, 0x0])
    ∧ next (exec (.vshr h0 0 false 3 1 2 0) (vecBase 0x80000000ffffffff0000000200000001 0x2100000001ffffffff00000003 0)) (fun t => vres t 3 32 == [0x0, 0x0, 0x7fffffff, 0x40000000])
    ∧ next (exec (.vsra h0 0 false 3 1 2 0) (vecBase 0x80000000ffffffff0000000200000001 0x2100000001ffffffff00000003 0)) (fun t => vres t 3 32 == [0x0, 0x0, 0xffffffff, 0xc0000000]) := by
  refine ⟨?_, ?_, ?_, ?_, ?_, ?_, ?_, ?_, ?_, ?_, ?_⟩ <;> (decide +kernel)

/-- A guard leaves the elements it does not select (R377); its inverse the others; bytes wrap at 8 bits. -/
theorem test_vec_guard :
    next (exec (.viadd h0 1 false 1 1 2 0) (vecBase 0x80000000ffffffff0000000200000001 0x2100000001ffffffff00000003 5)) (fun t => vres t 1 32 == [0x4, 0x2, 0x0, 0x80000000])
    ∧ next (exec (.viadd h0 1 true 1 1 2 0) (vecBase 0x80000000ffffffff0000000200000001 0x2100000001ffffffff00000003 5)) (fun t => vres t 1 32 == [0x1, 0x1, 0xffffffff, 0x80000021])
    ∧ next (exec (.viadd h0 0 false 3 1 2 2) (vecBase 0x30201ff 0x80010101 0)) (fun t => vres t 3 8 == [0x0, 0x2, 0x3, 0x83]) := by decide +kernel

/-- FP32 results; 0 × −0 is −0, 0 / −0 the canonical NaN (R384, R226). -/
theorem test_vec_float :
    next (exec (.vadd h0 0 false 3 1 2 0) (vecBase 0x4040000000000000c00000003fc00000 0x4040000080000000408000003f000000 0)) (fun t => vres t 3 32 == [0x40000000, 0x40000000, 0x0, 0x40c00000])
    ∧ next (exec (.vsub h0 0 false 3 1 2 0) (vecBase 0x4040000000000000c00000003fc00000 0x4040000080000000408000003f000000 0)) (fun t => vres t 3 32 == [0x3f800000, 0xc0c00000, 0x0, 0x0])
    ∧ next (exec (.vmul h0 0 false 3 1 2 0) (vecBase 0x4040000000000000c00000003fc00000 0x4040000080000000408000003f000000 0)) (fun t => vres t 3 32 == [0x3f400000, 0xc1000000, 0x80000000, 0x41100000])
    ∧ next (exec (.vdiv h0 0 false 3 1 2 0) (vecBase 0x4040000000000000c00000003fc00000 0x4040000080000000408000003f000000 0)) (fun t => vres t 3 32 == [0x40400000, 0xbf000000, 0x7fc00000, 0x3f800000])
    ∧ next (exec (.vsqrt h0 0 false 3 2 0) (vecBase 0x4040000000000000c00000003fc00000 0x4040000080000000408000003f000000 0)) (fun t => vres t 3 32 == [0x3f3504f3, 0x40000000, 0x80000000, 0x3fddb3d7]) := by decide +kernel

/-- VFMA is a × b + c, VFMS a × b − c, VFNMA c − a × b, with vd the third source (R385). -/
theorem test_vec_fused :
    next (exec (.vfma h0 0 false 3 1 2 0) ((vecBase 0x4040000000000000c00000003fc00000 0x4040000080000000408000003f000000 0).upd 0 fun k => { k with vec := { k.vec with v := k.vec.v.set 3 (BitVec.ofNat 32768 0x3f8000003f8000003f8000003f800000) } })) (fun t => vres t 3 32 == [0x3fe00000, 0xc0e00000, 0x3f800000, 0x41200000])
    ∧ next (exec (.vfms h0 0 false 3 1 2 0) ((vecBase 0x4040000000000000c00000003fc00000 0x4040000080000000408000003f000000 0).upd 0 fun k => { k with vec := { k.vec with v := k.vec.v.set 3 (BitVec.ofNat 32768 0x3f8000003f8000003f8000003f800000) } })) (fun t => vres t 3 32 == [0xbe800000, 0xc1100000, 0xbf800000, 0x41000000])
    ∧ next (exec (.vfnma h0 0 false 3 1 2 0) ((vecBase 0x4040000000000000c00000003fc00000 0x4040000080000000408000003f000000 0).upd 0 fun k => { k with vec := { k.vec with v := k.vec.v.set 3 (BitVec.ofNat 32768 0x3f8000003f8000003f8000003f800000) } })) (fun t => vres t 3 32 == [0x3e800000, 0x41100000, 0x3f800000, 0xc1000000]) := by decide +kernel

/-- Four FP32 elements, one and two sources. -/
theorem test_witness_VectorSelectSignAndFunctionWords :
    VecMay (vecBase 0x4040000000000000c00000003fc00000 0x4040000080000000408000003f000000 0) h0 0 { src := [{ base := 1, w := 32, cnt := some 4 }, { base := 2, w := 32, cnt := some 4 }], dst := [{ base := 3, w := 32, cnt := some 4 }], kr := [], kw := [] }
    ∧ VecMay (vecBase 0x4040000000000000c00000003fc00000 0x4040000080000000408000003f000000 0) h0 7 { src := [{ base := 1, w := 32, cnt := some 4 }], dst := [{ base := 3, w := 32, cnt := some 4 }], kr := [], kw := [] }
    ∧ VecMay (vecBase 0x4040000000000000c00000003fc00000 0x4040000080000000408000003f000000 0) h0 0 { src := [{ base := 1, w := 16, cnt := some 4 }], dst := [{ base := 1, w := 16, cnt := some 4 }], kr := [], kw := [] } := by
  refine ⟨?_, ?_, ?_⟩ <;> ((try unfold VecMay); (try unfold EngReady); decide +kernel)

/-- −0 orders below +0 and one NaN gives the other operand (R386); VABS, VNEG, VCPYS (R387); VRND to nearest even and toward zero (R397). -/
theorem test_vec_minmax_sign :
    next (exec (.vmin h0 0 false 3 1 2 0) (vecBase 0x40200000c0000000000000007fc00000 0xc04000007fc00000800000003f800000 0)) (fun t => vres t 3 32 == [0x3f800000, 0x80000000, 0xc0000000, 0xc0400000])
    ∧ next (exec (.vmax h0 0 false 3 1 2 0) (vecBase 0x40200000c0000000000000007fc00000 0xc04000007fc00000800000003f800000 0)) (fun t => vres t 3 32 == [0x3f800000, 0x0, 0xc0000000, 0x40200000])
    ∧ next (exec (.vabs h0 0 false 3 1 0) (vecBase 0x40200000c0000000000000007fc00000 0xc04000007fc00000800000003f800000 0)) (fun t => vres t 3 32 == [0x7fc00000, 0x0, 0x40000000, 0x40200000])
    ∧ next (exec (.vneg h0 0 false 3 1 0) (vecBase 0x40200000c0000000000000007fc00000 0xc04000007fc00000800000003f800000 0)) (fun t => vres t 3 32 == [0x7fc00000, 0x80000000, 0x40000000, 0xc0200000])
    ∧ next (exec (.vcpys h0 0 false 3 1 2 0) (vecBase 0x40200000c0000000000000007fc00000 0xc04000007fc00000800000003f800000 0)) (fun t => vres t 3 32 == [0x7fc00000, 0x80000000, 0x40000000, 0xc0200000])
    ∧ next (exec (.vrnd h0 0 false 3 1 0 0) (vecBase 0x40200000c0000000000000007fc00000 0xc04000007fc00000800000003f800000 0)) (fun t => vres t 3 32 == [0x7fc00000, 0x0, 0xc0000000, 0x40000000])
    ∧ next (exec (.vrnd h0 0 false 3 1 1 0) (vecBase 0x40200000c0000000000000007fc00000 0xc04000007fc00000800000003f800000 0)) (fun t => vres t 3 32 == [0x7fc00000, 0x0, 0xc0000000, 0x40000000]) := by
  refine ⟨?_, ?_, ?_, ?_, ?_, ?_, ?_⟩ <;> (decide +kernel)

/-- Exact points of the functions of R398: powers of two, zeros, infinities and poles. -/
theorem test_vec_functions :
    next (exec (.vexp2 h0 0 false 3 1 0) (vecBase 0xbf8000007f8000000000000040400000 0 0)) (fun t => vres t 3 32 == [0x41000000, 0x3f800000, 0x7f800000, 0x3f000000])
    ∧ next (exec (.vrcp h0 0 false 3 1 0) (vecBase 0xbf8000007f8000000000000040400000 0 0)) (fun t => vres t 3 32 == [0x3eaaaaab, 0x7f800000, 0x0, 0xbf800000]) := by decide +kernel

/-- A selection, a count of a predicate and a rotation of four elements. -/
theorem test_witness_VectorMoveAndPermuteWords :
    VecMay (vecBase 0x80000000ffffffff0000000200000001 0x2100000001ffffffff00000003 5) h0 1 { src := [{ base := 1, w := 32, cnt := some 4 }, { base := 2, w := 32, cnt := some 4 }], dst := [{ base := 3, w := 32, cnt := some 4 }], kr := [], kw := [] }
    ∧ VecMay (vecBase 0x80000000ffffffff0000000200000001 0x2100000001ffffffff00000003 0) h0 0 { src := [], dst := [{ base := 3, w := 32, cnt := some 4 }], kr := [1], kw := [] }
    ∧ VecMay (vecBase 0x80000000ffffffff0000000200000001 0x2100000001ffffffff00000003 0) h0 0 { src := [{ base := 1, w := 32, cnt := some 4 }, { base := 2, w := 32, cnt := none }], dst := [{ base := 3, w := 32, cnt := some 4 }], kr := [], kw := [] }
    ∧ VecMay (vecBase 0x80000000ffffffff0000000200000001 0x2100000001ffffffff00000003 0) h0 0 { src := [], dst := [{ base := 3, w := 16, cnt := some 4 }], kr := [], kw := [] } := by
  refine ⟨?_, ?_, ?_, ?_⟩ <;> ((try unfold VecMay); (try unfold EngReady); decide +kernel)

/-- VSEL picks by the predicate, VMOV, VMOVI, VBCST of an element and a row (R393), KCNT counts (R392), VTRN transposes 2 × 2, VSHUF indexes, VROT rotates rows by v2[0] (R402). -/
theorem test_vec_move :
    next (exec (.vsel h0 1 false 3 1 2 0) (vecBase 0xd0000000c0000000b0000000a 0x8000000010000000200000003 6)) (fun t => vres t 3 32 == [0x3, 0xb, 0xc, 0x8])
    ∧ next (exec (.vmov h0 0 false 3 1 0) (vecBase 0xd0000000c0000000b0000000a 0x8000000010000000200000003 6)) (fun t => vres t 3 32 == [0xa, 0xb, 0xc, 0xd])
    ∧ next (exec (.vmovi h0 0 false 3 0x3FF 0) (vecBase 0xd0000000c0000000b0000000a 0x8000000010000000200000003 6)) (fun t => vres t 3 32 == [0xffffffff, 0xffffffff, 0xffffffff, 0xffffffff])
    ∧ next (exec (.vmovi h0 0 false 3 0xF0 2) (vecBase 0xd0000000c0000000b0000000a 0x8000000010000000200000003 6)) (fun t => vres t 3 16 == [0x3c00, 0x3c00, 0x3c00, 0x3c00])
    ∧ next (exec (.vbcst h0 0 false 3 1 0 0) (vecBase 0xd0000000c0000000b0000000a 0x8000000010000000200000003 6)) (fun t => vres t 3 32 == [0xa, 0xa, 0xa, 0xa])
    ∧ next (exec (.vbcst h0 0 false 3 1 1 0) (vecBase 0xd0000000c0000000b0000000a 0x8000000010000000200000003 6)) (fun t => vres t 3 32 == [0xa, 0xb, 0xa, 0xb])
    ∧ next (exec (.vbcst h0 0 false 3 1 2 0) (vecBase 0xd0000000c0000000b0000000a 0x8000000010000000200000003 6)) (fun t => vres t 3 32 == [0xa, 0xa, 0xc, 0xc])
    ∧ next (exec (.kcnt h0 0 false 3 1) (vecBase 0xd0000000c0000000b0000000a 0x8000000010000000200000003 6)) (fun t => vres t 3 32 == [0x2, 0x2, 0x2, 0x2])
    ∧ next (exec (.vtrn h0 3 1 0) (vecBase 0xd0000000c0000000b0000000a 0x8000000010000000200000003 6)) (fun t => vres t 3 32 == [0xa, 0xc, 0xb, 0xd])
    ∧ next (exec (.vshuf h0 0 false 3 1 2 0) (vecBase 0xd0000000c0000000b0000000a 0x8000000010000000200000003 6)) (fun t => vres t 3 32 == [0xd, 0xc, 0xb, 0xa])
    ∧ next (exec (.vrot h0 0 false 3 1 2 0) (vecBase 0xd0000000c0000000b0000000a 0x8000000010000000200000003 6)) (fun t => vres t 3 32 == [0xb, 0xa, 0xd, 0xc]) := by
  refine ⟨?_, ?_, ?_, ?_, ?_, ?_, ?_, ?_, ?_, ?_, ?_⟩ <;> (decide +kernel)

/-- A compare into the pair k4, k5, and a predicate word. -/
theorem test_witness_VectorCompareAndPredicateWords :
    VecMay (vecBase 0x80000000ffffffff0000000200000001 0x2100000001ffffffff00000003 0) h0 2 { src := [{ base := 1, w := 32, cnt := some 4 }, { base := 2, w := 32, cnt := some 4 }], dst := [], kr := [], kw := [2 * 2, 2 * 2 + 1] }
    ∧ VecMay (vecBase 0x80000000ffffffff0000000200000001 0x2100000001ffffffff00000003 0) h0 0 { src := [], dst := [], kr := [1, 2], kw := [3] } := by
  refine ⟨?_, ?_⟩ <;> ((try unfold VecMay); (try unfold EngReady); decide +kernel)

/-- VICMP signed and unsigned, VCMP with a NaN, into k4 and its inverse into k5 (R389); VCLASS (R390). -/
theorem test_vec_compare :
    next (exec (.vicmp h0 0 false 2 2 1 2 0) (vecBase 0x80000000ffffffff0000000200000001 0x2100000001ffffffff00000003 0)) (fun t => kres t 4 == [true, false, true, true])
    ∧ next (exec (.vicmp h0 0 false 6 2 1 2 0) (vecBase 0x80000000ffffffff0000000200000001 0x2100000001ffffffff00000003 0)) (fun t => kres t 4 == [true, true, false, false])
    ∧ next (exec (.vicmp h0 0 false 6 2 1 2 0) (vecBase 0x80000000ffffffff0000000200000001 0x2100000001ffffffff00000003 0)) (fun t => kres t 5 == [false, false, true, true])
    ∧ next (exec (.vcmp h0 0 false 2 2 1 2 0) (vecBase 0x40200000c0000000000000007fc00000 0xc04000007fc00000800000003f800000 0)) (fun t => kres t 4 == [false, false, false, false])
    ∧ next (exec (.vcmp h0 0 false 0 2 1 2 0) (vecBase 0x40200000c0000000000000007fc00000 0xc04000007fc00000800000003f800000 0)) (fun t => kres t 4 == [false, true, false, false]) := by decide +kernel

/-- KAND, KOR, KXOR, KNOT and KMOV (R391). -/
theorem test_vec_predicate :
    next (exec (.kand h0 0 false 3 1 1) (vecBase 0xd0000000c0000000b0000000a 0x8000000010000000200000003 6)) (fun t => kres t 3 == [false, true, true, false])
    ∧ next (exec (.knot h0 0 false 3 1) (vecBase 0xd0000000c0000000b0000000a 0x8000000010000000200000003 6)) (fun t => kres t 3 == [true, false, false, true])
    ∧ next (exec (.kmov h0 0 false 3 1) (vecBase 0xd0000000c0000000b0000000a 0x8000000010000000200000003 6)) (fun t => kres t 3 == [false, true, true, false])
    ∧ next (exec (.kxor h0 0 false 3 1 1) (vecBase 0xd0000000c0000000b0000000a 0x8000000010000000200000003 6)) (fun t => kres t 3 == [false, false, false, false])
    ∧ next (exec (.kor h0 0 false 3 1 2) (vecBase 0xd0000000c0000000b0000000a 0x8000000010000000200000003 6)) (fun t => kres t 3 == [false, true, true, false]) := by decide +kernel

/-- `vecBase` with one row of 32 elements and quantisation blocks of 32. -/
def qntBase : State := (vecBase 0 0 0).upd 0 fun k => { k with ctl := { k.ctl with vsh := 31, vmd := BitVec.ofNat 64 (2 ^ 11) } }

/-- A conversion, a dequantisation, a quantisation of whole blocks, and a reduction. -/
theorem test_witness_VectorConversionAndReductionWords :
    VecMay (vecBase 0x4040000000000000c00000003fc00000 0x4040000080000000408000003f000000 0) h0 0 { src := [{ base := 1, w := 32, cnt := some 4, group := true }], dst := [{ base := 3, w := 16, cnt := some 4, group := true }], kr := [], kw := [] }
    ∧ VecMay (vecBase 0x4040000000000000c00000003fc00000 0x4040000080000000408000003f000000 0) h0 0 { src := [{ base := 1, w := 8, cnt := none }, { base := 2, w := 8, cnt := none }], dst := [{ base := 3, w := 32, cnt := some 4, group := true }], kr := [], kw := [] }
    ∧ VecMay (vecBase 0x4040000000000000c00000003fc00000 0x4040000080000000408000003f000000 0) h0 0 { src := [{ base := 1, w := 32, cnt := some 4 }], dst := [{ base := 3, w := 32, cnt := some 4 }], kr := [], kw := [] }
    ∧ VecMay (qntBase) h0 0 { src := [{ base := 1, w := 32, cnt := some 32, group := true }], dst := [{ base := 3, w := 8, cnt := none }, { base := 4, w := 8, cnt := none }] }
    ∧ ((qntBase.me.shape qntBase.chron).n = 32 ∧ (qntBase.me.shape qntBase.chron).qb = 32) := by
  refine ⟨?_, ?_, ?_, ?_, ?_⟩ <;> ((try unfold VecMay); (try unfold EngReady); decide +kernel)

/-- VCVT of FP32 to BF16 and back (R394); VRMAX and VRMIN over rows (R399); VDQ of zeros. -/
theorem test_vec_convert :
    next (exec (.vcvt h0 0 false 3 1 8 1) (vecBase 0x4040000000000000c00000003fc00000 0x4040000080000000408000003f000000 0)) (fun t => vres t 3 16 == [0x3fc0, 0xc000, 0x0, 0x4040])
    ∧ next (exec (.vrmax h0 0 false 3 1 false 0) (vecBase 0x4040000000000000c00000003fc00000 0x4040000080000000408000003f000000 0)) (fun t => vres t 3 32 == [0x3fc00000, 0x40400000, 0x0, 0x0])
    ∧ next (exec (.vrmin h0 0 false 3 1 true 0) (vecBase 0x4040000000000000c00000003fc00000 0x4040000080000000408000003f000000 0)) (fun t => vres t 3 32 == [0x0, 0xc0000000, 0x0, 0x0])
    ∧ next (exec (.vdq h0 0 false 3 1 2 0) (vecBase 0 0 0)) (fun t => vres t 3 32 == [0, 0, 0, 0])
    ∧ next (exec (.vqnt h0 3 1 4 0) qntBase) (fun t => vres t 3 8 == [0, 0, 0, 0]) := by decide +kernel

/-- Room in the replay queue; VSUMZ into lane 0 and, by columns, up to lane 255; a write of the shape; a cycle without a count. -/
theorem test_witness_VectorPortAndStateWords :
    VecMay (vecBase 0x80000000ffffffff0000000200000001 0x2100000001ffffffff00000003 0) h0 0 { src := [], dst := [{ base := 3, w := 32, cnt := some 4 }], kr := [], kw := [] }
    ∧ VecMay (vecBase 0x80000000ffffffff0000000200000001 0x2100000001ffffffff00000003 0) h0 0 { src := [{ base := 1, w := 32, cnt := some 4 }], dst := [], kr := [], kw := [] }
    ∧ ((vecBase 0x80000000ffffffff0000000200000001 0x2100000001ffffffff00000003 0).me.vec.replay.length < 32 ∧ (vecBase 0x80000000ffffffff0000000200000001 0x2100000001ffffffff00000003 0).me.pipe.busy = [])
    ∧ 8 * (31 : BitVec 5).toNat + (2 - 1) ≤ 255
    ∧ VecMay (vecBase 0x80000000ffffffff0000000200000001 0x2100000001ffffffff00000003 0) h0 0 { src := [{ base := 1, w := 64, cnt := none }], datapath := false }
    ∧ VecMay (vecBase 0x80000000ffffffff0000000200000001 0x2100000001ffffffff00000003 0) h0 0 { dst := [{ base := 3, w := 32, cnt := none }] }
    ∧ ((vecBase 0 0 0).upd 0 fun k => { k with stat := { k.stat with cyc := 10000 } }).me.stat.cyc = (vecBase 0 0 0).chron := by
  refine ⟨?_, ?_, ?_, ?_, ?_, ?_, ?_⟩ <;> ((try unfold VecMay); (try unfold EngReady); decide +kernel)

/-- VSHAPE takes a shape of at most 4,096 elements, else keeps it (R401, R373); VSTAT reads the counts and clears them (R405). -/
theorem test_vec_state :
    next (exec (.vshape h0 1 0) (vecBase 0x30007 0 0)) (fun t => t.me.ctl.vsh == 0x30007)
    ∧ next (exec (.vshape h0 1 0) (vecBase 0xFFF0FFF 0 0)) (fun t => t.me.ctl.vsh == 0x10001)
    ∧ next (exec (.vstat h0 3 1) ((vecBase 0 0 0).upd 0 fun k => { k with stat := { k.stat with cnt := k.stat.cnt.set 2 7 } })) (fun t => vres t 3 32 == [0, 0, 7, 0] && t.me.stat.cnt[2] == 0)
    ∧ next (exec (.vstat h0 3 1) ((vecBase 0 0 0).upd 0 fun k => { k with stat := { k.stat with
        cyc := 10000, cnt := k.stat.cnt.set 2 7, cnt0 := k.stat.cnt0.set 2 4, cyCnt := k.stat.cyCnt.set 2 3 } })) (fun t => vres t 3 32 == [0, 0, 4, 0] && t.me.stat.cnt[2] == 3)
    ∧ next (exec (.vld h0 0 false 3 0) (vecBase 0x80000000ffffffff0000000200000001 0x2100000001ffffffff00000003 0)) (fun t => t.me.vec.vReady[3] == 10002)
    ∧ next (exec (.vst h0 0 false 1 0) (vecBase 0x80000000ffffffff0000000200000001 0x2100000001ffffffff00000003 0)) (fun t => t.me.pipe.infl.any fun w => w.n 3 % 2 ^ 32 == 1)
    ∧ next (exec (.vsumz h0 0 false 2 1 true 1 0) (vecBase 0x80000000ffffffff0000000200000001 0x2100000001ffffffff00000003 0)) (fun t => t.me.pipe.infl.any fun w => w.n 1 == 10001) := by decide +kernel

/-! ## The step -/

/-- `base` with one word at the start of the SEQ code of its context and its queue running. -/
def fetchBase (w : Nat) : State := base.withFetchWord 32 w

/-- The word the next step issues, with its core and engine. -/
def issues (s : State) : Option (CoreIx × Eng × Option Nat) :=
  match s.pick with
  | .issue x => some (x.core, x.eng, x.word)
  | _ => none

/-- A well-formed instruction with a word; one without (an event) has no section. -/
theorem test_witness_EncodedWordsDecode :
    (Instr.add h0 31 0 31).wf = true ∧ sectionsOf (Instr.add h0 31 0 31) ≠ []
    ∧ (Instr.bsteer h0 0x41 1 2).wf = true ∧ sectionsOf (Instr.bsteer h0 0x41 1 2) ≠ []
    ∧ sectionsOf .coldReset = [] := by decide +kernel

/-- A word of each section that decodes. -/
theorem test_witness_DecodedWordsEncode :
    decode .seq 0x0024298A = .ok (.mulhu h0 4 5 6)
    ∧ decode .vec 0 = .ok (.nop h0)
    ∧ encode (.mulhu h0 4 5 6) = some 0x0024298A := by decide +kernel

/-- Steps that answer a next state, from memory with cells. -/
theorem test_witness_StepKeepsMemoryCanonical :
    Memory.wf (fetchBase 0x0024298A).memory = true
    ∧ next (step (fetchBase 0x0024298A)) (fun t => Memory.wf t.memory)
    ∧ next (step base) (fun t => Memory.wf t.memory)
    ∧ ¬ Memory.wf [(1, 0)] = true := by decide +kernel

/-- A word that decodes, one that does not, and a queue that runs outside its section, each to issue next. -/
theorem test_witness_StepRunsTheFetchedWord :
    ((fetchBase 0x0024298A).off = false ∧ (fetchBase 0x0024298A).isFrozen = false)
    ∧ ((issues (fetchBase 0x0024298A)).map fun x => x.2.2) = some (some 0x0024298A)
    ∧ ((issues (fetchBase 0x07E0FFFF)).map fun x => x.2.2) = some (some 0x07E0FFFF)
    ∧ (match decode .seq 0x07E0FFFF with | .error _ => true | _ => false) = true
    ∧ ((issues ((fetchBase 0x0024298A).upd 0 fun k => { k with seq := { k.seq with q := { k.seq.q with pc := 0x200000, loops := [] } } })).map fun x => x.2.2) = some none
    ∧ Running (fetchBase 0) 0 := by
  refine ⟨?_, ?_, ?_, ?_, ?_, ?_⟩ <;> ((try unfold Running); decide +kernel)

/-- The step runs the word at the fetch address and moves past it (R139). -/
theorem test_step_issue :
    next (step (fetchBase 0x00E9480C)) (fun t => t.me.seq.q.pc == (fetchBase 0).me.seq.q.pc + 4)
    ∧ next (step (fetchBase 0x07400005)) (fun t => t.me.seq.cause == 0x85) := by decide +kernel

/-- A state with one input from outside. -/
def withInput (i : Instr) (s : State) : State := { s with inputs := [{ cycle := s.chron, instr := i }] }

/-- An input and a scheduled event to come first, a Lookout rule, nothing to come, no power with and without a cold reset, and the freeze. -/
theorem test_witness_StepRunsTheEvent :
    base.off = false ∧ base.isFrozen = false
    ∧ (match (withInput .thermalEmergency base).pick with | .input _ _ => true | _ => false) = true
    ∧ (match (base.sched 10000 .hcmdComplete).pick with | .event _ _ => true | _ => false) = true
    ∧ (match (base).pick with | .idle => true | _ => false) = true
    ∧ ({ withInput .thermalEmergency base with off := true } : State).inputs = [{ cycle := 10000, instr := .thermalEmergency }]
    ∧ Instr.thermalEmergency ≠ .coldReset
    ∧ ({ withInput .coldReset base with off := true } : State).inputs.map (·.instr) = [.coldReset]
    ∧ ({ base with off := true } : State).inputs = []
    ∧ ({ withInput .thaw base with frzCtl := true } : State).isFrozen = true
    ∧ (match ({ withInput .thaw base with frzCtl := true }).pickFrozen with | .input _ _ => true | _ => false) = true
    ∧ ({ base with frzCtl := true, frozen := 44799999 } : State).isFrozen = true
    ∧ (match ({ base with frzCtl := true, frozen := 44799999 }).pickFrozen with | .idle => true | _ => false) = true
    ∧ 0 + 1 < 44800000 ∧ 44800000 ≤ 44799999 + 1 := by decide +kernel

/-- Without power a step is the one fault; with nothing to come CHRON counts; the freeze counts Helm cycles (R26, R164). -/
theorem test_step_events :
    (match step { base with off := true } with | .fault .poweredOff => true | _ => false) = true
    ∧ next (step base) (fun t => t.chron == 10001)
    ∧ next (step { base with frzCtl := true }) (fun t => t.chron == 10000 && t.frozen == 1) := by decide +kernel

/-- An engine of a running partition with a take and without. -/
theorem test_witness_UnassignedEncodingFaults :
    (base.eng ≠ .cpe ∧ (base.eng = .seq → base.me.stat.trapDue base.chron = false) ∧ base.partOf base.cur = some 0)
    ∧ Running base 0
    ∧ ((axuBase 0 0).eng = .axu ∧ (axuBase 0 0).partOf (axuBase 0 0).cur = some 0) := by
  refine ⟨?_, ?_, ?_⟩ <;> ((try unfold Running); decide +kernel)

/-- A word of no assigned encoding with T = 1: its token there, missing in a free leg, missing in a fixed one (R181, R271). -/
theorem test_witness_UnassignedTakes :
    ((baseC fun k => { k with ctl := k.ctl.setOcc 0 1 }).me.ctl.hasTok 0 (((baseC fun k => { k with ctl := k.ctl.setOcc 0 1 }).me.ctl.seen 10000).from_ 0) = true)
    ∧ (base.me.ctl.hasTok 0 ((base.me.ctl.seen 10000).from_ 0) = false ∧ base.fixedLeg base.cur = false)
    ∧ fixedBase.fixedLeg fixedBase.cur = true
    ∧ next (exec (.unassignedEncoding ⟨0, true, false⟩) (baseC fun k => { k with ctl := k.ctl.setOcc 0 1 })) (fun t => halts t == some 1 && t.me.ctl.occ 0 == 0)
    ∧ next (exec (.unassignedEncoding ⟨0, true, false⟩) base) (fun t => halts t == none && t.me.seq.q.pc == 0)
    ∧ next (exec (.unassignedEncoding ⟨0, true, false⟩) fixedBase) (fun t => halts t == some 1) := by
  refine ⟨?_, ?_, ?_, ?_, ?_, ?_⟩ <;> (decide +kernel)

/-- A word of no assigned encoding is hard fault 0x01 (R271). -/
theorem test_unassigned :
    next (exec (.unassignedEncoding h0) base) (fun t => halts t == some 1)
    ∧ next (exec (.unassignedEncoding h0) (axuBase 0 0)) (fun t => halts t == some 1) := by decide +kernel

/-! ## Reset, boot and the Helm -/

/-- Reset values of registers of each kind: TKSEL, ceilings, PARTMAP, W2CTL (R46, R183, R74, R77). -/
theorem test_reset :
    (State.reset.core 287).ctl.tksel = 0x11
    ∧ State.reset.hif.partmap[47] = 0x3F
    ∧ State.reset.hif.w2part = 0xFF
    ∧ State.reset.chron = 0 := by decide +kernel

/-- A module with a partition, a memory and a core outside the partition that is reset. -/
theorem test_witness_Resets :
    base.partOf 0 = some base.curPart
    ∧ ({ base with hif := { base.hif with partmap := base.hif.partmap.set 47 1 } } : State).partOf 287 ≠ some base.curPart := by decide +kernel

/-- Warm reset keeps CHRON and clears the partitions and VALID (R46); power loss stops every step (R26). -/
theorem test_resets :
    next (exec .warmReset base) (fun t => t.chron == 10000 && (t.part 0).runSlot.isNone && !t.helm.valid)
    ∧ next (exec .powerLoss base) (fun t => t.off)
    ∧ next (exec .coldReset base) (fun t => t.chron == 0 && t.parts == []) := by decide +kernel

/-- Flash copies at the floor, below it and missing; an emergency that is over; PARTMAPs that may and may not take effect; an image in device memory. -/
theorem test_witness_BootAndHelmCommands :
    (({ State.reset with helm := { State.reset.helm with flashA := some 5, flashB := none, fwFloor := 5 } } : State).helm.valid = false ∧ ({ State.reset with helm := { State.reset.helm with flashA := some 5, flashB := none, fwFloor := 5 } } : State).helm.fwver = 0 ∧ ({ State.reset with helm := { State.reset.helm with flashA := some 5, flashB := none, fwFloor := 5 } } : State).helm.flashA = some 5 ∧ ({ State.reset with helm := { State.reset.helm with flashA := some 5, flashB := none, fwFloor := 5 } } : State).helm.fwFloor ≤ 5)
    ∧ (({ State.reset with helm := { State.reset.helm with flashA := some 4, flashB := some 6, fwFloor := 5 } } : State).helm.valid = false ∧ (({ State.reset with helm := { State.reset.helm with flashA := some 4, flashB := some 6, fwFloor := 5 } } : State).helm.flashA.all fun u => decide (u < 5)) = true ∧ ({ State.reset with helm := { State.reset.helm with flashA := some 4, flashB := some 6, fwFloor := 5 } } : State).helm.flashB = some 6)
    ∧ ((({ State.reset with helm := { State.reset.helm with flashA := some 4, flashB := none, fwFloor := 5 } } : State).helm.flashA.all fun u => decide (u < 5)) = true ∧ ({ State.reset with helm := { State.reset.helm with flashA := some 4, flashB := none, fwFloor := 5 } } : State).helm.flashB = none ∧ ({ State.reset with helm := { State.reset.helm with flashA := some 4, flashB := none, fwFloor := 5 } } : State).helm.fwver = 0)
    ∧ (({ State.reset with helm := { State.reset.helm with flashA := some 4, flashB := none, fwFloor := 5, fwver := 7, hcmdBusy := true, hcmd := 1 } } : State).helm.valid = false ∧ ({ State.reset with helm := { State.reset.helm with flashA := some 4, flashB := none, fwFloor := 5, fwver := 7, hcmdBusy := true, hcmd := 1 } } : State).helm.fwver ≠ 0 ∧ ({ State.reset with helm := { State.reset.helm with flashA := some 4, flashB := none, fwFloor := 5, fwver := 7, hcmdBusy := true, hcmd := 1 } } : State).helm.hcmdBusy = true ∧ ({ State.reset with helm := { State.reset.helm with flashA := some 4, flashB := none, fwFloor := 5, fwver := 7, hcmdBusy := true, hcmd := 1 } } : State).helm.hcmd = 1)
    ∧ (next (exec .bootComplete ({ State.reset with helm := { State.reset.helm with flashA := some 5, flashB := none, fwFloor := 5 } })) (fun t => t.helm.valid) = true ∧ ({ State.reset with helm := { State.reset.helm with flashA := some 5, flashB := none, fwFloor := 5 } } : State).cols = [])
    ∧ base.helm.fwerr = false
    ∧ ({ base with helm := { base.helm with fwerr := true } } : State).helm.fwerr = true
    ∧ (({ base with helm := { base.helm with emerg := true, emcode := 0x71 } } : State).helm.emerg = true ∧ ({ base with helm := { base.helm with emerg := true, emcode := 0x71 } } : State).helm.emCond = false ∧ ({ base with helm := { base.helm with emerg := true, emcode := 0x71 } } : State).helm.fwerr = false)
    ∧ base.helm.emerg = false
    ∧ (({ baseL (fun k => { k with live := true, rowmax := 8, dram := Vector.replicate 32 1 }) with helm := { base.helm with harg := 0x10000 } } : State).helm.harg.toNat % 65536 = 0 ∧ ({ baseL (fun k => { k with live := true, rowmax := 8, dram := Vector.replicate 32 1 }) with helm := { base.helm with harg := 0x10000 } } : State).paKind ({ baseL (fun k => { k with live := true, rowmax := 8, dram := Vector.replicate 32 1 }) with helm := { base.helm with harg := 0x10000 } } : State).helm.harg.toNat = .pool)
    ∧ (base.paKind 0xFFFFFFFFFFFF0000 = .nothing ∨ 5 % 65536 ≠ 0)
    ∧ (∀ c : Fin 48, (({ baseP (fun q => { q with slots := Vector.replicate 8 {} }) with hif := { base.hif with partmapNext := Vector.replicate 48 1 } } : State).hif.partmapNext[c]).toNat < 48 ∧ ∀ p : PartIx, p.val = 0 ∨ p.val = 1 → ∀ j : Fin 8, (({ baseP (fun q => { q with slots := Vector.replicate 8 {} }) with hif := { base.hif with partmapNext := Vector.replicate 48 1 } } : State).part p).slots[j].st.live = false)
    ∧ (({ base with hif := { base.hif with partmapNext := Vector.replicate 48 1 } } : State).hif.partmap[(47 : Fin 48)] ≠ ({ base with hif := { base.hif with partmapNext := Vector.replicate 48 1 } } : State).hif.partmapNext[(47 : Fin 48)] ∧ (({ base with hif := { base.hif with partmapNext := Vector.replicate 48 1 } } : State).part 0).slots[(0 : Fin 8)].st.live = true ∧ (0 : PartIx).val = (({ base with hif := { base.hif with partmapNext := Vector.replicate 48 1 } } : State).hif.partmap[(47 : Fin 48)]).toNat)
    ∧ (48 ≤ (({ base with hif := { base.hif with partmapNext := Vector.replicate 48 0x3E } } : State).hif.partmapNext[(0 : Fin 48)]).toNat ∧ ({ base with hif := { base.hif with partmapNext := Vector.replicate 48 0x3E } } : State).hif.partmapNext[(0 : Fin 48)] ≠ 0x3F) := by
  refine ⟨?_, ?_, ?_, ?_, ?_, ?_, ?_, ?_, ?_, ?_, ?_, ?_, ?_, ?_⟩ <;> (decide +kernel)

/-- A copy below the floor is not run (R90); a live partition and a reserved byte refuse PARTAPPLY (R77); EMCLEAR without an emergency is refused (R76). -/
theorem test_helm :
    next (exec .bootComplete ({ State.reset with helm := { State.reset.helm with flashA := some 4, flashB := some 6, fwFloor := 5 } })) (fun t => t.helm.fwb && t.helm.fwver == 6)
    ∧ next (exec .bootComplete ({ State.reset with helm := { State.reset.helm with flashA := some 4, flashB := none, fwFloor := 5 } })) (fun t => t.helm.fwerr && !t.helm.valid)
    ∧ next (exec .partapply ({ baseP (fun q => { q with slots := Vector.replicate 8 {} }) with hif := { base.hif with partmapNext := Vector.replicate 48 1 } })) (fun t => t.hif.partmap[0] == 1)
    ∧ next (exec .partapply ({ base with hif := { base.hif with partmapNext := Vector.replicate 48 1 } })) (fun t => t.helm.hcmdErr && t.hif.partmap[0] == 0)
    ∧ next (exec .partapply ({ base with hif := { base.hif with partmapNext := Vector.replicate 48 0x3E } })) (fun t => t.helm.hcmdErr)
    ∧ next (exec .emclear base) (fun t => t.helm.hcmdErr)
    ∧ next (exec .emclear ({ base with helm := { base.helm with emerg := true, emcode := 0x71 } })) (fun t => !t.helm.emerg && t.helm.emcode == 0x71 && t.helm.hcmdBusy)
    ∧ next (exec .warmrst base) (fun t => t.helm.hcmdBusy && !t.helm.valid)
    ∧ next (exec .hcmdComplete base) (fun t => t.hif.intst == 8) := by decide +kernel

/-- An enabled interrupt that is not pending, one that is pending, and one not enabled; a partition with clusters, of the highest class. -/
theorem test_witness_InterruptsAndPower :
    (({ base with hif := { base.hif with inten := 2 } } : State).hif.intst.getLsb (1 : Fin 8) = false ∧ ({ base with hif := { base.hif with inten := 2 } } : State).hif.inten.getLsb (1 : Fin 8) = true)
    ∧ base.hif.inten.getLsb (1 : Fin 8) = false
    ∧ ((baseP fun q => { q with vinten := 1 }).part 0).vinten.getLsb (0 : Fin 2) = true
    ∧ (base.part 0).even = false
    ∧ ((baseP fun q => { q with even := true }).part 0).even = true
    ∧ 0 < base.nclu 0
    ∧ Running base 0 := by
  refine ⟨?_, ?_, ?_, ?_, ?_, ?_, ?_⟩ <;> ((try unfold Running); decide +kernel)

/-- A power window over 1,600 W raises bit 1, one of 1,600 W does not (R44); an emergency latches EMERG, its code and the interrupt, and checks the partition (R43); the vector fires once. -/
theorem test_interrupts :
    next (exec (.powerWindow 1601) base) (fun t => t.hif.intst == 2)
    ∧ next (exec (.powerWindow 1600) base) (fun t => t.hif.intst == 0)
    ∧ next (exec .thermalEmergency base) (fun t => t.helm.emerg && t.helm.emcode == 0x71 && halts t == some 0x71 && t.hif.intst == 4)
    ∧ next (exec .supplyEmergency base) (fun t => t.helm.emcode == 0x72 && halts t == some 0x72)
    ∧ next (exec .emergencyConditionCleared base) (fun t => !t.helm.emCond)
    ∧ next (exec (.powerWindow 1601) ({ base with hif := { base.hif with inten := 2 } })) (fun t => tget t.hif.msix (48 * 8 + 1) == some 1) := by decide +kernel

/-! ## Survey, rows and temperature -/

/-- Banks in POOL, ROW, QUIET and FAILED, as the survey and mode commands name them; a pending change of the refresh period; hot and cool columns. -/
theorem test_witness_SurveyEvents :
    (1 ≤ (((baseL fun k => { k with live := true, dram := (k.dram.set 0 1).set 1 2 }).col 0).dram[(0 : Fin 32)]).toNat ∧ (((baseL fun k => { k with live := true, dram := (k.dram.set 0 1).set 1 2 }).col 0).dram[(0 : Fin 32)]).toNat ≤ 5)
    ∧ ((baseL fun k => { k with live := true, dram := (k.dram.set 0 1).set 1 2 }).col 0).dram[(31 : Fin 32)] = 0
    ∧ (({ (baseL fun k => { k with live := true, dram := (k.dram.set 0 1).set 1 2 }) with ms := { base.ms with svBank := 0 } } : State).ms.svTarget = some (0, 0) ∧ (({ (baseL fun k => { k with live := true, dram := (k.dram.set 0 1).set 1 2 }) with ms := { base.ms with svBank := 0 } } : State).col 0).dram[(0 : Fin 32)] = 1 ∧ ({ (baseL fun k => { k with live := true, dram := (k.dram.set 0 1).set 1 2 }) with ms := { base.ms with svBank := 0 } } : State).windowNames 0 0 = false)
    ∧ (({ (baseL fun k => { k with live := true, dram := (k.dram.set 0 1).set 1 2 }) with ms := { base.ms with svBank := 31 } } : State).ms.svTarget = some (0, 31) ∧ (({ (baseL fun k => { k with live := true, dram := (k.dram.set 0 1).set 1 2 }) with ms := { base.ms with svBank := 31 } } : State).col 0).dram[(31 : Fin 32)] = 0)
    ∧ (({ (baseL fun k => { k with live := true, dram := k.dram.set 0 5 }) with ms := { base.ms with svCmd := 2 } } : State).ms.svTarget = some (0, 0) ∧ (({ (baseL fun k => { k with live := true, dram := k.dram.set 0 5 }) with ms := { base.ms with svCmd := 2 } } : State).col 0).dram[(0 : Fin 32)] = 5 ∧ ({ (baseL fun k => { k with live := true, dram := k.dram.set 0 5 }) with ms := { base.ms with svCmd := 2 } } : State).bankUsed 0 0 = false ∧ ({ (baseL fun k => { k with live := true, dram := k.dram.set 0 5 }) with ms := { base.ms with svCmd := 2 } } : State).ms.svCmd = 2)
    ∧ (({ (baseL fun k => { k with live := true, dram := (k.dram.set 0 1).set 1 2 }) with ms := { base.ms with svBank := 0, svCmd := 1 } } : State).ms.svCmd = 1 ∧ ({ (baseL fun k => { k with live := true, dram := (k.dram.set 0 1).set 1 2 }) with ms := { base.ms with svBank := 0, svCmd := 1 } } : State).ms.svTarget = some (0, 0))
    ∧ (({ (baseL fun k => { k with live := true, dram := k.dram.set 0 7 }) with ms := { base.ms with svCmd := 1 } } : State).ms.svTarget = some (0, 0) ∧ (({ (baseL fun k => { k with live := true, dram := k.dram.set 0 7 }) with ms := { base.ms with svCmd := 1 } } : State).col 0).dram[(0 : Fin 32)] = 7)
    ∧ base.ms.svCol.toNat < 288
    ∧ (((baseL fun k => { k with live := true, hotpend := true }).col 0).hotpend = true ∧ (baseL fun k => { k with live := true, hotpend := true }).holdsWindow 0 = false)
    ∧ ((base.col 0).hotpend = false ∧ (base.col 0).hot = false ∧ base.holdsWindow 0 = false)
    ∧ ((baseL fun k => { k with hot := true }).col 0).hot = true
    ∧ (((baseL fun k => { k with live := true, dram := (k.dram.set 0 1).set 1 2 }).col 0).dram[(1 : Fin 32)] = 2 ∧ (baseL fun k => { k with live := true, dram := (k.dram.set 0 1).set 1 2 }).partOf 0 = some 0)
    ∧ Running base 0
    ∧ (({ (baseL fun k => { k with live := true, dram := k.dram.set 0 1 }) with ms := { base.ms with bmBank := 0, bmMode := true } } : State).ms.bmTarget = some (0, 0) ∧ (({ (baseL fun k => { k with live := true, dram := k.dram.set 0 1 }) with ms := { base.ms with bmBank := 0, bmMode := true } } : State).col 0).dram[(0 : Fin 32)] = 1 ∧ ({ (baseL fun k => { k with live := true, dram := k.dram.set 0 1 }) with ms := { base.ms with bmBank := 0, bmMode := true } } : State).bankUsed 0 0 = false)
    ∧ (({ (baseL fun k => { k with live := true, dram := k.dram.set 3 4 }) with ms := { base.ms with bmBank := 3, bmMode := false } } : State).ms.bmTarget = some (0, 3) ∧ (({ (baseL fun k => { k with live := true, dram := k.dram.set 3 4 }) with ms := { base.ms with bmBank := 3, bmMode := false } } : State).col 0).dram[(3 : Fin 32)] = 4 ∧ ({ (baseL fun k => { k with live := true, dram := k.dram.set 3 4 }) with ms := { base.ms with bmBank := 3, bmMode := false } } : State).windowNames 0 3 = false) := by
  refine ⟨?_, ?_, ?_, ?_, ?_, ?_, ?_, ?_, ?_, ?_, ?_, ?_, ?_, ?_, ?_⟩ <;> ((try unfold Running); decide +kernel)

/-- A bank over its threshold moves to PEND (R36); QUIESCE and COMMIT start, end and refuse (R38); BANK_TO_ROW refuses an absent bank (R118). -/
theorem test_survey :
    next (exec (.pendOnErrors 0 0) (baseL fun k => { k with live := true, dram := (k.dram.set 0 1).set 1 2 })) (fun t => (t.col 0).dram[0] == 3 && t.helm.gen == 2)
    ∧ next (exec (.pendOnHeat 0 0) (baseL fun k => { k with live := true, dram := (k.dram.set 0 1).set 1 2 })) (fun t => (t.col 0).dram[1] == 4)
    ∧ next (exec (.uncorrectableDramError 0 1) (baseL fun k => { k with live := true, dram := (k.dram.set 0 1).set 1 2 })) (fun t => (t.col 0).dram[1] == 7)
    ∧ next (exec (.uncorrectableDramError 0 31) (baseL fun k => { k with live := true, dram := (k.dram.set 0 1).set 1 2 })) (fun t => t.helm.gen == 0)
    ∧ next (exec (.quiesce) (({ (baseL fun k => { k with live := true, dram := (k.dram.set 0 1).set 1 2 }) with ms := { base.ms with svBank := 0 } } : State))) (fun t => t.ms.svBusy && !t.ms.svErr)
    ∧ next (exec (.quiesce) (({ (baseL fun k => { k with live := true, dram := (k.dram.set 0 1).set 1 2 }) with ms := { base.ms with svBank := 31 } } : State))) (fun t => t.ms.svErr && !t.ms.svBusy)
    ∧ next (exec (.commit) (({ (baseL fun k => { k with live := true, dram := (k.dram.set 0 1).set 1 2 }) with ms := { base.ms with svBank := 0 } } : State))) (fun t => t.ms.svErr)
    ∧ next (exec (.surveyCommandDone) (({ (baseL fun k => { k with live := true, dram := (k.dram.set 0 1).set 1 2 }) with ms := { base.ms with svBank := 0, svCmd := 1 } } : State))) (fun t => (t.col 0).dram[0] == 5)
    ∧ next (exec (.surveyCommandDone) (({ (baseL fun k => { k with live := true, dram := k.dram.set 0 5 }) with ms := { base.ms with svCmd := 2 } } : State))) (fun t => (t.col 0).dram[0] == 6)
    ∧ next (exec (.bankToRow) (({ (baseL fun k => { k with live := true, dram := k.dram.set 0 1 }) with ms := { base.ms with bmBank := 0, bmMode := false } } : State))) (fun t => t.ms.bmBusy && t.ms.bmMode)
    ∧ next (exec (.bankToRow) (({ (baseL fun k => { k with live := true, dram := k.dram.set 0 2 }) with ms := { base.ms with bmBank := 0, bmMode := false } } : State))) (fun t => t.ms.bmErr)
    ∧ next (exec (.bmctlDone) (({ (baseL fun k => { k with live := true, dram := k.dram.set 0 3 }) with ms := { base.ms with bmBank := 0, bmMode := true } } : State))) (fun t => (t.col 0).dram[0] == 4)
    ∧ next (exec (.bankToPool) (({ (baseL fun k => { k with live := true, dram := k.dram.set 0 2 }) with ms := { base.ms with bmBank := 0, bmMode := true } } : State))) (fun t => t.ms.bmBusy && !t.ms.bmMode) := by
  refine ⟨?_, ?_, ?_, ?_, ?_, ?_, ?_, ?_, ?_, ?_, ?_, ?_, ?_⟩ <;> (decide +kernel)

/-- A bank with 66 corrected errors in its window, and one with none; a bank and a layer with no bank in POOL or ROW, where nothing moves (R36; log
66); a column beyond 287 (R38; log 66). -/
theorem test_witness_BankHealth :
    ((baseL fun k => { k with live := true, errs := List.replicate 66 (0, 9000) }).col 0).errorsOf 0 10000 = 66
    ∧ (base.col 0).errorsOf 0 10000 = 0
    ∧ ((baseL fun k => { k with live := true, dram := k.dram.set 0 3 }).col 0).dram[(0 : Fin 32)] = 3
    ∧ ({ base with ms := { base.ms with svCol := 300 } } : State).ms.svTarget = none := by decide +kernel

/-- Corrected errors count in CECNT (R33, R36); a bank in PENDPOOL stays, and no interrupt is raised; SVCTL for column 300 is refused. -/
theorem test_bank_health :
    next (exec (.pendOnErrors 0 0) (baseL fun k => { k with live := true, dram := k.dram.set 0 1, errs := List.replicate 66 (0, 9000), cecnt := 5 })) (fun t => (t.col 0).cecnt == 5)
    ∧ next (exec (.pendOnErrors 0 0) (baseL fun k => { k with live := true, dram := k.dram.set 0 1 })) (fun t => (t.col 0).dram[0] == 3 && t.hif.intst == 1)
    ∧ next (exec (.pendOnErrors 0 0) (baseL fun k => { k with live := true, dram := k.dram.set 0 3 })) (fun t => (t.col 0).dram[0] == 3 && t.hif.intst == 0 && t.helm.gen == 0)
    ∧ next (exec (.pendOnHeat 0 1) (baseL fun k => { k with live := true, dram := k.dram.set 8 5 })) (fun t => (t.col 0).dram[8] == 5 && t.helm.gen == 0)
    ∧ next (exec .quiesce { base with ms := { base.ms with svCol := 300 } }) (fun t => t.ms.svErr && !t.ms.svBusy) := by
  refine ⟨?_, ?_, ?_, ?_, ?_⟩ <;> (decide +kernel)

/-- HOTON sets HOTPEND, HOTOFF withdraws it; the change takes effect; a cool column at 90 °C with row banks checks 0x73 (R41). -/
theorem test_temperature :
    next (exec (.hotonCrossing) (base)) (fun t => (t.col 0).hotpend)
    ∧ next (exec (.hotoffCrossing) ((baseL fun k => { k with live := true, hotpend := true }))) (fun t => !(t.col 0).hotpend)
    ∧ next (exec (.refreshPeriodChange) ((baseL fun k => { k with live := true, hotpend := true }))) (fun t => (t.col 0).hot && !(t.col 0).hotpend)
    ∧ next (exec (.refreshDeadline) (baseL fun k => { k with live := true, dram := (k.dram.set 0 1).set 1 2 })) (fun t => (t.col 0).hot && halts t == some 0x73) := by decide +kernel

/-- Banks closed, open as the slot begins and outside it, open too long, and precharging to their end. -/
theorem test_witness_RowStates :
    ((base.col 0).rows[(0 : Fin 32)]).at_ base.chron = 0
    ∧ (((({ (baseL fun k => { k with rows := k.rows.set 0 (.open_ 2 10000 0 none) }) with chron := 10920 } : State).col 0).rows[(0 : Fin 32)]).at_ ({ (baseL fun k => { k with rows := k.rows.set 0 (.open_ 2 10000 0 none) }) with chron := 10920 } : State).chron ≠ 0 ∧ (({ (baseL fun k => { k with rows := k.rows.set 0 (.open_ 2 10000 0 none) }) with chron := 10920 } : State).col 0).slotOffset 0 ({ (baseL fun k => { k with rows := k.rows.set 0 (.open_ 2 10000 0 none) }) with chron := 10920 } : State).chron = 0)
    ∧ (((({ (baseL fun k => { k with rows := k.rows.set 0 (.open_ 2 100 0 none) }) with chron := 10000 } : State).col 0).rows[(0 : Fin 32)]).at_ ({ (baseL fun k => { k with rows := k.rows.set 0 (.open_ 2 100 0 none) }) with chron := 10000 } : State).chron ≠ 0 ∧ (({ (baseL fun k => { k with rows := k.rows.set 0 (.open_ 2 100 0 none) }) with chron := 10000 } : State).col 0).slotOffset 0 ({ (baseL fun k => { k with rows := k.rows.set 0 (.open_ 2 100 0 none) }) with chron := 10000 } : State).chron ≠ 0)
    ∧ ((({ (baseL fun k => { k with rows := k.rows.set 0 (.open_ 2 100 0 none) }) with chron := 10000 } : State).col 0).rows[(0 : Fin 32)] = .open_ 2 100 0 none ∧ 100 + 9800 < ({ (baseL fun k => { k with rows := k.rows.set 0 (.open_ 2 100 0 none) }) with chron := 10000 } : State).chron)
    ∧ ((({ (baseL fun k => { k with rows := k.rows.set 0 (.open_ 2 100 0 (some 9982)) }) with chron := 10000 } : State).col 0).rows[(0 : Fin 32)] = .open_ 2 100 0 (some 9982) ∧ 9982 + 18 ≤ ({ (baseL fun k => { k with rows := k.rows.set 0 (.open_ 2 100 0 (some 9982)) }) with chron := 10000 } : State).chron)
    ∧ ((({ (baseL fun k => { k with rows := k.rows.set 0 (.precharging 10000) }) with chron := 10000 } : State).col 0).rows[(0 : Fin 32)] = .precharging 10000 ∧ 10000 ≤ ({ (baseL fun k => { k with rows := k.rows.set 0 (.precharging 10000) }) with chron := 10000 } : State).chron)
    ∧ (base.col 0).rows[(0 : Fin 32)] = .closed
    ∧ Running base 0
    ∧ 80 * 31 + (base.col 0).phase ≤ 10000
    ∧ (base.partOf 0 = some 0 ∧ (base.part 0).halting = none ∧ (base.part 0).runSlot.isSome = true ∧ base.preStopped 0 = false) := by
  refine ⟨?_, ?_, ?_, ?_, ?_, ?_, ?_, ?_, ?_, ?_⟩ <;> ((try unfold Running); decide +kernel)

/-- A bank open as its slot begins is 0x53 (R214), a bank open beyond 9,800 cycles too, one at 9,800 not; the precharge ends after 18 cycles (R213). -/
theorem test_row_states :
    next (exec (.refreshSlotStart 0 0) (({ (baseL fun k => { k with rows := k.rows.set 0 (.open_ 2 10000 0 none) }) with chron := 10920 } : State))) (fun t => halts t == some 0x53)
    ∧ next (exec (.refreshSlotStart 0 0) (base)) (fun t => halts t == none)
    ∧ next (exec (.rowOpenTooLong 0 0 100) (({ (baseL fun k => { k with rows := k.rows.set 0 (.open_ 2 100 0 none) }) with chron := 10000 } : State))) (fun t => halts t == some 0x53)
    ∧ next (exec (.prechargeComplete 0 0) (({ (baseL fun k => { k with rows := k.rows.set 0 (.open_ 2 100 0 (some 9982)) }) with chron := 10000 } : State))) (fun t => (t.col 0).rows[0] == .closed)
    ∧ next (exec (.rowReactivation 0 0 5) (base)) (fun t => (t.col 0).rows[0] == .open_ 5 10000 0 none) := by decide +kernel

/-- A burst to the row input with its first and last beat, at half width too, one that failed and one that ended; windows with open and closed rows, and a sequencer that waits for one. -/
theorem test_witness_RowBuses :
    (((baseL fun k => { k with live := true, burstEnd := 10016, burst := List.replicate 8192 7, burstDst := 16, burstStart := 9999 }).col 0).burstDst = 16 ∧ ((baseL fun k => { k with live := true, burstEnd := 10016, burst := List.replicate 8192 7, burstDst := 16, burstStart := 9999 }).col 0).burstFail = none ∧ (15 : Fin 32).val < (if ((baseL fun k => { k with live := true, burstEnd := 10016, burst := List.replicate 8192 7, burstDst := 16, burstStart := 9999 }).col 0).half then 32 else 16))
    ∧ ((baseL fun k => { k with live := true, burstEnd := 10016, burst := List.replicate 8192 7, burstDst := 16, burstStart := 9999 }).chron ≤ ((baseL fun k => { k with live := true, burstEnd := 10016, burst := List.replicate 8192 7, burstDst := 16, burstStart := 9999 }).col 0).burstEnd ∧ Running (baseL fun k => { k with live := true, burstEnd := 10016, burst := List.replicate 8192 7, burstDst := 16, burstStart := 9999 }) 0)
    ∧ ((((baseL fun k => { k with live := true, burstEnd := 10016, burst := List.replicate 8192 7, burstDst := 16, burstStart := 9999 }).updCol 0 fun k => { k with burstFail := some 3 }).col 0).burstFail = some 3)
    ∧ ((base.col 0).burstDst ≠ 16 ∧ (base.col 0).burstEnd < base.chron)
    ∧ base.pageHeld 0 = true
    ∧ (((baseC fun k => { k with ctl := { k.ctl with rwin := k.ctl.rwin.set 0 { bmask := 1 } } }).updPart 0 fun q => { q with slots := Vector.replicate 8 {} }).pageHeld 0 = false ∧ ((((baseC fun k => { k with ctl := { k.ctl with rwin := k.ctl.rwin.set 0 { bmask := 1 } } }).updPart 0 fun q => { q with slots := Vector.replicate 8 {} }).col 0).rows[(0 : Fin 32)]).at_ ((baseC fun k => { k with ctl := { k.ctl with rwin := k.ctl.rwin.set 0 { bmask := 1 } } }).updPart 0 fun q => { q with slots := Vector.replicate 8 {} }).chron = 0)
    ∧ ((((baseC fun k => { k with ctl := { k.ctl with rwin := k.ctl.rwin.set 0 { bmask := 1 } } }).updPart 0 fun q => { q with slots := Vector.replicate 8 {} }).updCol 0 fun k => { k with rows := k.rows.set 0 (.open_ 2 9000 0 none) }).pageHeld 0 = false ∧ ((((baseC fun k => { k with ctl := { k.ctl with rwin := k.ctl.rwin.set 0 { bmask := 1 } } }).updPart 0 fun q => { q with slots := Vector.replicate 8 {} }).updCol 0 fun k => { k with rows := k.rows.set 0 (.open_ 2 9000 0 none) }).core 0).ctl.rwin[(0 : Fin 4)].bmask.getLsb (0 : Fin 32) = true ∧ (((((baseC fun k => { k with ctl := { k.ctl with rwin := k.ctl.rwin.set 0 { bmask := 1 } } }).updPart 0 fun q => { q with slots := Vector.replicate 8 {} }).updCol 0 fun k => { k with rows := k.rows.set 0 (.open_ 2 9000 0 none) }).col 0).rows[(0 : Fin 32)]).at_ (((baseC fun k => { k with ctl := { k.ctl with rwin := k.ctl.rwin.set 0 { bmask := 1 } } }).updPart 0 fun q => { q with slots := Vector.replicate 8 {} }).updCol 0 fun k => { k with rows := k.rows.set 0 (.open_ 2 9000 0 none) }).chron = 1)
    ∧ (base.core 0).seq.hold ≠ some 0
    ∧ ((baseC fun k => { k with seq := { k.seq with hold := some 0 } }).core 0).seq.hold = some 0 := by
  refine ⟨?_, ?_, ?_, ?_, ?_, ?_, ?_, ?_, ?_⟩ <;> ((try unfold Running); decide +kernel)

/-- A last beat whose place an RCON to a lane took in the beat's cycle, and a burst to a lane under way with its word, which fails at beat 1 (R217,
R352; log 70). -/
theorem test_witness_BurstTail :
    ((baseL fun k => { k with live := true, burstTail := some (7680, List.replicate 512 9), burstDst := 4 }).col 0).burstTail.isSome = true
    ∧ next (exec (.rowBeatDelivery 0 15) (baseL fun k => { k with live := true, burstTail := some (7680, List.replicate 512 9), burstDst := 4 }))
        (fun t => t.me.bke.rowIn[7680]? == some 9 && t.me.bke.rowMask.getLsbD 8191 && (t.col 0).burstTail == none)
    ∧ next (exec (.rowBeatFailure 0 1) (baseL fun k => { k with live := true, burstEnd := 10016, burstDst := 4, burstX := 0, burstStart := 9999 }))
        (fun t => halts t == some 0x55 && (t.col 0).repair) := by
  refine ⟨?_, ?_, ?_⟩ <;> (decide +kernel)

/-- A beat fills its 512 bytes of the row input (R352); a failed beat is 0x55 (R217); a window write under RUN is ignored (R192), with open rows it waits for the precharge. -/
theorem test_row_bus :
    next (exec (.rowBeatDelivery 0 1) (baseL fun k => { k with live := true, burstEnd := 10016, burst := List.replicate 8192 7, burstDst := 16, burstStart := 9999 })) (fun t => t.me.bke.rowIn[512]? == some 7 && t.me.bke.rowIn[511]? == some 0 && t.me.bke.rowMask.getLsbD 1023 && !t.me.bke.rowMask.getLsbD 1024)
    ∧ next (exec (.rowBeatFailure 0 2) (baseL fun k => { k with live := true, burstEnd := 10016, burst := List.replicate 8192 7, burstDst := 16, burstStart := 9999 })) (fun t => halts t == some 0x55 && (t.col 0).burstFail == some 2)
    ∧ next (exec (.busRepair) (base)) (fun t => t.helm.gen == 2)
    ∧ next (exec (.rwinWrite 0 0 false 9) (base)) (fun t => t.me.ctl.rwin[0].bmask == 0)
    ∧ next (exec (.rwinWrite 0 0 false 9) (((baseC fun k => { k with ctl := { k.ctl with rwin := k.ctl.rwin.set 0 { bmask := 1 } } }).updPart 0 fun q => { q with slots := Vector.replicate 8 {} }))) (fun t => t.me.ctl.rwin[0].bmask == 9)
    ∧ next (exec (.rwinWrite 0 0 false 9) ((((baseC fun k => { k with ctl := { k.ctl with rwin := k.ctl.rwin.set 0 { bmask := 1 } } }).updPart 0 fun q => { q with slots := Vector.replicate 8 {} }).updCol 0 fun k => { k with rows := k.rows.set 0 (.open_ 2 9000 0 none) }))) (fun t => t.me.ctl.rwin[0].bmask == 1 && t.agenda.any fun x => x.instr == .rwinApply 0 0 false 9)
    ∧ next (exec (.rwinApply 0 0 false 9) ((((baseC fun k => { k with ctl := { k.ctl with rwin := k.ctl.rwin.set 0 { bmask := 1 } } }).updPart 0 fun q => { q with slots := Vector.replicate 8 {} }).updCol 0 fun k => { k with rows := k.rows.set 0 (.open_ 2 9000 0 none) }))) (fun t => t.me.ctl.rwin[0].bmask == 9) := by
  refine ⟨?_, ?_, ?_, ?_, ?_, ?_, ?_⟩ <;> (decide +kernel)

/-! ## Ports, links and messages -/

/-- `base` with a FABID and link 0 of partitions 0 to 47 over port 5, enabled, in a state. -/
def linked (st : LinkState) (ps : PortState) : State :=
  { base with fab := { base.fab with
      fabid := 7
      links := base.fab.links.set 0 { en := true, st := st, parts := BitVec.allOnes 48, peer := 9, mem := Vector.replicate 4 5 }
      ports := base.fab.ports.set 5 { st := ps } } }

/-- A module with link 0 changed. -/
def link0 (f : Link → Link) (s : State) : State := s.updLink 0 f

/-- No link holds a packet, as a Bool. -/
def quiet (s : State) : Bool :=
  (List.finRange 48).all fun l => s.fab.links[l].held == [] && s.fab.links[l].thawed == [] && s.fab.links[l].todo == [] && s.fab.links[l].gapAt == none && !s.fab.links[l].blocked

theorem links_quiet (s : State) (h : quiet s = true) : LinksQuiet s := by
  intro l
  simpa [and_assoc] using List.all_eq_true.mp h l (List.mem_finRange l)

/-- Without a FABID and with one; a port of a link that is UP and leaves UP, one that returns, one out for 2^22 cycles and one out for a cycle less. -/
theorem test_witness_HostPort :
    base.fab.fabid = 0
    ∧ (linked .up .up).fab.fabid ≠ 0
    ∧ ((({ linked .up .up with curLink := 5 } : State).fab.ports[({ linked .up .up with curLink := 5 } : State).curLink]).st = .up ∧ ({ linked .up .up with curLink := 5 } : State).fab.linkOf ({ linked .up .up with curLink := 5 } : State).curLink = some (0, 0) ∧ (({ linked .up .up with curLink := 5 } : State).fab.links[(0 : Fin 48)]).st = .up)
    ∧ (base.fab.ports[base.curLink]).st ≠ .up
    ∧ ((({ (linked .up .training).updPort 5 (fun k => { k with outSince := some 100 }) with curLink := 5 } : State).fab.ports[({ (linked .up .training).updPort 5 (fun k => { k with outSince := some 100 }) with curLink := 5 } : State).curLink]).outSince.isSome = true ∧ (({ (linked .up .training).updPort 5 (fun k => { k with outSince := some 100 }) with curLink := 5 } : State).fab.ports[({ (linked .up .training).updPort 5 (fun k => { k with outSince := some 100 }) with curLink := 5 } : State).curLink]).st ≠ .up)
    ∧ ((({ (linked .up .training).updPort 5 (fun k => { k with outSince := some 100 }) with chron := 2 ^ 22 + 100 } : State).fab.links[({ (linked .up .training).updPort 5 (fun k => { k with outSince := some 100 }) with chron := 2 ^ 22 + 100 } : State).curLink]).st = .up ∧ 5 ∈ (({ (linked .up .training).updPort 5 (fun k => { k with outSince := some 100 }) with chron := 2 ^ 22 + 100 } : State).fab.links[({ (linked .up .training).updPort 5 (fun k => { k with outSince := some 100 }) with chron := 2 ^ 22 + 100 } : State).curLink]).ports ∧ (({ (linked .up .training).updPort 5 (fun k => { k with outSince := some 100 }) with chron := 2 ^ 22 + 100 } : State).fab.ports[(5 : Fin 48)]).outSince = some 100 ∧ 100 + 2 ^ 22 ≤ ({ (linked .up .training).updPort 5 (fun k => { k with outSince := some 100 }) with chron := 2 ^ 22 + 100 } : State).chron)
    ∧ ((({ (linked .up .training).updPort 5 (fun k => { k with outSince := some 100 }) with chron := 2 ^ 22 + 99 } : State).fab.links[(0 : Fin 48)]).ports = [5] ∧ (({ (linked .up .training).updPort 5 (fun k => { k with outSince := some 100 }) with chron := 2 ^ 22 + 99 } : State).fab.ports[(5 : Fin 48)]).outSince = some 100 ∧ ({ (linked .up .training).updPort 5 (fun k => { k with outSince := some 100 }) with chron := 2 ^ 22 + 99 } : State).chron < 100 + 2 ^ 22)
    ∧ ((linked .up .up).fab.linkOf 5 = some (0, 0) ∧ Running (linked .up .up) 0) := by
  refine ⟨?_, ?_, ?_, ?_, ?_, ?_, ?_, ?_⟩ <;> ((try unfold Running); decide +kernel)

/-- Training ends in UP at ×16 (R69); loss of UP counts RETRAIN (R70); after 2^22 cycles the link is DOWN with 0x61 (R57, R60), one cycle earlier not; the host link down is 0x68 (R53). -/
theorem test_ports :
    next (exec (.portUp 5 0 0 (some 9)) (linked .up .up)) (fun t => (t.fab.ports[5]).st == .up && (t.fab.ports[5]).width == 0)
    ∧ next (exec (.portLeavesUp) ({ linked .up .up with curLink := 5 })) (fun t => (t.fab.ports[5]).retrain == 1 && (t.fab.ports[5]).st == .training)
    ∧ next (exec (.portReturnsUp) ({ (linked .up .training).updPort 5 (fun k => { k with outSince := some 100 }) with curLink := 5 })) (fun t => (t.fab.ports[5]).st == .up)
    ∧ next (exec (.linkDownTimeout) ({ (linked .up .training).updPort 5 (fun k => { k with outSince := some 100 }) with chron := 2 ^ 22 + 100 })) (fun t => (t.fab.links[0]).st == .down && halts t == some 0x61)
    ∧ next (exec (.linkDownTimeout) ({ (linked .up .training).updPort 5 (fun k => { k with outSince := some 100 }) with chron := 2 ^ 22 + 99 })) (fun t => (t.fab.links[0]).st == .up && halts t == none)
    ∧ next (exec (.hostLinkDown) (base)) (fun t => halts t == some 0x68)
    ∧ next (exec (.ideIntegrityFailure (.opt 5)) (linked .up .up)) (fun t => halts t == some 0x65)
    ∧ next (exec (.flitReplay (.opt 5) true) (base)) (fun t => (t.fab.ports[5]).feccor == 1)
    ∧ next (exec (.flitReplay (.opt 5) false) (base)) (fun t => (t.fab.ports[5]).flbad == 1)
    ∧ next (exec (.hostVendorMessage) (base)) (fun t => t.hif.hostPort.msgdrop == 1)
    ∧ next (exec (.hostLinkUp .x4) (base)) (fun t => t.hif.hostPort.width == 2)
    ∧ next (exec (.hostConfigurationRequest .pf (.numVfs 3)) (base)) (fun t => t.hif.numVfs == 3)
    ∧ next (exec (.portUp 5 0 0 (some 9)) (base)) (fun t => (t.fab.ports[5]).st == .dark) := by
  refine ⟨?_, ?_, ?_, ?_, ?_, ?_, ?_, ?_, ?_, ?_, ?_, ?_, ?_⟩ <;> (decide +kernel)

/-- Each end of training: no light, an equal FABID, every lane whole, a channel of lane 15 and one of lane 0 that fail, and both (R52, R53). -/
theorem test_witness_TrainingEnds :
    trainPort 0 0 none 7 = (.dark, 3, 0)
    ∧ trainPort 0 0 (some 7) 7 = (.training, 3, 0)
    ∧ trainPort 0 0 (some 9) 7 = (.up, 0, 0xFFFF)
    ∧ trainPort 0x80000000 0 (some 9) 7 = (.up, 1, 0x00FF)
    ∧ trainPort 0 1 (some 9) 7 = (.up, 1, 0xFF00)
    ∧ trainPort 0x80000000 2 (some 9) 7 = (.down, 3, 0)
    ∧ (LaneOk 0x80000000 0 7 ∧ ¬ LaneOk 0x80000000 0 15 ∧ ¬ LaneOk 0 2 0) := by
  refine ⟨?_, ?_, ?_, ?_, ?_, ?_, ?_⟩ <;> ((try unfold LaneOk); decide)

/-- An UP port whose training ends again ×8 counts in RETRAIN only where it is not UP after it; IDE streams of the host port that are programmed and not. -/
theorem test_port_reports :
    next (exec (.portUp 5 0 0 none) (linked .up .up)) (fun t => (t.fab.ports[5]).st == .dark && (t.fab.ports[5]).retrain == 1)
    ∧ next (exec (.portUp 5 0 0 (some 9)) (linked .up .up)) (fun t => (t.fab.ports[5]).retrain == 0 && (t.fab.ports[5]).downstream)
    ∧ next (exec (.hostConfigurationRequest .pf (.ideStart 3)) base) (fun t => t.hif.ide == [])
    ∧ next (exec (.hostConfigurationRequest .pf (.ideProgram 3 true [5])) base) (fun t => (tget t.hif.ide 3).any fun x => x.selective && !x.on)
    ∧ next (exec (.hostConfigurationRequest .pf .certificate) base) (fun t => t.helm.spdmOut.length == 1) := by
  refine ⟨?_, ?_, ?_, ?_, ?_⟩ <;> (decide +kernel)

/-- Enabled links and disabled ones, good and with each fault of configuration; HELLO that completes a link, one that does not, one from a wrong fabric, one elsewhere; a gap of 2^20 cycles. -/
theorem test_witness_PeerLinks :
    ((linked .up .up).fab.links[(linked .up .up).curLink]).en = true
    ∧ (((link0 (fun k => { k with en := false, st := .disabled }) (linked .up .up)).fab.links[(link0 (fun k => { k with en := false, st := .disabled }) (linked .up .up)).curLink]).en = false ∧ ((link0 (fun k => { k with en := false, st := .disabled }) (linked .up .up)).fab.links[(link0 (fun k => { k with en := false, st := .disabled }) (linked .up .up)).curLink]).nmem ≠ 3 ∧ ((link0 (fun k => { k with en := false, st := .disabled }) (linked .up .up)).fab.links[(link0 (fun k => { k with en := false, st := .disabled }) (linked .up .up)).curLink]).ports = [5] ∧ (link0 (fun k => { k with en := false, st := .disabled }) (linked .up .up)).fab.fabid ≠ 0)
    ∧ (∀ m, m ≠ (link0 (fun k => { k with en := false, st := .disabled }) (linked .up .up)).curLink → (link0 (fun k => { k with en := false, st := .disabled }) (linked .up .up)).fab.links[m].en = false)
    ∧ ((({ linked .disabled .up with fab := { (linked .disabled .up).fab with links := ((linked .disabled .up).fab.links.set 0 { parts := 1, peer := 9, mem := Vector.replicate 4 5 }).set 1 { en := true, mem := Vector.replicate 4 5 } } } : State).fab.links[({ linked .disabled .up with fab := { (linked .disabled .up).fab with links := ((linked .disabled .up).fab.links.set 0 { parts := 1, peer := 9, mem := Vector.replicate 4 5 }).set 1 { en := true, mem := Vector.replicate 4 5 } } } : State).curLink]).en = false ∧ (({ linked .disabled .up with fab := { (linked .disabled .up).fab with links := ((linked .disabled .up).fab.links.set 0 { parts := 1, peer := 9, mem := Vector.replicate 4 5 }).set 1 { en := true, mem := Vector.replicate 4 5 } } } : State).fab.links[(1 : Fin 48)]).en = true ∧ 5 ∈ (({ linked .disabled .up with fab := { (linked .disabled .up).fab with links := ((linked .disabled .up).fab.links.set 0 { parts := 1, peer := 9, mem := Vector.replicate 4 5 }).set 1 { en := true, mem := Vector.replicate 4 5 } } } : State).fab.links[(1 : Fin 48)]).ports ∧ 5 ∈ (({ linked .disabled .up with fab := { (linked .disabled .up).fab with links := ((linked .disabled .up).fab.links.set 0 { parts := 1, peer := 9, mem := Vector.replicate 4 5 }).set 1 { en := true, mem := Vector.replicate 4 5 } } } : State).fab.links[(0 : Fin 48)]).ports)
    ∧ (base.fab.fabid = 0 ∧ (base.fab.links[base.curLink]).en = false)
    ∧ (((linked .training .up).fab.links[(0 : Fin 48)]).st = .training ∧ ((linked .training .up).fab.links[(0 : Fin 48)]).ports = [5] ∧ ((linked .training .up).fab.ports[(5 : Fin 48)]).st = .up ∧ ((linked .training .up).fab.links[(0 : Fin 48)]).waiting = [])
    ∧ (((link0 (fun k => { k with nmem := 1, mem := k.mem.set 1 6 }) (linked .training .up)).fab.links[(0 : Fin 48)]).st = .training ∧ ((link0 (fun k => { k with nmem := 1, mem := k.mem.set 1 6 }) (linked .training .up)).fab.links[(0 : Fin 48)]).ports = [5, 6] ∧ ((link0 (fun k => { k with nmem := 1, mem := k.mem.set 1 6 }) (linked .training .up)).fab.links[(0 : Fin 48)]).hello = [])
    ∧ (10 : BitVec 12) ≠ 9
    ∧ ((linked .up .up).fab.links[(0 : Fin 48)]).st ≠ .training
    ∧ (((link0 (fun k => { k with held := [(1, 10, .message 0x10 0 0)] }) { linked .up .up with chron := 10 + 2 ^ 20 }).fab.links[(link0 (fun k => { k with held := [(1, 10, .message 0x10 0 0)] }) { linked .up .up with chron := 10 + 2 ^ 20 }).curLink]).st = .up ∧ ((link0 (fun k => { k with held := [(1, 10, .message 0x10 0 0)] }) { linked .up .up with chron := 10 + 2 ^ 20 }).fab.links[(link0 (fun k => { k with held := [(1, 10, .message 0x10 0 0)] }) { linked .up .up with chron := 10 + 2 ^ 20 }).curLink]).outFrom = none ∧ 10 + 2 ^ 20 ≤ (link0 (fun k => { k with held := [(1, 10, .message 0x10 0 0)] }) { linked .up .up with chron := 10 + 2 ^ 20 }).chron - ((link0 (fun k => { k with held := [(1, 10, .message 0x10 0 0)] }) { linked .up .up with chron := 10 + 2 ^ 20 }).fab.links[(link0 (fun k => { k with held := [(1, 10, .message 0x10 0 0)] }) { linked .up .up with chron := 10 + 2 ^ 20 }).curLink]).paused)
    ∧ (base.fab.links[base.curLink]).held = [] := by
  refine ⟨?_, ?_, ?_, ?_, ?_, ?_, ?_, ?_, ?_, ?_, ?_⟩ <;> (decide +kernel)

/-- A member of another link refuses LINK_ENABLE with ERR (R56); HELLO from the peer brings the link UP, from another sets ERR (R58); a gap of 2^20 is 0x62 (R59). -/
theorem test_links :
    next (exec (.linkEnable) ({ linked .disabled .up with fab := { (linked .disabled .up).fab with links := ((linked .disabled .up).fab.links.set 0 { parts := 1, peer := 9, mem := Vector.replicate 4 5 }).set 1 { en := true, mem := Vector.replicate 4 5 } } })) (fun t => (t.fab.links[0]).err && !(t.fab.links[0]).en)
    ∧ next (exec (.linkEnable) (link0 (fun k => { k with en := false, st := .disabled }) (linked .up .up))) (fun t => (t.fab.links[0]).st == .training && ((t.fab.links[0]).out.map fun x => x.msg) == [some (0x01, 7, 0)])
    ∧ next (exec (.linkDisable) (linked .up .up)) (fun t => (t.fab.links[0]).st == .disabled)
    ∧ next (exec (.hello 0 5 9) (linked .training .up)) (fun t => (t.fab.links[0]).st == .up)
    ∧ next (exec (.hello 0 5 8) (linked .training .up)) (fun t => (t.fab.links[0]).err)
    ∧ next (exec (.hello 0 5 9) (link0 (fun k => { k with nmem := 1, mem := k.mem.set 1 6 }) (linked .training .up))) (fun t => (t.fab.links[0]).st == .training && (t.fab.links[0]).hello == [5])
    ∧ next (exec (.stripeGapTimeout) (link0 (fun k => { k with held := [(1, 10, .message 0x10 0 0)] }) { linked .up .up with chron := 10 + 2 ^ 20 })) (fun t => halts t == some 0x62 && (t.fab.links[0]).st == .down) := by decide +kernel

/-- What the clauses on messages and the freeze wire assume, met by small states: a packet in order on a link that is UP, one under the freeze wire, one on
a wrong member, tokens below and past the limit, a STOP new and one handled lately, and the wire held by each and by both. -/
theorem test_witness_MessagesAndFreeze :
    (linked .up .up).isFrozen = false ∧ LinksQuiet (linked .up .up) ∧ ((linked .up .up).fab.links[(0 : Fin 48)]).member (((linked .up .up).fab.links[(0 : Fin 48)]).rxNext.toNat % ((linked .up .up).fab.links[(0 : Fin 48)]).members) = (5 : Fin 48).val
    ∧ ({ linked .up .up with frzCtl := true } : State).isFrozen = true ∧ isThaw (.message 0x10 0 0) = false ∧ ((linked .up .up).fab.links[(0 : Fin 48)]).member 0 ≠ (6 : Fin 48).val
    ∧ (linked .up .up).partOf 0 = some 0 ∧ ((linked .up .up).fab.links[(0 : Fin 48)]).parts.getLsb (0 : Fin 48) = true ∧ ((linked .up .up).part 0).lb.act = false ∧ Running (linked .up .up) 0
    ∧ ((linked .up .up).me.ctl.ltc[2]).toNat + (255 : BitVec 8).toNat ≤ 4095 ∧ 4095 < ((((linked .up .up).upd 0 fun k => { k with ctl := { k.ctl with ltc := k.ctl.ltc.set 2 4095 } }).core 0).ctl.ltc[2]).toNat + (1 : BitVec 8).toNat
    ∧ ((linked .up .up).fab.links[(0 : Fin 48)]).lastPort = 5 ∧ tget (linked .up .up).fab.stopsSeen 3 = none ∧ tget ({ linked .up .up with fab := { (linked .up .up).fab with stopsSeen := [(3, 9000)] } } : State).fab.stopsSeen 3 = some 9000
    ∧ ((link0 (fun k => { k with frzen := true }) (linked .up .up)).fab.links[(link0 (fun k => { k with frzen := true }) (linked .up .up)).curLink]).frzen = true ∧ ((link0 (fun k => { k with frzen := true }) (linked .up .up)).fab.links[(link0 (fun k => { k with frzen := true }) (linked .up .up)).curLink]).st = .up ∧ ((linked .up .up).fab.links[(linked .up .up).curLink]).frzen = false
    ∧ ({ link0 (fun k => { k with frzen := true }) (linked .up .up) with frzMsg := true, frzCtl := true } : State).frzMsg = true ∧ ({ link0 (fun k => { k with frzen := true }) (linked .up .up) with frzMsg := true, frzCtl := true } : State).frzCtl = true ∧ LinksQuiet ({ link0 (fun k => { k with frzen := true }) (linked .up .up) with frzMsg := true, frozen := 5 }) ∧ ({ link0 (fun k => { k with frzen := true }) (linked .up .up) with frzMsg := true, frozen := 5 } : State).frzMsg = true ∧ ({ link0 (fun k => { k with frzen := true }) (linked .up .up) with frzMsg := true, frozen := 5 } : State).frzCtl = false
    ∧ LinksQuiet ({ link0 (fun k => { k with frzen := true }) (linked .up .up) with frzCtl := true }) ∧ ({ link0 (fun k => { k with frzen := true }) (linked .up .up) with frzCtl := true } : State).frzCtl = true ∧ ({ link0 (fun k => { k with frzen := true }) (linked .up .up) with frzCtl := true } : State).frzMsg = false := by
  have a := links_quiet (linked .up .up) (by decide +kernel)
  have b := links_quiet ({ link0 (fun k => { k with frzen := true }) (linked .up .up) with frzMsg := true, frozen := 5 }) (by decide +kernel)
  have c := links_quiet ({ link0 (fun k => { k with frzen := true }) (linked .up .up) with frzCtl := true }) (by decide +kernel)
  unfold Running
  refine ⟨?_, a, ?_, ?_, ?_, ?_, ?_, ?_, ?_, ?_, ?_, ?_, ?_, ?_, ?_, ?_, ?_, ?_, ?_, ?_, b, ?_, ?_, c, ?_, ?_⟩ <;> decide +kernel

/-- STAGE writes its word (R61); a packet in order is delivered and RXNEXT moves, on a wrong member 0x62 (R59); TKGIVE past 4,095 is 0x42 (R63); STOP is 0x67 once in 2^24 cycles (R64). -/
theorem test_messages :
    next (exec (.stage 3 9) (base)) (fun t => t.fab.sgw[3] == 9)
    ∧ next (exec (.peerTlpArrival 0 5 0 (.message 0x10 3 9)) (linked .up .up)) (fun t => t.fab.sgw[3] == 9 && (t.fab.links[0]).rxNext == 1)
    ∧ next (exec (.peerTlpArrival 0 6 0 (.message 0x10 3 9)) (linked .up .up)) (fun t => halts t == some 0x62)
    ∧ next (exec (.peerTlpArrival 0 5 1 (.message 0x10 3 9)) (linked .up .up)) (fun t => t.fab.sgw[3] == 0 && (t.fab.links[0]).held.length == 1)
    ∧ next (exec (.tkgive 0 0 2 255) (linked .up .up)) (fun t => t.me.ctl.ltc[2] == 255)
    ∧ next (exec (.tkgive 0 0 2 1) ((linked .up .up).upd 0 fun k => { k with ctl := { k.ctl with ltc := k.ctl.ltc.set 2 4095 } })) (fun t => halts t == some 0x42)
    ∧ next (exec (.tkgive 0 0 2 0) (linked .up .up)) (fun t => (t.fab.ports[5]).malf == 1)
    ∧ next (exec (.stop 0 3 0x52) (linked .up .up)) (fun t => halts t == some 0x67)
    ∧ next (exec (.stop 0 3 0x52) ({ linked .up .up with fab := { (linked .up .up).fab with stopsSeen := [(3, 9000)] } })) (fun t => halts t == none)
    ∧ next (exec (.stopDelayedSend 3 0x52 0) (linked .up .up)) (fun t => (t.fab.links[0]).out.length == 1)
    ∧ next (exec (.freeze) (link0 (fun k => { k with frzen := true }) (linked .up .up))) (fun t => t.frzMsg)
    ∧ next (exec (.freeze) (linked .up .up)) (fun t => !t.frzMsg && (t.fab.ports[5]).malf == 1)
    ∧ next (exec (.frzctlRelease) ({ link0 (fun k => { k with frzen := true }) (linked .up .up) with frzMsg := true, frzCtl := true })) (fun t => !t.frzCtl && t.isFrozen)
    ∧ next (exec (.thaw) ({ link0 (fun k => { k with frzen := true }) (linked .up .up) with frzMsg := true, frozen := 5 })) (fun t => !t.isFrozen && t.chron == 10000)
    ∧ next (exec (.freezeTimeout) ({ link0 (fun k => { k with frzen := true }) (linked .up .up) with frzCtl := true })) (fun t => halts t == some 0x76 && !t.isFrozen) := by
  refine ⟨?_, ?_, ?_, ?_, ?_, ?_, ?_, ?_, ?_, ?_, ?_, ?_, ?_, ?_, ?_⟩ <;> (decide +kernel)

/-! ## Accesses and registers of the host -/

/-- Requests of a peer: for a partition bound to its link, for one beyond 47, for one in replay, of no bytes, behind a refused write, and under the freeze
wire (R66, R121, R147). -/
theorem test_witness_PeerRequests :
    ((linked .up .up).fab.links[(0 : Fin 48)]).st = .up ∧ ((linked .up .up).fab.links[(0 : Fin 48)]).blocked = false
    ∧ (linked .up .up).replaying 0 = false ∧ ((linked .up .up).part 0).lb.act = false ∧ (linked .up .up).walkBusy 0 0x10 = false
    ∧ ({ linked .up .up with ms := { base.ms with pinned := [{ part := 0, base := 0, big := false, leaf := 0x1_0000_0001_0075 }] } } : State).replaying 0 = false
    ∧ next (exec (.peerRequest 0 60 0x10 4 .read 5) (linked .up .up)) (fun t => ((t.fab.links[0]).out.map fun o => o.cpl) == [some (5, .ur, [])])
    ∧ next (exec (.peerRequest 0 0 0x10 0 .read 5) (linked .up .up)) (fun t => ((t.fab.links[0]).out.map fun o => o.cpl) == [some (5, .ok, [])])
    ∧ next (exec (.peerRequest 0 0 0x10 4 .read 5) (link0 (fun k => { k with blocked := true }) (linked .up .up))) (fun t => (t.fab.links[0]).todo.length == 1)
    ∧ next (exec (.peerRequest 0 0 0x10 4 .read 5) { linked .up .up with frzCtl := true }) (fun t => t.agenda.length == 1)
    ∧ next (exec (.peerRequest 0 0 0x10 4 .read 5) (linked .up .down)) (fun t => t.reqs.length == 1)
    ∧ next (exec (.peerRequest 0 0 0x10 4 .read 5) (linked .down .down)) (fun t => t.reqs == []) := by
  refine ⟨?_, ?_, ?_, ?_, ?_, ?_, ?_, ?_, ?_, ?_, ?_, ?_⟩ <;> (decide +kernel)

/-- The window over LPDDR6 in physical mode, over nothing, and through a partition; the bounds of the identity block; FQHEAD up to FQTAIL and past it. -/
theorem test_witness_HostAccesses :
    (({ base with hif := { base.hif with w2part := 0xFF, w2base := 2 ^ 52 } } : State).isFrozen = false ∧ 48 ≤ ({ base with hif := { base.hif with w2part := 0xFF, w2base := 2 ^ 52 } } : State).hif.w2part.toNat)
    ∧ (({ base with hif := { base.hif with w2part := 0xFF, w2base := 2 ^ 52 } } : State).paKind ((({ base with hif := { base.hif with w2part := 0xFF, w2base := 2 ^ 52 } } : State).w2base .pf + 0x40) % 2 ^ 56) = .lpddr ∧ ({ base with hif := { base.hif with w2part := 0xFF, w2base := 2 ^ 52 } } : State).paKind ((({ base with hif := { base.hif with w2part := 0xFF, w2base := 2 ^ 52 } } : State).w2base .pf + 0x40) % 2 ^ 56 + 8 - 1) = .lpddr ∧ 0x40 % 8 = 0)
    ∧ ({ base with hif := { base.hif with w2part := 0xFF } } : State).paKind ((({ base with hif := { base.hif with w2part := 0xFF } } : State).w2base .pf + 0x40) % 2 ^ 56) = .nothing
    ∧ ((base.w2base (.vf 0) + 0x40) % 2 ^ 56) / 2 ^ 52 ≤ 1
    ∧ ({ base with frzCtl := true } : State).isFrozen = true
    ∧ (base.hif.hostOut = [] ∧ base.helm.scAt ≤ base.chron)
    ∧ ((base.part 0).fqtail - (base.part 0).fqhead).toNat < ((1 : BitVec 32) - (base.part 0).fqhead).toNat
    ∧ (((0 : BitVec 32) - (base.part 0).fqhead).toNat ≤ ((base.part 0).fqtail - (base.part 0).fqhead).toNat ∧ (base.part 0).fqheld = [])
    ∧ (base.core 0).seq.heldTrap = none := by
  refine ⟨?_, ?_, ?_, ?_, ?_, ?_, ?_, ?_, ?_⟩ <;> (decide +kernel)

/-- A host write and an AtomicOp reach the bytes of the window; an AtomicOp of AND gets UR (R49, R74, R120). -/
theorem test_host_memory :
    next (exec (.hostMemoryRequest .pf 0x40 2 (.write [1, 2]) 0) ({ base with hif := { base.hif with w2part := 0xFF, w2base := 2 ^ 52 } })) (fun t => readBytes t.memory (2 ^ 52 + 0x40) 2 == [1, 2])
    ∧ next (exec (.hostMemoryRequest .pf 0x40 2 .read 7) ({ base with hif := { base.hif with w2part := 0xFF } })) (fun t => (t.hif.hostOut.map fun x => x.cpl) == [some (7, .ur, [])])
    ∧ next (exec (.hostAtomicop .pf .bar2 0x40 4 .add 5 0 7) ({ base with hif := { base.hif with w2part := 0xFF, w2base := 2 ^ 52 } })) (fun t => readNat t.memory (2 ^ 52 + 0x40) 4 == 5 && (t.hif.hostOut.map fun x => x.cpl) == [some (7, .ok, [0, 0, 0, 0])])
    ∧ next (exec (.hostAtomicop .pf .bar2 0x40 4 .and 5 0 7) ({ base with hif := { base.hif with w2part := 0xFF, w2base := 2 ^ 52 } })) (fun t => (t.hif.hostOut.map fun x => x.cpl) == [some (7, .ur, [])])
    ∧ next (exec (.hostMemoryRequest (.vf 0) 0x40 8 .read 7) (base)) (fun t => t.reqs.length == 1)
    ∧ next (exec (.atsInvalidation 0 1) (base)) (fun t => t.hif.hostOut.length == 1) := by decide +kernel

/-- INTST is W1C (R79), the identity block is read-only (R72), FRZCTL and SCADDR act (R164, R165), FQHEAD does not pass FQTAIL (R110). -/
theorem test_registers :
    next (exec (.registerWrite .pf .bar0 0x2000 8 1) ({ base with hif := { base.hif with intst := 3 } })) (fun t => t.hif.intst == 2)
    ∧ next (exec (.registerWrite .pf .bar0 0x1008 8 0x55) (base)) (fun t => t.helm.harg == 0x55)
    ∧ next (exec (.registerWrite .pf .bar0 0x1040 4 1) (base)) (fun t => t.isFrozen)
    ∧ next (exec (.registerWrite .pf .bar0 0x1048 4 9) (base)) (fun t => t.helm.scaddr == 9 && t.helm.scAt == 10064)
    ∧ next (exec (.fqheadWrite 0 1) (base)) (fun t => (t.part 0).fqhead == 0)
    ∧ next (exec (.registerWrite .pf .bar0 0x30004 4 9) (base)) (fun t => t.memory == base.memory)
    ∧ next (exec (.scanAddressWrite 9) (base)) (fun t => t.helm.scaddr == 9) := by decide +kernel

/-- A leaf of LPDDR6 memory with bits of the rights and of MIGRATING: V, LOC 1, and the page at 0x10000 of it (R101). -/
def lpLeaf (bits : Nat) : Nat := 1 + 4 + bits + 2 ^ 52 + 0x10000

/-- `base` with the page at 0 of partition 0 pinned to a leaf, and one request. -/
def reqBase (leaf : Nat) (f : Req → Req) : State :=
  { base with
    ms := { base.ms with pinned := [{ part := 0, base := 0, big := false, leaf := leaf }] }
    nextId := 2
    reqs := [f { id := 1, who := 0, core := 0, part := some 0, kind := .read, ia := 0x10, n := 8, dest := .gpr 3 8 false false }] }

/-- The one request of `reqBase`. -/
def theReq (s : State) : Req := (s.reqs.head?).getD { id := 0, who := 0, core := 0, part := none, kind := .zero, ia := 0, n := 0, dest := .none_ }

/-- A posted write of the host through a partition that waits, behind which a request in physical mode waits too (R264); a request that uses a
translation the host takes back (R120). -/
theorem test_witness_HostOrder :
    ¬ HostClear (reqBase (lpLeaf 0x70) (fun r => { r with who := 5, dest := .host 3, kind := .write [1] }))
    ∧ (∀ x ∈ (reqBase (lpLeaf 0x70) (fun r => { r with who := 5, dest := .host 3, kind := .write [1] })).reqs, x.id < 2)
    ∧ HostClear base
    ∧ next (exec (.hostMemoryRequest .pf 0x40 2 .read 7) { reqBase (lpLeaf 0x70) (fun r => { r with who := 5, dest := .host 3, kind := .write [1] }) with
        hif := { base.hif with w2part := 0xFF, w2base := 2 ^ 52 } }) (fun t => t.reqs.length == 2 && t.hif.hostOut == [])
    ∧ next (exec (.atsInvalidation 0 4096) (reqBase (lpLeaf 0x70) (fun r => { r with ats := some 0 }))) (fun t => t.hif.hostOut == [] && t.agenda.length == 1) := by
  refine ⟨fun h => ?_, ?_, fun x h => ?_, ?_, ?_⟩
  · exact absurd (h (theReq (reqBase (lpLeaf 0x70) (fun r => { r with who := 5, dest := .host 3, kind := .write [1] }))) (by decide +kernel) ⟨3, by decide +kernel⟩ (by decide +kernel)) (by decide +kernel)
  · decide +kernel
  · exact absurd h (by simp [show base.reqs = [] by decide +kernel])
  · decide +kernel
  · decide +kernel

/-- Requests of a load to a page that grants it, that migrates and that grants nothing; one that is done, one to the own scratchpad, one sent to a peer, one of the migration engine, one that writes a stop record. -/
theorem test_witness_Accesses :
    (Open (reqBase (lpLeaf 0x70) (fun r => r)) 1 (theReq (reqBase (lpLeaf 0x70) (fun r => r))) ∧ (reqBase (lpLeaf 0x70) (fun r => r) : State).reqWaits (theReq (reqBase (lpLeaf 0x70) (fun r => r))) = false ∧ (reqBase (lpLeaf 0x70) (fun r => r)).walk 0 0x10 .read = .mem (2 ^ 52 + 0x10010))
    ∧ (match performAt (reqBase (lpLeaf 0x70) (fun r => r)).memory (2 ^ 52 + 0x10010) 8 .read with | .ok _ => true | _ => false) = true
    ∧ (Open (reqBase (lpLeaf 0x170) (fun r => r)) 1 (theReq (reqBase (lpLeaf 0x170) (fun r => r))) ∧ (reqBase (lpLeaf 0x170) (fun r => r) : State).reqWaits (theReq (reqBase (lpLeaf 0x170) (fun r => r))) = false ∧ (reqBase (lpLeaf 0x170) (fun r => r)).walk 0 0x10 .read = .refuse ((reqBase (lpLeaf 0x170) (fun r => r)).moveHint 0) none)
    ∧ (Open (reqBase (lpLeaf 0) (fun r => r)) 1 (theReq (reqBase (lpLeaf 0) (fun r => r))) ∧ (reqBase (lpLeaf 0) (fun r => r) : State).reqWaits (theReq (reqBase (lpLeaf 0) (fun r => r))) = false ∧ (reqBase (lpLeaf 0) (fun r => r)).walk 0 0x10 .read = .fault 0x32 (lpLeaf 0) 3)
    ∧ ((reqBase (lpLeaf 0x70) (fun r => { r with done := true, result := [0xFF, 0, 0, 0, 0, 0, 0, 0x80] })).req 1 = some (theReq (reqBase (lpLeaf 0x70) (fun r => { r with done := true, result := [0xFF, 0, 0, 0, 0, 0, 0, 0x80] }))) ∧ (theReq (reqBase (lpLeaf 0x70) (fun r => { r with done := true, result := [0xFF, 0, 0, 0, 0, 0, 0, 0x80] }))).done = true ∧ (theReq (reqBase (lpLeaf 0x70) (fun r => { r with done := true, result := [0xFF, 0, 0, 0, 0, 0, 0, 0x80] }))).err = none ∧ (theReq (reqBase (lpLeaf 0x70) (fun r => { r with done := true, result := [0xFF, 0, 0, 0, 0, 0, 0, 0x80] }))).dest = .gpr 3 8 false false)
    ∧ (Open (reqBase (lpLeaf 0x70) (fun r => { r with own := true, kind := .write [1], n := 1, ia := 3 * 2 ^ 52, dest := .none_ })) 1 (theReq (reqBase (lpLeaf 0x70) (fun r => { r with own := true, kind := .write [1], n := 1, ia := 3 * 2 ^ 52, dest := .none_ }))) ∧ (reqBase (lpLeaf 0x70) (fun r => { r with own := true, kind := .write [1], n := 1, ia := 3 * 2 ^ 52, dest := .none_ }) : State).reqWaits (theReq (reqBase (lpLeaf 0x70) (fun r => { r with own := true, kind := .write [1], n := 1, ia := 3 * 2 ^ 52, dest := .none_ }))) = false ∧ (theReq (reqBase (lpLeaf 0x70) (fun r => { r with own := true, kind := .write [1], n := 1, ia := 3 * 2 ^ 52, dest := .none_ }))).own = true ∧ (theReq (reqBase (lpLeaf 0x70) (fun r => { r with own := true, kind := .write [1], n := 1, ia := 3 * 2 ^ 52, dest := .none_ }))).dest = .none_ ∧ (theReq (reqBase (lpLeaf 0x70) (fun r => { r with own := true, kind := .write [1], n := 1, ia := 3 * 2 ^ 52, dest := .none_ }))).kind = .write [1])
    ∧ (Open (reqBase (lpLeaf 0x70) (fun r => { r with sent := some 5 })) 1 (theReq (reqBase (lpLeaf 0x70) (fun r => { r with sent := some 5 }))) ∧ (reqBase (lpLeaf 0x70) (fun r => { r with sent := some 5 }) : State).reqWaits (theReq (reqBase (lpLeaf 0x70) (fun r => { r with sent := some 5 }))) = false ∧ (theReq (reqBase (lpLeaf 0x70) (fun r => { r with sent := some 5 }))).sent = some 5 ∧ (theReq (reqBase (lpLeaf 0x70) (fun r => { r with sent := some 5 }))).who < 5 ∧ (reqBase (lpLeaf 0x70) (fun r => { r with sent := some 5 })).isFrozen = false ∧ (reqBase (lpLeaf 0x70) (fun r => { r with sent := some 5 })).partOf 0 = some 0)
    ∧ Running (reqBase (lpLeaf 0x70) (fun r => { r with sent := some 5 })) 0
    ∧ (Open ({ reqBase (lpLeaf 0x70) (fun r => { r with who := 7, core := 0, part := none, sent := some 5, dest := .mig 0 }) with mig := { base.mig with moving := some { cmd := { op := 2, part := 0, sz := false, dest := 0, id := 0, ia := 0, dst := 0, lim := 0 }, leafAt := 0, leaf := 0, big := false, newAddr := 0, ends := 0 } } }) 1 (theReq ({ reqBase (lpLeaf 0x70) (fun r => { r with who := 7, core := 0, part := none, sent := some 5, dest := .mig 0 }) with mig := { base.mig with moving := some { cmd := { op := 2, part := 0, sz := false, dest := 0, id := 0, ia := 0, dst := 0, lim := 0 }, leafAt := 0, leaf := 0, big := false, newAddr := 0, ends := 0 } } })) ∧ ({ reqBase (lpLeaf 0x70) (fun r => { r with who := 7, core := 0, part := none, sent := some 5, dest := .mig 0 }) with mig := { base.mig with moving := some { cmd := { op := 2, part := 0, sz := false, dest := 0, id := 0, ia := 0, dst := 0, lim := 0 }, leafAt := 0, leaf := 0, big := false, newAddr := 0, ends := 0 } } } : State).reqWaits (theReq ({ reqBase (lpLeaf 0x70) (fun r => { r with who := 7, core := 0, part := none, sent := some 5, dest := .mig 0 }) with mig := { base.mig with moving := some { cmd := { op := 2, part := 0, sz := false, dest := 0, id := 0, ia := 0, dst := 0, lim := 0 }, leafAt := 0, leaf := 0, big := false, newAddr := 0, ends := 0 } } })) = false ∧ (theReq ({ reqBase (lpLeaf 0x70) (fun r => { r with who := 7, core := 0, part := none, sent := some 5, dest := .mig 0 }) with mig := { base.mig with moving := some { cmd := { op := 2, part := 0, sz := false, dest := 0, id := 0, ia := 0, dst := 0, lim := 0 }, leafAt := 0, leaf := 0, big := false, newAddr := 0, ends := 0 } } })).who = 7 ∧ (theReq ({ reqBase (lpLeaf 0x70) (fun r => { r with who := 7, core := 0, part := none, sent := some 5, dest := .mig 0 }) with mig := { base.mig with moving := some { cmd := { op := 2, part := 0, sz := false, dest := 0, id := 0, ia := 0, dst := 0, lim := 0 }, leafAt := 0, leaf := 0, big := false, newAddr := 0, ends := 0 } } })).dest = .mig 0 ∧ (List.replicate 8 (0 : Byte)).length = (theReq ({ reqBase (lpLeaf 0x70) (fun r => { r with who := 7, core := 0, part := none, sent := some 5, dest := .mig 0 }) with mig := { base.mig with moving := some { cmd := { op := 2, part := 0, sz := false, dest := 0, id := 0, ia := 0, dst := 0, lim := 0 }, leafAt := 0, leaf := 0, big := false, newAddr := 0, ends := 0 } } })).n ∧ ({ reqBase (lpLeaf 0x70) (fun r => { r with who := 7, core := 0, part := none, sent := some 5, dest := .mig 0 }) with mig := { base.mig with moving := some { cmd := { op := 2, part := 0, sz := false, dest := 0, id := 0, ia := 0, dst := 0, lim := 0 }, leafAt := 0, leaf := 0, big := false, newAddr := 0, ends := 0 } } } : State).mig.moving.isSome = true)
    ∧ (reqBase (lpLeaf 0x70) (fun r => { r with who := 9, dest := .stopRec 0 0 2 })).reqs.find? (fun r => r.dest == .stopRec 0 0 2) = some (theReq (reqBase (lpLeaf 0x70) (fun r => { r with who := 9, dest := .stopRec 0 0 2 })))
    ∧ base.reqs = [] := by
  refine ⟨?_, ?_, ?_, ?_, ?_, ?_, ?_, ?_, ?_, ?_, ?_⟩ <;> ((try unfold Running); (try unfold Open); decide +kernel)

/-- A request of a fenced core; one whose page another walk holds; one of a fixed leg that is refused; an AtomicOp of a user-mode sequencer on the
host port; a stop record that has waited 2^20 cycles (R68, R104, R105, R144, R155). -/
theorem test_witness_AccessCases :
    (((reqBase (lpLeaf 0x70) (fun r => r)).upd 0 fun k => { k with killed := true }).core 0).killed = true
    ∧ next (exec (.pageWalk 1) ((reqBase (lpLeaf 0x70) (fun r => r)).upd 0 fun k => { k with killed := true })) (fun t => t.reqs == [])
    ∧ ({ reqBase (lpLeaf 0x70) (fun r => r) with ms := { base.ms with walks := [(0, 0, 10001)] } } : State).walkBusy 0 0x10 = true
    ∧ next (exec (.pageWalk 1) { reqBase (lpLeaf 0x70) (fun r => r) with ms := { base.ms with walks := [(0, 0, 10001)] } })
        (fun t => t.agenda.any fun e => e.cycle == 10064 && e.instr == .refusalRetry 1)
    ∧ next (exec (.pageWalk 1) (reqBase (lpLeaf 0x170) (fun r => { r with fixed := true }))) (fun t => halts t == some 0x41 && t.reqs == [])
    ∧ Open (reqBase (lpLeaf 0x70) (fun r => { r with sent := some 48, kind := .atomic .add 1 0 })) 1 (theReq (reqBase (lpLeaf 0x70) (fun r => { r with sent := some 48, kind := .atomic .add 1 0 })))
    ∧ next (exec (.completionArrival 1 .ur []) (reqBase (lpLeaf 0x70) (fun r => { r with sent := some 48, kind := .atomic .add 1 0 })))
        (fun t => halts t == none && t.me.seq.cause == 0x34 && t.me.seq.sup)
    ∧ next (exec (.pageWalk 1) { reqBase (lpLeaf 0x70) (fun r => r) with ms := { (reqBase (lpLeaf 0x70) (fun r => r)).ms with lost := [2 ^ 52 + 0x10010] } })
        (fun t => t.reqs.all fun r => r.err.any fun x => x.1 == 0x74) := by
  refine ⟨?_, ?_, ?_, ?_, ?_, ?_, ?_, ?_⟩ <;> ((try unfold Open); decide +kernel)

/-- A walk performs the load (R103, R105), a migrating page refuses it, a page without the right is 0x32; the response writes gd (R308); UR is 0x64 and no completion 0x63 (R68). -/
theorem test_accesses :
    next (exec (.pageWalk 1) (reqBase (lpLeaf 0x70) (fun r => r))) (fun t => t.reqs.all fun r => r.done && r.result == List.replicate 8 0)
    ∧ next (exec (.pageWalk 1) (reqBase (lpLeaf 0x170) (fun r => r))) (fun t => t.reqs.all fun r => !r.done && r.refused)
    ∧ next (exec (.pageWalk 1) (reqBase (lpLeaf 0) (fun r => r))) (fun t => t.reqs.all fun r => r.err == some (0x32, lpLeaf 0, 3))
    ∧ next (exec (.accessResponse 1) (reqBase (lpLeaf 0x70) (fun r => { r with done := true, result := [0xFF, 0, 0, 0, 0, 0, 0, 0x80] }))) (fun t => t.me.seq.gpr 3 == 0x80000000000000FF && t.reqs == [])
    ∧ next (exec (.accessResponse 1) (reqBase (lpLeaf 0x70) (fun r => { r with own := true, kind := .write [1], n := 1, ia := 3 * 2 ^ 52, dest := .none_ }))) (fun t => readByte t.memory (spadKey 0 0) == 1)
    ∧ next (exec (.refusalRetry 1) (reqBase (lpLeaf 0x70) (fun r => r))) (fun t => t.reqs.all fun r => r.done)
    ∧ next (exec (.completionArrival 1 .ur []) (reqBase (lpLeaf 0x70) (fun r => { r with sent := some 5 }))) (fun t => halts t == some 0x64)
    ∧ next (exec (.completionTimeout 1) (reqBase (lpLeaf 0x70) (fun r => { r with sent := some 5 }))) (fun t => halts t == some 0x63)
    ∧ next (exec (.stopRecordRefusalTimeout 0 0 2) { reqBase (lpLeaf 0x70) (fun r => { r with who := 9, dest := .stopRec 0 0 2, issued := 10000 }) with chron := 10000 + 2 ^ 20 }) (fun t => t.reqs == [] && (t.part 0).phalt.getLsbD 30)
    ∧ next (exec (.stopRecordRefusalTimeout 0 0 2) { reqBase (lpLeaf 0x70) (fun r => { r with who := 9, dest := .stopRec 0 0 2, issued := 10001 }) with chron := 10000 + 2 ^ 20 }) (fun t => t.reqs.length == 1) := by
  refine ⟨?_, ?_, ?_, ?_, ?_, ?_, ?_, ?_, ?_, ?_⟩ <;> (decide +kernel)

/-! ## Translation and the migration engine -/

/-- Memory with 8-byte words at addresses. -/
def words (l : List (Nat × Nat)) : List Host.Cell := l.foldl (fun m x => writeBytes m x.1 (toBytes 8 x.2)) []

/-- `base` with the device table of partition 0 in LPDDR6 memory and one leaf, of the page at 0, with more bits (R101). -/
def tabled (leaf : Nat) : State :=
  { baseP fun q => { q with dmEn := true, dmAddr := 2 ^ 52 + 0x20000 } with
    memory := words [(2 ^ 52 + 0x20000, 1 + 2 ^ 52 + 0x30000), (2 ^ 52 + 0x30000, 1 + 2 ^ 52 + 0x40000), (2 ^ 52 + 0x40000, 1 + 2 ^ 52 + 0x50000),
      (2 ^ 52 + 0x50000, leaf)] }

/-- A leaf of LPDDR6 memory at 0x10000: V, LEAF, LOC, read and write, and more bits. -/
def tLeaf (loc bits : Nat) : Nat := 3 + 4 * loc + 0x30 + bits + 2 ^ 52 + 0x10000

/-- A command of the migration engine on the page at 0 of partition 0. -/
def mgCmd (op : BitVec 4) (dest : BitVec 3) (dst : BitVec 64) (promo : Bool) : MgCmd :=
  { op := op, part := 0, sz := false, dest := dest, id := 7, ia := 0, dst := dst, lim := 16, promo := promo }

/-- A state with a command at the head of the engine's FIFO, or of its promotions, and column 0 with a POOL bank. -/
def moving (s : State) (c : MgCmd) : State :=
  { s.updCol 0 fun k => { k with live := true, rowmax := 15, dram := k.dram.set 0 1 } with
    mig := if c.promo then { s.mig with promos := [c], busy := true } else { s.mig with fifo := [c], busy := true } }

/-- Placement finds a frame where the first bank of the ring has one free. -/
theorem place_first (s : State) (stack b : Nat) (big : Bool) (h : tget s.mig.ring stack = none) (hb : (s.placementRing stack).head? = some b)
    (hf : (s.freeFrames b big).isEmpty = false) : (s.place stack big).isSome = true := by
  unfold State.place
  cases hr : s.placementRing stack with
  | nil => simp [hr] at hb
  | cons x r =>
    obtain rfl : x = b := by simpa [hr] using hb
    simp [h, hf]

/-- A chart, or a part of it, in one page of memory is read at once. -/
theorem chart_read_page (s : State) (p : PartIx) (j : Fin 8) (n key : Nat) (h : ceilDiv n 65536 = 1) (hb : ((s.part p).slots[j]).bad = false)
    (hp : s.chartPage p ((s.part p).slots[j]).image = .at_ key) (hl : s.lostAt key (min 65536 n) = false) :
    s.chartRead p j n = (s, .ok (s.pageBytes ((s.part p).slots[j]) 0 (min 65536 n) (.at_ key))) := by
  simp only [State.chartRead, h, List.range_succ, List.range_zero, List.nil_append, List.foldl_cons, List.foldl_nil, Nat.mul_zero, Nat.add_zero,
    Nat.sub_zero, hb, hp, hl, Bool.false_eq_true, if_false]

/-- A FIFO with room and a full one; frames free and not; a page that may move, one with no leaf, one pinned; a copy at its end and a cycle before; promotions of a compressed page and of another; pages to preload. -/
theorem test_witness_MigrationAndShootdown :
    base.mig.fifo.length < 32
    ∧ 32 ≤ ({ base with mig := { base.mig with fifo := List.replicate 32 (mgCmd 1 1 0 false) } } : State).mig.fifo.length
    ∧ ((moving base (mgCmd 1 1 0x10000 false)).mig.fifo = [mgCmd 1 1 0x10000 false] ∧ (moving base (mgCmd 1 1 0x10000 false)).frameFree 0x10000 false = true ∧ (moving base (mgCmd 1 1 0x10000 false)).mig.cqwb = 0)
    ∧ MgRoom (moving base (mgCmd 1 1 0x10000 false))
    ∧ (moving base (mgCmd 1 1 0x20000000 false)).frameFree 0x20000000 false = false
    ∧ ((0 : BitVec 32) - base.mig.cqhead).toNat ≤ (base.mig.cqtail - base.mig.cqhead).toNat
    ∧ (base.mig.cqtail - base.mig.cqhead).toNat < ((1 : BitVec 32) - base.mig.cqhead).toNat
    ∧ ((moving base (mgCmd 1 1 0x10000 false)).mig.held = [] ∧ (moving base (mgCmd 1 1 0x10000 false)).mig.busy = true)
    ∧ ((moving (tabled (tLeaf 1 0)) (mgCmd 2 2 (2 ^ 52 + 0x60000) false)).findLeaf 0 false 0 = .ok (tLeaf 1 0, 2 ^ 52 + 0x50000, 3) ∧ bitAt (tLeaf 1 0) 7 = false ∧ false = ((3 : Nat) == 2) ∧ leafLoc (tLeaf 1 0) = 1 ∧ leafAddr (tLeaf 1 0) ≠ 2 ^ 52 + 0x60000)
    ∧ ((moving (tabled (tLeaf 1 0)) (mgCmd 2 2 (2 ^ 52 + 0x60000) false)).paKind (2 ^ 52 + 0x60000) = .lpddr ∧ (moving (tabled (tLeaf 1 0)) (mgCmd 2 2 (2 ^ 52 + 0x60000) false)).paKind (2 ^ 52 + 0x60000 + 2 ^ 16 - 1) = .lpddr ∧ (2 ^ 52 + 0x60000) % 2 ^ 16 = 0)
    ∧ (moving (tabled 0) (mgCmd 2 2 (2 ^ 52 + 0x60000) false)).findLeaf 0 false 0 = .error (0x31, 0, 3)
    ∧ ((moving (tabled (tLeaf 1 0x80)) (mgCmd 2 2 (2 ^ 52 + 0x60000) false)).findLeaf 0 false 0 = .ok (tLeaf 1 0x80, 2 ^ 52 + 0x50000, 3) ∧ bitAt (tLeaf 1 0x80) 7 = true)
    ∧ (({ moving (tabled (tLeaf 1 0)) (mgCmd 2 2 (2 ^ 52 + 0x60000) false) with mig := { (moving (tabled (tLeaf 1 0)) (mgCmd 2 2 (2 ^ 52 + 0x60000) false)).mig with moving := some { cmd := mgCmd 2 2 (2 ^ 52 + 0x60000) false, leafAt := 2 ^ 52 + 0x50000, leaf := tLeaf 1 0, big := false, newAddr := 2 ^ 52 + 0x60000, ends := 10000 } } } : State).mig.moving.any (fun m => m.ends ≤ ({ moving (tabled (tLeaf 1 0)) (mgCmd 2 2 (2 ^ 52 + 0x60000) false) with mig := { (moving (tabled (tLeaf 1 0)) (mgCmd 2 2 (2 ^ 52 + 0x60000) false)).mig with moving := some { cmd := mgCmd 2 2 (2 ^ 52 + 0x60000) false, leafAt := 2 ^ 52 + 0x50000, leaf := tLeaf 1 0, big := false, newAddr := 2 ^ 52 + 0x60000, ends := 10000 } } } : State).chron && !m.bad && leafLoc m.leaf == 1 && m.cmd.dest == 2 && !m.cmd.promo) = true ∧ ({ moving (tabled (tLeaf 1 0)) (mgCmd 2 2 (2 ^ 52 + 0x60000) false) with mig := { (moving (tabled (tLeaf 1 0)) (mgCmd 2 2 (2 ^ 52 + 0x60000) false)).mig with moving := some { cmd := mgCmd 2 2 (2 ^ 52 + 0x60000) false, leafAt := 2 ^ 52 + 0x50000, leaf := tLeaf 1 0, big := false, newAddr := 2 ^ 52 + 0x60000, ends := 10000 } } } : State).reqs = [])
    ∧ ({ moving (tabled (tLeaf 1 0)) (mgCmd 2 2 (2 ^ 52 + 0x60000) false) with mig := { (moving (tabled (tLeaf 1 0)) (mgCmd 2 2 (2 ^ 52 + 0x60000) false)).mig with moving := some { cmd := mgCmd 2 2 (2 ^ 52 + 0x60000) false, leafAt := 2 ^ 52 + 0x50000, leaf := tLeaf 1 0, big := false, newAddr := 2 ^ 52 + 0x60000, ends := 10000 } } } : State).oldAccess 0 false 0 65536 0 = false
    ∧ MgRoom ({ moving (tabled (tLeaf 1 0)) (mgCmd 2 2 (2 ^ 52 + 0x60000) false) with mig := { (moving (tabled (tLeaf 1 0)) (mgCmd 2 2 (2 ^ 52 + 0x60000) false)).mig with moving := some { cmd := mgCmd 2 2 (2 ^ 52 + 0x60000) false, leafAt := 2 ^ 52 + 0x50000, leaf := tLeaf 1 0, big := false, newAddr := 2 ^ 52 + 0x60000, ends := 10000 } } })
    ∧ ({ { moving (tabled (tLeaf 1 0)) (mgCmd 2 2 (2 ^ 52 + 0x60000) false) with mig := { (moving (tabled (tLeaf 1 0)) (mgCmd 2 2 (2 ^ 52 + 0x60000) false)).mig with moving := some { cmd := mgCmd 2 2 (2 ^ 52 + 0x60000) false, leafAt := 2 ^ 52 + 0x50000, leaf := tLeaf 1 0, big := false, newAddr := 2 ^ 52 + 0x60000, ends := 10000 } } } with chron := 9999 } : State).mig.moving.any (fun m => decide (({ { moving (tabled (tLeaf 1 0)) (mgCmd 2 2 (2 ^ 52 + 0x60000) false) with mig := { (moving (tabled (tLeaf 1 0)) (mgCmd 2 2 (2 ^ 52 + 0x60000) false)).mig with moving := some { cmd := mgCmd 2 2 (2 ^ 52 + 0x60000) false, leafAt := 2 ^ 52 + 0x50000, leaf := tLeaf 1 0, big := false, newAddr := 2 ^ 52 + 0x60000, ends := 10000 } } } with chron := 9999 } : State).chron < m.ends)) = true
    ∧ ((moving (tabled (tLeaf 2 0)) (mgCmd 0 0 0 true)).mig.promos = [mgCmd 0 0 0 true] ∧ (moving (tabled (tLeaf 2 0)) (mgCmd 0 0 0 true)).findLeaf 0 false 0 = .ok (tLeaf 2 0, 2 ^ 52 + 0x50000, 3) ∧ leafLoc (tLeaf 2 0) = 2)
    ∧ (tget (moving (tabled (tLeaf 2 0)) (mgCmd 0 0 0 true)).mig.ring 0 = none ∧ ((moving (tabled (tLeaf 2 0)) (mgCmd 0 0 0 true)).placementRing 0).head? = some 0 ∧ ((moving (tabled (tLeaf 2 0)) (mgCmd 0 0 0 true)).freeFrames 0 false).isEmpty = false)
    ∧ ((moving (tabled (tLeaf 1 0)) (mgCmd 0 0 0 true)).findLeaf 0 false 0 = .ok (tLeaf 1 0, 2 ^ 52 + 0x50000, 3) ∧ leafLoc (tLeaf 1 0) ≠ 2)
    ∧ (({ base with ms := { base.ms with sdRun := some (0, 0, 5) } } : State).ms.sdRun = some (0, 0, 5) ∧ ({ base with ms := { base.ms with sdRun := some (0, 0, 5) } } : State).reqs = [])
    ∧ (fld ({ tabled (tLeaf 1 0x80) with ms := { base.ms with sdctl := 0, pinned := [{ part := 0, base := 0x10000, big := false, leaf := 3 }] } } : State).ms.op.2.toNat 5 0 = 0 ∧ ({ tabled (tLeaf 1 0x80) with ms := { base.ms with sdctl := 0, pinned := [{ part := 0, base := 0x10000, big := false, leaf := 3 }] } } : State).ms.op.2.getLsbD 6 = false ∧ ({ tabled (tLeaf 1 0x80) with ms := { base.ms with sdctl := 0, pinned := [{ part := 0, base := 0x10000, big := false, leaf := 3 }] } } : State).ms.op.2.getLsbD 7 = false ∧ fld ({ tabled (tLeaf 1 0x80) with ms := { base.ms with sdctl := 0, pinned := [{ part := 0, base := 0x10000, big := false, leaf := 3 }] } } : State).ms.op.2.toNat 23 9 = 0)
    ∧ (({ tabled (tLeaf 1 0x80) with ms := { base.ms with sdctl := 0, pinned := [{ part := 0, base := 0x10000, big := false, leaf := 3 }] } } : State).findLeaf 0 false 0 = .ok (tLeaf 1 0x80, 2 ^ 52 + 0x50000, 3) ∧ bitAt (tLeaf 1 0x80) 8 = false ∧ ({ tabled (tLeaf 1 0x80) with ms := { base.ms with sdctl := 0, pinned := [{ part := 0, base := 0x10000, big := false, leaf := 3 }] } } : State).ms.pinned.length < 1024)
    ∧ (({ tabled (tLeaf 1 0) with ms := { base.ms with sdctl := 0 } } : State).findLeaf 0 false 0 = .ok (tLeaf 1 0, 2 ^ 52 + 0x50000, 3) ∧ bitAt (tLeaf 1 0) 7 = false)
    ∧ ({ base with ms := { base.ms with sdctl := 0x40 } } : State).ms.op.2.getLsbD 6 = true
    ∧ ((1 : Nat) < 4 ∧ 0x10000 % 2 ^ 16 = 0 ∧ 0x10000 < 2 ^ 56) := by
  refine ⟨?_, ?_, ?_, ?_, ?_, ?_, ?_, ?_, ?_, ?_, ?_, ?_, ?_, ?_, ?_, ?_, ?_, ?_, ?_, ?_, ?_, ?_, ?_, ?_, ?_⟩ <;> ((try unfold MgRoom); decide +kernel)

/-- The promotion finds a frame. -/
theorem test_witness_MigrationAndShootdown_place : ((moving (tabled (tLeaf 2 0)) (mgCmd 0 0 0 true)).place 0 false).isSome = true :=
  place_first _ 0 0 false (by decide +kernel) (by decide +kernel) (by decide +kernel)

/-- ALLOC takes the frame and completes (R113); MOVE sets MIG in the leaf (R115); a pinned page completes as PINNED, an unmapped one as NOMAP; PRELOAD pins (R111). -/
theorem test_migration :
    next (exec (.migrationGo) (base)) (fun t => t.mig.fifo.length == 1 && t.mig.busy)
    ∧ next (exec (.migrationGo) ({ base with mig := { base.mig with fifo := List.replicate 32 (mgCmd 1 1 0 false) } })) (fun t => t.mig.err)
    ∧ next (exec (.alloc) (moving base (mgCmd 1 1 0x10000 false))) (fun t => t.mig.frames == [0x10000] && t.mig.cqtail == 1)
    ∧ next (exec (.free) (moving base (mgCmd 1 1 0x10000 false))) (fun t => t.mig.cqtail == 1 && t.mig.frames == [])
    ∧ next (exec (.move) (moving (tabled (tLeaf 1 0)) (mgCmd 2 2 (2 ^ 52 + 0x60000) false))) (fun t => readNat t.memory (2 ^ 52 + 0x50000) 8 == tLeaf 1 0 + 2 ^ 8)
    ∧ next (exec (.move) (moving (tabled (tLeaf 1 0x80)) (mgCmd 2 2 (2 ^ 52 + 0x60000) false))) (fun t => t.mig.cqtail == 1 && t.mig.moving == none)
    ∧ next (exec (.moveDone) ({ { moving (tabled (tLeaf 1 0)) (mgCmd 2 2 (2 ^ 52 + 0x60000) false) with mig := { (moving (tabled (tLeaf 1 0)) (mgCmd 2 2 (2 ^ 52 + 0x60000) false)).mig with moving := some { cmd := mgCmd 2 2 (2 ^ 52 + 0x60000) false, leafAt := 2 ^ 52 + 0x50000, leaf := tLeaf 1 0, big := false, newAddr := 2 ^ 52 + 0x60000, ends := 10000 } } } with chron := 9999 })) (fun t => t.mig.cqtail == 0)
    ∧ next (exec (.promotion) (moving (tabled (tLeaf 1 0)) (mgCmd 0 0 0 true))) (fun t => t.mig.promos == [])
    ∧ next (exec (.inval) ({ tabled (tLeaf 1 0x80) with ms := { base.ms with sdctl := 0, pinned := [{ part := 0, base := 0x10000, big := false, leaf := 3 }] } })) (fun t => t.ms.pinned.length == 1 && t.ms.sdBusy)
    ∧ next (exec (.preload) ({ tabled (tLeaf 1 0x80) with ms := { base.ms with sdctl := 0, pinned := [{ part := 0, base := 0x10000, big := false, leaf := 3 }] } })) (fun t => t.ms.pinned.length == 2)
    ∧ next (exec (.preload) ({ tabled (tLeaf 1 0) with ms := { base.ms with sdctl := 0 } })) (fun t => t.ms.sdErr)
    ∧ next (exec (.shootdownDone) ({ base with ms := { base.ms with sdRun := some (0, 0, 5) } })) (fun t => t.ms.sddone == 1 && !t.ms.sdBusy)
    ∧ next (exec (.mgcqheadWrite 1) (base)) (fun t => t.mig.cqhead == 0) := by
  refine ⟨?_, ?_, ?_, ?_, ?_, ?_, ?_, ?_, ?_, ?_, ?_, ?_, ?_⟩ <;> (decide +kernel)

/-- A MOVE at its end, with the requests numbered below `b` to wait for. -/
def moveEnding (s : State) (b : Nat) : State :=
  { moving s (mgCmd 2 2 (2 ^ 52 + 0x60000) false) with
    mig := { (moving s (mgCmd 2 2 (2 ^ 52 + 0x60000) false)).mig with
      moving := some
        { cmd := mgCmd 2 2 (2 ^ 52 + 0x60000) false, leafAt := 2 ^ 52 + 0x50000, leaf := tLeaf 1 0, big := false, newAddr := 2 ^ 52 + 0x60000
          ends := 10000, before := b } } }

/-- A request sent to the host. -/
def hostReq : Req := { id := 3, who := 0, core := 0, part := some 0, kind := .read, ia := 64, n := 8, dest := .none_, issued := 9000, sent := some 48 }

/-- An ALLOC with DEST 2; a ring with a completion held and room to come; walks that fault, with a record and as a machine check; a partition beyond 47; an
end of a copy whose requests are on their way; a shoot-down that waits. -/
theorem test_witness_MigrationAndShootdown_more :
    ((moving base (mgCmd 1 2 0x10000 false)).mig.fifo = [mgCmd 1 2 0x10000 false] ∧ 2 ≤ (mgCmd 1 2 0x10000 false).dest.toNat)
    ∧ (let s : State := { base with mig := { base.mig with cqtail := 64, held := [List.replicate 16 1], busy := true } }
       ((1 : BitVec 32) - s.mig.cqhead).toNat ≤ (s.mig.cqtail - s.mig.cqhead).toNat ∧ s.mig.held = [List.replicate 16 1]
        ∧ (s.mig.cqtail - (1 : BitVec 32)).toNat ≠ 2 ^ (6 + s.mig.cqsz.toNat) ∧ s.mig.cqwb = 0)
    ∧ ((tabled 0).findLeaf 0 false 0 = .error (0x31, 0, 3) ∧ ((tabled 0).part 0).dmEn = true ∧ (tabled 0).tableAt ((tabled 0).part 0).dmAddr.toNat = none ∧ bitAt 0 0 = false)
    ∧ ((moving base (mgCmd 2 2 (2 ^ 52 + 0x60000) false)).findLeaf 0 false 0 = .error (0x31, 0, 0) ∧ ((moving base (mgCmd 2 2 (2 ^ 52 + 0x60000) false)).part 0).dmEn = false
        ∧ ((moving base (mgCmd 2 2 (2 ^ 52 + 0x60000) false)).part 0).fqheld = []
        ∧ (((moving base (mgCmd 2 2 (2 ^ 52 + 0x60000) false)).part 0).fqtail - ((moving base (mgCmd 2 2 (2 ^ 52 + 0x60000) false)).part 0).fqhead).toNat ≠ 2 ^ 6)
    ∧ (let s : State := { moving (tabled (tLeaf 1 0)) (mgCmd 2 2 (2 ^ 52 + 0x60000) false) with ms := { base.ms with lost := [2 ^ 52 + 0x20000] } }
       s.findLeaf 0 false 0 = .error (0x74, 0, 0) ∧ (s.part 0).runSlot = some 0 ∧ (s.part 0).switching = false ∧ (s.part 0).halting = none)
    ∧ 48 ≤ ({ mgCmd 2 2 0 false with part := 48 } : MgCmd).part.toNat
    ∧ ((moving (tabled (tLeaf 1 0)) (mgCmd 2 2 (2 ^ 52 + 0x60000) false)).moveBad (mgCmd 2 2 (2 ^ 52 + 0x60000) false) 0 (tLeaf 1 0) (2 ^ 52 + 0x50000) 3 = none
        ∧ (moving (tabled (tLeaf 1 0x80)) (mgCmd 2 2 (2 ^ 52 + 0x60000) false)).moveBad (mgCmd 2 2 (2 ^ 52 + 0x60000) false) 0 (tLeaf 1 0x80) (2 ^ 52 + 0x50000) 3 = none
        ∧ (moving (tabled (tLeaf 2 0)) (mgCmd 0 0 0 true)).moveBad (mgCmd 0 0 0 true) 0 (tLeaf 2 0) (2 ^ 52 + 0x50000) 3 = none)
    ∧ ((moveEnding (tabled (tLeaf 1 0)) 3).oldAccess 0 false 0 65536 3 = false ∧ (moveEnding (tabled (tLeaf 1 0)) 3).lostAt (2 ^ 52 + 0x10000) 65536 = false)
    ∧ (let s : State := { base with ms := { base.ms with sdRun := some (0, 0, 5) }, reqs := [hostReq] }
       s.ms.sdRun = some (0, 0, 5) ∧ s.oldAccess 0 false (sdRange 0 0).1 (sdRange 0 0).2 5 = true) := by
  refine ⟨?_, ?_, ?_, ?_, ?_, ?_, ?_, ?_, ?_⟩ <;> decide +kernel

/-- A PRELOAD of the page at 0 that pins it, one outside region 0x0, one of a page with PIN = 0, and one with 1,024 entries in its set. -/
theorem test_witness_ShootdownAndPreload :
    (let s := tabled (tLeaf 1 0x80)
     PreloadsOne s 0 ∧ s.ms.op.1.toNat / 2 ^ 16 * 2 ^ 16 < 2 ^ 52 ∧ s.findLeaf 0 false 0 = .ok (tLeaf 1 0x80, 2 ^ 52 + 0x50000, 3)
       ∧ s.pinFails 0 0 (tLeaf 1 0x80) (2 ^ 52 + 0x50000) 3 = none ∧ s.ms.pinned.length < 1024)
    ∧ (let s : State := { base with ms := { base.ms with sdia := 2 ^ 52 } }
       PreloadsOne s 0 ∧ 2 ^ 52 ≤ s.ms.op.1.toNat / 2 ^ 16 * 2 ^ 16)
    ∧ (PreloadsOne (tabled (tLeaf 1 0)) 0 ∧ (tabled (tLeaf 1 0)).findLeaf 0 false 0 = .ok (tLeaf 1 0, 2 ^ 52 + 0x50000, 3) ∧ bitAt (tLeaf 1 0) 7 = false)
    ∧ (PreloadsOne (tabled 0) 0 ∧ (tabled 0).findLeaf 0 false 0 = .error (0x31, 0, 3))
    ∧ (let s : State := { tabled (tLeaf 1 0x80) with
         ms := { base.ms with pinned := (List.range 1024).map fun i => { part := 1, base := 2 ^ 24 * i, big := false, leaf := 3 } } }
       PreloadsOne s 0 ∧ s.pinFails 0 0 (tLeaf 1 0x80) (2 ^ 52 + 0x50000) 3 = none
         ∧ 1024 ≤ (s.ms.pinned.filter fun x => fld x.base 23 21 == fld 0 23 21).length) := by
  refine ⟨?_, ?_, ?_, ?_, ?_⟩ <;> ((try unfold PreloadsOne); decide +kernel)

/-- ALLOC with DEST 2 is BADARG (log 68); a fault of a MOVE's walk leaves its record (R106), one that meets a lost byte halts the partition too (R37); a held
completion is written as the host frees space (R113); a copy's end waits for older accesses (R112). -/
theorem test_migration_more :
    next (exec (.alloc) (moving base (mgCmd 1 2 0x10000 false))) (fun t => t.mig.cqtail == 1 && t.mig.frames == [])
    ∧ next (exec (.move) (moving base (mgCmd 2 2 (2 ^ 52 + 0x60000) false))) (fun t => (t.part 0).fqtail == 1 && t.mig.cqtail == 1)
    ∧ next (exec (.move) ({ moving (tabled (tLeaf 1 0)) (mgCmd 2 2 (2 ^ 52 + 0x60000) false) with ms := { base.ms with lost := [2 ^ 52 + 0x20000] } })) (fun t =>
        halts t == some 0x74 && t.mig.cqtail == 1)
    ∧ next (exec (.mgcqheadWrite 1) ({ base with mig := { base.mig with cqtail := 64, held := [List.replicate 16 1], busy := true } })) (fun t =>
        t.mig.cqtail == 65 && t.mig.held == [])
    ∧ next (exec (.shootdownDone) ({ base with ms := { base.ms with sdRun := some (0, 0, 5) }, reqs := [hostReq] })) (fun t => t.ms.sddone == 0)
    ∧ next (exec (.preload) ({ base with ms := { base.ms with sdia := 2 ^ 52 } })) (fun t => t.ms.sdErr) := by
  refine ⟨?_, ?_, ?_, ?_, ?_, ?_⟩ <;> decide +kernel

/-! ## Launch, contexts and keys -/

/-- The bytes that are not 0 of a chart (R84 to R87): the header, one layout of one cluster with six cores of one page a section that start at 0x40,
and one free leg with one course; a signature of zeros stands at 0x300. -/
def chartCells : List (Nat × Byte) :=
  [(0x0, 0x43), (0x1, 0x68), (0x2, 0x72), (0x3, 0x74), (0x4, 0x1), (0x8, 0xec), (0x9, 0x9), (0xd, 0x3), (0x12, 0x1), (0x14, 0x40)]
    ++ [(0x18, 0xc0), (0x1d, 0x3), (0x40, 0x1), (0x44, 0x50), (0x48, 0xf0), (0x49, 0x2), (0x50, 0x1), (0x51, 0x1), (0x52, 0x1), (0x53, 0x1)]
    ++ [(0x54, 0x40), (0x60, 0x1), (0x61, 0x1), (0x62, 0x1), (0x63, 0x1), (0x64, 0x40), (0x70, 0x1), (0x71, 0x1), (0x72, 0x1), (0x73, 0x1)]
    ++ [(0x74, 0x40), (0x80, 0x1), (0x81, 0x1), (0x82, 0x1), (0x83, 0x1), (0x84, 0x40), (0x90, 0x1), (0x91, 0x1), (0x92, 0x1), (0x93, 0x1)]
    ++ [(0x94, 0x40), (0xa0, 0x1), (0xa1, 0x1), (0xa2, 0x1), (0xa3, 0x1), (0xa4, 0x40), (0xc0, 0x1), (0xd0, 0x1), (0xd2, 0x1), (0xe0, 0xff)]
    ++ [(0xe1, 0xff), (0xe2, 0xff), (0xe3, 0x8f)]

/-- Memory with the chart at the page 0x10000 of LPDDR6 memory. -/
def chartMem : List Host.Cell := chartCells.map fun x => (2 ^ 52 + 0x10000 + x.1, x.2)

/-- The chart. -/
def chart : List Byte := readBytes chartMem (2 ^ 52 + 0x10000) (0x300 + 1772)

/-- `small` with the chart in LPDDR6 memory, at the page at 0, which is pinned. -/
def charted : State :=
  let s := small { st := .check } id
  { s with
    helm := { s.helm with valid := true }
    ms := { s.ms with pinned := [{ part := 0, base := 0, big := false, leaf := tLeaf 1 0 }] }
    memory := chartMem }

/-- `charted` with the key slot of its chart named. -/
def chartedKey : State := charted.updPart 0 fun q => q.updSlot 0 fun x => { x with key := some 0 }

/-- A slot without a live context, one with one that runs and one in CHECK; a switch; the states of each test of a launch; a chart of one cluster, to check and to load. -/
theorem test_witness_LaunchEvents :
    (((small {} id).part 0).switching = false ∧ (((small {} id).part 0).slots[(0 : Fin 8)]).st.live = false ∧ ((small {} id).part 0).lb.ctl.getLsbD 0 = false ∧ ((small {} id).part 0).slot = 0)
    ∧ ((((small { st := .run } id).part 0).slots[(0 : Fin 8)]).st.live = true ∧ ((small { st := .run } id).part 0).runSlot = some 0 ∧ ((small { st := .run } id).part 0).halting = none)
    ∧ ((small {} (fun q => { q with switching := true })).part 0).switching = true
    ∧ ((((small { st := .check } id).part 0).slots[(0 : Fin 8)]).st = .check ∧ (((small {} id).part 0).slots[(0 : Fin 8)]).st ≠ .check ∧ (((small {} id).part 0).slots[(0 : Fin 8)]).st ≠ .load)
    ∧ ({ small { st := .check } id with helm := { base.helm with valid := false } } : State).helm.valid = false
    ∧ ({ small { st := .check } id with helm := { base.helm with valid := true, emerg := true } } : State).helm.emerg = true
    ∧ (({ small { st := .check } id with hif := { base.hif with partmap := Vector.replicate 48 0x3F } } : State).nclu 0 = 0 ∧ ({ small { st := .check } id with hif := { base.hif with partmap := Vector.replicate 48 0x3F } } : State).helm.valid = true ∧ ({ small { st := .check } id with hif := { base.hif with partmap := Vector.replicate 48 0x3F } } : State).helm.emerg = false)
    ∧ ((small { st := .check } id).nclu 0 = 1 ∧ (1 : Nat) % 65536 ≠ 0)
    ∧ (charted.helm.valid = true ∧ charted.helm.emerg = false ∧ charted.nclu 0 ≠ 0 ∧ ((charted.part 0).slots[(0 : Fin 8)]).st = .check ∧ ((charted.part 0).slots[(0 : Fin 8)]).key = none)
    ∧ chartU (chart.take 64) 0x10 1 = 0
    ∧ headerOk chart (chartU chart 8 4) = true
    ∧ ((((small { st := .load, img := chart } id).part 0).slots[(0 : Fin 8)]).st = .load ∧ ((chartLayouts chart).find? (fun l => l.nclu == (small { st := .load, img := chart } id).nclu 0)).isSome = true ∧ (chartLegs chart (chartU chart 0x0C 4)).isSome = true ∧ chartU chart 0x20 4 = 0)
    ∧ ((chartLayouts chart).all fun l => (l.cores chart).all fun e => l.segs chart e == []) = true := by
  refine ⟨?_, ?_, ?_, ?_, ?_, ?_, ?_, ?_, ?_, ?_, ?_, ?_, ?_⟩ <;> (decide +kernel)

theorem take_readBytes (m : List Host.Cell) : ∀ k n, k ≤ n → ∀ a, (readBytes m a n).take k = readBytes m a k
  | 0, _, _, _ => by simp [readBytes]
  | k + 1, n + 1, h, a => by simp [readBytes, take_readBytes m k n (by omega)]

theorem page_bytes_header : charted.pageBytes ((charted.part 0).slots[(0 : Fin 8)]) 0 (min 65536 64) (.at_ (2 ^ 52 + 0x10000)) = chart.take 64 := by
  show readBytes chartMem (2 ^ 52 + 0x10000) 64 = (readBytes chartMem (2 ^ 52 + 0x10000) (0x300 + 1772)).take 64
  exact (take_readBytes chartMem 64 (0x300 + 1772) (by decide) _).symm
theorem page_bytes_chart :
    chartedKey.pageBytes ((chartedKey.part 0).slots[(0 : Fin 8)]) 0 (min 65536 (max 64 (chartU chart 8 4))) (.at_ (2 ^ 52 + 0x10000)) = chart := by
  have h : min 65536 (max 64 (chartU chart 8 4)) = 0x300 + 1772 := by decide +kernel
  rw [h]
  rfl

/-- The header and the whole of the chart are read, and the module is as before. -/
theorem test_witness_LaunchEvents_chart :
    charted.chartRead 0 0 64 = (charted, .ok (chart.take 64))
    ∧ chartedKey.chartRead 0 0 (max 64 (chartU chart 8 4)) = (chartedKey, .ok chart) := by
  refine ⟨?_, ?_⟩
  · rw [chart_read_page charted 0 0 64 (2 ^ 52 + 0x10000) (by decide) (by decide +kernel) (by decide +kernel) (by decide +kernel), page_bytes_header]
  · rw [chart_read_page chartedKey 0 0 _ (2 ^ 52 + 0x10000) (by decide +kernel) (by decide +kernel) (by decide +kernel) (by decide +kernel), page_bytes_chart]

/-- GO sets CHECK (R85), on a live slot LERR (R80); ABORT halts a running context with 0x45 (R82); the tests 0x01, 0x02 and 0x03 in order (R84); a load leaves READY with the entries (R88). -/
theorem test_launch :
    next (exec (.launchGo 0 9) (small {} id)) (fun t => ((t.part 0).slots[0]).st == .check && ((t.part 0).slots[0]).tag == 9)
    ∧ next (exec (.launchGo 0 9) (small { st := .run } id)) (fun t => (t.part 0).lerr)
    ∧ next (exec (.abort 0 9) (small { st := .run } id)) (fun t => halts t == some 0x45)
    ∧ next (exec (.abort 0 9) (small { st := .check } id)) (fun t => ((t.part 0).slots[0]).st == .killed)
    ∧ next (exec (.abort 0 9) (small {} id)) (fun t => (t.part 0).lerr)
    ∧ next (exec (.launchCheck 0 0) (({ small { st := .check } id with helm := { base.helm with valid := false } } : State))) (fun t => ((t.part 0).slots[0]).code == 1 && ((t.part 0).slots[0]).st == .rejected)
    ∧ next (exec (.launchCheck 0 0) (({ small { st := .check } id with hif := { base.hif with partmap := Vector.replicate 48 0x3F } } : State))) (fun t => ((t.part 0).slots[0]).code == 2)
    ∧ next (exec (.launchCheck 0 0) (({ small { st := .check, image := 1 } id with helm := { base.helm with valid := true } } : State))) (fun t => ((t.part 0).slots[0]).code == 3)
    ∧ next (exec (.launchCheck 0 0) (({ small { st := .check, argbase := 1 } id with helm := { base.helm with valid := true } } : State))) (fun t => ((t.part 0).slots[0]).code == 3)
    ∧ next (exec (.overlayLoad 0 0) (small { st := .load, img := chart } id)) (fun t => ((t.part 0).slots[0]).st == .ready && ((t.part 0).slots[0]).entries == [0x40, 0x40, 0x40, 0x40, 0x40, 0x40] && ((t.part 0).slots[0]).legs.length == 1) := by
  refine ⟨?_, ?_, ?_, ?_, ?_, ?_, ?_, ?_, ?_, ?_⟩ <;> (decide +kernel)

/-- A chart whose first page cannot be walked is not read. -/
theorem chart_read_bad (s : State) (p : PartIx) (j : Fin 8) (n code : Nat) (h : ceilDiv n 65536 = 1) (hb : ((s.part p).slots[j]).bad = false)
    (hp : s.chartPage p ((s.part p).slots[j]).image = .bad code) : s.chartRead p j n = (s, .bad code) := by
  simp only [State.chartRead, h, List.range_succ, List.range_zero, List.nil_append, List.foldl_cons, List.foldl_nil, Nat.mul_zero, Nat.add_zero,
    Nat.sub_zero, hb, hp, Bool.false_eq_true, if_false]

/-- One whose first page is refused, with no promotion, is waited for. -/
theorem chart_read_wait (s : State) (p : PartIx) (j : Fin 8) (n t : Nat) (h : ceilDiv n 65536 = 1) (hb : ((s.part p).slots[j]).bad = false)
    (hp : s.chartPage p ((s.part p).slots[j]).image = .wait t none) : s.chartRead p j n = (s, .wait t) := by
  simp only [State.chartRead, State.promote, h, List.range_succ, List.range_zero, List.nil_append, List.foldl_cons, List.foldl_nil, Nat.mul_zero, Nat.add_zero,
    Nat.sub_zero, hb, hp, Bool.false_eq_true, if_false]

/-- A launch in CHECK whose chart lies at the page at 0 of a device table. -/
def checking (leaf : Nat) : State :=
  let s := tabled leaf
  { s.updPart 0 fun q => { q with slots := (Vector.replicate 8 {}).set 0 { st := .check } } with helm := { s.helm with valid := true } }

/-- A chart with no leaf, and one whose page moves. -/
theorem test_witness_LaunchEvents_unread :
    (Checked (checking 0) 0 0 ∧ (checking 0).nclu 0 ≠ 0 ∧ (((checking 0).part 0).slots[(0 : Fin 8)]).image % 65536 = 0
      ∧ (((checking 0).part 0).slots[(0 : Fin 8)]).argbase % 64 = 0)
    ∧ (checking 0).chartRead 0 0 64 = (checking 0, .bad 0x31)
    ∧ Checked (checking (tLeaf 1 0x100)) 0 0
    ∧ (checking (tLeaf 1 0x100)).chartRead 0 0 64 = (checking (tLeaf 1 0x100), .wait 64) := by
  refine ⟨?_, chart_read_bad _ 0 0 64 0x31 (by decide) (by decide +kernel) (by decide +kernel), ?_,
    chart_read_wait _ 0 0 64 64 (by decide) (by decide +kernel) (by decide +kernel)⟩ <;> (unfold Checked; decide +kernel)

/-- The mailbox under a switch, with CTL bit 0 of the logbook, a halt of an earlier cycle, and each kind of slot a launch may be aborted in; a launch written
too early. -/
theorem test_witness_LaunchMailbox :
    ((baseP fun q => { q with switching := true }).part 0).switching = true
    ∧ (((small {} fun q => { q with lb := { q.lb with ctl := 1 } }).part 0).lb.ctl.getLsbD 0 = true
        ∧ (((small {} fun q => { q with lb := { q.lb with ctl := 1 } }).part 0).slots[(0 : Fin 8)]).st.live = false)
    ∧ (((small { st := .run } fun q => { q with halting := some { cycle := 9990, code := 0x40, core := 0, eng := 0, pc := 0 } }).part 0).halting.map (·.cycle)) = some 9990
    ∧ (((small { st := .load } id).part 0).slots[(0 : Fin 8)]).st = .load ∧ (((small { st := .ready } id).part 0).slots[(0 : Fin 8)]).st = .ready
    ∧ (((small { st := .preempted } id).part 0).slots[(0 : Fin 8)]).st = .preempted
    ∧ (((small { st := .check, early := true } id).part 0).slots[(0 : Fin 8)]).early = true := by
  refine ⟨?_, ?_, ?_, ?_, ?_, ?_, ?_⟩ <;> decide +kernel

/-- A table scan for pinned entries with no object table, and one whose first page moves. -/
theorem test_witness_LaunchEvents_pins :
    (((small { st := .load, img := chart } id).pinScan 0 0).2 = .ok [])
    ∧ (let s := ((tabled (tLeaf 1 0x100)).updPart 0 fun q => { q with hEn := true, hAddr := q.dmAddr })
       (s.pinScan 0 0).2 = .wait 64) := by
  refine ⟨?_, ?_⟩ <;> decide +kernel

/-- A launch under an emergency at its GO is rejected although the emergency is over (R84, log 67); GO under a switch waits in the shadow; an ABORT of a halting
context only leaves its tag. -/
theorem test_launch_more :
    next (exec (.launchCheck 0 0) (small { st := .check, early := true } id)) (fun t => ((t.part 0).slots[0]).code == 1)
    ∧ next (exec (.launchGo 0 9) (small {} fun q => { q with switching := true })) (fun t => (t.part 0).shadowWr.length == 1)
    ∧ next (exec (.abort 0 9) (small { st := .run } fun q => { q with halting := some { cycle := 9990, code := 0x40, core := 0, eng := 0, pc := 0 } })) (fun t =>
        halts t == some 0x40 && (t.part 0).tag == 9)
    ∧ next (exec (.launchCheck 0 0) (checking (tLeaf 1 0x100))) (fun t => ((t.part 0).slots[0]).st == .check && t.agenda.any fun e => e.cycle == 10064)
    ∧ next (exec (.launchCheck 0 0) (checking 0)) (fun t => ((t.part 0).slots[0]).code == 4) := by
  refine ⟨?_, ?_, ?_, ?_, ?_⟩ <;> decide +kernel

/-- A READY slot; key slots named and not; an empty and a full count of signatures. -/
theorem test_witness_ContextAndKeyEvents :
    (((small { st := .ready, entries := [0x40, 0x44, 0x48, 0x4C, 0x50, 0x54], argbase := 0x1000, size := 3 } id).part 0).slots[(0 : Fin 8)]).st = .ready ∧ ((small { st := .ready, entries := [0x40, 0x44, 0x48, 0x4C, 0x50, 0x54], argbase := 0x1000, size := 3 } id).part 0).runSlot = none ∧ (small { st := .ready, entries := [0x40, 0x44, 0x48, 0x4C, 0x50, 0x54], argbase := 0x1000, size := 3 } id).partOf 5 = some 0 ∧ (small { st := .ready, entries := [0x40, 0x44, 0x48, 0x4C, 0x50, 0x54], argbase := 0x1000, size := 3 } id).partOf 6 = none
    ∧ ((base.part 0).slots[(0 : Fin 8)]).st ≠ .ready
    ∧ base.keyNamed 2 = false ∧ (1 : Fin 8) ≠ 7
    ∧ (small { st := .check, key := some 2 } id).keyNamed 2 = true
    ∧ ({ base with helm := { base.helm with keyHeld := [(2, 1, 5)] } } : State).keyNamed 2 = false ∧ ({ base with helm := { base.helm with keyHeld := [(2, 1, 5)] } } : State).helm.keyHeld = [((2 : Fin 8).val, (1 : Fin 8).val, 5)]
    ∧ base.helm.signs < 2 ^ 20
    ∧ 2 ^ 20 ≤ ({ base with helm := { base.helm with signs := 2 ^ 20 } } : State).helm.signs := by decide +kernel

/-- Every sequencer starts at its entry with g1 ARGBASE, g2 its logical core and g3 the clusters (R89); a key write to a named slot is held (R78); after 2^20 signatures an error (R91). -/
theorem test_contexts_keys :
    next (exec (.contextStart 0 0) (small { st := .ready, entries := [0x40, 0x44, 0x48, 0x4C, 0x50, 0x54], argbase := 0x1000, size := 3 } id)) (fun t => (t.core 2).seq.q.pc == 0x48 && (t.core 2).seq.gpr 1 == 0x1000 && (t.core 2).seq.gpr 2 == 2 && (t.core 2).seq.gpr 3 == 1 && (t.part 0).runSlot == some 0)
    ∧ next (exec (.keySlotWrite 2 1 5) (base)) (fun t => t.helm.keys[2] == 5 <<< 64)
    ∧ next (exec (.keySlotWrite 2 7 5) (base)) (fun t => t.helm.keys[2] == 0)
    ∧ next (exec (.keySlotWrite 2 1 5) (small { st := .check, key := some 2 } id)) (fun t => t.helm.keyHeld.length == 1)
    ∧ next (exec (.keySlotWriteApply 2) (({ base with helm := { base.helm with keyHeld := [(2, 1, 5)] } } : State))) (fun t => t.helm.keys[2] == 5 <<< 64 && t.helm.keyHeld == [])
    ∧ next (exec (.spdmChallenge 3) (({ base with helm := { base.helm with signs := 2 ^ 20 } } : State))) (fun t => t.helm.spdmOut == [spdmError])
    ∧ next (exec (.statWindowStart) (base)) (fun t => t.me.stat.start == 10000) := by decide +kernel

/-! ## The scheduler, switches, the Lookout and replay -/

/-- `small` with two context slots: slot 1 runs or not, slot 3 is READY. -/
def sched2 (run : Bool) (a b : BitVec 2) (f : Part → Part) : State :=
  let x : Slot := { st := if run then .run else .idle, prio := a }
  let y : Slot := { st := .ready, prio := b, entries := [0x40, 0x44, 0x48, 0x4C, 0x50, 0x54], argbase := 0x1000 }
  small {} fun q => f { q with slots := ((Vector.replicate 8 {}).set 1 x).set 3 y }

/-- `sched2` with the context of slot 1 being switched out. -/
def leaving (x : Preempt) : State := sched2 true 0 0 fun q => { q with outgoing := some x }

/-- `leaving` with core 0 in a fixed leg. -/
def inLeg (s : State) (due : Nat) : State :=
  (s.updPart 0 fun q => { q with legs := [leg 1 true] }).upd 0 fun k => { k with ctl := { k.ctl with legno := 1, due := some due, tRel := 9000 } }

/-- A partition that switches; none running and one ready; one of a higher PRIO, ready or pre-empted; a quantum used to the cycle, and not; cores in a free leg, and in fixed legs near their due cycle and far from it; a pre-emption with a deferred core, and one all of whose cores have stopped. -/
theorem test_witness_Scheduling :
    ((sched2 false 0 0 (fun q => { q with switching := true })).part (sched2 false 0 0 (fun q => { q with switching := true })).curPart).switching = true
    ∧ (((sched2 false 0 0 id).part (sched2 false 0 0 id).curPart).switching = false ∧ ((sched2 false 0 0 id).part (sched2 false 0 0 id).curPart).halting = none ∧ ((sched2 false 0 0 id).part (sched2 false 0 0 id).curPart).outgoing = none ∧ ((sched2 false 0 0 id).part (sched2 false 0 0 id).curPart).runSlot = none ∧ ((sched2 false 0 0 id).part (sched2 false 0 0 id).curPart).preSlot = none ∧ ((sched2 false 0 0 id).part (sched2 false 0 0 id).curPart).phold = false ∧ (((sched2 false 0 0 id).part (sched2 false 0 0 id).curPart).slots[(3 : Fin 8)]).st = .ready ∧ ((sched2 false 0 0 id).part (sched2 false 0 0 id).curPart).slhold.getLsb (3 : Fin 8) = false)
    ∧ (∀ i : Fin 8, i ≠ 3 → (((sched2 false 0 0 id).part (sched2 false 0 0 id).curPart).slots[i]).st = .ready → ((sched2 false 0 0 id).part (sched2 false 0 0 id).curPart).slhold.getLsb i = false → (((sched2 false 0 0 id).part (sched2 false 0 0 id).curPart).slots[i]).prio.toNat < (((sched2 false 0 0 id).part (sched2 false 0 0 id).curPart).slots[(3 : Fin 8)]).prio.toNat)
    ∧ (((sched2 true 0 2 id).part (sched2 true 0 2 id).curPart).switching = false ∧ ((sched2 true 0 2 id).part (sched2 true 0 2 id).curPart).halting = none ∧ ((sched2 true 0 2 id).part (sched2 true 0 2 id).curPart).outgoing = none ∧ ((sched2 true 0 2 id).part (sched2 true 0 2 id).curPart).runSlot = some 1 ∧ ((sched2 true 0 2 id).part (sched2 true 0 2 id).curPart).phold = false ∧ ((sched2 true 0 2 id).part (sched2 true 0 2 id).curPart).slhold.getLsb (3 : Fin 8) = false ∧ ((sched2 true 0 2 id).part (sched2 true 0 2 id).curPart).preSlot = none ∧ (((sched2 true 0 2 id).part (sched2 true 0 2 id).curPart).slots[(3 : Fin 8)]).st = .ready ∧ (((sched2 true 0 2 id).part (sched2 true 0 2 id).curPart).slots[(1 : Fin 8)]).prio.toNat < (((sched2 true 0 2 id).part (sched2 true 0 2 id).curPart).slots[(3 : Fin 8)]).prio.toNat)
    ∧ ((sched2 true 0 2 (fun q => { q with slots := (q.slots.set 3 { st := .preempted, prio := 2 }) })).part (sched2 true 0 2 (fun q => { q with slots := (q.slots.set 3 { st := .preempted, prio := 2 }) })).curPart).preSlot = some 3
    ∧ (((sched2 true 1 1 (fun q => { q with quant := 2 })).part (sched2 true 1 1 (fun q => { q with quant := 2 })).curPart).preSlot = none ∧ (((sched2 true 1 1 (fun q => { q with quant := 2 })).part (sched2 true 1 1 (fun q => { q with quant := 2 })).curPart).slots[(3 : Fin 8)]).prio = (((sched2 true 1 1 (fun q => { q with quant := 2 })).part (sched2 true 1 1 (fun q => { q with quant := 2 })).curPart).slots[(1 : Fin 8)]).prio ∧ ((sched2 true 1 1 (fun q => { q with quant := 2 })).part (sched2 true 1 1 (fun q => { q with quant := 2 })).curPart).quant ≠ 0 ∧ (((sched2 true 1 1 (fun q => { q with quant := 2 })).part (sched2 true 1 1 (fun q => { q with quant := 2 })).curPart).slots[(1 : Fin 8)]).since + 1024 * ((sched2 true 1 1 (fun q => { q with quant := 2 })).part (sched2 true 1 1 (fun q => { q with quant := 2 })).curPart).quant.toNat ≤ (sched2 true 1 1 (fun q => { q with quant := 2 })).chron)
    ∧ (((sched2 true 0 0 id).part (sched2 true 0 0 id).curPart).quant = 0 ∧ ({ (sched2 true 1 1 (fun q => { q with quant := 2 })) with chron := 2047 } : State).chron < (((sched2 true 1 1 (fun q => { q with quant := 2 })).part (sched2 true 1 1 (fun q => { q with quant := 2 })).curPart).slots[(1 : Fin 8)]).since + 1024 * ((sched2 true 1 1 (fun q => { q with quant := 2 })).part (sched2 true 1 1 (fun q => { q with quant := 2 })).curPart).quant.toNat)
    ∧ Running (sched2 true 0 0 id) (sched2 true 0 0 id).curPart
    ∧ ((sched2 true 0 0 id).partOf 0 = some 0 ∧ (sched2 true 0 0 id).inFix 0 0 false = false ∧ (sched2 true 0 0 id).fixedLeg 0 = false)
    ∧ ((inLeg (sched2 true 0 0 id) 10001).fixedLeg 0 = true ∧ ((inLeg (sched2 true 0 0 id) 10001).core 0).ctl.due = some 10001 ∧ (inLeg (sched2 true 0 0 id) 10001).chron + 1024 * ((inLeg (sched2 true 0 0 id) 10001).part 0).pbudget.toNat < 10001 ∧ ((inLeg (sched2 true 0 0 id) 10001).core 0).ctl.tRel ≤ (inLeg (sched2 true 0 0 id) 10001).chron ∧ (10000 : Nat) ≤ (inLeg (sched2 true 0 0 id) 10000).chron + 1024 * ((inLeg (sched2 true 0 0 id) 10000).part 0).pbudget.toNat)
    ∧ (((sched2 false 0 0 id).part (sched2 false 0 0 id).curPart).runSlot = none ∧ ((sched2 true 0 0 id).part (sched2 true 0 0 id).curPart).outgoing = none)
    ∧ (((leaving { slot := 1, at_ := 10000, deferred := [2] }).part (leaving { slot := 1, at_ := 10000, deferred := [2] }).curPart).outgoing = some { slot := 1, at_ := 10000, deferred := [2] } ∧ ((leaving { slot := 1, at_ := 10000, deferred := [2] }).part (leaving { slot := 1, at_ := 10000, deferred := [2] }).curPart).halting = none ∧ (leaving { slot := 1, at_ := 10000, deferred := [2] }).partOf 2 = some 0 ∧ (leaving { slot := 1, at_ := 10000, deferred := [2] }).coreStops 0 { slot := 1, at_ := 10000, deferred := [2] } 2 = false)
    ∧ (((leaving { slot := 1, at_ := 9992 }).part (leaving { slot := 1, at_ := 9992 }).curPart).outgoing = some { slot := 1, at_ := 9992 } ∧ 9992 + 8 ≤ (leaving { slot := 1, at_ := 9992 }).chron ∧ ((leaving { slot := 1, at_ := 9992 }).part (leaving { slot := 1, at_ := 9992 }).curPart).preSlot = none ∧ ((leaving { slot := 1, at_ := 9992 }).part (leaving { slot := 1, at_ := 9992 }).curPart).fixes = [] ∧ (leaving { slot := 1, at_ := 9992 }).reqs = [])
    ∧ (∀ c, (leaving { slot := 1, at_ := 9992 }).partOf c = some 0 → ((leaving { slot := 1, at_ := 9992 }).core c).pipe.infl = [] ∧ ((leaving { slot := 1, at_ := 9992 }).core c).cpe.cmds = [] ∧ ∀ b : Fin 32, ((leaving { slot := 1, at_ := 9992 }).col c).rows[b] = .closed) := by
  refine ⟨?_, ?_, ?_, ?_, ?_, ?_, ?_, ?_, ?_, ?_, ?_, ?_, ?_, ?_⟩ <;> ((try unfold Running); decide +kernel)

/-- A ready context is switched in 560 cycles on; one of higher PRIO asks for pre-emption, a peer only at the end of the quantum; the boundary of a cut is 64 cycles ahead; a switch out and in takes 1,120. -/
theorem test_scheduling :
    next (exec (.helmSchedule) (sched2 false 0 0 id)) (fun t => (t.part 0).switching && (t.part 0).incoming == some 3 && t.agenda.any (fun v => v.cycle == 10560 && v.instr == .switchEnd))
    ∧ next (exec (.helmSchedule) (sched2 true 0 2 id)) (fun t => t.agenda.any (fun v => v.cycle == 10000 && v.instr == .preemptionRequest))
    ∧ next (exec (.helmSchedule) (sched2 true 1 1 (fun q => { q with quant := 10 }))) (fun t => t.agenda.all (fun v => v.cycle == 10240 && v.instr == .quantumExpiry))
    ∧ next (exec (.quantumExpiry) (sched2 true 1 1 (fun q => { q with quant := 2 }))) (fun t => t.agenda.any (fun v => v.instr == .preemptionRequest))
    ∧ next (exec (.preemptionRequest) (inLeg (sched2 true 0 0 id) 20000)) (fun t => (t.part 0).outgoing.any (fun x => x.cut == [(0, 10536)]))
    ∧ next (exec (.preemptionRequest) (inLeg (sched2 true 0 0 id) 10000)) (fun t => (t.part 0).outgoing.any (fun x => x.deferred == [0]))
    ∧ next (exec (.preemptionComplete) (leaving { slot := 1, at_ := 10000, deferred := [2] })) (fun t => t.agenda.any (fun v => v.cycle == 10001))
    ∧ next (exec (.preemptionComplete) (leaving { slot := 1, at_ := 9992 })) (fun t => (t.part 0).switching && t.agenda.any (fun v => v.cycle == 11120 && v.instr == .switchEnd)) := by decide +kernel

/-- Memory with 8-byte words at addresses, as the ring of a Logbook. -/
def ringWords (l : List (Nat × Nat)) : List Host.Cell := l.foldl (fun m x => writeBytes m x.1 (toBytes 8 x.2)) []

/-- A switch in of a READY context, one out, one in from the shadow; a group without a fix held; a running context for T1, T2 and T3, LKSTAT empty and held; a recorded give whose stamp is reached. -/
theorem test_witness_SwitchLookoutAndReplay :
    ((sched2 false 0 0 id).part (sched2 false 0 0 id).curPart).switching = false
    ∧ (((sched2 false 0 0 (fun q => { q with switching := true, incoming := some 3 })).part (sched2 false 0 0 (fun q => { q with switching := true, incoming := some 3 })).curPart).switching = true ∧ ((sched2 false 0 0 (fun q => { q with switching := true, incoming := some 3 })).part (sched2 false 0 0 (fun q => { q with switching := true, incoming := some 3 })).curPart).outgoing = none ∧ ((sched2 false 0 0 (fun q => { q with switching := true, incoming := some 3 })).part (sched2 false 0 0 (fun q => { q with switching := true, incoming := some 3 })).curPart).incoming = some (3 : Fin 8).val ∧ (((sched2 false 0 0 (fun q => { q with switching := true, incoming := some 3 })).part (sched2 false 0 0 (fun q => { q with switching := true, incoming := some 3 })).curPart).slots[(3 : Fin 8)]).st = .ready ∧ ((sched2 false 0 0 (fun q => { q with switching := true, incoming := some 3 })).part (sched2 false 0 0 (fun q => { q with switching := true, incoming := some 3 })).curPart).runSlot = none ∧ ((sched2 false 0 0 (fun q => { q with switching := true, incoming := some 3 })).part (sched2 false 0 0 (fun q => { q with switching := true, incoming := some 3 })).curPart).shadow = none ∧ ((sched2 false 0 0 (fun q => { q with switching := true, incoming := some 3 })).part (sched2 false 0 0 (fun q => { q with switching := true, incoming := some 3 })).curPart).shadowWr = [] ∧ ((sched2 false 0 0 (fun q => { q with switching := true, incoming := some 3 })).part (sched2 false 0 0 (fun q => { q with switching := true, incoming := some 3 })).curPart).tkPend = [] ∧ ((sched2 false 0 0 (fun q => { q with switching := true, incoming := some 3 })).part (sched2 false 0 0 (fun q => { q with switching := true, incoming := some 3 })).curPart).swapFault = none)
    ∧ (((sched2 true 0 0 (fun q => { q with switching := true, outgoing := some { slot := 1, at_ := 9000, stopped := some 9500 } })).part (sched2 true 0 0 (fun q => { q with switching := true, outgoing := some { slot := 1, at_ := 9000, stopped := some 9500 } })).curPart).switching = true ∧ ((sched2 true 0 0 (fun q => { q with switching := true, outgoing := some { slot := 1, at_ := 9000, stopped := some 9500 } })).part (sched2 true 0 0 (fun q => { q with switching := true, outgoing := some { slot := 1, at_ := 9000, stopped := some 9500 } })).curPart).outgoing = some { slot := 1, at_ := 9000, stopped := some 9500 } ∧ ((sched2 true 0 0 (fun q => { q with switching := true, outgoing := some { slot := 1, at_ := 9000, stopped := some 9500 } })).part (sched2 true 0 0 (fun q => { q with switching := true, outgoing := some { slot := 1, at_ := 9000, stopped := some 9500 } })).curPart).incoming = none ∧ ((sched2 true 0 0 (fun q => { q with switching := true, outgoing := some { slot := 1, at_ := 9000, stopped := some 9500 } })).part (sched2 true 0 0 (fun q => { q with switching := true, outgoing := some { slot := 1, at_ := 9000, stopped := some 9500 } })).curPart).shadowWr = [] ∧ ((sched2 true 0 0 (fun q => { q with switching := true, outgoing := some { slot := 1, at_ := 9000, stopped := some 9500 } })).part (sched2 true 0 0 (fun q => { q with switching := true, outgoing := some { slot := 1, at_ := 9000, stopped := some 9500 } })).curPart).tkPend = [] ∧ ((sched2 true 0 0 (fun q => { q with switching := true, outgoing := some { slot := 1, at_ := 9000, stopped := some 9500 } })).part (sched2 true 0 0 (fun q => { q with switching := true, outgoing := some { slot := 1, at_ := 9000, stopped := some 9500 } })).curPart).swapFault = none)
    ∧ (((sched2 false 0 0 (fun q => { q with switching := true, incoming := some 1, slots := q.slots.set 1 { st := .preempted }, shadow := some { slot := 1, at_ := 9000, cores := [(0, { seq := { g := (Vector.replicate 32 0).set 5 7 } })] } })).part (sched2 false 0 0 (fun q => { q with switching := true, incoming := some 1, slots := q.slots.set 1 { st := .preempted }, shadow := some { slot := 1, at_ := 9000, cores := [(0, { seq := { g := (Vector.replicate 32 0).set 5 7 } })] } })).curPart).switching = true ∧ ((sched2 false 0 0 (fun q => { q with switching := true, incoming := some 1, slots := q.slots.set 1 { st := .preempted }, shadow := some { slot := 1, at_ := 9000, cores := [(0, { seq := { g := (Vector.replicate 32 0).set 5 7 } })] } })).part (sched2 false 0 0 (fun q => { q with switching := true, incoming := some 1, slots := q.slots.set 1 { st := .preempted }, shadow := some { slot := 1, at_ := 9000, cores := [(0, { seq := { g := (Vector.replicate 32 0).set 5 7 } })] } })).curPart).outgoing = none ∧ ((sched2 false 0 0 (fun q => { q with switching := true, incoming := some 1, slots := q.slots.set 1 { st := .preempted }, shadow := some { slot := 1, at_ := 9000, cores := [(0, { seq := { g := (Vector.replicate 32 0).set 5 7 } })] } })).part (sched2 false 0 0 (fun q => { q with switching := true, incoming := some 1, slots := q.slots.set 1 { st := .preempted }, shadow := some { slot := 1, at_ := 9000, cores := [(0, { seq := { g := (Vector.replicate 32 0).set 5 7 } })] } })).curPart).incoming = some (1 : Fin 8).val ∧ (((sched2 false 0 0 (fun q => { q with switching := true, incoming := some 1, slots := q.slots.set 1 { st := .preempted }, shadow := some { slot := 1, at_ := 9000, cores := [(0, { seq := { g := (Vector.replicate 32 0).set 5 7 } })] } })).part (sched2 false 0 0 (fun q => { q with switching := true, incoming := some 1, slots := q.slots.set 1 { st := .preempted }, shadow := some { slot := 1, at_ := 9000, cores := [(0, { seq := { g := (Vector.replicate 32 0).set 5 7 } })] } })).curPart).slots[(1 : Fin 8)]).st = .preempted ∧ ((sched2 false 0 0 (fun q => { q with switching := true, incoming := some 1, slots := q.slots.set 1 { st := .preempted }, shadow := some { slot := 1, at_ := 9000, cores := [(0, { seq := { g := (Vector.replicate 32 0).set 5 7 } })] } })).part (sched2 false 0 0 (fun q => { q with switching := true, incoming := some 1, slots := q.slots.set 1 { st := .preempted }, shadow := some { slot := 1, at_ := 9000, cores := [(0, { seq := { g := (Vector.replicate 32 0).set 5 7 } })] } })).curPart).shadow.isSome = true ∧ ((sched2 false 0 0 (fun q => { q with switching := true, incoming := some 1, slots := q.slots.set 1 { st := .preempted }, shadow := some { slot := 1, at_ := 9000, cores := [(0, { seq := { g := (Vector.replicate 32 0).set 5 7 } })] } })).part (sched2 false 0 0 (fun q => { q with switching := true, incoming := some 1, slots := q.slots.set 1 { st := .preempted }, shadow := some { slot := 1, at_ := 9000, cores := [(0, { seq := { g := (Vector.replicate 32 0).set 5 7 } })] } })).curPart).runSlot = none ∧ ((sched2 false 0 0 (fun q => { q with switching := true, incoming := some 1, slots := q.slots.set 1 { st := .preempted }, shadow := some { slot := 1, at_ := 9000, cores := [(0, { seq := { g := (Vector.replicate 32 0).set 5 7 } })] } })).part (sched2 false 0 0 (fun q => { q with switching := true, incoming := some 1, slots := q.slots.set 1 { st := .preempted }, shadow := some { slot := 1, at_ := 9000, cores := [(0, { seq := { g := (Vector.replicate 32 0).set 5 7 } })] } })).curPart).shadowWr = [] ∧ ((sched2 false 0 0 (fun q => { q with switching := true, incoming := some 1, slots := q.slots.set 1 { st := .preempted }, shadow := some { slot := 1, at_ := 9000, cores := [(0, { seq := { g := (Vector.replicate 32 0).set 5 7 } })] } })).part (sched2 false 0 0 (fun q => { q with switching := true, incoming := some 1, slots := q.slots.set 1 { st := .preempted }, shadow := some { slot := 1, at_ := 9000, cores := [(0, { seq := { g := (Vector.replicate 32 0).set 5 7 } })] } })).curPart).tkPend = [] ∧ ((sched2 false 0 0 (fun q => { q with switching := true, incoming := some 1, slots := q.slots.set 1 { st := .preempted }, shadow := some { slot := 1, at_ := 9000, cores := [(0, { seq := { g := (Vector.replicate 32 0).set 5 7 } })] } })).part (sched2 false 0 0 (fun q => { q with switching := true, incoming := some 1, slots := q.slots.set 1 { st := .preempted }, shadow := some { slot := 1, at_ := 9000, cores := [(0, { seq := { g := (Vector.replicate 32 0).set 5 7 } })] } })).curPart).swapFault = none)
    ∧ ((sched2 false 0 0 (fun q => { q with switching := true, incoming := some 1, slots := q.slots.set 1 { st := .preempted }, shadow := some { slot := 1, at_ := 9000, cores := [(0, { seq := { g := (Vector.replicate 32 0).set 5 7 } })] } })).partOf 0 = some (sched2 false 0 0 (fun q => { q with switching := true, incoming := some 1, slots := q.slots.set 1 { st := .preempted }, shadow := some { slot := 1, at_ := 9000, cores := [(0, { seq := { g := (Vector.replicate 32 0).set 5 7 } })] } })).curPart ∧ (((sched2 false 0 0 (fun q => { q with switching := true, incoming := some 1, slots := q.slots.set 1 { st := .preempted }, shadow := some { slot := 1, at_ := 9000, cores := [(0, { seq := { g := (Vector.replicate 32 0).set 5 7 } })] } })).part (sched2 false 0 0 (fun q => { q with switching := true, incoming := some 1, slots := q.slots.set 1 { st := .preempted }, shadow := some { slot := 1, at_ := 9000, cores := [(0, { seq := { g := (Vector.replicate 32 0).set 5 7 } })] } })).curPart).shadow.bind fun h => (tget h.cores 0).map fun k => k.seq.gpr 5) = some 7)
    ∧ ((sched2 true 0 0 id).part (sched2 true 0 0 id).curPart).fixes = []
    ∧ (Eng.seq ≠ .cpe ∧ (sched2 true 0 0 id).partOf 3 = some 0 ∧ ((sched2 true 0 0 id).part (sched2 true 0 0 id).curPart).runSlot = some 1 ∧ ((sched2 true 0 0 id).part (sched2 true 0 0 id).curPart).outgoing = none ∧ ((sched2 true 0 0 id).part (sched2 true 0 0 id).curPart).lkstat.getLsbD 15 = false ∧ ((sched2 true 0 0 (fun q => { q with lkstat := 0x8001 })).part (sched2 true 0 0 (fun q => { q with lkstat := 0x8001 })).curPart).lkstat.getLsbD 15 = true)
    ∧ Running (sched2 true 0 0 id) 0
    ∧ Running (sched2 true 0 0 (fun q => { q with lkstat := 0x8001 })) 0
    ∧ (sched2 true 0 0 id).replaying (sched2 true 0 0 id).curPart = false
    ∧ (sched2 true 0 0 (fun q => { q with lb := { q.lb with ctl := 1, act := true, replay := true, tail := 64, abase := 2 ^ 52 } })).nextInput 0 = none
    ∧ (({ (sched2 true 0 0 (fun q => { q with lb := { q.lb with ctl := 1, act := true, replay := true, tail := 64, abase := 2 ^ 52 } })) with memory := ringWords [(2 ^ 52, 5 + 2 ^ 4), (2 ^ 52 + 16, 4 + 2 ^ 9 * 2 + 2 ^ 11 * 3)] } : State).replaying ({ (sched2 true 0 0 (fun q => { q with lb := { q.lb with ctl := 1, act := true, replay := true, tail := 64, abase := 2 ^ 52 } })) with memory := ringWords [(2 ^ 52, 5 + 2 ^ 4), (2 ^ 52 + 16, 4 + 2 ^ 9 * 2 + 2 ^ 11 * 3)] } : State).curPart = true ∧ ({ (sched2 true 0 0 (fun q => { q with lb := { q.lb with ctl := 1, act := true, replay := true, tail := 64, abase := 2 ^ 52 } })) with memory := ringWords [(2 ^ 52, 5 + 2 ^ 4), (2 ^ 52 + 16, 4 + 2 ^ 9 * 2 + 2 ^ 11 * 3)] } : State).partOf 4 = some 0)
    ∧ (({ (sched2 true 0 0 (fun q => { q with lb := { q.lb with ctl := 1, act := true, replay := true, tail := 64, abase := 2 ^ 52 } })) with memory := ringWords [(2 ^ 52, 5 + 2 ^ 4), (2 ^ 52 + 16, 4 + 2 ^ 9 * 2 + 2 ^ 11 * 3)] } : State).nextInput ({ (sched2 true 0 0 (fun q => { q with lb := { q.lb with ctl := 1, act := true, replay := true, tail := 64, abase := 2 ^ 52 } })) with memory := ringWords [(2 ^ 52, 5 + 2 ^ 4), (2 ^ 52 + 16, 4 + 2 ^ 9 * 2 + 2 ^ 11 * 3)] } : State).curPart).any (fun r => r.kind == 5 && fld r.arg 8 0 == (4 : CoreIx).val && fld r.arg 10 9 == 2 && fld r.arg 18 11 == 3) = true
    ∧ Running ({ (sched2 true 0 0 (fun q => { q with lb := { q.lb with ctl := 1, act := true, replay := true, tail := 64, abase := 2 ^ 52 } })) with memory := ringWords [(2 ^ 52, 5 + 2 ^ 4), (2 ^ 52 + 16, 4 + 2 ^ 9 * 2 + 2 ^ 11 * 3)] } : State) ({ (sched2 true 0 0 (fun q => { q with lb := { q.lb with ctl := 1, act := true, replay := true, tail := 64, abase := 2 ^ 52 } })) with memory := ringWords [(2 ^ 52, 5 + 2 ^ 4), (2 ^ 52 + 16, 4 + 2 ^ 9 * 2 + 2 ^ 11 * 3)] } : State).curPart
    ∧ ((({ (sched2 true 0 0 (fun q => { q with lb := { q.lb with ctl := 1, act := true, replay := true, tail := 64, abase := 2 ^ 52 } })) with memory := ringWords [(2 ^ 52, 5 + 2 ^ 4), (2 ^ 52 + 16, 4 + 2 ^ 9 * 2 + 2 ^ 11 * 3)] } : State).core 4).ctl.ltc[2]).toNat + 3 ≤ 4095 := by
  refine ⟨?_, ?_, ?_, ?_, ?_, ?_, ?_, ?_, ?_, ?_, ?_, ?_, ?_, ?_, ?_⟩ <;> ((try unfold Running); decide +kernel)

/-- The end of a switch in, out and back (R89, R142); T1 asks and holds, T2 kills with 0x45, T3 fences and kills with 0x75 (R144); a give is credited in replay (R147). -/
theorem test_switch_lookout_replay :
    next (exec (.switchEnd) (sched2 false 0 0 (fun q => { q with switching := true, incoming := some 3 }))) (fun t => (t.part 0).runSlot == some 3 && (t.core 2).seq.q.pc == 0x48 && (t.core 2).seq.gpr 1 == 0x1000 && (t.core 2).seq.gpr 2 == 2)
    ∧ next (exec (.switchEnd) (sched2 true 0 0 (fun q => { q with switching := true, outgoing := some { slot := 1, at_ := 9000, stopped := some 9500 } }))) (fun t => ((t.part 0).slots[1]).st == .preempted && (t.part 0).shadow.any (fun h => h.slot == 1))
    ∧ next (exec (.switchEnd) (sched2 false 0 0 (fun q => { q with switching := true, incoming := some 1, slots := q.slots.set 1 { st := .preempted }, shadow := some { slot := 1, at_ := 9000, cores := [(0, { seq := { g := (Vector.replicate 32 0).set 5 7 } })] } }))) (fun t => (t.part 0).runSlot == some 1 && (t.core 0).seq.gpr 5 == 7 && (t.part 0).shadow == none)
    ∧ next (exec (.checkpointRequest 0 5) (sched2 true 0 0 id)) (fun t => (t.part 0).ckreq && (t.part 0).ckleg == 5)
    ∧ next (exec (.lookoutT1 3 .vec) (sched2 true 0 0 id)) (fun t => (t.part 0).lkstat == 0x9603 && (t.part 0).outgoing.any (fun x => x.sethold))
    ∧ next (exec (.lookoutT2 3 .seq) (sched2 true 0 0 (fun q => { q with lkstat := 0x8001 }))) (fun t => halts t == some 0x45 && (t.part 0).lkstat == 0x8001)
    ∧ next (exec (.lookoutT3 3 .cpe) (sched2 true 0 0 id)) (fun t => halts t == some 0x75 && (t.core 3).killed && t.helm.gen == 2 && (t.part 0).lkstat == 0xB803)
    ∧ next (exec (.replayInjection) (({ (sched2 true 0 0 (fun q => { q with lb := { q.lb with ctl := 1, act := true, replay := true, tail := 64, abase := 2 ^ 52 } })) with memory := ringWords [(2 ^ 52, 5 + 2 ^ 4), (2 ^ 52 + 16, 4 + 2 ^ 9 * 2 + 2 ^ 11 * 3)] } : State))) (fun t => (t.core 4).ctl.ltc[2] == 3) := by
  refine ⟨?_, ?_, ?_, ?_, ?_, ?_, ?_, ?_⟩ <;> (decide +kernel)

/-- A ring with a host's posted write of 8 bytes recorded at the start of its context. -/
def replayWrite (kind : Nat) : State :=
  { sched2 true 0 0 (fun q => { q with lb := { q.lb with ctl := 1, act := true, replay := true, tail := 64, abase := 2 ^ 52 } }) with
    memory := ringWords [(2 ^ 52, kind + 2 ^ 8 * 8), (2 ^ 52 + 16, 0x100), (2 ^ 52 + 32, 0x55)] }

/-- A pre-emption that is under way already, one that has completed, one whose deferred core has not stopped; a fabric fix held with its release come;
recorded posted writes of the host and of a peer; a slot that was pre-empted at a higher PRIO. -/
theorem test_witness_Scheduling_more :
    Running (leaving { slot := 1, at_ := 10000, deferred := [2] }) (leaving { slot := 1, at_ := 10000, deferred := [2] }).curPart
    ∧ ((leaving { slot := 1, at_ := 10000, stopped := some 9500 }).part 0).outgoing.any (fun x => x.stopped.isSome) = true
    ∧ ((leaving { slot := 1, at_ := 10000, deferred := [2] }).coreStops 0 { slot := 1, at_ := 10000, deferred := [2] } 2 = false
        ∧ tget ({ slot := 1, at_ := 10000, deferred := [2] } : Preempt).closed 2 = none)
    ∧ (∀ c, (leaving { slot := 1, at_ := 9992 }).partOf c = some 0 → ((leaving { slot := 1, at_ := 9992 }).core c).axu.stqA = [])
    ∧ (let s := sched2 true 0 0 (fun q => { q with fixes := [{ grp := 56, leg := 1, course := 0, health := 0, fabric := true, held := true }], relHeld := some (1, 0) })
       (s.part 0).fixes.map (fun f => (f.grp.val, f.fabric)) = [(56, true)] ∧ (s.part 0).relHeld.isSome = true ∧ s.replaying 0 = false)
    ∧ ((replayWrite 2).replaying (replayWrite 2).curPart = true ∧ ((replayWrite 2).nextInput (replayWrite 2).curPart).map (fun r => (r.kind, r.arg, r.payload)) = some (2, 0x100, toBytes 8 0x55))
    ∧ ((replayWrite 3).nextInput (replayWrite 3).curPart).map (·.kind) = some 3 := by
  refine ⟨?_, ?_, ?_, ?_, ?_, ?_, ?_⟩ <;> ((try unfold Running); decide +kernel)

/-- A second request is merged with the first (R160); a completed pre-emption completes no more; a recorded posted write becomes a request and its record is
consumed (R147). -/
theorem test_scheduling_more :
    next (exec (.preemptionRequest) (leaving { slot := 1, at_ := 10000, deferred := [2] })) (fun t => (t.part 0).outgoing == some { slot := 1, at_ := 10000, deferred := [2] } && t.agenda == [])
    ∧ next (exec (.preemptionComplete) (leaving { slot := 1, at_ := 9000, stopped := some 9500 })) (fun t => !(t.part 0).switching)
    ∧ next (exec (.replayInjection) (replayWrite 2)) (fun t => (t.part 0).lb.head == 64
        && (t.reqs.any (fun r => r.who == 5 && r.ia == 0x100 && r.kind == .write (toBytes 8 0x55)) || t.agenda.any (fun v => match v.instr with | .accessResponse _ => true | _ => false))) := by
  refine ⟨?_, ?_, ?_⟩ <;> decide +kernel

/-! ## Fixes and the halt of a partition -/

/-- The cores of cluster 0 in one partition with leg 1, cluster scope unless it is said otherwise; core 0 waits at its fix, the others have arrived or not. -/
def fixing (d : LegDesc) (others : Option Nat) : State :=
  (List.finRange 288).foldl (fun s c => if c.val < 6 then s.upd c fun k => { k with seq := { k.seq with fix := if c.val = 0 then some ⟨1, none, 9000⟩ else others.map fun a => ⟨1, some a, 9000⟩ } }
    else s) (small { st := .run } fun q => { q with legs := [d] })

/-- All six have arrived. -/
def arrivedAll (d : LegDesc) : State := (fixing d (some 9990)).upd 0 fun k => { k with seq := { k.seq with fix := some ⟨1, some 10000, 9000⟩ } }

/-- `small` with a core in a fixed leg whose due cycle is now. -/
def dueNow : State :=
  (small { st := .run } fun q => { q with legs := [leg 1 true] }).upd 0 fun k => { k with ctl := { k.ctl with legno := 1, due := some 10000, tRel := 9000 } }

/-- A partition with the fabric fix of leg 1 awaited. -/
def awaitingFix (type children : Nat) (sent : Bool) : State :=
  small { st := .run } fun q => { q with
    awaiting := some (1, 9000)
    sentArr := sent
    fxtot := 3
    fxcfg := BitVec.ofNat 64 (type * 2 ^ 6 + children * 2 ^ 16)
    arrHeld := [{ src := .link 0, leg := 1, cnt := 1, at_ := 9500 }] }

/-- A partition that halts, in a phase. -/
def stopping (phase : Nat) (f : Part → Part) : State :=
  small { st := .run } fun q => f { q with halting := some { code := 0x12, cycle := 9900, core := 2, eng := 3, pc := 8, phase := phase } }

/-- A core at no fix, one that has arrived, one that is not ready, one that is with the others at the fix or not, one whose neighbour has halted; a due cycle that is now, with the agenda empty and not. -/
theorem test_witness_FixArrivals :
    base.me.seq.fix = none
    ∧ (arrivedAll (leg 1 false)).me.seq.fix = some ⟨1, some 10000, 9000⟩
    ∧ ((fixing (leg 1 false) none).me.seq.fix = some ⟨1, none, 9000⟩ ∧ (fixing (leg 1 false) none).partOf (fixing (leg 1 false) none).cur = some 0 ∧ ((fixing (leg 1 false) none).part 0).leg 1 = some (leg 1 false) ∧ (fixing (leg 1 false) none).preStopped (fixing (leg 1 false) none).cur = false ∧ (fixing (leg 1 false) none).agenda = [])
    ∧ (((fixing (leg 1 false) none).upd 0 fun k => { k with axu := { k.axu with q := { k.axu.q with st := .running } } }).me.seq.fix = some ⟨1, none, 9000⟩ ∧ ((fixing (leg 1 false) none).upd 0 fun k => { k with axu := { k.axu with q := { k.axu.q with st := .running } } }).partOf ((fixing (leg 1 false) none).upd 0 fun k => { k with axu := { k.axu with q := { k.axu.q with st := .running } } }).cur = some 0 ∧ (((fixing (leg 1 false) none).upd 0 fun k => { k with axu := { k.axu with q := { k.axu.q with st := .running } } }).part 0).leg 1 = some (leg 1 false) ∧ ((fixing (leg 1 false) none).upd 0 fun k => { k with axu := { k.axu with q := { k.axu.q with st := .running } } }).preStopped ((fixing (leg 1 false) none).upd 0 fun k => { k with axu := { k.axu with q := { k.axu.q with st := .running } } }).cur = false ∧ ((fixing (leg 1 false) none).upd 0 fun k => { k with axu := { k.axu with q := { k.axu.q with st := .running } } }).agenda = [])
    ∧ ((fixing (leg 1 false) none).upd 0 fun k => { k with axu := { k.axu with q := { k.axu.q with st := .running } } }).arrivalReady ((fixing (leg 1 false) none).upd 0 fun k => { k with axu := { k.axu with q := { k.axu.q with st := .running } } }).cur = false
    ∧ ((fixing (leg 1 false) none).arrivalReady (fixing (leg 1 false) none).cur = true ∧ (leg 1 false).scope ≠ 4)
    ∧ (∀ x, x ≠ (fixing (leg 1 false) none).cur → (fixing (leg 1 false) none).partOf x = some 0 → ((fixing (leg 1 false) none).core x).seq.halted = none ∧ ((fixing (leg 1 false) none).core x).seq.haltWait = none ∧ ((fixing (leg 1 false) none).core x).seq.fix = none)
    ∧ ((fixing (leg 1 false) (some 9990)).me.seq.fix = some ⟨1, none, 9000⟩ ∧ (fixing (leg 1 false) (some 9990)).partOf (fixing (leg 1 false) (some 9990)).cur = some 0 ∧ ((fixing (leg 1 false) (some 9990)).part 0).leg 1 = some (leg 1 false) ∧ (fixing (leg 1 false) (some 9990)).preStopped (fixing (leg 1 false) (some 9990)).cur = false ∧ (fixing (leg 1 false) (some 9990)).agenda = [])
    ∧ (fixing (leg 1 false) (some 9990)).arrivalReady (fixing (leg 1 false) (some 9990)).cur = true
    ∧ (∀ x, x ≠ (fixing (leg 1 false) (some 9990)).cur → (fixing (leg 1 false) (some 9990)).partOf x = some 0 → ((fixing (leg 1 false) (some 9990)).core x).seq.halted = none ∧ ((fixing (leg 1 false) (some 9990)).core x).seq.haltWait = none ∧ ((fixing (leg 1 false) (some 9990)).core x).seq.fix = some ⟨1, some 9990, 9000⟩)
    ∧ (InGroup (fixing (leg 1 false) none) 0 (groupIx (fixing (leg 1 false) none).cur 1) 5 ∧ (fixing (leg 1 false) none).arrivalOf 5 = none)
    ∧ (((fixing (leg 1 false) (some 9990)).upd 1 fun k => { k with seq := { k.seq with halted := some 0 } }).me.seq.fix = some ⟨1, none, 9000⟩ ∧ ((fixing (leg 1 false) (some 9990)).upd 1 fun k => { k with seq := { k.seq with halted := some 0 } }).partOf ((fixing (leg 1 false) (some 9990)).upd 1 fun k => { k with seq := { k.seq with halted := some 0 } }).cur = some 0 ∧ (((fixing (leg 1 false) (some 9990)).upd 1 fun k => { k with seq := { k.seq with halted := some 0 } }).part 0).leg 1 = some (leg 1 false) ∧ ((fixing (leg 1 false) (some 9990)).upd 1 fun k => { k with seq := { k.seq with halted := some 0 } }).preStopped ((fixing (leg 1 false) (some 9990)).upd 1 fun k => { k with seq := { k.seq with halted := some 0 } }).cur = false ∧ ((fixing (leg 1 false) (some 9990)).upd 1 fun k => { k with seq := { k.seq with halted := some 0 } }).agenda = [])
    ∧ (((fixing (leg 1 false) (some 9990)).upd 1 fun k => { k with seq := { k.seq with halted := some 0 } }).arrivalReady ((fixing (leg 1 false) (some 9990)).upd 1 fun k => { k with seq := { k.seq with halted := some 0 } }).cur = true ∧ InGroup ((fixing (leg 1 false) (some 9990)).upd 1 fun k => { k with seq := { k.seq with halted := some 0 } }) 0 (groupIx ((fixing (leg 1 false) (some 9990)).upd 1 fun k => { k with seq := { k.seq with halted := some 0 } }).cur 1) 1 ∧ (((fixing (leg 1 false) (some 9990)).upd 1 fun k => { k with seq := { k.seq with halted := some 0 } }).core 1).seq.halted.isSome = true)
    ∧ Running ((fixing (leg 1 false) (some 9990)).upd 1 fun k => { k with seq := { k.seq with halted := some 0 } }) 0
    ∧ (base.core 0).ctl.legno ≠ 1
    ∧ (dueNow.partOf 0 = some 0 ∧ (dueNow.core 0).ctl.due = some dueNow.chron ∧ dueNow.arrivalOf 0 = none ∧ dueNow.cutCore 0 = false ∧ dueNow.agenda = [] ∧ dueNow.fixedLeg 0 = true)
    ∧ Running dueNow 0
    ∧ ((({ dueNow with agenda := [{ cycle := 10000, instr := .emclear }] } : State).part 0).runSlot.isSome = true ∧ (({ dueNow with agenda := [{ cycle := 10000, instr := .emclear }] } : State).agenda.head?.map fun (v : Ev) => (v.cycle, v.instr)) = some (10000, .emclear)) := by
  refine ⟨?_, ?_, ?_, ?_, ?_, ?_, ?_, ?_, ?_, ?_, ?_, ?_, ?_, ?_, ?_, ?_, ?_, ?_⟩ <;> ((try unfold Running); (try unfold InGroup); decide +kernel)

/-- The last arrival of a group completes it at once in a free leg (R130); a halted core of the group raises 0x43 (R132); a miss raises 0x41 at the due cycle (R130). -/
theorem test_fix_arrivals :
    next (exec (.coreArrival) ((fixing (leg 1 false) none).upd 0 fun k => { k with axu := { k.axu with q := { k.axu.q with st := .running } } })) (fun t => t.agenda.any (fun v => v.cycle == 10001))
    ∧ next (exec (.coreArrival) (fixing (leg 1 false) none)) (fun t => t.me.seq.fix == some ⟨1, some 10000, 9000⟩ && t.agenda == [])
    ∧ next (exec (.coreArrival) (fixing (leg 1 false) (some 9990))) (fun t => (List.finRange 288).all (fun x => decide (6 ≤ x.val) || (t.arrivalOf x).any (fun y => y.1 == 1)) && t.agenda.any (fun v => v.cycle == 10000 && v.instr == .fixComplete 0 0))
    ∧ next (exec (.coreArrival) ((fixing (leg 1 false) (some 9990)).upd 1 fun k => { k with seq := { k.seq with halted := some 0 } })) (fun t => halts t == some 0x43)
    ∧ next (exec (.dueCycleMiss 0 1) (dueNow)) (fun t => halts t == some 0x41)
    ∧ next (exec (.dueCycleMiss 0 1) ({ dueNow with agenda := [{ cycle := 10000, instr := .emclear }] })) (fun t => halts t == none && t.agenda.length == 2)
    ∧ next (exec (.dueCycleMiss 0 2) (dueNow)) (fun t => halts t == none) := by decide +kernel

/-- A group all of whose cores have arrived, with a row that has the keys and with none; a group that is released, one that is held; a fabric arrival with children still to come, at the root with the last child; a release at the root and at a child. -/
theorem test_witness_FixReleaseAndTree :
    (base.grpCores 0 48 = [] ∨ base.grpCores 7 0 = [])
    ∧ (∀ x ∈ (arrivedAll (leg 1 false)).grpCores 0 0, ((arrivedAll (leg 1 false)).arrivalOf x).isSome = true ∧ ((arrivedAll (leg 1 false)).arrivalOf x).map (·.1) = some 1 ∧ groupIx x (leg 1 false).scope = 0)
    ∧ ((arrivedAll (leg 1 false)).grpCores 0 0 ≠ [] ∧ ((arrivedAll (leg 1 false)).part 0).leg 1 = some (leg 1 false) ∧ ((arrivedAll (leg 1 false)).part 0).fixes = [] ∧ ((arrivedAll (leg 1 false)).part 0).outgoing = none ∧ ((arrivedAll (leg 1 false)).part 0).lb.act = false ∧ ((arrivedAll (leg 1 false)).part 0).ckreq = false ∧ (leg 1 false).scope ≤ 3)
    ∧ Running (arrivedAll (leg 1 false)) 0
    ∧ (∀ x ∈ (arrivedAll { leg 1 false with sel := [0] }).grpCores 0 0, ((arrivedAll { leg 1 false with sel := [0] }).arrivalOf x).map (·.1) = some 1 ∧ groupIx x 1 = 0)
    ∧ Running (arrivedAll { leg 1 false with sel := [0] }) 0
    ∧ ((arrivedAll { leg 1 false with sel := [0] }).grpCores 0 0 ≠ [] ∧ ((arrivedAll { leg 1 false with sel := [0] }).part 0).leg 1 = some { leg 1 false with sel := [0] } ∧ ((arrivedAll { leg 1 false with sel := [0] }).part 0).fixes = [] ∧ ((arrivedAll { leg 1 false with sel := [0] }).part 0).outgoing = none ∧ ((arrivedAll { leg 1 false with sel := [0] }).part 0).lb.act = false ∧ ((arrivedAll { leg 1 false with sel := [0] }).part 0).ckreq = false)
    ∧ (RowHas 0x8FFFFFFF 0 0 0 0 ∧ ¬ RowHas 0 0 0 0 0)
    ∧ ((3 : Nat) ∈ [1, 3] ∧ (∀ m ∈ [1, 3], 1 ≤ m ∧ m ≤ 3) ∧ (leg 1 false).bt1 ≤ (leg 1 false).bt2 ∧ (leg 1 false).bt2 ≤ (leg 1 false).bt3)
    ∧ (∀ f ∈ ((small { st := .run } (fun q => { q with fixes := [{ grp := 0, leg := 1, course := 0, health := 0, fabric := false, held := true }] })).part 0).fixes, f.grp = 0 → f.held = true)
    ∧ (((small { st := .run } (fun q => { q with legs := [leg 3 true], fixes := [{ grp := 0, leg := 1, course := 0, health := 0, fabric := false }] })).part 0).fixes = [{ grp := 0, leg := 1, course := 0, health := 0, fabric := false }] ∧ (small { st := .run } (fun q => { q with legs := [leg 3 true], fixes := [{ grp := 0, leg := 1, course := 0, health := 0, fabric := false }] })).replaying 0 = false ∧ ((small { st := .run } (fun q => { q with legs := [leg 3 true], fixes := [{ grp := 0, leg := 1, course := 0, health := 0, fabric := false }] })).part 0).leg 1 = some (leg 3 true) ∧ (leg 3 true).crs[0]? = (leg 3 true).crs.head? ∧ (leg 3 true).crs ≠ [])
    ∧ ((base.part 0).runSlot.isSome = true ∧ (base.part 0).awaiting = none)
    ∧ Running (awaitingFix 0 2 false) 0
    ∧ (((awaitingFix 0 2 false).part 0).awaiting = some (1, 9000) ∧ ((awaitingFix 0 2 false).part 0).sentArr = false ∧ ((awaitingFix 0 2 false).part 0).fxType = 0 ∧ ((awaitingFix 0 2 false).part 0).fxChildren = 2 ∧ ((awaitingFix 0 2 false).part 0).fixes = [] ∧ ∀ a ∈ ((awaitingFix 0 2 false).part 0).arrHeld, a.at_ ≤ 10000)
    ∧ (((awaitingFix 0 2 false).part 0).fxChildren ≤ 1 + 1 ∧ 1 + 1 < ((awaitingFix 0 3 false).part 0).fxChildren ∧ 1 + 1 + 1 = ((awaitingFix 0 2 false).part 0).fxtot.toNat)
    ∧ Running (awaitingFix 0 3 false) 0
    ∧ (((awaitingFix 1 1 true).part 0).awaiting = some ((1 : BitVec 16).toNat, 9000) ∧ ((awaitingFix 1 1 true).part 0).sentArr = true ∧ ((awaitingFix 1 1 true).part 0).fxType ≠ 0 ∧ ((awaitingFix 1 1 true).part 0).lb.act = false)
    ∧ Running (awaitingFix 1 1 true) 0 := by
  refine ⟨?_, ?_, ?_, ?_, ?_, ?_, ?_, ?_, ?_, ?_, ?_, ?_, ?_, ?_, ?_, ?_, ?_, ?_⟩ <;> ((try unfold Running); (try unfold RowHas); decide +kernel)

/-- The course of the first row that has the keys, released 8 cycles on at cluster scope, 0x44 without one (R131, R136); the release runs the sequencers from the course (R130); the root counts the partitions (R133). -/
theorem test_fix_release :
    next (exec (.fixComplete 0 0) (arrivedAll (leg 1 false))) (fun t => t.agenda.any (fun v => v.cycle == 10008 && v.instr == .fixRelease 0 0))
    ∧ next (exec (.fixComplete 0 0) (arrivedAll { leg 1 false with sel := [0] })) (fun t => halts t == some 0x44)
    ∧ next (exec (.fixRelease 0 0) (small { st := .run } (fun q => { q with legs := [leg 3 true], fixes := [{ grp := 0, leg := 1, course := 0, health := 0, fabric := false }] }))) (fun t => (t.core 3).ctl.legno == 1 && (t.core 3).ctl.due == some 11000 && (t.core 3).seq.q.pc == 64 && ((t.part 0).slots[(t.part 0).stampSlot]).epoch == 1 && (t.part 0).fixes == [])
    ∧ next (exec (.fixRelease 0 0) (small { st := .run } (fun q => { q with fixes := [{ grp := 0, leg := 1, course := 0, health := 0, fabric := false, held := true }] }))) (fun t => (t.part 0).fixes.length == 1)
    ∧ next (exec (.fixarr (.link 3) 0 1 1 1) (awaitingFix 0 2 false)) (fun t => t.agenda.any (fun v => v.cycle == 10048 && v.instr == .fixRelease 0 56))
    ∧ next (exec (.fixarr (.link 3) 0 1 1 2) (awaitingFix 0 2 false)) (fun t => halts t == some 0x47)
    ∧ next (exec (.fixarr (.link 3) 0 2 1 1) (awaitingFix 0 2 false)) (fun t => halts t == some 0x47)
    ∧ next (exec (.fixarr (.link 3) 0 1 1 1) (awaitingFix 0 3 false)) (fun t => (t.part 0).arrHeld.length == 2)
    ∧ next (exec (.fixrel (.link 3) 0 1 0) (awaitingFix 1 1 true)) (fun t => t.agenda.any (fun v => v.cycle == 10048))
    ∧ next (exec (.fixrel (.link 3) 0 1 0) (awaitingFix 0 1 true)) (fun t => halts t == some 0x47) := by
  refine ⟨?_, ?_, ?_, ?_, ?_, ?_, ?_, ?_, ?_, ?_⟩ <;> (decide +kernel)

/-- A partition that does not halt, and one in each phase of a halt: a row open, a word in flight, records refused and not, PHALT set before and not. -/
theorem test_witness_PartitionHalt :
    (base.part base.curPart).halting = none
    ∧ (((stopping 0 (fun q => { q with ckreq := true })).updCol 1 (fun k => { k with rows := k.rows.set 4 (.open_ 7 9800 9850 none) })).part ((stopping 0 (fun q => { q with ckreq := true })).updCol 1 (fun k => { k with rows := k.rows.set 4 (.open_ 7 9800 9850 none) })).curPart).halting = some { code := 0x12, cycle := 9900, core := 2, eng := 3, pc := 8, phase := 0 }
    ∧ (((stopping 1 id).upd 2 fun k => { k with pipe := { k.pipe with infl := [{ id := 1, eng := .bke, instr := .mulb h0 3, pc := 0, issued := 9900, doneAt := 9990 }] } }).part ((stopping 1 id).upd 2 fun k => { k with pipe := { k.pipe with infl := [{ id := 1, eng := .bke, instr := .mulb h0 3, pc := 0, issued := 9900, doneAt := 9990 }] } }).curPart).halting = some { code := 0x12, cycle := 9900, core := 2, eng := 3, pc := 8, phase := 1 }
    ∧ ((stopping 2 id).part (stopping 2 id).curPart).halting = some { code := 0x12, cycle := 9900, core := 2, eng := 3, pc := 8, phase := 2 }
    ∧ ((stopping 3 id).part (stopping 3 id).curPart).halting = some { code := 0x12, cycle := 9900, core := 2, eng := 3, pc := 8, phase := 3 }
    ∧ (({ stopping 3 id with reqs := [{ id := 5, who := 4, core := 0, part := some 0, kind := .write [], ia := 0, n := 64, dest := .stopRec 0 2 3 }] }).part ({ stopping 3 id with reqs := [{ id := 5, who := 4, core := 0, part := some 0, kind := .write [], ia := 0, n := 64, dest := .stopRec 0 2 3 }] }).curPart).halting = some { code := 0x12, cycle := 9900, core := 2, eng := 3, pc := 8, phase := 3 }
    ∧ ((stopping 3 (fun q => { q with phalt := 0x80000044 })).part (stopping 3 (fun q => { q with phalt := 0x80000044 })).curPart).halting = some { code := 0x12, cycle := 9900, core := 2, eng := 3, pc := 8, phase := 3 }
    ∧ ((((stopping 0 (fun q => { q with ckreq := true })).updCol 1 (fun k => { k with rows := k.rows.set 4 (.open_ 7 9800 9850 none) })).col 1).rows[(4 : Fin 32)] = .open_ 7 9800 9850 none ∧ ((((stopping 0 (fun q => { q with ckreq := true })).updCol 1 (fun k => { k with rows := k.rows.set 4 (.open_ 7 9800 9850 none) })).col 1).rows[(4 : Fin 32)]).at_ ((stopping 0 (fun q => { q with ckreq := true })).updCol 1 (fun k => { k with rows := k.rows.set 4 (.open_ 7 9800 9850 none) })).chron = 1 ∧ ((stopping 0 (fun q => { q with ckreq := true })).updCol 1 (fun k => { k with rows := k.rows.set 4 (.open_ 7 9800 9850 none) })).partOf 1 = some 0)
    ∧ (({ stopping 3 id with reqs := [{ id := 5, who := 4, core := 0, part := some 0, kind := .write [], ia := 0, n := 64, dest := .stopRec 0 2 3 }] }).recordsWait 0 = true ∧ (stopping 3 id).recordsWait (stopping 3 id).curPart = false ∧ ((stopping 3 id).part 0).runSlot = some 0 ∧ ((stopping 3 id).part 0).phalt.getLsbD 31 = false ∧ ((stopping 3 (fun q => { q with phalt := 0x80000044 })).part 0).phalt.getLsbD 31 = true ∧ ((stopping 3 (fun q => { q with phalt := 0x80000044 })).part 0).runSlot = some 0)
    ∧ ((stopping 2 id).part 0).runSlot.isSome = true := by
  refine ⟨?_, ?_, ?_, ?_, ?_, ?_, ?_, ?_, ?_, ?_⟩ <;> (decide +kernel)

/-- The halt line lists the open rows and clears a checkpoint request; a product cut off is flagged; PHALT holds the first fault, and the context ends as FAULT (R149 to R159). -/
theorem test_partition_halt :
    next (exec (.partitionHalt) ((stopping 0 (fun q => { q with ckreq := true })).updCol 1 (fun k => { k with rows := k.rows.set 4 (.open_ 7 9800 9850 none) }))) (fun t => (t.part 0).halting.any (fun h => h.rows == [(1, 4, 7, 9800)]) && !(t.part 0).ckreq && t.agenda.any (fun v => v.cycle == 9941))
    ∧ next (exec (.partitionHalt) ((stopping 1 id).upd 2 fun k => { k with pipe := { k.pipe with infl := [{ id := 1, eng := .bke, instr := .mulb h0 3, pc := 0, issued := 9900, doneAt := 9990 }] } })) (fun t => (t.core 2).bke.mulbf && (t.core 2).pipe.infl == [])
    ∧ next (exec (.partitionHalt) (stopping 4 id)) (fun t => (t.part 0).phalt == 0x80060212 && ((t.part 0).slots[0]).st == .fault && ((t.part 0).slots[0]).code == 0x12)
    ∧ next (exec (.partitionHalt) (stopping 4 (fun q => { q with phalt := 0x80000044 }))) (fun t => (t.part 0).phalt == 0x80000044)
    ∧ next (exec (.partitionHalt) (stopping 2 id)) (fun t => (t.part 0).phalt == 0xC0060212 && halts t == none)
    ∧ next (exec (.partitionHalt) ({ stopping 3 id with reqs := [{ id := 5, who := 4, core := 0, part := some 0, kind := .write [], ia := 0, n := 64, dest := .stopRec 0 2 3 }] })) (fun t => halts t == some 0x12 && t.agenda.any (fun v => v.cycle == 10001)) := by decide +kernel

/-- A group whose core 1 has a bank refreshed at the other rate, pending since before the fix started. -/
def hotFix (d : LegDesc) : State := (arrivedAll d).updCol 1 fun k => { k with hotpend := true, hotAt := 8000 }

/-- A context switched out with its fabric fix awaited, and one in whose place another runs. -/
def awayFix (sent : Bool) : State :=
  small { st := .run } fun q => { q with
    slots := (Vector.replicate 8 {}).set 2 { st := .preempted }
    shadow := some { slot := 2, at_ := 9000, cores := [], sentArr := sent, awaiting := some (1, 8000) }
    fxcfg := 2 ^ 6 }

/-- A bus to repair in a halt's last phase; a row beat delivered and to be written as the skid ends; a bucket change pending; fabric messages for a context
switched out, and a release while the fix is held for a checkpoint. -/
theorem test_witness_FixAndHalt_more :
    (let s := (stopping 4 id).updCol 1 fun k => { k with repair := true }
     (s.part s.curPart).halting = some { code := 0x12, cycle := 9900, core := 2, eng := 3, pc := 8, phase := 4 } ∧ s.recordsWait 0 = false ∧ (s.part 0).runSlot = some 0
       ∧ (s.col 1).repair = true)
    ∧ (let w : Inflight := { id := 1, eng := .axu, instr := .rcon h0 0 0 2 0 4, pc := 0, issued := 9900, doneAt := 9990, beats := [{ key := 64, bytes := [1, 2], write := true, at_ := 9950 }] }
       let s := (stopping 1 id).upd 2 fun k => { k with pipe := { k.pipe with infl := [w] } }
       (s.core 2).pipe.infl.filter (fun w => isRcon w.instr) = [w] ∧ (s.core 3).pipe.infl = [])
    ∧ (((hotFix (leg 1 false)).col 1).hotpend = true ∧ ((hotFix (leg 1 false)).col 1).hotAt < (hotFix (leg 1 false)).fixStart ((hotFix (leg 1 false)).grpCores 0 0)
       ∧ (1 : CoreIx) ∈ (hotFix (leg 1 false)).grpCores 0 0)
    ∧ (((awayFix false).part 0).preSlot.isSome = true ∧ ((awayFix false).part 0).runSlot = none ∧ (((awayFix false).part 0).shadow.bind (·.awaiting)) = some (1, 8000))
    ∧ (((awayFix true).part 0).fxType ≠ 0 ∧ ((awayFix true).part 0).awaiting = none ∧ ((awayFix true).part 0).shadow.any (·.sentArr) = true ∧ ((awayFix true).part 0).lb.act = false)
    ∧ (let s := (awaitingFix 1 1 true).updPart 0 fun q => { q with fixes := [{ grp := 56, leg := 1, course := 0, health := 0, fabric := true, held := true }] }
       (s.part 0).fixes.any (fun f => f.fabric && f.held) = true ∧ (s.part 0).sentArr = true ∧ (s.part 0).awaiting = some (1, 9000)) := by
  refine ⟨?_, ?_, ?_, ?_, ?_, ?_⟩ <;> decide +kernel

/-- The repair of a bus follows the halt (R217); a delivered row beat is written as the skid ends (R151); a period change pending since before the fix started is
made at its completion (R40); what comes for a context switched out is held with it (R133, R160). -/
theorem test_fix_halt_more :
    (((stopping 4 id).updCol 1 fun k => { k with repair := true }).repairs 0).agenda.any (fun v => v.core == 1 && v.instr == .busRepair) = true
    ∧ next (exec (.partitionHalt) ((stopping 1 id).upd 2 fun k => { k with pipe := { k.pipe with
        infl := [{ id := 1, eng := .axu, instr := .rcon h0 0 0 2 0 4, pc := 0, issued := 9900, doneAt := 9990, beats := [{ key := 64, bytes := [1, 2], write := true, at_ := 9950 }] }] } }))
        (fun t => readNat t.memory 64 2 == 0x201)
    ∧ next (exec (.fixComplete 0 0) (hotFix (leg 1 false))) (fun t => (t.col 1).hot && !(t.col 1).hotpend)
    ∧ next (exec (.fixarr (.link 3) 0 1 1 1) (awayFix false)) (fun t => (t.part 0).shadow.any fun h => h.arrHeld.length == 1)
    ∧ next (exec (.fixrel (.link 3) 0 1 0) (awayFix true)) (fun t => (t.part 0).shadow.any fun h => h.relHeld == some (1, 0)) := by
  refine ⟨?_, ?_, ?_, ?_, ?_⟩ <;> decide +kernel

/-! ## Retirement, the access unit and the copy engine -/

/-- A word in flight on core 0 of `small`, complete, with its effect had. -/
def wordOf (eng : Eng) (i : Instr) : Inflight := { id := 1, eng := eng, instr := i, pc := 12, issued := 9900, doneAt := 10000, acted := true }

/-- `small` with words in flight on core 0. -/
def flying (l : List Inflight) : State := (small { st := .run } id).upd 0 fun k => { k with pipe := { k.pipe with infl := l } }

/-- A full FIFO from the BKE to the VEC. -/
def fullTokens (s : State) : State := s.upd 0 fun k => { k with ctl := k.ctl.setOcc (fifoIx 2 3) 15 }

/-- A store into the own scratchpad that is outstanding. -/
def openReq : Req := { id := 7, who := 0, core := 0, part := some 0, kind := .write [], ia := spadIa, n := 8, dest := .none_ }

/-- A job of the address generator of core 0: three tiles, 256 bytes apart. -/
def genJob (i : Instr) : GenJob :=
  { id := 1, instr := i, pc := 4, next := 1, count := 3, base := 0x100, stride := 256, cycle := 9000, snap := { pc := 4, queue := {}, a := Vector.replicate 16 0, n := Vector.replicate 6 {} } }

/-- `small` with the own scratchpad mapped and the address generator at a job. -/
def generating (i : Instr) (f : Axu → Axu) : State :=
  (ranged ownRange (small { st := .run } id)).upd 0 fun k => { k with axu := f { k.axu with gen := [genJob i] } }

/-- `generating` in a fixed leg. -/
def inFixed (s : State) : State :=
  (s.updPart 0 fun q => { q with legs := [leg 1 true] }).upd 0 fun k => { k with ctl := { k.ctl with legno := 1, due := some 11000, tRel := 10000 } }

/-- A slot of the STQ whose data have been sent, of one piece. -/
def stqSlot (slot : Nat) (ia : Nat) (f : StqAddr → StqAddr) : StqAddr :=
  f { slot := slot, pieces := [(0, ia, 128)], va := 0, gen := 9000, word := 1, sent := true, perf := 10000 }

/-- `small` with slots of the STQ. -/
def storing (l : List StqAddr) : State :=
  (small { st := .run } id).upd 0 fun k => { k with axu := { k.axu with stqA := l, stqD := l.map fun _ => (9000, List.replicate 128 0xA5) } }

/-- A VLD that waits in the replay queue of core 0, with a filled head of the LDQ or without. -/
def replayHead (fill : Option Nat) : State :=
  (small { st := .run } id).upd 0 fun k => { k with
    vec := { k.vec with replay := [1], replayLast := 9999 }
    axu := { k.axu with ldq := [{ slot := 0, filled := fill }] }
    pipe := { k.pipe with infl := [{ wordOf .vec (.vld h0 0 false 1 0) with lat := [1, 0, 0, 1, 0, 0, 0, 0, 0], acted := false }] } }

/-- No such word; words that retire, give to a FIFO with room and to a full one, wait for an access, scan, halt with the core quiet and not; one with a write beat due; a late one. -/
theorem test_witness_WordRetirement :
    (∀ w ∈ (base.core 0).pipe.infl, w.id ≠ 1)
    ∧ (((flying [{ wordOf .bke (.mulb h0 3) with pc := 12 }]).core 0).pipe.infl.length = 1 ∧ (((flying [{ wordOf .bke (.mulb h0 3) with pc := 12 }]).core 0).pipe.infl.all fun w => w.id == 1 && w.beats.isEmpty && decide (w.doneAt ≤ (flying [{ wordOf .bke (.mulb h0 3) with pc := 12 }]).chron)) = true)
    ∧ (((flying [{ wordOf .bke (.mulb h0 3) with pc := 12 }]).core 0).pipe.infl.all fun w => !w.late && w.acted && w.waits.isEmpty && !w.give) = true
    ∧ (flying [{ wordOf .bke (.mulb h0 3) with pc := 12 }]).cutHolds 0 (wordOf .bke (.mulb h0 3)) = false
    ∧ (((flying [{ wordOf .bke (.mulb h0 3) with pc := 12, give := true, giveTo := 3 }]).core 0).pipe.infl.length = 1 ∧ (((flying [{ wordOf .bke (.mulb h0 3) with pc := 12, give := true, giveTo := 3 }]).core 0).pipe.infl.all fun w => w.id == 1 && w.beats.isEmpty && decide (w.doneAt ≤ (flying [{ wordOf .bke (.mulb h0 3) with pc := 12, give := true, giveTo := 3 }]).chron)) = true)
    ∧ (((flying [{ wordOf .bke (.mulb h0 3) with pc := 12, give := true, giveTo := 3 }]).core 0).pipe.infl.all fun w => !w.late && w.acted && w.waits.isEmpty && w.give && w.eng == .bke && decide (w.giveTo < 5) && w.giveTo != w.eng.num) = true
    ∧ (((flying [{ wordOf .bke (.mulb h0 3) with pc := 12, give := true, giveTo := 3 }]).core 0).ctl.occ (fifoIx 2 3) < ((flying [{ wordOf .bke (.mulb h0 3) with pc := 12, give := true, giveTo := 3 }]).core 0).ctl.ceil (fifoIx 2 3) ∧ ((fullTokens (flying [{ wordOf .bke (.mulb h0 3) with pc := 12, give := true, giveTo := 3 }])).core 0).ctl.ceil (fifoIx 2 3) ≤ ((fullTokens (flying [{ wordOf .bke (.mulb h0 3) with pc := 12, give := true, giveTo := 3 }])).core 0).ctl.occ (fifoIx 2 3) ∧ (fullTokens (flying [{ wordOf .bke (.mulb h0 3) with pc := 12, give := true, giveTo := 3 }])).partOf 0 = some 0)
    ∧ Running (fullTokens (flying [{ wordOf .bke (.mulb h0 3) with pc := 12, give := true, giveTo := 3 }])) 0
    ∧ ((({ flying [{ wordOf .seq (.st h0 1 0 3 2) with pc := 12, waits := [7] }] with reqs := [openReq] }).core 0).pipe.infl.length = 1 ∧ ((({ flying [{ wordOf .seq (.st h0 1 0 3 2) with pc := 12, waits := [7] }] with reqs := [openReq] }).core 0).pipe.infl.all fun w => w.id == 1 && w.beats.isEmpty && decide (w.doneAt ≤ ({ flying [{ wordOf .seq (.st h0 1 0 3 2) with pc := 12, waits := [7] }] with reqs := [openReq] }).chron)) = true)
    ∧ ((({ flying [{ wordOf .seq (.st h0 1 0 3 2) with pc := 12, waits := [7] }] with reqs := [openReq] }).core 0).pipe.infl.all fun w => w.acted && w.waits == [7] && !w.late) = true
    ∧ (({ flying [{ wordOf .seq (.st h0 1 0 3 2) with pc := 12, waits := [7] }] with reqs := [openReq] } : State).stillOpen 0 7 = true ∧ ({ flying [{ wordOf .seq (.st h0 1 0 3 2) with pc := 12, waits := [7] }] with reqs := [openReq] } : State).fixedLeg 0 = false)
    ∧ (((flying [{ wordOf .seq (.scanr h0 4 5) with pc := 12, acted := false, lat := [0x1000000] }]).core 0).pipe.infl.length = 1 ∧ (((flying [{ wordOf .seq (.scanr h0 4 5) with pc := 12, acted := false, lat := [0x1000000] }]).core 0).pipe.infl.all fun w => w.id == 1 && w.beats.isEmpty && decide (w.doneAt ≤ (flying [{ wordOf .seq (.scanr h0 4 5) with pc := 12, acted := false, lat := [0x1000000] }]).chron)) = true)
    ∧ (((flying [{ wordOf .seq (.scanr h0 4 5) with pc := 12, acted := false, lat := [0x1000000] }]).core 0).pipe.infl.all fun w => !w.acted && w.waits.isEmpty && !w.give && w.instr == .scanr h0 4 5) = true
    ∧ ((((flying [{ wordOf .seq (.halt h0 5) with pc := 12, acted := false }]).upd 0 fun k => { k with seq := { k.seq with haltWait := some (9, false) } }).core 0).pipe.infl.length = 1 ∧ ((((flying [{ wordOf .seq (.halt h0 5) with pc := 12, acted := false }]).upd 0 fun k => { k with seq := { k.seq with haltWait := some (9, false) } }).core 0).pipe.infl.all fun w => w.id == 1 && w.beats.isEmpty && decide (w.doneAt ≤ ((flying [{ wordOf .seq (.halt h0 5) with pc := 12, acted := false }]).upd 0 fun k => { k with seq := { k.seq with haltWait := some (9, false) } }).chron)) = true)
    ∧ ((((flying [{ wordOf .seq (.halt h0 5) with pc := 12, acted := false }]).upd 0 fun k => { k with seq := { k.seq with haltWait := some (9, false) } }).core 0).pipe.infl.all fun w => !w.acted && w.waits.isEmpty && !w.give && w.instr == .halt h0 5) = true
    ∧ ((((flying [{ wordOf .seq (.halt h0 5) with pc := 12, acted := false }]).upd 0 fun k => { k with seq := { k.seq with haltWait := some (9, false) } })).coreQuiet 0 = true ∧ (((flying [{ wordOf .seq (.halt h0 5) with pc := 12, acted := false }]).upd 0 fun k => { k with seq := { k.seq with haltWait := some (9, false) } }).core 0).seq.haltWait.map (·.1) = some 9 ∧ ((flying [{ wordOf .seq (.halt h0 5) with pc := 12, acted := false }]).upd 0 fun k => { k with seq := { k.seq with haltWait := some (9, false) } }).partOf 0 = some 0 ∧ (((flying [{ wordOf .seq (.halt h0 5) with pc := 12, acted := false }]).upd 0 fun k => { k with seq := { k.seq with haltWait := some (9, false) } }).part 0).runSlot = some 0 ∧ (((flying [{ wordOf .seq (.halt h0 5) with pc := 12, acted := false }]).upd 0 fun k => { k with seq := { k.seq with haltWait := some (9, false) } }).part 0).halting = none ∧ ((((flying [{ wordOf .seq (.halt h0 5) with pc := 12, acted := false }]).upd 0 fun k => { k with seq := { k.seq with haltWait := some (9, false) } }).upd 0 fun k => { k with axu := { k.axu with q := { k.axu.q with st := .running } } })).coreQuiet 0 = false)
    ∧ ((1 : CoreIx) ≠ 0 ∧ ((flying [{ wordOf .seq (.halt h0 5) with pc := 12, acted := false }]).upd 0 fun k => { k with seq := { k.seq with haltWait := some (9, false) } }).partOf 1 = some 0 ∧ (((flying [{ wordOf .seq (.halt h0 5) with pc := 12, acted := false }]).upd 0 fun k => { k with seq := { k.seq with haltWait := some (9, false) } }).core 1).seq.halted = none)
    ∧ (∀ x, x ≠ 0 → ((List.finRange 288).foldl (fun s c => if 0 < c.val then s.upd c fun k => { k with seq := { k.seq with halted := some 1 } } else s) ((flying [{ wordOf .seq (.halt h0 5) with pc := 12, acted := false }]).upd 0 fun k => { k with seq := { k.seq with haltWait := some (9, false) } })).partOf x = some 0 → (((List.finRange 288).foldl (fun s c => if 0 < c.val then s.upd c fun k => { k with seq := { k.seq with halted := some 1 } } else s) ((flying [{ wordOf .seq (.halt h0 5) with pc := 12, acted := false }]).upd 0 fun k => { k with seq := { k.seq with haltWait := some (9, false) } })).core x).seq.halted.isSome = true)
    ∧ ((((List.finRange 288).foldl (fun s c => if 0 < c.val then s.upd c fun k => { k with seq := { k.seq with halted := some 1 } } else s) ((flying [{ wordOf .seq (.halt h0 5) with pc := 12, acted := false }]).upd 0 fun k => { k with seq := { k.seq with haltWait := some (9, false) } }))).coreQuiet 0 = true ∧ (((List.finRange 288).foldl (fun s c => if 0 < c.val then s.upd c fun k => { k with seq := { k.seq with halted := some 1 } } else s) ((flying [{ wordOf .seq (.halt h0 5) with pc := 12, acted := false }]).upd 0 fun k => { k with seq := { k.seq with haltWait := some (9, false) } })).core 0).seq.haltWait.map (·.1) = some 9 ∧ (((List.finRange 288).foldl (fun s c => if 0 < c.val then s.upd c fun k => { k with seq := { k.seq with halted := some 1 } } else s) ((flying [{ wordOf .seq (.halt h0 5) with pc := 12, acted := false }]).upd 0 fun k => { k with seq := { k.seq with haltWait := some (9, false) } })).part 0).runSlot = some 0)
    ∧ ((flying [{ wordOf .bke (.zspill h0 0 1 false 0) with doneAt := 10100, beats := [{ at_ := 10000, key := 5, bytes := [7], write := true }] }]).core 0).pipe.infl.length = 1
    ∧ (((flying [{ wordOf .bke (.zspill h0 0 1 false 0) with doneAt := 10100, beats := [{ at_ := 10000, key := 5, bytes := [7], write := true }] }]).core 0).pipe.infl.all fun w => w.eng == .bke && !w.late && w.beats == [{ at_ := 10000, key := 5, bytes := [7], write := true }] && decide (10000 < w.doneAt) && !isRing w.instr) = true
    ∧ (((flying [{ wordOf .bke (.mulb h0 3) with pc := 12, late := true }]).core 0).pipe.infl.length = 1 ∧ (((flying [{ wordOf .bke (.mulb h0 3) with pc := 12, late := true }]).core 0).pipe.infl.all fun w => w.id == 1 && w.beats.isEmpty && decide (w.doneAt ≤ (flying [{ wordOf .bke (.mulb h0 3) with pc := 12, late := true }]).chron)) = true)
    ∧ (((flying [{ wordOf .bke (.mulb h0 3) with pc := 12, late := true }]).core 0).pipe.infl.all fun w => w.late) = true
    ∧ Running (flying [{ wordOf .bke (.mulb h0 3) with pc := 12, late := true }]) 0 := by
  refine ⟨?_, ?_, ?_, ?_, ?_, ?_, ?_, ?_, ?_, ?_, ?_, ?_, ?_, ?_, ?_, ?_, ?_, ?_, ?_, ?_, ?_, ?_, ?_, ?_⟩ <;> ((try unfold Running); decide +kernel)

/-- A word gives at its retirement (R181), 0x42 into a full FIFO (R182); a store waits for its write; SCANR writes at its completion; the last HALT ends the context as DONE with the word of core 0 (R425). -/
theorem test_retire :
    next (exec (.wordRetire 0 1) (flying [{ wordOf .bke (.mulb h0 3) with pc := 12, give := true, giveTo := 3 }])) (fun t => (t.core 0).ctl.occ (fifoIx 2 3) == 1 && (t.core 0).pipe.infl == [])
    ∧ next (exec (.wordRetire 0 1) (fullTokens (flying [{ wordOf .bke (.mulb h0 3) with pc := 12, give := true, giveTo := 3 }]))) (fun t => halts t == some 0x42)
    ∧ next (exec (.wordRetire 0 1) ({ flying [{ wordOf .seq (.st h0 1 0 3 2) with pc := 12, waits := [7] }] with reqs := [openReq] })) (fun t => t.agenda.any (fun v => v.cycle == 10001) && (t.core 0).pipe.infl.length == 1)
    ∧ next (exec (.wordRetire 0 1) (flying [{ wordOf .seq (.scanr h0 4 5) with pc := 12, acted := false, lat := [0x1000000] }])) (fun t => (t.core 0).seq.gpr 4 == 10000)
    ∧ next (exec (.wordRetire 0 1) ((flying [{ wordOf .seq (.halt h0 5) with pc := 12, acted := false }]).upd 0 fun k => { k with seq := { k.seq with haltWait := some (9, false) } })) (fun t => (t.core 0).seq.halted == some 9 && ((t.part 0).slots[0]).st == .run)
    ∧ next (exec (.wordRetire 0 1) ((List.finRange 288).foldl (fun s c => if 0 < c.val then s.upd c fun k => { k with seq := { k.seq with halted := some 1 } } else s) ((flying [{ wordOf .seq (.halt h0 5) with pc := 12, acted := false }]).upd 0 fun k => { k with seq := { k.seq with haltWait := some (9, false) } }))) (fun t => ((t.part 0).slots[0]).st == .done && ((t.part 0).slots[0]).exit == 9)
    ∧ next (exec (.wordRetire 0 1) (((flying [{ wordOf .seq (.halt h0 5) with pc := 12, acted := false }]).upd 0 fun k => { k with seq := { k.seq with haltWait := some (9, false) } }).upd 0 fun k => { k with axu := { k.axu with q := { k.axu.q with st := .running } } })) (fun t => (t.core 0).seq.halted == none)
    ∧ next (exec (.wordRetire 0 1) (flying [{ wordOf .bke (.zspill h0 0 1 false 0) with doneAt := 10100, beats := [{ at_ := 10000, key := 5, bytes := [7], write := true }] }])) (fun t => readNat t.memory 5 1 == 7)
    ∧ next (exec (.wordRetire 0 1) (flying [{ wordOf .bke (.mulb h0 3) with pc := 12, late := true }])) (fun t => halts t == some 0x41) := by
  refine ⟨?_, ?_, ?_, ?_, ?_, ?_, ?_, ?_, ?_⟩ <;> (decide +kernel)

/-- No soft stop and one; nothing to generate, a generator that is busy, a MARK not clear in a free leg and in a fixed one, a load and a store to generate; no slot of the STQ due, one behind another, one in the own scratchpad, one elsewhere; a VLD that waits with its tile and without. -/
theorem test_witness_AccessUnitEvents :
    base.me.axu.soft = none
    ∧ ((small { st := .run } id).upd 0 fun k => { k with axu := { k.axu with soft := some { job := genJob (.lds h0 1 7 0 0), code := 0x30, ia := 0, slot := 2, stq := false } } }).me.axu.soft.isSome = true
    ∧ base.me.axu.gen = []
    ∧ ((generating (.lds h0 1 7 0 0) (fun k => { k with genFree := 10001 })).me.axu.gen.length = 1 ∧ (generating (.lds h0 1 7 0 0) (fun k => { k with genFree := 10001 })).preStopped (generating (.lds h0 1 7 0 0) (fun k => { k with genFree := 10001 })).cur = false)
    ∧ (generating (.lds h0 1 7 0 0) (id)).chron < 10001
    ∧ ((generating (.lds h0 1 7 0 0) (fun k => { k with stqA := [stqSlot 0 0 id], gen := k.gen.map fun j => { j with marks := 1 } })).me.axu.gen.length = 1 ∧ (generating (.lds h0 1 7 0 0) (fun k => { k with stqA := [stqSlot 0 0 id], gen := k.gen.map fun j => { j with marks := 1 } })).preStopped (generating (.lds h0 1 7 0 0) (fun k => { k with stqA := [stqSlot 0 0 id], gen := k.gen.map fun j => { j with marks := 1 } })).cur = false)
    ∧ ((generating (.lds h0 1 7 0 0) (fun k => { k with stqA := [stqSlot 0 0 id], gen := k.gen.map fun j => { j with marks := 1 } })).me.axu.genFree ≤ 10000 ∧ (generating (.lds h0 1 7 0 0) (fun k => { k with stqA := [stqSlot 0 0 id], gen := k.gen.map fun j => { j with marks := 1 } })).marksClear (generating (.lds h0 1 7 0 0) (fun k => { k with stqA := [stqSlot 0 0 id], gen := k.gen.map fun j => { j with marks := 1 } })).cur 1 = false ∧ (generating (.lds h0 1 7 0 0) (fun k => { k with stqA := [stqSlot 0 0 id], gen := k.gen.map fun j => { j with marks := 1 } })).fixedLeg (generating (.lds h0 1 7 0 0) (fun k => { k with stqA := [stqSlot 0 0 id], gen := k.gen.map fun j => { j with marks := 1 } })).cur = false)
    ∧ ((inFixed (generating (.lds h0 1 7 0 0) (fun k => { k with stqA := [stqSlot 0 0 id], gen := k.gen.map fun j => { j with marks := 1 } }))).marksClear 0 1 = false ∧ (inFixed (generating (.lds h0 1 7 0 0) (fun k => { k with stqA := [stqSlot 0 0 id], gen := k.gen.map fun j => { j with marks := 1 } }))).fixedLeg 0 = true ∧ (inFixed (generating (.lds h0 1 7 0 0) (fun k => { k with stqA := [stqSlot 0 0 id], gen := k.gen.map fun j => { j with marks := 1 } }))).partOf 0 = some 0)
    ∧ Running (inFixed (generating (.lds h0 1 7 0 0) (fun k => { k with stqA := [stqSlot 0 0 id], gen := k.gen.map fun j => { j with marks := 1 } }))) 0
    ∧ ((generating (.lds h0 1 7 0 0) (id)).me.axu.gen.length = 1 ∧ (generating (.lds h0 1 7 0 0) (id)).preStopped (generating (.lds h0 1 7 0 0) (id)).cur = false)
    ∧ ((generating (.lds h0 1 7 0 0) (id)).marksClear 0 0 = true ∧ (generating (.lds h0 1 7 0 0) (id)).me.vaLine (0x100 + 1 * 256) false = .at_ 0x200 (spadIa + 0x200) 128 0 ∧ (generating (.lds h0 1 7 0 0) (id)).me.axu.skipL = 0 ∧ (generating (.lds h0 1 7 0 0) (id)).me.axu.ldq = [] ∧ (generating (.lds h0 1 7 0 0) (id)).piecesFault 0 (pieces (spadIa + 0x200) 128) = none ∧ (generating (.lds h0 1 7 0 0) (id)).piecesOk 0 (pieces (spadIa + 0x200) 128) 6 = true)
    ∧ ((generating (.sts h0 1 7 0 0) (id)).me.axu.gen.length = 1 ∧ (generating (.sts h0 1 7 0 0) (id)).preStopped (generating (.sts h0 1 7 0 0) (id)).cur = false)
    ∧ ((generating (.sts h0 1 7 0 0) (id)).marksClear 0 0 = true ∧ (generating (.sts h0 1 7 0 0) (id)).fixedLeg 0 = false ∧ (generating (.sts h0 1 7 0 0) (id)).me.vaLine (0x100 + 1 * 256) true = .at_ 0x200 (spadIa + 0x200) 128 0 ∧ (generating (.sts h0 1 7 0 0) (id)).me.axu.skipS = 0 ∧ (generating (.sts h0 1 7 0 0) (id)).me.axu.stqA = [] ∧ (generating (.sts h0 1 7 0 0) (id)).piecesFault 0 (pieces (spadIa + 0x200) 128) = none)
    ∧ base.me.axu.stqA = []
    ∧ ((storing [stqSlot 3 (spadIa + 0x200) id]).me.axu.stqA.find? (fun x => x.sent && !x.done && !x.reqd && decide (x.perf ≤ (storing [stqSlot 3 (spadIa + 0x200) id]).chron)) = some (stqSlot 3 (spadIa + 0x200) id) ∧ (storing [stqSlot 3 (spadIa + 0x200) id]).me.axu.stqA.length = 1 ∧ isOwnSpad 0 (spadIa + 0x200) = true)
    ∧ ((storing [stqSlot 3 spadIa (fun x => { x with sent := false }), stqSlot 4 spadIa id]).me.axu.stqA.find? (fun x => x.sent && !x.done && !x.reqd && decide (x.perf ≤ (storing [stqSlot 3 spadIa (fun x => { x with sent := false }), stqSlot 4 spadIa id]).chron)) = some (stqSlot 4 spadIa id) ∧ (storing [stqSlot 3 spadIa (fun x => { x with sent := false }), stqSlot 4 spadIa id]).fixedLeg 0 = false ∧ (storing [stqSlot 3 spadIa (fun x => { x with sent := false }), stqSlot 4 spadIa id]).me.axu.stqA.any (fun y => decide (y.slot < 4) && !y.done) = true)
    ∧ ((storing [stqSlot 3 (2 ^ 16) id]).me.axu.stqA.find? (fun x => x.sent && !x.done && !x.reqd && decide (x.perf ≤ (storing [stqSlot 3 (2 ^ 16) id]).chron)) = some (stqSlot 3 (2 ^ 16) id) ∧ isOwnSpad 0 (2 ^ 16) = false)
    ∧ base.me.vec.replay = []
    ∧ ((replayHead none).me.vec.replay = [1] ∧ (replayHead none).me.vec.replayLast < 10000 ∧ (replayHead none).me.axu.headFilled 10000 = false)
    ∧ ((replayHead (some 9000)).me.axu.headFilled 10000 = true ∧ (replayHead (some 9000)).me.axu.ldq.length = 1)
    ∧ ((replayHead (some 9000)).me.pipe.infl.find? (fun x => x.id == 1)).any (fun w => w.instr == .vld h0 0 false 1 0 && !(replayHead (some 9000)).me.ldqPortBusy w 10000) = true := by
  refine ⟨?_, ?_, ?_, ?_, ?_, ?_, ?_, ?_, ?_, ?_, ?_, ?_, ?_, ?_, ?_, ?_, ?_, ?_, ?_, ?_, ?_⟩ <;> ((try unfold Running); decide +kernel)

/-- RESUME generates the faulting access again (R154); the next tile is asked for (R325); a slot is performed (R326); the head of the replay queue leaves (R381). -/
theorem test_access_unit :
    next (exec (.resume) ((small { st := .run } id).upd 0 fun k => { k with axu := { k.axu with soft := some { job := genJob (.lds h0 1 7 0 0), code := 0x30, ia := 0, slot := 2, stq := false } } })) (fun t => t.me.axu.gen.length == 1 && t.me.axu.gate == some (2, false))
    ∧ next (exec (.accessGeneration) (generating (.lds h0 1 7 0 0) (id))) (fun t => t.me.axu.ldqT == 1 && asked t == some (.read, spadIa + 0x200, 128, .ldq 0 0))
    ∧ next (exec (.accessGeneration) (generating (.sts h0 1 7 0 0) (id))) (fun t => t.me.axu.stqAT == 1 && t.reqs == [])
    ∧ next (exec (.accessGeneration) (inFixed (generating (.lds h0 1 7 0 0) (fun k => { k with stqA := [stqSlot 0 0 id], gen := k.gen.map fun j => { j with marks := 1 } })))) (fun t => halts t == some 0x41)
    ∧ next (exec (.stqSlotPerform) (storing [stqSlot 3 (spadIa + 0x200) id])) (fun t => readNat t.memory (spadKey 0 0x200) 2 == 0xA5A5)
    ∧ next (exec (.stqSlotPerform) (storing [stqSlot 3 spadIa (fun x => { x with sent := false }), stqSlot 4 spadIa id])) (fun t => t.agenda.any (fun v => v.cycle == 10001))
    ∧ next (exec (.stqSlotPerform) (storing [stqSlot 3 (2 ^ 16) id])) (fun t => t.reqs.length == 1 && t.memory == [])
    ∧ next (exec (.replayQueueLeave) (replayHead (some 9000))) (fun t => t.me.vec.replay == [] && t.me.axu.ldq == [])
    ∧ next (exec (.replayQueueLeave) (replayHead none)) (fun t => t.me.vec.replay == [1]) := by
  refine ⟨?_, ?_, ?_, ?_, ?_, ?_, ?_, ?_, ?_⟩ <;> (decide +kernel)

/-- A ZADDV of FP32 from memory into the visible bank, one cycle before its last, with lane 0 below the carry guard by one unit. -/
def nearGuard : State :=
  let w : Inflight := { wordOf .bke (.zaddv h0 0 1 false 0 0) with doneAt := 10001, acted := false, lat := [0, 128, 0, 64, 0], issued := 9990 }
  let s := (flying [w]).upd 0 fun k => { k with bke := { k.bke with vis := k.bke.vis.set 0 { value := 2 ^ 638 - 1 } } }
  { s with memory := writeBytes [] 64 [0, 0, 0x80, 0x3F] }

/-- A store of a fixed leg that waits for its write. -/
def lateStore : State :=
  { inFixed (flying [{ wordOf .seq (.st h0 1 0 3 2) with pc := 12, waits := [7], access := true }]) with reqs := [openReq] }

/-- A word of the AXU that gives, with the generator's history empty or not. -/
def axuGives (hist : List (Nat × Bool × Bool)) : State :=
  (flying [{ wordOf .axu (.lds h0 1 7 0 0) with give := true, giveTo := 3 }]).upd 0 fun k => { k with axu := { k.axu with hist := hist } }

/-- WREP at its completion. -/
def wrepDone (f x : Nat) : State := flying [{ wordOf .seq (.wrep h0 1 2) with acted := false, lat := [f, x] }]

/-- A word of the AXU that gives with nothing before it, and one behind an access not generated; a word of the SEQ that gives alone; an access that is late in
a fixed leg; a running value at the guard; a WREP. -/
theorem test_witness_WordRetirement_more :
    ((axuGives []).core 0).axu.hist = []
    ∧ (((axuGives [(1, true, true)]).core 0).axu.hist = [(1, true, true)] ∧ ((axuGives [(1, true, true)]).core 0).pipe.infl.all (fun w => w.id == 1 && w.eng == .axu && w.give) = true)
    ∧ (flying [{ wordOf .seq (.st h0 1 0 3 2) with give := true, giveTo := 1 }]).seqGiveHeld 0 { wordOf .seq (.st h0 1 0 3 2) with give := true, giveTo := 1 } = false
    ∧ (lateStore.stillOpen 0 7 = true ∧ lateStore.fixedLeg 0 = true ∧ (lateStore.core 0).pipe.infl.all (fun w => w.access && w.waits == [7]) = true)
    ∧ Running lateStore 0
    ∧ ((nearGuard.core 0).pipe.infl.map fun w => (nearGuard.bkeGuard 0 w, decide (nearGuard.chron < w.doneAt), w.acted, nearGuard.cutHolds 0 w)) = [(true, true, false, false)]
    ∧ ((wrepDone 2 0).core 0).pipe.infl.map (fun w => (w.lat, w.acted, w.waits, w.give)) = [([2, 0], false, [], false)] := by
  refine ⟨?_, ?_, ?_, ?_, ?_, ?_, ?_⟩ <;> ((try unfold Running); decide +kernel)

/-- A late access word deviates (R137); the guard is raised in the cycle a running value reaches it, and the bank stands (R233); WREP with rd 2 halves the bus
(R427); an AXU word gives only in the order of its queue (R181). -/
theorem test_retire_more :
    next (exec (.wordRetire 0 1) lateStore) (fun t => halts t == some 0x41)
    ∧ next (exec (.wordRetire 0 1) nearGuard) (fun t => halts t == some 0x23 && (t.core 0).bke.vis[0].value == 2 ^ 638 - 1)
    ∧ next (exec (.wordRetire 0 1) (wrepDone 2 0)) (fun t => (t.col 0).half && t.helm.gen == base.helm.gen + 2)
    ∧ next (exec (.wordRetire 0 1) (axuGives [])) (fun t => (t.core 0).ctl.occ (fifoIx 1 3) == 1) := by
  refine ⟨?_, ?_, ?_, ?_⟩ <;> decide +kernel

/-- A soft stop whose record waits in a full fault queue. -/
def stoppedHeld : State :=
  (small { st := .run } fun q => { q with fqheld := [toBytes 64 (2 ^ 8)] }).upd 0 fun k => { k with axu := { k.axu with
    soft := some { job := genJob (.lds h0 1 7 0 0), code := 0x30, ia := 0, slot := 2, stq := false } } }

/-- A VST or a VSUMZ at the head of the replay queue. -/
def replayOther (i : Instr) (lat : List Nat) (data : Nat) : State :=
  (small { st := .run } id).upd 0 fun k => { k with
    vec := { k.vec with replay := [1], replayLast := 9999 }
    axu := { k.axu with stqD := List.replicate data (9000, []) }
    pipe := { k.pipe with infl := [{ wordOf .vec i with lat := lat, acted := false }] } }

/-- A fault's record that is held; heads of the replay queue that wait for room in the STQ and that have it; a VSUMZ whose units are free and taken. -/
theorem test_witness_AccessUnitEvents_more :
    (stoppedHeld.me.axu.soft.isSome = true ∧ stoppedHeld.recordHeld stoppedHeld.cur 1 = true)
    ∧ ((replayOther (.vst h0 0 false 1 0) [1, 0, 0] 64).me.axu.dataRoom = false ∧ (replayOther (.vst h0 0 false 1 0) [1, 0, 0] 64).me.vec.replayLast < 10000)
    ∧ ((replayOther (.vst h0 0 false 1 0) [1, 0, 0] 3).me.axu.dataRoom = true
        ∧ (replayOther (.vst h0 0 false 1 0) [1, 0, 0] 3).me.stqPortBusy { wordOf .vec (.vst h0 0 false 1 0) with lat := [1, 0, 0], acted := false } 10001 = false)
    ∧ (replayOther (.vsumz h0 0 false 0 1 false 0 0) [1, 9990, 9994, 0] 0).me.pipe.sumFree false 10001 10005 false = true
    ∧ ((replayOther (.vsumz h0 0 false 0 1 false 0 0) [1, 9990, 9994, 0] 0).upd 0 fun k => { k with pipe := { k.pipe with busy := [⟨bExact, 9999, 10003⟩] } }).me.pipe.sumFree false 10001 10005 false = false := by
  refine ⟨?_, ?_, ?_, ?_, ?_⟩ <;> decide +kernel

/-- RESUME waits for the record (R110); a VST and a VSUMZ leave the replay queue once there is room (R381). -/
theorem test_access_unit_more :
    next (exec (.resume) stoppedHeld) (fun t => t.me.axu.soft.isSome && t.agenda.any fun v => v.cycle == 10001)
    ∧ next (exec (.replayQueueLeave) (replayOther (.vst h0 0 false 1 0) [1, 0, 0] 64)) (fun t => t.me.vec.replay == [1])
    ∧ next (exec (.replayQueueLeave) (replayOther (.vst h0 0 false 1 0) [1, 0, 0] 3)) (fun t => t.me.vec.replay == [])
    ∧ next (exec (.replayQueueLeave) (replayOther (.vsumz h0 0 false 0 1 false 0 0) [1, 9990, 9994, 0] 0)) (fun t => t.me.vec.replay == []) := by
  refine ⟨?_, ?_, ?_, ?_⟩ <;> decide +kernel

/-- A command block of 128 bytes from its fields: SRC, DST, AUX, flag bits, extents, value (R408). -/
def block (src dst aux flags : Nat) (ext : List Nat) (value : Nat) : List Byte :=
  toBytes 8 (src + 2 ^ 16 * dst + 2 ^ 32 * aux + flags) ++ toBytes 8 0 ++ toBytes 48 0 ++ ((ext ++ List.replicate (6 - ext.length) 1).flatMap (toBytes 4))
    ++ toBytes 8 value ++ toBytes 32 0

/-- A tensor of 96 bytes in the own scratchpad. -/
def cpyTensor : BitVec 512 := entry 1 0 7 0 0 (spadIa + 0x400) [(96, 1)]

/-- What CPYF latched: gd is g5, no record. -/
def cmdIn (bs : List Byte) : CmdIn :=
  { op := 0x33, d := 5, scope := 0, acq := false, rel := false, recVa := 0, recIa := 0, recErr := 0, from_ := 0, to_ := 1, deps := [], pc := 8, block := bs }

/-- `small` with the tensor in the handle cache and a block that has arrived. -/
def entering (bs : List Byte) : State :=
  { (small { st := .run } id).upd 0 fun k => { k with hcUnpinned := [(9, cpyTensor)] } with
    reqs := [{ id := 3, who := 0, core := 0, part := some 0, kind := .read, ia := 0, n := 128, dest := .cmd (cmdIn []), done := true, result := bs }] }

/-- `small` with commands in the copy engine. -/
def copying (l : List Cmd) : State :=
  (small { st := .run } id).upd 0 fun k => { k with cpe := { k.cpe with cmds := l, next := 2, poll := some 10000 } }

/-- FILL of two bytes with 0x5A. -/
def fillCmd : Cmd :=
  { in_ := cmdIn (block 0xFFFF 9 0xFFFF 0 [2] 0x5A), cmdid := 1, op := 0x33, ents := [(0xFFFF, 0), (9, cpyTensor), (0xFFFF, 0)], nsect := 1, stop := 1 }

/-- `copying` with follow-on words. -/
def following (w : BitVec 32) (t : Nat) (r : List (BitVec 32 × Nat)) : State :=
  (copying []).upd 0 fun k => { k with cpe := { k.cpe with follow := (w, t) :: r } }

/-- No such command; a block that enters and one whose fields are refused; no attempt due, a sector that starts in a fixed leg; no such sector, a fill of two bytes at its completion cycle; a command with all sectors written, one whose record is to be written; follow-on words before their cycle, BCLR, and an unassigned one. -/
theorem test_witness_CopyEngineEvents :
    base.req 3 = none
    ∧ ((entering (block 0xFFFF 9 0xFFFF 0 [2] 0x5A)).req 3 ≠ none ∧ (((entering (block 0xFFFF 9 0xFFFF 0 [2] 0x5A)).req 3).map fun r => r.dest) = some (.cmd (cmdIn [])) ∧ (cmdIn []).op ≠ 0x35 ∧ (cmdIn []).isRec = false ∧ (entering (block 0xFFFF 9 0xFFFF 0 [2] 0x5A)).fixedLeg 0 = false ∧ blockBad 0x33 (block 0xFFFF 9 0xFFFF 0 [2] 0x5A) = false ∧ (match ((entering (block 0xFFFF 9 0xFFFF 0 [2] 0x5A)).dropReq 3).cpeCheck 0 0x33 (block 0xFFFF 9 0xFFFF 0 [2] 0x5A) with | .ok x => x.1.length == 3 | _ => false) = true)
    ∧ ((((entering (block 0 9 0xFFFF 0 [2] 0x5A)).req 3).map fun r => r.dest) = some (.cmd (cmdIn [])) ∧ blockBad 0x33 (block 0 9 0xFFFF 0 [2] 0x5A) = true ∧ (entering (block 0 9 0xFFFF 0 [2] 0x5A)).partOf 0 = some 0 ∧ (((entering (block 0 9 0xFFFF 0 [2] 0x5A)).req 3).map fun r => r.entry 10000) = some 10000)
    ∧ Running (entering (block 0 9 0xFFFF 0 [2] 0x5A)) 0
    ∧ base.me.cpe.poll ≠ some base.chron
    ∧ ((inFixed (copying [fillCmd])).me.cpe.poll = some 10000 ∧ (inFixed (copying [fillCmd])).preStopped 0 = false ∧ (inFixed (copying [fillCmd])).me.cpe.head = some fillCmd ∧ fillCmd.nextSector = some 0 ∧ (inFixed (copying [fillCmd])).cpeMay 0 = true ∧ fillCmd.hold = false ∧ fillCmd.active = [] ∧ (inFixed (copying [fillCmd])).me.cpe.inFlight < 64 ∧ (inFixed (copying [fillCmd])).me.cpe.free ≤ 10000 ∧ fillCmd.in_.acq = false ∧ blkTake fillCmd.in_.block = false ∧ (inFixed (copying [fillCmd])).fixedLeg 0 = true)
    ∧ (inFixed (copying [fillCmd])).me.pipe.free (fillCmd.holds 0 0 10000 (10000 + fillCmd.beats 0 + fillCmd.reach 0 - 1)) = true
    ∧ (base.core 0).cpe.cmds = []
    ∧ ((copying [{ fillCmd with active := [(0, 10000)], next := 1 }]).cmd 0 (1 : BitVec 16).toNat = some { fillCmd with active := [(0, 10000)], next := 1 } ∧ (copying [{ fillCmd with active := [(0, 10000)], next := 1 }]).partOf 0 = some 0 ∧ ((copying [{ fillCmd with active := [(0, 10000)], next := 1 }]).part 0).halting = none ∧ ((copying [{ fillCmd with active := [(0, 10000)], next := 1 }]).core 0).killed = false ∧ fillCmd.dst.w ≤ 64)
    ∧ (copying [{ fillCmd with active := [(0, 10000)], next := 1 }]).locateAll 0 0 true (((fillCmd.put (fillCmd.elems 0) [0x5A, 0x5A] []).map fun o => cutAcc o.acc).flatten) = .ok (List.zipWith (fun (a : Acc) k => (a, Loc.key k)) (((fillCmd.put (fillCmd.elems 0) [0x5A, 0x5A] []).map fun o => cutAcc o.acc).flatten) [spadKey 0 0x400, spadKey 0 0x401])
    ∧ ((copying [{ fillCmd with next := 1, written := [0] }]).cmd 0 (1 : BitVec 16).toNat = some { fillCmd with next := 1, written := [0] } ∧ (copying [{ fillCmd with next := 1, written := [0] }]).cpeMay 0 = true ∧ ({ fillCmd with next := 1, written := [0] } : Cmd).nextSector = none ∧ fillCmd.in_.rel = false ∧ fillCmd.in_.op ≠ 0x34 ∧ fillCmd.faulted = [])
    ∧ (((copying [{ fillCmd with next := 1, written := [0], stage := 2, in_ := { fillCmd.in_ with recVa := 0x40, recIa := spadIa + 0x40, block := block 0xFFFF 9 0xFFFF (3 * 2 ^ 57) [2] 0x5A } }]).cmd 0 (1 : BitVec 16).toNat).any (fun x => decide (2 ≤ x.stage) && x.in_.recErr == 0 && x.faulted.isEmpty && decide (x.in_.to_ < 4) && blkGive x.in_.block && blkFollow x.in_.block) = true ∧ (copying [{ fillCmd with next := 1, written := [0], stage := 2, in_ := { fillCmd.in_ with recVa := 0x40, recIa := spadIa + 0x40, block := block 0xFFFF 9 0xFFFF (3 * 2 ^ 57) [2] 0x5A } }]).locate 0 0 true { h := 0xFFFF, sl := false, a := spadIa + 0x40, n := 64 } = .ok (.key (spadKey 0 0x40)) ∧ ((copying [{ fillCmd with next := 1, written := [0], stage := 2, in_ := { fillCmd.in_ with recVa := 0x40, recIa := spadIa + 0x40, block := block 0xFFFF 9 0xFFFF (3 * 2 ^ 57) [2] 0x5A } }]).core 0).ctl.giveOk 4 1 = true ∧ (copying [{ fillCmd with next := 1, written := [0], stage := 2, in_ := { fillCmd.in_ with recVa := 0x40, recIa := spadIa + 0x40, block := block 0xFFFF 9 0xFFFF (3 * 2 ^ 57) [2] 0x5A } }]).cpeMay 0 = true)
    ∧ base.me.cpe.follow = []
    ∧ (following 5 10001 []).chron < 10001
    ∧ (decode .bke (0xA00000 : BitVec 32).toNat = .ok (.bclr h0) ∧ (following 0xA00000 10000 [(5, 10000)]).preStopped 0 = false ∧ (following 0xA00000 10000 [(5, 10000)]).cpeMay 0 = true ∧ (following 0xA00000 10000 [(5, 10000)]).me.pipe.until_ bAdders 10000 = false)
    ∧ (decode .bke (0x00200005 : BitVec 32).toNat = .ok (.idle h0 5) ∧ (following 0x00200005 10000 []).preStopped 0 = false ∧ (following 0x00200005 10000 []).cpeMay 0 = true)
    ∧ (decode .bke (0x02000000 : BitVec 32).toNat).toOption.any isLoopWord = true
    ∧ ((match decode .bke (0x1 : BitVec 32).toNat with | .error _ => true | _ => false) = true ∧ (hdrOf 0x1).t = false ∧ (following 0x1 10000 []).partOf 0 = some 0)
    ∧ Running (following 0x1 10000 []) 0 := by
  refine ⟨?_, ?_, ?_, ?_, ?_, ?_, ?_, ?_, ?_, ?_, ?_, ?_, ?_, ?_, ?_, ?_, ?_, ?_, ?_⟩ <;> ((try unfold Running); decide +kernel)

/-- A command enters as CMDID 1 into g5 (R407), 0x15 where its block is bad (R408); T = 1 and X = 24 in the own scratchpad (R412); the fill writes (R416); the record, the give and the follow-on word (R413); BCLR and a reserved word follow on (R415). -/
theorem test_copy_engine :
    next (exec (.commandEntry 0 3) (entering (block 0xFFFF 9 0xFFFF 0 [2] 0x5A))) (fun t => (t.core 0).seq.gpr 5 == 1 && (t.core 0).cpe.cmds.length == 1)
    ∧ next (exec (.commandEntry 0 3) (entering (block 0 9 0xFFFF 0 [2] 0x5A))) (fun t => halts t == some 0x15)
    ∧ next (exec (.sectorStart) (inFixed (copying [fillCmd]))) (fun t => t.agenda.any (fun v => v.cycle == 10024 && v.instr == .sectorDone 0 1 0))
    ∧ next (exec (.sectorDone 0 1 0) (copying [{ fillCmd with active := [(0, 10000)], next := 1 }])) (fun t => readNat t.memory (spadKey 0 0x400) 3 == 0x5A5A && (t.core 0).cpe.cmds.all (fun x => x.written == [0]))
    ∧ next (exec (.commandComplete 0 1) (copying [{ fillCmd with next := 1, written := [0] }])) (fun t => (t.core 0).cpe.cmds.all (fun x => x.stage == 1 && x.done))
    ∧ next (exec (.commandComplete 0 1) (copying [{ fillCmd with next := 1, written := [0], stage := 2, in_ := { fillCmd.in_ with recVa := 0x40, recIa := spadIa + 0x40, block := block 0xFFFF 9 0xFFFF (3 * 2 ^ 57) [2] 0x5A } }])) (fun t => readNat t.memory (spadKey 0 0x40) 4 == 0x330001 && (t.core 0).cpe.cmds == [] && (t.core 0).ctl.occ (fifoIx 4 1) == 1 && (t.core 0).cpe.follow == [(0, 10001)])
    ∧ next (exec (.followOnIssue) (following 0xA00000 10000 [(5, 10000)])) (fun t => t.me.cpe.follow == [(5, 10000)] && t.me.bke.blive == false)
    ∧ next (exec (.followOnIssue) (following 0x1 10000 [])) (fun t => halts t == some 1)
    ∧ next (exec (.followOnIssue) (following 0x02000000 10000 [])) (fun t => halts t == some 1)
    ∧ next (exec (.followOnIssue) (following 0x00200005 10000 [])) (fun t => t.me.bke.q.notBefore == 10006 && t.me.cpe.follow == []) := by
  refine ⟨?_, ?_, ?_, ?_, ?_, ?_, ?_, ?_, ?_, ?_⟩ <;> (decide +kernel)

/-- A bad block whose entry cycle is still to come. -/
def enteringSoon : State :=
  { entering (block 0 9 0xFFFF 0 [2] 0x5A) with
    reqs := [{ id := 3, who := 0, core := 0, part := some 0, kind := .read, ia := spadIa, n := 128, dest := .cmd (cmdIn []), issued := 10000, own := true, done := true, result := block 0 9 0xFFFF 0 [2] 0x5A }] }

/-- A command whose sectors are written, waiting for an access, and one whose record is to be sent. -/
def recording (waits : List Nat) : Cmd :=
  { fillCmd with next := 1, written := [0], stage := 1, waits := waits, in_ := { fillCmd.in_ with recVa := 0x40, recIa := spadIa + 0x40 } }

/-- A block that has not entered; a release that waits; a record on its way. -/
theorem test_witness_CopyEngineEvents_more :
    ((enteringSoon.req 3).map fun r => (decide (enteringSoon.chron < r.entry enteringSoon.chron), enteringSoon.mate r)) = some (true, none)
    ∧ ({ copying [recording [7]] with reqs := [openReq] } : State).unperformed 7 = true
    ∧ ((copying [recording []]).cmd 0 (1 : BitVec 16).toNat = some (recording []) ∧ ((copying [recording []]).part 0).recordHeld 0 4 = false ∧ (recording []).in_.recVa ≠ 0
      ∧ ((inFixed (copying [recording []])).core 0).pipe.free (cpeHolds 0 [{ h := 0xFFFF, sl := false, a := spadIa + 0x40, n := 64 }] 10000 10024) = true) := by
  refine ⟨?_, ?_, ?_⟩ <;> decide +kernel

/-- A block is looked at in its entry cycle (R412); a release waits for the accesses before it (R258); the record goes after them (R413). -/
theorem test_copy_engine_more :
    next (exec (.commandEntry 0 3) enteringSoon) (fun t => halts t == none && t.agenda.length == 1 && t.reqs.length == 1)
    ∧ next (exec (.commandComplete 0 1) ({ copying [recording [7]] with reqs := [openReq] })) (fun t => t.agenda.any (fun v => v.cycle == 10001) && (t.core 0).cpe.cmds.all (fun x => x.stage == 1))
    ∧ next (exec (.commandComplete 0 1) (inFixed (copying [recording []]))) (fun t => t.agenda.any (fun v => v.cycle == 10024) && (t.core 0).cpe.cmds.all (fun x => x.stage == 2) && (t.core 0).pipe.claims.any (fun y => y.cpe && y.lo == 10000 && y.hi == 10024)) := by
  refine ⟨?_, ?_, ?_⟩ <;> decide +kernel

end Sys2Proof.Tests
end

/-! # Memory stays in canonical form

Three layers. The operations that leave memory as it is (`State.f_memory`); the operations that write bytes of it or drop entries, which keep
`Memory.wf` (`State.f_wf`); and the words and events, whose next state, where they have one, keeps it too (`execX_canonical`). A step is one
of these. -/

namespace Sys2Proof.Machine

/-! ## Conditionals and folds over states -/

@[simp] theorem State.memory_ite (c : Prop) [Decidable c] (s t : State) : (if c then s else t).memory = if c then s.memory else t.memory :=
  apply_ite State.memory c s t

@[simp] theorem State.memory_dite (c : Prop) [Decidable c] (s : c → State) (t : ¬ c → State) :
    (dite c s t).memory = dite c (fun h => (s h).memory) (fun h => (t h).memory) :=
  apply_dite State.memory c s t

/-- A fold whose every step keeps the memory of the state it carries keeps it. -/
theorem foldl_memory_of {α β : Type} (g : β → State) {f : β → α → β} (hf : ∀ b a, (g (f b a)).memory = (g b).memory) (l : List α) (b : β) :
    (g (l.foldl f b)).memory = (g b).memory := by
  induction l generalizing b with
  | nil => rfl
  | cons a r ih => exact (ih (f b a)).trans (hf b a)

@[simp] theorem foldl_memory {α : Type} {f : State → α → State} (hf : ∀ s a, (f s a).memory = s.memory) (l : List α) (s : State) :
    (l.foldl f s).memory = s.memory :=
  foldl_memory_of id hf l s

/-! ## Operations that leave memory as it is

One lemma per operation, in the order and under the names of the files of the model. An operation that answers an option or a sum has its
lemma as an implication, from the answer to the state in it. -/

/-! ### Machine/Ops -/

@[simp] theorem State.pfInt_memory (s : State) (v : Fin 8) : (s.pfInt v).memory = s.memory := by simp [State.pfInt]

@[simp] theorem State.vfInt_memory (s : State) (p : PartIx) (v : Fin 2) : (s.vfInt p v).memory = s.memory := by simp [State.vfInt]

@[simp] theorem State.mailEvent_memory (s : State) (p : PartIx) : (s.mailEvent p).memory = s.memory := by simp [State.mailEvent]

@[simp] theorem State.slotTo_memory (s : State) (p : PartIx) (j : Fin 8) (st : CtxState) : (s.slotTo p j st).memory = s.memory := by
  simp [State.slotTo]

@[simp] theorem State.offer_memory (s : State) (l : LinkIx) (t : OutTlp) : (s.offer l t).1.memory = s.memory := by
  unfold State.offer; dsimp only; split <;> simp

@[simp] theorem State.originateStop_memory (s : State) (p : PartIx) (code : Nat) : (s.originateStop p code).memory = s.memory := by
  unfold State.originateStop; dsimp only; (repeat' split) <;> simp

@[simp] theorem State.kickHelm_memory (s : State) (p : PartIx) : (s.kickHelm p).memory = s.memory := by
  unfold State.kickHelm; split <;> simp

@[simp] theorem State.hotCheck_memory (s : State) (c : CoreIx) : (s.hotCheck c).memory = s.memory := by simp [State.hotCheck]

@[simp] theorem State.hotCheckAll_memory (s : State) : (s.hotCheckAll).memory = s.memory := by simp [State.hotCheckAll]

@[simp] theorem State.keyPut_memory (s : State) (j : Fin 8) (dw v : Nat) : (s.keyPut j dw v).memory = s.memory := by simp [State.keyPut]

@[simp] theorem State.keyFlush_memory (s : State) (j : Fin 8) : (s.keyFlush j).memory = s.memory := by simp [State.keyFlush]

@[simp] theorem State.unname_memory (s : State) (p : PartIx) (j : Fin 8) : (s.unname p j).memory = s.memory := by
  unfold State.unname; split <;> simp

@[simp] theorem State.endSlot_memory (s : State) (p : PartIx) (j : Fin 8) (st : CtxState) (code : Nat) :
    (s.endSlot p j st code).memory = s.memory := by
  simp [State.endSlot]

@[simp] theorem State.storedFault_memory (s : State) (p : PartIx) (code : Nat) : (s.storedFault p code).memory = s.memory := by
  unfold State.storedFault; split <;> simp

@[simp] theorem State.hardFault_memory (s : State) (p : PartIx) (h : Halting) (told : Bool) : (s.hardFault p h told).memory = s.memory := by
  unfold State.hardFault; dsimp only; (repeat' split) <;> simp

@[simp] theorem State.coreFault_memory (s : State) (c : CoreIx) (e : Nat) (code : Nat) (pc : Int) (ia : Nat) (handle : Nat) (beat : Nat)
    (nests : Option (Vector Nest 6 × Nat)) :
    (s.coreFault c e code pc ia handle beat nests).memory = s.memory := by
  unfold State.coreFault; split <;> simp

@[simp] theorem State.partFault_memory (s : State) (p : PartIx) (code : Nat) : (s.partFault p code).memory = s.memory := by simp [State.partFault]

@[simp] theorem State.stash_memory (s : State) (c : CoreIx) (i : Instr) : (s.stash c i).memory = s.memory := by
  unfold State.stash; split <;> simp

@[simp] theorem State.give_memory (s : State) (c : CoreIx) (p q : Nat) (pc : Int) : (s.give c p q pc).memory = s.memory := by simp [State.give]

@[simp] theorem State.waitOr41_memory (s : State) (c : CoreIx) (e : Eng) : (s.waitOr41 c e).memory = s.memory := by simp [State.waitOr41]

@[simp] theorem State.giveAt_memory (s : State) (c : CoreIx) (e : Eng) (i : Instr) (pc : Int) (lat : Nat) :
    (s.giveAt c e i pc lat).memory = s.memory := by simp [State.giveAt]

@[simp] theorem State.deviateAt_memory (s : State) (c : CoreIx) (e : Eng) (i : Instr) (pc : Int) (t : Nat) (handle : Nat)
    (nests : Option (Vector Nest 6 × Nat)) :
    (s.deviateAt c e i pc t handle nests).memory = s.memory := by simp [State.deviateAt]

@[simp] theorem State.lateOr41_memory {s s2 : State} (h : s2.memory = s.memory) (c : CoreIx) (e : Eng) (i : Instr) (pc : Int) (t : Nat) :
    (s.lateOr41 s2 c e i pc t).memory = s.memory := by
  unfold State.lateOr41; split <;> simp [h]

@[simp] theorem State.fillStart_memory (s : State) (c : CoreIx) (e : Nat) (h : Nat) (pc : Int) : (s.fillStart c e h pc).memory = s.memory := by
  simp [State.fillStart]

@[simp] theorem State.waitOrKeep_memory {s s2 : State} (h : s2.memory = s.memory) (c : CoreIx) (e : Eng) (pc : Int) :
    (s.waitOrKeep s2 c e pc).memory = s.memory := by
  unfold State.waitOrKeep; split <;> simp [h]

@[simp] theorem State.seqTaken_memory (s : State) (c : CoreIx) (t : Bool) : (s.seqTaken c t).memory = s.memory := by simp [State.seqTaken]

@[simp] theorem State.noteAxu_memory (s : State) (c : CoreIx) (took gave : Bool) : (s.noteAxu c took gave).memory = s.memory := by
  simp [State.noteAxu]

@[simp] theorem State.countStat_memory (s : State) (c : CoreIx) (i : Fin 6) (n : Nat) : (s.countStat c i n).memory = s.memory := by
  unfold State.countStat
  dsimp only
  (repeat' split) <;> simp

@[simp] theorem State.countStats_memory (s : State) (c : CoreIx) (ns : List Nat) : (s.countStats c ns).memory = s.memory := by simp [State.countStats]

@[simp] theorem State.clash_memory (s : State) (c : CoreIx) (e : Eng) (i : Instr) (pc : Int) (cs : List Claim) (handle : Nat)
    (nests : Option (Vector Nest 6 × Nat)) :
    (s.clash c e i pc cs handle nests).memory = s.memory := by
  unfold State.clash; (repeat' split) <;> simp

/-! ### Machine/Logbook -/

@[simp] theorem State.consumeRecord_memory (s : State) (p : PartIx) (r : LogRec) : (s.consumeRecord p r).memory = s.memory := by
  simp [State.consumeRecord]

theorem State.replayRead_memory {s t : State} {p : PartIx} {kind eng core ia : Nat} {bs : List Byte}
    (h : s.replayRead p kind eng core ia = .ok (bs, t)) : t.memory = s.memory := by
  unfold State.replayRead at h
  split at h
  · cases h
  · split at h
    · cases h; simp
    · cases h

/-! ### Machine/Access -/

@[simp] theorem State.migPump_memory (s : State) : (s.migPump).memory = s.memory := by
  unfold State.migPump; dsimp only; (repeat' split) <;> simp

@[simp] theorem State.queuePromotion_memory (s : State) (p : PartIx) (x : Nat × Bool) : (s.queuePromotion p x).memory = s.memory := by
  simp [State.queuePromotion]

@[simp] theorem State.promote_memory (s : State) (p : PartIx) (pr : Option (Nat × Bool)) : (s.promote p pr).memory = s.memory := by
  cases pr <;> simp [State.promote]

@[simp] theorem State.setReq_memory (s : State) (r : Req) : (s.setReq r).memory = s.memory := by simp [State.setReq]

@[simp] theorem State.dropReq_memory (s : State) (id : Nat) : (s.dropReq id).memory = s.memory := by simp [State.dropReq]

@[simp] theorem State.addReq_memory (s : State) (r : Req) : (s.addReq r).2.memory = s.memory := by simp [State.addReq]

@[simp] theorem State.noteSent_memory (s : State) (c : CoreIx) (x : SentWrite) : (s.noteSent c x).memory = s.memory := by simp [State.noteSent]

@[simp] theorem State.replayReq_memory (s : State) (r : Req) (p : PartIx) (kind : Nat) : (s.replayReq r p kind).memory = s.memory := by
  unfold State.replayReq
  split
  · simp
  · rename_i h; simp [State.replayRead_memory h]

@[simp] theorem State.atsAsk_memory (s : State) (p : PartIx) (addr : Nat) : (s.atsAsk p addr).memory = s.memory := by simp [State.atsAsk]

@[simp] theorem State.atsFill_memory (s : State) (id : Nat) (ok : Bool) (bs : List Byte) : (s.atsFill id ok bs).memory = s.memory := by
  -- Through the equation lemma of `unfold` the kernel would count `atsSize` down.
  delta State.atsFill
  split <;> rfl

@[simp] theorem State.sendHost_memory (s : State) (r : Req) (p : PartIx) (addr : Nat) : (s.sendHost r p addr).memory = s.memory := by
  unfold State.sendHost; dsimp only; (repeat' split) <;> simp

@[simp] theorem State.postFor_memory (s : State) (p : PartIx) (addr : Nat) (bs : List Byte) : (s.postFor p addr bs).memory = s.memory := by
  simp [State.postFor]

@[simp] theorem State.offerAll_memory (s : State) (l : LinkIx) (t : OutTlp) (ps : List (Nat × Nat × Nat)) :
    (s.offerAll l t ps).memory = s.memory := by
  simp [State.offerAll]

@[simp] theorem State.sendPeer_memory (s : State) (r : Req) (p : PartIx) : (s.sendPeer r p).memory = s.memory := by
  unfold State.sendPeer; (repeat' split) <;> simp

theorem State.handle_memory {s t : State} {c : CoreIx} {h : Nat} {e : BitVec 512} (hh : s.handle c h = .hit e t) :
    t.memory = s.memory := by
  unfold State.handle at hh
  split at hh
  · cases hh; simp
  · split at hh
    · cases hh
    · split at hh
      · cases hh
      · split at hh
        · cases hh
        · split at hh
          · split at hh
            · cases hh
            · obtain ⟨-, rfl⟩ := Lookup.hit.inj hh; simp
          · cases hh
          · cases hh
          · cases hh

/-! ### Machine/Rows -/

@[simp] theorem State.surveyChange_memory (s : State) (int : Bool) : (s.surveyChange int).memory = s.memory := by simp [State.surveyChange]

@[simp] theorem State.activate_memory (s : State) (c : CoreIx) (b : Fin 32) (row : BitVec 11) (t : Nat) :
    (s.activate c b row t).memory = s.memory := by
  simp [State.activate]

@[simp] theorem State.rowPre_memory (s : State) (c : CoreIx) (b : Fin 32) (t : Nat) : (s.rowPre c b t).memory = s.memory := by
  unfold State.rowPre; split <;> simp

@[simp] theorem State.closeRows_memory (s : State) (c : CoreIx) (bs : List (Fin 32)) (t : Nat) : (s.closeRows c bs t).memory = s.memory :=
  foldl_memory (fun s b => by split <;> simp) bs s

@[simp] theorem State.rwinApply_memory (s : State) (c : CoreIx) (w : Fin 4) (hi : Bool) (v : Nat) : (s.rwinApply c w hi v).memory = s.memory := by
  simp [State.rwinApply]

/-! ### Machine/SeqMem -/

@[simp] theorem State.flushPort_memory (s : State) (c : CoreIx) (who : Nat) (pc : Int) (x : SentWrite) :
    (s.flushPort c who pc x).2.memory = s.memory := by simp [State.flushPort]

@[simp] theorem State.flushPorts_memory (s : State) (c : CoreIx) (who sc : Nat) (pc : Int) : (s.flushPorts c who sc pc).1.memory = s.memory := by
  unfold State.flushPorts
  refine foldl_memory_of Prod.fst (fun acc x => ?_) _ _
  split
  · split <;> simp
  · simp

@[simp] theorem State.seqFill_memory (s : State) (c : CoreIx) (r : Req) : (s.seqFill c r).memory = s.memory := by
  unfold State.seqFill; (repeat' split) <;> simp

@[simp] theorem State.dropMate_memory (s : State) (c : CoreIx) (r : Req) : (s.dropMate c r).memory = s.memory := by
  unfold State.dropMate; split <;> simp

/-! ### Machine/Sys -/

@[simp] theorem State.wrepDone_memory (s : State) (c : CoreIx) (op wire : Nat) : (s.wrepDone c op wire).memory = s.memory := by
  unfold State.wrepDone; dsimp only; (repeat' split) <;> simp

/-! ### Machine/Stops -/

@[simp] theorem State.norec_memory (s : State) (p : PartIx) : (s.norec p).memory = s.memory := by simp [State.norec]

/-! ### Machine/Axu -/

theorem State.useHandle_memory {s t : State} {c : CoreIx} {hd : BitVec 16} {nl : BitVec 3} {x : BitVec 2} {types : List Nat} {right : HRight}
    {n : Vector Nest 6} {lat : List Nat} (h : s.useHandle c hd nl x types right n = .ready lat t) : t.memory = s.memory := by
  unfold State.useHandle at h
  split at h
  · cases h
  · cases h
  · cases h
  · rename_i hh
    split at h
    · cases h
    · split at h
      · cases h
      · split at h
        · cases h
        · split at h
          · cases h
          · cases h; exact State.handle_memory hh

@[simp] theorem State.axuClose_memory (s : State) (c : CoreIx) (id : Nat) : (s.axuClose c id).memory = s.memory := by
  unfold State.axuClose; (repeat' split) <;> simp

@[simp] theorem State.axuFault_memory (s : State) (c : CoreIx) (j : GenJob) (code : Nat) (ia : Nat) : (s.axuFault c j code ia).memory = s.memory := by
  simp [State.axuFault]

@[simp] theorem State.jobClash_memory (s : State) (c : CoreIx) (j : GenJob) (cs : List Claim) : (s.jobClash c j cs).memory = s.memory := by
  simp [State.jobClash]

@[simp] theorem State.stqPump_memory (s : State) (c : CoreIx) (fuel : Nat) : (s.stqPump c fuel).memory = s.memory := by
  induction fuel generalizing s with
  | zero => rfl
  | succ fuel ih =>
    unfold State.stqPump
    dsimp only
    split
    · rfl
    · split
      · rw [ih]; split <;> simp
      · rw [ih]; simp

@[simp] theorem State.stqDone_memory (s : State) (c : CoreIx) (x : StqAddr) : (s.stqDone c x).memory = s.memory := by simp [State.stqDone]

@[simp] theorem State.stqPush_memory (s : State) (c : CoreIx) (t : Nat) (bs : List Byte) : (s.stqPush c t bs).memory = s.memory := by
  simp [State.stqPush]

@[simp] theorem State.drawAccess_memory (s : State) (c : CoreIx) (ia : Nat) : (s.drawAccess c ia).2.memory = s.memory := by simp [State.drawAccess]

@[simp] theorem State.addPieces_memory (s : State) (c : CoreIx) (job : GenJob) (va : Nat) (ps : List (Nat × Nat × Nat)) (lane : Nat)
    (dest : Nat → Dest) :
    (s.addPieces c job va ps lane dest).memory = s.memory := by simp [State.addPieces]

@[simp] theorem State.startBeats_memory (s : State) (c : CoreIx) (id : Nat) (beats : List Beat) (doneAt : Nat) (lat : List Nat) :
    (s.startBeats c id beats doneAt lat).memory = s.memory := by
  unfold State.startBeats
  exact foldl_memory (fun s b => s.schedC_memory ..) beats _

@[simp] theorem State.ldqFill_memory (s : State) (c : CoreIx) (r : Req) (slot off : Nat) : (s.ldqFill c r slot off).memory = s.memory := by
  simp [State.ldqFill]

@[simp] theorem State.indexFill_memory (s : State) (c : CoreIx) (r : Req) (id key : Nat) : (s.indexFill c r id key).memory = s.memory := by
  simp [State.indexFill]

@[simp] theorem State.stqFill_memory (s : State) (c : CoreIx) (slot : Nat) : (s.stqFill c slot).memory = s.memory := by
  unfold State.stqFill; (repeat' split) <;> simp

/-! ### Machine/AxuRows -/

@[simp] theorem State.tailBeat_memory (s : State) (col : CoreIx) (t : Nat × List Byte) : (s.tailBeat col t).memory = s.memory := by
  simp [State.tailBeat]

@[simp] theorem State.starve_memory (s : State) (c : CoreIx) (off : Nat) : (s.starve c off).memory = s.memory := by
  unfold State.starve
  exact foldl_memory (fun s w => by dsimp only; split <;> simp) _ s

/-! ### Machine/Bke -/

@[simp] theorem State.steps_memory (s : State) (c : CoreIx) (id lo hi : Nat) : (s.steps c id lo hi).memory = s.memory :=
  foldl_memory (fun s _ => s.schedC_memory ..) _ s

@[simp] theorem State.bkeLaunch_memory (s : State) (i : Instr) (h : Hdr) (pc : Int) (doneAt : Nat) (p : SrcPlan) (busy : List Busy)
    (lat : List Nat) (writes : Bool) :
    (s.bkeLaunch i h pc doneAt p busy lat writes).memory = s.memory := by simp [State.bkeLaunch]

@[simp] theorem State.bwinDone_memory (s : State) (c : CoreIx) (w : Inflight) : (s.bwinDone c w).memory = s.memory := by simp [State.bwinDone]

@[simp] theorem State.cfgDone_memory (s : State) (c : CoreIx) (w : Inflight) : (s.cfgDone c w).memory = s.memory := by simp [State.cfgDone]

@[simp] theorem State.cbldDone_memory (s : State) (c : CoreIx) (w : Inflight) : (s.cbldDone c w).memory = s.memory := by
  unfold State.cbldDone; split <;> simp

@[simp] theorem State.tileDone_memory (s : State) (c : CoreIx) (w : Inflight) (steer : Bool) : (s.tileDone c w steer).memory = s.memory := by
  unfold State.tileDone; dsimp only; (repeat' split) <;> simp

@[simp] theorem State.commitLanes_memory (s : State) (c : CoreIx) (w : Inflight) (e : Nat) (wk : Bool) (v : Option (Vector Lane 256)) :
    (s.commitLanes c w e wk v).memory = s.memory := by
  unfold State.commitLanes; split <;> simp

@[simp] theorem State.mulbDone_memory (s : State) (c : CoreIx) (w : Inflight) : (s.mulbDone c w).memory = s.memory := by simp [State.mulbDone]

@[simp] theorem State.macdDone_memory (s : State) (c : CoreIx) (w : Inflight) : (s.macdDone c w).memory = s.memory := by simp [State.macdDone]

@[simp] theorem State.zfillDone_memory (s : State) (c : CoreIx) (w : Inflight) : (s.zfillDone c w).memory = s.memory := by simp [State.zfillDone]

@[simp] theorem State.zaddvDone_memory (s : State) (c : CoreIx) (w : Inflight) : (s.zaddvDone c w).memory = s.memory := by simp [State.zaddvDone]

@[simp] theorem State.bkeDone_memory (s : State) (c : CoreIx) (w : Inflight) : (s.bkeDone c w).memory = s.memory := by
  unfold State.bkeDone; split <;> simp

/-! ### Machine/Cpe -/

theorem State.cpeEntries_memory {s t : State} {c : CoreIx} {hs : List Nat} {l : List (Nat × BitVec 512)}
    (h : s.cpeEntries c hs = .ok (l, t)) : t.memory = s.memory := by
  induction hs generalizing s l with
  | nil => cases h; rfl
  | cons x r ih =>
    unfold State.cpeEntries at h
    split at h
    · cases h
    · cases h
    · cases h
    · rename_i hh
      split at h
      · rename_i hr; cases h; rw [ih hr, State.handle_memory hh]
      · cases h

theorem State.cpeCheck_memory {s t : State} {c : CoreIx} {op : Nat} {b : List Byte} {l : List (Nat × BitVec 512)}
    (h : s.cpeCheck c op b = .ok (l, t)) : t.memory = s.memory := by
  unfold State.cpeCheck at h
  dsimp only at h
  split at h
  · cases h
  · rename_i he
    split at h
    · cases h
    · cases h; exact State.cpeEntries_memory he

@[simp] theorem State.updCpe_memory (s : State) (c : CoreIx) (f : Cpe → Cpe) : (s.updCpe c f).memory = s.memory := by simp [State.updCpe]

@[simp] theorem State.updCmd_memory (s : State) (c : CoreIx) (id : Nat) (f : Cmd → Cmd) : (s.updCmd c id f).memory = s.memory := by
  simp [State.updCmd]

@[simp] theorem State.cpePump_memory (s : State) (c : CoreIx) : (s.cpePump c).memory = s.memory := by
  unfold State.cpePump; dsimp only; split <;> simp

@[simp] theorem State.cpeFault_memory (s : State) (c : CoreIx) (code ia h : Nat) : (s.cpeFault c code ia h).memory = s.memory := by
  simp [State.cpeFault]

@[simp] theorem State.cpeAgain_memory (s : State) (c : CoreIx) : (s.cpeAgain c).memory = s.memory := by simp [State.cpeAgain]

@[simp] theorem State.cmdEnd_memory (s : State) (c : CoreIx) (id : Nat) : (s.cmdEnd c id).memory = s.memory := by
  unfold State.cmdEnd; split <;> simp

@[simp] theorem State.sectorEnd_memory (s : State) (c : CoreIx) (id q : Nat) (bytes : Nat) (f : Option SecFault) :
    (s.sectorEnd c id q bytes f).memory = s.memory := by simp [State.sectorEnd]

@[simp] theorem State.sectorStop_memory (s : State) (c : CoreIx) (p : PartIx) (id q : Nat) (e : SecStop) (also : List (Nat × Nat)) :
    (s.sectorStop c p id q e also).memory = s.memory := by
  cases e <;> simp [State.sectorStop]

@[simp] theorem State.sectorAsk_memory (s : State) (c : CoreIx) (p : PartIx) (id q : Nat) (ls : List (Acc × Loc)) :
    (s.sectorAsk c p id q ls).memory = s.memory := by
  unfold State.sectorAsk
  exact foldl_memory (fun s y => by dsimp only; split <;> simp) _ s

theorem State.windows_memory {s t : State} {l : List (CoreIx × List Claim)} (h : s.windows l = some t) : t.memory = s.memory := by
  unfold State.windows at h
  split at h
  · cases h
  · cases h; exact foldl_memory (fun s y => by simp) l s

@[simp] theorem State.cmdEnter_memory (s : State) (c : CoreIx) (y : Cmd) (e : Nat) : (s.cmdEnter c y e).memory = s.memory := by simp [State.cmdEnter]

theorem State.entryTry_memory {s t : State} {core : CoreIx} {x : CmdIn} {rec_ : List Byte} {e : Nat} {b : Bool}
    (h : s.entryTry core x rec_ e = .ok (b, t)) : t.memory = s.memory := by
  unfold State.entryTry at h
  extract_lets rop stop at h
  split at h
  · cases h; simp
  · split at h
    · cases h; simp
    · split at h
      · cases h; simp
      · split at h
        · cases h; simp
        · split at h
          · cases h
          · cases h; simp
          · cases h; simp
          · split at h
            · split at h <;> (cases h; simp)
            · split at h
              · cases h; simp
              · obtain ⟨-, rfl⟩ := Prod.mk.inj (Except.ok.inj h); rw [State.cmdEnter_memory]
          · rename_i hc
            have hm := State.cpeCheck_memory hc
            dsimp only at h
            split at h
            · split at h <;> (cases h; simp [hm])
            · cases h; simp [hm]

@[simp] theorem State.cmdFinish_memory (s : State) (c : CoreIx) (x : Cmd) (ok : Bool) : (s.cmdFinish c x ok).memory = s.memory := by
  simp [State.cmdFinish]

theorem State.recordLoad_memory {s t : State} {c : CoreIx} {x : CmdIn} {ia : Nat} {took : Bool}
    (h : s.recordLoad c x ia took = .ok t) : t.memory = s.memory := by
  unfold State.recordLoad at h
  dsimp only at h
  split at h
  · split at h
    · cases h
    · cases h; simp
  · cases h; simp

@[simp] theorem State.cmdArrive_memory (s : State) (c : CoreIx) (r : Req) (x : CmdIn) : (s.cmdArrive c r x).memory = s.memory := by
  unfold State.cmdArrive; dsimp only; split <;> simp

/-! ### Machine/Contexts -/

@[simp] theorem State.slotsArm_memory (s : State) (c : CoreIx) : (s.slotsArm c).memory = s.memory := by simp [State.slotsArm]

@[simp] theorem State.hotChange_memory (s : State) (c : CoreIx) : (s.hotChange c).memory = s.memory := by simp [State.hotChange]

@[simp] theorem State.abandon_memory (s : State) (cs : List CoreIx) : (s.abandon cs).memory = s.memory := by simp [State.abandon]

@[simp] theorem State.dropFixes_memory (s : State) (p : PartIx) : (s.dropFixes p).memory = s.memory := by
  unfold State.dropFixes
  exact foldl_memory (fun s c => s.upd_memory ..) _ _

@[simp] theorem State.checkDone_memory (s : State) (p : PartIx) : (s.checkDone p).memory = s.memory := by
  unfold State.checkDone
  dsimp only
  split
  · rfl
  · split
    · rfl
    · rw [foldl_memory fun s c => s.upd_memory ..]; simp

/-! ### Machine/Memory -/

@[simp] theorem State.hostComplete_memory (s : State) (tag : Nat) (st : CplStatus) (bs : List Byte) :
    (s.hostComplete tag st bs).memory = s.memory := by
  simp [State.hostComplete]

@[simp] theorem State.failReq_memory (s : State) (r : Req) (code entry level : Nat) : (s.failReq r code entry level).memory = s.memory := by
  simp [State.failReq]

@[simp] theorem State.windowEnter_memory (s : State) (r : Req) (c : CoreIx) : (s.windowEnter r c).memory = s.memory := by simp [State.windowEnter]

@[simp] theorem State.peerComplete_memory (s : State) (l tag : Nat) (st : CplStatus) (bs : List Byte) :
    (s.peerComplete l tag st bs).memory = s.memory := by simp [State.peerComplete]

@[simp] theorem State.answer_memory (s : State) (r : Req) (st : CplStatus) : (s.answer r st).memory = s.memory := by
  unfold State.answer; (repeat' split) <;> simp

@[simp] theorem State.heldTraps_memory (s : State) (p : PartIx) : (s.heldTraps p).memory = s.memory := by
  unfold State.heldTraps
  exact foldl_memory (fun s c => by split <;> simp) _ s

/-! ### Machine/Fetch -/

@[simp] theorem State.atEvent_memory (s : State) (e : Ev) : (s.at_ e).memory = s.memory := by simp [State.at_]

@[simp] theorem State.atIssue_memory (s : State) (x : Cand) : (s.atIssue x).memory = s.memory := by
  unfold State.atIssue; split <;> simp

@[simp] theorem State.beyond_memory (s : State) (x : Cand) : (s.beyond x).memory = s.memory := by simp [State.beyond]

/-! ### Machine/Legs -/

@[simp] theorem State.linkMsg_memory (s : State) (l : LinkIx) (mcode arg pay : Nat) : (s.linkMsg l mcode arg pay).memory = s.memory := by
  simp [State.linkMsg]

@[simp] theorem State.sendMsg_memory (s : State) (p : PartIx) (l : LinkIx) (mcode arg pay : Nat) :
    (s.sendMsg p l mcode arg pay).memory = s.memory := by
  simp [State.sendMsg]

@[simp] theorem State.arrive_memory (s : State) (c : CoreIx) (p : PartIx) (n : Nat) (d : LegDesc) : (s.arrive c p n d).memory = s.memory := by
  simp [State.arrive]

@[simp] theorem State.releaseCores_memory (s : State) (p : PartIx) (f : FixDone) (d : LegDesc) : (s.releaseCores p f d).memory = s.memory := by
  simp [State.releaseCores]

@[simp] theorem State.sendReleases_memory (s : State) (p : PartIx) (f : FixDone) : (s.sendReleases p f).memory = s.memory := by
  simp [State.sendReleases]

@[simp] theorem State.releaseFix_memory (s : State) (p : PartIx) (f : FixDone) : (s.releaseFix p f).memory = s.memory := by
  unfold State.releaseFix; split <;> simp

@[simp] theorem State.tryFabric_memory (s : State) (p : PartIx) : (s.tryFabric p).memory = s.memory := by
  unfold State.tryFabric; dsimp only; (repeat' split) <;> simp

@[simp] theorem State.fixArr_memory (s : State) (src : FixPeer) (p : PartIx) (leg cnt : Nat) : (s.fixArr src p leg cnt).memory = s.memory := by
  simp [State.fixArr]

@[simp] theorem State.chooseCourse_memory (s : State) (p : PartIx) (cs : List CoreIx) (n : Nat) (d : LegDesc) :
    (s.chooseCourse p cs n d).2.memory = s.memory := by
  unfold State.chooseCourse; dsimp only; split <;> simp

@[simp] theorem State.noteMeters_memory (s : State) (p : PartIx) (cs : List CoreIx) : (s.noteMeters p cs).memory = s.memory := by
  simp [State.noteMeters]

/-! ### Machine/Migrate -/

theorem State.place_memory {s t : State} {stack pa : Nat} {big : Bool} (h : s.place stack big = some (pa, t)) : t.memory = s.memory := by
  unfold State.place at h
  dsimp only at h
  split at h
  · cases h
  · cases h; simp

@[simp] theorem State.takeFrame_memory (s : State) (pa : Nat) (big : Bool) : (s.takeFrame pa big).memory = s.memory := by simp [State.takeFrame]

@[simp] theorem State.freeFrame_memory (s : State) (pa : Nat) (big : Bool) : (s.freeFrame pa big).memory = s.memory := by simp [State.freeFrame]

@[simp] theorem State.mgGo_memory (s : State) : (s.mgGo).memory = s.memory := by simp [State.mgGo]

@[simp] theorem State.invalidate_memory (s : State) (p : Nat) (all : Bool) (a n : Nat) : (s.invalidate p all a n).memory = s.memory := by
  simp [State.invalidate]

@[simp] theorem State.pinPages_memory (s : State) (p : PartIx) (z n a : Nat) : (s.pinPages p z n a).1.memory = s.memory := by
  induction n generalizing s a with
  | zero => rfl
  | succ n ih =>
    unfold State.pinPages
    dsimp only
    split
    · rfl
    · split
      · simp
      · split
        · simp
        · split
          · rfl
          · rw [ih]

theorem State.moveDest_memory {s t : State} {c : MgCmd} {loc e pa : Nat} (h : s.moveDest c loc e = .ok (pa, t)) : t.memory = s.memory := by
  unfold State.moveDest at h
  dsimp only at h
  split at h
  · split at h
    · rename_i hp; cases h; simp [State.place_memory hp]
    · cases h
  · split at h
    · cases h
    · split at h
      · cases h; simp
      · cases h
  · split at h <;> cases h; rfl
  · split at h <;> cases h; rfl
  · split at h <;> cases h; rfl
  · cases h

@[simp] theorem State.moveReads_memory (s : State) (p : PartIx) (c : MgCmd) (addr : Nat) : (s.moveReads p c addr).memory = s.memory := by
  simp [State.moveReads]

@[simp] theorem State.postPage_memory (s : State) (p : PartIx) (addr : Nat) (bs : List Byte) : (s.postPage p addr bs).memory = s.memory := by
  simp [State.postPage]

@[simp] theorem State.bmRefuse_memory (s : State) : (s.bmRefuse).memory = s.memory := by simp [State.bmRefuse]

@[simp] theorem State.bmAccept_memory (s : State) : (s.bmAccept).memory = s.memory := by simp [State.bmAccept]

@[simp] theorem State.setBank_memory (s : State) (c : CoreIx) (b : Fin 32) (v : BitVec 4) : (s.setBank c b v).memory = s.memory := by
  simp [State.setBank]

/-! ### Machine/Launch -/

@[simp] theorem State.kill_memory (s : State) (p : PartIx) (j : Fin 8) : (s.kill p j).memory = s.memory := by
  unfold State.kill; dsimp only; split <;> simp

theorem State.shadowed_memory {s t : State} {p : PartIx} {off len val : Nat} (h : s.shadowed p off len val = some t) :
    t.memory = s.memory := by
  unfold State.shadowed at h
  split at h
  · cases h; simp
  · cases h

@[simp] theorem State.askPage_memory (s : State) (p : PartIx) (j : Fin 8) (ia off n addr : Nat) :
    (s.askPage p j ia off n addr).1.memory = s.memory := by
  unfold State.askPage
  refine foldl_memory_of Prod.fst (fun a i => ?_) _ _
  dsimp only
  split
  · rfl
  · split <;> simp

@[simp] theorem State.chartRead_memory (s : State) (p : PartIx) (j : Fin 8) (n : Nat) : (s.chartRead p j n).1.memory = s.memory := by
  unfold State.chartRead
  refine foldl_memory_of Prod.fst (fun a i => ?_) _ _
  dsimp only
  split
  · split
    · rfl
    · split
      · rfl
      · simp
      · split <;> rfl
      · split <;> simp
  · rfl

@[simp] theorem State.reject_memory (s : State) (p : PartIx) (j : Fin 8) (code : Nat) : (s.reject p j code).memory = s.memory := by
  simp [State.reject]

@[simp] theorem State.chartBad_memory (s : State) (p : PartIx) (j : Fin 8) (code : Nat) : (s.chartBad p j code).memory = s.memory := by
  simp [State.chartBad]

@[simp] theorem State.check_memory (s : State) (p : PartIx) (j : Fin 8) : (s.check p j).memory = s.memory := by
  have read : ∀ {u v : State} {n : Nat} {r : ChartRead}, u.chartRead p j n = (v, r) → v.memory = u.memory :=
    fun {u _ n _} h => by rw [← u.chartRead_memory p j n, h]
  unfold State.check
  dsimp only
  split
  · simp
  · split
    · simp
    · split
      · simp
      · split
        · rename_i h; simp [read h]
        · rename_i h; simp [read h]
        · rename_i h
          split
          · rename_i h2; simp [read h2, read h]
          · rename_i h2; simp [read h2, read h]
          · rename_i h2
            split
            · simp [read h2, read h]
            · split <;> simp [read h2, read h]

@[simp] theorem State.pinPage_memory (s : State) (p : PartIx) (j : Fin 8) (i : Nat) : (s.pinPage p j i).1.memory = s.memory := by
  unfold State.pinPage
  split
  · split <;> rfl
  · dsimp only
    split
    · simp
    · split <;> simp
  · simp
  · split <;> rfl

@[simp] theorem State.pinScan_memory (s : State) (p : PartIx) (j : Fin 8) : (s.pinScan p j).1.memory = s.memory := by
  unfold State.pinScan
  refine foldl_memory_of Prod.fst (fun a i => ?_) _ _
  have h := a.1.pinPage_memory p j i
  split
  · split
    · rename_i e; rw [e] at h; exact h
    · exact h
  · rfl

@[simp] theorem State.orphan_memory (s : State) (cs : List CoreIx) : (s.orphan cs).memory = s.memory := by simp [State.orphan]

@[simp] theorem State.armQuantum_memory (s : State) (p : PartIx) (j : Fin 8) : (s.armQuantum p j).memory = s.memory := by simp [State.armQuantum]

@[simp] theorem State.startContext_memory (s : State) (p : PartIx) (j : Fin 8) : (s.startContext p j).memory = s.memory := by
  have started : ∀ (x : Slot) (n t : Nat) (ys : List (Nat × CoreIx)) (u : State),
      (ys.foldl (fun s y => s.upd y.2 fun k => k.started x y.1 n t) u).memory = u.memory :=
    fun x n t ys u => foldl_memory (fun s y => s.upd_memory ..) ys u
  unfold State.startContext
  simp only [State.memory_ite, State.schedP_memory, State.armQuantum_memory, State.slotTo_memory, State.updPart_memory, started,
    State.orphan_memory, ite_self]

@[simp] theorem State.keyWrite_memory (s : State) (j : Fin 8) (dw v : Nat) : (s.keyWrite j dw v).memory = s.memory := by simp [State.keyWrite]

/-! ### Machine/Switch -/

@[simp] theorem State.holdFixes_memory (s : State) (p : PartIx) : (s.holdFixes p).memory = s.memory := by simp [State.holdFixes]

@[simp] theorem State.requestPreempt_memory (s : State) (p : PartIx) (sethold : Bool) : (s.requestPreempt p sethold).memory = s.memory := by
  unfold State.requestPreempt; dsimp only; (repeat' split) <;> simp

@[simp] theorem State.stopRows_memory (s : State) (p : PartIx) (x : Preempt) (c : CoreIx) : (s.stopRows p x c).memory = s.memory := by
  simp [State.stopRows]

@[simp] theorem State.reactivate_memory (s : State) (h : Shadow) (legs : List LegDesc) (tin : Nat) : (s.reactivate h legs tin).memory = s.memory := by
  simp [State.reactivate]

@[simp] theorem State.beginSwitch_memory (s : State) (p : PartIx) (out : Option Preempt) (inc : Option (Fin 8)) :
    (s.beginSwitch p out inc).memory = s.memory := by
  unfold State.beginSwitch; dsimp only; split <;> simp

@[simp] theorem State.preemptDone_memory (s : State) (p : PartIx) (x : Preempt) (inc : Option (Fin 8)) :
    (s.preemptDone p x inc).memory = s.memory := by
  simp [State.preemptDone]

theorem State.creditLink_memory {s t : State} {p : PartIx} {core : CoreIx} {j : Fin 4} {c : Nat}
    (h : s.creditLink p core j c = some t) : t.memory = s.memory := by
  unfold State.creditLink at h
  dsimp only at h
  split at h
  · split at h <;> (cases h; simp)
  · split at h
    · split at h
      · cases h
      · split at h <;> (cases h; simp)
    · cases h

/-- The state a link token leaves, whether or not a context holds it. -/
@[simp] theorem State.creditLink_getD_memory (s : State) (p : PartIx) (core : CoreIx) (j : Fin 4) (c : Nat) :
    ((s.creditLink p core j c).getD s).memory = s.memory := by
  cases h : s.creditLink p core j c with
  | none => rfl
  | some t => exact State.creditLink_memory h

@[simp] theorem State.pendLink_memory (s : State) (p : PartIx) (core : CoreIx) (j : Fin 4) (c : Nat) : (s.pendLink p core j c).memory = s.memory := by
  simp [State.pendLink]

@[simp] theorem State.linkOverflow_memory (s : State) (p : PartIx) : (s.linkOverflow p).memory = s.memory := by simp [State.linkOverflow]

@[simp] theorem State.creditPending_memory (s : State) (p : PartIx) : (s.creditPending p).memory = s.memory := by
  unfold State.creditPending
  exact foldl_memory (fun s x => by simp) _ _

@[simp] theorem State.switchedOut_memory (s : State) (p : PartIx) (x : Preempt) : (s.switchedOut p x).memory = s.memory := by
  unfold State.switchedOut
  rw [State.slotTo_memory, foldl_memory fun s c => s.upd_memory ..]
  simp

@[simp] theorem State.switchedIn_memory (s : State) (p : PartIx) (j : Fin 8) (h : Shadow) : (s.switchedIn p j h).memory = s.memory := by
  unfold State.switchedIn
  dsimp only
  rw [State.armQuantum_memory, State.slotTo_memory, foldl_memory fun s g => s.schedP_memory .., foldl_memory fun s r => by simp,
    foldl_memory fun s e => by simp, State.updPart_memory]
  exact foldl_memory (fun s c => by split <;> simp) _ s

@[simp] theorem State.poke_memory (s : State) (c : CoreIx) : (s.poke c).memory = s.memory := by simp [State.poke]

@[simp] theorem State.rearm_memory (s : State) (p : PartIx) (c : CoreIx) : (s.rearm p c).memory = s.memory := by
  unfold State.rearm; (repeat' split) <;> simp

@[simp] theorem State.lookFired_memory (s : State) (c : CoreIx) (e : Eng) (stp : Nat) : (s.lookFired c e stp).memory = s.memory := by
  unfold State.lookFired; dsimp only; split <;> simp

@[simp] theorem State.lookKill_memory (s : State) (p : PartIx) : (s.lookKill p).memory = s.memory := by
  unfold State.lookKill; split <;> simp

@[simp] theorem State.checkpoint_memory (s : State) (p : PartIx) (leg : BitVec 16) : (s.checkpoint p leg).memory = s.memory := by
  simp [State.checkpoint]

/-! ### Machine/Halt -/

@[simp] theorem State.haltSeen_memory (s : State) (p : PartIx) (h : Halting) : (s.haltSeen p h).memory = s.memory := by simp [State.haltSeen]

@[simp] theorem State.writePhalt_memory (s : State) (p : PartIx) (h : Halting) : (s.writePhalt p h).memory = s.memory := by simp [State.writePhalt]

@[simp] theorem State.repairs_memory (s : State) (p : PartIx) : (s.repairs p).memory = s.memory := by simp [State.repairs]

@[simp] theorem State.haltEnd_memory (s : State) (p : PartIx) (h : Halting) : (s.haltEnd p h).memory = s.memory := by
  unfold State.haltEnd; dsimp only; split <;> simp

@[simp] theorem State.asserted_memory {s : State} {f : State → State} (h : (f s).memory = s.memory) : (s.asserted f).memory = s.memory := by
  unfold State.asserted; dsimp only; split <;> exact h

@[simp] theorem State.released_memory (s : State) : (s.released).memory = s.memory := by simp [State.released]

@[simp] theorem State.frzOn_memory (s : State) : (s.frzOn).memory = s.memory := by simp [State.frzOn]

@[simp] theorem State.scanWrite_memory (s : State) (addr : BitVec 32) : (s.scanWrite addr).memory = s.memory := by simp [State.scanWrite]

/-! ### Machine/Links -/

@[simp] theorem State.updLink_memory (s : State) (l : LinkIx) (f : Link → Link) : (s.updLink l f).memory = s.memory := by simp [State.updLink]

@[simp] theorem State.updPort_memory (s : State) (q : Fin 48) (f : Port → Port) : (s.updPort q f).memory = s.memory := by simp [State.updPort]

@[simp] theorem State.updHost_memory (s : State) (f : Port → Port) : (s.updHost f).memory = s.memory := by simp [State.updHost]

@[simp] theorem State.malf_memory (s : State) (q : Nat) : (s.malf q).memory = s.memory := by simp [State.malf]

@[simp] theorem State.linkFault_memory (s : State) (l : LinkIx) (code : Nat) : (s.linkFault l code).memory = s.memory := by simp [State.linkFault]

@[simp] theorem State.linkDown_memory (s : State) (l : LinkIx) : (s.linkDown l).memory = s.memory := by simp [State.linkDown]

@[simp] theorem State.linkCheck_memory (s : State) (l : LinkIx) : (s.linkCheck l).memory = s.memory := by simp [State.linkCheck]

@[simp] theorem State.linkEnable_memory (s : State) (l : LinkIx) (k : Link) : (s.linkEnable l k).memory = s.memory := by simp [State.linkEnable]

@[simp] theorem State.linkDisable_memory (s : State) (l : LinkIx) : (s.linkDisable l).memory = s.memory := by simp [State.linkDisable]

@[simp] theorem State.gapArm_memory (s : State) (l : LinkIx) : (s.gapArm l).memory = s.memory := by
  unfold State.gapArm; dsimp only; split <;> simp

@[simp] theorem State.helloOn_memory (s : State) (l : LinkIx) (q : Nat) (fabid : BitVec 12) (index : Nat) :
    (s.helloOn l q fabid index).memory = s.memory := by simp [State.helloOn]

@[simp] theorem State.stageTo_memory (s : State) (n : Fin 64) (v : BitVec 32) : (s.stageTo n v).memory = s.memory := by simp [State.stageTo]

@[simp] theorem State.stopHandled_memory (s : State) (id : Nat) : (s.stopHandled id).memory = s.memory := by simp [State.stopHandled]

@[simp] theorem State.stopOn_memory (s : State) (l : LinkIx) (q : Nat) (ident pay : Nat) : (s.stopOn l q ident pay).memory = s.memory := by
  simp [State.stopOn]

@[simp] theorem State.freezeOn_memory (s : State) (l : LinkIx) (q : Nat) : (s.freezeOn l q).memory = s.memory := by simp [State.freezeOn]

@[simp] theorem State.thawOn_memory (s : State) (l : LinkIx) (q : Nat) : (s.thawOn l q).memory = s.memory := by simp [State.thawOn]

@[simp] theorem State.portBack_memory (s : State) (q : Fin 48) : (s.portBack q).memory = s.memory := by
  unfold State.portBack; dsimp only; (repeat' split) <;> simp

@[simp] theorem State.portLeaves_memory (s : State) (q : Fin 48) : (s.portLeaves q).memory = s.memory := by
  unfold State.portLeaves; dsimp only; (repeat' split) <;> simp

@[simp] theorem State.setFabid_memory (s : State) (v : BitVec 12) : (s.setFabid v).memory = s.memory := by simp [State.setFabid]

@[simp] theorem State.updPortRef_memory (s : State) (port : PortRef) (f : Port → Port) : (s.updPortRef port f).memory = s.memory := by
  unfold State.updPortRef; split <;> simp

@[simp] theorem State.ideSet_memory (s : State) (n : Nat) (on : Bool) : (s.ideSet n on).memory = s.memory := by
  unfold State.ideSet; split <;> simp

@[simp] theorem State.spdmAnswer_memory (s : State) (bs : List Byte) : (s.spdmAnswer bs).memory = s.memory := by simp [State.spdmAnswer]

/-! ### Machine/Helm -/

@[simp] theorem State.survey_memory (s : State) (cold : Bool) : (s.survey cold).memory = s.memory := by simp [State.survey]

@[simp] theorem State.pendBanks_memory (s : State) (c : CoreIx) (bs : List (Fin 32)) : (s.pendBanks c bs).memory = s.memory := by
  simp [State.pendBanks]

@[simp] theorem State.svRefuse_memory (s : State) : (s.svRefuse).memory = s.memory := by simp [State.svRefuse]

@[simp] theorem State.svAccept_memory (s : State) (cmd : BitVec 3) : (s.svAccept cmd).memory = s.memory := by simp [State.svAccept]

@[simp] theorem State.hotSet_memory (s : State) (c : CoreIx) : (s.hotSet c).memory = s.memory := by simp [State.hotSet]

@[simp] theorem State.emergency_memory (s : State) (code : Nat) : (s.emergency code).memory = s.memory := by simp [State.emergency]

@[simp] theorem State.partReset_memory (s : State) (p : PartIx) : (s.partReset p).memory = s.memory := by
  unfold State.partReset
  dsimp only
  rw [State.hotCheckAll_memory, foldl_memory fun s k => s.keyFlush_memory .., State.updPart_memory, foldl_memory fun s c => s.upd_memory ..,
    foldl_memory fun s c => s.closeRows_memory ..]
  simp

@[simp] theorem State.setValid_memory (s : State) (cold : Bool) : (s.setValid cold).memory = s.memory := by simp [State.setValid]

@[simp] theorem State.hcmdRefuse_memory (s : State) : (s.hcmdRefuse).memory = s.memory := by simp [State.hcmdRefuse]

@[simp] theorem State.hcmdAccept_memory {f : State → State} (h : ∀ s, (f s).memory = s.memory) (s : State) (cmd : BitVec 4) :
    (s.hcmdAccept cmd f).memory = s.memory := by
  simp [State.hcmdAccept, h]

@[simp] theorem State.spdmSigned_memory (s : State) (bs : List Byte) : (s.spdmSigned bs).memory = s.memory := by simp [State.spdmSigned]

/-! ### Machine/Regs -/

@[simp] theorem State.setInten_memory (s : State) (new : BitVec 8) : (s.setInten new).memory = s.memory := by simp [State.setInten]

@[simp] theorem State.setVinten_memory (s : State) (p : PartIx) (new : BitVec 2) : (s.setVinten p new).memory = s.memory := by simp [State.setVinten]

@[simp] theorem State.writeHcmd_memory (s : State) (x : Wr) : (s.writeHcmd x).memory = s.memory := by
  unfold State.writeHcmd; dsimp only; (repeat' split) <;> simp

@[simp] theorem State.writeW2ctl_memory (s : State) (x : Wr) : (s.writeW2ctl x).memory = s.memory := by simp [State.writeW2ctl]

@[simp] theorem State.intWrite_memory (s : State) (off : Nat) (x : Wr) : (s.intWrite off x).memory = s.memory := by
  unfold State.intWrite; split <;> simp

@[simp] theorem State.keyBlockWrite_memory (s : State) (off : Nat) (x : Wr) : (s.keyBlockWrite off x).memory = s.memory := by
  simp [State.keyBlockWrite]

@[simp] theorem State.svctlWrite_memory (s : State) (x : Wr) : (s.svctlWrite x).memory = s.memory := by
  unfold State.svctlWrite; dsimp only; (repeat' split) <;> simp

@[simp] theorem State.lkcfgWrite_memory (s : State) (l : LinkIx) (x : Wr) : (s.lkcfgWrite l x).memory = s.memory := by simp [State.lkcfgWrite]

@[simp] theorem State.linkWrite_memory (s : State) (off : Nat) (x : Wr) : (s.linkWrite off x).memory = s.memory := by simp [State.linkWrite]

@[simp] theorem State.schctlWrite_memory (s : State) (p : PartIx) (v : Nat) : (s.schctlWrite p v).memory = s.memory := by
  unfold State.schctlWrite; dsimp only; split <;> simp

@[simp] theorem State.pageUser_memory (s : State) (p : PartIx) (sup : Bool) (off : Nat) (x : Wr) : (s.pageUser p sup off x).memory = s.memory := by
  simp [State.pageUser]

@[simp] theorem State.sdctlWrite_memory (s : State) (x : Wr) : (s.sdctlWrite x).memory = s.memory := by simp [State.sdctlWrite]

@[simp] theorem State.bmctlWrite_memory (s : State) (x : Wr) : (s.bmctlWrite x).memory = s.memory := by simp [State.bmctlWrite]

@[simp] theorem State.transWrite_memory (s : State) (off : Nat) (x : Wr) : (s.transWrite off x).memory = s.memory := by
  unfold State.transWrite; split <;> simp

@[simp] theorem State.rwinApplyBoth_memory (s : State) (c : CoreIx) (w : Fin 4) (hi : Bool) (v vL : Nat) :
    (s.rwinApplyBoth c w hi v vL).memory = s.memory := by simp [State.rwinApplyBoth]

@[simp] theorem State.rwinWrite_memory (s : State) (c : CoreIx) (w : Fin 4) (hi : Bool) (v vL : Nat) :
    (s.rwinWrite c w hi v vL).memory = s.memory := by
  simp [State.rwinWrite]

@[simp] theorem State.corePageWrite_memory (s : State) (c : CoreIx) (off : Nat) (x : Wr) : (s.corePageWrite c off x).memory = s.memory := by
  simp [State.corePageWrite]

@[simp] theorem State.vfWrite_memory (s : State) (p : PartIx) (off : Nat) (x : Wr) : (s.vfWrite p off x).memory = s.memory := by simp [State.vfWrite]

/-! ### Machine/Vec -/

@[simp] theorem State.vecLaunch_memory (s : State) (i : Instr) (h : Hdr) (pc : Int) (doneAt : Nat) (lat : List Nat) (got : List (Nat × Byte)) :
    (s.vecLaunch i h pc doneAt lat got).memory = s.memory := by simp [State.vecLaunch]

@[simp] theorem State.vecDone_memory (s : State) (c : CoreIx) (w : Inflight) : (s.vecDone c w).memory = s.memory := by simp [State.vecDone]

@[simp] theorem State.again_memory (s : State) (c : CoreIx) (w : Inflight) (t : Nat) : (s.again c w t).memory = s.memory := by simp [State.again]

@[simp] theorem State.vldPop_memory (s : State) (c : CoreIx) (w : Inflight) : (s.vldPop c w).memory = s.memory := by
  unfold State.vldPop; split <;> simp

@[simp] theorem State.vldDone_memory (s : State) (c : CoreIx) (w : Inflight) : (s.vldDone c w).memory = s.memory := by simp [State.vldDone]

@[simp] theorem State.vstPush_memory (s : State) (c : CoreIx) (w : Inflight) : (s.vstPush c w).1.memory = s.memory := by simp [State.vstPush]

@[simp] theorem State.toReplay_memory (s : State) (c : CoreIx) (w : Inflight) : (s.toReplay c w).memory = s.memory := by
  unfold State.toReplay; split <;> simp

@[simp] theorem State.holdOr41_memory (s : State) (c : CoreIx) (w : Inflight) : (s.holdOr41 c w).memory = s.memory := by simp [State.holdOr41]

@[simp] theorem State.sumStart_memory (s : State) (c : CoreIx) (w : Inflight) (lo : Nat) : (s.sumStart c w lo).memory = s.memory := by
  simp [State.sumStart]

@[simp] theorem State.sumDone_memory (s : State) (c : CoreIx) (w : Inflight) : (s.sumDone c w).memory = s.memory := by simp [State.sumDone]

@[simp] theorem State.vecGo_memory (s : State) (c : CoreIx) (w : Inflight) : (s.vecGo c w).1.memory = s.memory := by
  unfold State.vecGo; dsimp only; (repeat' split) <;> simp

@[simp] theorem State.unhold_memory (s : State) (c : CoreIx) (id : Nat) : (s.unhold c id).memory = s.memory := by simp [State.unhold]

@[simp] theorem State.leaveHead_memory (s : State) (c : CoreIx) (w : Inflight) : (s.leaveHead c w).memory = s.memory := by
  unfold State.leaveHead; split <;> simp

/-! ### Machine/Retire -/

@[simp] theorem State.dropWord_memory (s : State) (c : CoreIx) (id : Nat) : (s.dropWord c id).memory = s.memory := by simp [State.dropWord]

theorem State.seqDone_memory {s t : State} {c : CoreIx} {w : Inflight} (h : s.seqDone c w = some t) : t.memory = s.memory := by
  unfold State.seqDone at h
  split at h
  · split at h
    · cases h; simp
    · cases h
  · cases h; simp
  · cases h; simp
  · cases h; rfl

@[simp] theorem State.wordDone_memory (s : State) (c : CoreIx) (w : Inflight) : (s.wordDone c w).1.memory = s.memory := by
  unfold State.wordDone
  split
  · split
    · rename_i h; exact State.seqDone_memory h
    · simp
  · simp
  · simp
  · rfl

@[simp] theorem State.axuGive_memory (s : State) (c : CoreIx) (w : Inflight) : (s.axuGive c w).memory = s.memory := by simp [State.axuGive]

@[simp] theorem State.retire_memory (s : State) (c : CoreIx) (w : Inflight) : (s.retire c w).memory = s.memory := by simp [State.retire]

/-! ### Machine/Occur -/

@[simp] theorem State.schedIf_memory (s : State) (b : Bool) (t : Nat) (c : CoreIx) (i : Instr) : (s.schedIf b t c i).memory = s.memory := by
  simp [State.schedIf]

@[simp] theorem State.layerTimer_memory (s : State) (c : CoreIx) (l : Fin 4) (old new : Nat) : (s.layerTimer c l old new).memory = s.memory := by
  simp [State.layerTimer]

@[simp] theorem State.emergencyEnds_memory (s : State) (c : CoreIx) : (s.emergencyEnds c).memory = s.memory := by simp [State.emergencyEnds]

@[simp] theorem State.temperature_memory (s : State) (c : CoreIx) (tlogic : BitVec 12) (layers : Vector (BitVec 12) 4) :
    (s.temperature c tlogic layers).memory = s.memory := by simp [State.temperature]

@[simp] theorem State.correctedError_memory (s : State) (c : CoreIx) (b : Fin 32) : (s.correctedError c b).memory = s.memory := by
  simp [State.correctedError]

@[simp] theorem State.hardError_memory (s : State) (c : CoreIx) (read : Nat) : (s.hardError c read).memory = s.memory := by
  unfold State.hardError; dsimp only; split <;> simp

@[simp] theorem State.supply_memory (s : State) (good : Bool) : (s.supply good).memory = s.memory := by simp [State.supply]

@[simp] theorem State.occur_memory (s : State) (o : Occurrence) : (s.occur o).memory = s.memory := by
  cases o <;> simp [State.occur]

/-! ## The canonical form

What writes memory writes bytes of it, or drops entries; both keep the canonical form (`Memory.wf_writeBytes`, `Memory.wf_filter`). -/

theorem Memory.wf_zeroRange {m : List Host.Cell} (a n : Nat) (h : Memory.wf m = true) : Memory.wf (zeroRange m a n) = true :=
  Memory.wf_filter _ h

/-- An access performed at a memory key writes bytes of memory at most. -/
theorem Memory.wf_performAt {m m' : List Host.Cell} {key n : Nat} {k : AccKind} {bs : List Byte} (h : Memory.wf m = true)
    (hp : performAt m key n k = .ok (bs, m')) : Memory.wf m' = true := by
  cases k with
  | read | zero => cases hp; exact h
  | write | atomic => cases hp; exact Memory.wf_writeBytes _ _ h
  | faddx f x =>
    simp only [performAt] at hp
    split at hp
    · cases hp
    · cases hp; exact Memory.wf_writeBytes _ _ h
  | xrd =>
    simp only [performAt] at hp
    split at hp
    · cases hp
    · cases hp; exact h

/-- Writing a list of pieces keeps the canonical form. -/
theorem Memory.wf_foldl_writeBytes {α : Type} (key : α → Nat) (bs : α → List Byte) (l : List α) {m : List Host.Cell} (h : Memory.wf m = true) :
    Memory.wf (l.foldl (fun m x => writeBytes m (key x) (bs x)) m) = true := by
  induction l generalizing m with
  | nil => exact h
  | cons x r ih => exact ih (Memory.wf_writeBytes _ _ h)

@[simp] theorem Memory.wf_ite (c : Prop) [Decidable c] (m m' : List Host.Cell) :
    Memory.wf (if c then m else m') = if c then Memory.wf m else Memory.wf m' :=
  apply_ite Memory.wf c m m'

theorem State.ite_wf {c : Prop} [Decidable c] {s t : State} (hs : Memory.wf s.memory = true) (ht : Memory.wf t.memory = true) :
    Memory.wf (if c then s else t).memory = true := by
  split <;> assumption

/-- A fold whose every step keeps the canonical form keeps it. -/
theorem foldl_wf {α : Type} {f : State → α → State} (hf : ∀ s a, Memory.wf s.memory = true → Memory.wf (f s a).memory = true) (l : List α)
    {s : State} (h : Memory.wf s.memory = true) : Memory.wf (l.foldl f s).memory = true := by
  induction l generalizing s with
  | nil => exact h
  | cons a r ih => exact ih (hf s a h)

/-! ### Fault records, words that issue, and the Logbook -/

section

variable {s : State} (h : Memory.wf s.memory = true)

include h

@[simp] theorem State.paWrite_wf (pa : Nat) (bs : List Byte) : Memory.wf (s.paWrite pa bs).memory = true := by
  unfold State.paWrite
  split
  · exact Memory.wf_writeBytes _ _ h
  · exact Memory.wf_writeBytes _ _ h
  · exact h

@[simp] theorem State.fqWrite_wf (p : PartIx) (code : Nat) (w : Who) : Memory.wf (s.fqWrite p code w).memory = true := by
  unfold State.fqWrite
  dsimp only
  (repeat' split) <;> simp [h]

@[simp] theorem State.seqFault_wf (c : CoreIx) (code : Nat) (pc : Int) (took : Bool) (va ia : Nat) (wr at_ : Bool) (entry level handle : Nat) :
    Memory.wf (s.seqFault c code pc took va ia wr at_ entry level handle).memory = true := by
  unfold State.seqFault
  extract_lets k fixed rec_ s1 full
  have h1 : Memory.wf s1.memory = true := by
    simp only [s1]
    split
    · split <;> simp [h]
    · exact h
  (repeat' split) <;> simp [h1]

@[simp] theorem State.fillFault_wf (c : CoreIx) (e : Eng) (code : Nat) (pc : Int) (took : Bool) (entry level hx : Nat) :
    Memory.wf (s.fillFault c e code pc took entry level hx).memory = true := by
  unfold State.fillFault
  (repeat' split) <;> simp [h]

@[simp] theorem State.statTrap_wf (c : CoreIx) : Memory.wf (s.statTrap c).memory = true := by
  simp [State.statTrap, h]

end

/-- The body of a word leaves memory `m`: a word that issues reads memory at most; what it writes is performed by a later event. -/
def Verdict.KeepsMem (m : List Host.Cell) : Verdict → Prop
  | .ok s => s.memory = m
  | _ => True

@[simp] theorem Verdict.ok_keepsMem (m : List Host.Cell) (s : State) : (Verdict.ok s).KeepsMem m ↔ s.memory = m := Iff.rfl

@[simp] theorem Verdict.wait_keepsMem (m : List Host.Cell) : Verdict.wait.KeepsMem m := trivial

@[simp] theorem Verdict.late_keepsMem (m : List Host.Cell) (t : Nat) : (Verdict.late t).KeepsMem m := trivial

@[simp] theorem Verdict.plain_keepsMem (m : List Host.Cell) (code : Nat) : (Verdict.plain code).KeepsMem m := trivial

@[simp] theorem Verdict.ofHandle_keepsMem (m : List Host.Cell) (code ia hx : Nat) : (Verdict.ofHandle code ia hx).KeepsMem m := trivial

/-- What follows the body of a word, whatever its verdict, keeps the canonical form. -/
theorem State.seqIssue_wf {s : State} (h : Memory.wf s.memory = true) (i : Instr) (hd : Hdr) (regs : List (Fin 32)) (priv own : Bool) (lat : Nat)
    {body : State → Verdict} (hb : ∀ t, (body t).KeepsMem t.memory) :
    Memory.wf (s.seqIssue i hd regs priv own lat body).memory = true := by
  unfold State.seqIssue
  dsimp only
  have hv := hb (s.seqTaken s.cur hd.t)
  have h2 : (s.seqTaken s.cur hd.t).memory = s.memory := by simp
  generalize s.seqTaken s.cur hd.t = s2 at hv h2 ⊢
  have hs2 : Memory.wf s2.memory = true := by rw [h2]; exact h
  split
  · simp [h]
  · split
    · simp [h]
    · split
      · simp [hs2]
      · split
        · simp [hs2]
        · generalize body s2 = v at hv ⊢
          cases v with
          | ok t =>
            have ht : Memory.wf t.memory = true := by rw [(Verdict.ok_keepsMem ..).1 hv]; exact hs2
            simp [ht]
          | fault | fillFault => simp [hs2]
          | fill => simp [h, hs2]
          | wait | late => simp [h, h2]

/-- The same for a word of the AXU, the BKE or the VEC. -/
theorem State.engIssue_wf {s : State} (h : Memory.wf s.memory = true) (e : Eng) (i : Instr) (hd : Hdr) (own : Bool) (lat : Nat)
    {body : State → Verdict} (hb : ∀ t, (body t).KeepsMem t.memory) :
    Memory.wf (s.engIssue e i hd own lat body).memory = true := by
  unfold State.engIssue
  extract_lets c k pc src
  split
  extract_lets tk s1 s2 s3
  have h2 : s3.memory = s.memory := by simp [s1, s2, s3]
  have hs2 : Memory.wf s3.memory = true := by rw [h2]; exact h
  have hv := hb s3
  clear_value s3
  split
  · simp [h]
  · split
    · simp [h]
    · generalize body s3 = v at hv ⊢
      cases v with
      | ok t =>
        have ht : Memory.wf t.memory = true := by rw [(Verdict.ok_keepsMem ..).1 hv]; exact hs2
        simp [ht]
      | fault | fillFault => simp [hs2]
      | fill => simp [h, hs2]
      | wait | late => simp [h, h2]

section

variable {s : State} (h : Memory.wf s.memory = true)

include h

@[simp] theorem State.logRecord_wf (p : PartIx) (cls kind eng core arg : Nat) (payload : List Byte) (slot : Option (Fin 8)) :
    Memory.wf (s.logRecord p cls kind eng core arg payload slot).memory = true := by
  unfold State.logRecord
  dsimp only
  split
  · exact h
  · split
    · split <;> simp [h]
    · split <;> simp [h]

/-! ### Requests -/

@[simp] theorem State.performReq_wf (r : Req) (key : Nat) : Memory.wf (s.performReq r key).memory = true := by
  unfold State.performReq
  split
  · simpa using h
  · split
    · rename_i hp; simpa using Memory.wf_performAt h hp
    · simpa using h

@[simp] theorem State.seqRespFault_wf (c : CoreIx) (r : Req) (code entry level : Nat) :
    Memory.wf (s.seqRespFault c r code entry level).memory = true := by
  unfold State.seqRespFault
  extract_lets s1
  have h1 : Memory.wf s1.memory = true := by simpa [s1] using h
  (repeat' split) <;> simp [h1]

/-- A write of a table entry keeps the canonical form, whether it is made or refused. -/
@[simp] theorem State.tableWrite_wf (p : PartIx) (hx : Nat) (bs : List Byte) : Memory.wf (s.tableWrite p hx bs).1.memory = true := by
  have caches : ∀ (e : BitVec 512) (cs : List CoreIx) (t : State), (cs.foldl (fun s c => s.upd c fun k => k.hcSet hx e) t).memory = t.memory :=
    fun e cs t => foldl_memory (fun s c => s.upd_memory ..) cs t
  unfold State.tableWrite
  dsimp only
  split
  · rw [caches]; exact Memory.wf_writeBytes _ _ h
  · rw [caches]; simpa using h
  · exact h

theorem State.tableWrite_wf_of_eq {t : State} {p : PartIx} {hx : Nat} {bs : List Byte} {w : Option Walk} (e : s.tableWrite p hx bs = (t, w)) :
    Memory.wf t.memory = true := by
  have := s.tableWrite_wf h p hx bs
  rwa [e] at this

@[simp] theorem State.hsetFill_wf (c : CoreIx) (r : Req) (hx : Nat) : Memory.wf (s.hsetFill c r hx).memory = true := by
  unfold State.hsetFill
  split
  · exact h
  · split <;> (rename_i e; have ht := State.tableWrite_wf_of_eq h e; simp [ht])

@[simp] theorem State.stopWrite_wf (p : PartIx) (i e : Nat) (bs : List Byte) : Memory.wf (s.stopWrite p i e bs).memory = true := by
  unfold State.stopWrite
  dsimp only
  split
  · exact Memory.wf_writeBytes _ _ h
  · simpa using h
  · simpa using h
  · simpa using h

end

/-! ### The bodies of words -/

@[simp] theorem Verdict.keepsMem_ite (m : List Host.Cell) (c : Prop) [Decidable c] (v w : Verdict) :
    (if c then v else w).KeepsMem m ↔ if c then v.KeepsMem m else w.KeepsMem m := by
  split <;> rfl

@[simp] theorem State.memAccess_keepsMem (s : State) (i : Instr) (h : Hdr) (pc : Int) (addr : Word) (n align : Nat) (k : AccKind) (x : Dest)
    (scope : Nat) : (s.memAccess i h pc addr n align k x scope).KeepsMem s.memory := by
  unfold State.memAccess
  extract_lets c q wr at_ va
  split
  · trivial
  · split
    · trivial
    · split
      · trivial
      · split
        · trivial
        · split
          · trivial
          · split
            · trivial
            · dsimp only
              (repeat' split) <;> simp

@[simp] theorem State.crwRwin_keepsMem (s : State) (i : Instr) (h : Hdr) (pc : Int) (o v : Nat) : (s.crwRwin i h pc o v).KeepsMem s.memory := by
  simp [State.crwRwin]

@[simp] theorem State.axuJob_keepsMem (s : State) (i : Instr) (h : Hdr) (pc : Int) (j : AxuSnap → GenJob) :
    (s.axuJob i h pc j).KeepsMem s.memory := by
  simp [State.axuJob]

theorem State.bkeHandle_memory {s t : State} {hx : Nat} {types : List Nat} {right : HRight} {e : BitVec 512}
    (h : s.bkeHandle hx types right = .ok (e, t)) : t.memory = s.memory := by
  unfold State.bkeHandle at h
  split at h
  · cases h
  · cases h
  · cases h
  · rename_i hh
    split at h
    · cases h
    · cases h; exact State.handle_memory hh

/-- A handle a BKE word may not use ends the word with no next state. -/
theorem State.bkeHandle_error_keepsMem {s : State} {hx : Nat} {types : List Nat} {right : HRight} {v : Verdict}
    (h : s.bkeHandle hx types right = .error v) (m : List Host.Cell) : v.KeepsMem m := by
  unfold State.bkeHandle at h
  split at h
  · cases h; trivial
  · cases h; trivial
  · cases h; trivial
  · split at h
    · cases h; trivial
    · cases h

@[simp] theorem State.bke96_keepsMem (s : State) (i : Instr) (h : Hdr) (pc : Int) (hx align kind : Nat) (lat : List Nat) :
    (s.bke96 i h pc hx align kind lat).KeepsMem s.memory := by
  unfold State.bke96
  dsimp only
  split
  · rename_i e; exact State.bkeHandle_error_keepsMem e _
  · rename_i e
    have ht := State.bkeHandle_memory e
    (repeat' split) <;> simp [ht]

@[simp] theorem State.bkePort_keepsMem (s : State) (i : Instr) (h : Hdr) (pc : Int) (wk : Bool) (lane x : Nat) (bs : List Byte) (st : List Nat) :
    (s.bkePort i h pc wk lane x bs st).KeepsMem s.memory := by
  unfold State.bkePort
  dsimp only
  split <;> simp

/-! ### The shapes of words -/

section

variable {s : State} (h : Memory.wf s.memory = true)

include h

theorem State.seqAlu_wf (i : Instr) (hd : Hdr) (d : Fin 32) (rs : List (Fin 32)) (lat : Nat) (f : Seq → Word) (t : Seq → Bool) :
    Memory.wf (s.seqAlu i hd d rs lat f t).memory = true :=
  State.seqIssue_wf h i hd _ _ _ _ fun u => u.writeG_memory ..

theorem State.seqBranch_wf (i : Instr) (hd : Hdr) (a b : Fin 32) (off : BitVec 11) (c : Word → Word → Bool) :
    Memory.wf (s.seqBranch i hd a b off c).memory = true :=
  State.seqIssue_wf h i hd _ _ _ _ fun u => u.updSeq_memory ..

theorem State.amo_wf (i : Instr) (hd : Hdr) (fn : AtomFn) (d a b : Fin 32) (x : BitVec 2) (sc : BitVec 4) :
    Memory.wf (s.amo i hd fn d a b x sc).memory = true :=
  State.seqIssue_wf h i hd _ _ _ _ fun u => u.memAccess_keepsMem ..

theorem State.axuNow_wf (i : Instr) (hd : Hdr) (f : Core → Core) : Memory.wf (s.axuNow i hd f).memory = true :=
  State.engIssue_wf h .axu i hd _ _ fun u => u.updMe_memory ..

theorem State.axuStream_wf (i : Instr) (hd : Hdr) (a : Fin 16) (nl : BitVec 3) (ss : BitVec 2) (cnt : BitVec 8) (lat : Axu → List Nat) :
    Memory.wf (s.axuStream i hd a nl ss cnt lat).memory = true :=
  State.engIssue_wf h .axu i hd _ _ fun u => u.axuJob_keepsMem ..

theorem State.axuHandle_wf (i : Instr) (hd : Hdr) (hx : BitVec 16) (nl : BitVec 3) (x : BitVec 2) :
    Memory.wf (s.axuHandle i hd hx nl x).memory = true := by
  unfold State.axuHandle
  refine State.engIssue_wf h .axu i hd _ _ fun u => ?_
  dsimp only
  split
  · exact u.axuJob_keepsMem ..
  · split
    · trivial
    · trivial
    · trivial
    · exact u.axuJob_keepsMem ..
    · rename_i e; rw [← State.useHandle_memory e]; exact State.axuJob_keepsMem ..

theorem State.axuSet_wf (i : Instr) (hd : Hdr) (a b : Fin 16) (m : Nat) : Memory.wf (s.axuSet i hd a b m).memory = true := by
  unfold State.axuSet
  refine State.engIssue_wf h .axu i hd _ _ fun u => ?_
  split
  · trivial
  · exact u.axuJob_keepsMem ..

theorem State.bkeNow_wf (i : Instr) (hd : Hdr) (late : State → Option Nat) {f : State → State} (hf : ∀ t, (f t).memory = t.memory) :
    Memory.wf (s.bkeNow i hd late f).memory = true := by
  unfold State.bkeNow
  refine State.engIssue_wf h .bke i hd _ _ fun u => ?_
  split
  · trivial
  · exact hf u

theorem State.bkeTile_wf (i : Instr) (hd : Hdr) (hx : BitVec 16) (nl : BitVec 3) (x : BitVec 2) (steer : Bool) :
    Memory.wf (s.bkeTile i hd hx nl x steer).memory = true := by
  unfold State.bkeTile
  refine State.engIssue_wf h .bke i hd _ _ fun u => ?_
  dsimp only
  split
  · trivial
  · split
    · rename_i e; exact State.bkeHandle_error_keepsMem e _
    · rename_i e
      have ht := State.bkeHandle_memory e
      (repeat' split) <;> simp [ht]

/-- A word of the VEC checks its registers and its group; its body leaves memory as it is. -/
theorem State.vecIssue_wf (i : Instr) (hd : Hdr) (guard : Fin 8) (p : Shape → VPlan) (port : Bool) {body : Shape → VPlan → State → Verdict}
    (hb : ∀ sh q t, (body sh q t).KeepsMem t.memory) : Memory.wf (s.vecIssue i hd guard p port body).memory = true := by
  unfold State.vecIssue
  refine State.engIssue_wf h .vec i hd _ _ fun u => ?_
  have occupied : ∀ sh q bs, (body sh q (if q.datapath then u.occupy u.cur bs else u)).KeepsMem u.memory := fun sh q bs => by
    simpa using hb sh q (if q.datapath then u.occupy u.cur bs else u)
  simp [occupied]

theorem State.vecOp_wf (i : Instr) (hd : Hdr) (guard : Fin 8) (p : Shape → VPlan) (f : Shape → Core → VRes) :
    Memory.wf (s.vecOp i hd guard p f).memory = true :=
  State.vecIssue_wf h i hd guard p _ fun _ _ u => by simp

theorem State.cpeWord_wf (i : Instr) (hd : Hdr) (op : Nat) (d a b : Fin 32) (sc : BitVec 4) (rel acq : Bool) :
    Memory.wf (s.cpeWord i hd op d a b sc rel acq).memory = true := by
  unfold State.cpeWord
  refine State.seqIssue_wf h i hd _ _ _ _ fun u => ?_
  dsimp only
  split
  · trivial
  · split
    · trivial
    · split
      · trivial
      · split
        · trivial
        · have block : ∀ (t : State) (n align : Nat) (k : AccKind) (x : Dest) (scope : Nat) (addr : Word), t.memory = u.memory →
              (t.memAccess i hd s.me.seq.q.pc addr n align k x scope).KeepsMem u.memory := fun t n align k x scope addr ht => by
            rw [← ht]; exact t.memAccess_keepsMem ..
          split
          · split
            · split
              · trivial
              · exact block _ _ _ _ _ _ _ (by simp)
            · split
              · split
                · trivial
                · exact block _ _ _ _ _ _ _ (by simp)
              · rename_i e
                exact block _ _ _ _ _ _ _ (by simp [State.recordLoad_memory e])
          · exact block _ _ _ _ _ _ _ (by simp)

end

/-! ### Access generation and soft stops of the AXU -/

/-- What a generation step of the AXU answers keeps the canonical form. -/
def GenRes.Canonical : GenRes → Prop
  | .done s | .stopped s => Memory.wf s.memory = true
  | .stall => True

@[simp] theorem GenRes.done_canonical (s : State) : (GenRes.done s).Canonical ↔ Memory.wf s.memory = true := Iff.rfl

@[simp] theorem GenRes.stopped_canonical (s : State) : (GenRes.stopped s).Canonical ↔ Memory.wf s.memory = true := Iff.rfl

@[simp] theorem GenRes.stall_canonical : GenRes.stall.Canonical := trivial

@[simp] theorem GenRes.canonical_ite (c : Prop) [Decidable c] (a b : GenRes) :
    (if c then a else b).Canonical ↔ if c then a.Canonical else b.Canonical := by
  split <;> rfl

section

variable {s : State} (h : Memory.wf s.memory = true)

include h

@[simp] theorem State.softStop_wf (c : CoreIx) (job : GenJob) (code ia slot : Nat) (stq : Bool) :
    Memory.wf (s.softStop c job code ia slot stq).memory = true := by
  unfold State.softStop
  dsimp only
  split
  · simpa using h
  · exact State.stopWrite_wf (by simpa using h) ..

@[simp] theorem State.axuMemFault_wf (c : CoreIx) (job : GenJob) (code va ia slot : Nat) (stq : Bool) (entry level : Nat) :
    Memory.wf (s.axuMemFault c job code va ia slot stq entry level).memory = true := by
  unfold State.axuMemFault
  split
  · exact h
  · split
    · simpa using h
    · dsimp only
      split <;> simp [h]

theorem State.genLoad_canonical (c : CoreIx) (job : GenJob) (va ia n : Nat) (fill : Byte) : (s.genLoad c job va ia n fill).Canonical := by
  unfold State.genLoad
  dsimp only
  (repeat' split) <;> simp [h]

theorem State.genStore_canonical (c : CoreIx) (job : GenJob) (va ia n : Nat) : (s.genStore c job va ia n).Canonical := by
  unfold State.genStore
  dsimp only
  (repeat' split) <;> simp [h]

theorem State.startIndex_canonical (c : CoreIx) (job : GenJob) : (s.startIndex c job).Canonical := by
  unfold State.startIndex
  extract_lets k base first bytes va lines r ps own fixed oneBank cs
  clear_value oneBank
  split
  · simp [h]
  · split
    · trivial
    · split
      · trivial
      · rw [GenRes.done_canonical, State.upd_memory, foldl_memory]
        case hf =>
          intro t x
          dsimp only
          split <;> simp
        · show Memory.wf ((s.jobClash c job cs).claim c cs).memory = true
          simpa using h

theorem State.jobRead_canonical (c : CoreIx) (job : GenJob) (key va ia n : Nat) : (s.jobRead c job key va ia n).Canonical := by
  unfold State.jobRead
  dsimp only
  (repeat' split) <;> simp [h]

theorem State.csrStep_canonical (c : CoreIx) (job : GenJob) : (s.csrStep c job).Canonical := by
  unfold State.csrStep
  dsimp only
  split
  · split
    · rename_i t e
      have ht : (GenRes.done t).Canonical := by rw [← e]; exact State.genLoad_canonical h ..
      simp only [GenRes.done_canonical] at ht
      simp [ht]
    · exact State.genLoad_canonical h ..
  · split
    · simp [h]
    · split
      · split <;> simp [h]
      · exact State.jobRead_canonical h ..
      · exact State.jobRead_canonical h ..

theorem State.setStep_canonical (c : CoreIx) (job : GenJob) : (s.setStep c job).Canonical := by
  unfold State.setStep
  extract_lets k pa pb va na vb nb la lb at_ i0 j0 set past low
  split
  split
  · simp [h]
  · split
    · exact h
    · simp [h]
    · dsimp only
      (repeat' split) <;> simp [h, set]
    · split
      · split
        · split
          · trivial
          · exact h
        · trivial
      · split
        · trivial
        · exact h

theorem State.lateHandle_canonical (c : CoreIx) (job : GenJob) : (s.lateHandle c job).Canonical := by
  have go : ∀ (hd : BitVec 16) (nl : BitVec 3) (x : BitVec 2) (types : List Nat) (right : HRight), GenRes.Canonical
      (match s.useHandle c hd nl x types right job.snap.n with
      | .filling => .stopped ((s.fillStart c 1 hd.toNat job.pc).schedC (s.chron + 1) c .accessGeneration)
      | .wait => .stall
      | .hard code => .stopped (s.axuFault c job code)
      | .fill code e l =>
        .stopped (s.axuMemFault c job code 0 (64 * hd.toNat)
          (if storeWord job.instr then (s.core c).axu.stqAT else (s.core c).axu.ldqT) (storeWord job.instr) e l)
      | .ready lat s => .done (s.upd c fun k => { k with axu := k.axu.setHead { job with lat := lat } })) := by
    intro hd nl x types right
    split
    · simp [h]
    · trivial
    · simp [h]
    · simp [h]
    · rename_i e; simp [State.useHandle_memory e, h]
  unfold State.lateHandle
  dsimp only
  split
  · exact go ..
  · exact go ..
  · trivial

theorem State.ringStart_canonical (c : CoreIx) (job : GenJob) (lane cnt : Nat) : (s.ringStart c job lane cnt).Canonical := by
  unfold State.ringStart
  dsimp only
  (repeat' split) <;> simp [h]

theorem State.genOne_canonical (c : CoreIx) (job : GenJob) : (s.genOne c job).Canonical := by
  unfold State.genOne
  dsimp only
  split
  · exact State.ringStart_canonical h ..
  · split
    · exact State.lateHandle_canonical h ..
    · split
      · exact State.setStep_canonical h ..
      · split
        · exact State.csrStep_canonical h ..
        · split
          · exact State.startIndex_canonical h ..
          · split
            · trivial
            · simp [h]
            · simp [h]
            · have hr : ∀ va ia n fill, (if storeWord job.instr then s.genStore c job va ia n else s.genLoad c job va ia n fill).Canonical :=
                fun va ia n fill => by simp [State.genStore_canonical h, State.genLoad_canonical h]
              split
              · rename_i t e
                have ht : (GenRes.done t).Canonical := by rw [← e]; exact hr ..
                simpa using ht
              · exact hr ..

@[simp] theorem State.indexFault_wf (c : CoreIx) (r : Req) (id key code entry level : Nat) :
    Memory.wf (s.indexFault c r id key code entry level).memory = true := by
  unfold State.indexFault
  dsimp only
  (repeat' split) <;> simp [h]

@[simp] theorem State.axuRespFault_wf (c : CoreIx) (r : Req) (code entry level : Nat) :
    Memory.wf (s.axuRespFault c r code entry level).memory = true := by
  unfold State.axuRespFault
  dsimp only
  (repeat' split) <;> simp [h]

end

/-! ### Requests, their walks and their answers -/

section

variable {s : State} (h : Memory.wf s.memory = true)

include h

@[simp] theorem State.reqRecord_wf (p : PartIx) (code : Nat) (r : Req) (entry level : Nat) :
    Memory.wf (s.reqRecord p code r entry level).memory = true :=
  State.fqWrite_wf h ..

@[simp] theorem State.recordInput_wf (p : PartIx) (id : Nat) : Memory.wf (s.recordInput p id).memory = true := by
  unfold State.recordInput
  split
  · exact h
  · split <;> simp [h]

@[simp] theorem State.doReq_wf (p : PartIx) (r : Req) (key : Nat) : Memory.wf (s.doReq p r key).memory = true := by
  simp [State.doReq, h]

@[simp] theorem State.windowReq_wf (p : PartIx) (r : Req) (c : CoreIx) : Memory.wf (s.windowReq p r c).memory = true := by
  unfold State.windowReq
  (repeat' split) <;> simp [h]

@[simp] theorem State.physReq_wf (r : Req) : Memory.wf (s.physReq r).memory = true := by
  unfold State.physReq
  split
  · dsimp only
    split
    · simp [h]
    · split
      · rename_i hp
        have hm := Memory.wf_performAt (by simpa using h) hp
        split <;> simp [hm]
      · simp [h]
  · simp [h]

@[simp] theorem State.walkReq_wf (r : Req) : Memory.wf (s.walkReq r).memory = true := by
  unfold State.walkReq
  split
  · exact State.physReq_wf h _
  · dsimp only
    (repeat' split) <;> simp [h]

@[simp] theorem State.respondFault_wf (r : Req) (code entry level : Nat) : Memory.wf (s.respondFault r code entry level).memory = true := by
  unfold State.respondFault
  extract_lets s1
  have h1 : Memory.wf s1.memory = true := by simpa [s1] using h
  dsimp only
  (repeat' split) <;> simp [h1]

@[simp] theorem State.respondData_wf (r : Req) : Memory.wf (s.respondData r).memory = true := by
  unfold State.respondData
  split <;> simp [h]

@[simp] theorem State.respond_wf (r : Req) : Memory.wf (s.respond r).memory = true := by
  unfold State.respond
  split <;> simp [h]

@[simp] theorem State.ownBefore_wf (r : Req) : Memory.wf (s.ownBefore r).memory = true :=
  foldl_wf (fun _ _ ht => State.performReq_wf ht ..) _ h

@[simp] theorem State.linkFaultOf_wf (r : Req) (code : Nat) : Memory.wf (s.linkFaultOf r code).memory = true := by
  unfold State.linkFaultOf
  dsimp only
  (repeat' split) <;> simp [h]

@[simp] theorem State.complete_wf (id : Nat) (st : CplStatus) (bs : List Byte) : Memory.wf (s.complete id st bs).memory = true := by
  unfold State.complete
  split
  · simp [h]
  · split
    · exact h
    · extract_lets r bs' data r' s1 s2
      have h1 : Memory.wf s1.memory = true := by simpa [s1] using h
      have h2 : Memory.wf s2.memory = true := by
        simp only [s2]
        (repeat' split) <;> simp [h1]
      split
      · exact h
      · split
        · split
          · simp [h]
          · exact State.respond_wf h2 _
        · split <;> simp [h]

/-! ### The fault queue and requests from outside -/

theorem State.fqFlush_wf (p : PartIx) (fuel : Nat) : Memory.wf (s.fqFlush p fuel).memory = true := by
  induction fuel generalizing s with
  | zero => exact h
  | succ fuel ih =>
    unfold State.fqFlush
    dsimp only
    split
    · exact h
    · split
      · exact h
      · apply ih
        split <;> simp [h]

@[simp] theorem State.fqHead_wf (p : PartIx) (v : BitVec 32) : Memory.wf (s.fqHead p v).memory = true := by
  unfold State.fqHead
  dsimp only
  split
  · exact h
  · simp only [State.heldTraps_memory]
    exact State.fqFlush_wf (by simpa using h) ..

@[simp] theorem State.hostAccess_wf (fn : Fn) (off n : Nat) (k : AccKind) (tag : Nat) : Memory.wf (s.hostAccess fn off n k tag).memory = true := by
  unfold State.hostAccess
  dsimp only
  (repeat' split) <;> simp [h]

@[simp] theorem State.hostAtomic_wf (fn : Fn) (off n : Nat) (op : AtomFn) (b e tag : Nat) :
    Memory.wf (s.hostAtomic fn off n op b e tag).memory = true := by
  unfold State.hostAtomic
  split <;> simp [h]

@[simp] theorem State.peerAccess_wf (l : LinkIx) (q ia n : Nat) (k : AccKind) (tag : Nat) :
    Memory.wf (s.peerAccess l q ia n k tag).memory = true := by
  unfold State.peerAccess
  dsimp only
  (repeat' split) <;> simp [h]

@[simp] theorem State.retryRecord_wf (r : Req) (p : PartIx) : Memory.wf (s.retryRecord r p).memory = true := by
  unfold State.retryRecord
  split
  · split
    · exact Memory.wf_writeBytes _ _ h
    · simp [h]
    · simp [h]
    · simp [h]
  · simp [h]

/-! ### Commands of the CPE -/

@[simp] theorem State.cpePost_wf (c : CoreIx) (p : PartIx) (id : Nat) (x : Acc) (l : Loc) (bs : List Byte) :
    Memory.wf (s.cpePost c p id x l bs).memory = true := by
  unfold State.cpePost
  dsimp only
  split
  · exact Memory.wf_writeBytes _ _ h
  · simp [h]
  · simp [h]

@[simp] theorem State.sectorWrite_wf (c : CoreIx) (p : PartIx) (x : Cmd) (q : Nat) (outs : List Out) (st : List Nat) :
    Memory.wf (s.sectorWrite c p x q outs st).memory = true := by
  unfold State.sectorWrite
  dsimp only
  split
  · simp [h]
  · split
    · simp [h]
    · rename_i hw
      simp only [State.sectorEnd_memory, State.countStats_memory]
      refine foldl_wf (fun _ _ ht => State.cpePost_wf ht ..) _ ?_
      rw [State.windows_memory hw]
      exact h

theorem State.packPend_wf_of_eq {t : State} {p : PartIx} {x : Cmd} {pend : Bool} {w : Option Walk} (e : s.packPend p x pend = (t, w)) :
    Memory.wf t.memory = true :=
  State.tableWrite_wf_of_eq h e

theorem State.sectorRun_wf (c : CoreIx) (p : PartIx) (x : Cmd) (q : Nat) (groups : List (List Byte)) :
    Memory.wf (s.sectorRun c p x q groups).memory = true := by
  unfold State.sectorRun
  extract_lets src b
  split
  · exact State.sectorWrite_wf h ..
  · split
    · simp [h]
    · exact State.sectorWrite_wf h ..
  · split
    · split
      · simp [h]
      · split
        · rename_i e; simp [State.packPend_wf_of_eq h e]
        · rename_i e
          exact State.sectorWrite_wf (by simpa using State.packPend_wf_of_eq h e) ..
    · split
      · split
        · rename_i e; simp [State.packPend_wf_of_eq h e]
        · rename_i e; simp [State.packPend_wf_of_eq h e]
      · exact State.sectorWrite_wf h ..
  · exact State.sectorWrite_wf h ..

@[simp] theorem State.cmdFaults_wf (c : CoreIx) (p : PartIx) (x : Cmd) (fs : List SecFault) :
    Memory.wf (s.cmdFaults c p x fs).memory = true :=
  foldl_wf (fun _ _ ht => State.fqWrite_wf ht ..) _ h

theorem State.cmdRecord_wf (c : CoreIx) (p : PartIx) (x : Cmd) : Memory.wf (s.cmdRecord c p x).memory = true := by
  unfold State.cmdRecord
  extract_lets fault a
  have hf : ∀ code e l, Memory.wf (fault s code e l).memory = true := by
    intro code e l
    simp only [fault]
    (repeat' split) <;> simp [h]
  split
  · exact hf ..
  · split
    · split
      · simp [h]
      · rename_i hw
        have ht := State.windows_memory hw
        simp [ht, h]
    · split <;> simp [h]
    · exact hf ..
    · simp [h]

end

/-! ### Fixes and their releases -/

theorem State.chooseCourse_memory_of_eq {s t : State} {p : PartIx} {cs : List CoreIx} {n : Nat} {d : LegDesc} {c : Option Nat}
    (e : s.chooseCourse p cs n d = (c, t)) : t.memory = s.memory := by
  rw [← s.chooseCourse_memory p cs n d, e]

section

variable {s : State} (h : Memory.wf s.memory = true)

include h

@[simp] theorem State.fixRel_wf (p : PartIx) (leg course : Nat) : Memory.wf (s.fixRel p leg course).memory = true := by
  unfold State.fixRel
  extract_lets q waits log
  have hl : ∀ t fs, Memory.wf t.memory = true → Memory.wf (log t fs).memory = true := by
    intro t fs ht
    simp only [log]
    split <;> simp [ht]
  (repeat' split) <;> simp [h, hl]

theorem State.fixDone_wf (p : PartIx) (g : GroupIx) : Memory.wf (s.fixDone p g).memory = true := by
  unfold State.fixDone
  extract_lets cs start s1 hth
  have h1 : Memory.wf s1.memory = true := by
    refine foldl_wf (fun t c ht => ?_) _ h
    split <;> simp [ht]
  split
  · exact h
  · split
    · exact h
    · split
      · exact h
      · split
        · exact h
        · split
          · rename_i e
            simp [State.chooseCourse_memory_of_eq e, h1]
          · rename_i e
            have ht := State.chooseCourse_memory_of_eq e
            extract_lets s2 fab ck held f root s3 s4 wrong s5 s6
            have h4 : Memory.wf s4.memory = true := by
              simp only [s4, s3, s2]
              split <;> simp [ht, h1]
            have h6 : Memory.wf s6.memory = true := by
              simp only [s6, s5]
              (repeat' split) <;> simp [h4]
            (repeat' split) <;> simp [h6]

/-! ### The Migrator -/

@[simp] theorem State.mgWrite_wf (r : List Byte) : Memory.wf (s.mgWrite r).memory = true := by
  unfold State.mgWrite
  dsimp only
  (repeat' split) <;> simp [h]

@[simp] theorem State.mgEnd_wf (c : MgCmd) (status len pa : Nat) : Memory.wf (s.mgEnd c status len pa).memory = true := by
  unfold State.mgEnd
  dsimp only
  split <;> simp [h]

@[simp] theorem State.mgHead_wf (v : BitVec 32) : Memory.wf (s.mgHead v).memory = true := by
  unfold State.mgHead
  dsimp only
  split
  · exact h
  · simp only [State.migPump_memory]
    exact foldl_wf (fun _ _ ht => State.mgWrite_wf ht _) _ h

@[simp] theorem State.moveFault_wf (c : MgCmd) (p : PartIx) (code entry level : Nat) :
    Memory.wf (s.moveFault c p code entry level).memory = true := by
  unfold State.moveFault
  split <;> simp [h]

theorem State.moveStart_wf (c : MgCmd) : Memory.wf (s.moveStart c).memory = true := by
  unfold State.moveStart
  split
  · dsimp only
    split
    · split <;> simp [h]
    · split
      · simp [h]
      · split
        · exact State.mgEnd_wf h ..
        split
        · exact State.mgEnd_wf h ..
        split
        · exact State.mgEnd_wf h ..
        split
        · exact State.mgEnd_wf h ..
        · rename_i e
          have ht := State.moveDest_memory e
          (repeat' split) <;> simp [Memory.wf_writeBytes, ht, h]
  · exact State.mgEnd_wf h ..

theorem State.moveEnd_wf (m : Moving) (p : PartIx) : Memory.wf (s.moveEnd m p).memory = true := by
  unfold State.moveEnd
  extract_lets c e src back data image len s1 loc s2
  have hb : ∀ st, Memory.wf (back s st).memory = true := by
    intro st
    simp only [back]
    split <;> simp [Memory.wf_writeBytes, h]
  have h1 : Memory.wf s1.memory = true := by
    simp only [s1]
    split <;> simp [Memory.wf_writeBytes, h]
  have h2 : Memory.wf s2.memory = true := Memory.wf_writeBytes _ _ h1
  split
  · exact hb _
  · split
    · simp [hb]
    · split
      · exact hb _
      · split <;> simp [h2]

/-! ### Slots of the Lookout -/

@[simp] theorem State.accept_wf (p : PartIx) (j : Fin 8) : Memory.wf (s.accept p j).memory = true := by
  unfold State.accept
  dsimp only
  (repeat' split) <;> simp [h]

@[simp] theorem State.launchWord_wf (p : PartIx) (go ab : Bool) (tag : BitVec 8) : Memory.wf (s.launchWord p go ab tag).memory = true := by
  unfold State.launchWord
  dsimp only
  (repeat' split) <;> simp [h]

@[simp] theorem State.loadSeg_wf (c : CoreIx) (j : Fin 8) (b : List Byte) (e : CoreEnt) (g : Seg) :
    Memory.wf (s.loadSeg c j b e g).memory = true := by
  unfold State.loadSeg
  dsimp only
  split
  · exact Memory.wf_writeBytes _ _ h
  · split
    · exact Memory.wf_writeBytes _ _ h
    · exact Memory.wf_writeBytes _ _ h
    · exact Memory.wf_zeroRange _ _ h

@[simp] theorem State.loadCore_wf (c : CoreIx) (j : Fin 8) (b : List Byte) (l : Layout) (e : CoreEnt) :
    Memory.wf (s.loadCore c j b l e).memory = true :=
  foldl_wf (fun _ _ ht => State.loadSeg_wf ht ..) _ (Memory.wf_zeroRange _ _ h)

theorem State.loadHandles_wf (p : PartIx) (hs : List (Nat × List Byte)) : Memory.wf (s.loadHandles p hs).1.memory = true := by
  induction hs generalizing s with
  | nil => exact h
  | cons x r ih =>
    unfold State.loadHandles
    split
    · rename_i e; exact ih (State.tableWrite_wf_of_eq h e)
    · rename_i e; exact State.tableWrite_wf_of_eq h e

@[simp] theorem State.loadFault_wf (p : PartIx) (j : Fin 8) (hx code entry level : Nat) :
    Memory.wf (s.loadFault p j hx code entry level).memory = true := by
  unfold State.loadFault
  split <;> simp [h]

@[simp] theorem State.mailNow_wf (p : PartIx) (off n v : Nat) : Memory.wf (s.mailNow p off n v).memory = true := by
  unfold State.mailNow
  dsimp only
  split <;> simp [h]

@[simp] theorem State.mailWrite_wf (p : PartIx) (off n v : Nat) : Memory.wf (s.mailWrite p off n v).memory = true := by
  unfold State.mailWrite
  split
  · cases e : s.shadowed p off n v with
    | none => exact State.mailNow_wf h ..
    | some t =>
      rw [Option.getD_some, State.shadowed_memory e]
      exact h
  · exact h

end

/-! ### Loading a context, and switching -/

section

variable {s : State} (h : Memory.wf s.memory = true)

include h

theorem State.load_wf (p : PartIx) (j : Fin 8) : Memory.wf (s.load p j).memory = true := by
  unfold State.load
  extract_lets x b hs again
  split
  · extract_lets es s1
    have h1 : Memory.wf s1.memory = true := foldl_wf (fun _ _ ht => State.loadCore_wf ht ..) _ h
    have hl := State.loadHandles_wf h1 p hs
    split
    · rename_i e; rw [e] at hl; simpa [again] using hl
    · rename_i e; rw [e] at hl; exact State.loadFault_wf hl ..
    · rename_i e; rw [e] at hl; simpa using hl
    · rename_i t e
      rw [e] at hl
      have hp := t.pinScan_memory p j
      split
      · rename_i e; rw [e] at hp; simp only at hp hl; simp [again, hp, hl]
      · rename_i e; rw [e] at hp; simp only at hp hl; split <;> simp [hp, hl]
      · rename_i e
        rw [e] at hp
        simp only at hp hl
        simp only [State.kickHelm_memory, State.slotTo_memory, State.unname_memory, State.updPart_memory]
        rw [foldl_memory fun s c => s.upd_memory .., hp]
        exact hl
  · simpa using h

theorem State.switchEnd_wf (p : PartIx) : Memory.wf (s.switchEnd p).memory = true := by
  unfold State.switchEnd
  extract_lets q old inc out s1 s2 back s3 s4 ws s5 s6 s7 s8 s9
  clear_value inc out
  have h2 : Memory.wf s2.memory = true := by
    simp only [s2]
    split <;> simp [s1, h]
  have h4 : Memory.wf s4.memory = true := by
    simp only [s4]
    split
    · simpa [s3] using h2
    · split <;> simp [s3, h2]
  have h6 : Memory.wf s6.memory = true := foldl_wf (fun _ _ ht => State.mailNow_wf ht ..) _ (by simpa [s5] using h4)
  have h9 : Memory.wf s9.memory = true := by
    simp only [s9, s8, s7]
    (repeat' split) <;> simp [h6]
  split
  · exact h
  · simpa using h9

/-! ### Halting a partition -/

@[simp] theorem State.rowBeatsEnd_wf (c : CoreIx) : Memory.wf (s.rowBeatsEnd c).memory = true := by
  refine foldl_wf (fun t w ht => foldl_wf (fun u b hu => ?_) _ ht) _ h
  split
  · exact Memory.wf_writeBytes _ _ hu
  · exact hu

@[simp] theorem State.haltSkidded_wf (p : PartIx) (x : Halting) : Memory.wf (s.haltSkidded p x).memory = true := by
  unfold State.haltSkidded
  extract_lets cs s1 s2 s3 s4
  have h1 : Memory.wf s1.memory = true := foldl_wf (fun _ c ht => State.rowBeatsEnd_wf ht c) _ h
  have h3 : s3.memory = s1.memory := (foldl_memory (fun s c => s.upd_memory ..) _ _).trans (s1.abandon_memory _)
  simpa [s4, h3] using h1

@[simp] theorem State.haltRecord_wf (p : PartIx) (x : Halting) (c : CoreIx) (e : Nat) : Memory.wf (s.haltRecord p x c e).memory = true := by
  unfold State.haltRecord
  dsimp only
  exact State.stopWrite_wf (by simpa using h) ..

theorem State.haltRest_wf (p : PartIx) (x : Halting) (us : List (CoreIx × Nat)) (phase : Nat) {k : State → State}
    (hk : ∀ t, Memory.wf t.memory = true → Memory.wf (k t).memory = true) : Memory.wf (s.haltRest p x us phase k).memory = true := by
  unfold State.haltRest
  extract_lets s1
  have h1 : Memory.wf s1.memory = true := foldl_wf (fun _ _ ht => State.haltRecord_wf ht ..) _ h
  split
  · simpa using h1
  · exact hk _ h1

theorem State.partitionHalt_wf (p : PartIx) : Memory.wf (s.partitionHalt p).memory = true := by
  have last : ∀ x (t : State), Memory.wf t.memory = true → Memory.wf (t.haltEnd p x).memory = true := fun x t ht => by simpa using ht
  unfold State.partitionHalt
  split
  · exact h
  · split
    · simpa using h
    · exact State.haltSkidded_wf h ..
    · exact State.haltRest_wf h _ _ _ _ fun t ht => State.haltRest_wf ht _ _ _ _ (last _)
    · exact State.haltRest_wf h _ _ _ _ fun t ht => State.haltRest_wf ht _ _ _ _ (last _)
    · exact State.haltRest_wf h _ _ _ _ (last _)

/-! ### What the links deliver -/

@[simp] theorem State.tkgiveOn_wf (l : LinkIx) (q core : Nat) (j : Fin 4) (c : Nat) : Memory.wf (s.tkgiveOn l q core j c).memory = true := by
  unfold State.tkgiveOn
  split
  · split
    · simpa using h
    · split
      · simpa using h
      · extract_lets s'
        have hs : ∀ t, s' = some t → t.memory = s.memory := by
          intro t e
          simp only [s'] at e
          split at e
          · cases e; simp
          · exact State.creditLink_memory e
        clear_value s'
        split
        · simpa using h
        · exact State.logRecord_wf (by rwa [hs _ rfl]) ..
  · simpa using h

theorem State.fabricOn_wf {f : State → PartIx → State} (hf : ∀ t p, Memory.wf t.memory = true → Memory.wf (f t p).memory = true) (q : Nat)
    (to_ : Part → Bool) : Memory.wf (s.fabricOn q to_ f).memory = true := by
  unfold State.fabricOn
  dsimp only
  split
  · simpa using h
  · exact foldl_wf hf _ h

@[simp] theorem State.message_wf (l : LinkIx) (q mcode arg pay : Nat) : Memory.wf (s.message l q mcode arg pay).memory = true := by
  have hrel : Memory.wf (s.fabricOn q (fun x => x.fxType == 1 && x.fxParent == l.val)
      fun s p => s.fixRel p (fld arg 15 0) (fld arg 18 16)).memory = true :=
    State.fabricOn_wf h (fun _ _ ht => State.fixRel_wf ht ..) ..
  unfold State.message
  split
  · split <;> simp [h]
  · simp [h]
  · split <;> simp [h]
  · exact State.fabricOn_wf h (fun _ _ ht => by simpa using ht) ..
  · split
    · simpa using h
    · exact hrel
  · simp [h]
  · split <;> simp [h]
  · split <;> simp [h]
  · simp [h]

@[simp] theorem State.deliver_wf (l : LinkIx) (q : Nat) (t : Tlp) : Memory.wf (s.deliver l q t).memory = true := by
  unfold State.deliver
  split
  · exact State.peerAccess_wf h ..
  · exact State.complete_wf h ..
  · exact State.message_wf h ..
  · split <;> simp [h]

@[simp] theorem State.deliverOrWait_wf (l : LinkIx) (q : Nat) (t : Tlp) : Memory.wf (s.deliverOrWait l q t).memory = true := by
  unfold State.deliverOrWait
  dsimp only
  split <;> simp [h]

@[simp] theorem State.drain_wf (l : LinkIx) (fuel : Nat) : Memory.wf (s.drain l fuel).memory = true := by
  induction fuel generalizing s with
  | zero => exact h
  | succ fuel ih =>
    unfold State.drain
    dsimp only
    split
    · exact h
    · split
      · exact h
      · exact ih (State.deliver_wf (by simpa using h) ..)

@[simp] theorem State.pump_wf (l : LinkIx) (fuel : Nat) : Memory.wf (s.pump l fuel).memory = true := by
  induction fuel generalizing s with
  | zero => exact h
  | succ fuel ih =>
    unfold State.pump
    dsimp only
    split
    · exact h
    · split
      · simpa using h
      · apply ih
        split <;> simp [h]

@[simp] theorem State.resumeLink_wf (l : LinkIx) : Memory.wf (s.resumeLink l).memory = true :=
  State.pump_wf (State.drain_wf h ..) ..

@[simp] theorem State.resumeAll_wf : Memory.wf s.resumeAll.memory = true := by
  unfold State.resumeAll
  split
  · exact h
  · exact foldl_wf (fun _ _ ht => State.resumeLink_wf ht _) _ h

@[simp] theorem State.frzOff_wf : Memory.wf s.frzOff.memory = true := by
  unfold State.frzOff
  split <;> simp [h]

/-! ### Replay, and the warm reset -/

theorem State.inject_wf (p : PartIx) (r : LogRec) : Memory.wf (s.inject p r).memory = true := by
  unfold State.inject
  extract_lets send core j c
  have hs : ∀ t who k n, t.memory = s.memory → Memory.wf (send t who k n).memory = true := by
    intro t who k n ht
    simp only [send]
    exact State.walkReq_wf (by simpa [ht] using h) _
  split
  · exact hs _ _ _ _ rfl
  · exact hs _ _ _ _ rfl
  · exact hs _ _ _ _ (by simp)
  · split
    · split
      · simpa using h
      · cases e : s.creditLink p ⟨core, _⟩ j c with
        | none => exact h
        | some t =>
          rw [Option.getD_some, State.creditLink_memory e]
          exact h
    · exact h

@[simp] theorem State.warm_wf (busy : Bool) : Memory.wf (s.warm busy).memory = true :=
  Memory.wf_filter _ h

/-! ### Writes of the host's registers -/

@[simp] theorem State.helmWrite_wf (off : Nat) (x : Wr) : Memory.wf (s.helmWrite off x).memory = true := by
  unfold State.helmWrite
  (repeat' split) <;> simp [h]

@[simp] theorem State.pageWrite_wf (p : PartIx) (off : Nat) (x : Wr) : Memory.wf (s.pageWrite p off x).memory = true := by
  unfold State.pageWrite
  (repeat' split) <;> simp [h]

@[simp] theorem State.partWrite_wf (off : Nat) (x : Wr) : Memory.wf (s.partWrite off x).memory = true := by
  unfold State.partWrite
  split
  · refine foldl_wf (fun t i ht => ?_) _ h
    dsimp only
    split <;> simpa using ht
  · split <;> simp [h]

@[simp] theorem State.migWrite_wf (off : Nat) (x : Wr) : Memory.wf (s.migWrite off x).memory = true := by
  unfold State.migWrite
  dsimp only
  (repeat' split) <;> simp [h]

@[simp] theorem State.pfWrite_wf (off : Nat) (x : Wr) : Memory.wf (s.pfWrite off x).memory = true := by
  unfold State.pfWrite
  (repeat' split) <;> simp [h]

@[simp] theorem State.regWriteDw_wf (fn : Fn) (bar : Bar) (off n v : Nat) : Memory.wf (s.regWriteDw fn bar off n v).memory = true := by
  unfold State.regWriteDw
  dsimp only
  (repeat' split) <;> simp [h]

@[simp] theorem State.regWrite_wf (fn : Fn) (bar : Bar) (fuel off n v : Nat) :
    Memory.wf (s.regWrite fn bar fuel off n v).memory = true := by
  induction fuel generalizing s off n v with
  | zero => exact h
  | succ fuel ih =>
    unfold State.regWrite
    dsimp only
    split
    · exact h
    · exact ih (State.regWriteDw_wf h ..) ..

/-! ### Words in flight -/

@[simp] theorem State.writeBeats_wf (c : CoreIx) (w : Inflight) : Memory.wf (s.writeBeats c w).memory = true := by
  unfold State.writeBeats
  split
  refine foldl_wf (fun t b ht => ?_) _ (by simpa using h)
  dsimp only
  rw [State.countStats_memory]
  exact Memory.wf_writeBytes _ _ ht

theorem State.wordEvent_wf (c : CoreIx) (id : Nat) : Memory.wf (s.wordEvent c id).memory = true := by
  unfold State.wordEvent
  dsimp only
  (repeat' split) <;> simp [h]

theorem State.seqReserved_wf (x : Hdr) : Memory.wf (s.seqReserved x).memory = true := by
  unfold State.seqReserved
  dsimp only
  (repeat' split) <;> simp [h]

end

/-! ## What every word and every event does to memory -/

/-- A next state, where the outcome is one, has its memory in canonical form. -/
def NextCanonical : Host.Outcome State Fault Refusal → Prop
  | .next t => Memory.wf t.memory = true
  | _ => True

@[simp] theorem nextCanonical_next (t : State) : NextCanonical (.next t) ↔ Memory.wf t.memory = true := Iff.rfl

theorem nextCanonical_ite {c : Prop} [Decidable c] {o o' : Host.Outcome State Fault Refusal} (h : NextCanonical o) (h' : NextCanonical o') :
    NextCanonical (if c then o else o') := by
  split <;> assumption

theorem execColdReset_canonical (s : State) : NextCanonical (execColdReset s) :=
  rfl

section

variable {s : State} (hm : Memory.wf s.memory = true)

include hm

/-! ### Words of the sequencer -/

theorem execLd_canonical (h : Hdr) (d a : Fin 32) (z : BitVec 2) (imm : BitVec 9) : NextCanonical (execLd h d a z imm s) :=
  State.seqIssue_wf hm _ _ _ _ _ _ fun t => by simp

theorem execLdc_canonical (h : Hdr) (d a : Fin 32) (z : BitVec 2) (imm : BitVec 9) : NextCanonical (execLdc h d a z imm s) :=
  State.seqIssue_wf hm _ _ _ _ _ _ fun t => by simp

theorem execSt_canonical (h : Hdr) (d a : Fin 32) (z : BitVec 2) (imm : BitVec 9) : NextCanonical (execSt h d a z imm s) :=
  State.seqIssue_wf hm _ _ _ _ _ _ fun t => by simp

theorem execFaddx_canonical (h : Hdr) (a b : Fin 32) (x : BitVec 2) (sc : BitVec 4) : NextCanonical (execFaddx h a b x sc s) :=
  State.seqIssue_wf hm _ _ _ _ _ _ fun t => by simp

theorem execXrd_canonical (h : Hdr) (d a : Fin 32) (m : BitVec 3) (x : BitVec 2) (sc : BitVec 4) : NextCanonical (execXrd h d a m x sc s) :=
  State.seqIssue_wf hm _ _ _ _ _ _ fun t => by simp

theorem execFence_canonical (h : Hdr) (k : BitVec 2) (sc : BitVec 4) : NextCanonical (execFence h k sc s) := by
  refine State.seqIssue_wf hm _ _ _ _ _ _ fun t => ?_
  dsimp only
  (repeat' split) <;> simp

theorem execNop_canonical (h : Hdr) : NextCanonical (execNop h s) := by
  unfold execNop
  simp only [nextCanonical_next]
  split
  · exact State.seqIssue_wf hm _ _ _ _ _ _ fun t => by simp
  · exact State.engIssue_wf hm _ _ _ _ _ fun t => by simp

theorem execIdle_canonical (h : Hdr) (c : BitVec 21) : NextCanonical (execIdle h c s) :=
  State.engIssue_wf hm _ _ _ _ _ fun t => by simp

theorem execTkg_canonical (w : BitVec 3) (p : BitVec 4) : NextCanonical (execTkg w p s) :=
  State.seqIssue_wf hm _ _ _ _ _ _ fun t => by simp

theorem execTkt_canonical (w : BitVec 3) (p : BitVec 4) : NextCanonical (execTkt w p s) :=
  State.seqIssue_wf hm _ _ _ _ _ _ fun t => by simp

theorem execTkq_canonical (w : BitVec 3) (d a : Fin 32) (imm : BitVec 11) : NextCanonical (execTkq w d a imm s) :=
  State.seqIssue_wf hm _ _ _ _ _ _ fun t => by simp

theorem execQstart_canonical (h : Hdr) (a : Fin 32) (m : BitVec 3) : NextCanonical (execQstart h a m s) :=
  State.seqIssue_wf hm _ _ _ _ _ _ fun t => by simp

theorem execQstop_canonical (h : Hdr) (a : Fin 32) (m : BitVec 3) : NextCanonical (execQstop h a m s) :=
  State.seqIssue_wf hm _ _ _ _ _ _ fun t => by simp

theorem execQstat_canonical (h : Hdr) (d a : Fin 32) (e : BitVec 3) : NextCanonical (execQstat h d a e s) :=
  State.seqIssue_wf hm _ _ _ _ _ _ fun t => by simp

theorem execFix_canonical (w : BitVec 3) (a : Fin 32) (imm : BitVec 11) : NextCanonical (execFix w a imm s) := by
  refine State.seqIssue_wf hm _ _ _ _ _ _ fun t => ?_
  dsimp only
  (repeat' split) <;> simp

theorem execSize_canonical (h : Hdr) (a : Fin 32) (imm : BitVec 11) : NextCanonical (execSize h a imm s) :=
  State.seqIssue_wf hm _ _ _ _ _ _ fun t => by simp

theorem execHqry_canonical (h : Hdr) (d a : Fin 32) (f : BitVec 6) : NextCanonical (execHqry h d a f s) := by
  refine State.seqIssue_wf hm _ _ _ _ _ _ fun t => ?_
  dsimp only
  split
  · rename_i e; simp [State.handle_memory e]
  · trivial
  · trivial
  · trivial

theorem execCrr_canonical (h : Hdr) (d : Fin 32) (off : BitVec 8) : NextCanonical (execCrr h d off s) :=
  State.seqIssue_wf hm _ _ _ _ _ _ fun t => by simp

theorem execCrw_canonical (h : Hdr) (a : Fin 32) (off : BitVec 8) : NextCanonical (execCrw h a off s) :=
  State.seqIssue_wf hm _ _ _ _ _ _ fun t => by simp

theorem execTrap_canonical (h : Hdr) (n : BitVec 7) : NextCanonical (execTrap h n s) :=
  State.seqIssue_wf hm _ _ _ _ _ _ fun t => by simp

theorem execSret_canonical (h : Hdr) : NextCanonical (execSret h s) :=
  State.seqIssue_wf hm _ _ _ _ _ _ fun t => by simp

theorem execHalt_canonical (h : Hdr) (a : Fin 32) : NextCanonical (execHalt h a s) :=
  State.seqIssue_wf hm _ _ _ _ _ _ fun t => by simp

theorem execHset_canonical (h : Hdr) (a b : Fin 32) : NextCanonical (execHset h a b s) := by
  refine State.seqIssue_wf hm _ _ _ _ _ _ fun t => ?_
  dsimp only
  split
  · trivial
  · have ha := t.memAccess_keepsMem (.hset h a b) h s.me.seq.q.pc (t.me.seq.gpr b) 64 64 .read
      (.hset ((t.me.seq.gpr a).toNat % 2 ^ 16)) 1
    split
    · rename_i u e
      rw [e] at ha
      simpa using ha
    · exact ha

theorem execScanr_canonical (h : Hdr) (d a : Fin 32) : NextCanonical (execScanr h d a s) :=
  State.seqIssue_wf hm _ _ _ _ _ _ fun t => by simp

theorem execWrep_canonical (h : Hdr) (a b : Fin 32) : NextCanonical (execWrep h a b s) :=
  State.seqIssue_wf hm _ _ _ _ _ _ fun t => by simp

theorem execJal_canonical (h : Hdr) (off : BitVec 21) : NextCanonical (execJal h off s) :=
  State.seqIssue_wf hm _ _ _ _ _ _ fun t => by simp

theorem execJalr_canonical (h : Hdr) (d a : Fin 32) (imm : BitVec 11) : NextCanonical (execJalr h d a imm s) :=
  State.seqIssue_wf hm _ _ _ _ _ _ fun t => by simp

/-! ### Words of the AXU -/

theorem execLoop_canonical (h : Hdr) (nl : BitVec 3) (l : BitVec 4) : NextCanonical (execLoop h nl l s) := by
  refine State.engIssue_wf hm _ _ _ _ _ fun t => ?_
  dsimp only
  split <;> simp

theorem execRing_canonical (h : Hdr) (a b : Fin 16) (l : BitVec 5) (cn : BitVec 8) : NextCanonical (execRing h a b l cn s) := by
  refine State.engIssue_wf hm _ _ _ _ _ fun t => ?_
  dsimp only
  (repeat' split) <;> simp

theorem execRact_canonical (h : Hdr) (win : Fin 4) (b : Fin 32) (a : Fin 16) : NextCanonical (execRact h win b a s) := by
  refine State.engIssue_wf hm _ _ _ _ _ fun t => ?_
  dsimp only
  (repeat' split) <;> simp

theorem execRcon_canonical (h : Hdr) (win : Fin 4) (b : Fin 32) (a : Fin 16) (o : BitVec 2) (d : BitVec 5) :
    NextCanonical (execRcon h win b a o d s) := by
  refine State.engIssue_wf hm _ _ _ _ _ fun t => ?_
  extract_lets c k q t' n lane bke x dist cs
  split
  · trivial
  split
  · trivial
  split
  · trivial
  split
  · trivial
  split
  · split
    · trivial
    split
    · trivial
    split
    · trivial
    split
    · trivial
    split
    · trivial
    extract_lets data s1 s2 s3 beats waits
    have h2 : s2.memory = t.memory := by
      simp only [s2]
      split <;> simp [s1]
    have h3 : s3.memory = t.memory := by
      rw [← h2, ← State.claim_memory s2 c cs]
      refine foldl_memory (fun u j => ?_) _ _
      split <;> simp
    simp [h3]
  · trivial

theorem execRpre_canonical (h : Hdr) (win : Fin 4) (b : Fin 32) (a : Fin 16) : NextCanonical (execRpre h win b a s) := by
  refine State.engIssue_wf hm _ _ _ _ _ fun t => ?_
  dsimp only
  (repeat' split) <;> simp

theorem execRstat_canonical (h : Hdr) (win : Fin 4) (b : Fin 32) (a : Fin 16) : NextCanonical (execRstat h win b a s) := by
  refine State.engIssue_wf hm _ _ _ _ _ fun t => ?_
  dsimp only
  split <;> simp

/-! ### Words of the BKE -/

theorem execBwin_canonical (h : Hdr) (hd : BitVec 16) (nl : BitVec 3) (x : BitVec 2) : NextCanonical (execBwin h hd nl x s) := by
  refine State.engIssue_wf hm _ _ _ _ _ fun t => ?_
  dsimp only
  split
  · trivial
  · split
    · trivial
    · split
      · rename_i e; exact State.bkeHandle_error_keepsMem e _
      · rename_i e
        have h1 := State.bkeHandle_memory e
        split
        · rename_i e; exact State.bkeHandle_error_keepsMem e _
        · rename_i e
          have h2 := (State.bkeHandle_memory e).trans h1
          (repeat' split) <;> simp [h2]

theorem execBwinCfg_canonical (h : Hdr) (hd : BitVec 16) : NextCanonical (execBwinCfg h hd s) :=
  State.engIssue_wf hm _ _ _ _ _ fun t => by simp

theorem execCbld_canonical (h : Hdr) (hd : BitVec 16) (k : Fin 8) : NextCanonical (execCbld h hd k s) :=
  State.engIssue_wf hm _ _ _ _ _ fun t => by simp

theorem execBclr_canonical (h : Hdr) : NextCanonical (execBclr h s) :=
  State.bkeNow_wf hm _ _ _ fun t => t.updMe_memory _

theorem execMulb_canonical (h : Hdr) (cbb : BitVec 3) : NextCanonical (execMulb h cbb s) := by
  refine State.engIssue_wf hm _ _ _ _ _ fun t => ?_
  dsimp only
  (repeat' split) <;> simp

theorem execMacd_canonical (h : Hdr) (l : BitVec 5) (f : BitVec 2) (nl : BitVec 3) (x : BitVec 2) : NextCanonical (execMacd h l f nl x s) := by
  refine State.engIssue_wf hm _ _ _ _ _ fun t => ?_
  dsimp only
  (repeat' split) <;> simp

theorem execZswap_canonical (h : Hdr) : NextCanonical (execZswap h s) := by
  unfold execZswap
  extract_lets busy s' waits
  have hs : Memory.wf s'.memory = true := State.bkeNow_wf hm _ _ _ fun t => by simp
  simpa using hs

theorem execZdrain_canonical (h : Hdr) (a b : Fin 256) (f : BitVec 3) (ss : BitVec 2) : NextCanonical (execZdrain h a b f ss s) := by
  refine State.engIssue_wf hm _ _ _ _ _ fun t => ?_
  dsimp only
  (repeat' split) <;> simp

theorem execZclr_canonical (h : Hdr) (a b : Fin 256) : NextCanonical (execZclr h a b s) :=
  State.bkeNow_wf hm _ _ _ fun t => t.updMe_memory _

theorem execZspill_canonical (h : Hdr) (a b : Fin 256) (wk : Bool) (ss : BitVec 2) : NextCanonical (execZspill h a b wk ss s) := by
  refine State.engIssue_wf hm _ _ _ _ _ fun t => ?_
  dsimp only
  (repeat' split) <;> simp

theorem execZfill_canonical (h : Hdr) (a b : Fin 256) (wk : Bool) (ss : BitVec 2) : NextCanonical (execZfill h a b wk ss s) := by
  refine State.engIssue_wf hm _ _ _ _ _ fun t => ?_
  dsimp only
  (repeat' split) <;> simp

theorem execZaddv_canonical (h : Hdr) (a b : Fin 256) (wk : Bool) (f ss : BitVec 2) : NextCanonical (execZaddv h a b wk f ss s) := by
  refine State.engIssue_wf hm _ _ _ _ _ fun t => ?_
  dsimp only
  (repeat' split) <;> simp

theorem execZstat_canonical (h : Hdr) (l : BitVec 5) (wk : Bool) (ss : BitVec 2) : NextCanonical (execZstat h l wk ss s) := by
  refine State.engIssue_wf hm _ _ _ _ _ fun t => ?_
  (repeat' split) <;> simp

theorem execLoopBke_canonical (h : Hdr) (nl : BitVec 3) (l : BitVec 4) : NextCanonical (execLoopBke h nl l s) := by
  refine State.engIssue_wf hm _ _ _ _ _ fun t => ?_
  dsimp only
  (repeat' split) <;> simp

theorem execLendBke_canonical (h : Hdr) (nl : BitVec 3) : NextCanonical (execLendBke h nl s) :=
  State.bkeNow_wf hm _ _ _ fun t => t.updMe_memory _

/-- A word of the BKE run as a follow-on of the CPE. -/
theorem bkeWord_canonical (i : Instr) : NextCanonical (bkeWord i s) := by
  unfold bkeWord
  split
  · exact execNop_canonical hm _
  · exact execIdle_canonical hm _ _
  · exact execBwin_canonical hm _ _ _ _
  · exact execBwinCfg_canonical hm _ _
  · exact State.bkeTile_wf hm ..
  · exact State.bkeTile_wf hm ..
  · exact execBclr_canonical hm _
  · exact execCbld_canonical hm _ _ _
  · exact execMulb_canonical hm _ _
  · exact execMacd_canonical hm _ _ _ _ _
  · exact execZswap_canonical hm _
  · exact execZdrain_canonical hm _ _ _ _ _
  · exact execZclr_canonical hm _ _ _
  · exact execZspill_canonical hm _ _ _ _ _
  · exact execZfill_canonical hm _ _ _ _ _
  · exact execZaddv_canonical hm _ _ _ _ _ _
  · exact execZstat_canonical hm _ _ _ _
  · simpa using hm

/-! ### Words of the VEC -/

theorem execVld_canonical (h : Hdr) (k : Fin 8) (n : Bool) (d : Fin 32) (x : BitVec 2) : NextCanonical (execVld h k n d x s) :=
  State.vecIssue_wf hm _ _ _ _ _ fun sh q t => by simp

theorem execVst_canonical (h : Hdr) (k : Fin 8) (n : Bool) (a : Fin 32) (x : BitVec 2) : NextCanonical (execVst h k n a x s) :=
  State.vecIssue_wf hm _ _ _ _ _ fun sh q t => by simp

theorem execVsumz_canonical (h : Hdr) (k : Fin 8) (n : Bool) (l : BitVec 5) (a : Fin 32) (e : Bool) (sel x : BitVec 2) :
    NextCanonical (execVsumz h k n l a e sel x s) := by
  refine State.vecIssue_wf hm _ _ _ _ _ fun sh q t => ?_
  dsimp only
  split <;> simp

theorem execVshape_canonical (h : Hdr) (a : Fin 32) (x : BitVec 2) : NextCanonical (execVshape h a x s) :=
  State.vecIssue_wf hm _ _ _ _ _ fun sh q t => by simp

theorem execVstat_canonical (h : Hdr) (d : Fin 32) (x : BitVec 2) : NextCanonical (execVstat h d x s) :=
  State.vecIssue_wf hm _ _ _ _ _ fun sh q t => by simp

/-! ### What the engines do between words -/

theorem execAccessGeneration_canonical : NextCanonical (execAccessGeneration s) := by
  unfold execAccessGeneration
  extract_lets c k
  rw [nextCanonical_next]
  split
  · exact hm
  · rename_i job _ _
    have hg : (if s.marksClear c job.marks then s.genOne c job else .stall).Canonical := by
      split
      · exact State.genOne_canonical hm c job
      · trivial
    split
    · simpa using hm
    · split
      · simpa using hm
      · split
        · rename_i e; rwa [e] at hg
        · split <;> simp [hm]
        · rename_i e
          rw [e, GenRes.done_canonical] at hg
          dsimp only
          (repeat' split) <;> simp [hg]

theorem execStqSlotPerform_canonical : NextCanonical (execStqSlotPerform s) := by
  unfold execStqSlotPerform
  extract_lets c a fixed
  rw [nextCanonical_next]
  split
  · exact hm
  · extract_lets behind bs s1 s2
    split
    · simpa using hm
    · split
      · rw [State.stqDone_memory]
        exact Memory.wf_foldl_writeBytes (fun p : Nat × Nat × Nat => spadKey c.val (p.2.1 % 2 ^ 23)) (fun p => (bs.drop p.1).take p.2.2) _ hm
      · rw [foldl_memory]
        case hf =>
          intro t x
          dsimp only
          (repeat' split) <;> simp
        · simpa [s2] using hm

theorem execSectorStart_canonical : NextCanonical (execSectorStart s) := by
  unfold execSectorStart
  extract_lets c k s1 fixed
  have h1 : Memory.wf s1.memory = true := by simpa [s1] using hm
  clear_value s1 fixed
  rw [nextCanonical_next]
  refine State.ite_wf hm (State.ite_wf (by simpa using hm) ?_)
  split
  · exact h1
  split
  · exact h1
  extract_lets later tk
  have hl : ∀ t, Memory.wf t.memory = true → Memory.wf (later t).memory = true := by
    intro t ht
    simp only [later]
    split <;> simp [ht]
  clear_value later tk
  refine State.ite_wf h1 (State.ite_wf h1 (State.ite_wf h1 ?_))
  refine State.ite_wf (by simpa using h1) (State.ite_wf (by simpa using h1) ?_)
  refine State.ite_wf (hl _ h1) (State.ite_wf (hl _ h1) ?_)
  split
  rename_i s2 e
  have h2 : Memory.wf s2.memory = true := by cases e; exact h1
  dsimp only
  refine State.ite_wf (hl _ h1) ?_
  (repeat' split) <;> simp [h1, h2]

theorem execCommandEntry_canonical (core : CoreIx) (id : Nat) : NextCanonical (execCommandEntry core id s) := by
  unfold execCommandEntry
  rw [nextCanonical_next]
  split
  · exact hm
  · rename_i r _
    split
    · rename_i x _
      extract_lets e later y
      have hl : ∀ t, (later t).memory = s.memory := fun t => by simp [later]
      clear_value later
      split
      rename_i rec_ s1 es
      have h1 : s1.memory = s.memory := by
        split at es <;> (cases es; simp)
      split
      · simp [hl, hm]
      · rename_i e'
        have h2 := State.entryTry_memory e'
        split <;> simp [hl, hm, h1, h2]
    · exact hm

theorem execSectorDone_canonical (core : CoreIx) (cmd : BitVec 16) (sector : Nat) : NextCanonical (execSectorDone core cmd sector s) := by
  unfold execSectorDone
  rw [nextCanonical_next]
  split
  · extract_lets halted
    split
    · exact hm
    · split
      · simpa using hm
      · extract_lets rs
        split
        · simpa using hm
        · split
          · exact hm
          · split
            · simpa using hm
            · rename_i e
              exact State.sectorRun_wf (by rwa [State.windows_memory e]) ..
  · exact hm

theorem execCommandComplete_canonical (core : CoreIx) (cmd : BitVec 16) : NextCanonical (execCommandComplete core cmd s) := by
  unfold execCommandComplete
  extract_lets again
  have ha : ∀ t, (again t).memory = t.memory := fun t => by simp [again]
  clear_value again
  rw [nextCanonical_next]
  split
  · split
    · exact hm
    · split
      · dsimp only
        (repeat' split) <;> simp [ha, hm]
      · dsimp only
        (repeat' split) <;> simp [ha, hm]
      · exact State.cmdRecord_wf hm ..
  · exact hm

theorem execFollowOnIssue_canonical : NextCanonical (execFollowOnIssue s) := by
  unfold execFollowOnIssue
  extract_lets c q s0 s1 back k
  rw [nextCanonical_next]
  split
  · exact hm
  · extract_lets gone hd bad
    have h1 : Memory.wf s1.memory = true := by simpa [s1, s0] using hm
    have hb : ∀ t n, (back t n).memory = t.memory := fun t n => by simp [back]
    have hg : ∀ t n, (gone t n).memory = t.memory := by
      intro t n
      simp only [gone]
      (repeat' split) <;> simp [hb]
    have hbad : bad.memory = s.memory := by
      simp only [bad]
      (repeat' split) <;> simp [hg]
    clear_value s1 back gone bad
    split
    · simpa using hm
    split
    · simpa using hm
    split
    · exact hm
    split
    · rwa [hbad]
    · split
      · rwa [hbad]
      · rename_i i _ _
        have hw := bkeWord_canonical h1 i
        split
        · rename_i e
          rw [e, nextCanonical_next] at hw
          split <;> simp [hb, hg, hw]
        · exact hm

theorem execWordRetire_canonical (core : CoreIx) (id : Nat) : NextCanonical (execWordRetire core id s) :=
  State.wordEvent_wf hm core id

theorem execUnassignedEncoding_canonical (h : Hdr) : NextCanonical (execUnassignedEncoding h s) := by
  unfold execUnassignedEncoding
  rw [nextCanonical_next]
  split
  · exact State.seqReserved_wf hm _
  · dsimp only
    (repeat' split) <;> simp [hm]

theorem execResume_canonical : NextCanonical (execResume s) := by
  unfold execResume
  split <;> simp [hm]

/-! ### Requests, walks and the Migrator -/

theorem execPageWalk_canonical (id : Nat) : NextCanonical (execPageWalk id s) := by
  unfold execPageWalk
  split <;> simp [hm]

theorem execAccessResponse_canonical (id : Nat) : NextCanonical (execAccessResponse id s) := by
  unfold execAccessResponse
  rw [nextCanonical_next]
  split
  · exact hm
  · split
    · split
      · simpa using hm
      · split
        · simpa using hm
        · rename_i r _ _ _ _
          have hp := State.performReq_wf (State.ownBefore_wf hm r) r (spadKey r.core.val (r.ia % 2 ^ 23))
          dsimp only
          split
          · exact State.respond_wf hp _
          · exact hp
    · split <;> simp [hm]

theorem execCompletionArrival_canonical (id : Nat) (status : CplStatus) (bytes : List Byte) :
    NextCanonical (execCompletionArrival id status bytes s) := by
  simp [execCompletionArrival, hm]

theorem execCompletionTimeout_canonical (id : Nat) : NextCanonical (execCompletionTimeout id s) := by
  unfold execCompletionTimeout
  split <;> simp [hm]

theorem execRefusalRetry_canonical (id : Nat) : NextCanonical (execRefusalRetry id s) := by
  unfold execRefusalRetry
  (repeat' split) <;> simp [hm]

theorem execFqheadWrite_canonical (p : PartIx) (v : BitVec 32) : NextCanonical (execFqheadWrite p v s) := by
  simp [execFqheadWrite, hm]

theorem execMgcqheadWrite_canonical (v : BitVec 32) : NextCanonical (execMgcqheadWrite v s) := by
  simp [execMgcqheadWrite, hm]

theorem execAlloc_canonical : NextCanonical (execAlloc s) := by
  unfold execAlloc
  rw [nextCanonical_next]
  split
  · exact hm
  · rename_i c _ _
    extract_lets done
    have hd : ∀ t pa, Memory.wf t.memory = true → Memory.wf (done t pa).memory = true := by
      intro t pa ht
      have := Memory.wf_zeroRange pa (pageSize c.sz) ht
      simp [done, this]
    split
    · exact State.mgEnd_wf hm ..
    · split
      · split
        · rename_i e
          exact hd _ _ (by rwa [State.place_memory e])
        · exact State.mgEnd_wf hm ..
      · split
        · exact hd _ _ hm
        · exact State.mgEnd_wf hm ..
      · exact State.mgEnd_wf hm ..

theorem execFree_canonical : NextCanonical (execFree s) := by
  unfold execFree
  split <;> simp [hm]

theorem execMove_canonical : NextCanonical (execMove s) := by
  unfold execMove
  rw [nextCanonical_next]
  split
  · exact hm
  · exact State.moveStart_wf hm _

theorem execPromotion_canonical : NextCanonical (execPromotion s) := by
  unfold execPromotion
  rw [nextCanonical_next]
  split
  · exact hm
  · exact State.moveStart_wf hm _

theorem execMoveDone_canonical : NextCanonical (execMoveDone s) := by
  unfold execMoveDone
  rw [nextCanonical_next]
  split
  · exact hm
  · split
    · dsimp only
      (repeat' split) <;> simp [hm, State.moveEnd_wf]
    · exact hm

theorem execAtsInvalidation_canonical (addr : Nat) (n : Nat) : NextCanonical (execAtsInvalidation addr n s) := by
  simp [execAtsInvalidation, hm]

theorem execInval_canonical : NextCanonical (execInval s) := by
  simp [execInval, hm]

theorem execPreload_canonical : NextCanonical (execPreload s) := by
  unfold execPreload
  (repeat' split) <;> simp [hm]

theorem execShootdownDone_canonical : NextCanonical (execShootdownDone s) := by
  unfold execShootdownDone
  split <;> simp [hm]

theorem execMigrationGo_canonical : NextCanonical (execMigrationGo s) := by
  simp [execMigrationGo, hm]

theorem execStopRecordRefusalTimeout_canonical (p : PartIx) (core : CoreIx) (eng : Fin 8) :
    NextCanonical (execStopRecordRefusalTimeout p core eng s) := by
  unfold execStopRecordRefusalTimeout
  split <;> simp [hm]

/-! ### The host -/

theorem execHostMemoryRequest_canonical (fn : Fn) (off : Nat) (n : Nat) (kind : ReqKind) (tag : Nat) :
    NextCanonical (execHostMemoryRequest fn off n kind tag s) := by
  unfold execHostMemoryRequest
  (repeat' split) <;> simp [hm]

theorem execHostAtomicop_canonical (fn : Fn) (bar : Bar) (off : Nat) (n : Nat) (op : AtomFn) (b e : Nat) (tag : Nat) :
    NextCanonical (execHostAtomicop fn bar off n op b e tag s) := by
  simp [execHostAtomicop, hm]

theorem execRegisterWrite_canonical (fn : Fn) (bar : Bar) (off : Nat) (n : Nat) (v : Nat) : NextCanonical (execRegisterWrite fn bar off n v s) := by
  unfold execRegisterWrite
  split <;> simp [hm]

theorem execHostLinkUp_canonical (how : Training) : NextCanonical (execHostLinkUp how s) := by
  simp [execHostLinkUp, hm]

theorem execHostLinkDown_canonical : NextCanonical (execHostLinkDown s) := by
  simp [execHostLinkDown, hm]

theorem execHostVendorMessage_canonical : NextCanonical (execHostVendorMessage s) := by
  simp [execHostVendorMessage, hm]

theorem execHostConfigurationRequest_canonical (fn : Fn) (op : CfgOp) : NextCanonical (execHostConfigurationRequest fn op s) := by
  unfold execHostConfigurationRequest
  split <;> simp [hm]

theorem execSpdmChallenge_canonical (nonce : Nat) : NextCanonical (execSpdmChallenge nonce s) := by
  simp [execSpdmChallenge, hm]

theorem execSpdmGetMeasurements_canonical (index : Nat) (signed : Bool) : NextCanonical (execSpdmGetMeasurements index signed s) := by
  simp [execSpdmGetMeasurements, hm]

theorem execKeySlotWrite_canonical (j : SlotIx) (dw : Fin 8) (v : BitVec 64) : NextCanonical (execKeySlotWrite j dw v s) := by
  simp [execKeySlotWrite, hm]

theorem execKeySlotWriteApply_canonical (j : SlotIx) : NextCanonical (execKeySlotWriteApply j s) := by
  simp [execKeySlotWriteApply, hm]

theorem execRwinWrite_canonical (core : CoreIx) (win : Fin 4) (hi : Bool) (v : BitVec 64) : NextCanonical (execRwinWrite core win hi v s) := by
  simp [execRwinWrite, hm]

theorem execRwinApply_canonical (core : CoreIx) (win : Fin 4) (hi : Bool) (v : BitVec 64) : NextCanonical (execRwinApply core win hi v s) := by
  simp [execRwinApply, hm]

theorem execScanAddressWrite_canonical (addr : BitVec 32) : NextCanonical (execScanAddressWrite addr s) := by
  simp [execScanAddressWrite, hm]

/-! ### Ports and links -/

theorem execPortUp_canonical (port : Fin 48) (rx tx : BitVec 32) (peer : Option (BitVec 12)) : NextCanonical (execPortUp port rx tx peer s) := by
  unfold execPortUp
  dsimp only
  (repeat' split) <;> simp [hm]

theorem execHello_canonical (l : LinkIx) (port : Fin 48) (fabid : BitVec 12) : NextCanonical (execHello l port fabid s) := by
  simp [execHello, hm]

theorem execPeerTlpArrival_canonical (l : LinkIx) (port : Fin 48) (seq : BitVec 16) (tlp : Tlp) :
    NextCanonical (execPeerTlpArrival l port seq tlp s) := by
  unfold execPeerTlpArrival
  extract_lets k s1 s2
  have h1 : Memory.wf s1.memory = true := by simpa [s1] using hm
  have h2 : Memory.wf s2.memory = true := by
    simp only [s2]
    split <;> simp [h1]
  have hmalf : Memory.wf (s.malf port.val).memory = true := by simpa using hm
  rw [nextCanonical_next]
  by_cases hk : k.st ≠ .up
  · rw [if_pos hk]
    cases tlp with
    | message mcode arg pay =>
      -- The code is matched against a literal, on its value: 0, 1 (a HELLO) or more.
      obtain ⟨⟨_ | _ | v, hv⟩⟩ := mcode
      · exact hmalf
      · exact State.message_wf hm ..
      · exact hmalf
    | config => exact State.deliver_wf hm ..
    | request | completion => exact hm
  · rw [if_neg hk]
    split
    · simpa using hm
    · split
      · exact h2
      · exact State.resumeAll_wf h2

theorem execPeerRequest_canonical (l : LinkIx) (q : Nat) (ia : Nat) (n : Nat) (kind : ReqKind) (tag : Nat) :
    NextCanonical (execPeerRequest l q ia n kind tag s) := by
  unfold execPeerRequest
  rw [nextCanonical_next]
  split
  · exact hm
  · split
    · simpa using hm
    · exact State.deliverOrWait_wf hm _ _ _

theorem execTkgive_canonical (l : LinkIx) (core : BitVec 9) (j : Fin 4) (c : BitVec 8) : NextCanonical (execTkgive l core j c s) := by
  simp [execTkgive, hm]

theorem execStage_canonical (n : Fin 64) (v : BitVec 32) : NextCanonical (execStage n v s) := by
  simp [execStage, hm]

theorem execFixarr_canonical (src : FixPeer) (p : PartIx) (leg : BitVec 16) (stage : BitVec 6) (cnt : BitVec 32) :
    NextCanonical (execFixarr src p leg stage cnt s) := by
  simp [execFixarr, hm]

theorem execFixrel_canonical (src : FixPeer) (p : PartIx) (leg : BitVec 16) (course : BitVec 3) : NextCanonical (execFixrel src p leg course s) := by
  simp [execFixrel, hm]

theorem execStop_canonical (l : LinkIx) (ident : BitVec 24) (cause : BitVec 8) : NextCanonical (execStop l ident cause s) := by
  simp [execStop, hm]

theorem execStopDelayedSend_canonical (ident : BitVec 24) (cause : BitVec 8) (p : PartIx) : NextCanonical (execStopDelayedSend ident cause p s) := by
  unfold execStopDelayedSend
  dsimp only
  split <;> simp [hm]

theorem execFreeze_canonical : NextCanonical (execFreeze s) := by
  simp [execFreeze, hm]

theorem execThaw_canonical : NextCanonical (execThaw s) := by
  simp [execThaw, hm]

theorem execPortLeavesUp_canonical : NextCanonical (execPortLeavesUp s) := by
  simp [execPortLeavesUp, hm]

theorem execPortReturnsUp_canonical : NextCanonical (execPortReturnsUp s) := by
  simp [execPortReturnsUp, hm]

theorem execLinkDownTimeout_canonical : NextCanonical (execLinkDownTimeout s) := by
  simp [execLinkDownTimeout, hm]

theorem execLinkEnable_canonical : NextCanonical (execLinkEnable s) := by
  simp [execLinkEnable, hm]

theorem execLinkDisable_canonical : NextCanonical (execLinkDisable s) := by
  simp [execLinkDisable, hm]

theorem execStripeGapTimeout_canonical : NextCanonical (execStripeGapTimeout s) := by
  unfold execStripeGapTimeout
  dsimp only
  (repeat' split) <;> simp [hm]

theorem execIdeIntegrityFailure_canonical (port : PortRef) : NextCanonical (execIdeIntegrityFailure port s) := by
  unfold execIdeIntegrityFailure
  (repeat' split) <;> simp [hm]

theorem execCounterLowRead_canonical (port : PortRef) (rx : Bool) : NextCanonical (execCounterLowRead port rx s) := by
  simp [execCounterLowRead, hm]

theorem execFlitReplay_canonical (port : PortRef) (corrected : Bool) : NextCanonical (execFlitReplay port corrected s) := by
  simp [execFlitReplay, hm]

theorem execReplayQueueLeave_canonical : NextCanonical (execReplayQueueLeave s) := by
  unfold execReplayQueueLeave
  (repeat' split) <;> simp [hm]

/-! ### Contexts, fixes and halts -/

theorem execLaunchGo_canonical (p : PartIx) (tag : BitVec 8) : NextCanonical (execLaunchGo p tag s) := by
  unfold execLaunchGo
  rw [nextCanonical_next]
  cases e : s.shadowed p 0x18 4 (1 + 256 * tag.toNat) with
  | none => exact State.launchWord_wf hm p true false tag
  | some t =>
    rw [Option.getD_some, State.shadowed_memory e]
    exact hm

theorem execAbort_canonical (p : PartIx) (tag : BitVec 8) : NextCanonical (execAbort p tag s) := by
  unfold execAbort
  rw [nextCanonical_next]
  cases e : s.shadowed p 0x18 4 (2 + 256 * tag.toNat) with
  | none => exact State.launchWord_wf hm p false true tag
  | some t =>
    rw [Option.getD_some, State.shadowed_memory e]
    exact hm

theorem execLaunchCheck_canonical (p : PartIx) (slot : SlotIx) : NextCanonical (execLaunchCheck p slot s) := by
  simp [execLaunchCheck, hm]

theorem execOverlayLoad_canonical (p : PartIx) (slot : SlotIx) : NextCanonical (execOverlayLoad p slot s) := by
  unfold execOverlayLoad
  rw [nextCanonical_next]
  split
  · exact State.load_wf hm p slot
  · exact hm

theorem execContextStart_canonical (p : PartIx) (slot : SlotIx) : NextCanonical (execContextStart p slot s) := by
  simp [execContextStart, hm]

theorem execSwitchEnd_canonical : NextCanonical (execSwitchEnd s) :=
  State.switchEnd_wf hm _

theorem execHelmSchedule_canonical : NextCanonical (execHelmSchedule s) := by
  unfold execHelmSchedule
  dsimp only
  (repeat' split) <;> simp [hm]

theorem execQuantumExpiry_canonical : NextCanonical (execQuantumExpiry s) := by
  unfold execQuantumExpiry
  dsimp only
  split <;> simp [hm]

theorem execPreemptionRequest_canonical : NextCanonical (execPreemptionRequest s) := by
  simp [execPreemptionRequest, hm]

theorem execPreemptionComplete_canonical : NextCanonical (execPreemptionComplete s) := by
  unfold execPreemptionComplete
  dsimp only
  (repeat' split) <;> simp [hm]

theorem execCheckpointRequest_canonical (p : PartIx) (leg : BitVec 16) : NextCanonical (execCheckpointRequest p leg s) := by
  simp [execCheckpointRequest, hm]

theorem execPartitionHalt_canonical : NextCanonical (execPartitionHalt s) :=
  State.partitionHalt_wf hm _

theorem execReplayInjection_canonical : NextCanonical (execReplayInjection s) := by
  unfold execReplayInjection
  rw [nextCanonical_next]
  split
  · exact hm
  · split
    · exact hm
    · rw [State.schedP_memory]
      exact State.inject_wf (by simpa using hm) ..

theorem execLookoutT1_canonical (core : CoreIx) (eng : Eng) : NextCanonical (execLookoutT1 core eng s) := by
  unfold execLookoutT1
  dsimp only
  split <;> simp [hm]

theorem execLookoutT2_canonical (core : CoreIx) (eng : Eng) : NextCanonical (execLookoutT2 core eng s) := by
  unfold execLookoutT2
  dsimp only
  split <;> simp [hm]

theorem execLookoutT3_canonical (core : CoreIx) (eng : Eng) : NextCanonical (execLookoutT3 core eng s) := by
  unfold execLookoutT3
  dsimp only
  split <;> simp [hm]

theorem execCoreArrival_canonical : NextCanonical (execCoreArrival s) := by
  unfold execCoreArrival
  dsimp only
  (repeat' split) <;> simp [hm]

theorem execDueCycleMiss_canonical (core : CoreIx) (leg : BitVec 16) : NextCanonical (execDueCycleMiss core leg s) := by
  simp [execDueCycleMiss, hm]

theorem execFixComplete_canonical (p : PartIx) (grp : GroupIx) : NextCanonical (execFixComplete p grp s) :=
  State.fixDone_wf hm p grp

theorem execFixRelease_canonical (p : PartIx) (grp : GroupIx) : NextCanonical (execFixRelease p grp s) := by
  unfold execFixRelease
  split <;> simp [hm]

theorem execResumeFix_canonical (p : PartIx) (grp : GroupIx) : NextCanonical (execResumeFix p grp s) := by
  unfold execResumeFix
  split <;> simp [hm]

/-! ### Rows, banks and their repair -/

theorem execRowBeatDelivery_canonical (col : CoreIx) (beat : Fin 32) : NextCanonical (execRowBeatDelivery col beat s) := by
  unfold execRowBeatDelivery
  dsimp only
  split <;> simp [hm]

theorem execRowBeatFailure_canonical (col : CoreIx) (beat : Fin 32) : NextCanonical (execRowBeatFailure col beat s) := by
  simp [execRowBeatFailure, hm]

theorem execPrechargeComplete_canonical (col : CoreIx) (bank : Fin 32) : NextCanonical (execPrechargeComplete col bank s) := by
  unfold execPrechargeComplete
  split <;> simp [hm]

theorem execRefreshSlotStart_canonical (col : CoreIx) (bank : Fin 32) : NextCanonical (execRefreshSlotStart col bank s) := by
  simp [execRefreshSlotStart, hm]

theorem execRowOpenTooLong_canonical (col : CoreIx) (bank : Fin 32) (tAct : Nat) : NextCanonical (execRowOpenTooLong col bank tAct s) := by
  unfold execRowOpenTooLong
  split <;> simp [hm]

theorem execRowReactivation_canonical (col : CoreIx) (bank : Fin 32) (row : BitVec 11) : NextCanonical (execRowReactivation col bank row s) := by
  unfold execRowReactivation
  split <;> simp [hm]

theorem execBusRepair_canonical : NextCanonical (execBusRepair s) := by
  simp [execBusRepair, hm]

theorem execBankToRow_canonical : NextCanonical (execBankToRow s) := by
  unfold execBankToRow
  dsimp only
  split <;> simp [hm]

theorem execBankToPool_canonical : NextCanonical (execBankToPool s) := by
  unfold execBankToPool
  dsimp only
  split <;> simp [hm]

theorem execBmctlDone_canonical : NextCanonical (execBmctlDone s) := by
  unfold execBmctlDone
  dsimp only
  (repeat' split) <;> simp [hm]

theorem execPendOnErrors_canonical (col : CoreIx) (bank : Fin 32) : NextCanonical (execPendOnErrors col bank s) := by
  simp [execPendOnErrors, hm]

theorem execPendOnHeat_canonical (col : CoreIx) (layer : Fin 4) : NextCanonical (execPendOnHeat col layer s) := by
  simp [execPendOnHeat, hm]

theorem execUncorrectableDramError_canonical (col : CoreIx) (bank : Fin 32) : NextCanonical (execUncorrectableDramError col bank s) := by
  simp [execUncorrectableDramError, hm]

theorem execStatWindowStart_canonical : NextCanonical (execStatWindowStart s) := by
  simp [execStatWindowStart, hm]

/-! ### Resets, emergencies and the Helm -/

theorem execFrzctlRelease_canonical : NextCanonical (execFrzctlRelease s) := by
  simp [execFrzctlRelease, hm]

theorem execFreezeTimeout_canonical : NextCanonical (execFreezeTimeout s) := by
  simp [execFreezeTimeout, hm]

theorem execWarmReset_canonical : NextCanonical (execWarmReset s) := by
  simp [execWarmReset, hm]

theorem execWarmrst_canonical : NextCanonical (execWarmrst s) := by
  simp [execWarmrst, hm]

theorem execFrzctlFreeze_canonical : NextCanonical (execFrzctlFreeze s) := by
  simp [execFrzctlFreeze, hm]

theorem execQuiesce_canonical : NextCanonical (execQuiesce s) := by
  unfold execQuiesce
  split <;> simp [hm]

theorem execCommit_canonical : NextCanonical (execCommit s) := by
  unfold execCommit
  split <;> simp [hm]

theorem execSurveyCommandDone_canonical : NextCanonical (execSurveyCommandDone s) := by
  unfold execSurveyCommandDone
  dsimp only
  split <;> simp [hm]

theorem execHotonCrossing_canonical : NextCanonical (execHotonCrossing s) := by
  unfold execHotonCrossing
  dsimp only
  split <;> simp [hm]

theorem execHotoffCrossing_canonical : NextCanonical (execHotoffCrossing s) := by
  simp [execHotoffCrossing, hm]

theorem execRefreshPeriodChange_canonical : NextCanonical (execRefreshPeriodChange s) := by
  simp [execRefreshPeriodChange, hm]

theorem execRefreshDeadline_canonical : NextCanonical (execRefreshDeadline s) := by
  unfold execRefreshDeadline
  dsimp only
  (repeat' split) <;> simp [hm]

theorem execThermalEmergency_canonical : NextCanonical (execThermalEmergency s) := by
  simp [execThermalEmergency, hm]

theorem execSupplyEmergency_canonical : NextCanonical (execSupplyEmergency s) := by
  simp [execSupplyEmergency, hm]

theorem execEmergencyConditionCleared_canonical : NextCanonical (execEmergencyConditionCleared s) := by
  simp [execEmergencyConditionCleared, hm]

theorem execPowerWindow_canonical (meanWatts : Nat) : NextCanonical (execPowerWindow meanWatts s) := by
  simp [execPowerWindow, hm]

theorem execPowerLoss_canonical : NextCanonical (execPowerLoss s) := by
  simp [execPowerLoss, hm]

theorem execPartitionReset_canonical : NextCanonical (execPartitionReset s) := by
  simp [execPartitionReset, hm]

theorem execBootComplete_canonical : NextCanonical (execBootComplete s) := by
  simp [execBootComplete, hm]

theorem execEmclear_canonical : NextCanonical (execEmclear s) := by
  simp [execEmclear, hm]

theorem execFwstage_canonical : NextCanonical (execFwstage s) := by
  unfold execFwstage
  dsimp only
  (repeat' split) <;> simp [hm]

theorem execPartapply_canonical : NextCanonical (execPartapply s) := by
  simp [execPartapply, hm]

theorem execHcmdComplete_canonical : NextCanonical (execHcmdComplete s) := by
  simp [execHcmdComplete, hm]

/-! ### Every instruction -/

/-- Whatever a word or an event does, it keeps memory in canonical form. -/
theorem exec_canonical (i : Instr) : NextCanonical (exec i s) := by
  cases i with
  | add | sub | and | or | xor | sll | srl | sra | mul | mulh | mulhu | div | divu | rem | remu | min | max
  | minu | maxu | slt | sltu | clz | ctz | popc | addi | slti | andi | ori | xori | slli | srli | srai | lis
  | chron | legq => exact State.seqAlu_wf hm ..
  | beq | bne | blt | bge | bltu | bgeu => exact State.seqBranch_wf hm ..
  | amoAdd | amoAnd | amoOr | amoXor | amoMin | amoMax | amoMinu | amoMaxu | amoSwap | amoCas => exact State.amo_wf hm ..
  | cpy | cpyf | cpyw | cpyr | sort | pack => exact State.cpeWord_wf hm ..
  | lds | sts | ldg | stg => exact State.axuStream_wf hm ..
  | ldh | sth => exact State.axuHandle_wf hm ..
  | mark | aadd | aaddNw | ali | aliSh | amov | lend => exact State.axuNow_wf hm ..
  | isect | imerge | icnt => exact State.axuSet_wf hm ..
  | bsteer | bplane => exact State.bkeTile_wf hm ..
  | vadd | vsub | vmul | vfma | vfms | vfnma | vdiv | vsqrt | vmin | vmax | vabs | vneg | vcpys | viadd
  | visub | vimul | vimin | vimax | vand | vor | vxor | vshl | vshr | vsra | vcmp | vicmp | vclass | kand
  | kor | kxor | knot | kmov | kcnt | vsel | vmov | vmovi | vbcst | vcvt | vqnt | vdq | vrnd | vexp2 | vlog2
  | vrcp | vrsq | vsin | vcos | vtanh | verf | vrmax | vrmin | vtrn | vshuf | vrot => exact State.vecOp_wf hm ..
  | nop => exact execNop_canonical hm ..
  | idle => exact execIdle_canonical hm ..
  | jal => exact execJal_canonical hm ..
  | jalr => exact execJalr_canonical hm ..
  | ld => exact execLd_canonical hm ..
  | st => exact execSt_canonical hm ..
  | ldc => exact execLdc_canonical hm ..
  | fence => exact execFence_canonical hm ..
  | faddx => exact execFaddx_canonical hm ..
  | xrd => exact execXrd_canonical hm ..
  | tkg => exact execTkg_canonical hm ..
  | tkt => exact execTkt_canonical hm ..
  | tkq => exact execTkq_canonical hm ..
  | qstart => exact execQstart_canonical hm ..
  | qstop => exact execQstop_canonical hm ..
  | qstat => exact execQstat_canonical hm ..
  | fix => exact execFix_canonical hm ..
  | size => exact execSize_canonical hm ..
  | hqry => exact execHqry_canonical hm ..
  | crr => exact execCrr_canonical hm ..
  | crw => exact execCrw_canonical hm ..
  | trap => exact execTrap_canonical hm ..
  | sret => exact execSret_canonical hm ..
  | halt => exact execHalt_canonical hm ..
  | hset => exact execHset_canonical hm ..
  | scanr => exact execScanr_canonical hm ..
  | wrep => exact execWrep_canonical hm ..
  | loop => exact execLoop_canonical hm ..
  | ract => exact execRact_canonical hm ..
  | rcon => exact execRcon_canonical hm ..
  | rpre => exact execRpre_canonical hm ..
  | rstat => exact execRstat_canonical hm ..
  | ring => exact execRing_canonical hm ..
  | bwin => exact execBwin_canonical hm ..
  | bwinCfg => exact execBwinCfg_canonical hm ..
  | bclr => exact execBclr_canonical hm ..
  | cbld => exact execCbld_canonical hm ..
  | mulb => exact execMulb_canonical hm ..
  | macd => exact execMacd_canonical hm ..
  | zswap => exact execZswap_canonical hm ..
  | zdrain => exact execZdrain_canonical hm ..
  | zclr => exact execZclr_canonical hm ..
  | zspill => exact execZspill_canonical hm ..
  | zfill => exact execZfill_canonical hm ..
  | zaddv => exact execZaddv_canonical hm ..
  | zstat => exact execZstat_canonical hm ..
  | loopBke => exact execLoopBke_canonical hm ..
  | lendBke => exact execLendBke_canonical hm ..
  | vsumz => exact execVsumz_canonical hm ..
  | vshape => exact execVshape_canonical hm ..
  | vld => exact execVld_canonical hm ..
  | vst => exact execVst_canonical hm ..
  | vstat => exact execVstat_canonical hm ..
  | pendOnErrors => exact execPendOnErrors_canonical hm ..
  | pendOnHeat => exact execPendOnHeat_canonical hm ..
  | uncorrectableDramError => exact execUncorrectableDramError_canonical hm ..
  | powerWindow => exact execPowerWindow_canonical hm ..
  | refreshSlotStart => exact execRefreshSlotStart_canonical hm ..
  | rowOpenTooLong => exact execRowOpenTooLong_canonical hm ..
  | hostMemoryRequest => exact execHostMemoryRequest_canonical hm ..
  | hostAtomicop => exact execHostAtomicop_canonical hm ..
  | portUp => exact execPortUp_canonical hm ..
  | hello => exact execHello_canonical hm ..
  | peerTlpArrival => exact execPeerTlpArrival_canonical hm ..
  | stage => exact execStage_canonical hm ..
  | tkgive => exact execTkgive_canonical hm ..
  | fixarr _ _ _ stage => exact execFixarr_canonical hm _ _ _ stage _
  | fixrel src => exact execFixrel_canonical hm src ..
  | stop => exact execStop_canonical hm ..
  | stopDelayedSend => exact execStopDelayedSend_canonical hm ..
  | completionTimeout => exact execCompletionTimeout_canonical hm ..
  | completionArrival => exact execCompletionArrival_canonical hm ..
  | ideIntegrityFailure => exact execIdeIntegrityFailure_canonical hm ..
  | counterLowRead => exact execCounterLowRead_canonical hm ..
  | keySlotWrite => exact execKeySlotWrite_canonical hm ..
  | keySlotWriteApply => exact execKeySlotWriteApply_canonical hm ..
  | launchGo => exact execLaunchGo_canonical hm ..
  | abort => exact execAbort_canonical hm ..
  | launchCheck => exact execLaunchCheck_canonical hm ..
  | overlayLoad => exact execOverlayLoad_canonical hm ..
  | contextStart => exact execContextStart_canonical hm ..
  | spdmChallenge => exact execSpdmChallenge_canonical hm ..
  | spdmGetMeasurements => exact execSpdmGetMeasurements_canonical hm ..
  | rwinWrite => exact execRwinWrite_canonical hm ..
  | rwinApply => exact execRwinApply_canonical hm ..
  | pageWalk => exact execPageWalk_canonical hm ..
  | accessResponse => exact execAccessResponse_canonical hm ..
  | refusalRetry => exact execRefusalRetry_canonical hm ..
  | fqheadWrite => exact execFqheadWrite_canonical hm ..
  | mgcqheadWrite => exact execMgcqheadWrite_canonical hm ..
  | atsInvalidation => exact execAtsInvalidation_canonical hm ..
  | peerRequest => exact execPeerRequest_canonical hm ..
  | dueCycleMiss => exact execDueCycleMiss_canonical hm ..
  | fixComplete => exact execFixComplete_canonical hm ..
  | fixRelease => exact execFixRelease_canonical hm ..
  | resumeFix => exact execResumeFix_canonical hm ..
  | rowReactivation => exact execRowReactivation_canonical hm ..
  | lookoutT1 => exact execLookoutT1_canonical hm ..
  | lookoutT2 => exact execLookoutT2_canonical hm ..
  | lookoutT3 => exact execLookoutT3_canonical hm ..
  | scanAddressWrite => exact execScanAddressWrite_canonical hm ..
  | checkpointRequest => exact execCheckpointRequest_canonical hm ..
  | registerWrite => exact execRegisterWrite_canonical hm ..
  | wordRetire => exact execWordRetire_canonical hm ..
  | rowBeatFailure => exact execRowBeatFailure_canonical hm ..
  | commandEntry => exact execCommandEntry_canonical hm ..
  | sectorDone => exact execSectorDone_canonical hm ..
  | commandComplete => exact execCommandComplete_canonical hm ..
  | unassignedEncoding => exact execUnassignedEncoding_canonical hm ..
  | prechargeComplete => exact execPrechargeComplete_canonical hm ..
  | rowBeatDelivery => exact execRowBeatDelivery_canonical hm ..
  | hostLinkUp => exact execHostLinkUp_canonical hm ..
  | flitReplay => exact execFlitReplay_canonical hm ..
  | hostConfigurationRequest => exact execHostConfigurationRequest_canonical hm ..
  | stopRecordRefusalTimeout => exact execStopRecordRefusalTimeout_canonical hm ..
  | coldReset => exact execColdReset_canonical ..
  | bootComplete => exact execBootComplete_canonical hm ..
  | warmReset => exact execWarmReset_canonical hm ..
  | partitionReset => exact execPartitionReset_canonical hm ..
  | powerLoss => exact execPowerLoss_canonical hm ..
  | thermalEmergency => exact execThermalEmergency_canonical hm ..
  | supplyEmergency => exact execSupplyEmergency_canonical hm ..
  | quiesce => exact execQuiesce_canonical hm ..
  | commit => exact execCommit_canonical hm ..
  | surveyCommandDone => exact execSurveyCommandDone_canonical hm ..
  | hotonCrossing => exact execHotonCrossing_canonical hm ..
  | hotoffCrossing => exact execHotoffCrossing_canonical hm ..
  | refreshPeriodChange => exact execRefreshPeriodChange_canonical hm ..
  | refreshDeadline => exact execRefreshDeadline_canonical hm ..
  | hostVendorMessage => exact execHostVendorMessage_canonical hm ..
  | hostLinkDown => exact execHostLinkDown_canonical hm ..
  | portLeavesUp => exact execPortLeavesUp_canonical hm ..
  | portReturnsUp => exact execPortReturnsUp_canonical hm ..
  | linkDownTimeout => exact execLinkDownTimeout_canonical hm ..
  | linkEnable => exact execLinkEnable_canonical hm ..
  | linkDisable => exact execLinkDisable_canonical hm ..
  | stripeGapTimeout => exact execStripeGapTimeout_canonical hm ..
  | freeze => exact execFreeze_canonical hm ..
  | thaw => exact execThaw_canonical hm ..
  | warmrst => exact execWarmrst_canonical hm ..
  | emclear => exact execEmclear_canonical hm ..
  | fwstage => exact execFwstage_canonical hm ..
  | partapply => exact execPartapply_canonical hm ..
  | hcmdComplete => exact execHcmdComplete_canonical hm ..
  | bankToRow => exact execBankToRow_canonical hm ..
  | bankToPool => exact execBankToPool_canonical hm ..
  | bmctlDone => exact execBmctlDone_canonical hm ..
  | inval => exact execInval_canonical hm ..
  | preload => exact execPreload_canonical hm ..
  | shootdownDone => exact execShootdownDone_canonical hm ..
  | migrationGo => exact execMigrationGo_canonical hm ..
  | alloc => exact execAlloc_canonical hm ..
  | free => exact execFree_canonical hm ..
  | move => exact execMove_canonical hm ..
  | moveDone => exact execMoveDone_canonical hm ..
  | promotion => exact execPromotion_canonical hm ..
  | coreArrival => exact execCoreArrival_canonical hm ..
  | helmSchedule => exact execHelmSchedule_canonical hm ..
  | quantumExpiry => exact execQuantumExpiry_canonical hm ..
  | preemptionRequest => exact execPreemptionRequest_canonical hm ..
  | preemptionComplete => exact execPreemptionComplete_canonical hm ..
  | switchEnd => exact execSwitchEnd_canonical hm ..
  | replayInjection => exact execReplayInjection_canonical hm ..
  | partitionHalt => exact execPartitionHalt_canonical hm ..
  | resume => exact execResume_canonical hm ..
  | frzctlFreeze => exact execFrzctlFreeze_canonical hm ..
  | frzctlRelease => exact execFrzctlRelease_canonical hm ..
  | freezeTimeout => exact execFreezeTimeout_canonical hm ..
  | accessGeneration => exact execAccessGeneration_canonical hm ..
  | stqSlotPerform => exact execStqSlotPerform_canonical hm ..
  | replayQueueLeave => exact execReplayQueueLeave_canonical hm ..
  | busRepair => exact execBusRepair_canonical hm ..
  | statWindowStart => exact execStatWindowStart_canonical hm ..
  | sectorStart => exact execSectorStart_canonical hm ..
  | followOnIssue => exact execFollowOnIssue_canonical hm ..
  | emergencyConditionCleared => exact execEmergencyConditionCleared_canonical hm ..

end

/-! ## One step -/

section

variable {s : State} (hm : Memory.wf s.memory = true)

include hm

theorem exec_canonical_of_memory {t : State} (ht : t.memory = s.memory) (i : Instr) : NextCanonical (exec i t) :=
  exec_canonical (by rwa [ht]) i

theorem State.runEv_canonical {t : State} (ht : t.memory = s.memory) (e : Ev) : NextCanonical (t.runEv e) :=
  exec_canonical_of_memory hm ((t.atEvent_memory e).trans ht) _

theorem State.run_canonical (x : Pick) : NextCanonical (s.run x) := by
  cases x with
  | idle => exact hm
  | occur o r => simpa [State.run] using hm
  | input e r => exact State.runEv_canonical hm (by rfl) e
  | event e r => exact State.runEv_canonical hm (by rfl) e
  | issue x =>
    have hi : Memory.wf (s.atIssue x).memory = true := by simpa using hm
    unfold State.run
    dsimp only
    split
    · exact exec_canonical hi _
    · simpa using hi
  | look x => exact exec_canonical_of_memory hm (by rfl) _

/-- Under the wire nothing issues; what acts still keeps the canonical form. -/
theorem State.runFrozen_canonical (x : Pick) : NextCanonical (s.runFrozen x) := by
  have hidle : NextCanonical (if freezeLimit ≤ s.frozen + 1 then exec .freezeTimeout s else .next { s with frozen := s.frozen + 1 }) :=
    nextCanonical_ite (exec_canonical hm _) hm
  cases x with
  | occur o r => simpa [State.runFrozen] using hm
  | input e r => exact exec_canonical_of_memory hm (by rfl) _
  | event e r => exact exec_canonical_of_memory hm (by rfl) _
  | idle | issue | look => exact hidle

theorem step_canonical : NextCanonical (step s) := by
  unfold step
  refine nextCanonical_ite ?_ (nextCanonical_ite (State.runFrozen_canonical hm _) (State.run_canonical hm _))
  split
  · trivial
  · exact nextCanonical_ite (State.runEv_canonical hm (by rfl) _) hm

end

end Sys2Proof.Machine

namespace Sys2Proof

open Machine

/-- Settles O35: memory changes only by writing bytes of it or by dropping entries, and both keep the canonical form; so every word, input
and event does, and a step is one of these. -/
theorem stepKeepsMemoryCanonical : Obligations.StepKeepsMemoryCanonical := by
  intro s t hm e
  have hs := step_canonical hm
  rwa [e, nextCanonical_next] at hs

end Sys2Proof

namespace Sys2Proof.Machine

/-! ## The module after a cold reset -/

/-- No column is in the survey, and no cluster has a partition. -/
theorem State.partOf_reset (c : CoreIx) : State.reset.partOf c = none := by
  simp [State.partOf, State.partOfCluster, State.reset]

/-- Every token FIFO may hold 15 tokens until software lowers its ceiling. -/
theorem Ctl.ceil_default : ∀ f < 20, ({} : Ctl).ceil f = 15 := by decide

theorem Seq.gpr_default (r : Fin 32) : ({} : Seq).gpr r = 0 ∧ ({} : Seq).tnt r = false := by
  simp [Seq.gpr, Seq.tnt]

/-- No context of a partition runs, and its eight slots are idle. -/
theorem Part.idle_default : ({} : Part).runSlot = none ∧ ∀ j : Fin 8, ({} : Part).slots[j].st = .idle := by decide

/-- The firmware's boot is the one event to come, less than `bootLimit` cycles ahead, whatever latency the Helm has (log 5). -/
theorem State.agenda_reset : ∃ e, State.reset.agenda = [e] ∧ e.instr = .bootComplete ∧ 0 < e.cycle ∧ e.cycle < bootLimit := by
  refine ⟨_, rfl, rfl, Nat.add_pos_left Nat.one_pos _, ?_⟩
  have := Nat.mod_lt (Config.helmLatency 0) (show 0 < bootLimit - 1 by decide)
  dsimp only
  omega

end Sys2Proof.Machine

namespace Sys2Proof

open Machine

theorem resetState : ResetState := by
  refine ⟨rfl, rfl, rfl, rfl, rfl, rfl, rfl, rfl, State.agenda_reset, fun p => ?_, fun c => ⟨rfl, State.partOf_reset c⟩, fun c => ?_,
    fun c => ?_, rfl, rfl, fun l => ?_⟩
  · obtain ⟨hrun, hslots⟩ := Part.idle_default
    exact ⟨hrun, rfl, rfl, hslots⟩
  · exact ⟨rfl, Ctl.ceil_default, rfl, Seq.gpr_default, rfl, rfl⟩
  · simp [State.reset]
  · simp [State.reset]

/-- Settles O34: the state after a cold reset is spelt out, and its memory is empty. -/
theorem resetStates : Obligations.ResetStates :=
  ⟨resetState, rfl⟩

end Sys2Proof

/-! # What a step runs -/

namespace Sys2Proof.Machine

/-- The event pulled from a list stands in it, and the others keep their order. -/
theorem pullFirst_split {f : Instr → Bool} {l r : List Ev} {e : Ev} (h : pullFirst f l = some (e, r)) :
    ∃ a b, l = a ++ e :: b ∧ r = a ++ b := by
  induction l generalizing r with
  | nil => cases h
  | cons x l ih =>
    simp only [pullFirst] at h
    split at h
    · cases h; exact ⟨[], l, rfl, rfl⟩
    · obtain ⟨⟨y, m⟩, hy, hm⟩ := Option.map_eq_some_iff.mp h
      cases hm
      obtain ⟨a, b, rfl, rfl⟩ := ih hy
      exact ⟨x :: a, b, rfl, rfl⟩

/-- Under the wire only the Helm's events are due. -/
theorem helmEvent_of_dueHelm {t : Nat} {l r : List Ev} {e : Ev} (h : dueHelm t l = some (e, r)) : helmEvent e.instr = true := by
  induction l generalizing r with
  | nil => cases h
  | cons x l ih =>
    simp only [dueHelm] at h
    split at h
    · rename_i hx; cases h; simp_all
    · obtain ⟨⟨y, m⟩, hy, hm⟩ := Option.map_eq_some_iff.mp h
      cases hm
      exact ih hy

/-- What comes soonest is one of the things that may come. -/
theorem mem_of_foldl_sooner {l : List (Option (Nat × Pick))} {a : Option (Nat × Pick)} {x : Nat × Pick}
    (h : l.foldl sooner a = some x) : a = some x ∨ some x ∈ l := by
  induction l generalizing a with
  | nil => exact .inl h
  | cons y l ih =>
    rcases ih h with hs | hl
    · unfold sooner at hs
      split at hs
      · simp [hs]
      · simp [hs]
      · split at hs <;> simp [hs]
    · simp [hl]

variable {s : State}

/-- What is picked, if anything, is one of the things that may come next. -/
theorem State.mem_picks_of_pick {x : Pick} (h : s.pick = x) (hx : x ≠ .idle) : ∃ t, some (t, x) ∈ s.picks := by
  unfold State.pick at h
  split at h
  · next y hy =>
    rcases mem_of_foldl_sooner hy with h0 | hm
    · cases h0
    · exact ⟨y.1, by rw [← h]; exact hm⟩
  · exact absurd h.symm hx

/-- An input that is picked stands among the inputs. -/
theorem State.pick_input {e : Ev} {r : List Ev} (h : s.pick = .input e r) : ∃ l m, s.inputs = l ++ e :: m ∧ r = l ++ m := by
  obtain ⟨t, ht⟩ := s.mem_picks_of_pick h (by simp)
  have hp : ∃ b, pullFirst (fun i => fromHost i == b) s.inputs = some (e, r) := by
    cases ho : s.occurs <;>
      · simp [State.picks, State.inputPick, State.eventPick, State.issuePick, ho] at ht
        rcases ht with ⟨ht, -⟩ | ⟨ht, -⟩
        · exact ⟨true, by simpa using ht⟩
        · exact ⟨false, by simpa using ht⟩
  obtain ⟨b, hb⟩ := hp
  exact pullFirst_split hb

/-- A scheduled event that is picked stands on the agenda. -/
theorem State.pick_event {e : Ev} {r : List Ev} (h : s.pick = .event e r) : ∃ l m, s.agenda = l ++ e :: m ∧ r = l ++ m := by
  obtain ⟨t, ht⟩ := s.mem_picks_of_pick h (by simp)
  have hp : ∃ k, pullFirst (fun i => eventRank i == k) s.agenda = some (e, r) := by
    cases ho : s.occurs <;>
      · simp [State.picks, State.inputPick, State.eventPick, State.issuePick, ho] at ht
        rcases ht with ⟨ht, -⟩ | ⟨ht, -⟩ | ⟨ht, -⟩ | ⟨ht, -⟩
        · exact ⟨0, ht⟩
        · exact ⟨1, ht⟩
        · exact ⟨2, ht⟩
        · exact ⟨3, ht⟩
  obtain ⟨k, hk⟩ := hp
  exact pullFirst_split hk

/-- An occurrence that is picked is the first to come. -/
theorem State.pick_occur {o : Occ} {r : List Occ} (h : s.pick = .occur o r) : s.occurs = o :: r := by
  obtain ⟨t, ht⟩ := s.mem_picks_of_pick h (by simp)
  cases ho : s.occurs with
  | nil => simp [State.picks, State.inputPick, State.eventPick, State.issuePick, ho] at ht
  | cons x l =>
    simp [State.picks, State.inputPick, State.eventPick, State.issuePick, ho] at ht
    simp [ht]

/-- An event that is picked under the wire is one of the Helm's. -/
theorem State.pickFrozen_event {e : Ev} {r : List Ev} (h : s.pickFrozen = .event e r) : helmEvent e.instr = true := by
  unfold State.pickFrozen at h
  dsimp only at h
  split at h
  · next x hx =>
    subst h
    simp only [Option.or_eq_some_iff] at hx
    rcases hx with hx | ⟨-, hx | ⟨-, hx⟩⟩
    · split at hx <;> [split at hx; skip] <;> simp at hx
    · split at hx <;> [split at hx; skip] <;> simp at hx
    · split at hx <;> [split at hx; skip] <;> simp at hx
  · split at h
    · next x hx => cases h; exact helmEvent_of_dueHelm hx
    · cases h

theorem step_run (ho : s.off = false) (hf : s.isFrozen = false) : step s = s.run s.pick := by simp [step, ho, hf]

theorem step_runFrozen (ho : s.off = false) (hf : s.isFrozen = true) : step s = s.runFrozen s.pickFrozen := by simp [step, ho, hf]

end Sys2Proof.Machine

namespace Sys2Proof

open Machine

/-- Settles O37: `step` runs what is picked, and what is picked was on its list. -/
theorem stepRunsTheEvent : Obligations.StepRunsTheEvent := by
  refine ⟨fun s e r ho hf h => ⟨?_, State.pick_input h⟩, fun s e r ho hf h => ⟨?_, State.pick_event h⟩,
    fun s o r ho hf h => ⟨?_, State.pick_occur h⟩, fun s x ho hf h => ?_, fun s ho hf h => ?_, fun s e r ho hi he => ?_,
    fun s e r ho hi he => ?_, fun s ho hi => ?_, fun s e r ho hf h => ?_, fun s e r ho hf h => ⟨State.pickFrozen_event h, ?_⟩,
    fun s o r ho hf h => ?_, fun s ho hf h hl => ?_, fun s ho hf h hl => ?_⟩
  · rw [step_run ho hf, h]; rfl
  · rw [step_run ho hf, h]; rfl
  · rw [step_run ho hf, h]; rfl
  · rw [step_run ho hf, h]; rfl
  · rw [step_run ho hf, h]; rfl
  · simp [step, ho, hi, he]
  · refine ⟨_, by simp [step, ho, hi, he, State.runEv]; rfl, rfl, rfl, rfl⟩
  · simp [step, ho, hi]
  · rw [step_runFrozen ho hf, h]; rfl
  · rw [step_runFrozen ho hf, h]; rfl
  · rw [step_runFrozen ho hf, h]; rfl
  · have : ¬ freezeLimit ≤ s.frozen + 1 := by unfold freezeLimit; omega
    rw [step_runFrozen ho hf, h]; simp [State.runFrozen, this]
  · have : freezeLimit ≤ s.frozen + 1 := hl
    rw [step_runFrozen ho hf, h]; simp [State.runFrozen, this]

end Sys2Proof

namespace Sys2Proof.Machine

/-! # Frames

What the shared operations on interrupts, key slots, the schedule and the faults of a partition leave as it is. Each relation gives the state
after as the state before with named fields replaced, so that a field not named is the same by `rfl`. -/

/-! ## The schedule -/

/-- Only events are added to the agenda. -/
structure AddsEvents (s t : State) : Prop where
  eq : t = { s with agenda := t.agenda }
  events : ∀ e ∈ s.agenda, e ∈ t.agenda

namespace AddsEvents

variable {s t u : State}

theorem refl (s : State) : AddsEvents s s := ⟨rfl, fun _ h => h⟩

theorem trans (a : AddsEvents s t) (b : AddsEvents t u) : AddsEvents s u :=
  ⟨by have e := b.eq; rw [a.eq] at e; exact e, fun e h => b.events e (a.events e h)⟩

theorem schedC (s : State) (n : Nat) (c : CoreIx) (i : Instr) : AddsEvents s (s.schedC n c i) :=
  ⟨rfl, fun _ h => (mem_agendaPut_iff ..).mpr (.inr h)⟩

theorem schedP (s : State) (n : Nat) (p : PartIx) (i : Instr) : AddsEvents s (s.schedP n p i) :=
  ⟨rfl, fun _ h => (mem_agendaPut_iff ..).mpr (.inr h)⟩

theorem sched (s : State) (n : Nat) (i : Instr) : AddsEvents s (s.sched n i) :=
  ⟨rfl, fun _ h => (mem_agendaPut_iff ..).mpr (.inr h)⟩

theorem foldl {α : Type} {f : State → α → State} (hf : ∀ s a, AddsEvents s (f s a)) (l : List α) (s : State) : AddsEvents s (l.foldl f s) := by
  induction l generalizing s with
  | nil => exact refl s
  | cons a l ih => exact (hf s a).trans (ih _)

theorem hotCheck (s : State) (c : CoreIx) : AddsEvents s (s.hotCheck c) := by
  unfold State.hotCheck
  split
  · exact schedC ..
  · exact refl s

theorem hotCheckAll (s : State) : AddsEvents s s.hotCheckAll := by
  refine foldl (fun s x => ?_) _ s
  split
  · exact hotCheck ..
  · exact refl s

theorem core (h : AddsEvents s t) (c : CoreIx) : t.core c = s.core c := by rw [h.eq]; rfl
theorem col (h : AddsEvents s t) (c : CoreIx) : t.col c = s.col c := by rw [h.eq]; rfl
theorem part (h : AddsEvents s t) (p : PartIx) : t.part p = s.part p := by rw [h.eq]; rfl

end AddsEvents

/-! ## Key slots (R78) -/

/-- Only key slots and the writes held for them change, and no write is held that was not. -/
structure KeysOnly (s t : State) : Prop where
  eq : t = { s with helm := { s.helm with keys := t.helm.keys, keyHeld := t.helm.keyHeld } }
  held : ∀ x ∈ t.helm.keyHeld, x ∈ s.helm.keyHeld
  same : s.helm.keyHeld = [] → t = s

namespace KeysOnly

variable {s t u : State}

theorem refl (s : State) : KeysOnly s s := ⟨rfl, fun _ h => h, fun _ => rfl⟩

theorem trans (a : KeysOnly s t) (b : KeysOnly t u) : KeysOnly s u :=
  ⟨by have e := b.eq; rw [a.eq] at e; exact e, fun x h => a.held x (b.held x h), fun h => by
    have e := a.same h
    subst e
    exact b.same h⟩

theorem foldl {α : Type} {f : State → α → State} (hf : ∀ s a, KeysOnly s (f s a)) (l : List α) (s : State) : KeysOnly s (l.foldl f s) := by
  induction l generalizing s with
  | nil => exact refl s
  | cons a l ih => exact (hf s a).trans (ih _)

/-- Writes put into a key slot change the key slots only. -/
theorem foldl_keyPut (j : Fin 8) (l : List (Nat × Nat × BitVec 64)) (s : State) :
    ∃ ks, l.foldl (fun s x => s.keyPut j x.2.1 x.2.2.toNat) s = { s with helm := { s.helm with keys := ks } } := by
  induction l generalizing s with
  | nil => exact ⟨s.helm.keys, rfl⟩
  | cons x l ih => obtain ⟨ks, h⟩ := ih (s.keyPut j x.2.1 x.2.2.toNat); exact ⟨ks, h⟩

theorem keyFlush (s : State) (j : Fin 8) : KeysOnly s (s.keyFlush j) := by
  unfold State.keyFlush
  split
  · exact refl s
  · obtain ⟨ks, h⟩ := foldl_keyPut j (s.helm.keyHeld.partition fun x => x.1 == j.val).1
      { s with helm := { s.helm with keyHeld := (s.helm.keyHeld.partition fun x => x.1 == j.val).2 } }
    dsimp only
    refine ⟨by rw [h], fun x hx => ?_, fun hn => ?_⟩
    · rw [h] at hx
      simp only [List.partition_eq_filter_filter] at hx
      exact (List.mem_filter.mp hx).1
    · rw [hn]
      simp only [List.partition_eq_filter_filter, List.filter_nil, List.foldl_nil]
      rw [← hn]

end KeysOnly

/-! ## Faults of a partition -/

/-- What a fault of a partition may change: the partition, interrupts, key slots freed, messages on its links, free values drawn; the agenda
loses no event and no interrupt is taken back. -/
structure FaultFrame (p : PartIx) (s t : State) : Prop where
  eq : t = { s with
    parts := t.parts, fab := t.fab, agenda := t.agenda, freeIx := t.freeIx
    hif := { s.hif with intst := t.hif.intst, mbev := t.hif.mbev, msix := t.hif.msix }
    helm := { s.helm with keys := t.helm.keys, keyHeld := t.helm.keyHeld } }
  others : ∀ q, q ≠ p → t.part q = s.part q
  ints : ∀ v : Fin 8, s.hif.intst.getLsb v = true → t.hif.intst.getLsb v = true
  events : ∀ e ∈ s.agenda, e ∈ t.agenda

namespace FaultFrame

variable {p : PartIx} {s t u : State}

theorem refl (p : PartIx) (s : State) : FaultFrame p s s := ⟨rfl, fun _ _ => rfl, fun _ h => h, fun _ h => h⟩

theorem trans (a : FaultFrame p s t) (b : FaultFrame p t u) : FaultFrame p s u :=
  ⟨by have e := b.eq; rw [a.eq] at e; exact e, fun q hq => (b.others q hq).trans (a.others q hq), fun v h => b.ints v (a.ints v h),
    fun e h => b.events e (a.events e h)⟩

theorem updPart (s : State) (p : PartIx) (f : Part → Part) : FaultFrame p s (s.updPart p f) :=
  ⟨rfl, fun _ hq => s.part_updPart_ne hq f, fun _ h => h, fun _ h => h⟩

theorem of_addsEvents (p : PartIx) (h : AddsEvents s t) : FaultFrame p s t :=
  ⟨by have e := h.eq; rw [e], fun q _ => by rw [h.eq]; rfl, fun v hv => by rw [h.eq]; exact hv, h.events⟩

theorem of_keysOnly (p : PartIx) (h : KeysOnly s t) : FaultFrame p s t :=
  ⟨by have e := h.eq; rw [e], fun q _ => by rw [h.eq]; rfl, fun v hv => by rw [h.eq]; exact hv, fun e he => by rw [h.eq]; exact he⟩

end FaultFrame

/-! ## Interrupts (R79) -/

/-- Bit v of a register with bit v set is set. -/
theorem getLsb_or_bit {w : Nat} (x : BitVec w) (v : Fin w) : (x ||| (1 <<< v.val)).getLsb v = true := by
  have hv := v.isLt
  simp [BitVec.getLsb, hv]

/-- A bit of a register that is set stays set with another. -/
theorem getLsb_or_of_left {w : Nat} {x : BitVec w} (y : BitVec w) {v : Fin w} (h : x.getLsb v = true) : (x ||| y).getLsb v = true := by
  simp only [BitVec.getLsb] at h ⊢
  simp [h]

theorem State.pfInt_intst (s : State) (v : Fin 8) : (s.pfInt v).hif.intst = s.hif.intst ||| (1 <<< v.val) := by
  unfold State.pfInt
  dsimp only
  split <;> rfl

theorem State.pfInt_eq (s : State) (v : Fin 8) : s.pfInt v =
    { s with hif := { s.hif with intst := s.hif.intst ||| (1 <<< v.val), msix := (s.pfInt v).hif.msix } } := by
  unfold State.pfInt
  dsimp only
  split <;> rfl

theorem State.pfInt_agenda (s : State) (v : Fin 8) : (s.pfInt v).agenda = s.agenda := by rw [s.pfInt_eq v]

namespace FaultFrame

variable (s : State) (p : PartIx)

theorem pfInt (v : Fin 8) : FaultFrame p s (s.pfInt v) := by
  refine ⟨by rw [s.pfInt_eq v], fun q _ => by rw [s.pfInt_eq v]; rfl, fun i h => ?_, fun e he => by rw [s.pfInt_agenda v]; exact he⟩
  rw [s.pfInt_intst v]
  exact getLsb_or_of_left _ h

theorem vfInt (v : Fin 2) : FaultFrame p s (s.vfInt p v) := by
  unfold State.vfInt
  dsimp only
  split
  · exact (updPart s p _).trans ⟨rfl, fun _ _ => rfl, fun _ h => h, fun _ h => h⟩
  · exact updPart s p _

theorem mailEvent : FaultFrame p s (s.mailEvent p) := by
  unfold State.mailEvent
  split
  · have hbit (t : State) (m : BitVec 48) : FaultFrame p t { t with hif := { t.hif with mbev := m } } :=
      ⟨rfl, fun _ _ => rfl, fun _ h => h, fun _ h => h⟩
    exact ((vfInt s p 0).trans (hbit _ _)).trans (pfInt _ p 5)
  · exact refl p s

theorem slotTo (j : Fin 8) (st : CtxState) : FaultFrame p s (s.slotTo p j st) := by
  unfold State.slotTo
  dsimp only
  split
  · exact (updPart s p _).trans (mailEvent _ p)
  · exact updPart s p _

/-! ## Hard faults (R148) -/

theorem originateStop (code : Nat) : FaultFrame p s (s.originateStop p code) := by
  have hfab (f : Fabric) (t : State) : FaultFrame p t { t with fab := f } := ⟨rfl, fun _ _ => rfl, fun _ h => h, fun _ h => h⟩
  unfold State.originateStop
  dsimp only
  split
  · exact refl p s
  · split
    · split
      · exact (hfab _ s).trans (of_addsEvents p (.schedP ..))
      · exact (hfab _ s).trans (of_addsEvents p (.sched ..))
    · exact (hfab _ s).trans (of_addsEvents p (.sched ..))

theorem kickHelm : FaultFrame p s (s.kickHelm p) := by
  unfold State.kickHelm
  split
  · exact refl p s
  · have hdraw : FaultFrame p s s.drawHelm.2 := ⟨rfl, fun _ _ => rfl, fun _ h => h, fun _ h => h⟩
    exact (hdraw.trans (updPart _ p _)).trans (of_addsEvents p (.schedP ..))

theorem unname (j : Fin 8) : FaultFrame p s (s.unname p j) := by
  unfold State.unname
  split
  · exact refl p s
  · exact (updPart s p _).trans (of_keysOnly p (.keyFlush ..))

theorem endSlot (j : Fin 8) (st : CtxState) (code : Nat) : FaultFrame p s (s.endSlot p j st code) :=
  ((((updPart s p _).trans (unname _ p j)).trans (slotTo _ p j st)).trans (kickHelm _ p)).trans (of_addsEvents p (.hotCheckAll _))

theorem storedFault (code : Nat) : FaultFrame p s (s.storedFault p code) := by
  unfold State.storedFault
  split
  · exact (updPart s p _).trans (endSlot _ p _ _ _)
  · exact refl p s

theorem hardFault (h : Halting) (told : Bool) : FaultFrame p s (s.hardFault p h told) := by
  have htell (t : State) : FaultFrame p t (if told then t else t.originateStop p h.code) := by
    split
    · exact refl p t
    · exact originateStop t p _
  unfold State.hardFault
  dsimp only
  split
  · split
    · exact (updPart s p _).trans (htell _)
    · exact updPart s p _
  · split
    · split
      · exact ((updPart s p _).trans (htell _)).trans (of_addsEvents p (.schedP ..))
      · split
        · exact updPart s p _
        · exact refl p s
    · split
      · exact (storedFault s p _).trans (htell _)
      · exact refl p s

theorem partFault (code : Nat) : FaultFrame p s (s.partFault p code) := hardFault s p _ _

theorem coreFault {s : State} {p : PartIx} {c : CoreIx} (hp : s.partOf c = some p) (e code : Nat) (pc : Int) (ia handle beat : Nat)
    (nests : Option (Vector Nest 6 × Nat)) : FaultFrame p s (s.coreFault c e code pc ia handle beat nests) := by
  simp only [State.coreFault, hp]
  exact hardFault s p _ _

variable {s p} {t : State}

theorem cores (h : FaultFrame p s t) : t.cores = s.cores := by rw [h.eq]
theorem cols (h : FaultFrame p s t) : t.cols = s.cols := by rw [h.eq]
theorem memory (h : FaultFrame p s t) : t.memory = s.memory := by rw [h.eq]
theorem reqs (h : FaultFrame p s t) : t.reqs = s.reqs := by rw [h.eq]
theorem chron (h : FaultFrame p s t) : t.chron = s.chron := by rw [h.eq]
theorem mig (h : FaultFrame p s t) : t.mig = s.mig := by rw [h.eq]
theorem ms (h : FaultFrame p s t) : t.ms = s.ms := by rw [h.eq]
theorem helm (h : FaultFrame p s t) : t.helm = { s.helm with keys := t.helm.keys, keyHeld := t.helm.keyHeld } := by rw [h.eq]
theorem core (h : FaultFrame p s t) (c : CoreIx) : t.core c = s.core c := by rw [h.eq]; rfl
theorem col (h : FaultFrame p s t) (c : CoreIx) : t.col c = s.col c := by rw [h.eq]; rfl
theorem partOf (h : FaultFrame p s t) (c : CoreIx) : t.partOf c = s.partOf c := by rw [h.eq]; rfl

theorem sameUnits (h : FaultFrame p s t) : SameUnits s t := by
  rw [h.eq]
  exact ⟨rfl, rfl, rfl, rfl, rfl, rfl, rfl, rfl, rfl⟩

end FaultFrame

/-! ## The halt a fault begins (R148) -/

section Running

variable {s : State} {p : PartIx} (hr : Running s p)
include hr

/-- A hard fault of a running partition begins its halt and is told on its links; the halt line comes 8 cycles later. -/
theorem State.hardFault_running (h : Halting) (told : Bool) :
    s.hardFault p h told =
      (let u := s.updPart p fun q => { q with halting := some h, outgoing := none, ckreq := false }
       (if told then u else u.originateStop p h.code).schedP (s.chron + 8) p .partitionHalt) := by
  obtain ⟨hsw, hh, hrun⟩ := hr
  obtain ⟨j, hj⟩ := Option.isSome_iff_exists.mp hrun
  simp only [State.hardFault, hsw, hj, hh, Bool.false_eq_true, if_false]
  rfl

/-- The partition as a hard fault begins its halt. -/
theorem State.part_hardFault_running (h : Halting) (told : Bool) :
    (s.hardFault p h told).part p = { s.part p with halting := some h, outgoing := none, ckreq := false } := by
  rw [State.hardFault_running hr]
  dsimp only
  have horig (u : State) (code : Nat) : (u.originateStop p code).part p = u.part p := by
    unfold State.originateStop
    dsimp only
    (repeat' split) <;> rfl
  cases told <;> simp [horig]

/-- The halt line of a hard fault is on the agenda. -/
theorem State.halt_mem_hardFault (h : Halting) (told : Bool) :
    ∃ v ∈ (s.hardFault p h told).agenda, v.cycle = s.chron + 8 ∧ v.part = p ∧ v.instr = .partitionHalt := by
  rw [State.hardFault_running hr]
  exact ⟨_, mem_agendaPut _ _, rfl, rfl, rfl⟩

theorem State.part_partFault_running (code : Nat) : (s.partFault p code).part p =
    { s.part p with
      halting := some { code := code, cycle := s.chron, core := 0x1FF, eng := 0, pc := -1 }, outgoing := none, ckreq := false } :=
  State.part_hardFault_running hr _ _

/-- A machine check of a running partition. -/
theorem State.checks_partFault (code : Nat) : Checks s (s.partFault p code) p code :=
  ⟨⟨_, by rw [State.part_partFault_running hr], rfl, rfl, rfl, rfl⟩, State.halt_mem_hardFault hr _ _⟩

end Running

/-- A machine check stands while the halt does and no event is lost. -/
theorem Checks.mono {s t u : State} {p : PartIx} {code : Nat} (h : Checks s t p code) (hp : (u.part p).halting = (t.part p).halting)
    (he : ∀ e ∈ t.agenda, e.instr = .partitionHalt → e ∈ u.agenda) : Checks s u p code := by
  obtain ⟨⟨x, hx, hrest⟩, v, hv, hc, hvp, hi⟩ := h
  exact ⟨⟨x, hp.trans hx, hrest⟩, v, he v hv hi, hc, hvp, hi⟩

/-- A machine check of a state is one of any with the same cycle. -/
theorem Checks.of_chron {s s' t : State} {p : PartIx} {code : Nat} (h : Checks s' t p code) (hc : s'.chron = s.chron) : Checks s t p code := by
  unfold Checks at *
  rwa [hc] at h

end Sys2Proof.Machine

namespace Sys2Proof

open Machine

/-- A module in which a partition's context is switched out and alone names key slot 0, with a write held for that slot (R78, R142). -/
def Machine.State.holdsKeyWrite : State :=
  { helm := { keyHeld := [(0, 0, 1)] }, parts := [(0, { slots := (Vector.replicate 8 {}).set 0 { st := .preempted, key := some 0 } })] }

/-- The check ends the context, which then names its key slot no longer, and the held write applies in that cycle (R63, R78). -/
theorem Machine.State.keyHeld_thermalEmergency : (State.holdsKeyWrite.emergency 0x71).helm.keyHeld = [] := by decide +kernel

/-- Refutes O41: a thermal emergency ends a context that is switched out, and a write held for the key slot it named applies, so that the Helm's
registers change in more than EMERG, EMCODE and the condition. -/
theorem not_interruptsAndPower : ¬ Obligations.InterruptsAndPower := by
  rintro ⟨-, hthermal, -⟩
  obtain ⟨t, ht, hhelm, -⟩ := hthermal State.holdsKeyWrite
  have hex : exec .thermalEmergency State.holdsKeyWrite = .next (State.holdsKeyWrite.emergency 0x71) := rfl
  have hkeys := State.keyHeld_thermalEmergency
  rw [Host.Outcome.next.inj (hex.symm.trans ht), hhelm] at hkeys
  exact absurd hkeys (by decide)

end Sys2Proof

/-! # The row controller (R34, R211 to R215) -/

namespace Sys2Proof.Machine

/-! ## Refresh slots (R34) -/

theorem Column.period_pos (k : Column) : 0 < k.period := by
  unfold Column.period refPer
  split <;> decide

theorem Column.slotOffset_lt (k : Column) (b t : Nat) : k.slotOffset b t < k.period := by
  have := k.period_pos
  unfold Column.slotOffset
  have h := Int.emod_lt_of_pos (((t : Int) - k.phase - refStride * b)) (show (0 : Int) < k.period by omega)
  omega

theorem Column.toSlot_eq_zero_iff (k : Column) (b t : Nat) : k.toSlot b t = 0 ↔ k.slotOffset b t = 0 := by
  have := k.slotOffset_lt b t
  unfold Column.toSlot
  dsimp only
  split <;> omega

theorem Column.toSlot_of_ne_zero {k : Column} {b t : Nat} (h : k.slotOffset b t ≠ 0) : k.toSlot b t = k.period - k.slotOffset b t := by
  simp [Column.toSlot, h]

/-- The cycles to the next slot of a bank lead to a cycle in which one begins. -/
theorem Column.slotOffset_add_toSlot (k : Column) (b t : Nat) : k.slotOffset b (t + k.toSlot b t) = 0 := by
  by_cases h : k.slotOffset b t = 0
  · simp [Column.toSlot, h]
  · have hlt := k.slotOffset_lt b t
    have hto := Column.toSlot_of_ne_zero h
    have hdef : (k.slotOffset b t : Int) = ((t : Int) - k.phase - refStride * b) % (k.period : Int) :=
      Int.toNat_of_nonneg (Int.emod_nonneg _ (by have := k.period_pos; omega))
    have hdvd : (k.period : Int) ∣ (((t + k.toSlot b t : Nat) : Int) - k.phase - refStride * b) := by
      have e : ((t + k.toSlot b t : Nat) : Int) - k.phase - refStride * b =
          ((t : Int) - k.phase - refStride * b) - (((t : Int) - k.phase - refStride * b) % (k.period : Int)) + k.period := by
        rw [← hdef, hto]; omega
      rw [e]
      exact Int.dvd_add (Int.dvd_self_sub_emod) (Int.dvd_refl _)
    rw [Column.slotOffset, Int.emod_eq_zero_of_dvd hdvd, Int.toNat_zero]

/-- A slot of a bank counts from its first, 80 cycles a bank after the column's phase, by the period in force. -/
theorem Column.slotOffset_eq {k : Column} {b t : Nat} (h : 80 * b + k.phase ≤ t) :
    k.slotOffset b t = (t - k.phase - 80 * b) % (if k.hot then 2730 else 5460) := by
  have e : (t : Int) - k.phase - refStride * b = ((t - k.phase - 80 * b : Nat) : Int) := by unfold refStride; omega
  have hp : k.period = if k.hot then 2730 else 5460 := rfl
  rw [← hp, Column.slotOffset, e, ← Int.natCast_emod, Int.toNat_natCast]

/-! ## Faults and states of the banks -/

/-- A hard fault the row controller of a column of a running partition raises. -/
theorem State.rowHalts_coreFault {s : State} {p : PartIx} {c : CoreIx} (hp : s.partOf c = some p) (hr : Running s p) (code beat : Nat) :
    RowHalts s (s.coreFault c 5 code (-1) 0 0xFFFF beat) p c code beat := by
  simp only [State.coreFault, hp]
  exact ⟨⟨_, by rw [State.part_hardFault_running hr], rfl, rfl, rfl, rfl, rfl, rfl⟩, State.halt_mem_hardFault hr _ _⟩

end Sys2Proof.Machine

namespace Sys2Proof

open Machine

/-- What REFRESH_SLOT_START does by the state of the bank and the offset in its slot. -/
theorem Machine.State.exec_refreshSlotStart (s : State) (c : CoreIx) (b : Fin 32) : exec (.refreshSlotStart c b) s =
    .next (if (s.col c).rows[b].at_ s.chron = 0 then s
      else if (s.col c).slotOffset b.val s.chron = 0 then s.coreFault c 5 0x53 (-1)
      else s.schedC (s.chron + ((s.col c).period - (s.col c).slotOffset b.val s.chron)) c (.refreshSlotStart c b)) := by
  show execRefreshSlotStart c b s = _
  unfold execRefreshSlotStart
  dsimp only
  by_cases h : (s.col c).slotOffset b.val s.chron = 0
  · rw [if_pos ((Column.toSlot_eq_zero_iff ..).mpr h), if_pos h]
  · rw [if_neg (fun e => h ((Column.toSlot_eq_zero_iff ..).mp e)), if_neg h, Column.toSlot_of_ne_zero h]

theorem rowControllerChecks : RowControllerChecks := by
  refine ⟨fun s c b h => ?_, fun s c b p hat hslot hp hr => ?_, fun s c b hat hslot => ?_, fun s c b row act lb p hrow ht hp hr => ?_,
    fun s c b act h => ?_, fun k b t h => Column.slotOffset_eq h⟩
  · rw [State.exec_refreshSlotStart, if_pos h]
  · refine ⟨s.coreFault c 5 0x53 (-1), ?_, State.rowHalts_coreFault hp hr .., (FaultFrame.coreFault hp ..).sameUnits⟩
    rw [State.exec_refreshSlotStart, if_neg hat, if_pos hslot]
  · rw [State.exec_refreshSlotStart, if_neg hat, if_neg hslot]
  · refine ⟨s.coreFault c 5 0x53 (-1), ?_, State.rowHalts_coreFault hp hr .., (FaultFrame.coreFault hp ..).sameUnits⟩
    show execRowOpenTooLong c b act s = _
    have ht' : act = act ∧ act + tRASmax < s.chron := ⟨rfl, ht⟩
    unfold execRowOpenTooLong
    rw [hrow]
    exact congrArg _ (if_pos ht')
  · show execRowOpenTooLong c b act s = _
    unfold execRowOpenTooLong
    split
    · next row act' lb hrow =>
      refine congrArg _ (if_neg ?_)
      rintro ⟨rfl, hlt⟩
      have hlt' : act' + 9800 < s.chron := hlt
      rcases h with h | h
      · exact h row lb hrow
      · omega
    · rfl

theorem rowStateEvents : RowStateEvents := by
  refine ⟨fun s c b row p hp hh hrun => ?_, fun s c b row act lb e hrow ht => ?_, fun s c b u hrow hu => ?_, fun s c b hrow => ?_⟩
  · have hstay : ¬ ((s.part p).halting.isSome = true ∨ (s.part p).runSlot.isNone = true ∧ ¬ (s.part p).switching = true) := by
      rcases hrun with h | ⟨h, -⟩
      · simp [hh, h]
      · simp [hh, Option.ne_none_iff_isSome.mpr h]
    have hgo : ¬ (s.preStopped c = true ∧ ¬ (s.part p).switching = true) := by
      rcases hrun with h | ⟨-, h⟩ <;> simp [h]
    have hexec : exec (.rowReactivation c b row) s = .next (s.activate c b row s.chron) := by
      show execRowReactivation c b row s = _
      simp only [execRowReactivation, hp]
      rw [if_neg hstay, if_neg hgo]
    refine ⟨_, hexec, ⟨?_, fun x hx => ?_⟩, ⟨_, mem_agendaPut _ _, rfl, rfl, rfl⟩, ?_, rfl, rfl, rfl, rfl, rfl, rfl, rfl⟩
    · unfold State.activate
      rw [State.schedC_col, State.schedC_col, State.col_updCol]
      rfl
    · unfold State.activate
      rw [State.schedC_col, State.schedC_col, State.col_updCol_ne _ hx]
    · refine ⟨_, (mem_agendaPut_iff ..).mpr (.inr (mem_agendaPut _ _)), ?_, ?_, rfl, rfl⟩
      · dsimp only; omega
      · exact Column.slotOffset_add_toSlot ..
  · show execPrechargeComplete c b s = _
    have ht' : e + tRP ≤ s.chron := ht
    unfold execPrechargeComplete
    rw [hrow]
    exact congrArg _ (if_pos ht')
  · show execPrechargeComplete c b s = _
    unfold execPrechargeComplete
    rw [hrow]
    exact congrArg _ (if_pos hu)
  · show execPrechargeComplete c b s = _
    unfold execPrechargeComplete
    rw [hrow]

/-- Settles O43: each event of a row controller by the state of its bank at the cycle. -/
theorem rowStates : Obligations.RowStates := ⟨rowControllerChecks, rowStateEvents⟩

end Sys2Proof

/-! # Resets (R26, R39, R46, R90, R91, R144) -/

namespace Sys2Proof.Machine

/-! ## Tables and memory under a map or a filter -/

theorem tget_map {α β : Type} (f : α → β) (l : List (Nat × α)) (a : Nat) : tget (l.map fun x => (x.1, f x.2)) a = (tget l a).map f := by
  induction l with
  | nil => rfl
  | cons x l ih =>
    obtain ⟨k, y⟩ := x
    simp only [List.map_cons, tget]
    split
    · rfl
    · exact ih

/-- Memory with the keys that lack a property dropped. -/
theorem readByte_filter (f : Nat → Bool) (m : List Host.Cell) (a : Nat) :
    readByte (m.filter fun x => f x.1) a = if f a then readByte m a else 0 := by
  induction m with
  | nil => simp [readByte]
  | cons x m ih =>
    obtain ⟨k, y⟩ := x
    by_cases hk : k = a
    · subst hk
      cases hf : f k <;> simp [readByte, hf, ih]
    · cases hf : f k <;> simp [readByte, hf, hk, ih]

/-! ## The warm reset -/

section Warm

variable (s : State) (busy : Bool)

theorem State.warm_core (c : CoreIx) : (s.warm busy).core c = { ctl := { secnt := (s.core c).ctl.secnt } } := by
  show (tget (s.cores.map fun x => (x.1, ({ ctl := { secnt := x.2.ctl.secnt } } : Core))) c.val).getD {} = _
  rw [tget_map (fun k : Core => ({ ctl := { secnt := k.ctl.secnt } } : Core))]
  unfold State.core
  cases tget s.cores c.val <;> rfl

theorem State.warm_col (c : CoreIx) : (s.warm busy).col c = (s.col c).warm := by
  show (tget (s.cols.map fun x => (x.1, x.2.warm)) c.val).getD {} = _
  rw [tget_map Column.warm]
  unfold State.col
  cases tget s.cols c.val <;> rfl

theorem State.warm_part (p : PartIx) : (s.warm busy).part p = { lastChart := (s.part p).lastChart } := by
  show (tget (s.parts.map fun x => (x.1, ({ lastChart := x.2.lastChart } : Part))) p.val).getD {} = _
  rw [tget_map (fun q : Part => ({ lastChart := q.lastChart } : Part))]
  unfold State.part
  cases tget s.parts p.val <;> rfl

/-- LPDDR6 memory stays; every other byte reads 0 (R46). -/
theorem State.warm_readByte (a : Nat) :
    readByte (s.warm busy).memory a = if 2 ^ 52 ≤ a ∧ a < 2 ^ 53 then readByte s.memory a else 0 := by
  show readByte (s.memory.filter fun x => lpddrKey x.1) a = _
  rw [readByte_filter]
  simp [lpddrKey]

/-- The sensors' events stay on the agenda, and the end of the boot is put on it while there is firmware (R46, R90). -/
theorem State.warm_agenda : (s.warm busy).agenda =
    if s.helm.fwerr then s.agenda.filter fun e => sensorEvent e.instr
    else agendaPut (s.agenda.filter fun e => sensorEvent e.instr)
      { cycle := s.chron + (1 + Config.helmLatency s.freeIx), instr := .bootComplete } := rfl

theorem State.warmReset : WarmReset s (s.warm busy) busy := by
  refine ⟨rfl, rfl, rfl, rfl, Iff.rfl, rfl, rfl, rfl, rfl, rfl, fun j => ?_, s.warm_readByte busy, s.warm_part busy, rfl, rfl, rfl, rfl, rfl, rfl, rfl,
    rfl, rfl, rfl, rfl, fun c => ?_, fun c => ?_, fun hf => ?_, fun e he hb => ?_⟩
  · exact Vector.getElem_replicate ..
  · rw [s.warm_col busy c]
    exact ⟨rfl, rfl, rfl, rfl, rfl, rfl, rfl, rfl, rfl, rfl, rfl, rfl⟩
  · rw [s.warm_core busy c]
    exact ⟨rfl, rfl, rfl, rfl, rfl, rfl, rfl, rfl⟩
  · rw [s.warm_agenda busy, hf]
    exact ⟨_, mem_agendaPut _ _, by dsimp only; omega, rfl⟩
  · rw [s.warm_agenda busy] at he
    split at he
    · exact List.mem_filter.mp he
    · rcases (mem_agendaPut_iff ..).mp he with rfl | he
      · exact absurd rfl hb
      · exact List.mem_filter.mp he

end Warm

/-! ## The reset of a partition -/

theorem State.mem_coresOf (s : State) (p : PartIx) (c : CoreIx) : c ∈ s.coresOf p ↔ s.partOf c = some p := by
  simp [State.coresOf, allCores]

/-- A function applied to each core of a list, each once. -/
theorem State.core_foldl_upd {l : List CoreIx} (hl : l.Nodup) (f : Core → Core) (s : State) (c : CoreIx) :
    (l.foldl (fun s c => s.upd c f) s).core c = if c ∈ l then f (s.core c) else s.core c := by
  induction l generalizing s with
  | nil => rfl
  | cons x l ih =>
    obtain ⟨hx, hl⟩ := List.nodup_cons.mp hl
    rw [List.foldl_cons, ih hl]
    by_cases hc : c = x
    · subst hc; simp [hx]
    · simp [hc, State.core_upd_ne _ hc]

theorem State.coresOf_nodup (s : State) (p : PartIx) : (s.coresOf p).Nodup := (List.nodup_finRange 288).filter _

/-- Only cores change. -/
theorem State.foldl_upd_eq (f : Core → Core) (l : List CoreIx) (s : State) :
    l.foldl (fun s c => s.upd c f) s = { s with cores := (l.foldl (fun s c => s.upd c f) s).cores } := by
  induction l generalizing s with
  | nil => rfl
  | cons x l ih => rw [List.foldl_cons, ih]; rfl

/-! ### Rows closed (R99, R149, R160, R213) -/

/-- Only the banks of a column change their states, with events added. -/
structure RowsOnly (c : CoreIx) (s t : State) : Prop where
  eq : t = { s with cols := t.cols, agenda := t.agenda }
  others : ∀ x, x ≠ c → t.col x = s.col x
  rows : t.col c = { s.col c with rows := (t.col c).rows }
  events : ∀ e ∈ s.agenda, e ∈ t.agenda

namespace RowsOnly

variable {c : CoreIx} {s t u : State}

theorem refl (c : CoreIx) (s : State) : RowsOnly c s s := ⟨rfl, fun _ _ => rfl, rfl, fun _ h => h⟩

theorem trans (a : RowsOnly c s t) (b : RowsOnly c t u) : RowsOnly c s u :=
  ⟨by have e := b.eq; rw [a.eq] at e; exact e, fun x hx => (b.others x hx).trans (a.others x hx),
    by have e := b.rows; rw [a.rows] at e; exact e, fun e h => b.events e (a.events e h)⟩

theorem of_addsEvents (c : CoreIx) (h : AddsEvents s t) : RowsOnly c s t := by
  have hcol (x : CoreIx) : t.col x = s.col x := by rw [h.eq]; rfl
  exact ⟨by have e := h.eq; rw [e], fun x _ => hcol x, by rw [hcol c], h.events⟩

theorem setRow (s : State) (c : CoreIx) (b : Fin 32) (r : RowState) : RowsOnly c s (s.updCol c fun k => k.setRow b r) :=
  ⟨rfl, fun _ hx => s.col_updCol_ne hx _, by rw [State.col_updCol]; rfl, fun _ h => h⟩

theorem rowPre (s : State) (c : CoreIx) (b : Fin 32) (n : Nat) : RowsOnly c s (s.rowPre c b n) := by
  unfold State.rowPre
  split
  · exact (setRow s c b _).trans (of_addsEvents c (.schedC ..))
  · exact refl c s

theorem closeRows (s : State) (c : CoreIx) (bs : List (Fin 32)) (n : Nat) : RowsOnly c s (s.closeRows c bs n) := by
  unfold State.closeRows
  induction bs generalizing s with
  | nil => exact refl c s
  | cons b bs ih =>
    rw [List.foldl_cons]
    refine trans ?_ (ih _)
    split
    · exact rowPre ..
    · exact refl c s

end RowsOnly

/-- The rows of several columns are closed: outside them no column changes, and no bank changes but its row state. -/
theorem State.foldl_closeRows_frame {f : State → CoreIx → State} (hf : ∀ s c, RowsOnly c s (f s c)) (l : List CoreIx) (s : State) :
    l.foldl f s = { s with cols := (l.foldl f s).cols, agenda := (l.foldl f s).agenda }
      ∧ (∀ x, x ∉ l → (l.foldl f s).col x = s.col x) ∧ (∀ x, ((l.foldl f s).col x).dram = (s.col x).dram) := by
  induction l generalizing s with
  | nil => exact ⟨rfl, fun _ _ => rfl, fun _ => rfl⟩
  | cons c l ih =>
    obtain ⟨heq, hout, hdram⟩ := ih (f s c)
    have hc := hf s c
    rw [List.foldl_cons]
    refine ⟨by have e := heq; rw [hc.eq] at e; rw [hc.eq]; exact e, fun x hx => ?_, fun x => ?_⟩
    · obtain ⟨hxc, hxl⟩ := not_or.mp fun h => hx (List.mem_cons.mpr h)
      rw [hout x hxl, hc.others x hxc]
    · rw [hdram x]
      by_cases hx : x = c
      · subst hx; rw [hc.rows]
      · rw [hc.others x hx]

/-! ### The steps of the reset -/

variable (s : State) (p : PartIx)

/-- The module with the accesses, events and rows of a partition's cores gone, before its registers are reset. -/
def State.partQuiet : State :=
  let u := s.abandon (s.coresOf p)
  (s.coresOf p).foldl (fun s c => s.closeRows c ((s.col c).openIn (BitVec.allOnes 32) s.chron) s.chron) { u with
    agenda := u.agenda.filter fun e => !partEvent p e && !(coreEvent e.instr && (s.coresOf p).contains e.core)
    reqs := u.reqs.filter fun r => !(r.who == 8 && r.part == some p) }

/-- The module with a partition's cores and its registers reset, before writes held for its key slots apply. -/
def State.partBlank : State :=
  ((s.coresOf p).foldl (fun s c => s.upd c Core.partReset) (s.partQuiet p)).updPart p fun q => { lastChart := q.lastChart }

theorem State.partQuiet_frame :
    s.partQuiet p = { s with reqs := (s.partQuiet p).reqs, cols := (s.partQuiet p).cols, agenda := (s.partQuiet p).agenda }
      ∧ (∀ x, s.partOf x ≠ some p → (s.partQuiet p).col x = s.col x) ∧ ∀ x, ((s.partQuiet p).col x).dram = (s.col x).dram := by
  obtain ⟨heq, hout, hdram⟩ := State.foldl_closeRows_frame
    (f := fun s c => s.closeRows c ((s.col c).openIn (BitVec.allOnes 32) s.chron) s.chron) (fun _ _ => .closeRows ..) (s.coresOf p)
    { s.abandon (s.coresOf p) with
      agenda := (s.abandon (s.coresOf p)).agenda.filter fun e => !partEvent p e && !(coreEvent e.instr && (s.coresOf p).contains e.core)
      reqs := (s.abandon (s.coresOf p)).reqs.filter fun r => !(r.who == 8 && r.part == some p) }
  refine ⟨?_, fun x hx => ?_, fun x => ?_⟩
  · unfold State.partQuiet; dsimp only; rw [heq]; rfl
  · exact hout x fun h => hx ((s.mem_coresOf p x).mp h)
  · exact hdram x

/-- The requests of the partition's engines and its stop records are dropped, and no other (R46). -/
theorem State.mem_partQuiet_reqs (r : Req) : r ∈ (s.partQuiet p).reqs ↔
    r ∈ s.reqs ∧ ¬ (r.who < 5 ∧ s.partOf r.core = some p) ∧ ¬ (r.who = 8 ∧ r.part = some p) := by
  have hreqs : (s.partQuiet p).reqs =
      (s.reqs.filter fun r => !r.ofCores (s.coresOf p)).filter fun r => !(r.who == 8 && r.part == some p) := by
    unfold State.partQuiet
    dsimp only
    rw [(State.foldl_closeRows_frame (fun s c => RowsOnly.closeRows ..) _ _).1]
    rfl
  rw [hreqs]
  simp only [List.mem_filter, Req.ofCores, Bool.not_eq_true', Bool.eq_false_iff, ne_eq, Bool.and_eq_true, decide_eq_true_eq, beq_iff_eq,
    List.contains_iff_mem, State.mem_coresOf]
  tauto

theorem State.partBlank_frame : s.partBlank p = { s.partQuiet p with cores := (s.partBlank p).cores, parts := (s.partBlank p).parts } := by
  unfold State.partBlank
  rw [State.foldl_upd_eq]
  rfl

theorem State.partBlank_part : (s.partBlank p).part p = { lastChart := (s.part p).lastChart } := by
  unfold State.partBlank
  rw [State.part_updPart, State.foldl_upd_eq, (s.partQuiet_frame p).1]
  rfl

theorem State.partBlank_part_ne {q : PartIx} (h : q ≠ p) : (s.partBlank p).part q = s.part q := by
  unfold State.partBlank
  rw [State.part_updPart_ne _ h, State.foldl_upd_eq, (s.partQuiet_frame p).1]
  rfl

theorem State.partBlank_core (c : CoreIx) : (s.partBlank p).core c = if s.partOf c = some p then (s.core c).partReset else s.core c := by
  unfold State.partBlank
  rw [State.updPart_core, State.core_foldl_upd (s.coresOf_nodup p), (s.partQuiet_frame p).1]
  simp only [State.mem_coresOf]
  rfl

/-- What a partition reset does after that: writes held for the key slots its contexts named apply, and refresh changes that no window
keeps waiting any longer are scheduled (R40, R78). -/
theorem State.partReset_frame : ∃ u, KeysOnly (s.partBlank p) u ∧ AddsEvents u (s.partReset p) :=
  ⟨_, KeysOnly.foldl (fun s k => .keyFlush s (Fin.ofNat 8 k)) _ _, AddsEvents.hotCheckAll _⟩

end Sys2Proof.Machine

namespace Sys2Proof

open Machine

theorem coldReset : ColdReset := by
  intro s
  refine ⟨1 + Config.helmLatency s.freeIx % (bootLimit - 1), by omega, ?_, ?_⟩
  · have := Nat.mod_lt (Config.helmLatency s.freeIx) (show 0 < bootLimit - 1 by decide)
    have : bootLimit = 2100000000 := rfl
    omega
  · show execColdReset s = _
    unfold execColdReset
    cases hst : s.helm.flashStaged with
    | none => simp only [hst]; rfl
    | some v => cases hb : s.helm.fwb <;> simp only [hst, hb] <;> rfl

theorem warmResetAndPowerLoss : WarmResetAndPowerLoss := ⟨fun s => ⟨_, rfl, s.warmReset false⟩, fun _ => rfl⟩

theorem partitionReset : PartitionReset := by
  intro s
  obtain ⟨u, hkeys, hadds⟩ := s.partReset_frame s.curPart
  obtain ⟨hquiet, hcol, hdram⟩ := s.partQuiet_frame s.curPart
  have hblank := s.partBlank_frame s.curPart
  have hhelm : (s.partBlank s.curPart).helm = s.helm := by rw [hblank, hquiet]
  have heq : s.partReset s.curPart = { s with
      reqs := (s.partQuiet s.curPart).reqs, cols := (s.partQuiet s.curPart).cols, agenda := (s.partReset s.curPart).agenda
      cores := (s.partBlank s.curPart).cores, parts := (s.partBlank s.curPart).parts, helm := u.helm } := by
    rw [hadds.eq, hkeys.eq, hblank, hquiet]
  have hreq (r : Req) (hr : r ∈ (s.partReset s.curPart).reqs) := (s.mem_partQuiet_reqs s.curPart r).mp (by rw [heq] at hr; exact hr)
  have hcore (c : CoreIx) : (s.partReset s.curPart).core c = (s.partBlank s.curPart).core c := by rw [heq]; rfl
  have hpart (p : PartIx) : (s.partReset s.curPart).part p = (s.partBlank s.curPart).part p := by rw [heq]; rfl
  have hcolEq (c : CoreIx) : (s.partReset s.curPart).col c = (s.partQuiet s.curPart).col c := by rw [heq]; rfl
  refine ⟨s.partReset s.curPart, rfl, ?_, fun p hp => ?_, fun c hc => ?_, fun c hc => ⟨?_, ?_⟩, fun c => ?_, by rw [heq], by rw [heq], by rw [heq],
    ?_, fun hn => ?_, fun x hx => ?_, by rw [heq], by rw [heq], by rw [heq], by rw [heq], fun c hc r hr hrc => ?_, fun r hr => ?_, by rw [heq]⟩
  · rw [hpart, s.partBlank_part]
  · rw [hpart, s.partBlank_part_ne _ hp]
  · rw [hcore, s.partBlank_core, if_pos hc]; rfl
  · rw [hcore, s.partBlank_core, if_neg hc]
  · rw [hcolEq, hcol c hc]
  · rw [hcolEq, hdram c]
  · have e := congrArg State.helm hkeys.eq
    rw [heq, ← hhelm]
    exact e
  · have e := congrArg State.helm (hkeys.same (by rw [hhelm]; exact hn))
    rw [heq, ← hhelm]
    exact e
  · rw [heq] at hx
    rw [← hhelm]
    exact hkeys.held x hx
  · obtain ⟨-, hwho, -⟩ := hreq r hr
    exact Nat.not_lt.mp fun h => hwho ⟨h, by rw [hrc]; exact hc⟩
  · obtain ⟨hmem, -, hstop⟩ := hreq r hr
    exact ⟨hmem, hstop⟩

/-- Settles O39: a cold reset by evaluation, a warm one field by field (`State.warmReset`), a partition's by what each step of it may change
(`State.partReset_frame`). -/
theorem resets : Obligations.Resets := ⟨coldReset, warmResetAndPowerLoss, partitionReset⟩

end Sys2Proof

/-! # The end of the boot and the commands of the Helm (R46, R76, R77, R90) -/

namespace Sys2Proof.Machine

/-! ## The survey (R30, R39, R46) -/

/-- A table over every core has an entry for each. -/
theorem tget_map_allCores {α : Type} (f : CoreIx → α) (c : CoreIx) : tget (allCores.map fun (x : CoreIx) => (x.val, f x)) c.val = some (f c) := by
  have hfind (l : List CoreIx) (hc : c ∈ l) : tget (l.map fun (x : CoreIx) => (x.val, f x)) c.val = some (f c) := by
    induction l with
    | nil => cases hc
    | cons x l ih =>
      simp only [List.map_cons, tget]
      split
      next h => rw [Fin.ext h]
      next h =>
        refine ih ((List.mem_cons.mp hc).resolve_left fun e => h ?_)
        rw [e]
  exact hfind allCores (List.mem_finRange c)

theorem State.surveyChange_false (s : State) : s.surveyChange false = { s with helm := { s.helm with gen := s.helm.gen + 2 } } := rfl

/-- The survey after a cold reset: an entry of each column, with what its sensors and counters have given. -/
theorem State.survey_col_cold (s : State) (c : CoreIx) :
    (s.survey true).col c = (surveyColumn s.helm.flashRetired c.val).sensed (s.col c) := by
  show (tget (allCores.map fun (c : CoreIx) => (c.val, (surveyColumn s.helm.flashRetired c.val).sensed (s.col c))) c.val).getD {} = _
  rw [tget_map_allCores fun c : CoreIx => (surveyColumn s.helm.flashRetired c.val).sensed (s.col c)]
  rfl

/-- The survey after a warm reset keeps the map; a column it has is live. -/
theorem State.survey_col_warm (s : State) {c : CoreIx} (hc : (tget s.cols c.val).isSome) :
    (s.survey false).col c = { s.col c with live := true } := by
  show (tget (s.cols.map fun x => (x.1, { x.2 with live := true })) c.val).getD {} = _
  obtain ⟨k, hk⟩ := Option.isSome_iff_exists.mp hc
  have hmap := tget_map (fun k : Column => { k with live := true }) s.cols c.val
  rw [hk] at hmap
  unfold State.col
  rw [hk]
  exact congrArg (Option.getD · {}) hmap

/-- The bank states of the survey after a cold reset: those the flash records, else what was built (R35, R39). -/
theorem State.survey_dram (s : State) (c : CoreIx) (b : Fin 32) :
    ((s.survey true).col c).dram[b] = surveyBank s.helm.flashRetired c.val b := by
  rw [State.survey_col_cold]
  exact Vector.getElem_ofFn ..

/-! ## VALID (R46, R90) -/

/-- The module with its survey made and VALID set, before the completion of a WARMRST. -/
def State.surveyed (s : State) (cold : Bool) : State :=
  let u := s.survey cold
  { u with helm := { s.helm with
      gen := s.helm.gen + 2, valid := true
      fwFloor := if s.helm.fwNew ∧ ¬ s.helm.fwb then max s.helm.fwFloor s.helm.fwver.toNat else s.helm.fwFloor, fwNew := false } }

theorem State.setValid_eq (s : State) (cold : Bool) : s.setValid cold =
    if s.helm.hcmdBusy ∧ s.helm.hcmd = 1 then (s.surveyed cold).sched s.chron .hcmdComplete else s.surveyed cold := by
  cases cold <;> rfl

theorem State.setValid_addsEvents (s : State) (cold : Bool) : AddsEvents (s.surveyed cold) (s.setValid cold) := by
  rw [State.setValid_eq]
  split
  · exact .sched ..
  · exact .refl _

/-- What a survey leaves as it is, and GEN, VALID and the floor after it. -/
theorem State.setValid_frame (s : State) (cold : Bool) : ∃ a, s.setValid cold =
    { s with
      cols := (s.survey cold).cols, agenda := a
      helm := { s.helm with
        gen := s.helm.gen + 2, valid := true
        fwFloor := if s.helm.fwNew ∧ ¬ s.helm.fwb then max s.helm.fwFloor s.helm.fwver.toNat else s.helm.fwFloor, fwNew := false } } := by
  refine ⟨(s.setValid cold).agenda, ?_⟩
  rw [(s.setValid_addsEvents cold).eq]
  cases cold <;> rfl

theorem State.setValid_col (s : State) (cold : Bool) (c : CoreIx) : (s.setValid cold).col c = (s.survey cold).col c := by
  obtain ⟨a, h⟩ := s.setValid_frame cold
  rw [h]
  rfl

/-! ## The choice of a firmware copy (R90) -/

theorem Helm.valid_of_floor_le {h : Helm} {v : Nat} (hv : h.fwFloor ≤ v) : h.valid_ (some v) = true := decide_eq_true hv

theorem Helm.not_valid_of_lt_floor {h : Helm} {copy : Option Nat} (hlow : ∀ u, copy = some u → u < h.fwFloor) : h.valid_ copy = false := by
  cases copy with
  | none => rfl
  | some u => exact decide_eq_false (Nat.not_le.mpr (hlow u rfl))

section Boot

variable {s : State} (hvalid : s.helm.valid = false)
include hvalid

/-- The module with copy A's firmware, or B's, running. -/
def State.running (s : State) (v : Nat) (b : Bool) : State := { s with helm := { s.helm with fwver := BitVec.ofNat 16 v, fwb := b } }

theorem State.bootComplete_copyA {v : Nat} (hver : s.helm.fwver = 0) (hA : s.helm.flashA = some v) (hfloor : s.helm.fwFloor ≤ v) :
    exec .bootComplete s = .next ((s.running v false).setValid true) := by
  have hcopy : s.helm.flashA.getD 0 = v := by rw [hA]; rfl
  refine congrArg _ ((if_neg (by simp [hvalid])).trans ((if_neg (by simp [hver])).trans ((if_pos ?_).trans ?_)))
  · rw [hA]
    exact Helm.valid_of_floor_le hfloor
  · rw [hcopy]
    rfl

theorem State.bootComplete_copyB {v : Nat} (hver : s.helm.fwver = 0) (hA : ∀ u, s.helm.flashA = some u → u < s.helm.fwFloor)
    (hB : s.helm.flashB = some v) (hfloor : s.helm.fwFloor ≤ v) : exec .bootComplete s = .next ((s.running v true).setValid true) := by
  have hcopy : s.helm.flashB.getD 0 = v := by rw [hB]; rfl
  refine congrArg _ ((if_neg (by simp [hvalid])).trans ((if_neg (by simp [hver])).trans ((if_neg (by simp [Helm.not_valid_of_lt_floor hA])).trans
    ((if_pos ?_).trans ?_))))
  · rw [hB]
    exact Helm.valid_of_floor_le hfloor
  · rw [hcopy]
    rfl

theorem State.bootComplete_none (hver : s.helm.fwver = 0) (hA : ∀ u, s.helm.flashA = some u → u < s.helm.fwFloor)
    (hB : ∀ u, s.helm.flashB = some u → u < s.helm.fwFloor) :
    exec .bootComplete s = .next { s with helm := { s.helm with fwerr := true } } := by
  show execBootComplete s = _
  simp only [execBootComplete, hvalid, hver, Helm.not_valid_of_lt_floor hA, Helm.not_valid_of_lt_floor hB, Bool.false_eq_true, if_false, ne_eq, not_true_eq_false]

theorem State.bootComplete_warm (hver : s.helm.fwver ≠ 0) : exec .bootComplete s = .next (s.setValid false) := by
  show execBootComplete s = _
  simp only [execBootComplete, hvalid, Bool.false_eq_true, if_false, if_pos hver]

/-- A copy that is high enough is found, whichever it is. -/
theorem State.bootComplete_some {v : Nat} (hver : s.helm.fwver = 0) (hcopy : s.helm.flashA = some v ∨ s.helm.flashB = some v)
    (hfloor : s.helm.fwFloor ≤ v) : ∃ w b, exec .bootComplete s = .next ((s.running w b).setValid true) := by
  by_cases hA : ∀ u, s.helm.flashA = some u → u < s.helm.fwFloor
  · have hB : s.helm.flashB = some v := hcopy.resolve_left fun h => absurd (hA v h) (Nat.not_lt.mpr hfloor)
    exact ⟨v, true, State.bootComplete_copyB hvalid hver hA hB hfloor⟩
  · push Not at hA
    obtain ⟨u, hu, hle⟩ := hA
    exact ⟨u, false, State.bootComplete_copyA hvalid hver hu hle⟩

end Boot

/-! ## Commands (R76, R77) -/

/-- Whether the partition a byte of PARTMAP names holds a live context (R77). -/
def State.byteLive (s : State) (b : BitVec 8) : Bool :=
  if h : b.toNat < 48 then (s.part ⟨b.toNat, h⟩).slots.toList.any fun x => x.st.live else false

theorem State.byteLive_iff (s : State) (b : BitVec 8) :
    s.byteLive b = true ↔ ∃ (p : PartIx) (j : Fin 8), p.val = b.toNat ∧ (s.part p).slots[j].st.live = true := by
  unfold State.byteLive
  constructor
  · intro h
    split at h
    next hb =>
      obtain ⟨x, hx, hlive⟩ := List.any_eq_true.mp h
      obtain ⟨i, hi, rfl⟩ := Vector.mem_iff_getElem.mp (Vector.mem_toList_iff.mp hx)
      exact ⟨⟨b.toNat, hb⟩, ⟨i, hi⟩, rfl, hlive⟩
    next => cases h
  · rintro ⟨p, j, hp, hlive⟩
    have hb : b.toNat < 48 := hp ▸ p.isLt
    obtain rfl : p = ⟨b.toNat, hb⟩ := Fin.ext hp
    rw [dif_pos hb]
    exact List.any_eq_true.mpr ⟨_, Vector.mem_toList_iff.mpr (Vector.getElem_mem j.isLt), hlive⟩

/-- Each byte is allowed, and a partition whose clusters change holds no live context. -/
theorem State.partApplyOk_iff (s : State) : s.partApplyOk = true ↔ ∀ c : Fin 48, partByteOk s.hif.partmapNext[c] = true
    ∧ (s.hif.partmap[c] = s.hif.partmapNext[c] ∨ s.byteLive s.hif.partmap[c] = false ∧ s.byteLive s.hif.partmapNext[c] = false) := by
  show (List.finRange 48).all (fun c => partByteOk s.hif.partmapNext[c]
    && (s.hif.partmap[c] == s.hif.partmapNext[c] || (!s.byteLive s.hif.partmap[c] && !s.byteLive s.hif.partmapNext[c]))) = true ↔ _
  rw [List.all_eq_true]
  refine ⟨fun h c => ?_, fun h c _ => ?_⟩
  · simpa only [Bool.and_eq_true, Bool.or_eq_true, beq_iff_eq, Bool.not_eq_true'] using h c (List.mem_finRange c)
  · simpa only [Bool.and_eq_true, Bool.or_eq_true, beq_iff_eq, Bool.not_eq_true'] using h c

theorem State.partApplyOk_of_quiet {s : State} (h : ∀ c : Fin 48, ((s.hif.partmapNext[c]).toNat < 48 ∨ s.hif.partmapNext[c] = 0x3F)
      ∧ (s.hif.partmap[c] ≠ s.hif.partmapNext[c] → ∀ (p : PartIx) (j : Fin 8),
          p.val = (s.hif.partmap[c]).toNat ∨ p.val = (s.hif.partmapNext[c]).toNat → (s.part p).slots[j].st.live = false)) :
    s.partApplyOk = true := by
  refine s.partApplyOk_iff.mpr fun c => ?_
  obtain ⟨hbyte, hquiet⟩ := h c
  refine ⟨by simpa [partByteOk] using hbyte, or_iff_not_imp_left.mpr fun hne => ?_⟩
  have hdead (b : BitVec 8) (hb : b = s.hif.partmap[c] ∨ b = s.hif.partmapNext[c]) : s.byteLive b = false := by
    rw [Bool.eq_false_iff, ne_eq, State.byteLive_iff]
    rintro ⟨p, j, hp, hlive⟩
    have hnames : p.val = (s.hif.partmap[c]).toNat ∨ p.val = (s.hif.partmapNext[c]).toNat := by
      rcases hb with rfl | rfl
      · exact .inl hp
      · exact .inr hp
    rw [hquiet hne p j hnames] at hlive
    cases hlive
  exact ⟨hdead _ (.inl rfl), hdead _ (.inr rfl)⟩

/-- PARTAPPLY is refused for a byte that names no partition and is not 0x3F. -/
theorem State.partApplyOk_of_byte {s : State} {c : Fin 48} (h : 48 ≤ (s.hif.partmapNext[c]).toNat) (hne : s.hif.partmapNext[c] ≠ 0x3F) :
    s.partApplyOk = false := by
  rw [Bool.eq_false_iff, ne_eq, State.partApplyOk_iff]
  intro hok
  obtain ⟨hbyte, -⟩ := hok c
  rw [partByteOk, Bool.or_eq_true, decide_eq_true_eq, beq_iff_eq] at hbyte
  exact hbyte.elim (Nat.not_lt.mpr h) hne

/-- PARTAPPLY is refused where a partition whose clusters change holds a live context. -/
theorem State.partApplyOk_of_live {s : State} {c : Fin 48} {p : PartIx} {j : Fin 8} (hne : s.hif.partmap[c] ≠ s.hif.partmapNext[c])
    (hp : p.val = (s.hif.partmap[c]).toNat ∨ p.val = (s.hif.partmapNext[c]).toNat) (hlive : (s.part p).slots[j].st.live = true) :
    s.partApplyOk = false := by
  rw [Bool.eq_false_iff, ne_eq, State.partApplyOk_iff]
  intro hok
  obtain ⟨-, hsame⟩ := hok c
  obtain ⟨hold, hnew⟩ := hsame.resolve_left hne
  rcases hp with hp | hp
  · exact Bool.false_ne_true (hold.symm.trans ((s.byteLive_iff _).mpr ⟨p, j, hp, hlive⟩))
  · exact Bool.false_ne_true (hnew.symm.trans ((s.byteLive_iff _).mpr ⟨p, j, hp, hlive⟩))

end Sys2Proof.Machine

namespace Sys2Proof

open Machine

theorem bootComplete : BootComplete := by
  refine ⟨fun s v hvalid hver hA hfloor => ⟨_, State.bootComplete_copyA hvalid hver hA hfloor, ?_⟩,
    fun s v hvalid hver hA hB hfloor => ⟨_, State.bootComplete_copyB hvalid hver hA hB hfloor, ?_⟩,
    fun s hvalid hver hA hB => State.bootComplete_none hvalid hver hA hB, fun s hvalid hver => ⟨_, State.bootComplete_warm hvalid hver, ?_⟩,
    fun s hvalid => ?_, fun s v hvalid hver hcopy hfloor => ?_⟩
  · obtain ⟨a, heq⟩ := (s.running v false).setValid_frame true
    have hcol (c : CoreIx) : ((s.running v false).setValid true).col c = (surveyColumn s.helm.flashRetired c.val).sensed (s.col c) := by
      rw [State.setValid_col, State.survey_col_cold]
      rfl
    refine ⟨by rw [heq], by rw [heq]; rfl, by rw [heq]; rfl, by rw [heq]; rfl, fun hv => ?_, by rw [heq]; rfl, fun c => ?_, by rw [heq]; rfl,
      by rw [heq]; rfl, by rw [heq]; rfl⟩
    · rw [heq]
      simp [State.running, Nat.mod_eq_of_lt hv]
    · rw [hcol c]
      exact ⟨rfl, rfl, rfl⟩
  · obtain ⟨a, heq⟩ := (s.running v true).setValid_frame true
    rw [heq]
    exact ⟨rfl, rfl, rfl, by simp [State.running]⟩
  · obtain ⟨a, heq⟩ := s.setValid_frame false
    refine ⟨by rw [heq], by rw [heq], fun c hc => ?_, fun hb hcmd => ?_⟩
    · rw [State.setValid_col, State.survey_col_warm s hc]
      exact ⟨rfl, rfl, rfl⟩
    · rw [State.setValid_eq, if_pos ⟨hb, hcmd⟩]
      exact ⟨_, mem_agendaPut _ _, rfl, rfl⟩
  · show execBootComplete s = _
    simp only [execBootComplete, hvalid, if_true]
  · obtain ⟨w, copyB, hexec⟩ := State.bootComplete_some hvalid hver hcopy hfloor
    refine ⟨_, hexec, fun c b => ?_⟩
    have hdram : (((s.running w copyB).setValid true).col c).dram[b] = surveyBank s.helm.flashRetired c.val b := by
      rw [State.setValid_col, State.survey_dram]
      rfl
    rw [hdram, surveyBank]
    refine ⟨fun hno => ?_, fun x hx => by rw [hx]⟩
    have hnone : s.helm.flashRetired.find? (fun x => x.1 == c.val && x.2.1 == b.val) = none := by
      simpa [List.find?_eq_none] using hno
    rw [hnone]
    rfl

theorem helmCommands : HelmCommands := by
  refine ⟨fun s hf => ⟨s.warm true, ?_, s.warmReset true, rfl⟩, fun s hf => congrArg _ (if_pos hf), fun s he hc hf => ?_, fun s h => ?_,
    fun s hal hk => ?_, fun s h => ?_, fun s hf hok => ?_, fun s hf => congrArg _ (if_pos (.inl hf)),
    fun s c p j hne hp hlive => congrArg _ (if_pos (.inr ?_)), fun s c hge hne => congrArg _ (if_pos (.inr ?_)), fun s => rfl⟩
  · exact congrArg _ (if_neg (by simp [hf]))
  · exact ⟨_, Nat.lt_of_lt_of_le Nat.one_pos (Nat.le_add_right 1 (Config.helmLatency s.freeIx)), congrArg _ (if_neg (by simp [he, hc, hf]))⟩
  · exact congrArg _ (if_pos (by simpa using h))
  · refine ⟨_, Nat.lt_of_lt_of_le Nat.one_pos (Nat.le_add_right 1 (Config.helmLatency s.freeIx)), congrArg _ ((if_neg ?_).trans ?_)⟩
    · rcases hk with hk | hk <;> simp [hal, hk]
    · cases Config.fwImageVersion s.memory s.helm.harg.toNat with
      | none => rfl
      | some v =>
        by_cases hv : s.helm.fwFloor ≤ v
        · exact (if_neg (Nat.not_lt.mpr hv)).trans (if_pos hv).symm
        · exact (if_pos (Nat.not_le.mp hv)).trans (if_neg hv).symm
  · refine congrArg _ (if_pos ?_)
    rcases h with h | h | h
    · exact .inl h
    · exact .inr (by simp [h])
    · exact .inr (by simp [h])
  · have hadds := AddsEvents.hotCheckAll
      { s with hif := { s.hif with partmap := s.hif.partmapNext }, helm := { s.helm with hcmd := 4, hcmdBusy := true } }
    have hexec : exec .partapply s = .next (s.hcmdAccept 4 fun s => { s with hif := { s.hif with partmap := s.hif.partmapNext } }.hotCheckAll) :=
      congrArg _ (if_neg (by simp [hf, State.partApplyOk_of_quiet hok]))
    refine ⟨_, hexec, ?_⟩
    rw [State.hcmdAccept, hadds.eq]
    exact ⟨rfl, rfl, rfl, rfl, rfl, rfl, rfl, _, mem_agendaPut _ _, by simp, rfl⟩
  · rw [State.partApplyOk_of_live hne hp hlive]; simp
  · rw [State.partApplyOk_of_byte hge hne]; simp

/-- Settles O40: the choice of a copy (`State.bootComplete_copyA` and its like), the survey (`State.setValid_frame`), and a case for each
command, accepted or refused. -/
theorem bootAndHelmCommands : Obligations.BootAndHelmCommands := ⟨bootComplete, helmCommands⟩

end Sys2Proof

/-! # Row buses and row windows (R33, R99, R192, R212, R217, R352, R422) -/

namespace Sys2Proof.Machine

/-! ## The survey's change -/

theorem State.surveyChange_true (s : State) : s.surveyChange true =
    { s with
      helm := { s.helm with gen := s.helm.gen + 2 }
      hif := { s.hif with intst := s.hif.intst ||| (1 <<< (0 : Fin 8).val), msix := (s.surveyChange true).hif.msix } } :=
  State.pfInt_eq { s with helm := { s.helm with gen := s.helm.gen + 2 } } 0

/-- A change of columns and of the survey, with its interrupt: nothing else changes. -/
theorem State.surveyFrame_surveyChange {s u : State} (h : u = { s with cols := u.cols, freeIx := u.freeIx }) (int : Bool) :
    SurveyFrame s (u.surveyChange int) := by
  cases int
  · rw [State.surveyChange_false, h]
    exact ⟨rfl, rfl, rfl, rfl, rfl, rfl, rfl, rfl, rfl, rfl⟩
  · rw [State.surveyChange_true, h]
    exact ⟨rfl, rfl, rfl, rfl, rfl, rfl, rfl, rfl, rfl, rfl⟩

theorem State.surveyFrame_updCol (s : State) (n : Nat) (c : CoreIx) (f : Column → Column) (int : Bool) :
    SurveyFrame s (({ s with freeIx := n }.updCol c f).surveyChange int) :=
  State.surveyFrame_surveyChange rfl int

theorem State.surveyChange_col (s : State) (int : Bool) (c : CoreIx) : (s.surveyChange int).col c = s.col c := by
  cases int
  · rfl
  · rw [State.surveyChange_true]; rfl

theorem State.surveyChange_gen (s : State) (int : Bool) : (s.surveyChange int).helm.gen = s.helm.gen + 2 := by
  cases int
  · rfl
  · rw [State.surveyChange_true]

theorem State.surveyChange_agenda (s : State) (int : Bool) : (s.surveyChange int).agenda = s.agenda := by
  cases int
  · rfl
  · rw [State.surveyChange_true]

/-- The survey interrupt is raised. -/
theorem State.surveyChange_int (s : State) : (s.surveyChange true).hif.intst.getLsb 0 = true := by
  rw [State.surveyChange_true]
  exact getLsb_or_bit s.hif.intst (0 : Fin 8)

/-! ## The beats of a burst (R212, R352) -/

theorem Bke.beatIn_rowMask (b : Bke) (off : Nat) (bs : List Byte) (mask : Bool) (j : Nat) : (b.beatIn off bs mask).rowMask.getLsbD j =
    (b.rowMask.getLsbD j || (mask && decide (off ≤ j ∧ j < off + bs.length ∧ j < 8192))) := by
  cases mask
  · simp [Bke.beatIn]
  · simp only [Bke.beatIn, if_true, BitVec.getLsbD_or, BitVec.getLsbD_shiftLeft, BitVec.getLsbD_ofNat, Nat.testBit_two_pow_sub_one, Bool.true_and]
    congr 1
    rw [Bool.eq_iff_iff]
    simp only [Bool.and_eq_true, Bool.not_eq_true', decide_eq_true_eq, decide_eq_false_iff_not]
    omega

theorem State.beatIn_upd (s : State) (c : CoreIx) (off : Nat) (bs : List Byte) (mask : Bool) :
    BeatIn s c (s.upd c fun q => { q with bke := q.bke.beatIn off bs mask }) off bs mask :=
  ⟨((s.core c).bke.beatIn off bs mask).rowMask, by rw [State.core_upd]; rfl, Bke.beatIn_rowMask _ off bs mask,
    fun _ hx => s.core_upd_ne hx _, rfl, rfl, rfl, rfl⟩

/-! ## A failed beat (R217) -/

/-- Only the stall of the BKE and the pipe of a core change. -/
structure StallsOnly (c : CoreIx) (s t : State) : Prop where
  eq : t = { s with cores := t.cores }
  others : ∀ x, x ≠ c → t.core x = s.core x
  core : t.core c = { s.core c with bke := { (s.core c).bke with stall := (t.core c).bke.stall }, pipe := (t.core c).pipe }

namespace StallsOnly

variable {c : CoreIx} {s t u : State}

theorem refl (c : CoreIx) (s : State) : StallsOnly c s s := ⟨rfl, fun _ _ => rfl, rfl⟩

theorem trans (a : StallsOnly c s t) (b : StallsOnly c t u) : StallsOnly c s u :=
  ⟨by have e := b.eq; rw [a.eq] at e; exact e, fun x hx => (b.others x hx).trans (a.others x hx),
    by have e := b.core; rw [a.core] at e; exact e⟩

theorem upd (s : State) (c : CoreIx) {f : Core → Core}
    (hf : ∀ q, f q = { q with bke := { q.bke with stall := (f q).bke.stall }, pipe := (f q).pipe }) : StallsOnly c s (s.upd c f) :=
  ⟨rfl, fun _ hx => s.core_upd_ne hx f, by rw [State.core_upd]; exact hf _⟩

theorem col (h : StallsOnly c s t) (x : CoreIx) : t.col x = s.col x := by rw [h.eq]; rfl

theorem foldl {α : Type} {f : State → α → State} (hf : ∀ s a, StallsOnly c s (f s a)) (l : List α) (s : State) : StallsOnly c s (l.foldl f s) := by
  induction l generalizing s with
  | nil => exact refl c s
  | cons a l ih => exact (hf s a).trans (ih _)

theorem starve (s : State) (c : CoreIx) (off : Nat) : StallsOnly c s (s.starve c off) := by
  unfold State.starve
  refine foldl (fun s w => ?_) _ s
  dsimp only
  split
  · exact upd s c fun q => rfl
  · exact refl c s

end StallsOnly

/-- The lane beats of a burst's RCON from a beat on are taken back. -/
def Inflight.cutBeats (start key : Nat) (w : Inflight) : Inflight :=
  match w.instr with
  | .rcon .. => if w.issued = start then { w with beats := w.beats.filter fun b => decide (b.key < key) } else w
  | _ => w

theorem Inflight.lt_of_mem_cutBeats {start key : Nat} {w : Inflight} (hr : ∃ h win b a o d, (w.cutBeats start key).instr = .rcon h win b a o d)
    (hi : (w.cutBeats start key).issued = start) : ∀ x ∈ (w.cutBeats start key).beats, x.key < key := by
  have hsame : (w.cutBeats start key).instr = w.instr ∧ (w.cutBeats start key).issued = w.issued := by
    unfold Inflight.cutBeats
    split
    · split <;> exact ⟨rfl, rfl⟩
    · exact ⟨rfl, rfl⟩
  obtain ⟨hinstr, hissued⟩ := hsame
  rw [hinstr] at hr
  rw [hissued] at hi
  obtain ⟨h, win, b, a, o, d, hw⟩ := hr
  intro x hx
  have hcut : w.cutBeats start key = { w with beats := w.beats.filter fun b => decide (b.key < key) } := by
    unfold Inflight.cutBeats
    rw [hw]
    exact if_pos hi
  rw [hcut] at hx
  exact of_decide_eq_true (List.mem_filter.mp hx).2

/-- The row controller as a beat fails, before it raises its fault. -/
def State.beatFails (s : State) (c : CoreIx) (i : Nat) : State :=
  let k := s.col c
  let u := s.updCol c fun k => { k with burstFail := some i, repair := true }
  (if k.burstDst = 16 then u.starve c (k.beatBytes * i) else u).upd c fun q => { q with pipe := { q.pipe with
    infl := q.pipe.infl.map (Inflight.cutBeats k.burstStart (spadKey c.val (k.burstX + 128 * ((if k.half then 2 else 4) * i)))) } }

theorem State.exec_rowBeatFailure (s : State) (c : CoreIx) (i : Fin 32) : exec (.rowBeatFailure c i) s =
    .next (if (s.col c).burstEnd < s.chron ∨ (s.col c).beats ≤ i.val ∨ (s.col c).burstFail.isSome then s
      else (s.beatFails c i.val).coreFault c 5 0x55 (-1) 0 0xFFFF i.val) := by
  show execRowBeatFailure c i s = _
  rfl

theorem State.beatFails_stallsOnly (s : State) (c : CoreIx) (i : Nat) :
    StallsOnly c (s.updCol c fun k => { k with burstFail := some i, repair := true }) (s.beatFails c i) := by
  unfold State.beatFails
  dsimp only
  refine StallsOnly.trans ?_ (.upd _ c fun q => rfl)
  split
  · exact .starve ..
  · exact .refl ..

theorem State.lt_of_mem_beatFails {s : State} {c : CoreIx} {i : Nat} {w : Inflight} (hw : w ∈ ((s.beatFails c i).core c).pipe.infl)
    (hr : ∃ h win b a o d, w.instr = .rcon h win b a o d) (hi : w.issued = (s.col c).burstStart) :
    ∀ x ∈ w.beats, x.key < spadKey c.val ((s.col c).burstX + 128 * ((if (s.col c).half then 2 else 4) * i)) := by
  unfold State.beatFails at hw
  rw [State.core_upd] at hw
  obtain ⟨w, -, rfl⟩ := List.mem_map.mp hw
  exact Inflight.lt_of_mem_cutBeats hr hi

/-! ## Repair of a row bus (R217) -/

/-- A wire of the bus is mapped onto a spare, or the bus runs at half width. -/
def Column.Serves (k : Column) (w : Nat) : Prop := k.mapped.contains w = true ∨ k.half = true

theorem Column.mapWire_serves {k : Column} {w : Nat} (hw : w < 4096) : (k.mapWire w).Serves w := by
  unfold Column.mapWire
  split
  next h => exact .inl (h.resolve_left (Nat.not_le.mpr hw))
  next =>
    split
    · exact .inr rfl
    · exact .inl (by simp)

theorem Column.Serves.mapWire {k : Column} {w : Nat} (h : k.Serves w) (x : Nat) : (k.mapWire x).Serves w := by
  unfold Column.mapWire
  split
  · exact h
  · split
    · exact .inr rfl
    · exact h.imp (fun h => by simpa using .inl (by simpa using h)) id

theorem Column.Serves.foldl_mapWire {k : Column} {w : Nat} (h : k.Serves w) (l : List Nat) : (l.foldl Column.mapWire k).Serves w := by
  induction l generalizing k with
  | nil => exact h
  | cons x l ih => exact ih (h.mapWire x)

/-- Spares are used up one for one, and the bus goes to half width only when none is left. -/
structure RepairedFrom (k k' : Column) : Prop where
  spares : k'.spare + k'.mapped.length = k.spare + k.mapped.length
  none_left : k.spare = 0 → k'.spare = 0
  half : k'.half = true → k.half = true ∨ k'.spare = 0
  same : k'.rows = k.rows ∧ k'.dram = k.dram

namespace RepairedFrom

theorem mapWire (k : Column) (w : Nat) : RepairedFrom k (k.mapWire w) := by
  unfold Column.mapWire
  split
  · exact ⟨rfl, id, .inl, rfl, rfl⟩
  · split
    next h => exact ⟨rfl, id, fun _ => .inr h, rfl, rfl⟩
    next h => exact ⟨by simp only [List.length_append, List.length_singleton]; omega, fun h0 => absurd h0 h, .inl, rfl, rfl⟩

theorem foldl_mapWire (k : Column) (l : List Nat) : RepairedFrom k (l.foldl Column.mapWire k) := by
  induction l generalizing k with
  | nil => exact ⟨rfl, id, .inl, rfl, rfl⟩
  | cons w l ih =>
    obtain ⟨hs, hn, hh, hr, hd⟩ := mapWire k w
    obtain ⟨hs', hn', hh', hr', hd'⟩ := ih (k.mapWire w)
    exact ⟨hs'.trans hs, fun h => hn' (hn h), fun h => (hh' h).elim (fun h => (hh h).imp_right hn') .inr, hr'.trans hr, hd'.trans hd⟩

end RepairedFrom

/-- A wire that is known to fail or is found to serves no longer as it was. -/
theorem Column.testWires_serves {k : Column} {col ix w : Nat} (hw : w < 4096)
    (hbad : k.failed.contains w = true ∨ Config.wireFails col w ix = true) : (k.testWires col ix).Serves w := by
  unfold Column.testWires
  by_cases hm : k.mapped.contains w = true
  · exact Column.Serves.foldl_mapWire (.inl hm) _
  · have hmem : w ∈ k.badWires col ix := by
      simp only [Column.badWires, List.mem_filter, List.mem_range, Bool.and_eq_true, Bool.or_eq_true, Bool.not_eq_true', Bool.eq_false_iff]
      exact ⟨hw, hbad, hm⟩
    obtain ⟨l, r, hl⟩ := List.append_of_mem hmem
    rw [hl, List.foldl_append, List.foldl_cons]
    exact Column.Serves.foldl_mapWire (Column.mapWire_serves hw) r

/-! ## Closing rows (R99, R213) -/

/-- A bank precharged at a cycle or once TRASMIN is met, if it is open and no precharge of it is pending. -/
def RowState.closing (r : RowState) (t : Nat) : RowState :=
  match r with
  | .open_ row act lb none => .open_ row act lb (some (prechargeAt (max t (act + tRASmin)) lb))
  | x => x

theorem RowState.closing_closing (r : RowState) (t : Nat) : (r.closing t).closing t = r.closing t := by
  rcases r with _ | ⟨row, act, lb, _ | e⟩ | u <;> rfl

/-- One step of `State.closeRows`. -/
theorem State.closeRows_cons (s : State) (c : CoreIx) (b : Fin 32) (bs : List (Fin 32)) (t : Nat) :
    s.closeRows c (b :: bs) t = (s.closeRows c [b] t).closeRows c bs t := rfl

theorem State.closeRows_single_rows (s : State) (c : CoreIx) (b : Fin 32) (t : Nat) :
    ((s.closeRows c [b] t).col c).rows = (s.col c).rows.set b ((s.col c).rows[b].closing t) := by
  have hstep : s.closeRows c [b] t = (match (s.col c).rows[b] with
      | .open_ _ act _ none => s.rowPre c b (max t (act + tRASmin))
      | _ => s) := rfl
  have hkeep {r : RowState} (hr : (s.col c).rows[b] = r) : (s.col c).rows = (s.col c).rows.set b r := by
    rw [← hr]
    exact (Vector.set_getElem_self ..).symm
  rcases hrow : (s.col c).rows[b] with _ | ⟨row, act, lb, _ | e⟩ | u <;> rw [hstep, hrow]
  · exact hkeep hrow
  · dsimp only
    rw [State.rowPre, hrow]
    show ((s.updCol c fun k => k.setRow b (.open_ row act lb (some (prechargeAt (max t (act + tRASmin)) lb)))).col c).rows = _
    rw [State.col_updCol]
    rfl
  · exact hkeep hrow
  · exact hkeep hrow

theorem State.closeRows_row (s : State) (c : CoreIx) (bs : List (Fin 32)) (t : Nat) (b : Fin 32) :
    ((s.closeRows c bs t).col c).rows[b] = if b ∈ bs then (s.col c).rows[b].closing t else (s.col c).rows[b] := by
  induction bs generalizing s with
  | nil => rfl
  | cons x bs ih =>
    rw [State.closeRows_cons, ih]
    by_cases hb : b = x
    · subst hb
      have hrow : ((s.closeRows c [b] t).col c).rows[b] = (s.col c).rows[b].closing t := by
        simp [State.closeRows_single_rows]
      rw [hrow, RowState.closing_closing, ite_self, if_pos (List.mem_cons_self ..)]
    · have hrow : ((s.closeRows c [x] t).col c).rows[b] = (s.col c).rows[b] := by
        simp only [State.closeRows_single_rows]
        exact Vector.getElem_set_ne _ _ fun h => hb (Fin.ext h.symm)
      rw [hrow]
      simp [hb]

/-- A fold whose steps go on only does not go back. -/
theorem le_foldl {α : Type} {g : Nat → α → Nat} (hg : ∀ a x, a ≤ g a x) (l : List α) (a : Nat) : a ≤ l.foldl g a := by
  induction l generalizing a with
  | nil => exact Nat.le_refl a
  | cons y l ih => exact (hg a y).trans (ih _)

/-- What a step of such a fold reaches, the fold reaches. -/
theorem le_foldl_of_mem {α : Type} {g : Nat → α → Nat} (hg : ∀ a x, a ≤ g a x) {n : Nat} {x : α} {l : List α} (hx : x ∈ l)
    (hn : ∀ a, n ≤ g a x) (a : Nat) : n ≤ l.foldl g a := by
  obtain ⟨l, r, rfl⟩ := List.append_of_mem hx
  rw [List.foldl_append, List.foldl_cons]
  exact (hn _).trans (le_foldl hg r _)

/-- A window with an open bank waits TRP at least for it to close. -/
theorem Column.closeCycle_ge {k : Column} {b : Fin 32} {bs : List (Fin 32)} {t : Nat} (hb : b ∈ bs) (hopen : k.rows[b].at_ t = 1) :
    t + 18 ≤ k.closeCycle bs t := by
  unfold Column.closeCycle
  refine le_foldl_of_mem (fun a x => ?_) hb (fun a => ?_) t
  · split
    · exact Nat.le_max_left ..
    · exact Nat.le_max_left ..
    · exact Nat.le_refl a
  · rcases hrow : k.rows[b] with _ | ⟨row, act, lb, _ | e⟩ | u <;> rw [hrow] at hopen
    · cases hopen
    · have : tRP = 18 := rfl
      unfold prechargeAt
      dsimp only
      exact Nat.le_trans (by omega) (Nat.le_max_right ..)
    · have : tRP = 18 := rfl
      have ht : t < e := by
        by_contra h
        unfold RowState.at_ at hopen
        dsimp only at hopen
        rw [if_neg h] at hopen
        split at hopen <;> cases hopen
      dsimp only
      exact Nat.le_trans (by omega) (Nat.le_max_right ..)
    · unfold RowState.at_ at hopen
      dsimp only at hopen
      split at hopen <;> cases hopen

/-! ## Writes of row windows (R99, R192, R422) -/

/-- A core with a doubleword of a row window written, as it stands now and, when asked, as it is preserved across launch. -/
def Core.windowWritten (q : Core) (k : Column) (w : Fin 4) (hi : Bool) (v : Nat) : Core :=
  { q with ctl := { q.ctl with rwin := q.ctl.rwin.set w (q.ctl.rwin[w].write k hi v) } }

theorem State.rwinApply_eq (s : State) (c : CoreIx) (w : Fin 4) (hi : Bool) (v : Nat) :
    s.rwinApply c w hi v = (s.upd c fun q => q.windowWritten (s.col c) w hi v).hotCheck c := rfl

theorem State.rwinApply_addsEvents (s : State) (c : CoreIx) (w : Fin 4) (hi : Bool) (v : Nat) :
    AddsEvents (s.upd c fun q => q.windowWritten (s.col c) w hi v) (s.rwinApply c w hi v) := .hotCheck ..

/-- The core after the write. -/
theorem State.rwinApply_core (s : State) (c : CoreIx) (w : Fin 4) (hi : Bool) (v : Nat) :
    (s.rwinApply c w hi v).core c = (s.core c).windowWritten (s.col c) w hi v := by
  rw [(s.rwinApply_addsEvents c w hi v).core, State.core_upd]

/-- Whether a context in RUN or PREEMPTED holds a window, where none of the windows of the core or of the context switched out is valid. -/
theorem State.holdsWindow_eq_false {s : State} {c : CoreIx} (hrun : s.runs c = true → ∀ w : Fin 4, (s.core c).ctl.rwin[w].v = false)
    (hsaved : ∀ p k, s.partOf c = some p → (s.part p).savedCore c = some k → ∀ w : Fin 4, k.ctl.rwin[w].v = false) :
    s.holdsWindow c = false := by
  have hnone {r : Vector RowWin 4} (h : ∀ w : Fin 4, r[w].v = false) : (r.toList.any fun w => w.v) = false := by
    rw [List.any_eq_false]
    intro x hx
    obtain ⟨i, hi, rfl⟩ := Vector.mem_iff_getElem.mp (Vector.mem_toList_iff.mp hx)
    exact Bool.eq_false_iff.mp (h ⟨i, hi⟩)
  unfold State.holdsWindow
  rw [Bool.or_eq_false_iff]
  refine ⟨?_, ?_⟩
  · cases hr : s.runs c
    · rfl
    · exact hnone (hrun hr)
  · cases hp : s.partOf c with
    | none => rfl
    | some p =>
      dsimp only
      cases hk : (s.part p).savedCore c with
      | none => rfl
      | some k => exact hnone (hsaved p k hp hk)

/-- A write of a row window, and what the core goes on with that leaves its windows. -/
theorem State.windowWritten_rwinApply (s : State) (c : CoreIx) (w : Fin 4) (hi : Bool) (v : Nat) {f : Core → Core}
    (hf : ∀ q, (f q).ctl.rwin = q.ctl.rwin) : WindowWritten s ((s.rwinApply c w hi v).upd c f) c := by
  have heq := (s.rwinApply_addsEvents c w hi v).eq
  have hcol : (s.upd c fun q => q.windowWritten (s.col c) w hi v).col c = s.col c := rfl
  refine ⟨fun x hx => ?_, by rw [heq]; rfl, by rw [heq]; rfl, by rw [heq]; rfl, by rw [heq]; rfl, by rw [heq]; rfl, by rw [heq]; rfl,
    by rw [heq]; rfl, fun hpend => ?_, fun hpend hrun hsaved => ?_⟩
  · rw [State.core_upd_ne _ hx, (s.rwinApply_addsEvents c w hi v).core, State.core_upd_ne _ hx]
  · show (s.rwinApply c w hi v).agenda = s.agenda
    rw [State.rwinApply_eq, State.hotCheck, hcol, hpend]
    rfl
  · have hrwin : ((s.rwinApply c w hi v).upd c f |>.core c).ctl.rwin = ((s.upd c fun q => q.windowWritten (s.col c) w hi v).core c).ctl.rwin := by
      rw [State.core_upd, hf, State.rwinApply_core, State.core_upd]
    have hno : (s.upd c fun q => q.windowWritten (s.col c) w hi v).holdsWindow c = false :=
      State.holdsWindow_eq_false (fun hr i => by rw [← hrwin]; exact hrun hr i) hsaved
    have hagenda : ((s.rwinApply c w hi v).upd c f).agenda = (s.schedC s.chron c .refreshPeriodChange).agenda := by
      show (s.rwinApply c w hi v).agenda = _
      rw [State.rwinApply_eq, State.hotCheck, hcol, hpend, hno]
      rfl
    rw [hagenda]
    exact ⟨_, mem_agendaPut _ _, rfl, rfl, rfl⟩

/-- The banks of a mask that are open or precharging. -/
def Column.unclosedIn (k : Column) (m : BitVec 32) (t : Nat) : List (Fin 32) :=
  (List.finRange 32).filter fun b => m.getLsb b && k.rows[b].at_ t != 0

theorem Column.mem_unclosedIn {k : Column} {m : BitVec 32} {t : Nat} {b : Fin 32} :
    b ∈ k.unclosedIn m t ↔ m.getLsb b = true ∧ k.rows[b].at_ t ≠ 0 := by
  rw [Column.unclosedIn, List.mem_filter, Bool.and_eq_true, bne_iff_ne]
  exact and_iff_right (List.mem_finRange b)

/-- RWIN_WRITE where no context holds the core: at once with no row open, else once the rows of the mask are closed. -/
theorem State.exec_rwinWrite {s : State} {c : CoreIx} (hheld : s.pageHeld c = false) (w : Fin 4) (hi : Bool) (v : BitVec 64) :
    ∃ n, (s.col c).closeCycle ((s.col c).unclosedIn (s.core c).ctl.rwin[w].bmask s.chron) s.chron ≤ n ∧ exec (.rwinWrite c w hi v) s =
      .next (if ((s.col c).unclosedIn (s.core c).ctl.rwin[w].bmask s.chron).isEmpty then s.rwinApplyBoth c w hi v.toNat v.toNat
        else (s.closeRows c ((s.col c).unclosedIn (s.core c).ctl.rwin[w].bmask s.chron) s.chron).schedC n c (.rwinApply c w hi v)) := by
  refine ⟨((s.col c).unclosedIn (s.core c).ctl.rwin[w].bmask s.chron).foldl (fun a b => match (s.col c).rows[b] with
      | .precharging u => max a u
      | _ => a) ((s.col c).closeCycle ((s.col c).unclosedIn (s.core c).ctl.rwin[w].bmask s.chron) s.chron), ?_, ?_⟩
  · refine le_foldl (fun a b => ?_) _ _
    split
    · exact Nat.le_max_left ..
    · exact Nat.le_refl a
  · refine congrArg _ ((if_neg (by rw [hheld]; exact Bool.false_ne_true)).trans ?_)
    have hv : BitVec.ofNat 64 v.toNat = v := by rw [BitVec.ofNat_toNat, BitVec.setWidth_eq]
    dsimp only
    rw [hv]
    rfl

theorem RowWin.write_hi (r : RowWin) (k : Column) (v : Nat) : (r.write k true v).bmask = r.bmask
    ∧ (r.write k true v).rowlo = BitVec.ofNat 11 v ∧ (r.write k true v).rowhi = BitVec.ofNat 11 (v / 65536) := by
  refine ⟨rfl, rfl, BitVec.eq_of_toNat_eq ?_⟩
  show (BitVec.ofNat 11 (fld v 26 16)).toNat = _
  simp [fld]

theorem Column.rowBanks_iff (k : Column) (m : BitVec 32) :
    k.rowBanks m = true ↔ ∀ b : Fin 32, m.getLsb b = true → k.dram[b] = 2 ∨ k.dram[b] = 4 := by
  unfold Column.rowBanks
  rw [List.all_eq_true]
  refine ⟨fun h b hb => ?_, fun h b _ => ?_⟩
  · have := h b (List.mem_finRange b)
    rw [hb] at this
    simpa only [Bool.not_true, Bool.false_or, Bool.or_eq_true, beq_iff_eq] using this
  · cases hb : m.getLsb b
    · rfl
    · simpa only [Bool.not_true, Bool.false_or, Bool.or_eq_true, beq_iff_eq] using h b hb

/-- V stays where every bank of the mask is in row mode and the rows are in order and exist. -/
theorem RowWin.write_v (r : RowWin) (k : Column) (hi : Bool) (v : Nat) : (r.write k hi v).v = true ↔
    (if hi then v.testBit 31 = true else r.v = true) ∧ (∀ b : Fin 32, (r.write k hi v).bmask.getLsb b = true → k.dram[b] = 2 ∨ k.dram[b] = 4)
      ∧ (r.write k hi v).rowlo.toNat ≤ (r.write k hi v).rowhi.toNat ∧ (r.write k hi v).rowhi.toNat ≤ k.rowmax.toNat := by
  rw [← Column.rowBanks_iff]
  have hbit : bitAt v 31 = v.testBit 31 := by
    rw [bitAt, Nat.testBit_eq_decide_div_mod_eq]
    rfl
  cases hi
  · simp only [RowWin.write, Bool.false_eq_true, if_false, Bool.and_eq_true, decide_eq_true_eq, and_assoc]
  · simp only [RowWin.write, if_true, Bool.and_eq_true, decide_eq_true_eq, and_assoc, hbit]

/-- The core after the write of both, the current window and the one preserved across launch. -/
theorem State.rwinApplyBoth_core (s : State) (c : CoreIx) (w : Fin 4) (hi : Bool) (v : Nat) :
    (s.rwinApplyBoth c w hi v v).core c = { s.core c with ctl := { (s.core c).ctl with
      rwin := (s.core c).ctl.rwin.set w ((s.core c).ctl.rwin[w].write (s.col c) hi v)
      rwinL := (s.core c).ctl.rwinL.set w ((s.core c).ctl.rwinL[w].write (s.col c) hi v) } } := by
  show (State.upd _ c _).core c = _
  rw [State.core_upd, State.rwinApply_core]
  rfl

end Sys2Proof.Machine

namespace Sys2Proof

open Machine

theorem rowBeats : RowBeats := by
  refine ⟨fun s c i htail hdst hfail hstart hi => ?_, fun s c i off bs htail => ?_, fun s c i f htail hfail hle => ?_, fun s c i htail hdst => ?_,
    fun s c i p hend hi hfail hp hr => ?_, fun s c i h => ?_⟩
  · refine ⟨_, ?_, State.beatIn_upd s c _ _ true, rfl⟩
    show execRowBeatDelivery c i s = _
    simp only [execRowBeatDelivery, htail, hfail, Bool.false_eq_true, false_or]
    exact congrArg _ (if_neg (by rw [not_or, not_or, Nat.not_le, Nat.not_le]; exact ⟨not_not.mpr hdst, hi, hstart⟩))
  · refine ⟨s.tailBeat c (off, bs), ?_, ?_, ?_⟩
    · show execRowBeatDelivery c i s = _
      simp only [execRowBeatDelivery, htail]
    · have hmask : (!((s.col c).burstDst == 16)) = decide ((s.col c).burstDst ≠ 16) := by
        by_cases h : (s.col c).burstDst = 16 <;> simp [h]
      obtain ⟨m, hbeat⟩ := s.beatIn_upd c off bs (decide ((s.col c).burstDst ≠ 16))
      rw [← hmask] at hbeat ⊢
      exact ⟨m, hbeat⟩
    · exact ⟨State.col_updCol .., fun x hx => State.col_updCol_ne _ hx _⟩
  · show execRowBeatDelivery c i s = _
    simp only [execRowBeatDelivery, htail, hfail, hle, decide_true, true_or, if_true]
  · show execRowBeatDelivery c i s = _
    simp only [execRowBeatDelivery, htail, hdst, ne_eq, not_false_eq_true, true_or, or_true, if_true]
  · have hstall := s.beatFails_stallsOnly c i.val
    have heq := hstall.eq
    have hp' : (s.beatFails c i.val).partOf c = some p := by rw [heq]; exact hp
    have hr' : Running (s.beatFails c i.val) p := by rw [heq]; exact hr
    have hfault := FaultFrame.coreFault hp' 5 0x55 (-1) 0 0xFFFF i.val none
    refine ⟨_, (s.exec_rowBeatFailure c i).trans (congrArg _ (if_neg ?_)), ?_, ⟨?_, fun x hx => ?_⟩, ?_, fun x hx => ?_, ?_, ?_, ?_, ?_⟩
    · rw [not_or, not_or, Nat.not_lt, Nat.not_le, hfail]
      exact ⟨hend, hi, by simp⟩
    · have h := State.rowHalts_coreFault hp' hr' 0x55 i.val
      rw [heq] at h ⊢
      exact h
    · rw [hfault.col, hstall.col, State.col_updCol]
    · rw [hfault.col, hstall.col, State.col_updCol_ne _ hx]
    · rw [hfault.memory, heq]; rfl
    · rw [hfault.core, hstall.others x hx]; rfl
    · rw [hfault.core, hstall.core]; rfl
    · rw [hfault.core, hstall.core]; rfl
    · rw [hfault.core, hstall.core]; rfl
    · rw [hfault.core]
      exact fun w hw hrcon hissued => State.lt_of_mem_beatFails hw hrcon hissued
  · rw [State.exec_rowBeatFailure, if_pos]
    rcases h with h | h | h
    · exact .inl h
    · exact .inr (.inr h)
    · exact .inr (.inl h)

theorem busRepair : BusRepair := by
  intro s
  have hrep : RepairedFrom (s.col s.cur) ((s.col s.cur).testWires s.cur.val s.freeIx) := RepairedFrom.foldl_mapWire ..
  let u := { s with freeIx := s.freeIx + 1 }.updCol s.cur fun k => { k.testWires s.cur.val s.freeIx with burstFail := none, repair := false }
  have hcol : (u.surveyChange true).col s.cur = { (s.col s.cur).testWires s.cur.val s.freeIx with burstFail := none, repair := false } := by
    rw [State.surveyChange_col]
    exact State.col_updCol ..
  have hexec : exec .busRepair s = .next (u.surveyChange true) := by
    show execBusRepair s = _
    unfold execBusRepair
    rfl
  have hserves (w : Nat) (hw : w < 4096) (hbad : (s.col s.cur).failed.contains w = true ∨ Config.wireFails s.cur.val w s.freeIx = true) :
      ((s.col s.cur).testWires s.cur.val s.freeIx).Serves w := Column.testWires_serves hw hbad
  refine ⟨u.surveyChange true, s.freeIx, hexec, ?_⟩
  rw [hcol]
  generalize (s.col s.cur).testWires s.cur.val s.freeIx = k at hrep hserves
  exact ⟨rfl, rfl, hserves, hrep.spares, hrep.half, hrep.same.1, hrep.same.2,
    fun c hc => (u.surveyChange_col true c).trans (State.col_updCol_ne _ hc _), u.surveyChange_gen true, u.surveyChange_int,
    State.surveyFrame_updCol s .., u.surveyChange_agenda true⟩

theorem rowWindowWrites : RowWindowWrites := by
  refine ⟨fun s c w hi v hheld => ?_, fun s c w hi v hheld hclosed => ?_, fun s c w hi v hheld hopen => ?_, fun s c w hi v hhold => ?_,
    fun s c w hi v hhold => ?_, fun r k hi v => ?_⟩
  · exact congrArg _ (if_pos hheld)
  · obtain ⟨n, -, hexec⟩ := State.exec_rwinWrite hheld w hi v
    refine ⟨s.rwinApplyBoth c w hi v.toNat v.toNat, hexec.trans (congrArg _ (if_pos ?_)), s.windowWritten_rwinApply c w hi v.toNat fun _ => rfl,
      s.rwinApplyBoth_core c w hi v.toNat⟩
    refine List.isEmpty_iff.mpr (List.eq_nil_iff_forall_not_mem.mpr fun b hb => ?_)
    obtain ⟨hbit, hat⟩ := Column.mem_unclosedIn.mp hb
    exact hat (hclosed b hbit)
  · obtain ⟨b, hbit, hat⟩ := hopen
    obtain ⟨n, hn, hexec⟩ := State.exec_rwinWrite hheld w hi v
    have hb := Column.mem_unclosedIn.mpr ⟨hbit, by rw [hat]; decide⟩
    have hrows := RowsOnly.closeRows s c ((s.col c).unclosedIn (s.core c).ctl.rwin[w].bmask s.chron) s.chron
    refine ⟨_, hexec.trans (congrArg _ (if_neg ?_)), ?_, ?_, ?_, fun x hx => ?_, ⟨_, mem_agendaPut _ _, ?_, rfl, rfl⟩,
      fun b' hb' row act lb hrow => ?_⟩
    · rw [List.isEmpty_iff]
      exact List.ne_nil_of_mem hb
    · exact (congrArg State.cores hrows.eq :)
    · exact (congrArg State.memory hrows.eq :)
    · exact (congrArg State.chron hrows.eq :)
    · exact hrows.others x hx
    · exact (Column.closeCycle_ge hb hat).trans hn
    · have hmem := Column.mem_unclosedIn.mpr ⟨hb', show (s.col c).rows[b'].at_ s.chron ≠ 0 by rw [hrow]; exact Nat.one_ne_zero⟩
      have hclose := s.closeRows_row c ((s.col c).unclosedIn (s.core c).ctl.rwin[w].bmask s.chron) s.chron b'
      rw [if_pos hmem, hrow] at hclose
      have : tRASmin = 36 := rfl
      exact ⟨_, hclose, by unfold prechargeAt; omega, by unfold prechargeAt; omega⟩
  · exact ⟨s.rwinApplyBoth c w hi v.toNat v.toNat, congrArg _ (if_neg hhold), s.windowWritten_rwinApply c w hi v.toNat fun _ => rfl,
      s.rwinApplyBoth_core c w hi v.toNat⟩
  · refine ⟨(s.rwinApply c w hi v.toNat).upd c fun k => { k with seq := k.seq.release 0 s.chron }, congrArg _ (if_pos hhold), ?_, ?_, ?_, ?_,
      s.windowWritten_rwinApply c w hi v.toNat fun _ => rfl⟩ <;> rw [State.core_upd, State.rwinApply_core]
    · exact congrArg Seq.hold (if_pos hhold)
    · rfl
    · rfl
    · show (Seq.release _ 0 s.chron).g = _
      unfold Seq.release
      split <;> rfl
  · exact ⟨fun h => by subst h; exact RowWin.write_hi r k v, fun h => by subst h; exact ⟨rfl, rfl, rfl⟩, RowWin.write_v r k hi v⟩

/-- Settles O44: beats through `State.beatIn_upd` and `State.beatFails_stallsOnly`, the repair through what one mapped wire changes
(`RepairedFrom.mapWire`), window writes through `State.windowWritten_rwinApply` and `State.closeRows_row`. -/
theorem rowBuses : Obligations.RowBuses := ⟨rowBeats, busRepair, rowWindowWrites⟩

end Sys2Proof

/-! # Banks, the survey, temperature and bank modes (R32 to R41, R98, R118) -/

namespace Sys2Proof.Machine

/-! ## Bank states -/

theorem State.bankState_eq (s : State) (c : CoreIx) (b : Fin 32) : s.bankState c.val b.val = (s.col c).dram[b] :=
  dif_pos ⟨c.isLt, b.isLt⟩

theorem State.col_setBank (s : State) (c : CoreIx) (b : Fin 32) (v : BitVec 4) :
    (s.setBank c b v).col c = { s.col c with dram := (s.col c).dram.set b v } := s.col_updCol ..

theorem State.columnDoes_setBank (s : State) (c : CoreIx) (b : Fin 32) (v : BitVec 4) (int : Bool) :
    ColumnDoes s ((s.setBank c b v).surveyChange int) c fun k => { k with dram := k.dram.set b v } :=
  ⟨by rw [State.surveyChange_col, State.col_setBank], fun x hx => by rw [State.surveyChange_col]; exact s.col_updCol_ne hx _⟩

/-- The banks of a list with 2 added to the state of each. -/
def addTwo (v : Vector (BitVec 4) 32) (bs : List (Fin 32)) : Vector (BitVec 4) 32 := Vector.ofFn fun b => if b ∈ bs then v[b] + 2 else v[b]

theorem addTwo_cons (v : Vector (BitVec 4) 32) {b : Fin 32} {bs : List (Fin 32)} (hb : b ∉ bs) :
    addTwo (v.set b (v[b] + 2)) bs = addTwo v (b :: bs) := by
  refine Vector.ext fun i hi => ?_
  have hset : (v.set b (v[b] + 2))[i] = if b.val = i then v[b] + 2 else v[i] := Vector.getElem_set ..
  by_cases hib : b.val = i
  · subst hib
    simp [addTwo, hb]
  · have hne : (⟨i, hi⟩ : Fin 32) ≠ b := fun h => hib (congrArg Fin.val h).symm
    have hsame : (v.set b (v[b] + 2))[(⟨i, hi⟩ : Fin 32)] = v[(⟨i, hi⟩ : Fin 32)] := hset.trans (if_neg hib)
    simp only [addTwo, Vector.getElem_ofFn, List.mem_cons, hne, false_or, hsame]

theorem State.col_foldl_setBank (c : CoreIx) {bs : List (Fin 32)} (hbs : bs.Nodup) (s : State) :
    let t := bs.foldl (fun s b => s.setBank c b (s.bankState c.val b.val + 2)) s
    t = { s with cols := t.cols, freeIx := t.freeIx } ∧ (∀ x, x ≠ c → t.col x = s.col x)
      ∧ t.col c = { s.col c with dram := addTwo (s.col c).dram bs } := by
  induction bs generalizing s with
  | nil =>
    have hnil : addTwo (s.col c).dram [] = (s.col c).dram := Vector.ext fun i hi => by simp [addTwo]
    exact ⟨rfl, fun _ _ => rfl, by rw [hnil]; rfl⟩
  | cons b bs ih =>
    obtain ⟨hb, hbs⟩ := List.nodup_cons.mp hbs
    obtain ⟨heq, hout, hcol⟩ := ih hbs (s.setBank c b (s.bankState c.val b.val + 2))
    refine ⟨heq, fun x hx => (hout x hx).trans (s.col_updCol_ne hx _), ?_⟩
    rw [List.foldl_cons, hcol, State.col_setBank, State.bankState_eq]
    exact congrArg (fun d => { s.col c with dram := d }) (addTwo_cons _ hb)

/-- The plain banks of a list with 2 added are those of the list in their PEND states. -/
theorem addTwo_filter_plain (v : Vector (BitVec 4) 32) {bs l : List (Fin 32)} (hl : ∀ b, b ∈ l ↔ b ∈ bs ∧ (v[b] = 1 ∨ v[b] = 2)) :
    addTwo v l = Vector.ofFn fun b => if b ∈ bs then pendOf v[b] else v[b] := by
  refine Vector.ext fun i hi => ?_
  have hpend (x : BitVec 4) : pendOf x = if x = 1 ∨ x = 2 then x + 2 else x := by revert x; decide
  have hl' := hl ⟨i, hi⟩
  simp only [addTwo, Vector.getElem_ofFn, hpend, hl']
  split
  next h => rw [if_pos h.1, if_pos h.2]
  next h =>
    split
    next hb => rw [if_neg fun hx => h ⟨hb, hx⟩]
    next => rfl

theorem State.columnDoes_setBank_ms (s : State) (m : MemSide) (c : CoreIx) (b : Fin 32) (v : BitVec 4) :
    ColumnDoes s ((({ s with ms := m } : State).setBank c b v).surveyChange false) c fun k => { k with dram := k.dram.set b v } :=
  State.columnDoes_setBank ({ s with ms := m } : State) c b v false

theorem State.surveyFrame_setBank_ms (s : State) (m : MemSide) (c : CoreIx) (b : Fin 32) (v : BitVec 4) :
    SurveyFrame s ((({ s with ms := m } : State).setBank c b v).surveyChange false) := ⟨rfl, rfl, rfl, rfl, rfl, rfl, rfl, rfl, rfl, rfl⟩

/-- Banks of a list moved to their PEND states: the plain ones of it, with the survey's interrupt. -/
theorem State.pendBanks_of_plain {s : State} {c : CoreIx} {bs : List (Fin 32)} (hbs : bs.Nodup)
    (hplain : ∃ b ∈ bs, (s.col c).dram[b] = 1 ∨ (s.col c).dram[b] = 2) :
    ColumnDoes s (s.pendBanks c bs) c (fun k => { k with dram := Vector.ofFn fun b => if b ∈ bs then pendOf k.dram[b] else k.dram[b] })
      ∧ (s.pendBanks c bs).helm.gen = s.helm.gen + 2 ∧ (s.pendBanks c bs).hif.intst.getLsb 0 = true ∧ SurveyFrame s (s.pendBanks c bs)
      ∧ (s.pendBanks c bs).agenda = s.agenda := by
  have hmem (b : Fin 32) : b ∈ bs.filter (fun b => s.bankPlain c b) ↔ b ∈ bs ∧ ((s.col c).dram[b] = 1 ∨ (s.col c).dram[b] = 2) := by
    rw [List.mem_filter, State.bankPlain, State.bankState_eq, Bool.or_eq_true, beq_iff_eq, beq_iff_eq]
  obtain ⟨heq, hout, hcol⟩ := State.col_foldl_setBank c (hbs.filter fun b => s.bankPlain c b) s
  have hne : ¬ (bs.filter fun b => s.bankPlain c b).isEmpty = true := by
    obtain ⟨b, hb, hp⟩ := hplain
    rw [List.isEmpty_iff]
    exact List.ne_nil_of_mem ((hmem b).mpr ⟨hb, hp⟩)
  have hpend : s.pendBanks c bs =
      ((bs.filter fun b => s.bankPlain c b).foldl (fun s b => s.setBank c b (s.bankState c.val b.val + 2)) s).surveyChange true := if_neg hne
  rw [hpend]
  refine ⟨⟨?_, fun x hx => (State.surveyChange_col ..).trans (hout x hx)⟩, ?_, State.surveyChange_int _, State.surveyFrame_surveyChange heq true, ?_⟩
  · rw [State.surveyChange_col, hcol, addTwo_filter_plain _ hmem]
  · rw [State.surveyChange_gen, heq]
  · rw [State.surveyChange_agenda, heq]

theorem State.pendBanks_of_no_plain {s : State} {c : CoreIx} {bs : List (Fin 32)}
    (hno : ∀ b ∈ bs, (s.col c).dram[b] ≠ 1 ∧ (s.col c).dram[b] ≠ 2) : s.pendBanks c bs = s := by
  refine if_pos (List.isEmpty_iff.mpr (List.filter_eq_nil_iff.mpr fun b hb => ?_))
  obtain ⟨h1, h2⟩ := hno b hb
  rw [State.bankPlain, State.bankState_eq, Bool.or_eq_true, beq_iff_eq, beq_iff_eq]
  exact not_or.mpr ⟨h1, h2⟩

/-- The banks of a layer. -/
theorem mem_layerBanks (l : Fin 4) (b : Fin 32) :
    b ∈ (List.finRange 8).map (fun i => Fin.ofNat 32 (8 * l.val + i.val)) ↔ b.val / 8 = l.val := by
  revert l b
  decide

theorem layerBanks_nodup (l : Fin 4) : ((List.finRange 8).map fun i => (Fin.ofNat 32 (8 * l.val + i.val) : Fin 32)).Nodup := by
  revert l
  decide

/-- One bank in its PEND state. -/
theorem ofFn_pendOf_singleton (v : Vector (BitVec 4) 32) (b : Fin 32) :
    (Vector.ofFn fun x : Fin 32 => if x ∈ [b] then pendOf v[x] else v[x]) = v.set b (pendOf v[b]) := by
  refine Vector.ext fun i hi => ?_
  rw [Vector.getElem_ofFn, Vector.getElem_set]
  by_cases hib : b.val = i
  · subst hib
    simp
  · have hne : (⟨i, hi⟩ : Fin 32) ≠ b := fun h => hib (congrArg Fin.val h).symm
    rw [if_neg hib, if_neg (by simpa using hne)]
    rfl

theorem Column.addErrors_zero (k : Column) : k.addErrors 0 = k := by
  have hmin : min (k.cecnt.toNat + 0) 0xFFFFFFFF = k.cecnt.toNat := by have := k.cecnt.isLt; omega
  rw [Column.addErrors, hmin, BitVec.ofNat_toNat, BitVec.setWidth_eq]

/-- PEND_ON_ERRORS counts what it implies, then looks at the bank. -/
theorem State.exec_pendOnErrors (s : State) (c : CoreIx) (b : Fin 32) : ∃ n u, exec (.pendOnErrors c b) s = .next (u.pendBanks c [b])
    ∧ 65 ≤ (s.col c).errorsOf b.val s.chron + n ∧ (64 < (s.col c).errorsOf b.val s.chron → n = 0)
    ∧ u = { s with cols := u.cols, freeIx := u.freeIx } ∧ ColumnDoes s u c (fun k => k.addErrors n) := by
  by_cases h : 64 < (s.col c).errorsOf b.val s.chron
  · refine ⟨0, { s with freeIx := s.freeIx + 1 }, congrArg (fun u : State => Host.Outcome.next (u.pendBanks c [b])) (if_pos h), by omega, fun _ => rfl,
      rfl, (Column.addErrors_zero _).symm, fun _ _ => rfl⟩
  · refine ⟨_, _, congrArg (fun u : State => Host.Outcome.next (u.pendBanks c [b])) (if_neg h), ?_, fun h' => absurd h' h, rfl,
      State.col_updCol .., fun _ hx => State.col_updCol_ne _ hx _⟩
    omega

/-- A change of columns and free values before a survey change is part of the change. -/
theorem SurveyFrame.of_cols {s u t : State} (hu : u = { s with cols := u.cols, freeIx := u.freeIx }) (h : SurveyFrame u t) : SurveyFrame s t := by
  obtain ⟨cols, hcols⟩ : ∃ cols, cols = u.cols := ⟨_, rfl⟩
  obtain ⟨ix, hix⟩ : ∃ ix, ix = u.freeIx := ⟨_, rfl⟩
  rw [← hcols, ← hix] at hu
  subst hu
  exact h

/-! ## Faults of several partitions (R37) -/

/-- What faults of the partitions of a list may change. -/
structure FaultsFrame (l : List PartIx) (s t : State) : Prop where
  eq : t = { s with
    parts := t.parts, fab := t.fab, agenda := t.agenda, freeIx := t.freeIx
    hif := { s.hif with intst := t.hif.intst, mbev := t.hif.mbev, msix := t.hif.msix }
    helm := { s.helm with keys := t.helm.keys, keyHeld := t.helm.keyHeld } }
  others : ∀ q, q ∉ l → t.part q = s.part q
  ints : ∀ v : Fin 8, s.hif.intst.getLsb v = true → t.hif.intst.getLsb v = true
  events : ∀ e ∈ s.agenda, e ∈ t.agenda

theorem State.faultsFrame_foldl (code : Nat) (l : List PartIx) (s : State) :
    FaultsFrame l s (l.foldl (fun s p => s.partFault p code) s) := by
  induction l generalizing s with
  | nil => exact ⟨rfl, fun _ _ => rfl, fun _ h => h, fun _ h => h⟩
  | cons p l ih =>
    have hp := FaultFrame.partFault s p code
    have hl := ih (s.partFault p code)
    refine ⟨?_, fun q hq => ?_, fun v h => hl.ints v (hp.ints v h), fun e h => hl.events e (hp.events e h)⟩
    · have e := hl.eq
      rw [hp.eq] at e
      rw [List.foldl_cons, hp.eq]
      exact e
    · obtain ⟨hqp, hql⟩ := not_or.mp fun h => hq (List.mem_cons.mpr h)
      exact (hl.others q hql).trans (hp.others q hqp)

/-- Each running partition of the list is checked. -/
theorem State.checks_foldl {l : List PartIx} (hl : l.Nodup) {s : State} {p : PartIx} (hp : p ∈ l) (hr : Running s p) (code : Nat) :
    Checks s (l.foldl (fun s p => s.partFault p code) s) p code := by
  obtain ⟨l₁, l₂, rfl⟩ := List.append_of_mem hp
  obtain ⟨hp₂, hp₁⟩ := List.nodup_cons.mp (List.nodup_middle.mp hl)
  have h₁ := s.faultsFrame_foldl code l₁
  have hchron : (l₁.foldl (fun s p => s.partFault p code) s).chron = s.chron := by rw [h₁.eq]
  have hpart : (l₁.foldl (fun s p => s.partFault p code) s).part p = s.part p := h₁.others p fun h => hp₂ (List.mem_append_left _ h)
  have hr₁ : Running (l₁.foldl (fun s p => s.partFault p code) s) p := by unfold Running at hr ⊢; rwa [hpart]
  rw [List.foldl_append, List.foldl_cons]
  have h₂ := State.faultsFrame_foldl code l₂ ((l₁.foldl (fun s p => s.partFault p code) s).partFault p code)
  exact Checks.of_chron (Checks.mono (State.checks_partFault hr₁ code) (congrArg _ (h₂.others p fun h => hp₂ (List.mem_append_right _ h)))
    fun e he _ => h₂.events e he) hchron

section Uncorrectable

variable (s : State) (c : CoreIx) (b : Fin 32)

/-- The partitions that hold a row window on a bank or a page in it. -/
def State.namers : List PartIx := allParts.filter fun p => (s.windowNames c b && s.partOf c == some p) || s.partMaps p (32 * c.val + b.val)

theorem State.mem_namers (p : PartIx) :
    p ∈ s.namers c b ↔ s.windowNames c b = true ∧ s.partOf c = some p ∨ s.partMaps p (32 * c.val + b.val) = true := by
  rw [State.namers, List.mem_filter, Bool.or_eq_true, Bool.and_eq_true, beq_iff_eq]
  exact and_iff_right (List.mem_finRange p)

theorem State.namers_nodup : (s.namers c b).Nodup := (List.nodup_finRange 48).filter _

/-- The module with a bank failed, recorded in flash, before its partitions are checked. -/
def State.bankFailed : State :=
  let u := (s.setBank c b 7).surveyChange true
  { u with helm := { u.helm with flashRetired := u.helm.flashRetired ++ [(c.val, b.val, 7)] } }

variable {s c b}

theorem State.exec_uncorrectable (h1 : 1 ≤ ((s.col c).dram[b]).toNat) (h5 : ((s.col c).dram[b]).toNat ≤ 5) :
    exec (.uncorrectableDramError c b) s = .next ((s.namers c b).foldl (fun s p => s.partFault p 0x74) (s.bankFailed c b)) := by
  refine congrArg _ (if_neg ?_)
  rw [State.bankState_eq]
  omega

end Uncorrectable

/-! ## Sensors (R32) -/

theorem foldl_max_lt_iff {α : Type} (f : α → Nat) (n : Nat) (l : List α) (a : Nat) :
    l.foldl (fun a x => max a (f x)) a < n ↔ a < n ∧ ∀ x ∈ l, f x < n := by
  induction l generalizing a with
  | nil => simp
  | cons x l ih =>
    rw [List.foldl_cons, ih, List.forall_mem_cons, Nat.max_lt, and_assoc]

/-- TDRAM is under a bound where every layer is. -/
theorem Column.tdram_lt_iff (k : Column) {n : Nat} (hn : 0 < n) : k.tdram.toNat < n ↔ ∀ t ∈ k.layers.toList, t.toNat < n := by
  have hmax : k.layers.toList.foldl (fun a t => max a t.toNat) 0 < 2 ^ 12 :=
    (foldl_max_lt_iff BitVec.toNat (2 ^ 12) _ 0).mpr ⟨by decide, fun t _ => t.isLt⟩
  rw [Column.tdram, BitVec.toNat_ofNat, Nat.mod_eq_of_lt hmax, foldl_max_lt_iff BitVec.toNat]
  exact and_iff_right hn

theorem Column.sampled_of_within {k : Column} {lo hi : Nat} (hlo : lo ≤ k.tdram.toNat) (hhi : k.tdram.toNat < hi) (ix : Nat) :
    k.sampled lo hi ix = k := if_pos ⟨hlo, hhi⟩

/-- A column sampled within bounds has its TDRAM within them. -/
theorem Column.tdram_sampled (k : Column) {lo hi : Nat} (h : lo < hi) (hhi : hi ≤ 4096) (ix : Nat) :
    lo ≤ (k.sampled lo hi ix).tdram.toNat ∧ (k.sampled lo hi ix).tdram.toNat < hi := by
  by_cases hin : lo ≤ k.tdram.toNat ∧ k.tdram.toNat < hi
  · rw [Column.sampled_of_within hin.1 hin.2]
    exact hin
  · have hmod := Nat.mod_lt (Config.sensor ix) (show 0 < hi - lo by omega)
    have hv : (BitVec.ofNat 12 (lo + Config.sensor ix % (hi - lo))).toNat = lo + Config.sensor ix % (hi - lo) := by
      rw [BitVec.toNat_ofNat]
      exact Nat.mod_eq_of_lt (by omega)
    have hlayers : (k.sampled lo hi ix).layers = (k.layers.map fun t => if hi ≤ t.toNat then BitVec.ofNat 12 (lo + Config.sensor ix % (hi - lo)) else t).set
        (ix % 4) (BitVec.ofNat 12 (lo + Config.sensor ix % (hi - lo))) (by omega) := congrArg Column.layers (if_neg hin)
    constructor
    · refine Nat.not_lt.mp fun hlt => ?_
      have hall := (Column.tdram_lt_iff _ (by omega)).mp hlt (BitVec.ofNat 12 (lo + Config.sensor ix % (hi - lo)))
        (Vector.mem_toList_iff.mpr (Vector.mem_of_getElem (i := ix % 4) (h := by omega) (by simp only [hlayers, Vector.getElem_set_self])))
      omega
    · refine (Column.tdram_lt_iff _ (by omega)).mpr fun t ht => ?_
      rw [hlayers, Vector.mem_toList_iff] at ht
      obtain ⟨i, hi4, rfl⟩ := Vector.mem_iff_getElem.mp ht
      rw [Vector.getElem_set, Vector.getElem_map]
      split
      · omega
      · split <;> omega

/-- Only the sensor values of a column change, and the count of free values. -/
structure LayersOnly (c : CoreIx) (s u : State) : Prop where
  eq : u = { s with cols := u.cols, freeIx := u.freeIx }
  col : u.col c = { s.col c with layers := (u.col c).layers }
  others : ∀ x, x ≠ c → u.col x = s.col x

theorem Column.sampled_eq (k : Column) (lo hi ix : Nat) : k.sampled lo hi ix = { k with layers := (k.sampled lo hi ix).layers } := by
  unfold Column.sampled
  split <;> rfl

theorem LayersOnly.draw (c : CoreIx) (s : State) : LayersOnly c s { s with freeIx := s.freeIx + 1 } := ⟨rfl, rfl, fun _ _ => rfl⟩

theorem LayersOnly.sampled (c : CoreIx) (s : State) (lo hi : Nat) :
    LayersOnly c s ({ s with freeIx := s.freeIx + 1 }.updCol c fun k => k.sampled lo hi s.freeIx) :=
  ⟨rfl, by rw [State.col_updCol]; exact Column.sampled_eq .., fun _ hx => State.col_updCol_ne _ hx _⟩

theorem LayersOnly.holdsWindow {c : CoreIx} {s u : State} (h : LayersOnly c s u) (x : CoreIx) : u.holdsWindow x = s.holdsWindow x := by
  rw [h.eq]
  rfl

/-- A crossing of a rising bound: the state in which the sensors show it. -/
def State.risen (s : State) (lo hi : Nat) : State :=
  let u : State := { s with freeIx := s.freeIx + 1 }
  if lo ≤ (u.col s.cur).tdram.toNat then u else u.updCol s.cur fun k => k.sampled lo hi s.freeIx

theorem State.risen_spec (s : State) {lo hi : Nat} (h : lo < hi) (hhi : hi ≤ 4096) : LayersOnly s.cur s (s.risen lo hi)
    ∧ lo ≤ ((s.risen lo hi).col s.cur).tdram.toNat
    ∧ (lo ≤ (s.col s.cur).tdram.toNat → ((s.risen lo hi).col s.cur).layers = (s.col s.cur).layers) := by
  by_cases hlo : lo ≤ (s.col s.cur).tdram.toNat
  · have hrisen : s.risen lo hi = { s with freeIx := s.freeIx + 1 } := if_pos hlo
    rw [hrisen]
    exact ⟨.draw .., hlo, fun _ => rfl⟩
  · have hrisen : s.risen lo hi = { s with freeIx := s.freeIx + 1 }.updCol s.cur fun k => k.sampled lo hi s.freeIx := if_neg hlo
    rw [hrisen]
    refine ⟨.sampled .., ?_, fun h => absurd h hlo⟩
    rw [State.col_updCol]
    exact (Column.tdram_sampled _ h hhi _).1

/-! ## The pending change of the refresh period (R40) -/

/-- HOTPEND brought to a value, as the two crossings do. -/
def State.pendTo (u : State) (c : CoreIx) (pend : Bool) : State :=
  if (u.col c).hotpend = pend then u
  else if pend then u.hotSet c else (u.updCol c fun k => { k with hotpend := false }).surveyChange false

/-- What a crossing changes besides the sensors. -/
structure PendsTo (c : CoreIx) (pend : Bool) (u t : State) : Prop where
  col : t.col c = { u.col c with hotpend := pend, hotAt := if !pend || (u.col c).hotpend then (u.col c).hotAt else u.chron }
  others : ∀ x, x ≠ c → t.col x = u.col x
  eq : t = { u with cols := t.cols, agenda := t.agenda, helm := { u.helm with gen := t.helm.gen } }
  gen : t.helm.gen = if (u.col c).hotpend = pend then u.helm.gen else u.helm.gen + 2
  change : pend = true → (u.col c).hotpend = false → u.holdsWindow c = false →
    ∃ e ∈ t.agenda, e.cycle = u.chron ∧ e.core = c ∧ e.instr = .refreshPeriodChange

theorem State.pendsTo_pendTo (u : State) (c : CoreIx) (pend : Bool) : PendsTo c pend u (u.pendTo c pend) := by
  by_cases hp : (u.col c).hotpend = pend
  · have hpend : u.pendTo c pend = u := if_pos hp
    rw [hpend]
    refine ⟨?_, fun _ _ => rfl, rfl, (if_pos hp).symm, fun h1 h2 => ?_⟩
    · have hkept : (!pend || (u.col c).hotpend) = true := by rw [hp]; cases pend <;> rfl
      rw [if_pos hkept, ← hp]
    · rw [h1, h2] at hp
      cases hp
  · cases pend with
    | false =>
      have hpend : u.pendTo c false = (u.updCol c fun k => { k with hotpend := false }).surveyChange false := if_neg hp
      rw [hpend]
      refine ⟨?_, fun x hx => (State.surveyChange_col ..).trans (u.col_updCol_ne hx _), rfl, (if_neg hp).symm, fun h => by cases h⟩
      rw [State.surveyChange_col, State.col_updCol]
      rfl
    | true =>
      have hset := AddsEvents.hotCheck ((u.updCol c fun k => { k with hotpend := true, hotAt := u.chron }).surveyChange false) c
      have hpend : u.pendTo c true = ((u.updCol c fun k => { k with hotpend := true, hotAt := u.chron }).surveyChange false).hotCheck c := if_neg hp
      have hcol : ((u.updCol c fun k => { k with hotpend := true, hotAt := u.chron }).surveyChange false).col c =
          { u.col c with hotpend := true, hotAt := u.chron } := by rw [State.surveyChange_col, State.col_updCol]
      rw [Bool.not_eq_true] at hp
      rw [hpend]
      refine ⟨?_, fun x hx => ?_, ?_, ?_, fun _ _ hno => ?_⟩
      · rw [hset.col, hcol, hp]
        rfl
      · rw [hset.col, State.surveyChange_col, State.col_updCol_ne _ hx]
      · rw [hset.eq]
        rfl
      · rw [hset.eq, hp]
        rfl
      · have hno' : ((u.updCol c fun k => { k with hotpend := true, hotAt := u.chron }).surveyChange false).holdsWindow c = false := hno
        rw [State.hotCheck, hcol, hno']
        exact ⟨_, mem_agendaPut _ _, rfl, rfl, rfl⟩

/-- The two crossings bring HOTPEND to what they ask for: a change at the one bound, none at the other. -/
theorem State.pendTo_not_hot (u : State) (c : CoreIx) :
    (if (u.col c).hotpend ∧ (u.col c).hot then (u.updCol c fun k => { k with hotpend := false }).surveyChange false
      else if ¬ (u.col c).hot ∧ ¬ (u.col c).hotpend then u.hotSet c else u) = u.pendTo c !(u.col c).hot := by
  unfold State.pendTo
  cases (u.col c).hot <;> cases (u.col c).hotpend <;> simp

theorem State.pendTo_hot (u : State) (c : CoreIx) :
    (if (u.col c).hotpend ∧ ¬ (u.col c).hot then (u.updCol c fun k => { k with hotpend := false }).surveyChange false
      else if (u.col c).hot ∧ ¬ (u.col c).hotpend then u.hotSet c else u) = u.pendTo c (u.col c).hot := by
  unfold State.pendTo
  cases (u.col c).hot <;> cases (u.col c).hotpend <;> simp

theorem State.exec_hotonCrossing (s : State) : exec .hotonCrossing s = .next ((s.risen 680 720).pendTo s.cur !(s.col s.cur).hot) := by
  obtain ⟨hu, -, -⟩ := s.risen_spec (lo := 680) (hi := 720) (by decide) (by decide)
  have hhot : ((s.risen 680 720).col s.cur).hot = (s.col s.cur).hot := by rw [hu.col]
  rw [← hhot, ← State.pendTo_not_hot]
  rfl

/-- A crossing of the falling bound: the state in which the sensors show it. -/
def State.fallen (s : State) : State := { s with freeIx := s.freeIx + 1 }.updCol s.cur fun k => k.sampled 0 640 s.freeIx

theorem State.fallen_spec (s : State) : LayersOnly s.cur s s.fallen ∧ (s.fallen.col s.cur).tdram.toNat < 640
    ∧ ((s.col s.cur).tdram.toNat < 640 → (s.fallen.col s.cur).layers = (s.col s.cur).layers) := by
  have hcol : s.fallen.col s.cur = (s.col s.cur).sampled 0 640 s.freeIx := State.col_updCol ..
  rw [hcol]
  exact ⟨.sampled .., (Column.tdram_sampled _ (by decide) (by decide) _).2, fun h => by rw [Column.sampled_of_within (Nat.zero_le _) h]⟩

theorem State.exec_hotoffCrossing (s : State) : exec .hotoffCrossing s = .next (s.fallen.pendTo s.cur (s.col s.cur).hot) := by
  obtain ⟨hu, -, -⟩ := s.fallen_spec
  have hhot : (s.fallen.col s.cur).hot = (s.col s.cur).hot := by rw [hu.col]
  rw [← hhot, ← State.pendTo_hot]
  rfl

/-- What a crossing changes of the module before it. -/
theorem LayersOnly.pendTo {c : CoreIx} {s u : State} (hu : LayersOnly c s u) (pend : Bool) :
    (u.pendTo c pend).col c = { s.col c with
        layers := ((u.pendTo c pend).col c).layers, hotpend := pend
        hotAt := if !pend || (s.col c).hotpend then (s.col c).hotAt else s.chron }
      ∧ ((u.pendTo c pend).col c).layers = (u.col c).layers ∧ (∀ x, x ≠ c → (u.pendTo c pend).col x = s.col x)
      ∧ SurveyFrame s (u.pendTo c pend) ∧ (u.pendTo c pend).hif = s.hif
      ∧ (u.pendTo c pend).helm.gen = (if (s.col c).hotpend = pend then s.helm.gen else s.helm.gen + 2)
      ∧ (pend = true → (s.col c).hotpend = false → s.holdsWindow c = false →
          ∃ e ∈ (u.pendTo c pend).agenda, e.cycle = s.chron ∧ e.core = c ∧ e.instr = .refreshPeriodChange) := by
  obtain ⟨hcol, hout, heq, hgen, hchange⟩ := u.pendsTo_pendTo c pend
  have hlayers : ((u.pendTo c pend).col c).layers = (u.col c).layers := by rw [hcol]
  have hpend : (u.col c).hotpend = (s.col c).hotpend := by rw [hu.col]
  have hchron : u.chron = s.chron := by rw [hu.eq]
  have hframe : SurveyFrame u (u.pendTo c pend) := by
    rw [heq]
    exact ⟨rfl, rfl, rfl, rfl, rfl, rfl, rfl, rfl, rfl, rfl⟩
  refine ⟨?_, hlayers, fun x hx => (hout x hx).trans (hu.others x hx), SurveyFrame.of_cols hu.eq hframe, by rw [heq, hu.eq],
    by rw [hgen, hpend, hu.eq], fun h1 h2 h3 => ?_⟩
  · rw [hlayers, hcol, hpend, hchron]
    have hAt : (u.col c).hotAt = (s.col c).hotAt := by rw [hu.col]
    rw [hAt, hu.col]
  · rw [← hchron]
    exact hchange h1 (hpend.trans h2) ((hu.holdsWindow c).trans h3)

/-- The check of REFRESH_DEADLINE: of the column's partition, if the column has banks in row mode (R41). -/
def State.deadlineFault (u : State) (c : CoreIx) : State :=
  match u.partOf c with
  | some p => if (List.finRange 32).any (fun b => (u.col c).rowMode b) then u.partFault p 0x73 else u
  | none => u

theorem State.faultFrame_deadlineFault (u : State) (c : CoreIx) : ∃ p, FaultFrame p u (u.deadlineFault c) := by
  unfold State.deadlineFault
  split
  next p hp =>
    split
    · exact ⟨p, .partFault ..⟩
    · exact ⟨p, .refl ..⟩
  next => exact ⟨0, .refl ..⟩

theorem State.deadlineFault_eq (u : State) (c : CoreIx) :
    (∀ p, u.partOf c = some p → (∃ b : Fin 32, (u.col c).dram[b] = 2 ∨ (u.col c).dram[b] = 4) → u.deadlineFault c = u.partFault p 0x73)
      ∧ ((∀ b : Fin 32, (u.col c).dram[b] ≠ 2 ∧ (u.col c).dram[b] ≠ 4) → u.deadlineFault c = u) := by
  have hany : (List.finRange 32).any (fun b => (u.col c).rowMode b) = true ↔ ∃ b : Fin 32, (u.col c).dram[b] = 2 ∨ (u.col c).dram[b] = 4 := by
    simp only [List.any_eq_true, List.mem_finRange, true_and, Column.rowMode, Bool.or_eq_true, beq_iff_eq]
  unfold State.deadlineFault
  refine ⟨fun p hp hrow => ?_, fun hno => ?_⟩
  · rw [hp]
    exact if_pos (hany.mpr hrow)
  · split
    · refine if_neg fun h => ?_
      obtain ⟨b, hb⟩ := hany.mp h
      exact hb.elim (hno b).1 (hno b).2
    · rfl

theorem State.surveyChange_chron (s : State) (int : Bool) : (s.surveyChange int).chron = s.chron := by
  cases int
  · rfl
  · rw [State.surveyChange_true]

/-! ## Commands of SVCTL and BMCTL (R38, R98) -/

section Commands

variable {s : State} {c : CoreIx} {b : Fin 32}

theorem State.exec_surveyCommandDone (ht : s.ms.svTarget = some (c, b)) : exec .surveyCommandDone s =
    .next (let u : State := { s with ms := { s.ms with svBusy := false } }
      if s.ms.svCmd = 1 ∧ 1 ≤ ((s.col c).dram[b]).toNat ∧ ((s.col c).dram[b]).toNat ≤ 4 then (u.setBank c b 5).surveyChange false
      else if s.ms.svCmd = 2 ∧ (s.col c).dram[b] = 5 then
        let v := (u.setBank c b 6).surveyChange false
        { v with helm := { v.helm with flashRetired := v.helm.flashRetired ++ [(c.val, b.val, 6)] } }
      else u) := by
  have hst : ((s.col c).dram[b]).toNat = 5 ↔ (s.col c).dram[b] = 5 := (BitVec.toNat_inj (y := 5#4)).trans Iff.rfl
  show execSurveyCommandDone s = _
  unfold execSurveyCommandDone
  dsimp only
  have ht' : ({ s.ms with svBusy := false } : MemSide).svTarget = some (c, b) := ht
  rw [ht']
  dsimp only
  rw [State.bankState_eq]
  simp only [← hst]
  rfl

theorem State.exec_bankToRow (ht : s.ms.bmTarget = some (c, b)) : exec .bankToRow s =
    .next (if ((s.col c).dram[b] = 1 ∨ (s.col c).dram[b] = 3) ∧ ¬ s.bankUsed c b = true then { s with ms := { s.ms with bmMode := true } }.bmAccept
      else { s with ms := { s.ms with bmMode := true } }.bmRefuse) := by
  show execBankToRow s = _
  unfold execBankToRow
  dsimp only
  have ht' : ({ s.ms with bmMode := true } : MemSide).bmTarget = some (c, b) := ht
  rw [ht']
  dsimp only
  rw [State.bankState_eq]
  rfl

theorem State.exec_bankToPool (ht : s.ms.bmTarget = some (c, b)) : exec .bankToPool s =
    .next (if ((s.col c).dram[b] = 2 ∨ (s.col c).dram[b] = 4) ∧ ¬ s.windowNames c b = true then { s with ms := { s.ms with bmMode := false } }.bmAccept
      else { s with ms := { s.ms with bmMode := false } }.bmRefuse) := by
  show execBankToPool s = _
  unfold execBankToPool
  dsimp only
  have ht' : ({ s.ms with bmMode := false } : MemSide).bmTarget = some (c, b) := ht
  rw [ht']
  dsimp only
  rw [State.bankState_eq]
  rfl

end Commands

/-! ## Refresh slots anew (R34) -/

/-- The agenda with the slots of a column's open banks scheduled anew. -/
structure SlotsArmed (c : CoreIx) (s t : State) : Prop where
  eq : t = { s with agenda := t.agenda }
  slots : ∀ b : Fin 32, (s.col c).rows[b].at_ s.chron ≠ 0 →
    ∃ e ∈ t.agenda, e.cycle = s.chron + (s.col c).toSlot b.val s.chron ∧ e.core = c ∧ e.instr = .refreshSlotStart c b
  events : ∀ e ∈ s.agenda, (∀ b, e.instr ≠ .refreshSlotStart c b) → e ∈ t.agenda

theorem SlotsArmed.col {c : CoreIx} {s t : State} (h : SlotsArmed c s t) (x : CoreIx) : t.col x = s.col x := by
  rw [h.eq]
  rfl

/-- The slot of a bank put on the agenda, if the bank is open or precharging. -/
def State.slotArm (k : Column) (c : CoreIx) (s : State) (b : Fin 32) : State :=
  if k.rows[b].at_ s.chron = 0 then s else s.schedC (s.chron + k.toSlot b.val s.chron) c (.refreshSlotStart c b)

theorem State.addsEvents_slotArm (k : Column) (c : CoreIx) (s : State) (b : Fin 32) : AddsEvents s (s.slotArm k c b) := by
  unfold State.slotArm
  split
  · exact .refl s
  · exact .schedC ..

theorem State.mem_slotArm {k : Column} {c : CoreIx} {s : State} {b : Fin 32} (hb : ¬ k.rows[b].at_ s.chron = 0) :
    ∃ e ∈ (s.slotArm k c b).agenda, e.cycle = s.chron + k.toSlot b.val s.chron ∧ e.core = c ∧ e.instr = .refreshSlotStart c b := by
  rw [State.slotArm, if_neg hb]
  exact ⟨_, mem_agendaPut _ _, rfl, rfl, rfl⟩

/-- An event of a refresh slot of a column. -/
def slotEvent (c : CoreIx) (e : Ev) : Bool :=
  match e.instr with
  | .refreshSlotStart x _ => x == c
  | _ => false

theorem slotEvent_eq_false {c : CoreIx} {e : Ev} (h : ∀ b, e.instr ≠ .refreshSlotStart c b) : slotEvent c e = false := by
  unfold slotEvent
  split
  next x b he =>
    refine beq_false_of_ne ?_
    rintro rfl
    exact h b he
  next => rfl

theorem State.slotsArm_eq (s : State) (c : CoreIx) : s.slotsArm c = (List.finRange 32).foldl (State.slotArm (s.col c) c)
    { s with agenda := s.agenda.filter fun e => !(slotEvent c e && decide (s.chron < e.cycle)) } := rfl

theorem State.slotsArmed_slotsArm (s : State) (c : CoreIx) : SlotsArmed c s (s.slotsArm c) := by
  have hadds (l : List (Fin 32)) (t : State) : AddsEvents t (l.foldl (State.slotArm (s.col c) c) t) := .foldl (State.addsEvents_slotArm _ c) l t
  rw [State.slotsArm_eq]
  refine ⟨?_, fun b hb => ?_, fun e he hno => (hadds _ _).events e (List.mem_filter.mpr ⟨he, by rw [slotEvent_eq_false hno]; rfl⟩)⟩
  · rw [(hadds _ _).eq]
  · obtain ⟨l₁, l₂, hl⟩ := List.append_of_mem (List.mem_finRange b)
    rw [hl, List.foldl_append, List.foldl_cons]
    have h₁ := hadds l₁ { s with agenda := s.agenda.filter fun e => !(slotEvent c e && decide (s.chron < e.cycle)) }
    have hb' : ¬ (s.col c).rows[b].at_ (l₁.foldl (State.slotArm (s.col c) c)
        { s with agenda := s.agenda.filter fun e => !(slotEvent c e && decide (s.chron < e.cycle)) }).chron = 0 := by rw [h₁.eq]; exact hb
    obtain ⟨e, he, hcycle, hrest⟩ := State.mem_slotArm (c := c) hb'
    exact ⟨e, (hadds l₂ _).events e he, by rw [hcycle, h₁.eq], hrest⟩

end Sys2Proof.Machine

namespace Sys2Proof

open Machine

theorem bankHealthEvents : BankHealthEvents := by
  refine ⟨fun s c b hplain => ?_, fun s c b h1 h2 => ?_, fun s c l b hb hplain => ?_, fun s c l hno => ?_, fun s c b h1 h5 => ?_, fun s c b h => ?_⟩
  · obtain ⟨n, u, hexec, hn, hn0, hu, hcol, hout⟩ := s.exec_pendOnErrors c b
    have hdram : (u.col c).dram = (s.col c).dram := by rw [hcol]; rfl
    obtain ⟨⟨hcol', hout'⟩, hgen, hint, hframe, hagenda⟩ := State.pendBanks_of_plain (List.nodup_singleton b)
      ⟨b, List.mem_singleton_self b, by rw [hdram]; exact hplain⟩
    refine ⟨_, n, hexec, hn, hn0, ⟨?_, fun x hx => (hout' x hx).trans (hout x hx)⟩, by rw [hgen, hu], hint, SurveyFrame.of_cols hu hframe,
      by rw [hagenda, hu]⟩
    rw [hcol', hcol]
    exact congrArg (fun d => { (s.col c).addErrors n with dram := d }) (ofFn_pendOf_singleton (s.col c).dram b)
  · obtain ⟨n, u, hexec, hn, hn0, hu, hcol, hout⟩ := s.exec_pendOnErrors c b
    have hdram : (u.col c).dram = (s.col c).dram := by rw [hcol]; rfl
    have hno : u.pendBanks c [b] = u := State.pendBanks_of_no_plain fun x hx => by
      obtain rfl := List.mem_singleton.mp hx
      rw [hdram]
      exact ⟨h1, h2⟩
    rw [hno] at hexec
    have hframe : SurveyFrame s u := SurveyFrame.of_cols hu ⟨rfl, rfl, rfl, rfl, rfl, rfl, rfl, rfl, rfl, rfl⟩
    exact ⟨u, n, hexec, hn, hn0, ⟨hcol, hout⟩, by rw [hu], by rw [hu], hframe, by rw [hu]⟩
  · obtain ⟨⟨hcol, hout⟩, hrest⟩ := State.pendBanks_of_plain (layerBanks_nodup l) ⟨b, (mem_layerBanks l b).mpr hb, hplain⟩
    refine ⟨_, rfl, ⟨hcol.trans ?_, hout⟩, hrest⟩
    simp only [mem_layerBanks]
  · exact congrArg _ (State.pendBanks_of_no_plain fun b hb => hno b ((mem_layerBanks l b).mp hb))
  · have hfaults := State.faultsFrame_foldl 0x74 (s.namers c b) (s.bankFailed c b)
    have hdoes := s.columnDoes_setBank c b 7 true
    have hchange := State.surveyChange_true (s.setBank c b 7)
    have hparts : (s.bankFailed c b).parts = s.parts := by rw [State.bankFailed, hchange]; rfl
    have hpart (p : PartIx) : (s.bankFailed c b).part p = s.part p := by rw [State.part, hparts]; rfl
    refine ⟨_, s.exec_uncorrectable h1 h5, ⟨?_, fun x hx => ?_⟩, ?_, hfaults.ints 0 (State.surveyChange_int _), ?_, ?_, ?_, ?_, fun p hr hp => ?_,
      fun p hp => ?_⟩
    · rw [hfaults.eq]
      exact hdoes.1
    · rw [hfaults.eq]
      exact hdoes.2 x hx
    · rw [hfaults.eq, State.bankFailed, hchange]
      rfl
    · rw [hfaults.eq, State.bankFailed, hchange]
      rfl
    · rw [hfaults.eq, State.bankFailed, hchange]
      rfl
    · rw [hfaults.eq, State.bankFailed, hchange]
      rfl
    · rw [hfaults.eq, State.bankFailed, hchange]
      rfl
    · have hr' : Running (s.bankFailed c b) p := by unfold Running at hr ⊢; rwa [hpart]
      exact Checks.of_chron (State.checks_foldl (s.namers_nodup c b) ((s.mem_namers c b p).mpr hp) hr' 0x74) (by rw [State.bankFailed, hchange]; rfl)
    · rw [hfaults.others p fun h => hp ((s.mem_namers c b p).mp h), hpart]
  · refine congrArg _ (if_pos ?_)
    rw [State.bankState_eq]
    rcases h with h | h
    · exact .inl (by rw [h]; rfl)
    · exact .inr h

/-- The command of SVCTL and BMCTL is accepted or refused by the bank it names. -/
theorem surveyCommands : SurveyCommands := by
  refine ⟨fun s c b ht h1 h4 hw => ⟨_, Nat.lt_of_lt_of_le Nat.one_pos (Nat.le_add_right 1 (Config.helmLatency s.freeIx)), ?_⟩, fun s h => ?_,
    fun s c b ht hq hused => ⟨_, Nat.lt_of_lt_of_le Nat.one_pos (Nat.le_add_right 1 (Config.helmLatency s.freeIx)), ?_⟩, fun s h => ?_,
    fun s c b ht hcmd h1 h4 => ?_, fun s c b ht hcmd hq => ?_, fun s h => ?_, fun s h => dif_pos h, fun s h => dif_neg (Nat.not_lt.mpr h)⟩
  · show execQuiesce s = _
    rw [execQuiesce, ht]
    exact congrArg _ (if_pos (by rw [State.bankState_eq]; exact ⟨h1, h4, by rw [hw]; exact Bool.false_ne_true⟩))
  · show execQuiesce s = _
    rw [execQuiesce]
    cases ht : s.ms.svTarget with
    | none => rfl
    | some x =>
      obtain ⟨c, b⟩ := x
      refine congrArg _ (if_neg ?_)
      rw [State.bankState_eq]
      rintro ⟨h1, h4, hw⟩
      rcases h c b ht with h | h | h
      · rw [h] at h1
        exact absurd h1 (by decide)
      · omega
      · exact hw h
  · show execCommit s = _
    rw [execCommit, ht]
    exact congrArg _ (if_pos (by rw [State.bankState_eq]; exact ⟨hq, by rw [hused]; exact Bool.false_ne_true⟩))
  · show execCommit s = _
    rw [execCommit]
    cases ht : s.ms.svTarget with
    | none => rfl
    | some x =>
      obtain ⟨c, b⟩ := x
      refine congrArg _ (if_neg ?_)
      rw [State.bankState_eq]
      rintro ⟨hq, hused⟩
      exact (h c b ht).elim (fun h => h hq) hused
  · exact ⟨_, (State.exec_surveyCommandDone ht).trans (congrArg _ (if_pos ⟨hcmd, h1, h4⟩)), State.columnDoes_setBank_ms .., rfl, rfl,
      State.surveyFrame_setBank_ms .., rfl⟩
  · have hno : ¬ (s.ms.svCmd = 1 ∧ 1 ≤ ((s.col c).dram[b]).toNat ∧ ((s.col c).dram[b]).toNat ≤ 4) := by
      rw [hcmd]
      exact fun h => absurd h.1 (by decide)
    exact ⟨_, (State.exec_surveyCommandDone ht).trans (congrArg _ ((if_neg hno).trans (if_pos ⟨hcmd, hq⟩))),
      State.columnDoes_setBank_ms s { s.ms with svBusy := false } c b 6, rfl, rfl, rfl, rfl⟩
  · cases ht : s.ms.svTarget with
    | none =>
      show execSurveyCommandDone s = _
      unfold execSurveyCommandDone
      dsimp only
      have ht' : ({ s.ms with svBusy := false } : MemSide).svTarget = none := ht
      rw [ht']
    | some x =>
      obtain ⟨c, b⟩ := x
      obtain ⟨h1, h2⟩ := h c b ht
      rw [State.exec_surveyCommandDone ht, if_neg h1, if_neg h2]

theorem temperatureEvents : TemperatureEvents := by
  refine ⟨fun s => ?_, fun s => ?_, fun s hpend hno => ?_, fun s h => ?_, fun s hhot => ?_, fun s hhot => ?_⟩
  · obtain ⟨hu, hrise, hsame⟩ := s.risen_spec (lo := 680) (hi := 720) (by decide) (by decide)
    obtain ⟨hcol, hlayers, hout, hframe, hhif, hgen, hchange⟩ := hu.pendTo (!(s.col s.cur).hot)
    refine ⟨_, s.exec_hotonCrossing, ?_, fun h => ?_, ⟨?_, hout⟩, hframe, hhif, ?_, fun hh hp hno => hchange (by rw [hh]; rfl) hp hno⟩
    · rwa [Column.tdram, hlayers]
    · rw [hlayers, hsame h]
    · rw [hcol, Bool.not_not]
    · rw [hgen]
      cases (s.col s.cur).hot <;> cases (s.col s.cur).hotpend <;> rfl
  · obtain ⟨hu, hfall, hsame⟩ := s.fallen_spec
    obtain ⟨hcol, hlayers, hout, hframe, hhif, hgen, hchange⟩ := hu.pendTo (s.col s.cur).hot
    refine ⟨_, s.exec_hotoffCrossing, ?_, fun h => ?_, ⟨hcol, hout⟩, hframe, hhif, hgen, hchange⟩
    · rwa [Column.tdram, hlayers]
    · rw [hlayers, hsame h]
  · have hexec : exec .refreshPeriodChange s =
        .next (((s.updCol s.cur fun k => { k with hot := !k.hot, hotpend := false }).surveyChange false).slotsArm s.cur) :=
      congrArg _ ((if_neg (by rw [hno]; exact Bool.false_ne_true)).trans (if_pos hpend))
    have harm := State.slotsArmed_slotsArm ((s.updCol s.cur fun k => { k with hot := !k.hot, hotpend := false }).surveyChange false) s.cur
    have hcol : ((s.updCol s.cur fun k => { k with hot := !k.hot, hotpend := false }).surveyChange false).col s.cur =
        { s.col s.cur with hot := !(s.col s.cur).hot, hotpend := false } := by rw [State.surveyChange_col, State.col_updCol]
    refine ⟨_, hexec, ⟨(harm.col _).trans hcol, fun x hx => ?_⟩, ?_, ?_, ?_, fun b hb => ?_, fun e he hne => harm.events e he hne⟩
    · rw [harm.col, State.surveyChange_col, State.col_updCol_ne _ hx]
    · rw [harm.eq]
      rfl
    · rw [harm.eq]
      rfl
    · rw [harm.eq]
      exact ⟨rfl, rfl, rfl, rfl, rfl, rfl, rfl, rfl, rfl, rfl⟩
    · rw [harm.col]
      exact harm.slots b (by rw [hcol]; exact hb)
  · rcases h with h | h
    · exact congrArg _ (if_pos h)
    · have hsame : (if s.holdsWindow s.cur then s else s.hotChange s.cur) = s := by
        rw [State.hotChange, h]
        exact ite_self s
      exact congrArg Host.Outcome.next hsame
  · obtain ⟨hu, hrise, hsame⟩ := s.risen_spec (lo := 720) (hi := 736) (by decide) (by decide)
    have hot : ¬ ((s.risen 720 736).col s.cur).hot = true := by rw [hu.col]; simp [hhot]
    have hexec : exec .refreshDeadline s = .next (((((s.risen 720 736).deadlineFault s.cur).updCol s.cur fun k =>
        { k with hot := true, hotpend := false }).surveyChange false).slotsArm s.cur) := congrArg _ (if_neg hot)
    have hdram : ((s.risen 720 736).col s.cur).dram = (s.col s.cur).dram := by rw [hu.col]
    have hrows : ((s.risen 720 736).col s.cur).rows = (s.col s.cur).rows := by rw [hu.col]
    obtain ⟨p, hfault⟩ := (s.risen 720 736).faultFrame_deadlineFault s.cur
    have hdead := (s.risen 720 736).deadlineFault_eq s.cur
    rw [hdram] at hdead
    have hchron : (s.risen 720 736).chron = s.chron := by rw [hu.eq]
    generalize (s.risen 720 736).deadlineFault s.cur = v at hexec hfault hdead
    have harm := State.slotsArmed_slotsArm ((v.updCol s.cur fun k => { k with hot := true, hotpend := false }).surveyChange false) s.cur
    have hcol : ((v.updCol s.cur fun k => { k with hot := true, hotpend := false }).surveyChange false).col s.cur =
        { s.col s.cur with layers := ((s.risen 720 736).col s.cur).layers, hot := true, hotpend := false } := by
      rw [State.surveyChange_col, State.col_updCol, hfault.col, hu.col]
    have hlayers : (((v.updCol s.cur fun k => { k with hot := true, hotpend := false }).surveyChange false).col s.cur).layers =
        ((s.risen 720 736).col s.cur).layers := by rw [hcol]
    refine ⟨_, hexec, ?_, fun h => ?_, ⟨?_, fun x hx => ?_⟩, ?_, ?_, ?_, fun b hb => ?_, fun q hq hr hrow => ?_, fun hno => ?_⟩
    · rwa [harm.col, Column.tdram, hlayers]
    · rw [harm.col, hlayers, hsame h]
    · rw [harm.col, hlayers, hcol]
    · rw [harm.col, State.surveyChange_col, State.col_updCol_ne _ hx, hfault.col, hu.others x hx]
    · rw [harm.eq, State.surveyChange_gen]
      show v.helm.gen + 2 = _
      rw [hfault.helm, hu.eq]
    · rw [harm.eq]
      exact hfault.memory.trans (by rw [hu.eq])
    · rw [harm.eq]
      exact hfault.cores.trans (by rw [hu.eq])
    · have hslot := harm.slots b (by rw [hcol, State.surveyChange_chron, State.updCol_chron, hfault.chron, hchron]; exact hb)
      rw [harm.col]
      rw [State.surveyChange_chron, State.updCol_chron, hfault.chron, hchron] at hslot
      exact hslot
    · have hq' : (s.risen 720 736).partOf s.cur = some q := by rw [hu.eq]; exact hq
      have hr' : Running (s.risen 720 736) q := by rw [hu.eq]; exact hr
      have hcheck : Checks (s.risen 720 736) v q 0x73 := by rw [hdead.1 q hq' hrow]; exact State.checks_partFault hr' 0x73
      refine Checks.of_chron (Checks.mono hcheck (by rw [harm.eq]; rfl) fun e he hi => harm.events e he fun b h => ?_) hchron
      rw [hi] at h
      cases h
    · rw [harm.eq]
      show v.parts = s.parts
      rw [hdead.2 hno, hu.eq]
  · obtain ⟨hu, hrise, hsame⟩ := s.risen_spec (lo := 720) (hi := 736) (by decide) (by decide)
    have hot : ((s.risen 720 736).col s.cur).hot = true := by rw [hu.col]; exact hhot
    refine ⟨s.risen 720 736, ?_, hrise, hsame, ⟨hu.col, hu.others⟩, SurveyFrame.of_cols hu.eq ⟨rfl, rfl, rfl, rfl, rfl, rfl, rfl, rfl, rfl, rfl⟩,
      by rw [hu.eq], by rw [hu.eq]⟩
    exact congrArg _ (if_pos hot)

/-- A command of BMCTL is accepted or refused by the bank it names. -/
theorem bankModeChanges : BankModeChanges := by
  refine ⟨fun s c b ht hst hused => ⟨_, Nat.lt_of_lt_of_le Nat.one_pos (Nat.le_add_right 1 (Config.helmLatency s.freeIx)), ?_⟩, fun s h => ?_,
    fun s c b ht hst hw => ⟨_, Nat.lt_of_lt_of_le Nat.one_pos (Nat.le_add_right 1 (Config.helmLatency s.freeIx)), ?_⟩, fun s h => ?_,
    fun s c b v ht hv => ?_⟩
  · rw [State.exec_bankToRow ht, if_pos ⟨hst, by rw [hused]; exact Bool.false_ne_true⟩]
    rfl
  · cases ht : s.ms.bmTarget with
    | none =>
      show execBankToRow s = _
      unfold execBankToRow
      dsimp only
      have ht' : ({ s.ms with bmMode := true } : MemSide).bmTarget = none := ht
      rw [ht']
      rfl
    | some x =>
      obtain ⟨c, b⟩ := x
      rw [State.exec_bankToRow ht, if_neg]
      · rfl
      · rintro ⟨hst, hused⟩
        rcases h c b ht with ⟨h1, h3⟩ | h
        · exact hst.elim h1 h3
        · exact hused h
  · rw [State.exec_bankToPool ht, if_pos ⟨hst, by rw [hw]; exact Bool.false_ne_true⟩]
    rfl
  · cases ht : s.ms.bmTarget with
    | none =>
      show execBankToPool s = _
      unfold execBankToPool
      dsimp only
      have ht' : ({ s.ms with bmMode := false } : MemSide).bmTarget = none := ht
      rw [ht']
      rfl
    | some x =>
      obtain ⟨c, b⟩ := x
      rw [State.exec_bankToPool ht, if_neg]
      · rfl
      · rintro ⟨hst, hw⟩
        rcases h c b ht with ⟨h2, h4⟩ | h
        · exact hst.elim h2 h4
        · exact hw h
  · have hexec : exec .bmctlDone s = .next ((({ s with ms := { s.ms with bmBusy := false } } : State).setBank c b v).surveyChange false) := by
      have ht' : ({ s.ms with bmBusy := false } : MemSide).bmTarget = some (c, b) := ht
      have hst : ({ s with ms := { s.ms with bmBusy := false } } : State).bankState c.val b.val = (s.col c).dram[b] := State.bankState_eq ..
      show execBmctlDone s = _
      unfold execBmctlDone
      dsimp only
      rw [ht']
      dsimp only
      rw [hst]
      rcases hv with ⟨hm, ⟨hst, rfl⟩ | ⟨hst, rfl⟩⟩ | ⟨hm, ⟨hst, rfl⟩ | ⟨hst, rfl⟩⟩ <;> rw [hm, hst] <;> rfl
    exact ⟨_, hexec, State.columnDoes_setBank_ms .., rfl, rfl, State.surveyFrame_setBank_ms .., rfl⟩

/-- Settles O42: health and modes of banks through `State.pendBanks_of_plain` and `State.columnDoes_setBank`, the checks of the
partitions through `State.checks_foldl`, temperatures through `State.pendsTo_pendTo` and `State.slotsArmed_slotsArm`. -/
theorem surveyEvents : Obligations.SurveyEvents := ⟨bankHealthEvents, surveyCommands, temperatureEvents, bankModeChanges⟩

end Sys2Proof

/-! # Fixes completed and released, and the fabric tree (R40, R130 to R136, R145) -/

namespace Sys2Proof.Machine

/-! ## Pending changes of the refresh period as a fix completes (R40) -/

/-- A column whose change of the refresh period was pending before a fix started has it. -/
def Column.fixHot (k : Column) (start : Nat) : Column :=
  if k.hotpend = true ∧ k.hotAt < start then { k with hot := !k.hot, hotpend := false } else k

/-- One step of what FIX_COMPLETE does to the columns. -/
def State.fixHot (start : Nat) (s : State) (c : CoreIx) : State := if (s.col c).hotAt < start then s.hotChange c else s

/-- What the changes of the refresh period of a list of columns leave. -/
structure HotFrame (l : List CoreIx) (start : Nat) (s t : State) : Prop where
  eq : t = { s with cols := t.cols, agenda := t.agenda, helm := { s.helm with gen := t.helm.gen } }
  col : ∀ x, t.col x = if x ∈ l then (s.col x).fixHot start else s.col x

theorem State.hotFrame_fixHot (start : Nat) (s : State) (c : CoreIx) : HotFrame [c] start s (State.fixHot start s c) := by
  by_cases h : (s.col c).hotpend = true ∧ (s.col c).hotAt < start
  · have harm := State.slotsArmed_slotsArm ((s.updCol c fun k => { k with hot := !k.hot, hotpend := false }).surveyChange false) c
    have hfix : State.fixHot start s c = ((s.updCol c fun k => { k with hot := !k.hot, hotpend := false }).surveyChange false).slotsArm c :=
      (if_pos h.2).trans (if_pos h.1)
    rw [hfix]
    refine ⟨?_, fun x => ?_⟩
    · rw [harm.eq]
      rfl
    · rw [harm.col, State.surveyChange_col]
      by_cases hx : x = c
      · subst hx
        rw [State.col_updCol, if_pos (List.mem_singleton_self x), Column.fixHot, if_pos h]
      · rw [State.col_updCol_ne _ hx, if_neg (by simpa using hx)]
  · have hfix : State.fixHot start s c = s := by
      unfold State.fixHot
      split
      next hAt => exact if_neg fun hp => h ⟨hp, hAt⟩
      next => rfl
    rw [hfix]
    refine ⟨rfl, fun x => ?_⟩
    split
    next hx =>
      obtain rfl := List.mem_singleton.mp hx
      rw [Column.fixHot, if_neg h]
    next => rfl

theorem State.hotFrame_foldl (start : Nat) {l : List CoreIx} (hl : l.Nodup) (s : State) :
    HotFrame l start s (l.foldl (State.fixHot start) s) := by
  induction l generalizing s with
  | nil => exact ⟨rfl, fun _ => rfl⟩
  | cons c l ih =>
    obtain ⟨hc, hl⟩ := List.nodup_cons.mp hl
    have hstep := State.hotFrame_fixHot start s c
    have hrest := ih hl (State.fixHot start s c)
    refine ⟨?_, fun x => ?_⟩
    · have e := hrest.eq
      rw [hstep.eq] at e
      rw [List.foldl_cons, hstep.eq]
      exact e
    · rw [List.foldl_cons, hrest.col, hstep.col]
      by_cases hx : x = c
      · subst hx
        simp [hc]
      · simp [hx]

/-! ## The selector (R134 to R136) -/

theorem rowMatches_iff (w : BitVec 64) (sz h p b : Nat) : rowMatches w sz h p b = true ↔ RowHas w sz h p b := by
  simp only [rowMatches, RowHas, Bool.and_eq_true, and_assoc]

/-- The first row that has the keys gives the course. -/
theorem LegDesc.select_of_first {d : LegDesc} {sz h p b i : Nat} {w : BitVec 64} (hw : d.sel[i]? = some w) (hrow : RowHas w sz h p b)
    (hfirst : ∀ (j : Nat) (x : BitVec 64), j < i → d.sel[j]? = some x → ¬ RowHas x sz h p b) :
    d.select sz h p b = some ((w.toNat / 2 ^ 28) % 8) := by
  have hfind : d.sel.find? (fun w => rowMatches w sz h p b) = some w := by
    obtain ⟨hi, hget⟩ := List.getElem?_eq_some_iff.mp hw
    refine List.find?_eq_some_iff_getElem.mpr ⟨(rowMatches_iff ..).mpr hrow, i, hi, hget, fun j hj => ?_⟩
    have hj' : j < d.sel.length := by omega
    rw [Bool.not_eq_true', Bool.eq_false_iff, ne_eq, rowMatches_iff]
    exact hfirst j _ hj (List.getElem?_eq_getElem hj')
  rw [LegDesc.select, hfind]
  rfl

theorem LegDesc.select_eq_none {d : LegDesc} {sz h p b : Nat} (hno : ∀ x ∈ d.sel, ¬ RowHas x sz h p b) : d.select sz h p b = none := by
  rw [LegDesc.select, Option.map_eq_none_iff, List.find?_eq_none]
  exact fun x hx => by rw [rowMatches_iff]; exact hno x hx

/-- The greatest of some numbers is what the fold by `max` gives. -/
theorem foldl_max_eq {ms : List Nat} {mx : Nat} (hmem : mx ∈ ms) (hle : ∀ m ∈ ms, m ≤ mx) : ms.foldl max 0 = mx := by
  have hlt := (foldl_max_lt_iff id (mx + 1) ms 0).mpr ⟨by omega, fun m hm => Nat.lt_succ_of_le (hle m hm)⟩
  have hge := le_foldl_of_mem (g := max) (fun a x => Nat.le_max_left a x) hmem (fun a => Nat.le_max_right a mx) 0
  exact Nat.le_antisymm (Nat.le_of_lt_succ hlt) hge

theorem foldl_min_eq {ms : List Nat} {mn a : Nat} (hmem : mn ∈ ms) (hle : ∀ m ∈ ms, mn ≤ m) (ha : mn ≤ a) : ms.foldl min a = mn := by
  have hge (l : List Nat) (hl : ∀ m ∈ l, mn ≤ m) (a : Nat) (ha : mn ≤ a) : mn ≤ l.foldl min a := by
    induction l generalizing a with
    | nil => exact ha
    | cons x l ih =>
      obtain ⟨hx, hl⟩ := List.forall_mem_cons.mp hl
      exact ih hl _ (Nat.le_min.mpr ⟨ha, hx⟩)
  have hdown (l : List Nat) (a : Nat) : l.foldl min a ≤ a := by
    induction l generalizing a with
    | nil => exact Nat.le_refl a
    | cons x l ih => exact (ih _).trans (Nat.min_le_left ..)
  obtain ⟨l, r, rfl⟩ := List.append_of_mem hmem
  refine Nat.le_antisymm ?_ (hge _ hle a ha)
  rw [List.foldl_append, List.foldl_cons]
  exact (hdown r _).trans (Nat.min_le_right ..)

/-- The bucket counts the thresholds an imbalance reaches. -/
theorem bucketOf_eq {ms : List Nat} {d : LegDesc} {mx mn : Nat} (hmx : mx ∈ ms) (hmn : mn ∈ ms) (hle : ∀ m ∈ ms, mn ≤ m ∧ m ≤ mx)
    (h12 : d.bt1 ≤ d.bt2) (h23 : d.bt2 ≤ d.bt3) :
    let i := if mx = 0 then 0 else 1024 * (mx - mn) / mx
    bucketOf ms d = (if d.bt1 ≤ i then 1 else 0) + (if d.bt2 ≤ i then 1 else 0) + (if d.bt3 ≤ i then 1 else 0) := by
  have hmax := foldl_max_eq hmx fun m hm => (hle m hm).2
  have hmin := foldl_min_eq (a := mx) hmn (fun m hm => (hle m hm).1) (hle mn hmn).2
  unfold bucketOf
  simp only [hmax, hmin]
  generalize (if mx = 0 then 0 else 1024 * (mx - mn) / mx) = i
  split
  · rw [if_neg (by omega), if_neg (by omega), if_neg (by omega)]
  · split
    · rw [if_pos (by omega), if_neg (by omega), if_neg (by omega)]
    · split
      · rw [if_pos (by omega), if_pos (by omega), if_neg (by omega)]
      · rw [if_pos (by omega), if_pos (by omega), if_pos (by omega)]

/-! ## The Logbook off (R145) -/

theorem State.logRecord_of_off {s : State} {p : PartIx} (h : (s.part p).lb.act = false) (cls kind eng core arg : Nat) (payload : List Byte)
    (slot : Option (Fin 8)) : s.logRecord p cls kind eng core arg payload slot = s := by
  unfold State.logRecord
  dsimp only
  rw [if_pos]
  exact .inl (by rw [h]; exact Bool.false_ne_true)

theorem State.replaying_of_off {s : State} {p : PartIx} (h : (s.part p).lb.act = false) : s.replaying p = false := by
  rw [State.replaying, h]
  rfl

/-! ## Completion (R130) -/

theorem State.mem_grpCores (s : State) (p : PartIx) (g : GroupIx) (x : CoreIx) : x ∈ s.grpCores p g ↔ InGroup s p g x := by
  rw [State.grpCores, List.mem_filter, State.mem_coresOf, InGroup]
  refine and_congr_right fun _ => ?_
  by_cases h48 : g.val < 48
  · have hcl : (clusterOf x).val = x.val / 6 := rfl
    simp [h48, hcl]
  · by_cases h56 : g.val < 56
    · have hst : stackOf x = x.val / 36 := rfl
      simp [h48, h56, hst]
      omega
    · simp [h48, h56]

theorem State.grpCores_nodup (s : State) (p : PartIx) (g : GroupIx) : (s.grpCores p g).Nodup := (s.coresOf_nodup p).filter _

/-- The keys of a fix: the greatest size class of its cores. -/
def State.sizeKey (s : State) (cs : List CoreIx) : Nat := cs.foldl (fun a c => max a (s.core c).ctl.sizecls.toNat) 0

theorem State.chooseCourse_of_off {s : State} {p : PartIx} (h : (s.part p).lb.act = false) (cs : List CoreIx) (n : Nat) (d : LegDesc) :
    s.chooseCourse p cs n d = (d.select (s.sizeKey cs) (s.health cs) (s.part p).pwrcls.toNat (s.balance p cs d), s) := by
  unfold State.chooseCourse
  rw [State.replaying_of_off h]
  rfl

theorem State.sizeKey_eq (s : State) (cs : List CoreIx) : s.sizeKey cs = (cs.map fun c => (s.core c).ctl.sizecls.toNat).foldl max 0 := by
  rw [State.sizeKey, List.foldl_map]

/-- The health class: 1 for a bus at half width, 2 for a column at the halved period. -/
theorem State.health_eq (s : State) (cs : List CoreIx) : s.health cs =
    (if ∃ x ∈ cs, (s.col x).half = true then 1 else 0) + (if ∃ x ∈ cs, (s.col x).hot = true then 2 else 0) := by
  have hany (f : CoreIx → Bool) : cs.any f = true ↔ ∃ x ∈ cs, f x = true := List.any_eq_true
  have hbit (b : Bool) (P : Prop) [Decidable P] (h : b = true ↔ P) (n : Nat) : n * ofBool b = if P then n else 0 := by
    by_cases hP : P
    · rw [h.mpr hP, if_pos hP]
      exact Nat.mul_one n
    · rw [Bool.eq_false_iff.mpr fun hb => hP (h.mp hb), if_neg hP]
      rfl
  rw [State.health, ← hbit _ _ (hany fun x => (s.col x).half) 1, ← hbit _ _ (hany fun x => (s.col x).hot) 2, Nat.one_mul]

theorem releaseDelay_eq (scope : Nat) : releaseDelay scope = if scope = 1 then 8 else if scope = 2 then 16 else 48 := by
  unfold releaseDelay
  split
  · rfl
  · rfl
  next h1 h2 => rw [if_neg h1, if_neg h2]

/-- The fix of a group, complete with its course, before its release. -/
def State.fixChosen (u : State) (p : PartIx) (g : GroupIx) (n course : Nat) : State :=
  (u.noteMeters p (u.grpCores p g)).updPart p fun q =>
    { q with fixes := q.fixes ++ [{ grp := g, leg := n, course := course, health := u.health (u.grpCores p g), fabric := false, held := false }] }

theorem State.fixChosen_part (u : State) (p : PartIx) (g : GroupIx) (n course : Nat) : (u.fixChosen p g n course).part p =
    { u.part p with
      fixes := (u.part p).fixes ++
        [{ grp := g, leg := n, course := course, health := u.health (u.grpCores p g), fabric := false, held := false }] } := by
  rw [State.fixChosen, State.part_updPart]
  rfl

theorem State.fixChosen_part_ne (u : State) {p q : PartIx} (g : GroupIx) (n course : Nat) (h : q ≠ p) :
    (u.fixChosen p g n course).part q = u.part q := by
  rw [State.fixChosen, State.part_updPart_ne _ h]
  rfl

/-- A fix that can complete: each core of the group has arrived at it, its partition runs, and nothing holds it. -/
structure FixReady (s : State) (p : PartIx) (g : GroupIx) (n : Nat) (d : LegDesc) : Prop where
  arrived : ∀ x ∈ s.grpCores p g, (∃ a, s.arrivalOf x = some (n, a)) ∧ groupIx x d.scope = g
  some_core : s.grpCores p g ≠ []
  leg : (s.part p).leg n = some d
  running : Running s p
  first : ∀ f ∈ (s.part p).fixes, f.grp ≠ g
  stays : (s.part p).outgoing = none
  unlogged : (s.part p).lb.act = false
  unheld : (s.part p).ckreq = false
  scope : d.scope ≤ 3

section Ready

variable {s : State} {p : PartIx} {g : GroupIx} {n : Nat} {d : LegDesc} (h : FixReady s p g n d)
include h

/-- Nothing keeps the fix from completing. -/
theorem FixReady.guard {c : CoreIx} (hc : c ∈ s.grpCores p g) :
    ¬ (groupIx c d.scope ≠ g ∨ ¬ s.allArrived (s.grpCores p g) n = true ∨ ¬ s.runs c = true ∨ (s.part p).halting.isSome = true
      ∨ (s.part p).fixes.any (fun f => f.grp == g) = true ∨ (s.grpCores p g).any (fun c => s.cutCore c) = true) := by
  have hpart {x : CoreIx} (hx : x ∈ s.grpCores p g) : s.partOf x = some p := ((s.mem_grpCores p g x).mp hx).1
  obtain ⟨-, hhalt, hrun⟩ := h.running
  have harrived : s.allArrived (s.grpCores p g) n = true := by
    rw [State.allArrived, Bool.and_eq_true, Bool.not_eq_true', List.isEmpty_eq_false_iff, List.all_eq_true]
    refine ⟨h.some_core, fun x hx => ?_⟩
    obtain ⟨⟨a, ha⟩, -⟩ := h.arrived x hx
    rw [ha]
    exact beq_self_eq_true n
  have hruns : s.runs c = true := by rw [State.runs, hpart hc]; exact hrun
  have hcut : ¬ (s.grpCores p g).any (fun c => s.cutCore c) = true := by
    rw [List.any_eq_true]
    rintro ⟨x, hx, hcut⟩
    rw [State.cutCore, hpart hx] at hcut
    dsimp only at hcut
    rw [h.stays] at hcut
    cases hcut
  have hfirst : ¬ (s.part p).fixes.any (fun f => f.grp == g) = true := by
    rw [List.any_eq_true]
    rintro ⟨f, hf, hg⟩
    exact h.first f hf (beq_iff_eq.mp hg)
  rw [harrived, hruns, hhalt]
  simp [(h.arrived c hc).2, hcut, hfirst]

/-- FIX_COMPLETE by the course the selector gives. -/
theorem FixReady.fixDone (u : State) (hu : u = (s.grpCores p g).foldl (State.fixHot (s.fixStart (s.grpCores p g))) s) :
    s.fixDone p g = match d.select (s.sizeKey (s.grpCores p g)) (u.health (s.grpCores p g)) (s.part p).pwrcls.toNat (s.balance p (s.grpCores p g) d) with
      | none => u.partFault p 0x44
      | some c => (u.fixChosen p g n c).schedP (s.chron + releaseDelay d.scope) p (.fixRelease p g) := by
  obtain ⟨c0, rest, hcs⟩ := List.exists_cons_of_ne_nil h.some_core
  have hmem : c0 ∈ s.grpCores p g := by rw [hcs]; exact List.mem_cons_self ..
  have hhead : (s.grpCores p g).head? = some c0 := by rw [hcs]; rfl
  obtain ⟨⟨a, harr⟩, -⟩ := h.arrived c0 hmem
  have hfold : (s.grpCores p g).foldl (fun s' c => if (s'.col c).hotAt < s.fixStart (s.grpCores p g) then s'.hotChange c else s') s = u := hu.symm
  have hframe := (State.hotFrame_foldl (s.fixStart (s.grpCores p g)) (s.grpCores_nodup p g) s).eq
  rw [← hu] at hframe
  have hpart : u.part p = s.part p := by rw [hframe]; rfl
  have hoff : (u.part p).lb.act = false := by rw [hpart]; exact h.unlogged
  have hchoose := State.chooseCourse_of_off hoff (s.grpCores p g) n d
  have hbal : u.balance p (s.grpCores p g) d = s.balance p (s.grpCores p g) d := by rw [hframe]; rfl
  have hsize : u.sizeKey (s.grpCores p g) = s.sizeKey (s.grpCores p g) := by rw [hframe]; rfl
  have hchron : u.chron = s.chron := by rw [hframe]
  have hgrp : u.grpCores p g = s.grpCores p g := by rw [hframe]; rfl
  have hscope : (d.scope == 4) = false := by have := h.scope; simp; omega
  have hck : (s.part p).ckMatches d n = false := by rw [Part.ckMatches, h.unheld]; rfl
  have hnote (t : State) (cs : List CoreIx) : (t.noteMeters p cs).part p = t.part p := rfl
  rw [hpart, hbal, hsize] at hchoose
  unfold State.fixDone
  simp only [hhead, harr, h.leg]
  rw [if_neg (h.guard hmem)]
  simp only [hfold, hchoose]
  cases d.select (s.sizeKey (s.grpCores p g)) (u.health (s.grpCores p g)) (s.part p).pwrcls.toNat (s.balance p (s.grpCores p g) d) with
  | none => rfl
  | some c =>
    have hlog (l : List FixDone) (arg : Nat) : ((u.noteMeters p (s.grpCores p g)).updPart p fun q => { q with fixes := q.fixes ++ l }).logRecord
        p 6 8 0 0x1FF arg [] = (u.noteMeters p (s.grpCores p g)).updPart p fun q => { q with fixes := q.fixes ++ l } :=
      State.logRecord_of_off (by rw [State.part_updPart]; exact hoff) ..
    simp only [hnote, hpart, hck, hscope, h.stays, hlog, Bool.false_eq_true, not_false_eq_true, if_true, if_false, Bool.false_and, Option.isSome_none,
      Bool.or_self]
    rw [← hchron, State.fixChosen, hgrp]
    rfl

/-- Whatever course is chosen, cores, memory, requests, columns and the other partitions stand after the changes of the refresh period. -/
theorem FixReady.fixDone_frame (u : State) (hu : u = (s.grpCores p g).foldl (State.fixHot (s.fixStart (s.grpCores p g))) s) :
    (s.fixDone p g).cores = u.cores ∧ (s.fixDone p g).memory = u.memory ∧ (s.fixDone p g).reqs = u.reqs
      ∧ (∀ q, q ≠ p → (s.fixDone p g).part q = u.part q) ∧ ∀ x, (s.fixDone p g).col x = u.col x := by
  rw [h.fixDone u hu]
  split
  · have hf := FaultFrame.partFault u p 0x44
    exact ⟨hf.cores, hf.memory, hf.reqs, hf.others, hf.col⟩
  · exact ⟨rfl, rfl, rfl, fun q hq => u.fixChosen_part_ne g n _ hq, fun _ => rfl⟩

end Ready

/-! ## Release (R131) -/

theorem Queue.qPointed_point (q : Queue) (ent span now : Nat) : QPointed q (q.point ent span now) ent span now := by
  unfold Queue.point
  dsimp only
  by_cases hst : q.st = .rest
  · rw [if_pos hst]
    unfold Queue.settle
    by_cases hspan : span = 0
    · subst hspan
      rw [if_pos ⟨rfl, by simp, rfl⟩]
      exact ⟨rfl, rfl, rfl, fun _ => ⟨rfl, rfl⟩, fun h => absurd hst h⟩
    · rw [if_neg]
      · exact ⟨rfl, rfl, rfl, fun _ => ⟨rfl, (if_neg hspan).symm⟩, fun h => absurd hst h⟩
      · rintro ⟨-, hpc, -⟩
        simp at hpc
        omega
  · rw [if_neg hst]
    exact ⟨rfl, rfl, rfl, fun h => absurd h hst, fun _ => rfl⟩

/-- The course of a leg a fix has chosen. -/
def LegDesc.courseOf (d : LegDesc) (i : Nat) : CourseRec :=
  d.crs.getD i { leglen := 0, seqent := 0, axuent := 0, axuspan := 0, bkeent := 0, bkespan := 0, vecent := 0, vecspan := 0 }

/-- One core of a group released at a cycle. -/
def State.coreReleased (f : FixDone) (d : LegDesc) (now : Nat) (s : State) (c : CoreIx) : State :=
  let u := s.upd c fun k => k.released f.leg f.course f.health now d.fixed (d.courseOf f.course)
  if d.fixed then u.schedC (now + (d.courseOf f.course).leglen) c (.dueCycleMiss c (BitVec.ofNat 16 f.leg)) else u

/-- The cores of a group released: nothing but these cores changes, and in a fixed leg the miss of the due cycle of each is to be looked at. -/
structure GroupReleased (f : FixDone) (d : LegDesc) (now : Nat) (l : List CoreIx) (s t : State) : Prop where
  eq : t = { s with cores := t.cores, agenda := t.agenda }
  core : ∀ x, t.core x = if x ∈ l then (s.core x).released f.leg f.course f.health now d.fixed (d.courseOf f.course) else s.core x
  due : d.fixed = true → ∀ x ∈ l, ∃ v ∈ t.agenda, v.cycle = now + (d.courseOf f.course).leglen ∧ v.core = x
    ∧ v.instr = .dueCycleMiss x (BitVec.ofNat 16 f.leg)
  events : ∀ e ∈ s.agenda, e ∈ t.agenda

theorem State.groupReleased_single (f : FixDone) (d : LegDesc) (now : Nat) (s : State) (c : CoreIx) :
    GroupReleased f d now [c] s (State.coreReleased f d now s c) := by
  have hcore (x : CoreIx) : (State.coreReleased f d now s c).core x =
      (s.upd c fun k => k.released f.leg f.course f.health now d.fixed (d.courseOf f.course)).core x := by
    unfold State.coreReleased
    cases d.fixed <;> rfl
  refine ⟨?_, fun x => ?_, fun hfix x hx => ?_, fun e he => ?_⟩
  · unfold State.coreReleased
    cases d.fixed <;> rfl
  · rw [hcore]
    by_cases hx : x = c
    · subst hx
      rw [State.core_upd, if_pos (List.mem_singleton_self x)]
    · rw [State.core_upd_ne _ hx, if_neg (by simpa using hx)]
  · obtain rfl := List.mem_singleton.mp hx
    have hsched : State.coreReleased f d now s x =
        (s.upd x fun k => k.released f.leg f.course f.health now d.fixed (d.courseOf f.course)).schedC (now + (d.courseOf f.course).leglen) x
          (.dueCycleMiss x (BitVec.ofNat 16 f.leg)) := if_pos hfix
    rw [hsched]
    exact ⟨_, mem_agendaPut _ _, rfl, rfl, rfl⟩
  · unfold State.coreReleased
    cases d.fixed
    · exact he
    · exact (mem_agendaPut_iff ..).mpr (.inr he)

theorem State.groupReleased_foldl (f : FixDone) (d : LegDesc) (now : Nat) {l : List CoreIx} (hl : l.Nodup) (s : State) :
    GroupReleased f d now l s (l.foldl (State.coreReleased f d now) s) := by
  induction l generalizing s with
  | nil => exact ⟨rfl, fun _ => rfl, fun _ _ hx => absurd hx List.not_mem_nil, fun _ h => h⟩
  | cons c l ih =>
    obtain ⟨hc, hl⟩ := List.nodup_cons.mp hl
    have hstep := State.groupReleased_single f d now s c
    have hrest := ih hl (State.coreReleased f d now s c)
    refine ⟨?_, fun x => ?_, fun hfix x hx => ?_, fun e he => hrest.events e (hstep.events e he)⟩
    · have e := hrest.eq
      rw [hstep.eq] at e
      rw [List.foldl_cons, hstep.eq]
      exact e
    · rw [List.foldl_cons, hrest.core, hstep.core]
      by_cases hx : x = c
      · subst hx
        simp [hc]
      · simp [hx]
    · rcases List.mem_cons.mp hx with rfl | hx
      · obtain ⟨v, hv, hrest'⟩ := hstep.due hfix x (List.mem_singleton_self x)
        exact ⟨v, hrest.events v hv, hrest'⟩
      · exact hrest.due hfix x hx

/-- The leg and the course of the running context as its first core is released. -/
def Part.legTaken (q : Part) (first : Bool) (leg : BitVec 16) (course : BitVec 3) : Part :=
  match q.runSlot with
  | some j => if first then q.updSlot j fun x => { x with leg := leg, course := course } else q
  | none => q

/-- The context that stamps inputs and its counts are as before. -/
theorem Part.legTaken_stamp (q : Part) (first : Bool) (leg : BitVec 16) (course : BitVec 3) :
    (q.legTaken first leg course).fixes = q.fixes ∧ (q.legTaken first leg course).lb = q.lb
      ∧ (q.legTaken first leg course).stampSlot = q.stampSlot
      ∧ ∀ j : Fin 8, (q.legTaken first leg course).slots[j].epoch = q.slots[j].epoch ∧ (q.legTaken first leg course).slots[j].tkseq = q.slots[j].tkseq := by
  have hupd (i : Fin 8) (j : Fin 8) : (q.updSlot i fun x => { x with leg := leg, course := course }).slots[j].st = q.slots[j].st
      ∧ (q.updSlot i fun x => { x with leg := leg, course := course }).slots[j].epoch = q.slots[j].epoch
      ∧ (q.updSlot i fun x => { x with leg := leg, course := course }).slots[j].tkseq = q.slots[j].tkseq := by
    by_cases hij : i = j
    · subst hij
      simp [Part.updSlot]
    · have hne : i.val ≠ j.val := fun h => hij (Fin.ext h)
      simp [Part.updSlot, hne]
  unfold Part.legTaken
  split
  next i hi =>
    split
    · refine ⟨rfl, rfl, ?_, fun j => (hupd i j).2⟩
      have hrun : (q.updSlot i fun x => { x with leg := leg, course := course }).runSlot = q.runSlot := by
        unfold Part.runSlot
        exact congrArg (fun f => (List.finRange 8).find? f) (funext fun j => by rw [(hupd i j).1])
      unfold Part.stampSlot
      rw [hrun]
      rfl
    · exact ⟨rfl, rfl, rfl, fun _ => ⟨rfl, rfl⟩⟩
  next => exact ⟨rfl, rfl, rfl, fun _ => ⟨rfl, rfl⟩⟩

section Release

variable (s : State) (p : PartIx) (f : FixDone) (d : LegDesc)

/-- The partition as a group of it is released, its leg and course aside. -/
def Part.grpReleased (q : Part) (f : FixDone) (cls : List Nat) (now : Nat) : Part :=
  { q with
    lastRel := cls.foldl (fun l c => tput l c now) q.lastRel
    cutUnits := q.cutUnits.filter fun c => !cls.contains c
    fixes := q.fixes.filter fun x => x.grp != f.grp }

/-- Whether a group has the first core of its partition. -/
def State.grpFirst : Bool :=
  match (s.coresOf p).head? with
  | some c => (s.grpCores p f.grp).contains c
  | none => false

theorem State.releaseCores_eq : s.releaseCores p f d =
    ((s.grpCores p f.grp).foldl (State.coreReleased f d s.chron) s).updPart p fun q =>
      (q.grpReleased f (clustersOf (s.grpCores p f.grp)) s.chron).legTaken (s.grpFirst p f) (BitVec.ofNat 16 f.leg) (BitVec.ofNat 3 f.course) := by
  have hcores (q : PartIx) : ((s.grpCores p f.grp).foldl (State.coreReleased f d s.chron) s).coresOf q = s.coresOf q := by
    rw [(State.groupReleased_foldl f d s.chron (s.grpCores_nodup p f.grp) s).eq]
    rfl
  have hfirst : (match (((s.grpCores p f.grp).foldl (State.coreReleased f d s.chron) s).coresOf p).head? with
      | some c => (s.grpCores p f.grp).contains c
      | none => false) = s.grpFirst p f := by rw [hcores]; rfl
  rw [← hfirst]
  rfl

theorem State.releaseCores_part : (s.releaseCores p f d).part p =
    ((s.part p).grpReleased f (clustersOf (s.grpCores p f.grp)) s.chron).legTaken (s.grpFirst p f) (BitVec.ofNat 16 f.leg) (BitVec.ofNat 3 f.course) := by
  rw [State.releaseCores_eq, State.part_updPart, (State.groupReleased_foldl f d s.chron (s.grpCores_nodup p f.grp) s).eq]
  rfl

/-- The Logbook and the fixes of other groups stand, and so do the counts that stamp inputs. -/
theorem State.releaseCores_stamp : ((s.releaseCores p f d).part p).lb = (s.part p).lb
    ∧ ((s.releaseCores p f d).part p).fixes = (s.part p).fixes.filter (fun x => x.grp ≠ f.grp)
    ∧ ((s.releaseCores p f d).part p).stampSlot = (s.part p).stampSlot
    ∧ ∀ j : Fin 8, ((s.releaseCores p f d).part p).slots[j].epoch = (s.part p).slots[j].epoch
        ∧ ((s.releaseCores p f d).part p).slots[j].tkseq = (s.part p).slots[j].tkseq := by
  obtain ⟨hfixes, hlb, hstamp, hslots⟩ := Part.legTaken_stamp ((s.part p).grpReleased f (clustersOf (s.grpCores p f.grp)) s.chron) (s.grpFirst p f)
    (BitVec.ofNat 16 f.leg) (BitVec.ofNat 3 f.course)
  rw [State.releaseCores_part]
  refine ⟨hlb, hfixes.trans ?_, hstamp, hslots⟩
  refine List.filter_congr fun x _ => ?_
  by_cases h : x.grp = f.grp <;> simp [h]

/-- A release counts the epoch of the context that stamps inputs. -/
def Part.epochOn (q : Part) : Part := q.updSlot q.stampSlot fun x => { x with epoch := x.epoch + 1, tkseq := 0 }

theorem Part.epochOn_slot {q : Part} {j : Fin 8} (hj : j = q.stampSlot) :
    q.epochOn.slots[j] = { q.slots[j] with epoch := q.slots[j].epoch + 1, tkseq := 0 } := by
  subst hj
  exact Vector.getElem_set_self ..

variable {s p f d}

theorem State.releaseFix_eq (hleg : (s.part p).leg f.leg = some d) (hfab : f.fabric = false) (hrep : s.replaying p = false) :
    s.releaseFix p f = if 3 ≤ d.scope then (s.releaseCores p f d).updPart p Part.epochOn else s.releaseCores p f d := by
  obtain ⟨hlb, -⟩ := s.releaseCores_stamp p f d
  have hrep' : ((s.releaseCores p f d).updPart p Part.epochOn).replaying p = false := by
    rw [State.replaying, State.part_updPart]
    show (((s.releaseCores p f d).part p).lb.act && ((s.releaseCores p f d).part p).lb.replay) = false
    rw [hlb]
    exact hrep
  unfold State.releaseFix
  simp only [hleg, hfab, Bool.false_eq_true, if_false]
  split
  · exact if_neg fun h => Bool.false_ne_true (hrep'.symm.trans h)
  · rfl

/-- What a release leaves of the module, and what it makes of the cores of the group. -/
theorem State.releaseFix_frame (hleg : (s.part p).leg f.leg = some d) (hfab : f.fabric = false) (hrep : s.replaying p = false) :
    GroupReleased f d s.chron (s.grpCores p f.grp) s { s.releaseFix p f with parts := s.parts }
      ∧ ∀ q, q ≠ p → (s.releaseFix p f).part q = s.part q := by
  have hgroup := State.groupReleased_foldl f d s.chron (s.grpCores_nodup p f.grp) s
  have hparts (q : PartIx) (hq : q ≠ p) : (s.releaseCores p f d).part q = s.part q := by
    rw [State.releaseCores_eq, State.part_updPart_ne _ hq, hgroup.eq]
    rfl
  have hfix : ∃ parts, s.releaseFix p f = { (s.grpCores p f.grp).foldl (State.coreReleased f d s.chron) s with parts := parts } := by
    rw [State.releaseFix_eq hleg hfab hrep, State.releaseCores_eq]
    split <;> exact ⟨_, rfl⟩
  refine ⟨?_, fun q hq => ?_⟩
  · obtain ⟨parts, hfix⟩ := hfix
    rw [hfix]
    generalize (s.grpCores p f.grp).foldl (State.coreReleased f d s.chron) s = v at hgroup
    exact ⟨by rw [hgroup.eq], hgroup.core, hgroup.due, hgroup.events⟩
  · rw [State.releaseFix_eq hleg hfab hrep]
    split
    · exact (State.part_updPart_ne _ hq _).trans (hparts q hq)
    · exact hparts q hq

end Release

/-- The fix FIX_RELEASE finds: the one of the group, if it is not held. -/
theorem find_fix {l : List FixDone} {g : GroupIx} {f : FixDone} (hf : f ∈ l) (hg : f.grp = g) (hheld : f.held = false)
    (hone : ∀ x ∈ l, x.grp = g → x = f) : l.find? (fun x => x.grp == g && !x.held) = some f := by
  cases h : l.find? (fun x => x.grp == g && !x.held) with
  | none => exact absurd (List.find?_eq_none.mp h f hf) (by simp [hg, hheld])
  | some x =>
    have hx := List.find?_some h
    rw [Bool.and_eq_true, beq_iff_eq] at hx
    rw [hone x (List.mem_of_find?_eq_some h) hx.1]

/-! ## The fabric tree (R133, R160) -/

/-- The arrival held of a message. -/
def State.arrivalFrom (s : State) (src : FixPeer) (leg cnt : Nat) : HeldArr := { src := src, leg := leg, cnt := cnt, at_ := s.chron }

/-- A function applied to a partition, by its value there. -/
theorem State.updPart_congr {s : State} {p : PartIx} {f g : Part → Part} (h : f (s.part p) = g (s.part p)) : s.updPart p f = s.updPart p g := by
  rw [State.updPart, State.updPart, h]

section Fabric

variable {s : State} {p : PartIx} {leg : Nat} {q : Part}

theorem Part.away_of_no_preempted (h : q.preSlot = none) : q.away leg = false := by
  rw [Part.away, h]
  rfl

/-- A context that runs takes the arrival if it awaits a fabric fix itself, or the one switched out does not await the leg. -/
theorem Part.away_of_runs (hrun : q.runSlot.isSome = true)
    (h : q.awaiting.isSome = true ∨ ∀ x, q.shadow = some x → ∀ tc, x.awaiting ≠ some (leg, tc)) : q.away leg = false := by
  obtain ⟨j, hj⟩ := Option.isSome_iff_exists.mp hrun
  rw [Part.away, hj]
  cases hs : q.shadow with
  | none => exact Bool.and_false _
  | some x =>
    rcases h with h | h
    · obtain ⟨y, hy⟩ := Option.isSome_iff_exists.mp h
      rw [hy]
      exact Bool.and_false _
    · cases hw : x.awaiting with
      | none => simp [hw]
      | some y =>
        obtain ⟨n, tc⟩ := y
        have hne : n ≠ leg := fun e => h x hs tc (by rw [hw, e])
        simp [hw, hne]

/-- The arrival goes to the context switched out. -/
theorem Part.away_of_shadow {x : Shadow} (hpre : q.preSlot.isSome = true) (hs : q.shadow = some x)
    (h : q.runSlot = none ∨ (q.awaiting = none ∧ ∃ tc, x.awaiting = some (leg, tc))) : q.away leg = true := by
  rw [Part.away, hpre, hs]
  rcases h with h | ⟨h, tc, hw⟩
  · simp [h]
  · simp [h, hw]

theorem Part.awayWaits_of_shadow {x : Shadow} {tc : Nat} (hpre : q.preSlot.isSome = true) (hs : q.shadow = some x) (hsent : x.sentArr = true)
    (hw : x.awaiting = some (leg, tc)) : q.awayWaits leg = true := by
  simp [Part.awayWaits, hpre, hs, hsent, hw]

theorem Part.awayWaits_eq_false (h : q.preSlot = none ∨ ∀ x, q.shadow = some x → ∀ tc, x.awaiting ≠ some (leg, tc)) : q.awayWaits leg = false := by
  rw [Part.awayWaits]
  rcases h with h | h
  · rw [h]
    rfl
  · cases hs : q.shadow with
    | none => exact Bool.and_false _
    | some x =>
      cases hw : x.awaiting with
      | none => simp [hw]
      | some y =>
        obtain ⟨n, tc⟩ := y
        have hne : n ≠ leg := fun e => h x hs tc (by rw [hw, e])
        simp [hw, hne]

/-- An arrival for the partition's own context with no fabric fix awaited is held. -/
theorem State.fixArr_of_idle (src : FixPeer) {cnt : Nat} (haway : (s.part p).away leg = false) (hidle : (s.part p).awaiting = none) :
    s.fixArr src p leg cnt = s.updPart p fun q => { q with arrHeld := q.arrHeld ++ [s.arrivalFrom src leg cnt] } := by
  unfold State.fixArr
  simp only [haway, hidle, Option.any_none, Bool.false_eq_true, if_false]
  unfold State.tryFabric
  simp only [State.part_updPart, hidle]
  rfl

/-- An arrival for another leg than the one awaited raises 0x47. -/
theorem State.fixArr_of_other (src : FixPeer) {cnt n tc : Nat} (haway : (s.part p).away leg = false) (hw : (s.part p).awaiting = some (n, tc))
    (hne : n ≠ leg) : s.fixArr src p leg cnt = s.partFault p 0x47 := by
  unfold State.fixArr
  simp [haway, hw, hne]

/-- An arrival for the leg awaited is held, and the fix goes on. -/
theorem State.fixArr_of_awaited (src : FixPeer) {cnt tc : Nat} (haway : (s.part p).away leg = false) (hw : (s.part p).awaiting = some (leg, tc)) :
    s.fixArr src p leg cnt = (s.updPart p fun q => { q with arrHeld := q.arrHeld ++ [s.arrivalFrom src leg cnt] }).tryFabric p := by
  unfold State.fixArr
  simp only [haway, hw, Option.any_some, bne_self_eq_false, Bool.false_eq_true, if_false]
  rfl

/-- An arrival for the context switched out is held with it. -/
theorem State.fixArr_of_away (src : FixPeer) {cnt : Nat} {x : Shadow} (haway : (s.part p).away leg = true) (hs : (s.part p).shadow = some x)
    (hown : ∀ n tc, x.awaiting = some (n, tc) → n = leg) : s.fixArr src p leg cnt =
      s.updPart p fun q => { q with shadow := some { x with arrHeld := x.arrHeld ++ [s.arrivalFrom src leg cnt] } } := by
  have hany : (x.awaiting.any fun y => y.1 != leg) = false := by
    cases hw : x.awaiting with
    | none => rfl
    | some y => simp [hown y.1 y.2 hw]
  unfold State.fixArr
  simp only [haway, hs, Option.any_some, hany, Bool.false_eq_true, if_false, if_true]
  refine State.updPart_congr ?_
  rw [hs]
  rfl

/-- The root with arrivals for a leg that it awaits. -/
structure FabricRoot (t : State) (p : PartIx) (leg tc : Nat) : Prop where
  awaiting : (t.part p).awaiting = some (leg, tc)
  unsent : (t.part p).sentArr = false
  root : (t.part p).fxType = 0

/-- The arrivals for a leg. -/
def Part.arrivals (q : Part) (leg : Nat) : List HeldArr := q.arrHeld.filter fun a => a.leg == leg

/-- The arrivals for the leg are counted and no longer held. -/
def State.arrivalsTaken (t : State) (p : PartIx) (leg : Nat) : State :=
  t.updPart p fun q => { q with sentArr := true, arrHeld := q.arrHeld.filter fun a => a.leg != leg }

theorem Part.no_fabric_held (h : ∀ f ∈ q.fixes, f.fabric = true → f.held = false) : q.fixes.any (fun f => f.fabric && f.held) = false := by
  rw [List.any_eq_false]
  intro f hf hboth
  rw [Bool.and_eq_true] at hboth
  rw [h f hf hboth.1] at hboth
  exact absurd hboth.2 Bool.false_ne_true

/-- What the root does with the arrivals it holds. -/
theorem State.tryFabric_root {t : State} {tc : Nat} (h : FabricRoot t p leg tc) (hfree : ∀ f ∈ (t.part p).fixes, f.fabric = true → f.held = false) :
    t.tryFabric p = if ((t.part p).arrivals leg).length < (t.part p).fxChildren then t
      else if 1 + ((t.part p).arrivals leg).foldl (fun a x => a + x.cnt) 0 ≠ (t.part p).fxtot.toNat then (t.arrivalsTaken p leg).partFault p 0x47
      else (t.arrivalsTaken p leg).schedP (((t.part p).arrivals leg).foldl (fun a x => max a x.at_) tc + 48) p (.fixRelease p 56) := by
  have hno := Part.no_fabric_held hfree
  unfold State.tryFabric
  simp only [h.awaiting, h.unsent, h.root, hno, Bool.false_eq_true, false_or, if_false]
  rfl

/-- A release is waited for by a context that has reported its arrivals at the leg. -/
theorem sent_any_eq_false {sent : Bool} {w : Option (Nat × Nat)} (h : w = none ∨ sent = false ∨ ∃ n tc, w = some (n, tc) ∧ n ≠ leg) :
    (sent && w.any fun y => y.1 == leg) = false := by
  rcases h with rfl | rfl | ⟨n, tc, rfl, hne⟩
  · exact Bool.and_false _
  · rfl
  · simp [hne]

/-- A release for the context switched out is held with it. -/
theorem State.fixRel_of_away {course : Nat} {x : Shadow} (hoff : (s.part p).lb.act = false) (haway : (s.part p).awayWaits leg = true)
    (hs : (s.part p).shadow = some x) (hfx : (s.part p).fxType ≠ 0)
    (hown : ((s.part p).sentArr && (s.part p).awaiting.any fun y => y.1 == leg) = false) :
    s.fixRel p leg course = s.updPart p fun q => { q with shadow := some { x with relHeld := some (leg, course) } } := by
  have hcond : (s.part p).awayWaits leg = true ∧ ¬ ((s.part p).sentArr && (s.part p).awaiting.any fun y => y.1 == leg) = true ∧ (s.part p).fxType ≠ 0 :=
    ⟨haway, by rw [hown]; exact Bool.false_ne_true, hfx⟩
  have hupd : (s.updPart p fun q => { q with shadow := q.shadow.map fun h => { h with relHeld := some (leg, course) } }) =
      s.updPart p fun q => { q with shadow := some { x with relHeld := some (leg, course) } } := State.updPart_congr (by rw [hs]; rfl)
  unfold State.fixRel
  dsimp only
  rw [if_pos hcond]
  split
  · rw [State.logRecord_of_off hoff, hupd]
  · exact hupd

/-- A release that nothing waits for raises 0x47. -/
theorem State.fixRel_of_stray {course : Nat} (haway : (s.part p).fxType = 0 ∨ (s.part p).awayWaits leg = false)
    (h : ((s.part p).sentArr && (s.part p).awaiting.any fun y => y.1 == leg) = false ∨ (s.part p).fxType = 0) :
    s.fixRel p leg course = s.partFault p 0x47 := by
  unfold State.fixRel
  dsimp only
  rw [if_neg, if_pos]
  · rcases h with h | h
    · exact .inl (by rw [h]; exact Bool.false_ne_true)
    · exact .inr h
  · rintro ⟨hw, -, hfx⟩
    rcases haway with h | h
    · exact hfx h
    · rw [h] at hw
      exact Bool.false_ne_true hw

section Answered

variable {tc : Nat} (hw : (s.part p).awaiting = some (leg, tc)) (hsent : (s.part p).sentArr = true) (hfx : (s.part p).fxType ≠ 0)
  (hoff : (s.part p).lb.act = false)
include hw hsent hfx hoff

/-- A release that answers the partition's own arrival while the context stops is held. -/
theorem State.fixRel_of_held {course : Nat} (hheld : (s.part p).fixes.any (fun f => f.fabric && f.held) = true) :
    s.fixRel p leg course = s.updPart p fun q => { q with relHeld := some (leg, course) } := by
  have hwaits : ((s.part p).sentArr && (s.part p).awaiting.any fun y => y.1 == leg) = true := by simp [hw, hsent]
  have hoff' : ((s.updPart p fun q => { q with relHeld := some (leg, course) }).part p).lb.act = false := by rw [State.part_updPart]; exact hoff
  unfold State.fixRel
  dsimp only
  rw [if_neg fun h => h.2.1 hwaits, if_neg fun h => h.elim (fun h => h hwaits) hfx, if_pos hheld]
  split
  · exact State.logRecord_of_off hoff' ..
  · rfl

/-- A release that answers the partition's own arrival releases it 48 cycles later. -/
theorem State.fixRel_of_answer {course : Nat} (hfree : ∀ f ∈ (s.part p).fixes, f.fabric = true → f.held = false) :
    s.fixRel p leg course = s.schedP (s.chron + 48) p (.fixRelease p 56) := by
  have hwaits : ((s.part p).sentArr && (s.part p).awaiting.any fun y => y.1 == leg) = true := by simp [hw, hsent]
  have hno := Part.no_fabric_held hfree
  unfold State.fixRel
  dsimp only
  rw [if_neg fun h => h.2.1 hwaits, if_neg fun h => h.elim (fun h => h hwaits) hfx, if_neg (by rw [hno]; exact Bool.false_ne_true)]
  split
  · rw [State.logRecord_of_off hoff]
  · rfl

end Answered

theorem foldl_add_eq_sum {α : Type} (f : α → Nat) (l : List α) (a : Nat) : l.foldl (fun a x => a + f x) a = a + (l.map f).sum := by
  induction l generalizing a with
  | nil => rfl
  | cons x l ih => rw [List.foldl_cons, ih, List.map_cons, List.sum_cons, Nat.add_assoc]

/-- The latest of some arrivals, none later than one of them. -/
theorem foldl_max_concat {α : Type} (f : α → Nat) {l : List α} {x : α} {a n : Nat} (ha : a ≤ n) (hl : ∀ y ∈ l, f y ≤ n) (hx : f x = n) :
    (l ++ [x]).foldl (fun a y => max a (f y)) a = n := by
  have hlt := (foldl_max_lt_iff f (n + 1) l a).mpr ⟨by omega, fun y hy => Nat.lt_succ_of_le (hl y hy)⟩
  rw [List.foldl_append, List.foldl_cons, List.foldl_nil, hx]
  exact Nat.max_eq_right (Nat.le_of_lt_succ hlt)

/-- A root that takes one more arrival. -/
theorem State.fixArr_root {src : FixPeer} {cnt tc : Nat} (hr : Running s p) (hw : (s.part p).awaiting = some (leg, tc))
    (hsent : (s.part p).sentArr = false) (hroot : (s.part p).fxType = 0) (htc : tc ≤ s.chron) (hat : ∀ a ∈ (s.part p).arrivals leg, a.at_ ≤ s.chron)
    (hfree : ∀ f ∈ (s.part p).fixes, f.fabric = true → f.held = false) :
    let t := s.updPart p fun q => { q with arrHeld := q.arrHeld ++ [s.arrivalFrom src leg cnt] }
    s.fixArr src p leg cnt = if ((s.part p).arrivals leg).length + 1 < (s.part p).fxChildren then t
      else if 1 + (((s.part p).arrivals leg).map (·.cnt)).sum + cnt ≠ (s.part p).fxtot.toNat then (t.arrivalsTaken p leg).partFault p 0x47
      else (t.arrivalsTaken p leg).schedP (s.chron + 48) p (.fixRelease p 56) := by
  intro t
  have ht : t.part p = { s.part p with arrHeld := (s.part p).arrHeld ++ [s.arrivalFrom src leg cnt] } := s.part_updPart ..
  have hfr : FabricRoot t p leg tc := ⟨by rw [ht]; exact hw, by rw [ht]; exact hsent, by rw [ht]; exact hroot⟩
  have harr : (t.part p).arrivals leg = (s.part p).arrivals leg ++ [s.arrivalFrom src leg cnt] := by
    rw [ht, Part.arrivals, List.filter_append]
    congr 1
    simp [State.arrivalFrom]
  have hmax : ((t.part p).arrivals leg).foldl (fun a x => max a x.at_) tc = s.chron := by
    rw [harr]
    exact foldl_max_concat _ htc hat rfl
  have hsum : 1 + ((t.part p).arrivals leg).foldl (fun a x => a + x.cnt) 0 = 1 + (((s.part p).arrivals leg).map (·.cnt)).sum + cnt := by
    rw [harr, foldl_add_eq_sum, List.map_append, List.sum_append, List.map_singleton, List.sum_singleton, State.arrivalFrom]
    ring
  have hlen : ((t.part p).arrivals leg).length = ((s.part p).arrivals leg).length + 1 := by rw [harr, List.length_append]; rfl
  have htot : (t.part p).fxtot = (s.part p).fxtot ∧ (t.part p).fxChildren = (s.part p).fxChildren := by rw [ht]; exact ⟨rfl, rfl⟩
  rw [State.fixArr_of_awaited src (Part.away_of_runs hr.2.2 (.inl (by rw [hw]; rfl))) hw,
    State.tryFabric_root hfr (by rw [ht]; exact hfree), hmax, hsum, hlen, htot.1, htot.2]

/-- The partition once its arrivals are counted. -/
theorem State.arrivalsTaken_part {t : State} : (t.arrivalsTaken p leg).part p =
    { t.part p with sentArr := true, arrHeld := (t.part p).arrHeld.filter fun a => a.leg != leg } := t.part_updPart ..

end Fabric

end Sys2Proof.Machine

namespace Sys2Proof

open Machine

theorem fixCompletes : FixCompletes := by
  refine ⟨fun s p g h => ?_, fun s p g n d harr hne hleg hr hfirst hout hoff hck hscope => ?_, fun s p cs d h => ?_,
    fun ms d mx mn hmx hmn hle h12 h23 => bucketOf_eq hmx hmn hle h12 h23⟩
  · show Host.Outcome.next (s.fixDone p g) = _
    rw [State.fixDone, h]
    rfl
  · have hready : FixReady s p g n d := ⟨harr, hne, hleg, hr, hfirst, hout, hoff, hck, hscope⟩
    obtain ⟨u, hu⟩ : ∃ u, u = (s.grpCores p g).foldl (State.fixHot (s.fixStart (s.grpCores p g))) s := ⟨_, rfl⟩
    have hdone := hready.fixDone u hu
    obtain ⟨hframe, hcol⟩ := State.hotFrame_foldl (s.fixStart (s.grpCores p g)) (s.grpCores_nodup p g) s
    rw [← hu] at hframe hcol
    obtain ⟨hcores, hmem, hreqs, hparts, hcols⟩ := hready.fixDone_frame u hu
    have hru : Running u p := by rw [hframe]; exact hr
    have hup : u.part p = s.part p := by rw [hframe]; rfl
    have hchron : u.chron = s.chron := by rw [hframe]
    refine ⟨s.fixDone p g, rfl, by rw [hcores, hframe], by rw [hmem, hframe], by rw [hreqs, hframe], fun q hq => by rw [hparts q hq, hframe]; rfl,
      fun x => ?_, ?_⟩
    · rw [hcols, hcol, Column.fixHot]
      by_cases hx : x ∈ s.grpCores p g <;> simp [hx]
    · simp only [hcols, ← State.health_eq, ← State.sizeKey_eq]
      refine ⟨fun i w hw hrow hbefore => ?_, fun hno => ?_⟩
      · rw [LegDesc.select_of_first hw hrow hbefore] at hdone
        rw [hdone]
        have hgrp : u.grpCores p g = s.grpCores p g := by rw [hframe]; rfl
        have hpart : ((u.fixChosen p g n ((w.toNat / 2 ^ 28) % 8)).schedP (s.chron + releaseDelay d.scope) p (.fixRelease p g)).part p =
            { u.part p with
              fixes := (u.part p).fixes ++
                [{ grp := g, leg := n, course := (w.toNat / 2 ^ 28) % 8, health := u.health (u.grpCores p g), fabric := false, held := false }] } :=
          u.fixChosen_part ..
        refine ⟨?_, ?_, _, mem_agendaPut _ _, ?_, rfl, rfl⟩
        · rw [hpart, hup, hgrp]
        · rw [hpart, hup]
          exact hr.2.1
        · rw [releaseDelay_eq]
      · rw [LegDesc.select_eq_none hno] at hdone
        rw [hdone]
        obtain ⟨⟨x, hx, hcode, hcycle, -, hkill⟩, v, hv, hvc, hrest⟩ := State.checks_partFault hru 0x44
        refine ⟨by rw [State.part_partFault_running hru, hup], ⟨x, hx, hcode, by rw [hcycle, hchron], hkill⟩, v, hv, by rw [hvc, hchron], hrest⟩
  · exact if_pos (.inl h)

theorem fixReleases : FixReleases := by
  refine ⟨fun s p g hheld => ?_, fun s p g f d r hf hg hheld hfab hone hrep hleg hcrs => ?_⟩
  · show execFixRelease p g s = _
    have hnone : (s.part p).fixes.find? (fun f => f.grp == g && !f.held) = none := by
      refine List.find?_eq_none.mpr fun f hf h => ?_
      rw [Bool.and_eq_true, beq_iff_eq, Bool.not_eq_true'] at h
      rw [hheld f hf h.1] at h
      exact absurd h.2 (by simp)
    rw [execFixRelease, hnone]
  · subst hg
    have hexec : exec (.fixRelease p f.grp) s = .next (s.releaseFix p f) := by
      show execFixRelease p f.grp s = _
      rw [execFixRelease, find_fix hf rfl hheld hone]
      simp only [hrep, Bool.false_and, Bool.false_eq_true, if_false]
    have hcourse : d.courseOf f.course = r := by rw [LegDesc.courseOf, List.getD_eq_getElem?_getD, hcrs]; rfl
    obtain ⟨hgroup, hparts⟩ := State.releaseFix_frame hleg hfab hrep
    obtain ⟨hlb, hfixes, hstamp, hslots⟩ := s.releaseCores_stamp p f d
    refine ⟨s.releaseFix p f, hexec, fun x hx => ?_, fun x hx => ?_, (congrArg State.memory hgroup.eq :), (congrArg State.cols hgroup.eq :),
      (congrArg State.reqs hgroup.eq :), hparts, ?_, ?_, ?_⟩
    · have hmem := (s.mem_grpCores p f.grp x).mpr hx
      have hcore : (s.releaseFix p f).core x = (s.core x).released f.leg f.course f.health s.chron d.fixed r := by
        have h := hgroup.core x
        rw [if_pos hmem, hcourse] at h
        exact h
      rw [hcore]
      refine ⟨rfl, rfl, rfl, rfl, rfl, rfl, rfl, rfl, rfl, Queue.qPointed_point .., Queue.qPointed_point .., Queue.qPointed_point .., rfl, rfl, rfl, rfl,
        rfl, rfl, rfl, fun hfix => ?_⟩
      have h := hgroup.due hfix x hmem
      rw [hcourse] at h
      exact h
    · have h := hgroup.core x
      rw [if_neg fun hmem => hx ((s.mem_grpCores p f.grp x).mp hmem)] at h
      exact h
    · rw [State.releaseFix_eq hleg hfab hrep]
      split
      · rw [State.part_updPart]
        exact hfixes
      · exact hfixes
    · rw [State.releaseFix_eq hleg hfab hrep]
      split
      · rw [State.part_updPart]
        exact hlb
      · exact hlb
    · obtain ⟨hepoch, htkseq⟩ := hslots (s.part p).stampSlot
      have heq := State.releaseFix_eq hleg hfab hrep
      by_cases hscope : 3 ≤ d.scope
      · have hslot := Part.epochOn_slot hstamp.symm
        rw [if_pos hscope] at heq
        rw [heq]
        simp only [State.part_updPart, hslot, hepoch, if_pos hscope, and_self]
      · rw [if_neg hscope] at heq
        rw [heq]
        simp only [hepoch, htkseq, if_neg hscope, and_self]

theorem fabricFixes : FabricFixes := by
  refine ⟨fun s src p leg st cnt hidle h => ?_, fun s src p leg st cnt x hpre hs h => ?_, fun s src p leg course x tc hpre hs hsent hw hown hfx hoff => ?_,
    fun s src p leg course hr hsent hw hfx hheld hoff => ?_, fun s src p leg st cnt n tc hr hw hne => ?_,
    fun s src p leg st cnt tc hr hw hsent hroot htc hat hfree => ?_, fun s src p leg course tc hr hw hsent hfx hfree hoff => ?_,
    fun s src p leg course hr haway h => ?_⟩
  · refine congrArg _ (State.fixArr_of_idle src ?_ hidle)
    rcases h with h | ⟨hrun, h⟩
    · exact Part.away_of_no_preempted h
    · exact Part.away_of_runs hrun (.inr h)
  · refine congrArg _ (State.fixArr_of_away src (Part.away_of_shadow hpre hs ?_) hs ?_)
    · exact h.imp And.left id
    · rcases h with ⟨-, h⟩ | ⟨-, tc', h⟩
      · exact h
      · intro n tc hw
        rw [h] at hw
        cases hw
        rfl
  · refine congrArg Host.Outcome.next (State.fixRel_of_away hoff (Part.awayWaits_of_shadow hpre hs hsent hw) hs hfx (sent_any_eq_false ?_))
    exact hown.imp id .inl
  · obtain ⟨tc, hw⟩ := hw
    obtain ⟨f, hf, hboth⟩ := hheld
    refine congrArg Host.Outcome.next (State.fixRel_of_held hw hsent hfx hoff (List.any_eq_true.mpr ⟨f, hf, ?_⟩))
    rw [hboth.1, hboth.2]
    rfl
  · have hfix : s.fixArr src p leg.toNat cnt.toNat = s.partFault p 0x47 :=
      State.fixArr_of_other src (Part.away_of_runs hr.2.2 (.inl (by rw [hw]; rfl))) hw hne
    have hf := FaultFrame.partFault s p 0x47
    obtain ⟨⟨x, hx, hcode, hcycle, -⟩, -⟩ := State.checks_partFault hr 0x47
    exact ⟨_, congrArg Host.Outcome.next hfix, ⟨x, hx, hcode, hcycle⟩, by rw [State.part_partFault_running hr], hf.cores, hf.memory⟩
  · have hheld : (s.part p).arrivals leg.toNat = (s.part p).arrHeld.filter fun a => a.leg = leg.toNat := List.filter_congr fun a _ => by
      by_cases h : a.leg = leg.toNat <;> simp [h]
    have hfix := State.fixArr_root (src := src) (cnt := cnt.toNat) hr hw hsent hroot htc (by rw [hheld]; exact hat) hfree
    rw [hheld] at hfix
    obtain ⟨t, hdef⟩ : ∃ t, t = s.updPart p fun q => { q with arrHeld := q.arrHeld ++ [s.arrivalFrom src leg.toNat cnt.toNat] } := ⟨_, rfl⟩
    have ht : t.part p = { s.part p with arrHeld := (s.part p).arrHeld ++ [s.arrivalFrom src leg.toNat cnt.toNat] } := by
      rw [hdef, State.part_updPart]
    have hout (q : PartIx) (hq : q ≠ p) : t.part q = s.part q := by rw [hdef, State.part_updPart_ne _ hq]
    have hsame : t = { s with parts := t.parts } := by rw [hdef]; rfl
    have hout' (q : PartIx) (hq : q ≠ p) : (t.arrivalsTaken p leg.toNat).part q = s.part q := (t.part_updPart_ne hq _).trans (hout q hq)
    have hnone : ∀ a ∈ ((t.part p).arrHeld.filter fun a => a.leg != leg.toNat), a.leg ≠ leg.toNat := fun a ha => by simpa using (List.mem_filter.mp ha).2
    dsimp only at hfix
    rw [← hdef] at hfix
    by_cases hlt : (List.filter (fun a => decide (a.leg = leg.toNat)) (s.part p).arrHeld).length + 1 < (s.part p).fxChildren
    · rw [if_pos hlt] at hfix
      exact ⟨t, congrArg Host.Outcome.next hfix, by rw [hsame], by rw [hsame], by rw [hsame], hout,
        fun _ => ⟨by rw [hsame], by rw [ht]; exact hsent, by rw [ht]; rfl⟩, fun h => absurd hlt (Nat.not_lt.mpr h)⟩
    · rw [if_neg hlt] at hfix
      by_cases hcnt : 1 + ((List.filter (fun a => decide (a.leg = leg.toNat)) (s.part p).arrHeld).map (·.cnt)).sum + cnt.toNat = (s.part p).fxtot.toNat
      · rw [if_neg (not_not.mpr hcnt)] at hfix
        have hpart : ((t.arrivalsTaken p leg.toNat).schedP (s.chron + 48) p (.fixRelease p 56)).part p =
            { t.part p with sentArr := true, arrHeld := (t.part p).arrHeld.filter fun a => a.leg != leg.toNat } := State.arrivalsTaken_part
        refine ⟨_, congrArg Host.Outcome.next hfix, (congrArg State.cores hsame :), (congrArg State.memory hsame :), (congrArg State.cols hsame :), hout',
          fun h => absurd h hlt, fun _ => ⟨by rw [hpart], by rw [hpart]; exact hnone, fun _ => ⟨_, mem_agendaPut _ _, rfl, rfl, rfl⟩, fun h => absurd hcnt h⟩⟩
      · rw [if_pos hcnt] at hfix
        have hf := FaultFrame.partFault (t.arrivalsTaken p leg.toNat) p 0x47
        have hru : Running (t.arrivalsTaken p leg.toNat) p := by
          unfold Running at hr ⊢
          rw [State.arrivalsTaken_part, ht]
          exact hr
        have hchron : (t.arrivalsTaken p leg.toNat).chron = s.chron := (congrArg State.chron hsame :)
        have hpart : ((t.arrivalsTaken p leg.toNat).partFault p 0x47).part p = _ := State.part_partFault_running hru 0x47
        rw [State.arrivalsTaken_part, hchron] at hpart
        exact ⟨_, congrArg Host.Outcome.next hfix, hf.cores.trans (congrArg State.cores hsame :), hf.memory.trans (congrArg State.memory hsame :),
          hf.cols.trans (congrArg State.cols hsame :), fun q hq => (hf.others q hq).trans (hout' q hq), fun h => absurd h hlt,
          fun _ => ⟨by rw [hpart], by rw [hpart]; exact hnone, fun h => absurd h hcnt, fun _ => ⟨_, by rw [hpart], rfl, rfl⟩⟩⟩
  · exact congrArg Host.Outcome.next (State.fixRel_of_answer hw hsent hfx hoff hfree)
  · have hfix : s.fixRel p leg.toNat course.toNat = s.partFault p 0x47 := by
      refine State.fixRel_of_stray (haway.imp id Part.awayWaits_eq_false) ?_
      by_cases hfx : (s.part p).fxType = 0
      · exact .inr hfx
      · exact .inl (sent_any_eq_false (by tauto))
    have hf := FaultFrame.partFault s p 0x47
    obtain ⟨⟨x, hx, hcode, hcycle, -⟩, hhalt⟩ := State.checks_partFault hr 0x47
    exact ⟨_, congrArg Host.Outcome.next hfix, ⟨x, hx, hcode, hcycle⟩, hhalt, hf.cores, hf.memory⟩

/-- Settles O56: a completion by the course the selector gives (`FixReady.fixDone`), a release core by core (`State.groupReleased_foldl`), and
the fabric tree by who takes an arrival (`Part.away_of_runs`, `Part.away_of_shadow`). -/
theorem fixReleaseAndTree : Obligations.FixReleaseAndTree := ⟨fixCompletes, fixReleases, fabricFixes⟩

end Sys2Proof

/-! # The migration engine, shoot-down and preload (R111 to R117) -/

namespace Sys2Proof.Machine

/-! ## Writes where memory answers (R110, R113) -/

/-- What answers an address is of the columns alone. -/
theorem State.paKind_of_cols {s t : State} (h : t.cols = s.cols) (a : Nat) : t.paKind a = s.paKind a := by
  show ({ s with cols := t.cols } : State).paKind a = _
  rw [h]

theorem State.paWrite_eq (s : State) (a : Nat) (bs : List Byte) :
    s.paWrite a bs = { s with memory := if s.paKind a = .pool ∨ s.paKind a = .lpddr then writeBytes s.memory a bs else s.memory } := by
  unfold State.paWrite
  cases s.paKind a <;> rfl

/-- A completion record, its fields in range (R117). -/
theorem mgRecord_eq {id status : Nat} (hid : id < 2 ^ 16) (hst : status < 2 ^ 8) (len pa : Nat) :
    mgRecord id status len pa = toBytes 8 (id + 2 ^ 16 * status + 2 ^ 32 * (len % 2 ^ 32)) ++ toBytes 8 pa := by
  unfold mgRecord putF
  rw [Nat.mod_eq_of_lt hid, Nat.mod_eq_of_lt hst]
  congr 2
  omega

/-! ## The next command (R113, R115) -/

/-- Only a command of the migration engine is scheduled. -/
structure MigPumped (s t : State) : Prop where
  eq : t = { s with freeIx := t.freeIx, agenda := t.agenda, mig := { s.mig with busy := t.mig.busy } }
  events : ∀ e ∈ s.agenda, e ∈ t.agenda

/-- The events that run a command of the engine. -/
def runsCommand (i : Instr) : Prop := i = .alloc ∨ i = .free ∨ i = .move ∨ i = .promotion

section Pump

variable (s : State)

/-- The engine with its next command, which an event runs. -/
def State.migTaken (i : Instr) : State :=
  ({ s with freeIx := s.freeIx + 1, mig := { s.mig with busy := true } }).sched (s.chron + 1 + Config.moveLatency s.freeIx) i

theorem State.migPump_cases : (s.migPump = s ∧ (s.mig.busy = false → s.mig.moving = none → s.mig.held = [] → s.mig.fifo = [] ∧ s.mig.promos = []))
    ∨ ((s.mig.fifo ≠ [] ∨ s.mig.promos ≠ []) ∧ ∃ i, runsCommand i ∧ s.migPump = s.migTaken i) := by
  unfold State.migPump runsCommand
  dsimp only
  split
  next h =>
    refine .inl ⟨rfl, fun hb hm hh => ?_⟩
    simp [hb, hm, hh] at h
  next h =>
    split
    next hp => exact .inr ⟨.inr (by rw [hp]; simp), _, .inr (.inr (.inr rfl)), rfl⟩
    next c _ _ hf =>
      refine .inr ⟨.inl (by rw [hf]; simp), ?_⟩
      split
      · exact ⟨_, .inr (.inl rfl), rfl⟩
      · exact ⟨_, .inr (.inr (.inl rfl)), rfl⟩
      · exact ⟨_, .inl rfl, rfl⟩
    next hp hf => exact .inl ⟨rfl, fun _ _ _ => ⟨hf, hp⟩⟩

theorem State.migPumped_migPump : MigPumped s s.migPump := by
  obtain ⟨h, -⟩ | ⟨-, i, -, h⟩ := s.migPump_cases
  · rw [h]
    exact ⟨rfl, fun _ h => h⟩
  · rw [h]
    exact ⟨rfl, fun _ h => (mem_agendaPut_iff ..).mpr (.inr h)⟩

theorem State.migPump_of_busy (h : s.mig.busy = true) : s.migPump = s := by
  unfold State.migPump
  simp [h]

variable {s}

/-- A free engine stays free exactly when no command waits. -/
theorem State.migPump_busy_iff (hb : s.mig.busy = false) (hm : s.mig.moving = none) (hh : s.mig.held = []) :
    s.migPump.mig.busy = false ↔ s.mig.fifo = [] ∧ s.mig.promos = [] := by
  obtain ⟨h, hf⟩ | ⟨hne, i, -, h⟩ := s.migPump_cases
  · rw [h]
    exact ⟨fun _ => hf hb hm hh, fun _ => hb⟩
  · rw [h]
    exact ⟨fun h => (nomatch h), fun h => (hne.elim (fun k => k h.1) fun k => k h.2).elim⟩

/-- A free engine with a command takes it up. -/
theorem State.migPump_takes (hb : s.mig.busy = false) (hm : s.mig.moving = none) (hh : s.mig.held = []) (hf : s.mig.fifo ≠ []) :
    s.migPump.mig.busy = true ∧ ∃ e ∈ s.migPump.agenda, s.chron < e.cycle ∧ runsCommand e.instr := by
  obtain ⟨-, he⟩ | ⟨-, i, hi, h⟩ := s.migPump_cases
  · exact absurd (he hb hm hh).1 hf
  · rw [h]
    refine ⟨rfl, _, mem_agendaPut .., ?_, hi⟩
    simp only
    omega

end Pump

/-! ## The end of a command (R113, R117) -/

/-- Where the next completion record lies (R113). -/
def State.cqPlace (s : State) : Nat := s.mig.cqbase.toNat + s.mig.cqtail.toNat % 2 ^ (6 + s.mig.cqsz.toNat) * 16

/-- Memory with bytes where the next completion record lies, if memory answers there. -/
def State.cqWritten (s : State) (m : List Host.Cell) (r : List Byte) : List Host.Cell :=
  if s.paKind s.cqPlace = .pool ∨ s.paKind s.cqPlace = .lpddr then writeBytes m s.cqPlace r else m

/-- The host interface once a completion record is written. -/
def State.cqPosted (s : State) : HostIf :=
  if s.mig.cqwb = 0 then s.hif else (s.hostPost s.mig.cqwb.toNat (toBytes 4 (s.mig.cqtail + 1).toNat)).hif

/-- A completion record where the ring has room. -/
theorem State.mgWrite_room {s : State} (h : (s.mig.cqtail - s.mig.cqhead).toNat ≠ 2 ^ (6 + s.mig.cqsz.toNat)) (r : List Byte) :
    s.mgWrite r = { s with memory := s.cqWritten s.memory r, hif := s.cqPosted, mig := { s.mig with cqtail := s.mig.cqtail + 1 } } := by
  unfold State.mgWrite State.cqPosted
  dsimp only
  rw [if_neg h, State.paWrite_eq]
  split <;> rfl

/-- The engine as a command leaves it. -/
def State.mgFreed (s : State) (c : MgCmd) : State :=
  { s with mig := { s.mig with
      busy := false
      moving := none
      fifo := if c.promo then s.mig.fifo else s.mig.fifo.drop 1
      promos := if c.promo then s.mig.promos.drop 1 else s.mig.promos } }

/-- A promotion ends with no completion. -/
theorem State.mgEnd_promo (s : State) {c : MgCmd} (hp : c.promo = true) (status len pa : Nat) :
    s.mgEnd c status len pa = (s.mgFreed c).migPump := by
  show (if c.promo then s.mgFreed c else _).migPump = _
  rw [if_pos hp]

/-- The state as a command of the FIFO ends with its record and room in the ring, before the next is scheduled. -/
def State.mgCompleted (s : State) (r : List Byte) : State :=
  { s with
    memory := s.cqWritten s.memory r, hif := s.cqPosted
    mig := { s.mig with fifo := s.mig.fifo.drop 1, moving := none, cqtail := s.mig.cqtail + 1, busy := false } }

theorem State.mgEnd_room {s : State} {c : MgCmd} (room : MgRoom s) (hp : c.promo = false) (status len pa : Nat) :
    s.mgEnd c status len pa = (s.mgCompleted (mgRecord c.id.toNat status len pa)).migPump := by
  have hp' : ¬ c.promo = true := by simp [hp]
  show (if c.promo then _ else (s.mgFreed c).mgWrite _).migPump = _
  rw [if_neg hp', State.mgWrite_room (s := s.mgFreed c) room.2]
  unfold State.mgFreed
  rw [if_neg hp', if_neg hp']
  rfl

/-- What a command that ends with its record leaves of any state: a host post and the next command may be added besides. -/
structure MgCompletes (s t : State) : Prop where
  eq : t = { s with
    memory := t.memory, hif := t.hif, freeIx := t.freeIx, agenda := t.agenda
    mig := { s.mig with fifo := s.mig.fifo.drop 1, moving := none, cqtail := s.mig.cqtail + 1, busy := t.mig.busy } }
  events : ∀ e ∈ s.agenda, e ∈ t.agenda

theorem State.mgCompletes_mgEnd {s : State} {c : MgCmd} (room : MgRoom s) (hp : c.promo = false) (status len pa : Nat) :
    MgCompletes s (s.mgEnd c status len pa) := by
  rw [State.mgEnd_room room hp]
  obtain ⟨h, hv⟩ := (s.mgCompleted (mgRecord c.id.toNat status len pa)).migPumped_migPump
  generalize State.migPump _ = t at h hv ⊢
  refine ⟨?_, hv⟩
  refine h.trans ?_
  rw [h]
  rfl

/-- Only memory, the frames, the placement rings and the free values change. -/
def MgStep (s u : State) : Prop :=
  u = { s with memory := u.memory, freeIx := u.freeIx, mig := { s.mig with frames := u.mig.frames, ring := u.mig.ring } }

theorem MgStep.refl (s : State) : MgStep s s := rfl

/-- A command ends with its completion after what it did to memory and the frames (R113, R117). -/
theorem State.mgEnds_mgEnd {s u : State} {c : MgCmd} (h : MgStep s u) (room : MgRoom s) (hwb : s.mig.cqwb = 0) (hp : c.promo = false)
    {status : Nat} (hst : status < 2 ^ 8) (len pa : Nat) :
    let t := u.mgEnd c status len pa
    MgFrame s t ∧ t.ms = s.ms ∧ t.hif = s.hif ∧ t.mig.frames = u.mig.frames ∧ MgEnds s t c status len pa u.memory := by
  have hroom : MgRoom u := by
    rw [h]
    exact room
  have hhif : u.cqPosted = s.hif := by
    rw [h]
    exact if_pos hwb
  have hmem (r : List Byte) : u.cqWritten u.memory r = s.cqWritten u.memory r := by
    have hplace : u.cqPlace = s.cqPlace := by rw [h]; rfl
    unfold State.cqWritten
    rw [hplace, State.paKind_of_cols (by rw [h] : u.cols = s.cols)]
  dsimp only
  rw [State.mgEnd_room hroom hp, mgRecord_eq c.id.isLt hst]
  generalize hr : toBytes 8 _ ++ _ = r
  have hbusy := (u.mgCompleted r).migPump_busy_iff rfl rfl hroom.1
  have ht := (u.mgCompleted r).migPumped_migPump.eq
  generalize (u.mgCompleted r).migPump = t at ht hbusy ⊢
  have hfifo : u.mig.fifo = s.mig.fifo := by rw [h]
  have hpromos : u.mig.promos = s.mig.promos := by rw [h]
  have ht : t = { s with
      memory := s.cqWritten u.memory r, freeIx := t.freeIx, agenda := t.agenda
      mig := { s.mig with
        fifo := s.mig.fifo.drop 1, moving := none, cqtail := s.mig.cqtail + 1, frames := u.mig.frames, ring := u.mig.ring
        busy := t.mig.busy } } := by
    refine ht.trans ?_
    unfold State.mgCompleted
    rw [hmem, hhif, h]
  refine ⟨?_, ?_, ?_, ?_, ?_, ?_, ?_, ?_, ?_, ?_, ?_⟩
  · rw [ht]; exact ⟨rfl, rfl, rfl, rfl, rfl, rfl, rfl, rfl⟩
  · rw [ht]
  · rw [ht]
  · rw [ht]
  · rw [ht]
  · rw [ht]
  · rw [ht]
  · rw [ht]
  · rw [ht]; exact room.1
  · rw [ht, ← hr]; rfl
  · rw [← hfifo, ← hpromos]; exact hbusy

/-! ## Frames (R114, R118) -/

theorem mem_frameUnits (pa u : Nat) (big : Bool) : u ∈ frameUnits pa big ↔ ∃ i, i < (if big then 32 else 1) ∧ u = pa + i * 2 ^ 16 := by
  have hn : pageSize big / 2 ^ 16 = if big then 32 else 1 := by cases big <;> rfl
  simp only [frameUnits, hn, List.mem_map, List.mem_range, eq_comm]

theorem State.mem_takeFrame (s : State) (pa u : Nat) (big : Bool) :
    u ∈ (s.takeFrame pa big).mig.frames ↔ u ∈ s.mig.frames ∨ ∃ i, i < (if big then 32 else 1) ∧ u = pa + i * 2 ^ 16 := by
  simp only [State.takeFrame, List.mem_append, mem_frameUnits]

theorem State.mem_freeFrame (s : State) (pa u : Nat) (big : Bool) :
    u ∈ (s.freeFrame pa big).mig.frames ↔ u ∈ s.mig.frames ∧ ¬ ∃ i, i < (if big then 32 else 1) ∧ u = pa + i * 2 ^ 16 := by
  rw [← mem_frameUnits]
  simp [State.freeFrame]

/-- A placement draws a free value and moves the ring of its stack on. -/
theorem State.place_step {s u : State} {stack pa : Nat} {big : Bool} (h : s.place stack big = some (pa, u)) :
    u = { s with freeIx := u.freeIx, mig := { s.mig with ring := u.mig.ring } } := by
  unfold State.place at h
  dsimp only at h
  split at h
  · exact nomatch h
  · simp only [Option.some.injEq, Prod.mk.injEq] at h
    rw [← h.2]
    rfl

/-! ## Commands (R113, R114) -/

/-- Field [lo + n - 1 : lo] of a register, as its bits. -/
theorem ofNat_fld {w : Nat} (x : BitVec w) (lo n : Nat) (hn : 0 < n) : BitVec.ofNat n (fld x.toNat (lo + n - 1) lo) = x.extractLsb' lo n := by
  apply BitVec.eq_of_toNat_eq
  have e : lo + n - 1 + 1 - lo = n := by omega
  simp [fld, Nat.shiftRight_eq_div_pow, e]

theorem bitAt_toNat {w : Nat} (x : BitVec w) (n : Nat) : bitAt x.toNat n = x.getLsbD n := by
  simp only [bitAt, BitVec.getLsbD, Nat.testBit_eq_decide_div_mod_eq]
  rfl

/-- The command the registers of the engine hold (R113). -/
def MigEng.command (m : MigEng) : MgCmd :=
  { op := m.cmd.extractLsb' 0 4, part := m.cmd.extractLsb' 4 6, sz := m.cmd.getLsbD 10,
    dest := m.cmd.extractLsb' 11 3, id := m.cmd.extractLsb' 16 16, ia := m.ia, dst := m.dst, lim := m.lim }

theorem State.exec_migrationGo {s : State} (h : s.mig.fifo.length < 32) :
    exec .migrationGo s = .next ({ s with mig := { s.mig with fifo := s.mig.fifo ++ [s.mig.command] } } : State).migPump := by
  show Host.Outcome.next s.mgGo = _
  unfold State.mgGo MigEng.command
  dsimp only
  rw [if_neg (by omega), bitAt_toNat, ← ofNat_fld s.mig.cmd 0 4 (by decide), ← ofNat_fld s.mig.cmd 4 6 (by decide),
    ← ofNat_fld s.mig.cmd 11 3 (by decide), ← ofNat_fld s.mig.cmd 16 16 (by decide)]
  have e : BitVec.ofNat 4 s.mig.cmd.toNat = BitVec.ofNat 4 (fld s.mig.cmd.toNat 3 0) := by
    apply BitVec.eq_of_toNat_eq
    simp [fld]
  rw [e]

/-- An accepted read of the ring by the host: what waits for space is written (R113). -/
theorem State.exec_mgcqheadWrite {s : State} {v : BitVec 32} (h : (v - s.mig.cqhead).toNat ≤ (s.mig.cqtail - s.mig.cqhead).toNat) :
    exec (.mgcqheadWrite v) s = .next
      (s.mig.held.foldl State.mgWrite { s with mig := { s.mig with cqhead := v, held := [] } }).migPump :=
  congrArg Host.Outcome.next (if_neg (Nat.not_lt.mpr h))

section Alloc

variable {s : State} {c : MgCmd} {r : List MgCmd} (hf : s.mig.fifo = c :: r)
include hf

/-- ALLOC of the frame at an address (R114). -/
def State.allocated (s : State) (c : MgCmd) (pa : Nat) : State :=
  ({ s with memory := zeroRange s.memory pa (pageSize c.sz) }).takeFrame pa c.sz

theorem State.exec_alloc_unknown (h : c.op ≠ 1 ∨ 2 ≤ c.dest.toNat) : exec .alloc s = .next (s.mgEnd c 4 0 0) := by
  show execAlloc s = _
  unfold execAlloc
  rw [hf]
  refine congrArg Host.Outcome.next ?_
  dsimp only
  split
  · rfl
  next h1 =>
    obtain ⟨n, hn⟩ : ∃ n, c.dest.toNat = n + 2 := ⟨c.dest.toNat - 2, by have := h.resolve_left h1; omega⟩
    rw [hn]
    rfl

theorem State.exec_alloc_place (hop : c.op = 1) (hd : c.dest = 0) : exec .alloc s = .next (match s.place (c.dst.toNat % 8) c.sz with
    | some (pa, u) => (u.allocated c pa).mgEnd c 0 0 pa
    | none => s.mgEnd c 3 0 0) := by
  show execAlloc s = _
  unfold execAlloc
  rw [hf]
  refine congrArg Host.Outcome.next ?_
  dsimp only
  rw [if_neg (by simp [hop]), hd]
  rfl

theorem State.exec_alloc_explicit (hop : c.op = 1) (hd : c.dest = 1) : exec .alloc s = .next (if s.frameFree c.dst.toNat c.sz
    then (s.allocated c c.dst.toNat).mgEnd c 0 0 c.dst.toNat else s.mgEnd c 4 0 0) := by
  show execAlloc s = _
  unfold execAlloc
  rw [hf]
  refine congrArg Host.Outcome.next ?_
  dsimp only
  rw [if_neg (by simp [hop]), hd]
  rfl

end Alloc

/-! ## MOVE begins (R115) -/

section MoveStart

variable {s : State} {c : MgCmd}

/-- The copy of a MOVE of a leaf to an address, its destination taken. -/
def State.moveCopies (s : State) (c : MgCmd) (p : PartIx) (e at_ a : Nat) : State :=
  let s := { s with memory := writeBytes s.memory at_ (toBytes 8 (setFld e 8 1 1)) }
  let s := s.invalidate p.val false (c.ia.toNat / pageSize c.sz * pageSize c.sz) (pageSize c.sz)
  let ends := s.chron + pageSize c.sz / 128
  let m : Moving := { cmd := c, leafAt := at_, leaf := e, big := c.sz, newAddr := a, ends := ends, before := s.nextId }
  let s := { s with mig := { s.mig with moving := some m } }
  let s := if leafLoc e = 3 then s.moveReads p c (leafAddr e) else s
  s.sched ends .moveDone

variable {p : PartIx} (hp : c.part.toNat = p.val)
include hp

theorem State.moveStart_error {code e l : Nat} (hl : s.findLeaf p false c.ia.toNat = .error (code, e, l)) :
    s.moveStart c = if code = 0x31 ∧ s.unmapped p e then s.mgEnd c 1 0 0 else s.moveFault c p code e l := by
  have hlt : c.part.toNat < 48 := hp ▸ p.isLt
  obtain rfl : (⟨c.part.toNat, hlt⟩ : PartIx) = p := Fin.ext hp
  unfold State.moveStart
  rw [dif_pos hlt]
  dsimp only
  rw [hl]

theorem State.moveStart_ok {e at_ lvl : Nat} (hl : s.findLeaf p false c.ia.toNat = .ok (e, at_, lvl)) (hb : s.moveBad c p e at_ lvl = none) :
    s.moveStart c =
      if c.promo ∧ leafLoc e ≠ 2 then s.mgEnd c 0 0 0
      else if bitAt e 7 then s.mgEnd c 2 0 0
      else if (lvl == 2) ≠ c.sz then s.mgEnd c 4 0 0
      else match s.moveDest c (leafLoc e) e with
        | .error st => s.mgEnd c st 0 0
        | .ok (a, u) => u.moveCopies c p e at_ a := by
  have hlt : c.part.toNat < 48 := hp ▸ p.isLt
  obtain rfl : (⟨c.part.toNat, hlt⟩ : PartIx) = p := Fin.ext hp
  unfold State.moveStart
  rw [dif_pos hlt]
  dsimp only
  rw [hl]
  dsimp only
  rw [hb]
  rfl

end MoveStart

/-! ## The pages of a PRELOAD (R111) -/

section Preload

variable (s : State)

/-- A walk reads nothing of the memory side but the doublewords lost. -/
theorem State.walkDown_of_ms {m : MemSide} (hm : m.lost = s.ms.lost) (ia : Nat) (l : List (Nat × Nat × Nat × Nat)) (e at_ lvl : Nat) :
    ({ s with ms := m } : State).walkDown ia l e at_ lvl = s.walkDown ia l e at_ lvl := by
  have hlost (a n : Nat) : ({ s with ms := m } : State).lostAt a n = s.lostAt a n := by
    unfold State.lostAt
    rw [hm]
  induction l generalizing e at_ lvl with
  | nil => rfl
  | cons x l ih =>
    simp only [State.walkDown, hlost, ih]
    rfl

theorem State.findLeaf_of_ms {m : MemSide} (hm : m.lost = s.ms.lost) (p : PartIx) (host : Bool) (ia : Nat) :
    ({ s with ms := m } : State).findLeaf p host ia = s.findLeaf p host ia := by
  have hlost (a n : Nat) : ({ s with ms := m } : State).lostAt a n = s.lostAt a n := by
    unfold State.lostAt
    rw [hm]
  simp only [State.findLeaf, hlost, s.walkDown_of_ms hm]
  rfl

/-- The state as a PRELOAD begins. -/
def State.preloading : State := { s with ms := { s.ms with sdBusy := true, sdRun := some (s.ms.op.1, s.ms.op.2, 0) } }

/-- The state as a PRELOAD ends, with its pages pinned or not. -/
def State.preloaded (s : State) (ok : Bool) : State :=
  let s := if ok then s else { s with ms := { s.ms with sdErr := true } }
  ({ s with freeIx := s.freeIx + 1 }).sched (s.chron + (1 + Config.walkLatency s.freeIx)) .shootdownDone

variable {s}

theorem State.exec_preload_one {p : PartIx} (h : PreloadsOne s p) :
    exec .preload s = .next
      (let x := s.preloading.pinPages p (2 ^ 16) 1 (s.ms.op.1.toNat / 2 ^ 16 * 2 ^ 16)
       x.1.preloaded x.2) := by
  obtain ⟨hp, hall, hbig, hn⟩ := h
  have hf : sdFields s.ms.op.2 = (p.val, false, false, 1) := by
    unfold sdFields
    rw [← hp, hn]
    exact congrArg₂ (fun a b => (p.val, a, b, 1)) hall hbig
  have hr : (sdRange s.ms.op.1 s.ms.op.2).1 = s.ms.op.1.toNat / 2 ^ 16 * 2 ^ 16 := by
    unfold sdRange
    rw [hf]
    rfl
  show execPreload s = _
  unfold execPreload
  dsimp only
  rw [hf]
  dsimp only
  rw [if_neg (by decide), dif_pos p.isLt, hr]
  rfl

/-- The pages of one PRELOAD are walked as they stand before it. -/
theorem State.pinPages_one (p : PartIx) (a : Nat) : s.preloading.pinPages p (2 ^ 16) 1 a =
    if 2 ^ 52 ≤ a then (s.preloading, false)
    else match s.findLeaf p false a with
      | .error (code, _, _) => (if code = 0x74 then s.preloading.partFault p 0x74 else s.preloading, false)
      | .ok (e, at_, lvl) =>
        match s.pinFails p a e at_ lvl with
        | some code => (if code = 0x74 then s.preloading.partFault p 0x74 else s.preloading, false)
        | none =>
          let base := a / pageSize (lvl == 2) * pageSize (lvl == 2)
          if 1024 ≤ (s.ms.pinned.filter fun x => fld x.base 23 21 == fld a 23 21).length then (s.preloading, false)
          else
            ({ s.preloading with ms := { s.preloading.ms with
                pinned := (s.ms.pinned.filter fun x => !(x.part == p.val && x.base == base && x.big == (lvl == 2))) ++
                  [{ part := p.val, base := base, big := lvl == 2, leaf := e }] } }, true) := by
  have hl : s.preloading.findLeaf p false a = s.findLeaf p false a := s.findLeaf_of_ms rfl p false a
  unfold State.pinPages
  dsimp only
  rw [hl]
  rfl

end Preload

/-! ## A fault of the walk of a MOVE (R106, R117) -/

/-- A record of a requester that is no engine of a core, where the queue has room (R110). -/
theorem State.fqWrite_room {s : State} {p : PartIx} {w : Who} (hw : 5 ≤ w.req) (hheld : (s.part p).fqheld = [])
    (hroom : ((s.part p).fqtail - (s.part p).fqhead).toNat ≠ 2 ^ (6 + (s.part p).fqsz.toNat)) (code : Nat) :
    let t := s.fqWrite p code w
    t.mig = s.mig ∧ t.ms = s.ms ∧ t.cores = s.cores ∧ (t.part p).fqtail = (s.part p).fqtail + 1 := by
  unfold State.fqWrite
  dsimp only
  rw [if_neg (by omega), if_neg (fun h => h.elim hroom (by simp [hheld])), State.paWrite_eq]
  split
  · exact ⟨rfl, rfl, rfl, by rw [State.part_updPart]; rfl⟩
  · exact ⟨rfl, rfl, rfl, by rw [State.hostPost_part, State.part_updPart]; rfl⟩

/-! ## Invalidation (R112) -/

theorem State.mem_pinned_invalidate (s : State) (p : Nat) (all : Bool) (a n : Nat) (x : Pin) :
    x ∈ (s.invalidate p all a n).ms.pinned ↔
      x ∈ s.ms.pinned ∧ ¬ (x.part = p ∧ (all = true ∨ x.base < a + n ∧ a < x.base + pageSize x.big)) := by
  simp only [State.invalidate, meetsRange, List.mem_filter, Bool.not_eq_true', ← Bool.not_eq_true, Bool.and_eq_true, Bool.or_eq_true,
    beq_iff_eq, decide_eq_true_eq]

theorem State.ats_invalidate (s : State) (p : Nat) (all : Bool) (a n : Nat) : ∀ x ∈ (s.invalidate p all a n).ms.ats, x.2.1 ≠ p := by
  simp [State.invalidate]

/-! ## The destination of a MOVE, and its end (R115) -/

section MoveEnd

variable {s : State}

theorem State.moveDest_lpddr {c : MgCmd} {loc e : Nat} (hd : c.dest = 2) (hsame : ¬ (loc = 1 ∧ leafAddr e = c.dst.toNat))
    (hal : c.dst.toNat % pageSize c.sz = 0) (hlo : s.paKind c.dst.toNat = .lpddr) (hhi : s.paKind (c.dst.toNat + pageSize c.sz - 1) = .lpddr) :
    s.moveDest c loc e = .ok (c.dst.toNat, s) := by
  unfold State.moveDest
  dsimp only
  rw [hd]
  refine if_neg ?_
  rintro (h | h | h | h)
  · exact hsame h
  · exact h hal
  · exact h hlo
  · exact h hhi

theorem State.moveDest_pool {c : MgCmd} {loc e pa : Nat} {u : State} (hd : c.dest = 0) (hpl : s.place (fld c.ia.toNat 23 21) c.sz = some (pa, u)) :
    s.moveDest c loc e = .ok (pa, u.takeFrame pa c.sz) := by
  unfold State.moveDest
  dsimp only
  rw [hd, hpl]
  rfl

/-- The page of a MOVE to the LPDDR6 tier stands there, and its leaf names it. -/
def State.movedToLpddr (s : State) (m : Moving) : State :=
  let image := readBytes s.memory (leafAddr m.leaf) (pageSize m.big)
  { s with memory := writeBytes (writeBytes s.memory m.newAddr image) m.leafAt (toBytes 8 (newLeaf m.leaf 1 m.newAddr)) }

theorem State.moveEnd_lpddr {m : Moving} {p : PartIx} (hbad : m.bad = false) (hloc : leafLoc m.leaf = 1)
    (hlost : s.lostAt (leafAddr m.leaf) (pageSize m.big) = false) (hd : m.cmd.dest = 2) :
    s.moveEnd m p = (s.movedToLpddr m).mgEnd m.cmd 0 0 m.newAddr := by
  have hml : s.moveLost m = false := by
    unfold State.moveLost
    dsimp only
    rw [hloc]
    exact hlost
  have hdata : s.moveData m = readBytes s.memory (leafAddr m.leaf) (pageSize m.big) := by
    unfold State.moveData
    dsimp only
    rw [hloc]
    rfl
  have h3 : ¬ m.cmd.dest = 3 := by rw [hd]; decide
  have h4 : ¬ m.cmd.dest = 4 := by rw [hd]; decide
  unfold State.moveEnd
  dsimp only
  rw [if_neg (by simp [hbad]), if_neg (by simp [hml]), if_neg (fun h => h3 h.1), if_neg h4, if_neg h3, if_neg h3, if_neg (by rw [hloc]; decide), hd, hdata]
  rfl

theorem State.exec_moveDone_ends {m : Moving} {p : PartIx} (hm : s.mig.moving = some m) (hp : m.cmd.part.toNat = p.val) (he : m.ends ≤ s.chron)
    (hreads : ∀ r ∈ s.reqs, r.who ≠ 7) (hold : s.oldAccess p.val false m.cmd.ia.toNat (pageSize m.big) m.before = false) :
    exec .moveDone s = .next (s.moveEnd m p) := by
  have hlt : m.cmd.part.toNat < 48 := hp ▸ p.isLt
  obtain rfl : (⟨m.cmd.part.toNat, hlt⟩ : PartIx) = p := Fin.ext hp
  have hw : (s.reqs.any fun r => r.who == 7) = false := by simpa using hreads
  show execMoveDone s = _
  unfold execMoveDone
  rw [hm]
  refine congrArg Host.Outcome.next ((dif_pos hlt).trans ?_)
  dsimp only
  rw [if_neg (Nat.not_lt.mpr he), if_neg]
  simp [hw, hold]

theorem State.exec_moveDone_early {m : Moving} (hm : s.mig.moving = some m) (he : s.chron < m.ends) : exec .moveDone s = .next s := by
  show execMoveDone s = _
  unfold execMoveDone
  rw [hm]
  refine congrArg Host.Outcome.next ?_
  dsimp only
  by_cases h : m.cmd.part.toNat < 48
  · rw [dif_pos h, if_pos he]
  · rw [dif_neg h]

end MoveEnd

/-- The fields of a leaf a MOVE has written (R102, R115). -/
theorem newLeaf_fields (e : Nat) {loc addr : Nat} (hl : loc < 4) (ha : addr % 2 ^ 16 = 0) (hlt : addr < 2 ^ 56) :
    leafLoc (newLeaf e loc addr) = loc ∧ bitAt (newLeaf e loc addr) 8 = false ∧ leafAddr (newLeaf e loc addr) = addr
      ∧ fld (newLeaf e loc addr) 7 4 = fld e 7 4 ∧ fld (newLeaf e loc addr) 1 0 = fld e 1 0 := by
  have hloc : leafLoc (newLeaf e loc addr) = loc := by
    simp only [leafLoc, newLeaf, setFld, fld]
    omega
  refine ⟨hloc, ?_, ?_, ?_, ?_⟩
  · simp only [bitAt, newLeaf, setFld, fld, beq_eq_false_iff_ne]
    omega
  · unfold leafAddr
    rw [hloc]
    split <;> simp only [newLeaf, setFld, fld] <;> omega
  · simp only [newLeaf, setFld, fld]
    omega
  · simp only [newLeaf, setFld, fld]
    omega

end Sys2Proof.Machine

namespace Sys2Proof

open Machine

theorem Machine.State.allocated_step {s u : State} (c : MgCmd) (pa : Nat)
    (hu : u = { s with freeIx := u.freeIx, mig := { s.mig with ring := u.mig.ring } }) : MgStep s (u.allocated c pa) := by
  unfold MgStep
  rw [hu]
  rfl

/-- An allocation of a frame, from a state a placement may have changed. -/
theorem Machine.State.mgEnds_allocated {s u : State} {c : MgCmd} (pa : Nat)
    (hu : u = { s with freeIx := u.freeIx, mig := { s.mig with ring := u.mig.ring } }) (room : MgRoom s) (hwb : s.mig.cqwb = 0) (hp : c.promo = false) :
    let t := (u.allocated c pa).mgEnd c 0 0 pa
    MgFrame s t ∧ t.ms = s.ms ∧ t.hif = s.hif
      ∧ MgEnds s t c 0 0 pa (s.memory.filter fun x => decide (x.1 < pa) || decide (pa + (if c.sz then 2 ^ 21 else 2 ^ 16) ≤ x.1))
      ∧ (∀ v, v ∈ t.mig.frames ↔ v ∈ s.mig.frames ∨ ∃ i, i < (if c.sz then 32 else 1) ∧ v = pa + i * 2 ^ 16) := by
  obtain ⟨hfr, hms, hhif, hframes, hends⟩ := State.mgEnds_mgEnd (State.allocated_step c pa hu) room hwb hp (status := 0) (by decide) 0 pa
  have hmem : u.memory = s.memory := by rw [hu]
  have hfs : u.mig.frames = s.mig.frames := by rw [hu]
  refine ⟨hfr, hms, hhif, ?_, fun v => ?_⟩
  · rw [← hmem]
    exact hends
  · rw [hframes, ← hfs]
    exact State.mem_takeFrame _ pa v c.sz

/-- A refused command. -/
theorem Machine.State.mgEnds_refused {s : State} {c : MgCmd} (room : MgRoom s) (hwb : s.mig.cqwb = 0) (hp : c.promo = false)
    {status : Nat} (hst : status < 2 ^ 8) :
    let t := s.mgEnd c status 0 0
    MgFrame s t ∧ t.ms = s.ms ∧ t.hif = s.hif ∧ t.mig.frames = s.mig.frames ∧ MgEnds s t c status 0 0 s.memory :=
  State.mgEnds_mgEnd (MgStep.refl s) room hwb hp hst 0 0

theorem migrationCommands : MigrationCommands := by
  refine ⟨fun s h => ?_, fun s h => congrArg Host.Outcome.next (if_pos h), fun s c r hf hop hd hfree room hwb hp => ?_,
    fun s c r hf hop hd hfree room hwb hp => ?_, fun s c r pa u hf hop hd hpl room hwb hp => ?_, fun s c r hf hop hd hpl room hwb hp => ?_,
    fun s c r hf h room hwb hp => ?_, fun s c r hf room hwb hp => ?_, fun s v h => congrArg Host.Outcome.next (if_pos h), fun s v h hh hb => ?_⟩
  · refine ⟨_, State.exec_migrationGo h, ?_⟩
    generalize hu : ({ s with mig := _ } : State) = u
    have ht := u.migPumped_migPump.eq
    have hgo (hb : s.mig.busy = false) (hm : s.mig.moving = none) (hh : s.mig.held = []) :=
      u.migPump_takes (by rw [← hu]; exact hb) (by rw [← hu]; exact hm) (by rw [← hu]; exact hh) (by rw [← hu]; simp)
    generalize u.migPump = t at ht hgo ⊢
    rw [← hu] at ht hgo
    refine ⟨?_, ?_, ?_, ?_, ?_, hgo⟩
    · rw [ht]; exact ⟨rfl, rfl, rfl, rfl, rfl, rfl, rfl, rfl⟩
    · rw [ht]
    · rw [ht]
    · rw [ht]
    · rw [ht]; rfl
  · rw [State.exec_alloc_explicit hf hop hd, if_pos hfree]
    exact ⟨_, rfl, State.mgEnds_allocated _ rfl room hwb hp⟩
  · rw [State.exec_alloc_explicit hf hop hd, if_neg (by simp [hfree])]
    exact ⟨_, rfl, State.mgEnds_refused room hwb hp (by decide)⟩
  · rw [State.exec_alloc_place hf hop hd, hpl]
    exact ⟨_, rfl, State.mgEnds_allocated pa (State.place_step hpl) room hwb hp⟩
  · rw [State.exec_alloc_place hf hop hd, hpl]
    exact ⟨_, rfl, State.mgEnds_refused room hwb hp (by decide)⟩
  · exact ⟨_, State.exec_alloc_unknown hf h, State.mgEnds_refused room hwb hp (by decide)⟩
  · refine ⟨(s.freeFrame c.dst.toNat c.sz).mgEnd c 0 0 c.dst.toNat, by show execFree s = _; unfold execFree; rw [hf], ?_⟩
    obtain ⟨hfr, hms, hhif, hframes, hends⟩ :=
      State.mgEnds_mgEnd (s := s) (u := s.freeFrame c.dst.toNat c.sz) rfl room hwb hp (status := 0) (by decide) 0 c.dst.toNat
    refine ⟨hfr, hms, hhif, hends, fun v => ?_⟩
    rw [hframes]
    exact State.mem_freeFrame s c.dst.toNat v c.sz
  · rw [State.exec_mgcqheadWrite h, hh, List.foldl_nil]
    refine congrArg Host.Outcome.next ((State.migPump_of_busy _ (by exact hb)).trans ?_)
    rw [← hh]

theorem heldCompletion : HeldCompletion := by
  intro s v x h hh hb hroom hwb
  refine ⟨_, by rw [State.exec_mgcqheadWrite h, hh, List.foldl_cons, List.foldl_nil, State.mgWrite_room (by exact hroom)], ?_⟩
  rw [State.migPump_of_busy _ (by exact hb)]
  refine ⟨⟨rfl, rfl, rfl, rfl, rfl, rfl, rfl, rfl⟩, if_pos hwb, rfl, rfl⟩

/-- What the copy of a MOVE leaves as it begins: the leaf marked, the page's translations gone, the end to come (R112, R115). -/
theorem Machine.State.moveCopies_spec (s : State) (c : MgCmd) (p : PartIx) {e : Nat} (at_ a : Nat) (h3 : leafLoc e ≠ 3) :
    let t := s.moveCopies c p e at_ a
    MgFrame s t ∧ t.hif = s.hif ∧ t.memory = writeBytes s.memory at_ (toBytes 8 (setFld e 8 1 1)) ∧ t.mig.promos = s.mig.promos
      ∧ t.mig.fifo = s.mig.fifo ∧ t.mig.frames = s.mig.frames
      ∧ (∃ m, t.mig.moving = some m ∧ m.cmd = c ∧ m.leafAt = at_ ∧ m.leaf = e ∧ m.newAddr = a)
      ∧ t.ms = (s.invalidate p.val false (c.ia.toNat / pageSize c.sz * pageSize c.sz) (pageSize c.sz)).ms
      ∧ ∃ v ∈ t.agenda, v.cycle = s.chron + (if c.sz then 16384 else 512) ∧ v.instr = .moveDone := by
  have hn : pageSize c.sz / 128 = if c.sz then 16384 else 512 := by cases c.sz <;> rfl
  unfold State.moveCopies
  dsimp only
  rw [if_neg h3]
  exact ⟨⟨rfl, rfl, rfl, rfl, rfl, rfl, rfl, rfl⟩, rfl, rfl, rfl, rfl, rfl, ⟨_, rfl, rfl, rfl, rfl, rfl⟩, rfl, _, mem_agendaPut ..,
    by rw [← hn]; rfl, rfl⟩

theorem Machine.State.exec_move {s : State} {c : MgCmd} {r : List MgCmd} (hf : s.mig.fifo = c :: r) : exec .move s = .next (s.moveStart c) := by
  show execMove s = _
  unfold execMove
  rw [hf]

theorem Machine.State.exec_promotion {s : State} {c : MgCmd} {r : List MgCmd} (hf : s.mig.promos = c :: r) : exec .promotion s = .next (s.moveStart c) := by
  show execPromotion s = _
  unfold execPromotion
  rw [hf]

theorem migrationMoves : MigrationMoves := by
  refine ⟨fun s c r p e a lvl hf hpr hp hl h7 hb hsz hd h3 hsame hal hlo hhi => ?_, fun s c r p e l hf hpr hp hl hen htab h0 room hwb => ?_,
    fun s c r p code e l hf hpr hp hl hcode hmap room hheld hq => ?_, fun s c r p e l hf hpr hp hl room hrun => ?_,
    fun s c r hf hpart hpr room hwb => ?_, fun s c r p e a lvl hf hpr hp hl h7 hb room hwb => ?_,
    fun s m p hm hp hbad hends hreads hold hloc hlost hd hpr room hwb => ?_, fun s m hm h => State.exec_moveDone_early hm h,
    fun e loc addr => newLeaf_fields e, fun s c r p e a lvl pa u hf hpr hd hp hl hb h2 h7 hsz hpl => ?_,
    fun s c r p e a lvl hf hpr hp hl hb h2 => ?_⟩
  · rw [State.exec_move hf, State.moveStart_ok hp hl hb, if_neg (by simp [hpr]), if_neg (by simp [h7]), if_neg (by simp [hsz]),
      State.moveDest_lpddr hd hsame hal hlo hhi]
    refine ⟨_, rfl, ?_⟩
    obtain ⟨hfr, hhif, hmem, -, hfifo, hframes, hmv, hms, hev⟩ := s.moveCopies_spec c p a c.dst.toNat h3
    refine ⟨hfr, hhif, hmem, hfifo, hframes, hmv, fun x => ?_, ?_, hev⟩
    · rw [hms, State.mem_pinned_invalidate]
      simp only [Bool.false_eq_true, false_or]
      rfl
    · rw [hms]
      exact s.ats_invalidate p.val false _ _
  · have hun : s.unmapped p e = true := by simp [State.unmapped, hen, htab, h0]
    rw [State.exec_move hf, State.moveStart_error hp hl, if_pos ⟨rfl, hun⟩]
    obtain ⟨hfr, hms, -, -, hends⟩ := State.mgEnds_refused room hwb hpr (status := 1) (by decide)
    exact ⟨_, rfl, hfr, hms, hends⟩
  · have hun : ¬ s.unmapped p e = true := by
      rcases hmap with h | h | h
      · simp [State.unmapped, h]
      · simp [State.unmapped, Option.isNone_iff_eq_none, h]
      · simp [State.unmapped, h]
    rw [State.exec_move hf, State.moveStart_error hp hl, if_neg (fun h => hun h.2)]
    refine ⟨_, rfl, ?_⟩
    unfold State.moveFault
    rw [if_neg hcode]
    obtain ⟨hmig, hms, hcores, hq⟩ := State.fqWrite_room (w := { req := 7, ia := c.ia.toNat, entry := e, level := l }) (Nat.le_add_left 5 2) hheld hq code
    generalize s.fqWrite p code _ = u at hmig hms hcores hq ⊢
    have ht := (State.mgCompletes_mgEnd (s := u) (by unfold MgRoom; rw [hmig]; exact room) hpr 5 0 0).eq
    generalize u.mgEnd c 5 0 0 = t at ht ⊢
    rw [hmig] at ht
    refine ⟨?_, ?_, ?_, ?_, ?_, ?_⟩
    · rw [ht, hf]; rfl
    · rw [ht]
    · rw [ht]
    · rw [← hq, ht]; rfl
    · rw [← hcores, ht]
    · rw [← hms, ht]
  · rw [State.exec_move hf, State.moveStart_error hp hl, if_neg (by simp)]
    refine ⟨_, rfl, ?_⟩
    unfold State.moveFault
    rw [if_pos rfl]
    have hck := State.checks_partFault hrun 0x74
    have hff := FaultFrame.partFault s p 0x74
    generalize s.partFault p 0x74 = u at hck hff ⊢
    obtain ⟨ht, hev⟩ := State.mgCompletes_mgEnd (s := u) (by unfold MgRoom; rw [hff.mig]; exact room) hpr 5 0 0
    generalize u.mgEnd c 5 0 0 = t at ht hev ⊢
    rw [hff.mig] at ht
    refine ⟨?_, ?_, ?_, ?_, ?_⟩
    · rw [ht, hf]; rfl
    · rw [ht]
    · exact Checks.mono hck (by rw [ht]; rfl) fun e he _ => hev e he
    · rw [← hff.cores, ht]
    · rw [← hff.ms, ht]
  · obtain ⟨hfr, hms, -, -, hends⟩ := State.mgEnds_refused room hwb hpr (status := 4) (by decide)
    exact ⟨_, (State.exec_move hf).trans (congrArg Host.Outcome.next (dif_neg (Nat.not_lt.mpr hpart))), hfr, hms, hends⟩
  · rw [State.exec_move hf, State.moveStart_ok hp hl hb, if_neg (by simp [hpr]), if_pos h7]
    obtain ⟨hfr, hms, -, -, hends⟩ := State.mgEnds_refused room hwb hpr (status := 2) (by decide)
    exact ⟨_, rfl, hfr, hms, hends⟩
  · rw [State.exec_moveDone_ends hm hp hends hreads hold, State.moveEnd_lpddr hbad hloc hlost hd]
    obtain ⟨hfr, hms, hhif, hframes, hends⟩ := State.mgEnds_mgEnd (s := s) (u := s.movedToLpddr m) rfl room hwb hpr (status := 0) (by decide) 0 m.newAddr
    exact ⟨_, rfl, hfr, hms, hhif, hframes, hends⟩
  · rw [State.exec_promotion hf, State.moveStart_ok hp hl hb, if_neg (by simp [h2]), if_neg (by simp [h7]), if_neg (by simp [hsz]),
      State.moveDest_pool hd hpl]
    refine ⟨(u.takeFrame pa c.sz).moveCopies c p e a pa, rfl, ?_⟩
    have hu := State.place_step hpl
    obtain ⟨hfr, hhif, hmem, hpromos, hfifo, hframes, hmv, -, hev⟩ := (u.takeFrame pa c.sz).moveCopies_spec c p a pa
      (show leafLoc e ≠ 3 by rw [h2]; decide)
    have hmem' := fun x => u.mem_takeFrame pa x c.sz
    rw [← hframes] at hmem'
    generalize State.moveCopies _ c p e a pa = t at hfr hhif hmem hpromos hfifo hmem' hmv hev ⊢
    rw [hu] at hfr hhif hmem hpromos hfifo hmem' hev
    exact ⟨hfr, hhif, hmem, hpromos, hfifo, hmv, hmem', hev⟩
  · rw [State.exec_promotion hf, State.moveStart_ok hp hl hb, if_pos ⟨hpr, h2⟩, State.mgEnd_promo s hpr]
    refine ⟨_, rfl, ?_⟩
    have ht := (s.mgFreed c).migPumped_migPump.eq
    generalize (s.mgFreed c).migPump = t at ht ⊢
    unfold State.mgFreed at ht
    rw [if_pos hpr, if_pos hpr] at ht
    refine ⟨?_, ?_, ?_, ?_, ?_, ?_, ?_⟩
    · rw [ht]; exact ⟨rfl, rfl, rfl, rfl, rfl, rfl, rfl, rfl⟩
    · rw [ht]
    · rw [ht]
    · rw [ht, hf]; rfl
    · rw [ht]
    · rw [ht]
    · rw [ht]

/-- A PRELOAD of one page that pins none. -/
theorem Machine.State.preload_fails {s : State} {p : PartIx} (h : PreloadsOne s p)
    (hf : s.preloading.pinPages p (2 ^ 16) 1 (s.ms.op.1.toNat / 2 ^ 16 * 2 ^ 16) = (s.preloading, false)) :
    ∃ t, exec .preload s = .next t ∧ t.ms.sdErr = true ∧ t.ms.pinned = s.ms.pinned ∧ t.memory = s.memory ∧ t.cores = s.cores ∧ t.parts = s.parts
      ∧ ∃ v ∈ t.agenda, s.chron < v.cycle ∧ v.instr = .shootdownDone := by
  refine ⟨_, State.exec_preload_one h, ?_⟩
  rw [hf]
  refine ⟨rfl, rfl, rfl, rfl, rfl, _, mem_agendaPut .., ?_, rfl⟩
  show s.chron < s.chron + (1 + Config.walkLatency s.freeIx)
  omega

theorem shootdownAndPreload : ShootdownAndPreload := by
  refine ⟨fun s => ?_, fun s ia c b hr hdone => ?_, fun s ia c b hr hold => ?_, fun s p e at_ h => ?_, fun s p h => ?_, fun s h => ?_⟩
  · refine ⟨_, 1 + Config.walkLatency s.freeIx, by omega, rfl, rfl, rfl, rfl, fun y => ?_, rfl, rfl, rfl, rfl, rfl, rfl⟩
    exact s.mem_pinned_invalidate ..
  · have hold (p : Nat) (all : Bool) (a n : Nat) : s.oldAccess p all a n b = false := by
      unfold State.oldAccess
      refine List.any_eq_false.mpr fun r hr => ?_
      simp only [Bool.and_eq_true, not_and, beq_iff_eq, Bool.not_eq_true', decide_eq_true_eq]
      rintro ⟨⟨⟨-, hsent⟩, hopen⟩, hid⟩
      exact absurd (hdone r hr hid hsent) (by simp [hopen])
    show execShootdownDone s = _
    unfold execShootdownDone
    rw [hr]
    exact congrArg Host.Outcome.next (if_neg (by rw [hold]; decide))
  · show execShootdownDone s = _
    unfold execShootdownDone
    rw [hr]
    exact congrArg Host.Outcome.next (if_pos hold)
  · intro a ha hl hpin hlen
    have hroom : ¬ 1024 ≤ (s.ms.pinned.filter fun x => fld x.base 23 21 == fld a 23 21).length :=
      Nat.not_le.mpr (Nat.lt_of_le_of_lt (List.length_filter_le ..) hlen)
    have hbase : a / 2 ^ 16 * 2 ^ 16 = a := by omega
    refine ⟨_, State.exec_preload_one h, ?_⟩
    rw [State.pinPages_one, if_neg (Nat.not_le.mpr ha), hl]
    dsimp only
    rw [hpin]
    dsimp only
    rw [if_neg hroom]
    refine ⟨rfl, rfl, rfl, rfl, rfl, fun y => ?_, _, mem_agendaPut .., ?_, rfl⟩
    · have hp : pageSize (3 == 2) = 2 ^ 16 := rfl
      rw [hp, hbase]
      show y ∈ (s.ms.pinned.filter fun x => !(x.part == p.val && x.base == a && x.big == false)) ++ [_] ↔ _
      simp only [List.mem_append, List.mem_filter, List.mem_singleton, Bool.not_eq_true', ← Bool.not_eq_true, Bool.and_eq_true, beq_iff_eq, and_assoc]
      exact or_comm
    · show s.chron < s.chron + (1 + Config.walkLatency s.freeIx)
      omega
  · intro a hwhy
    refine State.preload_fails h ?_
    rw [State.pinPages_one]
    rcases hwhy with ha | ⟨code, e, l, hl, hcode⟩ | ⟨e, at_, l, hl, hbits⟩ | ⟨⟨e, at_, l, hl, hpin⟩, hfull⟩
    · rw [if_pos ha]
    · rw [hl]
      dsimp only
      rw [if_neg hcode, ite_self]
    · have hpin : s.pinFails p a e at_ l = some 0 := by
        refine if_pos (hbits.imp_left fun h => ?_)
        rw [h]
        decide
      rw [hl]
      dsimp only
      rw [hpin]
      dsimp only
      rw [if_neg (show ¬ (0 = 0x74) by decide), ite_self]
    · rw [hl]
      dsimp only
      rw [hpin]
      dsimp only
      rw [if_pos hfull, ite_self]
  · show execPreload s = _
    unfold execPreload
    exact congrArg Host.Outcome.next (if_pos h)

/-- Settles O50: the engine, its completions, MOVE and promotions, and shoot-down and preload, part by part. -/
theorem migrationAndShootdown : Obligations.MigrationAndShootdown :=
  ⟨migrationCommands, heldCompletion, migrationMoves, shootdownAndPreload⟩

end Sys2Proof

/-! # Ports and peer links (R47 to R70) -/

namespace Sys2Proof.Machine

/-! ## A link or a port replaced -/

section Replaced

variable (s : State)

theorem State.link_updLink (l : LinkIx) (f : Link → Link) : (s.updLink l f).fab.links[l] = f s.fab.links[l] :=
  Vector.getElem_set_self _

theorem State.link_updLink_ne {l m : LinkIx} (h : m ≠ l) (f : Link → Link) : (s.updLink l f).fab.links[m] = s.fab.links[m] :=
  Vector.getElem_set_ne l.isLt (Fin.isLt _) fun e => h (Fin.ext e.symm)

theorem State.port_updPort (q : Fin 48) (f : Port → Port) : (s.updPort q f).fab.ports[q] = f s.fab.ports[q] :=
  Vector.getElem_set_self _

theorem State.port_updPort_ne {q r : Fin 48} (h : r ≠ q) (f : Port → Port) : (s.updPort q f).fab.ports[r] = s.fab.ports[r] :=
  Vector.getElem_set_ne q.isLt (Fin.isLt _) fun e => h (Fin.ext e.symm)

/-- Replacing a link or a port by itself changes nothing. -/
theorem State.updLink_eq_self {s : State} {l : LinkIx} {f : Link → Link} (h : f s.fab.links[l] = s.fab.links[l]) : s.updLink l f = s := by
  unfold State.updLink
  rw [h]
  simp only [Fin.getElem_fin, Vector.set_getElem_self]

theorem State.updPort_eq_self {s : State} {q : Fin 48} {f : Port → Port} (h : f s.fab.ports[q] = s.fab.ports[q]) : s.updPort q f = s := by
  unfold State.updPort
  rw [h]
  simp only [Fin.getElem_fin, Vector.set_getElem_self]

theorem State.updLink_updLink (l : LinkIx) (f g : Link → Link) : (s.updLink l f).updLink l g = s.updLink l fun k => g (f k) := by
  show ({ s with fab := { s.fab with links := _ } } : State) = _
  rw [State.link_updLink]
  simp only [State.updLink, Vector.set_set]

end Replaced

/-! ## What links alone do -/

/-- Only links, the schedule and the link interrupt change; no event is lost and no interrupt is taken back. -/
structure LinkFrame (s t : State) : Prop where
  eq : t = { s with
    fab := { s.fab with links := t.fab.links }, agenda := t.agenda
    hif := { s.hif with intst := t.hif.intst, msix := t.hif.msix } }
  ints : ∀ v : Fin 8, s.hif.intst.getLsb v = true → t.hif.intst.getLsb v = true
  events : ∀ e ∈ s.agenda, e ∈ t.agenda

namespace LinkFrame

variable {s t u : State}

theorem refl (s : State) : LinkFrame s s := ⟨rfl, fun _ h => h, fun _ h => h⟩

theorem trans (a : LinkFrame s t) (b : LinkFrame t u) : LinkFrame s u :=
  ⟨by have e := b.eq; rw [a.eq] at e; exact e, fun v h => b.ints v (a.ints v h), fun e h => b.events e (a.events e h)⟩

theorem foldl {α : Type} {f : State → α → State} (hf : ∀ s a, LinkFrame s (f s a)) (l : List α) (s : State) : LinkFrame s (l.foldl f s) := by
  induction l generalizing s with
  | nil => exact refl s
  | cons a l ih => exact (hf s a).trans (ih _)

theorem updLink (s : State) (l : LinkIx) (f : Link → Link) : LinkFrame s (s.updLink l f) := ⟨rfl, fun _ h => h, fun _ h => h⟩

theorem schedL (s : State) (n : Nat) (l : LinkIx) (i : Instr) : LinkFrame s (s.schedL n l i) :=
  ⟨rfl, fun _ h => h, fun _ h => (mem_agendaPut_iff ..).mpr (.inr h)⟩

theorem pfInt (s : State) (v : Fin 8) : LinkFrame s (s.pfInt v) := by
  have h := FaultFrame.pfInt s 0 v
  exact ⟨by rw [s.pfInt_eq v], h.ints, h.events⟩

theorem ports (h : LinkFrame s t) : t.fab.ports = s.fab.ports := by rw [h.eq]
theorem parts (h : LinkFrame s t) : t.parts = s.parts := by rw [h.eq]
theorem chron (h : LinkFrame s t) : t.chron = s.chron := by rw [h.eq]
theorem stopsSeen (h : LinkFrame s t) : t.fab.stopsSeen = s.fab.stopsSeen := by rw [h.eq]
theorem isFrozen (h : LinkFrame s t) : t.isFrozen = s.isFrozen := by rw [h.eq]; rfl

theorem sameUnits (h : LinkFrame s t) : SameUnits s t := by
  rw [h.eq]
  exact ⟨rfl, rfl, rfl, rfl, rfl, rfl, rfl, rfl, rfl⟩

end LinkFrame

theorem SameUnits.trans {s t u : State} (a : SameUnits s t) (b : SameUnits t u) : SameUnits s u := by
  obtain ⟨a1, a2, a3, a4, a5, a6, a7, a8, a9⟩ := a
  obtain ⟨b1, b2, b3, b4, b5, b6, b7, b8, b9⟩ := b
  exact ⟨b1.trans a1, b2.trans a2, b3.trans a3, b4.trans a4, b5.trans a5, b6.trans a6, b7.trans a7, b8.trans a8, b9.trans a9⟩

/-- The link interrupt is set. -/
theorem State.pfInt_self (s : State) (v : Fin 8) : (s.pfInt v).hif.intst.getLsb v = true := by
  rw [s.pfInt_intst v]
  exact getLsb_or_bit ..

theorem State.pfInt_fab (s : State) (v : Fin 8) : (s.pfInt v).fab = s.fab := by rw [s.pfInt_eq v]

/-- A link with a packet offered to it (R58, R60). -/
def Link.offered (k : Link) (t : OutTlp) : Link :=
  match k.st with
  | .up => { k with out := k.out ++ [{ t with seq := k.txSeq.toNat, member := k.txSeq.toNat % 2 ^ k.nmem.toNat }], txSeq := k.txSeq + 1 }
  | .training => { k with waiting := k.waiting ++ [t] }
  | _ => k

theorem State.offer_eq (s : State) (l : LinkIx) (t : OutTlp) : (s.offer l t).1 = s.updLink l fun k => k.offered t := by
  unfold State.offer Link.offered State.updLink
  dsimp only
  cases h : s.fab.links[l].st <;> simp only [Fin.getElem_fin, Vector.set_getElem_self]

theorem Link.gapDue_of_held_nil {k : Link} (h : k.held = []) : k.gapDue = none := by
  unfold Link.gapDue
  rw [h]
  rfl

namespace LinkFrame

theorem offer (s : State) (l : LinkIx) (t : OutTlp) : LinkFrame s (s.offer l t).1 := by
  rw [s.offer_eq l t]
  exact updLink ..

theorem gapArm (s : State) (l : LinkIx) : LinkFrame s (s.gapArm l) := by
  unfold State.gapArm
  dsimp only
  split
  · exact updLink ..
  · split
    · exact refl s
    · exact (updLink ..).trans (schedL ..)

theorem linkCheck (s : State) (l : LinkIx) : LinkFrame s (s.linkCheck l) := by
  unfold State.linkCheck
  dsimp only
  split
  · exact ((updLink ..).trans (foldl (fun s t => offer s l t) _ _)).trans (pfInt _ 4)
  · exact refl s

end LinkFrame

/-! ## Faults raised by a link (R60, R68) -/

/-- Of the fabric only the stops to come change. -/
def StopsOnly (f g : Fabric) : Prop := g = { f with stopCount := g.stopCount, stopsDelayed := g.stopsDelayed }

theorem StopsOnly.trans {f g h : Fabric} (a : StopsOnly f g) (b : StopsOnly g h) : StopsOnly f h := by
  unfold StopsOnly at *
  rw [a] at b
  exact b

section FaultFab

variable (s : State) (p : PartIx)

theorem State.vfInt_fab (v : Fin 2) : (s.vfInt p v).fab = s.fab := by
  unfold State.vfInt
  dsimp only
  split <;> rfl

theorem State.mailEvent_fab : (s.mailEvent p).fab = s.fab := by
  unfold State.mailEvent
  split
  · exact (State.pfInt_fab _ 5).trans (s.vfInt_fab p 0)
  · rfl

theorem State.slotTo_fab (j : Fin 8) (st : CtxState) : (s.slotTo p j st).fab = s.fab := by
  unfold State.slotTo
  dsimp only
  split
  · exact State.mailEvent_fab ..
  · rfl

theorem State.kickHelm_fab : (s.kickHelm p).fab = s.fab := by
  unfold State.kickHelm
  split <;> rfl

theorem State.unname_fab (j : Fin 8) : (s.unname p j).fab = s.fab := by
  unfold State.unname
  split
  · rfl
  · rw [(KeysOnly.keyFlush ..).eq]
    rfl

theorem State.storedFault_fab (code : Nat) : (s.storedFault p code).fab = s.fab := by
  unfold State.storedFault State.endSlot
  split
  · rw [(AddsEvents.hotCheckAll _).eq]
    exact (State.kickHelm_fab ..).trans ((State.slotTo_fab ..).trans (State.unname_fab ..))
  · rfl

theorem State.stopsOnly_originateStop (code : Nat) : StopsOnly s.fab (s.originateStop p code).fab := by
  unfold State.originateStop
  dsimp only
  (repeat' split) <;> rfl

theorem State.stopsOnly_hardFault (h : Halting) (told : Bool) : StopsOnly s.fab (s.hardFault p h told).fab := by
  have htell (t : State) (ht : t.fab = s.fab) : StopsOnly s.fab (if told then t else t.originateStop p h.code).fab := by
    rw [← ht]
    split
    · rfl
    · exact State.stopsOnly_originateStop ..
  unfold State.hardFault
  dsimp only
  split
  · split
    · exact htell _ rfl
    · rfl
  · split
    · split
      · exact htell _ rfl
      · split <;> rfl
    · split
      · exact htell _ (s.storedFault_fab p _)
      · rfl

theorem State.stopsOnly_partFault (code : Nat) : StopsOnly s.fab (s.partFault p code).fab := s.stopsOnly_hardFault p _ _

theorem State.stopsOnly_foldl (code : Nat) (l : List PartIx) (s : State) : StopsOnly s.fab (l.foldl (fun s p => s.partFault p code) s).fab := by
  induction l generalizing s with
  | nil => rfl
  | cons p l ih => exact (s.stopsOnly_partFault p code).trans (ih _)

end FaultFab

theorem StopsOnly.links {f g : Fabric} (h : StopsOnly f g) : g.links = f.links := (congrArg Fabric.links h :)
theorem StopsOnly.ports {f g : Fabric} (h : StopsOnly f g) : g.ports = f.ports := (congrArg Fabric.ports h :)

namespace FaultsFrame

variable {l : List PartIx} {s t u : State}

theorem trans (a : FaultsFrame l s t) (b : FaultsFrame l t u) : FaultsFrame l s u :=
  ⟨by have e := b.eq; rw [a.eq] at e; exact e, fun q hq => (b.others q hq).trans (a.others q hq), fun v h => b.ints v (a.ints v h),
    fun e h => b.events e (a.events e h)⟩

theorem of_linkFrame (l : List PartIx) (h : LinkFrame s t) : FaultsFrame l s t :=
  ⟨by have e := h.eq; rw [e], fun q _ => by rw [h.eq]; rfl, h.ints, h.events⟩

theorem sameUnits (h : FaultsFrame l s t) : SameUnits s t := by
  rw [h.eq]
  exact ⟨rfl, rfl, rfl, rfl, rfl, rfl, rfl, rfl, rfl⟩

theorem chron (h : FaultsFrame l s t) : t.chron = s.chron := by rw [h.eq]
theorem isFrozen (h : FaultsFrame l s t) : t.isFrozen = s.isFrozen := by rw [h.eq]; rfl

end FaultsFrame

/-- The partitions bound to a link. -/
def State.boundTo (s : State) (l : LinkIx) : List PartIx := allParts.filter fun p => s.fab.links[l].parts.getLsb p

theorem State.boundTo_nodup (s : State) (l : LinkIx) : (s.boundTo l).Nodup := (List.nodup_finRange 48).filter _

theorem State.mem_boundTo {s : State} {l : LinkIx} {p : PartIx} : p ∈ s.boundTo l ↔ s.fab.links[l].parts.getLsb p = true := by
  rw [State.boundTo, List.mem_filter]
  exact and_iff_right (List.mem_finRange p)

/-- A link fault is a machine check of each partition bound to the link: no fault changes what it is bound to. -/
theorem State.linkFault_eq (s : State) (l : LinkIx) (code : Nat) :
    s.linkFault l code = (s.boundTo l).foldl (fun s p => s.partFault p code) s := by
  unfold State.linkFault State.boundTo
  generalize allParts = ps
  induction ps generalizing s with
  | nil => rfl
  | cons p ps ih =>
    rw [List.foldl_cons, List.filter_cons]
    split
    · rw [List.foldl_cons, ih, (s.stopsOnly_partFault p code).links]
    · rw [ih]

section LinkFault

variable (s : State) (l : LinkIx) (code : Nat)

theorem State.faultsFrame_linkFault : FaultsFrame (s.boundTo l) s (s.linkFault l code) := by
  rw [State.linkFault_eq]
  exact State.faultsFrame_foldl ..

theorem State.stopsOnly_linkFault : StopsOnly s.fab (s.linkFault l code).fab := by
  rw [State.linkFault_eq]
  exact State.stopsOnly_foldl ..

theorem State.boundChecks_linkFault : BoundChecks s (s.linkFault l code) l code := fun p hp hr => by
  rw [State.linkFault_eq]
  exact State.checks_foldl (s.boundTo_nodup l) (State.mem_boundTo.mpr hp) hr code

end LinkFault

end Sys2Proof.Machine

namespace Sys2Proof.Machine

/-! ## A link goes to DOWN (R60) -/

/-- A link in DOWN, which holds nothing. -/
def Link.dropped (k : Link) : Link :=
  { k with st := .down, held := [], thawed := [], waiting := [], out := [], todo := [], gapAt := none, outFrom := none, paused := 0, blocked := false }

/-- A link is DOWN and holds nothing, the link interrupt is set, and of the other links and the units nothing changed but what faults of the
bound partitions change. -/
structure GoesDown (l : LinkIx) (s t : State) : Prop where
  frame : FaultsFrame (s.boundTo l) s t
  link : t.fab.links[l] = (s.fab.links[l]).dropped
  others : ∀ m, m ≠ l → t.fab.links[m] = s.fab.links[m]
  ports : t.fab.ports = s.fab.ports
  int : t.hif.intst.getLsb 4 = true

section Down

variable (s : State) (l : LinkIx)

theorem State.linkDown_eq : s.linkDown l = ((s.updLink l Link.dropped).pfInt 4).linkFault l 0x61 := rfl

theorem State.goesDown_linkDown : GoesDown l s (s.linkDown l) := by
  have hu : LinkFrame s ((s.updLink l Link.dropped).pfInt 4) := (LinkFrame.updLink ..).trans (LinkFrame.pfInt _ 4)
  have hlinks : ((s.updLink l Link.dropped).pfInt 4).fab = (s.updLink l Link.dropped).fab := State.pfInt_fab _ 4
  have hf := State.faultsFrame_linkFault ((s.updLink l Link.dropped).pfInt 4) l 0x61
  have hs := State.stopsOnly_linkFault ((s.updLink l Link.dropped).pfInt 4) l 0x61
  rw [hlinks] at hs
  have hbound : ((s.updLink l Link.dropped).pfInt 4).boundTo l = s.boundTo l := by
    unfold State.boundTo
    rw [hlinks, State.link_updLink]
    rfl
  rw [hbound] at hf
  refine ⟨(FaultsFrame.of_linkFrame _ hu).trans hf, ?_, fun m hm => ?_, hs.ports, hf.ints 4 (State.pfInt_self _ 4)⟩
  · rw [s.linkDown_eq l, hs.links, State.link_updLink]
  · rw [s.linkDown_eq l, hs.links, State.link_updLink_ne _ hm]

theorem State.boundChecks_linkDown : BoundChecks s (s.linkDown l) l 0x61 := fun p hp hr => by
  have hu : LinkFrame s ((s.updLink l Link.dropped).pfInt 4) := (LinkFrame.updLink ..).trans (LinkFrame.pfInt _ 4)
  have hpart : ((s.updLink l Link.dropped).pfInt 4).part p = s.part p := by
    rw [hu.eq]
    rfl
  refine Checks.of_chron (State.boundChecks_linkFault ((s.updLink l Link.dropped).pfInt 4) l 0x61 p ?_ ?_) hu.chron
  · rw [State.pfInt_fab, State.link_updLink]
    exact hp
  · unfold Running at hr ⊢
    rwa [hpart]

end Down

theorem GoesDown.linkEmpty {l : LinkIx} {s t : State} (h : GoesDown l s t) : LinkEmpty t.fab.links[l] := by
  rw [h.link]
  exact ⟨rfl, rfl, rfl, rfl⟩

/-! ## A second machine check of one cycle (R148) -/

/-- What a machine check of cycle t begins the halt of a partition with. -/
def checkOf (code t : Nat) : Halting := { code := code, cycle := t, core := 0x1FF, eng := 0, pc := -1 }

/-- A unit's first fault stands. -/
theorem merge_checkOf (code code' t : Nat) : (checkOf code t).merge (checkOf code' t) = checkOf code t := by
  simp [Halting.merge, checkOf, Halting.src]

/-- A partition that runs and is checked in this cycle. -/
def Part.Checked (q : Part) (code t : Nat) : Prop :=
  q.switching = false ∧ q.runSlot.isSome = true ∧ q.halting = some (checkOf code t)

theorem State.checked_partFault {s : State} {p : PartIx} (hr : Running s p) (code : Nat) : ((s.partFault p code).part p).Checked code s.chron := by
  rw [State.part_partFault_running hr]
  exact ⟨hr.1, hr.2.2, rfl⟩

/-- A second machine check in the cycle of the first changes nothing of the partition. -/
theorem State.part_partFault_of_checked {s : State} {p : PartIx} {code : Nat} (h : (s.part p).Checked code s.chron) (code' : Nat) :
    (s.partFault p code').part p = s.part p := by
  obtain ⟨hsw, hrun, hh⟩ := h
  obtain ⟨j, hj⟩ := Option.isSome_iff_exists.mp hrun
  have hmerge : (s.partFault p code') = s.updPart p fun q => { q with halting := some (checkOf code s.chron) } := by
    simp only [State.partFault, State.hardFault, hsw, hj, hh, Bool.false_eq_true, if_false]
    rw [if_pos (show (checkOf code s.chron).cycle = s.chron from rfl)]
    exact congrArg (fun o => s.updPart p fun q => { q with halting := some o }) (merge_checkOf ..)
  rw [hmerge, State.part_updPart, ← hh]

/-- Machine checks of one cycle leave a partition as the first of them did. -/
theorem State.part_foldl_of_checked {p : PartIx} {code : Nat} (code' : Nat) (l : List PartIx) {s : State} (h : (s.part p).Checked code s.chron) :
    (l.foldl (fun s p => s.partFault p code') s).part p = s.part p := by
  induction l generalizing s with
  | nil => rfl
  | cons x l ih =>
    have hx := FaultFrame.partFault s x code'
    have hpart : (s.partFault x code').part p = s.part p := by
      by_cases hpx : p = x
      · subst hpx
        exact State.part_partFault_of_checked h code'
      · exact hx.others p hpx
    rw [List.foldl_cons, ih (by rwa [hpart, hx.chron]), hpart]

/-- Each running partition of a list of faults is checked, and runs still. -/
theorem State.checked_foldl {l : List PartIx} (hl : l.Nodup) {s : State} {p : PartIx} (hp : p ∈ l) (hr : Running s p) (code : Nat) :
    ((l.foldl (fun s p => s.partFault p code) s).part p).Checked code s.chron := by
  obtain ⟨l₁, l₂, rfl⟩ := List.append_of_mem hp
  obtain ⟨hp₁, -⟩ := List.nodup_cons.mp (List.nodup_middle.mp hl)
  have h₁ := s.faultsFrame_foldl code l₁
  have hpart : (l₁.foldl (fun s p => s.partFault p code) s).part p = s.part p := h₁.others p fun h => hp₁ (List.mem_append_left _ h)
  have hr₁ : Running (l₁.foldl (fun s p => s.partFault p code) s) p := by unfold Running at hr ⊢; rwa [hpart]
  have hc := State.checked_partFault hr₁ code
  rw [List.foldl_append, List.foldl_cons, State.part_foldl_of_checked code l₂ (by rwa [(FaultFrame.partFault ..).chron]), ← h₁.chron]
  exact hc

/-! ## A fault that takes the link down (R59, R60) -/

section FaultDown

variable (s : State) (l : LinkIx) (code : Nat)

theorem State.boundTo_linkFault : (s.linkFault l code).boundTo l = s.boundTo l := by
  unfold State.boundTo
  rw [(s.stopsOnly_linkFault l code).links]

theorem State.goesDown_faultDown : GoesDown l s ((s.linkFault l code).linkDown l) := by
  have hf := s.faultsFrame_linkFault l code
  have hs := s.stopsOnly_linkFault l code
  have hd := (s.linkFault l code).goesDown_linkDown l
  refine ⟨hf.trans ?_, ?_, fun m hm => ?_, hd.ports.trans hs.ports, hd.int⟩
  · rw [← s.boundTo_linkFault l code]
    exact hd.frame
  · rw [hd.link, hs.links]
  · rw [hd.others m hm, hs.links]

/-- The link's going down, 0x61, adds nothing to the check by which it goes down. -/
theorem State.boundChecks_faultDown : BoundChecks s ((s.linkFault l code).linkDown l) l code := fun p hp hr => by
  have hchecked : ((s.linkFault l code).part p).Checked code s.chron := by
    rw [State.linkFault_eq]
    exact State.checked_foldl (s.boundTo_nodup l) (State.mem_boundTo.mpr hp) hr code
  have hchron := (s.faultsFrame_linkFault l code).chron
  have hu : LinkFrame (s.linkFault l code) (((s.linkFault l code).updLink l Link.dropped).pfInt 4) :=
    (LinkFrame.updLink ..).trans (LinkFrame.pfInt _ 4)
  have hpart : (((s.linkFault l code).updLink l Link.dropped).pfInt 4).part p = (s.linkFault l code).part p := by
    rw [hu.eq]
    rfl
  have hsame : ((s.linkFault l code).linkDown l).part p = (s.linkFault l code).part p := by
    rw [State.linkDown_eq, State.linkFault_eq _ l 0x61, State.part_foldl_of_checked 0x61 _ (by rwa [hpart, hu.chron, hchron]), hpart]
  exact Checks.mono (s.boundChecks_linkFault l code p hp hr) (congrArg _ hsame)
    fun e he _ => ((s.linkFault l code).goesDown_linkDown l).frame.events e he

end FaultDown

end Sys2Proof.Machine

namespace Sys2Proof.Machine

/-! ## Training (R52, R53, R56) -/

theorem laneWhole_iff (rx tx : BitVec 32) (l : Nat) : laneWhole rx tx l = true ↔ LaneOk rx tx l := by
  simp only [laneWhole, LaneOk, Bool.not_eq_true', Bool.or_eq_false_iff, and_assoc]

/-- Whether lanes b to b + 7 are whole (R53). -/
def halfWhole (rx tx : BitVec 32) (b : Nat) : Bool := (List.range 8).all fun l => laneWhole rx tx (b + l)

theorem halfWhole_iff (rx tx : BitVec 32) (b : Nat) : halfWhole rx tx b = true ↔ ∀ l < 8, LaneOk rx tx (b + l) := by
  simp only [halfWhole, List.all_eq_true, List.mem_range, laneWhole_iff]

theorem halfWhole_eq_false {rx tx : BitVec 32} {b : Nat} (h : ∃ l < 8, ¬ LaneOk rx tx (b + l)) : ¬ halfWhole rx tx b = true := by
  rw [halfWhole_iff]
  obtain ⟨l, hl, hbad⟩ := h
  exact fun hall => hbad (hall l hl)

/-- The end of training with a peer that has an identity of its own, by the halves that are whole. -/
theorem trainPort_peer {rx tx : BitVec 32} {f m : BitVec 12} (hne : f ≠ m) (h0 : f ≠ 0) : trainPort rx tx (some f) m =
    if halfWhole rx tx 0 ∧ halfWhole rx tx 8 then (.up, 0, 0xFFFF)
    else if halfWhole rx tx 0 then (.up, 1, 0xFF)
    else if halfWhole rx tx 8 then (.up, 1, 0xFF00)
    else (.down, 3, 0) := by
  unfold trainPort
  exact if_neg (not_or.mpr ⟨hne, h0⟩)

theorem trainingEnds : TrainingEnds := by
  have hlow {rx tx : BitVec 32} : halfWhole rx tx 0 = true ↔ ∀ l < 8, LaneOk rx tx l := by simp only [halfWhole_iff, Nat.zero_add]
  have hlow' {rx tx : BitVec 32} (h : ∃ l < 8, ¬ LaneOk rx tx l) : ¬ halfWhole rx tx 0 = true :=
    halfWhole_eq_false (by simpa only [Nat.zero_add] using h)
  refine ⟨fun rx tx m => rfl, fun rx tx f m h => ?_, fun rx tx f m hne h0 h => ?_, fun rx tx f m hne h0 h h' => ?_,
    fun rx tx f m hne h0 h h' => ?_, fun rx tx f m hne h0 h h' => ?_⟩
  · unfold trainPort
    exact if_pos h
  · rw [trainPort_peer hne h0, if_pos ⟨hlow.mpr fun l hl => h l (by omega), (halfWhole_iff ..).mpr fun l hl => h (8 + l) (by omega)⟩]
  · rw [trainPort_peer hne h0, if_neg fun hw => halfWhole_eq_false h' hw.2, if_pos (hlow.mpr h)]
  · rw [trainPort_peer hne h0, if_neg fun hw => hlow' h hw.1, if_neg (hlow' h), if_pos ((halfWhole_iff ..).mpr h')]
  · rw [trainPort_peer hne h0, if_neg fun hw => hlow' h hw.1, if_neg (hlow' h), if_neg (halfWhole_eq_false h')]

/-! ## Ports that leave and enter UP (R60, R69, R70) -/

section Port

variable (s : State) (q : Fin 48)

theorem LinkFrame.portLeaves (h : (s.fab.ports[q]).st = .up) :
    LinkFrame (s.updPort q fun k => { k with st := .training, retrain := satInc k.retrain, outSince := some s.chron }) (s.portLeaves q) := by
  have hint := LinkFrame.pfInt (s.updPort q fun k => { k with st := .training, retrain := satInc k.retrain, outSince := some s.chron }) 4
  unfold State.portLeaves
  dsimp only
  rw [if_neg (fun hn => hn h)]
  split
  · exact hint
  · split
    · exact hint.trans ((LinkFrame.updLink ..).trans (LinkFrame.schedL ..))
    · exact hint

theorem State.portLeaves_int (h : (s.fab.ports[q]).st = .up) : (s.portLeaves q).hif.intst.getLsb 4 = true := by
  unfold State.portLeaves
  dsimp only
  rw [if_neg (fun hn => hn h)]
  split
  · exact State.pfInt_self _ 4
  · split <;> exact State.pfInt_self _ 4

theorem State.portLeaves_of_not_up {s : State} {q : Fin 48} (h : (s.fab.ports[q]).st ≠ .up) : s.portLeaves q = s := if_pos h

theorem LinkFrame.portBack : LinkFrame (s.updPort q fun k => { k with outSince := none }) (s.portBack q) := by
  unfold State.portBack
  dsimp only
  split
  · exact LinkFrame.refl _
  · split
    · split
      · exact (LinkFrame.updLink ..).trans (LinkFrame.gapArm ..)
      · exact LinkFrame.refl _
    · exact LinkFrame.linkCheck ..

end Port
end Sys2Proof.Machine

namespace Sys2Proof.Machine

/-! ## One port (R53, R60, R69, R70) -/

theorem satInc_eq (x : BitVec 32) : satInc x = if x = 0xFFFFFFFF then 0xFFFFFFFF else x + 1 := by
  show (if x = 0xFFFFFFFF then x else x + 1) = _
  split
  next h => exact h
  next => rfl

/-- Only links, one port, the schedule and the link interrupt change; no event is lost and no interrupt is taken back. -/
structure PortFrame (q : Fin 48) (s t : State) : Prop where
  eq : t = { s with
    fab := { s.fab with links := t.fab.links, ports := t.fab.ports }, agenda := t.agenda
    hif := { s.hif with intst := t.hif.intst, msix := t.hif.msix } }
  others : ∀ r : Fin 48, r ≠ q → t.fab.ports[r] = s.fab.ports[r]
  ints : ∀ v : Fin 8, s.hif.intst.getLsb v = true → t.hif.intst.getLsb v = true

namespace PortFrame

variable {q : Fin 48} {s t u : State}

theorem trans (a : PortFrame q s t) (b : PortFrame q t u) : PortFrame q s u :=
  ⟨by have e := b.eq; rw [a.eq] at e; exact e, fun r h => (b.others r h).trans (a.others r h), fun v h => b.ints v (a.ints v h)⟩

theorem of_linkFrame (q : Fin 48) (h : LinkFrame s t) : PortFrame q s t :=
  ⟨by have e := h.eq; rw [e], fun r _ => by rw [h.ports], h.ints⟩

theorem updPort (s : State) (q : Fin 48) (f : Port → Port) : PortFrame q s (s.updPort q f) :=
  ⟨rfl, fun _ h => s.port_updPort_ne h f, fun _ h => h⟩

theorem portLeaves (s : State) (q : Fin 48) : PortFrame q s (s.portLeaves q) := by
  by_cases h : (s.fab.ports[q]).st = .up
  · exact (updPort ..).trans (of_linkFrame q (.portLeaves s q h))
  · rw [State.portLeaves_of_not_up h]
    exact of_linkFrame q (.refl s)

theorem portBack (s : State) (q : Fin 48) : PortFrame q s (s.portBack q) := (updPort ..).trans (of_linkFrame q (.portBack s q))

theorem parts (h : PortFrame q s t) : t.parts = s.parts := by rw [h.eq]
theorem helm (h : PortFrame q s t) : t.helm = s.helm := by rw [h.eq]

theorem sameUnits (h : PortFrame q s t) : SameUnits s t := by
  rw [h.eq]
  exact ⟨rfl, rfl, rfl, rfl, rfl, rfl, rfl, rfl, rfl⟩

end PortFrame

/-- An UP port as it leaves UP. -/
def Port.left (k : Port) (now : Nat) : Port :=
  if k.st = .up then { k with st := .training, retrain := satInc k.retrain, outSince := some now } else k

section Port

variable (s : State) (q : Fin 48)

theorem State.port_portLeaves : (s.portLeaves q).fab.ports[q] = (s.fab.ports[q]).left s.chron := by
  unfold Port.left
  by_cases h : (s.fab.ports[q]).st = .up
  · rw [(LinkFrame.portLeaves s q h).ports, State.port_updPort, if_pos h]
  · rw [State.portLeaves_of_not_up h, if_neg h]

theorem State.port_portBack : (s.portBack q).fab.ports[q] = { s.fab.ports[q] with outSince := none } := by
  rw [(LinkFrame.portBack s q).ports, State.port_updPort]

/-! ## The end of training (R53, R69, R70) -/

/-- A port as its training ends: what it comes out as is `r`, `was` what it was, and it was in `j` before. -/
def Port.trained (j : Port) (was : PortState) (r : PortState × BitVec 2 × BitVec 16) (rx : BitVec 32) (peer : Option (BitVec 12))
    (mine : BitVec 12) : Port :=
  { j with
    st := r.1, width := r.2.1, laneok := r.2.2, optfail := if peer.isSome then rx else BitVec.allOnes 32
    downstream := decide (mine.toNat < (peer.getD 0).toNat), wasUp := j.wasUp || r.1 == .up
    retrain := if r.1 = .training ∧ was ≠ .training ∧ was ≠ .up ∧ j.wasUp then satInc j.retrain else j.retrain }

/-- The module as the training of a port ends with `r`, before its link is looked at. -/
def State.portTrained (r : PortState × BitVec 2 × BitVec 16) (rx : BitVec 32) (peer : Option (BitVec 12)) : State :=
  let was := s.fab.ports[q].st
  let u := if r.1 = .up then s else s.portLeaves q
  let u := u.updPort q fun k => k.trained was r rx peer u.fab.fabid
  if was = r.1 then u else u.pfInt 4

theorem State.exec_portUp {s : State} (h : s.fab.fabid ≠ 0) (rx tx : BitVec 32) (peer : Option (BitVec 12)) :
    exec (.portUp q rx tx peer) s = .next (let r := trainPort rx tx peer s.fab.fabid
      let u := s.portTrained q r rx peer
      if r.1 = .up then u.portBack q else u) :=
  congrArg Host.Outcome.next (if_neg h)

section Ended

variable (r : PortState × BitVec 2 × BitVec 16) (rx : BitVec 32) (peer : Option (BitVec 12))

theorem PortFrame.portTrained : PortFrame q s (s.portTrained q r rx peer) := by
  have hleft : PortFrame q s (if r.1 = .up then s else s.portLeaves q) := by
    split
    · exact .of_linkFrame q (.refl s)
    · exact .portLeaves s q
  unfold State.portTrained
  dsimp only
  split
  · exact hleft.trans (.updPort _ q _)
  · exact (hleft.trans (.updPort _ q _)).trans (.of_linkFrame q (.pfInt _ 4))

theorem State.port_portTrained : (s.portTrained q r rx peer).fab.ports[q] =
    (if r.1 = .up then s.fab.ports[q] else (s.fab.ports[q]).left s.chron).trained (s.fab.ports[q]).st r rx peer s.fab.fabid := by
  have hfab (u : State) (c : Prop) [Decidable c] : (if c then u else u.pfInt 4).fab = u.fab := by
    split
    · rfl
    · exact State.pfInt_fab u 4
  have hid : (if r.1 = .up then s else s.portLeaves q).fab.fabid = s.fab.fabid := by
    split
    · rfl
    · rw [(PortFrame.portLeaves s q).eq]
  unfold State.portTrained
  dsimp only
  rw [hfab, State.port_updPort, hid]
  congr 1
  split
  · rfl
  · exact s.port_portLeaves q

theorem State.portTrained_int (h : r.1 ≠ (s.fab.ports[q]).st) : (s.portTrained q r rx peer).hif.intst.getLsb 4 = true := by
  unfold State.portTrained
  dsimp only
  rw [if_neg (Ne.symm h)]
  exact State.pfInt_self _ 4

/-- A port out of training: what it comes out as, and a count in RETRAIN where it was UP and is not. -/
structure Trains (k t : Port) (r : PortState × BitVec 2 × BitVec 16) (rx : BitVec 32) (peer : Option (BitVec 12)) (mine : BitVec 12) : Prop where
  ends : (t.st, t.width, t.laneok) = r
  heard : ∀ x, peer = some x → t.optfail = rx ∧ (t.downstream = true ↔ mine.toNat < x.toNat)
  counts : k.st = .up → t.st ≠ .up → t.retrain = satInc k.retrain
  malf : t.malf = k.malf

theorem Trains.portTrained : Trains s.fab.ports[q] (s.portTrained q r rx peer).fab.ports[q] r rx peer s.fab.fabid := by
  rw [State.port_portTrained]
  generalize s.fab.ports[q] = k
  refine ⟨rfl, fun x hx => ?_, fun hup hst => ?_, ?_⟩
  · subst hx
    exact ⟨rfl, decide_eq_true_iff⟩
  · have hr : ¬ r.1 = .up := hst
    simp [Port.trained, Port.left, hup, hr]
  · unfold Port.trained Port.left
    dsimp only
    (repeat' split) <;> rfl

/-- The count of the time out of UP is none of these. -/
theorem Trains.outSince {k t : Port} {mine : BitVec 12} (h : Trains k t r rx peer mine) : Trains k { t with outSince := none } r rx peer mine :=
  ⟨h.ends, h.heard, h.counts, h.malf⟩

end Ended

end Port
end Sys2Proof.Machine

namespace Sys2Proof.Machine

/-! ## Ports of a link (R56, R60) -/

theorem State.portLeaves_sched {s : State} {q : Fin 48} (h : (s.fab.ports[q]).st = .up) {l : LinkIx} {i : Nat}
    (hl : s.fab.linkOf q = some (l, i)) (hup : (s.fab.links[l]).st = .up) :
    ((s.portLeaves q).fab.links[l]).st = .up
      ∧ ∃ e ∈ (s.portLeaves q).agenda, e.cycle = s.chron + 2 ^ 22 ∧ e.link = l ∧ e.instr = .linkDownTimeout := by
  let u := s.updPort q fun k => { k with st := .training, retrain := satInc k.retrain, outSince := some s.chron }
  have hfab : (u.pfInt 4).fab = u.fab := u.pfInt_fab 4
  have hlu : (u.pfInt 4).fab.linkOf q = some (l, i) := by rw [hfab]; exact hl
  have hst : ((u.pfInt 4).fab.links[l]).st = .up := by rw [hfab]; exact hup
  have hq : s.portLeaves q = ((u.pfInt 4).updLink l fun k => { k with outFrom := some (k.outFrom.getD s.chron) }).schedL
      (s.chron + 2 ^ 22) l .linkDownTimeout := by
    unfold State.portLeaves
    rw [if_neg (fun hn => hn h)]
    show (match (u.pfInt 4).fab.linkOf q with | none => _ | some (l, _) => _) = _
    rw [hlu]
    exact if_pos hst
  rw [hq]
  have hlink := State.link_updLink (u.pfInt 4) l fun k => { k with outFrom := some (k.outFrom.getD s.chron) }
  exact ⟨(congrArg Link.st hlink).trans hst, _, mem_agendaPut .., rfl, rfl, rfl⟩

/-- Whether a member of a link has been out of UP for 2^22 cycles (R60). -/
def State.memberGone (s : State) (l : LinkIx) : Bool :=
  (s.fab.links[l]).ports.any fun q => if h : q < 48 then s.fab.ports[q].outSince.any fun t => decide (t + 2 ^ 22 ≤ s.chron) else false

theorem State.memberGone_iff (s : State) (l : LinkIx) : s.memberGone l = true ↔
    ∃ (q : Fin 48) (t : Nat), q.val ∈ (s.fab.links[l]).ports ∧ (s.fab.ports[q]).outSince = some t ∧ t + 2 ^ 22 ≤ s.chron := by
  unfold State.memberGone
  rw [List.any_eq_true]
  constructor
  · rintro ⟨q, hq, hout⟩
    split at hout
    next h =>
      obtain ⟨t, ht, hle⟩ := (Option.any_eq_true ..).mp hout
      exact ⟨⟨q, h⟩, t, hq, ht, of_decide_eq_true hle⟩
    next => exact absurd hout Bool.false_ne_true
  · rintro ⟨q, t, hq, ht, hle⟩
    refine ⟨q.val, hq, ?_⟩
    rw [dif_pos q.isLt]
    exact (Option.any_eq_true ..).mpr ⟨t, ht, decide_eq_true hle⟩

theorem State.exec_linkDownTimeout (s : State) : exec .linkDownTimeout s =
    .next (if (s.fab.links[s.curLink]).st = .up ∧ s.memberGone s.curLink then s.linkDown s.curLink else s) := rfl

end Sys2Proof.Machine

namespace Sys2Proof

open Machine

theorem portEvents : PortEvents := by
  refine ⟨trainingEnds, fun s q rx tx f h => ?_, fun s q rx tx f h => ?_, fun s h => ?_, fun s h => ?_, fun s h => ?_, fun s h0 hout hst => ?_,
    fun s q since hst hq hout hle => ?_, fun s h => ?_⟩
  · exact congrArg Host.Outcome.next (if_pos h)
  · have hu := PortFrame.portTrained s q (trainPort rx tx f s.fab.fabid) rx f
    have htrains := Trains.portTrained s q (trainPort rx tx f s.fab.fabid) rx f
    have hint := State.portTrained_int s q (trainPort rx tx f s.fab.fabid) rx f
    rw [State.exec_portUp q h]
    dsimp only
    generalize s.portTrained q (trainPort rx tx f s.fab.fabid) rx f = u at *
    generalize trainPort rx tx f s.fab.fabid = r at *
    have hend : ∃ t, (if r.1 = .up then u.portBack q else u) = t ∧ PortFrame q u t ∧ Trains s.fab.ports[q] t.fab.ports[q] r rx f s.fab.fabid := by
      split
      · exact ⟨_, rfl, .portBack u q, by rw [State.port_portBack]; exact htrains.outSince⟩
      · exact ⟨_, rfl, .of_linkFrame q (.refl u), htrains⟩
    obtain ⟨t, ht, hframe, htr⟩ := hend
    have hst : (t.fab.ports[q]).st = r.1 := congrArg Prod.fst htr.ends
    refine ⟨t, congrArg Host.Outcome.next ht, htr.ends, htr.heard, htr.counts, htr.malf, (hu.trans hframe).others, fun hne => ?_,
      (hu.trans hframe).sameUnits, (hu.trans hframe).parts, (hu.trans hframe).helm⟩
    exact hframe.ints 4 (hint (by rwa [← hst]))
  · refine ⟨s.portLeaves s.curLink, rfl, ?_, (PortFrame.portLeaves s s.curLink).others, s.portLeaves_int s.curLink h,
      (PortFrame.portLeaves s s.curLink).sameUnits, (PortFrame.portLeaves s s.curLink).parts, fun l i hl hup => State.portLeaves_sched h hl hup⟩
    rw [State.port_portLeaves, Port.left, if_pos h, satInc_eq]
  · exact congrArg Host.Outcome.next (if_pos h)
  · exact congrArg Host.Outcome.next (if_pos (h.imp_right fun h => h.imp_left fun h => by rw [h]; rfl))
  · have hu : PortFrame s.curLink s ((s.updPort s.curLink fun k => { k with st := .up }).pfInt 4) :=
      (PortFrame.updPort ..).trans (.of_linkFrame _ (.pfInt _ 4))
    have ht := hu.trans (.portBack _ _)
    have hgo : ¬ (s.fab.fabid = 0 ∨ (s.fab.ports[s.curLink]).outSince.isNone ∨ (s.fab.ports[s.curLink]).st = .up) := by
      exact not_or.mpr ⟨h0, not_or.mpr ⟨by simpa using Option.isSome_iff_ne_none.mp hout, hst⟩⟩
    refine ⟨_, congrArg Host.Outcome.next (if_neg hgo), ?_, ?_, ht.sameUnits, ht.parts⟩
    · rw [State.port_portBack, State.pfInt_fab, State.port_updPort]
    · exact (PortFrame.portBack ..).ints 4 (State.pfInt_self _ 4)
  · have hd := s.goesDown_linkDown s.curLink
    refine ⟨s.linkDown s.curLink, ?_, by rw [hd.link]; rfl, hd.linkEmpty, s.boundChecks_linkDown s.curLink, hd.int, hd.frame.sameUnits, hd.others⟩
    rw [State.exec_linkDownTimeout, if_pos ⟨hst, (s.memberGone_iff _).mpr ⟨q, since, hq, hout, hle⟩⟩]
  · rw [State.exec_linkDownTimeout, if_neg]
    rintro ⟨hst, hgone⟩
    obtain ⟨q, t, hq, hout, hle⟩ := (s.memberGone_iff _).mp hgone
    exact h.elim (fun h => h hst) fun h => absurd (h q t hq hout) (by omega)

end Sys2Proof

namespace Sys2Proof.Machine

/-! ## The host port (R47, R69, R79) -/

section HostPort

variable (s : State)

/-- The host port with a function applied, and the link interrupt where its state changes. -/
def State.hostTrained (f : Port → Port) : State :=
  if s.hif.hostPort.st = (f s.hif.hostPort).st then s.updHost f else (s.updHost f).pfInt 4

theorem State.hostTrained_eq (f : Port → Port) : s.hostTrained f = { s with hif := { s.hif with
    hostPort := f s.hif.hostPort, intst := (s.hostTrained f).hif.intst, msix := (s.hostTrained f).hif.msix } } := by
  unfold State.hostTrained
  split
  · rfl
  · rw [State.pfInt_eq]
    rfl

theorem State.hostTrained_int {f : Port → Port} (h : (f s.hif.hostPort).st ≠ s.hif.hostPort.st) : (s.hostTrained f).hif.intst.getLsb 4 = true := by
  unfold State.hostTrained
  rw [if_neg (Ne.symm h)]
  exact State.pfInt_self _ 4

/-- The lanes of the host port by how its training ends (R69). -/
def hostLanes : Training → BitVec 16
  | .x16 => 0xFFFF
  | .x8 => 0x00FF
  | .x4 => 0x000F
  | _ => 0

/-- The host port as its training ends. -/
def Port.hostEnds (k : Port) (how : Training) : Port :=
  { k with
    st := (Training.port how).1, width := (Training.port how).2, laneok := hostLanes how, wasUp := k.wasUp || (Training.port how).1 == .up
    retrain := if (Training.port how).1 = .up ∧ k.st ≠ .up ∧ k.wasUp then satInc k.retrain else k.retrain }

theorem State.exec_hostLinkUp (how : Training) : exec (.hostLinkUp how) s = .next (s.hostTrained fun k => k.hostEnds how) := by
  cases how <;> rfl

/-- A programmed IDE stream started or stopped. -/
theorem State.ideSet_some {s : State} {n : Nat} {x : IdeStream} (h : tget s.hif.ide n = some x) (on : Bool) :
    s.ideSet n on = { s with hif := { s.hif with ide := tput s.hif.ide n { x with on := on } } } := by
  unfold State.ideSet
  rw [h]

theorem State.ideSet_none {s : State} {n : Nat} (h : tget s.hif.ide n = none) (on : Bool) : s.ideSet n on = s := by
  unfold State.ideSet
  rw [h]

end HostPort

end Sys2Proof.Machine

namespace Sys2Proof

open Machine

theorem portReports : PortReports := by
  refine ⟨fun s => ?_, fun s q l i hl => ?_, fun s q => ⟨_, rfl⟩, fun s q => ⟨_, rfl⟩, fun s rx => ?_, fun s q => rfl, fun s q => rfl, fun s => rfl,
    fun s => rfl, fun x => rfl, fun s how => ?_, fun s => ?_, fun s => rfl, fun s fn k => rfl, fun s fn n => rfl, fun s fn off => ⟨_, rfl⟩,
    fun s fn o => ?_, fun s fn n sel key => rfl, fun s fn n x hx => ⟨congrArg _ (State.ideSet_some hx true), congrArg _ (State.ideSet_some hx false)⟩,
    fun s fn n hx => ⟨congrArg _ (State.ideSet_none hx true), congrArg _ (State.ideSet_none hx false)⟩, fun s fn => rfl, fun s fn off v => rfl⟩
  · have hf := s.faultsFrame_foldl 0x65 allParts
    exact ⟨_, rfl, hf.sameUnits, fun p hr => State.checks_foldl (List.nodup_finRange 48) (List.mem_finRange p) hr 0x65⟩
  · have hexec : exec (.ideIntegrityFailure (.opt q)) s = .next (s.linkFault l 0x65) := by
      show execIdeIntegrityFailure (.opt q) s = _
      unfold execIdeIntegrityFailure
      dsimp only
      rw [hl]
    have hf := s.faultsFrame_linkFault l 0x65
    refine ⟨_, hexec, hf.sameUnits, s.boundChecks_linkFault l 0x65, fun p hp => hf.others p fun hmem => ?_⟩
    rw [State.mem_boundTo, hp] at hmem
    exact Bool.false_ne_true hmem
  · cases rx
    · exact ⟨_, rfl⟩
    · exact ⟨_, rfl⟩
  · have hint := s.hostTrained_int (f := fun k => k.hostEnds how)
    refine ⟨_, s.exec_hostLinkUp how, ?_⟩
    rw [s.hostTrained_eq] at hint ⊢
    exact ⟨by cases how <;> rfl, by cases how <;> rfl, rfl, hint, ⟨rfl, rfl, rfl, rfl, rfl, rfl, rfl, rfl, rfl⟩, rfl, rfl, rfl⟩
  · let u := s.hostTrained fun k => { k with st := .down, width := 3, laneok := 0 }
    have hu : u = _ := s.hostTrained_eq _
    have hf := State.faultsFrame_foldl 0x68 allParts u
    have hport : u.hif.hostPort.st = .down := by rw [hu]
    have hunits : SameUnits s u := by rw [hu]; exact ⟨rfl, rfl, rfl, rfl, rfl, rfl, rfl, rfl, rfl⟩
    have hexec : exec .hostLinkDown s = .next (allParts.foldl (fun s p => s.partFault p 0x68) u) := rfl
    refine ⟨_, hexec, ?_, SameUnits.trans hunits hf.sameUnits, fun p hr => ?_⟩
    · rw [hf.eq]
      exact hport
    · have hr' : Running u p := by rw [hu]; exact hr
      exact Checks.of_chron (State.checks_foldl (List.nodup_finRange 48) (List.mem_finRange p) hr' 0x68) (by rw [hu])
  · cases o <;> rfl

/-- Settles O45: the ports part by part, and what they report. -/
theorem hostPort : Obligations.HostPort := ⟨portEvents, portReports⟩

end Sys2Proof

/-! # A peer link configured, trained and taken down (R56 to R60) -/

namespace Sys2Proof.Machine

/-! ## LINK_ENABLE (R57) -/

/-- A configuration a link may not have (R57). -/
def State.BadLink (s : State) (l : LinkIx) (k : Link) : Prop :=
  k.nmem = 3 ∨ (∃ q ∈ k.ports, 47 < q) ∨ ¬ k.ports.Nodup ∨ s.fab.fabid = 0
    ∨ ∃ m, m ≠ l ∧ s.fab.links[m].en = true ∧ ∃ q ∈ k.ports, q ∈ s.fab.links[m].ports

theorem State.linkRefused_iff (s : State) (l : LinkIx) (k : Link) : s.linkRefused l k = true ↔ s.BadLink l k := by
  have hothers : ((List.finRange 48).any fun m => m != l && s.fab.links[m].en && s.fab.links[m].ports.any fun q => k.ports.contains q) = true ↔
      ∃ m, m ≠ l ∧ s.fab.links[m].en = true ∧ ∃ q ∈ k.ports, q ∈ s.fab.links[m].ports := by
    simp only [List.any_eq_true, List.mem_finRange, true_and, Bool.and_eq_true, bne_iff_ne, ne_eq, List.contains_iff_mem, and_assoc,
      and_comm (a := _ ∈ k.ports)]
  unfold State.linkRefused State.BadLink
  dsimp only
  rw [Bool.or_eq_true, hothers]
  simp only [Bool.or_eq_true, beq_iff_eq, List.any_eq_true, decide_eq_true_eq, Bool.not_eq_true', decide_eq_false_iff_not, or_assoc]

/-- A member of a link as the link is enabled: one that is UP or trains stays as it is. -/
def Port.entered (x : Port) : Port :=
  if x.st = .up ∨ x.st = .training then x else { x with st := .training, retrain := if x.wasUp then satInc x.retrain else x.retrain }

theorem Port.entered_entered (x : Port) : x.entered.entered = x.entered := by
  by_cases h : x.st = .up ∨ x.st = .training
  · have hx : x.entered = x := if_pos h
    rw [hx, hx]
  · have hx : x.entered = { x with st := .training, retrain := if x.wasUp then satInc x.retrain else x.retrain } := if_neg h
    rw [hx]
    exact if_pos (.inr rfl)

theorem Port.entered_st (x : Port) : x.entered.st = if x.st = .up then .up else .training := by
  unfold Port.entered
  by_cases hup : x.st = .up
  · rw [if_pos (.inl hup), if_pos hup, hup]
  · rw [if_neg hup]
    split
    next h => exact h.resolve_left hup
    next => rfl

theorem Port.entered_retrain {x : Port} (hwas : x.wasUp = true) (hst : x.st = .down ∨ x.st = .dark) : x.entered.retrain = satInc x.retrain := by
  unfold Port.entered
  rcases hst with h | h <;> simp [h, hwas]

/-- The module as one member of a link enters training. -/
def State.enterPort (s : State) (q : Nat) : State :=
  if h : q < 48 then
    (if s.fab.ports[q].st = .up ∨ s.fab.ports[q].st = .training then s
      else s.updPort ⟨q, h⟩ fun x => { x with st := .training, retrain := if x.wasUp then satInc x.retrain else x.retrain })
  else s

theorem State.enterPort_eq (s : State) (q : Fin 48) : s.enterPort q.val = s.updPort q Port.entered := by
  unfold State.enterPort
  rw [dif_pos q.isLt]
  split
  next h => exact (State.updPort_eq_self (s := s) (q := q) (f := Port.entered) (if_pos h)).symm
  next h =>
    unfold State.updPort
    have hx : (s.fab.ports[q]).entered = _ := if_neg h
    rw [hx]

/-- The members of a link enter training, and nothing else changes. -/
theorem State.foldl_enterPort (l : List Nat) (s : State) : ∃ ps, l.foldl State.enterPort s = { s with fab := { s.fab with ports := ps } }
    ∧ ∀ q : Fin 48, ps[q] = if q.val ∈ l then (s.fab.ports[q]).entered else s.fab.ports[q] := by
  induction l generalizing s with
  | nil => exact ⟨s.fab.ports, rfl, fun q => rfl⟩
  | cons x l ih =>
    obtain ⟨ps, hps, hq⟩ := ih (s.enterPort x)
    rw [List.foldl_cons, hps]
    by_cases hx : x < 48
    · have hent : s.enterPort x = s.updPort ⟨x, hx⟩ Port.entered := s.enterPort_eq ⟨x, hx⟩
      refine ⟨ps, by rw [hent]; rfl, fun q => ?_⟩
      rw [hq, hent]
      by_cases hqx : q = ⟨x, hx⟩
      · subst hqx
        rw [State.port_updPort, Port.entered_entered, ite_self, if_pos List.mem_cons_self]
      · have hne : q.val ≠ x := fun e => hqx (Fin.ext e)
        rw [State.port_updPort_ne _ hqx]
        simp only [List.mem_cons, hne, false_or]
    · have hent : s.enterPort x = s := dif_neg hx
      refine ⟨ps, by rw [hent], fun q => ?_⟩
      have hne : q.val ≠ x := fun e => hx (e ▸ q.isLt)
      rw [hq, hent]
      simp only [List.mem_cons, hne, false_or]

/-- The HELLOs of a configuration, one on each member (R57). -/
def State.hellos (s : State) (k : Link) : List OutTlp :=
  (List.range k.members).map fun i => { id := 0, msg := some (0x01, BitVec.ofNat 24 (s.fab.fabid.toNat + 2 ^ 12 * i), 0), member := i }

/-- A link as it is enabled with a configuration. -/
def State.enabledLink (s : State) (k : Link) : Link :=
  { k with en := true, st := .training, hello := [], out := s.hellos k, waiting := [], held := [], todo := [], thawed := [] }

theorem State.linkEnable_bad {s : State} {l : LinkIx} {k : Link} (h : s.BadLink l k) :
    s.linkEnable l k = s.updLink l fun k => { k with en := false, err := true } :=
  if_pos ((s.linkRefused_iff l k).mpr h)

theorem State.linkEnable_good {s : State} {l : LinkIx} {k : Link} (h : ¬ s.BadLink l k) :
    s.linkEnable l k = (k.ports.foldl State.enterPort (s.updLink l fun _ => s.enabledLink k)).pfInt 4 :=
  if_neg fun hr => h ((s.linkRefused_iff l k).mp hr)

/-- A link enabled with a good configuration, its members in training. -/
theorem State.linkEnable_spec {s : State} {l : LinkIx} {k : Link} (h : ¬ s.BadLink l k) : ∃ ps,
    LinkFrame { s with fab := { s.fab with ports := ps } } (s.linkEnable l k) ∧ (s.linkEnable l k).fab.links[l] = s.enabledLink k
      ∧ (s.linkEnable l k).hif.intst.getLsb 4 = true
      ∧ ∀ q : Fin 48, ps[q] = if q.val ∈ k.ports then (s.fab.ports[q]).entered else s.fab.ports[q] := by
  obtain ⟨ps, hps, hq⟩ := State.foldl_enterPort k.ports (s.updLink l fun _ => s.enabledLink k)
  have hgo := State.linkEnable_good h
  rw [hps] at hgo
  rw [hgo]
  refine ⟨ps, .trans (.updLink _ l fun _ => s.enabledLink k) (.pfInt _ 4), ?_, State.pfInt_self _ 4, hq⟩
  rw [State.pfInt_fab]
  exact s.link_updLink l fun _ => s.enabledLink k

/-! ## LINK_DISABLE (R57) -/

/-- A link in DISABLED, which holds nothing. -/
def Link.closed (k : Link) : Link :=
  { k with en := false, st := .disabled, held := [], thawed := [], waiting := [], out := [], todo := [], hello := [], gapAt := none,
           outFrom := none, paused := 0, blocked := false }

section Disable

variable (s : State) (l : LinkIx)

theorem State.linkDisable_eq : s.linkDisable l =
    if (s.fab.links[l]).st = .disabled then s.updLink l Link.closed else (s.updLink l Link.closed).pfInt 4 := rfl

theorem State.linkDisable_fab : (s.linkDisable l).fab = (s.updLink l Link.closed).fab := by
  rw [State.linkDisable_eq]
  split
  · rfl
  · exact State.pfInt_fab _ 4

theorem LinkFrame.linkDisable : LinkFrame s (s.linkDisable l) := by
  rw [State.linkDisable_eq]
  split
  · exact .updLink ..
  · exact .trans (.updLink ..) (.pfInt _ 4)

theorem State.linkDisable_int {s : State} {l : LinkIx} (h : (s.fab.links[l]).st ≠ .disabled) : (s.linkDisable l).hif.intst.getLsb 4 = true := by
  rw [State.linkDisable_eq, if_neg h]
  exact State.pfInt_self _ 4

end Disable

end Sys2Proof.Machine

namespace Sys2Proof.Machine

/-! ## HELLO (R57, R58) -/

theorem Link.members_pos (k : Link) : 0 < k.members := Nat.two_pow_pos _

section Hello

variable {s : State} {l : LinkIx} {q : Nat} {f : BitVec 12}

/-- A link that has heard HELLO on a port. -/
def Link.greeted (k : Link) (q : Nat) : Link := { k with hello := q :: k.hello.filter (· != q) }

theorem State.helloOn_malf (h : (s.fab.links[l]).st ≠ .training ∨ q ∉ (s.fab.links[l]).ports) : s.helloOn l q f = s.malf q := by
  refine if_pos (h.imp_right fun h => .inl ?_)
  rwa [List.contains_iff_mem]

theorem State.helloOn_listens (ht : (s.fab.links[l]).st = .training) (hq : q ∈ (s.fab.links[l]).ports) : s.helloOn l q f =
    if f = (s.fab.links[l]).peer then (s.updLink l fun k => k.greeted q).linkCheck l
    else s.updLink l fun k => { k with err := true } := by
  refine if_neg ?_
  rintro (h | h | h)
  · exact h ht
  · exact h (List.contains_iff_mem.mpr hq)
  · exact absurd (s.fab.links[l]).members_pos (by omega)

/-- A link as it reaches UP. -/
def Link.opened (k : Link) : Link :=
  { k with st := .up, txSeq := 0, rxNext := 0, held := [], thawed := [], waiting := [], todo := [], gapAt := none, outFrom := none, paused := 0, blocked := false }

theorem State.linkCheck_opens (hst : (s.fab.links[l]).st = .training)
    (hall : ∀ r ∈ (s.fab.links[l]).ports, r ∈ (s.fab.links[l]).hello ∧ ∃ x : Fin 48, x.val = r ∧ (s.fab.ports[x]).st = .up) :
    s.linkCheck l = ((s.fab.links[l]).waiting.foldl (fun s t => (s.offer l t).1) (s.updLink l Link.opened)).pfInt 4 := by
  refine if_pos ⟨hst, List.all_eq_true.mpr fun r hr => ?_, List.all_eq_true.mpr fun r hr => List.contains_iff_mem.mpr (hall r hr).1⟩
  obtain ⟨-, x, rfl, hx⟩ := hall r hr
  rw [dif_pos x.isLt]
  exact beq_iff_eq.mpr hx

theorem State.linkCheck_waits (h : ∃ r ∈ (s.fab.links[l]).ports, r ∉ (s.fab.links[l]).hello) : s.linkCheck l = s := by
  obtain ⟨r, hr, hmiss⟩ := h
  refine if_neg ?_
  rintro ⟨-, -, hall⟩
  exact hmiss (List.contains_iff_mem.mp (List.all_eq_true.mp hall r hr))

end Hello

/-- What an offered packet leaves of a link. -/
theorem Link.offered_fields (k : Link) (t : OutTlp) : (k.offered t).st = k.st ∧ (k.offered t).rxNext = k.rxNext ∧ (k.offered t).held = k.held := by
  unfold Link.offered
  split <;> exact ⟨rfl, rfl, rfl⟩

theorem Link.foldl_offered_fields (ts : List OutTlp) (k : Link) :
    (ts.foldl Link.offered k).st = k.st ∧ (ts.foldl Link.offered k).rxNext = k.rxNext ∧ (ts.foldl Link.offered k).held = k.held := by
  induction ts generalizing k with
  | nil => exact ⟨rfl, rfl, rfl⟩
  | cons t ts ih =>
    obtain ⟨h1, h2, h3⟩ := ih (k.offered t)
    obtain ⟨g1, g2, g3⟩ := k.offered_fields t
    exact ⟨h1.trans g1, h2.trans g2, h3.trans g3⟩

theorem State.foldl_offer (l : LinkIx) (ts : List OutTlp) (s : State) :
    ts.foldl (fun s t => (s.offer l t).1) s = s.updLink l fun k => ts.foldl Link.offered k := by
  induction ts generalizing s with
  | nil => exact (State.updLink_eq_self rfl).symm
  | cons t ts ih => rw [List.foldl_cons, ih, State.offer_eq, State.updLink_updLink]; rfl

/-- A link that a HELLO on a port brings UP, with what was offered meanwhile in its sequence (R57, R58). -/
def Link.completed (k : Link) (q : Nat) : Link := k.waiting.foldl Link.offered (k.greeted q).opened

/-- A HELLO that completes a link in training brings it UP. -/
theorem State.helloOn_opens {s : State} {l : LinkIx} {q : Nat} (ht : (s.fab.links[l]).st = .training) (hq : q ∈ (s.fab.links[l]).ports)
    (hall : ∀ r ∈ (s.fab.links[l]).ports, (r = q ∨ r ∈ (s.fab.links[l]).hello) ∧ ∃ x : Fin 48, x.val = r ∧ (s.fab.ports[x]).st = .up) :
    s.helloOn l q (s.fab.links[l]).peer = (s.updLink l fun k => k.completed q).pfInt 4 := by
  have hlink := s.link_updLink l fun k => k.greeted q
  rw [State.helloOn_listens ht hq, if_pos rfl, State.linkCheck_opens (by rw [hlink]; exact ht), State.foldl_offer, State.updLink_updLink,
    State.updLink_updLink, hlink]
  · unfold State.updLink
    rfl
  · intro r hr
    rw [hlink] at hr ⊢
    obtain ⟨hmem, hup⟩ := hall r hr
    refine ⟨?_, hup⟩
    by_cases hrq : r = q
    · exact List.mem_cons.mpr (.inl hrq)
    · exact List.mem_cons.mpr (.inr (List.mem_filter.mpr ⟨hmem.resolve_left hrq, bne_iff_ne.mpr hrq⟩))

/-! ## The gap timeout (R59) -/

/-- A gap times out no later than 2^20 counted cycles after the arrival of any later packet. -/
theorem foldl_gapDue_le {b : Nat} (l : List (BitVec 16 × Nat × Tlp)) (a : Option Nat)
    (h : (∃ m, a = some m ∧ m ≤ b) ∨ ∃ x ∈ l, x.2.1 + gapLimit ≤ b) :
    ∃ due, l.foldl (fun a x => match a with
      | none => some (x.2.1 + gapLimit)
      | some m => some (min m (x.2.1 + gapLimit))) a = some due ∧ due ≤ b := by
  induction l generalizing a with
  | nil => exact h.elim id fun ⟨x, hx, _⟩ => absurd hx List.not_mem_nil
  | cons y l ih =>
    rw [List.foldl_cons]
    refine ih _ ?_
    rcases h with ⟨m, rfl, hm⟩ | ⟨x, hx, hle⟩
    · exact .inl ⟨_, rfl, by omega⟩
    · rcases List.mem_cons.mp hx with rfl | hx
      · cases a with
        | none => exact .inl ⟨_, rfl, hle⟩
        | some m => exact .inl ⟨_, rfl, by omega⟩
      · exact .inr ⟨x, hx, hle⟩

theorem Link.gapDue_le {k : Link} {x : BitVec 16 × Nat × Tlp} {b : Nat} (hx : x ∈ k.held) (hle : x.2.1 + 2 ^ 20 ≤ b) :
    ∃ due, k.gapDue = some due ∧ due ≤ b := foldl_gapDue_le k.held none (.inr ⟨x, hx, hle⟩)

/-! ## What the events of a link run -/

section Events

variable {s : State}

theorem State.exec_linkEnable (h : (s.fab.links[s.curLink]).en = false) :
    exec .linkEnable s = .next (s.linkEnable s.curLink s.fab.links[s.curLink]) :=
  congrArg Host.Outcome.next (if_neg (by rw [h]; decide))

theorem State.exec_hello (l : LinkIx) (q : Fin 48) (f : BitVec 12) : exec (.hello l q f) s = .next (s.helloOn l q.val f) := rfl

theorem State.exec_stripeGapTimeout_up {due : Nat} (hst : (s.fab.links[s.curLink]).st = .up) (hout : (s.fab.links[s.curLink]).outFrom = none)
    (hdue : (s.fab.links[s.curLink]).gapDue = some due) (hle : due ≤ s.chron - (s.fab.links[s.curLink]).paused) :
    exec .stripeGapTimeout s = .next ((s.linkFault s.curLink 0x62).linkDown s.curLink) := by
  show execStripeGapTimeout s = _
  unfold execStripeGapTimeout
  dsimp only
  rw [if_neg (not_or.mpr ⟨fun h => h hst, fun h => by rw [hout] at h; cases h⟩), hdue]
  have hcount : (s.fab.links[s.curLink]).count s.chron = s.chron - (s.fab.links[s.curLink]).paused := by rw [Link.count, hout]; rfl
  exact congrArg Host.Outcome.next (if_pos (by rwa [hcount]))

theorem State.exec_stripeGapTimeout_idle
    (h : (s.fab.links[s.curLink]).st ≠ .up ∨ (s.fab.links[s.curLink]).held = [] ∨ (s.fab.links[s.curLink]).outFrom ≠ none) :
    exec .stripeGapTimeout s = .next s := by
  show execStripeGapTimeout s = _
  unfold execStripeGapTimeout
  dsimp only
  split
  · rfl
  next hgo =>
    obtain ⟨hst, hout⟩ := not_or.mp hgo
    rcases h with h | h | h
    · exact absurd h hst
    · rw [Link.gapDue_of_held_nil h]
    · exact absurd (Option.isSome_iff_ne_none.mpr h) hout

end Events

end Sys2Proof.Machine

namespace Sys2Proof

open Machine

/-- Settles O46: a configuration by whether it is bad (`State.BadLink`), a HELLO by whether it completes the link, a gap by its oldest packet. -/
theorem peerLinks : Obligations.PeerLinks := by
  refine ⟨fun s h => ?_, fun s hen hbad => ?_, fun s hen hn hle hnd hid hfree => ?_, fun s => ?_, fun s l q ht hq hall => ?_,
    fun s l q ht hq hmiss => ?_, fun s l q f ht hq hne => ?_, fun s l q f h => ?_, fun s x hst hout hx hle => ?_, fun s h => ?_⟩
  · exact congrArg Host.Outcome.next (if_pos h)
  · rw [State.exec_linkEnable hen, State.linkEnable_bad hbad]
  · have hgood : ¬ s.BadLink s.curLink s.fab.links[s.curLink] := by
      rintro (h | ⟨q, hq, h⟩ | h | h | ⟨m, hm, hmen, q, hq, h⟩)
      · exact hn h
      · exact absurd (hle q hq) (by omega)
      · exact h hnd
      · exact hid h
      · exact hfree m hm hmen q hq h
    obtain ⟨ps, hf, hlink, hint, hports⟩ := State.linkEnable_spec hgood
    refine ⟨_, State.exec_linkEnable hen, ?_, ?_, ?_, ?_, ?_, fun q hmem => ?_, fun q hmem => ?_, hint, hf.sameUnits, hf.parts⟩
    · rw [hlink]; rfl
    · rw [hlink]; rfl
    · rw [hlink]; rfl
    · rw [hlink]; rfl
    · rw [hlink]; rfl
    · have hq : (s.linkEnable s.curLink s.fab.links[s.curLink]).fab.ports[q] = (s.fab.ports[q]).entered := by
        rw [hf.ports, hports, if_pos hmem]
      rw [hq]
      exact ⟨Port.entered_st _, Port.entered_retrain⟩
    · rw [hf.ports, hports, if_neg hmem]
  · have hf := LinkFrame.linkDisable s s.curLink
    have hlink : (s.linkDisable s.curLink).fab.links[s.curLink] = (s.fab.links[s.curLink]).closed := by
      rw [State.linkDisable_fab, State.link_updLink]
    refine ⟨s.linkDisable s.curLink, rfl, by rw [hlink]; rfl, by rw [hlink]; rfl, ?_, State.linkDisable_int, fun m hm => ?_, hf.ports,
      hf.sameUnits, hf.parts⟩
    · rw [hlink]
      exact ⟨rfl, rfl, rfl, rfl⟩
    · rw [State.linkDisable_fab, State.link_updLink_ne _ hm]
  · obtain ⟨hst, hrx, hheld⟩ := Link.foldl_offered_fields (s.fab.links[l]).waiting ((s.fab.links[l]).greeted q.val).opened
    have hlink : ((s.updLink l fun k => k.completed q.val).pfInt 4).fab.links[l] = (s.fab.links[l]).completed q.val := by
      rw [State.pfInt_fab, State.link_updLink]
    have hf : LinkFrame s ((s.updLink l fun k => k.completed q.val).pfInt 4) := .trans (.updLink ..) (.pfInt _ 4)
    refine ⟨_, congrArg Host.Outcome.next (State.helloOn_opens ht hq hall), ?_, ?_, fun hw => ?_, ?_, State.pfInt_self _ 4, hf.sameUnits, hf.parts⟩
    · rw [hlink]; exact hst
    · rw [hlink]; exact hrx
    · rw [hlink, Link.completed, hw]; rfl
    · rw [hlink]; exact hheld
  · obtain ⟨r, hr, hne, hmissing⟩ := hmiss
    have hwaits : (s.updLink l fun k => k.greeted q.val).linkCheck l = s.updLink l fun k => k.greeted q.val := by
      refine State.linkCheck_waits ?_
      rw [State.link_updLink]
      refine ⟨r, hr, fun hmem => ?_⟩
      rcases List.mem_cons.mp hmem with h | h
      · exact hne h
      · exact hmissing (List.mem_filter.mp h).1
    rw [State.exec_hello, State.helloOn_listens ht hq, if_pos rfl, hwaits]
    rfl
  · rw [State.exec_hello, State.helloOn_listens ht hq, if_neg hne]
  · rw [State.exec_hello, State.helloOn_malf h]
    exact congrArg Host.Outcome.next (dif_pos q.isLt)
  · obtain ⟨due, hdue, hle⟩ := Link.gapDue_le hx hle
    have hd := s.goesDown_faultDown s.curLink 0x62
    refine ⟨(s.linkFault s.curLink 0x62).linkDown s.curLink, ?_, by rw [hd.link]; rfl, hd.linkEmpty, s.boundChecks_faultDown s.curLink 0x62,
      hd.frame.sameUnits⟩
    exact State.exec_stripeGapTimeout_up hst hout hdue hle
  · exact State.exec_stripeGapTimeout_idle h

end Sys2Proof

/-! # Messages and requests of peers, and the freeze wire (R59 to R66, R121, R147, R164) -/

namespace Sys2Proof.Machine

/-! ## Links with nothing to deliver -/

/-- A link that holds no packet. -/
def Link.Quiet (k : Link) : Prop := k.held = [] ∧ k.thawed = [] ∧ k.todo = [] ∧ k.gapAt = none ∧ k.blocked = false

/-- A link whose held packets have acted already (R65). -/
def Link.Settled (k : Link) : Prop := k.todo = [] ∧ ∀ x ∈ k.held, x.1 ∈ k.thawed

theorem Link.Quiet.settled {k : Link} (h : k.Quiet) : k.Settled := by
  obtain ⟨hheld, -, htodo, -⟩ := h
  exact ⟨htodo, by rw [hheld]; exact fun x hx => absurd hx List.not_mem_nil⟩

theorem foldl_eq_self {α β : Type} {f : β → α → β} {s : β} {l : List α} (h : ∀ a ∈ l, f s a = s) : l.foldl f s = s := by
  induction l with
  | nil => rfl
  | cons a l ih =>
    rw [List.foldl_cons, h a List.mem_cons_self]
    exact ih fun b hb => h b (List.mem_cons_of_mem a hb)

section Resume

variable {s : State} {l : LinkIx}

theorem State.drain_of_todo_nil (h : (s.fab.links[l]).todo = []) (n : Nat) : s.drain l n = s := by
  cases n with
  | zero => rfl
  | succ n =>
    rw [State.drain]
    rw [h]

theorem State.gapArm_of_held_nil (hheld : (s.fab.links[l]).held = []) (hgap : (s.fab.links[l]).gapAt = none) : s.gapArm l = s := by
  unfold State.gapArm
  dsimp only
  rw [Link.gapDue_of_held_nil hheld]
  refine State.updLink_eq_self ?_
  rw [← hgap]

theorem State.pump_of_quiet (h : (s.fab.links[l]).Quiet) (n : Nat) : s.pump l n = s := by
  obtain ⟨hheld, -, -, hgap, -⟩ := h
  cases n with
  | zero => rfl
  | succ n =>
    rw [State.pump]
    dsimp only
    rw [hheld, List.find?_nil]
    dsimp only
    rw [State.gapArm_of_held_nil hheld hgap, ite_self]

theorem State.resumeLink_of_quiet (h : (s.fab.links[l]).Quiet) : s.resumeLink l = s := by
  unfold State.resumeLink
  dsimp only
  rw [State.drain_of_todo_nil h.2.2.1, State.pump_of_quiet h]

theorem State.resumeAll_of_quiet (h : LinksQuiet s) : s.resumeAll = s := by
  unfold State.resumeAll
  split
  · rfl
  · exact foldl_eq_self fun l _ => State.resumeLink_of_quiet (h l)

/-- With nothing held on the other links, the delivery of one is all of it. -/
theorem State.resumeAll_of_others (hf : s.isFrozen = false) (hq : ∀ m, m ≠ l → (s.fab.links[m]).Quiet)
    (ht : ∀ m, m ≠ l → ((s.resumeLink l).fab.links[m]).Quiet) : s.resumeAll = s.resumeLink l := by
  obtain ⟨l₁, l₂, hl⟩ := List.append_of_mem (List.mem_finRange l)
  have hnd := List.nodup_finRange 48
  rw [hl] at hnd
  obtain ⟨hnot, -⟩ := List.nodup_cons.mp (List.nodup_middle.mp hnd)
  unfold State.resumeAll
  rw [hf, if_neg Bool.false_ne_true, hl, List.foldl_append, List.foldl_cons,
    foldl_eq_self fun m hm => State.resumeLink_of_quiet (hq m fun e => hnot (e ▸ List.mem_append_left _ hm))]
  exact foldl_eq_self fun m hm => State.resumeLink_of_quiet (ht m fun e => hnot (e ▸ List.mem_append_right _ hm))

end Resume

/-- Links alone change, and each whose packets had acted stays one. -/
def Settles (s t : State) : Prop := LinkFrame s t ∧ ∀ m : LinkIx, (t.fab.links[m]).Settled

section Settled

variable {s : State} (h : ∀ m : LinkIx, (s.fab.links[m]).Settled)
include h

theorem State.settles_updLink (l : LinkIx) {f : Link → Link} (hf : (f s.fab.links[l]).Settled) : Settles s (s.updLink l f) := by
  refine ⟨.updLink s l f, fun m => ?_⟩
  by_cases hm : m = l
  · subst hm
    rwa [State.link_updLink]
  · rw [State.link_updLink_ne _ hm]
    exact h m

theorem State.settles_gapArm (l : LinkIx) : Settles s (s.gapArm l) := by
  unfold State.gapArm
  dsimp only
  split
  · exact State.settles_updLink h l (h l)
  · split
    · exact ⟨.refl s, h⟩
    · obtain ⟨hf, hs⟩ := State.settles_updLink h l (f := fun k => { k with gapAt := some _ }) (h l)
      exact ⟨hf.trans (.schedL ..), hs⟩

/-- A packet that has acted is not delivered again. -/
theorem State.settles_pump (l : LinkIx) (n : Nat) : Settles s (s.pump l n) := by
  induction n generalizing s with
  | zero => exact ⟨.refl s, h⟩
  | succ n ih =>
    rw [State.pump]
    dsimp only
    split
    · exact ⟨.refl s, h⟩
    · split
      · exact State.settles_gapArm h l
      next x hx =>
        have hmem := (h l).2 x (List.mem_of_find?_eq_some hx)
        rw [if_pos (List.contains_iff_mem.mpr hmem)]
        obtain ⟨hf, hs⟩ := State.settles_updLink h l (f := fun k => { k with
          rxNext := k.rxNext + 1, held := k.held.filter (fun y => y.1 != x.1), thawed := k.thawed.filter (· != x.1) })
          ⟨(h l).1, fun y hy => List.mem_filter.mpr ⟨(h l).2 y (List.mem_filter.mp hy).1, (List.mem_filter.mp hy).2⟩⟩
        obtain ⟨hf', hs'⟩ := ih hs
        exact ⟨hf.trans hf', hs'⟩

theorem State.settles_resumeLink (l : LinkIx) : Settles s (s.resumeLink l) := by
  unfold State.resumeLink
  dsimp only
  rw [State.drain_of_todo_nil (h l).1]
  exact State.settles_pump h l _

theorem State.settles_resumeAll : Settles s s.resumeAll := by
  unfold State.resumeAll
  split
  · exact ⟨.refl s, h⟩
  · generalize List.finRange 48 = ls
    induction ls generalizing s with
    | nil => exact ⟨.refl s, h⟩
    | cons l ls ih =>
      obtain ⟨hf, hs⟩ := State.settles_resumeLink h l
      obtain ⟨hf', hs'⟩ := ih hs (by rw [hf.isFrozen]; assumption)
      exact ⟨hf.trans hf', hs'⟩

end Settled

end Sys2Proof.Machine

namespace Sys2Proof.Machine

/-! ## Packets in order (R58, R59) -/

theorem State.updLink_congr {s : State} {l : LinkIx} {f g : Link → Link} (h : f s.fab.links[l] = g s.fab.links[l]) :
    s.updLink l f = s.updLink l g := by
  unfold State.updLink
  rw [h]

/-- A link as the held packet numbered n is delivered. -/
def Link.taken (k : Link) (n : BitVec 16) : Link :=
  { k with rxNext := k.rxNext + 1, held := k.held.filter (fun y => y.1 != n), thawed := k.thawed.filter (· != n) }

/-- A link with a packet held. -/
def Link.received (k : Link) (n : BitVec 16) (at_ : Nat) (tlp : Tlp) : Link := { k with held := k.held ++ [(n, at_, tlp)] }

/-- A link that awaits the next packet but one. -/
def Link.passed (k : Link) : Link := { k with rxNext := k.rxNext + 1 }

theorem Link.taken_received {k : Link} (h : k.Quiet) (at_ : Nat) (tlp : Tlp) : (k.received k.rxNext at_ tlp).taken k.rxNext = k.passed := by
  obtain ⟨hheld, hthawed, -⟩ := h
  simp [Link.taken, Link.received, Link.passed, hheld, hthawed]

section Arrival

variable {s : State} {l : LinkIx}

theorem State.deliverOrWait_clear (hb : (s.fab.links[l]).blocked = false) (ht : (s.fab.links[l]).todo = []) (q : Nat) (tlp : Tlp) :
    s.deliverOrWait l q tlp = s.deliver l q tlp := by
  unfold State.deliverOrWait
  dsimp only
  rw [hb, ht]
  rfl

theorem State.pump_next {x : BitVec 16 × Nat × Tlp} (hf : s.isFrozen = false) (hst : (s.fab.links[l]).st = .up)
    (hx : (s.fab.links[l]).held.find? (fun y => y.1 == (s.fab.links[l]).rxNext) = some x) (hnew : x.1 ∉ (s.fab.links[l]).thawed) (n : Nat) :
    s.pump l (n + 1) = ((s.updLink l fun k => k.taken x.1).deliverOrWait l
      ((s.fab.links[l]).member (x.1.toNat % (s.fab.links[l]).members)) x.2.2).pump l n := by
  rw [State.pump]
  dsimp only
  rw [if_neg (not_or.mpr ⟨by rw [hf]; exact Bool.false_ne_true, fun h => h hst⟩), hx]
  dsimp only
  rw [if_neg (by rwa [List.contains_iff_mem])]
  rfl

/-- A packet that comes in order passes at once to delivery. -/
theorem State.resumeLink_in_order (hf : s.isFrozen = false) (hq : (s.fab.links[l]).Quiet) (hst : (s.fab.links[l]).st = .up) (at_ : Nat) (tlp : Tlp) :
    (s.updLink l fun k => k.received k.rxNext at_ tlp).resumeLink l = ((s.updLink l Link.passed).deliver l
      ((s.fab.links[l]).member ((s.fab.links[l]).rxNext.toNat % (s.fab.links[l]).members)) tlp).pump l 1 := by
  have hlink := s.link_updLink l fun k => k.received k.rxNext at_ tlp
  have htaken : (s.updLink l fun k => k.received k.rxNext at_ tlp).updLink l (fun k => k.taken (s.fab.links[l]).rxNext)
      = s.updLink l Link.passed := by
    rw [State.updLink_updLink]
    exact State.updLink_congr (Link.taken_received hq at_ tlp)
  obtain ⟨hheld, hthawed, htodo, hgap, hblocked⟩ := hq
  have hone : ((s.fab.links[l]).received (s.fab.links[l]).rxNext at_ tlp).held = [((s.fab.links[l]).rxNext, at_, tlp)] := by
    rw [Link.received, hheld]
    rfl
  unfold State.resumeLink
  dsimp only
  rw [State.drain_of_todo_nil (by rw [hlink]; exact htodo), hlink, hone,
    State.pump_next (s := s.updLink l fun k => k.received k.rxNext at_ tlp) (x := ((s.fab.links[l]).rxNext, at_, tlp)) hf (by rw [hlink]; exact hst)
      (by rw [hlink, hone]; exact List.find?_cons_of_pos (beq_self_eq_true _)) (by rw [hlink]; show _ ∉ (s.fab.links[l]).thawed; rw [hthawed]; exact List.not_mem_nil),
    htaken, hlink, State.deliverOrWait_clear (by rw [State.link_updLink]; exact hblocked) (by rw [State.link_updLink]; exact htodo)]
  rfl

theorem State.updLink_quiet (hq : LinksQuiet s) {f : Link → Link} (hf : (f s.fab.links[l]).Quiet) : LinksQuiet (s.updLink l f) := fun m => by
  by_cases hm : m = l
  · subst hm
    rwa [State.link_updLink]
  · rw [State.link_updLink_ne _ hm]
    exact hq m

/-- A STAGE packet in order, with no other packet anywhere, writes its word. -/
theorem State.resumeAll_stage (hf : s.isFrozen = false) (hq : LinksQuiet s) (hst : (s.fab.links[l]).st = .up) (at_ : Nat) (arg : BitVec 24)
    (pay : BitVec 32) : (s.updLink l fun k => k.received k.rxNext at_ (.message 0x10 arg pay)).resumeAll =
      (s.updLink l Link.passed).stageTo (Fin.ofNat 64 arg.toNat) pay := by
  have hpassed : LinksQuiet ((s.updLink l Link.passed).stageTo (Fin.ofNat 64 arg.toNat) pay) := State.updLink_quiet hq (hq l)
  have hdeliver (q : Nat) : (s.updLink l Link.passed).deliver l q (.message 0x10 arg pay) = (s.updLink l Link.passed).stageTo (Fin.ofNat 64 arg.toNat) pay := by
    show State.stageTo _ _ (BitVec.ofNat 32 pay.toNat) = _
    rw [BitVec.ofNat_toNat, BitVec.setWidth_eq]
  have hone : (s.updLink l fun k => k.received k.rxNext at_ (.message 0x10 arg pay)).resumeLink l =
      (s.updLink l Link.passed).stageTo (Fin.ofNat 64 arg.toNat) pay := by
    rw [State.resumeLink_in_order hf (hq l) hst, hdeliver, State.pump_of_quiet (hpassed l)]
  rw [State.resumeAll_of_others (s := s.updLink l fun k => k.received k.rxNext at_ (.message 0x10 arg pay)) (l := l) hf
    (fun m hm => by rw [State.link_updLink_ne _ hm]; exact hq m) (fun m _ => by rw [hone]; exact hpassed m), hone]

end Arrival

/-! ## The arrival of a packet (R59, R65) -/

section Member

variable {s : State} {l : LinkIx} {q : Fin 48} {seq : BitVec 16}

/-- A packet has come on its own member. -/
def State.arrived (s : State) (l : LinkIx) (seq : BitVec 16) (tlp : Tlp) : State := s.updLink l fun k => k.received seq (k.count s.chron) tlp

/-- A link whose packet acts ahead of its delivery. -/
def Link.acted (k : Link) (n : BitVec 16) : Link := { k with thawed := n :: k.thawed.filter (· != n) }

section Own

variable (hst : (s.fab.links[l]).st = .up) (hm : (s.fab.links[l]).member (seq.toNat % (s.fab.links[l]).members) = q.val)
include hst hm

/-- What a packet on its own member does on a link that is UP. -/
theorem State.exec_peerTlpArrival_own (tlp : Tlp) : exec (.peerTlpArrival l q seq tlp) s = .next (
    let u := s.arrived l seq tlp
    let u := if u.isFrozen ∧ isThaw tlp then (u.updLink l fun k => k.acted seq).thawOn l q.val else u
    if u.isFrozen then u else u.resumeAll) := by
  show execPeerTlpArrival l q seq tlp s = _
  unfold execPeerTlpArrival
  dsimp only
  rw [if_neg (fun h => h hst), if_neg (fun h => h hm)]
  rfl

theorem State.exec_peerTlpArrival_clear (hf : s.isFrozen = false) (tlp : Tlp) :
    exec (.peerTlpArrival l q seq tlp) s = .next (s.arrived l seq tlp).resumeAll := by
  have hclear : ¬ (s.arrived l seq tlp).isFrozen = true := fun h => Bool.false_ne_true (hf.symm.trans h)
  have hno : ¬ ((s.arrived l seq tlp).isFrozen = true ∧ isThaw tlp = true) := fun h => hclear h.1
  rw [State.exec_peerTlpArrival_own hst hm]
  dsimp only
  rw [if_neg hno, if_neg hclear]

theorem State.exec_peerTlpArrival_frozen (hf : s.isFrozen = true) {tlp : Tlp} (ht : isThaw tlp = false) :
    exec (.peerTlpArrival l q seq tlp) s = .next (s.arrived l seq tlp) := by
  have hfrozen : (s.arrived l seq tlp).isFrozen = true := hf
  have hno : ¬ ((s.arrived l seq tlp).isFrozen = true ∧ isThaw tlp = true) := fun h => Bool.false_ne_true (ht.symm.trans h.2)
  rw [State.exec_peerTlpArrival_own hst hm]
  dsimp only
  rw [if_neg hno, if_pos hfrozen]

/-- A THAW acts before delivery goes on (R65). -/
theorem State.exec_peerTlpArrival_act (hf : s.isFrozen = true) {tlp : Tlp} (ht : isThaw tlp = true)
    (hfree : (((s.arrived l seq tlp).updLink l fun k => k.acted seq).thawOn l q.val).isFrozen = false) : exec (.peerTlpArrival l q seq tlp) s =
      .next (((s.arrived l seq tlp).updLink l fun k => k.acted seq).thawOn l q.val).resumeAll := by
  have hthaw : (s.arrived l seq tlp).isFrozen = true ∧ isThaw tlp = true := ⟨hf, ht⟩
  have hclear : ¬ (((s.arrived l seq tlp).updLink l fun k => k.acted seq).thawOn l q.val).isFrozen = true :=
    fun h => Bool.false_ne_true (hfree.symm.trans h)
  rw [State.exec_peerTlpArrival_own hst hm]
  dsimp only
  rw [if_pos hthaw, if_neg hclear]

end Own

theorem State.exec_peerTlpArrival_stray (hst : (s.fab.links[l]).st = .up)
    (hm : (s.fab.links[l]).member (seq.toNat % (s.fab.links[l]).members) ≠ q.val) (tlp : Tlp) :
    exec (.peerTlpArrival l q seq tlp) s = .next ((s.linkFault l 0x62).linkDown l) := by
  show execPeerTlpArrival l q seq tlp s = _
  unfold execPeerTlpArrival
  dsimp only
  rw [if_neg (fun h => h hst), if_pos hm]

end Member

end Sys2Proof.Machine

namespace Sys2Proof.Machine

/-! ## The release of the freeze wire (R65, R164) -/

theorem agendaPut_perm (a : List Ev) (e : Ev) : (agendaPut a e).Perm (e :: a) := by
  induction a with
  | nil => exact .refl _
  | cons x a ih =>
    rw [agendaPut]
    split
    · exact .refl _
    · exact (ih.cons x).trans (.swap e x a)

theorem foldl_agendaPut_perm (l a : List Ev) : (l.foldl agendaPut a).Perm (l ++ a) := by
  induction l generalizing a with
  | nil => exact .refl _
  | cons e l ih => exact ((ih _).trans ((agendaPut_perm a e).append_left l)).trans List.perm_middle

/-- The schedule as the wire is released. -/
def State.thawedAgenda (s : State) : List Ev :=
  (s.agenda.map fun e => if helmEvent e.instr && decide (s.chron < e.cycle) then e.thawed s.chron s.frozen else e).foldl agendaPut []

theorem State.thawedAgenda_perm (s : State) : s.thawedAgenda.Perm
    (s.agenda.map fun e => if helmEvent e.instr && decide (s.chron < e.cycle) then e.thawed s.chron s.frozen else e) := by
  have h := foldl_agendaPut_perm (s.agenda.map fun e =>
    if helmEvent e.instr && decide (s.chron < e.cycle) then e.thawed s.chron s.frozen else e) []
  rwa [List.append_nil] at h

theorem State.mem_thawedAgenda {s : State} {e : Ev} (he : e ∈ s.agenda) :
    (if helmEvent e.instr && decide (s.chron < e.cycle) then e.thawed s.chron s.frozen else e) ∈ s.thawedAgenda :=
  s.thawedAgenda_perm.mem_iff.mpr (List.mem_map_of_mem he)

theorem State.released_of_clear {s : State} (h : s.isFrozen = false) : s.released = { s with
    agenda := s.thawedAgenda
    inputs := s.inputs.map fun e => if s.chron < e.cycle then e.thawed s.chron s.frozen else e
    occurs := s.occurs.map fun o => if s.chron < o.cycle then { o with cycle := max s.chron (o.cycle - s.frozen) } else o
    helm := { s.helm with scAt := s.helm.scAt - s.frozen }
    frozen := 0 } := by
  unfold State.released
  rw [h]
  rfl

/-- What the wire withheld counts on as neither side holds the wire. -/
theorem State.thawed_released (s : State) {c m : Bool} (hf : (c || m) = false) :
    Thawed s ({ s with frzCtl := c, frzMsg := m } : State).released := by
  have hclear : ({ s with frzCtl := c, frzMsg := m } : State).isFrozen = false := hf
  rw [State.released_of_clear hclear]
  refine ⟨hclear, rfl, rfl, rfl, rfl, rfl, rfl, rfl, rfl, rfl, rfl, rfl, rfl, s.thawedAgenda_perm.length_eq.trans (List.length_map ..),
    fun e he => ?_⟩
  have hmem := State.mem_thawedAgenda he
  refine ⟨fun hh hc => ?_, fun hor => ?_⟩
  · rwa [hh, decide_eq_true hc] at hmem
  · have hno : (helmEvent e.instr && decide (s.chron < e.cycle)) = false := by
      rcases hor with h | h
      · rw [h, Bool.false_and]
      · rw [decide_eq_false (Nat.not_lt.mpr h), Bool.and_false]
    rwa [hno] at hmem

section Freeze

variable {s : State}

theorem State.asserted_of_clear {f : State → State} (h : s.isFrozen = false) : s.asserted f = { f s with frozen := 0 } := by
  unfold State.asserted
  rw [h]
  rfl

theorem State.asserted_of_frozen {f : State → State} (h : s.isFrozen = true) : s.asserted f = f s := by
  unfold State.asserted
  rw [h]
  rfl

theorem State.malf_port (s : State) (q : Fin 48) : s.malf q.val = s.updPort q fun k => { k with malf := satInc k.malf } := by
  unfold State.malf
  rw [dif_pos q.isLt]

section Link

variable {l : LinkIx}

theorem State.freezeOn_enabled (hen : (s.fab.links[l]).frzen = true) (hst : (s.fab.links[l]).st = .up) (q : Nat) :
    s.freezeOn l q = s.asserted fun s => { s with frzMsg := true } := if_pos ⟨hen, hst⟩

theorem State.thawOn_enabled (hen : (s.fab.links[l]).frzen = true) (hst : (s.fab.links[l]).st = .up) (q : Nat) :
    s.thawOn l q = if s.isFrozen then ({ s with frzMsg := false }).released else s := if_pos ⟨hen, hst⟩

/-- Without FRZEN, or on a link that is not UP, both count in MALF (R65). -/
theorem State.freezeOn_refused (h : (s.fab.links[l]).frzen = false ∨ (s.fab.links[l]).st ≠ .up) (q : Nat) :
    s.freezeOn l q = s.malf q ∧ s.thawOn l q = s.malf q := by
  have hno : ¬ ((s.fab.links[l]).frzen = true ∧ (s.fab.links[l]).st = .up) := by
    rintro ⟨hen, hst⟩
    exact h.elim (fun hf => Bool.false_ne_true (hf.symm.trans hen)) fun hn => hn hst
  exact ⟨if_neg hno, if_neg hno⟩

end Link

theorem State.isFrozen_of_msg (h : s.frzMsg = true) : s.isFrozen = true := by rw [State.isFrozen, h, Bool.or_true]
theorem State.isFrozen_of_ctl (h : s.frzCtl = true) : s.isFrozen = true := by rw [State.isFrozen, h, Bool.true_or]

theorem State.released_of_frozen (h : s.isFrozen = true) : s.released = s := if_pos h
theorem State.resumeAll_of_frozen (h : s.isFrozen = true) : s.resumeAll = s := if_pos h

/-- THAW releases a wire that FRZ does not hold. -/
theorem State.thawed_thawOn {l : LinkIx} (hen : (s.fab.links[l]).frzen = true) (hst : (s.fab.links[l]).st = .up) (hmsg : s.frzMsg = true)
    (hctl : s.frzCtl = false) (q : Nat) : Thawed s (s.thawOn l q) := by
  rw [State.thawOn_enabled hen hst, if_pos (State.isFrozen_of_msg hmsg)]
  exact s.thawed_released (by rw [hctl]; rfl)

theorem linksQuiet_of_thawed {t : State} (h : Thawed s t) (hq : LinksQuiet s) : LinksQuiet t := by
  obtain ⟨-, -, -, -, -, -, -, -, -, hfab, -⟩ := h
  unfold LinksQuiet
  rw [hfab]
  exact hq

/-- After 32 ms of it the wire is released, and each running partition checked (R164). -/
theorem State.freezeTimeout_checks (hq : LinksQuiet s) : ∃ t, exec .freezeTimeout s = .next t ∧ t.isFrozen = false ∧ t.chron = s.chron ∧
    t.memory = s.memory ∧ t.cores = s.cores ∧ t.cols = s.cols ∧ ∀ p, Running s p → Checks s t p 0x76 := by
  have hth : Thawed s ({ s with frzCtl := false, frzMsg := false } : State).released := s.thawed_released rfl
  have hquiet := linksQuiet_of_thawed hth hq
  obtain ⟨hfrz, -, hchron, hmem, hcores, hcols, hparts, -⟩ := hth
  generalize hu : ({ s with frzCtl := false, frzMsg := false } : State).released = u at *
  have hf := u.faultsFrame_foldl 0x76 allParts
  have hunits := hf.sameUnits
  obtain ⟨hcores', hcols', hmem', -, -, -, -, hchron', -⟩ := hunits
  have hquiet' : LinksQuiet (allParts.foldl (fun s p => s.partFault p 0x76) u) := by
    unfold LinksQuiet
    rw [(State.stopsOnly_foldl 0x76 allParts u).links]
    exact hquiet
  refine ⟨(allParts.foldl (fun s p => s.partFault p 0x76) u).resumeAll, by rw [← hu]; rfl, ?_⟩
  rw [State.resumeAll_of_quiet hquiet']
  refine ⟨hf.isFrozen.trans hfrz, hchron'.trans hchron, hmem'.trans hmem, hcores'.trans hcores, hcols'.trans hcols, fun p hr => ?_⟩
  have hr' : Running u p := by
    unfold Running State.part at hr ⊢
    rwa [hparts]
  have hp : p ∈ allParts := List.mem_finRange p
  exact Checks.of_chron (State.checks_foldl (List.nodup_finRange 48) hp hr' 0x76) hchron

end Freeze

end Sys2Proof.Machine

namespace Sys2Proof

open Machine

theorem freezeEvents : FreezeEvents := by
  refine ⟨fun s hen hst hf => ?_, fun s hf => ?_, fun s hf => ?_, fun s hen hst hf => ?_, fun s q h hq => ?_, fun s hq hen hst hf => ?_,
    fun s hen hst hmsg hctl => ?_, fun s hctl hmsg => ?_, fun s hf => ?_, fun s hq hen hst hmsg hctl => ?_, fun s hq hctl hmsg => ?_,
    fun s hq => State.freezeTimeout_checks hq⟩
  · show Host.Outcome.next (s.freezeOn ..) = _
    rw [State.freezeOn_enabled hen hst, State.asserted_of_clear hf]
  · show Host.Outcome.next (s.asserted _) = _
    rw [State.asserted_of_clear hf]
  · show Host.Outcome.next (s.asserted _) = _
    rw [State.asserted_of_frozen hf]
  · show Host.Outcome.next (s.freezeOn ..) = _
    rw [State.freezeOn_enabled hen hst, State.asserted_of_frozen hf]
  · obtain ⟨hfreeze, hthaw⟩ := State.freezeOn_refused h q.val
    refine ⟨?_, fun hquiet => ?_⟩
    · show Host.Outcome.next (s.freezeOn ..) = _
      rw [← hq, hfreeze, State.malf_port]
    · show Host.Outcome.next (State.resumeAll (s.thawOn ..)) = _
      rw [← hq, hthaw, State.malf_port, State.resumeAll_of_quiet (s := s.updPort q _) hquiet]
  · show Host.Outcome.next (State.resumeAll (s.thawOn ..)) = _
    rw [State.thawOn_enabled hen hst, hf, if_neg Bool.false_ne_true, State.resumeAll_of_quiet hq]
  · have hf : ({ s with frzMsg := false } : State).isFrozen = true := State.isFrozen_of_ctl hctl
    show Host.Outcome.next (State.resumeAll (s.thawOn ..)) = _
    rw [State.thawOn_enabled hen hst, if_pos (State.isFrozen_of_msg hmsg), State.released_of_frozen hf, State.resumeAll_of_frozen hf]
  · have hf : ({ s with frzCtl := false } : State).isFrozen = true := State.isFrozen_of_msg hmsg
    show Host.Outcome.next (if s.isFrozen then _ else s) = _
    rw [if_pos (State.isFrozen_of_ctl hctl), State.released_of_frozen hf, State.resumeAll_of_frozen hf]
  · show Host.Outcome.next (if s.isFrozen then _ else s) = _
    rw [hf, if_neg Bool.false_ne_true]
  · have hth := State.thawed_thawOn hen hst hmsg hctl (s.fab.links[s.curLink]).lastPort
    refine ⟨_, ?_, hth⟩
    show Host.Outcome.next (State.resumeAll (s.thawOn ..)) = _
    rw [State.resumeAll_of_quiet (linksQuiet_of_thawed hth hq)]
  · have hth : Thawed s ({ s with frzCtl := false } : State).released :=
      s.thawed_released (by rw [hmsg]; rfl)
    refine ⟨_, ?_, hth⟩
    show Host.Outcome.next (if s.isFrozen then _ else s) = _
    rw [if_pos (State.isFrozen_of_ctl hctl), State.resumeAll_of_quiet (linksQuiet_of_thawed hth hq)]

end Sys2Proof

namespace Sys2Proof.Machine

/-! ## Requests (R103 to R106) -/

section Requests

variable {s : State} {r r₀ : Req} {id : Nat}

/-- A request replaced under its identity is the one the module knows. -/
theorem State.req_setReq (h : s.req r.id = some r₀) : (s.setReq r).req r.id = some r := by
  have hp : ((fun x : Req => x.id == r.id) ∘ fun x => if x.id = r.id then r else x) = fun x => x.id == r.id := by
    funext x
    by_cases hx : x.id = r.id <;> simp [hx]
  have hid : r₀.id = r.id := by simpa using List.find?_some h
  show List.find? _ (List.map _ _) = _
  rw [List.find?_map, hp]
  rw [State.req] at h
  rw [h]
  exact congrArg some (if_pos hid)

theorem State.req_dropReq (s : State) (id : Nat) : (s.dropReq id).req id = none :=
  List.find?_eq_none.mpr fun x hx => by simpa using (List.mem_filter.mp hx).2

theorem State.req_addReq (h : Fresh s) : (s.addReq r).2.req s.nextId = some { r with id := s.nextId } := by
  show List.find? _ (s.reqs ++ _) = _
  rw [List.find?_append, List.find?_eq_none.mpr fun x hx => by simpa using h x hx]
  simp

/-- Replacing the newest request leaves the others. -/
theorem State.reqs_setReq_addReq (h : Fresh s) (r' : Req) (hid : r'.id = s.nextId) : ((s.addReq r).2.setReq r').reqs = s.reqs ++ [r'] := by
  show List.map _ (s.reqs ++ _) = _
  rw [List.map_append, hid]
  refine congr (congrArg _ ?_) (by simp)
  exact (List.map_congr_left fun x hx => if_neg (h x hx)).trans (List.map_id _)

/-- A request that has been performed, with what it answers. -/
def Req.performed (r : Req) (bs : List Byte) : Req := { r with result := bs, done := true, refused := false }

/-- A request is performed whole, and answered in its cycle (R104; log 6). -/
def State.performed (s : State) (r : Req) (bs : List Byte) (m : List Host.Cell) : State :=
  (({ s with memory := m } : State).setReq (r.performed bs)).schedC s.chron r.core (.accessResponse r.id)

section Performed

variable {p : PartIx} {key : Nat} {bs : List Byte} {m : List Host.Cell}

theorem State.performReq_ok (hlost : r.kind.reads = true → s.lostAt key r.n = false) (hperf : performAt s.memory key r.n r.kind = .ok (bs, m)) :
    s.performReq r key = ({ s with memory := m } : State).setReq { r with result := bs, done := true } := by
  have hno : ¬ (r.kind.reads && s.lostAt key r.n) = true := by
    rw [Bool.and_eq_true, not_and_or]
    cases hr : r.kind.reads with
    | false => exact .inl Bool.false_ne_true
    | true => rw [hlost hr]; exact .inr Bool.false_ne_true
  unfold State.performReq
  rw [if_neg hno, hperf]

/-- What an engine of the partition reads or writes is no input (R145). -/
theorem State.recordInput_of_engine (h : s.req id = some r) (hw : r.who < 5) : s.recordInput p id = s := by
  unfold State.recordInput
  rw [h]
  dsimp only
  split
  · omega
  · omega
  · omega
  · rfl

theorem State.recordInput_of_off (h : (s.part p).lb.act = false) (id : Nat) : s.recordInput p id = s := by
  unfold State.recordInput
  split
  · rfl
  · split
    · exact State.logRecord_of_off h ..
    · exact State.logRecord_of_off h ..
    · exact State.logRecord_of_off h ..
    · rfl

theorem State.doReq_ok (hr : s.req r.id = some r₀) (hrec : r.who < 5 ∨ (s.part p).lb.act = false)
    (hlost : r.kind.reads = true → s.lostAt key r.n = false) (hperf : performAt s.memory key r.n r.kind = .ok (bs, m)) :
    s.doReq p r key = s.performed r bs m := by
  have hrec' : (({ s with memory := m } : State).setReq (r.performed bs)).recordInput p r.id = ({ s with memory := m } : State).setReq (r.performed bs) :=
    hrec.elim (fun hw => State.recordInput_of_engine (State.req_setReq (r := r.performed bs) (s := { s with memory := m }) hr) hw)
      fun hoff => State.recordInput_of_off (s := ({ s with memory := m } : State).setReq (r.performed bs)) hoff _
  unfold State.doReq
  rw [State.performReq_ok (r := { r with refused := false }) hlost hperf]
  exact congrArg (fun u : State => u.schedC s.chron r.core (.accessResponse r.id)) hrec'

theorem State.req_performed (hr : s.req r.id = some r₀) (bs : List Byte) (m : List Host.Cell) :
    (s.performed r bs m).req r.id = some (r.performed bs) :=
  State.req_setReq (s := { s with memory := m }) (r := r.performed bs) hr

theorem State.response_performed (s : State) (r : Req) (bs : List Byte) (m : List Host.Cell) :
    ∃ e ∈ (s.performed r bs m).agenda, e.cycle = s.chron ∧ e.core = r.core ∧ e.instr = .accessResponse r.id :=
  ⟨_, mem_agendaPut _ _, rfl, rfl, rfl⟩

end Performed

/-! ## The walk of a request (R103, R105) -/

/-- What a request of a partition meets when its walk answers. -/
def State.walked (s : State) (p : PartIx) (r : Req) : Walk → State
  | .mem key => s.doReq p r key
  | .host addr =>
    if ¬ r.kind.portable then s.failReq r 0x32 (s.leafOf p r.ia).1 (s.leafOf p r.ia).2
    else if r.fixed then (s.dropReq r.id).coreFault r.core r.who 0x41 r.pc r.ia r.handle
    else s.sendHost { r with refused := false } p addr
  | .refuse hint pr =>
    if r.fixed then (s.dropReq r.id).coreFault r.core r.who 0x41 r.pc r.ia r.handle
    else ((s.promote p pr).setReq { r with refused := true }).schedC (s.chron + 64 * hint) r.core (.refusalRetry r.id)
  | .fault code e l => s.failReq r code e l

variable {p : PartIx}

theorem State.walkReq_walked (h : Walks s r p) : s.walkReq r = s.walked p r (s.walk p r.ia r.kind.right) := by
  obtain ⟨hpart, hregion, hdest, hbusy⟩ := h
  unfold State.walkReq
  split
  next h => exact absurd (hpart.symm.trans h) (Option.some_ne_none p)
  next p' h =>
    obtain rfl := Option.some.inj (hpart.symm.trans h)
    rw [hbusy, if_neg Bool.false_ne_true]
    dsimp only
    split
    · omega
    · omega
    · show s.walked p r (s.walk p r.ia r.kind.right _) = s.walked p r (s.walk p r.ia r.kind.right true)
      refine congrArg (fun b => s.walked p r (s.walk p r.ia r.kind.right b)) ?_
      split
      next hd => exact absurd hd (hdest _)
      · rfl

theorem State.walkReq_busy (hpart : r.part = some p) (hbusy : s.walkBusy p r.ia = true) : s.walkReq r =
    if r.fixed then (s.dropReq r.id).coreFault r.core r.who 0x41 r.pc r.ia r.handle
    else (s.setReq { r with refused := true }).schedC (s.chron + 64) r.core (.refusalRetry r.id) := by
  unfold State.walkReq
  rw [hpart]
  exact if_pos hbusy

end Requests

/-! ## Requests of peers (R66, R121) -/

section Peer

variable {s : State} {l : LinkIx}

theorem State.peerComplete_link (s : State) (l : LinkIx) (tag : Nat) (st : CplStatus) (bs : List Byte) :
    s.peerComplete l.val tag st bs = s.updLink l fun k => k.offered { id := 0, cpl := some (tag, st, bs) } := by
  unfold State.peerComplete
  rw [dif_pos l.isLt]
  exact State.offer_eq ..

/-- On a link that is UP an offered packet goes out as the next of its sequence (R58). -/
theorem Link.offered_up {k : Link} (h : k.st = .up) (t : OutTlp) : k.offered t =
    { k with out := k.out ++ [{ t with seq := k.txSeq.toNat, member := k.txSeq.toNat % 2 ^ k.nmem.toNat }], txSeq := k.txSeq + 1 } := by
  unfold Link.offered
  rw [h]

/-- A request is answered on its link with a completion without data, and nothing else changes. -/
theorem State.answered {tag : Nat} {st : CplStatus} (hst : (s.fab.links[l]).st = .up) (t : State) (ht : t = s.peerComplete l.val tag st []) :
    t.memory = s.memory ∧ t.cores = s.cores ∧ t.parts = s.parts ∧ t.reqs = s.reqs ∧
      ∃ o, (t.fab.links[l]).out = (s.fab.links[l]).out ++ [o] ∧ o.cpl = some (tag, st, []) ∧ o.seq = (s.fab.links[l]).txSeq.toNat := by
  rw [State.peerComplete_link] at ht
  subst ht
  refine ⟨rfl, rfl, rfl, rfl, ?_⟩
  rw [State.link_updLink, Link.offered_up hst]
  exact ⟨_, rfl, rfl, rfl⟩

variable {q ia n tag : Nat} {kind : ReqKind}

theorem State.exec_peerRequest_clear (hst : (s.fab.links[l]).st = .up) (hf : s.isFrozen = false) (hb : (s.fab.links[l]).blocked = false)
    (htodo : (s.fab.links[l]).todo = []) : exec (.peerRequest l q ia n kind tag) s = .next (s.peerAccess l q ia n (reqAcc kind) tag) := by
  show Host.Outcome.next _ = _
  rw [if_neg (fun h => h hst), hf, if_neg Bool.false_ne_true, State.deliverOrWait_clear hb htodo]
  rfl

theorem AccKind.posted_reqAcc (kind : ReqKind) : (reqAcc kind).posted = true ↔ ∃ bs, kind = .write bs := by
  cases kind <;> simp [reqAcc, AccKind.posted]

/-- A request for a partition that is not bound to the link, or in replay, gets UR; a write, nothing (R121, R147). -/
theorem State.peerAccess_refused (h : 48 ≤ q ∨ ∃ p : PartIx, p.val = q ∧ ((s.fab.links[l]).parts.getLsb p = false ∨ s.replaying p = true))
    (k : AccKind) : s.peerAccess l q ia n k tag = if k.posted then s else s.peerComplete l.val tag .ur [] := by
  unfold State.peerAccess
  dsimp only
  rcases h with h | ⟨p, rfl, h⟩
  · exact dif_neg (Nat.not_lt.mpr h)
  · rw [dif_pos p.isLt]
    refine if_pos (h.imp (fun hb hp => ?_) id)
    exact Bool.false_ne_true (hb.symm.trans hp)

/-- A request of a peer, as the module knows it. -/
def State.peerReq (s : State) (l : LinkIx) (p : PartIx) (ia n : Nat) (k : AccKind) (tag : Nat) : Req :=
  { id := s.nextId, who := 6, core := 0, part := some p, kind := k, ia := ia % 2 ^ 40, n := n, dest := .peer l.val tag p.val, issued := s.chron }

variable {p : PartIx} {k : AccKind} {key : Nat} {bs : List Byte} {m : List Host.Cell}

/-- A request for a bound partition enters and is walked; a write keeps what follows waiting while it is not through. -/
theorem State.peerAccess_bound (hb : (s.fab.links[l]).parts.getLsb p = true) (hrep : s.replaying p = false) (hn : 0 < n) :
    s.peerAccess l p.val ia n k tag =
      let u := (s.addReq (s.peerReq l p ia n k tag)).2.walkReq (s.peerReq l p ia n k tag)
      if k.posted then u.updLink l fun x => { x with blocked := (u.req s.nextId).any fun r => !r.done } else u := by
  unfold State.peerAccess
  rw [dif_pos p.isLt, if_neg (by rw [hb, hrep]; decide), if_neg (Nat.pos_iff_ne_zero.mp hn)]
  rfl

theorem State.peerAccess_performed (hb : (s.fab.links[l]).parts.getLsb p = true) (hoff : (s.part p).lb.act = false) (hn : 0 < n) (hfresh : Fresh s)
    (hblocked : (s.fab.links[l]).blocked = false) (hbusy : s.walkBusy p (ia % 2 ^ 40) = false)
    (hwalk : s.walk p (ia % 2 ^ 40) k.right = .mem key) (hlost : k.reads = true → s.lostAt key n = false)
    (hperf : performAt s.memory key n k = .ok (bs, m)) :
    s.peerAccess l p.val ia n k tag = (s.addReq (s.peerReq l p ia n k tag)).2.performed (s.peerReq l p ia n k tag) bs m := by
  have hreq := State.req_addReq (r := s.peerReq l p ia n k tag) hfresh
  have hwalks : Walks (s.addReq (s.peerReq l p ia n k tag)).2 (s.peerReq l p ia n k tag) p :=
    ⟨rfl, by show ia % 2 ^ 40 / 2 ^ 52 ≤ 1; omega, fun h => Dest.noConfusion, hbusy⟩
  have hdone := (State.walkReq_walked hwalks).trans ((congrArg _ hwalk).trans
    (State.doReq_ok (s := (s.addReq (s.peerReq l p ia n k tag)).2) (p := p) hreq (.inr hoff) hlost hperf))
  rw [State.peerAccess_bound hb (State.replaying_of_off hoff) hn]
  dsimp only
  rw [hdone]
  split
  · refine State.updLink_eq_self ?_
    have hknown : ((s.addReq (s.peerReq l p ia n k tag)).2.performed (s.peerReq l p ia n k tag) bs m).req s.nextId = _ :=
      State.req_performed (r := s.peerReq l p ia n k tag) hreq bs m
    rw [hknown]
    show ({ s.fab.links[l] with blocked := false } : Link) = s.fab.links[l]
    rw [← hblocked]
  · rfl

end Peer

end Sys2Proof.Machine

namespace Sys2Proof

open Machine

theorem peerRequests : PeerRequests := by
  refine ⟨fun s l q ia n kind tag hst => ?_, fun s l q ia n kind tag hst hf => ?_, fun s l q ia n kind tag hst hf hb => ?_,
    fun s l q ia n kind tag hst hf hb ht hor => ?_, fun s l p ia tag hst hf hb ht hp hrep => ?_,
    fun s l p ia n kind tag key bs m hst hf hb ht hp hoff hn hfresh hbusy hwalk hlost hperf => ?_⟩
  · exact congrArg Host.Outcome.next (if_pos hst)
  · show Host.Outcome.next _ = _
    rw [if_neg (fun h => h hst), if_pos hf]
  · show Host.Outcome.next (if _ then s else if _ then _ else if _ then _ else _) = _
    rw [if_neg (fun h => h hst), hf, if_neg Bool.false_ne_true, if_pos (.inl hb)]
    rfl
  · refine ⟨_, State.exec_peerRequest_clear hst hf hb ht, ?_⟩
    rw [State.peerAccess_refused hor]
    split
    next hw =>
      obtain ⟨bs, rfl⟩ := (AccKind.posted_reqAcc kind).mp hw
      exact ⟨rfl, rfl, rfl, rfl, fun _ _ => rfl, fun h => absurd rfl (h bs)⟩
    next hw =>
      obtain ⟨hmem, hcores, hparts, hreqs, hout⟩ := State.answered (tag := tag) (st := .ur) hst _ rfl
      exact ⟨hmem, hcores, hparts, hreqs, fun bs h => absurd ((AccKind.posted_reqAcc kind).mpr ⟨bs, h⟩) hw, fun _ => hout⟩
  · have hdone : s.peerAccess l p.val ia 0 (reqAcc .read) tag = s.peerComplete l.val tag .ok [] := by
      unfold State.peerAccess
      rw [dif_pos p.isLt, if_neg (by rw [hp, hrep]; decide)]
      rfl
    exact ⟨_, (State.exec_peerRequest_clear hst hf hb ht).trans (congrArg _ hdone), State.answered hst _ rfl⟩
  · refine ⟨_, (State.exec_peerRequest_clear hst hf hb ht).trans
      (congrArg _ (State.peerAccess_performed hp hoff hn hfresh hb hbusy hwalk hlost hperf)), rfl, rfl, rfl, rfl, ?_, ?_⟩
    · exact ⟨_, State.reqs_setReq_addReq hfresh _ rfl, rfl, rfl, rfl, rfl, rfl, rfl, rfl⟩
    · obtain ⟨e, he, hcycle, -, hinstr⟩ := State.response_performed (s.addReq (s.peerReq l p ia n (reqAcc kind) tag)).2
        (s.peerReq l p ia n (reqAcc kind) tag) bs m
      exact ⟨e, he, hcycle, hinstr⟩

end Sys2Proof

namespace Sys2Proof.Machine

/-! ## TKGIVE on a link (R63) -/

section Give

variable {s : State} {l : LinkIx} {c : CoreIx} {p : PartIx} {j : Fin 4}

theorem State.exec_tkgive (s : State) (l : LinkIx) (c : CoreIx) (j : Fin 4) (n : BitVec 8) :
    exec (.tkgive l (BitVec.ofNat 9 c.val) j n) s = .next (s.tkgiveOn l (s.fab.links[l]).lastPort c.val j n.toNat) := by
  have hc : (BitVec.ofNat 9 c.val).toNat = c.val := by
    rw [BitVec.toNat_ofNat]
    omega
  show Host.Outcome.next (s.tkgiveOn l _ (BitVec.ofNat 9 c.val).toNat j n.toNat) = _
  rw [hc]

/-- A give for a core of a partition bound to the link is credited, or pends during a switch. -/
theorem State.tkgiveOn_bound {u : State} {n : Nat} (hp : s.partOf c = some p) (hn : n ≠ 0) (hst : (s.fab.links[l]).st = .up)
    (hb : (s.fab.links[l]).parts.getLsb p = true) (hoff : (s.part p).lb.act = false)
    (hu : (if (s.part p).switching then some (s.pendLink p c j n) else s.creditLink p c j n) = some u) (hoff' : (u.part p).lb.act = false) (q : Nat) :
    s.tkgiveOn l q c.val j n = u := by
  unfold State.tkgiveOn
  rw [dif_pos c.isLt, hp]
  dsimp only
  rw [if_neg (by rw [hb, State.replaying_of_off hoff]; simpa [hn] using hst), hu]
  exact State.logRecord_of_off hoff' ..

section Running

variable (hr : Running s p)
include hr

theorem State.creditLink_within {n : BitVec 8} (h : ((s.core c).ctl.ltc[j]).toNat + n.toNat ≤ 4095) : s.creditLink p c j n.toNat =
    some (s.upd c fun k => { k with ctl := { k.ctl with ltc := k.ctl.ltc.set j (k.ctl.ltc[j] + n.setWidth 12) } }) := by
  have hsum : BitVec.ofNat 12 (((s.core c).ctl.ltc[j]).toNat + n.toNat) = (s.core c).ctl.ltc[j] + n.setWidth 12 := by
    apply BitVec.eq_of_toNat_eq
    simp
  unfold State.creditLink Core.giveLink
  dsimp only
  rw [if_pos hr.2.2, if_pos h, hsum]
  rfl

theorem State.creditLink_beyond {n : Nat} (h : 4095 < ((s.core c).ctl.ltc[j]).toNat + n) : s.creditLink p c j n = some (s.partFault p 0x42) := by
  unfold State.creditLink Core.giveLink
  dsimp only
  rw [if_pos hr.2.2, if_neg (Nat.not_le.mpr h)]

end Running

/-- The first give for a counter during a switch. -/
theorem State.pendLink_first {n : BitVec 8} (h : ∀ x ∈ (s.part p).tkPend, ¬ (x.1 = c.val ∧ x.2.1 = j.val)) :
    s.pendLink p c j n.toNat = s.updPart p fun q => { q with tkPend := (s.part p).tkPend ++ [(c.val, j.val, n.toNat, 0)] } := by
  have hmatch (x : Nat × Nat × Nat × Nat) (hx : x ∈ (s.part p).tkPend) : (x.1 == c.val && x.2.1 == j.val) = false := by
    have := h x hx
    simpa using this
  have hfind : (s.part p).tkPend.find? (fun x => x.1 == c.val && x.2.1 == j.val) = none :=
    List.find?_eq_none.mpr fun x hx => by rw [hmatch x hx]; exact Bool.false_ne_true
  have hfilter : (s.part p).tkPend.filter (fun x => !(x.1 == c.val && x.2.1 == j.val)) = (s.part p).tkPend :=
    List.filter_eq_self.mpr fun x hx => by rw [hmatch x hx]; rfl
  have hn := n.isLt
  have hcount : min 4095 (0 + n.toNat) = n.toNat := by omega
  have hrest : 0 + (0 + n.toNat - 4095) = 0 := by omega
  unfold State.pendLink State.updPart
  dsimp only
  rw [hfind, hfilter, Option.getD_none, hcount, hrest]

/-- What a give may not do counts in MALF of its port (R61, R63, R147). -/
theorem State.tkgiveOn_malf {core n q : Nat} (h : n = 0 ∨ 288 ≤ core ∨ (s.fab.links[l]).st ≠ .up ∨ (∃ x : CoreIx, x.val = core ∧ s.partOf x = none)
      ∨ ∃ (x : CoreIx) (p : PartIx), x.val = core ∧ s.partOf x = some p ∧ ((s.fab.links[l]).parts.getLsb p = false ∨ s.replaying p = true
        ∨ (s.part p).switching = false ∧ (s.part p).runSlot = none ∧ (s.part p).preSlot = none)) :
    s.tkgiveOn l q core j n = s.malf q := by
  unfold State.tkgiveOn
  split
  next hc =>
    split
    · rfl
    next p hp =>
      split
      · rfl
      next hok =>
        obtain ⟨hn, hst, hb, hrep⟩ : n ≠ 0 ∧ (s.fab.links[l]).st = .up ∧ (s.fab.links[l]).parts.getLsb p = true ∧ ¬ s.replaying p = true := by
          simpa using hok
        rcases h with h | h | h | ⟨x, rfl, hx⟩ | ⟨x, p', rfl, hx, h⟩
        · exact absurd h hn
        · omega
        · exact absurd hst h
        · exact absurd (hx.symm.trans hp) (Option.some_ne_none p).symm
        · obtain rfl := Option.some.inj (hx.symm.trans hp)
          rcases h with h | h | ⟨hsw, hrun, hpre⟩
          · exact absurd (h.symm.trans hb) Bool.false_ne_true
          · exact absurd h hrep
          · have hnone : s.creditLink p' x j n = none := by
              unfold State.creditLink
              dsimp only
              rw [hrun, hpre, if_neg (by decide)]
              split
              · rfl
              · rfl
            dsimp only
            rw [hsw, if_neg Bool.false_ne_true, hnone]
  · rfl

end Give

end Sys2Proof.Machine

namespace Sys2Proof.Machine

/-! ## STOP (R64) -/

/-- What links offered packets keep. -/
structure Link.Fed (k k' : Link) : Prop where
  parts : k'.parts = k.parts
  st : k'.st = k.st
  out : ∀ o ∈ k.out, o ∈ k'.out

theorem Link.Fed.refl (k : Link) : k.Fed k := ⟨rfl, rfl, fun _ h => h⟩

theorem Link.Fed.trans {a b c : Link} (h : a.Fed b) (h' : b.Fed c) : a.Fed c :=
  ⟨h'.parts.trans h.parts, h'.st.trans h.st, fun o ho => h'.out o (h.out o ho)⟩

theorem Link.fed_offered (k : Link) (t : OutTlp) : k.Fed (k.offered t) := by
  unfold Link.offered
  split
  · exact ⟨rfl, rfl, fun o ho => List.mem_append_left _ ho⟩
  · exact ⟨rfl, rfl, fun _ h => h⟩
  · exact .refl k

/-- A STOP as it goes out on a link. -/
def stopMsg (ident pay : Nat) : OutTlp := { id := 0, msg := some (0x30, BitVec.ofNat 24 ident, BitVec.ofNat 32 pay) }

theorem State.linkMsg_stop (s : State) (m : LinkIx) (ident pay : Nat) :
    s.linkMsg m 0x30 ident pay = s.updLink m fun k => k.offered (stopMsg ident pay) := s.offer_eq ..

/-- Beyond faults of the partitions ps, packets are offered to links other than l. -/
structure Stops (l : LinkIx) (ps : List PartIx) (s t : State) : Prop where
  frame : FaultsFrame ps s t
  seen : t.fab.stopsSeen = s.fab.stopsSeen
  fed : ∀ m : LinkIx, (s.fab.links[m]).Fed t.fab.links[m]
  came : t.fab.links[l] = s.fab.links[l]

namespace Stops

variable {l : LinkIx} {ps ps' : List PartIx} {s t u : State}

theorem refl (l : LinkIx) (ps : List PartIx) (s : State) : Stops l ps s s :=
  ⟨⟨rfl, fun _ _ => rfl, fun _ h => h, fun _ h => h⟩, rfl, fun _ => .refl _, rfl⟩

theorem trans (a : Stops l ps s t) (b : Stops l ps t u) : Stops l ps s u :=
  ⟨a.frame.trans b.frame, b.seen.trans a.seen, fun m => (a.fed m).trans (b.fed m), b.came.trans a.came⟩

theorem mono (a : Stops l ps s t) (h : ∀ p ∈ ps, p ∈ ps') : Stops l ps' s t :=
  ⟨⟨a.frame.eq, fun q hq => a.frame.others q fun hm => hq (h q hm), a.frame.ints, a.frame.events⟩, a.seen, a.fed, a.came⟩

theorem foldl {f : State → PartIx → State} (hf : ∀ s p, Stops l [p] s (f s p)) (ps : List PartIx) (s : State) : Stops l ps s (ps.foldl f s) := by
  induction ps generalizing s with
  | nil => exact refl l [] s
  | cons p ps ih =>
    exact ((hf s p).mono fun q hq => List.mem_cons.mpr (.inl (List.mem_singleton.mp hq))).trans ((ih _).mono fun q hq => List.mem_cons_of_mem p hq)

theorem updLink (s : State) {m : LinkIx} (hm : m ≠ l) (t : OutTlp) : Stops l ps s (s.updLink m fun k => k.offered t) := by
  refine ⟨.of_linkFrame ps (.updLink ..), rfl, fun x => ?_, s.link_updLink_ne (Ne.symm hm) _⟩
  by_cases hx : x = m
  · subst hx
    rw [State.link_updLink]
    exact Link.fed_offered ..
  · rw [State.link_updLink_ne _ hx]
    exact .refl _

theorem partFault (l : LinkIx) (s : State) (p : PartIx) (code : Nat) : Stops l [p] s (s.partFault p code) := by
  have h := FaultFrame.partFault s p code
  have hs := s.stopsOnly_partFault p code
  refine ⟨⟨h.eq, fun q hq => h.others q fun e => hq (List.mem_singleton.mpr e), h.ints, h.events⟩, (congrArg Fabric.stopsSeen hs :), fun m => ?_, ?_⟩
  · rw [hs.links]
    exact .refl _
  · rw [hs.links]

end Stops

section Forward

variable (l : LinkIx) (ident pay : Nat)

/-- A partition forwards a STOP on one of its links, but for the one it came on. -/
def State.forward (s : State) (m : LinkIx) : State := if m ≠ l ∧ s.fab.links[m].st = .up then s.linkMsg m 0x30 ident pay else s

theorem State.stops_forward (ps : List PartIx) (s : State) (m : LinkIx) : Stops l ps s (s.forward l ident pay m) := by
  unfold State.forward
  split
  next h =>
    rw [State.linkMsg_stop]
    exact .updLink s h.1 _
  · exact .refl ..

theorem State.stops_forwards (ps : List PartIx) (ms : List LinkIx) (s : State) : Stops l ps s (ms.foldl (fun s m => s.forward l ident pay m) s) := by
  induction ms generalizing s with
  | nil => exact .refl ..
  | cons m ms ih => exact (State.stops_forward l ident pay ps s m).trans (ih _)

/-- Each link UP of a list gets the STOP. -/
theorem State.forwards_out {ms : List LinkIx} {s : State} {m : LinkIx} (hm : m ∈ ms) (hl : m ≠ l) (hst : (s.fab.links[m]).st = .up) :
    ∃ o ∈ ((ms.foldl (fun s m => s.forward l ident pay m) s).fab.links[m]).out, o.msg = (stopMsg ident pay).msg := by
  induction ms generalizing s with
  | nil => exact absurd hm List.not_mem_nil
  | cons x ms ih =>
    rw [List.foldl_cons]
    rcases List.mem_cons.mp hm with rfl | hm
    · have hsent : s.forward l ident pay m = s.updLink m fun k => k.offered (stopMsg ident pay) := (if_pos ⟨hl, hst⟩).trans (s.linkMsg_stop ..)
      refine ⟨_, ((State.stops_forwards l ident pay [] ms _).fed m).out { stopMsg ident pay with
        seq := (s.fab.links[m]).txSeq.toNat, member := (s.fab.links[m]).txSeq.toNat % 2 ^ (s.fab.links[m]).nmem.toNat } ?_, rfl⟩
      rw [hsent, State.link_updLink, Link.offered_up hst]
      exact List.mem_append_right _ (List.mem_singleton.mpr rfl)
    · exact ih hm (((State.stops_forward l ident pay [] s x).fed m).st.trans hst)

/-- What a STOP does at one partition: it goes on, and the partition is checked. -/
def State.stopAt (s : State) (p : PartIx) : State :=
  if s.fab.links[l].parts.getLsb p then ((s.linksOf p).foldl (fun s m => s.forward l ident pay m) s).partFault p 0x67 else s

theorem State.stops_stopAt (s : State) (p : PartIx) : Stops l [p] s (s.stopAt l ident pay p) := by
  unfold State.stopAt
  split
  · exact (State.stops_forwards l ident pay [p] _ s).trans (.partFault ..)
  · exact .refl ..

variable {l ident pay}

theorem State.checks_stopAt {s : State} {p : PartIx} (hb : (s.fab.links[l]).parts.getLsb p = true) (hr : Running s p) :
    Checks s (s.stopAt l ident pay p) p 0x67 := by
  have hf := State.stops_forwards l ident pay [] (s.linksOf p) s
  unfold State.stopAt
  rw [if_pos hb]
  refine Checks.of_chron (State.checks_partFault (p := p) ?_ 0x67) hf.frame.chron
  unfold Running at hr ⊢
  rwa [hf.frame.others p List.not_mem_nil]

theorem State.stopAt_out {s : State} {p : PartIx} {m : LinkIx} (hb : (s.fab.links[l]).parts.getLsb p = true) (hm : (s.fab.links[m]).parts.getLsb p = true)
    (hl : m ≠ l) (hst : (s.fab.links[m]).st = .up) : ∃ o ∈ ((s.stopAt l ident pay p).fab.links[m]).out, o.msg = (stopMsg ident pay).msg := by
  have hmem : m ∈ s.linksOf p := List.mem_filter.mpr ⟨List.mem_finRange m, hm⟩
  unfold State.stopAt
  rw [if_pos hb, (State.stopsOnly_partFault ..).links]
  exact State.forwards_out l ident pay hmem hl hst

/-- A STOP acts at every partition bound to its link. -/
theorem State.stops_foldl_stopAt {s : State} {p : PartIx} (hb : (s.fab.links[l]).parts.getLsb p = true) :
    (Running s p → Checks s (allParts.foldl (fun s p => s.stopAt l ident pay p) s) p 0x67) ∧
    ∀ m : LinkIx, (s.fab.links[m]).parts.getLsb p = true → m ≠ l → (s.fab.links[m]).st = .up →
      ∃ o ∈ ((allParts.foldl (fun s p => s.stopAt l ident pay p) s).fab.links[m]).out, o.msg = (stopMsg ident pay).msg := by
  obtain ⟨l₁, l₂, hl⟩ := List.append_of_mem (List.mem_finRange p)
  have hnd : (l₁ ++ p :: l₂).Nodup := hl ▸ List.nodup_finRange 48
  obtain ⟨hnot, -⟩ := List.nodup_cons.mp (List.nodup_middle.mp hnd)
  have hall : allParts = l₁ ++ p :: l₂ := hl
  rw [hall, List.foldl_append, List.foldl_cons]
  have h₁ := Stops.foldl (l := l) (State.stops_stopAt l ident pay) l₁ s
  generalize l₁.foldl (fun s p => s.stopAt l ident pay p) s = u at h₁ ⊢
  have h₂ := Stops.foldl (l := l) (State.stops_stopAt l ident pay) l₂ (u.stopAt l ident pay p)
  have hb' : (u.fab.links[l]).parts.getLsb p = true := by rw [h₁.came]; exact hb
  refine ⟨fun hr => ?_, fun m hm hml hst => ?_⟩
  · have hr' : Running u p := by
      unfold Running at hr ⊢
      rwa [h₁.frame.others p fun h => hnot (List.mem_append_left _ h)]
    exact Checks.mono (Checks.of_chron (State.checks_stopAt hb' hr') h₁.frame.chron)
      (congrArg _ (h₂.frame.others p fun h => hnot (List.mem_append_right _ h))) fun e he _ => h₂.frame.events e he
  · obtain ⟨o, ho, hmsg⟩ := State.stopAt_out (ident := ident) (pay := pay) hb' (by rw [(h₁.fed m).parts]; exact hm) hml ((h₁.fed m).st.trans hst)
    exact ⟨o, (h₂.fed m).out o ho, hmsg⟩

end Forward

section Stop

variable {s : State} {l : LinkIx} {id : BitVec 24} {cause : BitVec 8}

theorem stopMsg_msg (id : BitVec 24) (cause : BitVec 8) : (stopMsg id.toNat cause.toNat).msg = some (0x30, id, cause.setWidth 32) := by
  have hcause : BitVec.ofNat 32 cause.toNat = cause.setWidth 32 := by
    apply BitVec.eq_of_toNat_eq
    simp
  rw [stopMsg, hcause, BitVec.ofNat_toNat, BitVec.setWidth_eq]

/-- A STOP whose identity is not known acts at the partitions of its link. -/
theorem State.exec_stop_new (hst : (s.fab.links[l]).st = .up) (hnew : ∀ u, tget s.fab.stopsSeen id.toNat = some u → u + 2 ^ 24 ≤ s.chron) :
    exec (.stop l id cause) s = .next (allParts.foldl (fun s p => s.stopAt l id.toNat cause.toNat p) (s.stopHandled id.toNat)) := by
  have hunknown : s.stopKnown id.toNat = false := by
    unfold State.stopKnown
    split
    next u hu => exact decide_eq_false (Nat.not_lt.mpr (hnew u hu))
    · rfl
  show Host.Outcome.next (s.stopOn ..) = _
  unfold State.stopOn
  rw [if_neg (fun h => h hst), hunknown]
  rfl

theorem State.seen_stopHandled (s : State) (id : Nat) : tget (s.stopHandled id).fab.stopsSeen id = some s.chron := tget_tput ..

/-- A packet is offered to each link of a list once. -/
theorem State.link_foldl_offered {ms : List LinkIx} (hnd : ms.Nodup) (t : OutTlp) (s : State) {m : LinkIx} (hm : m ∈ ms) :
    (ms.foldl (fun s m => s.updLink m fun k => k.offered t) s).fab.links[m] = (s.fab.links[m]).offered t := by
  obtain ⟨l₁, l₂, rfl⟩ := List.append_of_mem hm
  obtain ⟨hnot, -⟩ := List.nodup_cons.mp (List.nodup_middle.mp hnd)
  have hother (ls : List LinkIx) (hls : m ∉ ls) (u : State) : (ls.foldl (fun s m => s.updLink m fun k => k.offered t) u).fab.links[m] = u.fab.links[m] := by
    induction ls generalizing u with
    | nil => rfl
    | cons x ls ih =>
      rw [List.foldl_cons, ih (fun h => hls (List.mem_cons_of_mem x h)), State.link_updLink_ne _ fun e => hls (List.mem_cons.mpr (.inl e))]
  rw [List.foldl_append, List.foldl_cons, hother l₂ fun h => hnot (List.mem_append_right _ h), State.link_updLink,
    hother l₁ fun h => hnot (List.mem_append_left _ h)]

/-- The identity of a delayed STOP is free: it goes out on every link of its partition. -/
theorem State.exec_stopDelayedSend_free {p : PartIx} (hnew : ∀ u, tget s.fab.stopsSeen id.toNat = some u → u + 2 ^ 24 ≤ s.chron) :
    exec (.stopDelayedSend id cause p) s = .next ((s.linksOf p).foldl (fun s m => s.updLink m fun k => k.offered (stopMsg id.toNat cause.toNat))
      ({ s with fab := { s.fab with stopsDelayed := s.fab.stopsDelayed.filter fun x => x.1 != id.toNat } }.stopHandled id.toNat)) := by
  have hsend : (fun (s : State) m => s.linkMsg m 0x30 id.toNat cause.toNat) = fun s m => s.updLink m fun k => k.offered (stopMsg id.toNat cause.toNat) := by
    funext s m
    exact s.linkMsg_stop ..
  rw [← hsend]
  show Host.Outcome.next _ = _
  split
  next u hu => exact congrArg Host.Outcome.next (if_neg (Nat.not_lt.mpr (hnew u hu)))
  · rfl

end Stop

end Sys2Proof.Machine

namespace Sys2Proof.Machine

/-! ## THAW while the module is frozen (R65) -/

/-- With nothing held that has not acted, a THAW that releases the wire changes no unit. -/
theorem State.resumeAll_thawOn {s : State} {l : LinkIx} (h : ∀ m : LinkIx, (s.fab.links[m]).Settled) (hen : (s.fab.links[l]).frzen = true)
    (hst : (s.fab.links[l]).st = .up) (hmsg : s.frzMsg = true) (hctl : s.frzCtl = false) (q : Nat) : (s.thawOn l q).isFrozen = false ∧
      (s.thawOn l q).resumeAll.isFrozen = false ∧ (s.thawOn l q).resumeAll.fab.ports = s.fab.ports ∧ (s.thawOn l q).resumeAll.chron = s.chron
      ∧ (s.thawOn l q).resumeAll.cores = s.cores ∧ (s.thawOn l q).resumeAll.memory = s.memory := by
  obtain ⟨hfrz, -, hchron, hmem, hcores, -, -, -, -, hfab, -⟩ := State.thawed_thawOn hen hst hmsg hctl q
  obtain ⟨hf, -⟩ := State.settles_resumeAll (s := s.thawOn l q) fun m => by rw [hfab]; exact h m
  obtain ⟨hcores', -, hmem', -⟩ := hf.sameUnits
  exact ⟨hfrz, hf.isFrozen.trans hfrz, hf.ports.trans (by rw [hfab]), hf.chron.trans hchron, hcores'.trans hcores, hmem'.trans hmem⟩

/-- A THAW that comes under the wire releases it before delivery goes on. -/
theorem State.exec_peerTlpArrival_thaw {s : State} {l : LinkIx} {q : Fin 48} {seq : BitVec 16} (hq : LinksQuiet s) (hst : (s.fab.links[l]).st = .up)
    (hen : (s.fab.links[l]).frzen = true) (hmsg : s.frzMsg = true) (hctl : s.frzCtl = false)
    (hm : (s.fab.links[l]).member (seq.toNat % (s.fab.links[l]).members) = q.val) :
    ∃ t, exec (.peerTlpArrival l q seq (.message 0x32 0 0)) s = .next t ∧ t.isFrozen = false ∧ t.fab.ports = s.fab.ports ∧ t.chron = s.chron
      ∧ t.cores = s.cores ∧ t.memory = s.memory := by
  have hw := ((s.arrived l seq (.message 0x32 0 0)).link_updLink l fun k => k.acted seq).trans
    (congrArg (fun k => k.acted seq) (s.link_updLink l _))
  have hsettled (m : LinkIx) : (((s.arrived l seq (.message 0x32 0 0)).updLink l fun k => k.acted seq).fab.links[m]).Settled := by
    by_cases hml : m = l
    · subst hml
      obtain ⟨hheld, -, htodo, -⟩ := hq m
      rw [hw]
      refine ⟨htodo, fun x hx => ?_⟩
      have hx' : x ∈ (s.fab.links[m]).held ++ [(seq, (s.fab.links[m]).count s.chron, Tlp.message 0x32 0 0)] := hx
      rw [hheld, List.nil_append, List.mem_singleton] at hx'
      rw [hx']
      exact List.mem_cons_self
    · rw [State.link_updLink_ne _ hml, State.arrived, State.link_updLink_ne _ hml]
      exact Link.Quiet.settled (hq m)
  obtain ⟨hfree, hrest⟩ := State.resumeAll_thawOn hsettled (l := l) (by rw [hw]; exact hen) (by rw [hw]; exact hst) hmsg hctl q.val
  exact ⟨_, State.exec_peerTlpArrival_act hst hm (State.isFrozen_of_msg hmsg) rfl hfree, hrest⟩

end Sys2Proof.Machine

namespace Sys2Proof

open Machine

/-! ## The messages of peers (R59, R61 to R65) -/

theorem peerMessages : PeerMessages := by
  refine ⟨fun s n v => rfl, fun s l q arg pay hf hq hst hm => ?_, fun s l q seq hq hst hen hmsg hctl hm => ?_, fun s l q seq tlp hf hst hm ht => ?_,
    fun s l q seq tlp hst hm => ?_, fun s l c j n p hp hn hst hb hoff hr hle => ?_, fun s l c j n p hp hn hst hb hoff hr hlt => ?_,
    fun s l c j n p hp hn hst hb hoff hsw hno => ?_, fun s l c j n q hq hor => ?_, fun s l id cause hst hnew => ?_, fun s l id cause q hst hq => ?_,
    fun s l id cause u hst hu hlt => ?_, fun s id cause p hnew => ?_, fun s id cause p u hu hlt => ?_⟩
  · exact (State.exec_peerTlpArrival_clear hst hm hf _).trans (congrArg Host.Outcome.next
      ((congrArg State.resumeAll (State.updLink_congr rfl)).trans (State.resumeAll_stage hf hq hst ((s.fab.links[l]).count s.chron) arg pay)))
  · exact State.exec_peerTlpArrival_thaw hq hst hen hmsg hctl hm
  · exact State.exec_peerTlpArrival_frozen hst hm hf ht
  · have hdown := s.goesDown_faultDown l 0x62
    exact ⟨_, State.exec_peerTlpArrival_stray hst hm tlp, by rw [hdown.link]; rfl, hdown.linkEmpty, s.boundChecks_faultDown l 0x62, hdown.frame.sameUnits⟩
  · have hne : n.toNat ≠ 0 := fun h => hn (BitVec.eq_of_toNat_eq h)
    rw [State.exec_tkgive]
    exact congrArg Host.Outcome.next (State.tkgiveOn_bound hp hne hst hb hoff
      (by rw [hr.1, if_neg Bool.false_ne_true, State.creditLink_within hr hle]) (by exact hoff) _)
  · have hne : n.toNat ≠ 0 := fun h => hn (BitVec.eq_of_toNat_eq h)
    refine ⟨_, (State.exec_tkgive ..).trans (congrArg Host.Outcome.next (State.tkgiveOn_bound hp hne hst hb hoff
      (by rw [hr.1, if_neg Bool.false_ne_true, State.creditLink_beyond hr hlt]) ?_ _)), State.checks_partFault hr 0x42,
      (FaultFrame.partFault s p 0x42).sameUnits⟩
    rw [State.part_partFault_running hr]
    exact hoff
  · have hne : n.toNat ≠ 0 := fun h => hn (BitVec.eq_of_toNat_eq h)
    have hpend := State.pendLink_first (n := n) hno
    refine ⟨_, (State.exec_tkgive ..).trans (congrArg Host.Outcome.next (State.tkgiveOn_bound hp hne hst hb hoff
      (by rw [hsw, if_pos rfl]) ?_ _)), ?_, ?_⟩
    · rw [hpend, State.part_updPart]
      exact hoff
    · rw [hpend]
      exact ⟨rfl, rfl, rfl, rfl, rfl, rfl, rfl, rfl, rfl⟩
    · rw [hpend, State.part_updPart]
  · show Host.Outcome.next (s.tkgiveOn ..) = _
    rw [← hq, State.tkgiveOn_malf (hor.imp_left fun h => by rw [h]; rfl), State.malf_port]
  · have hst' : ((s.stopHandled id.toNat).fab.links[l]).st = .up := hst
    have hstops := Stops.foldl (l := l) (State.stops_stopAt l id.toNat cause.toNat) allParts (s.stopHandled id.toNat)
    refine ⟨_, State.exec_stop_new hst hnew, SameUnits.trans ⟨rfl, rfl, rfl, rfl, rfl, rfl, rfl, rfl, rfl⟩ hstops.frame.sameUnits, ?_, ?_, fun p hp hr => ?_,
      fun p m hp hm hml hup => ?_⟩
    · rw [hstops.seen]
      exact s.seen_stopHandled _
    · rw [hstops.came]
      rfl
    · exact (State.stops_foldl_stopAt (s := s.stopHandled id.toNat) hp).1 hr
    · rw [← stopMsg_msg]
      exact (State.stops_foldl_stopAt (s := s.stopHandled id.toNat) hp).2 m hm hml hup
  · show Host.Outcome.next (s.stopOn ..) = _
    rw [← hq, ← State.malf_port]
    exact congrArg Host.Outcome.next (if_pos hst)
  · have hknown : s.stopKnown id.toNat = true := by
      unfold State.stopKnown
      rw [hu]
      exact decide_eq_true hlt
    show Host.Outcome.next (s.stopOn ..) = _
    unfold State.stopOn
    rw [if_neg (fun h => h hst), if_pos hknown]
  · have hf := LinkFrame.foldl (f := fun s m => s.updLink m fun k => k.offered (stopMsg id.toNat cause.toNat)) (fun s m => .updLink s m _) (s.linksOf p)
      ({ s with fab := { s.fab with stopsDelayed := s.fab.stopsDelayed.filter fun x => x.1 != id.toNat } }.stopHandled id.toNat)
    refine ⟨_, State.exec_stopDelayedSend_free hnew, SameUnits.trans ⟨rfl, rfl, rfl, rfl, rfl, rfl, rfl, rfl, rfl⟩ hf.sameUnits, ?_, fun l hl hst => ?_⟩
    · rw [hf.stopsSeen]
      exact State.seen_stopHandled ..
    · have hnd : (s.linksOf p).Nodup := (List.nodup_finRange 48).filter _
      have hmem : l ∈ s.linksOf p := List.mem_filter.mpr ⟨List.mem_finRange l, hl⟩
      rw [State.link_foldl_offered hnd _ _ hmem, Link.offered_up (by exact hst)]
      exact ⟨_, rfl, stopMsg_msg id cause, rfl⟩
  · show Host.Outcome.next _ = _
    rw [hu]
    exact congrArg Host.Outcome.next (if_pos hlt)

/-- Settles O47: links with nothing to deliver stay so, a stray packet takes its link down after the check, the partitions bound to a link hear a
STOP one after the other, a request of a peer is one of the walks, and the release of the wire reschedules what the Helm's clock timed. -/
theorem messagesAndFreeze : Obligations.MessagesAndFreeze := ⟨peerMessages, peerRequests, freezeEvents⟩

end Sys2Proof

/-! # Accesses on the memory side and their responses (R103 to R106, R68, R155) -/

namespace Sys2Proof.Machine

/-! ## A register written by a response (R308) -/

section Registers

variable (q : Seq) {d x : Fin 32} (v : Word) (t : Bool) (n : Nat)

theorem Seq.gpr_setG (hd : d ≠ 0) : (q.setG d v t n).gpr d = v := by
  simp [Seq.setG, Seq.gpr, hd]

theorem Seq.gpr_setG_ne (hx : x ≠ d) : (q.setG d v t n).gpr x = q.gpr x := by
  have hval : d.val ≠ x.val := fun e => hx (Fin.ext e.symm)
  unfold Seq.setG
  split
  · rfl
  · simp [Seq.gpr, hval]

theorem Seq.tnt_setG (hd : d ≠ 0) : (q.setG d v t n).tnt d = t := by
  cases t <;> simp [Seq.setG, Seq.tnt, hd]

theorem Seq.hold_setG : (q.setG d v t n).hold = q.hold := by
  unfold Seq.setG
  split <;> rfl

theorem Seq.hold_release (id now : Nat) : (q.release id now).hold ≠ some id := by
  unfold Seq.release
  split
  · exact (Option.some_ne_none id).symm
  · assumption

theorem Seq.gpr_release (id now : Nat) : (q.release id now).gpr x = q.gpr x := by
  unfold Seq.release
  split <;> rfl

theorem Seq.sup_release (id now : Nat) : (q.release id now).sup = q.sup := by
  unfold Seq.release
  split <;> rfl

/-- A trap ends a hold. -/
theorem Seq.trap_release (id now cycle cause : Nat) (epc : Int) (took : Bool) : (q.release id now).trap cycle cause epc took = q.trap cycle cause epc took := by
  unfold Seq.release
  split <;> rfl

/-- The sequencer as the data of an access to gd come: without a hold for it, gd usable at once unless its cycle was given as it issued. -/
def Seq.landed (r : Req) (now : Nat) (d : Fin 32) (v : Word) (t : Bool) : Seq :=
  (if r.own || r.fixed then q.release r.id now else (q.release r.id now).pend d now).fill d v t

section Landed

variable (r : Req) (now : Nat)

theorem Seq.gpr_landed (hd : d ≠ 0) : (q.landed r now d v t).gpr d = v := Seq.gpr_setG _ v t _ hd

theorem Seq.tnt_landed (hd : d ≠ 0) : (q.landed r now d v t).tnt d = t := Seq.tnt_setG _ v t _ hd

theorem Seq.gpr_landed_ne (hx : x ≠ d) : (q.landed r now d v t).gpr x = q.gpr x := by
  refine (Seq.gpr_setG_ne _ v t _ hx).trans ?_
  split
  · exact q.gpr_release ..
  · unfold Seq.pend
    split <;> exact q.gpr_release ..

theorem Seq.hold_landed : (q.landed r now d v t).hold ≠ some r.id := by
  unfold Seq.landed Seq.fill
  rw [Seq.hold_setG]
  split
  · exact q.hold_release r.id now
  · unfold Seq.pend
    split <;> exact q.hold_release r.id now

end Landed

end Registers

/-! ## Responses (R104) -/

section Responses

variable {s : State} {r : Req} {id : Nat}

/-- The later of two entries at an index stands. -/
theorem tput_tput {α : Type} (l : List (Nat × α)) (a : Nat) (v w : α) : tput (tput l a v) a w = tput l a w := by
  induction l with
  | nil => simp [tput]
  | cons x l ih =>
    obtain ⟨k, y⟩ := x
    rcases Nat.lt_trichotomy a k with h | rfl | h
    · simp [tput, h]
    · simp [tput]
    · simp [tput, Nat.not_lt.mpr h.le, h.ne', ih]

theorem State.upd_upd (s : State) (c : CoreIx) (f g : Core → Core) : (s.upd c f).upd c g = s.upd c fun k => g (f k) := by
  show ({ s with cores := tput (tput s.cores c.val _) c.val (g ((s.upd c f).core c)) } : State) = _
  rw [tput_tput, State.core_upd]
  rfl

/-- The data of a load reach its register, sign-extended to 64 bits. -/
theorem State.seqFill_gpr {d : Fin 32} {n : Nat} {t : Bool} (hdest : r.dest = .gpr d n t false) (hn : n ≤ 8) (c : CoreIx) :
    s.seqFill c r = s.upd c fun k => { k with seq := k.seq.landed r s.chron d (sext64 (8 * n) (ofBytes r.result)) t } := by
  unfold State.seqFill
  rw [hdest]
  dsimp only
  rw [if_neg Bool.false_ne_true, Nat.min_eq_left hn, State.upd_upd]
  unfold Seq.landed
  cases r.own || r.fixed <;> rfl

theorem State.seqFill_none (hdest : r.dest = .none_) (c : CoreIx) :
    s.seqFill c r = s.upd c fun k => { k with seq := k.seq.release r.id s.chron } := by
  unfold State.seqFill
  rw [hdest]

theorem State.exec_accessResponse_done (h : s.req id = some r) (hdone : r.done = true) : exec (.accessResponse id) s = .next (s.respond r) := by
  show Host.Outcome.next _ = _
  rw [h]
  dsimp only
  rw [hdone, Bool.not_true, Bool.and_false, if_neg Bool.false_ne_true, if_pos rfl]

/-- The data of a load, or the response of a store, go to the sequencer. -/
theorem State.respond_seq (herr : r.err = none) (hdest : (∃ d n t pair, r.dest = .gpr d n t pair) ∨ r.dest = .none_) :
    s.respond r = (s.dropReq r.id).seqFill r.core r := by
  unfold State.respond State.respondData
  rw [herr]
  dsimp only
  rcases hdest with ⟨d, n, t, pair, h⟩ | h
  · rw [h]
  · rw [h]

end Responses

end Sys2Proof.Machine

namespace Sys2Proof.Machine

/-! ## Requests removed or replaced -/

section Removed

variable {s : State} {r : Req}

theorem State.dropReq_setReq (s : State) (r : Req) : (s.setReq r).dropReq r.id = s.dropReq r.id := by
  have hlist (l : List Req) : (l.map fun x => if x.id = r.id then r else x).filter (fun x => x.id != r.id) = l.filter fun x => x.id != r.id := by
    induction l with
    | nil => rfl
    | cons x l ih =>
      by_cases hx : x.id = r.id
      · simp [hx, ih]
      · simp [hx, ih]
  show ({ s with reqs := _ } : State) = { s with reqs := _ }
  rw [← hlist s.reqs]
  rfl

end Removed

/-! ## Fault records (R109, R110) -/

/-- A record of a partition's fault queue is written or held. -/
structure RecordFrame (p : PartIx) (s t : State) : Prop where
  eq : t = { s with parts := t.parts, memory := t.memory, hif := { s.hif with hostOut := t.hif.hostOut } }
  part : t.part p = { s.part p with fqheld := (t.part p).fqheld, fqtail := (t.part p).fqtail }

namespace RecordFrame

variable {p : PartIx} {s t : State} (h : RecordFrame p s t)
include h

theorem cores : t.cores = s.cores := by rw [h.eq]
theorem core (c : CoreIx) : t.core c = s.core c := by rw [h.eq]; rfl
theorem reqs : t.reqs = s.reqs := by rw [h.eq]
theorem chron : t.chron = s.chron := by rw [h.eq]
theorem partOf (c : CoreIx) : t.partOf c = s.partOf c := by rw [h.eq]; rfl
theorem logical (c : CoreIx) : t.logical p c = s.logical p c := by rw [h.eq]; rfl

theorem running (hr : Running s p) : Running t p := by
  unfold Running at hr ⊢
  rw [h.part]
  exact hr

end RecordFrame

section Record

variable (s : State) (p : PartIx) (code : Nat) (w : Who)

theorem State.recordFrame_fqWrite : RecordFrame p s (s.fqWrite p code w) := by
  unfold State.fqWrite
  dsimp only
  split
  · exact ⟨rfl, rfl⟩
  · split
    · exact ⟨rfl, by rw [State.part_updPart]⟩
    · rw [State.paWrite_eq]
      split
      · exact ⟨rfl, by rw [State.part_updPart]; rfl⟩
      · exact ⟨rfl, by rw [State.hostPost_part, State.part_updPart]; rfl⟩

variable {s p}

/-- Where the queue has room, a record moves FQTAIL on. -/
theorem State.part_fqWrite_room (hhalts : s.halts p = false) (hheld : (s.part p).fqheld = [])
    (hroom : ((s.part p).fqtail - (s.part p).fqhead).toNat ≠ 2 ^ (6 + (s.part p).fqsz.toNat)) :
    (s.fqWrite p code w).part p = { s.part p with fqtail := (s.part p).fqtail + 1 } := by
  unfold State.fqWrite
  dsimp only
  rw [hhalts, if_neg (fun h => Bool.false_ne_true h.2), if_neg (fun h => h.elim hroom (by simp [hheld])), State.paWrite_eq]
  split
  · rw [State.part_updPart]
    rfl
  · rw [State.hostPost_part, State.part_updPart]
    rfl

end Record

/-! ## Hard faults of an engine's access (R68, R106, R137) -/

/-- The halt a running partition begins for a fault of an engine of a core. -/
theorem State.part_coreFault_running {s : State} {p : PartIx} {c : CoreIx} (hp : s.partOf c = some p) (hr : Running s p) (e code : Nat) (pc : Int)
    (ia handle : Nat) : ((s.coreFault c e code pc ia handle).part p).halting = some
      { code := code, cycle := s.chron, core := s.logical p c, eng := e, pc := pc, ia := ia, handle := handle, beat := 0xFF, nests := none } := by
  simp only [State.coreFault, hp]
  rw [State.part_hardFault_running hr]

/-- A deviation of an engine's request: the request is gone, and the partition begins its halt (R137). -/
theorem State.coreFault_dropReq {s : State} {r : Req} {p : PartIx} (hp : s.partOf r.core = some p) (hr : Running s p) (code : Nat) :
    ((s.dropReq r.id).coreFault r.core r.who code r.pc r.ia r.handle).req r.id = none
      ∧ ((s.dropReq r.id).coreFault r.core r.who code r.pc r.ia r.handle).memory = s.memory
      ∧ ((s.dropReq r.id).coreFault r.core r.who code r.pc r.ia r.handle).cores = s.cores
      ∧ ∃ x, (((s.dropReq r.id).coreFault r.core r.who code r.pc r.ia r.handle).part p).halting = some x ∧ x.code = code ∧ x.cycle = s.chron
        ∧ x.eng = r.who ∧ x.core = s.logical p r.core ∧ x.pc = r.pc := by
  have hpd : (s.dropReq r.id).partOf r.core = some p := hp
  have hrd : Running (s.dropReq r.id) p := hr
  have hf := FaultFrame.coreFault hpd r.who code r.pc r.ia r.handle 0xFF none
  refine ⟨?_, hf.memory, hf.cores, _, State.part_coreFault_running hpd hrd .., rfl, rfl, rfl, rfl, rfl⟩
  unfold State.req
  rw [hf.reqs]
  exact s.req_dropReq r.id

section LinkFaultOf

variable {s : State} {r : Req} {p : PartIx} {id : Nat}

/-- What a port does to a request of an engine that gets no data: it is gone and the partition begins its halt (R68). -/
theorem State.linkFaultOf_engine (hid : r.id = id) (hw : r.who < 5) (hp : s.partOf r.core = some p) (hpart : r.part = some p) (hr : Running s p) (code : Nat) :
    (∃ x, ((s.linkFaultOf r code).part p).halting = some x ∧ x.code = code ∧ x.eng = r.who ∧ x.core = s.logical p r.core) ∧
      (s.linkFaultOf r code).req id = none ∧ (s.linkFaultOf r code).cores = s.cores := by
  have hrec : RecordFrame p (s.dropReq r.id) ((s.dropReq r.id).reqRecord p code r r.lastEntry r.lastLevel) := State.recordFrame_fqWrite ..
  have heq : s.linkFaultOf r code = ((s.dropReq r.id).reqRecord p code r r.lastEntry r.lastLevel).coreFault r.core r.who code r.pc r.ia r.handle := by
    unfold State.linkFaultOf
    dsimp only
    rw [if_pos hw, hpart]
  generalize (s.dropReq r.id).reqRecord p code r r.lastEntry r.lastLevel = u at hrec heq
  have hpu : u.partOf r.core = some p := (hrec.partOf r.core).trans hp
  have hf := FaultFrame.coreFault hpu r.who code r.pc r.ia r.handle 0xFF none
  rw [heq]
  refine ⟨⟨_, State.part_coreFault_running hpu (hrec.running hr) .., rfl, rfl, hrec.logical r.core⟩, ?_, hf.cores.trans hrec.cores⟩
  unfold State.req
  rw [hf.reqs, hrec.reqs, ← hid]
  exact s.req_dropReq r.id

end LinkFaultOf

/-! ## The fault of a load or store of a user-mode sequencer (R106, R152) -/

section Trap

variable {s : State} {r : Req} {p : PartIx}

theorem State.dropMate_of_no_command (h : ∀ x, r.dest ≠ .cmd x) (c : CoreIx) : s.dropMate c r = s := by
  have hmate : s.mate r = none := by
    unfold State.mate
    split
    next hx => exact absurd hx (h _)
    · rfl
  unfold State.dropMate
  rw [hmate]

/-- What the record of a fault of a sequencer in a free leg names (R109). -/
def State.seqWho (s : State) (c : CoreIx) (va ia : Nat) (wr at_ : Bool) (entry level handle : Nat) : Who :=
  { req := 0, core := c.val, wr := wr, at_ := at_, fixed := false, va := va, ia := ia, leg := (s.core c).ctl.legno.toNat,
    course := (s.core c).ctl.course.toNat, handle := handle, entry := entry, level := level }

/-- A fault with a record traps in user mode of a free leg, where the queue has room. -/
theorem State.seqFault_traps {c : CoreIx} {code : Nat} (hcode : 0x30 ≤ code ∧ code ≤ 0x34) (hp : s.partOf c = some p)
    (hsup : (s.core c).seq.sup = false) (hfixed : s.fixedLeg c = false) (hhalts : s.halts p = false) (hheld : (s.part p).fqheld = [])
    (hroom : ((s.part p).fqtail - (s.part p).fqhead).toNat ≠ 2 ^ (6 + (s.part p).fqsz.toNat)) (pc : Int) (took : Bool) (va ia : Nat) (wr at_ : Bool)
    (entry level handle : Nat) : s.seqFault c code pc took va ia wr at_ entry level handle =
      (s.fqWrite p code (s.seqWho c va ia wr at_ entry level handle)).upd c fun x => { x with seq := x.seq.trap s.chron code pc took } := by
  have hrec : (decide (0x30 ≤ code) && decide (code ≤ 0x34)) = true := by simp [hcode]
  have hframe := State.recordFrame_fqWrite s p code (s.seqWho c va ia wr at_ entry level handle)
  have hsees : ((s.fqWrite p code (s.seqWho c va ia wr at_ entry level handle)).part p).recordHeld c 0 = false := by
    rw [State.part_fqWrite_room code _ hhalts hheld hroom, Part.recordHeld]
    dsimp only
    rw [hheld]
    rfl
  have hp' : (s.fqWrite p code (s.seqWho c va ia wr at_ entry level handle)).partOf c = some p := (hframe.partOf c).trans hp
  have hchron := hframe.chron
  unfold State.seqFault
  rw [hrec, hp, hfixed]
  dsimp only
  have hfree : ((true || code == 0x24) && !false && !false) = true := rfl
  rw [hsup, if_pos rfl, if_pos hfree]
  generalize hu : s.fqWrite p code (s.seqWho c va ia wr at_ entry level handle) = u at hsees hp' hchron
  unfold State.seqWho at hu
  rw [hu, hp']
  dsimp only
  have hwritten : ¬ (true && (u.part p).recordHeld c 0) = true := by rw [hsees]; decide
  rw [← hchron]
  exact if_neg hwritten

end Trap

end Sys2Proof.Machine

namespace Sys2Proof.Machine

/-! ## What the events of an access run (R103 to R106) -/

section AccessEvents

variable {s : State} {id : Nat} {r : Req}

section PageWalk

variable (hopen : Open s id r)
include hopen

/-- An access that need not wait, of a core that is not fenced, is walked. -/
theorem State.exec_pageWalk_walks (hfence : r.who < 5 → (s.core r.core).killed = false) (hwait : s.reqWaits r = false) :
    exec (.pageWalk id) s = .next (s.walkReq r) := by
  obtain ⟨hreq, -, hdone⟩ := hopen
  have hlive : ¬ (r.who < 5 ∧ (s.core r.core).killed = true) := fun h => Bool.false_ne_true ((hfence h.1).symm.trans h.2)
  show Host.Outcome.next _ = _
  rw [hreq]
  dsimp only
  rw [hdone, if_neg Bool.false_ne_true, if_neg hlive, hwait, if_neg Bool.false_ne_true]

theorem State.exec_pageWalk_waits (hfence : r.who < 5 → (s.core r.core).killed = false) (hwait : s.reqWaits r = true) :
    exec (.pageWalk id) s = .next (s.schedC (s.chron + 1) r.core (.pageWalk id)) := by
  obtain ⟨hreq, -, hdone⟩ := hopen
  have hlive : ¬ (r.who < 5 ∧ (s.core r.core).killed = true) := fun h => Bool.false_ne_true ((hfence h.1).symm.trans h.2)
  show Host.Outcome.next _ = _
  rw [hreq]
  dsimp only
  rw [hdone, if_neg Bool.false_ne_true, if_neg hlive, if_pos hwait]

theorem State.exec_pageWalk_fenced (hw : r.who < 5) (hkilled : (s.core r.core).killed = true) :
    exec (.pageWalk id) s = .next (s.dropReq id) := by
  obtain ⟨hreq, -, hdone⟩ := hopen
  show Host.Outcome.next _ = _
  rw [hreq]
  dsimp only
  rw [hdone, if_neg Bool.false_ne_true, if_pos ⟨hw, hkilled⟩]

theorem State.exec_refusalRetry_load {d : Fin 32} {n : Nat} {t pair : Bool} (hdest : r.dest = .gpr d n t pair) :
    exec (.refusalRetry id) s = .next (s.walkReq r) := by
  obtain ⟨hreq, -, hdone⟩ := hopen
  show Host.Outcome.next _ = _
  rw [hreq]
  dsimp only
  rw [hdest]
  dsimp only
  rw [hdone, if_neg Bool.false_ne_true]

/-- With nothing of its core before it, an access to the own scratchpad is performed and answered (R298). -/
theorem State.exec_accessResponse_own {u : State} {r' : Req} (hown : r.own = true) (hkilled : (s.core r.core).killed = false)
    (hwait : s.reqWaits r = false) (hfirst : ∀ x ∈ s.reqs, x.id < id → x.core = r.core → x.done = true)
    (hperf : s.performReq r (spadKey r.core.val (r.ia % 2 ^ 23)) = u) (hfound : u.req id = some r') :
    exec (.accessResponse id) s = .next (u.respond r') := by
  obtain ⟨hreq, hid, hdone⟩ := hopen
  have hbefore : s.ownBefore r = s := by
    unfold State.ownBefore
    rw [List.filter_eq_nil_iff.mpr]
    · rfl
    · intro x hx h
      simp only [Bool.and_eq_true, beq_iff_eq, decide_eq_true_eq, Bool.not_eq_true'] at h
      obtain ⟨⟨⟨⟨⟨⟨⟨-, hopen⟩, -⟩, -⟩, hcore⟩, hlt⟩, -⟩, -⟩ := h
      exact Bool.false_ne_true (hopen.symm.trans (hfirst x hx (hid ▸ hlt) hcore))
  have hnow : (r.own && !r.done) = true := by rw [hown, hdone]; rfl
  show Host.Outcome.next _ = _
  rw [hreq]
  dsimp only
  rw [if_pos hnow, hkilled, if_neg Bool.false_ne_true, hwait, if_neg Bool.false_ne_true, hbefore, hperf, hfound]

end PageWalk

/-- What the migration engine reads is kept for its move (R115). -/
theorem State.respond_move {off : Nat} {m : Moving} (herr : r.err = none) (hdest : r.dest = .mig off) (hkind : r.kind = .read)
    (hm : s.mig.moving = some m) : s.respond r =
      { s.dropReq r.id with mig := { s.mig with moving := some { m with got := m.got ++ [(off, r.result)] } } } := by
  have hdrop : (s.dropReq r.id).mig.moving = some m := hm
  unfold State.respond State.respondData State.answer
  rw [herr]
  dsimp only
  rw [hdest]
  dsimp only
  rw [hkind, if_neg (by decide), hdrop]
  rfl

/-! ## Completions (R58, R68, R104) -/

section Completion

variable (hopen : Open s id r) (hparts : ∀ x ∈ s.reqs, ∀ y ∈ x.parts, y.1 ≠ id)
include hopen hparts

/-- No request was split into one of this identity: the completion is the request's own. -/
theorem State.find_completed : s.reqs.find? (fun r => r.id == id || r.parts.any fun x => x.1 == id) = some r := by
  obtain ⟨hreq, -, -⟩ := hopen
  refine (List.find?_congr fun x hx => ?_).trans hreq
  have hany : (x.parts.any fun y => y.1 == id) = false := List.any_eq_false.mpr fun y hy => by simpa using hparts x hx y hy
  rw [hany, Bool.or_false]

theorem State.gather_completed (bs : List Byte) : r.gather id bs = r := by
  have hr : ∀ y ∈ r.parts, y.1 ≠ id := hparts r (List.mem_of_find?_eq_some hopen.1)
  have hmap : (r.parts.map fun x => if x.1 = id then (x.1, x.2.1, some ((bs ++ List.replicate x.2.1 0).take x.2.1)) else x) = r.parts :=
    (List.map_congr_left fun y hy => if_neg (hr y hy)).trans (List.map_id _)
  unfold Req.gather
  rw [hmap]

variable {port : Nat} (hsent : r.sent = some port) (hf : s.isFrozen = false)
include hsent hf

/-- A completion with UR or CA: 0x34 for an AtomicOp of a sequencer on the host port, 0x64 for any other access. -/
theorem State.exec_completionArrival_fails {st : CplStatus} (hst : st ≠ .ok) : exec (.completionArrival id st []) s = .next
    (if st = .ur ∧ port = 48 ∧ r.kind.isAtomic ∧ r.who = 0 then (s.dropReq r.id).seqRespFault r.core r 0x34 r.lastEntry r.lastLevel
      else s.linkFaultOf r 0x64) := by
  show Host.Outcome.next (if s.isFrozen then _ else s.complete id st []) = _
  rw [hf, if_neg Bool.false_ne_true]
  unfold State.complete
  rw [State.find_completed hopen hparts]
  dsimp only
  rw [hsent]
  dsimp only
  rw [State.gather_completed hopen hparts, hopen.2.2, if_neg Bool.false_ne_true]
  cases st
  · exact absurd rfl hst
  · rfl
  · rfl

/-- The data of a read of the migration engine. -/
theorem State.exec_completionArrival_move {bs : List Byte} {off : Nat} {m : Moving} (hwhole : r.parts = []) (hw : r.who = 7) (hkind : r.kind = .read)
    (herr : r.err = none) (hlen : bs.length = r.n) (hdest : r.dest = .mig off) (hm : s.mig.moving = some m) :
    exec (.completionArrival id .ok bs) s = .next
      { s with reqs := s.reqs.filter fun x => x.id != id, mig := { s.mig with moving := some { m with got := m.got ++ [(off, bs)] } } } := by
  have hdata : (bs ++ List.replicate r.n 0).take r.n = bs := by rw [← hlen, List.take_left]
  have hall : ¬ (r.parts.any fun x => x.2.2.isNone) = true := by rw [hwhole]; exact Bool.false_ne_true
  have hone : r.parts.isEmpty = true := by rw [hwhole]; rfl
  have hno : ¬ (r.who < 5 ∧ r.n ≠ 0) := fun h => absurd h.1 (by omega)
  have hanswer := State.respond_move (s := s.setReq { r with result := bs, done := true }) (r := { r with result := bs, done := true }) herr hdest hkind hm
  have hdrop := State.dropReq_setReq s { r with result := bs, done := true }
  rw [hdrop] at hanswer
  have hdone := hopen.2.2
  obtain rfl := hopen.2.1
  show Host.Outcome.next (if s.isFrozen then _ else s.complete r.id .ok bs) = _
  rw [hf, if_neg Bool.false_ne_true]
  unfold State.complete
  rw [State.find_completed hopen hparts]
  dsimp only
  rw [hsent]
  dsimp only
  rw [State.gather_completed hopen hparts, hdone, if_neg Bool.false_ne_true, if_neg hall, if_pos hone, hdata]
  refine congrArg Host.Outcome.next (Eq.trans (congrArg (fun u : State => u.respond { r with result := bs, done := true }) ?_) hanswer)
  split
  · exact if_neg hno
  · rfl

end Completion

end AccessEvents

end Sys2Proof.Machine

namespace Sys2Proof.Machine

/-! ## A fault of a user-mode AtomicOp on the host port (R68, R106) -/

section Atomic

variable {s : State} {r : Req} {p : PartIx}

/-- A core whose sequencer no longer waits for a request. -/
def Core.unheld (k : Core) (id now : Nat) : Core := { k with seq := k.seq.release id now, pipe := k.pipe.cancel id }

/-- The sequencer traps with 0x34 and its record moves FQTAIL on. -/
theorem State.seqRespFault_traps (hdest : ∀ x, r.dest ≠ .cmd x) (hp : s.partOf r.core = some p) (hsup : (s.core r.core).seq.sup = false)
    (hfixed : s.fixedLeg r.core = false) (hhalts : s.halts p = false) (hheld : (s.part p).fqheld = [])
    (hroom : ((s.part p).fqtail - (s.part p).fqhead).toNat ≠ 2 ^ (6 + (s.part p).fqsz.toNat)) (entry level : Nat) :
    ((s.seqRespFault r.core r 0x34 entry level).core r.core).seq = (s.core r.core).seq.trap s.chron 0x34 r.pc r.took
      ∧ (s.seqRespFault r.core r 0x34 entry level).part p = { s.part p with fqtail := (s.part p).fqtail + 1 }
      ∧ (s.seqRespFault r.core r 0x34 entry level).reqs = s.reqs := by
  have hcore := s.core_upd r.core fun k => k.unheld r.id s.chron
  have hsup' : ((s.upd r.core fun k => k.unheld r.id s.chron).core r.core).seq.sup = false := by
    rw [hcore]
    exact (Seq.sup_release ..).trans hsup
  have hleg : (s.upd r.core fun k => k.unheld r.id s.chron).fixedLeg r.core = false := by
    unfold State.fixedLeg at hfixed ⊢
    rw [hcore]
    exact hfixed
  have heq : s.seqRespFault r.core r 0x34 entry level = (s.upd r.core fun k => k.unheld r.id s.chron).seqFault r.core 0x34 r.pc r.took r.va r.ia
      r.kind.wr (r.kind.right == .atomic) entry level := by
    unfold State.seqRespFault
    dsimp only
    rw [State.dropMate_of_no_command hdest, if_neg (by decide)]
    rfl
  rw [heq, State.seqFault_traps (s := s.upd r.core fun k => k.unheld r.id s.chron) ⟨by decide, by decide⟩ hp hsup' hleg hhalts hheld hroom]
  refine ⟨?_, State.part_fqWrite_room (s := s.upd r.core fun k => k.unheld r.id s.chron) _ _ hhalts hheld hroom, (State.recordFrame_fqWrite ..).reqs⟩
  rw [State.core_upd, (State.recordFrame_fqWrite ..).core, hcore]
  exact Seq.trap_release ..

end Atomic

end Sys2Proof.Machine

namespace Sys2Proof

open Machine

/-- Settles O49: what each event of an access runs, then what its walk, its data or its fault leave. -/
theorem accesses : Obligations.Accesses := by
  refine ⟨fun s id r p key bs m hopen hwait hwalks hw hlive hwalk hlost hperf => ?_,
    fun s id r p h hopen hwait hwalks hlive hfree hwalk => ?_,
    fun s id r p hopen hwait hpart hlive hfree hbusy => ?_,
    fun s id r p hopen hwait hpart hw hlive hfixed hor hp hr => ?_,
    fun s id r p code e l hopen hwait hwalks hlive hwalk => ?_,
    fun s id r hopen hlive hwait => State.exec_pageWalk_waits hopen hlive hwait,
    fun s id r hopen hw hkilled => State.exec_pageWalk_fenced hopen hw hkilled,
    fun s id r p key bs m d n t0 pr hopen hdest hwalks hw hwalk hlost hperf => ?_,
    fun s id r d n t0 hreq hid hdone herr hdest hd hn => ?_,
    fun s id r bs hopen herr hown hkind hdest hwait hlive hfirst => ?_,
    fun s id r port st p hopen hparts hsent hf hst hw hno hp hpart hr => ?_,
    fun s id r p hopen hparts hsent hf hw hatomic hdest hp hsup hfixed hheld hroom hhalts => ?_,
    fun s id r port bs off m hopen hparts hwhole hsent hf hw hkind herr hlen hdest hm =>
      State.exec_completionArrival_move hopen hparts hsent hf hwhole hw hkind herr hlen hdest hm,
    fun s id st bs hf => ?_,
    fun s id r p hopen hw hp hpart hr => ?_,
    fun s id hdone => ?_,
    fun s p c e r hfind => ?_,
    fun s p c e hnone => ?_⟩
  · obtain rfl := hopen.2.1
    obtain ⟨e, he, hcycle, hcore, hinstr⟩ := State.response_performed s r bs m
    refine ⟨s.performed r bs m, ?_, rfl, State.req_performed hopen.1 bs m, rfl, rfl, rfl, rfl, e, he, hcycle, hcore, hinstr⟩
    rw [State.exec_pageWalk_walks hopen (fun _ => hlive) hwait, State.walkReq_walked hwalks, hwalk]
    exact congrArg Host.Outcome.next (State.doReq_ok hopen.1 (.inl hw) hlost hperf)
  · rw [State.exec_pageWalk_walks hopen hlive hwait, State.walkReq_walked hwalks, hwalk, ← hopen.2.1]
    exact congrArg Host.Outcome.next (if_neg (by rw [hfree]; exact Bool.false_ne_true))
  · rw [State.exec_pageWalk_walks hopen hlive hwait, State.walkReq_busy hpart hbusy, hfree, ← hopen.2.1]
    rfl
  · obtain rfl := hopen.2.1
    have hdeviates : s.walkReq r = (s.dropReq r.id).coreFault r.core r.who 0x41 r.pc r.ia r.handle := by
      rcases hor with hbusy | ⟨hwalks, h, x, hwalk⟩
      · rw [State.walkReq_busy hpart hbusy, if_pos hfixed]
      · rw [State.walkReq_walked hwalks, hwalk]
        exact if_pos hfixed
    exact ⟨_, (State.exec_pageWalk_walks hopen (fun _ => hlive) hwait).trans (congrArg Host.Outcome.next hdeviates), State.coreFault_dropReq hp hr 0x41⟩
  · rw [State.exec_pageWalk_walks hopen hlive hwait, State.walkReq_walked hwalks, hwalk, ← hopen.2.1]
    rfl
  · obtain rfl := hopen.2.1
    obtain ⟨e, he, hcycle, hcore, hinstr⟩ := State.response_performed s r bs m
    refine ⟨s.performed r bs m, ?_, rfl, State.req_performed hopen.1 bs m, rfl, rfl, e, he, hcycle, hcore, hinstr⟩
    rw [State.exec_refusalRetry_load hopen hdest, State.walkReq_walked hwalks, hwalk]
    exact congrArg Host.Outcome.next (State.doReq_ok hopen.1 (.inl hw) hlost hperf)
  · obtain rfl := hid
    have hdata : s.respond r = (s.dropReq r.id).upd r.core fun k =>
        { k with seq := k.seq.landed r s.chron d (sext64 (8 * n) (ofBytes r.result)) t0 } :=
      (State.respond_seq herr (.inl ⟨d, n, t0, false, hdest⟩)).trans (State.seqFill_gpr hdest hn r.core)
    refine ⟨_, (State.exec_accessResponse_done hreq hdone).trans (congrArg Host.Outcome.next hdata), ?_⟩
    rw [State.core_upd]
    exact ⟨Seq.gpr_landed _ _ _ _ _ hd, Seq.tnt_landed _ _ _ _ _ hd, Seq.hold_landed _ _ _ _ _, s.req_dropReq r.id,
      fun x hx => State.core_upd_ne _ hx _, fun x hx => Seq.gpr_landed_ne _ _ _ _ _ hx, rfl, rfl, rfl, rfl, rfl⟩
  · obtain rfl := hopen.2.1
    have hperf := State.performReq_ok (s := s) (r := r) (key := spadKey r.core.val (r.ia % 2 ^ 23)) (bs := [])
      (m := writeBytes s.memory (spadKey r.core.val (r.ia % 2 ^ 23)) bs) (by rw [hkind]; exact fun h => absurd h Bool.false_ne_true) (by rw [hkind]; rfl)
    have hfound := State.req_setReq (s := { s with memory := writeBytes s.memory (spadKey r.core.val (r.ia % 2 ^ 23)) bs })
      (r := { r with result := [], done := true }) hopen.1
    refine ⟨_, (State.exec_accessResponse_own hopen hown hlive hwait hfirst hperf hfound).trans
      (congrArg Host.Outcome.next ((State.respond_seq (by exact herr) (.inr (by exact hdest))).trans (State.seqFill_none (by exact hdest) _))), rfl, ?_, ?_, rfl⟩
    · exact State.req_dropReq _ r.id
    · exact fun x hx => State.core_upd_ne _ hx _
  · obtain ⟨hreq, hid, hdone⟩ := hopen
    obtain ⟨hhalt, hgone, hcores⟩ := State.linkFaultOf_engine hid hw hp hpart hr 0x64
    refine ⟨_, ?_, hhalt, hgone, hcores⟩
    rw [State.exec_completionArrival_fails ⟨hreq, hid, hdone⟩ hparts hsent hf hst, if_neg hno]
  · obtain rfl := hopen.2.1
    obtain ⟨hseq, hpart, hreqs⟩ := State.seqRespFault_traps (s := s.dropReq r.id) hdest hp hsup hfixed hhalts hheld hroom r.lastEntry r.lastLevel
    refine ⟨_, ?_, ?_, hseq, by rw [hpart]; rfl, by rw [hpart]; rfl⟩
    · rw [State.exec_completionArrival_fails hopen hparts hsent hf (by decide), if_pos ⟨rfl, rfl, hatomic, hw⟩]
    · unfold State.req
      rw [hreqs]
      exact s.req_dropReq r.id
  · exact congrArg Host.Outcome.next (if_pos hf)
  · obtain ⟨hreq, hid, hdone⟩ := hopen
    refine ⟨_, ?_, State.linkFaultOf_engine hid hw hp hpart hr 0x63⟩
    show Host.Outcome.next _ = _
    rw [hreq]
    exact congrArg Host.Outcome.next (if_neg (by rw [hdone]; exact Bool.false_ne_true))
  · show Host.Outcome.next _ = _
    split
    · rfl
    next r hreq => exact congrArg Host.Outcome.next (if_pos (hdone r hreq))
  · show Host.Outcome.next _ = _
    rw [hfind]
    rfl
  · have hfind : s.reqs.find? (fun r => r.dest == .stopRec p.val c.val (Fin.val e) && decide (r.issued + 2 ^ 20 ≤ s.chron)) = none := by
      refine List.find?_eq_none.mpr fun r hr h => ?_
      obtain ⟨hdest, hold⟩ := Bool.and_eq_true_iff.mp h
      exact absurd (hnone r hr (beq_iff_eq.mp hdest)) (Nat.not_lt.mpr (of_decide_eq_true hold))
    show Host.Outcome.next _ = _
    rw [hfind]

end Sys2Proof

/-! # Contexts: the mailbox, the launch, keys, the switch, the Lookout, replay (R78 to R91, R140 to R147, R162, R166) -/

namespace Sys2Proof.Machine

/-! ## Partitions and their slots -/

/-- Two changes of a partition in a row are one. -/
theorem State.updPart_updPart (s : State) (p : PartIx) (f g : Part → Part) : (s.updPart p f).updPart p g = s.updPart p fun q => g (f q) := by
  show ({ s with parts := tput (tput s.parts p.val _) p.val (g ((s.updPart p f).part p)) } : State) = _
  rw [tput_tput, State.part_updPart]
  rfl

theorem Part.slot_updSlot (q : Part) (j : Fin 8) (f : Slot → Slot) : (q.updSlot j f).slots[j] = f q.slots[j] := Vector.getElem_set_self ..

theorem Part.slot_updSlot_ne (q : Part) {i j : Fin 8} (h : i ≠ j) (f : Slot → Slot) : (q.updSlot j f).slots[i] = q.slots[i] :=
  Vector.getElem_set_ne j.isLt i.isLt fun e => h (Fin.ext e.symm)

theorem Part.updSlot_self (q : Part) (j : Fin 8) {f : Slot → Slot} (h : f q.slots[j] = q.slots[j]) : q.updSlot j f = q := by
  rw [Part.updSlot, h, Fin.getElem_fin, Vector.set_getElem_self]

/-- The slot of a running context is in RUN. -/
theorem Part.run_of_runSlot {q : Part} {j : Fin 8} (h : q.runSlot = some j) : q.slots[j].st = .run := by
  simpa using List.find?_some h

theorem Part.not_run_of_runSlot {q : Part} (h : q.runSlot = none) (j : Fin 8) : q.slots[j].st ≠ .run := fun hj =>
  List.find?_eq_none.mp h j (List.mem_finRange j) (decide_eq_true hj)

theorem Part.preempted_of_preSlot {q : Part} {j : Fin 8} (h : q.preSlot = some j) : q.slots[j].st = .preempted := by
  simpa using List.find?_some h

/-- The one slot in RUN is that of the running context. -/
theorem Part.runSlot_of_only {q : Part} {j : Fin 8} (hj : q.slots[j].st = .run) (hone : ∀ i, i ≠ j → q.slots[i].st ≠ .run) : q.runSlot = some j := by
  cases h : q.runSlot with
  | none => exact absurd hj (Part.not_run_of_runSlot h j)
  | some i => exact congrArg some (by_contra fun hne => hone i hne (Part.run_of_runSlot h))

/-! ## The end of a context (R78, R83, R142) -/

theorem KeysOnly.part {s t : State} (h : KeysOnly s t) (p : PartIx) : t.part p = s.part p := by rw [h.eq]; rfl

section Ends

variable (s : State) (p : PartIx) (j : Fin 8) (st : CtxState)

theorem State.part_fire (fn v : Nat) : (s.fire fn v).part p = s.part p := rfl

theorem State.part_vfInt (v : Fin 2) : (s.vfInt p v).part p = { s.part p with vintst := ((s.vfInt p v).part p).vintst } := by
  unfold State.vfInt
  dsimp only
  split
  · rw [State.part_fire, State.part_updPart]
  · rw [State.part_updPart]

theorem State.part_mailEvent : (s.mailEvent p).part p = { s.part p with vintst := ((s.mailEvent p).part p).vintst } := by
  unfold State.mailEvent
  split
  · rw [State.pfInt_eq]
    exact s.part_vfInt p 0
  · rfl

theorem State.part_slotTo : (s.slotTo p j st).part p =
    { (s.part p).updSlot j (fun x => { x with st := st }) with vintst := ((s.slotTo p j st).part p).vintst } := by
  unfold State.slotTo
  dsimp only
  split
  · rw [State.part_mailEvent, State.part_updPart]
  · rw [State.part_updPart]

/-- A state whose entry is no mailbox event changes the slot alone (R83). -/
theorem State.slotTo_quiet (h : st.event = false) : s.slotTo p j st = s.updPart p fun q => q.updSlot j fun x => { x with st := st } := by
  unfold State.slotTo
  rw [h]
  rfl

theorem State.part_schedP (n : Nat) (q : PartIx) (i : Instr) : (s.schedP n q i).part p = s.part p := rfl

theorem State.part_kickHelm : (s.kickHelm p).part p = { s.part p with schedDue := ((s.kickHelm p).part p).schedDue } := by
  unfold State.kickHelm
  split
  · rfl
  · dsimp only [State.drawHelm]
    rw [State.part_schedP, State.part_updPart]
    rfl

theorem State.part_unname : (s.unname p j).part p = (s.part p).updSlot j fun x => { x with key := none } := by
  unfold State.unname
  split
  next h => exact (Part.updSlot_self _ j (by rw [← h])).symm
  next => rw [(KeysOnly.keyFlush ..).part, State.part_updPart]

/-- The partition once a context has ended. -/
theorem State.part_endSlot (code : Nat) : (s.endSlot p j st code).part p =
    { (s.part p).updSlot j (fun x => { x with code := BitVec.ofNat 8 code, key := none, st := st }) with
      vintst := ((s.endSlot p j st code).part p).vintst, schedDue := ((s.endSlot p j st code).part p).schedDue } := by
  unfold State.endSlot
  dsimp only
  rw [(AddsEvents.hotCheckAll _).part, State.part_kickHelm, State.part_slotTo, State.part_unname, State.part_updPart]
  simp only [Part.updSlot, Fin.getElem_fin, Vector.getElem_set_self, Vector.set_set]

theorem State.slot_endSlot (code : Nat) : ((s.endSlot p j st code).part p).slots[j] =
    { (s.part p).slots[j] with code := BitVec.ofNat 8 code, key := none, st := st } := by
  rw [State.part_endSlot]
  dsimp only
  exact Part.slot_updSlot _ _ _

theorem State.slot_endSlot_ne (code : Nat) {i : Fin 8} (h : i ≠ j) : ((s.endSlot p j st code).part p).slots[i] = (s.part p).slots[i] := by
  rw [State.part_endSlot]
  dsimp only
  exact Part.slot_updSlot_ne _ h _

theorem State.endSlot_fab (code : Nat) : (s.endSlot p j st code).fab = s.fab := by
  unfold State.endSlot
  rw [(AddsEvents.hotCheckAll _).eq]
  exact (State.kickHelm_fab ..).trans ((State.slotTo_fab ..).trans (State.unname_fab ..))

end Ends

/-! ## What stands in a slot (R82, R148, R163) -/

/-- The cycle, a partition's tag and what stands in one of its slots, besides its count of records, are as before. -/
structure SlotStands (p : PartIx) (j : Fin 8) (s t : State) : Prop where
  chron : t.chron = s.chron
  tag : (t.part p).tag = (s.part p).tag
  slot : (t.part p).slots[j] = { (s.part p).slots[j] with seqn := ((t.part p).slots[j]).seqn }

namespace SlotStands

variable {p : PartIx} {j : Fin 8} {s t u : State}

theorem of_part (hc : t.chron = s.chron) (hp : t.part p = s.part p) : SlotStands p j s t := ⟨hc, by rw [hp], by rw [hp]⟩

theorem refl (p : PartIx) (j : Fin 8) (s : State) : SlotStands p j s s := of_part rfl rfl

theorem trans (a : SlotStands p j s t) (b : SlotStands p j t u) : SlotStands p j s u :=
  ⟨b.chron.trans a.chron, b.tag.trans a.tag, by rw [b.slot, a.slot]⟩

theorem updPart (s : State) {f : Part → Part} (ht : (f (s.part p)).tag = (s.part p).tag)
    (hs : (f (s.part p)).slots[j] = { (s.part p).slots[j] with seqn := ((f (s.part p)).slots[j]).seqn }) : SlotStands p j s (s.updPart p f) :=
  ⟨rfl, by rw [State.part_updPart, ht], by rw [State.part_updPart]; exact hs⟩

theorem originateStop (s : State) (code : Nat) : SlotStands p j s (s.originateStop p code) := by
  refine of_part (FaultFrame.originateStop s p code).chron ?_
  unfold State.originateStop
  dsimp only
  (repeat' split) <;> rfl

/-- The fault of a stored context touches no slot but that context's. -/
theorem storedFault (h : (s.part p).slots[j].st ≠ .preempted) (code : Nat) : SlotStands p j s (s.storedFault p code) := by
  refine ⟨(FaultFrame.storedFault s p code).chron, ?_, ?_⟩ <;> unfold State.storedFault <;> split
  · rw [State.part_endSlot, State.part_updPart]
    rfl
  · rfl
  next i hi =>
    have hne : j ≠ i := fun e => h (e ▸ Part.preempted_of_preSlot hi)
    rw [State.slot_endSlot_ne _ _ _ _ _ hne, State.part_updPart]
  · rfl

theorem hardFault (h : (s.part p).slots[j].st ≠ .preempted) (x : Halting) (told : Bool) : SlotStands p j s (s.hardFault p x told) := by
  have htell (t : State) : SlotStands p j t (if told then t else t.originateStop p x.code) := by
    split
    · exact refl p j t
    · exact originateStop t _
  unfold State.hardFault
  dsimp only
  split
  · split
    · exact (updPart s rfl rfl).trans (htell _)
    · exact updPart s rfl rfl
  · split
    · split
      · exact ((updPart s rfl rfl).trans (htell _)).trans (of_part rfl rfl)
      · split
        · exact updPart s rfl rfl
        · exact refl p j s
    · split
      · exact (storedFault h _).trans (htell _)
      · exact refl p j s

theorem paWrite (s : State) (a : Nat) (bs : List Byte) : SlotStands p j s (s.paWrite a bs) := by
  rw [State.paWrite_eq]
  exact of_part rfl rfl

/-- A record in the Logbook moves the slot's count of records alone. -/
theorem logRecord (h : (s.part p).slots[j].st ≠ .preempted) (cls kind eng core arg : Nat) (bs : List Byte) :
    SlotStands p j s (s.logRecord p cls kind eng core arg bs (some j)) := by
  unfold State.logRecord
  extract_lets l k x
  split
  · exact refl p j s
  next size tail body gap fill u v _ =>
    split
    · split
      · exact hardFault h _ _
      · exact updPart s rfl rfl
    · have hu : SlotStands p j s u := by
        unfold u
        split
        · exact refl p j s
        · exact paWrite ..
      refine (hu.trans (paWrite ..)).trans (updPart _ rfl ?_)
      dsimp only [k, Option.getD_some]
      rw [Part.slot_updSlot]

end SlotStands

end Sys2Proof.Machine

namespace Sys2Proof.Machine

/-! ## The mailbox (R80, R82, R85) -/

section Mailbox

variable (s : State) (p : PartIx)

theorem State.shadowed_getD (off len val : Nat) (t : State) : (s.shadowed p off len val).getD t =
    if (s.part p).switching then s.updPart p fun q => { q with shadowWr := q.shadowWr ++ [{ off := off, len := len, val := val }] } else t := by
  unfold State.shadowed
  split <;> rfl

variable {s p} (tag : BitVec 8)

/-- A write of LAUNCH is held while the partition switches (R85). -/
theorem State.exec_launchGo_held (h : (s.part p).switching = true) : exec (.launchGo p tag) s = .next (s.updPart p fun q =>
    { q with shadowWr := q.shadowWr ++ [{ off := 0x18, len := 4, val := 1 + 256 * tag.toNat }] }) :=
  congrArg Host.Outcome.next ((s.shadowed_getD p ..).trans (if_pos h))

theorem State.exec_abort_held (h : (s.part p).switching = true) : exec (.abort p tag) s = .next (s.updPart p fun q =>
    { q with shadowWr := q.shadowWr ++ [{ off := 0x18, len := 4, val := 2 + 256 * tag.toNat }] }) :=
  congrArg Host.Outcome.next ((s.shadowed_getD p ..).trans (if_pos h))

variable (hsw : (s.part p).switching = false)
include hsw

theorem State.exec_launchGo_now : exec (.launchGo p tag) s = .next (s.launchWord p true false tag) :=
  congrArg Host.Outcome.next ((s.shadowed_getD p ..).trans (if_neg (by rw [hsw]; exact Bool.false_ne_true)))

theorem State.exec_abort_now : exec (.abort p tag) s = .next (s.launchWord p false true tag) :=
  congrArg Host.Outcome.next ((s.shadowed_getD p ..).trans (if_neg (by rw [hsw]; exact Bool.false_ne_true)))

/-- GO on a slot without a live context launches one (R82). -/
theorem State.exec_launchGo_free (hlive : ((s.part p).slots[Fin.ofNat 8 (s.part p).slot.toNat]).st.live = false) :
    exec (.launchGo p tag) s = .next ((s.updPart p fun q => { q with tag := tag }).accept p (Fin.ofNat 8 (s.part p).slot.toNat)) :=
  (State.exec_launchGo_now tag hsw).trans (congrArg Host.Outcome.next (if_neg (by rw [hlive]; exact Bool.false_ne_true)))

/-- GO on a live context sets LERR (R82). -/
theorem State.exec_launchGo_live (hlive : ((s.part p).slots[Fin.ofNat 8 (s.part p).slot.toNat]).st.live = true) :
    exec (.launchGo p tag) s = .next (s.updPart p fun q => { q with lerr := true }) :=
  (State.exec_launchGo_now tag hsw).trans (congrArg Host.Outcome.next (if_pos hlive))

/-- ABORT of no live context sets LERR (R82). -/
theorem State.exec_abort_free (hlive : ((s.part p).slots[Fin.ofNat 8 (s.part p).slot.toNat]).st.live = false) :
    exec (.abort p tag) s = .next (s.updPart p fun q => { q with lerr := true }) :=
  (State.exec_abort_now tag hsw).trans (congrArg Host.Outcome.next (if_neg (by rw [hlive]; exact Bool.false_ne_true)))

/-- ABORT of a live context kills it (R82). -/
theorem State.exec_abort_live {j : Fin 8} (hj : (s.part p).slot.toNat = j.val) (hlive : ((s.part p).slots[j]).st.live = true) :
    exec (.abort p tag) s = .next ((s.updPart p fun q => { q with tag := tag }).kill p j) := by
  obtain rfl : Fin.ofNat 8 (s.part p).slot.toNat = j := by rw [hj]; exact Fin.ext (Nat.mod_eq_of_lt j.isLt)
  exact (State.exec_abort_now tag hsw).trans (congrArg Host.Outcome.next (if_pos hlive))

end Mailbox

section Accept

variable (s : State) (p : PartIx) (j : Fin 8)

/-- The launch a mailbox holds. -/
def Part.mailed (q : Part) : Slot := { image := q.image.toNat, argbase := q.argbase.toNat, size := q.size, prio := q.prio, tag := q.tag }

/-- A slot as a launch enters CHECK, written early or not (R46, R82). -/
def Slot.entered (x old : Slot) (early : Bool) : Slot := { x with exit := old.exit, st := .check, early := early }

/-- The Logbook's settings take effect at a launch (R145). -/
def State.latched : State := s.updPart p fun q => { q with lb := q.lb.latch j }

/-- The partition as a launch into a slot enters CHECK. -/
def Part.entered (q : Part) (j : Fin 8) (x : Slot) (early : Bool) : Part :=
  { q.updSlot j fun old => x.entered old early with lastChart := none }

theorem Part.slot_entered (q : Part) (j : Fin 8) (x : Slot) (early : Bool) : (q.entered j x early).slots[j] = x.entered (q.slots[j]) early :=
  Vector.getElem_set_self ..

/-- A launch enters CHECK. -/
def State.entered (x : Slot) : State := s.updPart p fun q => q.entered j x (!s.helm.valid || s.helm.emerg)

/-- The check of a launch is to come. -/
def State.checkDue : State := s.drawHelm.2.schedP (s.chron + s.drawHelm.1) p (.launchCheck p j)

theorem State.checkDue_eq : s.checkDue p j = { s with agenda := (s.checkDue p j).agenda, freeIx := s.freeIx + 1 } := rfl

/-- The check comes after the Helm's latency, which is at least 1 (log 5). -/
theorem State.check_mem_checkDue : ∃ e ∈ (s.checkDue p j).agenda, s.chron < e.cycle ∧ e.part = p ∧ e.instr = .launchCheck p j :=
  ⟨{ cycle := s.chron + (1 + Config.helmLatency s.freeIx), core := s.cur, part := p, link := s.curLink, instr := .launchCheck p j },
    mem_agendaPut .., Nat.lt_add_of_pos_right (Nat.add_pos_left Nat.one_pos _), rfl, rfl⟩

theorem State.part_checkDue (q : PartIx) : (s.checkDue p j).part q = s.part q := rfl

theorem Logbook.latch_act (l : Logbook) : (l.latch j).act = l.ctl.getLsbD 0 := bitAt_toNat l.ctl 0

theorem State.part_latched : (s.latched p j).part p = { s.part p with lb := (s.part p).lb.latch j } := s.part_updPart p _

/-- The launch to accept, by what replay answers: a record, which it consumes, or the mailbox's fields (R82, R147). -/
def State.launchTaken : Option LogRec → State × Slot
  | some r => (s.consumeRecord p r, (s.part p).fromRecord r.payload)
  | none => (s, (s.part p).mailed)

/-- The record replay has of the launch. -/
def State.launchRecord : Option LogRec := if s.replaying p then s.nextRecord p fun r => r.kind == 1 else none

/-- A launch is accepted in steps: the Logbook's settings, the launch itself, CHECK, and its record (R82, R145, R147). -/
theorem State.accept_eq {y : State × Slot} (hy : (s.latched p j).launchTaken p ((s.latched p j).launchRecord p) = y) :
    s.accept p j = ((y.1.entered p j y.2).logRecord p 0 1 0 0x1FF 0 ((s.latched p j).part p).mailBytes (some j)).checkDue p j := by
  subst hy
  show (match (match (s.latched p j).launchRecord p with
    | some r => (((s.latched p j).part p).fromRecord r.payload, (s.latched p j).consumeRecord p r)
    | none => (((s.latched p j).part p).mailed, s.latched p j)) with
    | (x, u) => ((u.entered p j x).logRecord p 0 1 0 0x1FF 0 ((s.latched p j).part p).mailBytes (some j)).checkDue p j) = _
  cases (s.latched p j).launchRecord p <;> rfl

/-- With the Logbook off a launch is that of the mailbox's fields, and is not recorded. -/
theorem State.accept_unlogged (hoff : (s.part p).lb.ctl.getLsbD 0 = false) : s.accept p j =
    ((s.latched p j).entered p j ((s.latched p j).part p).mailed).checkDue p j := by
  have hact : ((s.latched p j).part p).lb.act = false := by rw [State.part_latched]; exact (Logbook.latch_act ..).trans hoff
  have hrec : (s.latched p j).launchRecord p = none := if_neg (by rw [State.replaying_of_off hact]; exact Bool.false_ne_true)
  rw [s.accept_eq p j (by rw [hrec]), State.logRecord_of_off]
  · rfl
  · exact (congrArg (fun q : Part => q.lb.act) (State.part_updPart ..)).trans hact

/-- The partition once a launch is accepted with no Logbook. -/
def Part.launched (q : Part) (j : Fin 8) (early : Bool) : Part :=
  { q with
    lb := q.lb.latch j
    lastChart := none
    slots := q.slots.set j
      { st := .check, image := q.image.toNat, argbase := q.argbase.toNat, size := q.size, prio := q.prio, tag := q.tag, early := early,
        exit := (q.slots[j]).exit } }

theorem State.entered_mailed : (s.latched p j).entered p j ((s.latched p j).part p).mailed =
    s.updPart p fun q => q.launched j (!s.helm.valid || s.helm.emerg) := by
  rw [State.part_latched, State.entered, State.latched, State.updPart_updPart]
  exact State.updPart_congr rfl

/-- Whatever replay gives, the slot enters CHECK with PROGRESS and its counts empty (R80, R145). -/
theorem State.accept_enters : ∃ u : State, s.accept p j = u.checkDue p j ∧ u.chron = s.chron ∧ (u.part p).tag = (s.part p).tag
    ∧ ((u.part p).slots[j]).st = .check ∧ ((u.part p).slots[j]).epoch = 0 ∧ ((u.part p).slots[j]).tkseq = 0 := by
  have htaken (v : State) (o : Option LogRec) : (v.launchTaken p o).1.chron = v.chron ∧ ((v.launchTaken p o).1.part p).tag = (v.part p).tag
      ∧ (v.launchTaken p o).2.epoch = 0 ∧ (v.launchTaken p o).2.tkseq = 0 := by
    cases o with
    | none => exact ⟨rfl, rfl, rfl, rfl⟩
    | some r => exact ⟨rfl, by rw [State.launchTaken, State.consumeRecord, State.part_updPart], rfl, rfl⟩
  obtain ⟨hchron, htag, hepoch, htkseq⟩ := htaken (s.latched p j) ((s.latched p j).launchRecord p)
  generalize hy : (s.latched p j).launchTaken p ((s.latched p j).launchRecord p) = y at hchron htag hepoch htkseq
  have hentered : (y.1.entered p j y.2).part p = (y.1.part p).entered j y.2 (!y.1.helm.valid || y.1.helm.emerg) := State.part_updPart ..
  have hslot := Part.slot_entered (y.1.part p) j y.2 (!y.1.helm.valid || y.1.helm.emerg)
  have hstands := SlotStands.logRecord (p := p) (j := j) (s := y.1.entered p j y.2) (by rw [hentered, hslot]; exact CtxState.noConfusion) 0 1 0 0x1FF 0
    ((s.latched p j).part p).mailBytes
  refine ⟨_, s.accept_eq p j hy, hstands.chron.trans hchron, hstands.tag.trans ?_, ?_, ?_, ?_⟩
  · rw [hentered]
    exact htag.trans (by rw [s.part_latched p j])
  all_goals rw [hstands.slot, hentered, hslot]
  · rfl
  · exact hepoch
  · exact htkseq

end Accept

/-! ## Kills (R82, R144) -/

section Kill

variable {s : State} {p : PartIx} {j : Fin 8}

/-- The halt of a kill. -/
def killOf (t : Nat) : Halting := { code := 0x45, cycle := t, core := 0x1FF, eng := 0, pc := -1, kill := true }

theorem State.kill_running (h : ((s.part p).slots[j]).st = .run) :
    s.kill p j = (s.updPart p fun q => { q with ckreq := false }).hardFault p (killOf s.chron) := by
  unfold State.kill
  dsimp only
  rw [State.part_updPart]
  dsimp only
  rw [h]
  rfl

/-- ABORT of a running context is a fault that kills it (R82). -/
theorem State.exec_abort_running (tag : BitVec 8) (hsw : (s.part p).switching = false) (hj : (s.part p).slot.toNat = j.val)
    (hrun : (s.part p).runSlot = some j) :
    exec (.abort p tag) s = .next ((s.updPart p fun q => { q with tag := tag, ckreq := false }).hardFault p (killOf s.chron)) := by
  have hst := Part.run_of_runSlot hrun
  rw [State.exec_abort_live tag hsw hj (by rw [hst]; rfl), State.kill_running (by rw [State.part_updPart]; exact hst)]
  exact congrArg (fun u => Host.Outcome.next (State.hardFault u p (killOf s.chron))) (State.updPart_updPart ..)

/-- A fault of a partition that halts since an earlier cycle changes nothing (R148). -/
theorem State.hardFault_halting {o : Halting} (hsw : (s.part p).switching = false) (hrun : (s.part p).runSlot = some j)
    (hhalt : (s.part p).halting = some o) {h : Halting} (ho : o.cycle ≠ h.cycle) (told : Bool) : s.hardFault p h told = s := by
  unfold State.hardFault
  dsimp only
  rw [hsw, if_neg Bool.false_ne_true, hrun, hhalt]
  exact if_neg ho

/-- A live context that does not run ends KILLED at once, with the shadow dropped of one that is switched out. -/
theorem State.kill_waiting (h : ((s.part p).slots[j]).st ≠ .run) : ∃ f : Part → Part, (∀ q : Part, (f q).slots = q.slots)
    ∧ (((s.part p).slots[j]).st = .preempted → (f (s.part p)).shadow = none) ∧ s.kill p j = (s.updPart p f).endSlot p j .killed 0 := by
  unfold State.kill
  dsimp only
  rw [State.part_updPart]
  dsimp only
  split
  next hrun => exact absurd hrun h
  next => exact ⟨fun q => { q with ckreq := false, shadow := none, ckheld := false }, fun _ => rfl, fun _ => rfl,
    congrArg (fun u => State.endSlot u p j .killed 0) (State.updPart_updPart ..)⟩
  next hpre => exact ⟨fun q => { q with ckreq := false }, fun _ => rfl, fun e => absurd e hpre, rfl⟩

end Kill

end Sys2Proof.Machine

namespace Sys2Proof

open Machine

theorem launchMailbox : LaunchMailbox := by
  refine ⟨fun s p tag hsw hlive hoff => ?_, fun s p tag hsw hlive => ?_, fun s p tag hsw hlive => State.exec_launchGo_live tag hsw hlive,
    fun s p tag hsw => State.exec_launchGo_held tag hsw, fun s p tag j hj hrun hsw hhalt => ?_, fun s p tag j o hj hrun hsw hhalt ho => ?_,
    fun s p tag j hj hst hsw => ?_, fun s p tag hsw hlive => State.exec_abort_free tag hsw hlive, fun s p tag hsw => State.exec_abort_held tag hsw⟩
  · have htagged : ((s.updPart p fun q => { q with tag := tag }).part p) = { s.part p with tag := tag } := s.part_updPart p _
    have haccept := (State.accept_unlogged _ p (Fin.ofNat 8 (s.part p).slot.toNat) (by rw [htagged]; exact hoff)).trans
      (congrArg (State.checkDue · p _) ((State.entered_mailed ..).trans (State.updPart_updPart ..)))
    refine ⟨_, (State.exec_launchGo_free tag hsw hlive).trans (congrArg Host.Outcome.next haccept), State.check_mem_checkDue .., rfl, rfl, rfl, rfl,
      ?_, fun q hq => ?_, rfl, rfl, rfl, rfl, rfl⟩
    · rw [State.part_checkDue, State.part_updPart]
      rfl
    · rw [State.part_checkDue, State.part_updPart_ne _ hq]
  · obtain ⟨u, haccept, hchron, htag, hst, hepoch, htkseq⟩ := State.accept_enters (s.updPart p fun q => { q with tag := tag }) p
      (Fin.ofNat 8 (s.part p).slot.toNat)
    obtain ⟨e, he, hcycle, hpart, hinstr⟩ := State.check_mem_checkDue u p (Fin.ofNat 8 (s.part p).slot.toNat)
    exact ⟨_, (State.exec_launchGo_free tag hsw hlive).trans (congrArg Host.Outcome.next haccept), hst, hepoch, htkseq,
      htag.trans (by rw [State.part_updPart]), e, he, hchron ▸ hcycle, hpart, hinstr⟩
  · have hpart : ((s.updPart p fun q => { q with tag := tag, ckreq := false }).part p) = { s.part p with tag := tag, ckreq := false } := s.part_updPart p _
    have hr : Running (s.updPart p fun q => { q with tag := tag, ckreq := false }) p := by
      rw [Running, hpart]
      exact ⟨hsw, hhalt, Option.isSome_iff_exists.mpr ⟨j, hrun⟩⟩
    have hframe := FaultFrame.hardFault (s.updPart p fun q => { q with tag := tag, ckreq := false }) p (killOf s.chron) false
    have hafter := State.part_hardFault_running hr (killOf s.chron) false
    rw [hpart] at hafter
    refine ⟨_, State.exec_abort_running tag hsw hj hrun, ⟨_, by rw [hafter], rfl, rfl, rfl⟩, by rw [hafter], by rw [hafter],
      State.halt_mem_hardFault hr (killOf s.chron) false, hframe.cores, hframe.cols, hframe.memory, hframe.reqs⟩
  · rw [State.exec_abort_running tag hsw hj hrun, State.hardFault_halting (h := killOf s.chron) (by rw [State.part_updPart]; exact hsw)
      (by rw [State.part_updPart]; exact hrun) (by rw [State.part_updPart]; exact hhalt) ho]
  · have hlive : ((s.part p).slots[j]).st.live = true := by rcases hst with h | h | h | h <;> rw [h] <;> rfl
    have hrun : ((s.part p).slots[j]).st ≠ .run := by rcases hst with h | h | h | h <;> rw [h] <;> exact CtxState.noConfusion
    have htagged : ((s.updPart p fun q => { q with tag := tag }).part p) = { s.part p with tag := tag } := s.part_updPart p _
    obtain ⟨f, hslots, hshadow, hkill⟩ := State.kill_waiting (s := s.updPart p fun q => { q with tag := tag }) (j := j) (by rw [htagged]; exact hrun)
    have hframe := FaultFrame.endSlot ((s.updPart p fun q => { q with tag := tag }).updPart p f) p j .killed 0
    have hslot := State.slot_endSlot ((s.updPart p fun q => { q with tag := tag }).updPart p f) p j .killed 0
    refine ⟨_, (State.exec_abort_live tag hsw hj hlive).trans (congrArg Host.Outcome.next hkill), by rw [hslot], by rw [hslot]; rfl, by rw [hslot],
      fun hpre => ?_, fun i hi => ?_, hframe.cores, hframe.cols, hframe.memory, hframe.reqs⟩
    · rw [htagged] at hshadow
      rw [State.part_endSlot, State.part_updPart, htagged]
      exact hshadow hpre
    · rw [State.slot_endSlot_ne _ _ _ _ _ hi, State.part_updPart, hslots, htagged]

end Sys2Proof

namespace Sys2Proof.Machine

/-! ## The check of a launch (R84) -/

section Check

variable {s : State} {p : PartIx} {j : Fin 8}

theorem State.rejects_reject (s : State) (p : PartIx) (j : Fin 8) (code : Nat) : Rejects s (s.reject p j code) p j code := by
  have hframe := FaultFrame.endSlot s p j .rejected code
  have hslot := State.slot_endSlot s p j .rejected code
  exact ⟨by rw [State.reject, hslot], by rw [State.reject, hslot], by rw [State.reject, hslot], hframe.cores, hframe.cols, hframe.memory, hframe.reqs,
    State.endSlot_fab ..⟩

theorem State.exec_launchCheck (h : ((s.part p).slots[j]).st = .check) : exec (.launchCheck p j) s = .next (s.check p j) :=
  congrArg Host.Outcome.next (if_pos h)

/-- The tests 0x01 to 0x03 come before the chart is read. -/
theorem State.check_early (h : s.helm.valid = false ∨ s.helm.emerg = true ∨ ((s.part p).slots[j]).early = true) : s.check p j = s.reject p j 0x01 :=
  if_pos (by simpa using h)

/-- A launch passes the test 0x01. -/
theorem not_early_of_checked (h : Checked s p j) : ¬ (¬ s.helm.valid = true ∨ s.helm.emerg = true ∨ ((s.part p).slots[j]).early = true) := by
  obtain ⟨-, hvalid, hemerg, hearly⟩ := h
  rw [hvalid, hemerg, hearly]
  decide

theorem State.check_noCluster (h : Checked s p j) (hn : s.nclu p = 0) : s.check p j = s.reject p j 0x02 :=
  (if_neg (not_early_of_checked h)).trans (if_pos hn)

theorem State.check_misaligned (h : Checked s p j) (hn : s.nclu p ≠ 0)
    (ha : ((s.part p).slots[j]).image % 65536 ≠ 0 ∨ ((s.part p).slots[j]).argbase % 64 ≠ 0) : s.check p j = s.reject p j 0x03 :=
  (if_neg (not_early_of_checked h)).trans ((if_neg hn).trans (if_pos ha))

/-- The load of a context is to come. -/
def State.loadDue (s : State) (p : PartIx) (j : Fin 8) : State := s.drawHelm.2.schedP (s.chron + s.drawHelm.1) p (.overlayLoad p j)

theorem State.loadDue_eq (s : State) (p : PartIx) (j : Fin 8) :
    s.loadDue p j = { s with agenda := (s.loadDue p j).agenda, freeIx := s.freeIx + 1 } := rfl

theorem State.load_mem_loadDue (s : State) (p : PartIx) (j : Fin 8) :
    ∃ e ∈ (s.loadDue p j).agenda, s.chron < e.cycle ∧ e.part = p ∧ e.instr = .overlayLoad p j :=
  ⟨{ cycle := s.chron + (1 + Config.helmLatency s.freeIx), core := s.cur, part := p, link := s.curLink, instr := .overlayLoad p j },
    mem_agendaPut .., Nat.lt_add_of_pos_right (Nat.add_pos_left Nat.one_pos _), rfl, rfl⟩

/-- What is to be loaded changes the partition as a function says. -/
theorem State.partDoes_loadDue (s : State) (p : PartIx) (j : Fin 8) (f : Part → Part) : PartDoes s ((s.updPart p f).loadDue p j) p f := by
  rw [State.loadDue_eq]
  exact ⟨s.part_updPart p f, fun _ hq => s.part_updPart_ne hq f, rfl, rfl, rfl, rfl, rfl⟩

/-- What a chart that has been read comes to (R84, R91). -/
def State.judged (s : State) (p : PartIx) (j : Fin 8) (ks len : Nat) (b : List Byte) : State :=
  let u := s.updPart p fun q => { q with lastChart := some (b.take (chartU b 0x0C 4)) }
  if ¬ headerOk b len then u.reject p j 0x05
  else if s.chartTests p ks b ≠ 0 then u.reject p j (s.chartTests p ks b)
  else
    (u.updPart p fun q => q.updSlot j fun x => { x with img := b, got := [], asked := [], st := .load }).loadDue p j

section Read

variable (h : Checked s p j) (hn : s.nclu p ≠ 0) (hi : ((s.part p).slots[j]).image % 65536 = 0) (ha : ((s.part p).slots[j]).argbase % 64 = 0)
include h hn hi ha

theorem State.check_bad {code : Nat} (hread : s.chartRead p j 64 = (s, .bad code)) (hcode : code ≠ 0x74) : s.check p j = s.reject p j 0x04 := by
  unfold State.check
  dsimp only
  rw [if_neg (not_early_of_checked h), if_neg hn, if_neg (fun e => e.elim (· hi) (· ha)), hread]
  exact congrArg (State.reject · p j 0x04) (if_neg hcode)

theorem State.check_wait {n : Nat} (hread : s.chartRead p j 64 = (s, .wait n)) :
    s.check p j = s.schedP (s.chron + n) p (.launchCheck p j) := by
  unfold State.check
  dsimp only
  rw [if_neg (not_early_of_checked h), if_neg hn, if_neg (fun e => e.elim (· hi) (· ha)), hread]

/-- From the header on the context names its key slot. -/
theorem State.check_read {hd b : List Byte} (hread : s.chartRead p j 64 = (s, .ok hd)) (hkey : ((s.part p).slots[j]).key = none) {u : State}
    (hu : u = s.updPart p fun q => q.updSlot j fun x => { x with key := some (chartU hd 0x10 1) })
    (hchart : u.chartRead p j (max 64 (chartU hd 8 4)) = (u, .ok b)) : s.check p j = u.judged p j (chartU hd 0x10 1) (chartU hd 8 4) b := by
  unfold State.check
  dsimp only
  rw [if_neg (not_early_of_checked h), if_neg hn, if_neg (fun e => e.elim (· hi) (· ha)), hread, hkey]
  dsimp only [Option.getD_none]
  rw [← hu, hchart]
  rfl

end Read

/-- The partition as a chart that passes every test is to be loaded. -/
def Part.charted (q : Part) (j : Fin 8) (b : List Byte) : Part :=
  ({ q with lastChart := some (b.take (chartU b 0x0C 4)) } : Part).updSlot j fun x => { x with img := b, got := [], asked := [], st := .load }

theorem Part.charted_keyed (q : Part) (j : Fin 8) (b : List Byte) (ks : Nat) : (q.updSlot j fun x => { x with key := some ks }).charted j b =
    { (q.updSlot j fun x => { x with key := some ks, img := b, got := [], asked := [], st := .load }) with
      lastChart := some (b.take (chartU b 0x0C 4)) } := by
  simp only [Part.charted, Part.updSlot, Fin.getElem_fin, Vector.getElem_set_self, Vector.set_set]

/-- A launch rejected after its slot or its partition has changed is rejected. -/
theorem State.rejects_updPart {f : Part → Part} {code : Nat} {t : State} (h : Rejects (s.updPart p f) t p j code) : Rejects s t p j code := h

section Judged

variable {f : Part → Part} {ks len : Nat} {b : List Byte}

theorem State.rejects_header (hhead : headerOk b len = false) : Rejects s (s.judged p j ks len b) p j 0x05 := by
  have heq : s.judged p j ks len b = (s.updPart p fun q => { q with lastChart := some (b.take (chartU b 0x0C 4)) }).reject p j 0x05 :=
    if_pos (by rw [hhead]; exact Bool.false_ne_true)
  rw [heq]
  exact State.rejects_updPart (State.rejects_reject ..)

variable (hhead : headerOk b len = true)
include hhead

theorem State.rejects_tests (htests : s.chartTests p ks b ≠ 0) : Rejects s (s.judged p j ks len b) p j (s.chartTests p ks b) := by
  have heq : s.judged p j ks len b =
      (s.updPart p fun q => { q with lastChart := some (b.take (chartU b 0x0C 4)) }).reject p j (s.chartTests p ks b) :=
    (if_neg (not_not_intro hhead)).trans (if_pos htests)
  rw [heq]
  exact State.rejects_updPart (State.rejects_reject ..)

/-- The load of a chart that passes every test is to come (R84, R88). -/
theorem State.judged_accepted (htests : s.chartTests p ks b = 0) :
    s.judged p j ks len b = (s.updPart p fun q => q.charted j b).loadDue p j := by
  refine ((if_neg (not_not_intro hhead)).trans (if_neg (not_not_intro htests))).trans ?_
  rw [State.updPart_updPart]
  rfl

end Judged

end Check

/-! ## The load of a context (R88) -/

section Load

/-- Steps that change memory alone. -/
theorem State.foldl_memory {α : Type} {f : State → α → State} (hf : ∀ s a, ∃ m, f s a = { s with memory := m }) (l : List α) (s : State) :
    ∃ m, l.foldl f s = { s with memory := m } := by
  induction l generalizing s with
  | nil => exact ⟨s.memory, rfl⟩
  | cons a l ih =>
    obtain ⟨m, hm⟩ := hf s a
    obtain ⟨n, hn⟩ := ih (f s a)
    exact ⟨n, by rw [List.foldl_cons, hn, hm]⟩

theorem State.loadSeg_memory (c : CoreIx) (j : Fin 8) (b : List Byte) (e : CoreEnt) (s : State) (g : Seg) :
    ∃ m, s.loadSeg c j b e g = { s with memory := m } := by
  unfold State.loadSeg
  dsimp only
  split
  · exact ⟨_, rfl⟩
  · split <;> exact ⟨_, rfl⟩

theorem State.loadCore_memory (c : CoreIx) (j : Fin 8) (b : List Byte) (l : Layout) (e : CoreEnt) (s : State) :
    ∃ m, s.loadCore c j b l e = { s with memory := m } :=
  State.foldl_memory (State.loadSeg_memory c j b e) (l.segs b e) { s with memory := zeroRange s.memory (imemKey c.val 0 j.val) (2 ^ 19) }

/-- Memory with the sections of a layout's cores loaded. -/
def State.overlaid (s : State) (p : PartIx) (j : Fin 8) (b : List Byte) (l : Layout) : State :=
  (List.zip (l.cores b) (s.coresOf p)).foldl (fun s y => s.loadCore y.2 j b l y.1) s

theorem State.overlaid_memory (s : State) (p : PartIx) (j : Fin 8) (b : List Byte) (l : Layout) : ∃ m, s.overlaid p j b l = { s with memory := m } := by
  unfold State.overlaid
  exact State.foldl_memory (f := fun s (y : CoreEnt × CoreIx) => s.loadCore y.2 j b l y.1) (fun s y => State.loadCore_memory y.2 j b l y.1 s) _ s

/-- A core whose handle cache holds the pinned entries of the object table (R189). -/
def Core.pinsPlaced (pins : List (Nat × BitVec 512)) (k : Core) : Core :=
  let k := { k with hcPinned := pins }
  { k with hcUnpinned := k.hcUnpinned.filter fun x => (tget k.pinned x.1).isNone }

/-- A slot as the loader leaves it, but for its state and the key slot it names. -/
def Slot.overlaid (x : Slot) (es : List CoreEnt) (legs : List LegDesc) : Slot :=
  { x with
    entries := es.map (·.entry), sizes := es.map fun e => (e.seqsz, e.axusz, e.bkesz, e.vecsz), legs := legs, img := [], got := [], asked := [] }

/-- The end of a load: every handle cache has the pinned entries, and the slot is READY (R88, R189). -/
def State.readied (s : State) (p : PartIx) (j : Fin 8) (es : List CoreEnt) (legs : List LegDesc) (pins : List (Nat × BitVec 512)) : State :=
  ((((((s.coresOf p).foldl (fun s c => s.upd c (Core.pinsPlaced pins)) s).updPart p fun q => q.updSlot j fun x => x.overlaid es legs).unname p j).slotTo
    p j .ready).kickHelm p)

variable {s : State} {p : PartIx} {j : Fin 8}

theorem State.exec_overlayLoad (h : ((s.part p).slots[j]).st = .load) : exec (.overlayLoad p j) s = .next (s.load p j) :=
  congrArg Host.Outcome.next (if_pos h)

section NoHandles

variable {b : List Byte} {l : Layout} {legs : List LegDesc} (hb : ((s.part p).slots[j]).img = b)
  (hl : (chartLayouts b).find? (fun l => l.nclu == s.nclu p) = some l) (hlegs : chartLegs b (chartU b 0x0C 4) = some legs) (hno : chartU b 0x20 4 = 0)
include hb hl hlegs hno

/-- What the load comes to once the sections are loaded, by the pinned entries read. -/
theorem State.load_unhandled : s.load p j = (match (s.overlaid p j b l).pinScan p j with
    | (u, .wait n) => u.schedP (u.chron + n) p (.overlayLoad p j)
    | (u, .bad code) => (if code = 0x74 then u.partFault p 0x74 else u).endSlot p j .fault 0x31
    | (u, .ok pins) => u.readied p j (l.cores b) legs pins) := by
  unfold State.load
  dsimp only
  rw [hb, hl, hlegs, hno]
  rfl

theorem State.load_ready {pins : List (Nat × BitVec 512)} (hpins : (s.overlaid p j b l).pinScan p j = (s.overlaid p j b l, .ok pins)) :
    s.load p j = (s.overlaid p j b l).readied p j (l.cores b) legs pins := by
  rw [State.load_unhandled hb hl hlegs hno, hpins]

theorem State.load_wait {n : Nat} (hpins : (s.overlaid p j b l).pinScan p j = (s.overlaid p j b l, .wait n)) :
    s.load p j = (s.overlaid p j b l).schedP ((s.overlaid p j b l).chron + n) p (.overlayLoad p j) := by
  rw [State.load_unhandled hb hl hlegs hno, hpins]

end NoHandles

/-- The partition once a context is READY. -/
theorem State.part_readied (s : State) (p : PartIx) (j : Fin 8) (es : List CoreEnt) (legs : List LegDesc) (pins : List (Nat × BitVec 512)) :
    (s.readied p j es legs pins).part p = { (s.part p).updSlot j fun x => { x.overlaid es legs with key := none, st := .ready } with
      schedDue := ((s.readied p j es legs pins).part p).schedDue } := by
  unfold State.readied
  rw [State.part_kickHelm, State.slotTo_quiet _ _ _ _ rfl, State.part_updPart, State.part_unname, State.part_updPart, State.foldl_upd_eq]
  simp only [Part.updSlot, Fin.getElem_fin, Vector.getElem_set_self, Vector.set_set]
  rfl

theorem State.slot_readied (s : State) (p : PartIx) (j : Fin 8) (es : List CoreEnt) (legs : List LegDesc) (pins : List (Nat × BitVec 512)) :
    ((s.readied p j es legs pins).part p).slots[j] = { ((s.part p).slots[j]).overlaid es legs with key := none, st := .ready } := by
  rw [State.part_readied]
  dsimp only
  exact Part.slot_updSlot _ _ _

/-- What becoming READY leaves of the module, besides the handle caches of the partition's cores. -/
theorem State.readied_frame (s : State) (p : PartIx) (j : Fin 8) (es : List CoreEnt) (legs : List LegDesc) (pins : List (Nat × BitVec 512)) :
    FaultFrame p { s with cores := (s.readied p j es legs pins).cores } (s.readied p j es legs pins) := by
  have hframe : FaultFrame p ((s.coresOf p).foldl (fun s c => s.upd c (Core.pinsPlaced pins)) s) (s.readied p j es legs pins) :=
    (((FaultFrame.updPart _ p _).trans (FaultFrame.unname _ p j)).trans (FaultFrame.slotTo _ p j .ready)).trans (FaultFrame.kickHelm _ p)
  rw [hframe.cores]
  rwa [State.foldl_upd_eq] at hframe

theorem State.core_readied (s : State) (p : PartIx) (j : Fin 8) (es : List CoreEnt) (legs : List LegDesc) (pins : List (Nat × BitVec 512)) (c : CoreIx) :
    (s.readied p j es legs pins).core c = if s.partOf c = some p then (s.core c).pinsPlaced pins else s.core c := by
  have hframe : FaultFrame p ((s.coresOf p).foldl (fun s c => s.upd c (Core.pinsPlaced pins)) s) (s.readied p j es legs pins) :=
    (((FaultFrame.updPart _ p _).trans (FaultFrame.unname _ p j)).trans (FaultFrame.slotTo _ p j .ready)).trans (FaultFrame.kickHelm _ p)
  rw [hframe.core, State.core_foldl_upd (s.coresOf_nodup p)]
  simp only [State.mem_coresOf]

/-- The module with a context loaded and READY, besides its slot. -/
theorem State.readied_overlaid (s : State) (p : PartIx) (j : Fin 8) (b : List Byte) (l : Layout) (es : List CoreEnt) (legs : List LegDesc)
    (pins : List (Nat × BitVec 512)) {t : State} (ht : t = (s.overlaid p j b l).readied p j es legs pins) :
    t.memory = (s.overlaid p j b l).memory ∧ (∀ c, t.core c = if s.partOf c = some p then (s.core c).pinsPlaced pins else s.core c)
      ∧ t.cols = s.cols ∧ t.reqs = s.reqs ∧ ∀ q, q ≠ p → t.part q = s.part q := by
  subst ht
  have hframe := State.readied_frame (s.overlaid p j b l) p j es legs pins
  have hcore := State.core_readied (s.overlaid p j b l) p j es legs pins
  obtain ⟨m, hm⟩ := State.overlaid_memory s p j b l
  rw [hm] at hframe hcore ⊢
  exact ⟨hframe.memory, hcore, hframe.cols, hframe.reqs, hframe.others⟩

/-! ## Sections and segments in memory (R88) -/

theorem readByte_zeroRange (m : List Host.Cell) (a n x : Nat) :
    readByte (zeroRange m a n) x = if a ≤ x ∧ x < a + n then 0 else readByte m x := by
  refine (readByte_filter (fun k => decide (k < a) || decide (a + n ≤ k)) m x).trans ?_
  by_cases h : a ≤ x ∧ x < a + n
  · rw [if_pos h, if_neg (by simp; omega)]
  · rw [if_neg h, if_pos (by simp; omega)]

end Load

end Sys2Proof.Machine

namespace Sys2Proof

open Machine

theorem launchCheckAndLoad : LaunchCheckAndLoad := by
  refine ⟨fun s p j hst => congrArg Host.Outcome.next (if_neg hst), fun s p j hst hearly => ?_, fun s p j h hn => ?_, fun s p j h hn ha => ?_,
    fun s p j code h hn hi ha hread hcode => ?_, fun s p j n h hn hi ha hread => ?_, fun s p j hd b h hn hi ha hread hkey hchart => ?_,
    fun s p j hst => congrArg Host.Outcome.next (if_neg hst), fun s p j l legs pins hst hl hlegs hno hpins => ?_,
    fun s p j l legs n hst hl hlegs hno hpins => ?_, fun s c j b l e hsegs a => ?_, fun s c j b e g => ⟨fun ht => ?_, fun ht => ?_, fun ht => ?_, fun ht a => ?_⟩⟩
  · exact ⟨_, (State.exec_launchCheck hst).trans (congrArg Host.Outcome.next (State.check_early hearly)), State.rejects_reject ..⟩
  · exact ⟨_, (State.exec_launchCheck h.1).trans (congrArg Host.Outcome.next (State.check_noCluster h hn)), State.rejects_reject ..⟩
  · exact ⟨_, (State.exec_launchCheck h.1).trans (congrArg Host.Outcome.next (State.check_misaligned h hn ha)), State.rejects_reject ..⟩
  · exact ⟨_, (State.exec_launchCheck h.1).trans (congrArg Host.Outcome.next (State.check_bad h hn hi ha hread hcode)), State.rejects_reject ..⟩
  · exact (State.exec_launchCheck h.1).trans (congrArg Host.Outcome.next (State.check_wait h hn hi ha hread))
  · refine ⟨_, (State.exec_launchCheck h.1).trans (congrArg Host.Outcome.next (State.check_read h hn hi ha hread hkey rfl hchart)), fun hhead => ?_,
      fun hhead htests => ?_, fun hhead htests => ?_⟩
    · exact State.rejects_updPart (State.rejects_header hhead)
    · exact State.rejects_updPart (State.rejects_tests hhead htests)
    · rw [State.judged_accepted hhead htests, State.updPart_updPart]
      refine ⟨State.load_mem_loadDue .., rfl, rfl, ?_⟩
      simp only [Part.charted_keyed]
      exact State.partDoes_loadDue ..
  · obtain ⟨hmemory, hcore, hcols, hreqs, hothers⟩ := State.readied_overlaid s p j ((s.part p).slots[j]).img l (l.cores ((s.part p).slots[j]).img) legs pins rfl
    have hslot := State.slot_readied (s.overlaid p j ((s.part p).slots[j]).img l) p j (l.cores ((s.part p).slots[j]).img) legs pins
    refine ⟨_, (State.exec_overlayLoad hst).trans (congrArg Host.Outcome.next (State.load_ready rfl hl hlegs hno hpins)), ?_⟩
    rw [hslot]
    exact ⟨rfl, rfl, rfl, rfl, rfl, hmemory, fun c hc => (hcore c).trans (if_neg hc), fun c hc => (hcore c).trans ((if_pos hc).trans (by rw [hcore c, if_pos hc]; rfl)),
      hcols, hreqs, hothers⟩
  · exact (State.exec_overlayLoad hst).trans (congrArg Host.Outcome.next ((State.load_wait rfl hl hlegs hno hpins).trans (by
      obtain ⟨m, hm⟩ := State.overlaid_memory s p j ((s.part p).slots[j]).img l
      rw [show (s.overlaid p j ((s.part p).slots[j]).img l).chron = s.chron by rw [hm]]
      rfl)))
  · unfold State.loadCore
    rw [hsegs]
    exact readByte_zeroRange ..
  · exact if_pos ht
  · unfold State.loadSeg
    simp only [ht]
    rfl
  · unfold State.loadSeg
    simp only [ht]
    rfl
  · unfold State.loadSeg
    simp only [ht]
    exact readByte_zeroRange ..

/-- Settles O51: the mailbox by what LAUNCH_GO and ABORT run, the check by the first of its tests to fail, the load through the memory it writes
and the slot it leaves (`State.readied_overlaid`). -/
theorem launchEvents : Obligations.LaunchEvents := ⟨launchMailbox, launchCheckAndLoad⟩

end Sys2Proof

namespace Sys2Proof.Machine

/-! ## The start of a context (R89, R171, R192) -/

section Start

/-- Steps that change cores alone. -/
theorem State.foldl_cores {α : Type} {f : State → α → State} (hf : ∀ s a, ∃ cs, f s a = { s with cores := cs }) (l : List α) (s : State) :
    ∃ cs, l.foldl f s = { s with cores := cs } := by
  induction l generalizing s with
  | nil => exact ⟨s.cores, rfl⟩
  | cons a l ih =>
    obtain ⟨cs, hcs⟩ := hf s a
    obtain ⟨cs', hcs'⟩ := ih (f s a)
    exact ⟨cs', by rw [List.foldl_cons, hcs', hcs]⟩

/-- A function of a core's place in a list applied to each core of it, each once. -/
theorem State.core_foldl_numbered {l : List CoreIx} (hl : l.Nodup) (f : Nat → Core → Core) (i : Nat) (s : State) (c : CoreIx) :
    ((List.zip (List.range' i l.length) l).foldl (fun s y => s.upd y.2 (f y.1)) s).core c =
      if c ∈ l then f (i + (l.takeWhile (· != c)).length) (s.core c) else s.core c := by
  induction l generalizing s i with
  | nil => rfl
  | cons x l ih =>
    obtain ⟨hx, hl⟩ := List.nodup_cons.mp hl
    rw [List.length_cons, List.range'_succ, List.zip_cons_cons, List.foldl_cons, ih hl]
    by_cases hc : c = x
    · subst hc
      simp [hx]
    · have hxc : (x != c) = true := bne_iff_ne.mpr (Ne.symm hc)
      simp [hc, State.core_upd_ne _ hc, hxc, Nat.add_assoc, Nat.add_comm 1]

/-- The cores of a partition as a context of a slot starts on them. -/
def State.coresStarted (s : State) (p : PartIx) (x : Slot) : State :=
  (List.zip (List.range (s.coresOf p).length) (s.coresOf p)).foldl (fun u y => u.upd y.2 fun k => k.started x y.1 (s.nclu p) s.chron) s

theorem State.core_coresStarted (s : State) (p : PartIx) (x : Slot) (c : CoreIx) :
    (s.coresStarted p x).core c = if s.partOf c = some p then (s.core c).started x (s.logical p c) (s.nclu p) s.chron else s.core c := by
  unfold State.coresStarted
  rw [List.range_eq_range', State.core_foldl_numbered (s.coresOf_nodup p) (fun i k => k.started x i (s.nclu p) s.chron), Nat.zero_add]
  simp only [State.mem_coresOf]
  rfl

/-- The partition of a context that starts at a cycle. -/
def Part.contextStarted (q : Part) (j : Fin 8) (t : Nat) : Part :=
  { q.updSlot j fun x => { x with leg := 0, course := 0, ndcyc := false, since := t, st := .run } with
    legs := (q.slots[j]).legs, fixes := [], arrHeld := [], relHeld := none, awaiting := none, sentArr := false, cutUnits := []
    lastRel := [], lastRun := tput q.lastRun (q.slots[j]).prio.toNat j.val }

/-- A context of a slot has started: its partition and cores, and what was under way on them. -/
structure ContextStarted (p : PartIx) (j : Fin 8) (s t : State) : Prop where
  eq : t = { s with cores := t.cores, parts := t.parts, agenda := t.agenda, reqs := t.reqs }
  core : ∀ c, t.core c = if s.partOf c = some p then (s.core c).started ((s.part p).slots[j]) (s.logical p c) (s.nclu p) s.chron else s.core c
  part : t.part p = (s.part p).contextStarted j s.chron
  others : ∀ q, q ≠ p → t.part q = s.part q

theorem ContextStarted.addsEvents {p : PartIx} {j : Fin 8} {s t u : State} (h : ContextStarted p j s t) (a : AddsEvents t u) : ContextStarted p j s u :=
  ⟨by rw [a.eq, h.eq], fun c => (a.core c).trans (h.core c), (a.part p).trans h.part, fun q hq => (a.part q).trans (h.others q hq)⟩

theorem AddsEvents.armQuantum (s : State) (p : PartIx) (j : Fin 8) : AddsEvents s (s.armQuantum p j) := by
  unfold State.armQuantum
  dsimp only
  split
  · exact refl s
  · exact schedP ..

theorem State.coresStarted_eq (s : State) (p : PartIx) (x : Slot) : s.coresStarted p x = { s with cores := (s.coresStarted p x).cores } := by
  obtain ⟨cs, hcs⟩ := State.foldl_cores (f := fun u (y : Nat × CoreIx) => u.upd y.2 fun k => k.started x y.1 (s.nclu p) s.chron) (fun _ _ => ⟨_, rfl⟩)
    (List.zip (List.range (s.coresOf p).length) (s.coresOf p)) s
  unfold State.coresStarted
  rw [hcs]

/-- The module as a context starts, before what is to come is scheduled. -/
def State.contextSet (s : State) (p : PartIx) (j : Fin 8) : State :=
  ((s.orphan (s.coresOf p)).coresStarted p ((s.part p).slots[j])).updPart p fun q => q.contextStarted j s.chron

theorem State.contextStarted_contextSet (s : State) (p : PartIx) (j : Fin 8) : ContextStarted p j s (s.contextSet p j) := by
  have hcores := State.coresStarted_eq (s.orphan (s.coresOf p)) p ((s.part p).slots[j])
  refine ⟨?_, fun c => State.core_coresStarted (s.orphan (s.coresOf p)) p ((s.part p).slots[j]) c, ?_, fun q hq => ?_⟩
  · unfold State.contextSet State.updPart
    rw [hcores]
    rfl
  · refine (State.part_updPart ..).trans ?_
    rw [hcores]
    rfl
  · refine (State.part_updPart_ne _ hq _).trans ?_
    rw [hcores]
    rfl

/-- What starting a context sets in its partition, the slot's STATE last. -/
theorem Part.contextStarted_eq (q : Part) (j : Fin 8) (t : Nat) :
    ({ q.updSlot j (fun x => { x with leg := 0, course := 0, ndcyc := false, since := t }) with
      legs := (q.slots[j]).legs, fixes := [], arrHeld := [], relHeld := none, awaiting := none, sentArr := false, cutUnits := []
      lastRel := [], lastRun := tput q.lastRun (q.slots[j]).prio.toNat j.val } : Part).updSlot j (fun x => { x with st := .run }) = q.contextStarted j t := by
  simp only [Part.contextStarted, Part.updSlot, Fin.getElem_fin, Vector.getElem_set_self, Vector.set_set]

theorem State.part_coresStarted (s : State) (p q : PartIx) (x : Slot) : (s.coresStarted p x).part q = s.part q := by
  rw [State.coresStarted_eq]
  rfl

theorem State.addsEvents_startContext (s : State) (p : PartIx) (j : Fin 8) : AddsEvents (s.contextSet p j) (s.startContext p j) := by
  have hset : (((s.orphan (s.coresOf p)).coresStarted p ((s.part p).slots[j])).updPart p fun q =>
      { q.updSlot j (fun x => { x with leg := 0, course := 0, ndcyc := false, since := s.chron }) with
        legs := ((s.part p).slots[j]).legs, fixes := [], arrHeld := [], relHeld := none, awaiting := none, sentArr := false, cutUnits := []
        lastRel := [], lastRun := tput q.lastRun ((s.part p).slots[j]).prio.toNat j.val }).slotTo p j .run = s.contextSet p j := by
    rw [State.slotTo_quiet _ _ _ _ rfl, State.updPart_updPart]
    refine State.updPart_congr ?_
    rw [State.part_coresStarted]
    exact (s.part p).contextStarted_eq j s.chron
  have hstart : s.startContext p j = if ((s.contextSet p j).armQuantum p j).replaying p then
      ((s.contextSet p j).armQuantum p j).schedP s.chron p .replayInjection else (s.contextSet p j).armQuantum p j := by
    rw [← hset]
    rfl
  rw [hstart]
  split
  · exact (AddsEvents.armQuantum ..).trans (AddsEvents.schedP ..)
  · exact AddsEvents.armQuantum ..

theorem State.contextStarted (s : State) (p : PartIx) (j : Fin 8) : ContextStarted p j s (s.startContext p j) :=
  (s.contextStarted_contextSet p j).addsEvents (s.addsEvents_startContext p j)

theorem Part.slot_contextStarted (q : Part) (j : Fin 8) (t : Nat) :
    (q.contextStarted j t).slots[j] = { q.slots[j] with leg := 0, course := 0, ndcyc := false, since := t, st := .run } :=
  Part.slot_updSlot q j fun x => { x with leg := 0, course := 0, ndcyc := false, since := t, st := .run }

/-- A context that starts where none runs is the running one. -/
theorem Part.runSlot_contextStarted {q : Part} (h : q.runSlot = none) (j : Fin 8) (t : Nat) : (q.contextStarted j t).runSlot = some j := by
  refine Part.runSlot_of_only (by rw [Part.slot_contextStarted]) fun i hi => ?_
  rw [show (q.contextStarted j t).slots[i] = q.slots[i] from
    Part.slot_updSlot_ne q hi fun x => { x with leg := 0, course := 0, ndcyc := false, since := t, st := .run }]
  exact Part.not_run_of_runSlot h i

theorem Core.g_started (k : Core) (x : Slot) (i n t : Nat) : (k.started x i n t).seq.g =
    (((Vector.replicate 32 (0 : Word)).set 1 (BitVec.ofNat 64 x.argbase)).set 2 (BitVec.ofNat 64 i)).set 3 (BitVec.ofNat 64 n) := rfl

/-- The three registers a context starts with (R89). -/
theorem Core.gpr_started (k : Core) (x : Slot) (i n t : Nat) (r : Fin 32) :
    (k.started x i n t).seq.gpr r = if r = 1 then BitVec.ofNat 64 x.argbase else if r = 2 then BitVec.ofNat 64 i else if r = 3 then BitVec.ofNat 64 n else 0 := by
  rw [Seq.gpr, Core.g_started]
  by_cases h1 : r = 1
  · subst h1; rfl
  by_cases h2 : r = 2
  · subst h2; rfl
  by_cases h3 : r = 3
  · subst h3; rfl
  rw [if_neg h1, if_neg h2, if_neg h3]
  have h1 : 1 ≠ r.val := fun h => h1 (Fin.ext h.symm)
  have h2 : 2 ≠ r.val := fun h => h2 (Fin.ext h.symm)
  have h3 : 3 ≠ r.val := fun h => h3 (Fin.ext h.symm)
  rw [Fin.getElem_fin, Vector.getElem_set_ne _ _ h3, Vector.getElem_set_ne _ _ h2, Vector.getElem_set_ne _ _ h1, Vector.getElem_replicate, ite_self]

theorem Core.tnt_started (k : Core) (x : Slot) (i n t : Nat) (r : Fin 32) : (k.started x i n t).seq.tnt r = false := by
  rw [Seq.tnt, show (k.started x i n t).seq.taint = 0 from rfl]
  exact Bool.and_eq_false_iff.mpr (Or.inr (BitVec.getLsbD_zero (w := 32)))

end Start

end Sys2Proof.Machine

namespace Sys2Proof

open Machine

theorem contextStart : ContextStart := by
  refine ⟨fun s p j hst hrun => ?_, fun s p j h => ?_, fun s => rfl⟩
  · have hstart := s.contextStarted p j
    have hexec : exec (.contextStart p j) s = .next (s.startContext p j) :=
      congrArg Host.Outcome.next (if_pos ⟨hst, Option.isNone_iff_eq_none.mpr hrun⟩)
    refine ⟨_, hexec, by rw [hstart.part, Part.runSlot_contextStarted hrun], by rw [hstart.part, Part.slot_contextStarted],
      by rw [hstart.part, Part.slot_contextStarted], by rw [hstart.part, Part.slot_contextStarted], by rw [hstart.part]; rfl, by rw [hstart.eq], by rw [hstart.eq],
      hstart.others, fun c hc => by rw [hstart.core, if_neg hc], fun c hc => ?_⟩
    dsimp only
    rw [hstart.core, if_pos hc]
    refine ⟨(Core.gpr_started ..).trans (if_pos rfl), Core.gpr_started .., Core.gpr_started .., fun r h1 h2 h3 => ?_,
      fun r => Core.tnt_started _ _ _ _ _ r, rfl, rfl, rfl, rfl, rfl, rfl, rfl, rfl, rfl, rfl, rfl, rfl, rfl, rfl, rfl, rfl, rfl⟩
    rw [Core.gpr_started, if_neg h1, if_neg h2, if_neg h3]
  · refine congrArg Host.Outcome.next (if_neg fun ⟨hst, hnone⟩ => ?_)
    rcases h with h | h
    · exact h hst
    · rw [Option.isNone_iff_eq_none.mp hnone] at h
      exact Bool.noConfusion h

end Sys2Proof

namespace Sys2Proof.Machine

/-! ## Key slots and attestation (R78, R91) -/

section Keys

theorem testBit_fld (w hi lo i : Nat) : (fld w hi lo).testBit i = (decide (i < hi + 1 - lo) && w.testBit (lo + i)) := by
  rw [fld, Nat.testBit_mod_two_pow, Nat.testBit_div_two_pow, Nat.add_comm i]

theorem setFld_eq (w lo n v : Nat) : setFld w lo n v = 2 ^ lo * (2 ^ n * (w / 2 ^ lo / 2 ^ n) + v % 2 ^ n) + w % 2 ^ lo := by
  have hlo := Nat.div_add_mod w (2 ^ lo)
  have hn := congrArg (2 ^ lo * ·) (Nat.div_add_mod (w / 2 ^ lo) (2 ^ n))
  simp only [Nat.mul_add] at hn
  rw [setFld, Nat.mul_add, Nat.mul_comm (w / 2 ^ lo % 2 ^ n), Nat.mul_comm (v % 2 ^ n)]
  omega

theorem testBit_setFld (w lo n v i : Nat) :
    (setFld w lo n v).testBit i = if lo ≤ i ∧ i < lo + n then v.testBit (i - lo) else w.testBit i := by
  rw [setFld_eq, Nat.testBit_two_pow_mul_add _ (Nat.mod_lt _ (Nat.two_pow_pos _))]
  by_cases hlo : i < lo
  · rw [if_pos hlo, if_neg (by omega), Nat.testBit_mod_two_pow, decide_eq_true hlo, Bool.true_and]
  rw [if_neg hlo, Nat.testBit_two_pow_mul_add _ (Nat.mod_lt _ (Nat.two_pow_pos _))]
  by_cases hn : i < lo + n
  · rw [if_pos (by omega), if_pos (by omega), Nat.testBit_mod_two_pow, decide_eq_true (by omega), Bool.true_and]
  · rw [if_neg (by omega), if_neg (by omega), Nat.testBit_div_two_pow, Nat.testBit_div_two_pow]
    congr 1
    omega

/-- The doublewords of a key slot after a write to one of them. -/
theorem fld_keySet (k : BitVec 512) {dw : Fin 8} (hdw : dw ≠ 7) (v : BitVec 64) (d : Fin 8) :
    fld (keySet k dw.val v.toNat).toNat (64 * d.val + 63) (64 * d.val) = if d = dw then v.toNat else fld k.toNat (64 * d.val + 63) (64 * d.val) := by
  rw [keySet, if_neg (fun h : dw.val = 7 => hdw (Fin.ext h))]
  refine Nat.eq_of_testBit_eq fun i => ?_
  rw [testBit_fld, BitVec.testBit_toNat, BitVec.getLsbD_ofNat, testBit_setFld]
  by_cases hi : i < 64
  · rw [decide_eq_true (by omega), decide_eq_true (by omega), Bool.true_and, Bool.true_and]
    by_cases hd : d = dw
    · rw [if_pos (by omega), if_pos hd, hd, Nat.add_sub_cancel_left]
    · rw [if_neg (by have := Fin.val_ne_of_ne hd; omega), if_neg hd, testBit_fld, decide_eq_true (by omega), Bool.true_and]
  · rw [decide_eq_false (by omega), Bool.false_and]
    split
    · exact (Nat.testBit_lt_two_pow (Nat.lt_of_lt_of_le v.isLt (Nat.pow_le_pow_right (by decide) (by omega)))).symm
    · rw [testBit_fld, decide_eq_false (by omega), Bool.false_and]

theorem State.exec_keySlotWrite {s : State} {j : Fin 8} (h : s.keyNamed j.val = false) (dw : Fin 8) (v : BitVec 64) :
    exec (.keySlotWrite j dw v) s = .next (s.keyPut j dw.val v.toNat) :=
  congrArg Host.Outcome.next (if_neg (by rw [h]; exact Bool.false_ne_true))

theorem State.keys_keyPut (s : State) (j : Fin 8) (dw v : Nat) : (s.keyPut j dw v).helm.keys[j] = keySet s.helm.keys[j] dw v :=
  Vector.getElem_set_self ..

theorem State.keys_keyPut_ne (s : State) {i j : Fin 8} (h : i ≠ j) (dw v : Nat) : (s.keyPut j dw v).helm.keys[i] = s.helm.keys[i] :=
  Vector.getElem_set_ne j.isLt i.isLt fun hv => h (Fin.ext hv.symm)

/-- Bytes 56 to 63 of a key slot are reserved. -/
theorem State.keyPut_reserved (s : State) (j : Fin 8) (v : Nat) : s.keyPut j 7 v = s := by
  rw [State.keyPut, keySet, if_pos rfl, Fin.getElem_fin, Vector.set_getElem_self]

/-- Writes to one key slot leave the others. -/
theorem State.foldl_keyPut (j : Fin 8) (l : List (Nat × Nat × BitVec 64)) (s : State) :
    ∃ ks : Vector (BitVec 512) 8, l.foldl (fun s x => s.keyPut j x.2.1 x.2.2.toNat) s = { s with helm := { s.helm with keys := ks } }
      ∧ ∀ i : Fin 8, i ≠ j → ks[i] = s.helm.keys[i] := by
  induction l generalizing s with
  | nil => exact ⟨s.helm.keys, rfl, fun _ _ => rfl⟩
  | cons x l ih =>
    obtain ⟨ks, heq, hks⟩ := ih (s.keyPut j x.2.1 x.2.2.toNat)
    exact ⟨ks, heq, fun i hi => (hks i hi).trans (s.keys_keyPut_ne hi ..)⟩

/-- The writes held for a key slot no context names apply in their order, and are held no more. -/
theorem State.keyFlush_free {s : State} {j : Fin 8} (h : s.keyNamed j.val = false) :
    s.keyFlush j = (s.helm.keyHeld.filter fun x => x.1 == j.val).foldl (fun s x => s.keyPut j x.2.1 x.2.2.toNat)
      { s with helm := { s.helm with keyHeld := s.helm.keyHeld.filter fun x => x.1 != j.val } } := by
  rw [State.keyFlush, if_neg (by rw [h]; exact Bool.false_ne_true), List.partition_eq_filter_filter]
  rfl

theorem State.spdmSigned_of_lt {s : State} (h : s.helm.signs < 2 ^ 20) (b : List Byte) : s.spdmSigned b =
    { s with helm := { s.helm with signs := s.helm.signs + 1, spdmOut := s.helm.spdmOut ++ [b ++ Config.attest s.helm.signs b] } } :=
  if_pos h

theorem State.spdmSigned_of_le {s : State} (h : 2 ^ 20 ≤ s.helm.signs) (b : List Byte) : s.spdmSigned b =
    { s with helm := { s.helm with spdmOut := s.helm.spdmOut ++ [spdmError] } } :=
  if_neg (Nat.not_lt.mpr h)

theorem State.measurement_part (s : State) (p : PartIx) :
    s.measurement (16 + p.val) = some (((s.part p).lastChart.map Config.sha256).getD (List.replicate 32 0)) := by
  have hp : (⟨16 + p.val - 16, by omega⟩ : PartIx) = p := Fin.ext (Nat.add_sub_cancel_left ..)
  unfold State.measurement
  split
  · omega
  · omega
  · omega
  · rw [dif_pos (by omega), hp]
    cases (s.part p).lastChart <;> rfl

theorem State.measurement_none (s : State) {i : Nat} (h : i = 0 ∨ 4 ≤ i ∧ i < 16 ∨ 64 ≤ i) : s.measurement i = none := by
  unfold State.measurement
  split
  · omega
  · omega
  · omega
  · exact dif_neg (by omega)

end Keys

end Sys2Proof.Machine

namespace Sys2Proof

open Machine

theorem keysAndAttestation : KeysAndAttestation := by
  refine ⟨fun s j dw v hfree hdw => ⟨_, State.exec_keySlotWrite hfree dw v, rfl, fun i hi => s.keys_keyPut_ne hi .., fun d => ?_⟩, fun s j v hfree => ?_,
    fun s j dw v hnamed => ?_, fun s j hnamed => congrArg Host.Outcome.next (if_pos hnamed), fun s j dw v hfree hheld => ?_, fun s j hfree => ?_,
    fun s nonce h => congrArg Host.Outcome.next (State.spdmSigned_of_lt h _), fun s nonce h => congrArg Host.Outcome.next (State.spdmSigned_of_le h _),
    fun s i => ⟨rfl, fun h => congrArg Host.Outcome.next (State.spdmSigned_of_lt h _), fun h => congrArg Host.Outcome.next (State.spdmSigned_of_le h _)⟩,
    fun s => ⟨rfl, rfl, s.measurement_part, rfl, fun i h => s.measurement_none h⟩⟩
  · rw [State.keys_keyPut]
    exact fld_keySet _ hdw v d
  · rw [State.exec_keySlotWrite hfree]
    exact congrArg Host.Outcome.next (s.keyPut_reserved j _)
  · refine congrArg Host.Outcome.next ((if_pos hnamed).trans ?_)
    rw [BitVec.ofNat_toNat, BitVec.setWidth_eq]
  · have hflush : s.keyFlush j = State.keyPut { s with helm := { s.helm with keyHeld := [] } } j dw.val v.toNat := by
      rw [State.keyFlush_free hfree, hheld]
      simp
    exact ⟨_, congrArg Host.Outcome.next hflush, rfl, State.exec_keySlotWrite (s := { s with helm := { s.helm with keyHeld := [] } }) hfree dw v⟩
  · obtain ⟨ks, heq, hks⟩ := State.foldl_keyPut j (s.helm.keyHeld.filter fun x => x.1 == j.val)
      { s with helm := { s.helm with keyHeld := s.helm.keyHeld.filter fun x => x.1 != j.val } }
    exact ⟨_, congrArg Host.Outcome.next ((State.keyFlush_free hfree).trans heq), rfl, hks, rfl, rfl, rfl⟩

/-- Settles O52: a context starts with its registers as the rules give them, and the key slots and attestation answer by their laws. -/
theorem contextAndKeyEvents : Obligations.ContextAndKeyEvents := ⟨contextStart, keysAndAttestation⟩

end Sys2Proof

namespace Sys2Proof.Machine

/-! ## The end of a switch (R89, R142, R166) -/

section Switch

variable {s : State} {p : PartIx} {j : Fin 8}

/-- The partition as a switch ends, before its contexts change. -/
def Part.switchOver (q : Part) : Part := { q with switching := false, incoming := none, atCut := [] }

/-- The partition with what its shadow storage holds after a swap; a checkpoint held there ends with the context's return. -/
def Part.shadowed (q : Part) (h : Option Shadow) (back : Bool) : Part := { q with shadow := h, ckheld := q.ckheld && !back }

/-- Nothing is held back in a partition for the end of its switch: no mailbox write, no link token give. -/
structure Part.HoldsNothing (q : Part) : Prop where
  writes : q.shadowWr = []
  gives : q.tkPend = []

theorem Part.HoldsNothing.switchOver {q : Part} (h : q.HoldsNothing) : q.switchOver.HoldsNothing := ⟨h.writes, h.gives⟩

theorem Part.HoldsNothing.shadowed {q : Part} (hq : q.HoldsNothing) (h : Option Shadow) (back : Bool) : (q.shadowed h back).HoldsNothing := ⟨hq.writes, hq.gives⟩

theorem Part.HoldsNothing.contextStarted {q : Part} (h : q.HoldsNothing) (j : Fin 8) (t : Nat) : (q.contextStarted j t).HoldsNothing := ⟨h.writes, h.gives⟩

/-- A switch has ended that held nothing back: but for its held writes and gives and the next look of the Helm its partition stands. -/
structure SwitchSettled (p : PartIx) (s t : State) : Prop where
  frame : FaultFrame p s t
  part : t.part p = { s.part p with shadowWr := [], tkPend := [], schedDue := (t.part p).schedDue }

/-- The end of a switch with no write held, no give pending and no fault of the swap. -/
theorem SwitchSettled.of_quiet {m : State} (h : (m.part p).HoldsNothing) :
    SwitchSettled p m (((((m.part p).shadowWr.foldl (fun s w => s.mailNow p w.off w.len w.val) (m.updPart p fun q => { q with shadowWr := [] })).creditPending p).kickHelm
      p).hotCheckAll) := by
  have hcredit : (((m.part p).shadowWr.foldl (fun s w => s.mailNow p w.off w.len w.val) (m.updPart p fun q => { q with shadowWr := [] })).creditPending p) =
      m.updPart p fun q => { q with shadowWr := [], tkPend := [] } := by
    rw [h.writes, List.foldl_nil, State.creditPending, State.part_updPart, h.gives, List.foldl_nil, State.updPart_updPart]
  rw [hcredit]
  refine ⟨((FaultFrame.updPart ..).trans (.kickHelm ..)).trans (.of_addsEvents p (.hotCheckAll _)), ?_⟩
  rw [(AddsEvents.hotCheckAll _).part, State.part_kickHelm, State.part_updPart]

theorem State.part_foldl_upd (f : Core → Core) (l : List CoreIx) (s : State) (q : PartIx) : (l.foldl (fun s c => s.upd c f) s).part q = s.part q := by
  rw [State.foldl_upd_eq]
  rfl

/-- What a swap leaves: memory, the columns, the other partitions and their cores. -/
structure SwapFrame (p : PartIx) (s t : State) : Prop where
  memory : t.memory = s.memory
  cols : t.cols = s.cols
  partOf : ∀ c, t.partOf c = s.partOf c
  others : ∀ q, q ≠ p → t.part q = s.part q
  cores : ∀ c, s.partOf c ≠ some p → t.core c = s.core c

namespace SwapFrame

variable {t u : State}

theorem trans (a : SwapFrame p s t) (b : SwapFrame p t u) : SwapFrame p s u :=
  ⟨b.memory.trans a.memory, b.cols.trans a.cols, fun c => (b.partOf c).trans (a.partOf c), fun q hq => (b.others q hq).trans (a.others q hq),
    fun c hc => (b.cores c (by rw [a.partOf]; exact hc)).trans (a.cores c hc)⟩

theorem of_faultFrame (h : FaultFrame p s t) : SwapFrame p s t := ⟨h.memory, h.cols, h.partOf, h.others, fun c _ => h.core c⟩

theorem of_contextStarted (h : ContextStarted p j s t) : SwapFrame p s t :=
  ⟨by rw [h.eq], by rw [h.eq], fun c => by rw [h.eq]; rfl, h.others, fun c hc => by rw [h.core, if_neg hc]⟩

theorem updPart (s : State) (p : PartIx) (f : Part → Part) : SwapFrame p s (s.updPart p f) := of_faultFrame (.updPart ..)

theorem upd {c : CoreIx} (hc : s.partOf c = some p) (f : Core → Core) : SwapFrame p s (s.upd c f) :=
  ⟨rfl, rfl, fun _ => rfl, fun _ _ => rfl, fun _ hx => State.core_upd_ne _ (fun h => hx (by rw [h]; exact hc)) _⟩

/-- Steps over cores of the partition. -/
theorem foldl {g : State → CoreIx → State} (hg : ∀ u c, u.partOf c = some p → SwapFrame p u (g u c)) {l : List CoreIx}
    (hl : ∀ c ∈ l, s.partOf c = some p) : SwapFrame p s (l.foldl g s) := by
  induction l generalizing s with
  | nil => exact ⟨rfl, rfl, fun _ => rfl, fun _ _ => rfl, fun _ _ => rfl⟩
  | cons x l ih =>
    have hx := hg s x (hl x List.mem_cons_self)
    exact hx.trans (ih fun c hc => (hx.partOf c).trans (hl c (List.mem_cons_of_mem x hc)))

end SwapFrame

/-- A partition whose running context, that of a slot, has been switched out. -/
def Part.vacated (q : Part) (j : Fin 8) : Part :=
  { q.updSlot j fun y => { y with st := .preempted } with fixes := [], arrHeld := [], relHeld := none, awaiting := none, sentArr := false, outgoing := none }

theorem Part.HoldsNothing.vacated {q : Part} (h : q.HoldsNothing) (j : Fin 8) : (q.vacated j).HoldsNothing := ⟨h.writes, h.gives⟩

/-- A partition with another hold of slots, other marks of a checkpoint held, other interrupts. -/
def Part.marked (q : Part) (hold : BitVec 8) (ck clean : Bool) (ints : BitVec 2) : Part :=
  { q with slhold := hold, ckheld := ck, ckclean := clean, vintst := ints }

theorem Part.HoldsNothing.marked {q : Part} (h : q.HoldsNothing) (hold : BitVec 8) (ck clean : Bool) (ints : BitVec 2) :
    (q.marked hold ck clean ints).HoldsNothing := ⟨h.writes, h.gives⟩

/-- A context switched out leaves its partition vacated, but for what holds the slot and the clean mark of a checkpoint. -/
theorem State.part_switchedOut (s : State) (p : PartIx) (x : Preempt) : ∃ hold ck clean ints, (s.switchedOut p x).part p =
    ((s.part p).vacated (Fin.ofNat 8 x.slot)).marked hold ck clean ints := by
  unfold State.switchedOut
  dsimp only
  rw [State.part_slotTo, State.part_foldl_upd, State.part_updPart]
  exact ⟨_, _, _, _, rfl⟩

theorem SwapFrame.switchedOut (s : State) (p : PartIx) (x : Preempt) : SwapFrame p s (s.switchedOut p x) := by
  unfold State.switchedOut
  exact ((updPart s p _).trans (foldl (fun _ _ hc => upd hc _) fun c hc => (s.mem_coresOf p c).mp hc)).trans (of_faultFrame (.slotTo ..))

/-- What the shadow storage of a partition holds once its contexts are swapped: the one switched out, else nothing when its context returns. -/
def State.shadowAfter (s : State) (p : PartIx) (out : Option Preempt) (back : Bool) : Option Shadow := match out with
  | some x => some (s.shadowOf p x)
  | none => if back then none else (s.part p).shadow

/-- The module with one context of a partition switched out. -/
def State.swappedOut (s : State) (p : PartIx) (out : Option Preempt) (back : Bool) : State :=
  (match out with
  | some x => (s.updPart p Part.switchOver).switchedOut p x
  | none => s.updPart p Part.switchOver).updPart p fun q => q.shadowed (s.shadowAfter p out back) (out.isNone && back)

/-- The module with the contexts of a switch that ends swapped: one out, one in from its chart or from the shadow. -/
def State.swapped (s : State) (p : PartIx) (out : Option Preempt) (inc : Option (Fin 8)) : State :=
  let u := s.swappedOut p out (inc.any fun j => (s.part p).slots[j].st == .preempted)
  match inc with
  | none => u
  | some j => match (s.part p).slots[j].st, (s.part p).shadow with
    | .preempted, some h => u.switchedIn p j h
    | .ready, _ => u.startContext p j
    | _, _ => u

/-- The end of a switch that held nothing back for it (R142). -/
theorem State.switchEnd_settled {inc : Option (Fin 8)} {m : State} (hsw : (s.part p).switching = true) (hswap : (s.part p).swapFault = none)
    (hinc : (s.part p).incoming.map (fun n => Fin.ofNat 8 n) = inc) (hm : s.swapped p (s.part p).outgoing inc = m) (hheld : (m.part p).HoldsNothing) :
    SwitchSettled p m (s.switchEnd p) := by
  unfold State.switchEnd
  extract_lets q old inc' out s1 s2 back s3 s4 ws s5 s6 s7 s8 s9
  rw [if_neg (by rw [show q.switching = true from hsw]; exact fun h => h rfl)]
  have hs : s9 = s7 := by simp only [s9, q, hswap]
  have hm4 : s4 = m := by
    rw [← hm, ← hinc]
    simp only [s4, s3, s2, out, q]
    cases (s.part p).outgoing <;> rfl
  rw [hs, ← hm4]
  exact SwitchSettled.of_quiet (hm4 ▸ hheld)

theorem State.switchEnd_ready (hsw : (s.part p).switching = true) (hout : (s.part p).outgoing = none) (hinc : (s.part p).incoming = some j.val)
    (hst : ((s.part p).slots[j]).st = .ready) (hheld : (s.part p).HoldsNothing) (hswap : (s.part p).swapFault = none) :
    SwitchSettled p (((s.updPart p Part.switchOver).updPart p fun q => q.shadowed (s.part p).shadow false).startContext p j) (s.switchEnd p) := by
  have hpart := (((s.updPart p Part.switchOver).updPart p fun q => q.shadowed (s.part p).shadow false).contextStarted p j).part
  rw [State.part_updPart, State.part_updPart] at hpart
  refine State.switchEnd_settled (inc := some j) hsw hswap (by rw [hinc, Option.map_some, Fin.ofNat_val_eq_self]) ?_
    (hpart ▸ (hheld.switchOver.shadowed _ _).contextStarted ..)
  rw [hout]
  simp only [State.swapped, Option.any_some, hst]
  rfl

theorem State.switchEnd_out {x : Preempt} (hsw : (s.part p).switching = true) (hout : (s.part p).outgoing = some x) (hinc : (s.part p).incoming = none)
    (hheld : (s.part p).HoldsNothing) (hswap : (s.part p).swapFault = none) :
    SwitchSettled p (((s.updPart p Part.switchOver).switchedOut p x).updPart p fun q => q.shadowed (some (s.shadowOf p x)) false) (s.switchEnd p) := by
  obtain ⟨hold, ck, clean, ints, hpart⟩ := (s.updPart p Part.switchOver).part_switchedOut p x
  rw [State.part_updPart] at hpart
  refine State.switchEnd_settled (inc := none) hsw hswap (by rw [hinc, Option.map_none]) (by rw [hout]; rfl) ?_
  rw [State.part_updPart, hpart]
  exact ((hheld.switchOver.vacated _).marked ..).shadowed ..

/-- A table over a list of cores has an entry for each of them. -/
theorem tget_map_val {α : Type} (f : CoreIx → α) {l : List CoreIx} {c : CoreIx} (hc : c ∈ l) : tget (l.map fun x => (x.val, f x)) c.val = some (f c) := by
  induction l with
  | nil => cases hc
  | cons x l ih =>
    rw [List.map_cons, tget]
    split
    next h => rw [Fin.ext h]
    next h => exact ih ((List.mem_cons.mp hc).resolve_left fun e => h (congrArg Fin.val e.symm))

/-- The core a shadow keeps of one switched out: as it stands, unless the Lookout held the slot. -/
theorem State.cores_shadowOf {x : Preempt} (hx : x.sethold = false) {c : CoreIx} (hc : s.partOf c = some p) :
    tget (s.shadowOf p x).cores c.val = some (s.core c) := by
  refine (tget_map_val _ ((s.mem_coresOf p c).mpr hc)).trans ?_
  rw [hx]
  rfl

end Switch

end Sys2Proof.Machine

namespace Sys2Proof.Machine

/-! ## A context switched in from the shadow (R162, R166) -/

section SwitchIn

variable {s t u : State} {p : PartIx} {j : Fin 8} {h : Shadow}

/-- Only the schedule and the accesses under way change. -/
def Reschedules (s t : State) : Prop := t = { s with agenda := t.agenda, reqs := t.reqs }

namespace Reschedules

theorem refl (s : State) : Reschedules s s := rfl

theorem trans (a : Reschedules s t) (b : Reschedules t u) : Reschedules s u := by
  unfold Reschedules at a b ⊢
  rw [a] at b
  exact b

theorem of_addsEvents (h : AddsEvents s t) : Reschedules s t := by
  unfold Reschedules
  rw [h.eq]

theorem foldl {α : Type} {f : State → α → State} (hf : ∀ s a, Reschedules s (f s a)) (l : List α) (s : State) : Reschedules s (l.foldl f s) := by
  induction l generalizing s with
  | nil => exact refl s
  | cons a l ih => exact (hf s a).trans (ih _)

theorem core (h : Reschedules s t) (c : CoreIx) : t.core c = s.core c := by rw [h]; rfl
theorem part (h : Reschedules s t) (p : PartIx) : t.part p = s.part p := by rw [h]; rfl
theorem swapFrame (h : Reschedules s t) (p : PartIx) : SwapFrame p s t :=
  ⟨by rw [h], by rw [h], fun c => by rw [h]; rfl, fun q _ => h.part q, fun c _ => h.core c⟩

end Reschedules

/-- The core a shadow keeps for a core, put over it by a function; one it keeps nothing for stays. -/
def State.restoreOver (h : Shadow) (f : CoreIx → Core → Core → Core) (s : State) (c : CoreIx) : State := match tget h.cores c.val with
  | some k => s.upd c fun cur => f c cur k
  | none => s

theorem SwapFrame.restoreOver (f : CoreIx → Core → Core → Core) (s : State) (c : CoreIx) (hc : s.partOf c = some p) : SwapFrame p s (s.restoreOver h f c) := by
  unfold State.restoreOver
  split
  · exact .upd hc _
  · exact ⟨rfl, rfl, fun _ => rfl, fun _ _ => rfl, fun _ _ => rfl⟩

theorem State.part_restoreOver (f : CoreIx → Core → Core → Core) (s : State) (c : CoreIx) (q : PartIx) : (s.restoreOver h f c).part q = s.part q := by
  unfold State.restoreOver
  split <;> rfl

theorem State.part_foldl_restoreOver (f : CoreIx → Core → Core → Core) (l : List CoreIx) (s : State) (q : PartIx) :
    (l.foldl (State.restoreOver h f) s).part q = s.part q := by
  induction l generalizing s with
  | nil => rfl
  | cons x l ih => exact (ih _).trans (s.part_restoreOver f x q)

theorem State.core_restoreOver_ne (f : CoreIx → Core → Core → Core) (s : State) {c x : CoreIx} (hc : c ≠ x) : (s.restoreOver h f x).core c = s.core c := by
  unfold State.restoreOver
  split
  · exact State.core_upd_ne _ hc _
  · rfl

theorem State.core_foldl_restoreOver (f : CoreIx → Core → Core → Core) {l : List CoreIx} (hl : l.Nodup) (s : State) {c : CoreIx} {k : Core}
    (hk : tget h.cores c.val = some k) : (l.foldl (State.restoreOver h f) s).core c = if c ∈ l then f c (s.core c) k else s.core c := by
  induction l generalizing s with
  | nil => rfl
  | cons x l ih =>
    obtain ⟨hx, hl⟩ := List.nodup_cons.mp hl
    rw [List.foldl_cons, ih hl]
    by_cases hc : c = x
    · subst hc
      rw [if_neg hx, if_pos List.mem_cons_self, State.restoreOver, hk, State.core_upd]
    · simp only [State.core_restoreOver_ne f s hc, List.mem_cons, hc, false_or]

/-- The partition with the context of a slot resumed in it at a cycle. -/
def Part.resumed (q : Part) (j : Fin 8) (h : Shadow) (t : Nat) (rel : List (Nat × Nat)) : Part :=
  { q.updSlot j fun x => { x with since := t, st := .run } with
    legs := (q.slots[j]).legs, fixes := h.done, arrHeld := h.arrHeld, relHeld := h.relHeld, awaiting := h.awaiting, sentArr := h.sentArr
    cutUnits := h.cutUnits, lastRun := tput q.lastRun (q.slots[j]).prio.toNat j.val, lastRel := rel }

/-- What resuming a context sets in its partition, the slot's STATE last. -/
theorem Part.resumed_eq (q : Part) (j : Fin 8) (h : Shadow) (t : Nat) (rel : List (Nat × Nat)) :
    ({ q.updSlot j (fun x => { x with since := t }) with
      legs := (q.slots[j]).legs, fixes := h.done, arrHeld := h.arrHeld, relHeld := h.relHeld, awaiting := h.awaiting, sentArr := h.sentArr
      cutUnits := h.cutUnits, lastRun := tput q.lastRun (q.slots[j]).prio.toNat j.val, lastRel := rel } : Part).updSlot j (fun x => { x with st := .run }) =
      q.resumed j h t rel := by
  simp only [Part.resumed, Part.updSlot, Fin.getElem_fin, Vector.getElem_set_self, Vector.set_set]

theorem Part.HoldsNothing.resumed {q : Part} (hq : q.HoldsNothing) (j : Fin 8) (h : Shadow) (t : Nat) (rel : List (Nat × Nat)) :
    (q.resumed j h t rel).HoldsNothing := ⟨hq.writes, hq.gives⟩

/-- A context resumed where none runs is the running one. -/
theorem Part.runSlot_resumed {q : Part} (hq : q.runSlot = none) (j : Fin 8) (h : Shadow) (t : Nat) (rel : List (Nat × Nat)) :
    (q.resumed j h t rel).runSlot = some j := by
  refine Part.runSlot_of_only (congrArg Slot.st (Part.slot_updSlot q j fun x => { x with since := t, st := .run })) fun i hi => ?_
  rw [show (q.resumed j h t rel).slots[i] = q.slots[i] from Part.slot_updSlot_ne q hi fun x => { x with since := t, st := .run }]
  exact Part.not_run_of_runSlot hq i

/-- The context a shadow holds is back in its slot: its cores restored, its partition resumed. -/
structure SwitchedIn (p : PartIx) (j : Fin 8) (h : Shadow) (s t : State) : Prop where
  frame : SwapFrame p s t
  core : ∀ c k, s.partOf c = some p → tget h.cores c.val = some k →
    t.core c = (s.core c).restored k (h.resume ((s.part p).slots[j]).legs s.chron c).2 (h.resume ((s.part p).slots[j]).legs s.chron c).1 s.chron
  part : ∃ rel, t.part p = (s.part p).resumed j h s.chron rel

theorem State.switchedIn_in (s : State) (p : PartIx) (j : Fin 8) (h : Shadow) : SwitchedIn p j h s (s.switchedIn p j h) := by
  unfold State.switchedIn
  extract_lets tin legs cs at_ s1 s2 s3 s4 s5
  have h3 : Reschedules s2 s3 := by
    refine Reschedules.foldl (fun u e => ?_) _ _
    split
    · exact .of_addsEvents (.schedC ..)
    · exact .refl u
  have h4 : Reschedules s3 s4 := Reschedules.foldl (fun _ _ => by unfold Reschedules; rfl) _ _
  have h5 : Reschedules s4 s5 := .of_addsEvents (AddsEvents.foldl (fun u g => .schedP ..) _ _)
  have h25 := (h3.trans h4).trans h5
  rw [State.slotTo_quiet _ _ _ _ rfl]
  have hend := AddsEvents.armQuantum (s5.updPart p fun q => q.updSlot j fun x => { x with st := .run }) p j
  have h1 : SwapFrame p s s1 := .foldl (SwapFrame.restoreOver fun c cur k => cur.restored k (at_ c).2 (at_ c).1 tin) fun c => (s.mem_coresOf p c).mp
  have hpart : s1.part p = s.part p := State.part_foldl_restoreOver (fun c cur k => cur.restored k (at_ c).2 (at_ c).1 tin) cs s p
  refine ⟨?_, ?_, ?_⟩
  · exact (((h1.trans (.updPart ..)).trans (h25.swapFrame p)).trans (.updPart ..)).trans (.of_faultFrame (.of_addsEvents p hend))
  · intro c k hc hk
    have hcore : s1.core c = _ := State.core_foldl_restoreOver (fun c cur k => cur.restored k (at_ c).2 (at_ c).1 tin) (s.coresOf_nodup p) s hk
    rw [if_pos ((s.mem_coresOf p c).mpr hc)] at hcore
    exact (hend.core c).trans ((h25.core c).trans hcore)
  · rw [hend.part, State.part_updPart, h25.part, State.part_updPart, hpart]
    exact ⟨_, (s.part p).resumed_eq j h tin _⟩

theorem State.switchEnd_back (hsw : (s.part p).switching = true) (hout : (s.part p).outgoing = none) (hinc : (s.part p).incoming = some j.val)
    (hst : ((s.part p).slots[j]).st = .preempted) (hsh : (s.part p).shadow = some h) (hheld : (s.part p).HoldsNothing) (hswap : (s.part p).swapFault = none) :
    SwitchSettled p (((s.updPart p Part.switchOver).updPart p fun q => q.shadowed none true).switchedIn p j h) (s.switchEnd p) := by
  obtain ⟨rel, hpart⟩ := (((s.updPart p Part.switchOver).updPart p fun q => q.shadowed none true).switchedIn_in p j h).part
  rw [State.part_updPart, State.part_updPart] at hpart
  refine State.switchEnd_settled (inc := some j) hsw hswap (by rw [hinc, Option.map_some, Fin.ofNat_val_eq_self]) ?_
    (hpart ▸ (hheld.switchOver.shadowed _ _).resumed ..)
  rw [hout]
  simp only [State.swapped, Option.any_some, hst, hsh]
  rfl

theorem le_mul_ceilDiv {b : Nat} (hb : 0 < b) (a : Nat) : a ≤ b * ceilDiv a b := by
  unfold ceilDiv
  have := Nat.div_add_mod (a + (b - 1)) b
  have := Nat.mod_lt (a + (b - 1)) hb
  omega

/-- A resumed core is released 48 cycles after the switch at the earliest (R162). -/
theorem Shadow.le_resume (h : Shadow) (legs : List LegDesc) (t : Nat) (c : CoreIx) : t + 48 ≤ (h.resume legs t c).1 := by
  unfold Shadow.resume
  split
  · exact Nat.le_refl _
  next tb _ =>
    extract_lets g mine age n
    have : t + 48 + age - tb ≤ refPer * n := le_mul_ceilDiv (by decide) _
    show t + 48 ≤ tb + refPer * n
    omega

/-- A restored core has the registers of the saved one again, and issues nothing before its release (R162, R166). -/
theorem Core.restored_registers (cur k : Core) (d rel t : Nat) : let u := cur.restored k d rel t
    (∀ r, u.seq.gpr r = k.seq.gpr r ∧ u.seq.tnt r = k.seq.tnt r) ∧ u.seq.q.pc = k.seq.q.pc ∧ u.seq.sup = k.seq.sup ∧ u.ctl.legno = k.ctl.legno
      ∧ u.ctl.tok = k.ctl.tok ∧ u.axu.a = k.axu.a ∧ u.vec.v = k.vec.v ∧ u.bke.win = k.bke.win ∧ u.bke.vis = k.bke.vis ∧ rel ≤ u.seq.q.notBefore :=
  ⟨fun _ => ⟨rfl, rfl⟩, rfl, rfl, rfl, rfl, rfl, rfl, rfl, rfl, Nat.le_max_right ..⟩

end SwitchIn

end Sys2Proof.Machine

namespace Sys2Proof.Machine

/-! ## The resume-fix (R162) -/

section Resume

variable {s t u : State} {p : PartIx}

/-- Only events are added and the next polls of CPEs change. -/
structure PollsOnly (s t : State) : Prop where
  core : ∀ c, ∃ o, t.core c = { s.core c with cpe := { (s.core c).cpe with poll := o } }
  eq : t = { s with cores := t.cores, agenda := t.agenda }
  events : ∀ e ∈ s.agenda, e ∈ t.agenda

namespace PollsOnly

theorem of_addsEvents (h : AddsEvents s t) : PollsOnly s t := ⟨fun c => ⟨_, h.core c⟩, by rw [h.eq], h.events⟩

theorem refl (s : State) : PollsOnly s s := of_addsEvents (.refl s)

theorem trans (a : PollsOnly s t) (b : PollsOnly t u) : PollsOnly s u := by
  refine ⟨fun c => ?_, by have e := b.eq; rw [a.eq] at e; exact e, fun e h => b.events e (a.events e h)⟩
  obtain ⟨o, ho⟩ := a.core c
  obtain ⟨o', ho'⟩ := b.core c
  exact ⟨o', by rw [ho', ho]⟩

theorem foldl {α : Type} {f : State → α → State} (hf : ∀ s a, PollsOnly s (f s a)) (l : List α) (s : State) : PollsOnly s (l.foldl f s) := by
  induction l generalizing s with
  | nil => exact refl s
  | cons a l ih => exact (hf s a).trans (ih _)

theorem cpePump (s : State) (c : CoreIx) : PollsOnly s (s.cpePump c) := by
  have hpoll (o : Option Nat) : PollsOnly s (s.updCpe c fun k => { k with poll := o }) := by
    refine ⟨fun x => ?_, rfl, fun _ h => h⟩
    by_cases hx : x = c
    · subst hx
      exact ⟨o, State.core_upd ..⟩
    · exact ⟨(s.core x).cpe.poll, State.core_upd_ne _ hx _⟩
  unfold State.cpePump
  dsimp only
  split
  · split
    · exact refl s
    · exact (hpoll _).trans (of_addsEvents (.schedC ..))
  · exact refl s

theorem poke (s : State) (c : CoreIx) : PollsOnly s (s.poke c) := by
  have hwant (u : State) (b : Bool) (i : Instr) : AddsEvents u (if b && !u.due c i then u.schedC u.chron c i else u) := by
    split
    · exact .schedC ..
    · exact .refl u
  unfold State.poke
  exact (of_addsEvents ((((hwant _ _ _).trans (hwant _ _ _)).trans (hwant _ _ _)).trans (hwant _ _ _))).trans (cpePump ..)

theorem rearm (s : State) (p : PartIx) (c : CoreIx) : PollsOnly s (s.rearm p c) := by
  unfold State.rearm
  split
  · exact refl s
  · split
    · exact refl s
    · dsimp only
      split
      · exact of_addsEvents (.schedP ..)
      · exact refl s

end PollsOnly

/-- The fixes of a partition with those of a group held no more. -/
def letGo (g : GroupIx) (l : List FixDone) : List FixDone := l.map fun x => if x.grp = g then { x with held := false } else x

theorem exec_resumeFix_none {g : GroupIx} (h : ∀ f ∈ (s.part p).fixes, f.grp ≠ g) : ∃ t, exec (.resumeFix p g) s = .next t ∧ PollsOnly s t := by
  have hfind : (s.part p).fixes.find? (fun f => f.grp == g) = none := List.find?_eq_none.mpr fun f hf => by
    rw [beq_iff_eq]
    exact h f hf
  refine ⟨_, congrArg Host.Outcome.next (by rw [hfind]), PollsOnly.foldl (fun u c => (PollsOnly.poke u c).trans (.rearm ..)) _ _⟩

/-- A fix found by its group, once it is held no more. -/
theorem find_letGo {l : List FixDone} {g : GroupIx} {f : FixDone} (hf : f ∈ l) (hg : f.grp = g) (hone : ∀ x ∈ l, x.grp = g → x = f) :
    (letGo g l).find? (fun x => x.grp == g && !x.held) = some { f with held := false } := by
  refine find_fix (List.mem_map.mpr ⟨f, hf, if_pos hg⟩) hg rfl fun x hx hxg => ?_
  obtain ⟨y, hy, rfl⟩ := List.mem_map.mp hx
  by_cases hyg : y.grp = g
  · rw [if_pos hyg, hone y hy hyg]
  · rw [if_neg hyg] at hxg
    exact absurd hxg hyg

theorem find_group {l : List FixDone} {g : GroupIx} {f : FixDone} (hf : f ∈ l) (hg : f.grp = g) (hone : ∀ x ∈ l, x.grp = g → x = f) :
    l.find? (fun x => x.grp == g) = some f := by
  cases h : l.find? (fun x => x.grp == g) with
  | none => exact absurd (beq_iff_eq.mpr hg) (List.find?_eq_none.mp h f hf)
  | some x => rw [hone x (List.mem_of_find?_eq_some h) (beq_iff_eq.mp (List.find?_some (p := fun x : FixDone => x.grp == g) h))]

/-- A held fix goes on as one released (R162). -/
theorem exec_resumeFix_some {g : GroupIx} {f : FixDone} (hf : f ∈ (s.part p).fixes) (hg : f.grp = g) (hone : ∀ x ∈ (s.part p).fixes, x.grp = g → x = f)
    (hreplay : s.replaying p = false) (hrel : f.fabric = false ∨ (s.part p).relHeld.isSome = true) :
    exec (.resumeFix p g) s = exec (.fixRelease p g) (s.updPart p fun q => { q with fixes := letGo g q.fixes }) := by
  have hresume : exec (.resumeFix p g) s = .next ((s.updPart p fun q => { q with fixes := letGo g q.fixes }).releaseFix p { f with held := false }) := by
    refine congrArg Host.Outcome.next ?_
    rw [find_group hf hg hone]
    refine if_pos ?_
    rw [State.part_updPart]
    rcases hrel with h | h
    · exact Or.inl (by rw [h]; exact Bool.false_ne_true)
    · exact Or.inr h
  have hrelease : exec (.fixRelease p g) (s.updPart p fun q => { q with fixes := letGo g q.fixes }) =
      .next ((s.updPart p fun q => { q with fixes := letGo g q.fixes }).releaseFix p { f with held := false }) := by
    have hrep : (s.updPart p fun q => { q with fixes := letGo g q.fixes }).replaying p = false := by
      rw [State.replaying, State.part_updPart]
      exact hreplay
    have hfix : ((s.updPart p fun q => { q with fixes := letGo g q.fixes }).part p).fixes = letGo g (s.part p).fixes := by rw [State.part_updPart]
    refine congrArg Host.Outcome.next ?_
    rw [hfix, find_letGo hf hg hone]
    dsimp only
    rw [hrep]
    rfl
  rw [hresume, hrelease]

end Resume

end Sys2Proof.Machine

namespace Sys2Proof.Machine

section SwitchEnds

variable {s t u : State} {p : PartIx}

theorem SwitchSettled.swapFrame (h : SwitchSettled p s t) : SwapFrame p s t := .of_faultFrame h.frame

theorem SwitchSettled.switching (h : SwitchSettled p s t) : (t.part p).switching = (s.part p).switching := by rw [h.part]
theorem SwitchSettled.slots (h : SwitchSettled p s t) : (t.part p).slots = (s.part p).slots := by rw [h.part]
theorem SwitchSettled.outgoing (h : SwitchSettled p s t) : (t.part p).outgoing = (s.part p).outgoing := by rw [h.part]
theorem SwitchSettled.shadow (h : SwitchSettled p s t) : (t.part p).shadow = (s.part p).shadow := by rw [h.part]
theorem SwitchSettled.runSlot (h : SwitchSettled p s t) : (t.part p).runSlot = (s.part p).runSlot := by rw [Part.runSlot, h.slots]; rfl

section Fields

variable (q : Part) (j : Fin 8) (n : Nat) (h : Shadow) (sh : Option Shadow) (back ck clean : Bool) (rel : List (Nat × Nat)) (hold : BitVec 8) (ints : BitVec 2)

@[simp] theorem Part.switching_switchOver : q.switchOver.switching = false := rfl
@[simp] theorem Part.switching_shadowed : (q.shadowed sh back).switching = q.switching := rfl
@[simp] theorem Part.switching_vacated : (q.vacated j).switching = q.switching := rfl
@[simp] theorem Part.switching_marked : (q.marked hold ck clean ints).switching = q.switching := rfl
@[simp] theorem Part.switching_contextStarted : (q.contextStarted j n).switching = q.switching := rfl
@[simp] theorem Part.switching_resumed : (q.resumed j h n rel).switching = q.switching := rfl
@[simp] theorem Part.outgoing_shadowed : (q.shadowed sh back).outgoing = q.outgoing := rfl
@[simp] theorem Part.outgoing_marked : (q.marked hold ck clean ints).outgoing = q.outgoing := rfl
@[simp] theorem Part.outgoing_vacated : (q.vacated j).outgoing = none := rfl
@[simp] theorem Part.shadow_shadowed : (q.shadowed sh back).shadow = sh := rfl
@[simp] theorem Part.shadow_resumed : (q.resumed j h n rel).shadow = q.shadow := rfl
@[simp] theorem Part.slots_shadowed : (q.shadowed sh back).slots = q.slots := rfl
@[simp] theorem Part.slots_marked : (q.marked hold ck clean ints).slots = q.slots := rfl
@[simp] theorem Part.slots_switchOver : q.switchOver.slots = q.slots := rfl

theorem Part.runSlot_over_shadowed : (q.switchOver.shadowed sh back).runSlot = q.runSlot := rfl

theorem Part.slot_vacated : ((q.vacated j).slots[j]).st = .preempted := congrArg Slot.st (Part.slot_updSlot q j fun y => { y with st := .preempted })

end Fields

theorem State.part_over_shadowed (s : State) (p : PartIx) (sh : Option Shadow) (back : Bool) :
    (((s.updPart p Part.switchOver).updPart p fun q => q.shadowed sh back).part p) = ((s.part p).switchOver).shadowed sh back := by
  rw [State.part_updPart, State.part_updPart]

theorem SwapFrame.over_shadowed (s : State) (p : PartIx) (sh : Option Shadow) (back : Bool) :
    SwapFrame p s ((s.updPart p Part.switchOver).updPart p fun q => q.shadowed sh back) := (updPart ..).trans (updPart ..)

end SwitchEnds

end Sys2Proof.Machine

namespace Sys2Proof

open Machine

/-- The end of a switch of a READY context in (R89, R142). -/
theorem switchEnd_starts {s : State} {p : PartIx} {j : Fin 8} (hsw : (s.part p).switching = true) (hout : (s.part p).outgoing = none)
    (hinc : (s.part p).incoming = some j.val) (hst : ((s.part p).slots[j]).st = .ready) (hrun : (s.part p).runSlot = none) (hheld : (s.part p).HoldsNothing)
    (hswap : (s.part p).swapFault = none) :
    ((s.switchEnd p).part p).switching = false ∧ ((s.switchEnd p).part p).runSlot = some j ∧ SwapFrame p s (s.switchEnd p)
      ∧ ∀ c, s.partOf c = some p → (s.switchEnd p).core c = (s.core c).started ((s.part p).slots[j]) (s.logical p c) (s.nclu p) s.chron := by
  have hend := State.switchEnd_ready hsw hout hinc hst hheld hswap
  have hstart := ((s.updPart p Part.switchOver).updPart p fun q => q.shadowed (s.part p).shadow false).contextStarted p j
  refine ⟨?_, ?_, ((SwapFrame.over_shadowed ..).trans (.of_contextStarted hstart)).trans hend.swapFrame, fun c hc => ?_⟩
  · rw [hend.switching, hstart.part, State.part_over_shadowed, Part.switching_contextStarted, Part.switching_shadowed, Part.switching_switchOver]
  · rw [hend.runSlot, hstart.part, State.part_over_shadowed]
    exact Part.runSlot_contextStarted ((Part.runSlot_over_shadowed ..).trans hrun) j _
  · rw [hend.frame.core, hstart.core, State.part_over_shadowed, Part.slots_shadowed, Part.slots_switchOver]
    exact if_pos hc

/-- The end of a switch of the running context out (R142, R166). -/
theorem switchEnd_vacates {s : State} {p : PartIx} {x : Preempt} {j : Fin 8} (hsw : (s.part p).switching = true) (hout : (s.part p).outgoing = some x)
    (hj : x.slot = j.val) (hinc : (s.part p).incoming = none) (hheld : (s.part p).HoldsNothing) (hswap : (s.part p).swapFault = none) :
    ((s.switchEnd p).part p).switching = false ∧ ((s.switchEnd p).part p).outgoing = none ∧ (((s.switchEnd p).part p).slots[j]).st = .preempted
      ∧ ((s.switchEnd p).part p).shadow = some (s.shadowOf p x) ∧ SwapFrame p s (s.switchEnd p) := by
  have hend := State.switchEnd_out hsw hout hinc hheld hswap
  obtain ⟨hold, ck, clean, ints, hpart⟩ := (s.updPart p Part.switchOver).part_switchedOut p x
  rw [State.part_updPart, hj, Fin.ofNat_val_eq_self] at hpart
  refine ⟨?_, ?_, ?_, ?_, (((SwapFrame.updPart ..).trans (.switchedOut ..)).trans (.updPart ..)).trans hend.swapFrame⟩
  · rw [hend.switching, State.part_updPart, hpart, Part.switching_shadowed, Part.switching_marked, Part.switching_vacated, Part.switching_switchOver]
  · rw [hend.outgoing, State.part_updPart, hpart, Part.outgoing_shadowed, Part.outgoing_marked, Part.outgoing_vacated]
  · rw [hend.slots, State.part_updPart, hpart, Part.slots_shadowed, Part.slots_marked]
    exact Part.slot_vacated ..
  · rw [hend.shadow, State.part_updPart, Part.shadow_shadowed]

/-- The end of a switch of the PREEMPTED context back in (R162, R166). -/
theorem switchEnd_returns {s : State} {p : PartIx} {j : Fin 8} {h : Shadow} (hsw : (s.part p).switching = true) (hout : (s.part p).outgoing = none)
    (hinc : (s.part p).incoming = some j.val) (hst : ((s.part p).slots[j]).st = .preempted) (hsh : (s.part p).shadow = some h)
    (hrun : (s.part p).runSlot = none) (hheld : (s.part p).HoldsNothing) (hswap : (s.part p).swapFault = none) :
    ((s.switchEnd p).part p).switching = false ∧ ((s.switchEnd p).part p).runSlot = some j ∧ ((s.switchEnd p).part p).shadow = none
      ∧ SwapFrame p s (s.switchEnd p)
      ∧ ∀ c k, s.partOf c = some p → tget h.cores c.val = some k →
        ∃ (cur : Core) (d rel : Nat), s.chron + 48 ≤ rel ∧ (s.switchEnd p).core c = cur.restored k d rel s.chron := by
  have hend := State.switchEnd_back hsw hout hinc hst hsh hheld hswap
  have hin := ((s.updPart p Part.switchOver).updPart p fun q => q.shadowed none true).switchedIn_in p j h
  obtain ⟨rel, hpart⟩ := hin.part
  rw [State.part_over_shadowed] at hpart
  refine ⟨?_, ?_, ?_, ((SwapFrame.over_shadowed ..).trans hin.frame).trans hend.swapFrame, fun c k hc hk => ?_⟩
  · rw [hend.switching, hpart, Part.switching_resumed, Part.switching_shadowed, Part.switching_switchOver]
  · rw [hend.runSlot, hpart]
    exact Part.runSlot_resumed ((Part.runSlot_over_shadowed ..).trans hrun) ..
  · rw [hend.shadow, hpart, Part.shadow_resumed, Part.shadow_shadowed]
  · rw [hend.frame.core, hin.core c k hc hk]
    exact ⟨_, _, _, Shadow.le_resume .., rfl⟩

theorem switchEvents : SwitchEvents := by
  refine ⟨fun s hsw => congrArg Host.Outcome.next (if_pos (by rw [hsw]; exact Bool.false_ne_true)), fun s j hsw hout hinc hst hrun _ hwr htk hswap => ?_,
    fun s x j hsw hout hj hhold hinc hwr htk hswap => ?_, fun s h j hsw hout hinc hst hsh hrun hwr htk hswap => ?_, fun s p g hfix => ?_,
    fun s p g f hf hg hone hreplay hrel => exec_resumeFix_some hf hg hone hreplay hrel, fun s p leg => rfl⟩
  · obtain ⟨hover, hruns, hframe, hcores⟩ := switchEnd_starts hsw hout hinc hst hrun ⟨hwr, htk⟩ hswap
    refine ⟨_, rfl, hover, hruns, hframe.memory, hframe.cols, hframe.others, hframe.cores, fun c hc => ?_⟩
    rw [hcores c hc]
    exact ⟨rfl, rfl, Core.gpr_started .., Core.gpr_started ..⟩
  · obtain ⟨hover, hnone, hpre, hsh, hframe⟩ := switchEnd_vacates hsw hout hj hinc ⟨hwr, htk⟩ hswap
    exact ⟨_, rfl, hover, hnone, hpre, ⟨_, hsh, hj, rfl, rfl, fun c hc => State.cores_shadowOf hhold hc⟩, hframe.memory, hframe.cols, hframe.others, hframe.cores⟩
  · obtain ⟨hover, hruns, hsh, hframe, hcores⟩ := switchEnd_returns hsw hout hinc hst hsh hrun ⟨hwr, htk⟩ hswap
    refine ⟨_, rfl, hover, hruns, hsh, hframe.memory, hframe.cols, fun c k hc hk => ?_⟩
    obtain ⟨cur, d, rel, hrel, hcore⟩ := hcores c k hc hk
    obtain ⟨hg, hpc, hsup, hleg, htok, ha, hv, hwin, hvis, hbefore⟩ := cur.restored_registers k d rel s.chron
    rw [hcore]
    exact ⟨hg, hpc, hsup, hleg, htok, ha, hv, hwin, hvis, hrel.trans hbefore⟩
  · obtain ⟨t, hexec, hpolls⟩ := exec_resumeFix_none hfix
    exact ⟨t, hexec, hpolls.core, by rw [hpolls.eq], by rw [hpolls.eq], by rw [hpolls.eq], hpolls.events⟩

end Sys2Proof

namespace Sys2Proof.Machine

/-! ## Pre-emption requested (R160, R161) -/

section Request

variable {s t u : State} {p : PartIx} {j : Fin 8} {c : CoreIx}

/-- The pre-emption of the context of a slot as it is requested. -/
def State.preemptAt (s : State) (p : PartIx) (j : Fin 8) (hold : Bool) : Preempt :=
  { slot := j.val, at_ := s.chron, sethold := hold
    cut := (s.coresOf p).filterMap fun c => match s.share p c s.chron with
      | .cutAt tb => some (c.val, tb)
      | _ => none
    deferred := (s.coresOf p).filterMap fun c => if s.share p c s.chron = .defer then some c.val else none }

theorem State.requestPreempt_running (hr : Running s p) (hj : (s.part p).runSlot = some j) (hout : (s.part p).outgoing = none) (hold : Bool) :
    s.requestPreempt p hold =
      ((s.holdFixes p).updPart p fun q => { q with outgoing := some (s.preemptAt p j hold) }).schedP (s.chron + 8) p .preemptionComplete := by
  obtain ⟨hsw, hhalt, _⟩ := hr
  unfold State.requestPreempt
  dsimp only
  rw [hj]
  dsimp only
  rw [if_neg (by rw [hsw, hhalt]; exact fun h => h.elim Bool.false_ne_true Bool.false_ne_true), hout]
  rfl

theorem State.mem_deferred (hc : s.partOf c = some p) (hold : Bool) : c.val ∈ (s.preemptAt p j hold).deferred ↔ s.share p c s.chron = .defer := by
  unfold State.preemptAt
  rw [List.mem_filterMap]
  constructor
  · rintro ⟨x, hx, h⟩
    split at h
    next hs => rw [← Fin.ext (Option.some.inj h)]; exact hs
    next => cases h
  · exact fun h => ⟨c, (s.mem_coresOf p c).mpr hc, if_pos h⟩

theorem State.mem_cut (hc : s.partOf c = some p) (hold : Bool) (n : Nat) : (c.val, n) ∈ (s.preemptAt p j hold).cut ↔ s.share p c s.chron = .cutAt n := by
  unfold State.preemptAt
  rw [List.mem_filterMap]
  constructor
  · rintro ⟨x, hx, h⟩
    split at h
    next tb hs =>
      obtain ⟨hv, rfl⟩ := Prod.mk.inj (Option.some.inj h)
      rw [← Fin.ext hv]
      exact hs
    next => cases h
  · intro h
    refine ⟨c, (s.mem_coresOf p c).mpr hc, ?_⟩
    rw [h]

/-- The first step boundary at or after a cycle, of a timetable that began before it. -/
theorem stepBoundary_bounds {r t : Nat} (h : r ≤ t) : t + 64 ≤ r + 512 * ceilDiv (t + 64 - r) 512 ∧ r + 512 * ceilDiv (t + 64 - r) 512 < t + 576 := by
  unfold ceilDiv
  omega

theorem State.share_inFix (h : s.inFix p c false = true) (n : Nat) : s.share p c n = .defer := if_pos h

theorem State.share_free (h : s.inFix p c false = false) (hfree : s.fixedLeg c = false) (n : Nat) : s.share p c n = .now := by
  unfold State.share
  dsimp only
  rw [if_neg (by rw [h]; exact Bool.false_ne_true), if_pos (by rw [hfree]; exact Bool.false_ne_true)]

theorem State.share_fixed (h : s.inFix p c false = false) (hfixed : s.fixedLeg c = true) (n : Nat) : s.share p c n =
    if (s.core c).ctl.due.getD n ≤ n + 1024 * (s.part p).pbudget.toNat then .defer
    else .cutAt ((s.core c).ctl.tRel + 512 * ceilDiv (n + 64 - (s.core c).ctl.tRel) 512) := by
  unfold State.share
  dsimp only
  rw [if_neg (by rw [h]; exact Bool.false_ne_true), if_neg (not_not.mpr hfixed)]

/-- A request of pre-emption of a running context begins its pre-emption. -/
theorem State.preempts_requestPreempt (hr : Running s p) (hj : (s.part p).runSlot = some j) (hout : (s.part p).outgoing = none) (hold : Bool) :
    Preempts s (s.requestPreempt p hold) p j hold := by
  rw [State.requestPreempt_running hr hj hout]
  refine ⟨⟨s.preemptAt p j hold, by rw [State.part_schedP, State.part_updPart], rfl, rfl, rfl, rfl,
    fun c hc => ⟨fun hfix => ?_, fun hfix hfree => ⟨fun hd => ?_, fun n hn => ?_⟩,
    fun hfix hfixed hnone => ?_, fun hfix hfixed d hd => ⟨fun hle => ?_, fun hlt hrel => ?_⟩⟩⟩, _, mem_agendaPut .., rfl, rfl, rfl⟩
  · exact (State.mem_deferred hc hold).mpr (State.share_inFix hfix _)
  · rw [State.mem_deferred hc, State.share_free hfix hfree] at hd
    cases hd
  · rw [State.mem_cut hc, State.share_free hfix hfree] at hn
    cases hn
  · rw [State.mem_deferred hc, State.share_fixed hfix hfixed, hnone]
    exact if_pos (Nat.le_add_right ..)
  · rw [State.mem_deferred hc, State.share_fixed hfix hfixed, hd]
    exact if_pos hle
  · refine ⟨_, (State.mem_cut hc hold _).mpr ?_, stepBoundary_bounds hrel⟩
    rw [State.share_fixed hfix hfixed, hd]
    exact if_neg (Nat.not_le.mpr hlt)

end Request

end Sys2Proof.Machine

namespace Sys2Proof.Machine

/-! ## The Lookout (R143, R144) -/

section Lookout

variable {s t u : State} {p : PartIx} {j : Fin 8} {c : CoreIx}

/-- A core whose Lookout has fired for an engine at a step (R143). -/
def Core.lookMarked (k : Core) (t : Nat) (e : Eng) (stp : Nat) : Core := match e with
  | .cpe => { k with cpe := { k.cpe with look := t, lookStep := stp } }
  | e => k.setQueue e { k.queue e with progress := t, lookStep := stp }

theorem Core.ctl_lookMarked (k : Core) (t : Nat) (e : Eng) (stp : Nat) : (k.lookMarked t e stp).ctl = k.ctl := by cases e <;> rfl

theorem Core.g_lookMarked (k : Core) (t : Nat) (e : Eng) (stp : Nat) : (k.lookMarked t e stp).seq.g = k.seq.g := by cases e <;> rfl

/-- LKSTAT with a firing noted, unless it holds one (R143). -/
def Part.lookNoted (q : Part) (c : CoreIx) (e : Eng) (stp : Nat) : Part :=
  { q with lkstat := if q.lkstat.getLsbD 15 then q.lkstat else BitVec.ofNat 16 (c.val + 2 ^ 9 * e.num + 2 ^ 12 * stp + 2 ^ 15) }

theorem State.lookFired_eq (hc : s.partOf c = some p) (e : Eng) (stp : Nat) :
    s.lookFired c e stp = (s.upd c fun k => k.lookMarked s.chron e stp).updPart p fun q => q.lookNoted c e stp := by
  unfold State.lookFired
  dsimp only
  rw [hc]
  rfl

theorem State.part_lookFired (hc : s.partOf c = some p) (e : Eng) (stp : Nat) : (s.lookFired c e stp).part p = (s.part p).lookNoted c e stp := by
  rw [State.lookFired_eq hc, State.part_updPart]
  rfl

theorem State.part_lookFired_ne (hc : s.partOf c = some p) (e : Eng) (stp : Nat) {q : PartIx} (hq : q ≠ p) : (s.lookFired c e stp).part q = s.part q := by
  rw [State.lookFired_eq hc, State.part_updPart_ne _ hq]
  rfl

theorem State.core_lookFired (hc : s.partOf c = some p) (e : Eng) (stp : Nat) : (s.lookFired c e stp).core c = (s.core c).lookMarked s.chron e stp := by
  rw [State.lookFired_eq hc]
  exact State.core_upd s c fun k => k.lookMarked s.chron e stp

theorem State.core_lookFired_ne (hc : s.partOf c = some p) (e : Eng) (stp : Nat) {x : CoreIx} (hx : x ≠ c) : (s.lookFired c e stp).core x = s.core x := by
  rw [State.lookFired_eq hc]
  exact State.core_upd_ne _ hx fun k => k.lookMarked s.chron e stp

theorem State.partOf_lookFired (hc : s.partOf c = some p) (e : Eng) (stp : Nat) (x : CoreIx) : (s.lookFired c e stp).partOf x = s.partOf x := by
  rw [State.lookFired_eq hc]
  rfl

theorem State.chron_lookFired (hc : s.partOf c = some p) (e : Eng) (stp : Nat) : (s.lookFired c e stp).chron = s.chron := by
  rw [State.lookFired_eq hc]
  rfl

/-- A firing leaves the control registers of every core. -/
theorem State.ctl_lookFired (hc : s.partOf c = some p) (e : Eng) (stp : Nat) (x : CoreIx) : ((s.lookFired c e stp).core x).ctl = (s.core x).ctl := by
  by_cases hx : x = c
  · subst hx
    rw [State.core_lookFired hc, Core.ctl_lookMarked]
  · rw [State.core_lookFired_ne hc _ _ hx]

theorem State.running_lookFired (hc : s.partOf c = some p) (e : Eng) (stp : Nat) (hr : Running s p) : Running (s.lookFired c e stp) p := by
  unfold Running
  rw [State.part_lookFired hc]
  exact hr

theorem State.fixedLeg_lookFired (hc : s.partOf c = some p) (e : Eng) (stp : Nat) {x : CoreIx} (hx : s.partOf x = some p) :
    (s.lookFired c e stp).fixedLeg x = s.fixedLeg x := by
  rw [State.fixedLeg, State.fixedLeg, State.partOf_lookFired hc, hx]
  dsimp only
  rw [State.part_lookFired hc, State.ctl_lookFired hc]
  rfl

theorem State.inFix_lookFired (hc : s.partOf c = some p) (e : Eng) (stp : Nat) (x : CoreIx) (held : Bool) :
    (s.lookFired c e stp).inFix p x held = s.inFix p x held := by
  rw [State.inFix, State.part_lookFired hc, State.lookFired_eq hc]
  rfl

/-- A pre-emption that begins at a firing began with the registers as they stood before it. -/
theorem State.preempts_of_lookFired (hc : s.partOf c = some p) (e : Eng) (stp : Nat) {hold : Bool} (h : Preempts (s.lookFired c e stp) t p j hold) :
    Preempts s t p j hold := by
  have hchron := State.chron_lookFired hc e stp
  have hbudget : ((s.lookFired c e stp).part p).pbudget = (s.part p).pbudget := by rw [State.part_lookFired hc]; rfl
  obtain ⟨⟨x, hx, hslot, hat, hset, hstop, hcores⟩, hev⟩ := h
  rw [hchron] at hat hev
  refine ⟨⟨x, hx, hslot, hat, hset, hstop, fun y hy => ?_⟩, hev⟩
  have hcore := hcores y ((State.partOf_lookFired hc e stp y).trans hy)
  rw [State.inFix_lookFired hc, State.fixedLeg_lookFired hc e stp hy, State.ctl_lookFired hc, hchron, hbudget] at hcore
  exact hcore

/-- A request of pre-emption changes its partition and the schedule alone. -/
theorem State.requestPreempt_eq (hr : Running s p) (hj : (s.part p).runSlot = some j) (hout : (s.part p).outgoing = none) (hold : Bool) :
    s.requestPreempt p hold = { s with parts := (s.requestPreempt p hold).parts, agenda := (s.requestPreempt p hold).agenda } := by
  rw [State.requestPreempt_running hr hj hout]
  rfl

theorem State.part_holdFixes_ne (s : State) {p q : PartIx} (hq : q ≠ p) : (s.holdFixes p).part q = s.part q :=
  State.part_updPart_ne _ hq _

theorem State.lkstat_holdFixes (s : State) (p : PartIx) : ((s.holdFixes p).part p).lkstat = (s.part p).lkstat := by
  unfold State.holdFixes
  dsimp only
  rw [State.part_updPart]
  rfl

theorem State.part_requestPreempt_ne (hr : Running s p) (hj : (s.part p).runSlot = some j) (hout : (s.part p).outgoing = none) (hold : Bool)
    {q : PartIx} (hq : q ≠ p) : (s.requestPreempt p hold).part q = s.part q := by
  rw [State.requestPreempt_running hr hj hout, State.part_schedP, State.part_updPart_ne _ hq, State.part_holdFixes_ne s hq]

theorem State.lkstat_requestPreempt (hr : Running s p) (hj : (s.part p).runSlot = some j) (hout : (s.part p).outgoing = none) (hold : Bool) :
    ((s.requestPreempt p hold).part p).lkstat = (s.part p).lkstat := by
  rw [State.requestPreempt_running hr hj hout, State.part_schedP, State.part_updPart]
  exact s.lkstat_holdFixes p

theorem State.exec_lookoutT1 (hc : s.partOf c = some p) (e : Eng) : exec (.lookoutT1 c e) s = .next ((s.lookFired c e 1).requestPreempt p true) :=
  congrArg Host.Outcome.next (by rw [State.partOf_lookFired hc, hc])

theorem State.exec_lookoutT2 (hc : s.partOf c = some p) (hj : (s.part p).runSlot = some j) (e : Eng) : exec (.lookoutT2 c e) s =
    .next (((s.lookFired c e 2).updPart p fun q => { q with ckreq := false }).hardFault p (killOf s.chron)) := by
  have hrun : ((s.lookFired c e 2).part p).runSlot = some j := by rw [State.part_lookFired hc]; exact hj
  refine congrArg Host.Outcome.next ?_
  rw [State.partOf_lookFired hc, hc]
  dsimp only
  rw [State.lookKill, hrun]
  dsimp only
  rw [State.kill_running (Part.run_of_runSlot hrun), State.chron_lookFired hc]

/-- The module with a core fenced: off the ring and the fabric, not live in the survey, whose generation goes on (R144, R33). -/
def State.fenced (s : State) (c : CoreIx) : State :=
  ((s.upd c fun k => { k with killed := true }).updCol c fun k => { k with live := false }).surveyChange false

/-- The kill of a context one of whose cores is fenced, at a cycle (R144). -/
def fenceOf (t : Nat) : Halting := { code := 0x75, cycle := t, core := 0x1FF, eng := 0, pc := -1, kill := true }

theorem State.exec_lookoutT3 (hc : s.partOf c = some p) (e : Eng) : exec (.lookoutT3 c e) s =
    .next (((s.lookFired c e 3).fenced c).hardFault p (fenceOf s.chron)) := by
  have hpart : ((s.lookFired c e 3).fenced c).partOf c = some p := (State.partOf_lookFired hc e 3 c).trans hc
  have hchron : ((s.lookFired c e 3).fenced c).chron = s.chron := State.chron_lookFired hc e 3
  unfold State.fenced at hpart hchron ⊢
  refine congrArg Host.Outcome.next ?_
  rw [hpart, hchron]
  rfl

theorem State.chron_fenced (s : State) (c : CoreIx) : (s.fenced c).chron = s.chron := rfl

theorem State.gen_fenced (s : State) (c : CoreIx) : (s.fenced c).helm.gen = s.helm.gen + 2 := rfl

theorem State.memory_fenced (s : State) (c : CoreIx) : (s.fenced c).memory = s.memory := rfl

theorem State.part_fenced (s : State) (c : CoreIx) (q : PartIx) : (s.fenced c).part q = s.part q := rfl

theorem State.core_fenced (s : State) (c : CoreIx) : (s.fenced c).core c = { s.core c with killed := true } := State.core_upd s c fun k => { k with killed := true }

theorem State.core_fenced_ne (s : State) {c x : CoreIx} (hx : x ≠ c) : (s.fenced c).core x = s.core x := State.core_upd_ne s hx fun k => { k with killed := true }

theorem State.col_fenced (s : State) (c : CoreIx) : (s.fenced c).col c = { s.col c with live := false } := State.col_updCol s c fun k => { k with live := false }

theorem State.col_fenced_ne (s : State) {c x : CoreIx} (hx : x ≠ c) : (s.fenced c).col x = s.col x := State.col_updCol_ne s hx fun k => { k with live := false }

end Lookout

end Sys2Proof.Machine

namespace Sys2Proof

open Machine

theorem lookoutEvents : LookoutEvents := by
  refine ⟨fun s c e p j hc hr hj hout => ?_, fun s c e p hc hr => ?_, fun s c e p hc hr => ?_⟩
  · have hu := State.running_lookFired hc e 1 hr
    have hpart := State.part_lookFired hc e 1
    have hj' : ((s.lookFired c e 1).part p).runSlot = some j := by rw [hpart]; exact hj
    have hout' : ((s.lookFired c e 1).part p).outgoing = none := by rw [hpart]; exact hout
    have heq := State.requestPreempt_eq hu hj' hout' true
    have hcore (x : CoreIx) : ((s.lookFired c e 1).requestPreempt p true).core x = (s.lookFired c e 1).core x := by rw [heq]; rfl
    refine ⟨_, State.exec_lookoutT1 hc e, State.preempts_of_lookFired hc e 1 (State.preempts_requestPreempt hu hj' hout' true), ?_, ?_, ?_, ?_,
      fun x hx => (hcore x).trans (State.core_lookFired_ne hc e 1 hx),
      fun q hq => (State.part_requestPreempt_ne hu hj' hout' true hq).trans (State.part_lookFired_ne hc e 1 hq)⟩
    · rw [State.lkstat_requestPreempt hu hj' hout', hpart]
      rfl
    · rw [heq, State.lookFired_eq hc]
      rfl
    · rw [heq, State.lookFired_eq hc]
      rfl
    · rw [hcore, State.core_lookFired hc, Core.g_lookMarked]
  · obtain ⟨j, hj⟩ := Option.isSome_iff_exists.mp hr.2.2
    have hu : Running ((s.lookFired c e 2).updPart p fun q => { q with ckreq := false }) p := by
      rw [Running, State.part_updPart]
      exact State.running_lookFired hc e 2 hr
    have hframe := FaultFrame.hardFault ((s.lookFired c e 2).updPart p fun q => { q with ckreq := false }) p (killOf s.chron) false
    have hafter := State.part_hardFault_running hu (killOf s.chron) false
    rw [State.part_updPart, State.part_lookFired hc] at hafter
    have hhalt := State.halt_mem_hardFault hu (killOf s.chron) false
    rw [show ((s.lookFired c e 2).updPart p fun q => { q with ckreq := false }).chron = s.chron from State.chron_lookFired hc e 2] at hhalt
    refine ⟨_, State.exec_lookoutT2 hc hj e, ⟨_, by rw [hafter], rfl, rfl, rfl⟩, by rw [hafter], by rw [hafter]; rfl, hhalt, ?_, ?_, fun x hx => ?_, fun q hq => ?_⟩
    · rw [hframe.memory, State.updPart_memory, State.lookFired_memory]
    · rw [hframe.cols, State.lookFired_eq hc]
      rfl
    · exact (hframe.core x).trans (State.core_lookFired_ne hc e 2 hx)
    · rw [hframe.others q hq, State.part_updPart_ne _ hq, State.part_lookFired_ne hc e 2 hq]
  · have hpart : ((s.lookFired c e 3).fenced c).part p = (s.part p).lookNoted c e 3 := (State.part_fenced ..).trans (State.part_lookFired hc e 3)
    have hu : Running ((s.lookFired c e 3).fenced c) p := by
      rw [Running, hpart]
      exact hr
    have hframe := FaultFrame.hardFault ((s.lookFired c e 3).fenced c) p (fenceOf s.chron) false
    have hafter := State.part_hardFault_running hu (fenceOf s.chron) false
    have hhalt := State.halt_mem_hardFault hu (fenceOf s.chron) false
    rw [hpart] at hafter
    rw [show ((s.lookFired c e 3).fenced c).chron = s.chron from (State.chron_fenced ..).trans (State.chron_lookFired hc e 3)] at hhalt
    refine ⟨_, State.exec_lookoutT3 hc e, by rw [hframe.core, State.core_fenced], by rw [hframe.col, State.col_fenced], ?_, ⟨_, by rw [hafter], rfl, rfl, rfl⟩,
      by rw [hafter]; rfl, hhalt, ?_, fun x hx => ⟨?_, ?_⟩, fun q hq => ?_⟩
    · rw [hframe.helm, State.gen_fenced, State.lookFired_eq hc]
      rfl
    · rw [hframe.memory, State.memory_fenced, State.lookFired_memory]
    · rw [hframe.core, State.core_fenced_ne _ hx, State.core_lookFired_ne hc e 3 hx]
    · rw [hframe.col, State.col_fenced_ne _ hx, State.lookFired_eq hc]
      rfl
    · rw [hframe.others q hq, State.part_fenced, State.part_lookFired_ne hc e 3 hq]

end Sys2Proof

namespace Sys2Proof.Machine

/-! ## Replay (R147) -/

section Replay

variable {s : State} {p : PartIx} {r : LogRec}

theorem State.exec_replayInjection (hrep : s.replaying s.curPart = true) (hnext : s.nextInput s.curPart = some r) :
    exec .replayInjection s = .next (((s.consumeRecord s.curPart r).inject s.curPart r).schedP s.chron s.curPart .replayInjection) := by
  refine congrArg Host.Outcome.next ((if_neg (not_not.mpr hrep)).trans ?_)
  rw [hnext]

/-- A recorded write of the host or of a peer, as a request of the partition. -/
def State.replayedWrite (s : State) (p : PartIx) (r : LogRec) : Req :=
  { id := s.nextId, who := if r.kind = 2 then 5 else 6, core := 0, part := some p, kind := .write r.payload, ia := r.arg, n := r.payload.length
    dest := .none_, issued := s.chron }

theorem State.inject_write (s : State) (p : PartIx) (h : r.kind = 2 ∨ r.kind = 3) : s.inject p r =
    State.walkReq { s with nextId := s.nextId + 1, reqs := s.reqs ++ [s.replayedWrite p r] } (s.replayedWrite p r) := by
  unfold State.inject State.replayedWrite
  rcases h with h | h <;> rw [h] <;> rfl

theorem State.inject_give (s : State) (p : PartIx) {c : CoreIx} (h : r.kind = 5) (hc : fld r.arg 8 0 = c.val) (hsw : (s.part p).switching = false) :
    s.inject p r = (s.creditLink p c (Fin.ofNat 4 (fld r.arg 10 9)) (fld r.arg 18 11)).getD s := by
  unfold State.inject
  dsimp only
  rw [h]
  have hlt : fld r.arg 8 0 < 288 := hc ▸ c.isLt
  have hcore : (⟨fld r.arg 8 0, hlt⟩ : CoreIx) = c := Fin.ext hc
  show dite _ _ _ = _
  rw [dif_pos hlt, if_neg (by rw [hsw]; exact Bool.false_ne_true), hcore]

theorem State.creditLink_running (hrun : (s.part p).runSlot.isSome = true) (c : CoreIx) (j : Fin 4) {n : Nat} (hn : ((s.core c).ctl.ltc[j]).toNat + n ≤ 4095) :
    s.creditLink p c j n = some (s.setCore c { s.core c with ctl := { (s.core c).ctl with
      ltc := (s.core c).ctl.ltc.set j (BitVec.ofNat 12 (((s.core c).ctl.ltc[j]).toNat + n)) } }) := by
  unfold State.creditLink Core.giveLink
  dsimp only
  rw [if_pos hrun, if_pos hn]

theorem State.part_setCore (s : State) (c : CoreIx) (k : Core) (q : PartIx) : (s.setCore c k).part q = s.part q := rfl

/-- A partition whose logbook holds the record at a byte count consumed, with LBHEAD at another. -/
def Part.consumed (q : Part) (n h : Nat) : Part :=
  { q with lb := { q.lb with head := BitVec.ofNat 64 h, used := (n :: q.lb.used).filter fun m => decide (h ≤ m) } }

theorem State.consumeRecord_eq (s : State) (p : PartIx) (r : LogRec) : ∃ h, s.consumeRecord p r = s.updPart p fun q => q.consumed r.at_ h := by
  unfold State.consumeRecord
  extract_lets q l h
  exact ⟨h, State.updPart_congr rfl⟩

/-- A consumed record is in the list of those, or LBHEAD is past it. -/
theorem Part.consumed_past (q : Part) (n h : Nat) :
    n ∈ (q.consumed n h).lb.used ∨ ∃ m, n < m ∧ (q.consumed n h).lb.head = BitVec.ofNat 64 m := by
  by_cases hn : h ≤ n
  · exact Or.inl (List.mem_filter.mpr ⟨List.mem_cons_self, decide_eq_true hn⟩)
  · exact Or.inr ⟨h, Nat.not_le.mp hn, rfl⟩

theorem State.running_consumed (hr : Running s p) (n h : Nat) : Running (s.updPart p fun q => q.consumed n h) p := by
  rw [Running, State.part_updPart]
  exact hr

end Replay

end Sys2Proof.Machine

namespace Sys2Proof

open Machine

theorem replayInjection : ReplayInjection := by
  refine ⟨fun s hrep => congrArg Host.Outcome.next (if_pos (by rw [hrep]; exact Bool.false_ne_true)), fun s hnext => ?_, fun s r hrep hnext hkind => ?_,
    fun s r c hrep hnext hkind hc hr hle => ?_⟩
  · refine congrArg Host.Outcome.next ((ite_congr rfl (fun _ => rfl) fun _ => ?_).trans (ite_self s))
    rw [hnext]
  · exact (State.exec_replayInjection hrep hnext).trans
      (congrArg (fun u => Host.Outcome.next (State.schedP u s.chron s.curPart .replayInjection)) ((s.consumeRecord s.curPart r).inject_write s.curPart hkind))
  · obtain ⟨h, hconsume⟩ := s.consumeRecord_eq s.curPart r
    have hu := State.running_consumed hr r.at_ h
    have hexec := State.exec_replayInjection hrep hnext
    rw [hconsume, State.inject_give _ _ hkind hc hu.1, State.creditLink_running hu.2.2 c _ hle, Option.getD_some] at hexec
    refine ⟨_, hexec, State.core_setCore .., fun x hx => State.core_setCore_ne _ hx _, rfl, rfl, fun q hq => ?_, ?_, _, mem_agendaPut .., rfl, rfl, rfl⟩
    · rw [State.part_schedP, State.part_setCore, State.part_updPart_ne _ hq]
    · rw [State.part_schedP, State.part_setCore, State.part_updPart]
      exact Part.consumed_past ..

/-- Settles O54: the end of a switch puts the context in, out or back as the rules give it, each firing of the Lookout acts as its step asks, and replay injects
the next recorded input. -/
theorem switchLookoutAndReplay : Obligations.SwitchLookoutAndReplay := ⟨switchEvents, lookoutEvents, replayInjection⟩

end Sys2Proof

/-! # Control registers: a read that follows its own take, and two writes of TKSEL in one cycle (R181, R183, R192, R422) -/

namespace Sys2Proof

open Machine

/-- A free leg whose sequencer takes from link token counter 0, which holds one token (R183, R185). -/
def Machine.State.oneLinkToken : State := { cores := [(0, { ctl := { tksel := 0x18, ltc := (Vector.replicate 4 0).set 0 1 } })] }

/-- A sequencer with G = 1 to the AXU by TKSEL, in a cycle that has seen TKSEL written and that the value before, with its TO at the BKE, still
governs (R183). -/
def Machine.State.tkselJustWritten : State := { cores := [(0, { ctl := { tksel := 0x11, tkselOld := some (0, 0x21) } })] }

/-- A CRR of LTC that takes the one token reads the counter without it (R181). -/
theorem Machine.State.crr_ltc_after_take :
    ∃ t, exec (.crr ⟨0, true, false⟩ 1 0x0D) State.oneLinkToken = .next t ∧ t.me.seq.gpr 1 = 0 :=
  ⟨_, rfl, by decide +kernel⟩

/-- Refutes O8: a CRR of LTC that takes a link token reads the counter without that token, not as it stood before the word. -/
theorem not_controlRegisterReads : ¬ Obligations.ControlRegisterReads := by
  intro h
  obtain ⟨-, -, -, -, -, -, -, -, -, -, -, -, -, hltc, -⟩ := h State.oneLinkToken
  obtain ⟨t, ht, hwrote, -⟩ := hltc ⟨0, true, false⟩ 1
    ⟨by decide +kernel, by decide +kernel, fun _ => ⟨by decide +kernel, by decide +kernel⟩⟩ (by decide)
  obtain ⟨u, hu, hzero⟩ := State.crr_ltc_after_take
  obtain rfl : t = u := Host.Outcome.next.inj (ht.symm.trans hu)
  have hone : t.me.seq.gpr 1 = 1 := hwrote.1
  rw [hzero] at hone
  exact absurd hone (by decide)

/-- A CRW of TKSEL in a cycle that has seen another keeps the value it replaces as the one that governs the cycle, and gives where that says. -/
theorem Machine.State.crw_tksel_giveTo :
    ∃ t, exec (.crw ⟨0, false, true⟩ 1 0x0A) State.tkselJustWritten = .next t ∧ t.me.pipe.infl.map (·.giveTo) = [1] :=
  ⟨_, rfl, by decide +kernel⟩

/-- Refutes O9: a CRW of TKSEL in a cycle that has seen another gives where the first one's value says, and not where the value says that
governs the cycle. -/
theorem not_controlRegisterWrites : ¬ Obligations.ControlRegisterWrites := by
  rintro ⟨-, -, -, -, -, -, htksel, -⟩
  obtain ⟨_, -, hwrite⟩ := htksel State.tkselJustWritten
  obtain ⟨t, ht, -, hgives⟩ := hwrite ⟨0, false, true⟩ 1 ⟨by decide +kernel, by decide +kernel, by decide +kernel⟩ (by decide)
  obtain ⟨u, hu, hto⟩ := State.crw_tksel_giveTo
  obtain rfl : t = u := Host.Outcome.next.inj (ht.symm.trans hu)
  obtain ⟨w, hw, -, -, -, hbke, -⟩ := hgives rfl
  have haxu : w.giveTo = 1 := List.mem_singleton.mp (hto ▸ List.mem_map_of_mem hw)
  rw [hbke] at haxu
  exact absurd haxu (by decide +kernel)

end Sys2Proof

/-! # The access unit and the replay queue (R110, R154, R325 to R327, R381) -/

namespace Sys2Proof.Machine

/-! ## What the units of a core do alone -/

/-- Only the access unit and the pipe of a core change, with requests added, events put on the agenda and free values drawn. -/
structure AxuStep (c : CoreIx) (s t : State) : Prop where
  eq : t = { s with cores := t.cores, reqs := t.reqs, agenda := t.agenda, nextId := t.nextId, freeIx := t.freeIx }
  others : ∀ x, x ≠ c → t.core x = s.core x
  core : t.core c = { s.core c with axu := (t.core c).axu, pipe := (t.core c).pipe }
  reqs : ∀ q ∈ s.reqs, q ∈ t.reqs

namespace AxuStep

variable {c : CoreIx} {s t u : State}

theorem refl (c : CoreIx) (s : State) : AxuStep c s s := ⟨rfl, fun _ _ => rfl, rfl, fun _ h => h⟩

theorem trans (a : AxuStep c s t) (b : AxuStep c t u) : AxuStep c s u :=
  ⟨by have e := b.eq; rw [a.eq] at e; exact e, fun x hx => (b.others x hx).trans (a.others x hx),
    by have e := b.core; rw [a.core] at e; exact e, fun q hq => b.reqs q (a.reqs q hq)⟩

theorem schedC (s : State) (n : Nat) (d : CoreIx) (i : Instr) : AxuStep c s (s.schedC n d i) := ⟨rfl, fun _ _ => rfl, rfl, fun _ h => h⟩

theorem addReq (s : State) (r : Req) : AxuStep c s (s.addReq r).2 := ⟨rfl, fun _ _ => rfl, rfl, fun _ h => List.mem_append_left _ h⟩

theorem upd (s : State) (c : CoreIx) {f : Core → Core} (hf : ∀ k, f k = { k with axu := (f k).axu, pipe := (f k).pipe }) : AxuStep c s (s.upd c f) :=
  ⟨rfl, fun _ hx => s.core_upd_ne hx f, by rw [State.core_upd]; exact hf _, fun _ h => h⟩

theorem of_addsEvents (c : CoreIx) (h : AddsEvents s t) : AxuStep c s t := by
  rw [h.eq]
  exact ⟨rfl, fun _ _ => rfl, rfl, fun _ h => h⟩

theorem claim (s : State) (c : CoreIx) (cs : List Claim) : AxuStep c s (s.claim c cs) := upd s c fun _ => rfl

theorem drawAccess (s : State) (d : CoreIx) (ia : Nat) : AxuStep c s (s.drawAccess d ia).2 := ⟨rfl, fun _ _ => rfl, rfl, fun _ h => h⟩

theorem foldl {α : Type} {f : State → α → State} (hf : ∀ s a, AxuStep c s (f s a)) (l : List α) (s : State) : AxuStep c s (l.foldl f s) := by
  induction l generalizing s with
  | nil => exact refl c s
  | cons a l ih => exact (hf s a).trans (ih _)

/-- A request each step of a fold makes is there after the fold. -/
theorem foldl_asks {α : Type} {f : State → α → State} {Q : α → Req → Prop} (hf : ∀ s a, AxuStep c s (f s a)) (hq : ∀ s a, ∃ q ∈ (f s a).reqs, Q a q)
    (l : List α) (s : State) : ∀ a ∈ l, ∃ q ∈ (l.foldl f s).reqs, Q a q := by
  intro a ha
  obtain ⟨l, r, rfl⟩ := List.append_of_mem ha
  obtain ⟨q, hmem, hQ⟩ := hq (l.foldl f s) a
  rw [List.foldl_append, List.foldl_cons]
  exact ⟨q, (foldl hf r _).reqs q hmem, hQ⟩

theorem chron (h : AxuStep c s t) : t.chron = s.chron := by rw [h.eq]
theorem cur (h : AxuStep c s t) : t.cur = s.cur := by rw [h.eq]
theorem memory (h : AxuStep c s t) : t.memory = s.memory := by rw [h.eq]
theorem parts (h : AxuStep c s t) : t.parts = s.parts := by rw [h.eq]

theorem me (h : AxuStep s.cur s t) : t.me = t.core s.cur := congrArg t.core h.cur

theorem seq (h : AxuStep c s t) : (t.core c).seq = (s.core c).seq := by rw [h.core]
theorem vec (h : AxuStep c s t) : (t.core c).vec = (s.core c).vec := by rw [h.core]

theorem fixedLeg (h : AxuStep c s t) : t.fixedLeg c = s.fixedLeg c := by
  have hctl : (t.core c).ctl = (s.core c).ctl := by rw [h.core]
  have hpartOf : t.partOf c = s.partOf c := by rw [h.eq]; rfl
  have hpart (p : PartIx) : t.part p = s.part p := by rw [h.eq]; rfl
  unfold State.fixedLeg
  rw [hpartOf, hctl]
  simp only [hpart]

end AxuStep

/-- A fold that keeps the access unit of a core at each step keeps it. -/
theorem foldl_axu {α : Type} {c : CoreIx} {f : State → α → State} (hf : ∀ s a, ((f s a).core c).axu = (s.core c).axu) (l : List α) (s : State) :
    ((l.foldl f s).core c).axu = (s.core c).axu := by
  induction l generalizing s with
  | nil => rfl
  | cons a l ih => exact (ih _).trans (hf s a)

/-! ## The generator (R325) -/

/-- The words whose accesses are not all performed, of one that leaves the generator: a RING is none (R339). -/
def GenJob.kept (j : GenJob) : List GenJob :=
  match j.instr with
  | .ring .. => []
  | _ => [j]

/-- A word of the generator whose accesses are all made: it completes at once if they are performed; a RING has its own completion
(R328, R339). -/
def State.generated (s : State) (c : CoreIx) (j : GenJob) : State :=
  match j.instr with
  | .ring .. => s
  | _ => s.axuClose c j.id

/-- The generator after the last access of its head, with the words behind it (R325). -/
def State.leaveGen (s : State) (c : CoreIx) (j : GenJob) (r : List GenJob) : State :=
  let s := s.upd c fun k => { k with axu := { k.axu with gen := r, past := k.axu.past ++ j.kept, genFree := max k.axu.genFree (s.chron + 1) } }
  let s := s.generated c j
  if r.isEmpty then s else s.schedC (max (s.chron + 1) (s.core c).axu.genFree) c .accessGeneration

/-- The generator after an access: its next access is put on the agenda, or its word leaves it (R325, R328). -/
def State.afterAccess (s : State) (c : CoreIx) : State :=
  match (s.core c).axu.gen with
  | [] => s
  | j :: r => if j.next < j.count then s.schedC (j.due s.chron) c .accessGeneration else s.leaveGen c j r

/-- What the generator makes of the answer of its word (R325). -/
def State.genAnswer (s : State) (c : CoreIx) (j : GenJob) : GenRes → State
  | .stopped u => u
  | .stall => if s.fixedLeg c then s.axuFault c j 0x41 else s.schedC (s.chron + 1) c .accessGeneration
  | .done u => u.afterAccess c

theorem State.exec_accessGeneration {s : State} {j : GenJob} {r : List GenJob} (hgen : s.me.axu.gen = j :: r) (hpre : s.preStopped s.cur = false) :
    exec .accessGeneration s = .next (if s.chron < s.me.axu.genFree then s.schedC s.me.axu.genFree s.cur .accessGeneration
      else s.genAnswer s.cur j (if s.marksClear s.cur j.marks then s.genOne s.cur j else .stall)) := by
  show execAccessGeneration s = _
  unfold execAccessGeneration
  dsimp only
  rw [hgen]
  dsimp only
  rw [hpre, if_neg Bool.false_ne_true]
  rfl

theorem AxuStep.axuClose (s : State) (c : CoreIx) (id : Nat) : AxuStep c s (s.axuClose c id) := by
  unfold State.axuClose
  split
  · exact refl c s
  · split
    · exact refl c s
    · exact (upd s c fun _ => rfl).trans (schedC ..)

/-- The end of a word's accesses changes nothing but the words whose accesses are not all performed. -/
theorem State.axuClose_axu (s : State) (c : CoreIx) (id : Nat) :
    ∃ past, ((s.axuClose c id).core c).axu = { (s.core c).axu with past := past } := by
  unfold State.axuClose
  split
  · exact ⟨_, rfl⟩
  · split
    · exact ⟨_, rfl⟩
    · dsimp only
      rw [State.schedC_core, State.core_upd]
      exact ⟨_, rfl⟩

theorem AxuStep.generated (s : State) (c : CoreIx) (j : GenJob) : AxuStep c s (s.generated c j) := by
  unfold State.generated
  split
  · exact refl c s
  · exact axuClose s c j.id

theorem State.generated_axu (s : State) (c : CoreIx) (j : GenJob) :
    ∃ past, ((s.generated c j).core c).axu = { (s.core c).axu with past := past } := by
  unfold State.generated
  split
  · exact ⟨_, rfl⟩
  · exact s.axuClose_axu c j.id

theorem State.axuClose_reqs (s : State) (c : CoreIx) (id : Nat) : (s.axuClose c id).reqs = s.reqs := by
  unfold State.axuClose
  split
  · rfl
  · split <;> rfl

theorem State.generated_reqs (s : State) (c : CoreIx) (j : GenJob) : (s.generated c j).reqs = s.reqs := by
  unfold State.generated
  split
  · rfl
  · exact s.axuClose_reqs c j.id

theorem AxuStep.leaveGen (s : State) (c : CoreIx) (j : GenJob) (r : List GenJob) : AxuStep c s (s.leaveGen c j r) := by
  have h := (upd s c (f := fun k => { k with axu := { k.axu with gen := r, past := k.axu.past ++ j.kept, genFree := max k.axu.genFree (s.chron + 1) } })
    fun _ => rfl).trans (generated _ c j)
  unfold State.leaveGen
  dsimp only
  split
  · exact h
  · exact h.trans (schedC ..)

theorem State.leaveGen_axu (s : State) (c : CoreIx) (j : GenJob) (r : List GenJob) :
    ∃ past free, ((s.leaveGen c j r).core c).axu = { (s.core c).axu with gen := r, past := past, genFree := free } := by
  obtain ⟨past, h⟩ := State.generated_axu (s.upd c fun k => { k with axu := { k.axu with
    gen := r, past := k.axu.past ++ j.kept, genFree := max k.axu.genFree (s.chron + 1) } }) c j
  rw [State.core_upd] at h
  refine ⟨past, max (s.core c).axu.genFree (s.chron + 1), Eq.trans ?_ h⟩
  unfold State.leaveGen
  dsimp only
  split <;> rfl

theorem State.leaveGen_reqs (s : State) (c : CoreIx) (j : GenJob) (r : List GenJob) : (s.leaveGen c j r).reqs = s.reqs := by
  unfold State.leaveGen
  dsimp only
  split
  · exact State.generated_reqs ..
  · exact State.generated_reqs ..

theorem AxuStep.afterAccess (s : State) (c : CoreIx) : AxuStep c s (s.afterAccess c) := by
  unfold State.afterAccess
  split
  · exact refl c s
  · split
    · exact schedC ..
    · exact leaveGen ..

/-- After an access the generator goes on with its head or leaves it, when all its accesses are made. -/
theorem State.afterAccess_axu {s : State} {c : CoreIx} {j : GenJob} {r : List GenJob} (hgen : (s.core c).axu.gen = j :: r) :
    ∃ g past free, ((s.afterAccess c).core c).axu = { (s.core c).axu with gen := g, past := past, genFree := free }
      ∧ (g = j :: r ∨ g = r ∧ j.count ≤ j.next) := by
  unfold State.afterAccess
  rw [hgen]
  dsimp only
  split
  · exact ⟨j :: r, (s.core c).axu.past, (s.core c).axu.genFree, by rw [State.schedC_core, ← hgen], .inl rfl⟩
  next h =>
    obtain ⟨past, free, hax⟩ := s.leaveGen_axu c j r
    exact ⟨r, past, free, hax, .inr ⟨rfl, Nat.not_lt.mp h⟩⟩

theorem State.afterAccess_reqs (s : State) (c : CoreIx) : (s.afterAccess c).reqs = s.reqs := by
  unfold State.afterAccess
  split
  · rfl
  · split
    · rfl
    · exact s.leaveGen_reqs ..

/-- The head of the generator with one more access made. -/
def State.bumped (s : State) (c : CoreIx) : State :=
  s.upd c fun k => { k with axu := match k.axu.gen with
    | j :: _ => k.axu.setHead { j with next := j.next + 1 }
    | [] => k.axu }

/-- The answer of a word whose access was made, with its access counted. -/
def GenRes.bumped (c : CoreIx) : GenRes → GenRes
  | .done s => .done (s.bumped c)
  | x => x

theorem AxuStep.bumped (s : State) (c : CoreIx) : AxuStep c s (s.bumped c) := upd s c fun _ => rfl

theorem State.bumped_axu {s : State} {c : CoreIx} {j : GenJob} {r : List GenJob} (hgen : (s.core c).axu.gen = j :: r) :
    ((s.bumped c).core c).axu = { (s.core c).axu with gen := { j with next := j.next + 1 } :: r } := by
  unfold State.bumped
  rw [State.core_upd]
  dsimp only
  rw [hgen]
  simp only [Axu.setHead, hgen, List.drop_one, List.tail_cons]

/-- The state after an access that was made and counted. -/
theorem State.counted {c : CoreIx} {s u : State} {j : GenJob} {r : List GenJob} (hstep : AxuStep c s u) (hgen : (u.core c).axu.gen = j :: r) :
    AxuStep c s ((u.bumped c).afterAccess c) ∧ ((u.bumped c).afterAccess c).reqs = u.reqs
      ∧ ∃ g past free, (((u.bumped c).afterAccess c).core c).axu = { (u.core c).axu with gen := g, past := past, genFree := free }
        ∧ (g = { j with next := j.next + 1 } :: r ∨ g = r ∧ j.count ≤ j.next + 1) := by
  have hbump := State.bumped_axu hgen
  obtain ⟨g, past, free, hax, hg⟩ := State.afterAccess_axu (s := u.bumped c) (by rw [hbump])
  rw [hbump] at hax
  exact ⟨(hstep.trans (.bumped u c)).trans (.afterAccess _ c), State.afterAccess_reqs _ c, g, past, free, hax, hg⟩

/-- An access the generator makes. -/
theorem State.exec_accessGeneration_done {s u : State} {j : GenJob} {r : List GenJob} (hgen : s.me.axu.gen = j :: r)
    (hpre : s.preStopped s.cur = false) (hdue : s.me.axu.genFree ≤ s.chron) (hmarks : s.marksClear s.cur j.marks = true)
    (hdone : s.genOne s.cur j = .done u) : exec .accessGeneration s = .next (u.afterAccess s.cur) := by
  rw [State.exec_accessGeneration hgen hpre, if_neg (Nat.not_lt.mpr hdue), if_pos hmarks, hdone]
  rfl

/-- While the accesses before a MARK are not performed the generator stalls (R338). -/
theorem State.exec_accessGeneration_stall {s : State} {j : GenJob} {r : List GenJob} (hgen : s.me.axu.gen = j :: r)
    (hpre : s.preStopped s.cur = false) (hdue : s.me.axu.genFree ≤ s.chron) (hmarks : s.marksClear s.cur j.marks = false) :
    exec .accessGeneration s = .next (s.genAnswer s.cur j .stall) := by
  rw [State.exec_accessGeneration hgen hpre, if_neg (Nat.not_lt.mpr hdue), if_neg (by rw [hmarks]; exact Bool.false_ne_true)]

/-- An access of an LDS is a load of the line it comes to (R334). -/
theorem State.genOne_lds {s : State} {c : CoreIx} {j : GenJob} {h : Hdr} {a : Fin 16} {nl : BitVec 3} {ss : BitVec 2} {ct : BitVec 8}
    {va ia n : Nat} {f : Byte} (hi : j.instr = .lds h a nl ss ct) (hline : (s.core c).vaLine (j.base + j.next * j.stride) false = .at_ va ia n f) :
    s.genOne c j = (s.genLoad c j va ia n f).bumped c := by
  have hl : s.lineOf c j = .at_ va ia n f := by
    unfold State.lineOf
    rw [hi]
    exact hline
  have hcsr : j.csr = false := by unfold GenJob.csr; rw [hi]
  unfold State.genOne
  rw [hcsr, hl, hi]
  rfl

/-- An access of an STS is a store to the line it comes to (R334). -/
theorem State.genOne_sts {s : State} {c : CoreIx} {j : GenJob} {h : Hdr} {a : Fin 16} {nl : BitVec 3} {ss : BitVec 2} {ct : BitVec 8}
    {va ia n : Nat} {f : Byte} (hi : j.instr = .sts h a nl ss ct) (hline : (s.core c).vaLine (j.base + j.next * j.stride) true = .at_ va ia n f) :
    s.genOne c j = (s.genStore c j va ia n).bumped c := by
  have hl : s.lineOf c j = .at_ va ia n f := by
    unfold State.lineOf
    rw [hi]
    exact hline
  have hcsr : j.csr = false := by unfold GenJob.csr; rw [hi]
  unfold State.genOne
  rw [hcsr, hl, hi]
  rfl

/-! ## Loads (R325 to R327) -/

/-- Claims free of those in force collide with none of them. -/
theorem Pipe.hitAt_of_free {k : Pipe} {cs : List Claim} (h : k.free cs = true) : k.hitAt cs = none := by
  unfold Pipe.hitAt
  refine List.foldlRecOn (motive := fun a => a = none) cs _ rfl fun a ha x hx => ?_
  refine List.foldlRecOn (motive := fun a => a = none) k.claims _ ha fun a ha y hy => ?_
  have hxy := List.all_eq_true.mp (List.all_eq_true.mp h x hx) y hy
  rw [if_neg (by simpa using hxy)]
  exact ha

/-- What an access of a word drives is free, so that none of it deviates (R137, R176). -/
theorem State.jobClash_of_free {s : State} {c : CoreIx} (j : GenJob) {cs : List Claim} (h : (s.core c).pipe.free cs = true) :
    s.jobClash c j cs = s := by
  unfold State.jobClash State.clash
  rw [Pipe.hitAt_of_free h]
  exact ite_self s

/-- The entry a load of a word puts into the LDQ (R325, R327). -/
def State.loadEntry (s : State) (c : CoreIx) (j : GenJob) (ia n : Nat) (f : Byte) : LdqEntry :=
  { slot := (s.core c).axu.ldqT, word := j.id, ix := j.next, out := j.out, stqAt := (s.core c).axu.stqAT, bytes := List.replicate 128 f,
    pending := (pieces ia n).length, filled := if (pieces ia n).isEmpty then some s.chron else none }

/-- The access unit with an entry at the tail of the LDQ (R326). -/
def Axu.pushEntry (k : Axu) (e : LdqEntry) : Axu := { k with ldq := k.ldq ++ [e], ldqT := e.slot + 1 }

/-- One step of `State.addPieces`: the request of a piece (R327). -/
def State.addPiece (c : CoreIx) (j : GenJob) (va lane : Nat) (dest : Nat → Dest) (s : State) (p : Nat × Nat × Nat) : State :=
  s.addPieces c j va [p] lane dest

/-- The request of a piece is among those of the state after it, and nothing but the pipe of the core and the schedule changes with it. -/
theorem State.addPiece_asks (c : CoreIx) (j : GenJob) (va lane : Nat) (dest : Nat → Dest) (s : State) (p : Nat × Nat × Nat) :
    AxuStep c s (s.addPiece c j va lane dest p) ∧ ((s.addPiece c j va lane dest p).core c).axu = (s.core c).axu
      ∧ ∃ q ∈ (s.addPiece c j va lane dest p).reqs, q.core = c ∧ q.who = 1 ∧ q.kind = .read ∧ q.ia = p.2.1 ∧ q.n = p.2.2 ∧ q.dest = dest p.1 := by
  unfold State.addPiece State.addPieces
  rw [List.foldl_cons, List.foldl_nil]
  dsimp only
  split
  · refine ⟨(((AxuStep.addReq _ _).trans (.claim _ c _)).trans (.schedC ..)), ?_, ?_⟩
    · rw [State.schedC_core, State.claim, State.core_upd]; rfl
    · exact ⟨_, List.mem_append_right _ (List.mem_singleton_self _), rfl, rfl, rfl, rfl, rfl, rfl⟩
  · split
    · exact ⟨(AxuStep.addReq _ _).trans (.schedC ..), rfl, _, List.mem_append_right _ (List.mem_singleton_self _), rfl, rfl, rfl, rfl, rfl, rfl⟩
    · exact ⟨((AxuStep.addReq _ _).trans (.drawAccess ..)).trans (.schedC ..), rfl,
        _, List.mem_append_right _ (List.mem_singleton_self _), rfl, rfl, rfl, rfl, rfl, rfl⟩

theorem AxuStep.addPieces (s : State) (c : CoreIx) (j : GenJob) (va : Nat) (ps : List (Nat × Nat × Nat)) (lane : Nat) (dest : Nat → Dest) :
    AxuStep c s (s.addPieces c j va ps lane dest) :=
  foldl (f := State.addPiece c j va lane dest) (fun s p => (s.addPiece_asks c j va lane dest p).1) ps s

theorem State.addPieces_axu (s : State) (c : CoreIx) (j : GenJob) (va : Nat) (ps : List (Nat × Nat × Nat)) (lane : Nat) (dest : Nat → Dest) :
    ((s.addPieces c j va ps lane dest).core c).axu = (s.core c).axu :=
  foldl_axu (f := State.addPiece c j va lane dest) (fun s p => (s.addPiece_asks c j va lane dest p).2.1) ps s

/-- The state with a load put into the LDQ and its pieces asked for (R325, R327). -/
def State.loaded (s : State) (c : CoreIx) (j : GenJob) (va ia n : Nat) (f : Byte) : State :=
  (s.upd c fun k => { k with axu := k.axu.pushEntry (s.loadEntry c j ia n f) }).addPieces c j va (pieces ia n) 6 fun off => .ldq (s.core c).axu.ldqT off

theorem AxuStep.loaded (s : State) (c : CoreIx) (j : GenJob) (va ia n : Nat) (f : Byte) : AxuStep c s (s.loaded c j va ia n f) :=
  (upd s c fun _ => rfl).trans (addPieces ..)

theorem State.loaded_axu (s : State) (c : CoreIx) (j : GenJob) (va ia n : Nat) (f : Byte) :
    ((s.loaded c j va ia n f).core c).axu = (s.core c).axu.pushEntry (s.loadEntry c j ia n f) :=
  (State.addPieces_axu ..).trans (congrArg Core.axu (s.core_upd c _))

/-- Each piece of a load is asked for. -/
theorem State.loaded_asks (s : State) (c : CoreIx) (j : GenJob) (va ia n : Nat) (f : Byte) : ∀ p ∈ pieces ia n, ∃ q ∈ (s.loaded c j va ia n f).reqs,
    q.core = c ∧ q.who = 1 ∧ q.kind = .read ∧ q.ia = p.2.1 ∧ q.n = p.2.2 ∧ q.dest = .ldq (s.core c).axu.ldqT p.1 :=
  AxuStep.foldl_asks (f := State.addPiece c j va 6 fun off => .ldq (s.core c).axu.ldqT off) (fun s p => (s.addPiece_asks c j va 6 _ p).1)
    (fun s p => (s.addPiece_asks c j va 6 _ p).2.2) _ _

/-- The places where a load may go, in a fixed leg and in a free one, leave no claim of it in collision (R176, R327). -/
theorem State.genLoad_done {s : State} {c : CoreIx} {j : GenJob} {va ia n : Nat} {f : Byte} (hskip : (s.core c).axu.skipL = 0)
    (hroom : (s.core c).axu.ldq.length < 64) (hfault : s.piecesFault c (pieces ia n) = none) (hok : s.piecesOk c (pieces ia n) 6 = true)
    (hfree : (s.core c).pipe.free (s.pieceClaims c (pieces ia n) 6) = true) :
    s.genLoad c j va ia n f = .done (s.loaded c j va ia n f) := by
  have hclash : (s.upd c fun k => { k with axu := k.axu.pushEntry (s.loadEntry c j ia n f) }).jobClash c j (s.pieceClaims c (pieces ia n) 6) =
      s.upd c fun k => { k with axu := k.axu.pushEntry (s.loadEntry c j ia n f) } :=
    State.jobClash_of_free j (by rw [State.core_upd]; exact hfree)
  unfold State.genLoad
  dsimp only
  rw [if_neg (by omega), if_neg (by omega), hfault]
  dsimp only
  rw [if_neg (by rw [hok]; exact fun h => h rfl)]
  exact congrArg (fun u => GenRes.done (State.addPieces u c j va (pieces ia n) 6 fun off => .ldq (s.core c).axu.ldqT off)) hclash

/-! ## Stores (R326, R327) -/

/-- In a free leg nothing of an access deviates (R137). -/
theorem State.jobClash_of_freeLeg {s : State} {c : CoreIx} (hfree : s.fixedLeg c = false) (j : GenJob) (cs : List Claim) : s.jobClash c j cs = s :=
  if_neg (by rw [hfree]; exact Bool.false_ne_true)

/-- A list of addresses of the STQ holds a slot, with the word, the cycle and the pieces of an address of it. -/
def HoldsSlot (x : StqAddr) (l : List StqAddr) : Prop :=
  (∃ y ∈ l, y.slot = x.slot) ∧ ∀ y ∈ l, y.slot = x.slot → y.word = x.word ∧ y.gen = x.gen ∧ y.pieces = x.pieces

/-- A slot put past every other is held. -/
theorem HoldsSlot.append {x : StqAddr} {l : List StqAddr} (h : ∀ y ∈ l, y.slot < x.slot) : HoldsSlot x (l ++ [x]) := by
  refine ⟨⟨x, List.mem_append_right _ (List.mem_singleton_self _), rfl⟩, fun y hy hs => ?_⟩
  rcases List.mem_append.mp hy with hy | hy
  · have := h y hy
    omega
  · rw [List.mem_singleton.mp hy]
    exact ⟨rfl, rfl, rfl⟩

/-- An address replaced by itself as sent leaves every slot held. -/
theorem HoldsSlot.setStq {x a : StqAddr} {k : Axu} (h : HoldsSlot x k.stqA) (ha : a ∈ k.stqA) (p : Nat) :
    HoldsSlot x (k.setStq { a with sent := true, perf := p }).stqA := by
  obtain ⟨⟨y, hy, hs⟩, hall⟩ := h
  refine ⟨⟨_, List.mem_map_of_mem hy, ?_⟩, fun z hz hzs => ?_⟩
  · split
    next he => exact he.symm.trans hs
    next => exact hs
  · obtain ⟨y, hy, rfl⟩ := List.mem_map.mp hz
    split at hzs
    next he => rw [if_pos he]; exact hall a ha hzs
    next he => rw [if_neg he]; exact hall y hy hzs

/-- What the STQ starts: its addresses are marked as sent, and what they drive is claimed. -/
structure Pumps (c : CoreIx) (s t : State) : Prop where
  step : AxuStep c s t
  reqs : t.reqs = s.reqs
  axu : (t.core c).axu = { (s.core c).axu with stqA := (t.core c).axu.stqA, stqC := (t.core c).axu.stqC }
  held : ∀ x, HoldsSlot x (s.core c).axu.stqA → HoldsSlot x (t.core c).axu.stqA

namespace Pumps

variable {c : CoreIx} {s t u : State}

theorem refl (c : CoreIx) (s : State) : Pumps c s s := ⟨.refl c s, rfl, rfl, fun _ h => h⟩

theorem trans (a : Pumps c s t) (b : Pumps c t u) : Pumps c s u :=
  ⟨a.step.trans b.step, b.reqs.trans a.reqs, by have e := b.axu; rw [a.axu] at e; exact e, fun x h => b.held x (a.held x h)⟩

theorem claim (s : State) (c : CoreIx) (cs : List Claim) : Pumps c s (s.claim c cs) := by
  refine ⟨.claim s c cs, rfl, ?_, fun x hx => ?_⟩
  · rw [State.claim, State.core_upd]
  · rw [State.claim, State.core_upd]
    exact hx

/-- An address of the STQ starts. -/
theorem sends {a : StqAddr} (ha : a ∈ (s.core c).axu.stqA) (p n : Nat) (i : Instr) :
    Pumps c s ((s.upd c fun k => { k with axu := { k.axu.setStq { a with sent := true, perf := p } with stqC := n } }).schedC p c i) := by
  refine ⟨(AxuStep.upd _ c fun _ => rfl).trans (.schedC ..), rfl, ?_, fun x hx => ?_⟩
  · rw [State.schedC_core, State.core_upd]; rfl
  · rw [State.schedC_core, State.core_upd]
    exact hx.setStq ha p

end Pumps

theorem State.stqPump_pumps {c : CoreIx} (n : Nat) {s : State} (hfree : s.fixedLeg c = false) : Pumps c s (s.stqPump c n) := by
  induction n generalizing s with
  | zero => exact .refl c s
  | succ n ih =>
    unfold State.stqPump
    dsimp only
    split
    · exact .refl c s
    next a d hfind =>
      have ha : a ∈ (s.core c).axu.stqA := (List.of_mem_zip (List.mem_of_find?_eq_some hfind)).1
      have hclaim (cs : List Claim) : a ∈ ((s.claim c cs).core c).axu.stqA := by rw [State.claim, State.core_upd]; exact ha
      have hgo {u : State} (hu : Pumps c s u) : Pumps c s (u.stqPump c n) := hu.trans (ih (hu.step.fixedLeg.trans hfree))
      split
      · refine hgo ?_
        split
        · rw [State.jobClash_of_freeLeg hfree]
          exact (Pumps.claim ..).trans (.sends (hclaim _) ..)
        · exact (Pumps.claim ..).trans (.sends (hclaim _) ..)
      · exact hgo (.sends ha ..)

/-- The address a store of a word puts into the STQ (R325, R326). -/
def State.storeAddr (s : State) (c : CoreIx) (j : GenJob) (va ia n : Nat) : StqAddr :=
  { slot := (s.core c).axu.stqAT, pieces := pieces ia n, va := va, gen := s.chron, word := j.id, handle := j.handle, marks := j.marks, ix := j.next,
    ldqAt := (s.core c).axu.ldqT }

/-- The access unit with an address at the tail of the STQ (R326). -/
def Axu.pushAddr (k : Axu) (x : StqAddr) : Axu := { k with stqA := k.stqA ++ [x], stqAT := x.slot + 1 }

/-- The state with a store put into the STQ, which starts what it can (R325, R326). -/
def State.stored (s : State) (c : CoreIx) (j : GenJob) (va ia n : Nat) : State :=
  (s.upd c fun k => { k with axu := k.axu.pushAddr (s.storeAddr c j va ia n) }).stqPump c 64

/-- A store past every slot of the STQ of a free leg is held there, sent or not; no request is made. -/
theorem State.stored_spec {s : State} {c : CoreIx} (hfree : s.fixedLeg c = false) (hlast : ∀ y ∈ (s.core c).axu.stqA, y.slot < (s.core c).axu.stqAT)
    (j : GenJob) (va ia n : Nat) : AxuStep c s (s.stored c j va ia n) ∧ (s.stored c j va ia n).reqs = s.reqs
      ∧ (∃ l m, ((s.stored c j va ia n).core c).axu = { (s.core c).axu with stqA := l, stqAT := (s.core c).axu.stqAT + 1, stqC := m }
        ∧ HoldsSlot (s.storeAddr c j va ia n) l) := by
  have hput := AxuStep.upd s c (f := fun k => { k with axu := k.axu.pushAddr (s.storeAddr c j va ia n) }) fun _ => rfl
  have hpump := State.stqPump_pumps 64 (hput.fixedLeg.trans hfree)
  have hax := hpump.axu
  have hheld := hpump.held (s.storeAddr c j va ia n)
  rw [State.core_upd] at hax hheld
  exact ⟨hput.trans hpump.step, hpump.reqs, _, _, hax, hheld (.append hlast)⟩

/-- A store of a free leg that finds room and no fault puts its address into the STQ, which starts what it can (R325, R326). -/
theorem State.genStore_done {s : State} {c : CoreIx} {j : GenJob} {va ia n : Nat} (hfree : s.fixedLeg c = false) (hskip : (s.core c).axu.skipS = 0)
    (hroom : (s.core c).axu.stqA.length < 64) (hfault : s.piecesFault c (pieces ia n) = none) :
    s.genStore c j va ia n = .done (s.stored c j va ia n) := by
  unfold State.genStore
  dsimp only
  rw [if_neg (by omega), if_neg (by omega), hfault]
  dsimp only
  rw [if_neg (by rw [hfree]; exact fun h => Bool.false_ne_true h.1)]
  rfl

/-! ## Slots of the STQ performed (R252, R326) -/

/-- The slot of the STQ that is performed next: the first one sent whose cycle has come (R326). -/
def State.dueSlot (s : State) : Option StqAddr := s.me.axu.stqA.find? fun x => x.sent && !x.done && !x.reqd && decide (x.perf ≤ s.chron)

/-- Memory with the bytes of a slot of the own scratchpad written (R326). -/
def State.slotWritten (s : State) (c : CoreIx) (x : StqAddr) : State :=
  let bs := (s.core c).axu.stqData x.slot
  { s with memory := x.pieces.foldl (fun m (p : Nat × Nat × Nat) => writeBytes m (spadKey c.val (p.2.1 % 2 ^ 23)) ((bs.drop p.1).take p.2.2)) s.memory }

/-- The request of a piece of a slot that does not lie in the own scratchpad whole (R326). -/
def State.sendPiece (c : CoreIx) (x : StqAddr) (bs : List Byte) (fixed : Bool) (s : State) (p : Nat × Nat × Nat) : State :=
  let r : Req :=
    { id := 0, who := 1, core := c, part := s.partOf c, kind := .write ((bs.drop p.1).take p.2.2), ia := p.2.1,
      va := if x.va = 0 then 0 else x.va + p.1, n := p.2.2, dest := .stq x.slot, fixed := fixed, handle := x.handle,
      word := x.word, issued := s.chron, mark := x.marks }
  if isOwnSpad c p.2.1 then
    let (id, s) := s.addReq { r with own := true, due := s.chron }
    s.schedC s.chron c (.accessResponse id)
  else
    let (id, s) := s.addReq r
    let (lat, s) := if fixed then (0, s) else s.drawAccess c p.2.1
    s.schedC (s.chron + lat) c (.pageWalk id)

/-- A slot of the STQ sent to memory in its pieces (R326). -/
def State.slotSent (s : State) (c : CoreIx) (x : StqAddr) : State :=
  x.pieces.foldl (State.sendPiece c x ((s.core c).axu.stqData x.slot) (s.fixedLeg c))
    (s.upd c fun k => { k with axu := k.axu.setStq { x with reqd := true } })

/-- A slot waits for an earlier one that is not performed (R252). -/
def State.slotBehind (s : State) (x : StqAddr) : Bool := s.me.axu.stqA.any fun y => decide (y.slot < x.slot) && !y.done

theorem State.slotBehind_iff {s : State} {x : StqAddr} : s.slotBehind x = true ↔ ∃ y ∈ s.me.axu.stqA, y.slot < x.slot ∧ y.done = false := by
  simp only [State.slotBehind, List.any_eq_true, Bool.and_eq_true, decide_eq_true_eq, Bool.not_eq_true']

theorem State.exec_stqSlotPerform {s : State} {x : StqAddr} (hdue : s.dueSlot = some x) : exec .stqSlotPerform s =
    .next (if ¬ s.fixedLeg s.cur = true ∧ s.slotBehind x = true then s.schedC (s.chron + 1) s.cur .stqSlotPerform
      else if ownPieces s.cur x.pieces = true then (s.slotWritten s.cur x).stqDone s.cur x else s.slotSent s.cur x) := by
  show execStqSlotPerform s = _
  unfold execStqSlotPerform
  dsimp only
  rw [show s.me.axu.stqA.find? (fun x => x.sent && !x.done && !x.reqd && decide (x.perf ≤ s.chron)) = some x from hdue]
  rfl

/-- A slot goes when it waits for no other. -/
theorem State.exec_stqSlotPerform_go {s : State} {x : StqAddr} (hdue : s.dueSlot = some x)
    (hgo : s.fixedLeg s.cur = true ∨ ∀ y ∈ s.me.axu.stqA, y.slot < x.slot → y.done = true) : exec .stqSlotPerform s =
    .next (if ownPieces s.cur x.pieces = true then (s.slotWritten s.cur x).stqDone s.cur x else s.slotSent s.cur x) := by
  rw [State.exec_stqSlotPerform hdue, if_neg]
  rintro ⟨hfree, hbehind⟩
  obtain ⟨y, hy, hlt, hdone⟩ := State.slotBehind_iff.mp hbehind
  rcases hgo with h | h
  · exact hfree h
  · rw [h y hy hlt] at hdone
    cases hdone

/-- The slots freed are at the head of the STQ. -/
theorem Axu.stqFree_eq (k : Axu) (n : Nat) : ∃ l d, k.stqFree n = { k with stqA := l, stqD := d } ∧ l <:+ k.stqA := by
  induction n generalizing k with
  | zero => exact ⟨k.stqA, k.stqD, rfl, List.suffix_refl _⟩
  | succ n ih =>
    unfold Axu.stqFree
    split
    next x r hl =>
      split
      · obtain ⟨l, d, heq, hsuf⟩ := ih { k with stqA := r, stqD := k.stqD.drop 1 }
        exact ⟨l, d, heq, hl ▸ hsuf.trans (List.suffix_cons x r)⟩
      · exact ⟨k.stqA, k.stqD, rfl, List.suffix_refl _⟩
    next => exact ⟨k.stqA, k.stqD, rfl, List.suffix_refl _⟩

theorem AxuStep.stqDone (s : State) (c : CoreIx) (x : StqAddr) : AxuStep c s (s.stqDone c x) := (upd s c fun _ => rfl).trans (axuClose ..)

theorem State.stqDone_reqs (s : State) (c : CoreIx) (x : StqAddr) : (s.stqDone c x).reqs = s.reqs := State.axuClose_reqs ..

/-- A slot performed is freed or stays as one that is done (R326). -/
theorem State.stqDone_axu (s : State) (c : CoreIx) (x : StqAddr) :
    ∃ l d past, ((s.stqDone c x).core c).axu = { (s.core c).axu with stqA := l, stqD := d, past := past }
      ∧ ∀ y ∈ l, y.slot = x.slot → y.done = true := by
  obtain ⟨l, d, heq, hsuf⟩ := ((s.core c).axu.setStq { x with done := true }).stqFree_eq 64
  obtain ⟨past, hpast⟩ := (s.upd c fun k =>
    { k with axu := (k.axu.setStq { x with done := true }).stqFree 64, pipe := k.pipe.late x.word s.chron }).axuClose_axu c x.word
  rw [State.core_upd] at hpast
  refine ⟨l, d, past, ?_, fun y hy hs => ?_⟩
  · refine hpast.trans ?_
    dsimp only
    rw [heq]
    rfl
  · obtain ⟨z, -, rfl⟩ := List.mem_map.mp (hsuf.subset hy)
    split at hs
    next he => rw [if_pos he]
    next he => exact absurd hs he

theorem State.sendPiece_asks (c : CoreIx) (x : StqAddr) (bs : List Byte) (fixed : Bool) (s : State) (p : Nat × Nat × Nat) :
    AxuStep c s (s.sendPiece c x bs fixed p) ∧ ((s.sendPiece c x bs fixed p).core c).axu = (s.core c).axu
      ∧ ∃ q ∈ (s.sendPiece c x bs fixed p).reqs, q.core = c ∧ q.who = 1 ∧ q.kind = .write ((bs.drop p.1).take p.2.2) ∧ q.ia = p.2.1
        ∧ q.dest = .stq x.slot := by
  unfold State.sendPiece
  dsimp only
  split
  · exact ⟨(AxuStep.addReq _ _).trans (.schedC ..), rfl, _, List.mem_append_right _ (List.mem_singleton_self _), rfl, rfl, rfl, rfl, rfl⟩
  · cases fixed
    · exact ⟨((AxuStep.addReq _ _).trans (.drawAccess ..)).trans (.schedC ..), rfl,
        _, List.mem_append_right _ (List.mem_singleton_self _), rfl, rfl, rfl, rfl, rfl⟩
    · exact ⟨(AxuStep.addReq _ _).trans (.schedC ..), rfl, _, List.mem_append_right _ (List.mem_singleton_self _), rfl, rfl, rfl, rfl, rfl⟩

theorem AxuStep.slotSent (s : State) (c : CoreIx) (x : StqAddr) : AxuStep c s (s.slotSent c x) :=
  (upd s c fun _ => rfl).trans (foldl (fun s p => (s.sendPiece_asks c x _ _ p).1) _ _)

theorem State.slotSent_axu (s : State) (c : CoreIx) (x : StqAddr) : ((s.slotSent c x).core c).axu = (s.core c).axu.setStq { x with reqd := true } :=
  (foldl_axu (fun s p => (s.sendPiece_asks c x _ _ p).2.1) _ _).trans (by rw [State.core_upd])

/-! ## The replay queue (R381) -/

/-- The next try of the replay queue, while a word is in it (R381). -/
def State.replayTried (s : State) (c : CoreIx) : State := if s.me.vec.replay.isEmpty then s else s.schedC (s.chron + 1) c .replayQueueLeave

theorem State.exec_replayQueueLeave {s : State} {id : Nat} {r : List Nat} {w : Inflight} (hq : s.me.vec.replay = id :: r)
    (hw : s.me.pipe.infl.find? (fun x => x.id == id) = some w) (hlast : s.me.vec.replayLast < s.chron) :
    exec .replayQueueLeave s = .next ((s.leaveHead s.cur w).replayTried s.cur) := by
  show execReplayQueueLeave s = _
  unfold execReplayQueueLeave
  dsimp only
  rw [hq]
  dsimp only
  rw [hw]
  dsimp only
  exact congrArg (fun u => Host.Outcome.next (State.replayTried u s.cur)) (if_pos (.inl hlast))

/-- A head that stays is tried again in the next cycle. -/
theorem State.exec_replayQueueLeave_held {s : State} {id : Nat} {r : List Nat} {w : Inflight} (hq : s.me.vec.replay = id :: r)
    (hw : s.me.pipe.infl.find? (fun x => x.id == id) = some w) (hlast : s.me.vec.replayLast < s.chron) (hheld : s.leaveHead s.cur w = s) :
    exec .replayQueueLeave s = .next (s.schedC (s.chron + 1) s.cur .replayQueueLeave) := by
  rw [State.exec_replayQueueLeave hq hw hlast, hheld, State.replayTried, hq]
  rfl

section Head

variable {s : State} {c : CoreIx} {w : Inflight}

theorem State.leaveHead_vld {h : Hdr} {k : Fin 8} {n : Bool} {d : Fin 32} {x : BitVec 2} (hi : w.instr = .vld h k n d x) :
    s.leaveHead c w = if !(s.core c).ldqPortBusy w s.chron && (s.core c).axu.headFilled s.chron then
      ((s.unhold c w.id).upd c fun k => { k with vec := { k.vec with vReady := k.vec.vReady.set d (s.chron + w.n 3 - w.n 4 + 1) } }).vldPop c w
      else s := by
  unfold State.leaveHead
  rw [hi]

theorem State.leaveHead_vst {h : Hdr} {k : Fin 8} {n : Bool} {a : Fin 32} {x : BitVec 2} (hi : w.instr = .vst h k n a x) :
    s.leaveHead c w = if !(s.core c).stqPortBusy w (s.chron + 1) && (s.core c).axu.dataRoom then (s.unhold c w.id).again c w (s.chron + 1) else s := by
  unfold State.leaveHead
  rw [hi]

theorem State.leaveHead_vsumz {h : Hdr} {k : Fin 8} {n : Bool} {l : BitVec 5} {a : Fin 32} {e : Bool} {y z : BitVec 2}
    (hi : w.instr = .vsumz h k n l a e y z) : s.leaveHead c w =
      if (s.core c).pipe.sumFree (w.n 3 == 1) (s.chron + 1) (s.chron + 1 + w.n 2 - w.n 1) false then (s.unhold c w.id).sumStart c w (s.chron + 1)
      else s := by
  unfold State.leaveHead
  rw [hi]

end Head

/-- A word leaves the replay queue in a cycle, and is met again by a later one: only the queue, the pipe, the access unit and the cycles from which
registers are usable change. -/
structure Leaves (c : CoreIx) (id : Nat) (s t : State) : Prop where
  eq : t = { s with cores := t.cores, agenda := t.agenda }
  others : ∀ x, x ≠ c → t.core x = s.core x
  core : t.core c = { s.core c with
    axu := (t.core c).axu, pipe := (t.core c).pipe
    vec := { (s.core c).vec with
      replay := (s.core c).vec.replay.filter (· != id), replayLast := s.chron, vReady := (t.core c).vec.vReady } }

namespace Leaves

variable {c : CoreIx} {id : Nat} {s t u : State}

theorem unhold (s : State) (c : CoreIx) (id : Nat) : Leaves c id s (s.unhold c id) :=
  ⟨rfl, fun _ hx => s.core_upd_ne hx _, by rw [State.unhold, State.core_upd]⟩

/-- What follows in the access unit and the pipe leaves a word that has left gone. -/
theorem step (h : Leaves c id s t) (hu : AxuStep c t u) (heq : u = { t with cores := u.cores, agenda := u.agenda }) : Leaves c id s u :=
  ⟨by have e := heq; rw [h.eq] at e; exact e, fun x hx => (hu.others x hx).trans (h.others x hx), by
    have e := hu.core
    rw [h.core] at e
    rw [e]⟩

theorem me (h : Leaves s.cur id s t) : t.me = t.core s.cur := congrArg t.core (by rw [h.eq])

theorem addsEvents (h : Leaves c id s t) (hu : AddsEvents t u) : Leaves c id s u :=
  h.step (.of_addsEvents c hu) (by
    have hcores : u.cores = t.cores := by rw [hu.eq]
    rw [hcores]
    exact hu.eq)

theorem again (h : Leaves c id s t) (w : Inflight) (n : Nat) : Leaves c id s (t.again c w n) :=
  h.step ((AxuStep.upd t c fun _ => rfl).trans (.schedC ..)) rfl

theorem chron (h : Leaves c id s t) : t.chron = s.chron := by rw [h.eq]
theorem cur (h : Leaves c id s t) : t.cur = s.cur := by rw [h.eq]
theorem memory (h : Leaves c id s t) : t.memory = s.memory := by rw [h.eq]
theorem parts (h : Leaves c id s t) : t.parts = s.parts := by rw [h.eq]

theorem seq (h : Leaves c id s t) : (t.core c).seq = (s.core c).seq := by rw [h.core]

theorem vec (h : Leaves c id s t) : (t.core c).vec.replay = (s.core c).vec.replay.filter (· != id)
    ∧ (t.core c).vec.replayLast = s.chron ∧ (t.core c).vec.v = (s.core c).vec.v := by
  rw [h.core]
  exact ⟨rfl, rfl, rfl⟩

end Leaves

theorem AddsEvents.replayTried (s : State) (c : CoreIx) : AddsEvents s (s.replayTried c) := by
  unfold State.replayTried
  split
  · exact refl s
  · exact schedC ..

theorem AddsEvents.steps (s : State) (c : CoreIx) (id lo hi : Nat) : AddsEvents s (s.steps c id lo hi) := foldl (fun _ _ => schedC ..) _ s

/-- A VST that finds its port free leaves to push in the next cycle. -/
theorem State.leaves_again (s : State) (c : CoreIx) (w : Inflight) :
    Leaves c w.id s ((s.unhold c w.id).again c w (s.chron + 1)) ∧ (((s.unhold c w.id).again c w (s.chron + 1)).core c).axu = (s.core c).axu
      ∧ ∃ v ∈ ((s.unhold c w.id).again c w (s.chron + 1)).agenda, v.cycle = s.chron + 1 ∧ v.core = c ∧ v.instr = .wordRetire c w.id := by
  refine ⟨(Leaves.unhold s c w.id).again w _, ?_, _, mem_agendaPut .., rfl, rfl, rfl⟩
  rw [State.again, State.schedC_core, State.core_upd, State.unhold, State.core_upd]
  rfl

/-- A VSUMZ that finds its units free leaves and commits at the end of its interval (R400). -/
theorem State.leaves_sumStart (s : State) (c : CoreIx) (w : Inflight) (lo : Nat) :
    Leaves c w.id s ((s.unhold c w.id).sumStart c w lo) ∧ (((s.unhold c w.id).sumStart c w lo).core c).axu = (s.core c).axu
      ∧ ∃ v ∈ ((s.unhold c w.id).sumStart c w lo).agenda, v.cycle = lo + w.n 2 - w.n 1 ∧ v.core = c ∧ v.instr = .wordRetire c w.id := by
  have hsteps := AddsEvents.steps ((s.unhold c w.id).occupy c [⟨vExact, lo, lo + w.n 2 - w.n 1⟩, ⟨vBank (w.n 3 == 1), lo, lo + w.n 2 - w.n 1⟩])
    c w.id (max lo (s.chron + 1)) (lo + w.n 2 - w.n 1)
  refine ⟨?_, ?_, _, mem_agendaPut .., rfl, rfl, rfl⟩
  · exact (((Leaves.unhold s c w.id).step (.upd _ c fun _ => rfl) rfl).addsEvents hsteps).again ..
  · rw [State.sumStart, State.again, State.schedC_core, State.core_upd]
    refine (congrArg Core.axu (hsteps.core c)).trans ?_
    rw [State.occupy, State.core_upd, State.unhold, State.core_upd]

/-- A VLD that finds the head of the LDQ filled leaves with it, to go on in the next cycle (R380). -/
theorem State.leaves_vldPop {s : State} {c : CoreIx} {w : Inflight} {d : Fin 32} {n : Nat} {x : LdqEntry} {l : List LdqEntry}
    (hldq : (s.core c).axu.ldq = x :: l) {t : State}
    (ht : t = ((s.unhold c w.id).upd c fun k => { k with vec := { k.vec with vReady := k.vec.vReady.set d n } }).vldPop c w) :
    Leaves c w.id s t ∧ (t.core c).axu.ldq = l ∧ ∃ v ∈ t.agenda, v.cycle = s.chron + 1 ∧ v.core = c ∧ v.instr = .wordRetire c w.id := by
  have hready : Leaves c w.id s ((s.unhold c w.id).upd c fun k => { k with vec := { k.vec with vReady := k.vec.vReady.set d n } }) :=
    ⟨rfl, fun _ hx => (State.core_upd_ne _ hx _).trans (s.core_upd_ne hx _), by rw [State.core_upd, State.unhold, State.core_upd]⟩
  have hhead : (((s.unhold c w.id).upd c fun k => { k with vec := { k.vec with vReady := k.vec.vReady.set d n } }).core c).axu.ldq = x :: l := by
    rw [State.core_upd, State.unhold, State.core_upd]
    exact hldq
  subst ht
  unfold State.vldPop
  rw [hhead]
  dsimp only
  refine ⟨(hready.step (.upd _ c fun _ => rfl) rfl).again _ _, ?_, _, mem_agendaPut .., rfl, rfl, rfl⟩
  rw [State.again, State.schedC_core, State.core_upd, State.core_upd]
  rfl

/-! ## RESUME (R154) -/

/-- The access unit as it goes on from the access of a soft stop (R154). -/
def Axu.resumed (k : Axu) (now : Nat) (f : SoftStop) : Axu :=
  { k with
    soft := none, gen := [{ f.job with cycle := now }], gate := some (f.slot, f.stq)
    q := { k.q with st := .running, base := now + 1, notBefore := now + 1, progress := now, lookStep := 0 } }

/-- The queue of the VEC as the Lookout counts it anew (R153). -/
def Vec.recounted (k : Vec) (now : Nat) : Vec := { k with q := { k.q with progress := now, lookStep := 0 } }

/-- The core at hand after its RESUME, with the access unit at work again (R153, R154). -/
def State.resumed (s : State) (f : SoftStop) : State :=
  (s.updMe fun k => { k with axu := k.axu.resumed s.chron f, vec := if s.me.behindStop then k.vec.recounted s.chron else k.vec }).schedC s.chron s.cur
    .accessGeneration

theorem State.exec_resume {s : State} {f : SoftStop} (hsoft : s.me.axu.soft = some f) : exec .resume s =
    .next (if s.recordHeld s.cur 1 then s.schedC (s.chron + 1) s.cur .resume else s.resumed f) := by
  show execResume s = _
  unfold execResume State.resumed
  dsimp only
  rw [hsoft]
  dsimp only
  cases hw : s.me.behindStop
  · rfl
  · refine congrArg Host.Outcome.next (ite_congr rfl (fun _ => rfl) fun _ => ?_)
    exact congrArg (fun u => State.schedC u s.chron s.cur .accessGeneration) ((if_pos rfl).trans (s.upd_upd s.cur _ _))

theorem State.resumed_me (s : State) (f : SoftStop) : (s.resumed f).me =
    { s.me with axu := s.me.axu.resumed s.chron f, vec := if s.me.behindStop then s.me.vec.recounted s.chron else s.me.vec } :=
  s.me_updMe fun k => { k with axu := k.axu.resumed s.chron f, vec := if s.me.behindStop then k.vec.recounted s.chron else k.vec }

theorem State.resumed_core_ne {s : State} {c : CoreIx} (h : c ≠ s.cur) (f : SoftStop) : (s.resumed f).core c = s.core c :=
  s.core_updMe_ne h fun k => { k with axu := k.axu.resumed s.chron f, vec := if s.me.behindStop then k.vec.recounted s.chron else k.vec }

end Sys2Proof.Machine

namespace Sys2Proof

open Machine

/-- What holds of every word that leaves the replay queue, of what it leaves with. -/
theorem Machine.State.replayLeft {s u : State} {id : Nat} {r : List Nat} {w : Inflight} (hq : s.me.vec.replay = id :: r)
    (hw : s.me.pipe.infl.find? (fun x => x.id == id) = some w) (hlast : s.me.vec.replayLast < s.chron) (hhead : s.leaveHead s.cur w = u)
    (hu : Leaves s.cur w.id s u) :
    ∃ t, exec .replayQueueLeave s = .next t ∧ t.me.vec.replay = r.filter (fun y => y ≠ id) ∧ t.me.vec.replayLast = s.chron
      ∧ t.me.vec.v = s.me.vec.v ∧ t.me.axu = (u.core s.cur).axu ∧ t.me.seq = s.me.seq ∧ t.memory = s.memory
      ∧ (∀ v ∈ u.agenda, v ∈ t.agenda) ∧ (∀ c, c ≠ s.cur → t.core c = s.core c) ∧ t.parts = s.parts := by
  have hid : w.id = id := by simpa using List.find?_some hw
  have htried := AddsEvents.replayTried u s.cur
  have ht := hu.addsEvents htried
  obtain ⟨hreplay, hl, hv⟩ := ht.vec
  refine ⟨u.replayTried s.cur, by rw [State.exec_replayQueueLeave hq hw hlast, hhead], ?_, ?_, ?_, ?_, ?_, ht.memory, htried.events, ht.others, ht.parts⟩
  all_goals rw [ht.me]
  · rw [hreplay, show (s.core s.cur).vec.replay = id :: r from hq, hid, List.filter_cons_of_neg (by simp)]
    exact List.filter_congr fun y _ => (decide_not ..).symm
  · exact hl
  · exact hv
  · exact congrArg Core.axu (htried.core s.cur)
  · exact ht.seq

/-- Settles O59: RESUME by its definition; an access by what its load or its store leaves (`State.counted`), a slot of the STQ by whether it lies in
the own scratchpad, and a word that leaves the replay queue by `State.replayLeft`. -/
theorem accessUnitEvents : Obligations.AccessUnitEvents := by
  refine ⟨fun s hsoft => ?_, fun s f hsoft hheld => ?_, fun s f hsoft hheld => ?_, fun s hgen => ?_, fun s j r hgen hpre hdue => ?_,
    fun s j r hgen hpre hdue hmarks hfree => ?_, fun s j r p hgen hpre hdue hmarks hfixed hp hr => ?_,
    fun s j r h a b cn ct va ia n f hgen hi hpre hdue hmarks hline hskip hroom hfault hok hclaims => ?_,
    fun s j r h a b cn ct va ia n f hgen hi hpre hdue hmarks hfree hline hskip hlast hroom hfault => ?_,
    fun s hnone => ?_, fun s x hdue hfree hbehind => ?_, fun s x hdue hgo hown => ?_, fun s x hdue hgo hown => ?_,
    fun s hq => ?_, fun s id r w d h a b e hq hw hi hlast hheld => ?_, fun s id r w h a b c d hq hw hlast hheld => ?_,
    fun s id r w h a b c d hq hw hlast hgo => ?_, fun s id r w d h a b e x l hq hw hi hlast hport hldq hfilled => ?_⟩
  · show execResume s = _
    unfold execResume
    dsimp only
    rw [hsoft]
  · rw [State.exec_resume hsoft, if_pos hheld]
  · refine ⟨s.resumed f, by rw [State.exec_resume hsoft, if_neg (by rw [hheld]; exact Bool.false_ne_true)], ?_⟩
    rw [State.resumed_me]
    exact ⟨rfl, rfl, rfl, rfl, rfl, rfl, rfl, rfl, rfl, rfl, fun x hx => State.resumed_core_ne hx f, rfl, rfl, _, mem_agendaPut .., rfl, rfl, rfl⟩
  · show execAccessGeneration s = _
    unfold execAccessGeneration
    dsimp only
    rw [hgen]
  · rw [State.exec_accessGeneration hgen hpre, if_pos hdue]
  · rw [State.exec_accessGeneration_stall hgen hpre hdue hmarks, State.genAnswer, hfree]
    rfl
  · rw [State.exec_accessGeneration_stall hgen hpre hdue hmarks, State.genAnswer, hfixed]
    have hfault := FaultFrame.coreFault hp 1 0x41 j.pc 0 j.handle 0xFF (some j.place)
    refine ⟨_, rfl, ?_, hfault.memory, hfault.cores⟩
    simp only [if_true, State.axuFault, State.coreFault, hp]
    exact ⟨⟨_, by rw [State.part_hardFault_running hr], rfl, rfl, rfl, rfl, rfl, rfl⟩, State.halt_mem_hardFault hr _ _⟩
  · have hdone := (State.genOne_lds hi hline).trans (congrArg _ (State.genLoad_done hskip hroom hfault hok hclaims))
    have hpush := s.loaded_axu s.cur j va ia n f
    obtain ⟨hstep, hreqs, g, past, free, hax, hg⟩ := State.counted (.loaded s s.cur j va ia n f) ((congrArg Axu.gen hpush).trans hgen)
    refine ⟨_, State.exec_accessGeneration_done hgen hpre hdue hmarks hdone, ?_⟩
    rw [hstep.me, hax, hpush]
    exact ⟨⟨s.loadEntry s.cur j ia n f, rfl, rfl, rfl, rfl, rfl, rfl⟩, rfl, fun x hx => hreqs ▸ s.loaded_asks s.cur j va ia n f x hx, hstep.reqs, hg,
      rfl, rfl, hstep.seq, hstep.memory, hstep.others, hstep.parts⟩
  · have hdone := (State.genOne_sts hi hline).trans (congrArg _ (State.genStore_done hfree hskip hroom hfault))
    obtain ⟨hput, hnone, l, m, hpush, ⟨y, hy, hs⟩, hall⟩ := State.stored_spec hfree hlast j va ia n
    obtain ⟨hstep, hreqs, g, past, free, hax, -⟩ := State.counted hput ((congrArg Axu.gen hpush).trans hgen)
    refine ⟨_, State.exec_accessGeneration_done hgen hpre hdue hmarks hdone, ?_⟩
    rw [hstep.me, hax, hpush]
    exact ⟨⟨y, hy, hs, hall y hy hs⟩, rfl, rfl, rfl, hreqs.trans hnone, rfl, hstep.seq, hstep.memory, hstep.others, hstep.parts⟩
  · show execStqSlotPerform s = _
    unfold execStqSlotPerform
    dsimp only
    rw [List.find?_eq_none.mpr fun x hx => ?_]
    simp only [Bool.and_eq_true, Bool.not_eq_true', decide_eq_true_eq]
    rintro ⟨⟨⟨hsent, hdone⟩, hreqd⟩, hperf⟩
    have := hnone x hx hsent hdone hreqd
    omega
  · rw [State.exec_stqSlotPerform hdue, if_pos ⟨by rw [hfree]; exact Bool.false_ne_true, State.slotBehind_iff.mpr hbehind⟩]
  · have hall : ownPieces s.cur x.pieces = true := List.all_eq_true.mpr hown
    have hstep := AxuStep.stqDone (s.slotWritten s.cur x) s.cur x
    have hme : ((s.slotWritten s.cur x).stqDone s.cur x).me = ((s.slotWritten s.cur x).stqDone s.cur x).core s.cur := congrArg _ hstep.cur
    obtain ⟨l, d, past, hax, hdone⟩ := (s.slotWritten s.cur x).stqDone_axu s.cur x
    refine ⟨_, by rw [State.exec_stqSlotPerform_go hdue hgo, if_pos hall], hstep.memory, ?_⟩
    rw [hme, hax]
    exact ⟨hdone, rfl, rfl, hstep.seq, hstep.vec, State.stqDone_reqs .., hstep.others, hstep.parts⟩
  · have hstep := AxuStep.slotSent s s.cur x
    have hax := s.slotSent_axu s.cur x
    have hasks := AxuStep.foldl_asks (fun u p => (u.sendPiece_asks s.cur x (s.me.axu.stqData x.slot) (s.fixedLeg s.cur) p).1)
      (fun u p => (u.sendPiece_asks s.cur x (s.me.axu.stqData x.slot) (s.fixedLeg s.cur) p).2.2) x.pieces
      (s.upd s.cur fun k => { k with axu := k.axu.setStq { x with reqd := true } })
    have hfar : ¬ ownPieces s.cur x.pieces = true := fun h => by
      obtain ⟨p, hp, hout⟩ := hown
      rw [List.all_eq_true.mp h p hp] at hout
      cases hout
    refine ⟨_, by rw [State.exec_stqSlotPerform_go hdue hgo, if_neg hfar], hstep.memory, hasks, ?_⟩
    rw [hstep.me, hax]
    exact ⟨rfl, rfl, hstep.seq, hstep.others, hstep.parts⟩
  · show execReplayQueueLeave s = _
    unfold execReplayQueueLeave
    dsimp only
    rw [hq]
  · refine State.exec_replayQueueLeave_held hq hw hlast ((State.leaveHead_vld hi).trans (if_neg ?_))
    rw [Bool.and_eq_true, Bool.not_eq_true']
    rintro ⟨hport, hfilled⟩
    rcases hheld with h | h
    · exact Bool.false_ne_true (hport.symm.trans h)
    · exact Bool.false_ne_true (h.symm.trans hfilled)
  · refine State.exec_replayQueueLeave_held hq hw hlast ?_
    rcases hheld with ⟨hi, hheld⟩ | ⟨⟨h', k, n, l, a', e, y, z, hi⟩, hheld⟩
    · refine (State.leaveHead_vst hi).trans (if_neg ?_)
      rw [Bool.and_eq_true, Bool.not_eq_true']
      rintro ⟨hport, hroom⟩
      rcases hheld with h | h
      · exact Bool.false_ne_true (hport.symm.trans h)
      · exact Bool.false_ne_true (h.symm.trans hroom)
    · exact (State.leaveHead_vsumz hi).trans (if_neg fun h => Bool.false_ne_true (hheld.symm.trans h))
  · have hid : w.id = id := by simpa using List.find?_some hw
    rcases hgo with ⟨hi, hport, hroom⟩ | ⟨⟨h', k, n, l, a', e, y, z, hi⟩, hle, hunits⟩
    · have hport : (s.core s.cur).stqPortBusy w (s.chron + 1) = false := hport
      have hroom : (s.core s.cur).axu.dataRoom = true := hroom
      obtain ⟨hu, haxu, v, hv, hcycle, hcore, hret⟩ := s.leaves_again s.cur w
      obtain ⟨t, ht, hreplay, hnow, hv', haxu', hseq, hmem, hevents, hcores, hparts⟩ := State.replayLeft hq hw hlast
        ((State.leaveHead_vst hi).trans (if_pos (by rw [hport, hroom]; rfl))) hu
      exact ⟨t, ht, hreplay, hnow, hv', haxu'.trans haxu, hseq, hmem, ⟨v, hevents v hv, by omega, hcore, hid ▸ hret⟩, hcores, hparts⟩
    · have hn1 : w.n 1 = w.lat.getD 1 0 := rfl
      have hn2 : w.n 2 = w.lat.getD 2 0 := rfl
      obtain ⟨hu, haxu, v, hv, hcycle, hcore, hret⟩ := s.leaves_sumStart s.cur w (s.chron + 1)
      obtain ⟨t, ht, hreplay, hnow, hv', haxu', hseq, hmem, hevents, hcores, hparts⟩ := State.replayLeft hq hw hlast
        ((State.leaveHead_vsumz hi).trans (if_pos hunits)) hu
      exact ⟨t, ht, hreplay, hnow, hv', haxu'.trans haxu, hseq, hmem, ⟨v, hevents v hv, by omega, hcore, hid ▸ hret⟩, hcores, hparts⟩
  · have hid : w.id = id := by simpa using List.find?_some hw
    have hport : (s.core s.cur).ldqPortBusy w s.chron = false := hport
    have hfilled : (s.core s.cur).axu.headFilled s.chron = true := hfilled
    obtain ⟨hu, hl, v, hv, hcycle, hcore, hret⟩ := State.leaves_vldPop (w := w) (d := d) (n := s.chron + w.n 3 - w.n 4 + 1) hldq rfl
    obtain ⟨t, ht, hreplay, hnow, hv', haxu', hseq, hmem, hevents, hcores, hparts⟩ := State.replayLeft hq hw hlast
      ((State.leaveHead_vld hi).trans (if_pos (by rw [hport, hfilled]; rfl))) hu
    exact ⟨t, ht, hreplay, hnow, hv', (congrArg Axu.ldq haxu').trans hl, hseq, hmem, ⟨v, hevents v hv, hcycle, hcore, hid ▸ hret⟩, hcores, hparts⟩

end Sys2Proof
/-! # Words of the engines: what the issue, a word in flight and a fault leave (R137, R139, R148, R181, R183) -/

namespace Sys2Proof.Machine

/-! ## TKSEL and the take (R181, R183) -/

theorem Ctl.take_tkselOld (k : Ctl) (q f : Nat) : (k.take q f).tkselOld = k.tkselOld := by
  unfold Ctl.take
  split
  · rfl
  · unfold Ctl.setOcc
    split <;> rfl

/-- The TKSEL that governs a cycle depends on TKSEL and on the value it replaced alone. -/
theorem Ctl.to_seen_congr {k l : Ctl} (hnew : l.tksel = k.tksel) (hold : l.tkselOld = k.tkselOld) (now q : Nat) :
    (l.seen now).to_ q = (k.seen now).to_ q := by
  unfold Ctl.seen
  rw [hold]
  split
  · split
    · rfl
    · rw [Ctl.to_, Ctl.to_, hnew]
  · rw [Ctl.to_, Ctl.to_, hnew]

/-- A take leaves the engine a give goes to. -/
theorem Ctl.to_seen_take (k : Ctl) (q f now e : Nat) : ((k.take q f).seen now).to_ e = (k.seen now).to_ e := by
  obtain ⟨-, -, hsel, -⟩ := k.take_fields q f
  exact Ctl.to_seen_congr hsel (k.take_tkselOld q f) now e

/-! ## The issue pointer (R139) -/

/-- Outside a loop the issue pointer moves to the next word. -/
theorem Queue.advance_outside {q : Queue} (h : q.loops = []) (now : Nat) : (q.advance now).pc = q.pc + 4 ∧ (q.advance now).base = now + 1 := by
  rw [Queue.advance, h]
  exact ⟨rfl, rfl⟩

theorem Queue.settle_pc (q : Queue) : q.settle.pc = q.pc := by
  unfold Queue.settle
  split <;> rfl

theorem Queue.settle_base (q : Queue) : q.settle.base = q.base := by
  unfold Queue.settle
  split <;> rfl

/-! ## Columns -/

/-- Only columns change, with events put on the agenda. -/
structure ColStep (s t : State) : Prop where
  eq : t = { s with cols := t.cols, agenda := t.agenda }

namespace ColStep

variable {s t : State}

theorem cur (h : ColStep s t) : t.cur = s.cur := by rw [h.eq]
theorem chron (h : ColStep s t) : t.chron = s.chron := by rw [h.eq]
theorem reqs (h : ColStep s t) : t.reqs = s.reqs := by rw [h.eq]
theorem me (h : ColStep s t) : t.me = s.me := by rw [h.eq]; rfl

end ColStep

end Sys2Proof.Machine

namespace Sys2Proof

open Machine

theorem to_seen_seqCtl (s : State) (h : Hdr) (now e : Nat) : ((seqCtl s h).seen now).to_ e = (s.me.ctl.seen now).to_ e := by
  unfold seqCtl
  split
  · exact Ctl.to_seen_take ..
  · rfl

theorem to_seen_engCtl (s : State) (e : Eng) (h : Hdr) (now q : Nat) : ((engCtl s e h).seen now).to_ q = (s.me.ctl.seen now).to_ q := by
  unfold engCtl
  split
  · exact Ctl.to_seen_take ..
  · rfl

theorem rwin_seqCtl (s : State) (h : Hdr) : (seqCtl s h).rwin = s.me.ctl.rwin := by
  unfold seqCtl
  split
  · obtain ⟨-, -, -, -, -, -, -, hrwin, -⟩ := s.me.ctl.take_fields 0 (tokFrom s .seq)
    exact hrwin
  · rfl

theorem rwin_engCtl (s : State) (e : Eng) (h : Hdr) : (engCtl s e h).rwin = s.me.ctl.rwin := by
  unfold engCtl
  split
  · obtain ⟨-, -, -, -, -, -, -, hrwin, -⟩ := s.me.ctl.take_fields e.num (tokFrom s e)
    exact hrwin
  · rfl

/-! ## A word that changes nothing outside its core, and what the rest of the module is to it -/

namespace SameOutside

variable {s t u : State}

theorem partOf (o : SameOutside s u) (c : CoreIx) : u.partOf c = s.partOf c := by
  unfold State.partOf State.partOfCluster
  rw [o.hif]

theorem coresOf (o : SameOutside s u) (p : PartIx) : u.coresOf p = s.coresOf p := by
  unfold State.coresOf
  simp only [o.partOf]

theorem logical (o : SameOutside s u) (p : PartIx) (c : CoreIx) : u.logical p c = s.logical p c := by
  unfold State.logical
  rw [o.coresOf]

theorem col (o : SameOutside s u) (c : CoreIx) : u.col c = s.col c := by
  unfold State.col
  rw [o.cols]

theorem me (o : SameOutside s u) : u.me = u.core s.cur := congrArg u.core o.cur

theorem running {p : PartIx} (o : SameOutside s u) (hr : Running s p) : Running u p := by
  obtain ⟨hsw, hhalt, hrun⟩ := hr
  have hpart := o.parts p
  have hst (j : Fin 8) : ((u.part p).slots[j]).st = ((s.part p).slots[j]).st := (congrArg Slot.st (o.slots p j) :)
  refine ⟨?_, ?_, ?_⟩
  · rw [← hsw, ← hpart]
  · rw [← hhalt, ← hpart]
  · rw [← hrun, Part.runSlot, Part.runSlot]
    simp only [hst]

/-- A hard fault of an engine after its word's issue halts the partition of the core at hand. -/
theorem halts_coreFault {p : PartIx} (o : SameOutside s u) (hp : s.partOf s.cur = some p) (hr : Running s p) (e : Eng) (code : Nat) (pc : Int)
    (ia handle : Nat) : Halts s (u.coreFault s.cur e.num code pc ia handle) p e code pc := by
  have hrun := o.running hr
  simp only [State.coreFault, (o.partOf s.cur).trans hp]
  obtain ⟨v, hv, hcycle, hpart, hinstr⟩ := State.halt_mem_hardFault hrun
    { code := code, cycle := u.chron, core := u.logical p s.cur, eng := e.num, pc := pc, ia := ia, handle := handle, beat := 0xFF, nests := none } false
  exact ⟨⟨_, by rw [State.part_hardFault_running hrun], rfl, o.chron, o.logical p s.cur, rfl, rfl, rfl⟩, v, hv, by rw [hcycle, o.chron], hpart, hinstr⟩

/-- Of a word that changes its column too, what the column aside it leaves. -/
theorem with_cols (o : SameOutside s t) (cols : List (Nat × Column)) : SameOutside { s with cols := cols } { t with cols := cols } :=
  ⟨o.chron, o.off, o.cur, o.helm, o.hif, o.ms, o.mig, o.fab, o.memory, rfl, o.cores, o.parts, o.slots⟩

theorem of_cols (o : SameOutside s u) (h : ColStep u t) : SameOutside s { t with cols := s.cols } := by
  rw [h.eq]
  exact ⟨o.chron, o.off, o.cur, o.helm, o.hif, o.ms, o.mig, o.fab, o.memory, rfl, o.cores, o.parts, o.slots⟩

end SameOutside

/-! ## A word in flight (R181, R253) -/

/-- Words are put in flight at the core at hand; the state is else as before but for events on the agenda. -/
structure Machine.Launches (s t : State) : Prop where
  outside : SameOutside s t
  reqs : t.reqs = s.reqs
  me : t.me = { s.me with pipe := t.me.pipe }
  events : ∀ e ∈ s.agenda, e ∈ t.agenda

theorem Machine.Launches.refl (s : State) : Launches s s := ⟨.refl s, rfl, rfl, fun _ h => h⟩

/-- A word is put in flight at the core at hand. -/
structure Machine.Flies (s t : State) (w : Inflight) : Prop extends Launches s t where
  mem : w ∈ t.me.pipe.infl

theorem Machine.State.flies_launch {s u : State} (hu : u = { s with nextId := u.nextId }) (w : Inflight) : Flies s (u.launch u.cur w) w := by
  have hme : u.me = s.me := by rw [hu]; rfl
  have hag : u.agenda = s.agenda := by rw [hu]
  have hreqs : u.reqs = s.reqs := by rw [hu]
  have ho : SameOutside s u := by
    rw [hu]
    exact ⟨rfl, rfl, rfl, rfl, rfl, rfl, rfl, rfl, rfl, rfl, fun _ _ => rfl, fun _ => rfl, fun _ _ => rfl⟩
  refine ⟨⟨ho.then_launch w, (State.launch_reqs ..).trans hreqs, ?_, fun e he => State.launch_agenda_mono _ _ _ (hag ▸ he)⟩, ?_⟩
  · rw [State.me_launch, hme]
  · rw [State.me_launch]
    exact List.mem_append_right _ (List.mem_singleton_self w)

/-- A give put off to the retirement of a word is a word in flight, with the engine TKSEL names and the accesses it waits for. -/
theorem Machine.State.flies_giveAt (s : State) (e : Eng) (i : Instr) (pc : Int) (lat : Nat) :
    ∃ w, Flies s (s.giveAt s.cur e i pc lat) w ∧ w.eng = e ∧ w.instr = i ∧ w.give = true ∧ w.giveTo = (s.me.ctl.seen s.chron).to_ e.num
      ∧ w.doneAt = s.chron + lat ∧ w.waits = s.pendingOf s.cur e := by
  unfold State.giveAt
  exact ⟨_, State.flies_launch (u := s.newId.2) rfl _, rfl, rfl, rfl, rfl, rfl, rfl⟩

/-- The accesses of an engine not yet performed are among those a word that gives waits for (R253). -/
theorem Machine.State.mem_pendingOf {s : State} {e : Eng} {r : Req} (hr : r ∈ s.reqs) (hc : r.core = s.cur) (hw : r.who = e.num) :
    r.id ∈ s.pendingOf s.cur e :=
  List.mem_append_left _ (List.mem_map_of_mem (List.mem_filter.mpr ⟨hr, by simp [hc, hw]⟩))

/-- A word in flight that gives as the state before it says. -/
theorem Machine.Flies.gives {s v t : State} {w : Inflight} {e : Eng} {i : Instr} {lat : Nat} (h : Flies v t w) (heng : w.eng = e) (hi : w.instr = i)
    (hgive : w.give = true) (hto : w.giveTo = (s.me.ctl.seen s.chron).to_ e.num) (hdone : w.doneAt = s.chron + lat)
    (hwaits : w.waits = v.pendingOf v.cur e) (hreqs : v.reqs = s.reqs) (hcur : v.cur = s.cur) : Gives s t e i lat :=
  ⟨w, h.mem, heng, hi, hgive, hto, hdone, fun _ hr hc hw => hwaits ▸ State.mem_pendingOf (hreqs ▸ hr) (hc.trans hcur.symm) hw⟩

/-! ## Words of the AXU -/

section Axu

variable {s : State} {h : Hdr}

/-- The state the body of a word of the AXU acts on keeps all outside the core. -/
theorem Machine.State.axuIssued_outside (s : State) (h : Hdr) : SameOutside s (s.engIssued .axu h) := s.engIssued_outside .axu nofun nofun h

theorem Machine.State.axuIssued_ctl (s : State) (h : Hdr) : (s.engIssued .axu h).me.ctl = engCtl s .axu h := by
  obtain ⟨hi, ag, hme⟩ := s.engIssued_me .axu nofun nofun h
  rw [hme]
  rfl

theorem Machine.State.axuIssued_a (s : State) (h : Hdr) : (s.engIssued .axu h).me.axu.a = s.me.axu.a := by
  obtain ⟨hi, ag, hme⟩ := s.engIssued_me .axu nofun nofun h
  rw [hme]
  rfl

/-- A row word names the bank and the row it would before its issue. -/
theorem Machine.State.axuIssued_rowTarget (s : State) (h : Hdr) (win : Fin 4) (b : Fin 32) (r : Nat) (bound : Bool) :
    (s.engIssued .axu h).rowTarget s.cur win b r bound = s.rowTarget s.cur win b r bound := by
  have o := s.axuIssued_outside h
  have hrwin : ((s.engIssued .axu h).core s.cur).ctl.rwin = (s.core s.cur).ctl.rwin := by
    rw [← o.me, s.axuIssued_ctl h, rwin_engCtl]
    rfl
  unfold State.rowTarget
  rw [hrwin, o.col]

theorem Machine.State.axuIssued_cur (s : State) (h : Hdr) : (s.engIssued .axu h).cur = s.cur := (s.axuIssued_outside h).cur
theorem Machine.State.axuIssued_chron (s : State) (h : Hdr) : (s.engIssued .axu h).chron = s.chron := (s.axuIssued_outside h).chron
theorem Machine.State.axuIssued_col (s : State) (h : Hdr) (c : CoreIx) : (s.engIssued .axu h).col c = s.col c := (s.axuIssued_outside h).col c
theorem Machine.State.axuIssued_reqs (s : State) (h : Hdr) : (s.engIssued .axu h).reqs = s.reqs := (s.engIssued_reqs .axu nofun nofun h).1

theorem Machine.State.axuIssued_reg (s : State) (h : Hdr) (a : Fin 16) : (s.engIssued .axu h).me.axu.reg a = s.me.axu.a[a] := by
  rw [Axu.reg, s.axuIssued_a h]

/-- The queue of the AXU moves past its word (R139). -/
theorem engNext_axu {t : State} (hq : t.me.axu.q = (s.engIssued .axu h).me.axu.q) : EngNext s t .axu := by
  intro hloops
  obtain ⟨hi, ag, hme⟩ := s.engIssued_me .axu nofun nofun h
  have hq' : t.me.queue .axu = ((s.me.queue .axu).advance s.chron).settle := by
    rw [hme] at hq
    exact hq
  obtain ⟨hpc, hbase⟩ := Queue.advance_outside hloops s.chron
  rw [hq', Queue.settle_pc, Queue.settle_base]
  exact ⟨hpc, hbase⟩

/-- A word of the AXU with an effect on its core that takes no note of the words before it (R154). -/
theorem engDoes_axu {t : State} {f : Core → Core} (hf : ∀ k hi ag, f { k with axu := { k.axu with hist := hi, again := ag } } =
      { f k with axu := { (f k).axu with hist := hi, again := ag } })
    (o : SameOutside s t) (hreqs : t.reqs = s.reqs) (hme : t.me = { f (s.engIssued .axu h).me with pipe := t.me.pipe }) : EngDoes s t .axu h f := by
  obtain ⟨hi, ag, hissued⟩ := s.engIssued_me .axu nofun nofun h
  rw [hissued, hf] at hme
  refine ⟨o, hreqs, ?_, fun hne => absurd rfl hne⟩
  rw [hme]

/-- A word of the AXU that changes its column alone. -/
theorem engDoes_cols {v t : State} (hv : ColStep (s.engIssued .axu h) v) (hl : Launches v t) :
    EngDoes s { t with cols := s.cols } .axu h (fun k => k) ∧ EngNext s t .axu := by
  refine ⟨engDoes_axu (fun _ _ _ => rfl) (((s.axuIssued_outside h).of_cols hv).trans (hl.outside.with_cols s.cols))
    (hl.reqs.trans (hv.reqs.trans (s.axuIssued_reqs h))) ?_, engNext_axu (h := h) ?_⟩
  · exact hl.me.trans (by rw [hv.me]; rfl)
  · rw [hl.me, hv.me]

/-- A word of the AXU whose body has an effect: with G = 1 its give is put off to its retirement. -/
theorem exec_axu {v : State} {i : Instr} {lat : Nat} {body : State → Verdict} (hready : EngReady s .axu h)
    (hexec : exec i s = .next (s.engIssue .axu i h false lat body)) (hbody : body (s.engIssued .axu h) = .ok v) (hcur : v.cur = s.cur)
    (hchron : v.chron = s.chron) (hreqs : v.reqs = s.reqs) (hctl : v.me.ctl = engCtl s .axu h) :
    ∃ t, exec i s = .next t ∧ Launches v t ∧ (h.g = true → Gives s t .axu i lat) := by
  rw [hexec, State.engIssue_ready hready, hbody]
  dsimp only
  rw [Bool.not_false, Bool.and_true]
  split
  next =>
    obtain ⟨w, hfly, heng, hi, hgive, hto, hdone, hwaits⟩ := v.flies_giveAt .axu i (s.me.queue .axu).pc lat
    rw [hctl, to_seen_engCtl, hchron] at hto
    rw [hchron] at hdone
    rw [hcur] at hfly
    exact ⟨_, rfl, hfly.toLaunches, fun _ => hfly.gives heng hi hgive hto hdone hwaits hreqs hcur⟩
  next hg => exact ⟨v, rfl, .refl v, fun hg' => absurd hg' hg⟩

/-- A word of the AXU whose body finds a fault. -/
theorem axuFaults_of_body {i : Instr} {own : Bool} {lat code : Nat} {body : State → Verdict} (p : PartIx)
    (hexec : exec i s = .next (s.engIssue .axu i h own lat body)) (hbody : body (s.engIssued .axu h) = .plain code) : AxuFaults s i h p code := by
  intro hready hp hr
  have o := s.axuIssued_outside h
  have hframe := FaultFrame.coreFault ((o.partOf s.cur).trans hp) 1 code s.me.axu.q.pc 0 0xFFFF 0xFF none
  refine ⟨_, by rw [hexec, State.engIssue_ready hready, hbody]; rfl, o.halts_coreFault hp hr .axu code _ 0 0xFFFF, ?_, ?_⟩
  · exact hframe.cols.trans o.cols
  · exact hframe.memory.trans o.memory

end Axu

end Sys2Proof

/-! # The row words of the AXU: RACT, RPRE and RSTAT (R100, R211 to R215, R345, R347, R348) -/

namespace Sys2Proof.Machine

/-- The column with a row of a bank opened at a cycle (R211, R215). -/
def Column.activated (k : Column) (b : Fin 32) (row : BitVec 11) (now : Nat) : Column :=
  { k.setRow b (.open_ row now 0 none) with acts := (k.acts.filter fun x => decide (now < x + 40)) ++ [now] }

theorem ColStep.activate (s : State) (c : CoreIx) (b : Fin 32) (row : BitVec 11) (now : Nat) : ColStep s (s.activate c b row now) := ⟨rfl⟩

theorem State.col_activate (s : State) (c : CoreIx) (b : Fin 32) (row : BitVec 11) (now : Nat) :
    (s.activate c b row now).col c = (s.col c).activated b row now := s.col_updCol c fun k => k.activated b row now

theorem State.col_activate_ne (s : State) {c x : CoreIx} (hx : x ≠ c) (b : Fin 32) (row : BitVec 11) (now : Nat) :
    (s.activate c b row now).col x = s.col x := s.col_updCol_ne hx fun k => k.activated b row now

/-- The checks of the refresh slot of an activated bank and of TRASMAX come (R211, R214). -/
theorem State.activate_checks (s : State) (c : CoreIx) (b : Fin 32) (row : BitVec 11) (now : Nat) :
    (∃ e ∈ (s.activate c b row now).agenda, e.cycle = now + 9801 ∧ e.instr = .rowOpenTooLong c b now)
      ∧ ∃ e ∈ (s.activate c b row now).agenda, e.instr = .refreshSlotStart c b :=
  ⟨⟨_, mem_agendaPut .., rfl, rfl⟩, _, (AddsEvents.schedC ..).events _ (mem_agendaPut ..), rfl⟩

/-- The precharge of an open bank takes effect once its last beat is delivered, and completes TRP later (R213). -/
theorem State.rowPre_open {s : State} {c : CoreIx} {b : Fin 32} {row : BitVec 11} {act lb : Nat} (now : Nat)
    (h : (s.col c).rows[b] = .open_ row act lb none) : s.rowPre c b now =
      (s.updCol c fun k => k.setRow b (.open_ row act lb (some (max now (lb + 1))))).schedC (max now (lb + 1) + 18) c (.prechargeComplete c b) := by
  unfold State.rowPre
  rw [h]
  rfl

theorem State.rowPre_completes {s : State} {c : CoreIx} {b : Fin 32} {row : BitVec 11} {act lb : Nat} (now : Nat)
    (h : (s.col c).rows[b] = .open_ row act lb none) :
    ∃ e ∈ (s.rowPre c b now).agenda, e.cycle = max now (lb + 1) + 18 ∧ e.instr = .prechargeComplete c b := by
  rw [State.rowPre_open now h]
  exact ⟨_, mem_agendaPut .., rfl, rfl⟩

theorem State.col_rowPre_open {s : State} {c : CoreIx} {b : Fin 32} {row : BitVec 11} {act lb : Nat} (now : Nat)
    (h : (s.col c).rows[b] = .open_ row act lb none) :
    (s.rowPre c b now).col c = (s.col c).setRow b (.open_ row act lb (some (max now (lb + 1)))) := by
  rw [State.rowPre_open now h]
  exact s.col_updCol c fun k => k.setRow b (.open_ row act lb (some (max now (lb + 1))))

theorem ColStep.rowPre (s : State) (c : CoreIx) (b : Fin 32) (now : Nat) : ColStep s (s.rowPre c b now) := by
  unfold State.rowPre
  split <;> exact ⟨rfl⟩

theorem State.col_rowPre_ne (s : State) {c x : CoreIx} (hx : x ≠ c) (b : Fin 32) (now : Nat) : (s.rowPre c b now).col x = s.col x := by
  unfold State.rowPre
  split
  next row act lb _ => exact s.col_updCol_ne hx fun k => k.setRow b (.open_ row act lb (some (prechargeAt now lb)))
  next => rfl

/-- The fields of RSTAT (R348). -/
theorem Column.rstat_eq (k : Column) (bank : Fin 32) (rowlo now : Nat) : k.rstat bank rowlo now =
    k.rows[bank].at_ now + (if k.half then 4 else 0) + (if k.hot then 8 else 0)
      + ((if k.rows[bank].at_ now = 1 then (match k.rows[bank] with
          | .open_ r act _ _ => (((r.toNat : Int) - rowlo) % 2 ^ 11).toNat * 2 ^ 16 + min (now - act) 65535 * 2 ^ 32
          | _ => 0) else 0)
        + (if k.slotOffset bank.val now < 72 then 0 else min (k.period - k.slotOffset bank.val now) 65535) * 2 ^ 48) := by
  have hslot : (if k.inSlot bank.val now then 0 else min (k.toSlot bank.val now) 65535)
      = if k.slotOffset bank.val now < 72 then 0 else min (k.period - k.slotOffset bank.val now) 65535 := by
    by_cases h : k.slotOffset bank.val now < 72
    · rw [show k.inSlot bank.val now = true from decide_eq_true h, if_pos rfl, if_pos h]
    · rw [show k.inSlot bank.val now = false from decide_eq_false h, if_neg Bool.false_ne_true, if_neg h, Column.toSlot_of_ne_zero (by omega)]
  have hhalf : 4 * ofBool k.half = if k.half then 4 else 0 := by cases k.half <;> rfl
  have hhot : 8 * ofBool k.hot = if k.hot then 8 else 0 := by cases k.hot <;> rfl
  unfold Column.rstat
  dsimp only
  rw [hslot, hhalf, hhot]
  generalize (if k.half then 4 else 0) = half
  generalize (if k.hot then 8 else 0) = hot
  generalize (if k.slotOffset bank.val now < 72 then 0 else min (k.period - k.slotOffset bank.val now) 65535) = refin
  cases k.rows[bank] with
  | closed => simp only [ite_self]; ring
  | precharging u => simp only [ite_self]; ring
  | open_ r act lb pre =>
    have hrow : lowInt ((r.toNat : Int) - rowlo) 11 = (((r.toNat : Int) - rowlo) % 2 ^ 11).toNat := rfl
    by_cases hat : (RowState.open_ r act lb pre).at_ now = 1
    · simp only [hat, if_true, hrow]
      ring
    · simp only [hat, if_false]
      ring

/-- The word of an RPRE in flight, to retire as its precharge takes effect (R347). -/
def State.rpreLaunched (s : State) (i : Instr) (h : Hdr) (pc : Int) (c : CoreIx) (now done : Nat) : State :=
  let waits := if h.g then s.pendingOf c .axu else []
  let (id, s) := s.newId
  s.launch c { id := id, eng := .axu, instr := i, pc := pc, issued := now, doneAt := done, give := h.g, giveTo := (s.me.ctl.seen s.chron).to_ 1, waits := waits }

/-- What an RPRE answers once it names its bank (R347). -/
def State.rpreAnswer (s : State) (i : Instr) (h : Hdr) (pc : Int) (c : CoreIx) (now : Nat) (bank : Fin 32) : Verdict :=
  match (s.col c).rows[bank] with
  | .open_ _ act lb none =>
    if now < act + tRASmin then .plain 0x58 else .ok ((s.rowPre c bank now).rpreLaunched i h pc c now (prechargeAt now lb))
  | .open_ _ act _ (some e) => if now < e ∧ now < act + tRASmin then .plain 0x58 else .ok (s.rpreLaunched i h pc c now (max now e))
  | _ => .ok (s.rpreLaunched i h pc c now now)

theorem State.exec_rpre (s : State) (h : Hdr) (win : Fin 4) (b : Fin 32) (a : Fin 16) : exec (.rpre h win b a) s =
    .next (s.engIssue .axu (.rpre h win b a) h true 0 fun u => match u.rowTarget u.cur win b (u.me.axu.reg a).toNat true with
      | .error code => .plain code
      | .ok (bank, _) => u.rpreAnswer (.rpre h win b a) h s.me.axu.q.pc u.cur u.chron bank) := rfl

theorem State.flies_rpre {s : State} {c : CoreIx} (hc : s.cur = c) (i : Instr) (h : Hdr) (pc : Int) (now done : Nat) :
    ∃ w, Flies s (s.rpreLaunched i h pc c now done) w ∧ w.instr = i ∧ w.give = h.g ∧ w.doneAt = done := by
  subst hc
  exact ⟨_, State.flies_launch (u := s.newId.2) rfl _, rfl, rfl, rfl⟩

theorem State.rpreAnswer_of_closed {s : State} {c : CoreIx} {bank : Fin 32} (h : ∀ r act lb pre, (s.col c).rows[bank] ≠ .open_ r act lb pre) {i : Instr}
    {hd : Hdr} {pc : Int} {now : Nat} : s.rpreAnswer i hd pc c now bank = .ok (s.rpreLaunched i hd pc c now now) := by
  unfold State.rpreAnswer
  split
  next hrow => exact absurd hrow (h _ _ _ _)
  next hrow => exact absurd hrow (h _ _ _ _)
  next => rfl

/-- The word a window names no bank for. -/
theorem State.rowTarget_of_invalid {s : State} {c : CoreIx} {win : Fin 4} (h : (s.core c).ctl.rwin[win].v = false) (b : Fin 32) (r : Nat)
    (bound : Bool) : s.rowTarget c win b r bound = .error 0x56 := by
  unfold State.rowTarget RowWin.resolve
  rw [h]
  rfl

end Sys2Proof.Machine

namespace Sys2Proof

open Machine

/-- An RPRE that may issue, of what it answers once it names its bank (R347). -/
theorem Machine.State.exec_rpre_ok {s u : State} {h : Hdr} {win : Fin 4} {b bank : Fin 32} {a : Fin 16} {row done : Nat} (hready : EngReady s .axu h)
    (htarget : s.rowTarget s.cur win b (s.me.axu.a[a].toNat) true = .ok (bank, row))
    (hanswer : (s.engIssued .axu h).rpreAnswer (.rpre h win b a) h s.me.axu.q.pc s.cur s.chron bank =
      .ok (u.rpreLaunched (.rpre h win b a) h s.me.axu.q.pc s.cur s.chron done)) :
    exec (.rpre h win b a) s = .next (u.rpreLaunched (.rpre h win b a) h s.me.axu.q.pc s.cur s.chron done) := by
  rw [State.exec_rpre, State.engIssue_ready hready]
  simp only [State.axuIssued_cur, State.axuIssued_chron, State.axuIssued_reg, State.axuIssued_rowTarget, htarget]
  rw [hanswer]
  dsimp only
  rw [Bool.not_true, Bool.and_false, if_neg Bool.false_ne_true]

/-- Settles O18: what the body of each word answers (`exec_axu`, `axuFaults_of_body`), with the activation, the precharge and the fields of RSTAT. -/
theorem rowBankWords : Obligations.RowBankWords := by
  refine ⟨fun s h win b a bank row hready => ?_, fun s h win b a bank row p htarget hwrep => ?_, fun s h win b a p hv hwrep => ?_,
    fun s h win b a bank row r act lb hready htarget hopen hras => ?_, fun s h win b a bank row p r act lb htarget hopen hras => ?_,
    fun s h win b a bank row hready htarget hclosed => ?_, fun s h win b a p hv => ⟨?_, ?_⟩, fun s h win b a bank r0 hready htarget => ?_⟩
  · intro k hwrep htarget hacts hclosed hslot
    have hstep := ColStep.activate (s.engIssued .axu h) s.cur bank (BitVec.ofNat 11 row) s.chron
    obtain ⟨t, ht, hl, hgives⟩ := exec_axu (i := .ract h win b a) (v := (s.engIssued .axu h).activate s.cur bank (BitVec.ofNat 11 row) s.chron)
      hready rfl (by
        simp only [State.axuIssued_cur, State.axuIssued_chron, State.axuIssued_col, State.axuIssued_reg, State.axuIssued_rowTarget, htarget]
        rw [if_neg (Nat.not_lt.mpr hwrep), if_neg (Nat.not_le.mpr hacts), if_neg (not_not.mpr hclosed), if_neg (by rw [hslot]; exact Bool.false_ne_true)])
      (hstep.cur.trans (s.axuIssued_cur h)) (hstep.chron.trans (s.axuIssued_chron h)) (hstep.reqs.trans (s.axuIssued_reqs h))
      ((congrArg Core.ctl hstep.me).trans (s.axuIssued_ctl h))
    have hcol : t.col s.cur = k.activated bank (BitVec.ofNat 11 row) s.chron := by
      rw [hl.outside.col, State.col_activate, State.axuIssued_col]
    obtain ⟨⟨e, he, htooLong⟩, e', he', hrefresh⟩ := (s.engIssued .axu h).activate_checks s.cur bank (BitVec.ofNat 11 row) s.chron
    obtain ⟨hdoes, hnext⟩ := engDoes_cols hstep hl
    refine ⟨t, ht, ?_, ?_, fun c hc => ?_, hdoes, hnext, ⟨e, hl.events e he, htooLong⟩, ⟨e', hl.events e' he', hrefresh⟩, hgives⟩
    · rw [hcol]
      rfl
    · rw [hcol]
      exact List.mem_append_right _ (List.mem_singleton_self _)
    · rw [hl.outside.col, State.col_activate_ne _ hc, State.axuIssued_col]
  · refine ⟨fun hacts => axuFaults_of_body p rfl ?_, fun hacts => ⟨fun hrow => axuFaults_of_body p rfl ?_, fun hrow hslot => axuFaults_of_body p rfl ?_⟩⟩
    all_goals
      simp only [State.axuIssued_cur, State.axuIssued_chron, State.axuIssued_col, State.axuIssued_reg, State.axuIssued_rowTarget, htarget]
      rw [if_neg (Nat.not_lt.mpr hwrep)]
    · rw [if_pos hacts]
    · rw [if_neg (Nat.not_le.mpr hacts), if_pos hrow]
    · rw [if_neg (Nat.not_le.mpr hacts), if_neg (not_not.mpr hrow), if_pos hslot]
  · refine axuFaults_of_body p rfl ?_
    simp only [State.axuIssued_cur, State.axuIssued_chron, State.axuIssued_col, State.axuIssued_rowTarget, State.rowTarget_of_invalid hv]
    rw [if_neg (Nat.not_lt.mpr hwrep)]
  · have hissued : ((s.engIssued .axu h).col s.cur).rows[bank] = .open_ r act lb none := by rw [s.axuIssued_col h, hopen]
    obtain ⟨e, he, hcomplete⟩ := State.rowPre_completes s.chron hissued
    have hcur := (ColStep.rowPre (s.engIssued .axu h) s.cur bank s.chron).cur.trans (s.axuIssued_cur h)
    obtain ⟨w, hfly, hi, hgive, hdone⟩ := State.flies_rpre hcur (.rpre h win b a) h s.me.axu.q.pc s.chron (max s.chron (lb + 1))
    obtain ⟨hdoes, hnext⟩ := engDoes_cols (.rowPre ..) hfly.toLaunches
    refine ⟨_, State.exec_rpre_ok hready htarget ?_, ?_, fun c hc => ?_, hdoes, hnext, ⟨e, hfly.events e he, hcomplete⟩, w, hfly.mem, hi, hgive, hdone⟩
    · rw [State.rpreAnswer, hissued]
      exact if_neg (Nat.not_lt.mpr hras)
    · rw [hfly.outside.col, State.col_rowPre_open s.chron hissued, s.axuIssued_col h]
      rfl
    · rw [hfly.outside.col, State.col_rowPre_ne _ hc, s.axuIssued_col h]
  · refine axuFaults_of_body p (s.exec_rpre h win b a) ?_
    simp only [State.axuIssued_cur, State.axuIssued_chron, State.axuIssued_reg, State.axuIssued_rowTarget, htarget]
    rw [State.rpreAnswer, s.axuIssued_col h, hopen]
    exact if_pos hras
  · obtain ⟨w, hfly, hi, hgive, hdone⟩ := State.flies_rpre (s.axuIssued_cur h) (.rpre h win b a) h s.me.axu.q.pc s.chron s.chron
    have hrow : ∀ r act lb pre, ((s.engIssued .axu h).col s.cur).rows[bank] ≠ .open_ r act lb pre := by
      rw [s.axuIssued_col h]
      exact hclosed
    exact ⟨_, State.exec_rpre_ok hready htarget (State.rpreAnswer_of_closed hrow), engDoes_axu (fun _ _ _ => rfl) ((s.axuIssued_outside h).trans hfly.outside)
      (hfly.reqs.trans (s.axuIssued_reqs h)) hfly.me, engNext_axu (by rw [hfly.me]), w, hfly.mem, hi, hgive, hdone⟩
  · refine axuFaults_of_body p rfl ?_
    simp only [State.axuIssued_cur, State.axuIssued_rowTarget, State.rowTarget_of_invalid hv]
  · refine axuFaults_of_body p rfl ?_
    simp only [State.axuIssued_cur, State.axuIssued_rowTarget, State.rowTarget_of_invalid hv]
  · intro k rs o high
    obtain ⟨t, ht, hl, hgives⟩ := exec_axu (i := .rstat h win b a)
      (v := (s.engIssued .axu h).updMe fun c => c.setA a (BitVec.ofNat 64 (k.rstat bank s.me.ctl.rwin[win].rowlo.toNat s.chron))) hready rfl (by
        simp only [State.axuIssued_cur, State.axuIssued_chron, State.axuIssued_col, State.axuIssued_ctl, rwin_engCtl, State.axuIssued_rowTarget, htarget]
        rfl)
      ((State.updMe_cur ..).trans (s.axuIssued_cur h)) ((State.updMe_chron ..).trans (s.axuIssued_chron h))
      ((State.updMe_reqs ..).trans (s.axuIssued_reqs h)) (by rw [State.me_updMe]; exact s.axuIssued_ctl h)
    have hme := hl.me
    rw [State.me_updMe, Column.rstat_eq] at hme
    refine ⟨t, ht, engDoes_axu (fun _ _ _ => rfl) (((s.axuIssued_outside h).then_updMe _).trans hl.outside) (hl.reqs.trans (s.axuIssued_reqs h)) hme,
      engNext_axu (h := h) ?_, hgives⟩
    rw [hme]
    rfl

end Sys2Proof

/-! # Words of the sequencer that start something: HALT, HSET, SCANR, WREP and the CRW to a row window (R99, R190, R425 to R428) -/

namespace Sys2Proof

open Machine

/-! ## The state a SEQ word's body acts on -/

section Issued

variable (s : State) (h : Hdr)

theorem Machine.State.seqIssued_core : (s.seqIssued h).me = seqCore s h := s.seqIssued_me' h

theorem Machine.State.seqIssued_chron : (s.seqIssued h).chron = s.chron := (s.seqIssued_outside h).chron

theorem Machine.State.seqIssued_col (c : CoreIx) : (s.seqIssued h).col c = s.col c := (s.seqIssued_outside h).col c

theorem Machine.State.seqIssued_gpr (r : Fin 32) : (s.seqIssued h).me.seq.gpr r = s.me.seq.gpr r := by
  rw [s.seqIssued_core h]
  rfl

/-- A SEQ word leaves the fixes the cores wait at. -/
theorem Machine.State.seqIssued_fix (c : CoreIx) : ((s.seqIssued h).core c).seq.fix = (s.core c).seq.fix := by
  by_cases hc : c = s.cur
  · rw [hc, s.seqIssued_me h]
  · rw [(s.seqIssued_outside h).cores c hc]

theorem Machine.State.seqIssued_fixWaiting : (s.seqIssued h).fixWaiting s.cur = s.fixWaiting s.cur := by
  have o := s.seqIssued_outside h
  have hleg (p : PartIx) (n : Nat) : ((s.seqIssued h).part p).leg n = (s.part p).leg n := by
    unfold Part.leg
    rw [s.seqIssued_legs h p]
  unfold State.fixWaiting State.groupOf
  simp only [o.partOf, o.coresOf, s.seqIssued_fix h, hleg]

theorem Machine.State.seqIssued_coreQuiet : (s.seqIssued h).coreQuiet s.cur = s.coreQuiet s.cur := by
  unfold State.coreQuiet State.cmdLoads
  rw [(s.seqIssued_reqs h).1, s.seqIssued_me h, s.seqIssued_chron h]
  rfl

end Issued

/-! ## What a SEQ word leaves -/

section Leaves

variable {s t : State} {h : Hdr}

/-- A SEQ word whose issue pointer is where its issue puts it steps to the word after it (R139). -/
theorem seqNext_of_q (hq : t.me.seq.q = (s.seqIssued h).me.seq.q) : SeqNext s t := by
  intro hloops
  rw [SeqGoes, hq, s.seqIssued_core h]
  exact Queue.advance_outside hloops s.chron

/-- A SEQ word with an effect on its core that keeps its queue. -/
theorem seqDoes {f : Core → Core} (hf : ∀ k, (f k).seq.q = k.seq.q) (o : SameOutside s t) (hreqs : t.reqs = s.reqs)
    (hme : t.me = { f (s.seqIssued h).me with pipe := t.me.pipe }) : SeqDoes s t h f :=
  ⟨o, hreqs, by rw [← s.seqIssued_core h]; exact hme, seqNext_of_q (h := h) (by rw [hme]; exact hf _)⟩

/-- A SEQ word that changes its sequencer and puts words in flight alone. -/
theorem seqFrame {q : Seq} (o : SameOutside s t) (hme : t.me = { (s.seqIssued h).me with seq := q, pipe := t.me.pipe }) : SeqFrame s t h := by
  rw [s.seqIssued_core h] at hme
  refine ⟨⟨o, ?_, ?_, ?_, ?_, ?_, ?_, ?_⟩, ?_⟩ <;> rw [hme] <;> rfl

/-- A sequencer with its registers, taints and modes. -/
theorem sameRegsBut_of_seq (hg : t.me.seq.g = (s.seqIssued h).me.seq.g) (ht : t.me.seq.taint = (s.seqIssued h).me.seq.taint)
    (hr : t.me.seq.gReady = (s.seqIssued h).me.seq.gReady) (htraps : SameTraps (s.seqIssued h).me.seq t.me.seq) : SameRegsBut s t [] := by
  rw [s.seqIssued_core h] at hg ht hr htraps
  obtain ⟨hsup, hpmode, hcause, hepc, hvec, hvecL⟩ := htraps
  refine ⟨fun r _ => ⟨?_, ?_, ?_⟩, hsup, hpmode, hcause, hepc, hvec, hvecL⟩
  · rw [Seq.gpr, hg]
    rfl
  · rw [Seq.tnt, ht]
    rfl
  · rw [hr]
    rfl

end Leaves

/-- A SEQ word that may issue and sees to its give itself. -/
theorem exec_seq {s v : State} {h : Hdr} {rs : List (Fin 32)} {i : Instr} {priv : Bool} {lat : Nat} {body : State → Verdict} (hready : SeqReady s h rs)
    (hpriv : priv = true → s.me.seq.sup = true) (hexec : exec i s = .next (s.seqIssue i h rs priv true lat body))
    (hbody : body (s.seqIssued h) = .ok v) : exec i s = .next v := by
  rw [hexec, State.seqIssue_ready hready i hpriv, hbody]
  dsimp only
  rw [Bool.not_true, Bool.and_false, if_neg Bool.false_ne_true]

/-- A fault of a partition leaves the core at hand. -/
theorem Machine.FaultFrame.me {p : PartIx} {s t : State} (hf : FaultFrame p s t) : t.me = s.me := by
  have hcur : t.cur = s.cur := by rw [hf.eq]
  exact (congrArg t.core hcur).trans (State.core_congr hf.cores s.cur)

/-- A SEQ word that would wait in a fixed leg deviates, with its take made (R137). -/
theorem exec_seq_deviates {s : State} {h : Hdr} {rs : List (Fin 32)} {i : Instr} {priv : Bool} {lat : Nat} {body : State → Verdict} {p : PartIx}
    (hready : SeqReady s h rs) (hpriv : priv = true → s.me.seq.sup = true) (hexec : exec i s = .next (s.seqIssue i h rs priv true lat body))
    (hbody : body (s.seqIssued h) = .wait) (hfixed : s.fixedLeg s.cur = true) (hp : s.partOf s.cur = some p) (hr : Running s p) :
    ∃ t, exec i s = .next t ∧ Halts s t p .seq 0x41 s.me.seq.q.pc ∧ SameRegsBut s t [] ∧ t.cols = s.cols := by
  have o := s.seqIssued_outside h
  have hframe := FaultFrame.coreFault ((o.partOf s.cur).trans hp) 0 0x41 s.me.seq.q.pc 0 0xFFFF 0xFF none
  have hme := hframe.me
  refine ⟨(s.seqIssued h).coreFault s.cur 0 0x41 s.me.seq.q.pc, ?_, o.halts_coreFault hp hr .seq 0x41 _ 0 0xFFFF, ?_, hframe.cols.trans o.cols⟩
  · rw [hexec, State.seqIssue_ready hready i hpriv, hbody]
    exact congrArg Host.Outcome.next (if_pos hfixed)
  · exact sameRegsBut_of_seq (h := h) (by rw [hme]) (by rw [hme]) (by rw [hme]) (by rw [hme]; exact .refl _)

end Sys2Proof

/-! ## SEQ words in flight (R181, R425, R427, R428) -/

namespace Sys2Proof.Machine

/-- A word of the sequencer put in flight, to give with G = 1 once the accesses it waits for are performed (R181, R253). -/
def State.launchSeq (s : State) (i : Instr) (h : Hdr) (pc : Int) (done : Nat) (lat waits : List Nat) : State :=
  { s with nextId := s.nextId + 1 }.launch s.cur
    { id := s.nextId, eng := .seq, instr := i, pc := pc, issued := s.chron, doneAt := done, lat := lat, give := h.g,
      giveTo := (s.me.ctl.seen s.chron).to_ 0, waits := waits }

/-- The word `launchSeq` puts in flight. -/
theorem State.flies_launchSeq {s v : State} {i : Instr} {h : Hdr} {pc : Int} {done : Nat} {lat waits : List Nat} (hcur : v.cur = s.cur)
    (hchron : v.chron = s.chron) (hreqs : v.reqs = s.reqs) (hctl : v.me.ctl = seqCtl s h) (hwaits : h.g = true → waits = v.pendingOf v.cur .seq) :
    ∃ w, Flies v (v.launchSeq i h pc done lat waits) w ∧ w.instr = i ∧ w.doneAt = done ∧ w.lat = lat
      ∧ ∀ n, done = s.chron + n → h.g = true → Gives s (v.launchSeq i h pc done lat waits) .seq i n := by
  have hfly := State.flies_launch (s := v) (u := { v with nextId := v.nextId + 1 }) rfl
    { id := v.nextId, eng := .seq, instr := i, pc := pc, issued := v.chron, doneAt := done, lat := lat, give := h.g,
      giveTo := (v.me.ctl.seen v.chron).to_ 0, waits := waits }
  have hto : (v.me.ctl.seen v.chron).to_ 0 = (s.me.ctl.seen s.chron).to_ 0 := by rw [hctl, to_seen_seqCtl, hchron]
  exact ⟨_, hfly, rfl, rfl, rfl, fun n hn hg => hfly.gives rfl rfl hg hto hn (hwaits hg) hreqs hcur⟩

/-- The core at hand with its sequencer ended by a HALT, once its engines are quiet (R425). -/
def State.haltWaits (s : State) (h : Hdr) (a : Fin 32) : State := s.updSeq fun q => { q with haltWait := some ((q.gpr a).setWidth 32, h.g) }

theorem State.exec_halt (s : State) (h : Hdr) (a : Fin 32) : exec (.halt h a) s = .next (s.seqIssue (.halt h a) h [a] false true 0 fun u =>
    if u.fixWaiting u.cur then .plain 0x43
    else if u.fixedLeg u.cur ∧ ¬ u.coreQuiet u.cur then .wait
    else .ok ((u.haltWaits h a).launchSeq (.halt h a) h s.me.seq.q.pc u.chron [] ((u.haltWaits h a).pendingOf u.cur .seq))) := rfl

theorem State.exec_scanr (s : State) (h : Hdr) (d a : Fin 32) : exec (.scanr h d a) s = .next (s.seqIssue (.scanr h d a) h [d, a] true true 0 fun u =>
    let v := u.updSeq fun q => q.pend d (u.chron + 64)
    .ok (v.launchSeq (.scanr h d a) h s.me.seq.q.pc (u.chron + 63) [(v.me.seq.gpr a).toNat % 2 ^ 32] (if h.g then v.pendingOf u.cur .seq else []))) := rfl

theorem State.exec_wrep (s : State) (h : Hdr) (a b : Fin 32) : exec (.wrep h a b) s = .next (s.seqIssue (.wrep h a b) h [a, b] true true 0 fun u =>
    if u.fixedLeg u.cur ∨ ¬ (u.col u.cur).allClosed u.chron ∨ u.chron < (u.col u.cur).wrepEnd then .wait
    else
      let op := (u.me.seq.gpr b).toNat % 4
      let v := u.updCol u.cur fun k => { k with wrepEnd := u.chron + wrepCycles op - 1 + 1 }
      .ok (v.launchSeq (.wrep h a b) h s.me.seq.q.pc (u.chron + wrepCycles op - 1) [op, (v.me.seq.gpr a).toNat]
        (if h.g then v.pendingOf u.cur .seq else []))) := rfl

end Sys2Proof.Machine

namespace Sys2Proof.Machine

theorem Seq.pend_vals (q : Seq) (d : Fin 32) (n : Nat) : (q.pend d n).g = q.g ∧ (q.pend d n).taint = q.taint ∧ SameTraps q (q.pend d n)
    ∧ (q.pend d n).q = q.q := by
  unfold Seq.pend
  split <;> exact ⟨rfl, rfl, ⟨rfl, rfl, rfl, rfl, rfl, rfl⟩, rfl⟩

theorem ColStep.updCol (s : State) (c : CoreIx) (f : Column → Column) : ColStep s (s.updCol c f) := ⟨rfl⟩

end Sys2Proof.Machine

namespace Sys2Proof

open Machine

/-! ## HALT (R425) -/

theorem halt_starts {s : State} {h : Hdr} {a : Fin 32} (hready : SeqReady s h [a]) (hfix : s.fixWaiting s.cur = false)
    (hquiet : s.fixedLeg s.cur = true → s.coreQuiet s.cur = true) :
    ∃ t, exec (.halt h a) s = .next t
      ∧ SeqDoes s t h (fun k => { k with seq := { k.seq with haltWait := some ((s.me.seq.gpr a).setWidth 32, h.g) } })
      ∧ (∃ w ∈ t.me.pipe.infl, w.instr = .halt h a ∧ w.doneAt = s.chron) ∧ (h.g = true → Gives s t .seq (.halt h a) 0) := by
  have o : SameOutside s ((s.seqIssued h).haltWaits h a) := (s.seqIssued_outside h).then_updSeq _
  have hreqs : ((s.seqIssued h).haltWaits h a).reqs = s.reqs := (State.updSeq_reqs ..).trans (s.seqIssued_reqs h).1
  have hme : ((s.seqIssued h).haltWaits h a).me = { (s.seqIssued h).me with
      seq := { (s.seqIssued h).me.seq with haltWait := some (((s.seqIssued h).me.seq.gpr a).setWidth 32, h.g) } } := State.me_updSeq ..
  obtain ⟨w, hfly, hi, hdone, -, hgives⟩ := State.flies_launchSeq (i := .halt h a) (pc := s.me.seq.q.pc) (done := s.chron) (lat := [])
    (waits := ((s.seqIssued h).haltWaits h a).pendingOf s.cur .seq) o.cur o.chron hreqs (by rw [hme, s.seqIssued_core h]; rfl)
    (fun _ => by rw [o.cur])
  refine ⟨_, exec_seq (priv := false) hready nofun (s.exec_halt h a) ?_, seqDoes (fun _ => rfl) (o.trans hfly.outside) (hfly.reqs.trans hreqs) ?_,
    ⟨w, hfly.mem, hi, hdone⟩, hgives 0 rfl⟩
  · simp only [s.seqIssued_cur h, s.seqIssued_chron h, s.seqIssued_fixWaiting h, s.seqIssued_fixedLeg h, s.seqIssued_coreQuiet h]
    rw [if_neg (by rw [hfix]; exact Bool.false_ne_true), if_neg fun hb => hb.2 (hquiet hb.1)]
  · refine hfly.me.trans ?_
    rw [hme, s.seqIssued_gpr h]

/-! ## HSET (R426) -/

theorem hset_asks {s : State} {h : Hdr} {a b : Fin 32} {ia : Nat} (hready : SeqReady s h [a, b]) (hsup : s.me.seq.sup = true)
    (hfree : s.fixedLeg s.cur = false) (hmay : SeqMay s (.hset h a b) (s.me.seq.gpr b) 64 .read ia) :
    ∃ t, exec (.hset h a b) s = .next t
      ∧ SeqAsks s t [] s.nextId .read ia 64 (.hset ((s.me.seq.gpr a).toNat % 2 ^ 16)) (seqDist (bankOf ia)) 0 0
      ∧ t.me.seq.hold = some s.nextId ∧ SameRegsBut s t [] ∧ SeqNext s t ∧ SeqFrame s t h := by
  have o := s.seqIssued_outside h
  obtain ⟨hreqs, hnextId, -, -⟩ := s.seqIssued_reqs h
  obtain ⟨v, hv, hasks, hout, p, n, hold, hme⟩ := State.memAccess_may (State.seqMay_issued hmay h) h s.me.seq.q.pc
    (.hset ((s.me.seq.gpr a).toNat % 2 ^ 16)) 1 (seqDist (bankOf ia)) 0 0 rfl (fun h => absurd rfl h) (fun h => absurd rfl h)
  obtain ⟨r, hr, hid, hcore, hwho, hkind, hia, hn, hdest, hdone, hown, hpinned, hhold⟩ := hasks
  have hme' : (v.updSeq fun q => { q with hold := some s.nextId }).me =
      { (s.seqIssued h).me with pipe := p, seq := { (s.seqIssued h).me.seq with hold := some s.nextId } } := by
    rw [State.me_updSeq, hme]
    rfl
  refine ⟨v.updSeq fun q => { q with hold := some s.nextId }, exec_seq hready (fun _ => hsup) rfl ?_, ?_, ?_, ?_, ?_, ?_⟩
  · refine (if_neg (by rw [s.seqIssued_cur h, s.seqIssued_fixedLeg h, hfree]; exact Bool.false_ne_true)).trans ?_
    rw [s.seqIssued_gpr h, s.seqIssued_gpr h, hv, hnextId]
  · refine ⟨r, hr.trans (by rw [hreqs]), hid.trans hnextId, hcore.trans o.cur, hwho, hkind, hia, hn, hdest, hdone, fun hspad => ?_, fun _ hfixed => ?_,
      fun hspad _ => ?_⟩
    · obtain ⟨⟨e, he, hcycle, hcoreE, hinstr⟩, -⟩ := hown (by rw [o.cur]; exact hspad)
      exact ⟨⟨e, he, by rw [hcycle, o.chron], hcoreE.trans o.cur, hinstr⟩, nofun⟩
    · rw [hfree] at hfixed
      cases hfixed
    · obtain ⟨-, e, he, hcycle, hcoreE, hinstr⟩ := hhold (by rw [o.cur]; exact hspad) (by rw [s.seqIssued_cur h, s.seqIssued_fixedLeg h, hfree])
      exact ⟨by rw [hme', hid, hnextId], e, he, by rw [← o.chron]; exact hcycle, hcoreE.trans o.cur, hinstr⟩
  · rw [hme']
  · exact sameRegsBut_of_seq (h := h) (by rw [hme']) (by rw [hme']) (by rw [hme']) (by rw [hme']; exact ⟨rfl, rfl, rfl, rfl, rfl, rfl⟩)
  · exact seqNext_of_q (h := h) (by rw [hme'])
  · exact seqFrame ((o.trans hout).then_updSeq _) (hme'.trans (by rw [hme']))

/-! ## SCANR (R427) -/

theorem scanr_starts {s : State} {h : Hdr} {d a : Fin 32} (hready : SeqReady s h [d, a]) (hsup : s.me.seq.sup = true) :
    ∃ t, exec (.scanr h d a) s = .next t
      ∧ (∃ w ∈ t.me.pipe.infl, w.instr = .scanr h d a ∧ w.doneAt = s.chron + 63 ∧ w.lat = [(s.me.seq.gpr a).toNat % 2 ^ 32])
      ∧ (d ≠ 0 → t.me.seq.gReady[d] = s.chron + 64) ∧ (h.g = true → Gives s t .seq (.scanr h d a) 63)
      ∧ (∀ r, t.me.seq.gpr r = s.me.seq.gpr r ∧ t.me.seq.tnt r = s.me.seq.tnt r)
      ∧ (∀ r, r ≠ d → t.me.seq.gReady[r] = s.me.seq.gReady[r]) ∧ SameTraps s.me.seq t.me.seq ∧ SeqNext s t ∧ SeqFrame s t h := by
  have o := s.seqIssued_outside h
  have hchron := s.seqIssued_chron h
  have hpend : ∀ r, (((s.seqIssued h).me.seq.pend d (s.chron + 64))).gReady[r] = if d = r ∧ d ≠ 0 then s.chron + 64 else s.me.seq.gReady[r] := by
    intro r
    rw [Seq.pend_get, s.seqIssued_core h]
    rfl
  obtain ⟨hg, htaint, ⟨hsup', hpmode, hcause, hepc, hvec, hvecL⟩, hq⟩ := Seq.pend_vals (s.seqIssued h).me.seq d (s.chron + 64)
  have hme : ((s.seqIssued h).updSeq fun q => q.pend d (s.chron + 64)).me =
      { (s.seqIssued h).me with seq := (s.seqIssued h).me.seq.pend d (s.chron + 64) } := State.me_updSeq ..
  have hgpr (r : Fin 32) : ((s.seqIssued h).updSeq fun q => q.pend d (s.chron + 64)).me.seq.gpr r = s.me.seq.gpr r := by
    rw [hme, ← s.seqIssued_gpr h r, Seq.gpr, Seq.gpr, hg]
  have htnt (r : Fin 32) : ((s.seqIssued h).updSeq fun q => q.pend d (s.chron + 64)).me.seq.tnt r = s.me.seq.tnt r := by
    rw [hme, Seq.tnt, htaint, s.seqIssued_core h]
    rfl
  obtain ⟨w, hfly, hi, hdone, hlat, hgives⟩ := State.flies_launchSeq (v := (s.seqIssued h).updSeq fun q => q.pend d (s.chron + 64))
    (i := .scanr h d a) (pc := s.me.seq.q.pc) (done := s.chron + 63) (lat := [(s.me.seq.gpr a).toNat % 2 ^ 32])
    (waits := if h.g then ((s.seqIssued h).updSeq fun q => q.pend d (s.chron + 64)).pendingOf s.cur .seq else [])
    ((State.updSeq_cur ..).trans o.cur) ((State.updSeq_chron ..).trans o.chron) ((State.updSeq_reqs ..).trans (s.seqIssued_reqs h).1)
    (by rw [hme, s.seqIssued_core h]; rfl) (fun hg => by rw [if_pos hg, State.updSeq_cur, o.cur])
  have htme := hfly.me
  rw [hme] at htme
  have hseq := congrArg Core.seq hfly.me
  refine ⟨_, exec_seq hready (fun _ => hsup) (s.exec_scanr h d a) ?_, ⟨w, hfly.mem, hi, hdone, hlat⟩, fun hd => ?_, hgives 63 rfl,
    fun r => ⟨(congrArg (Seq.gpr · r) hseq).trans (hgpr r), (congrArg (Seq.tnt · r) hseq).trans (htnt r)⟩, fun r hr => ?_, ?_, ?_, ?_⟩
  · simp only [o.cur, o.chron, hgpr]
  · rw [htme]
    exact (hpend d).trans (if_pos ⟨rfl, hd⟩)
  · rw [htme]
    exact (hpend r).trans (if_neg fun h => hr h.1.symm)
  · rw [htme]
    rw [s.seqIssued_core h] at hsup' hpmode hcause hepc hvec hvecL ⊢
    exact ⟨hsup', hpmode, hcause, hepc, hvec, hvecL⟩
  · exact seqNext_of_q (h := h) (by rw [htme]; exact hq)
  · exact seqFrame ((o.then_updSeq _).trans hfly.outside) htme

/-! ## WREP (R428) -/

theorem wrep_starts {s : State} {h : Hdr} {a b : Fin 32} (hready : SeqReady s h [a, b]) (hsup : s.me.seq.sup = true)
    (hfree : s.fixedLeg s.cur = false) (hclosed : (s.col s.cur).allClosed s.chron = true) (hend : (s.col s.cur).wrepEnd ≤ s.chron) (n : Nat)
    (hn : wrepCycles ((s.me.seq.gpr b).toNat % 4) = n) :
    ∃ t, exec (.wrep h a b) s = .next t
      ∧ (∃ w ∈ t.me.pipe.infl, w.instr = .wrep h a b ∧ w.doneAt = s.chron + n - 1 ∧ w.lat = [(s.me.seq.gpr b).toNat % 4, (s.me.seq.gpr a).toNat])
      ∧ t.col s.cur = { s.col s.cur with wrepEnd := s.chron + n } ∧ (∀ c, c ≠ s.cur → t.col c = s.col c)
      ∧ (h.g = true → Gives s t .seq (.wrep h a b) (n - 1)) ∧ SeqDoes s { t with cols := s.cols } h (fun k => k) := by
  have o := s.seqIssued_outside h
  have hcycles : 1 ≤ n := by
    rw [← hn]
    unfold wrepCycles
    split <;> decide
  have hstep := ColStep.updCol (s.seqIssued h) s.cur fun k => { k with wrepEnd := s.chron + n }
  have hreqs := hstep.reqs.trans (s.seqIssued_reqs h).1
  obtain ⟨w, hfly, hi, hdone, hlat, hgives⟩ := State.flies_launchSeq (v := (s.seqIssued h).updCol s.cur fun k => { k with wrepEnd := s.chron + n })
    (i := .wrep h a b) (pc := s.me.seq.q.pc) (done := s.chron + n - 1) (lat := [(s.me.seq.gpr b).toNat % 4, (s.me.seq.gpr a).toNat])
    (waits := if h.g then ((s.seqIssued h).updCol s.cur fun k => { k with wrepEnd := s.chron + n }).pendingOf s.cur .seq else [])
    (hstep.cur.trans o.cur) (hstep.chron.trans o.chron) hreqs (by rw [hstep.me, s.seqIssued_core h]; rfl)
    (fun hg => by rw [if_pos hg, hstep.cur, o.cur])
  refine ⟨_, exec_seq hready (fun _ => hsup) (s.exec_wrep h a b) ?_, ⟨w, hfly.mem, hi, hdone, hlat⟩, ?_, fun c hc => ?_, hgives (n - 1) (by omega),
    seqDoes (fun _ => rfl) ((o.of_cols hstep).trans (hfly.outside.with_cols s.cols)) (hfly.reqs.trans hreqs) ?_⟩
  · have hgo : ¬ (s.fixedLeg s.cur = true ∨ ¬ (s.col s.cur).allClosed s.chron = true ∨ s.chron < (s.col s.cur).wrepEnd) := by
      rw [hfree, hclosed]
      simpa using hend
    simp only [o.cur, o.chron, s.seqIssued_col h, s.seqIssued_fixedLeg h, s.seqIssued_gpr h, hn]
    rw [if_neg hgo, show s.chron + n - 1 + 1 = s.chron + n by omega, hstep.me, s.seqIssued_gpr h]
  · rw [hfly.outside.col, ← s.seqIssued_col h]
    exact State.col_updCol ..
  · rw [hfly.outside.col, ← s.seqIssued_col h]
    exact State.col_updCol_ne _ hc _
  · exact hfly.me.trans (by rw [hstep.me]; rfl)

/-! ## The CRW to a row window (R99, R422) -/

/-- The +0x00 doubleword of a window is its bank mask; ROWLO and ROWHI stand. -/
theorem Machine.RowWin.write_lo (r : RowWin) (k : Column) (v : Nat) : (r.write k false v).bmask = BitVec.ofNat 32 v
    ∧ (r.write k false v).rowlo = r.rowlo ∧ (r.write k false v).rowhi = r.rowhi := ⟨rfl, rfl, rfl⟩

theorem Machine.State.rwinApply_cur (s : State) (w : Fin 4) (hi : Bool) (v : Nat) : (s.rwinApply s.cur w hi v).cur = s.cur := by
  rw [(s.rwinApply_addsEvents s.cur w hi v).eq]
  rfl

theorem Machine.State.me_rwinApply (s : State) (w : Fin 4) (hi : Bool) (v : Nat) :
    (s.rwinApply s.cur w hi v).me = s.me.windowWritten (s.col s.cur) w hi v := by
  rw [State.me, s.rwinApply_cur w hi v, State.rwinApply_core]
  rfl

/-- A CRW to a row window with none of its rows open applies at once, and with G = 1 gives (R99). -/
theorem Machine.State.crwRwin_closed {s : State} {i : Instr} {h : Hdr} {pc : Int} {o v : Nat} {w : Fin 4} (hw : Fin.ofNat 4 ((o - 0x600) / 16) = w)
    (hlow : (o / 8 % 2 == 1) = false) (hclosed : (s.col s.cur).openIn s.me.ctl.rwin[w].bmask s.chron = []) :
    ∃ t, s.crwRwin i h pc o v = .ok t ∧ Launches (s.rwinApply s.cur w false v) t := by
  have hcur := s.rwinApply_cur w false v
  unfold State.crwRwin
  dsimp only
  simp only [hw, hlow, hclosed, List.isEmpty_nil, if_true]
  refine ⟨_, rfl, ?_⟩
  split
  · obtain ⟨_, hfly, -⟩ := (s.rwinApply s.cur w false v).flies_giveAt .seq i pc 0
    rw [hcur] at hfly
    exact hfly.toLaunches
  · exact .refl _

theorem crw_window {s : State} {h : Hdr} {a : Fin 32} {off : BitVec 8} {w : Fin 4} (hready : SeqReady s h [a]) (hsup : s.me.seq.sup = true)
    (hoff : 0x600 ≤ off.toNat * 8 ∧ off.toNat * 8 < 0x640) (hw : Fin.ofNat 4 ((off.toNat * 8 - 0x600) / 16) = w)
    (hlow : (off.toNat * 8 / 8 % 2 == 1) = false) (hclosed : (s.col s.cur).openIn s.me.ctl.rwin[w].bmask s.chron = []) :
    ∃ t, exec (.crw h a off) s = .next t ∧ (t.me.ctl.rwin[w]).bmask = (s.me.seq.gpr a).setWidth 32
      ∧ (t.me.ctl.rwin[w]).rowlo = s.me.ctl.rwin[w].rowlo ∧ (t.me.ctl.rwin[w]).rowhi = s.me.ctl.rwin[w].rowhi
      ∧ (∀ j, j ≠ w → t.me.ctl.rwin[j] = s.me.ctl.rwin[j]) ∧ SameRegsBut s t [] ∧ SeqNext s t := by
  have o := s.seqIssued_outside h
  have hrwin : (s.seqIssued h).me.ctl.rwin = s.me.ctl.rwin := by
    rw [s.seqIssued_core h]
    exact rwin_seqCtl s h
  obtain ⟨t, ht, hl⟩ := State.crwRwin_closed (s := s.seqIssued h) (i := .crw h a off) (h := h) (pc := s.me.seq.q.pc) (v := (s.me.seq.gpr a).toNat)
    hw hlow (by rw [hrwin, o.chron, o.cur, s.seqIssued_col h, hclosed])
  have hme := hl.me
  rw [State.me_rwinApply] at hme
  have hset : t.me.ctl.rwin = s.me.ctl.rwin.set w (s.me.ctl.rwin[w].write (s.col s.cur) false (s.me.seq.gpr a).toNat) := by
    rw [hme, Core.windowWritten]
    dsimp only
    rw [hrwin, o.cur, s.seqIssued_col h]
  obtain ⟨hmask, hlo, hhi⟩ := s.me.ctl.rwin[w].write_lo (s.col s.cur) (s.me.seq.gpr a).toNat
  have hself : t.me.ctl.rwin[w] = s.me.ctl.rwin[w].write (s.col s.cur) false (s.me.seq.gpr a).toNat := by
    rw [hset]
    exact Vector.getElem_set_self ..
  refine ⟨t, exec_seq hready (fun _ => hsup) rfl ?_, ?_, ?_, ?_, fun j hj => ?_, sameRegsBut_of_seq (h := h) ?_ ?_ ?_ ?_, seqNext_of_q (h := h) ?_⟩
  · refine (if_pos hoff).trans ?_
    rw [s.seqIssued_gpr h]
    exact ht
  · rw [hself, hmask]
    rfl
  · rw [hself, hlo]
  · rw [hself, hhi]
  · rw [hset]
    exact Vector.getElem_set_ne _ _ fun he => hj (Fin.ext he.symm)
  · rw [hme]
    rfl
  · rw [hme]
    rfl
  · rw [hme]
    rfl
  · rw [hme]
    exact .refl _
  · rw [hme]
    rfl

/-- Settles O11: each word by what it starts (`halt_starts`, `hset_asks`, `scanr_starts`, `wrep_starts`, `crw_window`), and HSET and WREP in a fixed leg
by the wait their bodies answer. -/
theorem haltTableScanAndRowBus : Obligations.HaltTableScanAndRowBus := by
  refine ⟨fun s h a hready hfix hquiet => halt_starts hready hfix hquiet, fun s h a b ia hready hsup hfree hmay => hset_asks hready hsup hfree hmay,
    fun s h d a hready hsup => scanr_starts hready hsup, fun s h a b hready hsup hfree hclosed hend => ?_,
    fun s h a b p i hi hready hsup hfixed hp hr => ?_, fun s h a off hready hsup hoff => ?_⟩
  · refine wrep_starts hready hsup hfree hclosed hend _ ?_
    have hop : (s.me.seq.gpr b).toNat % 4 < 4 := Nat.mod_lt _ (by decide)
    generalize (s.me.seq.gpr b).toNat % 4 = op at hop
    interval_cases op <;> rfl
  · have hfixed' : (s.seqIssued h).fixedLeg (s.seqIssued h).cur = true := by rw [s.seqIssued_cur h, s.seqIssued_fixedLeg h, hfixed]
    rcases List.mem_cons.mp hi with rfl | hi
    · exact exec_seq_deviates hready (fun _ => hsup) rfl (if_pos hfixed') hfixed hp hr
    · obtain rfl := List.mem_singleton.mp hi
      exact exec_seq_deviates hready (fun _ => hsup) (s.exec_wrep h a b) (if_pos (.inl hfixed')) hfixed hp hr
  · intro i hclosed
    have hw : Fin.ofNat 4 ((off.toNat * 8 - 0x600) / 16) = i := congrArg (Fin.ofNat 4) (by omega)
    simp only [List.mem_cons, List.not_mem_nil, or_false] at hoff
    refine crw_window hready hsup (by omega) hw ?_ hclosed
    have heven : off.toNat * 8 / 8 % 2 = 0 := by omega
    rw [heven]
    rfl

end Sys2Proof
